-- ==== Sys2Proof/Syntax.lean ====
section
/-! DEFINITION. The commands that the package takes, one constructor per row of the spec's table of operations and
events, and the operands they carry. An operand says what the outside world or the silicon's own test finds: a value
written, a sensor reading, whether a self-test passes. What follows from it is the machine's. -/

namespace Sys2Proof

/-- The ports of R573; `jtag` reaches the dictionary through JDICT. -/
inductive Port where
  | host | management | i3c | jtag
  deriving DecidableEq, Repr

/-- Who asks: the port, the SPDM session named (none outside a session), and the source address and port of a
request outside a session (R587). -/
structure Requester where
  port : Port
  session : Option Nat
  source : Nat
  deriving DecidableEq, Repr

/-- An element inside a stack, with the fields of a journal entry (R325). -/
structure StackElement where
  core : Fin 20
  channel : Fin 32
  pc : Fin 2
  bank : Fin 32
  row : Half
  deriving DecidableEq, Repr

/-- The outcome of a channel's pattern test (R310): it passes, it finds failing rows, or a fault that no remap covers; or it finds
that the stack's base die has failed (R319). -/
inductive PatternResult where
  | pass
  | rows (es : List StackElement)
  | whole
  | baseDie
  deriving DecidableEq, Repr

/-- What the work of an INIT stage finds (R22): the flash image that boots and passes its signature check
(0 A, 1 B), the start tests of supervisor pairs A and B (R21), the clock domains neither of whose PLLs locks and those
that lock PLL B only (R617), what the host link trains to, the bridge segments that fail (R485), the uncertain journal entries
with whether their element passes (R326), the results of the channels' tests, the failing slices, bays, couplers and cores, the
slots and shards that fail their digest (R525), and the corrected-event counts of stages 3 and 5 per stack and link with the
seconds they were counted in (R496). -/
structure StageFacts where
  image : Option (Fin 2)
  startA : Bool
  startB : Bool
  pllNone : List (Fin 48)
  pllBOnly : List (Fin 48)
  hostTrained : Option (Fin 16 × Fin 32 × Bool)
  segments : List (Fin 23 × Fin 256)
  uncertain : List (Fin 32 × Fin 512 × Bool)
  channels : List (Fin 1024 × PatternResult)
  baseDies : List (Fin 32)
  slices : List (Fin 8 × Fin 34)
  bays : List (Fin 8 × Fin 34)
  couplers : List (Fin 8)
  cores : List (Fin 192)
  slots : List (Fin 2)
  shards : List (Fin 2 × Fin 16)
  stackCorrected : List (Fin 32 × Nat)
  linkCorrected : List (Fin 24 × Nat)
  seconds : Nat
  deriving DecidableEq, Repr


/-- What the residue and parity checks of an array find on one MMA (R96): nothing, a mismatch that the replay mends, one that
repeats before the write-back, or one that repeats when so many rows of D have been written (R121). -/
inductive ArrayCheck where
  | clean | replayed | persistent
  | writeBack (rows : Nat)
  deriving DecidableEq, Repr

/-- The functions of an atomic (R289, R380). -/
inductive AmoFn where
  | swap | add | and | or | xor | min | max | minu | maxu
  deriving DecidableEq, Repr

/-- The header of a packet (R368), without the fields that only mail uses: class, `FWD`, epoch, destination and source
logical node, sequence number, offset within the region, and key. [Log DESIGN CHOICE 142] -/
structure Header where
  tclass : Fin 8
  fwd : Bool
  epoch : Half
  dst : Fin 1048576
  src : Fin 1048576
  seq : Half
  offset : BitVec 44
  key : Dword
  deriving DecidableEq, Repr

/-- Where an ordered contribution stands in the canonical order (R388): round, logical bay, and the bay's issue order. -/
structure RaccOrder where
  round : Nat
  lbay : Nat
  issue : Nat
  deriving DecidableEq, Repr

/-- Where mail arrives: from a group position, or over a between-group link. -/
inductive MailPort where
  | position (p : Fin 17)
  | between (l : Fin 8)
  deriving DecidableEq, Repr

/-- What the far end of a link says of itself in training (R356): its physical identifier, the slot of the link there,
whether it is a WQN-9200, and its `LINK_GEN_MAX`. -/
structure FarEnd where
  physId : BitVec 24
  slot : Fin 16
  is9200 : Bool
  genMax : Fin 4
  deriving DecidableEq, Repr

/-- A group peer's code of each of its 16 group links (R363). -/
abbrev LinkCodes := List (Fin 7)

/-- An instance of a collective as its members match it: group, `STEP`, earlier issues of that `STEP` in the time step, and
the time step (R220). -/
structure CollId where
  group : Nat
  step : Nat
  ordinal : Nat
  tstep : Nat
  deriving DecidableEq, Repr

/-- The signature of a contribution (R414): kind, function, format, N, `CAP` and `SUBN`. -/
structure CollSig where
  kind : Nat
  fn : Nat
  fmt : Nat
  n : Nat
  cap : Nat
  subn : Nat
  deriving DecidableEq, Repr

/-- What members of an instance send one another (R424 to R430). [Log DESIGN CHOICE 142] -/
inductive CollMsg where
  /-- A partial of a chunk, up a tree: element bits at the combination width, none for an element that is EMPTY; the counts
  of ranks; the status so far; and the digest of its bytes. -/
  | up (chunk : Nat) (vals : List (Option Nat)) (counts : List (Nat × Nat)) (status : Nat) (digest : Dword)
  /-- A chunk of the result, down a tree: element bits, whether each was flushed, and the digest. -/
  | down (chunk : Nat) (vals : List (Nat × Bool)) (digest : Dword)
  /-- The commit token of a tree, with the status and the counts that its root has formed. -/
  | token (tree status : Nat) (counts : List (Nat × Nat))
  | abort (final : Bool)
  /-- A mismatch found below the root: of a digest, or of two signatures. -/
  | report (signature : Bool)
  | ack (chunk : Nat)
  | refetch (chunk : Nat)
  deriving DecidableEq, Repr

/-- A numeric mode object of a mode set (R92). -/
inductive ModeObject where
  | subn | acc | stats
  deriving DecidableEq, Repr

/-- How far an access of a hart goes: a page-table read of a TLB refill leaves the core, the L1 data cache satisfies the access,
or the access leaves the core (R242, R258). -/
inductive CoreReach where
  | refill
  | l1
  | beyond
  deriving DecidableEq, Repr

/-- The loads of a hart, FLW and FLD among them. -/
inductive LoadKind where
  | lb | lh | lw | ld | lbu | lhu | lwu | flw | fld
  deriving DecidableEq, Repr

/-- The stores of a hart, FSW and FSD among them. -/
inductive StoreKind where
  | sb | sh | sw | sd | fsw | fsd
  deriving DecidableEq, Repr

/-- The instructions of the A extension: LR, SC, or an AMO. -/
inductive HartAtomic where
  | lr | sc
  | amo (fn : AmoFn)
  deriving DecidableEq, Repr

/-- The supervisor-level interrupts of a hart. -/
inductive HartInterrupt where
  | software | timer | external
  deriving DecidableEq, Repr

/-- Where a word of a core fails parity (R291): an L1 line, or a register file or the store buffer. -/
inductive CorePart where
  | l1 | registers
  deriving DecidableEq, Repr

/-- What the ECC of a stack finds on a read of a line (R300): nothing, an error that it corrects, or an atom that it
cannot correct. -/
inductive EccFinding where
  | clean | corrected
  | uncorrectable (atom : Fin 2)
  deriving DecidableEq, Repr

/-- What the ECC of the LLM arrays finds on an access (R336): nothing, a corrected word of the line, or an uncorrectable one, with
whether the line is dirty for a write that had no STACK_WRITE of its own. -/
inductive WordFinding where
  | clean
  | corrected (word : Fin 8)
  | bad (word : Fin 8) (dirty : Bool)
  deriving DecidableEq, Repr

/-- What an access finds at its home slice (R333 to R336): whether the line is present, what the ECC of the arrays finds in a
present one, and whether the slice's error persists. -/
structure SliceAccess where
  present : Bool
  word : WordFinding
  persistent : Bool
  deriving DecidableEq, Repr

/-- A tile buffer in a node record: format, valid rows, and element bits by position. -/
structure TileImage where
  fmt : Nat
  rows : Nat
  data : List (Nat × Nat)
  deriving DecidableEq, Repr

/-- The captured state of a logical bay in a node record (R127, R499, R502). -/
structure BayImage where
  table : Nat
  index : Nat
  stack : List (Nat × Nat)
  left : List Nat
  count : List Nat
  event : Nat
  preds : List Nat
  slots : List Nat
  cf : Nat
  tiles : List TileImage
  model : Option Nat
  streams : List (Option Nat)
  /-- LAST entries completed in the job, and issues of each `STEP` in the open time step (R220, R226). -/
  lasts : Nat
  issues : List (Nat × Nat)
  /-- The most recent COLL of each `STEP` in it (R221). -/
  lastColl : List (Nat × Nat)
  /-- Digest streams closed at a LAST whose boundary has not passed. -/
  closed : List (List (Option Nat))
  deriving DecidableEq, Repr

/-- A tensor in an image stream (R507): its header, its scale area, and its element bytes. -/
structure TensorImage where
  tag : Nat
  fmt : Nat
  scaleOnly : Bool
  shape : List Nat
  origin : List Nat
  head : List Byte
  codes : List Nat
  data : List Byte
  deriving DecidableEq, Repr

/-- An image: the node record and the tensors of the snapshot list (R502, R507). -/
structure Image where
  epoch : Nat
  tstep : Nat
  gen : Nat
  raccRound : Nat
  bays : List (Nat × BayImage)
  tensors : List TensorImage
  deriving DecidableEq, Repr

/-- What a line that the scrubber reads belongs to (R329): node memory, a snapshot slot, an area of a shard store, or the
rest of the reserve. -/
inductive ScrubPlace where
  | memory (a : BitVec 41)
  | slot (k : Fin 2)
  | shard (k : Fin 2) (area : Fin 16)
  | reserve
  deriving DecidableEq, Repr

/-- A hop on which a word is moved (R483), where no row of its own covers it: a die's own wires, a segment of a bridge, a
field coupler, or a port of a fabric die. -/
inductive Hop where
  | onDie
  | bridge (bridge : Fin 23) (segment : Fin 256)
  | coupler (die : Fin 8)
  | port (fd : Fin 4) (port : Fin 6)
  deriving DecidableEq, Repr

/-- What a pairing message carries (R467): the sender's logical identifier, signature, `STRICT`, `FIXED_TIMING`, digest of its
power-cap objects, `XW_PARTNER`, and `XW_ENABLE`. -/
structure XwPairing where
  lnode : Nat
  signature : Nat
  strict : Bool
  fixed : Bool
  caps : Nat
  partner : Nat
  enabled : Bool
  deriving DecidableEq, Repr

/-- A holder's answer to a shard (R508, R510): committed; refused as larger than its area; not committed; or the holder is
lost. -/
inductive DrainAnswer where
  | committed | tooLarge | failed | lost
  deriving DecidableEq, Repr

/-- How a message of mail ends at its destination (R393, R397): plainly, with its notify word at an offset, or in the format of a
WQN-8100. -/
inductive MailKind where
  | plain
  | notify (off : Nat)
  | forerunner
  deriving DecidableEq, Repr

/-- What a packet carries besides its header (R368). [Log DESIGN CHOICE 142] -/
inductive Body where
  | read (len : Nat)
  | readResp (data : List Byte) (poison : Bool)
  /-- A write; one of no bytes asks for the checks alone (R219). -/
  | write (data : List Byte) (poison : Bool)
  | ack
  | amo (fn : AmoFn) (size : Nat) (operand : Nat)
  | amoResp (old : Nat) (poison : Bool)
  /-- A reduction of elements of a format into elements of a format, ordered or relaxed (R386 to R388). -/
  | racc (fn srcFmt dstFmt : Nat) (data : List Byte) (order : Option RaccOrder)
  /-- A signal (R384), the last packet of an operation that has sent `count` before it; that of an ordered RACC is ordered with it. -/
  | signal (order : Option RaccOrder) (count : Nat)
  /-- A refusal; that of a packet of mail names its message and packet, and the links it has crossed (R375). -/
  | nack (code cause : Nat) (mail : Option (Nat × Nat × Nat))
  /-- A packet of a mail message: message and packet number, packets of the message, its kind, its data, and the links it has
  crossed. -/
  | mail (msg pkt total : Nat) (kind : MailKind) (data : List Byte) (hops : Nat)
  /-- Every packet of the messages of the pair before `msg`, and of `msg` before `pkt`, has arrived, with the notifies of the former;
  `done` says so of `msg` too. -/
  | mailAck (msg pkt : Nat) (done : Bool) (hops : Nat)
  /-- The close message of a round (R387). -/
  | close (round : Nat)
  /-- The link states of the sender (R365). -/
  | linkState (states : List Nat)
  /-- A message of a collective (R420): instance, run, signature. -/
  | coll (id : CollId) (run : Nat) (sig : CollSig) (m : CollMsg)
  /-- A fence message, or word that the sender has withdrawn from the fence (R379, R548). -/
  | fence (withdrawn : Bool)
  /-- The release of a group by its representative at a job barrier (R441). -/
  | release
  /-- Shard `index` of the image stream of an image, a shard on its way through a detour, and a holder's answer (R506, R508, R510). -/
  | shard (index : Nat) (image : Image)
  | shardData (index tstep gen imageBytes : Nat) (data : List Byte)
  | shardAck (gen : Nat) (answer : DrainAnswer)
  /-- The takeover update of a hot spare with the lost position, and its acknowledgement (R519). -/
  | takeover (lost : Nat)
  | takeoverAck
  /-- A node digest, to the group's hot spare (R521). -/
  | nodeDigest (tstep digest : Nat)
  /-- Crosswind: a pairing message (R467), or word that the pairing has ended here (R474); a node digest, the stream digests, the
  chunk records of a stream, and whether the chunk is unchanged, its bytes and the word at the first that differs (R469, R472). -/
  | xwPair (m : Option XwPairing)
  | xwDigest (tstep digest : Nat)
  | xwStreams (tstep : Nat) (streams : List (Nat × Nat))
  | xwChunks (tstep : Nat) (records : List (Nat × Nat))
  | xwBytes (tstep : Nat) (intact : Bool) (data : List Byte) (word : Nat)
  deriving DecidableEq, Repr

/-- A packet. -/
structure Packet where
  h : Header
  body : Body
  deriving DecidableEq, Repr

/-- What a message of control arrives with: the group position whose link it came over, and its header (R364, R370). -/
structure Arrival where
  pos : Fin 17
  h : Header
  deriving DecidableEq, Repr

/-- A NACK's cause (R375); that of a packet of mail names its message and packet, and the links it has crossed. -/
structure NackInfo where
  cause : Fin 3
  mail : Option (Half × Half × Nat)
  deriving DecidableEq, Repr

/-- A signal: its place in the order of its ordered RACC, and the packets of its operation before it (R384). -/
structure SignalInfo where
  order : Option RaccOrder
  count : Nat
  deriving DecidableEq, Repr

/-- The link control of a flit (R351): its sequence number, the number of the flit that the far end wants next, and the flit from
which it asks for a resend. -/
structure FlitControl where
  seq : Half
  ack : Half
  resend : Option Half
  deriving DecidableEq, Repr

/-- An address of the dictionary: [23:8] index, [7:0] subindex (R538, R584). -/
abbrev ObjAddr := BitVec 24

/-- An SPDM request (R560), with what of its contents decides the answer: the measurement asked for; the identifier of the
session that KEY_EXCHANGE opens; the leaf and root certificate digests that FINISH presents, and whether its signature
verifies. -/
inductive SpdmRequest where
  | getVersion | getCapabilities | negotiateAlgorithms | getDigests
  | getCertificate (slot : Byte) (offset len : Half)
  | challenge
  | getMeasurements (index : Byte)
  | keyExchange (id : Word)
  | finish (id : Word) (leaf root : BitVec 384) (verified : Bool)
  | heartbeat | keyUpdate | endSession
  deriving DecidableEq, Repr

/-- The body of a JP2 message (R585), its `TYPE` and payload: `other` is a type that the table lacks. -/
inductive Jp2Body where
  | read (len : Word)
  | write (data : List Byte)
  | spdm (m : SpdmRequest)
  | subOpenSample (objects : List ObjAddr) (periodUs : Nat)
  | subOpenAudit (start : Dword) (hold : Bool)
  | subAck (seq : Dword)
  | subClose (number : Byte)
  | other (type : Byte)
  deriving DecidableEq, Repr

/-- A JP2 message (R584): magic, version, `SESSION`, `RSEQ`, `OBJ`, `OFFSET`, and its body; `secured` says that it came as a
secured message, and whether that passed its check (R586). [Log DESIGN CHOICE 50] -/
structure Jp2Message where
  magic : Half
  version : Byte
  session : Word
  secured : Option Bool
  rseq : Dword
  obj : ObjAddr
  offset : Word
  body : Jp2Body
  deriving DecidableEq, Repr

/-- A JP1 request (R588): a read, a write, or a type that JP1 lacks. [Log DESIGN CHOICE 50] -/
inductive Jp1Request where
  | read (obj : ObjAddr)
  | write (obj : ObjAddr) (data : List Byte)
  | other (type : Byte)
  deriving DecidableEq, Repr

/-- What the load monitors find in 1 ms (R403, R663, R664): the percentage saturated per level; the latencies in ns that were
timed, by path; the saturated cycles of the slices of each die and of each link; and the loads of stacks and links at its
end, in per cent. -/
structure LoadFacts where
  levels : List (Fin 101)
  latencies : List (Fin 6 × Nat)
  sliceCycles : List (Fin 8 × Nat)
  linkCycles : List (Fin 24 × Nat)
  stackLoads : List (Fin 32 × Fin 101)
  linkLoads : List (Fin 24 × Fin 101)
  deriving DecidableEq, Repr


/-- The commands: one constructor per row of the table of operations and events. [Log DESIGN CHOICE 209, 210] -/
inductive Instr where
  /-- VIN_AON_APPLIED (R629): VIN_AON enters its range and the power-on reset returns everything, including the always-on island, to its defaults. -/
  | vinAonApplied
  /-- CRYSTAL_STABLE (R613): The crystal counter reaches 131,072 consecutive cycles, and the always-on logic moves from the RC clock to MCLK. -/
  | crystalStable
  /-- CRYSTAL_FAIL_TIMEOUT (R614): The crystal is not judged stable 100 ms after VIN_AON, so XTAL_STATE becomes failed and the node stays in OFF. -/
  | crystalFailTimeout
  /-- MCLK_STOP (R615): MCLK stops after the crystal was judged stable; every PLL loses its reference and the node enters FAULTED. -/
  | mclkStop
  /-- VIN_MAIN_IN_RANGE (R38): VIN_MAIN enters 11.4–12.6 V with VIN_AON present and the crystal stable, and the node moves from OFF to AON. -/
  | vinMainInRange
  /-- PWR_OK_ASSERTED (R28): PWR_OK is asserted, the POS straps are latched and the node enters INIT held in reset. -/
  | pwrOkAsserted (pos : Fin 32)
  /-- PWR_OK_DEASSERTED (R636): PWR_OK is deasserted or VIN_MAIN leaves its range; the stacks enter self-refresh and the node enters OFF. -/
  | pwrOkDeasserted (vinMainLost : Bool)
  /-- STACK_RAIL_OUT_OF_RANGE (R635): A stack rail is out of range for more than 20 µs, so stack contents and slots are lost and the node enters FAULTED. -/
  | stackRailOutOfRange (rail : Fin 3)
  /-- COLD_RESET (R629): RST_N is asserted for long enough to be recognised and the cold reset returns warm and cold objects to their defaults. -/
  | coldReset (width : Nat)
  /-- WARM_RESET (R629): WARM_RST_N is asserted and the warm reset returns warm-domain objects and ends the job. -/
  | warmReset (width : Nat)
  /-- RESET_AFTER_FUSE_PULSE (R40): A warm reset that was held back by a running fuse pulse takes effect when the pulse ends. -/
  | resetAfterFusePulse
  /-- RESET_RELEASED (R630): The reset signal is released and INIT begins at stage 1. -/
  | resetReleased
  /-- INIT_STAGE_COMPLETE (R22): An INIT stage finishes its work and passes, and the next stage begins. -/
  | initStageComplete (facts : StageFacts)
  /-- PLL_A_LOCK_TIMEOUT (R617): PLL A of a domain fails to lock within 1 ms, so PLL B is selected, or the node faults if PLL B also fails. -/
  | pllALockTimeout (k : Fin 48) (bLocks : Bool)
  /-- PLL_LOSS_OF_LOCK (R623): The active PLL of a domain loses lock; the spare PLL is powered and a switch to RC is requested. -/
  | pllLossOfLock (k : Fin 48)
  /-- SPARE_PLL_LOCK_TIMEOUT (R623): The spare PLL has not locked 50 µs after the domain reset, so the domain stays on RC and the node enters FAULTED. -/
  | sparePllLockTimeout (k : Fin 48)
  /-- CLK_SEL_WRITE (R619): A write of CLK_SEL starts a native glitch-free switch of a domain's clock source. -/
  | clkSelWrite (q : Requester) (k : Fin 48) (v : Byte)
  /-- READY_FLAG_SWITCH (R625): A write of CLK_SEL in compatibility mode is checked against CLK_READY and either starts the switch or is refused with STATE. -/
  | readyFlagSwitch (q : Requester) (k : Fin 48) (v : Byte)
  /-- CLOCK_SWITCH_COMPLETE (R619): The multiplexer has seen low phases of both clocks and changes its output. -/
  | clockSwitchComplete (k : Fin 48)
  /-- CLOCK_MUX_HANG (R620): The watchdog finds a switch in progress for 20 µs, raises CLOCK_MUX_HANG and resets the domain's clock unit. -/
  | clockMuxHang (k : Fin 48) (spareLocked : Bool)
  /-- POWER_SAMPLE (R638): The 100 µs power measurement is taken and compared with the caps and the current limit. -/
  | powerSample (mv : Nat) (ma : Nat) (stackMw : Nat)
  /-- THROTTLE_STEP_UP (R639): Each 1 ms with enough margin, the clocks are raised by one step toward their maximum. -/
  | throttleStepUp
  /-- ARRAY_THROTTLE_START (R640): VIN_MAIN current above 520 A for 2 µs makes every array issue at half rate. -/
  | arrayThrottleStart (ma : Nat)
  /-- ARRAY_THROTTLE_END (R640): The array throttle ends once the current falls below 500 A, or after at most 1 ms. -/
  | arrayThrottleEnd
  /-- THERMAL_SAMPLE (R643): The sensor hub reads every sensor at its 50 µs tick. -/
  | thermalSample (readings : List (Option Int))
  /-- THERMAL_FLOOR_TIMEOUT (R646): An element stays above threshold + 3 K for 10 ms at the clock floor, so DEADLINE_MISSED is raised and Lull is requested. -/
  | thermalFloorTimeout (element : Fin 46)
  /-- HARDWARE_THERMAL_TRIP (R647): A 105 °C comparator trips; THERM_TRIP_N is asserted, the compute and processor dies are switched off and the node enters FAULTED. -/
  | hardwareThermalTrip (sensor : Fin 128)
  /-- COOLANT_LOW (R650): A coolant condition has held for 1 s, so ALERT_N is asserted and the coolant cap is applied. -/
  | coolantLow
  /-- COOLANT_CLEAR (R650): The coolant condition has been absent for 10 s and the cap is cleared. -/
  | coolantClear
  /-- STATE_REQUEST_LULL (R38): A write of 0x05 to STATE_REQUEST requests Lull at the next time-step boundary. -/
  | stateRequestLull (q : Requester)
  /-- LULL_DEADLINE_EXPIRY (R39): LULL_DEADLINE passes before a boundary is reached; the request fails and DEADLINE_MISSED is raised. -/
  | lullDeadlineExpiry
  /-- STATE_REQUEST_RESUME (R38): A write of 0x04 to STATE_REQUEST resumes RUN or DEGRADED from LULL. -/
  | stateRequestResume (q : Requester)
  /-- SERVICE_REQUEST_ENTER (R38): A write of 1 to SERVICE_REQUEST moves a node without a job into SERVICE. -/
  | serviceRequestEnter (q : Requester)
  /-- SERVICE_REQUEST_EXIT (R42): A write of 0 to SERVICE_REQUEST in SERVICE enters INIT, or is refused with BUSY while work is still running. -/
  | serviceRequestExit (q : Requester)
  /-- LOCATION_WRITE (R30): The board controller writes LOCATION, which sets LOC_SET and lets INIT continue past stage 5. -/
  | locationWrite (q : Requester) (v : Word)
  /-- TIME_STEP_BOUNDARY (R226): A LAST entry has completed at every bay of the job; loop counters, windows and digest streams are closed. -/
  | timeStepBoundary
  /-- MODE_SET_WRITE (R94): A write of a mode-set object is checked and takes effect at once, or at the next boundary when a job uses the set. -/
  | modeSetWrite (q : Requester) (o : ModeObject) (n : Fin 16) (v : Byte)
  /-- ENTRY_ISSUE (R207): The sequencer issues the next table entry in table order. -/
  | entryIssue (b : Fin 256)
  /-- ENTRY_START (R207): An issued entry starts once all of its start conditions hold. -/
  | entryStart (b : Fin 256) (queueFull : Bool)
  /-- ENTRY_COMPLETE (R209): An entry's writes and statistics merge are done, so its completion record is formed and the next entry is chosen. -/
  | entryComplete (b : Fin 256) (queueFull : Bool)
  /-- DEADLINE_MISSED (R228): An entry's deadline passes; DEADLINE_MISSED is raised and DEADLINE_POLICY is applied. -/
  | deadlineMissed (b : Fin 256) (k : Nat)
  /-- ENTRY_ABANDON (R229): A FENCE, WAIT or EPOCH not complete at four times its deadline is abandoned and the table halts. -/
  | entryAbandon (b : Fin 256) (queueFull : Bool)
  /-- MMA_FULL (R109): The full form of MMA computes D = C + cA × cB × A × B in the fixed accumulation order. -/
  | mmaFull (b : Fin 256) (check : ArrayCheck)
  /-- MMA_PARTIAL (R215): The partial form of MMA computes a sub-range of segments and writes them as a partial tensor. -/
  | mmaPartial (b : Fin 256) (check : ArrayCheck)
  /-- MMA_COMBINE (R118): The combine form of MMA reads the partials, applies the tree and the final expression, and writes D. -/
  | mmaCombine (b : Fin 256) (check : ArrayCheck)
  /-- ARRAY_BIST_COMPLETE (R121): The array BIST ends; on a pass the bay resumes, and on a fail a spare is chosen and the copy starts. -/
  | arrayBistComplete (die : Fin 8) (phys : Fin 34) (pass : Bool)
  /-- BAY_SPARE_COPY_COMPLETE (R121): The store and sequencer copy to the spare finishes, the map is updated and the spare resumes the step. -/
  | baySpareCopyComplete (die : Fin 8) (phys : Fin 34)
  /-- VOP_COPY (R157): VOP COPY converts a to the destination format. -/
  | vopCopy (b : Fin 256)
  /-- VOP_ADD (R157): VOP ADD computes a + b per element. -/
  | vopAdd (b : Fin 256)
  /-- VOP_SUB (R157): VOP SUB computes a − b per element. -/
  | vopSub (b : Fin 256)
  /-- VOP_MUL (R157): VOP MUL computes a × b per element. -/
  | vopMul (b : Fin 256)
  /-- VOP_FMA (R157): VOP FMA computes a × b + d with one rounding. -/
  | vopFma (b : Fin 256)
  /-- VOP_DIV (R157): VOP DIV computes a / b per element. -/
  | vopDiv (b : Fin 256)
  /-- VOP_SQRT (R157): VOP SQRT computes the square root of a. -/
  | vopSqrt (b : Fin 256)
  /-- VOP_MIN (R157): VOP MIN returns the smaller of a and b. -/
  | vopMin (b : Fin 256)
  /-- VOP_MAX (R157): VOP MAX returns the larger of a and b. -/
  | vopMax (b : Fin 256)
  /-- VOP_ABS (R157): VOP ABS returns the magnitude of a. -/
  | vopAbs (b : Fin 256)
  /-- VOP_NEG (R157): VOP NEG returns −a. -/
  | vopNeg (b : Fin 256)
  /-- VOP_SCALE (R157): VOP SCALE returns a × 2^n. -/
  | vopScale (b : Fin 256)
  /-- VOP_SEL (R157): VOP SEL selects a or b by a predicate bit. -/
  | vopSel (b : Fin 256)
  /-- VOP_SHIFTC (R157): VOP SHIFTC moves a by n columns, filling the vacated columns from b. -/
  | vopShiftc (b : Fin 256)
  /-- VOP_RELU (R157): VOP RELU returns max(a, +0). -/
  | vopRelu (b : Fin 256)
  /-- VOP_CMPEQ (R165): The compare CMPEQ writes a predicate of a = b, combined per column. -/
  | vopCmpeq (b : Fin 256)
  /-- VOP_CMPLT (R165): The compare CMPLT writes a predicate of a < b. -/
  | vopCmplt (b : Fin 256)
  /-- VOP_CMPLE (R165): The compare CMPLE writes a predicate of a ≤ b. -/
  | vopCmple (b : Fin 256)
  /-- VOP_CMPNE (R165): The compare CMPNE writes a predicate of a ≠ b. -/
  | vopCmpne (b : Fin 256)
  /-- VOP_PAND (R216): PAND writes the AND of two predicates. -/
  | vopPand (b : Fin 256)
  /-- VOP_POR (R216): POR writes the OR of two predicates. -/
  | vopPor (b : Fin 256)
  /-- VOP_PXOR (R216): PXOR writes the XOR of two predicates. -/
  | vopPxor (b : Fin 256)
  /-- VOP_PNOT (R216): PNOT writes the complement of a predicate. -/
  | vopPnot (b : Fin 256)
  /-- VOP_PSET (R216): PSET writes a 64-bit immediate to a predicate. -/
  | vopPset (b : Fin 256)
  /-- VOP_EXP (R159): VOP EXP computes e^a with the firmware algorithm. -/
  | vopExp (b : Fin 256)
  /-- VOP_LOG (R159): VOP LOG computes ln a. -/
  | vopLog (b : Fin 256)
  /-- VOP_TANH (R159): VOP TANH computes tanh a. -/
  | vopTanh (b : Fin 256)
  /-- VOP_SIGM (R159): VOP SIGM computes the logistic sigmoid of a. -/
  | vopSigm (b : Fin 256)
  /-- VOP_SILU (R159): VOP SILU computes a × SIGM(a). -/
  | vopSilu (b : Fin 256)
  /-- VOP_GELU (R159): VOP GELU computes a × Φ(a). -/
  | vopGelu (b : Fin 256)
  /-- VRED_SUM (R169): VRED SUM reduces the values in the fixed tree. -/
  | vredSum (b : Fin 256)
  /-- VRED_SUMSQ (R169): VRED SUMSQ reduces the squares of the values. -/
  | vredSumsq (b : Fin 256)
  /-- VRED_DOT (R169): VRED DOT reduces the products of a and b. -/
  | vredDot (b : Fin 256)
  /-- VRED_MAX (R167): VRED MAX finds the largest value. -/
  | vredMax (b : Fin 256)
  /-- VRED_MIN (R167): VRED MIN finds the smallest value. -/
  | vredMin (b : Fin 256)
  /-- VRED_MAXABS (R167): VRED MAXABS finds the largest magnitude. -/
  | vredMaxabs (b : Fin 256)
  /-- VRED_ARGMAX (R168): VRED ARGMAX writes the index of the largest value. -/
  | vredArgmax (b : Fin 256)
  /-- VRED_COUNTNZ (R167): VRED COUNTNZ counts the non-zero values that are not NaN. -/
  | vredCountnz (b : Fin 256)
  /-- XFER (R218): XFER moves a tensor of equal format and shape, with an LLM policy. -/
  | xfer (b : Fin 256)
  /-- GATH (R219): GATH gathers table elements by U32 indices into D, or faults leaving D unchanged. -/
  | gath (b : Fin 256)
  /-- SCAT (R219): SCAT checks every index and then writes the values in increasing element order. -/
  | scat (b : Fin 256)
  /-- RSTORE (R380): RSTORE writes a local source into a remote tensor, by fabric or by mail. -/
  | rstore (b : Fin 256)
  /-- RACC_RELAXED (R386): The relaxed RACC applies contributions at the target in arrival order. -/
  | raccRelaxed (b : Fin 256)
  /-- RACC_ORDERED (R388): The ordered RACC stages contributions for application in canonical round order. -/
  | raccOrdered (b : Fin 256)
  /-- MCAST (R390): MCAST writes the template window into every member of a multicast set. -/
  | mcast (b : Fin 256)
  /-- TRANS_ENCODE (R183): TRANS ENCODE converts an IEEE source to a block format on the couplers. -/
  | transEncode (b : Fin 256)
  /-- TRANS_DECODE (R183): TRANS DECODE converts a block-format source to an IEEE format. -/
  | transDecode (b : Fin 256)
  /-- TRANS_RECODE (R183): TRANS RECODE converts one block format to another. -/
  | transRecode (b : Fin 256)
  /-- TRANS_CONVERT (R183): TRANS CONVERT converts between IEEE formats with one rounding. -/
  | transConvert (b : Fin 256)
  /-- TRANS_PART_COMPLETE (R182): A coupler finishes its part; once all parts are done the origin merges the statistics and the TRANS completes. -/
  | transPartComplete (b : Fin 256) (c : Fin 8)
  /-- HIST_CLEAR (R191): HIST CLEAR empties a statistics record. -/
  | histClear (b : Fin 256)
  /-- HIST_CARRY (R191): HIST CARRY computes the coarse scale from a record, writes it and empties the record. -/
  | histCarry (b : Fin 256)
  /-- HIST_COPY (R191): HIST COPY copies a 640 B record to an address. -/
  | histCopy (b : Fin 256)
  /-- HIST_MERGE (R191): HIST MERGE merges one record into another. -/
  | histMerge (b : Fin 256)
  /-- HIST_SCAN (R191): HIST SCAN reads a tensor and merges statistics of its values. -/
  | histScan (b : Fin 256)
  /-- COLL_ALLREDUCE (R410): COLL ALLREDUCE reduces contributions and delivers the result to every member. -/
  | collAllreduce (b : Fin 256)
  /-- COLL_REDUCE (R410): COLL REDUCE delivers the reduced result at rank 0. -/
  | collReduce (b : Fin 256)
  /-- COLL_REDUCE_SCATTER (R410): COLL REDUCE_SCATTER delivers block r of the reduced vector to rank r. -/
  | collReduceScatter (b : Fin 256)
  /-- COLL_BROADCAST (R410): COLL BROADCAST delivers the data of rank 0 to every member. -/
  | collBroadcast (b : Fin 256)
  /-- COLL_ALLGATHER (R410): COLL ALLGATHER concatenates the contributions in rank order. -/
  | collAllgather (b : Fin 256)
  /-- COLL_ALLGATHERV (R433): COLL ALLGATHERV gathers contributions of varying count, padded to the capacity. -/
  | collAllgatherv (b : Fin 256)
  /-- COLL_BARRIER (R410): COLL BARRIER synchronises the members of an instance. -/
  | collBarrier (b : Fin 256)
  /-- FENCE (R220): FENCE waits for local visibility or remote acknowledgement and may discard the cache or window. -/
  | fence (b : Fin 256)
  /-- WAIT_EVENT (R221): WAIT EVENT waits for a bit of the bay's event register and clears it. -/
  | waitEvent (b : Fin 256)
  /-- WAIT_FLAG (R221): WAIT FLAG waits until a U64 flag word reaches a value. -/
  | waitFlag (b : Fin 256)
  /-- WAIT_NODE_BARRIER (R221): WAIT NODE_BARRIER waits until every bay of the node arrives. -/
  | waitNodeBarrier (b : Fin 256)
  /-- WAIT_TOKEN (R221): WAIT TOKEN waits until a named COLL commits. -/
  | waitToken (b : Fin 256)
  /-- WAIT_CONDITION_MET (R221): The condition of a pending WAIT comes to hold and the WAIT completes. -/
  | waitConditionMet (b : Fin 256)
  /-- EPOCH (R222): EPOCH joins the epoch fence and checks the epoch and DET_EXPECT. -/
  | epoch (b : Fin 256)
  /-- BR (R223): BR branches on its condition. -/
  | br (b : Fin 256) (queueFull : Bool)
  /-- LOOP (R224): LOOP counts iterations on a counter and jumps back. -/
  | loop (b : Fin 256) (queueFull : Bool)
  /-- CALL (R225): CALL pushes the return position and jumps into a table or the model's table. -/
  | call (b : Fin 256) (queueFull : Bool)
  /-- END (R225): END returns from a call or ends the bay's table. -/
  | tableEnd (b : Fin 256)
  /-- MODEL (R136): MODEL binds a roster entry, loads weights into the B store and queues Tailwind hints. -/
  | model (b : Fin 256)
  /-- TAILWIND_COPY_COMPLETE (R141): A Tailwind copy of a hinted model into the die's roster LLM finishes. -/
  | tailwindCopyComplete (die : Fin 8)
  /-- SNAP (R499): SNAP captures the bay state and joins the node's quiesce and the job-wide agreement. -/
  | snap (b : Fin 256)
  /-- DIGEST (R462): DIGEST folds a tensor's bytes into a digest stream and may log chunk records. -/
  | digest (b : Fin 256)
  /-- EVENT_REGISTER_WRITE (R221): A 64-bit write is ORed into a bay's event register. -/
  | eventRegisterWrite (b : Fin 256) (v : Dword)
  /-- COLL_NODE_LOCAL_STAGE (R415): Once every participating bay has issued, the engine combines the bays' contributions in the fixed tree. -/
  | collNodeLocalStage (b : Fin 256) (queueFull : Bool)
  /-- COLL_CHUNK_RECEIVE (R424): A collective chunk arrives, is checked against its digest, and is combined or delivered. -/
  | collChunkReceive (q : MailPort) (h : Header) (cid : CollId) (run : Fin 3) (sig : CollSig) (m : CollMsg) (queueFull : Bool)
  /-- COLL_RETENTION_ACK (R427): A child acknowledges a matching digest and frees retention room. -/
  | collRetentionAck (q : MailPort) (h : Header) (cid : CollId) (run : Fin 3) (k : Nat) (queueFull : Bool)
  /-- COLL_COMMIT (R425): The commit token arrives and the COLL commits at the member. -/
  | collCommit (q : MailPort) (h : Header) (cid : CollId) (run : Fin 3) (tree : Fin 2) (status : Nat) (counts : List (Nat × Nat)) (queueFull : Bool)
  /-- COLL_ABORT (R429): An abort arrives; the run is discarded and a re-run starts if COLL_RERUN is set. -/
  | collAbort (q : MailPort) (h : Header) (cid : CollId) (run : Fin 3) (final : Bool) (queueFull : Bool)
  /-- COLL_ABANDON (R436): At four times its deadline a COLL is abandoned and its instance released. -/
  | collAbandon (b : Fin 256) (queueFull : Bool)
  /-- JOB_BARRIER_COMPLETE (R441): The job-wide barrier of the epoch fence completes at the member. -/
  | jobBarrierComplete
  /-- EPOCH_FENCE_MESSAGE (R379): A class 7 fence message from a group member arrives. -/
  | epochFenceMessage (q : Fin 17) (h : Header) (withdrawn : Bool)
  /-- BAY_PREEMPT (R554): The BAY_PREEMPT command asks a bay to stop and save its context. -/
  | bayPreempt
  /-- CONTEXT_SAVE_COMPLETE (R129): A context save writes CTX_STATE last, and the bay is pre-empted. -/
  | contextSaveComplete (b : Fin 256)
  /-- PREEMPT_DEFERRAL_EXPIRY (R238): A deferred pre-emption whose COLL reaches its deadline is refused. -/
  | preemptDeferralExpiry (b : Fin 256)
  /-- HART_LOAD (R259): A hart's load that misses L1 leaves the core and parks the thread. -/
  | hartLoad (h : Fin 3072) (k : LoadKind) (short : Bool) (rd : Fin 32) (rs1 : Fin 32) (imm : BitVec 12) (reach : CoreReach)
  /-- HART_STORE (R258): A hart's store enters the store buffer and ends the thread's turn. -/
  | hartStore (h : Fin 3072) (k : StoreKind) (short : Bool) (rs2 : Fin 32) (rs1 : Fin 32) (imm : BitVec 12) (refill : Bool)
  /-- HART_AMO (R289): An integer AMO is performed at the home LLM slice, or remotely through an aperture. -/
  | hartAmo (h : Fin 3072) (a : HartAtomic) (wide : Bool) (rl : Bool) (rd : Fin 32) (rs1 : Fin 32) (rs2 : Fin 32)
    (reach : CoreReach)
  /-- HART_FENCE (R287): A hart FENCE orders the issue of later accesses after earlier ones. -/
  | hartFence (h : Fin 3072) (pred : BitVec 4) (succ : BitVec 4)
  /-- HART_WFI (R262): WFI parks the thread until an interrupt is pending. -/
  | hartWfi (h : Fin 3072)
  /-- ACCESS_RETURN (R259): An access that left the core returns, and its parked thread becomes ready. -/
  | accessReturn (h : Fin 3072)
  /-- STORE_BUFFER_DRAIN (R258): A store drains from the store buffer to node memory. -/
  | storeBufferDrain (core : Fin 192)
  /-- THREAD_TURN_LIMIT (R260): A thread that has issued for 256 cycles loses its turn to a ready thread. -/
  | threadTurnLimit (core : Fin 192)
  /-- INTERRUPT_PENDING (R262): An interrupt becomes pending for a hart and wakes it. -/
  | interruptPending (h : Fin 3072) (irq : HartInterrupt)
  /-- SBI_BASE_CALL (R247): An SBI base-extension call to the monitor. -/
  | sbiBaseCall (h : Fin 3072)
  /-- SBI_SET_TIMER (R247): An SBI timer call sets the hart's timer. -/
  | sbiSetTimer (h : Fin 3072)
  /-- SBI_SEND_IPI (R247): An SBI IPI call sends an inter-processor interrupt. -/
  | sbiSendIpi (h : Fin 3072)
  /-- SBI_SYSTEM_RESET (R247): An SBI system-reset call of type shutdown ends the calling hart for the job. -/
  | sbiSystemReset (h : Fin 3072)
  /-- SVXRERR_CLEAR (R257): A write of zero to svxrerr clears the sticky remote-write error. -/
  | svxrerrClear (h : Fin 3072)
  /-- VADD (R268): SVX VADD adds lanes. -/
  | vadd (h : Fin 3072) (w : Bool) (u : Bool) (vs2 : Fin 32) (vs1 : Fin 32) (et : Fin 8) (vd : Fin 32)
  /-- VSUB (R268): SVX VSUB subtracts lanes. -/
  | vsub (h : Fin 3072) (w : Bool) (u : Bool) (vs2 : Fin 32) (vs1 : Fin 32) (et : Fin 8) (vd : Fin 32)
  /-- VMUL (R268): SVX VMUL multiplies lanes. -/
  | vmul (h : Fin 3072) (w : Bool) (u : Bool) (vs2 : Fin 32) (vs1 : Fin 32) (et : Fin 8) (vd : Fin 32)
  /-- VMULH (R268): SVX VMULH returns the high half of double-width products. -/
  | vmulh (h : Fin 3072) (w : Bool) (u : Bool) (vs2 : Fin 32) (vs1 : Fin 32) (et : Fin 8) (vd : Fin 32)
  /-- VFMA (R268): SVX VFMA performs a fused multiply-add into vd. -/
  | vfma (h : Fin 3072) (w : Bool) (u : Bool) (vs2 : Fin 32) (vs1 : Fin 32) (et : Fin 8) (vd : Fin 32)
  /-- VMIN (R268): SVX VMIN returns the smaller lane. -/
  | vmin (h : Fin 3072) (w : Bool) (u : Bool) (vs2 : Fin 32) (vs1 : Fin 32) (et : Fin 8) (vd : Fin 32)
  /-- VMAX (R268): SVX VMAX returns the larger lane. -/
  | vmax (h : Fin 3072) (w : Bool) (u : Bool) (vs2 : Fin 32) (vs1 : Fin 32) (et : Fin 8) (vd : Fin 32)
  /-- VDIV (R268): SVX VDIV divides floating-point lanes. -/
  | vdiv (h : Fin 3072) (w : Bool) (u : Bool) (vs2 : Fin 32) (vs1 : Fin 32) (et : Fin 8) (vd : Fin 32)
  /-- VSQRT (R268): SVX VSQRT takes the square roots of lanes. -/
  | vsqrt (h : Fin 3072) (w : Bool) (u : Bool) (vs2 : Fin 32) (vs1 : Fin 32) (et : Fin 8) (vd : Fin 32)
  /-- VAND (R268): SVX VAND performs a bitwise AND. -/
  | vand (h : Fin 3072) (w : Bool) (u : Bool) (vs2 : Fin 32) (vs1 : Fin 32) (et : Fin 8) (vd : Fin 32)
  /-- VOR (R268): SVX VOR performs a bitwise OR. -/
  | vor (h : Fin 3072) (w : Bool) (u : Bool) (vs2 : Fin 32) (vs1 : Fin 32) (et : Fin 8) (vd : Fin 32)
  /-- VXOR (R268): SVX VXOR performs a bitwise XOR. -/
  | vxor (h : Fin 3072) (w : Bool) (u : Bool) (vs2 : Fin 32) (vs1 : Fin 32) (et : Fin 8) (vd : Fin 32)
  /-- VSLL (R268): SVX VSLL shifts lanes left. -/
  | vsll (h : Fin 3072) (w : Bool) (u : Bool) (vs2 : Fin 32) (vs1 : Fin 32) (et : Fin 8) (vd : Fin 32)
  /-- VSRL (R268): SVX VSRL shifts lanes right with zero fill. -/
  | vsrl (h : Fin 3072) (w : Bool) (u : Bool) (vs2 : Fin 32) (vs1 : Fin 32) (et : Fin 8) (vd : Fin 32)
  /-- VSRA (R268): SVX VSRA shifts lanes right with sign fill. -/
  | vsra (h : Fin 3072) (w : Bool) (u : Bool) (vs2 : Fin 32) (vs1 : Fin 32) (et : Fin 8) (vd : Fin 32)
  /-- VCMPEQ (R268): SVX VCMPEQ compares lanes for equality. -/
  | vcmpeq (h : Fin 3072) (w : Bool) (u : Bool) (vs2 : Fin 32) (vs1 : Fin 32) (et : Fin 8) (vd : Fin 32)
  /-- VCMPLT (R268): SVX VCMPLT compares lanes for less-than. -/
  | vcmplt (h : Fin 3072) (w : Bool) (u : Bool) (vs2 : Fin 32) (vs1 : Fin 32) (et : Fin 8) (vd : Fin 32)
  /-- VCMPLE (R268): SVX VCMPLE compares lanes for less-or-equal. -/
  | vcmple (h : Fin 3072) (w : Bool) (u : Bool) (vs2 : Fin 32) (vs1 : Fin 32) (et : Fin 8) (vd : Fin 32)
  /-- VSEL (R268): SVX VSEL performs a bitwise select by vd. -/
  | vsel (h : Fin 3072) (w : Bool) (u : Bool) (vs2 : Fin 32) (vs1 : Fin 32) (et : Fin 8) (vd : Fin 32)
  /-- VCVT (R269): SVX VCVT converts lanes between types. -/
  | vcvt (h : Fin 3072) (w : Bool) (u : Bool) (vs2 : Fin 32) (vs1 : Fin 32) (et : Fin 8) (vd : Fin 32)
  /-- VWMUL (R270): SVX VWMUL forms widening products of the low-half lanes. -/
  | vwmul (h : Fin 3072) (w : Bool) (u : Bool) (vs2 : Fin 32) (vs1 : Fin 32) (et : Fin 8) (vd : Fin 32)
  /-- VWMULHI (R270): SVX VWMULHI forms widening products of the high-half lanes. -/
  | vwmulhi (h : Fin 3072) (w : Bool) (u : Bool) (vs2 : Fin 32) (vs1 : Fin 32) (et : Fin 8) (vd : Fin 32)
  /-- VDOT (R271): SVX VDOT adds a lane-group dot product into vd. -/
  | vdot (h : Fin 3072) (w : Bool) (u : Bool) (vs2 : Fin 32) (vs1 : Fin 32) (et : Fin 8) (vd : Fin 32)
  /-- VRSUM (R269): SVX VRSUM sums all lanes in the fixed tree. -/
  | vrsum (h : Fin 3072) (w : Bool) (u : Bool) (vs2 : Fin 32) (vs1 : Fin 32) (et : Fin 8) (vd : Fin 32)
  /-- VLD (R273): SVX VLD loads 16 B into a v register. -/
  | vld (h : Fin 3072) (imm : BitVec 12) (rs1 : Fin 32) (vd : Fin 32) (reach : CoreReach)
  /-- VST (R273): SVX VST stores 16 B from a v register. -/
  | vst (h : Fin 3072) (imm : BitVec 12) (vs3 : Fin 32) (rs1 : Fin 32) (refill : Bool)
  /-- VGATH (R277): SVX VGATH translates and checks every element, then gathers them, or traps leaving vd unchanged. -/
  | vgath (h : Fin 3072) (et : Fin 8) (iw : Fin 4) (sc : Fin 4) (vi : Fin 32) (rs1 : Fin 32) (vd : Fin 32) (reach : CoreReach)
  /-- VSCAT (R279): SVX VSCAT checks every element and then scatters in increasing element order. -/
  | vscat (h : Fin 3072) (et : Fin 8) (iw : Fin 4) (sc : Fin 4) (vi : Fin 32) (rs1 : Fin 32) (vs3 : Fin 32) (refill : Bool)
  /-- VSPLAT (R273): SVX VSPLAT fills every lane from an integer register. -/
  | vsplat (h : Fin 3072) (et : Fin 8) (w : Bool) (rs1 : Fin 32) (vd : Fin 32)
  /-- VEXT (R273): SVX VEXT extracts one lane into an integer register. -/
  | vext (h : Fin 3072) (et : Fin 8) (ln : Fin 16) (vs1 : Fin 32) (rd : Fin 32)
  /-- SYNC (R283): SYNC waits for node-wide visibility of stores and for remote acknowledgements. -/
  | sync (h : Fin 3072) (ra : Bool) (nv : Bool)
  /-- CORE_PARITY_REPLAY (R291): A core parity failure invalidates the line or replays the instruction. -/
  | coreParityReplay (core : Fin 192) (part : CorePart) (again : Bool)
  /-- CORE_SELFTEST_COMPLETE (R292): The core self-test ends; the core resumes, or its contexts migrate to a reserve core, or its harts are lost. -/
  | coreSelftestComplete (core : Fin 192) (pass : Bool)
  /-- SUPERVISOR_MISMATCH (R250): The lock-stepped cores of a supervisor pair disagree, so the pair fails: the active pair, or
  the standby. -/
  | supervisorMismatch (standby : Bool)
  /-- STACK_READ (R332): A read of a stack line is served at its home slice, filled, or bypassed. -/
  | stackRead (a : BitVec 42) (eligible : Bool) (queue : Nat) (x : SliceAccess) (stack : EccFinding)
  /-- STACK_WRITE (R333): A write of a stack line is applied at its home slice. -/
  | stackWrite (a : BitVec 42) (data : List Byte) (x : SliceAccess)
  /-- LLM_FILL_COMPLETE (R333): A cache-miss fill of a 128 B line returns from the stack. -/
  | llmFillComplete (line : Fin 17179869184) (finding : EccFinding)
  /-- NARROW_REQUEST (R340): A narrow request of 1–8 B is served at the slice or in the stack controller's window. -/
  | narrowRequest (a : BitVec 42) (log : Fin 4) (data : Option Dword) (x : SliceAccess)
  /-- COALESCING_WAIT_EXPIRY (R341): A narrow request leaves the coalescing window after ZEPHYR_WAIT cycles. -/
  | coalescingWaitExpiry (st : Fin 32) (findings : List EccFinding)
  /-- CHANNEL_PARITY_REPLAY (R308): A parity failure on a channel path replays the word; a third in 1 ms starts a retrain. -/
  | channelParityReplay (ch : Fin 1024)
  /-- CALIBRATION_DRIFT (R308): The periodic calibration finds drift beyond margin and the channel retrains. -/
  | calibrationDrift (ch : Fin 1024)
  /-- CHANNEL_RETRAIN_COMPLETE (R308): A channel retrain ends, releasing queued requests or starting the pattern test. -/
  | channelRetrainComplete (ch : Fin 1024) (ok : Bool)
  /-- PATTERN_TEST_COMPLETE (R310): The pattern test ends, returning the channel to ACTIVE, remapping rows or deciding a map-out. -/
  | patternTestComplete (ch : Fin 1024) (r : PatternResult)
  /-- CHANNEL_MAPOUT_SWITCH (R315): The redirect map is switched, dirty lines are written back and migration starts. -/
  | channelMapoutSwitch
  /-- MIGRATION_COMPLETE (R315): The last line of a mapped-out channel has moved and the channel is MAPPED_OUT. -/
  | migrationComplete
  /-- SOFT_REMAP_COMPLETE (R322): A row is copied into a remap row and its accesses are released. -/
  | softRemapComplete (st : Fin 32)
  /-- PERMANENT_REPAIR_START (R323): The repair policy starts a permanent repair of a soft-remapped row. -/
  | permanentRepairStart (st : Fin 32)
  /-- FUSE_PULSE_COMPLETE (R324): The fuse pulse ends, the row is tested and the journal entry is closed. -/
  | fusePulseComplete (st : Fin 32) (pass : Bool)
  /-- SCRUB_LINE (R329): The scrubber reads a line, writes back corrections and may soft-remap the row. -/
  | scrubLine (st : Fin 32) (e : StackElement) (col : Fin 8) (place : ScrubPlace) (finding : EccFinding) (last : Bool)
  /-- TEARDOWN_WIPE_COMPLETE (R330): The base dies finish zeroing the job window. -/
  | teardownWipeComplete
  /-- LLM_MBIST_COMPLETE (R337): A slice MBIST ends; the slice resumes, is spared, or becomes a pass-through. -/
  | llmMbistComplete (die : Fin 8) (phys : Fin 34) (pass : Bool)
  /-- SLICE_SWEEP_COMPLETE (R337): The background sweep of a spared slice finishes. -/
  | sliceSweepComplete (die : Fin 8) (phys : Fin 34)
  /-- TAGGED_LINE_SWEEP (R346): The slice sweep writes a tagged snapshot line to the slot and the home location. -/
  | taggedLineSweep (line : Fin 17179869184)
  /-- ALLOC_TOP_WRITE (R349): A write of ALLOC_TOP changes the job window and may release a pending map-out. -/
  | allocTopWrite (q : Requester) (v : Dword)
  /-- MAPOUT_FORCE_WRITE (R317): A write of MAPOUT_FORCE lets a pending map-out proceed, losing the band. -/
  | mapoutForceWrite (q : Requester) (v : Byte)
  /-- WRAPPER_SELECT (R327): The TAP instruction selects a base die's IEEE 1500 wrapper, connected only in SERVICE. -/
  | wrapperSelect (st : Fin 32) (code : Byte)
  /-- JOURNAL_READ (R328): The wrapper returns a 64-bit journal entry. -/
  | journalRead (entry : Fin 512)
  /-- REMAP_READ (R328): The wrapper returns the element mapped to a remap row. -/
  | remapRead (ch : Fin 32) (row : Nat)
  /-- REMAP_WRITE (R328): The wrapper installs a soft remap. -/
  | remapWrite (e : StackElement) (row : Nat)
  /-- REPAIR_ROW (R328): The wrapper runs a permanent row repair. -/
  | repairRow (e : StackElement)
  /-- CHANNEL_TEST (R328): The wrapper runs a channel pattern test and returns the failing rows. -/
  | channelTest (ch : Fin 32) (rows : List StackElement)
  /-- DRAUGHT_STATUS (R328): The wrapper returns the copy front and the copy-before-write count. -/
  | draughtStatus
  /-- HBM4_DEVICE_IDENTITY (R328): The HBM4 wrapper instruction that reads the device identity. -/
  | hbm4DeviceIdentity
  /-- HBM4_TEMPERATURE_READOUT (R328): The HBM4 wrapper instruction that reads the temperature. -/
  | hbm4TemperatureReadout
  /-- HBM4_MODE_REGISTER_DUMP (R328): The HBM4 wrapper instruction that dumps the mode registers. -/
  | hbm4ModeRegisterDump
  /-- HBM4_LANE_REPAIR (R328): The HBM4 wrapper instruction that repairs a lane. -/
  | hbm4LaneRepair (e : StackElement)
  /-- HBM4_SOFT_PPR (R328): The HBM4 wrapper instruction for soft post-package repair. -/
  | hbm4SoftPpr (e : StackElement)
  /-- HBM4_HARD_PPR (R328): The HBM4 wrapper instruction for hard post-package repair. -/
  | hbm4HardPpr (e : StackElement)
  /-- WORD_REPLAY (R483): A word that fails parity on a hop is requested again from the sender. -/
  | wordReplay (hop : Hop) (again : Bool)
  /-- BRIDGE_SEGMENT_TEST_COMPLETE (R485): A bridge segment test ends; a spare wire takes over, or the segment is switched off. -/
  | bridgeSegmentTestComplete (bridge : Fin 23) (segment : Fin 256) (pass : Bool)
  /-- COUPLER_BIST_COMPLETE (R487): A coupler BIST ends; a failed coupler is retired and its parts move to another coupler. -/
  | couplerBistComplete (die : Fin 8) (pass : Bool)
  /-- FABRIC_PORT_TEST_COMPLETE (R488): A port test ends; a failing port makes its link LOST. -/
  | fabricPortTestComplete (fd : Fin 4) (port : Fin 6) (pass : Bool)
  /-- LINK_TRAINING_START (R356): A link starts training in INIT stage 5 or on detecting its far end. -/
  | linkTrainingStart (l : Fin 24)
  /-- LINK_UP (R356): Training completes with credits exchanged and the link is UP. -/
  | linkUp (l : Fin 24) (far : FarEnd)
  /-- LINK_DETECT_RETRY (R358): Every 100 ms an ABSENT link retries detection of its far end. -/
  | linkDetectRetry (l : Fin 24) (signal : Bool)
  /-- LINK_FAR_END_IDLE (R359): The far end enters electrical idle and the link becomes ABSENT. -/
  | linkFarEndIdle (l : Fin 24)
  /-- LINK_ABSENT_TIMEOUT (R359): A link has been ABSENT for 1 s, so INIT stage 5 may end. -/
  | linkAbsentTimeout (l : Fin 24)
  /-- LANE_TEST_START (R360): A lane loses lock or passes LANE_SER_LIMIT, the link pauses and the loopback test starts. -/
  | laneTestStart (l : Fin 24) (lane : Fin 9)
  /-- LANE_TEST_COMPLETE (R360): The lane test ends; the lane is restored or the spare lane takes over. -/
  | laneTestComplete (l : Fin 24) (pass : Bool) (completes : Bool)
  /-- FLIT_RECEIVE (R351): A flit arrives and is checked; a CRC failure requests a resend. -/
  | flitReceive (l : Fin 24) (f : FlitControl) (crcOk : Bool) (corrected : Nat)
  /-- LINK_ACK_TIMEOUT (R362): No flit is acknowledged for 10 µs and the link becomes LOST. -/
  | linkAckTimeout (l : Fin 24)
  /-- LINK_CMD_RETRAIN (R404): LINK_CMD 0x01 restarts training of a link. -/
  | linkCmdRetrain (q : Requester) (l : Fin 24)
  /-- LINK_CMD_DISABLE (R404): LINK_CMD 0x02 disables a link. -/
  | linkCmdDisable (q : Requester) (l : Fin 24)
  /-- LINK_CMD_ENABLE (R404): LINK_CMD 0x03 enables a link. -/
  | linkCmdEnable (q : Requester) (l : Fin 24)
  /-- LINK_STATE_MESSAGE (R363): A peer's link-state message arrives, and detours are chosen again. -/
  | linkStateMessage (q : Fin 17) (states : LinkCodes)
  /-- PKT_READ (R375): A READ packet is checked and served at the target. -/
  | pktRead (q : Fin 17) (h : Header) (len : Fin 257)
  /-- PKT_READ_RESP (R383): A READ_RESP returns data to the source. -/
  | pktReadResp (q : Fin 17) (h : Header) (data : List Byte) (poison : Bool)
  /-- PKT_WRITE (R375): A WRITE packet is checked and applied at the home slice. -/
  | pktWrite (q : Fin 17) (h : Header) (data : List Byte) (poison : Bool)
  /-- PKT_ACK (R383): An ACK confirms that a write is visible at the target. -/
  | pktAck (q : Fin 17) (h : Header)
  /-- PKT_AMO (R380): An AMO packet is performed indivisibly at the home slice. -/
  | pktAmo (q : Fin 17) (h : Header) (op : Option (AmoFn × Bool × Nat)) (sig : SignalInfo)
  /-- PKT_AMO_RESP (R380): An AMO_RESP returns the atomic's result. -/
  | pktAmoResp (q : Fin 17) (h : Header) (old : Dword) (poison : Bool)
  /-- PKT_RACC (R386): A RACC packet is applied or staged at the target. -/
  | pktRacc (q : Fin 17) (h : Header) (fn : Fin 3) (srcFmt : Fin 4) (wide : Bool) (data : List Byte) (order : Option RaccOrder)
  /-- PKT_NACK (R375): A NACK reports a failed request to the source. -/
  | pktNack (q : Fin 17) (h : Header) (stale : Bool) (x : NackInfo)
  /-- PKT_MAIL (R373): A MAIL packet is delivered locally or routed on. -/
  | pktMail (via : MailPort) (h : Header) (msg : Half) (pkt : Half) (total : Nat) (kind : MailKind) (data : List Byte) (hops : Nat)
  /-- PKT_MAIL_ACK (R396): A cumulative MAIL_ACK arrives at the mail source. -/
  | pktMailAck (h : Header) (msg : Half) (pkt : Half) (done : Bool) (hops : Nat)
  /-- REMOTE_TIMEOUT (R366): A request to an unreachable node ends after REMOTE_TIMEOUT with LINK_LOST. -/
  | remoteTimeout (q : Fin 17)
  /-- RACC_ROUND_END (R387): A node's ordered-RACC round ends and close messages are sent. -/
  | raccRoundEnd
  /-- RACC_CLOSE_MESSAGE (R388): A close message arrives and the round's contributions are applied in canonical order. -/
  | raccCloseMessage (q : Fin 17) (h : Header) (round : Nat)
  /-- MAIL_DOORBELL (R392): A write of a queue's tail index posts mail messages. -/
  | mailDoorbell (q : Fin 64) (tail : Word)
  /-- MAIL_COMPLETE (R394): Every packet is acknowledged and the notify done, so a completion record is written. -/
  | mailComplete (q : Fin 320)
  /-- MAIL_RETRANSMIT_TIMEOUT (R396): An unacknowledged mail packet is resent, or the message ends with LINK_LOST. -/
  | mailRetransmitTimeout (lnode : Fin 1048576)
  /-- MAIL_TRANSIT_TIMEOUT (R373): A transit packet not forwarded within 100 µs is dropped. -/
  | mailTransitTimeout
  /-- CROSSWIND_PAIRING_MESSAGE (R467): A partner's pairing message arrives and pairing succeeds or is refused. -/
  | crosswindPairingMessage (v : Arrival) (m : Option XwPairing)
  /-- CROSSWIND_DIGEST_MESSAGE (R469): A partner's step digest arrives, is compared and releases the lag hold. -/
  | crosswindDigestMessage (v : Arrival) (tstep : Dword) (digest : Dword)
  /-- CROSSWIND_STREAM_DIGESTS (R472): The partner's stream digests arrive and the first difference is located. -/
  | crosswindStreamDigests (v : Arrival) (tstep : Dword) (streams : List (Nat × Nat))
  /-- CROSSWIND_CHUNK_EXCHANGE (R473): The partner's chunk arrives, and XW_RECORD is written under XW_POLICY. -/
  | crosswindChunkExchange (v : Arrival) (records : List (Nat × Nat)) (intact : Bool) (data : List Byte) (word : Dword)
  /-- ERROR_ACK_WRITE (R480): A write of ERROR_ACK acknowledges records and may clear ALERT_CAUSE bit 0. -/
  | errorAckWrite (q : Requester) (v : Dword)
  /-- ALERT_CAUSE_WRITE (R481): A write of 1 clears an ALERT_CAUSE bit once its condition has ended. -/
  | alertCauseWrite (q : Requester) (v : Word)
  /-- SQUALL_CLEAR (R495): The decaying score falls below SQUALL_CLEAR and the warning ends. -/
  | squallClear
  /-- PEER_LOSS_TIMEOUT (R493): No link to a peer has been UP for PEER_LOSS_TIME, so the node loss is logged. -/
  | peerLossTimeout (pos : Fin 17)
  /-- SNAP_CAPTURE_COMPLETE (R499): A bay's capture into the capture area is done and the bay has reached its SNAP. -/
  | snapCaptureComplete (b : Fin 256)
  /-- SNAP_QUIESCE_COMPLETE (R499): All bays have arrived and remote work has drained, so the node joins the agreement. -/
  | snapQuiesceComplete
  /-- SNAP_AGREEMENT_COMPLETE (R499): The agreement completes at the snapshot instant; SNAP completes and the copy may start. -/
  | snapAgreementComplete (warning : Bool) (fit : Bool) (ended : Bool) (dirty : List (Fin 17179869184))
  /-- STACK_PART_COMPLETE (R504): A stack's copy front passes every line, so STACK_DIGEST is written. -/
  | stackPartComplete (st : Fin 32) (bad : Option (Fin 17179869184))
  /-- SHARD_RECEIVE (R508): A holder receives a class 5 shard and commits its directory entry. -/
  | shardReceive (q : Fin 17) (h : Header) (index : Fin 16) (tstep : Dword) (gen : Dword) (imageBytes : Dword) (data : List Byte)
  /-- DRAIN_ACK (R510): A holder's acknowledgement arrives and the drain may end. -/
  | drainAck (v : Arrival) (gen : Dword) (answer : DrainAnswer)
  /-- DRAIN_DEADLINE_EXPIRY (R510): DRAIN_DEADLINE passes and DEADLINE_MISSED is raised. -/
  | drainDeadlineExpiry (k : Fin 2)
  /-- NODE_DIGEST_MESSAGE (R521): The hot spare stores the node digest that a group member sends at a boundary. -/
  | nodeDigestMessage (v : Arrival) (tstep : Dword) (digest : Dword)
  /-- RECOVERY_ROLLBACK (R513): RECOVERY_CMD ROLLBACK abandons the run, sets the new epoch and restores the image. -/
  | recoveryRollback (q : Requester) (epoch : Half) (tstep : Dword) (peers : Option Half)
  /-- RECOVERY_TAKEOVER (R519): RECOVERY_CMD TAKEOVER makes the hot spare take the lost node's identity. -/
  | recoveryTakeover (q : Requester) (pos : Byte) (epoch : Half) (tstep : Dword) (peers : Option Half)
  /-- RECOVERY_REJOIN (R520): RECOVERY_CMD REJOIN restores a node into its own identity. -/
  | recoveryRejoin (q : Requester) (epoch : Half) (tstep : Dword) (peers : Option Half)
  /-- TAKEOVER_UPDATE_MESSAGE (R519): A peer applies the takeover update to GROUP_MAP and acknowledges it. -/
  | takeoverUpdateMessage (q : Fin 17) (h : Header) (lost : Fin 17)
  /-- RESTORE_COMPLETE (R514): A local or peer restore finishes, the bays are reloaded and the node joins the fence. -/
  | restoreComplete (bad : Bool) (peers : Option Image)
  /-- TEARDOWN_COMPLETE (R528): The teardown steps are done and the node enters READY or DEGRADED. -/
  | teardownComplete
  /-- HOST_LINK_TRAINING (R533): The PCIe/CXL port trains to the highest common rate and width. -/
  | hostLinkTraining (gen : Nat) (width : Nat) (cxl : Bool)
  /-- HOST_LINK_RESET (R565): A link-down, hot reset or FLR disables the queues and ends the SPDM session. -/
  | hostLinkReset (down : Bool)
  /-- SQ_TAIL_DOORBELL (R541): A submission-queue tail doorbell makes the package fetch commands in order. -/
  | sqTailDoorbell (q : Fin 64) (tail : Half) (entries : List (List Byte))
  /-- CQ_HEAD_DOORBELL (R544): A completion-queue head doorbell frees room and resumes fetching. -/
  | cqHeadDoorbell (q : Fin 64) (head : Half)
  /-- JOB_LOAD (R547): JOB_LOAD checks the job-scoped objects and loads the job. -/
  | jobLoad (map : List Half)
  /-- JOB_START (R548): JOB_START joins the epoch fence for the node. -/
  | jobStart
  /-- JOB_START_TIMEOUT (R548): The JOB_START timeout passes, so the node withdraws from the fence. -/
  | jobStartTimeout
  /-- JOB_END (R549): JOB_END abandons the job's work and starts teardown. -/
  | jobEnd
  /-- COPY_TO_DEVICE (R550): The command copies host memory into node memory. -/
  | copyToDevice (data : List Byte)
  /-- COPY_FROM_DEVICE (R550): The command copies node memory to host memory. -/
  | copyFromDevice
  /-- ROSTER_REGISTER (R551): The command copies a model into the roster and checks its digest. -/
  | rosterRegister (image : List Byte) (descs : List Byte) (weights : List Byte)
  /-- ROSTER_DEREGISTER (R551): The command empties a roster entry unless it is bound. -/
  | rosterDeregister
  /-- REGION_REGISTER (R552): The command registers a region key. -/
  | regionRegister (image : List Byte)
  /-- REGION_DEREGISTER (R552): The command removes a region. -/
  | regionDeregister
  /-- BAY_RESUME (R553): The command resumes a halted bay or restores a pre-empted one. -/
  | bayResume
  /-- WIN_CMD_READ (R538): A dictionary-window read request. -/
  | winCmdRead (addr offset len : Word) (seq : Dword)
  /-- WIN_CMD_WRITE (R538): A dictionary-window write request, assembled from pieces for a BLOB. -/
  | winCmdWrite (addr offset : Word) (seq : Dword) (data : List Byte) (peers : Option Half)
  /-- NOTIFICATION_POST (R556): A write to the notify address posts an entry to a completion queue. -/
  | notificationPost (q : Fin 64) (v : Dword)
  /-- HOST_MEM_READ (R557): A CXL.mem host read returns the line's current value. -/
  | hostMemRead (atom : Fin 34359738368)
  /-- HOST_MEM_WRITE (R557): A CXL.mem host write becomes visible node-wide. -/
  | hostMemWrite (a : BitVec 41) (data : List Byte)
  /-- SQ_ENABLE_WRITE (R566): A write of SQ_ENABLE starts or stops fetching on a queue. -/
  | sqEnableWrite (q : Requester) (k : Fin 64) (v : Byte)
  /-- GET_VERSION (R560): SPDM GET_VERSION request. -/
  | getVersion (q : Requester)
  /-- GET_CAPABILITIES (R560): SPDM GET_CAPABILITIES request. -/
  | getCapabilities (q : Requester)
  /-- NEGOTIATE_ALGORITHMS (R560): SPDM NEGOTIATE_ALGORITHMS request. -/
  | negotiateAlgorithms (q : Requester)
  /-- GET_DIGESTS (R560): SPDM GET_DIGESTS request. -/
  | getDigests (q : Requester)
  /-- GET_CERTIFICATE (R561): SPDM GET_CERTIFICATE request for the slot-0 chain. -/
  | getCertificate (q : Requester) (slot : Byte) (offset len : Half)
  /-- CHALLENGE (R560): SPDM CHALLENGE request. -/
  | challenge (q : Requester)
  /-- GET_MEASUREMENTS (R561): SPDM GET_MEASUREMENTS returns the measurement indices. -/
  | getMeasurements (q : Requester) (index : Byte)
  /-- KEY_EXCHANGE (R560): SPDM KEY_EXCHANGE starts a session. -/
  | keyExchange (q : Requester) (id : Word)
  /-- FINISH (R562): SPDM FINISH completes a mutually authenticated session and sets the access level. -/
  | finish (q : Requester) (id : Word) (leaf root : BitVec 384) (verified : Bool)
  /-- HEARTBEAT (R560): SPDM HEARTBEAT keeps a session alive. -/
  | heartbeat (q : Requester)
  /-- KEY_UPDATE (R560): SPDM KEY_UPDATE renews the session keys. -/
  | keyUpdate (q : Requester)
  /-- END_SESSION (R562): SPDM END_SESSION ends a session and the level falls to Observer. -/
  | endSession (q : Requester)
  /-- HEARTBEAT_MISSED (R562): A missed heartbeat ends the session. -/
  | heartbeatMissed (port : Port) (id : Word)
  /-- OBJECT_WRITE (R579): A write of an object without its own row passes its checks, is mirrored, audited and applied. -/
  | objectWrite (q : Requester) (obj : ObjAddr) (offset : Word) (data : List Byte) (peers : Option Half)
  /-- AUDIT_MIRROR_COPY (R597): An audit entry is copied to the stack mirror. -/
  | auditMirrorCopy
  /-- AUDIT_ACK_HOST_WRITE (R598): The host acknowledges audit entries up to a SEQ. -/
  | auditAckHostWrite (q : Requester) (v : Dword)
  /-- AUDIT_HOST_HOLD_WRITE (R611): A write of AUDIT_HOST_HOLD makes the host a holder from the current head. -/
  | auditHostHoldWrite (q : Requester) (v : Byte)
  /-- DICT_ANSWER_LATE (R580): A request unanswered after 2 ms raises DEADLINE_MISSED. -/
  | dictAnswerLate
  /-- BLOB_ASSEMBLY_TIMEOUT (R581): A BLOB assembly with no piece for 1 s is discarded. -/
  | blobAssemblyTimeout (q : Requester)
  /-- JP2_READ (R585): A JP2 READ message reads an object or piece. -/
  | jp2Read (q : Requester) (rseq : Dword) (obj : ObjAddr) (offset len : Word)
  /-- JP2_WRITE (R585): A JP2 WRITE message writes an object or piece. -/
  | jp2Write (q : Requester) (rseq : Dword) (obj : ObjAddr) (offset : Word) (data : List Byte) (peers : Option Half)
  /-- JP2_SPDM (R585): A JP2 SPDM message carries one SPDM message. -/
  | jp2Spdm (q : Requester) (rseq : Dword) (m : SpdmRequest)
  /-- JP2_SECURED (R586): A secured JP2 message is checked and its plaintext served. -/
  | jp2Secured (q : Requester) (ok : Bool) (rseq : Dword) (obj : ObjAddr) (offset : Word) (body : Jp2Body) (peers : Option Half)
  /-- SUB_OPEN_SAMPLE (R590): SUB_OPEN of kind SAMPLE opens a periodic sampling subscription. -/
  | subOpenSample (q : Requester) (rseq : Dword) (objects : List ObjAddr) (periodUs : Nat)
  /-- SUB_OPEN_AUDIT (R602): SUB_OPEN of kind AUDIT opens an audit stream, holding or not. -/
  | subOpenAudit (q : Requester) (rseq start : Dword) (hold : Bool)
  /-- SUB_ACK (R598): SUB_ACK acknowledges audit entries for a holding subscriber. -/
  | subAck (q : Requester) (rseq seq : Dword)
  /-- SUB_CLOSE (R602): SUB_CLOSE ends a subscription. -/
  | subClose (q : Requester) (rseq : Dword) (number : Byte)
  /-- SAMPLE_PERIOD (R590): A subscription's period passes and a SAMPLE message is sent. -/
  | samplePeriod (n : Fin 4)
  /-- AUDIT_RESEND_TIMEOUT (R602): 100 ms without SUB_ACK resend entries to a holding subscriber. -/
  | auditResendTimeout (n : Fin 4)
  /-- AUDIT_HOLD_TIMEOUT (R601): A holding subscription that acknowledged nothing for the timeout is closed. -/
  | auditHoldTimeout (n : Fin 4)
  /-- JP1_REQUEST (R588): A JP1 request is served as an Observer read or refused with UNSUPPORTED. -/
  | jp1Request (source : Nat) (r : Jp1Request)
  /-- JDICT (R577): The JDICT TAP instruction moves JP2 messages over JTAG. -/
  | jdict (m : Jp2Message) (peers : Option Half)
  /-- ARP_REQUEST (R583): The management port answers an ARP request. -/
  | arpRequest (source : Nat) (target : Word)
  /-- ICMP_ECHO (R583): The management port answers an ICMP echo. -/
  | icmpEcho (source : Nat) (target : Word) (data : List Byte)
  /-- PTP_MESSAGE (R606): A PTP message from the master steers the TAI clock. -/
  | ptpMessage (master : Dword) (domain : Byte) (utc offset : Int) (settled : Bool)
  /-- PPS_EDGE (R607): A rising edge on PPS_IN marks a TAI second or is rejected. -/
  | ppsEdge
  /-- PTP_REFERENCE_SILENT (R608): A reference silent for 5 s moves TAI_STATE to HOLDOVER. -/
  | ptpReferenceSilent
  /-- TAI_SET_WRITE (R605): A write of TAI_SET sets the free-running TAI offset. -/
  | taiSetWrite (q : Requester) (v : Dword)
  /-- FREEZE_CMD_TRIGGER (R653): FREEZE_CMD 0x01 fires the freeze trigger by software. -/
  | freezeCmdTrigger (q : Requester)
  /-- FREEZE_CMD_REARM (R654): FREEZE_CMD 0x02 re-arms the trigger. -/
  | freezeCmdRearm (q : Requester)
  /-- FREEZE_CMD_DISARM (R654): FREEZE_CMD 0x03 disarms the trigger. -/
  | freezeCmdDisarm (q : Requester)
  /-- SNAP_TRIG_EDGE (R653): A rising edge on SNAP_TRIG fires the freeze trigger. -/
  | snapTrigEdge (width : Nat)
  /-- FREEZE_HOLD_EXPIRY (R654): After FREEZE_HOLD ms the trigger returns to ARMED. -/
  | freezeHoldExpiry
  /-- LATE_LATCH (R658): A domain stopped at T_f latches its register sets at its first edge once it runs again. -/
  | lateLatch (k : Fin 48)
  /-- FREEZE_DUMP_COMPLETE (R662): The supervisor finishes writing the register sets to memory, and the state becomes DUMPED. -/
  | freezeDumpComplete
  /-- LEVEL_SAT_REFRESH (R663): Every 1 ms the per-level saturation percentages are refreshed. -/
  | levelSatRefresh (f : LoadFacts)
  /-- LAT_CLEAR_WRITE (R664): A write of 1 to LAT_CLEAR empties every latency bin. -/
  | latClearWrite (q : Requester) (v : Byte)
  /-- ERROR_RATE_WINDOW (R665): Each second the error-rate windows move on. -/
  | errorRateWindow
  /-- VIN_AON_LOST (R570): VIN_AON leaves its range; the always-on island, its objects of reset domain none and the audit ring are lost, and the pins take the VIN_AON-absent states. -/
  | vinAonLost
  /-- STACK_RAILS_IN_RANGE (R635): All three stack rails come into range while the node is held in INIT in reset after RST_N release, and INIT proceeds. -/
  | stackRailsInRange
  /-- F_OR_D_INSTRUCTION (R254): A hart executes an F or D instruction, rounding under R50 with subnormals kept, or raising illegal-instruction for a static rm other than 0b000 or 0b111. -/
  | fOrDInstruction (h : Fin 3072) (w : Word) (short : Bool)
  /-- MGMT_ADDRESS_RENEWAL (R611): The management port obtains or renews its IPv4 address by DHCP, and pending writes of the management-port objects take effect. -/
  | mgmtAddressRenewal (addr mask gateway : Word)
  /-- DIGEST_MISMATCH_REPORT (R429): A node's class 7 report of a chunk digest mismatch reaches the root, which aborts the run down both trees. -/
  | digestMismatchReport (q : MailPort) (h : Header) (cid : CollId) (run : Fin 3) (signature : Bool) (queueFull : Bool)
  /-- CHUNK_REFETCH_REQUEST (R430): A parent receives a child's request to send a retained chunk again and resends it from its retention store. -/
  | chunkRefetchRequest (q : MailPort) (h : Header) (cid : CollId) (run : Fin 3) (k : Nat)
  /-- TAKEOVER_ACKNOWLEDGEMENT (R519): The hot spare receives a peer's acknowledgement of its takeover update; at the last one it holds the lost identity and starts the restore from peers. -/
  | takeoverAcknowledgement (v : Arrival)
  /-- BACK_INVALIDATE_RESPONSE (R558): The host answers a back-invalidate for a host-held line, and the node write that waited on it proceeds. -/
  | backInvalidateResponse (line : Fin 17179869184)
  deriving DecidableEq, Repr

end Sys2Proof
end

