-- ==== Sys2Proof/Decode.lean ====
section
/-! DEFINITION. The command that a word spells. The spec's table of operations and events gives no row any bits: its rows are
events of the block and its pins, and the encodings inside them (table entries, instructions of the harts, packets) are fields
of operands, not of a row. -/

namespace Sys2Proof

/-- The command that a word spells by the table's bits: none, since the table gives no row bits.
[Log DESIGN CHOICE 4] -/
def decodeTableWord (_nbits _w : Nat) : Option Instr := none

end Sys2Proof
end

