-- ==== Sys2Proof/Config.lean ====
section
/-! DEFINITION. What an implementation of the package fixes and the values the spec leaves open. A constant
with no body has no value a proof can use. -/

namespace Sys2Proof.Config

/-- Numeric release of each firmware image (R694). [Log DESIGN CHOICE 208] -/
opaque numericFw : Fin 2 → BitVec 32
/-- Identifier of the transcendental algorithm set that a numeric release names (R159, R694). [Log DESIGN CHOICE 208] -/
opaque transcId : BitVec 32 → BitVec 32
/-- Firmware release of each image (R694). [Log DESIGN CHOICE 208] -/
opaque fwVersion : Fin 2 → BitVec 32
/-- Serial number of the package (R610). [Log DESIGN CHOICE 208] -/
opaque serial : List (BitVec 8)
/-- Silicon stepping (R610). [Log DESIGN CHOICE 208] -/
opaque stepping : BitVec 16
/-- Ngubiqua's PCI-SIG vendor identifier (R694). [Log DESIGN CHOICE 208] -/
opaque pciVendor : BitVec 16
/-- SHA-384 digest of the slot-0 leaf certificate (R561, R610). [Log DESIGN CHOICE 208] -/
opaque deviceCertDigest : BitVec 384
/-- MAC address of the management port (R610). [Log DESIGN CHOICE 208] -/
opaque mgmtMac : BitVec 48
/-- SHA-384 digest of the service authority (R574). [Log DESIGN CHOICE 208] -/
opaque serviceRoot : BitVec 384
/-- Page of the I/O region that holds the event registers and ring counts, set at INIT (R240, R286, R302). [Log DESIGN CHOICE 74] -/
opaque eventPage : BitVec 20

/-- SHA-384 of a list of bytes, its first byte in bits [7:0] (R560, R595). [Log DESIGN CHOICE 206] -/
opaque sha384 : List (BitVec 8) → BitVec 384
/-- The result code of an audit entry for an abandoned transition, which R43 calls "aborted" and R578 gives no code.
[Log DESIGN CHOICE 19] -/
opaque abortedResult : BitVec 8
/-- Time from a source event to the freeze instant, at most 200 ns (R655), per draw. [Log DESIGN CHOICE 195] -/
opaque freezeDelay : Nat → Fin 201

/-- Whether a reset pulse of 1 µs up to 10 µs is recognised (R630), per draw. [Log DESIGN CHOICE 16] -/
opaque pulseRecognised : Nat → Bool

/-- Which of the results within 1 unit in the last place a transcendental algorithm set gives (R159): identifier of the set,
function code, destination format code, and the input as FP64 bits. [Log UNVERIFIED 100] -/
opaque transc : BitVec 32 → Nat → Nat → BitVec 64 → BitVec 32

/-- A byte of memory that the spec leaves undefined (R431, R436), per draw. [Log DESIGN CHOICE 154] -/
opaque freeByte : Nat → BitVec 8

/-- A bit of the destination of VCVT in a lane that no source lane feeds, or whose result no rule states (R268), per draw.
[Log DESIGN CHOICE 120] -/
opaque freeLane : Nat → BitVec 64

/-- Whether the cores set the accessed and dirty bits of a page-table entry themselves, or raise a page fault (R253).
[Log DESIGN CHOICE 116] -/
opaque setsAccessed : Bool
/-- Whether `stval` holds the bits of an illegal instruction, or 0 (R253). [Log DESIGN CHOICE 116] -/
opaque tvalHoldsInstr : Bool
/-- The cause that a hart's remote access raises when it ends with LINK_LOST (R385 gives none).
[Log DESIGN CHOICE 113] -/
opaque lostCause : BitVec 6
/-- What the monitor answers to the calls of the SBI base extension that identify it and the cores (R247).
[Log DESIGN CHOICE 116] -/
opaque sbiIdentity : Fin 5 → BitVec 64

/-- What the HBM4 wrapper instructions for identity, temperature and mode registers shift out of a stack (R328), per draw.
[Log DESIGN CHOICE 134] -/
opaque hbmIdentity : Nat → BitVec 64
opaque hbmTemperature : Nat → BitVec 64
opaque hbmModes : Nat → BitVec 64
/-- What a remap row that holds no row reads as (R328), per draw. [Log DESIGN CHOICE 134] -/
opaque unmappedRow : Nat → BitVec 32

/-- Number of segments of both directions of a bridge (R485). [Log DESIGN CHOICE 207] -/
opaque bridgeSegments : Fin 23 → Nat

/-- What the lines of the node record, which have no node address, add to a `STACK_DIGEST` (R504), per draw.
[Log DESIGN CHOICE 165] -/
opaque recordLines : Nat → BitVec 64

/-- What a staging buffer holds after its entry (R155), by draw and buffer: elements by position. [Log DESIGN CHOICE 228] -/
opaque stagedData : Nat → Nat → List (Nat × Nat)
/-- `RES0` of a completion with RANGE for which no rule says which object or address is at fault (R545), per draw.
[Log DESIGN CHOICE 188] -/
opaque rangeAt : Nat → BitVec 64
/-- The fault class under which a host link below 64 GT/s ×16 is logged, less one (R533). [Log DESIGN CHOICE 190] -/
opaque hostLinkClass : Fin 28

/-- What a register set shows that the model does not hold (queues, credits, wait causes), by draw of the freeze, address and
offset (R660); and the bytes of a set whose domain has not run since the freeze (R658). [Log DESIGN CHOICE 196] -/
opaque setByte : Nat → Nat → Nat → BitVec 8
/-- From T_f to the latching edge of a running domain, at most one cycle of RC in ns, by draw and address (R658).
[Log DESIGN CHOICE 198] -/
opaque latchEdge : Nat → Nat → Fin 41
/-- The time at which a gated block wakes and latches, and whether a slice, coupler or stack controller is gated at T_f, by
draw and address (R626, R658). [Log DESIGN CHOICE 198] -/
opaque latchTime : Nat → Nat → BitVec 64
opaque gatedAt : Nat → Nat → Bool
/-- Codes of the HBM4 wrapper instructions that the package supports (R328). [Log DESIGN CHOICE 235] -/
opaque hbmCode : Nat → BitVec 8
/-- The time in ns that the sweep of a snapshot copy takes for a line, by generation, channel and within-channel index (R344).
[Log DESIGN CHOICE 201] -/
opaque copyTime : Nat → Nat → Nat → BitVec 32
/-- Lines that a migration copies in 1 ns, by draw (R315). [Log DESIGN CHOICE 128] -/
opaque migrationPace : Nat → BitVec 24
/-- The core die that holds a row of a channel, by channel and row (R299, R325). [Log DESIGN CHOICE 249] -/
opaque rowCore : Nat → Nat → BitVec 5

/-- The certificate chain of slot 0, and its digest (R561). [Log DESIGN CHOICE 208] -/
opaque certChain : List (BitVec 8)
opaque certChainDigest : BitVec 384
/-- Digest of each firmware image (R561). [Log DESIGN CHOICE 208] -/
opaque imageDigest : Fin 2 → BitVec 384
/-- A signature of the package in an SPDM answer, per draw (R560). [Log PRESUMED 47] -/
opaque spdmSignature : Nat → BitVec 768

end Sys2Proof.Config
end

