-- ==== Sys2Proof/Machine/Store.lean ====
section
/-! DEFINITION. Sparse stores in one canonical form: an association list, keys strictly rising, no entry
equal to what an unlisted key reads as. Memory, registers and the per-element records of the package are
such stores. -/

namespace Sys2Proof.Machine

/-- A sparse store from keys to values. -/
abbrev Store (K V : Type) := List (K × V)

/-- Read of a store: the listed value, or what an unlisted key reads as. [Log DESIGN CHOICE 1] -/
def Store.get {K V : Type} [DecidableEq K] (dflt : K → V) : Store K V → K → V
  | [], k => dflt k
  | (k', v) :: m, k => if k' = k then v else Store.get dflt m k

/-- Remove a key. -/
def Store.erase {K V : Type} [DecidableEq K] (m : Store K V) (k : K) : Store K V :=
  m.filter fun e => e.1 ≠ k

/-- Put an entry in its place among rising keys. -/
def Store.insert {K V : Type} (lt : K → K → Bool) (k : K) (v : V) : Store K V → Store K V
  | [] => [(k, v)]
  | (k', v') :: m => if lt k k' then (k, v) :: (k', v') :: m else (k', v') :: Store.insert lt k v m

/-- Write of a store; writing what an unlisted key reads as removes the entry. -/
def Store.set {K V : Type} [DecidableEq K] [DecidableEq V] (lt : K → K → Bool) (dflt : K → V)
    (m : Store K V) (k : K) (v : V) : Store K V :=
  if v = dflt k then Store.erase m k else Store.insert lt k v (Store.erase m k)

/-- The canonical form: keys strictly rising and no entry equal to what an unlisted key reads as. -/
def Store.wf {K V : Type} [DecidableEq V] (lt : K → K → Bool) (dflt : K → V) : Store K V → Bool
  | [] => true
  | (k, v) :: m => (v ≠ dflt k) && (m.all fun e => lt k e.1) && Store.wf lt dflt m

/-- Order of natural keys. -/
def natLt (a b : Nat) : Bool := decide (a < b)

/-- Read of a store with natural keys and one default. -/
def Store.at {V : Type} (d : V) (m : Store Nat V) (k : Nat) : V := Store.get (fun _ => d) m k

/-- Write of a store with natural keys and one default. -/
def Store.put {V : Type} [DecidableEq V] (d : V) (m : Store Nat V) (k : Nat) (v : V) : Store Nat V :=
  Store.set natLt (fun _ => d) m k v

end Sys2Proof.Machine
end

