-- ==== Sys2Proof/Machine/Bay.lean ====
section
/-! DEFINITION. What a bay holds for its logical bay: sequencer state, tile buffers, slots and predicates, and the
entries in flight (R127, R150, R161, R163, R207, R224, R225). -/

namespace Sys2Proof.Machine

/-- A tile buffer with its tag: a format code, a count of valid rows, and its elements by position (R150, R151).
[Log DESIGN CHOICE 105] -/
structure Tile where
  fmt : Nat
  rows : Nat
  data : Store Nat Nat
  deriving DecidableEq, Repr

/-- A tile buffer after a reset: FP64 with 128 valid rows of +0 (R151). -/
def Tile.blank : Tile := ⟨1, 128, []⟩

/-- Staging buffer `t` after its entry: FP64 with 0 valid rows, and undefined contents (R155). [Log DESIGN CHOICE 228] -/
def Tile.staged (k t : Nat) : Tile := ⟨1, 0, Config.stagedData k t⟩

/-- Bytes of an element of a tile buffer in its format (R150). -/
def Tile.width (t : Tile) : Nat := if t.fmt = 1 then 8 else if t.fmt = 2 then 4 else 2

/-- What one operation adds to a statistics record: its selection and format codes, status, counts, the source
exponents seen, and its histogram (R86 to R88). -/
structure Delta where
  sel : Nat
  srcFmt : Nat
  dstFmt : Nat
  status : Nat
  elements : Nat
  saturated : Nat
  flushed : Nat
  nanBlocks : Nat
  zeroBlocks : Nat
  srcMax : Option Int
  srcMin : Option Int
  merges : Nat
  slowBlocks : Nat
  slowStalls : Nat
  bins : List Nat
  deriving DecidableEq, Repr

/-- An operand as a store of the array holds it (R95, R102): bytes by the address that they were read from, and whether some of
them were marked poisoned. -/
structure Load where
  runs : List (Nat × List Byte)
  bad : Bool
  deriving DecidableEq, Repr

/-- Bytes that an operand was read from. -/
def Load.bytes (l : Load) : Nat := (l.runs.map fun r => r.2.length).sum

/-- A table entry that has been issued (R198, R207): its order of start, the table and index it lies at, the call depth,
its 256 bits, the iteration index of each loop counter (R224), and what has become of it. -/
structure Flight where
  serial : Nat
  table : Nat
  index : Nat
  depth : Nat
  word : Nat
  iters : List Nat
  /-- Issues of the same `STEP` before this COLL or SNAP in the time step (R220). -/
  ordinal : Nat
  /-- Byte ranges read and written (R207), and the tiles (0-3), slots (16-31), predicates (32-39) and flags (48) used and
  set, once the entry has started. -/
  reads : List (Nat × Nat)
  writes : List (Nat × Nat)
  uses : List Nat
  sets : List Nat
  /-- Time of issue and of start, in ns. -/
  issuedAt : Nat
  startAt : Nat
  /-- The deadline in ns, and the time for which its clock has been stopped (R227, R432). -/
  limit : Nat
  stopped : Nat
  /-- The coarse scales that the operation read when it started (R108, R187); for a COLL its descriptor D and the address of
  its count vector. -/
  scales : List Nat
  /-- Its effect has been made, or for a COLL its result has been delivered. -/
  executed : Bool
  /-- Progress inside an operation that waits for others: 0 none, 1 waiting. -/
  phase : Nat
  /-- The entry runs speculatively (R233). -/
  spec : Bool
  /-- The entry repeats one that faulted after it started; the table goes on where it stands (R219). -/
  retry : Bool
  result : Nat
  status : Nat
  detail : Nat
  rflags : Nat
  /-- The table halts when the entry completes. -/
  halts : Bool
  /-- Replies gathered by element (R219, R380): value, or cause of a fault plus 2^64. -/
  replies : Store Nat Nat
  /-- Scale areas that the entry reads or merges into (R193); while it waits for one, the number of its arrival (R192). -/
  areas : List Nat
  arrival : Nat
  /-- Parts of a TRANS that are still to be written: home die, address and bytes (R179, R182); the merge that follows the
  last, and the element positions converted. -/
  plan : List (Nat × Nat × List Byte)
  after : List (Nat × Delta)
  elems : Nat
  deriving DecidableEq, Repr

/-- A write that the speculative buffer holds (R234). -/
structure SpecWrite where
  serial : Nat
  addr : Nat
  bytes : List Byte
  deriving DecidableEq, Repr

/-- A speculative run: the position of its first entry, the serials of the COLLs it depends on, and whether its buffer
has been discarded (R233, R236). [Log DEDUCED 83] -/
structure SpecRun where
  table : Nat
  index : Nat
  deps : List Nat
  stalled : Bool
  discarded : Bool
  deriving DecidableEq, Repr

/-- A targeted self-test, or the spare-in after it (R484, R490): the element, how far it has come (0 test, 1 copy or
spare-in), the `SEQ` of its first record and of the records of its spare-in, the time of detection, and a place for the
spare chosen. -/
structure SelfTest where
  kind : Nat
  unit : Nat
  stage : Nat
  seq : Nat
  more : List Nat
  at' : Nat
  spare : Nat
  deriving DecidableEq, Repr

/-- A copy of a model's weights in a die's roster part of LLM (R139): its die, roster index, size, and whether a bay of the die has
bound the model since the copy was queued or made (R145). -/
structure ModelCopy where
  die : Nat
  index : Nat
  bytes : Nat
  used : Bool
  deriving DecidableEq, Repr

/-- A copy in Tailwind's queue (R141): its die, roster index, and whether a bay of the die has bound the model meanwhile. -/
structure TailwindCopy where
  die : Nat
  index : Nat
  met : Bool
  deriving DecidableEq, Repr

/-- Who waits for a request: a bay's entry, with the element of a gather; a hart; a relay of another chapter. -/
inductive Agent where
  | bay (b serial elem : Nat)
  | hart (h tag : Nat)
  deriving DecidableEq, Repr

/-- A request on the fabric that has not been answered (R365, R383). -/
structure Request where
  agent : Agent
  pos : Nat
  p : Packet
  deriving DecidableEq, Repr

/-- An answer to a hart's request: its tag, data, poison, and the code and cause of a failure, 0 for none. -/
structure HartReply where
  hart : Nat
  tag : Nat
  data : List Byte
  poison : Bool
  code : Nat
  cause : Nat
  deriving DecidableEq, Repr

/-- A contribution of an ordered RACC in staging, or its signal (R388, R389). -/
structure Staged where
  src : Nat
  order : RaccOrder
  arrival : Nat
  addr : Nat
  p : Packet
  deriving DecidableEq, Repr

/-- A registered region (R374). -/
structure Region where
  key : Nat
  base : Nat
  size : Nat
  perm : Nat
  deriving DecidableEq, Repr

/-- A mail message at its source (R392 to R398): the queue, or 64 more than the bay whose RSTORE it is; the bay and entry of an
RSTORE; what its descriptor says; whether it has started, and its number on the pair then; packets acknowledged, resends, and its
result once it has one. -/
structure Mail where
  queue : Nat
  bay : Nat
  tag : Nat
  lnode : Nat
  cls : Nat
  notify : Option Nat
  order : Bool
  key : Nat
  offset : Nat
  data : List Byte
  poisoned : Bool
  refused : Bool
  msg : Nat
  started : Bool
  acked : Nat
  resends : Nat
  result : Option Nat
  deriving DecidableEq, Repr

/-- What a mail destination keeps of a source's latest message: source, message number, packets that have arrived, whether it is whole, and the
code and cause with which it has failed, 0 for none (R375, R396). -/
structure MailIn where
  src : Nat
  msg : Nat
  pkts : List Nat
  done : Bool
  code : Nat
  cause : Nat
  deriving DecidableEq, Repr

/-- A child's partial of a chunk that has arrived (R414, R421): run, signature, chunk, child's rank, bits, counts and status. -/
structure CollPart where
  run : Nat
  sig : CollSig
  chunk : Nat
  child : Nat
  vals : List (Option Nat)
  counts : List (Nat × Nat)
  status : Nat
  deriving DecidableEq, Repr

/-- An instance of a collective at this node (R406 to R436): what members match it by, this node's signature once it has
one, members and this node's rank, the bays that have joined with the serial of their entry, and what the engine has of
it in its present run. -/
structure Coll where
  id : CollId
  sig : Option CollSig
  nd : Bool
  members : List Nat
  rank : Nat
  bays : Nat
  joined : List (Nat × Nat)
  /-- Contributions of the bays that have joined: element bits at the combination width. -/
  contribs : List (Nat × List Nat)
  staged : Bool
  own : List (Option Nat)
  counts : List (Nat × Nat)
  status : Nat
  run : Nat
  parts : List CollPart
  /-- Chunks sent up, or formed at the root, in this run. -/
  sent : List Nat
  /-- Status and counts gathered at the root of each tree. -/
  rootStatus : Nat
  rootCounts : List (Nat × Nat)
  /-- Chunks of the result that have matched. -/
  results : Store Nat (List (Nat × Bool))
  tokens : List Nat
  refetch : List Nat
  /-- Chunks sent down, with the children that have not acknowledged them. -/
  retained : List (Nat × Nat)
  delivered : Bool
  deliveredAt : Nat
  /-- The runs after which the instance has failed for good, before every bay has joined it (R431). -/
  failed : Option Nat
  /-- The COLL has ended here, and the engine goes on for the members below (R427, R430, R431). -/
  closed : Bool
  deriving DecidableEq, Repr

/-- A chunk that waits for room in the retention store (R427). -/
structure CollHeld where
  src : Nat
  id : CollId
  run : Nat
  sig : CollSig
  msg : CollMsg
  deriving DecidableEq, Repr

/-- A chunk record of the Crosswind chunk log with its stream, the STEP of its DIGEST, and the addresses of its bytes
(R471). -/
structure ChunkRecord where
  stream : Nat
  step : Nat
  addr : Nat
  digest : Nat
  bytes : List Nat
  deriving DecidableEq, Repr

/-- The state of one logical bay. -/
structure Bay where
  /-- The bay has a table in the job's directory (R197). -/
  present : Bool
  /-- Base of the current table, next entry, and whether the next entry is known. -/
  table : Nat
  index : Nat
  known : Bool
  /-- Return positions, innermost first (R225). -/
  stack : List (Nat × Nat)
  /-- L and C of each loop counter (R224). -/
  left : List Nat
  count : List Nat
  /-- Issues of each `STEP` by COLLs and SNAPs in the current time step (R220). -/
  issues : Store Nat Nat
  /-- One more than the ordinal of the most recent COLL of each `STEP` in the time step (R221). -/
  lastColl : Store Nat Nat
  event : Nat
  preds : List Nat
  slots : List Nat
  cf : Nat
  tiles : List Tile
  /-- The bound roster index (R136), and its weights in the B store while the next MMA may take them (R103). -/
  model : Option Nat
  weights : Option Load
  /-- The A and the B store: operands of the MMA in progress and of the next one, by serial (R95, R102); and the rows of the
  accumulator store that an interrupted write-back still has to write (R121). -/
  aStore : List (Nat × Load)
  bStore : List (Nat × Load)
  accum : List (Nat × List Byte)
  /-- The entry that has been issued and has not started. -/
  head : Option Flight
  /-- The entries that have started, oldest first. -/
  flights : List Flight
  /-- Delivered COLLs that wait for their commit, oldest first (R425, R428). -/
  colls : List Flight
  serial : Nat
  /-- Table window and descriptor cache: lines of 128 B by address, newest first (R205). -/
  window : List (Nat × Nat)
  descs : List (Nat × Nat)
  /-- The last 16 completion records, newest first, and the count of ring records (R212). -/
  records : List (List Byte)
  ring : Nat
  run : Option SpecRun
  spec : List SpecWrite
  /-- Statistics merges deferred with them: serial, record address, delta (R234). -/
  merges : List (Nat × Nat × Delta)
  /-- CRC state of each digest stream, none while unused (R463), and the digests closed at each LAST not yet passed. -/
  streams : List (Option Nat)
  closed : List (List (Option Nat))
  /-- Chunk records of the present step, in fold order (R471). -/
  chunks : List ChunkRecord
  oldChunks : List (List ChunkRecord)
  /-- LAST entries completed in the job (R226). -/
  lasts : Nat
  /-- The last entry that completed carried LAST, and no entry has been issued since. -/
  atLast : Bool
  /-- The bay shares its physical bay and the other context runs (R124). -/
  parked : Bool
  /-- The context of the parked bay lies in its context area, saved at a switch (R124, R127). -/
  stored : Bool
  /-- Pre-emption: 0 none, 1 asked, 2 saving (R237). -/
  preempt : Nat
  /-- Array self-test or spare-in in progress: 0 none, 1 BIST, 2 copy (R121). -/
  sparing : Nat
  /-- The time at which the deadline clocks stopped, plus 1; 0 while they run (R227). -/
  stoppedAt : Nat
  /-- Position at which a halted table resumes: the entry to retry. -/
  halted : Option Flight
  /-- Fault code and far end of a posted operation that failed, for the next HOLD or FENCE (R385). -/
  failure : Option (Nat × Nat)
  /-- The position at which a snapshot captured the bay has been reached (R499). -/
  captured : Bool
  deriving DecidableEq, Repr

/-- A logical bay without a table. -/
def Bay.idle : Bay where
  present := false
  table := 0
  index := 0
  known := true
  stack := []
  left := List.replicate 8 0
  count := List.replicate 8 0
  issues := []
  lastColl := []
  event := 0
  preds := List.replicate 8 0
  slots := List.replicate 16 0
  cf := 0
  tiles := List.replicate 4 Tile.blank
  model := none
  weights := none
  aStore := []
  bStore := []
  accum := []
  head := none
  flights := []
  colls := []
  serial := 0
  window := []
  descs := []
  records := []
  ring := 0
  run := none
  spec := []
  merges := []
  streams := List.replicate 8 none
  closed := []
  chunks := []
  oldChunks := []
  lasts := 0
  atLast := false
  parked := false
  stored := false
  preempt := 0
  sparing := 0
  stoppedAt := 0
  halted := none
  failure := none
  captured := false

/-! Fields of an entry (R198). -/

/-- `OP`. -/
def Flight.op (f : Flight) : Nat := field f.word 0 8
/-- `FLAGS`. -/
def Flight.flags (f : Flight) : Nat := field f.word 8 8
/-- `STEP`. -/
def Flight.step (f : Flight) : Nat := field f.word 16 16
/-- `DEADLINE`. -/
def Flight.deadline (f : Flight) : Nat := field f.word 32 32
/-- `SRC_A`. -/
def Flight.srcA (f : Flight) : Nat := field f.word 64 32
/-- `SRC_B`. -/
def Flight.srcB (f : Flight) : Nat := field f.word 96 32
/-- `DST`. -/
def Flight.dst (f : Flight) : Nat := field f.word 128 32
/-- Bits of `PARAM`. -/
def Flight.param (f : Flight) (lo n : Nat) : Nat := field f.word (160 + lo) n
/-- `COND`. -/
def Flight.cond (f : Flight) : Nat := field f.word 224 8
/-- `NEXT`. -/
def Flight.next (f : Flight) : Nat := field f.word 232 24
/-- The flags of R199. -/
def Flight.nd (f : Flight) : Bool := bit f.word 8
/-- SPEC (R199). -/
def Flight.isSpec (f : Flight) : Bool := bit f.word 9
/-- LAST (R199). -/
def Flight.last (f : Flight) : Bool := bit f.word 10
/-- HOLD (R199). -/
def Flight.hold (f : Flight) : Bool := bit f.word 11
/-- TRACE (R199). -/
def Flight.trace (f : Flight) : Bool := bit f.word 12

/-- The deadline clocks of a bay stop: during a spare-in, while it runs another logical bay's context, and while it is
pre-empted (R119, R227). -/
def Bay.stops (x : Bay) : Bool := x.sparing ≠ 0 || x.parked || x.preempt = 3

/-- The deadline clocks stop or go on, as the state of the bay says. -/
def Bay.clock (now : Nat) (x : Bay) : Bay :=
  if x.stops then (if x.stoppedAt = 0 then { x with stoppedAt := now + 1 } else x)
  else if x.stoppedAt = 0 then x
  else
    let add (f : Flight) : Flight := { f with stopped := f.stopped + (now + 1 - x.stoppedAt) }
    { x with flights := x.flights.map add, colls := x.colls.map add, stoppedAt := 0 }

/-- What the stores have preloaded for an entry that has not started is given up. -/
def Bay.dropPreload (x : Bay) : Bay :=
  { x with
    aStore := x.aStore.filter fun e => e.1 ≠ x.serial
    bStore := x.bStore.filter fun e => e.1 ≠ x.serial }

/-- The operands of an entry leave the stores once it is done; one that stalls on the speculative buffer keeps them (R108, R235). -/
def Bay.leaveStores (x : Bay) (serial : Nat) : Bay :=
  if x.flights.any fun f => f.serial = serial && !f.executed then x
  else
    { x with
      aStore := x.aStore.filter fun e => e.1 ≠ serial
      bStore := x.bStore.filter fun e => e.1 ≠ serial }

/-- Predicate `p` of a bay; P0 always reads all ones (R163). -/
def Bay.pred (b : Bay) (p : Nat) : Nat := if p = 0 then 2 ^ 64 - 1 else b.preds.getD p 0

/-- Slot `n` of a bay, as FP64 bits (R161). -/
def Bay.slot (b : Bay) (n : Nat) : Nat := b.slots.getD n 0

/-- Tile buffer `t` of a bay (R150). -/
def Bay.tile (b : Bay) (t : Nat) : Tile := b.tiles.getD t Tile.blank

/-- Iteration index of a loop counter (R224). -/
def Bay.iteration (b : Bay) (c : Nat) : Nat :=
  if b.left.getD c 0 = 0 then 0 else b.count.getD c 0 - b.left.getD c 0

/-- `COND` holds on the reduction flags (R223). -/
def condHolds (cond cf : Nat) : Bool :=
  if cond = 0x01 then true
  else if 0x10 ≤ cond ∧ cond < 0x18 then bit cf (cond - 0x10)
  else if 0x18 ≤ cond ∧ cond < 0x20 then !bit cf (cond - 0x18)
  else if cond = 0x20 then bit cf 0 || bit cf 1
  else if cond = 0x21 then bit cf 1 || bit cf 2
  else false

end Sys2Proof.Machine
end

