-- ==== Sys2Proof/Machine/Hart.lean ====
section
/-! DEFINITION. What a general core holds for a hart, and the entries of its store buffer (R242, R247, R253 to R263). -/

namespace Sys2Proof.Machine

/-- Where an access of a hart goes, after translation (R302): node memory, the I/O region, or a region at a group peer by
logical node, traffic class, key and offset (R281). -/
inductive Place where
  | node (p : Nat)
  | io (p : Nat)
  | far (lnode cls key offset : Nat)
  deriving DecidableEq, Repr

/-- The access is remote. -/
def Place.isFar : Place → Bool
  | .far _ _ _ _ => true
  | _ => false

/-- What a parked hart waits for. The program counter stands at its instruction, which is `len` bytes long. -/
inductive Await where
  | none
  | wfi
  /-- A store found the store buffer full; it is performed once an entry drains (R261). -/
  | room (len : Nat) (p : Nat) (io : Bool) (bytes : List Byte)
  | load (k : LoadKind) (len rd va : Nat) (p : Place)
  | vload (vd va : Nat) (p : Place)
  | atomic (a : HartAtomic) (size rd x va : Nat) (rl : Bool) (p : Place)
  | gather (et vd : Nat) (es : List (Nat × Place))
  | scatter (es : List (Nat × List Byte))
  | sync (nv ra : Bool)
  | fence
  /-- A page-table read has left the core; the instruction starts again when it returns (R258, R259). -/
  | refill
  /-- The package stops the hart, and its accesses in flight complete first (R248). -/
  | halt
  deriving DecidableEq, Repr

/-- A hart: its registers and CSRs, and what it waits for. `x` holds x1 to x31 by number, `v` the v registers. -/
structure Hart where
  pc : Nat
  x : Store Nat Nat
  v : Store Nat Nat
  /-- The mode is U; otherwise S (R247). -/
  user : Bool
  fflags : Nat
  /-- FS of sstatus: 0 Off, 1 Initial, 2 Clean, 3 Dirty (R265). -/
  fs : Nat
  sie : Bool
  spie : Bool
  spp : Bool
  sum : Bool
  mxr : Bool
  satp : Nat
  stvec : Nat
  sepc : Nat
  scause : Nat
  stval : Nat
  sscratch : Nat
  scounteren : Nat
  senvcfg : Nat
  /-- Interrupts enabled and pending: bits 1, 5 and 9. -/
  ie : Nat
  ip : Nat
  /-- The time at which the monitor raises the timer interrupt, none for none (R247). -/
  timer : Option Nat
  /-- `svxfidx` and `svxswitch` (R257). -/
  fidx : Nat
  switches : Nat
  instret : Nat
  wait : Await
  deriving DecidableEq, Repr

/-- A hart that has not started. FS is Initial (DESIGN CHOICE), every other register 0. [Log DESIGN CHOICE 118] -/
def Hart.blank : Hart where
  pc := 0
  x := []
  v := []
  user := false
  fflags := 0
  fs := 1
  sie := false
  spie := false
  spp := false
  sum := false
  mxr := false
  satp := 0
  stvec := 0
  sepc := 0
  scause := 0
  stval := 0
  sscratch := 0
  scounteren := 0
  senvcfg := 0
  ie := 0
  ip := 0
  timer := none
  fidx := 0
  switches := 0
  instret := 0
  wait := .none

/-- An entry of a core's store buffer: the core, the hart that stored, where, and the bytes (R242, R261). -/
structure HartStore where
  core : Nat
  hart : Nat
  addr : Nat
  io : Bool
  bytes : List Byte
  deriving DecidableEq, Repr

/-- Read of an integer register; x0 reads 0. -/
def Hart.reg (t : Hart) (n : Nat) : Nat := if n = 0 then 0 else Store.at 0 t.x n

/-- Write of an integer register; x0 discards it. -/
def Hart.setReg (t : Hart) (n v : Nat) : Hart :=
  if n = 0 then t else { t with x := Store.put 0 t.x n (v % 2 ^ 64) }

/-- Read of a v register. -/
def Hart.vreg (t : Hart) (n : Nat) : Nat := Store.at 0 t.v n

/-- Write of a v register, which makes FS Dirty (R265). -/
def Hart.setVreg (t : Hart) (n v : Nat) : Hart := { t with v := Store.put 0 t.v n (v % 2 ^ 128), fs := 3 }

/-- Read of a floating-point register: bits [63:0] of the v register (R263). -/
def Hart.freg (t : Hart) (n : Nat) : Nat := t.vreg n % 2 ^ 64

/-- Write of a floating-point register, which clears bits [127:64] of the v register (R263). -/
def Hart.setFreg (t : Hart) (n v : Nat) : Hart := t.setVreg n (v % 2 ^ 64)

/-- Flags accumulate, and make FS Dirty. -/
def Hart.accrue (t : Hart) (flags : Nat) : Hart :=
  if flags = 0 then t else { t with fflags := t.fflags ||| flags, fs := 3 }

end Sys2Proof.Machine
end

