-- ==== Sys2Proof/Machine/Registers.lean ====
section
/-! DEFINITION. The registers of the package: every object of the dictionary under its spec name (R568, R591) with
its address, type, access class and reset domain as its chapter's table of objects gives them, then the registers
that the rules name outside the dictionary. An object that holds several elements is an array of registers: the
index of element e of instance n is n * elems + e. -/

namespace Sys2Proof.Machine

/-- The access classes of R572; `hidden` is a register outside the dictionary. -/
inductive Access where
  | ro | rwOp | rwAdm | rwSvc | woAdm | sealed | hidden
  deriving DecidableEq, Repr

/-- The reset domains of R570. `sealed` is held in fuses; `board` is an input of the package that no reset of it moves. -/
inductive Domain where
  | warm | cold | always | sealed | board
  deriving DecidableEq, Repr

/-- The layout of one register: dictionary address (index * 256 + subindex) of instance 0, number of instances
(instance n at index + n), bytes of one element, elements of one instance, access class, reset domain, and whether it
is job-scoped, dynamic (R589), or listed in AUDITED_STATE (R589). -/
structure RegInfo where
  addr : Nat
  count : Nat
  esize : Nat
  elems : Nat
  access : Access
  domain : Domain
  jobScoped : Bool
  dynamic : Bool
  audited : Bool
  deriving DecidableEq, Repr

/-- Every register of the package. -/
inductive Reg where
  /-- `NODE_STATE` 0x2400.01: state code from the state table below -/
  | nodeState
  /-- `JOB_ACTIVE` 0x2400.02: 1 while a job is loaded on the node -/
  | jobActive
  /-- `DEGRADE_CAUSE` 0x2400.03: causes of DEGRADED, bit map below -/
  | degradeCause
  /-- `STATE_REQUEST` 0x2400.04: 0x05 requests Lull; 0x04 requests resume; reads the request pending, 0x00 if none -/
  | stateRequest
  /-- `SERVICE_REQUEST` 0x2400.05: 1 requests SERVICE; 0 written in SERVICE ends it under R42 -/
  | serviceRequest
  /-- `LULL_DEADLINE` 0x2400.06: time allowed to reach Lull, in ms, 1–60,000 -/
  | lullDeadline
  /-- `INIT_STAGE` 0x2400.07: INIT stage in progress, 0 outside INIT -/
  | initStage
  /-- `PHYS_ID` 0x2410.01: physical identifier in bits [23:0]; bits [31:24] zero -/
  | physId
  /-- `POS_STRAP` 0x2410.02: raw POS[4:0] value -/
  | posStrap
  /-- `LOCATION` 0x2410.03: bits [22:5] of the physical identifier; [31] `LOC_SET`, read-only (R30); other bits reserved -/
  | location
  /-- `LOGICAL_ID` 0x2410.04: logical node identifier, 0xFFFF_FFFF when none is held -/
  | logicalId
  /-- `NUMERIC_FW` 0x3400.01: numeric release of the running image; layout and meaning of R694 -/
  | numericFw
  /-- `ROUNDING` 0x3400.02: 0x00 = round to nearest, ties to even; no other value -/
  | rounding
  /-- `MODE_SETS` 0x3400.03: number of mode sets -/
  | modeSets
  /-- `SUBN` 0x3410.01 + n: 0x00 keep; 0x01 flush -/
  | subn
  /-- `ACC` 0x3410.02 + n: 0x00 FP64 accumulator; 0x01 extended accumulator; FP64-class MMA only -/
  | acc
  /-- `STATS` 0x3410.03 + n: bit [0] counters and status; bit [1] histogram -/
  | stats
  /-- `BAYS_ACTIVE` 0x3000.01: active physical bays in the package -/
  | baysActive
  /-- `BAY_SPARES_LEFT` 0x3000.02: unused spare bays, 4 bits per die, CD0 in bits [3:0] -/
  | baySparesLeft
  /-- `CTX_BASE` 0x3000.03: base of the context areas under R127; writable only without a job, otherwise refused with BUSY -/
  | ctxBase
  /-- `RESIDUE_REPLAYS` 0x3000.04: dynamic; A vectors replayed under R96 -/
  | residueReplays
  /-- `BAY_STATE` 0x3010.01 + d: 34 B for die d (0–7), one per physical bay: 0x00 active, 0x01 spare, 0x02 failed -/
  | bayState
  /-- `LBAY_MAP` 0x3020.01: 256 entries of 2 B: die in bits [15:8], physical bay in bits [7:0] -/
  | lbayMap
  /-- `ROSTER_BASE` 0x3880.01: stack address of the roster region -/
  | rosterBase
  /-- `ROSTER_BYTES` 0x3880.02: size of the roster region in bytes, a multiple of 2 GiB, 0–64 GiB; refused with BUSY while a job is loaded -/
  | rosterBytes
  /-- `ROSTER_COUNT` 0x3880.03: registered models -/
  | rosterCount
  /-- `ROSTER_LLM` 0x3880.04: MiB of each die's LLM scratchpad given to the roster, 0–256 -/
  | rosterLlm
  /-- `TAILWIND_EN` 0x3880.05: 1 enables Tailwind -/
  | tailwindEn
  /-- `TAILWIND_DEPTH` 0x3880.06: queued copies per compute die, 1–64 -/
  | tailwindDepth
  /-- `SWITCHES` 0x3880.10: dynamic; MODEL steps that changed the bound model -/
  | switches
  /-- `SWITCH_LLM_HITS` 0x3880.11: dynamic; switches served from the own die's LLM -/
  | switchLlmHits
  /-- `PREFETCH_LATE` 0x3880.12: dynamic; switches that met their Tailwind copy in flight -/
  | prefetchLate
  /-- `PREFETCH_UNUSED` 0x3880.13: dynamic; Tailwind copies evicted before any binding -/
  | prefetchUnused
  /-- `PREFETCH_DROPPED` 0x3880.14: dynamic; queued copies displaced under R142 -/
  | prefetchDropped
  /-- `CARRY_HEADROOM` 0x3400.04: headroom h of R185, in powers of two, 0–15 -/
  | carryHeadroom
  /-- `TRANSC_ID` 0x3400.05: identifier of the transcendental algorithm set of R159; fixed by `NUMERIC_FW` (R694) -/
  | transcId
  /-- `VEC_STATUS_OR` 0x3030.01: dynamic; OR of all VOP and VRED status words, layout of R166 -/
  | vecStatusOr
  /-- `VEC_STEPS` 0x3030.02: dynamic; VOP and VRED steps completed -/
  | vecSteps
  /-- `TRANS_ELEMENTS` 0x3480.01: dynamic; element positions converted by all couplers -/
  | transElements
  /-- `TRANS_CARRY_MISSES` 0x3480.02: dynamic; CARRIED entries run as TWO_PASS, and CARRY functions on an empty record -/
  | transCarryMisses
  /-- `TRANS_REMOTE_BLOCKS` 0x3480.03: dynamic; blocks with a unit fetched from another die under R180 -/
  | transRemoteBlocks
  /-- `SCALE_AREA_RACES` 0x3480.04: dynamic; overlaps counted under R193 -/
  | scaleAreaRaces
  /-- `COUPLER_QUEUE_MAX` 0x3480.05: dynamic; deepest queue of parts seen at any coupler -/
  | couplerQueueMax
  /-- `TABLE_DIR` 0x3800.01: job-scoped; address of the table directory (R197) -/
  | tableDir
  /-- `DESC_BASE` 0x3800.02: job-scoped; address of the descriptor table, 64 B aligned -/
  | descBase
  /-- `DESC_COUNT` 0x3800.03: job-scoped; descriptors, 0–16,777,216 -/
  | descCount
  /-- `COMPLETION_RING` 0x3800.04: job-scoped; base of the completion rings, 4 KiB aligned -/
  | completionRing
  /-- `EVENT_BASE` 0x3800.05: address of the event registers and ring counts -/
  | eventBase
  /-- `DEADLINE_DEFAULT` 0x3800.06: default deadline in 16 ns units (1 ms), 1–0xFFFF_FFFF -/
  | deadlineDefault
  /-- `DEADLINE_POLICY` 0x3800.07: 0x00 REPORT, 0x01 HALT, 0x02 LULL -/
  | deadlinePolicy
  /-- `STRICT_CONVERT` 0x3800.08: 0x01 convert, 0x00 reject (R231) -/
  | strictConvert
  /-- `TABLE_STATE` 0x3820.01: one byte per logical bay: 0x00 idle, 0x01 running, 0x02 waiting, 0x03 halted, 0x04 ended, 0x05 pre-empted -/
  | tableState
  /-- `STEPS_ISSUED` 0x3800.10: dynamic; entries issued by all bays -/
  | stepsIssued
  /-- `DEADLINES_MISSED` 0x3800.11: dynamic; entries with `RFLAGS`[0] set -/
  | deadlinesMissed
  /-- `ND_CONVERTED` 0x3800.12: dynamic; entries converted under R231 -/
  | ndConverted
  /-- `SPEC_STALLS` 0x3800.13: dynamic; stalls under R235 -/
  | specStalls
  /-- `WINDOW_MISSES` 0x3800.14: dynamic; window refills and descriptor-cache misses -/
  | windowMisses
  /-- `PREEMPTS_DEFERRED` 0x3800.15: dynamic; deferrals under R238 -/
  | preemptsDeferred
  /-- `CORES_USABLE` 0x3C00.01: general cores that passed self-test -/
  | coresUsable
  /-- `CORE_RESERVE` 0x3C00.02: job-scoped; reserve cores per processor die, 0–8 -/
  | coreReserve
  /-- `CORE_RESERVE_LEFT` 0x3C00.03: unused reserve cores: [7:0] PD0, [15:8] PD1 -/
  | coreReserveLeft
  /-- `HART_COUNT` 0x3C00.04: job-scoped; logical harts, 0 to 32 × (96 − `CORE_RESERVE`) -/
  | hartCount
  /-- `HART_START` 0x3C00.05: job-scoped; start table (R246), 32 B aligned -/
  | hartStart
  /-- `APERTURE_BASE` 0x3C00.06: job-scoped; aperture table (R281), 32 B aligned -/
  | apertureBase
  /-- `APERTURE_COUNT` 0x3C00.07: job-scoped; apertures in use, 0–256 -/
  | apertureCount
  /-- `HART_MAP` 0x3C10.01: 2 B per logical hart index 0–3,071: [15] die, [14:8] core, [7:4] zero, [3:0] thread, for every index below 32 × (96 − `CORE_RESERVE`); 0xFFFF for every higher index -/
  | hartMap
  /-- `HART_STATE` 0x3C10.02: 1 B per logical hart: 0x00 not started, 0x01 ready or running, 0x02 parked, 0x03 stopped in Lull, 0x04 ended, 0x05 migrating -/
  | hartState
  /-- `SUP_ACTIVE` 0x3C20.01: 0x00 pair A on PD0; 0x01 pair B on PD1 -/
  | supActive
  /-- `SUP_STANDBY_OK` 0x3C20.02: 0 once the standby pair is lost -/
  | supStandbyOk
  /-- `SUP_TAKEOVERS` 0x3C20.03: takeovers under R252 -/
  | supTakeovers
  /-- `THREAD_SWITCHES` 0x3C30.01: dynamic; switches under R259, all cores -/
  | threadSwitches
  /-- `REMOTE_ACCESSES` 0x3C30.02: dynamic; aperture accesses issued -/
  | remoteAccesses
  /-- `SVX_FAULTS` 0x3C30.03: dynamic; VGATH and VSCAT traps -/
  | svxFaults
  /-- `CORE_REPLAYS` 0x3C30.04: dynamic; replays under R291 -/
  | coreReplays
  /-- `REMOTE_WRITE_ERRORS` 0x3C30.05: dynamic; failed posted remote writes -/
  | remoteWriteErrors
  /-- `STACK_TOP` 0x4000.01: top of addressable stack memory (R311) -/
  | stackTop
  /-- `ALLOC_TOP` 0x4000.02: top of the job window (R303) -/
  | allocTop
  /-- `MAPOUT_FORCE` 0x4000.03: R316, R317 -/
  | mapoutForce
  /-- `CHANNELS_OUT` 0x4000.04: channels mapped out or migrating, 0–32 -/
  | channelsOut
  /-- `MAPOUT_ORDER` 0x4000.05: 2 B per map-out in order, channel in [9:0]; 0xFFFF unused -/
  | mapoutOrder
  /-- `MIGRATION_LEFT` 0x4000.06: dynamic; bytes still to migrate -/
  | migrationLeft
  /-- `SCRUB_PERIOD` 0x4000.07: hours per scrub pass, 1–168 -/
  | scrubPeriod
  /-- `REMAP_THRESHOLD` 0x4000.08: corrections per row per period before a soft remap, 1–15 -/
  | remapThreshold
  /-- `WIPE_ROSTER` 0x4000.09: R330 -/
  | wipeRoster
  /-- `CHANNEL_STATE` 0x4100.01 + s: 1 B per channel, codes of R307 -/
  | channelState
  /-- `RESERVE_ROWS_LEFT` 0x4100.02 + s: free remap rows in the stack -/
  | reserveRowsLeft
  /-- `JOURNAL_USED` 0x4100.03 + s: journal entries programmed, 0–512 -/
  | journalUsed
  /-- `JOURNAL_UNCERTAIN` 0x4100.04 + s: uncertain entries resolved at the last INIT -/
  | journalUncertain
  /-- `ECC_CORRECTED_CNT` 0x4100.05 + s: dynamic; corrected reads -/
  | eccCorrectedCnt
  /-- `ECC_UNCORR_CNT` 0x4100.06 + s: dynamic; uncorrectable reads -/
  | eccUncorrCnt
  /-- `RETRAINS` 0x4100.07 + s: dynamic; retrains under R308 -/
  | retrains
  /-- `SCRUB_PASSES` 0x4100.08 + s: dynamic; completed scrub passes -/
  | scrubPasses
  /-- `STACK_LOAD` 0x4100.09 + s: dynamic; load in %, averaged over 1 µs -/
  | stackLoad
  /-- `CBW_WRITES` 0x4100.0A + s: dynamic; copy-before-write events -/
  | cbwWrites
  /-- `DRAUGHT_FRONT` 0x4100.0B + s: dynamic; lowest copy front over the stack's channels, in lines -/
  | draughtFront
  /-- `LLM_SCRATCH_WAYS` 0x4400.01 + d: job-scoped; scratchpad ways w, 0–16 -/
  | llmScratchWays
  /-- `SLICE_STATE` 0x4400.02 + d: 1 B per physical slice: 0x00 active, 0x01 spare, 0x02 failed, 0x03 pass-through -/
  | sliceState
  /-- `LLM_HITS` 0x4400.03 + d: dynamic -/
  | llmHits
  /-- `LLM_MISSES` 0x4400.04 + d: dynamic -/
  | llmMisses
  /-- `LLM_BYPASSED` 0x4400.05 + d: dynamic; reads bypassed under R334 -/
  | llmBypassed
  /-- `SLICE_SAT_CYCLES` 0x4400.06 + d: dynamic; CCLK cycles with some slice queue above `BYPASS_THRESHOLD` -/
  | sliceSatCycles
  /-- `BYPASS_THRESHOLD` 0x4420.01: slice queue occupancy, 8–64 requests -/
  | bypassThreshold
  /-- `SLICE_SPARES_LEFT` 0x4420.02: unused spare slices, 4 bits per die, CD0 in [3:0] -/
  | sliceSparesLeft
  /-- `ZEPHYR_WAIT` 0x4800.01: coalescing wait in SCLK cycles, 0–255 -/
  | zephyrWait
  /-- `NARROW_REQUESTS` 0x4800.02: dynamic -/
  | narrowRequests
  /-- `NARROW_ATOMS` 0x4800.03: dynamic; atom accesses issued -/
  | narrowAtoms
  /-- `NARROW_COALESCED` 0x4800.04: dynamic; requests served by a shared atom access -/
  | narrowCoalesced
  /-- `NARROW_FULL_STALLS` 0x4800.05: dynamic; stalls under R342 -/
  | narrowFullStalls
  /-- `LINKS_UP` 0x5000.01: dynamic; bit l set while link l is UP -/
  | linksUp
  /-- `GROUP_MAP` 0x5000.02: job-scoped; R369 -/
  | groupMap
  /-- `JOB_MAP` 0x5000.03: job-scoped; address of the job map, 4 B aligned (R371) -/
  | jobMap
  /-- `JOB_NODES` 0x5000.04: job-scoped; entries, 0–1,048,576 -/
  | jobNodes
  /-- `ROUTES` 0x5000.05: R372 -/
  | routes
  /-- `MCAST_BASE` 0x5000.06: job-scoped; multicast sets, 64 B aligned (R390) -/
  | mcastBase
  /-- `MAIL_QUEUES` 0x5000.07: job-scoped; queue table, 32 B aligned (R392) -/
  | mailQueues
  /-- `MAIL_TIMEOUT` 0x5000.08: µs, 10–1,000,000 -/
  | mailTimeout
  /-- `MAIL_HOP_LIMIT` 0x5000.09: links, 2–32 -/
  | mailHopLimit
  /-- `REMOTE_TIMEOUT` 0x5000.0A: µs, 10–100,000 -/
  | remoteTimeout
  /-- `TC_WEIGHT` 0x5000.0B: 1 B per class, 1–64; class 7 at least 8 -/
  | tcWeight
  /-- `LANE_SER_LIMIT` 0x5000.0C: corrected symbol errors per lane per ms, 1–65,535 -/
  | laneSerLimit
  /-- `EPOCH_STALE_CNT` 0x5000.10: dynamic; packets dropped under R370 and R376 -/
  | epochStaleCnt
  /-- `KEY_MISMATCH_CNT` 0x5000.11: dynamic; requests refused at steps 3–5 of R375 -/
  | keyMismatchCnt
  /-- `DETOURS` 0x5000.12: dynamic; peers currently reached by detour -/
  | detours
  /-- `FWD_BYTES` 0x5000.13: dynamic; bytes forwarded for peers and in transit -/
  | fwdBytes
  /-- `MAIL_RETRANS` 0x5000.14: dynamic; mail packets resent -/
  | mailRetrans
  /-- `MAIL_DROPS` 0x5000.15: dynamic; transit drops under R373 -/
  | mailDrops
  /-- `RACC_ROUND` 0x5000.16: dynamic; number of the round in progress -/
  | raccRound
  /-- `LINK_STATE` 0x5100.01 + l: R358 -/
  | linkState
  /-- `LINK_GEN` 0x5100.02 + l: 0x00 none, 0x02 WL2, 0x03 WL3 -/
  | linkGen
  /-- `LINK_PEER` 0x5100.03 + l: far end's physical identifier -/
  | linkPeer
  /-- `LANE_MAP` 0x5100.04 + l: lane replaced by the spare; 0xFF none -/
  | laneMap
  /-- `LINK_CMD` 0x5100.05 + l: write 0x01 retrain, 0x02 disable, 0x03 enable; reads 0x00 -/
  | linkCmd
  /-- `LINK_GEN_MAX` 0x5100.06 + l: 0x02 or 0x03; applies at the next training -/
  | linkGenMax
  /-- `LINK_RETRIES` 0x5100.07 + l: dynamic; flit resends -/
  | linkRetries
  /-- `FEC_CORRECTED` 0x5100.08 + l: dynamic; corrected symbols -/
  | fecCorrected
  /-- `LINK_LOAD` 0x5100.09 + l: dynamic; transmit load in %, averaged over 1 µs -/
  | linkLoad
  /-- `LINK_SAT_CYCLES` 0x5100.0A + l: dynamic; R403 -/
  | linkSatCycles
  /-- `JOB_EPOCH` 0x5400.01: job-scoped; R376, R377 -/
  | jobEpoch
  /-- `RETIRING_EPOCH` 0x5400.02: R378 -/
  | retiringEpoch
  /-- `REGION_COUNT` 0x5400.03: regions registered, 0–4,096 -/
  | regionCount
  /-- `REGION_TABLE` 0x5400.04: R374 layout; `KEY` reads as zero -/
  | regionTable
  /-- `COLL_GROUPS` 0x5800.01: job-scoped; group table (R406), 128 B aligned -/
  | collGroups
  /-- `COLL_GROUP_COUNT` 0x5800.02: job-scoped; group entries, 0–65,535 -/
  | collGroupCount
  /-- `COLL_GRID` 0x5800.03: job-scoped; extents E0–E5 of R31; product 1–1,048,576 -/
  | collGrid
  /-- `COLL_RERUN` 0x5800.04: 1 re-runs a run aborted on a digest (R429) -/
  | collRerun
  /-- `COLL_OVERFLOW_POLICY` 0x5800.05: 0x00 continue, 0x01 halt (R434) -/
  | collOverflowPolicy
  /-- `COLL_DEADLINE_BASE` 0x5800.06: base of R432 in 16 ns units (50 µs), 1–0xFFFF_FFFF -/
  | collDeadlineBase
  /-- `COLL_INSTANCES` 0x5800.10: dynamic; instances committed at this node -/
  | collInstances
  /-- `COLL_ABORTS` 0x5800.11: dynamic; runs aborted at this node -/
  | collAborts
  /-- `COLL_DIGEST_FAILS` 0x5800.12: dynamic; chunk digest mismatches found at this node, up and down -/
  | collDigestFails
  /-- `COLL_DROPPED` 0x5800.13: dynamic; elements of this node's contributions dropped under R433 -/
  | collDropped
  /-- `COLL_LATE_DROPS` 0x5800.14: dynamic; packets of released instances dropped (R436) -/
  | collLateDrops
  /-- `COLL_GATE_WAIT` 0x5800.15: dynamic; ns from delivery to commit, summed over COLL entries -/
  | collGateWait
  /-- `COLL_RETAIN_FULL` 0x5800.16: dynamic; waits on a full retention store (R427) -/
  | collRetainFull
  /-- `COLL_ABANDONED` 0x5800.17: dynamic; COLL entries abandoned under R436 -/
  | collAbandoned
  /-- `STRICT` 0x7800.01: job-scoped; forbids ND forms under R231 -/
  | strict
  /-- `FIXED_TIMING` 0x7800.02: job-scoped; R458 -/
  | fixedTiming
  /-- `FT_THERMAL_POLICY` 0x7800.03: 0x00 LULL, 0x01 RELEASE (R460) -/
  | ftThermalPolicy
  /-- `DET_SIGNATURE` 0x7800.04: R449 -/
  | detSignature
  /-- `DET_EXPECT` 0x7800.05: job-scoped; 0 for no check (R450) -/
  | detExpect
  /-- `DIGEST_RING` 0x7800.06: job-scoped; step-record ring of 1,024 records, 64 B aligned -/
  | digestRing
  /-- `TSTEP` 0x7800.07: dynamic; boundaries passed in the job -/
  | tstep
  /-- `NODE_DIGEST` 0x7800.08: node digest of the last completed step -/
  | nodeDigest
  /-- `STREAM_DIGESTS` 0x7800.09: stream digests of the last completed step, logical bay major; unused streams read 0 -/
  | streamDigests
  /-- `SIG_MISMATCHES` 0x7800.10: dynamic; R450 -/
  | sigMismatches
  /-- `XW_ENABLE` 0x7840.01: job-scoped; R466 -/
  | xwEnable
  /-- `XW_PARTNER` 0x7840.02: job-scoped; partner position 0–16; 0xFF none -/
  | xwPartner
  /-- `XW_LAG` 0x7840.03: job-scoped; steps, 0–2 (R470) -/
  | xwLag
  /-- `XW_POLICY` 0x7840.04: 0x00 LULL, 0x01 REPORT (R473) -/
  | xwPolicy
  /-- `XW_LOG` 0x7840.05: job-scoped; chunk-log base, 4 KiB aligned; 0 for none -/
  | xwLog
  /-- `XW_LOG_BYTES` 0x7840.06: job-scoped; log share per logical bay, a multiple of 4 KiB -/
  | xwLogBytes
  /-- `XW_STATE` 0x7840.07: 0x00 OFF, 0x01 PAIRING, 0x02 PAIRED, 0x03 REFUSED, 0x04 DIVERGED, 0x05 ENDED -/
  | xwState
  /-- `XW_REFUSE_CAUSE` 0x7840.08: code of R468 -/
  | xwRefuseCause
  /-- `XW_RECORD` 0x7840.09: R473 -/
  | xwRecord
  /-- `XW_COMPARED` 0x7840.10: dynamic; steps compared equal -/
  | xwCompared
  /-- `XW_HOLD_NS` 0x7840.11: dynamic; ns held under R470 -/
  | xwHoldNs
  /-- `ERROR_LOG` 0x7000.01: R477, R478 -/
  | errorLog
  /-- `ERROR_HEAD` 0x7000.02: `SEQ` of the newest record -/
  | errorHead
  /-- `ERROR_ACK` 0x7000.03: highest acknowledged `SEQ` (R480) -/
  | errorAck
  /-- `ERRORS_LOST` 0x7000.04: records overwritten -/
  | errorsLost
  /-- `ERROR_COUNTS` 0x7000.05: dynamic; records per code, code 0x01 first -/
  | errorCounts
  /-- `PEER_LOSS_TIME` 0x7000.06: µs, 100–100,000 (R493) -/
  | peerLossTime
  /-- `SELFTEST_RUNS` 0x7000.07: dynamic; targeted self-tests run -/
  | selftestRuns
  /-- `BRIDGE_STATE` 0x7000.08: 1 B per bridge: 0x00 full; 0x01 spare wire used; 0x02 narrowed; 0x03 lost -/
  | bridgeState
  /-- `COUPLER_STATE` 0x7000.09: bit d set when the coupler of CDd is retired -/
  | couplerState
  /-- `ALERT_CAUSE` 0x7000.0A: R481; a write of 1 to a bit of [6:1] clears it once its condition has ended -/
  | alertCause
  /-- `SQUALL_STATE` 0x7040.01: 0x00 quiet; 0x01 warning -/
  | squallState
  /-- `SQUALL_SCORE` 0x7040.02: dynamic; present score -/
  | squallScore
  /-- `SQUALL_WARN` 0x7040.03: 1–65,535 -/
  | squallWarn
  /-- `SQUALL_CLEAR` 0x7040.04: 0 to `SQUALL_WARN` − 1 -/
  | squallClear
  /-- `SQUALL_HALFLIFE` 0x7040.05: s, 1–86,400 -/
  | squallHalflife
  /-- `SQUALL_WEIGHT` 0x7040.06: 28 × U8, code 0x01 first -/
  | squallWeight
  /-- `SQUALL_ALLOW` 0x7040.07: events per element per second, 0–65,535 -/
  | squallAllow
  /-- `SQUALL_WARNINGS` 0x7040.08: dynamic; warnings started -/
  | squallWarnings
  /-- `SNAP_LIST` 0x7400.01: job-scoped; list address, 8 B aligned (R497) -/
  | snapList
  /-- `SNAP_COUNT` 0x7400.02: job-scoped; entries, 0–4,096 -/
  | snapCount
  /-- `SNAP_INTERVAL` 0x7400.03: steps between snapshots; 0 for none (R500) -/
  | snapInterval
  /-- `SHARD_STORE_BYTES` 0x7400.04: job-scoped; multiple of 128 MiB, 0–192 GiB -/
  | shardStoreBytes
  /-- `DRAIN_ENABLE` 0x7400.05: job-scoped; 0 keeps images local only and counts every drain as ended without success -/
  | drainEnable
  /-- `DRAIN_DEADLINE` 0x7400.06: ms, 1–600,000 (R510) -/
  | drainDeadline
  /-- `SLOT_INFO` 0x7400.07: header of S00 for slot A, then B (R503) -/
  | slotInfo
  /-- `SLOT_VALID` 0x7400.08: [0] A committed; [1] B committed; [2] A locally restorable; [3] B locally restorable -/
  | slotValid
  /-- `SLOT_DRAINED` 0x7400.09: [0] A drained; [1] B drained -/
  | slotDrained
  /-- `SHARD_DIR` 0x7400.0A: directories of slot A, then B (R509) -/
  | shardDir
  /-- `SNAP_FIT` 0x7400.0B: lines, R498 -/
  | snapFit
  /-- `LAST_SNAP_TSTEP` 0x7400.0C: R500 -/
  | lastSnapTstep
  /-- `SNAPS_TAKEN` 0x7400.10: dynamic -/
  | snapsTaken
  /-- `SNAPS_SKIPPED` 0x7400.11: dynamic -/
  | snapsSkipped
  /-- `RECOVERY_CMD` 0x7400.20: R511; reads the last command -/
  | recoveryCmd
  /-- `RECOVERY_STATE` 0x7400.21: 0x00 none; 0x01 AWAIT_ROLLBACK; 0x02 restoring; 0x03 fencing; 0x04 replaying; 0x05 VERIFIED; 0x06 FAILED -/
  | recoveryState
  /-- `RESTORED_TSTEP` 0x7400.22: step of the last restore -/
  | restoredTstep
  /-- `REPLAY_COMPARED` 0x7400.23: dynamic; replayed steps compared equal -/
  | replayCompared
  /-- `HOST_LINK` 0x6000.01: [3:0] PCIe generation 4–6; [8:4] width; [9] CXL negotiated; other bits zero -/
  | hostLink
  /-- `HOST_GEN_MAX` 0x6000.02: 4–6; applies at the next training -/
  | hostGenMax
  /-- `INT_ERROR_VEC` 0x6000.03: vector, 0–2,047 -/
  | intErrorVec
  /-- `INT_JOB_VEC` 0x6000.04: vector, 0–2,047 -/
  | intJobVec
  /-- `HOST_PRINCIPALS` 0x6000.05: per entry: 48 B leaf-certificate digest, 1 B level 0–2, 15 B reserved -/
  | hostPrincipals
  /-- `HOST_REFUSED` 0x6000.06: dynamic; device-memory accesses refused -/
  | hostRefused
  /-- `HOST_HELD_LINES` 0x6000.07: dynamic; lines the host may hold -/
  | hostHeldLines
  /-- `BACK_INVALIDATES` 0x6000.08: dynamic -/
  | backInvalidates
  /-- `NOTIFY_DROPPED` 0x6000.09: dynamic; R556 -/
  | notifyDropped
  /-- `SQ_BASE` 0x6100.01 + q: submission ring; [0] node memory -/
  | sqBase
  /-- `SQ_SIZE` 0x6100.02 + q: log2 of entries, 4–16 -/
  | sqSize
  /-- `CQ_BASE` 0x6100.03 + q: completion ring; [0] node memory -/
  | cqBase
  /-- `CQ_SIZE` 0x6100.04 + q: log2 of entries, 4–16 -/
  | cqSize
  /-- `CQ_VECTOR` 0x6100.05 + q: vector, 0–2,047 -/
  | cqVector
  /-- `SQ_LEVEL` 0x6100.06 + q: highest level of commands the queue may carry, 0–2 -/
  | sqLevel
  /-- `SQ_ENABLE` 0x6100.07 + q: 1 starts fetching; 0 stops fetching, and commands in progress complete -/
  | sqEnable
  /-- `SQ_STATE` 0x6100.08 + q: 0x00 disabled, 0x01 running, 0x02 draining, 0x03 held by a full completion queue -/
  | sqState
  /-- `PART_NUMBER` 0x1000.01: R1 -/
  | partNumber
  /-- `SERIAL` 0x1000.02: serial number -/
  | serial
  /-- `STEPPING` 0x1000.03: silicon stepping -/
  | stepping
  /-- `FAMILY_MEMBER` 0x1000.04: family member -/
  | familyMember
  /-- `PCI_IDS` 0x1000.05: [15:0] Ngubiqua's PCI-SIG vendor identifier, [31:16] device identifier 0x9200 (R534, R694) -/
  | pciIds
  /-- `FW_IMAGE` 0x1000.06: 0x00 image A, 0x01 image B -/
  | fwImage
  /-- `FW_VERSION` 0x1000.07: firmware release of the running image, layout of R694 -/
  | fwVersion
  /-- `DEVICE_CERT_DIGEST` 0x1000.08: 48 B digest of the slot-0 leaf certificate (R561) -/
  | deviceCertDigest
  /-- `MGMT_MAC` 0x1100.01: [47:0] MAC address; [63:48] zero -/
  | mgmtMac
  /-- `MGMT_IPV4` 0x1100.02: address, first octet in [31:24]; 0 for DHCP -/
  | mgmtIpv4
  /-- `MGMT_NETMASK` 0x1100.03: ignored under DHCP -/
  | mgmtNetmask
  /-- `MGMT_GATEWAY` 0x1100.04: ignored under DHCP -/
  | mgmtGateway
  /-- `MGMT_LINK` 0x1100.05: dynamic; 0x00 down, 0x01 up -/
  | mgmtLink
  /-- `JP1_ENABLE` 0x1100.06: R588 -/
  | jp1Enable
  /-- `I3C_OPEN_LEVEL` 0x1100.07: 0–2 (R576) -/
  | i3cOpenLevel
  /-- `SIDEBAND_PRINCIPALS` 0x1100.08: R575 -/
  | sidebandPrincipals
  /-- `SERVICE_ROOT` 0x1100.09: 48 B digest of the service authority (R574) -/
  | serviceRoot
  /-- `SUBSCRIPTIONS` 0x1100.0A: per subscription: kind, HOLD, source, last `SEQ` sent -/
  | subscriptions
  /-- `DICT_REFUSED` 0x1100.0B: dynamic; R593 -/
  | dictRefused
  /-- `DICT_LATE` 0x1100.0C: dynamic; R580 -/
  | dictLate
  /-- `PTP_ENABLE` 0x1140.01: R606 -/
  | ptpEnable
  /-- `PTP_DOMAIN` 0x1140.02: 0–127 -/
  | ptpDomain
  /-- `PPS_MODE` 0x1140.03: R607 -/
  | ppsMode
  /-- `TAI_STATE` 0x1140.04: R608 -/
  | taiState
  /-- `TAI_NS` 0x1140.05: dynamic; TAI now -/
  | taiNs
  /-- `TAI_SET` 0x1140.06: R605, R607 -/
  | taiSet
  /-- `TAI_OFFSET_ERR` 0x1140.07: dynamic; last measured offset from the reference, in ns -/
  | taiOffsetErr
  /-- `UTC_OFFSET` 0x1140.08: s, from the master -/
  | utcOffset
  /-- `PTP_MASTER` 0x1140.09: clock identity of the master -/
  | ptpMaster
  /-- `PPS_REJECTED` 0x1140.0A: dynamic; R607 -/
  | ppsRejected
  /-- `AUDIT_LOG` 0x1800.01: R596 -/
  | auditLog
  /-- `AUDIT_HEAD` 0x1800.02: newest `SEQ` -/
  | auditHead
  /-- `AUDIT_ACKED` 0x1800.03: R598 -/
  | auditAcked
  /-- `AUDIT_MIRROR` 0x1800.04: 1,048,576 × 64 B (R597) -/
  | auditMirror
  /-- `AUDIT_MIRROR_HEAD` 0x1800.05: newest `SEQ` mirrored -/
  | auditMirrorHead
  /-- `AUDIT_HOST_HOLD` 0x1800.06: R598 -/
  | auditHostHold
  /-- `AUDIT_ACK_HOST` 0x1800.07: highest `SEQ` the host holds; never logged; a value above `AUDIT_HEAD` fails with RANGE -/
  | auditAckHost
  /-- `AUDIT_HOLD_TIMEOUT` 0x1800.08: s, 1–3,600 (R601) -/
  | auditHoldTimeout
  /-- `AUDIT_LOST` 0x1800.09: R600 -/
  | auditLost
  /-- `AUDIT_REFUSED` 0x1800.0A: dynamic; R599 -/
  | auditRefused
  /-- `AUDITED_STATE` 0x1800.0B: 4 B per object address -/
  | auditedState
  /-- `SEAL_STATE` 0xA000.01: R592 -/
  | sealState
  /-- `PERIPH_EN` 0x2000.01: [0] I3C; [1] PTP unit; [2] SPI flash controller; [3] debug UART; [4] GPIO; [5] thermal-sensor hub; [7:6] reserved (R627) -/
  | periphEn
  /-- `XTAL_STATE` 0x2000.02: 0x00 counting; 0x01 stable; 0x02 failed (R613, R614) -/
  | xtalState
  /-- `DOMAIN_RESETS` 0x2000.03: dynamic; domain resets under R620 -/
  | domainResets
  /-- `CLK_SEL` 0x2040.01 + k: job-scoped; 0x00 RC, 0x01 XTAL, 0x02 PLL A, 0x03 PLL B -/
  | clkSel
  /-- `CLK_READY` 0x2040.02 + k: dynamic; [0] RC running; [1] XTAL stable; [2] PLL A locked; [3] PLL B locked -/
  | clkReady
  /-- `CLK_COMPAT` 0x2040.03 + k: R625 -/
  | clkCompat
  /-- `CLK_MHZ` 0x2040.04 + k: dynamic; present rate in MHz -/
  | clkMhz
  /-- `CLK_PLL_SPARE` 0x2040.05 + k: 0x00 spare unused; 0x01 spare in use -/
  | clkPllSpare
  /-- `POWER_CAP` 0x2200.01: W, 2,000–7,700 -/
  | powerCap
  /-- `CCLK_MAX` 0x2200.02: MHz, 800–2,000 in steps of 25 -/
  | cclkMax
  /-- `PCLK_MAX` 0x2200.03: MHz, 1,000–2,400 in steps of 25 -/
  | pclkMax
  /-- `TJ_THROTTLE` 0x2200.04: °C, 80–95 -/
  | tjThrottle
  /-- `PKG_POWER` 0x2200.05: dynamic; W, 1 ms average -/
  | pkgPower
  /-- `VIN_MAIN_MV` 0x2200.06: dynamic; mV -/
  | vinMainMv
  /-- `VIN_MAIN_A` 0x2200.07: dynamic; A -/
  | vinMainA
  /-- `THROTTLE_STATE` 0x2200.08: dynamic; bit n − 1 set while cause n of R641 is active -/
  | throttleState
  /-- `THROTTLE_NS` 0x2200.09: dynamic; ns with any clock below its maximum -/
  | throttleNs
  /-- `TEMPS` 0x2200.0A: dynamic; sensors of R643 in 1/16 °C; excluded sensors read 0x8000 -/
  | temps
  /-- `COOL_FLOW_BOARD` 0x2200.0B: 0.1 L/min, 0–1,000; 0 for not supplied -/
  | coolFlowBoard
  /-- `COOL_FLOW` 0x2200.0C: dynamic; 0.1 L/min in use; 0 when not judged -/
  | coolFlow
  /-- `COOLANT_STATE` 0x2200.0D: 0x00 normal; 0x01 COOLANT_LOW -/
  | coolantState
  /-- `LAST_TRIP` 0x2200.0E: sensor of the last hardware trip; 0xFF none -/
  | lastTrip
  /-- `RESET_CAUSE` 0x2400.08: 0x00 power-on; 0x01 cold; 0x02 warm; 0x03 PWR_OK or VIN_MAIN lost; 0x04 hardware trip -/
  | resetCause
  /-- `FREEZE_STATE` 0x7C00.01: R654 -/
  | freezeState
  /-- `FREEZE_SRC_EN` 0x7C00.02: R653 -/
  | freezeSrcEn
  /-- `FREEZE_ERR_MASK` 0x7C00.03: bit n − 1 for code n; ECC_UNCORRECTABLE by default -/
  | freezeErrMask
  /-- `FREEZE_CMD` 0x7C00.04: write 0x01 trigger, 0x02 re-arm, 0x03 disarm; reads 0x00 -/
  | freezeCmd
  /-- `FREEZE_HOLD` 0x7C00.05: ms, 0–3,600,000; 0 holds until re-armed -/
  | freezeHold
  /-- `FREEZE_RECORD` 0x7C00.06: R657 -/
  | freezeRecord
  /-- `FREEZE_MISSED` 0x7C00.07: dynamic; R655 -/
  | freezeMissed
  /-- `FREEZE_DUMP_ADDR` 0x7C00.08: R662; 0 for no dump -/
  | freezeDumpAddr
  /-- `FREEZE_DUMP_BYTES` 0x7C00.09: size of a dump -/
  | freezeDumpBytes
  /-- `LEVEL_SAT` 0x7C80.01: dynamic; R663 -/
  | levelSat
  /-- `LAT_HIST` 0x7C80.02: dynamic; 6 paths × 16 × U32 (R664) -/
  | latHist
  /-- `LAT_SAMPLE` 0x7C80.03: 0–16 -/
  | latSample
  /-- `LAT_CLEAR` 0x7C80.04: write 1 to clear; reads 0 -/
  | latClear
  /-- `ERROR_RATE` 0x7C80.05: dynamic; 28 × 2 × U32, code 0x01 first (R665) -/
  | errorRate
  /-- `TRACE_RING` 0x7C80.06: 64 B aligned, below `STACK_TOP`; 0 for none -/
  | traceRing
  /-- `TRACE_RING_BYTES` 0x7C80.07: multiple of 4 KiB, 0–1 GiB -/
  | traceRingBytes
  /-- `TRACE_COUNT` 0x7C80.08: dynamic; events written -/
  | traceCount
  /-- `TRACE_DROPPED` 0x7C80.09: dynamic; R667 -/
  | traceDropped
  /-- VIN_AON is out of its range (R582, R629). -/
  | aonAbsent
  /-- VIN_MAIN lies in its operating range (R633, R38). -/
  | vinMainIn
  /-- The three stack rails lie in their ranges (R633, R635). -/
  | stackRailsIn
  /-- The PWR_OK pin (R634). -/
  | pwrOk
  /-- The reset signals: [0] RST_N asserted, [1] WARM_RST_N asserted (R630). -/
  | rstHeld
  /-- The node is held in reset (R631). -/
  | inReset
  /-- A warm reset waits for the end of a fuse pulse (R40). -/
  | warmWaiting
  /-- THERM_TRIP_N is latched (R647). -/
  | thermTrip
  /-- MCLK runs (R613, R615). -/
  | mclkRuns
  /-- MCLK has stopped since the crystal was judged stable and no cold reset has run since (R615). -/
  | mgmtSilent
  /-- Number of INIT stages that have passed since the last reset (R693). -/
  | stageStarted
  /-- Clock switch in progress of a domain: 1 + the source code written, 0 for none (R619). -/
  | clkSwitching
  /-- Every array issues at half rate (R640). -/
  | arrayThrottle
  /-- SEQ of the THERMAL_LIMIT record of the throttling episode in progress, 0 for none (R641). -/
  | throttleRecord
  /-- Time from which THROTTLE_NS has still to be counted (R651). -/
  | throttleFrom
  /-- Clock domain 0-9 has stepped down since the last power sample (R639). -/
  | steppedDown
  /-- Sensor excluded from control (R644). -/
  | sensorExcluded
  /-- Element throttled for temperature: compute dies 0-7, processor dies 8-9, fabric dies 10-13, stacks 14-45 (R645). -/
  | elementHot
  /-- 1 + the time at which a hot element met its clocks at the floor (R646). -/
  | floorAt
  /-- The last ten 100 us power measurements, in mW (R638). -/
  | powerRing
  /-- Power measurements taken (R638). -/
  | powerSamples
  /-- 1 + the time of the last write of COOL_FLOW_BOARD (R649). -/
  | coolFlowAt
  /-- TAI minus the timebase, modulo 2^64 (R605, R609). -/
  | taiOffset
  /-- Squall score at `squallAt`, in units of 2^-16 (R494). -/
  | squallScore16
  /-- Time at which `squallScore16` was taken (R494). -/
  | squallAt
  /-- Allowance of a stack set at INIT stage 6, in events per second (R496). -/
  | squallAllowStack
  /-- Allowance of a link set at INIT stage 6, in events per second (R496). -/
  | squallAllowLink
  /-- Records of fault class c in each of the last 60 one-second windows, element 60 * (c - 1) + window (R665). -/
  | ratePast
  /-- Freezes since cold reset (R657). -/
  | freezeGen
  /-- A dump of the register sets is being written (R662). -/
  | dumpWaits
  /-- A LOG_FULL refusal has been recorded since the ring last had room (R599). -/
  | auditRefusing
  /-- Highest SEQ the host holds as a holder (R598, R611). -/
  | hostHoldAcked
  /-- SEQ of the newest error record of severity 1-4 (R480). -/
  | lastAlertSeq
  /-- The loaded job has started: its epoch fence has passed and it has not ended (R38, R548). -/
  | jobRunning
  /-- JOB_START has joined the fence and the node has not entered RUN (R548). -/
  | startPending
  /-- A teardown is in progress (R528). -/
  | teardownPending
  /-- Wrapper instructions and permanent repairs started in SERVICE that still run (R42). -/
  | serviceWork
  /-- ROSTER_LLM in force at JOB_LOAD (R147). -/
  | rosterLlmAtLoad
  /-- POS[4:0] as latched at the last assertion of PWR_OK (R28, R676). -/
  | posLatch
  /-- Rate in MHz at which the PLLs of a clock domain run (R618). -/
  | pllMhz
  /-- Neither PLL of the domain locked in INIT stage 1 (R617). -/
  | pllFailed
  /-- The compute and processor dies are switched off after a hardware trip (R647). -/
  | regulatorsOff
  /-- A die without a usable sensor runs its clock at the floor until cold reset (R644). -/
  | thermalFloor
  /-- INIT stage 5 has done its work and waits for LOCATION (R30). -/
  | stage5Waits
  /-- The harts are stopped for Lull or a data-loss failure (R248, R492). -/
  | lullHeld
  /-- Stacks with a fuse pulse running, bit s for stack s (R40, R324). -/
  | fusePulses
  /-- Links that have been UP since cold reset (R363). -/
  | linkWasUp
  /-- `svxrerr` of each hart: sticky remote-write error (R282). -/
  | svxrerr
  /-- Links that have been ABSENT for 1 s since INIT stage 5 began (R359). -/
  | linkQuiet
  /-- Next flit sequence number expected on a link (R351). -/
  | flitSeq
  /-- Rounds of ordered RACC whose contributions have all been applied here (R388). -/
  | raccDone
  /-- Free-running tail index of each mail queue (R392). -/
  | mailTail
  /-- Completed messages of each mail queue (R392). -/
  | mailDone
  /-- Partner digests received since the pairing (R470). -/
  | xwReceived
  /-- The node has sent its fence messages for the installed epoch (R379). -/
  | fenceJoined
  /-- Positions whose fence message for the installed epoch is held (R379). -/
  | fenceHeld
  /-- The epoch fence of the installed epoch has passed (R379, R441). -/
  | fenceDone
  /-- Thread of a core whose turn it is (R260). -/
  | hartTurn
  /-- A general core that has failed its self-test (R292). -/
  | coreFailed
  /-- Head index of a completion queue, from its doorbell (R540, R544). -/
  | cqHead
  /-- Next entry of a completion queue that the package writes (R543). -/
  | cqTail
  /-- Wraps of a completion queue (R543). -/
  | cqWraps
  /-- Next submission entry that the package fetches (R541). -/
  | sqHead
  /-- Tail index of a submission queue, from its doorbell (R540). -/
  | sqTail
  /-- Physical slice behind logical slice l of a die, element die * 32 + l (R332, R337). -/
  | sliceMap
  /-- Stack whose wrapper the TAP has selected, plus 1, in bits [5:0], 0 for none (R327); from bit 6 on the instruction code that
  it holds, 0x100 for one that it does not support (R328). -/
  | wrapper
  /-- The node has joined the agreement of a SNAP (R499). -/
  | snapJoined
  /-- Its Squall warning as it joined (R499). -/
  | snapWarn
  /-- Its fit check as it joined (R498, R499). -/
  | snapFits
  /-- Its drains had all ended as it joined (R499, R510). -/
  | snapEnded
  /-- Snapshot instants taken in the job (R503). -/
  | snapGen
  /-- `PS_REFUSED`: doorbell writes refused during INIT (R24, R537). -/
  | psRefused
  /-- Physical bay, as `LBAY_MAP` held it, of a logical bay whose context is saved (R553). -/
  | ctxOf
  /-- Slew of TAI in progress, in ns, as a signed 64-bit number (R609). -/
  | taiSlew
  /-- Time at which that slew began (R609). -/
  | taiSlewAt
  /-- TAI has locked to a reference since VIN_AON was applied (R605). -/
  | taiWasLocked
  /-- IPv4 address of the management port in force; 0 for none (R583, R611). -/
  | ipv4
  /-- Network mask in force (R611). -/
  | ipv4Mask
  /-- Gateway in force (R611). -/
  | ipv4Gateway
  /-- INIT has ended since the last cold reset (R30). -/
  | initEnded
  /-- `WIN_CMD` of the dictionary window (R538). -/
  | winCmd
  /-- `WIN_STATUS` (R538). -/
  | winStatus
  /-- `WIN_ERROR` (R538). -/
  | winError
  /-- `WIN_ADDR` (R538). -/
  | winAddr
  /-- `WIN_OFFSET` (R538). -/
  | winOffset
  /-- `WIN_LEN` (R538). -/
  | winLen
  /-- `WIN_SEQ` (R538). -/
  | winSeq
  /-- `WIN_DATA`, byte by byte (R538). -/
  | winData
  deriving DecidableEq, Repr

/-- Default Squall weights of the fault classes, code 0x01 first (R482). -/
def faultWeights : List Nat :=
  [1, 8, 1, 16, 32, 1, 64, 4, 64, 32, 32, 0, 0, 0, 8, 0, 16, 64, 32, 16, 0, 0, 0, 32, 0, 0, 0, 0]

/-- The bytes of "WQN9200-LC" (R1, R610). -/
def partNumberBytes : List Nat := [0x57, 0x51, 0x4E, 0x39, 0x32, 0x30, 0x30, 0x2D, 0x4C, 0x43]

/-- The bytes of a string as one number, its first byte lowest. -/
def stringValue : List Nat → Nat
  | [] => 0
  | b :: bs => b + 256 * stringValue bs

/-- `HART_MAP` with the two highest cores of each processor die in reserve (R245, R294). -/
def hartMapDefault (i : Nat) : Nat :=
  if i < 3008 then (i / 1504) * 32768 + (i % 1504 / 16) * 256 + i % 16 else 0xFFFF

/-- The layout of every register, row by row of the spec's tables of objects (R34, R92, R145, R195, R240, R294, R348, R404,
R442, R475, R531, R566, R610, R651, R668), then the registers outside the dictionary. [Log DESIGN CHOICE 2] -/
def Reg.info : Reg → RegInfo
  | .nodeState => ⟨0x240001, 1, 1, 1, .ro, .always, false, false, true⟩
  | .jobActive => ⟨0x240002, 1, 1, 1, .ro, .warm, false, false, false⟩
  | .degradeCause => ⟨0x240003, 1, 4, 1, .ro, .cold, false, false, true⟩
  | .stateRequest => ⟨0x240004, 1, 1, 1, .rwOp, .warm, false, false, false⟩
  | .serviceRequest => ⟨0x240005, 1, 1, 1, .rwSvc, .warm, false, false, false⟩
  | .lullDeadline => ⟨0x240006, 1, 4, 1, .rwOp, .warm, false, false, false⟩
  | .initStage => ⟨0x240007, 1, 1, 1, .ro, .always, false, false, false⟩
  | .physId => ⟨0x241001, 1, 4, 1, .ro, .cold, false, false, true⟩
  | .posStrap => ⟨0x241002, 1, 1, 1, .ro, .cold, false, false, false⟩
  | .location => ⟨0x241003, 1, 4, 1, .rwAdm, .cold, false, false, false⟩
  | .logicalId => ⟨0x241004, 1, 4, 1, .ro, .warm, false, false, true⟩
  | .numericFw => ⟨0x340001, 1, 4, 1, .ro, .cold, false, false, false⟩
  | .rounding => ⟨0x340002, 1, 1, 1, .ro, .always, false, false, false⟩
  | .modeSets => ⟨0x340003, 1, 1, 1, .ro, .always, false, false, false⟩
  | .subn => ⟨0x341001, 16, 1, 1, .rwOp, .warm, false, false, false⟩
  | .acc => ⟨0x341002, 16, 1, 1, .rwOp, .warm, false, false, false⟩
  | .stats => ⟨0x341003, 16, 1, 1, .rwOp, .warm, false, false, false⟩
  | .baysActive => ⟨0x300001, 1, 2, 1, .ro, .cold, false, false, false⟩
  | .baySparesLeft => ⟨0x300002, 1, 4, 1, .ro, .cold, false, false, true⟩
  | .ctxBase => ⟨0x300003, 1, 8, 1, .rwOp, .warm, false, false, false⟩
  | .residueReplays => ⟨0x300004, 1, 8, 1, .ro, .warm, false, true, false⟩
  | .bayState => ⟨0x301001, 8, 1, 34, .ro, .cold, false, false, true⟩
  | .lbayMap => ⟨0x302001, 1, 2, 256, .ro, .warm, false, false, true⟩
  | .rosterBase => ⟨0x388001, 1, 8, 1, .ro, .cold, false, false, false⟩
  | .rosterBytes => ⟨0x388002, 1, 8, 1, .rwAdm, .cold, true, false, false⟩
  | .rosterCount => ⟨0x388003, 1, 2, 1, .ro, .warm, false, false, false⟩
  | .rosterLlm => ⟨0x388004, 1, 2, 1, .rwOp, .warm, false, false, false⟩
  | .tailwindEn => ⟨0x388005, 1, 1, 1, .rwOp, .warm, false, false, false⟩
  | .tailwindDepth => ⟨0x388006, 1, 1, 1, .rwOp, .warm, false, false, false⟩
  | .switches => ⟨0x388010, 1, 8, 1, .ro, .warm, false, true, false⟩
  | .switchLlmHits => ⟨0x388011, 1, 8, 1, .ro, .warm, false, true, false⟩
  | .prefetchLate => ⟨0x388012, 1, 8, 1, .ro, .warm, false, true, false⟩
  | .prefetchUnused => ⟨0x388013, 1, 8, 1, .ro, .warm, false, true, false⟩
  | .prefetchDropped => ⟨0x388014, 1, 8, 1, .ro, .warm, false, true, false⟩
  | .carryHeadroom => ⟨0x340004, 1, 1, 1, .rwOp, .warm, false, false, false⟩
  | .transcId => ⟨0x340005, 1, 4, 1, .ro, .cold, false, false, false⟩
  | .vecStatusOr => ⟨0x303001, 1, 4, 1, .ro, .warm, false, true, false⟩
  | .vecSteps => ⟨0x303002, 1, 8, 1, .ro, .warm, false, true, false⟩
  | .transElements => ⟨0x348001, 1, 8, 1, .ro, .warm, false, true, false⟩
  | .transCarryMisses => ⟨0x348002, 1, 8, 1, .ro, .warm, false, true, false⟩
  | .transRemoteBlocks => ⟨0x348003, 1, 8, 1, .ro, .warm, false, true, false⟩
  | .scaleAreaRaces => ⟨0x348004, 1, 8, 1, .ro, .warm, false, true, false⟩
  | .couplerQueueMax => ⟨0x348005, 1, 2, 1, .ro, .warm, false, true, false⟩
  | .tableDir => ⟨0x380001, 1, 8, 1, .rwOp, .warm, true, false, false⟩
  | .descBase => ⟨0x380002, 1, 8, 1, .rwOp, .warm, true, false, false⟩
  | .descCount => ⟨0x380003, 1, 4, 1, .rwOp, .warm, true, false, false⟩
  | .completionRing => ⟨0x380004, 1, 8, 1, .rwOp, .warm, true, false, false⟩
  | .eventBase => ⟨0x380005, 1, 8, 1, .ro, .cold, false, false, false⟩
  | .deadlineDefault => ⟨0x380006, 1, 4, 1, .rwOp, .warm, false, false, false⟩
  | .deadlinePolicy => ⟨0x380007, 1, 1, 1, .rwOp, .warm, false, false, false⟩
  | .strictConvert => ⟨0x380008, 1, 1, 1, .rwOp, .warm, false, false, false⟩
  | .tableState => ⟨0x382001, 1, 1, 256, .ro, .warm, false, false, false⟩
  | .stepsIssued => ⟨0x380010, 1, 8, 1, .ro, .warm, false, true, false⟩
  | .deadlinesMissed => ⟨0x380011, 1, 8, 1, .ro, .warm, false, true, false⟩
  | .ndConverted => ⟨0x380012, 1, 8, 1, .ro, .warm, false, true, false⟩
  | .specStalls => ⟨0x380013, 1, 8, 1, .ro, .warm, false, true, false⟩
  | .windowMisses => ⟨0x380014, 1, 8, 1, .ro, .warm, false, true, false⟩
  | .preemptsDeferred => ⟨0x380015, 1, 8, 1, .ro, .warm, false, true, false⟩
  | .coresUsable => ⟨0x3C0001, 1, 2, 1, .ro, .cold, false, false, false⟩
  | .coreReserve => ⟨0x3C0002, 1, 1, 1, .rwAdm, .cold, true, false, false⟩
  | .coreReserveLeft => ⟨0x3C0003, 1, 2, 1, .ro, .cold, false, false, true⟩
  | .hartCount => ⟨0x3C0004, 1, 2, 1, .rwOp, .warm, true, false, false⟩
  | .hartStart => ⟨0x3C0005, 1, 8, 1, .rwOp, .warm, true, false, false⟩
  | .apertureBase => ⟨0x3C0006, 1, 8, 1, .rwOp, .warm, true, false, false⟩
  | .apertureCount => ⟨0x3C0007, 1, 2, 1, .rwOp, .warm, true, false, false⟩
  | .hartMap => ⟨0x3C1001, 1, 2, 3072, .ro, .warm, false, false, true⟩
  | .hartState => ⟨0x3C1002, 1, 1, 3072, .ro, .warm, false, false, false⟩
  | .supActive => ⟨0x3C2001, 1, 1, 1, .ro, .cold, false, false, true⟩
  | .supStandbyOk => ⟨0x3C2002, 1, 1, 1, .ro, .cold, false, false, true⟩
  | .supTakeovers => ⟨0x3C2003, 1, 4, 1, .ro, .cold, false, false, false⟩
  | .threadSwitches => ⟨0x3C3001, 1, 8, 1, .ro, .warm, false, true, false⟩
  | .remoteAccesses => ⟨0x3C3002, 1, 8, 1, .ro, .warm, false, true, false⟩
  | .svxFaults => ⟨0x3C3003, 1, 8, 1, .ro, .warm, false, true, false⟩
  | .coreReplays => ⟨0x3C3004, 1, 8, 1, .ro, .warm, false, true, false⟩
  | .remoteWriteErrors => ⟨0x3C3005, 1, 8, 1, .ro, .warm, false, true, false⟩
  | .stackTop => ⟨0x400001, 1, 8, 1, .ro, .cold, false, false, true⟩
  | .allocTop => ⟨0x400002, 1, 8, 1, .rwOp, .cold, false, false, false⟩
  | .mapoutForce => ⟨0x400003, 1, 1, 1, .rwAdm, .cold, false, false, false⟩
  | .channelsOut => ⟨0x400004, 1, 2, 1, .ro, .cold, false, false, false⟩
  | .mapoutOrder => ⟨0x400005, 1, 2, 32, .ro, .cold, false, false, true⟩
  | .migrationLeft => ⟨0x400006, 1, 8, 1, .ro, .cold, false, true, false⟩
  | .scrubPeriod => ⟨0x400007, 1, 2, 1, .rwAdm, .cold, false, false, false⟩
  | .remapThreshold => ⟨0x400008, 1, 1, 1, .rwAdm, .cold, false, false, false⟩
  | .wipeRoster => ⟨0x400009, 1, 1, 1, .rwAdm, .cold, false, false, false⟩
  | .channelState => ⟨0x410001, 32, 1, 32, .ro, .cold, false, false, true⟩
  | .reserveRowsLeft => ⟨0x410002, 32, 4, 1, .ro, .cold, false, false, false⟩
  | .journalUsed => ⟨0x410003, 32, 2, 1, .ro, .cold, false, false, false⟩
  | .journalUncertain => ⟨0x410004, 32, 2, 1, .ro, .cold, false, false, false⟩
  | .eccCorrectedCnt => ⟨0x410005, 32, 8, 1, .ro, .warm, false, true, false⟩
  | .eccUncorrCnt => ⟨0x410006, 32, 8, 1, .ro, .warm, false, true, false⟩
  | .retrains => ⟨0x410007, 32, 4, 1, .ro, .warm, false, true, false⟩
  | .scrubPasses => ⟨0x410008, 32, 4, 1, .ro, .cold, false, true, false⟩
  | .stackLoad => ⟨0x410009, 32, 1, 1, .ro, .warm, false, true, false⟩
  | .cbwWrites => ⟨0x41000A, 32, 8, 1, .ro, .warm, false, true, false⟩
  | .draughtFront => ⟨0x41000B, 32, 4, 1, .ro, .warm, false, true, false⟩
  | .llmScratchWays => ⟨0x440001, 8, 1, 1, .rwOp, .warm, true, false, false⟩
  | .sliceState => ⟨0x440002, 8, 1, 34, .ro, .cold, false, false, true⟩
  | .llmHits => ⟨0x440003, 8, 8, 1, .ro, .warm, false, true, false⟩
  | .llmMisses => ⟨0x440004, 8, 8, 1, .ro, .warm, false, true, false⟩
  | .llmBypassed => ⟨0x440005, 8, 8, 1, .ro, .warm, false, true, false⟩
  | .sliceSatCycles => ⟨0x440006, 8, 8, 1, .ro, .warm, false, true, false⟩
  | .bypassThreshold => ⟨0x442001, 1, 1, 1, .rwOp, .warm, false, false, false⟩
  | .sliceSparesLeft => ⟨0x442002, 1, 4, 1, .ro, .cold, false, false, true⟩
  | .zephyrWait => ⟨0x480001, 1, 1, 1, .rwOp, .warm, false, false, false⟩
  | .narrowRequests => ⟨0x480002, 1, 8, 1, .ro, .warm, false, true, false⟩
  | .narrowAtoms => ⟨0x480003, 1, 8, 1, .ro, .warm, false, true, false⟩
  | .narrowCoalesced => ⟨0x480004, 1, 8, 1, .ro, .warm, false, true, false⟩
  | .narrowFullStalls => ⟨0x480005, 1, 8, 1, .ro, .warm, false, true, false⟩
  | .linksUp => ⟨0x500001, 1, 4, 1, .ro, .warm, false, true, false⟩
  | .groupMap => ⟨0x500002, 1, 4, 17, .rwOp, .warm, true, false, false⟩
  | .jobMap => ⟨0x500003, 1, 8, 1, .rwOp, .warm, true, false, false⟩
  | .jobNodes => ⟨0x500004, 1, 4, 1, .rwOp, .warm, true, false, false⟩
  | .routes => ⟨0x500005, 1, 16, 4096, .rwAdm, .cold, false, false, false⟩
  | .mcastBase => ⟨0x500006, 1, 8, 1, .rwOp, .warm, true, false, false⟩
  | .mailQueues => ⟨0x500007, 1, 8, 1, .rwOp, .warm, true, false, false⟩
  | .mailTimeout => ⟨0x500008, 1, 4, 1, .rwAdm, .cold, false, false, false⟩
  | .mailHopLimit => ⟨0x500009, 1, 1, 1, .rwAdm, .cold, false, false, false⟩
  | .remoteTimeout => ⟨0x50000A, 1, 4, 1, .rwAdm, .cold, false, false, false⟩
  | .tcWeight => ⟨0x50000B, 1, 1, 8, .rwAdm, .cold, false, false, false⟩
  | .laneSerLimit => ⟨0x50000C, 1, 2, 1, .rwAdm, .cold, false, false, false⟩
  | .epochStaleCnt => ⟨0x500010, 1, 8, 1, .ro, .warm, false, true, false⟩
  | .keyMismatchCnt => ⟨0x500011, 1, 8, 1, .ro, .warm, false, true, false⟩
  | .detours => ⟨0x500012, 1, 1, 1, .ro, .warm, false, true, false⟩
  | .fwdBytes => ⟨0x500013, 1, 8, 1, .ro, .warm, false, true, false⟩
  | .mailRetrans => ⟨0x500014, 1, 8, 1, .ro, .warm, false, true, false⟩
  | .mailDrops => ⟨0x500015, 1, 8, 1, .ro, .warm, false, true, false⟩
  | .raccRound => ⟨0x500016, 1, 4, 1, .ro, .warm, false, true, false⟩
  | .linkState => ⟨0x510001, 24, 1, 1, .ro, .cold, false, false, true⟩
  | .linkGen => ⟨0x510002, 24, 1, 1, .ro, .cold, false, false, true⟩
  | .linkPeer => ⟨0x510003, 24, 4, 1, .ro, .cold, false, false, false⟩
  | .laneMap => ⟨0x510004, 24, 1, 1, .ro, .cold, false, false, true⟩
  | .linkCmd => ⟨0x510005, 24, 1, 1, .rwAdm, .cold, false, false, false⟩
  | .linkGenMax => ⟨0x510006, 24, 1, 1, .rwAdm, .cold, false, false, false⟩
  | .linkRetries => ⟨0x510007, 24, 8, 1, .ro, .warm, false, true, false⟩
  | .fecCorrected => ⟨0x510008, 24, 8, 1, .ro, .warm, false, true, false⟩
  | .linkLoad => ⟨0x510009, 24, 1, 1, .ro, .warm, false, true, false⟩
  | .linkSatCycles => ⟨0x51000A, 24, 8, 1, .ro, .warm, false, true, false⟩
  | .jobEpoch => ⟨0x540001, 1, 2, 1, .rwOp, .warm, true, false, false⟩
  | .retiringEpoch => ⟨0x540002, 1, 2, 1, .ro, .warm, false, false, true⟩
  | .regionCount => ⟨0x540003, 1, 2, 1, .ro, .warm, false, false, true⟩
  | .regionTable => ⟨0x540004, 1, 32, 4096, .ro, .warm, false, false, false⟩
  | .collGroups => ⟨0x580001, 1, 8, 1, .rwOp, .warm, true, false, false⟩
  | .collGroupCount => ⟨0x580002, 1, 2, 1, .rwOp, .warm, true, false, false⟩
  | .collGrid => ⟨0x580003, 1, 4, 6, .rwOp, .warm, true, false, false⟩
  | .collRerun => ⟨0x580004, 1, 1, 1, .rwOp, .warm, false, false, false⟩
  | .collOverflowPolicy => ⟨0x580005, 1, 1, 1, .rwOp, .warm, false, false, false⟩
  | .collDeadlineBase => ⟨0x580006, 1, 4, 1, .rwOp, .warm, false, false, false⟩
  | .collInstances => ⟨0x580010, 1, 8, 1, .ro, .warm, false, true, false⟩
  | .collAborts => ⟨0x580011, 1, 8, 1, .ro, .warm, false, true, false⟩
  | .collDigestFails => ⟨0x580012, 1, 8, 1, .ro, .warm, false, true, false⟩
  | .collDropped => ⟨0x580013, 1, 8, 1, .ro, .warm, false, true, false⟩
  | .collLateDrops => ⟨0x580014, 1, 8, 1, .ro, .warm, false, true, false⟩
  | .collGateWait => ⟨0x580015, 1, 8, 1, .ro, .warm, false, true, false⟩
  | .collRetainFull => ⟨0x580016, 1, 8, 1, .ro, .warm, false, true, false⟩
  | .collAbandoned => ⟨0x580017, 1, 8, 1, .ro, .warm, false, true, false⟩
  | .strict => ⟨0x780001, 1, 1, 1, .rwOp, .warm, true, false, false⟩
  | .fixedTiming => ⟨0x780002, 1, 1, 1, .rwAdm, .warm, true, false, false⟩
  | .ftThermalPolicy => ⟨0x780003, 1, 1, 1, .rwAdm, .cold, false, false, false⟩
  | .detSignature => ⟨0x780004, 1, 8, 1, .ro, .warm, false, false, false⟩
  | .detExpect => ⟨0x780005, 1, 8, 1, .rwOp, .warm, true, false, false⟩
  | .digestRing => ⟨0x780006, 1, 8, 1, .rwOp, .warm, true, false, false⟩
  | .tstep => ⟨0x780007, 1, 8, 1, .ro, .warm, false, true, false⟩
  | .nodeDigest => ⟨0x780008, 1, 8, 1, .ro, .warm, false, false, false⟩
  | .streamDigests => ⟨0x780009, 1, 8, 2048, .ro, .warm, false, false, false⟩
  | .sigMismatches => ⟨0x780010, 1, 8, 1, .ro, .warm, false, true, false⟩
  | .xwEnable => ⟨0x784001, 1, 1, 1, .rwOp, .warm, true, false, false⟩
  | .xwPartner => ⟨0x784002, 1, 1, 1, .rwOp, .warm, true, false, false⟩
  | .xwLag => ⟨0x784003, 1, 1, 1, .rwOp, .warm, true, false, false⟩
  | .xwPolicy => ⟨0x784004, 1, 1, 1, .rwOp, .warm, false, false, false⟩
  | .xwLog => ⟨0x784005, 1, 8, 1, .rwOp, .warm, true, false, false⟩
  | .xwLogBytes => ⟨0x784006, 1, 8, 1, .rwOp, .warm, true, false, false⟩
  | .xwState => ⟨0x784007, 1, 1, 1, .ro, .warm, false, false, true⟩
  | .xwRefuseCause => ⟨0x784008, 1, 1, 1, .ro, .warm, false, false, false⟩
  | .xwRecord => ⟨0x784009, 1, 64, 1, .ro, .warm, false, false, false⟩
  | .xwCompared => ⟨0x784010, 1, 8, 1, .ro, .warm, false, true, false⟩
  | .xwHoldNs => ⟨0x784011, 1, 8, 1, .ro, .warm, false, true, false⟩
  | .errorLog => ⟨0x700001, 1, 64, 4096, .ro, .cold, false, false, false⟩
  | .errorHead => ⟨0x700002, 1, 8, 1, .ro, .cold, false, false, false⟩
  | .errorAck => ⟨0x700003, 1, 8, 1, .rwOp, .cold, false, false, false⟩
  | .errorsLost => ⟨0x700004, 1, 8, 1, .ro, .cold, false, false, false⟩
  | .errorCounts => ⟨0x700005, 1, 8, 28, .ro, .cold, false, true, false⟩
  | .peerLossTime => ⟨0x700006, 1, 4, 1, .rwAdm, .cold, false, false, false⟩
  | .selftestRuns => ⟨0x700007, 1, 8, 1, .ro, .cold, false, true, false⟩
  | .bridgeState => ⟨0x700008, 1, 1, 23, .ro, .cold, false, false, true⟩
  | .couplerState => ⟨0x700009, 1, 1, 1, .ro, .cold, false, false, true⟩
  | .alertCause => ⟨0x70000A, 1, 4, 1, .rwOp, .cold, false, false, false⟩
  | .squallState => ⟨0x704001, 1, 1, 1, .ro, .warm, false, false, true⟩
  | .squallScore => ⟨0x704002, 1, 4, 1, .ro, .warm, false, true, false⟩
  | .squallWarn => ⟨0x704003, 1, 2, 1, .rwAdm, .cold, false, false, false⟩
  | .squallClear => ⟨0x704004, 1, 2, 1, .rwAdm, .cold, false, false, false⟩
  | .squallHalflife => ⟨0x704005, 1, 4, 1, .rwAdm, .cold, false, false, false⟩
  | .squallWeight => ⟨0x704006, 1, 1, 28, .rwAdm, .cold, false, false, false⟩
  | .squallAllow => ⟨0x704007, 1, 2, 1, .rwAdm, .cold, false, false, false⟩
  | .squallWarnings => ⟨0x704008, 1, 8, 1, .ro, .warm, false, true, false⟩
  | .snapList => ⟨0x740001, 1, 8, 1, .rwOp, .warm, true, false, false⟩
  | .snapCount => ⟨0x740002, 1, 2, 1, .rwOp, .warm, true, false, false⟩
  | .snapInterval => ⟨0x740003, 1, 4, 1, .rwOp, .warm, false, false, false⟩
  | .shardStoreBytes => ⟨0x740004, 1, 8, 1, .rwOp, .warm, true, false, false⟩
  | .drainEnable => ⟨0x740005, 1, 1, 1, .rwOp, .warm, true, false, false⟩
  | .drainDeadline => ⟨0x740006, 1, 4, 1, .rwOp, .warm, false, false, false⟩
  | .slotInfo => ⟨0x740007, 1, 128, 2, .ro, .cold, false, false, false⟩
  | .slotValid => ⟨0x740008, 1, 1, 1, .ro, .cold, false, false, true⟩
  | .slotDrained => ⟨0x740009, 1, 1, 1, .ro, .cold, false, false, false⟩
  | .shardDir => ⟨0x74000A, 1, 64, 32, .ro, .cold, false, false, false⟩
  | .snapFit => ⟨0x74000B, 1, 4, 1, .ro, .warm, false, false, false⟩
  | .lastSnapTstep => ⟨0x74000C, 1, 8, 1, .ro, .warm, false, false, false⟩
  | .snapsTaken => ⟨0x740010, 1, 8, 1, .ro, .warm, false, true, false⟩
  | .snapsSkipped => ⟨0x740011, 1, 8, 1, .ro, .warm, false, true, false⟩
  | .recoveryCmd => ⟨0x740020, 1, 16, 1, .rwOp, .warm, false, false, false⟩
  | .recoveryState => ⟨0x740021, 1, 1, 1, .ro, .warm, false, false, true⟩
  | .restoredTstep => ⟨0x740022, 1, 8, 1, .ro, .warm, false, false, false⟩
  | .replayCompared => ⟨0x740023, 1, 8, 1, .ro, .warm, false, true, false⟩
  | .hostLink => ⟨0x600001, 1, 2, 1, .ro, .cold, false, false, true⟩
  | .hostGenMax => ⟨0x600002, 1, 1, 1, .rwAdm, .cold, false, false, false⟩
  | .intErrorVec => ⟨0x600003, 1, 2, 1, .rwOp, .warm, false, false, false⟩
  | .intJobVec => ⟨0x600004, 1, 2, 1, .rwOp, .warm, false, false, false⟩
  | .hostPrincipals => ⟨0x600005, 1, 64, 8, .rwAdm, .cold, false, false, false⟩
  | .hostRefused => ⟨0x600006, 1, 8, 1, .ro, .warm, false, true, false⟩
  | .hostHeldLines => ⟨0x600007, 1, 4, 1, .ro, .warm, false, true, false⟩
  | .backInvalidates => ⟨0x600008, 1, 8, 1, .ro, .warm, false, true, false⟩
  | .notifyDropped => ⟨0x600009, 1, 8, 1, .ro, .warm, false, true, false⟩
  | .sqBase => ⟨0x610001, 64, 8, 1, .rwOp, .warm, false, false, false⟩
  | .sqSize => ⟨0x610002, 64, 1, 1, .rwOp, .warm, false, false, false⟩
  | .cqBase => ⟨0x610003, 64, 8, 1, .rwOp, .warm, false, false, false⟩
  | .cqSize => ⟨0x610004, 64, 1, 1, .rwOp, .warm, false, false, false⟩
  | .cqVector => ⟨0x610005, 64, 2, 1, .rwOp, .warm, false, false, false⟩
  | .sqLevel => ⟨0x610006, 64, 1, 1, .rwAdm, .warm, false, false, false⟩
  | .sqEnable => ⟨0x610007, 64, 1, 1, .rwOp, .warm, false, false, false⟩
  | .sqState => ⟨0x610008, 64, 1, 1, .ro, .warm, false, false, false⟩
  | .partNumber => ⟨0x100001, 1, 255, 1, .sealed, .sealed, false, false, false⟩
  | .serial => ⟨0x100002, 1, 255, 1, .sealed, .sealed, false, false, false⟩
  | .stepping => ⟨0x100003, 1, 2, 1, .sealed, .sealed, false, false, false⟩
  | .familyMember => ⟨0x100004, 1, 2, 1, .sealed, .sealed, false, false, false⟩
  | .pciIds => ⟨0x100005, 1, 4, 1, .sealed, .sealed, false, false, false⟩
  | .fwImage => ⟨0x100006, 1, 1, 1, .ro, .cold, false, false, true⟩
  | .fwVersion => ⟨0x100007, 1, 4, 1, .ro, .cold, false, false, false⟩
  | .deviceCertDigest => ⟨0x100008, 1, 48, 1, .sealed, .sealed, false, false, false⟩
  | .mgmtMac => ⟨0x110001, 1, 8, 1, .sealed, .sealed, false, false, false⟩
  | .mgmtIpv4 => ⟨0x110002, 1, 4, 1, .rwAdm, .always, false, false, false⟩
  | .mgmtNetmask => ⟨0x110003, 1, 4, 1, .rwAdm, .always, false, false, false⟩
  | .mgmtGateway => ⟨0x110004, 1, 4, 1, .rwAdm, .always, false, false, false⟩
  | .mgmtLink => ⟨0x110005, 1, 1, 1, .ro, .always, false, true, false⟩
  | .jp1Enable => ⟨0x110006, 1, 1, 1, .rwAdm, .always, false, false, false⟩
  | .i3cOpenLevel => ⟨0x110007, 1, 1, 1, .rwSvc, .always, false, false, false⟩
  | .sidebandPrincipals => ⟨0x110008, 1, 64, 16, .rwAdm, .always, false, false, false⟩
  | .serviceRoot => ⟨0x110009, 1, 48, 1, .sealed, .sealed, false, false, false⟩
  | .subscriptions => ⟨0x11000A, 1, 16, 4, .ro, .warm, false, false, false⟩
  | .dictRefused => ⟨0x11000B, 1, 8, 1, .ro, .warm, false, true, false⟩
  | .dictLate => ⟨0x11000C, 1, 8, 1, .ro, .warm, false, true, false⟩
  | .ptpEnable => ⟨0x114001, 1, 1, 1, .rwAdm, .always, false, false, false⟩
  | .ptpDomain => ⟨0x114002, 1, 1, 1, .rwAdm, .always, false, false, false⟩
  | .ppsMode => ⟨0x114003, 1, 1, 1, .rwAdm, .always, false, false, false⟩
  | .taiState => ⟨0x114004, 1, 1, 1, .ro, .always, false, false, true⟩
  | .taiNs => ⟨0x114005, 1, 8, 1, .ro, .always, false, true, false⟩
  | .taiSet => ⟨0x114006, 1, 8, 1, .woAdm, .always, false, false, false⟩
  | .taiOffsetErr => ⟨0x114007, 1, 4, 1, .ro, .always, false, true, false⟩
  | .utcOffset => ⟨0x114008, 1, 4, 1, .ro, .always, false, false, false⟩
  | .ptpMaster => ⟨0x114009, 1, 8, 1, .ro, .always, false, false, false⟩
  | .ppsRejected => ⟨0x11400A, 1, 8, 1, .ro, .always, false, true, false⟩
  | .auditLog => ⟨0x180001, 1, 64, 8192, .ro, .always, false, false, false⟩
  | .auditHead => ⟨0x180002, 1, 8, 1, .ro, .always, false, false, false⟩
  | .auditAcked => ⟨0x180003, 1, 8, 1, .ro, .always, false, false, false⟩
  | .auditMirror => ⟨0x180004, 1, 64, 1048576, .ro, .always, false, false, false⟩
  | .auditMirrorHead => ⟨0x180005, 1, 8, 1, .ro, .always, false, false, false⟩
  | .auditHostHold => ⟨0x180006, 1, 1, 1, .rwAdm, .always, false, false, false⟩
  | .auditAckHost => ⟨0x180007, 1, 8, 1, .rwOp, .always, false, false, false⟩
  | .auditHoldTimeout => ⟨0x180008, 1, 4, 1, .rwAdm, .always, false, false, false⟩
  | .auditLost => ⟨0x180009, 1, 8, 1, .ro, .always, false, false, false⟩
  | .auditRefused => ⟨0x18000A, 1, 8, 1, .ro, .warm, false, true, false⟩
  | .auditedState => ⟨0x18000B, 1, 4, 30, .ro, .always, false, false, false⟩
  | .sealState => ⟨0xA00001, 1, 1, 1, .sealed, .sealed, false, false, false⟩
  | .periphEn => ⟨0x200001, 1, 1, 1, .rwAdm, .cold, false, false, false⟩
  | .xtalState => ⟨0x200002, 1, 1, 1, .ro, .always, false, false, false⟩
  | .domainResets => ⟨0x200003, 1, 4, 1, .ro, .cold, false, true, false⟩
  | .clkSel => ⟨0x204001, 48, 1, 1, .rwSvc, .cold, true, false, false⟩
  | .clkReady => ⟨0x204002, 48, 1, 1, .ro, .cold, false, true, false⟩
  | .clkCompat => ⟨0x204003, 48, 1, 1, .rwSvc, .cold, false, false, false⟩
  | .clkMhz => ⟨0x204004, 48, 2, 1, .ro, .cold, false, true, false⟩
  | .clkPllSpare => ⟨0x204005, 48, 1, 1, .ro, .cold, false, false, false⟩
  | .powerCap => ⟨0x220001, 1, 2, 1, .rwAdm, .cold, false, false, false⟩
  | .cclkMax => ⟨0x220002, 1, 2, 1, .rwAdm, .cold, false, false, false⟩
  | .pclkMax => ⟨0x220003, 1, 2, 1, .rwAdm, .cold, false, false, false⟩
  | .tjThrottle => ⟨0x220004, 1, 1, 1, .rwAdm, .cold, false, false, false⟩
  | .pkgPower => ⟨0x220005, 1, 4, 1, .ro, .warm, false, true, false⟩
  | .vinMainMv => ⟨0x220006, 1, 2, 1, .ro, .warm, false, true, false⟩
  | .vinMainA => ⟨0x220007, 1, 2, 1, .ro, .warm, false, true, false⟩
  | .throttleState => ⟨0x220008, 1, 1, 1, .ro, .warm, false, true, false⟩
  | .throttleNs => ⟨0x220009, 1, 8, 1, .ro, .warm, false, true, false⟩
  | .temps => ⟨0x22000A, 1, 2, 130, .ro, .warm, false, true, false⟩
  | .coolFlowBoard => ⟨0x22000B, 1, 2, 1, .rwOp, .warm, false, false, false⟩
  | .coolFlow => ⟨0x22000C, 1, 2, 1, .ro, .warm, false, true, false⟩
  | .coolantState => ⟨0x22000D, 1, 1, 1, .ro, .warm, false, false, false⟩
  | .lastTrip => ⟨0x22000E, 1, 1, 1, .ro, .always, false, false, false⟩
  | .resetCause => ⟨0x240008, 1, 1, 1, .ro, .always, false, false, false⟩
  | .freezeState => ⟨0x7C0001, 1, 1, 1, .ro, .warm, false, false, false⟩
  | .freezeSrcEn => ⟨0x7C0002, 1, 1, 1, .rwOp, .cold, false, false, false⟩
  | .freezeErrMask => ⟨0x7C0003, 1, 4, 1, .rwOp, .cold, false, false, false⟩
  | .freezeCmd => ⟨0x7C0004, 1, 1, 1, .rwOp, .warm, false, false, false⟩
  | .freezeHold => ⟨0x7C0005, 1, 4, 1, .rwOp, .cold, false, false, false⟩
  | .freezeRecord => ⟨0x7C0006, 1, 32, 1, .ro, .cold, false, false, false⟩
  | .freezeMissed => ⟨0x7C0007, 1, 8, 1, .ro, .cold, false, true, false⟩
  | .freezeDumpAddr => ⟨0x7C0008, 1, 8, 1, .rwOp, .warm, false, false, false⟩
  | .freezeDumpBytes => ⟨0x7C0009, 1, 4, 1, .ro, .always, false, false, false⟩
  | .levelSat => ⟨0x7C8001, 1, 1, 8, .ro, .warm, false, true, false⟩
  | .latHist => ⟨0x7C8002, 1, 4, 96, .ro, .warm, false, true, false⟩
  | .latSample => ⟨0x7C8003, 1, 1, 1, .rwOp, .warm, false, false, false⟩
  | .latClear => ⟨0x7C8004, 1, 1, 1, .rwOp, .warm, false, false, false⟩
  | .errorRate => ⟨0x7C8005, 1, 4, 56, .ro, .warm, false, true, false⟩
  | .traceRing => ⟨0x7C8006, 1, 8, 1, .rwOp, .warm, false, false, false⟩
  | .traceRingBytes => ⟨0x7C8007, 1, 4, 1, .rwOp, .warm, false, false, false⟩
  | .traceCount => ⟨0x7C8008, 1, 8, 1, .ro, .warm, false, true, false⟩
  | .traceDropped => ⟨0x7C8009, 1, 8, 1, .ro, .warm, false, true, false⟩
  | .aonAbsent => ⟨0, 1, 1, 1, .hidden, .board, false, true, false⟩
  | .vinMainIn => ⟨0, 1, 1, 1, .hidden, .board, false, true, false⟩
  | .stackRailsIn => ⟨0, 1, 1, 1, .hidden, .board, false, true, false⟩
  | .pwrOk => ⟨0, 1, 1, 1, .hidden, .board, false, true, false⟩
  | .rstHeld => ⟨0, 1, 1, 1, .hidden, .board, false, true, false⟩
  | .inReset => ⟨0, 1, 1, 1, .hidden, .always, false, true, false⟩
  | .warmWaiting => ⟨0, 1, 1, 1, .hidden, .always, false, true, false⟩
  | .thermTrip => ⟨0, 1, 1, 1, .hidden, .always, false, true, false⟩
  | .mclkRuns => ⟨0, 1, 1, 1, .hidden, .always, false, true, false⟩
  | .mgmtSilent => ⟨0, 1, 1, 1, .hidden, .always, false, true, false⟩
  | .stageStarted => ⟨0, 1, 1, 1, .hidden, .always, false, true, false⟩
  | .clkSwitching => ⟨0, 48, 1, 1, .hidden, .cold, false, true, false⟩
  | .arrayThrottle => ⟨0, 1, 1, 1, .hidden, .warm, false, true, false⟩
  | .throttleRecord => ⟨0, 1, 8, 1, .hidden, .warm, false, true, false⟩
  | .throttleFrom => ⟨0, 1, 8, 1, .hidden, .warm, false, true, false⟩
  | .steppedDown => ⟨0, 16, 1, 1, .hidden, .warm, false, true, false⟩
  | .sensorExcluded => ⟨0, 130, 1, 1, .hidden, .cold, false, true, false⟩
  | .elementHot => ⟨0, 46, 1, 1, .hidden, .warm, false, true, false⟩
  | .floorAt => ⟨0, 46, 8, 1, .hidden, .warm, false, true, false⟩
  | .powerRing => ⟨0, 10, 4, 1, .hidden, .warm, false, true, false⟩
  | .powerSamples => ⟨0, 1, 8, 1, .hidden, .warm, false, true, false⟩
  | .coolFlowAt => ⟨0, 1, 8, 1, .hidden, .warm, false, true, false⟩
  | .taiOffset => ⟨0, 1, 8, 1, .hidden, .always, false, true, false⟩
  | .squallScore16 => ⟨0, 1, 8, 1, .hidden, .warm, false, true, false⟩
  | .squallAt => ⟨0, 1, 8, 1, .hidden, .warm, false, true, false⟩
  | .squallAllowStack => ⟨0, 32, 4, 1, .hidden, .warm, false, true, false⟩
  | .squallAllowLink => ⟨0, 24, 4, 1, .hidden, .warm, false, true, false⟩
  | .ratePast => ⟨0, 1680, 4, 1, .hidden, .warm, false, true, false⟩
  | .freezeGen => ⟨0, 1, 4, 1, .hidden, .cold, false, true, false⟩
  | .dumpWaits => ⟨0, 1, 1, 1, .hidden, .warm, false, true, false⟩
  | .auditRefusing => ⟨0, 1, 1, 1, .hidden, .always, false, true, false⟩
  | .hostHoldAcked => ⟨0, 1, 8, 1, .hidden, .always, false, true, false⟩
  | .lastAlertSeq => ⟨0, 1, 8, 1, .hidden, .cold, false, true, false⟩
  | .jobRunning => ⟨0, 1, 1, 1, .hidden, .warm, false, true, false⟩
  | .startPending => ⟨0, 1, 1, 1, .hidden, .warm, false, true, false⟩
  | .teardownPending => ⟨0, 1, 1, 1, .hidden, .warm, false, true, false⟩
  | .serviceWork => ⟨0, 1, 2, 1, .hidden, .cold, false, true, false⟩
  | .rosterLlmAtLoad => ⟨0, 1, 2, 1, .hidden, .warm, false, true, false⟩
  | .posLatch => ⟨0, 1, 1, 1, .hidden, .always, false, true, false⟩
  | .pllMhz => ⟨0, 48, 2, 1, .hidden, .cold, false, true, false⟩
  | .pllFailed => ⟨0, 48, 1, 1, .hidden, .warm, false, true, false⟩
  | .regulatorsOff => ⟨0, 1, 1, 1, .hidden, .cold, false, true, false⟩
  | .thermalFloor => ⟨0, 46, 1, 1, .hidden, .cold, false, true, false⟩
  | .stage5Waits => ⟨0, 1, 1, 1, .hidden, .warm, false, true, false⟩
  | .lullHeld => ⟨0, 1, 1, 1, .hidden, .warm, false, true, false⟩
  | .fusePulses => ⟨0, 1, 4, 1, .hidden, .cold, false, true, false⟩
  | .linkWasUp => ⟨0, 1, 4, 1, .hidden, .cold, false, true, false⟩
  | .svxrerr => ⟨0, 6144, 4, 1, .hidden, .warm, false, true, false⟩
  | .linkQuiet => ⟨0, 1, 4, 1, .hidden, .warm, false, true, false⟩
  | .flitSeq => ⟨0, 24, 2, 1, .hidden, .warm, false, true, false⟩
  | .raccDone => ⟨0, 1, 4, 1, .hidden, .warm, false, true, false⟩
  | .mailTail => ⟨0, 64, 4, 1, .hidden, .warm, false, true, false⟩
  | .mailDone => ⟨0, 64, 8, 1, .hidden, .warm, false, true, false⟩
  | .xwReceived => ⟨0, 1, 8, 1, .hidden, .warm, false, true, false⟩
  | .fenceJoined => ⟨0, 1, 1, 1, .hidden, .warm, false, true, false⟩
  | .fenceHeld => ⟨0, 1, 4, 1, .hidden, .warm, false, true, false⟩
  | .fenceDone => ⟨0, 1, 1, 1, .hidden, .warm, false, true, false⟩
  | .hartTurn => ⟨0, 192, 1, 1, .hidden, .warm, false, true, false⟩
  | .coreFailed => ⟨0, 192, 1, 1, .hidden, .cold, false, true, false⟩
  | .cqHead => ⟨0, 64, 4, 1, .hidden, .warm, false, true, false⟩
  | .cqTail => ⟨0, 64, 4, 1, .hidden, .warm, false, true, false⟩
  | .cqWraps => ⟨0, 64, 8, 1, .hidden, .warm, false, true, false⟩
  | .sqHead => ⟨0, 64, 4, 1, .hidden, .warm, false, true, false⟩
  | .sqTail => ⟨0, 64, 4, 1, .hidden, .warm, false, true, false⟩
  | .sliceMap => ⟨0, 256, 1, 1, .hidden, .cold, false, true, false⟩
  | .wrapper => ⟨0, 1, 4, 1, .hidden, .cold, false, true, false⟩
  | .snapJoined => ⟨0, 1, 1, 1, .hidden, .warm, false, true, false⟩
  | .snapWarn => ⟨0, 1, 1, 1, .hidden, .warm, false, true, false⟩
  | .snapFits => ⟨0, 1, 1, 1, .hidden, .warm, false, true, false⟩
  | .snapEnded => ⟨0, 1, 1, 1, .hidden, .warm, false, true, false⟩
  | .snapGen => ⟨0, 1, 8, 1, .hidden, .warm, false, true, false⟩
  | .psRefused => ⟨0, 1, 8, 1, .hidden, .warm, false, true, false⟩
  | .ctxOf => ⟨0, 256, 2, 1, .hidden, .warm, false, true, false⟩
  | .taiSlew => ⟨0, 1, 8, 1, .hidden, .always, false, true, false⟩
  | .taiSlewAt => ⟨0, 1, 8, 1, .hidden, .always, false, true, false⟩
  | .taiWasLocked => ⟨0, 1, 1, 1, .hidden, .always, false, true, false⟩
  | .ipv4 => ⟨0, 1, 4, 1, .hidden, .always, false, true, false⟩
  | .ipv4Mask => ⟨0, 1, 4, 1, .hidden, .always, false, true, false⟩
  | .ipv4Gateway => ⟨0, 1, 4, 1, .hidden, .always, false, true, false⟩
  | .initEnded => ⟨0, 1, 1, 1, .hidden, .cold, false, true, false⟩
  | .winCmd => ⟨0, 1, 1, 1, .hidden, .warm, false, true, false⟩
  | .winStatus => ⟨0, 1, 1, 1, .hidden, .warm, false, true, false⟩
  | .winError => ⟨0, 1, 1, 1, .hidden, .warm, false, true, false⟩
  | .winAddr => ⟨0, 1, 4, 1, .hidden, .warm, false, true, false⟩
  | .winOffset => ⟨0, 1, 4, 1, .hidden, .warm, false, true, false⟩
  | .winLen => ⟨0, 1, 4, 1, .hidden, .warm, false, true, false⟩
  | .winSeq => ⟨0, 1, 8, 1, .hidden, .warm, false, true, false⟩
  | .winData => ⟨0, 3840, 1, 1, .hidden, .warm, false, true, false⟩

/-- What a register holds at reset, by element index; the value of the tables of objects, or the value its log entry names. -/
def Reg.dflt (r : Reg) (i : Nat) : Nat :=
  match r with
  | .lullDeadline => 1000
  | .logicalId => 4294967295
  | .numericFw => (Config.numericFw 0).toNat
  | .modeSets => 16
  | .stats => 3
  | .baysActive => 256
  | .baySparesLeft => 572662306
  | .bayState => if i % 34 < 32 then 0 else 1
  | .lbayMap => (i / 32) * 256 + i % 32
  | .rosterBytes => 8589934592
  | .rosterLlm => 64
  | .tailwindEn => 1
  | .tailwindDepth => 16
  | .carryHeadroom => 2
  | .transcId => (Config.transcId (Config.numericFw 0)).toNat
  | .eventBase => 0x30000000000 + 4096 * Config.eventPage.toNat
  | .deadlineDefault => 62500
  | .strictConvert => 1
  | .coresUsable => 192
  | .coreReserve => 2
  | .coreReserveLeft => 514
  | .hartMap => hartMapDefault i
  | .supStandbyOk => 1
  | .stackTop => 2199023255552
  | .allocTop => 2196875771904
  | .mapoutOrder => 0xFFFF
  | .scrubPeriod => 12
  | .remapThreshold => 2
  | .wipeRoster => 1
  | .reserveRowsLeft => 1966080
  | .llmScratchWays => 4
  | .sliceState => if i % 34 < 32 then 0 else 1
  | .bypassThreshold => 48
  | .sliceSparesLeft => 572662306
  | .zephyrWait => 64
  | .mailTimeout => 1000
  | .mailHopLimit => 16
  | .remoteTimeout => 100
  | .tcWeight => [32, 24, 8, 16, 16, 8, 8, 16].getD i 0
  | .laneSerLimit => 20
  | .laneMap => 255
  | .linkGenMax => 3
  | .collGrid => 1
  | .collRerun => 1
  | .collDeadlineBase => 3125
  | .xwPartner => 255
  | .xwLag => 2
  | .peerLossTime => 1000
  | .squallWarn => 64
  | .squallClear => 32
  | .squallHalflife => 600
  | .squallWeight => faultWeights.getD i 0
  | .squallAllow => 10
  | .drainEnable => 1
  | .drainDeadline => 10000
  | .hostGenMax => 6
  | .intErrorVec => 2046
  | .intJobVec => 2047
  | .sqSize => 4
  | .cqSize => 4
  | .cqVector => i
  | .sqLevel => 1
  | .partNumber => stringValue partNumberBytes
  | .serial => stringValue (Config.serial.map BitVec.toNat)
  | .stepping => Config.stepping.toNat
  | .familyMember => 37376
  | .pciIds => 0x92000000 + Config.pciVendor.toNat
  | .fwVersion => (Config.fwVersion 0).toNat
  | .deviceCertDigest => Config.deviceCertDigest.toNat
  | .mgmtMac => Config.mgmtMac.toNat
  | .jp1Enable => 1
  | .i3cOpenLevel => 2
  | .serviceRoot => Config.serviceRoot.toNat
  | .ptpEnable => 1
  | .auditHoldTimeout => 60
  | .sealState => 1
  | .clkReady => 3
  | .clkMhz => 25
  | .powerCap => 7700
  | .cclkMax => 1800
  | .pclkMax => 2400
  | .tjThrottle => 95
  | .lastTrip => 255
  | .freezeSrcEn => 9
  | .freezeErrMask => 64
  | .freezeDumpBytes => 145984
  | .latSample => 10
  | .pllMhz => if i < 8 then 1800 else if i < 10 then 2400 else if i = 10 then 1600 else 2000
  | .sliceMap => i % 32
  | _ => 0

/-- Registers of the dictionary, part 1, in the order of the spec's tables. -/
def dictionary1 : List Reg :=
  [.nodeState, .jobActive, .degradeCause, .stateRequest, .serviceRequest, .lullDeadline, .initStage, .physId, .posStrap, .location, .logicalId, .numericFw, .rounding, .modeSets, .subn, .acc, .stats, .baysActive, .baySparesLeft, .ctxBase, .residueReplays, .bayState, .lbayMap, .rosterBase, .rosterBytes, .rosterCount, .rosterLlm, .tailwindEn, .tailwindDepth, .switches, .switchLlmHits, .prefetchLate, .prefetchUnused, .prefetchDropped, .carryHeadroom, .transcId, .vecStatusOr, .vecSteps, .transElements, .transCarryMisses]

/-- Registers of the dictionary, part 2, in the order of the spec's tables. -/
def dictionary2 : List Reg :=
  [.transRemoteBlocks, .scaleAreaRaces, .couplerQueueMax, .tableDir, .descBase, .descCount, .completionRing, .eventBase, .deadlineDefault, .deadlinePolicy, .strictConvert, .tableState, .stepsIssued, .deadlinesMissed, .ndConverted, .specStalls, .windowMisses, .preemptsDeferred, .coresUsable, .coreReserve, .coreReserveLeft, .hartCount, .hartStart, .apertureBase, .apertureCount, .hartMap, .hartState, .supActive, .supStandbyOk, .supTakeovers, .threadSwitches, .remoteAccesses, .svxFaults, .coreReplays, .remoteWriteErrors, .stackTop, .allocTop, .mapoutForce, .channelsOut, .mapoutOrder]

/-- Registers of the dictionary, part 3, in the order of the spec's tables. -/
def dictionary3 : List Reg :=
  [.migrationLeft, .scrubPeriod, .remapThreshold, .wipeRoster, .channelState, .reserveRowsLeft, .journalUsed, .journalUncertain, .eccCorrectedCnt, .eccUncorrCnt, .retrains, .scrubPasses, .stackLoad, .cbwWrites, .draughtFront, .llmScratchWays, .sliceState, .llmHits, .llmMisses, .llmBypassed, .sliceSatCycles, .bypassThreshold, .sliceSparesLeft, .zephyrWait, .narrowRequests, .narrowAtoms, .narrowCoalesced, .narrowFullStalls, .linksUp, .groupMap, .jobMap, .jobNodes, .routes, .mcastBase, .mailQueues, .mailTimeout, .mailHopLimit, .remoteTimeout, .tcWeight, .laneSerLimit]

/-- Registers of the dictionary, part 4, in the order of the spec's tables. -/
def dictionary4 : List Reg :=
  [.epochStaleCnt, .keyMismatchCnt, .detours, .fwdBytes, .mailRetrans, .mailDrops, .raccRound, .linkState, .linkGen, .linkPeer, .laneMap, .linkCmd, .linkGenMax, .linkRetries, .fecCorrected, .linkLoad, .linkSatCycles, .jobEpoch, .retiringEpoch, .regionCount, .regionTable, .collGroups, .collGroupCount, .collGrid, .collRerun, .collOverflowPolicy, .collDeadlineBase, .collInstances, .collAborts, .collDigestFails, .collDropped, .collLateDrops, .collGateWait, .collRetainFull, .collAbandoned, .strict, .fixedTiming, .ftThermalPolicy, .detSignature, .detExpect]

/-- Registers of the dictionary, part 5, in the order of the spec's tables. -/
def dictionary5 : List Reg :=
  [.digestRing, .tstep, .nodeDigest, .streamDigests, .sigMismatches, .xwEnable, .xwPartner, .xwLag, .xwPolicy, .xwLog, .xwLogBytes, .xwState, .xwRefuseCause, .xwRecord, .xwCompared, .xwHoldNs, .errorLog, .errorHead, .errorAck, .errorsLost, .errorCounts, .peerLossTime, .selftestRuns, .bridgeState, .couplerState, .alertCause, .squallState, .squallScore, .squallWarn, .squallClear, .squallHalflife, .squallWeight, .squallAllow, .squallWarnings, .snapList, .snapCount, .snapInterval, .shardStoreBytes, .drainEnable, .drainDeadline]

/-- Registers of the dictionary, part 6, in the order of the spec's tables. -/
def dictionary6 : List Reg :=
  [.slotInfo, .slotValid, .slotDrained, .shardDir, .snapFit, .lastSnapTstep, .snapsTaken, .snapsSkipped, .recoveryCmd, .recoveryState, .restoredTstep, .replayCompared, .hostLink, .hostGenMax, .intErrorVec, .intJobVec, .hostPrincipals, .hostRefused, .hostHeldLines, .backInvalidates, .notifyDropped, .sqBase, .sqSize, .cqBase, .cqSize, .cqVector, .sqLevel, .sqEnable, .sqState, .partNumber, .serial, .stepping, .familyMember, .pciIds, .fwImage, .fwVersion, .deviceCertDigest, .mgmtMac, .mgmtIpv4, .mgmtNetmask]

/-- Registers of the dictionary, part 7, in the order of the spec's tables. -/
def dictionary7 : List Reg :=
  [.mgmtGateway, .mgmtLink, .jp1Enable, .i3cOpenLevel, .sidebandPrincipals, .serviceRoot, .subscriptions, .dictRefused, .dictLate, .ptpEnable, .ptpDomain, .ppsMode, .taiState, .taiNs, .taiSet, .taiOffsetErr, .utcOffset, .ptpMaster, .ppsRejected, .auditLog, .auditHead, .auditAcked, .auditMirror, .auditMirrorHead, .auditHostHold, .auditAckHost, .auditHoldTimeout, .auditLost, .auditRefused, .auditedState, .sealState, .periphEn, .xtalState, .domainResets, .clkSel, .clkReady, .clkCompat, .clkMhz, .clkPllSpare, .powerCap]

/-- Registers of the dictionary, part 8, in the order of the spec's tables. -/
def dictionary8 : List Reg :=
  [.cclkMax, .pclkMax, .tjThrottle, .pkgPower, .vinMainMv, .vinMainA, .throttleState, .throttleNs, .temps, .coolFlowBoard, .coolFlow, .coolantState, .lastTrip, .resetCause, .freezeState, .freezeSrcEn, .freezeErrMask, .freezeCmd, .freezeHold, .freezeRecord, .freezeMissed, .freezeDumpAddr, .freezeDumpBytes, .levelSat, .latHist, .latSample, .latClear, .errorRate, .traceRing, .traceRingBytes, .traceCount, .traceDropped]

/-- Every register of the dictionary (R568). -/
def dictionary : List Reg :=
  dictionary1 ++ dictionary2 ++ dictionary3 ++ dictionary4 ++ dictionary5 ++ dictionary6 ++ dictionary7 ++ dictionary8

/-- The registers of type BLOB (R569), in the order of the spec's tables. -/
def blobs : List Reg :=
  [.bayState, .lbayMap, .tableState, .hartMap, .hartState, .mapoutOrder, .channelState, .sliceState, .groupMap, .routes, .tcWeight, .regionTable, .collGrid, .streamDigests, .xwRecord, .errorLog, .errorCounts, .bridgeState, .squallWeight, .slotInfo, .shardDir, .recoveryCmd, .hostPrincipals, .deviceCertDigest, .sidebandPrincipals, .serviceRoot, .subscriptions, .ptpMaster, .auditLog, .auditMirror, .auditedState, .temps, .freezeRecord, .levelSat, .latHist, .errorRate]

/-- Dictionary name lookup: the register and instance at an address (index * 256 + subindex), if any (R568). -/
def Reg.atAddr (a : Nat) : Option (Reg × Nat) :=
  dictionary.findSome? fun r =>
    let i := r.info
    if a % 256 = i.addr % 256 ∧ i.addr ≤ a ∧ (a - i.addr) / 256 < i.count ∧
        ¬ (r.info.addr / 256 = 0x2040 ∧ 10 < (a - i.addr) / 256 ∧ (a - i.addr) / 256 < 16) then
      some (r, (a - i.addr) / 256)
    else none

end Sys2Proof.Machine
end

