-- ==== Sys2Proof/Machine/Stack.lean ====
section
/-! DEFINITION. What the stack controllers, base dies and slices hold besides data (R308 to R346), and the snapshot slots,
shard directories and drains (R498 to R510). -/

namespace Sys2Proof.Machine

/-- A channel: times of its last word replays and retrains; the retrain in progress, by the number and time of its record;
corrected reads of its rows in the present scrub period; the code of the event whose pattern test runs; and a map-out
decided, by the number and time of its record, with whether it has had to wait (R308 to R316). -/
structure Channel where
  replays : List Nat
  retrains : List Nat
  retraining : Option (Nat × Nat)
  rows : List (Nat × Nat)
  testCode : Nat
  mapout : Option (Nat × Nat × Bool)
  deriving DecidableEq, Repr

/-- A channel on which nothing has happened. -/
def Channel.quiet : Channel := ⟨[], [], none, [], 0, none⟩

/-- A narrow request at a stack's controller (R340, R341): a read, or a write of bytes. -/
structure Narrow where
  stack : Nat
  addr : Nat
  size : Nat
  data : Option (List Byte)
  deriving DecidableEq, Repr

/-- A request to a channel (R307, R308): a read that bypasses the slice, with what the ECC will find, the fill of a line, a write
straight to the stack, or a narrow request. A write of no bytes has taken effect already. -/
inductive ChanReq where
  | read (a : Nat) (finding : EccFinding)
  | fill (line : Nat)
  | write (a : Nat) (bytes : List Byte)
  | narrow (r : Narrow)
  deriving DecidableEq, Repr

/-- A request that waits at a slice whose MBIST runs (R336), as its command gave it; the bytes of a write have taken effect
already, and `size` counts them. -/
inductive SliceReq where
  | read (a : Nat) (eligible : Bool) (queue : Nat) (x : SliceAccess) (stack : EccFinding)
  | write (a size : Nat) (x : SliceAccess)
  | narrow (a size : Nat) (isWrite : Bool) (x : SliceAccess)
  deriving DecidableEq, Repr

/-- A marked atom of a row outside node memory (R300): its stack, the row as bits [31:5] of a journal entry, its place in the row,
and what it belongs to. -/
structure SpareMark where
  stack : Nat
  row : Nat
  atom : Nat
  site : ScrubPlace
  deriving DecidableEq, Repr

/-- A soft remap of a row of a stack, its element as bits [31:0] of a journal entry, and the remap row (R322). -/
structure Remap where
  stack : Nat
  element : Nat
  row : Nat
  deriving DecidableEq, Repr

/-- A permanent repair between its journal entry and its test (R324): whether the wrapper started it, and whether it
replaces a soft-remapped row. -/
structure Pulse where
  stack : Nat
  entry : Nat
  element : Nat
  jtag : Bool
  deriving DecidableEq, Repr

/-- A snapshot slot (R501 to R504): state of R503 (0 invalid, 1 copying, 2 complete), header fields, what it holds, and how
far the copy is. [Log DEDUCED 166] -/
structure Slot where
  state : Nat
  image : Image
  channelsOut : Nat
  mapDigest : Nat
  instant : Nat
  imageBytes : Nat
  committed : Bool
  /-- The region ranges, and their bytes at the instant. -/
  ranges : List (Nat × Nat)
  cells : List Host.Cell
  /-- Stacks whose part is complete, with their digests; lines that were dirty in the LLM at the instant and have not been
  written yet (R346); and lines copied before a write (R345). -/
  parts : List (Nat × Nat)
  tagged : List Nat
  copied : List Nat
  digest : Nat
  deriving DecidableEq, Repr

/-- A slot without an image. -/
def Slot.empty : Slot :=
  ⟨0, ⟨0, 0, 0, 0, [], []⟩, 0, 0, 0, 0, false, [], [], [], [], [], 0⟩

/-- A shard that this node holds (R508, R509): slot, area, state, and the fields of its directory entry, with its bytes. -/
structure Shard where
  slot : Nat
  area : Nat
  state : Nat
  index : Nat
  epoch : Nat
  src : Nat
  tstep : Nat
  gen : Nat
  imageBytes : Nat
  digest : Nat
  data : List Byte
  deriving DecidableEq, Repr

/-- A drain of a slot (R506, R510): epoch and instant of the image, holders that have committed, whether it has been
retried, whether it has failed and ended, and whether its job is torn down. -/
structure Drain where
  slot : Nat
  epoch : Nat
  tstep : Nat
  gen : Nat
  acked : List Nat
  retried : Bool
  failed : Bool
  ended : Bool
  retiring : Bool
  deriving DecidableEq, Repr

/-- A recovery in progress (R513, R518 to R520): its kind, position, epoch and step; the peers that have acknowledged a
takeover update. -/
structure Recovery where
  kind : Nat
  pos : Nat
  epoch : Nat
  tstep : Nat
  acks : List Nat
  deriving DecidableEq, Repr

end Sys2Proof.Machine
end

