-- ==== Sys2Proof/Machine/State.lean ====
section
/-! DEFINITION. The state of the package, and the machine right after reset. -/

namespace Sys2Proof.Machine

/-- An error record of R478, field by field. -/
structure ErrorRecord where
  seq : Nat
  time : Nat
  code : Nat
  severity : Nat
  outcome : Nat
  unitKind : Nat
  unit : Nat
  addr : Nat
  detail : Nat
  lnode : Nat
  step : Nat
  lbay : Nat
  pause : Nat
  tstep : Nat
  score : Nat
  deriving DecidableEq, Repr

/-- A value in an audit entry: inline, or the first 16 bytes of its SHA-384 digest (R595). -/
inductive AuditValue where
  | inline (bytes : List Byte)
  | digest (d : BitVec 128)
  deriving DecidableEq, Repr

/-- An audit entry of R594, field by field. -/
structure AuditEntry where
  seq : Nat
  tai : Nat
  obj : Nat
  origin : Nat
  principal : Nat
  result : Nat
  aflags : Nat
  len : Nat
  old : AuditValue
  new : AuditValue
  deriving DecidableEq, Repr

/-- An SPDM session with mutual authentication (R562, R574): the port, the session identifier, the digest of the
requester's leaf certificate and of the root it chains to, and whether FINISH has completed it. -/
structure Session where
  port : Port
  id : Nat
  leaf : Nat
  root : Nat
  finished : Bool
  keyGeneration : Nat
  deriving DecidableEq, Repr

/-- The pieces of a BLOB write that a port and session hold (R581, R539). [Log DESIGN CHOICE 38] -/
structure Assembly where
  who : Requester
  obj : Nat
  pieces : List (Nat × List Byte)
  deriving DecidableEq, Repr

/-- An open subscription (R590, R602): SAMPLE with its objects and period, or AUDIT with its position. -/
structure Subscription where
  number : Nat
  who : Requester
  audit : Bool
  hold : Bool
  objects : List Nat
  period : Nat
  next : Nat
  acked : Nat
  deriving DecidableEq, Repr

/-- A completion entry as posted (R543): the queue, `CID`, `STATUS`, `RES0`, completion time, and whether it raises no
interrupt. -/
structure Completion where
  queue : Nat
  cid : Nat
  status : Nat
  res0 : Nat
  done : Nat
  noInt : Bool
  deriving DecidableEq, Repr

/-- What the package answers to an SPDM request (R560 to R562). -/
inductive SpdmAnswer where
  /-- The version 1.3. -/
  | version (major minor : Nat)
  | capabilities
  /-- The one set of algorithms of R560. -/
  | algorithms
  | digests (slot0 : Nat)
  | certificate (bytes : List Byte)
  | challengeAuth (signature : Nat)
  | measurements (values : List (Nat × List Byte)) (signature : Nat)
  | keyExchangeRsp (id signature : Nat)
  | finishRsp | heartbeatAck | keyUpdateAck | endSessionAck
  /-- The request is not served. -/
  | error
  deriving DecidableEq, Repr

/-- What the package sends out of itself. [Log DESIGN CHOICE 209] -/
inductive Output where
  /-- A message-signalled interrupt at a vector (R555). -/
  | interrupt (vector : Nat)
  /-- A JP2 message to a requester (R584, R585): type, RSEQ, object, error, offset, payload. -/
  | jp2 (dest : Requester) (type rseq obj error offset : Nat) (payload : List Byte)
  /-- A packet to the group peer at a position, by its direct link or by the peer `via` (R363): requests, answers, messages of
  collectives and of control. -/
  | packet (pos via : Nat) (p : Packet)
  /-- A packet of mail or of a collective over a between-group link. -/
  | mailOut (link : Nat) (p : Packet)
  /-- A request on a link that the flit of a sequence number, and all after it, be sent again (R351). -/
  | resendFlits (link seq : Nat)
  /-- The acknowledgement that a link carries: the number of the flit wanted next (R351). -/
  | flitAck (link seq : Nat)
  /-- The value that the TAP shifts out of a wrapper's data register (R328). -/
  | tap (value : Nat)
  /-- The node joins the agreement of a SNAP with its warning, fit and drain state (R499). -/
  | agreement (warning fit ended : Bool)
  /-- A back-invalidate of a line that the host may hold (R558). -/
  | backInvalidate (line : Nat)
  /-- A write of bytes to host memory (R535, R543), and word that the 64 B from a host address of it went out poisoned (R550). -/
  | hostWrite (addr : Nat) (bytes : List Byte)
  | hostPoison (addr : Nat)
  /-- The answer to a host read of device memory: 64 B and whether they are poisoned (R557). -/
  | hostData (atom : Nat) (bytes : List Byte) (poison : Bool)
  /-- The answer of the dictionary to a request (R578). -/
  | dictionary (dest : Requester) (obj code : Nat)
  /-- An answer over JP1 (R588): the source it goes to, object, error and value. -/
  | jp1 (dest obj error : Nat) (value : List Byte)
  /-- The answer to an SPDM request (R560, R561): its session, or the requester. -/
  | spdm (dest : Requester) (m : SpdmAnswer)
  /-- The answers of the management port to ARP and to ICMP echo (R583). -/
  | arp (dest mac : Nat)
  | echo (dest : Nat) (data : List Byte)
  deriving DecidableEq, Repr

/-- A packet in the retry buffer of a link (R351): the link, the number of its first flit and how many flits it takes. -/
structure LinkFlits where
  link : Nat
  seq : Nat
  count : Nat
  out : Output
  deriving DecidableEq, Repr

/-- A packet that waits for a link, in its traffic class (R361, R399). -/
structure LinkPacket where
  link : Nat
  cls : Nat
  out : Output
  deriving DecidableEq, Repr

/-- An answer kept for a repeated `RSEQ` (R587). -/
structure Answer where
  who : Requester
  rseq : Nat
  answer : Output
  deriving DecidableEq, Repr

/-- A step whose digests have not been compared with the partner's (R469): its number, node digest, and stream digests by
logical bay * 8 + stream. -/
structure XwStep where
  tstep : Nat
  digest : Nat
  streams : List (Nat × Nat)
  deriving DecidableEq, Repr

/-- A step whose node digests differ (R472): its number, and once the streams have been compared the first that differs,
both digests of it, and how many differ. -/
structure XwDiff where
  tstep : Nat
  found : Bool
  stream : Nat
  ours : Nat
  theirs : Nat
  count : Nat
  deriving DecidableEq, Repr

/-- A command of a submission queue in progress (R541, R542): its queue (64 once the queue is gone), identifier and fields,
and whether it has started and waits for something. -/
structure HostCmd where
  queue : Nat
  cid : Nat
  opc : Nat
  cflags : Nat
  arg0 : Nat
  arg1 : Nat
  arg2 : Nat
  started : Bool
  deriving DecidableEq, Repr

/-- The part of the state that the register sets of R660 show, as latched at a time; `draw` numbers the values that the
latch leaves open. -/
structure SetView where
  time : Nat
  draw : Nat
  regs : Store (Reg × Nat) Nat
  bays : Store Nat Bay
  harts : Store Nat Hart
  narrow : List Narrow
  fills : List Nat
  segments : Store Nat Nat
  tagged : List Nat
  /-- The lowest copy front of each stack (R344). -/
  fronts : List Nat
  deriving DecidableEq, Repr

/-- The state of the package. -/
structure State where
  /-- The commands that are waiting, first in, first out. -/
  pending : List Instr
  /-- The package timebase, in ns (R604). -/
  now : Nat
  /-- The model's own: values left open by the spec that have been drawn so far. -/
  free : Nat
  /-- Every register, sparse (R568). -/
  regs : Store (Reg × Nat) Nat
  /-- Values written to objects that apply at the next time-step boundary (R94, R241). -/
  deferred : List ((Reg × Nat) × Nat)
  /-- Node memory: the stacks and the scratchpads, sparse (R302). -/
  mem : List Host.Cell
  /-- Atoms of 64 B and words of 16 B that are marked poisoned, by address, rising (R300, R336). -/
  poisonAtoms : List Nat
  poisonWords : List Nat
  /-- The logical bays (R197). -/
  bays : Store Nat Bay
  /-- The targeted self-tests and spare-ins in progress, in order of detection (R484, R490). -/
  tests : List SelfTest
  /-- Models resident in the roster parts of LLM; the Tailwind queue of each die, oldest first, of which the oldest has started;
  and the number of the last binding on a die, in the order of bindings, by die * 4096 + roster index (R139 to R142). -/
  copies : List ModelCopy
  tailwind : List TailwindCopy
  recent : Store Nat Nat
  /-- Fabric: next sequence number to send and to accept, by node and class; packets ahead of their turn; requests without
  an answer (R365, R382). -/
  seqOut : Store Nat Nat
  seqIn : Store Nat Nat
  early : List (Nat × Packet)
  requests : List Request
  /-- Links: packets whose flits have not been acknowledged, packets that wait for their link, and the number of the next flit of
  each link (R351, R361); packets for a position that no way reaches (R365). -/
  retry : List LinkFlits
  linkQueue : List LinkPacket
  flitNext : Store Nat Nat
  stuck : List (Nat × Packet)
  /-- Answers given to the requests of peers, for a request that comes again (R365); the latest refusal of each source and class,
  with the packets of it served since, for a signal of the same operation (R384). -/
  answered : List Packet
  refusals : List (Nat × Nat)
  /-- Answers that have come for harts. -/
  hartReplies : List HartReply
  /-- The logical harts (R244, R245); the store buffers of the cores, oldest entry first; and the reservations, by hart and
  64 B line. -/
  harts : Store Nat Hart
  stores : List HartStore
  reservations : List (Nat × Nat)
  /-- PCLK cycles of the general cores of PD0 and PD1 so far, in thousandths (R256). -/
  pclks : Nat × Nat
  /-- The region table (R374). -/
  regions : List Region
  /-- Ordered RACC: staged contributions, close messages by round and source, rounds that have ended here without a close
  message yet, the bays' counts of RACC entries, and the FENCE steps completed by bay in this time step (R387, R388). -/
  staged : List Staged
  closes : List (Nat × Nat)
  roundsEnded : List Nat
  raccIssue : Store Nat Nat
  fences : List (Nat × Nat)
  /-- Link states of each group peer, 16 slots each, from its messages (R363). -/
  peerLinks : Store Nat Nat
  /-- Mail: messages at their source, oldest first; next message number per destination; what has arrived of the latest message of each
  source; packets in transit that wait for an exit (R373, R395, R396). -/
  mails : List Mail
  mailNext : Store Nat Nat
  mailIn : List MailIn
  transit : List Packet
  /-- Instances of collectives at this node; those that have ended, with whether they were released (R436); chunks that wait
  for room (R427). -/
  colls : List Coll
  collDone : List (CollId × Bool)
  collHeld : List CollHeld
  /-- The channels; line fills that are out; narrow requests in the windows, in order of arrival; soft remaps, and rows being
  copied; channels whose map-out has been decided and not yet switched; the one-time repair journals, by stack * 512 +
  entry; repairs whose fuse pulse runs (R307 to R341). -/
  chans : Store Nat Channel
  fills : List Nat
  narrow : List Narrow
  /-- Lines known to be in the LLM of their home die, 1 clean and 2 dirty (R333, R335); words that its ECC has corrected, by slice
  unit and word (R336); requests that wait for a channel that retrains, in order of arrival, each with its channel, and those of
  agents that its full queue stalls (R308); narrow requests of agents that stand still (R342); requests that wait for a slice's
  MBIST, each with its slice (R336); absent lines whose fill has been asked for, with the ranges written meanwhile (R333); lines of the
  channel that migrates that have been written at their new places, and how many the migration has copied by itself (R315); and the
  marked atoms of slots, shard stores and the reserve (R300). -/
  llm : Store Nat Nat
  corrections : List (Nat × Nat)
  chanQueue : List (Nat × ChanReq)
  chanStalled : List (Nat × ChanReq)
  narrowHeld : List Narrow
  sliceHeld : List (Nat × SliceReq)
  merging : List (Nat × List (Nat × Nat))
  moved : List Nat
  migrated : Nat
  spareMarks : List SpareMark
  remaps : List Remap
  remapping : List (Nat × Nat)
  mapoutWaits : List Nat
  journal : Store Nat Nat
  pulses : List Pulse
  /-- Rows repaired by soft post-package repair, by stack and element (R328). -/
  softPpr : List (Nat × Nat)
  /-- Segments of the bridges, by bridge * 256 + segment: 0 full, 1 spare wire in use, 2 switched off (R485, R486). -/
  segments : Store Nat Nat
  /-- Snapshot slots A and B, the shards held for peers, and the drains of this node's slots (R501 to R510). -/
  slotA : Slot
  slotB : Slot
  shards : List Shard
  drains : List Drain
  /-- A recovery in progress; the epochs that the loaded job has had; node digests kept for this node by step, and for the members of the group by logical node and
  step (R511 to R523). -/
  recovery : Option Recovery
  jobEpochs : List Nat
  kept : List (Nat × Nat)
  keptFor : List (Nat × Nat × Nat)
  /-- Lines that the host may hold, granted longest ago first; writes of lines that wait for their back-invalidate (R558). -/
  hostLines : List Nat
  waiting : List (Nat × List Byte)
  /-- Crosswind: the partner's pairing message; own steps not yet compared; the partner's node digests by step; the partner's
  stream digests of a step; a step that differs (R467 to R472). -/
  xwMsg : Option XwPairing
  xwOwn : List XwStep
  xwTheirs : List (Nat × Nat)
  xwStreams : Option (Nat × List (Nat × Nat))
  xwDiff : Option XwDiff
  /-- Entries of submission rings in host memory that have been rung and not fetched, by queue, in order; commands of the
  submission queues in progress, in order of fetch (R540, R541). -/
  rung : List (Nat × List Byte)
  cmds : List HostCmd
  /-- Completions that wait for room in their queue (R544). -/
  cqHeld : List Completion
  /-- The error log, newest first, at most 4,096 records (R477). -/
  errorLog : List ErrorRecord
  /-- Events of frequent classes per element in its current second: (code and element, second, count) (R494). -/
  squallEvents : Store Nat (Nat × Nat)
  /-- The audit ring, newest first, at most 8,192 entries (R596). -/
  audit : List AuditEntry
  /-- The mirror of the audit ring in the stack reserve, newest first (R597). -/
  mirror : List AuditEntry
  /-- The SPDM sessions (R562, R574). -/
  sessions : List Session
  /-- The BLOB assemblies (R581). -/
  assemblies : List Assembly
  /-- The kept answers, newest first (R587). -/
  answers : List Answer
  /-- The open subscriptions (R590, R602). -/
  subs : List Subscription
  /-- The register sets as frozen, none before the first freeze since cold reset (R661). -/
  frozen : Option SetView
  /-- The sets of domains that latched late, by domain (R658). -/
  late : List (Nat × SetView)
  /-- What the package has sent, newest first. -/
  out : List Output
  deriving DecidableEq, Repr

/-- The machine right after reset: VIN_AON has just been applied (R629), every register at its default, nothing
listed in memory. [Log DESIGN CHOICE 2, 3] -/
def State.reset : State where
  pending := []
  now := 0
  free := 0
  regs := []
  deferred := []
  mem := []
  poisonAtoms := []
  poisonWords := []
  bays := []
  tests := []
  copies := []
  tailwind := []
  recent := []
  seqOut := []
  seqIn := []
  early := []
  requests := []
  retry := []
  linkQueue := []
  flitNext := []
  stuck := []
  answered := []
  refusals := []
  hartReplies := []
  pclks := (0, 0)
  harts := []
  stores := []
  reservations := []
  regions := []
  staged := []
  closes := []
  roundsEnded := []
  raccIssue := []
  fences := []
  peerLinks := []
  mails := []
  mailNext := []
  mailIn := []
  transit := []
  colls := []
  collDone := []
  collHeld := []
  chans := []
  fills := []
  narrow := []
  llm := []
  corrections := []
  chanQueue := []
  chanStalled := []
  narrowHeld := []
  sliceHeld := []
  merging := []
  moved := []
  migrated := 0
  spareMarks := []
  remaps := []
  remapping := []
  mapoutWaits := []
  journal := []
  pulses := []
  softPpr := []
  segments := []
  slotA := Slot.empty
  slotB := Slot.empty
  shards := []
  drains := []
  recovery := none
  jobEpochs := []
  kept := []
  keptFor := []
  hostLines := []
  waiting := []
  xwMsg := none
  xwOwn := []
  xwTheirs := []
  xwStreams := none
  xwDiff := none
  rung := []
  cmds := []
  cqHeld := []
  errorLog := []
  squallEvents := []
  audit := []
  mirror := []
  sessions := []
  assemblies := []
  answers := []
  subs := []
  frozen := none
  late := []
  out := []

/-- The faults of the model. None is raised: every command of the package has an effect on every state. -/
inductive Fault where
  /-- An access to a node address that does not exist. No command raises it: each rule that can meet such an address names its
  own answer (R304). Safe. -/
  | unpopulated (addr : Nat)
  deriving DecidableEq, Repr

/-- The refusals of the model. -/
inductive Refusal where
  /-- A command that the model does not give a meaning to. Safe. -/
  | notModelled (mnemonic : String)
  deriving DecidableEq, Repr

/-- What a command answers. -/
abbrev Res := Host.Outcome State Fault Refusal

end Sys2Proof.Machine
end

