-- ==== Sys2Proof/Machine/Ops.lean ====
section
/-! DEFINITION. The named operations over registers and node memory. -/

namespace Sys2Proof.Machine

/-! Registers. -/

/-- Order of register keys: by register, then by element index. -/
def regLt (a b : Reg × Nat) : Bool :=
  decide (a.1.ctorIdx < b.1.ctorIdx) || (decide (a.1.ctorIdx = b.1.ctorIdx) && decide (a.2 < b.2))

/-- What a register reads as while it is not listed. -/
def regDflt (k : Reg × Nat) : Nat := k.1.dflt k.2

/-- Number of values of one element of a register. -/
def Reg.modulus (r : Reg) : Nat := 256 ^ r.info.esize

/-- Read of one register. -/
def State.reg (s : State) (r : Reg) (i : Nat := 0) : Nat := Store.get regDflt s.regs (r, i)

/-- Write of one register, at its width. -/
def State.setReg (s : State) (r : Reg) (i v : Nat) : State :=
  { s with regs := Store.set regLt regDflt s.regs (r, i) (v % r.modulus) }

/-- A count raised by `n`. -/
def State.addReg (s : State) (r : Reg) (i n : Nat) : State := s.setReg r i (s.reg r i + n)

/-- A bit of a register. -/
def State.flag (s : State) (r : Reg) (i b : Nat) : Bool := bit (s.reg r i) b

/-- A bit of a register set or cleared. -/
def State.setFlag (s : State) (r : Reg) (i b : Nat) (v : Bool) : State :=
  s.setReg r i (if v then withBit (s.reg r i) b else withoutBit (s.reg r i) b)

/-- Several elements of a register, from element `i` onward. -/
def State.setRegs (s : State) (r : Reg) : Nat → List Nat → State
  | _, [] => s
  | i, v :: vs => (s.setReg r i v).setRegs r (i + 1) vs

/-- The registers of a reset domain return to their defaults (R570). -/
def State.clearDomain (s : State) (d : Domain) : State :=
  { s with regs := s.regs.filter fun e => e.1.1.info.domain ≠ d }

/-- A register returns to its default in every element. -/
def State.clearReg (s : State) (r : Reg) : State :=
  { s with regs := s.regs.filter fun e => e.1.1 ≠ r }

/-- The bytes of one instance of an object, element by element (R15, R569). -/
def State.regBytes (s : State) (r : Reg) (inst : Nat) : List Byte :=
  (List.range r.info.elems).flatMap fun e => leBytes r.info.esize (s.reg r (inst * r.info.elems + e))

/-- One instance of an object takes new bytes. -/
def State.setBytes (s : State) (r : Reg) (inst : Nat) (bs : List Byte) : State :=
  s.setRegs r (inst * r.info.elems) ((pieces r.info.esize r.info.elems bs).map ofLe)

/-- A new draw of a value that the spec leaves open: its number, and the state after. [Log DESIGN CHOICE 8] -/
def State.draw (s : State) : Nat × State := (s.free, { s with free := s.free + 1 })

/-- The package sends something. [Log DESIGN CHOICE 209, 211] -/
def State.send (s : State) (o : Output) : State := { s with out := o :: s.out }

/-! Node memory. An unlisted byte reads 0 (DESIGN CHOICE). -/

/-- Read of one byte of node memory. [Log DESIGN CHOICE 1] -/
def State.byte (s : State) (a : Nat) : Byte := Store.at 0 s.mem a

/-- Write of one byte of node memory. It ends every reservation of its 64 B line. -/
def State.setByte (s : State) (a : Nat) (b : Byte) : State :=
  { s with mem := Store.put 0 s.mem a b, reservations := s.reservations.filter fun r => r.2 ≠ a / 64 }

/-- Read of `n` bytes of node memory. -/
def State.bytes (s : State) (a n : Nat) : List Byte := (List.range n).map fun k => s.byte (a + k)

/-- Write of bytes of node memory. -/
def State.putBytes (s : State) (a : Nat) : List Byte → State
  | [] => s
  | b :: bs => (s.setByte a b).putBytes (a + 1) bs

/-- Read of an `n`-byte little-endian number of node memory. -/
def State.load (s : State) (a n : Nat) : Nat := ofLe (s.bytes a n)

/-- Write of an `n`-byte little-endian number of node memory. -/
def State.store (s : State) (a n v : Nat) : State := s.putBytes a (leBytes n v)

/-- A range of node memory returns to what unwritten memory reads as. [Log DESIGN CHOICE 1] -/
def State.wipe (s : State) (lo hi : Nat) : State :=
  { s with mem := s.mem.filter fun e => ¬ (lo ≤ e.1 ∧ e.1 < hi) }

/-! Time (R604, R605). -/

/-- The PTP unit is enabled (R627, R628). -/
def State.ptpOn (s : State) : Bool := s.flag .periphEn 0 1

/-- How much of the present slew has been made: at most 100 ppm of the time since it began (R609).
[Log DESIGN CHOICE 57] -/
def State.slewed (s : State) : Int :=
  let want := signed 64 (s.reg .taiSlew)
  let room : Int := (s.now - s.reg .taiSlewAt) / 10000
  max (-room) (min room want)

/-- TAI now: the timebase plus the offset that the PTP unit steers; the timebase while that unit is disabled (R605, R609,
R628). -/
def State.tai (s : State) : Nat :=
  if s.ptpOn then (((s.now + s.reg .taiOffset : Nat) : Int) + s.slewed).toNat % 2 ^ 64 else s.now % 2 ^ 64

/-- `TAI_STATE`: FREE while the PTP unit is disabled (R608, R628). -/
def State.taiCode (s : State) : Nat := if s.ptpOn then s.reg .taiState else 0

/-- TAI is locked to a reference (R608). -/
def State.taiLocked (s : State) : Bool := s.taiCode = 2 || s.taiCode = 3

/-- The migration of a mapped-out channel goes on while the stacks are trained, and pauses while a snapshot copy runs (R315, R321).
[Log DESIGN CHOICE 128] -/
def State.migrate (s : State) : State :=
  if s.reg .migrationLeft = 0 || s.slotA.state = 1 || s.slotB.state = 1 ||
      s.reg .inReset ≠ 0 || s.reg .stackRailsIn = 0 || s.reg .stageStarted < 3 then s
  else
    { s with
      migrated := min (s.reg .migrationLeft / 128) (s.migrated + (Config.migrationPace s.free).toNat)
      free := s.free + 1 }

/-- A tick: the package timebase counts 1 ns while `VIN_AON` is present, the clocks of the processor dies count their cycles, and a
migration goes on (R256, R315, R604). [Log DESIGN CHOICE 5] -/
def tick (s : State) : State :=
  if s.reg .aonAbsent = 0 then
    { s with now := s.now + 1, pclks := (s.pclks.1 + s.reg .clkMhz 8, s.pclks.2 + s.reg .clkMhz 9) }.migrate
  else s

end Sys2Proof.Machine
end

