-- ==== Sys2Proof/Machine/Hash.lean ====
section
/-! DEFINITION. Where a stack address lies: the channel hash and the redirect map (R305, R311 to R314), and the home die
(R17, R179). -/

namespace Sys2Proof.Machine

/-- Within-channel index of a stack address (R305). -/
def lineIndex (a : Nat) : Nat := a / 2 ^ 17

/-- Primary channel of a stack address (R305). -/
def primaryChannel (a : Nat) : Nat :=
  let u := a / 128
  let i := u / 1024
  (u % 1024) ^^^ (i % 1024) ^^^ (i / 2 ^ 10 % 1024) ^^^ (i / 2 ^ 20 % 16)

/-- A chunk of a channel: 16,384 lines (R311). -/
abbrev Chunk := Nat × Nat

/-- Insertion of an item by a key. -/
def insertBy {A : Type} (key : A → Nat) (x : A) : List A → List A
  | [] => [x]
  | y :: ys => if key x ≤ key y then x :: y :: ys else y :: insertBy key x ys

/-- A list in rising order of a key. -/
def sortBy {A : Type} (key : A → Nat) (xs : List A) : List A := xs.foldr (insertBy key) []

/-- The redirect map after one more map-out: channel `x` is the `k`-th, `outs` the channels before it (R312, R313). -/
def redirectStep (outs : List Nat) (k x : Nat) (m : List (Chunk × Chunk)) : List (Chunk × Chunk) :=
  let top := 1024 - k
  let own := (List.range top).map fun c => ((x, c) : Chunk)
  let live := m.filter fun e => e.1.2 < top
  let into := (live.filter fun e => e.2.1 = x).map Prod.fst
  let freed := (m.filter fun e => e.1.2 = top && e.2.1 ≠ x).map Prod.snd
  let fresh := ((List.range 1024).filter fun c => c ≠ x && !outs.contains c).map fun c => ((c, top) : Chunk)
  let data := sortBy (fun (c : Chunk) => c.1 * 1024 + c.2) (own ++ into)
  let places := sortBy (fun (c : Chunk) => (c.1 ^^^ x) * 1024 + c.2) (freed ++ fresh)
  (live.filter fun e => e.2.1 ≠ x) ++ data.zip places

/-- The redirect map after the map-outs of a list, in order, the first being the `k`-th (R313). -/
def redirectMap (outs : List Nat) (m : List (Chunk × Chunk)) (k : Nat) : List Nat → List (Chunk × Chunk)
  | [] => m
  | x :: xs => redirectMap (outs ++ [x]) (redirectStep outs k x m) (k + 1) xs

/-- Channels mapped out, in order (R313). -/
def State.mapouts (s : State) : List Nat :=
  ((List.range 32).map fun k => s.reg .mapoutOrder k).takeWhile fun c => c < 1024

/-- Channel and within-channel index of a stack address, after the map-outs of a list (R305, R314). -/
def placeAfter (outs : List Nat) (a : Nat) : Nat × Nat :=
  let c := primaryChannel a
  let i := lineIndex a
  if outs.contains c then
    match (redirectMap [] [] 1 outs).lookup (c, i / 16384) with
    | some p => (p.1, p.2 * 16384 + i % 16384)
    | none => (c, i)
  else (c, i)

/-- The channel that holds a stack address now (R305, R314). -/
def State.channelOf (s : State) (a : Nat) : Nat := (placeAfter s.mapouts a).1

/-- A line of the channel that migrates has not moved yet: it has not been written since, and the migration, which goes by rising
index, has not come to it (R315). The channel is the last that was mapped out. [Log DESIGN CHOICE 128] -/
def State.unmoved (s : State) (line : Nat) : Bool :=
  let p := placeAfter s.mapouts.dropLast (128 * line)
  s.reg .migrationLeft ≠ 0 && decide (128 * line < s.reg .stackTop) && !s.moved.contains line &&
    decide (s.migrated ≤ p.2) && some p.1 = s.mapouts.getLast?

/-- Bytes that the migration has still to move (R315, R348). [Log DESIGN CHOICE 128] -/
def State.migrationBytes (s : State) : Nat :=
  s.reg .migrationLeft - 128 * (s.migrated +
    (s.moved.filter fun l => s.migrated ≤ (placeAfter s.mapouts.dropLast (128 * l)).2).length)

/-- Channel and within-channel index where the bytes of a stack address lie: until it has moved, a line of the channel that
migrates lies there (R299, R315). -/
def State.placeOf (s : State) (a : Nat) : Nat × Nat :=
  placeAfter (if s.unmoved (a / 128) then s.mapouts.dropLast else s.mapouts) a

/-- Home die of an address: of the stack that holds it, or of the scratchpad (R17, R179). -/
def State.homeDie (s : State) (a : Nat) : Nat :=
  if a < 0x20000000000 then s.channelOf a / 128 else min ((a - 0x20000000000) / 0x18000000) 7

/-- The stack that holds an address. -/
def State.stackOf (s : State) (a : Nat) : Nat := s.channelOf a / 32

/-- Logical LLM slice of an address within its home die (R332). -/
def sliceOf (a : Nat) : Nat :=
  let u := a / 128
  if a < 0x20000000000 then (List.range 7).foldl (fun x k => x ^^^ (u / 32 ^ k % 32)) 0
  else (a - 0x20000000000) % 0x18000000 / 128 % 32

/-- The row of the line at a place, as bits [31:5] of a journal entry, shifted down (R299, R325): channel within the stack,
pseudo-channel, bank and row. Rows 32,768 to 40,959 are the spare region's. -/
def rowAt (p : Nat × Nat) : Nat :=
  p.1 % 32 + (p.2 % 2) * 2 ^ 5 + (p.2 / 16 % 32) * 2 ^ 6 + (p.2 / 512) * 2 ^ 11

/-- Column position of the line at a place in its row (R299). -/
def columnAt (p : Nat × Nat) : Nat := p.2 / 2 % 8

/-- Within-channel index of the line at a column of a row (R299). -/
def indexIn (row col : Nat) : Nat := row / 2 ^ 5 % 2 + 2 * col + 16 * (row / 2 ^ 6 % 32) + 512 * (row / 2 ^ 11)

/-- The row in which a stack line lies. -/
def State.rowOf (s : State) (a : Nat) : Nat := rowAt (s.placeOf a)

/-- The stack address whose line a channel holds at a within-channel index, none in the spare region (R297, R305, R313). -/
def State.addressAt (s : State) (ch i : Nat) : Option Nat :=
  if 16777216 ≤ i then none
  else
    let (c, j) := match (redirectMap [] [] 1 s.mapouts).find? fun e => e.2 = (ch, i / 16384) with
      | some e => (e.1.1, e.1.2 * 16384 + i % 16384)
      | none => (ch, i)
    some ((j * 1024 + (c ^^^ (j % 1024) ^^^ (j / 2 ^ 10 % 1024) ^^^ (j / 2 ^ 20 % 16))) * 128)

/-- The address of a row of a channel: that of its first line, 0 for a row that no node address names (R478).
[Log DESIGN CHOICE 234] -/
def State.rowAddress (s : State) (ch row : Nat) : Nat := (s.addressAt ch (indexIn row 0)).getD 0

end Sys2Proof.Machine
end

