-- ==== Sys2Proof/Machine/Audit.lean ====
section
/-! DEFINITION. The audit log (R593 to R603), and the changes that the package makes to its own objects. -/

namespace Sys2Proof.Machine

/-- A value as an audit entry holds it (R595). -/
def auditValue (bs : List Byte) : AuditValue :=
  if bs.length ≤ 16 then .inline bs else .digest ((Config.sha384 bs).setWidth 128)

/-- The smaller of a list of numbers, or `d` for none. -/
def minOr (d : Nat) : List Nat → Nat
  | [] => d
  | a :: as => as.foldl min a

/-- The highest SEQ that every holder holds; with no holder, what the mirror holds (R598). -/
def State.heldSeq (s : State) : Nat :=
  minOr (s.reg .auditMirrorHead)
    ((if s.reg .auditHostHold = 1 then [s.reg .hostHoldAcked] else []) ++
     (s.subs.filter fun u => u.audit && u.hold).map (·.acked))

/-- `AUDIT_ACKED` follows the holders and never falls (R598). -/
def State.refreshAcked (s : State) : State :=
  s.setReg .auditAcked 0 (max (s.reg .auditAcked) s.heldSeq)

/-- The audit ring has room for the entry of an external write (R599). -/
def State.auditRoom (s : State) : Bool := s.reg .auditHead + 1 ≤ s.reg .auditAcked + 8192

/-- A value as the 16 B of an audit entry hold it (R595). -/
def AuditValue.bytes : AuditValue → List Byte
  | .inline bs => (bs ++ List.replicate 16 0).take 16
  | .digest d => leBytes 16 d.toNat

/-- The 64 B of an audit entry (R594). -/
def AuditEntry.bytes (e : AuditEntry) : List Byte :=
  leBytes 8 e.seq ++ leBytes 8 e.tai ++ leBytes 3 e.obj ++ leBytes 1 e.origin ++ leBytes 2 e.principal ++
    leBytes 1 e.result ++ leBytes 1 e.aflags ++ leBytes 4 e.len ++ leBytes 4 0 ++ e.old.bytes ++ e.new.bytes

/-- The entries that the ring or the mirror holds from a `SEQ` onward, in `SEQ` order (R602). -/
def State.entriesFrom (s : State) (seq : Nat) : List AuditEntry :=
  let ring := (s.audit.filter fun e => seq ≤ e.seq).reverse
  let low := (ring.head?.map AuditEntry.seq).getD (s.reg .auditHead + 1)
  (s.mirror.filter fun e => decide (seq ≤ e.seq ∧ e.seq < low)).reverse ++ ring

/-- Groups of at most 21 entries, the most that a message carries (R585). -/
def grouped : Nat → List AuditEntry → List (List AuditEntry)
  | 0, _ => []
  | k + 1, es => if es.isEmpty then [] else es.take 21 :: grouped k (es.drop 21)

/-- AUDIT_EVENT messages to a subscriber, from a `SEQ` onward (R585, R602). -/
def State.sendEvents (s : State) (who : Requester) (seq : Nat) : State :=
  let es := s.entriesFrom seq
  (grouped es.length es).foldl (fun (u : State) g => u.send (.jp2 who 0x23 0 0 0 0 (g.flatMap AuditEntry.bytes))) s

/-- Every audit subscription is sent the entries that it has not been sent (R602). [Log DESIGN CHOICE 44] -/
def State.pumpAudit (s : State) : State :=
  let head := s.reg .auditHead
  if s.reg .mclkRuns = 0 || s.subs.isEmpty then s
  else
    let t := s.subs.foldl (fun (u : State) x => if x.audit && decide (x.next ≤ head) then u.sendEvents x.who x.next else u) s
    { t with subs := t.subs.map fun (x : Subscription) =>
        if x.audit && decide (x.next ≤ head) then { x with next := head + 1 } else x }

/-- One more audit entry (R594, R596). An entry that overwrites an unacknowledged one counts it in `AUDIT_LOST` (R600). -/
def State.appendAudit (s : State) (obj origin principal result flags : Nat) (old new : List Byte) : State :=
  let seq := s.reg .auditHead + 1
  let lost := !s.auditRoom
  let f := flags + ofBool (decide (16 < old.length)) + 2 * ofBool (decide (16 < new.length)) +
    4 * ofBool (!s.taiLocked) + 8 * ofBool (decide (old = new)) + 32 * ofBool lost
  let e : AuditEntry :=
    ⟨seq, s.tai, obj, origin, principal, result, f, new.length, auditValue old, auditValue new⟩
  let s := { s with audit := (e :: s.audit).take 8192 }
  let s := s.setReg .auditHead 0 seq
  (if lost then s.addReg .auditLost 0 1 else s).pumpAudit

/-- An entry of origin internal policy (R593, R600). [Log DESIGN CHOICE 64] -/
def State.auditInternal (s : State) (obj result : Nat) (old new : List Byte) : State :=
  s.appendAudit obj 5 0xFFFE result 0 old new

/-- The dictionary address of an instance of a register (index * 256 + subindex). -/
def Reg.objAt (r : Reg) (inst : Nat) : Nat := r.info.addr + 256 * inst

/-- A configuration object, or an RO object of `AUDITED_STATE` (R589). -/
def Reg.logged (r : Reg) : Bool :=
  let i := r.info
  i.audited || (!i.dynamic && (i.access = .rwOp || i.access = .rwAdm || i.access = .rwSvc || i.access = .woAdm))

/-- The package changes one of its own registers; a change of a configuration object or of an audited state object is
logged with origin internal policy (R589, R593). [Log DESIGN CHOICE 64] -/
def State.change (s : State) (r : Reg) (i v : Nat) : State :=
  if s.reg r i = v % r.modulus then s
  else
    let inst := i / r.info.elems
    let t := s.setReg r i v
    if r.logged then t.auditInternal (r.objAt inst) 0 (s.regBytes r inst) (t.regBytes r inst) else t

/-- The package changes several elements of one instance as one logged change. -/
def State.changeAll (s : State) (r : Reg) (inst : Nat) (vs : List Nat) : State :=
  let t := s.setRegs r (inst * r.info.elems) vs
  if r.logged && decide (s.regBytes r inst ≠ t.regBytes r inst) then
    t.auditInternal (r.objAt inst) 0 (s.regBytes r inst) (t.regBytes r inst)
  else t

/-- A bit of a register set by the package. -/
def State.raise (s : State) (r : Reg) (b : Nat) : State := s.change r 0 (withBit (s.reg r) b)

/-- A bit of a register cleared by the package. -/
def State.lower (s : State) (r : Reg) (b : Nat) : State := s.change r 0 (withoutBit (s.reg r) b)

end Sys2Proof.Machine
end

