-- ==== Sys2Proof/Machine/Numbers.lean ====
section
/-! DEFINITION. Exact numbers, the number formats, and the one rounding of the package (R50 to R72). -/

namespace Sys2Proof.Machine

/-- A number with its zero's sign, an infinity, or a NaN: `fin s m e` is (-1)^s * m * 2^e. NaN payloads and signs do
not exist here, since none is ever propagated (R52). -/
inductive Num where
  | nan
  | inf (neg : Bool)
  | fin (neg : Bool) (m : Nat) (e : Int)
  deriving DecidableEq, Repr

/-- Status bits of R89 and R166. -/
abbrev stInvalid : Nat := 1
abbrev stNanIn : Nat := 2
abbrev stOverflow : Nat := 4
abbrev stSaturated : Nat := 8
abbrev stFlushed : Nat := 16
abbrev stSlowPath : Nat := 32
abbrev stCoarseInvalid : Nat := 64
abbrev stCountCapped : Nat := 128
abbrev stMixed : Nat := 256
abbrev stDivByZero : Nat := 512
abbrev stUnderflow : Nat := 1024
abbrev stMaskEmpty : Nat := 2048

/-- OR of status words. -/
def orStatus (a b : Nat) : Nat := a ||| b

/-- Zero of a sign. -/
def Num.zero (neg : Bool) : Num := .fin neg 0 0

/-- The integer n. -/
def Num.ofInt (n : Int) : Num := .fin (decide (n < 0)) n.natAbs 0

/-- One. -/
def Num.one : Num := .fin false 1 0

/-- The number is a NaN. -/
def Num.isNan : Num → Bool
  | .nan => true
  | _ => false

/-- The number is an infinity. -/
def Num.isInf : Num → Bool
  | .inf _ => true
  | _ => false

/-- The number is a zero of either sign. -/
def Num.isZero : Num → Bool
  | .fin _ m _ => m = 0
  | _ => false

/-- The sign. -/
def Num.neg? : Num → Bool
  | .nan => false
  | .inf s => s
  | .fin s _ _ => s

/-- Magnitude. -/
def Num.abs : Num → Num
  | .nan => .nan
  | .inf _ => .inf false
  | .fin _ m e => .fin false m e

/-- Negation. -/
def Num.negate : Num → Num
  | .nan => .nan
  | .inf s => .inf (!s)
  | .fin s m e => .fin (!s) m e

/-- floor(log2 |x|) of a finite non-zero number. -/
def Num.exponent : Num → Option Int
  | .fin _ m e => if m = 0 then none else some (e + Nat.log2 m)
  | _ => none

/-- Exact product; 0 times an infinity is INVALID (R53, R55). -/
def Num.mul (x y : Num) : Num × Nat :=
  match x, y with
  | .nan, _ => (.nan, stNanIn)
  | _, .nan => (.nan, stNanIn)
  | .inf s, y => if y.isZero then (.nan, stInvalid) else (.inf (s != y.neg?), 0)
  | x, .inf s => if x.isZero then (.nan, stInvalid) else (.inf (x.neg? != s), 0)
  | .fin s m e, .fin t n f => (.fin (s != t) (m * n) (e + f), 0)

/-- x times 2^n. -/
def Num.scale (x : Num) (n : Int) : Num :=
  match x with
  | .fin s m e => .fin s m (e + n)
  | x => x

/-- The smallest exponent among the finite non-zero numbers of a list, from `e` down. -/
def minExponent (e : Int) : List Num → Int
  | [] => e
  | .fin _ m f :: xs => minExponent (if m = 0 then e else min e f) xs
  | _ :: xs => minExponent e xs

/-- A finite number as a multiple of 2^e, for e at most its exponent. -/
def Num.units (e : Int) : Num → Int
  | .fin s m f => let v : Int := m * 2 ^ (f - e).toNat; if s then -v else v
  | _ => 0

/-- Exact sum of a list of terms (R53, R55): a NaN for a NaN term or for infinities of both signs; zero is -0 only when
every term is -0. -/
def sumExact (xs : List Num) : Num × Nat :=
  if xs.any Num.isNan then (.nan, stNanIn)
  else if xs.any (fun x => x.isInf && x.neg?) && xs.any (fun x => x.isInf && !x.neg?) then (.nan, stInvalid)
  else
    match xs.find? Num.isInf with
    | some x => (x, 0)
    | none =>
      let e := xs.foldl (fun a x => match x with | .fin _ m f => if m = 0 then a else min a f | _ => a) 0
      let v := (xs.map (Num.units e)).foldl (· + ·) 0
      if v = 0 then (.zero (!xs.isEmpty && xs.all fun x => x.neg?), 0)
      else (.fin (decide (v < 0)) v.natAbs e, 0)

/-- Exact sum of terms whose NaNs have raised their status where they arose, as inputs or as INVALID products (R53).
[Log DEDUCED 212] -/
def sumTerms (xs : List Num) : Num × Nat :=
  let r := sumExact xs
  (r.1, if xs.any Num.isNan then 0 else r.2)

/-- Quotient of two finite non-zero magnitudes with 160 bits and a sticky bit below them. -/
def divMagnitude (m : Nat) (e : Int) (n : Nat) (f : Int) : Nat × Int :=
  let k := 160 + Nat.log2 n
  let q := m * 2 ^ k / n
  let r := m * 2 ^ k % n
  (2 * q + (if r = 0 then 0 else 1), e - f - k - 1)

/-- Quotient (R158), exact up to a sticky bit far below any rounding. -/
def Num.div (x y : Num) : Num × Nat :=
  match x, y with
  | .nan, _ => (.nan, stNanIn)
  | _, .nan => (.nan, stNanIn)
  | .inf _, .inf _ => (.nan, stInvalid)
  | .inf s, y => (.inf (s != y.neg?), 0)
  | x, .inf s => (.zero (x.neg? != s), 0)
  | .fin s m e, .fin t n f =>
    if n = 0 then (if m = 0 then (.nan, stInvalid) else (.inf (s != t), stDivByZero))
    else if m = 0 then (.zero (s != t), 0)
    else let (q, g) := divMagnitude m e n f; (.fin (s != t) q g, 0)

/-- Integer square root of `n`, bit by bit from bit `b`. -/
def isqrtBits (n : Nat) : Nat → Nat → Nat
  | 0, r => r
  | b + 1, r => isqrtBits n b (if (r + 2 ^ b) * (r + 2 ^ b) ≤ n then r + 2 ^ b else r)

/-- Integer square root. -/
def isqrt (n : Nat) : Nat := isqrtBits n (Nat.log2 n / 2 + 1) 0

/-- Square root (R158), exact up to a sticky bit. -/
def Num.sqrt (x : Num) : Num × Nat :=
  match x with
  | .nan => (.nan, stNanIn)
  | .inf s => if s then (.nan, stInvalid) else (.inf false, 0)
  | .fin s m e =>
    if m = 0 then (.zero s, 0)
    else if s then (.nan, stInvalid)
    else
      let m' := if e % 2 = 0 then m else 2 * m
      let e' := if e % 2 = 0 then e else e - 1
      let r := isqrt (m' * 2 ^ 320)
      (.fin false (2 * r + (if r * r = m' * 2 ^ 320 then 0 else 1)) (e' / 2 - 161), 0)

/-- Order of two numbers; none with a NaN. Zeros of both signs are equal. -/
def Num.cmp (x y : Num) : Option Ordering :=
  match x, y with
  | .nan, _ => none
  | _, .nan => none
  | .inf s, .inf t => some (if s = t then .eq else if s then .lt else .gt)
  | .inf s, _ => some (if s then .lt else .gt)
  | _, .inf t => some (if t then .gt else .lt)
  | .fin s m e, .fin t n f =>
    let g := min e f
    some (compare (Num.units g (.fin s m e)) (Num.units g (.fin t n f)))

/-- x is smaller than y, with -0 below +0; both not NaN (R158). -/
def Num.below (x y : Num) : Bool :=
  match x.cmp y with
  | some .lt => true
  | some .eq => x.isZero && x.neg? && !y.neg?
  | _ => false

/-- Smaller or larger of two numbers; NaN with any NaN (R158). -/
def Num.minmax (big : Bool) (x y : Num) : Num :=
  if x.isNan || y.isNan then .nan
  else if big then (if x.below y then y else x) else (if y.below x then y else x)

/-- m * 2^k to the nearest integer, ties to even (R50). -/
def roundEven (m : Nat) (k : Int) : Nat :=
  if 0 ≤ k then m * 2 ^ k.toNat
  else
    let d := 2 ^ (-k).toNat
    let q := m / d
    let r := m % d
    if d < 2 * r ∨ (2 * r = d ∧ q % 2 = 1) then q + 1 else q

/-- A binary format with `expBits` exponent bits and `fracBits` fraction bits (R56). -/
structure Ieee where
  expBits : Nat
  fracBits : Nat
  deriving DecidableEq, Repr

/-- FP64 (R56). -/
def fp64 : Ieee := ⟨11, 52⟩
/-- FP32 (R56). -/
def fp32 : Ieee := ⟨8, 23⟩
/-- BF16 (R56). -/
def bf16 : Ieee := ⟨8, 7⟩
/-- FP16 (R56). -/
def fp16 : Ieee := ⟨5, 10⟩
/-- binary128, the extended accumulator (R56, R80). -/
def binary128 : Ieee := ⟨15, 112⟩

/-- Exponent bias. -/
def Ieee.bias (f : Ieee) : Int := 2 ^ (f.expBits - 1) - 1
/-- Exponent of the smallest normal number. -/
def Ieee.emin (f : Ieee) : Int := 1 - f.bias
/-- Bits of the whole format. -/
def Ieee.width (f : Ieee) : Nat := 1 + f.expBits + f.fracBits
/-- Bits of an infinity. -/
def Ieee.infBits (f : Ieee) (neg : Bool) : Nat := (2 ^ f.expBits - 1) * 2 ^ f.fracBits + ofBool neg * 2 ^ (f.width - 1)
/-- The default NaN (R52). -/
def Ieee.nanBits (f : Ieee) : Nat := (2 ^ f.expBits - 1) * 2 ^ f.fracBits + 2 ^ (f.fracBits - 1)

/-- The number that bits stand for (R56). -/
def Ieee.decode (f : Ieee) (v : Nat) : Num :=
  let s := bit v (f.width - 1)
  let k := field v f.fracBits f.expBits
  let m := field v 0 f.fracBits
  if k = 2 ^ f.expBits - 1 then (if m = 0 then .inf s else .nan)
  else if k = 0 then .fin s m (f.emin - f.fracBits)
  else .fin s (2 ^ f.fracBits + m) (k - f.bias - f.fracBits)

/-- Bits of (-1)^s * r * 2^q, for r * 2^q in the format, r below 2^(fracBits + 2). -/
def Ieee.pack (f : Ieee) (s : Bool) (r : Nat) (q : Int) : Nat :=
  let (r, q) := if 2 ^ (f.fracBits + 1) ≤ r then (r / 2, q + 1) else (r, q)
  let body := if r < 2 ^ f.fracBits then r
    else (q + f.fracBits + f.bias).toNat * 2 ^ f.fracBits + (r - 2 ^ f.fracBits)
  body + ofBool s * 2 ^ (f.width - 1)

/-- The rounding of a number to a format (R50 to R52, R57, R58): its bits, and the status bits it raises. -/
def Ieee.round (f : Ieee) (flush : Bool) (x : Num) : Nat × Nat :=
  match x with
  | .nan => (f.nanBits, 0)
  | .inf s => (f.infBits s, 0)
  | .fin s m e =>
    if m = 0 then (ofBool s * 2 ^ (f.width - 1), 0)
    else
      let top := e + Nat.log2 m
      let qf := top - f.fracBits
      let rf := roundEven m (e - qf)
      -- magnitude rounded with an unbounded exponent, as exponent of its leading bit
      let topf := qf + Nat.log2 rf
      if flush && topf < f.emin then (ofBool s * 2 ^ (f.width - 1), stFlushed)
      else
        let q := max qf (f.emin - f.fracBits)
        let r := roundEven m (e - q)
        if f.bias < (if r = 0 then f.emin else q + Nat.log2 r) then (f.infBits s, stOverflow)
        else (f.pack s r q, if r < 2 ^ f.fracBits then stUnderflow else 0)

/-- The number that rounding delivers. -/
def Ieee.roundNum (f : Ieee) (x : Num) : Num := f.decode (f.round false x).1

/-! Block-format elements (R60 to R64). -/

/-- The element codes of a block format. -/
inductive Elem where
  | e4m3 | e5m2 | e2m3 | e3m2 | e2m1 | int8
  deriving DecidableEq, Repr

/-- Width in bits (R60). -/
def Elem.width : Elem → Nat
  | .e4m3 => 8 | .e5m2 => 8 | .e2m3 => 6 | .e3m2 => 6 | .e2m1 => 4 | .int8 => 8

/-- Mantissa bits (R60). -/
def Elem.manBits : Elem → Nat
  | .e4m3 => 3 | .e5m2 => 2 | .e2m3 => 3 | .e3m2 => 2 | .e2m1 => 1 | .int8 => 6

/-- Bias (R60). -/
def Elem.bias : Elem → Int
  | .e4m3 => 7 | .e5m2 => 15 | .e2m3 => 1 | .e3m2 => 3 | .e2m1 => 1 | .int8 => 0

/-- Exponent of the largest normal (R60). -/
def Elem.emax : Elem → Int
  | .e4m3 => 8 | .e5m2 => 15 | .e2m3 => 2 | .e3m2 => 4 | .e2m1 => 2 | .int8 => 0

/-- Code of the largest normal, positive (R60). -/
def Elem.maxCode : Elem → Nat
  | .e4m3 => 0x7E | .e5m2 => 0x7B | .e2m3 => 0x1F | .e3m2 => 0x1F | .e2m1 => 0x7 | .int8 => 0x7F

/-- The value of an element code, without scales (R60 to R62). -/
def Elem.decode (f : Elem) (c : Nat) : Num :=
  if f = .int8 then
    let n := signed 8 c
    .fin (decide (n < 0)) n.natAbs (-6)
  else
    let s := bit c (f.width - 1)
    let body := c % 2 ^ (f.width - 1)
    let k := body / 2 ^ f.manBits
    let m := body % 2 ^ f.manBits
    if f = .e4m3 ∧ body = 0x7F then .nan
    else if f = .e5m2 ∧ k = 31 then (if m = 0 then .inf s else .nan)
    else if k = 0 then .fin s m (1 - f.bias - f.manBits)
    else .fin s (2 ^ f.manBits + m) (k - f.bias - f.manBits)

/-- The largest normal of a sign, as a code. -/
def Elem.largest (f : Elem) (neg : Bool) : Nat :=
  if f = .int8 then (if neg then 0x81 else 0x7F) else f.maxCode + ofBool neg * 2 ^ (f.width - 1)

/-- Zero of a sign, as a code (R61). -/
def Elem.zero (f : Elem) (neg : Bool) : Nat := if f = .int8 then 0 else ofBool neg * 2 ^ (f.width - 1)

/-- The code of one scaled element value, and the status bits it raises (R70). [Log DEDUCED 92] -/
def Elem.encode (f : Elem) (flush : Bool) (v : Num) : Nat × Nat :=
  match v with
  | .nan => (f.zero false, 0)
  | .inf s => if f = .e5m2 then (0x7C + ofBool s * 0x80, 0)
      else (f.largest s, stSaturated + ofBool (decide (f = .int8)) * stInvalid)
  | .fin s m e =>
    if m = 0 then (f.zero s, 0)
    else if f = .int8 then
      let n := roundEven m (e + 6)
      if 127 < n then (f.largest s, stSaturated) else (unsigned 8 (if s then -(n : Int) else n), 0)
    else
      let emin := 1 - f.bias
      let qf := e + Nat.log2 m - f.manBits
      let rf := roundEven m (e - qf)
      let topf := qf + Nat.log2 rf
      let big := match (Num.fin false rf qf).cmp (f.decode f.maxCode) with
        | some .gt => true
        | _ => false
      if big then (f.largest s, stSaturated)
      else if topf < emin then
        if flush then (f.zero s, stFlushed)
        else (roundEven m (e - (emin - f.manBits)) + ofBool s * 2 ^ (f.width - 1), 0)
      else
        let (r, q) := if 2 ^ (f.manBits + 1) ≤ rf then (rf / 2, qf + 1) else (rf, qf)
        ((q + f.manBits + f.bias).toNat * 2 ^ f.manBits + (r - 2 ^ f.manBits) + ofBool s * 2 ^ (f.width - 1), 0)

/-! Tensor formats (R67). -/

/-- A tensor format: an IEEE format, or a block format with its element and block size. -/
inductive Fmt where
  | ieee (f : Ieee)
  | block (e : Elem) (n : Nat)
  deriving DecidableEq, Repr

/-- The format of a code; none for a reserved code (R67). -/
def fmtOf (c : Nat) : Option Fmt :=
  match c with
  | 0x01 => some (.ieee fp64) | 0x02 => some (.ieee fp32) | 0x03 => some (.ieee fp16) | 0x04 => some (.ieee bf16)
  | 0x10 => some (.block .e4m3 32) | 0x11 => some (.block .e5m2 32) | 0x12 => some (.block .e2m3 32)
  | 0x13 => some (.block .e3m2 32) | 0x14 => some (.block .e2m1 32) | 0x15 => some (.block .int8 32)
  | 0x20 => some (.block .e4m3 16) | 0x21 => some (.block .e5m2 16) | 0x22 => some (.block .e2m3 16)
  | 0x23 => some (.block .e3m2 16) | 0x24 => some (.block .e2m1 16) | 0x25 => some (.block .int8 16)
  | _ => none

/-- The IEEE format of a code; FP64 for another. -/
def ieeeOf (c : Nat) : Ieee :=
  match fmtOf c with
  | some (.ieee f) => f
  | _ => fp64

/-- The code of an IEEE tensor format. -/
def ieeeCode (f : Ieee) : Nat := if f = fp64 then 1 else if f = fp32 then 2 else if f = fp16 then 3 else 4

/-- Bytes of one element of an IEEE format. -/
def Ieee.bytes (f : Ieee) : Nat := f.width / 8

/-- Bytes of one block. -/
def blockBytes (e : Elem) (n : Nat) : Nat := n * e.width / 8

/-- The element codes of a block's bytes (R68). -/
def unpackBlock (e : Elem) (n : Nat) (bs : List Byte) : List Nat :=
  let v := ofLe bs
  (List.range n).map fun i => field v (i * e.width) e.width

/-- The bytes of a block's element codes (R68). -/
def packBlock (e : Elem) (n : Nat) (cs : List Nat) : List Byte :=
  leBytes (blockBytes e n) (cs.foldr (fun c a => a * 2 ^ e.width + c) 0)

/-- The value of an element code in a block of scale `s` with coarse scale `c` (R63, R72). -/
def blockValue (e : Elem) (s : Nat) (c : Num) (code : Nat) : Num :=
  if s = 0xFF then .nan else ((((e.decode code).scale (s - 127)).mul c).1)

/-- A coarse scale as used: 1 in place of one that is not positive, finite and normal, with COARSE_INVALID (R65). -/
def coarseOf (bits : Nat) : Num × Nat :=
  let k := field bits 23 8
  if bit bits 31 ∨ k = 0 ∨ k = 255 then (.one, stCoarseInvalid) else (fp32.decode bits, 0)

/-- An encoded block: scale code, element codes, status bits and the counts of R70. -/
structure Encoded where
  scale : Nat
  codes : List Nat
  status : Nat
  saturated : Nat
  flushed : Nat
  nanBlock : Bool
  zeroBlock : Bool
  deriving DecidableEq, Repr

/-- Larger of two optional exponents. -/
def maxExp : Option Int → Option Int → Option Int
  | none, y => y
  | x, none => x
  | some x, some y => some (max x y)

/-- Smaller of two optional exponents. -/
def minExp : Option Int → Option Int → Option Int
  | none, y => y
  | x, none => x
  | some x, some y => some (min x y)

/-- The encoding of the data positions of one block with coarse scale `c` (R70, R71). [Log DEDUCED 92] -/
def encodeBlock (f : Elem) (c : Num) (flush : Bool) (xs : List Num) : Encoded :=
  if xs.any Num.isNan then ⟨0xFF, xs.map fun _ => f.zero false, stNanIn, 0, 0, true, false⟩
  else
    let qs := xs.map fun x => (x.div c).1
    let top := qs.foldl (fun a q => maxExp a q.exponent) none
    if top = none ∧ !xs.any Num.isInf then ⟨0, qs.map fun q => f.zero q.neg?, 0, 0, 0, false, true⟩
    else
      let e : Int := match top with
        | none => 127
        | some t => max (-127) (min 127 (t - f.emax))
      let rs := qs.map fun q => f.encode flush (q.scale (-e))
      ⟨(e + 127).toNat, rs.map (·.1), rs.foldl (fun a r => a ||| r.2) 0,
        (rs.filter fun r => bit r.2 3).length, (rs.filter fun r => bit r.2 4).length, false, false⟩

end Sys2Proof.Machine
end

