-- ==== Sys2Proof/Machine/Operands.lean ====
section
/-! DEFINITION. Operand forms: handles, tensor descriptors, element addresses and the memory that a job may reach
(R67 to R69, R133, R201 to R204, R302 to R304), and poisoned data (R300, R301, R336). -/

namespace Sys2Proof.Machine

/-! Descriptors (R202). -/

/-- A tensor descriptor, decoded. `scale` is 0 for no scale area. `model` marks a descriptor of the bound model. -/
structure Desc where
  addr : Nat
  fmt : Nat
  rank : Nat
  part : Bool
  remote : Bool
  ext : Bool
  shape : List Nat
  pitch : List Nat
  scale : Nat
  key : Nat
  lnode : Nat
  model : Bool
  deriving DecidableEq, Repr

/-- Extent of a dimension. -/
def Desc.dim (d : Desc) (k : Nat) : Nat := d.shape.getD k 1

/-- Every dimension beyond the rank has extent 1 (R202). -/
def Desc.extentsOk (d : Desc) : Bool := (List.range 4).all fun k => decide (k < d.rank) || d.dim k = 1

/-- Number of elements. -/
def Desc.elems (d : Desc) : Nat := d.dim 0 * d.dim 1 * d.dim 2 * d.dim 3

/-- The block format of a tensor, if it has one. -/
def Desc.block (d : Desc) : Option (Elem × Nat) :=
  match fmtOf d.fmt with
  | some (.block e n) => if d.part then none else some (e, n)
  | _ => none

/-- The IEEE format of the elements: the tensor format, or the accumulator format of a partial tensor (R204). -/
def Desc.ieee (d : Desc) : Option Ieee :=
  if d.part then some (if d.fmt = 2 then fp32 else if d.ext then binary128 else fp64)
  else
    match fmtOf d.fmt with
    | some (.ieee f) => some f
    | _ => none

/-- Blocks in one row along dimension 0 (R64). -/
def Desc.rowBlocks (d : Desc) : Nat :=
  match d.block with
  | some (_, n) => ceilDiv (d.dim 0) n
  | none => 0

/-- Bytes of one row along dimension 0 (R203). -/
def Desc.rowBytes (d : Desc) : Nat :=
  match d.block, d.ieee with
  | some (e, n), _ => d.rowBlocks * blockBytes e n
  | none, some f => d.dim 0 * (f.width / 8)
  | none, none => 0

/-- Rows along dimension 0, over dimensions 1 to 3. -/
def Desc.rows (d : Desc) : Nat := d.dim 1 * d.dim 2 * d.dim 3

/-- `PITCH[k]`, k from 1 to 3. -/
def Desc.pitchOf (d : Desc) (k : Nat) : Nat := d.pitch.getD (k - 1) 0

/-- Span of dimension k (R203). -/
def Desc.span (d : Desc) : Nat → Nat
  | 0 => d.rowBytes
  | k + 1 => (d.dim (k + 1) - 1) * d.pitchOf (k + 1) + d.span k

/-- Address of the first byte of row r (R203). -/
def Desc.rowAddr (d : Desc) (r : Nat) : Nat :=
  d.addr + (r % d.dim 1) * d.pitchOf 1 + (r / d.dim 1 % d.dim 2) * d.pitchOf 2 +
    (r / d.dim 1 / d.dim 2) * d.pitchOf 3

/-- Bytes of one element of an unscaled tensor. -/
def Desc.size (d : Desc) : Nat :=
  match d.ieee with
  | some f => f.width / 8
  | none => 0

/-- Address of element i of an unscaled tensor, in element order. -/
def Desc.elemAddr (d : Desc) (i : Nat) : Nat := d.rowAddr (i / d.dim 0) + i % d.dim 0 * d.size

/-- Number of blocks. -/
def Desc.blocks (d : Desc) : Nat := d.rowBlocks * d.rows

/-- Address of block k, in block order. -/
def Desc.blockAddr (d : Desc) (k : Nat) : Nat :=
  match d.block with
  | some (e, n) => d.rowAddr (k / d.rowBlocks) + k % d.rowBlocks * blockBytes e n
  | none => 0

/-- Address of the scale code of block k (R69). The header's other fields are neither written nor read.
[Log DESIGN CHOICE 230] -/
def Desc.codeAddr (d : Desc) (k : Nat) : Nat := d.scale + 0x2C0 + k

/-- Address of the statistics record (R69). [Log DESIGN CHOICE 230] -/
def Desc.record (d : Desc) : Nat := d.scale + 0x40

/-- Bytes of the scale area (R69). -/
def Desc.areaBytes (d : Desc) : Nat := 0x2C0 + d.blocks

/-- The bytes that a descriptor addresses and its scale area, as half-open ranges (R207). -/
def Desc.ranges (d : Desc) : List (Nat × Nat) :=
  (d.addr, d.addr + d.span (d.rank - 1)) :: (if d.scale = 0 then [] else [(d.scale, d.scale + d.areaBytes)])

/-- The bytes of the rows alone. -/
def Desc.rowRanges (d : Desc) : List (Nat × Nat) :=
  (List.range d.rows).map fun r => (d.rowAddr r, d.rowAddr r + d.rowBytes)

/-- Pitches at or above the spans below them (R203). -/
def Desc.pitchesOk (d : Desc) : Bool :=
  (List.range (d.rank - 1)).all fun k => decide (d.span k ≤ d.pitchOf (k + 1))

/-- A descriptor decoded from its 64 B, or the detail code of the first rule it breaks (R67, R202 to R204).
`base` is the weight base of a model's descriptor (R133). [Log DEDUCED 78] -/
def decodeDesc (raw : Nat) (base : Option Nat) : Except Nat Desc :=
  let rank := field raw 56 2 + 1
  let axis := field raw 58 2
  let ptr := field raw 256 48
  let d : Desc :=
    { addr := field raw 0 48 + base.getD 0
      fmt := field raw 48 8
      rank := rank
      part := bit raw 60
      remote := bit raw 61
      ext := bit raw 62
      shape := (List.range 4).map fun k => field raw (64 + 24 * k) 24
      pitch := (List.range 3).map fun k => field raw (160 + 32 * k) 32
      scale := match base with
        | none => ptr
        | some b => if ptr = 0xFFFFFFFFFFFF then 0 else b + ptr
      key := field raw 320 64
      lnode := field raw 384 20
      model := base.isSome }
  if bit raw 63 ∨ field raw 304 16 ≠ 0 ∨ field raw 404 12 ≠ 0 then .error 0x01
  else if fmtOf d.fmt = none then .error 0x03
  else if d.ext && !(d.part && d.fmt = 1) then .error 0x0D
  else if d.part && !(d.fmt = 1 || d.fmt = 2) then .error 0x0D
  else if (List.range 4).any (fun k => d.dim k = 0) then .error 0x0D
  else if d.block.isSome && (axis ≠ 0 || d.scale = 0) then .error 0x0D
  else if d.scale % 64 ≠ 0 then .error 0x0D
  else if !d.pitchesOk then .error 0x0D
  else .ok d

/-! What a job reaches (R302 to R304). -/

/-- A job is loaded. -/
def State.jobLoaded (s : State) : Bool := s.reg .jobActive = 1

/-- Scratchpad MiB of a die: 24 MiB for each way (R331). -/
def State.scratchMib (s : State) (die : Nat) : Nat := 24 * s.reg .llmScratchWays die

/-- MiB of the roster part: fixed at JOB_LOAD (R147). -/
def State.rosterMib (s : State) : Nat := if s.jobLoaded then s.reg .rosterLlmAtLoad else s.reg .rosterLlm

/-- Base of a die's scratchpad window (R302). -/
def scratchBase (die : Nat) : Nat := 0x20000000000 + die * 0x18000000

/-- Bytes of the job part of a die's scratchpad (R302, R331). -/
def State.scratchBytes (s : State) (die : Nat) : Nat := (s.scratchMib die - s.rosterMib) * 0x100000

/-- A range of bytes that a job's agents reach: in the job window, or in the job part of one scratchpad (R303, R304). -/
def State.reaches (s : State) (lo hi : Nat) : Bool :=
  decide (s.reg .rosterBytes ≤ lo ∧ hi ≤ s.reg .allocTop) ||
    (List.range 8).any fun d => decide (scratchBase d ≤ lo ∧ hi ≤ scratchBase d + s.scratchBytes d)

/-- A range of bytes meets the aperture table (R281). -/
def State.inApertures (s : State) (lo hi : Nat) : Bool :=
  let t := s.reg .apertureBase
  decide (lo < t + 32 * s.reg .apertureCount ∧ t < hi)

/-- A range of bytes that a job's agents may write: what they reach, but for the aperture table, which the host driver sets (R281).
[Log DEDUCED 236] -/
def State.storable (s : State) (lo hi : Nat) : Bool := s.reaches lo hi && !s.inApertures lo hi

/-- Stack memory or a scratchpad holds the address (R302). -/
def State.populated (s : State) (a : Nat) : Bool :=
  decide (a < s.reg .stackTop) ||
    (List.range 8).any fun d => decide (scratchBase d ≤ a ∧ a < scratchBase d + s.scratchBytes d)

/-- Host software reaches the address other than by the roster commands (R131, R302). -/
def State.hostMay (s : State) (a : Nat) : Bool := decide (s.reg .rosterBytes ≤ a) && s.populated a

/-! Poison (R300, R301, R336). -/

/-- Some byte of a range lies in a marked atom or word. -/
def State.poisoned (s : State) (lo hi : Nat) : Bool :=
  decide (lo < hi) &&
    ((s.poisonAtoms.any fun p => decide (64 * p < hi ∧ lo < 64 * p + 64)) ||
      (s.poisonWords.any fun p => decide (16 * p < hi ∧ lo < 16 * p + 16)))

/-- Some range is poisoned. [Log DEDUCED 76] -/
def State.poisonedAny (s : State) (rs : List (Nat × Nat)) : Bool := rs.any fun r => s.poisoned r.1 r.2

/-- Put a number into a strictly rising list. -/
def insertRising (k : Nat) : List Nat → List Nat
  | [] => [k]
  | a :: as => if k < a then k :: a :: as else if k = a then a :: as else a :: insertRising k as

/-- An atom of a stack, or a word of a scratchpad, is marked poisoned (R300, R336). -/
def State.poison (s : State) (a : Nat) : State :=
  if a < 0x20000000000 then { s with poisonAtoms := insertRising (a / 64) s.poisonAtoms }
  else { s with poisonWords := insertRising (a / 16) s.poisonWords }

/-- A 16 B word of a line is marked (R336). -/
def State.poisonWord (s : State) (a : Nat) : State := { s with poisonWords := insertRising (a / 16) s.poisonWords }

/-- Every word of a range is marked: what was written there is poisoned data (R301), also where its line is
still being filled (R333). -/
def State.poisonSpan (s : State) (lo hi : Nat) : State :=
  let ws := (List.range (ceilDiv hi 16 - lo / 16)).map fun k => lo / 16 + k
  { s with
    poisonWords := ws.foldl (fun ps p => insertRising p ps) s.poisonWords
    merging := s.merging.map fun m => (m.1, m.2.filter fun w => ¬ (w.1 < hi ∧ lo < w.2)) }

/-- Every word of a stack atom is marked, by the atom's mark or by their own (R300, R301). -/
def State.atomMarked (s : State) (p : Nat) : Bool :=
  s.poisonAtoms.contains p || (List.range 4).all fun j => s.poisonWords.contains (4 * p + j)

/-- Lines of a slot's regions that lie in a channel, with their within-channel indices, by rising index (R344). -/
def State.regionIndices (s : State) (x : Slot) (ch : Nat) : List (Nat × Nat) :=
  sortBy Prod.fst ((x.ranges.flatMap fun r => (List.range (ceilDiv r.2 128 - r.1 / 128)).map fun i => r.1 / 128 + i).filterMap fun l =>
    let p := s.placeOf (128 * l)
    if p.1 = ch then some (p.2, l) else none)

/-- The first index that a sweep of a channel has not copied when so much time has passed; lines copied before a write are skipped
(R344, R345). The time that a line takes is open. [Log DESIGN CHOICE 201] -/
def sweepFront (gen ch : Nat) (copied : List Nat) : Nat → List (Nat × Nat) → Option Nat
  | _, [] => none
  | left, p :: ps =>
    let n := (Config.copyTime gen ch p.1).toNat + 1
    if copied.contains p.2 then sweepFront gen ch copied left ps
    else if n ≤ left then sweepFront gen ch copied (left - n) ps
    else some p.1

/-- The copy front of a channel, the lowest index not yet copied: past its last line once its stack's part is complete (R344).
[Log DESIGN CHOICE 201] -/
def State.frontOf (s : State) (x : Slot) (ch : Nat) : Nat :=
  let is := s.regionIndices x ch
  let past := is.foldl (fun n p => max n (p.1 + 1)) 0
  if (x.parts.lookup (ch / 32)).isSome then past
  else (sweepFront x.image.gen ch x.copied (s.now - x.instant) is).getD past

/-- The line of a region that a slot's copy has not reached is copied before a write and counted (R345); a tagged one goes out of
the LLM instead (R346). -/
def copyLine (q : State × Slot) (l : Nat) : State × Slot :=
  let (s, x) := q
  if x.tagged.contains l then (s, { x with copied := x.copied ++ [l], tagged := x.tagged.filter fun m => m ≠ l })
  else
    let p := s.placeOf (128 * l)
    if p.2 < s.frontOf x p.1 then (s, x) else (s.addReg .cbwWrites (p.1 / 32) 1, { x with copied := x.copied ++ [l] })

/-- Lines of a range that belong to a slot's regions and have neither been copied before a write nor lie in a part that is
complete, in order. -/
def State.linesAhead (s : State) (x : Slot) (lo hi : Nat) : List Nat :=
  ((List.range (ceilDiv hi 128 - lo / 128)).map fun k => lo / 128 + k).filter fun l =>
    (x.ranges.any fun r => decide (r.1 ≤ 128 * l ∧ 128 * l < r.2)) && !x.copied.contains l &&
      (x.parts.lookup ((s.placeOf (128 * l)).1 / 32)).isNone

/-- What a slot that is being copied makes of a write of a range (R345, R346). [Log DEDUCED 130] -/
def State.copyBefore (s : State) (x : Slot) (lo hi : Nat) : State × Slot := (s.linesAhead x lo hi).foldl copyLine (s, x)

/-- The lowest copy front over the channels of a stack that hold region lines, 0 where no slot has been copied since the last warm
reset (R344, R348); the stored `DRAUGHT_FRONT` says whether one has. -/
def State.copyFront (s : State) (st : Nat) : Nat :=
  let x := if s.slotA.state = 1 || (s.slotB.state ≠ 1 && decide (s.slotB.instant ≤ s.slotA.instant)) then s.slotA else s.slotB
  let chs := ((List.range 32).map fun k => st * 32 + k).filter fun ch => !(s.regionIndices x ch).isEmpty
  if s.reg .draughtFront st = 0 then 0
  else
    match chs.map (s.frontOf x) with
    | [] => 0
    | n :: ns => ns.foldl min n

/-- Lines of a range have been written at their new places (R315); one whose fill is still out moves with it. -/
def State.noteMoved (s : State) (lo hi : Nat) : State :=
  if s.reg .migrationLeft = 0 then s
  else
    let ls := ((List.range (ceilDiv hi 128 - lo / 128)).map fun k => lo / 128 + k).filter fun l =>
      s.unmoved l && !s.merging.any fun m => m.1 = l
    { s with moved := ls.foldl (fun ms l => insertRising l ms) s.moved }

/-- A written range is kept for the lines whose fill is out, with which it merges (R333). -/
def State.noteMerge (s : State) (lo hi : Nat) : State :=
  { s with merging := s.merging.map fun m => if 128 * m.1 < hi ∧ lo < 128 * m.1 + 128 then (m.1, m.2 ++ [(lo, hi)]) else m }

/-- What a write of a range of node memory meets: lines that are being filled (R333), a slot being copied (R345), lines that have not
moved (R315), and lines that the host may hold, which are back-invalidated (R558). [Log DEDUCED 130] -/
def State.beforeWrite (s : State) (lo hi : Nat) : State :=
  let s := s.noteMerge lo hi
  let s := if s.slotA.state = 1 then
      let r := s.copyBefore s.slotA lo hi
      { r.1 with slotA := r.2 }
    else s
  let s := if s.slotB.state = 1 then
      let r := s.copyBefore s.slotB lo hi
      { r.1 with slotB := r.2 }
    else s
  let s := s.noteMoved lo hi
  let met := s.hostLines.filter fun l => decide (128 * l < hi ∧ lo < 128 * l + 128)
  if met.isEmpty then s
  else
    let s := { s with hostLines := s.hostLines.filter fun l => !met.contains l }
    (s.addReg .backInvalidates 0 met.length).setReg .hostHeldLines 0 s.hostLines.length

/-- A write of bytes straight to the stack: whole atoms lose their marks, parts of marked ones keep them (R300, R301). -/
def State.writeAtoms (s : State) (a : Nat) (bs : List Byte) : State :=
  let hi := a + bs.length
  let s := (s.beforeWrite a hi).putBytes a bs
  { s with
    poisonAtoms := s.poisonAtoms.filter fun p => ¬ (a ≤ 64 * p ∧ 64 * p + 64 ≤ hi)
    poisonWords := s.poisonWords.filter fun p => ¬ (a ≤ 64 * (p / 4) ∧ 64 * (p / 4) + 64 ≤ hi) }

/-- A range written at the LLM takes the marks from its whole words, also those that the atom of their line gave them; parts of marked
ones keep them (R301, R336). -/
def State.clearWords (s : State) (a hi : Nat) : State :=
  let whole (w : Nat) : Bool := decide (a ≤ 16 * w ∧ 16 * w + 16 ≤ hi)
  let met := s.poisonAtoms.filter fun p => (List.range 4).any fun j => whole (4 * p + j)
  let words := met.flatMap fun p => (List.range 4).map fun j => 4 * p + j
  { s with
    poisonAtoms := s.poisonAtoms.filter fun p => !met.contains p
    poisonWords := (words.foldl (fun ws w => insertRising w ws) s.poisonWords).filter fun w => !whole w }

/-- A write of bytes at the LLM (R301, R336). A line that is present becomes dirty (R335). -/
def State.write (s : State) (a : Nat) (bs : List Byte) : State :=
  let hi := a + bs.length
  let s := ((s.beforeWrite a hi).putBytes a bs).clearWords a hi
  { s with llm := s.llm.map fun e => if decide (128 * e.1 < hi ∧ a < 128 * e.1 + 128) then (e.1, 2) else e }

/-- The slice that serves an address, as `UNIT` of its physical slice (R332, R479). -/
def State.sliceUnit (s : State) (a : Nat) : Nat :=
  let d := s.homeDie a
  d * 64 + s.reg .sliceMap (d * 32 + sliceOf a)

/-! Lines in the LLM (R333, R335). -/

/-- What is known of a line at its home slice: 0 nothing, 1 that it is present, 2 that it is dirty too. -/
def State.llmOf (s : State) (line : Nat) : Nat := Store.at 0 s.llm line

/-- What is known of a line changes. -/
def State.setLlm (s : State) (line v : Nat) : State := { s with llm := Store.put 0 s.llm line v }

/-- A line is present. -/
def State.holdLine (s : State) (line : Nat) : State := if s.llmOf line = 0 then s.setLlm line 1 else s

/-- The slice of an address is a pass-through, which caches nothing (R338). -/
def State.passes (s : State) (a : Nat) : Bool :=
  let u := s.sliceUnit a
  s.reg .sliceState (u / 64 * 34 + u % 64) = 3

/-! Channels that retrain (R307, R308). -/

/-- A channel. -/
def State.chan (s : State) (ch : Nat) : Channel := Store.at Channel.quiet s.chans ch

/-- A channel takes a new state. -/
def State.setChan (s : State) (ch : Nat) (c : Channel) : State := { s with chans := Store.put Channel.quiet s.chans ch c }

/-- The channel retrains, so requests to it wait (R307, R308). -/
def State.retraining (s : State) (ch : Nat) : Bool := (s.chan ch).retraining.isSome

/-- A request has its place in the order of arrival: what waiting changes is timing, so that its write takes effect (R343).
[Log DEDUCED 251] -/
def State.accept (s : State) (r : ChanReq) : State :=
  match r with
  | .write a bs => if bs.isEmpty then s else s.writeAtoms a bs
  | .narrow n => match n.data with
    | some bs => if bs.isEmpty then s else s.writeAtoms n.addr bs
    | none => s
  | _ => s

/-- A request waits in the queue of a channel that retrains; with 256 there its agent stalls (R308). -/
def State.queueChan (s : State) (ch : Nat) (r : ChanReq) : State :=
  if 256 ≤ (s.chanQueue.filter fun e => e.1 = ch).length then { s with chanStalled := s.chanStalled ++ [(ch, r)] }
  else { s.accept r with chanQueue := s.chanQueue ++ [(ch, r)] }

/-- A write to the stack beside the LLM (R335, R338). -/
def State.writeStack (s : State) (a : Nat) (bs : List Byte) : State :=
  let ch := s.channelOf a
  if s.retraining ch then s.queueChan ch (.write a bs) else s.writeAtoms a bs

/-- A write of a coupler: at the slice for a line that is present there, else straight to the stack (R335). -/
def State.writeCoupler (s : State) (a : Nat) (bs : List Byte) : State :=
  (List.range (ceilDiv (a + bs.length) 128 - a / 128)).foldl (fun (u : State) k =>
    let l := a / 128 + k
    let lo := max a (128 * l)
    let part := (bs.drop (lo - a)).take (128 * l + 128 - lo)
    if 128 * l < 0x20000000000 && Store.at 0 u.llm l = 0 then u.writeStack lo part else u.write lo part) s

/-- A write of the package's own for a job, which reaches what a job's agents write (R281, R303, R304). -/
def State.jobWrite (s : State) (a : Nat) (bs : List Byte) : State :=
  if s.storable a (a + bs.length) then s.write a bs else s

/-- Several writes, in order. -/
def State.writes (s : State) (ws : List (Nat × List Byte)) : State := ws.foldl (fun t w => t.write w.1 w.2) s

/-! Bays. -/

/-- The bay of a logical bay index. -/
def State.bay (s : State) (b : Nat) : Bay := Store.at Bay.idle s.bays b

/-- A bay takes a new state. -/
def State.setBay (s : State) (b : Nat) (x : Bay) : State := { s with bays := Store.put Bay.idle s.bays b x }

/-! Handles (R201). -/

/-- What a handle names. -/
inductive Operand where
  | none
  | slot (n : Nat)
  | tile (t : Nat)
  | tensor (d : Desc)
  deriving DecidableEq, Repr

/-- The 64 B of a descriptor, through the descriptor cache (R205). -/
def State.descRaw (s : State) (b : Bay) (a : Nat) : Nat :=
  let line := a / 128 * 128
  field ((b.descs.lookup line).getD (s.load line 128)) (8 * (a - line)) 512

/-- Field of a roster entry (R132). -/
def State.roster (s : State) (i off n : Nat) : Nat := s.load (s.reg .rosterBase + 64 * i + off) n

/-- `WEIGHT_BYTES` of a roster entry. -/
def State.modelBytes (s : State) (i : Nat) : Nat := s.roster i 4 4

/-- `STATE` of a roster entry: 0 empty, 1 registered, 2 pinned. -/
def State.modelState (s : State) (i : Nat) : Nat := if i < 4096 then s.roster i 0 1 else 0

/-- Weights of registered models in the region: base and bytes. -/
def State.weightAreas (s : State) : List (Nat × Nat) :=
  ((List.range 4096).filter fun i => s.modelState i ≠ 0).map fun i => (s.roster i 8 8, s.modelBytes i)

/-- The end of what registered models take of the roster region, which they keep (R131, R135). -/
def State.rosterTop (s : State) : Nat := (s.weightAreas.map fun a => a.1 + a.2).foldl max 0

/-- Address of the descriptor that a handle names, if it names one (R201). -/
def State.descAddr (s : State) (b : Bay) (iters : List Nat) (h : Nat) : Option Nat :=
  let top := h / 2 ^ 24
  let low := h % 2 ^ 24
  if top = 0 then some (s.reg .descBase + 64 * low)
  else if 0x80 ≤ top ∧ top < 0x88 then some (s.reg .descBase + 64 * (low + iters.getD (top - 0x80) 0))
  else if top = 0xFF ∧ low < 256 then b.model.map fun m => s.roster m 0x10 8 + 64 * low
  else none

/-- A descriptor whose `FORMAT` is ignored: it breaks a rule where it breaks one under every format (R221, R435). -/
def decodeAny (raw : Nat) (base : Option Nat) : Except Nat Desc :=
  match (2 :: List.range 64).findSome? fun k => (decodeDesc (withField raw 48 8 k) base).toOption with
  | some d => .ok d
  | none => decodeDesc (withField raw 48 8 2) base

/-- What a handle names, or the detail code of the rule it breaks (R201, R137). `anyFmt` is for a use that ignores the
descriptor's `FORMAT` (R221, R435). -/
def State.resolveAs (s : State) (anyFmt : Bool) (b : Bay) (iters : List Nat) (h : Nat) : Except Nat Operand :=
  let top := h / 2 ^ 24
  let low := h % 2 ^ 24
  let decode (a : Nat) (base : Option Nat) : Except Nat Desc :=
    if anyFmt then decodeAny (s.descRaw b a) base else decodeDesc (s.descRaw b a) base
  let job (n : Nat) : Except Nat Operand :=
    if n < s.reg .descCount then
      (decode (s.reg .descBase + 64 * n) none).map Operand.tensor
    else .error 0x02
  if h = 0xFFFFFFFF then .ok .none
  else if top = 0 then job low
  else if 0x80 ≤ top ∧ top < 0x88 then job (low + iters.getD (top - 0x80) 0)
  else if top = 0xFD ∧ low < 16 then .ok (.slot low)
  else if top = 0xFE ∧ low < 4 then .ok (.tile low)
  else if top = 0xFF ∧ low < 256 then
    match b.model with
    | none => .error 0x0A
    | some m =>
      if low < s.roster m 2 2 then
        (decode (s.roster m 0x10 8 + 64 * low) (some (s.roster m 8 8))).map Operand.tensor
      else .error 0x0A
  else .error 0x02

/-- What a handle names, its descriptor's `FORMAT` included (R201). -/
def State.resolve (s : State) (b : Bay) (iters : List Nat) (h : Nat) : Except Nat Operand := s.resolveAs false b iters h

/-- The operand must be a memory tensor on this node (R203). -/
def Operand.local : Operand → Except Nat Desc
  | .tensor d => if d.remote then .error 0x0D else .ok d
  | .tile _ => .error 0x07
  | _ => .error 0x02

/-- A local tensor's whole byte range lies where the job reaches, and for a destination where it may write (R281, R304). The
package reaches model weights under its own key (R133). -/
def State.inWindow (s : State) (d : Desc) (dest : Bool) : Bool :=
  d.remote || (d.model && !dest) || d.ranges.all fun r => if dest then s.storable r.1 r.2 else s.reaches r.1 r.2

/-! Values (R68, R72). -/

/-- Coarse scale of a tensor, as used, with COARSE_INVALID (R65, R66). -/
def State.coarse (s : State) (d : Desc) : Num × Nat :=
  if d.block.isSome then coarseOf (s.load d.scale 4) else (.one, 0)

/-- The element codes of block k. -/
def State.blockCodes (s : State) (d : Desc) (k : Nat) : List Nat :=
  match d.block with
  | some (e, n) => unpackBlock e n (s.bytes (d.blockAddr k) (blockBytes e n))
  | none => []

/-- The scale code of block k. -/
def State.blockScale (s : State) (d : Desc) (k : Nat) : Nat := s.load (d.codeAddr k) 1

/-- The value of element i, in element order, at a coarse scale (R72). -/
def State.value (s : State) (d : Desc) (c : Num) (i : Nat) : Num :=
  match d.block, d.ieee with
  | some (e, n), _ =>
    let x := i % d.dim 0
    let k := i / d.dim 0 * d.rowBlocks + x / n
    blockValue e (s.blockScale d k) c
      (field (s.load (d.blockAddr k) (blockBytes e n)) (x % n * e.width) e.width)
  | none, some f => f.decode (s.load (d.elemAddr i) d.size)
  | none, none => .nan

/-- Value of position `i` of a tile buffer. -/
def Tile.value (t : Tile) (i : Nat) : Num :=
  match fmtOf t.fmt with
  | some (.ieee f) => f.decode (Store.at 0 t.data i)
  | _ => .nan

/-- Rows that a tile buffer holds of a format (R150). -/
def tileRows (fmt : Nat) : Nat := 65536 / (64 * ((ieeeOf fmt).width / 8))

/-- A tile of given element bits, with +0 beyond them (R151). -/
def Tile.ofBits (fmt : Nat) (xs : List Nat) : Tile :=
  { fmt := fmt, rows := ceilDiv xs.length 64
    data := (xs.zipIdx.filter fun p => p.1 ≠ 0).map fun p => (p.2, p.1) }

end Sys2Proof.Machine
end

