-- ==== Sys2Proof/Machine/Flags.lean ====
section
/-! DEFINITION. Status words, reduction flags, and statistics records with their merge (R86 to R91, R166, R174). -/

namespace Sys2Proof.Machine

/-- Nothing to add. -/
def Delta.empty : Delta := ⟨0, 0, 0, 0, 0, 0, 0, 0, 0, none, none, 1, 0, 0, List.replicate 132 0⟩

/-- One more element in a bin. -/
def bump (bins : List Nat) (i : Nat) : List Nat := bins.set i (bins.getD i 0 + 1)

/-- Histogram of a list of bins. -/
def binsOf (is : List Nat) : List Nat := is.foldl bump (List.replicate 132 0)

/-- Bin of an output element of an IEEE format (R88). -/
def Ieee.bin (f : Ieee) (v : Nat) : Nat :=
  let k := field v f.fracBits f.expBits
  let m := field v 0 f.fracBits
  if k = 2 ^ f.expBits - 1 then (if m = 0 then 130 else 131)
  else if k = 0 then (if m = 0 then 128 else 129)
  else (max (-64) (min 63 ((k : Int) - f.bias)) + 64).toNat

/-- Bin of an output element of a block format, in a block of scale code `s` (R88). -/
def Elem.bin (e : Elem) (s c : Nat) : Nat :=
  if s = 0xFF then 131
  else if e = .int8 then
    let n := (signed 8 c).natAbs
    if n = 0 then 128 else Nat.log2 n
  else
    match e.decode c with
    | .nan => 131
    | .inf _ => 130
    | .fin _ m _ =>
      let k := c % 2 ^ (e.width - 1) / 2 ^ e.manBits
      if m = 0 then 128 else if k = 0 then 129 else k

/-- Exponents of the finite non-zero source values (R87). -/
def srcMaxOf (xs : List Num) : Option Int := xs.foldl (fun a x => maxExp a x.exponent) none
/-- Smallest of them. -/
def srcMinOf (xs : List Num) : Option Int := xs.foldl (fun a x => minExp a x.exponent) none

/-- Sum of a capped field, and whether it reached the cap (R90). -/
def capped (a b : Nat) : Nat × Bool := (min (a + b) 0xFFFFFFFF, decide (0xFFFFFFFF ≤ a + b))

/-- Field `o` of `n` bytes of a record's bytes. -/
def recAt (bs : List Byte) (o n : Nat) : Nat := leAt bs o n

/-- Field of a record replaced. -/
def recPut (bs : List Byte) (o n v : Nat) : List Byte := overlay bs o (leBytes n v)

/-- A record of 640 B with every field at its initial value (R90). -/
def recInit (bs : List Byte) : List Byte :=
  recPut (recPut (overlay bs 0 (List.replicate 640 0)) 0x28 4 0x80000000) 0x2C 4 0x7FFFFFFF

/-- A capped field of a record raised. -/
def recCap (p : List Byte × Bool) (o n : Nat) : List Byte × Bool :=
  let r := capped (recAt p.1 o 4) n
  (recPut p.1 o 4 r.1, p.2 || (decide (0 < n) && r.2))

/-- A U64 counter of a record raised. -/
def recAdd (bs : List Byte) (o n : Nat) : List Byte := recPut bs o 8 (recAt bs o 8 + n)

/-- The merge of an operation into a record's bytes (R90), and the status bits 7 and 8 that it sets. -/
def mergeRecord (bs : List Byte) (d : Delta) : List Byte × Nat :=
  let fresh := recAt bs 0 1 = 0
  let bs := if fresh then recInit bs else bs
  let mixed := !fresh && (recAt bs 1 1 ≠ d.sel || recAt bs 2 1 ≠ d.srcFmt || recAt bs 3 1 ≠ d.dstFmt)
  let fmt (o v : Nat) : Nat := if fresh || recAt bs o 1 = v then v else 0xFF
  let bs' := recPut (recPut (recPut (recPut bs 0 1 1) 1 1 (recAt bs 1 1 ||| d.sel)) 2 1 (fmt 2 d.srcFmt)) 3 1
    (fmt 3 d.dstFmt)
  let p := recCap (bs', false) 0x30 d.merges
  let p :=
    if bit d.sel 0 then
      let q := recPut p.1 4 4 (recAt p.1 4 4 ||| d.status % 128)
      let q := recAdd (recAdd (recAdd q 0x08 d.elements) 0x10 d.saturated) 0x18 d.flushed
      let q := match d.srcMax with
        | some e => recPut q 0x28 4 (unsigned 32 (max (signed 32 (recAt q 0x28 4)) e))
        | none => q
      let q := match d.srcMin with
        | some e => recPut q 0x2C 4 (unsigned 32 (min (signed 32 (recAt q 0x2C 4)) e))
        | none => q
      recCap (recCap (recCap (recCap (q, p.2) 0x20 d.nanBlocks) 0x24 d.zeroBlocks) 0x38 d.slowBlocks) 0x3C d.slowStalls
    else p
  let p := if bit d.sel 1 then
      (d.bins.zipIdx).foldl (fun p e => if e.1 = 0 then p else recCap p (0x40 + 4 * e.2) e.1) p
    else p
  let st := ofBool p.2 * stCountCapped + ofBool mixed * stMixed
  (recPut p.1 4 4 (recAt p.1 4 4 ||| (d.status / 128 % 4 * 128) ||| st), st)

/-- What a record holds, as the delta that HIST MERGE adds (R191). [Log DEDUCED 81] -/
def deltaOf (bs : List Byte) : Delta :=
  { sel := recAt bs 1 1, srcFmt := recAt bs 2 1, dstFmt := recAt bs 3 1, status := recAt bs 4 4
    elements := recAt bs 8 8, saturated := recAt bs 0x10 8, flushed := recAt bs 0x18 8
    nanBlocks := recAt bs 0x20 4, zeroBlocks := recAt bs 0x24 4
    srcMax := some (signed 32 (recAt bs 0x28 4)), srcMin := some (signed 32 (recAt bs 0x2C 4))
    merges := recAt bs 0x30 4, slowBlocks := recAt bs 0x38 4, slowStalls := recAt bs 0x3C 4
    bins := (List.range 132).map fun i => recAt bs (0x40 + 4 * i) 4 }

/-- Some record that a list of merges reads is marked (R301). -/
def State.badRecords (s : State) (ms : List (Nat × Delta)) : Bool :=
  ms.any fun m => m.2.sel ≠ 0 && s.poisoned m.1 (m.1 + 640)

/-- A merge into the record at an address of memory; a selection of 0x00 writes nothing (R86), and nothing merges into a marked
record (R301). [Log DEDUCED 81] -/
def State.mergeStats (s : State) (a : Nat) (d : Delta) : State × Nat :=
  if d.sel = 0 || s.poisoned a (a + 640) then (s, 0)
  else
    let r := mergeRecord (s.bytes a 640) d
    (s.write a r.1, r.2)

/-! Reduction flags (R174). -/

/-- CF for results in the order given, a threshold, the step's status, and an empty predicate. -/
def reductionFlags (rs : List Num) (t : Num) (status : Nat) (empty : Bool) : Nat :=
  let lt (x y : Num) : Bool := x.cmp y = some .lt
  let eq (x y : Num) : Bool := x.cmp y = some .eq
  ofBool (rs.all fun r => lt r t) + 2 * ofBool (rs.all fun r => eq r t) + 4 * ofBool (rs.any fun r => lt t r) +
    8 * ofBool (t.isNan || rs.any Num.isNan) + 16 * ofBool (rs.all Num.isZero) +
    32 * ofBool (rs.any fun r => r.isNan || r.isInf) +
    64 * ofBool (bit status 0 || bit status 1 || bit status 2 || bit status 9) + 128 * ofBool empty

end Sys2Proof.Machine
end

