-- ==== Sys2Proof/Machine/ErrorLog.lean ====
section
/-! DEFINITION. The error log, Squall and the freeze trigger (R477 to R482, R494, R495, R653 to R657, R665). -/

namespace Sys2Proof.Machine

/-- What a fault event says of itself; the defaults are those of R478 for "none". -/
structure ErrorEvent where
  code : Nat
  severity : Nat
  outcome : Nat := 0
  unitKind : Nat := 0
  unit : Nat := 0
  addr : Nat := 0
  detail : Nat := 0
  lnode : Nat := 0xFFFFF
  step : Nat := 0
  lbay : Nat := 0xFFFF
  pause : Nat := 0
  deriving DecidableEq, Repr

/-- The node has main power and the supervisor has started: INIT stage 1 or later (R477, R693). [Log DEDUCED 160] -/
def State.supervisorUp (s : State) : Bool :=
  decide (2 ≤ s.reg .nodeState) && (s.reg .inReset = 0)

/-- 2^32 times 2^(-2^-k), for k = 1 to 16. -/
def halfPowers : List Nat :=
  [3037000500, 3611622603, 3938502376, 4112874773, 4202935003, 4248701965, 4271771996, 4283353945, 4289156690,
   4292061010, 4293513907, 4294240540, 4294603903, 4294785595, 4294876445, 4294921870]

/-- Multiply by 2^(-f / 65536), bit by bit of f from the highest. -/
def decayFraction : List Nat → Nat → Nat → Nat → Nat
  | [], _, _, x => x
  | c :: cs, b, f, x => decayFraction cs (b - 1) f (if f.testBit (b - 1) then x * c / 2 ^ 32 else x)

/-- A score after `dt` ns at a half-life of `h` ns (R494), in fixed point (DESIGN CHOICE of the rounding).
[Log DESIGN CHOICE 161] -/
def decay (x dt h : Nat) : Nat :=
  decayFraction halfPowers 16 (dt % h * 65536 / h) (x / 2 ^ (dt / h))

/-- The Squall score now, in units of 2^-16 (R494). [Log DESIGN CHOICE 161] -/
def State.squallNow (s : State) : Nat :=
  let dt := s.now - s.reg .squallAt
  if dt = 0 then s.reg .squallScore16
  else decay (s.reg .squallScore16) dt (s.reg .squallHalflife * 1000000000)

/-- The allowance of an element in events per second (R494, R496). [Log DESIGN CHOICE 33] -/
def State.squallAllowance (s : State) (unitKind unit : Nat) : Nat :=
  let extra :=
    if unitKind = 4 then s.reg .squallAllowStack unit
    else if unitKind = 3 then s.reg .squallAllowStack (unit / 32)
    else if unitKind = 6 then s.reg .squallAllowLink unit
    else if unitKind = 7 then s.reg .squallAllowLink (unit / 16)
    else 0
  max (s.reg .squallAllow) extra

/-- The weight an event adds, and the state after its element's count for the present second (R494). -/
def State.squallWeigh (s : State) (e : ErrorEvent) : Nat × State :=
  let w := s.reg .squallWeight (e.code - 1)
  if e.code = 1 || e.code = 3 || e.code = 6 then
    let key := e.unitKind * 2 ^ 32 + e.unit
    let second := s.now / 1000000000
    let p := Store.at (0, 0) s.squallEvents key
    let n := (if p.1 = second then p.2 else 0) + 1
    let s := { s with squallEvents := Store.put (0, 0) s.squallEvents key (second, n) }
    (if s.squallAllowance e.unitKind e.unit < n then w else 0, s)
  else (w, s)

/-- A Squall warning starts (R495, R555). -/
def State.squallWarns (s : State) : State :=
  if s.reg .squallState = 0 && decide (s.reg .squallWarn * 65536 ≤ s.reg .squallScore16) then
    let s := s.change .squallState 0 1
    let s := s.addReg .squallWarnings 0 1
    (s.raise .alertCause 1).send (.interrupt (s.reg .intJobVec))
  else s

/-- Step number for records: `TSTEP`, 0 without a job (R478). -/
def State.stepNumber (s : State) : Nat := if s.reg .jobActive = 1 then s.reg .tstep else 0

/-- The bytes of `FREEZE_RECORD` (R657). -/
def freezeRecordBytes (gen src code step lbay tf tstep : Nat) : List Byte :=
  leBytes 4 gen ++ leBytes 1 src ++ leBytes 1 code ++ leBytes 2 step ++ leBytes 2 lbay ++ leBytes 6 0 ++
    leBytes 8 tf ++ leBytes 8 tstep

/-- The part of the state that the register sets show, now. -/
def State.setView (s : State) (draw : Nat) : SetView where
  time := s.now
  draw := draw
  regs := s.regs
  bays := s.bays
  harts := s.harts
  narrow := s.narrow
  fills := s.fills
  segments := s.segments
  tagged := s.slotA.tagged ++ s.slotB.tagged
  fronts := (List.range 32).map s.copyFront

/-- The trace unit writes one event to the ring, or drops it at a full queue (R666, R667). -/
def State.trace (s : State) (queueFull : Bool) (bs : List Byte) : State :=
  let n := s.reg .traceRingBytes / 64
  if s.reg .traceRing = 0 || n = 0 then s
  else if queueFull then s.addReg .traceDropped 0 1
  else
    let s := s.jobWrite (s.reg .traceRing + 64 * (s.reg .traceCount % n)) (bs.take 64)
    s.addReg .traceCount 0 1

/-- A source fires the freeze trigger (R653 to R657): an armed trigger freezes every set; a frozen one counts the
firing as missed. [Log DESIGN CHOICE 195; DEDUCED 200] -/
def State.fire (s : State) (src code step lbay : Nat) : State :=
  if s.flag .freezeSrcEn 0 src then
    if s.reg .freezeState = 1 then
      let (k, s) := s.draw
      let tf := s.now + (Config.freezeDelay k).val
      let s := s.addReg .freezeGen 0 1
      let rec' := freezeRecordBytes (s.reg .freezeGen) src code step lbay tf s.stepNumber
      let s := s.setBytes .freezeRecord 0 rec'
      let s := s.setReg .freezeState 0 2
      let d := s.reg .freezeDumpAddr
      let s := s.setReg .dumpWaits 0 (ofBool (d ≠ 0 && decide (d + 145984 ≤ s.reg .stackTop)))
      let s := { s with frozen := some { s.setView k with time := tf }, late := [] }
      s.trace false (rec' ++ leBytes 2 0xFFFF ++ leBytes 1 2 ++ leBytes 5 0 ++ leBytes 8 s.stepNumber ++ leBytes 16 0)
    else if s.reg .freezeState = 0 then s
    else s.addReg .freezeMissed 0 1
  else s

/-- The supervisor records a fault event (R477 to R482): the record, its counts, Squall, the alert and the freeze.
[Log DEDUCED 160] -/
def State.logError (s : State) (e : ErrorEvent) : State :=
  if !s.supervisorUp then s
  else
    let (w, s) := s.squallWeigh e
    let score := s.squallNow + w * 65536
    let s := (s.setReg .squallScore16 0 score).setReg .squallAt 0 s.now
    let seq := s.reg .errorHead + 1
    let r : ErrorRecord :=
      { seq := seq, time := s.now, code := e.code, severity := e.severity, outcome := e.outcome,
        unitKind := e.unitKind, unit := e.unit, addr := e.addr, detail := e.detail, lnode := e.lnode,
        step := e.step, lbay := e.lbay, pause := e.pause, tstep := s.stepNumber, score := score / 4096 }
    let full := decide (4096 ≤ s.errorLog.length)
    let s := { s with errorLog := (r :: s.errorLog).take 4096 }
    let s := s.setReg .errorHead 0 seq
    let s := if full then s.addReg .errorsLost 0 1 else s
    let s := s.addReg .errorCounts (e.code - 1) 1
    let s := s.addReg .errorRate (2 * (e.code - 1)) 1
    let s := s.addReg .errorRate (2 * (e.code - 1) + 1) 1
    let s := s.addReg .ratePast (60 * (e.code - 1)) 1
    let s := s.squallWarns
    let s :=
      if 1 ≤ e.severity ∧ e.severity ≤ 4 then
        ((s.setReg .lastAlertSeq 0 seq).raise .alertCause 0).send (.interrupt (s.reg .intErrorVec))
      else s
    let s :=
      if s.flag .freezeErrMask 0 (e.code - 1) && e.code ≠ 0x0C && e.code ≠ 0x15 then s.fire 1 e.code e.step e.lbay
      else s
    if e.code = 0x0C then s.fire 2 e.code e.step e.lbay else s

/-- The outcome and the pause of a written record are filled in (R478, R490). -/
def State.settleError (s : State) (seq outcome pause : Nat) : State :=
  { s with errorLog := s.errorLog.map fun r =>
      if r.seq = seq then { r with outcome := outcome, pause := pause } else r }

end Sys2Proof.Machine
end

