-- ==== Sys2Proof/Machine/Dictionary.lean ====
section
/-! DEFINITION. The object dictionary: levels and ports, reads, and the checks of a write (R568 to R582, R592, R593,
R599, and the ranges of the chapters' object tables). -/

namespace Sys2Proof.Machine

/-- Length of the register set at an address: header and body (R659, R660). -/
def setLength (a : Nat) : Option Nat :=
  let x := a / 256
  let k := a % 256
  if k = 0 then none
  else if 0x7C20 ≤ x ∧ x < 0x7C28 ∧ k ≤ 34 then some 144
  else if 0x7C30 ≤ x ∧ x < 0x7C38 ∧ k ≤ 34 then some 48
  else if x = 0x7C40 ∧ k ≤ 32 then some 144
  else if x = 0x7C48 ∧ k ≤ 8 then some 48
  else if 0x7C50 ≤ x ∧ x < 0x7C52 ∧ k ≤ 96 then some 272
  else if x = 0x7C58 ∧ k ≤ 24 then some 80
  else if x = 0x7C5C ∧ k ≤ 4 then some 80
  else if x = 0x7C60 ∧ k = 1 then some 80
  else if x = 0x7C64 ∧ k ≤ 48 ∧ ¬ (11 < k ∧ k < 17) then some 32
  else if x = 0x7C68 ∧ k = 1 then some 280
  else if x = 0x7C6C ∧ k ≤ 23 then some 32
  else none

/-- Result codes of R578. -/
abbrev resOk : Nat := 0x00
abbrev resLogFull : Nat := 0x19
abbrev resGated : Nat := 0x1B
abbrev resBusy : Nat := 0x90
abbrev resRange : Nat := 0x91
abbrev resDenied : Nat := 0x92
abbrev resState : Nat := 0x93
abbrev resNoObject : Nat := 0x94
abbrev resLength : Nat := 0x95
abbrev resReadOnly : Nat := 0x96
abbrev resSealed : Nat := 0x97
abbrev resUnsupported : Nat := 0x98
abbrev resAuth : Nat := 0x99

/-- The port's audit origin code (R573). -/
def portOrigin : Port → Nat
  | .host => 1
  | .management => 2
  | .i3c => 3
  | .jtag => 4

/-- The port's ceiling: 2 Administrator, 3 Service (R573). -/
def portCeiling : Port → Nat
  | .host => 2
  | .management => 3
  | .i3c => 2
  | .jtag => 3

/-- The bit of a sideband principal's port mask (R575). -/
def portMaskBit : Port → Nat
  | .host => 8
  | .management => 0
  | .i3c => 1
  | .jtag => 2

/-- The session that a request acts in, once FINISH has completed it: the host port's own, or the one that the request names
on its port (R539, R562). -/
def State.session (s : State) (q : Requester) : Option Session :=
  if q.port = .host then s.sessions.find? fun x => x.port = .host && x.finished
  else q.session.bind fun n => s.sessions.find? fun x => x.port = q.port && x.id = n && x.finished

/-- The first index below `n` at which `p` holds. -/
def firstIndex (n : Nat) (p : Nat → Bool) : Option Nat := (List.range n).find? p

/-- The entry of `HOST_PRINCIPALS` that lists a leaf digest (R562, R566). -/
def State.hostEntry (s : State) (leaf : Nat) : Option Nat :=
  firstIndex 8 fun i => field (s.reg .hostPrincipals i) 0 384 = leaf

/-- The entry of `SIDEBAND_PRINCIPALS` that lists a leaf digest for a port (R574, R575). -/
def State.sidebandEntry (s : State) (p : Port) (leaf : Nat) : Option Nat :=
  firstIndex 16 fun i =>
    field (s.reg .sidebandPrincipals i) 0 384 = leaf && bit (s.reg .sidebandPrincipals i) (392 + portMaskBit p)

/-- The level of a session's principal and its number in audit entries (R562, R574, R577). -/
def State.principalOf (s : State) (x : Session) : Nat × Nat :=
  match x.port with
  | .host =>
    match s.hostEntry x.leaf with
    | some i => (min 2 (field (s.reg .hostPrincipals i) 384 8), i)
    | none => (0, 0xFFFF)
  | p =>
    if x.root = Config.serviceRoot.toNat ∧ p ≠ .i3c then (3, 0x0200)
    else
      match s.sidebandEntry p x.leaf with
      | some i => (min 2 (field (s.reg .sidebandPrincipals i) 384 8), 0x0100 + i)
      | none => (0, 0xFFFF)

/-- The level at which a request acts, and its principal number (R573 to R577). -/
def State.levelOf (s : State) (q : Requester) : Nat × Nat :=
  match s.session q with
  | some x => (min (portCeiling q.port) (s.principalOf x).1, (s.principalOf x).2)
  | none => (if q.port = .i3c then min 2 (s.reg .i3cOpenLevel) else 0, 0xFFFF)

/-- The host port as a requester, and its access level (R562). [Log DESIGN CHOICE 48] -/
def hostRequester : Requester := ⟨.host, none, 0⟩
def State.hostLevel (s : State) : Nat := (s.levelOf hostRequester).1

/-- The level that a write of an access class needs; none where no write is served (R572). -/
def Access.writeLevel : Access → Option Nat
  | .rwOp => some 1
  | .rwAdm => some 2
  | .rwSvc => some 3
  | .woAdm => some 2
  | .ro => none
  | .sealed => none
  | .hidden => none

/-- The INIT stage that starts the subsystem of an index (R693). -/
def stageOfIndex (x : Nat) : Nat :=
  if x < 0x3000 then 1
  else if x < 0x4000 then 4
  else if x < 0x5000 then 3
  else if x < 0x6000 then 5
  else if x < 0x7000 then 2
  else if x < 0x7040 then 1
  else if x < 0x8000 then 6
  else 1

/-- The subsystem of a register has started (R571, R693). [Log DEDUCED 61] -/
def State.started (s : State) (r : Reg) : Bool := decide (stageOfIndex (r.info.addr / 256) ≤ s.reg .stageStarted)

/-- The supervisor serves the dictionary: from the end of INIT stage 1, while MCLK runs (R582). -/
def State.supervisorServes (s : State) : Bool := decide (1 ≤ s.reg .stageStarted) && s.reg .mclkRuns = 1

/-- The always-on island serves a read of this object (R582). -/
def Reg.alwaysOn (r : Reg) : Bool :=
  let x := r.info.addr / 256
  x = 0x1000 || x = 0x1800 || r = .nodeState || r = .initStage || r = .resetCause || r = .xtalState || r = .mgmtLink ||
    r = .taiState || r = .taiNs

/-- A port takes requests: the host link is trained from INIT stage 2 on (R564); the management port speaks while MCLK runs
and no cold reset is owed (R582, R615); the I3C sideband once its enable bit is set at the end of stage 1 (R576, R628); JTAG
whenever VIN_AON is present (R577). [Log DESIGN CHOICE 62] -/
def State.portAnswers (s : State) (p : Port) : Bool :=
  s.reg .aonAbsent = 0 &&
    (match p with
    | .host =>
      (s.reg .nodeState = 2 && decide (2 ≤ s.reg .initStage)) ||
        (decide (3 ≤ s.reg .nodeState) && s.reg .regulatorsOff = 0)
    | .management => s.reg .mclkRuns = 1 && s.reg .mgmtSilent = 0
    | .i3c => s.supervisorServes && s.flag .periphEn 0 0
    | .jtag => true)

/-- A request names a session that the port does not have (R578, R586). -/
def State.unknownSession (s : State) (q : Requester) : Bool :=
  q.port ≠ .host && q.session.isSome && (s.session q).isNone

/-- The objects held in the PTP unit (R628). [Log DEDUCED 52] -/
def Reg.inPtpUnit (r : Reg) : Bool := r = .taiOffsetErr || r = .utcOffset || r = .ptpMaster || r = .ppsRejected

/-- The register lies in a peripheral whose enable bit is clear (R628). [Log DEDUCED 52] -/
def State.gated (s : State) (r : Reg) : Bool := r.inPtpUnit && !s.ptpOn

/-- A state transition that was requested is in progress: Lull requested and not reached, a start fence, a teardown or
a restore (R41, R527). -/
def State.inTransition (s : State) : Bool :=
  s.reg .stateRequest ≠ 0 || s.reg .startPending ≠ 0 || s.reg .teardownPending ≠ 0 ||
    (2 ≤ s.reg .recoveryState && s.reg .recoveryState ≤ 4)

/-- Check 4 of R579: node state and job scope. -/
def State.stateRule (s : State) (r : Reg) (inst v : Nat) : Nat :=
  let st := s.reg .nodeState
  if !s.started r then resState
  else if s.gated r then resGated
  else if 0xA000 ≤ r.info.addr / 256 ∧ st ≠ 8 then resState
  else if r.info.jobScoped ∧ s.jobLoaded then resBusy
  else
    match r with
    | .ctxBase => if s.jobLoaded then resBusy else resOk
    | .clkSel =>
      if ¬ (st = 3 ∨ st = 6 ∨ st = 8) then resState
      else if s.reg .clkSwitching inst ≠ 0 then resBusy
      else if s.reg .clkCompat inst = 1 ∧ !bit (s.reg .clkReady inst) v then resState
      else resOk
    | .location => if st = 2 ∧ s.reg .initEnded = 0 then resOk else resReadOnly
    | .sqBase | .sqSize | .cqBase | .cqSize | .cqVector | .sqLevel =>
      if s.reg .sqEnable inst = 1 then resBusy else resOk
    | .stateRequest =>
      if s.inTransition then resBusy
      else if v = 5 ∧ ¬ ((st = 4 ∨ st = 6) ∧ s.reg .jobRunning = 1) then resState
      else if v = 4 ∧ st ≠ 5 then resState
      else resOk
    | .serviceRequest =>
      if v = 1 ∧ s.inTransition then resBusy
      else if v = 1 ∧ ¬ ((st = 3 ∨ st = 6 ∨ st = 7) ∧ ¬ s.jobLoaded) then resState
      else if v = 0 ∧ st = 8 ∧ s.reg .serviceWork ≠ 0 then resBusy
      else resOk
    | _ => resOk

/-- A die's scratchpad has been disabled, since one of its slices is a pass-through (R338). -/
def State.scratchOff (s : State) (die : Nat) : Bool := (List.range 34).any fun k => s.reg .sliceState (die * 34 + k) = 3

/-- The value lies in the range of the object's table, and keeps the object's own rule (check 5 of R579). `v` is the
value, or the first element of a BLOB; `vs` its elements. A scratchpad that R338 has disabled bounds nothing (R147).
[Log DESIGN CHOICE 223, 225] -/
def State.inRange (s : State) (r : Reg) (inst v : Nat) (vs : List Nat) : Bool :=
  let top := s.reg .stackTop
  match r with
  | .stateRequest => v = 4 || v = 5
  | .serviceRequest | .tailwindEn | .mapoutForce | .wipeRoster | .collRerun | .strict | .fixedTiming | .xwEnable
  | .drainEnable | .sqEnable | .jp1Enable | .ptpEnable | .auditHostHold | .clkCompat | .latClear => v ≤ 1
  | .lullDeadline => 1 ≤ v && v ≤ 60000
  | .subn | .acc => v ≤ 1
  | .stats => v ≤ 3
  | .ctxBase => v % 4096 = 0
  | .rosterBytes => v % 0x80000000 = 0 && v ≤ 0x1000000000 && s.rosterTop ≤ v
  | .rosterLlm =>
    v ≤ 256 && (List.range 8).all (fun d => s.scratchOff d || decide (v ≤ 24 * s.reg .llmScratchWays d)) &&
      (!s.jobLoaded || v ≤ s.reg .rosterLlmAtLoad)
  | .tailwindDepth => 1 ≤ v && v ≤ 64
  | .carryHeadroom => v ≤ 15
  | .descBase => v % 64 = 0
  | .descCount => v ≤ 16777216
  | .completionRing => v % 4096 = 0
  | .deadlineDefault | .collDeadlineBase => 1 ≤ v
  | .deadlinePolicy => v ≤ 2
  | .strictConvert | .collOverflowPolicy | .ftThermalPolicy | .xwPolicy => v ≤ 1
  | .coreReserve => v ≤ 8
  | .hartCount => v ≤ 32 * (96 - s.reg .coreReserve)
  | .hartStart | .apertureBase | .mailQueues => v % 32 = 0
  | .apertureCount => v ≤ 256
  | .allocTop => v % 0x80000000 = 0 && s.reg .rosterBytes ≤ v && v ≤ top
  | .scrubPeriod => 1 ≤ v && v ≤ 168
  | .remapThreshold => 1 ≤ v && v ≤ 15
  | .llmScratchWays => if s.scratchOff inst then v = 0 else v ≤ 16 && s.reg .rosterLlm ≤ 24 * v
  | .bypassThreshold => 8 ≤ v && v ≤ 64
  | .jobMap => v % 4 = 0
  | .jobNodes => v ≤ 1048576
  | .mcastBase | .digestRing => v % 64 = 0
  | .mailTimeout => 10 ≤ v && v ≤ 1000000
  | .mailHopLimit => 2 ≤ v && v ≤ 32
  | .remoteTimeout => 10 ≤ v && v ≤ 100000
  | .tcWeight => vs.all (fun x => 1 ≤ x && x ≤ 64) && 8 ≤ vs.getD 7 0
  | .laneSerLimit => 1 ≤ v
  | .linkCmd => 1 ≤ v && v ≤ 3
  | .linkGenMax => v = 2 || v = 3
  | .jobEpoch => s.reg .retiringEpoch = 0 || v ≠ s.reg .retiringEpoch
  | .collGroups => v % 128 = 0
  | .collGrid => 1 ≤ vs.foldl (· * ·) 1 && vs.foldl (· * ·) 1 ≤ 1048576
  | .xwPartner => v ≤ 16 || v = 0xFF
  | .xwLag => v ≤ 2
  | .xwLog | .xwLogBytes => v % 4096 = 0
  | .peerLossTime => 100 ≤ v && v ≤ 100000
  | .squallWarn => 1 ≤ v
  | .squallClear => v < s.reg .squallWarn
  | .squallHalflife => 1 ≤ v && v ≤ 86400
  | .snapList => v % 8 = 0
  | .snapCount => v ≤ 4096
  | .shardStoreBytes => v % 0x8000000 = 0 && v ≤ 0x3000000000
  | .drainDeadline => 1 ≤ v && v ≤ 600000
  | .hostGenMax => 4 ≤ v && v ≤ 6
  | .intErrorVec | .intJobVec | .cqVector => v ≤ 2047
  | .hostPrincipals | .sidebandPrincipals => vs.all fun x => field x 384 8 ≤ 2
  | .sqBase | .cqBase => v % 64 ≤ 1
  | .sqSize | .cqSize => 4 ≤ v && v ≤ 16
  | .sqLevel | .i3cOpenLevel => v ≤ 2
  | .ptpDomain => v ≤ 127
  | .ppsMode => v ≤ 2
  | .auditAckHost => v ≤ s.reg .auditHead
  | .auditHoldTimeout => 1 ≤ v && v ≤ 3600
  | .periphEn => bit v 5 || !s.flag .periphEn 0 5 || s.reg .nodeState = 8
  | .clkSel => v ≤ 3 && inst < 48
  | .powerCap => 2000 ≤ v && v ≤ 7700
  | .cclkMax => 800 ≤ v && v ≤ 2000 && v % 25 = 0 && !(s.jobLoaded && s.reg .fixedTiming = 1 && v < 1600)
  | .pclkMax => 1000 ≤ v && v ≤ 2400 && v % 25 = 0 && !(s.jobLoaded && s.reg .fixedTiming = 1 && v < 2000)
  | .tjThrottle => 80 ≤ v && v ≤ 95
  | .coolFlowBoard => v ≤ 1000
  | .freezeCmd => 1 ≤ v && v ≤ 3
  | .freezeHold => v ≤ 3600000
  | .freezeDumpAddr => v = 0 || (v % 64 = 0 && s.reg .rosterBytes ≤ v && v + 145984 ≤ top)
  | .latSample => v ≤ 16
  | .traceRing => v % 64 = 0 && (v = 0 || v < top)
  | .traceRingBytes => v % 4096 = 0 && v ≤ 0x40000000
  | _ => true

/-- Reserved bits and bytes of element `k` of a value are ignored on a write (R14, R30, R369, R372, R511, R566, R575). -/
def maskWrite (r : Reg) (k v : Nat) : Nat :=
  match r with
  | .periphEn => v % 64
  | .freezeSrcEn => v % 32
  | .freezeErrMask => v % 2 ^ 28
  | .groupMap => v % 2 ^ 22
  | .routes => field v 0 37 + field v 40 34 * 2 ^ 40
  | .recoveryCmd => if 4 ≤ k ∧ k < 8 then 0 else v
  | .hostPrincipals => v % 2 ^ 392
  | .sidebandPrincipals => v % 2 ^ 395
  | _ => v

/-- The elements of a register as a write of `bs` leaves them (R14). -/
def Reg.taken (r : Reg) (bs : List Byte) : List Nat :=
  (pieces r.info.esize r.info.elems bs).mapIdx fun k b => maskWrite r k (ofLe b)

/-- Objects whose change during a job applies at the next time-step boundary (R94, R146, R196, R241, R443, R532, R667).
[Log DESIGN CHOICE 23] -/
def Reg.atBoundary : Reg → Bool
  | .subn | .acc | .stats | .carryHeadroom | .rosterLlm | .tailwindEn | .deadlineDefault | .deadlinePolicy
  | .strictConvert | .collRerun | .collOverflowPolicy | .collDeadlineBase | .snapInterval | .drainDeadline
  | .traceRing | .traceRingBytes => true
  | _ => false

/-- A write of this object now waits for the next boundary: a job runs, or for the roster objects is loaded.
[Log DESIGN CHOICE 23, 217] -/
def State.defers (s : State) (r : Reg) : Bool :=
  r.atBoundary && (if r = .rosterLlm || r = .tailwindEn then s.jobLoaded else s.reg .jobRunning = 1)

/-- Checks 3 to 5 of R579: class and level, node state and job scope, range and the object's own rule. -/
def State.writeChecks (s : State) (q : Requester) (r : Reg) (inst : Nat) (bs : List Byte) : Nat :=
  match r.info.access.writeLevel with
  | none => if r.info.access = .sealed then resSealed else resReadOnly
  | some l =>
    if (s.levelOf q).1 < l then resDenied
    else
      let vs := (pieces r.info.esize r.info.elems bs).map ofLe
      let v := vs.headD 0
      let c := s.stateRule r inst v
      if c ≠ resOk then c else if s.inRange r inst v vs then resOk else resRange

/-- The answer of the dictionary goes to the requester (R578). -/
def State.answer (s : State) (q : Requester) (obj code : Nat) : State := s.send (.dictionary q obj code)

/-- A refusal that is not logged is counted (R593). [Log DESIGN CHOICE 60] -/
def State.countRefused (s : State) : State := s.addReg .dictRefused 0 1

/-- A request to a gated object writes an error record (R628). -/
def State.noteGated (s : State) (code : Nat) : State :=
  if code = resGated then s.logError { code := 0x1B, severity := 5 } else s

/-- What a register must settle before its value changes: the Squall score, before its half-life (R494); and a value that an
earlier write left for the boundary gives way to the new one (R94, R241). -/
def State.beforeChange (s : State) (r : Reg) (inst : Nat) : State :=
  let s := if r = .squallHalflife then (s.setReg .squallScore16 0 s.squallNow).setReg .squallAt 0 s.now else s
  { s with deferred := s.deferred.filter fun e => e.1 ≠ (r, inst) }

/-- The write of a whole value that has passed checks 1 and 2 of R579: checks 3 to 6, the audit entry, then the effect; the
result code, and the state. `effect` is what the object's write does; it has already the value. `own` is the refusal of the
object's own rule where it needs more than the registers, 0 for none. -/
def State.writeObject (s : State) (q : Requester) (r : Reg) (inst : Nat) (bs : List Byte)
    (effect : State → State) (own : Nat := resOk) : Nat × State :=
  let obj := r.objAt inst
  let code := s.writeChecks q r inst bs
  let code := if code = resOk then own else code
  let who := (s.levelOf q).2
  let old := s.regBytes r inst
  if code ≠ resOk then
    let s := s.noteGated code
    (code,
      if r = .auditAckHost then s
      else if s.auditRoom then s.appendAudit obj (portOrigin q.port) who code 0 old bs
      else s.addReg .auditRefused 0 1)
  else if !s.auditRoom ∧ r ≠ .auditAckHost then
    let s := (s.addReg .auditRefused 0 1).countRefused
    (resLogFull,
      if s.reg .auditRefusing = 0 then (s.setReg .auditRefusing 0 1).logError { code := 0x19, severity := 5 } else s)
  else
    let later := s.defers r
    let s := if r = .auditAckHost then s else
        (s.appendAudit obj (portOrigin q.port) who resOk (16 * ofBool later) old bs).setReg .auditRefusing 0 0
    let vs := r.taken bs
    (resOk,
      if later then { s with deferred := s.deferred.filter (fun e => e.1 ≠ (r, inst)) ++ [((r, inst), vs.headD 0)] }
      else effect ((s.beforeChange r inst).setRegs r (inst * r.info.elems) vs))

/-- The highest populated subindex of an index; none for an index that is not populated (R568). -/
def topSubindex (x : Nat) : Option Nat :=
  (List.range 256).reverse.find? fun k => (Reg.atAddr (x * 256 + k)).isSome || (k ≠ 0 && (setLength (x * 256 + k)).isSome)

/-- A write of subindex 0 or of a register set, which are RO objects without a register of their own (R568, R668), or of
an address that is not populated. -/
def State.writeReadOnly (s : State) (q : Requester) (addr : Nat) (bs : List Byte) : Nat × State :=
  let len := if addr % 256 = 0 then (topSubindex (addr / 256)).map fun _ => 1 else setLength addr
  match len with
  | none => (resNoObject, s.countRefused)
  | some n =>
    if bs.length ≠ n then (resLength, s.countRefused)
    else
      (resReadOnly,
        if s.auditRoom then s.appendAudit addr (portOrigin q.port) (s.levelOf q).2 resReadOnly 0 [] bs
        else s.addReg .auditRefused 0 1)

/-- The registers of `AUDITED_STATE`, in the order of the rule (R589). -/
def auditedRegs : List Reg :=
  [.nodeState, .degradeCause, .logicalId, .physId, .bayState, .lbayMap, .baySparesLeft, .hartMap, .coreReserveLeft,
    .supActive, .supStandbyOk, .channelState, .stackTop, .mapoutOrder, .sliceState, .sliceSparesLeft, .bridgeState,
    .couplerState, .linkState, .linkGen, .laneMap, .regionCount, .retiringEpoch, .hostLink, .squallState, .slotValid,
    .recoveryState, .xwState, .taiState, .fwImage]

/-- The bytes of `AUDITED_STATE`: 4 B for the address of each object (R610). -/
def auditedBytes : List Byte :=
  auditedRegs.flatMap fun r => (List.range r.info.count).flatMap fun i => leBytes 4 (r.objAt i)

/-- Length of an object. -/
def Reg.size (r : Reg) : Nat :=
  match r with
  | .partNumber => partNumberBytes.length
  | .serial => (Config.serial.take 255).length
  | .auditedState => auditedBytes.length
  | _ => r.info.esize * r.info.elems

/-- A write request of R579 with all its bytes: existence and length, then `writeObject`. Requests that the
always-on island serves are reads only (R582); a session that the port does not have fails (R578). -/
def State.serveWrite (s : State) (q : Requester) (addr : Nat) (bs : List Byte)
    (effect : Reg → Nat → State → State) (own : Reg → Nat := fun _ => resOk) : Nat × State :=
  if !s.supervisorServes then (resState, s)
  else if s.unknownSession q then (resAuth, s.countRefused)
  else
    match Reg.atAddr addr with
    | none => s.writeReadOnly q addr bs
    | some (r, inst) =>
      if bs.length ≠ r.size then (resLength, s.countRefused)
      else s.writeObject q r inst bs (effect r inst) (own r)

/-- A write request that comes in at a port, and its answer (R578, R579). [Log DEDUCED 119] -/
def State.writeRequest (s : State) (q : Requester) (addr : Nat) (bs : List Byte)
    (effect : Reg → Nat → State → State) (own : Reg → Nat := fun _ => resOk) : State :=
  if !s.portAnswers q.port then s
  else
    let (code, s) := s.serveWrite q addr bs effect own
    s.answer q addr code

/-- The values that wait for the boundary take effect (R94). -/
def State.applyDeferred (s : State) : State :=
  { s.deferred.foldl (fun t e => t.setReg e.1.1 e.1.2 e.2) s with deferred := [] }

end Sys2Proof.Machine
end

