-- ==== Sys2Proof/Machine/Wire.lean ====
section
/-! DEFINITION. The links of the fabric as the node's packets use them: positions, paths and detours, the retry buffer and the wait for
a link, requests and their numbering, messages of control, and the end of a Crosswind pairing (R351 to R370, R399, R474). -/

namespace Sys2Proof.Machine

/-! Positions and paths (R353, R354, R363, R369). -/

/-- Link of a group slot (R353). -/
def slotLink (j : Nat) : Nat := 6 * (j / 4) + j % 4

/-- Group slot of a link, none for a between-group link (R353). -/
def linkSlot (l : Nat) : Option Nat := if l % 6 < 4 then some (4 * (l / 6) + l % 6) else none

/-- Link of between-group link `n` (R353). -/
def betweenLink (n : Nat) : Nat := 6 * (n / 2) + 4 + n % 2

/-- This node's position. -/
def State.pos (s : State) : Nat := s.reg .posStrap

/-- Slot by which position `p` reaches position `q` (R354). -/
def slotTo (p q : Nat) : Nat := (q + 34 - p - 1) % 17

/-- Link by which this node reaches a position directly. -/
def State.linkOf (s : State) (q : Nat) : Nat := slotLink (slotTo s.pos q)

/-- `LINK_STATE` of the link to a position. -/
def State.linkTo (s : State) (q : Nat) : Nat := s.reg .linkState (s.linkOf q)

abbrev linkAbsent : Nat := 0
abbrev linkTraining : Nat := 1
abbrev linkUp : Nat := 2
abbrev linkPaused : Nat := 3
abbrev linkLost : Nat := 4
abbrev linkMiswired : Nat := 5
abbrev linkDisabled : Nat := 6

/-- A link carries traffic, at once or when its lane test ends (R358). -/
def linkCarries (st : Nat) : Bool := st = linkUp || st = linkPaused

/-- The direct link to a position is unusable (R363). -/
def State.unusable (s : State) (q : Nat) : Bool :=
  let st := s.linkTo q
  st = linkLost || st = linkDisabled || (st = linkAbsent && bit (s.reg .linkWasUp) (s.linkOf q))

/-- The intermediate peer of a detour to `q`: the first position after `q` whose links to both ends are UP (R363). -/
def State.detour (s : State) (q : Nat) : Option Nat :=
  (((List.range 17).map fun k => (q + 1 + k) % 17).filter fun r => r ≠ q && r ≠ s.pos).find? fun r =>
    s.linkTo r = linkUp && Store.at 0 s.peerLinks (r * 16 + slotTo r q) = linkUp

/-- The peer that a packet to `q` is handed to: `q` itself, the intermediate of a detour, or none (R363, R366). -/
def State.hopTo (s : State) (q : Nat) : Option Nat :=
  if linkCarries (s.linkTo q) then some q else if s.unusable q then s.detour q else none

/-- `DETOURS`: peers now reached by detour (R404). -/
def State.countDetours (s : State) : State :=
  s.setReg .detours 0 ((List.range 17).filter fun q => q ≠ s.pos && s.unusable q && (s.detour q).isSome).length

/-- Entry of `GROUP_MAP` at a position: its logical node, where the entry is valid and not the hot spare's (R369). -/
def State.nodeAt (s : State) (q : Nat) : Option Nat :=
  let e := s.reg .groupMap q
  if q < 17 && bit e 20 && !bit e 21 then some (e % 2 ^ 20) else none

/-- The logical node of a position, 0xF_FFFF where it holds none. -/
def State.nodeOf (s : State) (q : Nat) : Nat := (s.nodeAt q).getD 0xFFFFF

/-- Position that holds a logical node (R369). -/
def State.posOf (s : State) (n : Nat) : Option Nat := (List.range 17).find? fun q => s.nodeAt q = some n

/-- This node's logical identifier; 0xF_FFFF when it holds none. -/
def State.lnode (s : State) : Nat := s.nodeOf s.pos

/-- The hot spare of the group (R369). -/
def State.sparePos (s : State) : Option Nat :=
  (List.range 17).find? fun q => q ≠ s.pos && bit (s.reg .groupMap q) 21

/-- The other position of the group that a `DST` names: 0xF_FFFF names the hot spare. [Log DESIGN CHOICE 252] -/
def State.dstPos (s : State) (n : Nat) : Option Nat :=
  let q := if n = 0xFFFFF then s.sparePos else s.posOf n
  q.bind fun q => if q = s.pos then none else some q

/-- Position of a peer: a job member of this node's group other than itself (R380). -/
def State.peerPos (s : State) (n : Nat) : Option Nat := (s.posOf n).bind fun q => if q = s.pos then none else some q

/-- Positions of the job members of the group other than this node. -/
def State.peers (s : State) : List Nat := (List.range 17).filter fun q => q ≠ s.pos && (s.nodeAt q).isSome

/-! What packets carry (R351, R368). -/

/-- Bytes of a message of a collective. [Log DESIGN CHOICE 142] -/
def collPayload : CollMsg → Nat
  | .up _ vs cs _ _ => 8 * (vs.length + 2 * cs.length + 3)
  | .down _ vs _ => 8 * (vs.length + 2)
  | .token _ _ cs => 8 * (2 * cs.length + 2)
  | _ => 8

/-- `LEN`: payload bytes that a packet carries. Of a message of control the spec gives no layout: each number in it counts 8 B.
[Log DESIGN CHOICE 142] -/
def bodyPayload : Body → Nat
  | .readResp d _ => d.length
  | .write d _ => d.length
  | .amo _ n _ => n
  | .amoResp _ _ => 8
  | .racc _ _ _ d _ => d.length
  | .signal _ _ => 8
  | .mail _ _ _ _ d _ => d.length
  | .close _ => 8
  | .linkState l => l.length
  | .coll _ _ _ m => collPayload m
  | .shard _ i => ((i.tensors.map fun t => t.data.length).foldl (· + ·) 0) / 15
  | .shardData _ _ _ _ d => d.length
  | .shardAck _ _ => 8
  | .takeover _ => 8
  | .nodeDigest _ _ => 16
  | .xwPair _ => 64
  | .xwDigest _ _ => 16
  | .xwStreams _ l => 8 * (l.length + 1)
  | .xwChunks _ l => 8 * (2 * l.length + 1)
  | .xwBytes _ _ d _ => d.length + 16
  | _ => 0

/-- A packet that a source sends again until it is answered: the rest is held until its link has taken it. -/
def bodyAsks : Body → Bool
  | .read _ => true
  | .write _ _ => true
  | .amo _ _ _ => true
  | .racc _ _ _ _ _ => true
  | .signal _ _ => true
  | _ => false

/-- Bytes of a packet with its header of 32 B (R368). -/
def packetBytes (p : Packet) : Nat := 32 + bodyPayload p.body

/-- Flits that a packet takes, at 248 B of packet data each (R351). [Log DESIGN CHOICE 140] -/
def packetFlits (p : Packet) : Nat := ceilDiv (packetBytes p) 248

/-- The packet that leaves by a link. -/
def Output.packet? : Output → Option Packet
  | .packet _ _ p => some p
  | .mailOut _ p => some p
  | _ => none

/-! Links (R351, R361, R399). -/

/-- Flits in the retry buffer of a link. -/
def State.unacked (s : State) (l : Nat) : Nat := ((s.retry.filter fun e => e.link = l).map LinkFlits.count).foldl (· + ·) 0

/-- A packet goes out on a link: its flits stay in the retry buffer of 512 KiB until they are acknowledged. It waits while the link is
PAUSED, while the buffer has no room, and behind a packet of its class that waits (R351, R361, R399). [Log DESIGN CHOICE 140] -/
def State.sendOn (s : State) (l : Nat) (o : Output) : State :=
  let n := (o.packet?.map packetFlits).getD 0
  let cls := (o.packet?.map fun p => p.h.tclass.val).getD 0
  if s.reg .linkState l = linkUp && decide (s.unacked l + n ≤ 2048) &&
      !(s.linkQueue.any fun w => w.link = l && w.cls = cls) then
    let k := Store.at 0 s.flitNext l
    { s with
      retry := s.retry ++ [(⟨l, k, n, o⟩ : LinkFlits)]
      flitNext := Store.put 0 s.flitNext l ((k + n) % 65536) }.send o
  else { s with linkQueue := s.linkQueue ++ [(⟨l, cls, o⟩ : LinkPacket)] }

/-- The packets that wait for a link go out in order, as far as it takes them. [Log DESIGN CHOICE 257] -/
def State.pumpLink (s : State) (l : Nat) : State :=
  (s.linkQueue.filter fun w => w.link = l).foldl (fun (t : State) w => t.sendOn l w.out)
    { s with linkQueue := s.linkQueue.filter fun w => w.link ≠ l }

/-- A packet goes out toward a position. With no way there, a request is left to its answer's absence, and another packet is held; a
forwarded packet takes the direct link only (R363 to R366). -/
def State.emit (s : State) (q : Nat) (p : Packet) : State :=
  match s.hopTo q with
  | some v =>
    if p.h.fwd && decide (v ≠ q) then { s with stuck := s.stuck ++ [(q, p)] } else s.sendOn (s.linkOf v) (.packet q v p)
  | none => if bodyAsks p.body then s else { s with stuck := s.stuck ++ [(q, p)] }

/-- What is held or waits for a link that carries nothing any more: requests are sent again by their source, packets to positions are
held for a new way, and mail is left to its source (R365, R373). -/
def State.dropLink (s : State) (l : Nat) : State :=
  let outs := (s.retry.filter fun e => e.link = l).map LinkFlits.out ++ (s.linkQueue.filter fun w => w.link = l).map LinkPacket.out
  { s with
    retry := s.retry.filter fun e => e.link ≠ l
    linkQueue := s.linkQueue.filter fun w => w.link ≠ l
    flitNext := Store.put 0 s.flitNext l 0
    stuck := s.stuck ++ outs.filterMap fun o => match o with
      | .packet q _ p => if bodyAsks p.body then none else some (q, p)
      | _ => none }

/-! Sending (R365, R368, R379, R382). -/

/-- A header of a packet from this node. -/
def State.header (s : State) (cls dst seq offset key : Nat) : Header where
  tclass := Fin.ofNat 8 cls
  fwd := false
  epoch := BitVec.ofNat 16 (s.reg .jobEpoch)
  dst := Fin.ofNat 1048576 dst
  src := Fin.ofNat 1048576 s.lnode
  seq := BitVec.ofNat 16 seq
  offset := BitVec.ofNat 44 offset
  key := BitVec.ofNat 64 key

/-- The node may send packets of its job: it has sent its fence message (R379). -/
def State.maySend (s : State) : Bool := s.reg .jobEpoch = 0 || s.reg .fenceJoined = 1

/-- A request goes to the peer at a position, numbered in its class, and waits for its answer; before the node's own fence message it
stays here (R379). -/
def State.request (s : State) (a : Agent) (q cls offset key : Nat) (body : Body) : State :=
  let n := s.nodeOf q
  let k := n * 8 + cls
  let seq := Store.at 0 s.seqOut k
  let p : Packet := ⟨s.header cls n seq offset key, body⟩
  let s := { s with seqOut := Store.put 0 s.seqOut k ((seq + 1) % 65536), requests := s.requests ++ [(⟨a, q, p⟩ : Request)] }
  if s.maySend then s.emit q p else s

/-- Every unanswered packet to a position is sent again, in order, on a new path, and what was held for it goes out (R365). -/
def State.resendTo (s : State) (q : Nat) : State :=
  let s := if s.maySend then (s.requests.filter fun r => r.pos = q).foldl (fun (t : State) r => t.emit q r.p) s else s
  (s.stuck.filter fun e => e.1 = q).foldl (fun (t : State) e => t.emit q e.2) { s with stuck := s.stuck.filter fun e => e.1 ≠ q }

/-- A message of control of class 7 to a position. -/
def State.control (s : State) (q : Nat) (body : Body) : State := s.emit q ⟨s.header 7 (s.nodeOf q) 0 0 0, body⟩

/-- A message of class 7 that carries epoch 0: a link state, or one of Crosswind (R376). -/
def State.plain (s : State) (q : Nat) (body : Body) : Packet := ⟨{ s.header 7 (s.nodeOf q) 0 0 0 with epoch := 0 }, body⟩

/-- A message to the Crosswind partner (R467). -/
def State.tellPartner (s : State) (body : Body) : State := s.emit (s.reg .xwPartner) (s.plain (s.reg .xwPartner) body)

/-! The Crosswind pairing (R473, R474). -/

abbrev xwOff : Nat := 0
abbrev xwPairing : Nat := 1
abbrev xwPaired : Nat := 2
abbrev xwRefused : Nat := 3
abbrev xwDiverged : Nat := 4
abbrev xwEnded : Nat := 5

/-- The hold of a bay's issued entry ends, and its time joins `XW_HOLD_NS` (R470). -/
def State.endHold (s : State) (b : Nat) : State :=
  let x := s.bay b
  match x.head with
  | some f =>
    if f.status = 0 then s
    else (s.addReg .xwHoldNs 0 (s.now + 1 - f.status)).setBay b { x with head := some { f with status := 0 } }
  | none => s

/-- `XW_STATE` changes; leaving PAIRED raises the job interrupt and releases every hold (R473, R474, R555). -/
def State.setXw (s : State) (v : Nat) : State :=
  let was := s.reg .xwState
  let s := s.change .xwState 0 v
  if was = xwPaired && v ≠ xwPaired then s.bays.foldl (fun (u : State) e => u.endHold e.1) (s.send (.interrupt (s.reg .intJobVec)))
  else s

/-- The pairing ends and the node goes on unpaired (R474). [Log DEDUCED 157] -/
def State.endPairing (s : State) : State :=
  if s.reg .xwState = xwPaired then ({ s with xwOwn := [], xwDiff := none }.setXw xwEnded).raise .alertCause 5 else s

/-- The pairing ends, and the partner hears of it (R474). -/
def State.leavePairing (s : State) : State :=
  if s.reg .xwState = xwPaired then (s.tellPartner (.xwPair none)).endPairing else s

/-- A pairing ends when the partner can no longer be reached (R366, R474). -/
def State.checkPartner (s : State) : State :=
  if s.reg .xwState = xwPaired && (s.hopTo (s.reg .xwPartner)).isNone then s.endPairing else s

/-- A packet's source position: the one whose link it came over, or for a forwarded one the one that its `SRC` names (R370). -/
def State.cameFrom (s : State) (q : Nat) (h : Header) : Nat := if h.fwd then (s.dstPos h.src.val).getD q else q

end Sys2Proof.Machine
end

