-- ==== Sys2Proof/Machine/Queues.lean ====
section
/-! DEFINITION. Completion queues of the host port and notifications (R540, R543, R544, R555, R556). -/

namespace Sys2Proof.Machine

/-- Entries of a completion queue. -/
def State.cqSize (s : State) (q : Nat) : Nat := 2 ^ s.reg .cqSize q

/-- A completion queue has no room. -/
def State.cqFull (s : State) (q : Nat) : Bool :=
  (s.reg .cqTail q + 1) % s.cqSize q = s.reg .cqHead q % s.cqSize q

/-- Completions of a queue wait for room. -/
def State.cqWaits (s : State) (q : Nat) : Bool := s.cqHeld.any fun e => e.queue = q

/-- `SQ_STATE` of a queue follows: a running queue is held while its completion queue is full, and a stopped one drains until
its commands have completed (R544, R566). -/
def State.showQueue (s : State) (q : Nat) : State :=
  let st := s.reg .sqState q
  let busy := s.cmds.any (fun c => c.queue = q) || s.cqWaits q
  if s.reg .sqEnable q = 1 then s.setReg .sqState q (if s.cqFull q || s.cqWaits q then 3 else 1)
  else if st = 0 then s
  else s.setReg .sqState q (if busy then 2 else 0)

/-- Bytes of a completion entry (R543). -/
def State.completionBytes (s : State) (e : Completion) : List Byte :=
  leBytes 2 e.cid ++ leBytes 1 e.queue ++ leBytes 1 e.status ++ leBytes 2 (s.reg .sqHead e.queue) ++
    leBytes 1 (1 - s.reg .cqWraps e.queue % 2) ++ leBytes 1 0 ++ leBytes 8 e.res0 ++ leBytes 8 e.done ++ leBytes 8 0

/-- Bytes go to node memory where bit [0] of the base says so, and to host memory otherwise (R540). A place in the roster region, or
one that does not exist, takes nothing (R131, R135, R304). [Log DESIGN CHOICE 246] -/
def State.ringWrite (s : State) (base off : Nat) (bs : List Byte) : State :=
  let a := base / 2 * 2 + off
  if base % 2 = 0 then s.send (.hostWrite a bs) else if s.hostMay a then s.write a bs else s

/-- An entry is written and its vector raised (R543, R555). -/
def State.putCompletion (s : State) (e : Completion) : State :=
  let q := e.queue
  let n := s.reg .cqTail q
  let s := s.ringWrite (s.reg .cqBase q) (32 * n) (s.completionBytes e)
  let s := if n + 1 < s.cqSize q then s.setReg .cqTail q (n + 1) else (s.setReg .cqTail q 0).addReg .cqWraps q 1
  if e.noInt then s else s.send (.interrupt (s.reg .cqVector q))

/-- A completion is posted, or waits for room (R544). -/
def State.postCompletion (s : State) (e : Completion) : State :=
  if s.cqFull e.queue || s.cqWaits e.queue then { s with cqHeld := s.cqHeld ++ [e] } else s.putCompletion e

/-- Completions of a queue that waited for room are written while there is some; `n` bounds them (R544). -/
def State.flushHeld (s : State) (q : Nat) : Nat → State
  | 0 => s
  | n + 1 =>
    if s.cqFull q then s
    else
      match s.cqHeld.find? fun e => e.queue = q with
      | none => s
      | some e => ({ s with cqHeld := s.cqHeld.erase e }.putCompletion e).flushHeld q n

/-! Fetch (R541 to R546, R549, R564). -/

/-- Opcodes of the commands (R546). -/
def opcListed (opc : Nat) : Bool := [1, 2, 3, 8, 9, 0x10, 0x11, 0x18, 0x19, 0x20, 0x21].contains opc

/-- The command that an entry holds (R542). -/
def commandOf (q : Nat) (bs : List Byte) : HostCmd where
  queue := q
  cid := leAt bs 2 2
  opc := leAt bs 0 1
  cflags := leAt bs 1 1
  arg0 := leAt bs 8 8
  arg1 := leAt bs 0x10 8
  arg2 := leAt bs 0x18 8
  started := false

/-- Offset of the first reserved field of an entry that is not zero (R542, R545). -/
def reservedField (bs : List Byte) : Option Nat :=
  if leAt bs 1 1 / 8 ≠ 0 then some 1
  else if leAt bs 4 4 ≠ 0 then some 4
  else if leAt bs 0x20 32 ≠ 0 then some 0x20
  else none

/-- Level at which a queue's commands act: the lower of `SQ_LEVEL` and the port's (R541). -/
def State.queueLevel (s : State) (q : Nat) : Nat := min (s.reg .sqLevel q) s.hostLevel

/-- The status and `RES0` with which a command ends at fetch; none where it is taken (R541, R545, R546, R549).
[Log DEDUCED 182] -/
def State.fetchRefusal (s : State) (q : Nat) (bs : List Byte) : Option (Nat × Nat) :=
  let opc := leAt bs 0 1
  if !opcListed opc then some (0x80, 0)
  else if s.queueLevel q < 1 then some (0x92, 1)
  else
    match reservedField bs with
    | some off => some (0x80, off)
    | none => if s.reg .teardownPending ≠ 0 then some (0x93, s.reg .nodeState) else none

/-- The entry at the head of a submission ring: in node memory, or as the host had written it at its doorbell (R540). One that is
marked poisoned (R301), or lies where the host reaches nothing, is not taken. [Log DESIGN CHOICE 246] -/
def State.nextEntry (s : State) (q : Nat) : Option (List Byte × State) :=
  let base := s.reg .sqBase q
  let a := base / 2 * 2 + 64 * s.reg .sqHead q
  if base % 2 = 1 then
    if s.hostMay a && !s.poisoned a (a + 64) then some (s.bytes a 64, s) else none
  else
    (s.rung.find? fun e => e.1 = q).map fun e => (e.2, { s with rung := s.rung.erase e })

/-- Entries of a queue are fetched in order, while there is room for their completions and commands in progress; `n` bounds
them (R541, R544). -/
def State.fetch (s : State) (q : Nat) : Nat → State
  | 0 => s
  | n + 1 =>
    if s.reg .sqEnable q = 0 || s.reg .sqHead q = s.reg .sqTail q || s.cqFull q || s.cqWaits q ||
        16 ≤ s.cmds.countP (fun c => c.queue = q) || 256 ≤ s.cmds.length then s
    else
      match s.nextEntry q with
      | none => s
      | some (bs, s) =>
        let s := s.setReg .sqHead q ((s.reg .sqHead q + 1) % 2 ^ s.reg .sqSize q)
        let c := commandOf q bs
        match s.fetchRefusal q bs with
        | some (status, res0) =>
          (s.postCompletion ⟨q, c.cid, status, res0, s.now, bit c.cflags 1⟩).fetch q n
        | none => { s with cmds := s.cmds ++ [c] }.fetch q n

/-- Every queue fetches what it can. -/
def State.fetchAll (s : State) : State :=
  (List.range 64).foldl (fun (u : State) q =>
    if u.reg .sqEnable q = 0 then u else (u.fetch q 65536).showQueue q) s

/-- A command completes; the completion of one whose queue is gone is discarded (R545, R565). -/
def State.endCmd (s : State) (c : HostCmd) (status res0 : Nat) : State :=
  let s := { s with cmds := s.cmds.erase c }
  if 64 ≤ c.queue then s
  else ((s.postCompletion ⟨c.queue, c.cid, status, res0, s.now, bit c.cflags 1⟩).showQueue c.queue).fetchAll

/-- The command may start: with FENCE only when no earlier command of its queue is in progress, and not before one that waits
(R541); roster and region commands one at a time, in order of fetch (R552). -/
def State.mayRun (s : State) (c : HostCmd) : Bool :=
  let before := s.cmds.takeWhile fun d => d ≠ c
  let mine := before.filter fun d => d.queue = c.queue
  (!bit c.cflags 0 || mine.isEmpty) && !(mine.drop 1).any (fun d => bit d.cflags 0) &&
    !(0x10 ≤ c.opc && c.opc < 0x20 && before.any fun d => 0x10 ≤ d.opc && d.opc < 0x20)

/-- The oldest command of an opcode that may start and has not. -/
def State.cmdOf (s : State) (opc : Nat) : Option HostCmd := s.cmds.find? fun c => c.opc = opc && !c.started && s.mayRun c

/-- A command has started and goes on. -/
def State.keepCmd (s : State) (c : HostCmd) : State :=
  { s with cmds := s.cmds.map fun d => if d = c then { c with started := true } else d }

/-- Every started command of an opcode completes. -/
def State.endOpc (s : State) (opc status res0 : Nat) : State :=
  (s.cmds.filter fun c => c.opc = opc && c.started).foldl (fun (u : State) c => u.endCmd c status res0) s

/-- A notification of a value to a completion queue: an entry with `CID` 0xFFFF; dropped and counted where the queue is
full, or not in use (R556). [Log DEDUCED 193] -/
def State.notify (s : State) (q v : Nat) : State :=
  if s.reg .sqEnable q = 0 || s.cqFull q || s.cqHeld.any (fun x => x.queue = q) then s.addReg .notifyDropped 0 1
  else s.putCompletion ⟨q, 0xFFFF, 0, v, s.now, false⟩

/-- NOTIFICATION_POST: a value is written to a notification address by a hart or by host software (R556). -/
def execNotificationPost (q : Fin 64) (v : Dword) (s : State) : Res := .next (s.notify q.val v.toNat)

end Sys2Proof.Machine
end

