-- ==== Sys2Proof/Machine/Reset.lean ====
section
/-! DEFINITION. Node states and resets: what a transition, a reset and a loss of power do to the package's state
(R37 to R47, R524, R526, R629 to R632). -/

namespace Sys2Proof.Machine

/-- Codes of `NODE_STATE` (R37). -/
abbrev stOff : Nat := 0
abbrev stAon : Nat := 1
abbrev stInit : Nat := 2
abbrev stReady : Nat := 3
abbrev stRun : Nat := 4
abbrev stLull : Nat := 5
abbrev stDegraded : Nat := 6
abbrev stFaulted : Nat := 7
abbrev stService : Nat := 8

/-- The node is in one of its states. -/
def State.isIn (s : State) (st : Nat) : Bool := s.reg .nodeState = st

/-- A powered state: every state but OFF (R38). -/
def State.powered (s : State) : Bool := s.reg .nodeState ≠ stOff

/-- A state that was written to `STATE_REQUEST` and has not been reached is abandoned and logged as aborted (R43).
[Log DESIGN CHOICE 19] -/
def State.abortRequest (s : State) : State :=
  if s.reg .stateRequest = 0 then s
  else
    let old := s.regBytes .stateRequest 0
    let s := s.setReg .stateRequest 0 0
    s.auditInternal (Reg.stateRequest.objAt 0) Config.abortedResult.toNat old (s.regBytes .stateRequest 0)

/-- A requested transition in progress is abandoned and logged as aborted (R43): one that `STATE_REQUEST` shows, and a start, a
teardown or a restore, which names no object of its own and is logged under `NODE_STATE`. [Log DESIGN CHOICE 19, 226] -/
def State.abortTransition (s : State) : State :=
  let s := s.abortRequest
  if !s.inTransition then s
  else
    let st := s.regBytes .nodeState 0
    (s.setReg .startPending 0 0).auditInternal (Reg.nodeState.objAt 0) Config.abortedResult.toNat st st

/-- The node enters a state; the change is logged (R589). -/
def State.enter (s : State) (st : Nat) : State := s.change .nodeState 0 st

/-- `RECOVERY_STATE` changes, which raises the job interrupt (R531, R555). -/
def State.setRecovery (s : State) (v : Nat) : State :=
  if s.reg .recoveryState = v then s
  else (s.change .recoveryState 0 v).send (.interrupt (s.reg .intJobVec))

/-- A restore in progress is abandoned (R43): it has failed. [Log DESIGN CHOICE 226] -/
def State.abandonRestore (s : State) : State :=
  if 2 ≤ s.reg .recoveryState && s.reg .recoveryState ≤ 4 then { s with recovery := none }.setRecovery 6 else s

/-- The node enters FAULTED: the job on it has stopped, and INIT, if it ran, has ended (R23, R30, R37, R38, R43). A JOB_START
that waited for its fence ends with STATE (R545). A Crosswind pairing ends (R474). [Log DESIGN CHOICE 226] -/
def State.enterFaulted (s : State) : State :=
  let t := if s.isIn stFaulted then s else s.leavePairing.abortTransition.abandonRestore
  let t := (((t.enter stFaulted).setReg .initStage 0 0).setReg .jobRunning 0 0).setReg .initEnded 0 1
  t.endOpc 2 0x93 stFaulted

/-- A lasting fault sets a bit of `DEGRADE_CAUSE`; READY and RUN become DEGRADED, and LULL stays (R35, R38, R44). -/
def State.degrade (s : State) (b : Nat) : State :=
  let s := s.raise .degradeCause b
  if s.isIn stReady || s.isIn stRun then s.enter stDegraded else s

/-- The state of the node at full or lowered rating, with or without a job running; DEGRADED is left for READY by a cold reset
only (R38). -/
def State.ratedState (s : State) : Nat :=
  if s.reg .degradeCause ≠ 0 || s.isIn stDegraded then stDegraded else if s.reg .jobRunning = 1 then stRun else stReady

/-- What the job, the fabric and the ports hold outside the registers is gone (R562, R581, R629). -/
def State.clearJob (s : State) : State :=
  { s with
    deferred := [], bays := [], copies := [], tailwind := [], recent := [], seqOut := [], seqIn := [], early := [], requests := []
    retry := [], linkQueue := [], flitNext := [], stuck := [], answered := [], refusals := [], hartReplies := [], harts := [], stores := [], reservations := [], regions := [], staged := [], closes := []
    roundsEnded := [], raccIssue := [], fences := [], peerLinks := [], mails := [], mailNext := [], mailIn := []
    transit := [], colls := [], collDone := [], collHeld := [], recovery := none, jobEpochs := [], kept := []
    keptFor := [], xwMsg := none, xwOwn := [], xwTheirs := [], xwStreams := none, xwDiff := none }

/-- What the ports, the tests, the stack controllers and Squall hold outside the registers is gone; drains are not resumed
(R526, R562, R581, R629). A fuse pulse that is cut off leaves its journal entry uncertain (R326).
[Log DESIGN CHOICE 39] -/
def State.clearPorts (s : State) : State :=
  { s with
    tests := [], fills := [], narrow := [], narrowHeld := [], chanQueue := [], chanStalled := [], sliceHeld := []
    merging := [], llm := [], corrections := [], pulses := [], drains := [], hostLines := [], waiting := [], rung := []
    cmds := [], cqHeld := [], squallEvents := [], sessions := [], assemblies := [], answers := [], subs := []
    chans := s.chans.map fun (e : Nat × Channel) => (e.1, { e.2 with retraining := none, testCode := 0 }) }

/-- Everything outside the registers that no reset keeps. -/
def State.clearVolatile (s : State) : State :=
  (s.clearJob.clearPorts.setReg .fusePulses 0 0).setReg .serviceWork 0 0

/-- Contents of the scratchpads, which no rule keeps over a reset; an atom with a marked word stays marked in its stack (R301).
[Log DEDUCED 21] -/
def State.loseScratchpads (s : State) : State :=
  { s.wipe 0x20000000000 0x30000000000 with
    poisonWords := []
    poisonAtoms := ((s.poisonWords.filter fun w => 16 * w < 0x20000000000).map (· / 4)).foldl
      (fun ps p => insertRising p ps) (s.poisonAtoms.filter fun p => 64 * p < 0x20000000000) }

/-- The objects of reset domain warm return to their defaults and the job is gone (R570, R629).
[Log DESIGN CHOICE 20, 125] -/
def State.clearWarm (s : State) : State := (s.clearVolatile.clearDomain .warm).loseScratchpads

/-- What a warm reset clears. A scratchpad that R338 has disabled stays disabled until cold reset (R570, R629). -/
def State.warmClear (s : State) : State :=
  (List.range 8).foldl (fun (u : State) d => if u.scratchOff d then u.setReg .llmScratchWays d 0 else u) s.clearWarm

/-- The objects of reset domains warm and cold return to their defaults (R570, R629), with the soft remaps, the map-outs and the
states of elements (R322). The straps stay as latched at PWR_OK (R676). [Log DESIGN CHOICE 20; PRESUMED 132] -/
def State.coldClear (s : State) : State :=
  let s := if s.reg .taiState = 0 then s else s.change .taiState 0 0
  let s := (s.clearWarm.clearDomain .cold)
  let s := { s with
    errorLog := [], frozen := none, late := [], chans := [], remaps := [], remapping := [], mapoutWaits := []
    softPpr := [], segments := [], moved := [], migrated := 0 }
  (s.setReg .posStrap 0 (s.reg .posLatch)).setReg .physId 0 (s.reg .posLatch)

/-- The link lanes go idle (R48, R359): a link that is neither LOST nor DISABLED is ABSENT. [Log DEDUCED 139] -/
def State.idleLinks (s : State) : State :=
  let s := (List.range 24).foldl (fun (u : State) l =>
    if u.reg .linkState l = 4 || u.reg .linkState l = 6 then u
    else (u.change .linkState l 0).change .linkGen l 0) s
  (s.setReg .linksUp 0 0).setReg .linkQuiet 0 0

/-- The node is held in reset: INIT in reset, every clock of domains 0 to 47 stopped, link and PCIe lanes idle (R48, R631). -/
def State.holdInReset (s : State) : State :=
  let s := (s.abortTransition.enter stInit).setReg .initStage 0 0
  let s := (s.setReg .stageStarted 0 0).setReg .inReset 0 1
  let s := s.idleLinks.change .hostLink 0 0
  (List.range 48).foldl (fun t k => t.setReg .clkMhz k 0) s

/-- The cold reset of R629. With the crystal stable again it lets the management port speak (R615).
[Log DESIGN CHOICE 10] -/
def State.coldReset (s : State) : State :=
  let s := (((s.holdInReset.coldClear).holdInReset).setReg .resetCause 0 1).setReg .warmWaiting 0 0
  if s.reg .mclkRuns = 1 then s.setReg .mgmtSilent 0 0 else s

/-- The warm reset of R629. -/
def State.warmReset (s : State) : State :=
  ((s.holdInReset.warmClear).holdInReset).setReg .resetCause 0 2

/-- INIT stage 1 begins: the always-on logic enables the flash controller and the sensor hub (R22, R627). Every
multiplexer selects what it last selected, and a stopped clock runs again. -/
def State.beginInit (s : State) : State :=
  let s := (s.setReg .inReset 0 0).setReg .initStage 0 1
  let s := s.change .periphEn 0 (withBit (withBit (s.reg .periphEn) 2) 5)
  (List.range 48).foldl (fun t k =>
    t.setReg .clkMhz k (if 2 ≤ t.reg .clkSel k then t.reg .pllMhz k else 25)) s

/-- INIT begins at stage 1 once no reset is asserted and every rail is in range; otherwise the node stays in reset
(R630, R635). -/
def State.tryBeginInit (s : State) : State :=
  if s.isIn stInit && s.reg .inReset = 1 && s.reg .rstHeld = 0 && s.reg .stackRailsIn = 1 && s.reg .pwrOk = 1 then
    s.beginInit
  else s

/-- The contents of every stack are lost: job data, slots, shard directories and the audit mirror (R524, R635). -/
def State.loseStacks (s : State) : State :=
  let s := { s.wipe 0 0x20000000000 with
    mirror := [], slotA := Slot.empty, slotB := Slot.empty, shards := [], drains := []
    poisonAtoms := s.poisonAtoms.filter fun p => 0x20000000000 ≤ 64 * p
    poisonWords := s.poisonWords.filter fun p => 0x20000000000 ≤ 16 * p
    spareMarks := [] }
  let s := ((s.setReg .auditMirrorHead 0 0).setReg .slotValid 0 0).setReg .slotDrained 0 0
  (s.clearReg .slotInfo).clearReg .shardDir

/-- The node loses main power: all state of domains warm and cold goes with it (R636, R570). [Log DEDUCED 9] -/
def State.losePower (s : State) : State :=
  let s := (s.abortTransition.coldClear)
  let s := ((s.enter stOff).setReg .initStage 0 0).setReg .stageStarted 0 0
  (s.setReg .inReset 0 0).setReg .warmWaiting 0 0

end Sys2Proof.Machine
end

