-- ==== Sys2Proof/Machine/Entry.lean ====
section
/-! DEFINITION. Table entries: the checks that need no operand (R199, R200, R206, R214 to R224), completion records
(R210 to R212), halts (R213), and the way an operation's effect is made (R207, R234). -/

namespace Sys2Proof.Machine

/-! Operation codes (R206). -/

abbrev opMma : Nat := 0x01
abbrev opVop : Nat := 0x02
abbrev opVred : Nat := 0x03
abbrev opXfer : Nat := 0x10
abbrev opGath : Nat := 0x11
abbrev opScat : Nat := 0x12
abbrev opRstore : Nat := 0x13
abbrev opRacc : Nat := 0x14
abbrev opMcast : Nat := 0x15
abbrev opTrans : Nat := 0x20
abbrev opHist : Nat := 0x21
abbrev opColl : Nat := 0x30
abbrev opFence : Nat := 0x31
abbrev opWait : Nat := 0x32
abbrev opEpoch : Nat := 0x33
abbrev opBr : Nat := 0x40
abbrev opLoop : Nat := 0x41
abbrev opCall : Nat := 0x42
abbrev opEnd : Nat := 0x43
abbrev opModel : Nat := 0x50
abbrev opSnap : Nat := 0x51
abbrev opDigest : Nat := 0x52

/-- The listed operations (R206). -/
def opListed (op : Nat) : Bool :=
  [opMma, opVop, opVred, opXfer, opGath, opScat, opRstore, opRacc, opMcast, opTrans, opHist, opColl, opFence, opWait,
    opEpoch, opBr, opLoop, opCall, opEnd, opModel, opSnap, opDigest].contains op

/-- The unit that runs an operation (R206): 1 array, 2 vector, 3 mover, 4 coupler, 5 collective port, 0 sequencer. -/
def unitOf (op : Nat) : Nat :=
  if op = opMma ∨ op = opModel then 1
  else if op = opVop ∨ op = opVred ∨ op = opDigest then 2
  else if 0x10 ≤ op ∧ op ≤ 0x15 then 3
  else if op = opTrans ∨ op = opHist then 4
  else if op = opColl then 5
  else 0

/-- Operations that start only after every earlier entry has completed, and that later entries wait for (R206, R237). -/
def opBarrier (op : Nat) : Bool :=
  [opFence, opWait, opEpoch, opEnd, opModel, opSnap].contains op

/-- A mask of `n` bits from bit `lo`. -/
def maskBits (lo n : Nat) : Nat := (2 ^ n - 1) * 2 ^ lo

/-- The bits of `PARAM` that an operation uses (R215 to R221). -/
def paramUsed (op param : Nat) : Nat :=
  if op = opMma then maskBits 0 59
  else if op = opVop then maskBits 0 38 + maskBits 40 15
  else if op = opVred then maskBits 0 23
  else if op = opXfer then maskBits 0 2
  else if op = opGath ∨ op = opScat then maskBits 0 3
  else if op = opRstore then maskBits 0 4 + maskBits 32 32
  else if op = opRacc ∨ op = opMcast then maskBits 0 12 + maskBits 32 32
  else if op = opTrans then maskBits 0 10 + maskBits 16 48
  else if op = opHist then maskBits 0 3 + maskBits 4 4
  else if op = opColl then maskBits 0 28 + maskBits 32 32
  else if op = opFence then maskBits 0 4
  else if op = opWait then
    match param % 16 with
    | 0 => maskBits 0 10
    | 1 => maskBits 0 4 + maskBits 16 48
    | 3 => maskBits 0 4 + maskBits 16 16
    | _ => maskBits 0 4
  else if op = opEpoch then maskBits 0 16
  else if op = opModel then maskBits 0 64
  else if op = opSnap then maskBits 0 2
  else if op = opDigest then maskBits 0 3
  else if op = opLoop then maskBits 0 35
  else if op = opCall then 1
  else 0

/-- VOP functions with one source (R157). -/
def vopUnary (fn : Nat) : Bool :=
  fn = 0 || fn = 6 || (9 ≤ fn && fn ≤ 0x0B) || fn = 0x0E || (0x20 ≤ fn && fn ≤ 0x25)

/-- Which of A, B and D an operation uses (R206, R216, R220). -/
def handlesUsed (f : Flight) : Bool × Bool × Bool :=
  let op := f.op
  if op = opMma ∨ op = opGath ∨ op = opScat then (true, true, true)
  else if op = opVop then
    let fn := f.param 0 8
    if fn = 0x1C then (true, true, false)
    else if 0x18 ≤ fn ∧ fn ≤ 0x1B then (false, false, false)
    else if 0x10 ≤ fn ∧ fn ≤ 0x13 then (true, true, false)
    else (true, !vopUnary fn, true)
  else if op = opVred then (true, f.param 0 8 = 0x42, true)
  else if op = opXfer ∨ op = opRstore ∨ op = opRacc ∨ op = opMcast ∨ op = opTrans ∨ op = opColl then (true, false, true)
  else if op = opHist then (2 ≤ f.param 0 3, false, true)
  else if op = opWait then (f.param 0 4 = 1, false, false)
  else if op = opDigest then (true, false, false)
  else (false, false, false)

/-- SPEC is allowed on the entry (R233). -/
def specAllowed (f : Flight) : Bool :=
  f.cond = 0 && f.dst ≠ 0xFFFFFFFF && f.dst / 2 ^ 24 ≠ 0xFD && f.dst / 2 ^ 24 ≠ 0xFE &&
    (f.op = opMma || f.op = opXfer || (f.op = opVop && !bit (f.param 0 64) 20))

/-- The listed codes of `COND` (R223). -/
def condListed (c : Nat) : Bool := c ≤ 1 || (0x10 ≤ c && c ≤ 0x21)

/-- Operations that carry a traffic class, and its place (R218). -/
def trafficClass (f : Flight) : Option Nat :=
  if f.op = opGath ∨ f.op = opScat ∨ f.op = opRstore then some (f.param 0 3)
  else if f.op = opRacc ∨ f.op = opMcast then some (f.param 8 3)
  else none

/-- A parameter outside its stated range (R214 code 0x0E, R401). [Log DEDUCED 78] -/
def paramRange (f : Flight) : Bool :=
  let op := f.op
  (op = opMma && (12 < f.param 36 4 ||
      (f.param 40 2 = 1 && (f.param 36 4 < f.param 43 4 || 2 ^ (f.param 36 4 - f.param 43 4) ≤ f.param 47 12)))) ||
    (op = opVop && f.param 0 8 = 0x0D && 63 < (signed 12 (f.param 40 12)).natAbs) ||
    (op = opVred && f.param 11 2 = 3) || (op = opXfer && f.param 0 2 = 3) || (op = opTrans && f.param 2 2 = 3 && f.param 0 1 = 0) ||
    (op = opHist && 4 < f.param 0 3) || (op = opWait && 3 < f.param 0 4) || (op = opSnap && 1 < f.param 0 2) ||
    (op = opLoop && f.param 0 32 = 0) ||
    match trafficClass f with
    | some c => decide (4 ≤ c)
    | none => false

/-- The first check that an entry fails without a look at its operands, as a detail code; 0 for none (R214).
[Log DEDUCED 78, 79] -/
def staticCheck (f : Flight) : Nat :=
  let u := handlesUsed f
  let p := f.param 0 64
  if !opListed f.op || f.flags / 32 ≠ 0 || (p &&& paramUsed f.op p) ≠ p || (f.op = opMma && f.param 40 2 = 3) then 0x01
  else if 2 ^ 24 ≤ f.index then 0x0C
  else if (!u.1 && f.srcA ≠ 0xFFFFFFFF) || (!u.2.1 && f.srcB ≠ 0xFFFFFFFF) || (!u.2.2 && f.dst ≠ 0xFFFFFFFF) then 0x02
  else if f.nd && !(f.op = opRacc || f.op = opColl) then 0x0B
  else if f.isSpec && !specAllowed f then 0x0B
  else if !condListed f.cond then 0x0B
  else if (f.op = opLoop || f.op = opCall || f.op = opEnd) && f.cond ≠ 0 then 0x0B
  else if f.op = opEnd && f.next ≠ 0 then 0x0B
  else if f.last && 0 < f.depth then 0x0B
  else if paramRange f then 0x0E
  else 0

/-! What an entry needs and does. -/

/-- What an entry touches (R207): ranges and identities, and the scales it reads when it starts. -/
structure Prep where
  reads : List (Nat × Nat)
  writes : List (Nat × Nat)
  uses : List Nat
  sets : List Nat
  scales : List Nat
  deriving DecidableEq, Repr

/-- The operands of an entry, resolved. `x` is the fourth handle, `XH` or `SIGH`. -/
structure Operands where
  a : Operand
  b : Operand
  d : Operand
  x : Operand
  deriving DecidableEq, Repr

/-- The fourth handle of an entry (R215, R218). -/
def fourthHandle (f : Flight) : Nat :=
  if f.op = opMma then f.param 0 32
  else if f.op = opRstore ∨ f.op = opRacc ∨ f.op = opMcast then f.param 32 32
  else 0xFFFFFFFF

/-- The entry is a PSET, whose handles carry its immediate (R216). -/
def isPset (f : Flight) : Bool := f.op = opVop && f.param 0 8 = 0x1C

/-- Every dimension that a tensor leaves unused has extent 1 (R202). -/
def Operand.extentsOk : Operand → Bool
  | .tensor d => d.extentsOk
  | _ => true

/-- The operands of an entry (R201). An MMA answers for unused extents itself (R692). -/
def State.operands (s : State) (b : Bay) (f : Flight) : Except Nat Operands := do
  let a ← if isPset f then .ok .none else s.resolveAs (f.op = opWait) b f.iters f.srcA
  let y ← if isPset f then .ok .none else s.resolve b f.iters f.srcB
  let d ← s.resolve b f.iters f.dst
  let x ← s.resolve b f.iters (fourthHandle f)
  if f.op ≠ opMma && !([a, y, d, x].all Operand.extentsOk) then .error 0x0D else return ⟨a, y, d, x⟩

/-- Identity of a tile, a slot, a predicate and the flags in `uses` and `sets`. -/
def idTile (t : Nat) : Nat := t
def idSlot (n : Nat) : Nat := 16 + n
def idPred (p : Nat) : Nat := 32 + p
def idFlags : Nat := 48

/-- Two lists of half-open ranges have a byte in common. -/
def rangesMeet (xs ys : List (Nat × Nat)) : Bool := xs.any fun r => ys.any fun q => decide (r.1 < q.2 ∧ q.1 < r.2)

/-- What an operand adds to the ranges and identities. Remote ranges are not checked (R207). -/
def Operand.ranges : Operand → List (Nat × Nat)
  | .tensor d => if d.remote then [] else d.ranges
  | _ => []

/-- Identity of a tile or slot operand. -/
def Operand.ids : Operand → List Nat
  | .tile t => [idTile t]
  | .slot n => [idSlot n]
  | _ => []

/-- The effect of an operation. -/
structure Effect where
  writes : List (Nat × List Byte) := []
  tiles : List (Nat × Tile) := []
  slots : List (Nat × Nat) := []
  pred : Option (Nat × Nat) := none
  cf : Option Nat := none
  /-- Statistics merges: record address and delta. -/
  merges : List (Nat × Delta) := []
  result : Nat := 0
  status : Nat := 0
  detail : Nat := 0
  halts : Bool := false
  deriving DecidableEq, Repr

/-- An effect that only ends the entry with a fault (R301). -/
def Effect.fault (result detail : Nat) : Effect := { result := result, detail := detail, halts := true }

/-- Memory as a speculative entry of a bay reads it (R234). -/
def State.specView (s : State) (b : Bay) : State := s.writes (b.spec.map fun w => (w.addr, w.bytes))

/-- Bytes of the speculative buffer that one logical bay may use: half when the physical bay is shared (R126, R235). -/
def State.specRoom (s : State) (b : Nat) : Nat :=
  if (List.range 256).any (fun k => k ≠ b && s.reg .lbayMap k = s.reg .lbayMap b) then 131072 else 262144

/-! Records. -/

/-- `DURATION` of R210. [Log DESIGN CHOICE 205] -/
def durationOf (ns : Nat) : Nat := min (ceilDiv ns 16) 0xFFFFFFFF

/-- The completion record of an entry (R210). [Log DESIGN CHOICE 205] -/
def State.recordBytes (s : State) (b : Bay) (f : Flight) : List Byte :=
  leBytes 2 f.step ++ leBytes 1 f.op ++ leBytes 1 f.result ++ leBytes 4 f.status ++ leBytes 3 f.index ++
    leBytes 1 f.depth ++ leBytes 4 f.detail ++ leBytes 8 f.startAt ++ leBytes 4 (durationOf (s.now - f.startAt)) ++
    leBytes 2 (s.reg .jobEpoch) ++ leBytes 1 b.cf ++ leBytes 1 (f.rflags % 32)

/-- The record goes to the completion ring (R212). -/
def ringed (f : Flight) : Bool :=
  f.trace || f.result ≠ 0 || bit f.rflags 0 || f.op = opColl || (f.op = opEnd && f.depth = 0)

/-- The trace event of an entry (R666). -/
def State.traceBytes (s : State) (b : Nat) (f : Flight) (rec' : List Byte) : List Byte :=
  rec' ++ leBytes 2 b ++ leBytes 1 1 ++ leBytes 1 0 ++ leBytes 4 (min (f.startAt - f.issuedAt) 0xFFFFFFFF) ++
    leBytes 8 s.stepNumber ++ leBytes 16 0

/-- The record of an entry is formed, kept and written (R210, R212, R666). -/
def State.emitRecord (s : State) (b : Nat) (f : Flight) (queueFull : Bool) : State :=
  let x := s.bay b
  let r := s.recordBytes x f
  let x := { x with records := (r :: x.records).take 16 }
  let base := s.reg .completionRing
  let put := ringed f && base ≠ 0
  let s := if put then s.jobWrite (base + b * 0x20000 + 32 * (x.ring % 4096)) r else s
  let s := s.setBay b (if put then { x with ring := x.ring + 1 } else x)
  if f.trace then s.trace queueFull (s.traceBytes b f r) else s

/-! Table state (R240). -/

abbrev tsIdle : Nat := 0
abbrev tsRunning : Nat := 1
abbrev tsWaiting : Nat := 2
abbrev tsHalted : Nat := 3
abbrev tsEnded : Nat := 4
abbrev tsPreempted : Nat := 5

/-- `TABLE_STATE` of a logical bay. -/
def State.tableState (s : State) (b : Nat) : Nat := s.reg .tableState b

/-- `TABLE_STATE` of a logical bay changes. -/
def State.setTableState (s : State) (b v : Nat) : State := s.change .tableState b v

/-- `TABLE_STATE` of a bay that waits; a halted table stays halted (R213, R240). -/
def State.showWaiting (s : State) (b : Nat) : State :=
  if s.tableState b = tsHalted then s else s.setTableState b tsWaiting

/-- Tables run: the job runs, outside Lull, the node is in one of its job-running states, and no rollback is awaited or in
progress (R37, R38, R492, R513). -/
def State.tablesRun (s : State) : Bool :=
  s.reg .jobRunning = 1 && (s.isIn stRun || s.isIn stDegraded) &&
    (s.reg .recoveryState = 0 || 4 ≤ s.reg .recoveryState)

/-- The table of a bay halts at an entry, and the job interrupt is raised (R213, R555). [Log DEDUCED 70] -/
def State.haltTable (s : State) (b : Nat) (at' : Option Flight) : State :=
  let x := s.bay b
  let s := s.setBay b { x.dropPreload with head := none, halted := at' }
  (s.setTableState b tsHalted).send (.interrupt (s.reg .intJobVec))

/-- The issued entry of a bay takes the descriptor-error path (R213). -/
def State.descError (s : State) (b : Nat) (f : Flight) (detail : Nat) (queueFull : Bool) : State :=
  let f := { f with result := 0x80, detail := detail, startAt := s.now }
  (s.emitRecord b f queueFull).haltTable b (if f.retry then some f else none)

/-- The issued entry of a bay is refused before it starts: ND_REJECTED and its kind (R193, R231). -/
def State.rejectEntry (s : State) (b : Nat) (f : Flight) (result detail : Nat) (queueFull : Bool) : State :=
  let f := { f with result := result, detail := detail, startAt := s.now }
  let s := s.logError { code := result, severity := 5, unitKind := 0x0F, unit := b, step := f.step, lbay := b }
  (s.emitRecord b f queueFull).haltTable b (if f.retry then some f else none)

/-! Entries in flight. -/

/-- A flight of a bay is replaced, by serial. -/
def State.setFlight (s : State) (b : Nat) (f : Flight) : State :=
  let x := s.bay b
  s.setBay b { x with flights := x.flights.map fun g => if g.serial = f.serial then f else g }

/-- The oldest started entry of a bay whose effect is to be made and that `p` names. -/
def State.ready (s : State) (b : Nat) (p : Flight → Bool) : Option Flight :=
  if (s.bay b).sparing ≠ 0 || (s.bay b).parked then none
  else (s.bay b).flights.find? fun f => !f.executed && f.phase = 0 && p f

/-- The effect of an operation on tiles, slots, predicates and flags of its bay. -/
def Bay.apply (x : Bay) (e : Effect) : Bay :=
  { x with
    tiles := e.tiles.foldl (fun ts p => ts.set p.1 p.2) x.tiles
    slots := e.slots.foldl (fun ss p => ss.set p.1 p.2) x.slots
    preds := match e.pred with
      | some (0, _) => x.preds
      | some (p, v) => x.preds.set p v
      | none => x.preds
    cf := e.cf.getD x.cf }

/-- Several statistics merges, and the status bits they raise. -/
def State.mergeAll (s : State) : List (Nat × Delta) → State × Nat
  | [] => (s, 0)
  | m :: ms =>
    let r := s.mergeStats m.1 m.2
    let q := r.1.mergeAll ms
    (q.1, r.2 ||| q.2)

/-- The lines of the operands of an MMA, a VOP, or an XFER with `LLMPOL` = 2 are allocated in the LLM, but for a slice that caches
nothing (R334, R338). -/
def State.allocate (s : State) (f : Flight) : State :=
  if f.op = opMma || f.op = opVop || (f.op = opXfer && f.param 0 2 = 2) then
    (f.reads ++ f.writes).foldl (fun (u : State) r =>
      (List.range (ceilDiv r.2 128 - r.1 / 128)).foldl (fun (v : State) k =>
        let l := r.1 / 128 + k
        if 128 * l < 0x20000000000 && !v.passes (128 * l) then v.holdLine l else v) u) s
  else s

/-- An operation's effect is made: at once, or into the speculative buffer (R209, R234, R235). A marked record ends the entry
instead (R301). [Log DEDUCED 80] -/
def State.perform (s : State) (b : Nat) (f : Flight) (e : Effect) : State :=
  let x := s.bay b
  let e := if s.badRecords e.merges then Effect.fault 7 0 else e
  if f.spec && e.result = 0 then
    let need := (e.writes.map fun w => w.2.length).foldl (· + ·) 0
    let used := (x.spec.map fun w => w.bytes.length).foldl (· + ·) 0
    if s.specRoom b < used + need then
      let s := s.logError { code := 0x1C, severity := 5, unitKind := 0x0F, unit := b, step := f.step, lbay := b }
      let s := s.addReg .specStalls 0 1
      s.setFlight b { f with phase := 2, rflags := f.rflags ||| 16 }
    else
      let x := { (x.apply e) with spec := x.spec ++ (e.writes.map fun (w : Nat × List Byte) => (⟨f.serial, w.1, w.2⟩ : SpecWrite)) }
      let x := { x with merges := x.merges ++ (e.merges.map fun (m : Nat × Delta) => (f.serial, m.1, m.2)) }
      ((s.allocate f).setBay b x).setFlight b { f with executed := true, status := e.status }
  else if e.result = 0 || e.result = 0x10 then
    let s := ((s.allocate f).writes e.writes).setBay b (x.apply e)
    let r := s.mergeAll e.merges
    r.1.setFlight b { f with executed := true, status := e.status ||| r.2, result := e.result, detail := e.detail, halts := f.halts || e.halts }
  else
    s.setFlight b { f with executed := true, status := e.status, result := e.result, detail := e.detail, halts := f.halts || e.halts }

/-- The view of memory that an entry reads. -/
def State.viewFor (s : State) (b : Nat) (f : Flight) : State := if f.spec then s.specView (s.bay b) else s

/-- The oldest started entry of a bay that `p` names makes its effect. `plan` reads memory as the entry sees it.
[Log DEDUCED 76] -/
def State.runEntry (s : State) (b : Nat) (p : Flight → Bool) (plan : State → Bay → Flight → Operands → Effect) : State :=
  match s.ready b p with
  | none => s
  | some f =>
    let x := s.bay b
    match s.operands x f with
    | .error c => s.perform b f (Effect.fault 0x80 c)
    | .ok o =>
      let v := s.viewFor b f
      s.perform b f (plan v x f o)

/-- The bytes that reading a whole tensor takes: its rows, and for a block format its coarse scale and scale codes. -/
def Desc.readRanges (d : Desc) : List (Nat × Nat) :=
  d.rowRanges ++ (if d.block.isSome then [(d.scale, d.scale + 4), (d.codeAddr 0, d.codeAddr d.blocks)] else [])

/-- The bytes that reading a whole operand takes. -/
def Operand.readRanges : Operand → List (Nat × Nat)
  | .tensor d => d.readRanges
  | _ => []

/-- An effect, unless what it reads is poisoned: then the entry ends with ECC_UNCORRECTABLE (R301). -/
def State.unpoisoned (s : State) (rs : List (Nat × Nat)) (e : Effect) : Effect :=
  if s.poisonedAny rs then Effect.fault 0x07 0 else e

end Sys2Proof.Machine
end

