-- ==== Sys2Proof/Machine/SelfTest.lean ====
section
/-! DEFINITION. Targeted self-tests and spare-ins, one at a time on a die (R484, R490), and the speculative run of a bay
as a whole (R125, R233, R236). -/

namespace Sys2Proof.Machine

/-- The two dies of each bridge, in the order of R19: compute dies 0-7, fabric dies 8-11, processor dies 12 and 13. -/
def bridgeEnds : List (Nat × Nat) :=
  [(0, 1), (1, 2), (2, 3), (4, 5), (5, 6), (6, 7), (0, 4), (1, 5), (2, 6), (3, 7),
    (8, 0), (8, 4), (9, 1), (9, 5), (10, 2), (10, 6), (11, 3), (11, 7), (12, 8), (12, 9), (13, 10), (13, 11), (12, 13)]

/-- The dies on which an element lies, as `bridgeEnds` numbers them, or a stack of its own: its spare-ins run one at a time with
those of every element there (R479, R490). -/
def sparingPlaces (kind unit : Nat) : List Nat :=
  if kind = 1 ∨ kind = 2 then [unit / 64]
  else if kind = 5 then let e := bridgeEnds.getD (unit / 256) (0, 0); [e.1, e.2]
  else if kind = 7 then [8 + unit / 16 / 6]
  else if kind = 8 then [unit]
  else if kind = 9 then [12 + unit / 128]
  else if kind = 0x0A then [8 + unit / 8]
  else if kind = 3 then [100 + unit / 32]
  else [200 + kind * 1048576 + unit]

/-- A test of an element. -/
def SelfTest.isOf (t : SelfTest) (kind unit : Nat) : Bool := t.kind = kind && t.unit = unit

/-- The spare-in of an element, if it runs now: every older one on its dies has ended. [Log DEDUCED 94] -/
def State.runningTest (s : State) (kind unit : Nat) : Option SelfTest :=
  let older := s.tests.takeWhile fun t => !t.isOf kind unit
  if older.any fun t => (sparingPlaces t.kind t.unit).any (sparingPlaces kind unit).contains then none
  else s.tests.find? fun t => t.isOf kind unit

/-- The test of an element has started and has not ended, or waits to start: the element stands still (R484, R490). -/
def State.inTest (s : State) (kind unit : Nat) : Bool := s.tests.any fun t => t.isOf kind unit

/-- A targeted self-test starts, for the record of number `seq`, 0 for none (R484). [Log DEDUCED 94] -/
def State.startTest (s : State) (kind unit spare seq : Nat) : State :=
  let s := s.addReg .selftestRuns 0 1
  { s with tests := s.tests ++ [⟨kind, unit, 0, seq, [], s.now, spare⟩] }

/-- A self-test in progress is replaced by a later stage of itself. -/
def State.setTest (s : State) (t : SelfTest) : State :=
  { s with tests := s.tests.map fun u => if u.kind = t.kind ∧ u.unit = t.unit then t else u }

/-- A self-test or spare-in ends: its records' outcome and pause are known (R478, R490). -/
def State.endTest (s : State) (t : SelfTest) (outcome : Nat) : State :=
  let s := { s with tests := s.tests.filter fun u => ¬ (u.kind = t.kind ∧ u.unit = t.unit) }
  (t.seq :: t.more).foldl (fun (u : State) n => u.settleError n outcome (s.now - t.at')) s

/-- The spare-in of which an unused spare, or a slice that has just taken over, is the replacement (R490). -/
def State.replacementOf (s : State) (kind unit : Nat) : Option SelfTest :=
  s.tests.find? fun t => t.kind = kind && t.stage = 1 && t.unit / 64 = unit / 64 && t.spare = unit % 64

/-- The tests that wait for a replacement that fails become a part of the spare-in that it failed in (R490). -/
def State.joinTests (s : State) (t : SelfTest) (unit : Nat) : State × SelfTest :=
  let mine := s.tests.filter fun u => u.isOf t.kind unit
  ({ s with tests := s.tests.filter fun u => !u.isOf t.kind unit }, { t with more := t.more ++ mine.map SelfTest.seq })

/-- Parity fails again on the replay: the element halts and its self-test runs (R482, R484). -/
def State.parityPersistent (s : State) (kind unit addr lbay step : Nat) : State :=
  let s := s.logError {
      code := 2, severity := 0, unitKind := kind, unit := unit, addr := addr, lbay := lbay,
      step := step, pause := 0xFFFFFFFF }
  s.startTest kind unit 0 (s.reg .errorHead)

/-- A word fails parity and is replayed on its hop (R482, R483). -/
def State.parityReplayed (s : State) (kind unit addr lbay step : Nat) : State :=
  s.logError {
      code := 1, severity := 0, outcome := 1, unitKind := kind, unit := unit, addr := addr, lbay := lbay,
      step := step }

/-- `UNIT` of the physical bay that a logical bay runs on (R479). -/
def State.bayUnit (s : State) (b : Nat) : Nat := s.reg .lbayMap b / 256 * 64 + s.reg .lbayMap b % 256

/-- The die that a logical bay runs on. -/
def State.bayDie (s : State) (b : Nat) : Nat := s.reg .lbayMap b / 256

/-- Logical bays that share the physical bay of `b`. -/
def State.sharers (s : State) (b : Nat) : List Nat :=
  (List.range 256).filter fun k => k ≠ b && s.reg .lbayMap k = s.reg .lbayMap b

/-- A speculative run is discarded: its entries leave the bay, its buffer is emptied, and the sequencer stands at its
first entry until the COLLs it depends on have committed (R125, R236). -/
def Bay.discardRun (x : Bay) : Bay :=
  match x.run with
  | none => x
  | some r =>
    { x with
      run := some { r with discarded := true }
      flights := x.flights.filter fun f => !f.spec
      aStore := x.aStore.filter fun e => x.flights.any fun f => !f.spec && f.serial = e.1
      bStore := x.bStore.filter fun e => x.flights.any fun f => !f.spec && f.serial = e.1
      spec := [], merges := [], head := none, known := true
      table := r.table, index := r.index }

end Sys2Proof.Machine
end

