-- ==== Sys2Proof/Machine/Roster.lean ====
section
/-! DEFINITION. The model roster: residency, Tailwind, and the binding of a model (R131 to R147). -/

namespace Sys2Proof.Machine

/-- `ROSTER_COUNT` follows the entries (R145). -/
def State.countModels (s : State) : State :=
  s.setReg .rosterCount 0 ((List.range 4096).countP fun i => s.modelState i ≠ 0)

/-- A die's roster part of LLM, in bytes; none while its scratchpad is disabled (R139, R147, R338). -/
def State.rosterRoom (s : State) (die : Nat) : Nat :=
  min (s.reg .rosterLlm) (s.scratchMib die) * 0x100000

/-- Some bay of a die holds the model bound (R139). -/
def State.boundOn (s : State) (die i : Nat) : Bool :=
  (List.range 256).any fun b => s.bayDie b = die && (s.bay b).model = some i

/-- Some bay holds the model bound (R135). [Log DESIGN CHOICE 222] -/
def State.boundAny (s : State) (i : Nat) : Bool := (List.range 256).any fun b => (s.bay b).model = some i

/-- A model is resident in a die's LLM. -/
def State.resident (s : State) (die i : Nat) : Bool := s.copies.any fun c => c.die = die && c.index = i

/-- Bytes that resident models occupy on a die. -/
def State.rosterUsed (s : State) (die : Nat) : Nat :=
  ((s.copies.filter fun c => c.die = die).map ModelCopy.bytes).foldl (· + ·) 0

/-- The number of the last binding of a model on a die, in the order of bindings; 0 for none (R140). -/
def State.lastBound (s : State) (die i : Nat) : Nat := Store.at 0 s.recent (4096 * die + i)

/-- The copy to evict from a die: the least recently bound of those neither bound nor pinned; ties to the lower roster
index (R140). [Log DESIGN CHOICE 97] -/
def State.victim (s : State) (die : Nat) : Option ModelCopy :=
  (s.copies.filter fun c => c.die = die && !s.boundOn die c.index && s.modelState c.index ≠ 2).foldl
    (fun best c => match best with
      | none => some c
      | some v =>
        let (n, m) := (s.lastBound die c.index, s.lastBound die v.index)
        if n < m ∨ (n = m ∧ c.index < v.index) then some c else some v) none

/-- A copy is evicted; a Tailwind copy that was never bound counts (R140, R145). -/
def State.evict (s : State) (c : ModelCopy) : State :=
  let s := { s with copies := s.copies.filter fun d => ¬ (d.die = c.die ∧ d.index = c.index) }
  if c.used then s else s.addReg .prefetchUnused 0 1

/-- Models of a die are evicted until `need` more bytes fit, or none can be; `n` bounds the evictions. -/
def State.makeRoom (s : State) (die need : Nat) : Nat → State
  | 0 => s
  | n + 1 =>
    if s.rosterUsed die + need ≤ s.rosterRoom die then s
    else
      match s.victim die with
      | none => s
      | some c => (s.evict c).makeRoom die need n

/-- A model is copied into a die's roster part, if room can be made (R139, R140). -/
def State.place (s : State) (die i : Nat) (used : Bool) : State :=
  if s.resident die i then s
  else
    let n := s.modelBytes i
    let t := s.makeRoom die n 4096
    if t.rosterUsed die + n ≤ t.rosterRoom die then { t with copies := t.copies ++ [⟨die, i, n, used⟩] } else t

/-- A change of `ROSTER_LLM` evicts models that no longer fit (R146). -/
def State.fitRoster (s : State) : State := (List.range 8).foldl (fun t d => t.makeRoom d 0 4096) s

/-- A hint queues a copy, displacing the oldest that has not started when the queue is full; with none to displace the hint is lost.
No copy is queued on a die whose scratchpad is disabled (R141, R142, R147). [Log DEDUCED 96, 98] -/
def State.hint (s : State) (die i : Nat) : State :=
  let q := s.tailwind.filter fun e => e.die = die
  if s.modelState i = 0 || s.resident die i || q.any (fun e => e.index = i) || s.scratchOff die then s
  else if q.length < s.reg .tailwindDepth then { s with tailwind := s.tailwind ++ [⟨die, i, false⟩] }
  else
    match q.drop 1 with
    | [] => s
    | e :: _ => { s with tailwind := (s.tailwind.filter fun d => d ≠ e) ++ [(⟨die, i, false⟩ : TailwindCopy)] }.addReg .prefetchDropped 0 1

/-- The bytes that a MODEL loads into the B store: the first 256 KiB of the weights at most (R136). -/
def State.modelLoad (s : State) (i : Nat) : Load :=
  let w := s.roster i 8 8
  ⟨[(w, s.bytes w (min (s.modelBytes i) 262144))], false⟩

/-- The roster side of a MODEL step of bay `b` that names entry `i` with the hints `hs` (R136 to R143). A MODEL of the model that is
bound already is no binding. [Log DESIGN CHOICE 232] -/
def State.bindModel (s : State) (b i : Nat) (hs : List Nat) : State :=
  let die := s.bayDie b
  let x := s.bay b
  let s :=
    if x.model = some i then s
    else
      let s := s.addReg .switches 0 1
      let s := if s.resident die i then s.addReg .switchLlmHits 0 1 else s
      let late := (s.tailwind.find? fun e => e.die = die).any fun e => e.index = i
      let s := if late then s.addReg .prefetchLate 0 1 else s
      let s := (s.setBay b { x with model := some i, weights := some (s.modelLoad i) })
      let s := if late then s else s.place die i true
      { s with
        copies := s.copies.map fun c => if c.die = die ∧ c.index = i then { c with used := true } else c
        tailwind := s.tailwind.map fun e => if e.die = die ∧ e.index = i then { e with met := true } else e
        recent := Store.put 0 s.recent (4096 * die + i) ((s.recent.map Prod.snd).foldl max 0 + 1) }
  let hs := if hs.all (fun h => h = 0xFFFF) then (List.range 3).map fun k => s.roster i (0x20 + 2 * k) 2 else hs
  if s.reg .tailwindEn = 1 then (hs.filter fun h => h ≠ 0xFFFF).foldl (fun t h => t.hint die h) s else s

/-- A model's descriptors or weights, or its roster entry, hold poisoned data (R301, R491). -/
def State.modelPoisoned (s : State) (i : Nat) : Bool :=
  let w := s.roster i 8 8
  let d := s.roster i 0x10 8
  s.poisonedAny [(64 * i, 64 * i + 64), (w, w + s.modelBytes i), (d, d + 64 * s.roster i 2 2)]

/-- MODEL: the oldest started MODEL entry of the bay binds its roster entry (R136, R138, R141); one that meets a marked line of
the model ends with ECC_UNCORRECTABLE (R301, R491). -/
def execModel (b : Fin 256) (s : State) : Res :=
  match s.ready b.val fun f => f.op = opModel with
  | none => .next s
  | some f =>
    if (s.bay b.val).model ≠ some (f.param 0 16) && s.modelPoisoned (f.param 0 16) then
      .next (s.perform b.val f (Effect.fault 7 0))
    else
      let s := s.bindModel b.val (f.param 0 16) [f.param 16 16, f.param 32 16, f.param 48 16]
      .next (s.perform b.val f {})

/-- TAILWIND_COPY_COMPLETE: the copy in flight on a die ends and its model is resident (R139, R141). [Log DEDUCED 96] -/
def execTailwindCopyComplete (die : Fin 8) (s : State) : Res :=
  match s.tailwind.find? fun e => e.die = die.val with
  | none => .next s
  | some e =>
    let s := { s with tailwind := s.tailwind.filter fun d => d ≠ e }
    if s.modelState e.index = 0 then .next s else .next (s.place die.val e.index (e.met || s.boundOn die.val e.index))

/-! Placement of logical bays (R27). -/

/-- `LBAY_MAP` of R27: logical bay 32n + i on the active bay of rank i, and where a die has fewer than 32 on the bays that host
fewest (R123). [Log DEDUCED 30] -/
def State.placeBays (s : State) : State :=
  let m := (List.range 8).flatMap fun die =>
    let on := (List.range 34).filter fun p => s.reg .bayState (die * 34 + p) = 0
    (List.range 32).map fun i => die * 256 + on.getD (if i < on.length then i else i - on.length) 0
  s.changeAll .lbayMap 0 m

end Sys2Proof.Machine
end

