-- ==== Sys2Proof/Machine/Matrix.lean ====
section
/-! DEFINITION. The matrix array: operand classes, exact block sums, segments and their tree, the three forms of MMA, and
bay sparing (R73 to R85, R96 to R124, R692). -/

namespace Sys2Proof.Machine

/-- Operand class (R73): FP64, the other IEEE formats, or a block format of a block size. -/
inductive MmaClass where
  | f64 | f32 | block (n : Nat)
  deriving DecidableEq, Repr

/-- Class of a tensor (R73). -/
def Desc.mmaClass (d : Desc) : MmaClass :=
  match d.block with
  | some (_, n) => .block n
  | none => if d.fmt = 1 then .f64 else .f32

/-- Accumulation block size (R73). -/
def MmaClass.kb : MmaClass → Nat
  | .block n => n
  | _ => 16

/-- Accumulator of a class under `ACC` (R73, R100, R116). -/
def MmaClass.acc (c : MmaClass) (ext : Bool) : Ieee := if c = .f64 then (if ext then binary128 else fp64) else fp32

/-- Entries of the accumulator store at an accumulator's width (R100). -/
def accEntries (f : Ieee) : Nat := 131072 / f.bytes

/-- Bytes of an operand in a store, scale codes included (R100, R101). -/
def Desc.storeBytes (d : Desc) : Nat := d.rows * d.rowBytes + d.blocks

/-- Formats that a class writes (R81). -/
def mmaWrites (c : MmaClass) (d : Desc) : Bool := if c = .f64 then d.fmt = 1 else 2 ≤ d.fmt && d.fmt ≤ 4

/-- The accumulator that a partial tensor names (R118, R204). -/
def Desc.accumulator (d : Desc) : Ieee := if d.fmt = 2 then fp32 else if d.ext then binary128 else fp64

/-- The handles of an MMA name memory tensors; 0 or a detail code. -/
def mmaHandle (o : Operand) (noneOk : Bool) : Nat :=
  match o with
  | .tile _ => 7
  | .slot _ => 2
  | .none => if noneOk then 0 else 2
  | .tensor _ => 0

/-- Checks of the full and partial forms (R74, R81, R100, R101, R118, R203, R204, R215, R692). -/
def checkFull (f : Flight) (ext : Bool) (a b d : Desc) (c : Option Desc) : Nat :=
  let partForm := f.param 40 2 = 1
  let m := f.param 36 4
  let cls := a.mmaClass
  let acc := cls.acc ext
  let out := [b.dim 1, a.dim 1, if partForm then 2 ^ m else 1, 1]
  let same (x : Desc) : Bool := (List.range 4).map x.dim = out
  if cls ≠ b.mmaClass then 4
  else if !(a.extentsOk && b.extentsOk && d.extentsOk && c.all Desc.extentsOk) then 6
  else if 262144 < a.storeBytes ∨ 262144 < b.storeBytes ∨ accEntries acc < (m + 1) * a.dim 1 * b.dim 1 then 5
  else if a.dim 2 ≠ 1 ∨ a.dim 3 ≠ 1 ∨ b.dim 2 ≠ 1 ∨ b.dim 3 ≠ 1 ∨ a.dim 0 ≠ b.dim 0 ∨ !same d ∨ !c.all same then 6
  else if (if partForm then d.fmt ≠ (if acc = fp32 then 2 else 1) || d.ext != decide (acc = binary128)
      else !mmaWrites cls d || !c.all fun x => x.block.isNone) then 8
  else if a.remote ∨ b.remote ∨ d.remote ∨ c.any Desc.remote ∨ a.part ∨ b.part ∨ d.part ≠ partForm ∨ c.any Desc.part then 0x0D
  else 0

/-- Checks of the combine form (R74, R118, R692). The stores' capacity for A and B does not apply: it reads no operand of R100
but the partials. [Log DESIGN CHOICE 221] -/
def checkCombine (f : Flight) (t b d : Desc) (a : Option Desc) : Nat :=
  let m := f.param 36 4
  let acc := t.accumulator
  let n := d.dim 0
  let rows := d.dim 1
  if (b.mmaClass = .f64) ≠ (acc ≠ fp32) ∨ a.any (fun x => x.mmaClass ≠ b.mmaClass) then 4
  else if !(t.extentsOk && b.extentsOk && d.extentsOk && a.all Desc.extentsOk) then 6
  else if accEntries acc < (m + 1) * rows * n then 5
  else if (List.range 4).map t.dim ≠ [n, rows, 2 ^ m, 1] ∨ d.dim 2 ≠ 1 ∨ d.dim 3 ≠ 1 ∨
      [b.dim 1, b.dim 2, b.dim 3] ≠ [n, 1, 1] ∨ a.any (fun x => (List.range 4).map x.dim ≠ [b.dim 0, rows, 1, 1]) then 6
  else if !mmaWrites b.mmaClass d then 8
  else if !t.part ∨ t.remote ∨ d.remote ∨ d.part ∨ b.remote ∨ a.any Desc.remote then 0x0D
  else 0

/-- The tensor of an operand, if it names one. -/
def Operand.desc? : Operand → Option Desc
  | .tensor d => some d
  | _ => Option.none

/-- Checks of an MMA entry beyond R214's static ones: 0 or a detail code. -/
def State.checkMma (s : State) (f : Flight) (o : Operands) : Nat :=
  let h := [mmaHandle o.a false, mmaHandle o.b false, mmaHandle o.d false, mmaHandle o.x true]
  if f.param 40 2 = 1 ∧ o.x ≠ .none then 2
  else
    match h.find? fun c => c ≠ 0 with
    | some c => c
    | none =>
      match o.a, o.b, o.d with
      | .tensor a, .tensor b, .tensor d =>
        if f.param 40 2 = 2 then checkCombine f a b d o.x.desc?
        else checkFull f (s.reg .acc (f.param 32 4) = 1) a b d o.x.desc?
      | _, _, _ => 2

/-! Block sums (R75 to R79). -/

/-- The elements of one accumulation block of a row: the factor of its block scale, none for a NaN block, and its values
without the coarse scale. -/
structure KBlock where
  scale : Option Int
  values : List Num
  deriving DecidableEq, Repr

/-- Accumulation block `k` of row `r` of an operand. The padding of a block takes no part in the sum (R64); without blocks the
positions beyond K compute on zeros (R109). [Log DEDUCED 93] -/
def State.kBlock (s : State) (d : Desc) (kb r k : Nat) : KBlock :=
  let n := min kb (d.dim 0 - k * kb)
  match d.block with
  | some (e, _) =>
    let i := r * d.rowBlocks + k
    let c := s.blockScale d i
    { scale := if c = 0xFF then none else some (c - 127)
      values := ((s.blockCodes d i).take n).map e.decode }
  | none =>
    { scale := some 0
      values := ((List.range n).map fun j => s.value d .one (r * d.dim 0 + k * kb + j)) ++
        List.replicate (kb - n) (Num.zero false) }

/-- A number as a multiple of 2^l truncated toward zero, and whether bits were cut off. -/
def Num.window (l : Int) : Num → Int × Bool
  | .fin s m e =>
    if l ≤ e then (Num.units l (.fin s m e), false)
    else
      let d := 2 ^ (l - e).toNat
      let v : Int := m / d
      (if s then -v else v, m % d ≠ 0)
  | _ => (0, false)

/-- Whether the sum of FP64 terms takes the slow path (R77, R78). [Log DEDUCED 91] -/
def slowPath (ext : Bool) (terms : List Num) : Bool :=
  if terms.any fun t => t.isNan || t.isInf then false
  else
    match terms.foldl (fun a t => maxExp a t.exponent) none with
    | none => false
    | some top =>
      let l := top - 314
      let ws := terms.map (Num.window l)
      let sum := (ws.map (·.1)).foldl (· + ·) 0
      ws.any (·.2) && decide (sum.natAbs < if ext then (2 : Nat) ^ 128 else 2 ^ 64)

/-- What an accumulation block makes of an accumulator: the new value, status bits, and whether it was slow. -/
structure BlockSum where
  value : Num
  status : Nat
  slow : Bool
  deriving DecidableEq, Repr

/-- One accumulation block: the exact sum with the accumulator, rounded once (R75, R76, R78). [Log DEDUCED 91, 212] -/
def blockSum (cls : MmaClass) (acc : Ieee) (p : Option Num) (x y : KBlock) : BlockSum :=
  match x.scale, y.scale with
  | some sx, some sy =>
    let ps := (x.values.zip y.values).map fun q => q.1.mul q.2
    let terms := ps.map fun q => q.1.scale (sx + sy)
    let all := match p with
      | some v => v :: terms
      | none => terms
    let r := sumTerms all
    let q := acc.round false r.1
    { value := acc.decode q.1
      status := ps.foldl (fun a q => a ||| q.2) 0 ||| r.2 ||| (q.2 &&& stOverflow)
      slow := cls = .f64 && slowPath (acc = binary128) all }
  | _, _ => ⟨.nan, stNanIn, false⟩

/-- The stores of an array in the course of an MMA: memory as the A and the B store have it. -/
structure Stores where
  a : State
  b : State

/-- A segment's blocks in increasing order: its partial, none where EMPTY, status, and the slow blocks by number (R82). -/
def Stores.segment (v : Stores) (cls : MmaClass) (acc : Ieee) (a b : Desc) (i j lo hi : Nat) :
    Option Num × Nat × List Nat :=
  (List.range (hi - lo)).foldl
    (fun t k =>
      let r := blockSum cls acc t.1 (v.a.kBlock a cls.kb i (lo + k)) (v.b.kBlock b cls.kb j (lo + k))
      (some r.value, t.2.1 ||| r.status, if r.slow then (lo + k) :: t.2.2 else t.2.2))
    (none, 0, [])

/-- Two partials combined (R82). -/
def combine (acc : Ieee) (x y : Option Num) : Option Num × Nat :=
  match x, y with
  | none, y => (y, 0)
  | x, none => (x, 0)
  | some u, some v =>
    let r := sumTerms [u, v]
    let q := acc.round false r.1
    (some (acc.decode q.1), r.2 ||| (q.2 &&& stOverflow))

/-- One level of the tree, pair by pair (R82). -/
def treeLevel (acc : Ieee) : List (Option Num) → List (Option Num) × Nat
  | x :: y :: ps =>
    let r := combine acc x y
    let q := treeLevel acc ps
    (r.1 :: q.1, r.2 ||| q.2)
  | ps => (ps, 0)

/-- The fixed binary tree over 2^m partials (R82). -/
def tree (acc : Ieee) : Nat → List (Option Num) → Option Num × Nat
  | 0, ps => (ps.headD none, 0)
  | m + 1, ps =>
    let r := treeLevel acc ps
    let q := tree acc m r.1
    (q.1, r.2 ||| q.2)

/-- Segments: blocks along K, blocks per segment (R82). -/
def segBlocks (k kb m : Nat) : Nat × Nat := (ceilDiv k kb, ceilDiv (ceilDiv k kb) (2 ^ m))

/-! Write-back (R80, R81, R83, R84). -/

/-- Coarse scales read at the start of an MMA (R108): those of the given tensors in order, as bits. -/
def State.coarseBits (s : State) (ds : List Desc) : List Nat :=
  ds.map fun d => if d.block.isSome then s.load d.scale 4 else 0x3F800000

/-- The product of captured coarse scales and the status they raise (R65). -/
def coarseProduct (bits : List Nat) : Num × Nat :=
  bits.foldl (fun a b => let c := coarseOf b; ((a.1.mul c.1).1, a.2 ||| c.2)) (.one, 0)

/-- One output: C + scale * T, rounded once (R83, R84). -/
def outValue (t : Option Num) (scale : Num) (c : Option Num) : Num × Nat :=
  match t, c with
  | none, some c => (c, ofBool c.isNan * stNanIn)
  | none, none => (.zero false, 0)
  | some t, none => ((scale.mul t).1, 0)
  | some t, some c =>
    let r := sumTerms [c, (scale.mul t).1]
    (r.1, r.2 ||| ofBool c.isNan * stNanIn)

/-- Bits of consecutive elements of one row as a write. -/
def Desc.rowWrite (d : Desc) (r : Nat) (bits : List Nat) : Nat × List Byte :=
  (d.rowAddr r, bits.flatMap fun v => leBytes d.size v)

/-- Statistics that MMA adds for its outputs: counters, bins and slow path (R86 to R88, R108). -/
def outDelta (sel srcFmt dstFmt status : Nat) (f : Ieee) (outs : List (Nat × Nat)) (slow stalls : Nat) : Delta :=
  { Delta.empty with
    sel := sel, srcFmt := srcFmt, dstFmt := dstFmt, status := status, elements := outs.length
    flushed := (outs.filter fun r => bit r.2 4).length
    slowBlocks := slow, slowStalls := stalls, bins := binsOf (outs.map fun r => f.bin r.1) }

/-- The effect of writing the outputs of D, row by row: `outs` per row, bits and status. -/
def State.mmaWrite (s : State) (f : Flight) (src d : Desc) (fmt : Ieee) (rows : List (Nat × List (Nat × Nat)))
    (status slow stalls : Nat) : Effect :=
  let outs := rows.flatMap (·.2)
  let status := (outs.foldl (fun a r => a ||| r.2) status ||| (if slow = 0 then 0 else stSlowPath)) &&& 0x1FF
  let sel := s.reg .stats (f.param 32 4)
  { writes := rows.map fun r => d.rowWrite r.1 (r.2.map (·.1))
    merges := if d.scale = 0 ∨ sel = 0 then [] else [(d.record, outDelta sel src.fmt d.fmt status fmt outs slow stalls)]
    status := status }

/-- Pairs (row, block, strip) of slow sums, each once (R79). -/
def stallsOf (xs : List (Nat × Nat × Nat)) : Nat := xs.eraseDups.length

/-- The full and partial forms, on the operands as the stores hold them (R82 to R85, R103, R215). A T that is written as it stands
is flushed as the rest. [Log DESIGN CHOICE 227] -/
def State.planFull (s : State) (v : Stores) (f : Flight) (a b d : Desc) (c : Option Desc) : Effect :=
  let m := f.param 36 4
  let cls := a.mmaClass
  let acc := cls.acc (s.reg .acc (f.param 32 4) = 1)
  let (nb, seg) := segBlocks (a.dim 0) cls.kb m
  let part := f.param 40 2 = 1
  let level := f.param 43 4
  let segs := if part then (List.range (2 ^ level)).map fun k => f.param 47 12 * 2 ^ level + k else List.range (2 ^ m)
  let cells := (List.range (a.dim 1)).map fun i => (List.range (b.dim 1)).map fun j =>
    segs.map fun g => (g, v.segment cls acc a b i j (min (g * seg) nb) (min ((g + 1) * seg) nb))
  let slow := (cells.zipIdx).flatMap fun row => (row.1.zipIdx).flatMap fun cell =>
    cell.1.flatMap fun p => p.2.2.2.map fun k => (row.2, k, cell.2 / 64)
  let st := cells.foldl (fun a r => r.foldl (fun a cell => cell.foldl (fun a p => a ||| p.2.2.1) a) a) 0
  let sc := coarseProduct f.scales
  if part then
    let live := segs.filter fun g => g * seg < nb
    let rows := live.flatMap fun g => (cells.zipIdx).map fun row =>
      (g * a.dim 1 + row.2, row.1.map fun cell =>
        match (cell.find? fun p => p.1 = g).bind fun p => p.2.1 with
        | some v => ((acc.round false v).1, 0)
        | none => (0, 0))
    s.mmaWrite f a d acc rows (st ||| sc.2) slow.length (stallsOf slow)
  else
    let fmt := d.ieee.getD fp64
    let flush := s.reg .subn (f.param 32 4) = 1
    let rows := (cells.zipIdx).map fun row => (row.2, (row.1.zipIdx).map fun cell =>
      let t := tree acc m (cell.1.map fun p => p.2.1)
      let cv := c.map fun x => s.value x .one (row.2 * b.dim 1 + cell.2)
      let v := outValue t.1 sc.1 cv
      let r := fmt.round flush v.1
      (r.1, t.2 ||| v.2 ||| r.2))
    s.mmaWrite f a d fmt rows (st ||| sc.2) slow.length (stallsOf slow)

/-- The combine form, on the partials as the A store holds them (R84, R118). -/
def State.planCombine (s : State) (p : State) (f : Flight) (t b d : Desc) : Effect :=
  let m := f.param 36 4
  let acc := t.accumulator
  let (nb, seg) := segBlocks (b.dim 0) b.mmaClass.kb m
  let sc := coarseProduct f.scales
  let fmt := d.ieee.getD fp64
  let flush := s.reg .subn (f.param 32 4) = 1
  let n := d.dim 0
  let rows := (List.range (d.dim 1)).map fun i => (i, (List.range n).map fun j =>
    let ps := (List.range (2 ^ m)).map fun g =>
      if g * seg < nb then some (p.value t .one ((g * d.dim 1 + i) * n + j)) else none
    let q := tree acc m ps
    let n := ps.foldl (fun a p => a ||| ofBool (p.any Num.isNan) * stNanIn) 0
    let cv := if f.param 42 1 = 1 then some (s.value d .one (i * n + j)) else none
    let v := outValue q.1 sc.1 cv
    let r := fmt.round flush v.1
    (r.1, n ||| q.2 ||| v.2 ||| r.2))
  s.mmaWrite f t d fmt rows sc.2 0 0

/-! The stores (R95, R102 to R104). -/

/-- What a read of byte ranges puts into a store. -/
def State.loadOf (s : State) (rs : List (Nat × Nat)) : Load :=
  ⟨rs.map fun r => (r.1, s.bytes r.1 (r.2 - r.1)), s.poisonedAny rs⟩

/-- Memory with the contents of a store at the addresses they were read from. -/
def State.under (s : State) (l : Load) : State := l.runs.foldl (fun t r => t.putBytes r.1 r.2) s

/-- The bytes of the segments of a partial tensor that are not EMPTY, for K and the operand class of B (R118). -/
def partialRanges (m : Nat) (t b : Desc) : List (Nat × Nat) :=
  let (nb, seg) := segBlocks (b.dim 0) b.mmaClass.kb m
  (List.range (2 ^ m * t.dim 1)).filterMap fun r =>
    if r / t.dim 1 * seg < nb then some (t.rowAddr r, t.rowAddr r + t.rowBytes) else none

/-- What an MMA reads into the A store. -/
def rangesA (f : Flight) (a b : Desc) : List (Nat × Nat) :=
  if f.param 40 2 = 2 then partialRanges (f.param 36 4) a b else a.readRanges

/-- What an MMA reads into the B store; the combine form reads nothing of B. -/
def rangesB (f : Flight) (b : Desc) : List (Nat × Nat) := if f.param 40 2 = 2 then [] else b.readRanges

/-- The B operand as the store holds it: a model's weights where the MMA follows the MODEL and lies within what that loaded, else
what memory holds (R103). -/
def State.loadB (s : State) (x : Bay) (f : Flight) (b : Desc) : Load :=
  let rs := rangesB f b
  match x.weights with
  | some w =>
    if b.model && rs.all (fun r => w.runs.any fun p => decide (p.1 ≤ r.1 ∧ r.2 ≤ p.1 + p.2.length)) then w else s.loadOf rs
  | none => s.loadOf rs

/-- An operand joins a store for an entry, unless it is there. -/
def keepLoad (serial : Nat) (l : Load) (es : List (Nat × Load)) : List (Nat × Load) :=
  if (es.lookup serial).isSome then es else es ++ [(serial, l)]

/-- The next A is preloaded: it takes at most half of the A store, and so does the one in progress; the coarse scale that is read
with an operand takes no room (R95, R102). -/
def Bay.halfFree (x : Bay) (n : Nat) (a : Desc) : Bool :=
  a.storeBytes ≤ 131072 && x.aStore.all fun e => e.1 = n || e.2.bytes ≤ 131076

/-- The operands of an MMA of serial `n` are in the stores: A where it is to be read now, and B. The weights of a MODEL are lost with
the next MMA (R102, R103). -/
def State.fillStores (s : State) (x : Bay) (f : Flight) (n : Nat) (now : Bool) (o : Operands) : Bay :=
  match o.a, o.b with
  | .tensor a, .tensor b =>
    { x with
      aStore := if now || x.halfFree n a then keepLoad n (s.loadOf (rangesA f a b)) x.aStore else x.aStore
      bStore := keepLoad n (s.loadB x f b) x.bStore
      weights := none }
  | _, _ => x

/-- What an MMA does, on the operands in the stores and with C as its write-back reads it (R103, R110). -/
def State.planMma (s : State) (x : Bay) (f : Flight) (o : Operands) : Effect :=
  match o.a, o.b, o.d with
  | .tensor a, .tensor b, .tensor d =>
    let la := (x.aStore.lookup f.serial).getD (s.loadOf (rangesA f a b))
    let lb := (x.bStore.lookup f.serial).getD (s.loadOf (rangesB f b))
    let e := if f.param 40 2 = 2 then
        let c := if f.param 42 1 = 1 then d.readRanges else []
        s.unpoisoned c (s.planCombine (s.under la) f a b d)
      else s.unpoisoned o.x.readRanges (s.planFull ⟨s.under la, s.under lb⟩ f a b d o.x.desc?)
    if la.bad || lb.bad then Effect.fault 7 0 else e
  | _, _, _ => Effect.fault 0x80 2

/-- A residue or parity mismatch that the replay mends (R96). -/
def State.arrayReplay (s : State) (b step : Nat) : State :=
  (s.parityReplayed 1 (s.bayUnit b) 0 b step).addReg .residueReplays 0 1

/-- A mismatch that repeats on the replay halts the bay, and its BIST starts (R96, R121). -/
def State.arrayFailed (s : State) (b step : Nat) : State :=
  let s := (s.arrayReplay b step).parityPersistent 1 (s.bayUnit b) 0 b step
  s.setBay b (({ s.bay b with sparing := 1 } : Bay).clock s.now)

/-- The oldest started MMA that `p` names runs to its end; its operands leave the stores. -/
def State.completeMma (s : State) (b : Nat) (p : Flight → Bool) (f : Flight) : State :=
  let s := s.runEntry b p State.planMma
  s.setBay b ((s.bay b).leaveStores f.serial)

/-- The write-back of an MMA is interrupted after `n` rows: the rest stays in the accumulator store (R121). A speculative one has
written nothing outside its buffer, which a spare-in discards (R125). -/
def State.interruptMma (s : State) (b n : Nat) (f : Flight) : State :=
  match s.operands (s.bay b) f with
  | .error _ => s
  | .ok o =>
    let e := s.planMma (s.bay b) f o
    if f.spec || e.result ≠ 0 then s
    else
      let s := s.writes (e.writes.take n)
      (s.setBay b { s.bay b with accum := e.writes.drop n }).setFlight b
        { f with phase := 3, status := e.status, after := e.merges }

/-- The oldest started MMA of form `form` runs, or its residue check finds what `check` says: a mismatch that repeats
halts the bay, with D unwritten when the write-back has not begun, and its BIST starts (R96, R110, R121). -/
def State.runMma (s : State) (b form : Nat) (check : ArrayCheck) : State :=
  let p : Flight → Bool := fun f => f.op = opMma && f.param 40 2 = form
  match s.ready b p with
  | none => s
  | some f =>
    match check with
    | .clean => s.completeMma b p f
    | .replayed => (s.arrayReplay b f.step).completeMma b p f
    | .persistent => s.arrayFailed b f.step
    | .writeBack n => (s.interruptMma b n f).arrayFailed b f.step

/-- MMA_FULL (R82, R109, R110). -/
def execMmaFull (b : Fin 256) (check : ArrayCheck) (s : State) : Res := .next (s.runMma b.val 0 check)

/-- MMA_PARTIAL (R118, R215). -/
def execMmaPartial (b : Fin 256) (check : ArrayCheck) (s : State) : Res := .next (s.runMma b.val 1 check)

/-- MMA_COMBINE (R118). -/
def execMmaCombine (b : Fin 256) (check : ArrayCheck) (s : State) : Res := .next (s.runMma b.val 2 check)

/-! Bay sparing (R119 to R123). -/

/-- The logical bays that run on a physical bay. -/
def State.hosted (s : State) (die phys : Nat) : List Nat :=
  (List.range 256).filter fun k => s.reg .lbayMap k = die * 256 + phys

/-- The unused spare of a die with the lowest physical number (R120). -/
def State.spareBay (s : State) (die : Nat) : Option Nat := firstIndex 34 fun p => s.reg .bayState (die * 34 + p) = 1

/-- The active bay of a die that hosts the fewest logical bays; ties to the lower physical number (R123). -/
def State.sharedHost (s : State) (die : Nat) : Option Nat :=
  ((List.range 34).filter fun p => s.reg .bayState (die * 34 + p) = 0).foldl
    (fun best p => match best with
      | none => some p
      | some q => if (s.hosted die p).length < (s.hosted die q).length then some p else some q) none

/-- A VOP whose destination overlaps a source at an offset (R177). -/
def State.offsetVop (s : State) (x : Bay) (f : Flight) : Bool :=
  match s.operands x f with
  | .ok o =>
    [o.a, o.b].any fun p => match p, o.d with
      | .tensor a, .tensor d =>
        decide (a.addr ≠ d.addr ∨ a.shape ≠ d.shape ∨ a.pitch ≠ d.pitch ∨ a.fmt ≠ d.fmt) && rangesMeet a.ranges d.ranges
      | _, _ => false
  | .error _ => false

/-- The entry in progress at a spare-in restarts from its beginning: an MMA whose write-back has not begun, a MODEL, a VRED, and a
VOP whose destination overlaps a source at an offset (R121, R177). -/
def State.restarts (s : State) (x : Bay) (f : Flight) : Bool :=
  !f.executed && f.phase = 0 && (f.op = opMma || f.op = opModel || f.op = opVred || (f.op = opVop && s.offsetVop x f))

/-- The write-back of an MMA that was interrupted is finished from the accumulator store (R121). -/
def State.finishWriteBack (s : State) (b : Nat) : State :=
  match (s.bay b).flights.find? fun f => f.op = opMma && f.phase = 3 with
  | none => s
  | some f =>
    let x := s.bay b
    let s := (s.writes x.accum).setBay b { x with
      accum := []
      aStore := x.aStore.filter fun e => e.1 ≠ f.serial
      bStore := x.bStore.filter fun e => e.1 ≠ f.serial }
    let bad := s.badRecords f.after
    let r := s.mergeAll f.after
    r.1.setFlight b { f with
      phase := 0, executed := true, after := [], status := f.status ||| r.2
      result := if bad then 7 else f.result, halts := f.halts || bad }

/-- The halted bays of a physical bay go on: what restarts has `RFLAGS`[3] when `moved`, an interrupted write-back is finished
(R121, R177, R210), and a speculative run starts again (R125). The deadlines go on (R119). -/
def State.resumeBays (s : State) (ks : List Nat) (moved : Bool) : State :=
  ks.foldl (fun t k =>
    let x := t.bay k
    let x := { x with sparing := 0, flights := x.flights.map fun f =>
      if moved && t.restarts x f then { f with rflags := f.rflags ||| 8 } else f }
    (t.setBay k ((if moved then x.discardRun else x).clock t.now)).finishWriteBack k) s

/-- A physical bay fails in the spare-in `t`: the bay that it is to replace, or the replacement (R490). The lower spare of the die is
chosen (R120) and the copy starts; with no spare, the fewest-loaded bay of the die hosts the logical bay too (R123). -/
def State.failBay (s : State) (t : SelfTest) (die phys : Nat) : State :=
  let u := die * 64 + phys
  let ks := s.hosted die (t.unit % 64)
  let shared := s.spareBay die = none
  match (s.spareBay die).orElse fun _ => s.sharedHost die with
  | none =>
    let s := s.logError { code := 0x0A, severity := 2, outcome := 6, unitKind := 1, unit := u }
    (s.endTest t 6).degrade 0
  | some p =>
    let last := shared || ((List.range 34).filter fun q => s.reg .bayState (die * 34 + q) = 1).length = 1
    let s := s.logError {
        code := 0x0A, severity := if last then 2 else 1, unitKind := 1, unit := u,
        lbay := ks.headD 0xFFFF, pause := 0xFFFFFFFF }
    let s := s.setTest { t with stage := 1, more := t.more ++ [s.reg .errorHead], spare := p }
    let s := ks.foldl (fun v k => v.setBay k { v.bay k with sparing := 2 }) s
    if shared then (s.change .baysActive 0 (s.reg .baysActive - 1)).degrade 0 else if last then s.degrade 4 else s

/-- An unused spare of a die is used up. -/
def State.useSpareBay (s : State) (die : Nat) : State :=
  let left := s.reg .baySparesLeft
  s.change .baySparesLeft 0 (withField left (4 * die) 4 (field left (4 * die) 4 - 1))

/-- ARRAY_BIST_COMPLETE: the array BIST of a physical bay ends (R121). On a fail another bay takes its place; a spare that fails
while it takes over is replaced in turn (R490). -/
def execArrayBistComplete (die : Fin 8) (phys : Fin 34) (pass : Bool) (s : State) : Res :=
  let u := die.val * 64 + phys.val
  match s.runningTest 1 u with
  | some t =>
    if t.stage ≠ 0 then .next s
    else if pass then .next ((s.resumeBays (s.hosted die.val phys.val) false).endTest t 1)
    else .next ((s.change .bayState (die.val * 34 + phys.val) 2).failBay t die.val phys.val)
  | none =>
    match s.replacementOf 1 u with
    | none => .next s
    | some t =>
      if pass || s.reg .bayState (die.val * 34 + phys.val) ≠ 1 then .next s
      else .next (((s.change .bayState (die.val * 34 + phys.val) 2).useSpareBay die.val).failBay t die.val phys.val)

/-- BAY_SPARE_COPY_COMPLETE: the copy to the bay that takes over ends; the map and `BAY_STATE` change, and the interrupted
step restarts or finishes there (R119, R121, R123). [Log DESIGN CHOICE 239] -/
def execBaySpareCopyComplete (die : Fin 8) (phys : Fin 34) (s : State) : Res :=
  let u := die.val * 64 + phys.val
  match s.runningTest 1 u with
  | none => .next s
  | some t =>
    if t.stage ≠ 1 then .next s
    else
      let ks := s.hosted die.val phys.val
      let fresh := s.reg .bayState (die.val * 34 + t.spare) = 1
      let busy := (s.hosted die.val t.spare).any fun k => (s.bay k).present && !(s.bay k).parked
      let s := ks.foldl (fun v k => v.change .lbayMap k (die.val * 256 + t.spare)) s
      let s := if fresh then (s.change .bayState (die.val * 34 + t.spare) 0).useSpareBay die.val else s
      let s := (s.resumeBays ks true).endTest t 2
      .next (if !fresh && busy then ks.foldl (fun v k => v.setBay k (({ v.bay k with parked := true } : Bay).clock v.now)) s else s)

end Sys2Proof.Machine
end

