-- ==== Sys2Proof/Machine/Transc.lean ====
section
/-! DEFINITION. The transcendental functions: their values in fixed point, and a result within 1 unit in the last place of the
destination format (R158, R159). -/

namespace Sys2Proof.Machine

/-- Fraction bits of the fixed-point values. -/
abbrev fixBits : Nat := 640

/-- 1 in fixed point. -/
def fixOne : Int := 2 ^ fixBits

/-- Product in fixed point. -/
def fixMul (x y : Int) : Int := x * y / fixOne

/-- Quotient in fixed point. -/
def fixDiv (x y : Int) : Int := x * fixOne / y

/-- A finite number in fixed point; a non-zero one stays non-zero, at least 2^-512 in magnitude. -/
def Num.fix (x : Num) : Int :=
  match x with
  | .fin s m e =>
    let u : Int := m * 2 ^ (e + fixBits).toNat / 2 ^ (-(e + fixBits)).toNat
    let u := if m = 0 then 0 else max u (2 ^ (fixBits - 512))
    if s then -u else u
  | _ => 0

/-- 2 * artanh z for z up to 1/3. -/
def fixLogRatio (z : Int) : Int :=
  let q := fixMul z z
  2 * ((List.range 220).foldl (fun (a : Int × Int) (n : Nat) => (fixMul a.1 q, a.2 + a.1 / (2 * (n : Int) + 1))) (z, 0)).2

/-- ln 2. -/
def fixLnTwo : Int := fixLogRatio (fixOne / 3)

/-- e^x as a fixed-point value from 1 to 2 and a power of two. -/
def fixExp (x : Int) : Int × Int :=
  let k := x / fixLnTwo
  let t := x - k * fixLnTwo
  (((List.range 160).foldl (fun (a : Int × Int) (n : Nat) => (fixMul a.1 t / ((n : Int) + 1), a.2 + a.1)) (fixOne, 0)).2, k)

/-- e^-x of x from 0 on, in fixed point. -/
def fixExpNeg (x : Int) : Int := let r := fixExp (-x); r.1 / 2 ^ (-r.2).toNat

/-- ln of a positive number m * 2^e. -/
def fixLog (m : Nat) (e : Int) : Int :=
  let k := Nat.log2 m
  let y : Int := m * 2 ^ fixBits / 2 ^ k
  (e + k) * fixLnTwo + fixLogRatio (fixDiv (y - fixOne) (y + fixOne))

/-- arctan 1/n. -/
def fixArctan (n : Int) : Int :=
  ((List.range 300).foldl (fun (a : Int × Int) (k : Nat) =>
    (-(a.1 / (n * n)), a.2 + a.1 / (2 * (k : Int) + 1))) (fixOne / n, 0)).2

/-- The square root of 2 pi. -/
def fixRootTwoPi : Int := isqrt (2 * (16 * fixArctan 5 - 4 * fixArctan 239).toNat * 2 ^ fixBits)

/-- Φ x - 1/2 of x from 0 to 20, by the series x + x^3/3 + x^5/15 + … times the density. -/
def fixPhiHalf (x : Int) : Int :=
  let q := fixMul x x
  let r := (List.range 1200).foldl (fun (a : Int × Int) (k : Nat) => (fixMul a.1 q / (2 * (k : Int) + 3), a.2 + a.1)) (x, 0)
  fixMul r.2 (fixDiv (fixExpNeg (q / 2)) fixRootTwoPi)

/-- Φ(-x) / φ(x) of x from 16 on, by the continued fraction 1/(x + 1/(x + 2/(x + …))). -/
def fixMills (x : Int) : Int :=
  fixDiv fixOne ((List.range 200).reverse.foldl (fun (t : Int) (n : Nat) => x + fixDiv (((n : Int) + 1) * fixOne) t) x)

/-- A positive number just above (or below) a number, closer to it than any grid of the formats. -/
def Num.beside (x : Num) (up : Bool) : Num :=
  match x with
  | .fin s m e => .fin s (if up then m * 2 ^ 200 + 1 else m * 2 ^ 200 - 1) (e - 200)
  | x => x

/-- A non-negative fixed-point value, as no multiple of the grid: these functions take no value on a grid of the formats, apart
from those that `transcExact` lists. -/
def ofFix (s : Bool) (v : Int) : Num := .fin s (2 * v.toNat + 1) (-(fixBits : Int) - 1)

/-- 1 / (1 + e^-x), for -x as its argument where `neg`. -/
def sigmoid (neg : Bool) (x : Int) : Num :=
  let r := fixExp (-x)
  let q := fixOne + fixExpNeg x
  if neg then (ofFix false (fixDiv r.1 q)).scale r.2 else ofFix false (fixDiv fixOne q)

/-- Φ x, or Φ (-x) where `neg`, of x from 0 to 64. -/
def normalBelow (neg : Bool) (x : Int) : Num :=
  if neg ∧ 16 * fixOne ≤ x then
    let r := fixExp (-(fixMul x x / 2))
    (ofFix false (fixDiv (fixMul r.1 (fixMills x)) fixRootTwoPi)).scale r.2
  else ofFix false (if neg then fixOne / 2 - fixPhiHalf x else fixOne / 2 + fixPhiHalf x)

/-- A magnitude below 2^-64. -/
def Num.tiny (x : Num) : Bool :=
  match x.exponent with
  | some e => decide (e < -64)
  | none => true

/-- A magnitude of at least 2^n. -/
def Num.huge (n : Int) (x : Num) : Bool :=
  match x.exponent with
  | some e => decide (n ≤ e)
  | none => false

/-- The exact result of a function at an input where it is a number of every format (all are 0, 1, 1/2 or infinite); none elsewhere (R158). The value at minus
infinity of SILU and GELU, and so its limit, is stated nowhere. -/
def transcExact (fn : Nat) (a : Num) : Option Num :=
  let neg := a.neg?
  if a.isInf then
    if fn = 0x20 then some (if neg then .zero false else a)
    else if fn = 0x21 then some a
    else if fn = 0x22 then some (.fin neg 1 0)
    else if fn = 0x23 then some (if neg then .zero false else .one)
    else if neg then none else some a
  else if a.isZero then
    if fn = 0x20 then some .one
    else if fn = 0x23 then some (.fin false 1 (-1))
    else some (.zero neg)
  else if fn = 0x21 ∧ a.cmp .one = some .eq then some (.zero false)
  else none

/-- The real value of a function at a finite non-zero input, as a number that rounds toward each side as it does (R157).
[Log UNVERIFIED 100] -/
def transcReal (fn : Nat) (a : Num) : Num :=
  let neg := a.neg?
  let x := a.abs
  let v := x.fix
  let below := Num.fin (fn ≠ 0x20 && fn ≠ 0x23) 1 (-2000)
  if fn = 0x20 then
    if x.huge 10 then .fin false 1 (if neg then -2000 else 2000)
    else let r := fixExp (if neg then -v else v); (ofFix false r.1).scale r.2
  else if fn = 0x21 then
    match x with
    | .fin _ m e => let l := fixLog m e; ofFix (decide (l < 0)) l.natAbs
    | x => x
  else if fn = 0x22 then
    if x.tiny then a.beside false
    else if x.huge 7 then (Num.fin neg 1 0).beside false
    else let q := fixExpNeg (2 * v); ofFix neg (fixDiv (fixOne - q) (fixOne + q))
  else if fn = 0x23 then
    if neg && x.huge 10 then below else if !neg && x.huge 8 then Num.one.beside false else sigmoid neg v
  else if x.tiny then (a.scale (-1)).beside (!neg)
  else if fn = 0x24 then
    if neg && x.huge 10 then below else if !neg && x.huge 8 then a.beside false else ((sigmoid neg v).mul a).1
  else if neg && x.huge 6 then below
  else if !neg && x.huge 4 then a.beside false
  else ((normalBelow neg v).mul a).1

/-- The result of rounding a number to the neighbour below in magnitude, or the one `up` steps above it, and its status
(R51, R57, R58, R159). -/
def Ieee.faithful (f : Ieee) (flush : Bool) (up : Nat) (x : Num) : Nat × Nat :=
  match x with
  | .fin s m e =>
    let top := e + Nat.log2 m - f.fracBits
    let q := if flush then top else max top (f.emin - f.fracBits)
    let r := m * 2 ^ (e - q).toNat / 2 ^ (q - e).toNat + up
    if flush && decide (q + Nat.log2 r < f.emin) then (ofBool s * 2 ^ (f.width - 1), stFlushed)
    else if f.bias < (if r = 0 then f.emin else q + Nat.log2 r) then (f.infBits s, stOverflow)
    else (f.pack s r q, if r < 2 ^ f.fracBits then stUnderflow else 0)
  | x => f.round flush x

/-- A number of the format, or its neighbour on one side: what a result may be whose exact value is that number (R159). A zero
has either sign and the smallest subnormals as neighbours. -/
def Ieee.nearby (f : Ieee) (flush : Bool) (pick : Nat) (x : Num) : Nat × Nat :=
  match x with
  | .fin s m e =>
    if m = 0 then
      let neg := ofBool (pick % 2 = 1) * 2 ^ (f.width - 1)
      if pick / 2 % 2 = 0 then (neg, 0) else if flush then (neg, stFlushed) else (neg + 1, 0)
    else if pick % 3 = 0 then f.round flush x
    else if pick % 3 = 1 then f.round flush (.fin s (m * 2 ^ (f.fracBits + 1) + 2) (e - (f.fracBits + 1)))
    else f.round flush (.fin s (m * 2 ^ (f.fracBits + 1) - 1) (e - (f.fracBits + 1)))
  | x => f.round flush x

/-- A transcendental function of a value, in a format: bits and status (R52, R53, R158, R159). Which of the numbers within 1 unit
in the last place the algorithm gives is open, and so are SILU and GELU of minus infinity. [Log UNVERIFIED 100] -/
def transcendental (set fn fmt : Nat) (flush : Bool) (a : Num) : Nat × Nat :=
  let fp := ieeeOf fmt
  let pick := Config.transc (BitVec.ofNat 32 set) fn fmt (BitVec.ofNat 64 (fp64.round false a).1)
  if a.isNan then (fp.nanBits, stNanIn)
  else if fn = 0x21 ∧ a.isZero then (fp.infBits true, stDivByZero)
  else if fn = 0x21 ∧ a.neg? then (fp.nanBits, stInvalid)
  else
    match transcExact fn a with
    | some x => fp.nearby flush pick.toNat x
    | none =>
      if a.isInf then
        let x := fp.decode (pick.toNat % 2 ^ fp.width)
        ((fp.round flush x).1, if x.isNan then stInvalid else 0)
      else fp.faithful flush (pick.toNat % 2) (transcReal fn a)

end Sys2Proof.Machine
end

