-- ==== Sys2Proof/Machine/Vector.lean ====
section
/-! DEFINITION. The vector engine and the reduction unit (R148 to R178, R216, R217), and the folding of a tensor into a
digest stream (R222, R461, R463). -/

namespace Sys2Proof.Machine

/-! Operands (R151, R160, R161). -/

/-- Elements of an operand; 1 for a slot. -/
def Operand.count (x : Bay) : Operand → Nat
  | .none => 0
  | .slot _ => 1
  | .tile t => 64 * (x.tile t).rows
  | .tensor d => d.elems

/-- Format code of an operand; none for a slot (R161). 0xFF marks a format that the vector engine does not take. -/
def Operand.fmt (x : Bay) : Operand → Option Nat
  | .tile t => some (x.tile t).fmt
  | .tensor d => some (if d.part && d.ext then 0xFF else d.fmt)
  | _ => Option.none

/-- The operand names nothing. -/
def Operand.isNone : Operand → Bool
  | .none => true
  | _ => false

/-- The operand is a scalar slot. -/
def Operand.isSlot : Operand → Bool
  | .slot _ => true
  | _ => false

/-- The operand lies in memory. -/
def Operand.isMem : Operand → Bool
  | .tensor _ => true
  | _ => false

/-- The operand is a tile buffer. -/
def Operand.isTile : Operand → Bool
  | .tile _ => true
  | _ => false

/-- A remote tensor. -/
def Operand.isRemote : Operand → Bool
  | .tensor d => d.remote
  | _ => false

/-- Element i of an operand as a value. -/
def State.elemOf (s : State) (x : Bay) (o : Operand) (i : Nat) : Num :=
  match o with
  | .none => .zero false
  | .slot n => fp64.decode (x.slot n)
  | .tile t => (x.tile t).value i
  | .tensor d => s.value d .one i

/-- The value of a source at destination element i, of n (R160). -/
def State.srcAt (s : State) (x : Bay) (o : Operand) (n i : Nat) : Num :=
  if o.isSlot then s.elemOf x o 0
  else if o.count x = n then s.elemOf x o i
  else s.elemOf x o (i % 64)

/-- The vector engine takes this format (R162). -/
def vecFmt (c : Nat) : Bool := 1 ≤ c && c ≤ 4

/-- The widest of some format codes, the first among equals; FP64 where there is none (R151). [Log DESIGN CHOICE 241] -/
def widest : List Nat → Nat
  | [] => 1
  | c :: cs => cs.foldl (fun a b => if (ieeeOf a).width < (ieeeOf b).width then b else a) c

/-- The two highest-numbered tile buffers that an entry does not name (R155). -/
def stagingTiles (os : List Operand) : List Nat :=
  ([3, 2, 1, 0].filter fun t => !os.any fun o => o = .tile t).take 2

/-- Tiles that an entry with a memory operand leaves staged, with what draw `k` leaves in them; none without one (R155). -/
def stagedTiles (k : Nat) (os : List Operand) : List (Nat × Tile) :=
  if os.any Operand.isMem then (stagingTiles os).map fun t => (t, Tile.staged k t) else []

/-- Staging fails for want of two unnamed buffers (R155). -/
def stagingShort (os : List Operand) : Bool := os.any Operand.isMem && decide ((stagingTiles os).length < 2)

/-- Predicate of bit i mod 64. -/
def active (pred i : Nat) : Bool := bit pred (i % 64)

/-- The ranges of the elements of a memory operand that an entry reads, for n elements under a predicate (R164). -/
def Operand.activeRanges (x : Bay) (pred n : Nat) (o : Operand) : List (Nat × Nat) :=
  match o with
  | .tensor d =>
    if pred = 2 ^ 64 - 1 ∨ d.block.isSome then d.readRanges
    else ((List.range n).filter (active pred)).map fun i =>
      let j := if o.count x = n then i else i % 64
      (d.elemAddr j, d.elemAddr j + d.size)
  | _ => []

/-! Element results (R156 to R159). -/

/-- The order of two values, -0 below +0; NaN for any NaN, with NAN_IN. -/
def pickMinMax (big : Bool) (a b : Num) : Num × Nat := if a.isNan || b.isNan then (.nan, stNanIn) else (a.minmax big b, 0)

/-- A value passed on, NaN as the default NaN. -/
def passOn (a : Num) : Num × Nat := if a.isNan then (.nan, stNanIn) else (a, 0)

/-- The exact result of a function on values a, b, the former destination d and, for SEL, the selector (R157, R158). -/
def vopValue (fn : Nat) (imm : Int) (sel : Bool) (a b d : Num) : Num × Nat :=
  if fn = 0x01 then sumExact [a, b]
  else if fn = 0x02 then sumExact [a, b.negate]
  else if fn = 0x03 then a.mul b
  else if fn = 0x04 then
    let p := a.mul b
    if p.1.isNan then (.nan, p.2 ||| (if d.isNan then stNanIn else 0))
    else let r := sumExact [p.1, d]; (r.1, p.2 ||| r.2)
  else if fn = 0x05 then a.div b
  else if fn = 0x06 then a.sqrt
  else if fn = 0x07 then pickMinMax false a b
  else if fn = 0x08 then pickMinMax true a b
  else if fn = 0x09 then passOn a.abs
  else if fn = 0x0A then passOn a.negate
  else if fn = 0x0B then passOn (a.scale imm)
  else if fn = 0x0C then passOn (if sel then a else b)
  else if fn = 0x0E then pickMinMax true a (.zero false)
  else passOn a

/-- Bits and status of a destination element, with the transcendental algorithms of `set` (R156 to R159). -/
def vopBits (set fn fmt : Nat) (imm : Int) (flush sel : Bool) (a b d : Num) : Nat × Nat :=
  if 0x20 ≤ fn ∧ fn ≤ 0x25 then transcendental set fn fmt flush a
  else
    let v := vopValue fn imm sel a b d
    let r := (ieeeOf fmt).round flush v.1
    (r.1, v.2 ||| r.2)

/-! Reductions (R167 to R174). -/

/-- A leaf or partial of a reduction: its value, the index that ARGMAX carries, and the exact number that the value was rounded
from. -/
structure Red where
  v : Num
  i : Nat
  x : Num
  deriving DecidableEq, Repr

/-- A leaf: value and status (R167). `exact` leaves products unrounded (R172). -/
def redLeaf (rfn : Nat) (f : Ieee) (exact : Bool) (a b : Num) (i : Nat) : Red × Nat :=
  let n := if rfn ≠ 0x47 ∧ (a.isNan ∨ (rfn = 0x42 ∧ b.isNan)) then stNanIn else 0
  let as (v : Num) : Red := ⟨v, i, v⟩
  if rfn = 0x41 ∨ rfn = 0x42 then
    let p := a.mul (if rfn = 0x41 then a else b)
    if exact then (as p.1, n ||| p.2)
    else let r := f.round false p.1; (⟨f.decode r.1, i, p.1⟩, n ||| p.2 ||| r.2)
  else if rfn = 0x45 then (as a.abs, n)
  else if rfn = 0x47 then (as (.ofInt (if a.isNan || a.isZero then 0 else 1)), 0)
  else (as a, n)

/-- Two partials combined, the one of lower index first (R167). [Log DEDUCED 212] -/
def redCombine (rfn : Nat) (f : Ieee) (x y : Red) : Red × Nat :=
  let as (v : Num) : Red := ⟨v, x.i, v⟩
  if rfn = 0x47 then (as (sumExact [x.v, y.v]).1, 0)
  else if rfn = 0x46 then
    if x.v.isNan then (x, 0)
    else if y.v.isNan ∨ x.v.below y.v then (y, 0)
    else (x, 0)
  else if rfn = 0x43 ∨ rfn = 0x45 then (as (x.v.minmax true y.v), 0)
  else if rfn = 0x44 then (as (x.v.minmax false y.v), 0)
  else
    let r := sumTerms [x.v, y.v]
    let q := f.round false r.1
    (⟨f.decode q.1, x.i, r.1⟩, r.2 ||| q.2)

/-- One level of the tree; EMPTY passes its sibling through (R169). -/
def redLevel (rfn : Nat) (f : Ieee) : List (Option Red) → List (Option Red) × Nat
  | x :: y :: ps =>
    let q := redLevel rfn f ps
    match x, y with
    | some u, some v => let r := redCombine rfn f u v; (some r.1 :: q.1, r.2 ||| q.2)
    | none, y => (y :: q.1, q.2)
    | x, none => (x :: q.1, q.2)
  | ps => (ps, 0)

/-- The tree over a list, level by level (R169, R170); `k` bounds the levels. -/
def redTree (rfn : Nat) (f : Ieee) : Nat → List (Option Red) → Option Red × Nat
  | 0, ps => (ps.headD none, 0)
  | k + 1, ps =>
    let r := redLevel rfn f ps
    let q := redTree rfn f k r.1
    (q.1, r.2 ||| q.2)

/-- Result of an empty reduction (R167). -/
def redEmpty (rfn : Nat) : Num := if rfn = 0x43 ∨ rfn = 0x46 then .inf true else if rfn = 0x44 then .inf false else .zero false

/-- What a reduction gives: the value (the maximum for ARGMAX), the exact number it was rounded from, the index of ARGMAX,
status. -/
structure RedOut where
  v : Num
  x : Num
  i : Int
  status : Nat
  deriving DecidableEq, Repr

/-- A reduction over the terms of one group, EMPTY where masked (R169, R171, R172). -/
def reduce (rfn : Nat) (f : Ieee) (exact : Bool) (xs : List (Option (Num × Num))) : RedOut :=
  let ls := (xs.zipIdx).map fun p => p.1.map fun q => redLeaf rfn f exact q.1 q.2 p.2
  let st := ls.foldl (fun a l => match l with | some r => a ||| r.2 | none => a) 0
  let ps := ls.map fun l => l.map Prod.fst
  let empty : RedOut := ⟨redEmpty rfn, redEmpty rfn, -1, st⟩
  if ps.all Option.isNone then empty
  else if exact && 0x40 ≤ rfn && rfn ≤ 0x42 then
    let r := sumTerms (ps.filterMap fun p => p.map Red.v)
    let q := f.round false r.1
    ⟨f.decode q.1, r.1, -1, st ||| r.2 ||| q.2⟩
  else
    let t := redTree rfn f (Nat.log2 ps.length + 1) ps
    match t.1 with
    | none => empty
    | some r =>
      if rfn = 0x46 ∨ rfn = 0x47 then ⟨r.v, r.v, r.i, st ||| t.2⟩
      else let q := f.round false r.v; ⟨f.decode q.1, r.x, -1, st ||| t.2 ||| q.2⟩

/-- The step's status without UNDERFLOW under flush (R166). -/
def flushStatus (flush : Bool) (st : Nat) : Nat := if flush then withoutBit st 10 else st

/-- A result delivered in a format: its bits, its value, and the status of its one rounding. Flush acts on what is written alone
(R58, R59, R171): on the exact number where the format is the computation's. -/
def redDeliver (g d : Ieee) (flush : Bool) (v x : Num) : Nat × Num × Nat :=
  let q := d.round flush (if flush && g = d then x else v)
  (q.1, if flush && g = d then d.decode q.1 else v, q.2)

/-- What goes to a scalar slot: its FP64 bits, the value that the flags compare, status (R168, R171, R173). -/
def slotResult (rfn : Nat) (f : Ieee) (flush accum : Bool) (slot : Num) (r : RedOut) : Nat × Num × Nat :=
  if rfn = 0x46 then ((fp64.round false (.ofInt r.i)).1, r.v, r.status)
  else
    let c : Red × Nat := if accum then redCombine rfn f ⟨slot, 0, slot⟩ ⟨r.v, 0, r.x⟩ else (⟨r.v, 0, r.x⟩, 0)
    let n := if accum && slot.isNan then stNanIn else 0
    let q := redDeliver f fp64 flush c.1.v c.1.x
    (q.1, q.2.1, flushStatus flush (r.status ||| c.2 ||| n ||| q.2.2))

/-! VOP. -/

/-- A listed VOP function that computes elements (R157). -/
def vopElementwise (fn : Nat) : Bool := fn ≤ 0x0E || (0x20 ≤ fn && fn ≤ 0x25)

/-- A compare. -/
def vopCompare (fn : Nat) : Bool := 0x10 ≤ fn && fn ≤ 0x13

/-- A predicate function. -/
def vopPredicate (fn : Nat) : Bool := 0x18 ≤ fn && fn ≤ 0x1C

/-- Element count of a VOP without a memory destination: that of its full sources. Where some sources have 64 elements and
others do not, those of 64 are row operands (R151, R160). [Log DEDUCED 229] -/
def fullCount (ns : List Nat) : Nat := (ns.find? fun n => n ≠ 64).getD 64

/-- Elements of a VOP and its destination format (R151, R160). -/
def vopShape (x : Bay) (srcs : List Operand) (d : Operand) : Nat × Nat :=
  let full := srcs.filter fun o => !o.isSlot
  match d with
  | .tensor t => (t.elems, if t.part && t.ext then 0xFF else t.fmt)
  | .slot _ => (1, 1)
  | _ => (fullCount (full.map (Operand.count x)), widest (full.filterMap (Operand.fmt x)))

/-- The two operands overlap: the same tile or slot, or memory in common. -/
def Operand.overlaps (o p : Operand) : Bool :=
  match o, p with
  | .tile t, .tile u => t = u
  | .slot t, .slot u => t = u
  | .tensor d, .tensor e => d.ranges.any fun r => e.ranges.any fun q => decide (r.1 < q.2 ∧ q.1 < r.2)
  | _, _ => false

/-- Checks of a VOP beyond R214's static ones: 0 or a detail code (R151, R155, R157, R158, R160, R162, R168, R216). -/
def checkVop (x : Bay) (f : Flight) (o : Operands) : Nat :=
  let fn := f.param 0 8
  let red := f.param 20 1 = 1
  let rfn := f.param 21 7
  if vopPredicate fn then (if red then 8 else 0)
  else if !vopElementwise fn && !vopCompare fn then 8
  else
    let srcs := if vopUnary fn then [o.a] else [o.a, o.b]
    let cmp := vopCompare fn
    let (n, df) := vopShape x srcs o.d
    let ops := if cmp then srcs else srcs ++ [o.d]
    let fmts := srcs.filterMap (Operand.fmt x) ++ (if cmp || o.d.isSlot then [] else [df]) ++
      (if fn = 4 then (Operand.fmt x o.d).toList else [])
    if srcs.any Operand.isNone || (!cmp && o.d.isNone) then 2
    else if srcs.any fun p => !p.isSlot && p.count x ≠ n && p.count x ≠ 64 then 6
    else if fn = 4 && o.d.isTile && o.d.count x ≠ 64 * ceilDiv n 64 then 6
    else if o.d.isTile && tileRows df < ceilDiv n 64 then 7
    else if stagingShort ops then 7
    else if fmts.any (fun c => !vecFmt c) || (0x20 ≤ fn && fn ≤ 0x25 && fmts.contains 1) then 8
    else if fn = 0x0D && srcs.any fun p => o.d.overlaps p then 8
    else if red && (cmp || rfn < 0x40 || 0x47 < rfn || rfn = 0x42 || (rfn = 0x46 && (f.param 36 1 = 1 || f.param 37 1 = 1)))
    then 8
    else if ops.any Operand.isRemote then 0x0D
    else 0

/-- A predicate function (R157, R216). -/
def planPredicate (x : Bay) (f : Flight) : Effect :=
  let fn := f.param 0 8
  let p := x.pred (f.param 8 3)
  let q := x.pred (f.param 52 3)
  let v :=
    if fn = 0x18 then p &&& q
    else if fn = 0x19 then p ||| q
    else if fn = 0x1A then p ^^^ q
    else if fn = 0x1B then 2 ^ 64 - 1 - p
    else field f.word 64 64
  { pred := some (f.param 13 3, v) }

/-- A compare holds (R158). -/
def compareHolds (fn : Nat) (a b : Num) : Bool :=
  match a.cmp b with
  | none => fn = 0x13
  | some .eq => fn = 0x10 || fn = 0x12
  | some .lt => fn = 0x11 || fn = 0x12 || fn = 0x13
  | some .gt => fn = 0x13

/-- A compare: its predicate, flags and status (R165, R175). -/
def State.planCompare (s : State) (x : Bay) (f : Flight) (o : Operands) : Effect :=
  let fn := f.param 0 8
  let n := (vopShape x [o.a, o.b] o.d).1
  let pred := x.pred (f.param 8 3)
  let is := (List.range n).filter (active pred)
  let rs := is.map fun i => (i % 64, compareHolds fn (s.srcAt x o.a n i) (s.srcAt x o.b n i))
  let all := f.param 12 1 = 1
  let v := (List.range 64).foldl (fun a c =>
    let cs := rs.filter fun r => r.1 = c
    a + (if !cs.isEmpty && (if all then cs.all (·.2) else cs.any (·.2)) then 2 ^ c else 0)) 0
  let e : Effect :=
    { pred := some (f.param 13 3, v)
      tiles := stagedTiles s.free [o.a, o.b]
      cf := some (x.cf % 128 + (if v = 0 then 128 else 0))
      status := if is.isEmpty ∨ v = 0 then stMaskEmpty else 0 }
  s.unpoisoned (o.a.activeRanges x pred n ++ o.b.activeRanges x pred n) e

/-- What a statistics merge of a vector step adds (R87, R178). -/
def vecDelta (sel srcFmt dstFmt status : Nat) (srcs : List Num) (outs : List (Nat × Nat)) : Delta :=
  { Delta.empty with
    sel := sel, srcFmt := srcFmt, dstFmt := dstFmt, status := status, elements := outs.length
    flushed := (outs.filter fun r => bit r.2 4).length, srcMax := srcMaxOf srcs, srcMin := srcMinOf srcs
    bins := binsOf (outs.map fun r => (ieeeOf dstFmt).bin r.1) }

/-- The result of a step on its destination: new bits by element, none for an element that keeps its former value; beyond the valid
rows of a tile that was +0 (R164). -/
def storeResults (x : Bay) (d : Operand) (fmt n : Nat) (flush : Bool) (res : List (Option Nat)) : Effect :=
  match d with
  | .tensor t =>
    { writes := (res.zipIdx).filterMap fun p => p.1.map fun v => (t.elemAddr p.2, leBytes t.size v) }
  | .slot m =>
    { slots := match res.headD none with
        | some v => [(m, v)]
        | none => [] }
  | .tile t =>
    let old := x.tile t
    let bits := (res.take n).zipIdx.map fun p => match p.1 with
      | some v => v
      | none =>
        if 64 * old.rows ≤ p.2 then 0
        else if old.fmt = fmt then Store.at 0 old.data p.2 else ((ieeeOf fmt).round flush (old.value p.2)).1
    { tiles := [(t, Tile.ofBits fmt bits)] }
  | .none => {}

/-- The outcome of one element: the value of source A that enters the statistics, and the result's bits and status. -/
abbrev ElemOut := Option (Option Num × Nat × Nat)

/-- Source A enters the statistics: a full operand, no slot and no row (R87). -/
def Operand.counted (x : Bay) (o : Operand) (n : Nat) : Bool := !o.isSlot && o.count x = n

/-- The outcome of element `i` of an element-wise function over `n` elements into format `df`, none where it is masked
off (R156 to R164). [Log DESIGN CHOICE 242] -/
def State.elementAt (s : State) (x : Bay) (f : Flight) (o : Operands) (n df i : Nat) : ElemOut :=
  let fn := f.param 0 8
  let pred := x.pred (f.param 8 3)
  let imm := signed 12 (f.param 40 12)
  if fn = 0x0C || active pred i then
    let c : Int := (i % 64 : Nat) - imm
    let j := i / 64 * 64 + c.toNat
    let moved := 0 ≤ c && c < 64 && j < n
    let a := if fn = 0x0D then (if moved then s.srcAt x o.a n j else s.srcAt x o.b n i) else s.srcAt x o.a n i
    let b := if vopUnary fn then .zero false else s.srcAt x o.b n i
    let d := if fn = 4 then s.elemOf x o.d i else .zero false
    some (if (fn = 0x0D && !moved) || !o.a.counted x n then none else some a,
      vopBits (s.reg .transcId) fn df imm (s.reg .subn (f.param 16 4) = 1) (bit pred (i % 64)) a b d)
  else none

/-- What an element leaves at its destination: its result, +0 where it is masked off and ZEROING is set, or nothing (R164). -/
def elemResult (f : Flight) (p : ElemOut) : Option Nat :=
  match p with
  | some q => some q.2.1
  | none => if f.param 11 1 = 1 then some 0 else none

/-- Elements in a chunk: 64 KiB of the widest operand (R177). -/
def chunkElems (x : Bay) (srcs : List Operand) (df : Nat) : Nat :=
  65536 / ((ieeeOf (widest (df :: srcs.filterMap (Operand.fmt x)))).width / 8)

/-- Memory with the results of the elements from `lo` on in it. -/
def State.afterChunk (s : State) (d : Operand) (f : Flight) (lo : Nat) (outs : List ElemOut) : State :=
  match d with
  | .tensor t =>
    ((outs.zipIdx lo).filterMap fun p => (elemResult f p.1).map fun v => (t.elemAddr p.2, leBytes t.size v)).foldl
      (fun u w => u.putBytes w.1 w.2) s
  | _ => s

/-- The outcomes of all elements, chunk by chunk: each chunk reads memory as the ones before it have left it (R177). -/
def State.elements (s : State) (x : Bay) (f : Flight) (o : Operands) (n df : Nat) : List ElemOut :=
  let c := chunkElems x [o.a, o.b] df
  ((List.range (ceilDiv n c)).foldl (fun (a : State × List ElemOut) k =>
    let outs := (List.range (min c (n - k * c))).map fun i => a.1.elementAt x f o n df (k * c + i)
    (a.1.afterChunk o.d f (k * c) outs, a.2 ++ outs)) (s, [])).2

/-- An element-wise function, with the reduction it may name (R156 to R164, R171 to R174, R177, R178).
[Log DESIGN CHOICE 220, 243] -/
def State.planElements (s : State) (x : Bay) (f : Flight) (o : Operands) : Effect :=
  let fn := f.param 0 8
  let srcs := if vopUnary fn then [o.a] else [o.a, o.b]
  let (n, df) := vopShape x srcs o.d
  let pred := x.pred (f.param 8 3)
  let ms := f.param 16 4
  let flush := s.reg .subn ms = 1
  let outs := s.elements x f o n df
  let live := outs.filterMap id
  let st := flushStatus flush (live.foldl (fun a q => a ||| q.2.2) (if live.isEmpty then stMaskEmpty else 0))
  let e := storeResults x o.d df n flush (outs.map (elemResult f))
  let e := { e with tiles := e.tiles ++ stagedTiles s.free (srcs ++ [o.d]) }
  let e :=
    if f.param 20 1 = 0 then { e with status := st }
    else
      let rfn := f.param 21 7
      let g := if df = 1 then fp64 else fp32
      let r := reduce rfn g (f.param 37 1 = 1)
        (outs.map fun p => p.map fun q => ((ieeeOf df).decode q.2.1, Num.zero false))
      let slot := f.param 32 4
      let q := slotResult rfn g flush (f.param 36 1 = 1) (fp64.decode (x.slot slot)) r
      let st := st ||| q.2.2
      { e with
        status := st, slots := e.slots ++ [(slot, q.1)]
        cf := some (reductionFlags [q.2.1] (fp64.decode (x.slot (f.param 28 4))) st live.isEmpty) }
  let sel := s.reg .stats ms
  let e := match o.d with
    | .tensor t =>
      if t.scale = 0 ∨ sel = 0 then e
      else { e with merges := [(t.record, vecDelta sel (((o.a).fmt x).getD 1) df e.status (live.filterMap (·.1))
        (live.map (·.2)))] }
    | _ => e
  let rs := if fn = 0x0C then srcs.flatMap Operand.readRanges else srcs.flatMap (Operand.activeRanges x pred n)
  s.unpoisoned (rs ++ (if fn = 4 then o.d.activeRanges x pred n else [])) e

/-- The effect of a VOP. [Log DEDUCED 80] -/
def State.planVop (s : State) (x : Bay) (f : Flight) (o : Operands) : Effect :=
  let fn := f.param 0 8
  if vopPredicate fn then planPredicate x f
  else if vopCompare fn then s.planCompare x f o
  else s.planElements x f o

/-! VRED. -/

/-- Row length of a reduced source (R167). -/
def Operand.rowLength : Operand → Nat
  | .tensor d => d.dim 0
  | .tile _ => 64
  | _ => 1

/-- Results of a VRED: 1, one per row, or one per column. -/
def redResults (axis n w : Nat) : Nat := if axis = 0 then 1 else if axis = 1 then ceilDiv n w else w

/-- Computation format of a VRED (R171). -/
def redFmt (x : Bay) (srcs : List Operand) : Nat :=
  let fs := srcs.filterMap (Operand.fmt x)
  if fs.contains 1 then 1 else 2

/-- Destination format of a VRED. -/
def redDst (x : Bay) (srcs : List Operand) (d : Operand) : Nat :=
  match d with
  | .tensor t => if t.part && t.ext then 0xFF else t.fmt
  | .slot _ => 1
  | _ => redFmt x srcs

/-- Checks of a VRED: 0 or a detail code (R151, R155, R160, R162, R168, R217). -/
def checkVred (x : Bay) (f : Flight) (o : Operands) : Nat :=
  let rfn := f.param 0 8
  let axis := f.param 11 2
  let accum := f.param 21 1 = 1
  let srcs := if rfn = 0x42 then [o.a, o.b] else [o.a]
  let n := o.a.count x
  let w := o.a.rowLength
  let rows := ceilDiv n w
  let res := redResults axis n w
  let df := redDst x srcs o.d
  let fmts := srcs.filterMap (Operand.fmt x) ++ (if o.d.isSlot then [] else [df])
  let extent := if axis = 0 then n else if axis = 1 then w else rows
  if srcs.any Operand.isNone || o.d.isNone || (axis ≠ 0 && o.d.isSlot) || (accum && !o.d.isSlot) then 2
  else if (o.d.isMem && o.d.count x ≠ res) || (rfn = 0x42 && !o.b.isSlot && o.b.count x ≠ n && o.b.count x ≠ 64) then 6
  else if o.d.isTile && tileRows df < ceilDiv res 64 then 7
  else if stagingShort (srcs ++ [o.d]) then 7
  else if rfn < 0x40 || 0x47 < rfn || fmts.any (fun c => !vecFmt c) then 8
  else if rfn = 0x46 && (accum || f.param 22 1 = 1 || (!o.d.isSlot && df ≠ 1 && !(df = 2 && extent ≤ 2 ^ 24))) then 8
  else if (srcs ++ [o.d]).any Operand.isRemote then 0x0D
  else 0

/-- The groups of element numbers that a VRED reduces (R167). -/
def redGroups (axis n w : Nat) : List (List Nat) :=
  if axis = 0 then [List.range n]
  else if axis = 1 then (List.range (ceilDiv n w)).map fun r => (List.range w).map fun j => r * w + j
  else (List.range w).map fun c => (List.range (ceilDiv n w)).map fun r => r * w + c

/-- The effect of a VRED (R167 to R174). [Log DESIGN CHOICE 220] -/
def State.planVred (s : State) (x : Bay) (f : Flight) (o : Operands) : Effect :=
  let rfn := f.param 0 8
  let srcs := if rfn = 0x42 then [o.a, o.b] else [o.a]
  let n := o.a.count x
  let w := o.a.rowLength
  let pred := x.pred (f.param 8 3)
  let ms := f.param 17 4
  let flush := s.reg .subn ms = 1
  let g := ieeeOf (redFmt x srcs)
  let df := redDst x srcs o.d
  let term (i : Nat) : Option (Num × Num) :=
    if active pred i && decide (i < n) then
      some (s.elemOf x o.a i, if rfn = 0x42 then s.srcAt x o.b n i else .zero false)
    else none
  let rs := (redGroups (f.param 11 2) n w).map fun is => reduce rfn g (f.param 22 1 = 1) (is.map term)
  let empty := !(List.range n).any (active pred)
  let st := rs.foldl (fun a r => a ||| r.status) (if empty then stMaskEmpty else 0)
  let thr := fp64.decode (x.slot (f.param 13 4))
  let read := srcs.flatMap (Operand.activeRanges x pred n)
  match o.d with
  | .slot m =>
    let q := slotResult rfn g flush (f.param 21 1 = 1) (fp64.decode (x.slot m))
      (rs.headD ⟨.zero false, .zero false, -1, 0⟩)
    let st := flushStatus flush (st ||| q.2.2)
    s.unpoisoned read
      { slots := [(m, q.1)], tiles := stagedTiles s.free (srcs ++ [o.d]), status := st
        cf := some (reductionFlags [q.2.1] thr st empty) }
  | d =>
    let rs' := rs.map fun r =>
      if rfn = 0x46 then (((ieeeOf df).round false (.ofInt r.i)).1, r.v, 0) else redDeliver g (ieeeOf df) flush r.v r.x
    let outs := rs'.map fun q => (q.1, q.2.2)
    let st := flushStatus flush (outs.foldl (fun a q => a ||| q.2) st)
    let e := storeResults x d df outs.length flush (outs.map fun q => some q.1)
    let sel := s.reg .stats ms
    let srcVals := if o.a.counted x n then ((List.range n).filter (active pred)).map fun i => s.elemOf x o.a i else []
    let ms := match d with
      | .tensor t =>
        if t.scale = 0 ∨ sel = 0 then [] else [(t.record, vecDelta sel ((o.a.fmt x).getD 1) df st srcVals outs)]
      | _ => []
    s.unpoisoned read
      { e with
        tiles := e.tiles ++ stagedTiles s.free (srcs ++ [o.d]), status := st, merges := ms
        cf := some (reductionFlags (rs'.map fun q => q.2.1) thr st empty) }

/-! Commands. -/

/-- The oldest started VOP or VRED of a bay with a function runs. -/
def State.runVector (s : State) (b op fn : Nat) : State :=
  let p : Flight → Bool := fun f => f.op = op && f.param 0 8 = fn
  if (s.ready b p).isNone then s
  else (s.runEntry b p (if op = opVop then State.planVop else State.planVred)).draw.2

/-- VOP COPY (R157): the oldest started VOP of the bay with function 0x00 makes its effect. -/
def execVopCopy (b : Fin 256) (s : State) : Res := .next (s.runVector b.val opVop 0x00)

/-- VOP ADD (R157): the oldest started VOP of the bay with function 0x01 makes its effect. -/
def execVopAdd (b : Fin 256) (s : State) : Res := .next (s.runVector b.val opVop 0x01)

/-- VOP SUB (R157): the oldest started VOP of the bay with function 0x02 makes its effect. -/
def execVopSub (b : Fin 256) (s : State) : Res := .next (s.runVector b.val opVop 0x02)

/-- VOP MUL (R157): the oldest started VOP of the bay with function 0x03 makes its effect. -/
def execVopMul (b : Fin 256) (s : State) : Res := .next (s.runVector b.val opVop 0x03)

/-- VOP FMA (R157): the oldest started VOP of the bay with function 0x04 makes its effect. -/
def execVopFma (b : Fin 256) (s : State) : Res := .next (s.runVector b.val opVop 0x04)

/-- VOP DIV (R157): the oldest started VOP of the bay with function 0x05 makes its effect. -/
def execVopDiv (b : Fin 256) (s : State) : Res := .next (s.runVector b.val opVop 0x05)

/-- VOP SQRT (R157): the oldest started VOP of the bay with function 0x06 makes its effect. -/
def execVopSqrt (b : Fin 256) (s : State) : Res := .next (s.runVector b.val opVop 0x06)

/-- VOP MIN (R157): the oldest started VOP of the bay with function 0x07 makes its effect. -/
def execVopMin (b : Fin 256) (s : State) : Res := .next (s.runVector b.val opVop 0x07)

/-- VOP MAX (R157): the oldest started VOP of the bay with function 0x08 makes its effect. -/
def execVopMax (b : Fin 256) (s : State) : Res := .next (s.runVector b.val opVop 0x08)

/-- VOP ABS (R157): the oldest started VOP of the bay with function 0x09 makes its effect. -/
def execVopAbs (b : Fin 256) (s : State) : Res := .next (s.runVector b.val opVop 0x09)

/-- VOP NEG (R157): the oldest started VOP of the bay with function 0x0A makes its effect. -/
def execVopNeg (b : Fin 256) (s : State) : Res := .next (s.runVector b.val opVop 0x0A)

/-- VOP SCALE (R157): the oldest started VOP of the bay with function 0x0B makes its effect. -/
def execVopScale (b : Fin 256) (s : State) : Res := .next (s.runVector b.val opVop 0x0B)

/-- VOP SEL (R157): the oldest started VOP of the bay with function 0x0C makes its effect. -/
def execVopSel (b : Fin 256) (s : State) : Res := .next (s.runVector b.val opVop 0x0C)

/-- VOP SHIFTC (R157): the oldest started VOP of the bay with function 0x0D makes its effect. -/
def execVopShiftc (b : Fin 256) (s : State) : Res := .next (s.runVector b.val opVop 0x0D)

/-- VOP RELU (R157): the oldest started VOP of the bay with function 0x0E makes its effect. -/
def execVopRelu (b : Fin 256) (s : State) : Res := .next (s.runVector b.val opVop 0x0E)

/-- VOP CMPEQ (R157): the oldest started VOP of the bay with function 0x10 makes its effect. -/
def execVopCmpeq (b : Fin 256) (s : State) : Res := .next (s.runVector b.val opVop 0x10)

/-- VOP CMPLT (R157): the oldest started VOP of the bay with function 0x11 makes its effect. -/
def execVopCmplt (b : Fin 256) (s : State) : Res := .next (s.runVector b.val opVop 0x11)

/-- VOP CMPLE (R157): the oldest started VOP of the bay with function 0x12 makes its effect. -/
def execVopCmple (b : Fin 256) (s : State) : Res := .next (s.runVector b.val opVop 0x12)

/-- VOP CMPNE (R157): the oldest started VOP of the bay with function 0x13 makes its effect. -/
def execVopCmpne (b : Fin 256) (s : State) : Res := .next (s.runVector b.val opVop 0x13)

/-- VOP PAND (R157): the oldest started VOP of the bay with function 0x18 makes its effect. -/
def execVopPand (b : Fin 256) (s : State) : Res := .next (s.runVector b.val opVop 0x18)

/-- VOP POR (R157): the oldest started VOP of the bay with function 0x19 makes its effect. -/
def execVopPor (b : Fin 256) (s : State) : Res := .next (s.runVector b.val opVop 0x19)

/-- VOP PXOR (R157): the oldest started VOP of the bay with function 0x1A makes its effect. -/
def execVopPxor (b : Fin 256) (s : State) : Res := .next (s.runVector b.val opVop 0x1A)

/-- VOP PNOT (R157): the oldest started VOP of the bay with function 0x1B makes its effect. -/
def execVopPnot (b : Fin 256) (s : State) : Res := .next (s.runVector b.val opVop 0x1B)

/-- VOP PSET (R157): the oldest started VOP of the bay with function 0x1C makes its effect. -/
def execVopPset (b : Fin 256) (s : State) : Res := .next (s.runVector b.val opVop 0x1C)

/-- VOP EXP (R157): the oldest started VOP of the bay with function 0x20 makes its effect. -/
def execVopExp (b : Fin 256) (s : State) : Res := .next (s.runVector b.val opVop 0x20)

/-- VOP LOG (R157): the oldest started VOP of the bay with function 0x21 makes its effect. -/
def execVopLog (b : Fin 256) (s : State) : Res := .next (s.runVector b.val opVop 0x21)

/-- VOP TANH (R157): the oldest started VOP of the bay with function 0x22 makes its effect. -/
def execVopTanh (b : Fin 256) (s : State) : Res := .next (s.runVector b.val opVop 0x22)

/-- VOP SIGM (R157): the oldest started VOP of the bay with function 0x23 makes its effect. -/
def execVopSigm (b : Fin 256) (s : State) : Res := .next (s.runVector b.val opVop 0x23)

/-- VOP SILU (R157): the oldest started VOP of the bay with function 0x24 makes its effect. -/
def execVopSilu (b : Fin 256) (s : State) : Res := .next (s.runVector b.val opVop 0x24)

/-- VOP GELU (R157): the oldest started VOP of the bay with function 0x25 makes its effect. -/
def execVopGelu (b : Fin 256) (s : State) : Res := .next (s.runVector b.val opVop 0x25)

/-- VRED SUM (R167): the oldest started VRED of the bay with function 0x40 makes its effect. -/
def execVredSum (b : Fin 256) (s : State) : Res := .next (s.runVector b.val opVred 0x40)

/-- VRED SUMSQ (R167): the oldest started VRED of the bay with function 0x41 makes its effect. -/
def execVredSumsq (b : Fin 256) (s : State) : Res := .next (s.runVector b.val opVred 0x41)

/-- VRED DOT (R167): the oldest started VRED of the bay with function 0x42 makes its effect. -/
def execVredDot (b : Fin 256) (s : State) : Res := .next (s.runVector b.val opVred 0x42)

/-- VRED MAX (R167): the oldest started VRED of the bay with function 0x43 makes its effect. -/
def execVredMax (b : Fin 256) (s : State) : Res := .next (s.runVector b.val opVred 0x43)

/-- VRED MIN (R167): the oldest started VRED of the bay with function 0x44 makes its effect. -/
def execVredMin (b : Fin 256) (s : State) : Res := .next (s.runVector b.val opVred 0x44)

/-- VRED MAXABS (R167): the oldest started VRED of the bay with function 0x45 makes its effect. -/
def execVredMaxabs (b : Fin 256) (s : State) : Res := .next (s.runVector b.val opVred 0x45)

/-- VRED ARGMAX (R167): the oldest started VRED of the bay with function 0x46 makes its effect. -/
def execVredArgmax (b : Fin 256) (s : State) : Res := .next (s.runVector b.val opVred 0x46)

/-- VRED COUNTNZ (R167): the oldest started VRED of the bay with function 0x47 makes its effect. -/
def execVredCountnz (b : Fin 256) (s : State) : Res := .next (s.runVector b.val opVred 0x47)

end Sys2Proof.Machine
end

