-- ==== Sys2Proof/Machine/Coupler.lean ====
section
/-! DEFINITION. The field couplers: TRANS in parts, HIST, and the retirement of a coupler as TRANS sees it (R179 to R193,
R220, R487). -/

namespace Sys2Proof.Machine

/-- The coupler that serves the parts homed on a die (R487). -/
def State.servingCoupler (s : State) (die : Nat) : Nat :=
  (([die, die ^^^ 1, die ^^^ 4] ++ List.range 8).find? fun c => !bit (s.reg .couplerState) c).getD die

/-! Windows (R189, R190). -/

/-- One row of a window: source row and first column, destination row and first column. -/
structure WinRow where
  srcRow : Nat
  srcCol : Nat
  dstRow : Nat
  dstCol : Nat
  deriving DecidableEq, Repr

/-- Offset of the window along dimension k (R220). -/
def Flight.offset (f : Flight) (k : Nat) : Nat := if k < 3 then f.param (16 + 16 * k) 16 else 0

/-- Extents of a TRANS window: those of the destination, or of the source when the window lies in the destination. -/
def winOf (f : Flight) (a d : Desc) : Desc := if f.param 9 1 = 1 then a else d

/-- The rows of a window, in element order. -/
def winRows (f : Flight) (a d : Desc) : List WinRow :=
  let w := winOf f a d
  let inDst := f.param 9 1 = 1
  (List.range w.rows).map fun r =>
    let i1 := r % w.dim 1
    let i2 := r / w.dim 1 % w.dim 2
    let i3 := r / w.dim 1 / w.dim 2
    let big := if inDst then d else a
    let q := (f.offset 1 + i1) + big.dim 1 * ((f.offset 2 + i2) + big.dim 2 * i3)
    if inDst then ⟨r, 0, q, f.offset 0⟩ else ⟨q, f.offset 0, r, 0⟩

/-- Checks of a TRANS: 0 or a detail code (R153, R183, R184, R186, R189, R190). -/
def State.checkTrans (s : State) (f : Flight) (o : Operands) : Nat :=
  match o.a, o.d with
  | .tensor a, .tensor d =>
    let tfn := f.param 0 2
    let mode := f.param 2 2
    let inDst := f.param 9 1 = 1
    let big := if inDst then d else a
    let w := winOf f a d
    let whole := !inDst || ((List.range 4).all fun k => f.offset k = 0 && a.dim k = d.dim k)
    let want := if tfn = 0 then (false, true) else if tfn = 1 then (true, false)
      else if tfn = 2 then (true, true) else (false, false)
    if (List.range 4).any fun k => big.dim k < f.offset k + w.dim k then 6
    else if (a.block.isSome, d.block.isSome) ≠ want ∨ a.part ∨ d.part then 8
    else if (tfn = 1 ∨ tfn = 3) ∧ mode ≠ 0 then 9
    else if inDst && (match d.block with
        | some (_, n) => f.offset 0 % n ≠ 0 || (a.dim 0 % n ≠ 0 && f.offset 0 + a.dim 0 ≠ d.dim 0)
        | none => false) then 6
    else if mode ≠ 0 ∧ !whole then 9
    else if mode = 1 ∧ s.reg .stats (f.param 4 4) % 2 = 0 then 9
    else if a.remote ∨ d.remote then 0x0D
    else 0
  | a, d => if a.isTile || d.isTile then 7 else 2

/-! Scale (R184, R185, R187). -/

/-- The coarse scale for a largest source exponent, none for no finite non-zero value: as FP32 bits (R185).
[Log DEDUCED 101] -/
def State.coarseFrom (s : State) (e : Option Int) : Nat :=
  match e with
  | none => 0x3F800000
  | some e =>
    let k := max (-126) (min 127 (e + 1 + s.reg .carryHeadroom))
    (k + 127).toNat * 2 ^ 23

/-- `SRC_EXP_MAX` of a record, none for 0x8000_0000. -/
def State.recordExp (s : State) (rec' : Nat) : Option Int :=
  let v := s.load (rec' + 0x28) 4
  if v = 0x80000000 then none else some (signed 32 v)

/-- The record at an address carries source fields (R185). -/
def State.carries (s : State) (rec' : Nat) : Bool := s.load rec' 1 ≠ 0 && s.load (rec' + 1) 1 % 2 = 1

/-- What a TRANS converts: the function from source values to destination bytes, row by row. -/
structure Piece where
  /-- First byte of the source, which decides where the piece is converted, and the byte ranges of its source blocks (R179,
  R180). -/
  lo : Nat
  blocks : List (Nat × Nat)
  writes : List (Nat × List Byte)
  positions : Nat
  deriving DecidableEq, Repr

/-- The source blocks that hold elements `c` up to `c + n - 1` of a row, as byte ranges: the stored blocks of a block format, and
else the elements as one block (R180). -/
def Desc.blocksOf (d : Desc) (row c n : Nat) : List (Nat × Nat) :=
  match d.block with
  | some (e, k) => (List.range ((c + n - 1) / k + 1 - c / k)).map fun i =>
      (d.rowAddr row + (c / k + i) * blockBytes e k, d.rowAddr row + (c / k + i + 1) * blockBytes e k)
  | none => [(d.rowAddr row + c * d.size, d.rowAddr row + (c + n) * d.size)]

/-- What is read of a row for elements `c` up to `c + n - 1`: the bytes that hold them, and the scale codes of their blocks
(R190). -/
def Desc.readOf (d : Desc) (row c n : Nat) : List (Nat × Nat) :=
  match d.block with
  | some (e, k) =>
    let q := row * d.rowBlocks
    [(d.rowAddr row + c * e.width / 8, d.rowAddr row + ceilDiv ((c + n) * e.width) 8),
      (d.codeAddr (q + c / k), d.codeAddr (q + (c + n - 1) / k) + 1)]
  | none => [(d.rowAddr row + c * d.size, d.rowAddr row + (c + n) * d.size)]

/-- The columns of a window row in groups of `n`: first column and count. -/
def groups (n w : Nat) : List (Nat × Nat) := (List.range (ceilDiv w n)).map fun k => (k * n, min n (w - k * n))

/-- The outcome of a conversion before it is divided among the couplers. -/
structure Conversion where
  pieces : List Piece
  delta : Delta
  deriving DecidableEq, Repr

/-- Values of a window row from the source, at its coarse scale. -/
def State.rowValues (s : State) (a : Desc) (c : Num) (r : WinRow) (w : Nat) : List Num :=
  (List.range w).map fun j => s.value a c (r.srcRow * a.dim 0 + r.srcCol + j)

/-- ENCODE and RECODE of a window with coarse scale `c` (R70, R190). -/
def State.encodeWindow (s : State) (f : Flight) (a d : Desc) (e : Elem) (n : Nat) (srcC c : Num) (status : Nat) :
    Conversion :=
  let ms := f.param 4 4
  let flush := s.reg .subn ms = 1
  let w := (winOf f a d).dim 0
  let bs := (winRows f a d).flatMap fun r =>
    let vs := s.rowValues a srcC r w
    (groups n w).map fun g =>
      let xs := (vs.drop g.1).take g.2
      (r, g, xs, encodeBlock e c flush xs)
  let pieces := bs.map fun (r, g, _, b) =>
    let k := r.dstRow * d.rowBlocks + (r.dstCol + g.1) / n
    let src := a.blocksOf r.srcRow (r.srcCol + g.1) g.2
    { lo := (src.headD (0, 0)).1, blocks := src, positions := n
      writes := [(d.blockAddr k, packBlock e n (b.codes ++ List.replicate (n - b.codes.length) 0)),
        (d.codeAddr k, leBytes 1 b.scale)] : Piece }
  let xs := bs.flatMap fun t => t.2.2.1
  let es := bs.map fun t => t.2.2.2
  { pieces := pieces
    delta := { Delta.empty with
      sel := s.reg .stats ms, srcFmt := a.fmt, dstFmt := d.fmt
      status := es.foldl (fun q b => q ||| b.status) status
      elements := xs.length
      saturated := (es.map Encoded.saturated).foldl (· + ·) 0
      flushed := (es.map Encoded.flushed).foldl (· + ·) 0
      nanBlocks := (es.filter Encoded.nanBlock).length
      zeroBlocks := (es.filter Encoded.zeroBlock).length
      srcMax := srcMaxOf xs, srcMin := srcMinOf xs
      bins := binsOf (es.flatMap fun b => b.codes.map (e.bin b.scale)) } }

/-- The columns of a window row in parts that lie in one source block each, of `n` positions from the column `off` of the source: first
column and count. -/
def blockGroups (n off w : Nat) : List (Nat × Nat) :=
  (List.range (ceilDiv (off % n + w) n)).map fun k =>
    let lo := k * n - off % n
    (lo, min w ((k + 1) * n - off % n) - lo)

/-- DECODE and CONVERT of a window (R72, R183). A CONVERT is divided by aligned 128 B units of its source and fetches no block; each
source block of a DECODE is converted by itself, with all its positions, padding included (R179, R194). -/
def State.convertWindow (s : State) (f : Flight) (a d : Desc) (srcC : Num) (status : Nat) : Conversion :=
  let ms := f.param 4 4
  let flush := s.reg .subn ms = 1
  let fmt := d.ieee.getD fp64
  let w := (winOf f a d).dim 0
  let n := match a.block with
    | some (_, k) => k
    | none => 1
  let bs := (winRows f a d).flatMap fun r =>
    let vs := s.rowValues a srcC r w
    (blockGroups n r.srcCol w).map fun g =>
      (r, g, (vs.drop g.1).take g.2, ((vs.drop g.1).take g.2).map fun v => (v, fmt.round flush v))
  let pieces := bs.map fun (r, g, _, q) =>
    let src := a.blocksOf r.srcRow (r.srcCol + g.1) g.2
    { lo := (src.headD (0, 0)).1, blocks := if a.block.isSome then src else [], positions := n
      writes := [(d.elemAddr (r.dstRow * d.dim 0 + r.dstCol + g.1), q.flatMap fun p => leBytes d.size p.2.1)] : Piece }
  let outs := bs.flatMap fun t => t.2.2.2
  { pieces := pieces
    delta := vecDelta (s.reg .stats ms) a.fmt d.fmt
      ((outs.foldl (fun q p => q ||| p.2.2 ||| (if p.1.isNan then stNanIn else 0)) status) &&& 0x1FF)
      (outs.map (·.1)) (outs.map (·.2)) }

/-- Parts waiting at the coupler that serves a die, over all bays. [Log DEDUCED 102] -/
def State.partsAt (s : State) (c : Nat) : Nat :=
  ((List.range 256).map fun b =>
    ((s.bay b).flights.filter fun f => f.plan.any fun p => s.servingCoupler p.1 = c).length).foldl (· + ·) 0

/-- `COUPLER_QUEUE_MAX` follows the deepest queue (R195). -/
def State.noteQueues (s : State) : State :=
  let n := ((List.range 8).map s.partsAt).foldl max 0
  if s.reg .couplerQueueMax < n then s.setReg .couplerQueueMax 0 n else s

/-- The source blocks of a conversion that have a unit homed on a die other than that of the coupler that reads them, which the first
byte of the block decides (R179, R180). -/
def State.farBlocks (s : State) (ps : List Piece) : List (Nat × Nat) :=
  (ps.flatMap fun p => p.blocks.filter fun r =>
    (List.range ((r.2 - 1) / 128 - r.1 / 128 + 1)).any fun k =>
      s.homeDie ((r.1 / 128 + k) * 128) ≠ s.servingCoupler (s.homeDie r.1)).eraseDups

/-- A conversion as the couplers make it, with the source's and the destination's coarse scale. -/
def State.convert (s : State) (f : Flight) (a d : Desc) (srcC c : Num) (srcStatus status : Nat) : Conversion :=
  match d.block with
  | some (e, n) => s.encodeWindow f a d e n srcC c (srcStatus ||| status)
  | none => s.convertWindow f a d srcC srcStatus

/-- The source blocks of a bay's TRANS that are still to be written and that a unit of another die now belongs to. -/
def State.farLeft (s : State) (b : Nat) (f : Flight) : List (Nat × Nat) :=
  match s.operands (s.bay b) f with
  | .ok ⟨.tensor a, _, .tensor d, _⟩ =>
    s.farBlocks ((s.convert f a d .one .one 0 0).pieces.filter fun p => p.writes.any fun w => f.plan.any fun q => q.2.1 = w.1)
  | _ => []

/-- The blocks of the TRANS entries that run which the retirement of a coupler makes remote, the state `s` being that before it
(R195, R487). -/
def State.countHandover (t s : State) : State :=
  t.addReg .transRemoteBlocks 0 ((t.bays.map fun e =>
    ((e.2.flights.filter fun f => f.op = opTrans && f.phase = 1).map fun f =>
      ((t.farLeft e.1 f).filter fun r => !(s.farLeft e.1 f).contains r).length).sum).sum)

/-- The coupler that a bay's TRANS and HIST go to is in its self-test, and so they are held (R179, R191, R484). -/
def State.originHeld (s : State) (b : Nat) : Bool := s.inTest 8 (s.servingCoupler (s.bayDie b))

/-- The origin coupler starts a TRANS: coarse scales, the division among the couplers, and the result that they will
write (R179, R184, R185, R187). -/
def State.startTrans (s : State) (b : Nat) (f : Flight) (a d : Desc) : State :=
  let mode := f.param 2 2
  if s.poisonedAny ((winRows f a d).flatMap (fun r => a.readOf r.srcRow r.srcCol ((winOf f a d).dim 0)) ++
      (if a.block.isSome then [(a.scale, a.scale + 4)] else []) ++
      (if d.block.isSome && mode = 0 then [(d.scale, d.scale + 4)] else []) ++
      (if mode = 1 then [(d.record, d.record + 640)] else [])) then
    s.perform b f (Effect.fault 7 0)
  else
  let src := if a.block.isSome then coarseOf (s.load a.scale 4) else (.one, 0)
  let w := (winOf f a d).dim 0
  let (c, st, s) := match d.block with
    | none => (Num.one, 0, s)
    | some _ =>
      if mode = 0 then let q := coarseOf (s.load d.scale 4); (q.1, q.2, s)
      else
        let carried := mode = 1 && s.carries d.record
        let e := if carried then s.recordExp d.record
          else srcMaxOf ((winRows f a d).flatMap fun r => s.rowValues a src.1 r w)
        let bits := s.coarseFrom e
        let s := if mode = 1 && !carried then s.addReg .transCarryMisses 0 1 else s
        ((coarseOf bits).1, 0, (s.write d.scale (leBytes 4 bits)).write d.record [0])
  let v := s.convert f a d src.1 c src.2 st
  let after := if d.scale = 0 ∨ v.delta.sel = 0 then [] else [(d.record, v.delta)]
  if f.param 8 1 = 0 && s.badRecords after then s.perform b f (Effect.fault 7 0)
  else
  let s := s.addReg .transRemoteBlocks 0 (s.farBlocks v.pieces).length
  let g := { f with
    phase := 1
    status := v.delta.status
    plan := v.pieces.flatMap fun p => p.writes.map fun q => (s.homeDie p.lo, q.1, q.2)
    after := after
    elems := (v.pieces.map Piece.positions).foldl (· + ·) 0 }
  (s.setFlight b g).noteQueues

/-- The oldest started TRANS of a bay with a function goes to the couplers. [Log DEDUCED 101, 102] -/
def State.runTrans (s : State) (b tfn : Nat) : State :=
  match s.ready b fun f => f.op = opTrans && f.param 0 2 = tfn && !s.originHeld b with
  | none => s
  | some f =>
    match s.operands (s.bay b) f with
    | .ok ⟨.tensor a, _, .tensor d, _⟩ => s.startTrans b f a d
    | _ => s.perform b f (Effect.fault 0x80 2)

/-- TRANS ENCODE (R183). -/
def execTransEncode (b : Fin 256) (s : State) : Res := .next (s.runTrans b.val 0)

/-- TRANS DECODE (R183). -/
def execTransDecode (b : Fin 256) (s : State) : Res := .next (s.runTrans b.val 1)

/-- TRANS RECODE (R183). -/
def execTransRecode (b : Fin 256) (s : State) : Res := .next (s.runTrans b.val 2)

/-- TRANS CONVERT (R183). -/
def execTransConvert (b : Fin 256) (s : State) : Res := .next (s.runTrans b.val 3)

/-- TRANS_PART_COMPLETE: coupler `c` has written its part of the oldest TRANS of bay `b` that has one; with the last
part the origin coupler clears and merges the record, once (R91, R182, R220). The parts of a coupler in its self-test are held
(R484). -/
def execTransPartComplete (b : Fin 256) (c : Fin 8) (s : State) : Res :=
  let mine (p : Nat × Nat × List Byte) : Bool := s.servingCoupler p.1 = c.val && !s.inTest 8 c.val
  match (s.bay b.val).flights.find? fun f => f.op = opTrans && f.phase = 1 && f.plan.any mine with
  | none => .next s
  | some f =>
    let t := (f.plan.filter mine).foldl (fun (u : State) p => u.writeCoupler p.2.1 p.2.2) s
    let rest := f.plan.filter fun p => !mine p
    if !rest.isEmpty then .next (t.setFlight b.val { f with plan := rest })
    else
      let t := match t.operands (t.bay b.val) f with
        | .ok ⟨_, _, .tensor d, _⟩ => if f.param 8 1 = 1 && d.scale ≠ 0 then t.write d.record [0] else t
        | _ => t
      let bad := t.badRecords f.after
      let r := t.mergeAll f.after
      .next ((r.1.addReg .transElements 0 f.elems).setFlight b.val
        { f with
          plan := [], phase := 2, executed := true, status := f.status ||| r.2
          result := if bad then 7 else f.result, halts := f.halts || bad })

/-! HIST (R191, R220). -/

/-- Checks of a HIST: 0 or a detail code. [Log DEDUCED 104] -/
def checkHist (f : Flight) (o : Operands) : Nat :=
  let fn := f.param 0 3
  if fn < 2 && !o.a.isNone then 2
  else if o.a.isSlot || o.d.isSlot || o.d.isNone || (2 ≤ fn && o.a.isNone) then 2
  else if o.a.isTile || o.d.isTile then 7
  else
    match o.d with
    | .tensor d =>
      let area (o : Operand) : Bool := match o with
        | .tensor t => t.scale ≠ 0
        | _ => true
      if o.a.isRemote || d.remote then 0x0D
      else if fn ≠ 2 && fn ≠ 4 && d.scale = 0 then 0x0D
      else if (fn = 2 || fn = 3) && !area o.a then 0x0D
      else if fn = 2 && d.addr % 64 ≠ 0 then 0x0D
      else 0
    | _ => 2

/-- The oldest started HIST of a bay with a function runs. -/
def State.runHist (s : State) (b fn : Nat) (plan : State → Flight → Operands → Effect) : State :=
  s.runEntry b (fun f => f.op = opHist && f.param 0 3 = fn && !s.originHeld b) fun v _ f o => plan v f o

/-- HIST CLEAR: `REC_TYPE` of D's area becomes 0. -/
def execHistClear (b : Fin 256) (s : State) : Res :=
  .next (s.runHist b.val 0 fun _ _ o => match o.d with
    | .tensor d => { writes := [(d.record, [0])] }
    | _ => {})

/-- HIST CARRY: `COARSE` from the area's record, which is emptied; an empty record is a carry miss (R191). -/
def execHistCarry (b : Fin 256) (s : State) : Res :=
  let miss := match s.ready b.val fun f => f.op = opHist && f.param 0 3 = 1 && !s.originHeld b.val with
    | some f => match s.operands (s.bay b.val) f with
      | .ok ⟨_, _, .tensor d, _⟩ =>
        let v := s.viewFor b.val f
        !v.carries d.record && !v.poisonedAny [(d.record, d.record + 640)]
      | _ => false
    | none => false
  let t := s.runHist b.val 1 fun v _ o => match o.d with
    | .tensor d =>
      v.unpoisoned [(d.record, d.record + 640)]
        (if v.carries d.record then
          { writes := [(d.scale, leBytes 4 (v.coarseFrom (v.recordExp d.record))), (d.record, [0])] }
        else {})
    | _ => {}
  .next (if miss then t.addReg .transCarryMisses 0 1 else t)

/-- HIST COPY: the record of A's area goes to `ADDR` of D. -/
def execHistCopy (b : Fin 256) (s : State) : Res :=
  .next (s.runHist b.val 2 fun v _ o => match o.a, o.d with
    | .tensor a, .tensor d => v.unpoisoned [(a.record, a.record + 640)] { writes := [(d.addr, v.bytes a.record 640)] }
    | _, _ => {})

/-- HIST MERGE: the record of A's area merges into D's; an empty source changes nothing (R191). -/
def execHistMerge (b : Fin 256) (s : State) : Res :=
  .next (s.runHist b.val 3 fun v _ o => match o.a, o.d with
    | .tensor a, .tensor d =>
      v.unpoisoned [(a.record, a.record + 640)]
        (if v.load a.record 1 = 0 then {} else { merges := [(d.record, deltaOf (v.bytes a.record 640))] })
    | _, _ => {})

/-- Every value of a tensor, its bins, and its NaN and zero blocks, as SCAN counts them (R191). [Log DEDUCED 103] -/
def State.scanDelta (s : State) (a : Desc) (sel : Nat) : Delta :=
  let c := s.coarse a
  let vs := (List.range a.elems).map (s.value a c.1)
  let nan := if vs.any Num.isNan then stNanIn else 0
  match a.block with
  | some (e, n) =>
    let bs := (List.range a.blocks).map fun k =>
      (s.blockScale a k, (s.blockCodes a k).take (min n (a.dim 0 - k % a.rowBlocks * n)))
    { Delta.empty with
      sel := sel, srcFmt := a.fmt, dstFmt := a.fmt, status := c.2 ||| nan, elements := vs.length
      srcMax := srcMaxOf vs, srcMin := srcMinOf vs
      nanBlocks := (bs.filter fun b => b.1 = 0xFF).length
      zeroBlocks := (bs.filter fun b => b.2.all fun q => (e.decode q).isZero).length
      bins := binsOf (bs.flatMap fun b => b.2.map (e.bin b.1)) }
  | none =>
    let f := a.ieee.getD fp64
    { Delta.empty with
      sel := sel, srcFmt := a.fmt, dstFmt := a.fmt, status := nan, elements := vs.length
      srcMax := srcMaxOf vs, srcMin := srcMinOf vs
      bins := binsOf ((List.range a.elems).map fun i => f.bin (s.load (a.elemAddr i) a.size)) }

/-- HIST SCAN: statistics of A's values merge into the record of D's area (R191). -/
def execHistScan (b : Fin 256) (s : State) : Res :=
  .next (s.runHist b.val 4 fun v f o => match o.a, o.d with
    | .tensor a, .tensor d =>
      let q := v.scanDelta a (v.reg .stats (f.param 4 4))
      v.unpoisoned a.readRanges
        { status := q.status, merges := if d.scale = 0 ∨ q.sel = 0 then [] else [(d.record, q)] }
    | _, _ => {})

end Sys2Proof.Machine
end

