-- ==== Sys2Proof/Machine/Fabric.lean ====
section
/-! DEFINITION. The fabric as a source sees it: the places of nodes, what a change of links does, blocks, and the mail messages that a
node posts (R363 to R398). -/

namespace Sys2Proof.Machine

/-! Places of nodes (R371, R381). -/

/-- Group address of a logical node, from `JOB_MAP` (R371). -/
def State.groupAddr (s : State) (n : Nat) : Nat := s.load (s.reg .jobMap + 4 * n) 4 % 2 ^ 18

/-- The entry of a logical node in the job map is marked poisoned, so its place is not known (R301). -/
def State.placeLost (s : State) (n : Nat) : Bool := s.poisoned (s.reg .jobMap + 4 * n) (s.reg .jobMap + 4 * n + 4)

/-- The job map marks the logical node as a WQN-8100 (R371). -/
def State.isOlder (s : State) (n : Nat) : Bool := bit (s.load (s.reg .jobMap + 4 * n) 4) 18

/-- A logical node of the job outside this node's group (R381). -/
def State.isElsewhere (s : State) (n : Nat) : Bool := decide (n < s.reg .jobNodes) && (s.posOf n).isNone

/-! Requests and links (R363, R365, R385). -/

/-- The queue of mail that belongs to a bay (R398). -/
def bayQueue (b : Nat) : Nat := 64 + b

/-- Remote work of a bay that has not been answered: its requests, and its mail until its completion is reported (R385, R398). -/
def State.bayWaits (s : State) (b : Nat) : Bool :=
  (s.requests.any fun r => match r.agent with
    | .bay k _ _ => k = b
    | _ => false) || s.mails.any fun m => m.queue = bayQueue b

/-! Blocks (R380). -/

/-- Pieces of a run of bytes, each within one aligned block of `size` bytes; `n` bounds the pieces. -/
def blocksBy (size : Nat) : Nat → Nat → List Byte → List (Nat × List Byte)
  | 0, _, _ => []
  | n + 1, off, bs =>
    if bs.isEmpty then []
    else
      let k := size - off % size
      (off, bs.take k) :: blocksBy size n (off + k) (bs.drop k)

/-- Pieces of a run of bytes, each of at most 256 B within one aligned 256 B block; `n` bounds the pieces. -/
def blocksOf (n off : Nat) (bs : List Byte) : List (Nat × List Byte) := blocksBy 256 n off bs

/-- The packets of an operation go out in order, each with its offset, and its signal last (R384). -/
def State.sendOp (s : State) (a : Agent) (q cls key : Nat) (ps : List (Nat × Body)) (sig : Option (Nat × Nat))
    (order : Option RaccOrder) : State :=
  let s := ps.foldl (fun (t : State) p => t.request a q cls p.1 key p.2) s
  match sig with
  | some (off, k) => s.request a q cls off k (.signal order ps.length)
  | none => s

/-! Mail (R392 to R398). -/

/-- A route entry: match, mask, exits (R372). -/
def State.route (s : State) (i : Nat) : Nat := s.reg .routes i

/-- Exits of the route to a group address, in the order in which they are tried for a pair of nodes (R372).
[Log DEDUCED 150] -/
def State.exits (s : State) (group src dst : Nat) : List (Nat × Nat) :=
  match (List.range 4096).find? fun i =>
      let r := s.route i
      bit r 36 && (field r 0 18 &&& field r 18 18) = (group &&& field r 18 18) with
  | none => []
  | some i =>
    let r := s.route i
    let n := field r 72 2 + 1
    (List.range n).map fun k =>
      let e := field r (40 + 8 * (((src ^^^ dst) + k) % n)) 8
      (e % 32, e / 32)

/-- An exit works: its link is UP here, or its position can be reached (R372). -/
def State.exitWorks (s : State) (e : Nat × Nat) : Bool :=
  if e.1 = s.pos then s.reg .linkState (betweenLink e.2) = linkUp else (s.hopTo e.1).isSome

/-- A packet of mail or of a collective leaves toward its destination: to a position of this group, or by an exit; none where it
cannot (R372). -/
def State.routeMail (s : State) (p : Packet) : Option State :=
  match s.posOf p.h.dst.val with
  | some q => if (s.hopTo q).isSome then some (s.emit q p) else none
  | none =>
    if s.placeLost p.h.dst.val then none
    else ((s.exits (s.groupAddr p.h.dst.val) p.h.src.val p.h.dst.val).find? s.exitWorks).map fun e =>
      if e.1 = s.pos then s.sendOn (betweenLink e.2) (.mailOut (betweenLink e.2) p) else s.emit e.1 p

/-- A packet of a collective goes to a member; one that cannot is held until a way opens (R365, R420). [Log DEDUCED 253] -/
def State.sendFar (s : State) (p : Packet) : State :=
  match s.posOf p.h.dst.val with
  | some q => s.emit q p
  | none => (s.routeMail p).getD { s with stuck := s.stuck ++ [(17, p)] }

/-- What is held for want of an exit is tried again. -/
def State.retryFar (s : State) : State :=
  (s.stuck.filter fun e => e.1 = 17).foldl (fun (t : State) e => t.sendFar e.2) { s with stuck := s.stuck.filter fun e => e.1 ≠ 17 }

/-- Link states change: detours are chosen again, what waits is sent again on its new path, and every group peer is told
(R363, R365). `old` is the state before. -/
def State.linksChanged (s : State) (old : State) : State :=
  let s := s.countDetours
  let s := (List.range 17).foldl (fun t q =>
    if q ≠ t.pos && decide (t.hopTo q ≠ old.hopTo q) then t.resendTo q else t) s
  let s := s.retryFar
  let states := (List.range 16).map fun j => s.reg .linkState (slotLink j)
  let s := (List.range 17).foldl (fun (t : State) q =>
    if q ≠ t.pos && t.linkTo q = linkUp then t.sendOn (t.linkOf q) (.packet q q (t.plain q (.linkState states))) else t) s
  s.checkPartner

/-- How a message ends at its destination: one for a WQN-8100 has the forerunner's format (R393, R397). -/
def State.mailKind (s : State) (m : Mail) : MailKind :=
  if s.isOlder m.lnode then .forerunner
  else match m.notify with
    | some n => .notify n
    | none => .plain

/-- Packets of a mail message (R395): at most 4 KiB each. -/
def State.mailPackets (s : State) (m : Mail) : List Packet :=
  let n := ceilDiv m.data.length 4096
  ((pieces 4096 n m.data).zipIdx).map fun d =>
    ⟨s.header m.cls m.lnode 0 (m.offset + 4096 * d.2) m.key, .mail m.msg d.2 n (s.mailKind m) d.1 0⟩

/-- A mail message is replaced. -/
def State.setMail (s : State) (m new : Mail) : State := { s with mails := s.mails.replace m new }

/-- The packets of a message from packet `k` on go out; with no way, the message ends with LINK_LOST (R372). -/
def State.pushMail (s : State) (m : Mail) (k : Nat) : State :=
  let r := ((s.mailPackets m).drop k).foldl (fun (t : State × Bool) p =>
    match t.1.routeMail p with
    | some u => (u, t.2)
    | none => (t.1, false)) (s, true)
  if r.2 then r.1
  else (r.1.logError { code := 5, severity := 2, lnode := m.lnode }).setMail m { m with result := some 5 }

/-- A message may start: no message of its pair is under way, none before it in its queue goes to the same node, and with ORDER none
before it in its queue is left (R395, R396). [Log DESIGN CHOICE 254] -/
def State.mayStartMail (s : State) (m : Mail) : Bool :=
  let before := (s.mails.takeWhile fun x => x ≠ m).filter fun x => x.queue = m.queue && x.result.isNone
  !m.started && s.mails.contains m && !(s.mails.any fun x => x.lnode = m.lnode && x.started && x.result.isNone) &&
    before.all fun x => !m.order && x.lnode ≠ m.lnode

/-- A message starts with the next number of its pair: its result is known at once where its descriptor is refused or its data poisoned
(R394, R396). -/
def State.startMail (s : State) (m : Mail) : State :=
  if m.refused then s.setMail m { m with started := true, result := some 0x80 }
  else if m.poisoned then s.setMail m { m with started := true, result := some 7 }
  else
    let n := Store.at 0 s.mailNext m.lnode
    let new := { m with started := true, msg := n }
    ({ s with mailNext := Store.put 0 s.mailNext m.lnode ((n + 1) % 65536) }.setMail m new).pushMail new 0

/-- The messages that may start do, once the node has sent its fence message (R379, R395). -/
def State.startMails (s : State) : State :=
  if s.maySend then s.mails.foldl (fun (t : State) m => if t.mayStartMail m then t.startMail m else t) s else s

/-- A message joins its queue. -/
def State.postMail (s : State) (m : Mail) : State := { s with mails := s.mails ++ [m] }.startMails

/-- A posted operation of a bay fails: the error log, and the bay's next HOLD or FENCE GROUP (R385).
[Log DESIGN CHOICE 149] -/
def State.postedFailure (s : State) (b code lnode : Nat) : State :=
  let s := s.logError { code := code, severity := if code = 5 then 2 else 5, lnode := lnode, detail := lnode, lbay := b }
  s.setBay b { s.bay b with failure := some (code, lnode) }

end Sys2Proof.Machine
end

