-- ==== Sys2Proof/Machine/Svx.lean ====
section
/-! DEFINITION. Lane arithmetic of the short-vector extension, and the roundings of the general cores with their flags
(R254, R255, R263 to R275). -/

namespace Sys2Proof.Machine

/-! Flags of `fflags` (R255, R269). -/

abbrev fxInexact : Nat := 1
abbrev fxUnderflow : Nat := 2
abbrev fxOverflow : Nat := 4
abbrev fxDivZero : Nat := 8
abbrev fxInvalid : Nat := 16

/-- The result lies below the smallest normal when rounded with an unbounded exponent. -/
def Ieee.tiny (f : Ieee) (x : Num) : Bool :=
  match x with
  | .fin _ m e =>
    if m = 0 then false
    else
      let qf := e + Nat.log2 m - f.fracBits
      decide (qf + Nat.log2 (roundEven m (e - qf)) < f.emin)
  | _ => false

/-- One rounding with subnormals kept: bits and flags (R50, R255, R269). -/
def Ieee.settle (f : Ieee) (x : Num) : Nat × Nat :=
  let r := f.round false x
  match x with
  | .fin _ _ _ =>
    if bit r.2 2 then (r.1, fxOverflow + fxInexact)
    else if (f.decode r.1).cmp x = some .eq then (r.1, 0)
    else (r.1, fxInexact + ofBool (f.tiny x) * fxUnderflow)
  | _ => (r.1, 0)

/-- The flags of an exact operation's status. -/
def flagsOf (st : Nat) : Nat := ofBool (bit st 0) * fxInvalid + ofBool (bit st 9) * fxDivZero

/-- Rounding of an exact operation. -/
def Ieee.finish (f : Ieee) (r : Num × Nat) : Nat × Nat :=
  let b := f.settle r.1
  (b.1, b.2 ||| flagsOf r.2)

/-- The bits are a signaling NaN. -/
def Ieee.signaling (f : Ieee) (v : Nat) : Bool :=
  field v f.fracBits f.expBits = 2 ^ f.expBits - 1 && field v 0 f.fracBits ≠ 0 && !bit v (f.fracBits - 1)

/-- The invalid flag that signaling NaN operands raise. -/
def Ieee.snans (f : Ieee) (vs : List Nat) : Nat := ofBool (vs.any f.signaling) * fxInvalid

/-- A result with more flags. -/
def moreFlags (n : Nat) (r : Nat × Nat) : Nat × Nat := (r.1, r.2 ||| n)

/-- Conversion of a number to an `n`-bit integer: rounded under R50, saturated to the largest of the sign, zero for a
NaN; the last two set the invalid flag (R269). -/
def toInteger (isUnsigned : Bool) (n : Nat) (x : Num) : Nat × Nat :=
  let lo : Int := if isUnsigned then 0 else -(2 ^ (n - 1) : Int)
  let hi : Int := if isUnsigned then 2 ^ n - 1 else 2 ^ (n - 1) - 1
  match x with
  | .nan => (0, fxInvalid)
  | .inf s => (unsigned n (if s then lo else hi), fxInvalid)
  | .fin s m e =>
    let k := roundEven m e
    let v : Int := if s then -(k : Int) else k
    if hi < v then (unsigned n hi, fxInvalid)
    else if v < lo then (unsigned n lo, fxInvalid)
    else (unsigned n v, ofBool (decide ((Num.ofInt v).cmp x ≠ some .eq)) * fxInexact)

/-! Lanes (R267). -/

/-- Bits of a lane of a type. -/
def laneBits (et : Nat) : Nat := [8, 16, 32, 64, 16, 16, 32, 64].getD et 64

/-- A floating-point type. -/
def laneFp (et : Nat) : Bool := decide (4 ≤ et)

/-- The format of a floating-point type. -/
def laneFmt (et : Nat) : Ieee := if et = 4 then fp16 else if et = 5 then bf16 else if et = 6 then fp32 else fp64

/-- Bits of the 64-bit and the 128-bit form (R264). -/
def formBits (w : Bool) : Nat := if w then 128 else 64

/-- Lanes of a type in so many bits. -/
def laneCount (bits et : Nat) : Nat := bits / laneBits et

/-- Lane `i` of a type. -/
def lane (et v i : Nat) : Nat := field v (i * laneBits et) (laneBits et)

/-- The value whose lanes, lane 0 first, are of `n` bits. -/
def packLanes (n : Nat) (ls : List Nat) : Nat := ls.foldr (fun l a => a * 2 ^ n + l % 2 ^ n) 0

/-- A register value with the flags that its lanes raise. -/
def ofLanes (n : Nat) (rs : List (Nat × Nat)) : Nat × Nat :=
  (packLanes n (rs.map (·.1)), rs.foldl (fun a r => a ||| r.2) 0)

/-- A function of the lanes of `a`, `b` and the former destination. -/
def mapLanes (bits et : Nat) (f : Nat → Nat → Nat → Nat × Nat) (a b d : Nat) : Nat × Nat :=
  ofLanes (laneBits et) ((List.range (laneCount bits et)).map fun i => f (lane et a i) (lane et b i) (lane et d i))

/-- The integer that a lane holds. -/
def laneInt (isUnsigned : Bool) (et v : Nat) : Int := if isUnsigned then v else signed (laneBits et) v

/-- An integer wrapped to a lane. -/
def wrapLane (et : Nat) (v : Int) : Nat × Nat := (unsigned (laneBits et) v, 0)

/-- All ones for true. -/
def maskLane (et : Nat) (c : Bool) : Nat × Nat := (if c then 2 ^ laneBits et - 1 else 0, 0)

/-! Functions per lane (R268). -/

/-- VADD and VSUB. -/
def laneAdd (minus : Bool) (et a b : Nat) : Nat × Nat :=
  if laneFp et then
    let f := laneFmt et
    let y := if minus then (f.decode b).negate else f.decode b
    moreFlags (f.snans [a, b]) (f.finish (sumExact [f.decode a, y]))
  else wrapLane et (if minus then (a : Int) - b else a + b)

/-- VMUL. -/
def laneMul (et a b : Nat) : Nat × Nat :=
  if laneFp et then
    let f := laneFmt et
    moreFlags (f.snans [a, b]) (f.finish ((f.decode a).mul (f.decode b)))
  else wrapLane et (a * b)

/-- VMULH. -/
def laneMulh (u : Bool) (et a b : Nat) : Nat × Nat :=
  wrapLane et (laneInt u et a * laneInt u et b / 2 ^ laneBits et)

/-- A product and a sum with one rounding. -/
def fusedMulAdd (f : Ieee) (x y z : Num) : Nat × Nat :=
  let p := x.mul y
  let s := sumExact [p.1, z]
  f.finish (s.1, p.2 ||| s.2)

/-- VFMA. -/
def laneFma (et a b d : Nat) : Nat × Nat :=
  if laneFp et then
    let f := laneFmt et
    moreFlags (f.snans [a, b, d]) (fusedMulAdd f (f.decode a) (f.decode b) (f.decode d))
  else wrapLane et (a * b + d)

/-- VMIN and VMAX; floating point as MIN and MAX of R158. -/
def laneMinmax (big u : Bool) (et a b : Nat) : Nat × Nat :=
  if laneFp et then
    let f := laneFmt et
    moreFlags (f.snans [a, b]) (f.finish ((f.decode a).minmax big (f.decode b), 0))
  else
    let x := laneInt u et a
    let y := laneInt u et b
    wrapLane et (if big then max x y else min x y)

/-- VDIV. -/
def laneDiv (et a b : Nat) : Nat × Nat :=
  let f := laneFmt et
  moreFlags (f.snans [a, b]) (f.finish ((f.decode a).div (f.decode b)))

/-- VSQRT. -/
def laneSqrt (et a : Nat) : Nat × Nat :=
  let f := laneFmt et
  moreFlags (f.snans [a]) (f.finish (f.decode a).sqrt)

/-- VSLL, VSRL and VSRA: the shift is b modulo the lane width. -/
def laneShift (left arith : Bool) (et a b : Nat) : Nat × Nat :=
  let k := b % laneBits et
  if left then wrapLane et ((a * 2 ^ k : Nat) : Int)
  else wrapLane et (laneInt (!arith) et a / 2 ^ k)

/-- The compares: 0 equal, 1 less, 2 less or equal; false with a NaN (R269). -/
def laneCompare (which : Nat) (u : Bool) (et a b : Nat) : Nat × Nat :=
  if laneFp et then
    let f := laneFmt et
    let c := (f.decode a).cmp (f.decode b)
    let holds := (c = some .eq && which ≠ 1) || (c = some .lt && which ≠ 0)
    let invalid := if which = 0 then f.snans [a, b] else ofBool (c = none) * fxInvalid
    moreFlags invalid (maskLane et holds)
  else
    let x := laneInt u et a
    let y := laneInt u et b
    maskLane et (if which = 0 then x = y else if which = 1 then decide (x < y) else decide (x ≤ y))

/-! Conversions (R269). -/

/-- One lane converted from type `src` to type `et`; none for an integer that the narrower lane cannot hold, whose result
no rule states. -/
def laneConvert (u : Bool) (src et v : Nat) : Option (Nat × Nat) :=
  if laneFp src then
    let f := laneFmt src
    let x := f.decode v
    if laneFp et then some (moreFlags (f.snans [v]) ((laneFmt et).settle x))
    else some (toInteger u (laneBits et) x)
  else
    let x := laneInt u src v
    if laneFp et then some ((laneFmt et).settle (.ofInt x))
    else
      let y := unsigned (laneBits et) x
      if laneInt u et y = x then some (y, 0) else none

/-- VCVT: lane i of the destination from lane i of the source, none where the source has no such lane or the result is
not stated. [Log DESIGN CHOICE 120] -/
def convertLanes (bits : Nat) (u : Bool) (src et a : Nat) : List (Option (Nat × Nat)) :=
  (List.range (laneCount bits et)).map fun i =>
    if i < laneCount bits src then laneConvert u src et (lane src a i) else none

/-! Widening products and dot products (R270 to R272). -/

/-- The wider type of VWMUL. -/
def widerLane (et : Nat) : Nat := if et < 3 then et + 1 else if et = 6 then 7 else 6

/-- The result type of VDOT. -/
def dotLane (et : Nat) : Nat := if et < 2 then et + 2 else if et = 6 then 7 else 6

/-- The lanes of a VDOT group. -/
def dotGroup (et : Nat) : Nat := if et < 2 then 4 else 2

/-- One widening product. -/
def laneWiden (u : Bool) (et a b : Nat) : Nat × Nat :=
  if laneFp et then
    let f := laneFmt et
    moreFlags (f.snans [a, b]) ((laneFmt (widerLane et)).finish ((f.decode a).mul (f.decode b)))
  else wrapLane (widerLane et) (laneInt u et a * laneInt u et b)

/-- VWMUL and VWMULHI: the low or the high half of the source lanes. -/
def widenLanes (bits : Nat) (hi u : Bool) (et a b : Nat) : Nat × Nat :=
  let n := laneCount bits et / 2
  ofLanes (laneBits (widerLane et)) ((List.range n).map fun i =>
    let k := if hi then n + i else i
    laneWiden u et (lane et a k) (lane et b k))

/-- One result lane of VDOT: exact, with one rounding (R271). -/
def dotOne (u : Bool) (et : Nat) (xs : List (Nat × Nat)) (d : Nat) : Nat × Nat :=
  let t := dotLane et
  if laneFp et then
    let f := laneFmt et
    let g := laneFmt t
    let ps := xs.map fun p => (f.decode p.1).mul (f.decode p.2)
    let s := sumExact (g.decode d :: ps.map (·.1))
    let st := ps.foldl (fun a p => a ||| p.2) s.2
    moreFlags (f.snans (xs.flatMap fun p => [p.1, p.2]) ||| g.snans [d]) (g.finish (s.1, st))
  else wrapLane t (xs.foldl (fun s p => s + laneInt u et p.1 * laneInt u et p.2) (d : Int))

/-- VDOT. -/
def dotLanes (bits : Nat) (u : Bool) (et a b d : Nat) : Nat × Nat :=
  let t := dotLane et
  let g := dotGroup et
  ofLanes (laneBits t) ((List.range (laneCount bits t)).map fun j =>
    dotOne u et ((List.range g).map fun i => (lane et a (g * j + i), lane et b (g * j + i))) (lane t d j))

/-- One level of the tree of R169 over as many lanes as a power of two. -/
def sumPairs (et : Nat) : List (Nat × Nat) → List (Nat × Nat)
  | a :: b :: xs => moreFlags (a.2 ||| b.2) (laneAdd false et a.1 b.1) :: sumPairs et xs
  | xs => xs

/-- The tree, level by level; `k` bounds the levels. -/
def sumTree (et : Nat) : Nat → List (Nat × Nat) → Nat × Nat
  | 0, xs => xs.headD (0, 0)
  | k + 1, xs => if xs.length ≤ 1 then xs.headD (0, 0) else sumTree et k (sumPairs et xs)

/-- A sum of one lane: formed and rounded once, so that a NaN becomes the default NaN (R52, R269). -/
def sumOne (et v : Nat) : Nat × Nat :=
  if laneFp et then
    let f := laneFmt et
    moreFlags (f.snans [v]) (f.settle (f.decode v))
  else (v, 0)

/-- VRSUM: the sum of all lanes in lane 0, zero in the others (R268, R269). -/
def sumLanes (bits et a : Nat) : Nat × Nat :=
  if laneCount bits et = 1 then sumOne et (lane et a 0)
  else sumTree et 8 ((List.range (laneCount bits et)).map fun i => (lane et a i, 0))

end Sys2Proof.Machine
end

