-- ==== Sys2Proof/Machine/Float.lean ====
section
/-! DEFINITION. The F and D instructions of the general cores (R253 to R255, R263): decoded from their words, computed on
register values. The instruction set is that of the RISC-V specification, ratified 2019, which R253 names. -/

namespace Sys2Proof.Machine

/-- The single-precision value in a register: the default NaN where it is not NaN-boxed. -/
def unbox (v : Nat) : Nat := if field v 32 32 = 0xFFFFFFFF then field v 0 32 else fp32.nanBits

/-- A single-precision value NaN-boxed. -/
def box (v : Nat) : Nat := 0xFFFFFFFF00000000 + v % 2 ^ 32

/-- A result of precision `d` as register bits. -/
def boxAs (d : Bool) (v : Nat) : Nat := if d then v else box v

/-- An operand of precision `d` from register bits. -/
def operandAs (d : Bool) (v : Nat) : Nat := if d then field v 0 64 else unbox v

/-- What an F or D instruction writes: an integer or a floating-point register, and the flags that it raises. -/
structure FpResult where
  toX : Bool
  rd : Nat
  value : Nat
  flags : Nat
  deriving DecidableEq, Repr

/-- Minimum and maximum of the F and D instructions: a number wins over a NaN. -/
def fpMinmax (big : Bool) (f : Ieee) (a b : Nat) : Nat × Nat :=
  let x := f.decode a
  let y := f.decode b
  let r := if x.isNan && y.isNan then f.nanBits else if x.isNan then b else if y.isNan then a
    else if big then (if x.below y then b else a) else (if y.below x then b else a)
  (r, f.snans [a, b])

/-- The compares by `rm`: 0 less or equal, 1 less, 2 equal. -/
def fpCompare (rm : Nat) (f : Ieee) (a b : Nat) : Nat × Nat :=
  let c := (f.decode a).cmp (f.decode b)
  let holds := (c = some .eq && rm ≠ 1) || (c = some .lt && rm ≠ 2)
  (ofBool holds, if rm = 2 then f.snans [a, b] else ofBool (c = none) * fxInvalid)

/-- The class of a value, one bit of ten. -/
def fpClass (f : Ieee) (v : Nat) : Nat :=
  let s := bit v (f.width - 1)
  let k := field v f.fracBits f.expBits
  let m := field v 0 f.fracBits
  if k = 2 ^ f.expBits - 1 then
    (if m = 0 then (if s then 1 else 128) else if bit v (f.fracBits - 1) then 512 else 256)
  else if k = 0 then (if m = 0 then (if s then 8 else 16) else if s then 4 else 32)
  else if s then 2 else 64

/-- A conversion to an integer of code 0 W, 1 WU, 2 L, 3 LU: a NaN gives the largest integer; words are sign-extended. -/
def fpToInt (code : Nat) (x : Num) : Nat × Nat :=
  let n := if code < 2 then 32 else 64
  let u := code % 2 = 1
  let r := if x.isNan then ((if u then 2 ^ n - 1 else 2 ^ (n - 1) - 1), fxInvalid) else toInteger u n x
  (unsigned 64 (signed n r.1), r.2)

/-- The integer of code 0 W, 1 WU, 2 L, 3 LU in a register. -/
def intSource (code v : Nat) : Int :=
  if code = 0 then signed 32 v else if code = 1 then (field v 0 32 : Int) else if code = 2 then signed 64 v else (field v 0 64 : Int)

/-- A static rounding mode under which an instruction executes (R254). -/
def rmOk (rm : Nat) : Bool := rm = 0 || rm = 7

/-- An instruction of the OP-FP major opcode; none for one that is illegal. -/
def opFp (w : Nat) (x f : Nat → Nat) : Option FpResult :=
  let rd := field w 7 5
  let rm := field w 12 3
  let rs1 := field w 15 5
  let rs2 := field w 20 5
  let fmt := field w 25 2
  let d := fmt = 1
  let p := if d then fp64 else fp32
  let a := operandAs d (f rs1)
  let b := operandAs d (f rs2)
  let va := p.decode a
  let vb := p.decode b
  let fp (r : Nat × Nat) : Option FpResult := some ⟨false, rd, boxAs d r.1, r.2⟩
  let int (r : Nat × Nat) : Option FpResult := some ⟨true, rd, r.1, r.2⟩
  let sn := p.snans [a, b]
  let top := p.width - 1
  let sign (s : Bool) : Nat := field a 0 top + ofBool s * 2 ^ top
  if 2 ≤ fmt then none
  else
    match field w 27 5 with
    | 0x00 => if rmOk rm then fp (moreFlags sn (p.finish (sumExact [va, vb]))) else none
    | 0x01 => if rmOk rm then fp (moreFlags sn (p.finish (sumExact [va, vb.negate]))) else none
    | 0x02 => if rmOk rm then fp (moreFlags sn (p.finish (va.mul vb))) else none
    | 0x03 => if rmOk rm then fp (moreFlags sn (p.finish (va.div vb))) else none
    | 0x0B => if rmOk rm ∧ rs2 = 0 then fp (moreFlags (p.snans [a]) (p.finish va.sqrt)) else none
    | 0x04 =>
      if rm = 0 then fp (sign (bit b top), 0)
      else if rm = 1 then fp (sign (!bit b top), 0)
      else if rm = 2 then fp (sign (bit a top != bit b top), 0)
      else none
    | 0x05 => if rm ≤ 1 then fp (fpMinmax (rm = 1) p a b) else none
    | 0x14 => if rm ≤ 2 then int (fpCompare rm p a b) else none
    | 0x08 =>
      let q := if d then fp32 else fp64
      let c := operandAs (!d) (f rs1)
      if rmOk rm ∧ rs2 = (if d then 0 else 1) then fp (moreFlags (q.snans [c]) (p.settle (q.decode c))) else none
    | 0x18 => if rmOk rm ∧ rs2 < 4 then int (fpToInt rs2 va) else none
    | 0x1A => if rmOk rm ∧ rs2 < 4 then fp (p.settle (.ofInt (intSource rs2 (x rs1)))) else none
    | 0x1C =>
      if rs2 ≠ 0 then none
      else if rm = 0 then int (if d then field (f rs1) 0 64 else unsigned 64 (signed 32 (f rs1)), 0)
      else if rm = 1 then int (fpClass p a, 0)
      else none
    | 0x1E => if rs2 = 0 ∧ rm = 0 then fp (field (x rs1) 0 p.width, 0) else none
    | _ => none

/-- A fused multiply-add: FMADD, FMSUB, FNMSUB, FNMADD by bits [3:2] of the opcode. -/
def fpFused (w : Nat) (f : Nat → Nat) : Option FpResult :=
  let fmt := field w 25 2
  let d := fmt = 1
  let p := if d then fp64 else fp32
  let a := operandAs d (f (field w 15 5))
  let b := operandAs d (f (field w 20 5))
  let c := operandAs d (f (field w 27 5))
  let k := field w 2 2
  let x := if 2 ≤ k then (p.decode a).negate else p.decode a
  let z := if k = 1 ∨ k = 3 then (p.decode c).negate else p.decode c
  if 2 ≤ fmt || !rmOk (field w 12 3) then none
  else
    let r := moreFlags (p.snans [a, b, c]) (fusedMulAdd p x (p.decode b) z)
    some ⟨false, field w 7 5, boxAs d r.1, r.2⟩

/-- The result of an F or D instruction that computes on registers; none for an illegal one. -/
def fpInstr (w : Nat) (x f : Nat → Nat) : Option FpResult :=
  let opc := field w 0 7
  if opc = 0x53 then opFp w x f
  else if opc = 0x43 ∨ opc = 0x47 ∨ opc = 0x4B ∨ opc = 0x4F then fpFused w f
  else none

end Sys2Proof.Machine
end

