-- ==== Sys2Proof/Machine/Harts.lean ====
section
/-! DEFINITION. Harts: their cores and turns, traps, translation, where an access goes, and the store buffers
(R243 to R248, R253 to R262, R281 to R287). -/

namespace Sys2Proof.Machine

/-! Cores and turns (R243, R245, R259, R260). -/

/-- Codes of `HART_STATE` (R294). -/
abbrev hsNone : Nat := 0
abbrev hsReady : Nat := 1
abbrev hsParked : Nat := 2
abbrev hsLull : Nat := 3
abbrev hsEnded : Nat := 4
abbrev hsMigrating : Nat := 5

/-- A hart by its logical index. -/
def State.hart (s : State) (h : Nat) : Hart := Store.at Hart.blank s.harts h

/-- A hart takes a new state. -/
def State.setHart (s : State) (h : Nat) (t : Hart) : State := { s with harts := Store.put Hart.blank s.harts h t }

/-- `HART_STATE` of a hart. -/
def State.hartSt (s : State) (h : Nat) : Nat := s.reg .hartState h

/-- The core that a logical hart runs on: die * 96 + core, from `HART_MAP`. -/
def State.coreOf (s : State) (h : Nat) : Nat := s.reg .hartMap h / 32768 * 96 + s.reg .hartMap h / 256 % 128

/-- The thread that a logical hart runs in. -/
def State.threadOf (s : State) (h : Nat) : Nat := s.reg .hartMap h % 16

/-- The physical number of the hart that a logical hart runs on: die * 1,536 + core * 16 + thread (R243). -/
def State.mhartid (s : State) (h : Nat) : Nat := s.coreOf h * 16 + s.threadOf h

/-- Logical harts that have started. -/
def State.startedHarts (s : State) : List Nat :=
  s.regs.filterMap fun e => if e.1.1 = .hartState then some e.1.2 else none

/-- The started harts of a core. -/
def State.hartsOn (s : State) (core : Nat) : List Nat := s.startedHarts.filter fun h => s.coreOf h = core

/-- `UNIT` of a core (R479). -/
def coreUnit (core : Nat) : Nat := core / 96 * 128 + core % 96

/-- The core issues: it is not in its self-test and has not failed, and the node is not FAULTED (R37, R291, R292). -/
def State.coreIssues (s : State) (core : Nat) : Bool :=
  s.reg .coreFailed core = 0 && s.reg .nodeState ≠ 7 && !s.tests.any fun t => t.kind = 9 && t.unit = coreUnit core

/-- A hart can issue when it has its turn. -/
def State.hartReady (s : State) (h : Nat) : Bool := s.hartSt h = hsReady && s.coreIssues (s.coreOf h)

/-- A hart issues now: it is ready and has its core's turn. [Log DEDUCED 106] -/
def State.issues (s : State) (h : Nat) : Bool :=
  s.hartReady h && s.reg .hartTurn (s.coreOf h) = s.threadOf h

/-- The next ready thread after thread `t` of a core, in round-robin order (R260). [Log DEDUCED 106] -/
def State.nextThread (s : State) (core t : Nat) : Option Nat :=
  let hs := (s.hartsOn core).filter s.hartReady
  ((List.range 16).map fun k => (t + 1 + k) % 16).find? fun u => hs.any fun h => s.threadOf h = u

/-- The turn of thread `t` of a core ends (R260). -/
def State.passTurn (s : State) (core t : Nat) : State :=
  match s.nextThread core t with
  | some u => s.setReg .hartTurn core u
  | none => s

/-- A core whose turn is held by a thread that is not ready gives it to the next that is (R260). -/
def State.fixTurn (s : State) (core : Nat) : State :=
  let t := s.reg .hartTurn core
  if (s.hartsOn core).any fun h => s.hartReady h && s.threadOf h = t then s else s.passTurn core t

/-- An access leaves the core: the hart's turn ends and the switch is counted (R257, R259). -/
def State.leave (s : State) (h : Nat) : State :=
  let t := s.hart h
  let s := (s.setHart h { t with switches := t.switches + 1 }).addReg .threadSwitches 0 1
  s.passTurn (s.coreOf h) (s.threadOf h)

/-- A hart parks; `access` says whether an access of its own has left the core (R259, R261, R262). -/
def State.park (s : State) (h : Nat) (access : Bool) (w : Await) : State :=
  let s := (s.setHart h { s.hart h with wait := w }).setReg .hartState h hsParked
  if access then s.leave h else s.passTurn (s.coreOf h) (s.threadOf h)

/-! Traps (R253, R257, R276). -/

/-- A trap into S-mode; `cause` has bit 63 set for an interrupt. [Log PRESUMED 109] -/
def Hart.trap (t : Hart) (cause tval : Nat) : Hart :=
  let base := t.stvec / 4 * 4
  { t with
    sepc := t.pc, scause := cause, stval := tval, spie := t.sie, sie := false, spp := !t.user, user := false
    wait := .none
    pc := if bit cause 63 && t.stvec % 4 = 1 then (base + 4 * (cause % 2 ^ 63)) % 2 ^ 64 else base }

/-- A hart traps. [Log PRESUMED 109] -/
def State.trap (s : State) (h cause tval : Nat) : State := s.setHart h ((s.hart h).trap cause tval)

/-- The hart raises an illegal-instruction exception for a word (R253). -/
def State.illegal (s : State) (h word : Nat) : State :=
  s.trap h 2 (if Config.tvalHoldsInstr then word else 0)

/-- An instruction of `len` bytes retires, with a change of registers. -/
def State.retire (s : State) (h len : Nat) (f : Hart → Hart) : State :=
  let t := f (s.hart h)
  s.setHart h { t with pc := (t.pc + len) % 2 ^ 64, instret := (t.instret + 1) % 2 ^ 64, wait := .none }

/-- The cause of the interrupt that a hart takes now, if any: external, then software, then timer. -/
def Hart.interrupt (t : Hart) : Option Nat :=
  let p := t.ip &&& t.ie
  if !(t.user || t.sie) then none
  else if bit p 9 then some 9
  else if bit p 1 then some 1
  else if bit p 5 then some 5
  else none

/-- A pending and enabled interrupt is taken (R262). -/
def State.takeInterrupt (s : State) (h : Nat) : State :=
  match (s.hart h).interrupt with
  | some c => s.trap h (2 ^ 63 + c) 0
  | none => s

/-- A hart has no access in flight: its stores have drained, and its requests have been answered. -/
def State.hartQuiet (s : State) (h : Nat) : Bool :=
  !s.stores.any (fun e => e.hart = h) && !s.requests.any fun r => match r.agent with
    | .hart k _ => k = h
    | _ => false

/-- A parked hart becomes ready, or stops for Lull once its accesses in flight are complete (R248, R259, R262). -/
def State.wake (s : State) (h : Nat) : State :=
  if s.reg .lullHeld = 1 then
    (if s.hartQuiet h then s.setReg .hartState h hsLull else s.setHart h { s.hart h with wait := .halt })
  else
    let s := (s.setReg .hartState h hsReady).takeInterrupt h
    s.fixTurn (s.coreOf h)

/-- A running hart stops at its instruction boundary, or waits for its accesses in flight first (R248). -/
def State.stopHart (s : State) (h : Nat) : State :=
  if s.hartSt h ≠ hsReady then s
  else if s.hartQuiet h then s.setReg .hartState h hsLull
  else (s.setHart h { s.hart h with wait := .halt }).setReg .hartState h hsParked

/-- The harts of a core go on after its self-test: an interrupt that became pending meanwhile is taken (R262, R292). -/
def State.resumeCore (s : State) (core : Nat) : State :=
  (((s.hartsOn core).filter s.hartReady).foldl (fun (u : State) h => u.takeInterrupt h) s).fixTurn core

/-- Every ready hart stops at its instruction boundary (R248, R492). -/
def State.stopHarts (s : State) : State :=
  let s := s.setReg .lullHeld 0 1
  s.startedHarts.foldl (fun (u : State) h => u.stopHart h) s

/-- The stopped harts go on (R248). -/
def State.releaseHarts (s : State) : State :=
  let s := s.setReg .lullHeld 0 0
  let hs := s.startedHarts.filter fun h => s.hartSt h = hsLull
  let s := hs.foldl (fun (u : State) h => (u.setReg .hartState h hsReady).takeInterrupt h) s
  hs.foldl (fun (u : State) h => u.fixTurn (u.coreOf h)) s

/-- The start record of a logical hart; one that is marked poisoned starts no hart (R246, R301). [Log DESIGN CHOICE 118, 123] -/
def State.startHart (s : State) (h : Nat) (a2 : Option Nat) : State :=
  let a := s.reg .hartStart + 32 * h
  let entry := s.load a 8
  if entry = 0 || s.reg .hartMap h = 0xFFFF || s.poisoned a (a + 32) then s
  else
    let t := s.hart h
    let satp := s.load (a + 0x18) 8
    let mode := field satp 60 4
    let t := ((t.setReg 10 h).setReg 11 (s.load (a + 8) 8)).setReg 2 (s.load (a + 0x10) 8)
    let t := { t with
      pc := entry, user := false, wait := .none
      satp := if mode = 0 ∨ mode = 9 then satp else t.satp }
    let t := match a2 with
      | some v => t.setReg 12 v
      | none => t
    (s.setHart h t).setReg .hartState h hsReady

/-- Every logical hart of the job starts; a restore gives a2 (R246, R513). -/
def State.startHarts (s : State) (a2 : Option Nat) : State :=
  let s := (List.range (s.reg .hartCount)).foldl (fun (u : State) h => u.startHart h a2) s
  (List.range 192).foldl (fun (u : State) c => u.fixTurn c) s

/-! Translation (R242, R253): Sv48 with pages of 4 KiB, 2 MiB and 1 GiB. -/

/-- The cause of a page fault, an access fault and a misaligned access. -/
def pageCause (store : Bool) : Nat := if store then 15 else 13
def accessCause (store : Bool) : Nat := if store then 7 else 5
def alignCause (store : Bool) : Nat := if store then 6 else 4

/-- The page-table walk from a table at a level: address and bits of the leaf entry and its level, or a cause.
[Log PRESUMED 117] -/
def State.walk (s : State) (store : Bool) (va : Nat) : Nat → Nat → Except Nat (Nat × Nat × Nat)
  | 0, _ => .error (pageCause store)
  | n + 1, base =>
    let a := base + 8 * field va (12 + 9 * n) 9
    if !s.reaches a (a + 8) then .error (accessCause store)
    else if s.poisoned a (a + 8) then .error 24
    else
      let e := s.load a 8
      if !bit e 0 || (!bit e 1 && bit e 2) || field e 54 10 ≠ 0 then .error (pageCause store)
      else if bit e 1 || bit e 3 then
        if n = 3 || field e 10 (9 * n) ≠ 0 then .error (pageCause store) else .ok (a, e, n)
      else if bit e 4 || bit e 6 || bit e 7 then .error (pageCause store)
      else s.walk store va n (field e 10 44 * 4096)

/-- The physical address of a virtual one for a hart, with the accessed and dirty bits set, or a cause.
[Log DESIGN CHOICE 204; DEDUCED 236] -/
def State.translate (s : State) (h : Nat) (store : Bool) (va : Nat) : Except Nat (Nat × State) :=
  let t := s.hart h
  if field t.satp 60 4 ≠ 9 then .ok (va, s)
  else if ¬ (field va 47 17 = 0 ∨ field va 47 17 = 2 ^ 17 - 1) then .error (pageCause store)
  else
    match s.walk store va 4 (field t.satp 0 44 * 4096) with
    | .error c => .error c
    | .ok (a, e, n) =>
      let mode := if t.user then bit e 4 else !bit e 4 || t.sum
      let perm := if store then bit e 2 else bit e 1 || (t.mxr && bit e 3)
      let marked := withBit (if store then withBit e 7 else e) 6
      if !(mode && perm) then .error (pageCause store)
      else if marked ≠ e && !Config.setsAccessed then .error (pageCause store)
      else if marked ≠ e && s.inApertures a (a + 8) then .error (accessCause store)
      else
        let s := if marked = e then s else s.write a (leBytes 8 marked)
        .ok (field e (10 + 9 * n) (44 - 9 * n) * 2 ^ (12 + 9 * n) + va % 2 ^ (12 + 9 * n), s)

/-! Where an access goes (R281, R282, R302 to R304). -/

/-- The place of `n` bytes at a physical address, or a cause. [Log DEDUCED 112, 114] -/
def State.locate (s : State) (store : Bool) (p n : Nat) : Except Nat Place :=
  if 0x30000000000 ≤ p ∧ p < 0x30100000000 then
    (if p % n = 0 then .ok (.io p) else .error (alignCause store))
  else if 2 ^ 44 ≤ p ∧ p < 2 ^ 45 then
    let a := (p - 2 ^ 44) / 2 ^ 36
    let o := p % 2 ^ 36
    let e := s.reg .apertureBase + 32 * a
    let lnode := s.load (e + 8) 3 % 2 ^ 20
    if p % n ≠ 0 then .error (alignCause store)
    else if s.reg .apertureCount ≤ a then .error 25
    else if s.poisoned e (e + 32) then .error 24
    else if s.load (e + 0x18) 8 < o + n || s.peerPos lnode = none || 4 ≤ s.load (e + 0x0B) 1 % 8 then .error 25
    else .ok (.far lnode (s.load (e + 0x0B) 1 % 8) (s.load e 8) (s.load (e + 0x10) 8 + o))
  else if (if store then s.storable p (p + n) else s.reaches p (p + n)) then .ok (.node p)
  else .error (accessCause store)

/-- The place of an access of a hart to `n` bytes at a virtual address, or a cause (R253). [Log DESIGN CHOICE 204] -/
def State.access (s : State) (h : Nat) (store : Bool) (va n : Nat) : Except Nat (Place × State) :=
  if 64 < va % 64 + n then .error (alignCause store)
  else
    match s.translate h store va with
    | .error c => .error c
    | .ok (p, s) => (s.locate store p n).map fun x => (x, s)

/-- The hart translates, and a page-table read of the refill leaves the core (R258). -/
def State.refills (s : State) (h : Nat) (refill : Bool) : Bool := refill && field (s.hart h).satp 60 4 = 9

/-- The address of a base register and a 12-bit signed offset. -/
def Hart.address (t : Hart) (rs1 : Nat) (imm : BitVec 12) : Nat := unsigned 64 (t.reg rs1 + imm.toInt)

/-! Store buffers (R242, R258, R261, R284). -/

/-- Entries of a core's store buffer. -/
def State.buffered (s : State) (core : Nat) : List HartStore := s.stores.filter fun e => e.core = core

/-- Stores of a hart to node memory, or to I/O, that have not drained. -/
def State.undrained (s : State) (h : Nat) (io : Bool) : Bool := s.stores.any fun e => e.hart = h && e.io = io

/-- An undrained store of a hart overlaps a range of node memory. -/
def State.overlapsOwn (s : State) (h a n : Nat) : Bool :=
  s.stores.any fun e => e.hart = h && !e.io && decide (e.addr < a + n ∧ a < e.addr + e.bytes.length)

/-- Bytes of memory as an older store of the same hart leaves them. [Log DEDUCED 108] -/
def forwardFrom (a : Nat) (bs : List Byte) (e : HartStore) : List Byte :=
  (bs.zipIdx).map fun x =>
    if e.addr ≤ a + x.2 ∧ a + x.2 < e.addr + e.bytes.length then e.bytes.getD (a + x.2 - e.addr) x.1 else x.1

/-- Bytes of node memory as a hart reads them: its own stores are forwarded, no other hart's (R284). -/
def State.ownBytes (s : State) (h a n : Nat) : List Byte :=
  (s.stores.filter fun e => e.hart = h && !e.io).foldl (forwardFrom a) (s.bytes a n)

/-- A store enters the buffer. [Log DEDUCED 108] -/
def State.buffer (s : State) (h a : Nat) (io : Bool) (bs : List Byte) : State :=
  { s with stores := s.stores ++ [(⟨s.coreOf h, h, a, io, bs⟩ : HartStore)] }

/-- A store of `len` instruction bytes to a place: into the buffer, or posted on the fabric. Its turn ends and the hart
stays ready; with the buffer full it parks (R259, R261, R282, R286). -/
def State.storeAt (s : State) (h len : Nat) (p : Place) (bs : List Byte) : State :=
  let buffered (a : Nat) (io : Bool) : State :=
    if 32 ≤ (s.buffered (s.coreOf h)).length then s.park h false (.room len a io bs)
    else ((s.buffer h a io bs).retire h len id).leave h
  match p with
  | .node a => buffered a false
  | .io a => buffered a true
  | .far lnode cls key offset =>
    let s := s.addReg .remoteAccesses 0 1
    let s := s.request (.hart h 0) ((s.peerPos lnode).getD 0) cls offset key (.write bs false)
    (s.retire h len id).leave h

/-- Requests of a hart that have not been answered. -/
def State.hartWaits (s : State) (h : Nat) : Bool :=
  s.requests.any fun r => match r.agent with
    | .hart k _ => k = h
    | _ => false

/-- The conditions of a SYNC hold (R283). -/
def State.syncHolds (s : State) (h : Nat) (nv ra : Bool) : Bool :=
  !(nv && s.undrained h false) && !(ra && s.hartWaits h)

/-- A SYNC whose conditions hold completes, or raises cause 25 for a remote write that has failed (R283). -/
def State.endSync (s : State) (h : Nat) (ra : Bool) : State :=
  if ra && bit (s.reg .svxrerr h) 31 then s.trap h 25 0 else s.retire h 4 id

/-- A hart that waits for its stores or its acknowledgements goes on when it can (R261, R283, R287). -/
def State.settleHart (s : State) (h : Nat) : State :=
  match (s.hart h).wait with
  | .room len a io bs =>
    if 32 ≤ (s.buffered (s.coreOf h)).length then s
    else ((s.buffer h a io bs).retire h len id).wake h
  | .sync nv ra => if s.syncHolds h nv ra then (s.endSync h ra).wake h else s
  | .fence => if s.undrained h false || s.undrained h true then s else (s.retire h 4 id).wake h
  | .halt => if s.hartQuiet h then (s.setHart h { s.hart h with wait := .none }).wake h else s
  | _ => s

end Sys2Proof.Machine
end

