-- ==== Sys2Proof/Machine/Mover.lean ====
section
/-! DEFINITION. The mover: XFER, gathers and scatters, and the operations that write remote memory (R218, R219, R380 to
R390). -/

namespace Sys2Proof.Machine

/-! XFER (R151, R218). -/

/-- Format of a tensor for a move: the code, with EXT apart. -/
def Desc.moveFmt (d : Desc) : Nat := d.fmt + (if d.part && d.ext then 256 else 0)

/-- Checks of an XFER: 0 or a detail code. -/
def checkXfer (x : Bay) (o : Operands) : Nat :=
  let n := o.a.count x
  if o.a.isNone || o.a.isSlot || o.d.isNone || o.d.isSlot then 2
  else if o.a.isRemote || o.d.isRemote then 0x0D
  else
    match o.a, o.d with
    | .tensor a, .tensor d =>
      if a.moveFmt ≠ d.moveFmt then 8 else if (List.range 4).map a.dim ≠ (List.range 4).map d.dim then 6 else 0
    | .tensor a, _ =>
      if !vecFmt a.moveFmt then 8 else if tileRows a.fmt < ceilDiv n 64 then 7 else 0
    | .tile t, .tensor d => if (x.tile t).fmt ≠ d.moveFmt then 8 else if d.elems ≠ n then 6 else 0
    | _, _ => 0

/-- Bytes that a block move copies: rows, and for a block format `COARSE` and the scale codes; as pairs of a source address
and a destination address with a length. -/
def moveRuns (a d : Desc) : List (Nat × Nat × Nat) :=
  ((List.range a.rows).map fun r => (a.rowAddr r, d.rowAddr r, a.rowBytes)) ++
    (if a.block.isSome then [(a.scale, d.scale, 4), (a.codeAddr 0, d.codeAddr 0, a.blocks)] else [])

/-- The effect of an XFER. -/
def State.planXfer (s : State) (x : Bay) (_f : Flight) (o : Operands) : Effect :=
  match o.a, o.d with
  | .tensor a, .tensor d =>
    s.unpoisoned a.readRanges { writes := (moveRuns a d).map fun r => (r.2.1, s.bytes r.1 r.2.2) }
  | .tensor a, .tile t =>
    let bits := (List.range a.elems).map fun i => s.load (a.elemAddr i) a.size
    s.unpoisoned a.readRanges { tiles := [(t, Tile.ofBits a.fmt bits)] }
  | .tile u, .tensor d =>
    { writes := (List.range d.elems).map fun i => (d.elemAddr i, leBytes d.size (Store.at 0 (x.tile u).data i)) }
  | .tile u, .tile t => { tiles := [(t, x.tile u)] }
  | _, _ => {}

/-- XFER: the oldest started XFER of the bay moves its tensor. -/
def execXfer (b : Fin 256) (s : State) : Res := .next (s.runEntry b.val (fun f => f.op = opXfer) State.planXfer)

/-! Gathers and scatters (R219). -/

/-- The table, the values and the indices of a GATH or SCAT. -/
def gsParts (f : Flight) (o : Operands) : Operand × Operand × Operand :=
  if f.op = opGath then (o.a, o.d, o.b) else (o.d, o.a, o.b)

/-- Checks of a GATH or SCAT: 0 or a detail code. -/
def State.checkGs (s : State) (f : Flight) (o : Operands) : Nat :=
  let p := gsParts f o
  if o.a.isTile || o.b.isTile || o.d.isTile then 7
  else
    match p.1, p.2.1, p.2.2 with
    | .tensor t, .tensor v, .tensor i =>
      if t.block.isSome ∨ t.moveFmt ≠ v.moveFmt ∨ t.part ∨ v.part then 8
      else if v.elems ≠ i.elems then 6
      else if 65536 < v.elems * v.size then 7
      else if v.remote ∨ i.remote then 0x0D
      else if t.remote ∧ (s.peerPos t.lnode).isNone then 0x0D
      else 0
    | _, _, _ => 2

/-- Address of the k-th index: 4 B words in element order. [Log DEDUCED 77] -/
def Desc.indexAddr (i : Desc) (k : Nat) : Nat := i.rowAddr (k / i.dim 0) + k % i.dim 0 * 4

/-- The k-th index of a GATH or SCAT as a table element, or the cause of its fault (R211, R304). [Log DEDUCED 77] -/
def State.gsIndex (s : State) (t i : Desc) (k : Nat) : Except Nat Nat :=
  let a := i.indexAddr k
  let n := s.load a 4
  if s.poisoned a (a + 4) then .error 3
  else if t.elems ≤ n then .error 1
  else if !t.remote && !s.reaches (t.elemAddr n) (t.elemAddr n + t.size) then .error 1
  else .ok n

/-- The k-th index of a SCAT, whose element may be written (R211, R281, R304). -/
def State.gsTarget (s : State) (t i : Desc) (k : Nat) : Except Nat Nat :=
  match s.gsIndex t i k with
  | .ok n => if !t.remote && !s.storable (t.elemAddr n) (t.elemAddr n + t.size) then .error 1 else .ok n
  | .error c => .error c

/-- A gather fault of the lowest faulting element (R211, R219). -/
def gatherFault (k cause : Nat) : Effect := Effect.fault 0x17 (k + cause * 2 ^ 24)

/-- The two highest tile buffers, which a gather stages in, with what draw `k` leaves in them (R155, R219). -/
def gsStaging (k : Nat) : List (Nat × Tile) := [(3, Tile.staged k 3), (2, Tile.staged k 2)]

/-- What became of the k-th element of a gather: its bits, or the cause of its fault; none while no answer has come. -/
def State.gathered (s : State) (f : Flight) (t i : Desc) (k : Nat) : Option (Except Nat Nat) :=
  match s.gsIndex t i k with
  | .error c => some (.error c)
  | .ok n =>
    if t.remote then
      let r := Store.at (2 ^ 80) f.replies k
      if r = 2 ^ 80 then none else if r < 2 ^ 64 then some (.ok r) else some (.error (r - 2 ^ 64))
    else
      let a := t.elemAddr n
      if s.poisoned a (a + t.size) then some (.error 3) else some (.ok (s.load a t.size))

/-- The first element of a list of answers that faulted, with its cause. -/
def firstFault : List (Except Nat Nat) → Nat → Option (Nat × Nat)
  | [], _ => none
  | .error c :: _, k => some (k, c)
  | .ok _ :: rs, k => firstFault rs (k + 1)

/-- The effect of a gather whose elements have all been answered. -/
def gatherEffect (draw : Nat) (v : Desc) (rs : List (Except Nat Nat)) : Effect :=
  match firstFault rs 0 with
  | some (k, c) => if c = 5 then Effect.fault 5 v.lnode else gatherFault k c
  | none =>
    { tiles := gsStaging draw
      writes := (rs.zipIdx).filterMap fun r => match r.1 with
        | .ok w => some (v.elemAddr r.2, leBytes v.size w)
        | .error _ => none }

/-- A gather fault is recorded (R482). -/
def State.noteGather (s : State) (b : Nat) (f : Flight) (e : Effect) : State :=
  if e.result = 0x17 then
    s.logError { code := 0x17, severity := 5, unitKind := 0x0F, unit := b, detail := e.detail, step := f.step, lbay := b }
  else s

/-- A gather ends once every element has an answer. -/
def State.finishGather (s : State) (b : Nat) (f : Flight) : State :=
  match s.operands (s.bay b) f with
  | .ok ⟨.tensor t, .tensor i, .tensor v, _⟩ =>
    let rs := (List.range v.elems).map (s.gathered f t i)
    if rs.any Option.isNone then s
    else
      let e := gatherEffect s.free v (rs.filterMap id)
      let e := if e.result = 5 then Effect.fault 5 t.lnode else e
      ((s.noteGather b f e).perform b f e).draw.2
  | _ => s.perform b f (Effect.fault 0x80 2)

/-- GATH: the oldest started GATH reads every element into staging and then writes D; a remote one asks the table's node
for each element (R219, R380). -/
def execGath (b : Fin 256) (s : State) : Res :=
  match s.ready b.val fun f => f.op = opGath with
  | none => .next s
  | some f =>
    match s.operands (s.bay b.val) f with
    | .ok ⟨.tensor t, .tensor i, .tensor v, _⟩ =>
      match t.remote, s.peerPos t.lnode with
      | true, some q =>
        let s := s.setFlight b.val { f with phase := 1 }
        let s := (List.range v.elems).foldl (fun u k =>
          match u.gsIndex t i k with
          | .ok n => u.request (.bay b.val f.serial k) q (f.param 0 3) (t.elemAddr n) t.key (.read t.size)
          | .error _ => u) s
        .next (s.finishGather b.val { f with phase := 1 })
      | _, _ => .next (s.finishGather b.val f)
    | _ => .next (s.perform b.val f (Effect.fault 0x80 2))

/-- A remote SCAT writes once the target has answered for the key and the bounds of every element, in increasing element order
(R219, R375). [Log DEDUCED 146] -/
def State.finishScatter (s : State) (b : Nat) (f : Flight) : State :=
  match s.operands (s.bay b) f with
  | .ok ⟨.tensor v, .tensor i, .tensor t, _⟩ =>
    let rs := (List.range v.elems).map (s.gathered f t i)
    if rs.any Option.isNone then s
    else
      match firstFault (rs.filterMap id) 0 with
      | some (k, c) =>
        let e := if c = 5 then Effect.fault 5 t.lnode else gatherFault k c
        (s.noteGather b f e).perform b f e
      | none =>
        let e : Effect := s.unpoisoned v.readRanges { tiles := gsStaging s.free }
        if e.result ≠ 0 then s.perform b f e
        else
          let ws := (List.range v.elems).filterMap fun k =>
            (s.gsIndex t i k).toOption.map fun n => (t.elemAddr n, Body.write (s.bytes (v.elemAddr k) v.size) false)
          let s := s.sendOp (.bay b f.serial 0) ((s.peerPos t.lnode).getD 0) (f.param 0 3) t.key ws none none
          (s.perform b f e).draw.2
  | _ => s.perform b f (Effect.fault 0x80 2)

/-- SCAT: every index and the key are checked before anything is written; then the values go out in increasing element order (R219).
A remote one asks the table's node first, with a write of no bytes at the end of each element. [Log DEDUCED 146] -/
def execScat (b : Fin 256) (s : State) : Res :=
  match s.ready b.val fun f => f.op = opScat with
  | none => .next s
  | some f =>
    match s.operands (s.bay b.val) f with
    | .ok ⟨.tensor v, .tensor i, .tensor t, _⟩ =>
      let is := (List.range v.elems).map (s.gsTarget t i)
      match firstFault is 0 with
      | some (k, c) =>
        let e := gatherFault k c
        .next ((s.noteGather b.val f e).perform b.val f e)
      | none =>
        let ns := is.filterMap fun r => r.toOption
        let e : Effect := s.unpoisoned v.readRanges { tiles := gsStaging s.free }
        let ws := (ns.zipIdx).map fun p => (t.elemAddr p.1, s.bytes (v.elemAddr p.2) v.size)
        match t.remote, s.peerPos t.lnode with
        | true, some q =>
          if e.result ≠ 0 then .next (s.perform b.val f e)
          else
            let s := s.setFlight b.val { f with phase := 1 }
            let s := (ns.zipIdx).foldl (fun u p =>
              u.request (.bay b.val f.serial p.2) q (f.param 0 3) (t.elemAddr p.1 + t.size) t.key (.write [] false)) s
            .next (s.finishScatter b.val { f with phase := 1 })
        | _, _ => .next (s.perform b.val f (if e.result ≠ 0 then e else { e with writes := ws })).draw.2
    | _ => .next (s.perform b.val f (Effect.fault 0x80 2))

/-! Writes to remote memory (R380 to R390). -/

/-- Check of a signal handle (R200, R218). -/
def checkSignal (on : Bool) (o : Operand) : Nat :=
  match on, o with
  | false, .none => 0
  | false, _ => 2
  | true, .tensor d => if d.remote then 0 else 0x0D
  | true, .tile _ => 7
  | true, _ => 2

/-- `SIG` of an entry (R218). -/
def Flight.sig (f : Flight) : Bool := if f.op = opRstore then f.param 3 1 = 1 else f.param 11 1 = 1

/-- Checks common to RSTORE, RACC and MCAST: kinds, places and the signal. -/
def checkRemote (f : Flight) (o : Operands) (remoteDst : Bool) : Nat :=
  match o.a, o.d with
  | .tensor a, .tensor d =>
    if a.remote ∨ (remoteDst ∧ !d.remote) then 0x0D else checkSignal f.sig o.x
  | a, d => if a.isTile || d.isTile then 7 else 2

/-- Equal formats and shapes, for a block store. -/
def checkSame (o : Operands) : Nat :=
  match o.a, o.d with
  | .tensor a, .tensor d =>
    if a.moveFmt ≠ d.moveFmt then 8 else if (List.range 4).map a.dim ≠ (List.range 4).map d.dim then 6 else 0
  | _, _ => 2

/-- The first code of a list that is not 0. -/
def firstCode (cs : List Nat) : Nat := (cs.find? fun c => c ≠ 0).getD 0

/-- Checks of an RSTORE (R218, R381). -/
def State.checkRstore (s : State) (f : Flight) (o : Operands) : Nat :=
  let far := match o.d with
    | .tensor d => if (s.peerPos d.lnode).isSome || s.isElsewhere d.lnode then 0 else 0x0D
    | _ => 2
  firstCode [checkRemote f o true, checkSame o, far]

/-- Checks of a RACC (R218, R381). -/
def State.checkRacc (s : State) (f : Flight) (o : Operands) : Nat :=
  let rest := match o.a, o.d with
    | .tensor a, .tensor d =>
      let fn := f.param 0 8
      if !(fn = 0x40 || fn = 0x43 || fn = 0x44) || !(d.fmt = 1 || d.fmt = 2) || d.part || a.part || a.block.isSome then 8
      else if a.elems ≠ d.elems then 6
      else if (s.peerPos d.lnode).isNone then 0x0D
      else 0
    | _, _ => 2
  firstCode [checkRemote f o true, rest]

/-- Members of a multicast set (R390). -/
def State.multicast (s : State) (set : Nat) : List Nat :=
  let a := s.reg .mcastBase + 64 * set
  (List.range (s.load a 1)).map fun k => s.load (a + 4 + 3 * k) 3 % 2 ^ 20

/-- Checks of an MCAST (R390). -/
def State.checkMcast (s : State) (f : Flight) (o : Operands) : Nat :=
  let n := s.load (s.reg .mcastBase + 64 * f.param 0 8) 1
  let set := if n = 0 ∨ 16 < n then 0x0E
    else if (s.multicast (f.param 0 8)).any fun m => (s.peerPos m).isNone then 0x0D
    else 0
  firstCode [checkRemote f o false, checkSame o, set]

/-- Bytes of a block store at the target: offsets within the region and data. -/
def State.storeRuns (s : State) (a d : Desc) : List (Nat × List Byte) :=
  (moveRuns a d).map fun r => (r.2.1, s.bytes r.1 r.2.2)

/-- A block store to a peer, with its signal last (R380, R384). -/
def State.sendBlocks (s : State) (b : Nat) (f : Flight) (q cls key : Nat) (runs : List (Nat × List Byte))
    (sig : Option Desc) : State :=
  s.sendOp (.bay b f.serial 0) q cls key
    ((runs.flatMap fun r => blocksOf (r.2.length + 1) r.1 r.2).map fun w => (w.1, .write w.2 false))
    (sig.map fun d => (d.addr, d.key)) none

/-- The signal of an entry, where it has one. -/
def signalOf (f : Flight) (o : Operands) : Option Desc := if f.sig then o.x.desc? else none

/-- An RSTORE to another group goes as mail in its bay's queue: one message for each run, the notify with the last (R381, R398). A
message that breaks R397, or whose notify word lies in a region of another key, is refused. [Log DEDUCED 145; DESIGN CHOICE 255] -/
def State.mailRuns (s : State) (b serial : Nat) (d : Desc) (cls : Nat) (sig : Option Desc) :
    List (Nat × List Byte) → State
  | [] => s
  | r :: rs =>
    let x := if rs.isEmpty then sig else none
    let m : Mail :=
      { queue := bayQueue b, bay := b, tag := serial, lnode := d.lnode, cls := cls, notify := x.map Desc.addr, order := x.isSome
        key := d.key, offset := r.1, data := r.2, poisoned := false
        refused := x.any (fun w => w.key ≠ d.key) || (s.isOlder d.lnode && (x.isSome || decide (2 ^ 20 < r.2.length)))
        msg := 0, started := false, acked := 0, resends := 0, result := none }
    (s.postMail m).mailRuns b serial d cls sig rs

/-- RSTORE: a local source goes to a remote tensor, over the fabric or by mail, and completes at hand-off (R380, R398). -/
def execRstore (b : Fin 256) (s : State) : Res :=
  match s.ready b.val fun f => f.op = opRstore with
  | none => .next s
  | some f =>
    match s.operands (s.bay b.val) f with
    | .ok o =>
      match o.a, o.d with
      | .tensor a, .tensor d =>
        if s.poisonedAny a.readRanges then .next (s.perform b.val f (Effect.fault 7 0))
        else
          let runs := s.storeRuns a d
          let sig := signalOf f o
          let s := match s.peerPos d.lnode with
            | some q => s.sendBlocks b.val f q (f.param 0 3) d.key runs sig
            | none => s.mailRuns b.val f.serial d (f.param 0 3) sig runs
          .next (s.perform b.val f {})
      | _, _ => .next (s.perform b.val f (Effect.fault 0x80 2))
    | _ => .next (s.perform b.val f (Effect.fault 0x80 2))

/-- The format in which the elements of a RACC travel: FP64, or FP32, to which narrower ones are widened exactly (R380). -/
def raccFmt (fmt : Nat) : Nat := if fmt = 1 then 1 else 2

/-- An element of a RACC as it travels. -/
def raccBits (fmt v : Nat) : Nat := if fmt ≤ 2 then v else ((ieeeOf 2).round false ((ieeeOf fmt).decode v)).1

/-- The elements of a RACC, row by row of its destination, in packets of at most 256 B of elements, and of at most 256 B of
destination within one aligned block (R380). [Log DEDUCED 143] -/
def State.raccPieces (s : State) (a d : Desc) : List (Nat × List Byte) :=
  let n := (ieeeOf (raccFmt a.fmt)).bytes
  (List.range d.rows).flatMap fun r =>
    (blocksBy (256 * d.size / max n d.size) (d.rowBytes + 1) (d.rowAddr r) (List.replicate d.rowBytes 0)).map fun w =>
      let first := r * d.dim 0 + (w.1 - d.rowAddr r) / d.size
      (w.1, (List.range (w.2.length / d.size)).flatMap fun k =>
        leBytes n (raccBits a.fmt (ofLe (s.bytes (a.elemAddr (first + k)) a.size))))

/-- The oldest started RACC of a form goes to its target. -/
def State.runRacc (s : State) (b : Nat) (relaxed : Bool) : State :=
  let rel (f : Flight) : Bool := f.nd && !bit f.rflags 1
  match s.ready b fun f => f.op = opRacc && rel f == relaxed with
  | none => s
  | some f =>
    match s.operands (s.bay b) f with
    | .ok o =>
      match o.a, o.d with
      | .tensor a, .tensor d =>
        match s.peerPos d.lnode with
        | some q =>
          if s.poisonedAny a.readRanges then s.perform b f (Effect.fault 7 0)
          else
            let n := Store.at 0 s.raccIssue b
            let order := if relaxed then none else some (⟨s.reg .raccRound, b, n⟩ : RaccOrder)
            let s := if relaxed then s else { s with raccIssue := Store.put 0 s.raccIssue b (n + 1) }
            let cls := f.param 8 3
            let s := s.sendOp (.bay b f.serial 0) q cls d.key
              ((s.raccPieces a d).map fun w => (w.1, .racc (f.param 0 8) (raccFmt a.fmt) d.fmt w.2 order))
              ((signalOf f o).map fun x => (x.addr, x.key)) order
            s.perform b f {}
        | none => s.perform b f (Effect.fault 0x80 0x0D)
      | _, _ => s.perform b f (Effect.fault 0x80 2)
    | _ => s.perform b f (Effect.fault 0x80 2)

/-- RACC, relaxed: contributions that the target applies as they arrive (R386). -/
def execRaccRelaxed (b : Fin 256) (s : State) : Res := .next (s.runRacc b.val true)

/-- RACC, ordered: contributions that the target stages (R387). -/
def execRaccOrdered (b : Fin 256) (s : State) : Res := .next (s.runRacc b.val false)

/-- MCAST: the template's window at every member of a multicast set, each with its own signal (R384, R390). -/
def execMcast (b : Fin 256) (s : State) : Res :=
  match s.ready b.val fun f => f.op = opMcast with
  | none => .next s
  | some f =>
    match s.operands (s.bay b.val) f with
    | .ok o =>
      match o.a, o.d with
      | .tensor a, .tensor d =>
        if s.poisonedAny a.readRanges then .next (s.perform b.val f (Effect.fault 7 0))
        else
          let runs := s.storeRuns a d
          let qs := (s.multicast (f.param 0 8)).filterMap s.peerPos
          let s := qs.foldl (fun t q => t.sendBlocks b.val f q (f.param 8 3) d.key runs (signalOf f o)) s
          .next (s.perform b.val f {})
      | _, _ => .next (s.perform b.val f (Effect.fault 0x80 2))
    | _ => .next (s.perform b.val f (Effect.fault 0x80 2))

end Sys2Proof.Machine
end

