-- ==== Sys2Proof/Machine/FabricIn.lean ====
section
/-! DEFINITION. The fabric as a target sees it: arriving packets and their checks, atomics and reductions into memory,
ordered rounds, answers, and mail (R364, R370 to R398). -/

namespace Sys2Proof.Machine

/-! Atomics (R289, R380). -/

/-- The new value of an atomic on `n`-bit words. -/
def amoApply (fn : AmoFn) (n old x : Nat) : Nat :=
  match fn with
  | .swap => x
  | .add => (old + x) % 2 ^ n
  | .and => old &&& x
  | .or => old ||| x
  | .xor => old ^^^ x
  | .min => if signed n old ≤ signed n x then old else x
  | .max => if signed n x ≤ signed n old then old else x
  | .minu => min old x
  | .maxu => max old x

/-- An atomic on node memory: the old value, whether it was poisoned, and the state after (R289, R300). -/
def State.amo (s : State) (fn : AmoFn) (size a x : Nat) : Nat × Bool × State :=
  let old := s.load a size
  if s.poisoned a (a + size) then (old, true, s)
  else (old, false, s.write a (leBytes size (amoApply fn (8 * size) old (x % 2 ^ (8 * size)))))

/-- A signal: 1 is added to a flag word (R218). -/
def State.signalAt (s : State) (a : Nat) : State := (s.amo .add 8 a 1).2.2

/-! Reductions into memory (R386). -/

/-- One element of a RACC applied at an address, by one rounding. [Log DEDUCED 143] -/
def State.raccElement (s : State) (fn srcFmt dstFmt a v : Nat) : State :=
  let f := ieeeOf dstFmt
  let old := f.decode (s.load a f.bytes)
  let x := (ieeeOf srcFmt).decode v
  let r := if fn = 0x40 then (sumExact [old, x]).1 else old.minmax (fn = 0x43) x
  s.write a (leBytes f.bytes (f.round false r).1)

/-- The elements of a RACC packet applied from an address. -/
def State.raccApply (s : State) (fn srcFmt dstFmt a : Nat) (data : List Byte) : State :=
  let n := (ieeeOf srcFmt).bytes
  (((pieces n (data.length / n) data).zipIdx).foldl
    (fun t e => t.raccElement fn srcFmt dstFmt (a + e.2 * (ieeeOf dstFmt).bytes) (ofLe e.1)) s)

/-! Checks at the target (R375, R376). -/

/-- The region of a key. [Log DEDUCED 150] -/
def State.region (s : State) (key : Nat) : Option Region := s.regions.find? fun r => r.key = key

/-- Bytes that a request names at its target. -/
def bodySpan : Body → Nat
  | .read n => n
  | .write d _ => d.length
  | .amo _ n _ => n
  | .racc _ sf df d _ => d.length / (ieeeOf sf).bytes * (ieeeOf df).bytes
  | .signal _ _ => 8
  | .mail _ _ _ _ d _ => d.length
  | _ => 0

/-- Permission bit that a request needs (R374). -/
def bodyNeeds : Body → Nat
  | .read _ => 0
  | .write _ _ => 1
  | .mail _ _ _ _ _ _ => 1
  | _ => 2

/-- Steps 3 to 5 of R375: the address, or the cause of KEY_MISMATCH. [Log DEDUCED 146, 236] -/
def State.keyCheck (s : State) (key offset : Nat) (b : Body) : Except Nat Nat :=
  match s.region key with
  | none => .error 2
  | some r =>
    if r.size < offset + bodySpan b then .error 1
    else if !bit r.perm (bodyNeeds b) then .error 2
    else if bodyNeeds b ≠ 0 && s.inApertures (r.base + offset) (r.base + offset + bodySpan b) then .error 2
    else .ok (r.base + offset)

/-- The epoch of a packet is accepted (R376). -/
def State.epochOk (s : State) (h : Header) : Bool :=
  let e := h.epoch.toNat
  (s.reg .jobEpoch ≠ 0 && e = s.reg .jobEpoch) ||
    (h.tclass.val = 5 && s.reg .retiringEpoch ≠ 0 && e = s.reg .retiringEpoch)

/-- `SRC` is what the map holds for the position that the packet came from, 0xF_FFFF for one without a logical node; or, for a forwarded
one, maps to a position whose direct link is unusable (R370). [Log DESIGN CHOICE 252] -/
def State.sourceOk (s : State) (q : Nat) (h : Header) : Bool :=
  if h.fwd then (s.dstPos h.src.val).any s.unusable else s.nodeOf q = h.src.val

/-- A dropped packet counts and is recorded as EPOCH_STALE (R370, R376). -/
def State.dropStale (s : State) (h : Header) : State :=
  (s.addReg .epochStaleCnt 0 1).logError {
    code := 0x0E, severity := 5, lnode := h.src.val, detail := h.src.val }

/-- The answer to a packet. -/
def State.replyOf (s : State) (h : Header) (epoch : Nat) (b : Body) : Packet :=
  ⟨{ h with fwd := false, epoch := BitVec.ofNat 16 epoch, dst := h.src, src := Fin.ofNat 1048576 s.lnode }, b⟩

/-- An answer goes back to the node that the packet came from. -/
def State.replyTo (s : State) (q : Nat) (h : Header) (epoch : Nat) (b : Body) : State :=
  s.emit ((s.dstPos h.src.val).getD q) (s.replyOf h epoch b)

/-- The answer to a request that has had its turn goes back, and is kept for the case that the request comes again (R365). -/
def State.answerBack (s : State) (q : Nat) (h : Header) (epoch : Nat) (b : Body) : State :=
  let p := s.replyOf h epoch b
  { s with answered := p :: s.answered.filter fun x => ¬ (x.h.dst = p.h.dst ∧ x.h.tclass = p.h.tclass ∧ x.h.seq = p.h.seq) }.emit
    ((s.dstPos h.src.val).getD q) p

/-- The answer kept for a request. -/
def State.answerFor (s : State) (h : Header) : Option Packet :=
  s.answered.find? fun x => x.h.dst = h.src && x.h.tclass = h.tclass && x.h.seq = h.seq

/-- A key mismatch is counted and recorded (R375). -/
def State.noteMismatch (s : State) (h : Header) : State :=
  (s.addReg .keyMismatchCnt 0 1).logError { code := 0x0D, severity := 5, lnode := h.src.val, detail := h.src.val }

/-- A request refused for its key (R375). -/
def State.refuseKey (s : State) (q : Nat) (h : Header) (cause : Nat) : State :=
  (s.noteMismatch h).answerBack q h (s.reg .jobEpoch) (.nack 0x0D cause none)

/-! The shard store (R508, R509, R514). -/

/-- Bytes of an entry of the shard directory (R509). -/
def Shard.entry (x : Shard) : List Byte :=
  leBytes 1 x.state ++ leBytes 1 x.index ++ leBytes 2 x.epoch ++ leBytes 4 x.src ++ leBytes 8 x.tstep ++
    leBytes 8 x.gen ++ leBytes 8 x.data.length ++ leBytes 8 x.imageBytes ++ leBytes 8 x.digest ++ leBytes 16 0

/-- `SHARD_DIR` follows the shards held (R509, R531). -/
def State.showShards (s : State) : State :=
  (List.range 32).foldl (fun (u : State) k =>
    u.setReg .shardDir k (((u.shards.find? fun x => x.slot * 16 + x.area = k).map fun x => ofLe x.entry).getD 0)) s

/-- Bytes of one area of the shard store (R508). -/
def State.areaBytes (s : State) : Nat := s.reg .shardStoreBytes / 16

/-- A request of class 5 without a key addresses the shard store: the slot's store, then the area (DESIGN CHOICE of the
offsets). -/
def forStore (h : Header) : Bool := h.tclass.val = 5 && h.key.toNat = 0

/-- Slot, area and offset within the area of an offset into the shard stores. [Log DESIGN CHOICE 168] -/
def State.storePlace (s : State) (off : Nat) : Nat × Nat × Nat :=
  let n := s.reg .shardStoreBytes
  (off / n, off % n / s.areaBytes, off % s.areaBytes)

/-- The shard held in an area. [Log DESIGN CHOICE 168] -/
def State.shardAt (s : State) (slot area : Nat) : Option Shard := s.shards.find? fun x => x.slot = slot && x.area = area

/-- A shard takes its place in its area. -/
def State.putShard (s : State) (x : Shard) : State :=
  { s with
    shards := x :: s.shards.filter fun y => ¬ (y.slot = x.slot ∧ y.area = x.area)
    spareMarks := s.spareMarks.filter fun (m : SpareMark) => m.site ≠ ScrubPlace.shard (Fin.ofNat 2 x.slot) (Fin.ofNat 16 x.area) }.showShards

/-- What a read of a committed snapshot slot gives: bit 43 of the offset names the slots, bit 42 slot B, and the rest is the home
address of region bytes that the slot holds (R47). [Log DESIGN CHOICE 168] -/
def State.slotRead (s : State) (off n : Nat) : Option (List Byte) :=
  let x := if bit off 42 then s.slotB else s.slotA
  let a := off % 2 ^ 42
  if x.committed && x.ranges.any fun r => decide (r.1 ≤ a ∧ a + n ≤ r.2) then
    some ((List.range n).map fun i => Store.at 0 x.cells (a + i))
  else none

/-- A request on the shard store in its turn: reads of a committed shard or slot, and writes of a shard that is arriving (R47, R508,
R514); poisoned data are not taken as a shard's (R301). [Log DESIGN CHOICE 168] -/
def State.serveStore (s : State) (q : Nat) (p : Packet) : State :=
  let h := p.h
  let e := h.epoch.toNat
  let off := h.offset.toNat
  let n := bodySpan p.body
  if bit off 43 then
    if bodyNeeds p.body = 0 then
      match s.slotRead off n with
      | some d => s.answerBack q h e (.readResp d false)
      | none => s.answerBack q h e (.nack 0x0D 1 none)
    else s.refuseKey q h 2
  else if s.areaBytes = 0 || 2 * s.reg .shardStoreBytes < off + n then s.refuseKey q h 1
  else
    let (k, area, i) := s.storePlace off
    match p.body with
    | .read n =>
      match s.shardAt k area with
      | some x =>
        if x.state = 2 ∧ i + n ≤ x.data.length then s.answerBack q h e (.readResp ((x.data.drop i).take n) false)
        else s.answerBack q h e (.nack 0x0D 1 none)
      | none => s.answerBack q h e (.nack 0x0D 1 none)
    | .write _ true => s.answerBack q h e (.nack 7 0 none)
    | .write d false =>
      let old := match s.shardAt k area with
        | some x => if x.state = 1 then x.data else []
        | none => []
      let data := overlay (old ++ List.replicate (i + d.length - old.length) 0) i d
      (s.putShard ⟨k, area, 1, 0, e, h.src.val, 0, 0, 0, 0, data⟩).answerBack q h e .ack
    | _ => s.refuseKey q h 2

/-- Source and class of a packet, as the orders of R382 are kept. -/
def orderKey (h : Header) : Nat := h.src.val * 8 + h.tclass.val

/-- One more packet of a source and class has had its turn since the latest that was refused. -/
def State.noteTurn (s : State) (k : Nat) : State :=
  { s with refusals := s.refusals.map fun e => if e.1 = k then (k, e.2 + 1) else e }

/-- A packet of a source and class has been refused. -/
def State.noteRefusal (s : State) (k : Nat) : State := { s with refusals := (k, 0) :: s.refusals.filter fun e => e.1 ≠ k }

/-- One of the `n` packets before a signal has been refused, so that not every byte of its operation is visible (R384). -/
def State.refusedBefore (s : State) (k n : Nat) : Bool := s.refusals.any fun e => e.1 = k && decide (e.2 ≤ n)

/-- A contribution or a signal enters staging (R389). -/
def State.stageRacc (s : State) (p : Packet) (o : RaccOrder) (a : Nat) : State :=
  { s with staged := s.staged ++ [(⟨p.h.src.val, o, s.staged.length, a, p⟩ : Staged)] }

/-- A request in its turn at the target: checked and served (R375, R383, R384, R386, R389). A signal is not performed where a packet of
its operation has been refused. -/
def State.serve (s : State) (q : Nat) (p : Packet) : State :=
  let h := p.h
  let e := s.reg .jobEpoch
  let k := orderKey h
  let s := s.noteTurn k
  if forStore h then s.serveStore q p
  else
  match s.keyCheck h.key.toNat h.offset.toNat p.body with
  | .error c => (s.noteRefusal k).refuseKey q h c
  | .ok a =>
    match p.body with
    | .read n => s.answerBack q h e (.readResp (s.bytes a n) (s.poisoned a (a + n)))
    | .write d poison =>
      let s := s.write a d
      (if poison then s.poisonSpan a (a + d.length) else s).answerBack q h e .ack
    | .amo fn n x =>
      let r := s.amo fn n a x
      r.2.2.answerBack q h e (.amoResp r.1 r.2.1)
    | .racc fn sf df d none => (s.raccApply fn sf df a d).answerBack q h e .ack
    | .racc _ _ _ _ (some o) => (s.stageRacc p o a).answerBack q h e .ack
    | .signal o n =>
      if s.refusedBefore k n then s.answerBack q h e (.nack 0x0D 2 none)
      else
        match o with
        | none => (s.signalAt a).answerBack q h e .ack
        | some o => (s.stageRacc p o a).answerBack q h e .ack
    | _ => s

/-! Staging of ordered RACC (R389). -/

/-- Bytes of staging that each of the 17 positions has (R389). -/
def stagingShare : Nat := 0x2000000 / 17

/-- A packet finds room in its source's share of the staging (R389). -/
def State.hasRoom (s : State) (p : Packet) : Bool :=
  match p.body with
  | .racc _ _ _ _ (some _) =>
    decide (((s.staged.filter fun x => x.src = p.h.src.val).map fun x => bodyPayload x.p.body).foldl (· + ·) 0 +
      bodyPayload p.body ≤ stagingShare)
  | _ => true

/-- The waiting packet of a source and class whose turn it is. -/
def State.nextEarly (s : State) (k : Nat) : Option (Nat × Packet) :=
  s.early.find? fun e => orderKey e.2.h = k && e.2.h.seq.toNat = Store.at 0 s.seqIn k

/-- Packets that waited for their turn are served in `SEQ` order, as far as staging has room; `n` bounds them (R382, R389). -/
def State.serveEarly (s : State) (k : Nat) : Nat → State
  | 0 => s
  | n + 1 =>
    match s.nextEarly k with
    | none => s
    | some e =>
      if s.hasRoom e.2 then
        let s := { s with
          early := s.early.filter fun x => x ≠ e
          seqIn := Store.put 0 s.seqIn k ((Store.at 0 s.seqIn k + 1) % 65536) }
        (s.serve e.1 e.2).serveEarly k n
      else s

/-- The sources and classes of which packets wait are looked at again. -/
def State.serveWaiting (s : State) : State :=
  (s.early.map fun e => orderKey e.2.h).foldl (fun (t : State) k => t.serveEarly k t.early.length) s

/-! Ordered rounds (R387 to R389). -/

/-- Order of two contributions of a round (R388). -/
def Staged.before (a b : Staged) : Bool :=
  if a.src ≠ b.src then decide (a.src < b.src)
  else if a.order.lbay ≠ b.order.lbay then decide (a.order.lbay < b.order.lbay)
  else if a.order.issue ≠ b.order.issue then decide (a.order.issue < b.order.issue)
  else decide (a.arrival < b.arrival)

/-- Insertion by an order. -/
def insertStaged (x : Staged) : List Staged → List Staged
  | [] => [x]
  | y :: ys => if x.before y then x :: y :: ys else y :: insertStaged x ys

/-- A staged contribution or signal takes effect. -/
def State.applyStaged (s : State) (x : Staged) : State :=
  match x.p.body with
  | .racc fn sf df d _ => s.raccApply fn sf df x.addr d
  | .signal _ _ => s.signalAt x.addr
  | _ => s

/-- What a source has staged for a round takes effect, in canonical order (R388). -/
def State.applySource (s : State) (r src : Nat) : State :=
  let mine := (s.staged.filter fun x => x.order.round = r && x.src = src).foldl (fun l x => insertStaged x l) []
  mine.foldl State.applyStaged { s with staged := s.staged.filter fun x => ¬ (x.order.round = r ∧ x.src = src) }

/-- A packet of a source waits for room in staging. -/
def State.shareFull (s : State) (src : Nat) : Bool :=
  s.early.any fun e => e.2.h.src.val = src && s.nextEarly (orderKey e.2.h) = some e && !s.hasRoom e.2

/-- The sources of a round, lowest first: those that have closed it are applied up to the first that has not, of which what is staged is
applied only where its share is full; with whether all have closed (R388, R389). [Log DESIGN CHOICE 144] -/
def State.applySources (s : State) (r : Nat) : List Nat → Bool × State
  | [] => (true, s)
  | n :: ns =>
    if s.closes.contains (r, n) then (s.applySource r n).applySources r ns
    else (false, if s.shareFull n then s.applySource r n else s)

/-- The rounds are applied as far as they can be, in order; `n` bounds the steps (R388, R389). -/
def State.applyRounds (s : State) : Nat → State
  | 0 => s
  | n + 1 =>
    let r := s.reg .raccDone
    let srcs := (s.peers.map s.nodeOf).foldl (fun l x => insertRising x l) []
    let t := s.applySources r srcs
    if srcs.isEmpty then s
    else if t.1 then
      (({ t.2 with closes := t.2.closes.filter fun c => c.1 ≠ r }.addReg .raccDone 0 1).serveWaiting).applyRounds n
    else
      let u := t.2.serveWaiting
      if u.early.length < t.2.early.length then u.applyRounds n else u

/-- Steps that applying the rounds can take. -/
def State.roundSteps (s : State) : Nat := s.closes.length + s.early.length + 1

/-! Arrival (R364, R370, R375, R376, R382). -/

/-- A forwarding peer sends a packet on, unchanged but for `FWD`; one that has been forwarded goes no further (R364). -/
def State.forward (s : State) (p : Packet) : State :=
  match s.dstPos p.h.dst.val with
  | some q =>
    if !p.h.fwd && linkCarries (s.linkTo q) then
      (s.addReg .fwdBytes 0 (packetBytes p)).sendOn (s.linkOf q) (.packet q q ⟨{ p.h with fwd := true }, p.body⟩)
    else s
  | none => s

/-- The packet is for another position of the group. -/
def State.elsewhere (s : State) (h : Header) : Bool := h.dst.val ≠ s.lnode && (s.dstPos h.dst.val).isSome

/-- A request that a node in FAULTED refuses: all but reads of its shards and slots, while its stacks can be reached (R47). -/
def State.faultedRefuses (s : State) (p : Packet) : Bool :=
  s.isIn stFaulted && (!forStore p.h || bodyNeeds p.body ≠ 0 || s.reg .regulatorsOff = 1 || s.reg .stackRailsIn = 0)

/-- A request arrives from the peer at position `q`: forwarded, refused for its epoch or its source, answered again where it has had its
turn, or served in `SEQ` order (R47, R364, R365, R370, R375, R376, R382). -/
def State.arrive (s : State) (q : Nat) (p : Packet) : State :=
  let h := p.h
  if s.elsewhere h then s.forward p
  else if !s.epochOk h then (s.dropStale h).replyTo q h h.epoch.toNat (.nack 0x0E 0 none)
  else if !s.sourceOk q h then (s.dropStale h).emit q (s.replyOf h h.epoch.toNat (.nack 0x0E 0 none))
  else if h.dst.val ≠ s.lnode then s
  else if s.faultedRefuses p then s.replyTo q h h.epoch.toNat (.nack 0x0D 2 none)
  else
    let k := orderKey h
    let want := Store.at 0 s.seqIn k
    let ahead := (h.seq.toNat + 65536 - want) % 65536
    if ahead = 0 && s.hasRoom p then
      let s := { s with seqIn := Store.put 0 s.seqIn k ((want + 1) % 65536) }
      (s.serve q p).serveEarly k s.early.length
    else if ahead < 32768 then
      if s.early.any fun e => e.2.h = h then s
      else
        let s := { s with early := s.early ++ [(q, p)] }
        if ahead = 0 then s.applyRounds s.roundSteps else s
    else
      match s.answerFor h with
      | some r => s.emit ((s.dstPos h.src.val).getD q) r
      | none => s

/-- A message of control arrives from position `q`: forwarded where it is for another position, dropped where its epoch or source does not
fit, refused in FAULTED; otherwise `f` takes it (R47, R364, R370, R376). -/
def State.takeControl (s : State) (q : Nat) (h : Header) (b : Body) (f : State → State) : State :=
  if s.elsewhere h then s.forward ⟨h, b⟩
  else if !s.epochOk h || !s.sourceOk q h then s.dropStale h
  else if h.dst.val ≠ s.lnode || s.isIn stFaulted then s
  else f s

/-- PKT_READ (R375). -/
def execPktRead (q : Fin 17) (h : Header) (len : Fin 257) (s : State) : Res := .next (s.arrive q.val ⟨h, .read len.val⟩)

/-- PKT_WRITE (R375); a signal is a write's last packet (R384). -/
def execPktWrite (q : Fin 17) (h : Header) (data : List Byte) (poison : Bool) (s : State) : Res :=
  .next (s.arrive q.val ⟨h, .write data poison⟩)

/-- PKT_AMO (R380), or a signal (R384). -/
def execPktAmo (q : Fin 17) (h : Header) (op : Option (AmoFn × Bool × Nat)) (sig : SignalInfo) (s : State) : Res :=
  match op with
  | some (fn, wide, x) => .next (s.arrive q.val ⟨h, .amo fn (if wide then 8 else 4) x⟩)
  | none => .next (s.arrive q.val ⟨h, .signal sig.order sig.count⟩)

/-- PKT_RACC (R386, R388): elements of FP64 or FP32 into FP64 or FP32. -/
def execPktRacc (q : Fin 17) (h : Header) (fn : Fin 3) (srcFmt : Fin 4) (wide : Bool) (data : List Byte)
    (order : Option RaccOrder) (s : State) : Res :=
  let f := if fn.val = 0 then 0x40 else if fn.val = 1 then 0x43 else 0x44
  .next (s.arrive q.val ⟨h, .racc f (srcFmt.val + 1) (if wide then 1 else 2) data order⟩)

/-! Close messages (R387, R388). -/

/-- RACC_CLOSE_MESSAGE: a job member of the group closes a round (R387, R388); a node in FAULTED takes none (R47). -/
def execRaccCloseMessage (q : Fin 17) (h : Header) (round : Nat) (s : State) : Res :=
  .next (s.takeControl q.val h (.close round) fun s =>
    if s.closes.contains (round, h.src.val) then s
    else
      let s := { s with closes := s.closes ++ [(round, h.src.val)] }
      s.applyRounds s.roundSteps)

/-- The request carries an ordered contribution of a round. -/
def Request.inRound (r : Request) (round : Nat) : Bool :=
  match r.p.body with
  | .racc _ _ _ _ (some o) => o.round = round
  | _ => false

/-- RACC_ROUND_END: once every ordered contribution of the oldest ended round has been acknowledged, its close message
goes to every job member of the group (R387). -/
def execRaccRoundEnd (s : State) : Res :=
  match s.roundsEnded with
  | [] => .next s
  | r :: rs =>
    if s.requests.any fun x => x.inRound r then .next s
    else .next (s.peers.foldl (fun t q => t.control q (.close r)) { s with roundsEnded := rs })

/-! Answers (R375, R383, R385). -/

/-- A failure of a hart's posted store (R282). -/
def State.hartFailure (s : State) (h code lnode : Nat) : State :=
  let s := s.addReg .remoteWriteErrors 0 1
  let s := s.logError { code := code, severity := if code = 5 then 2 else 5, lnode := lnode, detail := lnode }
  let v := s.reg .svxrerr h
  s.setReg .svxrerr h (if bit v 31 then withBit v 30 else code + lnode * 256 + 2 ^ 31)

/-- The bits of an answer, or 2^64 plus the cause of a gather fault (R211). -/
def gatherReply (data : List Byte) (poison : Bool) (code cause : Nat) : Nat :=
  if code = 0x0D then 2 ^ 64 + cause
  else if code = 0x0E then 2 ^ 64 + 4
  else if code = 5 then 2 ^ 64 + 5
  else if poison then 2 ^ 64 + 3
  else ofLe data

/-- An answer reaches the agent that waits for it. -/
def State.deliver (s : State) (r : Request) (data : List Byte) (poison : Bool) (code cause : Nat) : State :=
  let n := r.p.h.dst.val
  let posted := match r.p.body with
    | .read _ => false
    | .amo _ _ _ => false
    | .write [] _ => false
    | _ => true
  match r.agent with
  | .hart h tag =>
    if posted then (if code = 0 then s else s.hartFailure h code n).settleHart h
    else
      let s := if code = 5 then s.logError { code := 5, severity := 2, lnode := n, detail := n } else s
      { s with hartReplies := s.hartReplies ++ [(⟨h, tag, data, poison, code, cause⟩ : HartReply)] }
  | .bay b serial k =>
    if posted then (if code = 0 then s else s.postedFailure b code n)
    else
      match (s.bay b).flights.find? fun f => f.serial = serial && !f.executed with
      | none => s
      | some f =>
        let s := if code = 5 then s.logError { code := 5, severity := 2, lnode := n, detail := n, lbay := b } else s
        let f := { f with replies := Store.put (2 ^ 80) f.replies k (gatherReply data poison code cause) }
        let s := s.setFlight b f
        if f.op = opScat then s.finishScatter b f else s.finishGather b f

/-- The request that an answer belongs to: by node, class and sequence number. -/
def State.asked (s : State) (h : Header) : Option Request :=
  s.requests.find? fun r => r.p.h.dst = h.src && r.p.h.tclass = h.tclass && r.p.h.seq = h.seq

/-- An answer arrives. One of another epoch, or of a source that is fenced off, is dropped (R370, R376). -/
def State.answerArrives (s : State) (q : Nat) (h : Header) (b : Body) (data : List Byte) (poison : Bool)
    (code cause : Nat) : State :=
  if s.elsewhere h then s.forward ⟨h, b⟩
  else if !s.epochOk h || !s.sourceOk q h then s.dropStale h
  else if h.dst.val ≠ s.lnode then s
  else
    match s.asked h with
    | none => s
    | some r => { s with requests := s.requests.filter fun x => x ≠ r }.deliver r data poison code cause

/-- PKT_READ_RESP (R383). -/
def execPktReadResp (q : Fin 17) (h : Header) (data : List Byte) (poison : Bool) (s : State) : Res :=
  .next (s.answerArrives q.val h (.readResp data poison) data poison 0 0)

/-- PKT_ACK (R383). -/
def execPktAck (q : Fin 17) (h : Header) (s : State) : Res := .next (s.answerArrives q.val h .ack [] false 0 0)

/-- PKT_AMO_RESP (R380). -/
def execPktAmoResp (q : Fin 17) (h : Header) (old : Dword) (poison : Bool) (s : State) : Res :=
  .next (s.answerArrives q.val h (.amoResp old.toNat poison) (leBytes 8 old.toNat) poison 0 0)

/-- REMOTE_TIMEOUT: the oldest unanswered request to a position ends with LINK_LOST (R366, R385). -/
def execRemoteTimeout (q : Fin 17) (s : State) : Res :=
  match s.requests.find? fun r => r.pos = q.val with
  | none => .next s
  | some r => .next ({ s with requests := s.requests.filter fun x => x ≠ r }.deliver r [] false 5 0)

/-! Mail (R392 to R397). -/

/-- A descriptor of mail queue `q` at index `i`, as a message; it is refused where it breaks R393 or R397, and lost where it, its data
or its destination's entry in the job map is marked poisoned (R301); its reserved fields are ignored (R14).
[Log DESIGN CHOICE 218] -/
def State.mailDesc (s : State) (q i : Nat) : Mail :=
  let e := s.reg .mailQueues + 32 * q
  let size := 2 ^ (s.load (e + 0x10) 1 % 32)
  let a := s.load e 8 + 64 * (i % size)
  let src := s.load a 8
  let len := s.load (a + 8) 4
  let lnode := s.load (a + 0x0C) 3
  let flags := s.load (a + 0x0F) 1
  let notify := bit flags 2
  let n := lnode % 2 ^ 20
  let lost := s.poisoned a (a + 64) || s.placeLost n
  let bad := len = 0 || decide (0x10000000 < len) || !s.reaches src (src + len) || decide (s.reg .jobNodes ≤ n) ||
    (s.isOlder n && (decide (0x100000 < len) || notify))
  { queue := q, bay := 0, tag := s.load (a + 0x28) 8, lnode := n, cls := flags % 4,
    notify := if notify then some (s.load (a + 0x20) 8) else none, order := bit flags 3, key := s.load (a + 0x10) 8,
    offset := s.load (a + 0x18) 8, data := if lost || bad then [] else s.bytes src len,
    poisoned := lost || (!bad && s.poisoned src (src + len)), refused := !lost && bad, msg := 0, started := false, acked := 0,
    resends := 0, result := none }

/-- Messages of a queue from index `i`, `n` of them, are posted in order. -/
def State.postQueue (s : State) (q i : Nat) : Nat → State
  | 0 => s
  | n + 1 => (s.postMail (s.mailDesc q i)).postQueue q (i + 1) n

/-- A mail queue's doorbell: the descriptors up to the new tail are posted (R394), unless the queue's entry is marked (R301). -/
def State.ringMail (s : State) (q tail : Nat) : State :=
  let old := s.reg .mailTail q
  let n := (tail + 2 ^ 32 - old) % 2 ^ 32
  let e := s.reg .mailQueues + 32 * q
  if s.reg .mailQueues = 0 || s.poisoned e (e + 32) then s
  else
    let size := 2 ^ (s.load (e + 0x10) 1 % 32)
    (s.setReg .mailTail q tail).postQueue q old (min n size)

/-- MAIL_DOORBELL: a queue's tail index is written, which posts the messages up to it (R392, R395). -/
def execMailDoorbell (q : Fin 64) (tail : Word) (s : State) : Res := .next (s.ringMail q.val tail.toNat)

/-- MAIL_COMPLETE: the oldest message of a queue that has its result leaves it, with a completion record of 32 B for a
software queue, or a report to its bay for a message of an RSTORE (R385, R394, R398). -/
def execMailComplete (q : Fin 320) (s : State) : Res :=
  match s.mails.find? fun m => m.queue = q.val && m.result.isSome with
  | none => .next s
  | some m =>
    let r := m.result.getD 0
    let s := { s with mails := s.mails.erase m }
    if 64 ≤ q.val then
      let s := if r = 0 then s else s.postedFailure m.bay r m.lnode
      .next s.startMails
    else
      let e := s.reg .mailQueues + 32 * q.val
      let size := 2 ^ (s.load (e + 0x10) 1 % 32)
      let n := s.reg .mailDone q.val
      let bytes := if r = 0 then m.data.length else min m.data.length (4096 * m.acked)
      let rec' := leBytes 8 m.tag ++ leBytes 4 r ++ leBytes 4 bytes ++ leBytes 8 s.now ++ leBytes 8 0
      let s := if s.poisoned e (e + 32) then s else s.jobWrite (s.load (e + 8) 8 + 32 * (n % size)) rec'
      .next ((s.addReg .mailDone q.val 1).startMails)

/-! Mail at its destination (R375, R394, R396). -/

/-- An answer to a packet of mail goes back by the paths of R372; without one the source sends again (R396). -/
def State.answerMail (s : State) (h : Header) (b : Body) : State := (s.routeMail (s.replyOf h h.epoch.toNat b)).getD s

/-- What is kept of a source's message takes its new state. -/
def State.setMailIn (s : State) (m : MailIn) : State :=
  { s with mailIn := (s.mailIn.filter fun x => x.src ≠ m.src) ++ [m] }

/-- The cumulative acknowledgement of a pair: every message before this one has ended, and of it the packets before the first that is
missing have come (R396). [Log DESIGN CHOICE 254] -/
def MailIn.ack (m : MailIn) (total : Nat) : Body :=
  .mailAck m.msg (if m.done then total else ((List.range total).takeWhile fun k => m.pkts.contains k).length) m.done 0

/-- A packet of the message that a pair has reached: its key is checked, its data written once, and with the last packet its notify is
done; a failed message is refused packet by packet (R375, R394, R396). -/
def State.mailPacket (s : State) (p : Packet) (m : MailIn) (pkt total : Nat) (kind : MailKind) (data : List Byte) : State :=
  let h := p.h
  let refuse (t : State) (m : MailIn) : State := t.answerMail h (.nack m.code m.cause (some (m.msg, pkt, 0)))
  let fail (t : State) (c : Nat) : State :=
    let m := { m with code := 0x0D, cause := c }
    refuse ((t.noteMismatch h).setMailIn m) m
  if m.code ≠ 0 then refuse s m
  else if m.done || m.pkts.contains pkt then s.answerMail h (m.ack total)
  else
    match s.keyCheck h.key.toNat h.offset.toNat p.body with
    | .error c => fail s c
    | .ok a =>
      let s := s.write a data
      let m := { m with pkts := insertRising pkt m.pkts }
      let whole := decide (m.pkts.length = total)
      let m := { m with done := whole }
      match kind, whole with
      | .notify n, true =>
        match s.keyCheck h.key.toNat n (.write (List.replicate 8 0) false) with
        | .ok w => ((s.signalAt w).setMailIn m).answerMail h (m.ack total)
        | .error c => fail s c
      | _, _ => (s.setMailIn m).answerMail h (m.ack total)

/-- A packet of mail at its destination, which checks its epoch, and in FAULTED refuses it (R47, R375, R376). A pair sends one message at a
time, so that a packet of a later one shows that the earlier have ended; a packet of an earlier one is a duplicate (R396).
[Log DESIGN CHOICE 254] -/
def State.deliverMail (s : State) (p : Packet) (msg pkt total : Nat) (kind : MailKind) (data : List Byte) : State :=
  let h := p.h
  if !s.epochOk h then (s.dropStale h).answerMail h (.nack 0x0E 0 (some (msg, pkt, 0)))
  else if s.isIn stFaulted then s.answerMail h (.nack 0x0D 2 (some (msg, pkt, 0)))
  else
    let fresh : MailIn := ⟨h.src.val, msg, [], false, 0, 0⟩
    match s.mailIn.find? fun x => x.src = h.src.val with
    | none => s.mailPacket p fresh pkt total kind data
    | some m =>
      if msg = m.msg then s.mailPacket p m pkt total kind data
      else if (msg + 65536 - m.msg) % 65536 < 32768 then s.mailPacket p fresh pkt total kind data
      else s.answerMail h (m.ack total)

/-! Mail in transit (R373). -/

/-- The packet crosses one more link. -/
def packetHop (p : Packet) : Packet :=
  match p.body with
  | .mail m k t n d hops => ⟨p.h, .mail m k t n d (hops + 1)⟩
  | .mailAck m k done hops => ⟨p.h, .mailAck m k done (hops + 1)⟩
  | .nack c x (some (m, k, hops)) => ⟨p.h, .nack c x (some (m, k, hops + 1))⟩
  | _ => p

/-- Links that a packet of mail has crossed. -/
def packetHops (p : Packet) : Nat :=
  match p.body with
  | .mail _ _ _ _ _ h => h
  | .mailAck _ _ _ h => h
  | .nack _ _ (some (_, _, h)) => h
  | _ => 0

/-- A packet of mail for another node is forwarded as a detour between two positions of the group, or routed on; it is dropped after too
many links, and held for 100 µs where it cannot go. A node in FAULTED only forwards detours (R47, R364, R373). -/
def State.carry (s : State) (detour : Bool) (p : Packet) : State :=
  if s.reg .mailHopLimit ≤ packetHops p then s.addReg .mailDrops 0 1
  else if detour && (s.posOf p.h.dst.val).isSome then s.forward p
  else if s.isIn stFaulted then s
  else
    match s.routeMail p with
    | some t => t.addReg .fwdBytes 0 (packetBytes p)
    | none => { s with transit := s.transit ++ [p] }

/-- The packet has come from a position of the group. -/
def fromPosition : MailPort → Bool
  | .position _ => true
  | .between _ => false

/-- The packet is for this node. -/
def State.isMine (s : State) (h : Header) : Bool := h.dst.val = s.lnode && s.lnode ≠ 0xFFFFF

/-- PKT_MAIL: delivered at its destination; elsewhere carried on (R364, R370, R373). -/
def execPktMail (via : MailPort) (h : Header) (msg pkt : Half) (total : Nat) (kind : MailKind) (data : List Byte) (hops : Nat)
    (s : State) : Res :=
  let p : Packet := packetHop ⟨h, .mail msg.toNat pkt.toNat total kind data hops⟩
  .next (if s.isMine h then s.deliverMail p msg.toNat pkt.toNat total kind data else s.carry (fromPosition via) p)

/-- MAIL_TRANSIT_TIMEOUT: the oldest transit packet that waits leaves if it now can, and is dropped otherwise, as in FAULTED (R373). -/
def execMailTransitTimeout (s : State) : Res :=
  match s.transit with
  | [] => .next s
  | p :: ps =>
    let s := { s with transit := ps }
    if s.isIn stFaulted then .next (s.addReg .mailDrops 0 1)
    else
      match s.routeMail p with
      | some t => .next (t.addReg .fwdBytes 0 (packetBytes p))
      | none => .next (s.addReg .mailDrops 0 1)

/-! Mail at its source (R394, R396). -/

/-- The message of a pair that is under way. -/
def State.mailOut (s : State) (lnode msg : Nat) : Option Mail :=
  s.mails.find? fun m => m.lnode = lnode && m.msg = msg && m.started && m.result.isNone

/-- PKT_MAIL_ACK: packets of a message are acknowledged, or all of it with its notify (R394, R396). One for another node is carried on:
between two nodes of the group it is a detour (R364, R373). -/
def execPktMailAck (h : Header) (msg pkt : Half) (done : Bool) (hops : Nat) (s : State) : Res :=
  if !s.isMine h then
    .next (s.carry (s.posOf h.src.val).isSome (packetHop ⟨h, .mailAck msg.toNat pkt.toNat done hops⟩))
  else if !s.epochOk h then .next (s.dropStale h)
  else
    match s.mailOut h.src.val msg.toNat with
    | none => .next s
    | some m =>
      .next ((s.setMail m { m with acked := max m.acked pkt.toNat, result := if done then some 0 else none }).startMails)

/-- A message under way is refused at its destination (R375, R394). -/
def State.mailRefused (s : State) (h : Header) (msg code : Nat) : State :=
  if !s.epochOk h then s.dropStale h
  else
    match s.mailOut h.src.val msg with
    | none => s
    | some m => (s.setMail m { m with result := some code }).startMails

/-- PKT_NACK: a request, or with its message and packet a packet of mail, is refused (R375, R376). One of mail that came over a
between-group link is given with this node's own position. -/
def execPktNack (q : Fin 17) (h : Header) (stale : Bool) (x : NackInfo) (s : State) : Res :=
  let code := if stale then 0x0E else 0x0D
  match x.mail with
  | none => .next (s.answerArrives q.val h (.nack code x.cause.val none) [] false code x.cause.val)
  | some (msg, pkt, hops) =>
    if s.isMine h then .next (s.mailRefused h msg.toNat code)
    else .next (s.carry (q.val ≠ s.pos) (packetHop ⟨h, .nack code x.cause.val (some (msg.toNat, pkt.toNat, hops))⟩))

/-- MAIL_RETRANSMIT_TIMEOUT: the packets of the message under way to a node that have not been acknowledged are sent again,
three times at most; then the message ends with LINK_LOST (R396). -/
def execMailRetransmitTimeout (lnode : Fin 1048576) (s : State) : Res :=
  match s.mails.find? fun m => m.lnode = lnode.val && m.started && m.result.isNone with
  | none => .next s
  | some m =>
    if m.resends < 3 then
      let new := { m with resends := m.resends + 1 }
      let n := (s.mailPackets m).length - m.acked
      .next (((s.setMail m new).addReg .mailRetrans 0 n).pushMail new m.acked)
    else
      let s := s.logError { code := 5, severity := 2, lnode := lnode.val }
      .next ((s.setMail m { m with result := some 5 }).startMails)

end Sys2Proof.Machine
end

