-- ==== Sys2Proof/Machine/Links.lean ====
section
/-! DEFINITION. Links: training and the wiring check, lanes and their tests, flits, loss, and the link commands
(R350 to R363, R404, R488). -/

namespace Sys2Proof.Machine

/-- `UNIT` of a lane of a link (R479). -/
def laneUnit (l lane : Nat) : Nat := l * 16 + lane

/-- A link takes a state: `LINKS_UP`, the links that have been UP, DEGRADE_CAUSE[3] while any link is LOST, what waits for it, and the
detours and messages that follow (R358, R361 to R363). A link that stops carrying packets counts its flits anew. -/
def State.setLink (s : State) (l v : Nat) : State :=
  if s.reg .linkState l = v then s
  else
    let t := s.change .linkState l v
    let t := t.setFlag .linksUp 0 l (v = linkUp)
    let t := if v = linkUp then t.setFlag .linkWasUp 0 l true else t
    let t := if v = linkAbsent then t else t.setFlag .linkQuiet 0 l false
    let t := if v = linkAbsent ∨ v = linkTraining ∨ v = linkDisabled then t.change .linkGen l 0 else t
    let t :=
      if v = linkLost then t.degrade 3
      else if (List.range 24).any fun k => t.reg .linkState k = linkLost then t
      else t.lower .degradeCause 3
    let t := if linkCarries v then t else (t.dropLink l).setReg .flitSeq l 0
    (if v = linkUp then t.pumpLink l else t).linksChanged s

/-- A link is lost (R362): LINK_LOST, with what its paused lane test left. [Log DEDUCED 138] -/
def State.loseLink (s : State) (l : Nat) : State :=
  let s := (s.tests.filter fun t => t.kind = 7 && t.unit / 16 = l).foldl (fun (u : State) t => u.endTest t 6) s
  (s.logError { code := 5, severity := 2, outcome := 6, unitKind := 6, unit := l }).setLink l linkLost

/-- The node's link lanes are driven: INIT stage 5 and after, outside SERVICE and reset (R48). -/
def State.lanesOn (s : State) : Bool :=
  s.powered && s.reg .inReset = 0 && decide (5 ≤ s.reg .stageStarted + 1) && !s.isIn stService

/-- The far end satisfies the wiring rules of a link (R354, R357). -/
def State.wiredRight (s : State) (l : Nat) (far : FarEnd) : Bool :=
  let same := far.physId.toNat / 32 % 2 ^ 18 = s.reg .physId / 32 % 2 ^ 18
  match linkSlot l with
  | some j => same && far.is9200 && far.physId.toNat % 32 = (s.pos + j + 1) % 17 && far.slot.val = 15 - j
  | none => !same

/-- LINK_TRAINING_START: an ABSENT link begins to train (R356). -/
def execLinkTrainingStart (l : Fin 24) (s : State) : Res :=
  if s.lanesOn && s.reg .linkState l = linkAbsent then .next (s.setLink l linkTraining) else .next s

/-- LINK_UP: training is complete; a wrongly wired link is MISWIRED, another UP, at WL3 where both ends are WQN-9200
packages that allow it (R356, R357). -/
def execLinkUp (l : Fin 24) (far : FarEnd) (s : State) : Res :=
  if s.reg .linkState l ≠ linkTraining then .next s
  else
    let s := s.setReg .linkPeer l far.physId.toNat
    if s.wiredRight l far then
      let gen := if far.is9200 && far.genMax.val = 3 && s.reg .linkGenMax l = 3 then 3 else 2
      .next ((s.setLink l linkUp).change .linkGen l gen)
    else .next ((s.setLink l linkMiswired).raise .alertCause 3)

/-- LINK_DETECT_RETRY: an ABSENT link looks for its far end, and trains when it finds a signal (R356, R358). -/
def execLinkDetectRetry (l : Fin 24) (signal : Bool) (s : State) : Res :=
  if signal && s.lanesOn && s.reg .linkState l = linkAbsent then .next (s.setLink l linkTraining) else .next s

/-- LINK_FAR_END_IDLE: a link whose far end goes idle becomes ABSENT, and no fault is raised (R359). -/
def execLinkFarEndIdle (l : Fin 24) (s : State) : Res :=
  let st := s.reg .linkState l
  if st = linkTraining || st = linkUp || st = linkPaused then
    let s := { s with tests := s.tests.filter fun t => ¬ (t.kind = 7 ∧ t.unit / 16 = l) }
    .next (s.setLink l linkAbsent)
  else .next s

/-- LINK_ABSENT_TIMEOUT: the link has been ABSENT for 1 s, so that INIT stage 5 need not wait for it (R359). -/
def execLinkAbsentTimeout (l : Fin 24) (s : State) : Res :=
  if s.reg .linkState l = linkAbsent then .next (s.setFlag .linkQuiet 0 l true) else .next s

/-- LANE_TEST_START: the link pauses and the lane's loopback test starts, with the record that shows the event (R360, R484). A lane
already replaced by the spare is not in use, and neither is the spare, lane 8, until then (R362). [Log DESIGN CHOICE 247] -/
def execLaneTestStart (l : Fin 24) (lane : Fin 9) (s : State) : Res :=
  if s.reg .linkState l = linkUp && s.reg .laneMap l ≠ lane.val && (lane.val ≠ 8 || s.reg .laneMap l ≠ 0xFF) then
    .next ((s.setLink l linkPaused).parityPersistent 7 (laneUnit l lane) 0 0xFFFF 0)
  else .next s

/-- LANE_TEST_COMPLETE: a lane that passes is restored; one that fails gives its place to the spare lane; with the spare
in use, or a test that cannot complete, the link is lost (R360, R362). Spare-ins on a fabric die run one at a time (R490). -/
def execLaneTestComplete (l : Fin 24) (pass completes : Bool) (s : State) : Res :=
  match s.tests.find? fun t => t.kind = 7 && t.unit / 16 = l.val with
  | none => .next s
  | some t =>
    if s.reg .linkState l ≠ linkPaused || (s.runningTest 7 t.unit).isNone then .next s
    else if completes && pass then .next ((s.endTest t 1).setLink l linkUp)
    else if completes && s.reg .laneMap l = 0xFF then
      let s := s.logError {
        code := 4, severity := 2, outcome := 2, unitKind := 7, unit := t.unit, pause := s.now - t.at' }
      let s := (s.change .laneMap l (t.unit % 16)).degrade 6
      .next ((s.endTest t 2).setLink l linkUp)
    else .next (s.loseLink l)

/-- The number of a flit has been passed by an acknowledgement: it wants `want` next. -/
def flitPast (n want : Nat) : Bool := decide ((want + 65536 - n) % 65536 < 32768)

/-- An acknowledgement of a link: packets whose flits have all arrived leave its retry buffer, which makes room for others (R351). -/
def State.ackFlits (s : State) (l want : Nat) : State :=
  { s with retry := s.retry.filter fun e => ¬ (e.link = l ∧ flitPast ((e.seq + e.count) % 65536) want = true) }.pumpLink l

/-- The packets in the retry buffer of a link from a flit onward are sent again (R351). -/
def State.resendFrom (s : State) (l n : Nat) : State :=
  (s.retry.filter fun e => e.link = l && !flitPast ((e.seq + e.count) % 65536) n).foldl (fun (t : State) e => t.send e.out) s

/-- FLIT_RECEIVE: a flit that passes its CRC after FEC is accepted in order and acknowledged; any other is asked for again, with all
after it. The acknowledgement and the resend request that it carries take effect (R351). [Log DESIGN CHOICE 140] -/
def execFlitReceive (l : Fin 24) (f : FlitControl) (crcOk : Bool) (corrected : Nat) (s : State) : Res :=
  if s.reg .linkState l ≠ linkUp then .next s
  else
    let s := s.addReg .fecCorrected l corrected
    let want := s.reg .flitSeq l
    if !crcOk then
      let s := s.logError { code := 3, severity := 0, outcome := 1, unitKind := 6, unit := l }
      .next ((s.addReg .linkRetries l 1).send (.resendFlits l want))
    else
      let s := s.ackFlits l f.ack.toNat
      let s := match f.resend with
        | some n => s.resendFrom l n.toNat
        | none => s
      if f.seq.toNat = want then .next ((s.setReg .flitSeq l ((want + 1) % 65536)).send (.flitAck l ((want + 1) % 65536)))
      else .next s

/-- LINK_ACK_TIMEOUT: no flit has been acknowledged for 10 µs while the far end drives its lanes (R362).
[Log DESIGN CHOICE 140] -/
def execLinkAckTimeout (l : Fin 24) (s : State) : Res :=
  if s.reg .linkState l = linkUp then .next (s.loseLink l) else .next s

/-- What a write of `LINK_CMD` does: 1 and 3 start training anew, 2 switches the link off; it reads 0 (R357, R404). A lost
link leaves that state only for 1 (R362). [Log DEDUCED 137, 214] -/
def linkCommand (l v : Nat) (s : State) : State :=
  let s := s.setReg .linkCmd l 0
  let s := if v = 3 then s else { s with tests := s.tests.filter fun t => ¬ (t.kind = 7 ∧ t.unit / 16 = l) }
  if v = 2 then (if s.reg .linkState l = linkLost then s else s.setLink l linkDisabled)
  else if v = 3 && s.reg .linkState l ≠ linkDisabled then s
  else if s.lanesOn then s.setLink l linkTraining
  else s.setLink l linkAbsent

/-- LINK_CMD_RETRAIN (R404). -/
def execLinkCmdRetrain (q : Requester) (l : Fin 24) (s : State) : Res :=
  .next (s.writeRequest q (Reg.linkCmd.objAt l) [1] fun _ _ => linkCommand l 1)

/-- LINK_CMD_DISABLE (R404). -/
def execLinkCmdDisable (q : Requester) (l : Fin 24) (s : State) : Res :=
  .next (s.writeRequest q (Reg.linkCmd.objAt l) [2] fun _ _ => linkCommand l 2)

/-- LINK_CMD_ENABLE (R404). -/
def execLinkCmdEnable (q : Requester) (l : Fin 24) (s : State) : Res :=
  .next (s.writeRequest q (Reg.linkCmd.objAt l) [3] fun _ _ => linkCommand l 3)

/-- LINK_STATE_MESSAGE: a peer tells the states of its links, and detours are chosen again; a Crosswind pairing ends with the last way
to the partner (R363, R474). -/
def execLinkStateMessage (q : Fin 17) (states : LinkCodes) (s : State) : Res :=
  if q.val = s.pos then .next s
  else
    let t := { s with peerLinks := (List.range 16).foldl (fun m j =>
      Store.put 0 m (q.val * 16 + j) ((states.map Fin.val).getD j 0)) s.peerLinks }
    let t := t.countDetours
    .next (((List.range 17).foldl (fun u p =>
      if p ≠ u.pos && decide (u.hopTo p ≠ s.hopTo p) then u.resendTo p else u) t).retryFar.checkPartner)

/-- FABRIC_PORT_TEST_COMPLETE: a port that fails its test takes its link out of service (R484, R488).
[Log DEDUCED 136] -/
def execFabricPortTestComplete (fd : Fin 4) (port : Fin 6) (pass : Bool) (s : State) : Res :=
  match s.runningTest 0x0A (fd.val * 8 + port.val) with
  | none => .next s
  | some t =>
    if pass then .next (s.endTest t 1) else .next ((s.endTest t 6).loseLink (6 * fd.val + port.val))

end Sys2Proof.Machine
end

