-- ==== Sys2Proof/Machine/Digest.lean ====
section
/-! DEFINITION. The package digest, and DIGEST with its streams and chunk records (R461 to R463, R471). -/

namespace Sys2Proof.Machine

/-- Polynomial 0x42F0_E1EB_A9EA_3693, reflected (R461). -/
def crcPoly : Nat := 0xC96C5795D7870F42

/-- `n` bits of a reflected CRC-64. -/
def crcBits : Nat → Nat → Nat
  | 0, c => c
  | n + 1, c => crcBits n (if c % 2 = 1 then (c / 2) ^^^ crcPoly else c / 2)

/-- The CRC state after more bytes. -/
def crcFold (c : Nat) (bs : List Byte) : Nat := bs.foldl (fun c b => crcBits 8 (c ^^^ b.toNat)) c

/-- Initial value and final exclusive-or (R461). -/
def crcOnes : Nat := 0xFFFFFFFFFFFFFFFF

/-- The digest of R461: CRC-64/XZ. -/
def digest (bs : List Byte) : Nat := crcFold crcOnes bs ^^^ crcOnes

/-- The bytes that DIGEST folds, as runs of memory, in order (R462). -/
def Desc.digestRuns (d : Desc) : List (Nat × Nat) :=
  match d.block with
  | some (e, n) =>
    (d.scale, 4) :: (List.range d.blocks).flatMap fun k => [(d.codeAddr k, 1), (d.blockAddr k, blockBytes e n)]
  | none => (List.range d.rows).map fun r => (d.rowAddr r, d.rowBytes)

/-- The bytes of runs of memory, each with its address. -/
def State.runBytes (s : State) (rs : List (Nat × Nat)) : List (Nat × Byte) :=
  rs.flatMap fun r => (List.range r.2).map fun k => (r.1 + k, s.byte (r.1 + k))

/-- The chunk records of the bytes that one DIGEST folds: each 4 KiB, and what is left (R471). [Log DEDUCED 147] -/
def chunkRecords (stream step : Nat) : Nat → List (Nat × Byte) → List ChunkRecord
  | 0, _ => []
  | n + 1, bs =>
    match bs with
    | [] => []
    | b :: _ =>
      ⟨stream, step, b.1, digest ((bs.take 4096).map Prod.snd), (bs.take 4096).map Prod.fst⟩ :: chunkRecords stream step n (bs.drop 4096)

/-- Bytes of a bay's chunk log for one step (R471). [Log DEDUCED 148] -/
def State.xwShare (s : State) : Nat := s.reg .xwLogBytes / (s.reg .xwLag + 1) / 16

/-- Chunk records join the bay's log while they fit its share of the step (R471), where the job may write (R304). -/
def State.logChunks (s : State) (b : Nat) : List ChunkRecord → State
  | [] => s
  | c :: cs =>
    let x := s.bay b
    let n := x.chunks.length
    if n < s.xwShare then
      let at' := s.reg .xwLog + b * s.reg .xwLogBytes + 16 * (x.lasts % (s.reg .xwLag + 1) * s.xwShare + n)
      let s := s.jobWrite at' (leBytes 8 c.addr ++ leBytes 8 c.digest)
      (s.setBay b { x with chunks := x.chunks ++ [c] }).logChunks b cs
    else s

/-- Checks of a DIGEST (R462). -/
def checkDigest (o : Operands) : Nat :=
  match o.a with
  | .tensor d => if d.remote then 0x0D else 0
  | _ => 2

/-- DIGEST: the oldest started DIGEST of the bay folds its source into a stream (R462, R463, R471). -/
def execDigest (b : Fin 256) (s : State) : Res :=
  match s.ready b.val fun f => f.op = opDigest with
  | none => .next s
  | some f =>
    match s.operands (s.bay b.val) f with
    | .ok o =>
      match o.a with
      | .tensor d =>
        if s.poisonedAny (d.digestRuns.map fun r => (r.1, r.1 + r.2)) then .next (s.perform b.val f (Effect.fault 7 0))
        else
          let bs := s.runBytes d.digestRuns
          let k := f.param 0 3
          let x := s.bay b.val
          let c := ((x.streams.getD k none).getD crcOnes)
          let x := { x with streams := x.streams.set k (some (crcFold c (bs.map Prod.snd))) }
          let s := s.setBay b.val x
          let s := if s.reg .xwLog ≠ 0 && s.reg .xwState = 2 then
              s.logChunks b.val (chunkRecords k f.step bs.length bs) else s
          .next (s.perform b.val f {})
      | _ => .next (s.perform b.val f (Effect.fault 0x80 2))
    | _ => .next (s.perform b.val f (Effect.fault 0x80 2))

end Sys2Proof.Machine
end

