-- ==== Sys2Proof/Machine/Loss.lean ====
section
/-! DEFINITION. Abandonment of a job's work and data-loss failures (R491, R492), and the snapshot slots and shard
directory as the dictionary shows them (R503, R505, R509). -/

namespace Sys2Proof.Machine

/-- Every entry in flight at a bay ends with 0x81, and its table halts (R492). -/
def State.abandonBay (s : State) (b : Nat) : State :=
  let x := s.bay b
  if !x.present || s.tableState b = tsEnded then s
  else
    let fs := x.colls ++ x.flights ++ x.head.toList
    let s := fs.foldl (fun (u : State) f => u.emitRecord b { f with result := 0x81, detail := 0 } false) s
    let x := s.bay b
    (s.setBay b { x with
      colls := [], flights := [], run := none, spec := [], merges := [], known := true, failure := none
      preempt := 0 }).haltTable b none

/-- Every entry in flight at every logical bay is abandoned (R492). -/
def State.abandonAll (s : State) : State :=
  let s := (List.range 256).foldl (fun (u : State) b => u.abandonBay b) s
  { s with colls := [], collHeld := [], mails := s.mails.filter fun m => m.queue < 64 }

/-- A data-loss failure: its record of severity 3, every entry abandoned, every hart held, and the wait for a rollback
(R492). Without a job nothing is lost. [Log DEDUCED 126] -/
def State.dataLoss (s : State) (e : ErrorEvent) : State :=
  let s := s.logError { e with severity := if s.jobLoaded then 3 else 1 }
  if s.reg .jobRunning = 1 then { s.abandonAll.stopHarts with recovery := none }.setRecovery 1 else s

/-! Models (R491). -/

/-- The bytes of the roster region that hold a model: its weights and its descriptors (R131, R132). -/
def State.modelRanges (s : State) (i : Nat) : List (Nat × Nat) :=
  let w := s.roster i 8 8
  let d := s.roster i 0x10 8
  [(w, w + s.modelBytes i), (d, d + 64 * s.roster i 2 2)]

/-- A model that a bay holds bound has its descriptors or weights at an address of the roster region (R491).
[Log DEDUCED 127] -/
def State.boundAt (s : State) (a : Nat) : Bool :=
  (List.range 256).any fun b => (s.bay b).model.any fun i => (s.modelRanges i).any fun r => decide (r.1 ≤ a ∧ a < r.2)

/-- An entry that binds a model, or reads a bound one, meets a marked line of the roster region: from then on the loss of that
line is a data-loss failure (R300, R491). [Log DEDUCED 213] -/
def State.loseModel (s : State) (rs : List (Nat × Nat)) : State :=
  match s.poisonAtoms.find? fun p => decide (64 * p < s.reg .rosterBytes) &&
      rs.any fun r => decide (64 * p < r.2 ∧ r.1 < 64 * p + 64) with
  | none => s
  | some p =>
    s.dataLoss { code := 7, severity := 3, outcome := 6, unitKind := 3, unit := s.channelOf (64 * p), addr := 64 * p }

/-! Slots and shards. -/

/-- Snapshot slot 0 (A) or 1 (B). -/
def State.slot (s : State) (k : Nat) : Slot := if k = 0 then s.slotA else s.slotB

/-- The digest of the 64 B of `MAPOUT_ORDER` (R503). -/
def State.mapDigest (s : State) : Nat := digest (s.regBytes .mapoutOrder 0)

/-- The digest of a slot's stack digests, its step and its generation (R504). -/
def Slot.formDigest (x : Slot) : Nat :=
  Machine.digest (((List.range 32).flatMap fun k => leBytes 8 ((x.parts.lookup k).getD 0)) ++
    leBytes 8 x.image.tstep ++ leBytes 8 x.image.gen)

/-- The header of a stack for a slot (R503). -/
def Slot.header (x : Slot) (k stack : Nat) : List Byte :=
  let st := if x.state = 0 then 0 else if (x.parts.lookup stack).isSome then 2 else 1
  leBytes 1 st ++ leBytes 1 k ++ leBytes 2 x.image.epoch ++ leBytes 2 x.channelsOut ++ leBytes 2 0 ++
    leBytes 8 x.image.tstep ++ leBytes 8 x.instant ++ leBytes 8 x.image.gen ++ leBytes 8 x.imageBytes ++
    leBytes 8 ((x.parts.lookup stack).getD 0) ++ leBytes 8 x.mapDigest ++ leBytes 8 0 ++
    (if x.committed then leBytes 8 x.image.tstep ++ leBytes 8 x.image.gen ++ leBytes 8 x.digest ++ leBytes 1 0xA5
      else leBytes 25 0) ++ leBytes 39 0

/-- A slot can be restored locally (R505). -/
def State.restorable (s : State) (x : Slot) : Bool :=
  x.committed && x.channelsOut = s.reg .channelsOut && x.mapDigest = s.mapDigest

/-- `SLOT_INFO`, `SLOT_VALID` and `SLOT_DRAINED` follow the slots (R505, R510, R531). -/
def State.showSlots (s : State) : State :=
  let v := ofBool s.slotA.committed + 2 * ofBool s.slotB.committed + 4 * ofBool (s.restorable s.slotA) +
    8 * ofBool (s.restorable s.slotB)
  let info (k : Nat) : Nat := if (s.slot k).state = 0 then 0 else ofLe ((s.slot k).header k 0)
  let d := s.reg .slotDrained
  let d := if s.slotA.committed then d else withoutBit d 0
  let d := if s.slotB.committed then d else withoutBit d 1
  (((s.change .slotValid 0 v).change .slotDrained 0 d).setReg .slotInfo 0 (info 0)).setReg .slotInfo 1 (info 1)

/-- A slot takes a new state. -/
def State.setSlot (s : State) (k : Nat) (x : Slot) : State :=
  (if k = 0 then { s with slotA := x } else { s with slotB := x }).showSlots

/-- A slot, a shard or a restore fails its checks, with a cause (R482). [Log DESIGN CHOICE 181] -/
def State.snapshotInvalid (s : State) (unitKind unit cause : Nat) : State :=
  s.logError { code := 0x14, severity := 1, outcome := 6, unitKind := unitKind, unit := unit, detail := cause }

/-- A copy that runs stops and its slot becomes invalid; with a cause it is recorded (R505, R513). [Log DEDUCED 180] -/
def State.stopCopy (s : State) (cause : Option Nat) : State :=
  [0, 1].foldl (fun (u : State) k =>
    if (u.slot k).state = 1 || ((u.slot k).state = 2 && !(u.slot k).committed) then
      let u := u.setSlot k Slot.empty
      match cause with
      | some c => u.snapshotInvalid 0x10 k c
      | none => u
    else u) s

/-- A change of the channel map ends the local use of both slots' maps and invalidates every shard (R505, R509). -/
def State.mapChanged (s : State) : State := ({ s with shards := [] }.showShards).showSlots

end Sys2Proof.Machine
end

