-- ==== Sys2Proof/Machine/Context.lean ====
section
/-! DEFINITION. The context of a logical bay: its area, its save and restore, and the switch of a physical bay between two
logical ones (R123 to R130). -/

namespace Sys2Proof.Machine

/-! Contexts (R127 to R129). -/

/-- Address of the context area of a logical bay (R127). -/
def State.contextBase (s : State) (b : Nat) : Nat := s.reg .ctxBase + b * 0x14C000

/-- Offsets and bytes of the regions of R127 after the header, in KiB. -/
def contextRegions : List (Nat × Nat) :=
  [(0x1000, 12), (0x4000, 32), (0xC000, 128), (0x2C000, 256), (0x6C000, 512), (0xEC000, 128), (0x10C000, 256)]

/-- The regions that a header names as saved (R128). -/
def savedRegions (valid : Nat) : List (Nat × Nat) :=
  ((contextRegions.zipIdx).filter fun r => bit valid r.2).map fun r => (r.1.1, r.1.2 * 1024)

/-- Byte ranges of the saved regions of a context. -/
def contextRanges (base valid : Nat) : List (Nat × Nat) :=
  (savedRegions valid).map fun r => (base + r.1, base + r.1 + r.2)

/-- The bytes of the saved regions of a context. -/
def State.contextBytes (s : State) (base valid : Nat) : List Byte :=
  (contextRanges base valid).flatMap fun r => s.bytes r.1 (r.2 - r.1)

/-- Bytes filled up with zeros to `n`, as every writer leaves what is reserved (R14). -/
def padTo (n : Nat) (bs : List Byte) : List Byte := (bs ++ List.replicate (n - bs.length) 0).take n

/-- Regions of R127 that hold live data of a bay with no entry in flight, as `VALID` marks them (R128, R129). The A and the
accumulator store hold none then. -/
def Bay.liveRegions (x : Bay) : Nat :=
  1 + 2 * (!x.window.isEmpty).toNat + 4 * (!x.descs.isEmpty).toNat + 16 * x.weights.isSome.toNat +
    64 * (x.tiles.any fun t => t ≠ Tile.blank).toNat

/-- The region of the sequencer state: loop counters, predicates, slots, flags, positions, the tags of window, descriptor cache
and tiles, the status words, and the event register (R225). [Log DESIGN CHOICE 88] -/
def Bay.sequencerBytes (x : Bay) : List Byte :=
  let w := x.weights.getD ⟨[], false⟩
  let (wa, wb) := w.runs.headD (0, [])
  padTo 0x400 (
    x.left.flatMap (leBytes 4) ++ x.count.flatMap (leBytes 4) ++ x.preds.flatMap (leBytes 8) ++ x.slots.flatMap (leBytes 8) ++
    leBytes 1 x.cf ++ leBytes 1 x.stack.length ++ leBytes 1 (w.bad.toNat) ++ leBytes 1 x.records.length ++
    leBytes 2 x.window.length ++ leBytes 2 x.descs.length ++ leBytes 8 wa ++ leBytes 8 wb.length ++ leBytes 8 x.table ++
    padTo 0x80 (x.stack.flatMap fun p => leBytes 8 p.1 ++ leBytes 8 p.2) ++
    x.tiles.flatMap (fun t => leBytes 2 t.fmt ++ leBytes 2 t.rows) ++
    padTo 0x200 x.records.flatten ++ leBytes 8 x.event) ++
  padTo 0x800 (x.window.flatMap fun l => leBytes 8 l.1) ++ padTo 0x2400 (x.descs.flatMap fun l => leBytes 8 l.1)

/-- What a region of a context holds, by its number in R127. [Log DESIGN CHOICE 88] -/
def Bay.regionBytes (x : Bay) (n : Nat) : List Byte :=
  if n = 0 then x.sequencerBytes
  else if n = 1 then x.window.flatMap fun l => leBytes 128 l.2
  else if n = 2 then x.descs.flatMap fun l => leBytes 128 l.2
  else if n = 4 then ((x.weights.getD ⟨[], false⟩).runs.headD (0, [])).2
  else if n = 6 then
    x.tiles.flatMap fun t => (List.range (65536 / t.width)).flatMap fun k => leBytes t.width (Store.at 0 t.data k)
  else []

/-- The context of a bay is written: its regions, the header with `DIGEST`, and `CTX_STATE` last (R128, R129). -/
def State.saveContext (s : State) (b : Nat) (x : Bay) : State :=
  let base := s.contextBase b
  let valid := x.liveRegions
  let s := s.writes ((contextRegions.zipIdx.filter fun r => bit valid r.2).map fun r =>
    (base + r.1.1, padTo (r.1.2 * 1024) (x.regionBytes r.2)))
  let d := digest (s.contextBytes base valid)
  let next := match x.halted with
    | some f => f.table + 32 * f.index
    | none => x.table + 32 * x.index
  let head := leBytes 1 0 ++ leBytes 1 0 ++ leBytes 2 b ++ leBytes 2 (s.reg .jobEpoch) ++ leBytes 2 (x.model.getD 0xFFFF) ++
    leBytes 8 next ++ leBytes 1 valid ++ leBytes 7 0 ++ leBytes 8 d
  (s.write base (padTo 4096 head)).write base (leBytes 1 1)

/-- A table of `n` words of `k` bytes each. -/
def State.words (s : State) (a k n : Nat) : List Nat := (List.range n).map fun i => s.load (a + k * i) k

/-- Cached lines of a context: tags from the sequencer state and contents from their own region, none where it is not marked. -/
def State.savedLines (s : State) (tags lines n : Nat) (marked : Bool) : List (Nat × Nat) :=
  if marked then (s.words tags 8 n).zip (s.words lines 128 n) else []

/-- A bay with what its context holds: the regions, `MODEL` and `NEXT_ENTRY` (R128, R130). A region that is not marked leaves its
part as a bay without live data has it; events that came meanwhile stay (R221). [Log DESIGN CHOICE 88, 90] -/
def State.loadContext (s : State) (base : Nat) (x : Bay) : Bay :=
  let valid := s.load (base + 0x10) 1
  let a := base + 0x1000
  let next := s.load (base + 8) 8
  let model := s.load (base + 6) 2
  let table := s.load (a + 0x118) 8
  let tile (k : Nat) : Tile :=
    let t : Tile := ⟨s.load (a + 0x1A0 + 4 * k) 2, s.load (a + 0x1A2 + 4 * k) 2, []⟩
    let ws := s.words (base + 0x10C000 + 65536 * k) t.width (65536 / t.width)
    { t with data := (ws.zipIdx.filter fun p => p.1 ≠ 0).map fun p => (p.2, p.1) }
  { x with
    left := s.words a 4 8
    count := s.words (a + 0x20) 4 8
    preds := s.words (a + 0x40) 8 8
    slots := s.words (a + 0x80) 8 16
    cf := s.load (a + 0x100) 1
    event := x.event ||| s.load (a + 0x3B0) 8
    stack := (List.range (s.load (a + 0x101) 1)).map fun k => (s.load (a + 0x120 + 16 * k) 8, s.load (a + 0x128 + 16 * k) 8)
    records := (List.range (s.load (a + 0x103) 1)).map fun k => s.bytes (a + 0x1B0 + 32 * k) 32
    window := s.savedLines (a + 0x400) (base + 0x4000) (s.load (a + 0x104) 2) (bit valid 1)
    descs := s.savedLines (a + 0xC00) (base + 0xC000) (s.load (a + 0x106) 2) (bit valid 2)
    weights :=
      if bit valid 4 then
        some ⟨[(s.load (a + 0x108) 8, s.bytes (base + 0x6C000) (s.load (a + 0x110) 8))], s.load (a + 0x102) 1 ≠ 0⟩
      else none
    tiles := if bit valid 6 then (List.range 4).map tile else List.replicate 4 Tile.blank
    model := if model = 0xFFFF then none else some model
    table := table
    index := if x.halted.isSome then x.index else (next - table) / 32
    halted := x.halted.map fun f => { f with index := (next - f.table) / 32 } }

/-! The switch (R124, R126). -/

/-- The entry is a WAIT, FENCE or COLL whose condition is not yet met (R124). -/
def Flight.waits (f : Flight) : Bool := !f.executed && f.phase = 1 && (f.op = opWait || f.op = opFence || f.op = opColl)

/-- Nothing of the bay is in flight but what waits for others, a COLL that the collective engine has, and speculative entries that
await only commit (R126). -/
def Bay.quiet (x : Bay) : Bool :=
  x.flights.all fun f => f.waits || (f.op = opColl && (f.executed || f.phase ≠ 0)) || (f.spec && f.executed)

/-- The bay stands where it may switch: after a LAST, at an entry whose condition is not yet met (R124), or with a table that
runs no more. [Log DEDUCED 95] -/
def State.switchPoint (s : State) (b : Nat) : Bool :=
  let x := s.bay b
  x.quiet && (x.atLast || x.flights.any Flight.waits || s.tableState b = tsEnded || s.tableState b = tsHalted)

/-- The fault of a restore: EPOCH_STALE where the context is another epoch's, ECC_UNCORRECTABLE where it has not its digest, 0 for
none (R130). [Log DEDUCED 89] -/
def State.contextFault (s : State) (b : Nat) : Nat :=
  let base := s.contextBase b
  let rs := contextRanges base (s.load (base + 0x10) 1)
  if s.load (base + 4) 2 ≠ s.reg .jobEpoch then 0x0E
  else if s.poisonedAny ((base, base + 4096) :: rs) ||
      decide (s.load (base + 0x18) 8 ≠ digest (s.contextBytes base (s.load (base + 0x10) 1))) then 7
  else 0

/-- A restore that fails is recorded; a digest that differs is a data-loss failure (R130, R491). -/
def State.refuseContext (s : State) (b code : Nat) : State :=
  if code = 0x0E then s.logError { code := 0x0E, severity := 5, unitKind := 0x0F, unit := b, lbay := b }
  else s.dataLoss { code := 7, severity := 3, outcome := 6, unitKind := 0x0F, unit := b, addr := s.contextBase b, lbay := b }

/-- The context area of a bay lies where the job may touch memory. -/
def State.contextReached (s : State) (b : Nat) : Bool := s.reaches (s.contextBase b) (s.contextBase b + 0x14C000)

/-- A bay is parked, and its context is saved (R124, R129). [Log DEDUCED 95] -/
def State.parkBay (s : State) (b : Nat) : State :=
  let x := (s.bay b).dropPreload
  let here := s.contextReached b
  let s := if here then s.saveContext b x else s
  s.setBay b (({ x with parked := true, stored := here } : Bay).clock s.now)

/-- A bay whose context is restored runs (R124, R130); the status words of what completed meanwhile stay (R126). -/
def State.unparkBay (s : State) (b : Nat) : State :=
  let x := s.bay b
  let base := s.contextBase b
  if x.stored && s.contextFault b ≠ 0 then s.refuseContext b (s.contextFault b)
  else
    let y := if x.stored then { s.loadContext base x with records := x.records } else x
    let s := if x.stored then s.write base (leBytes 1 0) else s
    s.setBay b (({ y with parked := false, stored := false } : Bay).clock s.now)

/-- The bay switches to the next logical bay that it hosts and that has work (R124, R126). [Log DEDUCED 95] -/
def State.switchContext (s : State) (b : Nat) : State :=
  let ks := (s.sharers b).filter fun k => (s.bay k).parked && s.tableState k ≠ tsHalted && s.tableState k ≠ tsEnded
  match (ks.filter fun k => b < k) ++ ks with
  | [] => s
  | k :: _ => if s.switchPoint b && !(s.bay b).parked then (s.parkBay b).unparkBay k else s

end Sys2Proof.Machine
end

