-- ==== Sys2Proof/Machine/SeqOps.lean ====
section
/-! DEFINITION. What the end of an entry does to its bay: branches, the end of a step, the end of a speculative run
(R205, R223 to R226, R233 to R236, R463). -/

namespace Sys2Proof.Machine

/-- The end of a time step at one bay (R226): counters and issue counts cleared, window and cache discarded, streams and
chunk records closed. -/
def Bay.closeStep (x : Bay) : Bay :=
  { x with
    left := List.replicate 8 0, count := List.replicate 8 0, issues := [], lastColl := [], window := [], descs := []
    closed := x.closed ++ [x.streams], streams := List.replicate 8 none
    oldChunks := x.oldChunks ++ [x.chunks], chunks := []
    lasts := x.lasts + 1, atLast := true }

/-- The condition of an entry names flags (R223). -/
def Flight.testsFlags (f : Flight) : Bool := 0x10 ≤ f.cond

/-- The next entry is known once an entry that tests flags has ended (R223). A faulted one is run again from its place. -/
def Bay.branch (x : Bay) (f : Flight) (ok : Bool) : Bool × Bay :=
  if f.testsFlags && !f.retry && f.op ≠ opBr then
    if ok then (false, { x with known := true, index := if condHolds f.cond x.cf then f.next else f.index + 1 })
    else (false, { x with known := true, index := f.index })
  else (!ok, x)

/-- An entry has ended, its record written: branch, end of the step, halt (R213, R223, R226, R228). -/
def State.finish (s : State) (b : Nat) (f : Flight) : State :=
  let ok := f.result = 0 || f.result = 0x10 || !f.halts
  let (again, x) := (s.bay b).branch f ok
  let x := if ok && f.last then x.closeStep else x
  let s := s.setBay b x
  let s := if f.halts then s.haltTable b (if again then some f else none)
    else if s.tableState b = tsWaiting then s.setTableState b tsRunning else s
  if f.halts || f.last then s.switchContext b else s

/-- Bytes of memory ranges become free values (R431, R436). -/
def State.freeBytes (s : State) : List (Nat × Nat) → State
  | [] => s
  | r :: rs =>
    let n := r.2 - r.1
    let bs := (List.range n).map fun k => Config.freeByte (s.free + k)
    ({ s with free := s.free + n }.write r.1 bs).freeBytes rs

/-- The serials of the COLLs of a bay that have not committed. -/
def Bay.uncommitted (x : Bay) : List Nat :=
  ((x.flights.filter fun f => f.op = opColl) ++ x.colls).map Flight.serial

/-- A speculative run whose COLLs have all committed ends (R234, R235): the buffer is written in issue order, the merges
are made, and its entries complete; one that stalled goes on, and completes as a speculative entry too. A discarded run may be issued again
(R236). -/
def State.settleRun (s : State) (b : Nat) : State :=
  let x := s.bay b
  match x.run with
  | none => s
  | some r =>
    if r.deps.any x.uncommitted.contains then s
    else if r.discarded then s.setBay b { x with run := none }
    else
      let s := s.writes (x.spec.map fun w => (w.addr, w.bytes))
      let m := x.merges.foldl (fun (a : State × List (Nat × Nat)) e =>
        let r := a.1.mergeStats e.2.1 e.2.2
        (r.1, (e.1, r.2) :: a.2)) (s, [])
      let fs := x.flights.map fun f =>
        if !f.spec then f
        else if f.phase = 2 then { f with spec := false, phase := 0, rflags := f.rflags ||| 4 }
        else
          let st := (m.2.filter fun e => e.1 = f.serial).foldl (fun a e => a ||| e.2) f.status
          let bad := s.badRecords ((x.merges.filter fun e => e.1 = f.serial).map Prod.snd)
          { f with
            spec := false, rflags := f.rflags ||| 4, status := st
            result := if bad then 7 else f.result, halts := f.halts || bad }
      m.1.setBay b { x with run := none, spec := [], merges := [], flights := fs }

end Sys2Proof.Machine
end

