-- ==== Sys2Proof/Machine/Groups.lean ====
section
/-! DEFINITION. Collective groups, the checks of a COLL, the two trees, and the arithmetic of combination (R406 to R423,
R433 to R435). -/

namespace Sys2Proof.Machine

/-! Groups (R406 to R409). -/

/-- A collective group entry. -/
structure CollGroup where
  kind : Nat
  split : Nat
  cntH : Nat
  lo : List Nat
  ext : List Nat
  bays : Nat
  deriving DecidableEq, Repr

/-- Group entry g (R406). -/
def State.collGroup (s : State) (g : Nat) : CollGroup :=
  let a := s.reg .collGroups + 128 * g
  { kind := s.load a 1
    split := s.load (a + 1) 1
    cntH := s.load (a + 4) 4
    lo := (List.range 6).map fun k => s.load (a + 8 + 4 * k) 4
    ext := (List.range 6).map fun k => s.load (a + 0x20 + 4 * k) 4
    bays := s.load (a + 0x40) 32 }

/-- The extents E0 to E5. -/
def State.grid (s : State) : List Nat := (List.range 6).map fun k => s.reg .collGrid k

/-- Coordinates of an identifier on a grid, axis 0 fastest (R31). -/
def coordsOf : List Nat → Nat → List Nat
  | [], _ => []
  | e :: es, i => i % e :: coordsOf es (i / e)

/-- Identifier of coordinates on a grid (R31). -/
def idOf : List Nat → List Nat → Nat
  | e :: es, c :: cs => c + e * idOf es cs
  | _, _ => 0

/-- The members of a GRID instance that holds a node, by rank, and the node's rank (R407). -/
def CollGroup.gridMembers (g : CollGroup) (grid : List Nat) (id : Nat) : Option (List Nat × Nat) :=
  let c := coordsOf grid id
  let axes := List.range 6
  if axes.all fun a => g.lo.getD a 0 ≤ c.getD a 0 && c.getD a 0 < g.lo.getD a 0 + g.ext.getD a 0 then
    let radix := axes.map fun a => if bit g.split a then 1 else g.ext.getD a 1
    let n := radix.foldl (· * ·) 1
    let at' (r : Nat) : Nat :=
      let x := coordsOf radix r
      idOf grid (axes.map fun a => if bit g.split a then c.getD a 0 else g.lo.getD a 0 + x.getD a 0)
    let rank := idOf radix (axes.map fun a => if bit g.split a then 0 else c.getD a 0 - g.lo.getD a 0)
    some ((List.range n).map at', rank)
  else none

/-- The members of a topology instance, by increasing identifier, and the node's rank (R408). A row is ROW and HALL. -/
def State.topoMembers (s : State) (row : Bool) (id : Nat) : Option (List Nat × Nat) :=
  let place (n : Nat) : Nat := if row then s.groupAddr n / 256 else s.groupAddr n
  let ms := (List.range (s.reg .jobNodes)).filter fun n => place n = place id
  if ms.contains id then some (ms, ms.idxOf id) else none

/-- The instance of a group that this node is a member of. -/
def State.collMembers (s : State) (g : CollGroup) : Option (List Nat × Nat) :=
  if s.lnode = 0xFFFFF then none
  else if g.kind = 1 then g.gridMembers s.grid s.lnode
  else if g.kind = 2 then s.topoMembers false s.lnode
  else if g.kind = 3 then s.topoMembers true s.lnode
  else none

/-- A group entry that a COLL may name (R413). -/
def State.groupOk (s : State) (g : CollGroup) : Bool :=
  (1 ≤ g.kind && g.kind ≤ 3) &&
    (g.kind = 1 || (g.split = 0 && g.lo.all (· = 0) && g.ext.all (· = 0))) &&
    s.grid.foldl (· * ·) 1 = s.reg .jobNodes

/-- What is read to find the members of a group: its entry, and for ROW and HALL the job map (R371, R406, R408). -/
def State.groupRanges (s : State) (g : Nat) : List (Nat × Nat) :=
  let r := (s.reg .collGroups + 128 * g, s.reg .collGroups + 128 * g + 128)
  if s.poisoned r.1 r.2 || (s.collGroup g).kind < 2 then [r] else [r, (s.reg .jobMap, s.reg .jobMap + 4 * s.reg .jobNodes)]

/-- The representatives of the groups that the job spans, by increasing logical identifier (R441); none where the job map is marked
(R301). -/
def State.representatives (s : State) : List Nat :=
  let n := s.reg .jobNodes
  if s.poisoned (s.reg .jobMap) (s.reg .jobMap + 4 * n) then []
  else (List.range n).filter fun i => (List.range i).all fun k => s.groupAddr k ≠ s.groupAddr i

/-! Checks of a COLL (R410, R411, R413). -/

/-- Kind and function of a COLL. -/
def Flight.ckind (f : Flight) : Nat := f.param 16 4
/-- `CKIND`[7:4]. -/
def Flight.cfn (f : Flight) : Nat := f.param 20 4
/-- `CAP`. -/
def Flight.cap (f : Flight) : Nat := f.param 32 32

/-- Elements of an operand; 0 for none. -/
def Operand.elems : Operand → Nat
  | .tensor d => d.elems
  | _ => 0

/-- N of a COLL (R410). -/
def collN (f : Flight) (o : Operands) : Nat :=
  if f.ckind = 3 ∨ f.ckind = 4 then o.d.elems else if f.ckind = 6 then f.cap else if f.ckind = 7 then 0 else o.a.elems

/-- A and D are as the member's rank and kind require (R410). -/
def collShapes (f : Flight) (o : Operands) (n rank : Nat) : Bool :=
  let a := !o.a.isNone
  let d := !o.d.isNone
  let x := o.a.elems
  let y := o.d.elems
  if f.ckind = 1 then a && d && x = y
  else if f.ckind = 2 then a && (if d then x = y else rank ≠ 0)
  else if f.ckind = 3 then a && d && x = n * y
  else if f.ckind = 4 then d && (if rank = 0 then a && x = y else !a)
  else if f.ckind = 5 then a && d && y = n * x
  else if f.ckind = 6 then d && y = n * f.cap
  else !a && !d

/-- Checks of a COLL of bay b: 0 or a detail code. -/
def State.checkColl (s : State) (b : Nat) (x : Bay) (f : Flight) (o : Operands) : Nat :=
  let cg := f.param 0 16
  let g := s.collGroup cg
  if o.a.isTile || o.d.isTile then 7
  else if o.a.isSlot || o.d.isSlot then 2
  else if s.reg .collGroupCount ≤ cg ∨ cg = 0xFFFF then 0x0E
  else if !s.groupOk g then 0x0E
  else
    match s.collMembers g with
    | none => 0x0E
    | some (ms, rank) =>
      let one := ((List.range 256).filter (bit g.bays)).length ≤ 1
      let bytes := match o.d with
        | .tensor d => d.elems * d.size
        | _ => 0
      let fmts := (o.a.desc?.toList ++ o.d.desc?.toList)
      if !bit g.bays b then 0x0E
      else if f.ckind = 0 || 7 < f.ckind || 3 < f.cfn || (4 ≤ f.ckind && f.cfn ≠ 0) then 0x0E
      else if decide (3 ≤ f.ckind ∧ f.ckind ≤ 6) && !one then 0x0E
      else if (f.ckind = 6) = (f.cap = 0) then 0x0E
      else if 2 ^ 30 < bytes then 0x0E
      else if !collShapes f o ms.length rank then 6
      else if fmts.any (fun d => d.part || !(1 ≤ d.fmt && d.fmt ≤ 4)) then 8
      else if fmts.any (fun d => fmts.any fun e => d.fmt ≠ e.fmt) then 8
      else if o.a.isRemote || o.d.isRemote then 0x0D
      else if f.ckind ≠ 6 then 0
      else
        match s.resolveAs true x f.iters g.cntH with
        | .error c => c
        | .ok (.tensor d) => if d.remote || !d.extentsOk then 0x0D else if s.storable d.addr (d.addr + 4 * ms.length) then 0 else 0x0D
        | .ok (.tile _) => 7
        | .ok _ => 2

/-- Address of the count vector of an ALLGATHERV, plus 1; 0 for none (R435). -/
def State.countVector (s : State) (x : Bay) (f : Flight) : Nat :=
  if f.op = opColl ∧ f.ckind = 6 then
    match s.resolveAs true x f.iters (s.collGroup (f.param 0 16)).cntH with
    | .ok (.tensor d) => d.addr + 1
    | _ => 0
  else 0

/-- The default deadline of a COLL, in ns (R432): by the bytes of its result at one member and the groups that it spans. -/
def State.collDeadline (s : State) (f : Flight) (o : Operands) : Nat :=
  let ms := ((s.collMembers (s.collGroup (f.param 0 16))).map Prod.fst).getD []
  let n := collN f o
  let size := ((o.a.desc?.toList ++ o.d.desc?.toList).map Desc.size).headD 0
  let bytes := if f.ckind = 7 then 0 else if f.ckind = 5 ∨ f.ckind = 6 then ms.length * n * size else n * size
  16 * s.reg .collDeadlineBase + 50 * ceilDiv bytes 1024 + 5000 * ((ms.map s.groupAddr).eraseDups.length - 1)

/-- The deadline that an entry has from its start, in ns (R227). -/
def State.deadlineOf (s : State) (f : Flight) (o : Operands) : Nat :=
  if f.deadline ≠ 0 then 16 * f.deadline
  else if f.op = opColl then s.collDeadline f o
  else 16 * s.reg .deadlineDefault

/-- What this node matches an instance by. [Log DEDUCED 151] -/
def Flight.collId (f : Flight) (x : Bay) : CollId := ⟨f.param 0 16, f.step, f.ordinal, x.lasts⟩

/-- The signature of a bay's contribution (R414). -/
def State.collSig (s : State) (f : Flight) (o : Operands) : CollSig :=
  let fmt := ((o.a.desc?.toList ++ o.d.desc?.toList).map Desc.fmt).headD 0
  ⟨f.ckind, f.cfn, fmt, collN f o, f.cap, s.reg .subn (f.param 24 4)⟩

/-! Layout and chunks (R419). -/

/-- Elements of the result's layout, over which chunks are counted. -/
def sigTotal (g : CollSig) (n : Nat) : Nat :=
  if g.kind = 3 ∨ g.kind = 5 ∨ g.kind = 6 then n * g.n else if g.kind = 7 then 0 else g.n

/-- Elements of a chunk of 16 KiB at result width. -/
def sigPerChunk (g : CollSig) : Nat := 16384 / (ieeeOf g.fmt).bytes

/-- Number of chunks; a collective without data has one empty chunk. -/
def sigChunks (g : CollSig) (n : Nat) : Nat := max 1 (ceilDiv (sigTotal g n) (sigPerChunk g))

/-- The elements of a chunk. -/
def sigSlice {α : Type} (g : CollSig) (k : Nat) (xs : List α) : List α := (xs.drop (k * sigPerChunk g)).take (sigPerChunk g)

/-! Trees (R418). -/

/-- Position of a rank in a tree, from 1. -/
def treePos (n t r : Nat) : Nat := if t = 0 then r + 1 else if n % 2 = 0 then n - r else (n - r) % n + 1

/-- Rank at a position of a tree. -/
def treeRank (n t p : Nat) : Nat := if t = 0 then p - 1 else if n % 2 = 0 then n - p else (n + 1 - p) % n

/-- The exponent of the lowest set bit. -/
def lowBit (p : Nat) : Nat := ((List.range 21).find? fun k => bit p k).getD 0

/-- Position of the left child. -/
def leftPos (p : Nat) : Option Nat := if lowBit p = 0 then none else some (p - 2 ^ (lowBit p - 1))

/-- Position of the right child. -/
def rightPos (n p : Nat) : Option Nat :=
  ((List.range (lowBit p)).reverse.find? fun j => p + 2 ^ j ≤ n).map fun j => p + 2 ^ j

/-- Position of the root: the largest power of two that is at most n. -/
def rootPos (n : Nat) : Nat := 2 ^ (((List.range 21).reverse.find? fun k => 2 ^ k ≤ n).getD 0)

/-- Position of the parent of a position, found on the way down from the root. -/
def parentPos (n p : Nat) : Nat → Nat → Option Nat
  | 0, _ => none
  | k + 1, q =>
    if q = p then none
    else
      let c := if p < q then leftPos q else rightPos n q
      match c with
      | none => none
      | some c => if c = p then some q else parentPos n p k c

/-- Ranks of the parent and of the left and right children of a rank in a tree. -/
def treeNode (n t r : Nat) : Option Nat × Option Nat × Option Nat :=
  let p := treePos n t r
  ((parentPos n p 22 (rootPos n)).map (treeRank n t), (leftPos p).map (treeRank n t), (rightPos n p).map (treeRank n t))

/-- Ranks of the children. -/
def treeKids (n t r : Nat) : List Nat :=
  let k := treeNode n t r
  k.2.1.toList ++ k.2.2.toList

/-! Combination (R410, R411, R415, R421). -/

/-- The format in which partials are held. -/
def combineFmt (fmt : Nat) : Ieee := if fmt = 1 then fp64 else fp32

/-- Two present elements combined, with the status raised. A NaN among them has been reported where it came in, or where it
arose (R53). [Log DEDUCED 212] -/
def combineBits (fn fmt x y : Nat) : Nat × Nat :=
  let f := combineFmt fmt
  let a := f.decode x
  let b := f.decode y
  if fn = 0 then
    let r := sumTerms [a, b]
    let q := f.round false r.1
    (q.1, r.2 ||| q.2)
  else ((f.round false (a.minmax (fn ≠ 2) b)).1, 0)

/-- Two partials combined element by element; EMPTY passes the other through. -/
def combineVec (fn fmt : Nat) : List (Option Nat) → List (Option Nat) → List (Option Nat) × Nat
  | [], ys => (ys, 0)
  | xs, [] => (xs, 0)
  | x :: xs, y :: ys =>
    let r := combineVec fn fmt xs ys
    match x, y with
    | some a, some b =>
      let c := combineBits fn fmt a b
      (some c.1 :: r.1, c.2 ||| r.2)
    | some a, none => (some a :: r.1, r.2)
    | none, y => (y :: r.1, r.2)

/-- Partials combined in the order of a list. -/
def combineAll (fn fmt : Nat) : List (List (Option Nat)) → List (Option Nat) × Nat
  | [] => ([], 0)
  | v :: vs => vs.foldl (fun a w =>
      let r := combineVec fn fmt a.1 w
      (r.1, a.2 ||| r.2)) (v, 0)

/-- One level of the tree over bays. -/
def bayLevel (fn fmt : Nat) : List (Option (List (Option Nat))) → List (Option (List (Option Nat))) × Nat
  | x :: y :: r =>
    let q := bayLevel fn fmt r
    match x, y with
    | some a, some b =>
      let c := combineVec fn fmt a b
      (some c.1 :: q.1, c.2 ||| q.2)
    | some a, none => (some a :: q.1, q.2)
    | none, y => (y :: q.1, q.2)
  | r => (r, 0)

/-- The fixed tree of R169 over `2 ^ k` positions. -/
def bayTree (fn fmt : Nat) : Nat → List (Option (List (Option Nat))) → List (Option Nat) × Nat
  | 0, vs => ((vs.headD none).getD [], 0)
  | k + 1, vs =>
    let l := bayLevel fn fmt vs
    let r := bayTree fn fmt k l.1
    (r.1, l.2 ||| r.2)

/-- Bits of a contribution's element at the combination width; its absolute value for MAXABS. -/
def leafBits (fn fmt v : Nat) : Nat :=
  let x := (ieeeOf fmt).decode v
  ((combineFmt fmt).round false (if fn = 3 then x.abs else x)).1

/-- The status of contributed elements: a NaN among them reaches the result (R53). -/
def leafStatus (fmt : Nat) (vs : List Nat) : Nat :=
  if vs.any fun v => ((combineFmt fmt).decode v).isNan then stNanIn else 0

/-- A node's contribution over the layout of the result (R410, R433). -/
def layoutOf (g : CollSig) (n rank : Nat) (xs : List Nat) : List (Option Nat) :=
  if g.kind = 5 ∨ g.kind = 6 then
    (List.range (n * g.n)).map fun i =>
      if i / g.n = rank then some (xs.getD (i % g.n) 0) else none
  else if g.kind = 4 ∧ rank ≠ 0 then List.replicate g.n none
  else xs.map some

/-- The final value of an element: rounded once to the result format, with whether it was flushed, and the status (R411). -/
def finalBits (g : CollSig) (v : Option Nat) : (Nat × Bool) × Nat :=
  let r := (ieeeOf g.fmt).round (g.subn = 1) ((combineFmt g.fmt).decode (v.getD 0))
  ((r.1, bit r.2 4), r.2)

/-- Bytes of a chunk going up, as its digest takes them. -/
def upBytes (fmt : Nat) (vs : List (Option Nat)) : List Byte :=
  vs.flatMap fun v => match v with
    | some x => leBytes (combineFmt fmt).bytes x
    | none => []

/-- Bytes of a chunk going down. -/
def downBytes (fmt : Nat) (vs : List (Nat × Bool)) : List Byte := vs.flatMap fun v => leBytes (ieeeOf fmt).bytes v.1

end Sys2Proof.Machine
end

