-- ==== Sys2Proof/Machine/Collective.lean ====
section
/-! DEFINITION. The collective engine: joining, the node-local stage, chunks up and down the trees, commit, abort, re-run,
re-fetch and abandonment (R410 to R439). -/

namespace Sys2Proof.Machine

/-! Instances. -/

/-- The instance of an identity. -/
def State.coll (s : State) (i : CollId) : Option Coll := s.colls.find? fun c => c.id = i

/-- An instance takes a new state. -/
def State.setColl (s : State) (c : Coll) : State :=
  { s with colls := s.colls.map fun d => if d.id = c.id then c else d }

/-- Members of an instance. -/
def Coll.n (c : Coll) : Nat := c.members.length

/-- The signature of an instance at this node. -/
def Coll.signature (c : Coll) : CollSig := c.sig.getD ⟨0, 0, 0, 0, 0, 0⟩

/-- Chunks of an instance. -/
def Coll.chunks (c : Coll) : Nat := sigChunks c.signature c.n

/-- Trees that carry chunks. -/
def Coll.trees (c : Coll) : List Nat := if c.chunks = 1 then [0] else [0, 1]

/-- An instance as it opens: at the first bay that joins, or at the first packet of another member. -/
def Coll.fresh (i : CollId) (g : CollGroup) (ms : List Nat) (rank : Nat) : Coll where
  id := i
  sig := none
  nd := false
  members := ms
  rank := rank
  bays := g.bays
  joined := []
  contribs := []
  staged := false
  own := []
  counts := []
  status := 0
  run := 1
  parts := []
  sent := []
  rootStatus := 0
  rootCounts := []
  results := []
  tokens := []
  refetch := []
  retained := []
  delivered := false
  deliveredAt := 0
  failed := none
  closed := false

/-- The job barrier: a BARRIER over reserved group 0xFFFF (R441). -/
def jobBarrier : CollId := ⟨0xFFFF, 0, 0, 0⟩

/-- Group, members and own rank of an instance, where this node is a member: of the job barrier, its representatives (R420, R441). None
where the group entry cannot be read (R301). -/
def State.instanceOf (s : State) (i : CollId) : Option (CollGroup × List Nat × Nat) :=
  if i.group = 0xFFFF then
    let ms := s.representatives
    if ms.contains s.lnode then some ({ kind := 0, split := 0, cntH := 0, lo := [], ext := [], bays := 0 }, ms, ms.idxOf s.lnode)
    else none
  else
    let g := s.collGroup i.group
    if s.reg .collGroupCount ≤ i.group || s.poisonedAny (s.groupRanges i.group) || !s.groupOk g then none
    else (s.collMembers g).map fun m => (g, m)

/-- The instance of an identity, opened if this node is a member of its group (R420); none once it has ended. -/
def State.openColl (s : State) (i : CollId) : Option State :=
  if (s.coll i).isSome then some s
  else if s.collDone.any fun d => d.1 = i then none
  else (s.instanceOf i).map fun m => { s with colls := s.colls ++ [Coll.fresh i m.1 m.2.1 m.2.2] }

/-- Instances that bays of this node hold: those joined, and those that COLLs which have started will join (R439). -/
def State.heldInstances (s : State) : List CollId :=
  ((s.colls.filter fun c => !c.joined.isEmpty && !c.closed && c.failed.isNone).map Coll.id ++ s.bays.flatMap fun e =>
    (e.2.flights.filter fun f => f.op = opColl && !f.executed).map fun f => f.collId e.2).eraseDups

/-- A COLL may not open a 65th instance (R439). -/
def State.collFull (s : State) (i : CollId) : Bool :=
  decide (64 ≤ s.heldInstances.length) && !s.heldInstances.contains i

/-- Class of a message of a collective: data in 4; tokens, aborts, acknowledgements, reports and all of a barrier in 7 (R399, R420). -/
def collClass (kind : Nat) (m : CollMsg) : Nat :=
  match m with
  | .up _ _ _ _ _ => if kind = 7 then 7 else 4
  | .down _ _ _ => if kind = 7 then 7 else 4
  | _ => 7

/-- A message on a run of an instance to the member of a rank: over the group's links, or by the path of R372 (R420).
[Log DESIGN CHOICE 219] -/
def State.tellRun (s : State) (c : Coll) (run rank : Nat) (m : CollMsg) : State :=
  s.sendFar ⟨s.header (collClass c.signature.kind m) (c.members.getD rank 0) 0 0 0, .coll c.id run c.signature m⟩

/-- A message on the present run. -/
def State.tellColl (s : State) (c : Coll) (rank : Nat) (m : CollMsg) : State := s.tellRun c c.run rank m

/-- A message to several ranks. -/
def State.tellColls (s : State) (c : Coll) (ranks : List Nat) (m : CollMsg) : State :=
  ranks.foldl (fun t r => t.tellColl c r m) s

/-- The flight of a bay that has joined, before delivery or after it. -/
def Bay.collFlight (x : Bay) (serial : Nat) : Option Flight := (x.flights ++ x.colls).find? fun f => f.serial = serial

/-- Chunks of a tree that are still to come. -/
def Coll.lacks (c : Coll) (t : Nat) : Bool := (List.range c.chunks).any fun k => k % 2 = t && !(c.results.any fun e => e.1 = k)

/-- Nothing is left to do for the members below: every chunk has gone down and been acknowledged, and every token has gone on
(R425, R427). -/
def Coll.servedBelow (c : Coll) : Bool :=
  c.retained.isEmpty && c.trees.all fun t =>
    (treeKids c.n t c.rank).isEmpty || (!c.lacks t && (c.tokens.contains t || c.signature.kind = 7))

/-- An instance that has ended here goes once nothing is left to do for the members below (R427). -/
def State.sweepColl (s : State) (i : CollId) : State :=
  { s with colls := s.colls.filter fun c => ¬ (c.id = i ∧ c.closed = true ∧ c.servedBelow = true) }

/-- An instance is gone at this node; `released` counts what comes after (R436). -/
def State.closeColl (s : State) (i : CollId) (released : Bool) : State :=
  { s with
    colls := s.colls.filter fun c => c.id ≠ i
    collHeld := s.collHeld.filter fun h => h.id ≠ i
    collDone := (i, released) :: s.collDone }

/-- The COLL has ended at this node's bays, and the engine goes on as long as members below need it (R427, R430, R431).
[Log DESIGN CHOICE 256] -/
def State.retireColl (s : State) (c : Coll) : State :=
  { s.setColl { c with closed := true, joined := [], contribs := [] } with collDone := (c.id, false) :: s.collDone }.sweepColl c.id

/-! The end of a COLL at a bay. -/

/-- D of a COLL, from its descriptor as read when it started. -/
def Flight.collDst (f : Flight) : Option Desc :=
  match f.scales with
  | raw :: _ => if raw = 0 then none else (decodeDesc raw none).toOption
  | [] => none

/-- The sources of a COLL, from their descriptor as read when it started, with the weight base of a model's. -/
def Flight.collSrc (f : Flight) : Option Desc :=
  match f.scales.drop 2 with
  | [raw, base] => if raw = 0 then none else (decodeDesc raw (if base = 0 then none else some (base - 1))).toOption
  | _ => none

/-- Byte ranges that a COLL writes: D and the count vector (R428). -/
def Flight.collWrites (f : Flight) (n : Nat) : List (Nat × Nat) :=
  (match f.collDst with
    | some d => d.rowRanges
    | none => []) ++
    (match f.scales.drop 1 with
    | a :: _ => if a = 0 then [] else [(a - 1, a - 1 + 4 * n)]
    | [] => [])

/-- A COLL of a bay ends: its record is written and what its result asks for is done (R425, R431, R436). -/
def State.endCollAt (s : State) (b : Nat) (f : Flight) (queueFull : Bool) : State :=
  let x := s.bay b
  let undelivered := x.flights.any fun g => g.serial = f.serial
  let s := s.setBay b { x with
    flights := x.flights.filter fun g => g.serial ≠ f.serial
    colls := x.colls.filter fun g => g.serial ≠ f.serial }
  let s := s.emitRecord b f queueFull
  let s := if undelivered then s.finish b f
    else if f.halts then
      s.haltTable b (if f.result = 0 ∨ f.result = 0x10 then none else some f)
    else s
  s.settleRun b

/-- A COLL that has failed for good (R431, R436): D undefined, its speculative run discarded, the table halted.
[Log DESIGN CHOICE 154] -/
def State.failCollAt (s : State) (b n result detail : Nat) (f : Flight) (queueFull : Bool) : State :=
  let s := s.freeBytes (f.collWrites n)
  let s := s.setBay b (s.bay b).discardRun
  let s := s.endCollAt b { f with result := result, detail := detail, halts := true } queueFull
  let x := s.bay b
  s.setBay b { x with run := none }

/-- The bays that have joined an instance end with COLLECTIVE_ABORT (R431). -/
def State.failJoined (s : State) (c : Coll) (queueFull : Bool) : State :=
  c.joined.foldl (fun t j =>
    match (t.bay j.1).collFlight j.2 with
    | some f => t.failCollAt j.1 c.n 0x0F c.run f queueFull
    | none => t) s

/-- The bays of an instance that have not joined it. -/
def Coll.missing (c : Coll) : List Nat :=
  ((List.range 256).filter (bit c.bays)).filter fun k => !(c.joined.any fun j => j.1 = k)

/-- A final abort of an instance at this member (R414, R431). A bay that joins it later ends in the same way. -/
def State.failColl (s : State) (c : Coll) (queueFull : Bool) : State :=
  let s := s.failJoined c queueFull
  if c.closed || c.missing.isEmpty then s.closeColl c.id false else s.setColl { c with failed := some c.run }

/-- A run of an instance is discarded (R429, R430): speculative runs of the bays go, and the abort is recorded. -/
def State.noteAbort (s : State) (c : Coll) : State :=
  let s := c.joined.foldl (fun t j => t.setBay j.1 (t.bay j.1).discardRun) s
  (s.addReg .collAborts 0 1).logError {
    code := 0x0F, severity := 0, detail := c.run, step := c.id.step, lbay := (c.joined.map Prod.fst).headD 0xFFFF }

/-! Delivery and commit (R412, R416, R425, R434). -/

/-- Elements that a rank offered beyond the capacity (R433). -/
def dropsOf (cap : Nat) (counts : List (Nat × Nat)) : Nat := (counts.map fun k => k.2 - cap).foldl (· + ·) 0

/-- The result that a member takes: all of it, block r for REDUCE_SCATTER, none away from rank 0 for REDUCE (R410). -/
def Coll.share (c : Coll) : List (Nat × Bool) :=
  let g := c.signature
  let all := (List.range c.chunks).flatMap fun k => Store.at [] c.results k
  if g.kind = 3 then (all.drop (c.rank * g.n)).take g.n else if g.kind = 2 ∧ c.rank ≠ 0 then [] else all

/-- The result is written to D of every bay that has joined: the delivery (R416, R425, R435). The COLL completes there and
waits for its commit. [Log DEDUCED 153] -/
def State.deliverColl (s : State) (c : Coll) : State :=
  let vs := c.share
  let counts := c.rootCounts
  let cap := c.signature.cap
  let s := c.joined.foldl (fun t j =>
    match (t.bay j.1).collFlight j.2 with
    | none => t
    | some f =>
      let t := match f.collDst with
        | some d => (vs.zipIdx).foldl (fun (u : State) v => u.write (d.elemAddr v.2) (leBytes d.size v.1.1)) t
        | none => t
      let t := match f.scales.drop 1 with
        | a :: _ =>
          if a = 0 then t
          else counts.foldl (fun (u : State) (k : Nat × Nat) => u.write (a - 1 + 4 * k.1) (leBytes 4 (min k.2 cap))) t
        | [] => t
      let x := t.bay j.1
      if x.flights.any fun g => g.serial = j.2 then
        let f := { f with executed := true }
        let t := t.setBay j.1 { x with
          flights := x.flights.filter fun g => g.serial ≠ j.2
          colls := x.colls ++ [f] }
        t.finish j.1 f
      else t) s
  s.setColl { c with delivered := true, deliveredAt := s.now }

/-- The commit of an instance at this member (R425, R434): statistics, records, counts, and the runs that waited.
[Log DEDUCED 153] -/
def State.commitColl (s : State) (c : Coll) (queueFull : Bool) : State :=
  let g := c.signature
  let st := c.rootStatus % 32 &&& (stInvalid + stNanIn + stOverflow + stFlushed)
  let total := if g.kind = 6 then dropsOf g.cap c.rootCounts else 0
  let mine := if g.kind = 6 then dropsOf g.cap (c.counts.filter fun k => k.1 = c.rank) else 0
  let vs := c.share
  let s := if mine = 0 then s
    else (s.addReg .collDropped 0 mine).logError {
      code := 0x10, severity := 5, detail := mine, step := c.id.step, lbay := (c.joined.map Prod.fst).headD 0xFFFF }
  let s := (s.addReg .collInstances 0 1).addReg .collGateWait 0 ((s.now - c.deliveredAt) * c.joined.length)
  let s := s.retireColl c
  c.joined.foldl (fun t j =>
    match (t.bay j.1).collFlight j.2 with
    | none => t
    | some f =>
      let m : State × Nat := match f.collDst with
        | some d =>
          if d.scale = 0 ∨ vs.isEmpty then (t, 0)
          else t.mergeStats d.record (vecDelta (t.reg .stats (f.param 24 4)) d.fmt d.fmt st []
            (vs.map fun v => (v.1, if v.2 then stFlushed else 0)))
        | none => (t, 0)
      let bad := f.collDst.any fun d => d.scale ≠ 0 && !vs.isEmpty && t.poisoned d.record (d.record + 640)
      let f := { f with
        status := st ||| m.2
        result := if bad then 7 else if total = 0 then 0 else 0x10
        detail := if bad then 0 else total
        halts := f.halts || bad || (total ≠ 0 && s.reg .collOverflowPolicy = 1) }
      m.1.endCollAt j.1 f queueFull) s

/-- Delivery once every chunk has matched, and commit once the tokens of the trees in use have come (R425); a BARRIER, which has no data,
commits when it completes (R440). -/
def State.settleColl (s : State) (i : CollId) (queueFull : Bool) : State :=
  match s.coll i with
  | none => s
  | some c =>
    if c.closed then s.sweepColl i
    else
      let done := c.staged && (List.range c.chunks).all fun k => c.results.any fun e => e.1 = k
      let toks := c.signature.kind = 7 || c.trees.all c.tokens.contains
      let ready := done && (c.signature.kind ≠ 6 || toks)
      let s := if ready && !c.delivered then s.deliverColl c else s
      match s.coll i with
      | none => s
      | some c => if c.delivered && toks then s.commitColl c queueFull else s

/-! Chunks (R421 to R427). -/

/-- Bytes in the retention store (R427). -/
def State.retainedBytes (s : State) : Nat :=
  (s.colls.flatMap fun c => ((c.retained.map Prod.fst).eraseDups).map fun k =>
    (Store.at [] c.results k).length * (ieeeOf c.signature.fmt).bytes).foldl (· + ·) 0

/-- The retention store of 64 MiB has room for a chunk that goes on to children (R427). -/
def State.mayRetain (s : State) (c : Coll) (k n : Nat) : Bool :=
  (treeKids c.n (k % 2) c.rank).isEmpty || decide (s.retainedBytes + n ≤ 0x4000000)

/-- A chunk waits for room in the retention store, and the wait is counted (R427). -/
def State.holdChunk (s : State) (src : Nat) (c : Coll) (m : CollMsg) : State :=
  { s with collHeld := s.collHeld ++ [(⟨src, c.id, c.run, c.signature, m⟩ : CollHeld)] }.addReg .collRetainFull 0 1

/-- A chunk of the result is kept, and sent down to the children of its tree, which acknowledge it (R425, R427). -/
def State.acceptChunk (s : State) (c : Coll) (k : Nat) (vals : List (Nat × Bool)) : State :=
  let kids := treeKids c.n (k % 2) c.rank
  let d := BitVec.ofNat 64 (digest (downBytes c.signature.fmt vals))
  let c := { c with
    results := Store.insert natLt k vals (Store.erase c.results k)
    refetch := c.refetch.filter (· ≠ k)
    retained := c.retained ++ kids.map fun r => (k, r) }
  (s.setColl c).tellColls c kids (.down k vals d)

/-- The root's token of a tree goes down behind its last chunk (R425). [Log DEDUCED 152] -/
def State.sendToken (s : State) (i : CollId) (t : Nat) : State :=
  match s.coll i with
  | none => s
  | some c =>
    if c.signature.kind = 7 || c.lacks t then s
    else
      let c := { c with tokens := insertRising t c.tokens }
      (s.setColl c).tellColls c (treeKids c.n t c.rank) (.token t c.rootStatus c.rootCounts)

/-- A chunk goes up, or is formed at the root, once the partials of all children have come (R421, R422, R427). -/
def State.tryChunk (s : State) (i : CollId) (k : Nat) : State :=
  match s.coll i with
  | none => s
  | some c =>
    let g := c.signature
    let node := treeNode c.n (k % 2) c.rank
    let kids := node.2.1.toList ++ node.2.2.toList
    let part (r : Nat) : Option CollPart := c.parts.find? fun p => p.run = c.run && p.chunk = k && p.child = r
    if !c.staged || c.failed.isSome || c.sent.contains k || kids.any fun r => (part r).isNone then s
    else
      let own := sigSlice g k c.own
      let left := (node.2.1.bind part).toList
      let right := (node.2.2.bind part).toList
      let arrived := c.parts.filter fun p => p.run = c.run && p.chunk = k
      let order := if c.nd then own :: arrived.map CollPart.vals
        else left.map CollPart.vals ++ own :: right.map CollPart.vals
      let r := combineAll g.fn g.fmt order
      let st := (arrived.map CollPart.status).foldl (· ||| ·) (r.2 ||| c.status)
      let counts := (if k = 0 then c.counts else []) ++ arrived.flatMap CollPart.counts
      let c := { c with sent := insertRising k c.sent }
      match node.1 with
      | some p =>
        (s.setColl c).tellColl c p (.up k r.1 counts st (BitVec.ofNat 64 (digest (upBytes g.fmt r.1))))
      | none =>
        let fs := r.1.map (finalBits g)
        let vs := fs.map Prod.fst
        let c := { c with
          rootStatus := (fs.map Prod.snd).foldl (· ||| ·) (c.rootStatus ||| st)
          rootCounts := c.rootCounts ++ counts.filter fun e => !c.rootCounts.contains e }
        let s := s.setColl c
        if s.mayRetain c k (downBytes g.fmt vs).length then (s.acceptChunk c k vs).sendToken i (k % 2)
        else s.holdChunk s.lnode c (.down k vs (BitVec.ofNat 64 (digest (downBytes g.fmt vs))))

/-- Every chunk that can go on does. -/
def State.advanceColl (s : State) (i : CollId) (queueFull : Bool) : State :=
  match s.coll i with
  | none => s
  | some c => ((List.range c.chunks).foldl (fun t k => t.tryChunk i k) s).settleColl i queueFull

/-! Abort (R429 to R431). -/

/-- Ranks next to this one in both trees, below it. -/
def Coll.below (c : Coll) : List Nat := (treeKids c.n 0 c.rank ++ treeKids c.n 1 c.rank).eraseDups

/-- A bay's contribution: its elements at the combination width, from the descriptor of its sources as read when it started (R410). -/
def State.contribution (s : State) (f : Flight) (g : CollSig) : List Nat :=
  match f.collSrc with
  | some d => (List.range d.elems).map fun k => leafBits g.fn g.fmt (s.load (d.elemAddr k) d.size)
  | none => []

/-- The node-local stage: the contributions are combined in the fixed tree, or in order of arrival in the first-arrival form
(R415, R422). [Log DEDUCED 155] -/
def Coll.stage (c : Coll) : Coll :=
  let g := c.signature
  let vecs := c.contribs.map fun e => (e.1, e.2.map some)
  let r : List (Option Nat) × Nat :=
    if g.kind ≤ 3 then
      if c.nd then combineAll g.fn g.fmt (vecs.map Prod.snd)
      else bayTree g.fn g.fmt 8 ((List.range 256).map fun k => vecs.lookup k)
    else ((vecs.map Prod.snd).headD [], 0)
  let bits := r.1.map fun v => v.getD 0
  let own := layoutOf g c.n c.rank bits
  let nan := leafStatus g.fmt (if g.kind ≤ 3 then c.contribs.flatMap Prod.snd else own.filterMap fun v => v)
  { c with
    staged := true
    own := own
    counts := if g.kind = 6 then [(c.rank, bits.length)] else []
    status := r.2 ||| nan }

/-- The sources of the bays that have joined are read again, and combined again where they had been (R428, R429). -/
def State.reread (s : State) (c : Coll) : Coll :=
  let c := { c with contribs := c.contribs.map fun e =>
    match (c.joined.lookup e.1).bind (s.bay e.1).collFlight with
    | some f => (e.1, s.contribution f c.signature)
    | none => e }
  if c.staged && !c.closed then c.stage else c

/-- A run is aborted here and below: discarded, and begun again from the sources unless the abort is final (R429, R431). -/
def State.abortColl (s : State) (c : Coll) (final queueFull : Bool) : State :=
  let s := (s.tellColls c c.below (.abort final)).noteAbort c
  if final then s.failColl c queueFull
  else
    let c := s.reread { c with
      run := 2, sent := [], rootStatus := 0, rootCounts := [], results := [], tokens := [], refetch := [], retained := []
      delivered := false, parts := c.parts.filter fun p => p.run = 2 }
    let s := { s with collHeld := s.collHeld.filter fun h => ¬ (h.id = c.id ∧ h.run = 1) }
    (s.setColl c).advanceColl c.id queueFull

/-- The ranks of the roots of both trees. -/
def Coll.roots (c : Coll) : List Nat := [treeRank c.n 0 (rootPos c.n), treeRank c.n 1 (rootPos c.n)].eraseDups

/-- A root decides on a mismatch in the present run: a second run follows a first, where `COLL_RERUN` is 1 and the signatures agree
(R414, R429, R431). -/
def State.rootAborts (s : State) (c : Coll) (signature queueFull : Bool) : State :=
  s.abortColl c (signature || c.run ≠ 1 || s.reg .collRerun = 0) queueFull

/-- A mismatch found in a run is reported to the roots of both trees; a root aborts the run itself (R414, R424, R429). -/
def State.reportColl (s : State) (c : Coll) (run : Nat) (signature queueFull : Bool) : State :=
  let s := (c.roots.filter (· ≠ c.rank)).foldl (fun (t : State) r => t.tellRun c run r (.report signature)) s
  if c.roots.contains c.rank && c.run = run then s.rootAborts c signature queueFull else s

/-! Joining and the node-local stage (R410, R415). -/

/-- The oldest started COLL of a kind hands in its bay's contribution. Poisoned sources end it (R301).
[Log DEDUCED 84] -/
def State.joinColl (s : State) (b kind : Nat) : State :=
  match s.ready b fun f => f.op = opColl && f.ckind = kind with
  | none => s
  | some f =>
    let x := s.bay b
    match s.operands x f with
    | .error c => s.perform b f (Effect.fault 0x80 c)
    | .ok o =>
      let ranges := o.a.readRanges
      if s.poisonedAny ranges then s.perform b f (Effect.fault 7 0)
      else
        let i : CollId := f.collId x
        match s.openColl i with
        | none => s.perform b f (Effect.fault 0x80 0x0E)
        | some s =>
          match s.coll i with
          | none => s
          | some c =>
            match c.failed with
            | some n =>
              let c := { c with joined := c.joined ++ [(b, f.serial)] }
              let s := if c.missing.isEmpty then s.closeColl c.id false else s.setColl c
              let s := s.freeBytes (f.collWrites c.n)
              (s.setBay b (s.bay b).discardRun).perform b f (Effect.fault 0x0F n)
            | none =>
              let g := s.collSig f o
              let nd := f.nd && !bit f.rflags 1
              let differs := c.sig.any (fun h => h ≠ g) || c.parts.any fun p => p.sig ≠ g
              let c := { c with
                sig := some (c.sig.getD g)
                nd := c.nd || nd
                joined := c.joined ++ [(b, f.serial)]
                contribs := c.contribs ++ [(b, s.contribution f g)]
                status := if differs then 2 ^ 16 else c.status }
              (((s.setColl c).setFlight b { f with phase := 1 }).showWaiting b).switchContext b

/-- COLL_ALLREDUCE: a bay joins an ALLREDUCE (R410). -/
def execCollAllreduce (b : Fin 256) (s : State) : Res := .next (s.joinColl b.val 1)

/-- COLL_REDUCE (R410). -/
def execCollReduce (b : Fin 256) (s : State) : Res := .next (s.joinColl b.val 2)

/-- COLL_REDUCE_SCATTER (R410). -/
def execCollReduceScatter (b : Fin 256) (s : State) : Res := .next (s.joinColl b.val 3)

/-- COLL_BROADCAST (R410). -/
def execCollBroadcast (b : Fin 256) (s : State) : Res := .next (s.joinColl b.val 4)

/-- COLL_ALLGATHER (R410). -/
def execCollAllgather (b : Fin 256) (s : State) : Res := .next (s.joinColl b.val 5)

/-- COLL_ALLGATHERV (R433). -/
def execCollAllgatherv (b : Fin 256) (s : State) : Res := .next (s.joinColl b.val 6)

/-- COLL_BARRIER (R410). -/
def execCollBarrier (b : Fin 256) (s : State) : Res := .next (s.joinColl b.val 7)

/-- The instance that a bay's oldest COLL without a node-local stage belongs to. -/
def State.unstagedOf (s : State) (b : Nat) : Option Coll :=
  s.colls.find? fun c => !c.staged && c.joined.any fun j => j.1 = b

/-- COLL_NODE_LOCAL_STAGE: once every bay of the instance on this node has joined, their contributions are combined, and the node's part
of the inter-node stage begins; signatures that differ are reported (R414, R415, R422). -/
def execCollNodeLocalStage (b : Fin 256) (queueFull : Bool) (s : State) : Res :=
  match s.unstagedOf b.val with
  | none => .next s
  | some c =>
    if !c.missing.isEmpty then .next s
    else
      let bad := 2 ^ 16 ≤ c.status
      let c := c.stage
      let s := s.setColl c
      .next (if bad then s.reportColl c c.run true queueFull else s.advanceColl c.id queueFull)

/-- A representative joins the job barrier (R441). [Log DEDUCED 156] -/
def State.joinBarrier (s : State) : State :=
  match s.openColl jobBarrier with
  | none => s
  | some s =>
    match s.coll jobBarrier with
    | none => s
    | some c =>
      if c.staged then s
      else (s.setColl { c with sig := some ⟨7, 0, 0, 0, 0, 0⟩, staged := true }).advanceColl jobBarrier false

/-! Messages of other members (R424 to R430). -/

/-- A packet of a collective goes on toward its destination: as a detour between two positions of the group, or by the path of R372;
where it cannot go now it is held (R364, R365, R420). A node in FAULTED only forwards detours (R47). [Log DEDUCED 253] -/
def State.relayColl (s : State) (q : MailPort) (p : Packet) : State :=
  if fromPosition q && (s.posOf p.h.dst.val).isSome then s.forward p
  else if s.isIn stFaulted then s
  else (s.addReg .fwdBytes 0 (packetBytes p)).sendFar p

/-- The packet's source may have sent it by this way: a position of the group by its own link or a detour, another group's node over a
between-group link or from the position where that ends (R370, R420). [Log DEDUCED 253] -/
def State.collSource (s : State) (q : MailPort) (h : Header) : Bool :=
  match s.posOf h.src.val, q with
  | some _, .position p => s.sourceOk p.val h
  | some _, .between _ => false
  | none, _ => true

/-- A packet of a collective arrives: it goes on where it is for another node, is dropped where its epoch or source does not fit, and
refused in FAULTED; otherwise `f` takes it, with the node it comes from (R47, R370, R376, R420). -/
def State.takeColl (s : State) (q : MailPort) (h : Header) (b : Body) (f : State → State) : State :=
  if !s.isMine h then s.relayColl q ⟨h, b⟩
  else if !s.epochOk h || !s.collSource q h then s.dropStale h
  else if s.isIn stFaulted then s
  else f s

/-- A packet of an instance that this node does not hold: counted if the instance was released (R436). -/
def State.lateColl (s : State) (i : CollId) : State :=
  if s.collDone.any fun d => d.1 = i && d.2 then s.addReg .collLateDrops 0 1 else s

/-- The instance of a packet, opened by it if need be, and the rank of the member that sent it (R420); `f` goes on with them. -/
def State.withColl (s : State) (src : Nat) (i : CollId) (f : State → Coll → Nat → State) : State :=
  match s.openColl i with
  | none => s.lateColl i
  | some t =>
    match t.coll i with
    | none => s
    | some c => if c.members.contains src then f t c (c.members.idxOf src) else s

/-- The instance of a packet in the present run. -/
def State.withRun (s : State) (src : Nat) (i : CollId) (run : Nat) (f : State → Coll → Nat → State) : State :=
  s.withColl src i fun t c r => if c.run = run then f t c r else s

/-- A partial of a child arrives (R414, R421, R424). -/
def State.partArrives (s : State) (c : Coll) (child run : Nat) (sig : CollSig) (k : Nat) (vals : List (Option Nat))
    (counts : List (Nat × Nat)) (status : Nat) (d : Dword) (queueFull : Bool) : State :=
  if run < c.run || c.parts.any fun p => p.run = run && p.chunk = k && p.child = child then s
  else if c.sig.any (fun g => g ≠ sig) || c.parts.any fun p => p.sig ≠ sig then s.reportColl c run true queueFull
  else if digest (upBytes sig.fmt vals) ≠ d.toNat then
    (s.addReg .collDigestFails 0 1).reportColl c run false queueFull
  else
    let c := { c with parts := c.parts ++ [(⟨run, sig, k, child, vals, counts, status⟩ : CollPart)] }
    (s.setColl c).advanceColl c.id queueFull

/-- A chunk of the result fails its digest: it is fetched again from the parent, in the member's second run (R430); a member for which
that is not to be had aborts alone (R431), and goes on asking for it as long as members below need it. [Log DESIGN CHOICE 256] -/
def State.chunkFails (s : State) (c : Coll) (parent k : Nat) (queueFull : Bool) : State :=
  let s := s.addReg .collDigestFails 0 1
  let again (t : State) (c : Coll) : State :=
    let c := { c with refetch := insertRising k c.refetch }
    (t.setColl c).tellColl c parent (.refetch k)
  if c.closed then again s c
  else
    let s := s.noteAbort c
    if c.refetch.contains k || c.run = 2 || s.reg .collRerun = 0 then
      let s := s.failJoined { c with run := if c.refetch.contains k then 2 else c.run } queueFull
      if (treeKids c.n (k % 2) c.rank).isEmpty then s.retireColl c
      else again (s.retireColl c) { c with closed := true, joined := [], contribs := [] }
    else again s c

/-- A chunk of the result arrives from the parent (R425, R427, R430). -/
def State.resultArrives (s : State) (c : Coll) (parent run k : Nat) (vals : List (Nat × Bool)) (d : Dword)
    (queueFull : Bool) : State :=
  let bytes := downBytes c.signature.fmt vals
  if run ≠ c.run || c.sig.isNone || c.results.any fun e => e.1 = k then s
  else if digest bytes ≠ d.toNat then s.chunkFails c parent k queueFull
  else if s.mayRetain c k bytes.length then
    ((s.tellColl c parent (.ack k)).acceptChunk c k vals).settleColl c.id queueFull
  else s.holdChunk (c.members.getD parent 0) c (.down k vals d)

/-- A chunk of either direction arrives. -/
def State.chunkArrives (s : State) (src : Nat) (i : CollId) (run : Nat) (sig : CollSig) (m : CollMsg)
    (queueFull : Bool) : State :=
  s.withColl src i fun t c r =>
    match m with
    | .up k vals counts st d => t.partArrives c r run sig k vals counts st d queueFull
    | .down k vals d => t.resultArrives c r run k vals d queueFull
    | _ => s

/-- COLL_CHUNK_RECEIVE: a chunk of a collective arrives and is checked against its digest (R424, R425). -/
def execCollChunkReceive (q : MailPort) (h : Header) (i : CollId) (run : Fin 3) (sig : CollSig) (m : CollMsg)
    (queueFull : Bool) (s : State) : Res :=
  .next (s.takeColl q h (.coll i run sig m) fun s => s.chunkArrives h.src i run sig m queueFull)

/-- The chunks that wait for room in the retention store are taken up in order, as far as there is room; `n` bounds them (R427). -/
def State.retryHeld (s : State) (queueFull : Bool) : Nat → State
  | 0 => s
  | n + 1 =>
    match s.collHeld with
    | [] => s
    | h :: hs =>
      let rest := { s with collHeld := hs }
      match s.coll h.id, h.msg with
      | some c, .down k vals d =>
        if !s.mayRetain c k (downBytes c.signature.fmt vals).length then s
        else if h.src = s.lnode then
          (((rest.acceptChunk c k vals).sendToken c.id (k % 2)).settleColl c.id queueFull).retryHeld queueFull n
        else (rest.resultArrives c (c.members.idxOf h.src) h.run k vals d queueFull).retryHeld queueFull n
      | _, _ => rest.retryHeld queueFull n

/-- COLL_RETENTION_ACK: a child has a matching digest, which frees its share of the retention store (R427). -/
def execCollRetentionAck (q : MailPort) (h : Header) (i : CollId) (run : Fin 3) (k : Nat) (queueFull : Bool) (s : State) : Res :=
  .next (s.takeColl q h (.coll i run ⟨0, 0, 0, 0, 0, 0⟩ (.ack k)) fun s => s.withRun h.src i run fun t c r =>
    let t := (t.setColl { c with retained := c.retained.filter fun e => e ≠ (k, r) }).sweepColl i
    t.retryHeld queueFull t.collHeld.length)

/-- COLL_COMMIT: the commit token of a tree arrives and goes on; the COLL commits here once it holds what it needs (R425,
R426). -/
def execCollCommit (q : MailPort) (h : Header) (i : CollId) (run : Fin 3) (tree : Fin 2) (status : Nat)
    (counts : List (Nat × Nat)) (queueFull : Bool) (s : State) : Res :=
  .next (s.takeColl q h (.coll i run ⟨0, 0, 0, 0, 0, 0⟩ (.token tree status counts)) fun s =>
    s.withRun h.src i run fun t c _ =>
      if c.tokens.contains tree.val then t
      else
        let c := { c with
          tokens := insertRising tree.val c.tokens
          rootStatus := c.rootStatus ||| status
          rootCounts := c.rootCounts ++ counts.filter fun e => !c.rootCounts.contains e }
        ((t.setColl c).tellColls c (treeKids c.n tree.val c.rank) (.token tree.val status counts)).settleColl i queueFull)

/-- COLL_ABORT: the abort of a run arrives and goes on down, also where no bay has joined yet (R429). -/
def execCollAbort (q : MailPort) (h : Header) (i : CollId) (run : Fin 3) (final : Bool) (queueFull : Bool) (s : State) : Res :=
  .next (s.takeColl q h (.coll i run ⟨0, 0, 0, 0, 0, 0⟩ (.abort final)) fun s =>
    s.withRun h.src i run fun t c _ => t.abortColl c final queueFull)

/-- DIGEST_MISMATCH_REPORT: a root hears of a mismatch and aborts the run at every member (R414, R429). -/
def execDigestMismatchReport (q : MailPort) (h : Header) (i : CollId) (run : Fin 3) (signature : Bool) (queueFull : Bool)
    (s : State) : Res :=
  .next (s.takeColl q h (.coll i run ⟨0, 0, 0, 0, 0, 0⟩ (.report signature)) fun s =>
    s.withRun h.src i run fun t c _ => if c.roots.contains c.rank then t.rootAborts c signature queueFull else t)

/-- CHUNK_REFETCH_REQUEST: a child asks for a chunk again, and it is sent from the retention store (R427, R430). -/
def execChunkRefetchRequest (q : MailPort) (h : Header) (i : CollId) (run : Fin 3) (k : Nat) (s : State) : Res :=
  .next (s.takeColl q h (.coll i run ⟨0, 0, 0, 0, 0, 0⟩ (.refetch k)) fun s => s.withRun h.src i run fun t c r =>
    if c.retained.contains (k, r) then
      let vs := Store.at [] c.results k
      t.tellColl c r (.down k vs (BitVec.ofNat 64 (digest (downBytes c.signature.fmt vs))))
    else t)

/-- COLL_ABANDON: at four times its deadline the bay's oldest COLL is abandoned at this member and its instance released, whether or not
the bay has joined it (R436). -/
def execCollAbandon (b : Fin 256) (queueFull : Bool) (s : State) : Res :=
  let x := s.bay b.val
  match (x.colls ++ x.flights).find? fun f => f.op = opColl with
  | none => .next s
  | some f =>
    let c := s.colls.find? fun c => c.joined.any fun j => j = (b.val, f.serial)
    let i := (c.map Coll.id).getD (f.collId x)
    let s := (s.addReg .collAbandoned 0 1).closeColl i true
    let n := ((s.collMembers (s.collGroup (f.param 0 16))).map fun m => m.1.length).getD 0
    .next (s.failCollAt b.val n 0x81 0 f queueFull)

end Sys2Proof.Machine
end

