-- ==== Sys2Proof/Machine/Power.lean ====
section
/-! DEFINITION. Rails, resets, clocks, power and cooling (R612 to R652), and the requests for Lull, SERVICE and
LOCATION (R30, R38 to R44). -/

namespace Sys2Proof.Machine

/-! Rails and resets. -/

/-- The newest `SEQ` that the mirror holds. [Log DESIGN CHOICE 63] -/
def State.mirrorSeq (s : State) : Nat := (s.mirror.head?.map AuditEntry.seq).getD 0

/-- VIN_AON_APPLIED: the power-on reset (R629). Journals are kept; stack contents, slots, shards and the mirror survive while the
stack rails stayed in range (R524), and the numbering of the audit log goes on from the mirror (R596).
[Log DESIGN CHOICE 63] -/
def execVinAonApplied (s : State) : Res :=
  if s.reg .aonAbsent = 0 then .next s
  else
    let m := s.mirrorSeq
    let s : State := { State.reset with
      pending := s.pending, free := s.free, out := s.out, journal := s.journal
      mem := s.mem, poisonAtoms := s.poisonAtoms, spareMarks := s.spareMarks, mirror := s.mirror, slotA := s.slotA, slotB := s.slotB
      shards := s.shards
      regs := s.regs.filter fun (e : (Reg × Nat) × Nat) => e.1.1.info.domain = .board ∧ e.1.1 ≠ .aonAbsent }
    .next (((s.setReg .auditHead 0 m).setReg .auditMirrorHead 0 m).setReg .auditAcked 0 m)

/-- VIN_AON_LOST: the always-on island, its objects and the audit ring are lost; the mirror is not (R570). -/
def execVinAonLost (s : State) : Res :=
  if s.reg .aonAbsent = 1 then .next s
  else
    let s := (s.losePower).clearDomain .always
    .next ({ s with audit := [] }.setReg .aonAbsent 0 1)

/-- CRYSTAL_STABLE: `XTAL_STATE` becomes 0x01 and the always-on logic moves to MCLK; with VIN_MAIN in range OFF becomes AON
(R38, R613). -/
def execCrystalStable (s : State) : Res :=
  if s.reg .aonAbsent = 1 ∨ s.reg .xtalState = 1 then .next s
  else
    let s := (s.setReg .xtalState 0 1).setReg .mclkRuns 0 1
    let s := if s.isIn stOff && s.reg .vinMainIn = 1 then s.enter stAon else s
    .next ((List.range 48).foldl (fun t k => t.setReg .clkReady k (withBit (t.reg .clkReady k) 1)) s)

/-- CRYSTAL_FAIL_TIMEOUT: `XTAL_STATE` becomes 0x02 (R614). -/
def execCrystalFailTimeout (s : State) : Res :=
  if s.reg .aonAbsent = 1 ∨ s.reg .xtalState ≠ 0 then .next s else .next (s.setReg .xtalState 0 2)

/-- A hung multiplexer of a domain is reset to RC (R620, R621). -/
def State.domainReset (s : State) (k outcome : Nat) : State :=
  let s := s.logError { code := 0x13, severity := 1, outcome := outcome, unitKind := 0x0B, unit := k }
  s.addReg .domainResets 0 1

/-- MCLK_STOP: the switch of the always-on logic to RC hangs and is recovered, every PLL loses its reference, and a
powered node enters FAULTED (R615). [Log DESIGN CHOICE 11; DEDUCED 53] -/
def execMclkStop (s : State) : Res :=
  if s.reg .mclkRuns = 0 then .next s
  else
    let s := s.domainReset 54 0
    let s := (((s.setReg .mclkRuns 0 0).setReg .xtalState 0 0).setReg .mgmtLink 0 0).setReg .mgmtSilent 0 1
    let s := (List.range 48).foldl (fun t k =>
      (t.setReg .clkReady k (t.reg .clkReady k % 2)).setReg .clkMhz k (if t.reg .clkSel k = 0 then t.reg .clkMhz k else 0)) s
    .next (if s.powered then s.enterFaulted else s)

/-- VIN_MAIN_IN_RANGE: OFF becomes AON with VIN_AON present and the crystal stable (R38). -/
def execVinMainInRange (s : State) : Res :=
  let s := s.setReg .vinMainIn 0 1
  .next (if s.isIn stOff && s.reg .aonAbsent = 0 && s.reg .xtalState = 1 then s.enter stAon else s)

/-- PWR_OK_ASSERTED: the straps are latched and AON becomes INIT held in reset (R28, R29, R38). [Log DEDUCED 9] -/
def execPwrOkAsserted (pos : Fin 32) (s : State) : Res :=
  let s := s.setReg .pwrOk 0 1
  if s.isIn stAon || s.isIn stInit then
    let s := (s.setReg .posLatch 0 pos.val).setReg .posStrap 0 pos.val
    let s := s.change .physId 0 (withField (s.reg .physId) 0 5 pos.val)
    .next (if s.isIn stAon then s.holdInReset else s)
  else .next s

/-- PWR_OK_DEASSERTED: the node enters OFF; with its supply gone VIN_MAIN is out of range as well (R636, R647).
[Log DEDUCED 9; PRESUMED 17] -/
def execPwrOkDeasserted (vinMainLost : Bool) (s : State) : Res :=
  let tripped := s.reg .thermTrip = 1
  let s := if vinMainLost then s.setReg .vinMainIn 0 0 else (s.setReg .pwrOk 0 0).setReg .thermTrip 0 0
  if s.isIn stOff then .next s
  else .next (s.losePower.setReg .resetCause 0 (if tripped then 4 else 3))

/-- STACK_RAIL_OUT_OF_RANGE: stack contents and slots are lost; a node not held in reset enters FAULTED (R635).
[Log PRESUMED 25] -/
def execStackRailOutOfRange (_rail : Fin 3) (s : State) : Res :=
  if s.reg .stackRailsIn = 0 then .next s
  else
    let s := s.setReg .stackRailsIn 0 0
    .next (if s.isIn stOff || (s.isIn stInit && s.reg .inReset = 1) then s else s.enterFaulted).loseStacks

/-- STACK_RAILS_IN_RANGE: a node held in INIT for its stack rails goes on (R635). [Log PRESUMED 25] -/
def execStackRailsInRange (s : State) : Res := .next ((s.setReg .stackRailsIn 0 1).tryBeginInit)

/-- An assertion of a reset signal is recognised: always from 10 µs, never below 1 µs, by a free choice between (R630).
[Log DESIGN CHOICE 16] -/
def State.recognised (s : State) (width : Nat) : Bool × State :=
  if width < 1000 then (false, s)
  else if 10000 ≤ width then (true, s)
  else (Config.pulseRecognised s.free, s.draw.2)

/-- COLD_RESET: RST_N is asserted (R629, R630). -/
def execColdReset (width : Nat) (s : State) : Res :=
  let (ok, s) := s.recognised width
  if !ok || s.reg .aonAbsent = 1 then .next s
  else
    let s := s.setFlag .rstHeld 0 0 true
    .next (if s.powered then s.coldReset else s)

/-- WARM_RESET: WARM_RST_N is asserted; it waits for a running fuse pulse, and RST_N goes before it (R40, R629, R630). -/
def execWarmReset (width : Nat) (s : State) : Res :=
  let (ok, s) := s.recognised width
  if !ok || s.reg .aonAbsent = 1 then .next s
  else
    let s := s.setFlag .rstHeld 0 1 true
    .next (if !s.powered then s
      else if s.flag .rstHeld 0 0 then s.coldReset
      else if s.reg .fusePulses ≠ 0 then s.setReg .warmWaiting 0 1
      else s.warmReset)

/-- RESET_AFTER_FUSE_PULSE: the warm reset held back takes effect (R40). [Log DESIGN CHOICE 135] -/
def execResetAfterFusePulse (s : State) : Res :=
  if s.reg .warmWaiting = 1 ∧ s.powered then
    let s := (s.setReg .warmWaiting 0 0).setReg .fusePulses 0 0
    .next s.warmReset.tryBeginInit
  else .next s

/-- RESET_RELEASED: INIT begins at stage 1 (R630, R631). -/
def execResetReleased (s : State) : Res := .next ((s.setReg .rstHeld 0 0).tryBeginInit)

/-! Clock sources. -/

/-- A clock domain with a source multiplexer (R616, R651). -/
def clockDomain (k : Nat) : Bool := k < 11 || (16 ≤ k && k < 48)

/-- PLL_A_LOCK_TIMEOUT: PLL B is selected in INIT stage 1; if it does not lock either, the stage fails (R617).
[Log DEDUCED 12] -/
def execPllALockTimeout (k : Fin 48) (bLocks : Bool) (s : State) : Res :=
  if s.isIn stInit && s.reg .initStage = 1 && clockDomain k then
    let r := withoutBit (s.reg .clkReady k) 2
    if bLocks then
      let s := (s.setReg .clkReady k (withBit r 3)).change .clkSel k 3
      .next ((s.change .clkPllSpare k 1).setReg .clkMhz k (s.reg .pllMhz k))
    else .next ((s.setReg .clkReady k (withoutBit r 3)).setReg .pllFailed k 1)
  else .next s

/-- PLL_LOSS_OF_LOCK: the active PLL's output stops, and a switch to RC is requested that waits for the stopped clock
(R620, R623). -/
def execPllLossOfLock (k : Fin 48) (s : State) : Res :=
  let sel := s.reg .clkSel k
  if clockDomain k && 2 ≤ sel && bit (s.reg .clkReady k) sel then
    let s := s.setReg .clkReady k (withoutBit (s.reg .clkReady k) sel)
    let s := s.setReg .clkMhz k 0
    .next (s.setReg .clkSwitching k 1)
  else .next s

/-- The PLL that a domain reset selects: the active one if it is locked, else the spare (R621). -/
def State.pllAfterReset (s : State) (k : Nat) (spareLocked : Bool) : Option Nat :=
  let active := if s.reg .clkPllSpare k = 1 then 3 else 2
  let spare := 5 - active
  if bit (s.reg .clkReady k) active then some active
  else if spareLocked || bit (s.reg .clkReady k) spare then some spare
  else none

/-- CLOCK_MUX_HANG: the watchdog resets the clock unit of a domain that has been switching for 20 µs; the domain runs on
RC, then a native switch to a locked PLL starts (R620, R621, R623). -/
def execClockMuxHang (k : Fin 48) (spareLocked : Bool) (s : State) : Res :=
  if s.reg .clkSwitching k = 0 then .next s
  else
    let pick := s.pllAfterReset k spareLocked
    let spare := if s.reg .clkPllSpare k = 1 then 2 else 3
    let s := s.domainReset k (if pick = some spare then 2 else 0)
    let s := (s.change .clkSel k 0).setReg .clkMhz k 25
    match pick with
    | none => .next (s.setReg .clkSwitching k 0)
    | some p =>
      let s := s.setReg .clkReady k (withBit (s.reg .clkReady k) p)
      let s := if p = spare then s.change .clkPllSpare k 1 else s
      .next (s.setReg .clkSwitching k (1 + p))

/-- SPARE_PLL_LOCK_TIMEOUT: no PLL of the domain is locked 50 µs after the domain reset; it stays on RC and the node
enters FAULTED (R623). -/
def execSparePllLockTimeout (k : Fin 48) (s : State) : Res :=
  if s.powered && clockDomain k && s.reg .clkSel k = 0 && s.reg .clkSwitching k = 0 && s.reg .clkReady k < 4 &&
      s.reg .inReset = 0 && s.reg .initStage ≠ 1 then
    .next s.enterFaulted
  else .next s

/-- A write of `CLK_SEL` that has passed its checks starts a native switch (R619). [Log DESIGN CHOICE 13] -/
def startSwitch (k v : Nat) (s : State) : State :=
  s.setReg .clkSwitching k (1 + v)

/-- CLK_SEL_WRITE (R619, R624). -/
def execClkSelWrite (q : Requester) (k : Fin 48) (v : Byte) (s : State) : Res :=
  .next (s.writeRequest q (Reg.clkSel.objAt k) [v] fun _ _ => startSwitch k v.toNat)

/-- READY_FLAG_SWITCH: the write of `CLK_SEL` in compatibility mode is checked against `CLK_READY` first (R625). -/
def execReadyFlagSwitch (q : Requester) (k : Fin 48) (v : Byte) (s : State) : Res :=
  .next (s.writeRequest q (Reg.clkSel.objAt k) [v] fun _ _ => startSwitch k v.toNat)

/-- CLOCK_SWITCH_COMPLETE: with both clocks running, the multiplexer changes its output (R619). -/
def execClockSwitchComplete (k : Fin 48) (s : State) : Res :=
  let w := s.reg .clkSwitching k
  if w ≠ 0 && bit (s.reg .clkReady k) (w - 1) && s.reg .clkMhz k ≠ 0 then
    let s := s.setReg .clkSwitching k 0
    let s := s.change .clkSel k (w - 1)
    .next (s.setReg .clkMhz k (if 3 ≤ w then s.reg .pllMhz k else 25))
  else .next s

/-! Power (R637 to R642). -/

/-- Rate to which a domain returns: the caps of R637, or the fixed rates of R458. -/
def State.maxMhz (s : State) (k : Nat) : Nat :=
  if k < 8 then (if s.reg .fixedTiming = 1 then 1600 else s.reg .cclkMax)
  else if k < 10 then (if s.reg .fixedTiming = 1 then 2000 else s.reg .pclkMax)
  else s.reg .pllMhz k

/-- A domain's PLL takes a rate (R618). -/
def State.setRate (s : State) (k v : Nat) : State :=
  let s := s.setReg .pllMhz k v
  if 2 ≤ s.reg .clkSel k && s.reg .clkMhz k ≠ 0 then s.setReg .clkMhz k v else s

/-- Some CCLK or PCLK runs below its maximum (R641). -/
def State.anyBelowMax (s : State) : Bool := (List.range 10).any fun k => s.reg .pllMhz k < s.maxMhz k

/-- The time below maximum is counted up to now (R651), and the episode ends once every clock is back (R641). -/
def State.countThrottle (s : State) : State :=
  let f := s.reg .throttleFrom
  let s := if f = 0 then s else s.addReg .throttleNs 0 (s.now + 1 - f)
  if s.anyBelowMax then s.setReg .throttleFrom 0 (s.now + 1)
  else
    let s := s.setReg .throttleFrom 0 0
    if s.reg .throttleState = 0 then s.setReg .throttleRecord 0 0 else s

/-- One step of 25 MHz down, at most one for a domain between two power samples, which come each 100 µs (R638, R639). -/
def State.stepDown (s : State) (k floor : Nat) : State :=
  if s.reg .pllMhz k ≤ floor ∨ s.reg .steppedDown k = 1 then s
  else (s.setRate k (max floor (s.reg .pllMhz k - 25))).setReg .steppedDown k 1

/-- One THERMAL_LIMIT record for a throttling episode, with the cause of its first step (R641). -/
def State.openEpisode (s : State) (cause : Nat) : State :=
  if s.reg .throttleRecord ≠ 0 then s
  else
    let s := s.logError { code := 0x11, severity := 0, detail := cause }
    s.setReg .throttleRecord 0 (s.reg .errorHead)

/-- The package asks for Lull as though `STATE_REQUEST` = 0x05 had been written (R38, R460, R646). -/
def State.requestLull (s : State) : State :=
  if (s.isIn stRun || s.isIn stDegraded) && s.reg .jobRunning = 1 && !s.inTransition then s.change .stateRequest 0 5
  else s

/-- Fixed-timing mode is in force (R458). -/
def State.fixedTimingOn (s : State) : Bool := s.reg .fixedTiming = 1

/-- In fixed-timing mode a clock is held instead of lowered: THERMAL_LIMIT is raised, recorded once for the episode, and
`FT_THERMAL_POLICY` applies each time (R460, R641, R642). -/
def State.holdClocks (s : State) (cause : Nat) : State :=
  let s := (s.openEpisode cause).raise .alertCause 6
  if s.reg .ftThermalPolicy = 0 then s.requestLull else s.change .fixedTiming 0 0

/-- The clocks step down for a power cause: CCLK of all compute dies together, then PCLK (R639, R642). -/
def State.throttlePower (s : State) (cause : Nat) : State :=
  if s.fixedTimingOn then s.holdClocks cause
  else
    let s := s.openEpisode cause
    if (List.range 8).all fun k => s.reg .pllMhz k ≤ 800 then
      let s := [8, 9].foldl (fun t k => t.stepDown k 1000) s
      if [8, 9].all fun k => s.reg .pllMhz k ≤ 1000 then s.setFlag .throttleState 0 2 true else s
    else (List.range 8).foldl (fun t k => t.stepDown k 800) s

/-- The clock domains that a throttled element lowers (R645). -/
def elementClocks (e : Nat) : List Nat :=
  if e < 8 then [e] else if e < 10 then [e] else if e < 14 then [e - 10, e - 6] else [(e - 14) / 4]

/-- Floor of a clock domain (R639). -/
def clockFloor (k : Nat) : Nat := if k < 8 then 800 else 1000

/-- The clocks of one hot element step down, and its stay at the floor is timed (R645, R646). -/
def State.throttleElement (s : State) (e : Nat) : State :=
  if s.fixedTimingOn then s.holdClocks 1
  else
    let s := s.openEpisode 1
    let s := (elementClocks e).foldl (fun t k => t.stepDown k (clockFloor k)) s
    if (elementClocks e).all fun k => s.reg .pllMhz k ≤ clockFloor k then
      let s := s.setFlag .throttleState 0 2 true
      if s.reg .floorAt e = 0 then s.setReg .floorAt e (s.now + 1) else s
    else s

/-- The sensors of an element (R643, R645). -/
def elementSensors (e : Nat) : List Nat :=
  if e < 8 then (List.range 8).map (8 * e + ·)
  else if e < 10 then (List.range 8).map (64 + 8 * (e - 8) + ·)
  else if e < 14 then (List.range 4).map (80 + 4 * (e - 10) + ·)
  else [96 + (e - 14)]

/-- A sensor's reading in 1/16 °C; none when it is excluded (R644, R651). -/
def State.temp (s : State) (n : Nat) : Option Int :=
  if s.reg .sensorExcluded n = 1 then none else some (signed 16 (s.reg .temps n))

/-- The hottest usable sensor of an element. -/
def State.hottest (s : State) (e : Nat) : Option Int :=
  ((elementSensors e).filterMap s.temp).foldl (fun m t => some (match m with | none => t | some x => max x t)) none

/-- Coolant flow in use, in 0.1 L/min: the board's figure of the last 2 s, else the estimate at 1,500 W and 1 K or more,
else none (R649). [Log DESIGN CHOICE 15] -/
def State.coolFlowNow (s : State) : Nat :=
  let at' := s.reg .coolFlowAt
  if at' ≠ 0 ∧ s.reg .coolFlowBoard ≠ 0 ∧ s.now + 1 ≤ at' + 2000000000 then s.reg .coolFlowBoard
  else
    match s.temp 128, s.temp 129 with
    | some i, some o =>
      let dt := o - i
      let p := s.reg .pkgPower
      if 1500 ≤ p ∧ 16 ≤ dt then p * 600 * 16 / (3980 * dt.toNat) else 0
    | _, _ => 0

/-- The coolant cap in mW (R650). -/
def State.coolantCap (s : State) : Nat :=
  let f := s.reg .coolFlow
  let byFlow : Nat := if f = 0 then 7700000 else 7700000 * min 140 f / 140
  match s.temp 128 with
  | some t => ((byFlow : Int) - 350000 * max 0 (t - 640) / 16).toNat
  | none => byFlow

/-- A coolant condition of R650 holds now. -/
def State.coolantBad (s : State) : Bool :=
  let f := s.reg .coolFlow
  (f ≠ 0 && decide (f < 140)) ||
    (match s.temp 128 with | some t => decide (640 < t) || decide (t < 240) | none => false)

/-- The lowest cap in force in mW, and its cause: 2 `POWER_CAP`, 5 coolant (R639, R641). -/
def State.powerLimit (s : State) : Nat × Nat :=
  let cap := s.reg .powerCap * 1000
  if s.reg .coolantState = 1 && s.coolantCap < cap then (s.coolantCap, 5) else (cap, 2)

/-- POWER_SAMPLE: the 100 µs measurement of VIN_MAIN (mV, mA) and of the stacks (mW), compared with the caps and the
current limit; hot elements take their further steps (R638, R639). [Log DESIGN CHOICE 22] -/
def execPowerSample (mv ma stackMw : Nat) (s : State) : Res :=
  if !s.powered || s.reg .inReset = 1 || s.reg .aonAbsent = 1 then .next s
  else
    let p := mv * ma / 1000 + stackMw
    let n := s.reg .powerSamples
    let s := ((s.setReg .powerRing (n % 10) p).setReg .powerSamples 0 (n + 1)).clearReg .steppedDown
    let sum := ((List.range 10).map fun i => s.reg .powerRing i).foldl (· + ·) 0
    let s := s.setReg .pkgPower 0 (sum / min (n + 1) 10 / 1000)
    let s := (s.setReg .vinMainMv 0 mv).setReg .vinMainA 0 (ma / 1000)
    let s := s.setReg .coolFlow 0 s.coolFlowNow
    let (cap, cause) := s.powerLimit
    let overCap := decide (cap < p)
    let overCurrent := decide (500000 < ma)
    let st := s.reg .throttleState
    let st := withField st 1 1 (ofBool (overCap && cause = 2))
    let st := withField st 3 1 (ofBool overCurrent)
    let st := withField st 4 1 (ofBool (overCap && cause = 5))
    let s := s.setReg .throttleState 0 st
    let s := if overCap then s.throttlePower cause else if overCurrent then s.throttlePower 4 else s
    let s := ((List.range 46).filter fun e => s.reg .elementHot e = 1).foldl (fun t e => t.throttleElement e) s
    .next s.countThrottle

/-- THROTTLE_STEP_UP: with 3% of margin below the cap and less than 480 A, each clock that no hot element holds rises by
one step toward its maximum (R639). [Log DEDUCED 14] -/
def execThrottleStepUp (s : State) : Res :=
  let (cap, _) := s.powerLimit
  if s.reg .pkgPower * 1000 * 100 ≤ cap * 97 ∧ s.reg .vinMainA < 480 ∧ !s.fixedTimingOn then
    let held := ((List.range 46).filter fun e => s.reg .elementHot e = 1 || s.reg .thermalFloor e = 1).flatMap elementClocks
    let s := (List.range 10).foldl (fun t k =>
      if held.contains k then t else t.setRate k (max (t.reg .pllMhz k) (min (t.maxMhz k) (t.reg .pllMhz k + 25)))) s
    .next (s.setReg .throttleState 0 (withField (s.reg .throttleState) 2 1 0)).countThrottle
  else .next s

/-- ARRAY_THROTTLE_START: above 520 A every array issues at half rate (R640); in fixed-timing mode it raises
THERMAL_LIMIT with cause 0x04 (R642, R481). -/
def execArrayThrottleStart (ma : Nat) (s : State) : Res :=
  if 520000 < ma ∧ s.powered ∧ s.reg .arrayThrottle = 0 then
    let s := s.setReg .arrayThrottle 0 1
    .next (if s.fixedTimingOn then (s.logError { code := 0x11, severity := 0, detail := 4 }).raise .alertCause 6 else s)
  else .next s

/-- ARRAY_THROTTLE_END: the current has fallen below 500 A, or 1 ms has passed, and the array throttle ends (R640). -/
def execArrayThrottleEnd (s : State) : Res := .next (s.setReg .arrayThrottle 0 0)

/-! Temperature (R643 to R647). -/

/-- A sensor out of range or stopped is excluded and recorded once (R644). -/
def State.excludeSensor (s : State) (n : Nat) : State :=
  if s.reg .sensorExcluded n = 1 then s
  else
    let s := (s.setReg .sensorExcluded n 1).setReg .temps n 0x8000
    s.logError { code := 0x18, severity := 1, unitKind := 0x0C, unit := n }

/-- One sensor's reading is taken (R643, R644). -/
def State.takeReading (s : State) (n : Nat) (r : Option Int) : State :=
  if s.reg .sensorExcluded n = 1 then s
  else
    match r with
    | none => s.excludeSensor n
    | some t => if t < -640 ∨ 2400 < t then s.excludeSensor n else s.setReg .temps n (unsigned 16 t)

/-- A die is left with no usable sensor: it runs at the floor until cold reset (R644); in fixed-timing mode its clocks are
held instead, once for the mode (R460, R642). -/
def State.floorDie (s : State) (e : Nat) : State :=
  if s.reg .thermalFloor e = 1 then s
  else if s.fixedTimingOn then
    if s.reg .thermalFloor e = 2 then s else (s.setReg .thermalFloor e 2).holdClocks 1
  else (elementClocks e).foldl (fun t k => t.setRate k (min (t.reg .pllMhz k) (clockFloor k))) (s.setReg .thermalFloor e 1)

/-- An element is judged against `TJ_THROTTLE`: throttled at it, released 2 K below it (R645). A die without a usable
sensor goes to the floor (R644). -/
def State.judgeElement (s : State) (e : Nat) : State :=
  let tj : Int := s.reg .tjThrottle * 16
  match s.hottest e with
  | none => if e < 14 then s.floorDie e else s
  | some t =>
    if s.reg .elementHot e = 0 then
      if tj ≤ t then (s.setReg .elementHot e 1).throttleElement e else s
    else if t ≤ tj - 32 then (s.setReg .elementHot e 0).setReg .floorAt e 0
    else s

/-- THERMAL_SAMPLE: the sensor hub reads every sensor; readings in 1/16 °C, none for a sensor that stopped updating
(R643 to R646). [Log DESIGN CHOICE 22] -/
def execThermalSample (readings : List (Option Int)) (s : State) : Res :=
  if !s.powered || s.reg .inReset = 1 || !s.flag .periphEn 0 5 then .next s
  else
    let s := (List.range 130).foldl (fun t n => t.takeReading n ((readings.getD n none))) s
    let s := s.setReg .coolFlow 0 s.coolFlowNow
    let s := (List.range 46).foldl (fun t e => t.judgeElement e) s
    let hot := (List.range 46).any fun e => s.reg .elementHot e = 1
    .next (s.setReg .throttleState 0 (withField (s.reg .throttleState) 0 1 (ofBool hot))).countThrottle

/-- THERMAL_FLOOR_TIMEOUT: an element at the clock floor stays at 3 K or more above the threshold, so DEADLINE_MISSED is
raised and Lull is requested (R646). -/
def execThermalFloorTimeout (element : Fin 46) (s : State) : Res :=
  let e := element.val
  let tj : Int := s.reg .tjThrottle * 16
  match s.hottest e with
  | some t =>
    if s.reg .elementHot e = 1 ∧ s.reg .floorAt e ≠ 0 ∧ tj + 48 ≤ t then
      let n := ((elementSensors e).find? fun n => s.temp n = some t).getD 0
      let s := s.logError { code := 0x0C, severity := 5, unitKind := 0x0C, unit := n }
      .next s.requestLull
    else .next s
  | none => .next s

/-- HARDWARE_THERMAL_TRIP: THERM_TRIP_N is latched, the compute and processor dies stop and are switched off, and the
node enters FAULTED (R647). [Log PRESUMED 17] -/
def execHardwareThermalTrip (sensor : Fin 128) (s : State) : Res :=
  if !s.powered then .next s
  else
    let s := ((s.setReg .thermTrip 0 1).setReg .lastTrip 0 sensor.val).setReg .resetCause 0 4
    let s := (List.range 10).foldl (fun t k => t.setReg .clkMhz k 0) s
    .next (s.setReg .regulatorsOff 0 1).enterFaulted

/-! Coolant (R648 to R650). -/

/-- COOLANT_LOW: a coolant condition has held for 1 s; the alert is set and the coolant cap applies (R650). -/
def execCoolantLow (s : State) : Res :=
  let s := s.setReg .coolFlow 0 s.coolFlowNow
  if s.reg .coolantState = 0 && s.coolantBad && s.powered then
    let s := s.setReg .coolantState 0 1
    let s := s.logError { code := 0x12, severity := 2, outcome := 5, unitKind := 0x0C, unit := 128 }
    .next (s.raise .alertCause 4)
  else .next s

/-- COOLANT_CLEAR: the condition has been absent for 10 s; its clearing is logged (R650). -/
def execCoolantClear (s : State) : Res :=
  let s := s.setReg .coolFlow 0 s.coolFlowNow
  if s.reg .coolantState = 1 && !s.coolantBad then
    let t := s.setReg .coolantState 0 0
    .next (t.auditInternal (Reg.coolantState.objAt 0) 0 (s.regBytes .coolantState 0) (t.regBytes .coolantState 0))
  else .next s

/-! Requests for Lull and SERVICE, and LOCATION. -/

/-- STATE_REQUEST_LULL: a write of 0x05 asks for Lull at the next time-step boundary (R38, R41). -/
def execStateRequestLull (q : Requester) (s : State) : Res :=
  .next (s.writeRequest q (Reg.stateRequest.objAt 0) [5] fun _ _ s => s)

/-- LULL_DEADLINE_EXPIRY: the request fails, DEADLINE_MISSED is raised, and the state stays (R39). -/
def execLullDeadlineExpiry (s : State) : Res :=
  if s.reg .stateRequest = 5 && (s.isIn stRun || s.isIn stDegraded) then
    let s := s.logError { code := 0x0C, severity := 5 }
    .next (s.change .stateRequest 0 0)
  else .next s

/-- What a write of `SERVICE_REQUEST` does: 1 enters SERVICE, with its link lanes idle; 0 in SERVICE enters INIT as after a warm reset (R38, R42, R48).
[Log DEDUCED 18] -/
def serviceEffect (v : Nat) (s : State) : State :=
  if v = 1 then (s.enter stService).idleLinks
  else if s.isIn stService then s.warmReset.tryBeginInit
  else s

/-- SERVICE_REQUEST_ENTER (R38). -/
def execServiceRequestEnter (q : Requester) (s : State) : Res :=
  .next (s.writeRequest q (Reg.serviceRequest.objAt 0) [1] fun _ _ => serviceEffect 1)

/-- SERVICE_REQUEST_EXIT (R42). [Log DEDUCED 18] -/
def execServiceRequestExit (q : Requester) (s : State) : Res :=
  .next (s.writeRequest q (Reg.serviceRequest.objAt 0) [0] fun _ _ => serviceEffect 0)

/-- A write of `LOCATION` keeps bits [22:5], sets `LOC_SET` and completes the physical identifier; an INIT that waits for it
goes on to stage 6 (R28, R30). [Log DESIGN CHOICE 34] -/
def locationEffect (s : State) : State :=
  let fields := field (s.reg .location) 5 18
  let s := s.setReg .location 0 (fields * 32 + 2 ^ 31)
  let s := s.change .physId 0 (fields * 32 + s.reg .posLatch)
  if s.reg .stage5Waits = 1 then ((s.setReg .stage5Waits 0 0).setReg .stageStarted 0 5).setReg .initStage 0 6 else s

/-- LOCATION_WRITE (R30). -/
def execLocationWrite (q : Requester) (v : Word) (s : State) : Res :=
  .next (s.writeRequest q (Reg.location.objAt 0) (leBytes 4 v.toNat) fun _ _ => locationEffect)

end Sys2Proof.Machine
end

