-- ==== Sys2Proof/Machine/Sequencer.lean ====
section
/-! DEFINITION. The sequencer: issue, start conditions, completion, deadlines, branches and loops (R197 to R241). -/

namespace Sys2Proof.Machine

/-! Issue (R205, R207). -/

/-- A line of 128 B joins a cache of at most `n` lines, newest first. [Log DESIGN CHOICE 75] -/
def cacheLine (n line v : Nat) (c : List (Nat × Nat)) : List (Nat × Nat) := ((line, v) :: c).take n

/-- Tables that this bay's bays must keep level with while Lull is asked for: LAST entries completed at the bay that is
furthest (R38). -/
def State.mostLasts (s : State) : Nat :=
  (s.bays.filter fun e => e.2.present && s.tableState e.1 ≠ tsEnded).foldl (fun m e => max m e.2.lasts) 0

/-- The bay stands at the boundary at which Lull is to be entered (R38). -/
def State.lullStop (s : State) (x : Bay) : Bool :=
  s.reg .stateRequest = 5 && x.atLast && decide (s.mostLasts ≤ x.lasts)

/-- The table window is discarded when the entry completes, so that what follows it is read after that (R205, R288). -/
def Flight.dropsWindow (f : Flight) : Bool := f.last || (f.op = opFence && f.param 3 1 = 1)

/-- The bay may issue its next entry (R205, R207, R237). [Log DEDUCED 66; DESIGN CHOICE 86] -/
def State.mayIssue (s : State) (b : Nat) (x : Bay) : Bool :=
  s.tablesRun && x.present && x.head.isNone && x.known && x.preempt = 0 && x.sparing = 0 && !x.parked &&
    (s.tableState b = tsRunning || s.tableState b = tsWaiting) && decide (x.flights.length < 4) &&
    !(x.run.any SpecRun.discarded) && !(x.flights.any Flight.dropsWindow) && !s.lullStop x

/-- An entry as it is issued. -/
def Bay.newFlight (x : Bay) (word now : Nat) : Flight where
  serial := x.serial
  table := x.table
  index := x.index
  depth := x.stack.length
  word := word
  iters := (List.range 8).map x.iteration
  ordinal := 0
  reads := []
  writes := []
  uses := []
  sets := []
  issuedAt := now
  startAt := now
  limit := 0
  stopped := 0
  scales := []
  areas := []
  arrival := 0
  executed := false
  phase := 0
  spec := false
  retry := false
  result := 0
  status := 0
  detail := 0
  rflags := 0
  halts := false
  replies := []
  plan := []
  after := []
  elems := 0

/-- The line of a bay's table window that holds an address, filled from memory on a miss (R205).
[Log DESIGN CHOICE 75] -/
def State.fillWindow (s : State) (b addr : Nat) : State :=
  let line := addr / 128 * 128
  let x := s.bay b
  if (x.window.lookup line).isSome then s
  else (s.setBay b { x with window := cacheLine 256 line (s.load line 128) x.window }).addReg .windowMisses 0 1

/-- The line of a bay's descriptor cache that holds a descriptor (R205). [Log DESIGN CHOICE 75] -/
def State.fillDesc (s : State) (b : Nat) (addr : Option Nat) : State :=
  match addr with
  | none => s
  | some a =>
    let line := a / 128 * 128
    let x := s.bay b
    if (x.descs.lookup line).isSome then s
    else (s.setBay b { x with descs := cacheLine 1024 line (s.load line 128) x.descs }).addReg .windowMisses 0 1

/-- ENTRY_ISSUE: the next entry of the bay's table is read from the window and issued; from then on it waits to start
(R205, R207). A poisoned line ends it (R301). [Log DEDUCED 66] -/
def execEntryIssue (b : Fin 256) (s : State) : Res :=
  let x := s.bay b.val
  if !s.mayIssue b.val x then .next s
  else
    let a := x.table + 32 * x.index
    let line := a / 128 * 128
    let s := (s.fillWindow b.val a).addReg .stepsIssued 0 1
    let x := s.bay b.val
    let word := field ((x.window.lookup line).getD 0) (8 * (a - line)) 256
    let f := x.newFlight word s.now
    let s := s.setBay b.val { x with head := some f, atLast := false }
    if s.poisoned line (line + 128) then
      .next ((s.emitRecord b.val { f with result := 7 } false).haltTable b.val none)
    else .next s

/-! What an entry touches (R207). -/

/-- Reductions of an entry: a VRED, or a VOP with RED (R167, R216). -/
def Flight.reduces (f : Flight) : Bool := f.op = opVred || (f.op = opVop && f.param 20 1 = 1 && !vopPredicate (f.param 0 8))

/-- Operands that an entry reads, and those that it writes (R206). -/
def touched (f : Flight) (o : Operands) : List Operand × List Operand :=
  if f.op = opScat then ([o.a, o.b], [o.d])
  else if f.op = opMma then ([o.a, o.b, o.x] ++ (if f.param 40 2 = 2 && f.param 42 1 = 1 then [o.d] else []), [o.d])
  else if f.op = opVop && f.param 0 8 = 4 then ([o.a, o.b, o.d], [o.d])
  else ([o.a, o.b], [o.d])

/-- The statistics selection of an entry's mode set (R215 to R220). [Log DESIGN CHOICE 217] -/
def State.selection (s : State) (f : Flight) : Nat :=
  s.reg .stats (if f.op = opMma then f.param 32 4 else if f.op = opVop then f.param 16 4 else if f.op = opVred then f.param 17 4
    else if f.op = opColl then f.param 24 4 else f.param 4 4)

/-- The scale areas that a TRANS, VOP, VRED, MMA or HIST reads or merges into, that a COLL merges into, or that a HIST writes (R192,
R193, R434). -/
def State.areasOf (s : State) (f : Flight) (o : Operands) : List Nat :=
  let read (p : Operand) : List Nat := (p.desc?.toList.filter fun d => d.block.isSome).map Desc.scale
  let merged (p : Operand) : List Nat := p.desc?.toList.map Desc.scale
  let areas :=
    if f.op = opHist then
      let fn := f.param 0 3
      if fn = 2 then merged o.a
      else if fn = 3 then merged o.a ++ merged o.d
      else if fn = 4 then read o.a ++ (if s.selection f = 0 then [] else merged o.d)
      else merged o.d
    else if f.op = opMma ∨ f.op = opVop ∨ f.op = opVred ∨ f.op = opTrans then
      read o.a ++ read o.b ++ read o.d ++ read o.x ++ (if s.selection f = 0 then [] else merged o.d)
    else if f.op = opColl then (if s.selection f = 0 then [] else merged o.d)
    else []
  areas.filter fun a => a ≠ 0

/-- Ranges, identities and scale areas of an entry (R193, R207). [Log DEDUCED 79] -/
def prepare (s : State) (x : Bay) (f : Flight) (o : Operands) : Prep × List Nat :=
  let (rs, ws) := touched f o
  let pred :=
    if f.op = opVop ∨ f.op = opVred then
      [idPred (f.param 8 3)] ++ (if f.op = opVop then [idPred (f.param 52 3)] else [])
    else []
  let thr := if f.reduces then [idSlot (if f.op = opVred then f.param 13 4 else f.param 28 4)] else []
  let pset := if f.op = opVop && (vopCompare (f.param 0 8) || vopPredicate (f.param 0 8)) then [idPred (f.param 13 3)] else []
  let rslot := if f.op = opVop && f.reduces then [idSlot (f.param 32 4)] else []
  let stage :=
    if f.op = opVop ∨ f.op = opVred then
      (if (rs ++ ws).any Operand.isMem then (stagingTiles (rs ++ ws)).map idTile else [])
    else if f.op = opGath ∨ f.op = opScat then [idTile 2, idTile 3]
    else []
  let flags := if f.reduces then [idFlags] else []
  let cnt := s.countVector x f
  let writes :=
    match f.op = opHist && f.param 0 3 = 2, o.d with
    | true, .tensor d => [(d.addr, d.addr + 640)]
    | _, _ => ws.flatMap Operand.ranges
  let cntRange := if cnt = 0 then [] else
    [(cnt - 1, cnt - 1 + 4 * ((s.collMembers (s.collGroup (f.param 0 16))).map fun m => m.1.length).getD 0)]
  let scales :=
    if f.op = opMma then
      (if f.param 40 2 = 2 then (o.x.desc?.toList ++ o.b.desc?.toList) else (o.a.desc?.toList ++ o.b.desc?.toList))
    else []
  ({ reads := rs.flatMap Operand.ranges
     writes := writes ++ cntRange
     uses := (rs.flatMap Operand.ids) ++ pred ++ thr ++ (if f.testsFlags then [idFlags] else [])
     sets := (ws.flatMap Operand.ids) ++ pset ++ rslot ++ stage ++ flags
     scales :=
      if f.op = opColl then
        let raw (h : Nat) : Nat := match s.descAddr x f.iters h with
          | some a => s.descRaw x a
          | none => 0
        [raw f.dst, cnt, raw f.srcA, if f.srcA / 2 ^ 24 = 0xFF then (x.model.map fun m => s.roster m 8 8 + 1).getD 0 else 0]
      else s.coarseBits scales },
    s.areasOf f o)

/-- An entry must wait for an earlier one of its bay (R207). -/
def conflicts (p : Prep) (g : Flight) : Bool :=
  rangesMeet p.reads g.writes || rangesMeet p.writes g.reads || rangesMeet p.writes g.writes ||
    p.uses.any g.sets.contains || p.sets.any g.sets.contains || p.sets.any g.uses.contains

/-- A COLL of the bay that has not committed holds the entry back: it reads the result without SPEC (R232), or writes the
sources (R428). -/
def gatedBy (f : Flight) (p : Prep) (c : Flight) : Bool :=
  (!f.isSpec && rangesMeet p.reads c.writes) || rangesMeet p.writes c.reads

/-! Checks before the start (R214, R304). -/

/-- A local tensor's reach, by the operation: the bytes that the entry may touch (R304). -/
def State.reachOk (s : State) (f : Flight) (o : Operands) : Bool :=
  let (rs, ws) := touched f o
  let ok (dest : Bool) (p : Operand) : Bool := match p.desc? with
    | some d => s.inWindow d dest
    | none => true
  if f.op = opGath then ok false o.b && ok true o.d
  else if f.op = opScat then ok false o.a && ok false o.b
  else if f.op = opMcast then ok false o.a
  else if f.op = opWait then
    match o.a.desc? with
    | some d => s.reaches d.addr (d.addr + 8)
    | none => true
  else if f.op = opHist && f.param 0 3 = 2 then
    ok false o.a && (match o.d.desc? with | some d => s.storable d.addr (d.addr + 640) | none => true)
  else rs.all (ok false) && ws.all (ok true)

/-- Checks of a WAIT (R221). -/
def checkWait (x : Bay) (f : Flight) (o : Operands) : Nat :=
  if f.param 0 4 = 1 then
    match o.a with
    | .tensor d => if d.remote then 0x0D else 0
    | .tile _ => 7
    | _ => 2
  else if f.param 0 4 = 3 then (if Store.at 0 x.lastColl (f.param 16 16) = 0 then 0x0E else 0)
  else 0

/-- The checks of an operation on its operands: 0 or a detail code (R214). [Log DEDUCED 79] -/
def State.opCheck (s : State) (b : Nat) (x : Bay) (f : Flight) (o : Operands) : Nat :=
  let c :=
    if f.op = opMma then s.checkMma f o
    else if f.op = opVop then checkVop x f o
    else if f.op = opVred then checkVred x f o
    else if f.op = opXfer then checkXfer x o
    else if f.op = opGath ∨ f.op = opScat then s.checkGs f o
    else if f.op = opRstore then s.checkRstore f o
    else if f.op = opRacc then s.checkRacc f o
    else if f.op = opMcast then s.checkMcast f o
    else if f.op = opTrans then s.checkTrans f o
    else if f.op = opHist then checkHist f o
    else if f.op = opColl then s.checkColl b x f o
    else if f.op = opWait then checkWait x f o
    else if f.op = opModel then (if s.modelState (f.param 0 16) = 0 then 0x0A else 0)
    else if f.op = opDigest then checkDigest o
    else 0
  if c ≠ 0 then c else if s.reachOk f o then 0 else 0x0D

/-! Start conditions (R207, R232, R233, R428, R437, R439, R470). -/

/-- The entry starts only after every earlier entry of its bay has completed (R206). [Log DEDUCED 68] -/
def Flight.barrier (f : Flight) : Bool := opBarrier f.op || f.last || (f.op = opBr && f.testsFlags)

/-- A later entry does not start while this one is in flight (R199, R206, R207). [Log DEDUCED 68] -/
def Flight.holdsLater (f : Flight) : Bool := f.hold || f.testsFlags || opBarrier f.op || f.last

/-- The unit of an entry is still taken by an earlier one. [Log DEDUCED 82, 84] -/
def unitTaken (f g : Flight) : Bool :=
  unitOf f.op ≠ 0 && unitOf f.op = unitOf g.op && !g.executed && !(g.op = opColl && g.phase = 1)

/-- A LAST entry waits for the partner's digests (R470). [Log DEDUCED 69] -/
def State.lagHold (s : State) (x : Bay) (f : Flight) : Bool :=
  f.last && s.reg .xwState = 2 && decide (s.reg .xwReceived + s.reg .xwLag < x.lasts + 1)

/-- The start conditions that need no look at the operands hold, apart from the unit's being free. [Log DEDUCED 68, 69, 83] -/
def State.mayPreload (s : State) (b : Nat) (x : Bay) (f : Flight) : Bool :=
  s.tablesRun && x.sparing = 0 && !x.parked && (s.tableState b = tsRunning || s.tableState b = tsWaiting) &&
    !(x.flights.any Flight.holdsLater) && (!f.barrier || x.flights.isEmpty) &&
    (x.run.isNone || (f.isSpec && !(x.run.any SpecRun.discarded))) && (!f.last || x.colls.isEmpty) && !s.lagHold x f &&
    !(f.op = opColl && s.collFull ({ f with ordinal := Store.at 0 x.issues f.step }.collId x))

/-- The start conditions that need no look at the operands hold. -/
def State.mayStart (s : State) (b : Nat) (x : Bay) (f : Flight) : Bool :=
  s.mayPreload b x f && !(x.flights.any (unitTaken f))

/-- Time held under R470 is counted from the first refusal to start to the release of the hold. -/
def State.noteHold (s : State) (b : Nat) (x : Bay) (f : Flight) : State :=
  if s.lagHold x f then (if f.status = 0 then s.setBay b { x with head := some { f with status := s.now + 1 } } else s)
  else s.endHold b

/-- The same for the issued entry of a bay. -/
def State.noteHoldOf (s : State) (b : Nat) : State :=
  match (s.bay b).head with
  | some f => s.noteHold b (s.bay b) f
  | none => s

/-- The lines of memory that a fetch of an entry's descriptors, or of the group of a COLL, meets poisoned (R205, R301). -/
def State.badDescs (s : State) (b : Nat) (f : Flight) : List (Nat × Nat) :=
  let x := s.bay b
  (([f.srcA, f.srcB, f.dst, fourthHandle f].filterMap fun h =>
    if isPset f then none else (s.descAddr x f.iters h).map fun a => a / 128 * 128).filterMap fun line =>
      if (x.descs.lookup line).isNone && s.poisoned line (line + 128) then some (line, line + 128) else none) ++
    (if f.op = opColl then (s.groupRanges (f.param 0 16)).filter fun r => s.poisoned r.1 r.2 else [])

/-- The issued entry of a bay ends with ECC_UNCORRECTABLE, as what it needs to start cannot be read (R301); where an MMA or a
CALL reads a line of its bound model, the loss is a data-loss failure (R491). -/
def State.endUnread (s : State) (b : Nat) (f : Flight) (bad : List (Nat × Nat)) (queueFull : Bool) : State :=
  let g := { f with result := 7, startAt := s.now }
  let s := (s.emitRecord b g queueFull).haltTable b (if f.retry then some g else none)
  if f.op = opMma || f.op = opCall then s.loseModel bad else s

/-- Two operations meet on a scale area, and one of them is a HIST (R193). -/
def areaMeets (f g : Flight) (areas : List Nat) : Bool := (f.op = opHist || g.op = opHist) && areas.any g.areas.contains

/-- Another bay's operation is in progress on a scale area of the entry, its merge still to come for a speculative one or for a COLL
that has not committed, or has come to wait for it earlier (R192, R193, R234, R434). -/
def State.areaRace (s : State) (b : Nat) (f : Flight) (areas : List Nat) : Bool :=
  s.bays.any fun e => e.1 ≠ b &&
    ((e.2.flights.any fun g => (!g.executed || g.spec) && areaMeets f g areas) || (e.2.colls.any fun g => areaMeets f g areas) ||
      e.2.head.any fun g => g.arrival ≠ 0 && (f.arrival = 0 || g.arrival < f.arrival) && areaMeets f g areas)

/-- Issues of a `STEP` in the time step, one more (R220), and its most recent COLL (R221). [Log DESIGN CHOICE 245] -/
def Bay.countIssue (x : Bay) (f : Flight) : Bay :=
  let n := Store.at 0 x.issues f.step + 1
  if f.op = opColl then { x with issues := Store.put 0 x.issues f.step n, lastColl := Store.put 0 x.lastColl f.step n }
  else if f.op = opSnap then { x with issues := Store.put 0 x.issues f.step n }
  else x

/-- The position that follows the start of an entry (R223). [Log DESIGN CHOICE 67] -/
def Bay.advance (x : Bay) (f : Flight) : Bay :=
  if f.retry then x
  else if f.testsFlags || f.op = opEnd then { x with known := false }
  else if f.cond = 1 then { x with index := f.next }
  else { x with index := f.index + 1 }

/-- The entry starts: it takes its place among those in flight, as a speculative one where R233 says so.
[Log DESIGN CHOICE 67] -/
def State.launch (s : State) (b : Nat) (x : Bay) (f : Flight) (p : Prep) (areas : List Nat) (limit : Nat) : State :=
  let deps := x.uncommitted
  let spec := f.isSpec && (x.run.isSome || !deps.isEmpty)
  let run := if spec && x.run.isNone then some (⟨f.table, f.index, deps, false, false⟩ : SpecRun) else x.run
  let f := { f with
    serial := x.serial, startAt := s.now, limit := limit, status := 0, spec := spec, phase := 0, arrival := 0
    ordinal := Store.at 0 x.issues f.step
    reads := p.reads, writes := p.writes, uses := p.uses, sets := p.sets, scales := p.scales, areas := areas }
  let x := ((x.countIssue f).advance f)
  s.setBay b { x with head := none, serial := x.serial + 1, flights := x.flights ++ [f], run := run }

/-- An issued entry whose descriptors have been read starts, waits, or is refused (R207, R213, R231). -/
def State.startRead (s : State) (b : Nat) (f : Flight) (queueFull : Bool) : State :=
  let x := s.bay b
  match s.operands x f with
  | .error c => s.descError b f c queueFull
  | .ok o =>
    let c := s.opCheck b x f o
    if c ≠ 0 then s.descError b f c queueFull
    else if f.nd && s.reg .strict = 1 && s.reg .strictConvert = 0 then s.rejectEntry b f 0x16 0 queueFull
    else
      let (p, areas) := prepare (s.viewFor b { f with spec := f.isSpec }) x f o
      let others := x.flights.filter fun g => !(f.isSpec && g.spec && g.executed)
      if others.any (conflicts p) || x.colls.any (gatedBy f p) then s
      else if s.areaRace b f areas then
        let s := if f.arrival = 0 then s.addReg .scaleAreaRaces 0 1 else s
        if s.reg .strict = 1 then s.rejectEntry b f 0x16 0 queueFull
        else if f.arrival ≠ 0 then s
        else s.setBay b { s.bay b with head := some { f with arrival := s.reg .scaleAreaRaces, areas := areas } }
      else
        let conv := f.nd && s.reg .strict = 1
        let s := if conv then s.addReg .ndConverted 0 1 else s
        let x := if f.op = opMma then (s.viewFor b { f with spec := f.isSpec }).fillStores x f x.serial true o else x
        s.launch b x (if conv then { f with rflags := f.rflags ||| 2 } else f) p areas (s.deadlineOf f o)

/-- The operands of an issued MMA are preloaded while the array and the stores are busy with the one before, once every other start
condition holds (R102, R103). -/
def State.preload (s : State) (b : Nat) (f : Flight) : State :=
  let x := s.bay b
  match s.operands x f with
  | .error _ => s
  | .ok o =>
    let v := s.viewFor b { f with spec := f.isSpec }
    let (p, areas) := prepare v x f o
    let others := x.flights.filter fun g => !(f.isSpec && g.spec && g.executed)
    if s.opCheck b x f o ≠ 0 || others.any (conflicts p) || x.colls.any (gatedBy f p) || s.areaRace b f areas then s
    else s.setBay b (v.fillStores x f x.serial false o)

/-- The lines of an entry's descriptors are in the bay's cache (R205). -/
def State.fillDescs (s : State) (b : Nat) (f : Flight) : State :=
  [f.srcA, f.srcB, f.dst, fourthHandle f].foldl (fun t h =>
    if isPset f then t else t.fillDesc b (t.descAddr (t.bay b) f.iters h)) s

/-- The issued entry starts, waits, or is refused before it starts (R207, R213, R231). -/
def State.startEntry (s : State) (b : Nat) (f : Flight) (queueFull : Bool) : State :=
  let s := s.noteHold b (s.bay b) f
  let x := s.bay b
  let f := x.head.getD f
  if !s.mayStart b x f then
    if f.op = opMma && s.mayPreload b x f && staticCheck f = 0 && (s.badDescs b f).isEmpty then (s.fillDescs b f).preload b f
    else s
  else if staticCheck f ≠ 0 then s.descError b f (staticCheck f) queueFull
  else if !(s.badDescs b f).isEmpty then s.endUnread b f (s.badDescs b f) queueFull
  else (s.fillDescs b f).startRead b f queueFull

/-- The operations that are resolved at issue, or as soon as their flags are known (R208). -/
def resolvedAtIssue (f : Flight) : Bool := f.op = opBr || f.op = opLoop || f.op = opCall

/-- ENTRY_START: the issued entry of a bay starts once every start condition holds (R207). [Log DEDUCED 66] -/
def execEntryStart (b : Fin 256) (queueFull : Bool) (s : State) : Res :=
  match (s.bay b.val).head with
  | none => .next s
  | some f => if resolvedAtIssue f then .next s else .next (s.startEntry b.val f queueFull)

/-! Completion (R209, R385). -/

/-- An entry with HOLD waits for the acknowledgement of its own requests (R199, R209). -/
def State.held (s : State) (b : Nat) (f : Flight) : Bool :=
  f.hold && ((s.requests.any fun r => match r.agent with
      | .bay k n _ => k = b && n = f.serial
      | _ => false) ||
    s.mails.any fun m => m.queue = bayQueue b && m.tag = f.serial)

/-- A round of ordered RACC ends early once every bay that runs a table has completed a FENCE with GROUP and the same `STEP` in the
time step (R387). -/
def State.checkRound (s : State) (step : Nat) : State :=
  if s.bays.all fun e => !e.2.present || s.tableState e.1 = tsEnded || s.fences.contains (e.1, step) then
    { s with
      fences := s.fences.filter fun e => e.2 ≠ step
      roundsEnded := s.roundsEnded ++ [s.reg .raccRound] }.addReg .raccRound 0 1
  else s

/-- The bay's table ends or returns at an END (R225); a round may then lack no other bay (R387). -/
def State.endTable (s : State) (b : Nat) (f : Flight) : State :=
  let x := s.bay b
  match x.stack with
  | (t, i) :: st => s.setBay b { x with stack := st, table := t, index := i, known := true }
  | [] =>
    let s := ((s.setBay b { x with head := none, index := f.index, halted := none }).setTableState b tsEnded).switchContext b
    ((s.fences.map Prod.snd).eraseDups).foldl (fun (t : State) k => t.checkRound k) s

/-- A completed VOP or VRED joins the counts of the vector engine (R166, R195). -/
def State.noteVector (s : State) (f : Flight) : State :=
  if (f.op = opVop || f.op = opVred) && f.result = 0 then
    (s.setReg .vecStatusOr 0 (s.reg .vecStatusOr ||| f.status)).addReg .vecSteps 0 1
  else s

/-- A bay that stands at an entry whose condition is not met may switch once what ran beside it has completed (R124, R126). -/
def State.leaveIfWaiting (s : State) (b : Nat) : State :=
  if (s.bay b).flights.any Flight.waits then s.switchContext b else s

/-- An executed entry completes: its record, and what follows from it (R209 to R212, R385); a MODEL or an MMA that met a marked
line of its model is a data-loss failure (R491). -/
def State.completeEntry (s : State) (b : Nat) (f : Flight) (queueFull : Bool) : State :=
  let x := s.bay b
  let s := s.noteVector f
  let posted := if f.hold && f.result = 0 then x.failure else none
  let f := match posted with
    | some p => { f with result := p.1, detail := p.2 }
    | none => f
  let x := { x with
    flights := x.flights.filter fun g => g.serial ≠ f.serial
    failure := if posted.isSome then none else x.failure }
  let s := (s.setBay b x).emitRecord b f queueFull
  let s := (s.finish b f).leaveIfWaiting b
  if f.op = opEnd && (!f.halts || f.result = 0) then s.endTable b f
  else if f.result ≠ 7 then s
  else if f.op = opMma then s.loseModel f.reads
  else if f.op = opModel then s.loseModel ((64 * f.param 0 16, 64 * f.param 0 16 + 64) :: s.modelRanges (f.param 0 16))
  else s

/-- ENTRY_COMPLETE: the oldest entry of the bay whose effect is done completes (R209). [Log DEDUCED 72] -/
def execEntryComplete (b : Fin 256) (queueFull : Bool) (s : State) : Res :=
  let x := s.bay b.val
  match x.flights.find? fun f => f.executed && !f.spec && !s.held b.val f with
  | none => .next s
  | some f => if x.parked || x.sparing ≠ 0 then .next s else .next (s.completeEntry b.val f queueFull)

/-! Deadlines (R227 to R229). -/

/-- ENTRY_ABANDON: a FENCE, WAIT or EPOCH at four times its deadline is abandoned and the table halts (R229). -/
def execEntryAbandon (b : Fin 256) (queueFull : Bool) (s : State) : Res :=
  match (s.bay b.val).flights.find? fun f => !f.executed && (f.op = opFence || f.op = opWait || f.op = opEpoch) with
  | none => .next s
  | some f =>
    if (s.bay b.val).stops then .next s
    else .next (s.completeEntry b.val { f with result := 0x81, detail := 0, halts := true } queueFull)

/-! BR, LOOP, CALL and END (R208, R223 to R226). -/

/-- The issued entry of a bay, if it is of an operation resolved at issue and may be resolved now. -/
def State.resolvable (s : State) (b op : Nat) : Option Flight :=
  let x := s.bay b
  x.head.bind fun f => if f.op = op && s.mayStart b x f then some f else none

/-- An entry resolved at issue ends: its record, the next position and the end of a step. -/
def State.resolveAt (s : State) (b : Nat) (f : Flight) (table index : Nat) (queueFull : Bool) : State :=
  let f := { f with startAt := s.now }
  let x := s.bay b
  let s := s.setBay b { x with head := none, table := table, index := index, known := true }
  (s.emitRecord b f queueFull).finish b f

/-- BR: the branch on its condition (R208, R223). -/
def execBr (b : Fin 256) (queueFull : Bool) (s : State) : Res :=
  match s.resolvable b.val opBr with
  | none => .next (s.noteHoldOf b.val)
  | some f =>
    let s := s.noteHoldOf b.val
    let f := { f with status := 0 }
    if staticCheck f ≠ 0 then .next (s.descError b.val f (staticCheck f) queueFull)
    else .next (s.resolveAt b.val f f.table (if condHolds f.cond (s.bay b.val).cf then f.next else f.index + 1) queueFull)

/-- LOOP: one iteration is counted, and the branch taken while some are left (R224). -/
def execLoop (b : Fin 256) (queueFull : Bool) (s : State) : Res :=
  match s.resolvable b.val opLoop with
  | none => .next (s.noteHoldOf b.val)
  | some f =>
    let s := s.noteHoldOf b.val
    let f := { f with status := 0 }
    if staticCheck f ≠ 0 then .next (s.descError b.val f (staticCheck f) queueFull)
    else
      let x := s.bay b.val
      let c := f.param 32 3
      let n := f.param 0 32
      let fresh := x.left.getD c 0 = 0
      let l := (if fresh then n else x.left.getD c 0) - 1
      let x := { x with left := x.left.set c l, count := if fresh then x.count.set c n else x.count }
      .next ((s.setBay b.val x).resolveAt b.val f f.table (if 0 < l then f.next else f.index + 1) queueFull)

/-- CALL: the return position goes onto the stack, and the table goes on at its target (R225). -/
def execCall (b : Fin 256) (queueFull : Bool) (s : State) : Res :=
  match s.resolvable b.val opCall with
  | none => .next (s.noteHoldOf b.val)
  | some f =>
    let s := s.noteHoldOf b.val
    let f := { f with status := 0 }
    let x := s.bay b.val
    if staticCheck f ≠ 0 then .next (s.descError b.val f (staticCheck f) queueFull)
    else if 8 ≤ x.stack.length then .next (s.descError b.val f 0x0C queueFull)
    else
      let back := (f.table, f.index + 1)
      let s' := s.setBay b.val { x with stack := back :: x.stack }
      if f.param 0 1 = 0 then .next (s'.resolveAt b.val f f.table f.next queueFull)
      else
        match x.model with
        | none => .next (s.descError b.val f 0x0A queueFull)
        | some m =>
          if s.poisoned (64 * m) (64 * m + 64) then .next (s.endUnread b.val f [(64 * m, 64 * m + 64)] queueFull)
          else .next (s'.resolveAt b.val f (s.roster m 0x18 8) 0 queueFull)

/-- END: a started END is done; its completion returns or ends the table (R225). -/
def execTableEnd (b : Fin 256) (s : State) : Res :=
  match s.ready b.val fun f => f.op = opEnd with
  | none => .next s
  | some f => .next (s.perform b.val f {})

/-! FENCE and WAIT (R220, R221, R385, R387). -/

/-- A started entry waits for its condition (R124, R240). -/
def State.stillWaits (s : State) (b : Nat) (f : Flight) : State :=
  ((s.setFlight b { f with phase := 1 }).showWaiting b).switchContext b

/-- A bay has completed a FENCE with GROUP (R387). -/
def State.groupFence (s : State) (b step : Nat) : State :=
  { s with fences := (s.fences.filter fun e => e ≠ (b, step)) ++ [(b, step)] }.checkRound step

/-- FENCE: local writes are visible already; with GROUP it waits until every remote operation of the bay has been answered,
and then reports what failed; it discards what its options name (R205, R220, R385). [Log DEDUCED 72] -/
def execFence (b : Fin 256) (s : State) : Res :=
  match (s.bay b.val).flights.find? fun f => !f.executed && f.op = opFence with
  | none => .next s
  | some f =>
    let x := s.bay b.val
    let group := f.param 1 1 = 1
    if x.parked || x.sparing ≠ 0 then .next s
    else if group && s.bayWaits b.val then .next (s.stillWaits b.val f)
    else
      let x := { x with
        descs := if f.param 2 1 = 1 then [] else x.descs
        window := if f.param 3 1 = 1 then [] else x.window
        failure := if group then none else x.failure }
      let r := if group then (s.bay b.val).failure.getD (0, 0) else (0, 0)
      let s := s.setBay b.val x
      let s := if group then s.groupFence b.val f.step else s
      .next (s.setFlight b.val { f with executed := true, phase := 0, result := r.1, detail := r.2 })

/-- The most recent COLL of a `STEP` in the time step has committed (R221). -/
def Bay.tokenHeld (x : Bay) (step : Nat) : Bool :=
  !((x.colls ++ x.flights).any fun g =>
    g.op = opColl && g.step = step && g.ordinal + 1 = Store.at 0 x.lastColl step)

/-- A WAIT for NODE_BARRIER of a `STEP` that a bay has reached. [Log DEDUCED 73] -/
def atNodeBarrier (step : Nat) (f : Flight) : Bool := f.op = opWait && f.param 0 4 = 2 && f.step = step && !f.executed

/-- The condition of a WAIT holds (R221). -/
def State.waitMet (s : State) (b : Nat) (f : Flight) : Bool :=
  let x := s.bay b
  let k := f.param 0 4
  if k = 0 then bit x.event (f.param 4 6)
  else if k = 1 then
    match s.operands x f with
    | .ok o =>
      match o.a with
      | .tensor d => s.poisoned d.addr (d.addr + 8) || decide (f.param 16 48 ≤ s.load d.addr 8)
      | _ => true
    | .error _ => true
  else if k = 2 then s.bays.all fun e => !e.2.present || e.2.flights.any (atNodeBarrier f.step)
  else x.tokenHeld (f.param 16 16)

/-- A WAIT whose condition holds is done: EVENT clears its bit, NODE_BARRIER releases every bay that is at it, a flag word
that is poisoned ends the entry (R221, R301). [Log DEDUCED 73] -/
def State.endWait (s : State) (b : Nat) (f : Flight) : State :=
  let x := s.bay b
  let k := f.param 0 4
  if k = 0 then
    (s.setBay b { x with event := withoutBit x.event (f.param 4 6) }).setFlight b { f with executed := true, phase := 0 }
  else if k = 2 then
    s.bays.foldl (fun t e =>
      let y := t.bay e.1
      let fs := y.flights.map fun g =>
        if atNodeBarrier f.step g then { g with executed := true, phase := 0 } else g
      t.setBay e.1 { y with flights := fs }) s
  else
    let bad : Bool := k = 1 && ((s.operands x f).toOption.bind fun o => o.a.desc?).any fun d =>
      s.poisoned d.addr (d.addr + 8)
    s.setFlight b { f with executed := true, phase := 0, result := if bad then 7 else 0, halts := f.halts || bad }

/-- The oldest started WAIT of a kind looks at its condition (R221). -/
def State.runWait (s : State) (b kind : Nat) : State :=
  match s.ready b fun f => f.op = opWait && f.param 0 4 = kind with
  | none => s
  | some f => if s.waitMet b f then s.endWait b f else s.stillWaits b f

/-- WAIT_EVENT (R221). -/
def execWaitEvent (b : Fin 256) (s : State) : Res := .next (s.runWait b.val 0)

/-- WAIT_FLAG (R221). -/
def execWaitFlag (b : Fin 256) (s : State) : Res := .next (s.runWait b.val 1)

/-- WAIT_NODE_BARRIER (R221). -/
def execWaitNodeBarrier (b : Fin 256) (s : State) : Res := .next (s.runWait b.val 2)

/-- WAIT_TOKEN (R221). -/
def execWaitToken (b : Fin 256) (s : State) : Res := .next (s.runWait b.val 3)

/-- A parked bay runs and what shares its physical bay is parked (R124). -/
def State.unparkFor (s : State) (b : Nat) : State :=
  let s := (s.sharers b).foldl (fun (t : State) k => if (t.bay k).present && !(t.bay k).parked then t.parkBay k else t) s
  s.unparkBay b

/-- WAIT_CONDITION_MET: a WAIT that found its condition unmet finds that it holds now (R221). The bay that hosts it switches
to it when it is parked and what runs there waits too (R124). -/
def execWaitConditionMet (b : Fin 256) (s : State) : Res :=
  match (s.bay b.val).flights.find? fun f => f.op = opWait && !f.executed && f.phase = 1 with
  | none => .next s
  | some f =>
    let waits := (s.sharers b.val).all fun k => (s.bay k).parked || s.switchPoint k || !(s.bay k).present
    if !s.waitMet b.val f || (s.bay b.val).sparing ≠ 0 || ((s.bay b.val).parked && !waits) then .next s
    else
      let s := if (s.bay b.val).parked then s.unparkFor b.val else s
      .next (if (s.bay b.val).parked then s else s.endWait b.val f)

/-- A write of a bay's event register sets bits of it (R240). -/
def State.setEvent (s : State) (b v : Nat) : State :=
  let x := s.bay b
  s.setBay b { x with event := x.event ||| v }

/-- EVENT_REGISTER_WRITE: a 64-bit write is ORed into the event register of a bay (R221). -/
def execEventRegisterWrite (b : Fin 256) (v : Dword) (s : State) : Res := .next (s.setEvent b.val v.toNat)

/-! Numeric modes (R92 to R94). -/

/-- Register of a numeric mode object. -/
def modeReg : ModeObject → Reg
  | .subn => .subn
  | .acc => .acc
  | .stats => .stats

/-- MODE_SET_WRITE: a write of a mode-set object, at once without a running job, else at the next boundary (R94). -/
def execModeSetWrite (q : Requester) (o : ModeObject) (n : Fin 16) (v : Byte) (s : State) : Res :=
  .next (s.writeRequest q ((modeReg o).objAt n.val) [v] fun _ _ t => t)

end Sys2Proof.Machine
end

