-- ==== Sys2Proof/Machine/Cores.lean ====
section
/-! DEFINITION. The memory instructions of the general cores, their interrupts and turns, and the monitor's calls
(R246 to R262, R273 to R290). -/

namespace Sys2Proof.Machine

/-! The I/O region (R212, R221, R286, R302, R392, R556). -/

/-- The 64-bit register at an offset of the event window. -/
def State.ioWord (s : State) (off : Nat) : Nat :=
  let k := off / 8
  if off < 0x800 then (s.bay k).event
  else if off < 0x1000 then (s.bay (k - 0x100)).ring
  else if off < 0x1200 then s.reg .mailTail (k - 0x200)
  else if off < 0x1400 then s.reg .mailDone (k - 0x240)
  else 0

/-- Read of `n` bytes of the I/O region; an offset without a register reads 0. [Log DEDUCED 115] -/
def State.ioRead (s : State) (p n : Nat) : List Byte :=
  let base := s.reg .eventBase
  if p < base then List.replicate n 0
  else
    let off := p - base
    (leBytes 8 (s.ioWord off)).drop (off % 8) |>.take n

/-- Write of bytes to the I/O region: event registers and notifications take 8 B, mail doorbells 4 B or 8 B; any other
write has no effect. [Log DEDUCED 115] -/
def State.ioWrite (s : State) (p : Nat) (bs : List Byte) : State :=
  let base := s.reg .eventBase
  if p < base ∨ p % 8 ≠ 0 then s
  else
    let off := p - base
    let v := ofLe bs
    let q := off % 0x200 / 8
    if off < 0x800 ∧ bs.length = 8 then
      s.setEvent (off / 8) v
    else if 0x1000 ≤ off ∧ off < 0x1200 ∧ 4 ≤ bs.length then
      s.ringMail q (v % 2 ^ 32)
    else if 0x2000 ≤ off ∧ off < 0x2200 ∧ bs.length = 8 then s.notify q v
    else s

/-! Loads (R253, R258, R259). -/

/-- Bytes of a load. -/
def loadSize (k : LoadKind) : Nat :=
  match k with
  | .lb => 1 | .lbu => 1 | .lh => 2 | .lhu => 2 | .lw => 4 | .lwu => 4 | .flw => 4 | .ld => 8 | .fld => 8

/-- The register that a load writes, from the bytes that it reads. -/
def loadInto (k : LoadKind) (rd v : Nat) (t : Hart) : Hart :=
  match k with
  | .lb => t.setReg rd (unsigned 64 (signed 8 v))
  | .lh => t.setReg rd (unsigned 64 (signed 16 v))
  | .lw => t.setReg rd (unsigned 64 (signed 32 v))
  | .ld => t.setReg rd v
  | .lbu => t.setReg rd v
  | .lhu => t.setReg rd v
  | .lwu => t.setReg rd v
  | .flw => t.setFreg rd (box v)
  | .fld => t.setFreg rd v

/-- A load writes a floating-point register. -/
def loadsFp (k : LoadKind) : Bool := k = .flw || k = .fld

/-- Length of an instruction: 2 B in the compressed form. -/
def instrLen (short : Bool) : Nat := if short then 2 else 4

/-- Bits of a load instruction. -/
def loadWord (k : LoadKind) (rd rs1 : Nat) (imm : BitVec 12) : Nat :=
  imm.toNat * 2 ^ 20 + rs1 * 2 ^ 15 + (if k = .flw then 2 else 3) * 2 ^ 12 + rd * 2 ^ 7 + 0x07

/-- A load from node memory ends: its register, or cause 24 for poisoned data (R301). -/
def State.endLoad (s : State) (h len va n : Nat) (poison : Bool) (f : Hart → Hart) : State :=
  let _ := n
  if poison then s.trap h 24 va else s.retire h len f

/-- A load of `n` bytes starts: satisfied by the L1 data cache at once, or parked until it returns, or until a page-table read
does (R258, R259, R282). -/
def State.startLoad (s : State) (h len va n : Nat) (reach : CoreReach) (w : Place → Await) (f : Nat → Hart → Hart) :
    State :=
  if s.refills h (reach = .refill) then s.park h true .refill
  else
  match s.access h false va n with
  | .error c => s.trap h c va
  | .ok (p, s) =>
    match p with
    | .node a =>
      if reach = .l1 then s.endLoad h len va n (s.poisoned a (a + n)) (f (ofLe (s.ownBytes h a n)))
      else s.park h true (w p)
    | .io _ => s.park h true (w p)
    | .far lnode cls key offset =>
      let s := s.addReg .remoteAccesses 0 1
      (s.request (.hart h 0) ((s.peerPos lnode).getD 0) cls offset key (.read n)).park h true (w p)

/-- HART_LOAD: `reach` says how far the access goes (R258, R259). [Log DEDUCED 107] -/
def execHartLoad (h : Fin 3072) (k : LoadKind) (short : Bool) (rd rs1 : Fin 32) (imm : BitVec 12) (reach : CoreReach)
    (s : State) : Res :=
  if !s.issues h.val then .next s
  else if loadsFp k && (s.hart h.val).fs = 0 then .next (s.illegal h.val (loadWord k rd.val rs1.val imm))
  else
    let va := (s.hart h.val).address rs1.val imm
    let len := instrLen short
    .next (s.startLoad h.val len va (loadSize k) reach (fun p => .load k len rd.val va p) (loadInto k rd.val))

/-- VLD: 16 B, aligned (R273, R275). -/
def execVld (h : Fin 3072) (imm : BitVec 12) (rs1 vd : Fin 32) (reach : CoreReach) (s : State) : Res :=
  if !s.issues h.val then .next s
  else if (s.hart h.val).fs = 0 then
    .next (s.illegal h.val (imm.toNat * 2 ^ 20 + rs1.val * 2 ^ 15 + vd.val * 2 ^ 7 + 0x2B))
  else
    let va := (s.hart h.val).address rs1.val imm
    if va % 16 ≠ 0 then .next (s.trap h.val 4 va)
    else .next (s.startLoad h.val 4 va 16 reach (fun p => .vload vd.val va p) (fun v t => t.setVreg vd.val v))

/-! Stores (R259, R261). -/

/-- Bytes of a store. -/
def storeSize (k : StoreKind) : Nat :=
  match k with
  | .sb => 1 | .sh => 2 | .sw => 4 | .fsw => 4 | .sd => 8 | .fsd => 8

/-- A store reads a floating-point register. -/
def storesFp (k : StoreKind) : Bool := k = .fsw || k = .fsd

/-- Bits of a store instruction of the STORE-FP or the custom-1 opcode. -/
def storeWord (opcode funct rs2 rs1 : Nat) (imm : BitVec 12) : Nat :=
  field imm.toNat 5 7 * 2 ^ 25 + rs2 * 2 ^ 20 + rs1 * 2 ^ 15 + funct * 2 ^ 12 + field imm.toNat 0 5 * 2 ^ 7 + opcode

/-- HART_STORE (R258, R259). -/
def execHartStore (h : Fin 3072) (k : StoreKind) (short : Bool) (rs2 rs1 : Fin 32) (imm : BitVec 12) (refill : Bool)
    (s : State) : Res :=
  let t := s.hart h.val
  if !s.issues h.val then .next s
  else if storesFp k && t.fs = 0 then
    .next (s.illegal h.val (storeWord 0x27 (if k = .fsw then 2 else 3) rs2.val rs1.val imm))
  else if s.refills h.val refill then .next (s.park h.val true .refill)
  else
    let va := t.address rs1.val imm
    let v := if storesFp k then t.freg rs2.val else t.reg rs2.val
    match s.access h.val true va (storeSize k) with
    | .error c => .next (s.trap h.val c va)
    | .ok (p, s) => .next (s.storeAt h.val (instrLen short) p (leBytes (storeSize k) v))

/-- VST: 16 B, aligned (R273, R275). -/
def execVst (h : Fin 3072) (imm : BitVec 12) (vs3 rs1 : Fin 32) (refill : Bool) (s : State) : Res :=
  let t := s.hart h.val
  if !s.issues h.val then .next s
  else if t.fs = 0 then .next (s.illegal h.val (storeWord 0x2B 1 vs3.val rs1.val imm))
  else
    let va := t.address rs1.val imm
    if va % 16 ≠ 0 then .next (s.trap h.val 6 va)
    else if s.refills h.val refill then .next (s.park h.val true .refill)
    else
      match s.access h.val true va 16 with
      | .error c => .next (s.trap h.val c va)
      | .ok (p, s) => .next (s.storeAt h.val 4 p (leBytes 16 (t.vreg vs3.val)))

/-- STORE_BUFFER_DRAIN: the oldest entry of a core's store buffer takes effect, and harts that waited for it go on
(R258, R261, R284, R286). -/
def execStoreBufferDrain (core : Fin 192) (s : State) : Res :=
  match s.stores.find? fun e => e.core = core.val with
  | none => .next s
  | some e =>
    let s := { s with stores := s.stores.erase e }
    let s := if e.io then s.ioWrite e.addr e.bytes else s.write e.addr e.bytes
    .next ((s.hartsOn core.val).foldl (fun (u : State) h => u.settleHart h) s)

/-! Atomics (R282, R289). -/

/-- The result of an atomic in its register: words are sign-extended. -/
def atomicInto (size rd v : Nat) (t : Hart) : Hart := t.setReg rd (unsigned 64 (signed (8 * size) v))

/-- The reservation of a hart, if it holds one. -/
def State.reserved (s : State) (h : Nat) : Option Nat := (s.reservations.find? fun r => r.1 = h).map (·.2)

/-- A hart gives up its reservation. [Log DEDUCED 119] -/
def State.unreserve (s : State) (h : Nat) : State := { s with reservations := s.reservations.filter fun r => r.1 ≠ h }

/-- An LR reads and takes the reservation of the 64 B line. -/
def State.loadReserved (s : State) (h size rd va a : Nat) : State :=
  if s.poisoned a (a + size) then s.trap h 24 va
  else
    let s := s.unreserve h
    { s with reservations := s.reservations ++ [(h, a / 64)] }.retire h 4
      (atomicInto size rd (ofLe (s.ownBytes h a size)))

/-- An SC writes if the reservation is held, and gives it up. -/
def State.storeConditional (s : State) (h size rd x a : Nat) : State :=
  if s.reserved h = some (a / 64) then
    ((s.write a (leBytes size x)).unreserve h).retire h 4 fun t => t.setReg rd 0
  else (s.unreserve h).retire h 4 fun t => t.setReg rd 1

/-- The atomic of a hart on node memory takes effect at the home slice (R289). -/
def State.atomicAt (s : State) (h : Nat) (k : HartAtomic) (size rd x va a : Nat) : State :=
  match k with
  | .lr => s.loadReserved h size rd va a
  | .sc => s.storeConditional h size rd x a
  | .amo fn =>
    let r := s.amo fn size a x
    if r.2.1 then r.2.2.trap h 24 va else r.2.2.retire h 4 (atomicInto size rd r.1)

/-- The hart's own earlier stores that an atomic waits for have drained. [Log DEDUCED 114] -/
def State.atomicMay (s : State) (h : Nat) (k : HartAtomic) (rl : Bool) (a size : Nat) : Bool :=
  !(rl && s.undrained h false) && (k = .lr || !s.overlapsOwn h a size)

/-- HART_AMO: an atomic leaves the core; LR and SC can be satisfied by the L1 data cache (R258, R282, R289). -/
def execHartAmo (h : Fin 3072) (a : HartAtomic) (wide rl : Bool) (rd rs1 rs2 : Fin 32) (reach : CoreReach) (s : State) :
    Res :=
  let t := s.hart h.val
  if !s.issues h.val then .next s
  else if s.refills h.val (reach = .refill) then .next (s.park h.val true .refill)
  else
    let size := if wide then 8 else 4
    let va := t.reg rs1.val
    let x := t.reg rs2.val
    let store := a ≠ .lr
    match s.access h.val store va size with
    | .error c => .next (s.trap h.val c va)
    | .ok (p, s) =>
      let w : Await := .atomic a size rd.val x va rl p
      match p with
      | .node q =>
        if reach = .l1 && (a = .lr || a = .sc) && s.atomicMay h.val a rl q size then
          .next (s.atomicAt h.val a size rd.val x va q)
        else .next (s.park h.val true w)
      | .io _ => .next (s.trap h.val (accessCause store) va)
      | .far lnode cls key offset =>
        match a with
        | .amo fn =>
          let s := s.addReg .remoteAccesses 0 1
          let s := s.request (.hart h.val 0) ((s.peerPos lnode).getD 0) cls offset key (.amo fn size x)
          .next (s.park h.val true w)
        | _ => .next (s.trap h.val (accessCause store) va)

/-! Gather and scatter (R274, R276 to R280). -/

/-- Bits of a VGATH or a VSCAT instruction. -/
def gatherWord (funct et iw sc vi rs1 vd : Nat) : Nat :=
  et * 2 ^ 29 + iw * 2 ^ 27 + sc * 2 ^ 25 + vi * 2 ^ 20 + rs1 * 2 ^ 15 + funct * 2 ^ 12 + vd * 2 ^ 7 + 0x2B

/-- The address of each element: the base, and index i sign-extended and scaled (R274). -/
def gatherAddrs (t : Hart) (et iw sc vi rs1 : Nat) : List Nat :=
  let w := 8 * 2 ^ iw
  (List.range (laneCount 128 et)).map fun i =>
    let k := i * w
    let idx := signed w (field (t.vreg (vi + k / 128)) (k % 128) w)
    unsigned 64 (t.reg rs1 + idx * 2 ^ sc)

/-- Phase 1 over the elements from number `i` on: their places, or the first fault with its element, cause and address
(R277). An element in the I/O region faults as element 0. -/
def State.gatherPlaces (s : State) (h : Nat) (store : Bool) (n first : Nat) :
    Nat → List Nat → Except (Nat × Nat × Nat) (List (Nat × Place) × State)
  | _, [] => .ok ([], s)
  | i, va :: vas =>
    if va % n ≠ 0 then .error (i, alignCause store, va)
    else
      match s.access h store va n with
      | .error c => .error (i, c, va)
      | .ok (p, s) =>
        match p with
        | .io _ => .error (0, accessCause store, first)
        | p =>
          match s.gatherPlaces h store n first (i + 1) vas with
          | .error e => .error e
          | .ok (ps, t) => .ok ((va, p) :: ps, t)

/-- Some element lies in the I/O region; no fault of another element goes before it (R277). -/
def State.gatherIo (s : State) (h : Nat) (store : Bool) (vas : List Nat) : Bool :=
  vas.any fun va =>
    match s.translate h store va with
    | .ok (p, _) => decide (0x30000000000 ≤ p ∧ p < 0x30100000000)
    | .error _ => false

/-- A gather or scatter traps at an element (R278). -/
def State.gatherFault (s : State) (h i cause va : Nat) (indexed : Bool) : State :=
  let s := s.addReg .svxFaults 0 1
  let fidx := if indexed then i + 2 ^ 31 else 0
  (s.setHart h { s.hart h with fidx := fidx }).trap h cause va

/-- VGATH and VSCAT as far as their places: the checks of the encoding, and phase 1; the traps are counted (R273, R274, R277,
R294). -/
def State.gatherStart (s : State) (h : Nat) (store refill : Bool) (et iw sc vi rs1 vd : Nat)
    (go : List (Nat × Place) → State → State) : State :=
  let t := s.hart h
  let n := laneBits et / 8
  let g := ceilDiv (laneCount 128 et * (8 * 2 ^ iw)) 128
  let word := gatherWord (if store then 3 else 2) et iw sc vi rs1 vd
  if t.fs = 0 || vi % g ≠ 0 || (!store && decide (vi ≤ vd ∧ vd < vi + g)) then (s.addReg .svxFaults 0 1).illegal h word
  else if s.refills h refill then s.park h true .refill
  else
    let vas := gatherAddrs t et iw sc vi rs1
    if s.gatherIo h store vas then s.gatherFault h 0 (accessCause store) (vas.headD 0) false
    else
      match s.gatherPlaces h store n (vas.headD 0) 0 vas with
      | .error (i, c, va) => s.gatherFault h i c va true
      | .ok (ps, s) => go ps s

/-- VSCAT: remote elements are posted, and the others are written in increasing element order (R279). -/
def execVscat (h : Fin 3072) (et : Fin 8) (iw sc : Fin 4) (vi rs1 vs3 : Fin 32) (refill : Bool) (s : State) : Res :=
  if !s.issues h.val then .next s
  else
    let v := (s.hart h.val).vreg vs3.val
    .next (s.gatherStart h.val true refill et.val iw.val sc.val vi.val rs1.val vs3.val fun ps s =>
      let bytes (i : Nat) : List Byte := leBytes (laneBits et.val / 8) (lane et.val v i)
      let s := (ps.zipIdx).foldl (fun (u : State) e =>
        match e.1.2 with
        | .far lnode cls key offset =>
          (u.addReg .remoteAccesses 0 1).request (.hart h.val 0) ((u.peerPos lnode).getD 0) cls offset key
            (.write (bytes e.2) false)
        | _ => u) s
      let es := (ps.zipIdx).filterMap fun e =>
        match e.1.2 with
        | .node a => some (a, bytes e.2)
        | _ => none
      s.park h.val true (.scatter es))

/-! Returns (R259, R278 to R282). -/

/-- The answer to a hart's request of a tag, and the state without it. -/
def State.takeReply (s : State) (h tag : Nat) : Option (HartReply × State) :=
  (s.hartReplies.find? fun r => r.hart = h && r.tag = tag).map fun r =>
    (r, { s with hartReplies := s.hartReplies.erase r })

/-- The cause of a failed answer, if it failed: 25 for a refused key or epoch, 24 for poisoned data. -/
def replyCause (r : HartReply) : Option Nat :=
  if r.code = 5 then some Config.lostCause.toNat
  else if r.code ≠ 0 then some 25
  else if r.poison then some 24
  else none

/-- A load returns; none while it is still out (R282, R286). -/
def State.returnLoad (s : State) (h len va n : Nat) (p : Place) (f : Nat → Hart → Hart) : Option State :=
  match p with
  | .node a => some (s.endLoad h len va n (s.poisoned a (a + n)) (f (ofLe (s.ownBytes h a n))))
  | .io a => if s.undrained h true then none else some (s.retire h len (f (ofLe (s.ioRead a n))))
  | .far _ _ _ _ =>
    (s.takeReply h 0).map fun (r, s) =>
      match replyCause r with
      | some c => s.trap h c va
      | none => s.retire h len (f (ofLe (r.data.take n)))

/-- An element of a gather: its bits, or the cause of its fault. -/
def State.gatherElement (s : State) (h n : Nat) (e : (Nat × Place) × Nat) : Except (Nat × Nat × Nat) Nat :=
  match e.1.2 with
  | .node a =>
    if s.poisoned a (a + n) then .error (e.2, 24, e.1.1) else .ok (ofLe (s.ownBytes h a n))
  | _ =>
    match s.hartReplies.find? fun r => r.hart = h && r.tag = e.2 with
    | none => .ok 0
    | some r =>
      match replyCause r with
      | some c => .error (e.2, c, e.1.1)
      | none => .ok (ofLe (r.data.take n))

/-- The first fault of a list of elements. -/
def firstError : List (Except (Nat × Nat × Nat) Nat) → Option (Nat × Nat × Nat)
  | [] => none
  | .error e :: _ => some e
  | _ :: es => firstError es

/-- The value of an element that did not fault. -/
def elementBits : Except (Nat × Nat × Nat) Nat → Nat
  | .ok v => v
  | .error _ => 0

/-- `svxrerr` takes the first failure, or marks a further one (R278, R282). -/
def State.noteRemote (s : State) (h code lnode : Nat) : State :=
  let v := s.reg .svxrerr h
  s.setReg .svxrerr h (if bit v 31 then withBit v 30 else code + lnode * 256 + 2 ^ 31)

/-- A gather returns once every element has: its destination in one step, or a trap at the lowest faulting element
(R278, R280). -/
def State.returnGather (s : State) (h et vd : Nat) (es : List (Nat × Place)) : Option State :=
  let n := laneBits et / 8
  let out := (es.zipIdx).any fun e =>
    e.1.2.isFar && !s.hartReplies.any fun r => r.hart = h && r.tag = e.2
  if out then none
  else
    let rs := (es.zipIdx).map (s.gatherElement h n)
    let t := { s with hartReplies := s.hartReplies.filter fun r => r.hart ≠ h }
    match firstError rs with
    | none => some (t.retire h 4 fun x => x.setVreg vd (packLanes (8 * n) (rs.map elementBits)))
    | some (i, c, va) =>
      let t := if c = 25 then
          match es.getD i (0, .node 0) with
          | (_, .far lnode _ _ _) =>
            let code := ((s.hartReplies.find? fun r => r.hart = h && r.tag = i).map (·.code)).getD 0x0D
            t.noteRemote h code lnode
          | _ => t
        else t
      some (t.gatherFault h i c va true)

/-- VGATH: the remote elements are requested, and the thread parks until every element has returned; elements that the L1 data
cache satisfies do not leave the core (R258, R277, R280). -/
def execVgath (h : Fin 3072) (et : Fin 8) (iw sc : Fin 4) (vi rs1 vd : Fin 32) (reach : CoreReach) (s : State) : Res :=
  if !s.issues h.val then .next s
  else .next (s.gatherStart h.val false (reach = .refill) et.val iw.val sc.val vi.val rs1.val vd.val fun ps s =>
    let far := ps.any fun e => e.2.isFar
    if reach = .l1 && !far then (s.returnGather h.val et.val vd.val ps).getD s
    else
      let s := (ps.zipIdx).foldl (fun (u : State) e =>
        match e.1.2 with
        | .far lnode cls key offset =>
          (u.addReg .remoteAccesses 0 1).request (.hart h.val e.2) ((u.peerPos lnode).getD 0) cls offset key
            (.read (laneBits et.val / 8))
        | _ => u) s
      s.park h.val true (.gather et.val vd.val ps))

/-- What a parked hart waits for has come: its instruction ends. None while it has not. -/
def State.returned (s : State) (h : Nat) : Option State :=
  match (s.hart h).wait with
  | .load k len rd va p => s.returnLoad h len va (loadSize k) p (loadInto k rd)
  | .vload vd va p => s.returnLoad h 4 va 16 p fun v t => t.setVreg vd v
  | .atomic k size rd x va rl p =>
    match p with
    | .node a => if s.atomicMay h k rl a size then some (s.atomicAt h k size rd x va a) else none
    | _ => s.returnLoad h 4 va size p (atomicInto size rd)
  | .gather et vd es => s.returnGather h et vd es
  | .scatter es =>
    if es.any fun e => s.overlapsOwn h e.1 e.2.length then none else some ((s.writes es).retire h 4 id)
  | .refill => some (s.setHart h { s.hart h with wait := .none })
  | _ => none

/-- ACCESS_RETURN: the access that a hart is parked on returns; the hart becomes ready, or stops for Lull
(R248, R259, R262); a core in its self-test lets it return (R292). [Log DEDUCED 107] -/
def execAccessReturn (h : Fin 3072) (s : State) : Res :=
  if s.hartSt h.val ≠ hsParked || s.reg .coreFailed (s.coreOf h.val) ≠ 0 || s.isIn stFaulted then .next s
  else
    match s.returned h.val with
    | none => .next s
    | some t => .next (t.wake h.val)

/-! Ordering, interrupts and turns (R260, R262, R283, R287). -/

/-- HART_FENCE: later accesses are held back until the hart's earlier stores of the ordered kinds are visible. The operand
bits are, from the highest, I, O, R and W (R287). [Log DEDUCED 108] -/
def execHartFence (h : Fin 3072) (pred succ : BitVec 4) (s : State) : Res :=
  if !s.issues h.val then .next s
  else
    let wait := (pred.getLsbD 0 && s.undrained h.val false) || (pred.getLsbD 2 && s.undrained h.val true)
    if wait && succ ≠ 0 then .next (s.park h.val false .fence) else .next (s.retire h.val 4 id)

/-- SYNC; FS Off makes it illegal (R265, R283). [Log DEDUCED 108] -/
def execSync (h : Fin 3072) (ra nv : Bool) (s : State) : Res :=
  if !s.issues h.val then .next s
  else if (s.hart h.val).fs = 0 then
    .next (s.illegal h.val (ofBool ra * 2 ^ 21 + ofBool nv * 2 ^ 20 + 6 * 2 ^ 12 + 0x2B))
  else if s.syncHolds h.val nv ra then .next (s.endSync h.val ra)
  else .next (s.park h.val false (.sync nv ra))

/-- HART_WFI: the thread parks until an interrupt becomes pending (R262). [Log PRESUMED 111] -/
def execHartWfi (h : Fin 3072) (s : State) : Res :=
  if !s.issues h.val then .next s
  else if (s.hart h.val).ip ≠ 0 then .next ((s.retire h.val 4 id).takeInterrupt h.val)
  else .next (s.park h.val false .wfi)

/-- The bit of an interrupt in `sip` and `sie`. -/
def interruptBit (i : HartInterrupt) : Nat :=
  match i with
  | .software => 1
  | .timer => 5
  | .external => 9

/-- An interrupt becomes pending for a hart: it leaves WFI, and a ready hart takes it at its next boundary (R262). -/
def State.pend (s : State) (h : Nat) (i : HartInterrupt) : State :=
  let t := s.hart h
  let s := s.setHart h { t with ip := withBit t.ip (interruptBit i) }
  if s.hartSt h = hsParked && t.wait = .wfi then (s.retire h 4 id).wake h
  else if s.hartReady h then s.takeInterrupt h
  else s

/-- INTERRUPT_PENDING (R262). -/
def execInterruptPending (h : Fin 3072) (i : HartInterrupt) (s : State) : Res :=
  if s.hartSt h.val = hsNone || s.hartSt h.val = hsEnded then .next s else .next (s.pend h.val i)

/-- THREAD_TURN_LIMIT: the thread that issues loses its turn if another is ready (R260). -/
def execThreadTurnLimit (core : Fin 192) (s : State) : Res := .next (s.passTurn core.val (s.reg .hartTurn core.val))

/-! The monitor (R247). -/

/-- The answer of an SBI call: a0 the error, a1 the value. -/
def State.sbiReturn (s : State) (h : Nat) (error : Int) (value : Nat) : State :=
  s.retire h 4 fun t => (t.setReg 10 (unsigned 64 error)).setReg 11 value

/-- An `ecall` with the extension `eid`: from U-mode it traps to S-mode with cause 8; from S-mode the monitor answers it.
[Log PRESUMED 110] -/
def State.sbiCall (s : State) (h eid : Nat) (f : Hart → State) : Res :=
  let t := s.hart h
  if !s.issues h || t.reg 17 ≠ eid then .next s
  else if t.user then .next (s.trap h 8 0)
  else .next (f t)

/-- Extensions that the monitor implements. -/
def sbiExtensions : List Nat := [0x10, 0x54494D45, 0x735049, 0x53525354]

/-- An `ecall` of another extension: U-mode traps, and the monitor implements none (R247). [Log PRESUMED 110] -/
def State.otherCall (s : State) (h : Nat) : State :=
  if (s.hart h).user then s.trap h 8 0 else s.sbiReturn h (-2) 0

/-- SBI_BASE_CALL: version 2.0, the identity of the monitor and the cores, and the probe of an extension (R247). -/
def execSbiBaseCall (h : Fin 3072) (s : State) : Res :=
  s.sbiCall h.val 0x10 fun t =>
    match t.reg 16 with
    | 0 => s.sbiReturn h.val 0 0x2000000
    | 1 => s.sbiReturn h.val 0 (Config.sbiIdentity 0).toNat
    | 2 => s.sbiReturn h.val 0 (Config.sbiIdentity 1).toNat
    | 3 => s.sbiReturn h.val 0 (ofBool (sbiExtensions.contains (t.reg 10)))
    | 4 => s.sbiReturn h.val 0 (Config.sbiIdentity 2).toNat
    | 5 => s.sbiReturn h.val 0 (Config.sbiIdentity 3).toNat
    | 6 => s.sbiReturn h.val 0 (Config.sbiIdentity 4).toNat
    | _ => s.sbiReturn h.val (-2) 0

/-- SBI_SET_TIMER: the timer interrupt is no longer pending, and comes at the time in a0 (R247, R256). -/
def execSbiSetTimer (h : Fin 3072) (s : State) : Res :=
  s.sbiCall h.val 0x54494D45 fun t =>
    if t.reg 16 ≠ 0 then s.sbiReturn h.val (-2) 0
    else
      let due := t.reg 10
      let s := s.setHart h.val { t with ip := withoutBit t.ip 5, timer := some due }
      let s := s.sbiReturn h.val 0 0
      if due ≤ s.now then s.pend h.val .timer else s

/-- SBI_SEND_IPI: a software interrupt becomes pending for each hart of the mask in a0 from the base in a1 on (R247).
[Log PRESUMED 110] -/
def execSbiSendIpi (h : Fin 3072) (s : State) : Res :=
  s.sbiCall h.val 0x735049 fun t =>
    let all := t.reg 11 = 2 ^ 64 - 1
    let hs := if all then List.range (s.reg .hartCount)
      else ((List.range 64).filter fun k => bit (t.reg 10) k).map fun k => t.reg 11 + k
    if t.reg 16 ≠ 0 then s.sbiReturn h.val (-2) 0
    else if hs.any fun k => s.reg .hartCount ≤ k then s.sbiReturn h.val (-3) 0
    else
      let s := s.sbiReturn h.val 0 0
      (hs.filter fun k => s.hartSt k ≠ hsNone && s.hartSt k ≠ hsEnded).foldl
        (fun (u : State) k => u.pend k .software) s

/-- SBI_SYSTEM_RESET: type shutdown ends the calling hart for the rest of the job; no other type is accepted (R247). -/
def execSbiSystemReset (h : Fin 3072) (s : State) : Res :=
  s.sbiCall h.val 0x53525354 fun t =>
    if t.reg 16 ≠ 0 then s.sbiReturn h.val (-2) 0
    else if t.reg 10 % 2 ^ 32 = 0 then
      (s.setReg .hartState h.val hsEnded).passTurn (s.coreOf h.val) (s.threadOf h.val)
    else if t.reg 10 % 2 ^ 32 ≤ 2 then s.sbiReturn h.val (-2) 0
    else s.sbiReturn h.val (-3) 0

end Sys2Proof.Machine
end

