-- ==== Sys2Proof/Machine/CoreFaults.lean ====
section
/-! DEFINITION. Faults of the general cores and of the supervisor pairs (R21, R244, R250 to R252, R291 to R293). -/

namespace Sys2Proof.Machine

/-- CORE_PARITY_REPLAY: a word of a core fails parity; the line is refetched, or the instruction replayed. A failure that
repeats stops the core for its self-test (R291). -/
def execCoreParityReplay (core : Fin 192) (part : CorePart) (again : Bool) (s : State) : Res :=
  let u := coreUnit core.val
  if s.reg .coreFailed core = 1 || s.tests.any (fun t => t.kind = 9 && t.unit = u) then .next s
  else if again then .next ((s.parityPersistent 9 u 0 0xFFFF 0))
  else
    let s := s.parityReplayed 9 u 0 0xFFFF 0
    .next (if part = .registers then s.addReg .coreReplays 0 1 else s)

/-- Cores of a processor die that carry a logical hart. -/
def State.coresMapped (s : State) (die : Nat) : List Nat :=
  (((List.range 192).map fun k => s.reg .hartMap (16 * k)).filter fun m => m ≠ 0xFFFF && m / 32768 = die).map
    fun m => m / 256 % 128

/-- The lowest healthy core of a processor die that carries no hart (R292). -/
def State.reserveCore (s : State) (die : Nat) : Option Nat :=
  let used := s.coresMapped die
  (List.range 96).find? fun c => s.reg .coreFailed (die * 96 + c) = 0 && !used.contains c

/-- One reserve core of a die fewer (R292). -/
def State.takeReserve (s : State) (die : Nat) : State :=
  let v := s.reg .coreReserveLeft
  s.change .coreReserveLeft 0 (withField v (8 * die) 8 (field v (8 * die) 8 - 1))

/-- The 16 contexts of a core move to another core of its die (R292). [Log DEDUCED 121] -/
def State.migrateCore (s : State) (core spare : Nat) : State :=
  let hs := (List.range 3072).filter fun h => s.reg .hartMap h ≠ 0xFFFF && s.coreOf h = core
  let m := (List.range 3072).map fun h =>
    if hs.contains h then spare / 96 * 32768 + spare % 96 * 256 + s.threadOf h else s.reg .hartMap h
  let turn := s.reg .hartTurn core
  let s := (s.changeAll .hartMap 0 m).setReg .hartTurn spare turn
  let s := { s with stores := s.stores.map fun (e : HartStore) => if e.core = core then { e with core := spare } else e }
  s.resumeCore spare

/-- CORE_SELFTEST_COMPLETE: the core resumes, or its contexts migrate to a reserve core, or its harts are lost
(R292, R293). [Log DEDUCED 121] -/
def execCoreSelftestComplete (core : Fin 192) (pass : Bool) (s : State) : Res :=
  let u := coreUnit core.val
  let die := core.val / 96
  match s.runningTest 9 u with
  | none => .next s
  | some t =>
    if pass then .next ((s.endTest t 1).resumeCore core.val)
    else
      let carries := (s.coresMapped die).contains (core.val % 96)
      let s := (s.setReg .coreFailed core 1).change .coresUsable 0 (s.reg .coresUsable - 1)
      if !carries then
        let s := (s.endTest t 6).logError { code := 0x18, severity := 2, outcome := 6, unitKind := 9, unit := u }
        .next (s.takeReserve die)
      else
        match s.reserveCore die with
        | some c =>
          let s := (s.endTest t 2).logError {
            code := 0x18, severity := 1, outcome := 2, unitKind := 9, unit := u, pause := s.now - t.at' }
          .next ((s.takeReserve die).migrateCore core.val (die * 96 + c))
        | none =>
          let s := s.endTest t 6
          let e : ErrorEvent := { code := 0x18, severity := 2, outcome := 6, unitKind := 9, unit := u }
          .next (if s.jobLoaded then s.dataLoss e else s.logError e)

/-- The standby pair is no more: its loss is recorded, with the pair that failed (R21, R35, R252). [Log DESIGN CHOICE 122] -/
def State.loseStandby (s : State) (failed : Nat) : State :=
  let s := (s.change .supStandbyOk 0 0).logError {
    code := 0x18, severity := 2, outcome := 6, unitKind := 0x0E, unit := failed }
  s.degrade 8

/-- SUPERVISOR_MISMATCH: the active pair fails; the standby pair takes over from the mirrored state, and its loss as a
standby is recorded. With no standby the node enters FAULTED. Where the standby pair fails the active pair stays
(R21, R38, R250, R252). [Log DESIGN CHOICE 122] -/
def execSupervisorMismatch (standby : Bool) (s : State) : Res :=
  if !s.supervisorUp then .next s
  else
    let active := s.reg .supActive
    if standby then .next (if s.reg .supStandbyOk = 1 then s.loseStandby (1 - active) else s)
    else if s.reg .supStandbyOk = 1 then
      .next (((s.change .supActive 0 (1 - active)).addReg .supTakeovers 0 1).loseStandby active)
    else .next s.enterFaulted

end Sys2Proof.Machine
end

