-- ==== Sys2Proof/Machine/Epoch.lean ====
section
/-! DEFINITION. The epoch fence and the job barrier, Crosswind pairing, and the start of a job (R222, R246, R379, R441, R449,
R450, R466 to R468, R548). -/

namespace Sys2Proof.Machine

/-! Signature (R449). -/

/-- `DET_SIGNATURE`, as its fields make it now. -/
def State.detSignature (s : State) : Nat :=
  digest (leBytes 4 (s.reg .numericFw) ++ leBytes 4 (s.reg .transcId) ++ leBytes 1 (s.reg .strict) ++
    leBytes 1 (s.reg .strictConvert) ++ leBytes 1 (s.reg .carryHeadroom) ++
    (List.range 16).flatMap fun n => leBytes 1 (s.reg .subn n) ++ leBytes 1 (s.reg .acc n) ++ leBytes 1 (s.reg .stats n))

/-! Pairing (R467, R468, R474). -/

/-- Digest of the power-cap objects (R456, R467). -/
def State.capDigest (s : State) : Nat :=
  digest (s.regBytes .powerCap 0 ++ s.regBytes .cclkMax 0 ++ s.regBytes .pclkMax 0)

/-- The pairing message of this node (R467). -/
def State.ownPairing (s : State) : XwPairing :=
  ⟨s.reg .logicalId, s.detSignature, s.reg .strict = 1, s.reg .fixedTiming = 1, s.capDigest, s.reg .xwPartner,
    s.reg .xwEnable = 1⟩

/-- The cause for which a pairing is refused, 0 for none (R468). -/
def State.refuseCause (s : State) (m : XwPairing) : Nat :=
  let o := s.ownPairing
  if !o.strict || !m.strict then 1
  else if !o.fixed || !m.fixed then 2
  else if o.signature ≠ m.signature then 3
  else if o.caps ≠ m.caps then 4
  else if o.lnode ≠ m.lnode then 5
  else if m.partner ≠ s.pos || !m.enabled then 6
  else 0

/-- The pairing is refused (R468). -/
def State.refusePairing (s : State) (cause : Nat) : State := (s.setReg .xwRefuseCause 0 cause).setXw xwRefused

/-- A node whose EPOCH entry has started decides once it holds the partner's message (R468). -/
def State.decidePairing (s : State) : State :=
  match s.xwMsg with
  | none => s
  | some m =>
    if s.reg .xwState ≠ xwPairing then s
    else if s.refuseCause m ≠ 0 then s.refusePairing (s.refuseCause m)
    else { s.setReg .xwReceived 0 0 with xwOwn := [], xwTheirs := [], xwStreams := none, xwDiff := none }.setXw xwPaired

/-! EPOCH entries and the fence (R222, R379, R441). -/

/-- An EPOCH entry ends with a refusal of the error log's class `code` (R222, R450, R468). [Log DESIGN CHOICE 244] -/
def State.refuseEpoch (s : State) (b : Nat) (f : Flight) (code : Nat) : State :=
  let s := s.logError { code := code, severity := 5, unitKind := 0x0F, unit := b, step := f.step, lbay := b }
  s.setFlight b { f with executed := true, phase := 0, result := code, halts := true }

/-- The EPOCH entries that wait at the bays complete once the fence has passed and a pairing is decided (R222, R467, R468).
[Log DESIGN CHOICE 158; DEDUCED 171] -/
def State.settleEpochs (s : State) : State :=
  (List.range 256).foldl (fun (u : State) b =>
    match (u.bay b).flights.find? fun f => f.op = opEpoch && !f.executed && f.phase = 1 with
    | none => u
    | some f =>
      if u.reg .xwState = xwRefused then u.refuseEpoch b f 0x16
      else if u.reg .fenceDone = 1 && u.reg .xwState ≠ xwPairing then
        u.setFlight b { f with executed := true, phase := 0 }
      else u) s

/-- The bays of the directory start at their entry 0; of two that share a physical bay the lower runs first (R124, R197,
R548). A marked directory entry starts no bay (R301). [Log DESIGN CHOICE 123] -/
def State.startBays (s : State) : State :=
  (List.range 256).foldl (fun (u : State) b =>
    let a := u.reg .tableDir + 8 * b
    let t := u.load a 8
    if t = 0 || u.poisoned a (a + 8) then u
    else
      let shared := (List.range b).any fun k => (u.bay k).present && u.reg .lbayMap k = u.reg .lbayMap b
      (u.setBay b { Bay.idle with present := true, table := t, parked := shared, event := (u.bay b).event }).setTableState b
        tsRunning) s

/-- The job starts: the node enters RUN, every table and hart starts, and JOB_START completes (R38, R246, R548). -/
def State.startJob (s : State) : State :=
  let s := s.setReg .startPending 0 0
  if !(s.isIn stReady || s.isIn stDegraded) then s
  else
    let s := s.setReg .jobRunning 0 1
    let s := s.enter s.ratedState
    let s := if s.reg .tableDir = 0 then s else s.startBays
    (s.startHarts none).endOpc 2 0 0

/-- A restored node resumes: replay begins (R513). [Log DEDUCED 175] -/
def State.resumeRestored (s : State) : State :=
  let s := { s.setReg .jobRunning 0 1 with recovery := none }.setRecovery 4
  let s := if s.isIn stReady || s.isIn stRun || s.isIn stDegraded then s.enter s.ratedState else s
  s.endOpc 2 0 0

/-- The fence of the installed epoch passes (R379, R513, R548). -/
def State.fencePassed (s : State) : State :=
  let s := s.setReg .fenceDone 0 1
  let s := if s.reg .startPending = 1 then s.startJob else s
  let s := if s.reg .recoveryState = 3 then s.resumeRestored else s
  s.settleEpochs

/-- Job members of this node's group. -/
def State.members (s : State) : List Nat := (List.range 17).filter fun q => (s.nodeAt q).isSome

/-- The fence messages of every other job member of the group are held (R379). -/
def State.fenceMessagesHeld (s : State) : Bool := s.peers.all fun q => bit (s.reg .fenceHeld) q

/-- The job lies within this group (R441). [Log DEDUCED 156] -/
def State.oneGroup (s : State) : Bool := s.reg .jobNodes ≤ s.members.length

/-- This node represents its group in the job barrier: no member has a lower logical identifier (R441). -/
def State.represents (s : State) : Bool := s.peers.all fun q => (s.nodeAt q).all fun n => decide (s.lnode ≤ n)

/-- A member that holds every fence message of its group: in a one-group job its barrier is complete; otherwise the group's
representative joins the barrier of the representatives (R441). -/
def State.checkFence (s : State) : State :=
  if s.reg .fenceJoined = 1 && s.reg .fenceDone = 0 && s.fenceMessagesHeld then
    if s.oneGroup then s.fencePassed else if s.represents then s.joinBarrier else s
  else s

/-- Every unanswered request goes out, and the mail that may start does (R379). -/
def State.sendHeld (s : State) : State := (s.requests.foldl (fun (t : State) r => t.emit r.pos r.p) s).startMails

/-- The node joins the fence of the installed epoch, once; what it has held back follows its fence messages (R379).
[Log DEDUCED 85] -/
def State.joinFence (s : State) : State :=
  let s :=
    if s.reg .fenceJoined = 1 then s
    else (s.peers.foldl (fun (u : State) q => u.control q (.fence false)) (s.setReg .fenceJoined 0 1)).sendHeld
  s.checkFence

/-- A new epoch is installed: its fence has not begun, and what belongs to the run of another epoch is gone (R376, R379,
R513). [Log DEDUCED 171] -/
def State.installEpoch (s : State) : State :=
  { ((s.setReg .fenceJoined 0 0).setReg .fenceHeld 0 0).setReg .fenceDone 0 0 with
    requests := [], early := [], seqOut := [], seqIn := [], answered := [], refusals := [], hartReplies := []
    stuck := s.stuck.filter fun e => e.2.h.tclass.val = 5 || e.2.h.epoch.toNat = 0
    staged := [], closes := [], roundsEnded := [], fences := []
    mails := [], mailIn := [], mailNext := [], transit := [], colls := [], collDone := [], collHeld := [] }

/-- EPOCH: the oldest started EPOCH of the bay checks its epoch and `DET_EXPECT`, sends the pairing message, and joins the
fence (R222, R379, R450, R467). [Log DEDUCED 85] -/
def execEpoch (b : Fin 256) (s : State) : Res :=
  match s.ready b.val fun f => f.op = opEpoch with
  | none => .next s
  | some f =>
    let expect := s.reg .detExpect
    let differs := expect ≠ 0 && expect ≠ s.detSignature
    if f.param 0 16 ≠ s.reg .jobEpoch then .next (s.refuseEpoch b.val f 0x0E)
    else if differs && s.reg .strict = 1 then .next (s.refuseEpoch b.val f 0x16)
    else
      let s := if differs then
          (s.addReg .sigMismatches 0 1).auditInternal (Reg.detSignature.objAt 0) 0 (leBytes 8 expect) (leBytes 8 s.detSignature)
        else s
      let s := s.stillWaits b.val f
      let s := if s.reg .xwEnable = 1 && s.reg .xwState = xwOff then
          ((s.setXw xwPairing).tellPartner (.xwPair (some s.ownPairing))).decidePairing
        else s
      .next s.joinFence.settleEpochs

/-- DEADLINE_MISSED: the deadline of the k-th entry in flight passes, which it does not while its clock stands (R227, R228). A pairing whose partner is
unreachable when the deadline of its EPOCH passes is refused (R468). [Log DEDUCED 71] -/
def execDeadlineMissed (b : Fin 256) (k : Nat) (s : State) : Res :=
  let x := s.bay b.val
  let all := x.colls ++ x.flights
  match all[k]? with
  | none => .next s
  | some f =>
    if bit f.rflags 0 || x.stops then .next s
    else
      let p := s.reg .deadlinePolicy
      let mark (g : Flight) : Flight :=
        if g.serial = f.serial then { g with rflags := g.rflags ||| 1, halts := g.halts || p = 1 } else g
      let s := s.setBay b.val { x with colls := x.colls.map mark, flights := x.flights.map mark }
      let s := (s.addReg .deadlinesMissed 0 1).logError {
        code := 0x0C, severity := 5, outcome := 5, unitKind := 0x0F, unit := b.val, step := f.step, lbay := b.val }
      let s := if f.op = opEpoch && s.reg .xwState = xwPairing && (s.hopTo (s.reg .xwPartner)).isNone then
          (s.refusePairing 6).settleEpochs
        else s
      .next (if p = 2 then s.requestLull else s)

/-- EPOCH_FENCE_MESSAGE: a member's fence message is held, or given up where it withdraws; one of another epoch or of a position without
an identity is dropped (R370, R376, R379, R548). [Log DEDUCED 194] -/
def execEpochFenceMessage (q : Fin 17) (h : Header) (withdrawn : Bool) (s : State) : Res :=
  .next (s.takeControl q.val h (.fence withdrawn) fun s =>
    let t := s.setFlag .fenceHeld 0 (s.cameFrom q.val h) (!withdrawn)
    if withdrawn then t else t.checkFence)

/-- The instance of the representatives' barrier has completed here (R441). -/
def State.barrierDone (s : State) : Bool := s.collDone.any fun d => d.1 = jobBarrier

/-- JOB_BARRIER_COMPLETE: the barrier of the representatives has completed at a representative, which releases its group, or the
release arrives at another member (R441). [Log DEDUCED 156] -/
def execJobBarrierComplete (s : State) : Res :=
  if s.reg .fenceJoined = 0 || s.reg .fenceDone = 1 || s.oneGroup then .next s
  else if s.represents then
    if s.barrierDone then .next (s.peers.foldl (fun (u : State) q => u.control q .release) s).fencePassed else .next s
  else .next s.fencePassed

/-- A Crosswind message arrives: it is accepted only in class 7 with epoch 0, from the position in `XW_PARTNER` by its link or its
detour, while `XW_ENABLE` is 1; one for another position is forwarded, and any other is dropped and counted (R364, R376, R467). -/
def State.takeXw (s : State) (v : Arrival) (b : Body) (f : State → State) : State :=
  let partner := s.reg .xwPartner
  let way := if v.h.fwd then s.unusable partner else decide (v.pos.val = partner)
  if s.reg .xwEnable = 1 && way && v.h.tclass.val = 7 && v.h.epoch.toNat = 0 then (if s.isIn stFaulted then s else f s)
  else if s.elsewhere v.h then s.forward ⟨v.h, b⟩
  else s.dropStale v.h

/-- CROSSWIND_PAIRING_MESSAGE: the partner's message is held and a waiting node decides; word that the partner has left ends
the pairing (R376, R467, R468, R474). [Log DEDUCED 157] -/
def execCrosswindPairingMessage (v : Arrival) (m : Option XwPairing) (s : State) : Res :=
  .next (s.takeXw v (.xwPair m) fun s =>
    match m with
    | none => s.endPairing
    | some m => ({ s with xwMsg := some m }.decidePairing).settleEpochs)

end Sys2Proof.Machine
end

