-- ==== Sys2Proof/Machine/Crosswind.lean ====
section
/-! DEFINITION. The time-step boundary (R94, R226, R387, R464, R465, R521 to R523), the entry into Lull and the resume from it
(R38, R45, R248), and Crosswind's exchange of digests (R469 to R473). -/

namespace Sys2Proof.Machine

/-! Crosswind (R469 to R473). -/

/-- The result of a comparison joins the step record of its step (R465). -/
def State.noteCompared (s : State) (t digest result : Nat) : State :=
  let a := s.reg .digestRing + 64 * (t % 1024)
  if s.reg .digestRing = 0 then s
  else (s.jobWrite (a + 0x20) (leBytes 8 digest)).jobWrite (a + 0x28) [BitVec.ofNat 8 result]

/-- Node digests of a step are compared: a difference is raised, fires the freeze, and the stream digests go out
(R469, R472). -/
def State.compareStep (s : State) (x : XwStep) (theirs : Nat) : State :=
  let s := { s with
    xwOwn := s.xwOwn.filter fun y => y.tstep ≠ x.tstep || decide (x.digest ≠ theirs)
    xwTheirs := s.xwTheirs.filter fun e => e.1 ≠ x.tstep }
  if x.digest = theirs then (s.addReg .xwCompared 0 1).noteCompared x.tstep theirs 1
  else
    let s := s.noteCompared x.tstep theirs 2
    let s := s.logError {
      code := 0x15, severity := 5, outcome := 5, unitKind := 0x0D, unit := s.reg .xwPartner, detail := 0 }
    let s := { s.fire 3 0x15 0 0xFFFF with xwDiff := some ⟨x.tstep, false, 0, 0, 0, 0⟩ }
    s.tellPartner (.xwStreams x.tstep x.streams)

/-- Steps of which both digests are held are compared, oldest first, until one differs (R469). -/
def State.compareSteps (s : State) : State :=
  s.xwOwn.foldl (fun (u : State) x =>
    if u.reg .xwState ≠ xwPaired || u.xwDiff.isSome then u
    else
      match u.xwTheirs.lookup x.tstep with
      | some d => u.compareStep x d
      | none => u) s

/-- The aligned 8 B word that holds an address. -/
def State.wordAt (s : State) (a : Nat) : Nat := s.load (a / 8 * 8) 8

/-- `XW_RECORD` is written and logged, and `XW_POLICY` applies (R473). `gran`, `dstep`, the address and the words say how far
the difference is located. [Log DESIGN CHOICE 158] -/
def State.diverge (s : State) (d : XwDiff) (gran dstep addr ownWord word : Nat) : State :=
  let old := s.regBytes .xwRecord 0
  let phys := s.reg .physId / 32 * 32 + s.reg .xwPartner
  let bs := leBytes 8 d.tstep ++ leBytes 2 (d.stream / 8) ++ leBytes 1 (d.stream % 8) ++ leBytes 1 gran ++
    leBytes 2 dstep ++ leBytes 2 0 ++ leBytes 8 addr ++ leBytes 8 d.ours ++ leBytes 8 d.theirs ++ leBytes 8 ownWord ++
    leBytes 8 word ++ leBytes 4 phys ++ leBytes 4 d.count
  let s := (s.setBytes .xwRecord 0 bs).auditInternal (Reg.xwRecord.objAt 0) 0 old bs
  let s := ({ s with xwDiff := none, xwOwn := [], xwTheirs := [] }.setXw xwDiverged).raise .alertCause 5
  if s.reg .xwPolicy = 0 then s.requestLull else s

/-- This node's chunk records of a stream of a step (R471). -/
def State.ownChunks (s : State) (t stream : Nat) : List ChunkRecord :=
  let x := s.bay (stream / 8)
  let first := x.lasts - x.oldChunks.length
  (x.oldChunks.getD (t - first) []).filter fun c => c.stream = stream % 8

/-- The stream digests of a step that differs are compared once both are held; its chunk records go to the partner, and without
any the difference is resolved to the stream (R472). -/
def State.compareStreams (s : State) : State :=
  match s.xwDiff, s.xwStreams with
  | some d, some (t, theirs) =>
    if d.found || t ≠ d.tstep then s
    else
      let ours := ((s.xwOwn.find? fun x => x.tstep = t).map XwStep.streams).getD []
      let ks := (List.range 2048).filter fun k => (ours.lookup k).getD 0 ≠ (theirs.lookup k).getD 0
      let k := ks.headD 0
      let d := { d with
        found := true, stream := k, ours := (ours.lookup k).getD 0, theirs := (theirs.lookup k).getD 0
        count := ks.length }
      let s := { s with xwDiff := some d, xwStreams := none }
      let cs := s.ownChunks t k
      let s := s.tellPartner (.xwChunks t (cs.map fun c => (c.addr, c.digest)))
      if cs.isEmpty then s.diverge d 0 0 0 0 0 else s
  | _, _ => s

/-- A message of the exchange arrives from the partner of a pairing that stands (R376, R469). -/
def State.takeExchange (s : State) (v : Arrival) (b : Body) (f : State → State) : State :=
  s.takeXw v b fun s => if s.reg .xwState = xwPaired then f s else s

/-- Entries that the lag no longer holds end their hold (R470). -/
def State.endHolds (s : State) : State :=
  s.bays.foldl (fun (u : State) e => if e.2.head.any fun f => u.lagHold e.2 f then u else u.endHold e.1) s

/-- CROSSWIND_DIGEST_MESSAGE (R469, R470). -/
def execCrosswindDigestMessage (v : Arrival) (tstep digest : Dword) (s : State) : Res :=
  .next (s.takeExchange v (.xwDigest tstep.toNat digest.toNat) fun s =>
    let s := { s.addReg .xwReceived 0 1 with xwTheirs := s.xwTheirs ++ [(tstep.toNat, digest.toNat)] }
    s.endHolds.compareSteps.compareStreams)

/-- CROSSWIND_STREAM_DIGESTS: the partner's stream digests of a step, by logical bay * 8 + stream (R472). -/
def execCrosswindStreamDigests (v : Arrival) (tstep : Dword) (streams : List (Nat × Nat)) (s : State) : Res :=
  .next (s.takeExchange v (.xwStreams tstep.toNat streams) fun s =>
    { s with xwStreams := some (tstep.toNat, streams) }.compareStreams)

/-- The chunks of the step that differs are compared: the first whose digests differ is computed again and goes to the partner where it
is unchanged, and the difference is resolved as far as both nodes' chunks allow (R472, R473). -/
def State.compareChunks (s : State) (d : XwDiff) (records : List (Nat × Nat)) (intact : Bool) (data : List Byte) (word : Nat) :
    State :=
  match ((s.ownChunks d.tstep d.stream).zip records).find? fun e => e.1.digest ≠ e.2.2 with
  | none => s.diverge d 0 0 0 0 0
  | some (c, _) =>
    let mine := c.bytes.map s.byte
    let same := decide (digest mine = c.digest)
    let first := (c.bytes.zip (mine.zip data)).find? fun e => e.2.1 ≠ e.2.2
    let own := (first.map fun e => s.wordAt e.1).getD 0
    let s := s.tellPartner (.xwBytes d.tstep same (if same then mine else []) own)
    match first with
    | some (a, _) => if intact && same then s.diverge d 2 c.step a own word else s.diverge d 1 c.step c.addr 0 0
    | none => s.diverge d 1 c.step c.addr 0 0

/-- CROSSWIND_CHUNK_EXCHANGE: the partner's chunk records of the stream, whether it found its chunk unchanged, the chunk's bytes
and the aligned word at the first byte that differs (R472, R473). -/
def execCrosswindChunkExchange (v : Arrival) (records : List (Nat × Nat)) (intact : Bool) (data : List Byte)
    (word : Dword) (s : State) : Res :=
  .next (s.takeExchange v (.xwBytes ((s.xwDiff.map XwDiff.tstep).getD 0) intact data word.toNat) fun s =>
    match s.xwDiff with
    | none => s
    | some d => if d.found then s.compareChunks d records intact data word.toNat else s)

/-! Node digests (R464, R521). -/

/-- Digests of the used streams of the oldest closed step of every bay that has passed `TSTEP`, by logical bay * 8 + stream
(R463, R464). -/
def State.stepStreams (s : State) : List (Nat × Nat) :=
  s.bays.flatMap fun e =>
    if e.2.lasts ≤ s.reg .tstep then []
    else
      ((e.2.closed.headD []).zipIdx).filterMap fun c => c.1.map fun v => (e.1 * 8 + c.2, v ^^^ crcOnes)

/-- The node digest of a step (R464). -/
def nodeDigest (streams : List (Nat × Nat)) : Nat :=
  if streams.isEmpty then 0
  else digest (streams.flatMap fun e => leBytes 2 (e.1 / 8) ++ leBytes 1 (e.1 % 8) ++ leBytes 5 0 ++ leBytes 8 e.2)

/-- A digest is kept for a step, at most 1,024 of them (R521). -/
def keepDigest (t d : Nat) (ks : List (Nat × Nat)) : List (Nat × Nat) :=
  ((t, d) :: ks.filter fun e => e.1 ≠ t).take 1024

/-- A replayed step is compared with the digest that was kept for it (R522, R523). -/
def State.verifyReplay (s : State) (t d : Nat) : State :=
  if s.reg .recoveryState ≠ 4 && s.reg .recoveryState ≠ 5 then s
  else
    match s.kept.lookup t with
    | none => s
    | some k =>
      if k = d then (s.addReg .replayCompared 0 1).setRecovery 5
      else
        let s := s.snapshotInvalid 0 0 7
        let s := (List.range 256).foldl (fun (u : State) b =>
          if (u.bay b).present && u.tableState b ≠ tsEnded then u.haltTable b none else u) s
        s.setRecovery 6

/-- NODE_DIGEST_MESSAGE: the hot spare keeps a member's node digest (R521). -/
def execNodeDigestMessage (v : Arrival) (tstep digest : Dword) (s : State) : Res :=
  .next (s.takeControl v.pos.val v.h (.nodeDigest tstep.toNat digest.toNat) fun s =>
    let n := v.h.src.val
    if bit (s.reg .groupMap s.pos) 21 then
      let mine := (s.keptFor.filter fun e => e.1 = n && e.2.1 ≠ tstep.toNat).take 1023
      { s with keptFor := (n, tstep.toNat, digest.toNat) :: (mine ++ s.keptFor.filter fun e => e.1 ≠ n) }
    else s)

/-! The boundary (R226, R465). -/

/-- Bays of the job that have not ended have all completed the LAST entry of the present step, and some bay has. -/
def State.boundaryReached (s : State) : Bool :=
  let t := s.reg .tstep
  (s.bays.all fun e => !e.2.present || decide (t < e.2.lasts) || s.tableState e.1 = tsEnded) &&
    s.bays.any fun e => e.2.present && decide (t < e.2.lasts)

/-- The step record (R465). -/
def State.stepRecord (s : State) (d streams : Nat) : List Byte :=
  leBytes 8 (s.reg .tstep) ++ leBytes 8 d ++ leBytes 8 s.now ++ leBytes 2 streams ++ leBytes 2 (s.reg .jobEpoch) ++
    leBytes 4 0 ++ leBytes 8 0 ++ leBytes 24 0

/-- A round of ordered RACC ends here (R387). -/
def State.endRound (s : State) : State :=
  { s with roundsEnded := s.roundsEnded ++ [s.reg .raccRound] }.addReg .raccRound 0 1

/-- What a bay keeps of the closed steps: digests of those not yet passed, and chunk records that Crosswind may still compare
(R469). -/
def Bay.passStep (x : Bay) (t lag : Nat) : Bay :=
  if x.lasts ≤ t then x
  else
    let first := x.lasts - x.oldChunks.length
    { x with closed := x.closed.drop 1, oldChunks := x.oldChunks.drop (t - lag - first) }

/-- The node's part in Crosswind at a boundary (R469). -/
def State.exchange (s : State) (t d : Nat) (streams : List (Nat × Nat)) : State :=
  if s.reg .xwState ≠ xwPaired then s
  else
    let s := { s with xwOwn := s.xwOwn ++ [(⟨t, d, streams⟩ : XwStep)] }.tellPartner (.xwDigest t d)
    s.compareSteps.compareStreams

/-- The time-step boundary passes: digests, the step record, replay verification, Crosswind, the round of RACC, and the writes
that waited (R94, R387, R464, R465, R469, R521, R522). -/
def State.passBoundary (s : State) : State :=
  let t := s.reg .tstep
  let streams := s.stepStreams
  let d := nodeDigest streams
  let s := streams.foldl (fun (u : State) e => u.setReg .streamDigests e.1 e.2) (s.clearReg .streamDigests)
  let s := s.setReg .nodeDigest 0 d
  let s := if s.reg .digestRing = 0 then s
    else s.jobWrite (s.reg .digestRing + 64 * (t % 1024)) (s.stepRecord d streams.length)
  let s := s.verifyReplay t d
  let s := { s with kept := keepDigest t d s.kept }
  let s := match s.sparePos with
    | some q => s.control q (.nodeDigest t d)
    | none => s
  let s := { s with bays := s.bays.map fun (e : Nat × Bay) => (e.1, e.2.passStep t (s.reg .xwLag)) }
  let s := s.setReg .tstep 0 (t + 1)
  let s := s.exchange t d streams
  let s := { s.endRound with fences := [] }
  s.applyDeferred.fitRoster

/-! Lull (R38, R45, R248). -/

/-- Lull has been asked for, and every bay that has not ended stands at the boundary. -/
def State.lullReached (s : State) : Bool :=
  let t := s.reg .tstep
  s.reg .stateRequest = 5 && (s.isIn stRun || s.isIn stDegraded) && s.reg .jobRunning = 1 &&
    (s.bays.all fun e => !e.2.present || s.tableState e.1 = tsEnded ||
      (e.2.atLast && e.2.lasts = t && e.2.head.isNone && e.2.flights.isEmpty && e.2.colls.isEmpty))

/-- The node enters LULL, and its harts stop (R38, R248). -/
def State.enterLull (s : State) : State := ((s.change .stateRequest 0 0).enter stLull).stopHarts

/-- TIME_STEP_BOUNDARY: the boundary passes once LAST has completed at every bay, and the node that has been asked to enters
LULL there (R38, R226). -/
def execTimeStepBoundary (s : State) : Res :=
  let s := if s.boundaryReached && s.reg .jobRunning = 1 then s.passBoundary else s
  .next (if s.lullReached then s.enterLull else s)

/-- The node leaves LULL for RUN or DEGRADED, and its harts go on unless a rollback is awaited (R38, R44, R248, R492). -/
def State.resume (s : State) : State :=
  let s := s.setReg .stateRequest 0 0
  let s := s.enter s.ratedState
  if s.reg .recoveryState = 1 || s.reg .recoveryState = 2 then s else s.releaseHarts

/-- STATE_REQUEST_RESUME: a write of 0x04 resumes from LULL (R38). -/
def execStateRequestResume (q : Requester) (s : State) : Res :=
  .next (s.writeRequest q (Reg.stateRequest.objAt 0) [4] fun _ _ s => s.resume)

end Sys2Proof.Machine
end

