-- ==== Sys2Proof/Machine/Faults.lean ====
section
/-! DEFINITION. Replays and tests of bridges and couplers, the acknowledgement of errors and alerts, the end of a Squall
warning, and the loss of a group peer (R480, R481, R483 to R487, R493, R495). -/

namespace Sys2Proof.Machine

/-- `UNIT_KIND` and `UNIT` of a hop (R479). -/
def hopUnit : Hop → Nat × Nat
  | .onDie => (0, 0)
  | .bridge b g => (5, b.val * 256 + g.val)
  | .coupler d => (8, d.val)
  | .port f p => (0x0A, f.val * 8 + p.val)

/-- WORD_REPLAY: the receiver of a hop asks for the word again; a word that fails again starts the element's test, if it has
one (R483, R484). -/
def execWordReplay (hop : Hop) (again : Bool) (s : State) : Res :=
  let (kind, unit) := hopUnit hop
  if !again then .next (s.parityReplayed kind unit 0 0xFFFF 0)
  else if kind = 0 then
    .next (s.logError { code := 2, severity := 0 })
  else if s.tests.any (fun t => t.kind = kind && t.unit = unit) then .next s
  else .next (s.parityPersistent kind unit 0 0xFFFF 0)

/-! Bridges (R485, R486). -/

/-- State of a segment of a bridge. -/
def State.wireState (s : State) (k : Nat) : Nat := Store.at 0 s.segments k

/-- `BRIDGE_STATE` as the segments of a bridge make it (R486). -/
def State.bridgeCode (s : State) (b : Fin 23) : Nat :=
  let mine := s.segments.filter fun e => e.1 / 256 = b.val
  let off := (mine.filter fun e => e.2 = 2).length
  if off = 0 then (if mine.isEmpty then 0 else 1)
  else if off < Config.bridgeSegments b then 2
  else 3

/-- A die has no bridge left, and so no route (R486). [Log DESIGN CHOICE 141] -/
def State.dieCutOff (s : State) : Bool :=
  (List.range 14).any fun d => (bridgeEnds.zipIdx).all fun e => !(e.1.1 = d || e.1.2 = d) || s.reg .bridgeState e.2 = 3

/-- BRIDGE_SEGMENT_TEST_COMPLETE: the spare wire takes the place of the failed one, or the segment is switched off; a die
without a route is a node loss (R484 to R486). -/
def execBridgeSegmentTestComplete (bridge : Fin 23) (segment : Fin 256) (pass : Bool) (s : State) : Res :=
  let u := bridge.val * 256 + segment.val
  match s.runningTest 5 u with
  | none => .next s
  | some t =>
    if pass then .next (s.endTest t 1)
    else
      let spare := s.wireState u = 0
      let s := { s with segments := Store.put 0 s.segments u (if spare then 1 else 2) }
      let s := s.endTest t (if spare then 2 else 4)
      let s := if spare then
          s.logError {
            code := 4, severity := 1, outcome := 2, unitKind := 5, unit := u, pause := s.now - t.at' }
        else s
      let s := s.change .bridgeState bridge (s.bridgeCode bridge)
      .next (if s.dieCutOff then s.enterFaulted else s)

/-- COUPLER_BIST_COMPLETE: the coupler resumes, or is retired and another serves its parts; without any the node enters
FAULTED (R484, R487). -/
def execCouplerBistComplete (die : Fin 8) (pass : Bool) (s : State) : Res :=
  match s.runningTest 8 die with
  | none => .next s
  | some t =>
    if pass then .next (s.endTest t 1)
    else
      let v := withBit (s.reg .couplerState) die
      let u := (((s.endTest t 2).change .couplerState 0 v).countHandover s).noteQueues
      let u := u.logError { code := 0x18, severity := 1, outcome := 2, unitKind := 8, unit := die, pause := s.now - t.at' }
      .next (if v = 255 then u.enterFaulted else u)

/-! Alerts (R480, R481, R495). -/

/-- ERROR_ACK_WRITE: `ALERT_CAUSE`[0] is cleared once every record of severity 1-4 is acknowledged (R480). -/
def execErrorAckWrite (q : Requester) (v : Dword) (s : State) : Res :=
  .next (s.writeRequest q (Reg.errorAck.objAt 0) (leBytes 8 v.toNat) fun _ _ t =>
    if t.reg .lastAlertSeq ≤ v.toNat then t.setReg .alertCause 0 (withoutBit (t.reg .alertCause) 0) else t)

/-- The condition of a bit of `ALERT_CAUSE` has ended (R481). -/
def State.causeEnded (s : State) (b : Nat) : Bool :=
  if b = 1 then s.reg .squallState = 0
  else if b = 2 then
    s.mapoutWaits.isEmpty || s.reg .mapoutForce ≠ 0 || decide (s.reg .allocTop ≤ s.reg .stackTop - 0x80000000)
  else if b = 3 then (List.range 24).all fun l => s.reg .linkState l ≠ linkMiswired
  else if b = 4 then s.reg .coolantState = 0
  else decide (b = 5 ∨ b = 6)

/-- ALERT_CAUSE_WRITE: each written bit of [6:1] whose condition has ended is cleared (R481). -/
def execAlertCauseWrite (q : Requester) (v : Word) (s : State) : Res :=
  let old := s.reg .alertCause
  let new := [1, 2, 3, 4, 5, 6].foldl (fun a b => if v.getLsbD b && s.causeEnded b then withoutBit a b else a) old
  .next (s.writeRequest q (Reg.alertCause.objAt 0) (leBytes 4 v.toNat) fun _ _ t => t.setReg .alertCause 0 new)

/-- SQUALL_CLEAR: the score has fallen below the threshold and the warning ends (R495). -/
def execSquallClear (s : State) : Res :=
  if s.reg .squallState = 1 && decide (s.squallNow < s.reg .squallClear * 65536) then .next (s.change .squallState 0 0)
  else .next s

/-! Loss of a peer (R493). -/

/-- PEER_LOSS_TIMEOUT: no link to a group peer has been UP for `PEER_LOSS_TIME`; every request to it ends (R366, R493).
[Log DESIGN CHOICE 149] -/
def execPeerLossTimeout (pos : Fin 17) (s : State) : Res :=
  match s.nodeAt pos.val with
  | none => .next s
  | some n =>
    if pos.val = s.pos || linkCarries (s.linkTo pos.val) then .next s
    else
      let s := s.logError { code := 5, severity := 4, outcome := 6, unitKind := 0x0D, unit := pos.val, lnode := n }
      let rs := s.requests.filter fun r => r.pos = pos.val
      let s := { s with requests := s.requests.filter fun r => r.pos ≠ pos.val }
      .next (rs.foldl (fun (u : State) r => u.deliver r [] false 5 0) s)

end Sys2Proof.Machine
end

