-- ==== Sys2Proof/Machine/Stacks.lean ====
section
/-! DEFINITION. Stacks and last-level memory: reads, writes and their ECC, the narrow path, channels, map-out, repair, scrub
and slices (R300 to R346). -/

namespace Sys2Proof.Machine

/-! Channels (R307 to R310). -/

/-- Codes of `CHANNEL_STATE` (R307). -/
abbrev csActive : Nat := 0
abbrev csRetraining : Nat := 1
abbrev csTesting : Nat := 2
abbrev csMigrating : Nat := 3
abbrev csMappedOut : Nat := 4
abbrev csPending : Nat := 5

/-- `CHANNEL_STATE` of a channel. -/
def State.chanState (s : State) (ch : Nat) : Nat := s.reg .channelState ch

/-- The pattern test of a channel starts, for the newest error record, unless the channel is tested or on its way out
(R309). -/
def State.testChannel (s : State) (ch code : Nat) : State :=
  if s.chanState ch = csActive || s.chanState ch = csRetraining then
    let s := s.setChan ch { s.chan ch with testCode := code }
    (s.change .channelState ch csTesting).startTest 3 ch 0 (s.reg .errorHead)
  else s

/-- A channel retrains (R308). -/
def State.retrain (s : State) (ch : Nat) : State :=
  let c := s.chan ch
  if c.retraining.isSome || s.chanState ch = csMappedOut then s
  else
    let s := s.logError { code := 8, severity := 0, unitKind := 3, unit := ch, pause := 0xFFFFFFFF }
    let s := s.addReg .retrains (ch / 32) 1
    let s := s.setChan ch { c with retraining := some (s.reg .errorHead, s.now), retrains := (s.now :: c.retrains).take 3 }
    if s.chanState ch = csActive then s.change .channelState ch csRetraining else s

/-- The last three of a list of times lie within a span. -/
def threeWithin (now span : Nat) (ts : List Nat) : Bool :=
  decide (3 ≤ ts.length) && (ts.take 3).all fun t => decide (now < t + span)

/-- CHANNEL_PARITY_REPLAY: the word is replayed; the third replay within 1 ms starts a retrain (R308). -/
def execChannelParityReplay (ch : Fin 1024) (s : State) : Res :=
  if s.chanState ch.val = csMappedOut then .next s
  else
    let s := s.parityReplayed 3 ch.val 0 0xFFFF 0
    let c := s.chan ch.val
    let ts := (s.now :: c.replays).take 3
    if threeWithin s.now 1000000 ts then .next ((s.setChan ch.val { c with replays := [] }).retrain ch.val)
    else .next (s.setChan ch.val { c with replays := ts })

/-- CALIBRATION_DRIFT (R308). -/
def execCalibrationDrift (ch : Fin 1024) (s : State) : Res := .next (s.retrain ch.val)

/-! Repair (R322 to R326). -/

/-- An element as bits [31:0] of a journal entry (R325). -/
def elementBits32 (e : StackElement) : Nat :=
  e.core.val + e.channel.val * 2 ^ 5 + e.pc.val * 2 ^ 10 + e.bank.val * 2 ^ 11 + e.row.toNat * 2 ^ 16

/-- Channel of an element of a stack. -/
def elementChannel (stack element : Nat) : Nat := stack * 32 + field element 5 5

/-- Remap rows of a channel that are used or being filled. -/
def State.rowsUsed (s : State) (ch : Nat) : Nat :=
  (s.remaps.filter fun r => elementChannel r.stack r.element = ch).length +
    (s.remapping.filter fun r => elementChannel r.1 r.2 = ch).length

/-- The row is remapped, or is being. -/
def State.isRemapped (s : State) (stack element : Nat) : Bool :=
  s.remapping.contains (stack, element) || s.remaps.any fun r => r.stack = stack && r.element = element

/-- A row starts to be copied into a remap row (R322). -/
def State.startRemap (s : State) (stack element : Nat) : State :=
  if s.isRemapped stack element then s else { s with remapping := s.remapping ++ [(stack, element)] }

/-- The lowest remap row of a channel that is free. [Log DESIGN CHOICE 131] -/
def State.freeRow (s : State) (ch : Nat) : Nat :=
  let used := (s.remaps.filter fun r => elementChannel r.stack r.element = ch).map Remap.row
  ((List.range (used.length + 1)).find? fun k => !used.contains k).getD 0

/-- A soft remap is installed at a remap row; below 25% of the stack's rows `DEGRADE_CAUSE`[7] is set (R35, R322). -/
def State.installRemap (s : State) (stack element row : Nat) : State :=
  let s := { s with remaps := s.remaps ++ [(⟨stack, element, row⟩ : Remap)] }
  let s := s.change .reserveRowsLeft stack (s.reg .reserveRowsLeft stack - 1)
  if s.reg .reserveRowsLeft stack * 4 < 1966080 && !s.flag .degradeCause 0 7 then s.degrade 7 else s

/-- SOFT_REMAP_COMPLETE: the oldest row of a stack that is being copied is installed and released (R322). -/
def execSoftRemapComplete (st : Fin 32) (s : State) : Res :=
  match s.remapping.find? fun r => r.1 = st.val with
  | none => .next s
  | some r =>
    let s := { s with remapping := s.remapping.erase r }
    .next (s.installRemap r.1 r.2 (s.freeRow (elementChannel r.1 r.2)))

/-- The map-out that waits at the head of the list is held back by `ALLOC_TOP` (R316). -/
def State.allocBlocks (s : State) : Bool :=
  s.reg .mapoutForce = 0 && decide (s.reg .stackTop - 0x80000000 < s.reg .allocTop)

/-- Some channel migrates. -/
def State.migrating (s : State) : Option Nat :=
  (List.range 1024).find? fun ch => s.chanState ch = csMigrating

/-- The package asserts ALERT_N for a map-out that `ALLOC_TOP` holds back (R316). -/
def State.noteBlocked (s : State) : State :=
  match s.mapoutWaits with
  | [] => s
  | ch :: _ =>
    if s.allocBlocks && s.migrating.isNone then
      let c := s.chan ch
      (s.setChan ch { c with mapout := c.mapout.map fun m => (m.1, m.2.1, true) }).raise .alertCause 2
    else s

/-- A channel is to be mapped out; a 33rd puts the node in FAULTED (R310, R316, R319). [Log DEDUCED 129] -/
def State.decideMapout (s : State) (ch : Nat) : State :=
  if s.mapoutWaits.contains ch || s.chanState ch = csMigrating || s.chanState ch = csMappedOut then s
  else if 32 ≤ s.reg .channelsOut + s.mapoutWaits.length then
    (s.logError { code := 9, severity := 2, outcome := 6, unitKind := 3, unit := ch }).enterFaulted
  else
    let s := s.logError { code := 9, severity := 2, unitKind := 3, unit := ch, pause := 0xFFFFFFFF }
    let s := s.setChan ch { s.chan ch with mapout := some (s.reg .errorHead, s.now, false) }
    ({ s with mapoutWaits := s.mapoutWaits ++ [ch] }.change .channelState ch csPending).noteBlocked

/-- A stack whose base die fails puts the node in FAULTED (R319). -/
def State.failBaseDie (s : State) (st : Nat) : State :=
  (s.logError { code := 0x18, severity := 4, outcome := 6, unitKind := 4, unit := st }).enterFaulted

/-- PATTERN_TEST_COMPLETE: the channel goes back to ACTIVE, with its failing rows remapped, or is mapped out (R310). A map-out
decided while the test ran stands (R309). -/
def execPatternTestComplete (ch : Fin 1024) (r : PatternResult) (s : State) : Res :=
  match s.runningTest 3 ch.val with
  | none => .next s
  | some t =>
    let stack := ch.val / 32
    let s := if s.chanState ch.val = csTesting then s.change .channelState ch.val csActive else s
    match r with
    | .pass => .next (s.endTest t 1)
    | .whole => .next ((s.endTest t 4).decideMapout ch.val)
    | .baseDie => .next ((s.endTest t 6).failBaseDie stack)
    | .rows es =>
      let mine := (es.map elementBits32).filter fun e => elementChannel stack e = ch.val
      let rows := mine.filter fun e => !s.isRemapped stack e
      if 64 < es.length || 61440 < s.rowsUsed ch.val + rows.length then .next ((s.endTest t 4).decideMapout ch.val)
      else
        let s := (rows.foldl (fun (u : State) e => u.startRemap stack e) s).endTest t 3
        match rows with
        | [] => .next s
        | e :: _ => .next (s.logError {
            code := (s.chan ch.val).testCode, severity := 1, outcome := 3, unitKind := 3, unit := ch.val
            addr := s.rowAddress ch.val (e / 32) })

/-! Map-out (R311 to R321). -/

/-- Lines that the host may hold and that `p` names are back-invalidated (R558). -/
def State.recall (s : State) (p : Nat → Bool) : State :=
  let met := s.hostLines.filter p
  let s := { s with hostLines := s.hostLines.filter fun l => !met.contains l }
  (s.addReg .backInvalidates 0 met.length).setReg .hostHeldLines 0 s.hostLines.length

/-- CHANNEL_MAPOUT_SWITCH: the redirect map is switched for the map-out that waits first, unless another channel migrates or
`ALLOC_TOP` reaches into its band (R315 to R317). Its dirty lines in the LLM go to their new places and are thereby moved, its clean
ones are invalidated. A copy that runs stops (R505), and the host gives up its lines of the channel
(R558). -/
def execChannelMapoutSwitch (s : State) : Res :=
  match s.mapoutWaits with
  | [] => .next s
  | ch :: rest =>
    if s.migrating.isSome || s.allocBlocks then .next s
    else
      let k := s.reg .channelsOut
      let c := s.chan ch
      let top := s.reg .stackTop - 0x80000000
      let mine := s.llm.filter fun (e : Nat × Nat) => s.channelOf (128 * e.1) = ch
      let s := { s with
        llm := s.llm.filter fun e => !mine.contains e
        moved := (mine.filter fun (e : Nat × Nat) => e.2 = 2 && decide (128 * e.1 < top)).map Prod.fst
        migrated := 0 }
      let s := { s with mapoutWaits := rest }.recall fun l => s.channelOf (128 * l) = ch
      let s := ((s.setReg .mapoutOrder k ch).change .channelsOut 0 (k + 1)).change .channelState ch csMigrating
      let s := (s.change .stackTop 0 top).setReg .migrationLeft 0 (1023 * 0x200000)
      let s := s.setChan ch { c with mapout := none }
      let s := match c.mapout with
        | some (seq, at', waited) => s.settleError seq 4 (if waited then 0 else s.now - at')
        | none => s
      let s := s.degrade 2
      let s := (s.stopCopy (some 3)).mapChanged
      if top < s.reg .allocTop then
        let s := (s.change .allocTop 0 top).wipe top 0x20000000000
        .next (s.dataLoss { code := 7, severity := 3, outcome := 6, unitKind := 3, unit := ch, addr := top })
      else .next s

/-- MIGRATION_COMPLETE: the last line has moved, and the channel is MAPPED_OUT. Migration pauses while a snapshot copy runs
(R315, R321). [Log DESIGN CHOICE 128] -/
def execMigrationComplete (s : State) : Res :=
  if s.slotA.state = 1 || s.slotB.state = 1 then .next s
  else
    match s.migrating with
    | none => .next s
    | some ch =>
      let s := { s with moved := [], migrated := 0 }
      .next (((s.change .channelState ch csMappedOut).setReg .migrationLeft 0 0).noteBlocked)

/-- ALLOC_TOP_WRITE (R303, R316, R349). -/
def execAllocTopWrite (q : Requester) (v : Dword) (s : State) : Res :=
  .next (s.writeRequest q (Reg.allocTop.objAt 0) (leBytes 8 v.toNat) fun _ _ t => t.noteBlocked)

/-- MAPOUT_FORCE_WRITE (R316, R317). -/
def execMapoutForceWrite (q : Requester) (v : Byte) (s : State) : Res :=
  .next (s.writeRequest q (Reg.mapoutForce.objAt 0) [v] fun _ _ t => t.noteBlocked)

/-! ECC (R300, R309, R318, R336, R491). -/

/-- The loss of the data at a stack address is a data-loss failure (R491). [Log DEDUCED 126, 127] -/
def State.losesData (s : State) (a : Nat) : Bool :=
  if a < s.reg .rosterBytes then s.boundAt a else decide (a < s.reg .allocTop)

/-- A row of a channel as bits [31:0] of a journal entry; the core die that holds it is open (R325). [Log DESIGN CHOICE 249] -/
def rowElement (ch row : Nat) : Nat := (Config.rowCore ch row).toNat + 32 * row

/-- A row with `REMAP_THRESHOLD` corrections in the scrub period is remapped, or its channel mapped out where no remap row is left
(R310, R329). -/
def State.wearRow (s : State) (ch row element : Nat) : State :=
  let n := ((s.chan ch).rows.lookup row).getD 0
  if s.reg .remapThreshold ≤ n && !s.isRemapped (ch / 32) element then
    if 61440 ≤ s.rowsUsed ch then s.decideMapout ch
    else (s.startRemap (ch / 32) element).logError {
      code := 6, severity := 1, outcome := 3, unitKind := 3, unit := ch, addr := s.rowAddress ch row }
  else s

/-- A corrected read of a row: the counters, the record, the row's corrections, the test that too many rows start, and the remap of
a row with too many (R300, R309, R329). -/
def State.correctedRead (s : State) (ch element a : Nat) : State :=
  let s := (s.addReg .eccCorrectedCnt (ch / 32) 1).logError {
    code := 6, severity := 0, outcome := 1, unitKind := 3, unit := ch, addr := a }
  let row := element / 32
  let c := s.chan ch
  let n := (c.rows.lookup row).getD 0 + 1
  let rows := (row, n) :: c.rows.filter fun r => r.1 ≠ row
  let s := s.setChan ch { c with rows := rows }
  let s := if n = 1 && decide (16 ≤ rows.length) then s.testChannel ch 6 else s
  s.wearRow ch row element

/-- A read of a line meets what the stack's ECC finds, in the channel that holds the line (R300, R315, R318). An atom is recorded
when it is first found. [Log DESIGN CHOICE 124] -/
def State.stackFinding (s : State) (a : Nat) (f : EccFinding) : State :=
  let ch := (s.placeOf a).1
  match f with
  | .clean => s
  | .corrected => s.correctedRead ch (rowElement ch (s.rowOf a)) a
  | .uncorrectable atom =>
    let p := a / 128 * 128 + 64 * atom.val
    if s.atomMarked (p / 64) then s
    else
      let s := (s.poison p).addReg .eccUncorrCnt (ch / 32) 1
      let e : ErrorEvent := { code := 7, severity := 1, outcome := 6, unitKind := 3, unit := ch, addr := p }
      let s := if s.losesData p then s.dataLoss e else s.logError e
      s.testChannel ch 7

/-! Requests to a channel (R307, R308, R340 to R342). -/

/-- The stack to whose controller a narrow request goes: that of its line's new place, from which a line that has not moved is
forwarded (R314, R315, R340). -/
def State.narrowStack (s : State) (a : Nat) : Nat := s.channelOf a / 32

/-- Narrow requests of a stack that are outstanding: in its window, or waiting for a channel that retrains (R308, R342). -/
def State.narrowAt (s : State) (st : Nat) : Nat :=
  (s.narrow.filter fun r => r.stack = st).length + (s.chanQueue.filter fun e => match e.2 with
    | .narrow r => r.stack = st
    | _ => false).length

/-- A request reaches its channel, its write made. -/
def State.serveChan (s : State) (r : ChanReq) : State :=
  match r with
  | .read a f => s.stackFinding a f
  | .fill l => if s.fills.contains l then s else { s with fills := s.fills ++ [l] }
  | .write _ _ => s
  | .narrow n => { s with narrow := s.narrow ++ [n] }

/-- A request to a channel is served, or waits while the channel retrains (R307, R308). -/
def State.toChannel (s : State) (ch : Nat) (r : ChanReq) : State :=
  if s.retraining ch then s.queueChan ch r else (s.accept r).serveChan r

/-- The requests that waited for a channel are released in order of arrival, and then those of the agents that its full queue stalled
(R308). -/
def State.releaseChan (s : State) (ch : Nat) : State :=
  let mine := (s.chanQueue.filter fun e => e.1 = ch).map Prod.snd
  let more := (s.chanStalled.filter fun e => e.1 = ch).map Prod.snd
  let s := { s with
    chanQueue := s.chanQueue.filter fun e => e.1 ≠ ch, chanStalled := s.chanStalled.filter fun e => e.1 ≠ ch }
  more.foldl (fun (u : State) r => (u.accept r).serveChan r) (mine.foldl (fun (u : State) r => u.serveChan r) s)

/-- The fill of an absent line is asked for; what is written to the line from now on merges with it (R333).
[Log DEDUCED 251] -/
def State.askFill (s : State) (l : Nat) : State :=
  let s := if s.merging.any fun m => m.1 = l then s else { s with merging := s.merging ++ [(l, [])] }
  s.toChannel (s.placeOf (128 * l)).1 (.fill l)

/-- The bytes of a line have come from the stack: what was written meanwhile is merged into them (R315, R333). -/
def State.mergeLine (s : State) (l : Nat) : State :=
  match s.merging.lookup l with
  | none => s
  | some ws =>
    let s := { s with merging := s.merging.filter fun m => m.1 ≠ l }
    ws.foldl (fun (u : State) w => (u.noteMoved (128 * l) (128 * l + 128)).clearWords w.1 w.2) s

/-- A narrow request takes one of the 4,096 places of its stack. Its write takes effect in the order of arrival: what coalescing and
waiting change is timing (R340, R343). A part of a line that has not moved merges with what its old channel holds (R315). -/
def State.takeNarrow (s : State) (r : Narrow) : State :=
  let s := s.addReg .narrowRequests 0 1
  let l := r.addr / 128
  let s := if r.data.isSome && s.unmoved l && !s.merging.any fun m => m.1 = l then { s with merging := s.merging ++ [(l, [])] } else s
  s.toChannel (s.placeOf r.addr).1 (.narrow r)

/-- A narrow request reaches the limit of its stack or is taken; at the limit its agent stalls (R342). -/
def State.offerNarrow (s : State) (r : Narrow) : State :=
  if 4096 ≤ s.narrowAt r.stack then { s.addReg .narrowFullStalls 0 1 with narrowHeld := s.narrowHeld ++ [r] } else s.takeNarrow r

/-- The oldest request of a stalled agent of a stack is taken if a place is free (R342). -/
def State.admitNarrow (s : State) (st : Nat) : State :=
  match s.narrowHeld.find? fun r => r.stack = st with
  | none => s
  | some r =>
    if 4096 ≤ s.narrowAt st then s else { s with narrowHeld := s.narrowHeld.erase r }.takeNarrow r

/-- An access at a slice meets what the ECC of its arrays finds (R336): an uncorrectable word of a clean line is fetched again, one of
a dirty line or of a scratchpad is marked and its data lost, but for a line of the roster region that no bound model holds (R491). A persistent error, or a word corrected once more, starts the slice's MBIST.
[Log DESIGN CHOICE 125] -/
def State.sliceFinding (s : State) (a : Nat) (f : WordFinding) (persistent : Bool) : State :=
  let u := s.sliceUnit a
  let base := a / 128 * 128
  let (s, again) := match f with
    | .clean => (s, false)
    | .corrected w =>
      let k := (u, base / 16 + w.val)
      let t := s.logError { code := 6, severity := 0, outcome := 1, unitKind := 2, unit := u, addr := base + 16 * w.val }
      ({ t with corrections := if s.corrections.contains k then s.corrections else k :: s.corrections }, s.corrections.contains k)
    | .bad w dirty =>
      let p := base + 16 * w.val
      if dirty || decide (0x20000000000 ≤ a) || s.llmOf (a / 128) = 2 then
        if s.poisonWords.contains (p / 16) then (s, false)
        else
          let e : ErrorEvent := { code := 7, severity := 1, outcome := 6, unitKind := 2, unit := u, addr := p }
          (if p < s.reg .rosterBytes ∧ !s.boundAt p then (s.poisonWord p).logError e else (s.poisonWord p).dataLoss e, false)
      else
        ((s.logError { code := 7, severity := 1, outcome := 1, unitKind := 2, unit := u, addr := p }).askFill (a / 128), false)
  if (persistent || again) && !s.tests.any (fun t => t.kind = 2 && t.unit = u) then
    if f = .clean then s.parityPersistent 2 u a 0xFFFF 0 else s.startTest 2 u 0 (s.reg .errorHead)
  else s

/-- CHANNEL_RETRAIN_COMPLETE: queued requests are released; a retrain that fails, or the third within 1 s, starts the pattern
test (R308, R309). -/
def execChannelRetrainComplete (ch : Fin 1024) (ok : Bool) (s : State) : Res :=
  let c := s.chan ch.val
  match c.retraining with
  | none => .next s
  | some (seq, at') =>
    let s := s.setChan ch.val { c with retraining := none }
    let s := if s.chanState ch.val = csRetraining then s.change .channelState ch.val csActive else s
    let test := !ok || threeWithin s.now 1000000000 c.retrains
    let s := s.settleError seq (if test then 0 else 1) (s.now - at')
    let s := if test && s.chanState ch.val = csActive then
        let s := s.setChan ch.val { s.chan ch.val with testCode := 8 }
        (s.change .channelState ch.val csTesting).startTest 3 ch.val 0 seq
      else s
    .next (s.releaseChan ch.val)

/-! Reads and writes at a slice (R332 to R336). -/

/-- Bytes that a read through a slice may name: what a job's agents reach, and the roster region, which the package reads under its
own key (R133, R303, R304). -/
def State.readable (s : State) (a : Nat) : Bool := s.reaches a (a + 1) || decide (a < s.reg .rosterBytes)

/-- An access finds a line absent: it has been evicted, and a tagged one has gone to its slot and its home (R346).
[Log DESIGN CHOICE 124] -/
def State.evicted (s : State) (l : Nat) : State :=
  let out (x : Slot) : Slot :=
    if x.state = 1 && x.tagged.contains l then { x with tagged := x.tagged.erase l, copied := x.copied ++ [l] } else x
  { s.setLlm l 0 with slotA := out s.slotA, slotB := out s.slotB }

/-- A read at its home slice (R332 to R334). -/
def State.meetRead (s : State) (a : Nat) (eligible : Bool) (queue : Nat) (x : SliceAccess) (stack : EccFinding) : State :=
  let l := a / 128
  let d := s.homeDie a
  if 0x20000000000 ≤ a then (s.addReg .llmHits d 1).sliceFinding a x.word x.persistent
  else
    let present := x.present && !s.passes a
    let ch := (s.placeOf a).1
    if eligible && decide (s.reg .bypassThreshold < queue) && !(present && s.llmOf l = 2) then
      (s.addReg .llmBypassed d 1).toChannel ch (.read a stack)
    else if present then ((s.addReg .llmHits d 1).holdLine l).sliceFinding a x.word x.persistent
    else
      let s := (s.addReg .llmMisses d 1).evicted l
      if s.passes a then s.toChannel ch (.read a stack) else s.askFill l

/-- What a write of `n` bytes meets at its home slice before they are written: a whole line allocates without a fill, a part of an
absent one fills and then merges (R333). -/
def State.meetWrite (s : State) (a n : Nat) (x : SliceAccess) : State :=
  let l := a / 128
  let d := s.homeDie a
  let parts := a % 16 ≠ 0 || n % 16 ≠ 0
  let found (u : State) : State := u.sliceFinding a (if parts then x.word else .clean) x.persistent
  if 0x20000000000 ≤ a then found (s.addReg .llmHits d 1)
  else if s.passes a then s.addReg .llmMisses d 1
  else if x.present then found ((s.addReg .llmHits d 1).holdLine l)
  else
    let s := ((s.addReg .llmMisses d 1).evicted l).setLlm l 2
    if n = 128 then s else s.askFill l

/-- The bytes of a write at its home slice; a pass-through writes to the stack (R338). -/
def State.putSlice (s : State) (a : Nat) (data : List Byte) : State :=
  if a < 0x20000000000 && s.passes a then s.writeStack a data else s.write a data

/-- A narrow request at its home slice, its bytes written where `bytes` is empty: served there for a line that is present, or for a
scratchpad; otherwise it goes to the controller of its line's channel (R335, R340 to R342). -/
def State.meetNarrow (s : State) (a n : Nat) (bytes : Option (List Byte)) (x : SliceAccess) : State :=
  if 0x20000000000 ≤ a || (x.present && !s.passes a) then
    let s := s.addReg .narrowRequests 0 1
    let s := if 0x20000000000 ≤ a then s else s.holdLine (a / 128)
    let s := s.sliceFinding a x.word x.persistent
    match bytes with
    | some bs => if bs.isEmpty then s else s.write a bs
    | none => s
  else (s.evicted (a / 128)).offerNarrow ⟨s.narrowStack a, a, n, bytes⟩

/-- The MBIST of a slice runs, so that requests to it queue (R336). -/
def State.sliceTests (s : State) (u : Nat) : Bool :=
  s.tests.any fun t => t.kind = 2 && t.unit = u && t.stage = 0 && (s.runningTest 2 u).isSome

/-- A request waits for the MBIST of its slice (R336). -/
def State.holdSlice (s : State) (a : Nat) (r : SliceReq) : State := { s with sliceHeld := s.sliceHeld ++ [(s.sliceUnit a, r)] }

/-- The MBIST of a slice has ended: the requests that waited are served in order of arrival (R336). -/
def State.releaseSlice (s : State) (u : Nat) : State :=
  let mine := (s.sliceHeld.filter fun e => e.1 = u).map Prod.snd
  mine.foldl (fun (v : State) r => match r with
    | .read a eligible queue x stack => v.meetRead a eligible queue x stack
    | .write a n x => v.meetWrite a n x
    | .narrow a n isWrite x => v.meetNarrow a n (if isWrite then some [] else none) x)
    { s with sliceHeld := s.sliceHeld.filter fun e => e.1 ≠ u }

/-- STACK_READ: a read is served at its home slice, filled from the stack, or bypassed: an eligible read (`LLMPOL` = 1) that finds more
than `BYPASS_THRESHOLD` requests in the slice's queue goes to the stack unless the line is dirty there (R332 to R334).
[Log DESIGN CHOICE 124] -/
def execStackRead (a : BitVec 42) (eligible : Bool) (queue : Nat) (x : SliceAccess) (stack : EccFinding) (s : State) : Res :=
  let a := a.toNat
  if !s.readable a then .next s
  else if s.sliceTests (s.sliceUnit a) then .next (s.holdSlice a (.read a eligible queue x stack))
  else .next (s.meetRead a eligible queue x stack)

/-- A write of up to a line at its home slice. While the slice's MBIST runs it waits; its bytes have their place in the order of
arrival (R333, R336, R338). -/
def State.applyWrite (s : State) (a : Nat) (data : List Byte) (x : SliceAccess) : State :=
  if s.sliceTests (s.sliceUnit a) then (s.holdSlice a (.write a data.length x)).putSlice a data
  else (s.meetWrite a data.length x).putSlice a data

/-- STACK_WRITE: a write of up to a line by an agent of the node; it waits while the host may hold the line
(R332, R333, R558). -/
def execStackWrite (a : BitVec 42) (data : List Byte) (x : SliceAccess) (s : State) : Res :=
  let a := a.toNat
  let n := data.length
  if n = 0 || 128 < a % 128 + n || !s.reaches a (a + n) then .next s
  else if s.hostLines.contains (a / 128) || s.waiting.any (fun w => w.1 / 128 = a / 128) then
    let s := if s.waiting.any (fun w => w.1 / 128 = a / 128) then s
      else (s.addReg .backInvalidates 0 1).send (.backInvalidate (a / 128))
    .next { s with waiting := s.waiting ++ [(a, data)] }
  else .next (s.applyWrite a data x)

/-- LLM_FILL_COMPLETE: a line fill returns through the stack's ECC, unless its channel retrains, and what was written meanwhile is
merged (R300, R307, R333). [Log DESIGN CHOICE 124] -/
def execLlmFillComplete (line : Fin 17179869184) (finding : EccFinding) (s : State) : Res :=
  if s.fills.contains line.val && !s.retraining (s.placeOf (128 * line.val)).1 then
    let s := { s with fills := s.fills.erase line.val }.holdLine line.val
    .next ((s.stackFinding (128 * line.val) finding).mergeLine line.val)
  else .next s

/-! The narrow path (R340 to R343). -/

/-- NARROW_REQUEST: a request of 1 to 8 B, aligned to its size; it waits while its slice's MBIST runs, the bytes of a write with their
place in the order of arrival (R336, R340). -/
def execNarrowRequest (a : BitVec 42) (log : Fin 4) (data : Option Dword) (x : SliceAccess) (s : State) : Res :=
  let a := a.toNat
  let n := 2 ^ log.val
  let bytes := data.map fun v => leBytes n v.toNat
  if a % n ≠ 0 || !s.reaches a (a + n) then .next s
  else if s.sliceTests (s.sliceUnit a) then
    let s := s.holdSlice a (.narrow a n data.isSome x)
    match bytes with
    | some bs => .next (s.putSlice a bs)
    | none => .next s
  else .next (s.meetNarrow a n bytes x)

/-- The requests of a stack's coalescing window, the first `n` of its requests, that lie in a row, and all others, both in order
(R341). -/
def State.splitRow (s : State) (st row : Nat) : Nat → List Narrow → List Narrow × List Narrow
  | _, [] => ([], [])
  | n, r :: rs =>
    if r.stack ≠ st then
      let q := s.splitRow st row n rs
      (q.1, r :: q.2)
    else
      match n with
      | 0 => ([], r :: rs)
      | m + 1 =>
        let q := s.splitRow st row m rs
        if s.rowOf r.addr = row then (r :: q.1, q.2) else (q.1, r :: q.2)

/-- COALESCING_WAIT_EXPIRY: the row of a stack's oldest request is activated, and every request of the window to the row leaves;
requests to one atom share its access, and the read-modify-write of a write is two (R341, R343). `findings` is what the ECC finds, atom
by atom. Stalled agents go on (R342). -/
def execCoalescingWaitExpiry (st : Fin 32) (findings : List EccFinding) (s : State) : Res :=
  match s.narrow.find? fun r => r.stack = st.val with
  | none => .next s
  | some r =>
    let q := s.splitRow st.val (s.rowOf r.addr) 256 s.narrow
    let atoms := (q.1.map fun x => x.addr / 64).eraseDups
    let rmw := (atoms.filter fun p => q.1.any fun x => x.addr / 64 = p && x.data.isSome).length
    let s := (s.addReg .narrowAtoms 0 (atoms.length + rmw)).addReg .narrowCoalesced 0 (q.1.length - atoms.length)
    let s := { s with narrow := q.2 }
    let s := (atoms.zip findings).foldl (fun (u : State) e =>
      u.stackFinding (64 * e.1) (match e.2 with
        | .uncorrectable _ => .uncorrectable (Fin.ofNat 2 e.1)
        | f => f)) s
    let s := (q.1.filter fun x => x.data.isSome).foldl (fun (u : State) x =>
      if u.fills.contains (x.addr / 128) then u else u.mergeLine (x.addr / 128)) s
    .next ((List.range q.1.length).foldl (fun (u : State) _ => u.admitNarrow st.val) s)

/-! Scrub (R329). -/

/-- An uncorrectable atom outside node memory is found first: it is marked, counted and recorded, and its channel's test starts
(R300, R309). -/
def State.markSpare (s : State) (m : SpareMark) (ch : Nat) : State :=
  (({ s with spareMarks := m :: s.spareMarks }.addReg .eccUncorrCnt m.stack 1).logError {
    code := 7, severity := 1, outcome := 6, unitKind := 3, unit := ch, addr := s.rowAddress ch m.row }).testChannel ch 7

/-- A slot or a shard with an uncorrectable line is invalid (R491, R504, R509). -/
def State.spoil (s : State) (place : ScrubPlace) : State :=
  match place with
  | .slot k => if (s.slot k.val).state = 0 then s else (s.setSlot k.val Slot.empty).snapshotInvalid 0x10 k.val 2
  | .shard k area =>
    let bad := fun (x : Shard) => decide (x.slot = k.val ∧ x.area = area.val)
    if s.shards.any bad then
      { s with shards := s.shards.filter fun x => !bad x }.showShards.snapshotInvalid 0x10 k.val 2
    else s
  | _ => s

/-- The row of a line that the scrubber reads, as channel and bits [31:0] of a journal entry: a line of node memory lies where its
address says (R299, R329). -/
def State.scrubRow (s : State) (st : Nat) (e : StackElement) (place : ScrubPlace) : Nat × Nat :=
  match place with
  | .memory a => ((s.placeOf a.toNat).1, rowElement (s.placeOf a.toNat).1 (s.rowOf a.toNat))
  | _ => (st * 32 + e.channel.val, elementBits32 e)

/-- SCRUB_LINE: the scrubber reads the line at column `col` of a row; a row with too many corrections is remapped, and bad lines of
slots and shards make them invalid (R329, R491). `last` ends the pass over the stack. -/
def execScrubLine (st : Fin 32) (e : StackElement) (col : Fin 8) (place : ScrubPlace) (finding : EccFinding) (last : Bool)
    (s : State) : Res :=
  let (ch, el) := s.scrubRow st.val e place
  let s := match finding with
    | .clean => s
    | .corrected => s.correctedRead ch el (match place with
        | .memory a => a.toNat
        | _ => 0)
    | .uncorrectable atom =>
      match place with
      | .memory a => s.stackFinding a.toNat finding
      | _ =>
        let m : SpareMark := ⟨st.val, el / 32, 2 * col.val + atom.val, place⟩
        if s.spareMarks.contains m then s.spoil place else (s.markSpare m ch).spoil place
  if last then
    let s := s.addReg .scrubPasses st.val 1
    .next ((List.range 32).foldl (fun (u : State) k =>
      u.setChan (st.val * 32 + k) { u.chan (st.val * 32 + k) with rows := [] }) s)
  else .next s

/-! Slices (R336 to R338). -/

/-- The unused spare slice of a die with the lower physical number (R337). -/
def State.spareSlice (s : State) (die : Nat) : Option Nat :=
  (List.range 34).find? fun p => s.reg .sliceState (die * 34 + p) = 1

/-- A slice that fails with both spares used caches nothing, and its die's scratchpad is disabled (R338). -/
def State.passThrough (s : State) (die phys : Nat) : State :=
  let s := s.change .sliceState (die * 34 + phys) 3
  let had := decide (0 < s.scratchBytes die)
  let s := s.logError { code := 0x0B, severity := 2, outcome := 6, unitKind := 2, unit := die * 64 + phys }
  let s := (s.degrade 1).degrade 5
  let s := (s.change .llmScratchWays die 0).wipe (scratchBase die) (scratchBase die + 0x18000000)
  let s := { s with
    copies := s.copies.filter fun c => c.die ≠ die, tailwind := s.tailwind.filter fun c => c.die ≠ die
    llm := s.llm.filter fun e => s.sliceUnit (128 * e.1) ≠ die * 64 + phys }
  if had && s.jobLoaded then
    s.dataLoss { code := 0x18, severity := 3, outcome := 6, unitKind := 2, unit := die * 64 + phys }
  else s

/-- A slice fails in the spare-in `t`: it moves to a spare that takes over empty, or becomes a pass-through (R337, R338, R490). -/
def State.failSlice (s : State) (t : SelfTest) (die phys : Nat) : State :=
  match s.spareSlice die with
  | none => (s.endTest t 6).passThrough die phys
  | some p =>
    let left := s.reg .sliceSparesLeft
    let n := field left (4 * die) 4
    let s := s.change .sliceState (die * 34 + phys) 2
    let s := s.change .sliceState (die * 34 + p) 0
    let s := s.change .sliceSparesLeft 0 (withField left (4 * die) 4 (n - 1))
    let s := (List.range 32).foldl (fun (v : State) l =>
      if v.reg .sliceMap (die * 32 + l) = phys then v.setReg .sliceMap (die * 32 + l) p else v) s
    let s := s.logError {
      code := 0x0B, severity := if n = 1 then 2 else 1, unitKind := 2, unit := die * 64 + phys, pause := 0xFFFFFFFF }
    let s := s.setTest { t with stage := 1, more := t.more ++ [s.reg .errorHead], spare := p }
    if n = 1 then s.degrade 5 else s

/-- LLM_MBIST_COMPLETE: the slice resumes, moves to a spare, or becomes a pass-through (R336 to R338); a spare that fails while it
takes over is replaced in turn (R490). -/
def execLlmMbistComplete (die : Fin 8) (phys : Fin 34) (pass : Bool) (s : State) : Res :=
  let u := die.val * 64 + phys.val
  let cleared := { s with corrections := s.corrections.filter fun c => c.1 ≠ u }
  match s.runningTest 2 u with
  | some t =>
    if t.stage ≠ 0 then .next s
    else if pass then .next ((cleared.endTest t 1).releaseSlice u)
    else .next ((cleared.failSlice t die.val phys.val).releaseSlice u)
  | none =>
    match s.replacementOf 2 u with
    | none => .next s
    | some t =>
      if pass then .next s
      else
        let q := cleared.joinTests t u
        .next (q.1.failSlice q.2 die.val phys.val)

/-- SLICE_SWEEP_COMPLETE: the last line of a spared slice has moved (R337). -/
def execSliceSweepComplete (die : Fin 8) (phys : Fin 34) (s : State) : Res :=
  match s.runningTest 2 (die.val * 64 + phys.val) with
  | none => .next s
  | some t => if t.stage = 1 then .next (s.endTest t 2) else .next s

/-! Permanent repair (R323 to R326). -/

/-- A bit field of a journal entry is programmed; bits are only set (R325). -/
def State.programJournal (s : State) (stack entry bits : Nat) : State :=
  let k := stack * 512 + entry
  { s with journal := Store.put 0 s.journal k (Store.at 0 s.journal k ||| bits) }

/-- Permanent repairs may run: in READY, or DEGRADED without a job; in SERVICE for a Service principal (R323). -/
def State.repairAllowed (s : State) (service : Bool) : Bool :=
  !s.jobLoaded && (s.isIn stReady || s.isIn stDegraded || (service && s.isIn stService))

/-- Steps 1 and 2 of a permanent repair: a free journal entry is programmed, and the fuse pulse starts. A full journal stops
it (R324 to R326). [Log DESIGN CHOICE 65] -/
def State.startRepair (s : State) (stack element kind : Nat) (jtag : Bool) : State :=
  let n := s.reg .journalUsed stack
  if 512 ≤ n || s.pulses.any (fun p => p.stack = stack) then s
  else
    let s := s.programJournal stack n (element + kind * 2 ^ 32 + 2 ^ 36 + (n + 1) * 2 ^ 40)
    let s := (s.change .journalUsed stack (n + 1)).setFlag .fusePulses 0 stack true
    let s := if jtag then s.addReg .serviceWork 0 1 else s
    { s with pulses := s.pulses ++ [(⟨stack, n, element, jtag⟩ : Pulse)] }

/-- PERMANENT_REPAIR_START: the repair policy takes the oldest soft-remapped row of a stack (R323, R324). -/
def execPermanentRepairStart (st : Fin 32) (s : State) : Res :=
  match s.remaps.find? fun r => r.stack = st.val with
  | none => .next s
  | some r => if s.repairAllowed false then .next (s.startRepair st.val r.element 1 false) else .next s

/-- FUSE_PULSE_COMPLETE: the repaired row is tested and the entry closed; a pass releases the remap row (R324). A warm reset
that waits takes effect before the test (R40, R326). -/
def execFusePulseComplete (st : Fin 32) (pass : Bool) (s : State) : Res :=
  match s.pulses.find? fun p => p.stack = st.val with
  | none => .next s
  | some p =>
    if s.reg .warmWaiting = 1 then .next s
    else
    let s := { s with pulses := s.pulses.erase p }
    let s := s.programJournal p.stack p.entry (2 ^ 37 + ofBool (!pass) * 2 ^ 38)
    let s := s.setFlag .fusePulses 0 p.stack false
    let s := if p.jtag then s.setReg .serviceWork 0 (s.reg .serviceWork - 1) else s
    let s := if pass && s.isRemapped p.stack p.element then
        { s with remaps := s.remaps.filter fun r => ¬ (r.stack = p.stack ∧ r.element = p.element) }.change
          .reserveRowsLeft p.stack (s.reg .reserveRowsLeft p.stack + 1)
      else s
    let s := if p.jtag then s.send (.tap (1 + 2 * ofBool (!pass))) else s
    .next s

end Sys2Proof.Machine
end

