-- ==== Sys2Proof/Machine/Snapshot.lean ====
section
/-! DEFINITION. Snapshots and drains: SNAP and its agreement, the copy into a slot, the shards and their holders
(R344 to R346, R497 to R510). -/

namespace Sys2Proof.Machine

/-! The snapshot list (R497, R498). -/

/-- An entry of the snapshot list: descriptor, `TAG` and `SCALE_ONLY`. [Log DEDUCED 169] -/
structure SnapEntry where
  desc : Desc
  origin : List Nat
  tag : Nat
  scaleOnly : Bool
  deriving DecidableEq, Repr

/-- Byte ranges of an entry, widened to lines (R497). -/
def SnapEntry.ranges (e : SnapEntry) : List (Nat × Nat) :=
  (if e.scaleOnly then [(e.desc.scale, e.desc.scale + e.desc.areaBytes)] else e.desc.ranges).map fun r =>
    (r.1 / 128 * 128, ceilDiv r.2 128 * 128)

/-- Entry `k` of the snapshot list, none where it breaks R497 or is marked (R301). -/
def State.snapEntry (s : State) (k : Nat) : Option SnapEntry :=
  let a := s.reg .snapList + 8 * k
  let e := s.load a 8
  let h := field e 0 24
  let t := s.reg .descBase + 64 * h
  let raw := s.load t 64
  if s.poisoned a (a + 8) || s.poisoned t (t + 64) then none else
  match decodeDesc raw none with
  | .error _ => none
  | .ok d =>
    let x : SnapEntry := ⟨d, (List.range 4).map fun i => field raw (416 + 24 * i) 24, field e 32 16, bit e 48⟩
    if s.reg .descCount ≤ h || !d.extentsOk || d.remote || (x.scaleOnly && d.scale = 0) ||
        (d.ranges.any fun r => decide (0x20000000000 < r.2)) then none
    else some x

/-- The snapshot list, none where an entry breaks R497. [Log DEDUCED 169] -/
def State.snapEntries (s : State) : Option (List SnapEntry) :=
  ((List.range (s.reg .snapCount)).map s.snapEntry).foldr (fun x r =>
    match x, r with
    | some e, some es => some (e :: es)
    | _, _ => none) (some [])

/-- Lines of ranges, each once. -/
def linesOf (rs : List (Nat × Nat)) : List Nat :=
  (rs.flatMap fun r => (List.range ((r.2 - r.1) / 128)).map fun k => r.1 / 128 + k).eraseDups

/-- The largest count of region lines in a channel, with the lines of the node record and of the shard store (R498). -/
def State.snapFit (s : State) (lines : List Nat) : Nat :=
  let cs := lines.map fun l => s.channelOf (128 * l)
  let most := (List.range 1024).foldl (fun m c => max m (cs.countP (· = c))) 0
  most + 544 + s.reg .shardStoreBytes / 131072

/-- The check at a snapshot instant: the list keeps R497 and every channel has room (R498). [Log DEDUCED 163] -/
def State.checkSnap (s : State) : State × Bool :=
  match s.snapEntries with
  | none => (s, false)
  | some es =>
    let n := s.snapFit (linesOf (es.flatMap SnapEntry.ranges))
    (s.setReg .snapFit 0 (n - 544 - s.reg .shardStoreBytes / 131072), decide (n ≤ 1835008))

/-! Images (R502, R507). -/

/-- A bay as it stands once its SNAP has completed: at the entry after it (R223, R226, R513). -/
def Bay.afterSnap (x : Bay) : Bay :=
  match x.flights.find? fun f => f.op = opSnap with
  | none => x
  | some f =>
    let x := if x.known then x
      else { x with known := true, index := if condHolds f.cond x.cf then f.next else f.index + 1 }
    if f.last then x.closeStep else x

/-- What the capture of a bay holds (R499). -/
def Bay.capture (b : Bay) : BayImage :=
  let x := b.afterSnap
  { table := x.table, index := x.index, stack := x.stack, left := x.left, count := x.count, event := x.event
    preds := x.preds, slots := x.slots, cf := x.cf
    tiles := x.tiles.map fun t => ⟨t.fmt, t.rows, t.data⟩
    model := x.model, streams := x.streams, lasts := x.lasts, issues := x.issues, lastColl := x.lastColl, closed := x.closed }

/-- The bay that a capture gives back (R513). -/
def bayOf (i : BayImage) : Bay :=
  { Bay.idle with
    present := true, table := i.table, index := i.index, stack := i.stack, left := i.left, count := i.count
    event := i.event, preds := i.preds, slots := i.slots, cf := i.cf
    tiles := i.tiles.map fun t => ⟨t.fmt, t.rows, t.data⟩
    model := i.model, streams := i.streams, lasts := i.lasts, issues := i.issues, lastColl := i.lastColl
    closed := i.closed }

/-- A tensor of the image stream (R507). -/
def State.tensorImage (s : State) (e : SnapEntry) : TensorImage where
  tag := e.tag
  fmt := e.desc.fmt
  scaleOnly := e.scaleOnly
  shape := e.desc.shape
  origin := e.origin
  head := if e.desc.scale = 0 then [] else s.bytes e.desc.scale 0x2C0
  codes := if e.desc.scale = 0 then [] else (s.bytes (e.desc.codeAddr 0) e.desc.blocks).map BitVec.toNat
  data := if e.scaleOnly then [] else (s.runBytes e.desc.digestRuns).map Prod.snd

/-- Bytes of the image stream: the node record of 68 MiB and the tensors (R507). -/
def imageBytes (i : Image) : Nat :=
  (i.tensors.map fun t => 64 + t.head.length + t.codes.length + t.data.length).foldl (· + ·) 71303168

/-! SNAP (R222, R499). -/

/-- A bay's SNAP that is in flight. -/
def Bay.snapFlight (x : Bay) : Option Flight := x.flights.find? fun f => f.op = opSnap && !f.executed

/-- SNAP: the oldest started SNAP of the bay begins its capture (R499). -/
def execSnap (b : Fin 256) (s : State) : Res :=
  match s.ready b.val fun f => f.op = opSnap with
  | none => .next s
  | some f => .next (s.stillWaits b.val f)

/-- Every bay that has not ended has been captured, at SNAPs of one `STEP` (R222, R499). -/
def State.snapArrived (s : State) : Bool :=
  let xs := s.bays.filter fun e => e.2.present && s.tableState e.1 ≠ tsEnded
  match xs with
  | [] => false
  | x :: _ => xs.all fun e => e.2.captured && (e.2.snapFlight.map Flight.step) = (x.2.snapFlight.map Flight.step)

/-- SNAP_CAPTURE_COMPLETE: the bay has reached its SNAP; with the last bay the harts are held (R499). A spare-in completes
first (R527). -/
def execSnapCaptureComplete (b : Fin 256) (s : State) : Res :=
  let x := s.bay b.val
  match x.snapFlight with
  | none => .next s
  | some f =>
    if f.phase = 0 || x.captured || x.sparing ≠ 0 then .next s
    else
      let s := s.setBay b.val { x with captured := true }
      .next (if s.snapArrived then s.stopHarts else s)

/-- The node is quiet: its remote work is acknowledged, its mail has completed, its COLLs have ended (R499). -/
def State.quiet (s : State) : Bool :=
  s.requests.isEmpty && (s.mails.all fun m => m.result.isSome) && s.bays.all fun e => e.2.colls.isEmpty

/-- SNAP_QUIESCE_COMPLETE: the node, quiet, checks its list and joins the agreement (R498, R499). [Log DEDUCED 163] -/
def execSnapQuiesceComplete (s : State) : Res :=
  if !s.snapArrived || !s.quiet || s.reg .snapJoined = 1 then .next s
  else
    let (s, fit) := s.checkSnap
    let s := if fit then s else s.snapshotInvalid 0x10 0 1
    let ended := s.drains.all fun d => d.ended || d.retiring
    let s := (s.setReg .snapJoined 0 1).setReg .snapWarn 0 (s.reg .squallState)
    let s := (s.setReg .snapFits 0 (ofBool fit)).setReg .snapEnded 0 (ofBool ended)
    .next (s.send (.agreement (s.reg .squallState = 1) fit ended))

/-- The slot that a snapshot goes to: not the one that holds the newest committed own image (R501). -/
def State.targetSlot (s : State) : Nat :=
  if s.slotA.committed && (!s.slotB.committed || decide (s.slotB.instant ≤ s.slotA.instant)) then 1 else 0

/-- The image of this instant. [Log DEDUCED 166, 177] -/
def State.imageNow (s : State) (es : List SnapEntry) : Image where
  epoch := s.reg .jobEpoch
  tstep := s.reg .tstep
  gen := s.reg .snapGen
  raccRound := s.reg .raccRound
  bays := (s.bays.filter fun e => e.2.captured).map fun e => (e.1, e.2.capture)
  tensors := es.map s.tensorImage

/-- `RETIRING_EPOCH` is cleared when the job's last drain has ended (R378). -/
def State.checkRetiring (s : State) : State :=
  let e := s.reg .retiringEpoch
  if e ≠ 0 && s.drains.all (fun d => d.ended || !d.retiring) then s.change .retiringEpoch 0 0 else s

/-- The copy of a snapshot starts (R501); an image of a retired job in its slot is lost, and its drain with it (R530). `dirty` are
the lines that are dirty in the LLM besides those known to be. -/
def State.startCopy (s : State) (dirty : List Nat) : State :=
  let es := s.snapEntries.getD []
  let rs := es.flatMap SnapEntry.ranges
  let s := s.addReg .snapGen 0 1
  let s := (s.addReg .snapsTaken 0 1).setReg .lastSnapTstep 0 (s.reg .tstep)
  let s := (List.range 32).foldl (fun (u : State) st => u.setReg .draughtFront st 1) s
  let i := s.imageNow es
  let inside (a : Nat) : Bool := rs.any fun r => decide (r.1 ≤ a ∧ a < r.2)
  let k := s.targetSlot
  let s := { s with
    drains := s.drains.filter fun (d : Drain) => d.slot ≠ k
    spareMarks := s.spareMarks.filter fun (m : SpareMark) => m.site ≠ ScrubPlace.slot (Fin.ofNat 2 k) }.checkRetiring
  s.setSlot k {
    state := 1, image := i, channelsOut := s.reg .channelsOut, mapDigest := s.mapDigest, instant := s.now
    imageBytes := imageBytes i, committed := false, ranges := rs, cells := s.mem.filter fun e => inside e.1
    parts := [], tagged := ((s.llm.filter fun e => e.2 = 2).map Prod.fst ++ dirty).eraseDups.filter fun l => inside (128 * l), copied := [], digest := 0 }

/-- Every SNAP of the node completes (R222, R499). -/
def State.endSnaps (s : State) : State :=
  { s with bays := s.bays.map fun (e : Nat × Bay) =>
      if e.2.captured then
        (e.1, { e.2 with
          captured := false
          flights := e.2.flights.map fun (f : Flight) =>
            if f.op = opSnap then { f with executed := true, phase := 0 } else f })
      else e }

/-- The SNAP entries ask for a snapshot always: `SMODE` (R221, R500). -/
def State.snapAlways (s : State) : Bool :=
  s.bays.any fun e => e.2.captured && e.2.snapFlight.any fun f => f.param 0 2 = 1

/-- SNAP_AGREEMENT_COMPLETE: the snapshot instant. `warning`, `fit` and `ended` are what the other members agreed; every member
decides the same way, and the harts are released (R499 to R501). [Log DESIGN CHOICE 164] -/
def execSnapAgreementComplete (warning fit ended : Bool) (dirty : List (Fin 17179869184)) (s : State) : Res :=
  if s.reg .snapJoined = 0 then .next s
  else
    let n := s.reg .snapInterval
    let take := (fit && s.reg .snapFits = 1) && (ended && s.reg .snapEnded = 1) &&
      (s.snapAlways || warning || s.reg .snapWarn = 1 ||
        (n ≠ 0 && decide (n ≤ s.reg .tstep - s.reg .lastSnapTstep)))
    let s := s.setReg .snapJoined 0 0
    let s := if take then s.startCopy (dirty.map Fin.val) else s.addReg .snapsSkipped 0 1
    .next s.endSnaps.releaseHarts

/-! The copy (R344 to R346, R504). -/

/-- The slot that is being copied. -/
def State.copying (s : State) : Option Nat :=
  if s.slotA.state = 1 then some 0 else if s.slotB.state = 1 then some 1 else none

/-- TAGGED_LINE_SWEEP: a tagged line is written to the slot and to its home, and is dirty no longer (R346). -/
def execTaggedLineSweep (line : Fin 17179869184) (s : State) : Res :=
  match s.copying with
  | none => .next s
  | some k =>
    let x := s.slot k
    if x.tagged.contains line.val then
      let s := if s.llmOf line.val = 2 then s.setLlm line.val 1 else s
      .next (s.setSlot k { x with tagged := x.tagged.erase line.val, copied := x.copied ++ [line.val] })
    else .next s

/-- Region lines of a slot on a stack. -/
def State.slotLines (s : State) (x : Slot) (st : Nat) : List Nat :=
  (linesOf x.ranges).filter fun l => s.stackOf (128 * l) = st

/-- `STACK_DIGEST` over the region lines of a stack (R504); the lines of the node record, which have no node address, add a
free value. [Log DESIGN CHOICE 165] -/
def State.stackDigest (s : State) (x : Slot) (st : Nat) : Nat × State :=
  let (k, t) := s.draw
  ((s.slotLines x st).foldl (fun a l =>
    a ^^^ digest (leBytes 8 (128 * l) ++ (List.range 128).map fun i => Store.at 0 x.cells (128 * l + i)))
      (Config.recordLines k).toNat, t)

/-- Positions of the holders of this node's shards, shard by shard (R506). -/
def State.holders (s : State) : List Nat := (List.range 16).map fun j => (s.pos + j + 1) % 17

/-- The shards of an image go out (R506, R508). -/
def State.sendShards (s : State) (epoch : Nat) (i : Image) : State :=
  (s.holders.zipIdx).foldl (fun (u : State) e =>
    u.emit e.1 ⟨{ u.header 5 (u.nodeOf e.1) 0 0 0 with epoch := BitVec.ofNat 16 epoch }, .shard e.2 i⟩) s

/-- The drain of a committed slot starts, unless images are kept local (R506, R510, R531). -/
def State.startDrain (s : State) (k : Nat) : State :=
  if s.reg .drainEnable = 0 then s
  else
    let i := (s.slot k).image
    let d : Drain := ⟨k, i.epoch, i.tstep, i.gen, [], false, false, false, false⟩
    { s with drains := (s.drains.filter fun (x : Drain) => x.slot ≠ k) ++ [d] }.sendShards i.epoch i

/-- STACK_PART_COMPLETE: a stack's part is copied, unless Draught read a line that it could not correct, or one that was marked
before, which is a data-loss failure; with the last part
the slot is committed and its drain starts (R491, R504, R506). -/
def execStackPartComplete (st : Fin 32) (bad : Option (Fin 17179869184)) (s : State) : Res :=
  match s.copying with
  | none => .next s
  | some k =>
    let x := s.slot k
    let mine := s.slotLines x st.val
    let marked := mine.find? fun l => s.poisoned (128 * l) (128 * l + 128)
    let found := bad.bind fun l => if mine.contains l.val then some l.val else none
    if (x.parts.lookup st.val).isSome then .next s
    else
      match marked, found with
      | some l, _ =>
        .next (((s.setSlot k Slot.empty).snapshotInvalid 0x10 k 2).dataLoss {
          code := 7, severity := 3, outcome := 6, unitKind := 3, unit := s.channelOf (128 * l), addr := 128 * l })
      | none, some l => .next (((s.setSlot k Slot.empty).snapshotInvalid 0x10 k 2).stackFinding (128 * l) (.uncorrectable 0))
      | none, none =>
        if x.tagged.any mine.contains then .next s
        else
          let (d, s) := s.stackDigest x st.val
          let x := { x with parts := x.parts ++ [(st.val, d)] }
          if x.parts.length < 32 then .next (s.setSlot k x)
          else
            let x := { x with state := 2, committed := true, digest := x.formDigest }
            .next ((s.setSlot k x).startDrain k)

/-! Drains (R506 to R510, R528, R529). -/

/-- A drain is replaced. [Log DEDUCED 170] -/
def State.setDrain (s : State) (d : Drain) : State :=
  { s with drains := s.drains.map fun x => if x.slot = d.slot ∧ x.gen = d.gen then d else x }

/-- A holder's answer: a drain succeeds with the sixteenth acknowledgement, and one that fails is retried once (R508, R510).
[Log DEDUCED 170] -/
def State.drainAnswered (s : State) (q gen : Nat) (answer : DrainAnswer) : State :=
  match s.drains.find? fun d => d.gen = gen && !d.ended with
  | none => s
  | some d =>
    if q = s.pos || 17 ≤ s.pos then s
    else if answer = .committed then
      let acked := if d.acked.contains q then d.acked else d.acked ++ [q]
      if acked.length < 16 then s.setDrain { d with acked := acked }
      else
        let s := s.setDrain { d with acked := acked, ended := true }
        (s.change .slotDrained 0 (withBit (s.reg .slotDrained) d.slot)).checkRetiring
    else if !d.retried then
      (s.setDrain { d with acked := [], retried := true }).sendShards
        (if d.retiring then s.reg .retiringEpoch else s.reg .jobEpoch) (s.slot d.slot).image
    else
      let s := s.setDrain { d with failed := true, ended := true }
      let s := if answer = .tooLarge then s.snapshotInvalid 0x10 d.slot 4 else s
      s.checkRetiring

/-- DRAIN_ACK: a holder's answer, or the finding that a holder is lost (R508, R510). -/
def execDrainAck (v : Arrival) (gen : Dword) (answer : DrainAnswer) (s : State) : Res :=
  .next (if answer = .lost then s.drainAnswered v.pos.val gen.toNat answer
    else s.takeControl v.pos.val v.h (.shardAck gen.toNat answer) fun s =>
      s.drainAnswered (s.cameFrom v.pos.val v.h) gen.toNat answer)

/-- DRAIN_DEADLINE_EXPIRY: DEADLINE_MISSED is raised and the drain continues (R510). -/
def execDrainDeadlineExpiry (k : Fin 2) (s : State) : Res :=
  if s.drains.any fun d => d.slot = k.val && !d.ended then
    .next (s.logError { code := 0x0C, severity := 5, outcome := 5, unitKind := 0x10, unit := k.val })
  else .next s

/-- The slot in which a holder keeps a shard: that of its own image of the same instant, or of other shards of it, else the
slot that does not hold its newest committed shards (R508). [Log DESIGN CHOICE 167] -/
def State.shardSlot (s : State) (tstep gen : Nat) : Nat :=
  let same (x : Slot) : Bool := x.state ≠ 0 && x.image.tstep = tstep && x.image.gen = gen
  if same s.slotA then 0
  else if same s.slotB then 1
  else
    match s.shards.find? fun x => x.tstep = tstep && x.gen = gen with
    | some x => x.slot
    | none =>
      let newest := (s.shards.filter fun x => x.state = 2).foldl (fun (m : Option Shard) x =>
        match m with
        | none => some x
        | some y => if y.gen < x.gen then some x else some y) none
      match newest with
      | some x => 1 - x.slot
      | none => 0

/-- The answer of a holder to a shard (R510). -/
def State.answerShard (s : State) (q : Nat) (h : Header) (gen : Nat) (a : DrainAnswer) : State :=
  s.emit (s.cameFrom q h) (s.replyOf h h.epoch.toNat (.shardAck gen a))

/-- SHARD_RECEIVE: a shard arrives whole in class 5; it is refused, or stored and its directory entry committed
(R376, R508, R509, R529). -/
def execShardReceive (q : Fin 17) (h : Header) (index : Fin 16) (tstep gen imageBytes : Dword) (data : List Byte)
    (s : State) : Res :=
  .next (s.takeControl q.val h (.shardData index tstep.toNat gen.toNat imageBytes.toNat data) fun s =>
    let from' := s.cameFrom q.val h
    if from' = s.pos then s
    else if s.areaBytes < data.length then s.answerShard q.val h gen.toNat .tooLarge
    else
      (s.putShard {
        slot := s.shardSlot tstep.toNat gen.toNat, area := slotTo s.pos from', state := 2, index := index, epoch := h.epoch.toNat
        src := h.src.val, tstep := tstep.toNat, gen := gen.toNat, imageBytes := imageBytes.toNat, digest := digest data
        data := data }).answerShard q.val h gen.toNat .committed)

end Sys2Proof.Machine
end

