-- ==== Sys2Proof/Machine/Recovery.lean ====
section
/-! DEFINITION. Recovery: rollback, takeover and rejoin, and the restore from a slot or from peers (R511 to R520). -/

namespace Sys2Proof.Machine

/-! The command (R511, R512). -/

/-- Bytes of `RECOVERY_CMD` (R511). -/
def recoveryBytes (kind pos epoch tstep : Nat) : List Byte :=
  leBytes 1 kind ++ leBytes 1 pos ++ leBytes 2 epoch ++ leBytes 4 0 ++ leBytes 8 tstep

/-- The image of an epoch belongs to the loaded job. A node that has only just loaded the job for a takeover or a rejoin does
not know the job's earlier epochs: there only an image of the retiring job is another's. [Log DEDUCED 176] -/
def State.ownEpoch (s : State) (kind epoch : Nat) : Bool :=
  if kind = 1 then s.jobEpochs.contains epoch else s.reg .retiringEpoch = 0 || epoch ≠ s.reg .retiringEpoch

/-- The committed images of the job of a step in the node's own slots; a takeover uses none (R512, R519).
[Log DEDUCED 176] -/
def State.imagesOf (s : State) (kind tstep : Nat) : List Slot :=
  if kind = 2 then []
  else [s.slotA, s.slotB].filter fun x => x.committed && x.image.tstep = tstep && s.ownEpoch kind x.image.epoch

/-- The refusal of a recovery command, 0 for none. `peers` is the epoch of the image of that step that peers can give back
(R510, R512, R518). In FAULTED no job can run again, so nothing is restored there (R37, R38). [Log DEDUCED 173] -/
def State.recoveryRefusal (s : State) (kind pos epoch tstep : Nat) (peers : Option Nat) : Nat :=
  if s.isIn stFaulted then resState
  else if s.recovery.isSome || s.reg .teardownPending = 1 then resBusy
  else if !s.jobLoaded || epoch = 0 || epoch = s.reg .retiringEpoch then resRange
  else if kind = 0 || 3 < kind then resRange
  else if kind = 2 && (!bit (s.reg .groupMap s.pos) 21 || 17 ≤ pos || pos = s.pos) then resRange
  else if kind ≠ 2 && pos ≠ 0xFF then resRange
  else if !(s.imagesOf kind tstep).isEmpty || peers.any (s.ownEpoch kind) then resOk
  else resRange

/-! Steps 1 and 2 of R513. -/

/-- Every store that has left a hart takes effect. [Log DEDUCED 174] -/
def State.drainStores (s : State) : State :=
  { s.stores.foldl (fun (u : State) e => if e.io then u.ioWrite e.addr e.bytes else u.write e.addr e.bytes) s with
    stores := [] }

/-- A recovery begins: the run is abandoned and the new epoch is set (R492, R513). A pre-emption that waits is given up with
it. [Log DEDUCED 175] -/
def State.beginRecovery (s : State) (kind pos epoch tstep : Nat) : State :=
  let s := (s.abandonAll.drainStores).stopHarts
  let s := ((s.stopCopy none).leavePairing).endOpc 0x21 0x81 0
  let s := (s.change .jobEpoch 0 epoch).installEpoch
  let s := { s with
    jobEpochs := if s.jobEpochs.contains epoch then s.jobEpochs else s.jobEpochs ++ [epoch]
    recovery := some ⟨kind, pos, epoch, tstep, []⟩ }
  (s.setReg .startPending 0 0).setRecovery 2

/-! Takeover (R518, R519). -/

/-- The hot spare holds the lost node's identity: its own map changes, and the digests that it kept for that identity are its
own (R519, R522). -/
def State.takeIdentity (s : State) (lost : Nat) : State :=
  let n := s.reg .groupMap lost % 2 ^ 20
  let m := (List.range 17).map fun q =>
    if q = lost then withoutBit (s.reg .groupMap q) 20
    else if q = s.pos then 2 ^ 20 + n else s.reg .groupMap q
  let s := (s.changeAll .groupMap 0 m).change .logicalId 0 n
  { s with kept := (s.keptFor.filter fun e => e.1 = n).map fun e => (e.2.1, e.2.2) }

/-- The other nodes of the group, which a takeover update goes to (R519). [Log DEDUCED 179] -/
def State.updated (s : State) (lost : Nat) : List Nat := (List.range 17).filter fun q => q ≠ s.pos && q ≠ lost

/-- The restore of a takeover may begin: every update has been acknowledged. -/
def Recovery.acknowledged (r : Recovery) (s : State) : Bool := (s.updated r.pos).all fun q => r.acks.contains q

/-- The effect of a recovery command (R513, R519, R520). -/
def State.recover (s : State) (kind pos epoch tstep : Nat) : State :=
  let s := s.beginRecovery kind pos epoch tstep
  if kind ≠ 2 then s
  else
    (s.updated pos).foldl (fun (u : State) q => u.control q (.takeover pos)) s

/-- A write of `RECOVERY_CMD` (R511, R512). -/
def State.writeRecovery (s : State) (q : Requester) (kind pos epoch tstep : Nat) (peers : Option Half) : State :=
  let no := s.recoveryRefusal kind pos epoch tstep (peers.map BitVec.toNat)
  s.writeRequest q (Reg.recoveryCmd.objAt 0) (recoveryBytes kind pos epoch tstep)
    (fun _ _ u => u.recover kind pos epoch tstep) (fun _ => no)

/-- RECOVERY_ROLLBACK (R511 to R513). -/
def execRecoveryRollback (q : Requester) (epoch : Half) (tstep : Dword) (peers : Option Half) (s : State) : Res :=
  .next (s.writeRecovery q 1 0xFF epoch.toNat tstep.toNat peers)

/-- RECOVERY_TAKEOVER (R511, R512, R518, R519). -/
def execRecoveryTakeover (q : Requester) (pos : Byte) (epoch : Half) (tstep : Dword) (peers : Option Half) (s : State) : Res :=
  .next (s.writeRecovery q 2 pos.toNat epoch.toNat tstep.toNat peers)

/-- RECOVERY_REJOIN (R511, R512, R520). -/
def execRecoveryRejoin (q : Requester) (epoch : Half) (tstep : Dword) (peers : Option Half) (s : State) : Res :=
  .next (s.writeRecovery q 3 0xFF epoch.toNat tstep.toNat peers)

/-- A Crosswind pairing ends with the partner's identity, which a hot spare takes (R474). -/
def State.loseIdentity (s : State) (lost : Nat) : State :=
  if s.reg .xwState = xwPaired && s.reg .xwPartner = lost then s.endPairing else s

/-- The map changes in one change, and the update is acknowledged (R519). -/
def State.applyTakeover (s : State) (spare lost : Nat) : State :=
  if lost = s.pos || !bit (s.reg .groupMap spare) 21 then s
  else
    let n := s.reg .groupMap lost % 2 ^ 20
    let m := (List.range 17).map fun q =>
      if q = lost then withoutBit (s.reg .groupMap q) 20
      else if q = spare then 2 ^ 20 + n else s.reg .groupMap q
    ((s.control spare .takeoverAck).changeAll .groupMap 0 m).loseIdentity lost

/-- TAKEOVER_UPDATE_MESSAGE: the map changes and the update is acknowledged; a stale one is dropped. The partner's job has an epoch of its
own, so that a pairing with the lost position ends in either case (R370, R376, R466, R474, R519, R527). [Log DEDUCED 179] -/
def execTakeoverUpdateMessage (q : Fin 17) (h : Header) (lost : Fin 17) (s : State) : Res :=
  let t := s.takeControl q.val h (.takeover lost.val) fun s => s.applyTakeover (s.cameFrom q.val h) lost.val
  .next (if s.elsewhere h || s.isIn stFaulted || s.epochOk h then t else t.loseIdentity lost.val)

/-- TAKEOVER_ACKNOWLEDGEMENT: with the last one the spare holds the lost node's identity (R519). -/
def execTakeoverAcknowledgement (v : Arrival) (s : State) : Res :=
  .next (s.takeControl v.pos.val v.h .takeoverAck fun s =>
    match s.recovery with
    | none => s
    | some r =>
      let q := s.cameFrom v.pos.val v.h
      if r.kind ≠ 2 || r.acknowledged s || r.acks.contains q then s
      else
        let r := { r with acks := r.acks ++ [q] }
        let s := { s with recovery := some r }
        if r.acknowledged s then s.takeIdentity r.pos else s)

/-! Placing an image (R515, R516). -/

/-- The box of an entry contains a global position. -/
def SnapEntry.holds (e : SnapEntry) (g : List Nat) : Bool :=
  (List.range 4).all fun k => decide (e.origin.getD k 0 ≤ g.getD k 0 ∧ g.getD k 0 < e.origin.getD k 0 + e.desc.dim k)

/-- Elements of a unit that is placed whole: a block, or one element. -/
def unitOfFormat (fmt : Nat) : Nat :=
  match fmtOf fmt with
  | some (.block _ n) => n
  | _ => 1

/-- The units of a box: for each, its first local coordinates and how many elements along the first dimension it holds. -/
def unitsOf (n : Nat) (shape : List Nat) : List (List Nat × Nat) :=
  let d (k : Nat) : Nat := shape.getD k 1
  let w := ceilDiv (d 0) n
  (List.range (w * d 1 * d 2 * d 3)).map fun i =>
    let c := i % w * n
    ([c, i / w % d 1, i / w / d 1 % d 2, i / w / d 1 / d 2], min n (d 0 - c))

/-- Number of the unit at local coordinates of an entry. -/
def SnapEntry.unitAt (e : SnapEntry) (n : Nat) (x : List Nat) : Nat :=
  let w := ceilDiv (e.desc.dim 0) n
  x.getD 0 0 / n + w * (x.getD 1 0 + e.desc.dim 1 * (x.getD 2 0 + e.desc.dim 2 * x.getD 3 0))

/-- A unit placed: the entry and the number of its unit there, and what is written. -/
structure Placed where
  entry : Nat
  unit : Nat
  writes : List (Nat × List Byte)
  deriving DecidableEq, Repr

/-- One unit of a source tensor is placed into the first of the entries that holds it; none where R516 stops the restore. -/
def placeUnit (es : List SnapEntry) (t : TensorImage) (i : Nat) (u : List Nat × Nat) : Option Placed :=
  let n := unitOfFormat t.fmt
  let g := (List.range 4).map fun k => t.origin.getD k 0 + u.1.getD k 0
  let last := (g.headD 0 + u.2 - 1) :: g.drop 1
  match (es.zipIdx).find? fun e => e.1.tag = t.tag && e.1.holds g with
  | none => none
  | some (e, j) =>
    let x := (List.range 4).map fun k => g.getD k 0 - e.origin.getD k 0
    if e.desc.fmt ≠ t.fmt || e.scaleOnly ≠ t.scaleOnly || !e.holds last || x.headD 0 % n ≠ 0 ||
        u.2 ≠ min n (e.desc.dim 0 - x.headD 0) then none
    else
      let k := e.unitAt n x
      match e.desc.block with
      | some (el, m) =>
        let bb := blockBytes el m
        let code := [(e.desc.codeAddr k, [BitVec.ofNat 8 (t.codes.getD i 0)])]
        let block := [(e.desc.blockAddr k, ((t.data.drop (4 + i * (1 + bb) + 1)).take bb))]
        some ⟨j, k, if t.scaleOnly then code else code ++ block⟩
      | none =>
        let z := e.desc.size
        if t.scaleOnly then some ⟨j, k, []⟩
        else if t.data.length ≠ z * (t.shape.foldl (· * ·) 1) then none
        else some ⟨j, k, [(e.desc.elemAddr k, (t.data.drop (i * z)).take z)]⟩

/-- Several placements, none where one fails. -/
def allPlaced : List (Option Placed) → Option (List Placed)
  | [] => some []
  | none :: _ => none
  | some p :: ps => (allPlaced ps).map (p :: ·)

/-- `COARSE` and the statistics record of a tagged scale area go to every entry with the tag (R515). -/
def headWrites (es : List SnapEntry) (t : TensorImage) : List (Nat × List Byte) :=
  if t.head.isEmpty then []
  else
    (es.filter fun e => e.tag = t.tag && e.desc.scale ≠ 0).flatMap fun e =>
      [(e.desc.scale, t.head.take 4), (e.desc.record, (t.head.drop 0x40).take 0x280)]

/-- The writes of a restore from an image stream into the node's own entries; none where R516 stops it. -/
def placeImage (es : List SnapEntry) (i : Image) : Option (List (Nat × List Byte)) :=
  let ps := i.tensors.flatMap fun t =>
    ((unitsOf (unitOfFormat t.fmt) t.shape).zipIdx).map fun u => placeUnit es t u.2 u.1
  match allPlaced ps with
  | none => none
  | some ps =>
    let filled := (es.zipIdx).all fun e =>
      let units := (unitsOf (unitOfFormat e.1.desc.fmt) e.1.desc.shape).length
      (List.range units).all fun k => ps.any fun p => p.entry = e.2 && p.unit = k
    if filled then some (i.tensors.flatMap (headWrites es) ++ ps.flatMap Placed.writes) else none

/-! The restore (R513, R514). -/

/-- A bay as the node record gives it back, to resume at the entry after its SNAP; a bay of the job that the record does not
hold had ended (R513). Completion records and the count of the ring go on. [Log DEDUCED 172, 178] -/
def State.reloadBay (s : State) (i : Image) (b : Nat) : State :=
  if s.reg .tableDir = 0 || s.load (s.reg .tableDir + 8 * b) 8 = 0 then s
  else
    let old := s.bay b
    match i.bays.lookup b with
    | some x =>
      let shared := (List.range b).any fun k =>
        (i.bays.lookup k).isSome && s.reg .lbayMap k = s.reg .lbayMap b
      (s.setBay b { bayOf x with
        records := old.records, ring := old.ring, serial := old.serial
        parked := shared, sparing := old.sparing }).setTableState b tsRunning
    | none =>
      (s.setBay b { Bay.idle with
        present := true, records := old.records, ring := old.ring, serial := old.serial
        sparing := old.sparing }).setTableState b tsEnded

/-- Steps 4 to 6 of R513: the bays are reloaded, the harts restart, and the node joins the fence. [Log DEDUCED 172] -/
def State.applyImage (s : State) (i : Image) : State :=
  let s := (List.range 256).foldl (fun (u : State) b => u.reloadBay i b) s
  let s := ((s.setReg .tstep 0 i.tstep).setReg .raccRound 0 i.raccRound).setReg .raccDone 0 i.raccRound
  let s := ((s.setReg .restoredTstep 0 i.tstep).setReg .lastSnapTstep 0 i.tstep).setReg .snapGen 0 i.gen
  let s := { s.setReg .lullHeld 0 0 with
    raccIssue := [], xwOwn := [], xwTheirs := [], xwStreams := none, xwDiff := none
    jobEpochs := if s.jobEpochs.contains i.epoch then s.jobEpochs else s.jobEpochs ++ [i.epoch] }
  ((s.startHarts (some i.tstep)).setRecovery 3).joinFence

/-- The restore stops (R514, R516). -/
def State.failRestore (s : State) (cause : Nat) : State :=
  { s.snapshotInvalid 0 0 cause with recovery := none }.setRecovery 6

/-- The region lines of a slot go back to their home lines. -/
def State.copyBack (s : State) (x : Slot) : State :=
  x.ranges.foldl (fun (u : State) r =>
    u.write r.1 ((List.range (r.2 - r.1)).map fun k => Store.at 0 x.cells (r.1 + k))) s

/-- RESTORE_COMPLETE: the restore from the local slot ends, or that from peers where the slot cannot be used or had a bad line
(R505, R513 to R516, R527). `peers` is the image that the shards gave back, none where two of them are missing. -/
def execRestoreComplete (bad : Bool) (peers : Option Image) (s : State) : Res :=
  match s.recovery with
  | none => .next s
  | some r =>
    if s.reg .recoveryState ≠ 2 || (r.kind = 2 && !r.acknowledged s) then .next s
    else
      let slot := (s.imagesOf r.kind r.tstep).find? fun x => !bad && s.restorable x
      match slot with
      | some x => .next ((s.copyBack x).applyImage x.image)
      | none =>
        match peers with
        | none => .next (s.failRestore 5)
        | some i =>
          match s.snapEntries.bind fun es => placeImage es i with
          | none => .next (s.failRestore 6)
          | some ws => .next ((s.writes ws).applyImage i)

end Sys2Proof.Machine
end

