-- ==== Sys2Proof/Machine/Jobs.lean ====
section
/-! DEFINITION. The commands of the submission queues: jobs, copies, roster and regions (R540 to R552, R564), and teardown
(R330, R378, R528). -/

namespace Sys2Proof.Machine

/-! Doorbells (R24, R540, R541, R544). -/

/-- INIT stages 2 to 6: the host port refuses doorbells (R24). -/
def State.refusesDoorbells (s : State) : Bool := s.isIn stInit && decide (2 ≤ s.reg .initStage)

/-- A state in which the host port serves its queues (R564). -/
def State.servesQueues (s : State) : Bool := decide (stReady ≤ s.reg .nodeState)

/-- SQ_TAIL_DOORBELL: the package fetches up to the new tail (R541). `entries` are the 64 B entries newly rung of a ring in host
memory; an index outside the ring is ignored. [Log DESIGN CHOICE 184, 185; DEDUCED 187] -/
def execSqTailDoorbell (q : Fin 64) (tail : Half) (entries : List (List Byte)) (s : State) : Res :=
  let n := 2 ^ s.reg .sqSize q.val
  let new := (tail.toNat + n - s.reg .sqTail q.val) % n
  let host := s.reg .sqBase q.val % 2 = 0
  if s.refusesDoorbells then .next (s.addReg .psRefused 0 1)
  else if !s.servesQueues || s.reg .sqEnable q.val = 0 || n ≤ tail.toNat then .next s
  else if host && entries.length ≠ new then .next s
  else
    let s := s.setReg .sqTail q.val tail.toNat
    let s := if host then { s with rung := s.rung ++ entries.map fun e => (q.val, e) } else s
    .next s.fetchAll

/-- CQ_HEAD_DOORBELL: room in a completion queue is freed, and fetching goes on (R544). [Log DESIGN CHOICE 185] -/
def execCqHeadDoorbell (q : Fin 64) (head : Half) (s : State) : Res :=
  if !s.servesQueues || s.cqSize q.val ≤ head.toNat then .next s
  else .next (((s.setReg .cqHead q.val head.toNat).flushHeld q.val s.cqHeld.length).showQueue q.val).fetchAll

/-- A write of `SQ_ENABLE`: enabling starts both rings at their first entry; stopping lets commands in progress complete
(R540, R566). [Log DEDUCED 186] -/
def enableQueue (q : Nat) (s : State) : State :=
  if s.reg .sqEnable q = 1 then
    let s := (((s.setReg .sqHead q 0).setReg .sqTail q 0).setReg .cqHead q 0).setReg .cqTail q 0
    ({ s.setReg .cqWraps q 0 with rung := s.rung.filter fun e => e.1 ≠ q }).showQueue q
  else s.showQueue q

/-- SQ_ENABLE_WRITE (R566). -/
def execSqEnableWrite (q : Requester) (k : Fin 64) (v : Byte) (s : State) : Res :=
  .next (s.writeRequest q (Reg.sqEnable.objAt k.val) [v] fun _ i => enableQueue i)

/-! Performing a command (R545, R564). -/

/-- The state and the job allow a command (R564). -/
def State.allows (s : State) (opc : Nat) : Bool :=
  let needsJob := [2, 3, 0x18, 0x19, 0x20, 0x21].contains opc
  if s.isIn stFaulted then opc = 9 || (opc = 3 && s.jobLoaded)
  else if s.isIn stService then opc = 8 || opc = 9
  else if s.isIn stLull then opc ≠ 2 && opc ≠ 0x20 && (s.jobLoaded || !needsJob)
  else if s.isIn stReady || s.isIn stRun || s.isIn stDegraded then s.jobLoaded || !needsJob
  else false

/-- The oldest command of an opcode that may start is performed, or ends with STATE. -/
def State.performCmd (s : State) (opc : Nat) (f : HostCmd → State) : State :=
  match s.cmdOf opc with
  | none => s
  | some c => if s.allows opc then f c else s.endCmd c 0x93 (s.reg .nodeState)

/-- A command ends with RANGE, and no rule says what its `RES0` holds. -/
def State.endRange (s : State) (c : HostCmd) : State :=
  let (k, s) := s.draw
  s.endCmd c 0x91 (Config.rangeAt k).toNat

/-! JOB_LOAD (R547). -/

/-- Product of the extents of `COLL_GRID`. -/
def State.gridNodes (s : State) : Nat := ((List.range 6).map fun k => s.reg .collGrid k).foldl (· * ·) 1

/-- The first instance of a job-scoped object that breaks its own range (R547). -/
def State.badObject (s : State) : Option Nat :=
  (dictionary.filter fun r => r.info.jobScoped).findSome? fun r =>
    let n := r.info.elems
    (List.range r.info.count).findSome? fun i =>
      let vs := (List.range n).map fun e => s.reg r (i * n + e)
      if s.inRange r i (vs.headD 0) vs then none else some (r.objAt i)

/-- The first object for which JOB_LOAD fails (R547). -/
def State.loadFailure (s : State) : Option Nat :=
  let own := s.reg .groupMap s.pos
  let e := s.reg .jobEpoch
  if e = 0 || e = s.reg .retiringEpoch then some (Reg.jobEpoch.objAt 0)
  else if !bit own 20 && !bit own 21 then some (Reg.groupMap.objAt 0)
  else if (s.nodeAt s.pos).isSome && s.reg .tableDir = 0 then some (Reg.tableDir.objAt 0)
  else if s.gridNodes ≠ s.reg .jobNodes then some (Reg.collGrid.objAt 0)
  else if s.reg .fixedTiming = 1 && (decide (s.reg .cclkMax < 1600) || decide (s.reg .pclkMax < 2000)) then
    some (Reg.fixedTiming.objAt 0)
  else s.badObject

/-- The job is loaded: what earlier jobs left is gone (R147, R240, R387, R522, R547). [Log DEDUCED 24, 159]
[Log DESIGN CHOICE 222] -/
def State.loadJob (s : State) : State :=
  let s := (s.change .logicalId 0 ((s.nodeAt s.pos).getD 0xFFFFFFFF)).setReg .jobActive 0 1
  let s := s.setReg .rosterLlmAtLoad 0 (s.reg .rosterLlm)
  let s := ((s.setReg .tstep 0 0).setReg .raccRound 0 0).setReg .raccDone 0 0
  let s := ((s.setReg .snapGen 0 0).setReg .lastSnapTstep 0 0).setReg .snapJoined 0 0
  let s := ((s.setReg .xwReceived 0 0).setReg .lullHeld 0 0).setXw xwOff
  let s := (List.range 256).foldl (fun (u : State) b => u.setTableState b tsIdle) s
  { s with
    bays := [], fences := [], raccIssue := [], kept := [], jobEpochs := [s.reg .jobEpoch]
    xwOwn := [], xwTheirs := [], xwStreams := none, xwDiff := none, deferred := [] }

/-- A mapping of the logical bays that the host driver may set: none, or an active bay for each of them, die in bits [15:8] and
physical bay in bits [7:0] (R27). [Log DESIGN CHOICE 233] -/
def State.mapOk (s : State) (map : List Half) : Bool :=
  map.isEmpty || (map.length = 256 && map.all fun m =>
    m.toNat / 256 < 8 && m.toNat % 256 < 34 && s.reg .bayState (m.toNat / 256 * 34 + m.toNat % 256) = 0)

/-- `LBAY_MAP` takes the mapping of the host driver, or the default one (R27). -/
def State.placeGiven (s : State) (map : List Half) : State :=
  if map.isEmpty then s.placeBays else s.changeAll .lbayMap 0 (map.map BitVec.toNat)

/-- JOB_LOAD, with the mapping that the host driver sets (R27, R547); it is refused while a fuse pulse runs (R323).
[Log DEDUCED 183; DESIGN CHOICE 233, 250] -/
def execJobLoad (map : List Half) (s : State) : Res :=
  .next (s.performCmd 1 fun c =>
    if s.jobLoaded || s.reg .startPending ≠ 0 || !s.pulses.isEmpty then s.endCmd c 0x90 0
    else
      match s.loadFailure with
      | some obj => s.endCmd c 0x91 obj
      | none =>
        if s.mapOk map then (s.placeGiven map).loadJob.endCmd c 0 0
        else s.endCmd c 0x91 (Reg.lbayMap.objAt 0))

/-! JOB_START (R548). -/

/-- JOB_START: the node joins the fence (R548). [Log DEDUCED 183] -/
def execJobStart (s : State) : Res :=
  .next (s.performCmd 2 fun c =>
    if s.reg .jobRunning = 1 then s.endCmd c 0x93 (s.reg .nodeState)
    else if s.reg .startPending ≠ 0 || s.recovery.isSome then s.endCmd c 0x90 0
    else ((s.keepCmd c).setReg .startPending 0 1).joinFence)

/-- The node leaves the fence that it has joined. [Log DEDUCED 194] -/
def State.withdraw (s : State) : State :=
  if s.reg .fenceJoined = 0 || s.reg .fenceDone = 1 then s
  else s.peers.foldl (fun (u : State) q => u.control q (.fence true)) (s.setReg .fenceJoined 0 0)

/-- JOB_START_TIMEOUT: the node withdraws from the fence and stays with the job loaded (R548). -/
def execJobStartTimeout (s : State) : Res :=
  if s.reg .startPending = 1 && (s.cmds.any fun c => c.opc = 2 && c.started && c.arg0 ≠ 0) then
    .next (((s.withdraw).setReg .startPending 0 0).endOpc 2 0x0C 0)
  else .next s

/-! JOB_END and teardown (R330, R378, R528, R549). -/

/-- The epoch of the job retires (R378): drains that have not ended go on under `RETIRING_EPOCH`, and the region table is
cleared. -/
def State.retireEpoch (s : State) : State :=
  let goes := s.drains.any fun d => !d.ended && !d.retiring
  let s := if goes then s.change .retiringEpoch 0 (s.reg .jobEpoch) else s
  let s := { s with drains := s.drains.map fun (d : Drain) => if d.ended then d else { d with retiring := true } }
  let s := (s.change .jobEpoch 0 0).installEpoch
  let s := { s with regions := [] }
  (s.change .regionCount 0 0).clearReg .regionTable

/-- Commands of the job in progress complete as ABANDONED, and those fetched after the JOB_END with STATE (R549).
[Log DEDUCED 183] -/
def State.abandonCmds (s : State) (c : HostCmd) : State :=
  let before := (s.cmds.takeWhile fun d => d ≠ c).filter fun d =>
    d.opc = 1 || d.opc = 2 || d.opc = 3 || d.opc = 0x18 || d.opc = 0x19 || d.opc = 0x20 || d.opc = 0x21
  let after := (s.cmds.dropWhile fun d => d ≠ c).drop 1
  let s := before.foldl (fun (u : State) d => u.endCmd d 0x81 0) s
  after.foldl (fun (u : State) d => u.endCmd d 0x93 (u.reg .nodeState)) s

/-- Step 1 of R528: every table ends and every hart stops. -/
def State.endWork (s : State) : State :=
  let s := s.abandonAll.drainStores
  let s := (List.range 256).foldl (fun (u : State) b =>
    if (u.bay b).present then u.setTableState b tsEnded else u) s
  let s := (List.range 3072).foldl (fun (u : State) h => u.setReg .hartState h 0) s
  { s with
    reservations := []
    bays := s.bays.map fun (e : Nat × Bay) => (e.1, { e.2 with preempt := 0, halted := none, captured := false }) }

/-- JOB_END begins the teardown (R528, R549). A snapshot copy that runs is stopped, a start or a recovery is given up, and the
Crosswind pairing ends. [Log DEDUCED 180] -/
def State.endJob (s : State) (c : HostCmd) : State :=
  let s := ((s.setReg .teardownPending 0 1).keepCmd c).abandonCmds { c with started := true }
  let s := (s.endWork.stopCopy none).leavePairing
  let s := (s.withdraw.setReg .startPending 0 0).change .stateRequest 0 0
  let s := { s with recovery := none, xwMsg := none }.setRecovery 0
  (s.setReg .jobRunning 0 0).retireEpoch

/-- JOB_END (R549). [Log DEDUCED 183] -/
def execJobEnd (s : State) : Res :=
  .next (s.performCmd 3 fun c => if s.reg .teardownPending ≠ 0 then s.endCmd c 0x93 (s.reg .nodeState) else s.endJob c)

/-- Marks of poison in a range are gone. -/
def State.clean (s : State) (lo hi : Nat) : State :=
  { s with
    poisonAtoms := s.poisonAtoms.filter fun p => ¬ (lo ≤ 64 * p ∧ 64 * p < hi)
    poisonWords := s.poisonWords.filter fun p => ¬ (lo ≤ 16 * p ∧ 16 * p < hi) }

/-- The wipe of stack memory and scratchpads (R330). [Log DESIGN CHOICE 224] -/
def State.wipeJob (s : State) : State :=
  let lo := if s.reg .wipeRoster = 1 then 0 else s.reg .rosterBytes
  let s := (s.recall fun l => decide (s.reg .rosterBytes ≤ 128 * l ∧ 128 * l < s.reg .stackTop)).clean lo (s.reg .stackTop)
  let s := ((s.wipe lo (s.reg .stackTop)).clean 0x20000000000 0x30000000000).loseScratchpads
  let s := if s.reg .wipeRoster = 1 then s.setReg .rosterCount 0 0 else s
  { s with
    fills := [], narrow := [], narrowHeld := [], chanQueue := [], chanStalled := [], sliceHeld := []
    merging := [], llm := [], corrections := [], waiting := [], copies := [], tailwind := [], recent := [] }

/-- TEARDOWN_WIPE_COMPLETE: copies that started before the JOB_END have completed, and the wipe is done (R330, R528, R549). -/
def execTeardownWipeComplete (s : State) : Res :=
  if s.reg .teardownPending ≠ 1 || s.cmds.any (fun c => (c.opc = 8 || c.opc = 9) && s.mayRun c) then .next s
  else .next (s.wipeJob.setReg .teardownPending 0 2)

/-- TEARDOWN_COMPLETE: the job is gone, and the node enters READY or DEGRADED (R38, R146, R528). [Log DEDUCED 24; DESIGN CHOICE 217] -/
def execTeardownComplete (s : State) : Res :=
  if s.reg .teardownPending ≠ 2 then .next s
  else
    let s := ((s.setReg .teardownPending 0 0).setReg .jobActive 0 0).change .logicalId 0 0xFFFFFFFF
    let s := { s.applyDeferred.fitRoster with jobEpochs := [] }
    let s := if s.isIn stFaulted then s else s.enter s.ratedState
    .next (s.endOpc 3 0 0)

/-! Copies (R550). -/

/-- The first address of a range that no job agent reaches (R303, R304). -/
def State.firstOutside (s : State) (a : Nat) : Nat :=
  if !s.reaches a (a + 1) then a
  else if a < 0x20000000000 then s.reg .allocTop
  else
    match (List.range 8).find? fun d => decide (scratchBase d ≤ a ∧ a < scratchBase d + s.scratchBytes d) with
    | some d => scratchBase d + s.scratchBytes d
    | none => a

/-- The refusal of a COPY, if any: status and `RES0` (R546, R550). -/
def State.copyRefusal (s : State) (c : HostCmd) : Option (Nat × Nat) :=
  if c.arg2 = 0 || 0x1000000000 < c.arg2 then some (0x80, 0x18)
  else if !s.reaches c.arg1 (c.arg1 + c.arg2) then some (0x91, s.firstOutside c.arg1)
  else none

/-- COPY_TO_DEVICE: the bytes of host memory, `data`, are written as any agent of the node writes (R550). -/
def execCopyToDevice (data : List Byte) (s : State) : Res :=
  .next (s.performCmd 8 fun c =>
    match s.copyRefusal c with
    | some (st, r) => s.endCmd c st r
    | none => if data.length = c.arg2 then (s.write c.arg1 data).endCmd c 0 0 else s)

/-- The first poisoned byte of a range. -/
def State.firstPoison (s : State) (a n : Nat) : Option Nat :=
  if !s.poisoned a (a + n) then none
  else
    let ps := (s.poisonAtoms.map (64 * ·) ++ s.poisonWords.map (16 * ·)).filter fun p =>
      s.poisoned (max a p) (max a p + 1) && decide (max a p < a + n)
    some ((ps.map (max a)).foldl min (a + n))

/-- COPY_FROM_DEVICE: the bytes go to host memory, poisoned atoms as such (R550). [Log DEDUCED 189] -/
def execCopyFromDevice (s : State) : Res :=
  .next (s.performCmd 9 fun c =>
    match s.copyRefusal c with
    | some (st, r) => s.endCmd c st r
    | none =>
      let s := s.send (.hostWrite c.arg0 (s.bytes c.arg1 c.arg2))
      match s.firstPoison c.arg1 c.arg2 with
      | none => s.endCmd c 0 0
      | some p =>
        let atoms := ((List.range (ceilDiv (c.arg1 + c.arg2) 64 - c.arg1 / 64)).map fun k => 64 * (c.arg1 / 64 + k)).filter
          fun a => s.poisoned (max a c.arg1) (min (a + 64) (c.arg1 + c.arg2))
        let s := atoms.foldl (fun (u : State) a => u.send (.hostPoison (c.arg0 + (max a c.arg1 - c.arg1)))) s
        s.endCmd c 7 p)

/-! Roster (R131 to R135, R551). -/

/-- Where weights begin in the roster region: after the entries, and the descriptors of 4,096 models at 16 KiB each.
[Log DESIGN CHOICE 99] -/
def weightZone : Nat := 0x4040000

/-- The lowest place for `n` bytes of weights, 4 KiB aligned (R132). [Log DESIGN CHOICE 99] -/
def State.weightPlace (s : State) (n : Nat) : Option Nat :=
  let areas := s.weightAreas
  let places := (weightZone :: areas.map fun a => ceilDiv (a.1 + a.2) 4096 * 4096).filter fun p =>
    decide (p + n ≤ s.reg .rosterBytes) && areas.all fun a => decide (p + n ≤ a.1 ∨ a.1 + a.2 ≤ p)
  match places with
  | [] => none
  | p :: ps => some (ps.foldl min p)

/-- The offsets of a model descriptor lie within its weights (R133, R134). Of a descriptor that breaks a rule of R202 to R204, which
its use reports, the two offsets alone count. [Log DEDUCED 231] -/
def modelDescOk (n raw : Nat) : Bool :=
  let noArea := field raw 256 48 = 0xFFFFFFFFFFFF
  match decodeDesc raw (some 4096) with
  | .error _ => decide (field raw 0 48 < n) && (noArea || decide (field raw 256 48 < n))
  | .ok d => decide (d.addr + d.span (d.rank - 1) ≤ 4096 + n) && (noArea || decide (d.scale + d.areaBytes ≤ 4096 + n))

/-- The image of an entry, with its descriptors and weights, may be registered (R132 to R134). [Log DESIGN CHOICE 240] -/
def modelOk (img descs weights : List Byte) : Bool :=
  let k := leAt img 2 2
  let n := leAt img 4 4
  (leAt img 0 1 = 1 || leAt img 0 1 = 2) && decide (1 ≤ k ∧ k ≤ 256) && decide (n ≤ 0x4000000) &&
    digest (descs ++ weights) = leAt img 0x28 8 &&
    (pieces 64 k descs).all fun d => modelDescOk n (ofLe d)

/-- A model is written into the roster region and its entry made (R131, R551). -/
def State.putModel (s : State) (i place : Nat) (img descs weights : List Byte) : State :=
  let d := 0x40000 + 0x4000 * i
  let s := (s.write d descs).write place weights
  let e := overlay (overlay img 8 (leBytes 8 place)) 0x10 (leBytes 8 d)
  (s.write (s.reg .rosterBase + 64 * i) e).countModels

/-- ROSTER_REGISTER: image, descriptors and weights are taken from node memory with SRC_NODE, and otherwise from the host, as
the operands give them (R134, R135, R551). -/
def execRosterRegister (image descs weights : List Byte) (s : State) : Res :=
  .next (s.performCmd 0x10 fun c =>
    let node := bit c.cflags 2
    let img := if node then s.bytes c.arg0 64 else image
    let (d, n) := (64 * leAt img 2 2, leAt img 4 4)
    let descs := if node then s.bytes (leAt img 0x10 8) d else descs
    let weights := if node then s.bytes (leAt img 8 8) n else weights
    if img.length ≠ 64 || descs.length ≠ d || weights.length ≠ n then s
    else if 4096 ≤ c.arg1 then s.endRange c
    else
      let bad := if node then (s.firstPoison c.arg0 64).orElse fun _ =>
          (s.firstPoison (leAt img 0x10 8) d).orElse fun _ => s.firstPoison (leAt img 8 8) n
        else none
      match bad with
      | some p => s.endCmd c 7 p
      | none =>
        if s.modelState c.arg1 ≠ 0 then s.endCmd c 0x90 0
        else if !modelOk img descs weights then s.endRange c
        else
          match s.weightPlace n with
          | none => s.endRange c
          | some p => (s.putModel c.arg1 p img descs weights).endCmd c 0 0)

/-- ROSTER_DEREGISTER (R135, R551). -/
def execRosterDeregister (s : State) : Res :=
  .next (s.performCmd 0x11 fun c =>
    if 4096 ≤ c.arg1 then s.endRange c
    else if s.boundAny c.arg1 then s.endCmd c 0x90 0
    else
      let s := (s.write (s.reg .rosterBase + 64 * c.arg1) (List.replicate 64 0)).countModels
      let s := { s with
        copies := s.copies.filter fun (x : ModelCopy) => x.index ≠ c.arg1
        tailwind := s.tailwind.filter fun (e : TailwindCopy) => e.index ≠ c.arg1
        recent := s.recent.filter fun e => e.1 % 4096 ≠ c.arg1 }
      s.endCmd c 0 0)

/-! Regions (R374, R552). -/

/-- `REGION_TABLE`, with `KEY` zero, and `REGION_COUNT` follow the regions (R404). -/
def State.showRegions (s : State) : State :=
  let s := (s.clearReg .regionTable).change .regionCount 0 s.regions.length
  (s.regions.zipIdx).foldl (fun (u : State) r =>
    u.setReg .regionTable r.2 (r.1.base * 2 ^ 64 + r.1.size * 2 ^ 128 + r.1.perm * 2 ^ 192)) s

/-- The registration keeps the rules of R374; its reserved fields are ignored (R14). -/
def State.regionOk (s : State) (img : List Byte) : Bool :=
  let (key, base, size) := (leAt img 0 8, leAt img 8 8, leAt img 0x10 8)
  key ≠ 0 && (s.region key).isNone && base % 128 = 0 && size % 128 = 0 && decide (128 ≤ size) &&
    s.reaches base (base + size) && decide (s.regions.length < 4096)

/-- REGION_REGISTER: the image is in node memory with SRC_NODE, and otherwise in host memory (R374, R552). -/
def execRegionRegister (image : List Byte) (s : State) : Res :=
  .next (s.performCmd 0x18 fun c =>
    let img := if bit c.cflags 2 then s.bytes c.arg0 32 else image
    if img.length ≠ 32 then s
    else
      match if bit c.cflags 2 then s.firstPoison c.arg0 32 else none with
      | some p => s.endCmd c 7 p
      | none =>
        if s.regionOk img then
          let r : Region := ⟨leAt img 0 8, leAt img 8 8, leAt img 0x10 8, leAt img 0x18 1 % 8⟩
          { s with regions := s.regions ++ [r] }.showRegions.endCmd c 0 0
        else s.endRange c)

/-- REGION_DEREGISTER: later requests for the key fail (R375, R552). -/
def execRegionDeregister (s : State) : Res :=
  .next (s.performCmd 0x19 fun c =>
    if (s.region c.arg0).isNone then s.endRange c
    else { s with regions := s.regions.filter fun (r : Region) => r.key ≠ c.arg0 }.showRegions.endCmd c 0 0)

end Sys2Proof.Machine
end

