-- ==== Sys2Proof/Machine/Preempt.lean ====
section
/-! DEFINITION. Pre-emption of a bay, the save and the restore of its context, and the resume of a halted bay (R125 to R130,
R237, R238, R553, R554). -/

namespace Sys2Proof.Machine

/-! BAY_PREEMPT (R237, R238, R554). -/

/-- A COLL of the bay has neither committed nor aborted. -/
def Bay.collOpen (x : Bay) : Bool := !x.colls.isEmpty || x.flights.any fun f => f.op = opColl

/-- The command that asks for a bay's pre-emption and waits. [Log DEDUCED 87] -/
def State.preemptCmd (s : State) (b : Nat) : Option HostCmd :=
  s.cmds.find? fun c => c.opc = 0x21 && c.started && c.arg0 = b

/-- BAY_PREEMPT: the bay stops issuing; with an uncommitted COLL the pre-emption is deferred, which is logged and counted
(R237, R238). Else its save begins, and `CTX_STATE` reads empty until it has ended (R129). [Log DEDUCED 87; DESIGN CHOICE 88] -/
def execBayPreempt (s : State) : Res :=
  .next (s.performCmd 0x21 fun c =>
    let b := c.arg0
    if 256 ≤ b then s.endRange c
    else
      let x := s.bay b
      let st := s.tableState b
      if !x.present || !(st = tsRunning || st = tsWaiting) then s.endCmd c 0x93 (s.reg .nodeState)
      else if x.preempt ≠ 0 then s.endCmd c 0x90 0
      else if !s.contextReached b then s.endCmd c 0x91 (s.firstOutside (s.contextBase b))
      else
        let s := s.keepCmd c
        if x.collOpen then
          let s := (s.addReg .preemptsDeferred 0 1).logError {
            code := 0x1A, severity := 5, unitKind := 0x0F, unit := b, lbay := b }
          s.setBay b { x with preempt := 2 }
        else (s.write (s.contextBase b) (leBytes 1 0)).setBay b { x with preempt := 1 })

/-- Every entry that has started at the bay has completed, apart from one that waits at the head of the table and counts as not
started (R237). -/
def Bay.stepDone (x : Bay) : Bool :=
  x.colls.isEmpty && x.flights.all fun f => !f.executed && (f.op = opWait || f.op = opFence || f.op = opEpoch)

/-- The bay with what counts as not started taken back, to be issued again (R237). -/
def Bay.takeBack (x : Bay) : Bay :=
  match x.flights ++ x.head.toList with
  | [] => x
  | f :: _ =>
    let x := x.dropPreload
    if f.retry then { x with head := none, flights := [], halted := some f, known := true }
    else { x with head := none, flights := [], table := f.table, index := f.index, known := true }

/-- CONTEXT_SAVE_COMPLETE: the context is in memory, and the bay is pre-empted (R129, R237). [Log DESIGN CHOICE 238] -/
def execContextSaveComplete (b : Fin 256) (s : State) : Res :=
  let x := s.bay b.val
  if x.preempt = 0 || x.sparing ≠ 0 || !x.stepDone || s.tableState b.val = tsPreempted then .next s
  else
    let x := x.takeBack
    let s := (s.saveContext b.val x).setBay b.val (({ x with preempt := 3, parked := false, stored := false } : Bay).clock s.now)
    let s := (s.setReg .ctxOf b.val (s.reg .lbayMap b.val)).setTableState b.val tsPreempted
    let s := match (s.sharers b.val).find? fun k => !x.parked && (s.bay k).parked with
      | some k => s.unparkBay k
      | none => s
    match s.preemptCmd b.val with
    | some c => .next (s.endCmd c 0 0)
    | none => .next s

/-- PREEMPT_DEFERRAL_EXPIRY: the COLL has reached its deadline uncommitted; the request is refused and the bay runs on
(R238, R554). -/
def execPreemptDeferralExpiry (b : Fin 256) (s : State) : Res :=
  let x := s.bay b.val
  if x.preempt ≠ 2 || !x.collOpen then .next s
  else
    let s := (s.setBay b.val { x with preempt := 0 }).logError {
      code := 0x1A, severity := 5, unitKind := 0x0F, unit := b.val, lbay := b.val }
    match s.preemptCmd b.val with
    | some c => .next (s.endCmd c 0x1A b.val)
    | none => .next s

/-! BAY_RESUME (R130, R553). -/

/-- A halted bay discards its window and its descriptor cache, and the entry at which it halted is read and issued again
(R219, R553). [Log DEDUCED 70, 71] -/
def State.resumeHalted (s : State) (b : Nat) : State :=
  let x := { s.bay b with window := [], descs := [] }
  let s := (s.setBay b x).setTableState b tsRunning
  match x.halted with
  | none => s
  | some f =>
    let a := f.table + 32 * f.index
    let s := (s.fillWindow b a).addReg .stepsIssued 0 1
    let x := s.bay b
    let g := x.newFlight (s.load a 32) s.now
    let g := { g with
      table := f.table, index := f.index, depth := f.depth, iters := f.iters, retry := true }
    let s := s.setBay b { x with head := some g, halted := none, atLast := false }
    if s.poisoned (a / 128 * 128) (a / 128 * 128 + 128) then
      (s.emitRecord b { g with result := 7 } false).haltTable b (some g)
    else s

/-- A physical bay may take a restored context: it is active and hosts no logical bay (R553). -/
def State.bayFree (s : State) (m : Nat) : Bool :=
  m / 256 < 8 && m % 256 < 34 && s.reg .bayState (m / 256 * 34 + m % 256) = 0 &&
    !(List.range 256).any fun k => (s.bay k).present && s.reg .lbayMap k = m && s.tableState k ≠ tsPreempted

/-- The context of a pre-empted bay is restored, unless its epoch or its digest differs (R130); a digest that differs is a
data-loss failure (R491). [Log DEDUCED 89; DESIGN CHOICE 90] -/
def State.resumeSaved (s : State) (c : HostCmd) (b : Nat) : State :=
  let base := s.contextBase b
  let phys := if c.arg1 = 0xFFFF then s.reg .ctxOf b else c.arg1
  if c.arg1 ≠ 0xFFFF && !s.bayFree c.arg1 then s.endRange c
  else if s.contextFault b ≠ 0 then
    (s.refuseContext b (s.contextFault b)).endCmd c (s.contextFault b) (if s.contextFault b = 7 then base else 0)
  else
    let s := (s.write base (leBytes 1 0)).change .lbayMap b phys
    let shared := (List.range 256).any fun k =>
      k ≠ b && (s.bay k).present && s.reg .lbayMap k = phys && s.tableState k ≠ tsPreempted && s.tableState k ≠ tsEnded
    let x := s.loadContext base (s.bay b)
    let s := s.setBay b (({ x with preempt := 0, parked := shared } : Bay).clock s.now)
    let s := (s.setTableState b tsRunning)
    let s := if (s.bay b).halted.isSome then s.resumeHalted b else s
    s.endCmd c 0 0

/-- BAY_RESUME (R553). -/
def execBayResume (s : State) : Res :=
  .next (s.performCmd 0x20 fun c =>
    let b := c.arg0
    if 256 ≤ b then s.endRange c
    else if !(s.bay b).present then s.endCmd c 0x93 (s.reg .nodeState)
    else if s.tableState b = tsHalted then (s.resumeHalted b).endCmd c 0 0
    else if s.tableState b = tsPreempted then s.resumeSaved c b
    else s.endCmd c 0x93 (s.reg .nodeState))

end Sys2Proof.Machine
end

