-- ==== Sys2Proof/Machine/HostPort.lean ====
section
/-! DEFINITION. The host link and device memory (R533, R557, R558, R564, R565). -/

namespace Sys2Proof.Machine

/-- The host link trains to the highest generation and the widest width that both ends support; below 64 GT/s ×16 it is logged
(R533). -/
def State.trainHost (s : State) (gen width : Nat) (cxl : Bool) : State :=
  let g := min (min gen 6) (s.reg .hostGenMax)
  let w := if 16 ≤ width then 16 else if 8 ≤ width then 8 else 4
  if g < 4 || width < 4 then s
  else
    let s := s.change .hostLink 0 (g + 16 * w + 512 * ofBool cxl)
    if g = 6 && w = 16 then s else s.logError { code := Config.hostLinkClass.val + 1, severity := 0, outcome := 1 }

/-- HOST_LINK_TRAINING: in a state in which the port trains (R533, R564, R566). `gen` and `width` are the host's. -/
def execHostLinkTraining (gen width : Nat) (cxl : Bool) (s : State) : Res :=
  if s.isIn stOff || s.isIn stAon || (s.isIn stInit && s.reg .initStage < 2) then .next s
  else .next (s.trainHost gen width cxl)

/-- Writes that wait for back-invalidates of the lines that `p` names are performed, in order (R558).
[Log DEDUCED 192] -/
def State.release (s : State) (p : Nat → Bool) : State :=
  let go := s.waiting.filter fun w => p (w.1 / 128)
  { s with waiting := s.waiting.filter fun w => !p (w.1 / 128) }.writes go

/-- HOST_LINK_RESET: the queues are disabled and their completions discarded, and the port's session ends; the job runs on
(R562, R565). `down` says that the link itself is down: the host then holds no line any more. [Log DEDUCED 192] -/
def execHostLinkReset (down : Bool) (s : State) : Res :=
  if s.isIn stOff || s.isIn stAon || s.isIn stInit then .next s
  else
    let s := (List.range 64).foldl (fun (u : State) q => (u.change .sqEnable q 0).setReg .sqState q 0) s
    let s := { s with
      cmds := s.cmds.map fun (c : HostCmd) => { c with queue := 64 }
      cqHeld := [], rung := []
      sessions := s.sessions.filter fun (x : Session) => x.port ≠ Port.host
      assemblies := s.assemblies.filter fun (x : Assembly) => x.who.port ≠ Port.host
      subs := s.subs.filter fun (x : Subscription) => x.who.port ≠ Port.host
      answers := s.answers.filter fun (x : Answer) => x.who.port ≠ Port.host }.refreshAcked
    if down then
      let s := { s with hostLines := [] }.release fun _ => true
      .next ((s.setReg .hostHeldLines 0 0).change .hostLink 0 0)
    else .next s

/-! Device memory (R557, R558, R564). -/

/-- CXL.mem has been negotiated, in a state in which the link is trained. -/
def State.hostMem (s : State) : Bool := bit (s.reg .hostLink) 9 && (s.servesQueues || s.refusesDoorbells)

/-- Device memory is served: the state serves it, and the 64 B lie in the job window (R303, R557, R564). -/
def State.hostReach (s : State) (a : Nat) : Bool := decide (s.reg .rosterBytes ≤ a ∧ a + 64 ≤ s.reg .allocTop)

/-- The host is granted a line; a full tracker gives up the line granted longest ago (R558). [Log DESIGN CHOICE 191] -/
def State.grant (s : State) (line : Nat) : State :=
  let others := s.hostLines.filter fun l => l ≠ line
  let s := if 4194304 ≤ others.length then
      { (s.addReg .backInvalidates 0 1).send (.backInvalidate (others.headD 0)) with hostLines := others.drop 1 ++ [line] }
    else { s with hostLines := others ++ [line] }
  s.setReg .hostHeldLines 0 s.hostLines.length

/-- HOST_MEM_READ: a host read of 64 B returns their current value; outside the job window it reads poison and is counted
(R557, R564). -/
def execHostMemRead (atom : Fin 34359738368) (s : State) : Res :=
  let a := 64 * atom.val
  if !s.hostMem then .next s
  else if !s.servesQueues then .next (s.send (.hostData atom.val [] true))
  else if !s.hostReach a then .next ((s.addReg .hostRefused 0 1).send (.hostData atom.val [] true))
  else .next ((s.send (.hostData atom.val (s.bytes a 64) (s.poisoned a (a + 64)))).grant (a / 128))

/-- HOST_MEM_WRITE: a host write of bytes within 64 B is visible node-wide; outside the job window it writes nothing and is
counted, and in INIT and FAULTED it is dropped (R557, R564). [Log DESIGN CHOICE 191] -/
def execHostMemWrite (a : BitVec 41) (data : List Byte) (s : State) : Res :=
  let a := a.toNat
  if !s.hostMem || data.isEmpty || 64 < a % 64 + data.length then .next s
  else if !s.servesQueues || s.isIn stFaulted then .next s
  else if !s.hostReach (a / 64 * 64) then .next (s.addReg .hostRefused 0 1)
  else
    let held := s.hostLines
    .next { ({ s with hostLines := [] }.write a data) with hostLines := held }

/-- BACK_INVALIDATE_RESPONSE: the host no longer holds the line, and the writes that waited for it proceed (R558). -/
def execBackInvalidateResponse (line : Fin 17179869184) (s : State) : Res :=
  let s := { s with hostLines := s.hostLines.filter fun l => l ≠ line.val }
  .next ((s.setReg .hostHeldLines 0 s.hostLines.length).release fun l => l = line.val)

end Sys2Proof.Machine
end

