-- ==== Sys2Proof/Machine/Wrapper.lean ====
section
/-! DEFINITION. The IEEE 1500 wrappers of the base dies, reached through the TAP in SERVICE (R327, R328). -/

namespace Sys2Proof.Machine

/-- The stack whose wrapper the TAP connects: none outside SERVICE, where it connects the bypass register (R327). -/
def State.wrapperStack (s : State) : Option Nat :=
  if s.isIn stService && s.reg .wrapper ≠ 0 then some (s.reg .wrapper % 64 - 1) else none

/-- Instruction codes of the base die, from JOURNAL_READ to DRAUGHT_STATUS, and of HBM4 that a wrapper supports (R328).
[Log DESIGN CHOICE 235] -/
def wrapperCodes : List Nat := [0xE0, 0xE1, 0xE2, 0xE3, 0xE4, 0xE5] ++ (List.range 6).map fun k => (Config.hbmCode k).toNat

/-- The wrapper of a stack holds an instruction code; one that it does not support selects its bypass register, which stands as
0x100 (R328). -/
def State.loadCode (s : State) (k code : Nat) : State :=
  s.setReg .wrapper 0 (k + 1 + 64 * if wrapperCodes.contains code then code else 0x100)

/-- A repair made through the wrapper is recorded with origin JTAG, by the object it changes (R328).
[Log DESIGN CHOICE 65] -/
def State.auditRepair (s : State) (r : Reg) (k : Nat) (old : List Byte) : State :=
  s.appendAudit (r.objAt k) 4 0xFFFF 0 0 old (s.regBytes r k)

/-- WRAPPER_SELECT: a stack's wrapper chain is selected, in SERVICE only, and an instruction code shifted in (R327, R328). -/
def execWrapperSelect (st : Fin 32) (code : Byte) (s : State) : Res :=
  if s.isIn stService then .next (s.loadCode st.val code.toNat) else .next s

/-- JOURNAL_READ: the 64 bits of a journal entry (R325, R328). -/
def execJournalRead (entry : Fin 512) (s : State) : Res :=
  match s.wrapperStack with
  | none => .next s
  | some k => .next ((s.loadCode k 0xE0).send (.tap (Store.at 0 s.journal (k * 512 + entry.val))))

/-- REMAP_READ: the element mapped to a remap row of a channel (R328). A row that holds none gives a free value. -/
def execRemapRead (ch : Fin 32) (row : Nat) (s : State) : Res :=
  match s.wrapperStack with
  | none => .next s
  | some k =>
    let s := s.loadCode k 0xE1
    match s.remaps.find? fun r => r.stack = k && field r.element 5 5 = ch.val && r.row = row with
    | some r => .next (s.send (.tap r.element))
    | none => .next (s.draw.2.send (.tap (Config.unmappedRow s.draw.1).toNat))

/-- REMAP_WRITE: a soft remap of an element is installed at a remap row of its channel; what the row held is no longer
remapped (R322, R328). -/
def execRemapWrite (e : StackElement) (row : Nat) (s : State) : Res :=
  match s.wrapperStack with
  | none => .next s
  | some k =>
    if 61440 ≤ row then .next s
    else
      let el := elementBits32 e
      let s := s.loadCode k 0xE2
      let old := s.regBytes .reserveRowsLeft k
      let gone := s.remaps.filter fun r => r.stack = k && (r.element = el || (field r.element 5 5 = e.channel.val && r.row = row))
      let s := { s with
        remaps := s.remaps.filter fun r => !gone.contains r
        remapping := s.remapping.erase (k, el) }
      let s := s.setReg .reserveRowsLeft k (s.reg .reserveRowsLeft k + gone.length)
      .next ((s.installRemap k el row).auditRepair .reserveRowsLeft k old)

/-- A permanent repair through the wrapper starts, by the instruction of a code (R324, R328). Its DONE and FAIL shift out once the row
is tested. -/
def State.wrapperRepair (s : State) (e : StackElement) (kind code : Nat) : State :=
  match s.wrapperStack with
  | none => s
  | some k =>
    let s := s.loadCode k code
    let t := s.startRepair k (elementBits32 e) kind true
    if t = s then s else t.auditRepair .journalUsed k (s.regBytes .journalUsed k)

/-- REPAIR_ROW (R324, R328). -/
def execRepairRow (e : StackElement) (s : State) : Res := .next (s.wrapperRepair e 1 0xE3)

/-- CHANNEL_TEST: the pattern test of a channel, which finds the rows of `rows`: their count and the first shift out
(R328). The values have no place named in the register: the count is its low 32 bits (DESIGN CHOICE).
[Log DESIGN CHOICE 133] -/
def execChannelTest (ch : Fin 32) (rows : List StackElement) (s : State) : Res :=
  match s.wrapperStack with
  | none => .next s
  | some k =>
    let s := s.loadCode k 0xE4
    let rs := (rows.filter fun e => e.channel = ch).map elementBits32
    let s := s.addReg .selftestRuns 0 1
    .next (s.send (.tap (rs.length % 2 ^ 32 + (rs.headD 0) * 2 ^ 32)))

/-- DRAUGHT_STATUS: the copy front in 64 bits, and above it the copy-before-write count in 32 (R328). -/
def execDraughtStatus (s : State) : Res :=
  match s.wrapperStack with
  | none => .next s
  | some k => .next ((s.loadCode k 0xE5).send (.tap (s.copyFront k % 2 ^ 64 + s.reg .cbwWrites k % 2 ^ 32 * 2 ^ 64)))

/-- HBM4_DEVICE_IDENTITY: a free value shifts out (R328). -/
def execHbm4DeviceIdentity (s : State) : Res :=
  match s.wrapperStack with
  | none => .next s
  | some k => .next ((s.loadCode k (Config.hbmCode 0).toNat).send (.tap (Config.hbmIdentity k).toNat))

/-- HBM4_TEMPERATURE_READOUT: a free value shifts out (R328). -/
def execHbm4TemperatureReadout (s : State) : Res :=
  match s.wrapperStack with
  | none => .next s
  | some k => .next ((s.loadCode k (Config.hbmCode 1).toNat).draw.2.send (.tap (Config.hbmTemperature s.draw.1).toNat))

/-- HBM4_MODE_REGISTER_DUMP: a free value shifts out (R328). -/
def execHbm4ModeRegisterDump (s : State) : Res :=
  match s.wrapperStack with
  | none => .next s
  | some k => .next ((s.loadCode k (Config.hbmCode 2).toNat).draw.2.send (.tap (Config.hbmModes s.draw.1).toNat))

/-- HBM4_LANE_REPAIR: a permanent repair of a lane, in the journal as KIND 2 (R325, R328). -/
def execHbm4LaneRepair (e : StackElement) (s : State) : Res := .next (s.wrapperRepair e 2 (Config.hbmCode 3).toNat)

/-- HBM4_SOFT_PPR: the row is repaired until the stack loses power (R328). The spec's own record of such a repair is the
audit entry. [Log PRESUMED 132] -/
def execHbm4SoftPpr (e : StackElement) (s : State) : Res :=
  match s.wrapperStack with
  | none => .next s
  | some k =>
    let el := elementBits32 e
    let s := s.loadCode k (Config.hbmCode 4).toNat
    let s := { s with softPpr := (k, el) :: s.softPpr.erase (k, el) }
    let was := s.remaps.any fun r => r.stack = k && r.element = el
    let old := s.regBytes .reserveRowsLeft k
    let s := if was then
        { s with remaps := s.remaps.filter fun r => ¬ (r.stack = k ∧ r.element = el) }.setReg .reserveRowsLeft k
          (s.reg .reserveRowsLeft k + 1)
      else s
    .next (s.auditRepair .reserveRowsLeft k old)

/-- HBM4_HARD_PPR: the permanent repair of a row, under the journal (R324, R325, R328). -/
def execHbm4HardPpr (e : StackElement) (s : State) : Res := .next (s.wrapperRepair e 1 (Config.hbmCode 5).toNat)

end Sys2Proof.Machine
end

