-- ==== Sys2Proof/Machine/Sets.lean ====
section
/-! DEFINITION. The register sets as they are read: headers and bodies (R626, R658 to R661). -/

namespace Sys2Proof.Machine

/-- The state that a latched view shows. -/
def SetView.state (v : SetView) : State :=
  { State.reset with
    now := v.time, regs := v.regs, bays := v.bays, harts := v.harts, narrow := v.narrow, fills := v.fills
    segments := v.segments }

/-- Bytes that the view leaves open (R660). -/
def SetView.open (v : SetView) (a off n : Nat) : List Byte := (List.range n).map fun k => Config.setByte v.draw a (off + k)

/-- `S_KIND`, `S_UNIT` and `S_DOMAIN` of the set at an address (R479, R616, R659, R660). The clock unit of a domain, the node
set and the sensors lie in the always-on domain; links, collective engines and bridges in FCLK's. -/
def setUnit (a : Nat) : Nat × Nat × Nat :=
  let x := a / 256
  let k := a % 256 - 1
  if x < 0x7C30 then (1, (x - 0x7C20) * 64 + k, x - 0x7C20)
  else if x < 0x7C40 then (2, (x - 0x7C30) * 64 + k, x - 0x7C30)
  else if x = 0x7C40 then (4, k, 16 + k)
  else if x = 0x7C48 then (8, k, k)
  else if x < 0x7C58 then (9, (x - 0x7C50) * 128 + k, 8 + (x - 0x7C50))
  else if x = 0x7C58 then (6, k, 10)
  else if x = 0x7C5C then (0, 0, 10)
  else if x = 0x7C60 then (0, 0, 54)
  else if x = 0x7C64 then (0x0B, k, 54)
  else if x = 0x7C68 then (0x0C, 0, 54)
  else (5, k * 256, 10)

/-- `SQUALL_SCORE`, as binary32 (R494, R569). -/
def State.squallScore (s : State) : Nat := (fp32.round false (.fin false s.squallNow (-16))).1

/-- The logical bay whose context runs on a physical bay. -/
def State.bayOn (s : State) (die phys : Nat) : Option Nat :=
  (List.range 256).find? fun b => (s.bay b).present && !(s.bay b).parked && s.reg .lbayMap b = die * 256 + phys

/-- The first four of a list of numbers, with zeros after its end. -/
def fourOf (ns : List Nat) : List Nat := (ns ++ [0, 0, 0, 0]).take 4

/-- What is left of the deadline of a bay's oldest entry, in 16 ns units: its clock has run from the start of the entry but for the
time for which it stood (R227). -/
def SetView.deadlineLeft (v : SetView) (x : Bay) : List Byte :=
  match x.flights with
  | [] => leBytes 4 0
  | f :: _ =>
    let until' := if x.stoppedAt = 0 then v.time else x.stoppedAt - 1
    leBytes 4 ((f.limit + f.stopped - (until' - f.startAt)) / 16)

/-- Body of a bay's set. -/
def SetView.bayBody (v : SetView) (a die phys : Nat) : List Byte :=
  let s := v.state
  match s.bayOn die phys with
  | none => leBytes 128 0
  | some b =>
    let x := s.bay b
    leBytes 4 x.index ++ leBytes 1 x.stack.length ++ leBytes 1 x.flights.length ++ leBytes 1 x.cf ++
      leBytes 1 (s.reg .tableState b) ++ (fourOf (x.flights.map Flight.step)).flatMap (leBytes 2) ++
      (fourOf (x.flights.map Flight.op)).flatMap (leBytes 1) ++ leBytes 1 ((Config.setByte v.draw a 20).toNat % 10) ++
      v.deadlineLeft x ++ x.left.flatMap (leBytes 4) ++ (List.range 8).flatMap (fun p => leBytes 8 (x.pred p)) ++
      leBytes 4 ((x.spec.map fun w => w.bytes.length).foldl (· + ·) 0) ++ leBytes 3 0

/-- Body of a slice's set. -/
def SetView.sliceBody (v : SetView) (a die phys : Nat) : List Byte :=
  let s := v.state
  let mine := fun line => s.sliceUnit (128 * line) = die * 64 + phys
  v.open a 0 2 ++ leBytes 2 (v.fills.filter mine).length ++ v.open a 4 4 ++ leBytes 4 (v.tagged.filter mine).length ++
    leBytes 1 (s.reg .llmScratchWays die) ++ leBytes 1 (s.reg .sliceState (die * 34 + phys)) ++ leBytes 18 0

/-- Body of a stack controller's set. -/
def SetView.stackBody (v : SetView) (a st : Nat) : List Byte :=
  let s := v.state
  v.open a 0 32 ++ (List.range 32).flatMap (fun c => leBytes 1 (s.reg .channelState (32 * st + c))) ++
    leBytes 2 (v.narrow.filter fun n => n.stack = st).length ++ v.open a 66 2 ++
    leBytes 4 (v.fronts.getD st 0) ++
    leBytes 4 (s.reg .cbwWrites st) ++ leBytes 52 0

/-- Accesses that a hart has outstanding. -/
def Await.outstanding : Await → Nat
  | .load .. | .vload .. | .atomic .. | .refill => 1
  | .gather _ _ es => es.length
  | .scatter es => es.length
  | _ => 0

/-- The place of an access lies in the node. -/
def Place.near : Place → Bool
  | .far .. => false
  | _ => true

/-- What a hart waits for, as the set codes it: 0x02 a remote access, 0x03 a local one, 0x04 the store buffer, 0x05 WFI. -/
def Await.code : Await → Nat
  | .none => 0
  | .wfi => 5
  | .room .. => 4
  | .load _ _ _ _ p => if p.near then 3 else 2
  | .vload _ _ p => if p.near then 3 else 2
  | .atomic _ _ _ _ _ _ p => if p.near then 3 else 2
  | .gather _ _ es => if es.all fun e => e.2.near then 3 else 2
  | .scatter _ => 3
  | .sync _ ra => if ra then 2 else 3
  | .fence => 3
  | .refill => 3
  | .halt => 3

/-- Body of a core's set; a thread that carries no logical hart shows 0xFFFF there. -/
def SetView.coreBody (v : SetView) (die core : Nat) : List Byte :=
  let s := v.state
  (List.range 16).flatMap fun t =>
    match (List.range 3072).find? fun h => s.reg .hartMap h = die * 32768 + core * 256 + t with
    | none => leBytes 10 0 ++ leBytes 2 0xFFFF ++ leBytes 4 0
    | some h =>
      let x := Store.at Hart.blank s.harts h
      let c := if s.reg .hartState h = 3 then 6
        else if x.wait.code = 0 && s.reg .hartState h = 1 && s.reg .hartTurn (96 * die + core) = t then 1
        else x.wait.code
      leBytes 8 x.pc ++ leBytes 1 c ++ leBytes 1 x.wait.outstanding ++ leBytes 2 h ++ leBytes 4 0

/-- Body of the set at an address (R660). [Log DESIGN CHOICE 196] -/
def SetView.body (v : SetView) (a : Nat) : List Byte :=
  let s := v.state
  let x := a / 256
  let k := a % 256 - 1
  if x < 0x7C30 then v.bayBody a (x - 0x7C20) k
  else if x < 0x7C40 then v.sliceBody a (x - 0x7C30) k
  else if x = 0x7C40 then v.stackBody a k
  else if x = 0x7C48 then v.open a 0 12 ++ leBytes 20 0
  else if x < 0x7C58 then v.coreBody (x - 0x7C50) k
  else if x = 0x7C58 then
    leBytes 1 (s.reg .linkState k) ++ leBytes 1 (s.reg .linkGen k) ++ leBytes 1 (s.reg .laneMap k) ++ leBytes 1 0 ++
      v.open a 4 32 ++ leBytes 28 0
  else if x = 0x7C5C then v.open a 0 1 ++ leBytes 3 0 ++ v.open a 4 36 ++ leBytes 24 0
  else if x = 0x7C60 then
    leBytes 1 (s.reg .nodeState) ++ leBytes 1 (s.reg .recoveryState) ++ leBytes 1 (s.reg .squallState) ++
      leBytes 1 (s.reg .xwState) ++ leBytes 8 (s.reg .tstep) ++ leBytes 4 s.squallScore ++
      leBytes 1 (s.reg .throttleState) ++ leBytes 3 0 ++ leBytes 4 (s.reg .pkgPower) ++ leBytes 8 (s.reg .errorHead) ++
      leBytes 8 (s.reg .auditHead) ++ leBytes 24 0
  else if x = 0x7C64 then
    leBytes 1 (s.reg .clkSel k) ++ leBytes 1 (ofBool (s.reg .clkSwitching k ≠ 0)) ++ leBytes 2 (s.reg .clkMhz k) ++
      leBytes 1 (s.reg .clkReady k) ++ leBytes 11 0
  else if x = 0x7C68 then s.regBytes .temps 0 ++ leBytes 2 (s.reg .vinMainMv) ++ leBytes 2 (s.reg .vinMainA)
  else
    let off := (v.segments.filter fun e => e.1 / 256 = k && e.2 = 2).length
    leBytes 1 (s.reg .bridgeState k) ++ leBytes 1 (if h : k < 23 then Config.bridgeSegments ⟨k, h⟩ - off else 0) ++
      v.open a 2 4 ++ leBytes 10 0

/-- The block of a set is gated at T_f (R626): a bay without work; for slices, couplers and stack controllers the view does
not say. [Log DESIGN CHOICE 198] -/
def SetView.gated (v : SetView) (a : Nat) : Bool :=
  let x := a / 256
  if x < 0x7C30 then
    match v.state.bayOn (x - 0x7C20) (a % 256 - 1) with
    | none => true
    | some b => (v.state.bay b).flights.isEmpty && (v.state.bay b).head.isNone
  else if x < 0x7C50 then Config.gatedAt v.draw a
  else false

/-- The domain of a set was stopped at T_f (R658). [Log DESIGN CHOICE 198] -/
def SetView.stopped (v : SetView) (dom : Nat) : Bool := dom < 48 && v.state.reg .clkMhz dom = 0

/-- Header of a set (R659). -/
def setHeader (a flags latch : Nat) : List Byte :=
  let (kind, unit, dom) := setUnit a
  leBytes 1 kind ++ leBytes 1 flags ++ leBytes 1 dom ++ leBytes 1 0 ++ leBytes 4 unit ++ leBytes 8 latch

/-- The bytes of the set at an address; zeros before the first freeze since cold reset (R658, R661).
[Log DESIGN CHOICE 197] -/
def State.setBytesAt (s : State) (a len : Nat) : List Byte :=
  match s.frozen with
  | none => leBytes len 0
  | some v =>
    let dom := (setUnit a).2.2
    if v.stopped dom then
      match s.late.lookup dom with
      | some w => setHeader a 3 w.time ++ w.body a
      | none => setHeader a 8 (ofLe ((List.range 8).map fun k => Config.setByte v.draw a k)) ++ v.open a 16 (len - 16)
    else if v.gated a then setHeader a 5 (Config.latchTime v.draw a).toNat ++ v.body a
    else setHeader a 1 (v.time + (Config.latchEdge v.draw a).val) ++ v.body a

/-- The addresses of the sets, rising (R660, R662). -/
def setAddresses : List (Nat × Nat) :=
  ([(0x7C20, 8, 34), (0x7C30, 8, 34), (0x7C40, 1, 32), (0x7C48, 1, 8), (0x7C50, 2, 96), (0x7C58, 1, 24), (0x7C5C, 1, 4),
    (0x7C60, 1, 1), (0x7C64, 1, 48), (0x7C68, 1, 1), (0x7C6C, 1, 23)]).flatMap fun (x, n, m) =>
    (List.range n).flatMap fun i => (List.range m).filterMap fun k =>
      let a := (x + i) * 256 + k + 1
      (setLength a).map fun len => (a, len)

end Sys2Proof.Machine
end

