-- ==== Sys2Proof/Machine/Freeze.lean ====
section
/-! DEFINITION. The freeze trigger's commands, late latches and dumps, and the load and error-rate monitors (R653 to R658,
R662 to R665). -/

namespace Sys2Proof.Machine

/-- What a write of `FREEZE_CMD` does: 1 fires the trigger, 2 re-arms it, 3 disarms it; it reads 0 (R653, R654). A dump that
has not been written is given up with a re-arm or disarm. [Log DEDUCED 199] -/
def freezeCommand (v : Nat) (s : State) : State :=
  let s := s.setReg .freezeCmd 0 0
  if v = 1 then s.fire 0 0 0 0xFFFF
  else (s.setReg .freezeState 0 (if v = 2 then 1 else 0)).setReg .dumpWaits 0 0

/-- FREEZE_CMD_TRIGGER (R653). -/
def execFreezeCmdTrigger (q : Requester) (s : State) : Res :=
  .next (s.writeRequest q (Reg.freezeCmd.objAt 0) [1] fun _ _ => freezeCommand 1)

/-- FREEZE_CMD_REARM (R654). -/
def execFreezeCmdRearm (q : Requester) (s : State) : Res :=
  .next (s.writeRequest q (Reg.freezeCmd.objAt 0) [2] fun _ _ => freezeCommand 2)

/-- FREEZE_CMD_DISARM (R654). -/
def execFreezeCmdDisarm (q : Requester) (s : State) : Res :=
  .next (s.writeRequest q (Reg.freezeCmd.objAt 0) [3] fun _ _ => freezeCommand 3)

/-- SNAP_TRIG_EDGE: a rising edge held high for `width` ns fires the trigger from 80 ns (R653). -/
def execSnapTrigEdge (width : Nat) (s : State) : Res :=
  if width < 80 then .next s else .next (s.fire 4 0 0 0xFFFF)

/-- FREEZE_HOLD_EXPIRY: a trigger that has been FROZEN or DUMPED for `FREEZE_HOLD` ms is ARMED again (R654). -/
def execFreezeHoldExpiry (s : State) : Res :=
  if s.reg .freezeHold ≠ 0 && (s.reg .freezeState = 2 || s.reg .freezeState = 3) then
    .next ((s.setReg .freezeState 0 1).setReg .dumpWaits 0 0)
  else .next s

/-- LATE_LATCH: a domain that was stopped at T_f runs again, and its sets latch (R658). -/
def execLateLatch (k : Fin 48) (s : State) : Res :=
  match s.frozen with
  | none => .next s
  | some v =>
    if v.stopped k.val && s.reg .clkMhz k.val ≠ 0 && (s.late.lookup k.val).isNone then
      .next { s with late := s.late ++ [(k.val, s.setView v.draw)] }
    else .next s

/-- The bytes of a dump: every set in increasing address, each padded with zeros to a multiple of 64 B (R662). -/
def State.dumpBytes (s : State) : List Byte :=
  setAddresses.flatMap fun (a, len) => s.setBytesAt a len ++ leBytes (ceilDiv len 64 * 64 - len) 0

/-- FREEZE_DUMP_COMPLETE: the register sets stand in memory and the state becomes DUMPED (R662). -/
def execFreezeDumpComplete (s : State) : Res :=
  if s.reg .freezeState = 2 && s.reg .dumpWaits = 1 then
    let t := if s.hostMay (s.reg .freezeDumpAddr) then s.write (s.reg .freezeDumpAddr) s.dumpBytes else s
    .next ((t.setReg .freezeState 0 3).setReg .dumpWaits 0 0)
  else .next s

/-! Monitors. -/

/-- The bin of a latency: below 32 ns, then one for each power of two, and 2^19 ns and above (R664). -/
def latencyBin (ns : Nat) : Nat := if ns < 32 then 0 else min 15 (Nat.log2 ns - 4)

/-- A latency is counted in its bin, which stops at 0xFFFF_FFFF (R664). -/
def State.countLatency (s : State) (path ns : Nat) : State :=
  let i := 16 * path + latencyBin ns
  s.setReg .latHist i (min 0xFFFFFFFF (s.reg .latHist i + 1))

/-- LEVEL_SAT_REFRESH: the 1 ms figures of saturation and load, and the latencies timed in that time (R403, R663, R664).
[Log DESIGN CHOICE 202] -/
def execLevelSatRefresh (f : LoadFacts) (s : State) : Res :=
  if !s.supervisorUp then .next s
  else
    let s := (List.range 8).foldl (fun (u : State) i => u.setReg .levelSat i ((f.levels.map Fin.val).getD i 0)) s
    let s := f.latencies.foldl (fun (u : State) e => u.countLatency e.1.val e.2) s
    let s := f.sliceCycles.foldl (fun (u : State) e => u.addReg .sliceSatCycles e.1.val e.2) s
    let s := f.linkCycles.foldl (fun (u : State) e => u.addReg .linkSatCycles e.1.val e.2) s
    let s := f.stackLoads.foldl (fun (u : State) e => u.setReg .stackLoad e.1.val e.2.val) s
    .next (f.linkLoads.foldl (fun (u : State) e => u.setReg .linkLoad e.1.val e.2.val) s)

/-- What a write of 1 to `LAT_CLEAR` does (R664). -/
def clearLatencies (s : State) : State :=
  let s := if s.reg .latClear = 1 then s.clearReg .latHist else s
  s.setReg .latClear 0 0

/-- LAT_CLEAR_WRITE (R664). -/
def execLatClearWrite (q : Requester) (v : Byte) (s : State) : Res :=
  .next (s.writeRequest q (Reg.latClear.objAt 0) [v] fun _ _ => clearLatencies)

/-- The windows of one fault class move on by a second (R665). [Log DEDUCED 162] -/
def State.moveWindow (s : State) (c : Nat) : State :=
  let past := (List.range 59).map fun w => s.reg .ratePast (60 * c + w)
  let s := s.setRegs .ratePast (60 * c) (0 :: past)
  (s.setReg .errorRate (2 * c) 0).setReg .errorRate (2 * c + 1) (past.foldl (· + ·) 0)

/-- ERROR_RATE_WINDOW (R665). -/
def execErrorRateWindow (s : State) : Res :=
  .next ((List.range 28).foldl (fun (u : State) c => u.moveWindow c) s)

end Sys2Proof.Machine
end

