-- ==== Sys2Proof/Machine/Time.lean ====
section
/-! DEFINITION. TAI: the PTP unit and the PPS input (R604 to R609, R611, R628), and the addresses of the management port
(R583, R611). -/

namespace Sys2Proof.Machine

/-- `TAI_STATE` changes; every change is logged (R608). -/
def State.setTai (s : State) (v : Nat) : State := s.change .taiState 0 v

/-- What has been slewed so far becomes part of the offset, and the slew ends (R609). -/
def State.foldSlew (s : State) : State :=
  let off := unsigned 64 ((s.reg .taiOffset : Int) + s.slewed)
  ((s.setReg .taiOffset 0 off).setReg .taiSlew 0 0).setReg .taiSlewAt 0 s.now

/-- TAI is brought to the reference, `d` ns ahead of it: at lock an offset above 1 ms steps it, which is logged; a smaller one
is slewed (R609). -/
def State.steer (s : State) (d : Int) (atLock : Bool) : State :=
  let s := s.foldSlew
  if atLock && decide (1000000 < d.natAbs) then
    let t := s.setReg .taiOffset 0 (unsigned 64 ((s.reg .taiOffset : Int) + d))
    t.auditInternal (Reg.taiNs.objAt 0) 0 (leBytes 8 s.tai) (leBytes 8 t.tai)
  else s.setReg .taiSlew 0 (unsigned 64 d)

/-- The unit locks to its reference (R605, R608, R609). -/
def State.lockTai (s : State) (d : Int) (code : Nat) : State :=
  ((s.steer d true).setReg .taiWasLocked 0 1).setTai code

/-- PTP_MESSAGE: an exchange with the selected master gives the offset of TAI from it; acquisition ends once the unit has
settled on it (R606 to R609). [Log DESIGN CHOICE 54, 55, 56] -/
def execPtpMessage (master : Dword) (domain : Byte) (utc offset : Int) (settled : Bool) (s : State) : Res :=
  if !s.ptpOn || s.reg .ptpEnable = 0 || domain.toNat ≠ s.reg .ptpDomain || s.reg .ppsMode = 2 ||
      !s.portAnswers .management then .next s
  else
    let s := (s.setReg .ptpMaster 0 master.toNat).setReg .utcOffset 0 (unsigned 32 utc)
    let st := s.reg .taiState
    if st = 3 then .next s
    else
      let s := s.setReg .taiOffsetErr 0 (unsigned 32 offset)
      if st = 0 || st = 4 then .next (s.setTai 1)
      else if st = 1 then (if settled then .next (s.lockTai offset 2) else .next s)
      else .next (s.steer offset false)

/-- From TAI now to the nearest whole second, in ns. -/
def State.toSecond (s : State) : Int :=
  let f := s.tai % 1000000000
  if f < 500000000 then -(f : Int) else 1000000000 - f

/-- PPS_EDGE: the edge marks the second that PTP names, or a second counted from `TAI_SET`; an edge more than 100 µs from the
expected second is ignored and counted (R607, R608). [Log DESIGN CHOICE 55] -/
def execPpsEdge (s : State) : Res :=
  let mode := s.reg .ppsMode
  let st := s.reg .taiState
  let d := s.toSecond
  let far := decide (100000 < d.natAbs)
  let took := s.setReg .taiOffsetErr 0 (unsigned 32 d)
  if !s.ptpOn || mode = 0 then .next s
  else if st = 3 || (mode = 1 && st = 2) then
    if far then .next (s.addReg .ppsRejected 0 1)
    else .next ((took.steer d false).setTai 3)
  else if mode = 1 then .next s
  else if st = 1 then .next (took.lockTai d 3)
  else .next (s.setTai 1)

/-- PTP_REFERENCE_SILENT: no reference for 5 s (R608). -/
def execPtpReferenceSilent (s : State) : Res :=
  if s.ptpOn && (s.reg .taiState = 1 || s.reg .taiState = 2 || s.reg .taiState = 3) then .next (s.foldSlew.setTai 4) else .next s

/-- A write of a PTP object restarts acquisition (R611): without a reference configured the unit is FREE. -/
def State.restartPtp (s : State) : State :=
  if s.reg .taiState = 0 then s
  else if s.reg .ptpEnable = 1 || s.reg .ppsMode = 2 then s.foldSlew.setTai 1
  else s.foldSlew.setTai 0

/-- What a write of `TAI_SET` does: before the first lock, and where the PPS counts from it, TAI runs as the timebase plus the
value (R605, R607). [Log DESIGN CHOICE 58] -/
def taiSetEffect (s : State) : State :=
  let s := if s.reg .taiWasLocked = 0 || s.reg .ppsMode = 2 then
      ((s.setReg .taiOffset 0 (s.reg .taiSet)).setReg .taiSlew 0 0).setReg .taiSlewAt 0 s.now
    else s
  s.restartPtp

/-- TAI_SET_WRITE (R605, R611). -/
def execTaiSetWrite (q : Requester) (v : Dword) (s : State) : Res :=
  .next (s.writeRequest q (Reg.taiSet.objAt 0) (leBytes 8 v.toNat) fun _ _ => taiSetEffect)

/-- What a write of `PERIPH_EN` does: a PTP unit that is disabled is FREE (R627, R628). [Log DESIGN CHOICE 58] -/
def periphEffect (s : State) : State := if s.ptpOn || s.reg .taiState = 0 then s else s.setTai 0

/-! The management port (R583, R611). -/

/-- The port takes an address, mask and gateway. -/
def State.setIpv4 (s : State) (addr mask gateway : Nat) : State :=
  ((s.setReg .ipv4 0 addr).setReg .ipv4Mask 0 mask).setReg .ipv4Gateway 0 gateway

/-- The addresses of the objects come into force. -/
def State.takeIpv4 (s : State) : State := s.setIpv4 (s.reg .mgmtIpv4) (s.reg .mgmtNetmask) (s.reg .mgmtGateway)

/-- A write of a management-port object takes effect at once while the port is down (R611). -/
def mgmtEffect (s : State) : State := if s.reg .mgmtLink = 1 then s else s.takeIpv4

/-- MGMT_ADDRESS_RENEWAL: the port, which is up, renews its address: its lease if `MGMT_IPV4` is 0, else what the objects
hold (R583, R611). [Log DEDUCED 53] -/
def execMgmtAddressRenewal (addr mask gateway : Word) (s : State) : Res :=
  if !s.portAnswers .management then .next s
  else
    let s := s.setReg .mgmtLink 0 1
    .next (if s.reg .mgmtIpv4 = 0 then s.setIpv4 addr.toNat mask.toNat gateway.toNat else s.takeIpv4)

/-- ARP_REQUEST: the port answers for its own address (R583). -/
def execArpRequest (source : Nat) (target : Word) (s : State) : Res :=
  if s.portAnswers .management && s.reg .ipv4 ≠ 0 && target.toNat = s.reg .ipv4 then
    .next (s.send (.arp source (s.reg .mgmtMac)))
  else .next s

/-- ICMP_ECHO (R583). -/
def execIcmpEcho (source : Nat) (target : Word) (data : List Byte) (s : State) : Res :=
  if s.portAnswers .management && s.reg .ipv4 ≠ 0 && target.toNat = s.reg .ipv4 then .next (s.send (.echo source data))
  else .next s

end Sys2Proof.Machine
end

