-- ==== Sys2Proof/Machine/Init.lean ====
section
/-! DEFINITION. The stages of INIT (R21 to R30, R322, R326, R359, R485, R496, R525, R576, R617, R627, R632). Each stage takes
what its work has found; an element that an earlier run has marked failed keeps that state. -/

namespace Sys2Proof.Machine

/-! Stage 1: the supervisor and the clocks. -/

/-- The pair that is active fails its start test, and the other takes its place; or the standby fails (R21). -/
def State.startPairs (s : State) (f : StageFacts) : State :=
  let ok := fun (p : Nat) => if p = 0 then f.startA else f.startB
  let a := s.reg .supActive
  let lost := fun (u : State) (p : Nat) =>
    ((u.change .supStandbyOk 0 0).logError {
      code := 0x18, severity := 2, outcome := 6, unitKind := 0x0E, unit := p }).degrade 8
  if s.reg .supStandbyOk = 0 then s
  else if ok a && ok (1 - a) then s
  else if ok a then lost s (1 - a)
  else lost (s.change .supActive 0 (1 - a)) a

/-- Some pair that has not been lost starts (R21). -/
def State.pairStarts (s : State) (f : StageFacts) : Bool :=
  let ok := fun (p : Nat) => if p = 0 then f.startA else f.startB
  ok (s.reg .supActive) || (s.reg .supStandbyOk = 1 && ok (1 - s.reg .supActive))

/-- PLL A of a domain locks and is selected, or PLL B (R617). [Log DEDUCED 12] -/
def State.lockPll (s : State) (f : StageFacts) (k : Nat) : State :=
  if !clockDomain k then s
  else if (f.pllNone.map Fin.val).contains k || s.reg .pllFailed k = 1 then s.setReg .pllFailed k 1
  else
    let b := s.reg .clkPllSpare k = 1 || (f.pllBOnly.map Fin.val).contains k
    let s := s.setReg .clkReady k (withBit (s.reg .clkReady k) (if b then 3 else 2))
    let s := (s.change .clkSel k (if b then 3 else 2)).setReg .clkMhz k (s.reg .pllMhz k)
    if b then s.change .clkPllSpare k 1 else s

/-- The supervisor runs an image, whose releases the identity objects show (R92, R610, R694). -/
def State.runImage (s : State) (img : Fin 2) : State :=
  let fw := Config.numericFw img
  (((s.change .fwImage 0 img.val).change .fwVersion 0 (Config.fwVersion img).toNat).change .numericFw 0 fw.toNat).change
    .transcId 0 (Config.transcId fw).toNat

/-- Stage 1 (R21, R22, R29, R576, R617). Without an image that passes its check, or a pair that starts, the supervisor does not
run. [Log DESIGN CHOICE 26; DEDUCED 27] -/
def State.initStage1 (s : State) (f : StageFacts) : State :=
  match f.image with
  | none => s.enterFaulted
  | some img =>
    if !s.pairStarts f then s.enterFaulted
    else
      let s := (s.startPairs f).runImage img
      let s := (List.range 48).foldl (fun (u : State) k => u.lockPll f k) s
      let s := s.change .periphEn 0 (withBit (withBit (s.reg .periphEn) 0) 1)
      let s := s.setReg .stageStarted 0 1
      let strap := s.reg .posStrap
      if 16 < strap then
        (s.auditInternal (Reg.posStrap.objAt 0) 0 (leBytes 1 strap) (leBytes 1 strap)).enterFaulted
      else if (List.range 48).any fun k => s.reg .pllFailed k = 1 then s.enterFaulted
      else s.setReg .initStage 0 2

/-! Stage 2: the bridges and the host link. -/

/-- A segment of a bridge fails its test: the spare wire takes the place of the failed one, or the segment is switched off
(R485, R486). -/
def State.failSegment (s : State) (b : Fin 23) (g : Nat) : State :=
  let u := b.val * 256 + g
  let spare := s.wireState u = 0
  let s := { s with segments := Store.put 0 s.segments u (if spare then 1 else 2) }
  let s := if spare then s.logError { code := 4, severity := 1, outcome := 2, unitKind := 5, unit := u } else s
  s.change .bridgeState b (s.bridgeCode b)

/-- Stage 2 (R22, R485, R486, R533). [Log DESIGN CHOICE 26, 28] -/
def State.initStage2 (s : State) (f : StageFacts) : State :=
  let s := f.segments.foldl (fun (u : State) e => u.failSegment e.1 e.2.val) s
  let s := match f.hostTrained with
    | none => s.change .hostLink 0 0
    | some (gen, width, cxl) => s.trainHost gen.val width.val cxl
  if s.dieCutOff then s.enterFaulted else (s.setReg .stageStarted 0 2).setReg .initStage 0 3

/-! Stage 3: the stacks and the LLM. -/

/-- An uncertain journal entry is closed as its element's test says (R326). -/
def State.closeEntry (s : State) (f : StageFacts) (k : Nat) : State :=
  let e := Store.at 0 s.journal k
  if !bit e 36 || bit e 37 then s
  else
    let pass := ((f.uncertain.find? fun u => u.1.val * 512 + u.2.1.val = k).map fun u => u.2.2).getD true
    let s := s.programJournal (k / 512) (k % 512) (2 ^ 37 + 2 ^ 39 + ofBool (!pass) * 2 ^ 38)
    let s := s.addReg .journalUncertain (k / 512) 1
    let row := e % 2 ^ 32
    if pass || s.isRemapped (k / 512) row then s
    else s.installRemap (k / 512) row (s.freeRow (elementChannel (k / 512) row))

/-- The journals are read (R326). -/
def State.readJournals (s : State) (f : StageFacts) : State :=
  let s := (List.range 32).foldl (fun (u : State) st =>
    (u.setReg .journalUncertain st 0).setReg .journalUsed st (u.journal.filter fun e => e.1 / 512 = st).length) s
  (s.journal.map Prod.fst).foldl (fun (u : State) k => u.closeEntry f k) s

/-- A channel's test at INIT: failing rows are remapped, or the channel is mapped out (R310, R322). [Log DEDUCED 29] -/
def State.initChannel (s : State) (ch : Nat) (r : PatternResult) : State :=
  let stack := ch / 32
  if s.chanState ch ≠ csActive then s
  else
    match r with
    | .pass => s
    | .whole => s.decideMapout ch
    | .baseDie => s.failBaseDie stack
    | .rows es =>
      let rows := (es.map elementBits32).filter fun e => elementChannel stack e = ch && !s.isRemapped stack e
      if rows.isEmpty then s
      else if 64 < es.length || 61440 < s.rowsUsed ch + rows.length then s.decideMapout ch
      else
        let s := rows.foldl (fun (u : State) e => u.installRemap stack e (u.freeRow ch)) s
        s.logError { code := 0x18, severity := 1, outcome := 3, unitKind := 3, unit := ch, addr := s.rowAddress ch (rows.headD 0 / 32) }

/-- The pool of spare slices of a die is one smaller; an empty one sets `DEGRADE_CAUSE`[5] (R35). -/
def State.takeSpareSlice (s : State) (die : Nat) : State :=
  let n := field (s.reg .sliceSparesLeft) (4 * die) 4
  let s := s.change .sliceSparesLeft 0 (withField (s.reg .sliceSparesLeft) (4 * die) 4 (n - 1))
  if n ≤ 1 then s.degrade 5 else s

/-- A slice fails its MBIST at INIT (R337, R338). -/
def State.initSlice (s : State) (die phys : Nat) : State :=
  let k := die * 34 + phys
  let u := die * 64 + phys
  if s.reg .sliceState k = 1 then
    ((s.change .sliceState k 2).logError {
      code := 0x18, severity := 2, outcome := 6, unitKind := 2, unit := u }).takeSpareSlice die
  else if s.reg .sliceState k ≠ 0 then s
  else
    match s.spareSlice die with
    | none => s.passThrough die phys
    | some p =>
      let s := (s.change .sliceState k 2).change .sliceState (die * 34 + p) 0
      let s := (List.range 32).foldl (fun (v : State) l =>
        if v.reg .sliceMap (die * 32 + l) = phys then v.setReg .sliceMap (die * 32 + l) p else v) s
      let last := field (s.reg .sliceSparesLeft) (4 * die) 4 = 1
      (s.logError { code := 0x0B, severity := if last then 2 else 1, outcome := 2, unitKind := 2, unit := u }).takeSpareSlice die

/-- Slots and shards are checked: what has no valid commit record or fails its digest is marked invalid and recorded (R525).
[Log DESIGN CHOICE 35] -/
def State.checkSlots (s : State) (f : StageFacts) : State :=
  let bad := fun (u : State) (k : Nat) =>
    let x := u.slot k
    x.state ≠ 0 && (!x.committed || (x.mapDigest = u.mapDigest && (f.slots.map Fin.val).contains k))
  let s := [0, 1].foldl (fun (u : State) k => if bad u k then (u.setSlot k Slot.empty).snapshotInvalid 0x10 k 0 else u) s
  let lost := fun (x : Shard) =>
    x.state ≠ 2 || f.shards.any fun p => p.1.val = x.slot && p.2.val = x.area
  let n := (s.shards.filter lost).length
  let s := { s with shards := s.shards.filter fun x => !lost x }
  (((List.range n).foldl (fun (u : State) _ => u.snapshotInvalid 0x10 0 0) s).showShards).showSlots

/-- Stage 3 (R22, R326, R337, R525): every channel that serves is trained. [Log DESIGN CHOICE 26] -/
def State.initStage3 (s : State) (f : StageFacts) : State :=
  let s := (List.range 1024).foldl (fun (u : State) ch =>
    if u.chanState ch = csRetraining || u.chanState ch = csTesting then u.change .channelState ch csActive else u) s
  let s := s.readJournals f
  let s := f.channels.foldl (fun (u : State) e => u.initChannel e.1.val e.2) s
  let s := f.baseDies.foldl (fun (u : State) st => u.failBaseDie st.val) s
  let s := f.slices.foldl (fun (u : State) e => u.initSlice e.1.val e.2.val) s
  let s := s.checkSlots f
  if s.isIn stFaulted then s else (s.setReg .stageStarted 0 3).setReg .initStage 0 4

/-! Stage 4: the bays, couplers and cores. -/

/-- A bay fails its array BIST at INIT: a spare of its die takes its place (R120, R123). -/
def State.initBay (s : State) (die phys : Nat) : State :=
  let k := die * 34 + phys
  let u := die * 64 + phys
  let st := s.reg .bayState k
  if st = 2 then s
  else
    let left := field (s.reg .baySparesLeft) (4 * die) 4
    let s := s.change .bayState k 2
    if st = 0 && left = 0 then
      let s := s.logError { code := 0x0A, severity := 2, outcome := 2, unitKind := 1, unit := u }
      (s.change .baysActive 0 (s.reg .baysActive - 1)).degrade 0
    else
      let s := if st = 0 then
          match s.spareBay die with
          | some p => (s.change .bayState (die * 34 + p) 0).logError {
              code := 0x0A, severity := if left = 1 then 2 else 1, outcome := 2, unitKind := 1, unit := u }
          | none => s
        else s.logError { code := 0x18, severity := 2, outcome := 6, unitKind := 1, unit := u }
      let s := s.change .baySparesLeft 0 (withField (s.reg .baySparesLeft) (4 * die) 4 (left - 1))
      if left = 1 then s.degrade 4 else s

/-- A general core fails its start (R244, R292). -/
def State.initCore (s : State) (core : Nat) : State :=
  if s.reg .coreFailed core = 1 then s
  else
    let s := (s.setReg .coreFailed core 1).change .coresUsable 0 (s.reg .coresUsable - 1)
    s.logError { code := 0x18, severity := 1, outcome := 2, unitKind := 9, unit := coreUnit core }

/-- The healthy cores of a processor die, in physical order. -/
def State.healthyCores (s : State) (die : Nat) : List Nat :=
  (List.range 96).filter fun c => s.reg .coreFailed (96 * die + c) = 0

/-- `HART_MAP` and `CORE_RESERVE_LEFT` follow from the healthy cores and `CORE_RESERVE`: the highest healthy cores are the
reserve (R244, R245). [Log DEDUCED 31] -/
def State.placeHarts (s : State) : State :=
  let r := s.reg .coreReserve
  let n := 96 - r
  let cores := [0, 1].map s.healthyCores
  let left := fun (d : Nat) => (cores.getD d []).length - n
  let s := s.change .coreReserveLeft 0 (left 0 + 256 * left 1)
  let m := (List.range 3072).map fun h =>
    if 32 * n ≤ h then 0xFFFF
    else
      match (cores.getD (h / (16 * n)) [])[h % (16 * n) / 16]? with
      | some c => h / (16 * n) * 32768 + c * 256 + h % 16
      | none => 0xFFFF
  if r = 2 && s.reg .coresUsable = 192 then s.clearReg .hartMap else s.changeAll .hartMap 0 m

/-- Stage 4 (R22, R27, R145, R245, R487, R571): `ROSTER_COUNT` shows the models that memory has kept. [Log DESIGN CHOICE 26] -/
def State.initStage4 (s : State) (f : StageFacts) : State :=
  let s := f.bays.foldl (fun (u : State) e => u.initBay e.1.val e.2.val) s
  let s := (f.couplers.map Fin.val).foldl (fun (u : State) d =>
    if u.flag .couplerState 0 d then u
    else (u.change .couplerState 0 (withBit (u.reg .couplerState) d)).logError {
      code := 0x18, severity := 1, outcome := 2, unitKind := 8, unit := d }) s
  let s := f.cores.foldl (fun (u : State) c => u.initCore c.val) s
  let s := s.placeBays.placeHarts.countModels
  if s.reg .couplerState = 255 then s.enterFaulted else (s.setReg .stageStarted 0 4).setReg .initStage 0 5

/-! Stages 5 and 6. -/

/-- A link keeps stage 5 waiting no longer: it is UP, MISWIRED, or has been ABSENT for 1 s (R359); so is one that a warm reset
has kept LOST, or DISABLED. [Log DESIGN CHOICE 32] -/
def State.linkSettled (s : State) (l : Nat) : Bool :=
  let st := s.reg .linkState l
  st = linkUp || st = linkMiswired || st = linkLost || st = linkDisabled || (st = linkAbsent && s.flag .linkQuiet 0 l)

/-- Stage 5 (R30, R359): without `LOCATION` it waits. [Log DESIGN CHOICE 26, 32] -/
def State.initStage5 (s : State) : State :=
  if !((List.range 24).all fun l => s.linkSettled l) then s
  else if !s.flag .location 0 31 then s.setReg .stage5Waits 0 1
  else (s.setReg .stageStarted 0 5).setReg .initStage 0 6

/-- Stage 6: the Squall baselines, the freeze trigger, and the end of INIT (R22, R23, R496, R654).
[Log DESIGN CHOICE 26, 33, 34] -/
def State.initStage6 (s : State) (f : StageFacts) : State :=
  let rate := fun (n : Nat) => 2 * n / max 1 f.seconds
  let s := (s.setReg .squallScore16 0 0).setReg .squallAt 0 s.now
  let s := f.stackCorrected.foldl (fun (u : State) e => u.setReg .squallAllowStack e.1.val (rate e.2)) s
  let s := f.linkCorrected.foldl (fun (u : State) e => u.setReg .squallAllowLink e.1.val (rate e.2)) s
  let s := (s.setReg .freezeState 0 1).setReg .stageStarted 0 6
  ((s.setReg .initStage 0 0).setReg .initEnded 0 1).enter (if s.reg .degradeCause = 0 then stReady else stDegraded)

/-- INIT_STAGE_COMPLETE: the stage in progress ends, and the next begins (R22, R23). [Log DESIGN CHOICE 26] -/
def execInitStageComplete (facts : StageFacts) (s : State) : Res :=
  if !s.isIn stInit || s.reg .inReset = 1 then .next s
  else
    match s.reg .initStage with
    | 1 => .next (s.initStage1 facts)
    | 2 => .next (s.initStage2 facts)
    | 3 => .next (s.initStage3 facts)
    | 4 => .next (s.initStage4 facts)
    | 5 => .next s.initStage5
    | 6 => .next (s.initStage6 facts)
    | _ => .next s

end Sys2Proof.Machine
end

