-- ==== Sys2Proof/Machine/Objects.lean ====
section
/-! DEFINITION. Reads of objects and what a write of each object does; BLOB assemblies; the audit log's own commands (R568 to
R582, R587 to R601, R610, R611). -/

namespace Sys2Proof.Machine

/-! Reads. -/

/-- The 64 B of an error record (R478). -/
def ErrorRecord.bytes (e : ErrorRecord) : List Byte :=
  leBytes 8 e.seq ++ leBytes 8 e.time ++ leBytes 1 e.code ++ leBytes 1 e.severity ++ leBytes 1 e.outcome ++
    leBytes 1 e.unitKind ++ leBytes 4 e.unit ++ leBytes 8 e.addr ++ leBytes 4 e.detail ++ leBytes 3 e.lnode ++
    leBytes 1 0 ++ leBytes 2 e.step ++ leBytes 2 e.lbay ++ leBytes 4 e.pause ++ leBytes 8 e.tstep ++ leBytes 4 e.score ++
    leBytes 4 0

/-- `SUBSCRIPTIONS`: kind (1 SAMPLE, 2 AUDIT), HOLD, source, and the last `SEQ` sent (R610). [Log DESIGN CHOICE 40] -/
def State.subscriptionBytes (s : State) : List Byte :=
  (List.range 4).flatMap fun n =>
    match s.subs.find? fun u => u.number = n with
    | none => leBytes 16 0
    | some u =>
      leBytes 1 (if u.audit then 2 else 1) ++ leBytes 1 (ofBool u.hold) ++ leBytes 6 u.who.source ++
        leBytes 8 (if u.audit then u.next - 1 else 0)

/-- A record of a ring of 64 B records that lies at a slot; zeros where there is none. -/
def slotRecord (n slot : Nat) (rs : List (Nat × List Byte)) : List Byte :=
  ((rs.find? fun e => e.1 % n = slot).map Prod.snd).getD (leBytes 64 0)

/-- Bytes of a ring of 64 B records, from an offset. [Log DESIGN CHOICE 46] -/
def ringBytes (n off len : Nat) (rs : List (Nat × List Byte)) : List Byte :=
  let first := off / 64
  let slots := (off + len + 63) / 64 - first
  (((List.range slots).flatMap fun k => slotRecord n (first + k) rs).drop (off % 64)).take len

/-- The value of an object that is no ring: what its rule computes, or what its register holds. A write-only object reads as
zeros (R572). [Log DESIGN CHOICE 46] -/
def State.valueOf (s : State) (r : Reg) (inst : Nat) : List Byte :=
  match r with
  | .partNumber => partNumberBytes.map (BitVec.ofNat 8)
  | .serial => Config.serial.take 255
  | .detSignature => leBytes 8 s.detSignature
  | .taiState => leBytes 1 s.taiCode
  | .taiNs => leBytes 8 s.tai
  | .squallScore => leBytes 4 s.squallScore
  | .auditedState => auditedBytes
  | .subscriptions => s.subscriptionBytes
  | .draughtFront => leBytes 4 (s.copyFront inst)
  | .migrationLeft => leBytes 8 s.migrationBytes
  | .taiSet => leBytes 8 0
  | _ => s.regBytes r inst

/-- Bytes of an object from an offset. An object whose subsystem has not started reads its default (R571). -/
def State.objectBytes (s : State) (r : Reg) (inst off len : Nat) : List Byte :=
  let s := if s.started r || !s.supervisorServes then s else { s with regs := [], errorLog := [] }
  match r with
  | .errorLog => ringBytes 4096 off len (s.errorLog.map fun e => (e.seq, e.bytes))
  | .auditLog => ringBytes 8192 off len (s.audit.map fun e => (e.seq, e.bytes))
  | .auditMirror => ringBytes 1048576 off len (s.mirror.map fun e => (e.seq, e.bytes))
  | _ => ((s.valueOf r inst).drop off).take len

/-- The address lies in an index that the always-on island serves (R582). [Log DESIGN CHOICE 62] -/
def servedAlways (addr : Nat) : Bool :=
  match Reg.atAddr addr with
  | some (r, _) => r.alwaysOn
  | none => addr % 256 = 0 && (addr / 256 = 0x1000 || addr / 256 = 0x1800)

/-- A read of `len` bytes of an object from an offset: result code, bytes, and the state after (R568, R569, R571, R578, R579,
R582, R628). An object that is no BLOB is read whole. [Log DEDUCED 61] -/
def State.serveRead (s : State) (q : Requester) (addr off len : Nat) : Nat × List Byte × State :=
  if !s.supervisorServes && !(q.session.isNone && (q.port = .jtag || q.port = .management) && servedAlways addr) then
    (resState, [], s)
  else if s.unknownSession q then (resAuth, [], s.countRefused)
  else
    match Reg.atAddr addr with
    | some (r, inst) =>
      if s.gated r then (resGated, [], s.noteGated resGated)
      else
        let fits := if blobs.contains r then decide (1 ≤ len ∧ off + len ≤ r.size) else decide (off = 0 ∧ len = r.size)
        if fits then (resOk, s.objectBytes r inst off len, s) else (resLength, [], s.countRefused)
    | none =>
      if addr % 256 = 0 then
        match topSubindex (addr / 256) with
        | some k => if off = 0 && len = 1 then (resOk, leBytes 1 k, s) else (resLength, [], s.countRefused)
        | none => (resNoObject, [], s.countRefused)
      else
        match setLength addr with
        | some n =>
          if 1 ≤ len && off + len ≤ n then
            let bs := if 6 ≤ s.reg .stageStarted then s.setBytesAt addr n else leBytes n 0
            (resOk, (bs.drop off).take len, s)
          else (resLength, [], s.countRefused)
        | none => (resNoObject, [], s.countRefused)

/-- Length of the value at an address, for a read of it whole; 0 where nothing is. -/
def objectLength (addr : Nat) : Nat :=
  match Reg.atAddr addr with
  | some (r, _) => r.size
  | none => if addr % 256 = 0 then 1 else (setLength addr).getD 0

/-! What a write does. -/

/-- The clocks follow the caps of R637, or the rates of fixed-timing mode: those above their maximum come down to it, and in
fixed-timing mode every one takes its rate (R458, R637, R652). [Log DEDUCED 59] -/
def State.clampClocks (s : State) : State :=
  (List.range 10).foldl (fun (u : State) k =>
    if u.fixedTimingOn then u.setRate k (u.maxMhz k) else u.setRate k (min (u.reg .pllMhz k) (u.maxMhz k))) s

/-- A holder's acknowledgement by the host (R598). -/
def ackHost (s : State) : State :=
  (s.setReg .hostHoldAcked 0 (max (s.reg .hostHoldAcked) (s.reg .auditAckHost))).refreshAcked

/-- The host becomes a holder from the present head, or is one no longer (R598, R611). -/
def holdHost (s : State) : State :=
  (if s.reg .auditHostHold = 1 then s.setReg .hostHoldAcked 0 (s.reg .auditHead) else s).refreshAcked

/-- What the write of an object does beside taking the value. `old` is the state before the write, `bs` the bytes written. -/
def objectEffect (old : State) (r : Reg) (inst : Nat) (bs : List Byte) (s : State) : State :=
  let v := s.reg r inst
  match r with
  | .stateRequest => if v = 4 then s.resume else s
  | .serviceRequest => serviceEffect v s
  | .location => locationEffect s
  | .clkSel => startSwitch inst v s
  | .periphEn => periphEffect s
  | .cclkMax | .pclkMax | .fixedTiming => s.clampClocks
  | .coolFlowBoard => s.setReg .coolFlowAt 0 (s.now + 1)
  | .rosterLlm => s.fitRoster
  | .coreReserve => s.placeHarts
  | .allocTop | .mapoutForce => s.noteBlocked
  | .linkCmd => linkCommand inst v s
  | .jobEpoch => s.installEpoch
  | .errorAck => if s.reg .lastAlertSeq ≤ v then s.setReg .alertCause 0 (withoutBit (s.reg .alertCause) 0) else s
  | .alertCause =>
    let old := old.reg .alertCause
    s.setReg .alertCause 0
      ([1, 2, 3, 4, 5, 6].foldl (fun a b => if v.testBit b && s.causeEnded b then withoutBit a b else a) old)
  | .recoveryCmd => s.recover (leAt bs 0 1) (leAt bs 1 1) (leAt bs 2 2) (leAt bs 8 8)
  | .sqEnable => enableQueue inst s
  | .mgmtIpv4 | .mgmtNetmask | .mgmtGateway => mgmtEffect s
  | .ptpEnable | .ptpDomain | .ppsMode => s.restartPtp
  | .taiSet => taiSetEffect s
  | .auditHostHold => holdHost s
  | .auditAckHost => ackHost s
  | .freezeCmd => freezeCommand v s
  | .latClear => clearLatencies s
  | _ => s

/-- The refusal of an object's own rule that needs more than the registers; `peers` is the epoch of the image that peers can
give back for a recovery command (R512). [Log DESIGN CHOICE 13] -/
def State.ownRule (s : State) (r : Reg) (bs : List Byte) (peers : Option Half) : Nat :=
  if r = .recoveryCmd then
    s.recoveryRefusal (leAt bs 0 1) (leAt bs 1 1) (leAt bs 2 2) (leAt bs 8 8) (peers.map BitVec.toNat)
  else resOk

/-- A write of a whole object at any address (R579). -/
def State.writeAny (s : State) (q : Requester) (addr : Nat) (bs : List Byte) (peers : Option Half) : Nat × State :=
  s.serveWrite q addr bs (fun r i t => objectEffect s r i bs t) fun r => s.ownRule r bs peers

/-! BLOB assemblies (R539, R581). -/

/-- Two requests belong to one port and session (R581). [Log DESIGN CHOICE 38] -/
def sameSession (a b : Requester) : Bool := a.port = b.port && a.session = b.session

/-- The assemblies of a port and session end. -/
def State.dropAssemblies (s : State) (q : Requester) : State :=
  { s with assemblies := s.assemblies.filter fun (a : Assembly) => !sameSession a.who q }

/-- A write of a value or of a piece of a BLOB. A piece that does not end at the object's length is held; the one that does
applies the assembly as one write (R579, R581). [Log DESIGN CHOICE 37] -/
def State.writePiece (s : State) (q : Requester) (addr off : Nat) (bs : List Byte) (peers : Option Half) : Nat × State :=
  let held := s.assemblies.find? fun a => sameSession a.who q && a.obj = addr
  if !s.supervisorServes || s.unknownSession q then s.writeAny q addr bs peers
  else
    match Reg.atAddr addr with
    | none => if off = 0 then s.writeAny q addr bs peers else (resLength, s.countRefused)
    | some (r, inst) =>
      let s := s.dropAssemblies q
      if !blobs.contains r then
        if off = 0 then s.writeAny q addr bs peers else (resLength, s.countRefused)
      else if bs.isEmpty || r.size < off + bs.length then (resLength, s.countRefused)
      else
        let ps := ((held.map Assembly.pieces).getD []) ++ [(off, bs)]
        if off + bs.length < r.size then
          (resOk, { s with assemblies := s.assemblies ++ [(⟨q, addr, ps⟩ : Assembly)] })
        else s.writeAny q addr (ps.foldl (fun v p => overlay v p.1 p.2) (s.regBytes r inst)) peers

/-- OBJECT_WRITE: a write of an object, or of a piece of a BLOB, over a port (R573, R576, R579, R581).
[Log DESIGN CHOICE 36] -/
def execObjectWrite (q : Requester) (obj : ObjAddr) (offset : Word) (data : List Byte) (peers : Option Half) (s : State) :
    Res :=
  if !s.portAnswers q.port then .next s
  else
    let (code, s) := s.writePiece q obj.toNat offset.toNat data peers
    .next (s.answer q obj.toNat code)

/-- BLOB_ASSEMBLY_TIMEOUT: no piece has come for 1 s (R581). -/
def execBlobAssemblyTimeout (q : Requester) (s : State) : Res := .next (s.dropAssemblies q)

/-- DICT_ANSWER_LATE: an accepted request has had no answer for 2 ms (R580). -/
def execDictAnswerLate (s : State) : Res :=
  if !s.supervisorServes then .next s
  else
    .next ((s.addReg .dictLate 0 1).logError {
      code := 0x0C, severity := 5, unitKind := 0x0E, unit := s.reg .supActive })

/-! The audit log (R597, R598, R611). -/

/-- The stacks are trained and their rails in range (R597). -/
def State.stacksTrained (s : State) : Bool :=
  decide (3 ≤ s.reg .stageStarted) && s.reg .stackRailsIn = 1 && s.reg .inReset = 0

/-- AUDIT_MIRROR_COPY: the oldest entry that the mirror lacks is copied to it (R597). -/
def execAuditMirrorCopy (s : State) : Res :=
  match s.audit.reverse.find? fun e => s.reg .auditMirrorHead < e.seq with
  | none => .next s
  | some e =>
    if !s.stacksTrained then .next s
    else .next ({ s with mirror := (e :: s.mirror).take 1048576 }.setReg .auditMirrorHead 0 e.seq).refreshAcked

/-- AUDIT_ACK_HOST_WRITE (R598). -/
def execAuditAckHostWrite (q : Requester) (v : Dword) (s : State) : Res :=
  .next (s.writeRequest q (Reg.auditAckHost.objAt 0) (leBytes 8 v.toNat) fun _ _ => ackHost)

/-- AUDIT_HOST_HOLD_WRITE (R598, R611). -/
def execAuditHostHoldWrite (q : Requester) (v : Byte) (s : State) : Res :=
  .next (s.writeRequest q (Reg.auditHostHold.objAt 0) [v] fun _ _ => holdHost)

end Sys2Proof.Machine
end

