-- ==== Sys2Proof/Machine/Sessions.lean ====
section
/-! DEFINITION. The SPDM responder and its sessions (R560 to R562, R574, R581, R587, R602). -/

namespace Sys2Proof.Machine

/-- A session ends: with it go its level, its BLOB assemblies, its subscriptions and its kept answers (R562, R574, R581,
R602). -/
def State.endSession (s : State) (p : Port) (id : Nat) : State :=
  let mine := fun (q : Requester) => decide (q.port = p) && (decide (q.session = some id) || decide (p = .host))
  { s with
    sessions := s.sessions.filter fun (x : Session) => !(x.port = p && x.id = id)
    assemblies := s.assemblies.filter fun (a : Assembly) => !mine a.who
    subs := s.subs.filter fun (u : Subscription) => !mine u.who
    answers := s.answers.filter fun (a : Answer) => !mine a.who }.refreshAcked

/-- The session of an identifier on a port. -/
def State.sessionOf (s : State) (p : Port) (id : Nat) : Option Session := s.sessions.find? fun x => x.port = p && x.id = id

/-- The finished session that a request names. -/
def State.namedSession (s : State) (q : Requester) : Option Session :=
  (q.session.bind fun n => s.sessionOf q.port n).bind fun x => if x.finished then some x else none

/-- The measurement of an index (R561). [Log PRESUMED 47] -/
def State.measurement (s : State) (i : Nat) : Option (List Byte) :=
  match i with
  | 1 => some (leBytes 48 (Config.imageDigest (if s.reg .fwImage = 0 then 0 else 1)).toNat)
  | 2 => some (leBytes 4 (s.reg .numericFw) ++ leBytes 4 (s.reg .transcId))
  | 3 =>
    let sealed := [Reg.partNumber, .serial, .stepping, .familyMember, .pciIds, .deviceCertDigest, .mgmtMac, .serviceRoot]
    some (leBytes 48 (Config.sha384 (sealed.flatMap fun r => s.valueOf r 0)).toNat)
  | 4 => some (leBytes 1 (s.reg .fwImage))
  | 5 => some (leBytes 48 (Config.sha384 (s.regBytes .hostPrincipals 0)).toNat)
  | _ => none

/-- A signature of the package over an answer. -/
def State.sign (s : State) : Nat × State :=
  let (k, s) := s.draw
  ((Config.spdmSignature k).toNat, s)

/-- The answer to an SPDM request, and what it does (R560 to R562). Measurement 0xFF asks for every one.
[Log PRESUMED 47; DESIGN CHOICE 48] -/
def State.spdm (s : State) (q : Requester) (m : SpdmRequest) : SpdmAnswer × State :=
  match m with
  | .getVersion => (.version 1 3, s)
  | .getCapabilities => (.capabilities, s)
  | .negotiateAlgorithms => (.algorithms, s)
  | .getDigests => (.digests Config.certChainDigest.toNat, s)
  | .getCertificate slot off len =>
    if slot.toNat = 0 then (.certificate ((Config.certChain.drop off.toNat).take len.toNat), s) else (.error, s)
  | .challenge =>
    let (k, s) := s.sign
    (.challengeAuth k, s)
  | .getMeasurements i =>
    let is := if i.toNat = 0xFF then [1, 2, 3, 4, 5] else [i.toNat]
    let ms := is.filterMap fun k => (s.measurement k).map fun b => (k, b)
    if ms.isEmpty then (.error, s)
    else
      let (k, s) := s.sign
      (.measurements ms k, s)
  | .keyExchange id =>
    if (s.sessionOf q.port id.toNat).isSome then (.error, s)
    else
      let (k, s) := s.sign
      (.keyExchangeRsp id.toNat k,
        { s with sessions := (⟨q.port, id.toNat, 0, 0, false, 0⟩ : Session) :: s.sessions })
  | .finish id leaf root verified =>
    match s.sessionOf q.port id.toNat with
    | none => (.error, s)
    | some x =>
      if x.finished then (.error, s)
      else if !verified then (.error, s.endSession q.port id.toNat)
      else
        let x := { x with leaf := leaf.toNat, root := root.toNat, finished := true }
        (.finishRsp,
          { s with sessions := x :: s.sessions.filter fun (y : Session) => !(y.port = q.port && y.id = id.toNat) })
  | .heartbeat => if (s.namedSession q).isSome then (.heartbeatAck, s) else (.error, s)
  | .keyUpdate =>
    match s.namedSession q with
    | none => (.error, s)
    | some x =>
      (.keyUpdateAck, { s with sessions := s.sessions.map fun (y : Session) =>
        if y.port = x.port && y.id = x.id then { y with keyGeneration := y.keyGeneration + 1 } else y })
  | .endSession =>
    match s.namedSession q with
    | none => (.error, s)
    | some x => (.endSessionAck, s.endSession x.port x.id)

/-- An SPDM request that comes over PCIe Data Object Exchange or MCTP (R560, R573): the supervisor's firmware answers it. -/
def State.serveSpdm (s : State) (q : Requester) (m : SpdmRequest) : State :=
  if !s.portAnswers q.port || !s.supervisorServes then s
  else
    let (a, s) := s.spdm q m
    s.send (.spdm q a)

/-- GET_VERSION (R560). -/
def execGetVersion (q : Requester) (s : State) : Res := .next (s.serveSpdm q .getVersion)

/-- GET_CAPABILITIES (R560). -/
def execGetCapabilities (q : Requester) (s : State) : Res := .next (s.serveSpdm q .getCapabilities)

/-- NEGOTIATE_ALGORITHMS (R560). -/
def execNegotiateAlgorithms (q : Requester) (s : State) : Res := .next (s.serveSpdm q .negotiateAlgorithms)

/-- GET_DIGESTS (R560). -/
def execGetDigests (q : Requester) (s : State) : Res := .next (s.serveSpdm q .getDigests)

/-- GET_CERTIFICATE (R561). -/
def execGetCertificate (q : Requester) (slot : Byte) (offset len : Half) (s : State) : Res :=
  .next (s.serveSpdm q (.getCertificate slot offset len))

/-- CHALLENGE (R560). -/
def execChallenge (q : Requester) (s : State) : Res := .next (s.serveSpdm q .challenge)

/-- GET_MEASUREMENTS (R561). -/
def execGetMeasurements (q : Requester) (index : Byte) (s : State) : Res := .next (s.serveSpdm q (.getMeasurements index))

/-- KEY_EXCHANGE (R560). -/
def execKeyExchange (q : Requester) (id : Word) (s : State) : Res := .next (s.serveSpdm q (.keyExchange id))

/-- FINISH: the session is complete, and the port acts at the level of its principal (R562, R574). -/
def execFinish (q : Requester) (id : Word) (leaf root : BitVec 384) (verified : Bool) (s : State) : Res :=
  .next (s.serveSpdm q (.finish id leaf root verified))

/-- HEARTBEAT (R560). -/
def execHeartbeat (q : Requester) (s : State) : Res := .next (s.serveSpdm q .heartbeat)

/-- KEY_UPDATE (R560). -/
def execKeyUpdate (q : Requester) (s : State) : Res := .next (s.serveSpdm q .keyUpdate)

/-- END_SESSION (R562). -/
def execEndSession (q : Requester) (s : State) : Res := .next (s.serveSpdm q .endSession)

/-- HEARTBEAT_MISSED: the session ends (R562). -/
def execHeartbeatMissed (port : Port) (id : Word) (s : State) : Res :=
  if (s.sessionOf port id.toNat).isSome then .next (s.endSession port id.toNat) else .next s

end Sys2Proof.Machine
end

