-- ==== Sys2Proof/Machine/Ports.lean ====
section
/-! DEFINITION. The dictionary window of the host port, Jenius (JP1 and JP2), JTAG's JDICT, and subscriptions (R538, R539, R577,
R583 to R590, R598, R601, R602). -/

namespace Sys2Proof.Machine

/-! The window (R538, R539). -/

/-- The fields of the window as a request leaves them; the reserved bits of `WIN_ADDR` are ignored (R14, R538). -/
def State.setWindow (s : State) (cmd : Nat) (addr : Nat) (offset len seq : Nat) : State :=
  let s := (((s.setReg .winCmd 0 cmd).setReg .winAddr 0 (addr % 2 ^ 24)).setReg .winOffset 0 offset).setReg .winLen 0 len
  s.setReg .winSeq 0 seq

/-- A request of the window is done (R538). -/
def State.windowDone (s : State) (code : Nat) : State := (s.setReg .winError 0 code).setReg .winStatus 0 2

/-- WIN_CMD_READ (R538, R539). [Log DESIGN CHOICE 36] -/
def execWinCmdRead (addr offset len : Word) (seq : Dword) (s : State) : Res :=
  if !s.portAnswers .host then .next s
  else
    let s := s.setWindow 1 addr.toNat offset.toNat len.toNat seq.toNat
    let n := len.toNat
    if n = 0 || 3840 < n then .next (s.countRefused.windowDone resLength)
    else
      let (code, bs, s) := s.serveRead hostRequester (addr.toNat % 2 ^ 24) offset.toNat n
      .next ((s.setRegs .winData 0 (bs.map BitVec.toNat)).windowDone code)

/-- WIN_CMD_WRITE (R538, R539). [Log DESIGN CHOICE 36] -/
def execWinCmdWrite (addr offset : Word) (seq : Dword) (data : List Byte) (peers : Option Half) (s : State) : Res :=
  if !s.portAnswers .host || 3840 < data.length then .next s
  else
    let s := s.setWindow 2 addr.toNat offset.toNat data.length seq.toNat
    let s := s.setRegs .winData 0 (data.map BitVec.toNat)
    if data.isEmpty then .next (s.countRefused.windowDone resLength)
    else
      let (code, s) := s.writePiece hostRequester (addr.toNat % 2 ^ 24) offset.toNat data peers
      .next (s.windowDone code)

/-! Answers of JP2 (R585 to R587). -/

/-- Two requests come from one session, or outside a session from one source (R587). -/
def sameSource (a b : Requester) : Bool := sameSession a b && (a.session.isSome || decide (a.source = b.source))

/-- An answer goes out, and is kept among the last 64 of its session or source (R587). -/
def State.reply (s : State) (q : Requester) (rseq : Nat) (o : Output) : State :=
  let mine := s.answers.filter fun a => sameSource a.who q
  let drop := if 64 ≤ mine.length then mine.getLast? else none
  let kept := match drop with
    | some a => s.answers.erase a
    | none => s.answers
  { s with answers := (⟨q, rseq, o⟩ : Answer) :: kept }.send o

/-! Subscriptions (R590, R598, R601, R602). -/

/-- The lowest subscription number that is free; none while four are open (R590). [Log DESIGN CHOICE 40] -/
def State.freeSub (s : State) : Option Nat := firstIndex 4 fun n => s.subs.all fun u => u.number ≠ n

/-- A subscription of a number, if the requester has opened it. -/
def State.subOf (s : State) (q : Requester) (n : Nat) : Option Subscription :=
  s.subs.find? fun u => u.number = n && sameSource u.who q

/-- An object can be sampled: it is at most 16 B, and a read of it is served (R590). -/
def State.samples (s : State) (q : Requester) (a : Nat) : Bool :=
  let n := objectLength a
  decide (n ≤ 16) && (s.serveRead q a 0 n).1 = resOk

/-- SUB_OPEN of kind SAMPLE: result code, payload of the answer, and the state (R590).
[Log DESIGN CHOICE 41; PRESUMED 42] -/
def State.openSample (s : State) (q : Requester) (objects : List Nat) (periodUs : Nat) : Nat × List Byte × State :=
  if objects.isEmpty || 64 < objects.length || periodUs < 1000 || 60000000 < periodUs then (resRange, [], s)
  else
    match s.freeSub with
    | none => (resBusy, [], s)
    | some n =>
      let good := objects.filter fun a => s.samples q a
      let bad := objects.filter fun a => !s.samples q a
      (resOk, leBytes 1 n ++ bad.flatMap (leBytes 3),
        { s with subs := s.subs ++ [(⟨n, q, false, false, good, periodUs, 0, 0⟩ : Subscription)] })

/-- SUB_OPEN of kind AUDIT (R602). -/
def State.openAudit (s : State) (q : Requester) (start : Nat) (hold : Bool) : Nat × List Byte × State :=
  match s.freeSub with
  | none => (resBusy, [], s)
  | some n =>
    let u : Subscription := ⟨n, q, true, hold, [], 0, max 1 start, min (start - 1) (s.reg .auditHead)⟩
    (resOk, leBytes 1 n, { s with subs := s.subs ++ [u] })

/-- SUB_ACK: the entries up to a `SEQ` are held by the requester's holding subscriptions (R598).
[Log DESIGN CHOICE 41, 43] -/
def State.ackSubs (s : State) (q : Requester) (seq : Nat) : Nat × List Byte × State :=
  match s.subs.find? fun u => u.audit && u.hold && sameSource u.who q with
  | none => (resRange, [], s)
  | some u =>
    let upTo := min seq (s.reg .auditHead)
    (resOk, leBytes 1 u.number,
      { s with subs := s.subs.map fun (x : Subscription) =>
          if x.audit && x.hold && sameSource x.who q then { x with acked := max x.acked upTo } else x }.refreshAcked)

/-- SUB_CLOSE (R602). [Log DESIGN CHOICE 41] -/
def State.closeSub (s : State) (q : Requester) (n : Nat) : Nat × List Byte × State :=
  match s.subOf q n with
  | none => (resRange, [], s)
  | some u => (resOk, leBytes 1 n, { s with subs := s.subs.filter fun (x : Subscription) => x.number ≠ u.number }.refreshAcked)

/-! Messages. -/

/-- The answer to a JP2 request: type, error, payload, and the state (R585); SPDM messages are answered apart. -/
def State.jp2Body (s : State) (q : Requester) (obj off : Nat) (b : Jp2Body) (peers : Option Half) :
    Nat × Nat × List Byte × State :=
  match b with
  | .read len =>
    if 1400 < len.toNat then (0x02, resLength, [], s.countRefused)
    else
      let (code, bs, s) := s.serveRead q obj off len.toNat
      (0x02, code, bs, s)
  | .write data =>
    if 1400 < data.length then (0x04, resLength, [], s.countRefused)
    else
      let (code, s) := s.writePiece q obj off data peers
      (0x04, code, [], s)
  | .subOpenSample objects period =>
    let (code, bs, s) := s.openSample q (objects.map BitVec.toNat) period
    (0x25, code, bs, s)
  | .subOpenAudit start hold =>
    let (code, bs, s) := s.openAudit q start.toNat hold
    (0x25, code, bs, s)
  | .subAck seq =>
    let (code, bs, s) := s.ackSubs q seq.toNat
    (0x25, code, bs, s)
  | .subClose n =>
    let (code, bs, s) := s.closeSub q n.toNat
    (0x25, code, bs, s)
  | .spdm _ => (0x10, resUnsupported, [], s)
  | .other t => (t.toNat, resUnsupported, [], s.countRefused)

/-- The supervisor is needed for a message: for everything but a read (R582). -/
def needsSupervisor : Jp2Body → Bool
  | .read _ => false
  | _ => true

/-- A JP2 request that has passed its checks is served, once (R585, R587). [Log DESIGN CHOICE 36] -/
def State.serveJp2 (s : State) (q : Requester) (rseq obj off : Nat) (b : Jp2Body) (peers : Option Half) : State :=
  match s.answers.find? fun a => sameSource a.who q && a.rseq = rseq with
  | some a => s.send a.answer
  | none =>
    if needsSupervisor b && !s.supervisorServes then s.reply q rseq (.jp2 q 0 rseq obj resState off [])
    else
      match b with
      | .spdm m =>
        let (a, s) := s.spdm q m
        s.reply q rseq (.spdm q a)
      | _ =>
        let (type, code, bs, s) := s.jp2Body q obj off b peers
        (s.reply q rseq (.jp2 q type rseq obj code off bs)).pumpAudit

/-- A request fails with AUTH, and is counted (R586, R593). [Log DESIGN CHOICE 39] -/
def State.refuseAuth (s : State) (q : Requester) (rseq obj off : Nat) : State :=
  s.countRefused.send (.jp2 q 0 rseq obj resAuth off [])

/-- A message that is not secured: one that names a session is not served (R586). [Log DESIGN CHOICE 50, 51] -/
def State.plainJp2 (s : State) (q : Requester) (rseq obj off : Nat) (b : Jp2Body) (peers : Option Half) : State :=
  if !s.portAnswers q.port then s
  else if q.session.isSome then s.refuseAuth q rseq obj off
  else s.serveJp2 q rseq obj off b peers

/-- FINISH, which may come in a session that it completes. -/
def completesSession : Jp2Body → Bool
  | .spdm (.finish ..) => true
  | _ => false

/-- A secured message: it is served if it passes its check in a session of the port (R585, R586).
[Log DESIGN CHOICE 49] -/
def State.securedJp2 (s : State) (q : Requester) (ok : Bool) (rseq obj off : Nat) (b : Jp2Body) (peers : Option Half) :
    State :=
  if !s.portAnswers q.port then s
  else
    match q.session.bind fun n => s.sessionOf q.port n with
    | none => s.refuseAuth q rseq obj off
    | some x =>
      if !ok || !(x.finished || completesSession b) then s.refuseAuth q rseq obj off else s.serveJp2 q rseq obj off b peers

/-- JP2_READ (R585). -/
def execJp2Read (q : Requester) (rseq : Dword) (obj : ObjAddr) (offset len : Word) (s : State) : Res :=
  .next (s.plainJp2 q rseq.toNat obj.toNat offset.toNat (.read len) none)

/-- JP2_WRITE (R585). -/
def execJp2Write (q : Requester) (rseq : Dword) (obj : ObjAddr) (offset : Word) (data : List Byte) (peers : Option Half)
    (s : State) : Res :=
  .next (s.plainJp2 q rseq.toNat obj.toNat offset.toNat (.write data) peers)

/-- JP2_SPDM (R585). -/
def execJp2Spdm (q : Requester) (rseq : Dword) (m : SpdmRequest) (s : State) : Res :=
  .next (s.plainJp2 q rseq.toNat 0 0 (.spdm m) none)

/-- JP2_SECURED (R585, R586). -/
def execJp2Secured (q : Requester) (ok : Bool) (rseq : Dword) (obj : ObjAddr) (offset : Word) (body : Jp2Body)
    (peers : Option Half) (s : State) : Res :=
  .next (s.securedJp2 q ok rseq.toNat obj.toNat offset.toNat body peers)

/-- JDICT: a JP2 message over the TAP; one with a bad magic or version is dropped (R577, R584). -/
def execJdict (m : Jp2Message) (peers : Option Half) (s : State) : Res :=
  let named : Option Nat := if m.session.toNat = 0 then none else some m.session.toNat
  let q : Requester := ⟨.jtag, named, 0⟩
  if m.magic.toNat ≠ 0x324A || m.version.toNat ≠ 2 then .next s
  else
    match m.secured with
    | none => .next (s.plainJp2 q m.rseq.toNat m.obj.toNat m.offset.toNat m.body peers)
    | some ok => .next (s.securedJp2 q ok m.rseq.toNat m.obj.toNat m.offset.toNat m.body peers)

/-- SUB_OPEN_SAMPLE (R590). [Log PRESUMED 42] -/
def execSubOpenSample (q : Requester) (rseq : Dword) (objects : List ObjAddr) (periodUs : Nat) (s : State) : Res :=
  .next (s.plainJp2 q rseq.toNat 0 0 (.subOpenSample objects periodUs) none)

/-- SUB_OPEN_AUDIT (R602). -/
def execSubOpenAudit (q : Requester) (rseq start : Dword) (hold : Bool) (s : State) : Res :=
  .next (s.plainJp2 q rseq.toNat 0 0 (.subOpenAudit start hold) none)

/-- SUB_ACK (R598). -/
def execSubAck (q : Requester) (rseq seq : Dword) (s : State) : Res :=
  .next (s.plainJp2 q rseq.toNat 0 0 (.subAck seq) none)

/-- SUB_CLOSE (R602). -/
def execSubClose (q : Requester) (rseq : Dword) (number : Byte) (s : State) : Res :=
  .next (s.plainJp2 q rseq.toNat 0 0 (.subClose number) none)

/-- SAMPLE_PERIOD: the values of a subscription's objects are sent; one that is not served now is left out (R585, R590). -/
def execSamplePeriod (n : Fin 4) (s : State) : Res :=
  match s.subs.find? fun u => u.number = n.val && !u.audit with
  | none => .next s
  | some u =>
    if !s.supervisorServes then .next s
    else
      let part := fun (a : Nat) =>
        let len := objectLength a
        let (code, bs, _) := s.serveRead u.who a 0 len
        if code = resOk then leBytes 3 a ++ leBytes 1 len ++ bs else []
      .next (s.send (.jp2 u.who 0x24 0 0 0 0 (leBytes 8 s.tai ++ u.objects.flatMap part)))

/-- AUDIT_RESEND_TIMEOUT: 100 ms without a SUB_ACK; a holding subscriber is sent again what it has not acknowledged (R602). -/
def execAuditResendTimeout (n : Fin 4) (s : State) : Res :=
  match s.subs.find? fun u => u.number = n.val && u.audit && u.hold with
  | none => .next s
  | some u =>
    if s.supervisorServes && decide (u.acked + 1 < u.next) then .next (s.sendEvents u.who (u.acked + 1)) else .next s

/-- AUDIT_HOLD_TIMEOUT: a holding subscription that has acknowledged nothing, while entries awaited it, is closed (R601).
[Log DESIGN CHOICE 45] -/
def execAuditHoldTimeout (n : Fin 4) (s : State) : Res :=
  match s.subs.find? fun u => u.number = n.val && u.audit && u.hold with
  | none => .next s
  | some u =>
    if s.reg .auditHead ≤ u.acked then .next s
    else
      let t := { s with subs := s.subs.filter fun (x : Subscription) => x.number ≠ n.val }
      .next (t.auditInternal (Reg.subscriptions.objAt 0) 0 s.subscriptionBytes t.subscriptionBytes).refreshAcked

/-! JP1 (R588). -/

/-- The answer to a JP1 request: object, error, value, and the state (R588). -/
def State.jp1 (s : State) (q : Requester) (r : Jp1Request) : Nat × Nat × List Byte × State :=
  match r with
  | .read a =>
    if 256 < objectLength a.toNat then (a.toNat, resUnsupported, [], s.countRefused)
    else
      let (code, bs, s) := s.serveRead q a.toNat 0 (objectLength a.toNat)
      (a.toNat, code, bs, s)
  | .write a _ => (a.toNat, resUnsupported, [], s.countRefused)
  | .other _ => (0, resUnsupported, [], s.countRefused)

/-- JP1_REQUEST: served while `JP1_ENABLE` is 1, outside a session (R588). [Log DEDUCED 215] -/
def execJp1Request (source : Nat) (r : Jp1Request) (s : State) : Res :=
  if !s.portAnswers .management || s.reg .jp1Enable = 0 then .next s
  else
    let (obj, code, bs, s) := s.jp1 ⟨.management, none, source⟩ r
    .next (s.send (.jp1 source obj code bs))

end Sys2Proof.Machine
end

