-- ==== Sys2Proof/Machine/Csr.lean ====
section
/-! DEFINITION. The CSRs of a general core that S-mode and U-mode see (R254, R256, R257, R265). Their layouts are those of the
RISC-V privileged specification, which R253 names. -/

namespace Sys2Proof.Machine

/-- The lowest mode that reaches a CSR: 0 U, 1 S, and M above. -/
def csrMode (n : Nat) : Nat := field n 8 2

/-- A CSR is read-only. -/
def csrReadOnly (n : Nat) : Bool := field n 10 2 = 3

/-- `sstatus`. -/
def Hart.sstatus (t : Hart) : Nat :=
  ofBool t.sie * 2 ^ 1 + ofBool t.spie * 2 ^ 5 + ofBool t.spp * 2 ^ 8 + t.fs * 2 ^ 13 + ofBool t.sum * 2 ^ 18 +
    ofBool t.mxr * 2 ^ 19 + 2 * 2 ^ 32 + ofBool (t.fs = 3) * 2 ^ 63

/-- A write of `sstatus`. -/
def Hart.setSstatus (t : Hart) (v : Nat) : Hart :=
  { t with sie := bit v 1, spie := bit v 5, spp := bit v 8, fs := field v 13 2, sum := bit v 18, mxr := bit v 19 }

/-- The mode of a hart reaches a CSR; the counters are open to U-mode as `scounteren` says. [Log PRESUMED 237] -/
def Hart.reachesCsr (t : Hart) (n : Nat) : Bool :=
  decide (csrMode n ≤ if t.user then 0 else 1) &&
    (!(t.user && decide (0xC00 ≤ n ∧ n ≤ 0xC02)) || bit t.scounteren (n - 0xC00))

/-- The PCLK cycles of a hart's core (R256). -/
def State.cycle (s : State) (h : Nat) : Nat := (if s.coreOf h < 96 then s.pclks.1 else s.pclks.2) / 1000 % 2 ^ 64

/-- A CSR as a hart reads it; none where the access is illegal (R254, R256, R257). -/
def State.csrRead (s : State) (h n : Nat) : Option Nat :=
  let t := s.hart h
  let fp (v : Nat) : Option Nat := if t.fs = 0 then none else some v
  if !t.reachesCsr n then none
  else
    match n with
    | 0x001 => fp t.fflags
    | 0x002 => fp 0
    | 0x003 => fp t.fflags
    | 0x100 => some t.sstatus
    | 0x104 => some t.ie
    | 0x105 => some t.stvec
    | 0x106 => some t.scounteren
    | 0x10A => some t.senvcfg
    | 0x140 => some t.sscratch
    | 0x141 => some t.sepc
    | 0x142 => some t.scause
    | 0x143 => some t.stval
    | 0x144 => some t.ip
    | 0x180 => some t.satp
    | 0x5C0 => some t.fidx
    | 0x5C1 => some (s.reg .svxrerr h)
    | 0xC00 => some (s.cycle h)
    | 0xC01 => some (s.now % 2 ^ 64)
    | 0xC02 => some t.instret
    | 0xCC0 => some (if s.jobLoaded then h else 0xFFFFFFFF)
    | 0xCC1 => some s.lnode
    | 0xCC2 => some (s.reg .jobEpoch)
    | 0xCC3 => some t.switches
    | _ => none

/-- A hart writes a CSR; none where the access is illegal. A write of frm is ignored, and `svxrerr` is cleared by zero alone
(R254, R257). [Log PRESUMED 237] -/
def State.csrWrite (s : State) (h n v : Nat) : Option State :=
  let t := s.hart h
  let put (t : Hart) : Option State := some (s.setHart h t)
  if csrReadOnly n || (s.csrRead h n).isNone then none
  else
    match n with
    | 0x001 => put { t with fflags := v % 32, fs := 3 }
    | 0x003 => put { t with fflags := v % 32, fs := 3 }
    | 0x100 => put (t.setSstatus v)
    | 0x104 => put { t with ie := v &&& 0x222 }
    | 0x105 => put { t with stvec := withoutBit (v % 2 ^ 64) 1 }
    | 0x106 => put { t with scounteren := v % 2 ^ 32 }
    | 0x10A => put { t with senvcfg := v % 2 ^ 64 }
    | 0x140 => put { t with sscratch := v % 2 ^ 64 }
    | 0x141 => put { t with sepc := withoutBit (v % 2 ^ 64) 0 }
    | 0x142 => put { t with scause := v % 2 ^ 64 }
    | 0x143 => put { t with stval := v % 2 ^ 64 }
    | 0x144 => put { t with ip := if bit v 1 then withBit t.ip 1 else withoutBit t.ip 1 }
    | 0x180 => put (if field v 60 4 = 0 ∨ field v 60 4 = 9 then { t with satp := v % 2 ^ 64 } else t)
    | 0x5C0 => put { t with fidx := v &&& 0x8000001F }
    | 0x5C1 => some (if v = 0 then s.setReg .svxrerr h 0 else s)
    | _ => some s

/-- SVXRERR_CLEAR: a write of zero to `svxrerr`, an S-mode CSR (R257). -/
def execSvxrerrClear (h : Fin 3072) (s : State) : Res :=
  if !s.issues h.val then .next s
  else
    match s.csrWrite h.val 0x5C1 0 with
    | none => .next (s.illegal h.val 0x5C101073)
    | some t => .next (t.retire h.val 4 id)

end Sys2Proof.Machine
end

