-- ==== Sys2Proof/Machine/Integer.lean ====
section
/-! DEFINITION. The instructions of a general core that no row of the command table names: integer arithmetic, branches, the
CSR instructions, FENCE.I, SFENCE.VMA, SRET and EBREAK (R253). F_OR_D_INSTRUCTION runs their words. The instruction set is
that of the RISC-V specifications, ratified 2019 and 2021, which R253 names. [Log PRESUMED 237] -/

namespace Sys2Proof.Machine

/-- The signed immediates of the formats I, B, U and J. -/
def immI (w : Nat) : Int := signed 12 (field w 20 12)
def immB (w : Nat) : Int :=
  signed 13 (field w 31 1 * 2 ^ 12 + field w 7 1 * 2 ^ 11 + field w 25 6 * 2 ^ 5 + field w 8 4 * 2)
def immU (w : Nat) : Int := signed 32 (field w 12 20 * 2 ^ 12)
def immJ (w : Nat) : Int :=
  signed 21 (field w 31 1 * 2 ^ 20 + field w 12 8 * 2 ^ 12 + field w 20 1 * 2 ^ 11 + field w 21 10 * 2)

/-- An operation of the base integer set on `n` bits, by its function and whether it is the alternative. -/
def aluBase (f : Nat) (alt : Bool) (n a b : Nat) : Int :=
  let k := b % n
  match f with
  | 0 => if alt then (a : Int) - b else a + b
  | 1 => ((a * 2 ^ k : Nat) : Int)
  | 2 => if signed n a < signed n b then 1 else 0
  | 3 => if a < b then 1 else 0
  | 4 => ((a ^^^ b : Nat) : Int)
  | 5 => if alt then signed n a / 2 ^ k else ((field a 0 n / 2 ^ k : Nat) : Int)
  | 6 => ((a ||| b : Nat) : Int)
  | _ => ((a &&& b : Nat) : Int)

/-- An operation of the M extension on `n` bits, by its function. -/
def aluMul (f n a b : Nat) : Int :=
  let x := signed n a
  let y := signed n b
  let u := field a 0 n
  let v := field b 0 n
  match f with
  | 0 => x * y
  | 1 => x * y / 2 ^ n
  | 2 => x * v / 2 ^ n
  | 3 => ((u * v / 2 ^ n : Nat) : Int)
  | 4 => if y = 0 then -1 else Int.tdiv x y
  | 5 => if v = 0 then -1 else ((u / v : Nat) : Int)
  | 6 => if y = 0 then x else Int.tmod x y
  | _ => if v = 0 then x else ((u % v : Nat) : Int)

/-- An integer result of `n` bits in a register: words are sign-extended. -/
def intResult (n : Nat) (v : Int) : Nat := unsigned 64 (signed n (unsigned n v))

/-- The value of an arithmetic instruction on registers and immediates; none for a word that is none. -/
def aluInstr (w pc : Nat) (x : Nat → Nat) : Option Nat :=
  let f := field w 12 3
  let g := field w 25 7
  let a := x (field w 15 5)
  let b := x (field w 20 5)
  match field w 0 7 with
  | 0x37 => some (unsigned 64 (immU w))
  | 0x17 => some (unsigned 64 (pc + immU w))
  | 0x13 =>
    let h := field w 26 6
    if f = 1 ∨ f = 5 then
      (if h = 0 ∨ (h = 0x10 ∧ f = 5) then some (intResult 64 (aluBase f (h = 0x10) 64 a (field w 20 6))) else none)
    else some (intResult 64 (aluBase f false 64 a (unsigned 64 (immI w))))
  | 0x1B =>
    if f = 0 then some (intResult 32 (a + immI w))
    else if f = 1 ∨ f = 5 then
      (if g = 0 ∨ (g = 0x20 ∧ f = 5) then some (intResult 32 (aluBase f (g = 0x20) 32 a (field w 20 5))) else none)
    else none
  | 0x33 =>
    if g = 1 then some (intResult 64 (aluMul f 64 a b))
    else if g = 0 ∨ (g = 0x20 ∧ (f = 0 ∨ f = 5)) then some (intResult 64 (aluBase f (g = 0x20) 64 a b))
    else none
  | 0x3B =>
    if g = 1 then (if f = 0 ∨ 4 ≤ f then some (intResult 32 (aluMul f 32 a b)) else none)
    else if (g = 0 ∧ (f = 0 ∨ f = 1 ∨ f = 5)) ∨ (g = 0x20 ∧ (f = 0 ∨ f = 5)) then
      some (intResult 32 (aluBase f (g = 0x20) 32 a b))
    else none
  | _ => none

/-- The condition of a branch, by its function; none for a function that is none. -/
def branchTaken (f a b : Nat) : Option Bool :=
  match f with
  | 0 => some (a = b)
  | 1 => some (a ≠ b)
  | 4 => some (decide (signed 64 a < signed 64 b))
  | 5 => some (decide (signed 64 b ≤ signed 64 a))
  | 6 => some (decide (a < b))
  | 7 => some (decide (b ≤ a))
  | _ => none

/-- An instruction retires, and the next is at `target`. -/
def State.jump (s : State) (h : Nat) (target : Int) (f : Hart → Hart) : State :=
  s.retire h 0 fun t => { f t with pc := unsigned 64 target }

/-- A jump or a branch of `len` bytes; none for a word that is neither. -/
def State.controlInstr (s : State) (h len w : Nat) : Option State :=
  let t := s.hart h
  let a := t.reg (field w 15 5)
  let link (u : Hart) : Hart := u.setReg (field w 7 5) (t.pc + len)
  match field w 0 7 with
  | 0x6F => some (s.jump h (t.pc + immJ w) link)
  | 0x67 =>
    if field w 12 3 = 0 then some (s.jump h (withoutBit (unsigned 64 (a + immI w)) 0) link) else none
  | 0x63 =>
    (branchTaken (field w 12 3) a (t.reg (field w 20 5))).map fun c =>
      if c then s.jump h (t.pc + immB w) id else s.retire h len id
  | _ => none

/-- A CSR instruction: the old value goes to `rd`, and the CSR is replaced, or its bits set or cleared; setting or clearing from x0
or zero writes nothing. An interrupt that is then pending and enabled is taken (R253, R262). -/
def State.csrInstr (s : State) (h w : Nat) : Option State :=
  let t := s.hart h
  let f := field w 12 3
  let n := field w 20 12
  let rs := field w 15 5
  let x := if 4 ≤ f then rs else t.reg rs
  let writes := f % 4 = 1 || rs ≠ 0
  match s.csrRead h n with
  | none => none
  | some old =>
    let new := if f % 4 = 1 then x else if f % 4 = 2 then old ||| x else old - (old &&& x)
    if f % 4 = 0 then none
    else
      match (if writes then s.csrWrite h n new else some s) with
      | none => none
      | some (u : State) => some ((u.retire h 4 fun t => t.setReg (field w 7 5) old).takeInterrupt h)

/-- SRET: the mode and the interrupt enable before the trap come back (R253). -/
def Hart.sret (t : Hart) : Hart :=
  { t with pc := t.sepc, user := !t.spp, sie := t.spie, spie := true, spp := false }

/-- An instruction of the SYSTEM or MISC-MEM opcode without a row of its own; none for an illegal one. FENCE.I and SFENCE.VMA
order what State holds in order already (log 204). -/
def State.systemInstr (s : State) (h w : Nat) : Option State :=
  let t := s.hart h
  if field w 0 7 = 0x0F then (if field w 12 3 = 1 then some (s.retire h 4 id) else none)
  else if field w 0 7 ≠ 0x73 then none
  else if field w 12 3 ≠ 0 then s.csrInstr h w
  else if w = 0x00000073 then some (s.otherCall h)
  else if w = 0x00100073 then some (s.trap h 3 t.pc)
  else if t.user then none
  else if w = 0x10200073 then some ((s.retire h 0 Hart.sret).takeInterrupt h)
  else if field w 25 7 = 9 && field w 7 5 = 0 then some (s.retire h 4 id)
  else none

/-- An instruction without a row of its own; none for an illegal one (R253). -/
def State.integerInstr (s : State) (h len w : Nat) : Option State :=
  let t := s.hart h
  match aluInstr w t.pc t.reg with
  | some v => some (s.retire h len fun u => u.setReg (field w 7 5) v)
  | none =>
    match s.controlInstr h len w with
    | some u => some u
    | none => s.systemInstr h w

/-- The word is of an instruction with rows of its own: a load, a store, an atomic, a FENCE, an `ecall` whose a7 names an extension
of the monitor, or a WFI. -/
def rowed (w a7 : Nat) : Bool :=
  let f := field w 12 3
  match field w 0 7 with
  | 0x03 => f ≠ 7
  | 0x23 => decide (f < 4)
  | 0x07 => f = 2 || f = 3
  | 0x27 => f = 2 || f = 3
  | 0x2F => f = 2 || f = 3
  | 0x0F => f = 0
  | 0x73 => (w = 0x73 && sbiExtensions.contains a7) || w = 0x10500073
  | _ => false

end Sys2Proof.Machine
end

