-- ==== Sys2Proof/Machine/SvxDecode.lean ====
section
/-! DEFINITION. The words of the short-vector extension (R266 to R268, R273): which command of a hart a word is, none for a
reserved encoding. -/

namespace Sys2Proof.Machine

/-- An integer type. -/
def laneInteger (et : Nat) : Bool := decide (et < 4)

/-- VWMUL accepts every type but I64 and FP64 (R268). -/
def widens (et : Nat) : Bool := et ≠ 3 && et ≠ 7

/-- The arithmetic function accepts its type, its `U` and its vs2 (R268). -/
def svxLegal (fn : Nat) (u : Bool) (vs2 et : Nat) : Bool :=
  let int := laneInteger et
  let ok (types unsigned : Bool) : Bool := types && (!u || (unsigned && int))
  match fn with
  | 0x03 => ok int true
  | 0x05 => ok true true
  | 0x06 => ok true true
  | 0x07 => ok (laneFp et) false
  | 0x08 => ok (laneFp et) false && vs2 = 0
  | 0x0C => ok int false
  | 0x0D => ok int false
  | 0x0E => ok int false
  | 0x10 => ok true true
  | 0x11 => ok true true
  | 0x13 => ok true true && decide (vs2 < 8)
  | 0x14 => ok (widens et) true
  | 0x15 => ok (widens et) true
  | 0x16 => ok (widens et && et ≠ 2) true
  | _ => decide (fn < 0x18) && ok true false

/-- The arithmetic command of a function (R268). -/
def svxArithCommand (h : Fin 3072) (fn : Nat) (w u : Bool) (vs2 vs1 : Fin 32) (et : Fin 8) (vd : Fin 32) : Option Instr :=
  match fn with
  | 0x00 => some (.vadd h w u vs2 vs1 et vd)
  | 0x01 => some (.vsub h w u vs2 vs1 et vd)
  | 0x02 => some (.vmul h w u vs2 vs1 et vd)
  | 0x03 => some (.vmulh h w u vs2 vs1 et vd)
  | 0x04 => some (.vfma h w u vs2 vs1 et vd)
  | 0x05 => some (.vmin h w u vs2 vs1 et vd)
  | 0x06 => some (.vmax h w u vs2 vs1 et vd)
  | 0x07 => some (.vdiv h w u vs2 vs1 et vd)
  | 0x08 => some (.vsqrt h w u vs2 vs1 et vd)
  | 0x09 => some (.vand h w u vs2 vs1 et vd)
  | 0x0A => some (.vor h w u vs2 vs1 et vd)
  | 0x0B => some (.vxor h w u vs2 vs1 et vd)
  | 0x0C => some (.vsll h w u vs2 vs1 et vd)
  | 0x0D => some (.vsrl h w u vs2 vs1 et vd)
  | 0x0E => some (.vsra h w u vs2 vs1 et vd)
  | 0x0F => some (.vcmpeq h w u vs2 vs1 et vd)
  | 0x10 => some (.vcmplt h w u vs2 vs1 et vd)
  | 0x11 => some (.vcmple h w u vs2 vs1 et vd)
  | 0x12 => some (.vsel h w u vs2 vs1 et vd)
  | 0x13 => some (.vcvt h w u vs2 vs1 et vd)
  | 0x14 => some (.vwmul h w u vs2 vs1 et vd)
  | 0x15 => some (.vwmulhi h w u vs2 vs1 et vd)
  | 0x16 => some (.vdot h w u vs2 vs1 et vd)
  | 0x17 => some (.vrsum h w u vs2 vs1 et vd)
  | _ => none

/-- A five-bit field of a word. -/
def fieldReg (w lo : Nat) : Fin 32 := Fin.ofNat 32 (field w lo 5)

/-- The command of a custom-0 word, by the layout of R266. -/
def custom0 (h : Fin 3072) (w : Nat) : Option Instr :=
  let et : Fin 8 := Fin.ofNat 8 (field w 12 3)
  if svxLegal (field w 27 5) (bit w 25) (field w 20 5) et.val then
    svxArithCommand h (field w 27 5) (bit w 26) (bit w 25) (fieldReg w 20) (fieldReg w 15) et (fieldReg w 7)
  else none

/-- The command of a custom-1 word, by the layouts of R273; fields not listed must be zero. -/
def custom1 (h : Fin 3072) (w : Nat) : Option Instr :=
  let et : Fin 8 := Fin.ofNat 8 (field w 29 3)
  let iw : Fin 4 := Fin.ofNat 4 (field w 27 2)
  let sc : Fin 4 := Fin.ofNat 4 (field w 25 2)
  match field w 12 3 with
  | 0 => some (.vld h (BitVec.ofNat 12 (field w 20 12)) (fieldReg w 15) (fieldReg w 7) .beyond)
  | 1 => some (.vst h (BitVec.ofNat 12 (field w 25 7 * 2 ^ 5 + field w 7 5)) (fieldReg w 20) (fieldReg w 15) false)
  | 2 => some (.vgath h et iw sc (fieldReg w 20) (fieldReg w 15) (fieldReg w 7) .beyond)
  | 3 => some (.vscat h et iw sc (fieldReg w 20) (fieldReg w 15) (fieldReg w 7) false)
  | 4 =>
    if field w 27 2 = 0 ∧ field w 20 6 = 0 then some (.vsplat h et (bit w 26) (fieldReg w 15) (fieldReg w 7)) else none
  | 5 =>
    if field w 20 5 = 0 then some (.vext h et (Fin.ofNat 16 (field w 25 4)) (fieldReg w 15) (fieldReg w 7)) else none
  | 6 =>
    if field w 22 10 = 0 ∧ field w 15 5 = 0 ∧ field w 7 5 = 0 then some (.sync h (bit w 21) (bit w 20)) else none
  | _ => none

/-- The command of a hart that a word of the short-vector extension is; none for a reserved encoding (R266, R268, R273). -/
def svxCommand (h : Fin 3072) (w : Nat) : Option Instr :=
  if field w 0 7 = 0x0B then custom0 h w else if field w 0 7 = 0x2B then custom1 h w else none

end Sys2Proof.Machine
end

