-- ==== Sys2Proof/Machine/SvxOps.lean ====
section
/-! DEFINITION. The SVX arithmetic and move instructions, and the F and D instructions (R253 to R255, R263 to R276). -/

namespace Sys2Proof.Machine

/-- Bits of an SVX arithmetic instruction (R266). -/
def svxWord (fn : Nat) (w u : Bool) (vs2 vs1 et vd : Nat) : Nat :=
  fn * 2 ^ 27 + ofBool w * 2 ^ 26 + ofBool u * 2 ^ 25 + vs2 * 2 ^ 20 + vs1 * 2 ^ 15 + et * 2 ^ 12 + vd * 2 ^ 7 + 0x0B

/-- An SVX instruction writes `vd` and accrues flags; the 64-bit form clears bits [127:64] (R264, R265). -/
def State.svxWrite (s : State) (h : Nat) (w : Bool) (vd : Nat) (r : Nat × Nat) : State :=
  s.retire h 4 fun t => (t.setVreg vd (r.1 % 2 ^ formBits w)).accrue r.2

/-- An SVX arithmetic instruction: illegal where its encoding is not accepted or FS is Off, otherwise `f` of `a` (vs1),
`b` (vs2) and the former `vd` (R265, R268). -/
def State.svxArith (s : State) (h fn : Nat) (w u : Bool) (vs2 vs1 et vd : Nat) (f : Nat → Nat → Nat → Nat × Nat) : Res :=
  let t := s.hart h
  if !s.issues h then .next s
  else if !svxLegal fn u vs2 et || t.fs = 0 then .next (s.illegal h (svxWord fn w u vs2 vs1 et vd))
  else .next (s.svxWrite h w vd (f (t.vreg vs1) (t.vreg vs2) (t.vreg vd)))

/-- VADD (R268). -/
def execVadd (h : Fin 3072) (w u : Bool) (vs2 vs1 : Fin 32) (et : Fin 8) (vd : Fin 32) (s : State) : Res :=
  s.svxArith h.val 0x00 w u vs2.val vs1.val et.val vd.val
    (mapLanes (formBits w) et.val fun a b _ => laneAdd false et.val a b)

/-- VSUB (R268). -/
def execVsub (h : Fin 3072) (w u : Bool) (vs2 vs1 : Fin 32) (et : Fin 8) (vd : Fin 32) (s : State) : Res :=
  s.svxArith h.val 0x01 w u vs2.val vs1.val et.val vd.val
    (mapLanes (formBits w) et.val fun a b _ => laneAdd true et.val a b)

/-- VMUL (R268). -/
def execVmul (h : Fin 3072) (w u : Bool) (vs2 vs1 : Fin 32) (et : Fin 8) (vd : Fin 32) (s : State) : Res :=
  s.svxArith h.val 0x02 w u vs2.val vs1.val et.val vd.val
    (mapLanes (formBits w) et.val fun a b _ => laneMul et.val a b)

/-- VMULH (R268). -/
def execVmulh (h : Fin 3072) (w u : Bool) (vs2 vs1 : Fin 32) (et : Fin 8) (vd : Fin 32) (s : State) : Res :=
  s.svxArith h.val 0x03 w u vs2.val vs1.val et.val vd.val
    (mapLanes (formBits w) et.val fun a b _ => laneMulh u et.val a b)

/-- VFMA (R268). -/
def execVfma (h : Fin 3072) (w u : Bool) (vs2 vs1 : Fin 32) (et : Fin 8) (vd : Fin 32) (s : State) : Res :=
  s.svxArith h.val 0x04 w u vs2.val vs1.val et.val vd.val
    (mapLanes (formBits w) et.val fun a b d => laneFma et.val a b d)

/-- VMIN (R268). -/
def execVmin (h : Fin 3072) (w u : Bool) (vs2 vs1 : Fin 32) (et : Fin 8) (vd : Fin 32) (s : State) : Res :=
  s.svxArith h.val 0x05 w u vs2.val vs1.val et.val vd.val
    (mapLanes (formBits w) et.val fun a b _ => laneMinmax false u et.val a b)

/-- VMAX (R268). -/
def execVmax (h : Fin 3072) (w u : Bool) (vs2 vs1 : Fin 32) (et : Fin 8) (vd : Fin 32) (s : State) : Res :=
  s.svxArith h.val 0x06 w u vs2.val vs1.val et.val vd.val
    (mapLanes (formBits w) et.val fun a b _ => laneMinmax true u et.val a b)

/-- VDIV (R268). -/
def execVdiv (h : Fin 3072) (w u : Bool) (vs2 vs1 : Fin 32) (et : Fin 8) (vd : Fin 32) (s : State) : Res :=
  s.svxArith h.val 0x07 w u vs2.val vs1.val et.val vd.val
    (mapLanes (formBits w) et.val fun a b _ => laneDiv et.val a b)

/-- VSQRT; vs2 must be 0 (R268). -/
def execVsqrt (h : Fin 3072) (w u : Bool) (vs2 vs1 : Fin 32) (et : Fin 8) (vd : Fin 32) (s : State) : Res :=
  s.svxArith h.val 0x08 w u vs2.val vs1.val et.val vd.val
    (mapLanes (formBits w) et.val fun a _ _ => laneSqrt et.val a)

/-- VAND (R268). -/
def execVand (h : Fin 3072) (w u : Bool) (vs2 vs1 : Fin 32) (et : Fin 8) (vd : Fin 32) (s : State) : Res :=
  s.svxArith h.val 0x09 w u vs2.val vs1.val et.val vd.val fun a b _ => (a &&& b, 0)

/-- VOR (R268). -/
def execVor (h : Fin 3072) (w u : Bool) (vs2 vs1 : Fin 32) (et : Fin 8) (vd : Fin 32) (s : State) : Res :=
  s.svxArith h.val 0x0A w u vs2.val vs1.val et.val vd.val fun a b _ => (a ||| b, 0)

/-- VXOR (R268). -/
def execVxor (h : Fin 3072) (w u : Bool) (vs2 vs1 : Fin 32) (et : Fin 8) (vd : Fin 32) (s : State) : Res :=
  s.svxArith h.val 0x0B w u vs2.val vs1.val et.val vd.val fun a b _ => (a ^^^ b, 0)

/-- VSLL (R268). -/
def execVsll (h : Fin 3072) (w u : Bool) (vs2 vs1 : Fin 32) (et : Fin 8) (vd : Fin 32) (s : State) : Res :=
  s.svxArith h.val 0x0C w u vs2.val vs1.val et.val vd.val
    (mapLanes (formBits w) et.val fun a b _ => laneShift true false et.val a b)

/-- VSRL (R268). -/
def execVsrl (h : Fin 3072) (w u : Bool) (vs2 vs1 : Fin 32) (et : Fin 8) (vd : Fin 32) (s : State) : Res :=
  s.svxArith h.val 0x0D w u vs2.val vs1.val et.val vd.val
    (mapLanes (formBits w) et.val fun a b _ => laneShift false false et.val a b)

/-- VSRA (R268). -/
def execVsra (h : Fin 3072) (w u : Bool) (vs2 vs1 : Fin 32) (et : Fin 8) (vd : Fin 32) (s : State) : Res :=
  s.svxArith h.val 0x0E w u vs2.val vs1.val et.val vd.val
    (mapLanes (formBits w) et.val fun a b _ => laneShift false true et.val a b)

/-- VCMPEQ (R268, R269). -/
def execVcmpeq (h : Fin 3072) (w u : Bool) (vs2 vs1 : Fin 32) (et : Fin 8) (vd : Fin 32) (s : State) : Res :=
  s.svxArith h.val 0x0F w u vs2.val vs1.val et.val vd.val
    (mapLanes (formBits w) et.val fun a b _ => laneCompare 0 false et.val a b)

/-- VCMPLT (R268, R269). -/
def execVcmplt (h : Fin 3072) (w u : Bool) (vs2 vs1 : Fin 32) (et : Fin 8) (vd : Fin 32) (s : State) : Res :=
  s.svxArith h.val 0x10 w u vs2.val vs1.val et.val vd.val
    (mapLanes (formBits w) et.val fun a b _ => laneCompare 1 u et.val a b)

/-- VCMPLE (R268, R269). -/
def execVcmple (h : Fin 3072) (w u : Bool) (vs2 vs1 : Fin 32) (et : Fin 8) (vd : Fin 32) (s : State) : Res :=
  s.svxArith h.val 0x11 w u vs2.val vs1.val et.val vd.val
    (mapLanes (formBits w) et.val fun a b _ => laneCompare 2 u et.val a b)

/-- VSEL: bits of `a` where the former `vd` has ones, of `b` where it has zeros (R268). -/
def execVsel (h : Fin 3072) (w u : Bool) (vs2 vs1 : Fin 32) (et : Fin 8) (vd : Fin 32) (s : State) : Res :=
  s.svxArith h.val 0x12 w u vs2.val vs1.val et.val vd.val
    fun a b d => ((a &&& d) ||| (b &&& (d ^^^ (2 ^ 128 - 1))), 0)

/-- VCVT: from the type in vs2[2:0]; `U` is allowed where `ET` is an integer type (R268, R269). -/
def execVcvt (h : Fin 3072) (w u : Bool) (vs2 vs1 : Fin 32) (et : Fin 8) (vd : Fin 32) (s : State) : Res :=
  let src := vs2.val % 8
  let k := s.free
  if !s.issues h.val then .next s
  else .next <| match s.svxArith h.val 0x13 w u vs2.val vs1.val et.val vd.val fun a _ _ =>
        ofLanes (laneBits et.val) (((convertLanes (formBits w) u src et.val a).zipIdx).map fun r =>
          r.1.getD ((Config.freeLane (k + r.2)).toNat % 2 ^ laneBits et.val, 0)) with
    | .next t => { t with free := k + 16 }
    | _ => s

/-- VWMUL (R270, R272). -/
def execVwmul (h : Fin 3072) (w u : Bool) (vs2 vs1 : Fin 32) (et : Fin 8) (vd : Fin 32) (s : State) : Res :=
  s.svxArith h.val 0x14 w u vs2.val vs1.val et.val vd.val
    fun a b _ => widenLanes (formBits w) false u et.val a b

/-- VWMULHI (R270, R272). -/
def execVwmulhi (h : Fin 3072) (w u : Bool) (vs2 vs1 : Fin 32) (et : Fin 8) (vd : Fin 32) (s : State) : Res :=
  s.svxArith h.val 0x15 w u vs2.val vs1.val et.val vd.val
    fun a b _ => widenLanes (formBits w) true u et.val a b

/-- VDOT; illegal with I32, I64 and FP64 (R270, R271). -/
def execVdot (h : Fin 3072) (w u : Bool) (vs2 vs1 : Fin 32) (et : Fin 8) (vd : Fin 32) (s : State) : Res :=
  s.svxArith h.val 0x16 w u vs2.val vs1.val et.val vd.val
    (dotLanes (formBits w) u et.val)

/-- VRSUM (R268, R269). -/
def execVrsum (h : Fin 3072) (w u : Bool) (vs2 vs1 : Fin 32) (et : Fin 8) (vd : Fin 32) (s : State) : Res :=
  s.svxArith h.val 0x17 w u vs2.val vs1.val et.val vd.val fun a _ _ => sumLanes (formBits w) et.val a

/-- VSPLAT (R273). -/
def execVsplat (h : Fin 3072) (et : Fin 8) (w : Bool) (rs1 vd : Fin 32) (s : State) : Res :=
  let t := s.hart h.val
  if !s.issues h.val then .next s
  else if t.fs = 0 then
    .next (s.illegal h.val (et.val * 2 ^ 29 + ofBool w * 2 ^ 26 + rs1.val * 2 ^ 15 + 4 * 2 ^ 12 + vd.val * 2 ^ 7 + 0x2B))
  else
    let n := laneCount (formBits w) et.val
    .next (s.svxWrite h.val w vd.val (packLanes (laneBits et.val) (List.replicate n (t.reg rs1.val)), 0))

/-- VEXT: a lane beyond the type's lanes is an illegal instruction (R273). -/
def execVext (h : Fin 3072) (et : Fin 8) (ln : Fin 16) (vs1 rd : Fin 32) (s : State) : Res :=
  let t := s.hart h.val
  if !s.issues h.val then .next s
  else if t.fs = 0 || decide (laneCount 128 et.val ≤ ln.val) then
    .next (s.illegal h.val
      (et.val * 2 ^ 29 + ln.val * 2 ^ 25 + vs1.val * 2 ^ 15 + 5 * 2 ^ 12 + rd.val * 2 ^ 7 + 0x2B))
  else
    let v := lane et.val (t.vreg vs1.val) ln.val
    let x := if laneFp et.val then v else unsigned 64 (signed (laneBits et.val) v)
    .next (s.retire h.val 4 fun u => u.setReg rd.val x)

/-- The command of a hart that a word of the short-vector extension is (R266, R273). [Log DESIGN CHOICE 248] -/
def runSvx (i : Instr) (s : State) : Res :=
  match i with
  | .vadd h w u vs2 vs1 et vd => execVadd h w u vs2 vs1 et vd s
  | .vsub h w u vs2 vs1 et vd => execVsub h w u vs2 vs1 et vd s
  | .vmul h w u vs2 vs1 et vd => execVmul h w u vs2 vs1 et vd s
  | .vmulh h w u vs2 vs1 et vd => execVmulh h w u vs2 vs1 et vd s
  | .vfma h w u vs2 vs1 et vd => execVfma h w u vs2 vs1 et vd s
  | .vmin h w u vs2 vs1 et vd => execVmin h w u vs2 vs1 et vd s
  | .vmax h w u vs2 vs1 et vd => execVmax h w u vs2 vs1 et vd s
  | .vdiv h w u vs2 vs1 et vd => execVdiv h w u vs2 vs1 et vd s
  | .vsqrt h w u vs2 vs1 et vd => execVsqrt h w u vs2 vs1 et vd s
  | .vand h w u vs2 vs1 et vd => execVand h w u vs2 vs1 et vd s
  | .vor h w u vs2 vs1 et vd => execVor h w u vs2 vs1 et vd s
  | .vxor h w u vs2 vs1 et vd => execVxor h w u vs2 vs1 et vd s
  | .vsll h w u vs2 vs1 et vd => execVsll h w u vs2 vs1 et vd s
  | .vsrl h w u vs2 vs1 et vd => execVsrl h w u vs2 vs1 et vd s
  | .vsra h w u vs2 vs1 et vd => execVsra h w u vs2 vs1 et vd s
  | .vcmpeq h w u vs2 vs1 et vd => execVcmpeq h w u vs2 vs1 et vd s
  | .vcmplt h w u vs2 vs1 et vd => execVcmplt h w u vs2 vs1 et vd s
  | .vcmple h w u vs2 vs1 et vd => execVcmple h w u vs2 vs1 et vd s
  | .vsel h w u vs2 vs1 et vd => execVsel h w u vs2 vs1 et vd s
  | .vcvt h w u vs2 vs1 et vd => execVcvt h w u vs2 vs1 et vd s
  | .vwmul h w u vs2 vs1 et vd => execVwmul h w u vs2 vs1 et vd s
  | .vwmulhi h w u vs2 vs1 et vd => execVwmulhi h w u vs2 vs1 et vd s
  | .vdot h w u vs2 vs1 et vd => execVdot h w u vs2 vs1 et vd s
  | .vrsum h w u vs2 vs1 et vd => execVrsum h w u vs2 vs1 et vd s
  | .vld h imm rs1 vd reach => execVld h imm rs1 vd reach s
  | .vst h imm vs3 rs1 refill => execVst h imm vs3 rs1 refill s
  | .vgath h et iw sc vi rs1 vd reach => execVgath h et iw sc vi rs1 vd reach s
  | .vscat h et iw sc vi rs1 vs3 refill => execVscat h et iw sc vi rs1 vs3 refill s
  | .vsplat h et w rs1 vd => execVsplat h et w rs1 vd s
  | .vext h et ln vs1 rd => execVext h et ln vs1 rd s
  | .sync h ra nv => execSync h ra nv s
  | _ => .next s

/-- F_OR_D_INSTRUCTION: a hart executes the word of an instruction that computes on floating-point registers; HART_LOAD and
HART_STORE are the loads and stores (R253 to R255). The words of other instructions without a row of their own run here too, a word of
the short-vector extension runs as the command that it names, the words of other rows do nothing, and any other word is illegal;
`short` says that the word stands for its compressed form (R266, R268, R273). [Log PRESUMED 237] -/
def execFOrDInstruction (h : Fin 3072) (w : Word) (short : Bool) (s : State) : Res :=
  let t := s.hart h.val
  if !s.issues h.val || rowed w.toNat (t.reg 17) then .next s
  else
    match svxCommand h w.toNat with
    | some i => runSvx i s
    | none =>
      match (if t.fs = 0 then none else fpInstr w.toNat t.reg t.freg) with
      | some r =>
        .next (s.retire h.val 4 fun u =>
          (if r.toX then u.setReg r.rd r.value else u.setFreg r.rd r.value).accrue r.flags)
      | none => .next ((s.integerInstr h.val (instrLen short) w.toNat).getD (s.illegal h.val w.toNat))

end Sys2Proof.Machine
end

