-- ==== Sys2Proof/Machine/Dispatch.lean ====
section
/-! DEFINITION. The one place where a command meets its meaning: one arm per row of the table. -/

namespace Sys2Proof.Machine

/-- The effect of a command on everything but the queue. -/
def exec (i : Instr) (s : State) : Host.Outcome State Fault Refusal :=
  match i with
  | .vinAonApplied => Sys2Proof.Machine.execVinAonApplied s
  | .crystalStable => Sys2Proof.Machine.execCrystalStable s
  | .crystalFailTimeout => Sys2Proof.Machine.execCrystalFailTimeout s
  | .mclkStop => Sys2Proof.Machine.execMclkStop s
  | .vinMainInRange => Sys2Proof.Machine.execVinMainInRange s
  | .pwrOkAsserted pos => Sys2Proof.Machine.execPwrOkAsserted pos s
  | .pwrOkDeasserted vinMainLost => Sys2Proof.Machine.execPwrOkDeasserted vinMainLost s
  | .stackRailOutOfRange rail => Sys2Proof.Machine.execStackRailOutOfRange rail s
  | .coldReset width => Sys2Proof.Machine.execColdReset width s
  | .warmReset width => Sys2Proof.Machine.execWarmReset width s
  | .resetAfterFusePulse => Sys2Proof.Machine.execResetAfterFusePulse s
  | .resetReleased => Sys2Proof.Machine.execResetReleased s
  | .initStageComplete facts => Sys2Proof.Machine.execInitStageComplete facts s
  | .pllALockTimeout k bLocks => Sys2Proof.Machine.execPllALockTimeout k bLocks s
  | .pllLossOfLock k => Sys2Proof.Machine.execPllLossOfLock k s
  | .sparePllLockTimeout k => Sys2Proof.Machine.execSparePllLockTimeout k s
  | .clkSelWrite q k v => Sys2Proof.Machine.execClkSelWrite q k v s
  | .readyFlagSwitch q k v => Sys2Proof.Machine.execReadyFlagSwitch q k v s
  | .clockSwitchComplete k => Sys2Proof.Machine.execClockSwitchComplete k s
  | .clockMuxHang k spareLocked => Sys2Proof.Machine.execClockMuxHang k spareLocked s
  | .powerSample mv ma stackMw => Sys2Proof.Machine.execPowerSample mv ma stackMw s
  | .throttleStepUp => Sys2Proof.Machine.execThrottleStepUp s
  | .arrayThrottleStart ma => Sys2Proof.Machine.execArrayThrottleStart ma s
  | .arrayThrottleEnd => Sys2Proof.Machine.execArrayThrottleEnd s
  | .thermalSample readings => Sys2Proof.Machine.execThermalSample readings s
  | .thermalFloorTimeout element => Sys2Proof.Machine.execThermalFloorTimeout element s
  | .hardwareThermalTrip sensor => Sys2Proof.Machine.execHardwareThermalTrip sensor s
  | .coolantLow => Sys2Proof.Machine.execCoolantLow s
  | .coolantClear => Sys2Proof.Machine.execCoolantClear s
  | .stateRequestLull q => Sys2Proof.Machine.execStateRequestLull q s
  | .lullDeadlineExpiry => Sys2Proof.Machine.execLullDeadlineExpiry s
  | .stateRequestResume q => Sys2Proof.Machine.execStateRequestResume q s
  | .serviceRequestEnter q => Sys2Proof.Machine.execServiceRequestEnter q s
  | .serviceRequestExit q => Sys2Proof.Machine.execServiceRequestExit q s
  | .locationWrite q v => Sys2Proof.Machine.execLocationWrite q v s
  | .timeStepBoundary => Sys2Proof.Machine.execTimeStepBoundary s
  | .modeSetWrite q o n v => Sys2Proof.Machine.execModeSetWrite q o n v s
  | .entryIssue b => Sys2Proof.Machine.execEntryIssue b s
  | .entryStart b queueFull => Sys2Proof.Machine.execEntryStart b queueFull s
  | .entryComplete b queueFull => Sys2Proof.Machine.execEntryComplete b queueFull s
  | .deadlineMissed b k => Sys2Proof.Machine.execDeadlineMissed b k s
  | .entryAbandon b queueFull => Sys2Proof.Machine.execEntryAbandon b queueFull s
  | .mmaFull b check => Sys2Proof.Machine.execMmaFull b check s
  | .mmaPartial b check => Sys2Proof.Machine.execMmaPartial b check s
  | .mmaCombine b check => Sys2Proof.Machine.execMmaCombine b check s
  | .arrayBistComplete die phys pass => Sys2Proof.Machine.execArrayBistComplete die phys pass s
  | .baySpareCopyComplete die phys => Sys2Proof.Machine.execBaySpareCopyComplete die phys s
  | .vopCopy b => Sys2Proof.Machine.execVopCopy b s
  | .vopAdd b => Sys2Proof.Machine.execVopAdd b s
  | .vopSub b => Sys2Proof.Machine.execVopSub b s
  | .vopMul b => Sys2Proof.Machine.execVopMul b s
  | .vopFma b => Sys2Proof.Machine.execVopFma b s
  | .vopDiv b => Sys2Proof.Machine.execVopDiv b s
  | .vopSqrt b => Sys2Proof.Machine.execVopSqrt b s
  | .vopMin b => Sys2Proof.Machine.execVopMin b s
  | .vopMax b => Sys2Proof.Machine.execVopMax b s
  | .vopAbs b => Sys2Proof.Machine.execVopAbs b s
  | .vopNeg b => Sys2Proof.Machine.execVopNeg b s
  | .vopScale b => Sys2Proof.Machine.execVopScale b s
  | .vopSel b => Sys2Proof.Machine.execVopSel b s
  | .vopShiftc b => Sys2Proof.Machine.execVopShiftc b s
  | .vopRelu b => Sys2Proof.Machine.execVopRelu b s
  | .vopCmpeq b => Sys2Proof.Machine.execVopCmpeq b s
  | .vopCmplt b => Sys2Proof.Machine.execVopCmplt b s
  | .vopCmple b => Sys2Proof.Machine.execVopCmple b s
  | .vopCmpne b => Sys2Proof.Machine.execVopCmpne b s
  | .vopPand b => Sys2Proof.Machine.execVopPand b s
  | .vopPor b => Sys2Proof.Machine.execVopPor b s
  | .vopPxor b => Sys2Proof.Machine.execVopPxor b s
  | .vopPnot b => Sys2Proof.Machine.execVopPnot b s
  | .vopPset b => Sys2Proof.Machine.execVopPset b s
  | .vopExp b => Sys2Proof.Machine.execVopExp b s
  | .vopLog b => Sys2Proof.Machine.execVopLog b s
  | .vopTanh b => Sys2Proof.Machine.execVopTanh b s
  | .vopSigm b => Sys2Proof.Machine.execVopSigm b s
  | .vopSilu b => Sys2Proof.Machine.execVopSilu b s
  | .vopGelu b => Sys2Proof.Machine.execVopGelu b s
  | .vredSum b => Sys2Proof.Machine.execVredSum b s
  | .vredSumsq b => Sys2Proof.Machine.execVredSumsq b s
  | .vredDot b => Sys2Proof.Machine.execVredDot b s
  | .vredMax b => Sys2Proof.Machine.execVredMax b s
  | .vredMin b => Sys2Proof.Machine.execVredMin b s
  | .vredMaxabs b => Sys2Proof.Machine.execVredMaxabs b s
  | .vredArgmax b => Sys2Proof.Machine.execVredArgmax b s
  | .vredCountnz b => Sys2Proof.Machine.execVredCountnz b s
  | .xfer b => Sys2Proof.Machine.execXfer b s
  | .gath b => Sys2Proof.Machine.execGath b s
  | .scat b => Sys2Proof.Machine.execScat b s
  | .rstore b => Sys2Proof.Machine.execRstore b s
  | .raccRelaxed b => Sys2Proof.Machine.execRaccRelaxed b s
  | .raccOrdered b => Sys2Proof.Machine.execRaccOrdered b s
  | .mcast b => Sys2Proof.Machine.execMcast b s
  | .transEncode b => Sys2Proof.Machine.execTransEncode b s
  | .transDecode b => Sys2Proof.Machine.execTransDecode b s
  | .transRecode b => Sys2Proof.Machine.execTransRecode b s
  | .transConvert b => Sys2Proof.Machine.execTransConvert b s
  | .transPartComplete b c => Sys2Proof.Machine.execTransPartComplete b c s
  | .histClear b => Sys2Proof.Machine.execHistClear b s
  | .histCarry b => Sys2Proof.Machine.execHistCarry b s
  | .histCopy b => Sys2Proof.Machine.execHistCopy b s
  | .histMerge b => Sys2Proof.Machine.execHistMerge b s
  | .histScan b => Sys2Proof.Machine.execHistScan b s
  | .collAllreduce b => Sys2Proof.Machine.execCollAllreduce b s
  | .collReduce b => Sys2Proof.Machine.execCollReduce b s
  | .collReduceScatter b => Sys2Proof.Machine.execCollReduceScatter b s
  | .collBroadcast b => Sys2Proof.Machine.execCollBroadcast b s
  | .collAllgather b => Sys2Proof.Machine.execCollAllgather b s
  | .collAllgatherv b => Sys2Proof.Machine.execCollAllgatherv b s
  | .collBarrier b => Sys2Proof.Machine.execCollBarrier b s
  | .fence b => Sys2Proof.Machine.execFence b s
  | .waitEvent b => Sys2Proof.Machine.execWaitEvent b s
  | .waitFlag b => Sys2Proof.Machine.execWaitFlag b s
  | .waitNodeBarrier b => Sys2Proof.Machine.execWaitNodeBarrier b s
  | .waitToken b => Sys2Proof.Machine.execWaitToken b s
  | .waitConditionMet b => Sys2Proof.Machine.execWaitConditionMet b s
  | .epoch b => Sys2Proof.Machine.execEpoch b s
  | .br b queueFull => Sys2Proof.Machine.execBr b queueFull s
  | .loop b queueFull => Sys2Proof.Machine.execLoop b queueFull s
  | .call b queueFull => Sys2Proof.Machine.execCall b queueFull s
  | .tableEnd b => Sys2Proof.Machine.execTableEnd b s
  | .model b => Sys2Proof.Machine.execModel b s
  | .tailwindCopyComplete die => Sys2Proof.Machine.execTailwindCopyComplete die s
  | .snap b => Sys2Proof.Machine.execSnap b s
  | .digest b => Sys2Proof.Machine.execDigest b s
  | .eventRegisterWrite b v => Sys2Proof.Machine.execEventRegisterWrite b v s
  | .collNodeLocalStage b queueFull => Sys2Proof.Machine.execCollNodeLocalStage b queueFull s
  | .collChunkReceive src epoch cid run sig m queueFull => Sys2Proof.Machine.execCollChunkReceive src epoch cid run sig m queueFull s
  | .collRetentionAck src epoch cid run k queueFull => Sys2Proof.Machine.execCollRetentionAck src epoch cid run k queueFull s
  | .collCommit src epoch cid run tree status counts queueFull => Sys2Proof.Machine.execCollCommit src epoch cid run tree status counts queueFull s
  | .collAbort src epoch cid run final queueFull => Sys2Proof.Machine.execCollAbort src epoch cid run final queueFull s
  | .collAbandon b queueFull => Sys2Proof.Machine.execCollAbandon b queueFull s
  | .jobBarrierComplete => Sys2Proof.Machine.execJobBarrierComplete s
  | .epochFenceMessage pos epoch withdrawn => Sys2Proof.Machine.execEpochFenceMessage pos epoch withdrawn s
  | .bayPreempt => Sys2Proof.Machine.execBayPreempt s
  | .contextSaveComplete b => Sys2Proof.Machine.execContextSaveComplete b s
  | .preemptDeferralExpiry b => Sys2Proof.Machine.execPreemptDeferralExpiry b s
  | .hartLoad h k short rd rs1 imm reach => Sys2Proof.Machine.execHartLoad h k short rd rs1 imm reach s
  | .hartStore h k short rs2 rs1 imm refill => Sys2Proof.Machine.execHartStore h k short rs2 rs1 imm refill s
  | .hartAmo h a wide rl rd rs1 rs2 reach => Sys2Proof.Machine.execHartAmo h a wide rl rd rs1 rs2 reach s
  | .hartFence h pred succ => Sys2Proof.Machine.execHartFence h pred succ s
  | .hartWfi h => Sys2Proof.Machine.execHartWfi h s
  | .accessReturn h => Sys2Proof.Machine.execAccessReturn h s
  | .storeBufferDrain core => Sys2Proof.Machine.execStoreBufferDrain core s
  | .threadTurnLimit core => Sys2Proof.Machine.execThreadTurnLimit core s
  | .interruptPending h irq => Sys2Proof.Machine.execInterruptPending h irq s
  | .sbiBaseCall h => Sys2Proof.Machine.execSbiBaseCall h s
  | .sbiSetTimer h => Sys2Proof.Machine.execSbiSetTimer h s
  | .sbiSendIpi h => Sys2Proof.Machine.execSbiSendIpi h s
  | .sbiSystemReset h => Sys2Proof.Machine.execSbiSystemReset h s
  | .svxrerrClear h => Sys2Proof.Machine.execSvxrerrClear h s
  | .vadd h w u vs2 vs1 et vd => Sys2Proof.Machine.execVadd h w u vs2 vs1 et vd s
  | .vsub h w u vs2 vs1 et vd => Sys2Proof.Machine.execVsub h w u vs2 vs1 et vd s
  | .vmul h w u vs2 vs1 et vd => Sys2Proof.Machine.execVmul h w u vs2 vs1 et vd s
  | .vmulh h w u vs2 vs1 et vd => Sys2Proof.Machine.execVmulh h w u vs2 vs1 et vd s
  | .vfma h w u vs2 vs1 et vd => Sys2Proof.Machine.execVfma h w u vs2 vs1 et vd s
  | .vmin h w u vs2 vs1 et vd => Sys2Proof.Machine.execVmin h w u vs2 vs1 et vd s
  | .vmax h w u vs2 vs1 et vd => Sys2Proof.Machine.execVmax h w u vs2 vs1 et vd s
  | .vdiv h w u vs2 vs1 et vd => Sys2Proof.Machine.execVdiv h w u vs2 vs1 et vd s
  | .vsqrt h w u vs2 vs1 et vd => Sys2Proof.Machine.execVsqrt h w u vs2 vs1 et vd s
  | .vand h w u vs2 vs1 et vd => Sys2Proof.Machine.execVand h w u vs2 vs1 et vd s
  | .vor h w u vs2 vs1 et vd => Sys2Proof.Machine.execVor h w u vs2 vs1 et vd s
  | .vxor h w u vs2 vs1 et vd => Sys2Proof.Machine.execVxor h w u vs2 vs1 et vd s
  | .vsll h w u vs2 vs1 et vd => Sys2Proof.Machine.execVsll h w u vs2 vs1 et vd s
  | .vsrl h w u vs2 vs1 et vd => Sys2Proof.Machine.execVsrl h w u vs2 vs1 et vd s
  | .vsra h w u vs2 vs1 et vd => Sys2Proof.Machine.execVsra h w u vs2 vs1 et vd s
  | .vcmpeq h w u vs2 vs1 et vd => Sys2Proof.Machine.execVcmpeq h w u vs2 vs1 et vd s
  | .vcmplt h w u vs2 vs1 et vd => Sys2Proof.Machine.execVcmplt h w u vs2 vs1 et vd s
  | .vcmple h w u vs2 vs1 et vd => Sys2Proof.Machine.execVcmple h w u vs2 vs1 et vd s
  | .vsel h w u vs2 vs1 et vd => Sys2Proof.Machine.execVsel h w u vs2 vs1 et vd s
  | .vcvt h w u vs2 vs1 et vd => Sys2Proof.Machine.execVcvt h w u vs2 vs1 et vd s
  | .vwmul h w u vs2 vs1 et vd => Sys2Proof.Machine.execVwmul h w u vs2 vs1 et vd s
  | .vwmulhi h w u vs2 vs1 et vd => Sys2Proof.Machine.execVwmulhi h w u vs2 vs1 et vd s
  | .vdot h w u vs2 vs1 et vd => Sys2Proof.Machine.execVdot h w u vs2 vs1 et vd s
  | .vrsum h w u vs2 vs1 et vd => Sys2Proof.Machine.execVrsum h w u vs2 vs1 et vd s
  | .vld h imm rs1 vd reach => Sys2Proof.Machine.execVld h imm rs1 vd reach s
  | .vst h imm vs3 rs1 refill => Sys2Proof.Machine.execVst h imm vs3 rs1 refill s
  | .vgath h et iw sc vi rs1 vd reach => Sys2Proof.Machine.execVgath h et iw sc vi rs1 vd reach s
  | .vscat h et iw sc vi rs1 vs3 refill => Sys2Proof.Machine.execVscat h et iw sc vi rs1 vs3 refill s
  | .vsplat h et w rs1 vd => Sys2Proof.Machine.execVsplat h et w rs1 vd s
  | .vext h et ln vs1 rd => Sys2Proof.Machine.execVext h et ln vs1 rd s
  | .sync h ra nv => Sys2Proof.Machine.execSync h ra nv s
  | .coreParityReplay core part again => Sys2Proof.Machine.execCoreParityReplay core part again s
  | .coreSelftestComplete core pass => Sys2Proof.Machine.execCoreSelftestComplete core pass s
  | .supervisorMismatch standby => Sys2Proof.Machine.execSupervisorMismatch standby s
  | .stackRead a eligible queue x stack => Sys2Proof.Machine.execStackRead a eligible queue x stack s
  | .stackWrite a data x => Sys2Proof.Machine.execStackWrite a data x s
  | .llmFillComplete line finding => Sys2Proof.Machine.execLlmFillComplete line finding s
  | .narrowRequest a log data x => Sys2Proof.Machine.execNarrowRequest a log data x s
  | .coalescingWaitExpiry st findings => Sys2Proof.Machine.execCoalescingWaitExpiry st findings s
  | .channelParityReplay ch => Sys2Proof.Machine.execChannelParityReplay ch s
  | .calibrationDrift ch => Sys2Proof.Machine.execCalibrationDrift ch s
  | .channelRetrainComplete ch ok => Sys2Proof.Machine.execChannelRetrainComplete ch ok s
  | .patternTestComplete ch r => Sys2Proof.Machine.execPatternTestComplete ch r s
  | .channelMapoutSwitch => Sys2Proof.Machine.execChannelMapoutSwitch s
  | .migrationComplete => Sys2Proof.Machine.execMigrationComplete s
  | .softRemapComplete st => Sys2Proof.Machine.execSoftRemapComplete st s
  | .permanentRepairStart st => Sys2Proof.Machine.execPermanentRepairStart st s
  | .fusePulseComplete st pass => Sys2Proof.Machine.execFusePulseComplete st pass s
  | .scrubLine st e col place finding last => Sys2Proof.Machine.execScrubLine st e col place finding last s
  | .teardownWipeComplete => Sys2Proof.Machine.execTeardownWipeComplete s
  | .llmMbistComplete die phys pass => Sys2Proof.Machine.execLlmMbistComplete die phys pass s
  | .sliceSweepComplete die phys => Sys2Proof.Machine.execSliceSweepComplete die phys s
  | .taggedLineSweep line => Sys2Proof.Machine.execTaggedLineSweep line s
  | .allocTopWrite q v => Sys2Proof.Machine.execAllocTopWrite q v s
  | .mapoutForceWrite q v => Sys2Proof.Machine.execMapoutForceWrite q v s
  | .wrapperSelect st code => Sys2Proof.Machine.execWrapperSelect st code s
  | .journalRead entry => Sys2Proof.Machine.execJournalRead entry s
  | .remapRead ch row => Sys2Proof.Machine.execRemapRead ch row s
  | .remapWrite e row => Sys2Proof.Machine.execRemapWrite e row s
  | .repairRow e => Sys2Proof.Machine.execRepairRow e s
  | .channelTest ch rows => Sys2Proof.Machine.execChannelTest ch rows s
  | .draughtStatus => Sys2Proof.Machine.execDraughtStatus s
  | .hbm4DeviceIdentity => Sys2Proof.Machine.execHbm4DeviceIdentity s
  | .hbm4TemperatureReadout => Sys2Proof.Machine.execHbm4TemperatureReadout s
  | .hbm4ModeRegisterDump => Sys2Proof.Machine.execHbm4ModeRegisterDump s
  | .hbm4LaneRepair e => Sys2Proof.Machine.execHbm4LaneRepair e s
  | .hbm4SoftPpr e => Sys2Proof.Machine.execHbm4SoftPpr e s
  | .hbm4HardPpr e => Sys2Proof.Machine.execHbm4HardPpr e s
  | .wordReplay hop again => Sys2Proof.Machine.execWordReplay hop again s
  | .bridgeSegmentTestComplete bridge segment pass => Sys2Proof.Machine.execBridgeSegmentTestComplete bridge segment pass s
  | .couplerBistComplete die pass => Sys2Proof.Machine.execCouplerBistComplete die pass s
  | .fabricPortTestComplete fd port pass => Sys2Proof.Machine.execFabricPortTestComplete fd port pass s
  | .linkTrainingStart l => Sys2Proof.Machine.execLinkTrainingStart l s
  | .linkUp l far => Sys2Proof.Machine.execLinkUp l far s
  | .linkDetectRetry l signal => Sys2Proof.Machine.execLinkDetectRetry l signal s
  | .linkFarEndIdle l => Sys2Proof.Machine.execLinkFarEndIdle l s
  | .linkAbsentTimeout l => Sys2Proof.Machine.execLinkAbsentTimeout l s
  | .laneTestStart l lane => Sys2Proof.Machine.execLaneTestStart l lane s
  | .laneTestComplete l pass completes => Sys2Proof.Machine.execLaneTestComplete l pass completes s
  | .flitReceive l seq crcOk corrected => Sys2Proof.Machine.execFlitReceive l seq crcOk corrected s
  | .linkAckTimeout l => Sys2Proof.Machine.execLinkAckTimeout l s
  | .linkCmdRetrain q l => Sys2Proof.Machine.execLinkCmdRetrain q l s
  | .linkCmdDisable q l => Sys2Proof.Machine.execLinkCmdDisable q l s
  | .linkCmdEnable q l => Sys2Proof.Machine.execLinkCmdEnable q l s
  | .linkStateMessage q states => Sys2Proof.Machine.execLinkStateMessage q states s
  | .pktRead q h len => Sys2Proof.Machine.execPktRead q h len s
  | .pktReadResp q h data poison => Sys2Proof.Machine.execPktReadResp q h data poison s
  | .pktWrite q h data poison => Sys2Proof.Machine.execPktWrite q h data poison s
  | .pktAck q h => Sys2Proof.Machine.execPktAck q h s
  | .pktAmo q h op order => Sys2Proof.Machine.execPktAmo q h op order s
  | .pktAmoResp q h old poison => Sys2Proof.Machine.execPktAmoResp q h old poison s
  | .pktRacc q h fn srcFmt wide data order => Sys2Proof.Machine.execPktRacc q h fn srcFmt wide data order s
  | .pktNack q h stale cause => Sys2Proof.Machine.execPktNack q h stale cause s
  | .pktMail via h msg pkt total notify data hops => Sys2Proof.Machine.execPktMail via h msg pkt total notify data hops s
  | .pktMailAck h msg pkt done code => Sys2Proof.Machine.execPktMailAck h msg pkt done code s
  | .remoteTimeout q => Sys2Proof.Machine.execRemoteTimeout q s
  | .raccRoundEnd => Sys2Proof.Machine.execRaccRoundEnd s
  | .raccCloseMessage q h round => Sys2Proof.Machine.execRaccCloseMessage q h round s
  | .mailDoorbell q tail => Sys2Proof.Machine.execMailDoorbell q tail s
  | .mailComplete q => Sys2Proof.Machine.execMailComplete q s
  | .mailRetransmitTimeout lnode => Sys2Proof.Machine.execMailRetransmitTimeout lnode s
  | .mailTransitTimeout => Sys2Proof.Machine.execMailTransitTimeout s
  | .crosswindPairingMessage pos m => Sys2Proof.Machine.execCrosswindPairingMessage pos m s
  | .crosswindDigestMessage pos tstep digest => Sys2Proof.Machine.execCrosswindDigestMessage pos tstep digest s
  | .crosswindStreamDigests pos tstep streams => Sys2Proof.Machine.execCrosswindStreamDigests pos tstep streams s
  | .crosswindChunkExchange pos records intact data word => Sys2Proof.Machine.execCrosswindChunkExchange pos records intact data word s
  | .errorAckWrite q v => Sys2Proof.Machine.execErrorAckWrite q v s
  | .alertCauseWrite q v => Sys2Proof.Machine.execAlertCauseWrite q v s
  | .squallClear => Sys2Proof.Machine.execSquallClear s
  | .peerLossTimeout pos => Sys2Proof.Machine.execPeerLossTimeout pos s
  | .snapCaptureComplete b => Sys2Proof.Machine.execSnapCaptureComplete b s
  | .snapQuiesceComplete => Sys2Proof.Machine.execSnapQuiesceComplete s
  | .snapAgreementComplete warning fit ended dirty => Sys2Proof.Machine.execSnapAgreementComplete warning fit ended dirty s
  | .stackPartComplete st bad => Sys2Proof.Machine.execStackPartComplete st bad s
  | .shardReceive pos epoch index tstep gen imageBytes data => Sys2Proof.Machine.execShardReceive pos epoch index tstep gen imageBytes data s
  | .drainAck pos gen answer => Sys2Proof.Machine.execDrainAck pos gen answer s
  | .drainDeadlineExpiry k => Sys2Proof.Machine.execDrainDeadlineExpiry k s
  | .nodeDigestMessage pos tstep digest => Sys2Proof.Machine.execNodeDigestMessage pos tstep digest s
  | .recoveryRollback q epoch tstep peers => Sys2Proof.Machine.execRecoveryRollback q epoch tstep peers s
  | .recoveryTakeover q pos epoch tstep peers => Sys2Proof.Machine.execRecoveryTakeover q pos epoch tstep peers s
  | .recoveryRejoin q epoch tstep peers => Sys2Proof.Machine.execRecoveryRejoin q epoch tstep peers s
  | .takeoverUpdateMessage pos epoch lost => Sys2Proof.Machine.execTakeoverUpdateMessage pos epoch lost s
  | .restoreComplete bad peers => Sys2Proof.Machine.execRestoreComplete bad peers s
  | .teardownComplete => Sys2Proof.Machine.execTeardownComplete s
  | .hostLinkTraining gen width cxl => Sys2Proof.Machine.execHostLinkTraining gen width cxl s
  | .hostLinkReset down => Sys2Proof.Machine.execHostLinkReset down s
  | .sqTailDoorbell q tail entries => Sys2Proof.Machine.execSqTailDoorbell q tail entries s
  | .cqHeadDoorbell q head => Sys2Proof.Machine.execCqHeadDoorbell q head s
  | .jobLoad map => Sys2Proof.Machine.execJobLoad map s
  | .jobStart => Sys2Proof.Machine.execJobStart s
  | .jobStartTimeout => Sys2Proof.Machine.execJobStartTimeout s
  | .jobEnd => Sys2Proof.Machine.execJobEnd s
  | .copyToDevice data => Sys2Proof.Machine.execCopyToDevice data s
  | .copyFromDevice => Sys2Proof.Machine.execCopyFromDevice s
  | .rosterRegister image descs weights => Sys2Proof.Machine.execRosterRegister image descs weights s
  | .rosterDeregister => Sys2Proof.Machine.execRosterDeregister s
  | .regionRegister image => Sys2Proof.Machine.execRegionRegister image s
  | .regionDeregister => Sys2Proof.Machine.execRegionDeregister s
  | .bayResume => Sys2Proof.Machine.execBayResume s
  | .winCmdRead addr offset len seq => Sys2Proof.Machine.execWinCmdRead addr offset len seq s
  | .winCmdWrite addr offset seq data peers => Sys2Proof.Machine.execWinCmdWrite addr offset seq data peers s
  | .notificationPost q v => Sys2Proof.Machine.execNotificationPost q v s
  | .hostMemRead atom => Sys2Proof.Machine.execHostMemRead atom s
  | .hostMemWrite a data => Sys2Proof.Machine.execHostMemWrite a data s
  | .sqEnableWrite q k v => Sys2Proof.Machine.execSqEnableWrite q k v s
  | .getVersion q => Sys2Proof.Machine.execGetVersion q s
  | .getCapabilities q => Sys2Proof.Machine.execGetCapabilities q s
  | .negotiateAlgorithms q => Sys2Proof.Machine.execNegotiateAlgorithms q s
  | .getDigests q => Sys2Proof.Machine.execGetDigests q s
  | .getCertificate q slot offset len => Sys2Proof.Machine.execGetCertificate q slot offset len s
  | .challenge q => Sys2Proof.Machine.execChallenge q s
  | .getMeasurements q index => Sys2Proof.Machine.execGetMeasurements q index s
  | .keyExchange q id => Sys2Proof.Machine.execKeyExchange q id s
  | .finish q id leaf root verified => Sys2Proof.Machine.execFinish q id leaf root verified s
  | .heartbeat q => Sys2Proof.Machine.execHeartbeat q s
  | .keyUpdate q => Sys2Proof.Machine.execKeyUpdate q s
  | .endSession q => Sys2Proof.Machine.execEndSession q s
  | .heartbeatMissed port id => Sys2Proof.Machine.execHeartbeatMissed port id s
  | .objectWrite q obj offset data peers => Sys2Proof.Machine.execObjectWrite q obj offset data peers s
  | .auditMirrorCopy => Sys2Proof.Machine.execAuditMirrorCopy s
  | .auditAckHostWrite q v => Sys2Proof.Machine.execAuditAckHostWrite q v s
  | .auditHostHoldWrite q v => Sys2Proof.Machine.execAuditHostHoldWrite q v s
  | .dictAnswerLate => Sys2Proof.Machine.execDictAnswerLate s
  | .blobAssemblyTimeout q => Sys2Proof.Machine.execBlobAssemblyTimeout q s
  | .jp2Read q rseq obj offset len => Sys2Proof.Machine.execJp2Read q rseq obj offset len s
  | .jp2Write q rseq obj offset data peers => Sys2Proof.Machine.execJp2Write q rseq obj offset data peers s
  | .jp2Spdm q rseq m => Sys2Proof.Machine.execJp2Spdm q rseq m s
  | .jp2Secured q ok rseq obj offset body peers => Sys2Proof.Machine.execJp2Secured q ok rseq obj offset body peers s
  | .subOpenSample q rseq objects periodUs => Sys2Proof.Machine.execSubOpenSample q rseq objects periodUs s
  | .subOpenAudit q rseq start hold => Sys2Proof.Machine.execSubOpenAudit q rseq start hold s
  | .subAck q rseq seq => Sys2Proof.Machine.execSubAck q rseq seq s
  | .subClose q rseq number => Sys2Proof.Machine.execSubClose q rseq number s
  | .samplePeriod n => Sys2Proof.Machine.execSamplePeriod n s
  | .auditResendTimeout n => Sys2Proof.Machine.execAuditResendTimeout n s
  | .auditHoldTimeout n => Sys2Proof.Machine.execAuditHoldTimeout n s
  | .jp1Request source r => Sys2Proof.Machine.execJp1Request source r s
  | .jdict m peers => Sys2Proof.Machine.execJdict m peers s
  | .arpRequest source target => Sys2Proof.Machine.execArpRequest source target s
  | .icmpEcho source target data => Sys2Proof.Machine.execIcmpEcho source target data s
  | .ptpMessage master domain utc offset settled => Sys2Proof.Machine.execPtpMessage master domain utc offset settled s
  | .ppsEdge => Sys2Proof.Machine.execPpsEdge s
  | .ptpReferenceSilent => Sys2Proof.Machine.execPtpReferenceSilent s
  | .taiSetWrite q v => Sys2Proof.Machine.execTaiSetWrite q v s
  | .freezeCmdTrigger q => Sys2Proof.Machine.execFreezeCmdTrigger q s
  | .freezeCmdRearm q => Sys2Proof.Machine.execFreezeCmdRearm q s
  | .freezeCmdDisarm q => Sys2Proof.Machine.execFreezeCmdDisarm q s
  | .snapTrigEdge width => Sys2Proof.Machine.execSnapTrigEdge width s
  | .freezeHoldExpiry => Sys2Proof.Machine.execFreezeHoldExpiry s
  | .lateLatch k => Sys2Proof.Machine.execLateLatch k s
  | .freezeDumpComplete => Sys2Proof.Machine.execFreezeDumpComplete s
  | .levelSatRefresh f => Sys2Proof.Machine.execLevelSatRefresh f s
  | .latClearWrite q v => Sys2Proof.Machine.execLatClearWrite q v s
  | .errorRateWindow => Sys2Proof.Machine.execErrorRateWindow s
  | .vinAonLost => Sys2Proof.Machine.execVinAonLost s
  | .stackRailsInRange => Sys2Proof.Machine.execStackRailsInRange s
  | .fOrDInstruction h w short => Sys2Proof.Machine.execFOrDInstruction h w short s
  | .mgmtAddressRenewal addr mask gateway => Sys2Proof.Machine.execMgmtAddressRenewal addr mask gateway s
  | .digestMismatchReport src epoch cid run signature queueFull => Sys2Proof.Machine.execDigestMismatchReport src epoch cid run signature queueFull s
  | .chunkRefetchRequest src epoch cid run k => Sys2Proof.Machine.execChunkRefetchRequest src epoch cid run k s
  | .takeoverAcknowledgement pos => Sys2Proof.Machine.execTakeoverAcknowledgement pos s
  | .backInvalidateResponse line => Sys2Proof.Machine.execBackInvalidateResponse line s

end Sys2Proof.Machine
end

