-- ==== Sys2Proof/Machine/Pins.lean ====
section
/-! DEFINITION. What the pins and lanes of the package show, computed from the state (R48, R481, R673, R674). -/

namespace Sys2Proof.Machine

/-- What an open-drain output pin shows. -/
inductive Pin where
  | asserted | released | highImpedance
  deriving DecidableEq, Repr

/-- `FAULT_N`: released only in READY, RUN, LULL, DEGRADED and SERVICE; its pull-down is on while `VIN_AON` is absent (R48,
R674). [Log DEDUCED 203] -/
def State.faultN (s : State) : Pin :=
  if s.reg .aonAbsent = 0 ∧ (s.isIn stReady ∨ s.isIn stRun ∨ s.isIn stLull ∨ s.isIn stDegraded ∨ s.isIn stService) then
    .released
  else .asserted

/-- `ALERT_N`: follows `ALERT_CAUSE` in READY, RUN, LULL, DEGRADED and SERVICE; released in OFF, AON and INIT;
asserted in FAULTED (R48, R481, R673). [Log DEDUCED 203] -/
def State.alertN (s : State) : Pin :=
  let st := s.reg .nodeState
  if s.reg .aonAbsent = 1 then .highImpedance
  else if st = stFaulted then .asserted
  else if st = stOff ∨ st = stAon ∨ st = stInit then .released
  else if s.reg .alertCause ≠ 0 then .asserted
  else .released

/-- `THERM_TRIP_N`: low while a hardware thermal trip is latched (R647, R673). -/
def State.thermTripN (s : State) : Pin :=
  if s.reg .aonAbsent = 1 then .highImpedance
  else if s.reg .thermTrip = 1 then .asserted
  else .released

/-- The lanes of a link are electrically idle: in OFF, AON, in reset, before INIT stage 5, in SERVICE, and on a link that is
absent, lost or disabled (R48). -/
def State.linkIdle (s : State) (l : Nat) : Bool :=
  let st := s.reg .nodeState
  st = stOff || st = stAon || st = stService || (st = stInit && decide (s.reg .initStage < 5)) ||
    s.reg .linkState l = 0 || s.reg .linkState l = 4 || s.reg .linkState l = 6

end Sys2Proof.Machine
end

