-- ==== Sys2Proof/Safety.lean ====
section
/-! DEFINITION. What counts as a well-formed state and as a completed command, in the terms that
statements use. -/

namespace Sys2Proof.Machine

/-- Node memory is in canonical form: addresses rise, and no listed byte is what an unlisted one reads as. -/
def Memory.wf (m : List Host.Cell) : Bool := Store.wf natLt (fun _ => (0 : Byte)) m

/-- The register store is in canonical form, and every register listed holds a value of its width. -/
def Registers.wf (m : Store (Reg × Nat) Nat) : Bool :=
  Store.wf regLt regDflt m && m.all fun e => decide (e.2 < e.1.1.modulus)

/-- The invariant of the package: its two stores are well formed. -/
def State.wf (s : State) : Bool := Memory.wf s.mem && Registers.wf s.regs

/-- A command completes: it answers a next state, of which `P` holds. -/
def Completes (c : Instr) (s : State) (P : State → Prop) : Prop := ∃ t, exec c s = .next t ∧ P t

/-- A step is safe when it answers a next state, which is well formed. -/
def SafeStep (s : State) : Prop := ∃ t, step s = .next t ∧ t.wf = true

/-- Registers outside `rs` read the same in both states. -/
def RegsKept (rs : List Reg) (s t : State) : Prop := ∀ r, r ∉ rs → ∀ i, t.reg r i = s.reg r i

/-- Every byte of node memory reads the same in both states. -/
def MemKept (s t : State) : Prop := ∀ a, t.byte a = s.byte a

/-- A command leaves every register outside `rs` as it was. -/
def LeavesRegs (rs : List Reg) (c : Instr) : Prop := ∀ s t, exec c s = .next t → RegsKept rs s t

/-- A command leaves every register outside `rs`, and every byte of node memory, as they were. -/
def Leaves (rs : List Reg) (c : Instr) : Prop := ∀ s t, exec c s = .next t → RegsKept rs s t ∧ MemKept s t

/-- Registers that an entry of the audit log touches. -/
def auditRegs : List Reg := [.auditHead, .auditLost]

/-- Registers that an error record may touch: its own counts, Squall's, the alert's, the trigger's, those of the trace
unit's writes, and the audit log's. -/
def errorRegs : List Reg :=
  [.squallScore16, .squallAt, .errorHead, .errorsLost, .errorCounts, .errorRate, .ratePast, .squallState, .squallWarnings,
    .alertCause, .lastAlertSeq, .auditHead, .auditLost, .freezeGen, .freezeRecord, .freezeState, .dumpWaits, .traceCount,
    .traceDropped, .freezeMissed, .cbwWrites, .backInvalidates, .hostHeldLines]

/-- Counts that a write of node memory touches: snapshot first writes, back-invalidations and the lines that the host holds. -/
def writeRegs : List Reg := [.cbwWrites, .backInvalidates, .hostHeldLines]

/-- Registers that the trace unit's writes touch. -/
def traceRegs : List Reg := [.traceCount, .traceDropped] ++ writeRegs

/-- Registers that an accepted write of object `r` touches of itself: its value, and those of its audit entry (R579, R593). -/
def acceptRegs (r : Reg) : List Reg := [r, .auditRefusing] ++ auditRegs

/-- A CRC-64 register after one bit, most significant first, of the polynomial of ECMA-182 (R461). -/
def crcShift (c : BitVec 64) : BitVec 64 := if c.msb then (c <<< 1) ^^^ 0x42F0E1EBA9EA3693#64 else c <<< 1

/-- A CRC-64 register after a byte whose bits enter in reflected order (R461). -/
def crcByte (c : BitVec 64) (b : Byte) : BitVec 64 :=
  crcShift (crcShift (crcShift (crcShift (crcShift (crcShift (crcShift (crcShift (c ^^^ (b.reverse ++ 0#56)))))))))

/-- A write of a whole value to an instance of an object is accepted and applies at once: its port answers and the supervisor
serves it, the session that it names exists, the instance is populated, its length is the object's, it passes checks 3 to 5 of
R579, the audit ring has room, and the object's rule lets it apply now. -/
def Accepts (s : State) (q : Requester) (r : Reg) (inst : Nat) (bs : List Byte) : Prop :=
  s.portAnswers q.port = true ∧ s.supervisorServes = true ∧ s.unknownSession q = false ∧
    Reg.atAddr (r.objAt inst) = some (r, inst) ∧ bs.length = r.size ∧ s.writeChecks q r inst bs = resOk ∧
    s.auditRoom = true ∧ s.defers r = false

/-- The dictionary has just answered a write OK (R578). -/
def Answered (q : Requester) (obj : Nat) (t : State) : Prop := t.out.head? = some (.dictionary q obj resOk)

/-- While the supervisor is up, the error log has gained a record with this code, severity, outcome and element (R478). -/
def Records (s t : State) (code severity outcome unitKind unit : Nat) : Prop :=
  s.supervisorUp = true → ∃ r, r ∈ t.errorLog ∧ r.seq = s.reg .errorHead + 1 ∧ r.code = code ∧ r.severity = severity ∧
    r.outcome = outcome ∧ r.unitKind = unitKind ∧ r.unit = unit

/-- What an accepted write has done before the object's own effect: the audit entry is in the log, and the register has its
value (R579, R593). -/
def State.accepted (s : State) (q : Requester) (r : Reg) (inst : Nat) (bs : List Byte) : State :=
  let t := (s.appendAudit (r.objAt inst) (portOrigin q.port) (s.levelOf q).2 resOk 0 (s.regBytes r inst) bs).setReg
    .auditRefusing 0 0
  (t.beforeChange r inst).setRegs r (inst * r.info.elems) (r.taken bs)

/-- The register of object `r` has taken the value of an accepted write. A write of `AUDIT_ACK_HOST` makes no entry of the audit
log (R598). -/
def State.taken (s : State) (q : Requester) (r : Reg) (inst : Nat) (bs : List Byte) : State :=
  if r = .auditAckHost then
    (s.beforeChange r inst).setRegs r (inst * r.info.elems) (r.taken bs)
  else s.accepted q r inst bs

/-- The value that a write of `data` at `off` makes an object's: the data, or for a BLOB its value under the pieces held of it
and then these (R581). -/
def State.assembled (s : State) (q : Requester) (r : Reg) (inst off : Nat) (data : List Byte) : List Byte :=
  if blobs.contains r then
    (((s.assemblies.find? fun a => sameSession a.who q && a.obj = r.objAt inst).map Assembly.pieces).getD [] ++
      [(off, data)]).foldl (fun v p => overlay v p.1 p.2) (s.regBytes r inst)
  else data

/-- A write of `data` at `off` completes the value `v` of an object, which is accepted: a BLOB's piece ends at its length
(R579, R581). -/
def AcceptsPiece (s : State) (q : Requester) (r : Reg) (inst off : Nat) (data : List Byte) (peers : Option Half)
    (v : List Byte) : Prop :=
  v = s.assembled q r inst off data ∧ (if blobs.contains r then data ≠ [] ∧ off + data.length = r.size else off = 0) ∧
    Accepts s q r inst v ∧ s.ownRule r v peers = resOk

/-- The whole effect of an accepted write of `v`: the assemblies of its session end, the audit entry is made, the register
has the value, and the object's own effect follows (R579, R581, R593). -/
def State.written (s : State) (q : Requester) (r : Reg) (inst : Nat) (v : List Byte) : State :=
  objectEffect (s.dropAssemblies q) r inst v ((s.dropAssemblies q).taken q r inst v)

/-- A JOB_START has started and waits for its fence; what ends it posts its completion (R545, R548). -/
def State.startWaits (s : State) : Bool := s.cmds.any fun c => decide (c.opc = 2) && c.started

/-! Shapes of completion that whole families of commands share. -/

/-- The oldest started entry of bay `b` that `p` names makes the effect that `plan` gives of its operands, as it sees memory
(R207, R209). -/
def EntryCompletes (c : Fin 256 → Instr) (p : Flight → Bool) (plan : State → Bay → Flight → Operands → Effect) : Prop :=
  ∀ (s : State) (b : Fin 256) (f : Flight) (o : Operands), s.ready b.val p = some f → s.operands (s.bay b.val) f = .ok o →
    Completes (c b) s fun t => t = s.perform b.val f (plan (s.viewFor b.val f) (s.bay b.val) f o)

/-- A VOP or a VRED of function `fn` makes its effect, and uses up one draw of the open values. -/
def VectorCompletes (c : Fin 256 → Instr) (op fn : Nat) (plan : State → Bay → Flight → Operands → Effect) : Prop :=
  ∀ (s : State) (b : Fin 256) (f : Flight) (o : Operands),
    s.ready b.val (fun f => decide (f.op = op) && decide (f.param 0 8 = fn)) = some f → s.operands (s.bay b.val) f = .ok o →
      Completes (c b) s fun t => t = (s.perform b.val f (plan (s.viewFor b.val f) (s.bay b.val) f o)).draw.2

/-- An MMA of form `form` makes its effect where its residue check finds nothing, and its operands leave the stores (R96, R102,
R110). -/
def MmaCompletes (c : Fin 256 → ArrayCheck → Instr) (form : Nat) : Prop :=
  ∀ (s : State) (b : Fin 256) (f : Flight) (o : Operands),
    s.ready b.val (fun f => decide (f.op = opMma) && decide (f.param 40 2 = form)) = some f →
      s.operands (s.bay b.val) f = .ok o →
        Completes (c b .clean) s fun t => ∃ u : State,
          u = s.perform b.val f (State.planMma (s.viewFor b.val f) (s.bay b.val) f o) ∧
            t = u.setBay b.val ((u.bay b.val).leaveStores f.serial)

/-- A TRANS of function `tfn` starts at its coupler, which is not in its self-test (R484). -/
def TransCompletes (c : Fin 256 → Instr) (tfn : Nat) : Prop :=
  ∀ (s : State) (b : Fin 256) (f : Flight) (a d : Desc) (x y : Operand), s.originHeld b.val = false →
    s.ready b.val (fun f => decide (f.op = opTrans) && decide (f.param 0 2 = tfn)) = some f →
      s.operands (s.bay b.val) f = .ok ⟨.tensor a, x, .tensor d, y⟩ →
        Completes (c b) s fun t => t = s.startTrans b.val f a d

/-- A HIST of function `fn` makes the effect that `plan` gives at its coupler, which is not in its self-test (R191, R484). -/
def HistCompletes (c : Fin 256 → Instr) (fn : Nat) (plan : State → Flight → Operands → Effect) : Prop :=
  ∀ (s : State) (b : Fin 256) (f : Flight) (o : Operands), s.originHeld b.val = false →
    s.ready b.val (fun f => decide (f.op = opHist) && decide (f.param 0 3 = fn)) = some f →
      s.operands (s.bay b.val) f = .ok o →
        Completes (c b) s fun t => t = s.perform b.val f (plan (s.viewFor b.val f) f o)

/-- A WAIT of a kind completes where its condition holds, and waits otherwise (R221). -/
def WaitCompletes (c : Fin 256 → Instr) (kind : Nat) : Prop :=
  ∀ (s : State) (b : Fin 256) (f : Flight),
    s.ready b.val (fun f => decide (f.op = opWait) && decide (f.param 0 4 = kind)) = some f →
      Completes (c b) s fun t => t = if s.waitMet b.val f then s.endWait b.val f else s.stillWaits b.val f

/-- A COLL of a kind hands in its bay's contribution, and its bay waits; where the instance has failed for good it ends with
COLLECTIVE_ABORT (R410, R431). -/
def CollCompletes (c : Fin 256 → Instr) (kind : Nat) : Prop :=
  ∀ (s u : State) (b : Fin 256) (f : Flight) (o : Operands) (k : Coll),
    s.ready b.val (fun f => decide (f.op = opColl) && decide (f.ckind = kind)) = some f →
      s.operands (s.bay b.val) f = .ok o → s.poisonedAny o.a.readRanges = false →
        s.openColl (f.collId (s.bay b.val)) = some u → u.coll (f.collId (s.bay b.val)) = some k →
          Completes (c b) s fun t =>
            (k.failed = none → ∃ (j : Coll) (vs : List Nat),
              j.joined = k.joined ++ [(b.val, f.serial)] ∧ j.contribs = k.contribs ++ [(b.val, vs)] ∧
                t = (((u.setColl j).setFlight b.val { f with phase := 1 }).showWaiting b.val).switchContext b.val) ∧
            (∀ n, k.failed = some n → ∃ (j : Coll) (v : State), j = { k with joined := k.joined ++ [(b.val, f.serial)] } ∧
              v = (if j.missing.isEmpty then u.closeColl k.id false else u.setColl j).freeBytes (f.collWrites k.n) ∧
                t = (v.setBay b.val (v.bay b.val).discardRun).perform b.val f (Effect.fault 0x0F n))

/-- A packet of a collective is for this node, of its epoch and from a source that fits, and the node is not in FAULTED (R47, R370,
R376, R420). -/
def HeardColl (s : State) (q : MailPort) (h : Header) : Prop :=
  s.isMine h = true ∧ s.epochOk h = true ∧ s.collSource q h = true ∧ s.isIn stFaulted = false

/-- Instance `i`, opened in `u` if need be, is `c`, in run `run`, and the packet's source is one of its members (R420). -/
def InRun (s u : State) (h : Header) (i : CollId) (run : Nat) (c : Coll) : Prop :=
  s.openColl i = some u ∧ u.coll i = some c ∧ c.members.contains h.src.val = true ∧ c.run = run

/-- A lane-wise instruction of the short-vector extension, legal for `legal`, writes `f` of vs1, vs2 and the former vd: vd, the
flags and FS change, the hart goes on at the next instruction, and nothing else does (R263 to R268). -/
def SvxCompletes (c : Fin 3072 → Bool → Bool → Fin 32 → Fin 32 → Fin 8 → Fin 32 → Instr)
    (legal : Bool → Fin 32 → Fin 8 → Bool) (f : Bool → Bool → Fin 32 → Fin 8 → Nat → Nat → Nat → Nat × Nat) : Prop :=
  ∀ (s : State) (h : Fin 3072) (w u : Bool) (vs2 vs1 : Fin 32) (et : Fin 8) (vd : Fin 32),
    s.issues h.val = true → legal u vs2 et = true → (s.hart h.val).fs ≠ 0 →
      Completes (c h w u vs2 vs1 et vd) s fun t => ∃ r : Nat × Nat,
        r = f w u vs2 et ((s.hart h.val).vreg vs1.val) ((s.hart h.val).vreg vs2.val) ((s.hart h.val).vreg vd.val) ∧
          (t.hart h.val).vreg vd.val = r.1 % 2 ^ formBits w ∧ (t.hart h.val).fflags = (s.hart h.val).fflags ||| r.2 ∧
          (t.hart h.val).fs = 3 ∧ (t.hart h.val).pc = ((s.hart h.val).pc + 4) % 2 ^ 64 ∧
          (∀ k, k ≠ vd.val → (t.hart h.val).vreg k = (s.hart h.val).vreg k) ∧
          (∀ k, (t.hart h.val).reg k = (s.hart h.val).reg k) ∧
          (∀ k, k ≠ h.val → t.hart k = s.hart k) ∧ RegsKept [] s t ∧ MemKept s t

/-- A message of control that arrives over the link of position `q` is for this node, of an epoch that it accepts and from a source that
fits, and the node is not in FAULTED (R47, R370, R376). -/
def Heard (s : State) (q : Nat) (h : Header) : Prop :=
  h.dst.val = s.lnode ∧ s.epochOk h = true ∧ s.sourceOk q h = true ∧ s.isIn stFaulted = false

/-- A Crosswind message is accepted: it comes from the partner's position by its link or its detour, in class 7 with epoch 0, while
Crosswind is enabled and the node is not in FAULTED (R47, R376, R467). -/
def FromPartner (s : State) (v : Arrival) : Prop :=
  s.reg .xwEnable = 1 ∧ (if v.h.fwd then s.unusable (s.reg .xwPartner) = true else v.pos.val = s.reg .xwPartner) ∧
    v.h.tclass.val = 7 ∧ v.h.epoch.toNat = 0 ∧ s.isIn stFaulted = false

/-- A request packet in its turn at its target is served, where an ordered contribution finds room in staging, and then what waited
behind it (R375, R382, R389). -/
def Arrives (c : Instr) (q : Nat) (h : Header) (b : Body) : Prop :=
  ∀ s : State, h.dst.val = s.lnode → s.epochOk h = true → s.sourceOk q h = true → s.faultedRefuses ⟨h, b⟩ = false →
    Store.at 0 s.seqIn (orderKey h) = h.seq.toNat → s.hasRoom ⟨h, b⟩ = true →
      Completes c s fun t => ∃ u : State,
        u = ({ s with seqIn := Store.put 0 s.seqIn (orderKey h) ((h.seq.toNat + 1) % 65536) } : State).serve q ⟨h, b⟩ ∧
        t = u.serveEarly (orderKey h) s.early.length

/-- An answer ends the request that it answers, with what it brings (R383). -/
def AnswerArrives (c : Instr) (q : Nat) (h : Header) (data : List Byte) (poison : Bool) (code cause : Nat) : Prop :=
  ∀ (s : State) (r : Request), h.dst.val = s.lnode → s.epochOk h = true → s.sourceOk q h = true → s.asked h = some r →
    Completes c s fun t => t =
      ({ s with requests := s.requests.filter fun (x : Request) => x ≠ r } : State).deliver r data poison code cause

end Sys2Proof.Machine
end

