-- ==== Sys2Proof/Certificates/Slice0/Obligations.lean ====
section
/-! DEFINITION. The statements for the provers. `Completes c s P` says that `exec c s` answers a next state with `P`;
`Leaves l c` and `LeavesRegs l c` say that every register outside `l`, and with the first every byte of memory, reads as
before once `c` has answered a next state. -/

open Sys2Proof Sys2Proof.Machine

/-- Power inputs, rails and the crystal complete (R38, R570, R613, R614, R615, R629, R635, R636). Each command named here
completes. In every state and with all operands that meet the hypotheses of its clause, exec answers a next state with
the node state and the registers of the power inputs, the rails and the crystal that the rules name. Where a clause
rests on what the model chose or read, the log entries named at the command's meaning say so. -/
def Obligations.PowerInputsComplete : Prop :=
  (∀ (s : State),
      s.reg .aonAbsent ≠ 0 →
      Completes .vinAonApplied s fun t =>
        t.reg .aonAbsent = 0 ∧ t.reg .nodeState = 0 ∧ MemKept s t ∧ t.journal = s.journal ∧
          ∀ r, r.info.domain ≠ .board → r ∉ [.auditHead, .auditMirrorHead, .auditAcked] → ∀ i, t.reg r i = r.dflt i) ∧
  (∀ (s : State),
      s.reg .aonAbsent ≠ 1 →
      Completes .vinAonLost s fun t =>
        t.reg .aonAbsent = 1 ∧ t.audit = [] ∧
          ∀ r, r.info.domain = .always → r ≠ .aonAbsent → ∀ i, t.reg r i = r.dflt i) ∧
  (∀ (s : State),
      s.reg .aonAbsent ≠ 1 →
      s.reg .xtalState ≠ 1 →
      Completes .crystalStable s fun t =>
        t.reg .xtalState = 1 ∧ t.reg .mclkRuns = 1 ∧
          (s.reg .nodeState = 0 → s.reg .vinMainIn = 1 → t.reg .nodeState = 1) ∧
          (¬ (s.reg .nodeState = 0 ∧ s.reg .vinMainIn = 1) → t.reg .nodeState = s.reg .nodeState) ∧ MemKept s t) ∧
  (∀ (s : State),
      s.reg .aonAbsent ≠ 1 →
      s.reg .xtalState = 0 →
      Completes .crystalFailTimeout s fun t =>
        t.reg .xtalState = 2 ∧ RegsKept [.xtalState] s t ∧ MemKept s t) ∧
  (∀ (s : State),
      s.reg .mclkRuns ≠ 0 →
      Completes .mclkStop s fun t =>
        t.reg .mclkRuns = 0 ∧ t.reg .xtalState = 0 ∧ t.reg .mgmtLink = 0 ∧
          (s.reg .nodeState ≠ 0 → t.reg .nodeState = 7 ∧ t.reg .jobRunning = 0) ∧
          (s.reg .nodeState = 0 → t.reg .nodeState = 0)) ∧
  (∀ (s : State),
      Completes .vinMainInRange s fun t =>
        t.reg .vinMainIn = 1 ∧
          (s.reg .nodeState = 0 → s.reg .aonAbsent = 0 → s.reg .xtalState = 1 → t.reg .nodeState = 1) ∧
          RegsKept (.vinMainIn :: .nodeState :: auditRegs) s t ∧ MemKept s t) ∧
  (∀ (s : State) (pos : Fin 32),
      s.reg .nodeState = 1 →
      Completes (.pwrOkAsserted pos) s fun t =>
        t.reg .pwrOk = 1 ∧ t.reg .posStrap = pos.val ∧ field (t.reg .physId) 0 5 = pos.val ∧ t.reg .nodeState = 2 ∧
          t.reg .inReset = 1 ∧ t.reg .hostLink = 0 ∧ ∀ k, k < 48 → t.reg .clkMhz k = 0) ∧
  (∀ (s : State) (lost : Bool),
      s.reg .nodeState ≠ 0 →
      Completes (.pwrOkDeasserted lost) s fun t =>
        t.reg .nodeState = 0 ∧ t.reg .resetCause = (if s.reg .thermTrip = 1 then 4 else 3) ∧ t.reg .jobActive = 0 ∧
          (lost = true → t.reg .vinMainIn = 0) ∧ (lost = false → t.reg .pwrOk = 0)) ∧
  (∀ (s : State) (rail : Fin 3),
      s.reg .stackRailsIn ≠ 0 →
      Completes (.stackRailOutOfRange rail) s fun t =>
        t.reg .stackRailsIn = 0 ∧ t.reg .slotValid = 0 ∧ t.mirror = [] ∧ t.shards = [] ∧
          (∀ a, a < 0x20000000000 → t.byte a = 0) ∧
          (s.reg .nodeState ≠ 0 → ¬ (s.reg .nodeState = 2 ∧ s.reg .inReset = 1) → t.reg .nodeState = 7)) ∧
  (∀ (s : State),
      Completes .stackRailsInRange s fun t =>
        t.reg .stackRailsIn = 1 ∧
          (s.reg .nodeState = 2 → s.reg .inReset = 1 → s.reg .rstHeld = 0 → s.reg .pwrOk = 1 →
            t.reg .initStage = 1 ∧ t.reg .inReset = 0))

/-- Cold, warm and held-back resets complete (R40, R629, R630). Each command named here completes. In every state and with
all operands that meet the hypotheses of its clause, exec answers a next state with the node state, the reset cause
and what the reset returns to default. Where a clause rests on what the model chose or read, the log entries named at
the command's meaning say so. -/
def Obligations.ResetsComplete : Prop :=
  (∀ (s : State) (width : Nat),
      10000 ≤ width →
      s.reg .aonAbsent ≠ 1 →
      s.reg .nodeState ≠ 0 →
      Completes (.coldReset width) s fun t =>
        t.reg .nodeState = 2 ∧ t.reg .inReset = 1 ∧ t.reg .resetCause = 1 ∧ t.reg .jobActive = 0 ∧ t.errorLog = [] ∧
          t.bays = [] ∧ t.sessions = [] ∧ ∀ k, k < 48 → t.reg .clkMhz k = 0) ∧
  (∀ (s : State) (width : Nat),
      10000 ≤ width →
      s.reg .aonAbsent ≠ 1 →
      s.reg .nodeState ≠ 0 →
      s.flag .rstHeld 0 0 = false →
      s.reg .fusePulses = 0 →
      Completes (.warmReset width) s fun t =>
        t.reg .nodeState = 2 ∧ t.reg .inReset = 1 ∧ t.reg .resetCause = 2 ∧ t.reg .jobActive = 0 ∧
          t.bays = [] ∧ t.sessions = [] ∧ t.errorLog = s.errorLog ∧ ∀ k, k < 48 → t.reg .clkMhz k = 0) ∧
  (∀ (s : State),
      s.reg .warmWaiting = 1 →
      s.reg .nodeState ≠ 0 →
      Completes .resetAfterFusePulse s fun t =>
        t.reg .nodeState = 2 ∧ t.reg .warmWaiting = 0 ∧ t.reg .resetCause = 2 ∧ t.reg .jobActive = 0) ∧
  (∀ (s : State),
      Completes .resetReleased s fun t =>
        t.reg .rstHeld = 0 ∧
          (s.reg .nodeState = 2 → s.reg .inReset = 1 → s.reg .stackRailsIn = 1 → s.reg .pwrOk = 1 →
            t.reg .initStage = 1 ∧ t.reg .inReset = 0))

/-- PLL faults and clock switches complete (R617, R619, R620, R623). Each command named here completes. In every state and
with all operands that meet the hypotheses of its clause, exec answers a next state with the clock selection,
readiness and frequency registers and the error records of the fault. Where a clause rests on what the model chose or
read, the log entries named at the command's meaning say so. -/
def Obligations.ClocksComplete : Prop :=
  (∀ (s : State) (k : Fin 48) (locks : Bool),
      s.reg .nodeState = 2 →
      s.reg .initStage = 1 →
      clockDomain k = true →
      s.reg .pllMhz k < 65536 →
      Completes (.pllALockTimeout k locks) s fun t =>
        (locks = true → t.reg .clkSel k = 3 ∧ t.reg .clkMhz k = s.reg .pllMhz k ∧ t.reg .clkPllSpare k = 1) ∧
          (locks = false → t.reg .pllFailed k = 1 ∧ t.reg .clkSel k = s.reg .clkSel k) ∧ MemKept s t) ∧
  (∀ (s : State) (k : Fin 48),
      clockDomain k = true →
      2 ≤ s.reg .clkSel k →
      bit (s.reg .clkReady k) (s.reg .clkSel k) = true →
      Completes (.pllLossOfLock k) s fun t =>
        t.reg .clkMhz k = 0 ∧ t.reg .clkSwitching k = 1 ∧ RegsKept [.clkReady, .clkMhz, .clkSwitching] s t ∧
          MemKept s t) ∧
  (∀ (s : State) (k : Fin 48) (spareLocked : Bool),
      s.reg .clkSwitching k ≠ 0 →
      Completes (.clockMuxHang k spareLocked) s fun t =>
        t.reg .clkSel k = 0 ∧ t.reg .clkMhz k = 25 ∧ t.reg .domainResets = (s.reg .domainResets + 1) % 4294967296 ∧
          t.reg .clkSwitching k = (match s.pllAfterReset k spareLocked with | none => 0 | some p => 1 + p)) ∧
  (∀ (s : State) (k : Fin 48),
      s.reg .nodeState ≠ 0 →
      clockDomain k = true →
      s.reg .clkSel k = 0 →
      s.reg .clkSwitching k = 0 →
      s.reg .clkReady k < 4 →
      s.reg .inReset = 0 →
      s.reg .initStage ≠ 1 →
      Completes (.sparePllLockTimeout k) s fun t =>
        t.reg .nodeState = 7 ∧ t.reg .jobRunning = 0 ∧ (s.startWaits = false → MemKept s t)) ∧
  (∀ (s : State) (k : Fin 48),
      s.reg .clkSwitching k ≠ 0 →
      s.reg .clkSwitching k < 256 →
      bit (s.reg .clkReady k) (s.reg .clkSwitching k - 1) = true →
      s.reg .clkMhz k ≠ 0 →
      s.reg .pllMhz k < 65536 →
      Completes (.clockSwitchComplete k) s fun t =>
        t.reg .clkSel k = s.reg .clkSwitching k - 1 ∧ t.reg .clkSwitching k = 0 ∧
          t.reg .clkMhz k = (if 3 ≤ s.reg .clkSwitching k then s.reg .pllMhz k else 25) ∧
          RegsKept (.clkSel :: .clkSwitching :: .clkMhz :: auditRegs) s t ∧ MemKept s t)

/-- Power samples, throttles and thermal trips complete (R638, R639, R640, R643, R647). Each command named here completes.
In every state and with all operands that meet the hypotheses of its clause, exec answers a next state with the power
and temperature registers, the throttle state and the trip. Where a clause rests on what the model chose or read, the
log entries named at the command's meaning say so. -/
def Obligations.PowerAndCoolingComplete : Prop :=
  (∀ (s : State) (mv ma stackMw : Nat),
      s.reg .nodeState ≠ 0 →
      s.reg .inReset ≠ 1 →
      s.reg .aonAbsent ≠ 1 →
      Completes (.powerSample mv ma stackMw) s fun t =>
        t.reg .powerSamples = (s.reg .powerSamples + 1) % 18446744073709551616 ∧ t.reg .vinMainMv = mv % 65536 ∧
          t.reg .vinMainA = ma / 1000 % 65536 ∧
          t.reg .powerRing (s.reg .powerSamples % 10) = (mv * ma / 1000 + stackMw) % Reg.modulus .powerRing) ∧
  (∀ (s : State),
      s.reg .pkgPower * 1000 * 100 ≤ s.powerLimit.1 * 97 →
      s.reg .vinMainA < 480 →
      s.reg .fixedTiming ≠ 1 →
      Completes .throttleStepUp s fun t =>
        bit (t.reg .throttleState) 2 = false ∧ MemKept s t) ∧
  (∀ (s : State) (ma : Nat),
      520000 < ma →
      s.reg .nodeState ≠ 0 →
      s.reg .arrayThrottle = 0 →
      Completes (.arrayThrottleStart ma) s fun t =>
        t.reg .arrayThrottle = 1) ∧
  (∀ (s : State),
      Completes .arrayThrottleEnd s fun t =>
        t.reg .arrayThrottle = 0 ∧ RegsKept [.arrayThrottle] s t ∧ MemKept s t) ∧
  (∀ (s : State) (readings : List (Option Int)),
      s.reg .nodeState ≠ 0 →
      s.reg .inReset ≠ 1 →
      s.flag .periphEn 0 5 = true →
      Completes (.thermalSample readings) s fun t =>
        bit (t.reg .throttleState) 0 = (List.range 46).any (fun e => t.reg .elementHot e = 1)) ∧
  (∀ (s : State) (sensor : Fin 128),
      s.reg .nodeState ≠ 0 →
      Completes (.hardwareThermalTrip sensor) s fun t =>
        t.reg .nodeState = 7 ∧ t.reg .thermTrip = 1 ∧ t.reg .lastTrip = sensor.val ∧ t.reg .resetCause = 4 ∧
          t.reg .regulatorsOff = 1 ∧
          (∀ k, k < 10 → t.reg .clkMhz k = 0) ∧ (s.startWaits = false → MemKept s t))

/-- Requested node states and clock sources complete (R30, R38, R39, R42, R619, R625, R646, R650). Each command named here
completes. In every state and with all operands that meet the hypotheses of its clause, exec answers a next state with
the request register, the node state and the register that the request drives. Where a clause rests on what the model
chose or read, the log entries named at the command's meaning say so. -/
def Obligations.RequestedStatesComplete : Prop :=
  (∀ (s : State) (q : Requester) (k : Fin 48) (v : Byte),
      Accepts s q .clkSel k [v] →
      Completes (.clkSelWrite q k v) s fun t =>
        Answered q (Reg.clkSel.objAt k) t ∧ t.reg .clkSel k = v.toNat ∧ t.reg .clkSwitching k = (1 + v.toNat) % 256) ∧
  (∀ (s : State) (q : Requester) (k : Fin 48) (v : Byte),
      Accepts s q .clkSel k [v] →
      Completes (.readyFlagSwitch q k v) s fun t =>
        Answered q (Reg.clkSel.objAt k) t ∧ t.reg .clkSel k = v.toNat ∧ t.reg .clkSwitching k = (1 + v.toNat) % 256) ∧
  (∀ (s : State) (q : Requester),
      Accepts s q .stateRequest 0 [5] →
      Completes (.stateRequestLull q) s fun t =>
        Answered q (Reg.stateRequest.objAt 0) t ∧ t.reg .stateRequest = 5 ∧ t.reg .nodeState = s.reg .nodeState) ∧
  (∀ (s : State) (q : Requester),
      Accepts s q .serviceRequest 0 [1] →
      Completes (.serviceRequestEnter q) s fun t =>
        Answered q (Reg.serviceRequest.objAt 0) t ∧ t.reg .nodeState = 8) ∧
  (∀ (s : State) (q : Requester),
      Accepts s q .serviceRequest 0 [0] →
      s.reg .nodeState = 8 →
      Completes (.serviceRequestExit q) s fun t =>
        Answered q (Reg.serviceRequest.objAt 0) t ∧ t.reg .nodeState = 2 ∧ t.reg .resetCause = 2) ∧
  (∀ (s : State) (q : Requester) (v : Word),
      Accepts s q .location 0 (leBytes 4 v.toNat) →
      Completes (.locationWrite q v) s fun t =>
        Answered q (Reg.location.objAt 0) t ∧ t.reg .location = field v.toNat 5 18 * 32 + 2 ^ 31 ∧
          t.reg .physId = (field v.toNat 5 18 * 32 + s.reg .posLatch) % 2 ^ 32) ∧
  (∀ (s : State),
      s.reg .stateRequest = 5 →
      (s.reg .nodeState = 4 ∨ s.reg .nodeState = 6) →
      Completes .lullDeadlineExpiry s fun t =>
        t.reg .stateRequest = 0 ∧ t.reg .nodeState = s.reg .nodeState ∧ Records s t 0x0C 5 0 0 0) ∧
  (∀ (s : State) (e : Fin 46) (x : Int),
      s.hottest e = some x →
      s.reg .elementHot e = 1 →
      s.reg .floorAt e ≠ 0 →
      (s.reg .tjThrottle * 16 : Int) + 48 ≤ x →
      Completes (.thermalFloorTimeout e) s fun t =>
        (s.reg .nodeState = 4 → s.reg .jobRunning = 1 → s.inTransition = false → t.reg .stateRequest = 5) ∧
          t.reg .nodeState = s.reg .nodeState) ∧
  (∀ (s : State),
      s.reg .coolantState = 0 →
      (s.setReg .coolFlow 0 s.coolFlowNow).coolantBad = true →
      s.reg .nodeState ≠ 0 →
      Completes .coolantLow s fun t =>
        t.reg .coolantState = 1 ∧ bit (t.reg .alertCause) 4 = true ∧ t.reg .nodeState = s.reg .nodeState) ∧
  (∀ (s : State),
      s.reg .coolantState = 1 →
      (s.setReg .coolFlow 0 s.coolFlowNow).coolantBad = false →
      Completes .coolantClear s fun t =>
        t.reg .coolantState = 0 ∧ RegsKept (.coolFlow :: .coolantState :: auditRegs) s t ∧ MemKept s t)

/-- The freeze trigger and the monitors complete (R653, R654, R658, R662, R663, R664, R665). Each command named here
completes. In every state and with all operands that meet the hypotheses of its clause, exec answers a next state with
the freeze state, its record and dump, and the monitors. Where a clause rests on what the model chose or read, the log
entries named at the command's meaning say so. -/
def Obligations.FreezeComplete : Prop :=
  (∀ (s : State) (q : Requester),
      Accepts s q .freezeCmd 0 [1] →
      s.reg .freezeState = 1 →
      s.flag .freezeSrcEn 0 0 = true →
      Completes (.freezeCmdTrigger q) s fun t =>
        Answered q (Reg.freezeCmd.objAt 0) t ∧ t.reg .freezeState = 2 ∧ t.frozen.isSome = true ∧
          t.reg .freezeGen = (s.reg .freezeGen + 1) % 2 ^ 32) ∧
  (∀ (s : State) (q : Requester),
      Accepts s q .freezeCmd 0 [2] →
      Completes (.freezeCmdRearm q) s fun t =>
        Answered q (Reg.freezeCmd.objAt 0) t ∧ t.reg .freezeState = 1 ∧ t.reg .freezeCmd = 0 ∧ t.reg .dumpWaits = 0) ∧
  (∀ (s : State) (q : Requester),
      Accepts s q .freezeCmd 0 [3] →
      Completes (.freezeCmdDisarm q) s fun t =>
        Answered q (Reg.freezeCmd.objAt 0) t ∧ t.reg .freezeState = 0 ∧ t.reg .freezeCmd = 0 ∧ t.reg .dumpWaits = 0) ∧
  (∀ (s : State) (width : Nat),
      80 ≤ width →
      s.flag .freezeSrcEn 0 4 = true →
      s.reg .freezeState = 1 →
      Completes (.snapTrigEdge width) s fun t =>
        t.reg .freezeState = 2 ∧ t.frozen.isSome = true ∧ t.reg .freezeGen = (s.reg .freezeGen + 1) % 2 ^ 32) ∧
  (∀ (s : State),
      s.reg .freezeHold ≠ 0 →
      (s.reg .freezeState = 2 ∨ s.reg .freezeState = 3) →
      Completes .freezeHoldExpiry s fun t =>
        t.reg .freezeState = 1 ∧ t.reg .dumpWaits = 0 ∧ t.frozen = s.frozen ∧
          RegsKept [.freezeState, .dumpWaits] s t ∧ MemKept s t) ∧
  (∀ (s : State) (k : Fin 48) (v : SetView),
      s.frozen = some v →
      v.stopped k.val = true →
      s.reg .clkMhz k.val ≠ 0 →
      (s.late.lookup k.val).isNone = true →
      Completes (.lateLatch k) s fun t =>
        t.late = s.late ++ [(k.val, s.setView v.draw)] ∧ t.regs = s.regs ∧ MemKept s t) ∧
  (∀ (s : State),
      s.reg .freezeState = 2 →
      s.reg .dumpWaits = 1 →
      Completes .freezeDumpComplete s fun t =>
        t.reg .freezeState = 3 ∧ t.reg .dumpWaits = 0 ∧ t.frozen = s.frozen) ∧
  (∀ (s : State) (f : LoadFacts),
      s.supervisorUp = true →
      Completes (.levelSatRefresh f) s fun t =>
        (∀ i, i < 8 → t.reg .levelSat i = (f.levels.map Fin.val).getD i 0 % Reg.modulus .levelSat) ∧
          RegsKept [.levelSat, .latHist, .sliceSatCycles, .linkSatCycles, .stackLoad, .linkLoad] s t ∧ MemKept s t) ∧
  (∀ (s : State) (q : Requester) (v : Byte),
      Accepts s q .latClear 0 [v] →
      Completes (.latClearWrite q v) s fun t =>
        Answered q (Reg.latClear.objAt 0) t ∧ t.reg .latClear = 0 ∧ (v.toNat = 1 →
          ∀ i, t.reg .latHist i = Reg.dflt .latHist i)) ∧
  (∀ (s : State),
      Completes .errorRateWindow s fun t =>
        (∀ c, c < 28 → t.reg .errorRate (2 * c) = 0) ∧ RegsKept [.ratePast, .errorRate] s t ∧ MemKept s t)

/-- TAI and the management port complete (R583, R605, R606, R607, R608, R611). Each command named here completes. In every
state and with all operands that meet the hypotheses of its clause, exec answers a next state with the TAI state and
offset, and the addresses and answers of the management port. Where a clause rests on what the model chose or read,
the log entries named at the command's meaning say so. -/
def Obligations.TimeComplete : Prop :=
  (∀ (s : State) (master : Dword) (domain : Byte) (utc offset : Int) (settled : Bool),
      s.ptpOn = true →
      s.reg .ptpEnable ≠ 0 →
      domain.toNat = s.reg .ptpDomain →
      s.reg .ppsMode ≠ 2 →
      s.portAnswers .management = true →
      Completes (.ptpMessage master domain utc offset settled) s fun t =>
        t.reg .ptpMaster = master.toNat ∧ t.reg .utcOffset = unsigned 32 utc % 2 ^ 32 ∧
          (s.reg .taiState = 0 ∨ s.reg .taiState = 4 → t.reg .taiState = 1) ∧
          (s.reg .taiState = 1 → settled = true → t.reg .taiState = 2) ∧ (s.reg .taiState = 3 → t.reg .taiState = 3)) ∧
  (∀ (s : State),
      s.ptpOn = true →
      s.reg .ppsMode ≠ 0 →
      Completes .ppsEdge s fun t =>
        (s.reg .ppsMode = 2 → s.reg .taiState = 0 → t.reg .taiState = 1) ∧
          (s.reg .ppsMode = 2 → s.reg .taiState = 1 → t.reg .taiState = 3) ∧
          (s.reg .taiState = 2 → s.reg .ppsMode = 1 → s.toSecond.natAbs ≤ 100000 → t.reg .taiState = 3) ∧
          (s.reg .taiState = 3 → 100000 < s.toSecond.natAbs → t.reg .taiState = 3 ∧
            t.reg .ppsRejected = (s.reg .ppsRejected + 1) % Reg.modulus .ppsRejected) ∧ MemKept s t) ∧
  (∀ (s : State),
      s.ptpOn = true →
      1 ≤ s.reg .taiState →
      s.reg .taiState ≤ 3 →
      Completes .ptpReferenceSilent s fun t =>
        t.reg .taiState = 4 ∧ MemKept s t) ∧
  (∀ (s : State) (q : Requester) (v : Dword),
      Accepts s q .taiSet 0 (leBytes 8 v.toNat) →
      Completes (.taiSetWrite q v) s fun t =>
        Answered q (Reg.taiSet.objAt 0) t ∧ (s.reg .taiWasLocked = 0 → t.reg .taiOffset = v.toNat)) ∧
  (∀ (s : State) (addr mask gateway : Word),
      s.portAnswers .management = true →
      Completes (.mgmtAddressRenewal addr mask gateway) s fun t =>
        t.reg .mgmtLink = 1 ∧ t.reg .ipv4 = (if s.reg .mgmtIpv4 = 0 then addr.toNat else s.reg .mgmtIpv4 % 2 ^ 32) ∧
          RegsKept [.mgmtLink, .ipv4, .ipv4Mask, .ipv4Gateway] s t ∧ MemKept s t) ∧
  (∀ (s : State) (source : Nat) (target : Word),
      s.portAnswers .management = true →
      s.reg .ipv4 ≠ 0 →
      target.toNat = s.reg .ipv4 →
      Completes (.arpRequest source target) s fun t =>
        t = s.send (.arp source (s.reg .mgmtMac))) ∧
  (∀ (s : State) (source : Nat) (target : Word) (data : List Byte),
      s.portAnswers .management = true →
      s.reg .ipv4 ≠ 0 →
      target.toNat = s.reg .ipv4 →
      Completes (.icmpEcho source target data) s fun t =>
        t = s.send (.echo source data))

/-- Object writes and the audit log complete (R579, R580, R581, R590, R597, R598, R601, R602, R611). Each command named
here completes. In every state and with all operands that meet the hypotheses of its clause, exec answers a next state
with the object written and the audit entry, mirror and hold registers. Where a clause rests on what the model chose
or read, the log entries named at the command's meaning say so. -/
def Obligations.AuditLogComplete : Prop :=
  (∀ (s : State) (q : Requester) (obj : ObjAddr) (offset : Word) (data : List Byte) (peers : Option Half),
      s.portAnswers q.port = true →
      Completes (.objectWrite q obj offset data peers) s fun t =>
        t.out.head? = some (.dictionary q obj.toNat (s.writePiece q obj.toNat offset.toNat data peers).1)) ∧
  (∀ (s : State) (q : Requester) (obj : ObjAddr) (offset : Word) (data : List Byte) (peers : Option Half) (r : Reg)
    (inst : Nat) (v : List Byte),
      obj.toNat = r.objAt inst →
      AcceptsPiece s q r inst offset.toNat data peers v →
      Completes (.objectWrite q obj offset data peers) s fun t =>
        t = (s.written q r inst v).answer q obj.toNat resOk) ∧
  (∀ (s : State) (q : Requester) (obj : ObjAddr) (offset : Word) (data : List Byte) (peers : Option Half) (r : Reg)
    (inst : Nat),
      s.portAnswers q.port = true →
      s.supervisorServes = true →
      s.unknownSession q = false →
      Reg.atAddr obj.toNat = some (r, inst) →
      blobs.contains r = true →
      data ≠ [] →
      offset.toNat + data.length < r.size →
      Completes (.objectWrite q obj offset data peers) s fun t =>
        Answered q obj.toNat t ∧ t.regs = s.regs ∧ t.audit = s.audit ∧ MemKept s t ∧
          t.assemblies = (s.dropAssemblies q).assemblies ++ [(⟨q, obj.toNat,
            ((s.assemblies.find? fun a => sameSession a.who q && decide (a.obj = obj.toNat)).map
              Assembly.pieces).getD [] ++ [(offset.toNat, data)]⟩ : Assembly)]) ∧
  (∀ (s : State) (q : Requester),
      Completes (.blobAssemblyTimeout q) s fun t =>
        (∀ a ∈ t.assemblies, sameSession a.who q = false) ∧ t.regs = s.regs ∧ MemKept s t) ∧
  (∀ (s : State),
      s.supervisorServes = true →
      Completes .dictAnswerLate s fun t =>
        t.reg .dictLate = (s.reg .dictLate + 1) % Reg.modulus .dictLate ∧ Records s t 0x0C 5 0 0x0E (s.reg .supActive)) ∧
  (∀ (s : State) (e : AuditEntry),
      (s.audit.reverse.find? fun x => decide (s.reg .auditMirrorHead < x.seq)) = some e →
      s.stacksTrained = true →
      Completes .auditMirrorCopy s fun t =>
        t.mirror.head? = some e ∧ t.reg .auditMirrorHead = e.seq % 2 ^ 64 ∧
          RegsKept [.auditMirrorHead, .auditAcked] s t ∧ MemKept s t) ∧
  (∀ (s : State) (q : Requester) (v : Dword),
      Accepts s q .auditAckHost 0 (leBytes 8 v.toNat) →
      Completes (.auditAckHostWrite q v) s fun t =>
        Answered q (Reg.auditAckHost.objAt 0) t ∧
          t.reg .hostHoldAcked = max (s.reg .hostHoldAcked) v.toNat % 2 ^ 64 ∧ t.audit = s.audit) ∧
  (∀ (s : State) (q : Requester) (v : Byte),
      Accepts s q .auditHostHold 0 [v] →
      Completes (.auditHostHoldWrite q v) s fun t =>
        Answered q (Reg.auditHostHold.objAt 0) t ∧ t.reg .auditHostHold = v.toNat ∧ (v.toNat = 1 →
          t.reg .hostHoldAcked = t.reg .auditHead)) ∧
  (∀ (s : State) (n : Fin 4) (u : Subscription),
      (s.subs.find? fun x => decide (x.number = n.val) && x.audit && x.hold) = some u →
      s.supervisorServes = true →
      u.acked + 1 < u.next →
      Completes (.auditResendTimeout n) s fun t =>
        t.regs = s.regs ∧ (∀ x ∈ s.out, x ∈ t.out) ∧ MemKept s t ∧
          t.out = (s.sendEvents u.who (u.acked + 1)).out) ∧
  (∀ (s : State) (n : Fin 4) (u : Subscription),
      (s.subs.find? fun x => decide (x.number = n.val) && x.audit && x.hold) = some u →
      u.acked < s.reg .auditHead →
      Completes (.auditHoldTimeout n) s fun t =>
        (∀ x ∈ t.subs, x.number ≠ n.val) ∧ MemKept s t) ∧
  (∀ (s : State) (n : Fin 4) (u : Subscription),
      (s.subs.find? fun x => decide (x.number = n.val) && !x.audit) = some u →
      s.supervisorServes = true →
      Completes (.samplePeriod n) s fun t =>
        (∃ bs, t.out = .jp2 u.who 0x24 0 0 0 0 (leBytes 8 s.tai ++ bs) :: s.out) ∧ t.regs = s.regs ∧ MemKept s t)

/-- The SPDM responder answers every request (R560, R561, R562). Each command named here completes. In every state and
with all operands that meet the hypotheses of its clause, exec answers a next state with the answer sent and the
session that the message opens, finishes or ends. Where a clause rests on what the model chose or read, the log
entries named at the command's meaning say so. -/
def Obligations.SpdmComplete : Prop :=
  (∀ (s : State) (q : Requester),
      s.portAnswers q.port = true →
      s.supervisorServes = true →
      Completes (.getVersion q) s fun t =>
        t.out = .spdm q (.version 1 3) :: s.out ∧ t.regs = s.regs) ∧
  (∀ (s : State) (q : Requester),
      s.portAnswers q.port = true →
      s.supervisorServes = true →
      Completes (.getCapabilities q) s fun t =>
        t.out = .spdm q .capabilities :: s.out ∧ t.regs = s.regs) ∧
  (∀ (s : State) (q : Requester),
      s.portAnswers q.port = true →
      s.supervisorServes = true →
      Completes (.negotiateAlgorithms q) s fun t =>
        t.out = .spdm q .algorithms :: s.out ∧ t.regs = s.regs) ∧
  (∀ (s : State) (q : Requester),
      s.portAnswers q.port = true →
      s.supervisorServes = true →
      Completes (.getDigests q) s fun t =>
        t.out = .spdm q (.digests Config.certChainDigest.toNat) :: s.out ∧ t.regs = s.regs) ∧
  (∀ (s : State) (q : Requester) (slot : Byte) (offset len : Half),
      s.portAnswers q.port = true →
      s.supervisorServes = true →
      Completes (.getCertificate q slot offset len) s fun t =>
        t.out.head? = some (.spdm q (if slot.toNat = 0 then
            .certificate ((Config.certChain.drop offset.toNat).take len.toNat) else .error)) ∧ t.regs = s.regs) ∧
  (∀ (s : State) (q : Requester),
      s.portAnswers q.port = true →
      s.supervisorServes = true →
      Completes (.challenge q) s fun t =>
        (∃ k, t.out = .spdm q (.challengeAuth k) :: s.out) ∧ t.regs = s.regs) ∧
  (∀ (s : State) (q : Requester) (index : Byte),
      s.portAnswers q.port = true →
      s.supervisorServes = true →
      (index.toNat = 0xFF ∨ (1 ≤ index.toNat ∧ index.toNat ≤ 5)) →
      Completes (.getMeasurements q index) s fun t =>
        (∃ ms k, t.out = .spdm q (.measurements ms k) :: s.out ∧ ms ≠ []) ∧ t.regs = s.regs) ∧
  (∀ (s : State) (q : Requester) (id : Word),
      s.portAnswers q.port = true →
      s.supervisorServes = true →
      s.sessionOf q.port id.toNat = none →
      Completes (.keyExchange q id) s fun t =>
        (∃ k, t.out = .spdm q (.keyExchangeRsp id.toNat k) :: s.out) ∧
          t.sessions = ⟨q.port, id.toNat, 0, 0, false, 0⟩ :: s.sessions ∧ t.regs = s.regs) ∧
  (∀ (s : State) (q : Requester) (id : Word) (leaf root : BitVec 384) (verified : Bool) (x : Session),
      s.portAnswers q.port = true →
      s.supervisorServes = true →
      s.sessionOf q.port id.toNat = some x →
      x.finished = false →
      verified = true →
      Completes (.finish q id leaf root verified) s fun t =>
        t.out = .spdm q .finishRsp :: s.out ∧
          t.sessionOf q.port id.toNat = some { x with leaf := leaf.toNat, root := root.toNat, finished := true } ∧
            t.regs = s.regs) ∧
  (∀ (s : State) (q : Requester),
      s.portAnswers q.port = true →
      s.supervisorServes = true →
      (s.namedSession q).isSome = true →
      Completes (.heartbeat q) s fun t =>
        t.out = .spdm q .heartbeatAck :: s.out ∧ t.regs = s.regs ∧ t.sessions = s.sessions) ∧
  (∀ (s : State) (q : Requester) (x : Session),
      s.portAnswers q.port = true →
      s.supervisorServes = true →
      s.namedSession q = some x →
      Completes (.keyUpdate q) s fun t =>
        t.out = .spdm q .keyUpdateAck ::
          s.out ∧ t.regs = s.regs ∧ (x ∈ s.sessions → { x with keyGeneration := x.keyGeneration + 1 } ∈ t.sessions)) ∧
  (∀ (s : State) (q : Requester) (x : Session),
      s.portAnswers q.port = true →
      s.supervisorServes = true →
      s.namedSession q = some x →
      Completes (.endSession q) s fun t =>
        t.out = .spdm q .endSessionAck :: s.out ∧ t.sessionOf x.port x.id = none ∧ RegsKept [.auditAcked] s t) ∧
  (∀ (s : State) (port : Port) (id : Word),
      (s.sessionOf port id.toNat).isSome = true →
      Completes (.heartbeatMissed port id) s fun t =>
        t.sessionOf port id.toNat = none ∧ RegsKept [.auditAcked] s t ∧ MemKept s t)

/-- The dictionary window and the JP1, JP2 and JTAG messages complete (R538, R577, R585, R586, R588, R590, R598, R602).
Each command named here completes. In every state and with all operands that meet the hypotheses of its clause, exec
answers a next state with the answer sent and the window registers or subscriptions. Where a clause rests on what the
model chose or read, the log entries named at the command's meaning say so. -/
def Obligations.WindowAndMessagesComplete : Prop :=
  (∀ (s : State) (addr offset len : Word) (seq : Dword),
      s.portAnswers .host = true →
      Completes (.winCmdRead addr offset len seq) s fun t =>
        t.reg .winStatus = 2 ∧ t.reg .winSeq = seq.toNat ∧
          t.reg .winError = (if len.toNat = 0 ∨ 3840 < len.toNat then 0x95 else
            ((s.setWindow 1 addr.toNat offset.toNat len.toNat seq.toNat).serveRead hostRequester (addr.toNat % 2 ^ 24)
              offset.toNat len.toNat).1 % 256)) ∧
  (∀ (s : State) (addr offset : Word) (seq : Dword) (data : List Byte) (peers : Option Half),
      s.portAnswers .host = true →
      data.length ≤ 3840 →
      Completes (.winCmdWrite addr offset seq data peers) s fun t =>
        t.reg .winStatus = 2 ∧ (data = [] → t.reg .winError = 0x95)) ∧
  (∀ (s u : State) (addr offset : Word) (seq : Dword) (data : List Byte) (peers : Option Half) (r : Reg) (inst : Nat)
    (v : List Byte),
      data ≠ [] →
      data.length ≤ 3840 →
      u = (s.setWindow 2 addr.toNat offset.toNat data.length seq.toNat).setRegs .winData 0 (data.map BitVec.toNat) →
      addr.toNat % 2 ^ 24 = r.objAt inst →
      AcceptsPiece u hostRequester r inst offset.toNat data peers v →
      Completes (.winCmdWrite addr offset seq data peers) s fun t =>
        t = (u.written hostRequester r inst v).windowDone resOk) ∧
  (∀ (s : State) (q : Requester) (rseq : Dword) (obj : ObjAddr) (offset len : Word),
      s.portAnswers q.port = true →
      q.session = none →
      (s.answers.find? fun a => sameSource a.who q && decide (a.rseq = rseq.toNat)) = none →
      len.toNat ≤ 1400 →
      Completes (.jp2Read q rseq obj offset len) s fun t =>
        Output.jp2 q 0x02 rseq.toNat obj.toNat (s.serveRead q obj.toNat offset.toNat len.toNat).1 offset.toNat
            (s.serveRead q obj.toNat offset.toNat len.toNat).2.1 ∈ t.out) ∧
  (∀ (s : State) (q : Requester) (rseq : Dword) (obj : ObjAddr) (offset : Word) (data : List Byte) (peers : Option Half),
      s.portAnswers q.port = true →
      q.session = none →
      (s.answers.find? fun a => sameSource a.who q && decide (a.rseq = rseq.toNat)) = none →
      s.supervisorServes = true →
      data.length ≤ 1400 →
      Completes (.jp2Write q rseq obj offset data peers) s fun t =>
        Output.jp2 q 0x04 rseq.toNat obj.toNat (s.writePiece q obj.toNat offset.toNat data peers).1 offset.toNat [] ∈
          t.out) ∧
  (∀ (s : State) (q : Requester) (rseq : Dword) (obj : ObjAddr) (offset : Word) (data : List Byte) (peers : Option Half)
    (r : Reg) (inst : Nat) (v : List Byte),
      q.session = none →
      (s.answers.find? fun a => sameSource a.who q && decide (a.rseq = rseq.toNat)) = none →
      data.length ≤ 1400 →
      obj.toNat = r.objAt inst →
      AcceptsPiece s q r inst offset.toNat data peers v →
      Completes (.jp2Write q rseq obj offset data peers) s fun t =>
        t = ((s.written q r inst v).reply q rseq.toNat
          (.jp2 q 4 rseq.toNat obj.toNat resOk offset.toNat [])).pumpAudit) ∧
  (∀ (s : State) (q : Requester) (rseq : Dword) (m : SpdmRequest),
      s.portAnswers q.port = true →
      q.session = none →
      (s.answers.find? fun a => sameSource a.who q && decide (a.rseq = rseq.toNat)) = none →
      s.supervisorServes = true →
      Completes (.jp2Spdm q rseq m) s fun t =>
        t.out.head? = some (.spdm q (s.spdm q m).1)) ∧
  (∀ (s : State) (q : Requester) (rseq : Dword) (obj : ObjAddr) (offset len : Word) (peers : Option Half) (n : Nat)
    (x : Session),
      s.portAnswers q.port = true →
      q.session = some n →
      s.sessionOf q.port n = some x →
      x.finished = true →
      (s.answers.find? fun a => sameSource a.who q && decide (a.rseq = rseq.toNat)) = none →
      len.toNat ≤ 1400 →
      Completes (.jp2Secured q true rseq obj offset (.read len) peers) s fun t =>
        Output.jp2 q 0x02 rseq.toNat obj.toNat (s.serveRead q obj.toNat offset.toNat len.toNat).1 offset.toNat
            (s.serveRead q obj.toNat offset.toNat len.toNat).2.1 ∈ t.out) ∧
  (∀ (s : State) (m : Jp2Message) (peers : Option Half) (len : Word),
      m.magic.toNat = 0x324A →
      m.version.toNat = 2 →
      m.session.toNat = 0 →
      m.secured = none →
      m.body = .read len →
      len.toNat ≤ 1400 →
      s.portAnswers .jtag = true →
      (s.answers.find? fun a => sameSource a.who ⟨.jtag, none, 0⟩ && decide (a.rseq = m.rseq.toNat)) = none →
      Completes (.jdict m peers) s fun t =>
        Output.jp2 ⟨.jtag, none, 0⟩ 0x02 m.rseq.toNat m.obj.toNat (s.serveRead ⟨.jtag, none,
          0⟩ m.obj.toNat m.offset.toNat len.toNat).1
            m.offset.toNat (s.serveRead ⟨.jtag, none, 0⟩ m.obj.toNat m.offset.toNat len.toNat).2.1 ∈ t.out) ∧
  (∀ (s : State) (q : Requester) (rseq : Dword) (objects : List ObjAddr) (periodUs n : Nat),
      s.portAnswers q.port = true →
      q.session = none →
      (s.answers.find? fun a => sameSource a.who q && decide (a.rseq = rseq.toNat)) = none →
      s.supervisorServes = true →
      s.freeSub = some n →
      objects ≠ [] →
      objects.length ≤ 64 →
      1000 ≤ periodUs →
      periodUs ≤ 60000000 →
      Completes (.subOpenSample q rseq objects periodUs) s fun t =>
        Output.jp2 q 0x25 rseq.toNat 0 resOk 0 (leBytes 1 n ++ ((objects.map BitVec.toNat).filter fun a => !s.samples
          q a).flatMap
            (leBytes 3)) ∈ t.out ∧ ∃ u, u ∈ t.subs ∧ u.number = n ∧ u.who = q ∧ u.audit = false ∧ u.period = periodUs) ∧
  (∀ (s : State) (q : Requester) (rseq start : Dword) (hold : Bool) (n : Nat),
      s.portAnswers q.port = true →
      q.session = none →
      (s.answers.find? fun a => sameSource a.who q && decide (a.rseq = rseq.toNat)) = none →
      s.supervisorServes = true →
      s.freeSub = some n →
      Completes (.subOpenAudit q rseq start hold) s fun t =>
        Output.jp2 q 0x25 rseq.toNat 0 resOk 0 (leBytes 1 n) ∈ t.out ∧
          ∃ u, u ∈ t.subs ∧ u.number = n ∧ u.who = q ∧ u.audit = true ∧ u.hold = hold) ∧
  (∀ (s : State) (q : Requester) (rseq seq : Dword) (u : Subscription),
      s.portAnswers q.port = true →
      q.session = none →
      (s.answers.find? fun a => sameSource a.who q && decide (a.rseq = rseq.toNat)) = none →
      s.supervisorServes = true →
      (s.subs.find? fun x => x.audit && x.hold && sameSource x.who q) = some u →
      Completes (.subAck q rseq seq) s fun t =>
        Output.jp2 q 0x25 rseq.toNat 0 resOk 0 (leBytes 1 u.number) ∈ t.out ∧
          ∀ x ∈ t.subs, x.audit = true → x.hold = true → sameSource x.who q = true →
            min seq.toNat (s.reg .auditHead) ≤ x.acked) ∧
  (∀ (s : State) (q : Requester) (rseq : Dword) (number : Byte) (u : Subscription),
      s.portAnswers q.port = true →
      q.session = none →
      (s.answers.find? fun a => sameSource a.who q && decide (a.rseq = rseq.toNat)) = none →
      s.supervisorServes = true →
      s.subOf q number.toNat = some u →
      Completes (.subClose q rseq number) s fun t =>
        Output.jp2 q 0x25 rseq.toNat 0 resOk 0 (leBytes 1 number.toNat) ∈ t.out ∧ ∀ x ∈ t.subs, x.number ≠ number.toNat) ∧
  (∀ (s : State) (source : Nat) (r : Jp1Request),
      s.portAnswers .management = true →
      s.reg .jp1Enable ≠ 0 →
      Completes (.jp1Request source r) s fun t =>
        ∃ obj code bs, t.out.head? = some (.jp1 source obj code bs) ∧
          (∀ a, r = .read a → obj = a.toNat ∧ (objectLength a.toNat ≤ 256 →
            code = (s.serveRead ⟨.management, none, source⟩ a.toNat 0 (objectLength a.toNat)).1)) ∧
          (∀ a data, r = .write a data → code = resUnsupported))

/-- Link training, lane tests and link commands complete (R351, R356, R358, R359, R360, R362, R363, R404, R488). Each
command named here completes. In every state and with all operands that meet the hypotheses of its clause, exec
answers a next state with the link state, generation and lane map, and what follows from a link lost. Where a clause
rests on what the model chose or read, the log entries named at the command's meaning say so. -/
def Obligations.LinksComplete : Prop :=
  (∀ (s : State) (l : Fin 24),
      s.lanesOn = true →
      s.reg .linkState l = 0 →
      Completes (.linkTrainingStart l) s fun t =>
        t.reg .linkState l = 1) ∧
  (∀ (s : State) (l : Fin 24) (far : FarEnd),
      s.reg .linkState l = 1 →
      Completes (.linkUp l far) s fun t =>
        t.reg .linkState l = (if s.wiredRight l far then 2 else 5) ∧ t.reg .linkPeer l = far.physId.toNat ∧
          (s.wiredRight l far = true → t.reg .linkGen l = (if far.is9200 && decide (far.genMax.val = 3 ∧
            s.reg .linkGenMax l = 3) then 3 else 2)) ∧
          (s.wiredRight l far = false → bit (t.reg .alertCause) 3 = true)) ∧
  (∀ (s : State) (l : Fin 24),
      s.lanesOn = true →
      s.reg .linkState l = 0 →
      Completes (.linkDetectRetry l true) s fun t =>
        t.reg .linkState l = 1) ∧
  (∀ (s : State) (l : Fin 24),
      (s.reg .linkState l = 1 ∨ s.reg .linkState l = 2 ∨ s.reg .linkState l = 3) →
      Completes (.linkFarEndIdle l) s fun t =>
        t.reg .linkState l = 0 ∧ t.reg .linkGen l = 0) ∧
  (∀ (s : State) (l : Fin 24),
      s.reg .linkState l = 0 →
      Completes (.linkAbsentTimeout l) s fun t =>
        t.flag .linkQuiet 0 l = true ∧ RegsKept [.linkQuiet] s t ∧ MemKept s t) ∧
  (∀ (s : State) (l : Fin 24) (lane : Fin 9),
      s.reg .linkState l = 2 →
      s.reg .laneMap l ≠ lane.val →
      (lane.val ≠ 8 ∨ s.reg .laneMap l ≠ 0xFF) →
      Completes (.laneTestStart l lane) s fun t =>
        t.reg .linkState l = 3 ∧ ∃ x, x ∈ t.tests ∧ x.kind = 7 ∧ x.unit = laneUnit l lane) ∧
  (∀ (s : State) (l : Fin 24) (pass completes : Bool) (x : SelfTest),
      (s.tests.find? fun x => decide (x.kind = 7) && decide (x.unit / 16 = l.val)) = some x →
      (s.runningTest 7 x.unit).isSome = true →
      s.reg .linkState l = 3 →
      Completes (.laneTestComplete l pass completes) s fun t =>
        t.reg .linkState l = (if completes && (pass || decide (s.reg .laneMap l = 0xFF)) then 2 else 4) ∧
          (completes = true → pass = false → s.reg .laneMap l = 0xFF → t.reg .laneMap l = x.unit % 16) ∧
          (∀ y ∈ t.tests, y.kind = 7 → y.unit ≠ x.unit)) ∧
  (∀ (s : State) (l : Fin 24) (f : FlitControl) (crcOk : Bool) (corrected : Nat),
      s.reg .linkState l = 2 →
      Completes (.flitReceive l f crcOk corrected) s fun t =>
        t.reg .fecCorrected l = (s.reg .fecCorrected l + corrected) % Reg.modulus .fecCorrected ∧
          (crcOk = true → f.seq.toNat = s.reg .flitSeq l → t.reg .flitSeq l = (s.reg .flitSeq l + 1) % 65536) ∧
          (crcOk = true → f.seq.toNat ≠ s.reg .flitSeq l → t.reg .flitSeq l = s.reg .flitSeq l) ∧
          (crcOk = true → t.retry = ((s.addReg .fecCorrected l corrected).ackFlits l f.ack.toNat).retry) ∧
          (crcOk = false → t.reg .linkRetries l = (s.reg .linkRetries l + 1) % Reg.modulus .linkRetries ∧
            t.out.head? = some (.resendFlits l (s.reg .flitSeq l)))) ∧
  (∀ (s : State) (l : Fin 24),
      s.reg .linkState l = 2 →
      Completes (.linkAckTimeout l) s fun t =>
        t.reg .linkState l = 4 ∧ Records s t 5 2 6 6 l) ∧
  (∀ (s : State) (q : Requester) (l : Fin 24),
      Accepts s q .linkCmd l [1] →
      Completes (.linkCmdRetrain q l) s fun t =>
        Answered q (Reg.linkCmd.objAt l) t ∧ (s.lanesOn = true → t.reg .linkState l = 1) ∧ t.reg .linkCmd l = 0) ∧
  (∀ (s : State) (q : Requester) (l : Fin 24),
      Accepts s q .linkCmd l [2] →
      Completes (.linkCmdDisable q l) s fun t =>
        Answered q (Reg.linkCmd.objAt l) t ∧ (s.reg .linkState l ≠ 4 → t.reg .linkState l = 6) ∧ t.reg .linkCmd l = 0) ∧
  (∀ (s : State) (q : Requester) (l : Fin 24),
      Accepts s q .linkCmd l [3] →
      Completes (.linkCmdEnable q l) s fun t =>
        Answered q (Reg.linkCmd.objAt l) t ∧ (s.reg .linkState l = 6 → s.lanesOn = true →
          t.reg .linkState l = 1) ∧ t.reg .linkCmd l = 0) ∧
  (∀ (s : State) (q : Fin 17) (states : LinkCodes),
      q.val ≠ s.pos →
      Completes (.linkStateMessage q states) s fun t =>
        (∀ j, j < 16 → Store.at 0 t.peerLinks (q.val * 16 + j) = (states.map Fin.val).getD j 0) ∧ MemKept s t) ∧
  (∀ (s : State) (fd : Fin 4) (port : Fin 6) (pass : Bool) (x : SelfTest),
      s.runningTest 0x0A (fd.val * 8 + port.val) = some x →
      Completes (.fabricPortTestComplete fd port pass) s fun t =>
        (pass = true → RegsKept [] s t) ∧ (pass = false → t.reg .linkState (6 * fd.val + port.val) = 4) ∧
          (∀ y ∈ t.tests, y.kind = x.kind → y.unit ≠ x.unit))

/-- Replays, element tests, alerts and peer loss complete (R480, R481, R483, R485, R487, R493, R495). Each command named
here completes. In every state and with all operands that meet the hypotheses of its clause, exec answers a next state
with the element state, the error record and the alert causes. Where a clause rests on what the model chose or read,
the log entries named at the command's meaning say so. -/
def Obligations.FaultsComplete : Prop :=
  (∀ (s : State) (hop : Hop) (again : Bool),
      Completes (.wordReplay hop again) s fun t =>
        (again = false → Records s t 1 0 1 (hopUnit hop).1 (hopUnit hop).2) ∧
          (again = true → (s.tests.any fun x => decide (x.kind = (hopUnit hop).1) && decide (x.unit = (hopUnit
            hop).2)) = false →
            Records s t 2 0 0 (hopUnit hop).1 (hopUnit hop).2)) ∧
  (∀ (s : State) (bridge : Fin 23) (segment : Fin 256) (pass : Bool) (x : SelfTest),
      s.runningTest 5 (bridge.val * 256 + segment.val) = some x →
      Completes (.bridgeSegmentTestComplete bridge segment pass) s fun t =>
        (∀ y ∈ t.tests, y.kind = x.kind → y.unit ≠ x.unit) ∧ (pass = true → t.segments = s.segments) ∧
          (pass = false → t.wireState (bridge.val * 256 + segment.val) =
            (if s.wireState (bridge.val * 256 + segment.val) = 0 then 1 else 2) ∧
              t.reg .bridgeState bridge = t.bridgeCode bridge)) ∧
  (∀ (s : State) (die : Fin 8) (pass : Bool) (x : SelfTest),
      s.runningTest 8 die = some x →
      Completes (.couplerBistComplete die pass) s fun t =>
        (∀ y ∈ t.tests, y.kind = x.kind → y.unit ≠ x.unit) ∧ (pass = true → RegsKept [] s t) ∧
          (pass = false → t.flag .couplerState 0 die = true)) ∧
  (∀ (s : State) (q : Requester) (v : Dword),
      Accepts s q .errorAck 0 (leBytes 8 v.toNat) →
      Completes (.errorAckWrite q v) s fun t =>
        Answered q (Reg.errorAck.objAt 0) t ∧ (s.reg .lastAlertSeq ≤ v.toNat →
          bit (t.reg .alertCause) 0 = false) ∧ (v.toNat < s.reg .lastAlertSeq → t.reg .alertCause = s.reg .alertCause)) ∧
  (∀ (s : State) (q : Requester) (v : Word),
      Accepts s q .alertCause 0 (leBytes 4 v.toNat) →
      Completes (.alertCauseWrite q v) s fun t =>
        Answered q (Reg.alertCause.objAt 0) t ∧ (∀ b, 1 ≤ b → b ≤ 6 → v.getLsbD b = true → s.causeEnded b = true →
          bit (t.reg .alertCause) b = false) ∧
          (∀ b, b < 32 → v.getLsbD b = false → bit (t.reg .alertCause) b = bit (s.reg .alertCause) b)) ∧
  (∀ (s : State),
      s.reg .squallState = 1 →
      s.squallNow < s.reg .squallClear * 65536 →
      Completes .squallClear s fun t =>
        t.reg .squallState = 0 ∧ RegsKept (.squallState :: auditRegs) s t ∧ MemKept s t) ∧
  (∀ (s : State) (pos : Fin 17) (n : Nat),
      s.nodeAt pos.val = some n →
      pos.val ≠ s.pos →
      linkCarries (s.linkTo pos.val) = false →
      Completes (.peerLossTimeout pos) s fun t =>
        t = (s.requests.filter fun r => decide (r.pos = pos.val)).foldl (fun (u : State) r => u.deliver r [] false 5 0)
            { s.logError { code := 5, severity := 4, outcome := 6, unitKind := 0x0D, unit := pos.val, lnode := n } with
              requests := s.requests.filter fun (r : Request) => r.pos ≠ pos.val })

/-- The host link, device memory and queues complete (R533, R541, R544, R556, R557, R558, R565, R566). Each command named
here completes. In every state and with all operands that meet the hypotheses of its clause, exec answers a next state
with the host link state, the bytes of memory, the queue pointers and the interrupts. Where a clause rests on what the
model chose or read, the log entries named at the command's meaning say so. -/
def Obligations.HostPortComplete : Prop :=
  (∀ (s : State) (gen width : Nat) (cxl : Bool),
      2 ≤ s.reg .nodeState →
      (s.reg .nodeState = 2 → 2 ≤ s.reg .initStage) →
      4 ≤ min (min gen 6) (s.reg .hostGenMax) →
      4 ≤ width →
      Completes (.hostLinkTraining gen width cxl) s fun t =>
        t.reg .hostLink = min (min gen 6) (s.reg .hostGenMax) + 16 * (if 16 ≤ width then 16 else if 8 ≤ width then 8
          else 4) + 512 * ofBool cxl) ∧
  (∀ (s : State) (down : Bool),
      3 ≤ s.reg .nodeState →
      Completes (.hostLinkReset down) s fun t =>
        (∀ q, q < 64 → t.reg .sqEnable q = 0 ∧ t.reg .sqState q = 0) ∧ t.cqHeld = [] ∧ t.rung = [] ∧
          (∀ x ∈ t.sessions, x.port ≠ .host) ∧ (∀ c ∈ t.cmds, c.queue = 64) ∧ (down = true →
            t.reg .hostLink = 0 ∧ t.hostLines = [])) ∧
  (∀ (s : State) (atom : Fin 34359738368),
      s.hostMem = true →
      s.servesQueues = true →
      Completes (.hostMemRead atom) s fun t =>
        (s.hostReach (64 * atom.val) = true →
          Output.hostData atom.val (s.bytes (64 * atom.val) 64) (s.poisoned (64 * atom.val) (64 * atom.val + 64)) ∈
            t.out ∧
            atom.val / 2 ∈ t.hostLines) ∧
          (s.hostReach (64 * atom.val) = false →
            t.reg .hostRefused = (s.reg .hostRefused + 1) % Reg.modulus .hostRefused ∧
            Output.hostData atom.val [] true ∈ t.out) ∧ MemKept s t) ∧
  (∀ (s : State) (a : BitVec 41) (data : List Byte),
      s.hostMem = true →
      s.servesQueues = true →
      s.reg .nodeState ≠ 7 →
      data ≠ [] →
      a.toNat % 64 + data.length ≤ 64 →
      s.hostReach (a.toNat / 64 * 64) = true →
      Completes (.hostMemWrite a data) s fun t =>
        t = { ({ s with hostLines := [] }.write a.toNat data) with hostLines := s.hostLines }) ∧
  (∀ (s : State) (line : Fin 17179869184),
      Completes (.backInvalidateResponse line) s fun t =>
        (∀ l ∈ t.hostLines, l ≠ line.val) ∧ ∀ w ∈ t.waiting, w.1 / 128 ≠ line.val) ∧
  (∀ (s : State) (q : Fin 64) (v : Dword),
      Completes (.notificationPost q v) s fun t =>
        (s.reg .sqEnable q.val ≠ 0 → s.cqFull q.val = false → s.cqWaits q.val = false →
            t = s.putCompletion ⟨q.val, 0xFFFF, 0, v.toNat, s.now, false⟩) ∧
          (s.reg .sqEnable q.val = 0 ∨ s.cqFull q.val = true ∨ s.cqWaits q.val = true →
            t = s.addReg .notifyDropped 0 1)) ∧
  (∀ (s : State) (q : Fin 64) (tail : Half) (entries : List (List Byte)),
      s.servesQueues = true →
      s.reg .sqEnable q.val ≠ 0 →
      tail.toNat < 2 ^ s.reg .sqSize q.val →
      (s.reg .sqBase q.val % 2 = 0 → entries.length = (tail.toNat + 2 ^ s.reg .sqSize q.val - s.reg .sqTail q.val) %
        2 ^ s.reg .sqSize q.val) →
      Completes (.sqTailDoorbell q tail entries) s fun t =>
        t = ({ s.setReg .sqTail q.val tail.toNat with
            rung := if s.reg .sqBase q.val % 2 = 0 then s.rung ++ entries.map (fun e => (q.val,
              e)) else s.rung }).fetchAll) ∧
  (∀ (s : State) (q : Fin 64) (head : Half),
      s.servesQueues = true →
      head.toNat < s.cqSize q.val →
      Completes (.cqHeadDoorbell q head) s fun t =>
        t = (((s.setReg .cqHead q.val head.toNat).flushHeld q.val s.cqHeld.length).showQueue q.val).fetchAll) ∧
  (∀ (s : State) (q : Requester) (k : Fin 64) (v : Byte),
      Accepts s q .sqEnable k [v] →
      Completes (.sqEnableWrite q k v) s fun t =>
        Answered q (Reg.sqEnable.objAt k) t ∧ t.reg .sqEnable k = v.toNat ∧ (v.toNat = 1 →
          t.reg .sqHead k = 0 ∧ t.reg .sqTail k = 0 ∧ t.reg .cqHead k = 0 ∧ t.reg .cqTail k = 0))

/-- Job, copy, roster, region and pre-emption commands complete (R129, R238, R330, R528, R547, R548, R549, R550, R551,
R552, R553, R554). Each command named here completes. In every state and with all operands that meet the hypotheses of
its clause, exec answers a next state with the job state, the memory copied or wiped, the roster and region tables.
Where a clause rests on what the model chose or read, the log entries named at the command's meaning say so. -/
def Obligations.JobCommandsComplete : Prop :=
  (∀ (s : State) (c : HostCmd) (map : List Half),
      s.cmdOf 1 = some c →
      s.allows 1 = true →
      s.jobLoaded = false →
      s.reg .startPending = 0 →
      s.loadFailure = none →
      s.pulses = [] →
      s.mapOk map = true →
      Completes (.jobLoad map) s fun t =>
        ∃ u : State, t = u.endCmd c 0 0 ∧ u = (s.placeGiven map).loadJob ∧ u.reg .jobActive = 1 ∧ u.reg .tstep = 0 ∧ u.bays = [] ∧
          (map ≠ [] → ∀ b, b < 256 → u.reg .lbayMap b = (map.map BitVec.toNat).getD b 0)) ∧
  (∀ (s : State) (c : HostCmd),
      s.cmdOf 2 = some c →
      s.allows 2 = true →
      s.reg .jobRunning ≠ 1 →
      s.reg .startPending = 0 →
      s.recovery = none →
      Completes .jobStart s fun t =>
        t = ((s.keepCmd c).setReg .startPending 0 1).joinFence) ∧
  (∀ (s : State) (c : HostCmd),
      s.reg .startPending = 1 →
      c ∈ s.cmds →
      c.opc = 2 →
      c.started = true →
      c.arg0 ≠ 0 →
      Completes .jobStartTimeout s fun t =>
        t = (s.withdraw.setReg .startPending 0 0).endOpc 2 0x0C 0) ∧
  (∀ (s : State) (c : HostCmd),
      s.cmdOf 3 = some c →
      s.allows 3 = true →
      s.reg .teardownPending = 0 →
      Completes .jobEnd s fun t =>
        t = s.endJob c ∧ t.reg .jobRunning = 0 ∧ t.reg .jobEpoch = 0 ∧ t.regions = [] ∧ t.recovery = none) ∧
  (∀ (s : State),
      s.reg .teardownPending = 1 →
      (s.cmds.any fun c => (decide (c.opc = 8) || decide (c.opc = 9)) && s.mayRun c) = false →
      Completes .teardownWipeComplete s fun t =>
        t.reg .teardownPending = 2 ∧ t.fills = [] ∧ t.narrow = [] ∧ t.copies = [] ∧
          (∀ a, s.reg .rosterBytes ≤ a → a < s.reg .stackTop → t.byte a = 0)) ∧
  (∀ (s : State),
      s.reg .teardownPending = 2 →
      Completes .teardownComplete s fun t =>
        ∃ u : State, t = u.endOpc 3 0 0 ∧ u.jobEpochs = [] ∧
          (s.deferred = [] → u.reg .jobActive = 0 ∧ u.reg .teardownPending = 0 ∧ u.reg .logicalId = 0xFFFFFFFF ∧
            (s.reg .nodeState ≠ 7 → s.reg .jobRunning = 0 →
              u.reg .nodeState = if s.reg .degradeCause = 0 ∧ s.reg .nodeState ≠ 6 then 3 else 6))) ∧
  (∀ (s : State) (c : HostCmd) (data : List Byte),
      s.cmdOf 8 = some c →
      s.allows 8 = true →
      s.copyRefusal c = none →
      data.length = c.arg2 →
      Completes (.copyToDevice data) s fun t =>
        t = (s.write c.arg1 data).endCmd c 0 0) ∧
  (∀ (s : State) (c : HostCmd),
      s.cmdOf 9 = some c →
      s.allows 9 = true →
      s.copyRefusal c = none →
      s.firstPoison c.arg1 c.arg2 = none →
      Completes .copyFromDevice s fun t =>
        t = (s.send (.hostWrite c.arg0 (s.bytes c.arg1 c.arg2))).endCmd c 0 0) ∧
  (∀ (s : State) (c : HostCmd) (image descs weights : List Byte) (p : Nat),
      s.cmdOf 0x10 = some c →
      s.allows 0x10 = true →
      bit c.cflags 2 = false →
      image.length = 64 →
      descs.length = 64 * leAt image 2 2 →
      weights.length = leAt image 4 4 →
      c.arg1 < 4096 →
      s.modelState c.arg1 = 0 →
      modelOk image descs weights = true →
      s.weightPlace (leAt image 4 4) = some p →
      Completes (.rosterRegister image descs weights) s fun t =>
        t = (s.putModel c.arg1 p image descs weights).endCmd c 0 0) ∧
  (∀ (s : State) (c : HostCmd),
      s.cmdOf 0x11 = some c →
      s.allows 0x11 = true →
      c.arg1 < 4096 →
      s.boundAny c.arg1 = false →
      Completes .rosterDeregister s fun t =>
        ∃ u : State, t = u.endCmd c 0 0 ∧
          u = { (s.write (s.reg .rosterBase + 64 * c.arg1) (List.replicate 64 0)).countModels with
            copies := s.copies.filter fun (x : ModelCopy) => x.index ≠ c.arg1
            tailwind := s.tailwind.filter fun (e : TailwindCopy) => e.index ≠ c.arg1
            recent := s.recent.filter fun e => e.1 % 4096 ≠ c.arg1 }) ∧
  (∀ (s : State) (c : HostCmd) (image : List Byte),
      s.cmdOf 0x18 = some c →
      s.allows 0x18 = true →
      bit c.cflags 2 = false →
      image.length = 32 →
      s.regionOk image = true →
      Completes (.regionRegister image) s fun t =>
        t = ({ s with regions := s.regions ++
            ([⟨leAt image 0 8, leAt image 8 8, leAt image 0x10 8,
              leAt image 0x18 1 % 8⟩] : List Region) }).showRegions.endCmd c 0 0) ∧
  (∀ (s : State) (c : HostCmd),
      s.cmdOf 0x19 = some c →
      s.allows 0x19 = true →
      (s.region c.arg0).isSome = true →
      Completes .regionDeregister s fun t =>
        t = ({ s with regions := s.regions.filter fun (r : Region) => r.key ≠ c.arg0 }).showRegions.endCmd c 0 0) ∧
  (∀ (s : State) (c : HostCmd),
      s.cmdOf 0x21 = some c →
      s.allows 0x21 = true →
      c.arg0 < 256 →
      (s.bay c.arg0).present = true →
      (s.tableState c.arg0 = tsRunning ∨ s.tableState c.arg0 = tsWaiting) →
      (s.bay c.arg0).preempt = 0 →
      s.reaches (s.contextBase c.arg0) (s.contextBase c.arg0 + 0x14C000) = true →
      (s.bay c.arg0).collOpen = false →
      Completes .bayPreempt s fun t =>
        t = ((s.keepCmd c).write (s.contextBase c.arg0) [0]).setBay c.arg0 { s.bay c.arg0 with preempt := 1 }) ∧
  (∀ (s : State) (c : HostCmd),
      s.cmdOf 0x20 = some c →
      s.allows 0x20 = true →
      c.arg0 < 256 →
      (s.bay c.arg0).present = true →
      (s.tableState c.arg0 = tsHalted ∨ s.tableState c.arg0 = tsPreempted) →
      Completes .bayResume s fun t =>
        (s.tableState c.arg0 = tsHalted → t = (s.resumeHalted c.arg0).endCmd c 0 0) ∧
          (s.tableState c.arg0 = tsPreempted → t = s.resumeSaved c c.arg0)) ∧
  (∀ (s : State) (b : Fin 256),
      (s.bay b.val).preempt ≠ 0 →
      (s.bay b.val).sparing = 0 →
      (s.bay b.val).stepDone = true →
      s.tableState b.val ≠ tsPreempted →
      ((s.sharers b.val).any fun k => (s.bay k).stored) = false →
      Completes (.contextSaveComplete b) s fun t =>
        ∃ u : State, (t = u ∨ ∃ c, t = u.endCmd c 0 0) ∧ (u.bay b).preempt = 3 ∧
          u.reg .ctxOf b = s.reg .lbayMap b % 65536) ∧
  (∀ (s : State) (b : Fin 256),
      (s.bay b.val).preempt = 2 →
      (s.bay b.val).collOpen = true →
      Completes (.preemptDeferralExpiry b) s fun t =>
        ∃ u : State, (t = u ∨ ∃ c, t = u.endCmd c 0x1A b.val) ∧ (u.bay b).preempt = 0 ∧ Records s u 0x1A 5 0 0x0F b.val)

/-- Stack memory accesses, repairs and map-outs complete (R308, R310, R315, R317, R322, R323, R329, R332, R333, R337,
R340, R349). Each command named here completes. In every state and with all operands that meet the hypotheses of its
clause, exec answers a next state with the bytes of memory, the channel and slice states, the journal and the error
records. A request to a channel that retrains waits in its queue, as the clauses about channels say, and one to a slice whose
MBIST runs waits for it. Where a clause rests on what the model chose or read, the log entries named at the command's meaning say so. -/
def Obligations.StackMemoryComplete : Prop :=
  (∀ (s : State) (ch : Fin 1024),
      s.chanState ch.val ≠ 4 →
      Completes (.channelParityReplay ch) s fun t =>
        ∃ u : State, u = s.parityReplayed 3 ch.val 0 0xFFFF 0 ∧ Records s u 1 0 1 3 ch.val ∧
          t = if threeWithin u.now 1000000 ((u.now :: (u.chan ch.val).replays).take 3) then
              (u.setChan ch.val { u.chan ch.val with replays := [] }).retrain ch.val
            else u.setChan ch.val { u.chan ch.val with replays := (u.now :: (u.chan ch.val).replays).take 3 }) ∧
  (∀ (s : State) (ch : Fin 1024),
      (s.chan ch.val).retraining = none →
      s.chanState ch.val ≠ 4 →
      Completes (.calibrationDrift ch) s fun t =>
        Records s t 8 0 0 3 ch.val ∧ (s.chanState ch.val = 0 →
          t.chanState ch.val = 1) ∧ (t.chan ch.val).retraining.isSome = true) ∧
  (∀ (s : State) (ch : Fin 1024) (ok : Bool) (seq at1 : Nat),
      (s.chan ch.val).retraining = some (seq, at1) →
      Completes (.channelRetrainComplete ch ok) s fun t =>
        ∃ u : State, t = u.releaseChan ch.val ∧ (u.chan ch.val).retraining = none ∧
          (ok = true → threeWithin s.now 1000000000 (s.chan ch.val).retrains = false → s.chanState ch.val = 1 →
            u.chanState ch.val = 0) ∧
          (ok = false → s.chanState ch.val = 1 → u.chanState ch.val = 2)) ∧
  (∀ (s : State) (st : Fin 32) (e : Nat),
      (s.remapping.find? fun r => decide (r.1 = st.val)) = some (st.val, e) →
      s.reg .reserveRowsLeft st < 2 ^ 32 →
      Completes (.softRemapComplete st) s fun t =>
        t.remaps = s.remaps ++ ([⟨st.val, e,
          ({ s with remapping := s.remapping.erase (st.val, e) }).freeRow (elementChannel st.val e)⟩] : List Remap) ∧
          t.reg .reserveRowsLeft st = s.reg .reserveRowsLeft st - 1) ∧
  (∀ (s : State) (ch : Fin 1024) (r : PatternResult) (x : SelfTest),
      s.runningTest 3 ch.val = some x →
      Completes (.patternTestComplete ch r) s fun t =>
        (∀ y ∈ t.tests, y.kind = x.kind → y.unit ≠ x.unit) ∧ (r = .pass → s.chanState ch.val = 2 →
          t.chanState ch.val = 0)) ∧
  (∀ (s : State) (ch : Nat) (rest : List Nat),
      s.mapoutWaits = ch :: rest →
      s.migrating = none →
      s.allocBlocks = false →
      s.reg .stackTop < 2 ^ 64 →
      Completes .channelMapoutSwitch s fun t =>
        (s.reg .allocTop ≤ s.reg .stackTop - 0x80000000 →
          t.mapoutWaits = rest) ∧ t.chanState ch = 3 ∧ t.reg .stackTop = s.reg .stackTop - 0x80000000 ∧
          t.reg .migrationLeft = 1023 * 0x200000) ∧
  (∀ (s : State) (ch : Nat),
      s.slotA.state ≠ 1 →
      s.slotB.state ≠ 1 →
      s.migrating = some ch →
      Completes .migrationComplete s fun t =>
        t.chanState ch = 4 ∧ t.reg .migrationLeft = 0) ∧
  (∀ (s : State) (q : Requester) (v : Dword),
      Accepts s q .allocTop 0 (leBytes 8 v.toNat) →
      Completes (.allocTopWrite q v) s fun t =>
        Answered q (Reg.allocTop.objAt 0) t ∧ t.reg .allocTop = v.toNat) ∧
  (∀ (s : State) (q : Requester) (v : Byte),
      Accepts s q .mapoutForce 0 [v] →
      Completes (.mapoutForceWrite q v) s fun t =>
        Answered q (Reg.mapoutForce.objAt 0) t ∧ t.reg .mapoutForce = v.toNat) ∧
  (∀ (s : State) (a : BitVec 42) (eligible : Bool) (queue : Nat) (x : SliceAccess) (stack : EccFinding),
      s.readable a.toNat = true →
      Completes (.stackRead a eligible queue x stack) s fun t =>
        (s.sliceTests (s.sliceUnit a.toNat) = true → t = s.holdSlice a.toNat (.read a.toNat eligible queue x stack)) ∧
        (s.sliceTests (s.sliceUnit a.toNat) = false → ∀ bypass present : Bool, present = (x.present && !s.passes a.toNat) →
          bypass = (eligible && decide (s.reg .bypassThreshold < queue) &&
            !(present && decide (s.llmOf (a.toNat / 128) = 2))) →
          (0x20000000000 ≤ a.toNat →
            t = (s.addReg .llmHits (s.homeDie a.toNat) 1).sliceFinding a.toNat x.word x.persistent) ∧
          (a.toNat < 0x20000000000 → bypass = true →
            t = (s.addReg .llmBypassed (s.homeDie a.toNat) 1).toChannel (s.placeOf a.toNat).1 (.read a.toNat stack)) ∧
          (a.toNat < 0x20000000000 → bypass = false → present = true →
            t = ((s.addReg .llmHits (s.homeDie a.toNat) 1).holdLine (a.toNat / 128)).sliceFinding a.toNat x.word
              x.persistent) ∧
          (a.toNat < 0x20000000000 → bypass = false → present = false →
            ∃ u : State, u = (s.addReg .llmMisses (s.homeDie a.toNat) 1).evicted (a.toNat / 128) ∧ u.llmOf (a.toNat / 128) = 0 ∧
              t = if u.passes a.toNat then u.toChannel (s.placeOf a.toNat).1 (.read a.toNat stack)
                else u.askFill (a.toNat / 128)))) ∧
  (∀ (s : State) (ch : Nat) (r : ChanReq),
      (s.retraining ch = true → (s.chanQueue.filter fun e => decide (e.1 = ch)).length < 256 →
          s.toChannel ch r = { s.accept r with chanQueue := s.chanQueue ++ [(ch, r)] }) ∧
        (s.retraining ch = true → 256 ≤ (s.chanQueue.filter fun e => decide (e.1 = ch)).length →
          s.toChannel ch r = { s with chanStalled := s.chanStalled ++ [(ch, r)] }) ∧
        (∀ line, s.retraining ch = false → r = .fill line → line ∈ (s.toChannel ch r).fills) ∧
        (∀ (x : Narrow), s.retraining ch = false → r = .narrow x →
          (s.toChannel ch r).narrow = s.narrow ++ [x] ∧
            ((∀ bs, x.data ≠ some bs) → MemKept s (s.toChannel ch r)))) ∧
  (∀ (s : State) (x : Narrow),
      (s.narrowAt x.stack < 4096 →
          (s.offerNarrow x).reg .narrowRequests = (s.reg .narrowRequests + 1) % Reg.modulus .narrowRequests ∧
            (x.data = none → MemKept s (s.offerNarrow x))) ∧
        (4096 ≤ s.narrowAt x.stack →
          (s.offerNarrow x).narrowHeld = s.narrowHeld ++ [x] ∧
            (s.offerNarrow x).reg .narrowFullStalls = (s.reg .narrowFullStalls + 1) % Reg.modulus .narrowFullStalls ∧
            MemKept s (s.offerNarrow x))) ∧
  (∀ (s : State) (a : BitVec 42) (data : List Byte) (x : SliceAccess),
      data ≠ [] →
      a.toNat % 128 + data.length ≤ 128 →
      s.reaches a.toNat (a.toNat + data.length) = true →
      s.hostLines.contains (a.toNat / 128) = false →
      (s.waiting.any fun w => decide (w.1 / 128 = a.toNat / 128)) = false →
      Completes (.stackWrite a data x) s fun t =>
        (s.sliceTests (s.sliceUnit a.toNat) = true →
          t = (s.holdSlice a.toNat (.write a.toNat data.length x)).putSlice a.toNat data) ∧
        (s.sliceTests (s.sliceUnit a.toNat) = false →
          ∀ f : WordFinding, f = (if a.toNat % 16 = 0 ∧ data.length % 16 = 0 then .clean else x.word) →
          (0x20000000000 ≤ a.toNat →
            t = ((s.addReg .llmHits (s.homeDie a.toNat) 1).sliceFinding a.toNat f x.persistent).write a.toNat data) ∧
          (a.toNat < 0x20000000000 → s.passes a.toNat = true →
            t = (s.addReg .llmMisses (s.homeDie a.toNat) 1).writeStack a.toNat data) ∧
          (a.toNat < 0x20000000000 → s.passes a.toNat = false → x.present = true →
            t = (((s.addReg .llmHits (s.homeDie a.toNat) 1).holdLine (a.toNat / 128)).sliceFinding a.toNat f
              x.persistent).putSlice a.toNat data) ∧
          (a.toNat < 0x20000000000 → s.passes a.toNat = false → x.present = false → ∃ u : State,
            u = ((s.addReg .llmMisses (s.homeDie a.toNat) 1).evicted (a.toNat / 128)).setLlm (a.toNat / 128) 2 ∧
              t = (if data.length = 128 then u else u.askFill (a.toNat / 128)).putSlice a.toNat data))) ∧
  (∀ (s : State) (line : Fin 17179869184) (finding : EccFinding),
      s.fills.contains line.val = true →
      s.retraining (s.placeOf (128 * line.val)).1 = false →
      Completes (.llmFillComplete line finding) s fun t =>
        t = ((({ s with fills := s.fills.erase line.val } : State).holdLine line.val).stackFinding (128 * line.val)
          finding).mergeLine line.val) ∧
  (∀ (s : State) (a : BitVec 42) (log : Fin 4) (data : Option Dword) (x : SliceAccess),
      a.toNat % 2 ^ log.val = 0 →
      s.reaches a.toNat (a.toNat + 2 ^ log.val) = true →
      s.sliceTests (s.sliceUnit a.toNat) = false →
      Completes (.narrowRequest a log data x) s fun t =>
        (0x20000000000 ≤ a.toNat ∨ (x.present = true ∧ s.passes a.toNat = false) → ∃ u : State,
            u = (if 0x20000000000 ≤ a.toNat then s.addReg .narrowRequests 0 1
              else (s.addReg .narrowRequests 0 1).holdLine (a.toNat / 128)).sliceFinding a.toNat x.word x.persistent ∧
            (data = none → t = u) ∧ ∀ v, data = some v → t = u.write a.toNat (leBytes (2 ^ log.val) v.toNat)) ∧
          (a.toNat < 0x20000000000 → x.present = false ∨ s.passes a.toNat = true →
            t = (s.evicted (a.toNat / 128)).offerNarrow ⟨s.narrowStack a.toNat, a.toNat, 2 ^ log.val,
              data.map fun v => leBytes (2 ^ log.val) v.toNat⟩)) ∧
  (∀ (s : State) (a : BitVec 42) (log : Fin 4) (data : Option Dword) (x : SliceAccess),
      a.toNat % 2 ^ log.val = 0 →
      s.reaches a.toNat (a.toNat + 2 ^ log.val) = true →
      s.sliceTests (s.sliceUnit a.toNat) = true →
      Completes (.narrowRequest a log data x) s fun t =>
        ∃ u : State, u = s.holdSlice a.toNat (.narrow a.toNat (2 ^ log.val) data.isSome x) ∧ (data = none → t = u) ∧
          ∀ v, data = some v → t = u.putSlice a.toNat (leBytes (2 ^ log.val) v.toNat)) ∧
  (∀ (s : State) (st : Fin 32) (findings : List EccFinding) (r : Narrow),
      (s.narrow.find? fun r => decide (r.stack = st.val)) = some r →
      Completes (.coalescingWaitExpiry st findings) s fun t =>
        ∃ (go stay : List Narrow) (atoms : List Nat) (u v : State),
          (go, stay) = s.splitRow st.val (s.rowOf r.addr) 256 s.narrow ∧
            atoms = (go.map fun x => x.addr / 64).eraseDups ∧
            u = (atoms.zip findings).foldl (fun (u : State) e => u.stackFinding (64 * e.1) (match e.2 with
                | .uncorrectable _ => .uncorrectable (Fin.ofNat 2 e.1)
                | f => f))
              { (s.addReg .narrowAtoms 0 (atoms.length + (atoms.filter fun p => go.any fun x =>
                  decide (x.addr / 64 = p) && x.data.isSome).length)).addReg .narrowCoalesced 0
                    (go.length - atoms.length) with
                narrow := stay } ∧
            v = (go.filter fun x => x.data.isSome).foldl (fun (v : State) x =>
              if v.fills.contains (x.addr / 128) then v else v.mergeLine (x.addr / 128)) u ∧
            t = (List.range go.length).foldl (fun (w : State) _ => w.admitNarrow st.val) v) ∧
  (∀ (s : State) (st : Fin 32) (e : StackElement) (col : Fin 8) (place : ScrubPlace) (finding : EccFinding)
    (last : Bool),
      Completes (.scrubLine st e col place finding last) s fun t =>
        (finding = .clean → last = false → t = s) ∧
          (finding = .clean → last = true →
            t.reg .scrubPasses st = (s.reg .scrubPasses st + 1) % Reg.modulus .scrubPasses ∧
            ∀ k, k < 32 → (t.chan (st.val * 32 + k)).rows = []) ∧
          (∀ atom, finding = .uncorrectable atom → place = .reserve → last = false →
            ⟨st.val, elementBits32 e / 32, 2 * col.val + atom.val, .reserve⟩ ∉ s.spareMarks →
            ⟨st.val, elementBits32 e / 32, 2 * col.val + atom.val, .reserve⟩ ∈ t.spareMarks ∧
              Records s t 7 1 6 3 (st.val * 32 + e.channel.val)) ∧
          (∀ atom, finding = .uncorrectable atom → place = .reserve → last = false →
            ⟨st.val, elementBits32 e / 32, 2 * col.val + atom.val, .reserve⟩ ∈ s.spareMarks → t = s)) ∧
  (∀ (s : State) (die : Fin 8) (phys : Fin 34) (pass : Bool) (x : SelfTest),
      s.runningTest 2 (die.val * 64 + phys.val) = some x →
      x.stage = 0 →
      Completes (.llmMbistComplete die phys pass) s fun t =>
        (pass = true → t = (({ s with corrections := s.corrections.filter fun c => c.1 ≠ die.val * 64 + phys.val } :
            State).endTest x 1).releaseSlice (die.val * 64 + phys.val)) ∧
          (∀ p, pass = false → s.spareSlice die.val = some p → t.reg .sliceState (die.val * 34 + p) = 0 ∧
            (p ≠ phys.val → t.reg .sliceState (die.val * 34 + phys.val) = 2))) ∧
  (∀ (s : State) (die : Fin 8) (phys : Fin 34) (x : SelfTest),
      s.runningTest 2 (die.val * 64 + phys.val) = some x →
      x.stage = 1 →
      Completes (.sliceSweepComplete die phys) s fun t =>
        t = s.endTest x 2) ∧
  (∀ (s : State) (st : Fin 32) (r : Remap),
      (s.remaps.find? fun r => decide (r.stack = st.val)) = some r →
      s.repairAllowed false = true →
      Completes (.permanentRepairStart st) s fun t =>
        t = s.startRepair st.val r.element 1 false) ∧
  (∀ (s : State) (st : Fin 32) (pass : Bool) (p : Pulse),
      (s.pulses.find? fun p => decide (p.stack = st.val)) = some p →
      s.reg .warmWaiting ≠ 1 →
      s.pulses.Nodup →
      Completes (.fusePulseComplete st pass) s fun t =>
        p ∉ t.pulses ∧ t.flag .fusePulses 0 st = false ∧
          (p.jtag = true → t.out.head? = some (.tap (1 + 2 * ofBool (!pass)))))

/-- The wrapper instructions of the base dies complete (R327, R328). Each command named here completes. In every state and
with all operands that meet the hypotheses of its clause, exec answers a next state with the data shifted out, the
remaps and the repairs. Where a clause rests on what the model chose or read, the log entries named at the command's
meaning say so. -/
def Obligations.WrapperComplete : Prop :=
  (∀ (s : State) (st : Fin 32) (code : Byte),
      s.reg .nodeState = 8 →
      Completes (.wrapperSelect st code) s fun t =>
        t.wrapperStack = some st.val ∧
          t.reg .wrapper / 64 = (if wrapperCodes.contains code.toNat then code.toNat else 0x100) ∧
          RegsKept [.wrapper] s t ∧ MemKept s t) ∧
  (∀ (s : State) (entry : Fin 512) (k : Nat),
      s.wrapperStack = some k →
      Completes (.journalRead entry) s fun t =>
        t = (s.loadCode k 0xE0).send (.tap (Store.at 0 s.journal (k * 512 + entry.val)))) ∧
  (∀ (s : State) (ch : Fin 32) (row k : Nat),
      s.wrapperStack = some k →
      Completes (.remapRead ch row) s fun t =>
        (∀ r, (s.remaps.find? fun r => decide (r.stack = k) && decide (field r.element 5 5 = ch.val) && decide (r.row
          = row)) = some r →
            t = (s.loadCode k 0xE1).send (.tap r.element)) ∧ (∃ v, t.out = .tap v :: s.out) ∧
          t.regs = (s.loadCode k 0xE1).regs) ∧
  (∀ (s : State) (e : StackElement) (row k : Nat),
      s.wrapperStack = some k →
      row < 61440 →
      Completes (.remapWrite e row) s fun t =>
        (⟨k, elementBits32 e, row⟩ : Remap) ∈ t.remaps ∧ (∀ r ∈ t.remaps, r.stack = k → r.element = elementBits32 e →
          r.row = row)) ∧
  (∀ (s : State) (e : StackElement) (k : Nat),
      s.wrapperStack = some k →
      s.reg .journalUsed k < 512 →
      (s.pulses.any fun p => decide (p.stack = k)) = false →
      Completes (.repairRow e) s fun t =>
        t = ((s.loadCode k 0xE3).startRepair k (elementBits32 e) 1 true).auditRepair .journalUsed k
          (s.regBytes .journalUsed k)) ∧
  (∀ (s : State) (e : StackElement) (k : Nat),
      s.wrapperStack = some k →
      s.reg .journalUsed k < 512 →
      (s.pulses.any fun p => decide (p.stack = k)) = false →
      Completes (.hbm4LaneRepair e) s fun t =>
        t = ((s.loadCode k (Config.hbmCode 3).toNat).startRepair k (elementBits32 e) 2 true).auditRepair .journalUsed k
          (s.regBytes .journalUsed k)) ∧
  (∀ (s : State) (e : StackElement) (k : Nat),
      s.wrapperStack = some k →
      s.reg .journalUsed k < 512 →
      (s.pulses.any fun p => decide (p.stack = k)) = false →
      Completes (.hbm4HardPpr e) s fun t =>
        t = ((s.loadCode k (Config.hbmCode 5).toNat).startRepair k (elementBits32 e) 1 true).auditRepair .journalUsed k
          (s.regBytes .journalUsed k)) ∧
  (∀ (s : State) (ch : Fin 32) (rows : List StackElement) (k : Nat),
      s.wrapperStack = some k →
      Completes (.channelTest ch rows) s fun t =>
        t.reg .selftestRuns = (s.reg .selftestRuns + 1) % Reg.modulus .selftestRuns ∧
          t.out = .tap ((rows.filter fun e => e.channel = ch).length % 2 ^ 32 +
            (((rows.filter fun e => e.channel = ch).map elementBits32).headD 0) * 2 ^ 32) :: s.out) ∧
  (∀ (s : State) (k : Nat),
      s.wrapperStack = some k →
      Completes .draughtStatus s fun t =>
        t = (s.loadCode k 0xE5).send (.tap (s.copyFront k % 2 ^ 64 + s.reg .cbwWrites k % 2 ^ 32 * 2 ^ 64))) ∧
  (∀ (s : State) (k : Nat),
      s.wrapperStack = some k →
      Completes .hbm4DeviceIdentity s fun t =>
        t = (s.loadCode k (Config.hbmCode 0).toNat).send (.tap (Config.hbmIdentity k).toNat)) ∧
  (∀ (s : State) (k : Nat),
      s.wrapperStack = some k →
      Completes .hbm4TemperatureReadout s fun t =>
        (∃ v, t.out = .tap v :: s.out) ∧ t.regs = (s.loadCode k (Config.hbmCode 1).toNat).regs ∧ MemKept s t) ∧
  (∀ (s : State) (k : Nat),
      s.wrapperStack = some k →
      Completes .hbm4ModeRegisterDump s fun t =>
        (∃ v, t.out = .tap v :: s.out) ∧ t.regs = (s.loadCode k (Config.hbmCode 2).toNat).regs ∧ MemKept s t) ∧
  (∀ (s : State) (e : StackElement) (k : Nat),
      s.wrapperStack = some k →
      Completes (.hbm4SoftPpr e) s fun t =>
        (k, elementBits32 e) ∈ t.softPpr ∧ (∀ r ∈ t.remaps, r.stack = k → r.element ≠ elementBits32 e) ∧ MemKept s t)

/-- Each INIT stage completes (R22, R693). Each command named here completes. In every state and with all operands that
meet the hypotheses of its clause, exec answers a next state with the next stage, or the state that INIT ends in: the
first clause covers every stage and what its work may find, the six that follow say when the stage is passed.
Where a clause rests on what the model chose or read, the log entries named at the command's meaning say so. -/
def Obligations.InitComplete : Prop :=
  (∀ (s : State) (facts : StageFacts),
      s.reg .nodeState = 2 →
      s.reg .inReset ≠ 1 →
      1 ≤ s.reg .initStage →
      s.reg .initStage ≤ 6 →
      Completes (.initStageComplete facts) s fun t =>
        (s.reg .initStage = 1 → (facts.image = none →
          t.reg .nodeState = 7) ∧ (t.reg .initStage = 2 ∨ t.reg .nodeState = 7)) ∧
          (s.reg .initStage = 2 → t.reg .initStage = 3 ∨ t.reg .nodeState = 7) ∧
          (s.reg .initStage = 3 → t.reg .initStage = 4 ∨ t.reg .nodeState = 7) ∧
          (s.reg .initStage = 4 → t.reg .initStage = 5 ∨ t.reg .nodeState = 7) ∧
          (s.reg .initStage = 5 → ((List.range 24).all fun l => s.linkSettled l) = true →
            t.reg .initStage = if s.flag .location 0 31 then 6 else 5) ∧
          (s.reg .initStage = 6 → t.reg .nodeState = (if s.reg .degradeCause = 0 then 3 else 6) ∧ t.reg .initStage = 0 ∧
            t.reg .stageStarted = 6 ∧ t.reg .freezeState = 1)) ∧
  (∀ (s : State) (facts : StageFacts) (img : Fin 2),
      s.reg .nodeState = 2 →
      s.reg .inReset ≠ 1 →
      s.reg .initStage = 1 →
      facts.image = some img →
      s.pairStarts facts = true →
      s.reg .posStrap ≤ 16 →
      facts.pllNone = [] →
      (∀ k, k < 48 → s.reg .pllFailed k = 0) →
      Completes (.initStageComplete facts) s fun t =>
        t.reg .nodeState = 2 ∧ t.reg .initStage = 2 ∧ t.reg .stageStarted = 1 ∧ t.reg .fwImage = img.val ∧
          t.reg .fwVersion = (Config.fwVersion img).toNat % Reg.modulus .fwVersion ∧
          ∀ k, k < 48 → clockDomain k = true → t.reg .clkMhz k = s.reg .pllMhz k % Reg.modulus .clkMhz) ∧
  (∀ (s : State) (facts : StageFacts),
      s.reg .nodeState = 2 →
      s.reg .inReset ≠ 1 →
      s.reg .initStage = 2 →
      facts.segments = [] →
      s.dieCutOff = false →
      Completes (.initStageComplete facts) s fun t =>
        t.reg .nodeState = 2 ∧ t.reg .initStage = 3 ∧ t.reg .stageStarted = 2 ∧
          (facts.hostTrained = none → t.reg .hostLink = 0)) ∧
  (∀ (s : State) (facts : StageFacts),
      s.reg .nodeState = 2 →
      s.reg .inReset ≠ 1 →
      s.reg .initStage = 3 →
      facts.baseDies = [] →
      (∀ e ∈ facts.channels, e.2 = .pass) →
      Completes (.initStageComplete facts) s fun t =>
        t.reg .nodeState = 2 ∧ t.reg .initStage = 4 ∧ t.reg .stageStarted = 3) ∧
  (∀ (s : State) (facts : StageFacts) (d : Fin 8),
      s.reg .nodeState = 2 →
      s.reg .inReset ≠ 1 →
      s.reg .initStage = 4 →
      d ∉ facts.couplers →
      s.flag .couplerState 0 d = false →
      Completes (.initStageComplete facts) s fun t =>
        t.reg .nodeState = 2 ∧ t.reg .initStage = 5 ∧ t.reg .stageStarted = 4 ∧
          ∀ c, c ∈ facts.couplers → t.flag .couplerState 0 c = true) ∧
  (∀ (s : State) (facts : StageFacts),
      s.reg .nodeState = 2 →
      s.reg .inReset ≠ 1 →
      s.reg .initStage = 5 →
      ((List.range 24).all fun l => s.linkSettled l) = true →
      s.flag .location 0 31 = true →
      Completes (.initStageComplete facts) s fun t =>
        t = (s.setReg .stageStarted 0 5).setReg .initStage 0 6) ∧
  (∀ (s : State) (facts : StageFacts),
      s.reg .nodeState = 2 →
      s.reg .inReset ≠ 1 →
      s.reg .initStage = 6 →
      Completes (.initStageComplete facts) s fun t =>
        t.reg .nodeState = (if s.reg .degradeCause = 0 then 3 else 6) ∧ t.reg .initStage = 0 ∧
          t.reg .stageStarted = 6 ∧ t.reg .initEnded = 1 ∧ t.reg .freezeState = 1 ∧ t.reg .squallScore16 = 0)

/-- Snapshots, drains and shards complete (R346, R499, R504, R508, R510). Each command named here completes. In every
state and with all operands that meet the hypotheses of its clause, exec answers a next state with the slot, its parts
and its drain, and the shard stored. Where a clause rests on what the model chose or read, the log entries named at
the command's meaning say so. -/
def Obligations.SnapshotsComplete : Prop :=
  (∀ (s : State) (b : Fin 256) (f : Flight),
      s.ready b.val (fun f => decide (f.op = opSnap)) = some f →
      Completes (.snap b) s fun t =>
        t = s.stillWaits b.val f) ∧
  (∀ (s : State) (b : Fin 256) (f : Flight),
      (s.bay b.val).snapFlight = some f →
      f.phase ≠ 0 →
      (s.bay b.val).captured = false →
      (s.bay b.val).sparing = 0 →
      Completes (.snapCaptureComplete b) s fun t =>
        ∃ u : State, u = s.setBay b.val { s.bay b.val with captured := true } ∧
          t = if u.snapArrived then u.stopHarts else u) ∧
  (∀ (s : State),
      s.snapArrived = true →
      s.quiet = true →
      s.reg .snapJoined ≠ 1 →
      Completes .snapQuiesceComplete s fun t =>
        t.reg .snapJoined = 1 ∧ t.reg .snapFits = ofBool s.checkSnap.2 ∧
          (s.checkSnap.2 = false → Records s t 0x14 1 6 0x10 0)) ∧
  (∀ (s : State) (warning fit ended : Bool) (dirty : List (Fin 17179869184)),
      s.reg .snapJoined ≠ 0 →
      Completes (.snapAgreementComplete warning fit ended dirty) s fun t =>
        (fit = false → t = ((s.setReg .snapJoined 0 0).addReg .snapsSkipped 0 1).endSnaps.releaseHarts) ∧
          (fit = true → s.reg .snapFits = 1 → ended = true → s.reg .snapEnded = 1 → warning = true →
            t = ((s.setReg .snapJoined 0 0).startCopy (dirty.map Fin.val)).endSnaps.releaseHarts)) ∧
  (∀ (s : State) (line : Fin 17179869184) (k : Nat),
      s.copying = some k →
      (s.slot k).tagged.contains line.val = true →
      Completes (.taggedLineSweep line) s fun t =>
        t = (if s.llmOf line.val = 2 then s.setLlm line.val 1 else s).setSlot k { s.slot k with
          tagged := (s.slot k).tagged.erase line.val, copied := (s.slot k).copied ++ [line.val] }) ∧
  (∀ (s : State) (st : Fin 32) (bad : Option (Fin 17179869184)) (k : Nat),
      s.copying = some k →
      ((s.slot k).parts.lookup st.val).isSome = false →
      Completes (.stackPartComplete st bad) s fun t =>
        (∀ l, (s.slotLines (s.slot k) st.val).find? (fun l => s.poisoned (128 * l) (128 * l + 128)) = some l →
            t = ((s.setSlot k Slot.empty).snapshotInvalid 0x10 k 2).dataLoss {
              code := 7, severity := 3, outcome := 6, unitKind := 3, unit := s.channelOf (128 * l), addr := 128 * l }) ∧
          ((s.slotLines (s.slot k) st.val).find? (fun l => s.poisoned (128 * l) (128 * l + 128)) = none →
            (∀ l, bad = some l → (s.slotLines (s.slot k) st.val).contains l.val = true →
              t = ((s.setSlot k Slot.empty).snapshotInvalid 0x10 k 2).stackFinding (128 * l.val) (.uncorrectable 0)) ∧
            (bad = none → ((s.slot k).tagged.any (s.slotLines (s.slot k) st.val).contains) = false →
              ∃ x : Slot, x = { s.slot k with parts := (s.slot k).parts ++ [(st.val, (s.stackDigest (s.slot k) st.val).1)] } ∧
                (x.parts.length < 32 → t = (s.stackDigest (s.slot k) st.val).2.setSlot k x) ∧
                (32 ≤ x.parts.length → t = ((s.stackDigest (s.slot k) st.val).2.setSlot k
                  { x with state := 2, committed := true, digest := x.formDigest }).startDrain k)))) ∧
  (∀ (s : State) (v : Arrival) (gen : Dword) (answer : DrainAnswer) (d : Drain) (q : Nat),
      s.drains.find? (fun d => decide (d.gen = gen.toNat) && !d.ended) = some d →
      (answer = .lost → q = v.pos.val) →
      (answer ≠ .lost → Heard s v.pos.val v.h ∧ q = s.cameFrom v.pos.val v.h) →
      q ≠ s.pos →
      s.pos < 17 →
      d.slot < 2 →
      Completes (.drainAck v gen answer) s fun t =>
        (answer = .committed → d.acked.contains q = false → d.acked.length = 15 →
            ∃ u : State, t = u.checkRetiring ∧ bit (u.reg .slotDrained) d.slot = true) ∧
          (answer = .committed → d.acked.contains q = false → d.acked.length < 15 →
            t = s.setDrain { d with acked := d.acked ++ [q] }) ∧
          (answer ≠ .committed → d.retried = false → t = (s.setDrain { d with acked := [], retried := true }).sendShards
            (if d.retiring then s.reg .retiringEpoch else s.reg .jobEpoch) (s.slot d.slot).image)) ∧
  (∀ (s : State) (k : Fin 2),
      (s.drains.any fun d => decide (d.slot = k.val) && !d.ended) = true →
      Completes (.drainDeadlineExpiry k) s fun t =>
        Records s t 0x0C 5 5 0x10 k.val ∧ t.drains = s.drains) ∧
  (∀ (s : State) (q : Fin 17) (h : Header) (index : Fin 16) (tstep gen imageBytes : Dword) (data : List Byte),
      Heard s q.val h →
      s.cameFrom q.val h ≠ s.pos →
      Completes (.shardReceive q h index tstep gen imageBytes data) s fun t =>
        (s.areaBytes < data.length → t = s.answerShard q.val h gen.toNat .tooLarge) ∧
          (data.length ≤ s.areaBytes → ∃ (x : Shard) (u : State), u.shards.head? = some x ∧ x.src = h.src.val ∧
            x.epoch = h.epoch.toNat ∧ x.gen = gen.toNat ∧ x.tstep = tstep.toNat ∧ x.index = index.val ∧ x.data = data ∧
              x.state = 2 ∧ x.digest = digest data ∧ MemKept s u ∧ t = u.answerShard q.val h gen.toNat .committed))

/-- Recovery, takeover and restore complete (R513, R514, R519, R520). Each command named here completes. In every state
and with all operands that meet the hypotheses of its clause, exec answers a next state with the recovery state, the
job epoch, the identity map and the memory restored. Where a clause rests on what the model chose or read, the log
entries named at the command's meaning say so. -/
def Obligations.RecoveryComplete : Prop :=
  (∀ (s : State) (q : Requester) (epoch : Half) (tstep : Dword) (peers : Option Half),
      Accepts s q .recoveryCmd 0 (recoveryBytes 1 0xFF epoch.toNat tstep.toNat) →
      s.recoveryRefusal 1 0xFF epoch.toNat tstep.toNat (peers.map BitVec.toNat) = resOk →
      Completes (.recoveryRollback q epoch tstep peers) s fun t =>
        Answered q (Reg.recoveryCmd.objAt 0) t ∧ t.reg .recoveryState = 2 ∧ t.reg .jobEpoch = epoch.toNat ∧
          t.recovery = some ⟨1, 0xFF, epoch.toNat, tstep.toNat, []⟩) ∧
  (∀ (s : State) (q : Requester) (pos : Byte) (epoch : Half) (tstep : Dword) (peers : Option Half),
      Accepts s q .recoveryCmd 0 (recoveryBytes 2 pos.toNat epoch.toNat tstep.toNat) →
      s.recoveryRefusal 2 pos.toNat epoch.toNat tstep.toNat (peers.map BitVec.toNat) = resOk →
      Completes (.recoveryTakeover q pos epoch tstep peers) s fun t =>
        Answered q (Reg.recoveryCmd.objAt 0) t ∧ t.reg .recoveryState = 2 ∧ t.reg .jobEpoch = epoch.toNat ∧
          t.recovery = some ⟨2, pos.toNat, epoch.toNat, tstep.toNat, []⟩) ∧
  (∀ (s : State) (q : Requester) (epoch : Half) (tstep : Dword) (peers : Option Half),
      Accepts s q .recoveryCmd 0 (recoveryBytes 3 0xFF epoch.toNat tstep.toNat) →
      s.recoveryRefusal 3 0xFF epoch.toNat tstep.toNat (peers.map BitVec.toNat) = resOk →
      Completes (.recoveryRejoin q epoch tstep peers) s fun t =>
        Answered q (Reg.recoveryCmd.objAt 0) t ∧ t.reg .recoveryState = 2 ∧ t.reg .jobEpoch = epoch.toNat ∧
          t.recovery = some ⟨3, 0xFF, epoch.toNat, tstep.toNat, []⟩) ∧
  (∀ (s : State) (q : Fin 17) (h : Header) (lost : Fin 17),
      Heard s q.val h →
      lost.val ≠ s.pos →
      bit (s.reg .groupMap (s.cameFrom q.val h)) 21 = true →
      s.cameFrom q.val h < 17 →
      Completes (.takeoverUpdateMessage q h lost) s fun t =>
        t.reg .groupMap lost = withoutBit (s.reg .groupMap lost) 20 % 2 ^ 32 ∧
          (s.cameFrom q.val h ≠ lost.val →
            t.reg .groupMap (s.cameFrom q.val h) = 2 ^ 20 + s.reg .groupMap lost % 2 ^ 20) ∧
          ∃ m, t = ((s.control (s.cameFrom q.val h) .takeoverAck).changeAll .groupMap 0 m).loseIdentity lost.val) ∧
  (∀ (s : State) (v : Arrival) (r : Recovery),
      Heard s v.pos.val v.h →
      s.recovery = some r →
      r.kind = 2 →
      r.acknowledged s = false →
      r.acks.contains (s.cameFrom v.pos.val v.h) = false →
      Completes (.takeoverAcknowledgement v) s fun t =>
        t.recovery = some { r with acks := r.acks ++ [s.cameFrom v.pos.val v.h] }) ∧
  (∀ (s : State) (bad : Bool) (peers : Option Image) (r : Recovery),
      s.recovery = some r →
      s.reg .recoveryState = 2 →
      (r.kind = 2 → r.acknowledged s = true) →
      Completes (.restoreComplete bad peers) s fun t =>
        (∀ x, ((s.imagesOf r.kind r.tstep).find? fun x => !bad && s.restorable x) = some x →
          t = (s.copyBack x).applyImage x.image) ∧
          (((s.imagesOf r.kind r.tstep).find? fun x => !bad && s.restorable x) = none →
            (peers = none → t = s.failRestore 5) ∧
            (∀ i, peers = some i → (s.snapEntries.bind fun es => placeImage es i) = none → t = s.failRestore 6) ∧
            (∀ i ws, peers = some i → (s.snapEntries.bind fun es => placeImage es i) = some ws →
              t = (s.writes ws).applyImage i)))

/-- The time-step boundary and the Crosswind messages complete (R38, R226, R467, R469, R472, R473, R521). Each command
named here completes. In every state and with all operands that meet the hypotheses of its clause, exec answers a next
state with the step number, the digests kept and compared, and the pairing state. Where a clause rests on what the
model chose or read, the log entries named at the command's meaning say so. -/
def Obligations.BoundaryAndCrosswindComplete : Prop :=
  (∀ (s : State),
      s.boundaryReached = true →
      s.reg .jobRunning = 1 →
      Completes .timeStepBoundary s fun t =>
        (∃ u : State, u = s.passBoundary ∧ t = if u.lullReached then u.enterLull else u) ∧
          (s.deferred = [] → s.reg .xwState ≠ 2 → s.reg .recoveryState < 4 →
            t.reg .tstep = (s.reg .tstep + 1) % 2 ^ 64)) ∧
  (∀ (s : State) (q : Requester),
      Accepts s q .stateRequest 0 [4] →
      Completes (.stateRequestResume q) s fun t =>
        Answered q (Reg.stateRequest.objAt 0) t ∧ t.reg .nodeState = s.ratedState) ∧
  (∀ (s : State) (v : Arrival) (tstep digest : Dword),
      Heard s v.pos.val v.h →
      bit (s.reg .groupMap s.pos) 21 = true →
      Completes (.nodeDigestMessage v tstep digest) s fun t =>
        t.keptFor.find? (fun e => decide (e.1 = v.h.src.val) && decide (e.2.1 = tstep.toNat)) = some (v.h.src.val,
          tstep.toNat, digest.toNat) ∧
          (∀ e, e.1 ≠ v.h.src.val → (e ∈ t.keptFor ↔ e ∈ s.keptFor)) ∧ t.regs = s.regs ∧ MemKept s t) ∧
  (∀ (s : State) (v : Arrival) (tstep digest : Dword),
      FromPartner s v →
      s.reg .xwState = xwPaired →
      Completes (.crosswindDigestMessage v tstep digest) s fun t =>
        t = ({ s.addReg .xwReceived 0 1 with xwTheirs := s.xwTheirs ++ [(tstep.toNat, digest.toNat)] } :
          State).endHolds.compareSteps.compareStreams) ∧
  (∀ (s : State) (v : Arrival) (tstep : Dword) (streams : List (Nat × Nat)),
      FromPartner s v →
      s.reg .xwState = xwPaired →
      Completes (.crosswindStreamDigests v tstep streams) s fun t =>
        t = ({ s with xwStreams := some (tstep.toNat, streams) } : State).compareStreams) ∧
  (∀ (s : State) (v : Arrival) (records : List (Nat × Nat)) (intact : Bool) (data : List Byte) (word : Dword) (d :
    XwDiff),
      s.xwDiff = some d →
      d.found = true →
      FromPartner s v →
      s.reg .xwState = xwPaired →
      Completes (.crosswindChunkExchange v records intact data word) s fun t =>
        t.reg .xwState = 4 ∧ t.xwDiff = none ∧ bit (t.reg .alertCause) 5 = true) ∧
  (∀ (s : State) (v : Arrival) (m : Option XwPairing),
      FromPartner s v →
      Completes (.crosswindPairingMessage v m) s fun t =>
        (m = none → t = s.endPairing) ∧ (∀ p, m = some p →
          t = ({ s with xwMsg := some p } : State).decidePairing.settleEpochs))

/-- Epoch fences, barriers and deadlines complete (R222, R228, R379, R441). Each command named here completes. In every
state and with all operands that meet the hypotheses of its clause, exec answers a next state with the fence that the
node joins, and its end. Where a clause rests on what the model chose or read, the log entries named at the command's
meaning say so. -/
def Obligations.EpochsComplete : Prop :=
  (∀ (s : State) (b : Fin 256) (f : Flight),
      s.ready b.val (fun f => decide (f.op = opEpoch)) = some f →
      f.param 0 16 = s.reg .jobEpoch →
      (s.reg .detExpect = 0 ∨ s.reg .detExpect = s.detSignature) →
      Completes (.epoch b) s fun t =>
        ∃ u v : State, u = s.stillWaits b.val f ∧
          v = (if u.reg .xwEnable = 1 ∧ u.reg .xwState = xwOff then
            ((u.setXw xwPairing).tellPartner (.xwPair (some u.ownPairing))).decidePairing else u) ∧
          t = v.joinFence.settleEpochs) ∧
  (∀ (s : State) (b : Fin 256) (k : Nat) (f : Flight),
      ((s.bay b.val).colls ++ (s.bay b.val).flights)[k]? = some f →
      bit f.rflags 0 = false →
      (s.bay b.val).stops = false →
      Completes (.deadlineMissed b k) s fun t =>
        t.reg .deadlinesMissed = (s.reg .deadlinesMissed + 1) % Reg.modulus .deadlinesMissed ∧ (f.op ≠ opEpoch →
          Records s t 0x0C 5 5 0x0F b.val)) ∧
  (∀ (s : State) (q : Fin 17) (h : Header) (withdrawn : Bool),
      Heard s q.val h →
      Completes (.epochFenceMessage q h withdrawn) s fun t =>
        (withdrawn = true → t = s.setFlag .fenceHeld 0 (s.cameFrom q.val h) false) ∧ (withdrawn = false →
          t = (s.setFlag .fenceHeld 0 (s.cameFrom q.val h) true).checkFence)) ∧
  (∀ (s : State),
      s.reg .fenceJoined ≠ 0 →
      s.reg .fenceDone ≠ 1 →
      s.oneGroup = false →
      (s.represents = true → s.barrierDone = true) →
      Completes .jobBarrierComplete s fun t =>
        t = (if s.represents then s.peers.foldl (fun (u : State) q => u.control q .release) s else
          s).fencePassed)

/-- Core replays, core self-tests and supervisor mismatches complete (R250, R291, R292). Each command named here
completes. In every state and with all operands that meet the hypotheses of its clause, exec answers a next state with
the counts, the harts that migrate and the supervisor pair. Where a clause rests on what the model chose or read, the
log entries named at the command's meaning say so. -/
def Obligations.CoreFaultsComplete : Prop :=
  (∀ (s : State) (core : Fin 192) (part : CorePart) (again : Bool),
      s.reg .coreFailed core ≠ 1 →
      (s.tests.any fun t => decide (t.kind = 9) && decide (t.unit = coreUnit core.val)) = false →
      Completes (.coreParityReplay core part again) s fun t =>
        (again = false → Records s t 1 0 1 9 (coreUnit core.val) ∧
            (part = .registers → t.reg .coreReplays = (s.reg .coreReplays + 1) % Reg.modulus .coreReplays)) ∧
          (again = true → Records s t 2 0 0 9 (coreUnit core.val) ∧ ∃ x, x ∈ t.tests ∧ x.kind = 9 ∧
            x.unit = coreUnit core.val)) ∧
  (∀ (s : State) (core : Fin 192) (pass : Bool) (x : SelfTest),
      s.runningTest 9 (coreUnit core.val) = some x →
      Completes (.coreSelftestComplete core pass) s fun t =>
        (pass = true → t = (s.endTest x 1).resumeCore core.val) ∧ (pass = false → t.reg .coreFailed core = 1 ∧
            t.reg .coresUsable = (s.reg .coresUsable - 1) % Reg.modulus .coresUsable)) ∧
  (∀ (s : State),
      s.supervisorUp = true →
      Completes (.supervisorMismatch false) s fun t =>
        (s.reg .supStandbyOk = 1 → t.reg .supActive = 1 - s.reg .supActive ∧ t.reg .supStandbyOk = 0 ∧
            t.reg .supTakeovers = (s.reg .supTakeovers + 1) % Reg.modulus .supTakeovers ∧
              Records s t 0x18 2 6 0x0E (s.reg .supActive)) ∧
          (s.reg .supStandbyOk ≠ 1 → t.reg .nodeState = 7)) ∧
  (∀ (s : State),
      s.supervisorUp = true →
      Completes (.supervisorMismatch true) s fun t =>
        (s.reg .supStandbyOk = 1 → t.reg .supActive = s.reg .supActive ∧ t.reg .supStandbyOk = 0 ∧
            t.reg .supTakeovers = s.reg .supTakeovers ∧ Records s t 0x18 2 6 0x0E (1 - s.reg .supActive)) ∧
          (s.reg .supStandbyOk ≠ 1 → t = s))

/-- DIGEST, MODEL and the Tailwind copy complete (R136, R141, R462). Each command named here completes. In every state and
with all operands that meet the hypotheses of its clause, exec answers a next state with the effect of the entry as
its plan gives it. Where a clause rests on what the model chose or read, the log entries named at the command's
meaning say so. -/
def Obligations.DigestAndModelComplete : Prop :=
  (∀ (s : State) (b : Fin 256) (f : Flight) (o : Operands) (d : Desc),
      s.ready b.val (fun f => decide (f.op = opDigest)) = some f →
      s.operands (s.bay b.val) f = .ok o →
      o.a = .tensor d →
      (s.poisonedAny (d.digestRuns.map fun r => (r.1, r.1 + r.2))) = false →
      Completes (.digest b) s fun t =>
        ∃ u : State, u = s.setBay b.val
          { s.bay b.val with streams := (s.bay b.val).streams.set (f.param 0 3) (some (crcFold
            (((s.bay b.val).streams.getD (f.param 0 3) none).getD crcOnes) ((s.runBytes d.digestRuns).map Prod.snd))) } ∧
          t = (if s.reg .xwLog ≠ 0 ∧ s.reg .xwState = 2 then
            u.logChunks b.val (chunkRecords (f.param 0 3) f.step (s.runBytes d.digestRuns).length (s.runBytes
              d.digestRuns))
            else u).perform b.val f {}) ∧
  (∀ (s : State) (b : Fin 256) (f : Flight),
      s.ready b.val (fun f => decide (f.op = opModel)) = some f →
      ((s.bay b.val).model = some (f.param 0 16) ∨ s.modelPoisoned (f.param 0 16) = false) →
      Completes (.model b) s fun t =>
        t = (s.bindModel b.val (f.param 0 16) [f.param 16 16, f.param 32 16, f.param 48 16]).perform b.val f {}) ∧
  (∀ (s : State) (die : Fin 8) (e : TailwindCopy),
      s.tailwind.find? (fun e => decide (e.die = die.val)) = some e →
      Completes (.tailwindCopyComplete die) s fun t =>
        ∃ u : State, u = { s with tailwind := s.tailwind.filter fun (d : TailwindCopy) => d ≠ e } ∧
          t = if s.modelState e.index = 0 then u else u.place die.val e.index (e.met || u.boundOn die.val e.index))

/-- Every VOP function completes (R157, R159, R165, R216). Each command named here completes. In every state and with all
operands that meet the hypotheses of its clause, exec answers a next state with the effect that the plan of the
function gives of the operands read. Where a clause rests on what the model chose or read, the log entries named at
the command's meaning say so. -/
def Obligations.VopComplete : Prop :=
  VectorCompletes .vopCopy opVop 0 State.planVop ∧
  VectorCompletes .vopAdd opVop 1 State.planVop ∧
  VectorCompletes .vopSub opVop 2 State.planVop ∧
  VectorCompletes .vopMul opVop 3 State.planVop ∧
  VectorCompletes .vopFma opVop 4 State.planVop ∧
  VectorCompletes .vopDiv opVop 5 State.planVop ∧
  VectorCompletes .vopSqrt opVop 6 State.planVop ∧
  VectorCompletes .vopMin opVop 7 State.planVop ∧
  VectorCompletes .vopMax opVop 8 State.planVop ∧
  VectorCompletes .vopAbs opVop 9 State.planVop ∧
  VectorCompletes .vopNeg opVop 0xA State.planVop ∧
  VectorCompletes .vopScale opVop 0xB State.planVop ∧
  VectorCompletes .vopSel opVop 0xC State.planVop ∧
  VectorCompletes .vopShiftc opVop 0xD State.planVop ∧
  VectorCompletes .vopRelu opVop 0xE State.planVop ∧
  VectorCompletes .vopCmpeq opVop 0x10 State.planVop ∧
  VectorCompletes .vopCmplt opVop 0x11 State.planVop ∧
  VectorCompletes .vopCmple opVop 0x12 State.planVop ∧
  VectorCompletes .vopCmpne opVop 0x13 State.planVop ∧
  VectorCompletes .vopPand opVop 0x18 State.planVop ∧
  VectorCompletes .vopPor opVop 0x19 State.planVop ∧
  VectorCompletes .vopPxor opVop 0x1A State.planVop ∧
  VectorCompletes .vopPnot opVop 0x1B State.planVop ∧
  VectorCompletes .vopPset opVop 0x1C State.planVop ∧
  VectorCompletes .vopExp opVop 0x20 State.planVop ∧
  VectorCompletes .vopLog opVop 0x21 State.planVop ∧
  VectorCompletes .vopTanh opVop 0x22 State.planVop ∧
  VectorCompletes .vopSigm opVop 0x23 State.planVop ∧
  VectorCompletes .vopSilu opVop 0x24 State.planVop ∧
  VectorCompletes .vopGelu opVop 0x25 State.planVop

/-- Every VRED function completes (R167, R168, R169). Each command named here completes. In every state and with all
operands that meet the hypotheses of its clause, exec answers a next state with the effect that the plan of the
function gives of the operands read. Where a clause rests on what the model chose or read, the log entries named at
the command's meaning say so. -/
def Obligations.VredComplete : Prop :=
  VectorCompletes .vredSum opVred 0x40 State.planVred ∧
  VectorCompletes .vredSumsq opVred 0x41 State.planVred ∧
  VectorCompletes .vredDot opVred 0x42 State.planVred ∧
  VectorCompletes .vredMax opVred 0x43 State.planVred ∧
  VectorCompletes .vredMin opVred 0x44 State.planVred ∧
  VectorCompletes .vredMaxabs opVred 0x45 State.planVred ∧
  VectorCompletes .vredArgmax opVred 0x46 State.planVred ∧
  VectorCompletes .vredCountnz opVred 0x47 State.planVred

/-- Every MMA form, the array test and the bay spare copy complete (R109, R118, R121, R215). Each command named here
completes. In every state and with all operands that meet the hypotheses of its clause, exec answers a next state with
the effect of the MMA as its plan gives it, and the bay states. Where a clause rests on what the model chose or read,
the log entries named at the command's meaning say so. -/
def Obligations.MatrixComplete : Prop :=
  MmaCompletes .mmaFull 0 ∧
  MmaCompletes .mmaPartial 1 ∧
  MmaCompletes .mmaCombine 2 ∧
  (∀ (s : State) (die : Fin 8) (phys : Fin 34) (pass : Bool) (x : SelfTest),
      s.runningTest 1 (die.val * 64 + phys.val) = some x →
      x.stage = 0 →
      Completes (.arrayBistComplete die phys pass) s fun t =>
        (pass = true → t = (s.resumeBays (s.hosted die.val phys.val) false).endTest x 1) ∧
          (pass = false → t.reg .bayState (die.val * 34 + phys.val) = 2 ∧
            (s.spareBay die.val = none → bit (t.reg .degradeCause) 0 = true))) ∧
  (∀ (s : State) (die : Fin 8) (phys : Fin 34) (x : SelfTest),
      s.runningTest 1 (die.val * 64 + phys.val) = some x →
      x.stage = 1 →
      Completes (.baySpareCopyComplete die phys) s fun t =>
        (∀ k, k ∈ s.hosted die.val phys.val → t.reg .lbayMap k = (die.val * 256 + x.spare) % 65536) ∧
          (s.reg .bayState (die.val * 34 + x.spare) = 1 → t.reg .bayState (die.val * 34 + x.spare) = 0) ∧
          (∀ y ∈ t.tests, y.kind = x.kind → y.unit ≠ x.unit))

/-- XFER, GATH, SCAT, RSTORE, MCAST and RACC complete (R218, R219, R380, R386, R388, R390). Each command named here
completes. In every state and with all operands that meet the hypotheses of its clause, exec answers a next state with
the local part done and the packets sent. Where a clause rests on what the model chose or read, the log entries named
at the command's meaning say so. -/
def Obligations.DataMoversComplete : Prop :=
  EntryCompletes .xfer (fun f => decide (f.op = opXfer)) State.planXfer ∧
  (∀ (s : State) (b : Fin 256) (f : Flight) (d i v : Desc) (y : Operand),
      s.ready b.val (fun f => decide (f.op = opGath)) = some f →
      s.operands (s.bay b.val) f = .ok ⟨.tensor d, .tensor i, .tensor v, y⟩ →
      Completes (.gath b) s fun t =>
        (d.remote = false → t = s.finishGather b.val f) ∧
          (∀ q, d.remote = true → s.peerPos d.lnode = some q → ∃ u : State,
            u = (List.range v.elems).foldl (fun (u : State) k =>
              match u.gsIndex d i k with
              | .ok n => u.request (.bay b.val f.serial k) q (f.param 0 3) (d.elemAddr n) d.key (.read d.size)
              | .error _ => u) (s.setFlight b.val { f with phase := 1 }) ∧
            t = u.finishGather b.val { f with phase := 1 })) ∧
  (∀ (s : State) (b : Fin 256) (f : Flight) (v i d : Desc) (y : Operand),
      s.ready b.val (fun f => decide (f.op = opScat)) = some f →
      s.operands (s.bay b.val) f = .ok ⟨.tensor v, .tensor i, .tensor d, y⟩ →
      firstFault ((List.range v.elems).map (s.gsTarget d i)) 0 = none →
      s.poisonedAny v.readRanges = false →
      Completes (.scat b) s fun t =>
        (d.remote = false → t = (s.perform b.val f
            { tiles := gsStaging s.free
              writes := (((List.range v.elems).map (s.gsTarget d i)).filterMap fun r => r.toOption).zipIdx.map
                fun p => (d.elemAddr p.1, s.bytes (v.elemAddr p.2) v.size) }).draw.2) ∧
          (∀ q, d.remote = true → s.peerPos d.lnode = some q → ∃ u : State,
            u = (((List.range v.elems).map (s.gsTarget d i)).filterMap fun r => r.toOption).zipIdx.foldl
              (fun (u : State) p => u.request (.bay b.val f.serial p.2) q (f.param 0 3) (d.elemAddr p.1 + d.size) d.key
                (.write [] false)) (s.setFlight b.val { f with phase := 1 }) ∧
            t = u.finishScatter b.val { f with phase := 1 })) ∧
  (∀ (s : State) (b : Nat) (f : Flight) (v i d : Desc) (y : Operand),
      s.operands (s.bay b) f = .ok ⟨.tensor v, .tensor i, .tensor d, y⟩ →
      ((List.range v.elems).map (s.gathered f d i)).any Option.isNone = false →
      firstFault (((List.range v.elems).map (s.gathered f d i)).filterMap id) 0 = none →
      s.poisonedAny v.readRanges = false →
      s.finishScatter b f = ((s.sendOp (.bay b f.serial 0) ((s.peerPos d.lnode).getD 0) (f.param 0 3) d.key
        ((List.range v.elems).filterMap fun k => (s.gsIndex d i k).toOption.map fun n =>
          (d.elemAddr n, Body.write (s.bytes (v.elemAddr k) v.size) false)) none none).perform b f
            { tiles := gsStaging s.free }).draw.2) ∧
  (∀ (s : State) (b : Fin 256) (f : Flight) (o : Operands) (a d : Desc),
      s.ready b.val (fun f => decide (f.op = opRstore)) = some f →
      s.operands (s.bay b.val) f = .ok o →
      o.a = .tensor a →
      o.d = .tensor d →
      s.poisonedAny a.readRanges = false →
      Completes (.rstore b) s fun t =>
        t = (match s.peerPos d.lnode with
            | some q => s.sendBlocks b.val f q (f.param 0 3) d.key (s.storeRuns a d) (signalOf f o)
            | none => s.mailRuns b.val f.serial d (f.param 0 3) (signalOf f o) (s.storeRuns a d)).perform b.val f {}) ∧
  (∀ (s : State) (b : Fin 256) (f : Flight) (o : Operands) (a d : Desc),
      s.ready b.val (fun f => decide (f.op = opMcast)) = some f →
      s.operands (s.bay b.val) f = .ok o →
      o.a = .tensor a →
      o.d = .tensor d →
      s.poisonedAny a.readRanges = false →
      Completes (.mcast b) s fun t =>
        t = (((s.multicast (f.param 0 8)).filterMap s.peerPos).foldl (fun (u : State) q =>
            u.sendBlocks b.val f q (f.param 8 3) d.key (s.storeRuns a d) (signalOf f o)) s).perform b.val f {}) ∧
  (∀ (s : State) (b : Fin 256) (f : Flight) (o : Operands) (a d : Desc) (q : Nat),
      s.ready b.val (fun f => decide (f.op = opRacc) && ((f.nd && !bit f.rflags 1) == true)) = some f →
      s.operands (s.bay b.val) f = .ok o →
      o.a = .tensor a →
      o.d = .tensor d →
      s.poisonedAny a.readRanges = false →
      s.peerPos d.lnode = some q →
      Completes (.raccRelaxed b) s fun t =>
        t = (s.sendOp (.bay b.val f.serial 0) q (f.param 8 3) d.key
          ((s.raccPieces a d).map fun w => (w.1, .racc (f.param 0 8) (raccFmt a.fmt) d.fmt w.2 none))
          ((signalOf f o).map fun x => (x.addr, x.key)) none).perform b.val f {}) ∧
  (∀ (s : State) (b : Fin 256) (f : Flight) (o : Operands) (a d : Desc) (q : Nat),
      s.ready b.val (fun f => decide (f.op = opRacc) && ((f.nd && !bit f.rflags 1) == false)) = some f →
      s.operands (s.bay b.val) f = .ok o →
      o.a = .tensor a →
      o.d = .tensor d →
      s.poisonedAny a.readRanges = false →
      s.peerPos d.lnode = some q →
      Completes (.raccOrdered b) s fun t =>
        ∃ (order : Option RaccOrder) (u : State), order = some ⟨s.reg .raccRound, b.val, Store.at 0 s.raccIssue b.val⟩ ∧
          u = { s with raccIssue := Store.put 0 s.raccIssue b.val (Store.at 0 s.raccIssue b.val + 1) } ∧
          t = (u.sendOp (.bay b.val f.serial 0) q (f.param 8 3) d.key
            ((u.raccPieces a d).map fun w => (w.1, .racc (f.param 0 8) (raccFmt a.fmt) d.fmt w.2 order))
            ((signalOf f o).map fun x => (x.addr, x.key)) order).perform b.val f {})

/-- TRANS and HIST functions complete (R182, R183, R191). Each command named here completes. In every state and with all
operands that meet the hypotheses of its clause, exec answers a next state with the translation started, its parts,
and the statistics records. Where a clause rests on what the model chose or read, the log entries named at the
command's meaning say so. -/
def Obligations.CouplersComplete : Prop :=
  TransCompletes .transEncode 0 ∧
  TransCompletes .transDecode 1 ∧
  TransCompletes .transRecode 2 ∧
  TransCompletes .transConvert 3 ∧
  (∀ (s : State) (b : Fin 256) (c : Fin 8) (f : Flight),
      (s.bay b.val).flights.find? (fun f => decide (f.op = opTrans) && decide (f.phase = 1) && f.plan.any fun p =>
        decide (s.servingCoupler p.1 = c.val)) = some f →
      s.inTest 8 c.val = false →
      Completes (.transPartComplete b c) s fun t =>
        ((∃ p ∈ f.plan, s.servingCoupler p.1 ≠ c.val) →
            t = ((f.plan.filter fun p => decide (s.servingCoupler p.1 = c.val)).foldl (fun (u : State) p =>
              u.writeCoupler p.2.1 p.2.2) s).setFlight b.val
              { f with plan := f.plan.filter fun p => !decide (s.servingCoupler p.1 = c.val) }) ∧
          ((∀ p ∈ f.plan, s.servingCoupler p.1 = c.val) → ∃ (u : State) (g : Flight),
            t = (u.addReg .transElements 0 f.elems).setFlight b.val g ∧ g.serial = f.serial ∧ g.plan = [] ∧
              g.phase = 2 ∧ g.executed = true)) ∧
  HistCompletes .histClear 0 (fun v f o => match o.d with
    | .tensor d => { writes := [(d.record, [0])] }
    | _ => {}) ∧
  HistCompletes .histCopy 2 (fun v f o => match o.a,
    o.d with
    | .tensor a, .tensor d => v.unpoisoned [(a.record, a.record + 640)] { writes := [(d.addr, v.bytes a.record 640)] }
    | _, _ => {}) ∧
  HistCompletes .histMerge 3 (fun v f o => match o.a,
    o.d with
    | .tensor a, .tensor d => v.unpoisoned [(a.record, a.record + 640)]
        (if v.load a.record 1 = 0 then {} else { merges := [(d.record, deltaOf (v.bytes a.record 640))] })
    | _, _ => {}) ∧
  HistCompletes .histScan 4 (fun v f o => match o.a,
    o.d with
    | .tensor a, .tensor d => v.unpoisoned a.readRanges
        { status := (v.scanDelta a (v.reg .stats (f.param 4 4))).status
          merges := if d.scale = 0 ∨ (v.scanDelta a (v.reg .stats (f.param 4 4))).sel = 0 then []
            else [(d.record, v.scanDelta a (v.reg .stats (f.param 4 4)))] }
    | _, _ => {}) ∧
  (∀ (s : State) (b : Fin 256) (f : Flight) (x y z : Operand) (d : Desc),
      s.originHeld b.val = false →
      s.ready b.val (fun f => decide (f.op = opHist) && decide (f.param 0 3 = 1)) = some f →
      s.operands (s.bay b.val) f = .ok ⟨x, y, .tensor d, z⟩ →
      Completes (.histCarry b) s fun t =>
        ∃ u v : State, v = s.viewFor b.val f ∧
          u = s.perform b.val f (v.unpoisoned [(d.record, d.record + 640)] (if v.carries d.record then
            { writes := [(d.scale, leBytes 4 (v.coarseFrom (v.recordExp d.record))), (d.record, [0])] } else {})) ∧
          t = if v.carries d.record || v.poisonedAny [(d.record,
            d.record + 640)] then u else u.addReg .transCarryMisses 0 1)

/-- Sequencer entries issue, start, complete and branch (R94, R207, R209, R220, R221, R223, R224, R225, R229). Each
command named here completes. In every state and with all operands that meet the hypotheses of its clause, exec
answers a next state with the table position, the flights, the record of the entry, the waits and the mode sets. Where
a clause rests on what the model chose or read, the log entries named at the command's meaning say so. -/
def Obligations.SequencerComplete : Prop :=
  (∀ (s : State) (b : Fin 256),
      s.mayIssue b.val (s.bay b.val) = true →
      s.poisoned (((s.bay b.val).table + 32 * (s.bay b.val).index) / 128 * 128) (((s.bay b.val).table + 32 * (s.bay
        b.val).index) / 128 * 128 + 128) = false →
      Completes (.entryIssue b) s fun t =>
        ∃ u : State, u = (s.fillWindow b.val ((s.bay b.val).table + 32 * (s.bay b.val).index)).addReg .stepsIssued 0 1 ∧
          t = u.setBay b.val { u.bay b.val with
            head := some ((u.bay b.val).newFlight (field (((u.bay b.val).window.lookup (((s.bay b.val).table + 32 *
              (s.bay b.val).index) / 128 * 128)).getD 0)
              (8 * (((s.bay b.val).table + 32 * (s.bay b.val).index) % 128)) 256) u.now)
            atLast := false }) ∧
  (∀ (s : State) (b : Fin 256) (f : Flight) (queueFull : Bool),
      (s.bay b.val).head = some f →
      resolvedAtIssue f = false →
      s.lagHold (s.bay b.val) f = false →
      f.status = 0 →
      s.mayStart b.val (s.bay b.val) f = true →
      staticCheck f = 0 →
      ((f.nd = true → s.reg .strict ≠ 1)) →
      s.badDescs b.val f = [] →
      Completes (.entryStart b queueFull) s fun t =>
        ∀ v : State, v = s.fillDescs b.val f →
          ∀ (o : Operands) (p : Prep × List Nat), v.operands (v.bay b.val) f = .ok o →
            v.opCheck b.val (v.bay b.val) f o = 0 →
            p = prepare (v.viewFor b.val { f with spec := f.isSpec }) (v.bay b.val) f o →
            (((v.bay b.val).flights.filter fun g => !(f.isSpec && g.spec && g.executed)).any (conflicts p.1)) = false →
            ((v.bay b.val).colls.any (gatedBy f p.1)) = false → v.areaRace b.val f p.2 = false →
            t = v.launch b.val (if f.op = opMma then (v.viewFor b.val { f with spec := f.isSpec }).fillStores (v.bay b.val) f
                (v.bay b.val).serial true o else v.bay b.val) f p.1 p.2 (v.deadlineOf f o)) ∧
  (∀ (s : State) (b : Fin 256) (f : Flight) (queueFull : Bool),
      (s.bay b.val).flights.find? (fun f => f.executed && !f.spec && !s.held b.val f) = some f →
      (s.bay b.val).parked = false →
      (s.bay b.val).sparing = 0 →
      Completes (.entryComplete b queueFull) s fun t =>
        t = s.completeEntry b.val f queueFull) ∧
  (∀ (s : State) (b : Fin 256) (f : Flight) (queueFull : Bool),
      (s.bay b.val).flights.find? (fun f => !f.executed && (decide (f.op = opFence) || decide (f.op = opWait) ||
        decide (f.op = opEpoch))) = some f →
      (s.bay b.val).stops = false →
      Completes (.entryAbandon b queueFull) s fun t =>
        t = s.completeEntry b.val { f with result := 0x81, detail := 0, halts := true } queueFull) ∧
  (∀ (s : State) (b : Fin 256) (f : Flight) (queueFull : Bool),
      s.resolvable b.val opBr = some f →
      staticCheck f = 0 →
      Completes (.br b queueFull) s fun t =>
        ∃ u : State, u = s.noteHoldOf b.val ∧ t = u.resolveAt b.val { f with status := 0 } f.table
            (if condHolds f.cond (u.bay b.val).cf then f.next else f.index + 1) queueFull) ∧
  (∀ (s : State) (b : Fin 256) (f : Flight) (queueFull : Bool),
      s.resolvable b.val opLoop = some f →
      staticCheck f = 0 →
      Completes (.loop b queueFull) s fun t =>
        ∃ (u : State) (x : Bay), u = s.noteHoldOf b.val ∧ x = u.bay b.val ∧
          (x.left.getD (f.param 32 3) 0 = 0 →
            t = (u.setBay b.val { x with
              left := x.left.set (f.param 32 3) (f.param 0 32 - 1)
              count := x.count.set (f.param 32 3) (f.param 0 32) }).resolveAt b.val { f with status := 0 } f.table
                (if 1 < f.param 0 32 then f.next else f.index + 1) queueFull) ∧
          (x.left.getD (f.param 32 3) 0 ≠ 0 →
            t = (u.setBay b.val { x with
              left := x.left.set (f.param 32 3) (x.left.getD (f.param 32 3) 0 - 1) }).resolveAt b.val
                { f with status := 0 } f.table (if 1 < x.left.getD (f.param 32 3) 0 then f.next else f.index + 1)
                queueFull)) ∧
  (∀ (s : State) (b : Fin 256) (f : Flight) (queueFull : Bool),
      s.resolvable b.val opCall = some f →
      staticCheck f = 0 →
      (s.bay b.val).stack.length < 8 →
      Completes (.call b queueFull) s fun t =>
        ∃ (u v : State), u = s.noteHoldOf b.val ∧
          v = u.setBay b.val { u.bay b.val with stack := (f.table, f.index + 1) :: (s.bay b.val).stack } ∧
          (f.param 0 1 = 0 → t = v.resolveAt b.val { f with status := 0 } f.table f.next queueFull) ∧
          (∀ m, f.param 0 1 ≠ 0 → (s.bay b.val).model = some m → s.poisoned (64 * m) (64 * m + 64) = false →
            t = v.resolveAt b.val { f with status := 0 } (u.roster m 0x18 8) 0 queueFull)) ∧
  (∀ (s : State) (b : Fin 256) (f : Flight),
      s.ready b.val (fun f => decide (f.op = opEnd)) = some f →
      Completes (.tableEnd b) s fun t =>
        t = s.perform b.val f {}) ∧
  (∀ (s : State) (b : Fin 256) (f : Flight),
      (s.bay b.val).flights.find? (fun f => !f.executed && decide (f.op = opFence)) = some f →
      (s.bay b.val).parked = false →
      (s.bay b.val).sparing = 0 →
      Completes (.fence b) s fun t =>
        ∃ u : State, u = s.setBay b.val { s.bay b.val with
            descs := if f.param 2 1 = 1 then [] else (s.bay b.val).descs
            window := if f.param 3 1 = 1 then [] else (s.bay b.val).window
            failure := if f.param 1 1 = 1 then none else (s.bay b.val).failure } ∧
          (f.param 1 1 ≠ 1 → t = u.setFlight b.val { f with executed := true, phase := 0, result := 0, detail := 0 }) ∧
          (f.param 1 1 = 1 → s.bayWaits b.val = true → t = s.stillWaits b.val f) ∧
          (f.param 1 1 = 1 → s.bayWaits b.val = false → t = (u.groupFence b.val f.step).setFlight b.val { f with
            executed := true, phase := 0
            result := ((s.bay b.val).failure.getD (0, 0)).1, detail := ((s.bay b.val).failure.getD (0, 0)).2 })) ∧
  WaitCompletes .waitEvent 0 ∧
  WaitCompletes .waitFlag 1 ∧
  WaitCompletes .waitNodeBarrier 2 ∧
  WaitCompletes .waitToken 3 ∧
  (∀ (s : State) (b : Fin 256) (f : Flight),
      (s.bay b.val).flights.find? (fun f => decide (f.op = opWait) && !f.executed && decide (f.phase = 1)) = some f →
      s.waitMet b.val f = true →
      (s.bay b.val).sparing = 0 →
      (s.bay b.val).parked = false →
      Completes (.waitConditionMet b) s fun t =>
        t = s.endWait b.val f) ∧
  (∀ (s : State) (b : Fin 256) (v : Dword),
      Completes (.eventRegisterWrite b v) s fun t =>
        t = s.setEvent b.val v.toNat) ∧
  (∀ (s : State) (q : Requester) (x : ModeObject) (n : Fin 16) (v : Byte),
      Accepts s q (modeReg x) n.val [v] →
      Completes (.modeSetWrite q x n v) s fun t =>
        t = (s.accepted q (modeReg x) n.val [v]).answer q ((modeReg x).objAt n.val) resOk)

/-- Every short-vector instruction completes (R50, R254, R268, R269, R270, R271, R273). Each command named here completes.
In every state and with all operands that meet the hypotheses of its clause, exec answers a next state with the
destination register, the flags and the program counter; other registers, harts and memory stay. Where a clause rests
on what the model chose or read, the log entries named at the command's meaning say so. -/
def Obligations.SvxArithmeticComplete : Prop :=
  SvxCompletes .vadd (fun u _ _ => !u) (fun w _ _ et => mapLanes (formBits w) et.val fun a b _ => laneAdd false
    et.val a b) ∧
  SvxCompletes .vsub (fun u _ _ => !u) (fun w _ _ et => mapLanes (formBits w) et.val fun a b _ => laneAdd true et.val
    a b) ∧
  SvxCompletes .vmul (fun u _ _ => !u) (fun w _ _ et => mapLanes (formBits w) et.val fun a b _ => laneMul et.val a b) ∧
  SvxCompletes .vmulh (fun _ _ et => laneInteger et.val) (fun w u _ et => mapLanes (formBits w) et.val fun a b _ =>
    laneMulh u et.val a b) ∧
  SvxCompletes .vfma (fun u _ _ => !u) (fun w _ _ et => mapLanes (formBits w) et.val fun a b d => laneFma et.val a b d) ∧
  SvxCompletes .vmin (fun u _ et => !u || laneInteger et.val) (fun w u _ et => mapLanes (formBits w) et.val fun a b _
    => laneMinmax false u et.val a b) ∧
  SvxCompletes .vmax (fun u _ et => !u || laneInteger et.val) (fun w u _ et => mapLanes (formBits w) et.val fun a b _
    => laneMinmax true u et.val a b) ∧
  SvxCompletes .vdiv (fun u _ et => !u && laneFp et.val) (fun w _ _ et => mapLanes (formBits w) et.val fun a b _ =>
    laneDiv et.val a b) ∧
  SvxCompletes .vsqrt (fun u vs2 et => !u && laneFp et.val && decide (vs2 = 0)) (fun w _ _ et => mapLanes (formBits
    w) et.val fun a _ _ => laneSqrt et.val a) ∧
  SvxCompletes .vand (fun u _ _ => !u) (fun _ _ _ _ => fun a b _ => (a &&& b, 0)) ∧
  SvxCompletes .vor (fun u _ _ => !u) (fun _ _ _ _ => fun a b _ => (a ||| b, 0)) ∧
  SvxCompletes .vxor (fun u _ _ => !u) (fun _ _ _ _ => fun a b _ => (a ^^^ b, 0)) ∧
  SvxCompletes .vsll (fun u _ et => !u && laneInteger et.val) (fun w _ _ et => mapLanes (formBits w) et.val fun a b _
    => laneShift true false et.val a b) ∧
  SvxCompletes .vsrl (fun u _ et => !u && laneInteger et.val) (fun w _ _ et => mapLanes (formBits w) et.val fun a b _
    => laneShift false false et.val a b) ∧
  SvxCompletes .vsra (fun u _ et => !u && laneInteger et.val) (fun w _ _ et => mapLanes (formBits w) et.val fun a b _
    => laneShift false true et.val a b) ∧
  SvxCompletes .vcmpeq (fun u _ _ => !u) (fun w _ _ et => mapLanes (formBits w) et.val fun a b _ => laneCompare 0
    false et.val a b) ∧
  SvxCompletes .vcmplt (fun u _ et => !u || laneInteger et.val) (fun w u _ et => mapLanes (formBits w) et.val fun a b
    _ => laneCompare 1 u et.val a b) ∧
  SvxCompletes .vcmple (fun u _ et => !u || laneInteger et.val) (fun w u _ et => mapLanes (formBits w) et.val fun a b
    _ => laneCompare 2 u et.val a b) ∧
  SvxCompletes .vsel (fun u _ _ => !u) (fun _ _ _ _ => fun a b d  => ((a &&& d) ||| (b &&& (d ^^^ (2 ^ 128 - 1))), 0)) ∧
  SvxCompletes .vwmul (fun u _ et => widens et.val && (!u || laneInteger et.val)) (fun w u _ et => fun a b _ =>
    widenLanes (formBits w) false u et.val a b) ∧
  SvxCompletes .vwmulhi (fun u _ et => widens et.val && (!u || laneInteger et.val)) (fun w u _ et => fun a b _ =>
    widenLanes (formBits w) true u et.val a b) ∧
  SvxCompletes .vdot (fun u _ et => widens et.val && decide (et ≠ 2) && (!u || laneInteger et.val)) (fun w u _ et =>
    dotLanes (formBits w) u et.val) ∧
  SvxCompletes .vrsum (fun u _ _ => !u) (fun w _ _ et => fun a _ _ => sumLanes (formBits w) et.val a) ∧
  (∀ (s : State) (h : Fin 3072) (w u : Bool) (vs2 vs1 : Fin 32) (et : Fin 8) (vd : Fin 32),
      s.issues h.val = true →
      (s.hart h.val).fs ≠ 0 →
      vs2.val < 8 →
      (u = true → laneInteger et.val = true) →
      Completes (.vcvt h w u vs2 vs1 et vd) s fun t =>
        ∃ r : Nat × Nat, r = ofLanes (laneBits et.val) (((convertLanes (formBits w) u (vs2.val % 8) et.val
            ((s.hart h.val).vreg vs1.val)).zipIdx).map fun r =>
              r.1.getD ((Config.freeLane (s.free + r.2)).toNat % 2 ^ laneBits et.val, 0)) ∧
          (t.hart h.val).vreg vd.val = r.1 % 2 ^ formBits w ∧ (t.hart h.val).fflags = (s.hart h.val).fflags ||| r.2 ∧
          (t.hart h.val).pc = ((s.hart h.val).pc + 4) % 2 ^ 64 ∧ RegsKept [] s t ∧ MemKept s t) ∧
  (∀ (s : State) (h : Fin 3072) (et : Fin 8) (w : Bool) (rs1 vd : Fin 32),
      s.issues h.val = true →
      (s.hart h.val).fs ≠ 0 →
      Completes (.vsplat h et w rs1 vd) s fun t =>
        (∀ i, i < laneCount (formBits w) et.val →
            lane et.val ((t.hart h.val).vreg vd.val) i = (s.hart h.val).reg rs1.val % 2 ^ laneBits et.val) ∧
          (t.hart h.val).pc = ((s.hart h.val).pc + 4) % 2 ^ 64 ∧ RegsKept [] s t ∧ MemKept s t) ∧
  (∀ (s : State) (h : Fin 3072) (et : Fin 8) (ln : Fin 16) (vs1 rd : Fin 32),
      s.issues h.val = true →
      (s.hart h.val).fs ≠ 0 →
      ln.val < laneCount 128 et.val →
      Completes (.vext h et ln vs1 rd) s fun t =>
        (rd.val ≠ 0 → (t.hart h.val).reg rd.val =
            if laneFp et.val then lane et.val ((s.hart h.val).vreg vs1.val) ln.val
            else unsigned 64 (signed (laneBits et.val) (lane et.val ((s.hart h.val).vreg vs1.val) ln.val))) ∧
          (t.hart h.val).reg 0 = 0 ∧ (t.hart h.val).v = (s.hart h.val).v ∧
          (t.hart h.val).pc = ((s.hart h.val).pc + 4) % 2 ^ 64 ∧ RegsKept [] s t ∧ MemKept s t) ∧
  (∀ (s : State) (h : Fin 3072) (w : Word) (short : Bool) (r : FpResult),
      s.issues h.val = true →
      (s.hart h.val).fs ≠ 0 →
      rowed w.toNat ((s.hart h.val).reg 17) = false →
      svxCommand h w.toNat = none →
      fpInstr w.toNat (s.hart h.val).reg (s.hart h.val).freg = some r →
      Completes (.fOrDInstruction h w short) s fun t =>
        t = s.retire h.val 4 fun (u : Hart) =>
            (if r.toX then u.setReg r.rd r.value else u.setFreg r.rd r.value).accrue r.flags) ∧
  (∀ (s : State) (h : Fin 3072) (w : Word) (short : Bool) (i : Instr),
      s.issues h.val = true →
      rowed w.toNat ((s.hart h.val).reg 17) = false →
      svxCommand h w.toNat = some i →
      Completes (.fOrDInstruction h w short) s fun t => exec i s = .next t) ∧
  (∀ (s : State) (h : Fin 3072) (w : Word) (short : Bool) (v : Nat),
      s.issues h.val = true →
      rowed w.toNat ((s.hart h.val).reg 17) = false →
      svxCommand h w.toNat = none →
      ((s.hart h.val).fs = 0 ∨ fpInstr w.toNat (s.hart h.val).reg (s.hart h.val).freg = none) →
      aluInstr w.toNat (s.hart h.val).pc (s.hart h.val).reg = some v →
      Completes (.fOrDInstruction h w short) s fun t =>
        t = s.retire h.val (instrLen short) fun (u : Hart) => u.setReg (field w.toNat 7 5) v) ∧
  (∀ (s : State) (h : Fin 3072) (w : Word) (short : Bool) (u : State),
      s.issues h.val = true →
      rowed w.toNat ((s.hart h.val).reg 17) = false →
      svxCommand h w.toNat = none →
      ((s.hart h.val).fs = 0 ∨ fpInstr w.toNat (s.hart h.val).reg (s.hart h.val).freg = none) →
      s.integerInstr h.val (instrLen short) w.toNat = some u →
      Completes (.fOrDInstruction h w short) s fun t => t = u)

/-- Hart loads, stores and atomics complete (R258, R259, R273, R277, R279, R289). Each command named here completes. In
every state and with all operands that meet the hypotheses of its clause, exec answers a next state with the register
loaded, the store buffered or drained, and the bytes of memory. Where a clause rests on what the model chose or read,
the log entries named at the command's meaning say so. -/
def Obligations.HartAccessesComplete : Prop :=
  (∀ (s : State) (h : Fin 3072) (k : LoadKind) (short : Bool) (rd rs1 : Fin 32) (imm : BitVec 12) (reach :
    CoreReach) (p : Place) (u : State),
      s.issues h.val = true →
      (loadsFp k = true → (s.hart h.val).fs ≠ 0) →
      s.refills h.val (decide (reach = .refill)) = false →
      s.access h.val false ((s.hart h.val).address rs1.val imm) (loadSize k) = .ok (p, u) →
      Completes (.hartLoad h k short rd rs1 imm reach) s fun t =>
        (∀ a, p = .node a → reach = .l1 → u.poisoned a (a + loadSize k) = false →
            t = u.retire h.val (instrLen short) (loadInto k rd.val (ofLe (u.ownBytes h.val a (loadSize k))))) ∧
          (∀ a, p = .node a → reach = .beyond →
            t = u.park h.val true (.load k (instrLen short) rd.val ((s.hart h.val).address rs1.val imm) p)) ∧
          (∀ a, p = .io a →
            t = u.park h.val true (.load k (instrLen short) rd.val ((s.hart h.val).address rs1.val imm) p)) ∧
          (∀ lnode cls key offset, p = .far lnode cls key offset →
            t = ((u.addReg .remoteAccesses 0 1).request (.hart h.val 0) (((u.addReg .remoteAccesses 0 1).peerPos
              lnode).getD 0) cls offset key
              (.read (loadSize k))).park h.val true (.load k (instrLen short) rd.val ((s.hart h.val).address rs1.val
                imm) p))) ∧
  (∀ (s : State) (h : Fin 3072) (k : LoadKind) (short : Bool) (rd rs1 : Fin 32) (imm : BitVec 12),
      s.issues h.val = true →
      (loadsFp k = true → (s.hart h.val).fs ≠ 0) →
      s.refills h.val true = true →
      Completes (.hartLoad h k short rd rs1 imm .refill) s fun t =>
        t = s.park h.val true .refill) ∧
  (∀ (s : State) (h : Fin 3072) (imm : BitVec 12) (rs1 vd : Fin 32) (reach : CoreReach) (p : Place) (u : State),
      s.issues h.val = true →
      (s.hart h.val).fs ≠ 0 →
      (s.hart h.val).address rs1.val imm % 16 = 0 →
      s.refills h.val (decide (reach = .refill)) = false →
      s.access h.val false ((s.hart h.val).address rs1.val imm) 16 = .ok (p, u) →
      Completes (.vld h imm rs1 vd reach) s fun t =>
        (∀ a, p = .node a → reach = .l1 → u.poisoned a (a + 16) = false →
            t = u.retire h.val 4 fun (x : Hart) => x.setVreg vd.val (ofLe (u.ownBytes h.val a 16))) ∧
          (∀ a, p = .node a → reach = .beyond →
            t = u.park h.val true (.vload vd.val ((s.hart h.val).address rs1.val imm) p))) ∧
  (∀ (s : State) (h : Fin 3072) (k : StoreKind) (short : Bool) (rs2 rs1 : Fin 32) (imm : BitVec 12) (refill : Bool) (p :
    Place) (u : State),
      s.issues h.val = true →
      (storesFp k = true → (s.hart h.val).fs ≠ 0) →
      s.refills h.val refill = false →
      s.access h.val true ((s.hart h.val).address rs1.val imm) (storeSize k) = .ok (p, u) →
      Completes (.hartStore h k short rs2 rs1 imm refill) s fun t =>
        t = u.storeAt h.val (instrLen short) p
            (leBytes (storeSize k) (if storesFp k then (s.hart h.val).freg rs2.val else (s.hart h.val).reg rs2.val))) ∧
  (∀ (s : State) (h : Fin 3072) (imm : BitVec 12) (vs3 rs1 : Fin 32) (refill : Bool) (p : Place) (u : State),
      s.issues h.val = true →
      (s.hart h.val).fs ≠ 0 →
      (s.hart h.val).address rs1.val imm % 16 = 0 →
      s.refills h.val refill = false →
      s.access h.val true ((s.hart h.val).address rs1.val imm) 16 = .ok (p, u) →
      Completes (.vst h imm vs3 rs1 refill) s fun t =>
        t = u.storeAt h.val 4 p (leBytes 16 ((s.hart h.val).vreg vs3.val))) ∧
  (∀ (s : State) (core : Fin 192) (e : HartStore),
      s.stores.find? (fun e => decide (e.core = core.val)) = some e →
      Completes (.storeBufferDrain core) s fun t =>
        ∃ u : State, u = (if e.io then ({ s with stores := s.stores.erase e } : State).ioWrite e.addr e.bytes
            else ({ s with stores := s.stores.erase e } : State).write e.addr e.bytes) ∧
          t = (u.hartsOn core.val).foldl (fun (v : State) h => v.settleHart h) u) ∧
  (∀ (s : State) (h : Fin 3072) (a : HartAtomic) (wide rl : Bool) (rd rs1 rs2 : Fin 32) (reach : CoreReach) (p : Place)
    (u : State),
      s.issues h.val = true →
      s.refills h.val (decide (reach = .refill)) = false →
      s.access h.val (decide (a ≠ .lr)) ((s.hart h.val).reg rs1.val) (if wide then 8 else 4) = .ok (p, u) →
      Completes (.hartAmo h a wide rl rd rs1 rs2 reach) s fun t =>
        (∀ n, p = .node n → reach = .l1 → a = .lr ∨ a = .sc → u.atomicMay h.val a rl n (if wide then 8 else 4) = true →
            t = u.atomicAt h.val a (if wide then 8 else 4) rd.val ((s.hart h.val).reg rs2.val) ((s.hart h.val).reg
              rs1.val) n) ∧
          (∀ n fn, p = .node n → a = .amo fn →
            t = u.park h.val true (.atomic a (if wide then 8 else 4) rd.val ((s.hart h.val).reg rs2.val)
              ((s.hart h.val).reg rs1.val) rl p)) ∧
          (∀ fn lnode cls key offset, a = .amo fn → p = .far lnode cls key offset →
            t = ((u.addReg .remoteAccesses 0 1).request (.hart h.val 0) (((u.addReg .remoteAccesses 0 1).peerPos
              lnode).getD 0) cls offset key
              (.amo fn (if wide then 8 else 4) ((s.hart h.val).reg rs2.val))).park h.val true
                (.atomic a (if wide then 8 else 4) rd.val ((s.hart h.val).reg rs2.val) ((s.hart h.val).reg rs1.val)
                  rl p))) ∧
  (∀ (s : State) (h : Fin 3072) (et : Fin 8) (iw sc : Fin 4) (vi rs1 vd : Fin 32) (reach : CoreReach) (ps : List (Nat
    × Place)) (u : State),
      s.issues h.val = true →
      (s.hart h.val).fs ≠ 0 →
      s.refills h.val (decide (reach = .refill)) = false →
      vi.val % ceilDiv (laneCount 128 et.val * (8 * 2 ^ iw.val)) 128 = 0 →
      s.gatherIo h.val false (gatherAddrs (s.hart h.val) et.val iw.val sc.val vi.val rs1.val) = false →
      s.gatherPlaces h.val false (laneBits et.val / 8) ((gatherAddrs (s.hart h.val) et.val iw.val sc.val vi.val
        rs1.val).headD 0) 0 (gatherAddrs (s.hart h.val) et.val iw.val sc.val vi.val rs1.val) = .ok (ps, u) →
      (vd.val < vi.val ∨ vi.val + ceilDiv (laneCount 128 et.val * (8 * 2 ^ iw.val)) 128 ≤ vd.val) →
      Completes (.vgath h et iw sc vi rs1 vd reach) s fun t =>
        (∀ v, reach = .l1 → (∀ e ∈ ps, e.2.isFar = false) → u.returnGather h.val et.val vd.val ps = some v → t = v) ∧
          (reach ≠ .l1 ∨ (∃ e ∈ ps, e.2.isFar = true) →
            t = ((ps.zipIdx).foldl (fun (v : State) e =>
              match e.1.2 with
              | .far lnode cls key offset =>
                (v.addReg .remoteAccesses 0 1).request (.hart h.val e.2) ((v.peerPos lnode).getD 0) cls offset key
                  (.read (laneBits et.val / 8))
              | _ => v) u).park h.val true (.gather et.val vd.val ps))) ∧
  (∀ (s : State) (h : Fin 3072) (et : Fin 8) (iw sc : Fin 4) (vi rs1 vs3 : Fin 32) (refill : Bool) (ps : List (Nat
    × Place)) (u : State),
      s.issues h.val = true →
      (s.hart h.val).fs ≠ 0 →
      s.refills h.val refill = false →
      vi.val % ceilDiv (laneCount 128 et.val * (8 * 2 ^ iw.val)) 128 = 0 →
      s.gatherIo h.val true (gatherAddrs (s.hart h.val) et.val iw.val sc.val vi.val rs1.val) = false →
      s.gatherPlaces h.val true (laneBits et.val / 8) ((gatherAddrs (s.hart h.val) et.val iw.val sc.val vi.val
        rs1.val).headD 0) 0 (gatherAddrs (s.hart h.val) et.val iw.val sc.val vi.val rs1.val) = .ok (ps, u) →
      Completes (.vscat h et iw sc vi rs1 vs3 refill) s fun t =>
        ∃ w : State, w = (ps.zipIdx).foldl (fun (v : State) e =>
            match e.1.2 with
            | .far lnode cls key offset =>
              (v.addReg .remoteAccesses 0 1).request (.hart h.val 0) ((v.peerPos lnode).getD 0) cls offset key
                (.write (leBytes (laneBits et.val / 8) (lane et.val ((s.hart h.val).vreg vs3.val) e.2)) false)
            | _ => v) u ∧
          t = w.park h.val true (.scatter ((ps.zipIdx).filterMap fun e =>
            match e.1.2 with
            | .node a => some (a, leBytes (laneBits et.val / 8) (lane et.val ((s.hart h.val).vreg vs3.val) e.2))
            | _ => none))) ∧
  (∀ (s : State) (h : Fin 3072) (u : State),
      s.hartSt h.val = hsParked →
      s.reg .coreFailed (s.coreOf h.val) = 0 →
      s.isIn stFaulted = false →
      s.returned h.val = some u →
      Completes (.accessReturn h) s fun t =>
        t = u.wake h.val)

/-- Fences, SYNC, WFI, thread turns and SBI calls complete (R247, R257, R260, R262, R283, R287). Each command named here
completes. In every state and with all operands that meet the hypotheses of its clause, exec answers a next state with
the hart state, its program counter and the result of the call. Where a clause rests on what the model chose or read,
the log entries named at the command's meaning say so. -/
def Obligations.HartControlComplete : Prop :=
  (∀ (s : State) (h : Fin 3072) (pred succ : BitVec 4),
      s.issues h.val = true →
      Completes (.hartFence h pred succ) s fun t =>
        t = if ((pred.getLsbD 0 && s.undrained h.val false) || (pred.getLsbD 2 && s.undrained h.val true)) = true ∧
          succ ≠ 0
            then s.park h.val false .fence else s.retire h.val 4 id) ∧
  (∀ (s : State) (h : Fin 3072) (ra nv : Bool),
      s.issues h.val = true →
      (s.hart h.val).fs ≠ 0 →
      Completes (.sync h ra nv) s fun t =>
        (s.syncHolds h.val nv ra = true → t = s.endSync h.val ra) ∧
          (s.syncHolds h.val nv ra = false → t = s.park h.val false (.sync nv ra))) ∧
  (∀ (s : State) (h : Fin 3072),
      s.issues h.val = true →
      Completes (.hartWfi h) s fun t =>
        ((s.hart h.val).ip ≠ 0 → t = (s.retire h.val 4 id).takeInterrupt h.val) ∧
          ((s.hart h.val).ip = 0 → t = s.park h.val false .wfi)) ∧
  (∀ (s : State) (h : Fin 3072) (irq : HartInterrupt),
      s.hartSt h.val ≠ hsNone →
      s.hartSt h.val ≠ hsEnded →
      Completes (.interruptPending h irq) s fun t =>
        t = s.pend h.val irq) ∧
  (∀ (s : State) (core : Fin 192),
      Completes (.threadTurnLimit core) s fun t =>
        t = s.passTurn core.val (s.reg .hartTurn core.val)) ∧
  (∀ (s : State) (h : Fin 3072),
      s.issues h.val = true →
      (s.hart h.val).reg 17 = 0x10 →
      (s.hart h.val).user = false →
      Completes (.sbiBaseCall h) s fun t =>
        ((s.hart h.val).reg 16 = 0 → t = s.sbiReturn h.val 0 0x2000000) ∧
          ((s.hart h.val).reg 16 = 3 → t = s.sbiReturn h.val 0 (ofBool (sbiExtensions.contains ((s.hart h.val).reg
            10)))) ∧
          (6 < (s.hart h.val).reg 16 → t = s.sbiReturn h.val (-2) 0)) ∧
  (∀ (s : State) (h : Fin 3072),
      s.issues h.val = true →
      (s.hart h.val).reg 17 = 0x54494D45 →
      (s.hart h.val).user = false →
      (s.hart h.val).reg 16 = 0 →
      Completes (.sbiSetTimer h) s fun t =>
        (s.now < (s.hart h.val).reg 10 →
          (t.hart h.val).timer = some ((s.hart h.val).reg 10) ∧ bit (t.hart h.val).ip 5 = false ∧
            (t.hart h.val).reg 10 = 0 ∧ (t.hart h.val).pc = ((s.hart h.val).pc + 4) % 2 ^ 64) ∧
          ((s.hart h.val).reg 10 ≤ s.now → ∃ u : State, t = u.pend h.val .timer ∧ (u.hart h.val).reg 10 = 0)) ∧
  (∀ (s : State) (h : Fin 3072),
      s.issues h.val = true →
      (s.hart h.val).reg 17 = 0x735049 →
      (s.hart h.val).user = false →
      (s.hart h.val).reg 16 = 0 →
      ((if (s.hart h.val).reg 11 = 2 ^ 64 - 1 then List.range (s.reg .hartCount) else ((List.range 64).filter fun k
        => bit ((s.hart h.val).reg 10) k).map fun k => (s.hart h.val).reg 11 + k).any fun k => decide (s.reg
          .hartCount ≤ k)) = false →
      Completes (.sbiSendIpi h) s fun t =>
        t = ((if (s.hart h.val).reg 11 = 2 ^ 64 - 1 then List.range (s.reg .hartCount)
            else ((List.range 64).filter fun k => bit ((s.hart h.val).reg 10) k).map fun k => (s.hart h.val).reg 11 +
              k).filter
              fun k => decide ((s.sbiReturn h.val 0 0).hartSt k ≠ hsNone) && decide ((s.sbiReturn h.val 0 0).hartSt k
                ≠ hsEnded)).foldl
                (fun (u : State) k => u.pend k .software) (s.sbiReturn h.val 0 0)) ∧
  (∀ (s : State) (h : Fin 3072),
      s.issues h.val = true →
      (s.hart h.val).reg 17 = 0x53525354 →
      (s.hart h.val).user = false →
      (s.hart h.val).reg 16 = 0 →
      (s.hart h.val).reg 10 % 2 ^ 32 = 0 →
      Completes (.sbiSystemReset h) s fun t =>
        t = (s.setReg .hartState h.val hsEnded).passTurn (s.coreOf h.val) (s.threadOf h.val)) ∧
  (∀ (s : State) (h : Fin 3072),
      s.issues h.val = true →
      (s.hart h.val).user = false →
      Completes (.svxrerrClear h) s fun t =>
        t.reg .svxrerr h = 0 ∧ (t.hart h.val).pc = ((s.hart h.val).pc + 4) % 2 ^ 64 ∧ RegsKept [.svxrerr] s t ∧
          MemKept s t)

/-- Fabric packets and their answers complete (R366, R375, R380, R383, R386, R387, R388). Each command named here
completes. In every state and with all operands that meet the hypotheses of its clause, exec answers a next state with
the request served in its turn, or the request answered. Where a clause rests on what the model chose or read, the log
entries named at the command's meaning say so. -/
def Obligations.PacketsComplete : Prop :=
  (∀ (q : Fin 17) (h : Header) (len : Fin 257), Arrives (.pktRead q h len) q.val h (.read len.val)) ∧
  (∀ (q : Fin 17) (h : Header) (data : List Byte) (poison : Bool),
    Arrives (.pktWrite q h data poison) q.val h (.write data poison)) ∧
  (∀ (q : Fin 17) (h : Header) (op : Option (AmoFn × Bool × Nat)) (sig : SignalInfo),
    Arrives (.pktAmo q h op sig) q.val h (match op with
      | some (fn, wide, x) => .amo fn (if wide then 8 else 4) x
      | none => .signal sig.order sig.count)) ∧
  (∀ (q : Fin 17) (h : Header) (fn : Fin 3) (srcFmt : Fin 4) (wide : Bool) (data : List Byte) (order : Option RaccOrder),
    Arrives (.pktRacc q h fn srcFmt wide data order) q.val h
      (.racc (if fn.val = 0 then 0x40 else if fn.val = 1 then 0x43 else 0x44) (srcFmt.val + 1) (if wide then 1 else
        2) data order)) ∧
  (∀ (q : Fin 17) (h : Header) (data : List Byte) (poison : Bool),
    AnswerArrives (.pktReadResp q h data poison) q.val h data poison 0 0) ∧
  (∀ (q : Fin 17) (h : Header), AnswerArrives (.pktAck q h) q.val h [] false 0 0) ∧
  (∀ (q : Fin 17) (h : Header) (old : Dword) (poison : Bool),
    AnswerArrives (.pktAmoResp q h old poison) q.val h (leBytes 8 old.toNat) poison 0 0) ∧
  (∀ (q : Fin 17) (h : Header) (stale : Bool) (cause : Fin 3),
    AnswerArrives (.pktNack q h stale ⟨cause, none⟩) q.val h [] false (if stale then 0x0E else 0x0D) cause.val) ∧
  (∀ (s : State) (q : Fin 17) (h : Header) (round : Nat),
      Heard s q.val h →
      s.closes.contains (round, h.src.val) = false →
      Completes (.raccCloseMessage q h round) s fun t =>
        ∃ u : State, u = { s with closes := s.closes ++ [(round, h.src.val)] } ∧ t = u.applyRounds u.roundSteps) ∧
  (∀ (s : State) (r : Nat) (rs : List Nat),
      s.roundsEnded = r :: rs →
      (s.requests.any fun x => x.inRound r) = false →
      Completes .raccRoundEnd s fun t =>
        t = s.peers.foldl (fun (u : State) q => u.control q (.close r)) { s with roundsEnded := rs }) ∧
  (∀ (s : State) (q : Fin 17) (r : Request),
      s.requests.find? (fun r => decide (r.pos = q.val)) = some r →
      Completes (.remoteTimeout q) s fun t =>
        t = ({ s with requests := s.requests.filter fun (x : Request) => x ≠ r } : State).deliver r [] false 5 0)

/-- Mail is sent, relayed, received and acknowledged (R373, R392, R394, R396). Each command named here completes. In every
state and with all operands that meet the hypotheses of its clause, exec answers a next state with the queue and ring
positions and the packets sent. Where a clause rests on what the model chose or read, the log entries named at the
command's meaning say so. -/
def Obligations.MailComplete : Prop :=
  (∀ (s : State) (q : Fin 64) (tail : Word),
      Completes (.mailDoorbell q tail) s fun t =>
        t = s.ringMail q.val tail.toNat) ∧
  (∀ (s : State) (q : Fin 320) (m : Mail),
      s.mails.find? (fun m => decide (m.queue = q.val) && m.result.isSome) = some m →
      Completes (.mailComplete q) s fun t =>
        (64 ≤ q.val → ∃ u : State, u = { s with mails := s.mails.erase m } ∧
            t = (if m.result.getD 0 = 0 then u else u.postedFailure m.bay (m.result.getD 0) m.lnode).startMails) ∧
          (q.val < 64 → ∃ u : State, t = u.startMails ∧ u.mails = s.mails.erase m ∧
            u.reg .mailDone q = (s.reg .mailDone q + 1) % Reg.modulus .mailDone)) ∧
  (∀ (s : State) (via : MailPort) (h : Header) (msg pkt : Half) (total : Nat) (kind : MailKind) (data : List Byte)
    (hops : Nat),
      Completes (.pktMail via h msg pkt total kind data hops) s fun t =>
        ∃ p : Packet, p = packetHop ⟨h, .mail msg.toNat pkt.toNat total kind data hops⟩ ∧
          (s.isMine h = true → t = s.deliverMail p msg.toNat pkt.toNat total kind data) ∧
          (s.isMine h = false → s.reg .mailHopLimit ≤ packetHops p → t = s.addReg .mailDrops 0 1) ∧
          (s.isMine h = false → packetHops p < s.reg .mailHopLimit → fromPosition via = true →
            (s.posOf h.dst.val).isSome = true → t = s.forward p) ∧
          (s.isMine h = false → packetHops p < s.reg .mailHopLimit →
            fromPosition via = false ∨ (s.posOf h.dst.val).isSome = false → s.isIn stFaulted = false →
            (∀ u, s.routeMail p = some u → t = u.addReg .fwdBytes 0 (packetBytes p)) ∧
            (s.routeMail p = none → t = { s with transit := s.transit ++ [p] }))) ∧
  (∀ (s : State) (p : Packet) (ps : List Packet),
      s.transit = p :: ps →
      Completes .mailTransitTimeout s fun t =>
        ∃ u : State, u = { s with transit := ps } ∧
          (s.isIn stFaulted = false → ∀ v, u.routeMail p = some v → t = v.addReg .fwdBytes 0 (packetBytes p)) ∧
          (s.isIn stFaulted = true ∨ u.routeMail p = none → t = u.addReg .mailDrops 0 1)) ∧
  (∀ (s : State) (h : Header) (msg pkt : Half) (done : Bool) (hops : Nat),
      Completes (.pktMailAck h msg pkt done hops) s fun t =>
        (∀ m, s.isMine h = true → s.epochOk h = true → s.mailOut h.src.val msg.toNat = some m →
          t = (s.setMail m { m with acked := max m.acked pkt.toNat, result := if done then some 0 else none }).startMails) ∧
        (s.isMine h = false →
          t = s.carry (s.posOf h.src.val).isSome (packetHop ⟨h, .mailAck msg.toNat pkt.toNat done hops⟩))) ∧
  (∀ (s : State) (q : Fin 17) (h : Header) (stale : Bool) (cause : Fin 3) (msg pkt : Half) (hops : Nat) (m : Mail),
      s.isMine h = true →
      s.epochOk h = true →
      s.mailOut h.src.val msg.toNat = some m →
      Completes (.pktNack q h stale ⟨cause, some (msg, pkt, hops)⟩) s fun t =>
        t = (s.setMail m { m with result := some (if stale then 0x0E else 0x0D) }).startMails) ∧
  (∀ (s : State) (lnode : Fin 1048576) (m : Mail),
      s.mails.find? (fun m => decide (m.lnode = lnode.val) && m.started && m.result.isNone) = some m →
      Completes (.mailRetransmitTimeout lnode) s fun t =>
        (m.resends < 3 → t = ((s.setMail m { m with resends := m.resends + 1 }).addReg .mailRetrans 0
            ((s.mailPackets m).length - m.acked)).pushMail { m with resends := m.resends + 1 } m.acked) ∧
          (3 ≤ m.resends → ∃ u : State, Records s u 5 2 0 0 0 ∧ u.mails = s.mails ∧
            t = (u.setMail m { m with result := some 5 }).startMails))

/-- Collectives join, combine, commit and abort (R410, R415, R424, R425, R427, R429, R430, R433, R436). Each command named
here completes. In every state and with all operands that meet the hypotheses of its clause, exec answers a next state
with the contributions, the result committed and the ends of the bays' entries. Where a clause rests on what the model
chose or read, the log entries named at the command's meaning say so. -/
def Obligations.CollectivesComplete : Prop :=
  CollCompletes .collAllreduce 1 ∧
  CollCompletes .collReduce 2 ∧
  CollCompletes .collReduceScatter 3 ∧
  CollCompletes .collBroadcast 4 ∧
  CollCompletes .collAllgather 5 ∧
  CollCompletes .collAllgatherv 6 ∧
  CollCompletes .collBarrier 7 ∧
  (∀ (s : State) (b : Fin 256) (queueFull : Bool) (c : Coll),
      s.unstagedOf b.val = some c →
      c.missing = [] →
      Completes (.collNodeLocalStage b queueFull) s fun t =>
        ∃ d : Coll, d.staged = true ∧ d.id = c.id ∧ d.joined = c.joined ∧ d.contribs = c.contribs ∧ d.sig = c.sig ∧
          t = if 2 ^ 16 ≤ c.status then (s.setColl d).reportColl d d.run true queueFull else (s.setColl d).advanceColl c.id
            queueFull) ∧
  (∀ (s : State) (q : MailPort) (h : Header) (i : CollId) (run : Fin 3) (sig : CollSig) (m : CollMsg) (queueFull : Bool),
      HeardColl s q h →
      Completes (.collChunkReceive q h i run sig m queueFull) s fun t =>
        t = s.chunkArrives h.src.val i run.val sig m queueFull) ∧
  (∀ (s u : State) (q : MailPort) (h : Header) (i : CollId) (run : Fin 3) (k : Nat) (queueFull : Bool) (c : Coll),
      HeardColl s q h →
      InRun s u h i run.val c →
      Completes (.collRetentionAck q h i run k queueFull) s fun t =>
        ∃ v : State, v = (u.setColl { c with
            retained := c.retained.filter fun e => e ≠ (k, c.members.idxOf h.src.val) }).sweepColl i ∧
          t = v.retryHeld queueFull v.collHeld.length) ∧
  (∀ (s u : State) (q : MailPort) (h : Header) (i : CollId) (run : Fin 3) (tree : Fin 2) (status : Nat)
    (counts : List (Nat × Nat)) (queueFull : Bool) (c : Coll),
      HeardColl s q h →
      InRun s u h i run.val c →
      c.tokens.contains tree.val = false →
      Completes (.collCommit q h i run tree status counts queueFull) s fun t =>
        ∃ d : Coll, d = { c with
            tokens := insertRising tree.val c.tokens, rootStatus := c.rootStatus ||| status
            rootCounts := c.rootCounts ++ counts.filter fun e => !c.rootCounts.contains e } ∧
          t = ((u.setColl d).tellColls d (treeKids c.n tree.val c.rank) (.token tree.val status counts)).settleColl
            i queueFull) ∧
  (∀ (s u : State) (q : MailPort) (h : Header) (i : CollId) (run : Fin 3) (final queueFull : Bool) (c : Coll),
      HeardColl s q h →
      InRun s u h i run.val c →
      Completes (.collAbort q h i run final queueFull) s fun t =>
        t = u.abortColl c final queueFull) ∧
  (∀ (s u : State) (q : MailPort) (h : Header) (i : CollId) (run : Fin 3) (signature queueFull : Bool) (c : Coll),
      HeardColl s q h →
      InRun s u h i run.val c →
      Completes (.digestMismatchReport q h i run signature queueFull) s fun t =>
        t = if c.rank = treeRank c.n 0 (rootPos c.n) ∨ c.rank = treeRank c.n 1 (rootPos c.n) then u.rootAborts c
          signature queueFull else u) ∧
  (∀ (s u : State) (q : MailPort) (h : Header) (i : CollId) (run : Fin 3) (k : Nat) (c : Coll),
      HeardColl s q h →
      InRun s u h i run.val c →
      c.retained.contains (k, c.members.idxOf h.src.val) = true →
      Completes (.chunkRefetchRequest q h i run k) s fun t =>
        t = u.tellColl c (c.members.idxOf h.src.val) (.down k (Store.at [] c.results k)
            (BitVec.ofNat 64 (digest (downBytes c.signature.fmt (Store.at [] c.results k)))))) ∧
  (∀ (s : State) (b : Fin 256) (queueFull : Bool) (f : Flight),
      ((s.bay b.val).colls ++ (s.bay b.val).flights).find? (fun f => decide (f.op = opColl)) = some f →
      Completes (.collAbandon b queueFull) s fun t =>
        ∃ u : State, u = (s.addReg .collAbandoned 0 1).closeColl (match s.colls.find? fun c => c.joined.any fun j =>
              decide (j = (b.val, f.serial)) with
            | some c => c.id
            | none => f.collId (s.bay b.val)) true ∧
          t = u.failCollAt b.val (((u.collMembers (u.collGroup (f.param 0 16))).map fun m => m.1.length).getD 0) 0x81
            0 f queueFull)

/-- Power, clock and request commands leave all else unchanged (R20, R38, R613, R619, R635, R638). When exec answers a
next state for a command named here, every register outside the list of its clause reads as before, and, where the
clause says Leaves, so does every byte of memory. Where a clause states a condition of memory, it reads as before
when that holds. -/
def Obligations.PowerAndClockFrames : Prop :=
  (Leaves (.nodeState :: .xtalState :: .clkReady :: .mclkRuns :: auditRegs) .crystalStable) ∧
  (Leaves [.xtalState] .crystalFailTimeout) ∧
  (LeavesRegs (.nodeState :: .stateRequest :: .initStage :: .xwState :: .xwHoldNs :: .recoveryState :: .sqState ::
    .mgmtLink :: .xtalState :: .domainResets :: .clkReady :: .clkMhz :: .mclkRuns :: .mgmtSilent :: .jobRunning ::
    .startPending :: .cqTail :: .cqWraps :: .sqHead :: .initEnded :: errorRegs) .mclkStop) ∧
  (Leaves (.nodeState :: .vinMainIn :: auditRegs) .vinMainInRange) ∧
  (∀ (pos : Fin 32), Leaves (.nodeState :: .stateRequest :: .initStage :: .physId :: .posStrap :: .linksUp ::
    .linkState :: .linkGen :: .hostLink :: .clkMhz :: .pwrOk :: .inReset :: .stageStarted :: .startPending ::
    .posLatch :: .linkQuiet :: auditRegs) (.pwrOkAsserted pos)) ∧
  (∀ (rail : Fin 3), LeavesRegs (.nodeState :: .stateRequest :: .initStage :: .xwState :: .xwHoldNs :: .alertCause
    :: .slotInfo :: .slotValid :: .slotDrained :: .shardDir :: .recoveryState :: .sqState :: .auditMirrorHead ::
    .stackRailsIn :: .jobRunning :: .startPending :: .cqTail :: .cqWraps :: .sqHead :: .initEnded :: (writeRegs ++
    auditRegs)) (.stackRailOutOfRange rail)) ∧
  (Leaves (.initStage :: .periphEn :: .clkMhz :: .stackRailsIn :: .inReset :: auditRegs) .stackRailsInRange) ∧
  (Leaves (.initStage :: .periphEn :: .clkMhz :: .rstHeld :: .inReset :: auditRegs) .resetReleased) ∧
  (∀ (k : Fin 48) (bLocks : Bool), Leaves (.clkSel :: .clkReady :: .clkMhz :: .clkPllSpare :: .pllFailed ::
    auditRegs) (.pllALockTimeout k bLocks)) ∧
  (∀ (k : Fin 48), Leaves [.clkReady, .clkMhz, .clkSwitching] (.pllLossOfLock k)) ∧
  (∀ (k : Fin 48) (spareLocked : Bool), LeavesRegs (.domainResets :: .clkSel :: .clkReady :: .clkMhz ::
    .clkPllSpare :: .clkSwitching :: errorRegs) (.clockMuxHang k spareLocked)) ∧
  (∀ (k : Fin 48), ∀ s t, exec (.sparePllLockTimeout k) s = .next t → RegsKept (.nodeState :: .stateRequest ::
    .initStage :: .xwState :: .xwHoldNs :: .alertCause :: .recoveryState :: .sqState :: .jobRunning :: .startPending
    :: .cqTail :: .cqWraps :: .sqHead :: .initEnded :: (writeRegs ++ auditRegs)) s t ∧ (s.startWaits = false →
    MemKept s t)) ∧
  (∀ (k : Fin 48), Leaves (.clkSel :: .clkMhz :: .clkSwitching :: auditRegs) (.clockSwitchComplete k)) ∧
  (∀ (mv : Nat) (ma : Nat) (stackMw : Nat), LeavesRegs (.stateRequest :: .fixedTiming :: .clkMhz :: .pkgPower ::
    .vinMainMv :: .vinMainA :: .throttleState :: .throttleNs :: .coolFlow :: .throttleRecord :: .throttleFrom ::
      .steppedDown :: .floorAt :: .powerRing :: .powerSamples :: .pllMhz :: errorRegs) (.powerSample mv ma stackMw)) ∧
  (Leaves [.clkMhz, .throttleState, .throttleNs, .throttleRecord, .throttleFrom, .pllMhz] .throttleStepUp) ∧
  (∀ (ma : Nat), LeavesRegs (.arrayThrottle :: errorRegs) (.arrayThrottleStart ma)) ∧
  (Leaves [.arrayThrottle] .arrayThrottleEnd) ∧
  (∀ (readings : List (Option Int)), LeavesRegs (.stateRequest :: .fixedTiming :: .clkMhz :: .throttleState ::
    .throttleNs :: .temps :: .coolFlow :: .throttleRecord :: .throttleFrom :: .steppedDown :: .sensorExcluded ::
      .elementHot :: .floorAt :: .pllMhz :: .thermalFloor :: errorRegs) (.thermalSample readings)) ∧
  (∀ (sensor : Fin 128), ∀ s t, exec (.hardwareThermalTrip sensor) s = .next t → RegsKept (.nodeState ::
    .stateRequest :: .initStage :: .xwState :: .xwHoldNs :: .alertCause :: .recoveryState :: .sqState :: .clkMhz ::
    .lastTrip :: .resetCause :: .thermTrip :: .jobRunning :: .startPending :: .regulatorsOff :: .cqTail :: .cqWraps
    :: .sqHead :: .initEnded :: (writeRegs ++ auditRegs)) s t ∧ (s.startWaits = false → MemKept s t)) ∧
  (LeavesRegs (.stateRequest :: errorRegs) .lullDeadlineExpiry) ∧
  (∀ (element : Fin 46), LeavesRegs (.stateRequest :: errorRegs) (.thermalFloorTimeout element)) ∧
  (LeavesRegs (.coolFlow :: .coolantState :: errorRegs) .coolantLow) ∧
  (Leaves (.coolFlow :: .coolantState :: auditRegs) .coolantClear)

/-- Freeze, time, audit and message commands leave all else unchanged (R560, R583, R593, R605, R653). When exec answers a
next state for a command named here, every register outside the list of its clause reads as before, and, where the
clause says Leaves, so does every byte of memory. -/
def Obligations.SupervisorFrames : Prop :=
  (∀ (width : Nat), LeavesRegs (.freezeState :: .freezeRecord :: .freezeMissed :: .freezeGen :: .dumpWaits ::
    traceRegs) (.snapTrigEdge width)) ∧
  (Leaves [.freezeState, .dumpWaits] .freezeHoldExpiry) ∧
  (∀ (k : Fin 48), Leaves [] (.lateLatch k)) ∧
  (LeavesRegs (.freezeState :: .dumpWaits :: writeRegs) .freezeDumpComplete) ∧
  (∀ (f : LoadFacts), Leaves [.stackLoad, .sliceSatCycles, .linkLoad, .linkSatCycles, .levelSat,
    .latHist] (.levelSatRefresh f)) ∧
  (Leaves [.errorRate, .ratePast] .errorRateWindow) ∧
  (∀ (master : Dword) (domain : Byte) (utc offset : Int) (settled : Bool), Leaves (.taiState :: .taiOffsetErr ::
    .utcOffset :: .ptpMaster :: .taiOffset :: .taiSlew :: .taiSlewAt :: .taiWasLocked ::
      auditRegs) (.ptpMessage master domain utc offset settled)) ∧
  (Leaves (.taiState :: .taiOffsetErr :: .ppsRejected :: .taiOffset :: .taiSlew :: .taiSlewAt :: .taiWasLocked ::
    auditRegs) .ppsEdge) ∧
  (Leaves (.taiState :: .taiOffset :: .taiSlew :: .taiSlewAt :: auditRegs) .ptpReferenceSilent) ∧
  (∀ (addr mask gateway : Word), Leaves [.mgmtLink, .ipv4, .ipv4Mask,
    .ipv4Gateway] (.mgmtAddressRenewal addr mask gateway)) ∧
  (∀ (source : Nat) (target : Word), Leaves [] (.arpRequest source target)) ∧
  (∀ (source : Nat) (target : Word) (data : List Byte), Leaves [] (.icmpEcho source target data)) ∧
  (∀ (q : Requester), Leaves [] (.blobAssemblyTimeout q)) ∧
  (LeavesRegs (.dictLate :: errorRegs) .dictAnswerLate) ∧
  (Leaves [.auditAcked, .auditMirrorHead] .auditMirrorCopy) ∧
  (∀ (n : Fin 4), Leaves [] (.auditResendTimeout n)) ∧
  (∀ (n : Fin 4), Leaves (.auditAcked :: auditRegs) (.auditHoldTimeout n)) ∧
  (∀ (n : Fin 4), LeavesRegs (.dictRefused :: errorRegs) (.samplePeriod n)) ∧
  (∀ (q : Requester), ∀ c ∈ ([.getVersion q, .getCapabilities q, .negotiateAlgorithms q, .getDigests q, .challenge
    q, .heartbeat q, .keyUpdate q, .endSession q] : List Instr), LeavesRegs (.tableState :: .hartState ::
    .recoveryState :: .auditAcked :: .lullHeld :: errorRegs) c) ∧
  (∀ (q : Requester) (slot : Byte) (offset len : Half), LeavesRegs (.tableState :: .hartState :: .recoveryState ::
    .auditAcked :: .lullHeld :: errorRegs) (.getCertificate q slot offset len)) ∧
  (∀ (q : Requester) (index : Byte), LeavesRegs (.tableState :: .hartState :: .recoveryState :: .auditAcked ::
    .lullHeld :: errorRegs) (.getMeasurements q index)) ∧
  (∀ (q : Requester) (id : Word), LeavesRegs (.tableState :: .hartState :: .recoveryState :: .auditAcked ::
    .lullHeld :: errorRegs) (.keyExchange q id)) ∧
  (∀ (q : Requester) (id : Word) (leaf root : BitVec 384) (verified : Bool), LeavesRegs (.tableState :: .hartState
    :: .recoveryState :: .auditAcked :: .lullHeld :: errorRegs) (.finish q id leaf root verified)) ∧
  (∀ (port : Port) (id : Word), Leaves [.auditAcked] (.heartbeatMissed port id)) ∧
  (∀ (addr offset len : Word) (seq : Dword), LeavesRegs (.dictRefused :: .winCmd :: .winStatus :: .winError ::
    .winAddr :: .winOffset :: .winLen :: .winSeq :: .winData :: errorRegs) (.winCmdRead addr offset len seq)) ∧
  (∀ (source : Nat) (r : Jp1Request), LeavesRegs (.dictRefused :: errorRegs) (.jp1Request source r))

/-- Link, fault and host commands leave all else unchanged (R351, R359, R478, R533, R544). When exec answers a next state
for a command named here, every register outside the list of its clause reads as before, and, where the clause says
Leaves, so does every byte of memory. -/
def Obligations.LinkAndHostFrames : Prop :=
  (∀ (l : Fin 24), ∀ c ∈ ([.linkTrainingStart l, .linkFarEndIdle l] : List Instr), Leaves (.nodeState ::
    .degradeCause :: .linksUp :: .detours :: .linkState :: .linkGen :: .xwState :: .xwHoldNs :: .alertCause ::
    .linkWasUp :: .linkQuiet :: .flitSeq :: auditRegs) c) ∧
  (∀ (l : Fin 24) (far : FarEnd), Leaves (.nodeState :: .degradeCause :: .linksUp :: .detours :: .linkState ::
    .linkGen :: .linkPeer :: .xwState :: .xwHoldNs :: .alertCause :: .linkWasUp :: .linkQuiet :: .flitSeq ::
    auditRegs) (.linkUp l far)) ∧
  (∀ (l : Fin 24) (signal : Bool), Leaves (.nodeState :: .degradeCause :: .linksUp :: .detours :: .linkState ::
    .linkGen :: .xwState :: .xwHoldNs :: .alertCause :: .linkWasUp :: .linkQuiet :: .flitSeq :: auditRegs)
    (.linkDetectRetry l signal)) ∧
  (∀ (l : Fin 24), Leaves [.linkQuiet] (.linkAbsentTimeout l)) ∧
  (∀ (l : Fin 24) (lane : Fin 9), LeavesRegs (.nodeState :: .degradeCause :: .linksUp :: .detours :: .linkState ::
    .linkGen :: .xwState :: .xwHoldNs :: .selftestRuns :: .linkWasUp :: .linkQuiet :: .flitSeq :: errorRegs)
    (.laneTestStart l lane)) ∧
  (∀ (l : Fin 24) (pass : Bool) (completes : Bool), LeavesRegs (.nodeState :: .degradeCause :: .linksUp :: .detours
    :: .linkState :: .linkGen :: .laneMap :: .xwState :: .xwHoldNs :: .linkWasUp :: .linkQuiet :: .flitSeq ::
    errorRegs) (.laneTestComplete l pass completes)) ∧
  (∀ (l : Fin 24) (f : FlitControl) (crcOk : Bool) (corrected : Nat), LeavesRegs (.linkRetries :: .fecCorrected ::
    .flitSeq :: errorRegs) (.flitReceive l f crcOk corrected)) ∧
  (∀ (l : Fin 24), LeavesRegs (.nodeState :: .degradeCause :: .linksUp :: .detours :: .linkState :: .linkGen ::
    .xwState :: .xwHoldNs :: .linkWasUp :: .linkQuiet :: .flitSeq :: errorRegs) (.linkAckTimeout l)) ∧
  (∀ (q : Fin 17) (states : LinkCodes), Leaves (.detours :: .xwState :: .xwHoldNs :: .alertCause :: auditRegs)
    (.linkStateMessage q states)) ∧
  (∀ (fd : Fin 4) (port : Fin 6) (pass : Bool), LeavesRegs (.nodeState :: .degradeCause :: .linksUp :: .detours ::
    .linkState :: .linkGen :: .xwState :: .xwHoldNs :: .linkWasUp :: .linkQuiet :: .flitSeq :: errorRegs)
    (.fabricPortTestComplete fd port pass)) ∧
  (∀ (hop : Hop) (again : Bool), LeavesRegs (.selftestRuns :: errorRegs) (.wordReplay hop again)) ∧
  (∀ (bridge : Fin 23) (segment : Fin 256) (pass : Bool), LeavesRegs (.nodeState :: .stateRequest :: .initStage ::
    .xwState :: .xwHoldNs :: .bridgeState :: .recoveryState :: .sqState :: .jobRunning :: .startPending :: .cqTail
    :: .cqWraps :: .sqHead :: .initEnded :: errorRegs) (.bridgeSegmentTestComplete bridge segment pass)) ∧
  (∀ (die : Fin 8) (pass : Bool), LeavesRegs (.nodeState :: .stateRequest :: .initStage :: .transRemoteBlocks ::
    .couplerQueueMax :: .xwState :: .xwHoldNs :: .couplerState :: .recoveryState :: .sqState :: .jobRunning ::
    .startPending :: .cqTail :: .cqWraps :: .sqHead :: .initEnded :: errorRegs) (.couplerBistComplete die pass)) ∧
  (Leaves (.squallState :: auditRegs) .squallClear) ∧
  (∀ (pos : Fin 17), LeavesRegs (.specStalls :: .hartState :: .remoteWriteErrors :: .svxrerr :: .hartTurn ::
    errorRegs) (.peerLossTimeout pos)) ∧
  (∀ (gen : Nat) (width : Nat) (cxl : Bool), LeavesRegs (.hostLink :: errorRegs) (.hostLinkTraining gen width cxl))
    ∧
  (∀ (down : Bool), LeavesRegs (.hostLink :: .sqEnable :: .sqState :: .auditAcked ::
    (writeRegs ++ auditRegs)) (.hostLinkReset down)) ∧
  (∀ (atom : Fin 34359738368), Leaves [.hostRefused, .hostHeldLines, .backInvalidates] (.hostMemRead atom)) ∧
  (∀ (a : BitVec 41) (data : List Byte), LeavesRegs (.hostRefused :: writeRegs) (.hostMemWrite a data)) ∧
  (∀ (line : Fin 17179869184), LeavesRegs writeRegs (.backInvalidateResponse line)) ∧
  (∀ (q : Fin 64) (v : Dword), LeavesRegs (.notifyDropped :: .cqTail :: .cqWraps ::
    writeRegs) (.notificationPost q v)) ∧
  (∀ (q : Fin 64) (tail : Half) (entries : List (List Byte)), LeavesRegs (.sqState :: .cqTail :: .cqWraps ::
    .sqHead :: .sqTail :: .psRefused :: writeRegs) (.sqTailDoorbell q tail entries)) ∧
  (∀ (q : Fin 64) (head : Half), LeavesRegs (.sqState :: .cqHead :: .cqTail :: .cqWraps :: .sqHead ::
    writeRegs) (.cqHeadDoorbell q head))

/-- Job, stack memory and INIT commands leave all else unchanged (R22, R300, R328, R548). When exec answers a next state
for a command named here, every register outside the list of its clause reads as before, and, where the clause says
Leaves, so does every byte of memory. Where a clause states a condition of memory, it reads as before when that
holds. -/
def Obligations.JobAndMemoryFrames : Prop :=
  (∀ (map : List Half), LeavesRegs (.jobActive :: .logicalId :: .lbayMap :: .tableState :: .raccRound :: .tstep ::
    .xwState :: .xwHoldNs :: .lastSnapTstep :: .sqState :: .rosterLlmAtLoad :: .lullHeld :: .raccDone :: .xwReceived
    :: .cqTail :: .cqWraps :: .sqHead :: .snapJoined :: .snapGen :: (writeRegs ++ auditRegs)) (.jobLoad map)) ∧
  (LeavesRegs (.nodeState :: .tableState :: .hartState :: .collInstances :: .collDropped :: .collGateWait ::
    .collRetainFull :: .recoveryState :: .sqState :: .jobRunning :: .startPending :: .lullHeld :: .fenceJoined ::
    .fenceDone :: .hartTurn :: .cqTail :: .cqWraps :: .sqHead :: errorRegs) .jobStart) ∧
  (LeavesRegs (.sqState :: .startPending :: .fenceJoined :: .cqTail :: .cqWraps :: .sqHead ::
    writeRegs) .jobStartTimeout) ∧
  (LeavesRegs (.stateRequest :: .tableState :: .hartState :: .jobEpoch :: .retiringEpoch :: .regionCount ::
    .regionTable :: .xwState :: .xwHoldNs :: .slotInfo :: .slotValid :: .slotDrained :: .recoveryState ::
    .notifyDropped :: .sqState :: .jobRunning :: .startPending :: .teardownPending :: .mailTail :: .fenceJoined ::
    .fenceHeld :: .fenceDone :: .cqTail :: .cqWraps :: .sqHead :: errorRegs) .jobEnd) ∧
  (LeavesRegs [.rosterCount, .hostHeldLines, .backInvalidates, .teardownPending] .teardownWipeComplete) ∧
  (∀ (data : List Byte), LeavesRegs (.sqState :: .cqTail :: .cqWraps :: .sqHead :: writeRegs) (.copyToDevice data))
    ∧
  (LeavesRegs (.sqState :: .cqTail :: .cqWraps :: .sqHead :: writeRegs) .copyFromDevice) ∧
  (∀ (image : List Byte) (descs : List Byte) (weights : List Byte), LeavesRegs (.rosterCount :: .sqState ::
    .cqTail :: .cqWraps :: .sqHead :: writeRegs) (.rosterRegister image descs weights)) ∧
  (LeavesRegs (.rosterCount :: .sqState :: .cqTail :: .cqWraps :: .sqHead :: writeRegs) .rosterDeregister) ∧
  (∀ (image : List Byte), LeavesRegs (.regionCount :: .regionTable :: .sqState :: .cqTail :: .cqWraps ::
    .sqHead :: (writeRegs ++ auditRegs)) (.regionRegister image)) ∧
  (LeavesRegs (.regionCount :: .regionTable :: .sqState :: .cqTail :: .cqWraps :: .sqHead ::
    (writeRegs ++ auditRegs)) .regionDeregister) ∧
  (LeavesRegs (.preemptsDeferred :: .sqState :: .cqTail :: .cqWraps :: .sqHead :: errorRegs) .bayPreempt) ∧
  (LeavesRegs (.lbayMap :: .tableState :: .stepsIssued :: .windowMisses :: .hartState :: .recoveryState ::
    .sqState :: .lullHeld :: .cqTail :: .cqWraps :: .sqHead :: errorRegs) .bayResume) ∧
  (∀ (b : Fin 256), LeavesRegs (.tableState :: .hartState :: .recoveryState :: .sqState :: .lullHeld :: .cqTail ::
    .cqWraps :: .sqHead :: .ctxOf :: errorRegs) (.contextSaveComplete b)) ∧
  (∀ (b : Fin 256), LeavesRegs (.sqState :: .cqTail :: .cqWraps :: .sqHead :: errorRegs) (.preemptDeferralExpiry b))
    ∧
  (∀ (ch : Fin 1024), ∀ c ∈ ([.channelParityReplay ch, .calibrationDrift ch] : List Instr),
    LeavesRegs (.channelState :: .retrains :: errorRegs) c) ∧
  (∀ (ch : Fin 1024) (ok : Bool), ∀ s t, exec (.channelRetrainComplete ch ok) s = .next t → RegsKept (.nodeState ::
    .stateRequest :: .initStage :: .tableState :: .hartState :: .channelState :: .eccCorrectedCnt :: .eccUncorrCnt
    :: .xwState :: .xwHoldNs :: .selftestRuns :: .recoveryState :: .sqState :: .jobRunning :: .startPending ::
    .lullHeld :: .cqTail :: .cqWraps :: .sqHead :: .initEnded :: errorRegs) s t ∧ ((∀ e ∈ s.chanQueue ++
    s.chanStalled, e.1 ≠ ch.val) → MemKept s t)) ∧
  (∀ (st : Fin 32), Leaves (.nodeState :: .degradeCause :: .reserveRowsLeft :: auditRegs) (.softRemapComplete st)) ∧
  (∀ (ch : Fin 1024) (r : PatternResult), LeavesRegs (.nodeState :: .stateRequest :: .initStage :: .channelState ::
    .xwState :: .xwHoldNs :: .recoveryState :: .sqState :: .jobRunning :: .startPending :: .cqTail :: .cqWraps ::
    .sqHead :: .initEnded :: errorRegs) (.patternTestComplete ch r)) ∧
  (LeavesRegs (.nodeState :: .degradeCause :: .tableState :: .hartState :: .stackTop :: .allocTop ::
    .channelsOut :: .mapoutOrder :: .migrationLeft :: .channelState :: .slotInfo :: .slotValid :: .slotDrained ::
      .shardDir :: .recoveryState :: .lullHeld :: errorRegs) .channelMapoutSwitch) ∧
  (Leaves (.migrationLeft :: .channelState :: .alertCause :: auditRegs) .migrationComplete) ∧
  (∀ (a : BitVec 42) (eligible : Bool) (queue : Nat) (x : SliceAccess) (stack : EccFinding), LeavesRegs (.nodeState
    :: .stateRequest :: .initStage :: .tableState :: .hartState :: .channelState :: .eccCorrectedCnt ::
    .eccUncorrCnt :: .llmHits :: .llmMisses :: .llmBypassed :: .xwState :: .xwHoldNs :: .selftestRuns ::
    .recoveryState :: .sqState :: .jobRunning :: .startPending :: .lullHeld :: .cqTail :: .cqWraps :: .sqHead ::
    .initEnded :: errorRegs) (.stackRead a eligible queue x stack)) ∧
  (∀ (a : BitVec 42) (data : List Byte) (x : SliceAccess), LeavesRegs (.nodeState :: .stateRequest :: .initStage ::
    .tableState :: .hartState :: .channelState :: .eccCorrectedCnt :: .eccUncorrCnt :: .llmHits :: .llmMisses ::
    .xwState :: .xwHoldNs :: .selftestRuns :: .recoveryState :: .sqState :: .jobRunning :: .startPending ::
    .lullHeld :: .cqTail :: .cqWraps :: .sqHead :: .initEnded :: errorRegs) (.stackWrite a data x)) ∧
  (∀ (line : Fin 17179869184) (finding : EccFinding), LeavesRegs (.nodeState :: .stateRequest :: .initStage ::
    .tableState :: .hartState :: .channelState :: .eccCorrectedCnt :: .eccUncorrCnt :: .xwState :: .xwHoldNs ::
    .selftestRuns :: .recoveryState :: .sqState :: .jobRunning :: .startPending :: .lullHeld :: .cqTail :: .cqWraps
    :: .sqHead :: .initEnded :: errorRegs) (.llmFillComplete line finding)) ∧
  (∀ (a : BitVec 42) (log : Fin 4) (data : Option Dword) (x : SliceAccess), LeavesRegs (.nodeState :: .stateRequest
    :: .initStage :: .tableState :: .hartState :: .channelState :: .eccCorrectedCnt :: .eccUncorrCnt ::
    .narrowRequests :: .narrowFullStalls :: .xwState :: .xwHoldNs :: .selftestRuns :: .recoveryState :: .sqState ::
    .jobRunning :: .startPending :: .lullHeld :: .cqTail :: .cqWraps :: .sqHead :: .initEnded :: errorRegs)
    (.narrowRequest a log data x)) ∧
  (∀ (st : Fin 32) (findings : List EccFinding), LeavesRegs (.nodeState :: .stateRequest :: .initStage ::
    .tableState :: .hartState :: .channelState :: .eccCorrectedCnt :: .eccUncorrCnt :: .narrowRequests ::
    .narrowAtoms :: .narrowCoalesced :: .xwState :: .xwHoldNs :: .selftestRuns :: .recoveryState :: .sqState ::
    .jobRunning :: .startPending :: .lullHeld :: .cqTail :: .cqWraps :: .sqHead :: .initEnded :: errorRegs)
    (.coalescingWaitExpiry st findings)) ∧
  (∀ (st : Fin 32) (e : StackElement) (col : Fin 8) (place : ScrubPlace) (finding : EccFinding) (last : Bool),
    LeavesRegs (.nodeState :: .stateRequest :: .initStage :: .tableState :: .hartState :: .channelState ::
    .eccCorrectedCnt :: .eccUncorrCnt :: .scrubPasses :: .xwState :: .xwHoldNs :: .selftestRuns :: .slotInfo ::
    .slotValid :: .slotDrained :: .shardDir :: .recoveryState :: .sqState :: .jobRunning :: .startPending ::
    .lullHeld :: .cqTail :: .cqWraps :: .sqHead :: .initEnded :: errorRegs) (.scrubLine st e col place finding
    last)) ∧
  (∀ (die : Fin 8) (phys : Fin 34) (pass : Bool), LeavesRegs (.nodeState :: .degradeCause :: .stateRequest ::
    .initStage :: .tableState :: .hartState :: .channelState :: .eccCorrectedCnt :: .eccUncorrCnt :: .llmScratchWays
    :: .sliceState :: .llmHits :: .llmMisses :: .llmBypassed :: .sliceSparesLeft :: .narrowRequests ::
    .narrowFullStalls :: .xwState :: .xwHoldNs :: .selftestRuns :: .recoveryState :: .sqState :: .jobRunning ::
    .startPending :: .lullHeld :: .cqTail :: .cqWraps :: .sqHead :: .sliceMap :: .initEnded :: errorRegs)
    (.llmMbistComplete die phys pass)) ∧
  (∀ (die : Fin 8) (phys : Fin 34), Leaves [] (.sliceSweepComplete die phys)) ∧
  (∀ (st : Fin 32), Leaves (.journalUsed :: .serviceWork :: .fusePulses :: auditRegs) (.permanentRepairStart st)) ∧
  (∀ (st : Fin 32) (pass : Bool), Leaves (.reserveRowsLeft :: .serviceWork :: .fusePulses ::
    auditRegs) (.fusePulseComplete st pass)) ∧
  (∀ (st : Fin 32) (code : Byte), Leaves [.wrapper] (.wrapperSelect st code)) ∧
  (∀ (entry : Fin 512), Leaves [.wrapper] (.journalRead entry)) ∧
  (∀ (ch : Fin 32) (row : Nat), Leaves [.wrapper] (.remapRead ch row)) ∧
  (∀ (e : StackElement) (row : Nat), Leaves (.nodeState :: .degradeCause :: .reserveRowsLeft :: .wrapper ::
    auditRegs) (.remapWrite e row)) ∧
  (∀ (ch : Fin 32) (rows : List StackElement), Leaves [.selftestRuns, .wrapper] (.channelTest ch rows)) ∧
  (∀ c ∈ ([.draughtStatus, .hbm4DeviceIdentity, .hbm4TemperatureReadout, .hbm4ModeRegisterDump] : List Instr),
    Leaves [.wrapper] c) ∧
  (∀ (e : StackElement), Leaves (.reserveRowsLeft :: .wrapper :: auditRegs) (.hbm4SoftPpr e))

/-- Snapshot, recovery and epoch commands leave all else unchanged (R379, R467, R499, R513). When exec answers a next
state for a command named here, every register outside the list of its clause reads as before, and, where the clause
says Leaves, so does every byte of memory. -/
def Obligations.RecoveryFrames : Prop :=
  (∀ (b : Fin 256), LeavesRegs (.tableState :: .hartState :: .recoveryState :: .lullHeld :: errorRegs) (.snap b)) ∧
  (∀ (b : Fin 256), Leaves [.hartState, .lullHeld] (.snapCaptureComplete b)) ∧
  (LeavesRegs (.snapFit :: .snapJoined :: .snapWarn :: .snapFits :: .snapEnded :: errorRegs) .snapQuiesceComplete) ∧
  (∀ (warning : Bool) (fit : Bool) (ended : Bool) (dirty : List (Fin 17179869184)), Leaves (.hartState ::
    .draughtFront :: .retiringEpoch :: .slotInfo :: .slotValid :: .slotDrained :: .lastSnapTstep :: .snapsTaken ::
    .snapsSkipped :: .lullHeld :: .hartTurn :: .snapJoined :: .snapGen :: auditRegs) (.snapAgreementComplete warning
    fit ended dirty)) ∧
  (∀ (line : Fin 17179869184), Leaves (.slotInfo :: .slotValid :: .slotDrained ::
    auditRegs) (.taggedLineSweep line)) ∧
  (∀ (st : Fin 32) (bad : Option (Fin 17179869184)), LeavesRegs (.nodeState :: .stateRequest :: .initStage ::
    .tableState :: .hartState :: .channelState :: .eccCorrectedCnt :: .eccUncorrCnt :: .xwState :: .xwHoldNs ::
    .selftestRuns :: .slotInfo :: .slotValid :: .slotDrained :: .recoveryState :: .sqState :: .jobRunning ::
    .startPending :: .lullHeld :: .cqTail :: .cqWraps :: .sqHead :: .initEnded :: errorRegs) (.stackPartComplete st
    bad)) ∧
  (∀ (v : Arrival) (gen : Dword) (answer : DrainAnswer), LeavesRegs (.epochStaleCnt :: .fwdBytes :: .retiringEpoch
    :: .slotDrained :: errorRegs) (.drainAck v gen answer)) ∧
  (∀ (k : Fin 2), LeavesRegs errorRegs (.drainDeadlineExpiry k)) ∧
  (∀ (q : Fin 17) (h : Header) (index : Fin 16) (tstep : Dword) (gen : Dword) (imageBytes : Dword) (data : List
    Byte), LeavesRegs (.epochStaleCnt :: .fwdBytes :: .shardDir :: errorRegs) (.shardReceive q h index tstep gen
    imageBytes data)) ∧
  (∀ (q : Fin 17) (h : Header) (lost : Fin 17), LeavesRegs (.groupMap :: .epochStaleCnt :: .fwdBytes :: .xwState ::
    .xwHoldNs :: errorRegs) (.takeoverUpdateMessage q h lost)) ∧
  (∀ (v : Arrival), LeavesRegs (.logicalId :: .groupMap :: .epochStaleCnt :: .fwdBytes :: errorRegs)
    (.takeoverAcknowledgement v)) ∧
  (∀ (bad : Bool) (peers : Option Image), LeavesRegs (.nodeState :: .tableState :: .hartState :: .raccRound ::
    .collInstances :: .collDropped :: .collGateWait :: .collRetainFull :: .tstep :: .lastSnapTstep :: .recoveryState
    :: .restoredTstep :: .sqState :: .jobRunning :: .startPending :: .lullHeld :: .raccDone :: .fenceJoined ::
    .fenceDone :: .hartTurn :: .cqTail :: .cqWraps :: .sqHead :: .snapGen :: errorRegs) (.restoreComplete bad
    peers)) ∧
  (∀ (v : Arrival) (tstep : Dword) (digest : Dword), LeavesRegs (.epochStaleCnt :: .fwdBytes :: errorRegs)
    (.nodeDigestMessage v tstep digest)) ∧
  (∀ (v : Arrival) (tstep : Dword) (digest : Dword), LeavesRegs (.stateRequest :: .epochStaleCnt :: .fwdBytes ::
    .xwState :: .xwRecord :: .xwCompared :: .xwHoldNs :: .xwReceived :: errorRegs) (.crosswindDigestMessage v tstep
    digest)) ∧
  (∀ (v : Arrival) (tstep : Dword) (streams : List (Nat × Nat)), LeavesRegs (.stateRequest :: .epochStaleCnt ::
    .fwdBytes :: .xwState :: .xwRecord :: .xwHoldNs :: errorRegs) (.crosswindStreamDigests v tstep streams)) ∧
  (∀ (v : Arrival) (records : List (Nat × Nat)) (intact : Bool) (data : List Byte) (word : Dword), LeavesRegs
    (.stateRequest :: .epochStaleCnt :: .fwdBytes :: .xwState :: .xwRecord :: .xwHoldNs :: errorRegs)
    (.crosswindChunkExchange v records intact data word)) ∧
  (∀ (v : Arrival) (m : Option XwPairing), LeavesRegs (.epochStaleCnt :: .fwdBytes :: .xwState :: .xwRefuseCause ::
    .xwHoldNs :: .xwReceived :: errorRegs) (.crosswindPairingMessage v m)) ∧
  (∀ (b : Fin 256), LeavesRegs (.nodeState :: .tableState :: .hartState :: .collInstances :: .collDropped ::
    .collGateWait :: .collRetainFull :: .sigMismatches :: .xwState :: .xwRefuseCause :: .xwHoldNs :: .recoveryState
    :: .sqState :: .jobRunning :: .startPending :: .lullHeld :: .xwReceived :: .fenceJoined :: .fenceDone ::
    .hartTurn :: .cqTail :: .cqWraps :: .sqHead :: errorRegs) (.epoch b)) ∧
  (∀ (b : Fin 256) (k : Nat), LeavesRegs (.stateRequest :: .deadlinesMissed :: .xwState :: .xwRefuseCause ::
    .xwHoldNs :: errorRegs) (.deadlineMissed b k)) ∧
  (∀ (q : Fin 17) (h : Header) (withdrawn : Bool), LeavesRegs (.nodeState :: .tableState :: .hartState ::
    .epochStaleCnt :: .fwdBytes :: .collInstances :: .collDropped :: .collGateWait :: .collRetainFull ::
    .recoveryState :: .sqState :: .jobRunning :: .startPending :: .lullHeld :: .fenceHeld :: .fenceDone :: .hartTurn
    :: .cqTail :: .cqWraps :: .sqHead :: errorRegs) (.epochFenceMessage q h withdrawn)) ∧
  (LeavesRegs (.nodeState :: .tableState :: .hartState :: .recoveryState :: .sqState :: .jobRunning ::
    .startPending :: .fenceDone :: .hartTurn :: .cqTail :: .cqWraps :: .sqHead :: errorRegs) .jobBarrierComplete) ∧
  (∀ (core : Fin 192) (part : CorePart) (again : Bool), LeavesRegs (.coreReplays :: .selftestRuns ::
    errorRegs) (.coreParityReplay core part again)) ∧
  (∀ (core : Fin 192) (pass : Bool), LeavesRegs (.tableState :: .coresUsable :: .coreReserveLeft :: .hartMap ::
    .hartState :: .recoveryState :: .lullHeld :: .hartTurn :: .coreFailed ::
      errorRegs) (.coreSelftestComplete core pass)) ∧
  (∀ (standby : Bool), LeavesRegs (.nodeState :: .degradeCause :: .stateRequest :: .initStage :: .supActive ::
    .supStandbyOk :: .supTakeovers :: .xwState :: .xwHoldNs :: .recoveryState :: .sqState :: .jobRunning ::
    .startPending :: .cqTail :: .cqWraps :: .sqHead :: .initEnded :: errorRegs) (.supervisorMismatch standby))

/-- Entries of the bays leave all else unchanged (R109, R157, R167, R183, R207, R218). When exec answers a next state for
a command named here, every register outside the list of its clause reads as before, and, where the clause says
Leaves, so does every byte of memory. -/
def Obligations.BayFrames : Prop :=
  (∀ (b : Fin 256), ∀ c ∈ ([.digest b, .xfer b, .gath b, .scat b, .rstore b, .mcast b, .raccRelaxed b, .raccOrdered b,
    .histClear b, .histCopy b, .histMerge b, .histScan b, .tableEnd b] : List Instr),
    LeavesRegs (.specStalls :: errorRegs) c) ∧
  (∀ (b : Fin 256), LeavesRegs (.switches :: .switchLlmHits :: .prefetchLate :: .prefetchUnused ::
    .prefetchDropped :: .specStalls :: errorRegs) (.model b)) ∧
  (∀ (die : Fin 8), Leaves [.prefetchUnused] (.tailwindCopyComplete die)) ∧
  (∀ (b : Fin 256), ∀ c ∈ ([.vopCopy b, .vopAdd b, .vopSub b, .vopMul b, .vopFma b, .vopDiv b, .vopSqrt b, .vopMin
    b, .vopMax b, .vopAbs b, .vopNeg b, .vopScale b, .vopSel b, .vopShiftc b, .vopRelu b, .vopCmpeq b, .vopCmplt b,
    .vopCmple b, .vopCmpne b, .vopPand b, .vopPor b, .vopPxor b, .vopPnot b, .vopPset b, .vopExp b, .vopLog b,
    .vopTanh b, .vopSigm b, .vopSilu b, .vopGelu b, .vredSum b, .vredSumsq b, .vredDot b, .vredMax b, .vredMin b,
    .vredMaxabs b, .vredArgmax b, .vredCountnz b] : List Instr), LeavesRegs (.specStalls :: errorRegs) c) ∧
  (∀ (b : Fin 256) (check : ArrayCheck), ∀ c ∈ ([.mmaFull b check, .mmaPartial b check,
    .mmaCombine b check] : List Instr), LeavesRegs (.residueReplays :: .specStalls :: .selftestRuns :: errorRegs) c) ∧
  (∀ (die : Fin 8) (phys : Fin 34) (pass : Bool), LeavesRegs (.nodeState :: .degradeCause :: .baysActive ::
    .baySparesLeft :: .bayState :: errorRegs) (.arrayBistComplete die phys pass)) ∧
  (∀ (die : Fin 8) (phys : Fin 34), ∀ s t, exec (.baySpareCopyComplete die phys) s = .next t → RegsKept
    (.baySparesLeft :: .bayState :: .lbayMap :: (writeRegs ++ auditRegs)) s t ∧ ((∀ k, ∀ f ∈ (s.bay k).flights, f.op
    = opMma → f.phase ≠ 3) → MemKept s t)) ∧
  (∀ (b : Fin 256), ∀ c ∈ ([.transEncode b, .transDecode b, .transRecode b, .transConvert b] : List Instr),
    LeavesRegs (.transCarryMisses :: .transRemoteBlocks :: .couplerQueueMax :: .specStalls :: errorRegs) c) ∧
  (∀ (b : Fin 256) (c : Fin 8), LeavesRegs (.transElements :: writeRegs) (.transPartComplete b c)) ∧
  (∀ (b : Fin 256), LeavesRegs (.transCarryMisses :: .specStalls :: errorRegs) (.histCarry b)) ∧
  (∀ (b : Fin 256), LeavesRegs (.tableState :: .stepsIssued :: .windowMisses ::
    (traceRegs ++ auditRegs)) (.entryIssue b)) ∧
  (∀ (b : Fin 256) (queueFull : Bool), LeavesRegs (.scaleAreaRaces :: .tableState :: .ndConverted ::
    .windowMisses :: .hartState :: .xwHoldNs :: .recoveryState :: .lullHeld :: errorRegs) (.entryStart b queueFull)) ∧
  (∀ (b : Fin 256) (queueFull : Bool), ∀ c ∈ ([.entryComplete b queueFull, .entryAbandon b queueFull] : List Instr),
    LeavesRegs (.vecStatusOr :: .vecSteps :: .tableState :: .hartState :: .raccRound :: .recoveryState :: .lullHeld
    :: errorRegs) c) ∧
  (∀ (b : Fin 256) (queueFull : Bool), LeavesRegs (.tableState :: .hartState :: .xwHoldNs :: .recoveryState ::
    .lullHeld :: errorRegs) (.call b queueFull)) ∧
  (∀ (b : Fin 256) (queueFull : Bool), LeavesRegs (.tableState :: .hartState :: .xwHoldNs :: .recoveryState ::
    .lullHeld :: errorRegs) (.br b queueFull)) ∧
  (∀ (b : Fin 256) (queueFull : Bool), LeavesRegs (.tableState :: .hartState :: .xwHoldNs :: .recoveryState ::
    .lullHeld :: errorRegs) (.loop b queueFull)) ∧
  (∀ (b : Fin 256), LeavesRegs (.tableState :: .hartState :: .raccRound :: .recoveryState :: .lullHeld :: errorRegs)
    (.fence b)) ∧
  (∀ (b : Fin 256), ∀ c ∈ ([.waitEvent b, .waitFlag b, .waitNodeBarrier b, .waitToken b] : List Instr), LeavesRegs
    (.tableState :: .hartState :: .recoveryState :: .lullHeld :: errorRegs) c) ∧
  (∀ (b : Fin 256), LeavesRegs (.tableState :: .hartState :: .recoveryState :: .lullHeld :: errorRegs)
    (.waitConditionMet b)) ∧
  (∀ (b : Fin 256) (v : Dword), Leaves [] (.eventRegisterWrite b v))

/-- Hart, fabric, mail and collective commands leave all else unchanged (R264, R268, R375, R396, R410). When exec answers
a next state for a command named here, every register outside the list of its clause reads as before, and, where the
clause says Leaves, so does every byte of memory. -/
def Obligations.HartAndFabricFrames : Prop :=
  (∀ (h : Fin 3072) (w : Bool) (u : Bool) (vs2 : Fin 32) (vs1 : Fin 32) (et : Fin 8) (vd : Fin 32),
    ∀ c ∈ ([.vadd h w u vs2 vs1 et vd, .vsub h w u vs2 vs1 et vd, .vmul h w u vs2 vs1 et vd,
    .vmulh h w u vs2 vs1 et vd, .vfma h w u vs2 vs1 et vd, .vmin h w u vs2 vs1 et vd, .vmax h w u vs2 vs1 et vd,
    .vdiv h w u vs2 vs1 et vd, .vsqrt h w u vs2 vs1 et vd, .vand h w u vs2 vs1 et vd, .vor h w u vs2 vs1 et vd,
    .vxor h w u vs2 vs1 et vd, .vsll h w u vs2 vs1 et vd, .vsrl h w u vs2 vs1 et vd, .vsra h w u vs2 vs1 et vd,
    .vcmpeq h w u vs2 vs1 et vd, .vcmplt h w u vs2 vs1 et vd, .vcmple h w u vs2 vs1 et vd, .vsel h w u vs2 vs1 et vd,
    .vwmul h w u vs2 vs1 et vd, .vwmulhi h w u vs2 vs1 et vd, .vdot h w u vs2 vs1 et vd, .vrsum h w u vs2 vs1 et vd,
    .vcvt h w u vs2 vs1 et vd] : List Instr), Leaves [] c) ∧
  (∀ (h : Fin 3072) (et : Fin 8) (w : Bool) (rs1 : Fin 32) (vd : Fin 32), Leaves [] (.vsplat h et w rs1 vd)) ∧
  (∀ (h : Fin 3072) (et : Fin 8) (ln : Fin 16) (vs1 : Fin 32) (rd : Fin 32), Leaves [] (.vext h et ln vs1 rd)) ∧
  (∀ (h : Fin 3072) (w : Word) (short : Bool), LeavesRegs (.hartState :: .threadSwitches :: .remoteAccesses ::
    .svxFaults :: .svxrerr :: .hartTurn :: writeRegs) (.fOrDInstruction h w short)) ∧
  (∀ (h : Fin 3072) (k : LoadKind) (short : Bool) (rd : Fin 32) (rs1 : Fin 32) (imm : BitVec 12) (reach : CoreReach),
    LeavesRegs (.hartState :: .threadSwitches :: .remoteAccesses :: .hartTurn ::
      writeRegs) (.hartLoad h k short rd rs1 imm reach)) ∧
  (∀ (h : Fin 3072) (imm : BitVec 12) (rs1 : Fin 32) (vd : Fin 32) (reach : CoreReach), LeavesRegs (.hartState ::
    .threadSwitches :: .remoteAccesses :: .hartTurn :: writeRegs) (.vld h imm rs1 vd reach)) ∧
  (∀ (h : Fin 3072) (k : StoreKind) (short : Bool) (rs2 : Fin 32) (rs1 : Fin 32) (imm : BitVec 12) (refill : Bool),
    LeavesRegs (.hartState :: .threadSwitches :: .remoteAccesses :: .hartTurn ::
      writeRegs) (.hartStore h k short rs2 rs1 imm refill)) ∧
  (∀ (h : Fin 3072) (imm : BitVec 12) (vs3 : Fin 32) (rs1 : Fin 32) (refill : Bool), LeavesRegs (.hartState :: .threadSwitches ::
    .remoteAccesses :: .hartTurn :: writeRegs) (.vst h imm vs3 rs1 refill)) ∧
  (∀ (core : Fin 192), LeavesRegs (.hartState :: .notifyDropped :: .mailTail :: .hartTurn :: .cqTail ::
    .cqWraps :: errorRegs) (.storeBufferDrain core)) ∧
  (∀ (h : Fin 3072) (a : HartAtomic) (wide : Bool) (rl : Bool) (rd : Fin 32) (rs1 : Fin 32) (rs2 : Fin 32) (reach : CoreReach),
    LeavesRegs (.hartState :: .threadSwitches :: .remoteAccesses :: .hartTurn ::
      writeRegs) (.hartAmo h a wide rl rd rs1 rs2 reach)) ∧
  (∀ (h : Fin 3072) (et : Fin 8) (iw : Fin 4) (sc : Fin 4) (vi : Fin 32) (rs1 : Fin 32) (vd : Fin 32) (reach :
    CoreReach), LeavesRegs (.hartState :: .threadSwitches :: .remoteAccesses :: .svxFaults :: .svxrerr :: .hartTurn
    :: writeRegs) (.vgath h et iw sc vi rs1 vd reach)) ∧
  (∀ (h : Fin 3072) (et : Fin 8) (iw : Fin 4) (sc : Fin 4) (vi : Fin 32) (rs1 : Fin 32) (vs3 : Fin 32) (refill : Bool),
    LeavesRegs (.hartState :: .threadSwitches :: .remoteAccesses :: .svxFaults :: .hartTurn ::
      writeRegs) (.vscat h et iw sc vi rs1 vs3 refill)) ∧
  (∀ (h : Fin 3072), LeavesRegs (.hartState :: .svxFaults :: .svxrerr :: .hartTurn :: writeRegs) (.accessReturn h))
    ∧
  (∀ (h : Fin 3072) (pred : BitVec 4) (succ : BitVec 4), Leaves [.hartState, .threadSwitches,
    .hartTurn] (.hartFence h pred succ)) ∧
  (∀ (h : Fin 3072) (ra : Bool) (nv : Bool), Leaves [.hartState, .threadSwitches, .hartTurn] (.sync h ra nv)) ∧
  (∀ (h : Fin 3072), Leaves [.hartState, .threadSwitches, .hartTurn] (.hartWfi h)) ∧
  (∀ (h : Fin 3072) (irq : HartInterrupt), Leaves [.hartState, .hartTurn] (.interruptPending h irq)) ∧
  (∀ (core : Fin 192), Leaves [.hartTurn] (.threadTurnLimit core)) ∧
  (∀ (h : Fin 3072), Leaves [] (.sbiBaseCall h)) ∧
  (∀ (h : Fin 3072), ∀ c ∈ ([.sbiSetTimer h, .sbiSendIpi h, .sbiSystemReset h] : List Instr), Leaves [.hartState,
    .hartTurn] c) ∧
  (∀ (h : Fin 3072), Leaves [.svxrerr] (.svxrerrClear h)) ∧
  (∀ (q : Fin 17) (h : Header) (len : Fin 257), LeavesRegs (.epochStaleCnt :: .keyMismatchCnt :: .fwdBytes ::
    .shardDir :: .raccDone :: errorRegs) (.pktRead q h len)) ∧
  (∀ (q : Fin 17) (h : Header) (data : List Byte) (poison : Bool), LeavesRegs (.epochStaleCnt :: .keyMismatchCnt ::
    .fwdBytes :: .shardDir :: .raccDone :: errorRegs) (.pktWrite q h data poison)) ∧
  (∀ (q : Fin 17) (h : Header) (op : Option (AmoFn × Bool × Nat)) (sig : SignalInfo), LeavesRegs (.epochStaleCnt ::
    .keyMismatchCnt :: .fwdBytes :: .shardDir :: .raccDone :: errorRegs) (.pktAmo q h op sig)) ∧
  (∀ (q : Fin 17) (h : Header) (fn : Fin 3) (srcFmt : Fin 4) (wide : Bool) (data : List Byte) (order : Option
    RaccOrder), LeavesRegs (.epochStaleCnt :: .keyMismatchCnt :: .fwdBytes :: .shardDir :: .raccDone :: errorRegs)
    (.pktRacc q h fn srcFmt wide data order)) ∧
  (∀ (q : Fin 17) (h : Header) (data : List Byte) (poison : Bool), LeavesRegs (.specStalls :: .hartState ::
    .remoteWriteErrors :: .epochStaleCnt :: .fwdBytes :: .svxrerr :: .hartTurn ::
      errorRegs) (.pktReadResp q h data poison)) ∧
  (∀ (q : Fin 17) (h : Header), LeavesRegs (.specStalls :: .hartState :: .remoteWriteErrors :: .epochStaleCnt ::
    .fwdBytes :: .svxrerr :: .hartTurn :: errorRegs) (.pktAck q h)) ∧
  (∀ (q : Fin 17) (h : Header) (old : Dword) (poison : Bool), LeavesRegs (.specStalls :: .hartState ::
    .remoteWriteErrors :: .epochStaleCnt :: .fwdBytes :: .svxrerr :: .hartTurn ::
      errorRegs) (.pktAmoResp q h old poison)) ∧
  (∀ (q : Fin 17) (h : Header) (stale : Bool) (x : NackInfo), LeavesRegs (.specStalls :: .hartState ::
    .remoteWriteErrors :: .epochStaleCnt :: .fwdBytes :: .mailDrops :: .svxrerr :: .hartTurn :: errorRegs) (.pktNack
    q h stale x)) ∧
  (∀ (q : Fin 17) (h : Header) (round : Nat), LeavesRegs (.epochStaleCnt :: .keyMismatchCnt :: .fwdBytes ::
    .shardDir :: .raccDone :: errorRegs) (.raccCloseMessage q h round)) ∧
  (Leaves [] .raccRoundEnd) ∧
  (∀ (q : Fin 17), LeavesRegs (.specStalls :: .hartState :: .remoteWriteErrors :: .svxrerr :: .hartTurn ::
    errorRegs) (.remoteTimeout q)) ∧
  (∀ (q : Fin 64) (tail : Word), LeavesRegs (.mailTail :: errorRegs) (.mailDoorbell q tail)) ∧
  (∀ (q : Fin 320), LeavesRegs (.mailDone :: errorRegs) (.mailComplete q)) ∧
  (∀ (via : MailPort) (h : Header) (msg : Half) (pkt : Half) (total : Nat) (kind : MailKind) (data : List Byte)
    (hops : Nat),
    LeavesRegs (.epochStaleCnt :: .keyMismatchCnt :: .fwdBytes :: .mailDrops ::
      errorRegs) (.pktMail via h msg pkt total kind data hops)) ∧
  (Leaves [.fwdBytes, .mailDrops] .mailTransitTimeout) ∧
  (∀ (h : Header) (msg : Half) (pkt : Half) (done : Bool) (hops : Nat), LeavesRegs (.epochStaleCnt :: .fwdBytes ::
    .mailDrops :: errorRegs) (.pktMailAck h msg pkt done hops)) ∧
  (∀ (lnode : Fin 1048576), LeavesRegs (.mailRetrans :: errorRegs) (.mailRetransmitTimeout lnode)) ∧
  (∀ (b : Fin 256), ∀ c ∈ ([.collAllreduce b, .collReduce b, .collReduceScatter b, .collBroadcast b, .collAllgather
    b, .collAllgatherv b, .collBarrier b] : List Instr), LeavesRegs (.tableState :: .specStalls :: .hartState ::
    .recoveryState :: .lullHeld :: errorRegs) c) ∧
  (∀ (b : Fin 256) (queueFull : Bool), LeavesRegs (.tableState :: .hartState :: .collInstances :: .collAborts ::
    .collDropped :: .collGateWait :: .collRetainFull :: .recoveryState :: .lullHeld :: errorRegs)
    (.collNodeLocalStage b queueFull)) ∧
  (∀ (q : MailPort) (h : Header) (cid : CollId) (run : Fin 3) (sig : CollSig) (m : CollMsg) (queueFull : Bool),
    LeavesRegs (.tableState :: .hartState :: .epochStaleCnt :: .fwdBytes :: .collInstances :: .collAborts ::
    .collDigestFails :: .collDropped :: .collLateDrops :: .collGateWait :: .collRetainFull :: .recoveryState ::
    .lullHeld :: errorRegs) (.collChunkReceive q h cid run sig m queueFull)) ∧
  (∀ (q : MailPort) (h : Header) (cid : CollId) (run : Fin 3) (k : Nat) (queueFull : Bool), LeavesRegs (.tableState
    :: .hartState :: .epochStaleCnt :: .fwdBytes :: .collInstances :: .collAborts :: .collDigestFails ::
    .collDropped :: .collLateDrops :: .collGateWait :: .collRetainFull :: .recoveryState :: .lullHeld :: errorRegs)
    (.collRetentionAck q h cid run k queueFull)) ∧
  (∀ (q : MailPort) (h : Header) (cid : CollId) (run : Fin 3) (tree : Fin 2) (status : Nat) (counts : List (Nat ×
    Nat)) (queueFull : Bool), LeavesRegs (.tableState :: .hartState :: .epochStaleCnt :: .fwdBytes :: .collInstances
    :: .collDropped :: .collLateDrops :: .collGateWait :: .recoveryState :: .lullHeld :: errorRegs) (.collCommit q h
    cid run tree status counts queueFull)) ∧
  (∀ (q : MailPort) (h : Header) (cid : CollId) (run : Fin 3) (final : Bool) (queueFull : Bool), LeavesRegs
    (.tableState :: .hartState :: .epochStaleCnt :: .fwdBytes :: .collInstances :: .collAborts :: .collDropped ::
    .collLateDrops :: .collGateWait :: .collRetainFull :: .recoveryState :: .lullHeld :: errorRegs) (.collAbort q h
    cid run final queueFull)) ∧
  (∀ (q : MailPort) (h : Header) (cid : CollId) (run : Fin 3) (signature : Bool) (queueFull : Bool), LeavesRegs
    (.tableState :: .hartState :: .epochStaleCnt :: .fwdBytes :: .collInstances :: .collAborts :: .collDropped ::
    .collLateDrops :: .collGateWait :: .collRetainFull :: .recoveryState :: .lullHeld :: errorRegs)
    (.digestMismatchReport q h cid run signature queueFull)) ∧
  (∀ (q : MailPort) (h : Header) (cid : CollId) (run : Fin 3) (k : Nat), LeavesRegs (.epochStaleCnt :: .fwdBytes ::
    .collLateDrops :: errorRegs) (.chunkRefetchRequest q h cid run k)) ∧
  (∀ (b : Fin 256) (queueFull : Bool), LeavesRegs (.tableState :: .hartState :: .collAbandoned :: .recoveryState ::
    .lullHeld :: errorRegs) (.collAbandon b queueFull))

/-- A step runs the command at the front of the queue (00_scope.md). For every command and state, a step of the state with
that command at the front of its queue is exec of the command on the state with the rest of the queue. -/
def Obligations.StepRunsFrontCommand : Prop :=
  ∀ (c : Instr) (q : List Instr) (s : State), step { s with pending := c :: q } = exec c { s with pending := q }

/-- On an empty queue a step lets one nanosecond pass (14_clocks_reset_power_cooling.md). With no command waiting, a step
answers the state with its clock advanced by 1 ns and its cycle counts by those of clocks 8 and 9 while VIN_AON is
present, and the state itself without it. The unit
and the idle tick are the model's choice (log entry 5), not a rule of the spec. -/
def Obligations.EmptyQueueTicks : Prop :=
  ∀ s : State, s.pending = [] →
    step s = .next (if s.reg .aonAbsent = 0 then
        { s with now := s.now + 1, pclks := (s.pclks.1 + s.reg .clkMhz 8, s.pclks.2 + s.reg .clkMhz 9) } else s)

/-- The state at reset is well formed, with nothing waiting (00_scope.md, R524). The state at reset keeps the canonical
form of memory and of the register store, its queue is empty, and every byte of memory reads 0. The 0 of unwritten
memory is the model's choice (log entry 1). -/
def Obligations.ResetIsWellFormed : Prop :=
  State.reset.wf = true ∧ State.reset.pending = [] ∧ (∀ a, State.reset.byte a = 0)

/-- Every step keeps the state well formed (00_scope.md, R7, R568). From every state whose memory list is canonical and
whose register store is canonical with every register within its width, whatever command waits, a step that answers a
next state answers one with the same property. -/
def Obligations.StepKeepsWellFormed : Prop :=
  ∀ s t : State, s.wf = true → step s = .next t → t.wf = true

/-- Every command answers a next state in every state (00_scope.md). exec of every command in every state answers a next
state: no command stops the machine with a fault or a refusal. -/
def Obligations.EveryCommandAnswersNextState : Prop :=
  ∀ (c : Instr) (s : State), ∃ t, exec c s = .next t

/-- No command changes the queue of waiting commands (00_scope.md). When exec of any command answers a next state, the
queue of waiting commands is as it was. -/
def Obligations.CommandsLeaveTheQueue : Prop :=
  ∀ (c : Instr) (s t : State), exec c s = .next t → t.pending = s.pending

/-- A write reaches the bytes it names and no others (R207, R300, R333, R557). A write of bytes at an address changes the
bytes from that address on to those written, and leaves every other byte. For a host write, a stack write, the drain
of a buffered store and the effect of an entry, every byte outside the ranges they store to reads as before; a
statistics merge stores within 640 bytes of its record. An error that the slice finds at a stack write may end entries
of a job and fill the trace ring, which store elsewhere. -/
def Obligations.StoresReachTheirBytes : Prop :=
  (∀ (s : State) (a : Nat) (bs : List Byte) (c : Nat),
      (s.write a bs).byte c = if a ≤ c ∧ c < a + bs.length then bs.getD (c - a) 0 else s.byte c) ∧
  (∀ (s t : State) (a : BitVec 41) (data : List Byte), exec (.hostMemWrite a data) s = .next t →
      ∀ c, ¬ (a.toNat ≤ c ∧ c < a.toNat + data.length) → t.byte c = s.byte c) ∧
  (∀ (s t : State) (a : BitVec 42) (data : List Byte) (x : SliceAccess), exec (.stackWrite a data x) s = .next t →
      (x.word = .clean ∧ x.persistent = false) ∨ (s.reg .traceRing = 0 ∧ s.reg .jobRunning ≠ 1) →
      ∀ c, ¬ (a.toNat ≤ c ∧ c < a.toNat + data.length) → t.byte c = s.byte c) ∧
  (∀ (s t : State) (core : Fin 192) (e : HartStore), s.stores.find? (fun e => decide (e.core = core.val)) = some e →
      e.io = false → exec (.storeBufferDrain core) s = .next t →
        ∀ c, ¬ (e.addr ≤ c ∧ c < e.addr + e.bytes.length) → t.byte c = s.byte c) ∧
  (∀ (s : State) (b : Nat) (f : Flight) (e : Effect), f.spec = false ∨ e.result ≠ 0 →
      ∀ c, (∀ w ∈ e.writes, ¬ (w.1 ≤ c ∧ c < w.1 + w.2.length)) → (∀ m ∈ e.merges, ¬ (m.1 ≤ c ∧ c < m.1 + 640)) →
        (s.perform b f e).byte c = s.byte c)

/-- Aligned ranges spread evenly over the channels (R306). A range aligned to 128 KiB whose length is a multiple of 128
KiB places length / 1,024 bytes in every channel; for a fixed within-channel index the 1,024 units fall in distinct
channels; and the example address 0x12_3456_7880 is in channel 156, which is channel 28 of stack 4 on compute die 1,
and there in line 596,523: pseudo-channel 1, bank 2, row 1,165. -/
def Obligations.RangesSpreadOverChannels : Prop :=
  (∀ n m ch : Nat, ch < 1024 → n + m ≤ 2 ^ 24 →
      ((List.range (1024 * m)).filter fun k => decide (primaryChannel (131072 * n + 128 * k) = ch)).length * 128 =
        131072 * m / 1024) ∧
  (∀ i u v : Nat, u < 1024 → v < 1024 →
      primaryChannel (131072 * i + 128 * u) = primaryChannel (131072 * i + 128 * v) → u = v) ∧
  (let ch := primaryChannel 0x1234567880
   let i := lineIndex 0x1234567880
   ch = 156 ∧ ch / 32 = 4 ∧ ch % 32 = 28 ∧ ch / 32 / 4 = 1 ∧ i = 596523 ∧ i % 2 = 1 ∧ i / 16 % 32 = 2 ∧ i / 512 = 1165)

/-- The package digest is CRC-64/XZ (R461). The digest of every list of bytes is the reflection of a register that starts
at all ones and takes the bytes, each least significant bit first, through the polynomial 0x42F0_E1EB_A9EA_3693,
exclusive-or all ones; that of "123456789" is 0x995D_C9BB_DF19_39FA and that of no bytes is 0. -/
def Obligations.DigestIsReflectedCrc : Prop :=
  (∀ bs : List Byte, digest bs = ((bs.foldl crcByte (BitVec.allOnes 64)).reverse ^^^ BitVec.allOnes 64).toNat) ∧
  digest [0x31, 0x32, 0x33, 0x34, 0x35, 0x36, 0x37, 0x38, 0x39] = 0x995DC9BBDF1939FA ∧ digest [] = 0

/-- E8M0 scale codes: powers of two, 0xFF for NaN blocks, 0x00 for zero blocks (R63). The value of an element of a block
of scale s, s at most 0xFE, is the element code times 2^(s - 127), times the coarse scale; with scale 0xFF every
element is NaN. An encoded block has scale 0xFF exactly when an input is NaN, and scale 0 when all are zero. -/
def Obligations.BlockScaleCodes : Prop :=
  (∀ (e : Elem) (c : Machine.Num) (s code : Nat), s < 0xFF →
      blockValue e s c code = (((e.decode code).scale ((s : Int) - 127)).mul c).1) ∧
  (∀ (e : Elem) (c : Machine.Num) (code : Nat), blockValue e 0xFF c code = .nan) ∧
  (∀ (f : Elem) (c : Machine.Num) (flush : Bool) (xs : List Machine.Num), (encodeBlock f c flush xs).scale ≤ 0xFF ∧
      ((encodeBlock f c flush xs).scale = 0xFF ↔ xs.any Machine.Num.isNan = true)) ∧
  (∀ (f : Elem) (c : Machine.Num) (flush : Bool) (xs : List Machine.Num), xs.any Machine.Num.isNan = false → xs.any Machine.Num.isInf = false →
      (∀ x ∈ xs, ((x.div c).1).exponent = none) → (encodeBlock f c flush xs).scale = 0)

/-- CLK_SEL writes: BUSY with a job, STATE outside READY, DEGRADED and SERVICE (R624). Once its subsystem has started and
the requester has the level that the object needs, a write of CLK_SEL fails with BUSY while a job is loaded; without a
job it fails with STATE in a node state other than READY, DEGRADED or SERVICE; in those states, with no switch in
progress, a source of the table is accepted with compatibility mode off, and with it on a source that is not ready
fails with STATE. Compatibility mode is off at reset. -/
def Obligations.ClockSelectionChecks : Prop :=
  (∀ (s : State) (q : Requester) (k : Fin 48) (v : Byte), 3 ≤ (s.levelOf q).1 → s.started .clkSel = true →
      (s.jobLoaded = true → s.writeChecks q .clkSel k.val [v] = resBusy) ∧
        (s.jobLoaded = false → s.reg .nodeState ≠ 3 → s.reg .nodeState ≠ 6 → s.reg .nodeState ≠ 8 →
          s.writeChecks q .clkSel k.val [v] = resState) ∧
        (s.jobLoaded = false → s.reg .nodeState = 3 ∨ s.reg .nodeState = 6 ∨ s.reg .nodeState = 8 →
          s.reg .clkSwitching k.val = 0 → v.toNat ≤ 3 → s.reg .clkCompat k.val = 0 →
            s.writeChecks q .clkSel k.val [v] = resOk) ∧
        (s.jobLoaded = false → s.reg .nodeState = 3 ∨ s.reg .nodeState = 6 ∨ s.reg .nodeState = 8 →
          s.reg .clkSwitching k.val = 0 → s.reg .clkCompat k.val = 1 → bit (s.reg .clkReady k.val) v.toNat = false →
            s.writeChecks q .clkSel k.val [v] = resState)) ∧
  (∀ k, State.reset.reg .clkCompat k = 0)

/-- Objects before their subsystem starts, and refused writes (R571, R579, R593). A plain object whose subsystem has not
started reads its default, and a write to it that its level admits fails with STATE; a job-scoped one outside the
service area fails with BUSY while a job is loaded; and a write that the checks refuse changes no register beyond
those of the error record, the audit log and the count of refusals. -/
def Obligations.ObjectsBeforeTheirSubsystem : Prop :=
  (∀ (s : State) (r : Reg) (inst : Nat), s.supervisorServes = true → s.started r = false →
      (∀ u : State, u.valueOf r inst = u.regBytes r inst) → r ≠ .errorLog → r ≠ .auditLog → r ≠ .auditMirror →
        s.objectBytes r inst 0 r.size =
          (List.range r.info.elems).flatMap fun e => leBytes r.info.esize (r.dflt (inst * r.info.elems + e))) ∧
  (∀ (s : State) (q : Requester) (r : Reg) (inst : Nat) (bs : List Byte) (l : Nat), r.info.access.writeLevel = some l →
      l ≤ (s.levelOf q).1 →
        (s.started r = false → s.writeChecks q r inst bs = resState) ∧
          (s.started r = true → s.gated r = false → r.info.addr / 256 < 0xA000 → r.info.jobScoped = true →
            s.jobLoaded = true → s.writeChecks q r inst bs = resBusy)) ∧
  (∀ (s : State) (q : Requester) (r : Reg) (inst : Nat) (bs : List Byte) (f : State → State),
      s.writeChecks q r inst bs ≠ resOk → ∀ x, x ∉ errorRegs ++ [.auditRefused] → ∀ i,
        (s.writeObject q r inst bs f).2.reg x i = s.reg x i)

/-- An arriving request is checked for epoch, source, key, bounds and permission in turn (R370, R374, R375, R376). At its
target a request of a stale epoch is dropped, counted and answered with EPOCH_STALE, and so is one of a wrong source;
then a key of no region, a range beyond its region, and a permission that the region lacks are refused with the cause
that the rule gives, and the refusal is kept for a signal behind them. A refusal is counted and, with the trace ring off, writes no memory. -/
def Obligations.RequestsAreCheckedInOrder : Prop :=
  (∀ (s : State) (q : Nat) (p : Packet), p.h.dst.val = s.lnode → s.epochOk p.h = false →
      s.arrive q p = (s.dropStale p.h).replyTo q p.h p.h.epoch.toNat (.nack 0x0E 0 none)) ∧
  (∀ (s : State) (q : Nat) (p : Packet), p.h.dst.val = s.lnode → s.epochOk p.h = true → s.sourceOk q p.h = false →
      s.arrive q p = (s.dropStale p.h).emit q (s.replyOf p.h p.h.epoch.toNat (.nack 0x0E 0 none))) ∧
  (∀ (s : State) (q : Nat) (p : Packet), forStore p.h = false → s.region p.h.key.toNat = none →
      s.serve q p = ((s.noteTurn (orderKey p.h)).noteRefusal (orderKey p.h)).refuseKey q p.h 2) ∧
  (∀ (s : State) (q : Nat) (p : Packet) (r : Region), forStore p.h = false → s.region p.h.key.toNat = some r →
      r.size < p.h.offset.toNat + bodySpan p.body →
        s.serve q p = ((s.noteTurn (orderKey p.h)).noteRefusal (orderKey p.h)).refuseKey q p.h 1) ∧
  (∀ (s : State) (q : Nat) (p : Packet) (r : Region), forStore p.h = false → s.region p.h.key.toNat = some r →
      p.h.offset.toNat + bodySpan p.body ≤ r.size → bit r.perm (bodyNeeds p.body) = false →
        s.serve q p = ((s.noteTurn (orderKey p.h)).noteRefusal (orderKey p.h)).refuseKey q p.h 2) ∧
  (∀ (s : State) (q : Nat) (h : Header) (n : Nat), s.reg .traceRing = 0 →
      MemKept s (s.refuseKey q h n) ∧ MemKept s (s.dropStale h) ∧
        (s.refuseKey q h n).reg .keyMismatchCnt = (s.reg .keyMismatchCnt + 1) % Reg.modulus .keyMismatchCnt ∧
        (s.dropStale h).reg .epochStaleCnt = (s.reg .epochStaleCnt + 1) % Reg.modulus .epochStaleCnt)

/-- Packets of one source and class apply once, in sequence (R365, R382). A packet that has passed its checks and is behind its
sequence is dropped, and answered again with the answer kept for it; one ahead of it waits, and a copy of one that waits is
dropped. -/
def Obligations.PacketsApplyInSequence : Prop :=
  ∀ (s : State) (q : Nat) (p : Packet) (d : Nat), p.h.dst.val = s.lnode → s.epochOk p.h = true → s.sourceOk q p.h = true →
    s.faultedRefuses p = false →
    d = (p.h.seq.toNat + 65536 - Store.at 0 s.seqIn (p.h.src.val * 8 + p.h.tclass.val)) % 65536 →
      (32768 ≤ d → s.answerFor p.h = none → s.arrive q p = s) ∧
        (∀ r, 32768 ≤ d → s.answerFor p.h = some r → s.arrive q p = s.emit ((s.dstPos p.h.src.val).getD q) r) ∧
        (0 < d → d < 32768 → (∀ e ∈ s.early, e.2.h ≠ p.h) → s.arrive q p = { s with early := s.early ++ [(q, p)] }) ∧
        (0 < d → d < 32768 → (∃ e ∈ s.early, e.2.h = p.h) → s.arrive q p = s)

/-- Predicate P0 reads all ones and ignores writes (R163). P0 of every bay reads 64 ones; an effect that writes it changes
no predicate; an effect that writes another changes that one alone; and under P0 every element is active. -/
def Obligations.PredicateZeroIsAllOnes : Prop :=
  (∀ x : Bay, x.pred 0 = 2 ^ 64 - 1) ∧
  (∀ (x : Bay) (e : Effect) (v p : Nat), e.pred = some (0, v) → (x.apply e).pred p = x.pred p) ∧
  (∀ (x : Bay) (e : Effect) (v p k : Nat), e.pred = some (p, v) → p < x.preds.length → 0 < p →
      (x.apply e).pred p = v ∧ (k ≠ p → (x.apply e).pred k = x.pred k)) ∧
  (∀ i : Nat, active (2 ^ 64 - 1) i = true)

/-- Integer lanes of VADD, VSUB and VMUL wrap (R264, R268). In both forms, for every integer type and lane, VADD and VSUB
give the sum and the difference modulo 2 to the lane's width, and VMUL the low half of the product. -/
def Obligations.IntegerLanesWrap : Prop :=
  ∀ (w : Bool) (et : Fin 8) (a b d i : Nat), laneInteger et.val = true → i < laneCount (formBits w) et.val →
    let r := fun (f : Nat → Nat → Nat → Nat × Nat) => lane et.val (mapLanes (formBits w) et.val f a b d).1 i
    r (fun x y _ => laneAdd false et.val x y) = (lane et.val a i + lane et.val b i) % 2 ^ laneBits et.val ∧
      r (fun x y _ => laneAdd true et.val x y) =
        (lane et.val a i + 2 ^ laneBits et.val - lane et.val b i) % 2 ^ laneBits et.val ∧
      r (fun x y _ => laneMul et.val x y) = lane et.val a i * lane et.val b i % 2 ^ laneBits et.val

/-- Resets, the boundary, repairs and messages leave all else unchanged (R322, R524, R570, R629, R585, R328). A cold, a
warm and a held-back reset and the loss of a power input leave every register outside the reset domains they clear but
for those listed, every byte of the stacks, the slots and the shards. A time-step boundary and the end of a teardown
change the registers listed, those of error records and those whose write was deferred. Wrapper repairs, JP2 reads,
subscriptions and SPDM messages change only the registers listed. -/
def Obligations.ResetFrames : Prop :=
  (∀ (s t : State) (width : Nat), exec (.coldReset width) s = .next t →
      (∀ r : Reg, r.info.domain ≠ .warm → r.info.domain ≠ .cold →
        r ∉ ([.nodeState, .initStage, .taiState, .auditHead, .auditLost, .resetCause, .rstHeld, .inReset, .mgmtSilent,
          .stageStarted, .warmWaiting] : List Reg) →
        ∀ i, t.reg r i = s.reg r i) ∧ (∀ a, a < 0x20000000000 → t.byte a = s.byte a) ∧
      t.slotA = s.slotA ∧ t.slotB = s.slotB ∧ t.shards = s.shards) ∧
  (∀ (s t : State) (width : Nat), exec (.warmReset width) s = .next t →
      (∀ r : Reg, r.info.domain ≠ .warm → r.info.domain ≠ .cold →
        r ∉ ([.nodeState, .initStage, .taiState, .auditHead, .auditLost, .resetCause, .rstHeld, .inReset, .mgmtSilent,
          .stageStarted, .warmWaiting] : List Reg) →
        ∀ i, t.reg r i = s.reg r i) ∧ (∀ a, a < 0x20000000000 → t.byte a = s.byte a) ∧
      t.slotA = s.slotA ∧ t.slotB = s.slotB ∧ t.shards = s.shards) ∧
  (∀ (s t : State), exec (.resetAfterFusePulse) s = .next t →
      (∀ r : Reg, r.info.domain ≠ .warm →
        r ∉ ([.nodeState, .initStage, .linkState, .linkGen, .hostLink, .auditHead, .auditLost, .periphEn, .clkMhz,
          .resetCause, .inReset, .warmWaiting, .stageStarted, .serviceWork, .fusePulses] : List Reg) →
        ∀ i, t.reg r i = s.reg r i) ∧ (∀ a, a < 0x20000000000 → t.byte a = s.byte a) ∧
      t.slotA = s.slotA ∧ t.slotB = s.slotB ∧ t.shards = s.shards) ∧
  (∀ (s t : State) (lost : Bool), exec (.pwrOkDeasserted lost) s = .next t →
      (∀ r : Reg, r.info.domain ≠ .warm → r.info.domain ≠ .cold →
        r ∉ ([.nodeState, .initStage, .taiState, .auditHead, .auditLost, .resetCause, .vinMainIn, .pwrOk, .inReset,
          .warmWaiting, .thermTrip, .stageStarted] : List Reg) →
        ∀ i, t.reg r i = s.reg r i) ∧ (∀ a, a < 0x20000000000 → t.byte a = s.byte a) ∧
      t.slotA = s.slotA ∧ t.slotB = s.slotB ∧ t.shards = s.shards) ∧
  (∀ (s t : State), exec (.vinAonLost) s = .next t →
      (∀ r : Reg, r.info.domain ≠ .warm → r.info.domain ≠ .cold → r.info.domain ≠ .always →
        r ∉ ([.aonAbsent] : List Reg) →
        ∀ i, t.reg r i = s.reg r i) ∧ (∀ a, a < 0x20000000000 → t.byte a = s.byte a) ∧
      t.slotA = s.slotA ∧ t.slotB = s.slotB ∧ t.shards = s.shards) ∧
  (∀ s t : State, exec .timeStepBoundary s = .next t →
    ∀ r : Reg, r ∉ ([.nodeState, .stateRequest, .prefetchUnused, .tableState, .hartState, .raccRound, .tstep, .nodeDigest,
        .streamDigests, .xwState, .xwRecord, .xwCompared, .xwHoldNs, .recoveryState, .replayCompared,
          .lullHeld] : List Reg) ++ errorRegs →
      (∀ e ∈ s.deferred, e.1.1 ≠ r) → ∀ i, t.reg r i = s.reg r i) ∧
  (∀ s t : State, exec .teardownComplete s = .next t →
    ∀ r : Reg, r ∉ ([.nodeState, .jobActive, .logicalId, .prefetchUnused, .sqState, .teardownPending, .cqTail,
      .cqWraps, .sqHead] : List Reg) ++ errorRegs →
      (∀ e ∈ s.deferred, e.1.1 ≠ r) → ∀ i, t.reg r i = s.reg r i) ∧
  (∀ (e : StackElement) (s t : State),
      exec (.repairRow e) s = .next t ∨ exec (.hbm4LaneRepair e) s = .next t ∨ exec (.hbm4HardPpr e) s = .next t →
        RegsKept (.journalUsed :: .serviceWork :: .fusePulses :: .wrapper :: auditRegs) s t ∧ MemKept s t) ∧
  (∀ (s t : State) (q : Requester) (rseq : Dword) (obj : ObjAddr) (offset len : Word),
    exec (.jp2Read q rseq obj offset len) s = .next t →
      RegsKept (.dictRefused :: errorRegs) s t) ∧
  (∀ (s t : State) (q : Requester) (rseq start seq : Dword) (objects : List ObjAddr) (period : Nat) (hold : Bool) (n
    : Byte),
      exec (.subOpenSample q rseq objects period) s = .next t ∨ exec (.subOpenAudit q rseq start hold) s = .next t ∨
        exec (.subAck q rseq seq) s = .next t ∨ exec (.subClose q rseq n) s = .next t →
          RegsKept [.dictRefused, .auditAcked] s t ∧ MemKept s t) ∧
  (∀ (s t : State) (q : Requester) (rseq : Dword) (m : SpdmRequest), exec (.jp2Spdm q rseq m) s = .next t →
      RegsKept (.dictRefused :: .tableState :: .auditAcked :: auditRegs) s t ∧ MemKept s t)

/-- Accepted writes of single objects leave all else unchanged (R579, R593). A write that the dictionary accepts of
CLK_SEL, STATE_REQUEST, SERVICE_REQUEST, LOCATION, FREEZE_CMD, LAT_CLEAR, TAI_SET, the audit acknowledgements,
LINK_CMD, ERROR_ACK, ALERT_CAUSE, SQ_ENABLE, ALLOC_TOP, MAPOUT_FORCE, a mode object or RECOVERY_CMD changes the
object, the registers of its audit entry and those listed for it; memory too stays, but for a trigger and a recovery. -/
def Obligations.AcceptedWriteFrames : Prop :=
  (∀ (s t : State) (q : Requester) (k : Fin 48) (v : Byte), Accepts s q .clkSel k.val [v] →
      exec (.clkSelWrite q k v) s = .next t → RegsKept (.clkSwitching :: acceptRegs .clkSel) s t ∧ MemKept s t) ∧
  (∀ (s t : State) (q : Requester) (k : Fin 48) (v : Byte), Accepts s q .clkSel k.val [v] →
      exec (.readyFlagSwitch q k v) s = .next t → RegsKept (.clkSwitching :: acceptRegs .clkSel) s t ∧ MemKept s t) ∧
  (∀ (s t : State) (q : Requester), Accepts s q .stateRequest 0 [5] →
      exec (.stateRequestLull q) s = .next t → RegsKept (acceptRegs .stateRequest) s t ∧ MemKept s t) ∧
  (∀ (s t : State) (q : Requester), Accepts s q .stateRequest 0 [4] →
      exec (.stateRequestResume q) s = .next t → RegsKept (.nodeState :: .hartState :: .lullHeld :: .hartTurn ::
        acceptRegs .stateRequest) s t ∧ MemKept s t) ∧
  (∀ (s t : State) (q : Requester), Accepts s q .serviceRequest 0 [1] →
      exec (.serviceRequestEnter q) s = .next t → RegsKept (.nodeState :: .linksUp :: .linkState :: .linkGen ::
        .linkQuiet :: acceptRegs .serviceRequest) s t ∧ MemKept s t) ∧
  (∀ (s t : State) (q : Requester) (v : Word), Accepts s q .location 0 (leBytes 4 v.toNat) →
      exec (.locationWrite q v) s = .next t → RegsKept (.initStage :: .physId :: .stageStarted :: .stage5Waits ::
        acceptRegs .location) s t ∧ MemKept s t) ∧
  (∀ (s t : State) (q : Requester), Accepts s q .freezeCmd 0 [1] →
      exec (.freezeCmdTrigger q) s = .next t → RegsKept (.freezeGen :: .freezeRecord :: .freezeState ::
        .dumpWaits :: .freezeMissed :: (traceRegs ++ acceptRegs .freezeCmd)) s t) ∧
  (∀ (s t : State) (q : Requester), Accepts s q .freezeCmd 0 [2] →
      exec (.freezeCmdRearm q) s = .next t → RegsKept (.freezeState :: .dumpWaits ::
        acceptRegs .freezeCmd) s t ∧ MemKept s t) ∧
  (∀ (s t : State) (q : Requester), Accepts s q .freezeCmd 0 [3] →
      exec (.freezeCmdDisarm q) s = .next t → RegsKept (.freezeState :: .dumpWaits ::
        acceptRegs .freezeCmd) s t ∧ MemKept s t) ∧
  (∀ (s t : State) (q : Requester) (v : Byte), Accepts s q .latClear 0 [v] →
      exec (.latClearWrite q v) s = .next t → RegsKept (.latHist :: acceptRegs .latClear) s t ∧ MemKept s t) ∧
  (∀ (s t : State) (q : Requester) (v : Dword), Accepts s q .taiSet 0 (leBytes 8 v.toNat) →
      exec (.taiSetWrite q v) s = .next t → RegsKept (.taiState :: .taiOffset :: .taiSlew :: .taiSlewAt ::
        acceptRegs .taiSet) s t ∧ MemKept s t) ∧
  (∀ (s t : State) (q : Requester) (v : Dword), Accepts s q .auditAckHost 0 (leBytes 8 v.toNat) →
      exec (.auditAckHostWrite q v) s = .next t → RegsKept (.auditAcked :: .hostHoldAcked ::
        acceptRegs .auditAckHost) s t ∧ MemKept s t) ∧
  (∀ (s t : State) (q : Requester) (v : Byte), Accepts s q .auditHostHold 0 [v] →
      exec (.auditHostHoldWrite q v) s = .next t → RegsKept (.auditAcked :: .hostHoldAcked ::
        acceptRegs .auditHostHold) s t ∧ MemKept s t) ∧
  (∀ (s t : State) (q : Requester) (l : Fin 24), Accepts s q .linkCmd l.val [1] →
      exec (.linkCmdRetrain q l) s = .next t → RegsKept (.nodeState :: .degradeCause :: .linksUp :: .detours ::
        .linkState :: .linkGen :: .xwState :: .xwHoldNs :: .alertCause :: .linkWasUp :: .linkQuiet ::
          .flitSeq :: acceptRegs .linkCmd) s t ∧ MemKept s t) ∧
  (∀ (s t : State) (q : Requester) (l : Fin 24), Accepts s q .linkCmd l.val [2] →
      exec (.linkCmdDisable q l) s = .next t → RegsKept (.nodeState :: .degradeCause :: .linksUp :: .detours ::
        .linkState :: .linkGen :: .xwState :: .xwHoldNs :: .alertCause :: .linkWasUp :: .linkQuiet ::
          .flitSeq :: acceptRegs .linkCmd) s t ∧ MemKept s t) ∧
  (∀ (s t : State) (q : Requester) (l : Fin 24), Accepts s q .linkCmd l.val [3] →
      exec (.linkCmdEnable q l) s = .next t → RegsKept (.nodeState :: .degradeCause :: .linksUp :: .detours ::
        .linkState :: .linkGen :: .xwState :: .xwHoldNs :: .alertCause :: .linkWasUp :: .linkQuiet ::
          .flitSeq :: acceptRegs .linkCmd) s t ∧ MemKept s t) ∧
  (∀ (s t : State) (q : Requester) (v : Dword), Accepts s q .errorAck 0 (leBytes 8 v.toNat) →
      exec (.errorAckWrite q v) s = .next t → RegsKept (.alertCause :: acceptRegs .errorAck) s t ∧ MemKept s t) ∧
  (∀ (s t : State) (q : Requester) (v : Word), Accepts s q .alertCause 0 (leBytes 4 v.toNat) →
      exec (.alertCauseWrite q v) s = .next t → RegsKept (acceptRegs .alertCause) s t ∧ MemKept s t) ∧
  (∀ (s t : State) (q : Requester) (k : Fin 64) (v : Byte), Accepts s q .sqEnable k.val [v] →
      exec (.sqEnableWrite q k v) s = .next t → RegsKept (.sqState :: .cqHead :: .cqTail :: .cqWraps :: .sqHead ::
        .sqTail :: acceptRegs .sqEnable) s t ∧ MemKept s t) ∧
  (∀ (s t : State) (q : Requester) (v : Dword), Accepts s q .allocTop 0 (leBytes 8 v.toNat) →
      exec (.allocTopWrite q v) s = .next t → RegsKept (.alertCause :: acceptRegs .allocTop) s t ∧ MemKept s t) ∧
  (∀ (s t : State) (q : Requester) (v : Byte), Accepts s q .mapoutForce 0 [v] →
      exec (.mapoutForceWrite q v) s = .next t → RegsKept (.alertCause ::
        acceptRegs .mapoutForce) s t ∧ MemKept s t) ∧
  (∀ (s t : State) (q : Requester) (o : ModeObject) (n : Fin 16) (v : Byte), Accepts s q (modeReg o) n.val [v] →
      exec (.modeSetWrite q o n v) s = .next t → RegsKept (acceptRegs (modeReg o)) s t ∧ MemKept s t) ∧
  (∀ (s t : State) (q : Requester) (epoch : Half) (tstep : Dword) (peers : Option Half),
    Accepts s q .recoveryCmd 0 (recoveryBytes 1 0xFF epoch.toNat tstep.toNat) →
      exec (.recoveryRollback q epoch tstep peers) s = .next t → RegsKept (.logicalId :: .tableState ::
        .hartState :: .groupMap :: .jobEpoch :: .xwState :: .xwHoldNs :: .slotInfo :: .slotValid :: .slotDrained ::
          .recoveryState :: .notifyDropped :: .sqState :: .startPending :: .lullHeld :: .mailTail ::
          .fenceJoined :: .fenceHeld :: .fenceDone :: .cqTail :: .cqWraps :: .sqHead ::
          (errorRegs ++ acceptRegs .recoveryCmd)) s t) ∧
  (∀ (s t : State) (q : Requester) (pos : Byte) (epoch : Half) (tstep : Dword) (peers : Option Half),
    Accepts s q .recoveryCmd 0 (recoveryBytes 2 pos.toNat epoch.toNat tstep.toNat) →
      exec (.recoveryTakeover q pos epoch tstep peers) s = .next t → RegsKept (.logicalId :: .tableState ::
        .hartState :: .groupMap :: .jobEpoch :: .xwState :: .xwHoldNs :: .slotInfo :: .slotValid :: .slotDrained ::
          .recoveryState :: .notifyDropped :: .sqState :: .startPending :: .lullHeld :: .mailTail ::
          .fenceJoined :: .fenceHeld :: .fenceDone :: .cqTail :: .cqWraps :: .sqHead ::
          (errorRegs ++ acceptRegs .recoveryCmd)) s t) ∧
  (∀ (s t : State) (q : Requester) (epoch : Half) (tstep : Dword) (peers : Option Half),
    Accepts s q .recoveryCmd 0 (recoveryBytes 3 0xFF epoch.toNat tstep.toNat) →
      exec (.recoveryRejoin q epoch tstep peers) s = .next t → RegsKept (.logicalId :: .tableState ::
        .hartState :: .groupMap :: .jobEpoch :: .xwState :: .xwHoldNs :: .slotInfo :: .slotValid :: .slotDrained ::
          .recoveryState :: .notifyDropped :: .sqState :: .startPending :: .lullHeld :: .mailTail ::
          .fenceJoined :: .fenceHeld :: .fenceDone :: .cqTail :: .cqWraps :: .sqHead ::
          (errorRegs ++ acceptRegs .recoveryCmd)) s t)
end

