-- ==== Sys2Proof/Laws/Bits.lean ====
section
/-! SUPPORT. Bits of a number after one of them is set or cleared. -/

namespace Sys2Proof.Machine

/-- Below bit `i + 1`, a number whose bit `i` is clear is less than 2^i. -/
theorem mod_lt_of_bit {v i : Nat} (h : v.testBit i = false) : v % 2 ^ (i + 1) < 2 ^ i := by
  rw [Nat.testBit_eq_decide_div_mod_eq] at h
  have h' : v / 2 ^ i % 2 = 0 := by
    have := of_decide_eq_false h
    omega
  rw [Nat.pow_succ, Nat.mod_mul, h', Nat.mul_zero, Nat.add_zero]
  exact Nat.mod_lt _ (Nat.two_pow_pos i)

theorem testBit_add_two_pow {v i : Nat} (h : v.testBit i = false) (j : Nat) :
    (v + 2 ^ i).testBit j = (decide (i = j) || v.testBit j) := by
  have hr := mod_lt_of_bit h
  have e : v + 2 ^ i = 2 ^ (i + 1) * (v / 2 ^ (i + 1)) + (2 ^ i + v % 2 ^ (i + 1)) := by
    have := Nat.div_add_mod v (2 ^ (i + 1))
    omega
  have hb : 2 ^ i + v % 2 ^ (i + 1) < 2 ^ (i + 1) := by
    rw [Nat.pow_succ] at *
    omega
  rw [e, Nat.testBit_two_pow_mul_add _ hb]
  have hv : v.testBit j = if j < i + 1 then (v % 2 ^ (i + 1)).testBit j else (v / 2 ^ (i + 1)).testBit (j - (i + 1)) := by
    conv => lhs; rw [← Nat.div_add_mod v (2 ^ (i + 1))]
    exact Nat.testBit_two_pow_mul_add _ (Nat.mod_lt _ (Nat.two_pow_pos _)) j
  rw [hv]
  by_cases hj : j < i + 1
  · simp only [hj, if_true]
    by_cases hji : i = j
    · subst hji
      rw [Nat.testBit_two_pow_add_eq, Nat.testBit_lt_two_pow hr]
      simp
    · rw [Nat.testBit_two_pow_add_gt (by omega)]
      simp [hji]
  · have hji : i ≠ j := by omega
    simp [hj, hji]

@[simp] theorem bit_withBit (v i j : Nat) : bit (withBit v i) j = (decide (i = j) || bit v j) := by
  unfold withBit bit
  split
  · next h =>
    by_cases e : i = j
    · subst e; simp [h]
    · simp [e]
  · next h => exact testBit_add_two_pow (by simpa using h) j

@[simp] theorem bit_withoutBit (v i j : Nat) : bit (withoutBit v i) j = (!decide (i = j) && bit v j) := by
  unfold withoutBit bit
  split
  · next h =>
    have hle : 2 ^ i ≤ v := Nat.ge_two_pow_of_testBit h
    have e : v - 2 ^ i + 2 ^ i = v := by omega
    have h0 : (v - 2 ^ i).testBit i = false := by
      have := Nat.testBit_two_pow_add_eq (v - 2 ^ i) i
      rw [Nat.add_comm, e, h] at this
      simpa using this.symm
    have := testBit_add_two_pow h0 j
    rw [e] at this
    rw [this]
    by_cases hij : i = j
    · subst hij; simp [h0]
    · simp [hij]
  · next h =>
    by_cases e : i = j
    · subst e; simpa using h
    · simp [e]

@[simp] theorem bit_mod (v w j : Nat) : bit (v % 2 ^ w) j = (decide (j < w) && bit v j) := by
  unfold bit
  exact Nat.testBit_mod_two_pow ..

end Sys2Proof.Machine
end

