-- ==== Sys2Proof/Laws/State.lean ====
section
/-! SUPPORT. What each update of the state leaves alone, field by field. -/

namespace Sys2Proof.Machine

/-! After the write of a register. -/

@[simp] theorem State.pending_setReg (s : State) (r : Reg) (i v : Nat) : (s.setReg r i v).pending = s.pending := rfl
@[simp] theorem State.now_setReg (s : State) (r : Reg) (i v : Nat) : (s.setReg r i v).now = s.now := rfl
@[simp] theorem State.free_setReg (s : State) (r : Reg) (i v : Nat) : (s.setReg r i v).free = s.free := rfl
@[simp] theorem State.deferred_setReg (s : State) (r : Reg) (i v : Nat) : (s.setReg r i v).deferred = s.deferred := rfl
@[simp] theorem State.mem_setReg (s : State) (r : Reg) (i v : Nat) : (s.setReg r i v).mem = s.mem := rfl
@[simp] theorem State.poisonAtoms_setReg (s : State) (r : Reg) (i v : Nat) : (s.setReg r i v).poisonAtoms = s.poisonAtoms := rfl
@[simp] theorem State.poisonWords_setReg (s : State) (r : Reg) (i v : Nat) : (s.setReg r i v).poisonWords = s.poisonWords := rfl
@[simp] theorem State.bays_setReg (s : State) (r : Reg) (i v : Nat) : (s.setReg r i v).bays = s.bays := rfl
@[simp] theorem State.tests_setReg (s : State) (r : Reg) (i v : Nat) : (s.setReg r i v).tests = s.tests := rfl
@[simp] theorem State.copies_setReg (s : State) (r : Reg) (i v : Nat) : (s.setReg r i v).copies = s.copies := rfl
@[simp] theorem State.tailwind_setReg (s : State) (r : Reg) (i v : Nat) : (s.setReg r i v).tailwind = s.tailwind := rfl
@[simp] theorem State.retry_setReg (s : State) (r : Reg) (i v : Nat) : (s.setReg r i v).retry = s.retry := rfl
@[simp] theorem State.linkQueue_setReg (s : State) (r : Reg) (i v : Nat) : (s.setReg r i v).linkQueue = s.linkQueue := rfl
@[simp] theorem State.flitNext_setReg (s : State) (r : Reg) (i v : Nat) : (s.setReg r i v).flitNext = s.flitNext := rfl
@[simp] theorem State.stuck_setReg (s : State) (r : Reg) (i v : Nat) : (s.setReg r i v).stuck = s.stuck := rfl
@[simp] theorem State.answered_setReg (s : State) (r : Reg) (i v : Nat) : (s.setReg r i v).answered = s.answered := rfl
@[simp] theorem State.refusals_setReg (s : State) (r : Reg) (i v : Nat) : (s.setReg r i v).refusals = s.refusals := rfl
@[simp] theorem State.chanStalled_setReg (s : State) (r : Reg) (i v : Nat) : (s.setReg r i v).chanStalled = s.chanStalled := rfl
@[simp] theorem State.sliceHeld_setReg (s : State) (r : Reg) (i v : Nat) : (s.setReg r i v).sliceHeld = s.sliceHeld := rfl
@[simp] theorem State.merging_setReg (s : State) (r : Reg) (i v : Nat) : (s.setReg r i v).merging = s.merging := rfl
@[simp] theorem State.migrated_setReg (s : State) (r : Reg) (i v : Nat) : (s.setReg r i v).migrated = s.migrated := rfl
@[simp] theorem State.recent_setReg (s : State) (r : Reg) (i v : Nat) : (s.setReg r i v).recent = s.recent := rfl
@[simp] theorem State.pclks_setReg (s : State) (r : Reg) (i v : Nat) : (s.setReg r i v).pclks = s.pclks := rfl
@[simp] theorem State.llm_setReg (s : State) (r : Reg) (i v : Nat) : (s.setReg r i v).llm = s.llm := rfl
@[simp] theorem State.corrections_setReg (s : State) (r : Reg) (i v : Nat) : (s.setReg r i v).corrections = s.corrections := rfl
@[simp] theorem State.chanQueue_setReg (s : State) (r : Reg) (i v : Nat) : (s.setReg r i v).chanQueue = s.chanQueue := rfl
@[simp] theorem State.narrowHeld_setReg (s : State) (r : Reg) (i v : Nat) : (s.setReg r i v).narrowHeld = s.narrowHeld := rfl
@[simp] theorem State.moved_setReg (s : State) (r : Reg) (i v : Nat) : (s.setReg r i v).moved = s.moved := rfl
@[simp] theorem State.spareMarks_setReg (s : State) (r : Reg) (i v : Nat) : (s.setReg r i v).spareMarks = s.spareMarks := rfl
@[simp] theorem State.seqOut_setReg (s : State) (r : Reg) (i v : Nat) : (s.setReg r i v).seqOut = s.seqOut := rfl
@[simp] theorem State.seqIn_setReg (s : State) (r : Reg) (i v : Nat) : (s.setReg r i v).seqIn = s.seqIn := rfl
@[simp] theorem State.early_setReg (s : State) (r : Reg) (i v : Nat) : (s.setReg r i v).early = s.early := rfl
@[simp] theorem State.requests_setReg (s : State) (r : Reg) (i v : Nat) : (s.setReg r i v).requests = s.requests := rfl
@[simp] theorem State.hartReplies_setReg (s : State) (r : Reg) (i v : Nat) : (s.setReg r i v).hartReplies = s.hartReplies := rfl
@[simp] theorem State.harts_setReg (s : State) (r : Reg) (i v : Nat) : (s.setReg r i v).harts = s.harts := rfl
@[simp] theorem State.stores_setReg (s : State) (r : Reg) (i v : Nat) : (s.setReg r i v).stores = s.stores := rfl
@[simp] theorem State.reservations_setReg (s : State) (r : Reg) (i v : Nat) : (s.setReg r i v).reservations = s.reservations := rfl
@[simp] theorem State.regions_setReg (s : State) (r : Reg) (i v : Nat) : (s.setReg r i v).regions = s.regions := rfl
@[simp] theorem State.staged_setReg (s : State) (r : Reg) (i v : Nat) : (s.setReg r i v).staged = s.staged := rfl
@[simp] theorem State.closes_setReg (s : State) (r : Reg) (i v : Nat) : (s.setReg r i v).closes = s.closes := rfl
@[simp] theorem State.roundsEnded_setReg (s : State) (r : Reg) (i v : Nat) : (s.setReg r i v).roundsEnded = s.roundsEnded := rfl
@[simp] theorem State.raccIssue_setReg (s : State) (r : Reg) (i v : Nat) : (s.setReg r i v).raccIssue = s.raccIssue := rfl
@[simp] theorem State.fences_setReg (s : State) (r : Reg) (i v : Nat) : (s.setReg r i v).fences = s.fences := rfl
@[simp] theorem State.peerLinks_setReg (s : State) (r : Reg) (i v : Nat) : (s.setReg r i v).peerLinks = s.peerLinks := rfl
@[simp] theorem State.mails_setReg (s : State) (r : Reg) (i v : Nat) : (s.setReg r i v).mails = s.mails := rfl
@[simp] theorem State.mailNext_setReg (s : State) (r : Reg) (i v : Nat) : (s.setReg r i v).mailNext = s.mailNext := rfl
@[simp] theorem State.mailIn_setReg (s : State) (r : Reg) (i v : Nat) : (s.setReg r i v).mailIn = s.mailIn := rfl
@[simp] theorem State.transit_setReg (s : State) (r : Reg) (i v : Nat) : (s.setReg r i v).transit = s.transit := rfl
@[simp] theorem State.colls_setReg (s : State) (r : Reg) (i v : Nat) : (s.setReg r i v).colls = s.colls := rfl
@[simp] theorem State.collDone_setReg (s : State) (r : Reg) (i v : Nat) : (s.setReg r i v).collDone = s.collDone := rfl
@[simp] theorem State.collHeld_setReg (s : State) (r : Reg) (i v : Nat) : (s.setReg r i v).collHeld = s.collHeld := rfl
@[simp] theorem State.chans_setReg (s : State) (r : Reg) (i v : Nat) : (s.setReg r i v).chans = s.chans := rfl
@[simp] theorem State.fills_setReg (s : State) (r : Reg) (i v : Nat) : (s.setReg r i v).fills = s.fills := rfl
@[simp] theorem State.narrow_setReg (s : State) (r : Reg) (i v : Nat) : (s.setReg r i v).narrow = s.narrow := rfl
@[simp] theorem State.remaps_setReg (s : State) (r : Reg) (i v : Nat) : (s.setReg r i v).remaps = s.remaps := rfl
@[simp] theorem State.remapping_setReg (s : State) (r : Reg) (i v : Nat) : (s.setReg r i v).remapping = s.remapping := rfl
@[simp] theorem State.mapoutWaits_setReg (s : State) (r : Reg) (i v : Nat) : (s.setReg r i v).mapoutWaits = s.mapoutWaits := rfl
@[simp] theorem State.journal_setReg (s : State) (r : Reg) (i v : Nat) : (s.setReg r i v).journal = s.journal := rfl
@[simp] theorem State.pulses_setReg (s : State) (r : Reg) (i v : Nat) : (s.setReg r i v).pulses = s.pulses := rfl
@[simp] theorem State.softPpr_setReg (s : State) (r : Reg) (i v : Nat) : (s.setReg r i v).softPpr = s.softPpr := rfl
@[simp] theorem State.segments_setReg (s : State) (r : Reg) (i v : Nat) : (s.setReg r i v).segments = s.segments := rfl
@[simp] theorem State.slotA_setReg (s : State) (r : Reg) (i v : Nat) : (s.setReg r i v).slotA = s.slotA := rfl
@[simp] theorem State.slotB_setReg (s : State) (r : Reg) (i v : Nat) : (s.setReg r i v).slotB = s.slotB := rfl
@[simp] theorem State.shards_setReg (s : State) (r : Reg) (i v : Nat) : (s.setReg r i v).shards = s.shards := rfl
@[simp] theorem State.drains_setReg (s : State) (r : Reg) (i v : Nat) : (s.setReg r i v).drains = s.drains := rfl
@[simp] theorem State.recovery_setReg (s : State) (r : Reg) (i v : Nat) : (s.setReg r i v).recovery = s.recovery := rfl
@[simp] theorem State.jobEpochs_setReg (s : State) (r : Reg) (i v : Nat) : (s.setReg r i v).jobEpochs = s.jobEpochs := rfl
@[simp] theorem State.kept_setReg (s : State) (r : Reg) (i v : Nat) : (s.setReg r i v).kept = s.kept := rfl
@[simp] theorem State.keptFor_setReg (s : State) (r : Reg) (i v : Nat) : (s.setReg r i v).keptFor = s.keptFor := rfl
@[simp] theorem State.hostLines_setReg (s : State) (r : Reg) (i v : Nat) : (s.setReg r i v).hostLines = s.hostLines := rfl
@[simp] theorem State.waiting_setReg (s : State) (r : Reg) (i v : Nat) : (s.setReg r i v).waiting = s.waiting := rfl
@[simp] theorem State.xwMsg_setReg (s : State) (r : Reg) (i v : Nat) : (s.setReg r i v).xwMsg = s.xwMsg := rfl
@[simp] theorem State.xwOwn_setReg (s : State) (r : Reg) (i v : Nat) : (s.setReg r i v).xwOwn = s.xwOwn := rfl
@[simp] theorem State.xwTheirs_setReg (s : State) (r : Reg) (i v : Nat) : (s.setReg r i v).xwTheirs = s.xwTheirs := rfl
@[simp] theorem State.xwStreams_setReg (s : State) (r : Reg) (i v : Nat) : (s.setReg r i v).xwStreams = s.xwStreams := rfl
@[simp] theorem State.xwDiff_setReg (s : State) (r : Reg) (i v : Nat) : (s.setReg r i v).xwDiff = s.xwDiff := rfl
@[simp] theorem State.rung_setReg (s : State) (r : Reg) (i v : Nat) : (s.setReg r i v).rung = s.rung := rfl
@[simp] theorem State.cmds_setReg (s : State) (r : Reg) (i v : Nat) : (s.setReg r i v).cmds = s.cmds := rfl
@[simp] theorem State.cqHeld_setReg (s : State) (r : Reg) (i v : Nat) : (s.setReg r i v).cqHeld = s.cqHeld := rfl
@[simp] theorem State.errorLog_setReg (s : State) (r : Reg) (i v : Nat) : (s.setReg r i v).errorLog = s.errorLog := rfl
@[simp] theorem State.squallEvents_setReg (s : State) (r : Reg) (i v : Nat) : (s.setReg r i v).squallEvents = s.squallEvents := rfl
@[simp] theorem State.audit_setReg (s : State) (r : Reg) (i v : Nat) : (s.setReg r i v).audit = s.audit := rfl
@[simp] theorem State.mirror_setReg (s : State) (r : Reg) (i v : Nat) : (s.setReg r i v).mirror = s.mirror := rfl
@[simp] theorem State.sessions_setReg (s : State) (r : Reg) (i v : Nat) : (s.setReg r i v).sessions = s.sessions := rfl
@[simp] theorem State.assemblies_setReg (s : State) (r : Reg) (i v : Nat) : (s.setReg r i v).assemblies = s.assemblies := rfl
@[simp] theorem State.answers_setReg (s : State) (r : Reg) (i v : Nat) : (s.setReg r i v).answers = s.answers := rfl
@[simp] theorem State.subs_setReg (s : State) (r : Reg) (i v : Nat) : (s.setReg r i v).subs = s.subs := rfl
@[simp] theorem State.frozen_setReg (s : State) (r : Reg) (i v : Nat) : (s.setReg r i v).frozen = s.frozen := rfl
@[simp] theorem State.late_setReg (s : State) (r : Reg) (i v : Nat) : (s.setReg r i v).late = s.late := rfl
@[simp] theorem State.out_setReg (s : State) (r : Reg) (i v : Nat) : (s.setReg r i v).out = s.out := rfl

/-! After the write of a byte of node memory. -/

@[simp] theorem State.pending_setByte (s : State) (a : Nat) (b : Byte) : (s.setByte a b).pending = s.pending := rfl
@[simp] theorem State.now_setByte (s : State) (a : Nat) (b : Byte) : (s.setByte a b).now = s.now := rfl
@[simp] theorem State.free_setByte (s : State) (a : Nat) (b : Byte) : (s.setByte a b).free = s.free := rfl
@[simp] theorem State.regs_setByte (s : State) (a : Nat) (b : Byte) : (s.setByte a b).regs = s.regs := rfl
@[simp] theorem State.deferred_setByte (s : State) (a : Nat) (b : Byte) : (s.setByte a b).deferred = s.deferred := rfl
@[simp] theorem State.poisonAtoms_setByte (s : State) (a : Nat) (b : Byte) : (s.setByte a b).poisonAtoms = s.poisonAtoms := rfl
@[simp] theorem State.poisonWords_setByte (s : State) (a : Nat) (b : Byte) : (s.setByte a b).poisonWords = s.poisonWords := rfl
@[simp] theorem State.bays_setByte (s : State) (a : Nat) (b : Byte) : (s.setByte a b).bays = s.bays := rfl
@[simp] theorem State.tests_setByte (s : State) (a : Nat) (b : Byte) : (s.setByte a b).tests = s.tests := rfl
@[simp] theorem State.copies_setByte (s : State) (a : Nat) (b : Byte) : (s.setByte a b).copies = s.copies := rfl
@[simp] theorem State.tailwind_setByte (s : State) (a : Nat) (b : Byte) : (s.setByte a b).tailwind = s.tailwind := rfl
@[simp] theorem State.retry_setByte (s : State) (a : Nat) (b : Byte) : (s.setByte a b).retry = s.retry := rfl
@[simp] theorem State.linkQueue_setByte (s : State) (a : Nat) (b : Byte) : (s.setByte a b).linkQueue = s.linkQueue := rfl
@[simp] theorem State.flitNext_setByte (s : State) (a : Nat) (b : Byte) : (s.setByte a b).flitNext = s.flitNext := rfl
@[simp] theorem State.stuck_setByte (s : State) (a : Nat) (b : Byte) : (s.setByte a b).stuck = s.stuck := rfl
@[simp] theorem State.answered_setByte (s : State) (a : Nat) (b : Byte) : (s.setByte a b).answered = s.answered := rfl
@[simp] theorem State.refusals_setByte (s : State) (a : Nat) (b : Byte) : (s.setByte a b).refusals = s.refusals := rfl
@[simp] theorem State.chanStalled_setByte (s : State) (a : Nat) (b : Byte) : (s.setByte a b).chanStalled = s.chanStalled := rfl
@[simp] theorem State.sliceHeld_setByte (s : State) (a : Nat) (b : Byte) : (s.setByte a b).sliceHeld = s.sliceHeld := rfl
@[simp] theorem State.merging_setByte (s : State) (a : Nat) (b : Byte) : (s.setByte a b).merging = s.merging := rfl
@[simp] theorem State.migrated_setByte (s : State) (a : Nat) (b : Byte) : (s.setByte a b).migrated = s.migrated := rfl
@[simp] theorem State.recent_setByte (s : State) (a : Nat) (b : Byte) : (s.setByte a b).recent = s.recent := rfl
@[simp] theorem State.pclks_setByte (s : State) (a : Nat) (b : Byte) : (s.setByte a b).pclks = s.pclks := rfl
@[simp] theorem State.llm_setByte (s : State) (a : Nat) (b : Byte) : (s.setByte a b).llm = s.llm := rfl
@[simp] theorem State.corrections_setByte (s : State) (a : Nat) (b : Byte) : (s.setByte a b).corrections = s.corrections := rfl
@[simp] theorem State.chanQueue_setByte (s : State) (a : Nat) (b : Byte) : (s.setByte a b).chanQueue = s.chanQueue := rfl
@[simp] theorem State.narrowHeld_setByte (s : State) (a : Nat) (b : Byte) : (s.setByte a b).narrowHeld = s.narrowHeld := rfl
@[simp] theorem State.moved_setByte (s : State) (a : Nat) (b : Byte) : (s.setByte a b).moved = s.moved := rfl
@[simp] theorem State.spareMarks_setByte (s : State) (a : Nat) (b : Byte) : (s.setByte a b).spareMarks = s.spareMarks := rfl
@[simp] theorem State.seqOut_setByte (s : State) (a : Nat) (b : Byte) : (s.setByte a b).seqOut = s.seqOut := rfl
@[simp] theorem State.seqIn_setByte (s : State) (a : Nat) (b : Byte) : (s.setByte a b).seqIn = s.seqIn := rfl
@[simp] theorem State.early_setByte (s : State) (a : Nat) (b : Byte) : (s.setByte a b).early = s.early := rfl
@[simp] theorem State.requests_setByte (s : State) (a : Nat) (b : Byte) : (s.setByte a b).requests = s.requests := rfl
@[simp] theorem State.hartReplies_setByte (s : State) (a : Nat) (b : Byte) : (s.setByte a b).hartReplies = s.hartReplies := rfl
@[simp] theorem State.harts_setByte (s : State) (a : Nat) (b : Byte) : (s.setByte a b).harts = s.harts := rfl
@[simp] theorem State.stores_setByte (s : State) (a : Nat) (b : Byte) : (s.setByte a b).stores = s.stores := rfl
@[simp] theorem State.regions_setByte (s : State) (a : Nat) (b : Byte) : (s.setByte a b).regions = s.regions := rfl
@[simp] theorem State.staged_setByte (s : State) (a : Nat) (b : Byte) : (s.setByte a b).staged = s.staged := rfl
@[simp] theorem State.closes_setByte (s : State) (a : Nat) (b : Byte) : (s.setByte a b).closes = s.closes := rfl
@[simp] theorem State.roundsEnded_setByte (s : State) (a : Nat) (b : Byte) : (s.setByte a b).roundsEnded = s.roundsEnded := rfl
@[simp] theorem State.raccIssue_setByte (s : State) (a : Nat) (b : Byte) : (s.setByte a b).raccIssue = s.raccIssue := rfl
@[simp] theorem State.fences_setByte (s : State) (a : Nat) (b : Byte) : (s.setByte a b).fences = s.fences := rfl
@[simp] theorem State.peerLinks_setByte (s : State) (a : Nat) (b : Byte) : (s.setByte a b).peerLinks = s.peerLinks := rfl
@[simp] theorem State.mails_setByte (s : State) (a : Nat) (b : Byte) : (s.setByte a b).mails = s.mails := rfl
@[simp] theorem State.mailNext_setByte (s : State) (a : Nat) (b : Byte) : (s.setByte a b).mailNext = s.mailNext := rfl
@[simp] theorem State.mailIn_setByte (s : State) (a : Nat) (b : Byte) : (s.setByte a b).mailIn = s.mailIn := rfl
@[simp] theorem State.transit_setByte (s : State) (a : Nat) (b : Byte) : (s.setByte a b).transit = s.transit := rfl
@[simp] theorem State.colls_setByte (s : State) (a : Nat) (b : Byte) : (s.setByte a b).colls = s.colls := rfl
@[simp] theorem State.collDone_setByte (s : State) (a : Nat) (b : Byte) : (s.setByte a b).collDone = s.collDone := rfl
@[simp] theorem State.collHeld_setByte (s : State) (a : Nat) (b : Byte) : (s.setByte a b).collHeld = s.collHeld := rfl
@[simp] theorem State.chans_setByte (s : State) (a : Nat) (b : Byte) : (s.setByte a b).chans = s.chans := rfl
@[simp] theorem State.fills_setByte (s : State) (a : Nat) (b : Byte) : (s.setByte a b).fills = s.fills := rfl
@[simp] theorem State.narrow_setByte (s : State) (a : Nat) (b : Byte) : (s.setByte a b).narrow = s.narrow := rfl
@[simp] theorem State.remaps_setByte (s : State) (a : Nat) (b : Byte) : (s.setByte a b).remaps = s.remaps := rfl
@[simp] theorem State.remapping_setByte (s : State) (a : Nat) (b : Byte) : (s.setByte a b).remapping = s.remapping := rfl
@[simp] theorem State.mapoutWaits_setByte (s : State) (a : Nat) (b : Byte) : (s.setByte a b).mapoutWaits = s.mapoutWaits := rfl
@[simp] theorem State.journal_setByte (s : State) (a : Nat) (b : Byte) : (s.setByte a b).journal = s.journal := rfl
@[simp] theorem State.pulses_setByte (s : State) (a : Nat) (b : Byte) : (s.setByte a b).pulses = s.pulses := rfl
@[simp] theorem State.softPpr_setByte (s : State) (a : Nat) (b : Byte) : (s.setByte a b).softPpr = s.softPpr := rfl
@[simp] theorem State.segments_setByte (s : State) (a : Nat) (b : Byte) : (s.setByte a b).segments = s.segments := rfl
@[simp] theorem State.slotA_setByte (s : State) (a : Nat) (b : Byte) : (s.setByte a b).slotA = s.slotA := rfl
@[simp] theorem State.slotB_setByte (s : State) (a : Nat) (b : Byte) : (s.setByte a b).slotB = s.slotB := rfl
@[simp] theorem State.shards_setByte (s : State) (a : Nat) (b : Byte) : (s.setByte a b).shards = s.shards := rfl
@[simp] theorem State.drains_setByte (s : State) (a : Nat) (b : Byte) : (s.setByte a b).drains = s.drains := rfl
@[simp] theorem State.recovery_setByte (s : State) (a : Nat) (b : Byte) : (s.setByte a b).recovery = s.recovery := rfl
@[simp] theorem State.jobEpochs_setByte (s : State) (a : Nat) (b : Byte) : (s.setByte a b).jobEpochs = s.jobEpochs := rfl
@[simp] theorem State.kept_setByte (s : State) (a : Nat) (b : Byte) : (s.setByte a b).kept = s.kept := rfl
@[simp] theorem State.keptFor_setByte (s : State) (a : Nat) (b : Byte) : (s.setByte a b).keptFor = s.keptFor := rfl
@[simp] theorem State.hostLines_setByte (s : State) (a : Nat) (b : Byte) : (s.setByte a b).hostLines = s.hostLines := rfl
@[simp] theorem State.waiting_setByte (s : State) (a : Nat) (b : Byte) : (s.setByte a b).waiting = s.waiting := rfl
@[simp] theorem State.xwMsg_setByte (s : State) (a : Nat) (b : Byte) : (s.setByte a b).xwMsg = s.xwMsg := rfl
@[simp] theorem State.xwOwn_setByte (s : State) (a : Nat) (b : Byte) : (s.setByte a b).xwOwn = s.xwOwn := rfl
@[simp] theorem State.xwTheirs_setByte (s : State) (a : Nat) (b : Byte) : (s.setByte a b).xwTheirs = s.xwTheirs := rfl
@[simp] theorem State.xwStreams_setByte (s : State) (a : Nat) (b : Byte) : (s.setByte a b).xwStreams = s.xwStreams := rfl
@[simp] theorem State.xwDiff_setByte (s : State) (a : Nat) (b : Byte) : (s.setByte a b).xwDiff = s.xwDiff := rfl
@[simp] theorem State.rung_setByte (s : State) (a : Nat) (b : Byte) : (s.setByte a b).rung = s.rung := rfl
@[simp] theorem State.cmds_setByte (s : State) (a : Nat) (b : Byte) : (s.setByte a b).cmds = s.cmds := rfl
@[simp] theorem State.cqHeld_setByte (s : State) (a : Nat) (b : Byte) : (s.setByte a b).cqHeld = s.cqHeld := rfl
@[simp] theorem State.errorLog_setByte (s : State) (a : Nat) (b : Byte) : (s.setByte a b).errorLog = s.errorLog := rfl
@[simp] theorem State.squallEvents_setByte (s : State) (a : Nat) (b : Byte) : (s.setByte a b).squallEvents = s.squallEvents := rfl
@[simp] theorem State.audit_setByte (s : State) (a : Nat) (b : Byte) : (s.setByte a b).audit = s.audit := rfl
@[simp] theorem State.mirror_setByte (s : State) (a : Nat) (b : Byte) : (s.setByte a b).mirror = s.mirror := rfl
@[simp] theorem State.sessions_setByte (s : State) (a : Nat) (b : Byte) : (s.setByte a b).sessions = s.sessions := rfl
@[simp] theorem State.assemblies_setByte (s : State) (a : Nat) (b : Byte) : (s.setByte a b).assemblies = s.assemblies := rfl
@[simp] theorem State.answers_setByte (s : State) (a : Nat) (b : Byte) : (s.setByte a b).answers = s.answers := rfl
@[simp] theorem State.subs_setByte (s : State) (a : Nat) (b : Byte) : (s.setByte a b).subs = s.subs := rfl
@[simp] theorem State.frozen_setByte (s : State) (a : Nat) (b : Byte) : (s.setByte a b).frozen = s.frozen := rfl
@[simp] theorem State.late_setByte (s : State) (a : Nat) (b : Byte) : (s.setByte a b).late = s.late := rfl
@[simp] theorem State.out_setByte (s : State) (a : Nat) (b : Byte) : (s.setByte a b).out = s.out := rfl

/-! After the wipe of a range. -/

@[simp] theorem State.pending_wipe (s : State) (lo hi : Nat) : (s.wipe lo hi).pending = s.pending := rfl
@[simp] theorem State.now_wipe (s : State) (lo hi : Nat) : (s.wipe lo hi).now = s.now := rfl
@[simp] theorem State.free_wipe (s : State) (lo hi : Nat) : (s.wipe lo hi).free = s.free := rfl
@[simp] theorem State.regs_wipe (s : State) (lo hi : Nat) : (s.wipe lo hi).regs = s.regs := rfl
@[simp] theorem State.deferred_wipe (s : State) (lo hi : Nat) : (s.wipe lo hi).deferred = s.deferred := rfl
@[simp] theorem State.poisonAtoms_wipe (s : State) (lo hi : Nat) : (s.wipe lo hi).poisonAtoms = s.poisonAtoms := rfl
@[simp] theorem State.poisonWords_wipe (s : State) (lo hi : Nat) : (s.wipe lo hi).poisonWords = s.poisonWords := rfl
@[simp] theorem State.bays_wipe (s : State) (lo hi : Nat) : (s.wipe lo hi).bays = s.bays := rfl
@[simp] theorem State.tests_wipe (s : State) (lo hi : Nat) : (s.wipe lo hi).tests = s.tests := rfl
@[simp] theorem State.copies_wipe (s : State) (lo hi : Nat) : (s.wipe lo hi).copies = s.copies := rfl
@[simp] theorem State.tailwind_wipe (s : State) (lo hi : Nat) : (s.wipe lo hi).tailwind = s.tailwind := rfl
@[simp] theorem State.retry_wipe (s : State) (lo hi : Nat) : (s.wipe lo hi).retry = s.retry := rfl
@[simp] theorem State.linkQueue_wipe (s : State) (lo hi : Nat) : (s.wipe lo hi).linkQueue = s.linkQueue := rfl
@[simp] theorem State.flitNext_wipe (s : State) (lo hi : Nat) : (s.wipe lo hi).flitNext = s.flitNext := rfl
@[simp] theorem State.stuck_wipe (s : State) (lo hi : Nat) : (s.wipe lo hi).stuck = s.stuck := rfl
@[simp] theorem State.answered_wipe (s : State) (lo hi : Nat) : (s.wipe lo hi).answered = s.answered := rfl
@[simp] theorem State.refusals_wipe (s : State) (lo hi : Nat) : (s.wipe lo hi).refusals = s.refusals := rfl
@[simp] theorem State.chanStalled_wipe (s : State) (lo hi : Nat) : (s.wipe lo hi).chanStalled = s.chanStalled := rfl
@[simp] theorem State.sliceHeld_wipe (s : State) (lo hi : Nat) : (s.wipe lo hi).sliceHeld = s.sliceHeld := rfl
@[simp] theorem State.merging_wipe (s : State) (lo hi : Nat) : (s.wipe lo hi).merging = s.merging := rfl
@[simp] theorem State.migrated_wipe (s : State) (lo hi : Nat) : (s.wipe lo hi).migrated = s.migrated := rfl
@[simp] theorem State.recent_wipe (s : State) (lo hi : Nat) : (s.wipe lo hi).recent = s.recent := rfl
@[simp] theorem State.pclks_wipe (s : State) (lo hi : Nat) : (s.wipe lo hi).pclks = s.pclks := rfl
@[simp] theorem State.llm_wipe (s : State) (lo hi : Nat) : (s.wipe lo hi).llm = s.llm := rfl
@[simp] theorem State.corrections_wipe (s : State) (lo hi : Nat) : (s.wipe lo hi).corrections = s.corrections := rfl
@[simp] theorem State.chanQueue_wipe (s : State) (lo hi : Nat) : (s.wipe lo hi).chanQueue = s.chanQueue := rfl
@[simp] theorem State.narrowHeld_wipe (s : State) (lo hi : Nat) : (s.wipe lo hi).narrowHeld = s.narrowHeld := rfl
@[simp] theorem State.moved_wipe (s : State) (lo hi : Nat) : (s.wipe lo hi).moved = s.moved := rfl
@[simp] theorem State.spareMarks_wipe (s : State) (lo hi : Nat) : (s.wipe lo hi).spareMarks = s.spareMarks := rfl
@[simp] theorem State.seqOut_wipe (s : State) (lo hi : Nat) : (s.wipe lo hi).seqOut = s.seqOut := rfl
@[simp] theorem State.seqIn_wipe (s : State) (lo hi : Nat) : (s.wipe lo hi).seqIn = s.seqIn := rfl
@[simp] theorem State.early_wipe (s : State) (lo hi : Nat) : (s.wipe lo hi).early = s.early := rfl
@[simp] theorem State.requests_wipe (s : State) (lo hi : Nat) : (s.wipe lo hi).requests = s.requests := rfl
@[simp] theorem State.hartReplies_wipe (s : State) (lo hi : Nat) : (s.wipe lo hi).hartReplies = s.hartReplies := rfl
@[simp] theorem State.harts_wipe (s : State) (lo hi : Nat) : (s.wipe lo hi).harts = s.harts := rfl
@[simp] theorem State.stores_wipe (s : State) (lo hi : Nat) : (s.wipe lo hi).stores = s.stores := rfl
@[simp] theorem State.reservations_wipe (s : State) (lo hi : Nat) : (s.wipe lo hi).reservations = s.reservations := rfl
@[simp] theorem State.regions_wipe (s : State) (lo hi : Nat) : (s.wipe lo hi).regions = s.regions := rfl
@[simp] theorem State.staged_wipe (s : State) (lo hi : Nat) : (s.wipe lo hi).staged = s.staged := rfl
@[simp] theorem State.closes_wipe (s : State) (lo hi : Nat) : (s.wipe lo hi).closes = s.closes := rfl
@[simp] theorem State.roundsEnded_wipe (s : State) (lo hi : Nat) : (s.wipe lo hi).roundsEnded = s.roundsEnded := rfl
@[simp] theorem State.raccIssue_wipe (s : State) (lo hi : Nat) : (s.wipe lo hi).raccIssue = s.raccIssue := rfl
@[simp] theorem State.fences_wipe (s : State) (lo hi : Nat) : (s.wipe lo hi).fences = s.fences := rfl
@[simp] theorem State.peerLinks_wipe (s : State) (lo hi : Nat) : (s.wipe lo hi).peerLinks = s.peerLinks := rfl
@[simp] theorem State.mails_wipe (s : State) (lo hi : Nat) : (s.wipe lo hi).mails = s.mails := rfl
@[simp] theorem State.mailNext_wipe (s : State) (lo hi : Nat) : (s.wipe lo hi).mailNext = s.mailNext := rfl
@[simp] theorem State.mailIn_wipe (s : State) (lo hi : Nat) : (s.wipe lo hi).mailIn = s.mailIn := rfl
@[simp] theorem State.transit_wipe (s : State) (lo hi : Nat) : (s.wipe lo hi).transit = s.transit := rfl
@[simp] theorem State.colls_wipe (s : State) (lo hi : Nat) : (s.wipe lo hi).colls = s.colls := rfl
@[simp] theorem State.collDone_wipe (s : State) (lo hi : Nat) : (s.wipe lo hi).collDone = s.collDone := rfl
@[simp] theorem State.collHeld_wipe (s : State) (lo hi : Nat) : (s.wipe lo hi).collHeld = s.collHeld := rfl
@[simp] theorem State.chans_wipe (s : State) (lo hi : Nat) : (s.wipe lo hi).chans = s.chans := rfl
@[simp] theorem State.fills_wipe (s : State) (lo hi : Nat) : (s.wipe lo hi).fills = s.fills := rfl
@[simp] theorem State.narrow_wipe (s : State) (lo hi : Nat) : (s.wipe lo hi).narrow = s.narrow := rfl
@[simp] theorem State.remaps_wipe (s : State) (lo hi : Nat) : (s.wipe lo hi).remaps = s.remaps := rfl
@[simp] theorem State.remapping_wipe (s : State) (lo hi : Nat) : (s.wipe lo hi).remapping = s.remapping := rfl
@[simp] theorem State.mapoutWaits_wipe (s : State) (lo hi : Nat) : (s.wipe lo hi).mapoutWaits = s.mapoutWaits := rfl
@[simp] theorem State.journal_wipe (s : State) (lo hi : Nat) : (s.wipe lo hi).journal = s.journal := rfl
@[simp] theorem State.pulses_wipe (s : State) (lo hi : Nat) : (s.wipe lo hi).pulses = s.pulses := rfl
@[simp] theorem State.softPpr_wipe (s : State) (lo hi : Nat) : (s.wipe lo hi).softPpr = s.softPpr := rfl
@[simp] theorem State.segments_wipe (s : State) (lo hi : Nat) : (s.wipe lo hi).segments = s.segments := rfl
@[simp] theorem State.slotA_wipe (s : State) (lo hi : Nat) : (s.wipe lo hi).slotA = s.slotA := rfl
@[simp] theorem State.slotB_wipe (s : State) (lo hi : Nat) : (s.wipe lo hi).slotB = s.slotB := rfl
@[simp] theorem State.shards_wipe (s : State) (lo hi : Nat) : (s.wipe lo hi).shards = s.shards := rfl
@[simp] theorem State.drains_wipe (s : State) (lo hi : Nat) : (s.wipe lo hi).drains = s.drains := rfl
@[simp] theorem State.recovery_wipe (s : State) (lo hi : Nat) : (s.wipe lo hi).recovery = s.recovery := rfl
@[simp] theorem State.jobEpochs_wipe (s : State) (lo hi : Nat) : (s.wipe lo hi).jobEpochs = s.jobEpochs := rfl
@[simp] theorem State.kept_wipe (s : State) (lo hi : Nat) : (s.wipe lo hi).kept = s.kept := rfl
@[simp] theorem State.keptFor_wipe (s : State) (lo hi : Nat) : (s.wipe lo hi).keptFor = s.keptFor := rfl
@[simp] theorem State.hostLines_wipe (s : State) (lo hi : Nat) : (s.wipe lo hi).hostLines = s.hostLines := rfl
@[simp] theorem State.waiting_wipe (s : State) (lo hi : Nat) : (s.wipe lo hi).waiting = s.waiting := rfl
@[simp] theorem State.xwMsg_wipe (s : State) (lo hi : Nat) : (s.wipe lo hi).xwMsg = s.xwMsg := rfl
@[simp] theorem State.xwOwn_wipe (s : State) (lo hi : Nat) : (s.wipe lo hi).xwOwn = s.xwOwn := rfl
@[simp] theorem State.xwTheirs_wipe (s : State) (lo hi : Nat) : (s.wipe lo hi).xwTheirs = s.xwTheirs := rfl
@[simp] theorem State.xwStreams_wipe (s : State) (lo hi : Nat) : (s.wipe lo hi).xwStreams = s.xwStreams := rfl
@[simp] theorem State.xwDiff_wipe (s : State) (lo hi : Nat) : (s.wipe lo hi).xwDiff = s.xwDiff := rfl
@[simp] theorem State.rung_wipe (s : State) (lo hi : Nat) : (s.wipe lo hi).rung = s.rung := rfl
@[simp] theorem State.cmds_wipe (s : State) (lo hi : Nat) : (s.wipe lo hi).cmds = s.cmds := rfl
@[simp] theorem State.cqHeld_wipe (s : State) (lo hi : Nat) : (s.wipe lo hi).cqHeld = s.cqHeld := rfl
@[simp] theorem State.errorLog_wipe (s : State) (lo hi : Nat) : (s.wipe lo hi).errorLog = s.errorLog := rfl
@[simp] theorem State.squallEvents_wipe (s : State) (lo hi : Nat) : (s.wipe lo hi).squallEvents = s.squallEvents := rfl
@[simp] theorem State.audit_wipe (s : State) (lo hi : Nat) : (s.wipe lo hi).audit = s.audit := rfl
@[simp] theorem State.mirror_wipe (s : State) (lo hi : Nat) : (s.wipe lo hi).mirror = s.mirror := rfl
@[simp] theorem State.sessions_wipe (s : State) (lo hi : Nat) : (s.wipe lo hi).sessions = s.sessions := rfl
@[simp] theorem State.assemblies_wipe (s : State) (lo hi : Nat) : (s.wipe lo hi).assemblies = s.assemblies := rfl
@[simp] theorem State.answers_wipe (s : State) (lo hi : Nat) : (s.wipe lo hi).answers = s.answers := rfl
@[simp] theorem State.subs_wipe (s : State) (lo hi : Nat) : (s.wipe lo hi).subs = s.subs := rfl
@[simp] theorem State.frozen_wipe (s : State) (lo hi : Nat) : (s.wipe lo hi).frozen = s.frozen := rfl
@[simp] theorem State.late_wipe (s : State) (lo hi : Nat) : (s.wipe lo hi).late = s.late := rfl
@[simp] theorem State.out_wipe (s : State) (lo hi : Nat) : (s.wipe lo hi).out = s.out := rfl

/-! After the reset of a domain. -/

@[simp] theorem State.pending_clearDomain (s : State) (d : Domain) : (s.clearDomain d).pending = s.pending := rfl
@[simp] theorem State.now_clearDomain (s : State) (d : Domain) : (s.clearDomain d).now = s.now := rfl
@[simp] theorem State.free_clearDomain (s : State) (d : Domain) : (s.clearDomain d).free = s.free := rfl
@[simp] theorem State.deferred_clearDomain (s : State) (d : Domain) : (s.clearDomain d).deferred = s.deferred := rfl
@[simp] theorem State.mem_clearDomain (s : State) (d : Domain) : (s.clearDomain d).mem = s.mem := rfl
@[simp] theorem State.poisonAtoms_clearDomain (s : State) (d : Domain) : (s.clearDomain d).poisonAtoms = s.poisonAtoms := rfl
@[simp] theorem State.poisonWords_clearDomain (s : State) (d : Domain) : (s.clearDomain d).poisonWords = s.poisonWords := rfl
@[simp] theorem State.bays_clearDomain (s : State) (d : Domain) : (s.clearDomain d).bays = s.bays := rfl
@[simp] theorem State.tests_clearDomain (s : State) (d : Domain) : (s.clearDomain d).tests = s.tests := rfl
@[simp] theorem State.copies_clearDomain (s : State) (d : Domain) : (s.clearDomain d).copies = s.copies := rfl
@[simp] theorem State.tailwind_clearDomain (s : State) (d : Domain) : (s.clearDomain d).tailwind = s.tailwind := rfl
@[simp] theorem State.retry_clearDomain (s : State) (d : Domain) : (s.clearDomain d).retry = s.retry := rfl
@[simp] theorem State.linkQueue_clearDomain (s : State) (d : Domain) : (s.clearDomain d).linkQueue = s.linkQueue := rfl
@[simp] theorem State.flitNext_clearDomain (s : State) (d : Domain) : (s.clearDomain d).flitNext = s.flitNext := rfl
@[simp] theorem State.stuck_clearDomain (s : State) (d : Domain) : (s.clearDomain d).stuck = s.stuck := rfl
@[simp] theorem State.answered_clearDomain (s : State) (d : Domain) : (s.clearDomain d).answered = s.answered := rfl
@[simp] theorem State.refusals_clearDomain (s : State) (d : Domain) : (s.clearDomain d).refusals = s.refusals := rfl
@[simp] theorem State.chanStalled_clearDomain (s : State) (d : Domain) : (s.clearDomain d).chanStalled = s.chanStalled := rfl
@[simp] theorem State.sliceHeld_clearDomain (s : State) (d : Domain) : (s.clearDomain d).sliceHeld = s.sliceHeld := rfl
@[simp] theorem State.merging_clearDomain (s : State) (d : Domain) : (s.clearDomain d).merging = s.merging := rfl
@[simp] theorem State.migrated_clearDomain (s : State) (d : Domain) : (s.clearDomain d).migrated = s.migrated := rfl
@[simp] theorem State.recent_clearDomain (s : State) (d : Domain) : (s.clearDomain d).recent = s.recent := rfl
@[simp] theorem State.pclks_clearDomain (s : State) (d : Domain) : (s.clearDomain d).pclks = s.pclks := rfl
@[simp] theorem State.llm_clearDomain (s : State) (d : Domain) : (s.clearDomain d).llm = s.llm := rfl
@[simp] theorem State.corrections_clearDomain (s : State) (d : Domain) : (s.clearDomain d).corrections = s.corrections := rfl
@[simp] theorem State.chanQueue_clearDomain (s : State) (d : Domain) : (s.clearDomain d).chanQueue = s.chanQueue := rfl
@[simp] theorem State.narrowHeld_clearDomain (s : State) (d : Domain) : (s.clearDomain d).narrowHeld = s.narrowHeld := rfl
@[simp] theorem State.moved_clearDomain (s : State) (d : Domain) : (s.clearDomain d).moved = s.moved := rfl
@[simp] theorem State.spareMarks_clearDomain (s : State) (d : Domain) : (s.clearDomain d).spareMarks = s.spareMarks := rfl
@[simp] theorem State.seqOut_clearDomain (s : State) (d : Domain) : (s.clearDomain d).seqOut = s.seqOut := rfl
@[simp] theorem State.seqIn_clearDomain (s : State) (d : Domain) : (s.clearDomain d).seqIn = s.seqIn := rfl
@[simp] theorem State.early_clearDomain (s : State) (d : Domain) : (s.clearDomain d).early = s.early := rfl
@[simp] theorem State.requests_clearDomain (s : State) (d : Domain) : (s.clearDomain d).requests = s.requests := rfl
@[simp] theorem State.hartReplies_clearDomain (s : State) (d : Domain) : (s.clearDomain d).hartReplies = s.hartReplies := rfl
@[simp] theorem State.harts_clearDomain (s : State) (d : Domain) : (s.clearDomain d).harts = s.harts := rfl
@[simp] theorem State.stores_clearDomain (s : State) (d : Domain) : (s.clearDomain d).stores = s.stores := rfl
@[simp] theorem State.reservations_clearDomain (s : State) (d : Domain) : (s.clearDomain d).reservations = s.reservations := rfl
@[simp] theorem State.regions_clearDomain (s : State) (d : Domain) : (s.clearDomain d).regions = s.regions := rfl
@[simp] theorem State.staged_clearDomain (s : State) (d : Domain) : (s.clearDomain d).staged = s.staged := rfl
@[simp] theorem State.closes_clearDomain (s : State) (d : Domain) : (s.clearDomain d).closes = s.closes := rfl
@[simp] theorem State.roundsEnded_clearDomain (s : State) (d : Domain) : (s.clearDomain d).roundsEnded = s.roundsEnded := rfl
@[simp] theorem State.raccIssue_clearDomain (s : State) (d : Domain) : (s.clearDomain d).raccIssue = s.raccIssue := rfl
@[simp] theorem State.fences_clearDomain (s : State) (d : Domain) : (s.clearDomain d).fences = s.fences := rfl
@[simp] theorem State.peerLinks_clearDomain (s : State) (d : Domain) : (s.clearDomain d).peerLinks = s.peerLinks := rfl
@[simp] theorem State.mails_clearDomain (s : State) (d : Domain) : (s.clearDomain d).mails = s.mails := rfl
@[simp] theorem State.mailNext_clearDomain (s : State) (d : Domain) : (s.clearDomain d).mailNext = s.mailNext := rfl
@[simp] theorem State.mailIn_clearDomain (s : State) (d : Domain) : (s.clearDomain d).mailIn = s.mailIn := rfl
@[simp] theorem State.transit_clearDomain (s : State) (d : Domain) : (s.clearDomain d).transit = s.transit := rfl
@[simp] theorem State.colls_clearDomain (s : State) (d : Domain) : (s.clearDomain d).colls = s.colls := rfl
@[simp] theorem State.collDone_clearDomain (s : State) (d : Domain) : (s.clearDomain d).collDone = s.collDone := rfl
@[simp] theorem State.collHeld_clearDomain (s : State) (d : Domain) : (s.clearDomain d).collHeld = s.collHeld := rfl
@[simp] theorem State.chans_clearDomain (s : State) (d : Domain) : (s.clearDomain d).chans = s.chans := rfl
@[simp] theorem State.fills_clearDomain (s : State) (d : Domain) : (s.clearDomain d).fills = s.fills := rfl
@[simp] theorem State.narrow_clearDomain (s : State) (d : Domain) : (s.clearDomain d).narrow = s.narrow := rfl
@[simp] theorem State.remaps_clearDomain (s : State) (d : Domain) : (s.clearDomain d).remaps = s.remaps := rfl
@[simp] theorem State.remapping_clearDomain (s : State) (d : Domain) : (s.clearDomain d).remapping = s.remapping := rfl
@[simp] theorem State.mapoutWaits_clearDomain (s : State) (d : Domain) : (s.clearDomain d).mapoutWaits = s.mapoutWaits := rfl
@[simp] theorem State.journal_clearDomain (s : State) (d : Domain) : (s.clearDomain d).journal = s.journal := rfl
@[simp] theorem State.pulses_clearDomain (s : State) (d : Domain) : (s.clearDomain d).pulses = s.pulses := rfl
@[simp] theorem State.softPpr_clearDomain (s : State) (d : Domain) : (s.clearDomain d).softPpr = s.softPpr := rfl
@[simp] theorem State.segments_clearDomain (s : State) (d : Domain) : (s.clearDomain d).segments = s.segments := rfl
@[simp] theorem State.slotA_clearDomain (s : State) (d : Domain) : (s.clearDomain d).slotA = s.slotA := rfl
@[simp] theorem State.slotB_clearDomain (s : State) (d : Domain) : (s.clearDomain d).slotB = s.slotB := rfl
@[simp] theorem State.shards_clearDomain (s : State) (d : Domain) : (s.clearDomain d).shards = s.shards := rfl
@[simp] theorem State.drains_clearDomain (s : State) (d : Domain) : (s.clearDomain d).drains = s.drains := rfl
@[simp] theorem State.recovery_clearDomain (s : State) (d : Domain) : (s.clearDomain d).recovery = s.recovery := rfl
@[simp] theorem State.jobEpochs_clearDomain (s : State) (d : Domain) : (s.clearDomain d).jobEpochs = s.jobEpochs := rfl
@[simp] theorem State.kept_clearDomain (s : State) (d : Domain) : (s.clearDomain d).kept = s.kept := rfl
@[simp] theorem State.keptFor_clearDomain (s : State) (d : Domain) : (s.clearDomain d).keptFor = s.keptFor := rfl
@[simp] theorem State.hostLines_clearDomain (s : State) (d : Domain) : (s.clearDomain d).hostLines = s.hostLines := rfl
@[simp] theorem State.waiting_clearDomain (s : State) (d : Domain) : (s.clearDomain d).waiting = s.waiting := rfl
@[simp] theorem State.xwMsg_clearDomain (s : State) (d : Domain) : (s.clearDomain d).xwMsg = s.xwMsg := rfl
@[simp] theorem State.xwOwn_clearDomain (s : State) (d : Domain) : (s.clearDomain d).xwOwn = s.xwOwn := rfl
@[simp] theorem State.xwTheirs_clearDomain (s : State) (d : Domain) : (s.clearDomain d).xwTheirs = s.xwTheirs := rfl
@[simp] theorem State.xwStreams_clearDomain (s : State) (d : Domain) : (s.clearDomain d).xwStreams = s.xwStreams := rfl
@[simp] theorem State.xwDiff_clearDomain (s : State) (d : Domain) : (s.clearDomain d).xwDiff = s.xwDiff := rfl
@[simp] theorem State.rung_clearDomain (s : State) (d : Domain) : (s.clearDomain d).rung = s.rung := rfl
@[simp] theorem State.cmds_clearDomain (s : State) (d : Domain) : (s.clearDomain d).cmds = s.cmds := rfl
@[simp] theorem State.cqHeld_clearDomain (s : State) (d : Domain) : (s.clearDomain d).cqHeld = s.cqHeld := rfl
@[simp] theorem State.errorLog_clearDomain (s : State) (d : Domain) : (s.clearDomain d).errorLog = s.errorLog := rfl
@[simp] theorem State.squallEvents_clearDomain (s : State) (d : Domain) : (s.clearDomain d).squallEvents = s.squallEvents := rfl
@[simp] theorem State.audit_clearDomain (s : State) (d : Domain) : (s.clearDomain d).audit = s.audit := rfl
@[simp] theorem State.mirror_clearDomain (s : State) (d : Domain) : (s.clearDomain d).mirror = s.mirror := rfl
@[simp] theorem State.sessions_clearDomain (s : State) (d : Domain) : (s.clearDomain d).sessions = s.sessions := rfl
@[simp] theorem State.assemblies_clearDomain (s : State) (d : Domain) : (s.clearDomain d).assemblies = s.assemblies := rfl
@[simp] theorem State.answers_clearDomain (s : State) (d : Domain) : (s.clearDomain d).answers = s.answers := rfl
@[simp] theorem State.subs_clearDomain (s : State) (d : Domain) : (s.clearDomain d).subs = s.subs := rfl
@[simp] theorem State.frozen_clearDomain (s : State) (d : Domain) : (s.clearDomain d).frozen = s.frozen := rfl
@[simp] theorem State.late_clearDomain (s : State) (d : Domain) : (s.clearDomain d).late = s.late := rfl
@[simp] theorem State.out_clearDomain (s : State) (d : Domain) : (s.clearDomain d).out = s.out := rfl

/-! After the reset of a register. -/

@[simp] theorem State.pending_clearReg (s : State) (r : Reg) : (s.clearReg r).pending = s.pending := rfl
@[simp] theorem State.now_clearReg (s : State) (r : Reg) : (s.clearReg r).now = s.now := rfl
@[simp] theorem State.free_clearReg (s : State) (r : Reg) : (s.clearReg r).free = s.free := rfl
@[simp] theorem State.deferred_clearReg (s : State) (r : Reg) : (s.clearReg r).deferred = s.deferred := rfl
@[simp] theorem State.mem_clearReg (s : State) (r : Reg) : (s.clearReg r).mem = s.mem := rfl
@[simp] theorem State.poisonAtoms_clearReg (s : State) (r : Reg) : (s.clearReg r).poisonAtoms = s.poisonAtoms := rfl
@[simp] theorem State.poisonWords_clearReg (s : State) (r : Reg) : (s.clearReg r).poisonWords = s.poisonWords := rfl
@[simp] theorem State.bays_clearReg (s : State) (r : Reg) : (s.clearReg r).bays = s.bays := rfl
@[simp] theorem State.tests_clearReg (s : State) (r : Reg) : (s.clearReg r).tests = s.tests := rfl
@[simp] theorem State.copies_clearReg (s : State) (r : Reg) : (s.clearReg r).copies = s.copies := rfl
@[simp] theorem State.tailwind_clearReg (s : State) (r : Reg) : (s.clearReg r).tailwind = s.tailwind := rfl
@[simp] theorem State.retry_clearReg (s : State) (r : Reg) : (s.clearReg r).retry = s.retry := rfl
@[simp] theorem State.linkQueue_clearReg (s : State) (r : Reg) : (s.clearReg r).linkQueue = s.linkQueue := rfl
@[simp] theorem State.flitNext_clearReg (s : State) (r : Reg) : (s.clearReg r).flitNext = s.flitNext := rfl
@[simp] theorem State.stuck_clearReg (s : State) (r : Reg) : (s.clearReg r).stuck = s.stuck := rfl
@[simp] theorem State.answered_clearReg (s : State) (r : Reg) : (s.clearReg r).answered = s.answered := rfl
@[simp] theorem State.refusals_clearReg (s : State) (r : Reg) : (s.clearReg r).refusals = s.refusals := rfl
@[simp] theorem State.chanStalled_clearReg (s : State) (r : Reg) : (s.clearReg r).chanStalled = s.chanStalled := rfl
@[simp] theorem State.sliceHeld_clearReg (s : State) (r : Reg) : (s.clearReg r).sliceHeld = s.sliceHeld := rfl
@[simp] theorem State.merging_clearReg (s : State) (r : Reg) : (s.clearReg r).merging = s.merging := rfl
@[simp] theorem State.migrated_clearReg (s : State) (r : Reg) : (s.clearReg r).migrated = s.migrated := rfl
@[simp] theorem State.recent_clearReg (s : State) (r : Reg) : (s.clearReg r).recent = s.recent := rfl
@[simp] theorem State.pclks_clearReg (s : State) (r : Reg) : (s.clearReg r).pclks = s.pclks := rfl
@[simp] theorem State.llm_clearReg (s : State) (r : Reg) : (s.clearReg r).llm = s.llm := rfl
@[simp] theorem State.corrections_clearReg (s : State) (r : Reg) : (s.clearReg r).corrections = s.corrections := rfl
@[simp] theorem State.chanQueue_clearReg (s : State) (r : Reg) : (s.clearReg r).chanQueue = s.chanQueue := rfl
@[simp] theorem State.narrowHeld_clearReg (s : State) (r : Reg) : (s.clearReg r).narrowHeld = s.narrowHeld := rfl
@[simp] theorem State.moved_clearReg (s : State) (r : Reg) : (s.clearReg r).moved = s.moved := rfl
@[simp] theorem State.spareMarks_clearReg (s : State) (r : Reg) : (s.clearReg r).spareMarks = s.spareMarks := rfl
@[simp] theorem State.seqOut_clearReg (s : State) (r : Reg) : (s.clearReg r).seqOut = s.seqOut := rfl
@[simp] theorem State.seqIn_clearReg (s : State) (r : Reg) : (s.clearReg r).seqIn = s.seqIn := rfl
@[simp] theorem State.early_clearReg (s : State) (r : Reg) : (s.clearReg r).early = s.early := rfl
@[simp] theorem State.requests_clearReg (s : State) (r : Reg) : (s.clearReg r).requests = s.requests := rfl
@[simp] theorem State.hartReplies_clearReg (s : State) (r : Reg) : (s.clearReg r).hartReplies = s.hartReplies := rfl
@[simp] theorem State.harts_clearReg (s : State) (r : Reg) : (s.clearReg r).harts = s.harts := rfl
@[simp] theorem State.stores_clearReg (s : State) (r : Reg) : (s.clearReg r).stores = s.stores := rfl
@[simp] theorem State.reservations_clearReg (s : State) (r : Reg) : (s.clearReg r).reservations = s.reservations := rfl
@[simp] theorem State.regions_clearReg (s : State) (r : Reg) : (s.clearReg r).regions = s.regions := rfl
@[simp] theorem State.staged_clearReg (s : State) (r : Reg) : (s.clearReg r).staged = s.staged := rfl
@[simp] theorem State.closes_clearReg (s : State) (r : Reg) : (s.clearReg r).closes = s.closes := rfl
@[simp] theorem State.roundsEnded_clearReg (s : State) (r : Reg) : (s.clearReg r).roundsEnded = s.roundsEnded := rfl
@[simp] theorem State.raccIssue_clearReg (s : State) (r : Reg) : (s.clearReg r).raccIssue = s.raccIssue := rfl
@[simp] theorem State.fences_clearReg (s : State) (r : Reg) : (s.clearReg r).fences = s.fences := rfl
@[simp] theorem State.peerLinks_clearReg (s : State) (r : Reg) : (s.clearReg r).peerLinks = s.peerLinks := rfl
@[simp] theorem State.mails_clearReg (s : State) (r : Reg) : (s.clearReg r).mails = s.mails := rfl
@[simp] theorem State.mailNext_clearReg (s : State) (r : Reg) : (s.clearReg r).mailNext = s.mailNext := rfl
@[simp] theorem State.mailIn_clearReg (s : State) (r : Reg) : (s.clearReg r).mailIn = s.mailIn := rfl
@[simp] theorem State.transit_clearReg (s : State) (r : Reg) : (s.clearReg r).transit = s.transit := rfl
@[simp] theorem State.colls_clearReg (s : State) (r : Reg) : (s.clearReg r).colls = s.colls := rfl
@[simp] theorem State.collDone_clearReg (s : State) (r : Reg) : (s.clearReg r).collDone = s.collDone := rfl
@[simp] theorem State.collHeld_clearReg (s : State) (r : Reg) : (s.clearReg r).collHeld = s.collHeld := rfl
@[simp] theorem State.chans_clearReg (s : State) (r : Reg) : (s.clearReg r).chans = s.chans := rfl
@[simp] theorem State.fills_clearReg (s : State) (r : Reg) : (s.clearReg r).fills = s.fills := rfl
@[simp] theorem State.narrow_clearReg (s : State) (r : Reg) : (s.clearReg r).narrow = s.narrow := rfl
@[simp] theorem State.remaps_clearReg (s : State) (r : Reg) : (s.clearReg r).remaps = s.remaps := rfl
@[simp] theorem State.remapping_clearReg (s : State) (r : Reg) : (s.clearReg r).remapping = s.remapping := rfl
@[simp] theorem State.mapoutWaits_clearReg (s : State) (r : Reg) : (s.clearReg r).mapoutWaits = s.mapoutWaits := rfl
@[simp] theorem State.journal_clearReg (s : State) (r : Reg) : (s.clearReg r).journal = s.journal := rfl
@[simp] theorem State.pulses_clearReg (s : State) (r : Reg) : (s.clearReg r).pulses = s.pulses := rfl
@[simp] theorem State.softPpr_clearReg (s : State) (r : Reg) : (s.clearReg r).softPpr = s.softPpr := rfl
@[simp] theorem State.segments_clearReg (s : State) (r : Reg) : (s.clearReg r).segments = s.segments := rfl
@[simp] theorem State.slotA_clearReg (s : State) (r : Reg) : (s.clearReg r).slotA = s.slotA := rfl
@[simp] theorem State.slotB_clearReg (s : State) (r : Reg) : (s.clearReg r).slotB = s.slotB := rfl
@[simp] theorem State.shards_clearReg (s : State) (r : Reg) : (s.clearReg r).shards = s.shards := rfl
@[simp] theorem State.drains_clearReg (s : State) (r : Reg) : (s.clearReg r).drains = s.drains := rfl
@[simp] theorem State.recovery_clearReg (s : State) (r : Reg) : (s.clearReg r).recovery = s.recovery := rfl
@[simp] theorem State.jobEpochs_clearReg (s : State) (r : Reg) : (s.clearReg r).jobEpochs = s.jobEpochs := rfl
@[simp] theorem State.kept_clearReg (s : State) (r : Reg) : (s.clearReg r).kept = s.kept := rfl
@[simp] theorem State.keptFor_clearReg (s : State) (r : Reg) : (s.clearReg r).keptFor = s.keptFor := rfl
@[simp] theorem State.hostLines_clearReg (s : State) (r : Reg) : (s.clearReg r).hostLines = s.hostLines := rfl
@[simp] theorem State.waiting_clearReg (s : State) (r : Reg) : (s.clearReg r).waiting = s.waiting := rfl
@[simp] theorem State.xwMsg_clearReg (s : State) (r : Reg) : (s.clearReg r).xwMsg = s.xwMsg := rfl
@[simp] theorem State.xwOwn_clearReg (s : State) (r : Reg) : (s.clearReg r).xwOwn = s.xwOwn := rfl
@[simp] theorem State.xwTheirs_clearReg (s : State) (r : Reg) : (s.clearReg r).xwTheirs = s.xwTheirs := rfl
@[simp] theorem State.xwStreams_clearReg (s : State) (r : Reg) : (s.clearReg r).xwStreams = s.xwStreams := rfl
@[simp] theorem State.xwDiff_clearReg (s : State) (r : Reg) : (s.clearReg r).xwDiff = s.xwDiff := rfl
@[simp] theorem State.rung_clearReg (s : State) (r : Reg) : (s.clearReg r).rung = s.rung := rfl
@[simp] theorem State.cmds_clearReg (s : State) (r : Reg) : (s.clearReg r).cmds = s.cmds := rfl
@[simp] theorem State.cqHeld_clearReg (s : State) (r : Reg) : (s.clearReg r).cqHeld = s.cqHeld := rfl
@[simp] theorem State.errorLog_clearReg (s : State) (r : Reg) : (s.clearReg r).errorLog = s.errorLog := rfl
@[simp] theorem State.squallEvents_clearReg (s : State) (r : Reg) : (s.clearReg r).squallEvents = s.squallEvents := rfl
@[simp] theorem State.audit_clearReg (s : State) (r : Reg) : (s.clearReg r).audit = s.audit := rfl
@[simp] theorem State.mirror_clearReg (s : State) (r : Reg) : (s.clearReg r).mirror = s.mirror := rfl
@[simp] theorem State.sessions_clearReg (s : State) (r : Reg) : (s.clearReg r).sessions = s.sessions := rfl
@[simp] theorem State.assemblies_clearReg (s : State) (r : Reg) : (s.clearReg r).assemblies = s.assemblies := rfl
@[simp] theorem State.answers_clearReg (s : State) (r : Reg) : (s.clearReg r).answers = s.answers := rfl
@[simp] theorem State.subs_clearReg (s : State) (r : Reg) : (s.clearReg r).subs = s.subs := rfl
@[simp] theorem State.frozen_clearReg (s : State) (r : Reg) : (s.clearReg r).frozen = s.frozen := rfl
@[simp] theorem State.late_clearReg (s : State) (r : Reg) : (s.clearReg r).late = s.late := rfl
@[simp] theorem State.out_clearReg (s : State) (r : Reg) : (s.clearReg r).out = s.out := rfl

/-! After what the package sends. -/

@[simp] theorem State.pending_send (s : State) (o : Output) : (s.send o).pending = s.pending := rfl
@[simp] theorem State.now_send (s : State) (o : Output) : (s.send o).now = s.now := rfl
@[simp] theorem State.free_send (s : State) (o : Output) : (s.send o).free = s.free := rfl
@[simp] theorem State.regs_send (s : State) (o : Output) : (s.send o).regs = s.regs := rfl
@[simp] theorem State.deferred_send (s : State) (o : Output) : (s.send o).deferred = s.deferred := rfl
@[simp] theorem State.mem_send (s : State) (o : Output) : (s.send o).mem = s.mem := rfl
@[simp] theorem State.poisonAtoms_send (s : State) (o : Output) : (s.send o).poisonAtoms = s.poisonAtoms := rfl
@[simp] theorem State.poisonWords_send (s : State) (o : Output) : (s.send o).poisonWords = s.poisonWords := rfl
@[simp] theorem State.bays_send (s : State) (o : Output) : (s.send o).bays = s.bays := rfl
@[simp] theorem State.tests_send (s : State) (o : Output) : (s.send o).tests = s.tests := rfl
@[simp] theorem State.copies_send (s : State) (o : Output) : (s.send o).copies = s.copies := rfl
@[simp] theorem State.tailwind_send (s : State) (o : Output) : (s.send o).tailwind = s.tailwind := rfl
@[simp] theorem State.retry_send (s : State) (o : Output) : (s.send o).retry = s.retry := rfl
@[simp] theorem State.linkQueue_send (s : State) (o : Output) : (s.send o).linkQueue = s.linkQueue := rfl
@[simp] theorem State.flitNext_send (s : State) (o : Output) : (s.send o).flitNext = s.flitNext := rfl
@[simp] theorem State.stuck_send (s : State) (o : Output) : (s.send o).stuck = s.stuck := rfl
@[simp] theorem State.answered_send (s : State) (o : Output) : (s.send o).answered = s.answered := rfl
@[simp] theorem State.refusals_send (s : State) (o : Output) : (s.send o).refusals = s.refusals := rfl
@[simp] theorem State.chanStalled_send (s : State) (o : Output) : (s.send o).chanStalled = s.chanStalled := rfl
@[simp] theorem State.sliceHeld_send (s : State) (o : Output) : (s.send o).sliceHeld = s.sliceHeld := rfl
@[simp] theorem State.merging_send (s : State) (o : Output) : (s.send o).merging = s.merging := rfl
@[simp] theorem State.migrated_send (s : State) (o : Output) : (s.send o).migrated = s.migrated := rfl
@[simp] theorem State.recent_send (s : State) (o : Output) : (s.send o).recent = s.recent := rfl
@[simp] theorem State.pclks_send (s : State) (o : Output) : (s.send o).pclks = s.pclks := rfl
@[simp] theorem State.llm_send (s : State) (o : Output) : (s.send o).llm = s.llm := rfl
@[simp] theorem State.corrections_send (s : State) (o : Output) : (s.send o).corrections = s.corrections := rfl
@[simp] theorem State.chanQueue_send (s : State) (o : Output) : (s.send o).chanQueue = s.chanQueue := rfl
@[simp] theorem State.narrowHeld_send (s : State) (o : Output) : (s.send o).narrowHeld = s.narrowHeld := rfl
@[simp] theorem State.moved_send (s : State) (o : Output) : (s.send o).moved = s.moved := rfl
@[simp] theorem State.spareMarks_send (s : State) (o : Output) : (s.send o).spareMarks = s.spareMarks := rfl
@[simp] theorem State.seqOut_send (s : State) (o : Output) : (s.send o).seqOut = s.seqOut := rfl
@[simp] theorem State.seqIn_send (s : State) (o : Output) : (s.send o).seqIn = s.seqIn := rfl
@[simp] theorem State.early_send (s : State) (o : Output) : (s.send o).early = s.early := rfl
@[simp] theorem State.requests_send (s : State) (o : Output) : (s.send o).requests = s.requests := rfl
@[simp] theorem State.hartReplies_send (s : State) (o : Output) : (s.send o).hartReplies = s.hartReplies := rfl
@[simp] theorem State.harts_send (s : State) (o : Output) : (s.send o).harts = s.harts := rfl
@[simp] theorem State.stores_send (s : State) (o : Output) : (s.send o).stores = s.stores := rfl
@[simp] theorem State.reservations_send (s : State) (o : Output) : (s.send o).reservations = s.reservations := rfl
@[simp] theorem State.regions_send (s : State) (o : Output) : (s.send o).regions = s.regions := rfl
@[simp] theorem State.staged_send (s : State) (o : Output) : (s.send o).staged = s.staged := rfl
@[simp] theorem State.closes_send (s : State) (o : Output) : (s.send o).closes = s.closes := rfl
@[simp] theorem State.roundsEnded_send (s : State) (o : Output) : (s.send o).roundsEnded = s.roundsEnded := rfl
@[simp] theorem State.raccIssue_send (s : State) (o : Output) : (s.send o).raccIssue = s.raccIssue := rfl
@[simp] theorem State.fences_send (s : State) (o : Output) : (s.send o).fences = s.fences := rfl
@[simp] theorem State.peerLinks_send (s : State) (o : Output) : (s.send o).peerLinks = s.peerLinks := rfl
@[simp] theorem State.mails_send (s : State) (o : Output) : (s.send o).mails = s.mails := rfl
@[simp] theorem State.mailNext_send (s : State) (o : Output) : (s.send o).mailNext = s.mailNext := rfl
@[simp] theorem State.mailIn_send (s : State) (o : Output) : (s.send o).mailIn = s.mailIn := rfl
@[simp] theorem State.transit_send (s : State) (o : Output) : (s.send o).transit = s.transit := rfl
@[simp] theorem State.colls_send (s : State) (o : Output) : (s.send o).colls = s.colls := rfl
@[simp] theorem State.collDone_send (s : State) (o : Output) : (s.send o).collDone = s.collDone := rfl
@[simp] theorem State.collHeld_send (s : State) (o : Output) : (s.send o).collHeld = s.collHeld := rfl
@[simp] theorem State.chans_send (s : State) (o : Output) : (s.send o).chans = s.chans := rfl
@[simp] theorem State.fills_send (s : State) (o : Output) : (s.send o).fills = s.fills := rfl
@[simp] theorem State.narrow_send (s : State) (o : Output) : (s.send o).narrow = s.narrow := rfl
@[simp] theorem State.remaps_send (s : State) (o : Output) : (s.send o).remaps = s.remaps := rfl
@[simp] theorem State.remapping_send (s : State) (o : Output) : (s.send o).remapping = s.remapping := rfl
@[simp] theorem State.mapoutWaits_send (s : State) (o : Output) : (s.send o).mapoutWaits = s.mapoutWaits := rfl
@[simp] theorem State.journal_send (s : State) (o : Output) : (s.send o).journal = s.journal := rfl
@[simp] theorem State.pulses_send (s : State) (o : Output) : (s.send o).pulses = s.pulses := rfl
@[simp] theorem State.softPpr_send (s : State) (o : Output) : (s.send o).softPpr = s.softPpr := rfl
@[simp] theorem State.segments_send (s : State) (o : Output) : (s.send o).segments = s.segments := rfl
@[simp] theorem State.slotA_send (s : State) (o : Output) : (s.send o).slotA = s.slotA := rfl
@[simp] theorem State.slotB_send (s : State) (o : Output) : (s.send o).slotB = s.slotB := rfl
@[simp] theorem State.shards_send (s : State) (o : Output) : (s.send o).shards = s.shards := rfl
@[simp] theorem State.drains_send (s : State) (o : Output) : (s.send o).drains = s.drains := rfl
@[simp] theorem State.recovery_send (s : State) (o : Output) : (s.send o).recovery = s.recovery := rfl
@[simp] theorem State.jobEpochs_send (s : State) (o : Output) : (s.send o).jobEpochs = s.jobEpochs := rfl
@[simp] theorem State.kept_send (s : State) (o : Output) : (s.send o).kept = s.kept := rfl
@[simp] theorem State.keptFor_send (s : State) (o : Output) : (s.send o).keptFor = s.keptFor := rfl
@[simp] theorem State.hostLines_send (s : State) (o : Output) : (s.send o).hostLines = s.hostLines := rfl
@[simp] theorem State.waiting_send (s : State) (o : Output) : (s.send o).waiting = s.waiting := rfl
@[simp] theorem State.xwMsg_send (s : State) (o : Output) : (s.send o).xwMsg = s.xwMsg := rfl
@[simp] theorem State.xwOwn_send (s : State) (o : Output) : (s.send o).xwOwn = s.xwOwn := rfl
@[simp] theorem State.xwTheirs_send (s : State) (o : Output) : (s.send o).xwTheirs = s.xwTheirs := rfl
@[simp] theorem State.xwStreams_send (s : State) (o : Output) : (s.send o).xwStreams = s.xwStreams := rfl
@[simp] theorem State.xwDiff_send (s : State) (o : Output) : (s.send o).xwDiff = s.xwDiff := rfl
@[simp] theorem State.rung_send (s : State) (o : Output) : (s.send o).rung = s.rung := rfl
@[simp] theorem State.cmds_send (s : State) (o : Output) : (s.send o).cmds = s.cmds := rfl
@[simp] theorem State.cqHeld_send (s : State) (o : Output) : (s.send o).cqHeld = s.cqHeld := rfl
@[simp] theorem State.errorLog_send (s : State) (o : Output) : (s.send o).errorLog = s.errorLog := rfl
@[simp] theorem State.squallEvents_send (s : State) (o : Output) : (s.send o).squallEvents = s.squallEvents := rfl
@[simp] theorem State.audit_send (s : State) (o : Output) : (s.send o).audit = s.audit := rfl
@[simp] theorem State.mirror_send (s : State) (o : Output) : (s.send o).mirror = s.mirror := rfl
@[simp] theorem State.sessions_send (s : State) (o : Output) : (s.send o).sessions = s.sessions := rfl
@[simp] theorem State.assemblies_send (s : State) (o : Output) : (s.send o).assemblies = s.assemblies := rfl
@[simp] theorem State.answers_send (s : State) (o : Output) : (s.send o).answers = s.answers := rfl
@[simp] theorem State.subs_send (s : State) (o : Output) : (s.send o).subs = s.subs := rfl
@[simp] theorem State.frozen_send (s : State) (o : Output) : (s.send o).frozen = s.frozen := rfl
@[simp] theorem State.late_send (s : State) (o : Output) : (s.send o).late = s.late := rfl

/-! After the state of a bay. -/

@[simp] theorem State.pending_setBay (s : State) (b : Nat) (x : Bay) : (s.setBay b x).pending = s.pending := rfl
@[simp] theorem State.now_setBay (s : State) (b : Nat) (x : Bay) : (s.setBay b x).now = s.now := rfl
@[simp] theorem State.free_setBay (s : State) (b : Nat) (x : Bay) : (s.setBay b x).free = s.free := rfl
@[simp] theorem State.regs_setBay (s : State) (b : Nat) (x : Bay) : (s.setBay b x).regs = s.regs := rfl
@[simp] theorem State.deferred_setBay (s : State) (b : Nat) (x : Bay) : (s.setBay b x).deferred = s.deferred := rfl
@[simp] theorem State.mem_setBay (s : State) (b : Nat) (x : Bay) : (s.setBay b x).mem = s.mem := rfl
@[simp] theorem State.poisonAtoms_setBay (s : State) (b : Nat) (x : Bay) : (s.setBay b x).poisonAtoms = s.poisonAtoms := rfl
@[simp] theorem State.poisonWords_setBay (s : State) (b : Nat) (x : Bay) : (s.setBay b x).poisonWords = s.poisonWords := rfl
@[simp] theorem State.tests_setBay (s : State) (b : Nat) (x : Bay) : (s.setBay b x).tests = s.tests := rfl
@[simp] theorem State.copies_setBay (s : State) (b : Nat) (x : Bay) : (s.setBay b x).copies = s.copies := rfl
@[simp] theorem State.tailwind_setBay (s : State) (b : Nat) (x : Bay) : (s.setBay b x).tailwind = s.tailwind := rfl
@[simp] theorem State.retry_setBay (s : State) (b : Nat) (x : Bay) : (s.setBay b x).retry = s.retry := rfl
@[simp] theorem State.linkQueue_setBay (s : State) (b : Nat) (x : Bay) : (s.setBay b x).linkQueue = s.linkQueue := rfl
@[simp] theorem State.flitNext_setBay (s : State) (b : Nat) (x : Bay) : (s.setBay b x).flitNext = s.flitNext := rfl
@[simp] theorem State.stuck_setBay (s : State) (b : Nat) (x : Bay) : (s.setBay b x).stuck = s.stuck := rfl
@[simp] theorem State.answered_setBay (s : State) (b : Nat) (x : Bay) : (s.setBay b x).answered = s.answered := rfl
@[simp] theorem State.refusals_setBay (s : State) (b : Nat) (x : Bay) : (s.setBay b x).refusals = s.refusals := rfl
@[simp] theorem State.chanStalled_setBay (s : State) (b : Nat) (x : Bay) : (s.setBay b x).chanStalled = s.chanStalled := rfl
@[simp] theorem State.sliceHeld_setBay (s : State) (b : Nat) (x : Bay) : (s.setBay b x).sliceHeld = s.sliceHeld := rfl
@[simp] theorem State.merging_setBay (s : State) (b : Nat) (x : Bay) : (s.setBay b x).merging = s.merging := rfl
@[simp] theorem State.migrated_setBay (s : State) (b : Nat) (x : Bay) : (s.setBay b x).migrated = s.migrated := rfl
@[simp] theorem State.recent_setBay (s : State) (b : Nat) (x : Bay) : (s.setBay b x).recent = s.recent := rfl
@[simp] theorem State.pclks_setBay (s : State) (b : Nat) (x : Bay) : (s.setBay b x).pclks = s.pclks := rfl
@[simp] theorem State.llm_setBay (s : State) (b : Nat) (x : Bay) : (s.setBay b x).llm = s.llm := rfl
@[simp] theorem State.corrections_setBay (s : State) (b : Nat) (x : Bay) : (s.setBay b x).corrections = s.corrections := rfl
@[simp] theorem State.chanQueue_setBay (s : State) (b : Nat) (x : Bay) : (s.setBay b x).chanQueue = s.chanQueue := rfl
@[simp] theorem State.narrowHeld_setBay (s : State) (b : Nat) (x : Bay) : (s.setBay b x).narrowHeld = s.narrowHeld := rfl
@[simp] theorem State.moved_setBay (s : State) (b : Nat) (x : Bay) : (s.setBay b x).moved = s.moved := rfl
@[simp] theorem State.spareMarks_setBay (s : State) (b : Nat) (x : Bay) : (s.setBay b x).spareMarks = s.spareMarks := rfl
@[simp] theorem State.seqOut_setBay (s : State) (b : Nat) (x : Bay) : (s.setBay b x).seqOut = s.seqOut := rfl
@[simp] theorem State.seqIn_setBay (s : State) (b : Nat) (x : Bay) : (s.setBay b x).seqIn = s.seqIn := rfl
@[simp] theorem State.early_setBay (s : State) (b : Nat) (x : Bay) : (s.setBay b x).early = s.early := rfl
@[simp] theorem State.requests_setBay (s : State) (b : Nat) (x : Bay) : (s.setBay b x).requests = s.requests := rfl
@[simp] theorem State.hartReplies_setBay (s : State) (b : Nat) (x : Bay) : (s.setBay b x).hartReplies = s.hartReplies := rfl
@[simp] theorem State.harts_setBay (s : State) (b : Nat) (x : Bay) : (s.setBay b x).harts = s.harts := rfl
@[simp] theorem State.stores_setBay (s : State) (b : Nat) (x : Bay) : (s.setBay b x).stores = s.stores := rfl
@[simp] theorem State.reservations_setBay (s : State) (b : Nat) (x : Bay) : (s.setBay b x).reservations = s.reservations := rfl
@[simp] theorem State.regions_setBay (s : State) (b : Nat) (x : Bay) : (s.setBay b x).regions = s.regions := rfl
@[simp] theorem State.staged_setBay (s : State) (b : Nat) (x : Bay) : (s.setBay b x).staged = s.staged := rfl
@[simp] theorem State.closes_setBay (s : State) (b : Nat) (x : Bay) : (s.setBay b x).closes = s.closes := rfl
@[simp] theorem State.roundsEnded_setBay (s : State) (b : Nat) (x : Bay) : (s.setBay b x).roundsEnded = s.roundsEnded := rfl
@[simp] theorem State.raccIssue_setBay (s : State) (b : Nat) (x : Bay) : (s.setBay b x).raccIssue = s.raccIssue := rfl
@[simp] theorem State.fences_setBay (s : State) (b : Nat) (x : Bay) : (s.setBay b x).fences = s.fences := rfl
@[simp] theorem State.peerLinks_setBay (s : State) (b : Nat) (x : Bay) : (s.setBay b x).peerLinks = s.peerLinks := rfl
@[simp] theorem State.mails_setBay (s : State) (b : Nat) (x : Bay) : (s.setBay b x).mails = s.mails := rfl
@[simp] theorem State.mailNext_setBay (s : State) (b : Nat) (x : Bay) : (s.setBay b x).mailNext = s.mailNext := rfl
@[simp] theorem State.mailIn_setBay (s : State) (b : Nat) (x : Bay) : (s.setBay b x).mailIn = s.mailIn := rfl
@[simp] theorem State.transit_setBay (s : State) (b : Nat) (x : Bay) : (s.setBay b x).transit = s.transit := rfl
@[simp] theorem State.colls_setBay (s : State) (b : Nat) (x : Bay) : (s.setBay b x).colls = s.colls := rfl
@[simp] theorem State.collDone_setBay (s : State) (b : Nat) (x : Bay) : (s.setBay b x).collDone = s.collDone := rfl
@[simp] theorem State.collHeld_setBay (s : State) (b : Nat) (x : Bay) : (s.setBay b x).collHeld = s.collHeld := rfl
@[simp] theorem State.chans_setBay (s : State) (b : Nat) (x : Bay) : (s.setBay b x).chans = s.chans := rfl
@[simp] theorem State.fills_setBay (s : State) (b : Nat) (x : Bay) : (s.setBay b x).fills = s.fills := rfl
@[simp] theorem State.narrow_setBay (s : State) (b : Nat) (x : Bay) : (s.setBay b x).narrow = s.narrow := rfl
@[simp] theorem State.remaps_setBay (s : State) (b : Nat) (x : Bay) : (s.setBay b x).remaps = s.remaps := rfl
@[simp] theorem State.remapping_setBay (s : State) (b : Nat) (x : Bay) : (s.setBay b x).remapping = s.remapping := rfl
@[simp] theorem State.mapoutWaits_setBay (s : State) (b : Nat) (x : Bay) : (s.setBay b x).mapoutWaits = s.mapoutWaits := rfl
@[simp] theorem State.journal_setBay (s : State) (b : Nat) (x : Bay) : (s.setBay b x).journal = s.journal := rfl
@[simp] theorem State.pulses_setBay (s : State) (b : Nat) (x : Bay) : (s.setBay b x).pulses = s.pulses := rfl
@[simp] theorem State.softPpr_setBay (s : State) (b : Nat) (x : Bay) : (s.setBay b x).softPpr = s.softPpr := rfl
@[simp] theorem State.segments_setBay (s : State) (b : Nat) (x : Bay) : (s.setBay b x).segments = s.segments := rfl
@[simp] theorem State.slotA_setBay (s : State) (b : Nat) (x : Bay) : (s.setBay b x).slotA = s.slotA := rfl
@[simp] theorem State.slotB_setBay (s : State) (b : Nat) (x : Bay) : (s.setBay b x).slotB = s.slotB := rfl
@[simp] theorem State.shards_setBay (s : State) (b : Nat) (x : Bay) : (s.setBay b x).shards = s.shards := rfl
@[simp] theorem State.drains_setBay (s : State) (b : Nat) (x : Bay) : (s.setBay b x).drains = s.drains := rfl
@[simp] theorem State.recovery_setBay (s : State) (b : Nat) (x : Bay) : (s.setBay b x).recovery = s.recovery := rfl
@[simp] theorem State.jobEpochs_setBay (s : State) (b : Nat) (x : Bay) : (s.setBay b x).jobEpochs = s.jobEpochs := rfl
@[simp] theorem State.kept_setBay (s : State) (b : Nat) (x : Bay) : (s.setBay b x).kept = s.kept := rfl
@[simp] theorem State.keptFor_setBay (s : State) (b : Nat) (x : Bay) : (s.setBay b x).keptFor = s.keptFor := rfl
@[simp] theorem State.hostLines_setBay (s : State) (b : Nat) (x : Bay) : (s.setBay b x).hostLines = s.hostLines := rfl
@[simp] theorem State.waiting_setBay (s : State) (b : Nat) (x : Bay) : (s.setBay b x).waiting = s.waiting := rfl
@[simp] theorem State.xwMsg_setBay (s : State) (b : Nat) (x : Bay) : (s.setBay b x).xwMsg = s.xwMsg := rfl
@[simp] theorem State.xwOwn_setBay (s : State) (b : Nat) (x : Bay) : (s.setBay b x).xwOwn = s.xwOwn := rfl
@[simp] theorem State.xwTheirs_setBay (s : State) (b : Nat) (x : Bay) : (s.setBay b x).xwTheirs = s.xwTheirs := rfl
@[simp] theorem State.xwStreams_setBay (s : State) (b : Nat) (x : Bay) : (s.setBay b x).xwStreams = s.xwStreams := rfl
@[simp] theorem State.xwDiff_setBay (s : State) (b : Nat) (x : Bay) : (s.setBay b x).xwDiff = s.xwDiff := rfl
@[simp] theorem State.rung_setBay (s : State) (b : Nat) (x : Bay) : (s.setBay b x).rung = s.rung := rfl
@[simp] theorem State.cmds_setBay (s : State) (b : Nat) (x : Bay) : (s.setBay b x).cmds = s.cmds := rfl
@[simp] theorem State.cqHeld_setBay (s : State) (b : Nat) (x : Bay) : (s.setBay b x).cqHeld = s.cqHeld := rfl
@[simp] theorem State.errorLog_setBay (s : State) (b : Nat) (x : Bay) : (s.setBay b x).errorLog = s.errorLog := rfl
@[simp] theorem State.squallEvents_setBay (s : State) (b : Nat) (x : Bay) : (s.setBay b x).squallEvents = s.squallEvents := rfl
@[simp] theorem State.audit_setBay (s : State) (b : Nat) (x : Bay) : (s.setBay b x).audit = s.audit := rfl
@[simp] theorem State.mirror_setBay (s : State) (b : Nat) (x : Bay) : (s.setBay b x).mirror = s.mirror := rfl
@[simp] theorem State.sessions_setBay (s : State) (b : Nat) (x : Bay) : (s.setBay b x).sessions = s.sessions := rfl
@[simp] theorem State.assemblies_setBay (s : State) (b : Nat) (x : Bay) : (s.setBay b x).assemblies = s.assemblies := rfl
@[simp] theorem State.answers_setBay (s : State) (b : Nat) (x : Bay) : (s.setBay b x).answers = s.answers := rfl
@[simp] theorem State.subs_setBay (s : State) (b : Nat) (x : Bay) : (s.setBay b x).subs = s.subs := rfl
@[simp] theorem State.frozen_setBay (s : State) (b : Nat) (x : Bay) : (s.setBay b x).frozen = s.frozen := rfl
@[simp] theorem State.late_setBay (s : State) (b : Nat) (x : Bay) : (s.setBay b x).late = s.late := rfl
@[simp] theorem State.out_setBay (s : State) (b : Nat) (x : Bay) : (s.setBay b x).out = s.out := rfl

/-! After the state of a hart. -/

@[simp] theorem State.pending_setHart (s : State) (h : Nat) (t : Hart) : (s.setHart h t).pending = s.pending := rfl
@[simp] theorem State.now_setHart (s : State) (h : Nat) (t : Hart) : (s.setHart h t).now = s.now := rfl
@[simp] theorem State.free_setHart (s : State) (h : Nat) (t : Hart) : (s.setHart h t).free = s.free := rfl
@[simp] theorem State.regs_setHart (s : State) (h : Nat) (t : Hart) : (s.setHart h t).regs = s.regs := rfl
@[simp] theorem State.deferred_setHart (s : State) (h : Nat) (t : Hart) : (s.setHart h t).deferred = s.deferred := rfl
@[simp] theorem State.mem_setHart (s : State) (h : Nat) (t : Hart) : (s.setHart h t).mem = s.mem := rfl
@[simp] theorem State.poisonAtoms_setHart (s : State) (h : Nat) (t : Hart) : (s.setHart h t).poisonAtoms = s.poisonAtoms := rfl
@[simp] theorem State.poisonWords_setHart (s : State) (h : Nat) (t : Hart) : (s.setHart h t).poisonWords = s.poisonWords := rfl
@[simp] theorem State.bays_setHart (s : State) (h : Nat) (t : Hart) : (s.setHart h t).bays = s.bays := rfl
@[simp] theorem State.tests_setHart (s : State) (h : Nat) (t : Hart) : (s.setHart h t).tests = s.tests := rfl
@[simp] theorem State.copies_setHart (s : State) (h : Nat) (t : Hart) : (s.setHart h t).copies = s.copies := rfl
@[simp] theorem State.tailwind_setHart (s : State) (h : Nat) (t : Hart) : (s.setHart h t).tailwind = s.tailwind := rfl
@[simp] theorem State.retry_setHart (s : State) (h : Nat) (t : Hart) : (s.setHart h t).retry = s.retry := rfl
@[simp] theorem State.linkQueue_setHart (s : State) (h : Nat) (t : Hart) : (s.setHart h t).linkQueue = s.linkQueue := rfl
@[simp] theorem State.flitNext_setHart (s : State) (h : Nat) (t : Hart) : (s.setHart h t).flitNext = s.flitNext := rfl
@[simp] theorem State.stuck_setHart (s : State) (h : Nat) (t : Hart) : (s.setHart h t).stuck = s.stuck := rfl
@[simp] theorem State.answered_setHart (s : State) (h : Nat) (t : Hart) : (s.setHart h t).answered = s.answered := rfl
@[simp] theorem State.refusals_setHart (s : State) (h : Nat) (t : Hart) : (s.setHart h t).refusals = s.refusals := rfl
@[simp] theorem State.chanStalled_setHart (s : State) (h : Nat) (t : Hart) : (s.setHart h t).chanStalled = s.chanStalled := rfl
@[simp] theorem State.sliceHeld_setHart (s : State) (h : Nat) (t : Hart) : (s.setHart h t).sliceHeld = s.sliceHeld := rfl
@[simp] theorem State.merging_setHart (s : State) (h : Nat) (t : Hart) : (s.setHart h t).merging = s.merging := rfl
@[simp] theorem State.migrated_setHart (s : State) (h : Nat) (t : Hart) : (s.setHart h t).migrated = s.migrated := rfl
@[simp] theorem State.recent_setHart (s : State) (h : Nat) (t : Hart) : (s.setHart h t).recent = s.recent := rfl
@[simp] theorem State.pclks_setHart (s : State) (h : Nat) (t : Hart) : (s.setHart h t).pclks = s.pclks := rfl
@[simp] theorem State.llm_setHart (s : State) (h : Nat) (t : Hart) : (s.setHart h t).llm = s.llm := rfl
@[simp] theorem State.corrections_setHart (s : State) (h : Nat) (t : Hart) : (s.setHart h t).corrections = s.corrections := rfl
@[simp] theorem State.chanQueue_setHart (s : State) (h : Nat) (t : Hart) : (s.setHart h t).chanQueue = s.chanQueue := rfl
@[simp] theorem State.narrowHeld_setHart (s : State) (h : Nat) (t : Hart) : (s.setHart h t).narrowHeld = s.narrowHeld := rfl
@[simp] theorem State.moved_setHart (s : State) (h : Nat) (t : Hart) : (s.setHart h t).moved = s.moved := rfl
@[simp] theorem State.spareMarks_setHart (s : State) (h : Nat) (t : Hart) : (s.setHart h t).spareMarks = s.spareMarks := rfl
@[simp] theorem State.seqOut_setHart (s : State) (h : Nat) (t : Hart) : (s.setHart h t).seqOut = s.seqOut := rfl
@[simp] theorem State.seqIn_setHart (s : State) (h : Nat) (t : Hart) : (s.setHart h t).seqIn = s.seqIn := rfl
@[simp] theorem State.early_setHart (s : State) (h : Nat) (t : Hart) : (s.setHart h t).early = s.early := rfl
@[simp] theorem State.requests_setHart (s : State) (h : Nat) (t : Hart) : (s.setHart h t).requests = s.requests := rfl
@[simp] theorem State.hartReplies_setHart (s : State) (h : Nat) (t : Hart) : (s.setHart h t).hartReplies = s.hartReplies := rfl
@[simp] theorem State.stores_setHart (s : State) (h : Nat) (t : Hart) : (s.setHart h t).stores = s.stores := rfl
@[simp] theorem State.reservations_setHart (s : State) (h : Nat) (t : Hart) : (s.setHart h t).reservations = s.reservations := rfl
@[simp] theorem State.regions_setHart (s : State) (h : Nat) (t : Hart) : (s.setHart h t).regions = s.regions := rfl
@[simp] theorem State.staged_setHart (s : State) (h : Nat) (t : Hart) : (s.setHart h t).staged = s.staged := rfl
@[simp] theorem State.closes_setHart (s : State) (h : Nat) (t : Hart) : (s.setHart h t).closes = s.closes := rfl
@[simp] theorem State.roundsEnded_setHart (s : State) (h : Nat) (t : Hart) : (s.setHart h t).roundsEnded = s.roundsEnded := rfl
@[simp] theorem State.raccIssue_setHart (s : State) (h : Nat) (t : Hart) : (s.setHart h t).raccIssue = s.raccIssue := rfl
@[simp] theorem State.fences_setHart (s : State) (h : Nat) (t : Hart) : (s.setHart h t).fences = s.fences := rfl
@[simp] theorem State.peerLinks_setHart (s : State) (h : Nat) (t : Hart) : (s.setHart h t).peerLinks = s.peerLinks := rfl
@[simp] theorem State.mails_setHart (s : State) (h : Nat) (t : Hart) : (s.setHart h t).mails = s.mails := rfl
@[simp] theorem State.mailNext_setHart (s : State) (h : Nat) (t : Hart) : (s.setHart h t).mailNext = s.mailNext := rfl
@[simp] theorem State.mailIn_setHart (s : State) (h : Nat) (t : Hart) : (s.setHart h t).mailIn = s.mailIn := rfl
@[simp] theorem State.transit_setHart (s : State) (h : Nat) (t : Hart) : (s.setHart h t).transit = s.transit := rfl
@[simp] theorem State.colls_setHart (s : State) (h : Nat) (t : Hart) : (s.setHart h t).colls = s.colls := rfl
@[simp] theorem State.collDone_setHart (s : State) (h : Nat) (t : Hart) : (s.setHart h t).collDone = s.collDone := rfl
@[simp] theorem State.collHeld_setHart (s : State) (h : Nat) (t : Hart) : (s.setHart h t).collHeld = s.collHeld := rfl
@[simp] theorem State.chans_setHart (s : State) (h : Nat) (t : Hart) : (s.setHart h t).chans = s.chans := rfl
@[simp] theorem State.fills_setHart (s : State) (h : Nat) (t : Hart) : (s.setHart h t).fills = s.fills := rfl
@[simp] theorem State.narrow_setHart (s : State) (h : Nat) (t : Hart) : (s.setHart h t).narrow = s.narrow := rfl
@[simp] theorem State.remaps_setHart (s : State) (h : Nat) (t : Hart) : (s.setHart h t).remaps = s.remaps := rfl
@[simp] theorem State.remapping_setHart (s : State) (h : Nat) (t : Hart) : (s.setHart h t).remapping = s.remapping := rfl
@[simp] theorem State.mapoutWaits_setHart (s : State) (h : Nat) (t : Hart) : (s.setHart h t).mapoutWaits = s.mapoutWaits := rfl
@[simp] theorem State.journal_setHart (s : State) (h : Nat) (t : Hart) : (s.setHart h t).journal = s.journal := rfl
@[simp] theorem State.pulses_setHart (s : State) (h : Nat) (t : Hart) : (s.setHart h t).pulses = s.pulses := rfl
@[simp] theorem State.softPpr_setHart (s : State) (h : Nat) (t : Hart) : (s.setHart h t).softPpr = s.softPpr := rfl
@[simp] theorem State.segments_setHart (s : State) (h : Nat) (t : Hart) : (s.setHart h t).segments = s.segments := rfl
@[simp] theorem State.slotA_setHart (s : State) (h : Nat) (t : Hart) : (s.setHart h t).slotA = s.slotA := rfl
@[simp] theorem State.slotB_setHart (s : State) (h : Nat) (t : Hart) : (s.setHart h t).slotB = s.slotB := rfl
@[simp] theorem State.shards_setHart (s : State) (h : Nat) (t : Hart) : (s.setHart h t).shards = s.shards := rfl
@[simp] theorem State.drains_setHart (s : State) (h : Nat) (t : Hart) : (s.setHart h t).drains = s.drains := rfl
@[simp] theorem State.recovery_setHart (s : State) (h : Nat) (t : Hart) : (s.setHart h t).recovery = s.recovery := rfl
@[simp] theorem State.jobEpochs_setHart (s : State) (h : Nat) (t : Hart) : (s.setHart h t).jobEpochs = s.jobEpochs := rfl
@[simp] theorem State.kept_setHart (s : State) (h : Nat) (t : Hart) : (s.setHart h t).kept = s.kept := rfl
@[simp] theorem State.keptFor_setHart (s : State) (h : Nat) (t : Hart) : (s.setHart h t).keptFor = s.keptFor := rfl
@[simp] theorem State.hostLines_setHart (s : State) (h : Nat) (t : Hart) : (s.setHart h t).hostLines = s.hostLines := rfl
@[simp] theorem State.waiting_setHart (s : State) (h : Nat) (t : Hart) : (s.setHart h t).waiting = s.waiting := rfl
@[simp] theorem State.xwMsg_setHart (s : State) (h : Nat) (t : Hart) : (s.setHart h t).xwMsg = s.xwMsg := rfl
@[simp] theorem State.xwOwn_setHart (s : State) (h : Nat) (t : Hart) : (s.setHart h t).xwOwn = s.xwOwn := rfl
@[simp] theorem State.xwTheirs_setHart (s : State) (h : Nat) (t : Hart) : (s.setHart h t).xwTheirs = s.xwTheirs := rfl
@[simp] theorem State.xwStreams_setHart (s : State) (h : Nat) (t : Hart) : (s.setHart h t).xwStreams = s.xwStreams := rfl
@[simp] theorem State.xwDiff_setHart (s : State) (h : Nat) (t : Hart) : (s.setHart h t).xwDiff = s.xwDiff := rfl
@[simp] theorem State.rung_setHart (s : State) (h : Nat) (t : Hart) : (s.setHart h t).rung = s.rung := rfl
@[simp] theorem State.cmds_setHart (s : State) (h : Nat) (t : Hart) : (s.setHart h t).cmds = s.cmds := rfl
@[simp] theorem State.cqHeld_setHart (s : State) (h : Nat) (t : Hart) : (s.setHart h t).cqHeld = s.cqHeld := rfl
@[simp] theorem State.errorLog_setHart (s : State) (h : Nat) (t : Hart) : (s.setHart h t).errorLog = s.errorLog := rfl
@[simp] theorem State.squallEvents_setHart (s : State) (h : Nat) (t : Hart) : (s.setHart h t).squallEvents = s.squallEvents := rfl
@[simp] theorem State.audit_setHart (s : State) (h : Nat) (t : Hart) : (s.setHart h t).audit = s.audit := rfl
@[simp] theorem State.mirror_setHart (s : State) (h : Nat) (t : Hart) : (s.setHart h t).mirror = s.mirror := rfl
@[simp] theorem State.sessions_setHart (s : State) (h : Nat) (t : Hart) : (s.setHart h t).sessions = s.sessions := rfl
@[simp] theorem State.assemblies_setHart (s : State) (h : Nat) (t : Hart) : (s.setHart h t).assemblies = s.assemblies := rfl
@[simp] theorem State.answers_setHart (s : State) (h : Nat) (t : Hart) : (s.setHart h t).answers = s.answers := rfl
@[simp] theorem State.subs_setHart (s : State) (h : Nat) (t : Hart) : (s.setHart h t).subs = s.subs := rfl
@[simp] theorem State.frozen_setHart (s : State) (h : Nat) (t : Hart) : (s.setHart h t).frozen = s.frozen := rfl
@[simp] theorem State.late_setHart (s : State) (h : Nat) (t : Hart) : (s.setHart h t).late = s.late := rfl
@[simp] theorem State.out_setHart (s : State) (h : Nat) (t : Hart) : (s.setHart h t).out = s.out := rfl

end Sys2Proof.Machine
end

