-- ==== Sys2Proof/Laws/Store.lean ====
section
/-! SUPPORT. Laws of sparse stores: a read after a write, and the canonical form, which every operation keeps. -/

namespace Sys2Proof.Machine

/-- What a strict order of keys must satisfy for a store to have one form. -/
structure StrictOrder {K : Type} (lt : K → K → Bool) : Prop where
  irrefl : ∀ a, lt a a = false
  trans : ∀ a b c, lt a b = true → lt b c = true → lt a c = true
  total : ∀ a b, a ≠ b → lt a b = false → lt b a = true

theorem natLt_strict : StrictOrder natLt where
  irrefl a := by simp [natLt]
  trans a b c := by simp only [natLt, decide_eq_true_eq]; omega
  total a b h := by simp only [natLt, decide_eq_true_eq, decide_eq_false_iff_not]; omega

theorem Reg.eq_of_ctorIdx {a b : Reg} (h : a.ctorIdx = b.ctorIdx) : a = b := by
  have := congrArg Reg.ofNat h
  rwa [Reg.ofNat_ctorIdx, Reg.ofNat_ctorIdx] at this

theorem regLt_strict : StrictOrder regLt where
  irrefl a := by simp [regLt]
  trans a b c := by simp only [regLt, Bool.or_eq_true, Bool.and_eq_true, decide_eq_true_eq]; omega
  total a b h := by
    have : a.1.ctorIdx = b.1.ctorIdx → a.2 ≠ b.2 := fun e f => h (Prod.ext (Reg.eq_of_ctorIdx e) f)
    simp only [regLt, Bool.or_eq_true, Bool.and_eq_true, decide_eq_true_eq, Bool.or_eq_false_iff,
      Bool.and_eq_false_iff, decide_eq_false_iff_not]
    omega

variable {K V : Type} [DecidableEq K] [DecidableEq V] {lt : K → K → Bool} {d : K → V}

/-! Reads. -/

omit [DecidableEq V] in
theorem Store.get_erase (m : Store K V) (k j : K) :
    Store.get d (Store.erase m k) j = if k = j then d j else Store.get d m j := by
  induction m with
  | nil => simp [Store.erase, Store.get]
  | cons e m ih =>
    obtain ⟨k', v'⟩ := e
    unfold Store.erase at ih ⊢
    by_cases h : k' = k
    · subst h
      simp only [ne_eq, not_true_eq_false, decide_false, Bool.false_eq_true, not_false_eq_true, List.filter_cons_of_neg, ih,
        Store.get]
      by_cases hj : k' = j <;> simp [hj]
    · simp only [ne_eq, h, not_false_eq_true, decide_true, List.filter_cons_of_pos, Store.get, ih]
      by_cases hj : k' = j
      · subst hj; simp [Ne.symm h]
      · simp [hj]

omit [DecidableEq V] in
theorem Store.get_insert (m : Store K V) (k j : K) (v : V) (h : ∀ e ∈ m, e.1 ≠ k) :
    Store.get d (Store.insert lt k v m) j = if k = j then v else Store.get d m j := by
  induction m with
  | nil => simp [Store.insert, Store.get]
  | cons e m ih =>
    obtain ⟨k', v'⟩ := e
    have hk : k' ≠ k := h (k', v') (by simp)
    have ih := ih fun e he => h e (by simp [he])
    unfold Store.insert
    split
    · simp [Store.get]
    · simp only [Store.get, ih]
      by_cases hj : k' = j
      · subst hj; simp [Ne.symm hk]
      · simp [hj]

omit [DecidableEq V] in
theorem Store.mem_erase {m : Store K V} {k : K} {e : K × V} : e ∈ Store.erase m k ↔ e ∈ m ∧ e.1 ≠ k := by
  simp [Store.erase]

/-- A read after a write. -/
theorem Store.get_set (m : Store K V) (k j : K) (v : V) :
    Store.get d (Store.set lt d m k v) j = if k = j then v else Store.get d m j := by
  unfold Store.set
  split
  · next h => rw [Store.get_erase]; by_cases hj : k = j <;> simp [hj, h]
  · rw [Store.get_insert _ _ _ _ fun e he => (Store.mem_erase.1 he).2, Store.get_erase]
    by_cases hj : k = j <;> simp [hj]

/-! The canonical form. -/

omit [DecidableEq K] in
theorem Store.wf_cons {k : K} {v : V} {m : Store K V} :
    Store.wf lt d ((k, v) :: m) = true ↔ v ≠ d k ∧ (∀ e ∈ m, lt k e.1 = true) ∧ Store.wf lt d m = true := by
  simp [Store.wf, and_assoc]

omit [DecidableEq K] in
theorem Store.wf_filter (p : K × V → Bool) {m : Store K V} (h : Store.wf lt d m = true) :
    Store.wf lt d (m.filter p) = true := by
  induction m with
  | nil => rfl
  | cons e m ih =>
    obtain ⟨k, v⟩ := e
    obtain ⟨h1, h2, h3⟩ := Store.wf_cons.1 h
    by_cases hp : p (k, v)
    · rw [List.filter_cons_of_pos hp]
      exact Store.wf_cons.2 ⟨h1, fun e he => h2 e (List.mem_filter.1 he).1, ih h3⟩
    · rw [List.filter_cons_of_neg hp]
      exact ih h3

omit [DecidableEq K] [DecidableEq V] in
theorem Store.mem_insert {k : K} {v : V} {m : Store K V} {e : K × V} (h : e ∈ Store.insert lt k v m) :
    e = (k, v) ∨ e ∈ m := by
  induction m with
  | nil => simpa [Store.insert] using h
  | cons f m ih =>
    obtain ⟨k', v'⟩ := f
    unfold Store.insert at h
    split at h
    · simpa using h
    · rcases List.mem_cons.1 h with h | h
      · simp [h]
      · rcases ih h with h | h <;> simp [h]

omit [DecidableEq K] in
theorem Store.wf_insert (hlt : StrictOrder lt) {k : K} {v : V} {m : Store K V} (hv : v ≠ d k) (hk : ∀ e ∈ m, e.1 ≠ k)
    (h : Store.wf lt d m = true) : Store.wf lt d (Store.insert lt k v m) = true := by
  induction m with
  | nil => simp [Store.insert, Store.wf, hv]
  | cons e m ih =>
    obtain ⟨k', v'⟩ := e
    obtain ⟨h1, h2, h3⟩ := Store.wf_cons.1 h
    unfold Store.insert
    split
    · next hl =>
      refine Store.wf_cons.2 ⟨hv, ?_, h⟩
      intro e he
      rcases List.mem_cons.1 he with he | he
      · simpa [he] using hl
      · exact hlt.trans _ _ _ hl (h2 e he)
    · next hl =>
      refine Store.wf_cons.2 ⟨h1, ?_, ih (fun e he => hk e (by simp [he])) h3⟩
      intro e he
      rcases Store.mem_insert he with he | he
      · subst he
        exact hlt.total _ _ (Ne.symm (hk (k', v') (by simp))) (by simpa using hl)
      · exact h2 e he

/-- A write keeps the canonical form. -/
theorem Store.wf_set (hlt : StrictOrder lt) {m : Store K V} (k : K) (v : V) (h : Store.wf lt d m = true) :
    Store.wf lt d (Store.set lt d m k v) = true := by
  unfold Store.set
  split
  · exact Store.wf_filter _ h
  · next hv => exact Store.wf_insert hlt hv (fun e he => (Store.mem_erase.1 he).2) (Store.wf_filter _ h)

/-- What is listed after a write was listed before or is what was written. -/
theorem Store.mem_set {m : Store K V} {k : K} {v : V} {e : K × V} (h : e ∈ Store.set lt d m k v) : e = (k, v) ∨ e ∈ m := by
  unfold Store.set at h
  split at h
  · exact .inr (Store.mem_erase.1 h).1
  · exact (Store.mem_insert h).imp id fun h => (Store.mem_erase.1 h).1

omit [DecidableEq V] in
/-- A read of a filtered store, where the filter looks at keys alone. -/
theorem Store.get_filter (p : K → Bool) (m : Store K V) (k : K) :
    Store.get d (m.filter fun e => p e.1) k = if p k then Store.get d m k else d k := by
  induction m with
  | nil => simp [Store.get]
  | cons e m ih =>
    obtain ⟨k', v⟩ := e
    by_cases hp : p k'
    · rw [List.filter_cons_of_pos (by simpa using hp)]
      simp only [Store.get, ih]
      by_cases hk : k' = k
      · subst hk; simp [hp]
      · simp [hk]
    · rw [List.filter_cons_of_neg (by simpa using hp), ih]
      by_cases hk : k' = k
      · subst hk; simp [hp]
      · simp [Store.get, hk]

end Sys2Proof.Machine
end

