-- ==== Sys2Proof/Laws/Ops.lean ====
section
/-! SUPPORT. Laws of the named operations: what a register, a byte, a bay and a hart read as after each of them. -/

namespace Sys2Proof.Machine

variable (s : State)

/-! Registers. -/

/-- A register reads what was written to it, at its width; the others keep their value. -/
@[simp] theorem State.reg_setReg (r q : Reg) (i j v : Nat) :
    (s.setReg r i v).reg q j = if r = q ∧ i = j then v % r.modulus else s.reg q j := by
  simp only [State.reg, State.setReg, Store.get_set, Prod.mk.injEq]

theorem State.reg_setReg_same (r : Reg) (i v : Nat) : (s.setReg r i v).reg r i = v % r.modulus := by simp

theorem State.reg_setReg_ne {r q : Reg} (h : r ≠ q) (i j v : Nat) : (s.setReg r i v).reg q j = s.reg q j := by simp [h]

@[simp] theorem State.reg_addReg (r q : Reg) (i j n : Nat) :
    (s.addReg r i n).reg q j = if r = q ∧ i = j then (s.reg r i + n) % r.modulus else s.reg q j := by
  simp [State.addReg]

@[simp] theorem State.reg_setFlag (r q : Reg) (i j b : Nat) (v : Bool) :
    (s.setFlag r i b v).reg q j =
      if r = q ∧ i = j then (if v then withBit (s.reg r i) b else withoutBit (s.reg r i) b) % r.modulus else s.reg q j := by
  simp [State.setFlag]

theorem State.reg_setRegs_ne {r q : Reg} (h : r ≠ q) (i j : Nat) (vs : List Nat) : (s.setRegs r i vs).reg q j = s.reg q j := by
  induction vs generalizing s i with
  | nil => rfl
  | cons v vs ih => simp [State.setRegs, ih, h]

/-- What several elements of a register read as after their write. -/
theorem State.reg_setRegs (r : Reg) (i j : Nat) (vs : List Nat) :
    (s.setRegs r i vs).reg r j =
      if i ≤ j ∧ j < i + vs.length then vs.getD (j - i) 0 % r.modulus else s.reg r j := by
  induction vs generalizing s i with
  | nil =>
    have : ¬ (i ≤ j ∧ j < i) := by omega
    simp [State.setRegs, this]
  | cons v vs ih =>
    simp only [State.setRegs, ih, State.reg_setReg, List.length_cons, true_and]
    by_cases hj : i = j
    · subst hj; rw [if_neg (by omega), if_pos rfl, if_pos (by omega)]; simp
    · by_cases h : i + 1 ≤ j ∧ j < i + 1 + vs.length
      · have h' : i ≤ j ∧ j < i + (vs.length + 1) := by omega
        have e : j - i = (j - (i + 1)) + 1 := by omega
        simp only [h, h', and_self, ↓reduceIte, e, List.getD_cons_succ]
      · have h' : ¬ (i ≤ j ∧ j < i + (vs.length + 1)) := by omega
        rw [if_neg h, if_neg hj, if_neg h']

@[simp] theorem State.reg_setByte (a : Nat) (b : Byte) (q : Reg) (j : Nat) : (s.setByte a b).reg q j = s.reg q j := rfl
@[simp] theorem State.reg_wipe (lo hi : Nat) (q : Reg) (j : Nat) : (s.wipe lo hi).reg q j = s.reg q j := rfl
@[simp] theorem State.reg_send (o : Output) (q : Reg) (j : Nat) : (s.send o).reg q j = s.reg q j := rfl
@[simp] theorem State.reg_setBay (b : Nat) (x : Bay) (q : Reg) (j : Nat) : (s.setBay b x).reg q j = s.reg q j := rfl
@[simp] theorem State.reg_setHart (h : Nat) (t : Hart) (q : Reg) (j : Nat) : (s.setHart h t).reg q j = s.reg q j := rfl

/-- A register of a domain that is reset reads its default; one of another domain keeps its value (R570). -/
@[simp] theorem State.reg_clearDomain (d : Domain) (q : Reg) (j : Nat) :
    (s.clearDomain d).reg q j = if q.info.domain = d then q.dflt j else s.reg q j := by
  have := Store.get_filter (d := regDflt) (fun k : Reg × Nat => decide (k.1.info.domain ≠ d)) s.regs (q, j)
  simp only [State.reg, State.clearDomain]
  rw [this]
  by_cases h : q.info.domain = d <;> simp [h, regDflt]

/-! Node memory. -/

/-- A byte reads what was written to it; the others keep their value. -/
@[simp] theorem State.byte_setByte (a c : Nat) (b : Byte) :
    (s.setByte a b).byte c = if a = c then b else s.byte c := by
  simp only [State.byte, State.setByte, Store.at, Store.put, Store.get_set]

@[simp] theorem State.byte_setReg (r : Reg) (i v a : Nat) : (s.setReg r i v).byte a = s.byte a := rfl
@[simp] theorem State.byte_send (o : Output) (a : Nat) : (s.send o).byte a = s.byte a := rfl
@[simp] theorem State.byte_setBay (b : Nat) (x : Bay) (a : Nat) : (s.setBay b x).byte a = s.byte a := rfl
@[simp] theorem State.byte_setHart (h : Nat) (t : Hart) (a : Nat) : (s.setHart h t).byte a = s.byte a := rfl

/-- A byte after bytes have been written from an address: theirs where they lie, the former one elsewhere. -/
theorem State.byte_putBytes (a c : Nat) (bs : List Byte) :
    (s.putBytes a bs).byte c = if a ≤ c ∧ c < a + bs.length then bs.getD (c - a) 0 else s.byte c := by
  induction bs generalizing s a with
  | nil =>
    have : ¬ (a ≤ c ∧ c < a) := by omega
    simp [State.putBytes, this]
  | cons b bs ih =>
    simp only [State.putBytes, ih, State.byte_setByte, List.length_cons]
    by_cases hc : a = c
    · subst hc; rw [if_neg (by omega), if_pos rfl, if_pos (by omega)]; simp
    · by_cases h : a + 1 ≤ c ∧ c < a + 1 + bs.length
      · have h' : a ≤ c ∧ c < a + (bs.length + 1) := by omega
        have e : c - a = (c - (a + 1)) + 1 := by omega
        simp only [h, h', and_self, ↓reduceIte, e, List.getD_cons_succ]
      · have h' : ¬ (a ≤ c ∧ c < a + (bs.length + 1)) := by omega
        rw [if_neg h, if_neg hc, if_neg h']

/-- A byte after a range has been wiped. -/
theorem State.byte_wipe (lo hi c : Nat) : (s.wipe lo hi).byte c = if lo ≤ c ∧ c < hi then 0 else s.byte c := by
  have := Store.get_filter (d := fun _ => (0 : Byte)) (fun k : Nat => decide (¬ (lo ≤ k ∧ k < hi))) s.mem c
  simp only [State.byte, State.wipe, Store.at]
  rw [this]
  by_cases h : lo ≤ c ∧ c < hi <;> simp [h]

theorem leBytes_length (n v : Nat) : (leBytes n v).length = n := by
  induction n generalizing v with
  | zero => rfl
  | succ n ih => simp [leBytes, ih]

/-- A number that is written as bytes and read again. -/
theorem ofLe_leBytes (n v : Nat) : ofLe (leBytes n v) = v % 256 ^ n := by
  induction n generalizing v with
  | zero => simp [leBytes, ofLe, Nat.mod_one]
  | succ n ih =>
    simp only [leBytes, ofLe, ih, BitVec.toNat_ofNat]
    have h : v % 256 ^ (n + 1) = v % (256 * 256 ^ n) := by rw [Nat.pow_succ, Nat.mul_comm]
    rw [h, Nat.mod_mul]

/-! Bays and harts. -/

@[simp] theorem State.bay_setBay (b c : Nat) (x : Bay) : (s.setBay b x).bay c = if b = c then x else s.bay c := by
  simp only [State.bay, State.setBay, Store.at, Store.put, Store.get_set]

@[simp] theorem State.bay_setReg (r : Reg) (i v b : Nat) : (s.setReg r i v).bay b = s.bay b := rfl
@[simp] theorem State.bay_setByte (a : Nat) (v : Byte) (b : Nat) : (s.setByte a v).bay b = s.bay b := rfl
@[simp] theorem State.bay_send (o : Output) (b : Nat) : (s.send o).bay b = s.bay b := rfl

@[simp] theorem State.hart_setHart (h k : Nat) (t : Hart) : (s.setHart h t).hart k = if h = k then t else s.hart k := by
  simp only [State.hart, State.setHart, Store.at, Store.put, Store.get_set]

@[simp] theorem State.hart_setReg (r : Reg) (i v h : Nat) : (s.setReg r i v).hart h = s.hart h := rfl

/-! Copies before a write (R345). -/

/-- A line that is copied before a write leaves the state, or is counted. -/
theorem copyLine_cases (q : State × Slot) (l : Nat) :
    (copyLine q l).1 = q.1 ∨ ∃ i, (copyLine q l).1 = q.1.addReg .cbwWrites i 1 := by
  obtain ⟨s, x⟩ := q
  unfold copyLine
  dsimp only
  split
  · exact .inl rfl
  · split
    · exact .inl rfl
    · exact .inr ⟨_, rfl⟩

/-- What the count keeps, the copies before a write keep. -/
theorem copyBefore_induct {P : State → Prop} (ha : ∀ u i, P u → P (u.addReg .cbwWrites i 1))
    {s : State} (x : Slot) (lo hi : Nat) (h : P s) : P (s.copyBefore x lo hi).1 := by
  unfold State.copyBefore
  generalize s.linesAhead x lo hi = ls
  generalize hq : (s, x) = q
  have h : P q.1 := by rw [← hq]; exact h
  clear hq
  induction ls generalizing q with
  | nil => exact h
  | cons l ls ih =>
    refine ih _ ?_
    obtain e | ⟨i, e⟩ := copyLine_cases q l <;> rw [e]
    · exact h
    · exact ha _ i h

end Sys2Proof.Machine
end

