-- ==== Sys2Proof/Laws/Registers.lean ====
section
/-! SUPPORT. How many values each register holds. -/

namespace Sys2Proof.Machine

@[simp] theorem Reg.modulus_nodeState : Reg.modulus .nodeState = 256 := rfl
@[simp] theorem Reg.modulus_jobActive : Reg.modulus .jobActive = 256 := rfl
@[simp] theorem Reg.modulus_degradeCause : Reg.modulus .degradeCause = 4294967296 := rfl
@[simp] theorem Reg.modulus_stateRequest : Reg.modulus .stateRequest = 256 := rfl
@[simp] theorem Reg.modulus_serviceRequest : Reg.modulus .serviceRequest = 256 := rfl
@[simp] theorem Reg.modulus_lullDeadline : Reg.modulus .lullDeadline = 4294967296 := rfl
@[simp] theorem Reg.modulus_initStage : Reg.modulus .initStage = 256 := rfl
@[simp] theorem Reg.modulus_physId : Reg.modulus .physId = 4294967296 := rfl
@[simp] theorem Reg.modulus_posStrap : Reg.modulus .posStrap = 256 := rfl
@[simp] theorem Reg.modulus_location : Reg.modulus .location = 4294967296 := rfl
@[simp] theorem Reg.modulus_logicalId : Reg.modulus .logicalId = 4294967296 := rfl
@[simp] theorem Reg.modulus_numericFw : Reg.modulus .numericFw = 4294967296 := rfl
@[simp] theorem Reg.modulus_rounding : Reg.modulus .rounding = 256 := rfl
@[simp] theorem Reg.modulus_modeSets : Reg.modulus .modeSets = 256 := rfl
@[simp] theorem Reg.modulus_subn : Reg.modulus .subn = 256 := rfl
@[simp] theorem Reg.modulus_acc : Reg.modulus .acc = 256 := rfl
@[simp] theorem Reg.modulus_stats : Reg.modulus .stats = 256 := rfl
@[simp] theorem Reg.modulus_baysActive : Reg.modulus .baysActive = 65536 := rfl
@[simp] theorem Reg.modulus_baySparesLeft : Reg.modulus .baySparesLeft = 4294967296 := rfl
@[simp] theorem Reg.modulus_ctxBase : Reg.modulus .ctxBase = 18446744073709551616 := rfl
@[simp] theorem Reg.modulus_residueReplays : Reg.modulus .residueReplays = 18446744073709551616 := rfl
@[simp] theorem Reg.modulus_bayState : Reg.modulus .bayState = 256 := rfl
@[simp] theorem Reg.modulus_lbayMap : Reg.modulus .lbayMap = 65536 := rfl
@[simp] theorem Reg.modulus_rosterBase : Reg.modulus .rosterBase = 18446744073709551616 := rfl
@[simp] theorem Reg.modulus_rosterBytes : Reg.modulus .rosterBytes = 18446744073709551616 := rfl
@[simp] theorem Reg.modulus_rosterCount : Reg.modulus .rosterCount = 65536 := rfl
@[simp] theorem Reg.modulus_rosterLlm : Reg.modulus .rosterLlm = 65536 := rfl
@[simp] theorem Reg.modulus_tailwindEn : Reg.modulus .tailwindEn = 256 := rfl
@[simp] theorem Reg.modulus_tailwindDepth : Reg.modulus .tailwindDepth = 256 := rfl
@[simp] theorem Reg.modulus_switches : Reg.modulus .switches = 18446744073709551616 := rfl
@[simp] theorem Reg.modulus_switchLlmHits : Reg.modulus .switchLlmHits = 18446744073709551616 := rfl
@[simp] theorem Reg.modulus_prefetchLate : Reg.modulus .prefetchLate = 18446744073709551616 := rfl
@[simp] theorem Reg.modulus_prefetchUnused : Reg.modulus .prefetchUnused = 18446744073709551616 := rfl
@[simp] theorem Reg.modulus_prefetchDropped : Reg.modulus .prefetchDropped = 18446744073709551616 := rfl
@[simp] theorem Reg.modulus_carryHeadroom : Reg.modulus .carryHeadroom = 256 := rfl
@[simp] theorem Reg.modulus_transcId : Reg.modulus .transcId = 4294967296 := rfl
@[simp] theorem Reg.modulus_vecStatusOr : Reg.modulus .vecStatusOr = 4294967296 := rfl
@[simp] theorem Reg.modulus_vecSteps : Reg.modulus .vecSteps = 18446744073709551616 := rfl
@[simp] theorem Reg.modulus_transElements : Reg.modulus .transElements = 18446744073709551616 := rfl
@[simp] theorem Reg.modulus_transCarryMisses : Reg.modulus .transCarryMisses = 18446744073709551616 := rfl
@[simp] theorem Reg.modulus_transRemoteBlocks : Reg.modulus .transRemoteBlocks = 18446744073709551616 := rfl
@[simp] theorem Reg.modulus_scaleAreaRaces : Reg.modulus .scaleAreaRaces = 18446744073709551616 := rfl
@[simp] theorem Reg.modulus_couplerQueueMax : Reg.modulus .couplerQueueMax = 65536 := rfl
@[simp] theorem Reg.modulus_tableDir : Reg.modulus .tableDir = 18446744073709551616 := rfl
@[simp] theorem Reg.modulus_descBase : Reg.modulus .descBase = 18446744073709551616 := rfl
@[simp] theorem Reg.modulus_descCount : Reg.modulus .descCount = 4294967296 := rfl
@[simp] theorem Reg.modulus_completionRing : Reg.modulus .completionRing = 18446744073709551616 := rfl
@[simp] theorem Reg.modulus_eventBase : Reg.modulus .eventBase = 18446744073709551616 := rfl
@[simp] theorem Reg.modulus_deadlineDefault : Reg.modulus .deadlineDefault = 4294967296 := rfl
@[simp] theorem Reg.modulus_deadlinePolicy : Reg.modulus .deadlinePolicy = 256 := rfl
@[simp] theorem Reg.modulus_strictConvert : Reg.modulus .strictConvert = 256 := rfl
@[simp] theorem Reg.modulus_tableState : Reg.modulus .tableState = 256 := rfl
@[simp] theorem Reg.modulus_stepsIssued : Reg.modulus .stepsIssued = 18446744073709551616 := rfl
@[simp] theorem Reg.modulus_deadlinesMissed : Reg.modulus .deadlinesMissed = 18446744073709551616 := rfl
@[simp] theorem Reg.modulus_ndConverted : Reg.modulus .ndConverted = 18446744073709551616 := rfl
@[simp] theorem Reg.modulus_specStalls : Reg.modulus .specStalls = 18446744073709551616 := rfl
@[simp] theorem Reg.modulus_windowMisses : Reg.modulus .windowMisses = 18446744073709551616 := rfl
@[simp] theorem Reg.modulus_preemptsDeferred : Reg.modulus .preemptsDeferred = 18446744073709551616 := rfl
@[simp] theorem Reg.modulus_coresUsable : Reg.modulus .coresUsable = 65536 := rfl
@[simp] theorem Reg.modulus_coreReserve : Reg.modulus .coreReserve = 256 := rfl
@[simp] theorem Reg.modulus_coreReserveLeft : Reg.modulus .coreReserveLeft = 65536 := rfl
@[simp] theorem Reg.modulus_hartCount : Reg.modulus .hartCount = 65536 := rfl
@[simp] theorem Reg.modulus_hartStart : Reg.modulus .hartStart = 18446744073709551616 := rfl
@[simp] theorem Reg.modulus_apertureBase : Reg.modulus .apertureBase = 18446744073709551616 := rfl
@[simp] theorem Reg.modulus_apertureCount : Reg.modulus .apertureCount = 65536 := rfl
@[simp] theorem Reg.modulus_hartMap : Reg.modulus .hartMap = 65536 := rfl
@[simp] theorem Reg.modulus_hartState : Reg.modulus .hartState = 256 := rfl
@[simp] theorem Reg.modulus_supActive : Reg.modulus .supActive = 256 := rfl
@[simp] theorem Reg.modulus_supStandbyOk : Reg.modulus .supStandbyOk = 256 := rfl
@[simp] theorem Reg.modulus_supTakeovers : Reg.modulus .supTakeovers = 4294967296 := rfl
@[simp] theorem Reg.modulus_threadSwitches : Reg.modulus .threadSwitches = 18446744073709551616 := rfl
@[simp] theorem Reg.modulus_remoteAccesses : Reg.modulus .remoteAccesses = 18446744073709551616 := rfl
@[simp] theorem Reg.modulus_svxFaults : Reg.modulus .svxFaults = 18446744073709551616 := rfl
@[simp] theorem Reg.modulus_coreReplays : Reg.modulus .coreReplays = 18446744073709551616 := rfl
@[simp] theorem Reg.modulus_remoteWriteErrors : Reg.modulus .remoteWriteErrors = 18446744073709551616 := rfl
@[simp] theorem Reg.modulus_stackTop : Reg.modulus .stackTop = 18446744073709551616 := rfl
@[simp] theorem Reg.modulus_allocTop : Reg.modulus .allocTop = 18446744073709551616 := rfl
@[simp] theorem Reg.modulus_mapoutForce : Reg.modulus .mapoutForce = 256 := rfl
@[simp] theorem Reg.modulus_channelsOut : Reg.modulus .channelsOut = 65536 := rfl
@[simp] theorem Reg.modulus_mapoutOrder : Reg.modulus .mapoutOrder = 65536 := rfl
@[simp] theorem Reg.modulus_migrationLeft : Reg.modulus .migrationLeft = 18446744073709551616 := rfl
@[simp] theorem Reg.modulus_scrubPeriod : Reg.modulus .scrubPeriod = 65536 := rfl
@[simp] theorem Reg.modulus_remapThreshold : Reg.modulus .remapThreshold = 256 := rfl
@[simp] theorem Reg.modulus_wipeRoster : Reg.modulus .wipeRoster = 256 := rfl
@[simp] theorem Reg.modulus_channelState : Reg.modulus .channelState = 256 := rfl
@[simp] theorem Reg.modulus_reserveRowsLeft : Reg.modulus .reserveRowsLeft = 4294967296 := rfl
@[simp] theorem Reg.modulus_journalUsed : Reg.modulus .journalUsed = 65536 := rfl
@[simp] theorem Reg.modulus_journalUncertain : Reg.modulus .journalUncertain = 65536 := rfl
@[simp] theorem Reg.modulus_eccCorrectedCnt : Reg.modulus .eccCorrectedCnt = 18446744073709551616 := rfl
@[simp] theorem Reg.modulus_eccUncorrCnt : Reg.modulus .eccUncorrCnt = 18446744073709551616 := rfl
@[simp] theorem Reg.modulus_retrains : Reg.modulus .retrains = 4294967296 := rfl
@[simp] theorem Reg.modulus_scrubPasses : Reg.modulus .scrubPasses = 4294967296 := rfl
@[simp] theorem Reg.modulus_stackLoad : Reg.modulus .stackLoad = 256 := rfl
@[simp] theorem Reg.modulus_cbwWrites : Reg.modulus .cbwWrites = 18446744073709551616 := rfl
@[simp] theorem Reg.modulus_draughtFront : Reg.modulus .draughtFront = 4294967296 := rfl
@[simp] theorem Reg.modulus_llmScratchWays : Reg.modulus .llmScratchWays = 256 := rfl
@[simp] theorem Reg.modulus_sliceState : Reg.modulus .sliceState = 256 := rfl
@[simp] theorem Reg.modulus_llmHits : Reg.modulus .llmHits = 18446744073709551616 := rfl
@[simp] theorem Reg.modulus_llmMisses : Reg.modulus .llmMisses = 18446744073709551616 := rfl
@[simp] theorem Reg.modulus_llmBypassed : Reg.modulus .llmBypassed = 18446744073709551616 := rfl
@[simp] theorem Reg.modulus_sliceSatCycles : Reg.modulus .sliceSatCycles = 18446744073709551616 := rfl
@[simp] theorem Reg.modulus_bypassThreshold : Reg.modulus .bypassThreshold = 256 := rfl
@[simp] theorem Reg.modulus_sliceSparesLeft : Reg.modulus .sliceSparesLeft = 4294967296 := rfl
@[simp] theorem Reg.modulus_zephyrWait : Reg.modulus .zephyrWait = 256 := rfl
@[simp] theorem Reg.modulus_narrowRequests : Reg.modulus .narrowRequests = 18446744073709551616 := rfl
@[simp] theorem Reg.modulus_narrowAtoms : Reg.modulus .narrowAtoms = 18446744073709551616 := rfl
@[simp] theorem Reg.modulus_narrowCoalesced : Reg.modulus .narrowCoalesced = 18446744073709551616 := rfl
@[simp] theorem Reg.modulus_narrowFullStalls : Reg.modulus .narrowFullStalls = 18446744073709551616 := rfl
@[simp] theorem Reg.modulus_linksUp : Reg.modulus .linksUp = 4294967296 := rfl
@[simp] theorem Reg.modulus_groupMap : Reg.modulus .groupMap = 4294967296 := rfl
@[simp] theorem Reg.modulus_jobMap : Reg.modulus .jobMap = 18446744073709551616 := rfl
@[simp] theorem Reg.modulus_jobNodes : Reg.modulus .jobNodes = 4294967296 := rfl
@[simp] theorem Reg.modulus_routes : Reg.modulus .routes = 340282366920938463463374607431768211456 := rfl
@[simp] theorem Reg.modulus_mcastBase : Reg.modulus .mcastBase = 18446744073709551616 := rfl
@[simp] theorem Reg.modulus_mailQueues : Reg.modulus .mailQueues = 18446744073709551616 := rfl
@[simp] theorem Reg.modulus_mailTimeout : Reg.modulus .mailTimeout = 4294967296 := rfl
@[simp] theorem Reg.modulus_mailHopLimit : Reg.modulus .mailHopLimit = 256 := rfl
@[simp] theorem Reg.modulus_remoteTimeout : Reg.modulus .remoteTimeout = 4294967296 := rfl
@[simp] theorem Reg.modulus_tcWeight : Reg.modulus .tcWeight = 256 := rfl
@[simp] theorem Reg.modulus_laneSerLimit : Reg.modulus .laneSerLimit = 65536 := rfl
@[simp] theorem Reg.modulus_epochStaleCnt : Reg.modulus .epochStaleCnt = 18446744073709551616 := rfl
@[simp] theorem Reg.modulus_keyMismatchCnt : Reg.modulus .keyMismatchCnt = 18446744073709551616 := rfl
@[simp] theorem Reg.modulus_detours : Reg.modulus .detours = 256 := rfl
@[simp] theorem Reg.modulus_fwdBytes : Reg.modulus .fwdBytes = 18446744073709551616 := rfl
@[simp] theorem Reg.modulus_mailRetrans : Reg.modulus .mailRetrans = 18446744073709551616 := rfl
@[simp] theorem Reg.modulus_mailDrops : Reg.modulus .mailDrops = 18446744073709551616 := rfl
@[simp] theorem Reg.modulus_raccRound : Reg.modulus .raccRound = 4294967296 := rfl
@[simp] theorem Reg.modulus_linkState : Reg.modulus .linkState = 256 := rfl
@[simp] theorem Reg.modulus_linkGen : Reg.modulus .linkGen = 256 := rfl
@[simp] theorem Reg.modulus_linkPeer : Reg.modulus .linkPeer = 4294967296 := rfl
@[simp] theorem Reg.modulus_laneMap : Reg.modulus .laneMap = 256 := rfl
@[simp] theorem Reg.modulus_linkCmd : Reg.modulus .linkCmd = 256 := rfl
@[simp] theorem Reg.modulus_linkGenMax : Reg.modulus .linkGenMax = 256 := rfl
@[simp] theorem Reg.modulus_linkRetries : Reg.modulus .linkRetries = 18446744073709551616 := rfl
@[simp] theorem Reg.modulus_fecCorrected : Reg.modulus .fecCorrected = 18446744073709551616 := rfl
@[simp] theorem Reg.modulus_linkLoad : Reg.modulus .linkLoad = 256 := rfl
@[simp] theorem Reg.modulus_linkSatCycles : Reg.modulus .linkSatCycles = 18446744073709551616 := rfl
@[simp] theorem Reg.modulus_jobEpoch : Reg.modulus .jobEpoch = 65536 := rfl
@[simp] theorem Reg.modulus_retiringEpoch : Reg.modulus .retiringEpoch = 65536 := rfl
@[simp] theorem Reg.modulus_regionCount : Reg.modulus .regionCount = 65536 := rfl
@[simp] theorem Reg.modulus_regionTable : Reg.modulus .regionTable = 115792089237316195423570985008687907853269984665640564039457584007913129639936 := rfl
@[simp] theorem Reg.modulus_collGroups : Reg.modulus .collGroups = 18446744073709551616 := rfl
@[simp] theorem Reg.modulus_collGroupCount : Reg.modulus .collGroupCount = 65536 := rfl
@[simp] theorem Reg.modulus_collGrid : Reg.modulus .collGrid = 4294967296 := rfl
@[simp] theorem Reg.modulus_collRerun : Reg.modulus .collRerun = 256 := rfl
@[simp] theorem Reg.modulus_collOverflowPolicy : Reg.modulus .collOverflowPolicy = 256 := rfl
@[simp] theorem Reg.modulus_collDeadlineBase : Reg.modulus .collDeadlineBase = 4294967296 := rfl
@[simp] theorem Reg.modulus_collInstances : Reg.modulus .collInstances = 18446744073709551616 := rfl
@[simp] theorem Reg.modulus_collAborts : Reg.modulus .collAborts = 18446744073709551616 := rfl
@[simp] theorem Reg.modulus_collDigestFails : Reg.modulus .collDigestFails = 18446744073709551616 := rfl
@[simp] theorem Reg.modulus_collDropped : Reg.modulus .collDropped = 18446744073709551616 := rfl
@[simp] theorem Reg.modulus_collLateDrops : Reg.modulus .collLateDrops = 18446744073709551616 := rfl
@[simp] theorem Reg.modulus_collGateWait : Reg.modulus .collGateWait = 18446744073709551616 := rfl
@[simp] theorem Reg.modulus_collRetainFull : Reg.modulus .collRetainFull = 18446744073709551616 := rfl
@[simp] theorem Reg.modulus_collAbandoned : Reg.modulus .collAbandoned = 18446744073709551616 := rfl
@[simp] theorem Reg.modulus_strict : Reg.modulus .strict = 256 := rfl
@[simp] theorem Reg.modulus_fixedTiming : Reg.modulus .fixedTiming = 256 := rfl
@[simp] theorem Reg.modulus_ftThermalPolicy : Reg.modulus .ftThermalPolicy = 256 := rfl
@[simp] theorem Reg.modulus_detSignature : Reg.modulus .detSignature = 18446744073709551616 := rfl
@[simp] theorem Reg.modulus_detExpect : Reg.modulus .detExpect = 18446744073709551616 := rfl
@[simp] theorem Reg.modulus_digestRing : Reg.modulus .digestRing = 18446744073709551616 := rfl
@[simp] theorem Reg.modulus_tstep : Reg.modulus .tstep = 18446744073709551616 := rfl
@[simp] theorem Reg.modulus_nodeDigest : Reg.modulus .nodeDigest = 18446744073709551616 := rfl
@[simp] theorem Reg.modulus_streamDigests : Reg.modulus .streamDigests = 18446744073709551616 := rfl
@[simp] theorem Reg.modulus_sigMismatches : Reg.modulus .sigMismatches = 18446744073709551616 := rfl
@[simp] theorem Reg.modulus_xwEnable : Reg.modulus .xwEnable = 256 := rfl
@[simp] theorem Reg.modulus_xwPartner : Reg.modulus .xwPartner = 256 := rfl
@[simp] theorem Reg.modulus_xwLag : Reg.modulus .xwLag = 256 := rfl
@[simp] theorem Reg.modulus_xwPolicy : Reg.modulus .xwPolicy = 256 := rfl
@[simp] theorem Reg.modulus_xwLog : Reg.modulus .xwLog = 18446744073709551616 := rfl
@[simp] theorem Reg.modulus_xwLogBytes : Reg.modulus .xwLogBytes = 18446744073709551616 := rfl
@[simp] theorem Reg.modulus_xwState : Reg.modulus .xwState = 256 := rfl
@[simp] theorem Reg.modulus_xwRefuseCause : Reg.modulus .xwRefuseCause = 256 := rfl
@[simp] theorem Reg.modulus_xwRecord : Reg.modulus .xwRecord = 13407807929942597099574024998205846127479365820592393377723561443721764030073546976801874298166903427690031858186486050853753882811946569946433649006084096 := rfl
@[simp] theorem Reg.modulus_xwCompared : Reg.modulus .xwCompared = 18446744073709551616 := rfl
@[simp] theorem Reg.modulus_xwHoldNs : Reg.modulus .xwHoldNs = 18446744073709551616 := rfl
@[simp] theorem Reg.modulus_errorLog : Reg.modulus .errorLog = 13407807929942597099574024998205846127479365820592393377723561443721764030073546976801874298166903427690031858186486050853753882811946569946433649006084096 := rfl
@[simp] theorem Reg.modulus_errorHead : Reg.modulus .errorHead = 18446744073709551616 := rfl
@[simp] theorem Reg.modulus_errorAck : Reg.modulus .errorAck = 18446744073709551616 := rfl
@[simp] theorem Reg.modulus_errorsLost : Reg.modulus .errorsLost = 18446744073709551616 := rfl
@[simp] theorem Reg.modulus_errorCounts : Reg.modulus .errorCounts = 18446744073709551616 := rfl
@[simp] theorem Reg.modulus_peerLossTime : Reg.modulus .peerLossTime = 4294967296 := rfl
@[simp] theorem Reg.modulus_selftestRuns : Reg.modulus .selftestRuns = 18446744073709551616 := rfl
@[simp] theorem Reg.modulus_bridgeState : Reg.modulus .bridgeState = 256 := rfl
@[simp] theorem Reg.modulus_couplerState : Reg.modulus .couplerState = 256 := rfl
@[simp] theorem Reg.modulus_alertCause : Reg.modulus .alertCause = 4294967296 := rfl
@[simp] theorem Reg.modulus_squallState : Reg.modulus .squallState = 256 := rfl
@[simp] theorem Reg.modulus_squallScore : Reg.modulus .squallScore = 4294967296 := rfl
@[simp] theorem Reg.modulus_squallWarn : Reg.modulus .squallWarn = 65536 := rfl
@[simp] theorem Reg.modulus_squallClear : Reg.modulus .squallClear = 65536 := rfl
@[simp] theorem Reg.modulus_squallHalflife : Reg.modulus .squallHalflife = 4294967296 := rfl
@[simp] theorem Reg.modulus_squallWeight : Reg.modulus .squallWeight = 256 := rfl
@[simp] theorem Reg.modulus_squallAllow : Reg.modulus .squallAllow = 65536 := rfl
@[simp] theorem Reg.modulus_squallWarnings : Reg.modulus .squallWarnings = 18446744073709551616 := rfl
@[simp] theorem Reg.modulus_snapList : Reg.modulus .snapList = 18446744073709551616 := rfl
@[simp] theorem Reg.modulus_snapCount : Reg.modulus .snapCount = 65536 := rfl
@[simp] theorem Reg.modulus_snapInterval : Reg.modulus .snapInterval = 4294967296 := rfl
@[simp] theorem Reg.modulus_shardStoreBytes : Reg.modulus .shardStoreBytes = 18446744073709551616 := rfl
@[simp] theorem Reg.modulus_drainEnable : Reg.modulus .drainEnable = 256 := rfl
@[simp] theorem Reg.modulus_drainDeadline : Reg.modulus .drainDeadline = 4294967296 := rfl
@[simp] theorem Reg.modulus_slotInfo : Reg.modulus .slotInfo = 179769313486231590772930519078902473361797697894230657273430081157732675805500963132708477322407536021120113879871393357658789768814416622492847430639474124377767893424865485276302219601246094119453082952085005768838150682342462881473913110540827237163350510684586298239947245938479716304835356329624224137216 := rfl
@[simp] theorem Reg.modulus_slotValid : Reg.modulus .slotValid = 256 := rfl
@[simp] theorem Reg.modulus_slotDrained : Reg.modulus .slotDrained = 256 := rfl
@[simp] theorem Reg.modulus_shardDir : Reg.modulus .shardDir = 13407807929942597099574024998205846127479365820592393377723561443721764030073546976801874298166903427690031858186486050853753882811946569946433649006084096 := rfl
@[simp] theorem Reg.modulus_snapFit : Reg.modulus .snapFit = 4294967296 := rfl
@[simp] theorem Reg.modulus_lastSnapTstep : Reg.modulus .lastSnapTstep = 18446744073709551616 := rfl
@[simp] theorem Reg.modulus_snapsTaken : Reg.modulus .snapsTaken = 18446744073709551616 := rfl
@[simp] theorem Reg.modulus_snapsSkipped : Reg.modulus .snapsSkipped = 18446744073709551616 := rfl
@[simp] theorem Reg.modulus_recoveryCmd : Reg.modulus .recoveryCmd = 340282366920938463463374607431768211456 := rfl
@[simp] theorem Reg.modulus_recoveryState : Reg.modulus .recoveryState = 256 := rfl
@[simp] theorem Reg.modulus_restoredTstep : Reg.modulus .restoredTstep = 18446744073709551616 := rfl
@[simp] theorem Reg.modulus_replayCompared : Reg.modulus .replayCompared = 18446744073709551616 := rfl
@[simp] theorem Reg.modulus_hostLink : Reg.modulus .hostLink = 65536 := rfl
@[simp] theorem Reg.modulus_hostGenMax : Reg.modulus .hostGenMax = 256 := rfl
@[simp] theorem Reg.modulus_intErrorVec : Reg.modulus .intErrorVec = 65536 := rfl
@[simp] theorem Reg.modulus_intJobVec : Reg.modulus .intJobVec = 65536 := rfl
@[simp] theorem Reg.modulus_hostPrincipals : Reg.modulus .hostPrincipals = 13407807929942597099574024998205846127479365820592393377723561443721764030073546976801874298166903427690031858186486050853753882811946569946433649006084096 := rfl
@[simp] theorem Reg.modulus_hostRefused : Reg.modulus .hostRefused = 18446744073709551616 := rfl
@[simp] theorem Reg.modulus_hostHeldLines : Reg.modulus .hostHeldLines = 4294967296 := rfl
@[simp] theorem Reg.modulus_backInvalidates : Reg.modulus .backInvalidates = 18446744073709551616 := rfl
@[simp] theorem Reg.modulus_notifyDropped : Reg.modulus .notifyDropped = 18446744073709551616 := rfl
@[simp] theorem Reg.modulus_sqBase : Reg.modulus .sqBase = 18446744073709551616 := rfl
@[simp] theorem Reg.modulus_sqSize : Reg.modulus .sqSize = 256 := rfl
@[simp] theorem Reg.modulus_cqBase : Reg.modulus .cqBase = 18446744073709551616 := rfl
@[simp] theorem Reg.modulus_cqSize : Reg.modulus .cqSize = 256 := rfl
@[simp] theorem Reg.modulus_cqVector : Reg.modulus .cqVector = 65536 := rfl
@[simp] theorem Reg.modulus_sqLevel : Reg.modulus .sqLevel = 256 := rfl
@[simp] theorem Reg.modulus_sqEnable : Reg.modulus .sqEnable = 256 := rfl
@[simp] theorem Reg.modulus_sqState : Reg.modulus .sqState = 256 := rfl
@[simp] theorem Reg.modulus_partNumber : Reg.modulus .partNumber = 126238304966058622268417487065116999845484776053576109500509161826268184136202698801551568013761380717534054534851164138648904527931605160527688095259563605939964364716019515983399209962459578542172100149937763938581219604072733422507180056009672540900709554109516816573779593326332288314873251559077853068444977864803391962580800682760017849589281937637993445539366428356761821065267423102149447628375691862210717202025241630303118559188678304314076943801692528246980959705901641444238894928620825482303431806955690226308773426829503900930529395181208739591967195841536053143145775307050594328881077553168201547776 := rfl
@[simp] theorem Reg.modulus_serial : Reg.modulus .serial = 126238304966058622268417487065116999845484776053576109500509161826268184136202698801551568013761380717534054534851164138648904527931605160527688095259563605939964364716019515983399209962459578542172100149937763938581219604072733422507180056009672540900709554109516816573779593326332288314873251559077853068444977864803391962580800682760017849589281937637993445539366428356761821065267423102149447628375691862210717202025241630303118559188678304314076943801692528246980959705901641444238894928620825482303431806955690226308773426829503900930529395181208739591967195841536053143145775307050594328881077553168201547776 := rfl
@[simp] theorem Reg.modulus_stepping : Reg.modulus .stepping = 65536 := rfl
@[simp] theorem Reg.modulus_familyMember : Reg.modulus .familyMember = 65536 := rfl
@[simp] theorem Reg.modulus_pciIds : Reg.modulus .pciIds = 4294967296 := rfl
@[simp] theorem Reg.modulus_fwImage : Reg.modulus .fwImage = 256 := rfl
@[simp] theorem Reg.modulus_fwVersion : Reg.modulus .fwVersion = 4294967296 := rfl
@[simp] theorem Reg.modulus_deviceCertDigest : Reg.modulus .deviceCertDigest = 39402006196394479212279040100143613805079739270465446667948293404245721771497210611414266254884915640806627990306816 := rfl
@[simp] theorem Reg.modulus_mgmtMac : Reg.modulus .mgmtMac = 18446744073709551616 := rfl
@[simp] theorem Reg.modulus_mgmtIpv4 : Reg.modulus .mgmtIpv4 = 4294967296 := rfl
@[simp] theorem Reg.modulus_mgmtNetmask : Reg.modulus .mgmtNetmask = 4294967296 := rfl
@[simp] theorem Reg.modulus_mgmtGateway : Reg.modulus .mgmtGateway = 4294967296 := rfl
@[simp] theorem Reg.modulus_mgmtLink : Reg.modulus .mgmtLink = 256 := rfl
@[simp] theorem Reg.modulus_jp1Enable : Reg.modulus .jp1Enable = 256 := rfl
@[simp] theorem Reg.modulus_i3cOpenLevel : Reg.modulus .i3cOpenLevel = 256 := rfl
@[simp] theorem Reg.modulus_sidebandPrincipals : Reg.modulus .sidebandPrincipals = 13407807929942597099574024998205846127479365820592393377723561443721764030073546976801874298166903427690031858186486050853753882811946569946433649006084096 := rfl
@[simp] theorem Reg.modulus_serviceRoot : Reg.modulus .serviceRoot = 39402006196394479212279040100143613805079739270465446667948293404245721771497210611414266254884915640806627990306816 := rfl
@[simp] theorem Reg.modulus_subscriptions : Reg.modulus .subscriptions = 340282366920938463463374607431768211456 := rfl
@[simp] theorem Reg.modulus_dictRefused : Reg.modulus .dictRefused = 18446744073709551616 := rfl
@[simp] theorem Reg.modulus_dictLate : Reg.modulus .dictLate = 18446744073709551616 := rfl
@[simp] theorem Reg.modulus_ptpEnable : Reg.modulus .ptpEnable = 256 := rfl
@[simp] theorem Reg.modulus_ptpDomain : Reg.modulus .ptpDomain = 256 := rfl
@[simp] theorem Reg.modulus_ppsMode : Reg.modulus .ppsMode = 256 := rfl
@[simp] theorem Reg.modulus_taiState : Reg.modulus .taiState = 256 := rfl
@[simp] theorem Reg.modulus_taiNs : Reg.modulus .taiNs = 18446744073709551616 := rfl
@[simp] theorem Reg.modulus_taiSet : Reg.modulus .taiSet = 18446744073709551616 := rfl
@[simp] theorem Reg.modulus_taiOffsetErr : Reg.modulus .taiOffsetErr = 4294967296 := rfl
@[simp] theorem Reg.modulus_utcOffset : Reg.modulus .utcOffset = 4294967296 := rfl
@[simp] theorem Reg.modulus_ptpMaster : Reg.modulus .ptpMaster = 18446744073709551616 := rfl
@[simp] theorem Reg.modulus_ppsRejected : Reg.modulus .ppsRejected = 18446744073709551616 := rfl
@[simp] theorem Reg.modulus_auditLog : Reg.modulus .auditLog = 13407807929942597099574024998205846127479365820592393377723561443721764030073546976801874298166903427690031858186486050853753882811946569946433649006084096 := rfl
@[simp] theorem Reg.modulus_auditHead : Reg.modulus .auditHead = 18446744073709551616 := rfl
@[simp] theorem Reg.modulus_auditAcked : Reg.modulus .auditAcked = 18446744073709551616 := rfl
@[simp] theorem Reg.modulus_auditMirror : Reg.modulus .auditMirror = 13407807929942597099574024998205846127479365820592393377723561443721764030073546976801874298166903427690031858186486050853753882811946569946433649006084096 := rfl
@[simp] theorem Reg.modulus_auditMirrorHead : Reg.modulus .auditMirrorHead = 18446744073709551616 := rfl
@[simp] theorem Reg.modulus_auditHostHold : Reg.modulus .auditHostHold = 256 := rfl
@[simp] theorem Reg.modulus_auditAckHost : Reg.modulus .auditAckHost = 18446744073709551616 := rfl
@[simp] theorem Reg.modulus_auditHoldTimeout : Reg.modulus .auditHoldTimeout = 4294967296 := rfl
@[simp] theorem Reg.modulus_auditLost : Reg.modulus .auditLost = 18446744073709551616 := rfl
@[simp] theorem Reg.modulus_auditRefused : Reg.modulus .auditRefused = 18446744073709551616 := rfl
@[simp] theorem Reg.modulus_auditedState : Reg.modulus .auditedState = 4294967296 := rfl
@[simp] theorem Reg.modulus_sealState : Reg.modulus .sealState = 256 := rfl
@[simp] theorem Reg.modulus_periphEn : Reg.modulus .periphEn = 256 := rfl
@[simp] theorem Reg.modulus_xtalState : Reg.modulus .xtalState = 256 := rfl
@[simp] theorem Reg.modulus_domainResets : Reg.modulus .domainResets = 4294967296 := rfl
@[simp] theorem Reg.modulus_clkSel : Reg.modulus .clkSel = 256 := rfl
@[simp] theorem Reg.modulus_clkReady : Reg.modulus .clkReady = 256 := rfl
@[simp] theorem Reg.modulus_clkCompat : Reg.modulus .clkCompat = 256 := rfl
@[simp] theorem Reg.modulus_clkMhz : Reg.modulus .clkMhz = 65536 := rfl
@[simp] theorem Reg.modulus_clkPllSpare : Reg.modulus .clkPllSpare = 256 := rfl
@[simp] theorem Reg.modulus_powerCap : Reg.modulus .powerCap = 65536 := rfl
@[simp] theorem Reg.modulus_cclkMax : Reg.modulus .cclkMax = 65536 := rfl
@[simp] theorem Reg.modulus_pclkMax : Reg.modulus .pclkMax = 65536 := rfl
@[simp] theorem Reg.modulus_tjThrottle : Reg.modulus .tjThrottle = 256 := rfl
@[simp] theorem Reg.modulus_pkgPower : Reg.modulus .pkgPower = 4294967296 := rfl
@[simp] theorem Reg.modulus_vinMainMv : Reg.modulus .vinMainMv = 65536 := rfl
@[simp] theorem Reg.modulus_vinMainA : Reg.modulus .vinMainA = 65536 := rfl
@[simp] theorem Reg.modulus_throttleState : Reg.modulus .throttleState = 256 := rfl
@[simp] theorem Reg.modulus_throttleNs : Reg.modulus .throttleNs = 18446744073709551616 := rfl
@[simp] theorem Reg.modulus_temps : Reg.modulus .temps = 65536 := rfl
@[simp] theorem Reg.modulus_coolFlowBoard : Reg.modulus .coolFlowBoard = 65536 := rfl
@[simp] theorem Reg.modulus_coolFlow : Reg.modulus .coolFlow = 65536 := rfl
@[simp] theorem Reg.modulus_coolantState : Reg.modulus .coolantState = 256 := rfl
@[simp] theorem Reg.modulus_lastTrip : Reg.modulus .lastTrip = 256 := rfl
@[simp] theorem Reg.modulus_resetCause : Reg.modulus .resetCause = 256 := rfl
@[simp] theorem Reg.modulus_freezeState : Reg.modulus .freezeState = 256 := rfl
@[simp] theorem Reg.modulus_freezeSrcEn : Reg.modulus .freezeSrcEn = 256 := rfl
@[simp] theorem Reg.modulus_freezeErrMask : Reg.modulus .freezeErrMask = 4294967296 := rfl
@[simp] theorem Reg.modulus_freezeCmd : Reg.modulus .freezeCmd = 256 := rfl
@[simp] theorem Reg.modulus_freezeHold : Reg.modulus .freezeHold = 4294967296 := rfl
@[simp] theorem Reg.modulus_freezeRecord : Reg.modulus .freezeRecord = 115792089237316195423570985008687907853269984665640564039457584007913129639936 := rfl
@[simp] theorem Reg.modulus_freezeMissed : Reg.modulus .freezeMissed = 18446744073709551616 := rfl
@[simp] theorem Reg.modulus_freezeDumpAddr : Reg.modulus .freezeDumpAddr = 18446744073709551616 := rfl
@[simp] theorem Reg.modulus_freezeDumpBytes : Reg.modulus .freezeDumpBytes = 4294967296 := rfl
@[simp] theorem Reg.modulus_levelSat : Reg.modulus .levelSat = 256 := rfl
@[simp] theorem Reg.modulus_latHist : Reg.modulus .latHist = 4294967296 := rfl
@[simp] theorem Reg.modulus_latSample : Reg.modulus .latSample = 256 := rfl
@[simp] theorem Reg.modulus_latClear : Reg.modulus .latClear = 256 := rfl
@[simp] theorem Reg.modulus_errorRate : Reg.modulus .errorRate = 4294967296 := rfl
@[simp] theorem Reg.modulus_traceRing : Reg.modulus .traceRing = 18446744073709551616 := rfl
@[simp] theorem Reg.modulus_traceRingBytes : Reg.modulus .traceRingBytes = 4294967296 := rfl
@[simp] theorem Reg.modulus_traceCount : Reg.modulus .traceCount = 18446744073709551616 := rfl
@[simp] theorem Reg.modulus_traceDropped : Reg.modulus .traceDropped = 18446744073709551616 := rfl
@[simp] theorem Reg.modulus_aonAbsent : Reg.modulus .aonAbsent = 256 := rfl
@[simp] theorem Reg.modulus_vinMainIn : Reg.modulus .vinMainIn = 256 := rfl
@[simp] theorem Reg.modulus_stackRailsIn : Reg.modulus .stackRailsIn = 256 := rfl
@[simp] theorem Reg.modulus_pwrOk : Reg.modulus .pwrOk = 256 := rfl
@[simp] theorem Reg.modulus_rstHeld : Reg.modulus .rstHeld = 256 := rfl
@[simp] theorem Reg.modulus_inReset : Reg.modulus .inReset = 256 := rfl
@[simp] theorem Reg.modulus_warmWaiting : Reg.modulus .warmWaiting = 256 := rfl
@[simp] theorem Reg.modulus_thermTrip : Reg.modulus .thermTrip = 256 := rfl
@[simp] theorem Reg.modulus_mclkRuns : Reg.modulus .mclkRuns = 256 := rfl
@[simp] theorem Reg.modulus_mgmtSilent : Reg.modulus .mgmtSilent = 256 := rfl
@[simp] theorem Reg.modulus_stageStarted : Reg.modulus .stageStarted = 256 := rfl
@[simp] theorem Reg.modulus_clkSwitching : Reg.modulus .clkSwitching = 256 := rfl
@[simp] theorem Reg.modulus_arrayThrottle : Reg.modulus .arrayThrottle = 256 := rfl
@[simp] theorem Reg.modulus_throttleRecord : Reg.modulus .throttleRecord = 18446744073709551616 := rfl
@[simp] theorem Reg.modulus_throttleFrom : Reg.modulus .throttleFrom = 18446744073709551616 := rfl
@[simp] theorem Reg.modulus_steppedDown : Reg.modulus .steppedDown = 256 := rfl
@[simp] theorem Reg.modulus_sensorExcluded : Reg.modulus .sensorExcluded = 256 := rfl
@[simp] theorem Reg.modulus_elementHot : Reg.modulus .elementHot = 256 := rfl
@[simp] theorem Reg.modulus_floorAt : Reg.modulus .floorAt = 18446744073709551616 := rfl
@[simp] theorem Reg.modulus_powerRing : Reg.modulus .powerRing = 4294967296 := rfl
@[simp] theorem Reg.modulus_powerSamples : Reg.modulus .powerSamples = 18446744073709551616 := rfl
@[simp] theorem Reg.modulus_coolFlowAt : Reg.modulus .coolFlowAt = 18446744073709551616 := rfl
@[simp] theorem Reg.modulus_taiOffset : Reg.modulus .taiOffset = 18446744073709551616 := rfl
@[simp] theorem Reg.modulus_squallScore16 : Reg.modulus .squallScore16 = 18446744073709551616 := rfl
@[simp] theorem Reg.modulus_squallAt : Reg.modulus .squallAt = 18446744073709551616 := rfl
@[simp] theorem Reg.modulus_squallAllowStack : Reg.modulus .squallAllowStack = 4294967296 := rfl
@[simp] theorem Reg.modulus_squallAllowLink : Reg.modulus .squallAllowLink = 4294967296 := rfl
@[simp] theorem Reg.modulus_ratePast : Reg.modulus .ratePast = 4294967296 := rfl
@[simp] theorem Reg.modulus_freezeGen : Reg.modulus .freezeGen = 4294967296 := rfl
@[simp] theorem Reg.modulus_dumpWaits : Reg.modulus .dumpWaits = 256 := rfl
@[simp] theorem Reg.modulus_auditRefusing : Reg.modulus .auditRefusing = 256 := rfl
@[simp] theorem Reg.modulus_hostHoldAcked : Reg.modulus .hostHoldAcked = 18446744073709551616 := rfl
@[simp] theorem Reg.modulus_lastAlertSeq : Reg.modulus .lastAlertSeq = 18446744073709551616 := rfl
@[simp] theorem Reg.modulus_jobRunning : Reg.modulus .jobRunning = 256 := rfl
@[simp] theorem Reg.modulus_startPending : Reg.modulus .startPending = 256 := rfl
@[simp] theorem Reg.modulus_teardownPending : Reg.modulus .teardownPending = 256 := rfl
@[simp] theorem Reg.modulus_serviceWork : Reg.modulus .serviceWork = 65536 := rfl
@[simp] theorem Reg.modulus_rosterLlmAtLoad : Reg.modulus .rosterLlmAtLoad = 65536 := rfl
@[simp] theorem Reg.modulus_posLatch : Reg.modulus .posLatch = 256 := rfl
@[simp] theorem Reg.modulus_pllMhz : Reg.modulus .pllMhz = 65536 := rfl
@[simp] theorem Reg.modulus_pllFailed : Reg.modulus .pllFailed = 256 := rfl
@[simp] theorem Reg.modulus_regulatorsOff : Reg.modulus .regulatorsOff = 256 := rfl
@[simp] theorem Reg.modulus_thermalFloor : Reg.modulus .thermalFloor = 256 := rfl
@[simp] theorem Reg.modulus_stage5Waits : Reg.modulus .stage5Waits = 256 := rfl
@[simp] theorem Reg.modulus_lullHeld : Reg.modulus .lullHeld = 256 := rfl
@[simp] theorem Reg.modulus_fusePulses : Reg.modulus .fusePulses = 4294967296 := rfl
@[simp] theorem Reg.modulus_linkWasUp : Reg.modulus .linkWasUp = 4294967296 := rfl
@[simp] theorem Reg.modulus_svxrerr : Reg.modulus .svxrerr = 4294967296 := rfl
@[simp] theorem Reg.modulus_linkQuiet : Reg.modulus .linkQuiet = 4294967296 := rfl
@[simp] theorem Reg.modulus_flitSeq : Reg.modulus .flitSeq = 65536 := rfl
@[simp] theorem Reg.modulus_raccDone : Reg.modulus .raccDone = 4294967296 := rfl
@[simp] theorem Reg.modulus_mailTail : Reg.modulus .mailTail = 4294967296 := rfl
@[simp] theorem Reg.modulus_mailDone : Reg.modulus .mailDone = 18446744073709551616 := rfl
@[simp] theorem Reg.modulus_xwReceived : Reg.modulus .xwReceived = 18446744073709551616 := rfl
@[simp] theorem Reg.modulus_fenceJoined : Reg.modulus .fenceJoined = 256 := rfl
@[simp] theorem Reg.modulus_fenceHeld : Reg.modulus .fenceHeld = 4294967296 := rfl
@[simp] theorem Reg.modulus_fenceDone : Reg.modulus .fenceDone = 256 := rfl
@[simp] theorem Reg.modulus_hartTurn : Reg.modulus .hartTurn = 256 := rfl
@[simp] theorem Reg.modulus_coreFailed : Reg.modulus .coreFailed = 256 := rfl
@[simp] theorem Reg.modulus_cqHead : Reg.modulus .cqHead = 4294967296 := rfl
@[simp] theorem Reg.modulus_cqTail : Reg.modulus .cqTail = 4294967296 := rfl
@[simp] theorem Reg.modulus_cqWraps : Reg.modulus .cqWraps = 18446744073709551616 := rfl
@[simp] theorem Reg.modulus_sqHead : Reg.modulus .sqHead = 4294967296 := rfl
@[simp] theorem Reg.modulus_sqTail : Reg.modulus .sqTail = 4294967296 := rfl
@[simp] theorem Reg.modulus_sliceMap : Reg.modulus .sliceMap = 256 := rfl
@[simp] theorem Reg.modulus_wrapper : Reg.modulus .wrapper = 4294967296 := rfl
@[simp] theorem Reg.modulus_snapJoined : Reg.modulus .snapJoined = 256 := rfl
@[simp] theorem Reg.modulus_snapWarn : Reg.modulus .snapWarn = 256 := rfl
@[simp] theorem Reg.modulus_snapFits : Reg.modulus .snapFits = 256 := rfl
@[simp] theorem Reg.modulus_snapEnded : Reg.modulus .snapEnded = 256 := rfl
@[simp] theorem Reg.modulus_snapGen : Reg.modulus .snapGen = 18446744073709551616 := rfl
@[simp] theorem Reg.modulus_psRefused : Reg.modulus .psRefused = 18446744073709551616 := rfl
@[simp] theorem Reg.modulus_ctxOf : Reg.modulus .ctxOf = 65536 := rfl
@[simp] theorem Reg.modulus_taiSlew : Reg.modulus .taiSlew = 18446744073709551616 := rfl
@[simp] theorem Reg.modulus_taiSlewAt : Reg.modulus .taiSlewAt = 18446744073709551616 := rfl
@[simp] theorem Reg.modulus_taiWasLocked : Reg.modulus .taiWasLocked = 256 := rfl
@[simp] theorem Reg.modulus_ipv4 : Reg.modulus .ipv4 = 4294967296 := rfl
@[simp] theorem Reg.modulus_ipv4Mask : Reg.modulus .ipv4Mask = 4294967296 := rfl
@[simp] theorem Reg.modulus_ipv4Gateway : Reg.modulus .ipv4Gateway = 4294967296 := rfl
@[simp] theorem Reg.modulus_initEnded : Reg.modulus .initEnded = 256 := rfl
@[simp] theorem Reg.modulus_winCmd : Reg.modulus .winCmd = 256 := rfl
@[simp] theorem Reg.modulus_winStatus : Reg.modulus .winStatus = 256 := rfl
@[simp] theorem Reg.modulus_winError : Reg.modulus .winError = 256 := rfl
@[simp] theorem Reg.modulus_winAddr : Reg.modulus .winAddr = 4294967296 := rfl
@[simp] theorem Reg.modulus_winOffset : Reg.modulus .winOffset = 4294967296 := rfl
@[simp] theorem Reg.modulus_winLen : Reg.modulus .winLen = 4294967296 := rfl
@[simp] theorem Reg.modulus_winSeq : Reg.modulus .winSeq = 18446744073709551616 := rfl
@[simp] theorem Reg.modulus_winData : Reg.modulus .winData = 256 := rfl

end Sys2Proof.Machine
end

