-- ==== Sys2Proof/Laws/Observe.lean ====
section
/-! SUPPORT. What a register reads as after the operations that log: a change by the package, an audit entry, an error
record, an answer of the dictionary. -/

namespace Sys2Proof.Machine

variable {s u : State} {rs : List Reg}

theorem RegsKept.refl : RegsKept rs s s := fun _ _ _ => rfl

theorem RegsKept.trans {t : State} (h : RegsKept rs s u) (h' : RegsKept rs u t) : RegsKept rs s t :=
  fun q hq j => (h' q hq j).trans (h q hq j)

theorem RegsKept.of_regs {t : State} (e : t.regs = u.regs) (h : RegsKept rs s u) : RegsKept rs s t :=
  fun q hq j => Eq.trans (by simp only [State.reg, e]) (h q hq j)

theorem RegsKept.mono {rs' : List Reg} (hs : ∀ r ∈ rs, r ∈ rs') (h : RegsKept rs s u) : RegsKept rs' s u :=
  fun q hq j => h q (fun x => hq (hs q x)) j

theorem RegsKept.setReg {r : Reg} {i v : Nat} (hr : r ∈ rs) (h : RegsKept rs s u) : RegsKept rs s (u.setReg r i v) :=
  fun q hq j => by
    have hne : r ≠ q := by rintro rfl; exact hq hr
    exact (State.reg_setReg_ne u hne i j v).trans (h q hq j)

theorem RegsKept.addReg {r : Reg} {i n : Nat} (hr : r ∈ rs) (h : RegsKept rs s u) : RegsKept rs s (u.addReg r i n) := h.setReg hr

theorem RegsKept.setRegs {r : Reg} {i : Nat} {vs : List Nat} (hr : r ∈ rs) (h : RegsKept rs s u) : RegsKept rs s (u.setRegs r i vs) :=
  fun q hq j => by
    have hne : r ≠ q := by rintro rfl; exact hq hr
    exact (State.reg_setRegs_ne u hne i j vs).trans (h q hq j)

theorem RegsKept.setBytes {r : Reg} {i : Nat} {bs : List Byte} (hr : r ∈ rs) (h : RegsKept rs s u) : RegsKept rs s (u.setBytes r i bs) :=
  h.setRegs hr

theorem RegsKept.send {o : Output} (h : RegsKept rs s u) : RegsKept rs s (u.send o) := h

theorem RegsKept.putBytes {a : Nat} {bs : List Byte} (h : RegsKept rs s u) : RegsKept rs s (u.putBytes a bs) := by
  induction bs generalizing u a with
  | nil => exact h
  | cons b bs ih => exact ih h

theorem RegsKept.ite {c : Prop} [Decidable c] {a b : State} (ha : RegsKept rs s a) (hb : RegsKept rs s b) :
    RegsKept rs s (if c then a else b) := by
  split
  · exact ha
  · exact hb

theorem RegsKept.foldl {A : Type} {f : State → A → State} {l : List A} (h : RegsKept rs s u)
    (hf : ∀ v x, RegsKept rs s v → RegsKept rs s (f v x)) : RegsKept rs s (l.foldl f u) := by
  induction l generalizing u with
  | nil => exact h
  | cons x l ih => exact ih (hf u x h)

theorem RegsKept.upd {rs : List Reg} {s u : State} (pending : List Instr) (now : Nat) (free : Nat) (deferred : List
    ((Reg × Nat) × Nat)) (mem : List Host.Cell) (poisonAtoms : List Nat) (poisonWords : List Nat) (bays : Store Nat
    Bay) (tests : List SelfTest) (copies : List ModelCopy) (tailwind : List TailwindCopy) (recent : Store Nat Nat)
    (seqOut : Store Nat Nat) (seqIn : Store Nat Nat) (early : List (Nat × Packet)) (requests : List Request) (retry :
    List LinkFlits) (linkQueue : List LinkPacket) (flitNext : Store Nat Nat) (stuck : List (Nat × Packet)) (answered :
    List Packet) (refusals : List (Nat × Nat)) (hartReplies : List HartReply) (harts : Store Nat Hart) (stores : List
    HartStore) (reservations : List (Nat × Nat)) (pclks : Nat × Nat) (regions : List Region) (staged : List Staged)
    (closes : List (Nat × Nat)) (roundsEnded : List Nat) (raccIssue : Store Nat Nat) (fences : List (Nat × Nat))
    (peerLinks : Store Nat Nat) (mails : List Mail) (mailNext : Store Nat Nat) (mailIn : List MailIn) (transit : List
    Packet) (colls : List Coll) (collDone : List (CollId × Bool)) (collHeld : List CollHeld) (chans : Store Nat
    Channel) (fills : List Nat) (narrow : List Narrow) (llm : Store Nat Nat) (corrections : List (Nat × Nat))
    (chanQueue : List (Nat × ChanReq)) (chanStalled : List (Nat × ChanReq)) (narrowHeld : List Narrow) (sliceHeld :
    List (Nat × SliceReq)) (merging : List (Nat × List (Nat × Nat))) (moved : List Nat) (migrated : Nat) (spareMarks :
    List SpareMark) (remaps : List Remap) (remapping : List (Nat × Nat)) (mapoutWaits : List Nat) (journal : Store Nat
    Nat) (pulses : List Pulse) (softPpr : List (Nat × Nat)) (segments : Store Nat Nat) (slotA : Slot) (slotB : Slot)
    (shards : List Shard) (drains : List Drain) (recovery : Option Recovery) (jobEpochs : List Nat) (kept : List (Nat
    × Nat)) (keptFor : List (Nat × Nat × Nat)) (hostLines : List Nat) (waiting : List (Nat × List Byte)) (xwMsg :
    Option XwPairing) (xwOwn : List XwStep) (xwTheirs : List (Nat × Nat)) (xwStreams : Option (Nat × List (Nat ×
    Nat))) (xwDiff : Option XwDiff) (rung : List (Nat × List Byte)) (cmds : List HostCmd) (cqHeld : List Completion)
    (errorLog : List ErrorRecord) (squallEvents : Store Nat (Nat × Nat)) (audit : List AuditEntry) (mirror : List
    AuditEntry) (sessions : List Session) (assemblies : List Assembly) (answers : List Answer) (subs : List
    Subscription) (frozen : Option SetView) (late : List (Nat × SetView)) (out : List Output) (h : RegsKept rs s u) :
    RegsKept rs s (State.mk pending now free u.regs deferred mem poisonAtoms poisonWords bays tests copies tailwind
    recent seqOut seqIn early requests retry linkQueue flitNext stuck answered refusals hartReplies harts stores
    reservations pclks regions staged closes roundsEnded raccIssue fences peerLinks mails mailNext mailIn transit
    colls collDone collHeld chans fills narrow llm corrections chanQueue chanStalled narrowHeld sliceHeld merging
    moved migrated spareMarks remaps remapping mapoutWaits journal pulses softPpr segments slotA slotB shards drains
    recovery jobEpochs kept keptFor hostLines waiting xwMsg xwOwn xwTheirs xwStreams xwDiff rung cmds cqHeld errorLog
    squallEvents audit mirror sessions assemblies answers subs frozen late out) := h

@[simp] theorem RegsKept.upd_iff {rs : List Reg} {s u : State} (pending : List Instr) (now : Nat) (free : Nat)
    (deferred : List ((Reg × Nat) × Nat)) (mem : List Host.Cell) (poisonAtoms : List Nat) (poisonWords : List Nat)
    (bays : Store Nat Bay) (tests : List SelfTest) (copies : List ModelCopy) (tailwind : List TailwindCopy) (recent :
    Store Nat Nat) (seqOut : Store Nat Nat) (seqIn : Store Nat Nat) (early : List (Nat × Packet)) (requests : List
    Request) (retry : List LinkFlits) (linkQueue : List LinkPacket) (flitNext : Store Nat Nat) (stuck : List (Nat ×
    Packet)) (answered : List Packet) (refusals : List (Nat × Nat)) (hartReplies : List HartReply) (harts : Store Nat
    Hart) (stores : List HartStore) (reservations : List (Nat × Nat)) (pclks : Nat × Nat) (regions : List Region)
    (staged : List Staged) (closes : List (Nat × Nat)) (roundsEnded : List Nat) (raccIssue : Store Nat Nat) (fences :
    List (Nat × Nat)) (peerLinks : Store Nat Nat) (mails : List Mail) (mailNext : Store Nat Nat) (mailIn : List
    MailIn) (transit : List Packet) (colls : List Coll) (collDone : List (CollId × Bool)) (collHeld : List CollHeld)
    (chans : Store Nat Channel) (fills : List Nat) (narrow : List Narrow) (llm : Store Nat Nat) (corrections : List
    (Nat × Nat)) (chanQueue : List (Nat × ChanReq)) (chanStalled : List (Nat × ChanReq)) (narrowHeld : List Narrow)
    (sliceHeld : List (Nat × SliceReq)) (merging : List (Nat × List (Nat × Nat))) (moved : List Nat) (migrated : Nat)
    (spareMarks : List SpareMark) (remaps : List Remap) (remapping : List (Nat × Nat)) (mapoutWaits : List Nat)
    (journal : Store Nat Nat) (pulses : List Pulse) (softPpr : List (Nat × Nat)) (segments : Store Nat Nat) (slotA :
    Slot) (slotB : Slot) (shards : List Shard) (drains : List Drain) (recovery : Option Recovery) (jobEpochs : List
    Nat) (kept : List (Nat × Nat)) (keptFor : List (Nat × Nat × Nat)) (hostLines : List Nat) (waiting : List (Nat ×
    List Byte)) (xwMsg : Option XwPairing) (xwOwn : List XwStep) (xwTheirs : List (Nat × Nat)) (xwStreams : Option
    (Nat × List (Nat × Nat))) (xwDiff : Option XwDiff) (rung : List (Nat × List Byte)) (cmds : List HostCmd) (cqHeld :
    List Completion) (errorLog : List ErrorRecord) (squallEvents : Store Nat (Nat × Nat)) (audit : List AuditEntry)
    (mirror : List AuditEntry) (sessions : List Session) (assemblies : List Assembly) (answers : List Answer) (subs :
    List Subscription) (frozen : Option SetView) (late : List (Nat × SetView)) (out : List Output) : RegsKept rs s
    (State.mk pending now free u.regs deferred mem poisonAtoms poisonWords bays tests copies tailwind recent seqOut
    seqIn early requests retry linkQueue flitNext stuck answered refusals hartReplies harts stores reservations pclks
    regions staged closes roundsEnded raccIssue fences peerLinks mails mailNext mailIn transit colls collDone collHeld
    chans fills narrow llm corrections chanQueue chanStalled narrowHeld sliceHeld merging moved migrated spareMarks
    remaps remapping mapoutWaits journal pulses softPpr segments slotA slotB shards drains recovery jobEpochs kept
    keptFor hostLines waiting xwMsg xwOwn xwTheirs xwStreams xwDiff rung cmds cqHeld errorLog squallEvents audit
    mirror sessions assemblies answers subs frozen late out) ↔ RegsKept rs s u := Iff.rfl

theorem RegsKept.sendEvents {who : Requester} {seq : Nat} (h : RegsKept rs s u) : RegsKept rs s (u.sendEvents who seq) :=
  RegsKept.foldl h fun _ _ hv => hv.send

theorem RegsKept.pumpAudit (h : RegsKept rs s u) : RegsKept rs s u.pumpAudit := by
  unfold State.pumpAudit
  dsimp only
  split
  · exact h
  · refine RegsKept.of_regs rfl (RegsKept.foldl h fun v x hv => ?_)
    exact RegsKept.ite hv.sendEvents hv

/-- An audit entry moves only the head and the count of lost entries. -/
theorem RegsKept.appendAudit {o g p r f : Nat} {a b : List Byte} (h1 : Reg.auditHead ∈ rs) (h2 : Reg.auditLost ∈ rs)
    (h : RegsKept rs s u) : RegsKept rs s (u.appendAudit o g p r f a b) := by
  unfold State.appendAudit
  dsimp only
  refine RegsKept.pumpAudit (RegsKept.ite (RegsKept.addReg h2 (RegsKept.setReg h1 ?_)) (RegsKept.setReg h1 ?_)) <;> exact h

theorem RegsKept.auditInternal {o r : Nat} {a b : List Byte} (h1 : Reg.auditHead ∈ rs) (h2 : Reg.auditLost ∈ rs)
    (h : RegsKept rs s u) : RegsKept rs s (u.auditInternal o r a b) := RegsKept.appendAudit h1 h2 h

theorem RegsKept.change {r : Reg} {i v : Nat} (hr : r ∈ rs) (h1 : Reg.auditHead ∈ rs) (h2 : Reg.auditLost ∈ rs)
    (h : RegsKept rs s u) : RegsKept rs s (u.change r i v) := by
  unfold State.change
  dsimp only
  exact RegsKept.ite h (RegsKept.ite (RegsKept.auditInternal h1 h2 (h.setReg hr)) (h.setReg hr))

theorem RegsKept.changeAll {r : Reg} {i : Nat} {vs : List Nat} (hr : r ∈ rs) (h1 : Reg.auditHead ∈ rs) (h2 : Reg.auditLost ∈ rs)
    (h : RegsKept rs s u) : RegsKept rs s (u.changeAll r i vs) := by
  unfold State.changeAll
  dsimp only
  exact RegsKept.ite (RegsKept.auditInternal h1 h2 (h.setRegs hr)) (h.setRegs hr)

/-! The same as equations, for `simp`. -/

@[simp] theorem RegsKept.refl_iff : RegsKept rs s s ↔ True := ⟨fun _ => trivial, fun _ => RegsKept.refl⟩

theorem RegsKept.trans_iff {t : State} (h : RegsKept rs u t) : RegsKept rs s t ↔ RegsKept rs s u :=
  ⟨fun x => RegsKept.trans x fun q hq j => (h q hq j).symm, fun x => RegsKept.trans x h⟩

@[simp] theorem RegsKept.setReg_iff {r : Reg} {i v : Nat} (hr : r ∈ rs) :
    RegsKept rs s (u.setReg r i v) ↔ RegsKept rs s u := trans_iff (RegsKept.setReg hr RegsKept.refl)

@[simp] theorem RegsKept.addReg_iff {r : Reg} {i v : Nat} (hr : r ∈ rs) :
    RegsKept rs s (u.addReg r i v) ↔ RegsKept rs s u := trans_iff (RegsKept.setReg hr RegsKept.refl)

@[simp] theorem RegsKept.change_iff {r : Reg} {i v : Nat} (hr : r ∈ rs) (h1 : Reg.auditHead ∈ rs)
    (h2 : Reg.auditLost ∈ rs) : RegsKept rs s (u.change r i v) ↔ RegsKept rs s u :=
  trans_iff (RegsKept.change hr h1 h2 RegsKept.refl)

@[simp] theorem RegsKept.auditInternal_iff {o r : Nat} {a b : List Byte} (h1 : Reg.auditHead ∈ rs)
    (h2 : Reg.auditLost ∈ rs) : RegsKept rs s (u.auditInternal o r a b) ↔ RegsKept rs s u :=
  trans_iff (RegsKept.auditInternal h1 h2 RegsKept.refl)

@[simp] theorem RegsKept.send_iff {o : Output} : RegsKept rs s (u.send o) ↔ RegsKept rs s u := Iff.rfl

@[simp] theorem RegsKept.putBytes_iff {a : Nat} {bs : List Byte} : RegsKept rs s (u.putBytes a bs) ↔ RegsKept rs s u :=
  trans_iff (RegsKept.putBytes RegsKept.refl)

theorem RegsKept.foldl_iff {A : Type} {f : State → A → State} {l : List A} (h : ∀ v x, RegsKept rs v (f v x)) :
    RegsKept rs s (l.foldl f u) ↔ RegsKept rs s u :=
  trans_iff (RegsKept.foldl RegsKept.refl fun v x hv => hv.trans (h v x))

theorem State.reg_foldl {A : Type} {f : State → A → State} {q : Reg} {j : Nat}
    (h : ∀ v x, (f v x).reg q j = v.reg q j) (l : List A) (s : State) : (l.foldl f s).reg q j = s.reg q j := by
  induction l generalizing s with
  | nil => rfl
  | cons x l ih => exact (ih _).trans (h s x)

/-- One value written to the elements of a register below `n`. -/
theorem State.reg_fill (r : Reg) (n v j : Nat) (s : State) :
    ((List.range n).foldl (fun t k => t.setReg r k v) s).reg r j = if j < n then v % r.modulus else s.reg r j := by
  induction n with
  | zero => rfl
  | succ n ih =>
    simp only [List.range_succ, List.foldl_append, List.foldl_cons, List.foldl_nil, State.reg_setReg, true_and, ih]
    by_cases h : n = j
    · subst h; simp
    · have e : (j < n + 1) = (j < n) := propext ⟨fun x => by omega, fun x => by omega⟩
      simp [h, e]

theorem State.reg_appendAudit (s : State) {q : Reg} (hq : q ∉ auditRegs) (o g p r f : Nat) (a b : List Byte) (j : Nat) :
    (s.appendAudit o g p r f a b).reg q j = s.reg q j :=
  RegsKept.appendAudit (by decide) (by decide) RegsKept.refl q hq j

theorem State.reg_auditInternal (s : State) {q : Reg} (hq : q ∉ auditRegs) (o r : Nat) (a b : List Byte) (j : Nat) :
    (s.auditInternal o r a b).reg q j = s.reg q j := State.reg_appendAudit s hq ..

/-- What a register reads as after the package has changed one. -/
theorem State.reg_change (s : State) {q : Reg} (hq : q ∉ auditRegs) (r : Reg) (i v j : Nat) :
    (s.change r i v).reg q j = if r = q ∧ i = j then v % r.modulus else s.reg q j := by
  unfold State.change
  dsimp only
  split
  · next h =>
    split
    · next h' => rw [← h, h'.1, h'.2]
    · rfl
  · split
    · rw [State.reg_auditInternal _ hq, State.reg_setReg]
    · rw [State.reg_setReg]

theorem State.reg_raise (s : State) {q : Reg} (hq : q ∉ auditRegs) (r : Reg) (b j : Nat) :
    (s.raise r b).reg q j = if r = q ∧ 0 = j then withBit (s.reg r) b % r.modulus else s.reg q j :=
  State.reg_change s hq ..

theorem State.reg_lower (s : State) {q : Reg} (hq : q ∉ auditRegs) (r : Reg) (b j : Nat) :
    (s.lower r b).reg q j = if r = q ∧ 0 = j then withoutBit (s.reg r) b % r.modulus else s.reg q j :=
  State.reg_change s hq ..

theorem RegsKept.copyBefore {x : Slot} {lo hi : Nat} (hr : Reg.cbwWrites ∈ rs) (h : RegsKept rs s u) :
    RegsKept rs s (u.copyBefore x lo hi).1 := by
  refine copyBefore_induct (fun u i hu => hu.addReg hr) x lo hi h

theorem RegsKept.noteMerge {lo hi : Nat} (h : RegsKept rs s u) : RegsKept rs s (u.noteMerge lo hi) := RegsKept.of_regs rfl h

theorem RegsKept.noteMoved {lo hi : Nat} (h : RegsKept rs s u) : RegsKept rs s (u.noteMoved lo hi) := by
  unfold State.noteMoved
  exact RegsKept.ite h (RegsKept.of_regs rfl h)

theorem RegsKept.beforeWrite {lo hi : Nat} (h1 : Reg.cbwWrites ∈ rs) (h2 : Reg.backInvalidates ∈ rs)
    (h3 : Reg.hostHeldLines ∈ rs) (h : RegsKept rs s u) : RegsKept rs s (u.beforeWrite lo hi) := by
  unfold State.beforeWrite
  dsimp only
  repeat' first
    | with_reducible exact h
    | with_reducible assumption
    | with_reducible apply RegsKept.ite
    | with_reducible apply RegsKept.copyBefore
    | with_reducible apply RegsKept.noteMoved
    | with_reducible apply RegsKept.noteMerge
    | with_reducible apply RegsKept.setReg
    | with_reducible apply RegsKept.addReg
    | with_reducible apply RegsKept.upd

/-- A write of memory may copy lines first and take lines back from the host; it changes no other register. -/
theorem RegsKept.write {a : Nat} {bs : List Byte} (h1 : Reg.cbwWrites ∈ rs) (h2 : Reg.backInvalidates ∈ rs)
    (h3 : Reg.hostHeldLines ∈ rs) (h : RegsKept rs s u) : RegsKept rs s (u.write a bs) := by
  unfold State.write
  exact RegsKept.of_regs rfl (RegsKept.putBytes (h.beforeWrite h1 h2 h3))

theorem RegsKept.jobWrite {a : Nat} {bs : List Byte} (h1 : Reg.cbwWrites ∈ rs) (h2 : Reg.backInvalidates ∈ rs)
    (h3 : Reg.hostHeldLines ∈ rs) (h : RegsKept rs s u) : RegsKept rs s (u.jobWrite a bs) := by
  unfold State.jobWrite
  exact RegsKept.ite (h.write h1 h2 h3) h

theorem RegsKept.trace {full : Bool} {bs : List Byte} (h : RegsKept errorRegs s u) : RegsKept errorRegs s (u.trace full bs) := by
  unfold State.trace
  dsimp only
  repeat' first
    | with_reducible exact h
    | with_reducible apply RegsKept.ite
    | with_reducible apply RegsKept.addReg
    | with_reducible apply RegsKept.jobWrite
    | decide

theorem RegsKept.fire {src code step lbay : Nat} (h : RegsKept errorRegs s u) : RegsKept errorRegs s (u.fire src code step lbay) := by
  unfold State.fire State.draw
  dsimp only
  repeat' first
    | with_reducible exact h
    | with_reducible apply RegsKept.ite
    | with_reducible apply RegsKept.trace
    | with_reducible apply RegsKept.setReg
    | with_reducible apply RegsKept.addReg
    | with_reducible apply RegsKept.setBytes
    | with_reducible apply RegsKept.upd
    | decide

theorem RegsKept.squallWeigh {e : ErrorEvent} (h : RegsKept rs s u) : RegsKept rs s (u.squallWeigh e).2 := by
  unfold State.squallWeigh
  dsimp only
  split <;> exact h

/-- An error record touches no other register. -/
theorem RegsKept.logError {e : ErrorEvent} (h : RegsKept errorRegs s u) : RegsKept errorRegs s (u.logError e) := by
  unfold State.logError State.squallWarns State.raise
  dsimp only
  repeat' first
    | with_reducible exact h
    | with_reducible apply RegsKept.ite
    | with_reducible apply RegsKept.fire
    | with_reducible apply RegsKept.setReg
    | with_reducible apply RegsKept.addReg
    | with_reducible apply RegsKept.change
    | with_reducible apply RegsKept.send
    | with_reducible apply RegsKept.squallWeigh
    | with_reducible apply RegsKept.upd
    | decide

@[simp] theorem RegsKept.logError_iff {e : ErrorEvent} (h : ∀ r ∈ errorRegs, r ∈ rs) :
    RegsKept rs s (u.logError e) ↔ RegsKept rs s u :=
  trans_iff (RegsKept.mono h (RegsKept.logError RegsKept.refl))

theorem State.reg_logError (s : State) {q : Reg} (hq : q ∉ errorRegs) (e : ErrorEvent) (j : Nat) :
    (s.logError e).reg q j = s.reg q j := RegsKept.logError RegsKept.refl q hq j

@[simp] theorem State.reg_answer (s : State) (q : Requester) (o c : Nat) (r : Reg) (j : Nat) :
    (s.answer q o c).reg r j = s.reg r j := rfl

end Sys2Proof.Machine
end

