-- ==== Sys2Proof/Laws/Logged.lean ====
section
/-! SUPPORT. Fields of the state that the operations that log leave alone. -/

namespace Sys2Proof.Machine

variable (s : State)

/-- `t` is `s` but for its registers, its audit ring, its subscriptions and what it sends. -/
def Logged (s t : State) : Prop :=
  ∃ r a u o, t = { s with regs := r, audit := a, subs := u, out := o }

theorem Logged.refl : Logged s s := ⟨_, _, _, _, rfl⟩

theorem Logged.trans {s t u : State} (h : Logged s t) (h' : Logged t u) : Logged s u := by
  obtain ⟨_, _, _, _, rfl⟩ := h
  obtain ⟨_, _, _, _, rfl⟩ := h'
  exact ⟨_, _, _, _, rfl⟩

theorem Logged.foldl {A : Type} {f : State → A → State} {l : List A} {u : State} (h : Logged s u)
    (hf : ∀ v x, Logged s v → Logged s (f v x)) : Logged s (l.foldl f u) := by
  induction l generalizing u with
  | nil => exact h
  | cons x l ih => exact ih (hf u x h)

theorem Logged.sendEvents {u : State} (h : Logged s u) (who : Requester) (seq : Nat) : Logged s (u.sendEvents who seq) :=
  Logged.foldl s h fun _ _ hv => Logged.trans hv ⟨_, _, _, _, rfl⟩

theorem Logged.pumpAudit : Logged s s.pumpAudit := by
  unfold State.pumpAudit
  dsimp only
  split
  · exact Logged.refl s
  · refine Logged.trans (Logged.foldl s (Logged.refl s) fun v x hv => ?_) ⟨_, _, _, _, rfl⟩
    split
    · exact hv.sendEvents s ..
    · exact hv

theorem logged_appendAudit (o g p r f : Nat) (a b : List Byte) : Logged s (s.appendAudit o g p r f a b) := by
  unfold State.appendAudit
  dsimp only
  refine Logged.trans ?_ (Logged.pumpAudit _)
  split <;> exact ⟨_, _, _, _, rfl⟩

theorem logged_setReg (r : Reg) (i v : Nat) : Logged s (s.setReg r i v) := ⟨_, _, _, _, rfl⟩

theorem logged_setRegs (r : Reg) (i : Nat) (vs : List Nat) : Logged s (s.setRegs r i vs) := by
  induction vs generalizing s i with
  | nil => exact Logged.refl s
  | cons v vs ih => exact Logged.trans (logged_setReg s r i v) (ih _ _)

theorem logged_change (r : Reg) (i v : Nat) : Logged s (s.change r i v) := by
  unfold State.change
  dsimp only
  split
  · exact Logged.refl s
  · split
    · exact Logged.trans (logged_setReg s r i v) (logged_appendAudit ..)
    · exact logged_setReg s r i v

theorem logged_changeAll (r : Reg) (i : Nat) (vs : List Nat) : Logged s (s.changeAll r i vs) := by
  unfold State.changeAll
  dsimp only
  split
  · exact Logged.trans (logged_setRegs ..) (logged_appendAudit ..)
  · exact logged_setRegs ..

/-- `t` is `s` but for what an error record touches. -/
def Recorded (s t : State) : Prop :=
  ∃ r a u o e q f l m v n x y z b c k d i, t = { s with
    regs := r, audit := a, subs := u, out := o, errorLog := e, squallEvents := q, frozen := f, late := l, mem := m
    reservations := v, free := n, slotA := x, slotB := y, hostLines := z, poisonAtoms := b, poisonWords := c, llm := k, moved := d
    merging := i }

theorem Recorded.refl : Recorded s s := ⟨_, _, _, _, _, _, _, _, _, _, _, _, _, _, _, _, _, _, _, rfl⟩

theorem Recorded.trans {s t u : State} (h : Recorded s t) (h' : Recorded t u) : Recorded s u := by
  obtain ⟨_, _, _, _, _, _, _, _, _, _, _, _, _, _, _, _, _, _, _, rfl⟩ := h
  obtain ⟨_, _, _, _, _, _, _, _, _, _, _, _, _, _, _, _, _, _, _, rfl⟩ := h'
  exact ⟨_, _, _, _, _, _, _, _, _, _, _, _, _, _, _, _, _, _, _, rfl⟩

theorem Logged.recorded {s t : State} (h : Logged s t) : Recorded s t := by
  obtain ⟨_, _, _, _, rfl⟩ := h
  exact ⟨_, _, _, _, _, _, _, _, _, _, _, _, _, _, _, _, _, _, _, rfl⟩

theorem Recorded.of_logged {u v : State} (h : Recorded s u) (h' : Logged u v) : Recorded s v := h.trans h'.recorded

theorem Recorded.setReg {u : State} {r : Reg} {i v : Nat} (h : Recorded s u) : Recorded s (u.setReg r i v) :=
  h.of_logged s (logged_setReg ..)

theorem Recorded.addReg {u : State} {r : Reg} {i v : Nat} (h : Recorded s u) : Recorded s (u.addReg r i v) :=
  h.of_logged s (logged_setReg ..)

theorem Recorded.setBytes {u : State} {r : Reg} {i : Nat} {bs : List Byte} (h : Recorded s u) :
    Recorded s (u.setBytes r i bs) := h.of_logged s (logged_setRegs ..)

theorem Recorded.change {u : State} {r : Reg} {i v : Nat} (h : Recorded s u) : Recorded s (u.change r i v) :=
  h.of_logged s (logged_change ..)

theorem Recorded.send {u : State} {o : Output} (h : Recorded s u) : Recorded s (u.send o) :=
  h.of_logged s ⟨_, _, _, _, rfl⟩

theorem Recorded.putBytes {u : State} {a : Nat} {bs : List Byte} (h : Recorded s u) : Recorded s (u.putBytes a bs) := by
  induction bs generalizing u a with
  | nil => exact h
  | cons b bs ih =>
    exact ih (h.trans (u := u.setByte a b) ⟨_, _, _, _, _, _, _, _, _, _, _, _, _, _, _, _, _, _, _, rfl⟩)

theorem Recorded.ite {c : Prop} [Decidable c] {a b : State} (ha : Recorded s a) (hb : Recorded s b) :
    Recorded s (if c then a else b) := by
  split
  · exact ha
  · exact hb

theorem Recorded.upd {s u : State} (free : Nat) (regs : Store (Reg × Nat) Nat) (mem : List Host.Cell) (poisonAtoms :
    List Nat) (poisonWords : List Nat) (reservations : List (Nat × Nat)) (llm : Store Nat Nat) (merging : List (Nat ×
    List (Nat × Nat))) (moved : List Nat) (slotA : Slot) (slotB : Slot) (hostLines : List Nat) (errorLog : List
    ErrorRecord) (squallEvents : Store Nat (Nat × Nat)) (audit : List AuditEntry) (subs : List Subscription) (frozen :
    Option SetView) (late : List (Nat × SetView)) (out : List Output) (h : Recorded s u) : Recorded s (State.mk
    u.pending u.now free regs u.deferred mem poisonAtoms poisonWords u.bays u.tests u.copies u.tailwind u.recent
    u.seqOut u.seqIn u.early u.requests u.retry u.linkQueue u.flitNext u.stuck u.answered u.refusals u.hartReplies
    u.harts u.stores reservations u.pclks u.regions u.staged u.closes u.roundsEnded u.raccIssue u.fences u.peerLinks
    u.mails u.mailNext u.mailIn u.transit u.colls u.collDone u.collHeld u.chans u.fills u.narrow llm u.corrections
    u.chanQueue u.chanStalled u.narrowHeld u.sliceHeld merging moved u.migrated u.spareMarks u.remaps u.remapping
    u.mapoutWaits u.journal u.pulses u.softPpr u.segments slotA slotB u.shards u.drains u.recovery u.jobEpochs u.kept
    u.keptFor hostLines u.waiting u.xwMsg u.xwOwn u.xwTheirs u.xwStreams u.xwDiff u.rung u.cmds u.cqHeld errorLog
    squallEvents audit u.mirror u.sessions u.assemblies u.answers subs frozen late out) :=
  h.trans ⟨_, _, _, _, _, _, _, _, _, _, _, _, _, _, _, _, _, _, _, rfl⟩

/-- `t` is `s` but for what a write of node memory touches. -/
def Written (s t : State) : Prop :=
  ∃ r m v n x y z b c k d i, t = { s with
    regs := r, mem := m, reservations := v, free := n, slotA := x, slotB := y, hostLines := z, poisonAtoms := b
    poisonWords := c, llm := k, moved := d
    merging := i }

theorem Written.refl : Written s s := ⟨_, _, _, _, _, _, _, _, _, _, _, _, rfl⟩

theorem Written.trans {s t u : State} (h : Written s t) (h' : Written t u) : Written s u := by
  obtain ⟨_, _, _, _, _, _, _, _, _, _, _, _, rfl⟩ := h
  obtain ⟨_, _, _, _, _, _, _, _, _, _, _, _, rfl⟩ := h'
  exact ⟨_, _, _, _, _, _, _, _, _, _, _, _, rfl⟩

theorem Written.recorded {s t : State} (h : Written s t) : Recorded s t := by
  obtain ⟨_, _, _, _, _, _, _, _, _, _, _, _, rfl⟩ := h
  exact ⟨_, _, _, _, _, _, _, _, _, _, _, _, _, _, _, _, _, _, _, rfl⟩

theorem Written.setReg {u : State} {r : Reg} {i v : Nat} (h : Written s u) : Written s (u.setReg r i v) :=
  h.trans ⟨_, _, _, _, _, _, _, _, _, _, _, _, rfl⟩

theorem Written.addReg {u : State} {r : Reg} {i v : Nat} (h : Written s u) : Written s (u.addReg r i v) :=
  h.trans ⟨_, _, _, _, _, _, _, _, _, _, _, _, rfl⟩

theorem Written.putBytes {u : State} {a : Nat} {bs : List Byte} (h : Written s u) : Written s (u.putBytes a bs) := by
  induction bs generalizing u a with
  | nil => exact h
  | cons b bs ih => exact ih (h.trans (u := u.setByte a b) ⟨_, _, _, _, _, _, _, _, _, _, _, _, rfl⟩)

theorem Written.ite {c : Prop} [Decidable c] {a b : State} (ha : Written s a) (hb : Written s b) :
    Written s (if c then a else b) := by
  split
  · exact ha
  · exact hb

theorem Written.foldl {A : Type} {f : State → A → State} {l : List A} {u : State} (h : Written s u)
    (hf : ∀ v x, Written s v → Written s (f v x)) : Written s (l.foldl f u) := by
  induction l generalizing u with
  | nil => exact h
  | cons x l ih => exact ih (hf u x h)

theorem Written.copyBefore {u : State} {x : Slot} {lo hi : Nat} (h : Written s u) :
    Written s (u.copyBefore x lo hi).1 := by
  exact copyBefore_induct (fun u i hu => hu.addReg s) x lo hi h

theorem Written.noteMerge {u : State} {lo hi : Nat} (h : Written s u) : Written s (u.noteMerge lo hi) :=
  h.trans ⟨_, _, _, _, _, _, _, _, _, _, _, _, rfl⟩

theorem Written.noteMoved {u : State} {lo hi : Nat} (h : Written s u) : Written s (u.noteMoved lo hi) := by
  unfold State.noteMoved
  exact Written.ite s h (h.trans ⟨_, _, _, _, _, _, _, _, _, _, _, _, rfl⟩)

theorem Written.upd {s u : State} (free : Nat) (regs : Store (Reg × Nat) Nat) (mem : List Host.Cell) (poisonAtoms :
    List Nat) (poisonWords : List Nat) (reservations : List (Nat × Nat)) (llm : Store Nat Nat) (merging : List (Nat ×
    List (Nat × Nat))) (moved : List Nat) (slotA : Slot) (slotB : Slot) (hostLines : List Nat) (h : Written s u) :
    Written s (State.mk u.pending u.now free regs u.deferred mem poisonAtoms poisonWords u.bays u.tests u.copies
    u.tailwind u.recent u.seqOut u.seqIn u.early u.requests u.retry u.linkQueue u.flitNext u.stuck u.answered
    u.refusals u.hartReplies u.harts u.stores reservations u.pclks u.regions u.staged u.closes u.roundsEnded
    u.raccIssue u.fences u.peerLinks u.mails u.mailNext u.mailIn u.transit u.colls u.collDone u.collHeld u.chans
    u.fills u.narrow llm u.corrections u.chanQueue u.chanStalled u.narrowHeld u.sliceHeld merging moved u.migrated
    u.spareMarks u.remaps u.remapping u.mapoutWaits u.journal u.pulses u.softPpr u.segments slotA slotB u.shards
    u.drains u.recovery u.jobEpochs u.kept u.keptFor hostLines u.waiting u.xwMsg u.xwOwn u.xwTheirs u.xwStreams
    u.xwDiff u.rung u.cmds u.cqHeld u.errorLog u.squallEvents u.audit u.mirror u.sessions u.assemblies u.answers
    u.subs u.frozen u.late u.out) :=
  h.trans ⟨_, _, _, _, _, _, _, _, _, _, _, _, rfl⟩

theorem Written.beforeWrite {u : State} {lo hi : Nat} (h : Written s u) : Written s (u.beforeWrite lo hi) := by
  unfold State.beforeWrite
  dsimp only
  repeat' first
    | with_reducible exact h
    | with_reducible apply Written.ite
    | with_reducible apply Written.copyBefore
    | with_reducible apply Written.noteMoved
    | with_reducible apply Written.noteMerge
    | with_reducible apply Written.setReg
    | with_reducible apply Written.addReg
    | with_reducible apply Written.upd

theorem Written.write {u : State} {a : Nat} {bs : List Byte} (h : Written s u) : Written s (u.write a bs) := by
  unfold State.write
  exact (Written.putBytes s (h.beforeWrite s)).trans ⟨_, _, _, _, _, _, _, _, _, _, _, _, rfl⟩

theorem Written.writes {u : State} {ws : List (Nat × List Byte)} (h : Written s u) : Written s (u.writes ws) := by
  unfold State.writes
  exact Written.foldl s h fun v x hv => hv.write s

theorem Recorded.write {u : State} {a : Nat} {bs : List Byte} (h : Recorded s u) : Recorded s (u.write a bs) :=
  h.trans (Written.write u (Written.refl u)).recorded

theorem Recorded.jobWrite {u : State} {a : Nat} {bs : List Byte} (h : Recorded s u) : Recorded s (u.jobWrite a bs) := by
  unfold State.jobWrite
  exact Recorded.ite s h.write h

theorem Recorded.trace {u : State} {full : Bool} {bs : List Byte} (h : Recorded s u) : Recorded s (u.trace full bs) := by
  unfold State.trace
  dsimp only
  repeat' first
    | with_reducible exact h
    | with_reducible apply Recorded.ite
    | with_reducible apply Recorded.addReg
    | with_reducible apply Recorded.jobWrite

theorem Recorded.fire {u : State} {src code step lbay : Nat} (h : Recorded s u) : Recorded s (u.fire src code step lbay) := by
  unfold State.fire State.draw
  dsimp only
  repeat' first
    | with_reducible exact h
    | with_reducible apply Recorded.ite
    | with_reducible apply Recorded.trace
    | with_reducible apply Recorded.setReg
    | with_reducible apply Recorded.addReg
    | with_reducible apply Recorded.setBytes
    | with_reducible apply Recorded.upd

theorem Recorded.squallWeigh {u : State} {e : ErrorEvent} (h : Recorded s u) : Recorded s (u.squallWeigh e).2 := by
  unfold State.squallWeigh
  dsimp only
  split
  · with_reducible apply Recorded.upd
    exact h
  · exact h

theorem recorded_logError (e : ErrorEvent) : Recorded s (s.logError e) := by
  unfold State.logError State.squallWarns State.raise
  dsimp only
  repeat' first
    | with_reducible exact Recorded.refl s
    | with_reducible apply Recorded.ite
    | with_reducible apply Recorded.fire
    | with_reducible apply Recorded.setReg
    | with_reducible apply Recorded.addReg
    | with_reducible apply Recorded.change
    | with_reducible apply Recorded.send
    | with_reducible apply Recorded.squallWeigh
    | with_reducible apply Recorded.upd

/-! Field by field. -/

@[simp] theorem State.pending_write (a : Nat) (bs : List Byte) : (s.write a bs).pending = s.pending := by
  obtain ⟨_, _, _, _, _, _, _, _, _, _, _, _, h⟩ := Written.write s (a := a) (bs := bs) (Written.refl s)
  rw [h]
@[simp] theorem State.pending_writes (ws : List (Nat × List Byte)) : (s.writes ws).pending = s.pending := by
  obtain ⟨_, _, _, _, _, _, _, _, _, _, _, _, h⟩ := Written.writes s (ws := ws) (Written.refl s)
  rw [h]
@[simp] theorem State.now_write (a : Nat) (bs : List Byte) : (s.write a bs).now = s.now := by
  obtain ⟨_, _, _, _, _, _, _, _, _, _, _, _, h⟩ := Written.write s (a := a) (bs := bs) (Written.refl s)
  rw [h]
@[simp] theorem State.now_writes (ws : List (Nat × List Byte)) : (s.writes ws).now = s.now := by
  obtain ⟨_, _, _, _, _, _, _, _, _, _, _, _, h⟩ := Written.writes s (ws := ws) (Written.refl s)
  rw [h]
@[simp] theorem State.deferred_write (a : Nat) (bs : List Byte) : (s.write a bs).deferred = s.deferred := by
  obtain ⟨_, _, _, _, _, _, _, _, _, _, _, _, h⟩ := Written.write s (a := a) (bs := bs) (Written.refl s)
  rw [h]
@[simp] theorem State.deferred_writes (ws : List (Nat × List Byte)) : (s.writes ws).deferred = s.deferred := by
  obtain ⟨_, _, _, _, _, _, _, _, _, _, _, _, h⟩ := Written.writes s (ws := ws) (Written.refl s)
  rw [h]
@[simp] theorem State.bays_write (a : Nat) (bs : List Byte) : (s.write a bs).bays = s.bays := by
  obtain ⟨_, _, _, _, _, _, _, _, _, _, _, _, h⟩ := Written.write s (a := a) (bs := bs) (Written.refl s)
  rw [h]
@[simp] theorem State.bays_writes (ws : List (Nat × List Byte)) : (s.writes ws).bays = s.bays := by
  obtain ⟨_, _, _, _, _, _, _, _, _, _, _, _, h⟩ := Written.writes s (ws := ws) (Written.refl s)
  rw [h]
@[simp] theorem State.tests_write (a : Nat) (bs : List Byte) : (s.write a bs).tests = s.tests := by
  obtain ⟨_, _, _, _, _, _, _, _, _, _, _, _, h⟩ := Written.write s (a := a) (bs := bs) (Written.refl s)
  rw [h]
@[simp] theorem State.tests_writes (ws : List (Nat × List Byte)) : (s.writes ws).tests = s.tests := by
  obtain ⟨_, _, _, _, _, _, _, _, _, _, _, _, h⟩ := Written.writes s (ws := ws) (Written.refl s)
  rw [h]
@[simp] theorem State.copies_write (a : Nat) (bs : List Byte) : (s.write a bs).copies = s.copies := by
  obtain ⟨_, _, _, _, _, _, _, _, _, _, _, _, h⟩ := Written.write s (a := a) (bs := bs) (Written.refl s)
  rw [h]
@[simp] theorem State.copies_writes (ws : List (Nat × List Byte)) : (s.writes ws).copies = s.copies := by
  obtain ⟨_, _, _, _, _, _, _, _, _, _, _, _, h⟩ := Written.writes s (ws := ws) (Written.refl s)
  rw [h]
@[simp] theorem State.tailwind_write (a : Nat) (bs : List Byte) : (s.write a bs).tailwind = s.tailwind := by
  obtain ⟨_, _, _, _, _, _, _, _, _, _, _, _, h⟩ := Written.write s (a := a) (bs := bs) (Written.refl s)
  rw [h]
@[simp] theorem State.retry_write (a : Nat) (bs : List Byte) : (s.write a bs).retry = s.retry := by
  obtain ⟨_, _, _, _, _, _, _, _, _, _, _, _, h⟩ := Written.write s (a := a) (bs := bs) (Written.refl s)
  rw [h]
@[simp] theorem State.linkQueue_write (a : Nat) (bs : List Byte) : (s.write a bs).linkQueue = s.linkQueue := by
  obtain ⟨_, _, _, _, _, _, _, _, _, _, _, _, h⟩ := Written.write s (a := a) (bs := bs) (Written.refl s)
  rw [h]
@[simp] theorem State.flitNext_write (a : Nat) (bs : List Byte) : (s.write a bs).flitNext = s.flitNext := by
  obtain ⟨_, _, _, _, _, _, _, _, _, _, _, _, h⟩ := Written.write s (a := a) (bs := bs) (Written.refl s)
  rw [h]
@[simp] theorem State.stuck_write (a : Nat) (bs : List Byte) : (s.write a bs).stuck = s.stuck := by
  obtain ⟨_, _, _, _, _, _, _, _, _, _, _, _, h⟩ := Written.write s (a := a) (bs := bs) (Written.refl s)
  rw [h]
@[simp] theorem State.answered_write (a : Nat) (bs : List Byte) : (s.write a bs).answered = s.answered := by
  obtain ⟨_, _, _, _, _, _, _, _, _, _, _, _, h⟩ := Written.write s (a := a) (bs := bs) (Written.refl s)
  rw [h]
@[simp] theorem State.refusals_write (a : Nat) (bs : List Byte) : (s.write a bs).refusals = s.refusals := by
  obtain ⟨_, _, _, _, _, _, _, _, _, _, _, _, h⟩ := Written.write s (a := a) (bs := bs) (Written.refl s)
  rw [h]
@[simp] theorem State.chanStalled_write (a : Nat) (bs : List Byte) : (s.write a bs).chanStalled = s.chanStalled := by
  obtain ⟨_, _, _, _, _, _, _, _, _, _, _, _, h⟩ := Written.write s (a := a) (bs := bs) (Written.refl s)
  rw [h]
@[simp] theorem State.sliceHeld_write (a : Nat) (bs : List Byte) : (s.write a bs).sliceHeld = s.sliceHeld := by
  obtain ⟨_, _, _, _, _, _, _, _, _, _, _, _, h⟩ := Written.write s (a := a) (bs := bs) (Written.refl s)
  rw [h]
@[simp] theorem State.migrated_write (a : Nat) (bs : List Byte) : (s.write a bs).migrated = s.migrated := by
  obtain ⟨_, _, _, _, _, _, _, _, _, _, _, _, h⟩ := Written.write s (a := a) (bs := bs) (Written.refl s)
  rw [h]
@[simp] theorem State.recent_write (a : Nat) (bs : List Byte) : (s.write a bs).recent = s.recent := by
  obtain ⟨_, _, _, _, _, _, _, _, _, _, _, _, h⟩ := Written.write s (a := a) (bs := bs) (Written.refl s)
  rw [h]
@[simp] theorem State.pclks_write (a : Nat) (bs : List Byte) : (s.write a bs).pclks = s.pclks := by
  obtain ⟨_, _, _, _, _, _, _, _, _, _, _, _, h⟩ := Written.write s (a := a) (bs := bs) (Written.refl s)
  rw [h]
@[simp] theorem State.corrections_write (a : Nat) (bs : List Byte) : (s.write a bs).corrections = s.corrections := by
  obtain ⟨_, _, _, _, _, _, _, _, _, _, _, _, h⟩ := Written.write s (a := a) (bs := bs) (Written.refl s)
  rw [h]
@[simp] theorem State.chanQueue_write (a : Nat) (bs : List Byte) : (s.write a bs).chanQueue = s.chanQueue := by
  obtain ⟨_, _, _, _, _, _, _, _, _, _, _, _, h⟩ := Written.write s (a := a) (bs := bs) (Written.refl s)
  rw [h]
@[simp] theorem State.narrowHeld_write (a : Nat) (bs : List Byte) : (s.write a bs).narrowHeld = s.narrowHeld := by
  obtain ⟨_, _, _, _, _, _, _, _, _, _, _, _, h⟩ := Written.write s (a := a) (bs := bs) (Written.refl s)
  rw [h]
@[simp] theorem State.spareMarks_write (a : Nat) (bs : List Byte) : (s.write a bs).spareMarks = s.spareMarks := by
  obtain ⟨_, _, _, _, _, _, _, _, _, _, _, _, h⟩ := Written.write s (a := a) (bs := bs) (Written.refl s)
  rw [h]
@[simp] theorem State.tailwind_writes (ws : List (Nat × List Byte)) : (s.writes ws).tailwind = s.tailwind := by
  obtain ⟨_, _, _, _, _, _, _, _, _, _, _, _, h⟩ := Written.writes s (ws := ws) (Written.refl s)
  rw [h]
@[simp] theorem State.retry_writes (ws : List (Nat × List Byte)) : (s.writes ws).retry = s.retry := by
  obtain ⟨_, _, _, _, _, _, _, _, _, _, _, _, h⟩ := Written.writes s (ws := ws) (Written.refl s)
  rw [h]
@[simp] theorem State.linkQueue_writes (ws : List (Nat × List Byte)) : (s.writes ws).linkQueue = s.linkQueue := by
  obtain ⟨_, _, _, _, _, _, _, _, _, _, _, _, h⟩ := Written.writes s (ws := ws) (Written.refl s)
  rw [h]
@[simp] theorem State.flitNext_writes (ws : List (Nat × List Byte)) : (s.writes ws).flitNext = s.flitNext := by
  obtain ⟨_, _, _, _, _, _, _, _, _, _, _, _, h⟩ := Written.writes s (ws := ws) (Written.refl s)
  rw [h]
@[simp] theorem State.stuck_writes (ws : List (Nat × List Byte)) : (s.writes ws).stuck = s.stuck := by
  obtain ⟨_, _, _, _, _, _, _, _, _, _, _, _, h⟩ := Written.writes s (ws := ws) (Written.refl s)
  rw [h]
@[simp] theorem State.answered_writes (ws : List (Nat × List Byte)) : (s.writes ws).answered = s.answered := by
  obtain ⟨_, _, _, _, _, _, _, _, _, _, _, _, h⟩ := Written.writes s (ws := ws) (Written.refl s)
  rw [h]
@[simp] theorem State.refusals_writes (ws : List (Nat × List Byte)) : (s.writes ws).refusals = s.refusals := by
  obtain ⟨_, _, _, _, _, _, _, _, _, _, _, _, h⟩ := Written.writes s (ws := ws) (Written.refl s)
  rw [h]
@[simp] theorem State.chanStalled_writes (ws : List (Nat × List Byte)) : (s.writes ws).chanStalled = s.chanStalled := by
  obtain ⟨_, _, _, _, _, _, _, _, _, _, _, _, h⟩ := Written.writes s (ws := ws) (Written.refl s)
  rw [h]
@[simp] theorem State.sliceHeld_writes (ws : List (Nat × List Byte)) : (s.writes ws).sliceHeld = s.sliceHeld := by
  obtain ⟨_, _, _, _, _, _, _, _, _, _, _, _, h⟩ := Written.writes s (ws := ws) (Written.refl s)
  rw [h]
@[simp] theorem State.migrated_writes (ws : List (Nat × List Byte)) : (s.writes ws).migrated = s.migrated := by
  obtain ⟨_, _, _, _, _, _, _, _, _, _, _, _, h⟩ := Written.writes s (ws := ws) (Written.refl s)
  rw [h]
@[simp] theorem State.recent_writes (ws : List (Nat × List Byte)) : (s.writes ws).recent = s.recent := by
  obtain ⟨_, _, _, _, _, _, _, _, _, _, _, _, h⟩ := Written.writes s (ws := ws) (Written.refl s)
  rw [h]
@[simp] theorem State.pclks_writes (ws : List (Nat × List Byte)) : (s.writes ws).pclks = s.pclks := by
  obtain ⟨_, _, _, _, _, _, _, _, _, _, _, _, h⟩ := Written.writes s (ws := ws) (Written.refl s)
  rw [h]
@[simp] theorem State.corrections_writes (ws : List (Nat × List Byte)) : (s.writes ws).corrections = s.corrections := by
  obtain ⟨_, _, _, _, _, _, _, _, _, _, _, _, h⟩ := Written.writes s (ws := ws) (Written.refl s)
  rw [h]
@[simp] theorem State.chanQueue_writes (ws : List (Nat × List Byte)) : (s.writes ws).chanQueue = s.chanQueue := by
  obtain ⟨_, _, _, _, _, _, _, _, _, _, _, _, h⟩ := Written.writes s (ws := ws) (Written.refl s)
  rw [h]
@[simp] theorem State.narrowHeld_writes (ws : List (Nat × List Byte)) : (s.writes ws).narrowHeld = s.narrowHeld := by
  obtain ⟨_, _, _, _, _, _, _, _, _, _, _, _, h⟩ := Written.writes s (ws := ws) (Written.refl s)
  rw [h]
@[simp] theorem State.spareMarks_writes (ws : List (Nat × List Byte)) : (s.writes ws).spareMarks = s.spareMarks := by
  obtain ⟨_, _, _, _, _, _, _, _, _, _, _, _, h⟩ := Written.writes s (ws := ws) (Written.refl s)
  rw [h]
@[simp] theorem State.seqOut_write (a : Nat) (bs : List Byte) : (s.write a bs).seqOut = s.seqOut := by
  obtain ⟨_, _, _, _, _, _, _, _, _, _, _, _, h⟩ := Written.write s (a := a) (bs := bs) (Written.refl s)
  rw [h]
@[simp] theorem State.seqOut_writes (ws : List (Nat × List Byte)) : (s.writes ws).seqOut = s.seqOut := by
  obtain ⟨_, _, _, _, _, _, _, _, _, _, _, _, h⟩ := Written.writes s (ws := ws) (Written.refl s)
  rw [h]
@[simp] theorem State.seqIn_write (a : Nat) (bs : List Byte) : (s.write a bs).seqIn = s.seqIn := by
  obtain ⟨_, _, _, _, _, _, _, _, _, _, _, _, h⟩ := Written.write s (a := a) (bs := bs) (Written.refl s)
  rw [h]
@[simp] theorem State.seqIn_writes (ws : List (Nat × List Byte)) : (s.writes ws).seqIn = s.seqIn := by
  obtain ⟨_, _, _, _, _, _, _, _, _, _, _, _, h⟩ := Written.writes s (ws := ws) (Written.refl s)
  rw [h]
@[simp] theorem State.early_write (a : Nat) (bs : List Byte) : (s.write a bs).early = s.early := by
  obtain ⟨_, _, _, _, _, _, _, _, _, _, _, _, h⟩ := Written.write s (a := a) (bs := bs) (Written.refl s)
  rw [h]
@[simp] theorem State.early_writes (ws : List (Nat × List Byte)) : (s.writes ws).early = s.early := by
  obtain ⟨_, _, _, _, _, _, _, _, _, _, _, _, h⟩ := Written.writes s (ws := ws) (Written.refl s)
  rw [h]
@[simp] theorem State.requests_write (a : Nat) (bs : List Byte) : (s.write a bs).requests = s.requests := by
  obtain ⟨_, _, _, _, _, _, _, _, _, _, _, _, h⟩ := Written.write s (a := a) (bs := bs) (Written.refl s)
  rw [h]
@[simp] theorem State.requests_writes (ws : List (Nat × List Byte)) : (s.writes ws).requests = s.requests := by
  obtain ⟨_, _, _, _, _, _, _, _, _, _, _, _, h⟩ := Written.writes s (ws := ws) (Written.refl s)
  rw [h]
@[simp] theorem State.hartReplies_write (a : Nat) (bs : List Byte) : (s.write a bs).hartReplies = s.hartReplies := by
  obtain ⟨_, _, _, _, _, _, _, _, _, _, _, _, h⟩ := Written.write s (a := a) (bs := bs) (Written.refl s)
  rw [h]
@[simp] theorem State.hartReplies_writes (ws : List (Nat × List Byte)) : (s.writes ws).hartReplies = s.hartReplies := by
  obtain ⟨_, _, _, _, _, _, _, _, _, _, _, _, h⟩ := Written.writes s (ws := ws) (Written.refl s)
  rw [h]
@[simp] theorem State.harts_write (a : Nat) (bs : List Byte) : (s.write a bs).harts = s.harts := by
  obtain ⟨_, _, _, _, _, _, _, _, _, _, _, _, h⟩ := Written.write s (a := a) (bs := bs) (Written.refl s)
  rw [h]
@[simp] theorem State.harts_writes (ws : List (Nat × List Byte)) : (s.writes ws).harts = s.harts := by
  obtain ⟨_, _, _, _, _, _, _, _, _, _, _, _, h⟩ := Written.writes s (ws := ws) (Written.refl s)
  rw [h]
@[simp] theorem State.stores_write (a : Nat) (bs : List Byte) : (s.write a bs).stores = s.stores := by
  obtain ⟨_, _, _, _, _, _, _, _, _, _, _, _, h⟩ := Written.write s (a := a) (bs := bs) (Written.refl s)
  rw [h]
@[simp] theorem State.stores_writes (ws : List (Nat × List Byte)) : (s.writes ws).stores = s.stores := by
  obtain ⟨_, _, _, _, _, _, _, _, _, _, _, _, h⟩ := Written.writes s (ws := ws) (Written.refl s)
  rw [h]
@[simp] theorem State.regions_write (a : Nat) (bs : List Byte) : (s.write a bs).regions = s.regions := by
  obtain ⟨_, _, _, _, _, _, _, _, _, _, _, _, h⟩ := Written.write s (a := a) (bs := bs) (Written.refl s)
  rw [h]
@[simp] theorem State.regions_writes (ws : List (Nat × List Byte)) : (s.writes ws).regions = s.regions := by
  obtain ⟨_, _, _, _, _, _, _, _, _, _, _, _, h⟩ := Written.writes s (ws := ws) (Written.refl s)
  rw [h]
@[simp] theorem State.staged_write (a : Nat) (bs : List Byte) : (s.write a bs).staged = s.staged := by
  obtain ⟨_, _, _, _, _, _, _, _, _, _, _, _, h⟩ := Written.write s (a := a) (bs := bs) (Written.refl s)
  rw [h]
@[simp] theorem State.staged_writes (ws : List (Nat × List Byte)) : (s.writes ws).staged = s.staged := by
  obtain ⟨_, _, _, _, _, _, _, _, _, _, _, _, h⟩ := Written.writes s (ws := ws) (Written.refl s)
  rw [h]
@[simp] theorem State.closes_write (a : Nat) (bs : List Byte) : (s.write a bs).closes = s.closes := by
  obtain ⟨_, _, _, _, _, _, _, _, _, _, _, _, h⟩ := Written.write s (a := a) (bs := bs) (Written.refl s)
  rw [h]
@[simp] theorem State.closes_writes (ws : List (Nat × List Byte)) : (s.writes ws).closes = s.closes := by
  obtain ⟨_, _, _, _, _, _, _, _, _, _, _, _, h⟩ := Written.writes s (ws := ws) (Written.refl s)
  rw [h]
@[simp] theorem State.roundsEnded_write (a : Nat) (bs : List Byte) : (s.write a bs).roundsEnded = s.roundsEnded := by
  obtain ⟨_, _, _, _, _, _, _, _, _, _, _, _, h⟩ := Written.write s (a := a) (bs := bs) (Written.refl s)
  rw [h]
@[simp] theorem State.roundsEnded_writes (ws : List (Nat × List Byte)) : (s.writes ws).roundsEnded = s.roundsEnded := by
  obtain ⟨_, _, _, _, _, _, _, _, _, _, _, _, h⟩ := Written.writes s (ws := ws) (Written.refl s)
  rw [h]
@[simp] theorem State.raccIssue_write (a : Nat) (bs : List Byte) : (s.write a bs).raccIssue = s.raccIssue := by
  obtain ⟨_, _, _, _, _, _, _, _, _, _, _, _, h⟩ := Written.write s (a := a) (bs := bs) (Written.refl s)
  rw [h]
@[simp] theorem State.raccIssue_writes (ws : List (Nat × List Byte)) : (s.writes ws).raccIssue = s.raccIssue := by
  obtain ⟨_, _, _, _, _, _, _, _, _, _, _, _, h⟩ := Written.writes s (ws := ws) (Written.refl s)
  rw [h]
@[simp] theorem State.fences_write (a : Nat) (bs : List Byte) : (s.write a bs).fences = s.fences := by
  obtain ⟨_, _, _, _, _, _, _, _, _, _, _, _, h⟩ := Written.write s (a := a) (bs := bs) (Written.refl s)
  rw [h]
@[simp] theorem State.fences_writes (ws : List (Nat × List Byte)) : (s.writes ws).fences = s.fences := by
  obtain ⟨_, _, _, _, _, _, _, _, _, _, _, _, h⟩ := Written.writes s (ws := ws) (Written.refl s)
  rw [h]
@[simp] theorem State.peerLinks_write (a : Nat) (bs : List Byte) : (s.write a bs).peerLinks = s.peerLinks := by
  obtain ⟨_, _, _, _, _, _, _, _, _, _, _, _, h⟩ := Written.write s (a := a) (bs := bs) (Written.refl s)
  rw [h]
@[simp] theorem State.peerLinks_writes (ws : List (Nat × List Byte)) : (s.writes ws).peerLinks = s.peerLinks := by
  obtain ⟨_, _, _, _, _, _, _, _, _, _, _, _, h⟩ := Written.writes s (ws := ws) (Written.refl s)
  rw [h]
@[simp] theorem State.mails_write (a : Nat) (bs : List Byte) : (s.write a bs).mails = s.mails := by
  obtain ⟨_, _, _, _, _, _, _, _, _, _, _, _, h⟩ := Written.write s (a := a) (bs := bs) (Written.refl s)
  rw [h]
@[simp] theorem State.mails_writes (ws : List (Nat × List Byte)) : (s.writes ws).mails = s.mails := by
  obtain ⟨_, _, _, _, _, _, _, _, _, _, _, _, h⟩ := Written.writes s (ws := ws) (Written.refl s)
  rw [h]
@[simp] theorem State.mailNext_write (a : Nat) (bs : List Byte) : (s.write a bs).mailNext = s.mailNext := by
  obtain ⟨_, _, _, _, _, _, _, _, _, _, _, _, h⟩ := Written.write s (a := a) (bs := bs) (Written.refl s)
  rw [h]
@[simp] theorem State.mailNext_writes (ws : List (Nat × List Byte)) : (s.writes ws).mailNext = s.mailNext := by
  obtain ⟨_, _, _, _, _, _, _, _, _, _, _, _, h⟩ := Written.writes s (ws := ws) (Written.refl s)
  rw [h]
@[simp] theorem State.mailIn_write (a : Nat) (bs : List Byte) : (s.write a bs).mailIn = s.mailIn := by
  obtain ⟨_, _, _, _, _, _, _, _, _, _, _, _, h⟩ := Written.write s (a := a) (bs := bs) (Written.refl s)
  rw [h]
@[simp] theorem State.mailIn_writes (ws : List (Nat × List Byte)) : (s.writes ws).mailIn = s.mailIn := by
  obtain ⟨_, _, _, _, _, _, _, _, _, _, _, _, h⟩ := Written.writes s (ws := ws) (Written.refl s)
  rw [h]
@[simp] theorem State.transit_write (a : Nat) (bs : List Byte) : (s.write a bs).transit = s.transit := by
  obtain ⟨_, _, _, _, _, _, _, _, _, _, _, _, h⟩ := Written.write s (a := a) (bs := bs) (Written.refl s)
  rw [h]
@[simp] theorem State.transit_writes (ws : List (Nat × List Byte)) : (s.writes ws).transit = s.transit := by
  obtain ⟨_, _, _, _, _, _, _, _, _, _, _, _, h⟩ := Written.writes s (ws := ws) (Written.refl s)
  rw [h]
@[simp] theorem State.colls_write (a : Nat) (bs : List Byte) : (s.write a bs).colls = s.colls := by
  obtain ⟨_, _, _, _, _, _, _, _, _, _, _, _, h⟩ := Written.write s (a := a) (bs := bs) (Written.refl s)
  rw [h]
@[simp] theorem State.colls_writes (ws : List (Nat × List Byte)) : (s.writes ws).colls = s.colls := by
  obtain ⟨_, _, _, _, _, _, _, _, _, _, _, _, h⟩ := Written.writes s (ws := ws) (Written.refl s)
  rw [h]
@[simp] theorem State.collDone_write (a : Nat) (bs : List Byte) : (s.write a bs).collDone = s.collDone := by
  obtain ⟨_, _, _, _, _, _, _, _, _, _, _, _, h⟩ := Written.write s (a := a) (bs := bs) (Written.refl s)
  rw [h]
@[simp] theorem State.collDone_writes (ws : List (Nat × List Byte)) : (s.writes ws).collDone = s.collDone := by
  obtain ⟨_, _, _, _, _, _, _, _, _, _, _, _, h⟩ := Written.writes s (ws := ws) (Written.refl s)
  rw [h]
@[simp] theorem State.collHeld_write (a : Nat) (bs : List Byte) : (s.write a bs).collHeld = s.collHeld := by
  obtain ⟨_, _, _, _, _, _, _, _, _, _, _, _, h⟩ := Written.write s (a := a) (bs := bs) (Written.refl s)
  rw [h]
@[simp] theorem State.collHeld_writes (ws : List (Nat × List Byte)) : (s.writes ws).collHeld = s.collHeld := by
  obtain ⟨_, _, _, _, _, _, _, _, _, _, _, _, h⟩ := Written.writes s (ws := ws) (Written.refl s)
  rw [h]
@[simp] theorem State.chans_write (a : Nat) (bs : List Byte) : (s.write a bs).chans = s.chans := by
  obtain ⟨_, _, _, _, _, _, _, _, _, _, _, _, h⟩ := Written.write s (a := a) (bs := bs) (Written.refl s)
  rw [h]
@[simp] theorem State.chans_writes (ws : List (Nat × List Byte)) : (s.writes ws).chans = s.chans := by
  obtain ⟨_, _, _, _, _, _, _, _, _, _, _, _, h⟩ := Written.writes s (ws := ws) (Written.refl s)
  rw [h]
@[simp] theorem State.fills_write (a : Nat) (bs : List Byte) : (s.write a bs).fills = s.fills := by
  obtain ⟨_, _, _, _, _, _, _, _, _, _, _, _, h⟩ := Written.write s (a := a) (bs := bs) (Written.refl s)
  rw [h]
@[simp] theorem State.fills_writes (ws : List (Nat × List Byte)) : (s.writes ws).fills = s.fills := by
  obtain ⟨_, _, _, _, _, _, _, _, _, _, _, _, h⟩ := Written.writes s (ws := ws) (Written.refl s)
  rw [h]
@[simp] theorem State.narrow_write (a : Nat) (bs : List Byte) : (s.write a bs).narrow = s.narrow := by
  obtain ⟨_, _, _, _, _, _, _, _, _, _, _, _, h⟩ := Written.write s (a := a) (bs := bs) (Written.refl s)
  rw [h]
@[simp] theorem State.narrow_writes (ws : List (Nat × List Byte)) : (s.writes ws).narrow = s.narrow := by
  obtain ⟨_, _, _, _, _, _, _, _, _, _, _, _, h⟩ := Written.writes s (ws := ws) (Written.refl s)
  rw [h]
@[simp] theorem State.remaps_write (a : Nat) (bs : List Byte) : (s.write a bs).remaps = s.remaps := by
  obtain ⟨_, _, _, _, _, _, _, _, _, _, _, _, h⟩ := Written.write s (a := a) (bs := bs) (Written.refl s)
  rw [h]
@[simp] theorem State.remaps_writes (ws : List (Nat × List Byte)) : (s.writes ws).remaps = s.remaps := by
  obtain ⟨_, _, _, _, _, _, _, _, _, _, _, _, h⟩ := Written.writes s (ws := ws) (Written.refl s)
  rw [h]
@[simp] theorem State.remapping_write (a : Nat) (bs : List Byte) : (s.write a bs).remapping = s.remapping := by
  obtain ⟨_, _, _, _, _, _, _, _, _, _, _, _, h⟩ := Written.write s (a := a) (bs := bs) (Written.refl s)
  rw [h]
@[simp] theorem State.remapping_writes (ws : List (Nat × List Byte)) : (s.writes ws).remapping = s.remapping := by
  obtain ⟨_, _, _, _, _, _, _, _, _, _, _, _, h⟩ := Written.writes s (ws := ws) (Written.refl s)
  rw [h]
@[simp] theorem State.mapoutWaits_write (a : Nat) (bs : List Byte) : (s.write a bs).mapoutWaits = s.mapoutWaits := by
  obtain ⟨_, _, _, _, _, _, _, _, _, _, _, _, h⟩ := Written.write s (a := a) (bs := bs) (Written.refl s)
  rw [h]
@[simp] theorem State.mapoutWaits_writes (ws : List (Nat × List Byte)) : (s.writes ws).mapoutWaits = s.mapoutWaits := by
  obtain ⟨_, _, _, _, _, _, _, _, _, _, _, _, h⟩ := Written.writes s (ws := ws) (Written.refl s)
  rw [h]
@[simp] theorem State.journal_write (a : Nat) (bs : List Byte) : (s.write a bs).journal = s.journal := by
  obtain ⟨_, _, _, _, _, _, _, _, _, _, _, _, h⟩ := Written.write s (a := a) (bs := bs) (Written.refl s)
  rw [h]
@[simp] theorem State.journal_writes (ws : List (Nat × List Byte)) : (s.writes ws).journal = s.journal := by
  obtain ⟨_, _, _, _, _, _, _, _, _, _, _, _, h⟩ := Written.writes s (ws := ws) (Written.refl s)
  rw [h]
@[simp] theorem State.pulses_write (a : Nat) (bs : List Byte) : (s.write a bs).pulses = s.pulses := by
  obtain ⟨_, _, _, _, _, _, _, _, _, _, _, _, h⟩ := Written.write s (a := a) (bs := bs) (Written.refl s)
  rw [h]
@[simp] theorem State.pulses_writes (ws : List (Nat × List Byte)) : (s.writes ws).pulses = s.pulses := by
  obtain ⟨_, _, _, _, _, _, _, _, _, _, _, _, h⟩ := Written.writes s (ws := ws) (Written.refl s)
  rw [h]
@[simp] theorem State.softPpr_write (a : Nat) (bs : List Byte) : (s.write a bs).softPpr = s.softPpr := by
  obtain ⟨_, _, _, _, _, _, _, _, _, _, _, _, h⟩ := Written.write s (a := a) (bs := bs) (Written.refl s)
  rw [h]
@[simp] theorem State.softPpr_writes (ws : List (Nat × List Byte)) : (s.writes ws).softPpr = s.softPpr := by
  obtain ⟨_, _, _, _, _, _, _, _, _, _, _, _, h⟩ := Written.writes s (ws := ws) (Written.refl s)
  rw [h]
@[simp] theorem State.segments_write (a : Nat) (bs : List Byte) : (s.write a bs).segments = s.segments := by
  obtain ⟨_, _, _, _, _, _, _, _, _, _, _, _, h⟩ := Written.write s (a := a) (bs := bs) (Written.refl s)
  rw [h]
@[simp] theorem State.segments_writes (ws : List (Nat × List Byte)) : (s.writes ws).segments = s.segments := by
  obtain ⟨_, _, _, _, _, _, _, _, _, _, _, _, h⟩ := Written.writes s (ws := ws) (Written.refl s)
  rw [h]
@[simp] theorem State.shards_write (a : Nat) (bs : List Byte) : (s.write a bs).shards = s.shards := by
  obtain ⟨_, _, _, _, _, _, _, _, _, _, _, _, h⟩ := Written.write s (a := a) (bs := bs) (Written.refl s)
  rw [h]
@[simp] theorem State.shards_writes (ws : List (Nat × List Byte)) : (s.writes ws).shards = s.shards := by
  obtain ⟨_, _, _, _, _, _, _, _, _, _, _, _, h⟩ := Written.writes s (ws := ws) (Written.refl s)
  rw [h]
@[simp] theorem State.drains_write (a : Nat) (bs : List Byte) : (s.write a bs).drains = s.drains := by
  obtain ⟨_, _, _, _, _, _, _, _, _, _, _, _, h⟩ := Written.write s (a := a) (bs := bs) (Written.refl s)
  rw [h]
@[simp] theorem State.drains_writes (ws : List (Nat × List Byte)) : (s.writes ws).drains = s.drains := by
  obtain ⟨_, _, _, _, _, _, _, _, _, _, _, _, h⟩ := Written.writes s (ws := ws) (Written.refl s)
  rw [h]
@[simp] theorem State.recovery_write (a : Nat) (bs : List Byte) : (s.write a bs).recovery = s.recovery := by
  obtain ⟨_, _, _, _, _, _, _, _, _, _, _, _, h⟩ := Written.write s (a := a) (bs := bs) (Written.refl s)
  rw [h]
@[simp] theorem State.recovery_writes (ws : List (Nat × List Byte)) : (s.writes ws).recovery = s.recovery := by
  obtain ⟨_, _, _, _, _, _, _, _, _, _, _, _, h⟩ := Written.writes s (ws := ws) (Written.refl s)
  rw [h]
@[simp] theorem State.jobEpochs_write (a : Nat) (bs : List Byte) : (s.write a bs).jobEpochs = s.jobEpochs := by
  obtain ⟨_, _, _, _, _, _, _, _, _, _, _, _, h⟩ := Written.write s (a := a) (bs := bs) (Written.refl s)
  rw [h]
@[simp] theorem State.jobEpochs_writes (ws : List (Nat × List Byte)) : (s.writes ws).jobEpochs = s.jobEpochs := by
  obtain ⟨_, _, _, _, _, _, _, _, _, _, _, _, h⟩ := Written.writes s (ws := ws) (Written.refl s)
  rw [h]
@[simp] theorem State.kept_write (a : Nat) (bs : List Byte) : (s.write a bs).kept = s.kept := by
  obtain ⟨_, _, _, _, _, _, _, _, _, _, _, _, h⟩ := Written.write s (a := a) (bs := bs) (Written.refl s)
  rw [h]
@[simp] theorem State.kept_writes (ws : List (Nat × List Byte)) : (s.writes ws).kept = s.kept := by
  obtain ⟨_, _, _, _, _, _, _, _, _, _, _, _, h⟩ := Written.writes s (ws := ws) (Written.refl s)
  rw [h]
@[simp] theorem State.keptFor_write (a : Nat) (bs : List Byte) : (s.write a bs).keptFor = s.keptFor := by
  obtain ⟨_, _, _, _, _, _, _, _, _, _, _, _, h⟩ := Written.write s (a := a) (bs := bs) (Written.refl s)
  rw [h]
@[simp] theorem State.keptFor_writes (ws : List (Nat × List Byte)) : (s.writes ws).keptFor = s.keptFor := by
  obtain ⟨_, _, _, _, _, _, _, _, _, _, _, _, h⟩ := Written.writes s (ws := ws) (Written.refl s)
  rw [h]
@[simp] theorem State.waiting_write (a : Nat) (bs : List Byte) : (s.write a bs).waiting = s.waiting := by
  obtain ⟨_, _, _, _, _, _, _, _, _, _, _, _, h⟩ := Written.write s (a := a) (bs := bs) (Written.refl s)
  rw [h]
@[simp] theorem State.waiting_writes (ws : List (Nat × List Byte)) : (s.writes ws).waiting = s.waiting := by
  obtain ⟨_, _, _, _, _, _, _, _, _, _, _, _, h⟩ := Written.writes s (ws := ws) (Written.refl s)
  rw [h]
@[simp] theorem State.xwMsg_write (a : Nat) (bs : List Byte) : (s.write a bs).xwMsg = s.xwMsg := by
  obtain ⟨_, _, _, _, _, _, _, _, _, _, _, _, h⟩ := Written.write s (a := a) (bs := bs) (Written.refl s)
  rw [h]
@[simp] theorem State.xwMsg_writes (ws : List (Nat × List Byte)) : (s.writes ws).xwMsg = s.xwMsg := by
  obtain ⟨_, _, _, _, _, _, _, _, _, _, _, _, h⟩ := Written.writes s (ws := ws) (Written.refl s)
  rw [h]
@[simp] theorem State.xwOwn_write (a : Nat) (bs : List Byte) : (s.write a bs).xwOwn = s.xwOwn := by
  obtain ⟨_, _, _, _, _, _, _, _, _, _, _, _, h⟩ := Written.write s (a := a) (bs := bs) (Written.refl s)
  rw [h]
@[simp] theorem State.xwOwn_writes (ws : List (Nat × List Byte)) : (s.writes ws).xwOwn = s.xwOwn := by
  obtain ⟨_, _, _, _, _, _, _, _, _, _, _, _, h⟩ := Written.writes s (ws := ws) (Written.refl s)
  rw [h]
@[simp] theorem State.xwTheirs_write (a : Nat) (bs : List Byte) : (s.write a bs).xwTheirs = s.xwTheirs := by
  obtain ⟨_, _, _, _, _, _, _, _, _, _, _, _, h⟩ := Written.write s (a := a) (bs := bs) (Written.refl s)
  rw [h]
@[simp] theorem State.xwTheirs_writes (ws : List (Nat × List Byte)) : (s.writes ws).xwTheirs = s.xwTheirs := by
  obtain ⟨_, _, _, _, _, _, _, _, _, _, _, _, h⟩ := Written.writes s (ws := ws) (Written.refl s)
  rw [h]
@[simp] theorem State.xwStreams_write (a : Nat) (bs : List Byte) : (s.write a bs).xwStreams = s.xwStreams := by
  obtain ⟨_, _, _, _, _, _, _, _, _, _, _, _, h⟩ := Written.write s (a := a) (bs := bs) (Written.refl s)
  rw [h]
@[simp] theorem State.xwStreams_writes (ws : List (Nat × List Byte)) : (s.writes ws).xwStreams = s.xwStreams := by
  obtain ⟨_, _, _, _, _, _, _, _, _, _, _, _, h⟩ := Written.writes s (ws := ws) (Written.refl s)
  rw [h]
@[simp] theorem State.xwDiff_write (a : Nat) (bs : List Byte) : (s.write a bs).xwDiff = s.xwDiff := by
  obtain ⟨_, _, _, _, _, _, _, _, _, _, _, _, h⟩ := Written.write s (a := a) (bs := bs) (Written.refl s)
  rw [h]
@[simp] theorem State.xwDiff_writes (ws : List (Nat × List Byte)) : (s.writes ws).xwDiff = s.xwDiff := by
  obtain ⟨_, _, _, _, _, _, _, _, _, _, _, _, h⟩ := Written.writes s (ws := ws) (Written.refl s)
  rw [h]
@[simp] theorem State.rung_write (a : Nat) (bs : List Byte) : (s.write a bs).rung = s.rung := by
  obtain ⟨_, _, _, _, _, _, _, _, _, _, _, _, h⟩ := Written.write s (a := a) (bs := bs) (Written.refl s)
  rw [h]
@[simp] theorem State.rung_writes (ws : List (Nat × List Byte)) : (s.writes ws).rung = s.rung := by
  obtain ⟨_, _, _, _, _, _, _, _, _, _, _, _, h⟩ := Written.writes s (ws := ws) (Written.refl s)
  rw [h]
@[simp] theorem State.cmds_write (a : Nat) (bs : List Byte) : (s.write a bs).cmds = s.cmds := by
  obtain ⟨_, _, _, _, _, _, _, _, _, _, _, _, h⟩ := Written.write s (a := a) (bs := bs) (Written.refl s)
  rw [h]
@[simp] theorem State.cmds_writes (ws : List (Nat × List Byte)) : (s.writes ws).cmds = s.cmds := by
  obtain ⟨_, _, _, _, _, _, _, _, _, _, _, _, h⟩ := Written.writes s (ws := ws) (Written.refl s)
  rw [h]
@[simp] theorem State.cqHeld_write (a : Nat) (bs : List Byte) : (s.write a bs).cqHeld = s.cqHeld := by
  obtain ⟨_, _, _, _, _, _, _, _, _, _, _, _, h⟩ := Written.write s (a := a) (bs := bs) (Written.refl s)
  rw [h]
@[simp] theorem State.cqHeld_writes (ws : List (Nat × List Byte)) : (s.writes ws).cqHeld = s.cqHeld := by
  obtain ⟨_, _, _, _, _, _, _, _, _, _, _, _, h⟩ := Written.writes s (ws := ws) (Written.refl s)
  rw [h]
@[simp] theorem State.errorLog_write (a : Nat) (bs : List Byte) : (s.write a bs).errorLog = s.errorLog := by
  obtain ⟨_, _, _, _, _, _, _, _, _, _, _, _, h⟩ := Written.write s (a := a) (bs := bs) (Written.refl s)
  rw [h]
@[simp] theorem State.errorLog_writes (ws : List (Nat × List Byte)) : (s.writes ws).errorLog = s.errorLog := by
  obtain ⟨_, _, _, _, _, _, _, _, _, _, _, _, h⟩ := Written.writes s (ws := ws) (Written.refl s)
  rw [h]
@[simp] theorem State.squallEvents_write (a : Nat) (bs : List Byte) : (s.write a bs).squallEvents = s.squallEvents := by
  obtain ⟨_, _, _, _, _, _, _, _, _, _, _, _, h⟩ := Written.write s (a := a) (bs := bs) (Written.refl s)
  rw [h]
@[simp] theorem State.squallEvents_writes (ws : List (Nat × List Byte)) : (s.writes ws).squallEvents = s.squallEvents := by
  obtain ⟨_, _, _, _, _, _, _, _, _, _, _, _, h⟩ := Written.writes s (ws := ws) (Written.refl s)
  rw [h]
@[simp] theorem State.audit_write (a : Nat) (bs : List Byte) : (s.write a bs).audit = s.audit := by
  obtain ⟨_, _, _, _, _, _, _, _, _, _, _, _, h⟩ := Written.write s (a := a) (bs := bs) (Written.refl s)
  rw [h]
@[simp] theorem State.audit_writes (ws : List (Nat × List Byte)) : (s.writes ws).audit = s.audit := by
  obtain ⟨_, _, _, _, _, _, _, _, _, _, _, _, h⟩ := Written.writes s (ws := ws) (Written.refl s)
  rw [h]
@[simp] theorem State.mirror_write (a : Nat) (bs : List Byte) : (s.write a bs).mirror = s.mirror := by
  obtain ⟨_, _, _, _, _, _, _, _, _, _, _, _, h⟩ := Written.write s (a := a) (bs := bs) (Written.refl s)
  rw [h]
@[simp] theorem State.mirror_writes (ws : List (Nat × List Byte)) : (s.writes ws).mirror = s.mirror := by
  obtain ⟨_, _, _, _, _, _, _, _, _, _, _, _, h⟩ := Written.writes s (ws := ws) (Written.refl s)
  rw [h]
@[simp] theorem State.sessions_write (a : Nat) (bs : List Byte) : (s.write a bs).sessions = s.sessions := by
  obtain ⟨_, _, _, _, _, _, _, _, _, _, _, _, h⟩ := Written.write s (a := a) (bs := bs) (Written.refl s)
  rw [h]
@[simp] theorem State.sessions_writes (ws : List (Nat × List Byte)) : (s.writes ws).sessions = s.sessions := by
  obtain ⟨_, _, _, _, _, _, _, _, _, _, _, _, h⟩ := Written.writes s (ws := ws) (Written.refl s)
  rw [h]
@[simp] theorem State.assemblies_write (a : Nat) (bs : List Byte) : (s.write a bs).assemblies = s.assemblies := by
  obtain ⟨_, _, _, _, _, _, _, _, _, _, _, _, h⟩ := Written.write s (a := a) (bs := bs) (Written.refl s)
  rw [h]
@[simp] theorem State.assemblies_writes (ws : List (Nat × List Byte)) : (s.writes ws).assemblies = s.assemblies := by
  obtain ⟨_, _, _, _, _, _, _, _, _, _, _, _, h⟩ := Written.writes s (ws := ws) (Written.refl s)
  rw [h]
@[simp] theorem State.answers_write (a : Nat) (bs : List Byte) : (s.write a bs).answers = s.answers := by
  obtain ⟨_, _, _, _, _, _, _, _, _, _, _, _, h⟩ := Written.write s (a := a) (bs := bs) (Written.refl s)
  rw [h]
@[simp] theorem State.answers_writes (ws : List (Nat × List Byte)) : (s.writes ws).answers = s.answers := by
  obtain ⟨_, _, _, _, _, _, _, _, _, _, _, _, h⟩ := Written.writes s (ws := ws) (Written.refl s)
  rw [h]
@[simp] theorem State.subs_write (a : Nat) (bs : List Byte) : (s.write a bs).subs = s.subs := by
  obtain ⟨_, _, _, _, _, _, _, _, _, _, _, _, h⟩ := Written.write s (a := a) (bs := bs) (Written.refl s)
  rw [h]
@[simp] theorem State.subs_writes (ws : List (Nat × List Byte)) : (s.writes ws).subs = s.subs := by
  obtain ⟨_, _, _, _, _, _, _, _, _, _, _, _, h⟩ := Written.writes s (ws := ws) (Written.refl s)
  rw [h]
@[simp] theorem State.frozen_write (a : Nat) (bs : List Byte) : (s.write a bs).frozen = s.frozen := by
  obtain ⟨_, _, _, _, _, _, _, _, _, _, _, _, h⟩ := Written.write s (a := a) (bs := bs) (Written.refl s)
  rw [h]
@[simp] theorem State.frozen_writes (ws : List (Nat × List Byte)) : (s.writes ws).frozen = s.frozen := by
  obtain ⟨_, _, _, _, _, _, _, _, _, _, _, _, h⟩ := Written.writes s (ws := ws) (Written.refl s)
  rw [h]
@[simp] theorem State.late_write (a : Nat) (bs : List Byte) : (s.write a bs).late = s.late := by
  obtain ⟨_, _, _, _, _, _, _, _, _, _, _, _, h⟩ := Written.write s (a := a) (bs := bs) (Written.refl s)
  rw [h]
@[simp] theorem State.late_writes (ws : List (Nat × List Byte)) : (s.writes ws).late = s.late := by
  obtain ⟨_, _, _, _, _, _, _, _, _, _, _, _, h⟩ := Written.writes s (ws := ws) (Written.refl s)
  rw [h]
@[simp] theorem State.out_write (a : Nat) (bs : List Byte) : (s.write a bs).out = s.out := by
  obtain ⟨_, _, _, _, _, _, _, _, _, _, _, _, h⟩ := Written.write s (a := a) (bs := bs) (Written.refl s)
  rw [h]
@[simp] theorem State.out_writes (ws : List (Nat × List Byte)) : (s.writes ws).out = s.out := by
  obtain ⟨_, _, _, _, _, _, _, _, _, _, _, _, h⟩ := Written.writes s (ws := ws) (Written.refl s)
  rw [h]
@[simp] theorem State.pending_appendAudit (o g p r f : Nat) (a b : List Byte) : (s.appendAudit o g p r f a b).pending = s.pending := by
  obtain ⟨_, _, _, _, h⟩ := logged_appendAudit s o g p r f a b
  rw [h]
@[simp] theorem State.pending_change (r : Reg) (i v : Nat) : (s.change r i v).pending = s.pending := by
  obtain ⟨_, _, _, _, h⟩ := logged_change s r i v
  rw [h]
@[simp] theorem State.pending_logError (e : ErrorEvent) : (s.logError e).pending = s.pending := by
  obtain ⟨_, _, _, _, _, _, _, _, _, _, _, _, _, _, _, _, _, _, _, h⟩ := recorded_logError s e
  rw [h]
@[simp] theorem State.now_appendAudit (o g p r f : Nat) (a b : List Byte) : (s.appendAudit o g p r f a b).now = s.now := by
  obtain ⟨_, _, _, _, h⟩ := logged_appendAudit s o g p r f a b
  rw [h]
@[simp] theorem State.now_change (r : Reg) (i v : Nat) : (s.change r i v).now = s.now := by
  obtain ⟨_, _, _, _, h⟩ := logged_change s r i v
  rw [h]
@[simp] theorem State.now_logError (e : ErrorEvent) : (s.logError e).now = s.now := by
  obtain ⟨_, _, _, _, _, _, _, _, _, _, _, _, _, _, _, _, _, _, _, h⟩ := recorded_logError s e
  rw [h]
@[simp] theorem State.free_appendAudit (o g p r f : Nat) (a b : List Byte) : (s.appendAudit o g p r f a b).free = s.free := by
  obtain ⟨_, _, _, _, h⟩ := logged_appendAudit s o g p r f a b
  rw [h]
@[simp] theorem State.free_change (r : Reg) (i v : Nat) : (s.change r i v).free = s.free := by
  obtain ⟨_, _, _, _, h⟩ := logged_change s r i v
  rw [h]
@[simp] theorem State.deferred_appendAudit (o g p r f : Nat) (a b : List Byte) : (s.appendAudit o g p r f a b).deferred = s.deferred := by
  obtain ⟨_, _, _, _, h⟩ := logged_appendAudit s o g p r f a b
  rw [h]
@[simp] theorem State.deferred_change (r : Reg) (i v : Nat) : (s.change r i v).deferred = s.deferred := by
  obtain ⟨_, _, _, _, h⟩ := logged_change s r i v
  rw [h]
@[simp] theorem State.deferred_logError (e : ErrorEvent) : (s.logError e).deferred = s.deferred := by
  obtain ⟨_, _, _, _, _, _, _, _, _, _, _, _, _, _, _, _, _, _, _, h⟩ := recorded_logError s e
  rw [h]
@[simp] theorem State.mem_appendAudit (o g p r f : Nat) (a b : List Byte) : (s.appendAudit o g p r f a b).mem = s.mem := by
  obtain ⟨_, _, _, _, h⟩ := logged_appendAudit s o g p r f a b
  rw [h]
@[simp] theorem State.mem_change (r : Reg) (i v : Nat) : (s.change r i v).mem = s.mem := by
  obtain ⟨_, _, _, _, h⟩ := logged_change s r i v
  rw [h]
@[simp] theorem State.poisonAtoms_appendAudit (o g p r f : Nat) (a b : List Byte) : (s.appendAudit o g p r f a b).poisonAtoms = s.poisonAtoms := by
  obtain ⟨_, _, _, _, h⟩ := logged_appendAudit s o g p r f a b
  rw [h]
@[simp] theorem State.poisonAtoms_change (r : Reg) (i v : Nat) : (s.change r i v).poisonAtoms = s.poisonAtoms := by
  obtain ⟨_, _, _, _, h⟩ := logged_change s r i v
  rw [h]
@[simp] theorem State.poisonWords_appendAudit (o g p r f : Nat) (a b : List Byte) : (s.appendAudit o g p r f a b).poisonWords = s.poisonWords := by
  obtain ⟨_, _, _, _, h⟩ := logged_appendAudit s o g p r f a b
  rw [h]
@[simp] theorem State.poisonWords_change (r : Reg) (i v : Nat) : (s.change r i v).poisonWords = s.poisonWords := by
  obtain ⟨_, _, _, _, h⟩ := logged_change s r i v
  rw [h]
@[simp] theorem State.bays_appendAudit (o g p r f : Nat) (a b : List Byte) : (s.appendAudit o g p r f a b).bays = s.bays := by
  obtain ⟨_, _, _, _, h⟩ := logged_appendAudit s o g p r f a b
  rw [h]
@[simp] theorem State.bays_change (r : Reg) (i v : Nat) : (s.change r i v).bays = s.bays := by
  obtain ⟨_, _, _, _, h⟩ := logged_change s r i v
  rw [h]
@[simp] theorem State.bays_logError (e : ErrorEvent) : (s.logError e).bays = s.bays := by
  obtain ⟨_, _, _, _, _, _, _, _, _, _, _, _, _, _, _, _, _, _, _, h⟩ := recorded_logError s e
  rw [h]
@[simp] theorem State.tests_appendAudit (o g p r f : Nat) (a b : List Byte) : (s.appendAudit o g p r f a b).tests = s.tests := by
  obtain ⟨_, _, _, _, h⟩ := logged_appendAudit s o g p r f a b
  rw [h]
@[simp] theorem State.tests_change (r : Reg) (i v : Nat) : (s.change r i v).tests = s.tests := by
  obtain ⟨_, _, _, _, h⟩ := logged_change s r i v
  rw [h]
@[simp] theorem State.tests_logError (e : ErrorEvent) : (s.logError e).tests = s.tests := by
  obtain ⟨_, _, _, _, _, _, _, _, _, _, _, _, _, _, _, _, _, _, _, h⟩ := recorded_logError s e
  rw [h]
@[simp] theorem State.copies_appendAudit (o g p r f : Nat) (a b : List Byte) : (s.appendAudit o g p r f a b).copies = s.copies := by
  obtain ⟨_, _, _, _, h⟩ := logged_appendAudit s o g p r f a b
  rw [h]
@[simp] theorem State.copies_change (r : Reg) (i v : Nat) : (s.change r i v).copies = s.copies := by
  obtain ⟨_, _, _, _, h⟩ := logged_change s r i v
  rw [h]
@[simp] theorem State.copies_logError (e : ErrorEvent) : (s.logError e).copies = s.copies := by
  obtain ⟨_, _, _, _, _, _, _, _, _, _, _, _, _, _, _, _, _, _, _, h⟩ := recorded_logError s e
  rw [h]
@[simp] theorem State.tailwind_appendAudit (o g p r f : Nat) (a b : List Byte) : (s.appendAudit o g p r f a b).tailwind = s.tailwind := by
  obtain ⟨_, _, _, _, h⟩ := logged_appendAudit s o g p r f a b
  rw [h]
@[simp] theorem State.retry_appendAudit (o g p r f : Nat) (a b : List Byte) : (s.appendAudit o g p r f a b).retry = s.retry := by
  obtain ⟨_, _, _, _, h⟩ := logged_appendAudit s o g p r f a b
  rw [h]
@[simp] theorem State.linkQueue_appendAudit (o g p r f : Nat) (a b : List Byte) : (s.appendAudit o g p r f a b).linkQueue = s.linkQueue := by
  obtain ⟨_, _, _, _, h⟩ := logged_appendAudit s o g p r f a b
  rw [h]
@[simp] theorem State.flitNext_appendAudit (o g p r f : Nat) (a b : List Byte) : (s.appendAudit o g p r f a b).flitNext = s.flitNext := by
  obtain ⟨_, _, _, _, h⟩ := logged_appendAudit s o g p r f a b
  rw [h]
@[simp] theorem State.stuck_appendAudit (o g p r f : Nat) (a b : List Byte) : (s.appendAudit o g p r f a b).stuck = s.stuck := by
  obtain ⟨_, _, _, _, h⟩ := logged_appendAudit s o g p r f a b
  rw [h]
@[simp] theorem State.answered_appendAudit (o g p r f : Nat) (a b : List Byte) : (s.appendAudit o g p r f a b).answered = s.answered := by
  obtain ⟨_, _, _, _, h⟩ := logged_appendAudit s o g p r f a b
  rw [h]
@[simp] theorem State.refusals_appendAudit (o g p r f : Nat) (a b : List Byte) : (s.appendAudit o g p r f a b).refusals = s.refusals := by
  obtain ⟨_, _, _, _, h⟩ := logged_appendAudit s o g p r f a b
  rw [h]
@[simp] theorem State.chanStalled_appendAudit (o g p r f : Nat) (a b : List Byte) : (s.appendAudit o g p r f a b).chanStalled = s.chanStalled := by
  obtain ⟨_, _, _, _, h⟩ := logged_appendAudit s o g p r f a b
  rw [h]
@[simp] theorem State.sliceHeld_appendAudit (o g p r f : Nat) (a b : List Byte) : (s.appendAudit o g p r f a b).sliceHeld = s.sliceHeld := by
  obtain ⟨_, _, _, _, h⟩ := logged_appendAudit s o g p r f a b
  rw [h]
@[simp] theorem State.merging_appendAudit (o g p r f : Nat) (a b : List Byte) : (s.appendAudit o g p r f a b).merging = s.merging := by
  obtain ⟨_, _, _, _, h⟩ := logged_appendAudit s o g p r f a b
  rw [h]
@[simp] theorem State.migrated_appendAudit (o g p r f : Nat) (a b : List Byte) : (s.appendAudit o g p r f a b).migrated = s.migrated := by
  obtain ⟨_, _, _, _, h⟩ := logged_appendAudit s o g p r f a b
  rw [h]
@[simp] theorem State.recent_appendAudit (o g p r f : Nat) (a b : List Byte) : (s.appendAudit o g p r f a b).recent = s.recent := by
  obtain ⟨_, _, _, _, h⟩ := logged_appendAudit s o g p r f a b
  rw [h]
@[simp] theorem State.pclks_appendAudit (o g p r f : Nat) (a b : List Byte) : (s.appendAudit o g p r f a b).pclks = s.pclks := by
  obtain ⟨_, _, _, _, h⟩ := logged_appendAudit s o g p r f a b
  rw [h]
@[simp] theorem State.llm_appendAudit (o g p r f : Nat) (a b : List Byte) : (s.appendAudit o g p r f a b).llm = s.llm := by
  obtain ⟨_, _, _, _, h⟩ := logged_appendAudit s o g p r f a b
  rw [h]
@[simp] theorem State.corrections_appendAudit (o g p r f : Nat) (a b : List Byte) : (s.appendAudit o g p r f a b).corrections = s.corrections := by
  obtain ⟨_, _, _, _, h⟩ := logged_appendAudit s o g p r f a b
  rw [h]
@[simp] theorem State.chanQueue_appendAudit (o g p r f : Nat) (a b : List Byte) : (s.appendAudit o g p r f a b).chanQueue = s.chanQueue := by
  obtain ⟨_, _, _, _, h⟩ := logged_appendAudit s o g p r f a b
  rw [h]
@[simp] theorem State.narrowHeld_appendAudit (o g p r f : Nat) (a b : List Byte) : (s.appendAudit o g p r f a b).narrowHeld = s.narrowHeld := by
  obtain ⟨_, _, _, _, h⟩ := logged_appendAudit s o g p r f a b
  rw [h]
@[simp] theorem State.moved_appendAudit (o g p r f : Nat) (a b : List Byte) : (s.appendAudit o g p r f a b).moved = s.moved := by
  obtain ⟨_, _, _, _, h⟩ := logged_appendAudit s o g p r f a b
  rw [h]
@[simp] theorem State.spareMarks_appendAudit (o g p r f : Nat) (a b : List Byte) : (s.appendAudit o g p r f a b).spareMarks = s.spareMarks := by
  obtain ⟨_, _, _, _, h⟩ := logged_appendAudit s o g p r f a b
  rw [h]
@[simp] theorem State.tailwind_change (r : Reg) (i v : Nat) : (s.change r i v).tailwind = s.tailwind := by
  obtain ⟨_, _, _, _, h⟩ := logged_change s r i v
  rw [h]
@[simp] theorem State.retry_change (r : Reg) (i v : Nat) : (s.change r i v).retry = s.retry := by
  obtain ⟨_, _, _, _, h⟩ := logged_change s r i v
  rw [h]
@[simp] theorem State.linkQueue_change (r : Reg) (i v : Nat) : (s.change r i v).linkQueue = s.linkQueue := by
  obtain ⟨_, _, _, _, h⟩ := logged_change s r i v
  rw [h]
@[simp] theorem State.flitNext_change (r : Reg) (i v : Nat) : (s.change r i v).flitNext = s.flitNext := by
  obtain ⟨_, _, _, _, h⟩ := logged_change s r i v
  rw [h]
@[simp] theorem State.stuck_change (r : Reg) (i v : Nat) : (s.change r i v).stuck = s.stuck := by
  obtain ⟨_, _, _, _, h⟩ := logged_change s r i v
  rw [h]
@[simp] theorem State.answered_change (r : Reg) (i v : Nat) : (s.change r i v).answered = s.answered := by
  obtain ⟨_, _, _, _, h⟩ := logged_change s r i v
  rw [h]
@[simp] theorem State.refusals_change (r : Reg) (i v : Nat) : (s.change r i v).refusals = s.refusals := by
  obtain ⟨_, _, _, _, h⟩ := logged_change s r i v
  rw [h]
@[simp] theorem State.chanStalled_change (r : Reg) (i v : Nat) : (s.change r i v).chanStalled = s.chanStalled := by
  obtain ⟨_, _, _, _, h⟩ := logged_change s r i v
  rw [h]
@[simp] theorem State.sliceHeld_change (r : Reg) (i v : Nat) : (s.change r i v).sliceHeld = s.sliceHeld := by
  obtain ⟨_, _, _, _, h⟩ := logged_change s r i v
  rw [h]
@[simp] theorem State.merging_change (r : Reg) (i v : Nat) : (s.change r i v).merging = s.merging := by
  obtain ⟨_, _, _, _, h⟩ := logged_change s r i v
  rw [h]
@[simp] theorem State.migrated_change (r : Reg) (i v : Nat) : (s.change r i v).migrated = s.migrated := by
  obtain ⟨_, _, _, _, h⟩ := logged_change s r i v
  rw [h]
@[simp] theorem State.recent_change (r : Reg) (i v : Nat) : (s.change r i v).recent = s.recent := by
  obtain ⟨_, _, _, _, h⟩ := logged_change s r i v
  rw [h]
@[simp] theorem State.pclks_change (r : Reg) (i v : Nat) : (s.change r i v).pclks = s.pclks := by
  obtain ⟨_, _, _, _, h⟩ := logged_change s r i v
  rw [h]
@[simp] theorem State.llm_change (r : Reg) (i v : Nat) : (s.change r i v).llm = s.llm := by
  obtain ⟨_, _, _, _, h⟩ := logged_change s r i v
  rw [h]
@[simp] theorem State.corrections_change (r : Reg) (i v : Nat) : (s.change r i v).corrections = s.corrections := by
  obtain ⟨_, _, _, _, h⟩ := logged_change s r i v
  rw [h]
@[simp] theorem State.chanQueue_change (r : Reg) (i v : Nat) : (s.change r i v).chanQueue = s.chanQueue := by
  obtain ⟨_, _, _, _, h⟩ := logged_change s r i v
  rw [h]
@[simp] theorem State.narrowHeld_change (r : Reg) (i v : Nat) : (s.change r i v).narrowHeld = s.narrowHeld := by
  obtain ⟨_, _, _, _, h⟩ := logged_change s r i v
  rw [h]
@[simp] theorem State.moved_change (r : Reg) (i v : Nat) : (s.change r i v).moved = s.moved := by
  obtain ⟨_, _, _, _, h⟩ := logged_change s r i v
  rw [h]
@[simp] theorem State.spareMarks_change (r : Reg) (i v : Nat) : (s.change r i v).spareMarks = s.spareMarks := by
  obtain ⟨_, _, _, _, h⟩ := logged_change s r i v
  rw [h]
@[simp] theorem State.tailwind_logError (e : ErrorEvent) : (s.logError e).tailwind = s.tailwind := by
  obtain ⟨_, _, _, _, _, _, _, _, _, _, _, _, _, _, _, _, _, _, _, h⟩ := recorded_logError s e
  rw [h]
@[simp] theorem State.retry_logError (e : ErrorEvent) : (s.logError e).retry = s.retry := by
  obtain ⟨_, _, _, _, _, _, _, _, _, _, _, _, _, _, _, _, _, _, _, h⟩ := recorded_logError s e
  rw [h]
@[simp] theorem State.linkQueue_logError (e : ErrorEvent) : (s.logError e).linkQueue = s.linkQueue := by
  obtain ⟨_, _, _, _, _, _, _, _, _, _, _, _, _, _, _, _, _, _, _, h⟩ := recorded_logError s e
  rw [h]
@[simp] theorem State.flitNext_logError (e : ErrorEvent) : (s.logError e).flitNext = s.flitNext := by
  obtain ⟨_, _, _, _, _, _, _, _, _, _, _, _, _, _, _, _, _, _, _, h⟩ := recorded_logError s e
  rw [h]
@[simp] theorem State.stuck_logError (e : ErrorEvent) : (s.logError e).stuck = s.stuck := by
  obtain ⟨_, _, _, _, _, _, _, _, _, _, _, _, _, _, _, _, _, _, _, h⟩ := recorded_logError s e
  rw [h]
@[simp] theorem State.answered_logError (e : ErrorEvent) : (s.logError e).answered = s.answered := by
  obtain ⟨_, _, _, _, _, _, _, _, _, _, _, _, _, _, _, _, _, _, _, h⟩ := recorded_logError s e
  rw [h]
@[simp] theorem State.refusals_logError (e : ErrorEvent) : (s.logError e).refusals = s.refusals := by
  obtain ⟨_, _, _, _, _, _, _, _, _, _, _, _, _, _, _, _, _, _, _, h⟩ := recorded_logError s e
  rw [h]
@[simp] theorem State.chanStalled_logError (e : ErrorEvent) : (s.logError e).chanStalled = s.chanStalled := by
  obtain ⟨_, _, _, _, _, _, _, _, _, _, _, _, _, _, _, _, _, _, _, h⟩ := recorded_logError s e
  rw [h]
@[simp] theorem State.sliceHeld_logError (e : ErrorEvent) : (s.logError e).sliceHeld = s.sliceHeld := by
  obtain ⟨_, _, _, _, _, _, _, _, _, _, _, _, _, _, _, _, _, _, _, h⟩ := recorded_logError s e
  rw [h]
@[simp] theorem State.migrated_logError (e : ErrorEvent) : (s.logError e).migrated = s.migrated := by
  obtain ⟨_, _, _, _, _, _, _, _, _, _, _, _, _, _, _, _, _, _, _, h⟩ := recorded_logError s e
  rw [h]
@[simp] theorem State.recent_logError (e : ErrorEvent) : (s.logError e).recent = s.recent := by
  obtain ⟨_, _, _, _, _, _, _, _, _, _, _, _, _, _, _, _, _, _, _, h⟩ := recorded_logError s e
  rw [h]
@[simp] theorem State.pclks_logError (e : ErrorEvent) : (s.logError e).pclks = s.pclks := by
  obtain ⟨_, _, _, _, _, _, _, _, _, _, _, _, _, _, _, _, _, _, _, h⟩ := recorded_logError s e
  rw [h]
@[simp] theorem State.corrections_logError (e : ErrorEvent) : (s.logError e).corrections = s.corrections := by
  obtain ⟨_, _, _, _, _, _, _, _, _, _, _, _, _, _, _, _, _, _, _, h⟩ := recorded_logError s e
  rw [h]
@[simp] theorem State.chanQueue_logError (e : ErrorEvent) : (s.logError e).chanQueue = s.chanQueue := by
  obtain ⟨_, _, _, _, _, _, _, _, _, _, _, _, _, _, _, _, _, _, _, h⟩ := recorded_logError s e
  rw [h]
@[simp] theorem State.narrowHeld_logError (e : ErrorEvent) : (s.logError e).narrowHeld = s.narrowHeld := by
  obtain ⟨_, _, _, _, _, _, _, _, _, _, _, _, _, _, _, _, _, _, _, h⟩ := recorded_logError s e
  rw [h]
@[simp] theorem State.spareMarks_logError (e : ErrorEvent) : (s.logError e).spareMarks = s.spareMarks := by
  obtain ⟨_, _, _, _, _, _, _, _, _, _, _, _, _, _, _, _, _, _, _, h⟩ := recorded_logError s e
  rw [h]
@[simp] theorem State.seqOut_appendAudit (o g p r f : Nat) (a b : List Byte) : (s.appendAudit o g p r f a b).seqOut = s.seqOut := by
  obtain ⟨_, _, _, _, h⟩ := logged_appendAudit s o g p r f a b
  rw [h]
@[simp] theorem State.seqOut_change (r : Reg) (i v : Nat) : (s.change r i v).seqOut = s.seqOut := by
  obtain ⟨_, _, _, _, h⟩ := logged_change s r i v
  rw [h]
@[simp] theorem State.seqOut_logError (e : ErrorEvent) : (s.logError e).seqOut = s.seqOut := by
  obtain ⟨_, _, _, _, _, _, _, _, _, _, _, _, _, _, _, _, _, _, _, h⟩ := recorded_logError s e
  rw [h]
@[simp] theorem State.seqIn_appendAudit (o g p r f : Nat) (a b : List Byte) : (s.appendAudit o g p r f a b).seqIn = s.seqIn := by
  obtain ⟨_, _, _, _, h⟩ := logged_appendAudit s o g p r f a b
  rw [h]
@[simp] theorem State.seqIn_change (r : Reg) (i v : Nat) : (s.change r i v).seqIn = s.seqIn := by
  obtain ⟨_, _, _, _, h⟩ := logged_change s r i v
  rw [h]
@[simp] theorem State.seqIn_logError (e : ErrorEvent) : (s.logError e).seqIn = s.seqIn := by
  obtain ⟨_, _, _, _, _, _, _, _, _, _, _, _, _, _, _, _, _, _, _, h⟩ := recorded_logError s e
  rw [h]
@[simp] theorem State.early_appendAudit (o g p r f : Nat) (a b : List Byte) : (s.appendAudit o g p r f a b).early = s.early := by
  obtain ⟨_, _, _, _, h⟩ := logged_appendAudit s o g p r f a b
  rw [h]
@[simp] theorem State.early_change (r : Reg) (i v : Nat) : (s.change r i v).early = s.early := by
  obtain ⟨_, _, _, _, h⟩ := logged_change s r i v
  rw [h]
@[simp] theorem State.early_logError (e : ErrorEvent) : (s.logError e).early = s.early := by
  obtain ⟨_, _, _, _, _, _, _, _, _, _, _, _, _, _, _, _, _, _, _, h⟩ := recorded_logError s e
  rw [h]
@[simp] theorem State.requests_appendAudit (o g p r f : Nat) (a b : List Byte) : (s.appendAudit o g p r f a b).requests = s.requests := by
  obtain ⟨_, _, _, _, h⟩ := logged_appendAudit s o g p r f a b
  rw [h]
@[simp] theorem State.requests_change (r : Reg) (i v : Nat) : (s.change r i v).requests = s.requests := by
  obtain ⟨_, _, _, _, h⟩ := logged_change s r i v
  rw [h]
@[simp] theorem State.requests_logError (e : ErrorEvent) : (s.logError e).requests = s.requests := by
  obtain ⟨_, _, _, _, _, _, _, _, _, _, _, _, _, _, _, _, _, _, _, h⟩ := recorded_logError s e
  rw [h]
@[simp] theorem State.hartReplies_appendAudit (o g p r f : Nat) (a b : List Byte) : (s.appendAudit o g p r f a b).hartReplies = s.hartReplies := by
  obtain ⟨_, _, _, _, h⟩ := logged_appendAudit s o g p r f a b
  rw [h]
@[simp] theorem State.hartReplies_change (r : Reg) (i v : Nat) : (s.change r i v).hartReplies = s.hartReplies := by
  obtain ⟨_, _, _, _, h⟩ := logged_change s r i v
  rw [h]
@[simp] theorem State.hartReplies_logError (e : ErrorEvent) : (s.logError e).hartReplies = s.hartReplies := by
  obtain ⟨_, _, _, _, _, _, _, _, _, _, _, _, _, _, _, _, _, _, _, h⟩ := recorded_logError s e
  rw [h]
@[simp] theorem State.harts_appendAudit (o g p r f : Nat) (a b : List Byte) : (s.appendAudit o g p r f a b).harts = s.harts := by
  obtain ⟨_, _, _, _, h⟩ := logged_appendAudit s o g p r f a b
  rw [h]
@[simp] theorem State.harts_change (r : Reg) (i v : Nat) : (s.change r i v).harts = s.harts := by
  obtain ⟨_, _, _, _, h⟩ := logged_change s r i v
  rw [h]
@[simp] theorem State.harts_logError (e : ErrorEvent) : (s.logError e).harts = s.harts := by
  obtain ⟨_, _, _, _, _, _, _, _, _, _, _, _, _, _, _, _, _, _, _, h⟩ := recorded_logError s e
  rw [h]
@[simp] theorem State.stores_appendAudit (o g p r f : Nat) (a b : List Byte) : (s.appendAudit o g p r f a b).stores = s.stores := by
  obtain ⟨_, _, _, _, h⟩ := logged_appendAudit s o g p r f a b
  rw [h]
@[simp] theorem State.stores_change (r : Reg) (i v : Nat) : (s.change r i v).stores = s.stores := by
  obtain ⟨_, _, _, _, h⟩ := logged_change s r i v
  rw [h]
@[simp] theorem State.stores_logError (e : ErrorEvent) : (s.logError e).stores = s.stores := by
  obtain ⟨_, _, _, _, _, _, _, _, _, _, _, _, _, _, _, _, _, _, _, h⟩ := recorded_logError s e
  rw [h]
@[simp] theorem State.reservations_appendAudit (o g p r f : Nat) (a b : List Byte) : (s.appendAudit o g p r f a b).reservations = s.reservations := by
  obtain ⟨_, _, _, _, h⟩ := logged_appendAudit s o g p r f a b
  rw [h]
@[simp] theorem State.reservations_change (r : Reg) (i v : Nat) : (s.change r i v).reservations = s.reservations := by
  obtain ⟨_, _, _, _, h⟩ := logged_change s r i v
  rw [h]
@[simp] theorem State.regions_appendAudit (o g p r f : Nat) (a b : List Byte) : (s.appendAudit o g p r f a b).regions = s.regions := by
  obtain ⟨_, _, _, _, h⟩ := logged_appendAudit s o g p r f a b
  rw [h]
@[simp] theorem State.regions_change (r : Reg) (i v : Nat) : (s.change r i v).regions = s.regions := by
  obtain ⟨_, _, _, _, h⟩ := logged_change s r i v
  rw [h]
@[simp] theorem State.regions_logError (e : ErrorEvent) : (s.logError e).regions = s.regions := by
  obtain ⟨_, _, _, _, _, _, _, _, _, _, _, _, _, _, _, _, _, _, _, h⟩ := recorded_logError s e
  rw [h]
@[simp] theorem State.staged_appendAudit (o g p r f : Nat) (a b : List Byte) : (s.appendAudit o g p r f a b).staged = s.staged := by
  obtain ⟨_, _, _, _, h⟩ := logged_appendAudit s o g p r f a b
  rw [h]
@[simp] theorem State.staged_change (r : Reg) (i v : Nat) : (s.change r i v).staged = s.staged := by
  obtain ⟨_, _, _, _, h⟩ := logged_change s r i v
  rw [h]
@[simp] theorem State.staged_logError (e : ErrorEvent) : (s.logError e).staged = s.staged := by
  obtain ⟨_, _, _, _, _, _, _, _, _, _, _, _, _, _, _, _, _, _, _, h⟩ := recorded_logError s e
  rw [h]
@[simp] theorem State.closes_appendAudit (o g p r f : Nat) (a b : List Byte) : (s.appendAudit o g p r f a b).closes = s.closes := by
  obtain ⟨_, _, _, _, h⟩ := logged_appendAudit s o g p r f a b
  rw [h]
@[simp] theorem State.closes_change (r : Reg) (i v : Nat) : (s.change r i v).closes = s.closes := by
  obtain ⟨_, _, _, _, h⟩ := logged_change s r i v
  rw [h]
@[simp] theorem State.closes_logError (e : ErrorEvent) : (s.logError e).closes = s.closes := by
  obtain ⟨_, _, _, _, _, _, _, _, _, _, _, _, _, _, _, _, _, _, _, h⟩ := recorded_logError s e
  rw [h]
@[simp] theorem State.roundsEnded_appendAudit (o g p r f : Nat) (a b : List Byte) : (s.appendAudit o g p r f a b).roundsEnded = s.roundsEnded := by
  obtain ⟨_, _, _, _, h⟩ := logged_appendAudit s o g p r f a b
  rw [h]
@[simp] theorem State.roundsEnded_change (r : Reg) (i v : Nat) : (s.change r i v).roundsEnded = s.roundsEnded := by
  obtain ⟨_, _, _, _, h⟩ := logged_change s r i v
  rw [h]
@[simp] theorem State.roundsEnded_logError (e : ErrorEvent) : (s.logError e).roundsEnded = s.roundsEnded := by
  obtain ⟨_, _, _, _, _, _, _, _, _, _, _, _, _, _, _, _, _, _, _, h⟩ := recorded_logError s e
  rw [h]
@[simp] theorem State.raccIssue_appendAudit (o g p r f : Nat) (a b : List Byte) : (s.appendAudit o g p r f a b).raccIssue = s.raccIssue := by
  obtain ⟨_, _, _, _, h⟩ := logged_appendAudit s o g p r f a b
  rw [h]
@[simp] theorem State.raccIssue_change (r : Reg) (i v : Nat) : (s.change r i v).raccIssue = s.raccIssue := by
  obtain ⟨_, _, _, _, h⟩ := logged_change s r i v
  rw [h]
@[simp] theorem State.raccIssue_logError (e : ErrorEvent) : (s.logError e).raccIssue = s.raccIssue := by
  obtain ⟨_, _, _, _, _, _, _, _, _, _, _, _, _, _, _, _, _, _, _, h⟩ := recorded_logError s e
  rw [h]
@[simp] theorem State.fences_appendAudit (o g p r f : Nat) (a b : List Byte) : (s.appendAudit o g p r f a b).fences = s.fences := by
  obtain ⟨_, _, _, _, h⟩ := logged_appendAudit s o g p r f a b
  rw [h]
@[simp] theorem State.fences_change (r : Reg) (i v : Nat) : (s.change r i v).fences = s.fences := by
  obtain ⟨_, _, _, _, h⟩ := logged_change s r i v
  rw [h]
@[simp] theorem State.fences_logError (e : ErrorEvent) : (s.logError e).fences = s.fences := by
  obtain ⟨_, _, _, _, _, _, _, _, _, _, _, _, _, _, _, _, _, _, _, h⟩ := recorded_logError s e
  rw [h]
@[simp] theorem State.peerLinks_appendAudit (o g p r f : Nat) (a b : List Byte) : (s.appendAudit o g p r f a b).peerLinks = s.peerLinks := by
  obtain ⟨_, _, _, _, h⟩ := logged_appendAudit s o g p r f a b
  rw [h]
@[simp] theorem State.peerLinks_change (r : Reg) (i v : Nat) : (s.change r i v).peerLinks = s.peerLinks := by
  obtain ⟨_, _, _, _, h⟩ := logged_change s r i v
  rw [h]
@[simp] theorem State.peerLinks_logError (e : ErrorEvent) : (s.logError e).peerLinks = s.peerLinks := by
  obtain ⟨_, _, _, _, _, _, _, _, _, _, _, _, _, _, _, _, _, _, _, h⟩ := recorded_logError s e
  rw [h]
@[simp] theorem State.mails_appendAudit (o g p r f : Nat) (a b : List Byte) : (s.appendAudit o g p r f a b).mails = s.mails := by
  obtain ⟨_, _, _, _, h⟩ := logged_appendAudit s o g p r f a b
  rw [h]
@[simp] theorem State.mails_change (r : Reg) (i v : Nat) : (s.change r i v).mails = s.mails := by
  obtain ⟨_, _, _, _, h⟩ := logged_change s r i v
  rw [h]
@[simp] theorem State.mails_logError (e : ErrorEvent) : (s.logError e).mails = s.mails := by
  obtain ⟨_, _, _, _, _, _, _, _, _, _, _, _, _, _, _, _, _, _, _, h⟩ := recorded_logError s e
  rw [h]
@[simp] theorem State.mailNext_appendAudit (o g p r f : Nat) (a b : List Byte) : (s.appendAudit o g p r f a b).mailNext = s.mailNext := by
  obtain ⟨_, _, _, _, h⟩ := logged_appendAudit s o g p r f a b
  rw [h]
@[simp] theorem State.mailNext_change (r : Reg) (i v : Nat) : (s.change r i v).mailNext = s.mailNext := by
  obtain ⟨_, _, _, _, h⟩ := logged_change s r i v
  rw [h]
@[simp] theorem State.mailNext_logError (e : ErrorEvent) : (s.logError e).mailNext = s.mailNext := by
  obtain ⟨_, _, _, _, _, _, _, _, _, _, _, _, _, _, _, _, _, _, _, h⟩ := recorded_logError s e
  rw [h]
@[simp] theorem State.mailIn_appendAudit (o g p r f : Nat) (a b : List Byte) : (s.appendAudit o g p r f a b).mailIn = s.mailIn := by
  obtain ⟨_, _, _, _, h⟩ := logged_appendAudit s o g p r f a b
  rw [h]
@[simp] theorem State.mailIn_change (r : Reg) (i v : Nat) : (s.change r i v).mailIn = s.mailIn := by
  obtain ⟨_, _, _, _, h⟩ := logged_change s r i v
  rw [h]
@[simp] theorem State.mailIn_logError (e : ErrorEvent) : (s.logError e).mailIn = s.mailIn := by
  obtain ⟨_, _, _, _, _, _, _, _, _, _, _, _, _, _, _, _, _, _, _, h⟩ := recorded_logError s e
  rw [h]
@[simp] theorem State.transit_appendAudit (o g p r f : Nat) (a b : List Byte) : (s.appendAudit o g p r f a b).transit = s.transit := by
  obtain ⟨_, _, _, _, h⟩ := logged_appendAudit s o g p r f a b
  rw [h]
@[simp] theorem State.transit_change (r : Reg) (i v : Nat) : (s.change r i v).transit = s.transit := by
  obtain ⟨_, _, _, _, h⟩ := logged_change s r i v
  rw [h]
@[simp] theorem State.transit_logError (e : ErrorEvent) : (s.logError e).transit = s.transit := by
  obtain ⟨_, _, _, _, _, _, _, _, _, _, _, _, _, _, _, _, _, _, _, h⟩ := recorded_logError s e
  rw [h]
@[simp] theorem State.colls_appendAudit (o g p r f : Nat) (a b : List Byte) : (s.appendAudit o g p r f a b).colls = s.colls := by
  obtain ⟨_, _, _, _, h⟩ := logged_appendAudit s o g p r f a b
  rw [h]
@[simp] theorem State.colls_change (r : Reg) (i v : Nat) : (s.change r i v).colls = s.colls := by
  obtain ⟨_, _, _, _, h⟩ := logged_change s r i v
  rw [h]
@[simp] theorem State.colls_logError (e : ErrorEvent) : (s.logError e).colls = s.colls := by
  obtain ⟨_, _, _, _, _, _, _, _, _, _, _, _, _, _, _, _, _, _, _, h⟩ := recorded_logError s e
  rw [h]
@[simp] theorem State.collDone_appendAudit (o g p r f : Nat) (a b : List Byte) : (s.appendAudit o g p r f a b).collDone = s.collDone := by
  obtain ⟨_, _, _, _, h⟩ := logged_appendAudit s o g p r f a b
  rw [h]
@[simp] theorem State.collDone_change (r : Reg) (i v : Nat) : (s.change r i v).collDone = s.collDone := by
  obtain ⟨_, _, _, _, h⟩ := logged_change s r i v
  rw [h]
@[simp] theorem State.collDone_logError (e : ErrorEvent) : (s.logError e).collDone = s.collDone := by
  obtain ⟨_, _, _, _, _, _, _, _, _, _, _, _, _, _, _, _, _, _, _, h⟩ := recorded_logError s e
  rw [h]
@[simp] theorem State.collHeld_appendAudit (o g p r f : Nat) (a b : List Byte) : (s.appendAudit o g p r f a b).collHeld = s.collHeld := by
  obtain ⟨_, _, _, _, h⟩ := logged_appendAudit s o g p r f a b
  rw [h]
@[simp] theorem State.collHeld_change (r : Reg) (i v : Nat) : (s.change r i v).collHeld = s.collHeld := by
  obtain ⟨_, _, _, _, h⟩ := logged_change s r i v
  rw [h]
@[simp] theorem State.collHeld_logError (e : ErrorEvent) : (s.logError e).collHeld = s.collHeld := by
  obtain ⟨_, _, _, _, _, _, _, _, _, _, _, _, _, _, _, _, _, _, _, h⟩ := recorded_logError s e
  rw [h]
@[simp] theorem State.chans_appendAudit (o g p r f : Nat) (a b : List Byte) : (s.appendAudit o g p r f a b).chans = s.chans := by
  obtain ⟨_, _, _, _, h⟩ := logged_appendAudit s o g p r f a b
  rw [h]
@[simp] theorem State.chans_change (r : Reg) (i v : Nat) : (s.change r i v).chans = s.chans := by
  obtain ⟨_, _, _, _, h⟩ := logged_change s r i v
  rw [h]
@[simp] theorem State.chans_logError (e : ErrorEvent) : (s.logError e).chans = s.chans := by
  obtain ⟨_, _, _, _, _, _, _, _, _, _, _, _, _, _, _, _, _, _, _, h⟩ := recorded_logError s e
  rw [h]
@[simp] theorem State.fills_appendAudit (o g p r f : Nat) (a b : List Byte) : (s.appendAudit o g p r f a b).fills = s.fills := by
  obtain ⟨_, _, _, _, h⟩ := logged_appendAudit s o g p r f a b
  rw [h]
@[simp] theorem State.fills_change (r : Reg) (i v : Nat) : (s.change r i v).fills = s.fills := by
  obtain ⟨_, _, _, _, h⟩ := logged_change s r i v
  rw [h]
@[simp] theorem State.fills_logError (e : ErrorEvent) : (s.logError e).fills = s.fills := by
  obtain ⟨_, _, _, _, _, _, _, _, _, _, _, _, _, _, _, _, _, _, _, h⟩ := recorded_logError s e
  rw [h]
@[simp] theorem State.narrow_appendAudit (o g p r f : Nat) (a b : List Byte) : (s.appendAudit o g p r f a b).narrow = s.narrow := by
  obtain ⟨_, _, _, _, h⟩ := logged_appendAudit s o g p r f a b
  rw [h]
@[simp] theorem State.narrow_change (r : Reg) (i v : Nat) : (s.change r i v).narrow = s.narrow := by
  obtain ⟨_, _, _, _, h⟩ := logged_change s r i v
  rw [h]
@[simp] theorem State.narrow_logError (e : ErrorEvent) : (s.logError e).narrow = s.narrow := by
  obtain ⟨_, _, _, _, _, _, _, _, _, _, _, _, _, _, _, _, _, _, _, h⟩ := recorded_logError s e
  rw [h]
@[simp] theorem State.remaps_appendAudit (o g p r f : Nat) (a b : List Byte) : (s.appendAudit o g p r f a b).remaps = s.remaps := by
  obtain ⟨_, _, _, _, h⟩ := logged_appendAudit s o g p r f a b
  rw [h]
@[simp] theorem State.remaps_change (r : Reg) (i v : Nat) : (s.change r i v).remaps = s.remaps := by
  obtain ⟨_, _, _, _, h⟩ := logged_change s r i v
  rw [h]
@[simp] theorem State.remaps_logError (e : ErrorEvent) : (s.logError e).remaps = s.remaps := by
  obtain ⟨_, _, _, _, _, _, _, _, _, _, _, _, _, _, _, _, _, _, _, h⟩ := recorded_logError s e
  rw [h]
@[simp] theorem State.remapping_appendAudit (o g p r f : Nat) (a b : List Byte) : (s.appendAudit o g p r f a b).remapping = s.remapping := by
  obtain ⟨_, _, _, _, h⟩ := logged_appendAudit s o g p r f a b
  rw [h]
@[simp] theorem State.remapping_change (r : Reg) (i v : Nat) : (s.change r i v).remapping = s.remapping := by
  obtain ⟨_, _, _, _, h⟩ := logged_change s r i v
  rw [h]
@[simp] theorem State.remapping_logError (e : ErrorEvent) : (s.logError e).remapping = s.remapping := by
  obtain ⟨_, _, _, _, _, _, _, _, _, _, _, _, _, _, _, _, _, _, _, h⟩ := recorded_logError s e
  rw [h]
@[simp] theorem State.mapoutWaits_appendAudit (o g p r f : Nat) (a b : List Byte) : (s.appendAudit o g p r f a b).mapoutWaits = s.mapoutWaits := by
  obtain ⟨_, _, _, _, h⟩ := logged_appendAudit s o g p r f a b
  rw [h]
@[simp] theorem State.mapoutWaits_change (r : Reg) (i v : Nat) : (s.change r i v).mapoutWaits = s.mapoutWaits := by
  obtain ⟨_, _, _, _, h⟩ := logged_change s r i v
  rw [h]
@[simp] theorem State.mapoutWaits_logError (e : ErrorEvent) : (s.logError e).mapoutWaits = s.mapoutWaits := by
  obtain ⟨_, _, _, _, _, _, _, _, _, _, _, _, _, _, _, _, _, _, _, h⟩ := recorded_logError s e
  rw [h]
@[simp] theorem State.journal_appendAudit (o g p r f : Nat) (a b : List Byte) : (s.appendAudit o g p r f a b).journal = s.journal := by
  obtain ⟨_, _, _, _, h⟩ := logged_appendAudit s o g p r f a b
  rw [h]
@[simp] theorem State.journal_change (r : Reg) (i v : Nat) : (s.change r i v).journal = s.journal := by
  obtain ⟨_, _, _, _, h⟩ := logged_change s r i v
  rw [h]
@[simp] theorem State.journal_logError (e : ErrorEvent) : (s.logError e).journal = s.journal := by
  obtain ⟨_, _, _, _, _, _, _, _, _, _, _, _, _, _, _, _, _, _, _, h⟩ := recorded_logError s e
  rw [h]
@[simp] theorem State.pulses_appendAudit (o g p r f : Nat) (a b : List Byte) : (s.appendAudit o g p r f a b).pulses = s.pulses := by
  obtain ⟨_, _, _, _, h⟩ := logged_appendAudit s o g p r f a b
  rw [h]
@[simp] theorem State.pulses_change (r : Reg) (i v : Nat) : (s.change r i v).pulses = s.pulses := by
  obtain ⟨_, _, _, _, h⟩ := logged_change s r i v
  rw [h]
@[simp] theorem State.pulses_logError (e : ErrorEvent) : (s.logError e).pulses = s.pulses := by
  obtain ⟨_, _, _, _, _, _, _, _, _, _, _, _, _, _, _, _, _, _, _, h⟩ := recorded_logError s e
  rw [h]
@[simp] theorem State.softPpr_appendAudit (o g p r f : Nat) (a b : List Byte) : (s.appendAudit o g p r f a b).softPpr = s.softPpr := by
  obtain ⟨_, _, _, _, h⟩ := logged_appendAudit s o g p r f a b
  rw [h]
@[simp] theorem State.softPpr_change (r : Reg) (i v : Nat) : (s.change r i v).softPpr = s.softPpr := by
  obtain ⟨_, _, _, _, h⟩ := logged_change s r i v
  rw [h]
@[simp] theorem State.softPpr_logError (e : ErrorEvent) : (s.logError e).softPpr = s.softPpr := by
  obtain ⟨_, _, _, _, _, _, _, _, _, _, _, _, _, _, _, _, _, _, _, h⟩ := recorded_logError s e
  rw [h]
@[simp] theorem State.segments_appendAudit (o g p r f : Nat) (a b : List Byte) : (s.appendAudit o g p r f a b).segments = s.segments := by
  obtain ⟨_, _, _, _, h⟩ := logged_appendAudit s o g p r f a b
  rw [h]
@[simp] theorem State.segments_change (r : Reg) (i v : Nat) : (s.change r i v).segments = s.segments := by
  obtain ⟨_, _, _, _, h⟩ := logged_change s r i v
  rw [h]
@[simp] theorem State.segments_logError (e : ErrorEvent) : (s.logError e).segments = s.segments := by
  obtain ⟨_, _, _, _, _, _, _, _, _, _, _, _, _, _, _, _, _, _, _, h⟩ := recorded_logError s e
  rw [h]
@[simp] theorem State.slotA_appendAudit (o g p r f : Nat) (a b : List Byte) : (s.appendAudit o g p r f a b).slotA = s.slotA := by
  obtain ⟨_, _, _, _, h⟩ := logged_appendAudit s o g p r f a b
  rw [h]
@[simp] theorem State.slotA_change (r : Reg) (i v : Nat) : (s.change r i v).slotA = s.slotA := by
  obtain ⟨_, _, _, _, h⟩ := logged_change s r i v
  rw [h]
@[simp] theorem State.slotB_appendAudit (o g p r f : Nat) (a b : List Byte) : (s.appendAudit o g p r f a b).slotB = s.slotB := by
  obtain ⟨_, _, _, _, h⟩ := logged_appendAudit s o g p r f a b
  rw [h]
@[simp] theorem State.slotB_change (r : Reg) (i v : Nat) : (s.change r i v).slotB = s.slotB := by
  obtain ⟨_, _, _, _, h⟩ := logged_change s r i v
  rw [h]
@[simp] theorem State.shards_appendAudit (o g p r f : Nat) (a b : List Byte) : (s.appendAudit o g p r f a b).shards = s.shards := by
  obtain ⟨_, _, _, _, h⟩ := logged_appendAudit s o g p r f a b
  rw [h]
@[simp] theorem State.shards_change (r : Reg) (i v : Nat) : (s.change r i v).shards = s.shards := by
  obtain ⟨_, _, _, _, h⟩ := logged_change s r i v
  rw [h]
@[simp] theorem State.shards_logError (e : ErrorEvent) : (s.logError e).shards = s.shards := by
  obtain ⟨_, _, _, _, _, _, _, _, _, _, _, _, _, _, _, _, _, _, _, h⟩ := recorded_logError s e
  rw [h]
@[simp] theorem State.drains_appendAudit (o g p r f : Nat) (a b : List Byte) : (s.appendAudit o g p r f a b).drains = s.drains := by
  obtain ⟨_, _, _, _, h⟩ := logged_appendAudit s o g p r f a b
  rw [h]
@[simp] theorem State.drains_change (r : Reg) (i v : Nat) : (s.change r i v).drains = s.drains := by
  obtain ⟨_, _, _, _, h⟩ := logged_change s r i v
  rw [h]
@[simp] theorem State.drains_logError (e : ErrorEvent) : (s.logError e).drains = s.drains := by
  obtain ⟨_, _, _, _, _, _, _, _, _, _, _, _, _, _, _, _, _, _, _, h⟩ := recorded_logError s e
  rw [h]
@[simp] theorem State.recovery_appendAudit (o g p r f : Nat) (a b : List Byte) : (s.appendAudit o g p r f a b).recovery = s.recovery := by
  obtain ⟨_, _, _, _, h⟩ := logged_appendAudit s o g p r f a b
  rw [h]
@[simp] theorem State.recovery_change (r : Reg) (i v : Nat) : (s.change r i v).recovery = s.recovery := by
  obtain ⟨_, _, _, _, h⟩ := logged_change s r i v
  rw [h]
@[simp] theorem State.recovery_logError (e : ErrorEvent) : (s.logError e).recovery = s.recovery := by
  obtain ⟨_, _, _, _, _, _, _, _, _, _, _, _, _, _, _, _, _, _, _, h⟩ := recorded_logError s e
  rw [h]
@[simp] theorem State.jobEpochs_appendAudit (o g p r f : Nat) (a b : List Byte) : (s.appendAudit o g p r f a b).jobEpochs = s.jobEpochs := by
  obtain ⟨_, _, _, _, h⟩ := logged_appendAudit s o g p r f a b
  rw [h]
@[simp] theorem State.jobEpochs_change (r : Reg) (i v : Nat) : (s.change r i v).jobEpochs = s.jobEpochs := by
  obtain ⟨_, _, _, _, h⟩ := logged_change s r i v
  rw [h]
@[simp] theorem State.jobEpochs_logError (e : ErrorEvent) : (s.logError e).jobEpochs = s.jobEpochs := by
  obtain ⟨_, _, _, _, _, _, _, _, _, _, _, _, _, _, _, _, _, _, _, h⟩ := recorded_logError s e
  rw [h]
@[simp] theorem State.kept_appendAudit (o g p r f : Nat) (a b : List Byte) : (s.appendAudit o g p r f a b).kept = s.kept := by
  obtain ⟨_, _, _, _, h⟩ := logged_appendAudit s o g p r f a b
  rw [h]
@[simp] theorem State.kept_change (r : Reg) (i v : Nat) : (s.change r i v).kept = s.kept := by
  obtain ⟨_, _, _, _, h⟩ := logged_change s r i v
  rw [h]
@[simp] theorem State.kept_logError (e : ErrorEvent) : (s.logError e).kept = s.kept := by
  obtain ⟨_, _, _, _, _, _, _, _, _, _, _, _, _, _, _, _, _, _, _, h⟩ := recorded_logError s e
  rw [h]
@[simp] theorem State.keptFor_appendAudit (o g p r f : Nat) (a b : List Byte) : (s.appendAudit o g p r f a b).keptFor = s.keptFor := by
  obtain ⟨_, _, _, _, h⟩ := logged_appendAudit s o g p r f a b
  rw [h]
@[simp] theorem State.keptFor_change (r : Reg) (i v : Nat) : (s.change r i v).keptFor = s.keptFor := by
  obtain ⟨_, _, _, _, h⟩ := logged_change s r i v
  rw [h]
@[simp] theorem State.keptFor_logError (e : ErrorEvent) : (s.logError e).keptFor = s.keptFor := by
  obtain ⟨_, _, _, _, _, _, _, _, _, _, _, _, _, _, _, _, _, _, _, h⟩ := recorded_logError s e
  rw [h]
@[simp] theorem State.hostLines_appendAudit (o g p r f : Nat) (a b : List Byte) : (s.appendAudit o g p r f a b).hostLines = s.hostLines := by
  obtain ⟨_, _, _, _, h⟩ := logged_appendAudit s o g p r f a b
  rw [h]
@[simp] theorem State.hostLines_change (r : Reg) (i v : Nat) : (s.change r i v).hostLines = s.hostLines := by
  obtain ⟨_, _, _, _, h⟩ := logged_change s r i v
  rw [h]
@[simp] theorem State.waiting_appendAudit (o g p r f : Nat) (a b : List Byte) : (s.appendAudit o g p r f a b).waiting = s.waiting := by
  obtain ⟨_, _, _, _, h⟩ := logged_appendAudit s o g p r f a b
  rw [h]
@[simp] theorem State.waiting_change (r : Reg) (i v : Nat) : (s.change r i v).waiting = s.waiting := by
  obtain ⟨_, _, _, _, h⟩ := logged_change s r i v
  rw [h]
@[simp] theorem State.waiting_logError (e : ErrorEvent) : (s.logError e).waiting = s.waiting := by
  obtain ⟨_, _, _, _, _, _, _, _, _, _, _, _, _, _, _, _, _, _, _, h⟩ := recorded_logError s e
  rw [h]
@[simp] theorem State.xwMsg_appendAudit (o g p r f : Nat) (a b : List Byte) : (s.appendAudit o g p r f a b).xwMsg = s.xwMsg := by
  obtain ⟨_, _, _, _, h⟩ := logged_appendAudit s o g p r f a b
  rw [h]
@[simp] theorem State.xwMsg_change (r : Reg) (i v : Nat) : (s.change r i v).xwMsg = s.xwMsg := by
  obtain ⟨_, _, _, _, h⟩ := logged_change s r i v
  rw [h]
@[simp] theorem State.xwMsg_logError (e : ErrorEvent) : (s.logError e).xwMsg = s.xwMsg := by
  obtain ⟨_, _, _, _, _, _, _, _, _, _, _, _, _, _, _, _, _, _, _, h⟩ := recorded_logError s e
  rw [h]
@[simp] theorem State.xwOwn_appendAudit (o g p r f : Nat) (a b : List Byte) : (s.appendAudit o g p r f a b).xwOwn = s.xwOwn := by
  obtain ⟨_, _, _, _, h⟩ := logged_appendAudit s o g p r f a b
  rw [h]
@[simp] theorem State.xwOwn_change (r : Reg) (i v : Nat) : (s.change r i v).xwOwn = s.xwOwn := by
  obtain ⟨_, _, _, _, h⟩ := logged_change s r i v
  rw [h]
@[simp] theorem State.xwOwn_logError (e : ErrorEvent) : (s.logError e).xwOwn = s.xwOwn := by
  obtain ⟨_, _, _, _, _, _, _, _, _, _, _, _, _, _, _, _, _, _, _, h⟩ := recorded_logError s e
  rw [h]
@[simp] theorem State.xwTheirs_appendAudit (o g p r f : Nat) (a b : List Byte) : (s.appendAudit o g p r f a b).xwTheirs = s.xwTheirs := by
  obtain ⟨_, _, _, _, h⟩ := logged_appendAudit s o g p r f a b
  rw [h]
@[simp] theorem State.xwTheirs_change (r : Reg) (i v : Nat) : (s.change r i v).xwTheirs = s.xwTheirs := by
  obtain ⟨_, _, _, _, h⟩ := logged_change s r i v
  rw [h]
@[simp] theorem State.xwTheirs_logError (e : ErrorEvent) : (s.logError e).xwTheirs = s.xwTheirs := by
  obtain ⟨_, _, _, _, _, _, _, _, _, _, _, _, _, _, _, _, _, _, _, h⟩ := recorded_logError s e
  rw [h]
@[simp] theorem State.xwStreams_appendAudit (o g p r f : Nat) (a b : List Byte) : (s.appendAudit o g p r f a b).xwStreams = s.xwStreams := by
  obtain ⟨_, _, _, _, h⟩ := logged_appendAudit s o g p r f a b
  rw [h]
@[simp] theorem State.xwStreams_change (r : Reg) (i v : Nat) : (s.change r i v).xwStreams = s.xwStreams := by
  obtain ⟨_, _, _, _, h⟩ := logged_change s r i v
  rw [h]
@[simp] theorem State.xwStreams_logError (e : ErrorEvent) : (s.logError e).xwStreams = s.xwStreams := by
  obtain ⟨_, _, _, _, _, _, _, _, _, _, _, _, _, _, _, _, _, _, _, h⟩ := recorded_logError s e
  rw [h]
@[simp] theorem State.xwDiff_appendAudit (o g p r f : Nat) (a b : List Byte) : (s.appendAudit o g p r f a b).xwDiff = s.xwDiff := by
  obtain ⟨_, _, _, _, h⟩ := logged_appendAudit s o g p r f a b
  rw [h]
@[simp] theorem State.xwDiff_change (r : Reg) (i v : Nat) : (s.change r i v).xwDiff = s.xwDiff := by
  obtain ⟨_, _, _, _, h⟩ := logged_change s r i v
  rw [h]
@[simp] theorem State.xwDiff_logError (e : ErrorEvent) : (s.logError e).xwDiff = s.xwDiff := by
  obtain ⟨_, _, _, _, _, _, _, _, _, _, _, _, _, _, _, _, _, _, _, h⟩ := recorded_logError s e
  rw [h]
@[simp] theorem State.rung_appendAudit (o g p r f : Nat) (a b : List Byte) : (s.appendAudit o g p r f a b).rung = s.rung := by
  obtain ⟨_, _, _, _, h⟩ := logged_appendAudit s o g p r f a b
  rw [h]
@[simp] theorem State.rung_change (r : Reg) (i v : Nat) : (s.change r i v).rung = s.rung := by
  obtain ⟨_, _, _, _, h⟩ := logged_change s r i v
  rw [h]
@[simp] theorem State.rung_logError (e : ErrorEvent) : (s.logError e).rung = s.rung := by
  obtain ⟨_, _, _, _, _, _, _, _, _, _, _, _, _, _, _, _, _, _, _, h⟩ := recorded_logError s e
  rw [h]
@[simp] theorem State.cmds_appendAudit (o g p r f : Nat) (a b : List Byte) : (s.appendAudit o g p r f a b).cmds = s.cmds := by
  obtain ⟨_, _, _, _, h⟩ := logged_appendAudit s o g p r f a b
  rw [h]
@[simp] theorem State.cmds_change (r : Reg) (i v : Nat) : (s.change r i v).cmds = s.cmds := by
  obtain ⟨_, _, _, _, h⟩ := logged_change s r i v
  rw [h]
@[simp] theorem State.cmds_logError (e : ErrorEvent) : (s.logError e).cmds = s.cmds := by
  obtain ⟨_, _, _, _, _, _, _, _, _, _, _, _, _, _, _, _, _, _, _, h⟩ := recorded_logError s e
  rw [h]
@[simp] theorem State.cqHeld_appendAudit (o g p r f : Nat) (a b : List Byte) : (s.appendAudit o g p r f a b).cqHeld = s.cqHeld := by
  obtain ⟨_, _, _, _, h⟩ := logged_appendAudit s o g p r f a b
  rw [h]
@[simp] theorem State.cqHeld_change (r : Reg) (i v : Nat) : (s.change r i v).cqHeld = s.cqHeld := by
  obtain ⟨_, _, _, _, h⟩ := logged_change s r i v
  rw [h]
@[simp] theorem State.cqHeld_logError (e : ErrorEvent) : (s.logError e).cqHeld = s.cqHeld := by
  obtain ⟨_, _, _, _, _, _, _, _, _, _, _, _, _, _, _, _, _, _, _, h⟩ := recorded_logError s e
  rw [h]
@[simp] theorem State.errorLog_appendAudit (o g p r f : Nat) (a b : List Byte) : (s.appendAudit o g p r f a b).errorLog = s.errorLog := by
  obtain ⟨_, _, _, _, h⟩ := logged_appendAudit s o g p r f a b
  rw [h]
@[simp] theorem State.errorLog_change (r : Reg) (i v : Nat) : (s.change r i v).errorLog = s.errorLog := by
  obtain ⟨_, _, _, _, h⟩ := logged_change s r i v
  rw [h]
@[simp] theorem State.squallEvents_appendAudit (o g p r f : Nat) (a b : List Byte) : (s.appendAudit o g p r f a b).squallEvents = s.squallEvents := by
  obtain ⟨_, _, _, _, h⟩ := logged_appendAudit s o g p r f a b
  rw [h]
@[simp] theorem State.squallEvents_change (r : Reg) (i v : Nat) : (s.change r i v).squallEvents = s.squallEvents := by
  obtain ⟨_, _, _, _, h⟩ := logged_change s r i v
  rw [h]
@[simp] theorem State.mirror_appendAudit (o g p r f : Nat) (a b : List Byte) : (s.appendAudit o g p r f a b).mirror = s.mirror := by
  obtain ⟨_, _, _, _, h⟩ := logged_appendAudit s o g p r f a b
  rw [h]
@[simp] theorem State.mirror_change (r : Reg) (i v : Nat) : (s.change r i v).mirror = s.mirror := by
  obtain ⟨_, _, _, _, h⟩ := logged_change s r i v
  rw [h]
@[simp] theorem State.mirror_logError (e : ErrorEvent) : (s.logError e).mirror = s.mirror := by
  obtain ⟨_, _, _, _, _, _, _, _, _, _, _, _, _, _, _, _, _, _, _, h⟩ := recorded_logError s e
  rw [h]
@[simp] theorem State.sessions_appendAudit (o g p r f : Nat) (a b : List Byte) : (s.appendAudit o g p r f a b).sessions = s.sessions := by
  obtain ⟨_, _, _, _, h⟩ := logged_appendAudit s o g p r f a b
  rw [h]
@[simp] theorem State.sessions_change (r : Reg) (i v : Nat) : (s.change r i v).sessions = s.sessions := by
  obtain ⟨_, _, _, _, h⟩ := logged_change s r i v
  rw [h]
@[simp] theorem State.sessions_logError (e : ErrorEvent) : (s.logError e).sessions = s.sessions := by
  obtain ⟨_, _, _, _, _, _, _, _, _, _, _, _, _, _, _, _, _, _, _, h⟩ := recorded_logError s e
  rw [h]
@[simp] theorem State.assemblies_appendAudit (o g p r f : Nat) (a b : List Byte) : (s.appendAudit o g p r f a b).assemblies = s.assemblies := by
  obtain ⟨_, _, _, _, h⟩ := logged_appendAudit s o g p r f a b
  rw [h]
@[simp] theorem State.assemblies_change (r : Reg) (i v : Nat) : (s.change r i v).assemblies = s.assemblies := by
  obtain ⟨_, _, _, _, h⟩ := logged_change s r i v
  rw [h]
@[simp] theorem State.assemblies_logError (e : ErrorEvent) : (s.logError e).assemblies = s.assemblies := by
  obtain ⟨_, _, _, _, _, _, _, _, _, _, _, _, _, _, _, _, _, _, _, h⟩ := recorded_logError s e
  rw [h]
@[simp] theorem State.answers_appendAudit (o g p r f : Nat) (a b : List Byte) : (s.appendAudit o g p r f a b).answers = s.answers := by
  obtain ⟨_, _, _, _, h⟩ := logged_appendAudit s o g p r f a b
  rw [h]
@[simp] theorem State.answers_change (r : Reg) (i v : Nat) : (s.change r i v).answers = s.answers := by
  obtain ⟨_, _, _, _, h⟩ := logged_change s r i v
  rw [h]
@[simp] theorem State.answers_logError (e : ErrorEvent) : (s.logError e).answers = s.answers := by
  obtain ⟨_, _, _, _, _, _, _, _, _, _, _, _, _, _, _, _, _, _, _, h⟩ := recorded_logError s e
  rw [h]
@[simp] theorem State.frozen_appendAudit (o g p r f : Nat) (a b : List Byte) : (s.appendAudit o g p r f a b).frozen = s.frozen := by
  obtain ⟨_, _, _, _, h⟩ := logged_appendAudit s o g p r f a b
  rw [h]
@[simp] theorem State.frozen_change (r : Reg) (i v : Nat) : (s.change r i v).frozen = s.frozen := by
  obtain ⟨_, _, _, _, h⟩ := logged_change s r i v
  rw [h]
@[simp] theorem State.late_appendAudit (o g p r f : Nat) (a b : List Byte) : (s.appendAudit o g p r f a b).late = s.late := by
  obtain ⟨_, _, _, _, h⟩ := logged_appendAudit s o g p r f a b
  rw [h]
@[simp] theorem State.late_change (r : Reg) (i v : Nat) : (s.change r i v).late = s.late := by
  obtain ⟨_, _, _, _, h⟩ := logged_change s r i v
  rw [h]

@[simp] theorem State.reg_upd {u : State} (pending : List Instr) (now : Nat) (free : Nat) (deferred : List ((Reg ×
    Nat) × Nat)) (mem : List Host.Cell) (poisonAtoms : List Nat) (poisonWords : List Nat) (bays : Store Nat Bay)
    (tests : List SelfTest) (copies : List ModelCopy) (tailwind : List TailwindCopy) (recent : Store Nat Nat) (seqOut
    : Store Nat Nat) (seqIn : Store Nat Nat) (early : List (Nat × Packet)) (requests : List Request) (retry : List
    LinkFlits) (linkQueue : List LinkPacket) (flitNext : Store Nat Nat) (stuck : List (Nat × Packet)) (answered : List
    Packet) (refusals : List (Nat × Nat)) (hartReplies : List HartReply) (harts : Store Nat Hart) (stores : List
    HartStore) (reservations : List (Nat × Nat)) (pclks : Nat × Nat) (regions : List Region) (staged : List Staged)
    (closes : List (Nat × Nat)) (roundsEnded : List Nat) (raccIssue : Store Nat Nat) (fences : List (Nat × Nat))
    (peerLinks : Store Nat Nat) (mails : List Mail) (mailNext : Store Nat Nat) (mailIn : List MailIn) (transit : List
    Packet) (colls : List Coll) (collDone : List (CollId × Bool)) (collHeld : List CollHeld) (chans : Store Nat
    Channel) (fills : List Nat) (narrow : List Narrow) (llm : Store Nat Nat) (corrections : List (Nat × Nat))
    (chanQueue : List (Nat × ChanReq)) (chanStalled : List (Nat × ChanReq)) (narrowHeld : List Narrow) (sliceHeld :
    List (Nat × SliceReq)) (merging : List (Nat × List (Nat × Nat))) (moved : List Nat) (migrated : Nat) (spareMarks :
    List SpareMark) (remaps : List Remap) (remapping : List (Nat × Nat)) (mapoutWaits : List Nat) (journal : Store Nat
    Nat) (pulses : List Pulse) (softPpr : List (Nat × Nat)) (segments : Store Nat Nat) (slotA : Slot) (slotB : Slot)
    (shards : List Shard) (drains : List Drain) (recovery : Option Recovery) (jobEpochs : List Nat) (kept : List (Nat
    × Nat)) (keptFor : List (Nat × Nat × Nat)) (hostLines : List Nat) (waiting : List (Nat × List Byte)) (xwMsg :
    Option XwPairing) (xwOwn : List XwStep) (xwTheirs : List (Nat × Nat)) (xwStreams : Option (Nat × List (Nat ×
    Nat))) (xwDiff : Option XwDiff) (rung : List (Nat × List Byte)) (cmds : List HostCmd) (cqHeld : List Completion)
    (errorLog : List ErrorRecord) (squallEvents : Store Nat (Nat × Nat)) (audit : List AuditEntry) (mirror : List
    AuditEntry) (sessions : List Session) (assemblies : List Assembly) (answers : List Answer) (subs : List
    Subscription) (frozen : Option SetView) (late : List (Nat × SetView)) (out : List Output) (q : Reg) (j : Nat) :
    (State.mk pending now free u.regs deferred mem poisonAtoms poisonWords bays tests copies tailwind recent seqOut
    seqIn early requests retry linkQueue flitNext stuck answered refusals hartReplies harts stores reservations pclks
    regions staged closes roundsEnded raccIssue fences peerLinks mails mailNext mailIn transit colls collDone collHeld
    chans fills narrow llm corrections chanQueue chanStalled narrowHeld sliceHeld merging moved migrated spareMarks
    remaps remapping mapoutWaits journal pulses softPpr segments slotA slotB shards drains recovery jobEpochs kept
    keptFor hostLines waiting xwMsg xwOwn xwTheirs xwStreams xwDiff rung cmds cqHeld errorLog squallEvents audit
    mirror sessions assemblies answers subs frozen late out).reg q j = u.reg q j := rfl

@[simp] theorem State.byte_upd {u : State} (pending : List Instr) (now : Nat) (free : Nat) (regs : Store (Reg × Nat)
    Nat) (deferred : List ((Reg × Nat) × Nat)) (poisonAtoms : List Nat) (poisonWords : List Nat) (bays : Store Nat
    Bay) (tests : List SelfTest) (copies : List ModelCopy) (tailwind : List TailwindCopy) (recent : Store Nat Nat)
    (seqOut : Store Nat Nat) (seqIn : Store Nat Nat) (early : List (Nat × Packet)) (requests : List Request) (retry :
    List LinkFlits) (linkQueue : List LinkPacket) (flitNext : Store Nat Nat) (stuck : List (Nat × Packet)) (answered :
    List Packet) (refusals : List (Nat × Nat)) (hartReplies : List HartReply) (harts : Store Nat Hart) (stores : List
    HartStore) (reservations : List (Nat × Nat)) (pclks : Nat × Nat) (regions : List Region) (staged : List Staged)
    (closes : List (Nat × Nat)) (roundsEnded : List Nat) (raccIssue : Store Nat Nat) (fences : List (Nat × Nat))
    (peerLinks : Store Nat Nat) (mails : List Mail) (mailNext : Store Nat Nat) (mailIn : List MailIn) (transit : List
    Packet) (colls : List Coll) (collDone : List (CollId × Bool)) (collHeld : List CollHeld) (chans : Store Nat
    Channel) (fills : List Nat) (narrow : List Narrow) (llm : Store Nat Nat) (corrections : List (Nat × Nat))
    (chanQueue : List (Nat × ChanReq)) (chanStalled : List (Nat × ChanReq)) (narrowHeld : List Narrow) (sliceHeld :
    List (Nat × SliceReq)) (merging : List (Nat × List (Nat × Nat))) (moved : List Nat) (migrated : Nat) (spareMarks :
    List SpareMark) (remaps : List Remap) (remapping : List (Nat × Nat)) (mapoutWaits : List Nat) (journal : Store Nat
    Nat) (pulses : List Pulse) (softPpr : List (Nat × Nat)) (segments : Store Nat Nat) (slotA : Slot) (slotB : Slot)
    (shards : List Shard) (drains : List Drain) (recovery : Option Recovery) (jobEpochs : List Nat) (kept : List (Nat
    × Nat)) (keptFor : List (Nat × Nat × Nat)) (hostLines : List Nat) (waiting : List (Nat × List Byte)) (xwMsg :
    Option XwPairing) (xwOwn : List XwStep) (xwTheirs : List (Nat × Nat)) (xwStreams : Option (Nat × List (Nat ×
    Nat))) (xwDiff : Option XwDiff) (rung : List (Nat × List Byte)) (cmds : List HostCmd) (cqHeld : List Completion)
    (errorLog : List ErrorRecord) (squallEvents : Store Nat (Nat × Nat)) (audit : List AuditEntry) (mirror : List
    AuditEntry) (sessions : List Session) (assemblies : List Assembly) (answers : List Answer) (subs : List
    Subscription) (frozen : Option SetView) (late : List (Nat × SetView)) (out : List Output) (a : Nat) : (State.mk
    pending now free regs deferred u.mem poisonAtoms poisonWords bays tests copies tailwind recent seqOut seqIn early
    requests retry linkQueue flitNext stuck answered refusals hartReplies harts stores reservations pclks regions
    staged closes roundsEnded raccIssue fences peerLinks mails mailNext mailIn transit colls collDone collHeld chans
    fills narrow llm corrections chanQueue chanStalled narrowHeld sliceHeld merging moved migrated spareMarks remaps
    remapping mapoutWaits journal pulses softPpr segments slotA slotB shards drains recovery jobEpochs kept keptFor
    hostLines waiting xwMsg xwOwn xwTheirs xwStreams xwDiff rung cmds cqHeld errorLog squallEvents audit mirror
    sessions assemblies answers subs frozen late out).byte a = u.byte a := rfl

@[simp] theorem State.bay_upd {u : State} (pending : List Instr) (now : Nat) (free : Nat) (regs : Store (Reg × Nat)
    Nat) (deferred : List ((Reg × Nat) × Nat)) (mem : List Host.Cell) (poisonAtoms : List Nat) (poisonWords : List
    Nat) (tests : List SelfTest) (copies : List ModelCopy) (tailwind : List TailwindCopy) (recent : Store Nat Nat)
    (seqOut : Store Nat Nat) (seqIn : Store Nat Nat) (early : List (Nat × Packet)) (requests : List Request) (retry :
    List LinkFlits) (linkQueue : List LinkPacket) (flitNext : Store Nat Nat) (stuck : List (Nat × Packet)) (answered :
    List Packet) (refusals : List (Nat × Nat)) (hartReplies : List HartReply) (harts : Store Nat Hart) (stores : List
    HartStore) (reservations : List (Nat × Nat)) (pclks : Nat × Nat) (regions : List Region) (staged : List Staged)
    (closes : List (Nat × Nat)) (roundsEnded : List Nat) (raccIssue : Store Nat Nat) (fences : List (Nat × Nat))
    (peerLinks : Store Nat Nat) (mails : List Mail) (mailNext : Store Nat Nat) (mailIn : List MailIn) (transit : List
    Packet) (colls : List Coll) (collDone : List (CollId × Bool)) (collHeld : List CollHeld) (chans : Store Nat
    Channel) (fills : List Nat) (narrow : List Narrow) (llm : Store Nat Nat) (corrections : List (Nat × Nat))
    (chanQueue : List (Nat × ChanReq)) (chanStalled : List (Nat × ChanReq)) (narrowHeld : List Narrow) (sliceHeld :
    List (Nat × SliceReq)) (merging : List (Nat × List (Nat × Nat))) (moved : List Nat) (migrated : Nat) (spareMarks :
    List SpareMark) (remaps : List Remap) (remapping : List (Nat × Nat)) (mapoutWaits : List Nat) (journal : Store Nat
    Nat) (pulses : List Pulse) (softPpr : List (Nat × Nat)) (segments : Store Nat Nat) (slotA : Slot) (slotB : Slot)
    (shards : List Shard) (drains : List Drain) (recovery : Option Recovery) (jobEpochs : List Nat) (kept : List (Nat
    × Nat)) (keptFor : List (Nat × Nat × Nat)) (hostLines : List Nat) (waiting : List (Nat × List Byte)) (xwMsg :
    Option XwPairing) (xwOwn : List XwStep) (xwTheirs : List (Nat × Nat)) (xwStreams : Option (Nat × List (Nat ×
    Nat))) (xwDiff : Option XwDiff) (rung : List (Nat × List Byte)) (cmds : List HostCmd) (cqHeld : List Completion)
    (errorLog : List ErrorRecord) (squallEvents : Store Nat (Nat × Nat)) (audit : List AuditEntry) (mirror : List
    AuditEntry) (sessions : List Session) (assemblies : List Assembly) (answers : List Answer) (subs : List
    Subscription) (frozen : Option SetView) (late : List (Nat × SetView)) (out : List Output) (b : Nat) : (State.mk
    pending now free regs deferred mem poisonAtoms poisonWords u.bays tests copies tailwind recent seqOut seqIn early
    requests retry linkQueue flitNext stuck answered refusals hartReplies harts stores reservations pclks regions
    staged closes roundsEnded raccIssue fences peerLinks mails mailNext mailIn transit colls collDone collHeld chans
    fills narrow llm corrections chanQueue chanStalled narrowHeld sliceHeld merging moved migrated spareMarks remaps
    remapping mapoutWaits journal pulses softPpr segments slotA slotB shards drains recovery jobEpochs kept keptFor
    hostLines waiting xwMsg xwOwn xwTheirs xwStreams xwDiff rung cmds cqHeld errorLog squallEvents audit mirror
    sessions assemblies answers subs frozen late out).bay b = u.bay b := rfl

@[simp] theorem State.hart_upd {u : State} (pending : List Instr) (now : Nat) (free : Nat) (regs : Store (Reg × Nat)
    Nat) (deferred : List ((Reg × Nat) × Nat)) (mem : List Host.Cell) (poisonAtoms : List Nat) (poisonWords : List
    Nat) (bays : Store Nat Bay) (tests : List SelfTest) (copies : List ModelCopy) (tailwind : List TailwindCopy)
    (recent : Store Nat Nat) (seqOut : Store Nat Nat) (seqIn : Store Nat Nat) (early : List (Nat × Packet)) (requests
    : List Request) (retry : List LinkFlits) (linkQueue : List LinkPacket) (flitNext : Store Nat Nat) (stuck : List
    (Nat × Packet)) (answered : List Packet) (refusals : List (Nat × Nat)) (hartReplies : List HartReply) (stores :
    List HartStore) (reservations : List (Nat × Nat)) (pclks : Nat × Nat) (regions : List Region) (staged : List
    Staged) (closes : List (Nat × Nat)) (roundsEnded : List Nat) (raccIssue : Store Nat Nat) (fences : List (Nat ×
    Nat)) (peerLinks : Store Nat Nat) (mails : List Mail) (mailNext : Store Nat Nat) (mailIn : List MailIn) (transit :
    List Packet) (colls : List Coll) (collDone : List (CollId × Bool)) (collHeld : List CollHeld) (chans : Store Nat
    Channel) (fills : List Nat) (narrow : List Narrow) (llm : Store Nat Nat) (corrections : List (Nat × Nat))
    (chanQueue : List (Nat × ChanReq)) (chanStalled : List (Nat × ChanReq)) (narrowHeld : List Narrow) (sliceHeld :
    List (Nat × SliceReq)) (merging : List (Nat × List (Nat × Nat))) (moved : List Nat) (migrated : Nat) (spareMarks :
    List SpareMark) (remaps : List Remap) (remapping : List (Nat × Nat)) (mapoutWaits : List Nat) (journal : Store Nat
    Nat) (pulses : List Pulse) (softPpr : List (Nat × Nat)) (segments : Store Nat Nat) (slotA : Slot) (slotB : Slot)
    (shards : List Shard) (drains : List Drain) (recovery : Option Recovery) (jobEpochs : List Nat) (kept : List (Nat
    × Nat)) (keptFor : List (Nat × Nat × Nat)) (hostLines : List Nat) (waiting : List (Nat × List Byte)) (xwMsg :
    Option XwPairing) (xwOwn : List XwStep) (xwTheirs : List (Nat × Nat)) (xwStreams : Option (Nat × List (Nat ×
    Nat))) (xwDiff : Option XwDiff) (rung : List (Nat × List Byte)) (cmds : List HostCmd) (cqHeld : List Completion)
    (errorLog : List ErrorRecord) (squallEvents : Store Nat (Nat × Nat)) (audit : List AuditEntry) (mirror : List
    AuditEntry) (sessions : List Session) (assemblies : List Assembly) (answers : List Answer) (subs : List
    Subscription) (frozen : Option SetView) (late : List (Nat × SetView)) (out : List Output) (h : Nat) : (State.mk
    pending now free regs deferred mem poisonAtoms poisonWords bays tests copies tailwind recent seqOut seqIn early
    requests retry linkQueue flitNext stuck answered refusals hartReplies u.harts stores reservations pclks regions
    staged closes roundsEnded raccIssue fences peerLinks mails mailNext mailIn transit colls collDone collHeld chans
    fills narrow llm corrections chanQueue chanStalled narrowHeld sliceHeld merging moved migrated spareMarks remaps
    remapping mapoutWaits journal pulses softPpr segments slotA slotB shards drains recovery jobEpochs kept keptFor
    hostLines waiting xwMsg xwOwn xwTheirs xwStreams xwDiff rung cmds cqHeld errorLog squallEvents audit mirror
    sessions assemblies answers subs frozen late out).hart h = u.hart h := rfl

end Sys2Proof.Machine
end

