-- ==== Sys2Proof/Laws/Dictionary.lean ====
section
/-! SUPPORT. What a request of the dictionary does: an accepted write, and one that a check refuses. -/

namespace Sys2Proof.Machine

variable (s : State)

/-- An accepted write puts its entry in the audit log, gives the register its value, has the object's effect, and is answered
OK (R579, R593). -/
theorem State.writeRequest_accepts (q : Requester) (r : Reg) (inst : Nat) (bs : List Byte)
    (effect : Reg → Nat → State → State) (own : Reg → Nat) (h : Accepts s q r inst bs)
    (ho : own r = resOk) (hr : r ≠ .auditAckHost) :
    s.writeRequest q (r.objAt inst) bs effect own =
      (effect r inst (s.accepted q r inst bs)).answer q (r.objAt inst) resOk := by
  obtain ⟨h1, h2, h3, ha, h4, h5, h6, h7⟩ := h
  simp [State.writeRequest, State.serveWrite, State.writeObject, State.accepted, h1, h2, h3, h4, h5, h6, h7, ha, ho, hr, ofBool]

/-- A piece that completes an accepted value has the whole effect of its write (R579, R581). -/
theorem State.writePiece_accepts {q : Requester} {r : Reg} {inst off : Nat} {data v : List Byte} {peers : Option Half}
    (h : AcceptsPiece s q r inst off data peers v) :
    s.writePiece q (r.objAt inst) off data peers = (resOk, s.written q r inst v) := by
  obtain ⟨hv, hp, ⟨-, h2, h3, ha, h4, h5, h6, h7⟩, ho⟩ := h
  have h2' : (s.dropAssemblies q).supervisorServes = true := h2
  have h3' : (s.dropAssemblies q).unknownSession q = false := h3
  have h5' : (s.dropAssemblies q).writeChecks q r inst v = resOk := h5
  have h6' : (s.dropAssemblies q).auditRoom = true := h6
  have h7' : (s.dropAssemblies q).defers r = false := h7
  have ho' : (s.dropAssemblies q).ownRule r v peers = resOk := ho
  have key : (s.dropAssemblies q).writeAny q (r.objAt inst) v peers = (resOk, s.written q r inst v) := by
    unfold State.writeAny State.serveWrite State.writeObject
    simp only [h2', h3', h4, h5', h6', h7', ha, ho', State.written, State.taken, State.accepted]
    by_cases hr : r = .auditAckHost <;> simp [hr, ofBool]
  have hs : ¬ ((!s.supervisorServes || s.unknownSession q) = true) := by simp [h2, h3]
  unfold State.writePiece
  unfold State.assembled at hv
  by_cases hb : blobs.contains r = true
  · rw [if_pos hb] at hp hv
    obtain ⟨hd, hl⟩ := hp
    rw [hv] at key
    dsimp only
    rw [if_neg hs, ha]
    dsimp only
    rw [if_neg (by simp only [hb]; decide), if_neg (by simp [hd, hl]), if_neg (by omega), hv]
    exact key
  · rw [if_neg hb] at hp hv
    subst hv hp
    dsimp only
    rw [if_neg hs, ha]
    dsimp only
    rw [if_pos (by simpa using hb), if_pos rfl]
    exact key

/-- What settles before a value changes leaves every register but Squall's. -/
theorem State.reg_beforeChange (r : Reg) (inst : Nat) {x : Reg} (h1 : x ≠ .squallScore16) (h2 : x ≠ .squallAt) (j : Nat) :
    (s.beforeChange r inst).reg x j = s.reg x j := by
  unfold State.beforeChange
  dsimp only
  rw [State.reg_upd]
  split
  · rw [State.reg_setReg_ne _ (Ne.symm h2), State.reg_setReg_ne _ (Ne.symm h1)]
  · rfl

/-- The registers after an accepted write, but for the object written, the audit log's own, and Squall's for its half-life. -/
theorem State.reg_accepted_ne {r x : Reg} (q : Requester) (inst : Nat) (bs : List Byte) (h : r ≠ x)
    (hx : x ∉ [Reg.auditHead, .auditLost, .auditRefusing, .squallScore16, .squallAt]) (j : Nat) :
    (s.accepted q r inst bs).reg x j = s.reg x j := by
  simp only [List.mem_cons, List.not_mem_nil, not_or] at hx
  obtain ⟨h1, h2, h3, h4, h5, -⟩ := hx
  unfold State.accepted
  dsimp only
  have hx' : x ∉ auditRegs := by simp [auditRegs, h1, h2]
  rw [State.reg_setRegs_ne _ h, State.reg_beforeChange _ _ _ h4 h5, State.reg_setReg_ne _ (Ne.symm h3),
    State.reg_appendAudit _ hx']

/-- The object after an accepted write of one element. -/
theorem State.reg_accepted_same {r : Reg} (q : Requester) (inst : Nat) (bs : List Byte) (h : r.info.elems = 1) :
    (s.accepted q r inst bs).reg r inst = maskWrite r 0 (ofLe (bs.take r.info.esize)) % r.modulus := by
  unfold State.accepted
  dsimp only
  rw [State.reg_setRegs, h]
  simp [Reg.taken, pieces, h]

/-- The answer of an accepted write is the last thing that the package has sent. -/
theorem answered_answer (t : State) (q : Requester) (obj : Nat) : Answered q obj (t.answer q obj resOk) := rfl

end Sys2Proof.Machine
end

