-- ==== Sys2Proof/Laws/Keeps.lean ====
section
/-! SUPPORT. What the operations of the package keep: any property of the queue, the registers and node memory that the changes
of some registers, and of memory, keep. Every operation comes with the set of the registers that it may change. -/

namespace Sys2Proof.Machine

/-- Changes of the registers that `T` names, and of node memory where `T` names it (`none`), keep `K`; and `K` speaks of the
queue, the registers and node memory only. -/
structure Closed (T : Option Reg → Bool) (K : State → Prop) : Prop where
  same : ∀ s t : State, t.pending = s.pending → t.regs = s.regs → t.mem = s.mem → K s → K t
  setReg : ∀ (s : State) r i v, T (some r) = true → K s → K (s.setReg r i v)
  filterRegs : ∀ (s : State) (f : Reg → Bool), (∀ r, f r = false → T (some r) = true) → K s →
    K { s with regs := s.regs.filter fun e => f e.1.1 }
  setByte : ∀ (s : State) a b, T none = true → K s → K (s.setByte a b)
  wipe : ∀ (s : State) lo hi, T none = true → K s → K (s.wipe lo hi)

/-- `K` holds of a state. -/
structure Has (K : State → Prop) (s : State) : Prop where
  out : K s

/-- The same of what functions answer that give a state beside other values. -/
def Has1 {A : Type} (K : State → Prop) (v : State × A) : Prop := Has K v.1
def Has2 {A : Type} (K : State → Prop) (v : A × State) : Prop := Has K v.2
def Has3 {A B : Type} (K : State → Prop) (v : A × B × State) : Prop := Has K v.2.2
def Has4 {A B C : Type} (K : State → Prop) (v : A × B × C × State) : Prop := Has K v.2.2.2
structure HasOpt (K : State → Prop) (v : Option State) : Prop where
  out : ∀ t, v = some t → Has K t
structure HasOpt2 {A : Type} (K : State → Prop) (v : Option (A × State)) : Prop where
  out : ∀ a t, v = some (a, t) → Has K t
structure HasExc2 {E A : Type} (K : State → Prop) (v : Except E (A × State)) : Prop where
  out : ∀ a t, v = .ok (a, t) → Has K t
structure HasRes (K : State → Prop) (v : Res) : Prop where
  out : ∀ t, v = .next t → Has K t

variable {K : State → Prop} {s : State}

theorem Has1.mk {A : Type} {t : State} {a : A} (h : Has K t) : Has1 K (t, a) := h
theorem Has2.mk {A : Type} {t : State} {a : A} (h : Has K t) : Has2 K (a, t) := h
theorem Has3.mk {A B : Type} {t : State} {a : A} {b : B} (h : Has K t) : Has3 K (a, b, t) := h
theorem Has4.mk {A B C : Type} {t : State} {a : A} {b : B} {c : C} (h : Has K t) : Has4 K (a, b, c, t) := h
theorem HasOpt.some {t : State} (h : Has K t) : HasOpt K (some t) := ⟨fun _ e => Option.some.inj e ▸ h⟩
theorem HasOpt.none : HasOpt K none := ⟨fun _ e => nomatch e⟩
theorem HasOpt2.some {A : Type} {t : State} {a : A} (h : Has K t) : HasOpt2 K (some (a, t)) :=
  ⟨fun _ _ e => (Prod.mk.inj (Option.some.inj e)).2 ▸ h⟩
theorem HasOpt2.none {A : Type} : HasOpt2 K (none : Option (A × State)) := ⟨fun _ _ e => nomatch e⟩
theorem HasExc2.ok {E A : Type} {t : State} {a : A} (h : Has K t) : HasExc2 K (.ok (a, t) : Except E (A × State)) :=
  ⟨fun _ _ e => (Prod.mk.inj (Except.ok.inj e)).2 ▸ h⟩
theorem HasExc2.error {E A : Type} {x : E} : HasExc2 K (.error x : Except E (A × State)) := ⟨fun _ _ e => nomatch e⟩
theorem HasRes.next {t : State} (h : Has K t) : HasRes K (.next t) := ⟨fun _ e => Host.Outcome.next.inj e ▸ h⟩

theorem Has1.of_eq {A : Type} {v : State × A} {t : State} {a : A} (h : Has1 K v) (e : v = (t, a)) : Has K t := by
  subst e; exact h
theorem Has2.of_eq {A : Type} {v : A × State} {t : State} {a : A} (h : Has2 K v) (e : v = (a, t)) : Has K t := by
  subst e; exact h
theorem Has3.of_eq {A B : Type} {v : A × B × State} {t : State} {a : A} {b : B} (h : Has3 K v) (e : v = (a, b, t)) :
    Has K t := by
  subst e; exact h
theorem Has4.of_eq {A B C : Type} {v : A × B × C × State} {t : State} {a : A} {b : B} {c : C} (h : Has4 K v)
    (e : v = (a, b, c, t)) : Has K t := by
  subst e; exact h
theorem HasOpt.of_eq {v : Option State} {t : State} (h : HasOpt K v) (e : v = .some t) : Has K t := h.out t e
theorem HasOpt2.of_eq {A : Type} {v : Option (A × State)} {t : State} {a : A} (h : HasOpt2 K v) (e : v = .some (a, t)) :
    Has K t := h.out a t e
theorem HasExc2.of_eq {E A : Type} {v : Except E (A × State)} {t : State} {a : A} (h : HasExc2 K v) (e : v = .ok (a, t)) :
    Has K t := h.out a t e
theorem HasRes.of_eq {v : Res} {t : State} (h : HasRes K v) (e : v = .next t) : Has K t := h.out t e
theorem HasOpt.getD {v : Option State} {t : State} (h : HasOpt K v) (ht : Has K t) : Has K (v.getD t) := by
  cases v with
  | none => exact ht
  | some u => exact h.out u rfl
theorem Has1.proj {A : Type} {v : State × A} (h : Has1 K v) : Has K v.1 := h
theorem Has2.proj {A : Type} {v : A × State} (h : Has2 K v) : Has K v.2 := h
theorem Has3.proj {A B : Type} {v : A × B × State} (h : Has3 K v) : Has K v.2.2 := h
theorem Has4.proj {A B C : Type} {v : A × B × C × State} (h : Has4 K v) : Has K v.2.2.2 := h

theorem Has.ite {c : Prop} [Decidable c] {a b : State} (ha : Has K a) (hb : Has K b) : Has K (if c then a else b) := by
  split
  · exact ha
  · exact hb

theorem Has1.ite {A : Type} {c : Prop} [Decidable c] {a b : State × A} (ha : Has1 K a) (hb : Has1 K b) :
    Has1 K (if c then a else b) := by
  split
  · exact ha
  · exact hb
theorem Has2.ite {A : Type} {c : Prop} [Decidable c] {a b : A × State} (ha : Has2 K a) (hb : Has2 K b) :
    Has2 K (if c then a else b) := by
  split
  · exact ha
  · exact hb
theorem Has3.ite {A B : Type} {c : Prop} [Decidable c] {a b : A × B × State} (ha : Has3 K a) (hb : Has3 K b) :
    Has3 K (if c then a else b) := by
  split
  · exact ha
  · exact hb
theorem Has4.ite {A B C : Type} {c : Prop} [Decidable c] {a b : A × B × C × State} (ha : Has4 K a) (hb : Has4 K b) :
    Has4 K (if c then a else b) := by
  split
  · exact ha
  · exact hb
theorem HasOpt.ite {c : Prop} [Decidable c] {a b : Option State} (ha : HasOpt K a) (hb : HasOpt K b) :
    HasOpt K (if c then a else b) := by
  split
  · exact ha
  · exact hb
theorem HasOpt2.ite {A : Type} {c : Prop} [Decidable c] {a b : Option (A × State)} (ha : HasOpt2 K a) (hb : HasOpt2 K b) :
    HasOpt2 K (if c then a else b) := by
  split
  · exact ha
  · exact hb
theorem HasExc2.ite {E A : Type} {c : Prop} [Decidable c] {a b : Except E (A × State)} (ha : HasExc2 K a) (hb : HasExc2 K b) :
    HasExc2 K (if c then a else b) := by
  split
  · exact ha
  · exact hb
theorem HasRes.ite {c : Prop} [Decidable c] {a b : Res} (ha : HasRes K a) (hb : HasRes K b) :
    HasRes K (if c then a else b) := by
  split
  · exact ha
  · exact hb

theorem Has.foldl {A : Type} {f : State → A → State} {l : List A} (h : Has K s)
    (hf : ∀ u x, Has K u → Has K (f u x)) : Has K (l.foldl f s) := by
  induction l generalizing s with
  | nil => exact h
  | cons x l ih => exact ih (hf s x h)

theorem HasOpt.map {A : Type} {f : A → State} {o : Option A} (h : ∀ x, Has K (f x)) : HasOpt K (o.map f) := by
  cases o with
  | none => exact HasOpt.none
  | some x => exact HasOpt.some (h x)

theorem HasOpt2.map {A B : Type} {f : A → B × State} {o : Option A} (h : ∀ x, Has K (f x).2) : HasOpt2 K (o.map f) := by
  cases o with
  | none => exact HasOpt2.none
  | some x => exact HasOpt2.some (a := (f x).1) (h x)

theorem Has1.foldl {A B : Type} {f : State × B → A → State × B} {v : State × B} {l : List A} (h : Has1 K v)
    (hf : ∀ u x, Has1 K u → Has1 K (f u x)) : Has K (l.foldl f v).1 := by
  induction l generalizing v with
  | nil => exact h
  | cons x l ih => exact ih (hf v x h)

theorem Has.foldr {A : Type} {f : A → State → State} {l : List A} (h : Has K s)
    (hf : ∀ x u, Has K u → Has K (f x u)) : Has K (l.foldr f s) := by
  induction l with
  | nil => exact h
  | cons x l ih => exact hf x _ ih

/-- A change of other fields keeps what the queue, the registers and node memory say. -/
theorem Has.same {T : Option Reg → Bool} {K : State → Prop} (hK : Closed T K) {s : State} (now : Nat) (free : Nat)
    (deferred : List ((Reg × Nat) × Nat)) (poisonAtoms : List Nat) (poisonWords : List Nat) (bays : Store Nat Bay)
    (tests : List SelfTest) (copies : List ModelCopy) (tailwind : List TailwindCopy) (recent : Store Nat Nat) (seqOut
    : Store Nat Nat) (seqIn : Store Nat Nat) (early : List (Nat × Packet)) (requests : List Request) (retry : List
    LinkFlits) (linkQueue : List LinkPacket) (flitNext : Store Nat Nat) (stuck : List (Nat × Packet)) (answered : List
    Packet) (refusals : List (Nat × Nat)) (hartReplies : List HartReply) (harts : Store Nat Hart) (stores : List
    HartStore) (reservations : List (Nat × Nat)) (pclks : Nat × Nat) (regions : List Region) (staged : List Staged)
    (closes : List (Nat × Nat)) (roundsEnded : List Nat) (raccIssue : Store Nat Nat) (fences : List (Nat × Nat))
    (peerLinks : Store Nat Nat) (mails : List Mail) (mailNext : Store Nat Nat) (mailIn : List MailIn) (transit : List
    Packet) (colls : List Coll) (collDone : List (CollId × Bool)) (collHeld : List CollHeld) (chans : Store Nat
    Channel) (fills : List Nat) (narrow : List Narrow) (llm : Store Nat Nat) (corrections : List (Nat × Nat))
    (chanQueue : List (Nat × ChanReq)) (chanStalled : List (Nat × ChanReq)) (narrowHeld : List Narrow) (sliceHeld :
    List (Nat × SliceReq)) (merging : List (Nat × List (Nat × Nat))) (moved : List Nat) (migrated : Nat) (spareMarks :
    List SpareMark) (remaps : List Remap) (remapping : List (Nat × Nat)) (mapoutWaits : List Nat) (journal : Store Nat
    Nat) (pulses : List Pulse) (softPpr : List (Nat × Nat)) (segments : Store Nat Nat) (slotA : Slot) (slotB : Slot)
    (shards : List Shard) (drains : List Drain) (recovery : Option Recovery) (jobEpochs : List Nat) (kept : List (Nat
    × Nat)) (keptFor : List (Nat × Nat × Nat)) (hostLines : List Nat) (waiting : List (Nat × List Byte)) (xwMsg :
    Option XwPairing) (xwOwn : List XwStep) (xwTheirs : List (Nat × Nat)) (xwStreams : Option (Nat × List (Nat ×
    Nat))) (xwDiff : Option XwDiff) (rung : List (Nat × List Byte)) (cmds : List HostCmd) (cqHeld : List Completion)
    (errorLog : List ErrorRecord) (squallEvents : Store Nat (Nat × Nat)) (audit : List AuditEntry) (mirror : List
    AuditEntry) (sessions : List Session) (assemblies : List Assembly) (answers : List Answer) (subs : List
    Subscription) (frozen : Option SetView) (late : List (Nat × SetView)) (out : List Output) : Has K (State.mk
    s.pending now free s.regs deferred s.mem poisonAtoms poisonWords bays tests copies tailwind recent seqOut seqIn
    early requests retry linkQueue flitNext stuck answered refusals hartReplies harts stores reservations pclks
    regions staged closes roundsEnded raccIssue fences peerLinks mails mailNext mailIn transit colls collDone collHeld
    chans fills narrow llm corrections chanQueue chanStalled narrowHeld sliceHeld merging moved migrated spareMarks
    remaps remapping mapoutWaits journal pulses softPpr segments slotA slotB shards drains recovery jobEpochs kept
    keptFor hostLines waiting xwMsg xwOwn xwTheirs xwStreams xwDiff rung cmds cqHeld errorLog squallEvents audit
    mirror sessions assemblies answers subs frozen late out) ↔ Has K s :=
  ⟨fun h => by refine ⟨hK.same _ s ?_ ?_ ?_ h.out⟩ <;> rfl, fun h => by refine ⟨hK.same s _ ?_ ?_ ?_ h.out⟩ <;> rfl⟩

theorem closed_reg (T : Option Reg → Bool) (s : State) (q : Reg) (h : T (some q) = false) (j : Nat) :
    Closed T (fun t => t.reg q j = s.reg q j) where
  same u v _ hv _ hu := by unfold State.reg; rw [hv]; exact hu
  setReg u r i v hr hu := by rw [State.reg_setReg, if_neg (fun e => by rw [e.1, h] at hr; cases hr)]; exact hu
  filterRegs u f hf hu := by
    rw [← hu]
    unfold State.reg
    rw [Store.get_filter (fun (e : Reg × Nat) => f e.1)]
    cases hx : f q with
    | true => rfl
    | false => rw [hf q hx] at h; cases h
  setByte _ _ _ _ hu := hu
  wipe _ _ _ _ hu := hu

theorem closed_mem (T : Option Reg → Bool) (s : State) (h : T none = false) : Closed T (fun t => t.mem = s.mem) where
  same u v _ _ hv hu := hv.trans hu
  setReg _ _ _ _ _ hu := hu
  filterRegs _ _ _ hu := hu
  setByte _ _ _ hb := by rw [h] at hb; cases hb
  wipe _ _ _ hb := by rw [h] at hb; cases hb

theorem closed_pending (T : Option Reg → Bool) (s : State) : Closed T (fun t => t.pending = s.pending) where
  same u v hv _ _ hu := hv.trans hu
  setReg _ _ _ _ _ hu := hu
  filterRegs _ _ _ hu := hu
  setByte _ _ _ _ hu := hu
  wipe _ _ _ _ hu := hu


/-! The primitive operations. -/

variable {T : Option Reg → Bool}

def touchSetReg (r : Reg) (p : Option Reg) : Bool := p == some r
def touchClearReg (r : Reg) (p : Option Reg) : Bool := p == some r
def touchSetRegs (r : Reg) (p : Option Reg) : Bool := p == some r
def touchClearDomain (d : Domain) (p : Option Reg) : Bool := p.any fun r => r.info.domain = d
def touchSetByte (p : Option Reg) : Bool := p == none
def touchWipe (p : Option Reg) : Bool := p == none
def touchPutBytes (p : Option Reg) : Bool := p == none

theorem keeps_setReg (hK : Closed T K) (s : State) (r : Reg) (hT : ∀ p, touchSetReg r p = true → T p = true) (i v : Nat)
    (h : Has K s) : Has K (s.setReg r i v) :=
  ⟨hK.setReg _ _ _ _ (hT _ (beq_self_eq_true _)) h.out⟩

theorem keeps_clearReg (hK : Closed T K) (s : State) (r : Reg) (hT : ∀ p, touchClearReg r p = true → T p = true)
    (h : Has K s) : Has K (s.clearReg r) :=
  ⟨hK.filterRegs s (fun q => decide (q ≠ r)) (fun q hq => by
    have : q = r := by simpa using hq
    exact this ▸ hT _ (beq_self_eq_true _)) h.out⟩

theorem keeps_clearDomain (hK : Closed T K) (s : State) (d : Domain) (hT : ∀ p, touchClearDomain d p = true → T p = true)
    (h : Has K s) : Has K (s.clearDomain d) :=
  ⟨hK.filterRegs s (fun q => decide (q.info.domain ≠ d)) (fun q hq => hT _ (by simpa [touchClearDomain] using hq)) h.out⟩

theorem keeps_setByte (hK : Closed T K) (s : State) (hT : ∀ p, touchSetByte p = true → T p = true) (a : Nat) (b : Byte)
    (h : Has K s) : Has K (s.setByte a b) :=
  ⟨hK.setByte _ _ _ (hT _ rfl) h.out⟩

theorem keeps_wipe (hK : Closed T K) (s : State) (hT : ∀ p, touchWipe p = true → T p = true) (lo hi : Nat)
    (h : Has K s) : Has K (s.wipe lo hi) :=
  ⟨hK.wipe _ _ _ (hT _ rfl) h.out⟩

theorem keeps_setRegs (hK : Closed T K) (s : State) (r : Reg) (hT : ∀ p, touchSetRegs r p = true → T p = true) (i : Nat)
    (vs : List Nat) (h : Has K s) : Has K (s.setRegs r i vs) := by
  induction vs generalizing s i with
  | nil => exact h
  | cons v vs ih => exact ih _ _ (keeps_setReg hK _ _ hT _ _ h)

theorem keeps_putBytes (hK : Closed T K) (s : State) (hT : ∀ p, touchPutBytes p = true → T p = true) (a : Nat)
    (bs : List Byte) (h : Has K s) : Has K (s.putBytes a bs) := by
  induction bs generalizing s a with
  | nil => exact h
  | cons b bs ih => exact ih _ _ (keeps_setByte hK _ hT _ _ h)

end Sys2Proof.Machine
end

