-- ==== Sys2Proof/Laws/KeepsOps.lean ====
section
/-! SUPPORT. What the operations of Machine/Ops.lean keep, and the registers that each may change. -/

namespace Sys2Proof.Machine

variable {T : Option Reg → Bool} {K : State → Prop}

def touchAddReg (r : Reg) (p : Option Reg) : Bool := touchSetReg r p

theorem keeps_addReg (hK : Closed T K) (s : State) (r : Reg) (i n : Nat) (hT : ∀ p, touchAddReg r p = true → T p =
    true) (hks : Has K s) : Has K (State.addReg s r i n) := by
  unfold State.addReg
  try dsimp only
  repeat' first
    | exact fun p hp => hT p hp
    | intro _
    | with_reducible assumption
    | with_reducible exact hks
    | with_reducible apply Has.ite
    | with_reducible apply keeps_setReg
    | dsimp only
    | split

def touchSetFlag (r : Reg) (p : Option Reg) : Bool := touchSetReg r p

theorem keeps_setFlag (hK : Closed T K) (s : State) (r : Reg) (i b : Nat) (v : Bool) (hT : ∀ p, touchSetFlag r p =
    true → T p = true) (hks : Has K s) : Has K (State.setFlag s r i b v) := by
  unfold State.setFlag
  try dsimp only
  repeat' first
    | exact fun p hp => hT p hp
    | intro _
    | with_reducible assumption
    | with_reducible exact hks
    | with_reducible apply Has.ite
    | with_reducible apply keeps_setReg
    | dsimp only
    | split

def touchSetBytes (r : Reg) (p : Option Reg) : Bool := touchSetRegs r p

theorem keeps_setBytes (hK : Closed T K) (s : State) (r : Reg) (inst : Nat) (bs : List Byte) (hT : ∀ p, touchSetBytes
    r p = true → T p = true) (hks : Has K s) : Has K (State.setBytes s r inst bs) := by
  unfold State.setBytes
  try dsimp only
  repeat' first
    | exact fun p hp => hT p hp
    | intro _
    | with_reducible assumption
    | with_reducible exact hks
    | with_reducible apply Has.ite
    | with_reducible apply keeps_setRegs
    | dsimp only
    | split

def touchDraw (_ : Option Reg) : Bool := false

theorem keeps_draw (hK : Closed T K) (s : State)  (hks : Has K s) : Has2 K (State.draw s) := by
  unfold State.draw
  try dsimp only
  repeat' first
    | intro _
    | with_reducible assumption
    | with_reducible exact hks
    | with_reducible apply Has2.mk
    | with_reducible apply Has2.ite
    | with_reducible apply Has.ite
    | simp only [Has.same hK]
    | dsimp only
    | split

def touchSend (_ : Option Reg) : Bool := false

theorem keeps_send (hK : Closed T K) (s : State) (o : Output)  (hks : Has K s) : Has K (State.send s o) := by
  unfold State.send
  try dsimp only
  repeat' first
    | intro _
    | with_reducible assumption
    | with_reducible exact hks
    | with_reducible apply Has.ite
    | simp only [Has.same hK]
    | dsimp only
    | split

def touchStore (p : Option Reg) : Bool := touchPutBytes p

theorem keeps_store (hK : Closed T K) (s : State) (a n v : Nat) (hT : ∀ p, touchStore p = true → T p = true) (hks :
    Has K s) : Has K (State.store s a n v) := by
  unfold State.store
  try dsimp only
  repeat' first
    | exact fun p hp => hT p hp
    | intro _
    | with_reducible assumption
    | with_reducible exact hks
    | with_reducible apply Has.ite
    | with_reducible apply keeps_putBytes
    | dsimp only
    | split

def touchMigrate (_ : Option Reg) : Bool := false

theorem keeps_migrate (hK : Closed T K) (s : State) (hks : Has K s) : Has K (State.migrate s) := by
  unfold State.migrate
  try dsimp only
  repeat' first
    | intro _
    | with_reducible assumption
    | with_reducible exact hks
    | with_reducible apply Has.ite
    | simp only [Has.same hK]
    | dsimp only
    | split

def touchTick (_ : Option Reg) : Bool := false

theorem keeps_tick (hK : Closed T K) (s : State) (hks : Has K s) : Has K (tick s) := by
  unfold tick
  try dsimp only
  repeat' first
    | intro _
    | with_reducible assumption
    | with_reducible exact hks
    | with_reducible apply Has.ite
    | with_reducible apply keeps_migrate
    | simp only [Has.same hK]
    | dsimp only
    | split

end Sys2Proof.Machine
end

