-- ==== Sys2Proof/Laws/KeepsAudit.lean ====
section
/-! SUPPORT. What the operations of Machine/Audit.lean keep, and the registers that each may change. -/

namespace Sys2Proof.Machine

variable {T : Option Reg → Bool} {K : State → Prop}

def touchRefreshAcked (p : Option Reg) : Bool := touchSetReg .auditAcked p

theorem keeps_refreshAcked (hK : Closed T K) (s : State) (hT : ∀ p, touchRefreshAcked p = true → T p = true) (hks :
    Has K s) : Has K (State.refreshAcked s) := by
  unfold State.refreshAcked
  try dsimp only
  repeat' first
    | exact fun p hp => hT p hp
    | intro _
    | with_reducible assumption
    | with_reducible exact hks
    | with_reducible apply Has.ite
    | with_reducible apply keeps_setReg
    | dsimp only
    | split

def touchSendEvents (p : Option Reg) : Bool := touchSend p

theorem keeps_sendEvents (hK : Closed T K) (s : State) (who : Requester) (seq : Nat) (hT : ∀ p, touchSendEvents p =
    true → T p = true) (hks : Has K s) : Has K (State.sendEvents s who seq) := by
  unfold State.sendEvents
  try dsimp only
  repeat' first
    | exact fun p hp => hT p hp
    | intro _
    | with_reducible assumption
    | with_reducible exact hks
    | with_reducible apply Has.ite
    | with_reducible apply keeps_send
    | with_reducible apply Has.foldl
    | with_reducible apply Has1.foldl
    | with_reducible exact Has1.proj (by with_reducible assumption)
    | with_reducible apply Has1.mk
    | dsimp only
    | split

def touchPumpAudit (p : Option Reg) : Bool := touchSendEvents p

theorem keeps_pumpAudit (hK : Closed T K) (s : State) (hT : ∀ p, touchPumpAudit p = true → T p = true) (hks : Has K s)
    : Has K (State.pumpAudit s) := by
  unfold State.pumpAudit
  try dsimp only
  repeat' first
    | exact fun p hp => hT p hp
    | intro _
    | with_reducible assumption
    | with_reducible exact hks
    | with_reducible apply Has.ite
    | with_reducible apply keeps_sendEvents
    | with_reducible apply Has.foldl
    | with_reducible apply Has1.foldl
    | with_reducible exact Has1.proj (by with_reducible assumption)
    | with_reducible apply Has1.mk
    | simp only [Has.same hK]
    | dsimp only
    | split

def touchAppendAudit (p : Option Reg) : Bool := touchAddReg .auditLost p || touchPumpAudit p || touchSetReg .auditHead
  p

theorem keeps_appendAudit (hK : Closed T K) (s : State) (obj origin principal result flags : Nat) (old new : List
    Byte) (hT : ∀ p, touchAppendAudit p = true → T p = true) (hks : Has K s) : Has K (State.appendAudit s obj origin
    principal result flags old new) := by
  unfold State.appendAudit
  try dsimp only
  repeat' first
    | exact fun p hp => hT p (by simp only [touchAppendAudit, hp, Bool.or_true, Bool.true_or])
    | intro _
    | with_reducible assumption
    | with_reducible exact hks
    | with_reducible apply Has.ite
    | with_reducible apply keeps_addReg
    | with_reducible apply keeps_pumpAudit
    | with_reducible apply keeps_setReg
    | simp only [Has.same hK]
    | dsimp only
    | split

def touchAuditInternal (p : Option Reg) : Bool := touchAppendAudit p

theorem keeps_auditInternal (hK : Closed T K) (s : State) (obj result : Nat) (old new : List Byte) (hT : ∀ p,
    touchAuditInternal p = true → T p = true) (hks : Has K s) : Has K (State.auditInternal s obj result old new) := by
  unfold State.auditInternal
  try dsimp only
  repeat' first
    | exact fun p hp => hT p hp
    | intro _
    | with_reducible assumption
    | with_reducible exact hks
    | with_reducible apply Has.ite
    | with_reducible apply keeps_appendAudit
    | dsimp only
    | split

def touchChange (r : Reg) (p : Option Reg) : Bool := touchAuditInternal p || touchSetReg r p

theorem keeps_change (hK : Closed T K) (s : State) (r : Reg) (i v : Nat) (hT : ∀ p, touchChange r p = true → T p =
    true) (hks : Has K s) : Has K (State.change s r i v) := by
  unfold State.change
  try dsimp only
  repeat' first
    | exact fun p hp => hT p (by simp only [touchChange, hp, Bool.or_true, Bool.true_or])
    | intro _
    | with_reducible assumption
    | with_reducible exact hks
    | with_reducible apply Has.ite
    | with_reducible apply keeps_auditInternal
    | with_reducible apply keeps_setReg
    | dsimp only
    | split

def touchChangeAll (r : Reg) (p : Option Reg) : Bool := touchAuditInternal p || touchSetRegs r p

theorem keeps_changeAll (hK : Closed T K) (s : State) (r : Reg) (inst : Nat) (vs : List Nat) (hT : ∀ p, touchChangeAll
    r p = true → T p = true) (hks : Has K s) : Has K (State.changeAll s r inst vs) := by
  unfold State.changeAll
  try dsimp only
  repeat' first
    | exact fun p hp => hT p (by simp only [touchChangeAll, hp, Bool.or_true, Bool.true_or])
    | intro _
    | with_reducible assumption
    | with_reducible exact hks
    | with_reducible apply Has.ite
    | with_reducible apply keeps_auditInternal
    | with_reducible apply keeps_setRegs
    | dsimp only
    | split

def touchRaise (r : Reg) (p : Option Reg) : Bool := touchChange r p

theorem keeps_raise (hK : Closed T K) (s : State) (r : Reg) (b : Nat) (hT : ∀ p, touchRaise r p = true → T p = true)
    (hks : Has K s) : Has K (State.raise s r b) := by
  unfold State.raise
  try dsimp only
  repeat' first
    | exact fun p hp => hT p hp
    | intro _
    | with_reducible assumption
    | with_reducible exact hks
    | with_reducible apply Has.ite
    | with_reducible apply keeps_change
    | dsimp only
    | split

def touchLower (r : Reg) (p : Option Reg) : Bool := touchChange r p

theorem keeps_lower (hK : Closed T K) (s : State) (r : Reg) (b : Nat) (hT : ∀ p, touchLower r p = true → T p = true)
    (hks : Has K s) : Has K (State.lower s r b) := by
  unfold State.lower
  try dsimp only
  repeat' first
    | exact fun p hp => hT p hp
    | intro _
    | with_reducible assumption
    | with_reducible exact hks
    | with_reducible apply Has.ite
    | with_reducible apply keeps_change
    | dsimp only
    | split

end Sys2Proof.Machine
end

