-- ==== Sys2Proof/Laws/KeepsOperands.lean ====
section
/-! SUPPORT. What the operations of Machine/Operands.lean keep, and the registers that each may change. -/

namespace Sys2Proof.Machine

variable {T : Option Reg → Bool} {K : State → Prop}

def touchPoison (_ : Option Reg) : Bool := false

theorem keeps_poison (hK : Closed T K) (s : State) (a : Nat)  (hks : Has K s) : Has K (State.poison s a) := by
  unfold State.poison
  try dsimp only
  repeat' first
    | intro _
    | with_reducible assumption
    | with_reducible exact hks
    | with_reducible apply Has.ite
    | simp only [Has.same hK]
    | dsimp only
    | split

def touchPoisonWord (_ : Option Reg) : Bool := false

theorem keeps_poisonWord (hK : Closed T K) (s : State) (a : Nat)  (hks : Has K s) : Has K (State.poisonWord s a) := by
  unfold State.poisonWord
  try dsimp only
  repeat' first
    | intro _
    | with_reducible assumption
    | with_reducible exact hks
    | with_reducible apply Has.ite
    | simp only [Has.same hK]
    | dsimp only
    | split

def touchPoisonSpan (_ : Option Reg) : Bool := false

theorem keeps_poisonSpan (hK : Closed T K) (s : State) (lo hi : Nat) (hks : Has K s) : Has K (State.poisonSpan s lo
    hi) := by
  unfold State.poisonSpan
  try dsimp only
  repeat' first
    | intro _
    | with_reducible assumption
    | with_reducible exact hks
    | with_reducible apply Has.ite
    | with_reducible apply Has.foldl
    | with_reducible apply Has1.foldl
    | with_reducible exact Has1.proj (by with_reducible assumption)
    | with_reducible apply Has1.mk
    | simp only [Has.same hK]
    | dsimp only
    | split

def touchCopyBefore (p : Option Reg) : Bool := touchAddReg .cbwWrites p

theorem keeps_copyBefore (hK : Closed T K) (s : State) (x : Slot) (lo hi : Nat) (hT : ∀ p, touchCopyBefore p = true →
    T p = true) (hks : Has K s) : Has1 K (State.copyBefore s x lo hi) :=
  copyBefore_induct (P := fun u => Has K u)
    (fun u i hu => keeps_addReg hK u .cbwWrites i 1 hT hu) x lo hi hks

def touchNoteMoved (_ : Option Reg) : Bool := false

theorem keeps_noteMoved (hK : Closed T K) (s : State) (lo hi : Nat) (hks : Has K s) : Has K (State.noteMoved s lo
    hi) := by
  unfold State.noteMoved
  try dsimp only
  repeat' first
    | intro _
    | with_reducible assumption
    | with_reducible exact hks
    | with_reducible apply Has.ite
    | with_reducible apply Has.foldl
    | with_reducible apply Has1.foldl
    | with_reducible exact Has1.proj (by with_reducible assumption)
    | with_reducible apply Has1.mk
    | simp only [Has.same hK]
    | dsimp only
    | split

def touchNoteMerge (_ : Option Reg) : Bool := false

theorem keeps_noteMerge (hK : Closed T K) (s : State) (lo hi : Nat) (hks : Has K s) : Has K (State.noteMerge s lo
    hi) := by
  unfold State.noteMerge
  try dsimp only
  repeat' first
    | intro _
    | with_reducible assumption
    | with_reducible exact hks
    | with_reducible apply Has.ite
    | simp only [Has.same hK]
    | dsimp only
    | split

def touchBeforeWrite (p : Option Reg) : Bool := touchAddReg .backInvalidates p || touchCopyBefore p || touchSetReg
  .hostHeldLines p

theorem keeps_beforeWrite (hK : Closed T K) (s : State) (lo hi : Nat) (hT : ∀ p, touchBeforeWrite p = true → T p =
    true) (hks : Has K s) : Has K (State.beforeWrite s lo hi) := by
  unfold State.beforeWrite
  try dsimp only
  repeat' first
    | exact fun p hp => hT p (by simp only [touchBeforeWrite, hp, Bool.or_true, Bool.true_or])
    | intro _
    | with_reducible assumption
    | with_reducible exact hks
    | with_reducible apply Has.ite
    | with_reducible apply keeps_addReg
    | with_reducible apply keeps_copyBefore
    | with_reducible apply keeps_noteMerge
    | with_reducible apply keeps_noteMoved
    | with_reducible apply keeps_setReg
    | simp only [Has.same hK]
    | with_reducible refine Has1.of_eq ?_ (by assumption)
    | (with_reducible apply Has1.proj; with_reducible apply keeps_copyBefore)
    | dsimp only
    | split

def touchWriteAtoms (p : Option Reg) : Bool := touchBeforeWrite p || touchPutBytes p

theorem keeps_writeAtoms (hK : Closed T K) (s : State) (a : Nat) (bs : List Byte) (hT : ∀ p, touchWriteAtoms p =
    true → T p = true) (hks : Has K s) : Has K (State.writeAtoms s a bs) := by
  unfold State.writeAtoms
  try dsimp only
  repeat' first
    | exact fun p hp => hT p (by simp only [touchWriteAtoms, hp, Bool.or_true, Bool.true_or])
    | intro _
    | with_reducible assumption
    | with_reducible exact hks
    | with_reducible apply Has.ite
    | with_reducible apply keeps_beforeWrite
    | with_reducible apply keeps_putBytes
    | simp only [Has.same hK]
    | dsimp only
    | split

def touchClearWords (_ : Option Reg) : Bool := false

theorem keeps_clearWords (hK : Closed T K) (s : State) (a hi : Nat) (hks : Has K s) : Has K (State.clearWords s a
    hi) := by
  unfold State.clearWords
  try dsimp only
  repeat' first
    | intro _
    | with_reducible assumption
    | with_reducible exact hks
    | with_reducible apply Has.ite
    | with_reducible apply Has.foldl
    | with_reducible apply Has1.foldl
    | with_reducible exact Has1.proj (by with_reducible assumption)
    | with_reducible apply Has1.mk
    | simp only [Has.same hK]
    | dsimp only
    | split

def touchWrite (p : Option Reg) : Bool := touchBeforeWrite p || touchPutBytes p

theorem keeps_write (hK : Closed T K) (s : State) (a : Nat) (bs : List Byte) (hT : ∀ p, touchWrite p = true → T p =
    true) (hks : Has K s) : Has K (State.write s a bs) := by
  unfold State.write
  try dsimp only
  repeat' first
    | exact fun p hp => hT p (by simp only [touchWrite, hp, Bool.or_true, Bool.true_or])
    | intro _
    | with_reducible assumption
    | with_reducible exact hks
    | with_reducible apply Has.ite
    | with_reducible apply keeps_beforeWrite
    | with_reducible apply keeps_clearWords
    | with_reducible apply keeps_putBytes
    | simp only [Has.same hK]
    | dsimp only
    | split

def touchSetLlm (_ : Option Reg) : Bool := false

theorem keeps_setLlm (hK : Closed T K) (s : State) (line v : Nat) (hks : Has K s) : Has K (State.setLlm s line v) :=
    by
  unfold State.setLlm
  try dsimp only
  repeat' first
    | intro _
    | with_reducible assumption
    | with_reducible exact hks
    | with_reducible apply Has.ite
    | simp only [Has.same hK]
    | dsimp only
    | split

def touchHoldLine (_ : Option Reg) : Bool := false

theorem keeps_holdLine (hK : Closed T K) (s : State) (line : Nat) (hks : Has K s) : Has K (State.holdLine s line) :=
    by
  unfold State.holdLine
  try dsimp only
  repeat' first
    | intro _
    | with_reducible assumption
    | with_reducible exact hks
    | with_reducible apply Has.ite
    | with_reducible apply keeps_setLlm
    | dsimp only
    | split

def touchSetChan (_ : Option Reg) : Bool := false

theorem keeps_setChan (hK : Closed T K) (s : State) (ch : Nat) (c : Channel)  (hks : Has K s) : Has K (State.setChan s
    ch c) := by
  unfold State.setChan
  try dsimp only
  repeat' first
    | intro _
    | with_reducible assumption
    | with_reducible exact hks
    | with_reducible apply Has.ite
    | simp only [Has.same hK]
    | dsimp only
    | split

def touchAccept (p : Option Reg) : Bool := touchWriteAtoms p

theorem keeps_accept (hK : Closed T K) (s : State) (r : ChanReq) (hT : ∀ p, touchAccept p = true → T p = true) (hks
    : Has K s) : Has K (State.accept s r) := by
  unfold State.accept
  try dsimp only
  repeat' first
    | exact fun p hp => hT p hp
    | intro _
    | with_reducible assumption
    | with_reducible exact hks
    | with_reducible apply Has.ite
    | with_reducible apply keeps_writeAtoms
    | dsimp only
    | split

def touchQueueChan (p : Option Reg) : Bool := touchAccept p

theorem keeps_queueChan (hK : Closed T K) (s : State) (ch : Nat) (r : ChanReq) (hT : ∀ p, touchQueueChan p = true →
    T p = true) (hks : Has K s) : Has K (State.queueChan s ch r) := by
  unfold State.queueChan
  try dsimp only
  repeat' first
    | exact fun p hp => hT p hp
    | intro _
    | with_reducible assumption
    | with_reducible exact hks
    | with_reducible apply Has.ite
    | with_reducible apply keeps_accept
    | simp only [Has.same hK]
    | dsimp only
    | split

def touchWriteStack (p : Option Reg) : Bool := touchQueueChan p || touchWriteAtoms p

theorem keeps_writeStack (hK : Closed T K) (s : State) (a : Nat) (bs : List Byte) (hT : ∀ p, touchWriteStack p =
    true → T p = true) (hks : Has K s) : Has K (State.writeStack s a bs) := by
  unfold State.writeStack
  try dsimp only
  repeat' first
    | exact fun p hp => hT p (by simp only [touchWriteStack, hp, Bool.or_true, Bool.true_or])
    | intro _
    | with_reducible assumption
    | with_reducible exact hks
    | with_reducible apply Has.ite
    | with_reducible apply keeps_queueChan
    | with_reducible apply keeps_writeAtoms
    | dsimp only
    | split

def touchWriteCoupler (p : Option Reg) : Bool := touchWrite p || touchWriteStack p

theorem keeps_writeCoupler (hK : Closed T K) (s : State) (a : Nat) (bs : List Byte) (hT : ∀ p, touchWriteCoupler p =
    true → T p = true) (hks : Has K s) : Has K (State.writeCoupler s a bs) := by
  unfold State.writeCoupler
  try dsimp only
  repeat' first
    | exact fun p hp => hT p (by simp only [touchWriteCoupler, hp, Bool.or_true, Bool.true_or])
    | intro _
    | with_reducible assumption
    | with_reducible exact hks
    | with_reducible apply Has.ite
    | with_reducible apply keeps_write
    | with_reducible apply keeps_writeStack
    | with_reducible apply Has.foldl
    | with_reducible apply Has1.foldl
    | with_reducible exact Has1.proj (by with_reducible assumption)
    | with_reducible apply Has1.mk
    | dsimp only
    | split

def touchJobWrite (p : Option Reg) : Bool := touchWrite p

theorem keeps_jobWrite (hK : Closed T K) (s : State) (a : Nat) (bs : List Byte) (hT : ∀ p, touchJobWrite p = true →
    T p = true) (hks : Has K s) : Has K (State.jobWrite s a bs) := by
  unfold State.jobWrite
  try dsimp only
  repeat' first
    | exact fun p hp => hT p hp
    | intro _
    | with_reducible assumption
    | with_reducible exact hks
    | with_reducible apply Has.ite
    | with_reducible apply keeps_write
    | dsimp only
    | split

def touchWrites (p : Option Reg) : Bool := touchWrite p

theorem keeps_writes (hK : Closed T K) (s : State) (ws : List (Nat × List Byte)) (hT : ∀ p, touchWrites p = true → T p
    = true) (hks : Has K s) : Has K (State.writes s ws) := by
  unfold State.writes
  try dsimp only
  repeat' first
    | exact fun p hp => hT p hp
    | intro _
    | with_reducible assumption
    | with_reducible exact hks
    | with_reducible apply Has.ite
    | with_reducible apply keeps_write
    | with_reducible apply Has.foldl
    | with_reducible apply Has1.foldl
    | with_reducible exact Has1.proj (by with_reducible assumption)
    | with_reducible apply Has1.mk
    | dsimp only
    | split

def touchSetBay (_ : Option Reg) : Bool := false

theorem keeps_setBay (hK : Closed T K) (s : State) (b : Nat) (x : Bay)  (hks : Has K s) : Has K (State.setBay s b x)
    := by
  unfold State.setBay
  try dsimp only
  repeat' first
    | intro _
    | with_reducible assumption
    | with_reducible exact hks
    | with_reducible apply Has.ite
    | simp only [Has.same hK]
    | dsimp only
    | split

end Sys2Proof.Machine
end

