-- ==== Sys2Proof/Laws/KeepsErrorLog.lean ====
section
/-! SUPPORT. What the operations of Machine/ErrorLog.lean keep, and the registers that each may change. -/

namespace Sys2Proof.Machine

variable {T : Option Reg → Bool} {K : State → Prop}

def touchSquallWeigh (_ : Option Reg) : Bool := false

theorem keeps_squallWeigh (hK : Closed T K) (s : State) (e : ErrorEvent)  (hks : Has K s) : Has2 K (State.squallWeigh
    s e) := by
  unfold State.squallWeigh
  try dsimp only
  repeat' first
    | intro _
    | with_reducible assumption
    | with_reducible exact hks
    | with_reducible apply Has2.mk
    | with_reducible apply Has2.ite
    | with_reducible apply Has.ite
    | simp only [Has.same hK]
    | dsimp only
    | split

def touchSquallWarns (p : Option Reg) : Bool := touchAddReg .squallWarnings p || touchChange .squallState p ||
  touchRaise .alertCause p || touchSend p

theorem keeps_squallWarns (hK : Closed T K) (s : State) (hT : ∀ p, touchSquallWarns p = true → T p = true) (hks : Has
    K s) : Has K (State.squallWarns s) := by
  unfold State.squallWarns
  try dsimp only
  repeat' first
    | exact fun p hp => hT p (by simp only [touchSquallWarns, hp, Bool.or_true, Bool.true_or])
    | intro _
    | with_reducible assumption
    | with_reducible exact hks
    | with_reducible apply Has.ite
    | with_reducible apply keeps_addReg
    | with_reducible apply keeps_change
    | with_reducible apply keeps_raise
    | with_reducible apply keeps_send
    | dsimp only
    | split

def touchTrace (p : Option Reg) : Bool := touchAddReg .traceCount p || touchAddReg .traceDropped p || touchJobWrite
  p

theorem keeps_trace (hK : Closed T K) (s : State) (queueFull : Bool) (bs : List Byte) (hT : ∀ p, touchTrace p = true
    → T p = true) (hks : Has K s) : Has K (State.trace s queueFull bs) := by
  unfold State.trace
  try dsimp only
  repeat' first
    | exact fun p hp => hT p (by simp only [touchTrace, hp, Bool.or_true, Bool.true_or])
    | intro _
    | with_reducible assumption
    | with_reducible exact hks
    | with_reducible apply Has.ite
    | with_reducible apply keeps_addReg
    | with_reducible apply keeps_jobWrite
    | dsimp only
    | split

def touchFire (p : Option Reg) : Bool := touchAddReg .freezeGen p || touchAddReg .freezeMissed p || touchDraw p ||
  touchSetBytes .freezeRecord p || touchSetReg .freezeState p || touchSetReg .dumpWaits p || touchTrace p

theorem keeps_fire (hK : Closed T K) (s : State) (src code step lbay : Nat) (hT : ∀ p, touchFire p = true → T p =
    true) (hks : Has K s) : Has K (State.fire s src code step lbay) := by
  unfold State.fire
  try dsimp only
  repeat' first
    | exact fun p hp => hT p (by simp only [touchFire, hp, Bool.or_true, Bool.true_or])
    | intro _
    | with_reducible assumption
    | with_reducible exact hks
    | with_reducible apply Has.ite
    | with_reducible apply keeps_addReg
    | with_reducible apply keeps_draw
    | with_reducible apply keeps_setBytes
    | with_reducible apply keeps_setReg
    | with_reducible apply keeps_trace
    | simp only [Has.same hK]
    | with_reducible refine Has2.of_eq ?_ (by assumption)
    | (with_reducible apply Has2.proj; with_reducible apply keeps_draw)
    | dsimp only
    | split

def touchLogError (p : Option Reg) : Bool := touchAddReg .errorsLost p || touchAddReg .errorCounts p || touchAddReg
  .errorRate p || touchAddReg .ratePast p || touchFire p || touchRaise .alertCause p || touchSend p || touchSetReg
  .squallScore16 p || touchSetReg .squallAt p || touchSetReg .errorHead p || touchSetReg .lastAlertSeq p ||
  touchSquallWarns p || touchSquallWeigh p

theorem keeps_logError (hK : Closed T K) (s : State) (e : ErrorEvent) (hT : ∀ p, touchLogError p = true → T p = true)
    (hks : Has K s) : Has K (State.logError s e) := by
  unfold State.logError
  try dsimp only
  repeat' first
    | exact fun p hp => hT p (by simp only [touchLogError, hp, Bool.or_true, Bool.true_or])
    | intro _
    | with_reducible assumption
    | with_reducible exact hks
    | with_reducible apply Has.ite
    | with_reducible apply keeps_addReg
    | with_reducible apply keeps_fire
    | with_reducible apply keeps_raise
    | with_reducible apply keeps_send
    | with_reducible apply keeps_setReg
    | with_reducible apply keeps_squallWarns
    | with_reducible apply keeps_squallWeigh
    | simp only [Has.same hK]
    | with_reducible refine Has2.of_eq ?_ (by assumption)
    | (with_reducible apply Has2.proj; with_reducible apply keeps_squallWeigh)
    | dsimp only
    | split

def touchSettleError (_ : Option Reg) : Bool := false

theorem keeps_settleError (hK : Closed T K) (s : State) (seq outcome pause : Nat)  (hks : Has K s) : Has K
    (State.settleError s seq outcome pause) := by
  unfold State.settleError
  try dsimp only
  repeat' first
    | intro _
    | with_reducible assumption
    | with_reducible exact hks
    | with_reducible apply Has.ite
    | simp only [Has.same hK]
    | dsimp only
    | split

end Sys2Proof.Machine
end

