-- ==== Sys2Proof/Laws/KeepsDictionary.lean ====
section
/-! SUPPORT. What the operations of Machine/Dictionary.lean keep, and the registers that each may change. -/

namespace Sys2Proof.Machine

variable {T : Option Reg → Bool} {K : State → Prop}

def touchAnswer (p : Option Reg) : Bool := touchSend p

theorem keeps_answer (hK : Closed T K) (s : State) (q : Requester) (obj code : Nat) (hT : ∀ p, touchAnswer p = true →
    T p = true) (hks : Has K s) : Has K (State.answer s q obj code) := by
  unfold State.answer
  try dsimp only
  repeat' first
    | exact fun p hp => hT p hp
    | intro _
    | with_reducible assumption
    | with_reducible exact hks
    | with_reducible apply Has.ite
    | with_reducible apply keeps_send
    | dsimp only
    | split

def touchCountRefused (p : Option Reg) : Bool := touchAddReg .dictRefused p

theorem keeps_countRefused (hK : Closed T K) (s : State) (hT : ∀ p, touchCountRefused p = true → T p = true) (hks :
    Has K s) : Has K (State.countRefused s) := by
  unfold State.countRefused
  try dsimp only
  repeat' first
    | exact fun p hp => hT p hp
    | intro _
    | with_reducible assumption
    | with_reducible exact hks
    | with_reducible apply Has.ite
    | with_reducible apply keeps_addReg
    | dsimp only
    | split

def touchNoteGated (p : Option Reg) : Bool := touchLogError p

theorem keeps_noteGated (hK : Closed T K) (s : State) (code : Nat) (hT : ∀ p, touchNoteGated p = true → T p = true)
    (hks : Has K s) : Has K (State.noteGated s code) := by
  unfold State.noteGated
  try dsimp only
  repeat' first
    | exact fun p hp => hT p hp
    | intro _
    | with_reducible assumption
    | with_reducible exact hks
    | with_reducible apply Has.ite
    | with_reducible apply keeps_logError
    | simp only [Has.same hK]
    | dsimp only
    | split

def touchBeforeChange (p : Option Reg) : Bool := touchSetReg .squallAt p || touchSetReg .squallScore16 p

theorem keeps_beforeChange (hK : Closed T K) (s : State) (r : Reg) (inst : Nat) (hT : ∀ p, touchBeforeChange p =
    true → T p = true) (hks : Has K s) : Has K (State.beforeChange s r inst) := by
  unfold State.beforeChange
  try dsimp only
  repeat' first
    | exact fun p hp => hT p (by simp only [touchBeforeChange, hp, Bool.or_true, Bool.true_or])
    | intro _
    | with_reducible assumption
    | with_reducible exact hks
    | with_reducible apply Has.ite
    | with_reducible apply keeps_setReg
    | simp only [Has.same hK]
    | dsimp only
    | split

def touchWriteObject (r : Reg) (p : Option Reg) : Bool := touchAddReg .auditRefused p || touchAppendAudit p ||
  touchBeforeChange p || touchCountRefused p || touchLogError p || touchNoteGated p || touchSetReg .auditRefusing p
  || touchSetRegs r p

theorem keeps_writeObject (hK : Closed T K) (s : State) (q : Requester) (r : Reg) (inst : Nat) (bs : List Byte)
    (effect : State → State) (own : Nat := resOk) (hT : ∀ p, touchWriteObject r p = true → T p = true) (hks : Has K
    s) (hkeffect : ∀ x0, Has K x0 → Has K (effect x0)) : Has2 K (State.writeObject s q r inst bs effect own) := by
  unfold State.writeObject
  try dsimp only
  repeat' first
    | exact fun p hp => hT p (by simp only [touchWriteObject, hp, Bool.or_true, Bool.true_or])
    | intro _
    | with_reducible assumption
    | with_reducible exact hks
    | with_reducible apply hkeffect
    | with_reducible apply Has2.mk
    | with_reducible apply Has2.ite
    | with_reducible apply Has.ite
    | with_reducible apply keeps_addReg
    | with_reducible apply keeps_appendAudit
    | with_reducible apply keeps_beforeChange
    | with_reducible apply keeps_countRefused
    | with_reducible apply keeps_logError
    | with_reducible apply keeps_noteGated
    | with_reducible apply keeps_setReg
    | with_reducible apply keeps_setRegs
    | simp only [Has.same hK]
    | dsimp only
    | split

def touchWriteReadOnly (p : Option Reg) : Bool := touchAddReg .auditRefused p || touchAppendAudit p ||
  touchCountRefused p

theorem keeps_writeReadOnly (hK : Closed T K) (s : State) (q : Requester) (addr : Nat) (bs : List Byte) (hT : ∀ p,
    touchWriteReadOnly p = true → T p = true) (hks : Has K s) : Has2 K (State.writeReadOnly s q addr bs) := by
  unfold State.writeReadOnly
  try dsimp only
  repeat' first
    | exact fun p hp => hT p (by simp only [touchWriteReadOnly, hp, Bool.or_true, Bool.true_or])
    | intro _
    | with_reducible assumption
    | with_reducible exact hks
    | with_reducible apply Has2.mk
    | with_reducible apply Has2.ite
    | with_reducible apply Has.ite
    | with_reducible apply keeps_addReg
    | with_reducible apply keeps_appendAudit
    | with_reducible apply keeps_countRefused
    | dsimp only
    | split

def touchServeWrite (_ : Option Reg) : Bool := true

theorem keeps_serveWrite (hK : Closed T K) (s : State) (q : Requester) (addr : Nat) (bs : List Byte) (effect : Reg →
    Nat → State → State) (own : Reg → Nat) (hT : ∀ p, touchServeWrite p = true → T p = true) (hks : Has K s) (hkeffect
    : ∀ x0 x1 x2, Has K x2 → Has K (effect x0 x1 x2)) : Has2 K (State.serveWrite s q addr bs effect own) := by
  unfold State.serveWrite
  try dsimp only
  repeat' first
    | exact fun p _ => hT p rfl
    | intro _
    | with_reducible assumption
    | with_reducible exact hks
    | with_reducible apply hkeffect
    | with_reducible apply Has2.mk
    | with_reducible apply Has2.ite
    | with_reducible apply Has.ite
    | with_reducible apply keeps_countRefused
    | with_reducible apply keeps_writeObject
    | with_reducible apply keeps_writeReadOnly
    | with_reducible refine Has2.of_eq ?_ (by assumption)
    | (with_reducible apply Has2.proj; with_reducible apply keeps_writeObject)
    | (with_reducible apply Has2.proj; with_reducible apply keeps_writeReadOnly)
    | dsimp only
    | split

def touchWriteRequest (_ : Option Reg) : Bool := true

theorem keeps_writeRequest (hK : Closed T K) (s : State) (q : Requester) (addr : Nat) (bs : List Byte) (effect : Reg →
    Nat → State → State) (own : Reg → Nat) (hT : ∀ p, touchWriteRequest p = true → T p = true) (hks : Has K s)
    (hkeffect : ∀ x0 x1 x2, Has K x2 → Has K (effect x0 x1 x2)) : Has K (State.writeRequest s q addr bs effect own) :=
    by
  unfold State.writeRequest
  try dsimp only
  repeat' first
    | exact fun p _ => hT p rfl
    | intro _
    | with_reducible assumption
    | with_reducible exact hks
    | with_reducible apply hkeffect
    | with_reducible apply Has.ite
    | with_reducible apply keeps_answer
    | with_reducible apply keeps_serveWrite
    | with_reducible refine Has2.of_eq ?_ (by assumption)
    | (with_reducible apply Has2.proj; with_reducible apply keeps_serveWrite)
    | dsimp only
    | split

def touchApplyDeferred (_ : Option Reg) : Bool := true

theorem keeps_applyDeferred (hK : Closed T K) (s : State) (hT : ∀ p, touchApplyDeferred p = true → T p = true) (hks :
    Has K s) : Has K (State.applyDeferred s) := by
  unfold State.applyDeferred
  try dsimp only
  repeat' first
    | exact fun p _ => hT p rfl
    | intro _
    | with_reducible assumption
    | with_reducible exact hks
    | with_reducible apply Has.ite
    | with_reducible apply keeps_setReg
    | with_reducible apply Has.foldl
    | with_reducible apply Has1.foldl
    | with_reducible exact Has1.proj (by with_reducible assumption)
    | with_reducible apply Has1.mk
    | simp only [Has.same hK]
    | dsimp only
    | split

end Sys2Proof.Machine
end

