-- ==== Sys2Proof/Laws/KeepsFlags.lean ====
section
/-! SUPPORT. What the operations of Machine/Flags.lean keep, and the registers that each may change. -/

namespace Sys2Proof.Machine

variable {T : Option Reg → Bool} {K : State → Prop}

def touchMergeStats (p : Option Reg) : Bool := touchWrite p

theorem keeps_mergeStats (hK : Closed T K) (s : State) (a : Nat) (d : Delta) (hT : ∀ p, touchMergeStats p = true → T
    p = true) (hks : Has K s) : Has1 K (State.mergeStats s a d) := by
  unfold State.mergeStats
  try dsimp only
  repeat' first
    | exact fun p hp => hT p hp
    | intro _
    | with_reducible assumption
    | with_reducible exact hks
    | with_reducible apply Has1.mk
    | with_reducible apply Has1.ite
    | with_reducible apply Has.ite
    | with_reducible apply keeps_write
    | dsimp only
    | split

end Sys2Proof.Machine
end

