-- ==== Sys2Proof/Laws/KeepsWire.lean ====
section
/-! SUPPORT. What the operations of Machine/Wire.lean keep, and the registers that each may change. -/

namespace Sys2Proof.Machine

variable {T : Option Reg → Bool} {K : State → Prop}

def touchCountDetours (p : Option Reg) : Bool := touchSetReg .detours p

theorem keeps_countDetours (hK : Closed T K) (s : State) (hT : ∀ p, touchCountDetours p = true → T p = true) (hks :
    Has K s) : Has K (State.countDetours s) := by
  unfold State.countDetours
  try dsimp only
  repeat' first
    | exact fun p hp => hT p hp
    | intro _
    | with_reducible assumption
    | with_reducible exact hks
    | with_reducible apply Has.ite
    | with_reducible apply keeps_setReg
    | dsimp only
    | split

def touchSendOn (_ : Option Reg) : Bool := false

theorem keeps_sendOn (hK : Closed T K) (s : State) (l : Nat) (o : Output) (hks : Has K s) : Has K (State.sendOn s l
    o) := by
  unfold State.sendOn
  try dsimp only
  repeat' first
    | intro _
    | with_reducible assumption
    | with_reducible exact hks
    | with_reducible apply Has.ite
    | with_reducible apply keeps_send
    | simp only [Has.same hK]
    | dsimp only
    | split

def touchPumpLink (_ : Option Reg) : Bool := false

theorem keeps_pumpLink (hK : Closed T K) (s : State) (l : Nat) (hks : Has K s) : Has K (State.pumpLink s l) := by
  unfold State.pumpLink
  try dsimp only
  repeat' first
    | intro _
    | with_reducible assumption
    | with_reducible exact hks
    | with_reducible apply Has.ite
    | with_reducible apply keeps_sendOn
    | with_reducible apply Has.foldl
    | with_reducible apply Has1.foldl
    | with_reducible exact Has1.proj (by with_reducible assumption)
    | with_reducible apply Has1.mk
    | simp only [Has.same hK]
    | dsimp only
    | split

def touchEmit (_ : Option Reg) : Bool := false

theorem keeps_emit (hK : Closed T K) (s : State) (q : Nat) (p : Packet) (hks : Has K s) : Has K (State.emit s q p)
    := by
  unfold State.emit
  try dsimp only
  repeat' first
    | intro _
    | with_reducible assumption
    | with_reducible exact hks
    | with_reducible apply Has.ite
    | with_reducible apply keeps_sendOn
    | simp only [Has.same hK]
    | dsimp only
    | split

def touchDropLink (_ : Option Reg) : Bool := false

theorem keeps_dropLink (hK : Closed T K) (s : State) (l : Nat) (hks : Has K s) : Has K (State.dropLink s l) := by
  unfold State.dropLink
  try dsimp only
  repeat' first
    | intro _
    | with_reducible assumption
    | with_reducible exact hks
    | with_reducible apply Has.ite
    | simp only [Has.same hK]
    | dsimp only
    | split

def touchRequest (_ : Option Reg) : Bool := false

theorem keeps_request (hK : Closed T K) (s : State) (a : Agent) (q cls offset key : Nat) (body : Body) (hks : Has K
    s) : Has K (State.request s a q cls offset key body) := by
  unfold State.request
  try dsimp only
  repeat' first
    | intro _
    | with_reducible assumption
    | with_reducible exact hks
    | with_reducible apply Has.ite
    | with_reducible apply keeps_emit
    | simp only [Has.same hK]
    | dsimp only
    | split

def touchResendTo (_ : Option Reg) : Bool := false

theorem keeps_resendTo (hK : Closed T K) (s : State) (q : Nat) (hks : Has K s) : Has K (State.resendTo s q) := by
  unfold State.resendTo
  try dsimp only
  repeat' first
    | intro _
    | with_reducible assumption
    | with_reducible exact hks
    | with_reducible apply Has.ite
    | with_reducible apply keeps_emit
    | with_reducible apply Has.foldl
    | with_reducible apply Has1.foldl
    | with_reducible exact Has1.proj (by with_reducible assumption)
    | with_reducible apply Has1.mk
    | simp only [Has.same hK]
    | dsimp only
    | split

def touchControl (_ : Option Reg) : Bool := false

theorem keeps_control (hK : Closed T K) (s : State) (q : Nat) (body : Body) (hks : Has K s) : Has K (State.control s
    q body) := by
  unfold State.control
  try dsimp only
  repeat' first
    | intro _
    | with_reducible assumption
    | with_reducible exact hks
    | with_reducible apply Has.ite
    | with_reducible apply keeps_emit
    | dsimp only
    | split

def touchTellPartner (_ : Option Reg) : Bool := false

theorem keeps_tellPartner (hK : Closed T K) (s : State) (body : Body) (hks : Has K s) : Has K (State.tellPartner s
    body) := by
  unfold State.tellPartner
  try dsimp only
  repeat' first
    | intro _
    | with_reducible assumption
    | with_reducible exact hks
    | with_reducible apply Has.ite
    | with_reducible apply keeps_emit
    | dsimp only
    | split

def touchEndHold (p : Option Reg) : Bool := touchAddReg .xwHoldNs p

theorem keeps_endHold (hK : Closed T K) (s : State) (b : Nat) (hT : ∀ p, touchEndHold p = true → T p = true) (hks :
    Has K s) : Has K (State.endHold s b) := by
  unfold State.endHold
  try dsimp only
  repeat' first
    | exact fun p hp => hT p hp
    | intro _
    | with_reducible assumption
    | with_reducible exact hks
    | with_reducible apply Has.ite
    | with_reducible apply keeps_addReg
    | with_reducible apply keeps_setBay
    | simp only [Has.same hK]
    | dsimp only
    | split

def touchSetXw (p : Option Reg) : Bool := touchChange .xwState p || touchEndHold p

theorem keeps_setXw (hK : Closed T K) (s : State) (v : Nat) (hT : ∀ p, touchSetXw p = true → T p = true) (hks : Has
    K s) : Has K (State.setXw s v) := by
  unfold State.setXw
  try dsimp only
  repeat' first
    | exact fun p hp => hT p (by simp only [touchSetXw, hp, Bool.or_true, Bool.true_or])
    | intro _
    | with_reducible assumption
    | with_reducible exact hks
    | with_reducible apply Has.ite
    | with_reducible apply keeps_change
    | with_reducible apply keeps_endHold
    | with_reducible apply keeps_send
    | with_reducible apply Has.foldl
    | with_reducible apply Has1.foldl
    | with_reducible exact Has1.proj (by with_reducible assumption)
    | with_reducible apply Has1.mk
    | dsimp only
    | split

def touchEndPairing (p : Option Reg) : Bool := touchRaise .alertCause p || touchSetXw p

theorem keeps_endPairing (hK : Closed T K) (s : State) (hT : ∀ p, touchEndPairing p = true → T p = true) (hks : Has K
    s) : Has K (State.endPairing s) := by
  unfold State.endPairing
  try dsimp only
  repeat' first
    | exact fun p hp => hT p (by simp only [touchEndPairing, hp, Bool.or_true, Bool.true_or])
    | intro _
    | with_reducible assumption
    | with_reducible exact hks
    | with_reducible apply Has.ite
    | with_reducible apply keeps_raise
    | with_reducible apply keeps_setXw
    | simp only [Has.same hK]
    | dsimp only
    | split

def touchLeavePairing (p : Option Reg) : Bool := touchEndPairing p

theorem keeps_leavePairing (hK : Closed T K) (s : State) (hT : ∀ p, touchLeavePairing p = true → T p = true) (hks :
    Has K s) : Has K (State.leavePairing s) := by
  unfold State.leavePairing
  try dsimp only
  repeat' first
    | exact fun p hp => hT p hp
    | intro _
    | with_reducible assumption
    | with_reducible exact hks
    | with_reducible apply Has.ite
    | with_reducible apply keeps_endPairing
    | with_reducible apply keeps_tellPartner
    | dsimp only
    | split

def touchCheckPartner (p : Option Reg) : Bool := touchEndPairing p

theorem keeps_checkPartner (hK : Closed T K) (s : State) (hT : ∀ p, touchCheckPartner p = true → T p = true) (hks :
    Has K s) : Has K (State.checkPartner s) := by
  unfold State.checkPartner
  try dsimp only
  repeat' first
    | exact fun p hp => hT p hp
    | intro _
    | with_reducible assumption
    | with_reducible exact hks
    | with_reducible apply Has.ite
    | with_reducible apply keeps_endPairing
    | dsimp only
    | split

end Sys2Proof.Machine
end

