-- ==== Sys2Proof/Laws/KeepsQueues.lean ====
section
/-! SUPPORT. What the operations of Machine/Queues.lean keep, and the registers that each may change. -/

namespace Sys2Proof.Machine

variable {T : Option Reg → Bool} {K : State → Prop}

def touchShowQueue (p : Option Reg) : Bool := touchSetReg .sqState p

theorem keeps_showQueue (hK : Closed T K) (s : State) (q : Nat) (hT : ∀ p, touchShowQueue p = true → T p = true) (hks
    : Has K s) : Has K (State.showQueue s q) := by
  unfold State.showQueue
  try dsimp only
  repeat' first
    | exact fun p hp => hT p hp
    | intro _
    | with_reducible assumption
    | with_reducible exact hks
    | with_reducible apply Has.ite
    | with_reducible apply keeps_setReg
    | dsimp only
    | split

def touchRingWrite (p : Option Reg) : Bool := touchWrite p

theorem keeps_ringWrite (hK : Closed T K) (s : State) (base off : Nat) (bs : List Byte) (hT : ∀ p, touchRingWrite p
    = true → T p = true) (hks : Has K s) : Has K (State.ringWrite s base off bs) := by
  unfold State.ringWrite
  try dsimp only
  repeat' first
    | exact fun p hp => hT p hp
    | intro _
    | with_reducible assumption
    | with_reducible exact hks
    | with_reducible apply Has.ite
    | with_reducible apply keeps_send
    | with_reducible apply keeps_write
    | dsimp only
    | split

def touchPutCompletion (p : Option Reg) : Bool := touchAddReg .cqWraps p || touchRingWrite p || touchSend p ||
  touchSetReg .cqTail p

theorem keeps_putCompletion (hK : Closed T K) (s : State) (e : Completion) (hT : ∀ p, touchPutCompletion p = true → T
    p = true) (hks : Has K s) : Has K (State.putCompletion s e) := by
  unfold State.putCompletion
  try dsimp only
  repeat' first
    | exact fun p hp => hT p (by simp only [touchPutCompletion, hp, Bool.or_true, Bool.true_or])
    | intro _
    | with_reducible assumption
    | with_reducible exact hks
    | with_reducible apply Has.ite
    | with_reducible apply keeps_addReg
    | with_reducible apply keeps_ringWrite
    | with_reducible apply keeps_send
    | with_reducible apply keeps_setReg
    | dsimp only
    | split

def touchPostCompletion (p : Option Reg) : Bool := touchPutCompletion p

theorem keeps_postCompletion (hK : Closed T K) (s : State) (e : Completion) (hT : ∀ p, touchPostCompletion p = true →
    T p = true) (hks : Has K s) : Has K (State.postCompletion s e) := by
  unfold State.postCompletion
  try dsimp only
  repeat' first
    | exact fun p hp => hT p hp
    | intro _
    | with_reducible assumption
    | with_reducible exact hks
    | with_reducible apply Has.ite
    | with_reducible apply keeps_putCompletion
    | simp only [Has.same hK]
    | dsimp only
    | split

def touchFlushHeld (p : Option Reg) : Bool := touchPutCompletion p

theorem keeps_flushHeld (hK : Closed T K) (s : State) (q n : Nat) (hT : ∀ p, touchFlushHeld p = true → T p = true) (hks : Has K s) :
    Has K (State.flushHeld s q n) := by
  induction n generalizing s with
  | zero => exact hks
  | succ n ih =>
    unfold State.flushHeld
    try dsimp only
    repeat' first
      | exact fun p hp => hT p (by simp only [touchFlushHeld, hp, Bool.or_true, Bool.true_or])
      | intro _
      | with_reducible assumption
      | with_reducible exact hks
      | with_reducible apply ih
      | with_reducible apply keeps_putCompletion
      | simp only [Has.same hK]
      | with_reducible apply Has.ite
      | split

def touchNextEntry (_ : Option Reg) : Bool := false

theorem keeps_nextEntry (hK : Closed T K) (s : State) (q : Nat) (hks : Has K s) : HasOpt2 K (State.nextEntry s q) :=
    by
  unfold State.nextEntry
  try dsimp only
  repeat' first
    | intro _
    | with_reducible assumption
    | with_reducible exact hks
    | with_reducible apply HasOpt2.some
    | with_reducible apply HasOpt2.none
    | with_reducible apply HasOpt2.ite
    | with_reducible apply Has.ite
    | simp only [Has.same hK]
    | with_reducible apply HasOpt2.map
    | dsimp only
    | split

def touchFetch (p : Option Reg) : Bool := touchNextEntry p || touchPostCompletion p || touchSetReg .sqHead p

theorem keeps_fetch (hK : Closed T K) (s : State) (q n : Nat) (hT : ∀ p, touchFetch p = true → T p = true) (hks : Has K s) :
    Has K (State.fetch s q n) := by
  induction n generalizing s with
  | zero => exact hks
  | succ n ih =>
    unfold State.fetch
    try dsimp only
    repeat' first
      | exact fun p hp => hT p (by simp only [touchFetch, hp, Bool.or_true, Bool.true_or])
      | intro _
      | with_reducible assumption
      | with_reducible exact hks
      | with_reducible apply ih
      | with_reducible apply keeps_setReg
      | with_reducible apply keeps_postCompletion
      | simp only [Has.same hK]
      | with_reducible exact HasOpt2.of_eq (keeps_nextEntry hK _ _ hks) (by assumption)
      | with_reducible apply Has.ite
      | split

def touchFetchAll (p : Option Reg) : Bool := touchFetch p || touchShowQueue p

theorem keeps_fetchAll (hK : Closed T K) (s : State) (hT : ∀ p, touchFetchAll p = true → T p = true) (hks : Has K s) :
    Has K (State.fetchAll s) := by
  unfold State.fetchAll
  try dsimp only
  repeat' first
    | exact fun p hp => hT p (by simp only [touchFetchAll, hp, Bool.or_true, Bool.true_or])
    | intro _
    | with_reducible assumption
    | with_reducible exact hks
    | with_reducible apply Has.ite
    | with_reducible apply keeps_fetch
    | with_reducible apply keeps_showQueue
    | with_reducible apply Has.foldl
    | with_reducible apply Has1.foldl
    | with_reducible exact Has1.proj (by with_reducible assumption)
    | with_reducible apply Has1.mk
    | dsimp only
    | split

def touchEndCmd (p : Option Reg) : Bool := touchFetchAll p || touchPostCompletion p || touchShowQueue p

theorem keeps_endCmd (hK : Closed T K) (s : State) (c : HostCmd) (status res0 : Nat) (hT : ∀ p, touchEndCmd p = true →
    T p = true) (hks : Has K s) : Has K (State.endCmd s c status res0) := by
  unfold State.endCmd
  try dsimp only
  repeat' first
    | exact fun p hp => hT p (by simp only [touchEndCmd, hp, Bool.or_true, Bool.true_or])
    | intro _
    | with_reducible assumption
    | with_reducible exact hks
    | with_reducible apply Has.ite
    | with_reducible apply keeps_fetchAll
    | with_reducible apply keeps_postCompletion
    | with_reducible apply keeps_showQueue
    | simp only [Has.same hK]
    | dsimp only
    | split

def touchKeepCmd (_ : Option Reg) : Bool := false

theorem keeps_keepCmd (hK : Closed T K) (s : State) (c : HostCmd)  (hks : Has K s) : Has K (State.keepCmd s c) := by
  unfold State.keepCmd
  try dsimp only
  repeat' first
    | intro _
    | with_reducible assumption
    | with_reducible exact hks
    | with_reducible apply Has.ite
    | simp only [Has.same hK]
    | dsimp only
    | split

def touchEndOpc (p : Option Reg) : Bool := touchEndCmd p

theorem keeps_endOpc (hK : Closed T K) (s : State) (opc status res0 : Nat) (hT : ∀ p, touchEndOpc p = true → T p =
    true) (hks : Has K s) : Has K (State.endOpc s opc status res0) := by
  unfold State.endOpc
  try dsimp only
  repeat' first
    | exact fun p hp => hT p hp
    | intro _
    | with_reducible assumption
    | with_reducible exact hks
    | with_reducible apply Has.ite
    | with_reducible apply keeps_endCmd
    | with_reducible apply Has.foldl
    | with_reducible apply Has1.foldl
    | with_reducible exact Has1.proj (by with_reducible assumption)
    | with_reducible apply Has1.mk
    | dsimp only
    | split

def touchNotify (p : Option Reg) : Bool := touchAddReg .notifyDropped p || touchPutCompletion p

theorem keeps_notify (hK : Closed T K) (s : State) (q v : Nat) (hT : ∀ p, touchNotify p = true → T p = true) (hks :
    Has K s) : Has K (State.notify s q v) := by
  unfold State.notify
  try dsimp only
  repeat' first
    | exact fun p hp => hT p (by simp only [touchNotify, hp, Bool.or_true, Bool.true_or])
    | intro _
    | with_reducible assumption
    | with_reducible exact hks
    | with_reducible apply Has.ite
    | with_reducible apply keeps_addReg
    | with_reducible apply keeps_putCompletion
    | dsimp only
    | split

def touchExecNotificationPost (p : Option Reg) : Bool := touchNotify p

theorem keeps_execNotificationPost (hK : Closed T K) (q : Fin 64) (v : Dword) (s : State) (hT : ∀ p,
    touchExecNotificationPost p = true → T p = true) (hks : Has K s) : HasRes K (execNotificationPost q v s) := by
  unfold execNotificationPost
  try dsimp only
  repeat' first
    | exact fun p hp => hT p hp
    | intro _
    | with_reducible assumption
    | with_reducible exact hks
    | with_reducible apply HasRes.next
    | with_reducible apply HasRes.ite
    | with_reducible apply Has.ite
    | with_reducible apply keeps_notify
    | dsimp only
    | split

end Sys2Proof.Machine
end

