-- ==== Sys2Proof/Laws/KeepsReset.lean ====
section
/-! SUPPORT. What the operations of Machine/Reset.lean keep, and the registers that each may change. -/

namespace Sys2Proof.Machine

variable {T : Option Reg → Bool} {K : State → Prop}

def touchAbortRequest (p : Option Reg) : Bool := touchAuditInternal p || touchSetReg .stateRequest p

theorem keeps_abortRequest (hK : Closed T K) (s : State) (hT : ∀ p, touchAbortRequest p = true → T p = true) (hks :
    Has K s) : Has K (State.abortRequest s) := by
  unfold State.abortRequest
  try dsimp only
  repeat' first
    | exact fun p hp => hT p (by simp only [touchAbortRequest, hp, Bool.or_true, Bool.true_or])
    | intro _
    | with_reducible assumption
    | with_reducible exact hks
    | with_reducible apply Has.ite
    | with_reducible apply keeps_auditInternal
    | with_reducible apply keeps_setReg
    | dsimp only
    | split

def touchAbortTransition (p : Option Reg) : Bool := touchAbortRequest p || touchAuditInternal p || touchSetReg
  .startPending p

theorem keeps_abortTransition (hK : Closed T K) (s : State) (hT : ∀ p, touchAbortTransition p = true → T p = true)
    (hks : Has K s) : Has K (State.abortTransition s) := by
  unfold State.abortTransition
  try dsimp only
  repeat' first
    | exact fun p hp => hT p (by simp only [touchAbortTransition, hp, Bool.or_true, Bool.true_or])
    | intro _
    | with_reducible assumption
    | with_reducible exact hks
    | with_reducible apply Has.ite
    | with_reducible apply keeps_abortRequest
    | with_reducible apply keeps_auditInternal
    | with_reducible apply keeps_setReg
    | dsimp only
    | split

def touchEnter (p : Option Reg) : Bool := touchChange .nodeState p

theorem keeps_enter (hK : Closed T K) (s : State) (st : Nat) (hT : ∀ p, touchEnter p = true → T p = true) (hks : Has K
    s) : Has K (State.enter s st) := by
  unfold State.enter
  try dsimp only
  repeat' first
    | exact fun p hp => hT p hp
    | intro _
    | with_reducible assumption
    | with_reducible exact hks
    | with_reducible apply Has.ite
    | with_reducible apply keeps_change
    | dsimp only
    | split

def touchSetRecovery (p : Option Reg) : Bool := touchChange .recoveryState p || touchSend p

theorem keeps_setRecovery (hK : Closed T K) (s : State) (v : Nat) (hT : ∀ p, touchSetRecovery p = true → T p = true)
    (hks : Has K s) : Has K (State.setRecovery s v) := by
  unfold State.setRecovery
  try dsimp only
  repeat' first
    | exact fun p hp => hT p (by simp only [touchSetRecovery, hp, Bool.or_true, Bool.true_or])
    | intro _
    | with_reducible assumption
    | with_reducible exact hks
    | with_reducible apply Has.ite
    | with_reducible apply keeps_change
    | with_reducible apply keeps_send
    | dsimp only
    | split

def touchAbandonRestore (p : Option Reg) : Bool := touchSetRecovery p

theorem keeps_abandonRestore (hK : Closed T K) (s : State) (hT : ∀ p, touchAbandonRestore p = true → T p = true)
    (hks : Has K s) : Has K (State.abandonRestore s) := by
  unfold State.abandonRestore
  try dsimp only
  repeat' first
    | exact fun p hp => hT p hp
    | intro _
    | with_reducible assumption
    | with_reducible exact hks
    | with_reducible apply Has.ite
    | with_reducible apply keeps_setRecovery
    | simp only [Has.same hK]
    | dsimp only
    | split

def touchEnterFaulted (p : Option Reg) : Bool := touchAbandonRestore p || touchAbortTransition p || touchEndOpc p ||
  touchEnter p || touchLeavePairing p || touchSetReg .initEnded p || touchSetReg .initStage p || touchSetReg
  .jobRunning p

theorem keeps_enterFaulted (hK : Closed T K) (s : State) (hT : ∀ p, touchEnterFaulted p = true → T p = true) (hks :
    Has K s) : Has K (State.enterFaulted s) := by
  unfold State.enterFaulted
  try dsimp only
  repeat' first
    | exact fun p hp => hT p (by simp only [touchEnterFaulted, hp, Bool.or_true, Bool.true_or])
    | intro _
    | with_reducible assumption
    | with_reducible exact hks
    | with_reducible apply Has.ite
    | with_reducible apply keeps_abandonRestore
    | with_reducible apply keeps_abortTransition
    | with_reducible apply keeps_endOpc
    | with_reducible apply keeps_enter
    | with_reducible apply keeps_leavePairing
    | with_reducible apply keeps_setReg
    | dsimp only
    | split

def touchDegrade (p : Option Reg) : Bool := touchEnter p || touchRaise .degradeCause p

theorem keeps_degrade (hK : Closed T K) (s : State) (b : Nat) (hT : ∀ p, touchDegrade p = true → T p = true) (hks :
    Has K s) : Has K (State.degrade s b) := by
  unfold State.degrade
  try dsimp only
  repeat' first
    | exact fun p hp => hT p (by simp only [touchDegrade, hp, Bool.or_true, Bool.true_or])
    | intro _
    | with_reducible assumption
    | with_reducible exact hks
    | with_reducible apply Has.ite
    | with_reducible apply keeps_enter
    | with_reducible apply keeps_raise
    | dsimp only
    | split

def touchClearJob (_ : Option Reg) : Bool := false

theorem keeps_clearJob (hK : Closed T K) (s : State) (hks : Has K s) : Has K (State.clearJob s) := by
  unfold State.clearJob
  try dsimp only
  repeat' first
    | intro _
    | with_reducible assumption
    | with_reducible exact hks
    | with_reducible apply Has.ite
    | simp only [Has.same hK]
    | dsimp only
    | split

def touchClearPorts (_ : Option Reg) : Bool := false

theorem keeps_clearPorts (hK : Closed T K) (s : State) (hks : Has K s) : Has K (State.clearPorts s) := by
  unfold State.clearPorts
  try dsimp only
  repeat' first
    | intro _
    | with_reducible assumption
    | with_reducible exact hks
    | with_reducible apply Has.ite
    | simp only [Has.same hK]
    | dsimp only
    | split

def touchClearVolatile (p : Option Reg) : Bool := touchClearJob p || touchClearPorts p || touchSetReg .fusePulses p ||
  touchSetReg .serviceWork p

theorem keeps_clearVolatile (hK : Closed T K) (s : State) (hT : ∀ p, touchClearVolatile p = true → T p = true) (hks :
    Has K s) : Has K (State.clearVolatile s) := by
  unfold State.clearVolatile
  try dsimp only
  repeat' first
    | exact fun p hp => hT p (by simp only [touchClearVolatile, hp, Bool.or_true, Bool.true_or])
    | intro _
    | with_reducible assumption
    | with_reducible exact hks
    | with_reducible apply Has.ite
    | with_reducible apply keeps_clearJob
    | with_reducible apply keeps_clearPorts
    | with_reducible apply keeps_setReg
    | dsimp only
    | split

def touchLoseScratchpads (p : Option Reg) : Bool := touchWipe p

theorem keeps_loseScratchpads (hK : Closed T K) (s : State) (hT : ∀ p, touchLoseScratchpads p = true → T p = true)
    (hks : Has K s) : Has K (State.loseScratchpads s) := by
  unfold State.loseScratchpads
  try dsimp only
  repeat' first
    | exact fun p hp => hT p hp
    | intro _
    | with_reducible assumption
    | with_reducible exact hks
    | with_reducible apply Has.ite
    | with_reducible apply keeps_wipe
    | with_reducible apply Has.foldl
    | with_reducible apply Has1.foldl
    | with_reducible exact Has1.proj (by with_reducible assumption)
    | with_reducible apply Has1.mk
    | simp only [Has.same hK]
    | dsimp only
    | split

def touchClearWarm (p : Option Reg) : Bool := touchClearDomain .warm p || touchClearVolatile p ||
  touchLoseScratchpads p

theorem keeps_clearWarm (hK : Closed T K) (s : State) (hT : ∀ p, touchClearWarm p = true → T p = true) (hks : Has K
    s) : Has K (State.clearWarm s) := by
  unfold State.clearWarm
  try dsimp only
  repeat' first
    | exact fun p hp => hT p (by simp only [touchClearWarm, hp, Bool.or_true, Bool.true_or])
    | intro _
    | with_reducible assumption
    | with_reducible exact hks
    | with_reducible apply Has.ite
    | with_reducible apply keeps_clearDomain
    | with_reducible apply keeps_clearVolatile
    | with_reducible apply keeps_loseScratchpads
    | dsimp only
    | split

def touchWarmClear (p : Option Reg) : Bool := touchClearWarm p || touchSetReg .llmScratchWays p

theorem keeps_warmClear (hK : Closed T K) (s : State) (hT : ∀ p, touchWarmClear p = true → T p = true) (hks : Has K
    s) : Has K (State.warmClear s) := by
  unfold State.warmClear
  try dsimp only
  repeat' first
    | exact fun p hp => hT p (by simp only [touchWarmClear, hp, Bool.or_true, Bool.true_or])
    | intro _
    | with_reducible assumption
    | with_reducible exact hks
    | with_reducible apply Has.ite
    | with_reducible apply keeps_clearWarm
    | with_reducible apply keeps_setReg
    | with_reducible apply Has.foldl
    | with_reducible apply Has1.foldl
    | with_reducible exact Has1.proj (by with_reducible assumption)
    | with_reducible apply Has1.mk
    | dsimp only
    | split

def touchColdClear (p : Option Reg) : Bool := touchChange .taiState p || touchClearDomain .cold p || touchClearWarm
  p || touchSetReg .physId p || touchSetReg .posStrap p

theorem keeps_coldClear (hK : Closed T K) (s : State) (hT : ∀ p, touchColdClear p = true → T p = true) (hks : Has K
    s) : Has K (State.coldClear s) := by
  unfold State.coldClear
  try dsimp only
  repeat' first
    | exact fun p hp => hT p (by simp only [touchColdClear, hp, Bool.or_true, Bool.true_or])
    | intro _
    | with_reducible assumption
    | with_reducible exact hks
    | with_reducible apply Has.ite
    | with_reducible apply keeps_change
    | with_reducible apply keeps_clearDomain
    | with_reducible apply keeps_clearWarm
    | with_reducible apply keeps_setReg
    | simp only [Has.same hK]
    | dsimp only
    | split

def touchIdleLinks (p : Option Reg) : Bool := touchChange .linkState p || touchChange .linkGen p || touchSetReg
  .linksUp p || touchSetReg .linkQuiet p

theorem keeps_idleLinks (hK : Closed T K) (s : State) (hT : ∀ p, touchIdleLinks p = true → T p = true) (hks : Has K s)
    : Has K (State.idleLinks s) := by
  unfold State.idleLinks
  try dsimp only
  repeat' first
    | exact fun p hp => hT p (by simp only [touchIdleLinks, hp, Bool.or_true, Bool.true_or])
    | intro _
    | with_reducible assumption
    | with_reducible exact hks
    | with_reducible apply Has.ite
    | with_reducible apply keeps_change
    | with_reducible apply keeps_setReg
    | with_reducible apply Has.foldl
    | with_reducible apply Has1.foldl
    | with_reducible exact Has1.proj (by with_reducible assumption)
    | with_reducible apply Has1.mk
    | dsimp only
    | split

def touchHoldInReset (p : Option Reg) : Bool := touchAbortTransition p || touchChange .hostLink p || touchEnter p ||
  touchIdleLinks p || touchSetReg .initStage p || touchSetReg .stageStarted p || touchSetReg .inReset p || touchSetReg
  .clkMhz p

theorem keeps_holdInReset (hK : Closed T K) (s : State) (hT : ∀ p, touchHoldInReset p = true → T p = true) (hks : Has
    K s) : Has K (State.holdInReset s) := by
  unfold State.holdInReset
  try dsimp only
  repeat' first
    | exact fun p hp => hT p (by simp only [touchHoldInReset, hp, Bool.or_true, Bool.true_or])
    | intro _
    | with_reducible assumption
    | with_reducible exact hks
    | with_reducible apply Has.ite
    | with_reducible apply keeps_abortTransition
    | with_reducible apply keeps_change
    | with_reducible apply keeps_enter
    | with_reducible apply keeps_idleLinks
    | with_reducible apply keeps_setReg
    | with_reducible apply Has.foldl
    | with_reducible apply Has1.foldl
    | with_reducible exact Has1.proj (by with_reducible assumption)
    | with_reducible apply Has1.mk
    | dsimp only
    | split

def touchColdReset (p : Option Reg) : Bool := touchColdClear p || touchHoldInReset p || touchSetReg .mgmtSilent p ||
  touchSetReg .resetCause p || touchSetReg .warmWaiting p

theorem keeps_coldReset (hK : Closed T K) (s : State) (hT : ∀ p, touchColdReset p = true → T p = true) (hks : Has K
    s) : Has K (State.coldReset s) := by
  unfold State.coldReset
  try dsimp only
  repeat' first
    | exact fun p hp => hT p (by simp only [touchColdReset, hp, Bool.or_true, Bool.true_or])
    | intro _
    | with_reducible assumption
    | with_reducible exact hks
    | with_reducible apply Has.ite
    | with_reducible apply keeps_coldClear
    | with_reducible apply keeps_holdInReset
    | with_reducible apply keeps_setReg
    | dsimp only
    | split

def touchWarmReset (p : Option Reg) : Bool := touchHoldInReset p || touchSetReg .resetCause p || touchWarmClear p

theorem keeps_warmReset (hK : Closed T K) (s : State) (hT : ∀ p, touchWarmReset p = true → T p = true) (hks : Has K s)
    : Has K (State.warmReset s) := by
  unfold State.warmReset
  try dsimp only
  repeat' first
    | exact fun p hp => hT p (by simp only [touchWarmReset, hp, Bool.or_true, Bool.true_or])
    | intro _
    | with_reducible assumption
    | with_reducible exact hks
    | with_reducible apply Has.ite
    | with_reducible apply keeps_holdInReset
    | with_reducible apply keeps_setReg
    | with_reducible apply keeps_warmClear
    | dsimp only
    | split

def touchBeginInit (p : Option Reg) : Bool := touchChange .periphEn p || touchSetReg .inReset p || touchSetReg
  .initStage p || touchSetReg .clkMhz p

theorem keeps_beginInit (hK : Closed T K) (s : State) (hT : ∀ p, touchBeginInit p = true → T p = true) (hks : Has K s)
    : Has K (State.beginInit s) := by
  unfold State.beginInit
  try dsimp only
  repeat' first
    | exact fun p hp => hT p (by simp only [touchBeginInit, hp, Bool.or_true, Bool.true_or])
    | intro _
    | with_reducible assumption
    | with_reducible exact hks
    | with_reducible apply Has.ite
    | with_reducible apply keeps_change
    | with_reducible apply keeps_setReg
    | with_reducible apply Has.foldl
    | with_reducible apply Has1.foldl
    | with_reducible exact Has1.proj (by with_reducible assumption)
    | with_reducible apply Has1.mk
    | dsimp only
    | split

def touchTryBeginInit (p : Option Reg) : Bool := touchBeginInit p

theorem keeps_tryBeginInit (hK : Closed T K) (s : State) (hT : ∀ p, touchTryBeginInit p = true → T p = true) (hks :
    Has K s) : Has K (State.tryBeginInit s) := by
  unfold State.tryBeginInit
  try dsimp only
  repeat' first
    | exact fun p hp => hT p hp
    | intro _
    | with_reducible assumption
    | with_reducible exact hks
    | with_reducible apply Has.ite
    | with_reducible apply keeps_beginInit
    | dsimp only
    | split

def touchLoseStacks (p : Option Reg) : Bool := touchClearReg .shardDir p || touchClearReg .slotInfo p || touchSetReg
  .auditMirrorHead p || touchSetReg .slotDrained p || touchSetReg .slotValid p || touchWipe p

theorem keeps_loseStacks (hK : Closed T K) (s : State) (hT : ∀ p, touchLoseStacks p = true → T p = true) (hks : Has
    K s) : Has K (State.loseStacks s) := by
  unfold State.loseStacks
  try dsimp only
  repeat' first
    | exact fun p hp => hT p (by simp only [touchLoseStacks, hp, Bool.or_true, Bool.true_or])
    | intro _
    | with_reducible assumption
    | with_reducible exact hks
    | with_reducible apply Has.ite
    | with_reducible apply keeps_clearReg
    | with_reducible apply keeps_setReg
    | with_reducible apply keeps_wipe
    | simp only [Has.same hK]
    | dsimp only
    | split

def touchLosePower (p : Option Reg) : Bool := touchAbortTransition p || touchColdClear p || touchEnter p ||
  touchSetReg .initStage p || touchSetReg .stageStarted p || touchSetReg .inReset p || touchSetReg .warmWaiting p

theorem keeps_losePower (hK : Closed T K) (s : State) (hT : ∀ p, touchLosePower p = true → T p = true) (hks : Has K s)
    : Has K (State.losePower s) := by
  unfold State.losePower
  try dsimp only
  repeat' first
    | exact fun p hp => hT p (by simp only [touchLosePower, hp, Bool.or_true, Bool.true_or])
    | intro _
    | with_reducible assumption
    | with_reducible exact hks
    | with_reducible apply Has.ite
    | with_reducible apply keeps_abortTransition
    | with_reducible apply keeps_coldClear
    | with_reducible apply keeps_enter
    | with_reducible apply keeps_setReg
    | dsimp only
    | split

end Sys2Proof.Machine
end

