-- ==== Sys2Proof/Laws/KeepsEntry.lean ====
section
/-! SUPPORT. What the operations of Machine/Entry.lean keep, and the registers that each may change. -/

namespace Sys2Proof.Machine

variable {T : Option Reg → Bool} {K : State → Prop}

def touchSpecView (p : Option Reg) : Bool := touchWrites p

theorem keeps_specView (hK : Closed T K) (s : State) (b : Bay) (hT : ∀ p, touchSpecView p = true → T p = true) (hks :
    Has K s) : Has K (State.specView s b) := by
  unfold State.specView
  try dsimp only
  repeat' first
    | exact fun p hp => hT p hp
    | intro _
    | with_reducible assumption
    | with_reducible exact hks
    | with_reducible apply Has.ite
    | with_reducible apply keeps_writes
    | dsimp only
    | split

def touchEmitRecord (p : Option Reg) : Bool := touchJobWrite p || touchTrace p

theorem keeps_emitRecord (hK : Closed T K) (s : State) (b : Nat) (f : Flight) (queueFull : Bool) (hT : ∀ p,
    touchEmitRecord p = true → T p = true) (hks : Has K s) : Has K (State.emitRecord s b f queueFull) := by
  unfold State.emitRecord
  try dsimp only
  repeat' first
    | exact fun p hp => hT p (by simp only [touchEmitRecord, hp, Bool.or_true, Bool.true_or])
    | intro _
    | with_reducible assumption
    | with_reducible exact hks
    | with_reducible apply Has.ite
    | with_reducible apply keeps_jobWrite
    | with_reducible apply keeps_setBay
    | with_reducible apply keeps_trace
    | simp only [Has.same hK]
    | dsimp only
    | split

def touchSetTableState (p : Option Reg) : Bool := touchChange .tableState p

theorem keeps_setTableState (hK : Closed T K) (s : State) (b v : Nat) (hT : ∀ p, touchSetTableState p = true → T p =
    true) (hks : Has K s) : Has K (State.setTableState s b v) := by
  unfold State.setTableState
  try dsimp only
  repeat' first
    | exact fun p hp => hT p hp
    | intro _
    | with_reducible assumption
    | with_reducible exact hks
    | with_reducible apply Has.ite
    | with_reducible apply keeps_change
    | dsimp only
    | split

def touchShowWaiting (p : Option Reg) : Bool := touchSetTableState p

theorem keeps_showWaiting (hK : Closed T K) (s : State) (b : Nat) (hT : ∀ p, touchShowWaiting p = true → T p = true)
    (hks : Has K s) : Has K (State.showWaiting s b) := by
  unfold State.showWaiting
  try dsimp only
  repeat' first
    | exact fun p hp => hT p hp
    | intro _
    | with_reducible assumption
    | with_reducible exact hks
    | with_reducible apply Has.ite
    | with_reducible apply keeps_setTableState
    | dsimp only
    | split

def touchHaltTable (p : Option Reg) : Bool := touchSetTableState p

theorem keeps_haltTable (hK : Closed T K) (s : State) (b : Nat) (at' : Option Flight) (hT : ∀ p, touchHaltTable p =
    true → T p = true) (hks : Has K s) : Has K (State.haltTable s b at') := by
  unfold State.haltTable
  try dsimp only
  repeat' first
    | exact fun p hp => hT p hp
    | intro _
    | with_reducible assumption
    | with_reducible exact hks
    | with_reducible apply Has.ite
    | with_reducible apply keeps_send
    | with_reducible apply keeps_setBay
    | with_reducible apply keeps_setTableState
    | simp only [Has.same hK]
    | dsimp only
    | split

def touchDescError (p : Option Reg) : Bool := touchEmitRecord p || touchHaltTable p

theorem keeps_descError (hK : Closed T K) (s : State) (b : Nat) (f : Flight) (detail : Nat) (queueFull : Bool) (hT : ∀
    p, touchDescError p = true → T p = true) (hks : Has K s) : Has K (State.descError s b f detail queueFull) := by
  unfold State.descError
  try dsimp only
  repeat' first
    | exact fun p hp => hT p (by simp only [touchDescError, hp, Bool.or_true, Bool.true_or])
    | intro _
    | with_reducible assumption
    | with_reducible exact hks
    | with_reducible apply Has.ite
    | with_reducible apply keeps_emitRecord
    | with_reducible apply keeps_haltTable
    | simp only [Has.same hK]
    | dsimp only
    | split

def touchRejectEntry (p : Option Reg) : Bool := touchEmitRecord p || touchHaltTable p || touchLogError p

theorem keeps_rejectEntry (hK : Closed T K) (s : State) (b : Nat) (f : Flight) (result detail : Nat) (queueFull :
    Bool) (hT : ∀ p, touchRejectEntry p = true → T p = true) (hks : Has K s) : Has K (State.rejectEntry s b f result
    detail queueFull) := by
  unfold State.rejectEntry
  try dsimp only
  repeat' first
    | exact fun p hp => hT p (by simp only [touchRejectEntry, hp, Bool.or_true, Bool.true_or])
    | intro _
    | with_reducible assumption
    | with_reducible exact hks
    | with_reducible apply Has.ite
    | with_reducible apply keeps_emitRecord
    | with_reducible apply keeps_haltTable
    | with_reducible apply keeps_logError
    | simp only [Has.same hK]
    | dsimp only
    | split

def touchSetFlight (p : Option Reg) : Bool := touchSetBay p

theorem keeps_setFlight (hK : Closed T K) (s : State) (b : Nat) (f : Flight) (hT : ∀ p, touchSetFlight p = true → T p
    = true) (hks : Has K s) : Has K (State.setFlight s b f) := by
  unfold State.setFlight
  try dsimp only
  repeat' first
    | exact fun p hp => hT p hp
    | intro _
    | with_reducible assumption
    | with_reducible exact hks
    | with_reducible apply Has.ite
    | with_reducible apply keeps_setBay
    | simp only [Has.same hK]
    | dsimp only
    | split

def touchMergeAll (p : Option Reg) : Bool := touchMergeStats p

theorem keeps_mergeAll (hK : Closed T K) (s : State) (ms : List (Nat × Delta)) (hT : ∀ p, touchMergeAll p = true → T p = true) (hks : Has K s) :
    Has1 K (State.mergeAll s ms) := by
  induction ms generalizing s with
  | nil => exact Has1.mk hks
  | cons m ms ih => exact Has1.mk (ih _ (keeps_mergeStats hK _ _ _ (fun p hp => hT p hp) hks))

def touchAllocate (p : Option Reg) : Bool := touchWrites p

theorem keeps_allocate (hK : Closed T K) (s : State) (f : Flight) (hT : ∀ p, touchAllocate p = true → T p = true)
    (hks : Has K s) : Has K (State.allocate s f) := by
  unfold State.allocate
  try dsimp only
  repeat' first
    | exact fun p hp => hT p hp
    | intro _
    | with_reducible assumption
    | with_reducible exact hks
    | with_reducible apply Has.ite
    | with_reducible apply keeps_holdLine
    | with_reducible apply keeps_writes
    | with_reducible apply Has.foldl
    | with_reducible apply Has1.foldl
    | with_reducible exact Has1.proj (by with_reducible assumption)
    | with_reducible apply Has1.mk
    | dsimp only
    | split

def touchPerform (p : Option Reg) : Bool := touchAddReg .specStalls p || touchAllocate p || touchLogError p ||
  touchMergeAll p || touchSetFlight p || touchWrites p

theorem keeps_perform (hK : Closed T K) (s : State) (b : Nat) (f : Flight) (e : Effect) (hT : ∀ p, touchPerform p =
    true → T p = true) (hks : Has K s) : Has K (State.perform s b f e) := by
  unfold State.perform
  try dsimp only
  repeat' first
    | exact fun p hp => hT p (by simp only [touchPerform, hp, Bool.or_true, Bool.true_or])
    | intro _
    | with_reducible assumption
    | with_reducible exact hks
    | with_reducible apply Has.ite
    | with_reducible apply keeps_addReg
    | with_reducible apply keeps_allocate
    | with_reducible apply keeps_logError
    | with_reducible apply keeps_mergeAll
    | with_reducible apply keeps_setBay
    | with_reducible apply keeps_setFlight
    | with_reducible apply keeps_writes
    | with_reducible apply Has.foldl
    | with_reducible apply Has1.foldl
    | with_reducible exact Has1.proj (by with_reducible assumption)
    | with_reducible apply Has1.mk
    | simp only [Has.same hK]
    | with_reducible refine Has1.of_eq ?_ (by assumption)
    | (with_reducible apply Has1.proj; with_reducible apply keeps_mergeAll)
    | dsimp only
    | split

def touchViewFor (p : Option Reg) : Bool := touchSpecView p

theorem keeps_viewFor (hK : Closed T K) (s : State) (b : Nat) (f : Flight) (hT : ∀ p, touchViewFor p = true → T p =
    true) (hks : Has K s) : Has K (State.viewFor s b f) := by
  unfold State.viewFor
  try dsimp only
  repeat' first
    | exact fun p hp => hT p hp
    | intro _
    | with_reducible assumption
    | with_reducible exact hks
    | with_reducible apply Has.ite
    | with_reducible apply keeps_specView
    | dsimp only
    | split

def touchRunEntry (p : Option Reg) : Bool := touchPerform p || touchViewFor p

theorem keeps_runEntry (hK : Closed T K) (s : State) (b : Nat) (p : Flight → Bool) (plan : State → Bay → Flight →
    Operands → Effect) (hT : ∀ p, touchRunEntry p = true → T p = true) (hks : Has K s) : Has K (State.runEntry s b p
    plan) := by
  unfold State.runEntry
  try dsimp only
  repeat' first
    | exact fun p hp => hT p (by simp only [touchRunEntry, hp, Bool.or_true, Bool.true_or])
    | intro _
    | with_reducible assumption
    | with_reducible exact hks
    | with_reducible apply hkplan
    | with_reducible apply Has.ite
    | with_reducible apply keeps_perform
    | with_reducible apply keeps_viewFor
    | dsimp only
    | split

end Sys2Proof.Machine
end

