-- ==== Sys2Proof/Laws/KeepsSelfTest.lean ====
section
/-! SUPPORT. What the operations of Machine/SelfTest.lean keep, and the registers that each may change. -/

namespace Sys2Proof.Machine

variable {T : Option Reg → Bool} {K : State → Prop}

def touchStartTest (p : Option Reg) : Bool := touchAddReg .selftestRuns p

theorem keeps_startTest (hK : Closed T K) (s : State) (kind unit spare seq : Nat) (hT : ∀ p, touchStartTest p = true
    → T p = true) (hks : Has K s) : Has K (State.startTest s kind unit spare seq) := by
  unfold State.startTest
  try dsimp only
  repeat' first
    | exact fun p hp => hT p hp
    | intro _
    | with_reducible assumption
    | with_reducible exact hks
    | with_reducible apply Has.ite
    | with_reducible apply keeps_addReg
    | simp only [Has.same hK]
    | dsimp only
    | split

def touchSetTest (_ : Option Reg) : Bool := false

theorem keeps_setTest (hK : Closed T K) (s : State) (t : SelfTest)  (hks : Has K s) : Has K (State.setTest s t) := by
  unfold State.setTest
  try dsimp only
  repeat' first
    | intro _
    | with_reducible assumption
    | with_reducible exact hks
    | with_reducible apply Has.ite
    | simp only [Has.same hK]
    | dsimp only
    | split

def touchEndTest (_ : Option Reg) : Bool := false

theorem keeps_endTest (hK : Closed T K) (s : State) (t : SelfTest) (outcome : Nat) (hks : Has K s) : Has K
    (State.endTest s t outcome) := by
  unfold State.endTest
  try dsimp only
  repeat' first
    | intro _
    | with_reducible assumption
    | with_reducible exact hks
    | with_reducible apply Has.ite
    | with_reducible apply keeps_settleError
    | with_reducible apply Has.foldl
    | with_reducible apply Has1.foldl
    | with_reducible exact Has1.proj (by with_reducible assumption)
    | with_reducible apply Has1.mk
    | simp only [Has.same hK]
    | dsimp only
    | split

def touchJoinTests (_ : Option Reg) : Bool := false

theorem keeps_joinTests (hK : Closed T K) (s : State) (t : SelfTest) (unit : Nat) (hks : Has K s) : Has1 K
    (State.joinTests s t unit) := by
  unfold State.joinTests
  try dsimp only
  repeat' first
    | intro _
    | with_reducible assumption
    | with_reducible exact hks
    | with_reducible apply Has1.mk
    | with_reducible apply Has1.ite
    | with_reducible apply Has.ite
    | simp only [Has.same hK]
    | dsimp only
    | split

def touchParityPersistent (p : Option Reg) : Bool := touchLogError p || touchStartTest p

theorem keeps_parityPersistent (hK : Closed T K) (s : State) (kind unit addr lbay step : Nat) (hT : ∀ p,
    touchParityPersistent p = true → T p = true) (hks : Has K s) : Has K (State.parityPersistent s kind unit addr lbay
    step) := by
  unfold State.parityPersistent
  try dsimp only
  repeat' first
    | exact fun p hp => hT p (by simp only [touchParityPersistent, hp, Bool.or_true, Bool.true_or])
    | intro _
    | with_reducible assumption
    | with_reducible exact hks
    | with_reducible apply Has.ite
    | with_reducible apply keeps_logError
    | with_reducible apply keeps_startTest
    | simp only [Has.same hK]
    | dsimp only
    | split

def touchParityReplayed (p : Option Reg) : Bool := touchLogError p

theorem keeps_parityReplayed (hK : Closed T K) (s : State) (kind unit addr lbay step : Nat) (hT : ∀ p,
    touchParityReplayed p = true → T p = true) (hks : Has K s) : Has K (State.parityReplayed s kind unit addr lbay
    step) := by
  unfold State.parityReplayed
  try dsimp only
  repeat' first
    | exact fun p hp => hT p hp
    | intro _
    | with_reducible assumption
    | with_reducible exact hks
    | with_reducible apply Has.ite
    | with_reducible apply keeps_logError
    | simp only [Has.same hK]
    | dsimp only
    | split

end Sys2Proof.Machine
end

