-- ==== Sys2Proof/Laws/KeepsRoster.lean ====
section
/-! SUPPORT. What the operations of Machine/Roster.lean keep, and the registers that each may change. -/

namespace Sys2Proof.Machine

variable {T : Option Reg → Bool} {K : State → Prop}

def touchCountModels (p : Option Reg) : Bool := touchSetReg .rosterCount p

theorem keeps_countModels (hK : Closed T K) (s : State) (hT : ∀ p, touchCountModels p = true → T p = true) (hks : Has
    K s) : Has K (State.countModels s) := by
  unfold State.countModels
  try dsimp only
  repeat' first
    | exact fun p hp => hT p hp
    | intro _
    | with_reducible assumption
    | with_reducible exact hks
    | with_reducible apply Has.ite
    | with_reducible apply keeps_setReg
    | dsimp only
    | split

def touchEvict (p : Option Reg) : Bool := touchAddReg .prefetchUnused p

theorem keeps_evict (hK : Closed T K) (s : State) (c : ModelCopy) (hT : ∀ p, touchEvict p = true → T p = true) (hks
    : Has K s) : Has K (State.evict s c) := by
  unfold State.evict
  try dsimp only
  repeat' first
    | exact fun p hp => hT p hp
    | intro _
    | with_reducible assumption
    | with_reducible exact hks
    | with_reducible apply Has.ite
    | with_reducible apply keeps_addReg
    | simp only [Has.same hK]
    | dsimp only
    | split

def touchMakeRoom (p : Option Reg) : Bool := touchEvict p

theorem keeps_makeRoom (hK : Closed T K) (s : State) (die need n : Nat) (hT : ∀ p, touchMakeRoom p = true → T p = true) (hks : Has K s) :
    Has K (State.makeRoom s die need n) := by
  induction n generalizing s with
  | zero => exact hks
  | succ n ih =>
    unfold State.makeRoom
    split
    · exact hks
    · split
      · exact hks
      · exact ih _ (keeps_evict hK _ _ (fun p hp => hT p hp) hks)

def touchPlace (p : Option Reg) : Bool := touchMakeRoom p

theorem keeps_place (hK : Closed T K) (s : State) (die i : Nat) (used : Bool) (hT : ∀ p, touchPlace p = true → T p =
    true) (hks : Has K s) : Has K (State.place s die i used) := by
  unfold State.place
  try dsimp only
  repeat' first
    | exact fun p hp => hT p hp
    | intro _
    | with_reducible assumption
    | with_reducible exact hks
    | with_reducible apply Has.ite
    | with_reducible apply keeps_makeRoom
    | simp only [Has.same hK]
    | dsimp only
    | split

def touchFitRoster (p : Option Reg) : Bool := touchMakeRoom p

theorem keeps_fitRoster (hK : Closed T K) (s : State) (hT : ∀ p, touchFitRoster p = true → T p = true) (hks : Has K s)
    : Has K (State.fitRoster s) := by
  unfold State.fitRoster
  try dsimp only
  repeat' first
    | exact fun p hp => hT p hp
    | intro _
    | with_reducible assumption
    | with_reducible exact hks
    | with_reducible apply Has.ite
    | with_reducible apply keeps_makeRoom
    | with_reducible apply Has.foldl
    | with_reducible apply Has1.foldl
    | with_reducible exact Has1.proj (by with_reducible assumption)
    | with_reducible apply Has1.mk
    | dsimp only
    | split

def touchHint (p : Option Reg) : Bool := touchAddReg .prefetchDropped p

theorem keeps_hint (hK : Closed T K) (s : State) (die i : Nat) (hT : ∀ p, touchHint p = true → T p = true) (hks :
    Has K s) : Has K (State.hint s die i) := by
  unfold State.hint
  try dsimp only
  repeat' first
    | exact fun p hp => hT p hp
    | intro _
    | with_reducible assumption
    | with_reducible exact hks
    | with_reducible apply Has.ite
    | with_reducible apply keeps_addReg
    | simp only [Has.same hK]
    | dsimp only
    | split

def touchBindModel (p : Option Reg) : Bool := touchAddReg .prefetchLate p || touchAddReg .switchLlmHits p ||
  touchAddReg .switches p || touchHint p || touchPlace p

theorem keeps_bindModel (hK : Closed T K) (s : State) (b i : Nat) (hs : List Nat) (hT : ∀ p, touchBindModel p = true
    → T p = true) (hks : Has K s) : Has K (State.bindModel s b i hs) := by
  unfold State.bindModel
  try dsimp only
  repeat' first
    | exact fun p hp => hT p (by simp only [touchBindModel, hp, Bool.or_true, Bool.true_or])
    | intro _
    | with_reducible assumption
    | with_reducible exact hks
    | with_reducible apply Has.ite
    | with_reducible apply keeps_addReg
    | with_reducible apply keeps_hint
    | with_reducible apply keeps_place
    | with_reducible apply keeps_setBay
    | with_reducible apply Has.foldl
    | with_reducible apply Has1.foldl
    | with_reducible exact Has1.proj (by with_reducible assumption)
    | with_reducible apply Has1.mk
    | simp only [Has.same hK]
    | dsimp only
    | split

def touchExecModel (p : Option Reg) : Bool := touchBindModel p || touchPerform p

theorem keeps_execModel (hK : Closed T K) (b : Fin 256) (s : State) (hT : ∀ p, touchExecModel p = true → T p = true)
    (hks : Has K s) : HasRes K (execModel b s) := by
  unfold execModel
  try dsimp only
  repeat' first
    | exact fun p hp => hT p (by simp only [touchExecModel, hp, Bool.or_true, Bool.true_or])
    | intro _
    | with_reducible assumption
    | with_reducible exact hks
    | with_reducible apply HasRes.next
    | with_reducible apply HasRes.ite
    | with_reducible apply Has.ite
    | with_reducible apply keeps_bindModel
    | with_reducible apply keeps_perform
    | simp only [Has.same hK]
    | dsimp only
    | split

def touchExecTailwindCopyComplete (p : Option Reg) : Bool := touchPlace p

theorem keeps_execTailwindCopyComplete (hK : Closed T K) (die : Fin 8) (s : State) (hT : ∀ p,
    touchExecTailwindCopyComplete p = true → T p = true) (hks : Has K s) : HasRes K (execTailwindCopyComplete die s)
    := by
  unfold execTailwindCopyComplete
  try dsimp only
  repeat' first
    | exact fun p hp => hT p hp
    | intro _
    | with_reducible assumption
    | with_reducible exact hks
    | with_reducible apply HasRes.next
    | with_reducible apply HasRes.ite
    | with_reducible apply Has.ite
    | with_reducible apply keeps_place
    | simp only [Has.same hK]
    | dsimp only
    | split

def touchPlaceBays (p : Option Reg) : Bool := touchChangeAll .lbayMap p

theorem keeps_placeBays (hK : Closed T K) (s : State) (hT : ∀ p, touchPlaceBays p = true → T p = true) (hks : Has K s)
    : Has K (State.placeBays s) := by
  unfold State.placeBays
  try dsimp only
  repeat' first
    | exact fun p hp => hT p hp
    | intro _
    | with_reducible assumption
    | with_reducible exact hks
    | with_reducible apply Has.ite
    | with_reducible apply keeps_changeAll
    | dsimp only
    | split

end Sys2Proof.Machine
end

