-- ==== Sys2Proof/Laws/KeepsMatrix.lean ====
section
/-! SUPPORT. What the operations of Machine/Matrix.lean keep, and the registers that each may change. -/

namespace Sys2Proof.Machine

variable {T : Option Reg → Bool} {K : State → Prop}

def touchUnder (p : Option Reg) : Bool := touchPutBytes p

theorem keeps_under (hK : Closed T K) (s : State) (l : Load) (hT : ∀ p, touchUnder p = true → T p = true) (hks : Has
    K s) : Has K (State.under s l) := by
  unfold State.under
  try dsimp only
  repeat' first
    | exact fun p hp => hT p hp
    | intro _
    | with_reducible assumption
    | with_reducible exact hks
    | with_reducible apply Has.ite
    | with_reducible apply keeps_putBytes
    | with_reducible apply Has.foldl
    | with_reducible apply Has1.foldl
    | with_reducible exact Has1.proj (by with_reducible assumption)
    | with_reducible apply Has1.mk
    | dsimp only
    | split

def touchArrayReplay (p : Option Reg) : Bool := touchAddReg .residueReplays p || touchParityReplayed p

theorem keeps_arrayReplay (hK : Closed T K) (s : State) (b step : Nat) (hT : ∀ p, touchArrayReplay p = true → T p =
    true) (hks : Has K s) : Has K (State.arrayReplay s b step) := by
  unfold State.arrayReplay
  try dsimp only
  repeat' first
    | exact fun p hp => hT p (by simp only [touchArrayReplay, hp, Bool.or_true, Bool.true_or])
    | intro _
    | with_reducible assumption
    | with_reducible exact hks
    | with_reducible apply Has.ite
    | with_reducible apply keeps_addReg
    | with_reducible apply keeps_parityReplayed
    | dsimp only
    | split

def touchArrayFailed (p : Option Reg) : Bool := touchArrayReplay p || touchParityPersistent p

theorem keeps_arrayFailed (hK : Closed T K) (s : State) (b step : Nat) (hT : ∀ p, touchArrayFailed p = true → T p =
    true) (hks : Has K s) : Has K (State.arrayFailed s b step) := by
  unfold State.arrayFailed
  try dsimp only
  repeat' first
    | exact fun p hp => hT p (by simp only [touchArrayFailed, hp, Bool.or_true, Bool.true_or])
    | intro _
    | with_reducible assumption
    | with_reducible exact hks
    | with_reducible apply Has.ite
    | with_reducible apply keeps_arrayReplay
    | with_reducible apply keeps_parityPersistent
    | with_reducible apply keeps_setBay
    | simp only [Has.same hK]
    | dsimp only
    | split

def touchCompleteMma (p : Option Reg) : Bool := touchRunEntry p

theorem keeps_completeMma (hK : Closed T K) (s : State) (b : Nat) (p : Flight → Bool) (f : Flight) (hT : ∀ p,
    touchCompleteMma p = true → T p = true) (hks : Has K s) : Has K (State.completeMma s b p f) := by
  unfold State.completeMma
  try dsimp only
  repeat' first
    | exact fun p hp => hT p hp
    | intro _
    | with_reducible assumption
    | with_reducible exact hks
    | with_reducible apply Has.ite
    | with_reducible apply keeps_runEntry
    | with_reducible apply keeps_setBay
    | dsimp only
    | split

def touchInterruptMma (p : Option Reg) : Bool := touchSetFlight p || touchWrites p

theorem keeps_interruptMma (hK : Closed T K) (s : State) (b n : Nat) (f : Flight) (hT : ∀ p, touchInterruptMma p =
    true → T p = true) (hks : Has K s) : Has K (State.interruptMma s b n f) := by
  unfold State.interruptMma
  try dsimp only
  repeat' first
    | exact fun p hp => hT p (by simp only [touchInterruptMma, hp, Bool.or_true, Bool.true_or])
    | intro _
    | with_reducible assumption
    | with_reducible exact hks
    | with_reducible apply Has.ite
    | with_reducible apply keeps_setBay
    | with_reducible apply keeps_setFlight
    | with_reducible apply keeps_writes
    | simp only [Has.same hK]
    | dsimp only
    | split

def touchRunMma (p : Option Reg) : Bool := touchArrayFailed p || touchArrayReplay p || touchCompleteMma p ||
  touchInterruptMma p

theorem keeps_runMma (hK : Closed T K) (s : State) (b form : Nat) (check : ArrayCheck) (hT : ∀ p, touchRunMma p =
    true → T p = true) (hks : Has K s) : Has K (State.runMma s b form check) := by
  unfold State.runMma
  try dsimp only
  repeat' first
    | exact fun p hp => hT p (by simp only [touchRunMma, hp, Bool.or_true, Bool.true_or])
    | intro _
    | with_reducible assumption
    | with_reducible exact hks
    | with_reducible apply Has.ite
    | with_reducible apply keeps_arrayFailed
    | with_reducible apply keeps_arrayReplay
    | with_reducible apply keeps_completeMma
    | with_reducible apply keeps_interruptMma
    | dsimp only
    | split

def touchExecMmaFull (p : Option Reg) : Bool := touchRunMma p

theorem keeps_execMmaFull (hK : Closed T K) (b : Fin 256) (check : ArrayCheck) (s : State) (hT : ∀ p, touchExecMmaFull
    p = true → T p = true) (hks : Has K s) : HasRes K (execMmaFull b check s) := by
  unfold execMmaFull
  try dsimp only
  repeat' first
    | exact fun p hp => hT p hp
    | intro _
    | with_reducible assumption
    | with_reducible exact hks
    | with_reducible apply HasRes.next
    | with_reducible apply HasRes.ite
    | with_reducible apply Has.ite
    | with_reducible apply keeps_runMma
    | dsimp only
    | split

def touchExecMmaPartial (p : Option Reg) : Bool := touchRunMma p

theorem keeps_execMmaPartial (hK : Closed T K) (b : Fin 256) (check : ArrayCheck) (s : State) (hT : ∀ p,
    touchExecMmaPartial p = true → T p = true) (hks : Has K s) : HasRes K (execMmaPartial b check s) := by
  unfold execMmaPartial
  try dsimp only
  repeat' first
    | exact fun p hp => hT p hp
    | intro _
    | with_reducible assumption
    | with_reducible exact hks
    | with_reducible apply HasRes.next
    | with_reducible apply HasRes.ite
    | with_reducible apply Has.ite
    | with_reducible apply keeps_runMma
    | dsimp only
    | split

def touchExecMmaCombine (p : Option Reg) : Bool := touchRunMma p

theorem keeps_execMmaCombine (hK : Closed T K) (b : Fin 256) (check : ArrayCheck) (s : State) (hT : ∀ p,
    touchExecMmaCombine p = true → T p = true) (hks : Has K s) : HasRes K (execMmaCombine b check s) := by
  unfold execMmaCombine
  try dsimp only
  repeat' first
    | exact fun p hp => hT p hp
    | intro _
    | with_reducible assumption
    | with_reducible exact hks
    | with_reducible apply HasRes.next
    | with_reducible apply HasRes.ite
    | with_reducible apply Has.ite
    | with_reducible apply keeps_runMma
    | dsimp only
    | split

def touchFinishWriteBack (p : Option Reg) : Bool := touchMergeAll p || touchSetFlight p || touchWrites p

theorem keeps_finishWriteBack (hK : Closed T K) (s : State) (b : Nat) (hT : ∀ p, touchFinishWriteBack p = true → T p
    = true) (hks : Has K s) : Has K (State.finishWriteBack s b) := by
  unfold State.finishWriteBack
  try dsimp only
  repeat' first
    | exact fun p hp => hT p (by simp only [touchFinishWriteBack, hp, Bool.or_true, Bool.true_or])
    | intro _
    | with_reducible assumption
    | with_reducible exact hks
    | with_reducible apply Has.ite
    | with_reducible apply keeps_mergeAll
    | with_reducible apply keeps_setBay
    | with_reducible apply keeps_setFlight
    | with_reducible apply keeps_writes
    | simp only [Has.same hK]
    | with_reducible refine Has1.of_eq ?_ (by assumption)
    | (with_reducible apply Has1.proj; with_reducible apply keeps_mergeAll)
    | dsimp only
    | split

def touchResumeBays (p : Option Reg) : Bool := touchFinishWriteBack p

theorem keeps_resumeBays (hK : Closed T K) (s : State) (ks : List Nat) (moved : Bool) (hT : ∀ p, touchResumeBays p =
    true → T p = true) (hks : Has K s) : Has K (State.resumeBays s ks moved) := by
  unfold State.resumeBays
  try dsimp only
  repeat' first
    | exact fun p hp => hT p hp
    | intro _
    | with_reducible assumption
    | with_reducible exact hks
    | with_reducible apply Has.ite
    | with_reducible apply keeps_finishWriteBack
    | with_reducible apply keeps_setBay
    | with_reducible apply Has.foldl
    | with_reducible apply Has1.foldl
    | with_reducible exact Has1.proj (by with_reducible assumption)
    | with_reducible apply Has1.mk
    | simp only [Has.same hK]
    | dsimp only
    | split

def touchFailBay (p : Option Reg) : Bool := touchChange .baysActive p || touchDegrade p || touchLogError p

theorem keeps_failBay (hK : Closed T K) (s : State) (t : SelfTest) (die phys : Nat) (hT : ∀ p, touchFailBay p = true
    → T p = true) (hks : Has K s) : Has K (State.failBay s t die phys) := by
  unfold State.failBay
  try dsimp only
  repeat' first
    | exact fun p hp => hT p (by simp only [touchFailBay, hp, Bool.or_true, Bool.true_or])
    | intro _
    | with_reducible assumption
    | with_reducible exact hks
    | with_reducible apply Has.ite
    | with_reducible apply keeps_change
    | with_reducible apply keeps_degrade
    | with_reducible apply keeps_endTest
    | with_reducible apply keeps_logError
    | with_reducible apply keeps_setBay
    | with_reducible apply keeps_setTest
    | with_reducible apply Has.foldl
    | with_reducible apply Has1.foldl
    | with_reducible exact Has1.proj (by with_reducible assumption)
    | with_reducible apply Has1.mk
    | simp only [Has.same hK]
    | dsimp only
    | split

def touchUseSpareBay (p : Option Reg) : Bool := touchChange .baySparesLeft p

theorem keeps_useSpareBay (hK : Closed T K) (s : State) (die : Nat) (hT : ∀ p, touchUseSpareBay p = true → T p =
    true) (hks : Has K s) : Has K (State.useSpareBay s die) := by
  unfold State.useSpareBay
  try dsimp only
  repeat' first
    | exact fun p hp => hT p hp
    | intro _
    | with_reducible assumption
    | with_reducible exact hks
    | with_reducible apply Has.ite
    | with_reducible apply keeps_change
    | dsimp only
    | split

def touchExecArrayBistComplete (p : Option Reg) : Bool := touchChange .bayState p || touchFailBay p ||
  touchResumeBays p || touchUseSpareBay p

theorem keeps_execArrayBistComplete (hK : Closed T K) (die : Fin 8) (phys : Fin 34) (pass : Bool) (s : State) (hT :
    ∀ p, touchExecArrayBistComplete p = true → T p = true) (hks : Has K s) : HasRes K (execArrayBistComplete die
    phys pass s) := by
  unfold execArrayBistComplete
  try dsimp only
  repeat' first
    | exact fun p hp => hT p (by simp only [touchExecArrayBistComplete, hp, Bool.or_true, Bool.true_or])
    | intro _
    | with_reducible assumption
    | with_reducible exact hks
    | with_reducible apply HasRes.next
    | with_reducible apply HasRes.ite
    | with_reducible apply Has.ite
    | with_reducible apply keeps_change
    | with_reducible apply keeps_endTest
    | with_reducible apply keeps_failBay
    | with_reducible apply keeps_resumeBays
    | with_reducible apply keeps_useSpareBay
    | dsimp only
    | split

def touchExecBaySpareCopyComplete (p : Option Reg) : Bool := touchChange .bayState p || touchChange .lbayMap p ||
  touchResumeBays p || touchUseSpareBay p

theorem keeps_execBaySpareCopyComplete (hK : Closed T K) (die : Fin 8) (phys : Fin 34) (s : State) (hT : ∀ p,
    touchExecBaySpareCopyComplete p = true → T p = true) (hks : Has K s) : HasRes K (execBaySpareCopyComplete die
    phys s) := by
  unfold execBaySpareCopyComplete
  try dsimp only
  repeat' first
    | exact fun p hp => hT p (by simp only [touchExecBaySpareCopyComplete, hp, Bool.or_true, Bool.true_or])
    | intro _
    | with_reducible assumption
    | with_reducible exact hks
    | with_reducible apply HasRes.next
    | with_reducible apply HasRes.ite
    | with_reducible apply Has.ite
    | with_reducible apply keeps_change
    | with_reducible apply keeps_endTest
    | with_reducible apply keeps_resumeBays
    | with_reducible apply keeps_setBay
    | with_reducible apply keeps_useSpareBay
    | with_reducible apply Has.foldl
    | with_reducible apply Has1.foldl
    | with_reducible exact Has1.proj (by with_reducible assumption)
    | with_reducible apply Has1.mk
    | simp only [Has.same hK]
    | dsimp only
    | split

end Sys2Proof.Machine
end

