-- ==== Sys2Proof/Laws/KeepsVector.lean ====
section
/-! SUPPORT. What the operations of Machine/Vector.lean keep, and the registers that each may change. -/

namespace Sys2Proof.Machine

variable {T : Option Reg → Bool} {K : State → Prop}

def touchAfterChunk (p : Option Reg) : Bool := touchPutBytes p

theorem keeps_afterChunk (hK : Closed T K) (s : State) (d : Operand) (f : Flight) (lo : Nat) (outs : List ElemOut)
    (hT : ∀ p, touchAfterChunk p = true → T p = true) (hks : Has K s) : Has K (State.afterChunk s d f lo outs) := by
  unfold State.afterChunk
  try dsimp only
  repeat' first
    | exact fun p hp => hT p hp
    | intro _
    | with_reducible assumption
    | with_reducible exact hks
    | with_reducible apply Has.ite
    | with_reducible apply keeps_putBytes
    | with_reducible apply Has.foldl
    | with_reducible apply Has1.foldl
    | with_reducible exact Has1.proj (by with_reducible assumption)
    | with_reducible apply Has1.mk
    | dsimp only
    | split

def touchRunVector (p : Option Reg) : Bool := touchRunEntry p

theorem keeps_runVector (hK : Closed T K) (s : State) (b op fn : Nat) (hT : ∀ p, touchRunVector p = true → T p =
    true) (hks : Has K s) : Has K (State.runVector s b op fn) := by
  unfold State.runVector
  try dsimp only
  repeat' first
    | exact fun p hp => hT p hp
    | intro _
    | with_reducible assumption
    | with_reducible exact hks
    | with_reducible apply Has.ite
    | with_reducible apply keeps_draw
    | with_reducible apply keeps_runEntry
    | with_reducible refine Has2.of_eq ?_ (by assumption)
    | (with_reducible apply Has2.proj; with_reducible apply keeps_draw)
    | dsimp only
    | split

def touchExecVopCopy (p : Option Reg) : Bool := touchRunVector p

theorem keeps_execVopCopy (hK : Closed T K) (b : Fin 256) (s : State) (hT : ∀ p, touchExecVopCopy p = true → T p =
    true) (hks : Has K s) : HasRes K (execVopCopy b s) := by
  unfold execVopCopy
  try dsimp only
  repeat' first
    | exact fun p hp => hT p hp
    | intro _
    | with_reducible assumption
    | with_reducible exact hks
    | with_reducible apply HasRes.next
    | with_reducible apply HasRes.ite
    | with_reducible apply Has.ite
    | with_reducible apply keeps_runVector
    | dsimp only
    | split

def touchExecVopAdd (p : Option Reg) : Bool := touchRunVector p

theorem keeps_execVopAdd (hK : Closed T K) (b : Fin 256) (s : State) (hT : ∀ p, touchExecVopAdd p = true → T p = true)
    (hks : Has K s) : HasRes K (execVopAdd b s) := by
  unfold execVopAdd
  try dsimp only
  repeat' first
    | exact fun p hp => hT p hp
    | intro _
    | with_reducible assumption
    | with_reducible exact hks
    | with_reducible apply HasRes.next
    | with_reducible apply HasRes.ite
    | with_reducible apply Has.ite
    | with_reducible apply keeps_runVector
    | dsimp only
    | split

def touchExecVopSub (p : Option Reg) : Bool := touchRunVector p

theorem keeps_execVopSub (hK : Closed T K) (b : Fin 256) (s : State) (hT : ∀ p, touchExecVopSub p = true → T p = true)
    (hks : Has K s) : HasRes K (execVopSub b s) := by
  unfold execVopSub
  try dsimp only
  repeat' first
    | exact fun p hp => hT p hp
    | intro _
    | with_reducible assumption
    | with_reducible exact hks
    | with_reducible apply HasRes.next
    | with_reducible apply HasRes.ite
    | with_reducible apply Has.ite
    | with_reducible apply keeps_runVector
    | dsimp only
    | split

def touchExecVopMul (p : Option Reg) : Bool := touchRunVector p

theorem keeps_execVopMul (hK : Closed T K) (b : Fin 256) (s : State) (hT : ∀ p, touchExecVopMul p = true → T p = true)
    (hks : Has K s) : HasRes K (execVopMul b s) := by
  unfold execVopMul
  try dsimp only
  repeat' first
    | exact fun p hp => hT p hp
    | intro _
    | with_reducible assumption
    | with_reducible exact hks
    | with_reducible apply HasRes.next
    | with_reducible apply HasRes.ite
    | with_reducible apply Has.ite
    | with_reducible apply keeps_runVector
    | dsimp only
    | split

def touchExecVopFma (p : Option Reg) : Bool := touchRunVector p

theorem keeps_execVopFma (hK : Closed T K) (b : Fin 256) (s : State) (hT : ∀ p, touchExecVopFma p = true → T p = true)
    (hks : Has K s) : HasRes K (execVopFma b s) := by
  unfold execVopFma
  try dsimp only
  repeat' first
    | exact fun p hp => hT p hp
    | intro _
    | with_reducible assumption
    | with_reducible exact hks
    | with_reducible apply HasRes.next
    | with_reducible apply HasRes.ite
    | with_reducible apply Has.ite
    | with_reducible apply keeps_runVector
    | dsimp only
    | split

def touchExecVopDiv (p : Option Reg) : Bool := touchRunVector p

theorem keeps_execVopDiv (hK : Closed T K) (b : Fin 256) (s : State) (hT : ∀ p, touchExecVopDiv p = true → T p = true)
    (hks : Has K s) : HasRes K (execVopDiv b s) := by
  unfold execVopDiv
  try dsimp only
  repeat' first
    | exact fun p hp => hT p hp
    | intro _
    | with_reducible assumption
    | with_reducible exact hks
    | with_reducible apply HasRes.next
    | with_reducible apply HasRes.ite
    | with_reducible apply Has.ite
    | with_reducible apply keeps_runVector
    | dsimp only
    | split

def touchExecVopSqrt (p : Option Reg) : Bool := touchRunVector p

theorem keeps_execVopSqrt (hK : Closed T K) (b : Fin 256) (s : State) (hT : ∀ p, touchExecVopSqrt p = true → T p =
    true) (hks : Has K s) : HasRes K (execVopSqrt b s) := by
  unfold execVopSqrt
  try dsimp only
  repeat' first
    | exact fun p hp => hT p hp
    | intro _
    | with_reducible assumption
    | with_reducible exact hks
    | with_reducible apply HasRes.next
    | with_reducible apply HasRes.ite
    | with_reducible apply Has.ite
    | with_reducible apply keeps_runVector
    | dsimp only
    | split

def touchExecVopMin (p : Option Reg) : Bool := touchRunVector p

theorem keeps_execVopMin (hK : Closed T K) (b : Fin 256) (s : State) (hT : ∀ p, touchExecVopMin p = true → T p = true)
    (hks : Has K s) : HasRes K (execVopMin b s) := by
  unfold execVopMin
  try dsimp only
  repeat' first
    | exact fun p hp => hT p hp
    | intro _
    | with_reducible assumption
    | with_reducible exact hks
    | with_reducible apply HasRes.next
    | with_reducible apply HasRes.ite
    | with_reducible apply Has.ite
    | with_reducible apply keeps_runVector
    | dsimp only
    | split

def touchExecVopMax (p : Option Reg) : Bool := touchRunVector p

theorem keeps_execVopMax (hK : Closed T K) (b : Fin 256) (s : State) (hT : ∀ p, touchExecVopMax p = true → T p = true)
    (hks : Has K s) : HasRes K (execVopMax b s) := by
  unfold execVopMax
  try dsimp only
  repeat' first
    | exact fun p hp => hT p hp
    | intro _
    | with_reducible assumption
    | with_reducible exact hks
    | with_reducible apply HasRes.next
    | with_reducible apply HasRes.ite
    | with_reducible apply Has.ite
    | with_reducible apply keeps_runVector
    | dsimp only
    | split

def touchExecVopAbs (p : Option Reg) : Bool := touchRunVector p

theorem keeps_execVopAbs (hK : Closed T K) (b : Fin 256) (s : State) (hT : ∀ p, touchExecVopAbs p = true → T p = true)
    (hks : Has K s) : HasRes K (execVopAbs b s) := by
  unfold execVopAbs
  try dsimp only
  repeat' first
    | exact fun p hp => hT p hp
    | intro _
    | with_reducible assumption
    | with_reducible exact hks
    | with_reducible apply HasRes.next
    | with_reducible apply HasRes.ite
    | with_reducible apply Has.ite
    | with_reducible apply keeps_runVector
    | dsimp only
    | split

def touchExecVopNeg (p : Option Reg) : Bool := touchRunVector p

theorem keeps_execVopNeg (hK : Closed T K) (b : Fin 256) (s : State) (hT : ∀ p, touchExecVopNeg p = true → T p = true)
    (hks : Has K s) : HasRes K (execVopNeg b s) := by
  unfold execVopNeg
  try dsimp only
  repeat' first
    | exact fun p hp => hT p hp
    | intro _
    | with_reducible assumption
    | with_reducible exact hks
    | with_reducible apply HasRes.next
    | with_reducible apply HasRes.ite
    | with_reducible apply Has.ite
    | with_reducible apply keeps_runVector
    | dsimp only
    | split

def touchExecVopScale (p : Option Reg) : Bool := touchRunVector p

theorem keeps_execVopScale (hK : Closed T K) (b : Fin 256) (s : State) (hT : ∀ p, touchExecVopScale p = true → T p =
    true) (hks : Has K s) : HasRes K (execVopScale b s) := by
  unfold execVopScale
  try dsimp only
  repeat' first
    | exact fun p hp => hT p hp
    | intro _
    | with_reducible assumption
    | with_reducible exact hks
    | with_reducible apply HasRes.next
    | with_reducible apply HasRes.ite
    | with_reducible apply Has.ite
    | with_reducible apply keeps_runVector
    | dsimp only
    | split

def touchExecVopSel (p : Option Reg) : Bool := touchRunVector p

theorem keeps_execVopSel (hK : Closed T K) (b : Fin 256) (s : State) (hT : ∀ p, touchExecVopSel p = true → T p = true)
    (hks : Has K s) : HasRes K (execVopSel b s) := by
  unfold execVopSel
  try dsimp only
  repeat' first
    | exact fun p hp => hT p hp
    | intro _
    | with_reducible assumption
    | with_reducible exact hks
    | with_reducible apply HasRes.next
    | with_reducible apply HasRes.ite
    | with_reducible apply Has.ite
    | with_reducible apply keeps_runVector
    | dsimp only
    | split

def touchExecVopShiftc (p : Option Reg) : Bool := touchRunVector p

theorem keeps_execVopShiftc (hK : Closed T K) (b : Fin 256) (s : State) (hT : ∀ p, touchExecVopShiftc p = true → T p =
    true) (hks : Has K s) : HasRes K (execVopShiftc b s) := by
  unfold execVopShiftc
  try dsimp only
  repeat' first
    | exact fun p hp => hT p hp
    | intro _
    | with_reducible assumption
    | with_reducible exact hks
    | with_reducible apply HasRes.next
    | with_reducible apply HasRes.ite
    | with_reducible apply Has.ite
    | with_reducible apply keeps_runVector
    | dsimp only
    | split

def touchExecVopRelu (p : Option Reg) : Bool := touchRunVector p

theorem keeps_execVopRelu (hK : Closed T K) (b : Fin 256) (s : State) (hT : ∀ p, touchExecVopRelu p = true → T p =
    true) (hks : Has K s) : HasRes K (execVopRelu b s) := by
  unfold execVopRelu
  try dsimp only
  repeat' first
    | exact fun p hp => hT p hp
    | intro _
    | with_reducible assumption
    | with_reducible exact hks
    | with_reducible apply HasRes.next
    | with_reducible apply HasRes.ite
    | with_reducible apply Has.ite
    | with_reducible apply keeps_runVector
    | dsimp only
    | split

def touchExecVopCmpeq (p : Option Reg) : Bool := touchRunVector p

theorem keeps_execVopCmpeq (hK : Closed T K) (b : Fin 256) (s : State) (hT : ∀ p, touchExecVopCmpeq p = true → T p =
    true) (hks : Has K s) : HasRes K (execVopCmpeq b s) := by
  unfold execVopCmpeq
  try dsimp only
  repeat' first
    | exact fun p hp => hT p hp
    | intro _
    | with_reducible assumption
    | with_reducible exact hks
    | with_reducible apply HasRes.next
    | with_reducible apply HasRes.ite
    | with_reducible apply Has.ite
    | with_reducible apply keeps_runVector
    | dsimp only
    | split

def touchExecVopCmplt (p : Option Reg) : Bool := touchRunVector p

theorem keeps_execVopCmplt (hK : Closed T K) (b : Fin 256) (s : State) (hT : ∀ p, touchExecVopCmplt p = true → T p =
    true) (hks : Has K s) : HasRes K (execVopCmplt b s) := by
  unfold execVopCmplt
  try dsimp only
  repeat' first
    | exact fun p hp => hT p hp
    | intro _
    | with_reducible assumption
    | with_reducible exact hks
    | with_reducible apply HasRes.next
    | with_reducible apply HasRes.ite
    | with_reducible apply Has.ite
    | with_reducible apply keeps_runVector
    | dsimp only
    | split

def touchExecVopCmple (p : Option Reg) : Bool := touchRunVector p

theorem keeps_execVopCmple (hK : Closed T K) (b : Fin 256) (s : State) (hT : ∀ p, touchExecVopCmple p = true → T p =
    true) (hks : Has K s) : HasRes K (execVopCmple b s) := by
  unfold execVopCmple
  try dsimp only
  repeat' first
    | exact fun p hp => hT p hp
    | intro _
    | with_reducible assumption
    | with_reducible exact hks
    | with_reducible apply HasRes.next
    | with_reducible apply HasRes.ite
    | with_reducible apply Has.ite
    | with_reducible apply keeps_runVector
    | dsimp only
    | split

def touchExecVopCmpne (p : Option Reg) : Bool := touchRunVector p

theorem keeps_execVopCmpne (hK : Closed T K) (b : Fin 256) (s : State) (hT : ∀ p, touchExecVopCmpne p = true → T p =
    true) (hks : Has K s) : HasRes K (execVopCmpne b s) := by
  unfold execVopCmpne
  try dsimp only
  repeat' first
    | exact fun p hp => hT p hp
    | intro _
    | with_reducible assumption
    | with_reducible exact hks
    | with_reducible apply HasRes.next
    | with_reducible apply HasRes.ite
    | with_reducible apply Has.ite
    | with_reducible apply keeps_runVector
    | dsimp only
    | split

def touchExecVopPand (p : Option Reg) : Bool := touchRunVector p

theorem keeps_execVopPand (hK : Closed T K) (b : Fin 256) (s : State) (hT : ∀ p, touchExecVopPand p = true → T p =
    true) (hks : Has K s) : HasRes K (execVopPand b s) := by
  unfold execVopPand
  try dsimp only
  repeat' first
    | exact fun p hp => hT p hp
    | intro _
    | with_reducible assumption
    | with_reducible exact hks
    | with_reducible apply HasRes.next
    | with_reducible apply HasRes.ite
    | with_reducible apply Has.ite
    | with_reducible apply keeps_runVector
    | dsimp only
    | split

def touchExecVopPor (p : Option Reg) : Bool := touchRunVector p

theorem keeps_execVopPor (hK : Closed T K) (b : Fin 256) (s : State) (hT : ∀ p, touchExecVopPor p = true → T p = true)
    (hks : Has K s) : HasRes K (execVopPor b s) := by
  unfold execVopPor
  try dsimp only
  repeat' first
    | exact fun p hp => hT p hp
    | intro _
    | with_reducible assumption
    | with_reducible exact hks
    | with_reducible apply HasRes.next
    | with_reducible apply HasRes.ite
    | with_reducible apply Has.ite
    | with_reducible apply keeps_runVector
    | dsimp only
    | split

def touchExecVopPxor (p : Option Reg) : Bool := touchRunVector p

theorem keeps_execVopPxor (hK : Closed T K) (b : Fin 256) (s : State) (hT : ∀ p, touchExecVopPxor p = true → T p =
    true) (hks : Has K s) : HasRes K (execVopPxor b s) := by
  unfold execVopPxor
  try dsimp only
  repeat' first
    | exact fun p hp => hT p hp
    | intro _
    | with_reducible assumption
    | with_reducible exact hks
    | with_reducible apply HasRes.next
    | with_reducible apply HasRes.ite
    | with_reducible apply Has.ite
    | with_reducible apply keeps_runVector
    | dsimp only
    | split

def touchExecVopPnot (p : Option Reg) : Bool := touchRunVector p

theorem keeps_execVopPnot (hK : Closed T K) (b : Fin 256) (s : State) (hT : ∀ p, touchExecVopPnot p = true → T p =
    true) (hks : Has K s) : HasRes K (execVopPnot b s) := by
  unfold execVopPnot
  try dsimp only
  repeat' first
    | exact fun p hp => hT p hp
    | intro _
    | with_reducible assumption
    | with_reducible exact hks
    | with_reducible apply HasRes.next
    | with_reducible apply HasRes.ite
    | with_reducible apply Has.ite
    | with_reducible apply keeps_runVector
    | dsimp only
    | split

def touchExecVopPset (p : Option Reg) : Bool := touchRunVector p

theorem keeps_execVopPset (hK : Closed T K) (b : Fin 256) (s : State) (hT : ∀ p, touchExecVopPset p = true → T p =
    true) (hks : Has K s) : HasRes K (execVopPset b s) := by
  unfold execVopPset
  try dsimp only
  repeat' first
    | exact fun p hp => hT p hp
    | intro _
    | with_reducible assumption
    | with_reducible exact hks
    | with_reducible apply HasRes.next
    | with_reducible apply HasRes.ite
    | with_reducible apply Has.ite
    | with_reducible apply keeps_runVector
    | dsimp only
    | split

def touchExecVopExp (p : Option Reg) : Bool := touchRunVector p

theorem keeps_execVopExp (hK : Closed T K) (b : Fin 256) (s : State) (hT : ∀ p, touchExecVopExp p = true → T p = true)
    (hks : Has K s) : HasRes K (execVopExp b s) := by
  unfold execVopExp
  try dsimp only
  repeat' first
    | exact fun p hp => hT p hp
    | intro _
    | with_reducible assumption
    | with_reducible exact hks
    | with_reducible apply HasRes.next
    | with_reducible apply HasRes.ite
    | with_reducible apply Has.ite
    | with_reducible apply keeps_runVector
    | dsimp only
    | split

def touchExecVopLog (p : Option Reg) : Bool := touchRunVector p

theorem keeps_execVopLog (hK : Closed T K) (b : Fin 256) (s : State) (hT : ∀ p, touchExecVopLog p = true → T p = true)
    (hks : Has K s) : HasRes K (execVopLog b s) := by
  unfold execVopLog
  try dsimp only
  repeat' first
    | exact fun p hp => hT p hp
    | intro _
    | with_reducible assumption
    | with_reducible exact hks
    | with_reducible apply HasRes.next
    | with_reducible apply HasRes.ite
    | with_reducible apply Has.ite
    | with_reducible apply keeps_runVector
    | dsimp only
    | split

def touchExecVopTanh (p : Option Reg) : Bool := touchRunVector p

theorem keeps_execVopTanh (hK : Closed T K) (b : Fin 256) (s : State) (hT : ∀ p, touchExecVopTanh p = true → T p =
    true) (hks : Has K s) : HasRes K (execVopTanh b s) := by
  unfold execVopTanh
  try dsimp only
  repeat' first
    | exact fun p hp => hT p hp
    | intro _
    | with_reducible assumption
    | with_reducible exact hks
    | with_reducible apply HasRes.next
    | with_reducible apply HasRes.ite
    | with_reducible apply Has.ite
    | with_reducible apply keeps_runVector
    | dsimp only
    | split

def touchExecVopSigm (p : Option Reg) : Bool := touchRunVector p

theorem keeps_execVopSigm (hK : Closed T K) (b : Fin 256) (s : State) (hT : ∀ p, touchExecVopSigm p = true → T p =
    true) (hks : Has K s) : HasRes K (execVopSigm b s) := by
  unfold execVopSigm
  try dsimp only
  repeat' first
    | exact fun p hp => hT p hp
    | intro _
    | with_reducible assumption
    | with_reducible exact hks
    | with_reducible apply HasRes.next
    | with_reducible apply HasRes.ite
    | with_reducible apply Has.ite
    | with_reducible apply keeps_runVector
    | dsimp only
    | split

def touchExecVopSilu (p : Option Reg) : Bool := touchRunVector p

theorem keeps_execVopSilu (hK : Closed T K) (b : Fin 256) (s : State) (hT : ∀ p, touchExecVopSilu p = true → T p =
    true) (hks : Has K s) : HasRes K (execVopSilu b s) := by
  unfold execVopSilu
  try dsimp only
  repeat' first
    | exact fun p hp => hT p hp
    | intro _
    | with_reducible assumption
    | with_reducible exact hks
    | with_reducible apply HasRes.next
    | with_reducible apply HasRes.ite
    | with_reducible apply Has.ite
    | with_reducible apply keeps_runVector
    | dsimp only
    | split

def touchExecVopGelu (p : Option Reg) : Bool := touchRunVector p

theorem keeps_execVopGelu (hK : Closed T K) (b : Fin 256) (s : State) (hT : ∀ p, touchExecVopGelu p = true → T p =
    true) (hks : Has K s) : HasRes K (execVopGelu b s) := by
  unfold execVopGelu
  try dsimp only
  repeat' first
    | exact fun p hp => hT p hp
    | intro _
    | with_reducible assumption
    | with_reducible exact hks
    | with_reducible apply HasRes.next
    | with_reducible apply HasRes.ite
    | with_reducible apply Has.ite
    | with_reducible apply keeps_runVector
    | dsimp only
    | split

def touchExecVredSum (p : Option Reg) : Bool := touchRunVector p

theorem keeps_execVredSum (hK : Closed T K) (b : Fin 256) (s : State) (hT : ∀ p, touchExecVredSum p = true → T p =
    true) (hks : Has K s) : HasRes K (execVredSum b s) := by
  unfold execVredSum
  try dsimp only
  repeat' first
    | exact fun p hp => hT p hp
    | intro _
    | with_reducible assumption
    | with_reducible exact hks
    | with_reducible apply HasRes.next
    | with_reducible apply HasRes.ite
    | with_reducible apply Has.ite
    | with_reducible apply keeps_runVector
    | dsimp only
    | split

def touchExecVredSumsq (p : Option Reg) : Bool := touchRunVector p

theorem keeps_execVredSumsq (hK : Closed T K) (b : Fin 256) (s : State) (hT : ∀ p, touchExecVredSumsq p = true → T p =
    true) (hks : Has K s) : HasRes K (execVredSumsq b s) := by
  unfold execVredSumsq
  try dsimp only
  repeat' first
    | exact fun p hp => hT p hp
    | intro _
    | with_reducible assumption
    | with_reducible exact hks
    | with_reducible apply HasRes.next
    | with_reducible apply HasRes.ite
    | with_reducible apply Has.ite
    | with_reducible apply keeps_runVector
    | dsimp only
    | split

def touchExecVredDot (p : Option Reg) : Bool := touchRunVector p

theorem keeps_execVredDot (hK : Closed T K) (b : Fin 256) (s : State) (hT : ∀ p, touchExecVredDot p = true → T p =
    true) (hks : Has K s) : HasRes K (execVredDot b s) := by
  unfold execVredDot
  try dsimp only
  repeat' first
    | exact fun p hp => hT p hp
    | intro _
    | with_reducible assumption
    | with_reducible exact hks
    | with_reducible apply HasRes.next
    | with_reducible apply HasRes.ite
    | with_reducible apply Has.ite
    | with_reducible apply keeps_runVector
    | dsimp only
    | split

def touchExecVredMax (p : Option Reg) : Bool := touchRunVector p

theorem keeps_execVredMax (hK : Closed T K) (b : Fin 256) (s : State) (hT : ∀ p, touchExecVredMax p = true → T p =
    true) (hks : Has K s) : HasRes K (execVredMax b s) := by
  unfold execVredMax
  try dsimp only
  repeat' first
    | exact fun p hp => hT p hp
    | intro _
    | with_reducible assumption
    | with_reducible exact hks
    | with_reducible apply HasRes.next
    | with_reducible apply HasRes.ite
    | with_reducible apply Has.ite
    | with_reducible apply keeps_runVector
    | dsimp only
    | split

def touchExecVredMin (p : Option Reg) : Bool := touchRunVector p

theorem keeps_execVredMin (hK : Closed T K) (b : Fin 256) (s : State) (hT : ∀ p, touchExecVredMin p = true → T p =
    true) (hks : Has K s) : HasRes K (execVredMin b s) := by
  unfold execVredMin
  try dsimp only
  repeat' first
    | exact fun p hp => hT p hp
    | intro _
    | with_reducible assumption
    | with_reducible exact hks
    | with_reducible apply HasRes.next
    | with_reducible apply HasRes.ite
    | with_reducible apply Has.ite
    | with_reducible apply keeps_runVector
    | dsimp only
    | split

def touchExecVredMaxabs (p : Option Reg) : Bool := touchRunVector p

theorem keeps_execVredMaxabs (hK : Closed T K) (b : Fin 256) (s : State) (hT : ∀ p, touchExecVredMaxabs p = true → T p
    = true) (hks : Has K s) : HasRes K (execVredMaxabs b s) := by
  unfold execVredMaxabs
  try dsimp only
  repeat' first
    | exact fun p hp => hT p hp
    | intro _
    | with_reducible assumption
    | with_reducible exact hks
    | with_reducible apply HasRes.next
    | with_reducible apply HasRes.ite
    | with_reducible apply Has.ite
    | with_reducible apply keeps_runVector
    | dsimp only
    | split

def touchExecVredArgmax (p : Option Reg) : Bool := touchRunVector p

theorem keeps_execVredArgmax (hK : Closed T K) (b : Fin 256) (s : State) (hT : ∀ p, touchExecVredArgmax p = true → T p
    = true) (hks : Has K s) : HasRes K (execVredArgmax b s) := by
  unfold execVredArgmax
  try dsimp only
  repeat' first
    | exact fun p hp => hT p hp
    | intro _
    | with_reducible assumption
    | with_reducible exact hks
    | with_reducible apply HasRes.next
    | with_reducible apply HasRes.ite
    | with_reducible apply Has.ite
    | with_reducible apply keeps_runVector
    | dsimp only
    | split

def touchExecVredCountnz (p : Option Reg) : Bool := touchRunVector p

theorem keeps_execVredCountnz (hK : Closed T K) (b : Fin 256) (s : State) (hT : ∀ p, touchExecVredCountnz p = true → T
    p = true) (hks : Has K s) : HasRes K (execVredCountnz b s) := by
  unfold execVredCountnz
  try dsimp only
  repeat' first
    | exact fun p hp => hT p hp
    | intro _
    | with_reducible assumption
    | with_reducible exact hks
    | with_reducible apply HasRes.next
    | with_reducible apply HasRes.ite
    | with_reducible apply Has.ite
    | with_reducible apply keeps_runVector
    | dsimp only
    | split

end Sys2Proof.Machine
end

