-- ==== Sys2Proof/Laws/KeepsCoupler.lean ====
section
/-! SUPPORT. What the operations of Machine/Coupler.lean keep, and the registers that each may change. -/

namespace Sys2Proof.Machine

variable {T : Option Reg → Bool} {K : State → Prop}

def touchNoteQueues (p : Option Reg) : Bool := touchSetReg .couplerQueueMax p

theorem keeps_noteQueues (hK : Closed T K) (s : State) (hT : ∀ p, touchNoteQueues p = true → T p = true) (hks : Has K
    s) : Has K (State.noteQueues s) := by
  unfold State.noteQueues
  try dsimp only
  repeat' first
    | exact fun p hp => hT p hp
    | intro _
    | with_reducible assumption
    | with_reducible exact hks
    | with_reducible apply Has.ite
    | with_reducible apply keeps_setReg
    | with_reducible apply Has.foldl
    | with_reducible apply Has1.foldl
    | with_reducible exact Has1.proj (by with_reducible assumption)
    | with_reducible apply Has1.mk
    | dsimp only
    | split

def touchCountHandover (p : Option Reg) : Bool := touchAddReg .transRemoteBlocks p

theorem keeps_countHandover (hK : Closed T K) (t s : State) (hT : ∀ p, touchCountHandover p = true → T p = true)
    (hks : Has K t) : Has K (State.countHandover t s) := by
  unfold State.countHandover
  try dsimp only
  repeat' first
    | exact fun p hp => hT p hp
    | intro _
    | with_reducible assumption
    | with_reducible exact hks
    | with_reducible apply Has.ite
    | with_reducible apply keeps_addReg
    | dsimp only
    | split

def touchStartTrans (p : Option Reg) : Bool := touchAddReg .transCarryMisses p || touchAddReg .transRemoteBlocks p
  || touchNoteQueues p || touchPerform p || touchSetFlight p || touchWrite p || touchWrites p

theorem keeps_startTrans (hK : Closed T K) (s : State) (b : Nat) (f : Flight) (a d : Desc) (hT : ∀ p,
    touchStartTrans p = true → T p = true) (hks : Has K s) : Has K (State.startTrans s b f a d) := by
  unfold State.startTrans
  try dsimp only
  repeat' first
    | exact fun p hp => hT p (by simp only [touchStartTrans, hp, Bool.or_true, Bool.true_or])
    | intro _
    | with_reducible assumption
    | with_reducible exact hks
    | with_reducible apply Has.ite
    | with_reducible apply keeps_addReg
    | with_reducible apply keeps_noteQueues
    | with_reducible apply keeps_perform
    | with_reducible apply keeps_setFlight
    | with_reducible apply keeps_write
    | with_reducible apply keeps_writes
    | with_reducible apply Has.foldl
    | with_reducible apply Has1.foldl
    | with_reducible exact Has1.proj (by with_reducible assumption)
    | with_reducible apply Has1.mk
    | simp only [Has.same hK]
    | dsimp only
    | split

def touchRunTrans (p : Option Reg) : Bool := touchPerform p || touchStartTrans p

theorem keeps_runTrans (hK : Closed T K) (s : State) (b tfn : Nat) (hT : ∀ p, touchRunTrans p = true → T p = true)
    (hks : Has K s) : Has K (State.runTrans s b tfn) := by
  unfold State.runTrans
  try dsimp only
  repeat' first
    | exact fun p hp => hT p (by simp only [touchRunTrans, hp, Bool.or_true, Bool.true_or])
    | intro _
    | with_reducible assumption
    | with_reducible exact hks
    | with_reducible apply Has.ite
    | with_reducible apply keeps_perform
    | with_reducible apply keeps_startTrans
    | dsimp only
    | split

def touchExecTransEncode (p : Option Reg) : Bool := touchRunTrans p

theorem keeps_execTransEncode (hK : Closed T K) (b : Fin 256) (s : State) (hT : ∀ p, touchExecTransEncode p = true → T
    p = true) (hks : Has K s) : HasRes K (execTransEncode b s) := by
  unfold execTransEncode
  try dsimp only
  repeat' first
    | exact fun p hp => hT p hp
    | intro _
    | with_reducible assumption
    | with_reducible exact hks
    | with_reducible apply HasRes.next
    | with_reducible apply HasRes.ite
    | with_reducible apply Has.ite
    | with_reducible apply keeps_runTrans
    | dsimp only
    | split

def touchExecTransDecode (p : Option Reg) : Bool := touchRunTrans p

theorem keeps_execTransDecode (hK : Closed T K) (b : Fin 256) (s : State) (hT : ∀ p, touchExecTransDecode p = true → T
    p = true) (hks : Has K s) : HasRes K (execTransDecode b s) := by
  unfold execTransDecode
  try dsimp only
  repeat' first
    | exact fun p hp => hT p hp
    | intro _
    | with_reducible assumption
    | with_reducible exact hks
    | with_reducible apply HasRes.next
    | with_reducible apply HasRes.ite
    | with_reducible apply Has.ite
    | with_reducible apply keeps_runTrans
    | dsimp only
    | split

def touchExecTransRecode (p : Option Reg) : Bool := touchRunTrans p

theorem keeps_execTransRecode (hK : Closed T K) (b : Fin 256) (s : State) (hT : ∀ p, touchExecTransRecode p = true → T
    p = true) (hks : Has K s) : HasRes K (execTransRecode b s) := by
  unfold execTransRecode
  try dsimp only
  repeat' first
    | exact fun p hp => hT p hp
    | intro _
    | with_reducible assumption
    | with_reducible exact hks
    | with_reducible apply HasRes.next
    | with_reducible apply HasRes.ite
    | with_reducible apply Has.ite
    | with_reducible apply keeps_runTrans
    | dsimp only
    | split

def touchExecTransConvert (p : Option Reg) : Bool := touchRunTrans p

theorem keeps_execTransConvert (hK : Closed T K) (b : Fin 256) (s : State) (hT : ∀ p, touchExecTransConvert p = true →
    T p = true) (hks : Has K s) : HasRes K (execTransConvert b s) := by
  unfold execTransConvert
  try dsimp only
  repeat' first
    | exact fun p hp => hT p hp
    | intro _
    | with_reducible assumption
    | with_reducible exact hks
    | with_reducible apply HasRes.next
    | with_reducible apply HasRes.ite
    | with_reducible apply Has.ite
    | with_reducible apply keeps_runTrans
    | dsimp only
    | split

def touchExecTransPartComplete (p : Option Reg) : Bool := touchAddReg .transElements p || touchMergeAll p ||
  touchSetFlight p || touchWrite p || touchWriteCoupler p

theorem keeps_execTransPartComplete (hK : Closed T K) (b : Fin 256) (c : Fin 8) (s : State) (hT : ∀ p,
    touchExecTransPartComplete p = true → T p = true) (hks : Has K s) : HasRes K (execTransPartComplete b c s) := by
  unfold execTransPartComplete
  try dsimp only
  repeat' first
    | exact fun p hp => hT p (by simp only [touchExecTransPartComplete, hp, Bool.or_true, Bool.true_or])
    | intro _
    | with_reducible assumption
    | with_reducible exact hks
    | with_reducible apply HasRes.next
    | with_reducible apply HasRes.ite
    | with_reducible apply Has.ite
    | with_reducible apply keeps_addReg
    | with_reducible apply keeps_mergeAll
    | with_reducible apply keeps_setFlight
    | with_reducible apply keeps_write
    | with_reducible apply keeps_writeCoupler
    | with_reducible apply Has.foldl
    | with_reducible apply Has1.foldl
    | with_reducible exact Has1.proj (by with_reducible assumption)
    | with_reducible apply Has1.mk
    | simp only [Has.same hK]
    | with_reducible refine Has1.of_eq ?_ (by assumption)
    | (with_reducible apply Has1.proj; with_reducible apply keeps_mergeAll)
    | dsimp only
    | split

def touchRunHist (p : Option Reg) : Bool := touchRunEntry p

theorem keeps_runHist (hK : Closed T K) (s : State) (b fn : Nat) (plan : State → Flight → Operands → Effect) (hT : ∀
    p, touchRunHist p = true → T p = true) (hks : Has K s) : Has K (State.runHist s b fn plan) := by
  unfold State.runHist
  try dsimp only
  repeat' first
    | exact fun p hp => hT p hp
    | intro _
    | with_reducible assumption
    | with_reducible exact hks
    | with_reducible apply Has.ite
    | with_reducible apply keeps_runEntry
    | dsimp only
    | split

def touchExecHistClear (p : Option Reg) : Bool := touchRunHist p

theorem keeps_execHistClear (hK : Closed T K) (b : Fin 256) (s : State) (hT : ∀ p, touchExecHistClear p = true → T p =
    true) (hks : Has K s) : HasRes K (execHistClear b s) := by
  unfold execHistClear
  try dsimp only
  repeat' first
    | exact fun p hp => hT p hp
    | intro _
    | with_reducible assumption
    | with_reducible exact hks
    | with_reducible apply HasRes.next
    | with_reducible apply HasRes.ite
    | with_reducible apply Has.ite
    | with_reducible apply keeps_runHist
    | simp only [Has.same hK]
    | dsimp only
    | split

def touchExecHistCarry (p : Option Reg) : Bool := touchAddReg .transCarryMisses p || touchRunHist p || touchViewFor
  p

theorem keeps_execHistCarry (hK : Closed T K) (b : Fin 256) (s : State) (hT : ∀ p, touchExecHistCarry p = true → T p
    = true) (hks : Has K s) : HasRes K (execHistCarry b s) := by
  unfold execHistCarry
  try dsimp only
  repeat' first
    | exact fun p hp => hT p (by simp only [touchExecHistCarry, hp, Bool.or_true, Bool.true_or])
    | intro _
    | with_reducible assumption
    | with_reducible exact hks
    | with_reducible apply HasRes.next
    | with_reducible apply HasRes.ite
    | with_reducible apply Has.ite
    | with_reducible apply keeps_addReg
    | with_reducible apply keeps_runHist
    | with_reducible apply keeps_viewFor
    | dsimp only
    | split

def touchExecHistCopy (p : Option Reg) : Bool := touchRunHist p

theorem keeps_execHistCopy (hK : Closed T K) (b : Fin 256) (s : State) (hT : ∀ p, touchExecHistCopy p = true → T p =
    true) (hks : Has K s) : HasRes K (execHistCopy b s) := by
  unfold execHistCopy
  try dsimp only
  repeat' first
    | exact fun p hp => hT p hp
    | intro _
    | with_reducible assumption
    | with_reducible exact hks
    | with_reducible apply HasRes.next
    | with_reducible apply HasRes.ite
    | with_reducible apply Has.ite
    | with_reducible apply keeps_runHist
    | simp only [Has.same hK]
    | dsimp only
    | split

def touchExecHistMerge (p : Option Reg) : Bool := touchRunHist p

theorem keeps_execHistMerge (hK : Closed T K) (b : Fin 256) (s : State) (hT : ∀ p, touchExecHistMerge p = true → T p =
    true) (hks : Has K s) : HasRes K (execHistMerge b s) := by
  unfold execHistMerge
  try dsimp only
  repeat' first
    | exact fun p hp => hT p hp
    | intro _
    | with_reducible assumption
    | with_reducible exact hks
    | with_reducible apply HasRes.next
    | with_reducible apply HasRes.ite
    | with_reducible apply Has.ite
    | with_reducible apply keeps_runHist
    | simp only [Has.same hK]
    | dsimp only
    | split

def touchExecHistScan (p : Option Reg) : Bool := touchRunHist p

theorem keeps_execHistScan (hK : Closed T K) (b : Fin 256) (s : State) (hT : ∀ p, touchExecHistScan p = true → T p =
    true) (hks : Has K s) : HasRes K (execHistScan b s) := by
  unfold execHistScan
  try dsimp only
  repeat' first
    | exact fun p hp => hT p hp
    | intro _
    | with_reducible assumption
    | with_reducible exact hks
    | with_reducible apply HasRes.next
    | with_reducible apply HasRes.ite
    | with_reducible apply Has.ite
    | with_reducible apply keeps_runHist
    | simp only [Has.same hK]
    | dsimp only
    | split

end Sys2Proof.Machine
end

