-- ==== Sys2Proof/Laws/KeepsFabric.lean ====
section
/-! SUPPORT. What the operations of Machine/Fabric.lean keep, and the registers that each may change. -/

namespace Sys2Proof.Machine

variable {T : Option Reg → Bool} {K : State → Prop}

def touchSendOp (_ : Option Reg) : Bool := false

theorem keeps_sendOp (hK : Closed T K) (s : State) (a : Agent) (q cls key : Nat) (ps : List (Nat × Body)) (sig :
    Option (Nat × Nat)) (order : Option RaccOrder) (hks : Has K s) : Has K (State.sendOp s a q cls key ps sig order)
    := by
  unfold State.sendOp
  try dsimp only
  repeat' first
    | intro _
    | with_reducible assumption
    | with_reducible exact hks
    | with_reducible apply Has.ite
    | with_reducible apply keeps_request
    | with_reducible apply Has.foldl
    | with_reducible apply Has1.foldl
    | with_reducible exact Has1.proj (by with_reducible assumption)
    | with_reducible apply Has1.mk
    | dsimp only
    | split

def touchRouteMail (_ : Option Reg) : Bool := false

theorem keeps_routeMail (hK : Closed T K) (s : State) (p : Packet) (hks : Has K s) : HasOpt K (State.routeMail s p)
    := by
  unfold State.routeMail
  try dsimp only
  repeat' first
    | intro _
    | with_reducible assumption
    | with_reducible exact hks
    | with_reducible apply HasOpt.some
    | with_reducible apply HasOpt.none
    | with_reducible apply HasOpt.ite
    | with_reducible apply Has.ite
    | with_reducible apply keeps_emit
    | with_reducible apply keeps_sendOn
    | with_reducible apply HasOpt.map
    | dsimp only
    | split

def touchSendFar (_ : Option Reg) : Bool := false

theorem keeps_sendFar (hK : Closed T K) (s : State) (p : Packet) (hks : Has K s) : Has K (State.sendFar s p) := by
  unfold State.sendFar
  try dsimp only
  repeat' first
    | intro _
    | with_reducible assumption
    | with_reducible exact hks
    | with_reducible apply Has.ite
    | with_reducible apply keeps_emit
    | with_reducible apply keeps_routeMail
    | simp only [Has.same hK]
    | with_reducible refine HasOpt.of_eq ?_ (by assumption)
    | with_reducible apply HasOpt.getD
    | dsimp only
    | split

def touchRetryFar (_ : Option Reg) : Bool := false

theorem keeps_retryFar (hK : Closed T K) (s : State) (hks : Has K s) : Has K (State.retryFar s) := by
  unfold State.retryFar
  try dsimp only
  repeat' first
    | intro _
    | with_reducible assumption
    | with_reducible exact hks
    | with_reducible apply Has.ite
    | with_reducible apply keeps_sendFar
    | with_reducible apply Has.foldl
    | with_reducible apply Has1.foldl
    | with_reducible exact Has1.proj (by with_reducible assumption)
    | with_reducible apply Has1.mk
    | simp only [Has.same hK]
    | dsimp only
    | split

def touchLinksChanged (p : Option Reg) : Bool := touchCheckPartner p || touchCountDetours p

theorem keeps_linksChanged (hK : Closed T K) (s : State) (old : State) (hT : ∀ p, touchLinksChanged p = true → T p =
    true) (hks : Has K s) : Has K (State.linksChanged s old) := by
  unfold State.linksChanged
  try dsimp only
  repeat' first
    | exact fun p hp => hT p (by simp only [touchLinksChanged, hp, Bool.or_true, Bool.true_or])
    | intro _
    | with_reducible assumption
    | with_reducible exact hks
    | with_reducible apply Has.ite
    | with_reducible apply keeps_checkPartner
    | with_reducible apply keeps_countDetours
    | with_reducible apply keeps_resendTo
    | with_reducible apply keeps_retryFar
    | with_reducible apply keeps_sendOn
    | with_reducible apply Has.foldl
    | with_reducible apply Has1.foldl
    | with_reducible exact Has1.proj (by with_reducible assumption)
    | with_reducible apply Has1.mk
    | dsimp only
    | split

def touchSetMail (_ : Option Reg) : Bool := false

theorem keeps_setMail (hK : Closed T K) (s : State) (m new : Mail) (hks : Has K s) : Has K (State.setMail s m new)
    := by
  unfold State.setMail
  try dsimp only
  repeat' first
    | intro _
    | with_reducible assumption
    | with_reducible exact hks
    | with_reducible apply Has.ite
    | simp only [Has.same hK]
    | dsimp only
    | split

def touchPushMail (p : Option Reg) : Bool := touchLogError p

theorem keeps_pushMail (hK : Closed T K) (s : State) (m : Mail) (k : Nat) (hT : ∀ p, touchPushMail p = true → T p =
    true) (hks : Has K s) : Has K (State.pushMail s m k) := by
  unfold State.pushMail
  try dsimp only
  repeat' first
    | exact fun p hp => hT p hp
    | intro _
    | with_reducible assumption
    | with_reducible exact hks
    | with_reducible apply Has.ite
    | with_reducible apply keeps_logError
    | with_reducible apply keeps_routeMail
    | with_reducible apply keeps_setMail
    | with_reducible apply Has.foldl
    | with_reducible apply Has1.foldl
    | with_reducible exact Has1.proj (by with_reducible assumption)
    | with_reducible apply Has1.mk
    | simp only [Has.same hK]
    | with_reducible refine HasOpt.of_eq ?_ (by assumption)
    | with_reducible apply HasOpt.getD
    | dsimp only
    | split

def touchStartMail (p : Option Reg) : Bool := touchPushMail p

theorem keeps_startMail (hK : Closed T K) (s : State) (m : Mail) (hT : ∀ p, touchStartMail p = true → T p = true)
    (hks : Has K s) : Has K (State.startMail s m) := by
  unfold State.startMail
  try dsimp only
  repeat' first
    | exact fun p hp => hT p hp
    | intro _
    | with_reducible assumption
    | with_reducible exact hks
    | with_reducible apply Has.ite
    | with_reducible apply keeps_pushMail
    | with_reducible apply keeps_setMail
    | simp only [Has.same hK]
    | dsimp only
    | split

def touchStartMails (p : Option Reg) : Bool := touchStartMail p

theorem keeps_startMails (hK : Closed T K) (s : State) (hT : ∀ p, touchStartMails p = true → T p = true) (hks : Has
    K s) : Has K (State.startMails s) := by
  unfold State.startMails
  try dsimp only
  repeat' first
    | exact fun p hp => hT p hp
    | intro _
    | with_reducible assumption
    | with_reducible exact hks
    | with_reducible apply Has.ite
    | with_reducible apply keeps_startMail
    | with_reducible apply Has.foldl
    | with_reducible apply Has1.foldl
    | with_reducible exact Has1.proj (by with_reducible assumption)
    | with_reducible apply Has1.mk
    | dsimp only
    | split

def touchPostMail (p : Option Reg) : Bool := touchStartMails p

theorem keeps_postMail (hK : Closed T K) (s : State) (m : Mail) (hT : ∀ p, touchPostMail p = true → T p = true) (hks
    : Has K s) : Has K (State.postMail s m) := by
  unfold State.postMail
  try dsimp only
  repeat' first
    | exact fun p hp => hT p hp
    | intro _
    | with_reducible assumption
    | with_reducible exact hks
    | with_reducible apply Has.ite
    | with_reducible apply keeps_startMails
    | simp only [Has.same hK]
    | dsimp only
    | split

def touchPostedFailure (p : Option Reg) : Bool := touchLogError p || touchSetBay p

theorem keeps_postedFailure (hK : Closed T K) (s : State) (b code lnode : Nat) (hT : ∀ p, touchPostedFailure p = true
    → T p = true) (hks : Has K s) : Has K (State.postedFailure s b code lnode) := by
  unfold State.postedFailure
  try dsimp only
  repeat' first
    | exact fun p hp => hT p (by simp only [touchPostedFailure, hp, Bool.or_true, Bool.true_or])
    | intro _
    | with_reducible assumption
    | with_reducible exact hks
    | with_reducible apply Has.ite
    | with_reducible apply keeps_logError
    | with_reducible apply keeps_setBay
    | simp only [Has.same hK]
    | dsimp only
    | split

end Sys2Proof.Machine
end

