-- ==== Sys2Proof/Laws/KeepsMover.lean ====
section
/-! SUPPORT. What the operations of Machine/Mover.lean keep, and the registers that each may change. -/

namespace Sys2Proof.Machine

variable {T : Option Reg → Bool} {K : State → Prop}

def touchExecXfer (p : Option Reg) : Bool := touchRunEntry p

theorem keeps_execXfer (hK : Closed T K) (b : Fin 256) (s : State) (hT : ∀ p, touchExecXfer p = true → T p = true)
    (hks : Has K s) : HasRes K (execXfer b s) := by
  unfold execXfer
  try dsimp only
  repeat' first
    | exact fun p hp => hT p hp
    | intro _
    | with_reducible assumption
    | with_reducible exact hks
    | with_reducible apply HasRes.next
    | with_reducible apply HasRes.ite
    | with_reducible apply Has.ite
    | with_reducible apply keeps_runEntry
    | dsimp only
    | split

def touchNoteGather (p : Option Reg) : Bool := touchLogError p

theorem keeps_noteGather (hK : Closed T K) (s : State) (b : Nat) (f : Flight) (e : Effect) (hT : ∀ p, touchNoteGather
    p = true → T p = true) (hks : Has K s) : Has K (State.noteGather s b f e) := by
  unfold State.noteGather
  try dsimp only
  repeat' first
    | exact fun p hp => hT p hp
    | intro _
    | with_reducible assumption
    | with_reducible exact hks
    | with_reducible apply Has.ite
    | with_reducible apply keeps_logError
    | simp only [Has.same hK]
    | dsimp only
    | split

def touchFinishGather (p : Option Reg) : Bool := touchNoteGather p || touchPerform p

theorem keeps_finishGather (hK : Closed T K) (s : State) (b : Nat) (f : Flight) (hT : ∀ p, touchFinishGather p =
    true → T p = true) (hks : Has K s) : Has K (State.finishGather s b f) := by
  unfold State.finishGather
  try dsimp only
  repeat' first
    | exact fun p hp => hT p (by simp only [touchFinishGather, hp, Bool.or_true, Bool.true_or])
    | intro _
    | with_reducible assumption
    | with_reducible exact hks
    | with_reducible apply Has.ite
    | with_reducible apply keeps_draw
    | with_reducible apply keeps_noteGather
    | with_reducible apply keeps_perform
    | with_reducible refine Has2.of_eq ?_ (by assumption)
    | (with_reducible apply Has2.proj; with_reducible apply keeps_draw)
    | dsimp only
    | split

def touchExecGath (p : Option Reg) : Bool := touchFinishGather p || touchPerform p || touchRequest p || touchSetFlight
  p

theorem keeps_execGath (hK : Closed T K) (b : Fin 256) (s : State) (hT : ∀ p, touchExecGath p = true → T p = true)
    (hks : Has K s) : HasRes K (execGath b s) := by
  unfold execGath
  try dsimp only
  repeat' first
    | exact fun p hp => hT p (by simp only [touchExecGath, hp, Bool.or_true, Bool.true_or])
    | intro _
    | with_reducible assumption
    | with_reducible exact hks
    | with_reducible apply HasRes.next
    | with_reducible apply HasRes.ite
    | with_reducible apply Has.ite
    | with_reducible apply keeps_finishGather
    | with_reducible apply keeps_perform
    | with_reducible apply keeps_request
    | with_reducible apply keeps_setFlight
    | with_reducible apply Has.foldl
    | with_reducible apply Has1.foldl
    | with_reducible exact Has1.proj (by with_reducible assumption)
    | with_reducible apply Has1.mk
    | simp only [Has.same hK]
    | dsimp only
    | split

def touchFinishScatter (p : Option Reg) : Bool := touchNoteGather p || touchPerform p || touchWrite p

theorem keeps_finishScatter (hK : Closed T K) (s : State) (b : Nat) (f : Flight) (hT : ∀ p, touchFinishScatter p =
    true → T p = true) (hks : Has K s) : Has K (State.finishScatter s b f) := by
  unfold State.finishScatter
  try dsimp only
  repeat' first
    | exact fun p hp => hT p (by simp only [touchFinishScatter, hp, Bool.or_true, Bool.true_or])
    | intro _
    | with_reducible assumption
    | with_reducible exact hks
    | with_reducible apply Has.ite
    | with_reducible apply keeps_draw
    | with_reducible apply keeps_noteGather
    | with_reducible apply keeps_perform
    | with_reducible apply keeps_sendOp
    | with_reducible apply keeps_write
    | with_reducible refine Has2.of_eq ?_ (by assumption)
    | (with_reducible apply Has2.proj; with_reducible apply keeps_draw)
    | dsimp only
    | split

def touchExecScat (p : Option Reg) : Bool := touchFinishScatter p || touchNoteGather p || touchPerform p ||
  touchSetFlight p

theorem keeps_execScat (hK : Closed T K) (b : Fin 256) (s : State) (hT : ∀ p, touchExecScat p = true → T p = true)
    (hks : Has K s) : HasRes K (execScat b s) := by
  unfold execScat
  try dsimp only
  repeat' first
    | exact fun p hp => hT p (by simp only [touchExecScat, hp, Bool.or_true, Bool.true_or])
    | intro _
    | with_reducible assumption
    | with_reducible exact hks
    | with_reducible apply HasRes.next
    | with_reducible apply HasRes.ite
    | with_reducible apply Has.ite
    | with_reducible apply keeps_draw
    | with_reducible apply keeps_finishScatter
    | with_reducible apply keeps_noteGather
    | with_reducible apply keeps_perform
    | with_reducible apply keeps_request
    | with_reducible apply keeps_setFlight
    | with_reducible apply Has.foldl
    | with_reducible apply Has1.foldl
    | with_reducible exact Has1.proj (by with_reducible assumption)
    | with_reducible apply Has1.mk
    | simp only [Has.same hK]
    | with_reducible refine Has2.of_eq ?_ (by assumption)
    | (with_reducible apply Has2.proj; with_reducible apply keeps_draw)
    | dsimp only
    | split

def touchSendBlocks (_ : Option Reg) : Bool := false

theorem keeps_sendBlocks (hK : Closed T K) (s : State) (b : Nat) (f : Flight) (q cls key : Nat) (runs : List (Nat ×
    List Byte)) (sig : Option Desc) (hks : Has K s) : Has K (State.sendBlocks s b f q cls key runs sig) := by
  unfold State.sendBlocks
  try dsimp only
  repeat' first
    | intro _
    | with_reducible assumption
    | with_reducible exact hks
    | with_reducible apply Has.ite
    | with_reducible apply keeps_sendOp
    | dsimp only
    | split

def touchMailRuns (p : Option Reg) : Bool := touchPostMail p

theorem keeps_mailRuns (hK : Closed T K) (s : State) (b serial : Nat) (d : Desc) (cls : Nat) (sig : Option Desc) (rs : List (Nat × List Byte)) (hT : ∀ p, touchMailRuns p = true → T p = true)
    (hks : Has K s) : Has K (State.mailRuns s b serial d cls sig rs) := by
  induction rs generalizing s with
  | nil => exact hks
  | cons r rs ih =>
    unfold State.mailRuns
    try dsimp only
    repeat' first
      | exact fun p hp => hT p hp
      | intro _
      | with_reducible assumption
      | with_reducible exact hks
      | with_reducible apply ih
      | with_reducible apply keeps_postMail
      | simp only [Has.same hK]
      | with_reducible apply Has.ite
      | dsimp only
      | split

def touchExecRstore (p : Option Reg) : Bool := touchMailRuns p || touchPerform p

theorem keeps_execRstore (hK : Closed T K) (b : Fin 256) (s : State) (hT : ∀ p, touchExecRstore p = true → T p =
    true) (hks : Has K s) : HasRes K (execRstore b s) := by
  unfold execRstore
  try dsimp only
  repeat' first
    | exact fun p hp => hT p (by simp only [touchExecRstore, hp, Bool.or_true, Bool.true_or])
    | intro _
    | with_reducible assumption
    | with_reducible exact hks
    | with_reducible apply HasRes.next
    | with_reducible apply HasRes.ite
    | with_reducible apply Has.ite
    | with_reducible apply keeps_mailRuns
    | with_reducible apply keeps_perform
    | with_reducible apply keeps_sendBlocks
    | dsimp only
    | split

def touchRunRacc (p : Option Reg) : Bool := touchPerform p

theorem keeps_runRacc (hK : Closed T K) (s : State) (b : Nat) (relaxed : Bool) (hT : ∀ p, touchRunRacc p = true → T
    p = true) (hks : Has K s) : Has K (State.runRacc s b relaxed) := by
  unfold State.runRacc
  try dsimp only
  repeat' first
    | exact fun p hp => hT p hp
    | intro _
    | with_reducible assumption
    | with_reducible exact hks
    | with_reducible apply Has.ite
    | with_reducible apply keeps_perform
    | with_reducible apply keeps_sendOp
    | simp only [Has.same hK]
    | dsimp only
    | split

def touchExecRaccRelaxed (p : Option Reg) : Bool := touchRunRacc p

theorem keeps_execRaccRelaxed (hK : Closed T K) (b : Fin 256) (s : State) (hT : ∀ p, touchExecRaccRelaxed p = true → T
    p = true) (hks : Has K s) : HasRes K (execRaccRelaxed b s) := by
  unfold execRaccRelaxed
  try dsimp only
  repeat' first
    | exact fun p hp => hT p hp
    | intro _
    | with_reducible assumption
    | with_reducible exact hks
    | with_reducible apply HasRes.next
    | with_reducible apply HasRes.ite
    | with_reducible apply Has.ite
    | with_reducible apply keeps_runRacc
    | dsimp only
    | split

def touchExecRaccOrdered (p : Option Reg) : Bool := touchRunRacc p

theorem keeps_execRaccOrdered (hK : Closed T K) (b : Fin 256) (s : State) (hT : ∀ p, touchExecRaccOrdered p = true → T
    p = true) (hks : Has K s) : HasRes K (execRaccOrdered b s) := by
  unfold execRaccOrdered
  try dsimp only
  repeat' first
    | exact fun p hp => hT p hp
    | intro _
    | with_reducible assumption
    | with_reducible exact hks
    | with_reducible apply HasRes.next
    | with_reducible apply HasRes.ite
    | with_reducible apply Has.ite
    | with_reducible apply keeps_runRacc
    | dsimp only
    | split

def touchExecMcast (p : Option Reg) : Bool := touchPerform p || touchSendBlocks p

theorem keeps_execMcast (hK : Closed T K) (b : Fin 256) (s : State) (hT : ∀ p, touchExecMcast p = true → T p = true)
    (hks : Has K s) : HasRes K (execMcast b s) := by
  unfold execMcast
  try dsimp only
  repeat' first
    | exact fun p hp => hT p (by simp only [touchExecMcast, hp, Bool.or_true, Bool.true_or])
    | intro _
    | with_reducible assumption
    | with_reducible exact hks
    | with_reducible apply HasRes.next
    | with_reducible apply HasRes.ite
    | with_reducible apply Has.ite
    | with_reducible apply keeps_perform
    | with_reducible apply keeps_sendBlocks
    | with_reducible apply Has.foldl
    | with_reducible apply Has1.foldl
    | with_reducible exact Has1.proj (by with_reducible assumption)
    | with_reducible apply Has1.mk
    | simp only [Has.same hK]
    | dsimp only
    | split

end Sys2Proof.Machine
end

