-- ==== Sys2Proof/Laws/KeepsHarts.lean ====
section
/-! SUPPORT. What the operations of Machine/Harts.lean keep, and the registers that each may change. -/

namespace Sys2Proof.Machine

variable {T : Option Reg → Bool} {K : State → Prop}

def touchSetHart (_ : Option Reg) : Bool := false

theorem keeps_setHart (hK : Closed T K) (s : State) (h : Nat) (t : Hart)  (hks : Has K s) : Has K (State.setHart s h
    t) := by
  unfold State.setHart
  try dsimp only
  repeat' first
    | intro _
    | with_reducible assumption
    | with_reducible exact hks
    | with_reducible apply Has.ite
    | simp only [Has.same hK]
    | dsimp only
    | split

def touchPassTurn (p : Option Reg) : Bool := touchSetReg .hartTurn p

theorem keeps_passTurn (hK : Closed T K) (s : State) (core t : Nat) (hT : ∀ p, touchPassTurn p = true → T p = true)
    (hks : Has K s) : Has K (State.passTurn s core t) := by
  unfold State.passTurn
  try dsimp only
  repeat' first
    | exact fun p hp => hT p hp
    | intro _
    | with_reducible assumption
    | with_reducible exact hks
    | with_reducible apply Has.ite
    | with_reducible apply keeps_setReg
    | dsimp only
    | split

def touchFixTurn (p : Option Reg) : Bool := touchPassTurn p

theorem keeps_fixTurn (hK : Closed T K) (s : State) (core : Nat) (hT : ∀ p, touchFixTurn p = true → T p = true) (hks :
    Has K s) : Has K (State.fixTurn s core) := by
  unfold State.fixTurn
  try dsimp only
  repeat' first
    | exact fun p hp => hT p hp
    | intro _
    | with_reducible assumption
    | with_reducible exact hks
    | with_reducible apply Has.ite
    | with_reducible apply keeps_passTurn
    | dsimp only
    | split

def touchLeave (p : Option Reg) : Bool := touchAddReg .threadSwitches p || touchPassTurn p || touchSetHart p

theorem keeps_leave (hK : Closed T K) (s : State) (h : Nat) (hT : ∀ p, touchLeave p = true → T p = true) (hks : Has K
    s) : Has K (State.leave s h) := by
  unfold State.leave
  try dsimp only
  repeat' first
    | exact fun p hp => hT p (by simp only [touchLeave, hp, Bool.or_true, Bool.true_or])
    | intro _
    | with_reducible assumption
    | with_reducible exact hks
    | with_reducible apply Has.ite
    | with_reducible apply keeps_addReg
    | with_reducible apply keeps_passTurn
    | with_reducible apply keeps_setHart
    | simp only [Has.same hK]
    | dsimp only
    | split

def touchPark (p : Option Reg) : Bool := touchLeave p || touchPassTurn p || touchSetHart p || touchSetReg .hartState p

theorem keeps_park (hK : Closed T K) (s : State) (h : Nat) (access : Bool) (w : Await) (hT : ∀ p, touchPark p = true →
    T p = true) (hks : Has K s) : Has K (State.park s h access w) := by
  unfold State.park
  try dsimp only
  repeat' first
    | exact fun p hp => hT p (by simp only [touchPark, hp, Bool.or_true, Bool.true_or])
    | intro _
    | with_reducible assumption
    | with_reducible exact hks
    | with_reducible apply Has.ite
    | with_reducible apply keeps_leave
    | with_reducible apply keeps_passTurn
    | with_reducible apply keeps_setHart
    | with_reducible apply keeps_setReg
    | simp only [Has.same hK]
    | dsimp only
    | split

def touchTrap (p : Option Reg) : Bool := touchSetHart p

theorem keeps_trap (hK : Closed T K) (s : State) (h cause tval : Nat) (hT : ∀ p, touchTrap p = true → T p = true) (hks
    : Has K s) : Has K (State.trap s h cause tval) := by
  unfold State.trap
  try dsimp only
  repeat' first
    | exact fun p hp => hT p hp
    | intro _
    | with_reducible assumption
    | with_reducible exact hks
    | with_reducible apply Has.ite
    | with_reducible apply keeps_setHart
    | dsimp only
    | split

def touchIllegal (p : Option Reg) : Bool := touchTrap p

theorem keeps_illegal (hK : Closed T K) (s : State) (h word : Nat) (hT : ∀ p, touchIllegal p = true → T p = true) (hks
    : Has K s) : Has K (State.illegal s h word) := by
  unfold State.illegal
  try dsimp only
  repeat' first
    | exact fun p hp => hT p hp
    | intro _
    | with_reducible assumption
    | with_reducible exact hks
    | with_reducible apply Has.ite
    | with_reducible apply keeps_trap
    | dsimp only
    | split

def touchRetire (p : Option Reg) : Bool := touchSetHart p

theorem keeps_retire (hK : Closed T K) (s : State) (h len : Nat) (f : Hart → Hart) (hT : ∀ p, touchRetire p = true → T
    p = true) (hks : Has K s) : Has K (State.retire s h len f) := by
  unfold State.retire
  try dsimp only
  repeat' first
    | exact fun p hp => hT p hp
    | intro _
    | with_reducible assumption
    | with_reducible exact hks
    | with_reducible apply Has.ite
    | with_reducible apply keeps_setHart
    | simp only [Has.same hK]
    | dsimp only
    | split

def touchTakeInterrupt (p : Option Reg) : Bool := touchTrap p

theorem keeps_takeInterrupt (hK : Closed T K) (s : State) (h : Nat) (hT : ∀ p, touchTakeInterrupt p = true → T p =
    true) (hks : Has K s) : Has K (State.takeInterrupt s h) := by
  unfold State.takeInterrupt
  try dsimp only
  repeat' first
    | exact fun p hp => hT p hp
    | intro _
    | with_reducible assumption
    | with_reducible exact hks
    | with_reducible apply Has.ite
    | with_reducible apply keeps_trap
    | dsimp only
    | split

def touchWake (p : Option Reg) : Bool := touchFixTurn p || touchSetReg .hartState p || touchTakeInterrupt p

theorem keeps_wake (hK : Closed T K) (s : State) (h : Nat) (hT : ∀ p, touchWake p = true → T p = true) (hks : Has K
    s) : Has K (State.wake s h) := by
  unfold State.wake
  try dsimp only
  repeat' first
    | exact fun p hp => hT p (by simp only [touchWake, hp, Bool.or_true, Bool.true_or])
    | intro _
    | with_reducible assumption
    | with_reducible exact hks
    | with_reducible apply Has.ite
    | with_reducible apply keeps_fixTurn
    | with_reducible apply keeps_setHart
    | with_reducible apply keeps_setReg
    | with_reducible apply keeps_takeInterrupt
    | simp only [Has.same hK]
    | dsimp only
    | split

def touchStopHart (p : Option Reg) : Bool := touchSetReg .hartState p

theorem keeps_stopHart (hK : Closed T K) (s : State) (h : Nat) (hT : ∀ p, touchStopHart p = true → T p = true) (hks
    : Has K s) : Has K (State.stopHart s h) := by
  unfold State.stopHart
  try dsimp only
  repeat' first
    | exact fun p hp => hT p hp
    | intro _
    | with_reducible assumption
    | with_reducible exact hks
    | with_reducible apply Has.ite
    | with_reducible apply keeps_setHart
    | with_reducible apply keeps_setReg
    | simp only [Has.same hK]
    | dsimp only
    | split

def touchResumeCore (p : Option Reg) : Bool := touchFixTurn p || touchTakeInterrupt p

theorem keeps_resumeCore (hK : Closed T K) (s : State) (core : Nat) (hT : ∀ p, touchResumeCore p = true → T p =
    true) (hks : Has K s) : Has K (State.resumeCore s core) := by
  unfold State.resumeCore
  try dsimp only
  repeat' first
    | exact fun p hp => hT p (by simp only [touchResumeCore, hp, Bool.or_true, Bool.true_or])
    | intro _
    | with_reducible assumption
    | with_reducible exact hks
    | with_reducible apply Has.ite
    | with_reducible apply keeps_fixTurn
    | with_reducible apply keeps_takeInterrupt
    | with_reducible apply Has.foldl
    | with_reducible apply Has1.foldl
    | with_reducible exact Has1.proj (by with_reducible assumption)
    | with_reducible apply Has1.mk
    | dsimp only
    | split

def touchStopHarts (p : Option Reg) : Bool := touchSetReg .lullHeld p || touchStopHart p

theorem keeps_stopHarts (hK : Closed T K) (s : State) (hT : ∀ p, touchStopHarts p = true → T p = true) (hks : Has K
    s) : Has K (State.stopHarts s) := by
  unfold State.stopHarts
  try dsimp only
  repeat' first
    | exact fun p hp => hT p (by simp only [touchStopHarts, hp, Bool.or_true, Bool.true_or])
    | intro _
    | with_reducible assumption
    | with_reducible exact hks
    | with_reducible apply Has.ite
    | with_reducible apply keeps_setReg
    | with_reducible apply keeps_stopHart
    | with_reducible apply Has.foldl
    | with_reducible apply Has1.foldl
    | with_reducible exact Has1.proj (by with_reducible assumption)
    | with_reducible apply Has1.mk
    | dsimp only
    | split

def touchReleaseHarts (p : Option Reg) : Bool := touchFixTurn p || touchSetReg .lullHeld p || touchSetReg .hartState p
  || touchTakeInterrupt p

theorem keeps_releaseHarts (hK : Closed T K) (s : State) (hT : ∀ p, touchReleaseHarts p = true → T p = true) (hks :
    Has K s) : Has K (State.releaseHarts s) := by
  unfold State.releaseHarts
  try dsimp only
  repeat' first
    | exact fun p hp => hT p (by simp only [touchReleaseHarts, hp, Bool.or_true, Bool.true_or])
    | intro _
    | with_reducible assumption
    | with_reducible exact hks
    | with_reducible apply Has.ite
    | with_reducible apply keeps_fixTurn
    | with_reducible apply keeps_setReg
    | with_reducible apply keeps_takeInterrupt
    | with_reducible apply Has.foldl
    | with_reducible apply Has1.foldl
    | with_reducible exact Has1.proj (by with_reducible assumption)
    | with_reducible apply Has1.mk
    | dsimp only
    | split

def touchStartHart (p : Option Reg) : Bool := touchSetReg .hartState p

theorem keeps_startHart (hK : Closed T K) (s : State) (h : Nat) (a2 : Option Nat) (hT : ∀ p, touchStartHart p = true
    → T p = true) (hks : Has K s) : Has K (State.startHart s h a2) := by
  unfold State.startHart
  try dsimp only
  repeat' first
    | exact fun p hp => hT p hp
    | intro _
    | with_reducible assumption
    | with_reducible exact hks
    | with_reducible apply Has.ite
    | with_reducible apply keeps_setHart
    | with_reducible apply keeps_setReg
    | simp only [Has.same hK]
    | dsimp only
    | split

def touchStartHarts (p : Option Reg) : Bool := touchFixTurn p || touchStartHart p

theorem keeps_startHarts (hK : Closed T K) (s : State) (a2 : Option Nat) (hT : ∀ p, touchStartHarts p = true → T p =
    true) (hks : Has K s) : Has K (State.startHarts s a2) := by
  unfold State.startHarts
  try dsimp only
  repeat' first
    | exact fun p hp => hT p (by simp only [touchStartHarts, hp, Bool.or_true, Bool.true_or])
    | intro _
    | with_reducible assumption
    | with_reducible exact hks
    | with_reducible apply Has.ite
    | with_reducible apply keeps_fixTurn
    | with_reducible apply keeps_startHart
    | with_reducible apply Has.foldl
    | with_reducible apply Has1.foldl
    | with_reducible exact Has1.proj (by with_reducible assumption)
    | with_reducible apply Has1.mk
    | dsimp only
    | split

def touchTranslate (p : Option Reg) : Bool := touchWrite p

theorem keeps_translate (hK : Closed T K) (s : State) (h : Nat) (store : Bool) (va : Nat) (hT : ∀ p, touchTranslate
    p = true → T p = true) (hks : Has K s) : HasExc2 K (State.translate s h store va) := by
  unfold State.translate
  try dsimp only
  repeat' first
    | exact fun p hp => hT p hp
    | intro _
    | with_reducible assumption
    | with_reducible exact hks
    | with_reducible apply HasExc2.ok
    | with_reducible apply HasExc2.error
    | with_reducible apply HasExc2.ite
    | with_reducible apply Has.ite
    | with_reducible apply keeps_write
    | dsimp only
    | split

def touchAccess (p : Option Reg) : Bool := touchTranslate p

theorem keeps_access (hK : Closed T K) (s : State) (h : Nat) (store : Bool) (va n : Nat) (hT : ∀ p, touchAccess p = true → T p = true) (hks : Has K s) :
    HasExc2 K (State.access s h store va n) := by
  unfold State.access
  split
  · exact HasExc2.error
  · split
    · exact HasExc2.error
    · next t he =>
      have ht : Has K t := HasExc2.of_eq (keeps_translate hK _ _ _ _ (fun p hp => hT p hp) hks) he
      cases t.locate store _ n with
      | error c => exact HasExc2.error
      | ok x => exact HasExc2.ok ht

def touchBuffer (_ : Option Reg) : Bool := false

theorem keeps_buffer (hK : Closed T K) (s : State) (h a : Nat) (io : Bool) (bs : List Byte)  (hks : Has K s) : Has K
    (State.buffer s h a io bs) := by
  unfold State.buffer
  try dsimp only
  repeat' first
    | intro _
    | with_reducible assumption
    | with_reducible exact hks
    | with_reducible apply Has.ite
    | simp only [Has.same hK]
    | dsimp only
    | split

def touchStoreAt (p : Option Reg) : Bool := touchAddReg .remoteAccesses p || touchBuffer p || touchLeave p ||
  touchPark p || touchRequest p || touchRetire p || touchWrite p

theorem keeps_storeAt (hK : Closed T K) (s : State) (h len : Nat) (p : Place) (bs : List Byte) (hT : ∀ p, touchStoreAt
    p = true → T p = true) (hks : Has K s) : Has K (State.storeAt s h len p bs) := by
  unfold State.storeAt
  try dsimp only
  repeat' first
    | exact fun p hp => hT p (by simp only [touchStoreAt, hp, Bool.or_true, Bool.true_or])
    | intro _
    | with_reducible assumption
    | with_reducible exact hks
    | with_reducible apply Has.ite
    | with_reducible apply keeps_addReg
    | with_reducible apply keeps_buffer
    | with_reducible apply keeps_leave
    | with_reducible apply keeps_park
    | with_reducible apply keeps_request
    | with_reducible apply keeps_retire
    | with_reducible apply keeps_write
    | dsimp only
    | split

def touchEndSync (p : Option Reg) : Bool := touchRetire p || touchTrap p

theorem keeps_endSync (hK : Closed T K) (s : State) (h : Nat) (ra : Bool) (hT : ∀ p, touchEndSync p = true → T p =
    true) (hks : Has K s) : Has K (State.endSync s h ra) := by
  unfold State.endSync
  try dsimp only
  repeat' first
    | exact fun p hp => hT p (by simp only [touchEndSync, hp, Bool.or_true, Bool.true_or])
    | intro _
    | with_reducible assumption
    | with_reducible exact hks
    | with_reducible apply Has.ite
    | with_reducible apply keeps_retire
    | with_reducible apply keeps_trap
    | dsimp only
    | split

def touchSettleHart (p : Option Reg) : Bool := touchEndSync p || touchRetire p || touchWake p

theorem keeps_settleHart (hK : Closed T K) (s : State) (h : Nat) (hT : ∀ p, touchSettleHart p = true → T p = true)
    (hks : Has K s) : Has K (State.settleHart s h) := by
  unfold State.settleHart
  try dsimp only
  repeat' first
    | exact fun p hp => hT p (by simp only [touchSettleHart, hp, Bool.or_true, Bool.true_or])
    | intro _
    | with_reducible assumption
    | with_reducible exact hks
    | with_reducible apply Has.ite
    | with_reducible apply keeps_buffer
    | with_reducible apply keeps_endSync
    | with_reducible apply keeps_retire
    | with_reducible apply keeps_setHart
    | with_reducible apply keeps_wake
    | simp only [Has.same hK]
    | dsimp only
    | split

end Sys2Proof.Machine
end

