-- ==== Sys2Proof/Laws/KeepsFabricIn.lean ====
section
/-! SUPPORT. What the operations of Machine/FabricIn.lean keep, and the registers that each may change. -/

namespace Sys2Proof.Machine

variable {T : Option Reg → Bool} {K : State → Prop}

def touchAmo (p : Option Reg) : Bool := touchWrite p

theorem keeps_amo (hK : Closed T K) (s : State) (fn : AmoFn) (size a x : Nat) (hT : ∀ p, touchAmo p = true → T p =
    true) (hks : Has K s) : Has3 K (State.amo s fn size a x) := by
  unfold State.amo
  try dsimp only
  repeat' first
    | exact fun p hp => hT p hp
    | intro _
    | with_reducible assumption
    | with_reducible exact hks
    | with_reducible apply Has3.mk
    | with_reducible apply Has3.ite
    | with_reducible apply Has.ite
    | with_reducible apply keeps_write
    | dsimp only
    | split

def touchSignalAt (p : Option Reg) : Bool := touchAmo p

theorem keeps_signalAt (hK : Closed T K) (s : State) (a : Nat) (hT : ∀ p, touchSignalAt p = true → T p = true) (hks :
    Has K s) : Has K (State.signalAt s a) := by
  unfold State.signalAt
  try dsimp only
  repeat' first
    | exact fun p hp => hT p hp
    | intro _
    | with_reducible assumption
    | with_reducible exact hks
    | with_reducible apply Has.ite
    | with_reducible apply keeps_amo
    | with_reducible refine Has3.of_eq ?_ (by assumption)
    | (with_reducible apply Has3.proj; with_reducible apply keeps_amo)
    | dsimp only
    | split

def touchRaccElement (p : Option Reg) : Bool := touchWrite p

theorem keeps_raccElement (hK : Closed T K) (s : State) (fn srcFmt dstFmt a v : Nat) (hT : ∀ p, touchRaccElement p =
    true → T p = true) (hks : Has K s) : Has K (State.raccElement s fn srcFmt dstFmt a v) := by
  unfold State.raccElement
  try dsimp only
  repeat' first
    | exact fun p hp => hT p hp
    | intro _
    | with_reducible assumption
    | with_reducible exact hks
    | with_reducible apply Has.ite
    | with_reducible apply keeps_write
    | dsimp only
    | split

def touchRaccApply (p : Option Reg) : Bool := touchRaccElement p

theorem keeps_raccApply (hK : Closed T K) (s : State) (fn srcFmt dstFmt a : Nat) (data : List Byte) (hT : ∀ p,
    touchRaccApply p = true → T p = true) (hks : Has K s) : Has K (State.raccApply s fn srcFmt dstFmt a data) := by
  unfold State.raccApply
  try dsimp only
  repeat' first
    | exact fun p hp => hT p hp
    | intro _
    | with_reducible assumption
    | with_reducible exact hks
    | with_reducible apply Has.ite
    | with_reducible apply keeps_raccElement
    | with_reducible apply Has.foldl
    | with_reducible apply Has1.foldl
    | with_reducible exact Has1.proj (by with_reducible assumption)
    | with_reducible apply Has1.mk
    | dsimp only
    | split

def touchDropStale (p : Option Reg) : Bool := touchAddReg .epochStaleCnt p || touchLogError p

theorem keeps_dropStale (hK : Closed T K) (s : State) (h : Header) (hT : ∀ p, touchDropStale p = true → T p = true)
    (hks : Has K s) : Has K (State.dropStale s h) := by
  unfold State.dropStale
  try dsimp only
  repeat' first
    | exact fun p hp => hT p (by simp only [touchDropStale, hp, Bool.or_true, Bool.true_or])
    | intro _
    | with_reducible assumption
    | with_reducible exact hks
    | with_reducible apply Has.ite
    | with_reducible apply keeps_addReg
    | with_reducible apply keeps_logError
    | simp only [Has.same hK]
    | dsimp only
    | split

def touchReplyTo (_ : Option Reg) : Bool := false

theorem keeps_replyTo (hK : Closed T K) (s : State) (q : Nat) (h : Header) (epoch : Nat) (b : Body) (hks : Has K s)
    : Has K (State.replyTo s q h epoch b) := by
  unfold State.replyTo
  try dsimp only
  repeat' first
    | intro _
    | with_reducible assumption
    | with_reducible exact hks
    | with_reducible apply Has.ite
    | with_reducible apply keeps_emit
    | dsimp only
    | split

def touchAnswerBack (_ : Option Reg) : Bool := false

theorem keeps_answerBack (hK : Closed T K) (s : State) (q : Nat) (h : Header) (epoch : Nat) (b : Body) (hks : Has K
    s) : Has K (State.answerBack s q h epoch b) := by
  unfold State.answerBack
  try dsimp only
  repeat' first
    | intro _
    | with_reducible assumption
    | with_reducible exact hks
    | with_reducible apply Has.ite
    | with_reducible apply keeps_emit
    | simp only [Has.same hK]
    | dsimp only
    | split

def touchNoteMismatch (p : Option Reg) : Bool := touchAddReg .keyMismatchCnt p || touchLogError p

theorem keeps_noteMismatch (hK : Closed T K) (s : State) (h : Header) (hT : ∀ p, touchNoteMismatch p = true → T p =
    true) (hks : Has K s) : Has K (State.noteMismatch s h) := by
  unfold State.noteMismatch
  try dsimp only
  repeat' first
    | exact fun p hp => hT p (by simp only [touchNoteMismatch, hp, Bool.or_true, Bool.true_or])
    | intro _
    | with_reducible assumption
    | with_reducible exact hks
    | with_reducible apply Has.ite
    | with_reducible apply keeps_addReg
    | with_reducible apply keeps_logError
    | dsimp only
    | split

def touchRefuseKey (p : Option Reg) : Bool := touchNoteMismatch p

theorem keeps_refuseKey (hK : Closed T K) (s : State) (q : Nat) (h : Header) (cause : Nat) (hT : ∀ p, touchRefuseKey
    p = true → T p = true) (hks : Has K s) : Has K (State.refuseKey s q h cause) := by
  unfold State.refuseKey
  try dsimp only
  repeat' first
    | exact fun p hp => hT p hp
    | intro _
    | with_reducible assumption
    | with_reducible exact hks
    | with_reducible apply Has.ite
    | with_reducible apply keeps_answerBack
    | with_reducible apply keeps_noteMismatch
    | dsimp only
    | split

def touchShowShards (p : Option Reg) : Bool := touchSetReg .shardDir p

theorem keeps_showShards (hK : Closed T K) (s : State) (hT : ∀ p, touchShowShards p = true → T p = true) (hks : Has K
    s) : Has K (State.showShards s) := by
  unfold State.showShards
  try dsimp only
  repeat' first
    | exact fun p hp => hT p hp
    | intro _
    | with_reducible assumption
    | with_reducible exact hks
    | with_reducible apply Has.ite
    | with_reducible apply keeps_setReg
    | with_reducible apply Has.foldl
    | with_reducible apply Has1.foldl
    | with_reducible exact Has1.proj (by with_reducible assumption)
    | with_reducible apply Has1.mk
    | dsimp only
    | split

def touchPutShard (p : Option Reg) : Bool := touchShowShards p

theorem keeps_putShard (hK : Closed T K) (s : State) (x : Shard) (hT : ∀ p, touchPutShard p = true → T p = true)
    (hks : Has K s) : Has K (State.putShard s x) := by
  unfold State.putShard
  try dsimp only
  repeat' first
    | exact fun p hp => hT p hp
    | intro _
    | with_reducible assumption
    | with_reducible exact hks
    | with_reducible apply Has.ite
    | with_reducible apply keeps_showShards
    | simp only [Has.same hK]
    | dsimp only
    | split

def touchServeStore (p : Option Reg) : Bool := touchPutShard p || touchRefuseKey p

theorem keeps_serveStore (hK : Closed T K) (s : State) (q : Nat) (p : Packet) (hT : ∀ p, touchServeStore p = true →
    T p = true) (hks : Has K s) : Has K (State.serveStore s q p) := by
  unfold State.serveStore
  try dsimp only
  repeat' first
    | exact fun p hp => hT p (by simp only [touchServeStore, hp, Bool.or_true, Bool.true_or])
    | intro _
    | with_reducible assumption
    | with_reducible exact hks
    | with_reducible apply Has.ite
    | with_reducible apply keeps_answerBack
    | with_reducible apply keeps_putShard
    | with_reducible apply keeps_refuseKey
    | dsimp only
    | split

def touchNoteTurn (_ : Option Reg) : Bool := false

theorem keeps_noteTurn (hK : Closed T K) (s : State) (k : Nat) (hks : Has K s) : Has K (State.noteTurn s k) := by
  unfold State.noteTurn
  try dsimp only
  repeat' first
    | intro _
    | with_reducible assumption
    | with_reducible exact hks
    | with_reducible apply Has.ite
    | simp only [Has.same hK]
    | dsimp only
    | split

def touchNoteRefusal (_ : Option Reg) : Bool := false

theorem keeps_noteRefusal (hK : Closed T K) (s : State) (k : Nat) (hks : Has K s) : Has K (State.noteRefusal s k) :=
    by
  unfold State.noteRefusal
  try dsimp only
  repeat' first
    | intro _
    | with_reducible assumption
    | with_reducible exact hks
    | with_reducible apply Has.ite
    | simp only [Has.same hK]
    | dsimp only
    | split

def touchStageRacc (_ : Option Reg) : Bool := false

theorem keeps_stageRacc (hK : Closed T K) (s : State) (p : Packet) (o : RaccOrder) (a : Nat) (hks : Has K s) : Has K
    (State.stageRacc s p o a) := by
  unfold State.stageRacc
  try dsimp only
  repeat' first
    | intro _
    | with_reducible assumption
    | with_reducible exact hks
    | with_reducible apply Has.ite
    | simp only [Has.same hK]
    | dsimp only
    | split

def touchServe (p : Option Reg) : Bool := touchAmo p || touchRaccApply p || touchRefuseKey p || touchServeStore p ||
  touchSignalAt p || touchWrite p

theorem keeps_serve (hK : Closed T K) (s : State) (q : Nat) (p : Packet) (hT : ∀ p, touchServe p = true → T p =
    true) (hks : Has K s) : Has K (State.serve s q p) := by
  unfold State.serve
  try dsimp only
  repeat' first
    | exact fun p hp => hT p (by simp only [touchServe, hp, Bool.or_true, Bool.true_or])
    | intro _
    | with_reducible assumption
    | with_reducible exact hks
    | with_reducible apply Has.ite
    | with_reducible apply keeps_amo
    | with_reducible apply keeps_answerBack
    | with_reducible apply keeps_noteRefusal
    | with_reducible apply keeps_noteTurn
    | with_reducible apply keeps_poisonSpan
    | with_reducible apply keeps_raccApply
    | with_reducible apply keeps_refuseKey
    | with_reducible apply keeps_serveStore
    | with_reducible apply keeps_signalAt
    | with_reducible apply keeps_stageRacc
    | with_reducible apply keeps_write
    | with_reducible refine Has3.of_eq ?_ (by assumption)
    | (with_reducible apply Has3.proj; with_reducible apply keeps_amo)
    | dsimp only
    | split

def touchServeEarly (p : Option Reg) : Bool := touchServe p

theorem keeps_serveEarly (hK : Closed T K) (s : State) (k n : Nat) (hT : ∀ p, touchServeEarly p = true → T p = true)
    (hks : Has K s) : Has K (State.serveEarly s k n) := by
  induction n generalizing s with
  | zero => exact hks
  | succ n ih =>
    unfold State.serveEarly
    try dsimp only
    repeat' first
      | exact fun p hp => hT p hp
      | intro _
      | with_reducible assumption
      | with_reducible exact hks
      | with_reducible apply ih
      | with_reducible apply keeps_serve
      | simp only [Has.same hK]
      | with_reducible apply Has.ite
      | dsimp only
      | split

def touchServeWaiting (p : Option Reg) : Bool := touchServeEarly p

theorem keeps_serveWaiting (hK : Closed T K) (s : State) (hT : ∀ p, touchServeWaiting p = true → T p = true) (hks :
    Has K s) : Has K (State.serveWaiting s) := by
  unfold State.serveWaiting
  try dsimp only
  repeat' first
    | exact fun p hp => hT p hp
    | intro _
    | with_reducible assumption
    | with_reducible exact hks
    | with_reducible apply Has.ite
    | with_reducible apply keeps_serveEarly
    | with_reducible apply Has.foldl
    | with_reducible apply Has1.foldl
    | with_reducible exact Has1.proj (by with_reducible assumption)
    | with_reducible apply Has1.mk
    | dsimp only
    | split

def touchApplyStaged (p : Option Reg) : Bool := touchRaccApply p || touchSignalAt p

theorem keeps_applyStaged (hK : Closed T K) (s : State) (x : Staged) (hT : ∀ p, touchApplyStaged p = true → T p =
    true) (hks : Has K s) : Has K (State.applyStaged s x) := by
  unfold State.applyStaged
  try dsimp only
  repeat' first
    | exact fun p hp => hT p (by simp only [touchApplyStaged, hp, Bool.or_true, Bool.true_or])
    | intro _
    | with_reducible assumption
    | with_reducible exact hks
    | with_reducible apply Has.ite
    | with_reducible apply keeps_raccApply
    | with_reducible apply keeps_signalAt
    | dsimp only
    | split

def touchApplySource (p : Option Reg) : Bool := touchApplyStaged p

theorem keeps_applySource (hK : Closed T K) (s : State) (r src : Nat) (hT : ∀ p, touchApplySource p = true → T p =
    true) (hks : Has K s) : Has K (State.applySource s r src) := by
  unfold State.applySource
  try dsimp only
  repeat' first
    | exact fun p hp => hT p hp
    | intro _
    | with_reducible assumption
    | with_reducible exact hks
    | with_reducible apply Has.ite
    | with_reducible apply keeps_applyStaged
    | with_reducible apply Has.foldl
    | with_reducible apply Has1.foldl
    | with_reducible exact Has1.proj (by with_reducible assumption)
    | with_reducible apply Has1.mk
    | simp only [Has.same hK]
    | dsimp only
    | split

def touchApplySources (p : Option Reg) : Bool := touchApplySource p

theorem keeps_applySources (hK : Closed T K) (s : State) (r : Nat) (ns : List Nat) (hT : ∀ p, touchApplySources p = true → T p = true)
    (hks : Has K s) : Has2 K (State.applySources s r ns) := by
  induction ns generalizing s with
  | nil => exact Has2.mk hks
  | cons m ns ih =>
    unfold State.applySources
    try dsimp only
    repeat' first
      | exact fun p hp => hT p hp
      | intro _
      | with_reducible assumption
      | with_reducible exact hks
      | with_reducible apply ih
      | with_reducible apply Has2.ite
      | split
      | with_reducible apply Has2.mk
      | with_reducible apply keeps_applySource
      | simp only [Has.same hK]
      | with_reducible apply Has.ite
      | dsimp only
      | split

def touchApplyRounds (p : Option Reg) : Bool := touchAddReg .raccDone p || touchApplySources p || touchServeWaiting p

theorem keeps_applyRounds (hK : Closed T K) (s : State) (n : Nat) (hT : ∀ p, touchApplyRounds p = true → T p = true)
    (hks : Has K s) : Has K (State.applyRounds s n) := by
  induction n generalizing s with
  | zero => exact hks
  | succ n ih =>
    unfold State.applyRounds
    try dsimp only
    repeat' first
      | exact fun p hp => hT p (by simp only [touchApplyRounds, hp, Bool.or_true, Bool.true_or])
      | intro _
      | with_reducible assumption
      | with_reducible exact hks
      | with_reducible apply ih
      | with_reducible apply keeps_addReg
      | with_reducible apply keeps_serveWaiting
      | (with_reducible apply Has2.proj; with_reducible apply keeps_applySources)
      | simp only [Has.same hK]
      | with_reducible apply Has.ite
      | dsimp only
      | split

def touchForward (p : Option Reg) : Bool := touchAddReg .fwdBytes p

theorem keeps_forward (hK : Closed T K) (s : State) (p : Packet) (hT : ∀ p, touchForward p = true → T p = true) (hks
    : Has K s) : Has K (State.forward s p) := by
  unfold State.forward
  try dsimp only
  repeat' first
    | exact fun p hp => hT p hp
    | intro _
    | with_reducible assumption
    | with_reducible exact hks
    | with_reducible apply Has.ite
    | with_reducible apply keeps_addReg
    | with_reducible apply keeps_sendOn
    | simp only [Has.same hK]
    | dsimp only
    | split

def touchArrive (p : Option Reg) : Bool := touchApplyRounds p || touchDropStale p || touchForward p || touchServe p
  || touchServeEarly p

theorem keeps_arrive (hK : Closed T K) (s : State) (q : Nat) (p : Packet) (hT : ∀ p, touchArrive p = true → T p =
    true) (hks : Has K s) : Has K (State.arrive s q p) := by
  unfold State.arrive
  try dsimp only
  repeat' first
    | exact fun p hp => hT p (by simp only [touchArrive, hp, Bool.or_true, Bool.true_or])
    | intro _
    | with_reducible assumption
    | with_reducible exact hks
    | with_reducible apply Has.ite
    | with_reducible apply keeps_applyRounds
    | with_reducible apply keeps_dropStale
    | with_reducible apply keeps_emit
    | with_reducible apply keeps_forward
    | with_reducible apply keeps_replyTo
    | with_reducible apply keeps_serve
    | with_reducible apply keeps_serveEarly
    | simp only [Has.same hK]
    | dsimp only
    | split

def touchTakeControl (p : Option Reg) : Bool := touchDropStale p || touchForward p

theorem keeps_takeControl (hK : Closed T K) (s : State) (q : Nat) (h : Header) (b : Body) (f : State → State) (hT :
    ∀ p, touchTakeControl p = true → T p = true) (hks : Has K s) (hkf : ∀ x0, Has K x0 → Has K (f x0)) : Has K
    (State.takeControl s q h b f) := by
  unfold State.takeControl
  try dsimp only
  repeat' first
    | exact fun p hp => hT p (by simp only [touchTakeControl, hp, Bool.or_true, Bool.true_or])
    | intro _
    | with_reducible assumption
    | with_reducible exact hks
    | with_reducible apply hkf
    | with_reducible apply Has.ite
    | with_reducible apply keeps_dropStale
    | with_reducible apply keeps_forward
    | dsimp only
    | split

def touchExecPktRead (p : Option Reg) : Bool := touchArrive p

theorem keeps_execPktRead (hK : Closed T K) (q : Fin 17) (h : Header) (len : Fin 257) (s : State) (hT : ∀ p,
    touchExecPktRead p = true → T p = true) (hks : Has K s) : HasRes K (execPktRead q h len s) := by
  unfold execPktRead
  try dsimp only
  repeat' first
    | exact fun p hp => hT p hp
    | intro _
    | with_reducible assumption
    | with_reducible exact hks
    | with_reducible apply HasRes.next
    | with_reducible apply HasRes.ite
    | with_reducible apply Has.ite
    | with_reducible apply keeps_arrive
    | dsimp only
    | split

def touchExecPktWrite (p : Option Reg) : Bool := touchArrive p || touchWrite p

theorem keeps_execPktWrite (hK : Closed T K) (q : Fin 17) (h : Header) (data : List Byte) (poison : Bool) (s : State)
    (hT : ∀ p, touchExecPktWrite p = true → T p = true) (hks : Has K s) : HasRes K (execPktWrite q h data poison s) :=
    by
  unfold execPktWrite
  try dsimp only
  repeat' first
    | exact fun p hp => hT p (by simp only [touchExecPktWrite, hp, Bool.or_true, Bool.true_or])
    | intro _
    | with_reducible assumption
    | with_reducible exact hks
    | with_reducible apply HasRes.next
    | with_reducible apply HasRes.ite
    | with_reducible apply Has.ite
    | with_reducible apply keeps_arrive
    | with_reducible apply keeps_write
    | dsimp only
    | split

def touchExecPktAmo (p : Option Reg) : Bool := touchArrive p

theorem keeps_execPktAmo (hK : Closed T K) (q : Fin 17) (h : Header) (op : Option (AmoFn × Bool × Nat)) (sig :
    SignalInfo) (s : State) (hT : ∀ p, touchExecPktAmo p = true → T p = true) (hks : Has K s) : HasRes K (execPktAmo
    q h op sig s) := by
  unfold execPktAmo
  try dsimp only
  repeat' first
    | exact fun p hp => hT p hp
    | intro _
    | with_reducible assumption
    | with_reducible exact hks
    | with_reducible apply HasRes.next
    | with_reducible apply HasRes.ite
    | with_reducible apply Has.ite
    | with_reducible apply keeps_arrive
    | dsimp only
    | split

def touchExecPktRacc (p : Option Reg) : Bool := touchArrive p

theorem keeps_execPktRacc (hK : Closed T K) (q : Fin 17) (h : Header) (fn : Fin 3) (srcFmt : Fin 4) (wide : Bool)
    (data : List Byte) (order : Option RaccOrder) (s : State) (hT : ∀ p, touchExecPktRacc p = true → T p = true) (hks
    : Has K s) : HasRes K (execPktRacc q h fn srcFmt wide data order s) := by
  unfold execPktRacc
  try dsimp only
  repeat' first
    | exact fun p hp => hT p hp
    | intro _
    | with_reducible assumption
    | with_reducible exact hks
    | with_reducible apply HasRes.next
    | with_reducible apply HasRes.ite
    | with_reducible apply Has.ite
    | with_reducible apply keeps_arrive
    | dsimp only
    | split

def touchExecRaccCloseMessage (p : Option Reg) : Bool := touchApplyRounds p || touchTakeControl p

theorem keeps_execRaccCloseMessage (hK : Closed T K) (q : Fin 17) (h : Header) (round : Nat) (s : State) (hT : ∀ p,
    touchExecRaccCloseMessage p = true → T p = true) (hks : Has K s) : HasRes K (execRaccCloseMessage q h round s)
    := by
  unfold execRaccCloseMessage
  try dsimp only
  repeat' first
    | exact fun p hp => hT p (by simp only [touchExecRaccCloseMessage, hp, Bool.or_true, Bool.true_or])
    | intro _
    | with_reducible assumption
    | with_reducible exact hks
    | with_reducible apply HasRes.next
    | with_reducible apply HasRes.ite
    | with_reducible apply Has.ite
    | with_reducible apply keeps_applyRounds
    | with_reducible apply keeps_takeControl
    | simp only [Has.same hK]
    | dsimp only
    | split

def touchExecRaccRoundEnd (p : Option Reg) : Bool := touchControl p

theorem keeps_execRaccRoundEnd (hK : Closed T K) (s : State) (hT : ∀ p, touchExecRaccRoundEnd p = true → T p = true)
    (hks : Has K s) : HasRes K (execRaccRoundEnd s) := by
  unfold execRaccRoundEnd
  try dsimp only
  repeat' first
    | exact fun p hp => hT p hp
    | intro _
    | with_reducible assumption
    | with_reducible exact hks
    | with_reducible apply HasRes.next
    | with_reducible apply HasRes.ite
    | with_reducible apply Has.ite
    | with_reducible apply keeps_control
    | with_reducible apply Has.foldl
    | with_reducible apply Has1.foldl
    | with_reducible exact Has1.proj (by with_reducible assumption)
    | with_reducible apply Has1.mk
    | simp only [Has.same hK]
    | dsimp only
    | split

def touchHartFailure (p : Option Reg) : Bool := touchAddReg .remoteWriteErrors p || touchLogError p || touchSetReg
  .svxrerr p

theorem keeps_hartFailure (hK : Closed T K) (s : State) (h code lnode : Nat) (hT : ∀ p, touchHartFailure p = true → T
    p = true) (hks : Has K s) : Has K (State.hartFailure s h code lnode) := by
  unfold State.hartFailure
  try dsimp only
  repeat' first
    | exact fun p hp => hT p (by simp only [touchHartFailure, hp, Bool.or_true, Bool.true_or])
    | intro _
    | with_reducible assumption
    | with_reducible exact hks
    | with_reducible apply Has.ite
    | with_reducible apply keeps_addReg
    | with_reducible apply keeps_logError
    | with_reducible apply keeps_setReg
    | simp only [Has.same hK]
    | dsimp only
    | split

def touchDeliver (p : Option Reg) : Bool := touchFinishGather p || touchFinishScatter p || touchHartFailure p ||
  touchLogError p || touchPostedFailure p || touchSetFlight p || touchSettleHart p

theorem keeps_deliver (hK : Closed T K) (s : State) (r : Request) (data : List Byte) (poison : Bool) (code cause :
    Nat) (hT : ∀ p, touchDeliver p = true → T p = true) (hks : Has K s) : Has K (State.deliver s r data poison code
    cause) := by
  unfold State.deliver
  try dsimp only
  repeat' first
    | exact fun p hp => hT p (by simp only [touchDeliver, hp, Bool.or_true, Bool.true_or])
    | intro _
    | with_reducible assumption
    | with_reducible exact hks
    | with_reducible apply Has.ite
    | with_reducible apply keeps_finishGather
    | with_reducible apply keeps_finishScatter
    | with_reducible apply keeps_hartFailure
    | with_reducible apply keeps_logError
    | with_reducible apply keeps_postedFailure
    | with_reducible apply keeps_setFlight
    | with_reducible apply keeps_settleHart
    | simp only [Has.same hK]
    | dsimp only
    | split

def touchAnswerArrives (p : Option Reg) : Bool := touchDeliver p || touchDropStale p || touchForward p

theorem keeps_answerArrives (hK : Closed T K) (s : State) (q : Nat) (h : Header) (b : Body) (data : List Byte)
    (poison : Bool) (code cause : Nat) (hT : ∀ p, touchAnswerArrives p = true → T p = true) (hks : Has K s) : Has K
    (State.answerArrives s q h b data poison code cause) := by
  unfold State.answerArrives
  try dsimp only
  repeat' first
    | exact fun p hp => hT p (by simp only [touchAnswerArrives, hp, Bool.or_true, Bool.true_or])
    | intro _
    | with_reducible assumption
    | with_reducible exact hks
    | with_reducible apply Has.ite
    | with_reducible apply keeps_deliver
    | with_reducible apply keeps_dropStale
    | with_reducible apply keeps_forward
    | simp only [Has.same hK]
    | dsimp only
    | split

def touchExecPktReadResp (p : Option Reg) : Bool := touchAnswerArrives p

theorem keeps_execPktReadResp (hK : Closed T K) (q : Fin 17) (h : Header) (data : List Byte) (poison : Bool) (s :
    State) (hT : ∀ p, touchExecPktReadResp p = true → T p = true) (hks : Has K s) : HasRes K (execPktReadResp q h data
    poison s) := by
  unfold execPktReadResp
  try dsimp only
  repeat' first
    | exact fun p hp => hT p hp
    | intro _
    | with_reducible assumption
    | with_reducible exact hks
    | with_reducible apply HasRes.next
    | with_reducible apply HasRes.ite
    | with_reducible apply Has.ite
    | with_reducible apply keeps_answerArrives
    | dsimp only
    | split

def touchExecPktAck (p : Option Reg) : Bool := touchAnswerArrives p

theorem keeps_execPktAck (hK : Closed T K) (q : Fin 17) (h : Header) (s : State) (hT : ∀ p, touchExecPktAck p = true →
    T p = true) (hks : Has K s) : HasRes K (execPktAck q h s) := by
  unfold execPktAck
  try dsimp only
  repeat' first
    | exact fun p hp => hT p hp
    | intro _
    | with_reducible assumption
    | with_reducible exact hks
    | with_reducible apply HasRes.next
    | with_reducible apply HasRes.ite
    | with_reducible apply Has.ite
    | with_reducible apply keeps_answerArrives
    | dsimp only
    | split

def touchExecPktAmoResp (p : Option Reg) : Bool := touchAnswerArrives p

theorem keeps_execPktAmoResp (hK : Closed T K) (q : Fin 17) (h : Header) (old : Dword) (poison : Bool) (s : State) (hT
    : ∀ p, touchExecPktAmoResp p = true → T p = true) (hks : Has K s) : HasRes K (execPktAmoResp q h old poison s) :=
    by
  unfold execPktAmoResp
  try dsimp only
  repeat' first
    | exact fun p hp => hT p hp
    | intro _
    | with_reducible assumption
    | with_reducible exact hks
    | with_reducible apply HasRes.next
    | with_reducible apply HasRes.ite
    | with_reducible apply Has.ite
    | with_reducible apply keeps_answerArrives
    | dsimp only
    | split

def touchExecRemoteTimeout (p : Option Reg) : Bool := touchDeliver p

theorem keeps_execRemoteTimeout (hK : Closed T K) (q : Fin 17) (s : State) (hT : ∀ p, touchExecRemoteTimeout p = true
    → T p = true) (hks : Has K s) : HasRes K (execRemoteTimeout q s) := by
  unfold execRemoteTimeout
  try dsimp only
  repeat' first
    | exact fun p hp => hT p hp
    | intro _
    | with_reducible assumption
    | with_reducible exact hks
    | with_reducible apply HasRes.next
    | with_reducible apply HasRes.ite
    | with_reducible apply Has.ite
    | with_reducible apply keeps_deliver
    | simp only [Has.same hK]
    | dsimp only
    | split

def touchPostQueue (p : Option Reg) : Bool := touchPostMail p

theorem keeps_postQueue (hK : Closed T K) (s : State) (q i n : Nat) (hT : ∀ p, touchPostQueue p = true → T p = true) (hks : Has K s) :
    Has K (State.postQueue s q i n) := by
  induction n generalizing s i with
  | zero => exact hks
  | succ n ih =>
    unfold State.postQueue
    try dsimp only
    repeat' first
      | exact fun p hp => hT p (by simp only [touchPostQueue, hp, Bool.or_true, Bool.true_or])
      | intro _
      | with_reducible assumption
      | with_reducible exact hks
      | with_reducible apply ih
      | with_reducible apply keeps_postMail
      | with_reducible apply Has.ite
      | split

def touchRingMail (p : Option Reg) : Bool := touchPostQueue p || touchSetReg .mailTail p

theorem keeps_ringMail (hK : Closed T K) (s : State) (q tail : Nat) (hT : ∀ p, touchRingMail p = true → T p = true)
    (hks : Has K s) : Has K (State.ringMail s q tail) := by
  unfold State.ringMail
  try dsimp only
  repeat' first
    | exact fun p hp => hT p (by simp only [touchRingMail, hp, Bool.or_true, Bool.true_or])
    | intro _
    | with_reducible assumption
    | with_reducible exact hks
    | with_reducible apply Has.ite
    | with_reducible apply keeps_postQueue
    | with_reducible apply keeps_setReg
    | dsimp only
    | split

def touchExecMailDoorbell (p : Option Reg) : Bool := touchRingMail p

theorem keeps_execMailDoorbell (hK : Closed T K) (q : Fin 64) (tail : Word) (s : State) (hT : ∀ p,
    touchExecMailDoorbell p = true → T p = true) (hks : Has K s) : HasRes K (execMailDoorbell q tail s) := by
  unfold execMailDoorbell
  try dsimp only
  repeat' first
    | exact fun p hp => hT p hp
    | intro _
    | with_reducible assumption
    | with_reducible exact hks
    | with_reducible apply HasRes.next
    | with_reducible apply HasRes.ite
    | with_reducible apply Has.ite
    | with_reducible apply keeps_ringMail
    | dsimp only
    | split

def touchExecMailComplete (p : Option Reg) : Bool := touchAddReg .mailDone p || touchJobWrite p ||
  touchPostedFailure p || touchStartMails p

theorem keeps_execMailComplete (hK : Closed T K) (q : Fin 320) (s : State) (hT : ∀ p, touchExecMailComplete p = true
    → T p = true) (hks : Has K s) : HasRes K (execMailComplete q s) := by
  unfold execMailComplete
  try dsimp only
  repeat' first
    | exact fun p hp => hT p (by simp only [touchExecMailComplete, hp, Bool.or_true, Bool.true_or])
    | intro _
    | with_reducible assumption
    | with_reducible exact hks
    | with_reducible apply HasRes.next
    | with_reducible apply HasRes.ite
    | with_reducible apply Has.ite
    | with_reducible apply keeps_addReg
    | with_reducible apply keeps_jobWrite
    | with_reducible apply keeps_postedFailure
    | with_reducible apply keeps_startMails
    | simp only [Has.same hK]
    | dsimp only
    | split

def touchAnswerMail (_ : Option Reg) : Bool := false

theorem keeps_answerMail (hK : Closed T K) (s : State) (h : Header) (b : Body) (hks : Has K s) : Has K
    (State.answerMail s h b) := by
  unfold State.answerMail
  try dsimp only
  repeat' first
    | intro _
    | with_reducible assumption
    | with_reducible exact hks
    | with_reducible apply Has.ite
    | with_reducible apply keeps_routeMail
    | with_reducible refine HasOpt.of_eq ?_ (by assumption)
    | with_reducible apply HasOpt.getD
    | dsimp only
    | split

def touchSetMailIn (_ : Option Reg) : Bool := false

theorem keeps_setMailIn (hK : Closed T K) (s : State) (m : MailIn) (hks : Has K s) : Has K (State.setMailIn s m) :=
    by
  unfold State.setMailIn
  try dsimp only
  repeat' first
    | intro _
    | with_reducible assumption
    | with_reducible exact hks
    | with_reducible apply Has.ite
    | simp only [Has.same hK]
    | dsimp only
    | split

def touchMailPacket (p : Option Reg) : Bool := touchNoteMismatch p || touchSignalAt p || touchWrite p

theorem keeps_mailPacket (hK : Closed T K) (s : State) (p : Packet) (m : MailIn) (pkt total : Nat) (kind : MailKind)
    (data : List Byte) (hT : ∀ p, touchMailPacket p = true → T p = true) (hks : Has K s) : Has K (State.mailPacket s
    p m pkt total kind data) := by
  unfold State.mailPacket
  try dsimp only
  repeat' first
    | exact fun p hp => hT p (by simp only [touchMailPacket, hp, Bool.or_true, Bool.true_or])
    | intro _
    | with_reducible assumption
    | with_reducible exact hks
    | with_reducible apply Has.ite
    | with_reducible apply keeps_answerMail
    | with_reducible apply keeps_noteMismatch
    | with_reducible apply keeps_setMailIn
    | with_reducible apply keeps_signalAt
    | with_reducible apply keeps_write
    | simp only [Has.same hK]
    | dsimp only
    | split

def touchDeliverMail (p : Option Reg) : Bool := touchDropStale p || touchMailPacket p

theorem keeps_deliverMail (hK : Closed T K) (s : State) (p : Packet) (msg pkt total : Nat) (kind : MailKind) (data :
    List Byte) (hT : ∀ p, touchDeliverMail p = true → T p = true) (hks : Has K s) : Has K (State.deliverMail s p msg
    pkt total kind data) := by
  unfold State.deliverMail
  try dsimp only
  repeat' first
    | exact fun p hp => hT p (by simp only [touchDeliverMail, hp, Bool.or_true, Bool.true_or])
    | intro _
    | with_reducible assumption
    | with_reducible exact hks
    | with_reducible apply Has.ite
    | with_reducible apply keeps_answerMail
    | with_reducible apply keeps_dropStale
    | with_reducible apply keeps_mailPacket
    | dsimp only
    | split

def touchCarry (p : Option Reg) : Bool := touchAddReg .fwdBytes p || touchAddReg .mailDrops p || touchForward p

theorem keeps_carry (hK : Closed T K) (s : State) (detour : Bool) (p : Packet) (hT : ∀ p, touchCarry p = true → T p
    = true) (hks : Has K s) : Has K (State.carry s detour p) := by
  unfold State.carry
  try dsimp only
  repeat' first
    | exact fun p hp => hT p (by simp only [touchCarry, hp, Bool.or_true, Bool.true_or])
    | intro _
    | with_reducible assumption
    | with_reducible exact hks
    | with_reducible apply Has.ite
    | with_reducible apply keeps_addReg
    | with_reducible apply keeps_forward
    | with_reducible apply keeps_routeMail
    | simp only [Has.same hK]
    | with_reducible refine HasOpt.of_eq ?_ (by assumption)
    | with_reducible apply HasOpt.getD
    | dsimp only
    | split

def touchExecPktMail (p : Option Reg) : Bool := touchCarry p || touchDeliverMail p

theorem keeps_execPktMail (hK : Closed T K) (via : MailPort) (h : Header) (msg pkt : Half) (total : Nat) (kind :
    MailKind) (data : List Byte) (hops : Nat) (s : State) (hT : ∀ p, touchExecPktMail p = true → T p = true) (hks :
    Has K s) : HasRes K (execPktMail via h msg pkt total kind data hops s) := by
  unfold execPktMail
  try dsimp only
  repeat' first
    | exact fun p hp => hT p (by simp only [touchExecPktMail, hp, Bool.or_true, Bool.true_or])
    | intro _
    | with_reducible assumption
    | with_reducible exact hks
    | with_reducible apply HasRes.next
    | with_reducible apply HasRes.ite
    | with_reducible apply Has.ite
    | with_reducible apply keeps_carry
    | with_reducible apply keeps_deliverMail
    | dsimp only
    | split

def touchExecMailTransitTimeout (p : Option Reg) : Bool := touchAddReg .fwdBytes p || touchAddReg .mailDrops p

theorem keeps_execMailTransitTimeout (hK : Closed T K) (s : State) (hT : ∀ p, touchExecMailTransitTimeout p = true →
    T p = true) (hks : Has K s) : HasRes K (execMailTransitTimeout s) := by
  unfold execMailTransitTimeout
  try dsimp only
  repeat' first
    | exact fun p hp => hT p (by simp only [touchExecMailTransitTimeout, hp, Bool.or_true, Bool.true_or])
    | intro _
    | with_reducible assumption
    | with_reducible exact hks
    | with_reducible apply HasRes.next
    | with_reducible apply HasRes.ite
    | with_reducible apply Has.ite
    | with_reducible apply keeps_addReg
    | with_reducible apply keeps_routeMail
    | simp only [Has.same hK]
    | with_reducible refine HasOpt.of_eq ?_ (by assumption)
    | with_reducible apply HasOpt.getD
    | dsimp only
    | split

def touchExecPktMailAck (p : Option Reg) : Bool := touchCarry p || touchDropStale p || touchStartMails p

theorem keeps_execPktMailAck (hK : Closed T K) (h : Header) (msg pkt : Half) (done : Bool) (hops : Nat) (s : State)
    (hT : ∀ p, touchExecPktMailAck p = true → T p = true) (hks : Has K s) : HasRes K (execPktMailAck h msg pkt done
    hops s) := by
  unfold execPktMailAck
  try dsimp only
  repeat' first
    | exact fun p hp => hT p (by simp only [touchExecPktMailAck, hp, Bool.or_true, Bool.true_or])
    | intro _
    | with_reducible assumption
    | with_reducible exact hks
    | with_reducible apply HasRes.next
    | with_reducible apply HasRes.ite
    | with_reducible apply Has.ite
    | with_reducible apply keeps_carry
    | with_reducible apply keeps_dropStale
    | with_reducible apply keeps_setMail
    | with_reducible apply keeps_startMails
    | simp only [Has.same hK]
    | dsimp only
    | split

def touchMailRefused (p : Option Reg) : Bool := touchDropStale p || touchStartMails p

theorem keeps_mailRefused (hK : Closed T K) (s : State) (h : Header) (msg code : Nat) (hT : ∀ p, touchMailRefused p
    = true → T p = true) (hks : Has K s) : Has K (State.mailRefused s h msg code) := by
  unfold State.mailRefused
  try dsimp only
  repeat' first
    | exact fun p hp => hT p (by simp only [touchMailRefused, hp, Bool.or_true, Bool.true_or])
    | intro _
    | with_reducible assumption
    | with_reducible exact hks
    | with_reducible apply Has.ite
    | with_reducible apply keeps_dropStale
    | with_reducible apply keeps_setMail
    | with_reducible apply keeps_startMails
    | simp only [Has.same hK]
    | dsimp only
    | split

def touchExecPktNack (p : Option Reg) : Bool := touchAnswerArrives p || touchCarry p || touchMailRefused p

theorem keeps_execPktNack (hK : Closed T K) (q : Fin 17) (h : Header) (stale : Bool) (x : NackInfo) (s : State) (hT
    : ∀ p, touchExecPktNack p = true → T p = true) (hks : Has K s) : HasRes K (execPktNack q h stale x s) := by
  unfold execPktNack
  try dsimp only
  repeat' first
    | exact fun p hp => hT p (by simp only [touchExecPktNack, hp, Bool.or_true, Bool.true_or])
    | intro _
    | with_reducible assumption
    | with_reducible exact hks
    | with_reducible apply HasRes.next
    | with_reducible apply HasRes.ite
    | with_reducible apply Has.ite
    | with_reducible apply keeps_answerArrives
    | with_reducible apply keeps_carry
    | with_reducible apply keeps_mailRefused
    | dsimp only
    | split

def touchExecMailRetransmitTimeout (p : Option Reg) : Bool := touchAddReg .mailRetrans p || touchLogError p ||
  touchPushMail p || touchStartMails p

theorem keeps_execMailRetransmitTimeout (hK : Closed T K) (lnode : Fin 1048576) (s : State) (hT : ∀ p,
    touchExecMailRetransmitTimeout p = true → T p = true) (hks : Has K s) : HasRes K (execMailRetransmitTimeout
    lnode s) := by
  unfold execMailRetransmitTimeout
  try dsimp only
  repeat' first
    | exact fun p hp => hT p (by simp only [touchExecMailRetransmitTimeout, hp, Bool.or_true, Bool.true_or])
    | intro _
    | with_reducible assumption
    | with_reducible exact hks
    | with_reducible apply HasRes.next
    | with_reducible apply HasRes.ite
    | with_reducible apply Has.ite
    | with_reducible apply keeps_addReg
    | with_reducible apply keeps_logError
    | with_reducible apply keeps_pushMail
    | with_reducible apply keeps_setMail
    | with_reducible apply keeps_startMails
    | simp only [Has.same hK]
    | dsimp only
    | split

end Sys2Proof.Machine
end

