-- ==== Sys2Proof/Laws/KeepsLinks.lean ====
section
/-! SUPPORT. What the operations of Machine/Links.lean keep, and the registers that each may change. -/

namespace Sys2Proof.Machine

variable {T : Option Reg → Bool} {K : State → Prop}

def touchSetLink (p : Option Reg) : Bool := touchChange .linkGen p || touchChange .linkState p || touchDegrade p ||
  touchLinksChanged p || touchLower .degradeCause p || touchSetFlag .linkQuiet p || touchSetFlag .linkWasUp p ||
  touchSetFlag .linksUp p || touchSetReg .flitSeq p

theorem keeps_setLink (hK : Closed T K) (s : State) (l v : Nat) (hT : ∀ p, touchSetLink p = true → T p = true) (hks
    : Has K s) : Has K (State.setLink s l v) := by
  unfold State.setLink
  try dsimp only
  repeat' first
    | exact fun p hp => hT p (by simp only [touchSetLink, hp, Bool.or_true, Bool.true_or])
    | intro _
    | with_reducible assumption
    | with_reducible exact hks
    | with_reducible apply Has.ite
    | with_reducible apply keeps_change
    | with_reducible apply keeps_degrade
    | with_reducible apply keeps_dropLink
    | with_reducible apply keeps_linksChanged
    | with_reducible apply keeps_lower
    | with_reducible apply keeps_pumpLink
    | with_reducible apply keeps_setFlag
    | with_reducible apply keeps_setReg
    | dsimp only
    | split

def touchLoseLink (p : Option Reg) : Bool := touchLogError p || touchSetLink p

theorem keeps_loseLink (hK : Closed T K) (s : State) (l : Nat) (hT : ∀ p, touchLoseLink p = true → T p = true) (hks
    : Has K s) : Has K (State.loseLink s l) := by
  unfold State.loseLink
  try dsimp only
  repeat' first
    | exact fun p hp => hT p (by simp only [touchLoseLink, hp, Bool.or_true, Bool.true_or])
    | intro _
    | with_reducible assumption
    | with_reducible exact hks
    | with_reducible apply Has.ite
    | with_reducible apply keeps_endTest
    | with_reducible apply keeps_logError
    | with_reducible apply keeps_setLink
    | with_reducible apply Has.foldl
    | with_reducible apply Has1.foldl
    | with_reducible exact Has1.proj (by with_reducible assumption)
    | with_reducible apply Has1.mk
    | dsimp only
    | split

def touchExecLinkTrainingStart (p : Option Reg) : Bool := touchSetLink p

theorem keeps_execLinkTrainingStart (hK : Closed T K) (l : Fin 24) (s : State) (hT : ∀ p, touchExecLinkTrainingStart p
    = true → T p = true) (hks : Has K s) : HasRes K (execLinkTrainingStart l s) := by
  unfold execLinkTrainingStart
  try dsimp only
  repeat' first
    | exact fun p hp => hT p hp
    | intro _
    | with_reducible assumption
    | with_reducible exact hks
    | with_reducible apply HasRes.next
    | with_reducible apply HasRes.ite
    | with_reducible apply Has.ite
    | with_reducible apply keeps_setLink
    | dsimp only
    | split

def touchExecLinkUp (p : Option Reg) : Bool := touchChange .linkGen p || touchRaise .alertCause p || touchSetLink p ||
  touchSetReg .linkPeer p

theorem keeps_execLinkUp (hK : Closed T K) (l : Fin 24) (far : FarEnd) (s : State) (hT : ∀ p, touchExecLinkUp p = true
    → T p = true) (hks : Has K s) : HasRes K (execLinkUp l far s) := by
  unfold execLinkUp
  try dsimp only
  repeat' first
    | exact fun p hp => hT p (by simp only [touchExecLinkUp, hp, Bool.or_true, Bool.true_or])
    | intro _
    | with_reducible assumption
    | with_reducible exact hks
    | with_reducible apply HasRes.next
    | with_reducible apply HasRes.ite
    | with_reducible apply Has.ite
    | with_reducible apply keeps_change
    | with_reducible apply keeps_raise
    | with_reducible apply keeps_setLink
    | with_reducible apply keeps_setReg
    | dsimp only
    | split

def touchExecLinkDetectRetry (p : Option Reg) : Bool := touchSetLink p

theorem keeps_execLinkDetectRetry (hK : Closed T K) (l : Fin 24) (signal : Bool) (s : State) (hT : ∀ p,
    touchExecLinkDetectRetry p = true → T p = true) (hks : Has K s) : HasRes K (execLinkDetectRetry l signal s) := by
  unfold execLinkDetectRetry
  try dsimp only
  repeat' first
    | exact fun p hp => hT p hp
    | intro _
    | with_reducible assumption
    | with_reducible exact hks
    | with_reducible apply HasRes.next
    | with_reducible apply HasRes.ite
    | with_reducible apply Has.ite
    | with_reducible apply keeps_setLink
    | dsimp only
    | split

def touchExecLinkFarEndIdle (p : Option Reg) : Bool := touchSetLink p

theorem keeps_execLinkFarEndIdle (hK : Closed T K) (l : Fin 24) (s : State) (hT : ∀ p, touchExecLinkFarEndIdle p =
    true → T p = true) (hks : Has K s) : HasRes K (execLinkFarEndIdle l s) := by
  unfold execLinkFarEndIdle
  try dsimp only
  repeat' first
    | exact fun p hp => hT p hp
    | intro _
    | with_reducible assumption
    | with_reducible exact hks
    | with_reducible apply HasRes.next
    | with_reducible apply HasRes.ite
    | with_reducible apply Has.ite
    | with_reducible apply keeps_setLink
    | simp only [Has.same hK]
    | dsimp only
    | split

def touchExecLinkAbsentTimeout (p : Option Reg) : Bool := touchSetFlag .linkQuiet p

theorem keeps_execLinkAbsentTimeout (hK : Closed T K) (l : Fin 24) (s : State) (hT : ∀ p, touchExecLinkAbsentTimeout p
    = true → T p = true) (hks : Has K s) : HasRes K (execLinkAbsentTimeout l s) := by
  unfold execLinkAbsentTimeout
  try dsimp only
  repeat' first
    | exact fun p hp => hT p hp
    | intro _
    | with_reducible assumption
    | with_reducible exact hks
    | with_reducible apply HasRes.next
    | with_reducible apply HasRes.ite
    | with_reducible apply Has.ite
    | with_reducible apply keeps_setFlag
    | dsimp only
    | split

def touchExecLaneTestStart (p : Option Reg) : Bool := touchParityPersistent p || touchSetLink p

theorem keeps_execLaneTestStart (hK : Closed T K) (l : Fin 24) (lane : Fin 9) (s : State) (hT : ∀ p,
    touchExecLaneTestStart p = true → T p = true) (hks : Has K s) : HasRes K (execLaneTestStart l lane s) := by
  unfold execLaneTestStart
  try dsimp only
  repeat' first
    | exact fun p hp => hT p (by simp only [touchExecLaneTestStart, hp, Bool.or_true, Bool.true_or])
    | intro _
    | with_reducible assumption
    | with_reducible exact hks
    | with_reducible apply HasRes.next
    | with_reducible apply HasRes.ite
    | with_reducible apply Has.ite
    | with_reducible apply keeps_parityPersistent
    | with_reducible apply keeps_setLink
    | dsimp only
    | split

def touchExecLaneTestComplete (p : Option Reg) : Bool := touchChange .laneMap p || touchDegrade p || touchLogError p
  || touchLoseLink p || touchSetLink p

theorem keeps_execLaneTestComplete (hK : Closed T K) (l : Fin 24) (pass completes : Bool) (s : State) (hT : ∀ p,
    touchExecLaneTestComplete p = true → T p = true) (hks : Has K s) : HasRes K (execLaneTestComplete l pass
    completes s) := by
  unfold execLaneTestComplete
  try dsimp only
  repeat' first
    | exact fun p hp => hT p (by simp only [touchExecLaneTestComplete, hp, Bool.or_true, Bool.true_or])
    | intro _
    | with_reducible assumption
    | with_reducible exact hks
    | with_reducible apply HasRes.next
    | with_reducible apply HasRes.ite
    | with_reducible apply Has.ite
    | with_reducible apply keeps_change
    | with_reducible apply keeps_degrade
    | with_reducible apply keeps_endTest
    | with_reducible apply keeps_logError
    | with_reducible apply keeps_loseLink
    | with_reducible apply keeps_setLink
    | dsimp only
    | split

def touchAckFlits (_ : Option Reg) : Bool := false

theorem keeps_ackFlits (hK : Closed T K) (s : State) (l want : Nat) (hks : Has K s) : Has K (State.ackFlits s l
    want) := by
  unfold State.ackFlits
  try dsimp only
  repeat' first
    | intro _
    | with_reducible assumption
    | with_reducible exact hks
    | with_reducible apply Has.ite
    | with_reducible apply keeps_pumpLink
    | simp only [Has.same hK]
    | dsimp only
    | split

def touchResendFrom (_ : Option Reg) : Bool := false

theorem keeps_resendFrom (hK : Closed T K) (s : State) (l n : Nat) (hks : Has K s) : Has K (State.resendFrom s l n)
    := by
  unfold State.resendFrom
  try dsimp only
  repeat' first
    | intro _
    | with_reducible assumption
    | with_reducible exact hks
    | with_reducible apply Has.ite
    | with_reducible apply keeps_send
    | with_reducible apply Has.foldl
    | with_reducible apply Has1.foldl
    | with_reducible exact Has1.proj (by with_reducible assumption)
    | with_reducible apply Has1.mk
    | dsimp only
    | split

def touchExecFlitReceive (p : Option Reg) : Bool := touchAddReg .fecCorrected p || touchAddReg .linkRetries p ||
  touchLogError p || touchSetReg .flitSeq p

theorem keeps_execFlitReceive (hK : Closed T K) (l : Fin 24) (f : FlitControl) (crcOk : Bool) (corrected : Nat) (s :
    State) (hT : ∀ p, touchExecFlitReceive p = true → T p = true) (hks : Has K s) : HasRes K (execFlitReceive l f
    crcOk corrected s) := by
  unfold execFlitReceive
  try dsimp only
  repeat' first
    | exact fun p hp => hT p (by simp only [touchExecFlitReceive, hp, Bool.or_true, Bool.true_or])
    | intro _
    | with_reducible assumption
    | with_reducible exact hks
    | with_reducible apply HasRes.next
    | with_reducible apply HasRes.ite
    | with_reducible apply Has.ite
    | with_reducible apply keeps_ackFlits
    | with_reducible apply keeps_addReg
    | with_reducible apply keeps_logError
    | with_reducible apply keeps_resendFrom
    | with_reducible apply keeps_send
    | with_reducible apply keeps_setReg
    | dsimp only
    | split

def touchExecLinkAckTimeout (p : Option Reg) : Bool := touchLoseLink p

theorem keeps_execLinkAckTimeout (hK : Closed T K) (l : Fin 24) (s : State) (hT : ∀ p, touchExecLinkAckTimeout p =
    true → T p = true) (hks : Has K s) : HasRes K (execLinkAckTimeout l s) := by
  unfold execLinkAckTimeout
  try dsimp only
  repeat' first
    | exact fun p hp => hT p hp
    | intro _
    | with_reducible assumption
    | with_reducible exact hks
    | with_reducible apply HasRes.next
    | with_reducible apply HasRes.ite
    | with_reducible apply Has.ite
    | with_reducible apply keeps_loseLink
    | dsimp only
    | split

def touchLinkCommand (p : Option Reg) : Bool := touchSetLink p || touchSetReg .linkCmd p

theorem keeps_linkCommand (hK : Closed T K) (l v : Nat) (s : State) (hT : ∀ p, touchLinkCommand p = true → T p = true)
    (hks : Has K s) : Has K (linkCommand l v s) := by
  unfold linkCommand
  try dsimp only
  repeat' first
    | exact fun p hp => hT p (by simp only [touchLinkCommand, hp, Bool.or_true, Bool.true_or])
    | intro _
    | with_reducible assumption
    | with_reducible exact hks
    | with_reducible apply Has.ite
    | with_reducible apply keeps_setLink
    | with_reducible apply keeps_setReg
    | simp only [Has.same hK]
    | dsimp only
    | split

def touchExecLinkCmdRetrain (p : Option Reg) : Bool := touchWriteRequest p || touchLinkCommand p

theorem keeps_execLinkCmdRetrain (hK : Closed T K) (q : Requester) (l : Fin 24) (s : State) (hT : ∀ p,
    touchExecLinkCmdRetrain p = true → T p = true) (hks : Has K s) : HasRes K (execLinkCmdRetrain q l s) := by
  unfold execLinkCmdRetrain
  try dsimp only
  repeat' first
    | exact fun p hp => hT p (by simp only [touchExecLinkCmdRetrain, hp, Bool.or_true, Bool.true_or])
    | intro _
    | with_reducible assumption
    | with_reducible exact hks
    | with_reducible apply HasRes.next
    | with_reducible apply HasRes.ite
    | with_reducible apply Has.ite
    | with_reducible apply keeps_writeRequest
    | with_reducible apply keeps_linkCommand
    | dsimp only
    | split

def touchExecLinkCmdDisable (p : Option Reg) : Bool := touchWriteRequest p || touchLinkCommand p

theorem keeps_execLinkCmdDisable (hK : Closed T K) (q : Requester) (l : Fin 24) (s : State) (hT : ∀ p,
    touchExecLinkCmdDisable p = true → T p = true) (hks : Has K s) : HasRes K (execLinkCmdDisable q l s) := by
  unfold execLinkCmdDisable
  try dsimp only
  repeat' first
    | exact fun p hp => hT p (by simp only [touchExecLinkCmdDisable, hp, Bool.or_true, Bool.true_or])
    | intro _
    | with_reducible assumption
    | with_reducible exact hks
    | with_reducible apply HasRes.next
    | with_reducible apply HasRes.ite
    | with_reducible apply Has.ite
    | with_reducible apply keeps_writeRequest
    | with_reducible apply keeps_linkCommand
    | dsimp only
    | split

def touchExecLinkCmdEnable (p : Option Reg) : Bool := touchWriteRequest p || touchLinkCommand p

theorem keeps_execLinkCmdEnable (hK : Closed T K) (q : Requester) (l : Fin 24) (s : State) (hT : ∀ p,
    touchExecLinkCmdEnable p = true → T p = true) (hks : Has K s) : HasRes K (execLinkCmdEnable q l s) := by
  unfold execLinkCmdEnable
  try dsimp only
  repeat' first
    | exact fun p hp => hT p (by simp only [touchExecLinkCmdEnable, hp, Bool.or_true, Bool.true_or])
    | intro _
    | with_reducible assumption
    | with_reducible exact hks
    | with_reducible apply HasRes.next
    | with_reducible apply HasRes.ite
    | with_reducible apply Has.ite
    | with_reducible apply keeps_writeRequest
    | with_reducible apply keeps_linkCommand
    | dsimp only
    | split

def touchExecLinkStateMessage (p : Option Reg) : Bool := touchCheckPartner p || touchCountDetours p

theorem keeps_execLinkStateMessage (hK : Closed T K) (q : Fin 17) (states : LinkCodes) (s : State) (hT : ∀ p,
    touchExecLinkStateMessage p = true → T p = true) (hks : Has K s) : HasRes K (execLinkStateMessage q states s) :=
    by
  unfold execLinkStateMessage
  try dsimp only
  repeat' first
    | exact fun p hp => hT p (by simp only [touchExecLinkStateMessage, hp, Bool.or_true, Bool.true_or])
    | intro _
    | with_reducible assumption
    | with_reducible exact hks
    | with_reducible apply HasRes.next
    | with_reducible apply HasRes.ite
    | with_reducible apply Has.ite
    | with_reducible apply keeps_checkPartner
    | with_reducible apply keeps_countDetours
    | with_reducible apply keeps_resendTo
    | with_reducible apply keeps_retryFar
    | with_reducible apply Has.foldl
    | with_reducible apply Has1.foldl
    | with_reducible exact Has1.proj (by with_reducible assumption)
    | with_reducible apply Has1.mk
    | simp only [Has.same hK]
    | dsimp only
    | split

def touchExecFabricPortTestComplete (p : Option Reg) : Bool := touchEndTest p || touchLoseLink p

theorem keeps_execFabricPortTestComplete (hK : Closed T K) (fd : Fin 4) (port : Fin 6) (pass : Bool) (s : State) (hT :
    ∀ p, touchExecFabricPortTestComplete p = true → T p = true) (hks : Has K s) : HasRes K (execFabricPortTestComplete
    fd port pass s) := by
  unfold execFabricPortTestComplete
  try dsimp only
  repeat' first
    | exact fun p hp => hT p (by simp only [touchExecFabricPortTestComplete, hp, Bool.or_true, Bool.true_or])
    | intro _
    | with_reducible assumption
    | with_reducible exact hks
    | with_reducible apply HasRes.next
    | with_reducible apply HasRes.ite
    | with_reducible apply Has.ite
    | with_reducible apply keeps_endTest
    | with_reducible apply keeps_loseLink
    | dsimp only
    | split

end Sys2Proof.Machine
end

