-- ==== Sys2Proof/Laws/KeepsDigest.lean ====
section
/-! SUPPORT. What the operations of Machine/Digest.lean keep, and the registers that each may change. -/

namespace Sys2Proof.Machine

variable {T : Option Reg → Bool} {K : State → Prop}

def touchLogChunks (p : Option Reg) : Bool := touchJobWrite p

theorem keeps_logChunks (hK : Closed T K) (s : State) (b : Nat) (cs : List ChunkRecord) (hT : ∀ p, touchLogChunks p = true → T p = true)
    (hks : Has K s) : Has K (State.logChunks s b cs) := by
  induction cs generalizing s with
  | nil => exact hks
  | cons c cs ih =>
    unfold State.logChunks
    try dsimp only
    repeat' first
      | exact fun p hp => hT p hp
      | intro _
      | with_reducible assumption
      | with_reducible exact hks
      | with_reducible apply ih
      | with_reducible apply keeps_jobWrite
      | with_reducible apply keeps_setBay
      | simp only [Has.same hK]
      | with_reducible apply Has.ite
      | dsimp only
      | split

def touchExecDigest (p : Option Reg) : Bool := touchLogChunks p || touchPerform p || touchSetBay p

theorem keeps_execDigest (hK : Closed T K) (b : Fin 256) (s : State) (hT : ∀ p, touchExecDigest p = true → T p = true)
    (hks : Has K s) : HasRes K (execDigest b s) := by
  unfold execDigest
  try dsimp only
  repeat' first
    | exact fun p hp => hT p (by simp only [touchExecDigest, hp, Bool.or_true, Bool.true_or])
    | intro _
    | with_reducible assumption
    | with_reducible exact hks
    | with_reducible apply HasRes.next
    | with_reducible apply HasRes.ite
    | with_reducible apply Has.ite
    | with_reducible apply keeps_logChunks
    | with_reducible apply keeps_perform
    | with_reducible apply keeps_setBay
    | simp only [Has.same hK]
    | dsimp only
    | split

end Sys2Proof.Machine
end

