-- ==== Sys2Proof/Laws/KeepsLoss.lean ====
section
/-! SUPPORT. What the operations of Machine/Loss.lean keep, and the registers that each may change. -/

namespace Sys2Proof.Machine

variable {T : Option Reg → Bool} {K : State → Prop}

def touchAbandonBay (p : Option Reg) : Bool := touchEmitRecord p || touchHaltTable p || touchSetBay p

theorem keeps_abandonBay (hK : Closed T K) (s : State) (b : Nat) (hT : ∀ p, touchAbandonBay p = true → T p = true)
    (hks : Has K s) : Has K (State.abandonBay s b) := by
  unfold State.abandonBay
  try dsimp only
  repeat' first
    | exact fun p hp => hT p (by simp only [touchAbandonBay, hp, Bool.or_true, Bool.true_or])
    | intro _
    | with_reducible assumption
    | with_reducible exact hks
    | with_reducible apply Has.ite
    | with_reducible apply keeps_emitRecord
    | with_reducible apply keeps_haltTable
    | with_reducible apply keeps_setBay
    | with_reducible apply Has.foldl
    | with_reducible apply Has1.foldl
    | with_reducible exact Has1.proj (by with_reducible assumption)
    | with_reducible apply Has1.mk
    | simp only [Has.same hK]
    | dsimp only
    | split

def touchAbandonAll (p : Option Reg) : Bool := touchAbandonBay p

theorem keeps_abandonAll (hK : Closed T K) (s : State) (hT : ∀ p, touchAbandonAll p = true → T p = true) (hks : Has
    K s) : Has K (State.abandonAll s) := by
  unfold State.abandonAll
  try dsimp only
  repeat' first
    | exact fun p hp => hT p hp
    | intro _
    | with_reducible assumption
    | with_reducible exact hks
    | with_reducible apply Has.ite
    | with_reducible apply keeps_abandonBay
    | with_reducible apply Has.foldl
    | with_reducible apply Has1.foldl
    | with_reducible exact Has1.proj (by with_reducible assumption)
    | with_reducible apply Has1.mk
    | simp only [Has.same hK]
    | dsimp only
    | split

def touchDataLoss (p : Option Reg) : Bool := touchAbandonAll p || touchLogError p || touchSetRecovery p ||
  touchStopHarts p

theorem keeps_dataLoss (hK : Closed T K) (s : State) (e : ErrorEvent) (hT : ∀ p, touchDataLoss p = true → T p = true)
    (hks : Has K s) : Has K (State.dataLoss s e) := by
  unfold State.dataLoss
  try dsimp only
  repeat' first
    | exact fun p hp => hT p (by simp only [touchDataLoss, hp, Bool.or_true, Bool.true_or])
    | intro _
    | with_reducible assumption
    | with_reducible exact hks
    | with_reducible apply Has.ite
    | with_reducible apply keeps_abandonAll
    | with_reducible apply keeps_logError
    | with_reducible apply keeps_setRecovery
    | with_reducible apply keeps_stopHarts
    | simp only [Has.same hK]
    | dsimp only
    | split

def touchLoseModel (p : Option Reg) : Bool := touchDataLoss p

theorem keeps_loseModel (hK : Closed T K) (s : State) (rs : List (Nat × Nat)) (hT : ∀ p, touchLoseModel p = true → T p
    = true) (hks : Has K s) : Has K (State.loseModel s rs) := by
  unfold State.loseModel
  try dsimp only
  repeat' first
    | exact fun p hp => hT p hp
    | intro _
    | with_reducible assumption
    | with_reducible exact hks
    | with_reducible apply Has.ite
    | with_reducible apply keeps_dataLoss
    | simp only [Has.same hK]
    | dsimp only
    | split

def touchShowSlots (p : Option Reg) : Bool := touchChange .slotValid p || touchChange .slotDrained p || touchSetReg
  .slotInfo p

theorem keeps_showSlots (hK : Closed T K) (s : State) (hT : ∀ p, touchShowSlots p = true → T p = true) (hks : Has K s)
    : Has K (State.showSlots s) := by
  unfold State.showSlots
  try dsimp only
  repeat' first
    | exact fun p hp => hT p (by simp only [touchShowSlots, hp, Bool.or_true, Bool.true_or])
    | intro _
    | with_reducible assumption
    | with_reducible exact hks
    | with_reducible apply Has.ite
    | with_reducible apply keeps_change
    | with_reducible apply keeps_setReg
    | dsimp only
    | split

def touchSetSlot (p : Option Reg) : Bool := touchShowSlots p

theorem keeps_setSlot (hK : Closed T K) (s : State) (k : Nat) (x : Slot) (hT : ∀ p, touchSetSlot p = true → T p =
    true) (hks : Has K s) : Has K (State.setSlot s k x) := by
  unfold State.setSlot
  try dsimp only
  repeat' first
    | exact fun p hp => hT p hp
    | intro _
    | with_reducible assumption
    | with_reducible exact hks
    | with_reducible apply Has.ite
    | with_reducible apply keeps_showSlots
    | simp only [Has.same hK]
    | dsimp only
    | split

def touchSnapshotInvalid (p : Option Reg) : Bool := touchLogError p

theorem keeps_snapshotInvalid (hK : Closed T K) (s : State) (unitKind unit cause : Nat) (hT : ∀ p,
    touchSnapshotInvalid p = true → T p = true) (hks : Has K s) : Has K (State.snapshotInvalid s unitKind unit cause)
    := by
  unfold State.snapshotInvalid
  try dsimp only
  repeat' first
    | exact fun p hp => hT p hp
    | intro _
    | with_reducible assumption
    | with_reducible exact hks
    | with_reducible apply Has.ite
    | with_reducible apply keeps_logError
    | simp only [Has.same hK]
    | dsimp only
    | split

def touchStopCopy (p : Option Reg) : Bool := touchSetSlot p || touchSnapshotInvalid p

theorem keeps_stopCopy (hK : Closed T K) (s : State) (cause : Option Nat) (hT : ∀ p, touchStopCopy p = true → T p =
    true) (hks : Has K s) : Has K (State.stopCopy s cause) := by
  unfold State.stopCopy
  try dsimp only
  repeat' first
    | exact fun p hp => hT p (by simp only [touchStopCopy, hp, Bool.or_true, Bool.true_or])
    | intro _
    | with_reducible assumption
    | with_reducible exact hks
    | with_reducible apply Has.ite
    | with_reducible apply keeps_setSlot
    | with_reducible apply keeps_snapshotInvalid
    | with_reducible apply Has.foldl
    | with_reducible apply Has1.foldl
    | with_reducible exact Has1.proj (by with_reducible assumption)
    | with_reducible apply Has1.mk
    | dsimp only
    | split

def touchMapChanged (p : Option Reg) : Bool := touchShowShards p || touchShowSlots p

theorem keeps_mapChanged (hK : Closed T K) (s : State) (hT : ∀ p, touchMapChanged p = true → T p = true) (hks : Has K
    s) : Has K (State.mapChanged s) := by
  unfold State.mapChanged
  try dsimp only
  repeat' first
    | exact fun p hp => hT p (by simp only [touchMapChanged, hp, Bool.or_true, Bool.true_or])
    | intro _
    | with_reducible assumption
    | with_reducible exact hks
    | with_reducible apply Has.ite
    | with_reducible apply keeps_showShards
    | with_reducible apply keeps_showSlots
    | simp only [Has.same hK]
    | dsimp only
    | split

end Sys2Proof.Machine
end

