-- ==== Sys2Proof/Laws/KeepsPower.lean ====
section
/-! SUPPORT. What the operations of Machine/Power.lean keep, and the registers that each may change. -/

namespace Sys2Proof.Machine

variable {T : Option Reg → Bool} {K : State → Prop}

def touchExecVinAonApplied (_ : Option Reg) : Bool := true

theorem keeps_execVinAonApplied (hK : Closed T K) (s : State) (hT : ∀ p, touchExecVinAonApplied p = true → T p = true)
    (hks : Has K s) : HasRes K (execVinAonApplied s) := by
  unfold execVinAonApplied
  split
  · exact HasRes.next hks
  · refine HasRes.next (keeps_setReg hK _ _ (fun p _ => hT p rfl) _ _ (keeps_setReg hK _ _ (fun p _ => hT p rfl) _ _
      (keeps_setReg hK _ _ (fun p _ => hT p rfl) _ _ ⟨?_⟩)))
    exact hK.same
      { s with regs := s.regs.filter fun (e : (Reg × Nat) × Nat) => decide (e.1.1.info.domain = .board ∧ e.1.1 ≠ .aonAbsent) }
      _ rfl rfl rfl
      (hK.filterRegs s (fun r => decide (r.info.domain = .board ∧ r ≠ .aonAbsent)) (fun r _ => hT _ rfl) hks.out)

def touchExecVinAonLost (p : Option Reg) : Bool := touchClearDomain .always p || touchLosePower p || touchSetReg
  .aonAbsent p

theorem keeps_execVinAonLost (hK : Closed T K) (s : State) (hT : ∀ p, touchExecVinAonLost p = true → T p = true) (hks
    : Has K s) : HasRes K (execVinAonLost s) := by
  unfold execVinAonLost
  try dsimp only
  repeat' first
    | exact fun p hp => hT p (by simp only [touchExecVinAonLost, hp, Bool.or_true, Bool.true_or])
    | intro _
    | with_reducible assumption
    | with_reducible exact hks
    | with_reducible apply HasRes.next
    | with_reducible apply HasRes.ite
    | with_reducible apply Has.ite
    | with_reducible apply keeps_clearDomain
    | with_reducible apply keeps_losePower
    | with_reducible apply keeps_setReg
    | simp only [Has.same hK]
    | dsimp only
    | split

def touchExecCrystalStable (p : Option Reg) : Bool := touchEnter p || touchSetReg .xtalState p || touchSetReg
  .mclkRuns p || touchSetReg .clkReady p

theorem keeps_execCrystalStable (hK : Closed T K) (s : State) (hT : ∀ p, touchExecCrystalStable p = true → T p = true)
    (hks : Has K s) : HasRes K (execCrystalStable s) := by
  unfold execCrystalStable
  try dsimp only
  repeat' first
    | exact fun p hp => hT p (by simp only [touchExecCrystalStable, hp, Bool.or_true, Bool.true_or])
    | intro _
    | with_reducible assumption
    | with_reducible exact hks
    | with_reducible apply HasRes.next
    | with_reducible apply HasRes.ite
    | with_reducible apply Has.ite
    | with_reducible apply keeps_enter
    | with_reducible apply keeps_setReg
    | with_reducible apply Has.foldl
    | with_reducible apply Has1.foldl
    | with_reducible exact Has1.proj (by with_reducible assumption)
    | with_reducible apply Has1.mk
    | dsimp only
    | split

def touchExecCrystalFailTimeout (p : Option Reg) : Bool := touchSetReg .xtalState p

theorem keeps_execCrystalFailTimeout (hK : Closed T K) (s : State) (hT : ∀ p, touchExecCrystalFailTimeout p = true → T
    p = true) (hks : Has K s) : HasRes K (execCrystalFailTimeout s) := by
  unfold execCrystalFailTimeout
  try dsimp only
  repeat' first
    | exact fun p hp => hT p hp
    | intro _
    | with_reducible assumption
    | with_reducible exact hks
    | with_reducible apply HasRes.next
    | with_reducible apply HasRes.ite
    | with_reducible apply Has.ite
    | with_reducible apply keeps_setReg
    | dsimp only
    | split

def touchDomainReset (p : Option Reg) : Bool := touchAddReg .domainResets p || touchLogError p

theorem keeps_domainReset (hK : Closed T K) (s : State) (k outcome : Nat) (hT : ∀ p, touchDomainReset p = true → T p =
    true) (hks : Has K s) : Has K (State.domainReset s k outcome) := by
  unfold State.domainReset
  try dsimp only
  repeat' first
    | exact fun p hp => hT p (by simp only [touchDomainReset, hp, Bool.or_true, Bool.true_or])
    | intro _
    | with_reducible assumption
    | with_reducible exact hks
    | with_reducible apply Has.ite
    | with_reducible apply keeps_addReg
    | with_reducible apply keeps_logError
    | simp only [Has.same hK]
    | dsimp only
    | split

def touchExecMclkStop (p : Option Reg) : Bool := touchDomainReset p || touchEnterFaulted p || touchSetReg .mclkRuns p
  || touchSetReg .xtalState p || touchSetReg .mgmtLink p || touchSetReg .mgmtSilent p || touchSetReg .clkReady p ||
  touchSetReg .clkMhz p

theorem keeps_execMclkStop (hK : Closed T K) (s : State) (hT : ∀ p, touchExecMclkStop p = true → T p = true) (hks :
    Has K s) : HasRes K (execMclkStop s) := by
  unfold execMclkStop
  try dsimp only
  repeat' first
    | exact fun p hp => hT p (by simp only [touchExecMclkStop, hp, Bool.or_true, Bool.true_or])
    | intro _
    | with_reducible assumption
    | with_reducible exact hks
    | with_reducible apply HasRes.next
    | with_reducible apply HasRes.ite
    | with_reducible apply Has.ite
    | with_reducible apply keeps_domainReset
    | with_reducible apply keeps_enterFaulted
    | with_reducible apply keeps_setReg
    | with_reducible apply Has.foldl
    | with_reducible apply Has1.foldl
    | with_reducible exact Has1.proj (by with_reducible assumption)
    | with_reducible apply Has1.mk
    | dsimp only
    | split

def touchExecVinMainInRange (p : Option Reg) : Bool := touchEnter p || touchSetReg .vinMainIn p

theorem keeps_execVinMainInRange (hK : Closed T K) (s : State) (hT : ∀ p, touchExecVinMainInRange p = true → T p =
    true) (hks : Has K s) : HasRes K (execVinMainInRange s) := by
  unfold execVinMainInRange
  try dsimp only
  repeat' first
    | exact fun p hp => hT p (by simp only [touchExecVinMainInRange, hp, Bool.or_true, Bool.true_or])
    | intro _
    | with_reducible assumption
    | with_reducible exact hks
    | with_reducible apply HasRes.next
    | with_reducible apply HasRes.ite
    | with_reducible apply Has.ite
    | with_reducible apply keeps_enter
    | with_reducible apply keeps_setReg
    | dsimp only
    | split

def touchExecPwrOkAsserted (p : Option Reg) : Bool := touchChange .physId p || touchHoldInReset p || touchSetReg
  .pwrOk p || touchSetReg .posLatch p || touchSetReg .posStrap p

theorem keeps_execPwrOkAsserted (hK : Closed T K) (pos : Fin 32) (s : State) (hT : ∀ p, touchExecPwrOkAsserted p =
    true → T p = true) (hks : Has K s) : HasRes K (execPwrOkAsserted pos s) := by
  unfold execPwrOkAsserted
  try dsimp only
  repeat' first
    | exact fun p hp => hT p (by simp only [touchExecPwrOkAsserted, hp, Bool.or_true, Bool.true_or])
    | intro _
    | with_reducible assumption
    | with_reducible exact hks
    | with_reducible apply HasRes.next
    | with_reducible apply HasRes.ite
    | with_reducible apply Has.ite
    | with_reducible apply keeps_change
    | with_reducible apply keeps_holdInReset
    | with_reducible apply keeps_setReg
    | dsimp only
    | split

def touchExecPwrOkDeasserted (p : Option Reg) : Bool := touchLosePower p || touchSetReg .vinMainIn p || touchSetReg
  .pwrOk p || touchSetReg .thermTrip p || touchSetReg .resetCause p

theorem keeps_execPwrOkDeasserted (hK : Closed T K) (vinMainLost : Bool) (s : State) (hT : ∀ p,
    touchExecPwrOkDeasserted p = true → T p = true) (hks : Has K s) : HasRes K (execPwrOkDeasserted vinMainLost s) :=
    by
  unfold execPwrOkDeasserted
  try dsimp only
  repeat' first
    | exact fun p hp => hT p (by simp only [touchExecPwrOkDeasserted, hp, Bool.or_true, Bool.true_or])
    | intro _
    | with_reducible assumption
    | with_reducible exact hks
    | with_reducible apply HasRes.next
    | with_reducible apply HasRes.ite
    | with_reducible apply Has.ite
    | with_reducible apply keeps_losePower
    | with_reducible apply keeps_setReg
    | dsimp only
    | split

def touchExecStackRailOutOfRange (p : Option Reg) : Bool := touchEnterFaulted p || touchLoseStacks p || touchSetReg
  .stackRailsIn p

theorem keeps_execStackRailOutOfRange (hK : Closed T K) (_rail : Fin 3) (s : State) (hT : ∀ p,
    touchExecStackRailOutOfRange p = true → T p = true) (hks : Has K s) : HasRes K (execStackRailOutOfRange _rail s)
    := by
  unfold execStackRailOutOfRange
  try dsimp only
  repeat' first
    | exact fun p hp => hT p (by simp only [touchExecStackRailOutOfRange, hp, Bool.or_true, Bool.true_or])
    | intro _
    | with_reducible assumption
    | with_reducible exact hks
    | with_reducible apply HasRes.next
    | with_reducible apply HasRes.ite
    | with_reducible apply Has.ite
    | with_reducible apply keeps_enterFaulted
    | with_reducible apply keeps_loseStacks
    | with_reducible apply keeps_setReg
    | dsimp only
    | split

def touchExecStackRailsInRange (p : Option Reg) : Bool := touchSetReg .stackRailsIn p || touchTryBeginInit p

theorem keeps_execStackRailsInRange (hK : Closed T K) (s : State) (hT : ∀ p, touchExecStackRailsInRange p = true → T p
    = true) (hks : Has K s) : HasRes K (execStackRailsInRange s) := by
  unfold execStackRailsInRange
  try dsimp only
  repeat' first
    | exact fun p hp => hT p (by simp only [touchExecStackRailsInRange, hp, Bool.or_true, Bool.true_or])
    | intro _
    | with_reducible assumption
    | with_reducible exact hks
    | with_reducible apply HasRes.next
    | with_reducible apply HasRes.ite
    | with_reducible apply Has.ite
    | with_reducible apply keeps_setReg
    | with_reducible apply keeps_tryBeginInit
    | dsimp only
    | split

def touchRecognised (p : Option Reg) : Bool := touchDraw p

theorem keeps_recognised (hK : Closed T K) (s : State) (width : Nat) (hT : ∀ p, touchRecognised p = true → T p = true) (hks : Has K s) :
    Has2 K (State.recognised s width) := by
  unfold State.recognised
  repeat' first
    | with_reducible exact Has2.mk hks
    | with_reducible apply Has2.ite
    | exact keeps_draw hK _ hks

def touchExecColdReset (p : Option Reg) : Bool := touchColdReset p || touchRecognised p || touchSetFlag .rstHeld p

theorem keeps_execColdReset (hK : Closed T K) (width : Nat) (s : State) (hT : ∀ p, touchExecColdReset p = true → T p =
    true) (hks : Has K s) : HasRes K (execColdReset width s) := by
  unfold execColdReset
  try dsimp only
  repeat' first
    | exact fun p hp => hT p (by simp only [touchExecColdReset, hp, Bool.or_true, Bool.true_or])
    | intro _
    | with_reducible assumption
    | with_reducible exact hks
    | with_reducible apply HasRes.next
    | with_reducible apply HasRes.ite
    | with_reducible apply Has.ite
    | with_reducible apply keeps_coldReset
    | with_reducible apply keeps_recognised
    | with_reducible apply keeps_setFlag
    | with_reducible refine Has2.of_eq ?_ (by assumption)
    | (with_reducible apply Has2.proj; with_reducible apply keeps_recognised)
    | dsimp only
    | split

def touchExecWarmReset (p : Option Reg) : Bool := touchColdReset p || touchRecognised p || touchSetFlag .rstHeld p ||
  touchSetReg .warmWaiting p || touchWarmReset p

theorem keeps_execWarmReset (hK : Closed T K) (width : Nat) (s : State) (hT : ∀ p, touchExecWarmReset p = true → T p =
    true) (hks : Has K s) : HasRes K (execWarmReset width s) := by
  unfold execWarmReset
  try dsimp only
  repeat' first
    | exact fun p hp => hT p (by simp only [touchExecWarmReset, hp, Bool.or_true, Bool.true_or])
    | intro _
    | with_reducible assumption
    | with_reducible exact hks
    | with_reducible apply HasRes.next
    | with_reducible apply HasRes.ite
    | with_reducible apply Has.ite
    | with_reducible apply keeps_coldReset
    | with_reducible apply keeps_recognised
    | with_reducible apply keeps_setFlag
    | with_reducible apply keeps_setReg
    | with_reducible apply keeps_warmReset
    | with_reducible refine Has2.of_eq ?_ (by assumption)
    | (with_reducible apply Has2.proj; with_reducible apply keeps_recognised)
    | dsimp only
    | split

def touchExecResetAfterFusePulse (p : Option Reg) : Bool := touchSetReg .warmWaiting p || touchSetReg .fusePulses p ||
  touchTryBeginInit p || touchWarmReset p

theorem keeps_execResetAfterFusePulse (hK : Closed T K) (s : State) (hT : ∀ p, touchExecResetAfterFusePulse p = true →
    T p = true) (hks : Has K s) : HasRes K (execResetAfterFusePulse s) := by
  unfold execResetAfterFusePulse
  try dsimp only
  repeat' first
    | exact fun p hp => hT p (by simp only [touchExecResetAfterFusePulse, hp, Bool.or_true, Bool.true_or])
    | intro _
    | with_reducible assumption
    | with_reducible exact hks
    | with_reducible apply HasRes.next
    | with_reducible apply HasRes.ite
    | with_reducible apply Has.ite
    | with_reducible apply keeps_setReg
    | with_reducible apply keeps_tryBeginInit
    | with_reducible apply keeps_warmReset
    | dsimp only
    | split

def touchExecResetReleased (p : Option Reg) : Bool := touchSetReg .rstHeld p || touchTryBeginInit p

theorem keeps_execResetReleased (hK : Closed T K) (s : State) (hT : ∀ p, touchExecResetReleased p = true → T p = true)
    (hks : Has K s) : HasRes K (execResetReleased s) := by
  unfold execResetReleased
  try dsimp only
  repeat' first
    | exact fun p hp => hT p (by simp only [touchExecResetReleased, hp, Bool.or_true, Bool.true_or])
    | intro _
    | with_reducible assumption
    | with_reducible exact hks
    | with_reducible apply HasRes.next
    | with_reducible apply HasRes.ite
    | with_reducible apply Has.ite
    | with_reducible apply keeps_setReg
    | with_reducible apply keeps_tryBeginInit
    | dsimp only
    | split

def touchExecPllALockTimeout (p : Option Reg) : Bool := touchChange .clkSel p || touchChange .clkPllSpare p ||
  touchSetReg .clkReady p || touchSetReg .clkMhz p || touchSetReg .pllFailed p

theorem keeps_execPllALockTimeout (hK : Closed T K) (k : Fin 48) (bLocks : Bool) (s : State) (hT : ∀ p,
    touchExecPllALockTimeout p = true → T p = true) (hks : Has K s) : HasRes K (execPllALockTimeout k bLocks s) := by
  unfold execPllALockTimeout
  try dsimp only
  repeat' first
    | exact fun p hp => hT p (by simp only [touchExecPllALockTimeout, hp, Bool.or_true, Bool.true_or])
    | intro _
    | with_reducible assumption
    | with_reducible exact hks
    | with_reducible apply HasRes.next
    | with_reducible apply HasRes.ite
    | with_reducible apply Has.ite
    | with_reducible apply keeps_change
    | with_reducible apply keeps_setReg
    | dsimp only
    | split

def touchExecPllLossOfLock (p : Option Reg) : Bool := touchSetReg .clkReady p || touchSetReg .clkMhz p || touchSetReg
  .clkSwitching p

theorem keeps_execPllLossOfLock (hK : Closed T K) (k : Fin 48) (s : State) (hT : ∀ p, touchExecPllLossOfLock p = true
    → T p = true) (hks : Has K s) : HasRes K (execPllLossOfLock k s) := by
  unfold execPllLossOfLock
  try dsimp only
  repeat' first
    | exact fun p hp => hT p (by simp only [touchExecPllLossOfLock, hp, Bool.or_true, Bool.true_or])
    | intro _
    | with_reducible assumption
    | with_reducible exact hks
    | with_reducible apply HasRes.next
    | with_reducible apply HasRes.ite
    | with_reducible apply Has.ite
    | with_reducible apply keeps_setReg
    | dsimp only
    | split

def touchExecClockMuxHang (p : Option Reg) : Bool := touchChange .clkSel p || touchChange .clkPllSpare p ||
  touchDomainReset p || touchSetReg .clkMhz p || touchSetReg .clkSwitching p || touchSetReg .clkReady p

theorem keeps_execClockMuxHang (hK : Closed T K) (k : Fin 48) (spareLocked : Bool) (s : State) (hT : ∀ p,
    touchExecClockMuxHang p = true → T p = true) (hks : Has K s) : HasRes K (execClockMuxHang k spareLocked s) := by
  unfold execClockMuxHang
  try dsimp only
  repeat' first
    | exact fun p hp => hT p (by simp only [touchExecClockMuxHang, hp, Bool.or_true, Bool.true_or])
    | intro _
    | with_reducible assumption
    | with_reducible exact hks
    | with_reducible apply HasRes.next
    | with_reducible apply HasRes.ite
    | with_reducible apply Has.ite
    | with_reducible apply keeps_change
    | with_reducible apply keeps_domainReset
    | with_reducible apply keeps_setReg
    | dsimp only
    | split

def touchExecSparePllLockTimeout (p : Option Reg) : Bool := touchEnterFaulted p

theorem keeps_execSparePllLockTimeout (hK : Closed T K) (k : Fin 48) (s : State) (hT : ∀ p,
    touchExecSparePllLockTimeout p = true → T p = true) (hks : Has K s) : HasRes K (execSparePllLockTimeout k s) := by
  unfold execSparePllLockTimeout
  try dsimp only
  repeat' first
    | exact fun p hp => hT p hp
    | intro _
    | with_reducible assumption
    | with_reducible exact hks
    | with_reducible apply HasRes.next
    | with_reducible apply HasRes.ite
    | with_reducible apply Has.ite
    | with_reducible apply keeps_enterFaulted
    | dsimp only
    | split

def touchStartSwitch (p : Option Reg) : Bool := touchSetReg .clkSwitching p

theorem keeps_startSwitch (hK : Closed T K) (k v : Nat) (s : State) (hT : ∀ p, touchStartSwitch p = true → T p = true)
    (hks : Has K s) : Has K (startSwitch k v s) := by
  unfold startSwitch
  try dsimp only
  repeat' first
    | exact fun p hp => hT p hp
    | intro _
    | with_reducible assumption
    | with_reducible exact hks
    | with_reducible apply Has.ite
    | with_reducible apply keeps_setReg
    | dsimp only
    | split

def touchExecClkSelWrite (p : Option Reg) : Bool := touchWriteRequest p || touchStartSwitch p

theorem keeps_execClkSelWrite (hK : Closed T K) (q : Requester) (k : Fin 48) (v : Byte) (s : State) (hT : ∀ p,
    touchExecClkSelWrite p = true → T p = true) (hks : Has K s) : HasRes K (execClkSelWrite q k v s) := by
  unfold execClkSelWrite
  try dsimp only
  repeat' first
    | exact fun p hp => hT p (by simp only [touchExecClkSelWrite, hp, Bool.or_true, Bool.true_or])
    | intro _
    | with_reducible assumption
    | with_reducible exact hks
    | with_reducible apply HasRes.next
    | with_reducible apply HasRes.ite
    | with_reducible apply Has.ite
    | with_reducible apply keeps_writeRequest
    | with_reducible apply keeps_startSwitch
    | dsimp only
    | split

def touchExecReadyFlagSwitch (p : Option Reg) : Bool := touchWriteRequest p || touchStartSwitch p

theorem keeps_execReadyFlagSwitch (hK : Closed T K) (q : Requester) (k : Fin 48) (v : Byte) (s : State) (hT : ∀ p,
    touchExecReadyFlagSwitch p = true → T p = true) (hks : Has K s) : HasRes K (execReadyFlagSwitch q k v s) := by
  unfold execReadyFlagSwitch
  try dsimp only
  repeat' first
    | exact fun p hp => hT p (by simp only [touchExecReadyFlagSwitch, hp, Bool.or_true, Bool.true_or])
    | intro _
    | with_reducible assumption
    | with_reducible exact hks
    | with_reducible apply HasRes.next
    | with_reducible apply HasRes.ite
    | with_reducible apply Has.ite
    | with_reducible apply keeps_writeRequest
    | with_reducible apply keeps_startSwitch
    | dsimp only
    | split

def touchExecClockSwitchComplete (p : Option Reg) : Bool := touchChange .clkSel p || touchSetReg .clkSwitching p ||
  touchSetReg .clkMhz p

theorem keeps_execClockSwitchComplete (hK : Closed T K) (k : Fin 48) (s : State) (hT : ∀ p,
    touchExecClockSwitchComplete p = true → T p = true) (hks : Has K s) : HasRes K (execClockSwitchComplete k s) := by
  unfold execClockSwitchComplete
  try dsimp only
  repeat' first
    | exact fun p hp => hT p (by simp only [touchExecClockSwitchComplete, hp, Bool.or_true, Bool.true_or])
    | intro _
    | with_reducible assumption
    | with_reducible exact hks
    | with_reducible apply HasRes.next
    | with_reducible apply HasRes.ite
    | with_reducible apply Has.ite
    | with_reducible apply keeps_change
    | with_reducible apply keeps_setReg
    | dsimp only
    | split

def touchSetRate (p : Option Reg) : Bool := touchSetReg .pllMhz p || touchSetReg .clkMhz p

theorem keeps_setRate (hK : Closed T K) (s : State) (k v : Nat) (hT : ∀ p, touchSetRate p = true → T p = true) (hks :
    Has K s) : Has K (State.setRate s k v) := by
  unfold State.setRate
  try dsimp only
  repeat' first
    | exact fun p hp => hT p (by simp only [touchSetRate, hp, Bool.or_true, Bool.true_or])
    | intro _
    | with_reducible assumption
    | with_reducible exact hks
    | with_reducible apply Has.ite
    | with_reducible apply keeps_setReg
    | dsimp only
    | split

def touchCountThrottle (p : Option Reg) : Bool := touchAddReg .throttleNs p || touchSetReg .throttleFrom p ||
  touchSetReg .throttleRecord p

theorem keeps_countThrottle (hK : Closed T K) (s : State) (hT : ∀ p, touchCountThrottle p = true → T p = true) (hks :
    Has K s) : Has K (State.countThrottle s) := by
  unfold State.countThrottle
  try dsimp only
  repeat' first
    | exact fun p hp => hT p (by simp only [touchCountThrottle, hp, Bool.or_true, Bool.true_or])
    | intro _
    | with_reducible assumption
    | with_reducible exact hks
    | with_reducible apply Has.ite
    | with_reducible apply keeps_addReg
    | with_reducible apply keeps_setReg
    | dsimp only
    | split

def touchStepDown (p : Option Reg) : Bool := touchSetRate p || touchSetReg .steppedDown p

theorem keeps_stepDown (hK : Closed T K) (s : State) (k floor : Nat) (hT : ∀ p, touchStepDown p = true → T p = true)
    (hks : Has K s) : Has K (State.stepDown s k floor) := by
  unfold State.stepDown
  try dsimp only
  repeat' first
    | exact fun p hp => hT p (by simp only [touchStepDown, hp, Bool.or_true, Bool.true_or])
    | intro _
    | with_reducible assumption
    | with_reducible exact hks
    | with_reducible apply Has.ite
    | with_reducible apply keeps_setRate
    | with_reducible apply keeps_setReg
    | dsimp only
    | split

def touchOpenEpisode (p : Option Reg) : Bool := touchLogError p || touchSetReg .throttleRecord p

theorem keeps_openEpisode (hK : Closed T K) (s : State) (cause : Nat) (hT : ∀ p, touchOpenEpisode p = true → T p =
    true) (hks : Has K s) : Has K (State.openEpisode s cause) := by
  unfold State.openEpisode
  try dsimp only
  repeat' first
    | exact fun p hp => hT p (by simp only [touchOpenEpisode, hp, Bool.or_true, Bool.true_or])
    | intro _
    | with_reducible assumption
    | with_reducible exact hks
    | with_reducible apply Has.ite
    | with_reducible apply keeps_logError
    | with_reducible apply keeps_setReg
    | simp only [Has.same hK]
    | dsimp only
    | split

def touchRequestLull (p : Option Reg) : Bool := touchChange .stateRequest p

theorem keeps_requestLull (hK : Closed T K) (s : State) (hT : ∀ p, touchRequestLull p = true → T p = true) (hks : Has
    K s) : Has K (State.requestLull s) := by
  unfold State.requestLull
  try dsimp only
  repeat' first
    | exact fun p hp => hT p hp
    | intro _
    | with_reducible assumption
    | with_reducible exact hks
    | with_reducible apply Has.ite
    | with_reducible apply keeps_change
    | dsimp only
    | split

def touchHoldClocks (p : Option Reg) : Bool := touchChange .fixedTiming p || touchOpenEpisode p || touchRaise
  .alertCause p || touchRequestLull p

theorem keeps_holdClocks (hK : Closed T K) (s : State) (cause : Nat) (hT : ∀ p, touchHoldClocks p = true → T p =
    true) (hks : Has K s) : Has K (State.holdClocks s cause) := by
  unfold State.holdClocks
  try dsimp only
  repeat' first
    | exact fun p hp => hT p (by simp only [touchHoldClocks, hp, Bool.or_true, Bool.true_or])
    | intro _
    | with_reducible assumption
    | with_reducible exact hks
    | with_reducible apply Has.ite
    | with_reducible apply keeps_change
    | with_reducible apply keeps_openEpisode
    | with_reducible apply keeps_raise
    | with_reducible apply keeps_requestLull
    | dsimp only
    | split

def touchThrottlePower (p : Option Reg) : Bool := touchHoldClocks p || touchOpenEpisode p || touchSetFlag
  .throttleState p || touchStepDown p

theorem keeps_throttlePower (hK : Closed T K) (s : State) (cause : Nat) (hT : ∀ p, touchThrottlePower p = true → T p =
    true) (hks : Has K s) : Has K (State.throttlePower s cause) := by
  unfold State.throttlePower
  try dsimp only
  repeat' first
    | exact fun p hp => hT p (by simp only [touchThrottlePower, hp, Bool.or_true, Bool.true_or])
    | intro _
    | with_reducible assumption
    | with_reducible exact hks
    | with_reducible apply Has.ite
    | with_reducible apply keeps_holdClocks
    | with_reducible apply keeps_openEpisode
    | with_reducible apply keeps_setFlag
    | with_reducible apply keeps_stepDown
    | with_reducible apply Has.foldl
    | with_reducible apply Has1.foldl
    | with_reducible exact Has1.proj (by with_reducible assumption)
    | with_reducible apply Has1.mk
    | dsimp only
    | split

def touchThrottleElement (p : Option Reg) : Bool := touchHoldClocks p || touchOpenEpisode p || touchSetFlag
  .throttleState p || touchSetReg .floorAt p || touchStepDown p

theorem keeps_throttleElement (hK : Closed T K) (s : State) (e : Nat) (hT : ∀ p, touchThrottleElement p = true → T p =
    true) (hks : Has K s) : Has K (State.throttleElement s e) := by
  unfold State.throttleElement
  try dsimp only
  repeat' first
    | exact fun p hp => hT p (by simp only [touchThrottleElement, hp, Bool.or_true, Bool.true_or])
    | intro _
    | with_reducible assumption
    | with_reducible exact hks
    | with_reducible apply Has.ite
    | with_reducible apply keeps_holdClocks
    | with_reducible apply keeps_openEpisode
    | with_reducible apply keeps_setFlag
    | with_reducible apply keeps_setReg
    | with_reducible apply keeps_stepDown
    | with_reducible apply Has.foldl
    | with_reducible apply Has1.foldl
    | with_reducible exact Has1.proj (by with_reducible assumption)
    | with_reducible apply Has1.mk
    | dsimp only
    | split

def touchExecPowerSample (p : Option Reg) : Bool := touchClearReg .steppedDown p || touchCountThrottle p ||
  touchSetReg .powerRing p || touchSetReg .powerSamples p || touchSetReg .pkgPower p || touchSetReg .vinMainMv p ||
  touchSetReg .vinMainA p || touchSetReg .coolFlow p || touchSetReg .throttleState p || touchThrottleElement p ||
  touchThrottlePower p

theorem keeps_execPowerSample (hK : Closed T K) (mv ma stackMw : Nat) (s : State) (hT : ∀ p, touchExecPowerSample p =
    true → T p = true) (hks : Has K s) : HasRes K (execPowerSample mv ma stackMw s) := by
  unfold execPowerSample
  try dsimp only
  repeat' first
    | exact fun p hp => hT p (by simp only [touchExecPowerSample, hp, Bool.or_true, Bool.true_or])
    | intro _
    | with_reducible assumption
    | with_reducible exact hks
    | with_reducible apply HasRes.next
    | with_reducible apply HasRes.ite
    | with_reducible apply Has.ite
    | with_reducible apply keeps_clearReg
    | with_reducible apply keeps_countThrottle
    | with_reducible apply keeps_setReg
    | with_reducible apply keeps_throttleElement
    | with_reducible apply keeps_throttlePower
    | with_reducible apply Has.foldl
    | with_reducible apply Has1.foldl
    | with_reducible exact Has1.proj (by with_reducible assumption)
    | with_reducible apply Has1.mk
    | dsimp only
    | split

def touchExecThrottleStepUp (p : Option Reg) : Bool := touchCountThrottle p || touchSetRate p || touchSetReg
  .throttleState p

theorem keeps_execThrottleStepUp (hK : Closed T K) (s : State) (hT : ∀ p, touchExecThrottleStepUp p = true → T p =
    true) (hks : Has K s) : HasRes K (execThrottleStepUp s) := by
  unfold execThrottleStepUp
  try dsimp only
  repeat' first
    | exact fun p hp => hT p (by simp only [touchExecThrottleStepUp, hp, Bool.or_true, Bool.true_or])
    | intro _
    | with_reducible assumption
    | with_reducible exact hks
    | with_reducible apply HasRes.next
    | with_reducible apply HasRes.ite
    | with_reducible apply Has.ite
    | with_reducible apply keeps_countThrottle
    | with_reducible apply keeps_setRate
    | with_reducible apply keeps_setReg
    | with_reducible apply Has.foldl
    | with_reducible apply Has1.foldl
    | with_reducible exact Has1.proj (by with_reducible assumption)
    | with_reducible apply Has1.mk
    | dsimp only
    | split

def touchExecArrayThrottleStart (p : Option Reg) : Bool := touchLogError p || touchRaise .alertCause p ||
  touchSetReg .arrayThrottle p

theorem keeps_execArrayThrottleStart (hK : Closed T K) (ma : Nat) (s : State) (hT : ∀ p, touchExecArrayThrottleStart
    p = true → T p = true) (hks : Has K s) : HasRes K (execArrayThrottleStart ma s) := by
  unfold execArrayThrottleStart
  try dsimp only
  repeat' first
    | exact fun p hp => hT p (by simp only [touchExecArrayThrottleStart, hp, Bool.or_true, Bool.true_or])
    | intro _
    | with_reducible assumption
    | with_reducible exact hks
    | with_reducible apply HasRes.next
    | with_reducible apply HasRes.ite
    | with_reducible apply Has.ite
    | with_reducible apply keeps_logError
    | with_reducible apply keeps_raise
    | with_reducible apply keeps_setReg
    | dsimp only
    | split

def touchExecArrayThrottleEnd (p : Option Reg) : Bool := touchSetReg .arrayThrottle p

theorem keeps_execArrayThrottleEnd (hK : Closed T K) (s : State) (hT : ∀ p, touchExecArrayThrottleEnd p = true → T p =
    true) (hks : Has K s) : HasRes K (execArrayThrottleEnd s) := by
  unfold execArrayThrottleEnd
  try dsimp only
  repeat' first
    | exact fun p hp => hT p hp
    | intro _
    | with_reducible assumption
    | with_reducible exact hks
    | with_reducible apply HasRes.next
    | with_reducible apply HasRes.ite
    | with_reducible apply Has.ite
    | with_reducible apply keeps_setReg
    | dsimp only
    | split

def touchExcludeSensor (p : Option Reg) : Bool := touchLogError p || touchSetReg .sensorExcluded p || touchSetReg
  .temps p

theorem keeps_excludeSensor (hK : Closed T K) (s : State) (n : Nat) (hT : ∀ p, touchExcludeSensor p = true → T p =
    true) (hks : Has K s) : Has K (State.excludeSensor s n) := by
  unfold State.excludeSensor
  try dsimp only
  repeat' first
    | exact fun p hp => hT p (by simp only [touchExcludeSensor, hp, Bool.or_true, Bool.true_or])
    | intro _
    | with_reducible assumption
    | with_reducible exact hks
    | with_reducible apply Has.ite
    | with_reducible apply keeps_logError
    | with_reducible apply keeps_setReg
    | simp only [Has.same hK]
    | dsimp only
    | split

def touchTakeReading (p : Option Reg) : Bool := touchExcludeSensor p || touchSetReg .temps p

theorem keeps_takeReading (hK : Closed T K) (s : State) (n : Nat) (r : Option Int) (hT : ∀ p, touchTakeReading p =
    true → T p = true) (hks : Has K s) : Has K (State.takeReading s n r) := by
  unfold State.takeReading
  try dsimp only
  repeat' first
    | exact fun p hp => hT p (by simp only [touchTakeReading, hp, Bool.or_true, Bool.true_or])
    | intro _
    | with_reducible assumption
    | with_reducible exact hks
    | with_reducible apply Has.ite
    | with_reducible apply keeps_excludeSensor
    | with_reducible apply keeps_setReg
    | dsimp only
    | split

def touchFloorDie (p : Option Reg) : Bool := touchHoldClocks p || touchSetRate p || touchSetReg .thermalFloor p

theorem keeps_floorDie (hK : Closed T K) (s : State) (e : Nat) (hT : ∀ p, touchFloorDie p = true → T p = true) (hks
    : Has K s) : Has K (State.floorDie s e) := by
  unfold State.floorDie
  try dsimp only
  repeat' first
    | exact fun p hp => hT p (by simp only [touchFloorDie, hp, Bool.or_true, Bool.true_or])
    | intro _
    | with_reducible assumption
    | with_reducible exact hks
    | with_reducible apply Has.ite
    | with_reducible apply keeps_holdClocks
    | with_reducible apply keeps_setRate
    | with_reducible apply keeps_setReg
    | with_reducible apply Has.foldl
    | with_reducible apply Has1.foldl
    | with_reducible exact Has1.proj (by with_reducible assumption)
    | with_reducible apply Has1.mk
    | dsimp only
    | split

def touchJudgeElement (p : Option Reg) : Bool := touchFloorDie p || touchSetReg .elementHot p || touchSetReg
  .floorAt p || touchThrottleElement p

theorem keeps_judgeElement (hK : Closed T K) (s : State) (e : Nat) (hT : ∀ p, touchJudgeElement p = true → T p =
    true) (hks : Has K s) : Has K (State.judgeElement s e) := by
  unfold State.judgeElement
  try dsimp only
  repeat' first
    | exact fun p hp => hT p (by simp only [touchJudgeElement, hp, Bool.or_true, Bool.true_or])
    | intro _
    | with_reducible assumption
    | with_reducible exact hks
    | with_reducible apply Has.ite
    | with_reducible apply keeps_floorDie
    | with_reducible apply keeps_setReg
    | with_reducible apply keeps_throttleElement
    | dsimp only
    | split

def touchExecThermalSample (p : Option Reg) : Bool := touchCountThrottle p || touchJudgeElement p || touchSetReg
  .coolFlow p || touchSetReg .throttleState p || touchTakeReading p

theorem keeps_execThermalSample (hK : Closed T K) (readings : List (Option Int)) (s : State) (hT : ∀ p,
    touchExecThermalSample p = true → T p = true) (hks : Has K s) : HasRes K (execThermalSample readings s) := by
  unfold execThermalSample
  try dsimp only
  repeat' first
    | exact fun p hp => hT p (by simp only [touchExecThermalSample, hp, Bool.or_true, Bool.true_or])
    | intro _
    | with_reducible assumption
    | with_reducible exact hks
    | with_reducible apply HasRes.next
    | with_reducible apply HasRes.ite
    | with_reducible apply Has.ite
    | with_reducible apply keeps_countThrottle
    | with_reducible apply keeps_judgeElement
    | with_reducible apply keeps_setReg
    | with_reducible apply keeps_takeReading
    | with_reducible apply Has.foldl
    | with_reducible apply Has1.foldl
    | with_reducible exact Has1.proj (by with_reducible assumption)
    | with_reducible apply Has1.mk
    | dsimp only
    | split

def touchExecThermalFloorTimeout (p : Option Reg) : Bool := touchLogError p || touchRequestLull p

theorem keeps_execThermalFloorTimeout (hK : Closed T K) (element : Fin 46) (s : State) (hT : ∀ p,
    touchExecThermalFloorTimeout p = true → T p = true) (hks : Has K s) : HasRes K (execThermalFloorTimeout element s)
    := by
  unfold execThermalFloorTimeout
  try dsimp only
  repeat' first
    | exact fun p hp => hT p (by simp only [touchExecThermalFloorTimeout, hp, Bool.or_true, Bool.true_or])
    | intro _
    | with_reducible assumption
    | with_reducible exact hks
    | with_reducible apply HasRes.next
    | with_reducible apply HasRes.ite
    | with_reducible apply Has.ite
    | with_reducible apply keeps_logError
    | with_reducible apply keeps_requestLull
    | simp only [Has.same hK]
    | dsimp only
    | split

def touchExecHardwareThermalTrip (p : Option Reg) : Bool := touchEnterFaulted p || touchSetReg .thermTrip p ||
  touchSetReg .lastTrip p || touchSetReg .resetCause p || touchSetReg .clkMhz p || touchSetReg .regulatorsOff p

theorem keeps_execHardwareThermalTrip (hK : Closed T K) (sensor : Fin 128) (s : State) (hT : ∀ p,
    touchExecHardwareThermalTrip p = true → T p = true) (hks : Has K s) : HasRes K (execHardwareThermalTrip sensor s)
    := by
  unfold execHardwareThermalTrip
  try dsimp only
  repeat' first
    | exact fun p hp => hT p (by simp only [touchExecHardwareThermalTrip, hp, Bool.or_true, Bool.true_or])
    | intro _
    | with_reducible assumption
    | with_reducible exact hks
    | with_reducible apply HasRes.next
    | with_reducible apply HasRes.ite
    | with_reducible apply Has.ite
    | with_reducible apply keeps_enterFaulted
    | with_reducible apply keeps_setReg
    | with_reducible apply Has.foldl
    | with_reducible apply Has1.foldl
    | with_reducible exact Has1.proj (by with_reducible assumption)
    | with_reducible apply Has1.mk
    | dsimp only
    | split

def touchExecCoolantLow (p : Option Reg) : Bool := touchLogError p || touchRaise .alertCause p || touchSetReg
  .coolFlow p || touchSetReg .coolantState p

theorem keeps_execCoolantLow (hK : Closed T K) (s : State) (hT : ∀ p, touchExecCoolantLow p = true → T p = true) (hks
    : Has K s) : HasRes K (execCoolantLow s) := by
  unfold execCoolantLow
  try dsimp only
  repeat' first
    | exact fun p hp => hT p (by simp only [touchExecCoolantLow, hp, Bool.or_true, Bool.true_or])
    | intro _
    | with_reducible assumption
    | with_reducible exact hks
    | with_reducible apply HasRes.next
    | with_reducible apply HasRes.ite
    | with_reducible apply Has.ite
    | with_reducible apply keeps_logError
    | with_reducible apply keeps_raise
    | with_reducible apply keeps_setReg
    | simp only [Has.same hK]
    | dsimp only
    | split

def touchExecCoolantClear (p : Option Reg) : Bool := touchAuditInternal p || touchSetReg .coolFlow p || touchSetReg
  .coolantState p

theorem keeps_execCoolantClear (hK : Closed T K) (s : State) (hT : ∀ p, touchExecCoolantClear p = true → T p = true)
    (hks : Has K s) : HasRes K (execCoolantClear s) := by
  unfold execCoolantClear
  try dsimp only
  repeat' first
    | exact fun p hp => hT p (by simp only [touchExecCoolantClear, hp, Bool.or_true, Bool.true_or])
    | intro _
    | with_reducible assumption
    | with_reducible exact hks
    | with_reducible apply HasRes.next
    | with_reducible apply HasRes.ite
    | with_reducible apply Has.ite
    | with_reducible apply keeps_auditInternal
    | with_reducible apply keeps_setReg
    | dsimp only
    | split

def touchExecStateRequestLull (p : Option Reg) : Bool := touchWriteRequest p

theorem keeps_execStateRequestLull (hK : Closed T K) (q : Requester) (s : State) (hT : ∀ p, touchExecStateRequestLull
    p = true → T p = true) (hks : Has K s) : HasRes K (execStateRequestLull q s) := by
  unfold execStateRequestLull
  try dsimp only
  repeat' first
    | exact fun p hp => hT p hp
    | intro _
    | with_reducible assumption
    | with_reducible exact hks
    | with_reducible apply HasRes.next
    | with_reducible apply HasRes.ite
    | with_reducible apply Has.ite
    | with_reducible apply keeps_writeRequest
    | dsimp only
    | split

def touchExecLullDeadlineExpiry (p : Option Reg) : Bool := touchChange .stateRequest p || touchLogError p

theorem keeps_execLullDeadlineExpiry (hK : Closed T K) (s : State) (hT : ∀ p, touchExecLullDeadlineExpiry p = true → T
    p = true) (hks : Has K s) : HasRes K (execLullDeadlineExpiry s) := by
  unfold execLullDeadlineExpiry
  try dsimp only
  repeat' first
    | exact fun p hp => hT p (by simp only [touchExecLullDeadlineExpiry, hp, Bool.or_true, Bool.true_or])
    | intro _
    | with_reducible assumption
    | with_reducible exact hks
    | with_reducible apply HasRes.next
    | with_reducible apply HasRes.ite
    | with_reducible apply Has.ite
    | with_reducible apply keeps_change
    | with_reducible apply keeps_logError
    | simp only [Has.same hK]
    | dsimp only
    | split

def touchServiceEffect (p : Option Reg) : Bool := touchEnter p || touchIdleLinks p || touchTryBeginInit p ||
  touchWarmReset p

theorem keeps_serviceEffect (hK : Closed T K) (v : Nat) (s : State) (hT : ∀ p, touchServiceEffect p = true → T p =
    true) (hks : Has K s) : Has K (serviceEffect v s) := by
  unfold serviceEffect
  try dsimp only
  repeat' first
    | exact fun p hp => hT p (by simp only [touchServiceEffect, hp, Bool.or_true, Bool.true_or])
    | intro _
    | with_reducible assumption
    | with_reducible exact hks
    | with_reducible apply Has.ite
    | with_reducible apply keeps_enter
    | with_reducible apply keeps_idleLinks
    | with_reducible apply keeps_tryBeginInit
    | with_reducible apply keeps_warmReset
    | dsimp only
    | split

def touchExecServiceRequestEnter (p : Option Reg) : Bool := touchWriteRequest p || touchServiceEffect p

theorem keeps_execServiceRequestEnter (hK : Closed T K) (q : Requester) (s : State) (hT : ∀ p,
    touchExecServiceRequestEnter p = true → T p = true) (hks : Has K s) : HasRes K (execServiceRequestEnter q s) := by
  unfold execServiceRequestEnter
  try dsimp only
  repeat' first
    | exact fun p hp => hT p (by simp only [touchExecServiceRequestEnter, hp, Bool.or_true, Bool.true_or])
    | intro _
    | with_reducible assumption
    | with_reducible exact hks
    | with_reducible apply HasRes.next
    | with_reducible apply HasRes.ite
    | with_reducible apply Has.ite
    | with_reducible apply keeps_writeRequest
    | with_reducible apply keeps_serviceEffect
    | dsimp only
    | split

def touchExecServiceRequestExit (p : Option Reg) : Bool := touchWriteRequest p || touchServiceEffect p

theorem keeps_execServiceRequestExit (hK : Closed T K) (q : Requester) (s : State) (hT : ∀ p,
    touchExecServiceRequestExit p = true → T p = true) (hks : Has K s) : HasRes K (execServiceRequestExit q s) := by
  unfold execServiceRequestExit
  try dsimp only
  repeat' first
    | exact fun p hp => hT p (by simp only [touchExecServiceRequestExit, hp, Bool.or_true, Bool.true_or])
    | intro _
    | with_reducible assumption
    | with_reducible exact hks
    | with_reducible apply HasRes.next
    | with_reducible apply HasRes.ite
    | with_reducible apply Has.ite
    | with_reducible apply keeps_writeRequest
    | with_reducible apply keeps_serviceEffect
    | dsimp only
    | split

def touchLocationEffect (p : Option Reg) : Bool := touchChange .physId p || touchSetReg .location p || touchSetReg
  .stage5Waits p || touchSetReg .stageStarted p || touchSetReg .initStage p

theorem keeps_locationEffect (hK : Closed T K) (s : State) (hT : ∀ p, touchLocationEffect p = true → T p = true) (hks
    : Has K s) : Has K (locationEffect s) := by
  unfold locationEffect
  try dsimp only
  repeat' first
    | exact fun p hp => hT p (by simp only [touchLocationEffect, hp, Bool.or_true, Bool.true_or])
    | intro _
    | with_reducible assumption
    | with_reducible exact hks
    | with_reducible apply Has.ite
    | with_reducible apply keeps_change
    | with_reducible apply keeps_setReg
    | dsimp only
    | split

def touchExecLocationWrite (p : Option Reg) : Bool := touchWriteRequest p || touchLocationEffect p

theorem keeps_execLocationWrite (hK : Closed T K) (q : Requester) (v : Word) (s : State) (hT : ∀ p,
    touchExecLocationWrite p = true → T p = true) (hks : Has K s) : HasRes K (execLocationWrite q v s) := by
  unfold execLocationWrite
  try dsimp only
  repeat' first
    | exact fun p hp => hT p (by simp only [touchExecLocationWrite, hp, Bool.or_true, Bool.true_or])
    | intro _
    | with_reducible assumption
    | with_reducible exact hks
    | with_reducible apply HasRes.next
    | with_reducible apply HasRes.ite
    | with_reducible apply Has.ite
    | with_reducible apply keeps_writeRequest
    | with_reducible apply keeps_locationEffect
    | dsimp only
    | split

end Sys2Proof.Machine
end

