-- ==== Sys2Proof/Laws/KeepsContext.lean ====
section
/-! SUPPORT. What the operations of Machine/Context.lean keep, and the registers that each may change. -/

namespace Sys2Proof.Machine

variable {T : Option Reg → Bool} {K : State → Prop}

def touchSaveContext (p : Option Reg) : Bool := touchWrite p || touchWrites p

theorem keeps_saveContext (hK : Closed T K) (s : State) (b : Nat) (x : Bay) (hT : ∀ p, touchSaveContext p = true → T
    p = true) (hks : Has K s) : Has K (State.saveContext s b x) := by
  unfold State.saveContext
  try dsimp only
  repeat' first
    | exact fun p hp => hT p (by simp only [touchSaveContext, hp, Bool.or_true, Bool.true_or])
    | intro _
    | with_reducible assumption
    | with_reducible exact hks
    | with_reducible apply Has.ite
    | with_reducible apply keeps_write
    | with_reducible apply keeps_writes
    | dsimp only
    | split

def touchRefuseContext (p : Option Reg) : Bool := touchDataLoss p || touchLogError p

theorem keeps_refuseContext (hK : Closed T K) (s : State) (b code : Nat) (hT : ∀ p, touchRefuseContext p = true → T
    p = true) (hks : Has K s) : Has K (State.refuseContext s b code) := by
  unfold State.refuseContext
  try dsimp only
  repeat' first
    | exact fun p hp => hT p (by simp only [touchRefuseContext, hp, Bool.or_true, Bool.true_or])
    | intro _
    | with_reducible assumption
    | with_reducible exact hks
    | with_reducible apply Has.ite
    | with_reducible apply keeps_dataLoss
    | with_reducible apply keeps_logError
    | dsimp only
    | split

def touchParkBay (p : Option Reg) : Bool := touchSaveContext p

theorem keeps_parkBay (hK : Closed T K) (s : State) (b : Nat) (hT : ∀ p, touchParkBay p = true → T p = true) (hks :
    Has K s) : Has K (State.parkBay s b) := by
  unfold State.parkBay
  try dsimp only
  repeat' first
    | exact fun p hp => hT p hp
    | intro _
    | with_reducible assumption
    | with_reducible exact hks
    | with_reducible apply Has.ite
    | with_reducible apply keeps_saveContext
    | with_reducible apply keeps_setBay
    | simp only [Has.same hK]
    | dsimp only
    | split

def touchUnparkBay (p : Option Reg) : Bool := touchRefuseContext p || touchWrite p

theorem keeps_unparkBay (hK : Closed T K) (s : State) (b : Nat) (hT : ∀ p, touchUnparkBay p = true → T p = true)
    (hks : Has K s) : Has K (State.unparkBay s b) := by
  unfold State.unparkBay
  try dsimp only
  repeat' first
    | exact fun p hp => hT p (by simp only [touchUnparkBay, hp, Bool.or_true, Bool.true_or])
    | intro _
    | with_reducible assumption
    | with_reducible exact hks
    | with_reducible apply Has.ite
    | with_reducible apply keeps_refuseContext
    | with_reducible apply keeps_setBay
    | with_reducible apply keeps_write
    | simp only [Has.same hK]
    | dsimp only
    | split

def touchSwitchContext (p : Option Reg) : Bool := touchParkBay p || touchUnparkBay p

theorem keeps_switchContext (hK : Closed T K) (s : State) (b : Nat) (hT : ∀ p, touchSwitchContext p = true → T p =
    true) (hks : Has K s) : Has K (State.switchContext s b) := by
  unfold State.switchContext
  try dsimp only
  repeat' first
    | exact fun p hp => hT p (by simp only [touchSwitchContext, hp, Bool.or_true, Bool.true_or])
    | intro _
    | with_reducible assumption
    | with_reducible exact hks
    | with_reducible apply Has.ite
    | with_reducible apply keeps_parkBay
    | with_reducible apply keeps_unparkBay
    | dsimp only
    | split

end Sys2Proof.Machine
end

