-- ==== Sys2Proof/Laws/KeepsSeqOps.lean ====
section
/-! SUPPORT. What the operations of Machine/SeqOps.lean keep, and the registers that each may change. -/

namespace Sys2Proof.Machine

variable {T : Option Reg → Bool} {K : State → Prop}

def touchFinish (p : Option Reg) : Bool := touchHaltTable p || touchSetBay p || touchSetTableState p ||
  touchSwitchContext p

theorem keeps_finish (hK : Closed T K) (s : State) (b : Nat) (f : Flight) (hT : ∀ p, touchFinish p = true → T p =
    true) (hks : Has K s) : Has K (State.finish s b f) := by
  unfold State.finish
  try dsimp only
  repeat' first
    | exact fun p hp => hT p (by simp only [touchFinish, hp, Bool.or_true, Bool.true_or])
    | intro _
    | with_reducible assumption
    | with_reducible exact hks
    | with_reducible apply Has.ite
    | with_reducible apply keeps_haltTable
    | with_reducible apply keeps_setBay
    | with_reducible apply keeps_setTableState
    | with_reducible apply keeps_switchContext
    | dsimp only
    | split

def touchFreeBytes (p : Option Reg) : Bool := touchWrite p

theorem keeps_freeBytes (hK : Closed T K) (s : State) (rs : List (Nat × Nat)) (hT : ∀ p, touchFreeBytes p = true → T p = true) (hks : Has K s) :
    Has K (State.freeBytes s rs) := by
  induction rs generalizing s with
  | nil => exact hks
  | cons r rs ih =>
    unfold State.freeBytes
    try dsimp only
    repeat' first
      | exact fun p hp => hT p (by simp only [touchFreeBytes, hp, Bool.or_true, Bool.true_or])
      | intro _
      | with_reducible assumption
      | with_reducible exact hks
      | with_reducible apply ih
      | with_reducible apply keeps_write
      | simp only [Has.same hK]
      | with_reducible apply Has.ite
      | split

def touchSettleRun (p : Option Reg) : Bool := touchMergeStats p || touchWrites p

theorem keeps_settleRun (hK : Closed T K) (s : State) (b : Nat) (hT : ∀ p, touchSettleRun p = true → T p = true)
    (hks : Has K s) : Has K (State.settleRun s b) := by
  unfold State.settleRun
  try dsimp only
  repeat' first
    | exact fun p hp => hT p (by simp only [touchSettleRun, hp, Bool.or_true, Bool.true_or])
    | intro _
    | with_reducible assumption
    | with_reducible exact hks
    | with_reducible apply Has.ite
    | with_reducible apply keeps_mergeStats
    | with_reducible apply keeps_setBay
    | with_reducible apply keeps_writes
    | with_reducible apply Has.foldl
    | with_reducible apply Has1.foldl
    | with_reducible exact Has1.proj (by with_reducible assumption)
    | with_reducible apply Has1.mk
    | simp only [Has.same hK]
    | with_reducible refine Has1.of_eq ?_ (by assumption)
    | (with_reducible apply Has1.proj; with_reducible apply keeps_mergeStats)
    | dsimp only
    | split

end Sys2Proof.Machine
end

