-- ==== Sys2Proof/Laws/KeepsCollective.lean ====
section
/-! SUPPORT. What the operations of Machine/Collective.lean keep, and the registers that each may change. -/

namespace Sys2Proof.Machine

variable {T : Option Reg → Bool} {K : State → Prop}

def touchSetColl (_ : Option Reg) : Bool := false

theorem keeps_setColl (hK : Closed T K) (s : State) (c : Coll)  (hks : Has K s) : Has K (State.setColl s c) := by
  unfold State.setColl
  try dsimp only
  repeat' first
    | intro _
    | with_reducible assumption
    | with_reducible exact hks
    | with_reducible apply Has.ite
    | simp only [Has.same hK]
    | dsimp only
    | split

def touchOpenColl (_ : Option Reg) : Bool := false

theorem keeps_openColl (hK : Closed T K) (s : State) (i : CollId) (hks : Has K s) : HasOpt K (State.openColl s i) :=
    by
  unfold State.openColl
  try dsimp only
  repeat' first
    | intro _
    | with_reducible assumption
    | with_reducible exact hks
    | with_reducible apply HasOpt.some
    | with_reducible apply HasOpt.none
    | with_reducible apply HasOpt.ite
    | with_reducible apply Has.ite
    | simp only [Has.same hK]
    | with_reducible apply HasOpt.map
    | dsimp only
    | split

def touchTellRun (_ : Option Reg) : Bool := false

theorem keeps_tellRun (hK : Closed T K) (s : State) (c : Coll) (run rank : Nat) (m : CollMsg) (hks : Has K s) : Has
    K (State.tellRun s c run rank m) := by
  unfold State.tellRun
  try dsimp only
  repeat' first
    | intro _
    | with_reducible assumption
    | with_reducible exact hks
    | with_reducible apply Has.ite
    | with_reducible apply keeps_sendFar
    | dsimp only
    | split

def touchTellColl (_ : Option Reg) : Bool := false

theorem keeps_tellColl (hK : Closed T K) (s : State) (c : Coll) (rank : Nat) (m : CollMsg) (hks : Has K s) : Has K
    (State.tellColl s c rank m) := by
  unfold State.tellColl
  try dsimp only
  repeat' first
    | intro _
    | with_reducible assumption
    | with_reducible exact hks
    | with_reducible apply Has.ite
    | with_reducible apply keeps_tellRun
    | dsimp only
    | split

def touchTellColls (p : Option Reg) : Bool := touchTellColl p

theorem keeps_tellColls (hK : Closed T K) (s : State) (c : Coll) (ranks : List Nat) (m : CollMsg) (hT : ∀ p,
    touchTellColls p = true → T p = true) (hks : Has K s) : Has K (State.tellColls s c ranks m) := by
  unfold State.tellColls
  try dsimp only
  repeat' first
    | exact fun p hp => hT p hp
    | intro _
    | with_reducible assumption
    | with_reducible exact hks
    | with_reducible apply Has.ite
    | with_reducible apply keeps_tellColl
    | with_reducible apply Has.foldl
    | with_reducible apply Has1.foldl
    | with_reducible exact Has1.proj (by with_reducible assumption)
    | with_reducible apply Has1.mk
    | dsimp only
    | split

def touchSweepColl (_ : Option Reg) : Bool := false

theorem keeps_sweepColl (hK : Closed T K) (s : State) (i : CollId) (hks : Has K s) : Has K (State.sweepColl s i) :=
    by
  unfold State.sweepColl
  try dsimp only
  repeat' first
    | intro _
    | with_reducible assumption
    | with_reducible exact hks
    | with_reducible apply Has.ite
    | simp only [Has.same hK]
    | dsimp only
    | split

def touchCloseColl (_ : Option Reg) : Bool := false

theorem keeps_closeColl (hK : Closed T K) (s : State) (i : CollId) (released : Bool)  (hks : Has K s) : Has K
    (State.closeColl s i released) := by
  unfold State.closeColl
  try dsimp only
  repeat' first
    | intro _
    | with_reducible assumption
    | with_reducible exact hks
    | with_reducible apply Has.ite
    | simp only [Has.same hK]
    | dsimp only
    | split

def touchRetireColl (_ : Option Reg) : Bool := false

theorem keeps_retireColl (hK : Closed T K) (s : State) (c : Coll) (hks : Has K s) : Has K (State.retireColl s c) :=
    by
  unfold State.retireColl
  try dsimp only
  repeat' first
    | intro _
    | with_reducible assumption
    | with_reducible exact hks
    | with_reducible apply Has.ite
    | with_reducible apply keeps_setColl
    | with_reducible apply keeps_sweepColl
    | simp only [Has.same hK]
    | dsimp only
    | split

def touchEndCollAt (p : Option Reg) : Bool := touchEmitRecord p || touchFinish p || touchHaltTable p || touchSetBay p
  || touchSettleRun p

theorem keeps_endCollAt (hK : Closed T K) (s : State) (b : Nat) (f : Flight) (queueFull : Bool) (hT : ∀ p,
    touchEndCollAt p = true → T p = true) (hks : Has K s) : Has K (State.endCollAt s b f queueFull) := by
  unfold State.endCollAt
  try dsimp only
  repeat' first
    | exact fun p hp => hT p (by simp only [touchEndCollAt, hp, Bool.or_true, Bool.true_or])
    | intro _
    | with_reducible assumption
    | with_reducible exact hks
    | with_reducible apply Has.ite
    | with_reducible apply keeps_emitRecord
    | with_reducible apply keeps_finish
    | with_reducible apply keeps_haltTable
    | with_reducible apply keeps_setBay
    | with_reducible apply keeps_settleRun
    | simp only [Has.same hK]
    | dsimp only
    | split

def touchFailCollAt (p : Option Reg) : Bool := touchEndCollAt p || touchFreeBytes p || touchSetBay p

theorem keeps_failCollAt (hK : Closed T K) (s : State) (b n result detail : Nat) (f : Flight) (queueFull : Bool) (hT :
    ∀ p, touchFailCollAt p = true → T p = true) (hks : Has K s) : Has K (State.failCollAt s b n result detail f
    queueFull) := by
  unfold State.failCollAt
  try dsimp only
  repeat' first
    | exact fun p hp => hT p (by simp only [touchFailCollAt, hp, Bool.or_true, Bool.true_or])
    | intro _
    | with_reducible assumption
    | with_reducible exact hks
    | with_reducible apply Has.ite
    | with_reducible apply keeps_endCollAt
    | with_reducible apply keeps_freeBytes
    | with_reducible apply keeps_setBay
    | simp only [Has.same hK]
    | dsimp only
    | split

def touchFailJoined (p : Option Reg) : Bool := touchFailCollAt p

theorem keeps_failJoined (hK : Closed T K) (s : State) (c : Coll) (queueFull : Bool) (hT : ∀ p, touchFailJoined p =
    true → T p = true) (hks : Has K s) : Has K (State.failJoined s c queueFull) := by
  unfold State.failJoined
  try dsimp only
  repeat' first
    | exact fun p hp => hT p hp
    | intro _
    | with_reducible assumption
    | with_reducible exact hks
    | with_reducible apply Has.ite
    | with_reducible apply keeps_failCollAt
    | with_reducible apply Has.foldl
    | with_reducible apply Has1.foldl
    | with_reducible exact Has1.proj (by with_reducible assumption)
    | with_reducible apply Has1.mk
    | dsimp only
    | split

def touchFailColl (p : Option Reg) : Bool := touchFailJoined p

theorem keeps_failColl (hK : Closed T K) (s : State) (c : Coll) (queueFull : Bool) (hT : ∀ p, touchFailColl p = true
    → T p = true) (hks : Has K s) : Has K (State.failColl s c queueFull) := by
  unfold State.failColl
  try dsimp only
  repeat' first
    | exact fun p hp => hT p hp
    | intro _
    | with_reducible assumption
    | with_reducible exact hks
    | with_reducible apply Has.ite
    | with_reducible apply keeps_closeColl
    | with_reducible apply keeps_failJoined
    | with_reducible apply keeps_setColl
    | simp only [Has.same hK]
    | dsimp only
    | split

def touchNoteAbort (p : Option Reg) : Bool := touchAddReg .collAborts p || touchLogError p || touchSetBay p

theorem keeps_noteAbort (hK : Closed T K) (s : State) (c : Coll) (hT : ∀ p, touchNoteAbort p = true → T p = true) (hks
    : Has K s) : Has K (State.noteAbort s c) := by
  unfold State.noteAbort
  try dsimp only
  repeat' first
    | exact fun p hp => hT p (by simp only [touchNoteAbort, hp, Bool.or_true, Bool.true_or])
    | intro _
    | with_reducible assumption
    | with_reducible exact hks
    | with_reducible apply Has.ite
    | with_reducible apply keeps_addReg
    | with_reducible apply keeps_logError
    | with_reducible apply keeps_setBay
    | with_reducible apply Has.foldl
    | with_reducible apply Has1.foldl
    | with_reducible exact Has1.proj (by with_reducible assumption)
    | with_reducible apply Has1.mk
    | simp only [Has.same hK]
    | dsimp only
    | split

def touchDeliverColl (p : Option Reg) : Bool := touchFinish p || touchWrite p

theorem keeps_deliverColl (hK : Closed T K) (s : State) (c : Coll) (hT : ∀ p, touchDeliverColl p = true → T p =
    true) (hks : Has K s) : Has K (State.deliverColl s c) := by
  unfold State.deliverColl
  try dsimp only
  repeat' first
    | exact fun p hp => hT p (by simp only [touchDeliverColl, hp, Bool.or_true, Bool.true_or])
    | intro _
    | with_reducible assumption
    | with_reducible exact hks
    | with_reducible apply Has.ite
    | with_reducible apply keeps_finish
    | with_reducible apply keeps_setBay
    | with_reducible apply keeps_setColl
    | with_reducible apply keeps_write
    | with_reducible apply Has.foldl
    | with_reducible apply Has1.foldl
    | with_reducible exact Has1.proj (by with_reducible assumption)
    | with_reducible apply Has1.mk
    | simp only [Has.same hK]
    | dsimp only
    | split

def touchCommitColl (p : Option Reg) : Bool := touchAddReg .collDropped p || touchAddReg .collGateWait p ||
  touchAddReg .collInstances p || touchEndCollAt p || touchLogError p || touchMergeStats p

theorem keeps_commitColl (hK : Closed T K) (s : State) (c : Coll) (queueFull : Bool) (hT : ∀ p, touchCommitColl p =
    true → T p = true) (hks : Has K s) : Has K (State.commitColl s c queueFull) := by
  unfold State.commitColl
  try dsimp only
  repeat' first
    | exact fun p hp => hT p (by simp only [touchCommitColl, hp, Bool.or_true, Bool.true_or])
    | intro _
    | with_reducible assumption
    | with_reducible exact hks
    | with_reducible apply Has.ite
    | with_reducible apply keeps_addReg
    | with_reducible apply keeps_endCollAt
    | with_reducible apply keeps_logError
    | with_reducible apply keeps_mergeStats
    | with_reducible apply keeps_retireColl
    | with_reducible apply Has.foldl
    | with_reducible apply Has1.foldl
    | with_reducible exact Has1.proj (by with_reducible assumption)
    | with_reducible apply Has1.mk
    | simp only [Has.same hK]
    | with_reducible refine Has1.of_eq ?_ (by assumption)
    | (with_reducible apply Has1.proj; with_reducible apply keeps_mergeStats)
    | dsimp only
    | split

def touchSettleColl (p : Option Reg) : Bool := touchCommitColl p || touchDeliverColl p

theorem keeps_settleColl (hK : Closed T K) (s : State) (i : CollId) (queueFull : Bool) (hT : ∀ p, touchSettleColl p
    = true → T p = true) (hks : Has K s) : Has K (State.settleColl s i queueFull) := by
  unfold State.settleColl
  try dsimp only
  repeat' first
    | exact fun p hp => hT p (by simp only [touchSettleColl, hp, Bool.or_true, Bool.true_or])
    | intro _
    | with_reducible assumption
    | with_reducible exact hks
    | with_reducible apply Has.ite
    | with_reducible apply keeps_commitColl
    | with_reducible apply keeps_deliverColl
    | with_reducible apply keeps_sweepColl
    | dsimp only
    | split

def touchHoldChunk (p : Option Reg) : Bool := touchAddReg .collRetainFull p

theorem keeps_holdChunk (hK : Closed T K) (s : State) (src : Nat) (c : Coll) (m : CollMsg) (hT : ∀ p, touchHoldChunk
    p = true → T p = true) (hks : Has K s) : Has K (State.holdChunk s src c m) := by
  unfold State.holdChunk
  try dsimp only
  repeat' first
    | exact fun p hp => hT p hp
    | intro _
    | with_reducible assumption
    | with_reducible exact hks
    | with_reducible apply Has.ite
    | with_reducible apply keeps_addReg
    | simp only [Has.same hK]
    | dsimp only
    | split

def touchAcceptChunk (p : Option Reg) : Bool := touchSetColl p || touchTellColls p

theorem keeps_acceptChunk (hK : Closed T K) (s : State) (c : Coll) (k : Nat) (vals : List (Nat × Bool)) (hT : ∀ p,
    touchAcceptChunk p = true → T p = true) (hks : Has K s) : Has K (State.acceptChunk s c k vals) := by
  unfold State.acceptChunk
  try dsimp only
  repeat' first
    | exact fun p hp => hT p (by simp only [touchAcceptChunk, hp, Bool.or_true, Bool.true_or])
    | intro _
    | with_reducible assumption
    | with_reducible exact hks
    | with_reducible apply Has.ite
    | with_reducible apply keeps_setColl
    | with_reducible apply keeps_tellColls
    | simp only [Has.same hK]
    | dsimp only
    | split

def touchSendToken (p : Option Reg) : Bool := touchTellColls p

theorem keeps_sendToken (hK : Closed T K) (s : State) (i : CollId) (t : Nat) (hT : ∀ p, touchSendToken p = true → T
    p = true) (hks : Has K s) : Has K (State.sendToken s i t) := by
  unfold State.sendToken
  try dsimp only
  repeat' first
    | exact fun p hp => hT p hp
    | intro _
    | with_reducible assumption
    | with_reducible exact hks
    | with_reducible apply Has.ite
    | with_reducible apply keeps_setColl
    | with_reducible apply keeps_tellColls
    | simp only [Has.same hK]
    | dsimp only
    | split

def touchTryChunk (p : Option Reg) : Bool := touchAcceptChunk p || touchHoldChunk p || touchSendToken p

theorem keeps_tryChunk (hK : Closed T K) (s : State) (i : CollId) (k : Nat) (hT : ∀ p, touchTryChunk p = true → T p
    = true) (hks : Has K s) : Has K (State.tryChunk s i k) := by
  unfold State.tryChunk
  try dsimp only
  repeat' first
    | exact fun p hp => hT p (by simp only [touchTryChunk, hp, Bool.or_true, Bool.true_or])
    | intro _
    | with_reducible assumption
    | with_reducible exact hks
    | with_reducible apply Has.ite
    | with_reducible apply keeps_acceptChunk
    | with_reducible apply keeps_holdChunk
    | with_reducible apply keeps_sendToken
    | with_reducible apply keeps_setColl
    | with_reducible apply keeps_tellColl
    | with_reducible apply Has.foldl
    | with_reducible apply Has1.foldl
    | with_reducible exact Has1.proj (by with_reducible assumption)
    | with_reducible apply Has1.mk
    | simp only [Has.same hK]
    | dsimp only
    | split

def touchAdvanceColl (p : Option Reg) : Bool := touchSettleColl p || touchTryChunk p

theorem keeps_advanceColl (hK : Closed T K) (s : State) (i : CollId) (queueFull : Bool) (hT : ∀ p, touchAdvanceColl p
    = true → T p = true) (hks : Has K s) : Has K (State.advanceColl s i queueFull) := by
  unfold State.advanceColl
  try dsimp only
  repeat' first
    | exact fun p hp => hT p (by simp only [touchAdvanceColl, hp, Bool.or_true, Bool.true_or])
    | intro _
    | with_reducible assumption
    | with_reducible exact hks
    | with_reducible apply Has.ite
    | with_reducible apply keeps_settleColl
    | with_reducible apply keeps_tryChunk
    | with_reducible apply Has.foldl
    | with_reducible apply Has1.foldl
    | with_reducible exact Has1.proj (by with_reducible assumption)
    | with_reducible apply Has1.mk
    | dsimp only
    | split

def touchAbortColl (p : Option Reg) : Bool := touchAdvanceColl p || touchFailColl p || touchNoteAbort p ||
  touchTellColls p

theorem keeps_abortColl (hK : Closed T K) (s : State) (c : Coll) (final queueFull : Bool) (hT : ∀ p, touchAbortColl
    p = true → T p = true) (hks : Has K s) : Has K (State.abortColl s c final queueFull) := by
  unfold State.abortColl
  try dsimp only
  repeat' first
    | exact fun p hp => hT p (by simp only [touchAbortColl, hp, Bool.or_true, Bool.true_or])
    | intro _
    | with_reducible assumption
    | with_reducible exact hks
    | with_reducible apply Has.ite
    | with_reducible apply keeps_advanceColl
    | with_reducible apply keeps_failColl
    | with_reducible apply keeps_noteAbort
    | with_reducible apply keeps_setColl
    | with_reducible apply keeps_tellColls
    | simp only [Has.same hK]
    | dsimp only
    | split

def touchRootAborts (p : Option Reg) : Bool := touchAbortColl p

theorem keeps_rootAborts (hK : Closed T K) (s : State) (c : Coll) (signature queueFull : Bool) (hT : ∀ p,
    touchRootAborts p = true → T p = true) (hks : Has K s) : Has K (State.rootAborts s c signature queueFull) := by
  unfold State.rootAborts
  try dsimp only
  repeat' first
    | exact fun p hp => hT p hp
    | intro _
    | with_reducible assumption
    | with_reducible exact hks
    | with_reducible apply Has.ite
    | with_reducible apply keeps_abortColl
    | dsimp only
    | split

def touchReportColl (p : Option Reg) : Bool := touchRootAborts p

theorem keeps_reportColl (hK : Closed T K) (s : State) (c : Coll) (run : Nat) (signature queueFull : Bool) (hT : ∀
    p, touchReportColl p = true → T p = true) (hks : Has K s) : Has K (State.reportColl s c run signature queueFull)
    := by
  unfold State.reportColl
  try dsimp only
  repeat' first
    | exact fun p hp => hT p hp
    | intro _
    | with_reducible assumption
    | with_reducible exact hks
    | with_reducible apply Has.ite
    | with_reducible apply keeps_rootAborts
    | with_reducible apply keeps_tellRun
    | with_reducible apply Has.foldl
    | with_reducible apply Has1.foldl
    | with_reducible exact Has1.proj (by with_reducible assumption)
    | with_reducible apply Has1.mk
    | dsimp only
    | split

def touchJoinColl (p : Option Reg) : Bool := touchFreeBytes p || touchPerform p || touchSetFlight p ||
  touchShowWaiting p || touchSwitchContext p

theorem keeps_joinColl (hK : Closed T K) (s : State) (b kind : Nat) (hT : ∀ p, touchJoinColl p = true → T p = true)
    (hks : Has K s) : Has K (State.joinColl s b kind) := by
  unfold State.joinColl
  try dsimp only
  repeat' first
    | exact fun p hp => hT p (by simp only [touchJoinColl, hp, Bool.or_true, Bool.true_or])
    | intro _
    | with_reducible assumption
    | with_reducible exact hks
    | with_reducible apply Has.ite
    | with_reducible apply keeps_closeColl
    | with_reducible apply keeps_freeBytes
    | with_reducible apply keeps_openColl
    | with_reducible apply keeps_perform
    | with_reducible apply keeps_setBay
    | with_reducible apply keeps_setColl
    | with_reducible apply keeps_setFlight
    | with_reducible apply keeps_showWaiting
    | with_reducible apply keeps_switchContext
    | simp only [Has.same hK]
    | with_reducible refine HasOpt.of_eq ?_ (by assumption)
    | with_reducible apply HasOpt.getD
    | dsimp only
    | split

def touchExecCollAllreduce (p : Option Reg) : Bool := touchJoinColl p

theorem keeps_execCollAllreduce (hK : Closed T K) (b : Fin 256) (s : State) (hT : ∀ p, touchExecCollAllreduce p = true
    → T p = true) (hks : Has K s) : HasRes K (execCollAllreduce b s) := by
  unfold execCollAllreduce
  try dsimp only
  repeat' first
    | exact fun p hp => hT p hp
    | intro _
    | with_reducible assumption
    | with_reducible exact hks
    | with_reducible apply HasRes.next
    | with_reducible apply HasRes.ite
    | with_reducible apply Has.ite
    | with_reducible apply keeps_joinColl
    | dsimp only
    | split

def touchExecCollReduce (p : Option Reg) : Bool := touchJoinColl p

theorem keeps_execCollReduce (hK : Closed T K) (b : Fin 256) (s : State) (hT : ∀ p, touchExecCollReduce p = true → T p
    = true) (hks : Has K s) : HasRes K (execCollReduce b s) := by
  unfold execCollReduce
  try dsimp only
  repeat' first
    | exact fun p hp => hT p hp
    | intro _
    | with_reducible assumption
    | with_reducible exact hks
    | with_reducible apply HasRes.next
    | with_reducible apply HasRes.ite
    | with_reducible apply Has.ite
    | with_reducible apply keeps_joinColl
    | dsimp only
    | split

def touchExecCollReduceScatter (p : Option Reg) : Bool := touchJoinColl p

theorem keeps_execCollReduceScatter (hK : Closed T K) (b : Fin 256) (s : State) (hT : ∀ p, touchExecCollReduceScatter
    p = true → T p = true) (hks : Has K s) : HasRes K (execCollReduceScatter b s) := by
  unfold execCollReduceScatter
  try dsimp only
  repeat' first
    | exact fun p hp => hT p hp
    | intro _
    | with_reducible assumption
    | with_reducible exact hks
    | with_reducible apply HasRes.next
    | with_reducible apply HasRes.ite
    | with_reducible apply Has.ite
    | with_reducible apply keeps_joinColl
    | dsimp only
    | split

def touchExecCollBroadcast (p : Option Reg) : Bool := touchJoinColl p

theorem keeps_execCollBroadcast (hK : Closed T K) (b : Fin 256) (s : State) (hT : ∀ p, touchExecCollBroadcast p = true
    → T p = true) (hks : Has K s) : HasRes K (execCollBroadcast b s) := by
  unfold execCollBroadcast
  try dsimp only
  repeat' first
    | exact fun p hp => hT p hp
    | intro _
    | with_reducible assumption
    | with_reducible exact hks
    | with_reducible apply HasRes.next
    | with_reducible apply HasRes.ite
    | with_reducible apply Has.ite
    | with_reducible apply keeps_joinColl
    | dsimp only
    | split

def touchExecCollAllgather (p : Option Reg) : Bool := touchJoinColl p

theorem keeps_execCollAllgather (hK : Closed T K) (b : Fin 256) (s : State) (hT : ∀ p, touchExecCollAllgather p = true
    → T p = true) (hks : Has K s) : HasRes K (execCollAllgather b s) := by
  unfold execCollAllgather
  try dsimp only
  repeat' first
    | exact fun p hp => hT p hp
    | intro _
    | with_reducible assumption
    | with_reducible exact hks
    | with_reducible apply HasRes.next
    | with_reducible apply HasRes.ite
    | with_reducible apply Has.ite
    | with_reducible apply keeps_joinColl
    | dsimp only
    | split

def touchExecCollAllgatherv (p : Option Reg) : Bool := touchJoinColl p

theorem keeps_execCollAllgatherv (hK : Closed T K) (b : Fin 256) (s : State) (hT : ∀ p, touchExecCollAllgatherv p =
    true → T p = true) (hks : Has K s) : HasRes K (execCollAllgatherv b s) := by
  unfold execCollAllgatherv
  try dsimp only
  repeat' first
    | exact fun p hp => hT p hp
    | intro _
    | with_reducible assumption
    | with_reducible exact hks
    | with_reducible apply HasRes.next
    | with_reducible apply HasRes.ite
    | with_reducible apply Has.ite
    | with_reducible apply keeps_joinColl
    | dsimp only
    | split

def touchExecCollBarrier (p : Option Reg) : Bool := touchJoinColl p

theorem keeps_execCollBarrier (hK : Closed T K) (b : Fin 256) (s : State) (hT : ∀ p, touchExecCollBarrier p = true → T
    p = true) (hks : Has K s) : HasRes K (execCollBarrier b s) := by
  unfold execCollBarrier
  try dsimp only
  repeat' first
    | exact fun p hp => hT p hp
    | intro _
    | with_reducible assumption
    | with_reducible exact hks
    | with_reducible apply HasRes.next
    | with_reducible apply HasRes.ite
    | with_reducible apply Has.ite
    | with_reducible apply keeps_joinColl
    | dsimp only
    | split

def touchExecCollNodeLocalStage (p : Option Reg) : Bool := touchAdvanceColl p || touchReportColl p

theorem keeps_execCollNodeLocalStage (hK : Closed T K) (b : Fin 256) (queueFull : Bool) (s : State) (hT : ∀ p,
    touchExecCollNodeLocalStage p = true → T p = true) (hks : Has K s) : HasRes K (execCollNodeLocalStage b
    queueFull s) := by
  unfold execCollNodeLocalStage
  try dsimp only
  repeat' first
    | exact fun p hp => hT p (by simp only [touchExecCollNodeLocalStage, hp, Bool.or_true, Bool.true_or])
    | intro _
    | with_reducible assumption
    | with_reducible exact hks
    | with_reducible apply HasRes.next
    | with_reducible apply HasRes.ite
    | with_reducible apply Has.ite
    | with_reducible apply keeps_advanceColl
    | with_reducible apply keeps_reportColl
    | with_reducible apply keeps_setColl
    | dsimp only
    | split

def touchJoinBarrier (p : Option Reg) : Bool := touchAdvanceColl p

theorem keeps_joinBarrier (hK : Closed T K) (s : State) (hT : ∀ p, touchJoinBarrier p = true → T p = true) (hks :
    Has K s) : Has K (State.joinBarrier s) := by
  unfold State.joinBarrier
  try dsimp only
  repeat' first
    | exact fun p hp => hT p hp
    | intro _
    | with_reducible assumption
    | with_reducible exact hks
    | with_reducible apply Has.ite
    | with_reducible apply keeps_advanceColl
    | with_reducible apply keeps_openColl
    | with_reducible apply keeps_setColl
    | simp only [Has.same hK]
    | with_reducible refine HasOpt.of_eq ?_ (by assumption)
    | with_reducible apply HasOpt.getD
    | dsimp only
    | split

def touchRelayColl (p : Option Reg) : Bool := touchAddReg .fwdBytes p || touchForward p

theorem keeps_relayColl (hK : Closed T K) (s : State) (q : MailPort) (p : Packet) (hT : ∀ p, touchRelayColl p = true
    → T p = true) (hks : Has K s) : Has K (State.relayColl s q p) := by
  unfold State.relayColl
  try dsimp only
  repeat' first
    | exact fun p hp => hT p (by simp only [touchRelayColl, hp, Bool.or_true, Bool.true_or])
    | intro _
    | with_reducible assumption
    | with_reducible exact hks
    | with_reducible apply Has.ite
    | with_reducible apply keeps_addReg
    | with_reducible apply keeps_forward
    | with_reducible apply keeps_sendFar
    | dsimp only
    | split

def touchTakeColl (p : Option Reg) : Bool := touchDropStale p || touchRelayColl p

theorem keeps_takeColl (hK : Closed T K) (s : State) (q : MailPort) (h : Header) (b : Body) (f : State → State) (hT
    : ∀ p, touchTakeColl p = true → T p = true) (hks : Has K s) (hkf : ∀ x0, Has K x0 → Has K (f x0)) : Has K
    (State.takeColl s q h b f) := by
  unfold State.takeColl
  try dsimp only
  repeat' first
    | exact fun p hp => hT p (by simp only [touchTakeColl, hp, Bool.or_true, Bool.true_or])
    | intro _
    | with_reducible assumption
    | with_reducible exact hks
    | with_reducible apply hkf
    | with_reducible apply Has.ite
    | with_reducible apply keeps_dropStale
    | with_reducible apply keeps_relayColl
    | dsimp only
    | split

def touchLateColl (p : Option Reg) : Bool := touchAddReg .collLateDrops p

theorem keeps_lateColl (hK : Closed T K) (s : State) (i : CollId) (hT : ∀ p, touchLateColl p = true → T p = true) (hks
    : Has K s) : Has K (State.lateColl s i) := by
  unfold State.lateColl
  try dsimp only
  repeat' first
    | exact fun p hp => hT p hp
    | intro _
    | with_reducible assumption
    | with_reducible exact hks
    | with_reducible apply Has.ite
    | with_reducible apply keeps_addReg
    | dsimp only
    | split

def touchWithColl (p : Option Reg) : Bool := touchLateColl p

theorem keeps_withColl (hK : Closed T K) (s : State) (src : Nat) (i : CollId) (f : State → Coll → Nat → State) (hT :
    ∀ p, touchWithColl p = true → T p = true) (hks : Has K s) (hkf : ∀ x0 x1 x2, Has K x0 → Has K (f x0 x1 x2)) :
    Has K (State.withColl s src i f) := by
  unfold State.withColl
  try dsimp only
  repeat' first
    | exact fun p hp => hT p hp
    | intro _
    | with_reducible assumption
    | with_reducible exact hks
    | with_reducible apply hkf
    | with_reducible apply Has.ite
    | with_reducible apply keeps_lateColl
    | with_reducible apply keeps_openColl
    | with_reducible refine HasOpt.of_eq ?_ (by assumption)
    | with_reducible apply HasOpt.getD
    | dsimp only
    | split

def touchWithRun (p : Option Reg) : Bool := touchWithColl p

theorem keeps_withRun (hK : Closed T K) (s : State) (src : Nat) (i : CollId) (run : Nat) (f : State → Coll → Nat →
    State) (hT : ∀ p, touchWithRun p = true → T p = true) (hks : Has K s) (hkf : ∀ x0 x1 x2, Has K x0 → Has K (f x0
    x1 x2)) : Has K (State.withRun s src i run f) := by
  unfold State.withRun
  try dsimp only
  repeat' first
    | exact fun p hp => hT p hp
    | intro _
    | with_reducible assumption
    | with_reducible exact hks
    | with_reducible apply hkf
    | with_reducible apply Has.ite
    | with_reducible apply keeps_withColl
    | dsimp only
    | split

def touchPartArrives (p : Option Reg) : Bool := touchAddReg .collDigestFails p || touchAdvanceColl p ||
  touchReportColl p

theorem keeps_partArrives (hK : Closed T K) (s : State) (c : Coll) (child run : Nat) (sig : CollSig) (k : Nat) (vals
    : List (Option Nat)) (counts : List (Nat × Nat)) (status : Nat) (d : Dword) (queueFull : Bool) (hT : ∀ p,
    touchPartArrives p = true → T p = true) (hks : Has K s) : Has K (State.partArrives s c child run sig k vals
    counts status d queueFull) := by
  unfold State.partArrives
  try dsimp only
  repeat' first
    | exact fun p hp => hT p (by simp only [touchPartArrives, hp, Bool.or_true, Bool.true_or])
    | intro _
    | with_reducible assumption
    | with_reducible exact hks
    | with_reducible apply Has.ite
    | with_reducible apply keeps_addReg
    | with_reducible apply keeps_advanceColl
    | with_reducible apply keeps_reportColl
    | with_reducible apply keeps_setColl
    | simp only [Has.same hK]
    | dsimp only
    | split

def touchChunkFails (p : Option Reg) : Bool := touchAddReg .collDigestFails p || touchFailJoined p || touchNoteAbort
  p

theorem keeps_chunkFails (hK : Closed T K) (s : State) (c : Coll) (parent k : Nat) (queueFull : Bool) (hT : ∀ p,
    touchChunkFails p = true → T p = true) (hks : Has K s) : Has K (State.chunkFails s c parent k queueFull) := by
  unfold State.chunkFails
  try dsimp only
  repeat' first
    | exact fun p hp => hT p (by simp only [touchChunkFails, hp, Bool.or_true, Bool.true_or])
    | intro _
    | with_reducible assumption
    | with_reducible exact hks
    | with_reducible apply Has.ite
    | with_reducible apply keeps_addReg
    | with_reducible apply keeps_failJoined
    | with_reducible apply keeps_noteAbort
    | with_reducible apply keeps_retireColl
    | with_reducible apply keeps_setColl
    | with_reducible apply keeps_tellColl
    | simp only [Has.same hK]
    | dsimp only
    | split

def touchResultArrives (p : Option Reg) : Bool := touchAcceptChunk p || touchChunkFails p || touchHoldChunk p ||
  touchSettleColl p

theorem keeps_resultArrives (hK : Closed T K) (s : State) (c : Coll) (parent run k : Nat) (vals : List (Nat × Bool))
    (d : Dword) (queueFull : Bool) (hT : ∀ p, touchResultArrives p = true → T p = true) (hks : Has K s) : Has K
    (State.resultArrives s c parent run k vals d queueFull) := by
  unfold State.resultArrives
  try dsimp only
  repeat' first
    | exact fun p hp => hT p (by simp only [touchResultArrives, hp, Bool.or_true, Bool.true_or])
    | intro _
    | with_reducible assumption
    | with_reducible exact hks
    | with_reducible apply Has.ite
    | with_reducible apply keeps_acceptChunk
    | with_reducible apply keeps_chunkFails
    | with_reducible apply keeps_holdChunk
    | with_reducible apply keeps_settleColl
    | with_reducible apply keeps_tellColl
    | dsimp only
    | split

def touchChunkArrives (p : Option Reg) : Bool := touchPartArrives p || touchResultArrives p || touchWithColl p

theorem keeps_chunkArrives (hK : Closed T K) (s : State) (src : Nat) (i : CollId) (run : Nat) (sig : CollSig) (m :
    CollMsg) (queueFull : Bool) (hT : ∀ p, touchChunkArrives p = true → T p = true) (hks : Has K s) : Has K
    (State.chunkArrives s src i run sig m queueFull) := by
  unfold State.chunkArrives
  try dsimp only
  repeat' first
    | exact fun p hp => hT p (by simp only [touchChunkArrives, hp, Bool.or_true, Bool.true_or])
    | intro _
    | with_reducible assumption
    | with_reducible exact hks
    | with_reducible apply Has.ite
    | with_reducible apply keeps_partArrives
    | with_reducible apply keeps_resultArrives
    | with_reducible apply keeps_withColl
    | dsimp only
    | split

def touchExecCollChunkReceive (p : Option Reg) : Bool := touchChunkArrives p || touchTakeColl p

theorem keeps_execCollChunkReceive (hK : Closed T K) (q : MailPort) (h : Header) (i : CollId) (run : Fin 3) (sig :
    CollSig) (m : CollMsg) (queueFull : Bool) (s : State) (hT : ∀ p, touchExecCollChunkReceive p = true → T p =
    true) (hks : Has K s) : HasRes K (execCollChunkReceive q h i run sig m queueFull s) := by
  unfold execCollChunkReceive
  try dsimp only
  repeat' first
    | exact fun p hp => hT p (by simp only [touchExecCollChunkReceive, hp, Bool.or_true, Bool.true_or])
    | intro _
    | with_reducible assumption
    | with_reducible exact hks
    | with_reducible apply HasRes.next
    | with_reducible apply HasRes.ite
    | with_reducible apply Has.ite
    | with_reducible apply keeps_chunkArrives
    | with_reducible apply keeps_takeColl
    | dsimp only
    | split

def touchRetryHeld (p : Option Reg) : Bool := touchAcceptChunk p || touchResultArrives p || touchSendToken p || touchSettleColl p

theorem keeps_retryHeld (hK : Closed T K) (s : State) (queueFull : Bool) (n : Nat) (hT : ∀ p, touchRetryHeld p = true → T p = true)
    (hks : Has K s) : Has K (State.retryHeld s queueFull n) := by
  induction n generalizing s with
  | zero => exact hks
  | succ n ih =>
    unfold State.retryHeld
    try dsimp only
    repeat' first
      | exact fun p hp => hT p (by simp only [touchRetryHeld, hp, Bool.or_true, Bool.true_or])
      | intro _
      | with_reducible assumption
      | with_reducible exact hks
      | with_reducible apply ih
      | with_reducible apply keeps_acceptChunk
      | with_reducible apply keeps_resultArrives
      | with_reducible apply keeps_sendToken
      | with_reducible apply keeps_settleColl
      | simp only [Has.same hK]
      | with_reducible apply Has.ite
      | dsimp only
      | split

def touchExecCollRetentionAck (p : Option Reg) : Bool := touchRetryHeld p || touchTakeColl p || touchWithRun p

theorem keeps_execCollRetentionAck (hK : Closed T K) (q : MailPort) (h : Header) (i : CollId) (run : Fin 3) (k :
    Nat) (queueFull : Bool) (s : State) (hT : ∀ p, touchExecCollRetentionAck p = true → T p = true) (hks : Has K s)
    : HasRes K (execCollRetentionAck q h i run k queueFull s) := by
  unfold execCollRetentionAck
  try dsimp only
  repeat' first
    | exact fun p hp => hT p (by simp only [touchExecCollRetentionAck, hp, Bool.or_true, Bool.true_or])
    | intro _
    | with_reducible assumption
    | with_reducible exact hks
    | with_reducible apply HasRes.next
    | with_reducible apply HasRes.ite
    | with_reducible apply Has.ite
    | with_reducible apply keeps_retryHeld
    | with_reducible apply keeps_setColl
    | with_reducible apply keeps_sweepColl
    | with_reducible apply keeps_takeColl
    | with_reducible apply keeps_withRun
    | simp only [Has.same hK]
    | dsimp only
    | split

def touchExecCollCommit (p : Option Reg) : Bool := touchSettleColl p || touchTakeColl p || touchTellColls p ||
  touchWithRun p

theorem keeps_execCollCommit (hK : Closed T K) (q : MailPort) (h : Header) (i : CollId) (run : Fin 3) (tree : Fin 2)
    (status : Nat) (counts : List (Nat × Nat)) (queueFull : Bool) (s : State) (hT : ∀ p, touchExecCollCommit p =
    true → T p = true) (hks : Has K s) : HasRes K (execCollCommit q h i run tree status counts queueFull s) := by
  unfold execCollCommit
  try dsimp only
  repeat' first
    | exact fun p hp => hT p (by simp only [touchExecCollCommit, hp, Bool.or_true, Bool.true_or])
    | intro _
    | with_reducible assumption
    | with_reducible exact hks
    | with_reducible apply HasRes.next
    | with_reducible apply HasRes.ite
    | with_reducible apply Has.ite
    | with_reducible apply keeps_setColl
    | with_reducible apply keeps_settleColl
    | with_reducible apply keeps_takeColl
    | with_reducible apply keeps_tellColls
    | with_reducible apply keeps_withRun
    | simp only [Has.same hK]
    | dsimp only
    | split

def touchExecCollAbort (p : Option Reg) : Bool := touchAbortColl p || touchTakeColl p || touchWithRun p

theorem keeps_execCollAbort (hK : Closed T K) (q : MailPort) (h : Header) (i : CollId) (run : Fin 3) (final : Bool)
    (queueFull : Bool) (s : State) (hT : ∀ p, touchExecCollAbort p = true → T p = true) (hks : Has K s) : HasRes K
    (execCollAbort q h i run final queueFull s) := by
  unfold execCollAbort
  try dsimp only
  repeat' first
    | exact fun p hp => hT p (by simp only [touchExecCollAbort, hp, Bool.or_true, Bool.true_or])
    | intro _
    | with_reducible assumption
    | with_reducible exact hks
    | with_reducible apply HasRes.next
    | with_reducible apply HasRes.ite
    | with_reducible apply Has.ite
    | with_reducible apply keeps_abortColl
    | with_reducible apply keeps_takeColl
    | with_reducible apply keeps_withRun
    | dsimp only
    | split

def touchExecDigestMismatchReport (p : Option Reg) : Bool := touchRootAborts p || touchTakeColl p || touchWithRun p

theorem keeps_execDigestMismatchReport (hK : Closed T K) (q : MailPort) (h : Header) (i : CollId) (run : Fin 3)
    (signature : Bool) (queueFull : Bool) (s : State) (hT : ∀ p, touchExecDigestMismatchReport p = true → T p =
    true) (hks : Has K s) : HasRes K (execDigestMismatchReport q h i run signature queueFull s) := by
  unfold execDigestMismatchReport
  try dsimp only
  repeat' first
    | exact fun p hp => hT p (by simp only [touchExecDigestMismatchReport, hp, Bool.or_true, Bool.true_or])
    | intro _
    | with_reducible assumption
    | with_reducible exact hks
    | with_reducible apply HasRes.next
    | with_reducible apply HasRes.ite
    | with_reducible apply Has.ite
    | with_reducible apply keeps_rootAborts
    | with_reducible apply keeps_takeColl
    | with_reducible apply keeps_withRun
    | dsimp only
    | split

def touchExecChunkRefetchRequest (p : Option Reg) : Bool := touchTakeColl p || touchWithRun p

theorem keeps_execChunkRefetchRequest (hK : Closed T K) (q : MailPort) (h : Header) (i : CollId) (run : Fin 3) (k :
    Nat) (s : State) (hT : ∀ p, touchExecChunkRefetchRequest p = true → T p = true) (hks : Has K s) : HasRes K
    (execChunkRefetchRequest q h i run k s) := by
  unfold execChunkRefetchRequest
  try dsimp only
  repeat' first
    | exact fun p hp => hT p (by simp only [touchExecChunkRefetchRequest, hp, Bool.or_true, Bool.true_or])
    | intro _
    | with_reducible assumption
    | with_reducible exact hks
    | with_reducible apply HasRes.next
    | with_reducible apply HasRes.ite
    | with_reducible apply Has.ite
    | with_reducible apply keeps_takeColl
    | with_reducible apply keeps_tellColl
    | with_reducible apply keeps_withRun
    | dsimp only
    | split

def touchExecCollAbandon (p : Option Reg) : Bool := touchAddReg .collAbandoned p || touchFailCollAt p

theorem keeps_execCollAbandon (hK : Closed T K) (b : Fin 256) (queueFull : Bool) (s : State) (hT : ∀ p,
    touchExecCollAbandon p = true → T p = true) (hks : Has K s) : HasRes K (execCollAbandon b queueFull s) := by
  unfold execCollAbandon
  try dsimp only
  repeat' first
    | exact fun p hp => hT p (by simp only [touchExecCollAbandon, hp, Bool.or_true, Bool.true_or])
    | intro _
    | with_reducible assumption
    | with_reducible exact hks
    | with_reducible apply HasRes.next
    | with_reducible apply HasRes.ite
    | with_reducible apply Has.ite
    | with_reducible apply keeps_addReg
    | with_reducible apply keeps_closeColl
    | with_reducible apply keeps_failCollAt
    | dsimp only
    | split

end Sys2Proof.Machine
end

