-- ==== Sys2Proof/Laws/KeepsSequencer.lean ====
section
/-! SUPPORT. What the operations of Machine/Sequencer.lean keep, and the registers that each may change. -/

namespace Sys2Proof.Machine

variable {T : Option Reg → Bool} {K : State → Prop}

def touchFillWindow (p : Option Reg) : Bool := touchAddReg .windowMisses p || touchSetBay p

theorem keeps_fillWindow (hK : Closed T K) (s : State) (b addr : Nat) (hT : ∀ p, touchFillWindow p = true → T p =
    true) (hks : Has K s) : Has K (State.fillWindow s b addr) := by
  unfold State.fillWindow
  try dsimp only
  repeat' first
    | exact fun p hp => hT p (by simp only [touchFillWindow, hp, Bool.or_true, Bool.true_or])
    | intro _
    | with_reducible assumption
    | with_reducible exact hks
    | with_reducible apply Has.ite
    | with_reducible apply keeps_addReg
    | with_reducible apply keeps_setBay
    | simp only [Has.same hK]
    | dsimp only
    | split

def touchFillDesc (p : Option Reg) : Bool := touchAddReg .windowMisses p || touchSetBay p

theorem keeps_fillDesc (hK : Closed T K) (s : State) (b : Nat) (addr : Option Nat) (hT : ∀ p, touchFillDesc p = true →
    T p = true) (hks : Has K s) : Has K (State.fillDesc s b addr) := by
  unfold State.fillDesc
  try dsimp only
  repeat' first
    | exact fun p hp => hT p (by simp only [touchFillDesc, hp, Bool.or_true, Bool.true_or])
    | intro _
    | with_reducible assumption
    | with_reducible exact hks
    | with_reducible apply Has.ite
    | with_reducible apply keeps_addReg
    | with_reducible apply keeps_setBay
    | simp only [Has.same hK]
    | dsimp only
    | split

def touchExecEntryIssue (p : Option Reg) : Bool := touchAddReg .stepsIssued p || touchEmitRecord p || touchFillWindow
  p || touchHaltTable p || touchSetBay p

theorem keeps_execEntryIssue (hK : Closed T K) (b : Fin 256) (s : State) (hT : ∀ p, touchExecEntryIssue p = true → T p
    = true) (hks : Has K s) : HasRes K (execEntryIssue b s) := by
  unfold execEntryIssue
  try dsimp only
  repeat' first
    | exact fun p hp => hT p (by simp only [touchExecEntryIssue, hp, Bool.or_true, Bool.true_or])
    | intro _
    | with_reducible assumption
    | with_reducible exact hks
    | with_reducible apply HasRes.next
    | with_reducible apply HasRes.ite
    | with_reducible apply Has.ite
    | with_reducible apply keeps_addReg
    | with_reducible apply keeps_emitRecord
    | with_reducible apply keeps_fillWindow
    | with_reducible apply keeps_haltTable
    | with_reducible apply keeps_setBay
    | simp only [Has.same hK]
    | dsimp only
    | split

def touchNoteHold (p : Option Reg) : Bool := touchEndHold p

theorem keeps_noteHold (hK : Closed T K) (s : State) (b : Nat) (x : Bay) (f : Flight) (hT : ∀ p, touchNoteHold p =
    true → T p = true) (hks : Has K s) : Has K (State.noteHold s b x f) := by
  unfold State.noteHold
  try dsimp only
  repeat' first
    | exact fun p hp => hT p hp
    | intro _
    | with_reducible assumption
    | with_reducible exact hks
    | with_reducible apply Has.ite
    | with_reducible apply keeps_endHold
    | with_reducible apply keeps_setBay
    | simp only [Has.same hK]
    | dsimp only
    | split

def touchNoteHoldOf (p : Option Reg) : Bool := touchNoteHold p

theorem keeps_noteHoldOf (hK : Closed T K) (s : State) (b : Nat) (hT : ∀ p, touchNoteHoldOf p = true → T p = true)
    (hks : Has K s) : Has K (State.noteHoldOf s b) := by
  unfold State.noteHoldOf
  try dsimp only
  repeat' first
    | exact fun p hp => hT p hp
    | intro _
    | with_reducible assumption
    | with_reducible exact hks
    | with_reducible apply Has.ite
    | with_reducible apply keeps_noteHold
    | dsimp only
    | split

def touchEndUnread (p : Option Reg) : Bool := touchEmitRecord p || touchHaltTable p || touchLoseModel p

theorem keeps_endUnread (hK : Closed T K) (s : State) (b : Nat) (f : Flight) (bad : List (Nat × Nat)) (queueFull :
    Bool) (hT : ∀ p, touchEndUnread p = true → T p = true) (hks : Has K s) : Has K (State.endUnread s b f bad
    queueFull) := by
  unfold State.endUnread
  try dsimp only
  repeat' first
    | exact fun p hp => hT p (by simp only [touchEndUnread, hp, Bool.or_true, Bool.true_or])
    | intro _
    | with_reducible assumption
    | with_reducible exact hks
    | with_reducible apply Has.ite
    | with_reducible apply keeps_emitRecord
    | with_reducible apply keeps_haltTable
    | with_reducible apply keeps_loseModel
    | simp only [Has.same hK]
    | dsimp only
    | split

def touchLaunch (p : Option Reg) : Bool := touchWrites p

theorem keeps_launch (hK : Closed T K) (s : State) (b : Nat) (x : Bay) (f : Flight) (p : Prep) (areas : List Nat)
    (limit : Nat) (hT : ∀ p, touchLaunch p = true → T p = true) (hks : Has K s) : Has K (State.launch s b x f p
    areas limit) := by
  unfold State.launch
  try dsimp only
  repeat' first
    | exact fun p hp => hT p hp
    | intro _
    | with_reducible assumption
    | with_reducible exact hks
    | with_reducible apply Has.ite
    | with_reducible apply keeps_setBay
    | with_reducible apply keeps_writes
    | simp only [Has.same hK]
    | dsimp only
    | split

def touchStartRead (p : Option Reg) : Bool := touchAddReg .ndConverted p || touchAddReg .scaleAreaRaces p ||
  touchDescError p || touchLaunch p || touchRejectEntry p || touchViewFor p

theorem keeps_startRead (hK : Closed T K) (s : State) (b : Nat) (f : Flight) (queueFull : Bool) (hT : ∀ p,
    touchStartRead p = true → T p = true) (hks : Has K s) : Has K (State.startRead s b f queueFull) := by
  unfold State.startRead
  try dsimp only
  repeat' first
    | exact fun p hp => hT p (by simp only [touchStartRead, hp, Bool.or_true, Bool.true_or])
    | intro _
    | with_reducible assumption
    | with_reducible exact hks
    | with_reducible apply Has.ite
    | with_reducible apply keeps_addReg
    | with_reducible apply keeps_descError
    | with_reducible apply keeps_launch
    | with_reducible apply keeps_rejectEntry
    | with_reducible apply keeps_setBay
    | with_reducible apply keeps_viewFor
    | simp only [Has.same hK]
    | dsimp only
    | split

def touchPreload (p : Option Reg) : Bool := touchViewFor p

theorem keeps_preload (hK : Closed T K) (s : State) (b : Nat) (f : Flight) (hT : ∀ p, touchPreload p = true → T p =
    true) (hks : Has K s) : Has K (State.preload s b f) := by
  unfold State.preload
  try dsimp only
  repeat' first
    | exact fun p hp => hT p hp
    | intro _
    | with_reducible assumption
    | with_reducible exact hks
    | with_reducible apply Has.ite
    | with_reducible apply keeps_setBay
    | with_reducible apply keeps_viewFor
    | simp only [Has.same hK]
    | dsimp only
    | split

def touchFillDescs (p : Option Reg) : Bool := touchFillDesc p

theorem keeps_fillDescs (hK : Closed T K) (s : State) (b : Nat) (f : Flight) (hT : ∀ p, touchFillDescs p = true → T p
    = true) (hks : Has K s) : Has K (State.fillDescs s b f) := by
  unfold State.fillDescs
  try dsimp only
  repeat' first
    | exact fun p hp => hT p hp
    | intro _
    | with_reducible assumption
    | with_reducible exact hks
    | with_reducible apply Has.ite
    | with_reducible apply keeps_fillDesc
    | with_reducible apply Has.foldl
    | with_reducible apply Has1.foldl
    | with_reducible exact Has1.proj (by with_reducible assumption)
    | with_reducible apply Has1.mk
    | dsimp only
    | split

def touchStartEntry (p : Option Reg) : Bool := touchDescError p || touchEndUnread p || touchFillDescs p ||
  touchNoteHold p || touchPreload p || touchStartRead p

theorem keeps_startEntry (hK : Closed T K) (s : State) (b : Nat) (f : Flight) (queueFull : Bool) (hT : ∀ p,
    touchStartEntry p = true → T p = true) (hks : Has K s) : Has K (State.startEntry s b f queueFull) := by
  unfold State.startEntry
  try dsimp only
  repeat' first
    | exact fun p hp => hT p (by simp only [touchStartEntry, hp, Bool.or_true, Bool.true_or])
    | intro _
    | with_reducible assumption
    | with_reducible exact hks
    | with_reducible apply Has.ite
    | with_reducible apply keeps_descError
    | with_reducible apply keeps_endUnread
    | with_reducible apply keeps_fillDescs
    | with_reducible apply keeps_noteHold
    | with_reducible apply keeps_preload
    | with_reducible apply keeps_startRead
    | dsimp only
    | split

def touchExecEntryStart (p : Option Reg) : Bool := touchStartEntry p

theorem keeps_execEntryStart (hK : Closed T K) (b : Fin 256) (queueFull : Bool) (s : State) (hT : ∀ p,
    touchExecEntryStart p = true → T p = true) (hks : Has K s) : HasRes K (execEntryStart b queueFull s) := by
  unfold execEntryStart
  try dsimp only
  repeat' first
    | exact fun p hp => hT p hp
    | intro _
    | with_reducible assumption
    | with_reducible exact hks
    | with_reducible apply HasRes.next
    | with_reducible apply HasRes.ite
    | with_reducible apply Has.ite
    | with_reducible apply keeps_startEntry
    | dsimp only
    | split

def touchCheckRound (p : Option Reg) : Bool := touchAddReg .raccRound p

theorem keeps_checkRound (hK : Closed T K) (s : State) (step : Nat) (hT : ∀ p, touchCheckRound p = true → T p =
    true) (hks : Has K s) : Has K (State.checkRound s step) := by
  unfold State.checkRound
  try dsimp only
  repeat' first
    | exact fun p hp => hT p hp
    | intro _
    | with_reducible assumption
    | with_reducible exact hks
    | with_reducible apply Has.ite
    | with_reducible apply keeps_addReg
    | simp only [Has.same hK]
    | dsimp only
    | split

def touchEndTable (p : Option Reg) : Bool := touchCheckRound p || touchSetTableState p || touchSwitchContext p

theorem keeps_endTable (hK : Closed T K) (s : State) (b : Nat) (f : Flight) (hT : ∀ p, touchEndTable p = true → T p
    = true) (hks : Has K s) : Has K (State.endTable s b f) := by
  unfold State.endTable
  try dsimp only
  repeat' first
    | exact fun p hp => hT p (by simp only [touchEndTable, hp, Bool.or_true, Bool.true_or])
    | intro _
    | with_reducible assumption
    | with_reducible exact hks
    | with_reducible apply Has.ite
    | with_reducible apply keeps_checkRound
    | with_reducible apply keeps_setBay
    | with_reducible apply keeps_setTableState
    | with_reducible apply keeps_switchContext
    | with_reducible apply Has.foldl
    | with_reducible apply Has1.foldl
    | with_reducible exact Has1.proj (by with_reducible assumption)
    | with_reducible apply Has1.mk
    | simp only [Has.same hK]
    | dsimp only
    | split

def touchNoteVector (p : Option Reg) : Bool := touchAddReg .vecSteps p || touchSetReg .vecStatusOr p

theorem keeps_noteVector (hK : Closed T K) (s : State) (f : Flight) (hT : ∀ p, touchNoteVector p = true → T p =
    true) (hks : Has K s) : Has K (State.noteVector s f) := by
  unfold State.noteVector
  try dsimp only
  repeat' first
    | exact fun p hp => hT p (by simp only [touchNoteVector, hp, Bool.or_true, Bool.true_or])
    | intro _
    | with_reducible assumption
    | with_reducible exact hks
    | with_reducible apply Has.ite
    | with_reducible apply keeps_addReg
    | with_reducible apply keeps_setReg
    | dsimp only
    | split

def touchLeaveIfWaiting (p : Option Reg) : Bool := touchSwitchContext p

theorem keeps_leaveIfWaiting (hK : Closed T K) (s : State) (b : Nat) (hT : ∀ p, touchLeaveIfWaiting p = true → T p =
    true) (hks : Has K s) : Has K (State.leaveIfWaiting s b) := by
  unfold State.leaveIfWaiting
  try dsimp only
  repeat' first
    | exact fun p hp => hT p hp
    | intro _
    | with_reducible assumption
    | with_reducible exact hks
    | with_reducible apply Has.ite
    | with_reducible apply keeps_switchContext
    | dsimp only
    | split

def touchCompleteEntry (p : Option Reg) : Bool := touchEmitRecord p || touchEndTable p || touchFinish p ||
  touchLeaveIfWaiting p || touchLoseModel p || touchNoteVector p

theorem keeps_completeEntry (hK : Closed T K) (s : State) (b : Nat) (f : Flight) (queueFull : Bool) (hT : ∀ p,
    touchCompleteEntry p = true → T p = true) (hks : Has K s) : Has K (State.completeEntry s b f queueFull) := by
  unfold State.completeEntry
  try dsimp only
  repeat' first
    | exact fun p hp => hT p (by simp only [touchCompleteEntry, hp, Bool.or_true, Bool.true_or])
    | intro _
    | with_reducible assumption
    | with_reducible exact hks
    | with_reducible apply Has.ite
    | with_reducible apply keeps_emitRecord
    | with_reducible apply keeps_endTable
    | with_reducible apply keeps_finish
    | with_reducible apply keeps_leaveIfWaiting
    | with_reducible apply keeps_loseModel
    | with_reducible apply keeps_noteVector
    | with_reducible apply keeps_setBay
    | simp only [Has.same hK]
    | dsimp only
    | split

def touchExecEntryComplete (p : Option Reg) : Bool := touchCompleteEntry p

theorem keeps_execEntryComplete (hK : Closed T K) (b : Fin 256) (queueFull : Bool) (s : State) (hT : ∀ p,
    touchExecEntryComplete p = true → T p = true) (hks : Has K s) : HasRes K (execEntryComplete b queueFull s) := by
  unfold execEntryComplete
  try dsimp only
  repeat' first
    | exact fun p hp => hT p hp
    | intro _
    | with_reducible assumption
    | with_reducible exact hks
    | with_reducible apply HasRes.next
    | with_reducible apply HasRes.ite
    | with_reducible apply Has.ite
    | with_reducible apply keeps_completeEntry
    | dsimp only
    | split

def touchExecEntryAbandon (p : Option Reg) : Bool := touchCompleteEntry p

theorem keeps_execEntryAbandon (hK : Closed T K) (b : Fin 256) (queueFull : Bool) (s : State) (hT : ∀ p,
    touchExecEntryAbandon p = true → T p = true) (hks : Has K s) : HasRes K (execEntryAbandon b queueFull s) := by
  unfold execEntryAbandon
  try dsimp only
  repeat' first
    | exact fun p hp => hT p hp
    | intro _
    | with_reducible assumption
    | with_reducible exact hks
    | with_reducible apply HasRes.next
    | with_reducible apply HasRes.ite
    | with_reducible apply Has.ite
    | with_reducible apply keeps_completeEntry
    | simp only [Has.same hK]
    | dsimp only
    | split

def touchResolveAt (p : Option Reg) : Bool := touchEmitRecord p || touchFinish p || touchSetBay p

theorem keeps_resolveAt (hK : Closed T K) (s : State) (b : Nat) (f : Flight) (table index : Nat) (queueFull : Bool)
    (hT : ∀ p, touchResolveAt p = true → T p = true) (hks : Has K s) : Has K (State.resolveAt s b f table index
    queueFull) := by
  unfold State.resolveAt
  try dsimp only
  repeat' first
    | exact fun p hp => hT p (by simp only [touchResolveAt, hp, Bool.or_true, Bool.true_or])
    | intro _
    | with_reducible assumption
    | with_reducible exact hks
    | with_reducible apply Has.ite
    | with_reducible apply keeps_emitRecord
    | with_reducible apply keeps_finish
    | with_reducible apply keeps_setBay
    | simp only [Has.same hK]
    | dsimp only
    | split

def touchExecBr (p : Option Reg) : Bool := touchDescError p || touchNoteHoldOf p || touchResolveAt p

theorem keeps_execBr (hK : Closed T K) (b : Fin 256) (queueFull : Bool) (s : State) (hT : ∀ p, touchExecBr p = true
    → T p = true) (hks : Has K s) : HasRes K (execBr b queueFull s) := by
  unfold execBr
  try dsimp only
  repeat' first
    | exact fun p hp => hT p (by simp only [touchExecBr, hp, Bool.or_true, Bool.true_or])
    | intro _
    | with_reducible assumption
    | with_reducible exact hks
    | with_reducible apply HasRes.next
    | with_reducible apply HasRes.ite
    | with_reducible apply Has.ite
    | with_reducible apply keeps_descError
    | with_reducible apply keeps_noteHoldOf
    | with_reducible apply keeps_resolveAt
    | simp only [Has.same hK]
    | dsimp only
    | split

def touchExecLoop (p : Option Reg) : Bool := touchDescError p || touchNoteHoldOf p || touchResolveAt p

theorem keeps_execLoop (hK : Closed T K) (b : Fin 256) (queueFull : Bool) (s : State) (hT : ∀ p, touchExecLoop p =
    true → T p = true) (hks : Has K s) : HasRes K (execLoop b queueFull s) := by
  unfold execLoop
  try dsimp only
  repeat' first
    | exact fun p hp => hT p (by simp only [touchExecLoop, hp, Bool.or_true, Bool.true_or])
    | intro _
    | with_reducible assumption
    | with_reducible exact hks
    | with_reducible apply HasRes.next
    | with_reducible apply HasRes.ite
    | with_reducible apply Has.ite
    | with_reducible apply keeps_descError
    | with_reducible apply keeps_noteHoldOf
    | with_reducible apply keeps_resolveAt
    | with_reducible apply keeps_setBay
    | simp only [Has.same hK]
    | dsimp only
    | split

def touchExecCall (p : Option Reg) : Bool := touchDescError p || touchEndUnread p || touchNoteHoldOf p ||
  touchResolveAt p

theorem keeps_execCall (hK : Closed T K) (b : Fin 256) (queueFull : Bool) (s : State) (hT : ∀ p, touchExecCall p =
    true → T p = true) (hks : Has K s) : HasRes K (execCall b queueFull s) := by
  unfold execCall
  try dsimp only
  repeat' first
    | exact fun p hp => hT p (by simp only [touchExecCall, hp, Bool.or_true, Bool.true_or])
    | intro _
    | with_reducible assumption
    | with_reducible exact hks
    | with_reducible apply HasRes.next
    | with_reducible apply HasRes.ite
    | with_reducible apply Has.ite
    | with_reducible apply keeps_descError
    | with_reducible apply keeps_endUnread
    | with_reducible apply keeps_noteHoldOf
    | with_reducible apply keeps_resolveAt
    | with_reducible apply keeps_setBay
    | simp only [Has.same hK]
    | dsimp only
    | split

def touchExecTableEnd (p : Option Reg) : Bool := touchPerform p

theorem keeps_execTableEnd (hK : Closed T K) (b : Fin 256) (s : State) (hT : ∀ p, touchExecTableEnd p = true → T p =
    true) (hks : Has K s) : HasRes K (execTableEnd b s) := by
  unfold execTableEnd
  try dsimp only
  repeat' first
    | exact fun p hp => hT p hp
    | intro _
    | with_reducible assumption
    | with_reducible exact hks
    | with_reducible apply HasRes.next
    | with_reducible apply HasRes.ite
    | with_reducible apply Has.ite
    | with_reducible apply keeps_perform
    | simp only [Has.same hK]
    | dsimp only
    | split

def touchStillWaits (p : Option Reg) : Bool := touchSetFlight p || touchShowWaiting p || touchSwitchContext p

theorem keeps_stillWaits (hK : Closed T K) (s : State) (b : Nat) (f : Flight) (hT : ∀ p, touchStillWaits p = true →
    T p = true) (hks : Has K s) : Has K (State.stillWaits s b f) := by
  unfold State.stillWaits
  try dsimp only
  repeat' first
    | exact fun p hp => hT p (by simp only [touchStillWaits, hp, Bool.or_true, Bool.true_or])
    | intro _
    | with_reducible assumption
    | with_reducible exact hks
    | with_reducible apply Has.ite
    | with_reducible apply keeps_setFlight
    | with_reducible apply keeps_showWaiting
    | with_reducible apply keeps_switchContext
    | simp only [Has.same hK]
    | dsimp only
    | split

def touchGroupFence (p : Option Reg) : Bool := touchCheckRound p

theorem keeps_groupFence (hK : Closed T K) (s : State) (b step : Nat) (hT : ∀ p, touchGroupFence p = true → T p =
    true) (hks : Has K s) : Has K (State.groupFence s b step) := by
  unfold State.groupFence
  try dsimp only
  repeat' first
    | exact fun p hp => hT p hp
    | intro _
    | with_reducible assumption
    | with_reducible exact hks
    | with_reducible apply Has.ite
    | with_reducible apply keeps_checkRound
    | simp only [Has.same hK]
    | dsimp only
    | split

def touchExecFence (p : Option Reg) : Bool := touchGroupFence p || touchSetBay p || touchSetFlight p ||
  touchStillWaits p

theorem keeps_execFence (hK : Closed T K) (b : Fin 256) (s : State) (hT : ∀ p, touchExecFence p = true → T p = true)
    (hks : Has K s) : HasRes K (execFence b s) := by
  unfold execFence
  try dsimp only
  repeat' first
    | exact fun p hp => hT p (by simp only [touchExecFence, hp, Bool.or_true, Bool.true_or])
    | intro _
    | with_reducible assumption
    | with_reducible exact hks
    | with_reducible apply HasRes.next
    | with_reducible apply HasRes.ite
    | with_reducible apply Has.ite
    | with_reducible apply keeps_groupFence
    | with_reducible apply keeps_setBay
    | with_reducible apply keeps_setFlight
    | with_reducible apply keeps_stillWaits
    | simp only [Has.same hK]
    | dsimp only
    | split

def touchEndWait (p : Option Reg) : Bool := touchSetBay p || touchSetFlight p

theorem keeps_endWait (hK : Closed T K) (s : State) (b : Nat) (f : Flight) (hT : ∀ p, touchEndWait p = true → T p =
    true) (hks : Has K s) : Has K (State.endWait s b f) := by
  unfold State.endWait
  try dsimp only
  repeat' first
    | exact fun p hp => hT p (by simp only [touchEndWait, hp, Bool.or_true, Bool.true_or])
    | intro _
    | with_reducible assumption
    | with_reducible exact hks
    | with_reducible apply Has.ite
    | with_reducible apply keeps_setBay
    | with_reducible apply keeps_setFlight
    | with_reducible apply Has.foldl
    | with_reducible apply Has1.foldl
    | with_reducible exact Has1.proj (by with_reducible assumption)
    | with_reducible apply Has1.mk
    | simp only [Has.same hK]
    | dsimp only
    | split

def touchRunWait (p : Option Reg) : Bool := touchEndWait p || touchStillWaits p

theorem keeps_runWait (hK : Closed T K) (s : State) (b kind : Nat) (hT : ∀ p, touchRunWait p = true → T p = true) (hks
    : Has K s) : Has K (State.runWait s b kind) := by
  unfold State.runWait
  try dsimp only
  repeat' first
    | exact fun p hp => hT p (by simp only [touchRunWait, hp, Bool.or_true, Bool.true_or])
    | intro _
    | with_reducible assumption
    | with_reducible exact hks
    | with_reducible apply Has.ite
    | with_reducible apply keeps_endWait
    | with_reducible apply keeps_stillWaits
    | dsimp only
    | split

def touchExecWaitEvent (p : Option Reg) : Bool := touchRunWait p

theorem keeps_execWaitEvent (hK : Closed T K) (b : Fin 256) (s : State) (hT : ∀ p, touchExecWaitEvent p = true → T p =
    true) (hks : Has K s) : HasRes K (execWaitEvent b s) := by
  unfold execWaitEvent
  try dsimp only
  repeat' first
    | exact fun p hp => hT p hp
    | intro _
    | with_reducible assumption
    | with_reducible exact hks
    | with_reducible apply HasRes.next
    | with_reducible apply HasRes.ite
    | with_reducible apply Has.ite
    | with_reducible apply keeps_runWait
    | dsimp only
    | split

def touchExecWaitFlag (p : Option Reg) : Bool := touchRunWait p

theorem keeps_execWaitFlag (hK : Closed T K) (b : Fin 256) (s : State) (hT : ∀ p, touchExecWaitFlag p = true → T p =
    true) (hks : Has K s) : HasRes K (execWaitFlag b s) := by
  unfold execWaitFlag
  try dsimp only
  repeat' first
    | exact fun p hp => hT p hp
    | intro _
    | with_reducible assumption
    | with_reducible exact hks
    | with_reducible apply HasRes.next
    | with_reducible apply HasRes.ite
    | with_reducible apply Has.ite
    | with_reducible apply keeps_runWait
    | dsimp only
    | split

def touchExecWaitNodeBarrier (p : Option Reg) : Bool := touchRunWait p

theorem keeps_execWaitNodeBarrier (hK : Closed T K) (b : Fin 256) (s : State) (hT : ∀ p, touchExecWaitNodeBarrier p =
    true → T p = true) (hks : Has K s) : HasRes K (execWaitNodeBarrier b s) := by
  unfold execWaitNodeBarrier
  try dsimp only
  repeat' first
    | exact fun p hp => hT p hp
    | intro _
    | with_reducible assumption
    | with_reducible exact hks
    | with_reducible apply HasRes.next
    | with_reducible apply HasRes.ite
    | with_reducible apply Has.ite
    | with_reducible apply keeps_runWait
    | dsimp only
    | split

def touchExecWaitToken (p : Option Reg) : Bool := touchRunWait p

theorem keeps_execWaitToken (hK : Closed T K) (b : Fin 256) (s : State) (hT : ∀ p, touchExecWaitToken p = true → T p =
    true) (hks : Has K s) : HasRes K (execWaitToken b s) := by
  unfold execWaitToken
  try dsimp only
  repeat' first
    | exact fun p hp => hT p hp
    | intro _
    | with_reducible assumption
    | with_reducible exact hks
    | with_reducible apply HasRes.next
    | with_reducible apply HasRes.ite
    | with_reducible apply Has.ite
    | with_reducible apply keeps_runWait
    | dsimp only
    | split

def touchUnparkFor (p : Option Reg) : Bool := touchParkBay p || touchUnparkBay p

theorem keeps_unparkFor (hK : Closed T K) (s : State) (b : Nat) (hT : ∀ p, touchUnparkFor p = true → T p = true)
    (hks : Has K s) : Has K (State.unparkFor s b) := by
  unfold State.unparkFor
  try dsimp only
  repeat' first
    | exact fun p hp => hT p (by simp only [touchUnparkFor, hp, Bool.or_true, Bool.true_or])
    | intro _
    | with_reducible assumption
    | with_reducible exact hks
    | with_reducible apply Has.ite
    | with_reducible apply keeps_parkBay
    | with_reducible apply keeps_unparkBay
    | with_reducible apply Has.foldl
    | with_reducible apply Has1.foldl
    | with_reducible exact Has1.proj (by with_reducible assumption)
    | with_reducible apply Has1.mk
    | dsimp only
    | split

def touchExecWaitConditionMet (p : Option Reg) : Bool := touchEndWait p || touchUnparkFor p

theorem keeps_execWaitConditionMet (hK : Closed T K) (b : Fin 256) (s : State) (hT : ∀ p, touchExecWaitConditionMet
    p = true → T p = true) (hks : Has K s) : HasRes K (execWaitConditionMet b s) := by
  unfold execWaitConditionMet
  try dsimp only
  repeat' first
    | exact fun p hp => hT p (by simp only [touchExecWaitConditionMet, hp, Bool.or_true, Bool.true_or])
    | intro _
    | with_reducible assumption
    | with_reducible exact hks
    | with_reducible apply HasRes.next
    | with_reducible apply HasRes.ite
    | with_reducible apply Has.ite
    | with_reducible apply keeps_endWait
    | with_reducible apply keeps_unparkFor
    | dsimp only
    | split

def touchSetEvent (_ : Option Reg) : Bool := false

theorem keeps_setEvent (hK : Closed T K) (s : State) (b v : Nat) (hks : Has K s) : Has K (State.setEvent s b v) :=
    by
  unfold State.setEvent
  try dsimp only
  repeat' first
    | intro _
    | with_reducible assumption
    | with_reducible exact hks
    | with_reducible apply Has.ite
    | with_reducible apply keeps_setBay
    | simp only [Has.same hK]
    | dsimp only
    | split

def touchExecEventRegisterWrite (p : Option Reg) : Bool := touchSetEvent p

theorem keeps_execEventRegisterWrite (hK : Closed T K) (b : Fin 256) (v : Dword) (s : State) (hT : ∀ p,
    touchExecEventRegisterWrite p = true → T p = true) (hks : Has K s) : HasRes K (execEventRegisterWrite b v s) := by
  unfold execEventRegisterWrite
  try dsimp only
  repeat' first
    | exact fun p hp => hT p hp
    | intro _
    | with_reducible assumption
    | with_reducible exact hks
    | with_reducible apply HasRes.next
    | with_reducible apply HasRes.ite
    | with_reducible apply Has.ite
    | with_reducible apply keeps_setEvent
    | dsimp only
    | split

def touchExecModeSetWrite (p : Option Reg) : Bool := touchWriteRequest p

theorem keeps_execModeSetWrite (hK : Closed T K) (q : Requester) (o : ModeObject) (n : Fin 16) (v : Byte) (s : State)
    (hT : ∀ p, touchExecModeSetWrite p = true → T p = true) (hks : Has K s) : HasRes K (execModeSetWrite q o n v s) :=
    by
  unfold execModeSetWrite
  try dsimp only
  repeat' first
    | exact fun p hp => hT p hp
    | intro _
    | with_reducible assumption
    | with_reducible exact hks
    | with_reducible apply HasRes.next
    | with_reducible apply HasRes.ite
    | with_reducible apply Has.ite
    | with_reducible apply keeps_writeRequest
    | dsimp only
    | split

end Sys2Proof.Machine
end

