-- ==== Sys2Proof/Laws/KeepsCores.lean ====
section
/-! SUPPORT. What the operations of Machine/Cores.lean keep, and the registers that each may change. -/

namespace Sys2Proof.Machine

variable {T : Option Reg → Bool} {K : State → Prop}

def touchIoWrite (p : Option Reg) : Bool := touchNotify p || touchRingMail p || touchSetEvent p

theorem keeps_ioWrite (hK : Closed T K) (s : State) (p : Nat) (bs : List Byte) (hT : ∀ p, touchIoWrite p = true → T p
    = true) (hks : Has K s) : Has K (State.ioWrite s p bs) := by
  unfold State.ioWrite
  try dsimp only
  repeat' first
    | exact fun p hp => hT p (by simp only [touchIoWrite, hp, Bool.or_true, Bool.true_or])
    | intro _
    | with_reducible assumption
    | with_reducible exact hks
    | with_reducible apply Has.ite
    | with_reducible apply keeps_notify
    | with_reducible apply keeps_ringMail
    | with_reducible apply keeps_setEvent
    | dsimp only
    | split

def touchEndLoad (p : Option Reg) : Bool := touchRetire p || touchTrap p

theorem keeps_endLoad (hK : Closed T K) (s : State) (h len va n : Nat) (poison : Bool) (f : Hart → Hart) (hT : ∀ p,
    touchEndLoad p = true → T p = true) (hks : Has K s) : Has K (State.endLoad s h len va n poison f) := by
  unfold State.endLoad
  try dsimp only
  repeat' first
    | exact fun p hp => hT p (by simp only [touchEndLoad, hp, Bool.or_true, Bool.true_or])
    | intro _
    | with_reducible assumption
    | with_reducible exact hks
    | with_reducible apply Has.ite
    | with_reducible apply keeps_retire
    | with_reducible apply keeps_trap
    | dsimp only
    | split

def touchStartLoad (p : Option Reg) : Bool := touchAccess p || touchAddReg .remoteAccesses p || touchEndLoad p ||
  touchPark p || touchRequest p || touchTrap p

theorem keeps_startLoad (hK : Closed T K) (s : State) (h len va n : Nat) (reach : CoreReach) (w : Place → Await) (f
    : Nat → Hart → Hart) (hT : ∀ p, touchStartLoad p = true → T p = true) (hks : Has K s) : Has K (State.startLoad s
    h len va n reach w f) := by
  unfold State.startLoad
  try dsimp only
  repeat' first
    | exact fun p hp => hT p (by simp only [touchStartLoad, hp, Bool.or_true, Bool.true_or])
    | intro _
    | with_reducible assumption
    | with_reducible exact hks
    | with_reducible apply Has.ite
    | with_reducible apply keeps_access
    | with_reducible apply keeps_addReg
    | with_reducible apply keeps_endLoad
    | with_reducible apply keeps_park
    | with_reducible apply keeps_request
    | with_reducible apply keeps_trap
    | with_reducible refine HasExc2.of_eq ?_ (by assumption)
    | dsimp only
    | split

def touchExecHartLoad (p : Option Reg) : Bool := touchIllegal p || touchStartLoad p

theorem keeps_execHartLoad (hK : Closed T K) (h : Fin 3072) (k : LoadKind) (short : Bool) (rd rs1 : Fin 32) (imm :
    BitVec 12) (reach : CoreReach) (s : State) (hT : ∀ p, touchExecHartLoad p = true → T p = true) (hks : Has K s) :
    HasRes K (execHartLoad h k short rd rs1 imm reach s) := by
  unfold execHartLoad
  try dsimp only
  repeat' first
    | exact fun p hp => hT p (by simp only [touchExecHartLoad, hp, Bool.or_true, Bool.true_or])
    | intro _
    | with_reducible assumption
    | with_reducible exact hks
    | with_reducible apply HasRes.next
    | with_reducible apply HasRes.ite
    | with_reducible apply Has.ite
    | with_reducible apply keeps_illegal
    | with_reducible apply keeps_startLoad
    | dsimp only
    | split

def touchExecVld (p : Option Reg) : Bool := touchIllegal p || touchStartLoad p || touchTrap p

theorem keeps_execVld (hK : Closed T K) (h : Fin 3072) (imm : BitVec 12) (rs1 vd : Fin 32) (reach : CoreReach) (s :
    State) (hT : ∀ p, touchExecVld p = true → T p = true) (hks : Has K s) : HasRes K (execVld h imm rs1 vd reach s)
    := by
  unfold execVld
  try dsimp only
  repeat' first
    | exact fun p hp => hT p (by simp only [touchExecVld, hp, Bool.or_true, Bool.true_or])
    | intro _
    | with_reducible assumption
    | with_reducible exact hks
    | with_reducible apply HasRes.next
    | with_reducible apply HasRes.ite
    | with_reducible apply Has.ite
    | with_reducible apply keeps_illegal
    | with_reducible apply keeps_startLoad
    | with_reducible apply keeps_trap
    | dsimp only
    | split

def touchExecHartStore (p : Option Reg) : Bool := touchAccess p || touchIllegal p || touchPark p || touchStoreAt p
  || touchTrap p

theorem keeps_execHartStore (hK : Closed T K) (h : Fin 3072) (k : StoreKind) (short : Bool) (rs2 rs1 : Fin 32) (imm
    : BitVec 12) (refill : Bool) (s : State) (hT : ∀ p, touchExecHartStore p = true → T p = true) (hks : Has K s) :
    HasRes K (execHartStore h k short rs2 rs1 imm refill s) := by
  unfold execHartStore
  try dsimp only
  repeat' first
    | exact fun p hp => hT p (by simp only [touchExecHartStore, hp, Bool.or_true, Bool.true_or])
    | intro _
    | with_reducible assumption
    | with_reducible exact hks
    | with_reducible apply HasRes.next
    | with_reducible apply HasRes.ite
    | with_reducible apply Has.ite
    | with_reducible apply keeps_access
    | with_reducible apply keeps_illegal
    | with_reducible apply keeps_park
    | with_reducible apply keeps_storeAt
    | with_reducible apply keeps_trap
    | with_reducible refine HasExc2.of_eq ?_ (by assumption)
    | dsimp only
    | split

def touchExecVst (p : Option Reg) : Bool := touchAccess p || touchIllegal p || touchPark p || touchStoreAt p ||
  touchTrap p

theorem keeps_execVst (hK : Closed T K) (h : Fin 3072) (imm : BitVec 12) (vs3 rs1 : Fin 32) (refill : Bool) (s :
    State) (hT : ∀ p, touchExecVst p = true → T p = true) (hks : Has K s) : HasRes K (execVst h imm vs3 rs1 refill
    s) := by
  unfold execVst
  try dsimp only
  repeat' first
    | exact fun p hp => hT p (by simp only [touchExecVst, hp, Bool.or_true, Bool.true_or])
    | intro _
    | with_reducible assumption
    | with_reducible exact hks
    | with_reducible apply HasRes.next
    | with_reducible apply HasRes.ite
    | with_reducible apply Has.ite
    | with_reducible apply keeps_access
    | with_reducible apply keeps_illegal
    | with_reducible apply keeps_park
    | with_reducible apply keeps_storeAt
    | with_reducible apply keeps_trap
    | with_reducible refine HasExc2.of_eq ?_ (by assumption)
    | dsimp only
    | split

def touchExecStoreBufferDrain (p : Option Reg) : Bool := touchIoWrite p || touchSettleHart p || touchWrite p

theorem keeps_execStoreBufferDrain (hK : Closed T K) (core : Fin 192) (s : State) (hT : ∀ p, touchExecStoreBufferDrain
    p = true → T p = true) (hks : Has K s) : HasRes K (execStoreBufferDrain core s) := by
  unfold execStoreBufferDrain
  try dsimp only
  repeat' first
    | exact fun p hp => hT p (by simp only [touchExecStoreBufferDrain, hp, Bool.or_true, Bool.true_or])
    | intro _
    | with_reducible assumption
    | with_reducible exact hks
    | with_reducible apply HasRes.next
    | with_reducible apply HasRes.ite
    | with_reducible apply Has.ite
    | with_reducible apply keeps_ioWrite
    | with_reducible apply keeps_settleHart
    | with_reducible apply keeps_write
    | with_reducible apply Has.foldl
    | with_reducible apply Has1.foldl
    | with_reducible exact Has1.proj (by with_reducible assumption)
    | with_reducible apply Has1.mk
    | simp only [Has.same hK]
    | dsimp only
    | split

def touchUnreserve (_ : Option Reg) : Bool := false

theorem keeps_unreserve (hK : Closed T K) (s : State) (h : Nat)  (hks : Has K s) : Has K (State.unreserve s h) := by
  unfold State.unreserve
  try dsimp only
  repeat' first
    | intro _
    | with_reducible assumption
    | with_reducible exact hks
    | with_reducible apply Has.ite
    | simp only [Has.same hK]
    | dsimp only
    | split

def touchLoadReserved (p : Option Reg) : Bool := touchRetire p || touchTrap p || touchUnreserve p

theorem keeps_loadReserved (hK : Closed T K) (s : State) (h size rd va a : Nat) (hT : ∀ p, touchLoadReserved p = true
    → T p = true) (hks : Has K s) : Has K (State.loadReserved s h size rd va a) := by
  unfold State.loadReserved
  try dsimp only
  repeat' first
    | exact fun p hp => hT p (by simp only [touchLoadReserved, hp, Bool.or_true, Bool.true_or])
    | intro _
    | with_reducible assumption
    | with_reducible exact hks
    | with_reducible apply Has.ite
    | with_reducible apply keeps_retire
    | with_reducible apply keeps_trap
    | with_reducible apply keeps_unreserve
    | simp only [Has.same hK]
    | dsimp only
    | split

def touchStoreConditional (p : Option Reg) : Bool := touchRetire p || touchUnreserve p || touchWrite p

theorem keeps_storeConditional (hK : Closed T K) (s : State) (h size rd x a : Nat) (hT : ∀ p, touchStoreConditional p
    = true → T p = true) (hks : Has K s) : Has K (State.storeConditional s h size rd x a) := by
  unfold State.storeConditional
  try dsimp only
  repeat' first
    | exact fun p hp => hT p (by simp only [touchStoreConditional, hp, Bool.or_true, Bool.true_or])
    | intro _
    | with_reducible assumption
    | with_reducible exact hks
    | with_reducible apply Has.ite
    | with_reducible apply keeps_retire
    | with_reducible apply keeps_setReg
    | with_reducible apply keeps_unreserve
    | with_reducible apply keeps_write
    | dsimp only
    | split

def touchAtomicAt (p : Option Reg) : Bool := touchAmo p || touchLoadReserved p || touchRetire p ||
  touchStoreConditional p || touchTrap p

theorem keeps_atomicAt (hK : Closed T K) (s : State) (h : Nat) (k : HartAtomic) (size rd x va a : Nat) (hT : ∀ p,
    touchAtomicAt p = true → T p = true) (hks : Has K s) : Has K (State.atomicAt s h k size rd x va a) := by
  unfold State.atomicAt
  try dsimp only
  repeat' first
    | exact fun p hp => hT p (by simp only [touchAtomicAt, hp, Bool.or_true, Bool.true_or])
    | intro _
    | with_reducible assumption
    | with_reducible exact hks
    | with_reducible apply Has.ite
    | with_reducible apply keeps_amo
    | with_reducible apply keeps_loadReserved
    | with_reducible apply keeps_retire
    | with_reducible apply keeps_storeConditional
    | with_reducible apply keeps_trap
    | with_reducible refine Has3.of_eq ?_ (by assumption)
    | (with_reducible apply Has3.proj; with_reducible apply keeps_amo)
    | dsimp only
    | split

def touchExecHartAmo (p : Option Reg) : Bool := touchAccess p || touchAddReg .remoteAccesses p || touchAtomicAt p ||
  touchPark p || touchRequest p || touchTrap p

theorem keeps_execHartAmo (hK : Closed T K) (h : Fin 3072) (a : HartAtomic) (wide rl : Bool) (rd rs1 rs2 : Fin 32)
    (reach : CoreReach) (s : State) (hT : ∀ p, touchExecHartAmo p = true → T p = true) (hks : Has K s) : HasRes K
    (execHartAmo h a wide rl rd rs1 rs2 reach s) := by
  unfold execHartAmo
  try dsimp only
  repeat' first
    | exact fun p hp => hT p (by simp only [touchExecHartAmo, hp, Bool.or_true, Bool.true_or])
    | intro _
    | with_reducible assumption
    | with_reducible exact hks
    | with_reducible apply HasRes.next
    | with_reducible apply HasRes.ite
    | with_reducible apply Has.ite
    | with_reducible apply keeps_access
    | with_reducible apply keeps_addReg
    | with_reducible apply keeps_atomicAt
    | with_reducible apply keeps_park
    | with_reducible apply keeps_request
    | with_reducible apply keeps_trap
    | with_reducible refine HasExc2.of_eq ?_ (by assumption)
    | dsimp only
    | split

def touchGatherPlaces (p : Option Reg) : Bool := touchAccess p

theorem keeps_gatherPlaces (hK : Closed T K) (s : State) (h : Nat) (store : Bool) (n first i : Nat) (vas : List Nat)
    (hT : ∀ p, touchGatherPlaces p = true → T p = true) (hks : Has K s) : HasExc2 K (State.gatherPlaces s h store n first i vas) := by
  induction vas generalizing s i with
  | nil => exact HasExc2.ok hks
  | cons va vas ih =>
    unfold State.gatherPlaces
    split
    · exact HasExc2.error
    · split
      · exact HasExc2.error
      · next p t he =>
        have ht : Has K t := HasExc2.of_eq (keeps_access hK _ _ _ _ _ (fun p hp => hT p hp) hks) he
        split
        · exact HasExc2.error
        · split
          · exact HasExc2.error
          · next he => exact HasExc2.ok (HasExc2.of_eq (ih _ _ ht) he)

def touchGatherFault (p : Option Reg) : Bool := touchAddReg .svxFaults p || touchSetHart p || touchTrap p

theorem keeps_gatherFault (hK : Closed T K) (s : State) (h i cause va : Nat) (indexed : Bool) (hT : ∀ p,
    touchGatherFault p = true → T p = true) (hks : Has K s) : Has K (State.gatherFault s h i cause va indexed) := by
  unfold State.gatherFault
  try dsimp only
  repeat' first
    | exact fun p hp => hT p (by simp only [touchGatherFault, hp, Bool.or_true, Bool.true_or])
    | intro _
    | with_reducible assumption
    | with_reducible exact hks
    | with_reducible apply Has.ite
    | with_reducible apply keeps_addReg
    | with_reducible apply keeps_setHart
    | with_reducible apply keeps_trap
    | simp only [Has.same hK]
    | dsimp only
    | split

def touchGatherStart (p : Option Reg) : Bool := touchAddReg .svxFaults p || touchGatherFault p || touchGatherPlaces
  p || touchIllegal p || touchPark p

theorem keeps_gatherStart (hK : Closed T K) (s : State) (h : Nat) (store refill : Bool) (et iw sc vi rs1 vd : Nat)
    (go : List (Nat × Place) → State → State) (hT : ∀ p, touchGatherStart p = true → T p = true) (hks : Has K s)
    (hkgo : ∀ x0 x1, Has K x1 → Has K (go x0 x1)) : Has K (State.gatherStart s h store refill et iw sc vi rs1 vd go)
    := by
  unfold State.gatherStart
  try dsimp only
  repeat' first
    | exact fun p hp => hT p (by simp only [touchGatherStart, hp, Bool.or_true, Bool.true_or])
    | intro _
    | with_reducible assumption
    | with_reducible exact hks
    | with_reducible apply hkgo
    | with_reducible apply Has.ite
    | with_reducible apply keeps_addReg
    | with_reducible apply keeps_gatherFault
    | with_reducible apply keeps_gatherPlaces
    | with_reducible apply keeps_illegal
    | with_reducible apply keeps_park
    | with_reducible refine HasExc2.of_eq ?_ (by assumption)
    | dsimp only
    | split

def touchExecVscat (p : Option Reg) : Bool := touchAddReg .remoteAccesses p || touchGatherStart p || touchPark p ||
  touchRequest p

theorem keeps_execVscat (hK : Closed T K) (h : Fin 3072) (et : Fin 8) (iw sc : Fin 4) (vi rs1 vs3 : Fin 32) (refill
    : Bool) (s : State) (hT : ∀ p, touchExecVscat p = true → T p = true) (hks : Has K s) : HasRes K (execVscat h et
    iw sc vi rs1 vs3 refill s) := by
  unfold execVscat
  try dsimp only
  repeat' first
    | exact fun p hp => hT p (by simp only [touchExecVscat, hp, Bool.or_true, Bool.true_or])
    | intro _
    | with_reducible assumption
    | with_reducible exact hks
    | with_reducible apply HasRes.next
    | with_reducible apply HasRes.ite
    | with_reducible apply Has.ite
    | with_reducible apply keeps_addReg
    | with_reducible apply keeps_gatherStart
    | with_reducible apply keeps_park
    | with_reducible apply keeps_request
    | with_reducible apply Has.foldl
    | with_reducible apply Has1.foldl
    | with_reducible exact Has1.proj (by with_reducible assumption)
    | with_reducible apply Has1.mk
    | dsimp only
    | split

def touchTakeReply (_ : Option Reg) : Bool := false

theorem keeps_takeReply (hK : Closed T K) (s : State) (h tag : Nat)  (hks : Has K s) : HasOpt2 K (State.takeReply s h
    tag) := by
  unfold State.takeReply
  try dsimp only
  repeat' first
    | intro _
    | with_reducible assumption
    | with_reducible exact hks
    | with_reducible apply HasOpt2.some
    | with_reducible apply HasOpt2.none
    | with_reducible apply HasOpt2.ite
    | with_reducible apply Has.ite
    | with_reducible apply HasOpt2.map
    | simp only [Has.same hK]
    | dsimp only
    | split

def touchReturnLoad (p : Option Reg) : Bool := touchEndLoad p || touchRetire p || touchTakeReply p || touchTrap p

theorem keeps_returnLoad (hK : Closed T K) (s : State) (h len va n : Nat) (p : Place) (f : Nat → Hart → Hart)
    (hT : ∀ p, touchReturnLoad p = true → T p = true) (hks : Has K s) : HasOpt K (State.returnLoad s h len va n p f) := by
  unfold State.returnLoad
  split
  · exact HasOpt.some (keeps_endLoad hK _ _ _ _ _ _ _ (fun p hp => hT p (by simp only [touchReturnLoad, hp, Bool.or_true, Bool.true_or])) hks)
  · with_reducible apply HasOpt.ite
    · exact HasOpt.none
    · exact HasOpt.some (keeps_retire hK _ _ _ _ (fun p hp => hT p (by simp only [touchReturnLoad, hp, Bool.or_true, Bool.true_or])) hks)
  · cases hr : s.takeReply h 0 with
    | none => exact HasOpt.none
    | some x =>
      have hx : Has K x.2 := HasOpt2.of_eq (keeps_takeReply hK _ _ _ hks) hr
      refine HasOpt.some ?_
      dsimp only
      split
      · exact keeps_trap hK _ _ _ _ (fun p hp => hT p (by simp only [touchReturnLoad, hp, Bool.or_true, Bool.true_or])) hx
      · exact keeps_retire hK _ _ _ _ (fun p hp => hT p (by simp only [touchReturnLoad, hp, Bool.or_true, Bool.true_or])) hx

def touchNoteRemote (p : Option Reg) : Bool := touchSetReg .svxrerr p

theorem keeps_noteRemote (hK : Closed T K) (s : State) (h code lnode : Nat) (hT : ∀ p, touchNoteRemote p = true → T p
    = true) (hks : Has K s) : Has K (State.noteRemote s h code lnode) := by
  unfold State.noteRemote
  try dsimp only
  repeat' first
    | exact fun p hp => hT p hp
    | intro _
    | with_reducible assumption
    | with_reducible exact hks
    | with_reducible apply Has.ite
    | with_reducible apply keeps_setReg
    | dsimp only
    | split

def touchReturnGather (p : Option Reg) : Bool := touchGatherFault p || touchNoteRemote p || touchRetire p

theorem keeps_returnGather (hK : Closed T K) (s : State) (h et vd : Nat) (es : List (Nat × Place)) (hT : ∀ p,
    touchReturnGather p = true → T p = true) (hks : Has K s) : HasOpt K (State.returnGather s h et vd es) := by
  unfold State.returnGather
  try dsimp only
  repeat' first
    | exact fun p hp => hT p (by simp only [touchReturnGather, hp, Bool.or_true, Bool.true_or])
    | intro _
    | with_reducible assumption
    | with_reducible exact hks
    | with_reducible apply HasOpt.some
    | with_reducible apply HasOpt.none
    | with_reducible apply HasOpt.ite
    | with_reducible apply Has.ite
    | with_reducible apply keeps_gatherFault
    | with_reducible apply keeps_noteRemote
    | with_reducible apply keeps_retire
    | simp only [Has.same hK]
    | with_reducible apply HasOpt.map
    | dsimp only
    | split

def touchExecVgath (p : Option Reg) : Bool := touchAddReg .remoteAccesses p || touchGatherStart p || touchPark p ||
  touchRequest p || touchReturnGather p

theorem keeps_execVgath (hK : Closed T K) (h : Fin 3072) (et : Fin 8) (iw sc : Fin 4) (vi rs1 vd : Fin 32) (reach :
    CoreReach) (s : State) (hT : ∀ p, touchExecVgath p = true → T p = true) (hks : Has K s) : HasRes K (execVgath h
    et iw sc vi rs1 vd reach s) := by
  unfold execVgath
  try dsimp only
  repeat' first
    | exact fun p hp => hT p (by simp only [touchExecVgath, hp, Bool.or_true, Bool.true_or])
    | intro _
    | with_reducible assumption
    | with_reducible exact hks
    | with_reducible apply HasRes.next
    | with_reducible apply HasRes.ite
    | with_reducible apply Has.ite
    | with_reducible apply keeps_addReg
    | with_reducible apply keeps_gatherStart
    | with_reducible apply keeps_park
    | with_reducible apply keeps_request
    | with_reducible apply keeps_returnGather
    | with_reducible apply Has.foldl
    | with_reducible apply Has1.foldl
    | with_reducible exact Has1.proj (by with_reducible assumption)
    | with_reducible apply Has1.mk
    | with_reducible refine HasOpt.of_eq ?_ (by assumption)
    | with_reducible apply HasOpt.getD
    | dsimp only
    | split

def touchReturned (p : Option Reg) : Bool := touchAtomicAt p || touchRetire p || touchReturnGather p ||
  touchReturnLoad p || touchWrites p

theorem keeps_returned (hK : Closed T K) (s : State) (h : Nat) (hT : ∀ p, touchReturned p = true → T p = true) (hks
    : Has K s) : HasOpt K (State.returned s h) := by
  unfold State.returned
  try dsimp only
  repeat' first
    | exact fun p hp => hT p (by simp only [touchReturned, hp, Bool.or_true, Bool.true_or])
    | intro _
    | with_reducible assumption
    | with_reducible exact hks
    | with_reducible apply HasOpt.some
    | with_reducible apply HasOpt.none
    | with_reducible apply HasOpt.ite
    | with_reducible apply Has.ite
    | with_reducible apply keeps_atomicAt
    | with_reducible apply keeps_retire
    | with_reducible apply keeps_returnGather
    | with_reducible apply keeps_returnLoad
    | with_reducible apply keeps_setHart
    | with_reducible apply keeps_writes
    | simp only [Has.same hK]
    | with_reducible refine HasOpt.of_eq ?_ (by assumption)
    | with_reducible apply HasOpt.getD
    | dsimp only
    | split

def touchExecAccessReturn (p : Option Reg) : Bool := touchReturned p || touchWake p

theorem keeps_execAccessReturn (hK : Closed T K) (h : Fin 3072) (s : State) (hT : ∀ p, touchExecAccessReturn p =
    true → T p = true) (hks : Has K s) : HasRes K (execAccessReturn h s) := by
  unfold execAccessReturn
  try dsimp only
  repeat' first
    | exact fun p hp => hT p (by simp only [touchExecAccessReturn, hp, Bool.or_true, Bool.true_or])
    | intro _
    | with_reducible assumption
    | with_reducible exact hks
    | with_reducible apply HasRes.next
    | with_reducible apply HasRes.ite
    | with_reducible apply Has.ite
    | with_reducible apply keeps_returned
    | with_reducible apply keeps_wake
    | with_reducible refine HasOpt.of_eq ?_ (by assumption)
    | with_reducible apply HasOpt.getD
    | dsimp only
    | split

def touchExecHartFence (p : Option Reg) : Bool := touchPark p || touchRetire p

theorem keeps_execHartFence (hK : Closed T K) (h : Fin 3072) (pred succ : BitVec 4) (s : State) (hT : ∀ p,
    touchExecHartFence p = true → T p = true) (hks : Has K s) : HasRes K (execHartFence h pred succ s) := by
  unfold execHartFence
  try dsimp only
  repeat' first
    | exact fun p hp => hT p (by simp only [touchExecHartFence, hp, Bool.or_true, Bool.true_or])
    | intro _
    | with_reducible assumption
    | with_reducible exact hks
    | with_reducible apply HasRes.next
    | with_reducible apply HasRes.ite
    | with_reducible apply Has.ite
    | with_reducible apply keeps_park
    | with_reducible apply keeps_retire
    | dsimp only
    | split

def touchExecSync (p : Option Reg) : Bool := touchEndSync p || touchIllegal p || touchPark p

theorem keeps_execSync (hK : Closed T K) (h : Fin 3072) (ra nv : Bool) (s : State) (hT : ∀ p, touchExecSync p = true →
    T p = true) (hks : Has K s) : HasRes K (execSync h ra nv s) := by
  unfold execSync
  try dsimp only
  repeat' first
    | exact fun p hp => hT p (by simp only [touchExecSync, hp, Bool.or_true, Bool.true_or])
    | intro _
    | with_reducible assumption
    | with_reducible exact hks
    | with_reducible apply HasRes.next
    | with_reducible apply HasRes.ite
    | with_reducible apply Has.ite
    | with_reducible apply keeps_endSync
    | with_reducible apply keeps_illegal
    | with_reducible apply keeps_park
    | dsimp only
    | split

def touchExecHartWfi (p : Option Reg) : Bool := touchPark p || touchRetire p || touchTakeInterrupt p

theorem keeps_execHartWfi (hK : Closed T K) (h : Fin 3072) (s : State) (hT : ∀ p, touchExecHartWfi p = true → T p =
    true) (hks : Has K s) : HasRes K (execHartWfi h s) := by
  unfold execHartWfi
  try dsimp only
  repeat' first
    | exact fun p hp => hT p (by simp only [touchExecHartWfi, hp, Bool.or_true, Bool.true_or])
    | intro _
    | with_reducible assumption
    | with_reducible exact hks
    | with_reducible apply HasRes.next
    | with_reducible apply HasRes.ite
    | with_reducible apply Has.ite
    | with_reducible apply keeps_park
    | with_reducible apply keeps_retire
    | with_reducible apply keeps_takeInterrupt
    | dsimp only
    | split

def touchPend (p : Option Reg) : Bool := touchRetire p || touchSetHart p || touchTakeInterrupt p || touchWake p

theorem keeps_pend (hK : Closed T K) (s : State) (h : Nat) (i : HartInterrupt) (hT : ∀ p, touchPend p = true → T p =
    true) (hks : Has K s) : Has K (State.pend s h i) := by
  unfold State.pend
  try dsimp only
  repeat' first
    | exact fun p hp => hT p (by simp only [touchPend, hp, Bool.or_true, Bool.true_or])
    | intro _
    | with_reducible assumption
    | with_reducible exact hks
    | with_reducible apply Has.ite
    | with_reducible apply keeps_retire
    | with_reducible apply keeps_setHart
    | with_reducible apply keeps_takeInterrupt
    | with_reducible apply keeps_wake
    | simp only [Has.same hK]
    | dsimp only
    | split

def touchExecInterruptPending (p : Option Reg) : Bool := touchPend p

theorem keeps_execInterruptPending (hK : Closed T K) (h : Fin 3072) (i : HartInterrupt) (s : State) (hT : ∀ p,
    touchExecInterruptPending p = true → T p = true) (hks : Has K s) : HasRes K (execInterruptPending h i s) := by
  unfold execInterruptPending
  try dsimp only
  repeat' first
    | exact fun p hp => hT p hp
    | intro _
    | with_reducible assumption
    | with_reducible exact hks
    | with_reducible apply HasRes.next
    | with_reducible apply HasRes.ite
    | with_reducible apply Has.ite
    | with_reducible apply keeps_pend
    | dsimp only
    | split

def touchExecThreadTurnLimit (p : Option Reg) : Bool := touchPassTurn p

theorem keeps_execThreadTurnLimit (hK : Closed T K) (core : Fin 192) (s : State) (hT : ∀ p, touchExecThreadTurnLimit p
    = true → T p = true) (hks : Has K s) : HasRes K (execThreadTurnLimit core s) := by
  unfold execThreadTurnLimit
  try dsimp only
  repeat' first
    | exact fun p hp => hT p hp
    | intro _
    | with_reducible assumption
    | with_reducible exact hks
    | with_reducible apply HasRes.next
    | with_reducible apply HasRes.ite
    | with_reducible apply Has.ite
    | with_reducible apply keeps_passTurn
    | dsimp only
    | split

def touchSbiReturn (p : Option Reg) : Bool := touchRetire p

theorem keeps_sbiReturn (hK : Closed T K) (s : State) (h : Nat) (error : Int) (value : Nat) (hT : ∀ p, touchSbiReturn
    p = true → T p = true) (hks : Has K s) : Has K (State.sbiReturn s h error value) := by
  unfold State.sbiReturn
  try dsimp only
  repeat' first
    | exact fun p hp => hT p hp
    | intro _
    | with_reducible assumption
    | with_reducible exact hks
    | with_reducible apply Has.ite
    | with_reducible apply keeps_retire
    | with_reducible apply keeps_setReg
    | dsimp only
    | split

def touchSbiCall (p : Option Reg) : Bool := touchTrap p

theorem keeps_sbiCall (hK : Closed T K) (s : State) (h eid : Nat) (f : Hart → State) (hT : ∀ p, touchSbiCall p = true
    → T p = true) (hks : Has K s) (hkf : ∀ x0, Has K (f x0)) : HasRes K (State.sbiCall s h eid f) := by
  unfold State.sbiCall
  try dsimp only
  repeat' first
    | exact fun p hp => hT p hp
    | intro _
    | with_reducible assumption
    | with_reducible exact hks
    | with_reducible apply hkf
    | with_reducible apply HasRes.next
    | with_reducible apply HasRes.ite
    | with_reducible apply Has.ite
    | with_reducible apply keeps_trap
    | dsimp only
    | split

def touchOtherCall (p : Option Reg) : Bool := touchSbiReturn p || touchTrap p

theorem keeps_otherCall (hK : Closed T K) (s : State) (h : Nat) (hT : ∀ p, touchOtherCall p = true → T p = true)
    (hks : Has K s) : Has K (State.otherCall s h) := by
  unfold State.otherCall
  try dsimp only
  repeat' first
    | exact fun p hp => hT p (by simp only [touchOtherCall, hp, Bool.or_true, Bool.true_or])
    | intro _
    | with_reducible assumption
    | with_reducible exact hks
    | with_reducible apply Has.ite
    | with_reducible apply keeps_sbiReturn
    | with_reducible apply keeps_trap
    | dsimp only
    | split

def touchExecSbiBaseCall (p : Option Reg) : Bool := touchSbiCall p || touchSbiReturn p

theorem keeps_execSbiBaseCall (hK : Closed T K) (h : Fin 3072) (s : State) (hT : ∀ p, touchExecSbiBaseCall p = true →
    T p = true) (hks : Has K s) : HasRes K (execSbiBaseCall h s) := by
  unfold execSbiBaseCall
  try dsimp only
  repeat' first
    | exact fun p hp => hT p (by simp only [touchExecSbiBaseCall, hp, Bool.or_true, Bool.true_or])
    | intro _
    | with_reducible assumption
    | with_reducible exact hks
    | with_reducible apply HasRes.next
    | with_reducible apply HasRes.ite
    | with_reducible apply Has.ite
    | with_reducible apply keeps_sbiCall
    | with_reducible apply keeps_sbiReturn
    | with_reducible refine HasRes.of_eq ?_ (by assumption)
    | dsimp only
    | split

def touchExecSbiSetTimer (p : Option Reg) : Bool := touchPend p || touchSbiCall p || touchSbiReturn p || touchSetHart
  p

theorem keeps_execSbiSetTimer (hK : Closed T K) (h : Fin 3072) (s : State) (hT : ∀ p, touchExecSbiSetTimer p = true →
    T p = true) (hks : Has K s) : HasRes K (execSbiSetTimer h s) := by
  unfold execSbiSetTimer
  try dsimp only
  repeat' first
    | exact fun p hp => hT p (by simp only [touchExecSbiSetTimer, hp, Bool.or_true, Bool.true_or])
    | intro _
    | with_reducible assumption
    | with_reducible exact hks
    | with_reducible apply HasRes.next
    | with_reducible apply HasRes.ite
    | with_reducible apply Has.ite
    | with_reducible apply keeps_pend
    | with_reducible apply keeps_sbiCall
    | with_reducible apply keeps_sbiReturn
    | with_reducible apply keeps_setHart
    | simp only [Has.same hK]
    | with_reducible refine HasRes.of_eq ?_ (by assumption)
    | dsimp only
    | split

def touchExecSbiSendIpi (p : Option Reg) : Bool := touchPend p || touchSbiCall p || touchSbiReturn p

theorem keeps_execSbiSendIpi (hK : Closed T K) (h : Fin 3072) (s : State) (hT : ∀ p, touchExecSbiSendIpi p = true → T
    p = true) (hks : Has K s) : HasRes K (execSbiSendIpi h s) := by
  unfold execSbiSendIpi
  try dsimp only
  repeat' first
    | exact fun p hp => hT p (by simp only [touchExecSbiSendIpi, hp, Bool.or_true, Bool.true_or])
    | intro _
    | with_reducible assumption
    | with_reducible exact hks
    | with_reducible apply HasRes.next
    | with_reducible apply HasRes.ite
    | with_reducible apply Has.ite
    | with_reducible apply keeps_pend
    | with_reducible apply keeps_sbiCall
    | with_reducible apply keeps_sbiReturn
    | with_reducible apply Has.foldl
    | with_reducible apply Has1.foldl
    | with_reducible exact Has1.proj (by with_reducible assumption)
    | with_reducible apply Has1.mk
    | with_reducible refine HasRes.of_eq ?_ (by assumption)
    | dsimp only
    | split

def touchExecSbiSystemReset (p : Option Reg) : Bool := touchPassTurn p || touchSbiCall p || touchSbiReturn p ||
  touchSetReg .hartState p

theorem keeps_execSbiSystemReset (hK : Closed T K) (h : Fin 3072) (s : State) (hT : ∀ p, touchExecSbiSystemReset p =
    true → T p = true) (hks : Has K s) : HasRes K (execSbiSystemReset h s) := by
  unfold execSbiSystemReset
  try dsimp only
  repeat' first
    | exact fun p hp => hT p (by simp only [touchExecSbiSystemReset, hp, Bool.or_true, Bool.true_or])
    | intro _
    | with_reducible assumption
    | with_reducible exact hks
    | with_reducible apply HasRes.next
    | with_reducible apply HasRes.ite
    | with_reducible apply Has.ite
    | with_reducible apply keeps_passTurn
    | with_reducible apply keeps_sbiCall
    | with_reducible apply keeps_sbiReturn
    | with_reducible apply keeps_setReg
    | with_reducible refine HasRes.of_eq ?_ (by assumption)
    | dsimp only
    | split

end Sys2Proof.Machine
end

