-- ==== Sys2Proof/Laws/KeepsCoreFaults.lean ====
section
/-! SUPPORT. What the operations of Machine/CoreFaults.lean keep, and the registers that each may change. -/

namespace Sys2Proof.Machine

variable {T : Option Reg → Bool} {K : State → Prop}

def touchExecCoreParityReplay (p : Option Reg) : Bool := touchAddReg .coreReplays p || touchParityPersistent p ||
  touchParityReplayed p

theorem keeps_execCoreParityReplay (hK : Closed T K) (core : Fin 192) (part : CorePart) (again : Bool) (s : State) (hT
    : ∀ p, touchExecCoreParityReplay p = true → T p = true) (hks : Has K s) : HasRes K (execCoreParityReplay core part
    again s) := by
  unfold execCoreParityReplay
  try dsimp only
  repeat' first
    | exact fun p hp => hT p (by simp only [touchExecCoreParityReplay, hp, Bool.or_true, Bool.true_or])
    | intro _
    | with_reducible assumption
    | with_reducible exact hks
    | with_reducible apply HasRes.next
    | with_reducible apply HasRes.ite
    | with_reducible apply Has.ite
    | with_reducible apply keeps_addReg
    | with_reducible apply keeps_parityPersistent
    | with_reducible apply keeps_parityReplayed
    | dsimp only
    | split

def touchTakeReserve (p : Option Reg) : Bool := touchChange .coreReserveLeft p

theorem keeps_takeReserve (hK : Closed T K) (s : State) (die : Nat) (hT : ∀ p, touchTakeReserve p = true → T p = true)
    (hks : Has K s) : Has K (State.takeReserve s die) := by
  unfold State.takeReserve
  try dsimp only
  repeat' first
    | exact fun p hp => hT p hp
    | intro _
    | with_reducible assumption
    | with_reducible exact hks
    | with_reducible apply Has.ite
    | with_reducible apply keeps_change
    | dsimp only
    | split

def touchMigrateCore (p : Option Reg) : Bool := touchChangeAll .hartMap p || touchResumeCore p || touchSetReg
  .hartTurn p

theorem keeps_migrateCore (hK : Closed T K) (s : State) (core spare : Nat) (hT : ∀ p, touchMigrateCore p = true → T
    p = true) (hks : Has K s) : Has K (State.migrateCore s core spare) := by
  unfold State.migrateCore
  try dsimp only
  repeat' first
    | exact fun p hp => hT p (by simp only [touchMigrateCore, hp, Bool.or_true, Bool.true_or])
    | intro _
    | with_reducible assumption
    | with_reducible exact hks
    | with_reducible apply Has.ite
    | with_reducible apply keeps_changeAll
    | with_reducible apply keeps_resumeCore
    | with_reducible apply keeps_setReg
    | simp only [Has.same hK]
    | dsimp only
    | split

def touchExecCoreSelftestComplete (p : Option Reg) : Bool := touchChange .coresUsable p || touchDataLoss p ||
  touchLogError p || touchMigrateCore p || touchResumeCore p || touchSetReg .coreFailed p || touchTakeReserve p

theorem keeps_execCoreSelftestComplete (hK : Closed T K) (core : Fin 192) (pass : Bool) (s : State) (hT : ∀ p,
    touchExecCoreSelftestComplete p = true → T p = true) (hks : Has K s) : HasRes K (execCoreSelftestComplete core
    pass s) := by
  unfold execCoreSelftestComplete
  try dsimp only
  repeat' first
    | exact fun p hp => hT p (by simp only [touchExecCoreSelftestComplete, hp, Bool.or_true, Bool.true_or])
    | intro _
    | with_reducible assumption
    | with_reducible exact hks
    | with_reducible apply HasRes.next
    | with_reducible apply HasRes.ite
    | with_reducible apply Has.ite
    | with_reducible apply keeps_change
    | with_reducible apply keeps_dataLoss
    | with_reducible apply keeps_endTest
    | with_reducible apply keeps_logError
    | with_reducible apply keeps_migrateCore
    | with_reducible apply keeps_resumeCore
    | with_reducible apply keeps_setReg
    | with_reducible apply keeps_takeReserve
    | dsimp only
    | split

def touchLoseStandby (p : Option Reg) : Bool := touchChange .supStandbyOk p || touchDegrade p || touchLogError p

theorem keeps_loseStandby (hK : Closed T K) (s : State) (failed : Nat) (hT : ∀ p, touchLoseStandby p = true → T p =
    true) (hks : Has K s) : Has K (State.loseStandby s failed) := by
  unfold State.loseStandby
  try dsimp only
  repeat' first
    | exact fun p hp => hT p (by simp only [touchLoseStandby, hp, Bool.or_true, Bool.true_or])
    | intro _
    | with_reducible assumption
    | with_reducible exact hks
    | with_reducible apply Has.ite
    | with_reducible apply keeps_change
    | with_reducible apply keeps_degrade
    | with_reducible apply keeps_logError
    | dsimp only
    | split

def touchExecSupervisorMismatch (p : Option Reg) : Bool := touchAddReg .supTakeovers p || touchChange .supActive p
  || touchEnterFaulted p || touchLoseStandby p

theorem keeps_execSupervisorMismatch (hK : Closed T K) (standby : Bool) (s : State) (hT : ∀ p,
    touchExecSupervisorMismatch p = true → T p = true) (hks : Has K s) : HasRes K (execSupervisorMismatch standby s)
    := by
  unfold execSupervisorMismatch
  try dsimp only
  repeat' first
    | exact fun p hp => hT p (by simp only [touchExecSupervisorMismatch, hp, Bool.or_true, Bool.true_or])
    | intro _
    | with_reducible assumption
    | with_reducible exact hks
    | with_reducible apply HasRes.next
    | with_reducible apply HasRes.ite
    | with_reducible apply Has.ite
    | with_reducible apply keeps_addReg
    | with_reducible apply keeps_change
    | with_reducible apply keeps_enterFaulted
    | with_reducible apply keeps_loseStandby
    | dsimp only
    | split

end Sys2Proof.Machine
end

