-- ==== Sys2Proof/Laws/KeepsEpoch.lean ====
section
/-! SUPPORT. What the operations of Machine/Epoch.lean keep, and the registers that each may change. -/

namespace Sys2Proof.Machine

variable {T : Option Reg → Bool} {K : State → Prop}

def touchRefusePairing (p : Option Reg) : Bool := touchSetReg .xwRefuseCause p || touchSetXw p

theorem keeps_refusePairing (hK : Closed T K) (s : State) (cause : Nat) (hT : ∀ p, touchRefusePairing p = true → T p =
    true) (hks : Has K s) : Has K (State.refusePairing s cause) := by
  unfold State.refusePairing
  try dsimp only
  repeat' first
    | exact fun p hp => hT p (by simp only [touchRefusePairing, hp, Bool.or_true, Bool.true_or])
    | intro _
    | with_reducible assumption
    | with_reducible exact hks
    | with_reducible apply Has.ite
    | with_reducible apply keeps_setReg
    | with_reducible apply keeps_setXw
    | dsimp only
    | split

def touchDecidePairing (p : Option Reg) : Bool := touchRefusePairing p || touchSetReg .xwReceived p || touchSetXw p

theorem keeps_decidePairing (hK : Closed T K) (s : State) (hT : ∀ p, touchDecidePairing p = true → T p = true) (hks :
    Has K s) : Has K (State.decidePairing s) := by
  unfold State.decidePairing
  try dsimp only
  repeat' first
    | exact fun p hp => hT p (by simp only [touchDecidePairing, hp, Bool.or_true, Bool.true_or])
    | intro _
    | with_reducible assumption
    | with_reducible exact hks
    | with_reducible apply Has.ite
    | with_reducible apply keeps_refusePairing
    | with_reducible apply keeps_setReg
    | with_reducible apply keeps_setXw
    | simp only [Has.same hK]
    | dsimp only
    | split

def touchRefuseEpoch (p : Option Reg) : Bool := touchLogError p || touchSetFlight p

theorem keeps_refuseEpoch (hK : Closed T K) (s : State) (b : Nat) (f : Flight) (code : Nat) (hT : ∀ p,
    touchRefuseEpoch p = true → T p = true) (hks : Has K s) : Has K (State.refuseEpoch s b f code) := by
  unfold State.refuseEpoch
  try dsimp only
  repeat' first
    | exact fun p hp => hT p (by simp only [touchRefuseEpoch, hp, Bool.or_true, Bool.true_or])
    | intro _
    | with_reducible assumption
    | with_reducible exact hks
    | with_reducible apply Has.ite
    | with_reducible apply keeps_logError
    | with_reducible apply keeps_setFlight
    | simp only [Has.same hK]
    | dsimp only
    | split

def touchSettleEpochs (p : Option Reg) : Bool := touchRefuseEpoch p || touchSetFlight p

theorem keeps_settleEpochs (hK : Closed T K) (s : State) (hT : ∀ p, touchSettleEpochs p = true → T p = true) (hks :
    Has K s) : Has K (State.settleEpochs s) := by
  unfold State.settleEpochs
  try dsimp only
  repeat' first
    | exact fun p hp => hT p (by simp only [touchSettleEpochs, hp, Bool.or_true, Bool.true_or])
    | intro _
    | with_reducible assumption
    | with_reducible exact hks
    | with_reducible apply Has.ite
    | with_reducible apply keeps_refuseEpoch
    | with_reducible apply keeps_setFlight
    | with_reducible apply Has.foldl
    | with_reducible apply Has1.foldl
    | with_reducible exact Has1.proj (by with_reducible assumption)
    | with_reducible apply Has1.mk
    | simp only [Has.same hK]
    | dsimp only
    | split

def touchStartBays (p : Option Reg) : Bool := touchSetTableState p

theorem keeps_startBays (hK : Closed T K) (s : State) (hT : ∀ p, touchStartBays p = true → T p = true) (hks : Has K
    s) : Has K (State.startBays s) := by
  unfold State.startBays
  try dsimp only
  repeat' first
    | exact fun p hp => hT p hp
    | intro _
    | with_reducible assumption
    | with_reducible exact hks
    | with_reducible apply Has.ite
    | with_reducible apply keeps_setBay
    | with_reducible apply keeps_setTableState
    | with_reducible apply Has.foldl
    | with_reducible apply Has1.foldl
    | with_reducible exact Has1.proj (by with_reducible assumption)
    | with_reducible apply Has1.mk
    | simp only [Has.same hK]
    | dsimp only
    | split

def touchStartJob (p : Option Reg) : Bool := touchEndOpc p || touchEnter p || touchSetReg .jobRunning p ||
  touchSetReg .startPending p || touchStartBays p || touchStartHarts p

theorem keeps_startJob (hK : Closed T K) (s : State) (hT : ∀ p, touchStartJob p = true → T p = true) (hks : Has K s)
    : Has K (State.startJob s) := by
  unfold State.startJob
  try dsimp only
  repeat' first
    | exact fun p hp => hT p (by simp only [touchStartJob, hp, Bool.or_true, Bool.true_or])
    | intro _
    | with_reducible assumption
    | with_reducible exact hks
    | with_reducible apply Has.ite
    | with_reducible apply keeps_endOpc
    | with_reducible apply keeps_enter
    | with_reducible apply keeps_setReg
    | with_reducible apply keeps_startBays
    | with_reducible apply keeps_startHarts
    | dsimp only
    | split

def touchResumeRestored (p : Option Reg) : Bool := touchEndOpc p || touchEnter p || touchSetRecovery p || touchSetReg
  .jobRunning p

theorem keeps_resumeRestored (hK : Closed T K) (s : State) (hT : ∀ p, touchResumeRestored p = true → T p = true) (hks
    : Has K s) : Has K (State.resumeRestored s) := by
  unfold State.resumeRestored
  try dsimp only
  repeat' first
    | exact fun p hp => hT p (by simp only [touchResumeRestored, hp, Bool.or_true, Bool.true_or])
    | intro _
    | with_reducible assumption
    | with_reducible exact hks
    | with_reducible apply Has.ite
    | with_reducible apply keeps_endOpc
    | with_reducible apply keeps_enter
    | with_reducible apply keeps_setRecovery
    | with_reducible apply keeps_setReg
    | simp only [Has.same hK]
    | dsimp only
    | split

def touchFencePassed (p : Option Reg) : Bool := touchResumeRestored p || touchSetReg .fenceDone p || touchSettleEpochs
  p || touchStartJob p

theorem keeps_fencePassed (hK : Closed T K) (s : State) (hT : ∀ p, touchFencePassed p = true → T p = true) (hks : Has
    K s) : Has K (State.fencePassed s) := by
  unfold State.fencePassed
  try dsimp only
  repeat' first
    | exact fun p hp => hT p (by simp only [touchFencePassed, hp, Bool.or_true, Bool.true_or])
    | intro _
    | with_reducible assumption
    | with_reducible exact hks
    | with_reducible apply Has.ite
    | with_reducible apply keeps_resumeRestored
    | with_reducible apply keeps_setReg
    | with_reducible apply keeps_settleEpochs
    | with_reducible apply keeps_startJob
    | dsimp only
    | split

def touchCheckFence (p : Option Reg) : Bool := touchFencePassed p || touchJoinBarrier p

theorem keeps_checkFence (hK : Closed T K) (s : State) (hT : ∀ p, touchCheckFence p = true → T p = true) (hks : Has
    K s) : Has K (State.checkFence s) := by
  unfold State.checkFence
  try dsimp only
  repeat' first
    | exact fun p hp => hT p (by simp only [touchCheckFence, hp, Bool.or_true, Bool.true_or])
    | intro _
    | with_reducible assumption
    | with_reducible exact hks
    | with_reducible apply Has.ite
    | with_reducible apply keeps_fencePassed
    | with_reducible apply keeps_joinBarrier
    | dsimp only
    | split

def touchSendHeld (p : Option Reg) : Bool := touchStartMails p

theorem keeps_sendHeld (hK : Closed T K) (s : State) (hT : ∀ p, touchSendHeld p = true → T p = true) (hks : Has K s)
    : Has K (State.sendHeld s) := by
  unfold State.sendHeld
  try dsimp only
  repeat' first
    | exact fun p hp => hT p hp
    | intro _
    | with_reducible assumption
    | with_reducible exact hks
    | with_reducible apply Has.ite
    | with_reducible apply keeps_emit
    | with_reducible apply keeps_startMails
    | with_reducible apply Has.foldl
    | with_reducible apply Has1.foldl
    | with_reducible exact Has1.proj (by with_reducible assumption)
    | with_reducible apply Has1.mk
    | dsimp only
    | split

def touchJoinFence (p : Option Reg) : Bool := touchCheckFence p || touchSendHeld p || touchSetReg .fenceJoined p

theorem keeps_joinFence (hK : Closed T K) (s : State) (hT : ∀ p, touchJoinFence p = true → T p = true) (hks : Has K
    s) : Has K (State.joinFence s) := by
  unfold State.joinFence
  try dsimp only
  repeat' first
    | exact fun p hp => hT p (by simp only [touchJoinFence, hp, Bool.or_true, Bool.true_or])
    | intro _
    | with_reducible assumption
    | with_reducible exact hks
    | with_reducible apply Has.ite
    | with_reducible apply keeps_checkFence
    | with_reducible apply keeps_control
    | with_reducible apply keeps_sendHeld
    | with_reducible apply keeps_setReg
    | with_reducible apply Has.foldl
    | with_reducible apply Has1.foldl
    | with_reducible exact Has1.proj (by with_reducible assumption)
    | with_reducible apply Has1.mk
    | dsimp only
    | split

def touchInstallEpoch (p : Option Reg) : Bool := touchSetReg .fenceDone p || touchSetReg .fenceHeld p || touchSetReg
  .fenceJoined p

theorem keeps_installEpoch (hK : Closed T K) (s : State) (hT : ∀ p, touchInstallEpoch p = true → T p = true) (hks :
    Has K s) : Has K (State.installEpoch s) := by
  unfold State.installEpoch
  try dsimp only
  repeat' first
    | exact fun p hp => hT p (by simp only [touchInstallEpoch, hp, Bool.or_true, Bool.true_or])
    | intro _
    | with_reducible assumption
    | with_reducible exact hks
    | with_reducible apply Has.ite
    | with_reducible apply keeps_setReg
    | simp only [Has.same hK]
    | dsimp only
    | split

def touchExecEpoch (p : Option Reg) : Bool := touchAddReg .sigMismatches p || touchAuditInternal p ||
  touchDecidePairing p || touchJoinFence p || touchRefuseEpoch p || touchSetXw p || touchSettleEpochs p ||
  touchStillWaits p

theorem keeps_execEpoch (hK : Closed T K) (b : Fin 256) (s : State) (hT : ∀ p, touchExecEpoch p = true → T p = true)
    (hks : Has K s) : HasRes K (execEpoch b s) := by
  unfold execEpoch
  try dsimp only
  repeat' first
    | exact fun p hp => hT p (by simp only [touchExecEpoch, hp, Bool.or_true, Bool.true_or])
    | intro _
    | with_reducible assumption
    | with_reducible exact hks
    | with_reducible apply HasRes.next
    | with_reducible apply HasRes.ite
    | with_reducible apply Has.ite
    | with_reducible apply keeps_addReg
    | with_reducible apply keeps_auditInternal
    | with_reducible apply keeps_decidePairing
    | with_reducible apply keeps_joinFence
    | with_reducible apply keeps_refuseEpoch
    | with_reducible apply keeps_setXw
    | with_reducible apply keeps_settleEpochs
    | with_reducible apply keeps_stillWaits
    | with_reducible apply keeps_tellPartner
    | dsimp only
    | split

def touchExecDeadlineMissed (p : Option Reg) : Bool := touchAddReg .deadlinesMissed p || touchLogError p ||
  touchRefusePairing p || touchRequestLull p || touchSettleEpochs p

theorem keeps_execDeadlineMissed (hK : Closed T K) (b : Fin 256) (k : Nat) (s : State) (hT : ∀ p,
    touchExecDeadlineMissed p = true → T p = true) (hks : Has K s) : HasRes K (execDeadlineMissed b k s) := by
  unfold execDeadlineMissed
  try dsimp only
  repeat' first
    | exact fun p hp => hT p (by simp only [touchExecDeadlineMissed, hp, Bool.or_true, Bool.true_or])
    | intro _
    | with_reducible assumption
    | with_reducible exact hks
    | with_reducible apply HasRes.next
    | with_reducible apply HasRes.ite
    | with_reducible apply Has.ite
    | with_reducible apply keeps_addReg
    | with_reducible apply keeps_logError
    | with_reducible apply keeps_refusePairing
    | with_reducible apply keeps_requestLull
    | with_reducible apply keeps_setBay
    | with_reducible apply keeps_settleEpochs
    | simp only [Has.same hK]
    | dsimp only
    | split

def touchExecEpochFenceMessage (p : Option Reg) : Bool := touchCheckFence p || touchSetFlag .fenceHeld p ||
  touchTakeControl p

theorem keeps_execEpochFenceMessage (hK : Closed T K) (q : Fin 17) (h : Header) (withdrawn : Bool) (s : State) (hT :
    ∀ p, touchExecEpochFenceMessage p = true → T p = true) (hks : Has K s) : HasRes K (execEpochFenceMessage q h
    withdrawn s) := by
  unfold execEpochFenceMessage
  try dsimp only
  repeat' first
    | exact fun p hp => hT p (by simp only [touchExecEpochFenceMessage, hp, Bool.or_true, Bool.true_or])
    | intro _
    | with_reducible assumption
    | with_reducible exact hks
    | with_reducible apply HasRes.next
    | with_reducible apply HasRes.ite
    | with_reducible apply Has.ite
    | with_reducible apply keeps_checkFence
    | with_reducible apply keeps_setFlag
    | with_reducible apply keeps_takeControl
    | dsimp only
    | split

def touchExecJobBarrierComplete (p : Option Reg) : Bool := touchFencePassed p

theorem keeps_execJobBarrierComplete (hK : Closed T K) (s : State) (hT : ∀ p, touchExecJobBarrierComplete p = true →
    T p = true) (hks : Has K s) : HasRes K (execJobBarrierComplete s) := by
  unfold execJobBarrierComplete
  try dsimp only
  repeat' first
    | exact fun p hp => hT p hp
    | intro _
    | with_reducible assumption
    | with_reducible exact hks
    | with_reducible apply HasRes.next
    | with_reducible apply HasRes.ite
    | with_reducible apply Has.ite
    | with_reducible apply keeps_control
    | with_reducible apply keeps_fencePassed
    | with_reducible apply Has.foldl
    | with_reducible apply Has1.foldl
    | with_reducible exact Has1.proj (by with_reducible assumption)
    | with_reducible apply Has1.mk
    | dsimp only
    | split

def touchTakeXw (p : Option Reg) : Bool := touchDropStale p || touchForward p

theorem keeps_takeXw (hK : Closed T K) (s : State) (v : Arrival) (b : Body) (f : State → State) (hT : ∀ p,
    touchTakeXw p = true → T p = true) (hks : Has K s) (hkf : ∀ x0, Has K x0 → Has K (f x0)) : Has K (State.takeXw s
    v b f) := by
  unfold State.takeXw
  try dsimp only
  repeat' first
    | exact fun p hp => hT p (by simp only [touchTakeXw, hp, Bool.or_true, Bool.true_or])
    | intro _
    | with_reducible assumption
    | with_reducible exact hks
    | with_reducible apply hkf
    | with_reducible apply Has.ite
    | with_reducible apply keeps_dropStale
    | with_reducible apply keeps_forward
    | dsimp only
    | split

def touchExecCrosswindPairingMessage (p : Option Reg) : Bool := touchDecidePairing p || touchEndPairing p ||
  touchSettleEpochs p || touchTakeXw p

theorem keeps_execCrosswindPairingMessage (hK : Closed T K) (v : Arrival) (m : Option XwPairing) (s : State) (hT : ∀
    p, touchExecCrosswindPairingMessage p = true → T p = true) (hks : Has K s) : HasRes K
    (execCrosswindPairingMessage v m s) := by
  unfold execCrosswindPairingMessage
  try dsimp only
  repeat' first
    | exact fun p hp => hT p (by simp only [touchExecCrosswindPairingMessage, hp, Bool.or_true, Bool.true_or])
    | intro _
    | with_reducible assumption
    | with_reducible exact hks
    | with_reducible apply HasRes.next
    | with_reducible apply HasRes.ite
    | with_reducible apply Has.ite
    | with_reducible apply keeps_decidePairing
    | with_reducible apply keeps_endPairing
    | with_reducible apply keeps_settleEpochs
    | with_reducible apply keeps_takeXw
    | simp only [Has.same hK]
    | dsimp only
    | split

end Sys2Proof.Machine
end

