-- ==== Sys2Proof/Laws/KeepsCrosswind.lean ====
section
/-! SUPPORT. What the operations of Machine/Crosswind.lean keep, and the registers that each may change. -/

namespace Sys2Proof.Machine

variable {T : Option Reg → Bool} {K : State → Prop}

def touchNoteCompared (p : Option Reg) : Bool := touchJobWrite p

theorem keeps_noteCompared (hK : Closed T K) (s : State) (t digest result : Nat) (hT : ∀ p, touchNoteCompared p =
    true → T p = true) (hks : Has K s) : Has K (State.noteCompared s t digest result) := by
  unfold State.noteCompared
  try dsimp only
  repeat' first
    | exact fun p hp => hT p hp
    | intro _
    | with_reducible assumption
    | with_reducible exact hks
    | with_reducible apply Has.ite
    | with_reducible apply keeps_jobWrite
    | dsimp only
    | split

def touchCompareStep (p : Option Reg) : Bool := touchAddReg .xwCompared p || touchFire p || touchLogError p ||
  touchNoteCompared p

theorem keeps_compareStep (hK : Closed T K) (s : State) (x : XwStep) (theirs : Nat) (hT : ∀ p, touchCompareStep p =
    true → T p = true) (hks : Has K s) : Has K (State.compareStep s x theirs) := by
  unfold State.compareStep
  try dsimp only
  repeat' first
    | exact fun p hp => hT p (by simp only [touchCompareStep, hp, Bool.or_true, Bool.true_or])
    | intro _
    | with_reducible assumption
    | with_reducible exact hks
    | with_reducible apply Has.ite
    | with_reducible apply keeps_addReg
    | with_reducible apply keeps_fire
    | with_reducible apply keeps_logError
    | with_reducible apply keeps_noteCompared
    | with_reducible apply keeps_tellPartner
    | simp only [Has.same hK]
    | dsimp only
    | split

def touchCompareSteps (p : Option Reg) : Bool := touchCompareStep p

theorem keeps_compareSteps (hK : Closed T K) (s : State) (hT : ∀ p, touchCompareSteps p = true → T p = true) (hks :
    Has K s) : Has K (State.compareSteps s) := by
  unfold State.compareSteps
  try dsimp only
  repeat' first
    | exact fun p hp => hT p hp
    | intro _
    | with_reducible assumption
    | with_reducible exact hks
    | with_reducible apply Has.ite
    | with_reducible apply keeps_compareStep
    | with_reducible apply Has.foldl
    | with_reducible apply Has1.foldl
    | with_reducible exact Has1.proj (by with_reducible assumption)
    | with_reducible apply Has1.mk
    | dsimp only
    | split

def touchDiverge (p : Option Reg) : Bool := touchAuditInternal p || touchRaise .alertCause p || touchRequestLull p ||
  touchSetBytes .xwRecord p || touchSetXw p

theorem keeps_diverge (hK : Closed T K) (s : State) (d : XwDiff) (gran dstep addr ownWord word : Nat) (hT : ∀ p,
    touchDiverge p = true → T p = true) (hks : Has K s) : Has K (State.diverge s d gran dstep addr ownWord word) := by
  unfold State.diverge
  try dsimp only
  repeat' first
    | exact fun p hp => hT p (by simp only [touchDiverge, hp, Bool.or_true, Bool.true_or])
    | intro _
    | with_reducible assumption
    | with_reducible exact hks
    | with_reducible apply Has.ite
    | with_reducible apply keeps_auditInternal
    | with_reducible apply keeps_raise
    | with_reducible apply keeps_requestLull
    | with_reducible apply keeps_setBytes
    | with_reducible apply keeps_setXw
    | simp only [Has.same hK]
    | dsimp only
    | split

def touchCompareStreams (p : Option Reg) : Bool := touchDiverge p

theorem keeps_compareStreams (hK : Closed T K) (s : State) (hT : ∀ p, touchCompareStreams p = true → T p = true)
    (hks : Has K s) : Has K (State.compareStreams s) := by
  unfold State.compareStreams
  try dsimp only
  repeat' first
    | exact fun p hp => hT p hp
    | intro _
    | with_reducible assumption
    | with_reducible exact hks
    | with_reducible apply Has.ite
    | with_reducible apply keeps_diverge
    | with_reducible apply keeps_tellPartner
    | simp only [Has.same hK]
    | dsimp only
    | split

def touchTakeExchange (p : Option Reg) : Bool := touchTakeXw p

theorem keeps_takeExchange (hK : Closed T K) (s : State) (v : Arrival) (b : Body) (f : State → State) (hT : ∀ p,
    touchTakeExchange p = true → T p = true) (hks : Has K s) (hkf : ∀ x0, Has K x0 → Has K (f x0)) : Has K
    (State.takeExchange s v b f) := by
  unfold State.takeExchange
  try dsimp only
  repeat' first
    | exact fun p hp => hT p hp
    | intro _
    | with_reducible assumption
    | with_reducible exact hks
    | with_reducible apply hkf
    | with_reducible apply Has.ite
    | with_reducible apply keeps_takeXw
    | dsimp only
    | split

def touchEndHolds (p : Option Reg) : Bool := touchEndHold p

theorem keeps_endHolds (hK : Closed T K) (s : State) (hT : ∀ p, touchEndHolds p = true → T p = true) (hks : Has K s)
    : Has K (State.endHolds s) := by
  unfold State.endHolds
  try dsimp only
  repeat' first
    | exact fun p hp => hT p hp
    | intro _
    | with_reducible assumption
    | with_reducible exact hks
    | with_reducible apply Has.ite
    | with_reducible apply keeps_endHold
    | with_reducible apply Has.foldl
    | with_reducible apply Has1.foldl
    | with_reducible exact Has1.proj (by with_reducible assumption)
    | with_reducible apply Has1.mk
    | dsimp only
    | split

def touchExecCrosswindDigestMessage (p : Option Reg) : Bool := touchAddReg .xwReceived p || touchCompareSteps p ||
  touchCompareStreams p || touchEndHolds p || touchTakeExchange p

theorem keeps_execCrosswindDigestMessage (hK : Closed T K) (v : Arrival) (tstep digest : Dword) (s : State) (hT : ∀
    p, touchExecCrosswindDigestMessage p = true → T p = true) (hks : Has K s) : HasRes K (execCrosswindDigestMessage
    v tstep digest s) := by
  unfold execCrosswindDigestMessage
  try dsimp only
  repeat' first
    | exact fun p hp => hT p (by simp only [touchExecCrosswindDigestMessage, hp, Bool.or_true, Bool.true_or])
    | intro _
    | with_reducible assumption
    | with_reducible exact hks
    | with_reducible apply HasRes.next
    | with_reducible apply HasRes.ite
    | with_reducible apply Has.ite
    | with_reducible apply keeps_addReg
    | with_reducible apply keeps_compareSteps
    | with_reducible apply keeps_compareStreams
    | with_reducible apply keeps_endHolds
    | with_reducible apply keeps_takeExchange
    | simp only [Has.same hK]
    | dsimp only
    | split

def touchExecCrosswindStreamDigests (p : Option Reg) : Bool := touchCompareStreams p || touchTakeExchange p

theorem keeps_execCrosswindStreamDigests (hK : Closed T K) (v : Arrival) (tstep : Dword) (streams : List (Nat ×
    Nat)) (s : State) (hT : ∀ p, touchExecCrosswindStreamDigests p = true → T p = true) (hks : Has K s) : HasRes K
    (execCrosswindStreamDigests v tstep streams s) := by
  unfold execCrosswindStreamDigests
  try dsimp only
  repeat' first
    | exact fun p hp => hT p (by simp only [touchExecCrosswindStreamDigests, hp, Bool.or_true, Bool.true_or])
    | intro _
    | with_reducible assumption
    | with_reducible exact hks
    | with_reducible apply HasRes.next
    | with_reducible apply HasRes.ite
    | with_reducible apply Has.ite
    | with_reducible apply keeps_compareStreams
    | with_reducible apply keeps_takeExchange
    | simp only [Has.same hK]
    | dsimp only
    | split

def touchCompareChunks (p : Option Reg) : Bool := touchDiverge p

theorem keeps_compareChunks (hK : Closed T K) (s : State) (d : XwDiff) (records : List (Nat × Nat)) (intact : Bool)
    (data : List Byte) (word : Nat) (hT : ∀ p, touchCompareChunks p = true → T p = true) (hks : Has K s) : Has K
    (State.compareChunks s d records intact data word) := by
  unfold State.compareChunks
  try dsimp only
  repeat' first
    | exact fun p hp => hT p hp
    | intro _
    | with_reducible assumption
    | with_reducible exact hks
    | with_reducible apply Has.ite
    | with_reducible apply keeps_diverge
    | with_reducible apply keeps_tellPartner
    | dsimp only
    | split

def touchExecCrosswindChunkExchange (p : Option Reg) : Bool := touchCompareChunks p || touchTakeExchange p

theorem keeps_execCrosswindChunkExchange (hK : Closed T K) (v : Arrival) (records : List (Nat × Nat)) (intact :
    Bool) (data : List Byte) (word : Dword) (s : State) (hT : ∀ p, touchExecCrosswindChunkExchange p = true → T p =
    true) (hks : Has K s) : HasRes K (execCrosswindChunkExchange v records intact data word s) := by
  unfold execCrosswindChunkExchange
  try dsimp only
  repeat' first
    | exact fun p hp => hT p (by simp only [touchExecCrosswindChunkExchange, hp, Bool.or_true, Bool.true_or])
    | intro _
    | with_reducible assumption
    | with_reducible exact hks
    | with_reducible apply HasRes.next
    | with_reducible apply HasRes.ite
    | with_reducible apply Has.ite
    | with_reducible apply keeps_compareChunks
    | with_reducible apply keeps_takeExchange
    | dsimp only
    | split

def touchVerifyReplay (p : Option Reg) : Bool := touchAddReg .replayCompared p || touchHaltTable p || touchSetRecovery
  p || touchSnapshotInvalid p

theorem keeps_verifyReplay (hK : Closed T K) (s : State) (t d : Nat) (hT : ∀ p, touchVerifyReplay p = true → T p =
    true) (hks : Has K s) : Has K (State.verifyReplay s t d) := by
  unfold State.verifyReplay
  try dsimp only
  repeat' first
    | exact fun p hp => hT p (by simp only [touchVerifyReplay, hp, Bool.or_true, Bool.true_or])
    | intro _
    | with_reducible assumption
    | with_reducible exact hks
    | with_reducible apply Has.ite
    | with_reducible apply keeps_addReg
    | with_reducible apply keeps_haltTable
    | with_reducible apply keeps_setRecovery
    | with_reducible apply keeps_snapshotInvalid
    | with_reducible apply Has.foldl
    | with_reducible apply Has1.foldl
    | with_reducible exact Has1.proj (by with_reducible assumption)
    | with_reducible apply Has1.mk
    | dsimp only
    | split

def touchExecNodeDigestMessage (p : Option Reg) : Bool := touchTakeControl p

theorem keeps_execNodeDigestMessage (hK : Closed T K) (v : Arrival) (tstep digest : Dword) (s : State) (hT : ∀ p,
    touchExecNodeDigestMessage p = true → T p = true) (hks : Has K s) : HasRes K (execNodeDigestMessage v tstep
    digest s) := by
  unfold execNodeDigestMessage
  try dsimp only
  repeat' first
    | exact fun p hp => hT p hp
    | intro _
    | with_reducible assumption
    | with_reducible exact hks
    | with_reducible apply HasRes.next
    | with_reducible apply HasRes.ite
    | with_reducible apply Has.ite
    | with_reducible apply keeps_takeControl
    | simp only [Has.same hK]
    | dsimp only
    | split

def touchEndRound (p : Option Reg) : Bool := touchAddReg .raccRound p

theorem keeps_endRound (hK : Closed T K) (s : State) (hT : ∀ p, touchEndRound p = true → T p = true) (hks : Has K s) :
    Has K (State.endRound s) := by
  unfold State.endRound
  try dsimp only
  repeat' first
    | exact fun p hp => hT p hp
    | intro _
    | with_reducible assumption
    | with_reducible exact hks
    | with_reducible apply Has.ite
    | with_reducible apply keeps_addReg
    | simp only [Has.same hK]
    | dsimp only
    | split

def touchExchange (p : Option Reg) : Bool := touchCompareSteps p || touchCompareStreams p

theorem keeps_exchange (hK : Closed T K) (s : State) (t d : Nat) (streams : List (Nat × Nat)) (hT : ∀ p,
    touchExchange p = true → T p = true) (hks : Has K s) : Has K (State.exchange s t d streams) := by
  unfold State.exchange
  try dsimp only
  repeat' first
    | exact fun p hp => hT p (by simp only [touchExchange, hp, Bool.or_true, Bool.true_or])
    | intro _
    | with_reducible assumption
    | with_reducible exact hks
    | with_reducible apply Has.ite
    | with_reducible apply keeps_compareSteps
    | with_reducible apply keeps_compareStreams
    | with_reducible apply keeps_tellPartner
    | simp only [Has.same hK]
    | dsimp only
    | split

def touchPassBoundary (p : Option Reg) : Bool := touchApplyDeferred p || touchClearReg .streamDigests p ||
  touchEndRound p || touchExchange p || touchFitRoster p || touchJobWrite p || touchSetReg .nodeDigest p ||
  touchSetReg .streamDigests p || touchSetReg .tstep p || touchVerifyReplay p

theorem keeps_passBoundary (hK : Closed T K) (s : State) (hT : ∀ p, touchPassBoundary p = true → T p = true) (hks :
    Has K s) : Has K (State.passBoundary s) := by
  unfold State.passBoundary
  try dsimp only
  repeat' first
    | exact fun p hp => hT p (by simp only [touchPassBoundary, hp, Bool.or_true, Bool.true_or])
    | intro _
    | with_reducible assumption
    | with_reducible exact hks
    | with_reducible apply Has.ite
    | with_reducible apply keeps_applyDeferred
    | with_reducible apply keeps_clearReg
    | with_reducible apply keeps_control
    | with_reducible apply keeps_endRound
    | with_reducible apply keeps_exchange
    | with_reducible apply keeps_fitRoster
    | with_reducible apply keeps_jobWrite
    | with_reducible apply keeps_setReg
    | with_reducible apply keeps_verifyReplay
    | with_reducible apply Has.foldl
    | with_reducible apply Has1.foldl
    | with_reducible exact Has1.proj (by with_reducible assumption)
    | with_reducible apply Has1.mk
    | simp only [Has.same hK]
    | dsimp only
    | split

def touchEnterLull (p : Option Reg) : Bool := touchChange .stateRequest p || touchEnter p || touchStopHarts p

theorem keeps_enterLull (hK : Closed T K) (s : State) (hT : ∀ p, touchEnterLull p = true → T p = true) (hks : Has K s)
    : Has K (State.enterLull s) := by
  unfold State.enterLull
  try dsimp only
  repeat' first
    | exact fun p hp => hT p (by simp only [touchEnterLull, hp, Bool.or_true, Bool.true_or])
    | intro _
    | with_reducible assumption
    | with_reducible exact hks
    | with_reducible apply Has.ite
    | with_reducible apply keeps_change
    | with_reducible apply keeps_enter
    | with_reducible apply keeps_stopHarts
    | dsimp only
    | split

def touchExecTimeStepBoundary (p : Option Reg) : Bool := touchEnterLull p || touchPassBoundary p

theorem keeps_execTimeStepBoundary (hK : Closed T K) (s : State) (hT : ∀ p, touchExecTimeStepBoundary p = true → T p =
    true) (hks : Has K s) : HasRes K (execTimeStepBoundary s) := by
  unfold execTimeStepBoundary
  try dsimp only
  repeat' first
    | exact fun p hp => hT p (by simp only [touchExecTimeStepBoundary, hp, Bool.or_true, Bool.true_or])
    | intro _
    | with_reducible assumption
    | with_reducible exact hks
    | with_reducible apply HasRes.next
    | with_reducible apply HasRes.ite
    | with_reducible apply Has.ite
    | with_reducible apply keeps_enterLull
    | with_reducible apply keeps_passBoundary
    | dsimp only
    | split

def touchResume (p : Option Reg) : Bool := touchEnter p || touchReleaseHarts p || touchSetReg .stateRequest p

theorem keeps_resume (hK : Closed T K) (s : State) (hT : ∀ p, touchResume p = true → T p = true) (hks : Has K s) : Has
    K (State.resume s) := by
  unfold State.resume
  try dsimp only
  repeat' first
    | exact fun p hp => hT p (by simp only [touchResume, hp, Bool.or_true, Bool.true_or])
    | intro _
    | with_reducible assumption
    | with_reducible exact hks
    | with_reducible apply Has.ite
    | with_reducible apply keeps_enter
    | with_reducible apply keeps_releaseHarts
    | with_reducible apply keeps_setReg
    | dsimp only
    | split

def touchExecStateRequestResume (p : Option Reg) : Bool := touchResume p || touchWriteRequest p

theorem keeps_execStateRequestResume (hK : Closed T K) (q : Requester) (s : State) (hT : ∀ p,
    touchExecStateRequestResume p = true → T p = true) (hks : Has K s) : HasRes K (execStateRequestResume q s) := by
  unfold execStateRequestResume
  try dsimp only
  repeat' first
    | exact fun p hp => hT p (by simp only [touchExecStateRequestResume, hp, Bool.or_true, Bool.true_or])
    | intro _
    | with_reducible assumption
    | with_reducible exact hks
    | with_reducible apply HasRes.next
    | with_reducible apply HasRes.ite
    | with_reducible apply Has.ite
    | with_reducible apply keeps_resume
    | with_reducible apply keeps_writeRequest
    | dsimp only
    | split

end Sys2Proof.Machine
end

