-- ==== Sys2Proof/Laws/KeepsFaults.lean ====
section
/-! SUPPORT. What the operations of Machine/Faults.lean keep, and the registers that each may change. -/

namespace Sys2Proof.Machine

variable {T : Option Reg → Bool} {K : State → Prop}

def touchExecWordReplay (p : Option Reg) : Bool := touchLogError p || touchParityPersistent p || touchParityReplayed p

theorem keeps_execWordReplay (hK : Closed T K) (hop : Hop) (again : Bool) (s : State) (hT : ∀ p, touchExecWordReplay p
    = true → T p = true) (hks : Has K s) : HasRes K (execWordReplay hop again s) := by
  unfold execWordReplay
  try dsimp only
  repeat' first
    | exact fun p hp => hT p (by simp only [touchExecWordReplay, hp, Bool.or_true, Bool.true_or])
    | intro _
    | with_reducible assumption
    | with_reducible exact hks
    | with_reducible apply HasRes.next
    | with_reducible apply HasRes.ite
    | with_reducible apply Has.ite
    | with_reducible apply keeps_logError
    | with_reducible apply keeps_parityPersistent
    | with_reducible apply keeps_parityReplayed
    | simp only [Has.same hK]
    | dsimp only
    | split

def touchExecBridgeSegmentTestComplete (p : Option Reg) : Bool := touchChange .bridgeState p || touchEndTest p ||
  touchEnterFaulted p || touchLogError p

theorem keeps_execBridgeSegmentTestComplete (hK : Closed T K) (bridge : Fin 23) (segment : Fin 256) (pass : Bool) (s :
    State) (hT : ∀ p, touchExecBridgeSegmentTestComplete p = true → T p = true) (hks : Has K s) : HasRes K
    (execBridgeSegmentTestComplete bridge segment pass s) := by
  unfold execBridgeSegmentTestComplete
  try dsimp only
  repeat' first
    | exact fun p hp => hT p (by simp only [touchExecBridgeSegmentTestComplete, hp, Bool.or_true, Bool.true_or])
    | intro _
    | with_reducible assumption
    | with_reducible exact hks
    | with_reducible apply HasRes.next
    | with_reducible apply HasRes.ite
    | with_reducible apply Has.ite
    | with_reducible apply keeps_change
    | with_reducible apply keeps_endTest
    | with_reducible apply keeps_enterFaulted
    | with_reducible apply keeps_logError
    | simp only [Has.same hK]
    | dsimp only
    | split

def touchExecCouplerBistComplete (p : Option Reg) : Bool := touchChange .couplerState p || touchCountHandover p ||
  touchEnterFaulted p || touchLogError p || touchNoteQueues p

theorem keeps_execCouplerBistComplete (hK : Closed T K) (die : Fin 8) (pass : Bool) (s : State) (hT : ∀ p,
    touchExecCouplerBistComplete p = true → T p = true) (hks : Has K s) : HasRes K (execCouplerBistComplete die pass
    s) := by
  unfold execCouplerBistComplete
  try dsimp only
  repeat' first
    | exact fun p hp => hT p (by simp only [touchExecCouplerBistComplete, hp, Bool.or_true, Bool.true_or])
    | intro _
    | with_reducible assumption
    | with_reducible exact hks
    | with_reducible apply HasRes.next
    | with_reducible apply HasRes.ite
    | with_reducible apply Has.ite
    | with_reducible apply keeps_change
    | with_reducible apply keeps_countHandover
    | with_reducible apply keeps_endTest
    | with_reducible apply keeps_enterFaulted
    | with_reducible apply keeps_logError
    | with_reducible apply keeps_noteQueues
    | dsimp only
    | split

def touchExecErrorAckWrite (p : Option Reg) : Bool := touchSetReg .alertCause p || touchWriteRequest p

theorem keeps_execErrorAckWrite (hK : Closed T K) (q : Requester) (v : Dword) (s : State) (hT : ∀ p,
    touchExecErrorAckWrite p = true → T p = true) (hks : Has K s) : HasRes K (execErrorAckWrite q v s) := by
  unfold execErrorAckWrite
  try dsimp only
  repeat' first
    | exact fun p hp => hT p (by simp only [touchExecErrorAckWrite, hp, Bool.or_true, Bool.true_or])
    | intro _
    | with_reducible assumption
    | with_reducible exact hks
    | with_reducible apply HasRes.next
    | with_reducible apply HasRes.ite
    | with_reducible apply Has.ite
    | with_reducible apply keeps_setReg
    | with_reducible apply keeps_writeRequest
    | dsimp only
    | split

def touchExecAlertCauseWrite (p : Option Reg) : Bool := touchSetReg .alertCause p || touchWriteRequest p

theorem keeps_execAlertCauseWrite (hK : Closed T K) (q : Requester) (v : Word) (s : State) (hT : ∀ p,
    touchExecAlertCauseWrite p = true → T p = true) (hks : Has K s) : HasRes K (execAlertCauseWrite q v s) := by
  unfold execAlertCauseWrite
  try dsimp only
  repeat' first
    | exact fun p hp => hT p (by simp only [touchExecAlertCauseWrite, hp, Bool.or_true, Bool.true_or])
    | intro _
    | with_reducible assumption
    | with_reducible exact hks
    | with_reducible apply HasRes.next
    | with_reducible apply HasRes.ite
    | with_reducible apply Has.ite
    | with_reducible apply keeps_setReg
    | with_reducible apply keeps_writeRequest
    | with_reducible apply Has.foldl
    | with_reducible apply Has1.foldl
    | with_reducible exact Has1.proj (by with_reducible assumption)
    | with_reducible apply Has1.mk
    | dsimp only
    | split

def touchExecSquallClear (p : Option Reg) : Bool := touchChange .squallState p

theorem keeps_execSquallClear (hK : Closed T K) (s : State) (hT : ∀ p, touchExecSquallClear p = true → T p = true)
    (hks : Has K s) : HasRes K (execSquallClear s) := by
  unfold execSquallClear
  try dsimp only
  repeat' first
    | exact fun p hp => hT p hp
    | intro _
    | with_reducible assumption
    | with_reducible exact hks
    | with_reducible apply HasRes.next
    | with_reducible apply HasRes.ite
    | with_reducible apply Has.ite
    | with_reducible apply keeps_change
    | dsimp only
    | split

def touchExecPeerLossTimeout (p : Option Reg) : Bool := touchDeliver p || touchLogError p

theorem keeps_execPeerLossTimeout (hK : Closed T K) (pos : Fin 17) (s : State) (hT : ∀ p, touchExecPeerLossTimeout p =
    true → T p = true) (hks : Has K s) : HasRes K (execPeerLossTimeout pos s) := by
  unfold execPeerLossTimeout
  try dsimp only
  repeat' first
    | exact fun p hp => hT p (by simp only [touchExecPeerLossTimeout, hp, Bool.or_true, Bool.true_or])
    | intro _
    | with_reducible assumption
    | with_reducible exact hks
    | with_reducible apply HasRes.next
    | with_reducible apply HasRes.ite
    | with_reducible apply Has.ite
    | with_reducible apply keeps_deliver
    | with_reducible apply keeps_logError
    | with_reducible apply Has.foldl
    | with_reducible apply Has1.foldl
    | with_reducible exact Has1.proj (by with_reducible assumption)
    | with_reducible apply Has1.mk
    | simp only [Has.same hK]
    | dsimp only
    | split

end Sys2Proof.Machine
end

