-- ==== Sys2Proof/Laws/KeepsStacks.lean ====
section
/-! SUPPORT. What the operations of Machine/Stacks.lean keep, and the registers that each may change. -/

namespace Sys2Proof.Machine

variable {T : Option Reg → Bool} {K : State → Prop}

def touchTestChannel (p : Option Reg) : Bool := touchChange .channelState p || touchSetChan p || touchStartTest p

theorem keeps_testChannel (hK : Closed T K) (s : State) (ch code : Nat) (hT : ∀ p, touchTestChannel p = true → T p =
    true) (hks : Has K s) : Has K (State.testChannel s ch code) := by
  unfold State.testChannel
  try dsimp only
  repeat' first
    | exact fun p hp => hT p (by simp only [touchTestChannel, hp, Bool.or_true, Bool.true_or])
    | intro _
    | with_reducible assumption
    | with_reducible exact hks
    | with_reducible apply Has.ite
    | with_reducible apply keeps_change
    | with_reducible apply keeps_setChan
    | with_reducible apply keeps_startTest
    | simp only [Has.same hK]
    | dsimp only
    | split

def touchRetrain (p : Option Reg) : Bool := touchAddReg .retrains p || touchChange .channelState p || touchLogError p
  || touchSetChan p

theorem keeps_retrain (hK : Closed T K) (s : State) (ch : Nat) (hT : ∀ p, touchRetrain p = true → T p = true) (hks :
    Has K s) : Has K (State.retrain s ch) := by
  unfold State.retrain
  try dsimp only
  repeat' first
    | exact fun p hp => hT p (by simp only [touchRetrain, hp, Bool.or_true, Bool.true_or])
    | intro _
    | with_reducible assumption
    | with_reducible exact hks
    | with_reducible apply Has.ite
    | with_reducible apply keeps_addReg
    | with_reducible apply keeps_change
    | with_reducible apply keeps_logError
    | with_reducible apply keeps_setChan
    | simp only [Has.same hK]
    | dsimp only
    | split

def touchExecChannelParityReplay (p : Option Reg) : Bool := touchParityReplayed p || touchRetrain p || touchSetChan p

theorem keeps_execChannelParityReplay (hK : Closed T K) (ch : Fin 1024) (s : State) (hT : ∀ p,
    touchExecChannelParityReplay p = true → T p = true) (hks : Has K s) : HasRes K (execChannelParityReplay ch s) :=
    by
  unfold execChannelParityReplay
  try dsimp only
  repeat' first
    | exact fun p hp => hT p (by simp only [touchExecChannelParityReplay, hp, Bool.or_true, Bool.true_or])
    | intro _
    | with_reducible assumption
    | with_reducible exact hks
    | with_reducible apply HasRes.next
    | with_reducible apply HasRes.ite
    | with_reducible apply Has.ite
    | with_reducible apply keeps_parityReplayed
    | with_reducible apply keeps_retrain
    | with_reducible apply keeps_setChan
    | simp only [Has.same hK]
    | dsimp only
    | split

def touchExecCalibrationDrift (p : Option Reg) : Bool := touchRetrain p

theorem keeps_execCalibrationDrift (hK : Closed T K) (ch : Fin 1024) (s : State) (hT : ∀ p, touchExecCalibrationDrift
    p = true → T p = true) (hks : Has K s) : HasRes K (execCalibrationDrift ch s) := by
  unfold execCalibrationDrift
  try dsimp only
  repeat' first
    | exact fun p hp => hT p hp
    | intro _
    | with_reducible assumption
    | with_reducible exact hks
    | with_reducible apply HasRes.next
    | with_reducible apply HasRes.ite
    | with_reducible apply Has.ite
    | with_reducible apply keeps_retrain
    | dsimp only
    | split

def touchStartRemap (_ : Option Reg) : Bool := false

theorem keeps_startRemap (hK : Closed T K) (s : State) (stack element : Nat)  (hks : Has K s) : Has K
    (State.startRemap s stack element) := by
  unfold State.startRemap
  try dsimp only
  repeat' first
    | intro _
    | with_reducible assumption
    | with_reducible exact hks
    | with_reducible apply Has.ite
    | simp only [Has.same hK]
    | dsimp only
    | split

def touchInstallRemap (p : Option Reg) : Bool := touchChange .reserveRowsLeft p || touchDegrade p

theorem keeps_installRemap (hK : Closed T K) (s : State) (stack element row : Nat) (hT : ∀ p, touchInstallRemap p =
    true → T p = true) (hks : Has K s) : Has K (State.installRemap s stack element row) := by
  unfold State.installRemap
  try dsimp only
  repeat' first
    | exact fun p hp => hT p (by simp only [touchInstallRemap, hp, Bool.or_true, Bool.true_or])
    | intro _
    | with_reducible assumption
    | with_reducible exact hks
    | with_reducible apply Has.ite
    | with_reducible apply keeps_change
    | with_reducible apply keeps_degrade
    | simp only [Has.same hK]
    | dsimp only
    | split

def touchExecSoftRemapComplete (p : Option Reg) : Bool := touchInstallRemap p

theorem keeps_execSoftRemapComplete (hK : Closed T K) (st : Fin 32) (s : State) (hT : ∀ p, touchExecSoftRemapComplete
    p = true → T p = true) (hks : Has K s) : HasRes K (execSoftRemapComplete st s) := by
  unfold execSoftRemapComplete
  try dsimp only
  repeat' first
    | exact fun p hp => hT p hp
    | intro _
    | with_reducible assumption
    | with_reducible exact hks
    | with_reducible apply HasRes.next
    | with_reducible apply HasRes.ite
    | with_reducible apply Has.ite
    | with_reducible apply keeps_installRemap
    | simp only [Has.same hK]
    | dsimp only
    | split

def touchNoteBlocked (p : Option Reg) : Bool := touchRaise .alertCause p || touchSetChan p

theorem keeps_noteBlocked (hK : Closed T K) (s : State) (hT : ∀ p, touchNoteBlocked p = true → T p = true) (hks : Has
    K s) : Has K (State.noteBlocked s) := by
  unfold State.noteBlocked
  try dsimp only
  repeat' first
    | exact fun p hp => hT p (by simp only [touchNoteBlocked, hp, Bool.or_true, Bool.true_or])
    | intro _
    | with_reducible assumption
    | with_reducible exact hks
    | with_reducible apply Has.ite
    | with_reducible apply keeps_raise
    | with_reducible apply keeps_setChan
    | simp only [Has.same hK]
    | dsimp only
    | split

def touchDecideMapout (p : Option Reg) : Bool := touchChange .channelState p || touchEnterFaulted p || touchLogError
  p || touchNoteBlocked p

theorem keeps_decideMapout (hK : Closed T K) (s : State) (ch : Nat) (hT : ∀ p, touchDecideMapout p = true → T p =
    true) (hks : Has K s) : Has K (State.decideMapout s ch) := by
  unfold State.decideMapout
  try dsimp only
  repeat' first
    | exact fun p hp => hT p (by simp only [touchDecideMapout, hp, Bool.or_true, Bool.true_or])
    | intro _
    | with_reducible assumption
    | with_reducible exact hks
    | with_reducible apply Has.ite
    | with_reducible apply keeps_change
    | with_reducible apply keeps_enterFaulted
    | with_reducible apply keeps_logError
    | with_reducible apply keeps_noteBlocked
    | with_reducible apply keeps_setChan
    | simp only [Has.same hK]
    | dsimp only
    | split

def touchFailBaseDie (p : Option Reg) : Bool := touchEnterFaulted p || touchLogError p

theorem keeps_failBaseDie (hK : Closed T K) (s : State) (st : Nat) (hT : ∀ p, touchFailBaseDie p = true → T p =
    true) (hks : Has K s) : Has K (State.failBaseDie s st) := by
  unfold State.failBaseDie
  try dsimp only
  repeat' first
    | exact fun p hp => hT p (by simp only [touchFailBaseDie, hp, Bool.or_true, Bool.true_or])
    | intro _
    | with_reducible assumption
    | with_reducible exact hks
    | with_reducible apply Has.ite
    | with_reducible apply keeps_enterFaulted
    | with_reducible apply keeps_logError
    | dsimp only
    | split

def touchExecPatternTestComplete (p : Option Reg) : Bool := touchChange .channelState p || touchDecideMapout p ||
  touchFailBaseDie p || touchLogError p

theorem keeps_execPatternTestComplete (hK : Closed T K) (ch : Fin 1024) (r : PatternResult) (s : State) (hT : ∀ p,
    touchExecPatternTestComplete p = true → T p = true) (hks : Has K s) : HasRes K (execPatternTestComplete ch r s)
    := by
  unfold execPatternTestComplete
  try dsimp only
  repeat' first
    | exact fun p hp => hT p (by simp only [touchExecPatternTestComplete, hp, Bool.or_true, Bool.true_or])
    | intro _
    | with_reducible assumption
    | with_reducible exact hks
    | with_reducible apply HasRes.next
    | with_reducible apply HasRes.ite
    | with_reducible apply Has.ite
    | with_reducible apply keeps_change
    | with_reducible apply keeps_decideMapout
    | with_reducible apply keeps_endTest
    | with_reducible apply keeps_failBaseDie
    | with_reducible apply keeps_logError
    | with_reducible apply keeps_startRemap
    | with_reducible apply Has.foldl
    | with_reducible apply Has1.foldl
    | with_reducible exact Has1.proj (by with_reducible assumption)
    | with_reducible apply Has1.mk
    | dsimp only
    | split

def touchRecall (p : Option Reg) : Bool := touchAddReg .backInvalidates p || touchSetReg .hostHeldLines p

theorem keeps_recall (hK : Closed T K) (s : State) (p : Nat → Bool) (hT : ∀ p, touchRecall p = true → T p = true) (hks
    : Has K s) : Has K (State.recall s p) := by
  unfold State.recall
  try dsimp only
  repeat' first
    | exact fun p hp => hT p (by simp only [touchRecall, hp, Bool.or_true, Bool.true_or])
    | intro _
    | with_reducible assumption
    | with_reducible exact hks
    | with_reducible apply Has.ite
    | with_reducible apply keeps_addReg
    | with_reducible apply keeps_setReg
    | simp only [Has.same hK]
    | dsimp only
    | split

def touchExecChannelMapoutSwitch (p : Option Reg) : Bool := touchChange .allocTop p || touchChange .channelState p
  || touchChange .channelsOut p || touchChange .stackTop p || touchDataLoss p || touchDegrade p || touchMapChanged p
  || touchRecall p || touchSetReg .mapoutOrder p || touchSetReg .migrationLeft p || touchStopCopy p || touchWipe p

theorem keeps_execChannelMapoutSwitch (hK : Closed T K) (s : State) (hT : ∀ p, touchExecChannelMapoutSwitch p = true
    → T p = true) (hks : Has K s) : HasRes K (execChannelMapoutSwitch s) := by
  unfold execChannelMapoutSwitch
  try dsimp only
  repeat' first
    | exact fun p hp => hT p (by simp only [touchExecChannelMapoutSwitch, hp, Bool.or_true, Bool.true_or])
    | intro _
    | with_reducible assumption
    | with_reducible exact hks
    | with_reducible apply HasRes.next
    | with_reducible apply HasRes.ite
    | with_reducible apply Has.ite
    | with_reducible apply keeps_change
    | with_reducible apply keeps_dataLoss
    | with_reducible apply keeps_degrade
    | with_reducible apply keeps_mapChanged
    | with_reducible apply keeps_recall
    | with_reducible apply keeps_setChan
    | with_reducible apply keeps_setReg
    | with_reducible apply keeps_settleError
    | with_reducible apply keeps_stopCopy
    | with_reducible apply keeps_wipe
    | simp only [Has.same hK]
    | dsimp only
    | split

def touchExecMigrationComplete (p : Option Reg) : Bool := touchChange .channelState p || touchNoteBlocked p ||
  touchSetReg .migrationLeft p

theorem keeps_execMigrationComplete (hK : Closed T K) (s : State) (hT : ∀ p, touchExecMigrationComplete p = true → T
    p = true) (hks : Has K s) : HasRes K (execMigrationComplete s) := by
  unfold execMigrationComplete
  try dsimp only
  repeat' first
    | exact fun p hp => hT p (by simp only [touchExecMigrationComplete, hp, Bool.or_true, Bool.true_or])
    | intro _
    | with_reducible assumption
    | with_reducible exact hks
    | with_reducible apply HasRes.next
    | with_reducible apply HasRes.ite
    | with_reducible apply Has.ite
    | with_reducible apply keeps_change
    | with_reducible apply keeps_noteBlocked
    | with_reducible apply keeps_setReg
    | simp only [Has.same hK]
    | dsimp only
    | split

def touchExecAllocTopWrite (p : Option Reg) : Bool := touchNoteBlocked p || touchWriteRequest p

theorem keeps_execAllocTopWrite (hK : Closed T K) (q : Requester) (v : Dword) (s : State) (hT : ∀ p,
    touchExecAllocTopWrite p = true → T p = true) (hks : Has K s) : HasRes K (execAllocTopWrite q v s) := by
  unfold execAllocTopWrite
  try dsimp only
  repeat' first
    | exact fun p hp => hT p (by simp only [touchExecAllocTopWrite, hp, Bool.or_true, Bool.true_or])
    | intro _
    | with_reducible assumption
    | with_reducible exact hks
    | with_reducible apply HasRes.next
    | with_reducible apply HasRes.ite
    | with_reducible apply Has.ite
    | with_reducible apply keeps_noteBlocked
    | with_reducible apply keeps_writeRequest
    | dsimp only
    | split

def touchExecMapoutForceWrite (p : Option Reg) : Bool := touchNoteBlocked p || touchWriteRequest p

theorem keeps_execMapoutForceWrite (hK : Closed T K) (q : Requester) (v : Byte) (s : State) (hT : ∀ p,
    touchExecMapoutForceWrite p = true → T p = true) (hks : Has K s) : HasRes K (execMapoutForceWrite q v s) := by
  unfold execMapoutForceWrite
  try dsimp only
  repeat' first
    | exact fun p hp => hT p (by simp only [touchExecMapoutForceWrite, hp, Bool.or_true, Bool.true_or])
    | intro _
    | with_reducible assumption
    | with_reducible exact hks
    | with_reducible apply HasRes.next
    | with_reducible apply HasRes.ite
    | with_reducible apply Has.ite
    | with_reducible apply keeps_noteBlocked
    | with_reducible apply keeps_writeRequest
    | dsimp only
    | split

def touchWearRow (p : Option Reg) : Bool := touchDecideMapout p || touchLogError p

theorem keeps_wearRow (hK : Closed T K) (s : State) (ch row element : Nat) (hT : ∀ p, touchWearRow p = true → T p =
    true) (hks : Has K s) : Has K (State.wearRow s ch row element) := by
  unfold State.wearRow
  try dsimp only
  repeat' first
    | exact fun p hp => hT p (by simp only [touchWearRow, hp, Bool.or_true, Bool.true_or])
    | intro _
    | with_reducible assumption
    | with_reducible exact hks
    | with_reducible apply Has.ite
    | with_reducible apply keeps_decideMapout
    | with_reducible apply keeps_logError
    | with_reducible apply keeps_startRemap
    | dsimp only
    | split

def touchCorrectedRead (p : Option Reg) : Bool := touchAddReg .eccCorrectedCnt p || touchLogError p ||
  touchTestChannel p || touchWearRow p

theorem keeps_correctedRead (hK : Closed T K) (s : State) (ch element a : Nat) (hT : ∀ p, touchCorrectedRead p =
    true → T p = true) (hks : Has K s) : Has K (State.correctedRead s ch element a) := by
  unfold State.correctedRead
  try dsimp only
  repeat' first
    | exact fun p hp => hT p (by simp only [touchCorrectedRead, hp, Bool.or_true, Bool.true_or])
    | intro _
    | with_reducible assumption
    | with_reducible exact hks
    | with_reducible apply Has.ite
    | with_reducible apply keeps_addReg
    | with_reducible apply keeps_logError
    | with_reducible apply keeps_setChan
    | with_reducible apply keeps_testChannel
    | with_reducible apply keeps_wearRow
    | simp only [Has.same hK]
    | dsimp only
    | split

def touchStackFinding (p : Option Reg) : Bool := touchAddReg .eccUncorrCnt p || touchCorrectedRead p ||
  touchDataLoss p || touchLogError p || touchTestChannel p

theorem keeps_stackFinding (hK : Closed T K) (s : State) (a : Nat) (f : EccFinding) (hT : ∀ p, touchStackFinding p =
    true → T p = true) (hks : Has K s) : Has K (State.stackFinding s a f) := by
  unfold State.stackFinding
  try dsimp only
  repeat' first
    | exact fun p hp => hT p (by simp only [touchStackFinding, hp, Bool.or_true, Bool.true_or])
    | intro _
    | with_reducible assumption
    | with_reducible exact hks
    | with_reducible apply Has.ite
    | with_reducible apply keeps_addReg
    | with_reducible apply keeps_correctedRead
    | with_reducible apply keeps_dataLoss
    | with_reducible apply keeps_logError
    | with_reducible apply keeps_poison
    | with_reducible apply keeps_testChannel
    | dsimp only
    | split

def touchServeChan (p : Option Reg) : Bool := touchStackFinding p

theorem keeps_serveChan (hK : Closed T K) (s : State) (r : ChanReq) (hT : ∀ p, touchServeChan p = true → T p = true)
    (hks : Has K s) : Has K (State.serveChan s r) := by
  unfold State.serveChan
  try dsimp only
  repeat' first
    | exact fun p hp => hT p hp
    | intro _
    | with_reducible assumption
    | with_reducible exact hks
    | with_reducible apply Has.ite
    | with_reducible apply keeps_stackFinding
    | simp only [Has.same hK]
    | dsimp only
    | split

def touchToChannel (p : Option Reg) : Bool := touchAccept p || touchQueueChan p || touchServeChan p

theorem keeps_toChannel (hK : Closed T K) (s : State) (ch : Nat) (r : ChanReq) (hT : ∀ p, touchToChannel p = true →
    T p = true) (hks : Has K s) : Has K (State.toChannel s ch r) := by
  unfold State.toChannel
  try dsimp only
  repeat' first
    | exact fun p hp => hT p (by simp only [touchToChannel, hp, Bool.or_true, Bool.true_or])
    | intro _
    | with_reducible assumption
    | with_reducible exact hks
    | with_reducible apply Has.ite
    | with_reducible apply keeps_accept
    | with_reducible apply keeps_queueChan
    | with_reducible apply keeps_serveChan
    | dsimp only
    | split

def touchReleaseChan (p : Option Reg) : Bool := touchAccept p || touchServeChan p

theorem keeps_releaseChan (hK : Closed T K) (s : State) (ch : Nat) (hT : ∀ p, touchReleaseChan p = true → T p =
    true) (hks : Has K s) : Has K (State.releaseChan s ch) := by
  unfold State.releaseChan
  try dsimp only
  repeat' first
    | exact fun p hp => hT p (by simp only [touchReleaseChan, hp, Bool.or_true, Bool.true_or])
    | intro _
    | with_reducible assumption
    | with_reducible exact hks
    | with_reducible apply Has.ite
    | with_reducible apply keeps_accept
    | with_reducible apply keeps_serveChan
    | with_reducible apply Has.foldl
    | with_reducible apply Has1.foldl
    | with_reducible exact Has1.proj (by with_reducible assumption)
    | with_reducible apply Has1.mk
    | simp only [Has.same hK]
    | dsimp only
    | split

def touchAskFill (p : Option Reg) : Bool := touchToChannel p

theorem keeps_askFill (hK : Closed T K) (s : State) (l : Nat) (hT : ∀ p, touchAskFill p = true → T p = true) (hks :
    Has K s) : Has K (State.askFill s l) := by
  unfold State.askFill
  try dsimp only
  repeat' first
    | exact fun p hp => hT p hp
    | intro _
    | with_reducible assumption
    | with_reducible exact hks
    | with_reducible apply Has.ite
    | with_reducible apply keeps_toChannel
    | simp only [Has.same hK]
    | dsimp only
    | split

def touchMergeLine (_ : Option Reg) : Bool := false

theorem keeps_mergeLine (hK : Closed T K) (s : State) (l : Nat) (hks : Has K s) : Has K (State.mergeLine s l) := by
  unfold State.mergeLine
  try dsimp only
  repeat' first
    | intro _
    | with_reducible assumption
    | with_reducible exact hks
    | with_reducible apply Has.ite
    | with_reducible apply keeps_clearWords
    | with_reducible apply keeps_noteMoved
    | with_reducible apply Has.foldl
    | with_reducible apply Has1.foldl
    | with_reducible exact Has1.proj (by with_reducible assumption)
    | with_reducible apply Has1.mk
    | simp only [Has.same hK]
    | dsimp only
    | split

def touchTakeNarrow (p : Option Reg) : Bool := touchAddReg .narrowRequests p || touchToChannel p

theorem keeps_takeNarrow (hK : Closed T K) (s : State) (r : Narrow) (hT : ∀ p, touchTakeNarrow p = true → T p =
    true) (hks : Has K s) : Has K (State.takeNarrow s r) := by
  unfold State.takeNarrow
  try dsimp only
  repeat' first
    | exact fun p hp => hT p (by simp only [touchTakeNarrow, hp, Bool.or_true, Bool.true_or])
    | intro _
    | with_reducible assumption
    | with_reducible exact hks
    | with_reducible apply Has.ite
    | with_reducible apply keeps_addReg
    | with_reducible apply keeps_toChannel
    | simp only [Has.same hK]
    | dsimp only
    | split

def touchOfferNarrow (p : Option Reg) : Bool := touchAddReg .narrowFullStalls p || touchTakeNarrow p

theorem keeps_offerNarrow (hK : Closed T K) (s : State) (r : Narrow) (hT : ∀ p, touchOfferNarrow p = true → T p =
    true) (hks : Has K s) : Has K (State.offerNarrow s r) := by
  unfold State.offerNarrow
  try dsimp only
  repeat' first
    | exact fun p hp => hT p (by simp only [touchOfferNarrow, hp, Bool.or_true, Bool.true_or])
    | intro _
    | with_reducible assumption
    | with_reducible exact hks
    | with_reducible apply Has.ite
    | with_reducible apply keeps_addReg
    | with_reducible apply keeps_takeNarrow
    | simp only [Has.same hK]
    | dsimp only
    | split

def touchAdmitNarrow (p : Option Reg) : Bool := touchTakeNarrow p

theorem keeps_admitNarrow (hK : Closed T K) (s : State) (st : Nat) (hT : ∀ p, touchAdmitNarrow p = true → T p =
    true) (hks : Has K s) : Has K (State.admitNarrow s st) := by
  unfold State.admitNarrow
  try dsimp only
  repeat' first
    | exact fun p hp => hT p hp
    | intro _
    | with_reducible assumption
    | with_reducible exact hks
    | with_reducible apply Has.ite
    | with_reducible apply keeps_takeNarrow
    | simp only [Has.same hK]
    | dsimp only
    | split

def touchSliceFinding (p : Option Reg) : Bool := touchAskFill p || touchDataLoss p || touchLogError p ||
  touchParityPersistent p || touchStartTest p

theorem keeps_sliceFinding (hK : Closed T K) (s : State) (a : Nat) (f : WordFinding) (persistent : Bool) (hT : ∀ p,
    touchSliceFinding p = true → T p = true) (hks : Has K s) : Has K (State.sliceFinding s a f persistent) := by
  unfold State.sliceFinding
  try dsimp only
  repeat' first
    | exact fun p hp => hT p (by simp only [touchSliceFinding, hp, Bool.or_true, Bool.true_or])
    | intro _
    | with_reducible assumption
    | with_reducible exact hks
    | with_reducible apply Has.ite
    | with_reducible apply keeps_askFill
    | with_reducible apply keeps_dataLoss
    | with_reducible apply keeps_logError
    | with_reducible apply keeps_parityPersistent
    | with_reducible apply keeps_poisonWord
    | with_reducible apply keeps_startTest
    | simp only [Has.same hK]
    | dsimp only
    | split

def touchExecChannelRetrainComplete (p : Option Reg) : Bool := touchChange .channelState p || touchReleaseChan p ||
  touchStartTest p

theorem keeps_execChannelRetrainComplete (hK : Closed T K) (ch : Fin 1024) (ok : Bool) (s : State) (hT : ∀ p,
    touchExecChannelRetrainComplete p = true → T p = true) (hks : Has K s) : HasRes K (execChannelRetrainComplete ch
    ok s) := by
  unfold execChannelRetrainComplete
  try dsimp only
  repeat' first
    | exact fun p hp => hT p (by simp only [touchExecChannelRetrainComplete, hp, Bool.or_true, Bool.true_or])
    | intro _
    | with_reducible assumption
    | with_reducible exact hks
    | with_reducible apply HasRes.next
    | with_reducible apply HasRes.ite
    | with_reducible apply Has.ite
    | with_reducible apply keeps_change
    | with_reducible apply keeps_releaseChan
    | with_reducible apply keeps_setChan
    | with_reducible apply keeps_settleError
    | with_reducible apply keeps_startTest
    | simp only [Has.same hK]
    | dsimp only
    | split

def touchEvicted (_ : Option Reg) : Bool := false

theorem keeps_evicted (hK : Closed T K) (s : State) (l : Nat) (hks : Has K s) : Has K (State.evicted s l) := by
  unfold State.evicted
  try dsimp only
  repeat' first
    | intro _
    | with_reducible assumption
    | with_reducible exact hks
    | with_reducible apply Has.ite
    | with_reducible apply keeps_setLlm
    | simp only [Has.same hK]
    | dsimp only
    | split

def touchMeetRead (p : Option Reg) : Bool := touchAddReg .llmBypassed p || touchAddReg .llmHits p || touchAddReg
  .llmMisses p || touchAskFill p || touchSliceFinding p || touchToChannel p

theorem keeps_meetRead (hK : Closed T K) (s : State) (a : Nat) (eligible : Bool) (queue : Nat) (x : SliceAccess)
    (stack : EccFinding) (hT : ∀ p, touchMeetRead p = true → T p = true) (hks : Has K s) : Has K (State.meetRead s a
    eligible queue x stack) := by
  unfold State.meetRead
  try dsimp only
  repeat' first
    | exact fun p hp => hT p (by simp only [touchMeetRead, hp, Bool.or_true, Bool.true_or])
    | intro _
    | with_reducible assumption
    | with_reducible exact hks
    | with_reducible apply Has.ite
    | with_reducible apply keeps_addReg
    | with_reducible apply keeps_askFill
    | with_reducible apply keeps_evicted
    | with_reducible apply keeps_holdLine
    | with_reducible apply keeps_sliceFinding
    | with_reducible apply keeps_toChannel
    | dsimp only
    | split

def touchMeetWrite (p : Option Reg) : Bool := touchAddReg .llmHits p || touchAddReg .llmMisses p || touchAskFill p
  || touchSliceFinding p

theorem keeps_meetWrite (hK : Closed T K) (s : State) (a n : Nat) (x : SliceAccess) (hT : ∀ p, touchMeetWrite p =
    true → T p = true) (hks : Has K s) : Has K (State.meetWrite s a n x) := by
  unfold State.meetWrite
  try dsimp only
  repeat' first
    | exact fun p hp => hT p (by simp only [touchMeetWrite, hp, Bool.or_true, Bool.true_or])
    | intro _
    | with_reducible assumption
    | with_reducible exact hks
    | with_reducible apply Has.ite
    | with_reducible apply keeps_addReg
    | with_reducible apply keeps_askFill
    | with_reducible apply keeps_evicted
    | with_reducible apply keeps_holdLine
    | with_reducible apply keeps_setLlm
    | with_reducible apply keeps_sliceFinding
    | dsimp only
    | split

def touchPutSlice (p : Option Reg) : Bool := touchWrite p || touchWriteStack p

theorem keeps_putSlice (hK : Closed T K) (s : State) (a : Nat) (data : List Byte) (hT : ∀ p, touchPutSlice p = true
    → T p = true) (hks : Has K s) : Has K (State.putSlice s a data) := by
  unfold State.putSlice
  try dsimp only
  repeat' first
    | exact fun p hp => hT p (by simp only [touchPutSlice, hp, Bool.or_true, Bool.true_or])
    | intro _
    | with_reducible assumption
    | with_reducible exact hks
    | with_reducible apply Has.ite
    | with_reducible apply keeps_write
    | with_reducible apply keeps_writeStack
    | dsimp only
    | split

def touchMeetNarrow (p : Option Reg) : Bool := touchAddReg .narrowRequests p || touchOfferNarrow p ||
  touchSliceFinding p || touchWrite p

theorem keeps_meetNarrow (hK : Closed T K) (s : State) (a n : Nat) (bytes : Option (List Byte)) (x : SliceAccess)
    (hT : ∀ p, touchMeetNarrow p = true → T p = true) (hks : Has K s) : Has K (State.meetNarrow s a n bytes x) := by
  unfold State.meetNarrow
  try dsimp only
  repeat' first
    | exact fun p hp => hT p (by simp only [touchMeetNarrow, hp, Bool.or_true, Bool.true_or])
    | intro _
    | with_reducible assumption
    | with_reducible exact hks
    | with_reducible apply Has.ite
    | with_reducible apply keeps_addReg
    | with_reducible apply keeps_evicted
    | with_reducible apply keeps_holdLine
    | with_reducible apply keeps_offerNarrow
    | with_reducible apply keeps_sliceFinding
    | with_reducible apply keeps_write
    | dsimp only
    | split

def touchHoldSlice (_ : Option Reg) : Bool := false

theorem keeps_holdSlice (hK : Closed T K) (s : State) (a : Nat) (r : SliceReq) (hks : Has K s) : Has K
    (State.holdSlice s a r) := by
  unfold State.holdSlice
  try dsimp only
  repeat' first
    | intro _
    | with_reducible assumption
    | with_reducible exact hks
    | with_reducible apply Has.ite
    | simp only [Has.same hK]
    | dsimp only
    | split

def touchReleaseSlice (p : Option Reg) : Bool := touchMeetNarrow p || touchMeetRead p || touchMeetWrite p

theorem keeps_releaseSlice (hK : Closed T K) (s : State) (u : Nat) (hT : ∀ p, touchReleaseSlice p = true → T p =
    true) (hks : Has K s) : Has K (State.releaseSlice s u) := by
  unfold State.releaseSlice
  try dsimp only
  repeat' first
    | exact fun p hp => hT p (by simp only [touchReleaseSlice, hp, Bool.or_true, Bool.true_or])
    | intro _
    | with_reducible assumption
    | with_reducible exact hks
    | with_reducible apply Has.ite
    | with_reducible apply keeps_meetNarrow
    | with_reducible apply keeps_meetRead
    | with_reducible apply keeps_meetWrite
    | with_reducible apply Has.foldl
    | with_reducible apply Has1.foldl
    | with_reducible exact Has1.proj (by with_reducible assumption)
    | with_reducible apply Has1.mk
    | simp only [Has.same hK]
    | dsimp only
    | split

def touchExecStackRead (p : Option Reg) : Bool := touchMeetRead p

theorem keeps_execStackRead (hK : Closed T K) (a : BitVec 42) (eligible : Bool) (queue : Nat) (x : SliceAccess)
    (stack : EccFinding) (s : State) (hT : ∀ p, touchExecStackRead p = true → T p = true) (hks : Has K s) : HasRes K
    (execStackRead a eligible queue x stack s) := by
  unfold execStackRead
  try dsimp only
  repeat' first
    | exact fun p hp => hT p hp
    | intro _
    | with_reducible assumption
    | with_reducible exact hks
    | with_reducible apply HasRes.next
    | with_reducible apply HasRes.ite
    | with_reducible apply Has.ite
    | with_reducible apply keeps_holdSlice
    | with_reducible apply keeps_meetRead
    | dsimp only
    | split

def touchApplyWrite (p : Option Reg) : Bool := touchMeetWrite p || touchPutSlice p

theorem keeps_applyWrite (hK : Closed T K) (s : State) (a : Nat) (data : List Byte) (x : SliceAccess) (hT : ∀ p,
    touchApplyWrite p = true → T p = true) (hks : Has K s) : Has K (State.applyWrite s a data x) := by
  unfold State.applyWrite
  try dsimp only
  repeat' first
    | exact fun p hp => hT p (by simp only [touchApplyWrite, hp, Bool.or_true, Bool.true_or])
    | intro _
    | with_reducible assumption
    | with_reducible exact hks
    | with_reducible apply Has.ite
    | with_reducible apply keeps_holdSlice
    | with_reducible apply keeps_meetWrite
    | with_reducible apply keeps_putSlice
    | dsimp only
    | split

def touchExecStackWrite (p : Option Reg) : Bool := touchAddReg .backInvalidates p || touchApplyWrite p

theorem keeps_execStackWrite (hK : Closed T K) (a : BitVec 42) (data : List Byte) (x : SliceAccess) (s : State) (hT
    : ∀ p, touchExecStackWrite p = true → T p = true) (hks : Has K s) : HasRes K (execStackWrite a data x s) := by
  unfold execStackWrite
  try dsimp only
  repeat' first
    | exact fun p hp => hT p (by simp only [touchExecStackWrite, hp, Bool.or_true, Bool.true_or])
    | intro _
    | with_reducible assumption
    | with_reducible exact hks
    | with_reducible apply HasRes.next
    | with_reducible apply HasRes.ite
    | with_reducible apply Has.ite
    | with_reducible apply keeps_addReg
    | with_reducible apply keeps_applyWrite
    | with_reducible apply keeps_send
    | simp only [Has.same hK]
    | dsimp only
    | split

def touchExecLlmFillComplete (p : Option Reg) : Bool := touchStackFinding p

theorem keeps_execLlmFillComplete (hK : Closed T K) (line : Fin 17179869184) (finding : EccFinding) (s : State) (hT
    : ∀ p, touchExecLlmFillComplete p = true → T p = true) (hks : Has K s) : HasRes K (execLlmFillComplete line
    finding s) := by
  unfold execLlmFillComplete
  try dsimp only
  repeat' first
    | exact fun p hp => hT p hp
    | intro _
    | with_reducible assumption
    | with_reducible exact hks
    | with_reducible apply HasRes.next
    | with_reducible apply HasRes.ite
    | with_reducible apply Has.ite
    | with_reducible apply keeps_holdLine
    | with_reducible apply keeps_mergeLine
    | with_reducible apply keeps_stackFinding
    | simp only [Has.same hK]
    | dsimp only
    | split

def touchExecNarrowRequest (p : Option Reg) : Bool := touchMeetNarrow p || touchPutSlice p

theorem keeps_execNarrowRequest (hK : Closed T K) (a : BitVec 42) (log : Fin 4) (data : Option Dword) (x :
    SliceAccess) (s : State) (hT : ∀ p, touchExecNarrowRequest p = true → T p = true) (hks : Has K s) : HasRes K
    (execNarrowRequest a log data x s) := by
  unfold execNarrowRequest
  try dsimp only
  repeat' first
    | exact fun p hp => hT p (by simp only [touchExecNarrowRequest, hp, Bool.or_true, Bool.true_or])
    | intro _
    | with_reducible assumption
    | with_reducible exact hks
    | with_reducible apply HasRes.next
    | with_reducible apply HasRes.ite
    | with_reducible apply Has.ite
    | with_reducible apply keeps_holdSlice
    | with_reducible apply keeps_meetNarrow
    | with_reducible apply keeps_putSlice
    | dsimp only
    | split

def touchExecCoalescingWaitExpiry (p : Option Reg) : Bool := touchAddReg .narrowAtoms p || touchAddReg
  .narrowCoalesced p || touchAdmitNarrow p || touchStackFinding p

theorem keeps_execCoalescingWaitExpiry (hK : Closed T K) (st : Fin 32) (findings : List EccFinding) (s : State) (hT
    : ∀ p, touchExecCoalescingWaitExpiry p = true → T p = true) (hks : Has K s) : HasRes K (execCoalescingWaitExpiry
    st findings s) := by
  unfold execCoalescingWaitExpiry
  try dsimp only
  repeat' first
    | exact fun p hp => hT p (by simp only [touchExecCoalescingWaitExpiry, hp, Bool.or_true, Bool.true_or])
    | intro _
    | with_reducible assumption
    | with_reducible exact hks
    | with_reducible apply HasRes.next
    | with_reducible apply HasRes.ite
    | with_reducible apply Has.ite
    | with_reducible apply keeps_addReg
    | with_reducible apply keeps_admitNarrow
    | with_reducible apply keeps_mergeLine
    | with_reducible apply keeps_stackFinding
    | with_reducible apply Has.foldl
    | with_reducible apply Has1.foldl
    | with_reducible exact Has1.proj (by with_reducible assumption)
    | with_reducible apply Has1.mk
    | simp only [Has.same hK]
    | dsimp only
    | split

def touchMarkSpare (p : Option Reg) : Bool := touchAddReg .eccUncorrCnt p || touchLogError p || touchTestChannel p

theorem keeps_markSpare (hK : Closed T K) (s : State) (m : SpareMark) (ch : Nat) (hT : ∀ p, touchMarkSpare p = true
    → T p = true) (hks : Has K s) : Has K (State.markSpare s m ch) := by
  unfold State.markSpare
  try dsimp only
  repeat' first
    | exact fun p hp => hT p (by simp only [touchMarkSpare, hp, Bool.or_true, Bool.true_or])
    | intro _
    | with_reducible assumption
    | with_reducible exact hks
    | with_reducible apply Has.ite
    | with_reducible apply keeps_addReg
    | with_reducible apply keeps_logError
    | with_reducible apply keeps_testChannel
    | simp only [Has.same hK]
    | dsimp only
    | split

def touchSpoil (p : Option Reg) : Bool := touchSetSlot p || touchShowShards p || touchSnapshotInvalid p

theorem keeps_spoil (hK : Closed T K) (s : State) (place : ScrubPlace) (hT : ∀ p, touchSpoil p = true → T p = true)
    (hks : Has K s) : Has K (State.spoil s place) := by
  unfold State.spoil
  try dsimp only
  repeat' first
    | exact fun p hp => hT p (by simp only [touchSpoil, hp, Bool.or_true, Bool.true_or])
    | intro _
    | with_reducible assumption
    | with_reducible exact hks
    | with_reducible apply Has.ite
    | with_reducible apply keeps_setSlot
    | with_reducible apply keeps_showShards
    | with_reducible apply keeps_snapshotInvalid
    | simp only [Has.same hK]
    | dsimp only
    | split

def touchExecScrubLine (p : Option Reg) : Bool := touchAddReg .scrubPasses p || touchCorrectedRead p ||
  touchMarkSpare p || touchSpoil p || touchStackFinding p

theorem keeps_execScrubLine (hK : Closed T K) (st : Fin 32) (e : StackElement) (col : Fin 8) (place : ScrubPlace)
    (finding : EccFinding) (last : Bool) (s : State) (hT : ∀ p, touchExecScrubLine p = true → T p = true) (hks : Has
    K s) : HasRes K (execScrubLine st e col place finding last s) := by
  unfold execScrubLine
  try dsimp only
  repeat' first
    | exact fun p hp => hT p (by simp only [touchExecScrubLine, hp, Bool.or_true, Bool.true_or])
    | intro _
    | with_reducible assumption
    | with_reducible exact hks
    | with_reducible apply HasRes.next
    | with_reducible apply HasRes.ite
    | with_reducible apply Has.ite
    | with_reducible apply keeps_addReg
    | with_reducible apply keeps_correctedRead
    | with_reducible apply keeps_markSpare
    | with_reducible apply keeps_setChan
    | with_reducible apply keeps_spoil
    | with_reducible apply keeps_stackFinding
    | with_reducible apply Has.foldl
    | with_reducible apply Has1.foldl
    | with_reducible exact Has1.proj (by with_reducible assumption)
    | with_reducible apply Has1.mk
    | simp only [Has.same hK]
    | dsimp only
    | split

def touchPassThrough (p : Option Reg) : Bool := touchChange .llmScratchWays p || touchChange .sliceState p ||
  touchDataLoss p || touchDegrade p || touchLogError p || touchWipe p

theorem keeps_passThrough (hK : Closed T K) (s : State) (die phys : Nat) (hT : ∀ p, touchPassThrough p = true → T p
    = true) (hks : Has K s) : Has K (State.passThrough s die phys) := by
  unfold State.passThrough
  try dsimp only
  repeat' first
    | exact fun p hp => hT p (by simp only [touchPassThrough, hp, Bool.or_true, Bool.true_or])
    | intro _
    | with_reducible assumption
    | with_reducible exact hks
    | with_reducible apply Has.ite
    | with_reducible apply keeps_change
    | with_reducible apply keeps_dataLoss
    | with_reducible apply keeps_degrade
    | with_reducible apply keeps_logError
    | with_reducible apply keeps_wipe
    | simp only [Has.same hK]
    | dsimp only
    | split

def touchFailSlice (p : Option Reg) : Bool := touchChange .sliceSparesLeft p || touchChange .sliceState p ||
  touchDegrade p || touchLogError p || touchPassThrough p || touchSetReg .sliceMap p

theorem keeps_failSlice (hK : Closed T K) (s : State) (t : SelfTest) (die phys : Nat) (hT : ∀ p, touchFailSlice p =
    true → T p = true) (hks : Has K s) : Has K (State.failSlice s t die phys) := by
  unfold State.failSlice
  try dsimp only
  repeat' first
    | exact fun p hp => hT p (by simp only [touchFailSlice, hp, Bool.or_true, Bool.true_or])
    | intro _
    | with_reducible assumption
    | with_reducible exact hks
    | with_reducible apply Has.ite
    | with_reducible apply keeps_change
    | with_reducible apply keeps_degrade
    | with_reducible apply keeps_endTest
    | with_reducible apply keeps_logError
    | with_reducible apply keeps_passThrough
    | with_reducible apply keeps_setReg
    | with_reducible apply keeps_setTest
    | with_reducible apply Has.foldl
    | with_reducible apply Has1.foldl
    | with_reducible exact Has1.proj (by with_reducible assumption)
    | with_reducible apply Has1.mk
    | simp only [Has.same hK]
    | dsimp only
    | split

def touchExecLlmMbistComplete (p : Option Reg) : Bool := touchFailSlice p || touchReleaseSlice p

theorem keeps_execLlmMbistComplete (hK : Closed T K) (die : Fin 8) (phys : Fin 34) (pass : Bool) (s : State) (hT : ∀
    p, touchExecLlmMbistComplete p = true → T p = true) (hks : Has K s) : HasRes K (execLlmMbistComplete die phys
    pass s) := by
  unfold execLlmMbistComplete
  try dsimp only
  repeat' first
    | exact fun p hp => hT p (by simp only [touchExecLlmMbistComplete, hp, Bool.or_true, Bool.true_or])
    | intro _
    | with_reducible assumption
    | with_reducible exact hks
    | with_reducible apply HasRes.next
    | with_reducible apply HasRes.ite
    | with_reducible apply Has.ite
    | with_reducible apply keeps_endTest
    | with_reducible apply keeps_failSlice
    | with_reducible apply keeps_joinTests
    | with_reducible apply keeps_releaseSlice
    | simp only [Has.same hK]
    | with_reducible refine Has1.of_eq ?_ (by assumption)
    | (with_reducible apply Has1.proj; with_reducible apply keeps_joinTests)
    | dsimp only
    | split

def touchExecSliceSweepComplete (p : Option Reg) : Bool := touchEndTest p

theorem keeps_execSliceSweepComplete (hK : Closed T K) (die : Fin 8) (phys : Fin 34) (s : State) (hT : ∀ p,
    touchExecSliceSweepComplete p = true → T p = true) (hks : Has K s) : HasRes K (execSliceSweepComplete die phys s)
    := by
  unfold execSliceSweepComplete
  try dsimp only
  repeat' first
    | exact fun p hp => hT p hp
    | intro _
    | with_reducible assumption
    | with_reducible exact hks
    | with_reducible apply HasRes.next
    | with_reducible apply HasRes.ite
    | with_reducible apply Has.ite
    | with_reducible apply keeps_endTest
    | dsimp only
    | split

def touchProgramJournal (_ : Option Reg) : Bool := false

theorem keeps_programJournal (hK : Closed T K) (s : State) (stack entry bits : Nat)  (hks : Has K s) : Has K
    (State.programJournal s stack entry bits) := by
  unfold State.programJournal
  try dsimp only
  repeat' first
    | intro _
    | with_reducible assumption
    | with_reducible exact hks
    | with_reducible apply Has.ite
    | simp only [Has.same hK]
    | dsimp only
    | split

def touchStartRepair (p : Option Reg) : Bool := touchAddReg .serviceWork p || touchChange .journalUsed p ||
  touchProgramJournal p || touchSetFlag .fusePulses p

theorem keeps_startRepair (hK : Closed T K) (s : State) (stack element kind : Nat) (jtag : Bool) (hT : ∀ p,
    touchStartRepair p = true → T p = true) (hks : Has K s) : Has K (State.startRepair s stack element kind jtag) :=
    by
  unfold State.startRepair
  try dsimp only
  repeat' first
    | exact fun p hp => hT p (by simp only [touchStartRepair, hp, Bool.or_true, Bool.true_or])
    | intro _
    | with_reducible assumption
    | with_reducible exact hks
    | with_reducible apply Has.ite
    | with_reducible apply keeps_addReg
    | with_reducible apply keeps_change
    | with_reducible apply keeps_programJournal
    | with_reducible apply keeps_setFlag
    | simp only [Has.same hK]
    | dsimp only
    | split

def touchExecPermanentRepairStart (p : Option Reg) : Bool := touchStartRepair p

theorem keeps_execPermanentRepairStart (hK : Closed T K) (st : Fin 32) (s : State) (hT : ∀ p,
    touchExecPermanentRepairStart p = true → T p = true) (hks : Has K s) : HasRes K (execPermanentRepairStart st s)
    := by
  unfold execPermanentRepairStart
  try dsimp only
  repeat' first
    | exact fun p hp => hT p hp
    | intro _
    | with_reducible assumption
    | with_reducible exact hks
    | with_reducible apply HasRes.next
    | with_reducible apply HasRes.ite
    | with_reducible apply Has.ite
    | with_reducible apply keeps_startRepair
    | dsimp only
    | split

def touchExecFusePulseComplete (p : Option Reg) : Bool := touchChange .reserveRowsLeft p || touchProgramJournal p ||
  touchSend p || touchSetFlag .fusePulses p || touchSetReg .serviceWork p

theorem keeps_execFusePulseComplete (hK : Closed T K) (st : Fin 32) (pass : Bool) (s : State) (hT : ∀ p,
    touchExecFusePulseComplete p = true → T p = true) (hks : Has K s) : HasRes K (execFusePulseComplete st pass s) :=
    by
  unfold execFusePulseComplete
  try dsimp only
  repeat' first
    | exact fun p hp => hT p (by simp only [touchExecFusePulseComplete, hp, Bool.or_true, Bool.true_or])
    | intro _
    | with_reducible assumption
    | with_reducible exact hks
    | with_reducible apply HasRes.next
    | with_reducible apply HasRes.ite
    | with_reducible apply Has.ite
    | with_reducible apply keeps_change
    | with_reducible apply keeps_programJournal
    | with_reducible apply keeps_send
    | with_reducible apply keeps_setFlag
    | with_reducible apply keeps_setReg
    | simp only [Has.same hK]
    | dsimp only
    | split

end Sys2Proof.Machine
end

