-- ==== Sys2Proof/Laws/KeepsSnapshot.lean ====
section
/-! SUPPORT. What the operations of Machine/Snapshot.lean keep, and the registers that each may change. -/

namespace Sys2Proof.Machine

variable {T : Option Reg → Bool} {K : State → Prop}

def touchCheckSnap (p : Option Reg) : Bool := touchSetReg .snapFit p

theorem keeps_checkSnap (hK : Closed T K) (s : State) (hT : ∀ p, touchCheckSnap p = true → T p = true) (hks : Has K s)
    : Has1 K (State.checkSnap s) := by
  unfold State.checkSnap
  try dsimp only
  repeat' first
    | exact fun p hp => hT p hp
    | intro _
    | with_reducible assumption
    | with_reducible exact hks
    | with_reducible apply Has1.mk
    | with_reducible apply Has1.ite
    | with_reducible apply Has.ite
    | with_reducible apply keeps_setReg
    | dsimp only
    | split

def touchExecSnap (p : Option Reg) : Bool := touchStillWaits p

theorem keeps_execSnap (hK : Closed T K) (b : Fin 256) (s : State) (hT : ∀ p, touchExecSnap p = true → T p = true)
    (hks : Has K s) : HasRes K (execSnap b s) := by
  unfold execSnap
  try dsimp only
  repeat' first
    | exact fun p hp => hT p hp
    | intro _
    | with_reducible assumption
    | with_reducible exact hks
    | with_reducible apply HasRes.next
    | with_reducible apply HasRes.ite
    | with_reducible apply Has.ite
    | with_reducible apply keeps_stillWaits
    | dsimp only
    | split

def touchExecSnapCaptureComplete (p : Option Reg) : Bool := touchSetBay p || touchStopHarts p

theorem keeps_execSnapCaptureComplete (hK : Closed T K) (b : Fin 256) (s : State) (hT : ∀ p,
    touchExecSnapCaptureComplete p = true → T p = true) (hks : Has K s) : HasRes K (execSnapCaptureComplete b s) := by
  unfold execSnapCaptureComplete
  try dsimp only
  repeat' first
    | exact fun p hp => hT p (by simp only [touchExecSnapCaptureComplete, hp, Bool.or_true, Bool.true_or])
    | intro _
    | with_reducible assumption
    | with_reducible exact hks
    | with_reducible apply HasRes.next
    | with_reducible apply HasRes.ite
    | with_reducible apply Has.ite
    | with_reducible apply keeps_setBay
    | with_reducible apply keeps_stopHarts
    | simp only [Has.same hK]
    | dsimp only
    | split

def touchExecSnapQuiesceComplete (p : Option Reg) : Bool := touchCheckSnap p || touchSend p || touchSetReg .snapJoined
  p || touchSetReg .snapWarn p || touchSetReg .snapFits p || touchSetReg .snapEnded p || touchSnapshotInvalid p

theorem keeps_execSnapQuiesceComplete (hK : Closed T K) (s : State) (hT : ∀ p, touchExecSnapQuiesceComplete p = true →
    T p = true) (hks : Has K s) : HasRes K (execSnapQuiesceComplete s) := by
  unfold execSnapQuiesceComplete
  try dsimp only
  repeat' first
    | exact fun p hp => hT p (by simp only [touchExecSnapQuiesceComplete, hp, Bool.or_true, Bool.true_or])
    | intro _
    | with_reducible assumption
    | with_reducible exact hks
    | with_reducible apply HasRes.next
    | with_reducible apply HasRes.ite
    | with_reducible apply Has.ite
    | with_reducible apply keeps_checkSnap
    | with_reducible apply keeps_send
    | with_reducible apply keeps_setReg
    | with_reducible apply keeps_snapshotInvalid
    | with_reducible refine Has1.of_eq ?_ (by assumption)
    | (with_reducible apply Has1.proj; with_reducible apply keeps_checkSnap)
    | dsimp only
    | split

def touchCheckRetiring (p : Option Reg) : Bool := touchChange .retiringEpoch p

theorem keeps_checkRetiring (hK : Closed T K) (s : State) (hT : ∀ p, touchCheckRetiring p = true → T p = true) (hks :
    Has K s) : Has K (State.checkRetiring s) := by
  unfold State.checkRetiring
  try dsimp only
  repeat' first
    | exact fun p hp => hT p hp
    | intro _
    | with_reducible assumption
    | with_reducible exact hks
    | with_reducible apply Has.ite
    | with_reducible apply keeps_change
    | dsimp only
    | split

def touchStartCopy (p : Option Reg) : Bool := touchAddReg .snapGen p || touchAddReg .snapsTaken p ||
  touchCheckRetiring p || touchSetReg .draughtFront p || touchSetReg .lastSnapTstep p || touchSetSlot p

theorem keeps_startCopy (hK : Closed T K) (s : State) (dirty : List Nat) (hT : ∀ p, touchStartCopy p = true → T p =
    true) (hks : Has K s) : Has K (State.startCopy s dirty) := by
  unfold State.startCopy
  try dsimp only
  repeat' first
    | exact fun p hp => hT p (by simp only [touchStartCopy, hp, Bool.or_true, Bool.true_or])
    | intro _
    | with_reducible assumption
    | with_reducible exact hks
    | with_reducible apply Has.ite
    | with_reducible apply keeps_addReg
    | with_reducible apply keeps_checkRetiring
    | with_reducible apply keeps_setReg
    | with_reducible apply keeps_setSlot
    | with_reducible apply Has.foldl
    | with_reducible apply Has1.foldl
    | with_reducible exact Has1.proj (by with_reducible assumption)
    | with_reducible apply Has1.mk
    | simp only [Has.same hK]
    | dsimp only
    | split

def touchEndSnaps (_ : Option Reg) : Bool := false

theorem keeps_endSnaps (hK : Closed T K) (s : State)  (hks : Has K s) : Has K (State.endSnaps s) := by
  unfold State.endSnaps
  try dsimp only
  repeat' first
    | intro _
    | with_reducible assumption
    | with_reducible exact hks
    | with_reducible apply Has.ite
    | simp only [Has.same hK]
    | dsimp only
    | split

def touchExecSnapAgreementComplete (p : Option Reg) : Bool := touchAddReg .snapsSkipped p || touchEndSnaps p ||
  touchReleaseHarts p || touchSetReg .snapJoined p || touchStartCopy p

theorem keeps_execSnapAgreementComplete (hK : Closed T K) (warning fit ended : Bool) (dirty : List (Fin 17179869184))
    (s : State) (hT : ∀ p, touchExecSnapAgreementComplete p = true → T p = true) (hks : Has K s) : HasRes K
    (execSnapAgreementComplete warning fit ended dirty s) := by
  unfold execSnapAgreementComplete
  try dsimp only
  repeat' first
    | exact fun p hp => hT p (by simp only [touchExecSnapAgreementComplete, hp, Bool.or_true, Bool.true_or])
    | intro _
    | with_reducible assumption
    | with_reducible exact hks
    | with_reducible apply HasRes.next
    | with_reducible apply HasRes.ite
    | with_reducible apply Has.ite
    | with_reducible apply keeps_addReg
    | with_reducible apply keeps_endSnaps
    | with_reducible apply keeps_releaseHarts
    | with_reducible apply keeps_setReg
    | with_reducible apply keeps_startCopy
    | dsimp only
    | split

def touchExecTaggedLineSweep (p : Option Reg) : Bool := touchSetSlot p

theorem keeps_execTaggedLineSweep (hK : Closed T K) (line : Fin 17179869184) (s : State) (hT : ∀ p,
    touchExecTaggedLineSweep p = true → T p = true) (hks : Has K s) : HasRes K (execTaggedLineSweep line s) := by
  unfold execTaggedLineSweep
  try dsimp only
  repeat' first
    | exact fun p hp => hT p hp
    | intro _
    | with_reducible assumption
    | with_reducible exact hks
    | with_reducible apply HasRes.next
    | with_reducible apply HasRes.ite
    | with_reducible apply Has.ite
    | with_reducible apply keeps_setLlm
    | with_reducible apply keeps_setSlot
    | simp only [Has.same hK]
    | dsimp only
    | split

def touchStackDigest (p : Option Reg) : Bool := touchDraw p

theorem keeps_stackDigest (hK : Closed T K) (s : State) (x : Slot) (st : Nat) (hT : ∀ p, touchStackDigest p = true → T
    p = true) (hks : Has K s) : Has2 K (State.stackDigest s x st) := by
  unfold State.stackDigest
  try dsimp only
  repeat' first
    | exact fun p hp => hT p hp
    | intro _
    | with_reducible assumption
    | with_reducible exact hks
    | with_reducible apply Has2.mk
    | with_reducible apply Has2.ite
    | with_reducible apply Has.ite
    | with_reducible apply keeps_draw
    | with_reducible apply Has.foldl
    | with_reducible apply Has1.foldl
    | with_reducible exact Has1.proj (by with_reducible assumption)
    | with_reducible apply Has1.mk
    | with_reducible refine Has2.of_eq ?_ (by assumption)
    | (with_reducible apply Has2.proj; with_reducible apply keeps_draw)
    | dsimp only
    | split

def touchSendShards (_ : Option Reg) : Bool := false

theorem keeps_sendShards (hK : Closed T K) (s : State) (epoch : Nat) (i : Image) (hks : Has K s) : Has K
    (State.sendShards s epoch i) := by
  unfold State.sendShards
  try dsimp only
  repeat' first
    | intro _
    | with_reducible assumption
    | with_reducible exact hks
    | with_reducible apply Has.ite
    | with_reducible apply keeps_emit
    | with_reducible apply Has.foldl
    | with_reducible apply Has1.foldl
    | with_reducible exact Has1.proj (by with_reducible assumption)
    | with_reducible apply Has1.mk
    | simp only [Has.same hK]
    | dsimp only
    | split

def touchStartDrain (p : Option Reg) : Bool := touchSendShards p

theorem keeps_startDrain (hK : Closed T K) (s : State) (k : Nat) (hT : ∀ p, touchStartDrain p = true → T p = true)
    (hks : Has K s) : Has K (State.startDrain s k) := by
  unfold State.startDrain
  try dsimp only
  repeat' first
    | exact fun p hp => hT p hp
    | intro _
    | with_reducible assumption
    | with_reducible exact hks
    | with_reducible apply Has.ite
    | with_reducible apply keeps_sendShards
    | simp only [Has.same hK]
    | dsimp only
    | split

def touchExecStackPartComplete (p : Option Reg) : Bool := touchDataLoss p || touchSetSlot p || touchSnapshotInvalid p
  || touchStackDigest p || touchStackFinding p || touchStartDrain p

theorem keeps_execStackPartComplete (hK : Closed T K) (st : Fin 32) (bad : Option (Fin 17179869184)) (s : State) (hT :
    ∀ p, touchExecStackPartComplete p = true → T p = true) (hks : Has K s) : HasRes K (execStackPartComplete st bad s)
    := by
  unfold execStackPartComplete
  try dsimp only
  repeat' first
    | exact fun p hp => hT p (by simp only [touchExecStackPartComplete, hp, Bool.or_true, Bool.true_or])
    | intro _
    | with_reducible assumption
    | with_reducible exact hks
    | with_reducible apply HasRes.next
    | with_reducible apply HasRes.ite
    | with_reducible apply Has.ite
    | with_reducible apply keeps_dataLoss
    | with_reducible apply keeps_setSlot
    | with_reducible apply keeps_snapshotInvalid
    | with_reducible apply keeps_stackDigest
    | with_reducible apply keeps_stackFinding
    | with_reducible apply keeps_startDrain
    | simp only [Has.same hK]
    | with_reducible refine Has2.of_eq ?_ (by assumption)
    | (with_reducible apply Has2.proj; with_reducible apply keeps_stackDigest)
    | dsimp only
    | split

def touchSetDrain (_ : Option Reg) : Bool := false

theorem keeps_setDrain (hK : Closed T K) (s : State) (d : Drain)  (hks : Has K s) : Has K (State.setDrain s d) := by
  unfold State.setDrain
  try dsimp only
  repeat' first
    | intro _
    | with_reducible assumption
    | with_reducible exact hks
    | with_reducible apply Has.ite
    | simp only [Has.same hK]
    | dsimp only
    | split

def touchDrainAnswered (p : Option Reg) : Bool := touchChange .slotDrained p || touchCheckRetiring p ||
  touchSnapshotInvalid p

theorem keeps_drainAnswered (hK : Closed T K) (s : State) (q gen : Nat) (answer : DrainAnswer) (hT : ∀ p,
    touchDrainAnswered p = true → T p = true) (hks : Has K s) : Has K (State.drainAnswered s q gen answer) := by
  unfold State.drainAnswered
  try dsimp only
  repeat' first
    | exact fun p hp => hT p (by simp only [touchDrainAnswered, hp, Bool.or_true, Bool.true_or])
    | intro _
    | with_reducible assumption
    | with_reducible exact hks
    | with_reducible apply Has.ite
    | with_reducible apply keeps_change
    | with_reducible apply keeps_checkRetiring
    | with_reducible apply keeps_sendShards
    | with_reducible apply keeps_setDrain
    | with_reducible apply keeps_snapshotInvalid
    | simp only [Has.same hK]
    | dsimp only
    | split

def touchExecDrainAck (p : Option Reg) : Bool := touchDrainAnswered p || touchTakeControl p

theorem keeps_execDrainAck (hK : Closed T K) (v : Arrival) (gen : Dword) (answer : DrainAnswer) (s : State) (hT : ∀
    p, touchExecDrainAck p = true → T p = true) (hks : Has K s) : HasRes K (execDrainAck v gen answer s) := by
  unfold execDrainAck
  try dsimp only
  repeat' first
    | exact fun p hp => hT p (by simp only [touchExecDrainAck, hp, Bool.or_true, Bool.true_or])
    | intro _
    | with_reducible assumption
    | with_reducible exact hks
    | with_reducible apply HasRes.next
    | with_reducible apply HasRes.ite
    | with_reducible apply Has.ite
    | with_reducible apply keeps_drainAnswered
    | with_reducible apply keeps_takeControl
    | dsimp only
    | split

def touchExecDrainDeadlineExpiry (p : Option Reg) : Bool := touchLogError p

theorem keeps_execDrainDeadlineExpiry (hK : Closed T K) (k : Fin 2) (s : State) (hT : ∀ p,
    touchExecDrainDeadlineExpiry p = true → T p = true) (hks : Has K s) : HasRes K (execDrainDeadlineExpiry k s) := by
  unfold execDrainDeadlineExpiry
  try dsimp only
  repeat' first
    | exact fun p hp => hT p hp
    | intro _
    | with_reducible assumption
    | with_reducible exact hks
    | with_reducible apply HasRes.next
    | with_reducible apply HasRes.ite
    | with_reducible apply Has.ite
    | with_reducible apply keeps_logError
    | simp only [Has.same hK]
    | dsimp only
    | split

def touchAnswerShard (_ : Option Reg) : Bool := false

theorem keeps_answerShard (hK : Closed T K) (s : State) (q : Nat) (h : Header) (gen : Nat) (a : DrainAnswer) (hks :
    Has K s) : Has K (State.answerShard s q h gen a) := by
  unfold State.answerShard
  try dsimp only
  repeat' first
    | intro _
    | with_reducible assumption
    | with_reducible exact hks
    | with_reducible apply Has.ite
    | with_reducible apply keeps_emit
    | dsimp only
    | split

def touchExecShardReceive (p : Option Reg) : Bool := touchPutShard p || touchTakeControl p

theorem keeps_execShardReceive (hK : Closed T K) (q : Fin 17) (h : Header) (index : Fin 16) (tstep gen imageBytes :
    Dword) (data : List Byte) (s : State) (hT : ∀ p, touchExecShardReceive p = true → T p = true) (hks : Has K s) :
    HasRes K (execShardReceive q h index tstep gen imageBytes data s) := by
  unfold execShardReceive
  try dsimp only
  repeat' first
    | exact fun p hp => hT p (by simp only [touchExecShardReceive, hp, Bool.or_true, Bool.true_or])
    | intro _
    | with_reducible assumption
    | with_reducible exact hks
    | with_reducible apply HasRes.next
    | with_reducible apply HasRes.ite
    | with_reducible apply Has.ite
    | with_reducible apply keeps_answerShard
    | with_reducible apply keeps_putShard
    | with_reducible apply keeps_takeControl
    | dsimp only
    | split

end Sys2Proof.Machine
end

