-- ==== Sys2Proof/Laws/KeepsRecovery.lean ====
section
/-! SUPPORT. What the operations of Machine/Recovery.lean keep, and the registers that each may change. -/

namespace Sys2Proof.Machine

variable {T : Option Reg → Bool} {K : State → Prop}

def touchDrainStores (p : Option Reg) : Bool := touchIoWrite p || touchWrite p

theorem keeps_drainStores (hK : Closed T K) (s : State) (hT : ∀ p, touchDrainStores p = true → T p = true) (hks : Has
    K s) : Has K (State.drainStores s) := by
  unfold State.drainStores
  try dsimp only
  repeat' first
    | exact fun p hp => hT p (by simp only [touchDrainStores, hp, Bool.or_true, Bool.true_or])
    | intro _
    | with_reducible assumption
    | with_reducible exact hks
    | with_reducible apply Has.ite
    | with_reducible apply keeps_ioWrite
    | with_reducible apply keeps_write
    | with_reducible apply Has.foldl
    | with_reducible apply Has1.foldl
    | with_reducible exact Has1.proj (by with_reducible assumption)
    | with_reducible apply Has1.mk
    | simp only [Has.same hK]
    | dsimp only
    | split

def touchBeginRecovery (p : Option Reg) : Bool := touchAbandonAll p || touchChange .jobEpoch p || touchDrainStores p
  || touchEndOpc p || touchInstallEpoch p || touchLeavePairing p || touchSetRecovery p || touchSetReg .startPending p
  || touchStopCopy p || touchStopHarts p

theorem keeps_beginRecovery (hK : Closed T K) (s : State) (kind pos epoch tstep : Nat) (hT : ∀ p, touchBeginRecovery p
    = true → T p = true) (hks : Has K s) : Has K (State.beginRecovery s kind pos epoch tstep) := by
  unfold State.beginRecovery
  try dsimp only
  repeat' first
    | exact fun p hp => hT p (by simp only [touchBeginRecovery, hp, Bool.or_true, Bool.true_or])
    | intro _
    | with_reducible assumption
    | with_reducible exact hks
    | with_reducible apply Has.ite
    | with_reducible apply keeps_abandonAll
    | with_reducible apply keeps_change
    | with_reducible apply keeps_drainStores
    | with_reducible apply keeps_endOpc
    | with_reducible apply keeps_installEpoch
    | with_reducible apply keeps_leavePairing
    | with_reducible apply keeps_setRecovery
    | with_reducible apply keeps_setReg
    | with_reducible apply keeps_stopCopy
    | with_reducible apply keeps_stopHarts
    | simp only [Has.same hK]
    | dsimp only
    | split

def touchTakeIdentity (p : Option Reg) : Bool := touchChange .logicalId p || touchChangeAll .groupMap p

theorem keeps_takeIdentity (hK : Closed T K) (s : State) (lost : Nat) (hT : ∀ p, touchTakeIdentity p = true → T p =
    true) (hks : Has K s) : Has K (State.takeIdentity s lost) := by
  unfold State.takeIdentity
  try dsimp only
  repeat' first
    | exact fun p hp => hT p (by simp only [touchTakeIdentity, hp, Bool.or_true, Bool.true_or])
    | intro _
    | with_reducible assumption
    | with_reducible exact hks
    | with_reducible apply Has.ite
    | with_reducible apply keeps_change
    | with_reducible apply keeps_changeAll
    | simp only [Has.same hK]
    | dsimp only
    | split

def touchRecover (p : Option Reg) : Bool := touchBeginRecovery p

theorem keeps_recover (hK : Closed T K) (s : State) (kind pos epoch tstep : Nat) (hT : ∀ p, touchRecover p = true →
    T p = true) (hks : Has K s) : Has K (State.recover s kind pos epoch tstep) := by
  unfold State.recover
  try dsimp only
  repeat' first
    | exact fun p hp => hT p hp
    | intro _
    | with_reducible assumption
    | with_reducible exact hks
    | with_reducible apply Has.ite
    | with_reducible apply keeps_beginRecovery
    | with_reducible apply keeps_control
    | with_reducible apply Has.foldl
    | with_reducible apply Has1.foldl
    | with_reducible exact Has1.proj (by with_reducible assumption)
    | with_reducible apply Has1.mk
    | dsimp only
    | split

def touchWriteRecovery (p : Option Reg) : Bool := touchRecover p || touchWriteRequest p

theorem keeps_writeRecovery (hK : Closed T K) (s : State) (q : Requester) (kind pos epoch tstep : Nat) (peers : Option
    Half) (hT : ∀ p, touchWriteRecovery p = true → T p = true) (hks : Has K s) : Has K (State.writeRecovery s q kind
    pos epoch tstep peers) := by
  unfold State.writeRecovery
  try dsimp only
  repeat' first
    | exact fun p hp => hT p (by simp only [touchWriteRecovery, hp, Bool.or_true, Bool.true_or])
    | intro _
    | with_reducible assumption
    | with_reducible exact hks
    | with_reducible apply Has.ite
    | with_reducible apply keeps_recover
    | with_reducible apply keeps_writeRequest
    | dsimp only
    | split

def touchExecRecoveryRollback (p : Option Reg) : Bool := touchWriteRecovery p

theorem keeps_execRecoveryRollback (hK : Closed T K) (q : Requester) (epoch : Half) (tstep : Dword) (peers : Option
    Half) (s : State) (hT : ∀ p, touchExecRecoveryRollback p = true → T p = true) (hks : Has K s) : HasRes K
    (execRecoveryRollback q epoch tstep peers s) := by
  unfold execRecoveryRollback
  try dsimp only
  repeat' first
    | exact fun p hp => hT p hp
    | intro _
    | with_reducible assumption
    | with_reducible exact hks
    | with_reducible apply HasRes.next
    | with_reducible apply HasRes.ite
    | with_reducible apply Has.ite
    | with_reducible apply keeps_writeRecovery
    | dsimp only
    | split

def touchExecRecoveryTakeover (p : Option Reg) : Bool := touchWriteRecovery p

theorem keeps_execRecoveryTakeover (hK : Closed T K) (q : Requester) (pos : Byte) (epoch : Half) (tstep : Dword)
    (peers : Option Half) (s : State) (hT : ∀ p, touchExecRecoveryTakeover p = true → T p = true) (hks : Has K s) :
    HasRes K (execRecoveryTakeover q pos epoch tstep peers s) := by
  unfold execRecoveryTakeover
  try dsimp only
  repeat' first
    | exact fun p hp => hT p hp
    | intro _
    | with_reducible assumption
    | with_reducible exact hks
    | with_reducible apply HasRes.next
    | with_reducible apply HasRes.ite
    | with_reducible apply Has.ite
    | with_reducible apply keeps_writeRecovery
    | dsimp only
    | split

def touchExecRecoveryRejoin (p : Option Reg) : Bool := touchWriteRecovery p

theorem keeps_execRecoveryRejoin (hK : Closed T K) (q : Requester) (epoch : Half) (tstep : Dword) (peers : Option
    Half) (s : State) (hT : ∀ p, touchExecRecoveryRejoin p = true → T p = true) (hks : Has K s) : HasRes K
    (execRecoveryRejoin q epoch tstep peers s) := by
  unfold execRecoveryRejoin
  try dsimp only
  repeat' first
    | exact fun p hp => hT p hp
    | intro _
    | with_reducible assumption
    | with_reducible exact hks
    | with_reducible apply HasRes.next
    | with_reducible apply HasRes.ite
    | with_reducible apply Has.ite
    | with_reducible apply keeps_writeRecovery
    | dsimp only
    | split

def touchLoseIdentity (p : Option Reg) : Bool := touchEndPairing p

theorem keeps_loseIdentity (hK : Closed T K) (s : State) (lost : Nat) (hT : ∀ p, touchLoseIdentity p = true → T p =
    true) (hks : Has K s) : Has K (State.loseIdentity s lost) := by
  unfold State.loseIdentity
  try dsimp only
  repeat' first
    | exact fun p hp => hT p hp
    | intro _
    | with_reducible assumption
    | with_reducible exact hks
    | with_reducible apply Has.ite
    | with_reducible apply keeps_endPairing
    | dsimp only
    | split

def touchApplyTakeover (p : Option Reg) : Bool := touchChangeAll .groupMap p || touchLoseIdentity p

theorem keeps_applyTakeover (hK : Closed T K) (s : State) (spare lost : Nat) (hT : ∀ p, touchApplyTakeover p = true
    → T p = true) (hks : Has K s) : Has K (State.applyTakeover s spare lost) := by
  unfold State.applyTakeover
  try dsimp only
  repeat' first
    | exact fun p hp => hT p (by simp only [touchApplyTakeover, hp, Bool.or_true, Bool.true_or])
    | intro _
    | with_reducible assumption
    | with_reducible exact hks
    | with_reducible apply Has.ite
    | with_reducible apply keeps_changeAll
    | with_reducible apply keeps_control
    | with_reducible apply keeps_loseIdentity
    | dsimp only
    | split

def touchExecTakeoverUpdateMessage (p : Option Reg) : Bool := touchApplyTakeover p || touchLoseIdentity p ||
  touchTakeControl p

theorem keeps_execTakeoverUpdateMessage (hK : Closed T K) (q : Fin 17) (h : Header) (lost : Fin 17) (s : State) (hT
    : ∀ p, touchExecTakeoverUpdateMessage p = true → T p = true) (hks : Has K s) : HasRes K
    (execTakeoverUpdateMessage q h lost s) := by
  unfold execTakeoverUpdateMessage
  try dsimp only
  repeat' first
    | exact fun p hp => hT p (by simp only [touchExecTakeoverUpdateMessage, hp, Bool.or_true, Bool.true_or])
    | intro _
    | with_reducible assumption
    | with_reducible exact hks
    | with_reducible apply HasRes.next
    | with_reducible apply HasRes.ite
    | with_reducible apply Has.ite
    | with_reducible apply keeps_applyTakeover
    | with_reducible apply keeps_loseIdentity
    | with_reducible apply keeps_takeControl
    | dsimp only
    | split

def touchExecTakeoverAcknowledgement (p : Option Reg) : Bool := touchTakeControl p || touchTakeIdentity p

theorem keeps_execTakeoverAcknowledgement (hK : Closed T K) (v : Arrival) (s : State) (hT : ∀ p,
    touchExecTakeoverAcknowledgement p = true → T p = true) (hks : Has K s) : HasRes K (execTakeoverAcknowledgement
    v s) := by
  unfold execTakeoverAcknowledgement
  try dsimp only
  repeat' first
    | exact fun p hp => hT p (by simp only [touchExecTakeoverAcknowledgement, hp, Bool.or_true, Bool.true_or])
    | intro _
    | with_reducible assumption
    | with_reducible exact hks
    | with_reducible apply HasRes.next
    | with_reducible apply HasRes.ite
    | with_reducible apply Has.ite
    | with_reducible apply keeps_takeControl
    | with_reducible apply keeps_takeIdentity
    | simp only [Has.same hK]
    | dsimp only
    | split

def touchReloadBay (p : Option Reg) : Bool := touchSetBay p || touchSetTableState p

theorem keeps_reloadBay (hK : Closed T K) (s : State) (i : Image) (b : Nat) (hT : ∀ p, touchReloadBay p = true → T p =
    true) (hks : Has K s) : Has K (State.reloadBay s i b) := by
  unfold State.reloadBay
  try dsimp only
  repeat' first
    | exact fun p hp => hT p (by simp only [touchReloadBay, hp, Bool.or_true, Bool.true_or])
    | intro _
    | with_reducible assumption
    | with_reducible exact hks
    | with_reducible apply Has.ite
    | with_reducible apply keeps_setBay
    | with_reducible apply keeps_setTableState
    | simp only [Has.same hK]
    | dsimp only
    | split

def touchApplyImage (p : Option Reg) : Bool := touchJoinFence p || touchReloadBay p || touchSetRecovery p ||
  touchSetReg .tstep p || touchSetReg .raccRound p || touchSetReg .raccDone p || touchSetReg .restoredTstep p ||
  touchSetReg .lastSnapTstep p || touchSetReg .snapGen p || touchSetReg .lullHeld p || touchStartHarts p

theorem keeps_applyImage (hK : Closed T K) (s : State) (i : Image) (hT : ∀ p, touchApplyImage p = true → T p = true)
    (hks : Has K s) : Has K (State.applyImage s i) := by
  unfold State.applyImage
  try dsimp only
  repeat' first
    | exact fun p hp => hT p (by simp only [touchApplyImage, hp, Bool.or_true, Bool.true_or])
    | intro _
    | with_reducible assumption
    | with_reducible exact hks
    | with_reducible apply Has.ite
    | with_reducible apply keeps_joinFence
    | with_reducible apply keeps_reloadBay
    | with_reducible apply keeps_setRecovery
    | with_reducible apply keeps_setReg
    | with_reducible apply keeps_startHarts
    | with_reducible apply Has.foldl
    | with_reducible apply Has1.foldl
    | with_reducible exact Has1.proj (by with_reducible assumption)
    | with_reducible apply Has1.mk
    | simp only [Has.same hK]
    | dsimp only
    | split

def touchFailRestore (p : Option Reg) : Bool := touchSetRecovery p || touchSnapshotInvalid p

theorem keeps_failRestore (hK : Closed T K) (s : State) (cause : Nat) (hT : ∀ p, touchFailRestore p = true → T p =
    true) (hks : Has K s) : Has K (State.failRestore s cause) := by
  unfold State.failRestore
  try dsimp only
  repeat' first
    | exact fun p hp => hT p (by simp only [touchFailRestore, hp, Bool.or_true, Bool.true_or])
    | intro _
    | with_reducible assumption
    | with_reducible exact hks
    | with_reducible apply Has.ite
    | with_reducible apply keeps_setRecovery
    | with_reducible apply keeps_snapshotInvalid
    | simp only [Has.same hK]
    | dsimp only
    | split

def touchCopyBack (p : Option Reg) : Bool := touchWrite p

theorem keeps_copyBack (hK : Closed T K) (s : State) (x : Slot) (hT : ∀ p, touchCopyBack p = true → T p = true) (hks :
    Has K s) : Has K (State.copyBack s x) := by
  unfold State.copyBack
  try dsimp only
  repeat' first
    | exact fun p hp => hT p hp
    | intro _
    | with_reducible assumption
    | with_reducible exact hks
    | with_reducible apply Has.ite
    | with_reducible apply keeps_write
    | with_reducible apply Has.foldl
    | with_reducible apply Has1.foldl
    | with_reducible exact Has1.proj (by with_reducible assumption)
    | with_reducible apply Has1.mk
    | dsimp only
    | split

def touchExecRestoreComplete (p : Option Reg) : Bool := touchApplyImage p || touchCopyBack p || touchFailRestore p ||
  touchWrites p

theorem keeps_execRestoreComplete (hK : Closed T K) (bad : Bool) (peers : Option Image) (s : State) (hT : ∀ p,
    touchExecRestoreComplete p = true → T p = true) (hks : Has K s) : HasRes K (execRestoreComplete bad peers s) := by
  unfold execRestoreComplete
  try dsimp only
  repeat' first
    | exact fun p hp => hT p (by simp only [touchExecRestoreComplete, hp, Bool.or_true, Bool.true_or])
    | intro _
    | with_reducible assumption
    | with_reducible exact hks
    | with_reducible apply HasRes.next
    | with_reducible apply HasRes.ite
    | with_reducible apply Has.ite
    | with_reducible apply keeps_applyImage
    | with_reducible apply keeps_copyBack
    | with_reducible apply keeps_failRestore
    | with_reducible apply keeps_writes
    | dsimp only
    | split

end Sys2Proof.Machine
end

