-- ==== Sys2Proof/Laws/KeepsJobs.lean ====
section
/-! SUPPORT. What the operations of Machine/Jobs.lean keep, and the registers that each may change. -/

namespace Sys2Proof.Machine

variable {T : Option Reg → Bool} {K : State → Prop}

def touchExecSqTailDoorbell (p : Option Reg) : Bool := touchAddReg .psRefused p || touchFetchAll p || touchSetReg
  .sqTail p

theorem keeps_execSqTailDoorbell (hK : Closed T K) (q : Fin 64) (tail : Half) (entries : List (List Byte)) (s : State)
    (hT : ∀ p, touchExecSqTailDoorbell p = true → T p = true) (hks : Has K s) : HasRes K (execSqTailDoorbell q tail
    entries s) := by
  unfold execSqTailDoorbell
  try dsimp only
  repeat' first
    | exact fun p hp => hT p (by simp only [touchExecSqTailDoorbell, hp, Bool.or_true, Bool.true_or])
    | intro _
    | with_reducible assumption
    | with_reducible exact hks
    | with_reducible apply HasRes.next
    | with_reducible apply HasRes.ite
    | with_reducible apply Has.ite
    | with_reducible apply keeps_addReg
    | with_reducible apply keeps_fetchAll
    | with_reducible apply keeps_setReg
    | simp only [Has.same hK]
    | dsimp only
    | split

def touchExecCqHeadDoorbell (p : Option Reg) : Bool := touchFetchAll p || touchFlushHeld p || touchSetReg .cqHead p ||
  touchShowQueue p

theorem keeps_execCqHeadDoorbell (hK : Closed T K) (q : Fin 64) (head : Half) (s : State) (hT : ∀ p,
    touchExecCqHeadDoorbell p = true → T p = true) (hks : Has K s) : HasRes K (execCqHeadDoorbell q head s) := by
  unfold execCqHeadDoorbell
  try dsimp only
  repeat' first
    | exact fun p hp => hT p (by simp only [touchExecCqHeadDoorbell, hp, Bool.or_true, Bool.true_or])
    | intro _
    | with_reducible assumption
    | with_reducible exact hks
    | with_reducible apply HasRes.next
    | with_reducible apply HasRes.ite
    | with_reducible apply Has.ite
    | with_reducible apply keeps_fetchAll
    | with_reducible apply keeps_flushHeld
    | with_reducible apply keeps_setReg
    | with_reducible apply keeps_showQueue
    | dsimp only
    | split

def touchEnableQueue (p : Option Reg) : Bool := touchSetReg .sqHead p || touchSetReg .sqTail p || touchSetReg .cqHead
  p || touchSetReg .cqTail p || touchSetReg .cqWraps p || touchShowQueue p

theorem keeps_enableQueue (hK : Closed T K) (q : Nat) (s : State) (hT : ∀ p, touchEnableQueue p = true → T p = true)
    (hks : Has K s) : Has K (enableQueue q s) := by
  unfold enableQueue
  try dsimp only
  repeat' first
    | exact fun p hp => hT p (by simp only [touchEnableQueue, hp, Bool.or_true, Bool.true_or])
    | intro _
    | with_reducible assumption
    | with_reducible exact hks
    | with_reducible apply Has.ite
    | with_reducible apply keeps_setReg
    | with_reducible apply keeps_showQueue
    | simp only [Has.same hK]
    | dsimp only
    | split

def touchExecSqEnableWrite (p : Option Reg) : Bool := touchWriteRequest p || touchEnableQueue p

theorem keeps_execSqEnableWrite (hK : Closed T K) (q : Requester) (k : Fin 64) (v : Byte) (s : State) (hT : ∀ p,
    touchExecSqEnableWrite p = true → T p = true) (hks : Has K s) : HasRes K (execSqEnableWrite q k v s) := by
  unfold execSqEnableWrite
  try dsimp only
  repeat' first
    | exact fun p hp => hT p (by simp only [touchExecSqEnableWrite, hp, Bool.or_true, Bool.true_or])
    | intro _
    | with_reducible assumption
    | with_reducible exact hks
    | with_reducible apply HasRes.next
    | with_reducible apply HasRes.ite
    | with_reducible apply Has.ite
    | with_reducible apply keeps_writeRequest
    | with_reducible apply keeps_enableQueue
    | dsimp only
    | split

def touchPerformCmd (p : Option Reg) : Bool := touchEndCmd p

theorem keeps_performCmd (hK : Closed T K) (s : State) (opc : Nat) (f : HostCmd → State) (hT : ∀ p, touchPerformCmd p
    = true → T p = true) (hks : Has K s) (hkf : ∀ x0, Has K (f x0)) : Has K (State.performCmd s opc f) := by
  unfold State.performCmd
  try dsimp only
  repeat' first
    | exact fun p hp => hT p hp
    | intro _
    | with_reducible assumption
    | with_reducible exact hks
    | with_reducible apply hkf
    | with_reducible apply Has.ite
    | with_reducible apply keeps_endCmd
    | dsimp only
    | split

def touchEndRange (p : Option Reg) : Bool := touchDraw p || touchEndCmd p

theorem keeps_endRange (hK : Closed T K) (s : State) (c : HostCmd) (hT : ∀ p, touchEndRange p = true → T p = true)
    (hks : Has K s) : Has K (State.endRange s c) := by
  unfold State.endRange
  try dsimp only
  repeat' first
    | exact fun p hp => hT p (by simp only [touchEndRange, hp, Bool.or_true, Bool.true_or])
    | intro _
    | with_reducible assumption
    | with_reducible exact hks
    | with_reducible apply Has.ite
    | with_reducible apply keeps_draw
    | with_reducible apply keeps_endCmd
    | with_reducible refine Has2.of_eq ?_ (by assumption)
    | (with_reducible apply Has2.proj; with_reducible apply keeps_draw)
    | dsimp only
    | split

def touchLoadJob (p : Option Reg) : Bool := touchChange .logicalId p || touchSetReg .jobActive p || touchSetReg
  .rosterLlmAtLoad p || touchSetReg .tstep p || touchSetReg .raccRound p || touchSetReg .raccDone p || touchSetReg
  .snapGen p || touchSetReg .lastSnapTstep p || touchSetReg .snapJoined p || touchSetReg .xwReceived p || touchSetReg
  .lullHeld p || touchSetTableState p || touchSetXw p

theorem keeps_loadJob (hK : Closed T K) (s : State) (hT : ∀ p, touchLoadJob p = true → T p = true) (hks : Has K s) :
    Has K (State.loadJob s) := by
  unfold State.loadJob
  try dsimp only
  repeat' first
    | exact fun p hp => hT p (by simp only [touchLoadJob, hp, Bool.or_true, Bool.true_or])
    | intro _
    | with_reducible assumption
    | with_reducible exact hks
    | with_reducible apply Has.ite
    | with_reducible apply keeps_change
    | with_reducible apply keeps_setReg
    | with_reducible apply keeps_setTableState
    | with_reducible apply keeps_setXw
    | with_reducible apply Has.foldl
    | with_reducible apply Has1.foldl
    | with_reducible exact Has1.proj (by with_reducible assumption)
    | with_reducible apply Has1.mk
    | simp only [Has.same hK]
    | dsimp only
    | split

def touchPlaceGiven (p : Option Reg) : Bool := touchChangeAll .lbayMap p || touchPlaceBays p

theorem keeps_placeGiven (hK : Closed T K) (s : State) (map : List Half) (hT : ∀ p, touchPlaceGiven p = true → T p =
    true) (hks : Has K s) : Has K (State.placeGiven s map) := by
  unfold State.placeGiven
  try dsimp only
  repeat' first
    | exact fun p hp => hT p (by simp only [touchPlaceGiven, hp, Bool.or_true, Bool.true_or])
    | intro _
    | with_reducible assumption
    | with_reducible exact hks
    | with_reducible apply Has.ite
    | with_reducible apply keeps_changeAll
    | with_reducible apply keeps_placeBays
    | dsimp only
    | split

def touchExecJobLoad (p : Option Reg) : Bool := touchEndCmd p || touchLoadJob p || touchPerformCmd p ||
  touchPlaceGiven p

theorem keeps_execJobLoad (hK : Closed T K) (map : List Half) (s : State) (hT : ∀ p, touchExecJobLoad p = true → T p
    = true) (hks : Has K s) : HasRes K (execJobLoad map s) := by
  unfold execJobLoad
  try dsimp only
  repeat' first
    | exact fun p hp => hT p (by simp only [touchExecJobLoad, hp, Bool.or_true, Bool.true_or])
    | intro _
    | with_reducible assumption
    | with_reducible exact hks
    | with_reducible apply HasRes.next
    | with_reducible apply HasRes.ite
    | with_reducible apply Has.ite
    | with_reducible apply keeps_endCmd
    | with_reducible apply keeps_loadJob
    | with_reducible apply keeps_performCmd
    | with_reducible apply keeps_placeGiven
    | dsimp only
    | split

def touchExecJobStart (p : Option Reg) : Bool := touchEndCmd p || touchJoinFence p || touchKeepCmd p ||
  touchPerformCmd p || touchSetReg .startPending p

theorem keeps_execJobStart (hK : Closed T K) (s : State) (hT : ∀ p, touchExecJobStart p = true → T p = true) (hks :
    Has K s) : HasRes K (execJobStart s) := by
  unfold execJobStart
  try dsimp only
  repeat' first
    | exact fun p hp => hT p (by simp only [touchExecJobStart, hp, Bool.or_true, Bool.true_or])
    | intro _
    | with_reducible assumption
    | with_reducible exact hks
    | with_reducible apply HasRes.next
    | with_reducible apply HasRes.ite
    | with_reducible apply Has.ite
    | with_reducible apply keeps_endCmd
    | with_reducible apply keeps_joinFence
    | with_reducible apply keeps_keepCmd
    | with_reducible apply keeps_performCmd
    | with_reducible apply keeps_setReg
    | dsimp only
    | split

def touchWithdraw (p : Option Reg) : Bool := touchSetReg .fenceJoined p

theorem keeps_withdraw (hK : Closed T K) (s : State) (hT : ∀ p, touchWithdraw p = true → T p = true) (hks : Has K s)
    : Has K (State.withdraw s) := by
  unfold State.withdraw
  try dsimp only
  repeat' first
    | exact fun p hp => hT p hp
    | intro _
    | with_reducible assumption
    | with_reducible exact hks
    | with_reducible apply Has.ite
    | with_reducible apply keeps_control
    | with_reducible apply keeps_setReg
    | with_reducible apply Has.foldl
    | with_reducible apply Has1.foldl
    | with_reducible exact Has1.proj (by with_reducible assumption)
    | with_reducible apply Has1.mk
    | dsimp only
    | split

def touchExecJobStartTimeout (p : Option Reg) : Bool := touchEndOpc p || touchSetReg .startPending p || touchWithdraw
  p

theorem keeps_execJobStartTimeout (hK : Closed T K) (s : State) (hT : ∀ p, touchExecJobStartTimeout p = true → T p =
    true) (hks : Has K s) : HasRes K (execJobStartTimeout s) := by
  unfold execJobStartTimeout
  try dsimp only
  repeat' first
    | exact fun p hp => hT p (by simp only [touchExecJobStartTimeout, hp, Bool.or_true, Bool.true_or])
    | intro _
    | with_reducible assumption
    | with_reducible exact hks
    | with_reducible apply HasRes.next
    | with_reducible apply HasRes.ite
    | with_reducible apply Has.ite
    | with_reducible apply keeps_endOpc
    | with_reducible apply keeps_setReg
    | with_reducible apply keeps_withdraw
    | dsimp only
    | split

def touchRetireEpoch (p : Option Reg) : Bool := touchChange .retiringEpoch p || touchChange .jobEpoch p || touchChange
  .regionCount p || touchClearReg .regionTable p || touchInstallEpoch p

theorem keeps_retireEpoch (hK : Closed T K) (s : State) (hT : ∀ p, touchRetireEpoch p = true → T p = true) (hks : Has
    K s) : Has K (State.retireEpoch s) := by
  unfold State.retireEpoch
  try dsimp only
  repeat' first
    | exact fun p hp => hT p (by simp only [touchRetireEpoch, hp, Bool.or_true, Bool.true_or])
    | intro _
    | with_reducible assumption
    | with_reducible exact hks
    | with_reducible apply Has.ite
    | with_reducible apply keeps_change
    | with_reducible apply keeps_clearReg
    | with_reducible apply keeps_installEpoch
    | simp only [Has.same hK]
    | dsimp only
    | split

def touchAbandonCmds (p : Option Reg) : Bool := touchEndCmd p

theorem keeps_abandonCmds (hK : Closed T K) (s : State) (c : HostCmd) (hT : ∀ p, touchAbandonCmds p = true → T p =
    true) (hks : Has K s) : Has K (State.abandonCmds s c) := by
  unfold State.abandonCmds
  try dsimp only
  repeat' first
    | exact fun p hp => hT p hp
    | intro _
    | with_reducible assumption
    | with_reducible exact hks
    | with_reducible apply Has.ite
    | with_reducible apply keeps_endCmd
    | with_reducible apply Has.foldl
    | with_reducible apply Has1.foldl
    | with_reducible exact Has1.proj (by with_reducible assumption)
    | with_reducible apply Has1.mk
    | dsimp only
    | split

def touchEndWork (p : Option Reg) : Bool := touchAbandonAll p || touchDrainStores p || touchSetReg .hartState p ||
  touchSetTableState p

theorem keeps_endWork (hK : Closed T K) (s : State) (hT : ∀ p, touchEndWork p = true → T p = true) (hks : Has K s) :
    Has K (State.endWork s) := by
  unfold State.endWork
  try dsimp only
  repeat' first
    | exact fun p hp => hT p (by simp only [touchEndWork, hp, Bool.or_true, Bool.true_or])
    | intro _
    | with_reducible assumption
    | with_reducible exact hks
    | with_reducible apply Has.ite
    | with_reducible apply keeps_abandonAll
    | with_reducible apply keeps_drainStores
    | with_reducible apply keeps_setReg
    | with_reducible apply keeps_setTableState
    | with_reducible apply Has.foldl
    | with_reducible apply Has1.foldl
    | with_reducible exact Has1.proj (by with_reducible assumption)
    | with_reducible apply Has1.mk
    | simp only [Has.same hK]
    | dsimp only
    | split

def touchEndJob (p : Option Reg) : Bool := touchAbandonCmds p || touchChange .stateRequest p || touchEndWork p ||
  touchKeepCmd p || touchLeavePairing p || touchRetireEpoch p || touchSetRecovery p || touchSetReg .teardownPending p
  || touchSetReg .startPending p || touchSetReg .jobRunning p || touchStopCopy p || touchWithdraw p

theorem keeps_endJob (hK : Closed T K) (s : State) (c : HostCmd) (hT : ∀ p, touchEndJob p = true → T p = true) (hks :
    Has K s) : Has K (State.endJob s c) := by
  unfold State.endJob
  try dsimp only
  repeat' first
    | exact fun p hp => hT p (by simp only [touchEndJob, hp, Bool.or_true, Bool.true_or])
    | intro _
    | with_reducible assumption
    | with_reducible exact hks
    | with_reducible apply Has.ite
    | with_reducible apply keeps_abandonCmds
    | with_reducible apply keeps_change
    | with_reducible apply keeps_endWork
    | with_reducible apply keeps_keepCmd
    | with_reducible apply keeps_leavePairing
    | with_reducible apply keeps_retireEpoch
    | with_reducible apply keeps_setRecovery
    | with_reducible apply keeps_setReg
    | with_reducible apply keeps_stopCopy
    | with_reducible apply keeps_withdraw
    | simp only [Has.same hK]
    | dsimp only
    | split

def touchExecJobEnd (p : Option Reg) : Bool := touchEndCmd p || touchEndJob p || touchPerformCmd p

theorem keeps_execJobEnd (hK : Closed T K) (s : State) (hT : ∀ p, touchExecJobEnd p = true → T p = true) (hks : Has K
    s) : HasRes K (execJobEnd s) := by
  unfold execJobEnd
  try dsimp only
  repeat' first
    | exact fun p hp => hT p (by simp only [touchExecJobEnd, hp, Bool.or_true, Bool.true_or])
    | intro _
    | with_reducible assumption
    | with_reducible exact hks
    | with_reducible apply HasRes.next
    | with_reducible apply HasRes.ite
    | with_reducible apply Has.ite
    | with_reducible apply keeps_endCmd
    | with_reducible apply keeps_endJob
    | with_reducible apply keeps_performCmd
    | dsimp only
    | split

def touchClean (_ : Option Reg) : Bool := false

theorem keeps_clean (hK : Closed T K) (s : State) (lo hi : Nat)  (hks : Has K s) : Has K (State.clean s lo hi) := by
  unfold State.clean
  try dsimp only
  repeat' first
    | intro _
    | with_reducible assumption
    | with_reducible exact hks
    | with_reducible apply Has.ite
    | simp only [Has.same hK]
    | dsimp only
    | split

def touchWipeJob (p : Option Reg) : Bool := touchLoseScratchpads p || touchRecall p || touchSetReg .rosterCount p ||
  touchWipe p

theorem keeps_wipeJob (hK : Closed T K) (s : State) (hT : ∀ p, touchWipeJob p = true → T p = true) (hks : Has K s) :
    Has K (State.wipeJob s) := by
  unfold State.wipeJob
  try dsimp only
  repeat' first
    | exact fun p hp => hT p (by simp only [touchWipeJob, hp, Bool.or_true, Bool.true_or])
    | intro _
    | with_reducible assumption
    | with_reducible exact hks
    | with_reducible apply Has.ite
    | with_reducible apply keeps_clean
    | with_reducible apply keeps_loseScratchpads
    | with_reducible apply keeps_recall
    | with_reducible apply keeps_setReg
    | with_reducible apply keeps_wipe
    | simp only [Has.same hK]
    | dsimp only
    | split

def touchExecTeardownWipeComplete (p : Option Reg) : Bool := touchSetReg .teardownPending p || touchWipeJob p

theorem keeps_execTeardownWipeComplete (hK : Closed T K) (s : State) (hT : ∀ p, touchExecTeardownWipeComplete p = true
    → T p = true) (hks : Has K s) : HasRes K (execTeardownWipeComplete s) := by
  unfold execTeardownWipeComplete
  try dsimp only
  repeat' first
    | exact fun p hp => hT p (by simp only [touchExecTeardownWipeComplete, hp, Bool.or_true, Bool.true_or])
    | intro _
    | with_reducible assumption
    | with_reducible exact hks
    | with_reducible apply HasRes.next
    | with_reducible apply HasRes.ite
    | with_reducible apply Has.ite
    | with_reducible apply keeps_setReg
    | with_reducible apply keeps_wipeJob
    | dsimp only
    | split

def touchExecTeardownComplete (p : Option Reg) : Bool := touchApplyDeferred p || touchChange .logicalId p ||
  touchEndOpc p || touchEnter p || touchFitRoster p || touchSetReg .teardownPending p || touchSetReg .jobActive p

theorem keeps_execTeardownComplete (hK : Closed T K) (s : State) (hT : ∀ p, touchExecTeardownComplete p = true → T p =
    true) (hks : Has K s) : HasRes K (execTeardownComplete s) := by
  unfold execTeardownComplete
  try dsimp only
  repeat' first
    | exact fun p hp => hT p (by simp only [touchExecTeardownComplete, hp, Bool.or_true, Bool.true_or])
    | intro _
    | with_reducible assumption
    | with_reducible exact hks
    | with_reducible apply HasRes.next
    | with_reducible apply HasRes.ite
    | with_reducible apply Has.ite
    | with_reducible apply keeps_applyDeferred
    | with_reducible apply keeps_change
    | with_reducible apply keeps_endOpc
    | with_reducible apply keeps_enter
    | with_reducible apply keeps_fitRoster
    | with_reducible apply keeps_setReg
    | simp only [Has.same hK]
    | dsimp only
    | split

def touchExecCopyToDevice (p : Option Reg) : Bool := touchEndCmd p || touchPerformCmd p || touchWrite p

theorem keeps_execCopyToDevice (hK : Closed T K) (data : List Byte) (s : State) (hT : ∀ p, touchExecCopyToDevice p =
    true → T p = true) (hks : Has K s) : HasRes K (execCopyToDevice data s) := by
  unfold execCopyToDevice
  try dsimp only
  repeat' first
    | exact fun p hp => hT p (by simp only [touchExecCopyToDevice, hp, Bool.or_true, Bool.true_or])
    | intro _
    | with_reducible assumption
    | with_reducible exact hks
    | with_reducible apply HasRes.next
    | with_reducible apply HasRes.ite
    | with_reducible apply Has.ite
    | with_reducible apply keeps_endCmd
    | with_reducible apply keeps_performCmd
    | with_reducible apply keeps_write
    | dsimp only
    | split

def touchExecCopyFromDevice (p : Option Reg) : Bool := touchEndCmd p || touchPerformCmd p || touchSend p

theorem keeps_execCopyFromDevice (hK : Closed T K) (s : State) (hT : ∀ p, touchExecCopyFromDevice p = true → T p =
    true) (hks : Has K s) : HasRes K (execCopyFromDevice s) := by
  unfold execCopyFromDevice
  try dsimp only
  repeat' first
    | exact fun p hp => hT p (by simp only [touchExecCopyFromDevice, hp, Bool.or_true, Bool.true_or])
    | intro _
    | with_reducible assumption
    | with_reducible exact hks
    | with_reducible apply HasRes.next
    | with_reducible apply HasRes.ite
    | with_reducible apply Has.ite
    | with_reducible apply keeps_endCmd
    | with_reducible apply keeps_performCmd
    | with_reducible apply keeps_send
    | with_reducible apply Has.foldl
    | with_reducible apply Has1.foldl
    | with_reducible exact Has1.proj (by with_reducible assumption)
    | with_reducible apply Has1.mk
    | dsimp only
    | split

def touchPutModel (p : Option Reg) : Bool := touchCountModels p || touchWrite p

theorem keeps_putModel (hK : Closed T K) (s : State) (i place : Nat) (img descs weights : List Byte) (hT : ∀ p,
    touchPutModel p = true → T p = true) (hks : Has K s) : Has K (State.putModel s i place img descs weights) := by
  unfold State.putModel
  try dsimp only
  repeat' first
    | exact fun p hp => hT p (by simp only [touchPutModel, hp, Bool.or_true, Bool.true_or])
    | intro _
    | with_reducible assumption
    | with_reducible exact hks
    | with_reducible apply Has.ite
    | with_reducible apply keeps_countModels
    | with_reducible apply keeps_write
    | dsimp only
    | split

def touchExecRosterRegister (p : Option Reg) : Bool := touchEndCmd p || touchEndRange p || touchPerformCmd p ||
  touchPutModel p

theorem keeps_execRosterRegister (hK : Closed T K) (image descs weights : List Byte) (s : State) (hT : ∀ p,
    touchExecRosterRegister p = true → T p = true) (hks : Has K s) : HasRes K (execRosterRegister image descs weights
    s) := by
  unfold execRosterRegister
  try dsimp only
  repeat' first
    | exact fun p hp => hT p (by simp only [touchExecRosterRegister, hp, Bool.or_true, Bool.true_or])
    | intro _
    | with_reducible assumption
    | with_reducible exact hks
    | with_reducible apply HasRes.next
    | with_reducible apply HasRes.ite
    | with_reducible apply Has.ite
    | with_reducible apply keeps_endCmd
    | with_reducible apply keeps_endRange
    | with_reducible apply keeps_performCmd
    | with_reducible apply keeps_putModel
    | dsimp only
    | split

def touchExecRosterDeregister (p : Option Reg) : Bool := touchCountModels p || touchEndCmd p || touchEndRange p ||
  touchPerformCmd p || touchWrite p

theorem keeps_execRosterDeregister (hK : Closed T K) (s : State) (hT : ∀ p, touchExecRosterDeregister p = true → T p
    = true) (hks : Has K s) : HasRes K (execRosterDeregister s) := by
  unfold execRosterDeregister
  try dsimp only
  repeat' first
    | exact fun p hp => hT p (by simp only [touchExecRosterDeregister, hp, Bool.or_true, Bool.true_or])
    | intro _
    | with_reducible assumption
    | with_reducible exact hks
    | with_reducible apply HasRes.next
    | with_reducible apply HasRes.ite
    | with_reducible apply Has.ite
    | with_reducible apply keeps_countModels
    | with_reducible apply keeps_endCmd
    | with_reducible apply keeps_endRange
    | with_reducible apply keeps_performCmd
    | with_reducible apply keeps_write
    | simp only [Has.same hK]
    | dsimp only
    | split

def touchShowRegions (p : Option Reg) : Bool := touchChange .regionCount p || touchClearReg .regionTable p ||
  touchSetReg .regionTable p

theorem keeps_showRegions (hK : Closed T K) (s : State) (hT : ∀ p, touchShowRegions p = true → T p = true) (hks : Has
    K s) : Has K (State.showRegions s) := by
  unfold State.showRegions
  try dsimp only
  repeat' first
    | exact fun p hp => hT p (by simp only [touchShowRegions, hp, Bool.or_true, Bool.true_or])
    | intro _
    | with_reducible assumption
    | with_reducible exact hks
    | with_reducible apply Has.ite
    | with_reducible apply keeps_change
    | with_reducible apply keeps_clearReg
    | with_reducible apply keeps_setReg
    | with_reducible apply Has.foldl
    | with_reducible apply Has1.foldl
    | with_reducible exact Has1.proj (by with_reducible assumption)
    | with_reducible apply Has1.mk
    | dsimp only
    | split

def touchExecRegionRegister (p : Option Reg) : Bool := touchEndCmd p || touchEndRange p || touchPerformCmd p ||
  touchShowRegions p

theorem keeps_execRegionRegister (hK : Closed T K) (image : List Byte) (s : State) (hT : ∀ p,
    touchExecRegionRegister p = true → T p = true) (hks : Has K s) : HasRes K (execRegionRegister image s) := by
  unfold execRegionRegister
  try dsimp only
  repeat' first
    | exact fun p hp => hT p (by simp only [touchExecRegionRegister, hp, Bool.or_true, Bool.true_or])
    | intro _
    | with_reducible assumption
    | with_reducible exact hks
    | with_reducible apply HasRes.next
    | with_reducible apply HasRes.ite
    | with_reducible apply Has.ite
    | with_reducible apply keeps_endCmd
    | with_reducible apply keeps_endRange
    | with_reducible apply keeps_performCmd
    | with_reducible apply keeps_showRegions
    | simp only [Has.same hK]
    | dsimp only
    | split

def touchExecRegionDeregister (p : Option Reg) : Bool := touchEndCmd p || touchEndRange p || touchPerformCmd p ||
  touchShowRegions p

theorem keeps_execRegionDeregister (hK : Closed T K) (s : State) (hT : ∀ p, touchExecRegionDeregister p = true → T p =
    true) (hks : Has K s) : HasRes K (execRegionDeregister s) := by
  unfold execRegionDeregister
  try dsimp only
  repeat' first
    | exact fun p hp => hT p (by simp only [touchExecRegionDeregister, hp, Bool.or_true, Bool.true_or])
    | intro _
    | with_reducible assumption
    | with_reducible exact hks
    | with_reducible apply HasRes.next
    | with_reducible apply HasRes.ite
    | with_reducible apply Has.ite
    | with_reducible apply keeps_endCmd
    | with_reducible apply keeps_endRange
    | with_reducible apply keeps_performCmd
    | with_reducible apply keeps_showRegions
    | simp only [Has.same hK]
    | dsimp only
    | split

end Sys2Proof.Machine
end

