-- ==== Sys2Proof/Laws/KeepsPreempt.lean ====
section
/-! SUPPORT. What the operations of Machine/Preempt.lean keep, and the registers that each may change. -/

namespace Sys2Proof.Machine

variable {T : Option Reg → Bool} {K : State → Prop}

def touchExecBayPreempt (p : Option Reg) : Bool := touchAddReg .preemptsDeferred p || touchEndCmd p || touchEndRange
  p || touchLogError p || touchPerformCmd p || touchWrite p

theorem keeps_execBayPreempt (hK : Closed T K) (s : State) (hT : ∀ p, touchExecBayPreempt p = true → T p = true)
    (hks : Has K s) : HasRes K (execBayPreempt s) := by
  unfold execBayPreempt
  try dsimp only
  repeat' first
    | exact fun p hp => hT p (by simp only [touchExecBayPreempt, hp, Bool.or_true, Bool.true_or])
    | intro _
    | with_reducible assumption
    | with_reducible exact hks
    | with_reducible apply HasRes.next
    | with_reducible apply HasRes.ite
    | with_reducible apply Has.ite
    | with_reducible apply keeps_addReg
    | with_reducible apply keeps_endCmd
    | with_reducible apply keeps_endRange
    | with_reducible apply keeps_keepCmd
    | with_reducible apply keeps_logError
    | with_reducible apply keeps_performCmd
    | with_reducible apply keeps_setBay
    | with_reducible apply keeps_write
    | simp only [Has.same hK]
    | dsimp only
    | split

def touchExecContextSaveComplete (p : Option Reg) : Bool := touchEndCmd p || touchSaveContext p || touchSetReg
  .ctxOf p || touchSetTableState p || touchUnparkBay p

theorem keeps_execContextSaveComplete (hK : Closed T K) (b : Fin 256) (s : State) (hT : ∀ p,
    touchExecContextSaveComplete p = true → T p = true) (hks : Has K s) : HasRes K (execContextSaveComplete b s) :=
    by
  unfold execContextSaveComplete
  try dsimp only
  repeat' first
    | exact fun p hp => hT p (by simp only [touchExecContextSaveComplete, hp, Bool.or_true, Bool.true_or])
    | intro _
    | with_reducible assumption
    | with_reducible exact hks
    | with_reducible apply HasRes.next
    | with_reducible apply HasRes.ite
    | with_reducible apply Has.ite
    | with_reducible apply keeps_endCmd
    | with_reducible apply keeps_saveContext
    | with_reducible apply keeps_setBay
    | with_reducible apply keeps_setReg
    | with_reducible apply keeps_setTableState
    | with_reducible apply keeps_unparkBay
    | simp only [Has.same hK]
    | dsimp only
    | split

def touchExecPreemptDeferralExpiry (p : Option Reg) : Bool := touchEndCmd p || touchLogError p || touchSetBay p

theorem keeps_execPreemptDeferralExpiry (hK : Closed T K) (b : Fin 256) (s : State) (hT : ∀ p,
    touchExecPreemptDeferralExpiry p = true → T p = true) (hks : Has K s) : HasRes K (execPreemptDeferralExpiry b s)
    := by
  unfold execPreemptDeferralExpiry
  try dsimp only
  repeat' first
    | exact fun p hp => hT p (by simp only [touchExecPreemptDeferralExpiry, hp, Bool.or_true, Bool.true_or])
    | intro _
    | with_reducible assumption
    | with_reducible exact hks
    | with_reducible apply HasRes.next
    | with_reducible apply HasRes.ite
    | with_reducible apply Has.ite
    | with_reducible apply keeps_endCmd
    | with_reducible apply keeps_logError
    | with_reducible apply keeps_setBay
    | simp only [Has.same hK]
    | dsimp only
    | split

def touchResumeHalted (p : Option Reg) : Bool := touchAddReg .stepsIssued p || touchEmitRecord p || touchFillWindow p
  || touchHaltTable p || touchSetBay p || touchSetTableState p

theorem keeps_resumeHalted (hK : Closed T K) (s : State) (b : Nat) (hT : ∀ p, touchResumeHalted p = true → T p = true)
    (hks : Has K s) : Has K (State.resumeHalted s b) := by
  unfold State.resumeHalted
  try dsimp only
  repeat' first
    | exact fun p hp => hT p (by simp only [touchResumeHalted, hp, Bool.or_true, Bool.true_or])
    | intro _
    | with_reducible assumption
    | with_reducible exact hks
    | with_reducible apply Has.ite
    | with_reducible apply keeps_addReg
    | with_reducible apply keeps_emitRecord
    | with_reducible apply keeps_fillWindow
    | with_reducible apply keeps_haltTable
    | with_reducible apply keeps_setBay
    | with_reducible apply keeps_setTableState
    | simp only [Has.same hK]
    | dsimp only
    | split

def touchResumeSaved (p : Option Reg) : Bool := touchChange .lbayMap p || touchEndCmd p || touchEndRange p ||
  touchRefuseContext p || touchResumeHalted p || touchSetTableState p || touchWrite p

theorem keeps_resumeSaved (hK : Closed T K) (s : State) (c : HostCmd) (b : Nat) (hT : ∀ p, touchResumeSaved p = true
    → T p = true) (hks : Has K s) : Has K (State.resumeSaved s c b) := by
  unfold State.resumeSaved
  try dsimp only
  repeat' first
    | exact fun p hp => hT p (by simp only [touchResumeSaved, hp, Bool.or_true, Bool.true_or])
    | intro _
    | with_reducible assumption
    | with_reducible exact hks
    | with_reducible apply Has.ite
    | with_reducible apply keeps_change
    | with_reducible apply keeps_endCmd
    | with_reducible apply keeps_endRange
    | with_reducible apply keeps_refuseContext
    | with_reducible apply keeps_resumeHalted
    | with_reducible apply keeps_setBay
    | with_reducible apply keeps_setTableState
    | with_reducible apply keeps_write
    | simp only [Has.same hK]
    | dsimp only
    | split

def touchExecBayResume (p : Option Reg) : Bool := touchEndCmd p || touchEndRange p || touchPerformCmd p ||
  touchResumeHalted p || touchResumeSaved p

theorem keeps_execBayResume (hK : Closed T K) (s : State) (hT : ∀ p, touchExecBayResume p = true → T p = true) (hks :
    Has K s) : HasRes K (execBayResume s) := by
  unfold execBayResume
  try dsimp only
  repeat' first
    | exact fun p hp => hT p (by simp only [touchExecBayResume, hp, Bool.or_true, Bool.true_or])
    | intro _
    | with_reducible assumption
    | with_reducible exact hks
    | with_reducible apply HasRes.next
    | with_reducible apply HasRes.ite
    | with_reducible apply Has.ite
    | with_reducible apply keeps_endCmd
    | with_reducible apply keeps_endRange
    | with_reducible apply keeps_performCmd
    | with_reducible apply keeps_resumeHalted
    | with_reducible apply keeps_resumeSaved
    | dsimp only
    | split

end Sys2Proof.Machine
end

