-- ==== Sys2Proof/Laws/KeepsHostPort.lean ====
section
/-! SUPPORT. What the operations of Machine/HostPort.lean keep, and the registers that each may change. -/

namespace Sys2Proof.Machine

variable {T : Option Reg → Bool} {K : State → Prop}

def touchTrainHost (p : Option Reg) : Bool := touchChange .hostLink p || touchLogError p

theorem keeps_trainHost (hK : Closed T K) (s : State) (gen width : Nat) (cxl : Bool) (hT : ∀ p, touchTrainHost p =
    true → T p = true) (hks : Has K s) : Has K (State.trainHost s gen width cxl) := by
  unfold State.trainHost
  try dsimp only
  repeat' first
    | exact fun p hp => hT p (by simp only [touchTrainHost, hp, Bool.or_true, Bool.true_or])
    | intro _
    | with_reducible assumption
    | with_reducible exact hks
    | with_reducible apply Has.ite
    | with_reducible apply keeps_change
    | with_reducible apply keeps_logError
    | simp only [Has.same hK]
    | dsimp only
    | split

def touchExecHostLinkTraining (p : Option Reg) : Bool := touchTrainHost p

theorem keeps_execHostLinkTraining (hK : Closed T K) (gen width : Nat) (cxl : Bool) (s : State) (hT : ∀ p,
    touchExecHostLinkTraining p = true → T p = true) (hks : Has K s) : HasRes K (execHostLinkTraining gen width cxl s)
    := by
  unfold execHostLinkTraining
  try dsimp only
  repeat' first
    | exact fun p hp => hT p hp
    | intro _
    | with_reducible assumption
    | with_reducible exact hks
    | with_reducible apply HasRes.next
    | with_reducible apply HasRes.ite
    | with_reducible apply Has.ite
    | with_reducible apply keeps_trainHost
    | dsimp only
    | split

def touchRelease (p : Option Reg) : Bool := touchWrites p

theorem keeps_release (hK : Closed T K) (s : State) (p : Nat → Bool) (hT : ∀ p, touchRelease p = true → T p = true)
    (hks : Has K s) : Has K (State.release s p) := by
  unfold State.release
  try dsimp only
  repeat' first
    | exact fun p hp => hT p hp
    | intro _
    | with_reducible assumption
    | with_reducible exact hks
    | with_reducible apply Has.ite
    | with_reducible apply keeps_writes
    | simp only [Has.same hK]
    | dsimp only
    | split

def touchExecHostLinkReset (p : Option Reg) : Bool := touchChange .sqEnable p || touchChange .hostLink p ||
  touchRefreshAcked p || touchRelease p || touchSetReg .sqState p || touchSetReg .hostHeldLines p

theorem keeps_execHostLinkReset (hK : Closed T K) (down : Bool) (s : State) (hT : ∀ p, touchExecHostLinkReset p = true
    → T p = true) (hks : Has K s) : HasRes K (execHostLinkReset down s) := by
  unfold execHostLinkReset
  try dsimp only
  repeat' first
    | exact fun p hp => hT p (by simp only [touchExecHostLinkReset, hp, Bool.or_true, Bool.true_or])
    | intro _
    | with_reducible assumption
    | with_reducible exact hks
    | with_reducible apply HasRes.next
    | with_reducible apply HasRes.ite
    | with_reducible apply Has.ite
    | with_reducible apply keeps_change
    | with_reducible apply keeps_refreshAcked
    | with_reducible apply keeps_release
    | with_reducible apply keeps_setReg
    | with_reducible apply Has.foldl
    | with_reducible apply Has1.foldl
    | with_reducible exact Has1.proj (by with_reducible assumption)
    | with_reducible apply Has1.mk
    | simp only [Has.same hK]
    | dsimp only
    | split

def touchGrant (p : Option Reg) : Bool := touchAddReg .backInvalidates p || touchSend p || touchSetReg .hostHeldLines
  p

theorem keeps_grant (hK : Closed T K) (s : State) (line : Nat) (hT : ∀ p, touchGrant p = true → T p = true) (hks : Has
    K s) : Has K (State.grant s line) := by
  unfold State.grant
  try dsimp only
  repeat' first
    | exact fun p hp => hT p (by simp only [touchGrant, hp, Bool.or_true, Bool.true_or])
    | intro _
    | with_reducible assumption
    | with_reducible exact hks
    | with_reducible apply Has.ite
    | with_reducible apply keeps_addReg
    | with_reducible apply keeps_send
    | with_reducible apply keeps_setReg
    | simp only [Has.same hK]
    | dsimp only
    | split

def touchExecHostMemRead (p : Option Reg) : Bool := touchAddReg .hostRefused p || touchGrant p || touchSend p

theorem keeps_execHostMemRead (hK : Closed T K) (atom : Fin 34359738368) (s : State) (hT : ∀ p, touchExecHostMemRead p
    = true → T p = true) (hks : Has K s) : HasRes K (execHostMemRead atom s) := by
  unfold execHostMemRead
  try dsimp only
  repeat' first
    | exact fun p hp => hT p (by simp only [touchExecHostMemRead, hp, Bool.or_true, Bool.true_or])
    | intro _
    | with_reducible assumption
    | with_reducible exact hks
    | with_reducible apply HasRes.next
    | with_reducible apply HasRes.ite
    | with_reducible apply Has.ite
    | with_reducible apply keeps_addReg
    | with_reducible apply keeps_grant
    | with_reducible apply keeps_send
    | dsimp only
    | split

def touchExecHostMemWrite (p : Option Reg) : Bool := touchAddReg .hostRefused p || touchWrite p

theorem keeps_execHostMemWrite (hK : Closed T K) (a : BitVec 41) (data : List Byte) (s : State) (hT : ∀ p,
    touchExecHostMemWrite p = true → T p = true) (hks : Has K s) : HasRes K (execHostMemWrite a data s) := by
  unfold execHostMemWrite
  try dsimp only
  repeat' first
    | exact fun p hp => hT p (by simp only [touchExecHostMemWrite, hp, Bool.or_true, Bool.true_or])
    | intro _
    | with_reducible assumption
    | with_reducible exact hks
    | with_reducible apply HasRes.next
    | with_reducible apply HasRes.ite
    | with_reducible apply Has.ite
    | with_reducible apply keeps_addReg
    | with_reducible apply keeps_write
    | simp only [Has.same hK]
    | dsimp only
    | split

def touchExecBackInvalidateResponse (p : Option Reg) : Bool := touchRelease p || touchSetReg .hostHeldLines p

theorem keeps_execBackInvalidateResponse (hK : Closed T K) (line : Fin 17179869184) (s : State) (hT : ∀ p,
    touchExecBackInvalidateResponse p = true → T p = true) (hks : Has K s) : HasRes K (execBackInvalidateResponse line
    s) := by
  unfold execBackInvalidateResponse
  try dsimp only
  repeat' first
    | exact fun p hp => hT p (by simp only [touchExecBackInvalidateResponse, hp, Bool.or_true, Bool.true_or])
    | intro _
    | with_reducible assumption
    | with_reducible exact hks
    | with_reducible apply HasRes.next
    | with_reducible apply HasRes.ite
    | with_reducible apply Has.ite
    | with_reducible apply keeps_release
    | with_reducible apply keeps_setReg
    | simp only [Has.same hK]
    | dsimp only
    | split

end Sys2Proof.Machine
end

