-- ==== Sys2Proof/Laws/KeepsWrapper.lean ====
section
/-! SUPPORT. What the operations of Machine/Wrapper.lean keep, and the registers that each may change. -/

namespace Sys2Proof.Machine

variable {T : Option Reg → Bool} {K : State → Prop}

def touchLoadCode (p : Option Reg) : Bool := touchSetReg .wrapper p

theorem keeps_loadCode (hK : Closed T K) (s : State) (k code : Nat) (hT : ∀ p, touchLoadCode p = true → T p = true)
    (hks : Has K s) : Has K (State.loadCode s k code) := by
  unfold State.loadCode
  try dsimp only
  repeat' first
    | exact fun p hp => hT p hp
    | intro _
    | with_reducible assumption
    | with_reducible exact hks
    | with_reducible apply Has.ite
    | with_reducible apply keeps_setReg
    | dsimp only
    | split

def touchAuditRepair (_ : Reg) (p : Option Reg) : Bool := touchAppendAudit p

theorem keeps_auditRepair (hK : Closed T K) (s : State) (r : Reg) (k : Nat) (old : List Byte) (hT : ∀ p,
    touchAuditRepair r p = true → T p = true) (hks : Has K s) : Has K (State.auditRepair s r k old) := by
  unfold State.auditRepair
  try dsimp only
  repeat' first
    | exact fun p hp => hT p hp
    | intro _
    | with_reducible assumption
    | with_reducible exact hks
    | with_reducible apply Has.ite
    | with_reducible apply keeps_appendAudit
    | dsimp only
    | split

def touchExecWrapperSelect (p : Option Reg) : Bool := touchLoadCode p

theorem keeps_execWrapperSelect (hK : Closed T K) (st : Fin 32) (code : Byte) (s : State) (hT : ∀ p,
    touchExecWrapperSelect p = true → T p = true) (hks : Has K s) : HasRes K (execWrapperSelect st code s) := by
  unfold execWrapperSelect
  try dsimp only
  repeat' first
    | exact fun p hp => hT p hp
    | intro _
    | with_reducible assumption
    | with_reducible exact hks
    | with_reducible apply HasRes.next
    | with_reducible apply HasRes.ite
    | with_reducible apply Has.ite
    | with_reducible apply keeps_loadCode
    | dsimp only
    | split

def touchExecJournalRead (p : Option Reg) : Bool := touchLoadCode p

theorem keeps_execJournalRead (hK : Closed T K) (entry : Fin 512) (s : State) (hT : ∀ p, touchExecJournalRead p =
    true → T p = true) (hks : Has K s) : HasRes K (execJournalRead entry s) := by
  unfold execJournalRead
  try dsimp only
  repeat' first
    | exact fun p hp => hT p hp
    | intro _
    | with_reducible assumption
    | with_reducible exact hks
    | with_reducible apply HasRes.next
    | with_reducible apply HasRes.ite
    | with_reducible apply Has.ite
    | with_reducible apply keeps_loadCode
    | with_reducible apply keeps_send
    | dsimp only
    | split

def touchExecRemapRead (p : Option Reg) : Bool := touchLoadCode p

theorem keeps_execRemapRead (hK : Closed T K) (ch : Fin 32) (row : Nat) (s : State) (hT : ∀ p, touchExecRemapRead p
    = true → T p = true) (hks : Has K s) : HasRes K (execRemapRead ch row s) := by
  unfold execRemapRead
  try dsimp only
  repeat' first
    | exact fun p hp => hT p hp
    | intro _
    | with_reducible assumption
    | with_reducible exact hks
    | with_reducible apply HasRes.next
    | with_reducible apply HasRes.ite
    | with_reducible apply Has.ite
    | with_reducible apply keeps_draw
    | with_reducible apply keeps_loadCode
    | with_reducible apply keeps_send
    | with_reducible refine Has2.of_eq ?_ (by assumption)
    | (with_reducible apply Has2.proj; with_reducible apply keeps_draw)
    | dsimp only
    | split

def touchExecRemapWrite (p : Option Reg) : Bool := touchAuditRepair .reserveRowsLeft p || touchInstallRemap p ||
  touchLoadCode p || touchSetReg .reserveRowsLeft p

theorem keeps_execRemapWrite (hK : Closed T K) (e : StackElement) (row : Nat) (s : State) (hT : ∀ p,
    touchExecRemapWrite p = true → T p = true) (hks : Has K s) : HasRes K (execRemapWrite e row s) := by
  unfold execRemapWrite
  try dsimp only
  repeat' first
    | exact fun p hp => hT p (by simp only [touchExecRemapWrite, hp, Bool.or_true, Bool.true_or])
    | intro _
    | with_reducible assumption
    | with_reducible exact hks
    | with_reducible apply HasRes.next
    | with_reducible apply HasRes.ite
    | with_reducible apply Has.ite
    | with_reducible apply keeps_auditRepair
    | with_reducible apply keeps_installRemap
    | with_reducible apply keeps_loadCode
    | with_reducible apply keeps_setReg
    | simp only [Has.same hK]
    | dsimp only
    | split

def touchWrapperRepair (p : Option Reg) : Bool := touchAuditRepair .journalUsed p || touchLoadCode p ||
  touchStartRepair p

theorem keeps_wrapperRepair (hK : Closed T K) (s : State) (e : StackElement) (kind code : Nat) (hT : ∀ p,
    touchWrapperRepair p = true → T p = true) (hks : Has K s) : Has K (State.wrapperRepair s e kind code) := by
  unfold State.wrapperRepair
  try dsimp only
  repeat' first
    | exact fun p hp => hT p (by simp only [touchWrapperRepair, hp, Bool.or_true, Bool.true_or])
    | intro _
    | with_reducible assumption
    | with_reducible exact hks
    | with_reducible apply Has.ite
    | with_reducible apply keeps_auditRepair
    | with_reducible apply keeps_loadCode
    | with_reducible apply keeps_startRepair
    | dsimp only
    | split

def touchExecRepairRow (p : Option Reg) : Bool := touchWrapperRepair p

theorem keeps_execRepairRow (hK : Closed T K) (e : StackElement) (s : State) (hT : ∀ p, touchExecRepairRow p = true
    → T p = true) (hks : Has K s) : HasRes K (execRepairRow e s) := by
  unfold execRepairRow
  try dsimp only
  repeat' first
    | exact fun p hp => hT p hp
    | intro _
    | with_reducible assumption
    | with_reducible exact hks
    | with_reducible apply HasRes.next
    | with_reducible apply HasRes.ite
    | with_reducible apply Has.ite
    | with_reducible apply keeps_wrapperRepair
    | dsimp only
    | split

def touchExecChannelTest (p : Option Reg) : Bool := touchAddReg .selftestRuns p || touchLoadCode p

theorem keeps_execChannelTest (hK : Closed T K) (ch : Fin 32) (rows : List StackElement) (s : State) (hT : ∀ p,
    touchExecChannelTest p = true → T p = true) (hks : Has K s) : HasRes K (execChannelTest ch rows s) := by
  unfold execChannelTest
  try dsimp only
  repeat' first
    | exact fun p hp => hT p (by simp only [touchExecChannelTest, hp, Bool.or_true, Bool.true_or])
    | intro _
    | with_reducible assumption
    | with_reducible exact hks
    | with_reducible apply HasRes.next
    | with_reducible apply HasRes.ite
    | with_reducible apply Has.ite
    | with_reducible apply keeps_addReg
    | with_reducible apply keeps_loadCode
    | with_reducible apply keeps_send
    | dsimp only
    | split

def touchExecDraughtStatus (p : Option Reg) : Bool := touchLoadCode p

theorem keeps_execDraughtStatus (hK : Closed T K) (s : State) (hT : ∀ p, touchExecDraughtStatus p = true → T p =
    true) (hks : Has K s) : HasRes K (execDraughtStatus s) := by
  unfold execDraughtStatus
  try dsimp only
  repeat' first
    | exact fun p hp => hT p hp
    | intro _
    | with_reducible assumption
    | with_reducible exact hks
    | with_reducible apply HasRes.next
    | with_reducible apply HasRes.ite
    | with_reducible apply Has.ite
    | with_reducible apply keeps_loadCode
    | with_reducible apply keeps_send
    | dsimp only
    | split

def touchExecHbm4DeviceIdentity (p : Option Reg) : Bool := touchLoadCode p

theorem keeps_execHbm4DeviceIdentity (hK : Closed T K) (s : State) (hT : ∀ p, touchExecHbm4DeviceIdentity p = true →
    T p = true) (hks : Has K s) : HasRes K (execHbm4DeviceIdentity s) := by
  unfold execHbm4DeviceIdentity
  try dsimp only
  repeat' first
    | exact fun p hp => hT p hp
    | intro _
    | with_reducible assumption
    | with_reducible exact hks
    | with_reducible apply HasRes.next
    | with_reducible apply HasRes.ite
    | with_reducible apply Has.ite
    | with_reducible apply keeps_loadCode
    | with_reducible apply keeps_send
    | dsimp only
    | split

def touchExecHbm4TemperatureReadout (p : Option Reg) : Bool := touchLoadCode p

theorem keeps_execHbm4TemperatureReadout (hK : Closed T K) (s : State) (hT : ∀ p, touchExecHbm4TemperatureReadout p
    = true → T p = true) (hks : Has K s) : HasRes K (execHbm4TemperatureReadout s) := by
  unfold execHbm4TemperatureReadout
  try dsimp only
  repeat' first
    | exact fun p hp => hT p hp
    | intro _
    | with_reducible assumption
    | with_reducible exact hks
    | with_reducible apply HasRes.next
    | with_reducible apply HasRes.ite
    | with_reducible apply Has.ite
    | with_reducible apply keeps_draw
    | with_reducible apply keeps_loadCode
    | with_reducible apply keeps_send
    | with_reducible refine Has2.of_eq ?_ (by assumption)
    | (with_reducible apply Has2.proj; with_reducible apply keeps_draw)
    | dsimp only
    | split

def touchExecHbm4ModeRegisterDump (p : Option Reg) : Bool := touchLoadCode p

theorem keeps_execHbm4ModeRegisterDump (hK : Closed T K) (s : State) (hT : ∀ p, touchExecHbm4ModeRegisterDump p =
    true → T p = true) (hks : Has K s) : HasRes K (execHbm4ModeRegisterDump s) := by
  unfold execHbm4ModeRegisterDump
  try dsimp only
  repeat' first
    | exact fun p hp => hT p hp
    | intro _
    | with_reducible assumption
    | with_reducible exact hks
    | with_reducible apply HasRes.next
    | with_reducible apply HasRes.ite
    | with_reducible apply Has.ite
    | with_reducible apply keeps_draw
    | with_reducible apply keeps_loadCode
    | with_reducible apply keeps_send
    | with_reducible refine Has2.of_eq ?_ (by assumption)
    | (with_reducible apply Has2.proj; with_reducible apply keeps_draw)
    | dsimp only
    | split

def touchExecHbm4LaneRepair (p : Option Reg) : Bool := touchWrapperRepair p

theorem keeps_execHbm4LaneRepair (hK : Closed T K) (e : StackElement) (s : State) (hT : ∀ p, touchExecHbm4LaneRepair
    p = true → T p = true) (hks : Has K s) : HasRes K (execHbm4LaneRepair e s) := by
  unfold execHbm4LaneRepair
  try dsimp only
  repeat' first
    | exact fun p hp => hT p hp
    | intro _
    | with_reducible assumption
    | with_reducible exact hks
    | with_reducible apply HasRes.next
    | with_reducible apply HasRes.ite
    | with_reducible apply Has.ite
    | with_reducible apply keeps_wrapperRepair
    | dsimp only
    | split

def touchExecHbm4SoftPpr (p : Option Reg) : Bool := touchAuditRepair .reserveRowsLeft p || touchLoadCode p ||
  touchSetReg .reserveRowsLeft p

theorem keeps_execHbm4SoftPpr (hK : Closed T K) (e : StackElement) (s : State) (hT : ∀ p, touchExecHbm4SoftPpr p =
    true → T p = true) (hks : Has K s) : HasRes K (execHbm4SoftPpr e s) := by
  unfold execHbm4SoftPpr
  try dsimp only
  repeat' first
    | exact fun p hp => hT p (by simp only [touchExecHbm4SoftPpr, hp, Bool.or_true, Bool.true_or])
    | intro _
    | with_reducible assumption
    | with_reducible exact hks
    | with_reducible apply HasRes.next
    | with_reducible apply HasRes.ite
    | with_reducible apply Has.ite
    | with_reducible apply keeps_auditRepair
    | with_reducible apply keeps_loadCode
    | with_reducible apply keeps_setReg
    | simp only [Has.same hK]
    | dsimp only
    | split

def touchExecHbm4HardPpr (p : Option Reg) : Bool := touchWrapperRepair p

theorem keeps_execHbm4HardPpr (hK : Closed T K) (e : StackElement) (s : State) (hT : ∀ p, touchExecHbm4HardPpr p =
    true → T p = true) (hks : Has K s) : HasRes K (execHbm4HardPpr e s) := by
  unfold execHbm4HardPpr
  try dsimp only
  repeat' first
    | exact fun p hp => hT p hp
    | intro _
    | with_reducible assumption
    | with_reducible exact hks
    | with_reducible apply HasRes.next
    | with_reducible apply HasRes.ite
    | with_reducible apply Has.ite
    | with_reducible apply keeps_wrapperRepair
    | dsimp only
    | split

end Sys2Proof.Machine
end

