-- ==== Sys2Proof/Laws/KeepsFreeze.lean ====
section
/-! SUPPORT. What the operations of Machine/Freeze.lean keep, and the registers that each may change. -/

namespace Sys2Proof.Machine

variable {T : Option Reg → Bool} {K : State → Prop}

def touchFreezeCommand (p : Option Reg) : Bool := touchFire p || touchSetReg .freezeCmd p || touchSetReg .freezeState
  p || touchSetReg .dumpWaits p

theorem keeps_freezeCommand (hK : Closed T K) (v : Nat) (s : State) (hT : ∀ p, touchFreezeCommand p = true → T p =
    true) (hks : Has K s) : Has K (freezeCommand v s) := by
  unfold freezeCommand
  try dsimp only
  repeat' first
    | exact fun p hp => hT p (by simp only [touchFreezeCommand, hp, Bool.or_true, Bool.true_or])
    | intro _
    | with_reducible assumption
    | with_reducible exact hks
    | with_reducible apply Has.ite
    | with_reducible apply keeps_fire
    | with_reducible apply keeps_setReg
    | dsimp only
    | split

def touchExecFreezeCmdTrigger (p : Option Reg) : Bool := touchWriteRequest p || touchFreezeCommand p

theorem keeps_execFreezeCmdTrigger (hK : Closed T K) (q : Requester) (s : State) (hT : ∀ p, touchExecFreezeCmdTrigger
    p = true → T p = true) (hks : Has K s) : HasRes K (execFreezeCmdTrigger q s) := by
  unfold execFreezeCmdTrigger
  try dsimp only
  repeat' first
    | exact fun p hp => hT p (by simp only [touchExecFreezeCmdTrigger, hp, Bool.or_true, Bool.true_or])
    | intro _
    | with_reducible assumption
    | with_reducible exact hks
    | with_reducible apply HasRes.next
    | with_reducible apply HasRes.ite
    | with_reducible apply Has.ite
    | with_reducible apply keeps_writeRequest
    | with_reducible apply keeps_freezeCommand
    | dsimp only
    | split

def touchExecFreezeCmdRearm (p : Option Reg) : Bool := touchWriteRequest p || touchFreezeCommand p

theorem keeps_execFreezeCmdRearm (hK : Closed T K) (q : Requester) (s : State) (hT : ∀ p, touchExecFreezeCmdRearm p =
    true → T p = true) (hks : Has K s) : HasRes K (execFreezeCmdRearm q s) := by
  unfold execFreezeCmdRearm
  try dsimp only
  repeat' first
    | exact fun p hp => hT p (by simp only [touchExecFreezeCmdRearm, hp, Bool.or_true, Bool.true_or])
    | intro _
    | with_reducible assumption
    | with_reducible exact hks
    | with_reducible apply HasRes.next
    | with_reducible apply HasRes.ite
    | with_reducible apply Has.ite
    | with_reducible apply keeps_writeRequest
    | with_reducible apply keeps_freezeCommand
    | dsimp only
    | split

def touchExecFreezeCmdDisarm (p : Option Reg) : Bool := touchWriteRequest p || touchFreezeCommand p

theorem keeps_execFreezeCmdDisarm (hK : Closed T K) (q : Requester) (s : State) (hT : ∀ p, touchExecFreezeCmdDisarm p
    = true → T p = true) (hks : Has K s) : HasRes K (execFreezeCmdDisarm q s) := by
  unfold execFreezeCmdDisarm
  try dsimp only
  repeat' first
    | exact fun p hp => hT p (by simp only [touchExecFreezeCmdDisarm, hp, Bool.or_true, Bool.true_or])
    | intro _
    | with_reducible assumption
    | with_reducible exact hks
    | with_reducible apply HasRes.next
    | with_reducible apply HasRes.ite
    | with_reducible apply Has.ite
    | with_reducible apply keeps_writeRequest
    | with_reducible apply keeps_freezeCommand
    | dsimp only
    | split

def touchExecSnapTrigEdge (p : Option Reg) : Bool := touchFire p

theorem keeps_execSnapTrigEdge (hK : Closed T K) (width : Nat) (s : State) (hT : ∀ p, touchExecSnapTrigEdge p = true →
    T p = true) (hks : Has K s) : HasRes K (execSnapTrigEdge width s) := by
  unfold execSnapTrigEdge
  try dsimp only
  repeat' first
    | exact fun p hp => hT p hp
    | intro _
    | with_reducible assumption
    | with_reducible exact hks
    | with_reducible apply HasRes.next
    | with_reducible apply HasRes.ite
    | with_reducible apply Has.ite
    | with_reducible apply keeps_fire
    | dsimp only
    | split

def touchExecFreezeHoldExpiry (p : Option Reg) : Bool := touchSetReg .freezeState p || touchSetReg .dumpWaits p

theorem keeps_execFreezeHoldExpiry (hK : Closed T K) (s : State) (hT : ∀ p, touchExecFreezeHoldExpiry p = true → T p =
    true) (hks : Has K s) : HasRes K (execFreezeHoldExpiry s) := by
  unfold execFreezeHoldExpiry
  try dsimp only
  repeat' first
    | exact fun p hp => hT p (by simp only [touchExecFreezeHoldExpiry, hp, Bool.or_true, Bool.true_or])
    | intro _
    | with_reducible assumption
    | with_reducible exact hks
    | with_reducible apply HasRes.next
    | with_reducible apply HasRes.ite
    | with_reducible apply Has.ite
    | with_reducible apply keeps_setReg
    | dsimp only
    | split

def touchExecLateLatch (p : Option Reg) : Bool := touchDraw p

theorem keeps_execLateLatch (hK : Closed T K) (k : Fin 48) (s : State) (hT : ∀ p, touchExecLateLatch p = true → T p =
    true) (hks : Has K s) : HasRes K (execLateLatch k s) := by
  unfold execLateLatch
  try dsimp only
  repeat' first
    | exact fun p hp => hT p hp
    | intro _
    | with_reducible assumption
    | with_reducible exact hks
    | with_reducible apply HasRes.next
    | with_reducible apply HasRes.ite
    | with_reducible apply Has.ite
    | with_reducible apply keeps_draw
    | simp only [Has.same hK]
    | with_reducible refine Has2.of_eq ?_ (by assumption)
    | (with_reducible apply Has2.proj; with_reducible apply keeps_draw)
    | dsimp only
    | split

def touchExecFreezeDumpComplete (p : Option Reg) : Bool := touchSetReg .dumpWaits p || touchSetReg .freezeState p ||
  touchWrite p

theorem keeps_execFreezeDumpComplete (hK : Closed T K) (s : State) (hT : ∀ p, touchExecFreezeDumpComplete p = true →
    T p = true) (hks : Has K s) : HasRes K (execFreezeDumpComplete s) := by
  unfold execFreezeDumpComplete
  try dsimp only
  repeat' first
    | exact fun p hp => hT p (by simp only [touchExecFreezeDumpComplete, hp, Bool.or_true, Bool.true_or])
    | intro _
    | with_reducible assumption
    | with_reducible exact hks
    | with_reducible apply HasRes.next
    | with_reducible apply HasRes.ite
    | with_reducible apply Has.ite
    | with_reducible apply keeps_setReg
    | with_reducible apply keeps_write
    | dsimp only
    | split

def touchCountLatency (p : Option Reg) : Bool := touchSetReg .latHist p

theorem keeps_countLatency (hK : Closed T K) (s : State) (path ns : Nat) (hT : ∀ p, touchCountLatency p = true → T p =
    true) (hks : Has K s) : Has K (State.countLatency s path ns) := by
  unfold State.countLatency
  try dsimp only
  repeat' first
    | exact fun p hp => hT p hp
    | intro _
    | with_reducible assumption
    | with_reducible exact hks
    | with_reducible apply Has.ite
    | with_reducible apply keeps_setReg
    | dsimp only
    | split

def touchExecLevelSatRefresh (p : Option Reg) : Bool := touchAddReg .sliceSatCycles p || touchAddReg .linkSatCycles p
  || touchCountLatency p || touchSetReg .levelSat p || touchSetReg .stackLoad p || touchSetReg .linkLoad p

theorem keeps_execLevelSatRefresh (hK : Closed T K) (f : LoadFacts) (s : State) (hT : ∀ p, touchExecLevelSatRefresh p
    = true → T p = true) (hks : Has K s) : HasRes K (execLevelSatRefresh f s) := by
  unfold execLevelSatRefresh
  try dsimp only
  repeat' first
    | exact fun p hp => hT p (by simp only [touchExecLevelSatRefresh, hp, Bool.or_true, Bool.true_or])
    | intro _
    | with_reducible assumption
    | with_reducible exact hks
    | with_reducible apply HasRes.next
    | with_reducible apply HasRes.ite
    | with_reducible apply Has.ite
    | with_reducible apply keeps_addReg
    | with_reducible apply keeps_countLatency
    | with_reducible apply keeps_setReg
    | with_reducible apply Has.foldl
    | with_reducible apply Has1.foldl
    | with_reducible exact Has1.proj (by with_reducible assumption)
    | with_reducible apply Has1.mk
    | dsimp only
    | split

def touchClearLatencies (p : Option Reg) : Bool := touchClearReg .latHist p || touchSetReg .latClear p

theorem keeps_clearLatencies (hK : Closed T K) (s : State) (hT : ∀ p, touchClearLatencies p = true → T p = true) (hks
    : Has K s) : Has K (clearLatencies s) := by
  unfold clearLatencies
  try dsimp only
  repeat' first
    | exact fun p hp => hT p (by simp only [touchClearLatencies, hp, Bool.or_true, Bool.true_or])
    | intro _
    | with_reducible assumption
    | with_reducible exact hks
    | with_reducible apply Has.ite
    | with_reducible apply keeps_clearReg
    | with_reducible apply keeps_setReg
    | dsimp only
    | split

def touchExecLatClearWrite (p : Option Reg) : Bool := touchWriteRequest p || touchClearLatencies p

theorem keeps_execLatClearWrite (hK : Closed T K) (q : Requester) (v : Byte) (s : State) (hT : ∀ p,
    touchExecLatClearWrite p = true → T p = true) (hks : Has K s) : HasRes K (execLatClearWrite q v s) := by
  unfold execLatClearWrite
  try dsimp only
  repeat' first
    | exact fun p hp => hT p (by simp only [touchExecLatClearWrite, hp, Bool.or_true, Bool.true_or])
    | intro _
    | with_reducible assumption
    | with_reducible exact hks
    | with_reducible apply HasRes.next
    | with_reducible apply HasRes.ite
    | with_reducible apply Has.ite
    | with_reducible apply keeps_writeRequest
    | with_reducible apply keeps_clearLatencies
    | dsimp only
    | split

def touchMoveWindow (p : Option Reg) : Bool := touchSetReg .errorRate p || touchSetRegs .ratePast p

theorem keeps_moveWindow (hK : Closed T K) (s : State) (c : Nat) (hT : ∀ p, touchMoveWindow p = true → T p = true)
    (hks : Has K s) : Has K (State.moveWindow s c) := by
  unfold State.moveWindow
  try dsimp only
  repeat' first
    | exact fun p hp => hT p (by simp only [touchMoveWindow, hp, Bool.or_true, Bool.true_or])
    | intro _
    | with_reducible assumption
    | with_reducible exact hks
    | with_reducible apply Has.ite
    | with_reducible apply keeps_setReg
    | with_reducible apply keeps_setRegs
    | with_reducible apply Has.foldl
    | with_reducible apply Has1.foldl
    | with_reducible exact Has1.proj (by with_reducible assumption)
    | with_reducible apply Has1.mk
    | dsimp only
    | split

def touchExecErrorRateWindow (p : Option Reg) : Bool := touchMoveWindow p

theorem keeps_execErrorRateWindow (hK : Closed T K) (s : State) (hT : ∀ p, touchExecErrorRateWindow p = true → T p =
    true) (hks : Has K s) : HasRes K (execErrorRateWindow s) := by
  unfold execErrorRateWindow
  try dsimp only
  repeat' first
    | exact fun p hp => hT p hp
    | intro _
    | with_reducible assumption
    | with_reducible exact hks
    | with_reducible apply HasRes.next
    | with_reducible apply HasRes.ite
    | with_reducible apply Has.ite
    | with_reducible apply keeps_moveWindow
    | with_reducible apply Has.foldl
    | with_reducible apply Has1.foldl
    | with_reducible exact Has1.proj (by with_reducible assumption)
    | with_reducible apply Has1.mk
    | dsimp only
    | split

end Sys2Proof.Machine
end

