-- ==== Sys2Proof/Laws/KeepsTime.lean ====
section
/-! SUPPORT. What the operations of Machine/Time.lean keep, and the registers that each may change. -/

namespace Sys2Proof.Machine

variable {T : Option Reg → Bool} {K : State → Prop}

def touchSetTai (p : Option Reg) : Bool := touchChange .taiState p

theorem keeps_setTai (hK : Closed T K) (s : State) (v : Nat) (hT : ∀ p, touchSetTai p = true → T p = true) (hks : Has
    K s) : Has K (State.setTai s v) := by
  unfold State.setTai
  try dsimp only
  repeat' first
    | exact fun p hp => hT p hp
    | intro _
    | with_reducible assumption
    | with_reducible exact hks
    | with_reducible apply Has.ite
    | with_reducible apply keeps_change
    | dsimp only
    | split

def touchFoldSlew (p : Option Reg) : Bool := touchSetReg .taiOffset p || touchSetReg .taiSlew p || touchSetReg
  .taiSlewAt p

theorem keeps_foldSlew (hK : Closed T K) (s : State) (hT : ∀ p, touchFoldSlew p = true → T p = true) (hks : Has K s) :
    Has K (State.foldSlew s) := by
  unfold State.foldSlew
  try dsimp only
  repeat' first
    | exact fun p hp => hT p (by simp only [touchFoldSlew, hp, Bool.or_true, Bool.true_or])
    | intro _
    | with_reducible assumption
    | with_reducible exact hks
    | with_reducible apply Has.ite
    | with_reducible apply keeps_setReg
    | dsimp only
    | split

def touchSteer (p : Option Reg) : Bool := touchAuditInternal p || touchFoldSlew p || touchSetReg .taiOffset p ||
  touchSetReg .taiSlew p

theorem keeps_steer (hK : Closed T K) (s : State) (d : Int) (atLock : Bool) (hT : ∀ p, touchSteer p = true → T p =
    true) (hks : Has K s) : Has K (State.steer s d atLock) := by
  unfold State.steer
  try dsimp only
  repeat' first
    | exact fun p hp => hT p (by simp only [touchSteer, hp, Bool.or_true, Bool.true_or])
    | intro _
    | with_reducible assumption
    | with_reducible exact hks
    | with_reducible apply Has.ite
    | with_reducible apply keeps_auditInternal
    | with_reducible apply keeps_foldSlew
    | with_reducible apply keeps_setReg
    | dsimp only
    | split

def touchLockTai (p : Option Reg) : Bool := touchSetReg .taiWasLocked p || touchSetTai p || touchSteer p

theorem keeps_lockTai (hK : Closed T K) (s : State) (d : Int) (code : Nat) (hT : ∀ p, touchLockTai p = true → T p =
    true) (hks : Has K s) : Has K (State.lockTai s d code) := by
  unfold State.lockTai
  try dsimp only
  repeat' first
    | exact fun p hp => hT p (by simp only [touchLockTai, hp, Bool.or_true, Bool.true_or])
    | intro _
    | with_reducible assumption
    | with_reducible exact hks
    | with_reducible apply Has.ite
    | with_reducible apply keeps_setReg
    | with_reducible apply keeps_setTai
    | with_reducible apply keeps_steer
    | dsimp only
    | split

def touchExecPtpMessage (p : Option Reg) : Bool := touchLockTai p || touchSetReg .ptpMaster p || touchSetReg
  .utcOffset p || touchSetReg .taiOffsetErr p || touchSetTai p || touchSteer p

theorem keeps_execPtpMessage (hK : Closed T K) (master : Dword) (domain : Byte) (utc offset : Int) (settled : Bool) (s
    : State) (hT : ∀ p, touchExecPtpMessage p = true → T p = true) (hks : Has K s) : HasRes K (execPtpMessage master
    domain utc offset settled s) := by
  unfold execPtpMessage
  try dsimp only
  repeat' first
    | exact fun p hp => hT p (by simp only [touchExecPtpMessage, hp, Bool.or_true, Bool.true_or])
    | intro _
    | with_reducible assumption
    | with_reducible exact hks
    | with_reducible apply HasRes.next
    | with_reducible apply HasRes.ite
    | with_reducible apply Has.ite
    | with_reducible apply keeps_lockTai
    | with_reducible apply keeps_setReg
    | with_reducible apply keeps_setTai
    | with_reducible apply keeps_steer
    | dsimp only
    | split

def touchExecPpsEdge (p : Option Reg) : Bool := touchAddReg .ppsRejected p || touchLockTai p || touchSetReg
  .taiOffsetErr p || touchSetTai p || touchSteer p

theorem keeps_execPpsEdge (hK : Closed T K) (s : State) (hT : ∀ p, touchExecPpsEdge p = true → T p = true) (hks : Has
    K s) : HasRes K (execPpsEdge s) := by
  unfold execPpsEdge
  try dsimp only
  repeat' first
    | exact fun p hp => hT p (by simp only [touchExecPpsEdge, hp, Bool.or_true, Bool.true_or])
    | intro _
    | with_reducible assumption
    | with_reducible exact hks
    | with_reducible apply HasRes.next
    | with_reducible apply HasRes.ite
    | with_reducible apply Has.ite
    | with_reducible apply keeps_addReg
    | with_reducible apply keeps_lockTai
    | with_reducible apply keeps_setReg
    | with_reducible apply keeps_setTai
    | with_reducible apply keeps_steer
    | dsimp only
    | split

def touchExecPtpReferenceSilent (p : Option Reg) : Bool := touchFoldSlew p || touchSetTai p

theorem keeps_execPtpReferenceSilent (hK : Closed T K) (s : State) (hT : ∀ p, touchExecPtpReferenceSilent p = true → T
    p = true) (hks : Has K s) : HasRes K (execPtpReferenceSilent s) := by
  unfold execPtpReferenceSilent
  try dsimp only
  repeat' first
    | exact fun p hp => hT p (by simp only [touchExecPtpReferenceSilent, hp, Bool.or_true, Bool.true_or])
    | intro _
    | with_reducible assumption
    | with_reducible exact hks
    | with_reducible apply HasRes.next
    | with_reducible apply HasRes.ite
    | with_reducible apply Has.ite
    | with_reducible apply keeps_foldSlew
    | with_reducible apply keeps_setTai
    | dsimp only
    | split

def touchRestartPtp (p : Option Reg) : Bool := touchFoldSlew p || touchSetTai p

theorem keeps_restartPtp (hK : Closed T K) (s : State) (hT : ∀ p, touchRestartPtp p = true → T p = true) (hks : Has K
    s) : Has K (State.restartPtp s) := by
  unfold State.restartPtp
  try dsimp only
  repeat' first
    | exact fun p hp => hT p (by simp only [touchRestartPtp, hp, Bool.or_true, Bool.true_or])
    | intro _
    | with_reducible assumption
    | with_reducible exact hks
    | with_reducible apply Has.ite
    | with_reducible apply keeps_foldSlew
    | with_reducible apply keeps_setTai
    | dsimp only
    | split

def touchTaiSetEffect (p : Option Reg) : Bool := touchRestartPtp p || touchSetReg .taiOffset p || touchSetReg .taiSlew
  p || touchSetReg .taiSlewAt p

theorem keeps_taiSetEffect (hK : Closed T K) (s : State) (hT : ∀ p, touchTaiSetEffect p = true → T p = true) (hks :
    Has K s) : Has K (taiSetEffect s) := by
  unfold taiSetEffect
  try dsimp only
  repeat' first
    | exact fun p hp => hT p (by simp only [touchTaiSetEffect, hp, Bool.or_true, Bool.true_or])
    | intro _
    | with_reducible assumption
    | with_reducible exact hks
    | with_reducible apply Has.ite
    | with_reducible apply keeps_restartPtp
    | with_reducible apply keeps_setReg
    | dsimp only
    | split

def touchExecTaiSetWrite (p : Option Reg) : Bool := touchWriteRequest p || touchTaiSetEffect p

theorem keeps_execTaiSetWrite (hK : Closed T K) (q : Requester) (v : Dword) (s : State) (hT : ∀ p,
    touchExecTaiSetWrite p = true → T p = true) (hks : Has K s) : HasRes K (execTaiSetWrite q v s) := by
  unfold execTaiSetWrite
  try dsimp only
  repeat' first
    | exact fun p hp => hT p (by simp only [touchExecTaiSetWrite, hp, Bool.or_true, Bool.true_or])
    | intro _
    | with_reducible assumption
    | with_reducible exact hks
    | with_reducible apply HasRes.next
    | with_reducible apply HasRes.ite
    | with_reducible apply Has.ite
    | with_reducible apply keeps_writeRequest
    | with_reducible apply keeps_taiSetEffect
    | dsimp only
    | split

def touchPeriphEffect (p : Option Reg) : Bool := touchSetTai p

theorem keeps_periphEffect (hK : Closed T K) (s : State) (hT : ∀ p, touchPeriphEffect p = true → T p = true) (hks :
    Has K s) : Has K (periphEffect s) := by
  unfold periphEffect
  try dsimp only
  repeat' first
    | exact fun p hp => hT p hp
    | intro _
    | with_reducible assumption
    | with_reducible exact hks
    | with_reducible apply Has.ite
    | with_reducible apply keeps_setTai
    | dsimp only
    | split

def touchSetIpv4 (p : Option Reg) : Bool := touchSetReg .ipv4 p || touchSetReg .ipv4Mask p || touchSetReg .ipv4Gateway
  p

theorem keeps_setIpv4 (hK : Closed T K) (s : State) (addr mask gateway : Nat) (hT : ∀ p, touchSetIpv4 p = true → T p =
    true) (hks : Has K s) : Has K (State.setIpv4 s addr mask gateway) := by
  unfold State.setIpv4
  try dsimp only
  repeat' first
    | exact fun p hp => hT p (by simp only [touchSetIpv4, hp, Bool.or_true, Bool.true_or])
    | intro _
    | with_reducible assumption
    | with_reducible exact hks
    | with_reducible apply Has.ite
    | with_reducible apply keeps_setReg
    | dsimp only
    | split

def touchTakeIpv4 (p : Option Reg) : Bool := touchSetIpv4 p

theorem keeps_takeIpv4 (hK : Closed T K) (s : State) (hT : ∀ p, touchTakeIpv4 p = true → T p = true) (hks : Has K s) :
    Has K (State.takeIpv4 s) := by
  unfold State.takeIpv4
  try dsimp only
  repeat' first
    | exact fun p hp => hT p hp
    | intro _
    | with_reducible assumption
    | with_reducible exact hks
    | with_reducible apply Has.ite
    | with_reducible apply keeps_setIpv4
    | dsimp only
    | split

def touchMgmtEffect (p : Option Reg) : Bool := touchTakeIpv4 p

theorem keeps_mgmtEffect (hK : Closed T K) (s : State) (hT : ∀ p, touchMgmtEffect p = true → T p = true) (hks : Has K
    s) : Has K (mgmtEffect s) := by
  unfold mgmtEffect
  try dsimp only
  repeat' first
    | exact fun p hp => hT p hp
    | intro _
    | with_reducible assumption
    | with_reducible exact hks
    | with_reducible apply Has.ite
    | with_reducible apply keeps_takeIpv4
    | dsimp only
    | split

def touchExecMgmtAddressRenewal (p : Option Reg) : Bool := touchSetIpv4 p || touchSetReg .mgmtLink p || touchTakeIpv4
  p

theorem keeps_execMgmtAddressRenewal (hK : Closed T K) (addr mask gateway : Word) (s : State) (hT : ∀ p,
    touchExecMgmtAddressRenewal p = true → T p = true) (hks : Has K s) : HasRes K (execMgmtAddressRenewal addr mask
    gateway s) := by
  unfold execMgmtAddressRenewal
  try dsimp only
  repeat' first
    | exact fun p hp => hT p (by simp only [touchExecMgmtAddressRenewal, hp, Bool.or_true, Bool.true_or])
    | intro _
    | with_reducible assumption
    | with_reducible exact hks
    | with_reducible apply HasRes.next
    | with_reducible apply HasRes.ite
    | with_reducible apply Has.ite
    | with_reducible apply keeps_setIpv4
    | with_reducible apply keeps_setReg
    | with_reducible apply keeps_takeIpv4
    | dsimp only
    | split

def touchExecArpRequest (p : Option Reg) : Bool := touchSend p

theorem keeps_execArpRequest (hK : Closed T K) (source : Nat) (target : Word) (s : State) (hT : ∀ p,
    touchExecArpRequest p = true → T p = true) (hks : Has K s) : HasRes K (execArpRequest source target s) := by
  unfold execArpRequest
  try dsimp only
  repeat' first
    | exact fun p hp => hT p hp
    | intro _
    | with_reducible assumption
    | with_reducible exact hks
    | with_reducible apply HasRes.next
    | with_reducible apply HasRes.ite
    | with_reducible apply Has.ite
    | with_reducible apply keeps_send
    | dsimp only
    | split

def touchExecIcmpEcho (p : Option Reg) : Bool := touchSend p

theorem keeps_execIcmpEcho (hK : Closed T K) (source : Nat) (target : Word) (data : List Byte) (s : State) (hT : ∀ p,
    touchExecIcmpEcho p = true → T p = true) (hks : Has K s) : HasRes K (execIcmpEcho source target data s) := by
  unfold execIcmpEcho
  try dsimp only
  repeat' first
    | exact fun p hp => hT p hp
    | intro _
    | with_reducible assumption
    | with_reducible exact hks
    | with_reducible apply HasRes.next
    | with_reducible apply HasRes.ite
    | with_reducible apply Has.ite
    | with_reducible apply keeps_send
    | dsimp only
    | split

end Sys2Proof.Machine
end

