-- ==== Sys2Proof/Laws/KeepsInit.lean ====
section
/-! SUPPORT. What the operations of Machine/Init.lean keep, and the registers that each may change. -/

namespace Sys2Proof.Machine

variable {T : Option Reg → Bool} {K : State → Prop}

def touchStartPairs (p : Option Reg) : Bool := touchChange .supStandbyOk p || touchChange .supActive p || touchDegrade
  p || touchLogError p

theorem keeps_startPairs (hK : Closed T K) (s : State) (f : StageFacts) (hT : ∀ p, touchStartPairs p = true → T p =
    true) (hks : Has K s) : Has K (State.startPairs s f) := by
  unfold State.startPairs
  try dsimp only
  repeat' first
    | exact fun p hp => hT p (by simp only [touchStartPairs, hp, Bool.or_true, Bool.true_or])
    | intro _
    | with_reducible assumption
    | with_reducible exact hks
    | with_reducible apply Has.ite
    | with_reducible apply keeps_change
    | with_reducible apply keeps_degrade
    | with_reducible apply keeps_logError
    | simp only [Has.same hK]
    | dsimp only
    | split

def touchLockPll (p : Option Reg) : Bool := touchChange .clkSel p || touchChange .clkPllSpare p || touchSetReg
  .pllFailed p || touchSetReg .clkReady p || touchSetReg .clkMhz p

theorem keeps_lockPll (hK : Closed T K) (s : State) (f : StageFacts) (k : Nat) (hT : ∀ p, touchLockPll p = true → T p
    = true) (hks : Has K s) : Has K (State.lockPll s f k) := by
  unfold State.lockPll
  try dsimp only
  repeat' first
    | exact fun p hp => hT p (by simp only [touchLockPll, hp, Bool.or_true, Bool.true_or])
    | intro _
    | with_reducible assumption
    | with_reducible exact hks
    | with_reducible apply Has.ite
    | with_reducible apply keeps_change
    | with_reducible apply keeps_setReg
    | dsimp only
    | split

def touchRunImage (p : Option Reg) : Bool := touchChange .fwImage p || touchChange .fwVersion p || touchChange
  .numericFw p || touchChange .transcId p

theorem keeps_runImage (hK : Closed T K) (s : State) (img : Fin 2) (hT : ∀ p, touchRunImage p = true → T p = true)
    (hks : Has K s) : Has K (State.runImage s img) := by
  unfold State.runImage
  try dsimp only
  repeat' first
    | exact fun p hp => hT p (by simp only [touchRunImage, hp, Bool.or_true, Bool.true_or])
    | intro _
    | with_reducible assumption
    | with_reducible exact hks
    | with_reducible apply Has.ite
    | with_reducible apply keeps_change
    | dsimp only
    | split

def touchInitStage1 (p : Option Reg) : Bool := touchAuditInternal p || touchChange .periphEn p || touchEnterFaulted
  p || touchLockPll p || touchRunImage p || touchSetReg .initStage p || touchSetReg .stageStarted p ||
  touchStartPairs p

theorem keeps_initStage1 (hK : Closed T K) (s : State) (f : StageFacts) (hT : ∀ p, touchInitStage1 p = true → T p =
    true) (hks : Has K s) : Has K (State.initStage1 s f) := by
  unfold State.initStage1
  try dsimp only
  repeat' first
    | exact fun p hp => hT p (by simp only [touchInitStage1, hp, Bool.or_true, Bool.true_or])
    | intro _
    | with_reducible assumption
    | with_reducible exact hks
    | with_reducible apply Has.ite
    | with_reducible apply keeps_auditInternal
    | with_reducible apply keeps_change
    | with_reducible apply keeps_enterFaulted
    | with_reducible apply keeps_lockPll
    | with_reducible apply keeps_runImage
    | with_reducible apply keeps_setReg
    | with_reducible apply keeps_startPairs
    | with_reducible apply Has.foldl
    | with_reducible apply Has1.foldl
    | with_reducible exact Has1.proj (by with_reducible assumption)
    | with_reducible apply Has1.mk
    | dsimp only
    | split

def touchFailSegment (p : Option Reg) : Bool := touchChange .bridgeState p || touchLogError p

theorem keeps_failSegment (hK : Closed T K) (s : State) (b : Fin 23) (g : Nat) (hT : ∀ p, touchFailSegment p = true →
    T p = true) (hks : Has K s) : Has K (State.failSegment s b g) := by
  unfold State.failSegment
  try dsimp only
  repeat' first
    | exact fun p hp => hT p (by simp only [touchFailSegment, hp, Bool.or_true, Bool.true_or])
    | intro _
    | with_reducible assumption
    | with_reducible exact hks
    | with_reducible apply Has.ite
    | with_reducible apply keeps_change
    | with_reducible apply keeps_logError
    | simp only [Has.same hK]
    | dsimp only
    | split

def touchInitStage2 (p : Option Reg) : Bool := touchChange .hostLink p || touchEnterFaulted p || touchFailSegment p ||
  touchSetReg .stageStarted p || touchSetReg .initStage p || touchTrainHost p

theorem keeps_initStage2 (hK : Closed T K) (s : State) (f : StageFacts) (hT : ∀ p, touchInitStage2 p = true → T p =
    true) (hks : Has K s) : Has K (State.initStage2 s f) := by
  unfold State.initStage2
  try dsimp only
  repeat' first
    | exact fun p hp => hT p (by simp only [touchInitStage2, hp, Bool.or_true, Bool.true_or])
    | intro _
    | with_reducible assumption
    | with_reducible exact hks
    | with_reducible apply Has.ite
    | with_reducible apply keeps_change
    | with_reducible apply keeps_enterFaulted
    | with_reducible apply keeps_failSegment
    | with_reducible apply keeps_setReg
    | with_reducible apply keeps_trainHost
    | with_reducible apply Has.foldl
    | with_reducible apply Has1.foldl
    | with_reducible exact Has1.proj (by with_reducible assumption)
    | with_reducible apply Has1.mk
    | dsimp only
    | split

def touchCloseEntry (p : Option Reg) : Bool := touchAddReg .journalUncertain p || touchInstallRemap p ||
  touchProgramJournal p

theorem keeps_closeEntry (hK : Closed T K) (s : State) (f : StageFacts) (k : Nat) (hT : ∀ p, touchCloseEntry p = true
    → T p = true) (hks : Has K s) : Has K (State.closeEntry s f k) := by
  unfold State.closeEntry
  try dsimp only
  repeat' first
    | exact fun p hp => hT p (by simp only [touchCloseEntry, hp, Bool.or_true, Bool.true_or])
    | intro _
    | with_reducible assumption
    | with_reducible exact hks
    | with_reducible apply Has.ite
    | with_reducible apply keeps_addReg
    | with_reducible apply keeps_installRemap
    | with_reducible apply keeps_programJournal
    | dsimp only
    | split

def touchReadJournals (p : Option Reg) : Bool := touchCloseEntry p || touchSetReg .journalUncertain p || touchSetReg
  .journalUsed p

theorem keeps_readJournals (hK : Closed T K) (s : State) (f : StageFacts) (hT : ∀ p, touchReadJournals p = true → T p
    = true) (hks : Has K s) : Has K (State.readJournals s f) := by
  unfold State.readJournals
  try dsimp only
  repeat' first
    | exact fun p hp => hT p (by simp only [touchReadJournals, hp, Bool.or_true, Bool.true_or])
    | intro _
    | with_reducible assumption
    | with_reducible exact hks
    | with_reducible apply Has.ite
    | with_reducible apply keeps_closeEntry
    | with_reducible apply keeps_setReg
    | with_reducible apply Has.foldl
    | with_reducible apply Has1.foldl
    | with_reducible exact Has1.proj (by with_reducible assumption)
    | with_reducible apply Has1.mk
    | dsimp only
    | split

def touchInitChannel (p : Option Reg) : Bool := touchDecideMapout p || touchFailBaseDie p || touchInstallRemap p ||
  touchLogError p

theorem keeps_initChannel (hK : Closed T K) (s : State) (ch : Nat) (r : PatternResult) (hT : ∀ p, touchInitChannel p
    = true → T p = true) (hks : Has K s) : Has K (State.initChannel s ch r) := by
  unfold State.initChannel
  try dsimp only
  repeat' first
    | exact fun p hp => hT p (by simp only [touchInitChannel, hp, Bool.or_true, Bool.true_or])
    | intro _
    | with_reducible assumption
    | with_reducible exact hks
    | with_reducible apply Has.ite
    | with_reducible apply keeps_decideMapout
    | with_reducible apply keeps_failBaseDie
    | with_reducible apply keeps_installRemap
    | with_reducible apply keeps_logError
    | with_reducible apply Has.foldl
    | with_reducible apply Has1.foldl
    | with_reducible exact Has1.proj (by with_reducible assumption)
    | with_reducible apply Has1.mk
    | dsimp only
    | split

def touchTakeSpareSlice (p : Option Reg) : Bool := touchChange .sliceSparesLeft p || touchDegrade p

theorem keeps_takeSpareSlice (hK : Closed T K) (s : State) (die : Nat) (hT : ∀ p, touchTakeSpareSlice p = true → T p =
    true) (hks : Has K s) : Has K (State.takeSpareSlice s die) := by
  unfold State.takeSpareSlice
  try dsimp only
  repeat' first
    | exact fun p hp => hT p (by simp only [touchTakeSpareSlice, hp, Bool.or_true, Bool.true_or])
    | intro _
    | with_reducible assumption
    | with_reducible exact hks
    | with_reducible apply Has.ite
    | with_reducible apply keeps_change
    | with_reducible apply keeps_degrade
    | dsimp only
    | split

def touchInitSlice (p : Option Reg) : Bool := touchChange .sliceState p || touchLogError p || touchPassThrough p ||
  touchSetReg .sliceMap p || touchTakeSpareSlice p

theorem keeps_initSlice (hK : Closed T K) (s : State) (die phys : Nat) (hT : ∀ p, touchInitSlice p = true → T p =
    true) (hks : Has K s) : Has K (State.initSlice s die phys) := by
  unfold State.initSlice
  try dsimp only
  repeat' first
    | exact fun p hp => hT p (by simp only [touchInitSlice, hp, Bool.or_true, Bool.true_or])
    | intro _
    | with_reducible assumption
    | with_reducible exact hks
    | with_reducible apply Has.ite
    | with_reducible apply keeps_change
    | with_reducible apply keeps_logError
    | with_reducible apply keeps_passThrough
    | with_reducible apply keeps_setReg
    | with_reducible apply keeps_takeSpareSlice
    | with_reducible apply Has.foldl
    | with_reducible apply Has1.foldl
    | with_reducible exact Has1.proj (by with_reducible assumption)
    | with_reducible apply Has1.mk
    | dsimp only
    | split

def touchCheckSlots (p : Option Reg) : Bool := touchSetSlot p || touchShowShards p || touchShowSlots p ||
  touchSnapshotInvalid p

theorem keeps_checkSlots (hK : Closed T K) (s : State) (f : StageFacts) (hT : ∀ p, touchCheckSlots p = true → T p =
    true) (hks : Has K s) : Has K (State.checkSlots s f) := by
  unfold State.checkSlots
  try dsimp only
  repeat' first
    | exact fun p hp => hT p (by simp only [touchCheckSlots, hp, Bool.or_true, Bool.true_or])
    | intro _
    | with_reducible assumption
    | with_reducible exact hks
    | with_reducible apply Has.ite
    | with_reducible apply keeps_setSlot
    | with_reducible apply keeps_showShards
    | with_reducible apply keeps_showSlots
    | with_reducible apply keeps_snapshotInvalid
    | with_reducible apply Has.foldl
    | with_reducible apply Has1.foldl
    | with_reducible exact Has1.proj (by with_reducible assumption)
    | with_reducible apply Has1.mk
    | simp only [Has.same hK]
    | dsimp only
    | split

def touchInitStage3 (p : Option Reg) : Bool := touchChange .channelState p || touchCheckSlots p || touchFailBaseDie
  p || touchInitChannel p || touchInitSlice p || touchReadJournals p || touchSetReg .initStage p || touchSetReg
  .stageStarted p

theorem keeps_initStage3 (hK : Closed T K) (s : State) (f : StageFacts) (hT : ∀ p, touchInitStage3 p = true → T p =
    true) (hks : Has K s) : Has K (State.initStage3 s f) := by
  unfold State.initStage3
  try dsimp only
  repeat' first
    | exact fun p hp => hT p (by simp only [touchInitStage3, hp, Bool.or_true, Bool.true_or])
    | intro _
    | with_reducible assumption
    | with_reducible exact hks
    | with_reducible apply Has.ite
    | with_reducible apply keeps_change
    | with_reducible apply keeps_checkSlots
    | with_reducible apply keeps_failBaseDie
    | with_reducible apply keeps_initChannel
    | with_reducible apply keeps_initSlice
    | with_reducible apply keeps_readJournals
    | with_reducible apply keeps_setReg
    | with_reducible apply Has.foldl
    | with_reducible apply Has1.foldl
    | with_reducible exact Has1.proj (by with_reducible assumption)
    | with_reducible apply Has1.mk
    | dsimp only
    | split

def touchInitBay (p : Option Reg) : Bool := touchChange .baySparesLeft p || touchChange .bayState p || touchChange
  .baysActive p || touchDegrade p || touchLogError p

theorem keeps_initBay (hK : Closed T K) (s : State) (die phys : Nat) (hT : ∀ p, touchInitBay p = true → T p = true)
    (hks : Has K s) : Has K (State.initBay s die phys) := by
  unfold State.initBay
  try dsimp only
  repeat' first
    | exact fun p hp => hT p (by simp only [touchInitBay, hp, Bool.or_true, Bool.true_or])
    | intro _
    | with_reducible assumption
    | with_reducible exact hks
    | with_reducible apply Has.ite
    | with_reducible apply keeps_change
    | with_reducible apply keeps_degrade
    | with_reducible apply keeps_logError
    | dsimp only
    | split

def touchInitCore (p : Option Reg) : Bool := touchChange .coresUsable p || touchLogError p || touchSetReg .coreFailed
  p

theorem keeps_initCore (hK : Closed T K) (s : State) (core : Nat) (hT : ∀ p, touchInitCore p = true → T p = true) (hks
    : Has K s) : Has K (State.initCore s core) := by
  unfold State.initCore
  try dsimp only
  repeat' first
    | exact fun p hp => hT p (by simp only [touchInitCore, hp, Bool.or_true, Bool.true_or])
    | intro _
    | with_reducible assumption
    | with_reducible exact hks
    | with_reducible apply Has.ite
    | with_reducible apply keeps_change
    | with_reducible apply keeps_logError
    | with_reducible apply keeps_setReg
    | simp only [Has.same hK]
    | dsimp only
    | split

def touchPlaceHarts (p : Option Reg) : Bool := touchChange .coreReserveLeft p || touchChangeAll .hartMap p ||
  touchClearReg .hartMap p

theorem keeps_placeHarts (hK : Closed T K) (s : State) (hT : ∀ p, touchPlaceHarts p = true → T p = true) (hks : Has K
    s) : Has K (State.placeHarts s) := by
  unfold State.placeHarts
  try dsimp only
  repeat' first
    | exact fun p hp => hT p (by simp only [touchPlaceHarts, hp, Bool.or_true, Bool.true_or])
    | intro _
    | with_reducible assumption
    | with_reducible exact hks
    | with_reducible apply Has.ite
    | with_reducible apply keeps_change
    | with_reducible apply keeps_changeAll
    | with_reducible apply keeps_clearReg
    | dsimp only
    | split

def touchInitStage4 (p : Option Reg) : Bool := touchChange .couplerState p || touchCountModels p ||
  touchEnterFaulted p || touchInitBay p || touchInitCore p || touchLogError p || touchPlaceBays p || touchPlaceHarts
  p || touchSetReg .initStage p || touchSetReg .stageStarted p

theorem keeps_initStage4 (hK : Closed T K) (s : State) (f : StageFacts) (hT : ∀ p, touchInitStage4 p = true → T p =
    true) (hks : Has K s) : Has K (State.initStage4 s f) := by
  unfold State.initStage4
  try dsimp only
  repeat' first
    | exact fun p hp => hT p (by simp only [touchInitStage4, hp, Bool.or_true, Bool.true_or])
    | intro _
    | with_reducible assumption
    | with_reducible exact hks
    | with_reducible apply Has.ite
    | with_reducible apply keeps_change
    | with_reducible apply keeps_countModels
    | with_reducible apply keeps_enterFaulted
    | with_reducible apply keeps_initBay
    | with_reducible apply keeps_initCore
    | with_reducible apply keeps_logError
    | with_reducible apply keeps_placeBays
    | with_reducible apply keeps_placeHarts
    | with_reducible apply keeps_setReg
    | with_reducible apply Has.foldl
    | with_reducible apply Has1.foldl
    | with_reducible exact Has1.proj (by with_reducible assumption)
    | with_reducible apply Has1.mk
    | dsimp only
    | split

def touchInitStage5 (p : Option Reg) : Bool := touchSetReg .stage5Waits p || touchSetReg .stageStarted p ||
  touchSetReg .initStage p

theorem keeps_initStage5 (hK : Closed T K) (s : State) (hT : ∀ p, touchInitStage5 p = true → T p = true) (hks : Has K
    s) : Has K (State.initStage5 s) := by
  unfold State.initStage5
  try dsimp only
  repeat' first
    | exact fun p hp => hT p (by simp only [touchInitStage5, hp, Bool.or_true, Bool.true_or])
    | intro _
    | with_reducible assumption
    | with_reducible exact hks
    | with_reducible apply Has.ite
    | with_reducible apply keeps_setReg
    | dsimp only
    | split

def touchInitStage6 (p : Option Reg) : Bool := touchEnter p || touchSetReg .squallScore16 p || touchSetReg .squallAt p
  || touchSetReg .squallAllowStack p || touchSetReg .squallAllowLink p || touchSetReg .freezeState p || touchSetReg
  .stageStarted p || touchSetReg .initStage p || touchSetReg .initEnded p

theorem keeps_initStage6 (hK : Closed T K) (s : State) (f : StageFacts) (hT : ∀ p, touchInitStage6 p = true → T p =
    true) (hks : Has K s) : Has K (State.initStage6 s f) := by
  unfold State.initStage6
  try dsimp only
  repeat' first
    | exact fun p hp => hT p (by simp only [touchInitStage6, hp, Bool.or_true, Bool.true_or])
    | intro _
    | with_reducible assumption
    | with_reducible exact hks
    | with_reducible apply Has.ite
    | with_reducible apply keeps_enter
    | with_reducible apply keeps_setReg
    | with_reducible apply Has.foldl
    | with_reducible apply Has1.foldl
    | with_reducible exact Has1.proj (by with_reducible assumption)
    | with_reducible apply Has1.mk
    | dsimp only
    | split

def touchExecInitStageComplete (p : Option Reg) : Bool := touchInitStage1 p || touchInitStage2 p || touchInitStage3 p
  || touchInitStage4 p || touchInitStage5 p || touchInitStage6 p

theorem keeps_execInitStageComplete (hK : Closed T K) (facts : StageFacts) (s : State) (hT : ∀ p,
    touchExecInitStageComplete p = true → T p = true) (hks : Has K s) : HasRes K (execInitStageComplete facts s) := by
  unfold execInitStageComplete
  try dsimp only
  repeat' first
    | exact fun p hp => hT p (by simp only [touchExecInitStageComplete, hp, Bool.or_true, Bool.true_or])
    | intro _
    | with_reducible assumption
    | with_reducible exact hks
    | with_reducible apply HasRes.next
    | with_reducible apply HasRes.ite
    | with_reducible apply Has.ite
    | with_reducible apply keeps_initStage1
    | with_reducible apply keeps_initStage2
    | with_reducible apply keeps_initStage3
    | with_reducible apply keeps_initStage4
    | with_reducible apply keeps_initStage5
    | with_reducible apply keeps_initStage6
    | dsimp only
    | split

end Sys2Proof.Machine
end

