-- ==== Sys2Proof/Laws/KeepsObjects.lean ====
section
/-! SUPPORT. What the operations of Machine/Objects.lean keep, and the registers that each may change. -/

namespace Sys2Proof.Machine

variable {T : Option Reg → Bool} {K : State → Prop}

def touchServeRead (p : Option Reg) : Bool := touchCountRefused p || touchNoteGated p

theorem keeps_serveRead (hK : Closed T K) (s : State) (q : Requester) (addr off len : Nat) (hT : ∀ p, touchServeRead p
    = true → T p = true) (hks : Has K s) : Has3 K (State.serveRead s q addr off len) := by
  unfold State.serveRead
  try dsimp only
  repeat' first
    | exact fun p hp => hT p (by simp only [touchServeRead, hp, Bool.or_true, Bool.true_or])
    | intro _
    | with_reducible assumption
    | with_reducible exact hks
    | with_reducible apply Has3.mk
    | with_reducible apply Has3.ite
    | with_reducible apply Has.ite
    | with_reducible apply keeps_countRefused
    | with_reducible apply keeps_noteGated
    | dsimp only
    | split

def touchClampClocks (p : Option Reg) : Bool := touchSetRate p

theorem keeps_clampClocks (hK : Closed T K) (s : State) (hT : ∀ p, touchClampClocks p = true → T p = true) (hks : Has
    K s) : Has K (State.clampClocks s) := by
  unfold State.clampClocks
  try dsimp only
  repeat' first
    | exact fun p hp => hT p hp
    | intro _
    | with_reducible assumption
    | with_reducible exact hks
    | with_reducible apply Has.ite
    | with_reducible apply keeps_setRate
    | with_reducible apply Has.foldl
    | with_reducible apply Has1.foldl
    | with_reducible exact Has1.proj (by with_reducible assumption)
    | with_reducible apply Has1.mk
    | dsimp only
    | split

def touchAckHost (p : Option Reg) : Bool := touchRefreshAcked p || touchSetReg .hostHoldAcked p

theorem keeps_ackHost (hK : Closed T K) (s : State) (hT : ∀ p, touchAckHost p = true → T p = true) (hks : Has K s) :
    Has K (ackHost s) := by
  unfold ackHost
  try dsimp only
  repeat' first
    | exact fun p hp => hT p (by simp only [touchAckHost, hp, Bool.or_true, Bool.true_or])
    | intro _
    | with_reducible assumption
    | with_reducible exact hks
    | with_reducible apply Has.ite
    | with_reducible apply keeps_refreshAcked
    | with_reducible apply keeps_setReg
    | dsimp only
    | split

def touchHoldHost (p : Option Reg) : Bool := touchRefreshAcked p || touchSetReg .hostHoldAcked p

theorem keeps_holdHost (hK : Closed T K) (s : State) (hT : ∀ p, touchHoldHost p = true → T p = true) (hks : Has K s) :
    Has K (holdHost s) := by
  unfold holdHost
  try dsimp only
  repeat' first
    | exact fun p hp => hT p (by simp only [touchHoldHost, hp, Bool.or_true, Bool.true_or])
    | intro _
    | with_reducible assumption
    | with_reducible exact hks
    | with_reducible apply Has.ite
    | with_reducible apply keeps_refreshAcked
    | with_reducible apply keeps_setReg
    | dsimp only
    | split

def touchObjectEffect (_ : Reg) (_ : Option Reg) : Bool := true

theorem keeps_objectEffect (hK : Closed T K) (old : State) (r : Reg) (inst : Nat) (bs : List Byte) (s : State) (hT : ∀
    p, touchObjectEffect r p = true → T p = true) (hkold : Has K old) (hks : Has K s) : Has K (objectEffect old r inst
    bs s) := by
  unfold objectEffect
  try dsimp only
  repeat' first
    | exact fun p _ => hT p rfl
    | intro _
    | with_reducible assumption
    | with_reducible exact hkold
    | with_reducible exact hks
    | with_reducible apply Has.ite
    | with_reducible apply keeps_clampClocks
    | with_reducible apply keeps_fitRoster
    | with_reducible apply keeps_installEpoch
    | with_reducible apply keeps_noteBlocked
    | with_reducible apply keeps_placeHarts
    | with_reducible apply keeps_recover
    | with_reducible apply keeps_restartPtp
    | with_reducible apply keeps_resume
    | with_reducible apply keeps_setReg
    | with_reducible apply keeps_ackHost
    | with_reducible apply keeps_clearLatencies
    | with_reducible apply keeps_enableQueue
    | with_reducible apply keeps_freezeCommand
    | with_reducible apply keeps_holdHost
    | with_reducible apply keeps_linkCommand
    | with_reducible apply keeps_locationEffect
    | with_reducible apply keeps_mgmtEffect
    | with_reducible apply keeps_periphEffect
    | with_reducible apply keeps_serviceEffect
    | with_reducible apply keeps_startSwitch
    | with_reducible apply keeps_taiSetEffect
    | with_reducible apply Has.foldl
    | with_reducible apply Has1.foldl
    | with_reducible exact Has1.proj (by with_reducible assumption)
    | with_reducible apply Has1.mk
    | dsimp only
    | split

def touchWriteAny (_ : Option Reg) : Bool := true

theorem keeps_writeAny (hK : Closed T K) (s : State) (q : Requester) (addr : Nat) (bs : List Byte) (peers : Option
    Half) (hT : ∀ p, touchWriteAny p = true → T p = true) (hks : Has K s) : Has2 K (State.writeAny s q addr bs peers)
    := by
  unfold State.writeAny
  try dsimp only
  repeat' first
    | exact fun p _ => hT p rfl
    | intro _
    | with_reducible assumption
    | with_reducible exact hks
    | with_reducible apply Has2.mk
    | with_reducible apply Has2.ite
    | with_reducible apply Has.ite
    | with_reducible apply keeps_serveWrite
    | with_reducible apply keeps_objectEffect
    | with_reducible refine Has2.of_eq ?_ (by assumption)
    | (with_reducible apply Has2.proj; with_reducible apply keeps_serveWrite)
    | dsimp only
    | split

def touchDropAssemblies (_ : Option Reg) : Bool := false

theorem keeps_dropAssemblies (hK : Closed T K) (s : State) (q : Requester)  (hks : Has K s) : Has K
    (State.dropAssemblies s q) := by
  unfold State.dropAssemblies
  try dsimp only
  repeat' first
    | intro _
    | with_reducible assumption
    | with_reducible exact hks
    | with_reducible apply Has.ite
    | simp only [Has.same hK]
    | dsimp only
    | split

def touchWritePiece (p : Option Reg) : Bool := touchCountRefused p || touchDropAssemblies p || touchWriteAny p

theorem keeps_writePiece (hK : Closed T K) (s : State) (q : Requester) (addr off : Nat) (bs : List Byte) (peers :
    Option Half) (hT : ∀ p, touchWritePiece p = true → T p = true) (hks : Has K s) : Has2 K (State.writePiece s q addr
    off bs peers) := by
  unfold State.writePiece
  try dsimp only
  repeat' first
    | exact fun p hp => hT p (by simp only [touchWritePiece, hp, Bool.or_true, Bool.true_or])
    | intro _
    | with_reducible assumption
    | with_reducible exact hks
    | with_reducible apply Has2.mk
    | with_reducible apply Has2.ite
    | with_reducible apply Has.ite
    | with_reducible apply keeps_countRefused
    | with_reducible apply keeps_dropAssemblies
    | with_reducible apply keeps_writeAny
    | with_reducible apply Has.foldl
    | with_reducible apply Has1.foldl
    | with_reducible exact Has1.proj (by with_reducible assumption)
    | with_reducible apply Has1.mk
    | simp only [Has.same hK]
    | with_reducible refine Has2.of_eq ?_ (by assumption)
    | (with_reducible apply Has2.proj; with_reducible apply keeps_writeAny)
    | dsimp only
    | split

def touchExecObjectWrite (p : Option Reg) : Bool := touchAnswer p || touchWritePiece p

theorem keeps_execObjectWrite (hK : Closed T K) (q : Requester) (obj : ObjAddr) (offset : Word) (data : List Byte)
    (peers : Option Half) (s : State) (hT : ∀ p, touchExecObjectWrite p = true → T p = true) (hks : Has K s) : HasRes
    K (execObjectWrite q obj offset data peers s) := by
  unfold execObjectWrite
  try dsimp only
  repeat' first
    | exact fun p hp => hT p (by simp only [touchExecObjectWrite, hp, Bool.or_true, Bool.true_or])
    | intro _
    | with_reducible assumption
    | with_reducible exact hks
    | with_reducible apply HasRes.next
    | with_reducible apply HasRes.ite
    | with_reducible apply Has.ite
    | with_reducible apply keeps_answer
    | with_reducible apply keeps_writePiece
    | with_reducible refine Has2.of_eq ?_ (by assumption)
    | (with_reducible apply Has2.proj; with_reducible apply keeps_writePiece)
    | dsimp only
    | split

def touchExecBlobAssemblyTimeout (p : Option Reg) : Bool := touchDropAssemblies p

theorem keeps_execBlobAssemblyTimeout (hK : Closed T K) (q : Requester) (s : State) (hT : ∀ p,
    touchExecBlobAssemblyTimeout p = true → T p = true) (hks : Has K s) : HasRes K (execBlobAssemblyTimeout q s) := by
  unfold execBlobAssemblyTimeout
  try dsimp only
  repeat' first
    | exact fun p hp => hT p hp
    | intro _
    | with_reducible assumption
    | with_reducible exact hks
    | with_reducible apply HasRes.next
    | with_reducible apply HasRes.ite
    | with_reducible apply Has.ite
    | with_reducible apply keeps_dropAssemblies
    | dsimp only
    | split

def touchExecDictAnswerLate (p : Option Reg) : Bool := touchAddReg .dictLate p || touchLogError p

theorem keeps_execDictAnswerLate (hK : Closed T K) (s : State) (hT : ∀ p, touchExecDictAnswerLate p = true → T p =
    true) (hks : Has K s) : HasRes K (execDictAnswerLate s) := by
  unfold execDictAnswerLate
  try dsimp only
  repeat' first
    | exact fun p hp => hT p (by simp only [touchExecDictAnswerLate, hp, Bool.or_true, Bool.true_or])
    | intro _
    | with_reducible assumption
    | with_reducible exact hks
    | with_reducible apply HasRes.next
    | with_reducible apply HasRes.ite
    | with_reducible apply Has.ite
    | with_reducible apply keeps_addReg
    | with_reducible apply keeps_logError
    | simp only [Has.same hK]
    | dsimp only
    | split

def touchExecAuditMirrorCopy (p : Option Reg) : Bool := touchRefreshAcked p || touchSetReg .auditMirrorHead p

theorem keeps_execAuditMirrorCopy (hK : Closed T K) (s : State) (hT : ∀ p, touchExecAuditMirrorCopy p = true → T p =
    true) (hks : Has K s) : HasRes K (execAuditMirrorCopy s) := by
  unfold execAuditMirrorCopy
  try dsimp only
  repeat' first
    | exact fun p hp => hT p (by simp only [touchExecAuditMirrorCopy, hp, Bool.or_true, Bool.true_or])
    | intro _
    | with_reducible assumption
    | with_reducible exact hks
    | with_reducible apply HasRes.next
    | with_reducible apply HasRes.ite
    | with_reducible apply Has.ite
    | with_reducible apply keeps_refreshAcked
    | with_reducible apply keeps_setReg
    | simp only [Has.same hK]
    | dsimp only
    | split

def touchExecAuditAckHostWrite (p : Option Reg) : Bool := touchWriteRequest p || touchAckHost p

theorem keeps_execAuditAckHostWrite (hK : Closed T K) (q : Requester) (v : Dword) (s : State) (hT : ∀ p,
    touchExecAuditAckHostWrite p = true → T p = true) (hks : Has K s) : HasRes K (execAuditAckHostWrite q v s) := by
  unfold execAuditAckHostWrite
  try dsimp only
  repeat' first
    | exact fun p hp => hT p (by simp only [touchExecAuditAckHostWrite, hp, Bool.or_true, Bool.true_or])
    | intro _
    | with_reducible assumption
    | with_reducible exact hks
    | with_reducible apply HasRes.next
    | with_reducible apply HasRes.ite
    | with_reducible apply Has.ite
    | with_reducible apply keeps_writeRequest
    | with_reducible apply keeps_ackHost
    | dsimp only
    | split

def touchExecAuditHostHoldWrite (p : Option Reg) : Bool := touchWriteRequest p || touchHoldHost p

theorem keeps_execAuditHostHoldWrite (hK : Closed T K) (q : Requester) (v : Byte) (s : State) (hT : ∀ p,
    touchExecAuditHostHoldWrite p = true → T p = true) (hks : Has K s) : HasRes K (execAuditHostHoldWrite q v s) := by
  unfold execAuditHostHoldWrite
  try dsimp only
  repeat' first
    | exact fun p hp => hT p (by simp only [touchExecAuditHostHoldWrite, hp, Bool.or_true, Bool.true_or])
    | intro _
    | with_reducible assumption
    | with_reducible exact hks
    | with_reducible apply HasRes.next
    | with_reducible apply HasRes.ite
    | with_reducible apply Has.ite
    | with_reducible apply keeps_writeRequest
    | with_reducible apply keeps_holdHost
    | dsimp only
    | split

end Sys2Proof.Machine
end

