-- ==== Sys2Proof/Laws/KeepsSessions.lean ====
section
/-! SUPPORT. What the operations of Machine/Sessions.lean keep, and the registers that each may change. -/

namespace Sys2Proof.Machine

variable {T : Option Reg → Bool} {K : State → Prop}

def touchEndSession (p : Option Reg) : Bool := touchRefreshAcked p

theorem keeps_endSession (hK : Closed T K) (s : State) (p : Port) (id : Nat) (hT : ∀ p, touchEndSession p = true → T p
    = true) (hks : Has K s) : Has K (State.endSession s p id) := by
  unfold State.endSession
  try dsimp only
  repeat' first
    | exact fun p hp => hT p hp
    | intro _
    | with_reducible assumption
    | with_reducible exact hks
    | with_reducible apply Has.ite
    | with_reducible apply keeps_refreshAcked
    | simp only [Has.same hK]
    | dsimp only
    | split

def touchSign (p : Option Reg) : Bool := touchDraw p

theorem keeps_sign (hK : Closed T K) (s : State) (hT : ∀ p, touchSign p = true → T p = true) (hks : Has K s) : Has2 K
    (State.sign s) := by
  unfold State.sign
  try dsimp only
  repeat' first
    | exact fun p hp => hT p hp
    | intro _
    | with_reducible assumption
    | with_reducible exact hks
    | with_reducible apply Has2.mk
    | with_reducible apply Has2.ite
    | with_reducible apply Has.ite
    | with_reducible apply keeps_draw
    | with_reducible refine Has2.of_eq ?_ (by assumption)
    | (with_reducible apply Has2.proj; with_reducible apply keeps_draw)
    | dsimp only
    | split

def touchSpdm (p : Option Reg) : Bool := touchEndSession p || touchFinish p || touchSign p

theorem keeps_spdm (hK : Closed T K) (s : State) (q : Requester) (m : SpdmRequest) (hT : ∀ p, touchSpdm p = true → T p
    = true) (hks : Has K s) : Has2 K (State.spdm s q m) := by
  unfold State.spdm
  try dsimp only
  repeat' first
    | exact fun p hp => hT p (by simp only [touchSpdm, hp, Bool.or_true, Bool.true_or])
    | intro _
    | with_reducible assumption
    | with_reducible exact hks
    | with_reducible apply Has2.mk
    | with_reducible apply Has2.ite
    | with_reducible apply Has.ite
    | with_reducible apply keeps_endSession
    | with_reducible apply keeps_finish
    | with_reducible apply keeps_sign
    | simp only [Has.same hK]
    | with_reducible refine Has2.of_eq ?_ (by assumption)
    | (with_reducible apply Has2.proj; with_reducible apply keeps_sign)
    | dsimp only
    | split

def touchServeSpdm (p : Option Reg) : Bool := touchSend p || touchSpdm p

theorem keeps_serveSpdm (hK : Closed T K) (s : State) (q : Requester) (m : SpdmRequest) (hT : ∀ p, touchServeSpdm p =
    true → T p = true) (hks : Has K s) : Has K (State.serveSpdm s q m) := by
  unfold State.serveSpdm
  try dsimp only
  repeat' first
    | exact fun p hp => hT p (by simp only [touchServeSpdm, hp, Bool.or_true, Bool.true_or])
    | intro _
    | with_reducible assumption
    | with_reducible exact hks
    | with_reducible apply Has.ite
    | with_reducible apply keeps_send
    | with_reducible apply keeps_spdm
    | with_reducible refine Has2.of_eq ?_ (by assumption)
    | (with_reducible apply Has2.proj; with_reducible apply keeps_spdm)
    | dsimp only
    | split

def touchExecGetVersion (p : Option Reg) : Bool := touchServeSpdm p

theorem keeps_execGetVersion (hK : Closed T K) (q : Requester) (s : State) (hT : ∀ p, touchExecGetVersion p = true → T
    p = true) (hks : Has K s) : HasRes K (execGetVersion q s) := by
  unfold execGetVersion
  try dsimp only
  repeat' first
    | exact fun p hp => hT p hp
    | intro _
    | with_reducible assumption
    | with_reducible exact hks
    | with_reducible apply HasRes.next
    | with_reducible apply HasRes.ite
    | with_reducible apply Has.ite
    | with_reducible apply keeps_serveSpdm
    | dsimp only
    | split

def touchExecGetCapabilities (p : Option Reg) : Bool := touchServeSpdm p

theorem keeps_execGetCapabilities (hK : Closed T K) (q : Requester) (s : State) (hT : ∀ p, touchExecGetCapabilities p
    = true → T p = true) (hks : Has K s) : HasRes K (execGetCapabilities q s) := by
  unfold execGetCapabilities
  try dsimp only
  repeat' first
    | exact fun p hp => hT p hp
    | intro _
    | with_reducible assumption
    | with_reducible exact hks
    | with_reducible apply HasRes.next
    | with_reducible apply HasRes.ite
    | with_reducible apply Has.ite
    | with_reducible apply keeps_serveSpdm
    | dsimp only
    | split

def touchExecNegotiateAlgorithms (p : Option Reg) : Bool := touchServeSpdm p

theorem keeps_execNegotiateAlgorithms (hK : Closed T K) (q : Requester) (s : State) (hT : ∀ p,
    touchExecNegotiateAlgorithms p = true → T p = true) (hks : Has K s) : HasRes K (execNegotiateAlgorithms q s) := by
  unfold execNegotiateAlgorithms
  try dsimp only
  repeat' first
    | exact fun p hp => hT p hp
    | intro _
    | with_reducible assumption
    | with_reducible exact hks
    | with_reducible apply HasRes.next
    | with_reducible apply HasRes.ite
    | with_reducible apply Has.ite
    | with_reducible apply keeps_serveSpdm
    | dsimp only
    | split

def touchExecGetDigests (p : Option Reg) : Bool := touchServeSpdm p

theorem keeps_execGetDigests (hK : Closed T K) (q : Requester) (s : State) (hT : ∀ p, touchExecGetDigests p = true → T
    p = true) (hks : Has K s) : HasRes K (execGetDigests q s) := by
  unfold execGetDigests
  try dsimp only
  repeat' first
    | exact fun p hp => hT p hp
    | intro _
    | with_reducible assumption
    | with_reducible exact hks
    | with_reducible apply HasRes.next
    | with_reducible apply HasRes.ite
    | with_reducible apply Has.ite
    | with_reducible apply keeps_serveSpdm
    | dsimp only
    | split

def touchExecGetCertificate (p : Option Reg) : Bool := touchServeSpdm p

theorem keeps_execGetCertificate (hK : Closed T K) (q : Requester) (slot : Byte) (offset len : Half) (s : State) (hT :
    ∀ p, touchExecGetCertificate p = true → T p = true) (hks : Has K s) : HasRes K (execGetCertificate q slot offset
    len s) := by
  unfold execGetCertificate
  try dsimp only
  repeat' first
    | exact fun p hp => hT p hp
    | intro _
    | with_reducible assumption
    | with_reducible exact hks
    | with_reducible apply HasRes.next
    | with_reducible apply HasRes.ite
    | with_reducible apply Has.ite
    | with_reducible apply keeps_serveSpdm
    | dsimp only
    | split

def touchExecChallenge (p : Option Reg) : Bool := touchServeSpdm p

theorem keeps_execChallenge (hK : Closed T K) (q : Requester) (s : State) (hT : ∀ p, touchExecChallenge p = true → T p
    = true) (hks : Has K s) : HasRes K (execChallenge q s) := by
  unfold execChallenge
  try dsimp only
  repeat' first
    | exact fun p hp => hT p hp
    | intro _
    | with_reducible assumption
    | with_reducible exact hks
    | with_reducible apply HasRes.next
    | with_reducible apply HasRes.ite
    | with_reducible apply Has.ite
    | with_reducible apply keeps_serveSpdm
    | dsimp only
    | split

def touchExecGetMeasurements (p : Option Reg) : Bool := touchServeSpdm p

theorem keeps_execGetMeasurements (hK : Closed T K) (q : Requester) (index : Byte) (s : State) (hT : ∀ p,
    touchExecGetMeasurements p = true → T p = true) (hks : Has K s) : HasRes K (execGetMeasurements q index s) := by
  unfold execGetMeasurements
  try dsimp only
  repeat' first
    | exact fun p hp => hT p hp
    | intro _
    | with_reducible assumption
    | with_reducible exact hks
    | with_reducible apply HasRes.next
    | with_reducible apply HasRes.ite
    | with_reducible apply Has.ite
    | with_reducible apply keeps_serveSpdm
    | dsimp only
    | split

def touchExecKeyExchange (p : Option Reg) : Bool := touchServeSpdm p

theorem keeps_execKeyExchange (hK : Closed T K) (q : Requester) (id : Word) (s : State) (hT : ∀ p,
    touchExecKeyExchange p = true → T p = true) (hks : Has K s) : HasRes K (execKeyExchange q id s) := by
  unfold execKeyExchange
  try dsimp only
  repeat' first
    | exact fun p hp => hT p hp
    | intro _
    | with_reducible assumption
    | with_reducible exact hks
    | with_reducible apply HasRes.next
    | with_reducible apply HasRes.ite
    | with_reducible apply Has.ite
    | with_reducible apply keeps_serveSpdm
    | dsimp only
    | split

def touchExecFinish (p : Option Reg) : Bool := touchFinish p || touchServeSpdm p

theorem keeps_execFinish (hK : Closed T K) (q : Requester) (id : Word) (leaf root : BitVec 384) (verified : Bool) (s :
    State) (hT : ∀ p, touchExecFinish p = true → T p = true) (hks : Has K s) : HasRes K (execFinish q id leaf root
    verified s) := by
  unfold execFinish
  try dsimp only
  repeat' first
    | exact fun p hp => hT p (by simp only [touchExecFinish, hp, Bool.or_true, Bool.true_or])
    | intro _
    | with_reducible assumption
    | with_reducible exact hks
    | with_reducible apply HasRes.next
    | with_reducible apply HasRes.ite
    | with_reducible apply Has.ite
    | with_reducible apply keeps_finish
    | with_reducible apply keeps_serveSpdm
    | dsimp only
    | split

def touchExecHeartbeat (p : Option Reg) : Bool := touchServeSpdm p

theorem keeps_execHeartbeat (hK : Closed T K) (q : Requester) (s : State) (hT : ∀ p, touchExecHeartbeat p = true → T p
    = true) (hks : Has K s) : HasRes K (execHeartbeat q s) := by
  unfold execHeartbeat
  try dsimp only
  repeat' first
    | exact fun p hp => hT p hp
    | intro _
    | with_reducible assumption
    | with_reducible exact hks
    | with_reducible apply HasRes.next
    | with_reducible apply HasRes.ite
    | with_reducible apply Has.ite
    | with_reducible apply keeps_serveSpdm
    | dsimp only
    | split

def touchExecKeyUpdate (p : Option Reg) : Bool := touchServeSpdm p

theorem keeps_execKeyUpdate (hK : Closed T K) (q : Requester) (s : State) (hT : ∀ p, touchExecKeyUpdate p = true → T p
    = true) (hks : Has K s) : HasRes K (execKeyUpdate q s) := by
  unfold execKeyUpdate
  try dsimp only
  repeat' first
    | exact fun p hp => hT p hp
    | intro _
    | with_reducible assumption
    | with_reducible exact hks
    | with_reducible apply HasRes.next
    | with_reducible apply HasRes.ite
    | with_reducible apply Has.ite
    | with_reducible apply keeps_serveSpdm
    | dsimp only
    | split

def touchExecEndSession (p : Option Reg) : Bool := touchEndSession p || touchServeSpdm p

theorem keeps_execEndSession (hK : Closed T K) (q : Requester) (s : State) (hT : ∀ p, touchExecEndSession p = true → T
    p = true) (hks : Has K s) : HasRes K (execEndSession q s) := by
  unfold execEndSession
  try dsimp only
  repeat' first
    | exact fun p hp => hT p (by simp only [touchExecEndSession, hp, Bool.or_true, Bool.true_or])
    | intro _
    | with_reducible assumption
    | with_reducible exact hks
    | with_reducible apply HasRes.next
    | with_reducible apply HasRes.ite
    | with_reducible apply Has.ite
    | with_reducible apply keeps_endSession
    | with_reducible apply keeps_serveSpdm
    | dsimp only
    | split

def touchExecHeartbeatMissed (p : Option Reg) : Bool := touchEndSession p

theorem keeps_execHeartbeatMissed (hK : Closed T K) (port : Port) (id : Word) (s : State) (hT : ∀ p,
    touchExecHeartbeatMissed p = true → T p = true) (hks : Has K s) : HasRes K (execHeartbeatMissed port id s) := by
  unfold execHeartbeatMissed
  try dsimp only
  repeat' first
    | exact fun p hp => hT p hp
    | intro _
    | with_reducible assumption
    | with_reducible exact hks
    | with_reducible apply HasRes.next
    | with_reducible apply HasRes.ite
    | with_reducible apply Has.ite
    | with_reducible apply keeps_endSession
    | dsimp only
    | split

end Sys2Proof.Machine
end

