-- ==== Sys2Proof/Laws/KeepsPorts.lean ====
section
/-! SUPPORT. What the operations of Machine/Ports.lean keep, and the registers that each may change. -/

namespace Sys2Proof.Machine

variable {T : Option Reg → Bool} {K : State → Prop}

def touchSetWindow (p : Option Reg) : Bool := touchSetReg .winAddr p || touchSetReg .winCmd p || touchSetReg .winLen
  p || touchSetReg .winOffset p || touchSetReg .winSeq p

theorem keeps_setWindow (hK : Closed T K) (s : State) (cmd : Nat) (addr : Nat) (offset len seq : Nat) (hT : ∀ p,
    touchSetWindow p = true → T p = true) (hks : Has K s) : Has K (State.setWindow s cmd addr offset len seq) := by
  unfold State.setWindow
  try dsimp only
  repeat' first
    | exact fun p hp => hT p (by simp only [touchSetWindow, hp, Bool.or_true, Bool.true_or])
    | intro _
    | with_reducible assumption
    | with_reducible exact hks
    | with_reducible apply Has.ite
    | with_reducible apply keeps_setReg
    | dsimp only
    | split

def touchWindowDone (p : Option Reg) : Bool := touchSetReg .winError p || touchSetReg .winStatus p

theorem keeps_windowDone (hK : Closed T K) (s : State) (code : Nat) (hT : ∀ p, touchWindowDone p = true → T p = true)
    (hks : Has K s) : Has K (State.windowDone s code) := by
  unfold State.windowDone
  try dsimp only
  repeat' first
    | exact fun p hp => hT p (by simp only [touchWindowDone, hp, Bool.or_true, Bool.true_or])
    | intro _
    | with_reducible assumption
    | with_reducible exact hks
    | with_reducible apply Has.ite
    | with_reducible apply keeps_setReg
    | dsimp only
    | split

def touchExecWinCmdRead (p : Option Reg) : Bool := touchCountRefused p || touchServeRead p || touchSetRegs .winData p
  || touchSetWindow p || touchWindowDone p

theorem keeps_execWinCmdRead (hK : Closed T K) (addr offset len : Word) (seq : Dword) (s : State) (hT : ∀ p,
    touchExecWinCmdRead p = true → T p = true) (hks : Has K s) : HasRes K (execWinCmdRead addr offset len seq s) := by
  unfold execWinCmdRead
  try dsimp only
  repeat' first
    | exact fun p hp => hT p (by simp only [touchExecWinCmdRead, hp, Bool.or_true, Bool.true_or])
    | intro _
    | with_reducible assumption
    | with_reducible exact hks
    | with_reducible apply HasRes.next
    | with_reducible apply HasRes.ite
    | with_reducible apply Has.ite
    | with_reducible apply keeps_countRefused
    | with_reducible apply keeps_serveRead
    | with_reducible apply keeps_setRegs
    | with_reducible apply keeps_setWindow
    | with_reducible apply keeps_windowDone
    | with_reducible refine Has3.of_eq ?_ (by assumption)
    | (with_reducible apply Has3.proj; with_reducible apply keeps_serveRead)
    | dsimp only
    | split

def touchExecWinCmdWrite (p : Option Reg) : Bool := touchCountRefused p || touchSetRegs .winData p || touchSetWindow p
  || touchWindowDone p || touchWritePiece p

theorem keeps_execWinCmdWrite (hK : Closed T K) (addr offset : Word) (seq : Dword) (data : List Byte) (peers : Option
    Half) (s : State) (hT : ∀ p, touchExecWinCmdWrite p = true → T p = true) (hks : Has K s) : HasRes K
    (execWinCmdWrite addr offset seq data peers s) := by
  unfold execWinCmdWrite
  try dsimp only
  repeat' first
    | exact fun p hp => hT p (by simp only [touchExecWinCmdWrite, hp, Bool.or_true, Bool.true_or])
    | intro _
    | with_reducible assumption
    | with_reducible exact hks
    | with_reducible apply HasRes.next
    | with_reducible apply HasRes.ite
    | with_reducible apply Has.ite
    | with_reducible apply keeps_countRefused
    | with_reducible apply keeps_setRegs
    | with_reducible apply keeps_setWindow
    | with_reducible apply keeps_windowDone
    | with_reducible apply keeps_writePiece
    | with_reducible refine Has2.of_eq ?_ (by assumption)
    | (with_reducible apply Has2.proj; with_reducible apply keeps_writePiece)
    | dsimp only
    | split

def touchReply (p : Option Reg) : Bool := touchSend p

theorem keeps_reply (hK : Closed T K) (s : State) (q : Requester) (rseq : Nat) (o : Output) (hT : ∀ p, touchReply p =
    true → T p = true) (hks : Has K s) : Has K (State.reply s q rseq o) := by
  unfold State.reply
  try dsimp only
  repeat' first
    | exact fun p hp => hT p hp
    | intro _
    | with_reducible assumption
    | with_reducible exact hks
    | with_reducible apply Has.ite
    | with_reducible apply keeps_send
    | simp only [Has.same hK]
    | dsimp only
    | split

def touchOpenSample (_ : Option Reg) : Bool := false

theorem keeps_openSample (hK : Closed T K) (s : State) (q : Requester) (objects : List Nat) (periodUs : Nat)  (hks :
    Has K s) : Has3 K (State.openSample s q objects periodUs) := by
  unfold State.openSample
  try dsimp only
  repeat' first
    | intro _
    | with_reducible assumption
    | with_reducible exact hks
    | with_reducible apply Has3.mk
    | with_reducible apply Has3.ite
    | with_reducible apply Has.ite
    | simp only [Has.same hK]
    | dsimp only
    | split

def touchOpenAudit (_ : Option Reg) : Bool := false

theorem keeps_openAudit (hK : Closed T K) (s : State) (q : Requester) (start : Nat) (hold : Bool)  (hks : Has K s) :
    Has3 K (State.openAudit s q start hold) := by
  unfold State.openAudit
  try dsimp only
  repeat' first
    | intro _
    | with_reducible assumption
    | with_reducible exact hks
    | with_reducible apply Has3.mk
    | with_reducible apply Has3.ite
    | with_reducible apply Has.ite
    | simp only [Has.same hK]
    | dsimp only
    | split

def touchAckSubs (p : Option Reg) : Bool := touchRefreshAcked p

theorem keeps_ackSubs (hK : Closed T K) (s : State) (q : Requester) (seq : Nat) (hT : ∀ p, touchAckSubs p = true → T p
    = true) (hks : Has K s) : Has3 K (State.ackSubs s q seq) := by
  unfold State.ackSubs
  try dsimp only
  repeat' first
    | exact fun p hp => hT p hp
    | intro _
    | with_reducible assumption
    | with_reducible exact hks
    | with_reducible apply Has3.mk
    | with_reducible apply Has3.ite
    | with_reducible apply Has.ite
    | with_reducible apply keeps_refreshAcked
    | simp only [Has.same hK]
    | dsimp only
    | split

def touchCloseSub (p : Option Reg) : Bool := touchRefreshAcked p

theorem keeps_closeSub (hK : Closed T K) (s : State) (q : Requester) (n : Nat) (hT : ∀ p, touchCloseSub p = true → T p
    = true) (hks : Has K s) : Has3 K (State.closeSub s q n) := by
  unfold State.closeSub
  try dsimp only
  repeat' first
    | exact fun p hp => hT p hp
    | intro _
    | with_reducible assumption
    | with_reducible exact hks
    | with_reducible apply Has3.mk
    | with_reducible apply Has3.ite
    | with_reducible apply Has.ite
    | with_reducible apply keeps_refreshAcked
    | simp only [Has.same hK]
    | dsimp only
    | split

def touchJp2Body (p : Option Reg) : Bool := touchAckSubs p || touchCloseSub p || touchCountRefused p || touchOpenAudit
  p || touchOpenSample p || touchServeRead p || touchSpdm p || touchWrite p || touchWritePiece p

theorem keeps_jp2Body (hK : Closed T K) (s : State) (q : Requester) (obj off : Nat) (b : Jp2Body) (peers : Option
    Half) (hT : ∀ p, touchJp2Body p = true → T p = true) (hks : Has K s) : Has4 K (State.jp2Body s q obj off b peers)
    := by
  unfold State.jp2Body
  try dsimp only
  repeat' first
    | exact fun p hp => hT p (by simp only [touchJp2Body, hp, Bool.or_true, Bool.true_or])
    | intro _
    | with_reducible assumption
    | with_reducible exact hks
    | with_reducible apply Has4.mk
    | with_reducible apply Has4.ite
    | with_reducible apply Has.ite
    | with_reducible apply keeps_ackSubs
    | with_reducible apply keeps_closeSub
    | with_reducible apply keeps_countRefused
    | with_reducible apply keeps_openAudit
    | with_reducible apply keeps_openSample
    | with_reducible apply keeps_serveRead
    | with_reducible apply keeps_spdm
    | with_reducible apply keeps_write
    | with_reducible apply keeps_writePiece
    | with_reducible refine Has3.of_eq ?_ (by assumption)
    | (with_reducible apply Has3.proj; with_reducible apply keeps_ackSubs)
    | (with_reducible apply Has3.proj; with_reducible apply keeps_closeSub)
    | (with_reducible apply Has3.proj; with_reducible apply keeps_openAudit)
    | (with_reducible apply Has3.proj; with_reducible apply keeps_openSample)
    | (with_reducible apply Has3.proj; with_reducible apply keeps_serveRead)
    | with_reducible refine Has2.of_eq ?_ (by assumption)
    | (with_reducible apply Has2.proj; with_reducible apply keeps_spdm)
    | (with_reducible apply Has2.proj; with_reducible apply keeps_writePiece)
    | dsimp only
    | split

def touchServeJp2 (p : Option Reg) : Bool := touchAnswer p || touchJp2Body p || touchPumpAudit p || touchReply p ||
  touchSend p || touchSpdm p

theorem keeps_serveJp2 (hK : Closed T K) (s : State) (q : Requester) (rseq obj off : Nat) (b : Jp2Body) (peers :
    Option Half) (hT : ∀ p, touchServeJp2 p = true → T p = true) (hks : Has K s) : Has K (State.serveJp2 s q rseq obj
    off b peers) := by
  unfold State.serveJp2
  try dsimp only
  repeat' first
    | exact fun p hp => hT p (by simp only [touchServeJp2, hp, Bool.or_true, Bool.true_or])
    | intro _
    | with_reducible assumption
    | with_reducible exact hks
    | with_reducible apply Has.ite
    | with_reducible apply keeps_answer
    | with_reducible apply keeps_jp2Body
    | with_reducible apply keeps_pumpAudit
    | with_reducible apply keeps_reply
    | with_reducible apply keeps_send
    | with_reducible apply keeps_spdm
    | with_reducible refine Has4.of_eq ?_ (by assumption)
    | (with_reducible apply Has4.proj; with_reducible apply keeps_jp2Body)
    | with_reducible refine Has2.of_eq ?_ (by assumption)
    | (with_reducible apply Has2.proj; with_reducible apply keeps_spdm)
    | dsimp only
    | split

def touchRefuseAuth (p : Option Reg) : Bool := touchCountRefused p || touchSend p

theorem keeps_refuseAuth (hK : Closed T K) (s : State) (q : Requester) (rseq obj off : Nat) (hT : ∀ p, touchRefuseAuth
    p = true → T p = true) (hks : Has K s) : Has K (State.refuseAuth s q rseq obj off) := by
  unfold State.refuseAuth
  try dsimp only
  repeat' first
    | exact fun p hp => hT p (by simp only [touchRefuseAuth, hp, Bool.or_true, Bool.true_or])
    | intro _
    | with_reducible assumption
    | with_reducible exact hks
    | with_reducible apply Has.ite
    | with_reducible apply keeps_countRefused
    | with_reducible apply keeps_send
    | dsimp only
    | split

def touchPlainJp2 (p : Option Reg) : Bool := touchRefuseAuth p || touchServeJp2 p

theorem keeps_plainJp2 (hK : Closed T K) (s : State) (q : Requester) (rseq obj off : Nat) (b : Jp2Body) (peers :
    Option Half) (hT : ∀ p, touchPlainJp2 p = true → T p = true) (hks : Has K s) : Has K (State.plainJp2 s q rseq obj
    off b peers) := by
  unfold State.plainJp2
  try dsimp only
  repeat' first
    | exact fun p hp => hT p (by simp only [touchPlainJp2, hp, Bool.or_true, Bool.true_or])
    | intro _
    | with_reducible assumption
    | with_reducible exact hks
    | with_reducible apply Has.ite
    | with_reducible apply keeps_refuseAuth
    | with_reducible apply keeps_serveJp2
    | dsimp only
    | split

def touchSecuredJp2 (p : Option Reg) : Bool := touchRefuseAuth p || touchServeJp2 p

theorem keeps_securedJp2 (hK : Closed T K) (s : State) (q : Requester) (ok : Bool) (rseq obj off : Nat) (b : Jp2Body)
    (peers : Option Half) (hT : ∀ p, touchSecuredJp2 p = true → T p = true) (hks : Has K s) : Has K (State.securedJp2
    s q ok rseq obj off b peers) := by
  unfold State.securedJp2
  try dsimp only
  repeat' first
    | exact fun p hp => hT p (by simp only [touchSecuredJp2, hp, Bool.or_true, Bool.true_or])
    | intro _
    | with_reducible assumption
    | with_reducible exact hks
    | with_reducible apply Has.ite
    | with_reducible apply keeps_refuseAuth
    | with_reducible apply keeps_serveJp2
    | dsimp only
    | split

def touchExecJp2Read (p : Option Reg) : Bool := touchPlainJp2 p

theorem keeps_execJp2Read (hK : Closed T K) (q : Requester) (rseq : Dword) (obj : ObjAddr) (offset len : Word) (s :
    State) (hT : ∀ p, touchExecJp2Read p = true → T p = true) (hks : Has K s) : HasRes K (execJp2Read q rseq obj
    offset len s) := by
  unfold execJp2Read
  try dsimp only
  repeat' first
    | exact fun p hp => hT p hp
    | intro _
    | with_reducible assumption
    | with_reducible exact hks
    | with_reducible apply HasRes.next
    | with_reducible apply HasRes.ite
    | with_reducible apply Has.ite
    | with_reducible apply keeps_plainJp2
    | dsimp only
    | split

def touchExecJp2Write (p : Option Reg) : Bool := touchPlainJp2 p || touchWrite p

theorem keeps_execJp2Write (hK : Closed T K) (q : Requester) (rseq : Dword) (obj : ObjAddr) (offset : Word) (data :
    List Byte) (peers : Option Half) (s : State) (hT : ∀ p, touchExecJp2Write p = true → T p = true) (hks : Has K s) :
    HasRes K (execJp2Write q rseq obj offset data peers s) := by
  unfold execJp2Write
  try dsimp only
  repeat' first
    | exact fun p hp => hT p (by simp only [touchExecJp2Write, hp, Bool.or_true, Bool.true_or])
    | intro _
    | with_reducible assumption
    | with_reducible exact hks
    | with_reducible apply HasRes.next
    | with_reducible apply HasRes.ite
    | with_reducible apply Has.ite
    | with_reducible apply keeps_plainJp2
    | with_reducible apply keeps_write
    | dsimp only
    | split

def touchExecJp2Spdm (p : Option Reg) : Bool := touchPlainJp2 p || touchSpdm p

theorem keeps_execJp2Spdm (hK : Closed T K) (q : Requester) (rseq : Dword) (m : SpdmRequest) (s : State) (hT : ∀ p,
    touchExecJp2Spdm p = true → T p = true) (hks : Has K s) : HasRes K (execJp2Spdm q rseq m s) := by
  unfold execJp2Spdm
  try dsimp only
  repeat' first
    | exact fun p hp => hT p (by simp only [touchExecJp2Spdm, hp, Bool.or_true, Bool.true_or])
    | intro _
    | with_reducible assumption
    | with_reducible exact hks
    | with_reducible apply HasRes.next
    | with_reducible apply HasRes.ite
    | with_reducible apply Has.ite
    | with_reducible apply keeps_plainJp2
    | with_reducible apply keeps_spdm
    | with_reducible refine Has2.of_eq ?_ (by assumption)
    | (with_reducible apply Has2.proj; with_reducible apply keeps_spdm)
    | dsimp only
    | split

def touchExecJp2Secured (p : Option Reg) : Bool := touchSecuredJp2 p

theorem keeps_execJp2Secured (hK : Closed T K) (q : Requester) (ok : Bool) (rseq : Dword) (obj : ObjAddr) (offset :
    Word) (body : Jp2Body) (peers : Option Half) (s : State) (hT : ∀ p, touchExecJp2Secured p = true → T p = true)
    (hks : Has K s) : HasRes K (execJp2Secured q ok rseq obj offset body peers s) := by
  unfold execJp2Secured
  try dsimp only
  repeat' first
    | exact fun p hp => hT p hp
    | intro _
    | with_reducible assumption
    | with_reducible exact hks
    | with_reducible apply HasRes.next
    | with_reducible apply HasRes.ite
    | with_reducible apply Has.ite
    | with_reducible apply keeps_securedJp2
    | dsimp only
    | split

def touchExecJdict (p : Option Reg) : Bool := touchPlainJp2 p || touchSecuredJp2 p

theorem keeps_execJdict (hK : Closed T K) (m : Jp2Message) (peers : Option Half) (s : State) (hT : ∀ p, touchExecJdict
    p = true → T p = true) (hks : Has K s) : HasRes K (execJdict m peers s) := by
  unfold execJdict
  try dsimp only
  repeat' first
    | exact fun p hp => hT p (by simp only [touchExecJdict, hp, Bool.or_true, Bool.true_or])
    | intro _
    | with_reducible assumption
    | with_reducible exact hks
    | with_reducible apply HasRes.next
    | with_reducible apply HasRes.ite
    | with_reducible apply Has.ite
    | with_reducible apply keeps_plainJp2
    | with_reducible apply keeps_securedJp2
    | dsimp only
    | split

def touchExecSubOpenSample (p : Option Reg) : Bool := touchPlainJp2 p

theorem keeps_execSubOpenSample (hK : Closed T K) (q : Requester) (rseq : Dword) (objects : List ObjAddr) (periodUs :
    Nat) (s : State) (hT : ∀ p, touchExecSubOpenSample p = true → T p = true) (hks : Has K s) : HasRes K
    (execSubOpenSample q rseq objects periodUs s) := by
  unfold execSubOpenSample
  try dsimp only
  repeat' first
    | exact fun p hp => hT p hp
    | intro _
    | with_reducible assumption
    | with_reducible exact hks
    | with_reducible apply HasRes.next
    | with_reducible apply HasRes.ite
    | with_reducible apply Has.ite
    | with_reducible apply keeps_plainJp2
    | dsimp only
    | split

def touchExecSubOpenAudit (p : Option Reg) : Bool := touchPlainJp2 p

theorem keeps_execSubOpenAudit (hK : Closed T K) (q : Requester) (rseq start : Dword) (hold : Bool) (s : State) (hT :
    ∀ p, touchExecSubOpenAudit p = true → T p = true) (hks : Has K s) : HasRes K (execSubOpenAudit q rseq start hold
    s) := by
  unfold execSubOpenAudit
  try dsimp only
  repeat' first
    | exact fun p hp => hT p hp
    | intro _
    | with_reducible assumption
    | with_reducible exact hks
    | with_reducible apply HasRes.next
    | with_reducible apply HasRes.ite
    | with_reducible apply Has.ite
    | with_reducible apply keeps_plainJp2
    | dsimp only
    | split

def touchExecSubAck (p : Option Reg) : Bool := touchPlainJp2 p

theorem keeps_execSubAck (hK : Closed T K) (q : Requester) (rseq seq : Dword) (s : State) (hT : ∀ p, touchExecSubAck p
    = true → T p = true) (hks : Has K s) : HasRes K (execSubAck q rseq seq s) := by
  unfold execSubAck
  try dsimp only
  repeat' first
    | exact fun p hp => hT p hp
    | intro _
    | with_reducible assumption
    | with_reducible exact hks
    | with_reducible apply HasRes.next
    | with_reducible apply HasRes.ite
    | with_reducible apply Has.ite
    | with_reducible apply keeps_plainJp2
    | dsimp only
    | split

def touchExecSubClose (p : Option Reg) : Bool := touchPlainJp2 p

theorem keeps_execSubClose (hK : Closed T K) (q : Requester) (rseq : Dword) (number : Byte) (s : State) (hT : ∀ p,
    touchExecSubClose p = true → T p = true) (hks : Has K s) : HasRes K (execSubClose q rseq number s) := by
  unfold execSubClose
  try dsimp only
  repeat' first
    | exact fun p hp => hT p hp
    | intro _
    | with_reducible assumption
    | with_reducible exact hks
    | with_reducible apply HasRes.next
    | with_reducible apply HasRes.ite
    | with_reducible apply Has.ite
    | with_reducible apply keeps_plainJp2
    | dsimp only
    | split

def touchExecSamplePeriod (p : Option Reg) : Bool := touchSend p || touchServeRead p

theorem keeps_execSamplePeriod (hK : Closed T K) (n : Fin 4) (s : State) (hT : ∀ p, touchExecSamplePeriod p = true → T
    p = true) (hks : Has K s) : HasRes K (execSamplePeriod n s) := by
  unfold execSamplePeriod
  try dsimp only
  repeat' first
    | exact fun p hp => hT p (by simp only [touchExecSamplePeriod, hp, Bool.or_true, Bool.true_or])
    | intro _
    | with_reducible assumption
    | with_reducible exact hks
    | with_reducible apply HasRes.next
    | with_reducible apply HasRes.ite
    | with_reducible apply Has.ite
    | with_reducible apply keeps_send
    | with_reducible apply keeps_serveRead
    | with_reducible refine Has3.of_eq ?_ (by assumption)
    | (with_reducible apply Has3.proj; with_reducible apply keeps_serveRead)
    | dsimp only
    | split

def touchExecAuditResendTimeout (p : Option Reg) : Bool := touchSendEvents p

theorem keeps_execAuditResendTimeout (hK : Closed T K) (n : Fin 4) (s : State) (hT : ∀ p, touchExecAuditResendTimeout
    p = true → T p = true) (hks : Has K s) : HasRes K (execAuditResendTimeout n s) := by
  unfold execAuditResendTimeout
  try dsimp only
  repeat' first
    | exact fun p hp => hT p hp
    | intro _
    | with_reducible assumption
    | with_reducible exact hks
    | with_reducible apply HasRes.next
    | with_reducible apply HasRes.ite
    | with_reducible apply Has.ite
    | with_reducible apply keeps_sendEvents
    | dsimp only
    | split

def touchExecAuditHoldTimeout (p : Option Reg) : Bool := touchAuditInternal p || touchRefreshAcked p

theorem keeps_execAuditHoldTimeout (hK : Closed T K) (n : Fin 4) (s : State) (hT : ∀ p, touchExecAuditHoldTimeout p =
    true → T p = true) (hks : Has K s) : HasRes K (execAuditHoldTimeout n s) := by
  unfold execAuditHoldTimeout
  try dsimp only
  repeat' first
    | exact fun p hp => hT p (by simp only [touchExecAuditHoldTimeout, hp, Bool.or_true, Bool.true_or])
    | intro _
    | with_reducible assumption
    | with_reducible exact hks
    | with_reducible apply HasRes.next
    | with_reducible apply HasRes.ite
    | with_reducible apply Has.ite
    | with_reducible apply keeps_auditInternal
    | with_reducible apply keeps_refreshAcked
    | simp only [Has.same hK]
    | dsimp only
    | split

def touchJp1 (p : Option Reg) : Bool := touchCountRefused p || touchServeRead p || touchWrite p

theorem keeps_jp1 (hK : Closed T K) (s : State) (q : Requester) (r : Jp1Request) (hT : ∀ p, touchJp1 p = true → T p =
    true) (hks : Has K s) : Has4 K (State.jp1 s q r) := by
  unfold State.jp1
  try dsimp only
  repeat' first
    | exact fun p hp => hT p (by simp only [touchJp1, hp, Bool.or_true, Bool.true_or])
    | intro _
    | with_reducible assumption
    | with_reducible exact hks
    | with_reducible apply Has4.mk
    | with_reducible apply Has4.ite
    | with_reducible apply Has.ite
    | with_reducible apply keeps_countRefused
    | with_reducible apply keeps_serveRead
    | with_reducible apply keeps_write
    | with_reducible refine Has3.of_eq ?_ (by assumption)
    | (with_reducible apply Has3.proj; with_reducible apply keeps_serveRead)
    | dsimp only
    | split

def touchExecJp1Request (p : Option Reg) : Bool := touchJp1 p || touchSend p

theorem keeps_execJp1Request (hK : Closed T K) (source : Nat) (r : Jp1Request) (s : State) (hT : ∀ p,
    touchExecJp1Request p = true → T p = true) (hks : Has K s) : HasRes K (execJp1Request source r s) := by
  unfold execJp1Request
  try dsimp only
  repeat' first
    | exact fun p hp => hT p (by simp only [touchExecJp1Request, hp, Bool.or_true, Bool.true_or])
    | intro _
    | with_reducible assumption
    | with_reducible exact hks
    | with_reducible apply HasRes.next
    | with_reducible apply HasRes.ite
    | with_reducible apply Has.ite
    | with_reducible apply keeps_jp1
    | with_reducible apply keeps_send
    | with_reducible refine Has4.of_eq ?_ (by assumption)
    | (with_reducible apply Has4.proj; with_reducible apply keeps_jp1)
    | dsimp only
    | split

end Sys2Proof.Machine
end

