-- ==== Sys2Proof/Laws/KeepsCsr.lean ====
section
/-! SUPPORT. What the operations of Machine/Csr.lean keep, and the registers that each may change. -/

namespace Sys2Proof.Machine

variable {T : Option Reg → Bool} {K : State → Prop}

def touchCsrWrite (p : Option Reg) : Bool := touchSetReg .svxrerr p

theorem keeps_csrWrite (hK : Closed T K) (s : State) (h n v : Nat) (hT : ∀ p, touchCsrWrite p = true → T p = true)
    (hks : Has K s) : HasOpt K (State.csrWrite s h n v) := by
  unfold State.csrWrite
  try dsimp only
  repeat' first
    | exact fun p hp => hT p hp
    | intro _
    | with_reducible assumption
    | with_reducible exact hks
    | with_reducible apply HasOpt.some
    | with_reducible apply HasOpt.none
    | with_reducible apply HasOpt.ite
    | with_reducible apply Has.ite
    | with_reducible apply keeps_setHart
    | with_reducible apply keeps_setReg
    | simp only [Has.same hK]
    | dsimp only
    | split

def touchExecSvxrerrClear (p : Option Reg) : Bool := touchCsrWrite p || touchIllegal p || touchRetire p

theorem keeps_execSvxrerrClear (hK : Closed T K) (h : Fin 3072) (s : State) (hT : ∀ p, touchExecSvxrerrClear p =
    true → T p = true) (hks : Has K s) : HasRes K (execSvxrerrClear h s) := by
  unfold execSvxrerrClear
  try dsimp only
  repeat' first
    | exact fun p hp => hT p (by simp only [touchExecSvxrerrClear, hp, Bool.or_true, Bool.true_or])
    | intro _
    | with_reducible assumption
    | with_reducible exact hks
    | with_reducible apply HasRes.next
    | with_reducible apply HasRes.ite
    | with_reducible apply Has.ite
    | with_reducible apply keeps_csrWrite
    | with_reducible apply keeps_illegal
    | with_reducible apply keeps_retire
    | with_reducible refine HasOpt.of_eq ?_ (by assumption)
    | with_reducible apply HasOpt.getD
    | dsimp only
    | split

end Sys2Proof.Machine
end

