-- ==== Sys2Proof/Laws/KeepsInteger.lean ====
section
/-! SUPPORT. What the operations of Machine/Integer.lean keep, and the registers that each may change. -/

namespace Sys2Proof.Machine

variable {T : Option Reg → Bool} {K : State → Prop}

def touchJump (p : Option Reg) : Bool := touchRetire p

theorem keeps_jump (hK : Closed T K) (s : State) (h : Nat) (target : Int) (f : Hart → Hart) (hT : ∀ p, touchJump p =
    true → T p = true) (hks : Has K s) : Has K (State.jump s h target f) := by
  unfold State.jump
  try dsimp only
  repeat' first
    | exact fun p hp => hT p hp
    | intro _
    | with_reducible assumption
    | with_reducible exact hks
    | with_reducible apply Has.ite
    | with_reducible apply keeps_retire
    | simp only [Has.same hK]
    | dsimp only
    | split

def touchControlInstr (p : Option Reg) : Bool := touchJump p || touchRetire p

theorem keeps_controlInstr (hK : Closed T K) (s : State) (h len w : Nat) (hT : ∀ p, touchControlInstr p = true → T p
    = true) (hks : Has K s) : HasOpt K (State.controlInstr s h len w) := by
  unfold State.controlInstr
  try dsimp only
  repeat' first
    | exact fun p hp => hT p (by simp only [touchControlInstr, hp, Bool.or_true, Bool.true_or])
    | intro _
    | with_reducible assumption
    | with_reducible exact hks
    | with_reducible apply HasOpt.some
    | with_reducible apply HasOpt.none
    | with_reducible apply HasOpt.ite
    | with_reducible apply Has.ite
    | with_reducible apply keeps_jump
    | with_reducible apply keeps_retire
    | with_reducible apply HasOpt.map
    | dsimp only
    | split

def touchCsrInstr (p : Option Reg) : Bool := touchCsrWrite p || touchRetire p || touchTakeInterrupt p

theorem keeps_csrInstr (hK : Closed T K) (s : State) (h w : Nat) (hT : ∀ p, touchCsrInstr p = true → T p = true)
    (hks : Has K s) : HasOpt K (State.csrInstr s h w) := by
  unfold State.csrInstr
  try dsimp only
  repeat' first
    | exact fun p hp => hT p (by simp only [touchCsrInstr, hp, Bool.or_true, Bool.true_or])
    | intro _
    | with_reducible assumption
    | with_reducible exact hks
    | with_reducible apply HasOpt.some
    | with_reducible apply HasOpt.none
    | with_reducible apply HasOpt.ite
    | with_reducible apply Has.ite
    | with_reducible apply keeps_csrWrite
    | with_reducible apply keeps_retire
    | with_reducible apply keeps_takeInterrupt
    | with_reducible refine HasOpt.of_eq ?_ (by assumption)
    | with_reducible apply HasOpt.getD
    | dsimp only
    | split

def touchSystemInstr (p : Option Reg) : Bool := touchCsrInstr p || touchOtherCall p || touchRetire p ||
  touchTakeInterrupt p || touchTrap p

theorem keeps_systemInstr (hK : Closed T K) (s : State) (h w : Nat) (hT : ∀ p, touchSystemInstr p = true → T p =
    true) (hks : Has K s) : HasOpt K (State.systemInstr s h w) := by
  unfold State.systemInstr
  try dsimp only
  repeat' first
    | exact fun p hp => hT p (by simp only [touchSystemInstr, hp, Bool.or_true, Bool.true_or])
    | intro _
    | with_reducible assumption
    | with_reducible exact hks
    | with_reducible apply HasOpt.some
    | with_reducible apply HasOpt.none
    | with_reducible apply HasOpt.ite
    | with_reducible apply Has.ite
    | with_reducible apply keeps_csrInstr
    | with_reducible apply keeps_otherCall
    | with_reducible apply keeps_retire
    | with_reducible apply keeps_takeInterrupt
    | with_reducible apply keeps_trap
    | with_reducible refine HasOpt.of_eq ?_ (by assumption)
    | with_reducible apply HasOpt.getD
    | dsimp only
    | split

def touchIntegerInstr (p : Option Reg) : Bool := touchControlInstr p || touchRetire p || touchSystemInstr p

theorem keeps_integerInstr (hK : Closed T K) (s : State) (h len w : Nat) (hT : ∀ p, touchIntegerInstr p = true → T p
    = true) (hks : Has K s) : HasOpt K (State.integerInstr s h len w) := by
  unfold State.integerInstr
  try dsimp only
  repeat' first
    | exact fun p hp => hT p (by simp only [touchIntegerInstr, hp, Bool.or_true, Bool.true_or])
    | intro _
    | with_reducible assumption
    | with_reducible exact hks
    | with_reducible apply HasOpt.some
    | with_reducible apply HasOpt.none
    | with_reducible apply HasOpt.ite
    | with_reducible apply Has.ite
    | with_reducible apply keeps_controlInstr
    | with_reducible apply keeps_retire
    | with_reducible apply keeps_systemInstr
    | with_reducible refine HasOpt.of_eq ?_ (by assumption)
    | with_reducible apply HasOpt.getD
    | dsimp only
    | split

end Sys2Proof.Machine
end

