-- ==== Sys2Proof/Laws/KeepsSvxOps.lean ====
section
/-! SUPPORT. What the operations of Machine/SvxOps.lean keep, and the registers that each may change. -/

namespace Sys2Proof.Machine

variable {T : Option Reg → Bool} {K : State → Prop}

def touchSvxWrite (p : Option Reg) : Bool := touchRetire p

theorem keeps_svxWrite (hK : Closed T K) (s : State) (h : Nat) (w : Bool) (vd : Nat) (r : Nat × Nat) (hT : ∀ p,
    touchSvxWrite p = true → T p = true) (hks : Has K s) : Has K (State.svxWrite s h w vd r) := by
  unfold State.svxWrite
  try dsimp only
  repeat' first
    | exact fun p hp => hT p hp
    | intro _
    | with_reducible assumption
    | with_reducible exact hks
    | with_reducible apply Has.ite
    | with_reducible apply keeps_retire
    | dsimp only
    | split

def touchSvxArith (p : Option Reg) : Bool := touchIllegal p || touchSvxWrite p

theorem keeps_svxArith (hK : Closed T K) (s : State) (h fn : Nat) (w u : Bool) (vs2 vs1 et vd : Nat) (f : Nat → Nat
    → Nat → Nat × Nat) (hT : ∀ p, touchSvxArith p = true → T p = true) (hks : Has K s) : HasRes K (State.svxArith s
    h fn w u vs2 vs1 et vd f) := by
  unfold State.svxArith
  try dsimp only
  repeat' first
    | exact fun p hp => hT p (by simp only [touchSvxArith, hp, Bool.or_true, Bool.true_or])
    | intro _
    | with_reducible assumption
    | with_reducible exact hks
    | with_reducible apply HasRes.next
    | with_reducible apply HasRes.ite
    | with_reducible apply Has.ite
    | with_reducible apply keeps_illegal
    | with_reducible apply keeps_svxWrite
    | dsimp only
    | split

def touchExecVadd (p : Option Reg) : Bool := touchSvxArith p

theorem keeps_execVadd (hK : Closed T K) (h : Fin 3072) (w u : Bool) (vs2 vs1 : Fin 32) (et : Fin 8) (vd : Fin 32)
    (s : State) (hT : ∀ p, touchExecVadd p = true → T p = true) (hks : Has K s) : HasRes K (execVadd h w u vs2 vs1
    et vd s) := by
  unfold execVadd
  try dsimp only
  repeat' first
    | exact fun p hp => hT p hp
    | intro _
    | with_reducible assumption
    | with_reducible exact hks
    | with_reducible apply HasRes.next
    | with_reducible apply HasRes.ite
    | with_reducible apply Has.ite
    | with_reducible apply keeps_svxArith
    | with_reducible refine HasRes.of_eq ?_ (by assumption)
    | dsimp only
    | split

def touchExecVsub (p : Option Reg) : Bool := touchSvxArith p

theorem keeps_execVsub (hK : Closed T K) (h : Fin 3072) (w u : Bool) (vs2 vs1 : Fin 32) (et : Fin 8) (vd : Fin 32)
    (s : State) (hT : ∀ p, touchExecVsub p = true → T p = true) (hks : Has K s) : HasRes K (execVsub h w u vs2 vs1
    et vd s) := by
  unfold execVsub
  try dsimp only
  repeat' first
    | exact fun p hp => hT p hp
    | intro _
    | with_reducible assumption
    | with_reducible exact hks
    | with_reducible apply HasRes.next
    | with_reducible apply HasRes.ite
    | with_reducible apply Has.ite
    | with_reducible apply keeps_svxArith
    | with_reducible refine HasRes.of_eq ?_ (by assumption)
    | dsimp only
    | split

def touchExecVmul (p : Option Reg) : Bool := touchSvxArith p

theorem keeps_execVmul (hK : Closed T K) (h : Fin 3072) (w u : Bool) (vs2 vs1 : Fin 32) (et : Fin 8) (vd : Fin 32)
    (s : State) (hT : ∀ p, touchExecVmul p = true → T p = true) (hks : Has K s) : HasRes K (execVmul h w u vs2 vs1
    et vd s) := by
  unfold execVmul
  try dsimp only
  repeat' first
    | exact fun p hp => hT p hp
    | intro _
    | with_reducible assumption
    | with_reducible exact hks
    | with_reducible apply HasRes.next
    | with_reducible apply HasRes.ite
    | with_reducible apply Has.ite
    | with_reducible apply keeps_svxArith
    | with_reducible refine HasRes.of_eq ?_ (by assumption)
    | dsimp only
    | split

def touchExecVmulh (p : Option Reg) : Bool := touchSvxArith p

theorem keeps_execVmulh (hK : Closed T K) (h : Fin 3072) (w u : Bool) (vs2 vs1 : Fin 32) (et : Fin 8) (vd : Fin 32)
    (s : State) (hT : ∀ p, touchExecVmulh p = true → T p = true) (hks : Has K s) : HasRes K (execVmulh h w u vs2 vs1
    et vd s) := by
  unfold execVmulh
  try dsimp only
  repeat' first
    | exact fun p hp => hT p hp
    | intro _
    | with_reducible assumption
    | with_reducible exact hks
    | with_reducible apply HasRes.next
    | with_reducible apply HasRes.ite
    | with_reducible apply Has.ite
    | with_reducible apply keeps_svxArith
    | with_reducible refine HasRes.of_eq ?_ (by assumption)
    | dsimp only
    | split

def touchExecVfma (p : Option Reg) : Bool := touchSvxArith p

theorem keeps_execVfma (hK : Closed T K) (h : Fin 3072) (w u : Bool) (vs2 vs1 : Fin 32) (et : Fin 8) (vd : Fin 32)
    (s : State) (hT : ∀ p, touchExecVfma p = true → T p = true) (hks : Has K s) : HasRes K (execVfma h w u vs2 vs1
    et vd s) := by
  unfold execVfma
  try dsimp only
  repeat' first
    | exact fun p hp => hT p hp
    | intro _
    | with_reducible assumption
    | with_reducible exact hks
    | with_reducible apply HasRes.next
    | with_reducible apply HasRes.ite
    | with_reducible apply Has.ite
    | with_reducible apply keeps_svxArith
    | with_reducible refine HasRes.of_eq ?_ (by assumption)
    | dsimp only
    | split

def touchExecVmin (p : Option Reg) : Bool := touchSvxArith p

theorem keeps_execVmin (hK : Closed T K) (h : Fin 3072) (w u : Bool) (vs2 vs1 : Fin 32) (et : Fin 8) (vd : Fin 32)
    (s : State) (hT : ∀ p, touchExecVmin p = true → T p = true) (hks : Has K s) : HasRes K (execVmin h w u vs2 vs1
    et vd s) := by
  unfold execVmin
  try dsimp only
  repeat' first
    | exact fun p hp => hT p hp
    | intro _
    | with_reducible assumption
    | with_reducible exact hks
    | with_reducible apply HasRes.next
    | with_reducible apply HasRes.ite
    | with_reducible apply Has.ite
    | with_reducible apply keeps_svxArith
    | with_reducible refine HasRes.of_eq ?_ (by assumption)
    | dsimp only
    | split

def touchExecVmax (p : Option Reg) : Bool := touchSvxArith p

theorem keeps_execVmax (hK : Closed T K) (h : Fin 3072) (w u : Bool) (vs2 vs1 : Fin 32) (et : Fin 8) (vd : Fin 32)
    (s : State) (hT : ∀ p, touchExecVmax p = true → T p = true) (hks : Has K s) : HasRes K (execVmax h w u vs2 vs1
    et vd s) := by
  unfold execVmax
  try dsimp only
  repeat' first
    | exact fun p hp => hT p hp
    | intro _
    | with_reducible assumption
    | with_reducible exact hks
    | with_reducible apply HasRes.next
    | with_reducible apply HasRes.ite
    | with_reducible apply Has.ite
    | with_reducible apply keeps_svxArith
    | with_reducible refine HasRes.of_eq ?_ (by assumption)
    | dsimp only
    | split

def touchExecVdiv (p : Option Reg) : Bool := touchSvxArith p

theorem keeps_execVdiv (hK : Closed T K) (h : Fin 3072) (w u : Bool) (vs2 vs1 : Fin 32) (et : Fin 8) (vd : Fin 32)
    (s : State) (hT : ∀ p, touchExecVdiv p = true → T p = true) (hks : Has K s) : HasRes K (execVdiv h w u vs2 vs1
    et vd s) := by
  unfold execVdiv
  try dsimp only
  repeat' first
    | exact fun p hp => hT p hp
    | intro _
    | with_reducible assumption
    | with_reducible exact hks
    | with_reducible apply HasRes.next
    | with_reducible apply HasRes.ite
    | with_reducible apply Has.ite
    | with_reducible apply keeps_svxArith
    | with_reducible refine HasRes.of_eq ?_ (by assumption)
    | dsimp only
    | split

def touchExecVsqrt (p : Option Reg) : Bool := touchSvxArith p

theorem keeps_execVsqrt (hK : Closed T K) (h : Fin 3072) (w u : Bool) (vs2 vs1 : Fin 32) (et : Fin 8) (vd : Fin 32)
    (s : State) (hT : ∀ p, touchExecVsqrt p = true → T p = true) (hks : Has K s) : HasRes K (execVsqrt h w u vs2 vs1
    et vd s) := by
  unfold execVsqrt
  try dsimp only
  repeat' first
    | exact fun p hp => hT p hp
    | intro _
    | with_reducible assumption
    | with_reducible exact hks
    | with_reducible apply HasRes.next
    | with_reducible apply HasRes.ite
    | with_reducible apply Has.ite
    | with_reducible apply keeps_svxArith
    | with_reducible refine HasRes.of_eq ?_ (by assumption)
    | dsimp only
    | split

def touchExecVand (p : Option Reg) : Bool := touchSvxArith p

theorem keeps_execVand (hK : Closed T K) (h : Fin 3072) (w u : Bool) (vs2 vs1 : Fin 32) (et : Fin 8) (vd : Fin 32)
    (s : State) (hT : ∀ p, touchExecVand p = true → T p = true) (hks : Has K s) : HasRes K (execVand h w u vs2 vs1
    et vd s) := by
  unfold execVand
  try dsimp only
  repeat' first
    | exact fun p hp => hT p hp
    | intro _
    | with_reducible assumption
    | with_reducible exact hks
    | with_reducible apply HasRes.next
    | with_reducible apply HasRes.ite
    | with_reducible apply Has.ite
    | with_reducible apply keeps_svxArith
    | with_reducible refine HasRes.of_eq ?_ (by assumption)
    | dsimp only
    | split

def touchExecVor (p : Option Reg) : Bool := touchSvxArith p

theorem keeps_execVor (hK : Closed T K) (h : Fin 3072) (w u : Bool) (vs2 vs1 : Fin 32) (et : Fin 8) (vd : Fin 32) (s
    : State) (hT : ∀ p, touchExecVor p = true → T p = true) (hks : Has K s) : HasRes K (execVor h w u vs2 vs1 et vd
    s) := by
  unfold execVor
  try dsimp only
  repeat' first
    | exact fun p hp => hT p hp
    | intro _
    | with_reducible assumption
    | with_reducible exact hks
    | with_reducible apply HasRes.next
    | with_reducible apply HasRes.ite
    | with_reducible apply Has.ite
    | with_reducible apply keeps_svxArith
    | with_reducible refine HasRes.of_eq ?_ (by assumption)
    | dsimp only
    | split

def touchExecVxor (p : Option Reg) : Bool := touchSvxArith p

theorem keeps_execVxor (hK : Closed T K) (h : Fin 3072) (w u : Bool) (vs2 vs1 : Fin 32) (et : Fin 8) (vd : Fin 32)
    (s : State) (hT : ∀ p, touchExecVxor p = true → T p = true) (hks : Has K s) : HasRes K (execVxor h w u vs2 vs1
    et vd s) := by
  unfold execVxor
  try dsimp only
  repeat' first
    | exact fun p hp => hT p hp
    | intro _
    | with_reducible assumption
    | with_reducible exact hks
    | with_reducible apply HasRes.next
    | with_reducible apply HasRes.ite
    | with_reducible apply Has.ite
    | with_reducible apply keeps_svxArith
    | with_reducible refine HasRes.of_eq ?_ (by assumption)
    | dsimp only
    | split

def touchExecVsll (p : Option Reg) : Bool := touchSvxArith p

theorem keeps_execVsll (hK : Closed T K) (h : Fin 3072) (w u : Bool) (vs2 vs1 : Fin 32) (et : Fin 8) (vd : Fin 32)
    (s : State) (hT : ∀ p, touchExecVsll p = true → T p = true) (hks : Has K s) : HasRes K (execVsll h w u vs2 vs1
    et vd s) := by
  unfold execVsll
  try dsimp only
  repeat' first
    | exact fun p hp => hT p hp
    | intro _
    | with_reducible assumption
    | with_reducible exact hks
    | with_reducible apply HasRes.next
    | with_reducible apply HasRes.ite
    | with_reducible apply Has.ite
    | with_reducible apply keeps_svxArith
    | with_reducible refine HasRes.of_eq ?_ (by assumption)
    | dsimp only
    | split

def touchExecVsrl (p : Option Reg) : Bool := touchSvxArith p

theorem keeps_execVsrl (hK : Closed T K) (h : Fin 3072) (w u : Bool) (vs2 vs1 : Fin 32) (et : Fin 8) (vd : Fin 32)
    (s : State) (hT : ∀ p, touchExecVsrl p = true → T p = true) (hks : Has K s) : HasRes K (execVsrl h w u vs2 vs1
    et vd s) := by
  unfold execVsrl
  try dsimp only
  repeat' first
    | exact fun p hp => hT p hp
    | intro _
    | with_reducible assumption
    | with_reducible exact hks
    | with_reducible apply HasRes.next
    | with_reducible apply HasRes.ite
    | with_reducible apply Has.ite
    | with_reducible apply keeps_svxArith
    | with_reducible refine HasRes.of_eq ?_ (by assumption)
    | dsimp only
    | split

def touchExecVsra (p : Option Reg) : Bool := touchSvxArith p

theorem keeps_execVsra (hK : Closed T K) (h : Fin 3072) (w u : Bool) (vs2 vs1 : Fin 32) (et : Fin 8) (vd : Fin 32)
    (s : State) (hT : ∀ p, touchExecVsra p = true → T p = true) (hks : Has K s) : HasRes K (execVsra h w u vs2 vs1
    et vd s) := by
  unfold execVsra
  try dsimp only
  repeat' first
    | exact fun p hp => hT p hp
    | intro _
    | with_reducible assumption
    | with_reducible exact hks
    | with_reducible apply HasRes.next
    | with_reducible apply HasRes.ite
    | with_reducible apply Has.ite
    | with_reducible apply keeps_svxArith
    | with_reducible refine HasRes.of_eq ?_ (by assumption)
    | dsimp only
    | split

def touchExecVcmpeq (p : Option Reg) : Bool := touchSvxArith p

theorem keeps_execVcmpeq (hK : Closed T K) (h : Fin 3072) (w u : Bool) (vs2 vs1 : Fin 32) (et : Fin 8) (vd : Fin 32)
    (s : State) (hT : ∀ p, touchExecVcmpeq p = true → T p = true) (hks : Has K s) : HasRes K (execVcmpeq h w u vs2
    vs1 et vd s) := by
  unfold execVcmpeq
  try dsimp only
  repeat' first
    | exact fun p hp => hT p hp
    | intro _
    | with_reducible assumption
    | with_reducible exact hks
    | with_reducible apply HasRes.next
    | with_reducible apply HasRes.ite
    | with_reducible apply Has.ite
    | with_reducible apply keeps_svxArith
    | with_reducible refine HasRes.of_eq ?_ (by assumption)
    | dsimp only
    | split

def touchExecVcmplt (p : Option Reg) : Bool := touchSvxArith p

theorem keeps_execVcmplt (hK : Closed T K) (h : Fin 3072) (w u : Bool) (vs2 vs1 : Fin 32) (et : Fin 8) (vd : Fin 32)
    (s : State) (hT : ∀ p, touchExecVcmplt p = true → T p = true) (hks : Has K s) : HasRes K (execVcmplt h w u vs2
    vs1 et vd s) := by
  unfold execVcmplt
  try dsimp only
  repeat' first
    | exact fun p hp => hT p hp
    | intro _
    | with_reducible assumption
    | with_reducible exact hks
    | with_reducible apply HasRes.next
    | with_reducible apply HasRes.ite
    | with_reducible apply Has.ite
    | with_reducible apply keeps_svxArith
    | with_reducible refine HasRes.of_eq ?_ (by assumption)
    | dsimp only
    | split

def touchExecVcmple (p : Option Reg) : Bool := touchSvxArith p

theorem keeps_execVcmple (hK : Closed T K) (h : Fin 3072) (w u : Bool) (vs2 vs1 : Fin 32) (et : Fin 8) (vd : Fin 32)
    (s : State) (hT : ∀ p, touchExecVcmple p = true → T p = true) (hks : Has K s) : HasRes K (execVcmple h w u vs2
    vs1 et vd s) := by
  unfold execVcmple
  try dsimp only
  repeat' first
    | exact fun p hp => hT p hp
    | intro _
    | with_reducible assumption
    | with_reducible exact hks
    | with_reducible apply HasRes.next
    | with_reducible apply HasRes.ite
    | with_reducible apply Has.ite
    | with_reducible apply keeps_svxArith
    | with_reducible refine HasRes.of_eq ?_ (by assumption)
    | dsimp only
    | split

def touchExecVsel (p : Option Reg) : Bool := touchSvxArith p

theorem keeps_execVsel (hK : Closed T K) (h : Fin 3072) (w u : Bool) (vs2 vs1 : Fin 32) (et : Fin 8) (vd : Fin 32)
    (s : State) (hT : ∀ p, touchExecVsel p = true → T p = true) (hks : Has K s) : HasRes K (execVsel h w u vs2 vs1
    et vd s) := by
  unfold execVsel
  try dsimp only
  repeat' first
    | exact fun p hp => hT p hp
    | intro _
    | with_reducible assumption
    | with_reducible exact hks
    | with_reducible apply HasRes.next
    | with_reducible apply HasRes.ite
    | with_reducible apply Has.ite
    | with_reducible apply keeps_svxArith
    | with_reducible refine HasRes.of_eq ?_ (by assumption)
    | dsimp only
    | split

def touchExecVcvt (p : Option Reg) : Bool := touchSvxArith p

theorem keeps_execVcvt (hK : Closed T K) (h : Fin 3072) (w u : Bool) (vs2 vs1 : Fin 32) (et : Fin 8) (vd : Fin 32)
    (s : State) (hT : ∀ p, touchExecVcvt p = true → T p = true) (hks : Has K s) : HasRes K (execVcvt h w u vs2 vs1
    et vd s) := by
  unfold execVcvt
  try dsimp only
  repeat' first
    | exact fun p hp => hT p hp
    | intro _
    | with_reducible assumption
    | with_reducible exact hks
    | with_reducible apply HasRes.next
    | with_reducible apply HasRes.ite
    | with_reducible apply Has.ite
    | with_reducible apply keeps_svxArith
    | simp only [Has.same hK]
    | with_reducible refine HasRes.of_eq ?_ (by assumption)
    | dsimp only
    | split

def touchExecVwmul (p : Option Reg) : Bool := touchSvxArith p

theorem keeps_execVwmul (hK : Closed T K) (h : Fin 3072) (w u : Bool) (vs2 vs1 : Fin 32) (et : Fin 8) (vd : Fin 32)
    (s : State) (hT : ∀ p, touchExecVwmul p = true → T p = true) (hks : Has K s) : HasRes K (execVwmul h w u vs2 vs1
    et vd s) := by
  unfold execVwmul
  try dsimp only
  repeat' first
    | exact fun p hp => hT p hp
    | intro _
    | with_reducible assumption
    | with_reducible exact hks
    | with_reducible apply HasRes.next
    | with_reducible apply HasRes.ite
    | with_reducible apply Has.ite
    | with_reducible apply keeps_svxArith
    | with_reducible refine HasRes.of_eq ?_ (by assumption)
    | dsimp only
    | split

def touchExecVwmulhi (p : Option Reg) : Bool := touchSvxArith p

theorem keeps_execVwmulhi (hK : Closed T K) (h : Fin 3072) (w u : Bool) (vs2 vs1 : Fin 32) (et : Fin 8) (vd : Fin
    32) (s : State) (hT : ∀ p, touchExecVwmulhi p = true → T p = true) (hks : Has K s) : HasRes K (execVwmulhi h w u
    vs2 vs1 et vd s) := by
  unfold execVwmulhi
  try dsimp only
  repeat' first
    | exact fun p hp => hT p hp
    | intro _
    | with_reducible assumption
    | with_reducible exact hks
    | with_reducible apply HasRes.next
    | with_reducible apply HasRes.ite
    | with_reducible apply Has.ite
    | with_reducible apply keeps_svxArith
    | with_reducible refine HasRes.of_eq ?_ (by assumption)
    | dsimp only
    | split

def touchExecVdot (p : Option Reg) : Bool := touchSvxArith p

theorem keeps_execVdot (hK : Closed T K) (h : Fin 3072) (w u : Bool) (vs2 vs1 : Fin 32) (et : Fin 8) (vd : Fin 32)
    (s : State) (hT : ∀ p, touchExecVdot p = true → T p = true) (hks : Has K s) : HasRes K (execVdot h w u vs2 vs1
    et vd s) := by
  unfold execVdot
  try dsimp only
  repeat' first
    | exact fun p hp => hT p hp
    | intro _
    | with_reducible assumption
    | with_reducible exact hks
    | with_reducible apply HasRes.next
    | with_reducible apply HasRes.ite
    | with_reducible apply Has.ite
    | with_reducible apply keeps_svxArith
    | with_reducible refine HasRes.of_eq ?_ (by assumption)
    | dsimp only
    | split

def touchExecVrsum (p : Option Reg) : Bool := touchSvxArith p

theorem keeps_execVrsum (hK : Closed T K) (h : Fin 3072) (w u : Bool) (vs2 vs1 : Fin 32) (et : Fin 8) (vd : Fin 32)
    (s : State) (hT : ∀ p, touchExecVrsum p = true → T p = true) (hks : Has K s) : HasRes K (execVrsum h w u vs2 vs1
    et vd s) := by
  unfold execVrsum
  try dsimp only
  repeat' first
    | exact fun p hp => hT p hp
    | intro _
    | with_reducible assumption
    | with_reducible exact hks
    | with_reducible apply HasRes.next
    | with_reducible apply HasRes.ite
    | with_reducible apply Has.ite
    | with_reducible apply keeps_svxArith
    | with_reducible refine HasRes.of_eq ?_ (by assumption)
    | dsimp only
    | split

def touchExecVsplat (p : Option Reg) : Bool := touchIllegal p || touchSvxWrite p

theorem keeps_execVsplat (hK : Closed T K) (h : Fin 3072) (et : Fin 8) (w : Bool) (rs1 vd : Fin 32) (s : State) (hT :
    ∀ p, touchExecVsplat p = true → T p = true) (hks : Has K s) : HasRes K (execVsplat h et w rs1 vd s) := by
  unfold execVsplat
  try dsimp only
  repeat' first
    | exact fun p hp => hT p (by simp only [touchExecVsplat, hp, Bool.or_true, Bool.true_or])
    | intro _
    | with_reducible assumption
    | with_reducible exact hks
    | with_reducible apply HasRes.next
    | with_reducible apply HasRes.ite
    | with_reducible apply Has.ite
    | with_reducible apply keeps_illegal
    | with_reducible apply keeps_svxWrite
    | dsimp only
    | split

def touchExecVext (p : Option Reg) : Bool := touchIllegal p || touchRetire p

theorem keeps_execVext (hK : Closed T K) (h : Fin 3072) (et : Fin 8) (ln : Fin 16) (vs1 rd : Fin 32) (s : State) (hT :
    ∀ p, touchExecVext p = true → T p = true) (hks : Has K s) : HasRes K (execVext h et ln vs1 rd s) := by
  unfold execVext
  try dsimp only
  repeat' first
    | exact fun p hp => hT p (by simp only [touchExecVext, hp, Bool.or_true, Bool.true_or])
    | intro _
    | with_reducible assumption
    | with_reducible exact hks
    | with_reducible apply HasRes.next
    | with_reducible apply HasRes.ite
    | with_reducible apply Has.ite
    | with_reducible apply keeps_illegal
    | with_reducible apply keeps_retire
    | with_reducible apply keeps_setReg
    | dsimp only
    | split

def touchRunSvx (p : Option Reg) : Bool := touchExecSync p || touchExecVadd p || touchExecVand p || touchExecVcmpeq
  p || touchExecVcmple p || touchExecVcmplt p || touchExecVcvt p || touchExecVdiv p || touchExecVdot p ||
  touchExecVext p || touchExecVfma p || touchExecVgath p || touchExecVld p || touchExecVmax p || touchExecVmin p ||
  touchExecVmul p || touchExecVmulh p || touchExecVor p || touchExecVrsum p || touchExecVscat p || touchExecVsel p
  || touchExecVsll p || touchExecVsplat p || touchExecVsqrt p || touchExecVsra p || touchExecVsrl p || touchExecVst
  p || touchExecVsub p || touchExecVwmul p || touchExecVwmulhi p || touchExecVxor p

theorem keeps_runSvx (hK : Closed T K) (i : Instr) (s : State) (hT : ∀ p, touchRunSvx p = true → T p = true) (hks :
    Has K s) : HasRes K (runSvx i s) := by
  unfold runSvx
  try dsimp only
  repeat' first
    | exact fun p hp => hT p (by simp only [touchRunSvx, hp, Bool.or_true, Bool.true_or])
    | intro _
    | with_reducible assumption
    | with_reducible exact hks
    | with_reducible apply HasRes.next
    | with_reducible apply HasRes.ite
    | with_reducible apply Has.ite
    | with_reducible apply keeps_execSync
    | with_reducible apply keeps_execVadd
    | with_reducible apply keeps_execVand
    | with_reducible apply keeps_execVcmpeq
    | with_reducible apply keeps_execVcmple
    | with_reducible apply keeps_execVcmplt
    | with_reducible apply keeps_execVcvt
    | with_reducible apply keeps_execVdiv
    | with_reducible apply keeps_execVdot
    | with_reducible apply keeps_execVext
    | with_reducible apply keeps_execVfma
    | with_reducible apply keeps_execVgath
    | with_reducible apply keeps_execVld
    | with_reducible apply keeps_execVmax
    | with_reducible apply keeps_execVmin
    | with_reducible apply keeps_execVmul
    | with_reducible apply keeps_execVmulh
    | with_reducible apply keeps_execVor
    | with_reducible apply keeps_execVrsum
    | with_reducible apply keeps_execVscat
    | with_reducible apply keeps_execVsel
    | with_reducible apply keeps_execVsll
    | with_reducible apply keeps_execVsplat
    | with_reducible apply keeps_execVsqrt
    | with_reducible apply keeps_execVsra
    | with_reducible apply keeps_execVsrl
    | with_reducible apply keeps_execVst
    | with_reducible apply keeps_execVsub
    | with_reducible apply keeps_execVwmul
    | with_reducible apply keeps_execVwmulhi
    | with_reducible apply keeps_execVxor
    | with_reducible refine HasRes.of_eq ?_ (by assumption)
    | dsimp only
    | split

def touchExecFOrDInstruction (p : Option Reg) : Bool := touchIllegal p || touchIntegerInstr p || touchRetire p ||
  touchRunSvx p

theorem keeps_execFOrDInstruction (hK : Closed T K) (h : Fin 3072) (w : Word) (short : Bool) (s : State) (hT : ∀ p,
    touchExecFOrDInstruction p = true → T p = true) (hks : Has K s) : HasRes K (execFOrDInstruction h w short s) :=
    by
  unfold execFOrDInstruction
  try dsimp only
  repeat' first
    | exact fun p hp => hT p (by simp only [touchExecFOrDInstruction, hp, Bool.or_true, Bool.true_or])
    | intro _
    | with_reducible assumption
    | with_reducible exact hks
    | with_reducible apply HasRes.next
    | with_reducible apply HasRes.ite
    | with_reducible apply Has.ite
    | with_reducible apply keeps_illegal
    | with_reducible apply keeps_integerInstr
    | with_reducible apply keeps_retire
    | with_reducible apply keeps_runSvx
    | with_reducible refine HasOpt.of_eq ?_ (by assumption)
    | with_reducible apply HasOpt.getD
    | with_reducible refine HasRes.of_eq ?_ (by assumption)
    | dsimp only
    | split

end Sys2Proof.Machine
end

