-- ==== Sys2Proof/Laws/KeepsDispatch.lean ====
section
/-! SUPPORT. The registers that each command may change, node memory among them (`none`), and what `exec` therefore keeps. -/

namespace Sys2Proof.Machine

variable {T : Option Reg → Bool} {K : State → Prop}

/-- The registers that a command may change; `none` stands for node memory. -/
def Instr.touches (i : Instr) : Option Reg → Bool :=
  match i with
  | .vinAonApplied => touchExecVinAonApplied
  | .crystalStable => touchExecCrystalStable
  | .crystalFailTimeout => touchExecCrystalFailTimeout
  | .mclkStop => touchExecMclkStop
  | .vinMainInRange => touchExecVinMainInRange
  | .pwrOkAsserted _ => touchExecPwrOkAsserted
  | .pwrOkDeasserted _ => touchExecPwrOkDeasserted
  | .stackRailOutOfRange _ => touchExecStackRailOutOfRange
  | .coldReset _ => touchExecColdReset
  | .warmReset _ => touchExecWarmReset
  | .resetAfterFusePulse => touchExecResetAfterFusePulse
  | .resetReleased => touchExecResetReleased
  | .initStageComplete _ => touchExecInitStageComplete
  | .pllALockTimeout _ _ => touchExecPllALockTimeout
  | .pllLossOfLock _ => touchExecPllLossOfLock
  | .sparePllLockTimeout _ => touchExecSparePllLockTimeout
  | .clkSelWrite _ _ _ => touchExecClkSelWrite
  | .readyFlagSwitch _ _ _ => touchExecReadyFlagSwitch
  | .clockSwitchComplete _ => touchExecClockSwitchComplete
  | .clockMuxHang _ _ => touchExecClockMuxHang
  | .powerSample _ _ _ => touchExecPowerSample
  | .throttleStepUp => touchExecThrottleStepUp
  | .arrayThrottleStart _ => touchExecArrayThrottleStart
  | .arrayThrottleEnd => touchExecArrayThrottleEnd
  | .thermalSample _ => touchExecThermalSample
  | .thermalFloorTimeout _ => touchExecThermalFloorTimeout
  | .hardwareThermalTrip _ => touchExecHardwareThermalTrip
  | .coolantLow => touchExecCoolantLow
  | .coolantClear => touchExecCoolantClear
  | .stateRequestLull _ => touchExecStateRequestLull
  | .lullDeadlineExpiry => touchExecLullDeadlineExpiry
  | .stateRequestResume _ => touchExecStateRequestResume
  | .serviceRequestEnter _ => touchExecServiceRequestEnter
  | .serviceRequestExit _ => touchExecServiceRequestExit
  | .locationWrite _ _ => touchExecLocationWrite
  | .timeStepBoundary => touchExecTimeStepBoundary
  | .modeSetWrite _ _ _ _ => touchExecModeSetWrite
  | .entryIssue _ => touchExecEntryIssue
  | .entryStart _ _ => touchExecEntryStart
  | .entryComplete _ _ => touchExecEntryComplete
  | .deadlineMissed _ _ => touchExecDeadlineMissed
  | .entryAbandon _ _ => touchExecEntryAbandon
  | .mmaFull _ _ => touchExecMmaFull
  | .mmaPartial _ _ => touchExecMmaPartial
  | .mmaCombine _ _ => touchExecMmaCombine
  | .arrayBistComplete _ _ _ => touchExecArrayBistComplete
  | .baySpareCopyComplete _ _ => touchExecBaySpareCopyComplete
  | .vopCopy _ => touchExecVopCopy
  | .vopAdd _ => touchExecVopAdd
  | .vopSub _ => touchExecVopSub
  | .vopMul _ => touchExecVopMul
  | .vopFma _ => touchExecVopFma
  | .vopDiv _ => touchExecVopDiv
  | .vopSqrt _ => touchExecVopSqrt
  | .vopMin _ => touchExecVopMin
  | .vopMax _ => touchExecVopMax
  | .vopAbs _ => touchExecVopAbs
  | .vopNeg _ => touchExecVopNeg
  | .vopScale _ => touchExecVopScale
  | .vopSel _ => touchExecVopSel
  | .vopShiftc _ => touchExecVopShiftc
  | .vopRelu _ => touchExecVopRelu
  | .vopCmpeq _ => touchExecVopCmpeq
  | .vopCmplt _ => touchExecVopCmplt
  | .vopCmple _ => touchExecVopCmple
  | .vopCmpne _ => touchExecVopCmpne
  | .vopPand _ => touchExecVopPand
  | .vopPor _ => touchExecVopPor
  | .vopPxor _ => touchExecVopPxor
  | .vopPnot _ => touchExecVopPnot
  | .vopPset _ => touchExecVopPset
  | .vopExp _ => touchExecVopExp
  | .vopLog _ => touchExecVopLog
  | .vopTanh _ => touchExecVopTanh
  | .vopSigm _ => touchExecVopSigm
  | .vopSilu _ => touchExecVopSilu
  | .vopGelu _ => touchExecVopGelu
  | .vredSum _ => touchExecVredSum
  | .vredSumsq _ => touchExecVredSumsq
  | .vredDot _ => touchExecVredDot
  | .vredMax _ => touchExecVredMax
  | .vredMin _ => touchExecVredMin
  | .vredMaxabs _ => touchExecVredMaxabs
  | .vredArgmax _ => touchExecVredArgmax
  | .vredCountnz _ => touchExecVredCountnz
  | .xfer _ => touchExecXfer
  | .gath _ => touchExecGath
  | .scat _ => touchExecScat
  | .rstore _ => touchExecRstore
  | .raccRelaxed _ => touchExecRaccRelaxed
  | .raccOrdered _ => touchExecRaccOrdered
  | .mcast _ => touchExecMcast
  | .transEncode _ => touchExecTransEncode
  | .transDecode _ => touchExecTransDecode
  | .transRecode _ => touchExecTransRecode
  | .transConvert _ => touchExecTransConvert
  | .transPartComplete _ _ => touchExecTransPartComplete
  | .histClear _ => touchExecHistClear
  | .histCarry _ => touchExecHistCarry
  | .histCopy _ => touchExecHistCopy
  | .histMerge _ => touchExecHistMerge
  | .histScan _ => touchExecHistScan
  | .collAllreduce _ => touchExecCollAllreduce
  | .collReduce _ => touchExecCollReduce
  | .collReduceScatter _ => touchExecCollReduceScatter
  | .collBroadcast _ => touchExecCollBroadcast
  | .collAllgather _ => touchExecCollAllgather
  | .collAllgatherv _ => touchExecCollAllgatherv
  | .collBarrier _ => touchExecCollBarrier
  | .fence _ => touchExecFence
  | .waitEvent _ => touchExecWaitEvent
  | .waitFlag _ => touchExecWaitFlag
  | .waitNodeBarrier _ => touchExecWaitNodeBarrier
  | .waitToken _ => touchExecWaitToken
  | .waitConditionMet _ => touchExecWaitConditionMet
  | .epoch _ => touchExecEpoch
  | .br _ _ => touchExecBr
  | .loop _ _ => touchExecLoop
  | .call _ _ => touchExecCall
  | .tableEnd _ => touchExecTableEnd
  | .model _ => touchExecModel
  | .tailwindCopyComplete _ => touchExecTailwindCopyComplete
  | .snap _ => touchExecSnap
  | .digest _ => touchExecDigest
  | .eventRegisterWrite _ _ => touchExecEventRegisterWrite
  | .collNodeLocalStage _ _ => touchExecCollNodeLocalStage
  | .collChunkReceive _ _ _ _ _ _ _ => touchExecCollChunkReceive
  | .collRetentionAck _ _ _ _ _ _ => touchExecCollRetentionAck
  | .collCommit _ _ _ _ _ _ _ _ => touchExecCollCommit
  | .collAbort _ _ _ _ _ _ => touchExecCollAbort
  | .collAbandon _ _ => touchExecCollAbandon
  | .jobBarrierComplete => touchExecJobBarrierComplete
  | .epochFenceMessage _ _ _ => touchExecEpochFenceMessage
  | .bayPreempt => touchExecBayPreempt
  | .contextSaveComplete _ => touchExecContextSaveComplete
  | .preemptDeferralExpiry _ => touchExecPreemptDeferralExpiry
  | .hartLoad _ _ _ _ _ _ _ => touchExecHartLoad
  | .hartStore _ _ _ _ _ _ _ => touchExecHartStore
  | .hartAmo _ _ _ _ _ _ _ _ => touchExecHartAmo
  | .hartFence _ _ _ => touchExecHartFence
  | .hartWfi _ => touchExecHartWfi
  | .accessReturn _ => touchExecAccessReturn
  | .storeBufferDrain _ => touchExecStoreBufferDrain
  | .threadTurnLimit _ => touchExecThreadTurnLimit
  | .interruptPending _ _ => touchExecInterruptPending
  | .sbiBaseCall _ => touchExecSbiBaseCall
  | .sbiSetTimer _ => touchExecSbiSetTimer
  | .sbiSendIpi _ => touchExecSbiSendIpi
  | .sbiSystemReset _ => touchExecSbiSystemReset
  | .svxrerrClear _ => touchExecSvxrerrClear
  | .vadd _ _ _ _ _ _ _ => touchExecVadd
  | .vsub _ _ _ _ _ _ _ => touchExecVsub
  | .vmul _ _ _ _ _ _ _ => touchExecVmul
  | .vmulh _ _ _ _ _ _ _ => touchExecVmulh
  | .vfma _ _ _ _ _ _ _ => touchExecVfma
  | .vmin _ _ _ _ _ _ _ => touchExecVmin
  | .vmax _ _ _ _ _ _ _ => touchExecVmax
  | .vdiv _ _ _ _ _ _ _ => touchExecVdiv
  | .vsqrt _ _ _ _ _ _ _ => touchExecVsqrt
  | .vand _ _ _ _ _ _ _ => touchExecVand
  | .vor _ _ _ _ _ _ _ => touchExecVor
  | .vxor _ _ _ _ _ _ _ => touchExecVxor
  | .vsll _ _ _ _ _ _ _ => touchExecVsll
  | .vsrl _ _ _ _ _ _ _ => touchExecVsrl
  | .vsra _ _ _ _ _ _ _ => touchExecVsra
  | .vcmpeq _ _ _ _ _ _ _ => touchExecVcmpeq
  | .vcmplt _ _ _ _ _ _ _ => touchExecVcmplt
  | .vcmple _ _ _ _ _ _ _ => touchExecVcmple
  | .vsel _ _ _ _ _ _ _ => touchExecVsel
  | .vcvt _ _ _ _ _ _ _ => touchExecVcvt
  | .vwmul _ _ _ _ _ _ _ => touchExecVwmul
  | .vwmulhi _ _ _ _ _ _ _ => touchExecVwmulhi
  | .vdot _ _ _ _ _ _ _ => touchExecVdot
  | .vrsum _ _ _ _ _ _ _ => touchExecVrsum
  | .vld _ _ _ _ _ => touchExecVld
  | .vst _ _ _ _ _ => touchExecVst
  | .vgath _ _ _ _ _ _ _ _ => touchExecVgath
  | .vscat _ _ _ _ _ _ _ _ => touchExecVscat
  | .vsplat _ _ _ _ _ => touchExecVsplat
  | .vext _ _ _ _ _ => touchExecVext
  | .sync _ _ _ => touchExecSync
  | .coreParityReplay _ _ _ => touchExecCoreParityReplay
  | .coreSelftestComplete _ _ => touchExecCoreSelftestComplete
  | .supervisorMismatch _ => touchExecSupervisorMismatch
  | .stackRead _ _ _ _ _ => touchExecStackRead
  | .stackWrite _ _ _ => touchExecStackWrite
  | .llmFillComplete _ _ => touchExecLlmFillComplete
  | .narrowRequest _ _ _ _ => touchExecNarrowRequest
  | .coalescingWaitExpiry _ _ => touchExecCoalescingWaitExpiry
  | .channelParityReplay _ => touchExecChannelParityReplay
  | .calibrationDrift _ => touchExecCalibrationDrift
  | .channelRetrainComplete _ _ => touchExecChannelRetrainComplete
  | .patternTestComplete _ _ => touchExecPatternTestComplete
  | .channelMapoutSwitch => touchExecChannelMapoutSwitch
  | .migrationComplete => touchExecMigrationComplete
  | .softRemapComplete _ => touchExecSoftRemapComplete
  | .permanentRepairStart _ => touchExecPermanentRepairStart
  | .fusePulseComplete _ _ => touchExecFusePulseComplete
  | .scrubLine _ _ _ _ _ _ => touchExecScrubLine
  | .teardownWipeComplete => touchExecTeardownWipeComplete
  | .llmMbistComplete _ _ _ => touchExecLlmMbistComplete
  | .sliceSweepComplete _ _ => touchExecSliceSweepComplete
  | .taggedLineSweep _ => touchExecTaggedLineSweep
  | .allocTopWrite _ _ => touchExecAllocTopWrite
  | .mapoutForceWrite _ _ => touchExecMapoutForceWrite
  | .wrapperSelect _ _ => touchExecWrapperSelect
  | .journalRead _ => touchExecJournalRead
  | .remapRead _ _ => touchExecRemapRead
  | .remapWrite _ _ => touchExecRemapWrite
  | .repairRow _ => touchExecRepairRow
  | .channelTest _ _ => touchExecChannelTest
  | .draughtStatus => touchExecDraughtStatus
  | .hbm4DeviceIdentity => touchExecHbm4DeviceIdentity
  | .hbm4TemperatureReadout => touchExecHbm4TemperatureReadout
  | .hbm4ModeRegisterDump => touchExecHbm4ModeRegisterDump
  | .hbm4LaneRepair _ => touchExecHbm4LaneRepair
  | .hbm4SoftPpr _ => touchExecHbm4SoftPpr
  | .hbm4HardPpr _ => touchExecHbm4HardPpr
  | .wordReplay _ _ => touchExecWordReplay
  | .bridgeSegmentTestComplete _ _ _ => touchExecBridgeSegmentTestComplete
  | .couplerBistComplete _ _ => touchExecCouplerBistComplete
  | .fabricPortTestComplete _ _ _ => touchExecFabricPortTestComplete
  | .linkTrainingStart _ => touchExecLinkTrainingStart
  | .linkUp _ _ => touchExecLinkUp
  | .linkDetectRetry _ _ => touchExecLinkDetectRetry
  | .linkFarEndIdle _ => touchExecLinkFarEndIdle
  | .linkAbsentTimeout _ => touchExecLinkAbsentTimeout
  | .laneTestStart _ _ => touchExecLaneTestStart
  | .laneTestComplete _ _ _ => touchExecLaneTestComplete
  | .flitReceive _ _ _ _ => touchExecFlitReceive
  | .linkAckTimeout _ => touchExecLinkAckTimeout
  | .linkCmdRetrain _ _ => touchExecLinkCmdRetrain
  | .linkCmdDisable _ _ => touchExecLinkCmdDisable
  | .linkCmdEnable _ _ => touchExecLinkCmdEnable
  | .linkStateMessage _ _ => touchExecLinkStateMessage
  | .pktRead _ _ _ => touchExecPktRead
  | .pktReadResp _ _ _ _ => touchExecPktReadResp
  | .pktWrite _ _ _ _ => touchExecPktWrite
  | .pktAck _ _ => touchExecPktAck
  | .pktAmo _ _ _ _ => touchExecPktAmo
  | .pktAmoResp _ _ _ _ => touchExecPktAmoResp
  | .pktRacc _ _ _ _ _ _ _ => touchExecPktRacc
  | .pktNack _ _ _ _ => touchExecPktNack
  | .pktMail _ _ _ _ _ _ _ _ => touchExecPktMail
  | .pktMailAck _ _ _ _ _ => touchExecPktMailAck
  | .remoteTimeout _ => touchExecRemoteTimeout
  | .raccRoundEnd => touchExecRaccRoundEnd
  | .raccCloseMessage _ _ _ => touchExecRaccCloseMessage
  | .mailDoorbell _ _ => touchExecMailDoorbell
  | .mailComplete _ => touchExecMailComplete
  | .mailRetransmitTimeout _ => touchExecMailRetransmitTimeout
  | .mailTransitTimeout => touchExecMailTransitTimeout
  | .crosswindPairingMessage _ _ => touchExecCrosswindPairingMessage
  | .crosswindDigestMessage _ _ _ => touchExecCrosswindDigestMessage
  | .crosswindStreamDigests _ _ _ => touchExecCrosswindStreamDigests
  | .crosswindChunkExchange _ _ _ _ _ => touchExecCrosswindChunkExchange
  | .errorAckWrite _ _ => touchExecErrorAckWrite
  | .alertCauseWrite _ _ => touchExecAlertCauseWrite
  | .squallClear => touchExecSquallClear
  | .peerLossTimeout _ => touchExecPeerLossTimeout
  | .snapCaptureComplete _ => touchExecSnapCaptureComplete
  | .snapQuiesceComplete => touchExecSnapQuiesceComplete
  | .snapAgreementComplete _ _ _ _ => touchExecSnapAgreementComplete
  | .stackPartComplete _ _ => touchExecStackPartComplete
  | .shardReceive _ _ _ _ _ _ _ => touchExecShardReceive
  | .drainAck _ _ _ => touchExecDrainAck
  | .drainDeadlineExpiry _ => touchExecDrainDeadlineExpiry
  | .nodeDigestMessage _ _ _ => touchExecNodeDigestMessage
  | .recoveryRollback _ _ _ _ => touchExecRecoveryRollback
  | .recoveryTakeover _ _ _ _ _ => touchExecRecoveryTakeover
  | .recoveryRejoin _ _ _ _ => touchExecRecoveryRejoin
  | .takeoverUpdateMessage _ _ _ => touchExecTakeoverUpdateMessage
  | .restoreComplete _ _ => touchExecRestoreComplete
  | .teardownComplete => touchExecTeardownComplete
  | .hostLinkTraining _ _ _ => touchExecHostLinkTraining
  | .hostLinkReset _ => touchExecHostLinkReset
  | .sqTailDoorbell _ _ _ => touchExecSqTailDoorbell
  | .cqHeadDoorbell _ _ => touchExecCqHeadDoorbell
  | .jobLoad _ => touchExecJobLoad
  | .jobStart => touchExecJobStart
  | .jobStartTimeout => touchExecJobStartTimeout
  | .jobEnd => touchExecJobEnd
  | .copyToDevice _ => touchExecCopyToDevice
  | .copyFromDevice => touchExecCopyFromDevice
  | .rosterRegister _ _ _ => touchExecRosterRegister
  | .rosterDeregister => touchExecRosterDeregister
  | .regionRegister _ => touchExecRegionRegister
  | .regionDeregister => touchExecRegionDeregister
  | .bayResume => touchExecBayResume
  | .winCmdRead _ _ _ _ => touchExecWinCmdRead
  | .winCmdWrite _ _ _ _ _ => touchExecWinCmdWrite
  | .notificationPost _ _ => touchExecNotificationPost
  | .hostMemRead _ => touchExecHostMemRead
  | .hostMemWrite _ _ => touchExecHostMemWrite
  | .sqEnableWrite _ _ _ => touchExecSqEnableWrite
  | .getVersion _ => touchExecGetVersion
  | .getCapabilities _ => touchExecGetCapabilities
  | .negotiateAlgorithms _ => touchExecNegotiateAlgorithms
  | .getDigests _ => touchExecGetDigests
  | .getCertificate _ _ _ _ => touchExecGetCertificate
  | .challenge _ => touchExecChallenge
  | .getMeasurements _ _ => touchExecGetMeasurements
  | .keyExchange _ _ => touchExecKeyExchange
  | .finish _ _ _ _ _ => touchExecFinish
  | .heartbeat _ => touchExecHeartbeat
  | .keyUpdate _ => touchExecKeyUpdate
  | .endSession _ => touchExecEndSession
  | .heartbeatMissed _ _ => touchExecHeartbeatMissed
  | .objectWrite _ _ _ _ _ => touchExecObjectWrite
  | .auditMirrorCopy => touchExecAuditMirrorCopy
  | .auditAckHostWrite _ _ => touchExecAuditAckHostWrite
  | .auditHostHoldWrite _ _ => touchExecAuditHostHoldWrite
  | .dictAnswerLate => touchExecDictAnswerLate
  | .blobAssemblyTimeout _ => touchExecBlobAssemblyTimeout
  | .jp2Read _ _ _ _ _ => touchExecJp2Read
  | .jp2Write _ _ _ _ _ _ => touchExecJp2Write
  | .jp2Spdm _ _ _ => touchExecJp2Spdm
  | .jp2Secured _ _ _ _ _ _ _ => touchExecJp2Secured
  | .subOpenSample _ _ _ _ => touchExecSubOpenSample
  | .subOpenAudit _ _ _ _ => touchExecSubOpenAudit
  | .subAck _ _ _ => touchExecSubAck
  | .subClose _ _ _ => touchExecSubClose
  | .samplePeriod _ => touchExecSamplePeriod
  | .auditResendTimeout _ => touchExecAuditResendTimeout
  | .auditHoldTimeout _ => touchExecAuditHoldTimeout
  | .jp1Request _ _ => touchExecJp1Request
  | .jdict _ _ => touchExecJdict
  | .arpRequest _ _ => touchExecArpRequest
  | .icmpEcho _ _ _ => touchExecIcmpEcho
  | .ptpMessage _ _ _ _ _ => touchExecPtpMessage
  | .ppsEdge => touchExecPpsEdge
  | .ptpReferenceSilent => touchExecPtpReferenceSilent
  | .taiSetWrite _ _ => touchExecTaiSetWrite
  | .freezeCmdTrigger _ => touchExecFreezeCmdTrigger
  | .freezeCmdRearm _ => touchExecFreezeCmdRearm
  | .freezeCmdDisarm _ => touchExecFreezeCmdDisarm
  | .snapTrigEdge _ => touchExecSnapTrigEdge
  | .freezeHoldExpiry => touchExecFreezeHoldExpiry
  | .lateLatch _ => touchExecLateLatch
  | .freezeDumpComplete => touchExecFreezeDumpComplete
  | .levelSatRefresh _ => touchExecLevelSatRefresh
  | .latClearWrite _ _ => touchExecLatClearWrite
  | .errorRateWindow => touchExecErrorRateWindow
  | .vinAonLost => touchExecVinAonLost
  | .stackRailsInRange => touchExecStackRailsInRange
  | .fOrDInstruction _ _ _ => touchExecFOrDInstruction
  | .mgmtAddressRenewal _ _ _ => touchExecMgmtAddressRenewal
  | .digestMismatchReport _ _ _ _ _ _ => touchExecDigestMismatchReport
  | .chunkRefetchRequest _ _ _ _ _ => touchExecChunkRefetchRequest
  | .takeoverAcknowledgement _ => touchExecTakeoverAcknowledgement
  | .backInvalidateResponse _ => touchExecBackInvalidateResponse

set_option maxRecDepth 4000 in
theorem keeps_exec (i : Instr) (hK : Closed (Instr.touches i) K) (s : State) (hs : Has K s) : HasRes K (exec i s) := by
  cases i with
  | vinAonApplied => exact keeps_execVinAonApplied hK _ (fun _ h => h) hs
  | crystalStable => exact keeps_execCrystalStable hK _ (fun _ h => h) hs
  | crystalFailTimeout => exact keeps_execCrystalFailTimeout hK _ (fun _ h => h) hs
  | mclkStop => exact keeps_execMclkStop hK _ (fun _ h => h) hs
  | vinMainInRange => exact keeps_execVinMainInRange hK _ (fun _ h => h) hs
  | pwrOkAsserted x0 => exact keeps_execPwrOkAsserted hK x0 _ (fun _ h => h) hs
  | pwrOkDeasserted x0 => exact keeps_execPwrOkDeasserted hK x0 _ (fun _ h => h) hs
  | stackRailOutOfRange x0 => exact keeps_execStackRailOutOfRange hK x0 _ (fun _ h => h) hs
  | coldReset x0 => exact keeps_execColdReset hK x0 _ (fun _ h => h) hs
  | warmReset x0 => exact keeps_execWarmReset hK x0 _ (fun _ h => h) hs
  | resetAfterFusePulse => exact keeps_execResetAfterFusePulse hK _ (fun _ h => h) hs
  | resetReleased => exact keeps_execResetReleased hK _ (fun _ h => h) hs
  | initStageComplete x0 => exact keeps_execInitStageComplete hK x0 _ (fun _ h => h) hs
  | pllALockTimeout x0 x1 => exact keeps_execPllALockTimeout hK x0 x1 _ (fun _ h => h) hs
  | pllLossOfLock x0 => exact keeps_execPllLossOfLock hK x0 _ (fun _ h => h) hs
  | sparePllLockTimeout x0 => exact keeps_execSparePllLockTimeout hK x0 _ (fun _ h => h) hs
  | clkSelWrite x0 x1 x2 => exact keeps_execClkSelWrite hK x0 x1 x2 _ (fun _ h => h) hs
  | readyFlagSwitch x0 x1 x2 => exact keeps_execReadyFlagSwitch hK x0 x1 x2 _ (fun _ h => h) hs
  | clockSwitchComplete x0 => exact keeps_execClockSwitchComplete hK x0 _ (fun _ h => h) hs
  | clockMuxHang x0 x1 => exact keeps_execClockMuxHang hK x0 x1 _ (fun _ h => h) hs
  | powerSample x0 x1 x2 => exact keeps_execPowerSample hK x0 x1 x2 _ (fun _ h => h) hs
  | throttleStepUp => exact keeps_execThrottleStepUp hK _ (fun _ h => h) hs
  | arrayThrottleStart x0 => exact keeps_execArrayThrottleStart hK x0 _ (fun _ h => h) hs
  | arrayThrottleEnd => exact keeps_execArrayThrottleEnd hK _ (fun _ h => h) hs
  | thermalSample x0 => exact keeps_execThermalSample hK x0 _ (fun _ h => h) hs
  | thermalFloorTimeout x0 => exact keeps_execThermalFloorTimeout hK x0 _ (fun _ h => h) hs
  | hardwareThermalTrip x0 => exact keeps_execHardwareThermalTrip hK x0 _ (fun _ h => h) hs
  | coolantLow => exact keeps_execCoolantLow hK _ (fun _ h => h) hs
  | coolantClear => exact keeps_execCoolantClear hK _ (fun _ h => h) hs
  | stateRequestLull x0 => exact keeps_execStateRequestLull hK x0 _ (fun _ h => h) hs
  | lullDeadlineExpiry => exact keeps_execLullDeadlineExpiry hK _ (fun _ h => h) hs
  | stateRequestResume x0 => exact keeps_execStateRequestResume hK x0 _ (fun _ h => h) hs
  | serviceRequestEnter x0 => exact keeps_execServiceRequestEnter hK x0 _ (fun _ h => h) hs
  | serviceRequestExit x0 => exact keeps_execServiceRequestExit hK x0 _ (fun _ h => h) hs
  | locationWrite x0 x1 => exact keeps_execLocationWrite hK x0 x1 _ (fun _ h => h) hs
  | timeStepBoundary => exact keeps_execTimeStepBoundary hK _ (fun _ h => h) hs
  | modeSetWrite x0 x1 x2 x3 => exact keeps_execModeSetWrite hK x0 x1 x2 x3 _ (fun _ h => h) hs
  | entryIssue x0 => exact keeps_execEntryIssue hK x0 _ (fun _ h => h) hs
  | entryStart x0 x1 => exact keeps_execEntryStart hK x0 x1 _ (fun _ h => h) hs
  | entryComplete x0 x1 => exact keeps_execEntryComplete hK x0 x1 _ (fun _ h => h) hs
  | deadlineMissed x0 x1 => exact keeps_execDeadlineMissed hK x0 x1 _ (fun _ h => h) hs
  | entryAbandon x0 x1 => exact keeps_execEntryAbandon hK x0 x1 _ (fun _ h => h) hs
  | mmaFull x0 x1 => exact keeps_execMmaFull hK x0 x1 _ (fun _ h => h) hs
  | mmaPartial x0 x1 => exact keeps_execMmaPartial hK x0 x1 _ (fun _ h => h) hs
  | mmaCombine x0 x1 => exact keeps_execMmaCombine hK x0 x1 _ (fun _ h => h) hs
  | arrayBistComplete x0 x1 x2 => exact keeps_execArrayBistComplete hK x0 x1 x2 _ (fun _ h => h) hs
  | baySpareCopyComplete x0 x1 => exact keeps_execBaySpareCopyComplete hK x0 x1 _ (fun _ h => h) hs
  | vopCopy x0 => exact keeps_execVopCopy hK x0 _ (fun _ h => h) hs
  | vopAdd x0 => exact keeps_execVopAdd hK x0 _ (fun _ h => h) hs
  | vopSub x0 => exact keeps_execVopSub hK x0 _ (fun _ h => h) hs
  | vopMul x0 => exact keeps_execVopMul hK x0 _ (fun _ h => h) hs
  | vopFma x0 => exact keeps_execVopFma hK x0 _ (fun _ h => h) hs
  | vopDiv x0 => exact keeps_execVopDiv hK x0 _ (fun _ h => h) hs
  | vopSqrt x0 => exact keeps_execVopSqrt hK x0 _ (fun _ h => h) hs
  | vopMin x0 => exact keeps_execVopMin hK x0 _ (fun _ h => h) hs
  | vopMax x0 => exact keeps_execVopMax hK x0 _ (fun _ h => h) hs
  | vopAbs x0 => exact keeps_execVopAbs hK x0 _ (fun _ h => h) hs
  | vopNeg x0 => exact keeps_execVopNeg hK x0 _ (fun _ h => h) hs
  | vopScale x0 => exact keeps_execVopScale hK x0 _ (fun _ h => h) hs
  | vopSel x0 => exact keeps_execVopSel hK x0 _ (fun _ h => h) hs
  | vopShiftc x0 => exact keeps_execVopShiftc hK x0 _ (fun _ h => h) hs
  | vopRelu x0 => exact keeps_execVopRelu hK x0 _ (fun _ h => h) hs
  | vopCmpeq x0 => exact keeps_execVopCmpeq hK x0 _ (fun _ h => h) hs
  | vopCmplt x0 => exact keeps_execVopCmplt hK x0 _ (fun _ h => h) hs
  | vopCmple x0 => exact keeps_execVopCmple hK x0 _ (fun _ h => h) hs
  | vopCmpne x0 => exact keeps_execVopCmpne hK x0 _ (fun _ h => h) hs
  | vopPand x0 => exact keeps_execVopPand hK x0 _ (fun _ h => h) hs
  | vopPor x0 => exact keeps_execVopPor hK x0 _ (fun _ h => h) hs
  | vopPxor x0 => exact keeps_execVopPxor hK x0 _ (fun _ h => h) hs
  | vopPnot x0 => exact keeps_execVopPnot hK x0 _ (fun _ h => h) hs
  | vopPset x0 => exact keeps_execVopPset hK x0 _ (fun _ h => h) hs
  | vopExp x0 => exact keeps_execVopExp hK x0 _ (fun _ h => h) hs
  | vopLog x0 => exact keeps_execVopLog hK x0 _ (fun _ h => h) hs
  | vopTanh x0 => exact keeps_execVopTanh hK x0 _ (fun _ h => h) hs
  | vopSigm x0 => exact keeps_execVopSigm hK x0 _ (fun _ h => h) hs
  | vopSilu x0 => exact keeps_execVopSilu hK x0 _ (fun _ h => h) hs
  | vopGelu x0 => exact keeps_execVopGelu hK x0 _ (fun _ h => h) hs
  | vredSum x0 => exact keeps_execVredSum hK x0 _ (fun _ h => h) hs
  | vredSumsq x0 => exact keeps_execVredSumsq hK x0 _ (fun _ h => h) hs
  | vredDot x0 => exact keeps_execVredDot hK x0 _ (fun _ h => h) hs
  | vredMax x0 => exact keeps_execVredMax hK x0 _ (fun _ h => h) hs
  | vredMin x0 => exact keeps_execVredMin hK x0 _ (fun _ h => h) hs
  | vredMaxabs x0 => exact keeps_execVredMaxabs hK x0 _ (fun _ h => h) hs
  | vredArgmax x0 => exact keeps_execVredArgmax hK x0 _ (fun _ h => h) hs
  | vredCountnz x0 => exact keeps_execVredCountnz hK x0 _ (fun _ h => h) hs
  | xfer x0 => exact keeps_execXfer hK x0 _ (fun _ h => h) hs
  | gath x0 => exact keeps_execGath hK x0 _ (fun _ h => h) hs
  | scat x0 => exact keeps_execScat hK x0 _ (fun _ h => h) hs
  | rstore x0 => exact keeps_execRstore hK x0 _ (fun _ h => h) hs
  | raccRelaxed x0 => exact keeps_execRaccRelaxed hK x0 _ (fun _ h => h) hs
  | raccOrdered x0 => exact keeps_execRaccOrdered hK x0 _ (fun _ h => h) hs
  | mcast x0 => exact keeps_execMcast hK x0 _ (fun _ h => h) hs
  | transEncode x0 => exact keeps_execTransEncode hK x0 _ (fun _ h => h) hs
  | transDecode x0 => exact keeps_execTransDecode hK x0 _ (fun _ h => h) hs
  | transRecode x0 => exact keeps_execTransRecode hK x0 _ (fun _ h => h) hs
  | transConvert x0 => exact keeps_execTransConvert hK x0 _ (fun _ h => h) hs
  | transPartComplete x0 x1 => exact keeps_execTransPartComplete hK x0 x1 _ (fun _ h => h) hs
  | histClear x0 => exact keeps_execHistClear hK x0 _ (fun _ h => h) hs
  | histCarry x0 => exact keeps_execHistCarry hK x0 _ (fun _ h => h) hs
  | histCopy x0 => exact keeps_execHistCopy hK x0 _ (fun _ h => h) hs
  | histMerge x0 => exact keeps_execHistMerge hK x0 _ (fun _ h => h) hs
  | histScan x0 => exact keeps_execHistScan hK x0 _ (fun _ h => h) hs
  | collAllreduce x0 => exact keeps_execCollAllreduce hK x0 _ (fun _ h => h) hs
  | collReduce x0 => exact keeps_execCollReduce hK x0 _ (fun _ h => h) hs
  | collReduceScatter x0 => exact keeps_execCollReduceScatter hK x0 _ (fun _ h => h) hs
  | collBroadcast x0 => exact keeps_execCollBroadcast hK x0 _ (fun _ h => h) hs
  | collAllgather x0 => exact keeps_execCollAllgather hK x0 _ (fun _ h => h) hs
  | collAllgatherv x0 => exact keeps_execCollAllgatherv hK x0 _ (fun _ h => h) hs
  | collBarrier x0 => exact keeps_execCollBarrier hK x0 _ (fun _ h => h) hs
  | fence x0 => exact keeps_execFence hK x0 _ (fun _ h => h) hs
  | waitEvent x0 => exact keeps_execWaitEvent hK x0 _ (fun _ h => h) hs
  | waitFlag x0 => exact keeps_execWaitFlag hK x0 _ (fun _ h => h) hs
  | waitNodeBarrier x0 => exact keeps_execWaitNodeBarrier hK x0 _ (fun _ h => h) hs
  | waitToken x0 => exact keeps_execWaitToken hK x0 _ (fun _ h => h) hs
  | waitConditionMet x0 => exact keeps_execWaitConditionMet hK x0 _ (fun _ h => h) hs
  | epoch x0 => exact keeps_execEpoch hK x0 _ (fun _ h => h) hs
  | br x0 x1 => exact keeps_execBr hK x0 x1 _ (fun _ h => h) hs
  | loop x0 x1 => exact keeps_execLoop hK x0 x1 _ (fun _ h => h) hs
  | call x0 x1 => exact keeps_execCall hK x0 x1 _ (fun _ h => h) hs
  | tableEnd x0 => exact keeps_execTableEnd hK x0 _ (fun _ h => h) hs
  | model x0 => exact keeps_execModel hK x0 _ (fun _ h => h) hs
  | tailwindCopyComplete x0 => exact keeps_execTailwindCopyComplete hK x0 _ (fun _ h => h) hs
  | snap x0 => exact keeps_execSnap hK x0 _ (fun _ h => h) hs
  | digest x0 => exact keeps_execDigest hK x0 _ (fun _ h => h) hs
  | eventRegisterWrite x0 x1 => exact keeps_execEventRegisterWrite hK x0 x1 _ (fun _ h => h) hs
  | collNodeLocalStage x0 x1 => exact keeps_execCollNodeLocalStage hK x0 x1 _ (fun _ h => h) hs
  | collChunkReceive x0 x1 x2 x3 x4 x5 x6 => exact keeps_execCollChunkReceive hK x0 x1 x2 x3 x4 x5 x6 _ (fun _ h => h) hs
  | collRetentionAck x0 x1 x2 x3 x4 x5 => exact keeps_execCollRetentionAck hK x0 x1 x2 x3 x4 x5 _ (fun _ h => h) hs
  | collCommit x0 x1 x2 x3 x4 x5 x6 x7 => exact keeps_execCollCommit hK x0 x1 x2 x3 x4 x5 x6 x7 _ (fun _ h => h) hs
  | collAbort x0 x1 x2 x3 x4 x5 => exact keeps_execCollAbort hK x0 x1 x2 x3 x4 x5 _ (fun _ h => h) hs
  | collAbandon x0 x1 => exact keeps_execCollAbandon hK x0 x1 _ (fun _ h => h) hs
  | jobBarrierComplete => exact keeps_execJobBarrierComplete hK _ (fun _ h => h) hs
  | epochFenceMessage x0 x1 x2 => exact keeps_execEpochFenceMessage hK x0 x1 x2 _ (fun _ h => h) hs
  | bayPreempt => exact keeps_execBayPreempt hK _ (fun _ h => h) hs
  | contextSaveComplete x0 => exact keeps_execContextSaveComplete hK x0 _ (fun _ h => h) hs
  | preemptDeferralExpiry x0 => exact keeps_execPreemptDeferralExpiry hK x0 _ (fun _ h => h) hs
  | hartLoad x0 x1 x2 x3 x4 x5 x6 => exact keeps_execHartLoad hK x0 x1 x2 x3 x4 x5 x6 _ (fun _ h => h) hs
  | hartStore x0 x1 x2 x3 x4 x5 x6 => exact keeps_execHartStore hK x0 x1 x2 x3 x4 x5 x6 _ (fun _ h => h) hs
  | hartAmo x0 x1 x2 x3 x4 x5 x6 x7 => exact keeps_execHartAmo hK x0 x1 x2 x3 x4 x5 x6 x7 _ (fun _ h => h) hs
  | hartFence x0 x1 x2 => exact keeps_execHartFence hK x0 x1 x2 _ (fun _ h => h) hs
  | hartWfi x0 => exact keeps_execHartWfi hK x0 _ (fun _ h => h) hs
  | accessReturn x0 => exact keeps_execAccessReturn hK x0 _ (fun _ h => h) hs
  | storeBufferDrain x0 => exact keeps_execStoreBufferDrain hK x0 _ (fun _ h => h) hs
  | threadTurnLimit x0 => exact keeps_execThreadTurnLimit hK x0 _ (fun _ h => h) hs
  | interruptPending x0 x1 => exact keeps_execInterruptPending hK x0 x1 _ (fun _ h => h) hs
  | sbiBaseCall x0 => exact keeps_execSbiBaseCall hK x0 _ (fun _ h => h) hs
  | sbiSetTimer x0 => exact keeps_execSbiSetTimer hK x0 _ (fun _ h => h) hs
  | sbiSendIpi x0 => exact keeps_execSbiSendIpi hK x0 _ (fun _ h => h) hs
  | sbiSystemReset x0 => exact keeps_execSbiSystemReset hK x0 _ (fun _ h => h) hs
  | svxrerrClear x0 => exact keeps_execSvxrerrClear hK x0 _ (fun _ h => h) hs
  | vadd x0 x1 x2 x3 x4 x5 x6 => exact keeps_execVadd hK x0 x1 x2 x3 x4 x5 x6 _ (fun _ h => h) hs
  | vsub x0 x1 x2 x3 x4 x5 x6 => exact keeps_execVsub hK x0 x1 x2 x3 x4 x5 x6 _ (fun _ h => h) hs
  | vmul x0 x1 x2 x3 x4 x5 x6 => exact keeps_execVmul hK x0 x1 x2 x3 x4 x5 x6 _ (fun _ h => h) hs
  | vmulh x0 x1 x2 x3 x4 x5 x6 => exact keeps_execVmulh hK x0 x1 x2 x3 x4 x5 x6 _ (fun _ h => h) hs
  | vfma x0 x1 x2 x3 x4 x5 x6 => exact keeps_execVfma hK x0 x1 x2 x3 x4 x5 x6 _ (fun _ h => h) hs
  | vmin x0 x1 x2 x3 x4 x5 x6 => exact keeps_execVmin hK x0 x1 x2 x3 x4 x5 x6 _ (fun _ h => h) hs
  | vmax x0 x1 x2 x3 x4 x5 x6 => exact keeps_execVmax hK x0 x1 x2 x3 x4 x5 x6 _ (fun _ h => h) hs
  | vdiv x0 x1 x2 x3 x4 x5 x6 => exact keeps_execVdiv hK x0 x1 x2 x3 x4 x5 x6 _ (fun _ h => h) hs
  | vsqrt x0 x1 x2 x3 x4 x5 x6 => exact keeps_execVsqrt hK x0 x1 x2 x3 x4 x5 x6 _ (fun _ h => h) hs
  | vand x0 x1 x2 x3 x4 x5 x6 => exact keeps_execVand hK x0 x1 x2 x3 x4 x5 x6 _ (fun _ h => h) hs
  | vor x0 x1 x2 x3 x4 x5 x6 => exact keeps_execVor hK x0 x1 x2 x3 x4 x5 x6 _ (fun _ h => h) hs
  | vxor x0 x1 x2 x3 x4 x5 x6 => exact keeps_execVxor hK x0 x1 x2 x3 x4 x5 x6 _ (fun _ h => h) hs
  | vsll x0 x1 x2 x3 x4 x5 x6 => exact keeps_execVsll hK x0 x1 x2 x3 x4 x5 x6 _ (fun _ h => h) hs
  | vsrl x0 x1 x2 x3 x4 x5 x6 => exact keeps_execVsrl hK x0 x1 x2 x3 x4 x5 x6 _ (fun _ h => h) hs
  | vsra x0 x1 x2 x3 x4 x5 x6 => exact keeps_execVsra hK x0 x1 x2 x3 x4 x5 x6 _ (fun _ h => h) hs
  | vcmpeq x0 x1 x2 x3 x4 x5 x6 => exact keeps_execVcmpeq hK x0 x1 x2 x3 x4 x5 x6 _ (fun _ h => h) hs
  | vcmplt x0 x1 x2 x3 x4 x5 x6 => exact keeps_execVcmplt hK x0 x1 x2 x3 x4 x5 x6 _ (fun _ h => h) hs
  | vcmple x0 x1 x2 x3 x4 x5 x6 => exact keeps_execVcmple hK x0 x1 x2 x3 x4 x5 x6 _ (fun _ h => h) hs
  | vsel x0 x1 x2 x3 x4 x5 x6 => exact keeps_execVsel hK x0 x1 x2 x3 x4 x5 x6 _ (fun _ h => h) hs
  | vcvt x0 x1 x2 x3 x4 x5 x6 => exact keeps_execVcvt hK x0 x1 x2 x3 x4 x5 x6 _ (fun _ h => h) hs
  | vwmul x0 x1 x2 x3 x4 x5 x6 => exact keeps_execVwmul hK x0 x1 x2 x3 x4 x5 x6 _ (fun _ h => h) hs
  | vwmulhi x0 x1 x2 x3 x4 x5 x6 => exact keeps_execVwmulhi hK x0 x1 x2 x3 x4 x5 x6 _ (fun _ h => h) hs
  | vdot x0 x1 x2 x3 x4 x5 x6 => exact keeps_execVdot hK x0 x1 x2 x3 x4 x5 x6 _ (fun _ h => h) hs
  | vrsum x0 x1 x2 x3 x4 x5 x6 => exact keeps_execVrsum hK x0 x1 x2 x3 x4 x5 x6 _ (fun _ h => h) hs
  | vld x0 x1 x2 x3 x4 => exact keeps_execVld hK x0 x1 x2 x3 x4 _ (fun _ h => h) hs
  | vst x0 x1 x2 x3 x4 => exact keeps_execVst hK x0 x1 x2 x3 x4 _ (fun _ h => h) hs
  | vgath x0 x1 x2 x3 x4 x5 x6 x7 => exact keeps_execVgath hK x0 x1 x2 x3 x4 x5 x6 x7 _ (fun _ h => h) hs
  | vscat x0 x1 x2 x3 x4 x5 x6 x7 => exact keeps_execVscat hK x0 x1 x2 x3 x4 x5 x6 x7 _ (fun _ h => h) hs
  | vsplat x0 x1 x2 x3 x4 => exact keeps_execVsplat hK x0 x1 x2 x3 x4 _ (fun _ h => h) hs
  | vext x0 x1 x2 x3 x4 => exact keeps_execVext hK x0 x1 x2 x3 x4 _ (fun _ h => h) hs
  | sync x0 x1 x2 => exact keeps_execSync hK x0 x1 x2 _ (fun _ h => h) hs
  | coreParityReplay x0 x1 x2 => exact keeps_execCoreParityReplay hK x0 x1 x2 _ (fun _ h => h) hs
  | coreSelftestComplete x0 x1 => exact keeps_execCoreSelftestComplete hK x0 x1 _ (fun _ h => h) hs
  | supervisorMismatch x0 => exact keeps_execSupervisorMismatch hK x0 _ (fun _ h => h) hs
  | stackRead x0 x1 x2 x3 x4 => exact keeps_execStackRead hK x0 x1 x2 x3 x4 _ (fun _ h => h) hs
  | stackWrite x0 x1 x2 => exact keeps_execStackWrite hK x0 x1 x2 _ (fun _ h => h) hs
  | llmFillComplete x0 x1 => exact keeps_execLlmFillComplete hK x0 x1 _ (fun _ h => h) hs
  | narrowRequest x0 x1 x2 x3 => exact keeps_execNarrowRequest hK x0 x1 x2 x3 _ (fun _ h => h) hs
  | coalescingWaitExpiry x0 x1 => exact keeps_execCoalescingWaitExpiry hK x0 x1 _ (fun _ h => h) hs
  | channelParityReplay x0 => exact keeps_execChannelParityReplay hK x0 _ (fun _ h => h) hs
  | calibrationDrift x0 => exact keeps_execCalibrationDrift hK x0 _ (fun _ h => h) hs
  | channelRetrainComplete x0 x1 => exact keeps_execChannelRetrainComplete hK x0 x1 _ (fun _ h => h) hs
  | patternTestComplete x0 x1 => exact keeps_execPatternTestComplete hK x0 x1 _ (fun _ h => h) hs
  | channelMapoutSwitch => exact keeps_execChannelMapoutSwitch hK _ (fun _ h => h) hs
  | migrationComplete => exact keeps_execMigrationComplete hK _ (fun _ h => h) hs
  | softRemapComplete x0 => exact keeps_execSoftRemapComplete hK x0 _ (fun _ h => h) hs
  | permanentRepairStart x0 => exact keeps_execPermanentRepairStart hK x0 _ (fun _ h => h) hs
  | fusePulseComplete x0 x1 => exact keeps_execFusePulseComplete hK x0 x1 _ (fun _ h => h) hs
  | scrubLine x0 x1 x2 x3 x4 x5 => exact keeps_execScrubLine hK x0 x1 x2 x3 x4 x5 _ (fun _ h => h) hs
  | teardownWipeComplete => exact keeps_execTeardownWipeComplete hK _ (fun _ h => h) hs
  | llmMbistComplete x0 x1 x2 => exact keeps_execLlmMbistComplete hK x0 x1 x2 _ (fun _ h => h) hs
  | sliceSweepComplete x0 x1 => exact keeps_execSliceSweepComplete hK x0 x1 _ (fun _ h => h) hs
  | taggedLineSweep x0 => exact keeps_execTaggedLineSweep hK x0 _ (fun _ h => h) hs
  | allocTopWrite x0 x1 => exact keeps_execAllocTopWrite hK x0 x1 _ (fun _ h => h) hs
  | mapoutForceWrite x0 x1 => exact keeps_execMapoutForceWrite hK x0 x1 _ (fun _ h => h) hs
  | wrapperSelect x0 x1 => exact keeps_execWrapperSelect hK x0 x1 _ (fun _ h => h) hs
  | journalRead x0 => exact keeps_execJournalRead hK x0 _ (fun _ h => h) hs
  | remapRead x0 x1 => exact keeps_execRemapRead hK x0 x1 _ (fun _ h => h) hs
  | remapWrite x0 x1 => exact keeps_execRemapWrite hK x0 x1 _ (fun _ h => h) hs
  | repairRow x0 => exact keeps_execRepairRow hK x0 _ (fun _ h => h) hs
  | channelTest x0 x1 => exact keeps_execChannelTest hK x0 x1 _ (fun _ h => h) hs
  | draughtStatus => exact keeps_execDraughtStatus hK _ (fun _ h => h) hs
  | hbm4DeviceIdentity => exact keeps_execHbm4DeviceIdentity hK _ (fun _ h => h) hs
  | hbm4TemperatureReadout => exact keeps_execHbm4TemperatureReadout hK _ (fun _ h => h) hs
  | hbm4ModeRegisterDump => exact keeps_execHbm4ModeRegisterDump hK _ (fun _ h => h) hs
  | hbm4LaneRepair x0 => exact keeps_execHbm4LaneRepair hK x0 _ (fun _ h => h) hs
  | hbm4SoftPpr x0 => exact keeps_execHbm4SoftPpr hK x0 _ (fun _ h => h) hs
  | hbm4HardPpr x0 => exact keeps_execHbm4HardPpr hK x0 _ (fun _ h => h) hs
  | wordReplay x0 x1 => exact keeps_execWordReplay hK x0 x1 _ (fun _ h => h) hs
  | bridgeSegmentTestComplete x0 x1 x2 => exact keeps_execBridgeSegmentTestComplete hK x0 x1 x2 _ (fun _ h => h) hs
  | couplerBistComplete x0 x1 => exact keeps_execCouplerBistComplete hK x0 x1 _ (fun _ h => h) hs
  | fabricPortTestComplete x0 x1 x2 => exact keeps_execFabricPortTestComplete hK x0 x1 x2 _ (fun _ h => h) hs
  | linkTrainingStart x0 => exact keeps_execLinkTrainingStart hK x0 _ (fun _ h => h) hs
  | linkUp x0 x1 => exact keeps_execLinkUp hK x0 x1 _ (fun _ h => h) hs
  | linkDetectRetry x0 x1 => exact keeps_execLinkDetectRetry hK x0 x1 _ (fun _ h => h) hs
  | linkFarEndIdle x0 => exact keeps_execLinkFarEndIdle hK x0 _ (fun _ h => h) hs
  | linkAbsentTimeout x0 => exact keeps_execLinkAbsentTimeout hK x0 _ (fun _ h => h) hs
  | laneTestStart x0 x1 => exact keeps_execLaneTestStart hK x0 x1 _ (fun _ h => h) hs
  | laneTestComplete x0 x1 x2 => exact keeps_execLaneTestComplete hK x0 x1 x2 _ (fun _ h => h) hs
  | flitReceive x0 x1 x2 x3 => exact keeps_execFlitReceive hK x0 x1 x2 x3 _ (fun _ h => h) hs
  | linkAckTimeout x0 => exact keeps_execLinkAckTimeout hK x0 _ (fun _ h => h) hs
  | linkCmdRetrain x0 x1 => exact keeps_execLinkCmdRetrain hK x0 x1 _ (fun _ h => h) hs
  | linkCmdDisable x0 x1 => exact keeps_execLinkCmdDisable hK x0 x1 _ (fun _ h => h) hs
  | linkCmdEnable x0 x1 => exact keeps_execLinkCmdEnable hK x0 x1 _ (fun _ h => h) hs
  | linkStateMessage x0 x1 => exact keeps_execLinkStateMessage hK x0 x1 _ (fun _ h => h) hs
  | pktRead x0 x1 x2 => exact keeps_execPktRead hK x0 x1 x2 _ (fun _ h => h) hs
  | pktReadResp x0 x1 x2 x3 => exact keeps_execPktReadResp hK x0 x1 x2 x3 _ (fun _ h => h) hs
  | pktWrite x0 x1 x2 x3 => exact keeps_execPktWrite hK x0 x1 x2 x3 _ (fun _ h => h) hs
  | pktAck x0 x1 => exact keeps_execPktAck hK x0 x1 _ (fun _ h => h) hs
  | pktAmo x0 x1 x2 x3 => exact keeps_execPktAmo hK x0 x1 x2 x3 _ (fun _ h => h) hs
  | pktAmoResp x0 x1 x2 x3 => exact keeps_execPktAmoResp hK x0 x1 x2 x3 _ (fun _ h => h) hs
  | pktRacc x0 x1 x2 x3 x4 x5 x6 => exact keeps_execPktRacc hK x0 x1 x2 x3 x4 x5 x6 _ (fun _ h => h) hs
  | pktNack x0 x1 x2 x3 => exact keeps_execPktNack hK x0 x1 x2 x3 _ (fun _ h => h) hs
  | pktMail x0 x1 x2 x3 x4 x5 x6 x7 => exact keeps_execPktMail hK x0 x1 x2 x3 x4 x5 x6 x7 _ (fun _ h => h) hs
  | pktMailAck x0 x1 x2 x3 x4 => exact keeps_execPktMailAck hK x0 x1 x2 x3 x4 _ (fun _ h => h) hs
  | remoteTimeout x0 => exact keeps_execRemoteTimeout hK x0 _ (fun _ h => h) hs
  | raccRoundEnd => exact keeps_execRaccRoundEnd hK _ (fun _ h => h) hs
  | raccCloseMessage x0 x1 x2 => exact keeps_execRaccCloseMessage hK x0 x1 x2 _ (fun _ h => h) hs
  | mailDoorbell x0 x1 => exact keeps_execMailDoorbell hK x0 x1 _ (fun _ h => h) hs
  | mailComplete x0 => exact keeps_execMailComplete hK x0 _ (fun _ h => h) hs
  | mailRetransmitTimeout x0 => exact keeps_execMailRetransmitTimeout hK x0 _ (fun _ h => h) hs
  | mailTransitTimeout => exact keeps_execMailTransitTimeout hK _ (fun _ h => h) hs
  | crosswindPairingMessage x0 x1 => exact keeps_execCrosswindPairingMessage hK x0 x1 _ (fun _ h => h) hs
  | crosswindDigestMessage x0 x1 x2 => exact keeps_execCrosswindDigestMessage hK x0 x1 x2 _ (fun _ h => h) hs
  | crosswindStreamDigests x0 x1 x2 => exact keeps_execCrosswindStreamDigests hK x0 x1 x2 _ (fun _ h => h) hs
  | crosswindChunkExchange x0 x1 x2 x3 x4 => exact keeps_execCrosswindChunkExchange hK x0 x1 x2 x3 x4 _ (fun _ h => h) hs
  | errorAckWrite x0 x1 => exact keeps_execErrorAckWrite hK x0 x1 _ (fun _ h => h) hs
  | alertCauseWrite x0 x1 => exact keeps_execAlertCauseWrite hK x0 x1 _ (fun _ h => h) hs
  | squallClear => exact keeps_execSquallClear hK _ (fun _ h => h) hs
  | peerLossTimeout x0 => exact keeps_execPeerLossTimeout hK x0 _ (fun _ h => h) hs
  | snapCaptureComplete x0 => exact keeps_execSnapCaptureComplete hK x0 _ (fun _ h => h) hs
  | snapQuiesceComplete => exact keeps_execSnapQuiesceComplete hK _ (fun _ h => h) hs
  | snapAgreementComplete x0 x1 x2 x3 => exact keeps_execSnapAgreementComplete hK x0 x1 x2 x3 _ (fun _ h => h) hs
  | stackPartComplete x0 x1 => exact keeps_execStackPartComplete hK x0 x1 _ (fun _ h => h) hs
  | shardReceive x0 x1 x2 x3 x4 x5 x6 => exact keeps_execShardReceive hK x0 x1 x2 x3 x4 x5 x6 _ (fun _ h => h) hs
  | drainAck x0 x1 x2 => exact keeps_execDrainAck hK x0 x1 x2 _ (fun _ h => h) hs
  | drainDeadlineExpiry x0 => exact keeps_execDrainDeadlineExpiry hK x0 _ (fun _ h => h) hs
  | nodeDigestMessage x0 x1 x2 => exact keeps_execNodeDigestMessage hK x0 x1 x2 _ (fun _ h => h) hs
  | recoveryRollback x0 x1 x2 x3 => exact keeps_execRecoveryRollback hK x0 x1 x2 x3 _ (fun _ h => h) hs
  | recoveryTakeover x0 x1 x2 x3 x4 => exact keeps_execRecoveryTakeover hK x0 x1 x2 x3 x4 _ (fun _ h => h) hs
  | recoveryRejoin x0 x1 x2 x3 => exact keeps_execRecoveryRejoin hK x0 x1 x2 x3 _ (fun _ h => h) hs
  | takeoverUpdateMessage x0 x1 x2 => exact keeps_execTakeoverUpdateMessage hK x0 x1 x2 _ (fun _ h => h) hs
  | restoreComplete x0 x1 => exact keeps_execRestoreComplete hK x0 x1 _ (fun _ h => h) hs
  | teardownComplete => exact keeps_execTeardownComplete hK _ (fun _ h => h) hs
  | hostLinkTraining x0 x1 x2 => exact keeps_execHostLinkTraining hK x0 x1 x2 _ (fun _ h => h) hs
  | hostLinkReset x0 => exact keeps_execHostLinkReset hK x0 _ (fun _ h => h) hs
  | sqTailDoorbell x0 x1 x2 => exact keeps_execSqTailDoorbell hK x0 x1 x2 _ (fun _ h => h) hs
  | cqHeadDoorbell x0 x1 => exact keeps_execCqHeadDoorbell hK x0 x1 _ (fun _ h => h) hs
  | jobLoad x0 => exact keeps_execJobLoad hK x0 _ (fun _ h => h) hs
  | jobStart => exact keeps_execJobStart hK _ (fun _ h => h) hs
  | jobStartTimeout => exact keeps_execJobStartTimeout hK _ (fun _ h => h) hs
  | jobEnd => exact keeps_execJobEnd hK _ (fun _ h => h) hs
  | copyToDevice x0 => exact keeps_execCopyToDevice hK x0 _ (fun _ h => h) hs
  | copyFromDevice => exact keeps_execCopyFromDevice hK _ (fun _ h => h) hs
  | rosterRegister x0 x1 x2 => exact keeps_execRosterRegister hK x0 x1 x2 _ (fun _ h => h) hs
  | rosterDeregister => exact keeps_execRosterDeregister hK _ (fun _ h => h) hs
  | regionRegister x0 => exact keeps_execRegionRegister hK x0 _ (fun _ h => h) hs
  | regionDeregister => exact keeps_execRegionDeregister hK _ (fun _ h => h) hs
  | bayResume => exact keeps_execBayResume hK _ (fun _ h => h) hs
  | winCmdRead x0 x1 x2 x3 => exact keeps_execWinCmdRead hK x0 x1 x2 x3 _ (fun _ h => h) hs
  | winCmdWrite x0 x1 x2 x3 x4 => exact keeps_execWinCmdWrite hK x0 x1 x2 x3 x4 _ (fun _ h => h) hs
  | notificationPost x0 x1 => exact keeps_execNotificationPost hK x0 x1 _ (fun _ h => h) hs
  | hostMemRead x0 => exact keeps_execHostMemRead hK x0 _ (fun _ h => h) hs
  | hostMemWrite x0 x1 => exact keeps_execHostMemWrite hK x0 x1 _ (fun _ h => h) hs
  | sqEnableWrite x0 x1 x2 => exact keeps_execSqEnableWrite hK x0 x1 x2 _ (fun _ h => h) hs
  | getVersion x0 => exact keeps_execGetVersion hK x0 _ (fun _ h => h) hs
  | getCapabilities x0 => exact keeps_execGetCapabilities hK x0 _ (fun _ h => h) hs
  | negotiateAlgorithms x0 => exact keeps_execNegotiateAlgorithms hK x0 _ (fun _ h => h) hs
  | getDigests x0 => exact keeps_execGetDigests hK x0 _ (fun _ h => h) hs
  | getCertificate x0 x1 x2 x3 => exact keeps_execGetCertificate hK x0 x1 x2 x3 _ (fun _ h => h) hs
  | challenge x0 => exact keeps_execChallenge hK x0 _ (fun _ h => h) hs
  | getMeasurements x0 x1 => exact keeps_execGetMeasurements hK x0 x1 _ (fun _ h => h) hs
  | keyExchange x0 x1 => exact keeps_execKeyExchange hK x0 x1 _ (fun _ h => h) hs
  | finish x0 x1 x2 x3 x4 => exact keeps_execFinish hK x0 x1 x2 x3 x4 _ (fun _ h => h) hs
  | heartbeat x0 => exact keeps_execHeartbeat hK x0 _ (fun _ h => h) hs
  | keyUpdate x0 => exact keeps_execKeyUpdate hK x0 _ (fun _ h => h) hs
  | endSession x0 => exact keeps_execEndSession hK x0 _ (fun _ h => h) hs
  | heartbeatMissed x0 x1 => exact keeps_execHeartbeatMissed hK x0 x1 _ (fun _ h => h) hs
  | objectWrite x0 x1 x2 x3 x4 => exact keeps_execObjectWrite hK x0 x1 x2 x3 x4 _ (fun _ h => h) hs
  | auditMirrorCopy => exact keeps_execAuditMirrorCopy hK _ (fun _ h => h) hs
  | auditAckHostWrite x0 x1 => exact keeps_execAuditAckHostWrite hK x0 x1 _ (fun _ h => h) hs
  | auditHostHoldWrite x0 x1 => exact keeps_execAuditHostHoldWrite hK x0 x1 _ (fun _ h => h) hs
  | dictAnswerLate => exact keeps_execDictAnswerLate hK _ (fun _ h => h) hs
  | blobAssemblyTimeout x0 => exact keeps_execBlobAssemblyTimeout hK x0 _ (fun _ h => h) hs
  | jp2Read x0 x1 x2 x3 x4 => exact keeps_execJp2Read hK x0 x1 x2 x3 x4 _ (fun _ h => h) hs
  | jp2Write x0 x1 x2 x3 x4 x5 => exact keeps_execJp2Write hK x0 x1 x2 x3 x4 x5 _ (fun _ h => h) hs
  | jp2Spdm x0 x1 x2 => exact keeps_execJp2Spdm hK x0 x1 x2 _ (fun _ h => h) hs
  | jp2Secured x0 x1 x2 x3 x4 x5 x6 => exact keeps_execJp2Secured hK x0 x1 x2 x3 x4 x5 x6 _ (fun _ h => h) hs
  | subOpenSample x0 x1 x2 x3 => exact keeps_execSubOpenSample hK x0 x1 x2 x3 _ (fun _ h => h) hs
  | subOpenAudit x0 x1 x2 x3 => exact keeps_execSubOpenAudit hK x0 x1 x2 x3 _ (fun _ h => h) hs
  | subAck x0 x1 x2 => exact keeps_execSubAck hK x0 x1 x2 _ (fun _ h => h) hs
  | subClose x0 x1 x2 => exact keeps_execSubClose hK x0 x1 x2 _ (fun _ h => h) hs
  | samplePeriod x0 => exact keeps_execSamplePeriod hK x0 _ (fun _ h => h) hs
  | auditResendTimeout x0 => exact keeps_execAuditResendTimeout hK x0 _ (fun _ h => h) hs
  | auditHoldTimeout x0 => exact keeps_execAuditHoldTimeout hK x0 _ (fun _ h => h) hs
  | jp1Request x0 x1 => exact keeps_execJp1Request hK x0 x1 _ (fun _ h => h) hs
  | jdict x0 x1 => exact keeps_execJdict hK x0 x1 _ (fun _ h => h) hs
  | arpRequest x0 x1 => exact keeps_execArpRequest hK x0 x1 _ (fun _ h => h) hs
  | icmpEcho x0 x1 x2 => exact keeps_execIcmpEcho hK x0 x1 x2 _ (fun _ h => h) hs
  | ptpMessage x0 x1 x2 x3 x4 => exact keeps_execPtpMessage hK x0 x1 x2 x3 x4 _ (fun _ h => h) hs
  | ppsEdge => exact keeps_execPpsEdge hK _ (fun _ h => h) hs
  | ptpReferenceSilent => exact keeps_execPtpReferenceSilent hK _ (fun _ h => h) hs
  | taiSetWrite x0 x1 => exact keeps_execTaiSetWrite hK x0 x1 _ (fun _ h => h) hs
  | freezeCmdTrigger x0 => exact keeps_execFreezeCmdTrigger hK x0 _ (fun _ h => h) hs
  | freezeCmdRearm x0 => exact keeps_execFreezeCmdRearm hK x0 _ (fun _ h => h) hs
  | freezeCmdDisarm x0 => exact keeps_execFreezeCmdDisarm hK x0 _ (fun _ h => h) hs
  | snapTrigEdge x0 => exact keeps_execSnapTrigEdge hK x0 _ (fun _ h => h) hs
  | freezeHoldExpiry => exact keeps_execFreezeHoldExpiry hK _ (fun _ h => h) hs
  | lateLatch x0 => exact keeps_execLateLatch hK x0 _ (fun _ h => h) hs
  | freezeDumpComplete => exact keeps_execFreezeDumpComplete hK _ (fun _ h => h) hs
  | levelSatRefresh x0 => exact keeps_execLevelSatRefresh hK x0 _ (fun _ h => h) hs
  | latClearWrite x0 x1 => exact keeps_execLatClearWrite hK x0 x1 _ (fun _ h => h) hs
  | errorRateWindow => exact keeps_execErrorRateWindow hK _ (fun _ h => h) hs
  | vinAonLost => exact keeps_execVinAonLost hK _ (fun _ h => h) hs
  | stackRailsInRange => exact keeps_execStackRailsInRange hK _ (fun _ h => h) hs
  | fOrDInstruction x0 x1 x2 => exact keeps_execFOrDInstruction hK x0 x1 x2 _ (fun _ h => h) hs
  | mgmtAddressRenewal x0 x1 x2 => exact keeps_execMgmtAddressRenewal hK x0 x1 x2 _ (fun _ h => h) hs
  | digestMismatchReport x0 x1 x2 x3 x4 x5 => exact keeps_execDigestMismatchReport hK x0 x1 x2 x3 x4 x5 _ (fun _ h => h) hs
  | chunkRefetchRequest x0 x1 x2 x3 x4 => exact keeps_execChunkRefetchRequest hK x0 x1 x2 x3 x4 _ (fun _ h => h) hs
  | takeoverAcknowledgement x0 => exact keeps_execTakeoverAcknowledgement hK x0 _ (fun _ h => h) hs
  | backInvalidateResponse x0 => exact keeps_execBackInvalidateResponse hK x0 _ (fun _ h => h) hs

/-- What a command leaves: a register that it does not touch reads as before, and so does node memory. -/
theorem frame_exec {i : Instr} {s t : State} (h : exec i s = .next t) :
    (∀ r, Instr.touches i (some r) = false → ∀ j, t.reg r j = s.reg r j) ∧ (Instr.touches i none = false → MemKept s t) := by
  refine ⟨fun r hr j => ((keeps_exec i (closed_reg _ s r hr j) s ⟨rfl⟩).out t h).out, fun hm a => ?_⟩
  unfold State.byte
  rw [((keeps_exec i (closed_mem _ s hm) s ⟨rfl⟩).out t h).out]

end Sys2Proof.Machine
end

