-- ==== Sys2Proof/Laws/Frames.lean ====
section
/-! SUPPORT. What each operation leaves: a register that it does not touch reads as before, and node memory where it does not
store. -/

namespace Sys2Proof.Machine

theorem addReg_reg (s : State) (r : Reg) (i n : Nat) (q_ : Reg) (h_ : touchAddReg r (some q_) = false) (j_ : Nat) :
  (State.addReg s r i n).reg q_ j_ = s.reg q_ j_ :=
  (keeps_addReg (closed_reg _ _ _ h_ _) _ _ _ _ (fun _ h => h) ⟨rfl⟩).out
theorem addReg_mem (s : State) (r : Reg) (i n : Nat) (h_ : touchAddReg r none = false) : (State.addReg s r i n).mem
  = s.mem :=
  (keeps_addReg (closed_mem _ _ h_) _ _ _ _ (fun _ h => h) ⟨rfl⟩).out

theorem setFlag_reg (s : State) (r : Reg) (i b : Nat) (v : Bool) (q_ : Reg) (h_ : touchSetFlag r (some q_) = false)
  (j_ : Nat) : (State.setFlag s r i b v).reg q_ j_ = s.reg q_ j_ :=
  (keeps_setFlag (closed_reg _ _ _ h_ _) _ _ _ _ _ (fun _ h => h) ⟨rfl⟩).out
theorem setFlag_mem (s : State) (r : Reg) (i b : Nat) (v : Bool) (h_ : touchSetFlag r none = false) : (State.setFlag
  s r i b v).mem = s.mem :=
  (keeps_setFlag (closed_mem _ _ h_) _ _ _ _ _ (fun _ h => h) ⟨rfl⟩).out

theorem setBytes_reg (s : State) (r : Reg) (inst : Nat) (bs : List Byte) (q_ : Reg) (h_ : touchSetBytes r (some q_)
  = false) (j_ : Nat) : (State.setBytes s r inst bs).reg q_ j_ = s.reg q_ j_ :=
  (keeps_setBytes (closed_reg _ _ _ h_ _) _ _ _ _ (fun _ h => h) ⟨rfl⟩).out
theorem setBytes_mem (s : State) (r : Reg) (inst : Nat) (bs : List Byte) (h_ : touchSetBytes r none = false) :
  (State.setBytes s r inst bs).mem = s.mem :=
  (keeps_setBytes (closed_mem _ _ h_) _ _ _ _ (fun _ h => h) ⟨rfl⟩).out

@[simp] theorem draw_reg (s : State) (q_ : Reg) (j_ : Nat) : (State.draw s).2.reg q_ j_ = s.reg q_ j_ :=
  (keeps_draw (closed_reg (fun _ => false) _ _ rfl _) _ ⟨rfl⟩).out
@[simp] theorem draw_mem (s : State) : (State.draw s).2.mem = s.mem :=
  (keeps_draw (closed_mem (fun _ => false) _ rfl) _ ⟨rfl⟩).out

@[simp] theorem send_reg (s : State) (o : Output) (q_ : Reg) (j_ : Nat) : (State.send s o).reg q_ j_ = s.reg q_ j_
  :=
  (keeps_send (closed_reg (fun _ => false) _ _ rfl _) _ _ ⟨rfl⟩).out
@[simp] theorem send_mem (s : State) (o : Output) : (State.send s o).mem = s.mem :=
  (keeps_send (closed_mem (fun _ => false) _ rfl) _ _ ⟨rfl⟩).out

theorem store_reg (s : State) (a n v : Nat) (q_ : Reg) (h_ : touchStore (some q_) = false) (j_ : Nat) : (State.store
  s a n v).reg q_ j_ = s.reg q_ j_ :=
  (keeps_store (closed_reg _ _ _ h_ _) _ _ _ _ (fun _ h => h) ⟨rfl⟩).out
theorem store_mem (s : State) (a n v : Nat) (h_ : touchStore none = false) : (State.store s a n v).mem = s.mem :=
  (keeps_store (closed_mem _ _ h_) _ _ _ _ (fun _ h => h) ⟨rfl⟩).out

@[simp] theorem migrate_reg (s : State) (q_ : Reg) (j_ : Nat) : (State.migrate s).reg q_ j_ = s.reg q_ j_ :=
  (keeps_migrate (closed_reg (fun _ => false) _ _ rfl _) _ ⟨rfl⟩).out
@[simp] theorem migrate_mem (s : State) : (State.migrate s).mem = s.mem :=
  (keeps_migrate (closed_mem (fun _ => false) _ rfl) _ ⟨rfl⟩).out

@[simp] theorem tick_reg (s : State) (q_ : Reg) (j_ : Nat) : (tick s).reg q_ j_ = s.reg q_ j_ :=
  (keeps_tick (closed_reg (fun _ => false) _ _ rfl _) _ ⟨rfl⟩).out
@[simp] theorem tick_mem (s : State) : (tick s).mem = s.mem :=
  (keeps_tick (closed_mem (fun _ => false) _ rfl) _ ⟨rfl⟩).out

theorem refreshAcked_reg (s : State) (q_ : Reg) (h_ : touchRefreshAcked (some q_) = false) (j_ : Nat) :
  (State.refreshAcked s).reg q_ j_ = s.reg q_ j_ :=
  (keeps_refreshAcked (closed_reg _ _ _ h_ _) _ (fun _ h => h) ⟨rfl⟩).out
theorem refreshAcked_mem (s : State) (h_ : touchRefreshAcked none = false) : (State.refreshAcked s).mem = s.mem :=
  (keeps_refreshAcked (closed_mem _ _ h_) _ (fun _ h => h) ⟨rfl⟩).out

theorem sendEvents_reg (s : State) (who : Requester) (seq : Nat) (q_ : Reg) (h_ : touchSendEvents (some q_) = false)
  (j_ : Nat) : (State.sendEvents s who seq).reg q_ j_ = s.reg q_ j_ :=
  (keeps_sendEvents (closed_reg _ _ _ h_ _) _ _ _ (fun _ h => h) ⟨rfl⟩).out
theorem sendEvents_mem (s : State) (who : Requester) (seq : Nat) (h_ : touchSendEvents none = false) :
  (State.sendEvents s who seq).mem = s.mem :=
  (keeps_sendEvents (closed_mem _ _ h_) _ _ _ (fun _ h => h) ⟨rfl⟩).out

theorem pumpAudit_reg (s : State) (q_ : Reg) (h_ : touchPumpAudit (some q_) = false) (j_ : Nat) : (State.pumpAudit
  s).reg q_ j_ = s.reg q_ j_ :=
  (keeps_pumpAudit (closed_reg _ _ _ h_ _) _ (fun _ h => h) ⟨rfl⟩).out
theorem pumpAudit_mem (s : State) (h_ : touchPumpAudit none = false) : (State.pumpAudit s).mem = s.mem :=
  (keeps_pumpAudit (closed_mem _ _ h_) _ (fun _ h => h) ⟨rfl⟩).out

theorem appendAudit_reg (s : State) (obj origin principal result flags : Nat) (old new : List Byte) (q_ : Reg) (h_ :
  touchAppendAudit (some q_) = false) (j_ : Nat) : (State.appendAudit s obj origin principal result flags old
  new).reg q_ j_ = s.reg q_ j_ :=
  (keeps_appendAudit (closed_reg _ _ _ h_ _) _ _ _ _ _ _ _ _ (fun _ h => h) ⟨rfl⟩).out
theorem appendAudit_mem (s : State) (obj origin principal result flags : Nat) (old new : List Byte) (h_ :
  touchAppendAudit none = false) : (State.appendAudit s obj origin principal result flags old new).mem = s.mem :=
  (keeps_appendAudit (closed_mem _ _ h_) _ _ _ _ _ _ _ _ (fun _ h => h) ⟨rfl⟩).out

theorem auditInternal_reg (s : State) (obj result : Nat) (old new : List Byte) (q_ : Reg) (h_ : touchAuditInternal
  (some q_) = false) (j_ : Nat) : (State.auditInternal s obj result old new).reg q_ j_ = s.reg q_ j_ :=
  (keeps_auditInternal (closed_reg _ _ _ h_ _) _ _ _ _ _ (fun _ h => h) ⟨rfl⟩).out
theorem auditInternal_mem (s : State) (obj result : Nat) (old new : List Byte) (h_ : touchAuditInternal none =
  false) : (State.auditInternal s obj result old new).mem = s.mem :=
  (keeps_auditInternal (closed_mem _ _ h_) _ _ _ _ _ (fun _ h => h) ⟨rfl⟩).out

theorem change_reg (s : State) (r : Reg) (i v : Nat) (q_ : Reg) (h_ : touchChange r (some q_) = false) (j_ : Nat) :
  (State.change s r i v).reg q_ j_ = s.reg q_ j_ :=
  (keeps_change (closed_reg _ _ _ h_ _) _ _ _ _ (fun _ h => h) ⟨rfl⟩).out
theorem change_mem (s : State) (r : Reg) (i v : Nat) (h_ : touchChange r none = false) : (State.change s r i v).mem
  = s.mem :=
  (keeps_change (closed_mem _ _ h_) _ _ _ _ (fun _ h => h) ⟨rfl⟩).out

theorem changeAll_reg (s : State) (r : Reg) (inst : Nat) (vs : List Nat) (q_ : Reg) (h_ : touchChangeAll r (some q_)
  = false) (j_ : Nat) : (State.changeAll s r inst vs).reg q_ j_ = s.reg q_ j_ :=
  (keeps_changeAll (closed_reg _ _ _ h_ _) _ _ _ _ (fun _ h => h) ⟨rfl⟩).out
theorem changeAll_mem (s : State) (r : Reg) (inst : Nat) (vs : List Nat) (h_ : touchChangeAll r none = false) :
  (State.changeAll s r inst vs).mem = s.mem :=
  (keeps_changeAll (closed_mem _ _ h_) _ _ _ _ (fun _ h => h) ⟨rfl⟩).out

theorem raise_reg (s : State) (r : Reg) (b : Nat) (q_ : Reg) (h_ : touchRaise r (some q_) = false) (j_ : Nat) :
  (State.raise s r b).reg q_ j_ = s.reg q_ j_ :=
  (keeps_raise (closed_reg _ _ _ h_ _) _ _ _ (fun _ h => h) ⟨rfl⟩).out
theorem raise_mem (s : State) (r : Reg) (b : Nat) (h_ : touchRaise r none = false) : (State.raise s r b).mem = s.mem
  :=
  (keeps_raise (closed_mem _ _ h_) _ _ _ (fun _ h => h) ⟨rfl⟩).out

theorem lower_reg (s : State) (r : Reg) (b : Nat) (q_ : Reg) (h_ : touchLower r (some q_) = false) (j_ : Nat) :
  (State.lower s r b).reg q_ j_ = s.reg q_ j_ :=
  (keeps_lower (closed_reg _ _ _ h_ _) _ _ _ (fun _ h => h) ⟨rfl⟩).out
theorem lower_mem (s : State) (r : Reg) (b : Nat) (h_ : touchLower r none = false) : (State.lower s r b).mem = s.mem
  :=
  (keeps_lower (closed_mem _ _ h_) _ _ _ (fun _ h => h) ⟨rfl⟩).out

@[simp] theorem poison_reg (s : State) (a : Nat) (q_ : Reg) (j_ : Nat) : (State.poison s a).reg q_ j_ = s.reg q_ j_
  :=
  (keeps_poison (closed_reg (fun _ => false) _ _ rfl _) _ _ ⟨rfl⟩).out
@[simp] theorem poison_mem (s : State) (a : Nat) : (State.poison s a).mem = s.mem :=
  (keeps_poison (closed_mem (fun _ => false) _ rfl) _ _ ⟨rfl⟩).out

@[simp] theorem poisonWord_reg (s : State) (a : Nat) (q_ : Reg) (j_ : Nat) : (State.poisonWord s a).reg q_ j_ =
  s.reg q_ j_ :=
  (keeps_poisonWord (closed_reg (fun _ => false) _ _ rfl _) _ _ ⟨rfl⟩).out
@[simp] theorem poisonWord_mem (s : State) (a : Nat) : (State.poisonWord s a).mem = s.mem :=
  (keeps_poisonWord (closed_mem (fun _ => false) _ rfl) _ _ ⟨rfl⟩).out

@[simp] theorem poisonSpan_reg (s : State) (lo hi : Nat) (q_ : Reg) (j_ : Nat) : (State.poisonSpan s lo hi).reg q_
  j_ = s.reg q_ j_ :=
  (keeps_poisonSpan (closed_reg (fun _ => false) _ _ rfl _) _ _ _ ⟨rfl⟩).out
@[simp] theorem poisonSpan_mem (s : State) (lo hi : Nat) : (State.poisonSpan s lo hi).mem = s.mem :=
  (keeps_poisonSpan (closed_mem (fun _ => false) _ rfl) _ _ _ ⟨rfl⟩).out

theorem copyBefore_reg (s : State) (x : Slot) (lo hi : Nat) (q_ : Reg) (h_ : touchCopyBefore (some q_) = false) (j_
  : Nat) : (State.copyBefore s x lo hi).1.reg q_ j_ = s.reg q_ j_ :=
  (keeps_copyBefore (closed_reg _ _ _ h_ _) _ _ _ _ (fun _ h => h) ⟨rfl⟩).out
theorem copyBefore_mem (s : State) (x : Slot) (lo hi : Nat) (h_ : touchCopyBefore none = false) : (State.copyBefore
  s x lo hi).1.mem = s.mem :=
  (keeps_copyBefore (closed_mem _ _ h_) _ _ _ _ (fun _ h => h) ⟨rfl⟩).out

@[simp] theorem noteMoved_reg (s : State) (lo hi : Nat) (q_ : Reg) (j_ : Nat) : (State.noteMoved s lo hi).reg q_ j_
  = s.reg q_ j_ :=
  (keeps_noteMoved (closed_reg (fun _ => false) _ _ rfl _) _ _ _ ⟨rfl⟩).out
@[simp] theorem noteMoved_mem (s : State) (lo hi : Nat) : (State.noteMoved s lo hi).mem = s.mem :=
  (keeps_noteMoved (closed_mem (fun _ => false) _ rfl) _ _ _ ⟨rfl⟩).out

@[simp] theorem noteMerge_reg (s : State) (lo hi : Nat) (q_ : Reg) (j_ : Nat) : (State.noteMerge s lo hi).reg q_ j_
  = s.reg q_ j_ :=
  (keeps_noteMerge (closed_reg (fun _ => false) _ _ rfl _) _ _ _ ⟨rfl⟩).out
@[simp] theorem noteMerge_mem (s : State) (lo hi : Nat) : (State.noteMerge s lo hi).mem = s.mem :=
  (keeps_noteMerge (closed_mem (fun _ => false) _ rfl) _ _ _ ⟨rfl⟩).out

theorem beforeWrite_reg (s : State) (lo hi : Nat) (q_ : Reg) (h_ : touchBeforeWrite (some q_) = false) (j_ : Nat) :
  (State.beforeWrite s lo hi).reg q_ j_ = s.reg q_ j_ :=
  (keeps_beforeWrite (closed_reg _ _ _ h_ _) _ _ _ (fun _ h => h) ⟨rfl⟩).out
theorem beforeWrite_mem (s : State) (lo hi : Nat) (h_ : touchBeforeWrite none = false) : (State.beforeWrite s lo
  hi).mem = s.mem :=
  (keeps_beforeWrite (closed_mem _ _ h_) _ _ _ (fun _ h => h) ⟨rfl⟩).out

theorem writeAtoms_reg (s : State) (a : Nat) (bs : List Byte) (q_ : Reg) (h_ : touchWriteAtoms (some q_) = false)
  (j_ : Nat) : (State.writeAtoms s a bs).reg q_ j_ = s.reg q_ j_ :=
  (keeps_writeAtoms (closed_reg _ _ _ h_ _) _ _ _ (fun _ h => h) ⟨rfl⟩).out
theorem writeAtoms_mem (s : State) (a : Nat) (bs : List Byte) (h_ : touchWriteAtoms none = false) :
  (State.writeAtoms s a bs).mem = s.mem :=
  (keeps_writeAtoms (closed_mem _ _ h_) _ _ _ (fun _ h => h) ⟨rfl⟩).out

@[simp] theorem clearWords_reg (s : State) (a hi : Nat) (q_ : Reg) (j_ : Nat) : (State.clearWords s a hi).reg q_ j_
  = s.reg q_ j_ :=
  (keeps_clearWords (closed_reg (fun _ => false) _ _ rfl _) _ _ _ ⟨rfl⟩).out
@[simp] theorem clearWords_mem (s : State) (a hi : Nat) : (State.clearWords s a hi).mem = s.mem :=
  (keeps_clearWords (closed_mem (fun _ => false) _ rfl) _ _ _ ⟨rfl⟩).out

theorem write_reg (s : State) (a : Nat) (bs : List Byte) (q_ : Reg) (h_ : touchWrite (some q_) = false) (j_ : Nat) :
  (State.write s a bs).reg q_ j_ = s.reg q_ j_ :=
  (keeps_write (closed_reg _ _ _ h_ _) _ _ _ (fun _ h => h) ⟨rfl⟩).out
theorem write_mem (s : State) (a : Nat) (bs : List Byte) (h_ : touchWrite none = false) : (State.write s a bs).mem =
  s.mem :=
  (keeps_write (closed_mem _ _ h_) _ _ _ (fun _ h => h) ⟨rfl⟩).out

@[simp] theorem setLlm_reg (s : State) (line v : Nat) (q_ : Reg) (j_ : Nat) : (State.setLlm s line v).reg q_ j_ =
  s.reg q_ j_ :=
  (keeps_setLlm (closed_reg (fun _ => false) _ _ rfl _) _ _ _ ⟨rfl⟩).out
@[simp] theorem setLlm_mem (s : State) (line v : Nat) : (State.setLlm s line v).mem = s.mem :=
  (keeps_setLlm (closed_mem (fun _ => false) _ rfl) _ _ _ ⟨rfl⟩).out

@[simp] theorem holdLine_reg (s : State) (line : Nat) (q_ : Reg) (j_ : Nat) : (State.holdLine s line).reg q_ j_ =
  s.reg q_ j_ :=
  (keeps_holdLine (closed_reg (fun _ => false) _ _ rfl _) _ _ ⟨rfl⟩).out
@[simp] theorem holdLine_mem (s : State) (line : Nat) : (State.holdLine s line).mem = s.mem :=
  (keeps_holdLine (closed_mem (fun _ => false) _ rfl) _ _ ⟨rfl⟩).out

@[simp] theorem setChan_reg (s : State) (ch : Nat) (c : Channel) (q_ : Reg) (j_ : Nat) : (State.setChan s ch c).reg
  q_ j_ = s.reg q_ j_ :=
  (keeps_setChan (closed_reg (fun _ => false) _ _ rfl _) _ _ _ ⟨rfl⟩).out
@[simp] theorem setChan_mem (s : State) (ch : Nat) (c : Channel) : (State.setChan s ch c).mem = s.mem :=
  (keeps_setChan (closed_mem (fun _ => false) _ rfl) _ _ _ ⟨rfl⟩).out

theorem accept_reg (s : State) (r : ChanReq) (q_ : Reg) (h_ : touchAccept (some q_) = false) (j_ : Nat) :
  (State.accept s r).reg q_ j_ = s.reg q_ j_ :=
  (keeps_accept (closed_reg _ _ _ h_ _) _ _ (fun _ h => h) ⟨rfl⟩).out
theorem accept_mem (s : State) (r : ChanReq) (h_ : touchAccept none = false) : (State.accept s r).mem = s.mem :=
  (keeps_accept (closed_mem _ _ h_) _ _ (fun _ h => h) ⟨rfl⟩).out

theorem queueChan_reg (s : State) (ch : Nat) (r : ChanReq) (q_ : Reg) (h_ : touchQueueChan (some q_) = false) (j_ :
  Nat) : (State.queueChan s ch r).reg q_ j_ = s.reg q_ j_ :=
  (keeps_queueChan (closed_reg _ _ _ h_ _) _ _ _ (fun _ h => h) ⟨rfl⟩).out
theorem queueChan_mem (s : State) (ch : Nat) (r : ChanReq) (h_ : touchQueueChan none = false) : (State.queueChan s
  ch r).mem = s.mem :=
  (keeps_queueChan (closed_mem _ _ h_) _ _ _ (fun _ h => h) ⟨rfl⟩).out

theorem writeStack_reg (s : State) (a : Nat) (bs : List Byte) (q_ : Reg) (h_ : touchWriteStack (some q_) = false)
  (j_ : Nat) : (State.writeStack s a bs).reg q_ j_ = s.reg q_ j_ :=
  (keeps_writeStack (closed_reg _ _ _ h_ _) _ _ _ (fun _ h => h) ⟨rfl⟩).out
theorem writeStack_mem (s : State) (a : Nat) (bs : List Byte) (h_ : touchWriteStack none = false) :
  (State.writeStack s a bs).mem = s.mem :=
  (keeps_writeStack (closed_mem _ _ h_) _ _ _ (fun _ h => h) ⟨rfl⟩).out

theorem writeCoupler_reg (s : State) (a : Nat) (bs : List Byte) (q_ : Reg) (h_ : touchWriteCoupler (some q_) =
  false) (j_ : Nat) : (State.writeCoupler s a bs).reg q_ j_ = s.reg q_ j_ :=
  (keeps_writeCoupler (closed_reg _ _ _ h_ _) _ _ _ (fun _ h => h) ⟨rfl⟩).out
theorem writeCoupler_mem (s : State) (a : Nat) (bs : List Byte) (h_ : touchWriteCoupler none = false) :
  (State.writeCoupler s a bs).mem = s.mem :=
  (keeps_writeCoupler (closed_mem _ _ h_) _ _ _ (fun _ h => h) ⟨rfl⟩).out

theorem jobWrite_reg (s : State) (a : Nat) (bs : List Byte) (q_ : Reg) (h_ : touchJobWrite (some q_) = false) (j_ :
  Nat) : (State.jobWrite s a bs).reg q_ j_ = s.reg q_ j_ :=
  (keeps_jobWrite (closed_reg _ _ _ h_ _) _ _ _ (fun _ h => h) ⟨rfl⟩).out
theorem jobWrite_mem (s : State) (a : Nat) (bs : List Byte) (h_ : touchJobWrite none = false) : (State.jobWrite s a
  bs).mem = s.mem :=
  (keeps_jobWrite (closed_mem _ _ h_) _ _ _ (fun _ h => h) ⟨rfl⟩).out

theorem writes_reg (s : State) (ws : List (Nat × List Byte)) (q_ : Reg) (h_ : touchWrites (some q_) = false) (j_ :
  Nat) : (State.writes s ws).reg q_ j_ = s.reg q_ j_ :=
  (keeps_writes (closed_reg _ _ _ h_ _) _ _ (fun _ h => h) ⟨rfl⟩).out
theorem writes_mem (s : State) (ws : List (Nat × List Byte)) (h_ : touchWrites none = false) : (State.writes s
  ws).mem = s.mem :=
  (keeps_writes (closed_mem _ _ h_) _ _ (fun _ h => h) ⟨rfl⟩).out

@[simp] theorem setBay_reg (s : State) (b : Nat) (x : Bay) (q_ : Reg) (j_ : Nat) : (State.setBay s b x).reg q_ j_ =
  s.reg q_ j_ :=
  (keeps_setBay (closed_reg (fun _ => false) _ _ rfl _) _ _ _ ⟨rfl⟩).out
@[simp] theorem setBay_mem (s : State) (b : Nat) (x : Bay) : (State.setBay s b x).mem = s.mem :=
  (keeps_setBay (closed_mem (fun _ => false) _ rfl) _ _ _ ⟨rfl⟩).out

@[simp] theorem squallWeigh_reg (s : State) (e : ErrorEvent) (q_ : Reg) (j_ : Nat) : (State.squallWeigh s e).2.reg
  q_ j_ = s.reg q_ j_ :=
  (keeps_squallWeigh (closed_reg (fun _ => false) _ _ rfl _) _ _ ⟨rfl⟩).out
@[simp] theorem squallWeigh_mem (s : State) (e : ErrorEvent) : (State.squallWeigh s e).2.mem = s.mem :=
  (keeps_squallWeigh (closed_mem (fun _ => false) _ rfl) _ _ ⟨rfl⟩).out

theorem squallWarns_reg (s : State) (q_ : Reg) (h_ : touchSquallWarns (some q_) = false) (j_ : Nat) :
  (State.squallWarns s).reg q_ j_ = s.reg q_ j_ :=
  (keeps_squallWarns (closed_reg _ _ _ h_ _) _ (fun _ h => h) ⟨rfl⟩).out
theorem squallWarns_mem (s : State) (h_ : touchSquallWarns none = false) : (State.squallWarns s).mem = s.mem :=
  (keeps_squallWarns (closed_mem _ _ h_) _ (fun _ h => h) ⟨rfl⟩).out

theorem trace_reg (s : State) (queueFull : Bool) (bs : List Byte) (q_ : Reg) (h_ : touchTrace (some q_) = false) (j_
  : Nat) : (State.trace s queueFull bs).reg q_ j_ = s.reg q_ j_ :=
  (keeps_trace (closed_reg _ _ _ h_ _) _ _ _ (fun _ h => h) ⟨rfl⟩).out
theorem trace_mem (s : State) (queueFull : Bool) (bs : List Byte) (h_ : touchTrace none = false) : (State.trace s
  queueFull bs).mem = s.mem :=
  (keeps_trace (closed_mem _ _ h_) _ _ _ (fun _ h => h) ⟨rfl⟩).out

theorem fire_reg (s : State) (src code step lbay : Nat) (q_ : Reg) (h_ : touchFire (some q_) = false) (j_ : Nat) :
  (State.fire s src code step lbay).reg q_ j_ = s.reg q_ j_ :=
  (keeps_fire (closed_reg _ _ _ h_ _) _ _ _ _ _ (fun _ h => h) ⟨rfl⟩).out
theorem fire_mem (s : State) (src code step lbay : Nat) (h_ : touchFire none = false) : (State.fire s src code step
  lbay).mem = s.mem :=
  (keeps_fire (closed_mem _ _ h_) _ _ _ _ _ (fun _ h => h) ⟨rfl⟩).out

theorem logError_reg (s : State) (e : ErrorEvent) (q_ : Reg) (h_ : touchLogError (some q_) = false) (j_ : Nat) :
  (State.logError s e).reg q_ j_ = s.reg q_ j_ :=
  (keeps_logError (closed_reg _ _ _ h_ _) _ _ (fun _ h => h) ⟨rfl⟩).out
theorem logError_mem (s : State) (e : ErrorEvent) (h_ : touchLogError none = false) : (State.logError s e).mem =
  s.mem :=
  (keeps_logError (closed_mem _ _ h_) _ _ (fun _ h => h) ⟨rfl⟩).out

@[simp] theorem settleError_reg (s : State) (seq outcome pause : Nat) (q_ : Reg) (j_ : Nat) : (State.settleError s
  seq outcome pause).reg q_ j_ = s.reg q_ j_ :=
  (keeps_settleError (closed_reg (fun _ => false) _ _ rfl _) _ _ _ _ ⟨rfl⟩).out
@[simp] theorem settleError_mem (s : State) (seq outcome pause : Nat) : (State.settleError s seq outcome pause).mem
  = s.mem :=
  (keeps_settleError (closed_mem (fun _ => false) _ rfl) _ _ _ _ ⟨rfl⟩).out

theorem answer_reg (s : State) (q : Requester) (obj code : Nat) (q_ : Reg) (h_ : touchAnswer (some q_) = false) (j_
  : Nat) : (State.answer s q obj code).reg q_ j_ = s.reg q_ j_ :=
  (keeps_answer (closed_reg _ _ _ h_ _) _ _ _ _ (fun _ h => h) ⟨rfl⟩).out
theorem answer_mem (s : State) (q : Requester) (obj code : Nat) (h_ : touchAnswer none = false) : (State.answer s q
  obj code).mem = s.mem :=
  (keeps_answer (closed_mem _ _ h_) _ _ _ _ (fun _ h => h) ⟨rfl⟩).out

theorem countRefused_reg (s : State) (q_ : Reg) (h_ : touchCountRefused (some q_) = false) (j_ : Nat) :
  (State.countRefused s).reg q_ j_ = s.reg q_ j_ :=
  (keeps_countRefused (closed_reg _ _ _ h_ _) _ (fun _ h => h) ⟨rfl⟩).out
theorem countRefused_mem (s : State) (h_ : touchCountRefused none = false) : (State.countRefused s).mem = s.mem :=
  (keeps_countRefused (closed_mem _ _ h_) _ (fun _ h => h) ⟨rfl⟩).out

theorem noteGated_reg (s : State) (code : Nat) (q_ : Reg) (h_ : touchNoteGated (some q_) = false) (j_ : Nat) :
  (State.noteGated s code).reg q_ j_ = s.reg q_ j_ :=
  (keeps_noteGated (closed_reg _ _ _ h_ _) _ _ (fun _ h => h) ⟨rfl⟩).out
theorem noteGated_mem (s : State) (code : Nat) (h_ : touchNoteGated none = false) : (State.noteGated s code).mem =
  s.mem :=
  (keeps_noteGated (closed_mem _ _ h_) _ _ (fun _ h => h) ⟨rfl⟩).out

theorem beforeChange_reg (s : State) (r : Reg) (inst : Nat) (q_ : Reg) (h_ : touchBeforeChange (some q_) = false)
  (j_ : Nat) : (State.beforeChange s r inst).reg q_ j_ = s.reg q_ j_ :=
  (keeps_beforeChange (closed_reg _ _ _ h_ _) _ _ _ (fun _ h => h) ⟨rfl⟩).out
theorem beforeChange_mem (s : State) (r : Reg) (inst : Nat) (h_ : touchBeforeChange none = false) :
  (State.beforeChange s r inst).mem = s.mem :=
  (keeps_beforeChange (closed_mem _ _ h_) _ _ _ (fun _ h => h) ⟨rfl⟩).out

theorem writeReadOnly_reg (s : State) (q : Requester) (addr : Nat) (bs : List Byte) (q_ : Reg) (h_ :
  touchWriteReadOnly (some q_) = false) (j_ : Nat) : (State.writeReadOnly s q addr bs).2.reg q_ j_ = s.reg q_ j_ :=
  (keeps_writeReadOnly (closed_reg _ _ _ h_ _) _ _ _ _ (fun _ h => h) ⟨rfl⟩).out
theorem writeReadOnly_mem (s : State) (q : Requester) (addr : Nat) (bs : List Byte) (h_ : touchWriteReadOnly none =
  false) : (State.writeReadOnly s q addr bs).2.mem = s.mem :=
  (keeps_writeReadOnly (closed_mem _ _ h_) _ _ _ _ (fun _ h => h) ⟨rfl⟩).out

theorem applyDeferred_reg (s : State) (q_ : Reg) (h_ : touchApplyDeferred (some q_) = false) (j_ : Nat) :
  (State.applyDeferred s).reg q_ j_ = s.reg q_ j_ :=
  (keeps_applyDeferred (closed_reg _ _ _ h_ _) _ (fun _ h => h) ⟨rfl⟩).out
theorem applyDeferred_mem (s : State) (h_ : touchApplyDeferred none = false) : (State.applyDeferred s).mem = s.mem
  :=
  (keeps_applyDeferred (closed_mem _ _ h_) _ (fun _ h => h) ⟨rfl⟩).out

theorem mergeStats_reg (s : State) (a : Nat) (d : Delta) (q_ : Reg) (h_ : touchMergeStats (some q_) = false) (j_ :
  Nat) : (State.mergeStats s a d).1.reg q_ j_ = s.reg q_ j_ :=
  (keeps_mergeStats (closed_reg _ _ _ h_ _) _ _ _ (fun _ h => h) ⟨rfl⟩).out
theorem mergeStats_mem (s : State) (a : Nat) (d : Delta) (h_ : touchMergeStats none = false) : (State.mergeStats s a
  d).1.mem = s.mem :=
  (keeps_mergeStats (closed_mem _ _ h_) _ _ _ (fun _ h => h) ⟨rfl⟩).out

theorem countDetours_reg (s : State) (q_ : Reg) (h_ : touchCountDetours (some q_) = false) (j_ : Nat) :
  (State.countDetours s).reg q_ j_ = s.reg q_ j_ :=
  (keeps_countDetours (closed_reg _ _ _ h_ _) _ (fun _ h => h) ⟨rfl⟩).out
theorem countDetours_mem (s : State) (h_ : touchCountDetours none = false) : (State.countDetours s).mem = s.mem :=
  (keeps_countDetours (closed_mem _ _ h_) _ (fun _ h => h) ⟨rfl⟩).out

@[simp] theorem sendOn_reg (s : State) (l : Nat) (o : Output) (q_ : Reg) (j_ : Nat) : (State.sendOn s l o).reg q_ j_
  = s.reg q_ j_ :=
  (keeps_sendOn (closed_reg (fun _ => false) _ _ rfl _) _ _ _ ⟨rfl⟩).out
@[simp] theorem sendOn_mem (s : State) (l : Nat) (o : Output) : (State.sendOn s l o).mem = s.mem :=
  (keeps_sendOn (closed_mem (fun _ => false) _ rfl) _ _ _ ⟨rfl⟩).out

@[simp] theorem pumpLink_reg (s : State) (l : Nat) (q_ : Reg) (j_ : Nat) : (State.pumpLink s l).reg q_ j_ = s.reg q_
  j_ :=
  (keeps_pumpLink (closed_reg (fun _ => false) _ _ rfl _) _ _ ⟨rfl⟩).out
@[simp] theorem pumpLink_mem (s : State) (l : Nat) : (State.pumpLink s l).mem = s.mem :=
  (keeps_pumpLink (closed_mem (fun _ => false) _ rfl) _ _ ⟨rfl⟩).out

@[simp] theorem emit_reg (s : State) (q : Nat) (p : Packet) (q_ : Reg) (j_ : Nat) : (State.emit s q p).reg q_ j_ =
  s.reg q_ j_ :=
  (keeps_emit (closed_reg (fun _ => false) _ _ rfl _) _ _ _ ⟨rfl⟩).out
@[simp] theorem emit_mem (s : State) (q : Nat) (p : Packet) : (State.emit s q p).mem = s.mem :=
  (keeps_emit (closed_mem (fun _ => false) _ rfl) _ _ _ ⟨rfl⟩).out

@[simp] theorem dropLink_reg (s : State) (l : Nat) (q_ : Reg) (j_ : Nat) : (State.dropLink s l).reg q_ j_ = s.reg q_
  j_ :=
  (keeps_dropLink (closed_reg (fun _ => false) _ _ rfl _) _ _ ⟨rfl⟩).out
@[simp] theorem dropLink_mem (s : State) (l : Nat) : (State.dropLink s l).mem = s.mem :=
  (keeps_dropLink (closed_mem (fun _ => false) _ rfl) _ _ ⟨rfl⟩).out

@[simp] theorem request_reg (s : State) (a : Agent) (q cls offset key : Nat) (body : Body) (q_ : Reg) (j_ : Nat) :
  (State.request s a q cls offset key body).reg q_ j_ = s.reg q_ j_ :=
  (keeps_request (closed_reg (fun _ => false) _ _ rfl _) _ _ _ _ _ _ _ ⟨rfl⟩).out
@[simp] theorem request_mem (s : State) (a : Agent) (q cls offset key : Nat) (body : Body) : (State.request s a q
  cls offset key body).mem = s.mem :=
  (keeps_request (closed_mem (fun _ => false) _ rfl) _ _ _ _ _ _ _ ⟨rfl⟩).out

@[simp] theorem resendTo_reg (s : State) (q : Nat) (q_ : Reg) (j_ : Nat) : (State.resendTo s q).reg q_ j_ = s.reg q_
  j_ :=
  (keeps_resendTo (closed_reg (fun _ => false) _ _ rfl _) _ _ ⟨rfl⟩).out
@[simp] theorem resendTo_mem (s : State) (q : Nat) : (State.resendTo s q).mem = s.mem :=
  (keeps_resendTo (closed_mem (fun _ => false) _ rfl) _ _ ⟨rfl⟩).out

@[simp] theorem control_reg (s : State) (q : Nat) (body : Body) (q_ : Reg) (j_ : Nat) : (State.control s q body).reg
  q_ j_ = s.reg q_ j_ :=
  (keeps_control (closed_reg (fun _ => false) _ _ rfl _) _ _ _ ⟨rfl⟩).out
@[simp] theorem control_mem (s : State) (q : Nat) (body : Body) : (State.control s q body).mem = s.mem :=
  (keeps_control (closed_mem (fun _ => false) _ rfl) _ _ _ ⟨rfl⟩).out

@[simp] theorem tellPartner_reg (s : State) (body : Body) (q_ : Reg) (j_ : Nat) : (State.tellPartner s body).reg q_
  j_ = s.reg q_ j_ :=
  (keeps_tellPartner (closed_reg (fun _ => false) _ _ rfl _) _ _ ⟨rfl⟩).out
@[simp] theorem tellPartner_mem (s : State) (body : Body) : (State.tellPartner s body).mem = s.mem :=
  (keeps_tellPartner (closed_mem (fun _ => false) _ rfl) _ _ ⟨rfl⟩).out

theorem endHold_reg (s : State) (b : Nat) (q_ : Reg) (h_ : touchEndHold (some q_) = false) (j_ : Nat) :
  (State.endHold s b).reg q_ j_ = s.reg q_ j_ :=
  (keeps_endHold (closed_reg _ _ _ h_ _) _ _ (fun _ h => h) ⟨rfl⟩).out
theorem endHold_mem (s : State) (b : Nat) (h_ : touchEndHold none = false) : (State.endHold s b).mem = s.mem :=
  (keeps_endHold (closed_mem _ _ h_) _ _ (fun _ h => h) ⟨rfl⟩).out

theorem setXw_reg (s : State) (v : Nat) (q_ : Reg) (h_ : touchSetXw (some q_) = false) (j_ : Nat) : (State.setXw s
  v).reg q_ j_ = s.reg q_ j_ :=
  (keeps_setXw (closed_reg _ _ _ h_ _) _ _ (fun _ h => h) ⟨rfl⟩).out
theorem setXw_mem (s : State) (v : Nat) (h_ : touchSetXw none = false) : (State.setXw s v).mem = s.mem :=
  (keeps_setXw (closed_mem _ _ h_) _ _ (fun _ h => h) ⟨rfl⟩).out

theorem endPairing_reg (s : State) (q_ : Reg) (h_ : touchEndPairing (some q_) = false) (j_ : Nat) :
  (State.endPairing s).reg q_ j_ = s.reg q_ j_ :=
  (keeps_endPairing (closed_reg _ _ _ h_ _) _ (fun _ h => h) ⟨rfl⟩).out
theorem endPairing_mem (s : State) (h_ : touchEndPairing none = false) : (State.endPairing s).mem = s.mem :=
  (keeps_endPairing (closed_mem _ _ h_) _ (fun _ h => h) ⟨rfl⟩).out

theorem leavePairing_reg (s : State) (q_ : Reg) (h_ : touchLeavePairing (some q_) = false) (j_ : Nat) :
  (State.leavePairing s).reg q_ j_ = s.reg q_ j_ :=
  (keeps_leavePairing (closed_reg _ _ _ h_ _) _ (fun _ h => h) ⟨rfl⟩).out
theorem leavePairing_mem (s : State) (h_ : touchLeavePairing none = false) : (State.leavePairing s).mem = s.mem :=
  (keeps_leavePairing (closed_mem _ _ h_) _ (fun _ h => h) ⟨rfl⟩).out

theorem checkPartner_reg (s : State) (q_ : Reg) (h_ : touchCheckPartner (some q_) = false) (j_ : Nat) :
  (State.checkPartner s).reg q_ j_ = s.reg q_ j_ :=
  (keeps_checkPartner (closed_reg _ _ _ h_ _) _ (fun _ h => h) ⟨rfl⟩).out
theorem checkPartner_mem (s : State) (h_ : touchCheckPartner none = false) : (State.checkPartner s).mem = s.mem :=
  (keeps_checkPartner (closed_mem _ _ h_) _ (fun _ h => h) ⟨rfl⟩).out

theorem showQueue_reg (s : State) (q : Nat) (q_ : Reg) (h_ : touchShowQueue (some q_) = false) (j_ : Nat) :
  (State.showQueue s q).reg q_ j_ = s.reg q_ j_ :=
  (keeps_showQueue (closed_reg _ _ _ h_ _) _ _ (fun _ h => h) ⟨rfl⟩).out
theorem showQueue_mem (s : State) (q : Nat) (h_ : touchShowQueue none = false) : (State.showQueue s q).mem = s.mem
  :=
  (keeps_showQueue (closed_mem _ _ h_) _ _ (fun _ h => h) ⟨rfl⟩).out

theorem ringWrite_reg (s : State) (base off : Nat) (bs : List Byte) (q_ : Reg) (h_ : touchRingWrite (some q_) =
  false) (j_ : Nat) : (State.ringWrite s base off bs).reg q_ j_ = s.reg q_ j_ :=
  (keeps_ringWrite (closed_reg _ _ _ h_ _) _ _ _ _ (fun _ h => h) ⟨rfl⟩).out
theorem ringWrite_mem (s : State) (base off : Nat) (bs : List Byte) (h_ : touchRingWrite none = false) :
  (State.ringWrite s base off bs).mem = s.mem :=
  (keeps_ringWrite (closed_mem _ _ h_) _ _ _ _ (fun _ h => h) ⟨rfl⟩).out

theorem putCompletion_reg (s : State) (e : Completion) (q_ : Reg) (h_ : touchPutCompletion (some q_) = false) (j_ :
  Nat) : (State.putCompletion s e).reg q_ j_ = s.reg q_ j_ :=
  (keeps_putCompletion (closed_reg _ _ _ h_ _) _ _ (fun _ h => h) ⟨rfl⟩).out
theorem putCompletion_mem (s : State) (e : Completion) (h_ : touchPutCompletion none = false) : (State.putCompletion
  s e).mem = s.mem :=
  (keeps_putCompletion (closed_mem _ _ h_) _ _ (fun _ h => h) ⟨rfl⟩).out

theorem postCompletion_reg (s : State) (e : Completion) (q_ : Reg) (h_ : touchPostCompletion (some q_) = false) (j_
  : Nat) : (State.postCompletion s e).reg q_ j_ = s.reg q_ j_ :=
  (keeps_postCompletion (closed_reg _ _ _ h_ _) _ _ (fun _ h => h) ⟨rfl⟩).out
theorem postCompletion_mem (s : State) (e : Completion) (h_ : touchPostCompletion none = false) :
  (State.postCompletion s e).mem = s.mem :=
  (keeps_postCompletion (closed_mem _ _ h_) _ _ (fun _ h => h) ⟨rfl⟩).out

theorem flushHeld_reg (s : State) (q n : Nat) (q_ : Reg) (h_ : touchFlushHeld (some q_) = false) (j_ : Nat) :
  (State.flushHeld s q n).reg q_ j_ = s.reg q_ j_ :=
  (keeps_flushHeld (closed_reg _ _ _ h_ _) _ _ _ (fun _ h => h) ⟨rfl⟩).out
theorem flushHeld_mem (s : State) (q n : Nat) (h_ : touchFlushHeld none = false) : (State.flushHeld s q n).mem =
  s.mem :=
  (keeps_flushHeld (closed_mem _ _ h_) _ _ _ (fun _ h => h) ⟨rfl⟩).out

theorem fetch_reg (s : State) (q n : Nat) (q_ : Reg) (h_ : touchFetch (some q_) = false) (j_ : Nat) : (State.fetch s
  q n).reg q_ j_ = s.reg q_ j_ :=
  (keeps_fetch (closed_reg _ _ _ h_ _) _ _ _ (fun _ h => h) ⟨rfl⟩).out
theorem fetch_mem (s : State) (q n : Nat) (h_ : touchFetch none = false) : (State.fetch s q n).mem = s.mem :=
  (keeps_fetch (closed_mem _ _ h_) _ _ _ (fun _ h => h) ⟨rfl⟩).out

theorem fetchAll_reg (s : State) (q_ : Reg) (h_ : touchFetchAll (some q_) = false) (j_ : Nat) : (State.fetchAll
  s).reg q_ j_ = s.reg q_ j_ :=
  (keeps_fetchAll (closed_reg _ _ _ h_ _) _ (fun _ h => h) ⟨rfl⟩).out
theorem fetchAll_mem (s : State) (h_ : touchFetchAll none = false) : (State.fetchAll s).mem = s.mem :=
  (keeps_fetchAll (closed_mem _ _ h_) _ (fun _ h => h) ⟨rfl⟩).out

theorem endCmd_reg (s : State) (c : HostCmd) (status res0 : Nat) (q_ : Reg) (h_ : touchEndCmd (some q_) = false) (j_
  : Nat) : (State.endCmd s c status res0).reg q_ j_ = s.reg q_ j_ :=
  (keeps_endCmd (closed_reg _ _ _ h_ _) _ _ _ _ (fun _ h => h) ⟨rfl⟩).out
theorem endCmd_mem (s : State) (c : HostCmd) (status res0 : Nat) (h_ : touchEndCmd none = false) : (State.endCmd s c
  status res0).mem = s.mem :=
  (keeps_endCmd (closed_mem _ _ h_) _ _ _ _ (fun _ h => h) ⟨rfl⟩).out

@[simp] theorem keepCmd_reg (s : State) (c : HostCmd) (q_ : Reg) (j_ : Nat) : (State.keepCmd s c).reg q_ j_ = s.reg
  q_ j_ :=
  (keeps_keepCmd (closed_reg (fun _ => false) _ _ rfl _) _ _ ⟨rfl⟩).out
@[simp] theorem keepCmd_mem (s : State) (c : HostCmd) : (State.keepCmd s c).mem = s.mem :=
  (keeps_keepCmd (closed_mem (fun _ => false) _ rfl) _ _ ⟨rfl⟩).out

theorem endOpc_reg (s : State) (opc status res0 : Nat) (q_ : Reg) (h_ : touchEndOpc (some q_) = false) (j_ : Nat) :
  (State.endOpc s opc status res0).reg q_ j_ = s.reg q_ j_ :=
  (keeps_endOpc (closed_reg _ _ _ h_ _) _ _ _ _ (fun _ h => h) ⟨rfl⟩).out
theorem endOpc_mem (s : State) (opc status res0 : Nat) (h_ : touchEndOpc none = false) : (State.endOpc s opc status
  res0).mem = s.mem :=
  (keeps_endOpc (closed_mem _ _ h_) _ _ _ _ (fun _ h => h) ⟨rfl⟩).out

theorem notify_reg (s : State) (q v : Nat) (q_ : Reg) (h_ : touchNotify (some q_) = false) (j_ : Nat) :
  (State.notify s q v).reg q_ j_ = s.reg q_ j_ :=
  (keeps_notify (closed_reg _ _ _ h_ _) _ _ _ (fun _ h => h) ⟨rfl⟩).out
theorem notify_mem (s : State) (q v : Nat) (h_ : touchNotify none = false) : (State.notify s q v).mem = s.mem :=
  (keeps_notify (closed_mem _ _ h_) _ _ _ (fun _ h => h) ⟨rfl⟩).out

theorem abortRequest_reg (s : State) (q_ : Reg) (h_ : touchAbortRequest (some q_) = false) (j_ : Nat) :
  (State.abortRequest s).reg q_ j_ = s.reg q_ j_ :=
  (keeps_abortRequest (closed_reg _ _ _ h_ _) _ (fun _ h => h) ⟨rfl⟩).out
theorem abortRequest_mem (s : State) (h_ : touchAbortRequest none = false) : (State.abortRequest s).mem = s.mem :=
  (keeps_abortRequest (closed_mem _ _ h_) _ (fun _ h => h) ⟨rfl⟩).out

theorem abortTransition_reg (s : State) (q_ : Reg) (h_ : touchAbortTransition (some q_) = false) (j_ : Nat) :
  (State.abortTransition s).reg q_ j_ = s.reg q_ j_ :=
  (keeps_abortTransition (closed_reg _ _ _ h_ _) _ (fun _ h => h) ⟨rfl⟩).out
theorem abortTransition_mem (s : State) (h_ : touchAbortTransition none = false) : (State.abortTransition s).mem =
  s.mem :=
  (keeps_abortTransition (closed_mem _ _ h_) _ (fun _ h => h) ⟨rfl⟩).out

theorem enter_reg (s : State) (st : Nat) (q_ : Reg) (h_ : touchEnter (some q_) = false) (j_ : Nat) : (State.enter s
  st).reg q_ j_ = s.reg q_ j_ :=
  (keeps_enter (closed_reg _ _ _ h_ _) _ _ (fun _ h => h) ⟨rfl⟩).out
theorem enter_mem (s : State) (st : Nat) (h_ : touchEnter none = false) : (State.enter s st).mem = s.mem :=
  (keeps_enter (closed_mem _ _ h_) _ _ (fun _ h => h) ⟨rfl⟩).out

theorem setRecovery_reg (s : State) (v : Nat) (q_ : Reg) (h_ : touchSetRecovery (some q_) = false) (j_ : Nat) :
  (State.setRecovery s v).reg q_ j_ = s.reg q_ j_ :=
  (keeps_setRecovery (closed_reg _ _ _ h_ _) _ _ (fun _ h => h) ⟨rfl⟩).out
theorem setRecovery_mem (s : State) (v : Nat) (h_ : touchSetRecovery none = false) : (State.setRecovery s v).mem =
  s.mem :=
  (keeps_setRecovery (closed_mem _ _ h_) _ _ (fun _ h => h) ⟨rfl⟩).out

theorem abandonRestore_reg (s : State) (q_ : Reg) (h_ : touchAbandonRestore (some q_) = false) (j_ : Nat) :
  (State.abandonRestore s).reg q_ j_ = s.reg q_ j_ :=
  (keeps_abandonRestore (closed_reg _ _ _ h_ _) _ (fun _ h => h) ⟨rfl⟩).out
theorem abandonRestore_mem (s : State) (h_ : touchAbandonRestore none = false) : (State.abandonRestore s).mem =
  s.mem :=
  (keeps_abandonRestore (closed_mem _ _ h_) _ (fun _ h => h) ⟨rfl⟩).out

theorem enterFaulted_reg (s : State) (q_ : Reg) (h_ : touchEnterFaulted (some q_) = false) (j_ : Nat) :
  (State.enterFaulted s).reg q_ j_ = s.reg q_ j_ :=
  (keeps_enterFaulted (closed_reg _ _ _ h_ _) _ (fun _ h => h) ⟨rfl⟩).out
theorem enterFaulted_mem (s : State) (h_ : touchEnterFaulted none = false) : (State.enterFaulted s).mem = s.mem :=
  (keeps_enterFaulted (closed_mem _ _ h_) _ (fun _ h => h) ⟨rfl⟩).out

theorem degrade_reg (s : State) (b : Nat) (q_ : Reg) (h_ : touchDegrade (some q_) = false) (j_ : Nat) :
  (State.degrade s b).reg q_ j_ = s.reg q_ j_ :=
  (keeps_degrade (closed_reg _ _ _ h_ _) _ _ (fun _ h => h) ⟨rfl⟩).out
theorem degrade_mem (s : State) (b : Nat) (h_ : touchDegrade none = false) : (State.degrade s b).mem = s.mem :=
  (keeps_degrade (closed_mem _ _ h_) _ _ (fun _ h => h) ⟨rfl⟩).out

@[simp] theorem clearJob_reg (s : State) (q_ : Reg) (j_ : Nat) : (State.clearJob s).reg q_ j_ = s.reg q_ j_ :=
  (keeps_clearJob (closed_reg (fun _ => false) _ _ rfl _) _ ⟨rfl⟩).out
@[simp] theorem clearJob_mem (s : State) : (State.clearJob s).mem = s.mem :=
  (keeps_clearJob (closed_mem (fun _ => false) _ rfl) _ ⟨rfl⟩).out

@[simp] theorem clearPorts_reg (s : State) (q_ : Reg) (j_ : Nat) : (State.clearPorts s).reg q_ j_ = s.reg q_ j_ :=
  (keeps_clearPorts (closed_reg (fun _ => false) _ _ rfl _) _ ⟨rfl⟩).out
@[simp] theorem clearPorts_mem (s : State) : (State.clearPorts s).mem = s.mem :=
  (keeps_clearPorts (closed_mem (fun _ => false) _ rfl) _ ⟨rfl⟩).out

theorem clearVolatile_reg (s : State) (q_ : Reg) (h_ : touchClearVolatile (some q_) = false) (j_ : Nat) :
  (State.clearVolatile s).reg q_ j_ = s.reg q_ j_ :=
  (keeps_clearVolatile (closed_reg _ _ _ h_ _) _ (fun _ h => h) ⟨rfl⟩).out
theorem clearVolatile_mem (s : State) (h_ : touchClearVolatile none = false) : (State.clearVolatile s).mem = s.mem
  :=
  (keeps_clearVolatile (closed_mem _ _ h_) _ (fun _ h => h) ⟨rfl⟩).out

theorem loseScratchpads_reg (s : State) (q_ : Reg) (h_ : touchLoseScratchpads (some q_) = false) (j_ : Nat) :
  (State.loseScratchpads s).reg q_ j_ = s.reg q_ j_ :=
  (keeps_loseScratchpads (closed_reg _ _ _ h_ _) _ (fun _ h => h) ⟨rfl⟩).out
theorem loseScratchpads_mem (s : State) (h_ : touchLoseScratchpads none = false) : (State.loseScratchpads s).mem =
  s.mem :=
  (keeps_loseScratchpads (closed_mem _ _ h_) _ (fun _ h => h) ⟨rfl⟩).out

theorem clearWarm_reg (s : State) (q_ : Reg) (h_ : touchClearWarm (some q_) = false) (j_ : Nat) : (State.clearWarm
  s).reg q_ j_ = s.reg q_ j_ :=
  (keeps_clearWarm (closed_reg _ _ _ h_ _) _ (fun _ h => h) ⟨rfl⟩).out
theorem clearWarm_mem (s : State) (h_ : touchClearWarm none = false) : (State.clearWarm s).mem = s.mem :=
  (keeps_clearWarm (closed_mem _ _ h_) _ (fun _ h => h) ⟨rfl⟩).out

theorem warmClear_reg (s : State) (q_ : Reg) (h_ : touchWarmClear (some q_) = false) (j_ : Nat) : (State.warmClear
  s).reg q_ j_ = s.reg q_ j_ :=
  (keeps_warmClear (closed_reg _ _ _ h_ _) _ (fun _ h => h) ⟨rfl⟩).out
theorem warmClear_mem (s : State) (h_ : touchWarmClear none = false) : (State.warmClear s).mem = s.mem :=
  (keeps_warmClear (closed_mem _ _ h_) _ (fun _ h => h) ⟨rfl⟩).out

theorem coldClear_reg (s : State) (q_ : Reg) (h_ : touchColdClear (some q_) = false) (j_ : Nat) : (State.coldClear
  s).reg q_ j_ = s.reg q_ j_ :=
  (keeps_coldClear (closed_reg _ _ _ h_ _) _ (fun _ h => h) ⟨rfl⟩).out
theorem coldClear_mem (s : State) (h_ : touchColdClear none = false) : (State.coldClear s).mem = s.mem :=
  (keeps_coldClear (closed_mem _ _ h_) _ (fun _ h => h) ⟨rfl⟩).out

theorem idleLinks_reg (s : State) (q_ : Reg) (h_ : touchIdleLinks (some q_) = false) (j_ : Nat) : (State.idleLinks
  s).reg q_ j_ = s.reg q_ j_ :=
  (keeps_idleLinks (closed_reg _ _ _ h_ _) _ (fun _ h => h) ⟨rfl⟩).out
theorem idleLinks_mem (s : State) (h_ : touchIdleLinks none = false) : (State.idleLinks s).mem = s.mem :=
  (keeps_idleLinks (closed_mem _ _ h_) _ (fun _ h => h) ⟨rfl⟩).out

theorem holdInReset_reg (s : State) (q_ : Reg) (h_ : touchHoldInReset (some q_) = false) (j_ : Nat) :
  (State.holdInReset s).reg q_ j_ = s.reg q_ j_ :=
  (keeps_holdInReset (closed_reg _ _ _ h_ _) _ (fun _ h => h) ⟨rfl⟩).out
theorem holdInReset_mem (s : State) (h_ : touchHoldInReset none = false) : (State.holdInReset s).mem = s.mem :=
  (keeps_holdInReset (closed_mem _ _ h_) _ (fun _ h => h) ⟨rfl⟩).out

theorem coldReset_reg (s : State) (q_ : Reg) (h_ : touchColdReset (some q_) = false) (j_ : Nat) : (State.coldReset
  s).reg q_ j_ = s.reg q_ j_ :=
  (keeps_coldReset (closed_reg _ _ _ h_ _) _ (fun _ h => h) ⟨rfl⟩).out
theorem coldReset_mem (s : State) (h_ : touchColdReset none = false) : (State.coldReset s).mem = s.mem :=
  (keeps_coldReset (closed_mem _ _ h_) _ (fun _ h => h) ⟨rfl⟩).out

theorem warmReset_reg (s : State) (q_ : Reg) (h_ : touchWarmReset (some q_) = false) (j_ : Nat) : (State.warmReset
  s).reg q_ j_ = s.reg q_ j_ :=
  (keeps_warmReset (closed_reg _ _ _ h_ _) _ (fun _ h => h) ⟨rfl⟩).out
theorem warmReset_mem (s : State) (h_ : touchWarmReset none = false) : (State.warmReset s).mem = s.mem :=
  (keeps_warmReset (closed_mem _ _ h_) _ (fun _ h => h) ⟨rfl⟩).out

theorem beginInit_reg (s : State) (q_ : Reg) (h_ : touchBeginInit (some q_) = false) (j_ : Nat) : (State.beginInit
  s).reg q_ j_ = s.reg q_ j_ :=
  (keeps_beginInit (closed_reg _ _ _ h_ _) _ (fun _ h => h) ⟨rfl⟩).out
theorem beginInit_mem (s : State) (h_ : touchBeginInit none = false) : (State.beginInit s).mem = s.mem :=
  (keeps_beginInit (closed_mem _ _ h_) _ (fun _ h => h) ⟨rfl⟩).out

theorem tryBeginInit_reg (s : State) (q_ : Reg) (h_ : touchTryBeginInit (some q_) = false) (j_ : Nat) :
  (State.tryBeginInit s).reg q_ j_ = s.reg q_ j_ :=
  (keeps_tryBeginInit (closed_reg _ _ _ h_ _) _ (fun _ h => h) ⟨rfl⟩).out
theorem tryBeginInit_mem (s : State) (h_ : touchTryBeginInit none = false) : (State.tryBeginInit s).mem = s.mem :=
  (keeps_tryBeginInit (closed_mem _ _ h_) _ (fun _ h => h) ⟨rfl⟩).out

theorem loseStacks_reg (s : State) (q_ : Reg) (h_ : touchLoseStacks (some q_) = false) (j_ : Nat) :
  (State.loseStacks s).reg q_ j_ = s.reg q_ j_ :=
  (keeps_loseStacks (closed_reg _ _ _ h_ _) _ (fun _ h => h) ⟨rfl⟩).out
theorem loseStacks_mem (s : State) (h_ : touchLoseStacks none = false) : (State.loseStacks s).mem = s.mem :=
  (keeps_loseStacks (closed_mem _ _ h_) _ (fun _ h => h) ⟨rfl⟩).out

theorem losePower_reg (s : State) (q_ : Reg) (h_ : touchLosePower (some q_) = false) (j_ : Nat) : (State.losePower
  s).reg q_ j_ = s.reg q_ j_ :=
  (keeps_losePower (closed_reg _ _ _ h_ _) _ (fun _ h => h) ⟨rfl⟩).out
theorem losePower_mem (s : State) (h_ : touchLosePower none = false) : (State.losePower s).mem = s.mem :=
  (keeps_losePower (closed_mem _ _ h_) _ (fun _ h => h) ⟨rfl⟩).out

theorem specView_reg (s : State) (b : Bay) (q_ : Reg) (h_ : touchSpecView (some q_) = false) (j_ : Nat) :
  (State.specView s b).reg q_ j_ = s.reg q_ j_ :=
  (keeps_specView (closed_reg _ _ _ h_ _) _ _ (fun _ h => h) ⟨rfl⟩).out
theorem specView_mem (s : State) (b : Bay) (h_ : touchSpecView none = false) : (State.specView s b).mem = s.mem :=
  (keeps_specView (closed_mem _ _ h_) _ _ (fun _ h => h) ⟨rfl⟩).out

theorem emitRecord_reg (s : State) (b : Nat) (f : Flight) (queueFull : Bool) (q_ : Reg) (h_ : touchEmitRecord (some
  q_) = false) (j_ : Nat) : (State.emitRecord s b f queueFull).reg q_ j_ = s.reg q_ j_ :=
  (keeps_emitRecord (closed_reg _ _ _ h_ _) _ _ _ _ (fun _ h => h) ⟨rfl⟩).out
theorem emitRecord_mem (s : State) (b : Nat) (f : Flight) (queueFull : Bool) (h_ : touchEmitRecord none = false) :
  (State.emitRecord s b f queueFull).mem = s.mem :=
  (keeps_emitRecord (closed_mem _ _ h_) _ _ _ _ (fun _ h => h) ⟨rfl⟩).out

theorem setTableState_reg (s : State) (b v : Nat) (q_ : Reg) (h_ : touchSetTableState (some q_) = false) (j_ : Nat)
  : (State.setTableState s b v).reg q_ j_ = s.reg q_ j_ :=
  (keeps_setTableState (closed_reg _ _ _ h_ _) _ _ _ (fun _ h => h) ⟨rfl⟩).out
theorem setTableState_mem (s : State) (b v : Nat) (h_ : touchSetTableState none = false) : (State.setTableState s b
  v).mem = s.mem :=
  (keeps_setTableState (closed_mem _ _ h_) _ _ _ (fun _ h => h) ⟨rfl⟩).out

theorem showWaiting_reg (s : State) (b : Nat) (q_ : Reg) (h_ : touchShowWaiting (some q_) = false) (j_ : Nat) :
  (State.showWaiting s b).reg q_ j_ = s.reg q_ j_ :=
  (keeps_showWaiting (closed_reg _ _ _ h_ _) _ _ (fun _ h => h) ⟨rfl⟩).out
theorem showWaiting_mem (s : State) (b : Nat) (h_ : touchShowWaiting none = false) : (State.showWaiting s b).mem =
  s.mem :=
  (keeps_showWaiting (closed_mem _ _ h_) _ _ (fun _ h => h) ⟨rfl⟩).out

theorem haltTable_reg (s : State) (b : Nat) (at' : Option Flight) (q_ : Reg) (h_ : touchHaltTable (some q_) = false)
  (j_ : Nat) : (State.haltTable s b at').reg q_ j_ = s.reg q_ j_ :=
  (keeps_haltTable (closed_reg _ _ _ h_ _) _ _ _ (fun _ h => h) ⟨rfl⟩).out
theorem haltTable_mem (s : State) (b : Nat) (at' : Option Flight) (h_ : touchHaltTable none = false) :
  (State.haltTable s b at').mem = s.mem :=
  (keeps_haltTable (closed_mem _ _ h_) _ _ _ (fun _ h => h) ⟨rfl⟩).out

theorem descError_reg (s : State) (b : Nat) (f : Flight) (detail : Nat) (queueFull : Bool) (q_ : Reg) (h_ :
  touchDescError (some q_) = false) (j_ : Nat) : (State.descError s b f detail queueFull).reg q_ j_ = s.reg q_ j_ :=
  (keeps_descError (closed_reg _ _ _ h_ _) _ _ _ _ _ (fun _ h => h) ⟨rfl⟩).out
theorem descError_mem (s : State) (b : Nat) (f : Flight) (detail : Nat) (queueFull : Bool) (h_ : touchDescError none
  = false) : (State.descError s b f detail queueFull).mem = s.mem :=
  (keeps_descError (closed_mem _ _ h_) _ _ _ _ _ (fun _ h => h) ⟨rfl⟩).out

theorem rejectEntry_reg (s : State) (b : Nat) (f : Flight) (result detail : Nat) (queueFull : Bool) (q_ : Reg) (h_ :
  touchRejectEntry (some q_) = false) (j_ : Nat) : (State.rejectEntry s b f result detail queueFull).reg q_ j_ =
  s.reg q_ j_ :=
  (keeps_rejectEntry (closed_reg _ _ _ h_ _) _ _ _ _ _ _ (fun _ h => h) ⟨rfl⟩).out
theorem rejectEntry_mem (s : State) (b : Nat) (f : Flight) (result detail : Nat) (queueFull : Bool) (h_ :
  touchRejectEntry none = false) : (State.rejectEntry s b f result detail queueFull).mem = s.mem :=
  (keeps_rejectEntry (closed_mem _ _ h_) _ _ _ _ _ _ (fun _ h => h) ⟨rfl⟩).out

theorem setFlight_reg (s : State) (b : Nat) (f : Flight) (q_ : Reg) (h_ : touchSetFlight (some q_) = false) (j_ :
  Nat) : (State.setFlight s b f).reg q_ j_ = s.reg q_ j_ :=
  (keeps_setFlight (closed_reg _ _ _ h_ _) _ _ _ (fun _ h => h) ⟨rfl⟩).out
theorem setFlight_mem (s : State) (b : Nat) (f : Flight) (h_ : touchSetFlight none = false) : (State.setFlight s b
  f).mem = s.mem :=
  (keeps_setFlight (closed_mem _ _ h_) _ _ _ (fun _ h => h) ⟨rfl⟩).out

theorem mergeAll_reg (s : State) (ms : List (Nat × Delta)) (q_ : Reg) (h_ : touchMergeAll (some q_) = false) (j_ :
  Nat) : (State.mergeAll s ms).1.reg q_ j_ = s.reg q_ j_ :=
  (keeps_mergeAll (closed_reg _ _ _ h_ _) _ _ (fun _ h => h) ⟨rfl⟩).out
theorem mergeAll_mem (s : State) (ms : List (Nat × Delta)) (h_ : touchMergeAll none = false) : (State.mergeAll s
  ms).1.mem = s.mem :=
  (keeps_mergeAll (closed_mem _ _ h_) _ _ (fun _ h => h) ⟨rfl⟩).out

theorem allocate_reg (s : State) (f : Flight) (q_ : Reg) (h_ : touchAllocate (some q_) = false) (j_ : Nat) :
  (State.allocate s f).reg q_ j_ = s.reg q_ j_ :=
  (keeps_allocate (closed_reg _ _ _ h_ _) _ _ (fun _ h => h) ⟨rfl⟩).out
theorem allocate_mem (s : State) (f : Flight) (h_ : touchAllocate none = false) : (State.allocate s f).mem = s.mem
  :=
  (keeps_allocate (closed_mem _ _ h_) _ _ (fun _ h => h) ⟨rfl⟩).out

theorem perform_reg (s : State) (b : Nat) (f : Flight) (e : Effect) (q_ : Reg) (h_ : touchPerform (some q_) = false)
  (j_ : Nat) : (State.perform s b f e).reg q_ j_ = s.reg q_ j_ :=
  (keeps_perform (closed_reg _ _ _ h_ _) _ _ _ _ (fun _ h => h) ⟨rfl⟩).out
theorem perform_mem (s : State) (b : Nat) (f : Flight) (e : Effect) (h_ : touchPerform none = false) :
  (State.perform s b f e).mem = s.mem :=
  (keeps_perform (closed_mem _ _ h_) _ _ _ _ (fun _ h => h) ⟨rfl⟩).out

theorem viewFor_reg (s : State) (b : Nat) (f : Flight) (q_ : Reg) (h_ : touchViewFor (some q_) = false) (j_ : Nat) :
  (State.viewFor s b f).reg q_ j_ = s.reg q_ j_ :=
  (keeps_viewFor (closed_reg _ _ _ h_ _) _ _ _ (fun _ h => h) ⟨rfl⟩).out
theorem viewFor_mem (s : State) (b : Nat) (f : Flight) (h_ : touchViewFor none = false) : (State.viewFor s b f).mem
  = s.mem :=
  (keeps_viewFor (closed_mem _ _ h_) _ _ _ (fun _ h => h) ⟨rfl⟩).out

theorem runEntry_reg (s : State) (b : Nat) (p : Flight → Bool) (plan : State → Bay → Flight → Operands → Effect) (q_
  : Reg) (h_ : touchRunEntry (some q_) = false) (j_ : Nat) : (State.runEntry s b p plan).reg q_ j_ = s.reg q_ j_ :=
  (keeps_runEntry (closed_reg _ _ _ h_ _) _ _ _ _ (fun _ h => h) ⟨rfl⟩).out
theorem runEntry_mem (s : State) (b : Nat) (p : Flight → Bool) (plan : State → Bay → Flight → Operands → Effect) (h_
  : touchRunEntry none = false) : (State.runEntry s b p plan).mem = s.mem :=
  (keeps_runEntry (closed_mem _ _ h_) _ _ _ _ (fun _ h => h) ⟨rfl⟩).out

theorem startTest_reg (s : State) (kind unit spare seq : Nat) (q_ : Reg) (h_ : touchStartTest (some q_) = false) (j_
  : Nat) : (State.startTest s kind unit spare seq).reg q_ j_ = s.reg q_ j_ :=
  (keeps_startTest (closed_reg _ _ _ h_ _) _ _ _ _ _ (fun _ h => h) ⟨rfl⟩).out
theorem startTest_mem (s : State) (kind unit spare seq : Nat) (h_ : touchStartTest none = false) : (State.startTest
  s kind unit spare seq).mem = s.mem :=
  (keeps_startTest (closed_mem _ _ h_) _ _ _ _ _ (fun _ h => h) ⟨rfl⟩).out

@[simp] theorem setTest_reg (s : State) (t : SelfTest) (q_ : Reg) (j_ : Nat) : (State.setTest s t).reg q_ j_ = s.reg
  q_ j_ :=
  (keeps_setTest (closed_reg (fun _ => false) _ _ rfl _) _ _ ⟨rfl⟩).out
@[simp] theorem setTest_mem (s : State) (t : SelfTest) : (State.setTest s t).mem = s.mem :=
  (keeps_setTest (closed_mem (fun _ => false) _ rfl) _ _ ⟨rfl⟩).out

@[simp] theorem endTest_reg (s : State) (t : SelfTest) (outcome : Nat) (q_ : Reg) (j_ : Nat) : (State.endTest s t
  outcome).reg q_ j_ = s.reg q_ j_ :=
  (keeps_endTest (closed_reg (fun _ => false) _ _ rfl _) _ _ _ ⟨rfl⟩).out
@[simp] theorem endTest_mem (s : State) (t : SelfTest) (outcome : Nat) : (State.endTest s t outcome).mem = s.mem :=
  (keeps_endTest (closed_mem (fun _ => false) _ rfl) _ _ _ ⟨rfl⟩).out

@[simp] theorem joinTests_reg (s : State) (t : SelfTest) (unit : Nat) (q_ : Reg) (j_ : Nat) : (State.joinTests s t
  unit).1.reg q_ j_ = s.reg q_ j_ :=
  (keeps_joinTests (closed_reg (fun _ => false) _ _ rfl _) _ _ _ ⟨rfl⟩).out
@[simp] theorem joinTests_mem (s : State) (t : SelfTest) (unit : Nat) : (State.joinTests s t unit).1.mem = s.mem :=
  (keeps_joinTests (closed_mem (fun _ => false) _ rfl) _ _ _ ⟨rfl⟩).out

theorem parityPersistent_reg (s : State) (kind unit addr lbay step : Nat) (q_ : Reg) (h_ : touchParityPersistent
  (some q_) = false) (j_ : Nat) : (State.parityPersistent s kind unit addr lbay step).reg q_ j_ = s.reg q_ j_ :=
  (keeps_parityPersistent (closed_reg _ _ _ h_ _) _ _ _ _ _ _ (fun _ h => h) ⟨rfl⟩).out
theorem parityPersistent_mem (s : State) (kind unit addr lbay step : Nat) (h_ : touchParityPersistent none = false)
  : (State.parityPersistent s kind unit addr lbay step).mem = s.mem :=
  (keeps_parityPersistent (closed_mem _ _ h_) _ _ _ _ _ _ (fun _ h => h) ⟨rfl⟩).out

theorem parityReplayed_reg (s : State) (kind unit addr lbay step : Nat) (q_ : Reg) (h_ : touchParityReplayed (some
  q_) = false) (j_ : Nat) : (State.parityReplayed s kind unit addr lbay step).reg q_ j_ = s.reg q_ j_ :=
  (keeps_parityReplayed (closed_reg _ _ _ h_ _) _ _ _ _ _ _ (fun _ h => h) ⟨rfl⟩).out
theorem parityReplayed_mem (s : State) (kind unit addr lbay step : Nat) (h_ : touchParityReplayed none = false) :
  (State.parityReplayed s kind unit addr lbay step).mem = s.mem :=
  (keeps_parityReplayed (closed_mem _ _ h_) _ _ _ _ _ _ (fun _ h => h) ⟨rfl⟩).out

theorem countModels_reg (s : State) (q_ : Reg) (h_ : touchCountModels (some q_) = false) (j_ : Nat) :
  (State.countModels s).reg q_ j_ = s.reg q_ j_ :=
  (keeps_countModels (closed_reg _ _ _ h_ _) _ (fun _ h => h) ⟨rfl⟩).out
theorem countModels_mem (s : State) (h_ : touchCountModels none = false) : (State.countModels s).mem = s.mem :=
  (keeps_countModels (closed_mem _ _ h_) _ (fun _ h => h) ⟨rfl⟩).out

theorem evict_reg (s : State) (c : ModelCopy) (q_ : Reg) (h_ : touchEvict (some q_) = false) (j_ : Nat) :
  (State.evict s c).reg q_ j_ = s.reg q_ j_ :=
  (keeps_evict (closed_reg _ _ _ h_ _) _ _ (fun _ h => h) ⟨rfl⟩).out
theorem evict_mem (s : State) (c : ModelCopy) (h_ : touchEvict none = false) : (State.evict s c).mem = s.mem :=
  (keeps_evict (closed_mem _ _ h_) _ _ (fun _ h => h) ⟨rfl⟩).out

theorem makeRoom_reg (s : State) (die need n : Nat) (q_ : Reg) (h_ : touchMakeRoom (some q_) = false) (j_ : Nat) :
  (State.makeRoom s die need n).reg q_ j_ = s.reg q_ j_ :=
  (keeps_makeRoom (closed_reg _ _ _ h_ _) _ _ _ _ (fun _ h => h) ⟨rfl⟩).out
theorem makeRoom_mem (s : State) (die need n : Nat) (h_ : touchMakeRoom none = false) : (State.makeRoom s die need
  n).mem = s.mem :=
  (keeps_makeRoom (closed_mem _ _ h_) _ _ _ _ (fun _ h => h) ⟨rfl⟩).out

theorem place_reg (s : State) (die i : Nat) (used : Bool) (q_ : Reg) (h_ : touchPlace (some q_) = false) (j_ : Nat)
  : (State.place s die i used).reg q_ j_ = s.reg q_ j_ :=
  (keeps_place (closed_reg _ _ _ h_ _) _ _ _ _ (fun _ h => h) ⟨rfl⟩).out
theorem place_mem (s : State) (die i : Nat) (used : Bool) (h_ : touchPlace none = false) : (State.place s die i
  used).mem = s.mem :=
  (keeps_place (closed_mem _ _ h_) _ _ _ _ (fun _ h => h) ⟨rfl⟩).out

theorem fitRoster_reg (s : State) (q_ : Reg) (h_ : touchFitRoster (some q_) = false) (j_ : Nat) : (State.fitRoster
  s).reg q_ j_ = s.reg q_ j_ :=
  (keeps_fitRoster (closed_reg _ _ _ h_ _) _ (fun _ h => h) ⟨rfl⟩).out
theorem fitRoster_mem (s : State) (h_ : touchFitRoster none = false) : (State.fitRoster s).mem = s.mem :=
  (keeps_fitRoster (closed_mem _ _ h_) _ (fun _ h => h) ⟨rfl⟩).out

theorem hint_reg (s : State) (die i : Nat) (q_ : Reg) (h_ : touchHint (some q_) = false) (j_ : Nat) : (State.hint s
  die i).reg q_ j_ = s.reg q_ j_ :=
  (keeps_hint (closed_reg _ _ _ h_ _) _ _ _ (fun _ h => h) ⟨rfl⟩).out
theorem hint_mem (s : State) (die i : Nat) (h_ : touchHint none = false) : (State.hint s die i).mem = s.mem :=
  (keeps_hint (closed_mem _ _ h_) _ _ _ (fun _ h => h) ⟨rfl⟩).out

theorem bindModel_reg (s : State) (b i : Nat) (hs : List Nat) (q_ : Reg) (h_ : touchBindModel (some q_) = false) (j_
  : Nat) : (State.bindModel s b i hs).reg q_ j_ = s.reg q_ j_ :=
  (keeps_bindModel (closed_reg _ _ _ h_ _) _ _ _ _ (fun _ h => h) ⟨rfl⟩).out
theorem bindModel_mem (s : State) (b i : Nat) (hs : List Nat) (h_ : touchBindModel none = false) : (State.bindModel
  s b i hs).mem = s.mem :=
  (keeps_bindModel (closed_mem _ _ h_) _ _ _ _ (fun _ h => h) ⟨rfl⟩).out

theorem placeBays_reg (s : State) (q_ : Reg) (h_ : touchPlaceBays (some q_) = false) (j_ : Nat) : (State.placeBays
  s).reg q_ j_ = s.reg q_ j_ :=
  (keeps_placeBays (closed_reg _ _ _ h_ _) _ (fun _ h => h) ⟨rfl⟩).out
theorem placeBays_mem (s : State) (h_ : touchPlaceBays none = false) : (State.placeBays s).mem = s.mem :=
  (keeps_placeBays (closed_mem _ _ h_) _ (fun _ h => h) ⟨rfl⟩).out

theorem under_reg (s : State) (l : Load) (q_ : Reg) (h_ : touchUnder (some q_) = false) (j_ : Nat) : (State.under s
  l).reg q_ j_ = s.reg q_ j_ :=
  (keeps_under (closed_reg _ _ _ h_ _) _ _ (fun _ h => h) ⟨rfl⟩).out
theorem under_mem (s : State) (l : Load) (h_ : touchUnder none = false) : (State.under s l).mem = s.mem :=
  (keeps_under (closed_mem _ _ h_) _ _ (fun _ h => h) ⟨rfl⟩).out

theorem arrayReplay_reg (s : State) (b step : Nat) (q_ : Reg) (h_ : touchArrayReplay (some q_) = false) (j_ : Nat) :
  (State.arrayReplay s b step).reg q_ j_ = s.reg q_ j_ :=
  (keeps_arrayReplay (closed_reg _ _ _ h_ _) _ _ _ (fun _ h => h) ⟨rfl⟩).out
theorem arrayReplay_mem (s : State) (b step : Nat) (h_ : touchArrayReplay none = false) : (State.arrayReplay s b
  step).mem = s.mem :=
  (keeps_arrayReplay (closed_mem _ _ h_) _ _ _ (fun _ h => h) ⟨rfl⟩).out

theorem arrayFailed_reg (s : State) (b step : Nat) (q_ : Reg) (h_ : touchArrayFailed (some q_) = false) (j_ : Nat) :
  (State.arrayFailed s b step).reg q_ j_ = s.reg q_ j_ :=
  (keeps_arrayFailed (closed_reg _ _ _ h_ _) _ _ _ (fun _ h => h) ⟨rfl⟩).out
theorem arrayFailed_mem (s : State) (b step : Nat) (h_ : touchArrayFailed none = false) : (State.arrayFailed s b
  step).mem = s.mem :=
  (keeps_arrayFailed (closed_mem _ _ h_) _ _ _ (fun _ h => h) ⟨rfl⟩).out

theorem completeMma_reg (s : State) (b : Nat) (p : Flight → Bool) (f : Flight) (q_ : Reg) (h_ : touchCompleteMma
  (some q_) = false) (j_ : Nat) : (State.completeMma s b p f).reg q_ j_ = s.reg q_ j_ :=
  (keeps_completeMma (closed_reg _ _ _ h_ _) _ _ _ _ (fun _ h => h) ⟨rfl⟩).out
theorem completeMma_mem (s : State) (b : Nat) (p : Flight → Bool) (f : Flight) (h_ : touchCompleteMma none = false)
  : (State.completeMma s b p f).mem = s.mem :=
  (keeps_completeMma (closed_mem _ _ h_) _ _ _ _ (fun _ h => h) ⟨rfl⟩).out

theorem interruptMma_reg (s : State) (b n : Nat) (f : Flight) (q_ : Reg) (h_ : touchInterruptMma (some q_) = false)
  (j_ : Nat) : (State.interruptMma s b n f).reg q_ j_ = s.reg q_ j_ :=
  (keeps_interruptMma (closed_reg _ _ _ h_ _) _ _ _ _ (fun _ h => h) ⟨rfl⟩).out
theorem interruptMma_mem (s : State) (b n : Nat) (f : Flight) (h_ : touchInterruptMma none = false) :
  (State.interruptMma s b n f).mem = s.mem :=
  (keeps_interruptMma (closed_mem _ _ h_) _ _ _ _ (fun _ h => h) ⟨rfl⟩).out

theorem runMma_reg (s : State) (b form : Nat) (check : ArrayCheck) (q_ : Reg) (h_ : touchRunMma (some q_) = false)
  (j_ : Nat) : (State.runMma s b form check).reg q_ j_ = s.reg q_ j_ :=
  (keeps_runMma (closed_reg _ _ _ h_ _) _ _ _ _ (fun _ h => h) ⟨rfl⟩).out
theorem runMma_mem (s : State) (b form : Nat) (check : ArrayCheck) (h_ : touchRunMma none = false) : (State.runMma s
  b form check).mem = s.mem :=
  (keeps_runMma (closed_mem _ _ h_) _ _ _ _ (fun _ h => h) ⟨rfl⟩).out

theorem finishWriteBack_reg (s : State) (b : Nat) (q_ : Reg) (h_ : touchFinishWriteBack (some q_) = false) (j_ :
  Nat) : (State.finishWriteBack s b).reg q_ j_ = s.reg q_ j_ :=
  (keeps_finishWriteBack (closed_reg _ _ _ h_ _) _ _ (fun _ h => h) ⟨rfl⟩).out
theorem finishWriteBack_mem (s : State) (b : Nat) (h_ : touchFinishWriteBack none = false) : (State.finishWriteBack
  s b).mem = s.mem :=
  (keeps_finishWriteBack (closed_mem _ _ h_) _ _ (fun _ h => h) ⟨rfl⟩).out

theorem resumeBays_reg (s : State) (ks : List Nat) (moved : Bool) (q_ : Reg) (h_ : touchResumeBays (some q_) =
  false) (j_ : Nat) : (State.resumeBays s ks moved).reg q_ j_ = s.reg q_ j_ :=
  (keeps_resumeBays (closed_reg _ _ _ h_ _) _ _ _ (fun _ h => h) ⟨rfl⟩).out
theorem resumeBays_mem (s : State) (ks : List Nat) (moved : Bool) (h_ : touchResumeBays none = false) :
  (State.resumeBays s ks moved).mem = s.mem :=
  (keeps_resumeBays (closed_mem _ _ h_) _ _ _ (fun _ h => h) ⟨rfl⟩).out

theorem failBay_reg (s : State) (t : SelfTest) (die phys : Nat) (q_ : Reg) (h_ : touchFailBay (some q_) = false) (j_
  : Nat) : (State.failBay s t die phys).reg q_ j_ = s.reg q_ j_ :=
  (keeps_failBay (closed_reg _ _ _ h_ _) _ _ _ _ (fun _ h => h) ⟨rfl⟩).out
theorem failBay_mem (s : State) (t : SelfTest) (die phys : Nat) (h_ : touchFailBay none = false) : (State.failBay s
  t die phys).mem = s.mem :=
  (keeps_failBay (closed_mem _ _ h_) _ _ _ _ (fun _ h => h) ⟨rfl⟩).out

theorem useSpareBay_reg (s : State) (die : Nat) (q_ : Reg) (h_ : touchUseSpareBay (some q_) = false) (j_ : Nat) :
  (State.useSpareBay s die).reg q_ j_ = s.reg q_ j_ :=
  (keeps_useSpareBay (closed_reg _ _ _ h_ _) _ _ (fun _ h => h) ⟨rfl⟩).out
theorem useSpareBay_mem (s : State) (die : Nat) (h_ : touchUseSpareBay none = false) : (State.useSpareBay s die).mem
  = s.mem :=
  (keeps_useSpareBay (closed_mem _ _ h_) _ _ (fun _ h => h) ⟨rfl⟩).out

theorem afterChunk_reg (s : State) (d : Operand) (f : Flight) (lo : Nat) (outs : List ElemOut) (q_ : Reg) (h_ :
  touchAfterChunk (some q_) = false) (j_ : Nat) : (State.afterChunk s d f lo outs).reg q_ j_ = s.reg q_ j_ :=
  (keeps_afterChunk (closed_reg _ _ _ h_ _) _ _ _ _ _ (fun _ h => h) ⟨rfl⟩).out
theorem afterChunk_mem (s : State) (d : Operand) (f : Flight) (lo : Nat) (outs : List ElemOut) (h_ : touchAfterChunk
  none = false) : (State.afterChunk s d f lo outs).mem = s.mem :=
  (keeps_afterChunk (closed_mem _ _ h_) _ _ _ _ _ (fun _ h => h) ⟨rfl⟩).out

theorem runVector_reg (s : State) (b op fn : Nat) (q_ : Reg) (h_ : touchRunVector (some q_) = false) (j_ : Nat) :
  (State.runVector s b op fn).reg q_ j_ = s.reg q_ j_ :=
  (keeps_runVector (closed_reg _ _ _ h_ _) _ _ _ _ (fun _ h => h) ⟨rfl⟩).out
theorem runVector_mem (s : State) (b op fn : Nat) (h_ : touchRunVector none = false) : (State.runVector s b op
  fn).mem = s.mem :=
  (keeps_runVector (closed_mem _ _ h_) _ _ _ _ (fun _ h => h) ⟨rfl⟩).out

theorem noteQueues_reg (s : State) (q_ : Reg) (h_ : touchNoteQueues (some q_) = false) (j_ : Nat) :
  (State.noteQueues s).reg q_ j_ = s.reg q_ j_ :=
  (keeps_noteQueues (closed_reg _ _ _ h_ _) _ (fun _ h => h) ⟨rfl⟩).out
theorem noteQueues_mem (s : State) (h_ : touchNoteQueues none = false) : (State.noteQueues s).mem = s.mem :=
  (keeps_noteQueues (closed_mem _ _ h_) _ (fun _ h => h) ⟨rfl⟩).out

theorem countHandover_reg (t s : State) (q_ : Reg) (h_ : touchCountHandover (some q_) = false) (j_ : Nat) :
  (State.countHandover t s).reg q_ j_ = t.reg q_ j_ :=
  (keeps_countHandover (closed_reg _ _ _ h_ _) _ _ (fun _ h => h) ⟨rfl⟩).out
theorem countHandover_mem (t s : State) (h_ : touchCountHandover none = false) : (State.countHandover t s).mem =
  t.mem :=
  (keeps_countHandover (closed_mem _ _ h_) _ _ (fun _ h => h) ⟨rfl⟩).out

theorem startTrans_reg (s : State) (b : Nat) (f : Flight) (a d : Desc) (q_ : Reg) (h_ : touchStartTrans (some q_) =
  false) (j_ : Nat) : (State.startTrans s b f a d).reg q_ j_ = s.reg q_ j_ :=
  (keeps_startTrans (closed_reg _ _ _ h_ _) _ _ _ _ _ (fun _ h => h) ⟨rfl⟩).out
theorem startTrans_mem (s : State) (b : Nat) (f : Flight) (a d : Desc) (h_ : touchStartTrans none = false) :
  (State.startTrans s b f a d).mem = s.mem :=
  (keeps_startTrans (closed_mem _ _ h_) _ _ _ _ _ (fun _ h => h) ⟨rfl⟩).out

theorem runTrans_reg (s : State) (b tfn : Nat) (q_ : Reg) (h_ : touchRunTrans (some q_) = false) (j_ : Nat) :
  (State.runTrans s b tfn).reg q_ j_ = s.reg q_ j_ :=
  (keeps_runTrans (closed_reg _ _ _ h_ _) _ _ _ (fun _ h => h) ⟨rfl⟩).out
theorem runTrans_mem (s : State) (b tfn : Nat) (h_ : touchRunTrans none = false) : (State.runTrans s b tfn).mem =
  s.mem :=
  (keeps_runTrans (closed_mem _ _ h_) _ _ _ (fun _ h => h) ⟨rfl⟩).out

theorem runHist_reg (s : State) (b fn : Nat) (plan : State → Flight → Operands → Effect) (q_ : Reg) (h_ :
  touchRunHist (some q_) = false) (j_ : Nat) : (State.runHist s b fn plan).reg q_ j_ = s.reg q_ j_ :=
  (keeps_runHist (closed_reg _ _ _ h_ _) _ _ _ _ (fun _ h => h) ⟨rfl⟩).out
theorem runHist_mem (s : State) (b fn : Nat) (plan : State → Flight → Operands → Effect) (h_ : touchRunHist none =
  false) : (State.runHist s b fn plan).mem = s.mem :=
  (keeps_runHist (closed_mem _ _ h_) _ _ _ _ (fun _ h => h) ⟨rfl⟩).out

@[simp] theorem sendOp_reg (s : State) (a : Agent) (q cls key : Nat) (ps : List (Nat × Body)) (sig : Option (Nat ×
  Nat)) (order : Option RaccOrder) (q_ : Reg) (j_ : Nat) : (State.sendOp s a q cls key ps sig order).reg q_ j_ =
  s.reg q_ j_ :=
  (keeps_sendOp (closed_reg (fun _ => false) _ _ rfl _) _ _ _ _ _ _ _ _ ⟨rfl⟩).out
@[simp] theorem sendOp_mem (s : State) (a : Agent) (q cls key : Nat) (ps : List (Nat × Body)) (sig : Option (Nat ×
  Nat)) (order : Option RaccOrder) : (State.sendOp s a q cls key ps sig order).mem = s.mem :=
  (keeps_sendOp (closed_mem (fun _ => false) _ rfl) _ _ _ _ _ _ _ _ ⟨rfl⟩).out

@[simp] theorem sendFar_reg (s : State) (p : Packet) (q_ : Reg) (j_ : Nat) : (State.sendFar s p).reg q_ j_ = s.reg
  q_ j_ :=
  (keeps_sendFar (closed_reg (fun _ => false) _ _ rfl _) _ _ ⟨rfl⟩).out
@[simp] theorem sendFar_mem (s : State) (p : Packet) : (State.sendFar s p).mem = s.mem :=
  (keeps_sendFar (closed_mem (fun _ => false) _ rfl) _ _ ⟨rfl⟩).out

@[simp] theorem retryFar_reg (s : State) (q_ : Reg) (j_ : Nat) : (State.retryFar s).reg q_ j_ = s.reg q_ j_ :=
  (keeps_retryFar (closed_reg (fun _ => false) _ _ rfl _) _ ⟨rfl⟩).out
@[simp] theorem retryFar_mem (s : State) : (State.retryFar s).mem = s.mem :=
  (keeps_retryFar (closed_mem (fun _ => false) _ rfl) _ ⟨rfl⟩).out

@[simp] theorem setMail_reg (s : State) (m new : Mail) (q_ : Reg) (j_ : Nat) : (State.setMail s m new).reg q_ j_ =
  s.reg q_ j_ :=
  (keeps_setMail (closed_reg (fun _ => false) _ _ rfl _) _ _ _ ⟨rfl⟩).out
@[simp] theorem setMail_mem (s : State) (m new : Mail) : (State.setMail s m new).mem = s.mem :=
  (keeps_setMail (closed_mem (fun _ => false) _ rfl) _ _ _ ⟨rfl⟩).out

theorem pushMail_reg (s : State) (m : Mail) (k : Nat) (q_ : Reg) (h_ : touchPushMail (some q_) = false) (j_ : Nat) :
  (State.pushMail s m k).reg q_ j_ = s.reg q_ j_ :=
  (keeps_pushMail (closed_reg _ _ _ h_ _) _ _ _ (fun _ h => h) ⟨rfl⟩).out
theorem pushMail_mem (s : State) (m : Mail) (k : Nat) (h_ : touchPushMail none = false) : (State.pushMail s m k).mem
  = s.mem :=
  (keeps_pushMail (closed_mem _ _ h_) _ _ _ (fun _ h => h) ⟨rfl⟩).out

theorem startMail_reg (s : State) (m : Mail) (q_ : Reg) (h_ : touchStartMail (some q_) = false) (j_ : Nat) :
  (State.startMail s m).reg q_ j_ = s.reg q_ j_ :=
  (keeps_startMail (closed_reg _ _ _ h_ _) _ _ (fun _ h => h) ⟨rfl⟩).out
theorem startMail_mem (s : State) (m : Mail) (h_ : touchStartMail none = false) : (State.startMail s m).mem = s.mem
  :=
  (keeps_startMail (closed_mem _ _ h_) _ _ (fun _ h => h) ⟨rfl⟩).out

theorem startMails_reg (s : State) (q_ : Reg) (h_ : touchStartMails (some q_) = false) (j_ : Nat) :
  (State.startMails s).reg q_ j_ = s.reg q_ j_ :=
  (keeps_startMails (closed_reg _ _ _ h_ _) _ (fun _ h => h) ⟨rfl⟩).out
theorem startMails_mem (s : State) (h_ : touchStartMails none = false) : (State.startMails s).mem = s.mem :=
  (keeps_startMails (closed_mem _ _ h_) _ (fun _ h => h) ⟨rfl⟩).out

theorem postMail_reg (s : State) (m : Mail) (q_ : Reg) (h_ : touchPostMail (some q_) = false) (j_ : Nat) :
  (State.postMail s m).reg q_ j_ = s.reg q_ j_ :=
  (keeps_postMail (closed_reg _ _ _ h_ _) _ _ (fun _ h => h) ⟨rfl⟩).out
theorem postMail_mem (s : State) (m : Mail) (h_ : touchPostMail none = false) : (State.postMail s m).mem = s.mem :=
  (keeps_postMail (closed_mem _ _ h_) _ _ (fun _ h => h) ⟨rfl⟩).out

theorem postedFailure_reg (s : State) (b code lnode : Nat) (q_ : Reg) (h_ : touchPostedFailure (some q_) = false)
  (j_ : Nat) : (State.postedFailure s b code lnode).reg q_ j_ = s.reg q_ j_ :=
  (keeps_postedFailure (closed_reg _ _ _ h_ _) _ _ _ _ (fun _ h => h) ⟨rfl⟩).out
theorem postedFailure_mem (s : State) (b code lnode : Nat) (h_ : touchPostedFailure none = false) :
  (State.postedFailure s b code lnode).mem = s.mem :=
  (keeps_postedFailure (closed_mem _ _ h_) _ _ _ _ (fun _ h => h) ⟨rfl⟩).out

theorem noteGather_reg (s : State) (b : Nat) (f : Flight) (e : Effect) (q_ : Reg) (h_ : touchNoteGather (some q_) =
  false) (j_ : Nat) : (State.noteGather s b f e).reg q_ j_ = s.reg q_ j_ :=
  (keeps_noteGather (closed_reg _ _ _ h_ _) _ _ _ _ (fun _ h => h) ⟨rfl⟩).out
theorem noteGather_mem (s : State) (b : Nat) (f : Flight) (e : Effect) (h_ : touchNoteGather none = false) :
  (State.noteGather s b f e).mem = s.mem :=
  (keeps_noteGather (closed_mem _ _ h_) _ _ _ _ (fun _ h => h) ⟨rfl⟩).out

theorem finishGather_reg (s : State) (b : Nat) (f : Flight) (q_ : Reg) (h_ : touchFinishGather (some q_) = false)
  (j_ : Nat) : (State.finishGather s b f).reg q_ j_ = s.reg q_ j_ :=
  (keeps_finishGather (closed_reg _ _ _ h_ _) _ _ _ (fun _ h => h) ⟨rfl⟩).out
theorem finishGather_mem (s : State) (b : Nat) (f : Flight) (h_ : touchFinishGather none = false) :
  (State.finishGather s b f).mem = s.mem :=
  (keeps_finishGather (closed_mem _ _ h_) _ _ _ (fun _ h => h) ⟨rfl⟩).out

theorem finishScatter_reg (s : State) (b : Nat) (f : Flight) (q_ : Reg) (h_ : touchFinishScatter (some q_) = false)
  (j_ : Nat) : (State.finishScatter s b f).reg q_ j_ = s.reg q_ j_ :=
  (keeps_finishScatter (closed_reg _ _ _ h_ _) _ _ _ (fun _ h => h) ⟨rfl⟩).out
theorem finishScatter_mem (s : State) (b : Nat) (f : Flight) (h_ : touchFinishScatter none = false) :
  (State.finishScatter s b f).mem = s.mem :=
  (keeps_finishScatter (closed_mem _ _ h_) _ _ _ (fun _ h => h) ⟨rfl⟩).out

@[simp] theorem sendBlocks_reg (s : State) (b : Nat) (f : Flight) (q cls key : Nat) (runs : List (Nat × List Byte))
  (sig : Option Desc) (q_ : Reg) (j_ : Nat) : (State.sendBlocks s b f q cls key runs sig).reg q_ j_ = s.reg q_ j_ :=
  (keeps_sendBlocks (closed_reg (fun _ => false) _ _ rfl _) _ _ _ _ _ _ _ _ ⟨rfl⟩).out
@[simp] theorem sendBlocks_mem (s : State) (b : Nat) (f : Flight) (q cls key : Nat) (runs : List (Nat × List Byte))
  (sig : Option Desc) : (State.sendBlocks s b f q cls key runs sig).mem = s.mem :=
  (keeps_sendBlocks (closed_mem (fun _ => false) _ rfl) _ _ _ _ _ _ _ _ ⟨rfl⟩).out

theorem mailRuns_reg (s : State) (b serial : Nat) (d : Desc) (cls : Nat) (sig : Option Desc) (rs : List (Nat × List
  Byte)) (q_ : Reg) (h_ : touchMailRuns (some q_) = false) (j_ : Nat) : (State.mailRuns s b serial d cls sig rs).reg
  q_ j_ = s.reg q_ j_ :=
  (keeps_mailRuns (closed_reg _ _ _ h_ _) _ _ _ _ _ _ _ (fun _ h => h) ⟨rfl⟩).out
theorem mailRuns_mem (s : State) (b serial : Nat) (d : Desc) (cls : Nat) (sig : Option Desc) (rs : List (Nat × List
  Byte)) (h_ : touchMailRuns none = false) : (State.mailRuns s b serial d cls sig rs).mem = s.mem :=
  (keeps_mailRuns (closed_mem _ _ h_) _ _ _ _ _ _ _ (fun _ h => h) ⟨rfl⟩).out

theorem runRacc_reg (s : State) (b : Nat) (relaxed : Bool) (q_ : Reg) (h_ : touchRunRacc (some q_) = false) (j_ :
  Nat) : (State.runRacc s b relaxed).reg q_ j_ = s.reg q_ j_ :=
  (keeps_runRacc (closed_reg _ _ _ h_ _) _ _ _ (fun _ h => h) ⟨rfl⟩).out
theorem runRacc_mem (s : State) (b : Nat) (relaxed : Bool) (h_ : touchRunRacc none = false) : (State.runRacc s b
  relaxed).mem = s.mem :=
  (keeps_runRacc (closed_mem _ _ h_) _ _ _ (fun _ h => h) ⟨rfl⟩).out

@[simp] theorem setHart_reg (s : State) (h : Nat) (t : Hart) (q_ : Reg) (j_ : Nat) : (State.setHart s h t).reg q_ j_
  = s.reg q_ j_ :=
  (keeps_setHart (closed_reg (fun _ => false) _ _ rfl _) _ _ _ ⟨rfl⟩).out
@[simp] theorem setHart_mem (s : State) (h : Nat) (t : Hart) : (State.setHart s h t).mem = s.mem :=
  (keeps_setHart (closed_mem (fun _ => false) _ rfl) _ _ _ ⟨rfl⟩).out

theorem passTurn_reg (s : State) (core t : Nat) (q_ : Reg) (h_ : touchPassTurn (some q_) = false) (j_ : Nat) :
  (State.passTurn s core t).reg q_ j_ = s.reg q_ j_ :=
  (keeps_passTurn (closed_reg _ _ _ h_ _) _ _ _ (fun _ h => h) ⟨rfl⟩).out
theorem passTurn_mem (s : State) (core t : Nat) (h_ : touchPassTurn none = false) : (State.passTurn s core t).mem =
  s.mem :=
  (keeps_passTurn (closed_mem _ _ h_) _ _ _ (fun _ h => h) ⟨rfl⟩).out

theorem fixTurn_reg (s : State) (core : Nat) (q_ : Reg) (h_ : touchFixTurn (some q_) = false) (j_ : Nat) :
  (State.fixTurn s core).reg q_ j_ = s.reg q_ j_ :=
  (keeps_fixTurn (closed_reg _ _ _ h_ _) _ _ (fun _ h => h) ⟨rfl⟩).out
theorem fixTurn_mem (s : State) (core : Nat) (h_ : touchFixTurn none = false) : (State.fixTurn s core).mem = s.mem
  :=
  (keeps_fixTurn (closed_mem _ _ h_) _ _ (fun _ h => h) ⟨rfl⟩).out

theorem leave_reg (s : State) (h : Nat) (q_ : Reg) (h_ : touchLeave (some q_) = false) (j_ : Nat) : (State.leave s
  h).reg q_ j_ = s.reg q_ j_ :=
  (keeps_leave (closed_reg _ _ _ h_ _) _ _ (fun _ h => h) ⟨rfl⟩).out
theorem leave_mem (s : State) (h : Nat) (h_ : touchLeave none = false) : (State.leave s h).mem = s.mem :=
  (keeps_leave (closed_mem _ _ h_) _ _ (fun _ h => h) ⟨rfl⟩).out

theorem park_reg (s : State) (h : Nat) (access : Bool) (w : Await) (q_ : Reg) (h_ : touchPark (some q_) = false) (j_
  : Nat) : (State.park s h access w).reg q_ j_ = s.reg q_ j_ :=
  (keeps_park (closed_reg _ _ _ h_ _) _ _ _ _ (fun _ h => h) ⟨rfl⟩).out
theorem park_mem (s : State) (h : Nat) (access : Bool) (w : Await) (h_ : touchPark none = false) : (State.park s h
  access w).mem = s.mem :=
  (keeps_park (closed_mem _ _ h_) _ _ _ _ (fun _ h => h) ⟨rfl⟩).out

theorem trap_reg (s : State) (h cause tval : Nat) (q_ : Reg) (h_ : touchTrap (some q_) = false) (j_ : Nat) :
  (State.trap s h cause tval).reg q_ j_ = s.reg q_ j_ :=
  (keeps_trap (closed_reg _ _ _ h_ _) _ _ _ _ (fun _ h => h) ⟨rfl⟩).out
theorem trap_mem (s : State) (h cause tval : Nat) (h_ : touchTrap none = false) : (State.trap s h cause tval).mem =
  s.mem :=
  (keeps_trap (closed_mem _ _ h_) _ _ _ _ (fun _ h => h) ⟨rfl⟩).out

theorem illegal_reg (s : State) (h word : Nat) (q_ : Reg) (h_ : touchIllegal (some q_) = false) (j_ : Nat) :
  (State.illegal s h word).reg q_ j_ = s.reg q_ j_ :=
  (keeps_illegal (closed_reg _ _ _ h_ _) _ _ _ (fun _ h => h) ⟨rfl⟩).out
theorem illegal_mem (s : State) (h word : Nat) (h_ : touchIllegal none = false) : (State.illegal s h word).mem =
  s.mem :=
  (keeps_illegal (closed_mem _ _ h_) _ _ _ (fun _ h => h) ⟨rfl⟩).out

theorem retire_reg (s : State) (h len : Nat) (f : Hart → Hart) (q_ : Reg) (h_ : touchRetire (some q_) = false) (j_ :
  Nat) : (State.retire s h len f).reg q_ j_ = s.reg q_ j_ :=
  (keeps_retire (closed_reg _ _ _ h_ _) _ _ _ _ (fun _ h => h) ⟨rfl⟩).out
theorem retire_mem (s : State) (h len : Nat) (f : Hart → Hart) (h_ : touchRetire none = false) : (State.retire s h
  len f).mem = s.mem :=
  (keeps_retire (closed_mem _ _ h_) _ _ _ _ (fun _ h => h) ⟨rfl⟩).out

theorem takeInterrupt_reg (s : State) (h : Nat) (q_ : Reg) (h_ : touchTakeInterrupt (some q_) = false) (j_ : Nat) :
  (State.takeInterrupt s h).reg q_ j_ = s.reg q_ j_ :=
  (keeps_takeInterrupt (closed_reg _ _ _ h_ _) _ _ (fun _ h => h) ⟨rfl⟩).out
theorem takeInterrupt_mem (s : State) (h : Nat) (h_ : touchTakeInterrupt none = false) : (State.takeInterrupt s
  h).mem = s.mem :=
  (keeps_takeInterrupt (closed_mem _ _ h_) _ _ (fun _ h => h) ⟨rfl⟩).out

theorem wake_reg (s : State) (h : Nat) (q_ : Reg) (h_ : touchWake (some q_) = false) (j_ : Nat) : (State.wake s
  h).reg q_ j_ = s.reg q_ j_ :=
  (keeps_wake (closed_reg _ _ _ h_ _) _ _ (fun _ h => h) ⟨rfl⟩).out
theorem wake_mem (s : State) (h : Nat) (h_ : touchWake none = false) : (State.wake s h).mem = s.mem :=
  (keeps_wake (closed_mem _ _ h_) _ _ (fun _ h => h) ⟨rfl⟩).out

theorem stopHart_reg (s : State) (h : Nat) (q_ : Reg) (h_ : touchStopHart (some q_) = false) (j_ : Nat) :
  (State.stopHart s h).reg q_ j_ = s.reg q_ j_ :=
  (keeps_stopHart (closed_reg _ _ _ h_ _) _ _ (fun _ h => h) ⟨rfl⟩).out
theorem stopHart_mem (s : State) (h : Nat) (h_ : touchStopHart none = false) : (State.stopHart s h).mem = s.mem :=
  (keeps_stopHart (closed_mem _ _ h_) _ _ (fun _ h => h) ⟨rfl⟩).out

theorem resumeCore_reg (s : State) (core : Nat) (q_ : Reg) (h_ : touchResumeCore (some q_) = false) (j_ : Nat) :
  (State.resumeCore s core).reg q_ j_ = s.reg q_ j_ :=
  (keeps_resumeCore (closed_reg _ _ _ h_ _) _ _ (fun _ h => h) ⟨rfl⟩).out
theorem resumeCore_mem (s : State) (core : Nat) (h_ : touchResumeCore none = false) : (State.resumeCore s core).mem
  = s.mem :=
  (keeps_resumeCore (closed_mem _ _ h_) _ _ (fun _ h => h) ⟨rfl⟩).out

theorem stopHarts_reg (s : State) (q_ : Reg) (h_ : touchStopHarts (some q_) = false) (j_ : Nat) : (State.stopHarts
  s).reg q_ j_ = s.reg q_ j_ :=
  (keeps_stopHarts (closed_reg _ _ _ h_ _) _ (fun _ h => h) ⟨rfl⟩).out
theorem stopHarts_mem (s : State) (h_ : touchStopHarts none = false) : (State.stopHarts s).mem = s.mem :=
  (keeps_stopHarts (closed_mem _ _ h_) _ (fun _ h => h) ⟨rfl⟩).out

theorem releaseHarts_reg (s : State) (q_ : Reg) (h_ : touchReleaseHarts (some q_) = false) (j_ : Nat) :
  (State.releaseHarts s).reg q_ j_ = s.reg q_ j_ :=
  (keeps_releaseHarts (closed_reg _ _ _ h_ _) _ (fun _ h => h) ⟨rfl⟩).out
theorem releaseHarts_mem (s : State) (h_ : touchReleaseHarts none = false) : (State.releaseHarts s).mem = s.mem :=
  (keeps_releaseHarts (closed_mem _ _ h_) _ (fun _ h => h) ⟨rfl⟩).out

theorem startHart_reg (s : State) (h : Nat) (a2 : Option Nat) (q_ : Reg) (h_ : touchStartHart (some q_) = false) (j_
  : Nat) : (State.startHart s h a2).reg q_ j_ = s.reg q_ j_ :=
  (keeps_startHart (closed_reg _ _ _ h_ _) _ _ _ (fun _ h => h) ⟨rfl⟩).out
theorem startHart_mem (s : State) (h : Nat) (a2 : Option Nat) (h_ : touchStartHart none = false) : (State.startHart
  s h a2).mem = s.mem :=
  (keeps_startHart (closed_mem _ _ h_) _ _ _ (fun _ h => h) ⟨rfl⟩).out

theorem startHarts_reg (s : State) (a2 : Option Nat) (q_ : Reg) (h_ : touchStartHarts (some q_) = false) (j_ : Nat)
  : (State.startHarts s a2).reg q_ j_ = s.reg q_ j_ :=
  (keeps_startHarts (closed_reg _ _ _ h_ _) _ _ (fun _ h => h) ⟨rfl⟩).out
theorem startHarts_mem (s : State) (a2 : Option Nat) (h_ : touchStartHarts none = false) : (State.startHarts s
  a2).mem = s.mem :=
  (keeps_startHarts (closed_mem _ _ h_) _ _ (fun _ h => h) ⟨rfl⟩).out

@[simp] theorem buffer_reg (s : State) (h a : Nat) (io : Bool) (bs : List Byte) (q_ : Reg) (j_ : Nat) :
  (State.buffer s h a io bs).reg q_ j_ = s.reg q_ j_ :=
  (keeps_buffer (closed_reg (fun _ => false) _ _ rfl _) _ _ _ _ _ ⟨rfl⟩).out
@[simp] theorem buffer_mem (s : State) (h a : Nat) (io : Bool) (bs : List Byte) : (State.buffer s h a io bs).mem =
  s.mem :=
  (keeps_buffer (closed_mem (fun _ => false) _ rfl) _ _ _ _ _ ⟨rfl⟩).out

theorem storeAt_reg (s : State) (h len : Nat) (p : Place) (bs : List Byte) (q_ : Reg) (h_ : touchStoreAt (some q_) =
  false) (j_ : Nat) : (State.storeAt s h len p bs).reg q_ j_ = s.reg q_ j_ :=
  (keeps_storeAt (closed_reg _ _ _ h_ _) _ _ _ _ _ (fun _ h => h) ⟨rfl⟩).out
theorem storeAt_mem (s : State) (h len : Nat) (p : Place) (bs : List Byte) (h_ : touchStoreAt none = false) :
  (State.storeAt s h len p bs).mem = s.mem :=
  (keeps_storeAt (closed_mem _ _ h_) _ _ _ _ _ (fun _ h => h) ⟨rfl⟩).out

theorem endSync_reg (s : State) (h : Nat) (ra : Bool) (q_ : Reg) (h_ : touchEndSync (some q_) = false) (j_ : Nat) :
  (State.endSync s h ra).reg q_ j_ = s.reg q_ j_ :=
  (keeps_endSync (closed_reg _ _ _ h_ _) _ _ _ (fun _ h => h) ⟨rfl⟩).out
theorem endSync_mem (s : State) (h : Nat) (ra : Bool) (h_ : touchEndSync none = false) : (State.endSync s h ra).mem
  = s.mem :=
  (keeps_endSync (closed_mem _ _ h_) _ _ _ (fun _ h => h) ⟨rfl⟩).out

theorem settleHart_reg (s : State) (h : Nat) (q_ : Reg) (h_ : touchSettleHart (some q_) = false) (j_ : Nat) :
  (State.settleHart s h).reg q_ j_ = s.reg q_ j_ :=
  (keeps_settleHart (closed_reg _ _ _ h_ _) _ _ (fun _ h => h) ⟨rfl⟩).out
theorem settleHart_mem (s : State) (h : Nat) (h_ : touchSettleHart none = false) : (State.settleHart s h).mem =
  s.mem :=
  (keeps_settleHart (closed_mem _ _ h_) _ _ (fun _ h => h) ⟨rfl⟩).out

theorem amo_reg (s : State) (fn : AmoFn) (size a x : Nat) (q_ : Reg) (h_ : touchAmo (some q_) = false) (j_ : Nat) :
  (State.amo s fn size a x).2.2.reg q_ j_ = s.reg q_ j_ :=
  (keeps_amo (closed_reg _ _ _ h_ _) _ _ _ _ _ (fun _ h => h) ⟨rfl⟩).out
theorem amo_mem (s : State) (fn : AmoFn) (size a x : Nat) (h_ : touchAmo none = false) : (State.amo s fn size a
  x).2.2.mem = s.mem :=
  (keeps_amo (closed_mem _ _ h_) _ _ _ _ _ (fun _ h => h) ⟨rfl⟩).out

theorem signalAt_reg (s : State) (a : Nat) (q_ : Reg) (h_ : touchSignalAt (some q_) = false) (j_ : Nat) :
  (State.signalAt s a).reg q_ j_ = s.reg q_ j_ :=
  (keeps_signalAt (closed_reg _ _ _ h_ _) _ _ (fun _ h => h) ⟨rfl⟩).out
theorem signalAt_mem (s : State) (a : Nat) (h_ : touchSignalAt none = false) : (State.signalAt s a).mem = s.mem :=
  (keeps_signalAt (closed_mem _ _ h_) _ _ (fun _ h => h) ⟨rfl⟩).out

theorem raccElement_reg (s : State) (fn srcFmt dstFmt a v : Nat) (q_ : Reg) (h_ : touchRaccElement (some q_) =
  false) (j_ : Nat) : (State.raccElement s fn srcFmt dstFmt a v).reg q_ j_ = s.reg q_ j_ :=
  (keeps_raccElement (closed_reg _ _ _ h_ _) _ _ _ _ _ _ (fun _ h => h) ⟨rfl⟩).out
theorem raccElement_mem (s : State) (fn srcFmt dstFmt a v : Nat) (h_ : touchRaccElement none = false) :
  (State.raccElement s fn srcFmt dstFmt a v).mem = s.mem :=
  (keeps_raccElement (closed_mem _ _ h_) _ _ _ _ _ _ (fun _ h => h) ⟨rfl⟩).out

theorem raccApply_reg (s : State) (fn srcFmt dstFmt a : Nat) (data : List Byte) (q_ : Reg) (h_ : touchRaccApply
  (some q_) = false) (j_ : Nat) : (State.raccApply s fn srcFmt dstFmt a data).reg q_ j_ = s.reg q_ j_ :=
  (keeps_raccApply (closed_reg _ _ _ h_ _) _ _ _ _ _ _ (fun _ h => h) ⟨rfl⟩).out
theorem raccApply_mem (s : State) (fn srcFmt dstFmt a : Nat) (data : List Byte) (h_ : touchRaccApply none = false) :
  (State.raccApply s fn srcFmt dstFmt a data).mem = s.mem :=
  (keeps_raccApply (closed_mem _ _ h_) _ _ _ _ _ _ (fun _ h => h) ⟨rfl⟩).out

theorem dropStale_reg (s : State) (h : Header) (q_ : Reg) (h_ : touchDropStale (some q_) = false) (j_ : Nat) :
  (State.dropStale s h).reg q_ j_ = s.reg q_ j_ :=
  (keeps_dropStale (closed_reg _ _ _ h_ _) _ _ (fun _ h => h) ⟨rfl⟩).out
theorem dropStale_mem (s : State) (h : Header) (h_ : touchDropStale none = false) : (State.dropStale s h).mem =
  s.mem :=
  (keeps_dropStale (closed_mem _ _ h_) _ _ (fun _ h => h) ⟨rfl⟩).out

@[simp] theorem replyTo_reg (s : State) (q : Nat) (h : Header) (epoch : Nat) (b : Body) (q_ : Reg) (j_ : Nat) :
  (State.replyTo s q h epoch b).reg q_ j_ = s.reg q_ j_ :=
  (keeps_replyTo (closed_reg (fun _ => false) _ _ rfl _) _ _ _ _ _ ⟨rfl⟩).out
@[simp] theorem replyTo_mem (s : State) (q : Nat) (h : Header) (epoch : Nat) (b : Body) : (State.replyTo s q h epoch
  b).mem = s.mem :=
  (keeps_replyTo (closed_mem (fun _ => false) _ rfl) _ _ _ _ _ ⟨rfl⟩).out

@[simp] theorem answerBack_reg (s : State) (q : Nat) (h : Header) (epoch : Nat) (b : Body) (q_ : Reg) (j_ : Nat) :
  (State.answerBack s q h epoch b).reg q_ j_ = s.reg q_ j_ :=
  (keeps_answerBack (closed_reg (fun _ => false) _ _ rfl _) _ _ _ _ _ ⟨rfl⟩).out
@[simp] theorem answerBack_mem (s : State) (q : Nat) (h : Header) (epoch : Nat) (b : Body) : (State.answerBack s q h
  epoch b).mem = s.mem :=
  (keeps_answerBack (closed_mem (fun _ => false) _ rfl) _ _ _ _ _ ⟨rfl⟩).out

theorem noteMismatch_reg (s : State) (h : Header) (q_ : Reg) (h_ : touchNoteMismatch (some q_) = false) (j_ : Nat) :
  (State.noteMismatch s h).reg q_ j_ = s.reg q_ j_ :=
  (keeps_noteMismatch (closed_reg _ _ _ h_ _) _ _ (fun _ h => h) ⟨rfl⟩).out
theorem noteMismatch_mem (s : State) (h : Header) (h_ : touchNoteMismatch none = false) : (State.noteMismatch s
  h).mem = s.mem :=
  (keeps_noteMismatch (closed_mem _ _ h_) _ _ (fun _ h => h) ⟨rfl⟩).out

theorem refuseKey_reg (s : State) (q : Nat) (h : Header) (cause : Nat) (q_ : Reg) (h_ : touchRefuseKey (some q_) =
  false) (j_ : Nat) : (State.refuseKey s q h cause).reg q_ j_ = s.reg q_ j_ :=
  (keeps_refuseKey (closed_reg _ _ _ h_ _) _ _ _ _ (fun _ h => h) ⟨rfl⟩).out
theorem refuseKey_mem (s : State) (q : Nat) (h : Header) (cause : Nat) (h_ : touchRefuseKey none = false) :
  (State.refuseKey s q h cause).mem = s.mem :=
  (keeps_refuseKey (closed_mem _ _ h_) _ _ _ _ (fun _ h => h) ⟨rfl⟩).out

theorem showShards_reg (s : State) (q_ : Reg) (h_ : touchShowShards (some q_) = false) (j_ : Nat) :
  (State.showShards s).reg q_ j_ = s.reg q_ j_ :=
  (keeps_showShards (closed_reg _ _ _ h_ _) _ (fun _ h => h) ⟨rfl⟩).out
theorem showShards_mem (s : State) (h_ : touchShowShards none = false) : (State.showShards s).mem = s.mem :=
  (keeps_showShards (closed_mem _ _ h_) _ (fun _ h => h) ⟨rfl⟩).out

theorem putShard_reg (s : State) (x : Shard) (q_ : Reg) (h_ : touchPutShard (some q_) = false) (j_ : Nat) :
  (State.putShard s x).reg q_ j_ = s.reg q_ j_ :=
  (keeps_putShard (closed_reg _ _ _ h_ _) _ _ (fun _ h => h) ⟨rfl⟩).out
theorem putShard_mem (s : State) (x : Shard) (h_ : touchPutShard none = false) : (State.putShard s x).mem = s.mem :=
  (keeps_putShard (closed_mem _ _ h_) _ _ (fun _ h => h) ⟨rfl⟩).out

theorem serveStore_reg (s : State) (q : Nat) (p : Packet) (q_ : Reg) (h_ : touchServeStore (some q_) = false) (j_ :
  Nat) : (State.serveStore s q p).reg q_ j_ = s.reg q_ j_ :=
  (keeps_serveStore (closed_reg _ _ _ h_ _) _ _ _ (fun _ h => h) ⟨rfl⟩).out
theorem serveStore_mem (s : State) (q : Nat) (p : Packet) (h_ : touchServeStore none = false) : (State.serveStore s
  q p).mem = s.mem :=
  (keeps_serveStore (closed_mem _ _ h_) _ _ _ (fun _ h => h) ⟨rfl⟩).out

@[simp] theorem noteTurn_reg (s : State) (k : Nat) (q_ : Reg) (j_ : Nat) : (State.noteTurn s k).reg q_ j_ = s.reg q_
  j_ :=
  (keeps_noteTurn (closed_reg (fun _ => false) _ _ rfl _) _ _ ⟨rfl⟩).out
@[simp] theorem noteTurn_mem (s : State) (k : Nat) : (State.noteTurn s k).mem = s.mem :=
  (keeps_noteTurn (closed_mem (fun _ => false) _ rfl) _ _ ⟨rfl⟩).out

@[simp] theorem noteRefusal_reg (s : State) (k : Nat) (q_ : Reg) (j_ : Nat) : (State.noteRefusal s k).reg q_ j_ =
  s.reg q_ j_ :=
  (keeps_noteRefusal (closed_reg (fun _ => false) _ _ rfl _) _ _ ⟨rfl⟩).out
@[simp] theorem noteRefusal_mem (s : State) (k : Nat) : (State.noteRefusal s k).mem = s.mem :=
  (keeps_noteRefusal (closed_mem (fun _ => false) _ rfl) _ _ ⟨rfl⟩).out

@[simp] theorem stageRacc_reg (s : State) (p : Packet) (o : RaccOrder) (a : Nat) (q_ : Reg) (j_ : Nat) :
  (State.stageRacc s p o a).reg q_ j_ = s.reg q_ j_ :=
  (keeps_stageRacc (closed_reg (fun _ => false) _ _ rfl _) _ _ _ _ ⟨rfl⟩).out
@[simp] theorem stageRacc_mem (s : State) (p : Packet) (o : RaccOrder) (a : Nat) : (State.stageRacc s p o a).mem =
  s.mem :=
  (keeps_stageRacc (closed_mem (fun _ => false) _ rfl) _ _ _ _ ⟨rfl⟩).out

theorem serve_reg (s : State) (q : Nat) (p : Packet) (q_ : Reg) (h_ : touchServe (some q_) = false) (j_ : Nat) :
  (State.serve s q p).reg q_ j_ = s.reg q_ j_ :=
  (keeps_serve (closed_reg _ _ _ h_ _) _ _ _ (fun _ h => h) ⟨rfl⟩).out
theorem serve_mem (s : State) (q : Nat) (p : Packet) (h_ : touchServe none = false) : (State.serve s q p).mem =
  s.mem :=
  (keeps_serve (closed_mem _ _ h_) _ _ _ (fun _ h => h) ⟨rfl⟩).out

theorem serveEarly_reg (s : State) (k n : Nat) (q_ : Reg) (h_ : touchServeEarly (some q_) = false) (j_ : Nat) :
  (State.serveEarly s k n).reg q_ j_ = s.reg q_ j_ :=
  (keeps_serveEarly (closed_reg _ _ _ h_ _) _ _ _ (fun _ h => h) ⟨rfl⟩).out
theorem serveEarly_mem (s : State) (k n : Nat) (h_ : touchServeEarly none = false) : (State.serveEarly s k n).mem =
  s.mem :=
  (keeps_serveEarly (closed_mem _ _ h_) _ _ _ (fun _ h => h) ⟨rfl⟩).out

theorem serveWaiting_reg (s : State) (q_ : Reg) (h_ : touchServeWaiting (some q_) = false) (j_ : Nat) :
  (State.serveWaiting s).reg q_ j_ = s.reg q_ j_ :=
  (keeps_serveWaiting (closed_reg _ _ _ h_ _) _ (fun _ h => h) ⟨rfl⟩).out
theorem serveWaiting_mem (s : State) (h_ : touchServeWaiting none = false) : (State.serveWaiting s).mem = s.mem :=
  (keeps_serveWaiting (closed_mem _ _ h_) _ (fun _ h => h) ⟨rfl⟩).out

theorem applyStaged_reg (s : State) (x : Staged) (q_ : Reg) (h_ : touchApplyStaged (some q_) = false) (j_ : Nat) :
  (State.applyStaged s x).reg q_ j_ = s.reg q_ j_ :=
  (keeps_applyStaged (closed_reg _ _ _ h_ _) _ _ (fun _ h => h) ⟨rfl⟩).out
theorem applyStaged_mem (s : State) (x : Staged) (h_ : touchApplyStaged none = false) : (State.applyStaged s x).mem
  = s.mem :=
  (keeps_applyStaged (closed_mem _ _ h_) _ _ (fun _ h => h) ⟨rfl⟩).out

theorem applySource_reg (s : State) (r src : Nat) (q_ : Reg) (h_ : touchApplySource (some q_) = false) (j_ : Nat) :
  (State.applySource s r src).reg q_ j_ = s.reg q_ j_ :=
  (keeps_applySource (closed_reg _ _ _ h_ _) _ _ _ (fun _ h => h) ⟨rfl⟩).out
theorem applySource_mem (s : State) (r src : Nat) (h_ : touchApplySource none = false) : (State.applySource s r
  src).mem = s.mem :=
  (keeps_applySource (closed_mem _ _ h_) _ _ _ (fun _ h => h) ⟨rfl⟩).out

theorem applySources_reg (s : State) (r : Nat) (ns : List Nat) (q_ : Reg) (h_ : touchApplySources (some q_) = false)
  (j_ : Nat) : (State.applySources s r ns).2.reg q_ j_ = s.reg q_ j_ :=
  (keeps_applySources (closed_reg _ _ _ h_ _) _ _ _ (fun _ h => h) ⟨rfl⟩).out
theorem applySources_mem (s : State) (r : Nat) (ns : List Nat) (h_ : touchApplySources none = false) :
  (State.applySources s r ns).2.mem = s.mem :=
  (keeps_applySources (closed_mem _ _ h_) _ _ _ (fun _ h => h) ⟨rfl⟩).out

theorem applyRounds_reg (s : State) (n : Nat) (q_ : Reg) (h_ : touchApplyRounds (some q_) = false) (j_ : Nat) :
  (State.applyRounds s n).reg q_ j_ = s.reg q_ j_ :=
  (keeps_applyRounds (closed_reg _ _ _ h_ _) _ _ (fun _ h => h) ⟨rfl⟩).out
theorem applyRounds_mem (s : State) (n : Nat) (h_ : touchApplyRounds none = false) : (State.applyRounds s n).mem =
  s.mem :=
  (keeps_applyRounds (closed_mem _ _ h_) _ _ (fun _ h => h) ⟨rfl⟩).out

theorem forward_reg (s : State) (p : Packet) (q_ : Reg) (h_ : touchForward (some q_) = false) (j_ : Nat) :
  (State.forward s p).reg q_ j_ = s.reg q_ j_ :=
  (keeps_forward (closed_reg _ _ _ h_ _) _ _ (fun _ h => h) ⟨rfl⟩).out
theorem forward_mem (s : State) (p : Packet) (h_ : touchForward none = false) : (State.forward s p).mem = s.mem :=
  (keeps_forward (closed_mem _ _ h_) _ _ (fun _ h => h) ⟨rfl⟩).out

theorem arrive_reg (s : State) (q : Nat) (p : Packet) (q_ : Reg) (h_ : touchArrive (some q_) = false) (j_ : Nat) :
  (State.arrive s q p).reg q_ j_ = s.reg q_ j_ :=
  (keeps_arrive (closed_reg _ _ _ h_ _) _ _ _ (fun _ h => h) ⟨rfl⟩).out
theorem arrive_mem (s : State) (q : Nat) (p : Packet) (h_ : touchArrive none = false) : (State.arrive s q p).mem =
  s.mem :=
  (keeps_arrive (closed_mem _ _ h_) _ _ _ (fun _ h => h) ⟨rfl⟩).out

theorem hartFailure_reg (s : State) (h code lnode : Nat) (q_ : Reg) (h_ : touchHartFailure (some q_) = false) (j_ :
  Nat) : (State.hartFailure s h code lnode).reg q_ j_ = s.reg q_ j_ :=
  (keeps_hartFailure (closed_reg _ _ _ h_ _) _ _ _ _ (fun _ h => h) ⟨rfl⟩).out
theorem hartFailure_mem (s : State) (h code lnode : Nat) (h_ : touchHartFailure none = false) : (State.hartFailure s
  h code lnode).mem = s.mem :=
  (keeps_hartFailure (closed_mem _ _ h_) _ _ _ _ (fun _ h => h) ⟨rfl⟩).out

theorem deliver_reg (s : State) (r : Request) (data : List Byte) (poison : Bool) (code cause : Nat) (q_ : Reg) (h_ :
  touchDeliver (some q_) = false) (j_ : Nat) : (State.deliver s r data poison code cause).reg q_ j_ = s.reg q_ j_ :=
  (keeps_deliver (closed_reg _ _ _ h_ _) _ _ _ _ _ _ (fun _ h => h) ⟨rfl⟩).out
theorem deliver_mem (s : State) (r : Request) (data : List Byte) (poison : Bool) (code cause : Nat) (h_ :
  touchDeliver none = false) : (State.deliver s r data poison code cause).mem = s.mem :=
  (keeps_deliver (closed_mem _ _ h_) _ _ _ _ _ _ (fun _ h => h) ⟨rfl⟩).out

theorem answerArrives_reg (s : State) (q : Nat) (h : Header) (b : Body) (data : List Byte) (poison : Bool) (code
  cause : Nat) (q_ : Reg) (h_ : touchAnswerArrives (some q_) = false) (j_ : Nat) : (State.answerArrives s q h b data
  poison code cause).reg q_ j_ = s.reg q_ j_ :=
  (keeps_answerArrives (closed_reg _ _ _ h_ _) _ _ _ _ _ _ _ _ (fun _ h => h) ⟨rfl⟩).out
theorem answerArrives_mem (s : State) (q : Nat) (h : Header) (b : Body) (data : List Byte) (poison : Bool) (code
  cause : Nat) (h_ : touchAnswerArrives none = false) : (State.answerArrives s q h b data poison code cause).mem =
  s.mem :=
  (keeps_answerArrives (closed_mem _ _ h_) _ _ _ _ _ _ _ _ (fun _ h => h) ⟨rfl⟩).out

theorem postQueue_reg (s : State) (q i n : Nat) (q_ : Reg) (h_ : touchPostQueue (some q_) = false) (j_ : Nat) :
  (State.postQueue s q i n).reg q_ j_ = s.reg q_ j_ :=
  (keeps_postQueue (closed_reg _ _ _ h_ _) _ _ _ _ (fun _ h => h) ⟨rfl⟩).out
theorem postQueue_mem (s : State) (q i n : Nat) (h_ : touchPostQueue none = false) : (State.postQueue s q i n).mem =
  s.mem :=
  (keeps_postQueue (closed_mem _ _ h_) _ _ _ _ (fun _ h => h) ⟨rfl⟩).out

theorem ringMail_reg (s : State) (q tail : Nat) (q_ : Reg) (h_ : touchRingMail (some q_) = false) (j_ : Nat) :
  (State.ringMail s q tail).reg q_ j_ = s.reg q_ j_ :=
  (keeps_ringMail (closed_reg _ _ _ h_ _) _ _ _ (fun _ h => h) ⟨rfl⟩).out
theorem ringMail_mem (s : State) (q tail : Nat) (h_ : touchRingMail none = false) : (State.ringMail s q tail).mem =
  s.mem :=
  (keeps_ringMail (closed_mem _ _ h_) _ _ _ (fun _ h => h) ⟨rfl⟩).out

@[simp] theorem answerMail_reg (s : State) (h : Header) (b : Body) (q_ : Reg) (j_ : Nat) : (State.answerMail s h
  b).reg q_ j_ = s.reg q_ j_ :=
  (keeps_answerMail (closed_reg (fun _ => false) _ _ rfl _) _ _ _ ⟨rfl⟩).out
@[simp] theorem answerMail_mem (s : State) (h : Header) (b : Body) : (State.answerMail s h b).mem = s.mem :=
  (keeps_answerMail (closed_mem (fun _ => false) _ rfl) _ _ _ ⟨rfl⟩).out

@[simp] theorem setMailIn_reg (s : State) (m : MailIn) (q_ : Reg) (j_ : Nat) : (State.setMailIn s m).reg q_ j_ =
  s.reg q_ j_ :=
  (keeps_setMailIn (closed_reg (fun _ => false) _ _ rfl _) _ _ ⟨rfl⟩).out
@[simp] theorem setMailIn_mem (s : State) (m : MailIn) : (State.setMailIn s m).mem = s.mem :=
  (keeps_setMailIn (closed_mem (fun _ => false) _ rfl) _ _ ⟨rfl⟩).out

theorem mailPacket_reg (s : State) (p : Packet) (m : MailIn) (pkt total : Nat) (kind : MailKind) (data : List Byte)
  (q_ : Reg) (h_ : touchMailPacket (some q_) = false) (j_ : Nat) : (State.mailPacket s p m pkt total kind data).reg
  q_ j_ = s.reg q_ j_ :=
  (keeps_mailPacket (closed_reg _ _ _ h_ _) _ _ _ _ _ _ _ (fun _ h => h) ⟨rfl⟩).out
theorem mailPacket_mem (s : State) (p : Packet) (m : MailIn) (pkt total : Nat) (kind : MailKind) (data : List Byte)
  (h_ : touchMailPacket none = false) : (State.mailPacket s p m pkt total kind data).mem = s.mem :=
  (keeps_mailPacket (closed_mem _ _ h_) _ _ _ _ _ _ _ (fun _ h => h) ⟨rfl⟩).out

theorem deliverMail_reg (s : State) (p : Packet) (msg pkt total : Nat) (kind : MailKind) (data : List Byte) (q_ :
  Reg) (h_ : touchDeliverMail (some q_) = false) (j_ : Nat) : (State.deliverMail s p msg pkt total kind data).reg q_
  j_ = s.reg q_ j_ :=
  (keeps_deliverMail (closed_reg _ _ _ h_ _) _ _ _ _ _ _ _ (fun _ h => h) ⟨rfl⟩).out
theorem deliverMail_mem (s : State) (p : Packet) (msg pkt total : Nat) (kind : MailKind) (data : List Byte) (h_ :
  touchDeliverMail none = false) : (State.deliverMail s p msg pkt total kind data).mem = s.mem :=
  (keeps_deliverMail (closed_mem _ _ h_) _ _ _ _ _ _ _ (fun _ h => h) ⟨rfl⟩).out

theorem carry_reg (s : State) (detour : Bool) (p : Packet) (q_ : Reg) (h_ : touchCarry (some q_) = false) (j_ : Nat)
  : (State.carry s detour p).reg q_ j_ = s.reg q_ j_ :=
  (keeps_carry (closed_reg _ _ _ h_ _) _ _ _ (fun _ h => h) ⟨rfl⟩).out
theorem carry_mem (s : State) (detour : Bool) (p : Packet) (h_ : touchCarry none = false) : (State.carry s detour
  p).mem = s.mem :=
  (keeps_carry (closed_mem _ _ h_) _ _ _ (fun _ h => h) ⟨rfl⟩).out

theorem mailRefused_reg (s : State) (h : Header) (msg code : Nat) (q_ : Reg) (h_ : touchMailRefused (some q_) =
  false) (j_ : Nat) : (State.mailRefused s h msg code).reg q_ j_ = s.reg q_ j_ :=
  (keeps_mailRefused (closed_reg _ _ _ h_ _) _ _ _ _ (fun _ h => h) ⟨rfl⟩).out
theorem mailRefused_mem (s : State) (h : Header) (msg code : Nat) (h_ : touchMailRefused none = false) :
  (State.mailRefused s h msg code).mem = s.mem :=
  (keeps_mailRefused (closed_mem _ _ h_) _ _ _ _ (fun _ h => h) ⟨rfl⟩).out

theorem setLink_reg (s : State) (l v : Nat) (q_ : Reg) (h_ : touchSetLink (some q_) = false) (j_ : Nat) :
  (State.setLink s l v).reg q_ j_ = s.reg q_ j_ :=
  (keeps_setLink (closed_reg _ _ _ h_ _) _ _ _ (fun _ h => h) ⟨rfl⟩).out
theorem setLink_mem (s : State) (l v : Nat) (h_ : touchSetLink none = false) : (State.setLink s l v).mem = s.mem :=
  (keeps_setLink (closed_mem _ _ h_) _ _ _ (fun _ h => h) ⟨rfl⟩).out

theorem loseLink_reg (s : State) (l : Nat) (q_ : Reg) (h_ : touchLoseLink (some q_) = false) (j_ : Nat) :
  (State.loseLink s l).reg q_ j_ = s.reg q_ j_ :=
  (keeps_loseLink (closed_reg _ _ _ h_ _) _ _ (fun _ h => h) ⟨rfl⟩).out
theorem loseLink_mem (s : State) (l : Nat) (h_ : touchLoseLink none = false) : (State.loseLink s l).mem = s.mem :=
  (keeps_loseLink (closed_mem _ _ h_) _ _ (fun _ h => h) ⟨rfl⟩).out

@[simp] theorem ackFlits_reg (s : State) (l want : Nat) (q_ : Reg) (j_ : Nat) : (State.ackFlits s l want).reg q_ j_
  = s.reg q_ j_ :=
  (keeps_ackFlits (closed_reg (fun _ => false) _ _ rfl _) _ _ _ ⟨rfl⟩).out
@[simp] theorem ackFlits_mem (s : State) (l want : Nat) : (State.ackFlits s l want).mem = s.mem :=
  (keeps_ackFlits (closed_mem (fun _ => false) _ rfl) _ _ _ ⟨rfl⟩).out

@[simp] theorem resendFrom_reg (s : State) (l n : Nat) (q_ : Reg) (j_ : Nat) : (State.resendFrom s l n).reg q_ j_ =
  s.reg q_ j_ :=
  (keeps_resendFrom (closed_reg (fun _ => false) _ _ rfl _) _ _ _ ⟨rfl⟩).out
@[simp] theorem resendFrom_mem (s : State) (l n : Nat) : (State.resendFrom s l n).mem = s.mem :=
  (keeps_resendFrom (closed_mem (fun _ => false) _ rfl) _ _ _ ⟨rfl⟩).out

theorem linkCommand_reg (l v : Nat) (s : State) (q_ : Reg) (h_ : touchLinkCommand (some q_) = false) (j_ : Nat) :
  (linkCommand l v s).reg q_ j_ = s.reg q_ j_ :=
  (keeps_linkCommand (closed_reg _ _ _ h_ _) _ _ _ (fun _ h => h) ⟨rfl⟩).out
theorem linkCommand_mem (l v : Nat) (s : State) (h_ : touchLinkCommand none = false) : (linkCommand l v s).mem =
  s.mem :=
  (keeps_linkCommand (closed_mem _ _ h_) _ _ _ (fun _ h => h) ⟨rfl⟩).out

theorem logChunks_reg (s : State) (b : Nat) (cs : List ChunkRecord) (q_ : Reg) (h_ : touchLogChunks (some q_) =
  false) (j_ : Nat) : (State.logChunks s b cs).reg q_ j_ = s.reg q_ j_ :=
  (keeps_logChunks (closed_reg _ _ _ h_ _) _ _ _ (fun _ h => h) ⟨rfl⟩).out
theorem logChunks_mem (s : State) (b : Nat) (cs : List ChunkRecord) (h_ : touchLogChunks none = false) :
  (State.logChunks s b cs).mem = s.mem :=
  (keeps_logChunks (closed_mem _ _ h_) _ _ _ (fun _ h => h) ⟨rfl⟩).out

theorem abandonBay_reg (s : State) (b : Nat) (q_ : Reg) (h_ : touchAbandonBay (some q_) = false) (j_ : Nat) :
  (State.abandonBay s b).reg q_ j_ = s.reg q_ j_ :=
  (keeps_abandonBay (closed_reg _ _ _ h_ _) _ _ (fun _ h => h) ⟨rfl⟩).out
theorem abandonBay_mem (s : State) (b : Nat) (h_ : touchAbandonBay none = false) : (State.abandonBay s b).mem =
  s.mem :=
  (keeps_abandonBay (closed_mem _ _ h_) _ _ (fun _ h => h) ⟨rfl⟩).out

theorem abandonAll_reg (s : State) (q_ : Reg) (h_ : touchAbandonAll (some q_) = false) (j_ : Nat) :
  (State.abandonAll s).reg q_ j_ = s.reg q_ j_ :=
  (keeps_abandonAll (closed_reg _ _ _ h_ _) _ (fun _ h => h) ⟨rfl⟩).out
theorem abandonAll_mem (s : State) (h_ : touchAbandonAll none = false) : (State.abandonAll s).mem = s.mem :=
  (keeps_abandonAll (closed_mem _ _ h_) _ (fun _ h => h) ⟨rfl⟩).out

theorem dataLoss_reg (s : State) (e : ErrorEvent) (q_ : Reg) (h_ : touchDataLoss (some q_) = false) (j_ : Nat) :
  (State.dataLoss s e).reg q_ j_ = s.reg q_ j_ :=
  (keeps_dataLoss (closed_reg _ _ _ h_ _) _ _ (fun _ h => h) ⟨rfl⟩).out
theorem dataLoss_mem (s : State) (e : ErrorEvent) (h_ : touchDataLoss none = false) : (State.dataLoss s e).mem =
  s.mem :=
  (keeps_dataLoss (closed_mem _ _ h_) _ _ (fun _ h => h) ⟨rfl⟩).out

theorem loseModel_reg (s : State) (rs : List (Nat × Nat)) (q_ : Reg) (h_ : touchLoseModel (some q_) = false) (j_ :
  Nat) : (State.loseModel s rs).reg q_ j_ = s.reg q_ j_ :=
  (keeps_loseModel (closed_reg _ _ _ h_ _) _ _ (fun _ h => h) ⟨rfl⟩).out
theorem loseModel_mem (s : State) (rs : List (Nat × Nat)) (h_ : touchLoseModel none = false) : (State.loseModel s
  rs).mem = s.mem :=
  (keeps_loseModel (closed_mem _ _ h_) _ _ (fun _ h => h) ⟨rfl⟩).out

theorem showSlots_reg (s : State) (q_ : Reg) (h_ : touchShowSlots (some q_) = false) (j_ : Nat) : (State.showSlots
  s).reg q_ j_ = s.reg q_ j_ :=
  (keeps_showSlots (closed_reg _ _ _ h_ _) _ (fun _ h => h) ⟨rfl⟩).out
theorem showSlots_mem (s : State) (h_ : touchShowSlots none = false) : (State.showSlots s).mem = s.mem :=
  (keeps_showSlots (closed_mem _ _ h_) _ (fun _ h => h) ⟨rfl⟩).out

theorem setSlot_reg (s : State) (k : Nat) (x : Slot) (q_ : Reg) (h_ : touchSetSlot (some q_) = false) (j_ : Nat) :
  (State.setSlot s k x).reg q_ j_ = s.reg q_ j_ :=
  (keeps_setSlot (closed_reg _ _ _ h_ _) _ _ _ (fun _ h => h) ⟨rfl⟩).out
theorem setSlot_mem (s : State) (k : Nat) (x : Slot) (h_ : touchSetSlot none = false) : (State.setSlot s k x).mem =
  s.mem :=
  (keeps_setSlot (closed_mem _ _ h_) _ _ _ (fun _ h => h) ⟨rfl⟩).out

theorem snapshotInvalid_reg (s : State) (unitKind unit cause : Nat) (q_ : Reg) (h_ : touchSnapshotInvalid (some q_)
  = false) (j_ : Nat) : (State.snapshotInvalid s unitKind unit cause).reg q_ j_ = s.reg q_ j_ :=
  (keeps_snapshotInvalid (closed_reg _ _ _ h_ _) _ _ _ _ (fun _ h => h) ⟨rfl⟩).out
theorem snapshotInvalid_mem (s : State) (unitKind unit cause : Nat) (h_ : touchSnapshotInvalid none = false) :
  (State.snapshotInvalid s unitKind unit cause).mem = s.mem :=
  (keeps_snapshotInvalid (closed_mem _ _ h_) _ _ _ _ (fun _ h => h) ⟨rfl⟩).out

theorem stopCopy_reg (s : State) (cause : Option Nat) (q_ : Reg) (h_ : touchStopCopy (some q_) = false) (j_ : Nat) :
  (State.stopCopy s cause).reg q_ j_ = s.reg q_ j_ :=
  (keeps_stopCopy (closed_reg _ _ _ h_ _) _ _ (fun _ h => h) ⟨rfl⟩).out
theorem stopCopy_mem (s : State) (cause : Option Nat) (h_ : touchStopCopy none = false) : (State.stopCopy s
  cause).mem = s.mem :=
  (keeps_stopCopy (closed_mem _ _ h_) _ _ (fun _ h => h) ⟨rfl⟩).out

theorem mapChanged_reg (s : State) (q_ : Reg) (h_ : touchMapChanged (some q_) = false) (j_ : Nat) :
  (State.mapChanged s).reg q_ j_ = s.reg q_ j_ :=
  (keeps_mapChanged (closed_reg _ _ _ h_ _) _ (fun _ h => h) ⟨rfl⟩).out
theorem mapChanged_mem (s : State) (h_ : touchMapChanged none = false) : (State.mapChanged s).mem = s.mem :=
  (keeps_mapChanged (closed_mem _ _ h_) _ (fun _ h => h) ⟨rfl⟩).out

theorem domainReset_reg (s : State) (k outcome : Nat) (q_ : Reg) (h_ : touchDomainReset (some q_) = false) (j_ :
  Nat) : (State.domainReset s k outcome).reg q_ j_ = s.reg q_ j_ :=
  (keeps_domainReset (closed_reg _ _ _ h_ _) _ _ _ (fun _ h => h) ⟨rfl⟩).out
theorem domainReset_mem (s : State) (k outcome : Nat) (h_ : touchDomainReset none = false) : (State.domainReset s k
  outcome).mem = s.mem :=
  (keeps_domainReset (closed_mem _ _ h_) _ _ _ (fun _ h => h) ⟨rfl⟩).out

theorem recognised_reg (s : State) (width : Nat) (q_ : Reg) (h_ : touchRecognised (some q_) = false) (j_ : Nat) :
  (State.recognised s width).2.reg q_ j_ = s.reg q_ j_ :=
  (keeps_recognised (closed_reg _ _ _ h_ _) _ _ (fun _ h => h) ⟨rfl⟩).out
theorem recognised_mem (s : State) (width : Nat) (h_ : touchRecognised none = false) : (State.recognised s
  width).2.mem = s.mem :=
  (keeps_recognised (closed_mem _ _ h_) _ _ (fun _ h => h) ⟨rfl⟩).out

theorem startSwitch_reg (k v : Nat) (s : State) (q_ : Reg) (h_ : touchStartSwitch (some q_) = false) (j_ : Nat) :
  (startSwitch k v s).reg q_ j_ = s.reg q_ j_ :=
  (keeps_startSwitch (closed_reg _ _ _ h_ _) _ _ _ (fun _ h => h) ⟨rfl⟩).out
theorem startSwitch_mem (k v : Nat) (s : State) (h_ : touchStartSwitch none = false) : (startSwitch k v s).mem =
  s.mem :=
  (keeps_startSwitch (closed_mem _ _ h_) _ _ _ (fun _ h => h) ⟨rfl⟩).out

theorem setRate_reg (s : State) (k v : Nat) (q_ : Reg) (h_ : touchSetRate (some q_) = false) (j_ : Nat) :
  (State.setRate s k v).reg q_ j_ = s.reg q_ j_ :=
  (keeps_setRate (closed_reg _ _ _ h_ _) _ _ _ (fun _ h => h) ⟨rfl⟩).out
theorem setRate_mem (s : State) (k v : Nat) (h_ : touchSetRate none = false) : (State.setRate s k v).mem = s.mem :=
  (keeps_setRate (closed_mem _ _ h_) _ _ _ (fun _ h => h) ⟨rfl⟩).out

theorem countThrottle_reg (s : State) (q_ : Reg) (h_ : touchCountThrottle (some q_) = false) (j_ : Nat) :
  (State.countThrottle s).reg q_ j_ = s.reg q_ j_ :=
  (keeps_countThrottle (closed_reg _ _ _ h_ _) _ (fun _ h => h) ⟨rfl⟩).out
theorem countThrottle_mem (s : State) (h_ : touchCountThrottle none = false) : (State.countThrottle s).mem = s.mem
  :=
  (keeps_countThrottle (closed_mem _ _ h_) _ (fun _ h => h) ⟨rfl⟩).out

theorem stepDown_reg (s : State) (k floor : Nat) (q_ : Reg) (h_ : touchStepDown (some q_) = false) (j_ : Nat) :
  (State.stepDown s k floor).reg q_ j_ = s.reg q_ j_ :=
  (keeps_stepDown (closed_reg _ _ _ h_ _) _ _ _ (fun _ h => h) ⟨rfl⟩).out
theorem stepDown_mem (s : State) (k floor : Nat) (h_ : touchStepDown none = false) : (State.stepDown s k floor).mem
  = s.mem :=
  (keeps_stepDown (closed_mem _ _ h_) _ _ _ (fun _ h => h) ⟨rfl⟩).out

theorem openEpisode_reg (s : State) (cause : Nat) (q_ : Reg) (h_ : touchOpenEpisode (some q_) = false) (j_ : Nat) :
  (State.openEpisode s cause).reg q_ j_ = s.reg q_ j_ :=
  (keeps_openEpisode (closed_reg _ _ _ h_ _) _ _ (fun _ h => h) ⟨rfl⟩).out
theorem openEpisode_mem (s : State) (cause : Nat) (h_ : touchOpenEpisode none = false) : (State.openEpisode s
  cause).mem = s.mem :=
  (keeps_openEpisode (closed_mem _ _ h_) _ _ (fun _ h => h) ⟨rfl⟩).out

theorem requestLull_reg (s : State) (q_ : Reg) (h_ : touchRequestLull (some q_) = false) (j_ : Nat) :
  (State.requestLull s).reg q_ j_ = s.reg q_ j_ :=
  (keeps_requestLull (closed_reg _ _ _ h_ _) _ (fun _ h => h) ⟨rfl⟩).out
theorem requestLull_mem (s : State) (h_ : touchRequestLull none = false) : (State.requestLull s).mem = s.mem :=
  (keeps_requestLull (closed_mem _ _ h_) _ (fun _ h => h) ⟨rfl⟩).out

theorem holdClocks_reg (s : State) (cause : Nat) (q_ : Reg) (h_ : touchHoldClocks (some q_) = false) (j_ : Nat) :
  (State.holdClocks s cause).reg q_ j_ = s.reg q_ j_ :=
  (keeps_holdClocks (closed_reg _ _ _ h_ _) _ _ (fun _ h => h) ⟨rfl⟩).out
theorem holdClocks_mem (s : State) (cause : Nat) (h_ : touchHoldClocks none = false) : (State.holdClocks s
  cause).mem = s.mem :=
  (keeps_holdClocks (closed_mem _ _ h_) _ _ (fun _ h => h) ⟨rfl⟩).out

theorem throttlePower_reg (s : State) (cause : Nat) (q_ : Reg) (h_ : touchThrottlePower (some q_) = false) (j_ :
  Nat) : (State.throttlePower s cause).reg q_ j_ = s.reg q_ j_ :=
  (keeps_throttlePower (closed_reg _ _ _ h_ _) _ _ (fun _ h => h) ⟨rfl⟩).out
theorem throttlePower_mem (s : State) (cause : Nat) (h_ : touchThrottlePower none = false) : (State.throttlePower s
  cause).mem = s.mem :=
  (keeps_throttlePower (closed_mem _ _ h_) _ _ (fun _ h => h) ⟨rfl⟩).out

theorem throttleElement_reg (s : State) (e : Nat) (q_ : Reg) (h_ : touchThrottleElement (some q_) = false) (j_ :
  Nat) : (State.throttleElement s e).reg q_ j_ = s.reg q_ j_ :=
  (keeps_throttleElement (closed_reg _ _ _ h_ _) _ _ (fun _ h => h) ⟨rfl⟩).out
theorem throttleElement_mem (s : State) (e : Nat) (h_ : touchThrottleElement none = false) : (State.throttleElement
  s e).mem = s.mem :=
  (keeps_throttleElement (closed_mem _ _ h_) _ _ (fun _ h => h) ⟨rfl⟩).out

theorem excludeSensor_reg (s : State) (n : Nat) (q_ : Reg) (h_ : touchExcludeSensor (some q_) = false) (j_ : Nat) :
  (State.excludeSensor s n).reg q_ j_ = s.reg q_ j_ :=
  (keeps_excludeSensor (closed_reg _ _ _ h_ _) _ _ (fun _ h => h) ⟨rfl⟩).out
theorem excludeSensor_mem (s : State) (n : Nat) (h_ : touchExcludeSensor none = false) : (State.excludeSensor s
  n).mem = s.mem :=
  (keeps_excludeSensor (closed_mem _ _ h_) _ _ (fun _ h => h) ⟨rfl⟩).out

theorem takeReading_reg (s : State) (n : Nat) (r : Option Int) (q_ : Reg) (h_ : touchTakeReading (some q_) = false)
  (j_ : Nat) : (State.takeReading s n r).reg q_ j_ = s.reg q_ j_ :=
  (keeps_takeReading (closed_reg _ _ _ h_ _) _ _ _ (fun _ h => h) ⟨rfl⟩).out
theorem takeReading_mem (s : State) (n : Nat) (r : Option Int) (h_ : touchTakeReading none = false) :
  (State.takeReading s n r).mem = s.mem :=
  (keeps_takeReading (closed_mem _ _ h_) _ _ _ (fun _ h => h) ⟨rfl⟩).out

theorem floorDie_reg (s : State) (e : Nat) (q_ : Reg) (h_ : touchFloorDie (some q_) = false) (j_ : Nat) :
  (State.floorDie s e).reg q_ j_ = s.reg q_ j_ :=
  (keeps_floorDie (closed_reg _ _ _ h_ _) _ _ (fun _ h => h) ⟨rfl⟩).out
theorem floorDie_mem (s : State) (e : Nat) (h_ : touchFloorDie none = false) : (State.floorDie s e).mem = s.mem :=
  (keeps_floorDie (closed_mem _ _ h_) _ _ (fun _ h => h) ⟨rfl⟩).out

theorem judgeElement_reg (s : State) (e : Nat) (q_ : Reg) (h_ : touchJudgeElement (some q_) = false) (j_ : Nat) :
  (State.judgeElement s e).reg q_ j_ = s.reg q_ j_ :=
  (keeps_judgeElement (closed_reg _ _ _ h_ _) _ _ (fun _ h => h) ⟨rfl⟩).out
theorem judgeElement_mem (s : State) (e : Nat) (h_ : touchJudgeElement none = false) : (State.judgeElement s e).mem
  = s.mem :=
  (keeps_judgeElement (closed_mem _ _ h_) _ _ (fun _ h => h) ⟨rfl⟩).out

theorem serviceEffect_reg (v : Nat) (s : State) (q_ : Reg) (h_ : touchServiceEffect (some q_) = false) (j_ : Nat) :
  (serviceEffect v s).reg q_ j_ = s.reg q_ j_ :=
  (keeps_serviceEffect (closed_reg _ _ _ h_ _) _ _ (fun _ h => h) ⟨rfl⟩).out
theorem serviceEffect_mem (v : Nat) (s : State) (h_ : touchServiceEffect none = false) : (serviceEffect v s).mem =
  s.mem :=
  (keeps_serviceEffect (closed_mem _ _ h_) _ _ (fun _ h => h) ⟨rfl⟩).out

theorem locationEffect_reg (s : State) (q_ : Reg) (h_ : touchLocationEffect (some q_) = false) (j_ : Nat) :
  (locationEffect s).reg q_ j_ = s.reg q_ j_ :=
  (keeps_locationEffect (closed_reg _ _ _ h_ _) _ (fun _ h => h) ⟨rfl⟩).out
theorem locationEffect_mem (s : State) (h_ : touchLocationEffect none = false) : (locationEffect s).mem = s.mem :=
  (keeps_locationEffect (closed_mem _ _ h_) _ (fun _ h => h) ⟨rfl⟩).out

theorem saveContext_reg (s : State) (b : Nat) (x : Bay) (q_ : Reg) (h_ : touchSaveContext (some q_) = false) (j_ :
  Nat) : (State.saveContext s b x).reg q_ j_ = s.reg q_ j_ :=
  (keeps_saveContext (closed_reg _ _ _ h_ _) _ _ _ (fun _ h => h) ⟨rfl⟩).out
theorem saveContext_mem (s : State) (b : Nat) (x : Bay) (h_ : touchSaveContext none = false) : (State.saveContext s
  b x).mem = s.mem :=
  (keeps_saveContext (closed_mem _ _ h_) _ _ _ (fun _ h => h) ⟨rfl⟩).out

theorem refuseContext_reg (s : State) (b code : Nat) (q_ : Reg) (h_ : touchRefuseContext (some q_) = false) (j_ :
  Nat) : (State.refuseContext s b code).reg q_ j_ = s.reg q_ j_ :=
  (keeps_refuseContext (closed_reg _ _ _ h_ _) _ _ _ (fun _ h => h) ⟨rfl⟩).out
theorem refuseContext_mem (s : State) (b code : Nat) (h_ : touchRefuseContext none = false) : (State.refuseContext s
  b code).mem = s.mem :=
  (keeps_refuseContext (closed_mem _ _ h_) _ _ _ (fun _ h => h) ⟨rfl⟩).out

theorem parkBay_reg (s : State) (b : Nat) (q_ : Reg) (h_ : touchParkBay (some q_) = false) (j_ : Nat) :
  (State.parkBay s b).reg q_ j_ = s.reg q_ j_ :=
  (keeps_parkBay (closed_reg _ _ _ h_ _) _ _ (fun _ h => h) ⟨rfl⟩).out
theorem parkBay_mem (s : State) (b : Nat) (h_ : touchParkBay none = false) : (State.parkBay s b).mem = s.mem :=
  (keeps_parkBay (closed_mem _ _ h_) _ _ (fun _ h => h) ⟨rfl⟩).out

theorem unparkBay_reg (s : State) (b : Nat) (q_ : Reg) (h_ : touchUnparkBay (some q_) = false) (j_ : Nat) :
  (State.unparkBay s b).reg q_ j_ = s.reg q_ j_ :=
  (keeps_unparkBay (closed_reg _ _ _ h_ _) _ _ (fun _ h => h) ⟨rfl⟩).out
theorem unparkBay_mem (s : State) (b : Nat) (h_ : touchUnparkBay none = false) : (State.unparkBay s b).mem = s.mem
  :=
  (keeps_unparkBay (closed_mem _ _ h_) _ _ (fun _ h => h) ⟨rfl⟩).out

theorem switchContext_reg (s : State) (b : Nat) (q_ : Reg) (h_ : touchSwitchContext (some q_) = false) (j_ : Nat) :
  (State.switchContext s b).reg q_ j_ = s.reg q_ j_ :=
  (keeps_switchContext (closed_reg _ _ _ h_ _) _ _ (fun _ h => h) ⟨rfl⟩).out
theorem switchContext_mem (s : State) (b : Nat) (h_ : touchSwitchContext none = false) : (State.switchContext s
  b).mem = s.mem :=
  (keeps_switchContext (closed_mem _ _ h_) _ _ (fun _ h => h) ⟨rfl⟩).out

theorem finish_reg (s : State) (b : Nat) (f : Flight) (q_ : Reg) (h_ : touchFinish (some q_) = false) (j_ : Nat) :
  (State.finish s b f).reg q_ j_ = s.reg q_ j_ :=
  (keeps_finish (closed_reg _ _ _ h_ _) _ _ _ (fun _ h => h) ⟨rfl⟩).out
theorem finish_mem (s : State) (b : Nat) (f : Flight) (h_ : touchFinish none = false) : (State.finish s b f).mem =
  s.mem :=
  (keeps_finish (closed_mem _ _ h_) _ _ _ (fun _ h => h) ⟨rfl⟩).out

theorem freeBytes_reg (s : State) (rs : List (Nat × Nat)) (q_ : Reg) (h_ : touchFreeBytes (some q_) = false) (j_ :
  Nat) : (State.freeBytes s rs).reg q_ j_ = s.reg q_ j_ :=
  (keeps_freeBytes (closed_reg _ _ _ h_ _) _ _ (fun _ h => h) ⟨rfl⟩).out
theorem freeBytes_mem (s : State) (rs : List (Nat × Nat)) (h_ : touchFreeBytes none = false) : (State.freeBytes s
  rs).mem = s.mem :=
  (keeps_freeBytes (closed_mem _ _ h_) _ _ (fun _ h => h) ⟨rfl⟩).out

theorem settleRun_reg (s : State) (b : Nat) (q_ : Reg) (h_ : touchSettleRun (some q_) = false) (j_ : Nat) :
  (State.settleRun s b).reg q_ j_ = s.reg q_ j_ :=
  (keeps_settleRun (closed_reg _ _ _ h_ _) _ _ (fun _ h => h) ⟨rfl⟩).out
theorem settleRun_mem (s : State) (b : Nat) (h_ : touchSettleRun none = false) : (State.settleRun s b).mem = s.mem
  :=
  (keeps_settleRun (closed_mem _ _ h_) _ _ (fun _ h => h) ⟨rfl⟩).out

@[simp] theorem setColl_reg (s : State) (c : Coll) (q_ : Reg) (j_ : Nat) : (State.setColl s c).reg q_ j_ = s.reg q_
  j_ :=
  (keeps_setColl (closed_reg (fun _ => false) _ _ rfl _) _ _ ⟨rfl⟩).out
@[simp] theorem setColl_mem (s : State) (c : Coll) : (State.setColl s c).mem = s.mem :=
  (keeps_setColl (closed_mem (fun _ => false) _ rfl) _ _ ⟨rfl⟩).out

@[simp] theorem tellRun_reg (s : State) (c : Coll) (run rank : Nat) (m : CollMsg) (q_ : Reg) (j_ : Nat) :
  (State.tellRun s c run rank m).reg q_ j_ = s.reg q_ j_ :=
  (keeps_tellRun (closed_reg (fun _ => false) _ _ rfl _) _ _ _ _ _ ⟨rfl⟩).out
@[simp] theorem tellRun_mem (s : State) (c : Coll) (run rank : Nat) (m : CollMsg) : (State.tellRun s c run rank
  m).mem = s.mem :=
  (keeps_tellRun (closed_mem (fun _ => false) _ rfl) _ _ _ _ _ ⟨rfl⟩).out

@[simp] theorem tellColl_reg (s : State) (c : Coll) (rank : Nat) (m : CollMsg) (q_ : Reg) (j_ : Nat) :
  (State.tellColl s c rank m).reg q_ j_ = s.reg q_ j_ :=
  (keeps_tellColl (closed_reg (fun _ => false) _ _ rfl _) _ _ _ _ ⟨rfl⟩).out
@[simp] theorem tellColl_mem (s : State) (c : Coll) (rank : Nat) (m : CollMsg) : (State.tellColl s c rank m).mem =
  s.mem :=
  (keeps_tellColl (closed_mem (fun _ => false) _ rfl) _ _ _ _ ⟨rfl⟩).out

theorem tellColls_reg (s : State) (c : Coll) (ranks : List Nat) (m : CollMsg) (q_ : Reg) (h_ : touchTellColls (some
  q_) = false) (j_ : Nat) : (State.tellColls s c ranks m).reg q_ j_ = s.reg q_ j_ :=
  (keeps_tellColls (closed_reg _ _ _ h_ _) _ _ _ _ (fun _ h => h) ⟨rfl⟩).out
theorem tellColls_mem (s : State) (c : Coll) (ranks : List Nat) (m : CollMsg) (h_ : touchTellColls none = false) :
  (State.tellColls s c ranks m).mem = s.mem :=
  (keeps_tellColls (closed_mem _ _ h_) _ _ _ _ (fun _ h => h) ⟨rfl⟩).out

@[simp] theorem sweepColl_reg (s : State) (i : CollId) (q_ : Reg) (j_ : Nat) : (State.sweepColl s i).reg q_ j_ =
  s.reg q_ j_ :=
  (keeps_sweepColl (closed_reg (fun _ => false) _ _ rfl _) _ _ ⟨rfl⟩).out
@[simp] theorem sweepColl_mem (s : State) (i : CollId) : (State.sweepColl s i).mem = s.mem :=
  (keeps_sweepColl (closed_mem (fun _ => false) _ rfl) _ _ ⟨rfl⟩).out

@[simp] theorem closeColl_reg (s : State) (i : CollId) (released : Bool) (q_ : Reg) (j_ : Nat) : (State.closeColl s
  i released).reg q_ j_ = s.reg q_ j_ :=
  (keeps_closeColl (closed_reg (fun _ => false) _ _ rfl _) _ _ _ ⟨rfl⟩).out
@[simp] theorem closeColl_mem (s : State) (i : CollId) (released : Bool) : (State.closeColl s i released).mem =
  s.mem :=
  (keeps_closeColl (closed_mem (fun _ => false) _ rfl) _ _ _ ⟨rfl⟩).out

@[simp] theorem retireColl_reg (s : State) (c : Coll) (q_ : Reg) (j_ : Nat) : (State.retireColl s c).reg q_ j_ =
  s.reg q_ j_ :=
  (keeps_retireColl (closed_reg (fun _ => false) _ _ rfl _) _ _ ⟨rfl⟩).out
@[simp] theorem retireColl_mem (s : State) (c : Coll) : (State.retireColl s c).mem = s.mem :=
  (keeps_retireColl (closed_mem (fun _ => false) _ rfl) _ _ ⟨rfl⟩).out

theorem endCollAt_reg (s : State) (b : Nat) (f : Flight) (queueFull : Bool) (q_ : Reg) (h_ : touchEndCollAt (some
  q_) = false) (j_ : Nat) : (State.endCollAt s b f queueFull).reg q_ j_ = s.reg q_ j_ :=
  (keeps_endCollAt (closed_reg _ _ _ h_ _) _ _ _ _ (fun _ h => h) ⟨rfl⟩).out
theorem endCollAt_mem (s : State) (b : Nat) (f : Flight) (queueFull : Bool) (h_ : touchEndCollAt none = false) :
  (State.endCollAt s b f queueFull).mem = s.mem :=
  (keeps_endCollAt (closed_mem _ _ h_) _ _ _ _ (fun _ h => h) ⟨rfl⟩).out

theorem failCollAt_reg (s : State) (b n result detail : Nat) (f : Flight) (queueFull : Bool) (q_ : Reg) (h_ :
  touchFailCollAt (some q_) = false) (j_ : Nat) : (State.failCollAt s b n result detail f queueFull).reg q_ j_ =
  s.reg q_ j_ :=
  (keeps_failCollAt (closed_reg _ _ _ h_ _) _ _ _ _ _ _ _ (fun _ h => h) ⟨rfl⟩).out
theorem failCollAt_mem (s : State) (b n result detail : Nat) (f : Flight) (queueFull : Bool) (h_ : touchFailCollAt
  none = false) : (State.failCollAt s b n result detail f queueFull).mem = s.mem :=
  (keeps_failCollAt (closed_mem _ _ h_) _ _ _ _ _ _ _ (fun _ h => h) ⟨rfl⟩).out

theorem failJoined_reg (s : State) (c : Coll) (queueFull : Bool) (q_ : Reg) (h_ : touchFailJoined (some q_) = false)
  (j_ : Nat) : (State.failJoined s c queueFull).reg q_ j_ = s.reg q_ j_ :=
  (keeps_failJoined (closed_reg _ _ _ h_ _) _ _ _ (fun _ h => h) ⟨rfl⟩).out
theorem failJoined_mem (s : State) (c : Coll) (queueFull : Bool) (h_ : touchFailJoined none = false) :
  (State.failJoined s c queueFull).mem = s.mem :=
  (keeps_failJoined (closed_mem _ _ h_) _ _ _ (fun _ h => h) ⟨rfl⟩).out

theorem failColl_reg (s : State) (c : Coll) (queueFull : Bool) (q_ : Reg) (h_ : touchFailColl (some q_) = false) (j_
  : Nat) : (State.failColl s c queueFull).reg q_ j_ = s.reg q_ j_ :=
  (keeps_failColl (closed_reg _ _ _ h_ _) _ _ _ (fun _ h => h) ⟨rfl⟩).out
theorem failColl_mem (s : State) (c : Coll) (queueFull : Bool) (h_ : touchFailColl none = false) : (State.failColl s
  c queueFull).mem = s.mem :=
  (keeps_failColl (closed_mem _ _ h_) _ _ _ (fun _ h => h) ⟨rfl⟩).out

theorem noteAbort_reg (s : State) (c : Coll) (q_ : Reg) (h_ : touchNoteAbort (some q_) = false) (j_ : Nat) :
  (State.noteAbort s c).reg q_ j_ = s.reg q_ j_ :=
  (keeps_noteAbort (closed_reg _ _ _ h_ _) _ _ (fun _ h => h) ⟨rfl⟩).out
theorem noteAbort_mem (s : State) (c : Coll) (h_ : touchNoteAbort none = false) : (State.noteAbort s c).mem = s.mem
  :=
  (keeps_noteAbort (closed_mem _ _ h_) _ _ (fun _ h => h) ⟨rfl⟩).out

theorem deliverColl_reg (s : State) (c : Coll) (q_ : Reg) (h_ : touchDeliverColl (some q_) = false) (j_ : Nat) :
  (State.deliverColl s c).reg q_ j_ = s.reg q_ j_ :=
  (keeps_deliverColl (closed_reg _ _ _ h_ _) _ _ (fun _ h => h) ⟨rfl⟩).out
theorem deliverColl_mem (s : State) (c : Coll) (h_ : touchDeliverColl none = false) : (State.deliverColl s c).mem =
  s.mem :=
  (keeps_deliverColl (closed_mem _ _ h_) _ _ (fun _ h => h) ⟨rfl⟩).out

theorem commitColl_reg (s : State) (c : Coll) (queueFull : Bool) (q_ : Reg) (h_ : touchCommitColl (some q_) = false)
  (j_ : Nat) : (State.commitColl s c queueFull).reg q_ j_ = s.reg q_ j_ :=
  (keeps_commitColl (closed_reg _ _ _ h_ _) _ _ _ (fun _ h => h) ⟨rfl⟩).out
theorem commitColl_mem (s : State) (c : Coll) (queueFull : Bool) (h_ : touchCommitColl none = false) :
  (State.commitColl s c queueFull).mem = s.mem :=
  (keeps_commitColl (closed_mem _ _ h_) _ _ _ (fun _ h => h) ⟨rfl⟩).out

theorem settleColl_reg (s : State) (i : CollId) (queueFull : Bool) (q_ : Reg) (h_ : touchSettleColl (some q_) =
  false) (j_ : Nat) : (State.settleColl s i queueFull).reg q_ j_ = s.reg q_ j_ :=
  (keeps_settleColl (closed_reg _ _ _ h_ _) _ _ _ (fun _ h => h) ⟨rfl⟩).out
theorem settleColl_mem (s : State) (i : CollId) (queueFull : Bool) (h_ : touchSettleColl none = false) :
  (State.settleColl s i queueFull).mem = s.mem :=
  (keeps_settleColl (closed_mem _ _ h_) _ _ _ (fun _ h => h) ⟨rfl⟩).out

theorem holdChunk_reg (s : State) (src : Nat) (c : Coll) (m : CollMsg) (q_ : Reg) (h_ : touchHoldChunk (some q_) =
  false) (j_ : Nat) : (State.holdChunk s src c m).reg q_ j_ = s.reg q_ j_ :=
  (keeps_holdChunk (closed_reg _ _ _ h_ _) _ _ _ _ (fun _ h => h) ⟨rfl⟩).out
theorem holdChunk_mem (s : State) (src : Nat) (c : Coll) (m : CollMsg) (h_ : touchHoldChunk none = false) :
  (State.holdChunk s src c m).mem = s.mem :=
  (keeps_holdChunk (closed_mem _ _ h_) _ _ _ _ (fun _ h => h) ⟨rfl⟩).out

theorem acceptChunk_reg (s : State) (c : Coll) (k : Nat) (vals : List (Nat × Bool)) (q_ : Reg) (h_ :
  touchAcceptChunk (some q_) = false) (j_ : Nat) : (State.acceptChunk s c k vals).reg q_ j_ = s.reg q_ j_ :=
  (keeps_acceptChunk (closed_reg _ _ _ h_ _) _ _ _ _ (fun _ h => h) ⟨rfl⟩).out
theorem acceptChunk_mem (s : State) (c : Coll) (k : Nat) (vals : List (Nat × Bool)) (h_ : touchAcceptChunk none =
  false) : (State.acceptChunk s c k vals).mem = s.mem :=
  (keeps_acceptChunk (closed_mem _ _ h_) _ _ _ _ (fun _ h => h) ⟨rfl⟩).out

theorem sendToken_reg (s : State) (i : CollId) (t : Nat) (q_ : Reg) (h_ : touchSendToken (some q_) = false) (j_ :
  Nat) : (State.sendToken s i t).reg q_ j_ = s.reg q_ j_ :=
  (keeps_sendToken (closed_reg _ _ _ h_ _) _ _ _ (fun _ h => h) ⟨rfl⟩).out
theorem sendToken_mem (s : State) (i : CollId) (t : Nat) (h_ : touchSendToken none = false) : (State.sendToken s i
  t).mem = s.mem :=
  (keeps_sendToken (closed_mem _ _ h_) _ _ _ (fun _ h => h) ⟨rfl⟩).out

theorem tryChunk_reg (s : State) (i : CollId) (k : Nat) (q_ : Reg) (h_ : touchTryChunk (some q_) = false) (j_ : Nat)
  : (State.tryChunk s i k).reg q_ j_ = s.reg q_ j_ :=
  (keeps_tryChunk (closed_reg _ _ _ h_ _) _ _ _ (fun _ h => h) ⟨rfl⟩).out
theorem tryChunk_mem (s : State) (i : CollId) (k : Nat) (h_ : touchTryChunk none = false) : (State.tryChunk s i
  k).mem = s.mem :=
  (keeps_tryChunk (closed_mem _ _ h_) _ _ _ (fun _ h => h) ⟨rfl⟩).out

theorem advanceColl_reg (s : State) (i : CollId) (queueFull : Bool) (q_ : Reg) (h_ : touchAdvanceColl (some q_) =
  false) (j_ : Nat) : (State.advanceColl s i queueFull).reg q_ j_ = s.reg q_ j_ :=
  (keeps_advanceColl (closed_reg _ _ _ h_ _) _ _ _ (fun _ h => h) ⟨rfl⟩).out
theorem advanceColl_mem (s : State) (i : CollId) (queueFull : Bool) (h_ : touchAdvanceColl none = false) :
  (State.advanceColl s i queueFull).mem = s.mem :=
  (keeps_advanceColl (closed_mem _ _ h_) _ _ _ (fun _ h => h) ⟨rfl⟩).out

theorem abortColl_reg (s : State) (c : Coll) (final queueFull : Bool) (q_ : Reg) (h_ : touchAbortColl (some q_) =
  false) (j_ : Nat) : (State.abortColl s c final queueFull).reg q_ j_ = s.reg q_ j_ :=
  (keeps_abortColl (closed_reg _ _ _ h_ _) _ _ _ _ (fun _ h => h) ⟨rfl⟩).out
theorem abortColl_mem (s : State) (c : Coll) (final queueFull : Bool) (h_ : touchAbortColl none = false) :
  (State.abortColl s c final queueFull).mem = s.mem :=
  (keeps_abortColl (closed_mem _ _ h_) _ _ _ _ (fun _ h => h) ⟨rfl⟩).out

theorem rootAborts_reg (s : State) (c : Coll) (signature queueFull : Bool) (q_ : Reg) (h_ : touchRootAborts (some
  q_) = false) (j_ : Nat) : (State.rootAborts s c signature queueFull).reg q_ j_ = s.reg q_ j_ :=
  (keeps_rootAborts (closed_reg _ _ _ h_ _) _ _ _ _ (fun _ h => h) ⟨rfl⟩).out
theorem rootAborts_mem (s : State) (c : Coll) (signature queueFull : Bool) (h_ : touchRootAborts none = false) :
  (State.rootAborts s c signature queueFull).mem = s.mem :=
  (keeps_rootAborts (closed_mem _ _ h_) _ _ _ _ (fun _ h => h) ⟨rfl⟩).out

theorem reportColl_reg (s : State) (c : Coll) (run : Nat) (signature queueFull : Bool) (q_ : Reg) (h_ :
  touchReportColl (some q_) = false) (j_ : Nat) : (State.reportColl s c run signature queueFull).reg q_ j_ = s.reg
  q_ j_ :=
  (keeps_reportColl (closed_reg _ _ _ h_ _) _ _ _ _ _ (fun _ h => h) ⟨rfl⟩).out
theorem reportColl_mem (s : State) (c : Coll) (run : Nat) (signature queueFull : Bool) (h_ : touchReportColl none =
  false) : (State.reportColl s c run signature queueFull).mem = s.mem :=
  (keeps_reportColl (closed_mem _ _ h_) _ _ _ _ _ (fun _ h => h) ⟨rfl⟩).out

theorem joinColl_reg (s : State) (b kind : Nat) (q_ : Reg) (h_ : touchJoinColl (some q_) = false) (j_ : Nat) :
  (State.joinColl s b kind).reg q_ j_ = s.reg q_ j_ :=
  (keeps_joinColl (closed_reg _ _ _ h_ _) _ _ _ (fun _ h => h) ⟨rfl⟩).out
theorem joinColl_mem (s : State) (b kind : Nat) (h_ : touchJoinColl none = false) : (State.joinColl s b kind).mem =
  s.mem :=
  (keeps_joinColl (closed_mem _ _ h_) _ _ _ (fun _ h => h) ⟨rfl⟩).out

theorem joinBarrier_reg (s : State) (q_ : Reg) (h_ : touchJoinBarrier (some q_) = false) (j_ : Nat) :
  (State.joinBarrier s).reg q_ j_ = s.reg q_ j_ :=
  (keeps_joinBarrier (closed_reg _ _ _ h_ _) _ (fun _ h => h) ⟨rfl⟩).out
theorem joinBarrier_mem (s : State) (h_ : touchJoinBarrier none = false) : (State.joinBarrier s).mem = s.mem :=
  (keeps_joinBarrier (closed_mem _ _ h_) _ (fun _ h => h) ⟨rfl⟩).out

theorem relayColl_reg (s : State) (q : MailPort) (p : Packet) (q_ : Reg) (h_ : touchRelayColl (some q_) = false) (j_
  : Nat) : (State.relayColl s q p).reg q_ j_ = s.reg q_ j_ :=
  (keeps_relayColl (closed_reg _ _ _ h_ _) _ _ _ (fun _ h => h) ⟨rfl⟩).out
theorem relayColl_mem (s : State) (q : MailPort) (p : Packet) (h_ : touchRelayColl none = false) : (State.relayColl
  s q p).mem = s.mem :=
  (keeps_relayColl (closed_mem _ _ h_) _ _ _ (fun _ h => h) ⟨rfl⟩).out

theorem lateColl_reg (s : State) (i : CollId) (q_ : Reg) (h_ : touchLateColl (some q_) = false) (j_ : Nat) :
  (State.lateColl s i).reg q_ j_ = s.reg q_ j_ :=
  (keeps_lateColl (closed_reg _ _ _ h_ _) _ _ (fun _ h => h) ⟨rfl⟩).out
theorem lateColl_mem (s : State) (i : CollId) (h_ : touchLateColl none = false) : (State.lateColl s i).mem = s.mem
  :=
  (keeps_lateColl (closed_mem _ _ h_) _ _ (fun _ h => h) ⟨rfl⟩).out

theorem partArrives_reg (s : State) (c : Coll) (child run : Nat) (sig : CollSig) (k : Nat) (vals : List (Option
  Nat)) (counts : List (Nat × Nat)) (status : Nat) (d : Dword) (queueFull : Bool) (q_ : Reg) (h_ : touchPartArrives
  (some q_) = false) (j_ : Nat) : (State.partArrives s c child run sig k vals counts status d queueFull).reg q_ j_ =
  s.reg q_ j_ :=
  (keeps_partArrives (closed_reg _ _ _ h_ _) _ _ _ _ _ _ _ _ _ _ _ (fun _ h => h) ⟨rfl⟩).out
theorem partArrives_mem (s : State) (c : Coll) (child run : Nat) (sig : CollSig) (k : Nat) (vals : List (Option
  Nat)) (counts : List (Nat × Nat)) (status : Nat) (d : Dword) (queueFull : Bool) (h_ : touchPartArrives none =
  false) : (State.partArrives s c child run sig k vals counts status d queueFull).mem = s.mem :=
  (keeps_partArrives (closed_mem _ _ h_) _ _ _ _ _ _ _ _ _ _ _ (fun _ h => h) ⟨rfl⟩).out

theorem chunkFails_reg (s : State) (c : Coll) (parent k : Nat) (queueFull : Bool) (q_ : Reg) (h_ : touchChunkFails
  (some q_) = false) (j_ : Nat) : (State.chunkFails s c parent k queueFull).reg q_ j_ = s.reg q_ j_ :=
  (keeps_chunkFails (closed_reg _ _ _ h_ _) _ _ _ _ _ (fun _ h => h) ⟨rfl⟩).out
theorem chunkFails_mem (s : State) (c : Coll) (parent k : Nat) (queueFull : Bool) (h_ : touchChunkFails none =
  false) : (State.chunkFails s c parent k queueFull).mem = s.mem :=
  (keeps_chunkFails (closed_mem _ _ h_) _ _ _ _ _ (fun _ h => h) ⟨rfl⟩).out

theorem resultArrives_reg (s : State) (c : Coll) (parent run k : Nat) (vals : List (Nat × Bool)) (d : Dword)
  (queueFull : Bool) (q_ : Reg) (h_ : touchResultArrives (some q_) = false) (j_ : Nat) : (State.resultArrives s c
  parent run k vals d queueFull).reg q_ j_ = s.reg q_ j_ :=
  (keeps_resultArrives (closed_reg _ _ _ h_ _) _ _ _ _ _ _ _ _ (fun _ h => h) ⟨rfl⟩).out
theorem resultArrives_mem (s : State) (c : Coll) (parent run k : Nat) (vals : List (Nat × Bool)) (d : Dword)
  (queueFull : Bool) (h_ : touchResultArrives none = false) : (State.resultArrives s c parent run k vals d
  queueFull).mem = s.mem :=
  (keeps_resultArrives (closed_mem _ _ h_) _ _ _ _ _ _ _ _ (fun _ h => h) ⟨rfl⟩).out

theorem chunkArrives_reg (s : State) (src : Nat) (i : CollId) (run : Nat) (sig : CollSig) (m : CollMsg) (queueFull :
  Bool) (q_ : Reg) (h_ : touchChunkArrives (some q_) = false) (j_ : Nat) : (State.chunkArrives s src i run sig m
  queueFull).reg q_ j_ = s.reg q_ j_ :=
  (keeps_chunkArrives (closed_reg _ _ _ h_ _) _ _ _ _ _ _ _ (fun _ h => h) ⟨rfl⟩).out
theorem chunkArrives_mem (s : State) (src : Nat) (i : CollId) (run : Nat) (sig : CollSig) (m : CollMsg) (queueFull :
  Bool) (h_ : touchChunkArrives none = false) : (State.chunkArrives s src i run sig m queueFull).mem = s.mem :=
  (keeps_chunkArrives (closed_mem _ _ h_) _ _ _ _ _ _ _ (fun _ h => h) ⟨rfl⟩).out

theorem retryHeld_reg (s : State) (queueFull : Bool) (n : Nat) (q_ : Reg) (h_ : touchRetryHeld (some q_) = false)
  (j_ : Nat) : (State.retryHeld s queueFull n).reg q_ j_ = s.reg q_ j_ :=
  (keeps_retryHeld (closed_reg _ _ _ h_ _) _ _ _ (fun _ h => h) ⟨rfl⟩).out
theorem retryHeld_mem (s : State) (queueFull : Bool) (n : Nat) (h_ : touchRetryHeld none = false) : (State.retryHeld
  s queueFull n).mem = s.mem :=
  (keeps_retryHeld (closed_mem _ _ h_) _ _ _ (fun _ h => h) ⟨rfl⟩).out

theorem fillWindow_reg (s : State) (b addr : Nat) (q_ : Reg) (h_ : touchFillWindow (some q_) = false) (j_ : Nat) :
  (State.fillWindow s b addr).reg q_ j_ = s.reg q_ j_ :=
  (keeps_fillWindow (closed_reg _ _ _ h_ _) _ _ _ (fun _ h => h) ⟨rfl⟩).out
theorem fillWindow_mem (s : State) (b addr : Nat) (h_ : touchFillWindow none = false) : (State.fillWindow s b
  addr).mem = s.mem :=
  (keeps_fillWindow (closed_mem _ _ h_) _ _ _ (fun _ h => h) ⟨rfl⟩).out

theorem fillDesc_reg (s : State) (b : Nat) (addr : Option Nat) (q_ : Reg) (h_ : touchFillDesc (some q_) = false) (j_
  : Nat) : (State.fillDesc s b addr).reg q_ j_ = s.reg q_ j_ :=
  (keeps_fillDesc (closed_reg _ _ _ h_ _) _ _ _ (fun _ h => h) ⟨rfl⟩).out
theorem fillDesc_mem (s : State) (b : Nat) (addr : Option Nat) (h_ : touchFillDesc none = false) : (State.fillDesc s
  b addr).mem = s.mem :=
  (keeps_fillDesc (closed_mem _ _ h_) _ _ _ (fun _ h => h) ⟨rfl⟩).out

theorem noteHold_reg (s : State) (b : Nat) (x : Bay) (f : Flight) (q_ : Reg) (h_ : touchNoteHold (some q_) = false)
  (j_ : Nat) : (State.noteHold s b x f).reg q_ j_ = s.reg q_ j_ :=
  (keeps_noteHold (closed_reg _ _ _ h_ _) _ _ _ _ (fun _ h => h) ⟨rfl⟩).out
theorem noteHold_mem (s : State) (b : Nat) (x : Bay) (f : Flight) (h_ : touchNoteHold none = false) :
  (State.noteHold s b x f).mem = s.mem :=
  (keeps_noteHold (closed_mem _ _ h_) _ _ _ _ (fun _ h => h) ⟨rfl⟩).out

theorem noteHoldOf_reg (s : State) (b : Nat) (q_ : Reg) (h_ : touchNoteHoldOf (some q_) = false) (j_ : Nat) :
  (State.noteHoldOf s b).reg q_ j_ = s.reg q_ j_ :=
  (keeps_noteHoldOf (closed_reg _ _ _ h_ _) _ _ (fun _ h => h) ⟨rfl⟩).out
theorem noteHoldOf_mem (s : State) (b : Nat) (h_ : touchNoteHoldOf none = false) : (State.noteHoldOf s b).mem =
  s.mem :=
  (keeps_noteHoldOf (closed_mem _ _ h_) _ _ (fun _ h => h) ⟨rfl⟩).out

theorem endUnread_reg (s : State) (b : Nat) (f : Flight) (bad : List (Nat × Nat)) (queueFull : Bool) (q_ : Reg) (h_
  : touchEndUnread (some q_) = false) (j_ : Nat) : (State.endUnread s b f bad queueFull).reg q_ j_ = s.reg q_ j_ :=
  (keeps_endUnread (closed_reg _ _ _ h_ _) _ _ _ _ _ (fun _ h => h) ⟨rfl⟩).out
theorem endUnread_mem (s : State) (b : Nat) (f : Flight) (bad : List (Nat × Nat)) (queueFull : Bool) (h_ :
  touchEndUnread none = false) : (State.endUnread s b f bad queueFull).mem = s.mem :=
  (keeps_endUnread (closed_mem _ _ h_) _ _ _ _ _ (fun _ h => h) ⟨rfl⟩).out

theorem launch_reg (s : State) (b : Nat) (x : Bay) (f : Flight) (p : Prep) (areas : List Nat) (limit : Nat) (q_ :
  Reg) (h_ : touchLaunch (some q_) = false) (j_ : Nat) : (State.launch s b x f p areas limit).reg q_ j_ = s.reg q_
  j_ :=
  (keeps_launch (closed_reg _ _ _ h_ _) _ _ _ _ _ _ _ (fun _ h => h) ⟨rfl⟩).out
theorem launch_mem (s : State) (b : Nat) (x : Bay) (f : Flight) (p : Prep) (areas : List Nat) (limit : Nat) (h_ :
  touchLaunch none = false) : (State.launch s b x f p areas limit).mem = s.mem :=
  (keeps_launch (closed_mem _ _ h_) _ _ _ _ _ _ _ (fun _ h => h) ⟨rfl⟩).out

theorem startRead_reg (s : State) (b : Nat) (f : Flight) (queueFull : Bool) (q_ : Reg) (h_ : touchStartRead (some
  q_) = false) (j_ : Nat) : (State.startRead s b f queueFull).reg q_ j_ = s.reg q_ j_ :=
  (keeps_startRead (closed_reg _ _ _ h_ _) _ _ _ _ (fun _ h => h) ⟨rfl⟩).out
theorem startRead_mem (s : State) (b : Nat) (f : Flight) (queueFull : Bool) (h_ : touchStartRead none = false) :
  (State.startRead s b f queueFull).mem = s.mem :=
  (keeps_startRead (closed_mem _ _ h_) _ _ _ _ (fun _ h => h) ⟨rfl⟩).out

theorem preload_reg (s : State) (b : Nat) (f : Flight) (q_ : Reg) (h_ : touchPreload (some q_) = false) (j_ : Nat) :
  (State.preload s b f).reg q_ j_ = s.reg q_ j_ :=
  (keeps_preload (closed_reg _ _ _ h_ _) _ _ _ (fun _ h => h) ⟨rfl⟩).out
theorem preload_mem (s : State) (b : Nat) (f : Flight) (h_ : touchPreload none = false) : (State.preload s b f).mem
  = s.mem :=
  (keeps_preload (closed_mem _ _ h_) _ _ _ (fun _ h => h) ⟨rfl⟩).out

theorem fillDescs_reg (s : State) (b : Nat) (f : Flight) (q_ : Reg) (h_ : touchFillDescs (some q_) = false) (j_ :
  Nat) : (State.fillDescs s b f).reg q_ j_ = s.reg q_ j_ :=
  (keeps_fillDescs (closed_reg _ _ _ h_ _) _ _ _ (fun _ h => h) ⟨rfl⟩).out
theorem fillDescs_mem (s : State) (b : Nat) (f : Flight) (h_ : touchFillDescs none = false) : (State.fillDescs s b
  f).mem = s.mem :=
  (keeps_fillDescs (closed_mem _ _ h_) _ _ _ (fun _ h => h) ⟨rfl⟩).out

theorem startEntry_reg (s : State) (b : Nat) (f : Flight) (queueFull : Bool) (q_ : Reg) (h_ : touchStartEntry (some
  q_) = false) (j_ : Nat) : (State.startEntry s b f queueFull).reg q_ j_ = s.reg q_ j_ :=
  (keeps_startEntry (closed_reg _ _ _ h_ _) _ _ _ _ (fun _ h => h) ⟨rfl⟩).out
theorem startEntry_mem (s : State) (b : Nat) (f : Flight) (queueFull : Bool) (h_ : touchStartEntry none = false) :
  (State.startEntry s b f queueFull).mem = s.mem :=
  (keeps_startEntry (closed_mem _ _ h_) _ _ _ _ (fun _ h => h) ⟨rfl⟩).out

theorem checkRound_reg (s : State) (step : Nat) (q_ : Reg) (h_ : touchCheckRound (some q_) = false) (j_ : Nat) :
  (State.checkRound s step).reg q_ j_ = s.reg q_ j_ :=
  (keeps_checkRound (closed_reg _ _ _ h_ _) _ _ (fun _ h => h) ⟨rfl⟩).out
theorem checkRound_mem (s : State) (step : Nat) (h_ : touchCheckRound none = false) : (State.checkRound s step).mem
  = s.mem :=
  (keeps_checkRound (closed_mem _ _ h_) _ _ (fun _ h => h) ⟨rfl⟩).out

theorem endTable_reg (s : State) (b : Nat) (f : Flight) (q_ : Reg) (h_ : touchEndTable (some q_) = false) (j_ : Nat)
  : (State.endTable s b f).reg q_ j_ = s.reg q_ j_ :=
  (keeps_endTable (closed_reg _ _ _ h_ _) _ _ _ (fun _ h => h) ⟨rfl⟩).out
theorem endTable_mem (s : State) (b : Nat) (f : Flight) (h_ : touchEndTable none = false) : (State.endTable s b
  f).mem = s.mem :=
  (keeps_endTable (closed_mem _ _ h_) _ _ _ (fun _ h => h) ⟨rfl⟩).out

theorem noteVector_reg (s : State) (f : Flight) (q_ : Reg) (h_ : touchNoteVector (some q_) = false) (j_ : Nat) :
  (State.noteVector s f).reg q_ j_ = s.reg q_ j_ :=
  (keeps_noteVector (closed_reg _ _ _ h_ _) _ _ (fun _ h => h) ⟨rfl⟩).out
theorem noteVector_mem (s : State) (f : Flight) (h_ : touchNoteVector none = false) : (State.noteVector s f).mem =
  s.mem :=
  (keeps_noteVector (closed_mem _ _ h_) _ _ (fun _ h => h) ⟨rfl⟩).out

theorem leaveIfWaiting_reg (s : State) (b : Nat) (q_ : Reg) (h_ : touchLeaveIfWaiting (some q_) = false) (j_ : Nat)
  : (State.leaveIfWaiting s b).reg q_ j_ = s.reg q_ j_ :=
  (keeps_leaveIfWaiting (closed_reg _ _ _ h_ _) _ _ (fun _ h => h) ⟨rfl⟩).out
theorem leaveIfWaiting_mem (s : State) (b : Nat) (h_ : touchLeaveIfWaiting none = false) : (State.leaveIfWaiting s
  b).mem = s.mem :=
  (keeps_leaveIfWaiting (closed_mem _ _ h_) _ _ (fun _ h => h) ⟨rfl⟩).out

theorem completeEntry_reg (s : State) (b : Nat) (f : Flight) (queueFull : Bool) (q_ : Reg) (h_ : touchCompleteEntry
  (some q_) = false) (j_ : Nat) : (State.completeEntry s b f queueFull).reg q_ j_ = s.reg q_ j_ :=
  (keeps_completeEntry (closed_reg _ _ _ h_ _) _ _ _ _ (fun _ h => h) ⟨rfl⟩).out
theorem completeEntry_mem (s : State) (b : Nat) (f : Flight) (queueFull : Bool) (h_ : touchCompleteEntry none =
  false) : (State.completeEntry s b f queueFull).mem = s.mem :=
  (keeps_completeEntry (closed_mem _ _ h_) _ _ _ _ (fun _ h => h) ⟨rfl⟩).out

theorem resolveAt_reg (s : State) (b : Nat) (f : Flight) (table index : Nat) (queueFull : Bool) (q_ : Reg) (h_ :
  touchResolveAt (some q_) = false) (j_ : Nat) : (State.resolveAt s b f table index queueFull).reg q_ j_ = s.reg q_
  j_ :=
  (keeps_resolveAt (closed_reg _ _ _ h_ _) _ _ _ _ _ _ (fun _ h => h) ⟨rfl⟩).out
theorem resolveAt_mem (s : State) (b : Nat) (f : Flight) (table index : Nat) (queueFull : Bool) (h_ : touchResolveAt
  none = false) : (State.resolveAt s b f table index queueFull).mem = s.mem :=
  (keeps_resolveAt (closed_mem _ _ h_) _ _ _ _ _ _ (fun _ h => h) ⟨rfl⟩).out

theorem stillWaits_reg (s : State) (b : Nat) (f : Flight) (q_ : Reg) (h_ : touchStillWaits (some q_) = false) (j_ :
  Nat) : (State.stillWaits s b f).reg q_ j_ = s.reg q_ j_ :=
  (keeps_stillWaits (closed_reg _ _ _ h_ _) _ _ _ (fun _ h => h) ⟨rfl⟩).out
theorem stillWaits_mem (s : State) (b : Nat) (f : Flight) (h_ : touchStillWaits none = false) : (State.stillWaits s
  b f).mem = s.mem :=
  (keeps_stillWaits (closed_mem _ _ h_) _ _ _ (fun _ h => h) ⟨rfl⟩).out

theorem groupFence_reg (s : State) (b step : Nat) (q_ : Reg) (h_ : touchGroupFence (some q_) = false) (j_ : Nat) :
  (State.groupFence s b step).reg q_ j_ = s.reg q_ j_ :=
  (keeps_groupFence (closed_reg _ _ _ h_ _) _ _ _ (fun _ h => h) ⟨rfl⟩).out
theorem groupFence_mem (s : State) (b step : Nat) (h_ : touchGroupFence none = false) : (State.groupFence s b
  step).mem = s.mem :=
  (keeps_groupFence (closed_mem _ _ h_) _ _ _ (fun _ h => h) ⟨rfl⟩).out

theorem endWait_reg (s : State) (b : Nat) (f : Flight) (q_ : Reg) (h_ : touchEndWait (some q_) = false) (j_ : Nat) :
  (State.endWait s b f).reg q_ j_ = s.reg q_ j_ :=
  (keeps_endWait (closed_reg _ _ _ h_ _) _ _ _ (fun _ h => h) ⟨rfl⟩).out
theorem endWait_mem (s : State) (b : Nat) (f : Flight) (h_ : touchEndWait none = false) : (State.endWait s b f).mem
  = s.mem :=
  (keeps_endWait (closed_mem _ _ h_) _ _ _ (fun _ h => h) ⟨rfl⟩).out

theorem runWait_reg (s : State) (b kind : Nat) (q_ : Reg) (h_ : touchRunWait (some q_) = false) (j_ : Nat) :
  (State.runWait s b kind).reg q_ j_ = s.reg q_ j_ :=
  (keeps_runWait (closed_reg _ _ _ h_ _) _ _ _ (fun _ h => h) ⟨rfl⟩).out
theorem runWait_mem (s : State) (b kind : Nat) (h_ : touchRunWait none = false) : (State.runWait s b kind).mem =
  s.mem :=
  (keeps_runWait (closed_mem _ _ h_) _ _ _ (fun _ h => h) ⟨rfl⟩).out

theorem unparkFor_reg (s : State) (b : Nat) (q_ : Reg) (h_ : touchUnparkFor (some q_) = false) (j_ : Nat) :
  (State.unparkFor s b).reg q_ j_ = s.reg q_ j_ :=
  (keeps_unparkFor (closed_reg _ _ _ h_ _) _ _ (fun _ h => h) ⟨rfl⟩).out
theorem unparkFor_mem (s : State) (b : Nat) (h_ : touchUnparkFor none = false) : (State.unparkFor s b).mem = s.mem
  :=
  (keeps_unparkFor (closed_mem _ _ h_) _ _ (fun _ h => h) ⟨rfl⟩).out

@[simp] theorem setEvent_reg (s : State) (b v : Nat) (q_ : Reg) (j_ : Nat) : (State.setEvent s b v).reg q_ j_ =
  s.reg q_ j_ :=
  (keeps_setEvent (closed_reg (fun _ => false) _ _ rfl _) _ _ _ ⟨rfl⟩).out
@[simp] theorem setEvent_mem (s : State) (b v : Nat) : (State.setEvent s b v).mem = s.mem :=
  (keeps_setEvent (closed_mem (fun _ => false) _ rfl) _ _ _ ⟨rfl⟩).out

theorem ioWrite_reg (s : State) (p : Nat) (bs : List Byte) (q_ : Reg) (h_ : touchIoWrite (some q_) = false) (j_ :
  Nat) : (State.ioWrite s p bs).reg q_ j_ = s.reg q_ j_ :=
  (keeps_ioWrite (closed_reg _ _ _ h_ _) _ _ _ (fun _ h => h) ⟨rfl⟩).out
theorem ioWrite_mem (s : State) (p : Nat) (bs : List Byte) (h_ : touchIoWrite none = false) : (State.ioWrite s p
  bs).mem = s.mem :=
  (keeps_ioWrite (closed_mem _ _ h_) _ _ _ (fun _ h => h) ⟨rfl⟩).out

theorem endLoad_reg (s : State) (h len va n : Nat) (poison : Bool) (f : Hart → Hart) (q_ : Reg) (h_ : touchEndLoad
  (some q_) = false) (j_ : Nat) : (State.endLoad s h len va n poison f).reg q_ j_ = s.reg q_ j_ :=
  (keeps_endLoad (closed_reg _ _ _ h_ _) _ _ _ _ _ _ _ (fun _ h => h) ⟨rfl⟩).out
theorem endLoad_mem (s : State) (h len va n : Nat) (poison : Bool) (f : Hart → Hart) (h_ : touchEndLoad none =
  false) : (State.endLoad s h len va n poison f).mem = s.mem :=
  (keeps_endLoad (closed_mem _ _ h_) _ _ _ _ _ _ _ (fun _ h => h) ⟨rfl⟩).out

theorem startLoad_reg (s : State) (h len va n : Nat) (reach : CoreReach) (w : Place → Await) (f : Nat → Hart → Hart)
  (q_ : Reg) (h_ : touchStartLoad (some q_) = false) (j_ : Nat) : (State.startLoad s h len va n reach w f).reg q_ j_
  = s.reg q_ j_ :=
  (keeps_startLoad (closed_reg _ _ _ h_ _) _ _ _ _ _ _ _ _ (fun _ h => h) ⟨rfl⟩).out
theorem startLoad_mem (s : State) (h len va n : Nat) (reach : CoreReach) (w : Place → Await) (f : Nat → Hart → Hart)
  (h_ : touchStartLoad none = false) : (State.startLoad s h len va n reach w f).mem = s.mem :=
  (keeps_startLoad (closed_mem _ _ h_) _ _ _ _ _ _ _ _ (fun _ h => h) ⟨rfl⟩).out

@[simp] theorem unreserve_reg (s : State) (h : Nat) (q_ : Reg) (j_ : Nat) : (State.unreserve s h).reg q_ j_ = s.reg
  q_ j_ :=
  (keeps_unreserve (closed_reg (fun _ => false) _ _ rfl _) _ _ ⟨rfl⟩).out
@[simp] theorem unreserve_mem (s : State) (h : Nat) : (State.unreserve s h).mem = s.mem :=
  (keeps_unreserve (closed_mem (fun _ => false) _ rfl) _ _ ⟨rfl⟩).out

theorem loadReserved_reg (s : State) (h size rd va a : Nat) (q_ : Reg) (h_ : touchLoadReserved (some q_) = false)
  (j_ : Nat) : (State.loadReserved s h size rd va a).reg q_ j_ = s.reg q_ j_ :=
  (keeps_loadReserved (closed_reg _ _ _ h_ _) _ _ _ _ _ _ (fun _ h => h) ⟨rfl⟩).out
theorem loadReserved_mem (s : State) (h size rd va a : Nat) (h_ : touchLoadReserved none = false) :
  (State.loadReserved s h size rd va a).mem = s.mem :=
  (keeps_loadReserved (closed_mem _ _ h_) _ _ _ _ _ _ (fun _ h => h) ⟨rfl⟩).out

theorem storeConditional_reg (s : State) (h size rd x a : Nat) (q_ : Reg) (h_ : touchStoreConditional (some q_) =
  false) (j_ : Nat) : (State.storeConditional s h size rd x a).reg q_ j_ = s.reg q_ j_ :=
  (keeps_storeConditional (closed_reg _ _ _ h_ _) _ _ _ _ _ _ (fun _ h => h) ⟨rfl⟩).out
theorem storeConditional_mem (s : State) (h size rd x a : Nat) (h_ : touchStoreConditional none = false) :
  (State.storeConditional s h size rd x a).mem = s.mem :=
  (keeps_storeConditional (closed_mem _ _ h_) _ _ _ _ _ _ (fun _ h => h) ⟨rfl⟩).out

theorem atomicAt_reg (s : State) (h : Nat) (k : HartAtomic) (size rd x va a : Nat) (q_ : Reg) (h_ : touchAtomicAt
  (some q_) = false) (j_ : Nat) : (State.atomicAt s h k size rd x va a).reg q_ j_ = s.reg q_ j_ :=
  (keeps_atomicAt (closed_reg _ _ _ h_ _) _ _ _ _ _ _ _ _ (fun _ h => h) ⟨rfl⟩).out
theorem atomicAt_mem (s : State) (h : Nat) (k : HartAtomic) (size rd x va a : Nat) (h_ : touchAtomicAt none = false)
  : (State.atomicAt s h k size rd x va a).mem = s.mem :=
  (keeps_atomicAt (closed_mem _ _ h_) _ _ _ _ _ _ _ _ (fun _ h => h) ⟨rfl⟩).out

theorem gatherFault_reg (s : State) (h i cause va : Nat) (indexed : Bool) (q_ : Reg) (h_ : touchGatherFault (some
  q_) = false) (j_ : Nat) : (State.gatherFault s h i cause va indexed).reg q_ j_ = s.reg q_ j_ :=
  (keeps_gatherFault (closed_reg _ _ _ h_ _) _ _ _ _ _ _ (fun _ h => h) ⟨rfl⟩).out
theorem gatherFault_mem (s : State) (h i cause va : Nat) (indexed : Bool) (h_ : touchGatherFault none = false) :
  (State.gatherFault s h i cause va indexed).mem = s.mem :=
  (keeps_gatherFault (closed_mem _ _ h_) _ _ _ _ _ _ (fun _ h => h) ⟨rfl⟩).out

theorem noteRemote_reg (s : State) (h code lnode : Nat) (q_ : Reg) (h_ : touchNoteRemote (some q_) = false) (j_ :
  Nat) : (State.noteRemote s h code lnode).reg q_ j_ = s.reg q_ j_ :=
  (keeps_noteRemote (closed_reg _ _ _ h_ _) _ _ _ _ (fun _ h => h) ⟨rfl⟩).out
theorem noteRemote_mem (s : State) (h code lnode : Nat) (h_ : touchNoteRemote none = false) : (State.noteRemote s h
  code lnode).mem = s.mem :=
  (keeps_noteRemote (closed_mem _ _ h_) _ _ _ _ (fun _ h => h) ⟨rfl⟩).out

theorem pend_reg (s : State) (h : Nat) (i : HartInterrupt) (q_ : Reg) (h_ : touchPend (some q_) = false) (j_ : Nat)
  : (State.pend s h i).reg q_ j_ = s.reg q_ j_ :=
  (keeps_pend (closed_reg _ _ _ h_ _) _ _ _ (fun _ h => h) ⟨rfl⟩).out
theorem pend_mem (s : State) (h : Nat) (i : HartInterrupt) (h_ : touchPend none = false) : (State.pend s h i).mem =
  s.mem :=
  (keeps_pend (closed_mem _ _ h_) _ _ _ (fun _ h => h) ⟨rfl⟩).out

theorem sbiReturn_reg (s : State) (h : Nat) (error : Int) (value : Nat) (q_ : Reg) (h_ : touchSbiReturn (some q_) =
  false) (j_ : Nat) : (State.sbiReturn s h error value).reg q_ j_ = s.reg q_ j_ :=
  (keeps_sbiReturn (closed_reg _ _ _ h_ _) _ _ _ _ (fun _ h => h) ⟨rfl⟩).out
theorem sbiReturn_mem (s : State) (h : Nat) (error : Int) (value : Nat) (h_ : touchSbiReturn none = false) :
  (State.sbiReturn s h error value).mem = s.mem :=
  (keeps_sbiReturn (closed_mem _ _ h_) _ _ _ _ (fun _ h => h) ⟨rfl⟩).out

theorem otherCall_reg (s : State) (h : Nat) (q_ : Reg) (h_ : touchOtherCall (some q_) = false) (j_ : Nat) :
  (State.otherCall s h).reg q_ j_ = s.reg q_ j_ :=
  (keeps_otherCall (closed_reg _ _ _ h_ _) _ _ (fun _ h => h) ⟨rfl⟩).out
theorem otherCall_mem (s : State) (h : Nat) (h_ : touchOtherCall none = false) : (State.otherCall s h).mem = s.mem
  :=
  (keeps_otherCall (closed_mem _ _ h_) _ _ (fun _ h => h) ⟨rfl⟩).out

theorem takeReserve_reg (s : State) (die : Nat) (q_ : Reg) (h_ : touchTakeReserve (some q_) = false) (j_ : Nat) :
  (State.takeReserve s die).reg q_ j_ = s.reg q_ j_ :=
  (keeps_takeReserve (closed_reg _ _ _ h_ _) _ _ (fun _ h => h) ⟨rfl⟩).out
theorem takeReserve_mem (s : State) (die : Nat) (h_ : touchTakeReserve none = false) : (State.takeReserve s die).mem
  = s.mem :=
  (keeps_takeReserve (closed_mem _ _ h_) _ _ (fun _ h => h) ⟨rfl⟩).out

theorem migrateCore_reg (s : State) (core spare : Nat) (q_ : Reg) (h_ : touchMigrateCore (some q_) = false) (j_ :
  Nat) : (State.migrateCore s core spare).reg q_ j_ = s.reg q_ j_ :=
  (keeps_migrateCore (closed_reg _ _ _ h_ _) _ _ _ (fun _ h => h) ⟨rfl⟩).out
theorem migrateCore_mem (s : State) (core spare : Nat) (h_ : touchMigrateCore none = false) : (State.migrateCore s
  core spare).mem = s.mem :=
  (keeps_migrateCore (closed_mem _ _ h_) _ _ _ (fun _ h => h) ⟨rfl⟩).out

theorem loseStandby_reg (s : State) (failed : Nat) (q_ : Reg) (h_ : touchLoseStandby (some q_) = false) (j_ : Nat) :
  (State.loseStandby s failed).reg q_ j_ = s.reg q_ j_ :=
  (keeps_loseStandby (closed_reg _ _ _ h_ _) _ _ (fun _ h => h) ⟨rfl⟩).out
theorem loseStandby_mem (s : State) (failed : Nat) (h_ : touchLoseStandby none = false) : (State.loseStandby s
  failed).mem = s.mem :=
  (keeps_loseStandby (closed_mem _ _ h_) _ _ (fun _ h => h) ⟨rfl⟩).out

theorem refusePairing_reg (s : State) (cause : Nat) (q_ : Reg) (h_ : touchRefusePairing (some q_) = false) (j_ :
  Nat) : (State.refusePairing s cause).reg q_ j_ = s.reg q_ j_ :=
  (keeps_refusePairing (closed_reg _ _ _ h_ _) _ _ (fun _ h => h) ⟨rfl⟩).out
theorem refusePairing_mem (s : State) (cause : Nat) (h_ : touchRefusePairing none = false) : (State.refusePairing s
  cause).mem = s.mem :=
  (keeps_refusePairing (closed_mem _ _ h_) _ _ (fun _ h => h) ⟨rfl⟩).out

theorem decidePairing_reg (s : State) (q_ : Reg) (h_ : touchDecidePairing (some q_) = false) (j_ : Nat) :
  (State.decidePairing s).reg q_ j_ = s.reg q_ j_ :=
  (keeps_decidePairing (closed_reg _ _ _ h_ _) _ (fun _ h => h) ⟨rfl⟩).out
theorem decidePairing_mem (s : State) (h_ : touchDecidePairing none = false) : (State.decidePairing s).mem = s.mem
  :=
  (keeps_decidePairing (closed_mem _ _ h_) _ (fun _ h => h) ⟨rfl⟩).out

theorem refuseEpoch_reg (s : State) (b : Nat) (f : Flight) (code : Nat) (q_ : Reg) (h_ : touchRefuseEpoch (some q_)
  = false) (j_ : Nat) : (State.refuseEpoch s b f code).reg q_ j_ = s.reg q_ j_ :=
  (keeps_refuseEpoch (closed_reg _ _ _ h_ _) _ _ _ _ (fun _ h => h) ⟨rfl⟩).out
theorem refuseEpoch_mem (s : State) (b : Nat) (f : Flight) (code : Nat) (h_ : touchRefuseEpoch none = false) :
  (State.refuseEpoch s b f code).mem = s.mem :=
  (keeps_refuseEpoch (closed_mem _ _ h_) _ _ _ _ (fun _ h => h) ⟨rfl⟩).out

theorem settleEpochs_reg (s : State) (q_ : Reg) (h_ : touchSettleEpochs (some q_) = false) (j_ : Nat) :
  (State.settleEpochs s).reg q_ j_ = s.reg q_ j_ :=
  (keeps_settleEpochs (closed_reg _ _ _ h_ _) _ (fun _ h => h) ⟨rfl⟩).out
theorem settleEpochs_mem (s : State) (h_ : touchSettleEpochs none = false) : (State.settleEpochs s).mem = s.mem :=
  (keeps_settleEpochs (closed_mem _ _ h_) _ (fun _ h => h) ⟨rfl⟩).out

theorem startBays_reg (s : State) (q_ : Reg) (h_ : touchStartBays (some q_) = false) (j_ : Nat) : (State.startBays
  s).reg q_ j_ = s.reg q_ j_ :=
  (keeps_startBays (closed_reg _ _ _ h_ _) _ (fun _ h => h) ⟨rfl⟩).out
theorem startBays_mem (s : State) (h_ : touchStartBays none = false) : (State.startBays s).mem = s.mem :=
  (keeps_startBays (closed_mem _ _ h_) _ (fun _ h => h) ⟨rfl⟩).out

theorem startJob_reg (s : State) (q_ : Reg) (h_ : touchStartJob (some q_) = false) (j_ : Nat) : (State.startJob
  s).reg q_ j_ = s.reg q_ j_ :=
  (keeps_startJob (closed_reg _ _ _ h_ _) _ (fun _ h => h) ⟨rfl⟩).out
theorem startJob_mem (s : State) (h_ : touchStartJob none = false) : (State.startJob s).mem = s.mem :=
  (keeps_startJob (closed_mem _ _ h_) _ (fun _ h => h) ⟨rfl⟩).out

theorem resumeRestored_reg (s : State) (q_ : Reg) (h_ : touchResumeRestored (some q_) = false) (j_ : Nat) :
  (State.resumeRestored s).reg q_ j_ = s.reg q_ j_ :=
  (keeps_resumeRestored (closed_reg _ _ _ h_ _) _ (fun _ h => h) ⟨rfl⟩).out
theorem resumeRestored_mem (s : State) (h_ : touchResumeRestored none = false) : (State.resumeRestored s).mem =
  s.mem :=
  (keeps_resumeRestored (closed_mem _ _ h_) _ (fun _ h => h) ⟨rfl⟩).out

theorem fencePassed_reg (s : State) (q_ : Reg) (h_ : touchFencePassed (some q_) = false) (j_ : Nat) :
  (State.fencePassed s).reg q_ j_ = s.reg q_ j_ :=
  (keeps_fencePassed (closed_reg _ _ _ h_ _) _ (fun _ h => h) ⟨rfl⟩).out
theorem fencePassed_mem (s : State) (h_ : touchFencePassed none = false) : (State.fencePassed s).mem = s.mem :=
  (keeps_fencePassed (closed_mem _ _ h_) _ (fun _ h => h) ⟨rfl⟩).out

theorem checkFence_reg (s : State) (q_ : Reg) (h_ : touchCheckFence (some q_) = false) (j_ : Nat) :
  (State.checkFence s).reg q_ j_ = s.reg q_ j_ :=
  (keeps_checkFence (closed_reg _ _ _ h_ _) _ (fun _ h => h) ⟨rfl⟩).out
theorem checkFence_mem (s : State) (h_ : touchCheckFence none = false) : (State.checkFence s).mem = s.mem :=
  (keeps_checkFence (closed_mem _ _ h_) _ (fun _ h => h) ⟨rfl⟩).out

theorem sendHeld_reg (s : State) (q_ : Reg) (h_ : touchSendHeld (some q_) = false) (j_ : Nat) : (State.sendHeld
  s).reg q_ j_ = s.reg q_ j_ :=
  (keeps_sendHeld (closed_reg _ _ _ h_ _) _ (fun _ h => h) ⟨rfl⟩).out
theorem sendHeld_mem (s : State) (h_ : touchSendHeld none = false) : (State.sendHeld s).mem = s.mem :=
  (keeps_sendHeld (closed_mem _ _ h_) _ (fun _ h => h) ⟨rfl⟩).out

theorem joinFence_reg (s : State) (q_ : Reg) (h_ : touchJoinFence (some q_) = false) (j_ : Nat) : (State.joinFence
  s).reg q_ j_ = s.reg q_ j_ :=
  (keeps_joinFence (closed_reg _ _ _ h_ _) _ (fun _ h => h) ⟨rfl⟩).out
theorem joinFence_mem (s : State) (h_ : touchJoinFence none = false) : (State.joinFence s).mem = s.mem :=
  (keeps_joinFence (closed_mem _ _ h_) _ (fun _ h => h) ⟨rfl⟩).out

theorem installEpoch_reg (s : State) (q_ : Reg) (h_ : touchInstallEpoch (some q_) = false) (j_ : Nat) :
  (State.installEpoch s).reg q_ j_ = s.reg q_ j_ :=
  (keeps_installEpoch (closed_reg _ _ _ h_ _) _ (fun _ h => h) ⟨rfl⟩).out
theorem installEpoch_mem (s : State) (h_ : touchInstallEpoch none = false) : (State.installEpoch s).mem = s.mem :=
  (keeps_installEpoch (closed_mem _ _ h_) _ (fun _ h => h) ⟨rfl⟩).out

theorem noteCompared_reg (s : State) (t digest result : Nat) (q_ : Reg) (h_ : touchNoteCompared (some q_) = false)
  (j_ : Nat) : (State.noteCompared s t digest result).reg q_ j_ = s.reg q_ j_ :=
  (keeps_noteCompared (closed_reg _ _ _ h_ _) _ _ _ _ (fun _ h => h) ⟨rfl⟩).out
theorem noteCompared_mem (s : State) (t digest result : Nat) (h_ : touchNoteCompared none = false) :
  (State.noteCompared s t digest result).mem = s.mem :=
  (keeps_noteCompared (closed_mem _ _ h_) _ _ _ _ (fun _ h => h) ⟨rfl⟩).out

theorem compareStep_reg (s : State) (x : XwStep) (theirs : Nat) (q_ : Reg) (h_ : touchCompareStep (some q_) = false)
  (j_ : Nat) : (State.compareStep s x theirs).reg q_ j_ = s.reg q_ j_ :=
  (keeps_compareStep (closed_reg _ _ _ h_ _) _ _ _ (fun _ h => h) ⟨rfl⟩).out
theorem compareStep_mem (s : State) (x : XwStep) (theirs : Nat) (h_ : touchCompareStep none = false) :
  (State.compareStep s x theirs).mem = s.mem :=
  (keeps_compareStep (closed_mem _ _ h_) _ _ _ (fun _ h => h) ⟨rfl⟩).out

theorem compareSteps_reg (s : State) (q_ : Reg) (h_ : touchCompareSteps (some q_) = false) (j_ : Nat) :
  (State.compareSteps s).reg q_ j_ = s.reg q_ j_ :=
  (keeps_compareSteps (closed_reg _ _ _ h_ _) _ (fun _ h => h) ⟨rfl⟩).out
theorem compareSteps_mem (s : State) (h_ : touchCompareSteps none = false) : (State.compareSteps s).mem = s.mem :=
  (keeps_compareSteps (closed_mem _ _ h_) _ (fun _ h => h) ⟨rfl⟩).out

theorem diverge_reg (s : State) (d : XwDiff) (gran dstep addr ownWord word : Nat) (q_ : Reg) (h_ : touchDiverge
  (some q_) = false) (j_ : Nat) : (State.diverge s d gran dstep addr ownWord word).reg q_ j_ = s.reg q_ j_ :=
  (keeps_diverge (closed_reg _ _ _ h_ _) _ _ _ _ _ _ _ (fun _ h => h) ⟨rfl⟩).out
theorem diverge_mem (s : State) (d : XwDiff) (gran dstep addr ownWord word : Nat) (h_ : touchDiverge none = false) :
  (State.diverge s d gran dstep addr ownWord word).mem = s.mem :=
  (keeps_diverge (closed_mem _ _ h_) _ _ _ _ _ _ _ (fun _ h => h) ⟨rfl⟩).out

theorem compareStreams_reg (s : State) (q_ : Reg) (h_ : touchCompareStreams (some q_) = false) (j_ : Nat) :
  (State.compareStreams s).reg q_ j_ = s.reg q_ j_ :=
  (keeps_compareStreams (closed_reg _ _ _ h_ _) _ (fun _ h => h) ⟨rfl⟩).out
theorem compareStreams_mem (s : State) (h_ : touchCompareStreams none = false) : (State.compareStreams s).mem =
  s.mem :=
  (keeps_compareStreams (closed_mem _ _ h_) _ (fun _ h => h) ⟨rfl⟩).out

theorem endHolds_reg (s : State) (q_ : Reg) (h_ : touchEndHolds (some q_) = false) (j_ : Nat) : (State.endHolds
  s).reg q_ j_ = s.reg q_ j_ :=
  (keeps_endHolds (closed_reg _ _ _ h_ _) _ (fun _ h => h) ⟨rfl⟩).out
theorem endHolds_mem (s : State) (h_ : touchEndHolds none = false) : (State.endHolds s).mem = s.mem :=
  (keeps_endHolds (closed_mem _ _ h_) _ (fun _ h => h) ⟨rfl⟩).out

theorem compareChunks_reg (s : State) (d : XwDiff) (records : List (Nat × Nat)) (intact : Bool) (data : List Byte)
  (word : Nat) (q_ : Reg) (h_ : touchCompareChunks (some q_) = false) (j_ : Nat) : (State.compareChunks s d records
  intact data word).reg q_ j_ = s.reg q_ j_ :=
  (keeps_compareChunks (closed_reg _ _ _ h_ _) _ _ _ _ _ _ (fun _ h => h) ⟨rfl⟩).out
theorem compareChunks_mem (s : State) (d : XwDiff) (records : List (Nat × Nat)) (intact : Bool) (data : List Byte)
  (word : Nat) (h_ : touchCompareChunks none = false) : (State.compareChunks s d records intact data word).mem =
  s.mem :=
  (keeps_compareChunks (closed_mem _ _ h_) _ _ _ _ _ _ (fun _ h => h) ⟨rfl⟩).out

theorem verifyReplay_reg (s : State) (t d : Nat) (q_ : Reg) (h_ : touchVerifyReplay (some q_) = false) (j_ : Nat) :
  (State.verifyReplay s t d).reg q_ j_ = s.reg q_ j_ :=
  (keeps_verifyReplay (closed_reg _ _ _ h_ _) _ _ _ (fun _ h => h) ⟨rfl⟩).out
theorem verifyReplay_mem (s : State) (t d : Nat) (h_ : touchVerifyReplay none = false) : (State.verifyReplay s t
  d).mem = s.mem :=
  (keeps_verifyReplay (closed_mem _ _ h_) _ _ _ (fun _ h => h) ⟨rfl⟩).out

theorem endRound_reg (s : State) (q_ : Reg) (h_ : touchEndRound (some q_) = false) (j_ : Nat) : (State.endRound
  s).reg q_ j_ = s.reg q_ j_ :=
  (keeps_endRound (closed_reg _ _ _ h_ _) _ (fun _ h => h) ⟨rfl⟩).out
theorem endRound_mem (s : State) (h_ : touchEndRound none = false) : (State.endRound s).mem = s.mem :=
  (keeps_endRound (closed_mem _ _ h_) _ (fun _ h => h) ⟨rfl⟩).out

theorem exchange_reg (s : State) (t d : Nat) (streams : List (Nat × Nat)) (q_ : Reg) (h_ : touchExchange (some q_) =
  false) (j_ : Nat) : (State.exchange s t d streams).reg q_ j_ = s.reg q_ j_ :=
  (keeps_exchange (closed_reg _ _ _ h_ _) _ _ _ _ (fun _ h => h) ⟨rfl⟩).out
theorem exchange_mem (s : State) (t d : Nat) (streams : List (Nat × Nat)) (h_ : touchExchange none = false) :
  (State.exchange s t d streams).mem = s.mem :=
  (keeps_exchange (closed_mem _ _ h_) _ _ _ _ (fun _ h => h) ⟨rfl⟩).out

theorem passBoundary_reg (s : State) (q_ : Reg) (h_ : touchPassBoundary (some q_) = false) (j_ : Nat) :
  (State.passBoundary s).reg q_ j_ = s.reg q_ j_ :=
  (keeps_passBoundary (closed_reg _ _ _ h_ _) _ (fun _ h => h) ⟨rfl⟩).out
theorem passBoundary_mem (s : State) (h_ : touchPassBoundary none = false) : (State.passBoundary s).mem = s.mem :=
  (keeps_passBoundary (closed_mem _ _ h_) _ (fun _ h => h) ⟨rfl⟩).out

theorem enterLull_reg (s : State) (q_ : Reg) (h_ : touchEnterLull (some q_) = false) (j_ : Nat) : (State.enterLull
  s).reg q_ j_ = s.reg q_ j_ :=
  (keeps_enterLull (closed_reg _ _ _ h_ _) _ (fun _ h => h) ⟨rfl⟩).out
theorem enterLull_mem (s : State) (h_ : touchEnterLull none = false) : (State.enterLull s).mem = s.mem :=
  (keeps_enterLull (closed_mem _ _ h_) _ (fun _ h => h) ⟨rfl⟩).out

theorem resume_reg (s : State) (q_ : Reg) (h_ : touchResume (some q_) = false) (j_ : Nat) : (State.resume s).reg q_
  j_ = s.reg q_ j_ :=
  (keeps_resume (closed_reg _ _ _ h_ _) _ (fun _ h => h) ⟨rfl⟩).out
theorem resume_mem (s : State) (h_ : touchResume none = false) : (State.resume s).mem = s.mem :=
  (keeps_resume (closed_mem _ _ h_) _ (fun _ h => h) ⟨rfl⟩).out

theorem testChannel_reg (s : State) (ch code : Nat) (q_ : Reg) (h_ : touchTestChannel (some q_) = false) (j_ : Nat)
  : (State.testChannel s ch code).reg q_ j_ = s.reg q_ j_ :=
  (keeps_testChannel (closed_reg _ _ _ h_ _) _ _ _ (fun _ h => h) ⟨rfl⟩).out
theorem testChannel_mem (s : State) (ch code : Nat) (h_ : touchTestChannel none = false) : (State.testChannel s ch
  code).mem = s.mem :=
  (keeps_testChannel (closed_mem _ _ h_) _ _ _ (fun _ h => h) ⟨rfl⟩).out

theorem retrain_reg (s : State) (ch : Nat) (q_ : Reg) (h_ : touchRetrain (some q_) = false) (j_ : Nat) :
  (State.retrain s ch).reg q_ j_ = s.reg q_ j_ :=
  (keeps_retrain (closed_reg _ _ _ h_ _) _ _ (fun _ h => h) ⟨rfl⟩).out
theorem retrain_mem (s : State) (ch : Nat) (h_ : touchRetrain none = false) : (State.retrain s ch).mem = s.mem :=
  (keeps_retrain (closed_mem _ _ h_) _ _ (fun _ h => h) ⟨rfl⟩).out

@[simp] theorem startRemap_reg (s : State) (stack element : Nat) (q_ : Reg) (j_ : Nat) : (State.startRemap s stack
  element).reg q_ j_ = s.reg q_ j_ :=
  (keeps_startRemap (closed_reg (fun _ => false) _ _ rfl _) _ _ _ ⟨rfl⟩).out
@[simp] theorem startRemap_mem (s : State) (stack element : Nat) : (State.startRemap s stack element).mem = s.mem :=
  (keeps_startRemap (closed_mem (fun _ => false) _ rfl) _ _ _ ⟨rfl⟩).out

theorem installRemap_reg (s : State) (stack element row : Nat) (q_ : Reg) (h_ : touchInstallRemap (some q_) = false)
  (j_ : Nat) : (State.installRemap s stack element row).reg q_ j_ = s.reg q_ j_ :=
  (keeps_installRemap (closed_reg _ _ _ h_ _) _ _ _ _ (fun _ h => h) ⟨rfl⟩).out
theorem installRemap_mem (s : State) (stack element row : Nat) (h_ : touchInstallRemap none = false) :
  (State.installRemap s stack element row).mem = s.mem :=
  (keeps_installRemap (closed_mem _ _ h_) _ _ _ _ (fun _ h => h) ⟨rfl⟩).out

theorem noteBlocked_reg (s : State) (q_ : Reg) (h_ : touchNoteBlocked (some q_) = false) (j_ : Nat) :
  (State.noteBlocked s).reg q_ j_ = s.reg q_ j_ :=
  (keeps_noteBlocked (closed_reg _ _ _ h_ _) _ (fun _ h => h) ⟨rfl⟩).out
theorem noteBlocked_mem (s : State) (h_ : touchNoteBlocked none = false) : (State.noteBlocked s).mem = s.mem :=
  (keeps_noteBlocked (closed_mem _ _ h_) _ (fun _ h => h) ⟨rfl⟩).out

theorem decideMapout_reg (s : State) (ch : Nat) (q_ : Reg) (h_ : touchDecideMapout (some q_) = false) (j_ : Nat) :
  (State.decideMapout s ch).reg q_ j_ = s.reg q_ j_ :=
  (keeps_decideMapout (closed_reg _ _ _ h_ _) _ _ (fun _ h => h) ⟨rfl⟩).out
theorem decideMapout_mem (s : State) (ch : Nat) (h_ : touchDecideMapout none = false) : (State.decideMapout s
  ch).mem = s.mem :=
  (keeps_decideMapout (closed_mem _ _ h_) _ _ (fun _ h => h) ⟨rfl⟩).out

theorem failBaseDie_reg (s : State) (st : Nat) (q_ : Reg) (h_ : touchFailBaseDie (some q_) = false) (j_ : Nat) :
  (State.failBaseDie s st).reg q_ j_ = s.reg q_ j_ :=
  (keeps_failBaseDie (closed_reg _ _ _ h_ _) _ _ (fun _ h => h) ⟨rfl⟩).out
theorem failBaseDie_mem (s : State) (st : Nat) (h_ : touchFailBaseDie none = false) : (State.failBaseDie s st).mem =
  s.mem :=
  (keeps_failBaseDie (closed_mem _ _ h_) _ _ (fun _ h => h) ⟨rfl⟩).out

theorem recall_reg (s : State) (p : Nat → Bool) (q_ : Reg) (h_ : touchRecall (some q_) = false) (j_ : Nat) :
  (State.recall s p).reg q_ j_ = s.reg q_ j_ :=
  (keeps_recall (closed_reg _ _ _ h_ _) _ _ (fun _ h => h) ⟨rfl⟩).out
theorem recall_mem (s : State) (p : Nat → Bool) (h_ : touchRecall none = false) : (State.recall s p).mem = s.mem :=
  (keeps_recall (closed_mem _ _ h_) _ _ (fun _ h => h) ⟨rfl⟩).out

theorem wearRow_reg (s : State) (ch row element : Nat) (q_ : Reg) (h_ : touchWearRow (some q_) = false) (j_ : Nat) :
  (State.wearRow s ch row element).reg q_ j_ = s.reg q_ j_ :=
  (keeps_wearRow (closed_reg _ _ _ h_ _) _ _ _ _ (fun _ h => h) ⟨rfl⟩).out
theorem wearRow_mem (s : State) (ch row element : Nat) (h_ : touchWearRow none = false) : (State.wearRow s ch row
  element).mem = s.mem :=
  (keeps_wearRow (closed_mem _ _ h_) _ _ _ _ (fun _ h => h) ⟨rfl⟩).out

theorem correctedRead_reg (s : State) (ch element a : Nat) (q_ : Reg) (h_ : touchCorrectedRead (some q_) = false)
  (j_ : Nat) : (State.correctedRead s ch element a).reg q_ j_ = s.reg q_ j_ :=
  (keeps_correctedRead (closed_reg _ _ _ h_ _) _ _ _ _ (fun _ h => h) ⟨rfl⟩).out
theorem correctedRead_mem (s : State) (ch element a : Nat) (h_ : touchCorrectedRead none = false) :
  (State.correctedRead s ch element a).mem = s.mem :=
  (keeps_correctedRead (closed_mem _ _ h_) _ _ _ _ (fun _ h => h) ⟨rfl⟩).out

theorem stackFinding_reg (s : State) (a : Nat) (f : EccFinding) (q_ : Reg) (h_ : touchStackFinding (some q_) =
  false) (j_ : Nat) : (State.stackFinding s a f).reg q_ j_ = s.reg q_ j_ :=
  (keeps_stackFinding (closed_reg _ _ _ h_ _) _ _ _ (fun _ h => h) ⟨rfl⟩).out
theorem stackFinding_mem (s : State) (a : Nat) (f : EccFinding) (h_ : touchStackFinding none = false) :
  (State.stackFinding s a f).mem = s.mem :=
  (keeps_stackFinding (closed_mem _ _ h_) _ _ _ (fun _ h => h) ⟨rfl⟩).out

theorem serveChan_reg (s : State) (r : ChanReq) (q_ : Reg) (h_ : touchServeChan (some q_) = false) (j_ : Nat) :
  (State.serveChan s r).reg q_ j_ = s.reg q_ j_ :=
  (keeps_serveChan (closed_reg _ _ _ h_ _) _ _ (fun _ h => h) ⟨rfl⟩).out
theorem serveChan_mem (s : State) (r : ChanReq) (h_ : touchServeChan none = false) : (State.serveChan s r).mem =
  s.mem :=
  (keeps_serveChan (closed_mem _ _ h_) _ _ (fun _ h => h) ⟨rfl⟩).out

theorem toChannel_reg (s : State) (ch : Nat) (r : ChanReq) (q_ : Reg) (h_ : touchToChannel (some q_) = false) (j_ :
  Nat) : (State.toChannel s ch r).reg q_ j_ = s.reg q_ j_ :=
  (keeps_toChannel (closed_reg _ _ _ h_ _) _ _ _ (fun _ h => h) ⟨rfl⟩).out
theorem toChannel_mem (s : State) (ch : Nat) (r : ChanReq) (h_ : touchToChannel none = false) : (State.toChannel s
  ch r).mem = s.mem :=
  (keeps_toChannel (closed_mem _ _ h_) _ _ _ (fun _ h => h) ⟨rfl⟩).out

theorem releaseChan_reg (s : State) (ch : Nat) (q_ : Reg) (h_ : touchReleaseChan (some q_) = false) (j_ : Nat) :
  (State.releaseChan s ch).reg q_ j_ = s.reg q_ j_ :=
  (keeps_releaseChan (closed_reg _ _ _ h_ _) _ _ (fun _ h => h) ⟨rfl⟩).out
theorem releaseChan_mem (s : State) (ch : Nat) (h_ : touchReleaseChan none = false) : (State.releaseChan s ch).mem =
  s.mem :=
  (keeps_releaseChan (closed_mem _ _ h_) _ _ (fun _ h => h) ⟨rfl⟩).out

theorem askFill_reg (s : State) (l : Nat) (q_ : Reg) (h_ : touchAskFill (some q_) = false) (j_ : Nat) :
  (State.askFill s l).reg q_ j_ = s.reg q_ j_ :=
  (keeps_askFill (closed_reg _ _ _ h_ _) _ _ (fun _ h => h) ⟨rfl⟩).out
theorem askFill_mem (s : State) (l : Nat) (h_ : touchAskFill none = false) : (State.askFill s l).mem = s.mem :=
  (keeps_askFill (closed_mem _ _ h_) _ _ (fun _ h => h) ⟨rfl⟩).out

@[simp] theorem mergeLine_reg (s : State) (l : Nat) (q_ : Reg) (j_ : Nat) : (State.mergeLine s l).reg q_ j_ = s.reg
  q_ j_ :=
  (keeps_mergeLine (closed_reg (fun _ => false) _ _ rfl _) _ _ ⟨rfl⟩).out
@[simp] theorem mergeLine_mem (s : State) (l : Nat) : (State.mergeLine s l).mem = s.mem :=
  (keeps_mergeLine (closed_mem (fun _ => false) _ rfl) _ _ ⟨rfl⟩).out

theorem takeNarrow_reg (s : State) (r : Narrow) (q_ : Reg) (h_ : touchTakeNarrow (some q_) = false) (j_ : Nat) :
  (State.takeNarrow s r).reg q_ j_ = s.reg q_ j_ :=
  (keeps_takeNarrow (closed_reg _ _ _ h_ _) _ _ (fun _ h => h) ⟨rfl⟩).out
theorem takeNarrow_mem (s : State) (r : Narrow) (h_ : touchTakeNarrow none = false) : (State.takeNarrow s r).mem =
  s.mem :=
  (keeps_takeNarrow (closed_mem _ _ h_) _ _ (fun _ h => h) ⟨rfl⟩).out

theorem offerNarrow_reg (s : State) (r : Narrow) (q_ : Reg) (h_ : touchOfferNarrow (some q_) = false) (j_ : Nat) :
  (State.offerNarrow s r).reg q_ j_ = s.reg q_ j_ :=
  (keeps_offerNarrow (closed_reg _ _ _ h_ _) _ _ (fun _ h => h) ⟨rfl⟩).out
theorem offerNarrow_mem (s : State) (r : Narrow) (h_ : touchOfferNarrow none = false) : (State.offerNarrow s r).mem
  = s.mem :=
  (keeps_offerNarrow (closed_mem _ _ h_) _ _ (fun _ h => h) ⟨rfl⟩).out

theorem admitNarrow_reg (s : State) (st : Nat) (q_ : Reg) (h_ : touchAdmitNarrow (some q_) = false) (j_ : Nat) :
  (State.admitNarrow s st).reg q_ j_ = s.reg q_ j_ :=
  (keeps_admitNarrow (closed_reg _ _ _ h_ _) _ _ (fun _ h => h) ⟨rfl⟩).out
theorem admitNarrow_mem (s : State) (st : Nat) (h_ : touchAdmitNarrow none = false) : (State.admitNarrow s st).mem =
  s.mem :=
  (keeps_admitNarrow (closed_mem _ _ h_) _ _ (fun _ h => h) ⟨rfl⟩).out

theorem sliceFinding_reg (s : State) (a : Nat) (f : WordFinding) (persistent : Bool) (q_ : Reg) (h_ :
  touchSliceFinding (some q_) = false) (j_ : Nat) : (State.sliceFinding s a f persistent).reg q_ j_ = s.reg q_ j_ :=
  (keeps_sliceFinding (closed_reg _ _ _ h_ _) _ _ _ _ (fun _ h => h) ⟨rfl⟩).out
theorem sliceFinding_mem (s : State) (a : Nat) (f : WordFinding) (persistent : Bool) (h_ : touchSliceFinding none =
  false) : (State.sliceFinding s a f persistent).mem = s.mem :=
  (keeps_sliceFinding (closed_mem _ _ h_) _ _ _ _ (fun _ h => h) ⟨rfl⟩).out

@[simp] theorem evicted_reg (s : State) (l : Nat) (q_ : Reg) (j_ : Nat) : (State.evicted s l).reg q_ j_ = s.reg q_
  j_ :=
  (keeps_evicted (closed_reg (fun _ => false) _ _ rfl _) _ _ ⟨rfl⟩).out
@[simp] theorem evicted_mem (s : State) (l : Nat) : (State.evicted s l).mem = s.mem :=
  (keeps_evicted (closed_mem (fun _ => false) _ rfl) _ _ ⟨rfl⟩).out

theorem meetRead_reg (s : State) (a : Nat) (eligible : Bool) (queue : Nat) (x : SliceAccess) (stack : EccFinding)
  (q_ : Reg) (h_ : touchMeetRead (some q_) = false) (j_ : Nat) : (State.meetRead s a eligible queue x stack).reg q_
  j_ = s.reg q_ j_ :=
  (keeps_meetRead (closed_reg _ _ _ h_ _) _ _ _ _ _ _ (fun _ h => h) ⟨rfl⟩).out
theorem meetRead_mem (s : State) (a : Nat) (eligible : Bool) (queue : Nat) (x : SliceAccess) (stack : EccFinding)
  (h_ : touchMeetRead none = false) : (State.meetRead s a eligible queue x stack).mem = s.mem :=
  (keeps_meetRead (closed_mem _ _ h_) _ _ _ _ _ _ (fun _ h => h) ⟨rfl⟩).out

theorem meetWrite_reg (s : State) (a n : Nat) (x : SliceAccess) (q_ : Reg) (h_ : touchMeetWrite (some q_) = false)
  (j_ : Nat) : (State.meetWrite s a n x).reg q_ j_ = s.reg q_ j_ :=
  (keeps_meetWrite (closed_reg _ _ _ h_ _) _ _ _ _ (fun _ h => h) ⟨rfl⟩).out
theorem meetWrite_mem (s : State) (a n : Nat) (x : SliceAccess) (h_ : touchMeetWrite none = false) :
  (State.meetWrite s a n x).mem = s.mem :=
  (keeps_meetWrite (closed_mem _ _ h_) _ _ _ _ (fun _ h => h) ⟨rfl⟩).out

theorem putSlice_reg (s : State) (a : Nat) (data : List Byte) (q_ : Reg) (h_ : touchPutSlice (some q_) = false) (j_
  : Nat) : (State.putSlice s a data).reg q_ j_ = s.reg q_ j_ :=
  (keeps_putSlice (closed_reg _ _ _ h_ _) _ _ _ (fun _ h => h) ⟨rfl⟩).out
theorem putSlice_mem (s : State) (a : Nat) (data : List Byte) (h_ : touchPutSlice none = false) : (State.putSlice s
  a data).mem = s.mem :=
  (keeps_putSlice (closed_mem _ _ h_) _ _ _ (fun _ h => h) ⟨rfl⟩).out

theorem meetNarrow_reg (s : State) (a n : Nat) (bytes : Option (List Byte)) (x : SliceAccess) (q_ : Reg) (h_ :
  touchMeetNarrow (some q_) = false) (j_ : Nat) : (State.meetNarrow s a n bytes x).reg q_ j_ = s.reg q_ j_ :=
  (keeps_meetNarrow (closed_reg _ _ _ h_ _) _ _ _ _ _ (fun _ h => h) ⟨rfl⟩).out
theorem meetNarrow_mem (s : State) (a n : Nat) (bytes : Option (List Byte)) (x : SliceAccess) (h_ : touchMeetNarrow
  none = false) : (State.meetNarrow s a n bytes x).mem = s.mem :=
  (keeps_meetNarrow (closed_mem _ _ h_) _ _ _ _ _ (fun _ h => h) ⟨rfl⟩).out

@[simp] theorem holdSlice_reg (s : State) (a : Nat) (r : SliceReq) (q_ : Reg) (j_ : Nat) : (State.holdSlice s a
  r).reg q_ j_ = s.reg q_ j_ :=
  (keeps_holdSlice (closed_reg (fun _ => false) _ _ rfl _) _ _ _ ⟨rfl⟩).out
@[simp] theorem holdSlice_mem (s : State) (a : Nat) (r : SliceReq) : (State.holdSlice s a r).mem = s.mem :=
  (keeps_holdSlice (closed_mem (fun _ => false) _ rfl) _ _ _ ⟨rfl⟩).out

theorem releaseSlice_reg (s : State) (u : Nat) (q_ : Reg) (h_ : touchReleaseSlice (some q_) = false) (j_ : Nat) :
  (State.releaseSlice s u).reg q_ j_ = s.reg q_ j_ :=
  (keeps_releaseSlice (closed_reg _ _ _ h_ _) _ _ (fun _ h => h) ⟨rfl⟩).out
theorem releaseSlice_mem (s : State) (u : Nat) (h_ : touchReleaseSlice none = false) : (State.releaseSlice s u).mem
  = s.mem :=
  (keeps_releaseSlice (closed_mem _ _ h_) _ _ (fun _ h => h) ⟨rfl⟩).out

theorem applyWrite_reg (s : State) (a : Nat) (data : List Byte) (x : SliceAccess) (q_ : Reg) (h_ : touchApplyWrite
  (some q_) = false) (j_ : Nat) : (State.applyWrite s a data x).reg q_ j_ = s.reg q_ j_ :=
  (keeps_applyWrite (closed_reg _ _ _ h_ _) _ _ _ _ (fun _ h => h) ⟨rfl⟩).out
theorem applyWrite_mem (s : State) (a : Nat) (data : List Byte) (x : SliceAccess) (h_ : touchApplyWrite none =
  false) : (State.applyWrite s a data x).mem = s.mem :=
  (keeps_applyWrite (closed_mem _ _ h_) _ _ _ _ (fun _ h => h) ⟨rfl⟩).out

theorem markSpare_reg (s : State) (m : SpareMark) (ch : Nat) (q_ : Reg) (h_ : touchMarkSpare (some q_) = false) (j_
  : Nat) : (State.markSpare s m ch).reg q_ j_ = s.reg q_ j_ :=
  (keeps_markSpare (closed_reg _ _ _ h_ _) _ _ _ (fun _ h => h) ⟨rfl⟩).out
theorem markSpare_mem (s : State) (m : SpareMark) (ch : Nat) (h_ : touchMarkSpare none = false) : (State.markSpare s
  m ch).mem = s.mem :=
  (keeps_markSpare (closed_mem _ _ h_) _ _ _ (fun _ h => h) ⟨rfl⟩).out

theorem spoil_reg (s : State) (place : ScrubPlace) (q_ : Reg) (h_ : touchSpoil (some q_) = false) (j_ : Nat) :
  (State.spoil s place).reg q_ j_ = s.reg q_ j_ :=
  (keeps_spoil (closed_reg _ _ _ h_ _) _ _ (fun _ h => h) ⟨rfl⟩).out
theorem spoil_mem (s : State) (place : ScrubPlace) (h_ : touchSpoil none = false) : (State.spoil s place).mem =
  s.mem :=
  (keeps_spoil (closed_mem _ _ h_) _ _ (fun _ h => h) ⟨rfl⟩).out

theorem passThrough_reg (s : State) (die phys : Nat) (q_ : Reg) (h_ : touchPassThrough (some q_) = false) (j_ : Nat)
  : (State.passThrough s die phys).reg q_ j_ = s.reg q_ j_ :=
  (keeps_passThrough (closed_reg _ _ _ h_ _) _ _ _ (fun _ h => h) ⟨rfl⟩).out
theorem passThrough_mem (s : State) (die phys : Nat) (h_ : touchPassThrough none = false) : (State.passThrough s die
  phys).mem = s.mem :=
  (keeps_passThrough (closed_mem _ _ h_) _ _ _ (fun _ h => h) ⟨rfl⟩).out

theorem failSlice_reg (s : State) (t : SelfTest) (die phys : Nat) (q_ : Reg) (h_ : touchFailSlice (some q_) = false)
  (j_ : Nat) : (State.failSlice s t die phys).reg q_ j_ = s.reg q_ j_ :=
  (keeps_failSlice (closed_reg _ _ _ h_ _) _ _ _ _ (fun _ h => h) ⟨rfl⟩).out
theorem failSlice_mem (s : State) (t : SelfTest) (die phys : Nat) (h_ : touchFailSlice none = false) :
  (State.failSlice s t die phys).mem = s.mem :=
  (keeps_failSlice (closed_mem _ _ h_) _ _ _ _ (fun _ h => h) ⟨rfl⟩).out

@[simp] theorem programJournal_reg (s : State) (stack entry bits : Nat) (q_ : Reg) (j_ : Nat) :
  (State.programJournal s stack entry bits).reg q_ j_ = s.reg q_ j_ :=
  (keeps_programJournal (closed_reg (fun _ => false) _ _ rfl _) _ _ _ _ ⟨rfl⟩).out
@[simp] theorem programJournal_mem (s : State) (stack entry bits : Nat) : (State.programJournal s stack entry
  bits).mem = s.mem :=
  (keeps_programJournal (closed_mem (fun _ => false) _ rfl) _ _ _ _ ⟨rfl⟩).out

theorem startRepair_reg (s : State) (stack element kind : Nat) (jtag : Bool) (q_ : Reg) (h_ : touchStartRepair (some
  q_) = false) (j_ : Nat) : (State.startRepair s stack element kind jtag).reg q_ j_ = s.reg q_ j_ :=
  (keeps_startRepair (closed_reg _ _ _ h_ _) _ _ _ _ _ (fun _ h => h) ⟨rfl⟩).out
theorem startRepair_mem (s : State) (stack element kind : Nat) (jtag : Bool) (h_ : touchStartRepair none = false) :
  (State.startRepair s stack element kind jtag).mem = s.mem :=
  (keeps_startRepair (closed_mem _ _ h_) _ _ _ _ _ (fun _ h => h) ⟨rfl⟩).out

theorem checkSnap_reg (s : State) (q_ : Reg) (h_ : touchCheckSnap (some q_) = false) (j_ : Nat) : (State.checkSnap
  s).1.reg q_ j_ = s.reg q_ j_ :=
  (keeps_checkSnap (closed_reg _ _ _ h_ _) _ (fun _ h => h) ⟨rfl⟩).out
theorem checkSnap_mem (s : State) (h_ : touchCheckSnap none = false) : (State.checkSnap s).1.mem = s.mem :=
  (keeps_checkSnap (closed_mem _ _ h_) _ (fun _ h => h) ⟨rfl⟩).out

theorem checkRetiring_reg (s : State) (q_ : Reg) (h_ : touchCheckRetiring (some q_) = false) (j_ : Nat) :
  (State.checkRetiring s).reg q_ j_ = s.reg q_ j_ :=
  (keeps_checkRetiring (closed_reg _ _ _ h_ _) _ (fun _ h => h) ⟨rfl⟩).out
theorem checkRetiring_mem (s : State) (h_ : touchCheckRetiring none = false) : (State.checkRetiring s).mem = s.mem
  :=
  (keeps_checkRetiring (closed_mem _ _ h_) _ (fun _ h => h) ⟨rfl⟩).out

theorem startCopy_reg (s : State) (dirty : List Nat) (q_ : Reg) (h_ : touchStartCopy (some q_) = false) (j_ : Nat) :
  (State.startCopy s dirty).reg q_ j_ = s.reg q_ j_ :=
  (keeps_startCopy (closed_reg _ _ _ h_ _) _ _ (fun _ h => h) ⟨rfl⟩).out
theorem startCopy_mem (s : State) (dirty : List Nat) (h_ : touchStartCopy none = false) : (State.startCopy s
  dirty).mem = s.mem :=
  (keeps_startCopy (closed_mem _ _ h_) _ _ (fun _ h => h) ⟨rfl⟩).out

@[simp] theorem endSnaps_reg (s : State) (q_ : Reg) (j_ : Nat) : (State.endSnaps s).reg q_ j_ = s.reg q_ j_ :=
  (keeps_endSnaps (closed_reg (fun _ => false) _ _ rfl _) _ ⟨rfl⟩).out
@[simp] theorem endSnaps_mem (s : State) : (State.endSnaps s).mem = s.mem :=
  (keeps_endSnaps (closed_mem (fun _ => false) _ rfl) _ ⟨rfl⟩).out

theorem stackDigest_reg (s : State) (x : Slot) (st : Nat) (q_ : Reg) (h_ : touchStackDigest (some q_) = false) (j_ :
  Nat) : (State.stackDigest s x st).2.reg q_ j_ = s.reg q_ j_ :=
  (keeps_stackDigest (closed_reg _ _ _ h_ _) _ _ _ (fun _ h => h) ⟨rfl⟩).out
theorem stackDigest_mem (s : State) (x : Slot) (st : Nat) (h_ : touchStackDigest none = false) : (State.stackDigest
  s x st).2.mem = s.mem :=
  (keeps_stackDigest (closed_mem _ _ h_) _ _ _ (fun _ h => h) ⟨rfl⟩).out

@[simp] theorem sendShards_reg (s : State) (epoch : Nat) (i : Image) (q_ : Reg) (j_ : Nat) : (State.sendShards s
  epoch i).reg q_ j_ = s.reg q_ j_ :=
  (keeps_sendShards (closed_reg (fun _ => false) _ _ rfl _) _ _ _ ⟨rfl⟩).out
@[simp] theorem sendShards_mem (s : State) (epoch : Nat) (i : Image) : (State.sendShards s epoch i).mem = s.mem :=
  (keeps_sendShards (closed_mem (fun _ => false) _ rfl) _ _ _ ⟨rfl⟩).out

theorem startDrain_reg (s : State) (k : Nat) (q_ : Reg) (h_ : touchStartDrain (some q_) = false) (j_ : Nat) :
  (State.startDrain s k).reg q_ j_ = s.reg q_ j_ :=
  (keeps_startDrain (closed_reg _ _ _ h_ _) _ _ (fun _ h => h) ⟨rfl⟩).out
theorem startDrain_mem (s : State) (k : Nat) (h_ : touchStartDrain none = false) : (State.startDrain s k).mem =
  s.mem :=
  (keeps_startDrain (closed_mem _ _ h_) _ _ (fun _ h => h) ⟨rfl⟩).out

@[simp] theorem setDrain_reg (s : State) (d : Drain) (q_ : Reg) (j_ : Nat) : (State.setDrain s d).reg q_ j_ = s.reg
  q_ j_ :=
  (keeps_setDrain (closed_reg (fun _ => false) _ _ rfl _) _ _ ⟨rfl⟩).out
@[simp] theorem setDrain_mem (s : State) (d : Drain) : (State.setDrain s d).mem = s.mem :=
  (keeps_setDrain (closed_mem (fun _ => false) _ rfl) _ _ ⟨rfl⟩).out

theorem drainAnswered_reg (s : State) (q gen : Nat) (answer : DrainAnswer) (q_ : Reg) (h_ : touchDrainAnswered (some
  q_) = false) (j_ : Nat) : (State.drainAnswered s q gen answer).reg q_ j_ = s.reg q_ j_ :=
  (keeps_drainAnswered (closed_reg _ _ _ h_ _) _ _ _ _ (fun _ h => h) ⟨rfl⟩).out
theorem drainAnswered_mem (s : State) (q gen : Nat) (answer : DrainAnswer) (h_ : touchDrainAnswered none = false) :
  (State.drainAnswered s q gen answer).mem = s.mem :=
  (keeps_drainAnswered (closed_mem _ _ h_) _ _ _ _ (fun _ h => h) ⟨rfl⟩).out

@[simp] theorem answerShard_reg (s : State) (q : Nat) (h : Header) (gen : Nat) (a : DrainAnswer) (q_ : Reg) (j_ :
  Nat) : (State.answerShard s q h gen a).reg q_ j_ = s.reg q_ j_ :=
  (keeps_answerShard (closed_reg (fun _ => false) _ _ rfl _) _ _ _ _ _ ⟨rfl⟩).out
@[simp] theorem answerShard_mem (s : State) (q : Nat) (h : Header) (gen : Nat) (a : DrainAnswer) :
  (State.answerShard s q h gen a).mem = s.mem :=
  (keeps_answerShard (closed_mem (fun _ => false) _ rfl) _ _ _ _ _ ⟨rfl⟩).out

theorem drainStores_reg (s : State) (q_ : Reg) (h_ : touchDrainStores (some q_) = false) (j_ : Nat) :
  (State.drainStores s).reg q_ j_ = s.reg q_ j_ :=
  (keeps_drainStores (closed_reg _ _ _ h_ _) _ (fun _ h => h) ⟨rfl⟩).out
theorem drainStores_mem (s : State) (h_ : touchDrainStores none = false) : (State.drainStores s).mem = s.mem :=
  (keeps_drainStores (closed_mem _ _ h_) _ (fun _ h => h) ⟨rfl⟩).out

theorem beginRecovery_reg (s : State) (kind pos epoch tstep : Nat) (q_ : Reg) (h_ : touchBeginRecovery (some q_) =
  false) (j_ : Nat) : (State.beginRecovery s kind pos epoch tstep).reg q_ j_ = s.reg q_ j_ :=
  (keeps_beginRecovery (closed_reg _ _ _ h_ _) _ _ _ _ _ (fun _ h => h) ⟨rfl⟩).out
theorem beginRecovery_mem (s : State) (kind pos epoch tstep : Nat) (h_ : touchBeginRecovery none = false) :
  (State.beginRecovery s kind pos epoch tstep).mem = s.mem :=
  (keeps_beginRecovery (closed_mem _ _ h_) _ _ _ _ _ (fun _ h => h) ⟨rfl⟩).out

theorem takeIdentity_reg (s : State) (lost : Nat) (q_ : Reg) (h_ : touchTakeIdentity (some q_) = false) (j_ : Nat) :
  (State.takeIdentity s lost).reg q_ j_ = s.reg q_ j_ :=
  (keeps_takeIdentity (closed_reg _ _ _ h_ _) _ _ (fun _ h => h) ⟨rfl⟩).out
theorem takeIdentity_mem (s : State) (lost : Nat) (h_ : touchTakeIdentity none = false) : (State.takeIdentity s
  lost).mem = s.mem :=
  (keeps_takeIdentity (closed_mem _ _ h_) _ _ (fun _ h => h) ⟨rfl⟩).out

theorem recover_reg (s : State) (kind pos epoch tstep : Nat) (q_ : Reg) (h_ : touchRecover (some q_) = false) (j_ :
  Nat) : (State.recover s kind pos epoch tstep).reg q_ j_ = s.reg q_ j_ :=
  (keeps_recover (closed_reg _ _ _ h_ _) _ _ _ _ _ (fun _ h => h) ⟨rfl⟩).out
theorem recover_mem (s : State) (kind pos epoch tstep : Nat) (h_ : touchRecover none = false) : (State.recover s
  kind pos epoch tstep).mem = s.mem :=
  (keeps_recover (closed_mem _ _ h_) _ _ _ _ _ (fun _ h => h) ⟨rfl⟩).out

theorem writeRecovery_reg (s : State) (q : Requester) (kind pos epoch tstep : Nat) (peers : Option Half) (q_ : Reg)
  (h_ : touchWriteRecovery (some q_) = false) (j_ : Nat) : (State.writeRecovery s q kind pos epoch tstep peers).reg
  q_ j_ = s.reg q_ j_ :=
  (keeps_writeRecovery (closed_reg _ _ _ h_ _) _ _ _ _ _ _ _ (fun _ h => h) ⟨rfl⟩).out
theorem writeRecovery_mem (s : State) (q : Requester) (kind pos epoch tstep : Nat) (peers : Option Half) (h_ :
  touchWriteRecovery none = false) : (State.writeRecovery s q kind pos epoch tstep peers).mem = s.mem :=
  (keeps_writeRecovery (closed_mem _ _ h_) _ _ _ _ _ _ _ (fun _ h => h) ⟨rfl⟩).out

theorem loseIdentity_reg (s : State) (lost : Nat) (q_ : Reg) (h_ : touchLoseIdentity (some q_) = false) (j_ : Nat) :
  (State.loseIdentity s lost).reg q_ j_ = s.reg q_ j_ :=
  (keeps_loseIdentity (closed_reg _ _ _ h_ _) _ _ (fun _ h => h) ⟨rfl⟩).out
theorem loseIdentity_mem (s : State) (lost : Nat) (h_ : touchLoseIdentity none = false) : (State.loseIdentity s
  lost).mem = s.mem :=
  (keeps_loseIdentity (closed_mem _ _ h_) _ _ (fun _ h => h) ⟨rfl⟩).out

theorem applyTakeover_reg (s : State) (spare lost : Nat) (q_ : Reg) (h_ : touchApplyTakeover (some q_) = false) (j_
  : Nat) : (State.applyTakeover s spare lost).reg q_ j_ = s.reg q_ j_ :=
  (keeps_applyTakeover (closed_reg _ _ _ h_ _) _ _ _ (fun _ h => h) ⟨rfl⟩).out
theorem applyTakeover_mem (s : State) (spare lost : Nat) (h_ : touchApplyTakeover none = false) :
  (State.applyTakeover s spare lost).mem = s.mem :=
  (keeps_applyTakeover (closed_mem _ _ h_) _ _ _ (fun _ h => h) ⟨rfl⟩).out

theorem reloadBay_reg (s : State) (i : Image) (b : Nat) (q_ : Reg) (h_ : touchReloadBay (some q_) = false) (j_ :
  Nat) : (State.reloadBay s i b).reg q_ j_ = s.reg q_ j_ :=
  (keeps_reloadBay (closed_reg _ _ _ h_ _) _ _ _ (fun _ h => h) ⟨rfl⟩).out
theorem reloadBay_mem (s : State) (i : Image) (b : Nat) (h_ : touchReloadBay none = false) : (State.reloadBay s i
  b).mem = s.mem :=
  (keeps_reloadBay (closed_mem _ _ h_) _ _ _ (fun _ h => h) ⟨rfl⟩).out

theorem applyImage_reg (s : State) (i : Image) (q_ : Reg) (h_ : touchApplyImage (some q_) = false) (j_ : Nat) :
  (State.applyImage s i).reg q_ j_ = s.reg q_ j_ :=
  (keeps_applyImage (closed_reg _ _ _ h_ _) _ _ (fun _ h => h) ⟨rfl⟩).out
theorem applyImage_mem (s : State) (i : Image) (h_ : touchApplyImage none = false) : (State.applyImage s i).mem =
  s.mem :=
  (keeps_applyImage (closed_mem _ _ h_) _ _ (fun _ h => h) ⟨rfl⟩).out

theorem failRestore_reg (s : State) (cause : Nat) (q_ : Reg) (h_ : touchFailRestore (some q_) = false) (j_ : Nat) :
  (State.failRestore s cause).reg q_ j_ = s.reg q_ j_ :=
  (keeps_failRestore (closed_reg _ _ _ h_ _) _ _ (fun _ h => h) ⟨rfl⟩).out
theorem failRestore_mem (s : State) (cause : Nat) (h_ : touchFailRestore none = false) : (State.failRestore s
  cause).mem = s.mem :=
  (keeps_failRestore (closed_mem _ _ h_) _ _ (fun _ h => h) ⟨rfl⟩).out

theorem copyBack_reg (s : State) (x : Slot) (q_ : Reg) (h_ : touchCopyBack (some q_) = false) (j_ : Nat) :
  (State.copyBack s x).reg q_ j_ = s.reg q_ j_ :=
  (keeps_copyBack (closed_reg _ _ _ h_ _) _ _ (fun _ h => h) ⟨rfl⟩).out
theorem copyBack_mem (s : State) (x : Slot) (h_ : touchCopyBack none = false) : (State.copyBack s x).mem = s.mem :=
  (keeps_copyBack (closed_mem _ _ h_) _ _ (fun _ h => h) ⟨rfl⟩).out

theorem enableQueue_reg (q : Nat) (s : State) (q_ : Reg) (h_ : touchEnableQueue (some q_) = false) (j_ : Nat) :
  (enableQueue q s).reg q_ j_ = s.reg q_ j_ :=
  (keeps_enableQueue (closed_reg _ _ _ h_ _) _ _ (fun _ h => h) ⟨rfl⟩).out
theorem enableQueue_mem (q : Nat) (s : State) (h_ : touchEnableQueue none = false) : (enableQueue q s).mem = s.mem
  :=
  (keeps_enableQueue (closed_mem _ _ h_) _ _ (fun _ h => h) ⟨rfl⟩).out

theorem endRange_reg (s : State) (c : HostCmd) (q_ : Reg) (h_ : touchEndRange (some q_) = false) (j_ : Nat) :
  (State.endRange s c).reg q_ j_ = s.reg q_ j_ :=
  (keeps_endRange (closed_reg _ _ _ h_ _) _ _ (fun _ h => h) ⟨rfl⟩).out
theorem endRange_mem (s : State) (c : HostCmd) (h_ : touchEndRange none = false) : (State.endRange s c).mem = s.mem
  :=
  (keeps_endRange (closed_mem _ _ h_) _ _ (fun _ h => h) ⟨rfl⟩).out

theorem loadJob_reg (s : State) (q_ : Reg) (h_ : touchLoadJob (some q_) = false) (j_ : Nat) : (State.loadJob s).reg
  q_ j_ = s.reg q_ j_ :=
  (keeps_loadJob (closed_reg _ _ _ h_ _) _ (fun _ h => h) ⟨rfl⟩).out
theorem loadJob_mem (s : State) (h_ : touchLoadJob none = false) : (State.loadJob s).mem = s.mem :=
  (keeps_loadJob (closed_mem _ _ h_) _ (fun _ h => h) ⟨rfl⟩).out

theorem placeGiven_reg (s : State) (map : List Half) (q_ : Reg) (h_ : touchPlaceGiven (some q_) = false) (j_ : Nat)
  : (State.placeGiven s map).reg q_ j_ = s.reg q_ j_ :=
  (keeps_placeGiven (closed_reg _ _ _ h_ _) _ _ (fun _ h => h) ⟨rfl⟩).out
theorem placeGiven_mem (s : State) (map : List Half) (h_ : touchPlaceGiven none = false) : (State.placeGiven s
  map).mem = s.mem :=
  (keeps_placeGiven (closed_mem _ _ h_) _ _ (fun _ h => h) ⟨rfl⟩).out

theorem withdraw_reg (s : State) (q_ : Reg) (h_ : touchWithdraw (some q_) = false) (j_ : Nat) : (State.withdraw
  s).reg q_ j_ = s.reg q_ j_ :=
  (keeps_withdraw (closed_reg _ _ _ h_ _) _ (fun _ h => h) ⟨rfl⟩).out
theorem withdraw_mem (s : State) (h_ : touchWithdraw none = false) : (State.withdraw s).mem = s.mem :=
  (keeps_withdraw (closed_mem _ _ h_) _ (fun _ h => h) ⟨rfl⟩).out

theorem retireEpoch_reg (s : State) (q_ : Reg) (h_ : touchRetireEpoch (some q_) = false) (j_ : Nat) :
  (State.retireEpoch s).reg q_ j_ = s.reg q_ j_ :=
  (keeps_retireEpoch (closed_reg _ _ _ h_ _) _ (fun _ h => h) ⟨rfl⟩).out
theorem retireEpoch_mem (s : State) (h_ : touchRetireEpoch none = false) : (State.retireEpoch s).mem = s.mem :=
  (keeps_retireEpoch (closed_mem _ _ h_) _ (fun _ h => h) ⟨rfl⟩).out

theorem abandonCmds_reg (s : State) (c : HostCmd) (q_ : Reg) (h_ : touchAbandonCmds (some q_) = false) (j_ : Nat) :
  (State.abandonCmds s c).reg q_ j_ = s.reg q_ j_ :=
  (keeps_abandonCmds (closed_reg _ _ _ h_ _) _ _ (fun _ h => h) ⟨rfl⟩).out
theorem abandonCmds_mem (s : State) (c : HostCmd) (h_ : touchAbandonCmds none = false) : (State.abandonCmds s c).mem
  = s.mem :=
  (keeps_abandonCmds (closed_mem _ _ h_) _ _ (fun _ h => h) ⟨rfl⟩).out

theorem endWork_reg (s : State) (q_ : Reg) (h_ : touchEndWork (some q_) = false) (j_ : Nat) : (State.endWork s).reg
  q_ j_ = s.reg q_ j_ :=
  (keeps_endWork (closed_reg _ _ _ h_ _) _ (fun _ h => h) ⟨rfl⟩).out
theorem endWork_mem (s : State) (h_ : touchEndWork none = false) : (State.endWork s).mem = s.mem :=
  (keeps_endWork (closed_mem _ _ h_) _ (fun _ h => h) ⟨rfl⟩).out

theorem endJob_reg (s : State) (c : HostCmd) (q_ : Reg) (h_ : touchEndJob (some q_) = false) (j_ : Nat) :
  (State.endJob s c).reg q_ j_ = s.reg q_ j_ :=
  (keeps_endJob (closed_reg _ _ _ h_ _) _ _ (fun _ h => h) ⟨rfl⟩).out
theorem endJob_mem (s : State) (c : HostCmd) (h_ : touchEndJob none = false) : (State.endJob s c).mem = s.mem :=
  (keeps_endJob (closed_mem _ _ h_) _ _ (fun _ h => h) ⟨rfl⟩).out

@[simp] theorem clean_reg (s : State) (lo hi : Nat) (q_ : Reg) (j_ : Nat) : (State.clean s lo hi).reg q_ j_ = s.reg
  q_ j_ :=
  (keeps_clean (closed_reg (fun _ => false) _ _ rfl _) _ _ _ ⟨rfl⟩).out
@[simp] theorem clean_mem (s : State) (lo hi : Nat) : (State.clean s lo hi).mem = s.mem :=
  (keeps_clean (closed_mem (fun _ => false) _ rfl) _ _ _ ⟨rfl⟩).out

theorem wipeJob_reg (s : State) (q_ : Reg) (h_ : touchWipeJob (some q_) = false) (j_ : Nat) : (State.wipeJob s).reg
  q_ j_ = s.reg q_ j_ :=
  (keeps_wipeJob (closed_reg _ _ _ h_ _) _ (fun _ h => h) ⟨rfl⟩).out
theorem wipeJob_mem (s : State) (h_ : touchWipeJob none = false) : (State.wipeJob s).mem = s.mem :=
  (keeps_wipeJob (closed_mem _ _ h_) _ (fun _ h => h) ⟨rfl⟩).out

theorem putModel_reg (s : State) (i place : Nat) (img descs weights : List Byte) (q_ : Reg) (h_ : touchPutModel
  (some q_) = false) (j_ : Nat) : (State.putModel s i place img descs weights).reg q_ j_ = s.reg q_ j_ :=
  (keeps_putModel (closed_reg _ _ _ h_ _) _ _ _ _ _ _ (fun _ h => h) ⟨rfl⟩).out
theorem putModel_mem (s : State) (i place : Nat) (img descs weights : List Byte) (h_ : touchPutModel none = false) :
  (State.putModel s i place img descs weights).mem = s.mem :=
  (keeps_putModel (closed_mem _ _ h_) _ _ _ _ _ _ (fun _ h => h) ⟨rfl⟩).out

theorem showRegions_reg (s : State) (q_ : Reg) (h_ : touchShowRegions (some q_) = false) (j_ : Nat) :
  (State.showRegions s).reg q_ j_ = s.reg q_ j_ :=
  (keeps_showRegions (closed_reg _ _ _ h_ _) _ (fun _ h => h) ⟨rfl⟩).out
theorem showRegions_mem (s : State) (h_ : touchShowRegions none = false) : (State.showRegions s).mem = s.mem :=
  (keeps_showRegions (closed_mem _ _ h_) _ (fun _ h => h) ⟨rfl⟩).out

theorem resumeHalted_reg (s : State) (b : Nat) (q_ : Reg) (h_ : touchResumeHalted (some q_) = false) (j_ : Nat) :
  (State.resumeHalted s b).reg q_ j_ = s.reg q_ j_ :=
  (keeps_resumeHalted (closed_reg _ _ _ h_ _) _ _ (fun _ h => h) ⟨rfl⟩).out
theorem resumeHalted_mem (s : State) (b : Nat) (h_ : touchResumeHalted none = false) : (State.resumeHalted s b).mem
  = s.mem :=
  (keeps_resumeHalted (closed_mem _ _ h_) _ _ (fun _ h => h) ⟨rfl⟩).out

theorem resumeSaved_reg (s : State) (c : HostCmd) (b : Nat) (q_ : Reg) (h_ : touchResumeSaved (some q_) = false) (j_
  : Nat) : (State.resumeSaved s c b).reg q_ j_ = s.reg q_ j_ :=
  (keeps_resumeSaved (closed_reg _ _ _ h_ _) _ _ _ (fun _ h => h) ⟨rfl⟩).out
theorem resumeSaved_mem (s : State) (c : HostCmd) (b : Nat) (h_ : touchResumeSaved none = false) :
  (State.resumeSaved s c b).mem = s.mem :=
  (keeps_resumeSaved (closed_mem _ _ h_) _ _ _ (fun _ h => h) ⟨rfl⟩).out

theorem trainHost_reg (s : State) (gen width : Nat) (cxl : Bool) (q_ : Reg) (h_ : touchTrainHost (some q_) = false)
  (j_ : Nat) : (State.trainHost s gen width cxl).reg q_ j_ = s.reg q_ j_ :=
  (keeps_trainHost (closed_reg _ _ _ h_ _) _ _ _ _ (fun _ h => h) ⟨rfl⟩).out
theorem trainHost_mem (s : State) (gen width : Nat) (cxl : Bool) (h_ : touchTrainHost none = false) :
  (State.trainHost s gen width cxl).mem = s.mem :=
  (keeps_trainHost (closed_mem _ _ h_) _ _ _ _ (fun _ h => h) ⟨rfl⟩).out

theorem release_reg (s : State) (p : Nat → Bool) (q_ : Reg) (h_ : touchRelease (some q_) = false) (j_ : Nat) :
  (State.release s p).reg q_ j_ = s.reg q_ j_ :=
  (keeps_release (closed_reg _ _ _ h_ _) _ _ (fun _ h => h) ⟨rfl⟩).out
theorem release_mem (s : State) (p : Nat → Bool) (h_ : touchRelease none = false) : (State.release s p).mem = s.mem
  :=
  (keeps_release (closed_mem _ _ h_) _ _ (fun _ h => h) ⟨rfl⟩).out

theorem grant_reg (s : State) (line : Nat) (q_ : Reg) (h_ : touchGrant (some q_) = false) (j_ : Nat) : (State.grant
  s line).reg q_ j_ = s.reg q_ j_ :=
  (keeps_grant (closed_reg _ _ _ h_ _) _ _ (fun _ h => h) ⟨rfl⟩).out
theorem grant_mem (s : State) (line : Nat) (h_ : touchGrant none = false) : (State.grant s line).mem = s.mem :=
  (keeps_grant (closed_mem _ _ h_) _ _ (fun _ h => h) ⟨rfl⟩).out

theorem loadCode_reg (s : State) (k code : Nat) (q_ : Reg) (h_ : touchLoadCode (some q_) = false) (j_ : Nat) :
  (State.loadCode s k code).reg q_ j_ = s.reg q_ j_ :=
  (keeps_loadCode (closed_reg _ _ _ h_ _) _ _ _ (fun _ h => h) ⟨rfl⟩).out
theorem loadCode_mem (s : State) (k code : Nat) (h_ : touchLoadCode none = false) : (State.loadCode s k code).mem =
  s.mem :=
  (keeps_loadCode (closed_mem _ _ h_) _ _ _ (fun _ h => h) ⟨rfl⟩).out

theorem auditRepair_reg (s : State) (r : Reg) (k : Nat) (old : List Byte) (q_ : Reg) (h_ : touchAuditRepair r (some
  q_) = false) (j_ : Nat) : (State.auditRepair s r k old).reg q_ j_ = s.reg q_ j_ :=
  (keeps_auditRepair (closed_reg _ _ _ h_ _) _ _ _ _ (fun _ h => h) ⟨rfl⟩).out
theorem auditRepair_mem (s : State) (r : Reg) (k : Nat) (old : List Byte) (h_ : touchAuditRepair r none = false) :
  (State.auditRepair s r k old).mem = s.mem :=
  (keeps_auditRepair (closed_mem _ _ h_) _ _ _ _ (fun _ h => h) ⟨rfl⟩).out

theorem wrapperRepair_reg (s : State) (e : StackElement) (kind code : Nat) (q_ : Reg) (h_ : touchWrapperRepair (some
  q_) = false) (j_ : Nat) : (State.wrapperRepair s e kind code).reg q_ j_ = s.reg q_ j_ :=
  (keeps_wrapperRepair (closed_reg _ _ _ h_ _) _ _ _ _ (fun _ h => h) ⟨rfl⟩).out
theorem wrapperRepair_mem (s : State) (e : StackElement) (kind code : Nat) (h_ : touchWrapperRepair none = false) :
  (State.wrapperRepair s e kind code).mem = s.mem :=
  (keeps_wrapperRepair (closed_mem _ _ h_) _ _ _ _ (fun _ h => h) ⟨rfl⟩).out

theorem freezeCommand_reg (v : Nat) (s : State) (q_ : Reg) (h_ : touchFreezeCommand (some q_) = false) (j_ : Nat) :
  (freezeCommand v s).reg q_ j_ = s.reg q_ j_ :=
  (keeps_freezeCommand (closed_reg _ _ _ h_ _) _ _ (fun _ h => h) ⟨rfl⟩).out
theorem freezeCommand_mem (v : Nat) (s : State) (h_ : touchFreezeCommand none = false) : (freezeCommand v s).mem =
  s.mem :=
  (keeps_freezeCommand (closed_mem _ _ h_) _ _ (fun _ h => h) ⟨rfl⟩).out

theorem countLatency_reg (s : State) (path ns : Nat) (q_ : Reg) (h_ : touchCountLatency (some q_) = false) (j_ :
  Nat) : (State.countLatency s path ns).reg q_ j_ = s.reg q_ j_ :=
  (keeps_countLatency (closed_reg _ _ _ h_ _) _ _ _ (fun _ h => h) ⟨rfl⟩).out
theorem countLatency_mem (s : State) (path ns : Nat) (h_ : touchCountLatency none = false) : (State.countLatency s
  path ns).mem = s.mem :=
  (keeps_countLatency (closed_mem _ _ h_) _ _ _ (fun _ h => h) ⟨rfl⟩).out

theorem clearLatencies_reg (s : State) (q_ : Reg) (h_ : touchClearLatencies (some q_) = false) (j_ : Nat) :
  (clearLatencies s).reg q_ j_ = s.reg q_ j_ :=
  (keeps_clearLatencies (closed_reg _ _ _ h_ _) _ (fun _ h => h) ⟨rfl⟩).out
theorem clearLatencies_mem (s : State) (h_ : touchClearLatencies none = false) : (clearLatencies s).mem = s.mem :=
  (keeps_clearLatencies (closed_mem _ _ h_) _ (fun _ h => h) ⟨rfl⟩).out

theorem moveWindow_reg (s : State) (c : Nat) (q_ : Reg) (h_ : touchMoveWindow (some q_) = false) (j_ : Nat) :
  (State.moveWindow s c).reg q_ j_ = s.reg q_ j_ :=
  (keeps_moveWindow (closed_reg _ _ _ h_ _) _ _ (fun _ h => h) ⟨rfl⟩).out
theorem moveWindow_mem (s : State) (c : Nat) (h_ : touchMoveWindow none = false) : (State.moveWindow s c).mem =
  s.mem :=
  (keeps_moveWindow (closed_mem _ _ h_) _ _ (fun _ h => h) ⟨rfl⟩).out

theorem setTai_reg (s : State) (v : Nat) (q_ : Reg) (h_ : touchSetTai (some q_) = false) (j_ : Nat) : (State.setTai
  s v).reg q_ j_ = s.reg q_ j_ :=
  (keeps_setTai (closed_reg _ _ _ h_ _) _ _ (fun _ h => h) ⟨rfl⟩).out
theorem setTai_mem (s : State) (v : Nat) (h_ : touchSetTai none = false) : (State.setTai s v).mem = s.mem :=
  (keeps_setTai (closed_mem _ _ h_) _ _ (fun _ h => h) ⟨rfl⟩).out

theorem foldSlew_reg (s : State) (q_ : Reg) (h_ : touchFoldSlew (some q_) = false) (j_ : Nat) : (State.foldSlew
  s).reg q_ j_ = s.reg q_ j_ :=
  (keeps_foldSlew (closed_reg _ _ _ h_ _) _ (fun _ h => h) ⟨rfl⟩).out
theorem foldSlew_mem (s : State) (h_ : touchFoldSlew none = false) : (State.foldSlew s).mem = s.mem :=
  (keeps_foldSlew (closed_mem _ _ h_) _ (fun _ h => h) ⟨rfl⟩).out

theorem steer_reg (s : State) (d : Int) (atLock : Bool) (q_ : Reg) (h_ : touchSteer (some q_) = false) (j_ : Nat) :
  (State.steer s d atLock).reg q_ j_ = s.reg q_ j_ :=
  (keeps_steer (closed_reg _ _ _ h_ _) _ _ _ (fun _ h => h) ⟨rfl⟩).out
theorem steer_mem (s : State) (d : Int) (atLock : Bool) (h_ : touchSteer none = false) : (State.steer s d
  atLock).mem = s.mem :=
  (keeps_steer (closed_mem _ _ h_) _ _ _ (fun _ h => h) ⟨rfl⟩).out

theorem lockTai_reg (s : State) (d : Int) (code : Nat) (q_ : Reg) (h_ : touchLockTai (some q_) = false) (j_ : Nat) :
  (State.lockTai s d code).reg q_ j_ = s.reg q_ j_ :=
  (keeps_lockTai (closed_reg _ _ _ h_ _) _ _ _ (fun _ h => h) ⟨rfl⟩).out
theorem lockTai_mem (s : State) (d : Int) (code : Nat) (h_ : touchLockTai none = false) : (State.lockTai s d
  code).mem = s.mem :=
  (keeps_lockTai (closed_mem _ _ h_) _ _ _ (fun _ h => h) ⟨rfl⟩).out

theorem restartPtp_reg (s : State) (q_ : Reg) (h_ : touchRestartPtp (some q_) = false) (j_ : Nat) :
  (State.restartPtp s).reg q_ j_ = s.reg q_ j_ :=
  (keeps_restartPtp (closed_reg _ _ _ h_ _) _ (fun _ h => h) ⟨rfl⟩).out
theorem restartPtp_mem (s : State) (h_ : touchRestartPtp none = false) : (State.restartPtp s).mem = s.mem :=
  (keeps_restartPtp (closed_mem _ _ h_) _ (fun _ h => h) ⟨rfl⟩).out

theorem taiSetEffect_reg (s : State) (q_ : Reg) (h_ : touchTaiSetEffect (some q_) = false) (j_ : Nat) :
  (taiSetEffect s).reg q_ j_ = s.reg q_ j_ :=
  (keeps_taiSetEffect (closed_reg _ _ _ h_ _) _ (fun _ h => h) ⟨rfl⟩).out
theorem taiSetEffect_mem (s : State) (h_ : touchTaiSetEffect none = false) : (taiSetEffect s).mem = s.mem :=
  (keeps_taiSetEffect (closed_mem _ _ h_) _ (fun _ h => h) ⟨rfl⟩).out

theorem periphEffect_reg (s : State) (q_ : Reg) (h_ : touchPeriphEffect (some q_) = false) (j_ : Nat) :
  (periphEffect s).reg q_ j_ = s.reg q_ j_ :=
  (keeps_periphEffect (closed_reg _ _ _ h_ _) _ (fun _ h => h) ⟨rfl⟩).out
theorem periphEffect_mem (s : State) (h_ : touchPeriphEffect none = false) : (periphEffect s).mem = s.mem :=
  (keeps_periphEffect (closed_mem _ _ h_) _ (fun _ h => h) ⟨rfl⟩).out

theorem setIpv4_reg (s : State) (addr mask gateway : Nat) (q_ : Reg) (h_ : touchSetIpv4 (some q_) = false) (j_ :
  Nat) : (State.setIpv4 s addr mask gateway).reg q_ j_ = s.reg q_ j_ :=
  (keeps_setIpv4 (closed_reg _ _ _ h_ _) _ _ _ _ (fun _ h => h) ⟨rfl⟩).out
theorem setIpv4_mem (s : State) (addr mask gateway : Nat) (h_ : touchSetIpv4 none = false) : (State.setIpv4 s addr
  mask gateway).mem = s.mem :=
  (keeps_setIpv4 (closed_mem _ _ h_) _ _ _ _ (fun _ h => h) ⟨rfl⟩).out

theorem takeIpv4_reg (s : State) (q_ : Reg) (h_ : touchTakeIpv4 (some q_) = false) (j_ : Nat) : (State.takeIpv4
  s).reg q_ j_ = s.reg q_ j_ :=
  (keeps_takeIpv4 (closed_reg _ _ _ h_ _) _ (fun _ h => h) ⟨rfl⟩).out
theorem takeIpv4_mem (s : State) (h_ : touchTakeIpv4 none = false) : (State.takeIpv4 s).mem = s.mem :=
  (keeps_takeIpv4 (closed_mem _ _ h_) _ (fun _ h => h) ⟨rfl⟩).out

theorem mgmtEffect_reg (s : State) (q_ : Reg) (h_ : touchMgmtEffect (some q_) = false) (j_ : Nat) : (mgmtEffect
  s).reg q_ j_ = s.reg q_ j_ :=
  (keeps_mgmtEffect (closed_reg _ _ _ h_ _) _ (fun _ h => h) ⟨rfl⟩).out
theorem mgmtEffect_mem (s : State) (h_ : touchMgmtEffect none = false) : (mgmtEffect s).mem = s.mem :=
  (keeps_mgmtEffect (closed_mem _ _ h_) _ (fun _ h => h) ⟨rfl⟩).out

theorem startPairs_reg (s : State) (f : StageFacts) (q_ : Reg) (h_ : touchStartPairs (some q_) = false) (j_ : Nat) :
  (State.startPairs s f).reg q_ j_ = s.reg q_ j_ :=
  (keeps_startPairs (closed_reg _ _ _ h_ _) _ _ (fun _ h => h) ⟨rfl⟩).out
theorem startPairs_mem (s : State) (f : StageFacts) (h_ : touchStartPairs none = false) : (State.startPairs s f).mem
  = s.mem :=
  (keeps_startPairs (closed_mem _ _ h_) _ _ (fun _ h => h) ⟨rfl⟩).out

theorem lockPll_reg (s : State) (f : StageFacts) (k : Nat) (q_ : Reg) (h_ : touchLockPll (some q_) = false) (j_ :
  Nat) : (State.lockPll s f k).reg q_ j_ = s.reg q_ j_ :=
  (keeps_lockPll (closed_reg _ _ _ h_ _) _ _ _ (fun _ h => h) ⟨rfl⟩).out
theorem lockPll_mem (s : State) (f : StageFacts) (k : Nat) (h_ : touchLockPll none = false) : (State.lockPll s f
  k).mem = s.mem :=
  (keeps_lockPll (closed_mem _ _ h_) _ _ _ (fun _ h => h) ⟨rfl⟩).out

theorem runImage_reg (s : State) (img : Fin 2) (q_ : Reg) (h_ : touchRunImage (some q_) = false) (j_ : Nat) :
  (State.runImage s img).reg q_ j_ = s.reg q_ j_ :=
  (keeps_runImage (closed_reg _ _ _ h_ _) _ _ (fun _ h => h) ⟨rfl⟩).out
theorem runImage_mem (s : State) (img : Fin 2) (h_ : touchRunImage none = false) : (State.runImage s img).mem =
  s.mem :=
  (keeps_runImage (closed_mem _ _ h_) _ _ (fun _ h => h) ⟨rfl⟩).out

theorem initStage1_reg (s : State) (f : StageFacts) (q_ : Reg) (h_ : touchInitStage1 (some q_) = false) (j_ : Nat) :
  (State.initStage1 s f).reg q_ j_ = s.reg q_ j_ :=
  (keeps_initStage1 (closed_reg _ _ _ h_ _) _ _ (fun _ h => h) ⟨rfl⟩).out
theorem initStage1_mem (s : State) (f : StageFacts) (h_ : touchInitStage1 none = false) : (State.initStage1 s f).mem
  = s.mem :=
  (keeps_initStage1 (closed_mem _ _ h_) _ _ (fun _ h => h) ⟨rfl⟩).out

theorem failSegment_reg (s : State) (b : Fin 23) (g : Nat) (q_ : Reg) (h_ : touchFailSegment (some q_) = false) (j_
  : Nat) : (State.failSegment s b g).reg q_ j_ = s.reg q_ j_ :=
  (keeps_failSegment (closed_reg _ _ _ h_ _) _ _ _ (fun _ h => h) ⟨rfl⟩).out
theorem failSegment_mem (s : State) (b : Fin 23) (g : Nat) (h_ : touchFailSegment none = false) : (State.failSegment
  s b g).mem = s.mem :=
  (keeps_failSegment (closed_mem _ _ h_) _ _ _ (fun _ h => h) ⟨rfl⟩).out

theorem initStage2_reg (s : State) (f : StageFacts) (q_ : Reg) (h_ : touchInitStage2 (some q_) = false) (j_ : Nat) :
  (State.initStage2 s f).reg q_ j_ = s.reg q_ j_ :=
  (keeps_initStage2 (closed_reg _ _ _ h_ _) _ _ (fun _ h => h) ⟨rfl⟩).out
theorem initStage2_mem (s : State) (f : StageFacts) (h_ : touchInitStage2 none = false) : (State.initStage2 s f).mem
  = s.mem :=
  (keeps_initStage2 (closed_mem _ _ h_) _ _ (fun _ h => h) ⟨rfl⟩).out

theorem closeEntry_reg (s : State) (f : StageFacts) (k : Nat) (q_ : Reg) (h_ : touchCloseEntry (some q_) = false)
  (j_ : Nat) : (State.closeEntry s f k).reg q_ j_ = s.reg q_ j_ :=
  (keeps_closeEntry (closed_reg _ _ _ h_ _) _ _ _ (fun _ h => h) ⟨rfl⟩).out
theorem closeEntry_mem (s : State) (f : StageFacts) (k : Nat) (h_ : touchCloseEntry none = false) :
  (State.closeEntry s f k).mem = s.mem :=
  (keeps_closeEntry (closed_mem _ _ h_) _ _ _ (fun _ h => h) ⟨rfl⟩).out

theorem readJournals_reg (s : State) (f : StageFacts) (q_ : Reg) (h_ : touchReadJournals (some q_) = false) (j_ :
  Nat) : (State.readJournals s f).reg q_ j_ = s.reg q_ j_ :=
  (keeps_readJournals (closed_reg _ _ _ h_ _) _ _ (fun _ h => h) ⟨rfl⟩).out
theorem readJournals_mem (s : State) (f : StageFacts) (h_ : touchReadJournals none = false) : (State.readJournals s
  f).mem = s.mem :=
  (keeps_readJournals (closed_mem _ _ h_) _ _ (fun _ h => h) ⟨rfl⟩).out

theorem initChannel_reg (s : State) (ch : Nat) (r : PatternResult) (q_ : Reg) (h_ : touchInitChannel (some q_) =
  false) (j_ : Nat) : (State.initChannel s ch r).reg q_ j_ = s.reg q_ j_ :=
  (keeps_initChannel (closed_reg _ _ _ h_ _) _ _ _ (fun _ h => h) ⟨rfl⟩).out
theorem initChannel_mem (s : State) (ch : Nat) (r : PatternResult) (h_ : touchInitChannel none = false) :
  (State.initChannel s ch r).mem = s.mem :=
  (keeps_initChannel (closed_mem _ _ h_) _ _ _ (fun _ h => h) ⟨rfl⟩).out

theorem takeSpareSlice_reg (s : State) (die : Nat) (q_ : Reg) (h_ : touchTakeSpareSlice (some q_) = false) (j_ :
  Nat) : (State.takeSpareSlice s die).reg q_ j_ = s.reg q_ j_ :=
  (keeps_takeSpareSlice (closed_reg _ _ _ h_ _) _ _ (fun _ h => h) ⟨rfl⟩).out
theorem takeSpareSlice_mem (s : State) (die : Nat) (h_ : touchTakeSpareSlice none = false) : (State.takeSpareSlice s
  die).mem = s.mem :=
  (keeps_takeSpareSlice (closed_mem _ _ h_) _ _ (fun _ h => h) ⟨rfl⟩).out

theorem initSlice_reg (s : State) (die phys : Nat) (q_ : Reg) (h_ : touchInitSlice (some q_) = false) (j_ : Nat) :
  (State.initSlice s die phys).reg q_ j_ = s.reg q_ j_ :=
  (keeps_initSlice (closed_reg _ _ _ h_ _) _ _ _ (fun _ h => h) ⟨rfl⟩).out
theorem initSlice_mem (s : State) (die phys : Nat) (h_ : touchInitSlice none = false) : (State.initSlice s die
  phys).mem = s.mem :=
  (keeps_initSlice (closed_mem _ _ h_) _ _ _ (fun _ h => h) ⟨rfl⟩).out

theorem checkSlots_reg (s : State) (f : StageFacts) (q_ : Reg) (h_ : touchCheckSlots (some q_) = false) (j_ : Nat) :
  (State.checkSlots s f).reg q_ j_ = s.reg q_ j_ :=
  (keeps_checkSlots (closed_reg _ _ _ h_ _) _ _ (fun _ h => h) ⟨rfl⟩).out
theorem checkSlots_mem (s : State) (f : StageFacts) (h_ : touchCheckSlots none = false) : (State.checkSlots s f).mem
  = s.mem :=
  (keeps_checkSlots (closed_mem _ _ h_) _ _ (fun _ h => h) ⟨rfl⟩).out

theorem initStage3_reg (s : State) (f : StageFacts) (q_ : Reg) (h_ : touchInitStage3 (some q_) = false) (j_ : Nat) :
  (State.initStage3 s f).reg q_ j_ = s.reg q_ j_ :=
  (keeps_initStage3 (closed_reg _ _ _ h_ _) _ _ (fun _ h => h) ⟨rfl⟩).out
theorem initStage3_mem (s : State) (f : StageFacts) (h_ : touchInitStage3 none = false) : (State.initStage3 s f).mem
  = s.mem :=
  (keeps_initStage3 (closed_mem _ _ h_) _ _ (fun _ h => h) ⟨rfl⟩).out

theorem initBay_reg (s : State) (die phys : Nat) (q_ : Reg) (h_ : touchInitBay (some q_) = false) (j_ : Nat) :
  (State.initBay s die phys).reg q_ j_ = s.reg q_ j_ :=
  (keeps_initBay (closed_reg _ _ _ h_ _) _ _ _ (fun _ h => h) ⟨rfl⟩).out
theorem initBay_mem (s : State) (die phys : Nat) (h_ : touchInitBay none = false) : (State.initBay s die phys).mem =
  s.mem :=
  (keeps_initBay (closed_mem _ _ h_) _ _ _ (fun _ h => h) ⟨rfl⟩).out

theorem initCore_reg (s : State) (core : Nat) (q_ : Reg) (h_ : touchInitCore (some q_) = false) (j_ : Nat) :
  (State.initCore s core).reg q_ j_ = s.reg q_ j_ :=
  (keeps_initCore (closed_reg _ _ _ h_ _) _ _ (fun _ h => h) ⟨rfl⟩).out
theorem initCore_mem (s : State) (core : Nat) (h_ : touchInitCore none = false) : (State.initCore s core).mem =
  s.mem :=
  (keeps_initCore (closed_mem _ _ h_) _ _ (fun _ h => h) ⟨rfl⟩).out

theorem placeHarts_reg (s : State) (q_ : Reg) (h_ : touchPlaceHarts (some q_) = false) (j_ : Nat) :
  (State.placeHarts s).reg q_ j_ = s.reg q_ j_ :=
  (keeps_placeHarts (closed_reg _ _ _ h_ _) _ (fun _ h => h) ⟨rfl⟩).out
theorem placeHarts_mem (s : State) (h_ : touchPlaceHarts none = false) : (State.placeHarts s).mem = s.mem :=
  (keeps_placeHarts (closed_mem _ _ h_) _ (fun _ h => h) ⟨rfl⟩).out

theorem initStage4_reg (s : State) (f : StageFacts) (q_ : Reg) (h_ : touchInitStage4 (some q_) = false) (j_ : Nat) :
  (State.initStage4 s f).reg q_ j_ = s.reg q_ j_ :=
  (keeps_initStage4 (closed_reg _ _ _ h_ _) _ _ (fun _ h => h) ⟨rfl⟩).out
theorem initStage4_mem (s : State) (f : StageFacts) (h_ : touchInitStage4 none = false) : (State.initStage4 s f).mem
  = s.mem :=
  (keeps_initStage4 (closed_mem _ _ h_) _ _ (fun _ h => h) ⟨rfl⟩).out

theorem initStage5_reg (s : State) (q_ : Reg) (h_ : touchInitStage5 (some q_) = false) (j_ : Nat) :
  (State.initStage5 s).reg q_ j_ = s.reg q_ j_ :=
  (keeps_initStage5 (closed_reg _ _ _ h_ _) _ (fun _ h => h) ⟨rfl⟩).out
theorem initStage5_mem (s : State) (h_ : touchInitStage5 none = false) : (State.initStage5 s).mem = s.mem :=
  (keeps_initStage5 (closed_mem _ _ h_) _ (fun _ h => h) ⟨rfl⟩).out

theorem initStage6_reg (s : State) (f : StageFacts) (q_ : Reg) (h_ : touchInitStage6 (some q_) = false) (j_ : Nat) :
  (State.initStage6 s f).reg q_ j_ = s.reg q_ j_ :=
  (keeps_initStage6 (closed_reg _ _ _ h_ _) _ _ (fun _ h => h) ⟨rfl⟩).out
theorem initStage6_mem (s : State) (f : StageFacts) (h_ : touchInitStage6 none = false) : (State.initStage6 s f).mem
  = s.mem :=
  (keeps_initStage6 (closed_mem _ _ h_) _ _ (fun _ h => h) ⟨rfl⟩).out

theorem serveRead_reg (s : State) (q : Requester) (addr off len : Nat) (q_ : Reg) (h_ : touchServeRead (some q_) =
  false) (j_ : Nat) : (State.serveRead s q addr off len).2.2.reg q_ j_ = s.reg q_ j_ :=
  (keeps_serveRead (closed_reg _ _ _ h_ _) _ _ _ _ _ (fun _ h => h) ⟨rfl⟩).out
theorem serveRead_mem (s : State) (q : Requester) (addr off len : Nat) (h_ : touchServeRead none = false) :
  (State.serveRead s q addr off len).2.2.mem = s.mem :=
  (keeps_serveRead (closed_mem _ _ h_) _ _ _ _ _ (fun _ h => h) ⟨rfl⟩).out

theorem clampClocks_reg (s : State) (q_ : Reg) (h_ : touchClampClocks (some q_) = false) (j_ : Nat) :
  (State.clampClocks s).reg q_ j_ = s.reg q_ j_ :=
  (keeps_clampClocks (closed_reg _ _ _ h_ _) _ (fun _ h => h) ⟨rfl⟩).out
theorem clampClocks_mem (s : State) (h_ : touchClampClocks none = false) : (State.clampClocks s).mem = s.mem :=
  (keeps_clampClocks (closed_mem _ _ h_) _ (fun _ h => h) ⟨rfl⟩).out

theorem ackHost_reg (s : State) (q_ : Reg) (h_ : touchAckHost (some q_) = false) (j_ : Nat) : (ackHost s).reg q_ j_
  = s.reg q_ j_ :=
  (keeps_ackHost (closed_reg _ _ _ h_ _) _ (fun _ h => h) ⟨rfl⟩).out
theorem ackHost_mem (s : State) (h_ : touchAckHost none = false) : (ackHost s).mem = s.mem :=
  (keeps_ackHost (closed_mem _ _ h_) _ (fun _ h => h) ⟨rfl⟩).out

theorem holdHost_reg (s : State) (q_ : Reg) (h_ : touchHoldHost (some q_) = false) (j_ : Nat) : (holdHost s).reg q_
  j_ = s.reg q_ j_ :=
  (keeps_holdHost (closed_reg _ _ _ h_ _) _ (fun _ h => h) ⟨rfl⟩).out
theorem holdHost_mem (s : State) (h_ : touchHoldHost none = false) : (holdHost s).mem = s.mem :=
  (keeps_holdHost (closed_mem _ _ h_) _ (fun _ h => h) ⟨rfl⟩).out

theorem writeAny_reg (s : State) (q : Requester) (addr : Nat) (bs : List Byte) (peers : Option Half) (q_ : Reg) (h_
  : touchWriteAny (some q_) = false) (j_ : Nat) : (State.writeAny s q addr bs peers).2.reg q_ j_ = s.reg q_ j_ :=
  (keeps_writeAny (closed_reg _ _ _ h_ _) _ _ _ _ _ (fun _ h => h) ⟨rfl⟩).out
theorem writeAny_mem (s : State) (q : Requester) (addr : Nat) (bs : List Byte) (peers : Option Half) (h_ :
  touchWriteAny none = false) : (State.writeAny s q addr bs peers).2.mem = s.mem :=
  (keeps_writeAny (closed_mem _ _ h_) _ _ _ _ _ (fun _ h => h) ⟨rfl⟩).out

@[simp] theorem dropAssemblies_reg (s : State) (q : Requester) (q_ : Reg) (j_ : Nat) : (State.dropAssemblies s
  q).reg q_ j_ = s.reg q_ j_ :=
  (keeps_dropAssemblies (closed_reg (fun _ => false) _ _ rfl _) _ _ ⟨rfl⟩).out
@[simp] theorem dropAssemblies_mem (s : State) (q : Requester) : (State.dropAssemblies s q).mem = s.mem :=
  (keeps_dropAssemblies (closed_mem (fun _ => false) _ rfl) _ _ ⟨rfl⟩).out

theorem writePiece_reg (s : State) (q : Requester) (addr off : Nat) (bs : List Byte) (peers : Option Half) (q_ :
  Reg) (h_ : touchWritePiece (some q_) = false) (j_ : Nat) : (State.writePiece s q addr off bs peers).2.reg q_ j_ =
  s.reg q_ j_ :=
  (keeps_writePiece (closed_reg _ _ _ h_ _) _ _ _ _ _ _ (fun _ h => h) ⟨rfl⟩).out
theorem writePiece_mem (s : State) (q : Requester) (addr off : Nat) (bs : List Byte) (peers : Option Half) (h_ :
  touchWritePiece none = false) : (State.writePiece s q addr off bs peers).2.mem = s.mem :=
  (keeps_writePiece (closed_mem _ _ h_) _ _ _ _ _ _ (fun _ h => h) ⟨rfl⟩).out

theorem endSession_reg (s : State) (p : Port) (id : Nat) (q_ : Reg) (h_ : touchEndSession (some q_) = false) (j_ :
  Nat) : (State.endSession s p id).reg q_ j_ = s.reg q_ j_ :=
  (keeps_endSession (closed_reg _ _ _ h_ _) _ _ _ (fun _ h => h) ⟨rfl⟩).out
theorem endSession_mem (s : State) (p : Port) (id : Nat) (h_ : touchEndSession none = false) : (State.endSession s p
  id).mem = s.mem :=
  (keeps_endSession (closed_mem _ _ h_) _ _ _ (fun _ h => h) ⟨rfl⟩).out

theorem sign_reg (s : State) (q_ : Reg) (h_ : touchSign (some q_) = false) (j_ : Nat) : (State.sign s).2.reg q_ j_ =
  s.reg q_ j_ :=
  (keeps_sign (closed_reg _ _ _ h_ _) _ (fun _ h => h) ⟨rfl⟩).out
theorem sign_mem (s : State) (h_ : touchSign none = false) : (State.sign s).2.mem = s.mem :=
  (keeps_sign (closed_mem _ _ h_) _ (fun _ h => h) ⟨rfl⟩).out

theorem spdm_reg (s : State) (q : Requester) (m : SpdmRequest) (q_ : Reg) (h_ : touchSpdm (some q_) = false) (j_ :
  Nat) : (State.spdm s q m).2.reg q_ j_ = s.reg q_ j_ :=
  (keeps_spdm (closed_reg _ _ _ h_ _) _ _ _ (fun _ h => h) ⟨rfl⟩).out
theorem spdm_mem (s : State) (q : Requester) (m : SpdmRequest) (h_ : touchSpdm none = false) : (State.spdm s q
  m).2.mem = s.mem :=
  (keeps_spdm (closed_mem _ _ h_) _ _ _ (fun _ h => h) ⟨rfl⟩).out

theorem serveSpdm_reg (s : State) (q : Requester) (m : SpdmRequest) (q_ : Reg) (h_ : touchServeSpdm (some q_) =
  false) (j_ : Nat) : (State.serveSpdm s q m).reg q_ j_ = s.reg q_ j_ :=
  (keeps_serveSpdm (closed_reg _ _ _ h_ _) _ _ _ (fun _ h => h) ⟨rfl⟩).out
theorem serveSpdm_mem (s : State) (q : Requester) (m : SpdmRequest) (h_ : touchServeSpdm none = false) :
  (State.serveSpdm s q m).mem = s.mem :=
  (keeps_serveSpdm (closed_mem _ _ h_) _ _ _ (fun _ h => h) ⟨rfl⟩).out

theorem setWindow_reg (s : State) (cmd : Nat) (addr : Nat) (offset len seq : Nat) (q_ : Reg) (h_ : touchSetWindow
  (some q_) = false) (j_ : Nat) : (State.setWindow s cmd addr offset len seq).reg q_ j_ = s.reg q_ j_ :=
  (keeps_setWindow (closed_reg _ _ _ h_ _) _ _ _ _ _ _ (fun _ h => h) ⟨rfl⟩).out
theorem setWindow_mem (s : State) (cmd : Nat) (addr : Nat) (offset len seq : Nat) (h_ : touchSetWindow none = false)
  : (State.setWindow s cmd addr offset len seq).mem = s.mem :=
  (keeps_setWindow (closed_mem _ _ h_) _ _ _ _ _ _ (fun _ h => h) ⟨rfl⟩).out

theorem windowDone_reg (s : State) (code : Nat) (q_ : Reg) (h_ : touchWindowDone (some q_) = false) (j_ : Nat) :
  (State.windowDone s code).reg q_ j_ = s.reg q_ j_ :=
  (keeps_windowDone (closed_reg _ _ _ h_ _) _ _ (fun _ h => h) ⟨rfl⟩).out
theorem windowDone_mem (s : State) (code : Nat) (h_ : touchWindowDone none = false) : (State.windowDone s code).mem
  = s.mem :=
  (keeps_windowDone (closed_mem _ _ h_) _ _ (fun _ h => h) ⟨rfl⟩).out

theorem reply_reg (s : State) (q : Requester) (rseq : Nat) (o : Output) (q_ : Reg) (h_ : touchReply (some q_) =
  false) (j_ : Nat) : (State.reply s q rseq o).reg q_ j_ = s.reg q_ j_ :=
  (keeps_reply (closed_reg _ _ _ h_ _) _ _ _ _ (fun _ h => h) ⟨rfl⟩).out
theorem reply_mem (s : State) (q : Requester) (rseq : Nat) (o : Output) (h_ : touchReply none = false) :
  (State.reply s q rseq o).mem = s.mem :=
  (keeps_reply (closed_mem _ _ h_) _ _ _ _ (fun _ h => h) ⟨rfl⟩).out

@[simp] theorem openSample_reg (s : State) (q : Requester) (objects : List Nat) (periodUs : Nat) (q_ : Reg) (j_ :
  Nat) : (State.openSample s q objects periodUs).2.2.reg q_ j_ = s.reg q_ j_ :=
  (keeps_openSample (closed_reg (fun _ => false) _ _ rfl _) _ _ _ _ ⟨rfl⟩).out
@[simp] theorem openSample_mem (s : State) (q : Requester) (objects : List Nat) (periodUs : Nat) : (State.openSample
  s q objects periodUs).2.2.mem = s.mem :=
  (keeps_openSample (closed_mem (fun _ => false) _ rfl) _ _ _ _ ⟨rfl⟩).out

@[simp] theorem openAudit_reg (s : State) (q : Requester) (start : Nat) (hold : Bool) (q_ : Reg) (j_ : Nat) :
  (State.openAudit s q start hold).2.2.reg q_ j_ = s.reg q_ j_ :=
  (keeps_openAudit (closed_reg (fun _ => false) _ _ rfl _) _ _ _ _ ⟨rfl⟩).out
@[simp] theorem openAudit_mem (s : State) (q : Requester) (start : Nat) (hold : Bool) : (State.openAudit s q start
  hold).2.2.mem = s.mem :=
  (keeps_openAudit (closed_mem (fun _ => false) _ rfl) _ _ _ _ ⟨rfl⟩).out

theorem ackSubs_reg (s : State) (q : Requester) (seq : Nat) (q_ : Reg) (h_ : touchAckSubs (some q_) = false) (j_ :
  Nat) : (State.ackSubs s q seq).2.2.reg q_ j_ = s.reg q_ j_ :=
  (keeps_ackSubs (closed_reg _ _ _ h_ _) _ _ _ (fun _ h => h) ⟨rfl⟩).out
theorem ackSubs_mem (s : State) (q : Requester) (seq : Nat) (h_ : touchAckSubs none = false) : (State.ackSubs s q
  seq).2.2.mem = s.mem :=
  (keeps_ackSubs (closed_mem _ _ h_) _ _ _ (fun _ h => h) ⟨rfl⟩).out

theorem closeSub_reg (s : State) (q : Requester) (n : Nat) (q_ : Reg) (h_ : touchCloseSub (some q_) = false) (j_ :
  Nat) : (State.closeSub s q n).2.2.reg q_ j_ = s.reg q_ j_ :=
  (keeps_closeSub (closed_reg _ _ _ h_ _) _ _ _ (fun _ h => h) ⟨rfl⟩).out
theorem closeSub_mem (s : State) (q : Requester) (n : Nat) (h_ : touchCloseSub none = false) : (State.closeSub s q
  n).2.2.mem = s.mem :=
  (keeps_closeSub (closed_mem _ _ h_) _ _ _ (fun _ h => h) ⟨rfl⟩).out

theorem jp2Body_reg (s : State) (q : Requester) (obj off : Nat) (b : Jp2Body) (peers : Option Half) (q_ : Reg) (h_ :
  touchJp2Body (some q_) = false) (j_ : Nat) : (State.jp2Body s q obj off b peers).2.2.2.reg q_ j_ = s.reg q_ j_ :=
  (keeps_jp2Body (closed_reg _ _ _ h_ _) _ _ _ _ _ _ (fun _ h => h) ⟨rfl⟩).out
theorem jp2Body_mem (s : State) (q : Requester) (obj off : Nat) (b : Jp2Body) (peers : Option Half) (h_ :
  touchJp2Body none = false) : (State.jp2Body s q obj off b peers).2.2.2.mem = s.mem :=
  (keeps_jp2Body (closed_mem _ _ h_) _ _ _ _ _ _ (fun _ h => h) ⟨rfl⟩).out

theorem serveJp2_reg (s : State) (q : Requester) (rseq obj off : Nat) (b : Jp2Body) (peers : Option Half) (q_ : Reg)
  (h_ : touchServeJp2 (some q_) = false) (j_ : Nat) : (State.serveJp2 s q rseq obj off b peers).reg q_ j_ = s.reg q_
  j_ :=
  (keeps_serveJp2 (closed_reg _ _ _ h_ _) _ _ _ _ _ _ _ (fun _ h => h) ⟨rfl⟩).out
theorem serveJp2_mem (s : State) (q : Requester) (rseq obj off : Nat) (b : Jp2Body) (peers : Option Half) (h_ :
  touchServeJp2 none = false) : (State.serveJp2 s q rseq obj off b peers).mem = s.mem :=
  (keeps_serveJp2 (closed_mem _ _ h_) _ _ _ _ _ _ _ (fun _ h => h) ⟨rfl⟩).out

theorem refuseAuth_reg (s : State) (q : Requester) (rseq obj off : Nat) (q_ : Reg) (h_ : touchRefuseAuth (some q_) =
  false) (j_ : Nat) : (State.refuseAuth s q rseq obj off).reg q_ j_ = s.reg q_ j_ :=
  (keeps_refuseAuth (closed_reg _ _ _ h_ _) _ _ _ _ _ (fun _ h => h) ⟨rfl⟩).out
theorem refuseAuth_mem (s : State) (q : Requester) (rseq obj off : Nat) (h_ : touchRefuseAuth none = false) :
  (State.refuseAuth s q rseq obj off).mem = s.mem :=
  (keeps_refuseAuth (closed_mem _ _ h_) _ _ _ _ _ (fun _ h => h) ⟨rfl⟩).out

theorem plainJp2_reg (s : State) (q : Requester) (rseq obj off : Nat) (b : Jp2Body) (peers : Option Half) (q_ : Reg)
  (h_ : touchPlainJp2 (some q_) = false) (j_ : Nat) : (State.plainJp2 s q rseq obj off b peers).reg q_ j_ = s.reg q_
  j_ :=
  (keeps_plainJp2 (closed_reg _ _ _ h_ _) _ _ _ _ _ _ _ (fun _ h => h) ⟨rfl⟩).out
theorem plainJp2_mem (s : State) (q : Requester) (rseq obj off : Nat) (b : Jp2Body) (peers : Option Half) (h_ :
  touchPlainJp2 none = false) : (State.plainJp2 s q rseq obj off b peers).mem = s.mem :=
  (keeps_plainJp2 (closed_mem _ _ h_) _ _ _ _ _ _ _ (fun _ h => h) ⟨rfl⟩).out

theorem securedJp2_reg (s : State) (q : Requester) (ok : Bool) (rseq obj off : Nat) (b : Jp2Body) (peers : Option
  Half) (q_ : Reg) (h_ : touchSecuredJp2 (some q_) = false) (j_ : Nat) : (State.securedJp2 s q ok rseq obj off b
  peers).reg q_ j_ = s.reg q_ j_ :=
  (keeps_securedJp2 (closed_reg _ _ _ h_ _) _ _ _ _ _ _ _ _ (fun _ h => h) ⟨rfl⟩).out
theorem securedJp2_mem (s : State) (q : Requester) (ok : Bool) (rseq obj off : Nat) (b : Jp2Body) (peers : Option
  Half) (h_ : touchSecuredJp2 none = false) : (State.securedJp2 s q ok rseq obj off b peers).mem = s.mem :=
  (keeps_securedJp2 (closed_mem _ _ h_) _ _ _ _ _ _ _ _ (fun _ h => h) ⟨rfl⟩).out

theorem jp1_reg (s : State) (q : Requester) (r : Jp1Request) (q_ : Reg) (h_ : touchJp1 (some q_) = false) (j_ : Nat)
  : (State.jp1 s q r).2.2.2.reg q_ j_ = s.reg q_ j_ :=
  (keeps_jp1 (closed_reg _ _ _ h_ _) _ _ _ (fun _ h => h) ⟨rfl⟩).out
theorem jp1_mem (s : State) (q : Requester) (r : Jp1Request) (h_ : touchJp1 none = false) : (State.jp1 s q
  r).2.2.2.mem = s.mem :=
  (keeps_jp1 (closed_mem _ _ h_) _ _ _ (fun _ h => h) ⟨rfl⟩).out

theorem jump_reg (s : State) (h : Nat) (target : Int) (f : Hart → Hart) (q_ : Reg) (h_ : touchJump (some q_) =
  false) (j_ : Nat) : (State.jump s h target f).reg q_ j_ = s.reg q_ j_ :=
  (keeps_jump (closed_reg _ _ _ h_ _) _ _ _ _ (fun _ h => h) ⟨rfl⟩).out
theorem jump_mem (s : State) (h : Nat) (target : Int) (f : Hart → Hart) (h_ : touchJump none = false) : (State.jump
  s h target f).mem = s.mem :=
  (keeps_jump (closed_mem _ _ h_) _ _ _ _ (fun _ h => h) ⟨rfl⟩).out

theorem svxWrite_reg (s : State) (h : Nat) (w : Bool) (vd : Nat) (r : Nat × Nat) (q_ : Reg) (h_ : touchSvxWrite
  (some q_) = false) (j_ : Nat) : (State.svxWrite s h w vd r).reg q_ j_ = s.reg q_ j_ :=
  (keeps_svxWrite (closed_reg _ _ _ h_ _) _ _ _ _ _ (fun _ h => h) ⟨rfl⟩).out
theorem svxWrite_mem (s : State) (h : Nat) (w : Bool) (vd : Nat) (r : Nat × Nat) (h_ : touchSvxWrite none = false) :
  (State.svxWrite s h w vd r).mem = s.mem :=
  (keeps_svxWrite (closed_mem _ _ h_) _ _ _ _ _ (fun _ h => h) ⟨rfl⟩).out

end Sys2Proof.Machine
end

