-- ==== Sys2Proof/Laws/Invariant.lean ====
section
/-! SUPPORT. What every command keeps: the queue is as it was, the register store and node memory are in canonical form, and
every register holds a value of its width. -/

namespace Sys2Proof.Machine

/-- The register store is in canonical form and every register listed holds a value of its width; node memory is in canonical
form; and the queue is `p`. -/
structure Kept (p : List Instr) (s : State) : Prop where
  queue : s.pending = p
  regs : Store.wf regLt regDflt s.regs = true
  width : ∀ e ∈ s.regs, e.2 < e.1.1.modulus
  mem : Memory.wf s.mem = true

variable {p : List Instr}

/-- Every primitive memory operation keeps the canonical form of memory. -/
theorem memory_wf_setByte (s : State) (a : Nat) (b : Byte) (h : Memory.wf s.mem = true) : Memory.wf (s.setByte a b).mem = true :=
  Store.wf_set natLt_strict _ _ h

theorem memory_wf_wipe (s : State) (lo hi : Nat) (h : Memory.wf s.mem = true) : Memory.wf (s.wipe lo hi).mem = true :=
  Store.wf_filter _ h

theorem memory_wf_putBytes (s : State) (a : Nat) (bs : List Byte) (h : Memory.wf s.mem = true) :
    Memory.wf (s.putBytes a bs).mem = true := by
  induction bs generalizing s a with
  | nil => exact h
  | cons b bs ih => exact ih _ _ (memory_wf_setByte _ _ _ h)

theorem Reg.modulus_pos (r : Reg) : 0 < r.modulus := Nat.pow_pos (by decide)

/-- Every primitive operation keeps the form. -/
theorem closed_kept (T : Option Reg → Bool) : Closed T (Kept p) where
  same s t h1 h2 h3 h := ⟨h1.trans h.queue, by rw [h2]; exact h.regs, by rw [h2]; exact h.width, by rw [h3]; exact h.mem⟩
  setReg s r i v _ h := ⟨h.queue, Store.wf_set regLt_strict _ _ h.regs, fun e he => by
    rcases Store.mem_set he with rfl | he
    · exact Nat.mod_lt _ (Reg.modulus_pos r)
    · exact h.width e he, h.mem⟩
  filterRegs s f _ h := ⟨h.queue, Store.wf_filter _ h.regs, fun e he => h.width e (List.mem_filter.1 he).1, h.mem⟩
  setByte s a b _ h := ⟨h.queue, h.regs, h.width, memory_wf_setByte s a b h.mem⟩
  wipe s lo hi _ h := ⟨h.queue, h.regs, h.width, memory_wf_wipe s lo hi h.mem⟩

/-- Every command keeps the form. -/
theorem kept_exec {i : Instr} {s t : State} (hs : Kept p s) (h : exec i s = .next t) : Kept p t :=
  ((keeps_exec i (closed_kept _) s ⟨hs⟩).out t h).out

end Sys2Proof.Machine
end

