-- ==== Sys2Proof/Laws/Records.lean ====
section
/-! SUPPORT. What an error record puts in the error log (R477 to R479). -/

namespace Sys2Proof.Machine

variable {l : List ErrorRecord} {u : State}

/-- The error log holds `l`. -/
def Log (l : List ErrorRecord) (u : State) : Prop := u.errorLog = l

theorem Log.logged {t : State} (h : Log l u) (h' : Logged u t) : Log l t := by
  obtain ⟨_, _, _, _, rfl⟩ := h'
  exact h

theorem Log.setReg {r : Reg} {i v : Nat} (h : Log l u) : Log l (u.setReg r i v) := h
theorem Log.addReg {r : Reg} {i v : Nat} (h : Log l u) : Log l (u.addReg r i v) := h
theorem Log.setBytes {r : Reg} {i : Nat} {bs : List Byte} (h : Log l u) : Log l (u.setBytes r i bs) :=
  h.logged (logged_setRegs ..)
theorem Log.change {r : Reg} {i v : Nat} (h : Log l u) : Log l (u.change r i v) := h.logged (logged_change ..)
theorem Log.send {o : Output} (h : Log l u) : Log l (u.send o) := h
theorem Log.putBytes {a : Nat} {bs : List Byte} (h : Log l u) : Log l (u.putBytes a bs) := by
  induction bs generalizing u a with
  | nil => exact h
  | cons b bs ih => exact ih (u := u.setByte a b) h
theorem Log.ite {c : Prop} [Decidable c] {a b : State} (ha : Log l a) (hb : Log l b) : Log l (if c then a else b) := by
  split
  · exact ha
  · exact hb

theorem Log.upd {l : List ErrorRecord} {u : State} (pending : List Instr) (now : Nat) (free : Nat) (regs : Store (Reg
    × Nat) Nat) (deferred : List ((Reg × Nat) × Nat)) (mem : List Host.Cell) (poisonAtoms : List Nat) (poisonWords :
    List Nat) (bays : Store Nat Bay) (tests : List SelfTest) (copies : List ModelCopy) (tailwind : List TailwindCopy)
    (recent : Store Nat Nat) (seqOut : Store Nat Nat) (seqIn : Store Nat Nat) (early : List (Nat × Packet)) (requests
    : List Request) (retry : List LinkFlits) (linkQueue : List LinkPacket) (flitNext : Store Nat Nat) (stuck : List
    (Nat × Packet)) (answered : List Packet) (refusals : List (Nat × Nat)) (hartReplies : List HartReply) (harts :
    Store Nat Hart) (stores : List HartStore) (reservations : List (Nat × Nat)) (pclks : Nat × Nat) (regions : List
    Region) (staged : List Staged) (closes : List (Nat × Nat)) (roundsEnded : List Nat) (raccIssue : Store Nat Nat)
    (fences : List (Nat × Nat)) (peerLinks : Store Nat Nat) (mails : List Mail) (mailNext : Store Nat Nat) (mailIn :
    List MailIn) (transit : List Packet) (colls : List Coll) (collDone : List (CollId × Bool)) (collHeld : List
    CollHeld) (chans : Store Nat Channel) (fills : List Nat) (narrow : List Narrow) (llm : Store Nat Nat) (corrections
    : List (Nat × Nat)) (chanQueue : List (Nat × ChanReq)) (chanStalled : List (Nat × ChanReq)) (narrowHeld : List
    Narrow) (sliceHeld : List (Nat × SliceReq)) (merging : List (Nat × List (Nat × Nat))) (moved : List Nat) (migrated
    : Nat) (spareMarks : List SpareMark) (remaps : List Remap) (remapping : List (Nat × Nat)) (mapoutWaits : List Nat)
    (journal : Store Nat Nat) (pulses : List Pulse) (softPpr : List (Nat × Nat)) (segments : Store Nat Nat) (slotA :
    Slot) (slotB : Slot) (shards : List Shard) (drains : List Drain) (recovery : Option Recovery) (jobEpochs : List
    Nat) (kept : List (Nat × Nat)) (keptFor : List (Nat × Nat × Nat)) (hostLines : List Nat) (waiting : List (Nat ×
    List Byte)) (xwMsg : Option XwPairing) (xwOwn : List XwStep) (xwTheirs : List (Nat × Nat)) (xwStreams : Option
    (Nat × List (Nat × Nat))) (xwDiff : Option XwDiff) (rung : List (Nat × List Byte)) (cmds : List HostCmd) (cqHeld :
    List Completion) (squallEvents : Store Nat (Nat × Nat)) (audit : List AuditEntry) (mirror : List AuditEntry)
    (sessions : List Session) (assemblies : List Assembly) (answers : List Answer) (subs : List Subscription) (frozen
    : Option SetView) (late : List (Nat × SetView)) (out : List Output) (h : Log l u) : Log l (State.mk pending now
    free regs deferred mem poisonAtoms poisonWords bays tests copies tailwind recent seqOut seqIn early requests retry
    linkQueue flitNext stuck answered refusals hartReplies harts stores reservations pclks regions staged closes
    roundsEnded raccIssue fences peerLinks mails mailNext mailIn transit colls collDone collHeld chans fills narrow
    llm corrections chanQueue chanStalled narrowHeld sliceHeld merging moved migrated spareMarks remaps remapping
    mapoutWaits journal pulses softPpr segments slotA slotB shards drains recovery jobEpochs kept keptFor hostLines
    waiting xwMsg xwOwn xwTheirs xwStreams xwDiff rung cmds cqHeld u.errorLog squallEvents audit mirror sessions
    assemblies answers subs frozen late out) := h

theorem Log.mk (pending : List Instr) (now : Nat) (free : Nat) (regs : Store (Reg × Nat) Nat) (deferred : List ((Reg ×
    Nat) × Nat)) (mem : List Host.Cell) (poisonAtoms : List Nat) (poisonWords : List Nat) (bays : Store Nat Bay)
    (tests : List SelfTest) (copies : List ModelCopy) (tailwind : List TailwindCopy) (recent : Store Nat Nat) (seqOut
    : Store Nat Nat) (seqIn : Store Nat Nat) (early : List (Nat × Packet)) (requests : List Request) (retry : List
    LinkFlits) (linkQueue : List LinkPacket) (flitNext : Store Nat Nat) (stuck : List (Nat × Packet)) (answered : List
    Packet) (refusals : List (Nat × Nat)) (hartReplies : List HartReply) (harts : Store Nat Hart) (stores : List
    HartStore) (reservations : List (Nat × Nat)) (pclks : Nat × Nat) (regions : List Region) (staged : List Staged)
    (closes : List (Nat × Nat)) (roundsEnded : List Nat) (raccIssue : Store Nat Nat) (fences : List (Nat × Nat))
    (peerLinks : Store Nat Nat) (mails : List Mail) (mailNext : Store Nat Nat) (mailIn : List MailIn) (transit : List
    Packet) (colls : List Coll) (collDone : List (CollId × Bool)) (collHeld : List CollHeld) (chans : Store Nat
    Channel) (fills : List Nat) (narrow : List Narrow) (llm : Store Nat Nat) (corrections : List (Nat × Nat))
    (chanQueue : List (Nat × ChanReq)) (chanStalled : List (Nat × ChanReq)) (narrowHeld : List Narrow) (sliceHeld :
    List (Nat × SliceReq)) (merging : List (Nat × List (Nat × Nat))) (moved : List Nat) (migrated : Nat) (spareMarks :
    List SpareMark) (remaps : List Remap) (remapping : List (Nat × Nat)) (mapoutWaits : List Nat) (journal : Store Nat
    Nat) (pulses : List Pulse) (softPpr : List (Nat × Nat)) (segments : Store Nat Nat) (slotA : Slot) (slotB : Slot)
    (shards : List Shard) (drains : List Drain) (recovery : Option Recovery) (jobEpochs : List Nat) (kept : List (Nat
    × Nat)) (keptFor : List (Nat × Nat × Nat)) (hostLines : List Nat) (waiting : List (Nat × List Byte)) (xwMsg :
    Option XwPairing) (xwOwn : List XwStep) (xwTheirs : List (Nat × Nat)) (xwStreams : Option (Nat × List (Nat ×
    Nat))) (xwDiff : Option XwDiff) (rung : List (Nat × List Byte)) (cmds : List HostCmd) (cqHeld : List Completion)
    (errorLog : List ErrorRecord) (squallEvents : Store Nat (Nat × Nat)) (audit : List AuditEntry) (mirror : List
    AuditEntry) (sessions : List Session) (assemblies : List Assembly) (answers : List Answer) (subs : List
    Subscription) (frozen : Option SetView) (late : List (Nat × SetView)) (out : List Output) : Log errorLog
    (State.mk pending now free regs deferred mem poisonAtoms poisonWords bays tests copies tailwind recent seqOut
    seqIn early requests retry linkQueue flitNext stuck answered refusals hartReplies harts stores reservations pclks
    regions staged closes roundsEnded raccIssue fences peerLinks mails mailNext mailIn transit colls collDone collHeld
    chans fills narrow llm corrections chanQueue chanStalled narrowHeld sliceHeld merging moved migrated spareMarks
    remaps remapping mapoutWaits journal pulses softPpr segments slotA slotB shards drains recovery jobEpochs kept
    keptFor hostLines waiting xwMsg xwOwn xwTheirs xwStreams xwDiff rung cmds cqHeld errorLog squallEvents audit
    mirror sessions assemblies answers subs frozen late out) := rfl

theorem Log.foldl {A : Type} {f : State → A → State} {xs : List A} {u : State} (h : Log l u)
    (hf : ∀ v x, Log l v → Log l (f v x)) : Log l (xs.foldl f u) := by
  induction xs generalizing u with
  | nil => exact h
  | cons x xs ih => exact ih (hf u x h)

theorem Log.copyBefore {x : Slot} {lo hi : Nat} (h : Log l u) : Log l (u.copyBefore x lo hi).1 := by
  exact copyBefore_induct (fun u i hu => hu.addReg) x lo hi h

theorem Log.noteMerge {lo hi : Nat} (h : Log l u) : Log l (u.noteMerge lo hi) := h

theorem Log.noteMoved {lo hi : Nat} (h : Log l u) : Log l (u.noteMoved lo hi) := by
  unfold State.noteMoved
  exact Log.ite h h

theorem Log.beforeWrite {lo hi : Nat} (h : Log l u) : Log l (u.beforeWrite lo hi) := by
  unfold State.beforeWrite
  dsimp only
  repeat' first
    | with_reducible exact h
    | with_reducible apply Log.ite
    | with_reducible apply Log.copyBefore
    | with_reducible apply Log.noteMoved
    | with_reducible apply Log.noteMerge
    | with_reducible apply Log.setReg
    | with_reducible apply Log.addReg
    | with_reducible apply Log.upd

theorem Log.write {a : Nat} {bs : List Byte} (h : Log l u) : Log l (u.write a bs) := by
  unfold State.write
  exact Log.putBytes h.beforeWrite

theorem Log.jobWrite {a : Nat} {bs : List Byte} (h : Log l u) : Log l (u.jobWrite a bs) := by
  unfold State.jobWrite
  exact Log.ite h.write h

theorem Log.trace {full : Bool} {bs : List Byte} (h : Log l u) : Log l (u.trace full bs) := by
  unfold State.trace
  dsimp only
  repeat' first
    | with_reducible exact h
    | with_reducible apply Log.ite
    | with_reducible apply Log.addReg
    | with_reducible apply Log.jobWrite

theorem Log.fire {src code step lbay : Nat} (h : Log l u) : Log l (u.fire src code step lbay) := by
  unfold State.fire State.draw
  dsimp only
  repeat' first
    | with_reducible exact h
    | with_reducible apply Log.ite
    | with_reducible apply Log.trace
    | with_reducible apply Log.setReg
    | with_reducible apply Log.addReg
    | with_reducible apply Log.setBytes
    | with_reducible apply Log.upd

theorem Log.squallWarns (h : Log l u) : Log l u.squallWarns := by
  unfold State.squallWarns State.raise
  dsimp only
  repeat' first
    | with_reducible exact h
    | with_reducible apply Log.ite
    | with_reducible apply Log.addReg
    | with_reducible apply Log.change
    | with_reducible apply Log.send

theorem Log.fires {c d : Prop} [Decidable c] [Decidable d] {a b k m : Nat} (h : Log l u) :
    Log l (if d then (if c then u.fire 1 a b k else u).fire 2 a b m else if c then u.fire 1 a b k else u) :=
  Log.ite (Log.fire (Log.ite (Log.fire h) h)) (Log.ite (Log.fire h) h)

theorem Log.alert {c : Prop} [Decidable c] {n v : Nat} (h : Log l u) :
    Log l (if c then ((u.setReg .lastAlertSeq 0 n).raise .alertCause 0).send (.interrupt v) else u) :=
  Log.ite (Log.change (Log.setReg h)) h

theorem squallWeigh_head (s : State) (e : ErrorEvent) : (s.squallWeigh e).2.reg .errorHead = s.reg .errorHead := by
  unfold State.squallWeigh
  dsimp only
  split <;> rfl

theorem logError_log (s : State) (e : ErrorEvent) (hu : s.supervisorUp = true) :
    ∃ l r, Log ((r :: l).take 4096) (s.logError e) ∧ r.seq = s.reg .errorHead + 1 ∧ r.code = e.code ∧
      r.severity = e.severity ∧ r.outcome = e.outcome ∧ r.unitKind = e.unitKind ∧ r.unit = e.unit := by
  refine ⟨?l, ?r, ?h, ?f⟩
  case h =>
    unfold State.logError
    simp only [hu, Bool.not_true, Bool.false_eq_true, ↓reduceIte]
    with_reducible apply Log.fires
    with_reducible apply Log.alert
    with_reducible apply Log.squallWarns
    with_reducible apply Log.addReg
    with_reducible apply Log.addReg
    with_reducible apply Log.addReg
    with_reducible apply Log.addReg
    with_reducible apply Log.ite
    · with_reducible apply Log.addReg
      with_reducible apply Log.setReg
      exact Log.mk ..
    · with_reducible apply Log.setReg
      exact Log.mk ..
  case f =>
    refine ⟨?_, rfl, rfl, rfl, rfl, rfl⟩
    refine congrArg (· + 1) ?_
    rw [State.reg_setReg_ne _ (by decide), State.reg_setReg_ne _ (by decide)]
    exact squallWeigh_head s e

/-- The error log holds the record of the event. -/
theorem records_logError (s : State) (e : ErrorEvent) :
    Records s (s.logError e) e.code e.severity e.outcome e.unitKind e.unit := by
  intro hu
  obtain ⟨l, r, h, h'⟩ := logError_log s e hu
  refine ⟨r, ?_, h'⟩
  rw [show (s.logError e).errorLog = (r :: l).take 4096 from h]
  simp [List.take]

end Sys2Proof.Machine
end

