-- ==== Sys2Proof/Laws/Effects.lean ====
section
/-! SUPPORT. What the operations of the commands do, for the statements: links, channels, the coupler, jobs, SVX, messages. -/

namespace Sys2Proof.Machine

theorem reg_ite {c : Prop} [Decidable c] (a b : State) (q : Reg) (j : Nat) :
    (if c then a else b).reg q j = if c then a.reg q j else b.reg q j := by split <;> rfl

theorem mem_ite {c : Prop} [Decidable c] (a b : State) : (if c then a else b).mem = if c then a.mem else b.mem := by
  split <;> rfl

theorem bay_ite {c : Prop} [Decidable c] (a b : State) (j : Nat) :
    (if c then a else b).bay j = if c then a.bay j else b.bay j := by split <;> rfl

theorem regsKept_ite {c : Prop} [Decidable c] (rs) (s a b : State) :
    RegsKept rs s (if c then a else b) ↔ if c then RegsKept rs s a else RegsKept rs s b := by split <;> rfl

theorem mem_foldl {A : Type} {f : State → A → State} (h : ∀ v x, (f v x).mem = v.mem) (l : List A) (s : State) :
    (l.foldl f s).mem = s.mem := by
  induction l generalizing s with
  | nil => rfl
  | cons x l ih => exact (ih _).trans (h s x)

theorem reg_appendAudit_head (s : State) (o g p r f : Nat) (a b : List Byte) :
    (s.appendAudit o g p r f a b).reg .auditHead 0 = (s.reg .auditHead + 1) % 2 ^ 64 := by
  unfold State.appendAudit
  dsimp only
  rw [pumpAudit_reg _ _ (by decide)]
  split
  · rw [addReg_reg _ _ _ _ _ (by decide)]; simp
  · simp

theorem records_of {s u : State} {e : ErrorEvent} (h1 : u.supervisorUp = s.supervisorUp) (h2 : u.reg .errorHead = s.reg .errorHead) :
    Records s (u.logError e) e.code e.severity e.outcome e.unitKind e.unit := by
  intro hu
  obtain h := records_logError u e (h1 ▸ hu)
  rw [h2] at h; exact h

theorem records_log {s t u : State} {a b c d e : Nat} (h : u.errorLog = t.errorLog) (hr : Records s t a b c d e) : Records s u a b c d e := by
  intro hu; rw [h]; exact hr hu

theorem sendEvents_same (s : State) (who : Requester) (seq : Nat) : ∃ o, s.sendEvents who seq = { s with out := o ++ s.out } := by
  have : ∀ (l : List (List AuditEntry)) (u : State), (∃ o, u = { s with out := o ++ s.out }) → ∃ o, l.foldl (fun (u : State) g => u.send (.jp2 who 0x23 0 0 0 0 (g.flatMap AuditEntry.bytes))) u = { s with out := o ++ s.out } := by
    intro l
    induction l with
    | nil => intro u h; exact h
    | cons x l ih =>
      rintro u ⟨o, rfl⟩
      exact ih _ ⟨_ :: o, rfl⟩
  exact this _ s ⟨[], rfl⟩

theorem reg_accepted_head (s : State) (q : Requester) (r : Reg) (inst : Nat) (bs : List Byte) (h : r ≠ .auditHead) :
    (s.accepted q r inst bs).reg .auditHead 0 = (s.reg .auditHead + 1) % 2 ^ 64 := by
  unfold State.accepted State.beforeChange
  dsimp only
  rw [State.reg_setRegs_ne _ h]
  split <;> simp +contextual +decide (maxDischargeDepth := 6) [*, reg_appendAudit_head]

theorem subs_pumpAudit (s : State) (x : Subscription) (hx : x ∈ s.pumpAudit.subs) : ∃ y, y ∈ s.subs ∧ y.number = x.number := by
  unfold State.pumpAudit at hx
  dsimp only at hx
  have fold' : ∀ (n : Nat) (l : List Subscription) (u : State), (l.foldl (fun (u : State) x => if x.audit && decide (x.next ≤ n) then u.sendEvents x.who x.next else u) u).subs = u.subs := by
    intro n l; induction l with
    | nil => intro u; rfl
    | cons x l ih => intro u; rw [List.foldl_cons, ih]; split
                     · obtain ⟨o, ho⟩ := sendEvents_same u x.who x.next; rw [ho]
                     · rfl
  split at hx
  · exact ⟨x, hx, rfl⟩
  · simp only [List.mem_map] at hx
    obtain ⟨y, hy, e⟩ := hx
    rw [fold'] at hy
    refine ⟨y, hy, ?_⟩
    rw [← e]; split <;> rfl

theorem subs_appendAudit (s : State) (o g p r f : Nat) (a b : List Byte) (x : Subscription) (hx : x ∈ (s.appendAudit o g p r f a b).subs) :
    ∃ y, y ∈ s.subs ∧ y.number = x.number := by
  unfold State.appendAudit at hx
  dsimp only at hx
  obtain ⟨y, hy, e⟩ := subs_pumpAudit _ _ hx
  refine ⟨y, ?_, e⟩
  revert hy; split <;> exact id

@[simp] theorem enterFaulted_nodeState (s : State) : s.enterFaulted.reg .nodeState 0 = 7 := by
  unfold State.enterFaulted State.enter
  dsimp only
  rw [endOpc_reg _ _ _ _ _ (by decide)]
  simp +contextual +decide (maxDischargeDepth := 6) [stFaulted,
      State.reg_change, auditRegs, *]

@[simp] theorem enterFaulted_jobRunning (s : State) : s.enterFaulted.reg .jobRunning 0 = 0 := by
  unfold State.enterFaulted State.enter
  dsimp only
  rw [endOpc_reg _ _ _ _ _ (by decide)]
  simp +contextual +decide (maxDischargeDepth := 6) [stFaulted, *]

@[simp] theorem bit_mod32 (v j : Nat) (h : j < 32) : bit (v % 4294967296) j = bit v j := by
  have := bit_mod v 32 j; simpa [h] using this

@[simp] theorem bit_mod8 (v j : Nat) (h : j < 8) : bit (v % 256) j = bit v j := by
  have := bit_mod v 8 j; simpa [h] using this

@[simp] theorem bit_mod16 (v j : Nat) (h : j < 16) : bit (v % 65536) j = bit v j := by
  have := bit_mod v 16 j; simpa [h] using this

@[simp] theorem supUp_setReg (s : State) (r : Reg) (i v : Nat) (h1 : r ≠ .nodeState) (h2 : r ≠ .inReset) : (s.setReg r i v).supervisorUp = s.supervisorUp := by
  unfold State.supervisorUp; rw [State.reg_setReg_ne _ h1, State.reg_setReg_ne _ h2]

@[simp] theorem supUp_addReg (s : State) (r : Reg) (i v : Nat) (h1 : r ≠ .nodeState) (h2 : r ≠ .inReset) : (s.addReg r i v).supervisorUp = s.supervisorUp := supUp_setReg _ _ _ _ h1 h2

@[simp] theorem supUp_change (s : State) (r : Reg) (i v : Nat) (h1 : r ≠ .nodeState) (h2 : r ≠ .inReset) : (s.change r i v).supervisorUp = s.supervisorUp := by
  unfold State.supervisorUp; rw [State.reg_change _ (by decide), State.reg_change _ (by decide)]; simp [h1, h2]

@[simp] theorem errorLog_degrade (s : State) (b : Nat) : (s.degrade b).errorLog = s.errorLog := by
  unfold State.degrade State.enter State.raise
  dsimp only
  split <;> simp

theorem logged_auditInternal (s : State) (o r : Nat) (a b : List Byte) : Logged s (s.auditInternal o r a b) := logged_appendAudit ..

theorem logged_raise (s : State) (r : Reg) (b : Nat) : Logged s (s.raise r b) := logged_change ..

theorem logged_lower (s : State) (r : Reg) (b : Nat) : Logged s (s.lower r b) := logged_change ..

theorem logged_enter (s : State) (st : Nat) : Logged s (s.enter st) := logged_change ..

theorem logged_ite {c : Prop} [Decidable c] {s a b : State} (ha : Logged s a) (hb : Logged s b) : Logged s (if c then a else b) := by split <;> assumption

theorem logged_abortTransition (s : State) : Logged s s.abortTransition := by
  have h : Logged s s.abortRequest := by
    unfold State.abortRequest
    exact logged_ite (Logged.refl s) (Logged.trans (logged_setReg ..) (logged_auditInternal ..))
  refine h.trans ?_
  unfold State.abortTransition
  generalize s.abortRequest = u
  exact logged_ite (Logged.refl u) (Logged.trans (logged_setReg ..) (logged_auditInternal ..))

theorem logged_degrade (s : State) (b : Nat) : Logged s (s.degrade b) := by
  unfold State.degrade
  exact Logged.trans (logged_raise ..) (logged_ite (logged_enter ..) (Logged.refl _))

/-- `t` is `s` but for its registers, its audit ring, its subscriptions, what it sends and what waits for its links, its bays and the
state of its Crosswind pairing. -/
def Sent (s t : State) : Prop :=
  ∃ r a u o q l f k b w d, t = { s with
    regs := r, audit := a, subs := u, out := o, retry := q, linkQueue := l, flitNext := f, stuck := k, bays := b, xwOwn := w, xwDiff := d }

theorem Sent.refl (s : State) : Sent s s := ⟨_, _, _, _, _, _, _, _, _, _, _, rfl⟩

theorem Sent.trans {s t u : State} (h : Sent s t) (h' : Sent t u) : Sent s u := by
  obtain ⟨_, _, _, _, _, _, _, _, _, _, _, rfl⟩ := h
  obtain ⟨_, _, _, _, _, _, _, _, _, _, _, rfl⟩ := h'
  exact ⟨_, _, _, _, _, _, _, _, _, _, _, rfl⟩

theorem Logged.sent {s t : State} (h : Logged s t) : Sent s t := by
  obtain ⟨_, _, _, _, rfl⟩ := h
  exact ⟨_, _, _, _, _, _, _, _, _, _, _, rfl⟩

theorem Sent.ite {c : Prop} [Decidable c] {s a b : State} (ha : Sent s a) (hb : Sent s b) : Sent s (if c then a else b) := by
  split <;> assumption

theorem Sent.foldl {A : Type} {s : State} {f : State → A → State} {l : List A} {u : State} (h : Sent s u)
    (hf : ∀ v x, Sent v (f v x)) : Sent s (l.foldl f u) := by
  induction l generalizing u with
  | nil => exact h
  | cons x l ih => exact ih (h.trans (hf u x))

/-- What a send leaves of the state: tests, segments, error log, node memory, the peers' links, the command queue and the recovery. -/
theorem Sent.same {s t : State} (h : Sent s t) : t.tests = s.tests ∧ t.segments = s.segments ∧ t.errorLog = s.errorLog ∧
    t.mem = s.mem ∧ t.peerLinks = s.peerLinks ∧ t.pending = s.pending ∧ t.recovery = s.recovery ∧ t.deferred = s.deferred := by
  obtain ⟨_, _, _, _, _, _, _, _, _, _, _, rfl⟩ := h
  exact ⟨rfl, rfl, rfl, rfl, rfl, rfl, rfl, rfl⟩

theorem sent_setReg (s : State) (r : Reg) (i v : Nat) : Sent s (s.setReg r i v) := (logged_setReg s r i v).sent

theorem sent_sendOn (s : State) (l : Nat) (o : Output) : Sent s (s.sendOn l o) := by
  unfold State.sendOn
  dsimp only
  split <;> exact ⟨_, _, _, _, _, _, _, _, _, _, _, rfl⟩

theorem sent_pumpLink (s : State) (l : Nat) : Sent s (s.pumpLink l) :=
  Sent.foldl ⟨_, _, _, _, _, _, _, _, _, _, _, rfl⟩ fun v w => sent_sendOn v l w.out

theorem sent_dropLink (s : State) (l : Nat) : Sent s (s.dropLink l) := ⟨_, _, _, _, _, _, _, _, _, _, _, rfl⟩

theorem sent_emit (s : State) (q : Nat) (p : Packet) : Sent s (s.emit q p) := by
  unfold State.emit
  split
  · exact Sent.ite ⟨_, _, _, _, _, _, _, _, _, _, _, rfl⟩ (sent_sendOn ..)
  · exact Sent.ite (Sent.refl s) ⟨_, _, _, _, _, _, _, _, _, _, _, rfl⟩

theorem sent_resendTo (s : State) (q : Nat) : Sent s (s.resendTo q) := by
  unfold State.resendTo
  dsimp only
  have h : ∀ u : State, Sent u ((u.stuck.filter fun e => e.1 = q).foldl (fun (t : State) e => t.emit q e.2)
      { u with stuck := u.stuck.filter fun e => e.1 ≠ q }) := fun u =>
    Sent.foldl ⟨_, _, _, _, _, _, _, _, _, _, _, rfl⟩ fun v e => sent_emit v q e.2
  exact Sent.trans (Sent.ite (Sent.foldl (Sent.refl s) fun v (r : Request) => sent_emit v q r.p) (Sent.refl s)) (h _)

theorem sent_routeMail {s t : State} {p : Packet} (h : s.routeMail p = some t) : Sent s t := by
  unfold State.routeMail at h
  split at h
  · split at h
    · cases h; exact sent_emit ..
    · cases h
  · split at h
    · cases h
    · obtain ⟨e, -, h⟩ := Option.map_eq_some_iff.1 h
      cases h
      exact Sent.ite (sent_sendOn ..) (sent_emit ..)

theorem sent_sendFar (s : State) (p : Packet) : Sent s (s.sendFar p) := by
  unfold State.sendFar
  split
  · exact sent_emit ..
  · cases h : s.routeMail p with
    | none => exact ⟨_, _, _, _, _, _, _, _, _, _, _, rfl⟩
    | some t => exact sent_routeMail h

theorem sent_retryFar (s : State) : Sent s s.retryFar :=
  Sent.foldl ⟨_, _, _, _, _, _, _, _, _, _, _, rfl⟩ fun v e => sent_sendFar v e.2

theorem sent_endHold (s : State) (b : Nat) : Sent s (s.endHold b) := by
  unfold State.endHold
  dsimp only
  split
  · exact Sent.ite (Sent.refl s) ⟨_, _, _, _, _, _, _, _, _, _, _, rfl⟩
  · exact Sent.refl s

theorem sent_setXw (s : State) (v : Nat) : Sent s (s.setXw v) := by
  unfold State.setXw
  dsimp only
  refine Sent.trans (logged_change s .xwState 0 v).sent (Sent.ite ?_ (Sent.refl _))
  exact Sent.foldl ⟨_, _, _, _, _, _, _, _, _, _, _, rfl⟩ fun u e => sent_endHold u e.1

theorem sent_endPairing (s : State) : Sent s s.endPairing := by
  unfold State.endPairing
  refine Sent.ite (Sent.trans ?_ (logged_raise ..).sent) (Sent.refl s)
  exact Sent.trans (t := { s with xwOwn := [], xwDiff := none }) ⟨_, _, _, _, _, _, _, _, _, _, _, rfl⟩ (sent_setXw ..)

theorem sent_leavePairing (s : State) : Sent s s.leavePairing :=
  Sent.ite ((sent_emit ..).trans (sent_endPairing _)) (Sent.refl s)

theorem sent_linksChanged (s old : State) : Sent s (s.linksChanged old) := by
  unfold State.linksChanged
  dsimp only
  refine Sent.trans ?_ (Sent.ite (sent_endPairing _) (Sent.refl _))
  refine Sent.foldl (Sent.trans ?_ (sent_retryFar _)) fun v q => Sent.ite (sent_sendOn ..) (Sent.refl v)
  exact Sent.foldl (sent_setReg ..) fun v q => Sent.ite (sent_resendTo ..) (Sent.refl v)

theorem pb_foldl_reg (u : State) (l : List (Nat × Nat)) (q : Reg) (hq : q ≠ .streamDigests) (j : Nat) : (l.foldl (fun (u : State) e => u.setReg .streamDigests e.1 e.2) u).reg q j = u.reg q j := by
  induction l generalizing u with
  | nil => rfl
  | cons x l ih => rw [List.foldl_cons, ih, State.reg_setReg_ne _ (Ne.symm hq)]

theorem pb_foldl_deferred (u : State) (l : List (Nat × Nat)) : (l.foldl (fun (u : State) e => u.setReg .streamDigests e.1 e.2) u).deferred = u.deferred := by
  induction l generalizing u with
  | nil => rfl
  | cons x l ih => exact ih _

theorem clearReg_reg (s : State) (r q : Reg) (h : r ≠ q) (j : Nat) : (s.clearReg r).reg q j = s.reg q j :=
  (keeps_clearReg (closed_reg (fun x => x == some r) s q (by simp [Ne.symm h]) j) s r (fun p hp => by simpa [touchClearReg] using hp) ⟨rfl⟩).out

theorem pb_end (u : State) (t d : Nat) (st : List (Nat × Nat)) (hx : u.reg .xwState ≠ 2) (hd : u.deferred = []) :
    ({ (u.exchange t d st).endRound with fences := [] } : State).applyDeferred.fitRoster.reg .tstep = u.reg .tstep := by
  have e : u.exchange t d st = u := by unfold State.exchange; rw [if_pos hx]
  rw [e, fitRoster_reg _ _ (by decide)]
  unfold State.applyDeferred State.endRound
  dsimp only
  simp only [State.addReg, State.deferred_setReg, hd, List.foldl_nil]
  simp +contextual +decide (maxDischargeDepth := 6) [*]

theorem pb_mid (u : State) (t d : Nat) (hr : u.reg .recoveryState < 4) : u.verifyReplay t d = u := by
  unfold State.verifyReplay; rw [if_pos]; simp; omega
def pbA (s : State) (st : List (Nat × Nat)) (d : Nat) : State :=
  let v := (st.foldl (fun (u : State) e => u.setReg .streamDigests e.1 e.2) (s.clearReg .streamDigests)).setReg .nodeDigest 0 d
  if v.reg .digestRing = 0 then v
    else v.jobWrite (v.reg .digestRing + 64 * (s.reg .tstep % 1024)) (v.stepRecord d st.length)
def pbC (u : State) (t d : Nat) (st : List (Nat × Nat)) : State :=
  let s := { u with bays := u.bays.map fun (e : Nat × Bay) => (e.1, e.2.passStep t (u.reg .xwLag)) }
  let s := s.setReg .tstep 0 (t + 1)
  let s := s.exchange t d st
  let s := { s.endRound with fences := [] }
  s.applyDeferred.fitRoster
def pbM (u : State) (t d : Nat) : State :=
  match u.sparePos with
  | some q => u.control q (.nodeDigest t d)
  | none => u
def pbB (u : State) (t d : Nat) (st : List (Nat × Nat)) : State :=
  let s := u.verifyReplay t d
  pbC (pbM { s with kept := keepDigest t d s.kept } t d) t d st

theorem pbC_tstep (u : State) (t d : Nat) (st : List (Nat × Nat)) (hd : u.deferred = []) (hx : u.reg .xwState ≠ 2) :
    (pbC u t d st).reg .tstep = (t + 1) % 2 ^ 64 := by
  unfold pbC
  dsimp only
  rw [pb_end]
  · simp +contextual +decide (maxDischargeDepth := 6) [*]
  · rw [State.reg_setReg_ne _ (by decide)]; exact hx
  · exact hd

theorem pbM_same (u : State) (t d : Nat) : (pbM u t d).deferred = u.deferred ∧ (pbM u t d).reg .xwState = u.reg .xwState := by
  unfold pbM; split
  · exact ⟨(sent_emit ..).same.2.2.2.2.2.2.2, control_reg ..⟩
  · exact ⟨rfl, rfl⟩

theorem deferred_jobWrite (s : State) (a : Nat) (bs : List Byte) : (s.jobWrite a bs).deferred = s.deferred := by
  unfold State.jobWrite; split
  · exact State.deferred_write ..
  · rfl

theorem pbA_same (s : State) (st : List (Nat × Nat)) (d : Nat) : (pbA s st d).deferred = s.deferred ∧
    (pbA s st d).reg .xwState = s.reg .xwState ∧ (pbA s st d).reg .recoveryState = s.reg .recoveryState := by
  unfold pbA
  dsimp only
  have e := pb_foldl_deferred (s.clearReg .streamDigests) st
  have e1 := pb_foldl_reg (s.clearReg .streamDigests) st .xwState (by decide) 0
  have e2 := pb_foldl_reg (s.clearReg .streamDigests) st .recoveryState (by decide) 0
  rw [clearReg_reg _ _ _ (by decide)] at e1 e2
  split
  · refine ⟨e, ?_, ?_⟩
    · rw [State.reg_setReg_ne _ (by decide)]; exact e1
    · rw [State.reg_setReg_ne _ (by decide)]; exact e2
  · refine ⟨?_, ?_, ?_⟩
    · rw [deferred_jobWrite]; exact e
    · rw [jobWrite_reg _ _ _ _ (by decide), State.reg_setReg_ne _ (by decide)]; exact e1
    · rw [jobWrite_reg _ _ _ _ (by decide), State.reg_setReg_ne _ (by decide)]; exact e2

theorem passBoundary_tstep (s : State) (hd : s.deferred = []) (hx : s.reg .xwState ≠ 2) (hr : s.reg .recoveryState < 4) :
    s.passBoundary.reg .tstep = (s.reg .tstep + 1) % 2 ^ 64 := by
  have e : s.passBoundary = pbB (pbA s s.stepStreams (nodeDigest s.stepStreams)) (s.reg .tstep) (nodeDigest s.stepStreams) s.stepStreams := by
    rfl
  rw [e]
  obtain ⟨a1, a2, a3⟩ := pbA_same s s.stepStreams (nodeDigest s.stepStreams)
  unfold pbB
  dsimp only
  rw [pb_mid _ _ _ (by rw [a3]; exact hr)]
  obtain ⟨b1, b2⟩ := pbM_same ({ pbA s s.stepStreams (nodeDigest s.stepStreams) with kept := keepDigest (s.reg .tstep) (nodeDigest s.stepStreams) (pbA s s.stepStreams (nodeDigest s.stepStreams)).kept } : State) (s.reg .tstep) (nodeDigest s.stepStreams)
  exact pbC_tstep _ _ _ _ (by rw [b1]; exact a1.trans hd) (by rw [b2]; exact a2 ▸ hx)

/-- What the completion of a host command leaves alone: the tests, the segments and the error log. -/
def Served (s t : State) : Prop := t.tests = s.tests ∧ t.segments = s.segments ∧ t.errorLog = s.errorLog

theorem Served.refl (s : State) : Served s s := ⟨rfl, rfl, rfl⟩

theorem Served.trans {s t u : State} (h : Served s t) (h' : Served t u) : Served s u :=
  ⟨h'.1.trans h.1, h'.2.1.trans h.2.1, h'.2.2.trans h.2.2⟩

theorem Logged.served {s t : State} (h : Logged s t) : Served s t := by
  obtain ⟨_, _, _, _, rfl⟩ := h; exact Served.refl s

theorem Sent.served {s t : State} (h : Sent s t) : Served s t := ⟨h.same.1, h.same.2.1, h.same.2.2.1⟩

theorem Written.served {s t : State} (h : Written s t) : Served s t := by
  obtain ⟨_, _, _, _, _, _, _, _, _, _, _, _, rfl⟩ := h; exact Served.refl s

theorem Served.ite {c : Prop} [Decidable c] {s a b : State} (ha : Served s a) (hb : Served s b) : Served s (if c then a else b) := by
  split <;> assumption

theorem served_postCompletion (s : State) (e : Completion) : Served s (s.postCompletion e) := by
  have w : ∀ x y bs, Served s (s.ringWrite x y bs) := fun x y bs =>
    Served.ite ⟨rfl, rfl, rfl⟩ (Served.ite (Written.write s (Written.refl s)).served (Served.refl s))
  have h : Served s (s.putCompletion e) := by
    unfold State.putCompletion
    dsimp only
    generalize hu : s.ringWrite _ _ _ = u
    have h : Served s u := hu ▸ w ..
    exact Served.ite (Served.ite h h) (h.trans (Served.ite ⟨rfl, rfl, rfl⟩ ⟨rfl, rfl, rfl⟩))
  exact Served.ite ⟨rfl, rfl, rfl⟩ h

theorem served_showQueue (s : State) (q : Nat) : Served s (s.showQueue q) :=
  Served.ite ⟨rfl, rfl, rfl⟩ (Served.ite (Served.refl s) ⟨rfl, rfl, rfl⟩)

theorem served_fetch (s : State) (q n : Nat) : Served s (s.fetch q n) := by
  induction n generalizing s with
  | zero => exact Served.refl s
  | succ n ih =>
    unfold State.fetch
    split
    · exact Served.refl s
    · split
      · exact Served.refl s
      · rename_i bs u h
        have hu : Served s u := by
          unfold State.nextEntry at h
          dsimp only at h
          split at h
          · split at h
            · cases h; exact Served.refl s
            · cases h
          · obtain ⟨e, _, h⟩ := Option.map_eq_some_iff.1 h
            cases h; exact Served.refl s
        dsimp only
        split
        · exact (hu.trans (served_postCompletion (u.setReg ..) _)).trans (ih _)
        · exact hu.trans (ih _)

theorem served_fetchAll (s : State) : Served s s.fetchAll := by
  unfold State.fetchAll
  generalize List.range 64 = l
  induction l generalizing s with
  | nil => exact Served.refl s
  | cons q l ih =>
    refine Served.trans ?_ (ih _)
    dsimp only
    split
    · exact Served.refl s
    · exact (served_fetch s q _).trans (served_showQueue _ q)

theorem served_endCmd (s : State) (c : HostCmd) (status res0 : Nat) : Served s (s.endCmd c status res0) := by
  unfold State.endCmd
  dsimp only
  split
  · exact ⟨rfl, rfl, rfl⟩
  · exact ((served_postCompletion { s with cmds := s.cmds.erase c } _).trans (served_showQueue ..)).trans (served_fetchAll _)

theorem served_endOpc (s : State) (opc status res0 : Nat) : Served s (s.endOpc opc status res0) := by
  unfold State.endOpc
  generalize List.filter _ s.cmds = l
  induction l generalizing s with
  | nil => exact Served.refl s
  | cons c l ih => exact (served_endCmd s c status res0).trans (ih _)

theorem served_setRecovery (s : State) (v : Nat) : Served s (s.setRecovery v) :=
  Served.ite (Served.refl s) (Served.trans (logged_change s .recoveryState 0 v).served ⟨rfl, rfl, rfl⟩)

theorem served_abandonRestore (s : State) : Served s s.abandonRestore :=
  Served.ite (Served.trans (t := { s with recovery := none }) ⟨rfl, rfl, rfl⟩ (served_setRecovery ..)) (Served.refl s)

theorem served_enterFaulted (s : State) : Served s s.enterFaulted := by
  unfold State.enterFaulted
  dsimp only
  refine Served.trans ?_ (served_endOpc _ _ _ _)
  refine Served.trans ?_ (Logged.served (Logged.trans (Logged.trans (Logged.trans (logged_enter ..) (logged_setReg ..)) (logged_setReg ..)) (logged_setReg ..)))
  refine Served.ite (Served.refl s) (((sent_leavePairing s).served.trans (logged_abortTransition _).served).trans ?_)
  exact served_abandonRestore _

@[simp] theorem tests_enterFaulted (s : State) : s.enterFaulted.tests = s.tests := by
  exact (served_enterFaulted s).1

@[simp] theorem segments_enterFaulted (s : State) : s.enterFaulted.segments = s.segments := by
  exact (served_enterFaulted s).2.1

@[simp] theorem errorLog_enterFaulted (s : State) : s.enterFaulted.errorLog = s.errorLog := by
  exact (served_enterFaulted s).2.2

@[simp] theorem settleError_regs (s : State) (a b c : Nat) : (s.settleError a b c).regs = s.regs := rfl

theorem endTest_facts (s : State) (t : SelfTest) (o : Nat) : (s.endTest t o).regs = s.regs ∧ (s.endTest t o).mem = s.mem ∧ (s.endTest t o).segments = s.segments ∧
    (s.endTest t o).now = s.now ∧
    (s.endTest t o).tests = s.tests.filter fun u => ¬ (u.kind = t.kind ∧ u.unit = t.unit) := by
  unfold State.endTest
  have h : ∀ (l : List Nat) (p : Nat) (u : State), ∃ e, l.foldl (fun (u : State) n => u.settleError n o p) u = { u with errorLog := e } := by
    intro l p
    induction l with
    | nil => exact fun u => ⟨_, rfl⟩
    | cons n l ih => exact fun u => (ih _).imp fun e h => h
  obtain ⟨e, h⟩ := h (t.seq :: t.more) (s.now - t.at') { s with tests := s.tests.filter fun u => ¬ (u.kind = t.kind ∧ u.unit = t.unit) }
  exact h ▸ ⟨rfl, rfl, rfl, rfl, rfl⟩

theorem endTest_gone (s : State) (t : SelfTest) (o : Nat) (u : State) (h : u.tests = (s.endTest t o).tests) : ∀ y ∈ u.tests, y.kind = t.kind → y.unit ≠ t.unit := by
  rw [h, (endTest_facts s t o).2.2.2.2]
  intro y hy hk hu
  simp only [List.mem_filter, decide_eq_true_eq] at hy
  exact hy.2 ⟨hk, hu⟩

theorem endTest_reg0 (s : State) (t : SelfTest) (o : Nat) (r : Reg) (i : Nat) : (s.endTest t o).reg r i = s.reg r i := by
  unfold State.reg; rw [(endTest_facts s t o).1]

theorem bit_foldl_clear (c : Nat → Bool) (l : List Nat) (a j : Nat) :
    bit (l.foldl (fun a b => if c b then withoutBit a b else a) a) j = (bit a j && !(decide (j ∈ l) && c j)) := by
  induction l generalizing a with
  | nil => simp
  | cons x l ih =>
    rw [List.foldl_cons, ih]
    by_cases hx : x = j
    · subst hx
      by_cases hc : c x = true <;> simp [hc]
    · have hx' : ¬ j = x := fun e => hx e.symm
      by_cases hc : c x = true <;> simp [hc, hx, hx']

@[simp] theorem frozen_trace (u : State) (q : Bool) (bs : List Byte) : (u.trace q bs).frozen = u.frozen := by
  unfold State.trace
  dsimp only
  split
  · rfl
  · split
    · rfl
    · show (State.jobWrite ..).frozen = _
      unfold State.jobWrite
      split
      · exact State.frozen_write ..
      · rfl

theorem setBytes_reg_ne (s : State) (r q : Reg) (i j : Nat) (bs : List Byte) (h : r ≠ q) : (s.setBytes r i bs).reg q j = s.reg q j :=
  State.reg_setRegs_ne _ h ..

theorem fire_facts (s : State) (src code step lbay : Nat) (h1 : s.reg .freezeState = 1) (h2 : s.flag .freezeSrcEn 0 src = true) :
    (s.fire src code step lbay).reg .freezeState = 2 ∧ (s.fire src code step lbay).frozen.isSome = true ∧
      (s.fire src code step lbay).reg .freezeGen = (s.reg .freezeGen + 1) % 2 ^ 32 := by
  unfold State.fire
  rw [if_pos h2, if_pos h1]
  dsimp only
  refine ⟨?_, ?_, ?_⟩
  · rw [trace_reg _ _ _ _ (by decide)]; simp +contextual +decide (maxDischargeDepth := 6) [State.addReg, draw_reg, draw_mem, setBytes_reg, setBytes_mem, *]
  · rw [frozen_trace]; rfl
  · rw [trace_reg _ _ _ _ (by decide)]
    simp +contextual +decide (maxDischargeDepth := 6) [State.addReg, draw_reg, draw_mem, setBytes_reg, setBytes_mem, *]

theorem clearReg_same (s : State) (r : Reg) (i : Nat) : (s.clearReg r).reg r i = r.dflt i := by
  have h := Store.get_filter (d := regDflt) (fun k : Reg × Nat => decide (k.1 ≠ r)) s.regs (r, i)
  exact h.trans (by simp [regDflt])

theorem hostLines_copyBefore (u : State) (x : Slot) (lo hi : Nat) : (u.copyBefore x lo hi).1.hostLines = u.hostLines := by
  exact copyBefore_induct (P := fun v => v.hostLines = u.hostLines) (fun _ _ h => h) x lo hi rfl

theorem hostLines_putBytes (u : State) (a : Nat) (bs : List Byte) : (u.putBytes a bs).hostLines = u.hostLines := by
  induction bs generalizing u a with
  | nil => rfl
  | cons b bs ih => exact ih ..
def bwA (u : State) (lo hi : Nat) : State :=
  if u.slotA.state = 1 then
      let r := u.copyBefore u.slotA lo hi
      { r.1 with slotA := r.2 }
    else u
def bwB (u : State) (lo hi : Nat) : State :=
  if u.slotB.state = 1 then
      let r := u.copyBefore u.slotB lo hi
      { r.1 with slotB := r.2 }
    else u
def bwC (s : State) (lo hi : Nat) : State :=
  let met := s.hostLines.filter fun l => decide (128 * l < hi ∧ lo < 128 * l + 128)
  if met.isEmpty then s
  else
    let s := { s with hostLines := s.hostLines.filter fun l => !met.contains l }
    (s.addReg .backInvalidates 0 met.length).setReg .hostHeldLines 0 s.hostLines.length

theorem bw_eq (u : State) (lo hi : Nat) : u.beforeWrite lo hi = bwC ((bwB (bwA (u.noteMerge lo hi) lo hi) lo hi).noteMoved lo hi) lo hi := rfl

theorem hostLines_noteMoved (u : State) (lo hi : Nat) : (u.noteMoved lo hi).hostLines = u.hostLines := by
  unfold State.noteMoved; split <;> rfl

theorem hostLines_beforeWrite (u : State) (lo hi : Nat) : ∀ l ∈ (u.beforeWrite lo hi).hostLines, l ∈ u.hostLines := by
  rw [bw_eq]
  have h1 : (bwA (u.noteMerge lo hi) lo hi).hostLines = u.hostLines := by
    unfold bwA; split
    · exact hostLines_copyBefore ..
    · rfl
  have h2 : ∀ v, (bwB v lo hi).hostLines = v.hostLines := by
    intro v; unfold bwB; split
    · exact hostLines_copyBefore ..
    · rfl
  have h3 : ∀ v, ∀ l ∈ (bwC v lo hi).hostLines, l ∈ v.hostLines := by
    intro v l hl
    unfold bwC at hl
    dsimp only at hl
    split at hl
    · exact hl
    · have : l ∈ v.hostLines.filter fun l => !(v.hostLines.filter fun l => decide (128 * l < hi ∧ lo < 128 * l + 128)).contains l := hl
      exact (List.mem_filter.1 this).1
  intro l hl
  have := h3 _ l hl
  rwa [hostLines_noteMoved, h2, h1] at this

theorem hostLines_write (u : State) (a : Nat) (bs : List Byte) : ∀ l ∈ (u.write a bs).hostLines, l ∈ u.hostLines := by
  intro l hl
  have e : (u.write a bs).hostLines = ((u.beforeWrite a (a + bs.length)).putBytes a bs).hostLines := rfl
  rw [e, hostLines_putBytes] at hl
  exact hostLines_beforeWrite _ _ _ l hl

theorem hostLines_writes (ws : List (Nat × List Byte)) (u : State) : ∀ l ∈ (u.writes ws).hostLines, l ∈ u.hostLines := by
  unfold State.writes
  induction ws generalizing u with
  | nil => intro l hl; exact hl
  | cons w ws ih => intro l hl; exact hostLines_write _ _ _ l (ih _ l hl)

theorem retireEpoch_facts (u : State) : u.retireEpoch.reg .jobEpoch = 0 ∧ u.retireEpoch.reg .jobRunning 0 = u.reg .jobRunning 0 ∧
    u.retireEpoch.regions = [] ∧ u.retireEpoch.recovery = u.recovery := by
  unfold State.retireEpoch
  dsimp only
  generalize hv : (if (u.drains.any fun d => !d.ended && !d.retiring) = true then u.change .retiringEpoch 0 (u.reg .jobEpoch) else u) = v
  have e1 : v.reg .jobRunning 0 = u.reg .jobRunning 0 := by rw [← hv]; split <;> simp +contextual +decide (maxDischargeDepth := 6) [State.reg_change, auditRegs, *]
  have e2 : v.recovery = u.recovery := by rw [← hv]; split <;> simp +contextual +decide (maxDischargeDepth := 6) [*]
  generalize hw : ({ v with drains := v.drains.map fun (d : Drain) => if d.ended = true then d else { d with retiring := true } } : State) = w
  have f1 : w.reg .jobRunning 0 = v.reg .jobRunning 0 := by rw [← hw]; rfl
  have f2 : w.recovery = v.recovery := by rw [← hw]
  refine ⟨?_, ?_, ?_, ?_⟩
  · rw [clearReg_reg _ _ _ (by decide), State.reg_change _ (by decide)]
    have : ∀ x : State, ({ x.installEpoch with regions := [] } : State).reg .jobEpoch 0 = x.reg .jobEpoch 0 := fun x => by
      exact (installEpoch_reg x _ (by decide) _)
    rw [if_neg (by decide), this, State.reg_change _ (by decide)]; rfl
  · rw [clearReg_reg _ _ _ (by decide), State.reg_change _ (by decide)]
    have : ∀ x : State, ({ x.installEpoch with regions := [] } : State).reg .jobRunning 0 = x.reg .jobRunning 0 := fun x => by
      exact (installEpoch_reg x _ (by decide) _)
    rw [if_neg (by decide), this, State.reg_change _ (by decide), if_neg (by decide), f1, e1]
  · unfold State.clearReg; dsimp only; rw [State.regions_change]
  · unfold State.clearReg; dsimp only; rw [State.recovery_change]; dsimp only
    unfold State.installEpoch; dsimp only [State.setReg]; rw [State.recovery_change, f2, e2]

theorem setRecovery_recovery (u : State) (v : Nat) : (u.setRecovery v).recovery = u.recovery := by
  unfold State.setRecovery; split
  · rfl
  · simp

theorem applyDeferred_nil (a : State) (h : a.deferred = []) (r : Reg) (j : Nat) : a.applyDeferred.reg r j = a.reg r j := by
  unfold State.applyDeferred; rw [h]; rfl

theorem write_countModels (s : State) (a : Nat) (bs : List Byte) : ((s.write a bs).countModels).copies = s.copies ∧ ((s.write a bs).countModels).tailwind = s.tailwind :=
  by
  have h : ∀ u : State, ∀ v, (u.setReg .rosterCount 0 v).copies = u.copies ∧ (u.setReg .rosterCount 0 v).tailwind = u.tailwind := fun u v => ⟨rfl, rfl⟩
  unfold State.countModels
  rw [(h _ _).1, (h _ _).2, State.copies_write, State.tailwind_write]; exact ⟨rfl, rfl⟩

theorem reg_jobEpochs (u : State) (l : List Nat) (r : Reg) (j : Nat) : ({ u with jobEpochs := l } : State).reg r j = u.reg r j := rfl

theorem linksChanged_at (s old : State) (r : Reg) (j : Nat) (h : touchLinksChanged (some r) = false) :
    (s.linksChanged old).reg r j = s.reg r j :=
  (keeps_linksChanged (closed_reg _ _ _ h _) _ _ (fun _ h => h) ⟨rfl⟩).out
def slA (s : State) (l v : Nat) : State := (s.change .linkState l v).setFlag .linksUp 0 l (v = linkUp)
def slB (t : State) (l v : Nat) : State := if v = linkUp then t.setFlag .linkWasUp 0 l true else t
def slC (t : State) (l v : Nat) : State := if v = linkAbsent then t else t.setFlag .linkQuiet 0 l false
def slD (t : State) (l v : Nat) : State := if v = linkAbsent ∨ v = linkTraining ∨ v = linkDisabled then t.change .linkGen l 0 else t
def slE (t : State) (v : Nat) : State := if v = linkLost then t.degrade 3
      else if (List.range 24).any fun k => t.reg .linkState k = linkLost then t
      else t.lower .degradeCause 3

def slF (t : State) (l v : Nat) : State := if linkCarries v then t else (t.dropLink l).setReg .flitSeq l 0
def slG (t : State) (l v : Nat) : State := if v = linkUp then t.pumpLink l else t

theorem slG_reg (t : State) (l v : Nat) (r : Reg) (j : Nat) : (slG t l v).reg r j = t.reg r j := by
  unfold slG; split
  · exact pumpLink_reg ..
  · rfl

theorem slF_reg (t : State) (l v : Nat) (r : Reg) (j : Nat) (h : r ≠ .flitSeq) : (slF t l v).reg r j = t.reg r j := by
  unfold slF; split
  · rfl
  · exact State.reg_setReg_ne _ (Ne.symm h) ..

theorem setLink_eq (s : State) (l v : Nat) (h : s.reg .linkState l ≠ v) :
    s.setLink l v = (slG (slF (slE (slD (slC (slB (slA s l v) l v) l v) l v) v) l v) l v).linksChanged s := by
  unfold State.setLink; rw [if_neg h]; rfl

theorem slE_reg (t : State) (v : Nat) (r : Reg) (j : Nat) (h : r ∉ auditRegs) (h1 : r ≠ .degradeCause) (h2 : r ≠ .nodeState) (h3 : r ≠ .stateRequest) : (slE t v).reg r j = t.reg r j := by
  unfold slE State.degrade State.lower State.enter State.raise
  split
  · dsimp only; split
    · rw [State.reg_change _ h, if_neg (by simp [Ne.symm h2]), State.reg_change _ h, if_neg (by simp [Ne.symm h1])]
    · rw [State.reg_change _ h, if_neg (by simp [Ne.symm h1])]
  · split
    · rfl
    · rw [State.reg_change _ h, if_neg (by simp [Ne.symm h1])]

theorem setLink_state (s : State) (l v j : Nat) (hv : v < 256) : (s.setLink l v).reg .linkState j = if l = j then v else s.reg .linkState j := by
  by_cases h : s.reg .linkState l = v
  · unfold State.setLink; rw [if_pos h]; split
    · next e => rw [← e, h]
    · rfl
  · rw [setLink_eq _ _ _ h, linksChanged_at _ _ _ _ (by decide), slG_reg, slF_reg _ _ _ _ _ (by decide), slE_reg _ _ _ _ (by decide) (by decide) (by decide) (by decide)]
    have d : ∀ t : State, (slD t l v).reg .linkState j = t.reg .linkState j := by
      intro t; unfold slD; split
      · rw [State.reg_change _ (by decide), if_neg (by simp)]
      · rfl
    have c : ∀ t : State, (slC t l v).reg .linkState j = t.reg .linkState j := by
      intro t; unfold slC; split
      · rfl
      · rw [setFlag_reg _ _ _ _ _ _ (by decide)]
    have b : ∀ t : State, (slB t l v).reg .linkState j = t.reg .linkState j := by
      intro t; unfold slB; split
      · rw [setFlag_reg _ _ _ _ _ _ (by decide)]
      · rfl
    rw [d, c, b]
    unfold slA
    rw [setFlag_reg _ _ _ _ _ _ (by decide), State.reg_change _ (by decide)]
    simp only [true_and]
    split
    · exact Nat.mod_eq_of_lt hv
    · rfl

theorem setLink_gen (s : State) (l v : Nat) (h : s.reg .linkState l ≠ v) (hv : v = 0 ∨ v = 1 ∨ v = 6) : (s.setLink l v).reg .linkGen l = 0 := by
  rw [setLink_eq _ _ _ h, linksChanged_at _ _ _ _ (by decide), slG_reg, slF_reg _ _ _ _ _ (by decide), slE_reg _ _ _ _ (by decide) (by decide) (by decide) (by decide)]
  unfold slD
  rw [if_pos (by simpa [linkAbsent, linkTraining, linkDisabled] using hv), State.reg_change _ (by decide), if_pos ⟨rfl, rfl⟩]; rfl

theorem sent_setLink (s : State) (l v : Nat) : Sent s (s.setLink l v) := by
  unfold State.setLink
  dsimp only
  refine Sent.ite (Sent.refl s) (Sent.trans ?_ (sent_linksChanged _ _))
  have g : ∀ t : State, Sent s t → Sent s (if v = linkUp then t.pumpLink l else t) := fun t h => Sent.ite (h.trans (sent_pumpLink ..)) h
  have f : ∀ t : State, Sent s t → Sent s (if linkCarries v then t else (t.dropLink l).setReg .flitSeq l 0) := fun t h =>
    Sent.ite h ((h.trans (sent_dropLink ..)).trans (sent_setReg ..))
  have e : ∀ t : State, Sent s t → Sent s (slE t v) := fun t h => by
    unfold slE
    exact Sent.ite (h.trans (logged_degrade ..).sent) (Sent.ite h (h.trans (logged_lower ..).sent))
  have d : ∀ t : State, Sent s t → Sent s (slD t l v) := fun t h => Sent.ite (h.trans (logged_change ..).sent) h
  have c : ∀ t : State, Sent s t → Sent s (slC t l v) := fun t h => Sent.ite h (h.trans (sent_setReg ..))
  have b : ∀ t : State, Sent s t → Sent s (slB t l v) := fun t h => Sent.ite (h.trans (sent_setReg ..)) h
  have a : Sent s (slA s l v) := (logged_change s .linkState l v).sent.trans (sent_setReg ..)
  exact g _ (f _ (e _ (d _ (c _ (b _ a)))))

theorem setLink_errorLog (s : State) (l v : Nat) : (s.setLink l v).errorLog = s.errorLog := (sent_setLink s l v).same.2.2.1

theorem linkCommand_at (s a : State) (l v : Nat) (hs : a.reg .linkState l = s.reg .linkState l) (hl : a.lanesOn = s.lanesOn) :
    (linkCommand l v a).reg .linkCmd l = 0 ∧
    (v = 1 → s.lanesOn = true → (linkCommand l v a).reg .linkState l = 1) ∧
    (v = 2 → s.reg .linkState l ≠ 4 → (linkCommand l v a).reg .linkState l = 6) ∧
    (v = 3 → s.reg .linkState l = 6 → s.lanesOn = true → (linkCommand l v a).reg .linkState l = 1) := by
  have hp : ∀ t : State, ∀ j, (t.setLink l j).reg .linkCmd l = t.reg .linkCmd l := fun t j => setLink_reg _ _ _ _ (by decide) _
  have h0 : ∀ t : State, t.regs = (a.setReg .linkCmd l 0).regs →
      t.reg .linkCmd l = 0 ∧ t.reg .linkState l = s.reg .linkState l ∧ t.lanesOn = s.lanesOn := by
    intro t e
    have e' : ∀ r j, t.reg r j = (a.setReg .linkCmd l 0).reg r j := fun r j => by unfold State.reg; rw [e]
    have e2 : ∀ r j, r ≠ .linkCmd → t.reg r j = a.reg r j := fun r j h => by rw [e', State.reg_setReg_ne _ (Ne.symm h)]
    refine ⟨by rw [e', State.reg_setReg_same]; rfl, by rw [e2 _ _ (by decide)]; exact hs, ?_⟩
    rw [← hl]
    unfold State.lanesOn State.powered State.isIn
    rw [e2 _ _ (by decide), e2 _ _ (by decide), e2 _ _ (by decide)]
  unfold linkCommand
  dsimp only
  have e : (if v = 3 then a.setReg .linkCmd l 0 else { a.setReg .linkCmd l 0 with tests := (a.setReg .linkCmd l 0).tests.filter fun t => ¬ (t.kind = 7 ∧ t.unit / 16 = l) }).regs = (a.setReg .linkCmd l 0).regs := by split <;> rfl
  generalize (if v = 3 then a.setReg .linkCmd l 0 else { a.setReg .linkCmd l 0 with tests := (a.setReg .linkCmd l 0).tests.filter fun t => ¬ (t.kind = 7 ∧ t.unit / 16 = l) }) = t at e ⊢
  obtain ⟨t1, t2, t3⟩ := h0 t e
  rw [t3, t2]
  refine ⟨?_, ?_, ?_, ?_⟩
  · split
    · split
      · exact t1
      · rw [hp, t1]
    · split
      · exact t1
      · split
        · rw [hp, t1]
        · rw [hp, t1]
  · rintro rfl g; rw [if_neg (by decide), if_neg (by simp), if_pos g, setLink_state _ _ _ _ (by decide), if_pos rfl]
  · rintro rfl g; rw [if_pos rfl, if_neg g, setLink_state _ _ _ _ (by decide), if_pos rfl]
  · rintro rfl g g'; rw [if_neg (by decide), if_neg (by simp [g]), if_pos g', setLink_state _ _ _ _ (by decide), if_pos rfl]

theorem linkCommand_facts (s : State) (q : Requester) (l v : Nat) (bs : List Byte) :
    (linkCommand l v (s.accepted q .linkCmd l bs)).reg .linkCmd l = 0 ∧
    (v = 1 → s.lanesOn = true → (linkCommand l v (s.accepted q .linkCmd l bs)).reg .linkState l = 1) ∧
    (v = 2 → s.reg .linkState l ≠ 4 → (linkCommand l v (s.accepted q .linkCmd l bs)).reg .linkState l = 6) ∧
    (v = 3 → s.reg .linkState l = 6 → s.lanesOn = true → (linkCommand l v (s.accepted q .linkCmd l bs)).reg .linkState l = 1) := by
  refine linkCommand_at s _ l v (State.reg_accepted_ne _ _ _ _ (by decide) (by decide) _) ?_
  unfold State.lanesOn State.powered State.isIn
  rw [State.reg_accepted_ne _ _ _ _ (by decide) (by decide), State.reg_accepted_ne _ _ _ _ (by decide) (by decide), State.reg_accepted_ne _ _ _ _ (by decide) (by decide)]

theorem store_puts (v : Nat → Nat) (base : Nat) (n k : Nat) (m : Store Nat Nat) :
    Store.at 0 ((List.range n).foldl (fun m j => Store.put 0 m (base + j) (v j)) m) (base + k) = if k < n then v k else Store.at 0 m (base + k) := by
  induction n with
  | zero => simp
  | succ n ih =>
    rw [List.range_succ, List.foldl_append, List.foldl_cons, List.foldl_nil]
    unfold Store.put Store.at at *
    rw [Store.get_set]
    by_cases e : n = k
    · subst e; simp
    · rw [if_neg (by omega), ih]
      by_cases h : k < n
      · rw [if_pos h, if_pos (by omega)]
      · rw [if_neg h, if_neg (by omega)]

theorem tests_degrade (s : State) (b : Nat) : (s.degrade b).tests = s.tests := by
  obtain ⟨_, _, _, _, h⟩ := logged_degrade s b; rw [h]

theorem setLink_tests (s : State) (l v : Nat) : (s.setLink l v).tests = s.tests := (sent_setLink s l v).same.1

theorem degrade_bit (s : State) (b : Nat) (hb : b < 8) : bit ((s.degrade b).reg .degradeCause) b = true := by
  have h : ∀ u : State, bit ((u.raise .degradeCause b).reg .degradeCause) b = true := by
    intro u; unfold State.raise
    rw [State.reg_change _ (by decide), if_pos ⟨rfl, rfl⟩]
    have m : Reg.modulus .degradeCause = 4294967296 := rfl
    rw [m, bit_mod32 _ _ (by omega)]; simp
  unfold State.degrade
  dsimp only
  split
  · unfold State.enter
    rw [State.reg_change _ (by decide), if_neg (by simp)]; exact h _
  · exact h _

theorem setBays_same (f : State → Nat → Bay) (l : List Nat) (u : State) :
    (∀ r j, (l.foldl (fun (v : State) k => v.setBay k (f v k)) u).reg r j = u.reg r j) ∧ (l.foldl (fun (v : State) k => v.setBay k (f v k)) u).tests = u.tests ∧
    (l.foldl (fun (v : State) k => v.setBay k (f v k)) u).mem = u.mem := by
  induction l generalizing u with
  | nil => exact ⟨fun _ _ => rfl, rfl, rfl⟩
  | cons y l ih => exact ih _

theorem withField_eq (v lo n x : Nat) : withField v lo n x = 2 ^ lo * (2 ^ n * (v / 2 ^ lo / 2 ^ n) + x % 2 ^ n) + v % 2 ^ lo := by
  unfold withField field
  have h1 := Nat.div_add_mod v (2 ^ lo)
  have h2 := Nat.div_add_mod (v / 2 ^ lo) (2 ^ n)
  have h3 : v / 2 ^ lo % 2 ^ n * 2 ^ lo ≤ v := Nat.le_trans (Nat.mul_le_mul_right _ (Nat.mod_le _ _)) (Nat.div_mul_le_self ..)
  rw [Nat.mul_add]
  have h4 : 2 ^ lo * (v / 2 ^ lo) = 2 ^ lo * (2 ^ n * (v / 2 ^ lo / 2 ^ n)) + 2 ^ lo * (v / 2 ^ lo % 2 ^ n) := by rw [← Nat.mul_add, h2]
  rw [Nat.mul_comm (v / 2 ^ lo % 2 ^ n), Nat.mul_comm (x % 2 ^ n)] at *
  omega

theorem withField_div (v lo n x : Nat) : withField v lo n x / 2 ^ lo = 2 ^ n * (v / 2 ^ lo / 2 ^ n) + x % 2 ^ n := by
  rw [withField_eq, Nat.mul_add_div (Nat.two_pow_pos _), Nat.div_eq_of_lt (Nat.mod_lt _ (Nat.two_pow_pos _)), Nat.add_zero]

theorem field_withField (v lo n x : Nat) : field (withField v lo n x) lo n = x % 2 ^ n := by
  unfold field; rw [withField_div, Nat.mul_add_mod, Nat.mod_mod]

theorem bit_withField (v lo n x k : Nat) (h : k < n) : bit (withField v lo n x) (lo + k) = bit x k := by
  unfold bit
  rw [Nat.add_comm, ← Nat.testBit_div_two_pow, withField_div, Nat.testBit_two_pow_mul_add _ (Nat.mod_lt _ (Nat.two_pow_pos _)), if_pos h]
  simp [h]

theorem bit_withField1 (v lo x : Nat) : bit (withField v lo 1 x) lo = bit x 0 := bit_withField v lo 1 x 0 (by decide)

theorem field_mod (v lo n m : Nat) (h : lo + n ≤ m) : field (v % 2 ^ m) lo n = field v lo n := by
  unfold field
  apply Nat.eq_of_testBit_eq
  intro i
  rw [Nat.testBit_mod_two_pow, Nat.testBit_mod_two_pow, Nat.testBit_div_two_pow, Nat.testBit_div_two_pow, Nat.testBit_mod_two_pow]
  by_cases hi : i < n
  · simp [hi]; omega
  · simp [hi]

theorem holdInReset_facts (s : State) : s.holdInReset.reg .nodeState = 2 ∧ s.holdInReset.reg .inReset = 1 ∧ s.holdInReset.reg .hostLink = 0 ∧
    ∀ k, k < 48 → s.holdInReset.reg .clkMhz k = 0 := by
  have f : ∀ (l : List Nat) (u : State) (r : Reg) (j : Nat), r ≠ .clkMhz → (l.foldl (fun (t : State) k => t.setReg .clkMhz k 0) u).reg r j = u.reg r j := by
    intro l u r j h
    exact State.reg_foldl (f := fun (t : State) k => t.setReg .clkMhz k 0) (fun v x => State.reg_setReg_ne _ (Ne.symm h) ..) l u
  have g : ∀ (l : List Nat) (u : State) (k : Nat), (k ∈ l ∨ u.reg .clkMhz k = 0) → (l.foldl (fun (t : State) k => t.setReg .clkMhz k 0) u).reg .clkMhz k = 0 := by
    intro l
    induction l with
    | nil => intro u k h; simpa using h
    | cons y l ih =>
      intro u k h
      apply ih
      by_cases e : y = k
      · right; subst e; rw [State.reg_setReg_same]; rfl
      · rcases h with h | h
        · left; simpa [Ne.symm e] using h
        · right; rw [State.reg_setReg, if_neg (by simp [e])]; exact h
  unfold State.holdInReset
  dsimp only
  refine ⟨?_, ?_, ?_, ?_⟩
  · rw [f _ _ _ _ (by decide), State.reg_change _ (by decide), if_neg (by simp), idleLinks_reg _ _ (by decide), State.reg_setReg_ne _ (by decide), State.reg_setReg_ne _ (by decide), State.reg_setReg_ne _ (by decide)]
    unfold State.enter
    rw [State.reg_change _ (by decide), if_pos ⟨rfl, rfl⟩]; rfl
  · rw [f _ _ _ _ (by decide), State.reg_change _ (by decide), if_neg (by simp), idleLinks_reg _ _ (by decide), State.reg_setReg_same]; rfl
  · rw [f _ _ _ _ (by decide), State.reg_change _ (by decide), if_pos ⟨rfl, rfl⟩]; rfl
  · intro k hk; exact g _ _ k (.inl (List.mem_range.2 hk))

theorem loseStacks_facts (s : State) : s.loseStacks.reg .slotValid = 0 ∧ s.loseStacks.mirror = [] ∧ s.loseStacks.shards = [] ∧
    (∀ a, a < 0x20000000000 → s.loseStacks.byte a = 0) ∧ (∀ r j, touchLoseStacks (some r) = false → s.loseStacks.reg r j = s.reg r j) := by
  refine ⟨?_, rfl, rfl, ?_, fun r j h => loseStacks_reg _ _ h _⟩
  · unfold State.loseStacks
    dsimp only
    rw [clearReg_reg _ _ _ (by decide), clearReg_reg _ _ _ (by decide), State.reg_setReg_ne _ (by decide), State.reg_setReg_same]; rfl
  · intro a ha
    show (s.wipe 0 0x20000000000).byte a = 0
    rw [State.byte_wipe, if_pos ⟨Nat.zero_le _, ha⟩]

theorem out_pumpAudit (s : State) (x : Output) (hx : x ∈ s.out) : x ∈ s.pumpAudit.out := by
  unfold State.pumpAudit
  dsimp only
  have fold' : ∀ (n : Nat) (l : List Subscription) (u : State), x ∈ u.out → x ∈ (l.foldl (fun (u : State) x => if x.audit && decide (x.next ≤ n) then u.sendEvents x.who x.next else u) u).out := by
    intro n l; induction l with
    | nil => intro u h; exact h
    | cons y l ih =>
      intro u h; apply ih; dsimp only; split
      · obtain ⟨o, ho⟩ := sendEvents_same u y.who y.next; rw [ho]; exact List.mem_append_right _ h
      · exact h
  split
  · exact hx
  · exact fold' _ _ _ hx

theorem out_appendAudit (s : State) (o g p r f : Nat) (a b : List Byte) (x : Output) (hx : x ∈ s.out) : x ∈ (s.appendAudit o g p r f a b).out := by
  unfold State.appendAudit
  dsimp only
  apply out_pumpAudit
  split <;> exact hx

theorem out_change (s : State) (r : Reg) (i v : Nat) (x : Output) (hx : x ∈ s.out) : x ∈ (s.change r i v).out := by
  unfold State.change
  dsimp only
  split
  · exact hx
  · split
    · exact out_appendAudit _ _ _ _ _ _ _ _ _ hx
    · exact hx

theorem recovery_takeIdentity (s : State) (l : Nat) : (s.takeIdentity l).recovery = s.recovery := by
  unfold State.takeIdentity
  dsimp only
  rw [State.recovery_change]
  obtain ⟨_, _, _, _, h⟩ := logged_changeAll s .groupMap 0 ((List.range 17).map fun q =>
    if q = l then withoutBit (s.reg .groupMap q) 20
    else if q = s.pos then 2 ^ 20 + s.reg .groupMap l % 2 ^ 20 else s.reg .groupMap q)
  rw [h]

theorem setRecovery_state (u : State) (v : Nat) (hv : v < 256) : (u.setRecovery v).reg .recoveryState = v := by
  unfold State.setRecovery
  split
  · assumption
  · show (u.change .recoveryState 0 v).reg .recoveryState 0 = v
    rw [State.reg_change _ (by decide), if_pos ⟨rfl, rfl⟩]; exact Nat.mod_eq_of_lt hv

theorem beginRecovery_facts (s : State) (k p e t : Nat) (he : e < 65536) : (s.beginRecovery k p e t).reg .recoveryState = 2 ∧
    (s.beginRecovery k p e t).reg .jobEpoch = e ∧ (s.beginRecovery k p e t).recovery = some ⟨k, p, e, t, []⟩ := by
  unfold State.beginRecovery
  dsimp only
  generalize (((s.abandonAll.drainStores).stopHarts.stopCopy none).leavePairing).endOpc 0x21 0x81 0 = a
  refine ⟨setRecovery_state _ _ (by decide), ?_, ?_⟩
  · rw [setRecovery_reg _ _ _ (by decide), State.reg_setReg_ne _ (by decide)]
    have r : ∀ (u : State) (x : List Nat) (y : Option Recovery), ({ u with jobEpochs := x, recovery := y } : State).reg .jobEpoch = u.reg .jobEpoch := fun _ _ _ => rfl
    rw [r, installEpoch_reg _ _ (by decide), State.reg_change _ (by decide), if_pos ⟨rfl, rfl⟩]
    exact Nat.mod_eq_of_lt he
  · rw [setRecovery_recovery]; rfl

theorem recover_facts (s : State) (k p e t : Nat) (he : e < 65536) : (s.recover k p e t).reg .recoveryState = 2 ∧
    (s.recover k p e t).reg .jobEpoch = e ∧ (s.recover k p e t).recovery = some ⟨k, p, e, t, []⟩ := by
  unfold State.recover
  obtain ⟨h1, h2, h3⟩ := beginRecovery_facts s k p e t he
  generalize s.beginRecovery k p e t = a at h1 h2 h3 ⊢
  dsimp only
  split
  · exact ⟨h1, h2, h3⟩
  · have f : Sent a ((a.updated p).foldl (fun (u : State) q => u.control q (.takeover p)) a) := Sent.foldl (Sent.refl a) fun u q => sent_emit ..
    have g : ∀ r j, ((a.updated p).foldl (fun (u : State) q => u.control q (.takeover p)) a).reg r j = a.reg r j :=
      fun r j => State.reg_foldl (f := fun (u : State) q => u.control q (.takeover p)) (fun u q => control_reg ..) (a.updated p) a
    rw [g, g, f.same.2.2.2.2.2.2.1]
    exact ⟨h1, h2, h3⟩

theorem logged_idleLinks (s : State) : Logged s s.idleLinks := by
  unfold State.idleLinks
  refine Logged.trans (Logged.trans (Logged.foldl s (Logged.refl s) fun v x hv => ?_) (logged_setReg ..)) (logged_setReg ..)
  split
  · exact hv
  · exact Logged.trans hv (Logged.trans (logged_change ..) (logged_change ..))

theorem logged_holdInReset (s : State) : Logged s s.holdInReset := by
  unfold State.holdInReset
  dsimp only
  refine Logged.foldl s ?_ fun v x hv => Logged.trans hv (logged_setReg ..)
  refine Logged.trans (Logged.trans ?_ (logged_idleLinks _)) (logged_change ..)
  exact Logged.trans (Logged.trans (Logged.trans (Logged.trans (logged_abortTransition s) (logged_enter ..)) (logged_setReg ..)) (logged_setReg ..)) (logged_setReg ..)

theorem logged_same {s t : State} (h : Logged s t) : t.bays = s.bays ∧ t.sessions = s.sessions ∧ t.errorLog = s.errorLog ∧ t.mem = s.mem ∧ t.tests = s.tests := by
  obtain ⟨_, _, _, _, rfl⟩ := h
  exact ⟨rfl, rfl, rfl, rfl, rfl⟩

/-- Scratchpads that stay off change no more than their registers. -/
theorem warmClear_same (u : State) : ∃ r, u.warmClear = { u.clearWarm with regs := r } := by
  unfold State.warmClear
  generalize u.clearWarm = v
  generalize List.range 8 = l
  induction l generalizing v with
  | nil => exact ⟨v.regs, rfl⟩
  | cons d l ih =>
    obtain ⟨r, h⟩ := ih (if v.scratchOff d then v.setReg .llmScratchWays d 0 else v)
    refine ⟨r, ?_⟩
    rw [List.foldl_cons, h]
    split <;> rfl

theorem warmClear_reg_ne (u : State) {q : Reg} (hq : Reg.llmScratchWays ≠ q) (i : Nat) : u.warmClear.reg q i = u.clearWarm.reg q i := by
  unfold State.warmClear
  generalize u.clearWarm = v
  generalize List.range 8 = l
  induction l generalizing v with
  | nil => rfl
  | cons d l ih =>
    rw [List.foldl_cons, ih]
    split
    · exact State.reg_setReg_ne _ hq ..
    · rfl

theorem clearWarm_facts (u : State) : u.clearWarm.bays = [] ∧ u.clearWarm.sessions = [] ∧ u.clearWarm.errorLog = u.errorLog := ⟨rfl, rfl, rfl⟩

theorem clearWarm_jobActive (u : State) : u.clearWarm.reg .jobActive = 0 := by
  unfold State.clearWarm
  rw [loseScratchpads_reg _ _ (by decide), State.reg_clearDomain]; rfl

theorem warmClear_facts (u : State) : u.warmClear.bays = [] ∧ u.warmClear.sessions = [] ∧ u.warmClear.errorLog = u.errorLog := by
  obtain ⟨r, h⟩ := warmClear_same u
  rw [h]; exact clearWarm_facts u

theorem coldClear_facts (u : State) : u.coldClear.bays = [] ∧ u.coldClear.sessions = [] ∧ u.coldClear.errorLog = [] := by
  exact ⟨rfl, rfl, rfl⟩

theorem warmReset_facts (s : State) : s.warmReset.reg .nodeState = 2 ∧ s.warmReset.reg .inReset = 1 ∧ s.warmReset.reg .resetCause = 2 ∧
    s.warmReset.reg .jobActive = 0 ∧ s.warmReset.bays = [] ∧ s.warmReset.sessions = [] ∧ s.warmReset.errorLog = s.errorLog ∧ ∀ k, k < 48 → s.warmReset.reg .clkMhz k = 0 := by
  unfold State.warmReset
  obtain ⟨f1, f2, f3, f4⟩ := holdInReset_facts s.holdInReset.warmClear
  obtain ⟨l1, l2, l3, -⟩ := logged_same (logged_holdInReset s.holdInReset.warmClear)
  have e0 : s.holdInReset.errorLog = s.errorLog := (logged_same (logged_holdInReset s)).2.2.1
  have e1 : s.holdInReset.warmClear.holdInReset.bays = [] := l1.trans (warmClear_facts _).1
  have e2 : s.holdInReset.warmClear.holdInReset.sessions = [] := l2.trans (warmClear_facts _).2.1
  have e3 : s.holdInReset.warmClear.holdInReset.errorLog = s.errorLog := by
    exact l3.trans (((warmClear_facts _).2.2).trans e0)
  have e4 : s.holdInReset.warmClear.holdInReset.reg .jobActive = 0 := by
    rw [holdInReset_reg _ _ (by decide)]
    rw [warmClear_reg_ne _ (by decide)]
    exact clearWarm_jobActive _
  generalize s.holdInReset.warmClear.holdInReset = u at *
  refine ⟨?_, ?_, ?_, ?_, e1, e2, e3, fun k hk => ?_⟩
  · rw [State.reg_setReg_ne _ (by decide)]; exact f1
  · rw [State.reg_setReg_ne _ (by decide)]; exact f2
  · rw [State.reg_setReg_same]; rfl
  · rw [State.reg_setReg_ne _ (by decide)]; exact e4
  · rw [State.reg_setReg_ne _ (by decide)]; exact f4 k hk

theorem coldReset_facts (s : State) : s.coldReset.reg .nodeState = 2 ∧ s.coldReset.reg .inReset = 1 ∧ s.coldReset.reg .resetCause = 1 ∧
    s.coldReset.reg .jobActive = 0 ∧ s.coldReset.errorLog = [] ∧ s.coldReset.bays = [] ∧ s.coldReset.sessions = [] ∧ ∀ k, k < 48 → s.coldReset.reg .clkMhz k = 0 := by
  unfold State.coldReset
  obtain ⟨f1, f2, f3, f4⟩ := holdInReset_facts s.holdInReset.coldClear
  obtain ⟨l1, l2, l3, -⟩ := logged_same (logged_holdInReset s.holdInReset.coldClear)
  have e1 : s.holdInReset.coldClear.holdInReset.bays = [] := l1.trans (coldClear_facts _).1
  have e2 : s.holdInReset.coldClear.holdInReset.sessions = [] := l2.trans (coldClear_facts _).2.1
  have e3 : s.holdInReset.coldClear.holdInReset.errorLog = [] := l3.trans (coldClear_facts _).2.2
  have e4 : s.holdInReset.coldClear.holdInReset.reg .jobActive = 0 := by
    rw [holdInReset_reg _ _ (by decide)]
    unfold State.coldClear
    dsimp only
    rw [State.reg_setReg_ne _ (by decide), State.reg_setReg_ne _ (by decide)]
    rw [State.reg_upd, State.reg_clearDomain]
    exact (if_neg (by decide)).trans (clearWarm_jobActive _)
  generalize s.holdInReset.coldClear.holdInReset = u at *
  have g : ∀ t : State, t = u.setReg .resetCause 0 1 → t.reg .nodeState = 2 ∧ t.reg .inReset = 1 ∧ t.reg .resetCause = 1 ∧
    t.reg .jobActive = 0 ∧ t.errorLog = [] ∧ t.bays = [] ∧ t.sessions = [] ∧ ∀ k, k < 48 → t.reg .clkMhz k = 0 := by
    rintro t rfl
    refine ⟨?_, ?_, ?_, ?_, e3, e1, e2, fun k hk => ?_⟩
    · rw [State.reg_setReg_ne _ (by decide)]; exact f1
    · rw [State.reg_setReg_ne _ (by decide)]; exact f2
    · rw [State.reg_setReg_same]; rfl
    · rw [State.reg_setReg_ne _ (by decide)]; exact e4
    · rw [State.reg_setReg_ne _ (by decide)]; exact f4 k hk
  have gw : ∀ t : State, t = (u.setReg .resetCause 0 1).setReg .warmWaiting 0 0 → t.reg .nodeState = 2 ∧ t.reg .inReset = 1 ∧ t.reg .resetCause = 1 ∧
    t.reg .jobActive = 0 ∧ t.errorLog = [] ∧ t.bays = [] ∧ t.sessions = [] ∧ ∀ k, k < 48 → t.reg .clkMhz k = 0 := by
    rintro t rfl
    obtain ⟨g1, g2, g3, g4, g5, g6, g7, g8⟩ := g _ rfl
    refine ⟨?_, ?_, ?_, ?_, g5, g6, g7, fun k hk => ?_⟩ <;> rw [State.reg_setReg_ne _ (by decide)]
    · exact g1
    · exact g2
    · exact g3
    · exact g4
    · exact g8 k hk
  obtain ⟨w, hw⟩ : ∃ w, w = (u.setReg .resetCause 0 1).setReg .warmWaiting 0 0 := ⟨_, rfl⟩
  have gw := gw w hw
  rw [← hw]
  dsimp only
  split
  · obtain ⟨g1, g2, g3, g4, g5, g6, g7, g8⟩ := gw
    refine ⟨?_, ?_, ?_, ?_, g5, g6, g7, fun k hk => ?_⟩
    · rw [State.reg_setReg_ne _ (by decide)]; exact g1
    · rw [State.reg_setReg_ne _ (by decide)]; exact g2
    · rw [State.reg_setReg_ne _ (by decide)]; exact g3
    · rw [State.reg_setReg_ne _ (by decide)]; exact g4
    · rw [State.reg_setReg_ne _ (by decide)]; exact g8 k hk
  · exact gw

theorem sessionOf_end (s : State) (p : Port) (id : Nat) : (s.endSession p id).sessionOf p id = none := by
  unfold State.sessionOf
  have e : (s.endSession p id).sessions = s.sessions.filter fun (x : Session) => !(x.port = p && x.id = id) := rfl
  rw [e, List.find?_eq_none]
  intro x hx
  have := (List.mem_filter.1 hx).2
  simp at this ⊢
  intro h h'
  rcases this with g | g
  · exact g h
  · exact g h'

theorem chan_setChan (s : State) (a b : Nat) (c : Channel) : (s.setChan a c).chan b = if a = b then c else s.chan b := by
  unfold State.setChan State.chan Store.put Store.at; rw [Store.get_set]

theorem installRemap_facts (s : State) (st e row : Nat) (h : s.reg .reserveRowsLeft st < 2 ^ 32) :
    (s.installRemap st e row).remaps = s.remaps ++ [(⟨st, e, row⟩ : Remap)] ∧ (s.installRemap st e row).reg .reserveRowsLeft st = s.reg .reserveRowsLeft st - 1 := by
  unfold State.installRemap
  dsimp only
  obtain ⟨a, ha⟩ : ∃ a : State, a = ({ s with remaps := s.remaps ++ [(⟨st, e, row⟩ : Remap)] } : State).change .reserveRowsLeft st (({ s with remaps := s.remaps ++ [(⟨st, e, row⟩ : Remap)] } : State).reg .reserveRowsLeft st - 1) := ⟨_, rfl⟩
  have a1 : a.remaps = s.remaps ++ [(⟨st, e, row⟩ : Remap)] := by rw [ha, State.remaps_change]
  have a2 : a.reg .reserveRowsLeft st = s.reg .reserveRowsLeft st - 1 := by
    rw [ha, State.reg_change _ (by decide), if_pos ⟨rfl, rfl⟩]
    have m : Reg.modulus .reserveRowsLeft = 2 ^ 32 := rfl
    have e : ∀ (l : List Remap), ({ s with remaps := l } : State).reg .reserveRowsLeft st = s.reg .reserveRowsLeft st := fun _ => rfl
    rw [m, e]; omega
  rw [← ha]
  split
  · obtain ⟨_, _, _, _, l⟩ := logged_degrade a 7
    exact ⟨by rw [l]; exact a1, by rw [degrade_reg _ _ _ (by decide)]; exact a2⟩
  · exact ⟨a1, a2⟩

theorem mapoutWaits_degrade (s : State) (b : Nat) : (s.degrade b).mapoutWaits = s.mapoutWaits := by
  obtain ⟨_, _, _, _, h⟩ := logged_degrade s b; rw [h]

theorem mapoutWaits_showSlots (s : State) : s.showSlots.mapoutWaits = s.mapoutWaits := by
  unfold State.showSlots
  dsimp only
  show (State.change _ _ _ _).mapoutWaits = _
  rw [State.mapoutWaits_change, State.mapoutWaits_change]

theorem mapoutWaits_setSlot (s : State) (k : Nat) (x : Slot) : (s.setSlot k x).mapoutWaits = s.mapoutWaits := by
  unfold State.setSlot
  rw [mapoutWaits_showSlots]; split <;> rfl

theorem mapoutWaits_stopCopy (s : State) (c : Option Nat) : (s.stopCopy c).mapoutWaits = s.mapoutWaits := by
  unfold State.stopCopy
  have f : ∀ (l : List Nat) (u : State), (l.foldl (fun (u : State) k =>
    if (u.slot k).state = 1 || ((u.slot k).state = 2 && !(u.slot k).committed) then
      let u := u.setSlot k Slot.empty
      match c with
      | some c => u.snapshotInvalid 0x10 k c
      | none => u
    else u) u).mapoutWaits = u.mapoutWaits := by
    intro l; induction l with
    | nil => intro u; rfl
    | cons y l ih =>
      intro u
      rw [List.foldl_cons, ih]
      split
      · dsimp only
        cases c with
        | none => exact mapoutWaits_setSlot ..
        | some c => exact (State.mapoutWaits_logError ..).trans (mapoutWaits_setSlot ..)
      · rfl
  exact f _ _

theorem mapoutWaits_mapChanged (s : State) : s.mapChanged.mapoutWaits = s.mapoutWaits := by
  unfold State.mapChanged
  rw [mapoutWaits_showSlots]
  unfold State.showShards
  have f : ∀ (l : List Nat) (u : State) (g : State → Nat → Nat), (l.foldl (fun (u : State) k => u.setReg .shardDir k (g u k)) u).mapoutWaits = u.mapoutWaits := by
    intro l; induction l with
    | nil => intro u g; rfl
    | cons y l ih => intro u g; exact ih _ g
  rw [f]

theorem tests_noteBlocked (s : State) : s.noteBlocked.tests = s.tests := by
  unfold State.noteBlocked State.raise
  split
  · rfl
  · split
    · dsimp only; rw [State.tests_change]; rfl
    · rfl

theorem tests_decideMapout (s : State) (ch : Nat) : (s.decideMapout ch).tests = s.tests := by
  unfold State.decideMapout
  split
  · rfl
  · split
    · rw [tests_enterFaulted, State.tests_logError]
    · dsimp only
      rw [tests_noteBlocked, State.tests_change]
      show (s.logError _).tests = _
      rw [State.tests_logError]

theorem errorLog_testChannel (s : State) (ch code : Nat) : (s.testChannel ch code).errorLog = s.errorLog := by
  unfold State.testChannel
  split
  · show (State.change _ _ _ _).errorLog = _
    rw [State.errorLog_change]; rfl
  · rfl

theorem svxWrite_facts (s : State) (h : Nat) (w : Bool) (vd : Nat) (r : Nat × Nat) :
    ((s.svxWrite h w vd r).hart h).vreg vd = r.1 % 2 ^ formBits w ∧ ((s.svxWrite h w vd r).hart h).fflags = (s.hart h).fflags ||| r.2 ∧
      ((s.svxWrite h w vd r).hart h).fs = 3 ∧ ((s.svxWrite h w vd r).hart h).pc = ((s.hart h).pc + 4) % 2 ^ 64 ∧
      (∀ k, k ≠ vd → ((s.svxWrite h w vd r).hart h).vreg k = (s.hart h).vreg k) ∧
      (∀ k, ((s.svxWrite h w vd r).hart h).reg k = (s.hart h).reg k) ∧
      (∀ k, k ≠ h → (s.svxWrite h w vd r).hart k = s.hart k) ∧ RegsKept [] s (s.svxWrite h w vd r) ∧ MemKept s (s.svxWrite h w vd r) := by
  have hh : (s.svxWrite h w vd r).hart h = { (((s.hart h).setVreg vd (r.1 % 2 ^ formBits w)).accrue r.2) with
      pc := ((((s.hart h).setVreg vd (r.1 % 2 ^ formBits w)).accrue r.2).pc + 4) % 2 ^ 64
      instret := ((((s.hart h).setVreg vd (r.1 % 2 ^ formBits w)).accrue r.2).instret + 1) % 2 ^ 64, wait := .none } := by
    unfold State.svxWrite State.retire
    dsimp only
    rw [State.hart_setHart, if_pos rfl]
  have ac : ∀ t : Hart, (t.accrue r.2).v = t.v ∧ (t.accrue r.2).fflags = t.fflags ||| r.2 ∧ (t.fs = 3 → (t.accrue r.2).fs = 3) ∧ (t.accrue r.2).pc = t.pc ∧ (t.accrue r.2).x = t.x := by
    intro t; unfold Hart.accrue; split
    · next h => rw [h]; exact ⟨rfl, by simp, fun h => h, rfl, rfl⟩
    · exact ⟨rfl, rfl, fun _ => rfl, rfl, rfl⟩
  obtain ⟨a1, a2, a3, a4, a5⟩ := ac ((s.hart h).setVreg vd (r.1 % 2 ^ formBits w))
  have fb : r.1 % 2 ^ formBits w % 2 ^ 128 = r.1 % 2 ^ formBits w := by
    apply Nat.mod_eq_of_lt
    refine Nat.lt_of_lt_of_le (Nat.mod_lt _ (Nat.two_pow_pos _)) (Nat.pow_le_pow_right (by decide) ?_)
    unfold formBits; split <;> decide
  rw [hh]
  refine ⟨?_, a2, a3 rfl, ?_, ?_, ?_, ?_, fun q _ i => svxWrite_reg _ _ _ _ _ _ (by rfl) _, fun a => ?_⟩
  · show Store.at 0 (Hart.accrue _ _).v _ = _
    rw [a1]
    unfold Hart.setVreg Store.put Store.at
    rw [Store.get_set, if_pos rfl, fb]
  · show ((Hart.accrue _ _).pc + 4) % 2 ^ 64 = _
    rw [a4]; rfl
  · intro k hk
    show Store.at 0 (Hart.accrue _ _).v _ = _
    rw [a1]
    unfold Hart.setVreg Store.put Hart.vreg Store.at
    rw [Store.get_set, if_neg (Ne.symm hk)]
  · intro k
    unfold Hart.reg
    dsimp only
    rw [a5]; rfl
  · intro k hk
    unfold State.svxWrite State.retire
    dsimp only
    rw [State.hart_setHart, if_neg (Ne.symm hk)]
  · unfold State.byte; rw [svxWrite_mem _ _ _ _ _ (by decide)]

theorem svx_ok {c : Fin 3072 → Bool → Bool → Fin 32 → Fin 32 → Fin 8 → Fin 32 → Instr}
    {f : Bool → Bool → Fin 32 → Fin 8 → Nat → Nat → Nat → Nat × Nat} (fn : Nat)
    (hc : ∀ s h w u vs2 vs1 et vd, exec (c h w u vs2 vs1 et vd) s =
      s.svxArith h.val fn w u vs2.val vs1.val et.val vd.val (f w u vs2 et)) :
    SvxCompletes c (fun u vs2 et => svxLegal fn u vs2.val et.val) f := by
  intro s h w u vs2 vs1 et vd h0 h1 h2
  have e := hc s h w u vs2 vs1 et vd
  unfold State.svxArith at e
  dsimp only at e
  rw [if_neg (by simp [h0]), if_neg (by simp [h1, h2])] at e
  exact ⟨_, e, _, rfl, svxWrite_facts _ _ _ _ _⟩

theorem lane_packLanes (et : Nat) (ls : List Nat) (i : Nat) (h : i < ls.length) : lane et (packLanes (laneBits et) ls) i = ls[i] % 2 ^ laneBits et := by
  have p : 0 < 2 ^ laneBits et := Nat.two_pow_pos _
  unfold lane field
  induction ls generalizing i with
  | nil => exact absurd h (by simp)
  | cons a l ih =>
    cases i with
    | zero =>
      simp only [packLanes, List.foldr_cons, Nat.zero_mul, Nat.pow_zero, Nat.div_one, List.getElem_cons_zero]
      rw [Nat.mul_add_mod_self_right, Nat.mod_mod]
    | succ i =>
      have e : packLanes (laneBits et) (a :: l) = packLanes (laneBits et) l * 2 ^ laneBits et + a % 2 ^ laneBits et := rfl
      have d : packLanes (laneBits et) (a :: l) / 2 ^ laneBits et = packLanes (laneBits et) l := by
        rw [e, Nat.add_comm, Nat.add_mul_div_right _ _ p, Nat.div_eq_of_lt (Nat.mod_lt _ p), Nat.zero_add]
      rw [Nat.add_mul, Nat.one_mul, Nat.add_comm, Nat.pow_add, ← Nat.div_div_eq_div_mul, d]
      exact ih i (by simpa using h)

theorem packLanes_lt (n : Nat) (ls : List Nat) : packLanes n ls < 2 ^ (ls.length * n) := by
  have p : 0 < 2 ^ n := Nat.two_pow_pos _
  induction ls with
  | nil => simp [packLanes]
  | cons a l ih =>
    have e : packLanes n (a :: l) = packLanes n l * 2 ^ n + a % 2 ^ n := rfl
    rw [e, List.length_cons, Nat.add_mul, Nat.one_mul, Nat.pow_add]
    have := Nat.mod_lt a p
    have h2 : (packLanes n l + 1) * 2 ^ n ≤ 2 ^ (l.length * n) * 2 ^ n := Nat.mul_le_mul_right _ ih
    rw [Nat.add_mul, Nat.one_mul] at h2
    omega

theorem vector_ok {c : Fin 256 → Instr} {op fn : Nat} {plan : State → Bay → Flight → Operands → Effect}
    (hc : ∀ b s, exec (c b) s = .next (s.runVector b.val op fn)) (hp : plan = if op = opVop then State.planVop else State.planVred) :
    VectorCompletes c op fn plan := by
  intro s b f o h0 h1
  refine ⟨_, hc b s, ?_⟩
  unfold State.runVector
  dsimp only
  have h0' : (s.ready b.val fun f => decide (f.op = op) && decide (f.param 0 8 = fn)) = some f := h0
  rw [h0', if_neg (by simp)]
  have e : s.runEntry b.val (fun f => decide (f.op = op) && decide (f.param 0 8 = fn)) (if op = opVop then State.planVop else State.planVred) =
      s.perform b.val f (plan (s.viewFor b.val f) (s.bay b.val) f o) := by
    unfold State.runEntry
    rw [h0']
    dsimp only
    rw [h1, hp]
  rw [e]

theorem coll_ok {c : Fin 256 → Instr} {kind : Nat} (hc : ∀ b s, exec (c b) s = .next (s.joinColl b.val kind)) : CollCompletes c kind := by
  intro s u b f o k h0 h1 h2 h3 h4
  refine ⟨_, hc b s, ?_⟩
  unfold State.joinColl
  have h0' : (s.ready b.val fun f => decide (f.op = opColl) && decide (f.ckind = kind)) = some f := h0
  rw [h0']
  dsimp only
  rw [h1]
  dsimp only
  rw [if_neg (by simp [h2]), h3]
  dsimp only
  rw [h4]
  dsimp only
  constructor
  · intro h
    rw [h]
    exact ⟨_, _, rfl, rfl, rfl⟩
  · intro n h
    rw [h]
    exact ⟨_, _, rfl, rfl, rfl⟩

theorem arrives_ok {c : Instr} {q : Nat} {h : Header} {b : Body} (hc : ∀ s, exec c s = .next (s.arrive q ⟨h, b⟩)) : Arrives c q h b := by
  intro s h0 h1 h2 h3 h4 h5
  refine ⟨_, hc s, _, rfl, ?_⟩
  unfold State.arrive
  dsimp only
  have hs : h.seq.toNat < 65536 := h.seq.isLt
  have he : s.elsewhere h = false := by unfold State.elsewhere; simp [h0]
  have ha : (h.seq.toNat + 65536 - h.seq.toNat) % 65536 = 0 := by omega
  rw [if_neg (by simp [he]), if_neg (by simp [h1]), if_neg (by simp [h2]), if_neg (by simp [h0]), if_neg (by simp [h3]), h4, ha,
    if_pos (by simp [h5])]

theorem answers_ok {c : Instr} {q : Nat} {h : Header} {d : List Byte} {p : Bool} {code cause : Nat} (b : Body)
    (hc : ∀ s, exec c s = .next (s.answerArrives q h b d p code cause)) : AnswerArrives c q h d p code cause := by
  intro s r h0 h1 h2 h3
  refine ⟨_, hc s, ?_⟩
  unfold State.answerArrives
  have he : s.elsewhere h = false := by unfold State.elsewhere; simp [h0]
  rw [if_neg (by simp [he]), if_neg (by simp [h1, h2]), if_neg (by simp [h0]), h3]

theorem pumpAudit_subs (s : State) : ∃ g : Subscription → Subscription, s.pumpAudit.subs = s.subs.map g ∧ ∀ x, g x = { x with next := (g x).next } := by
  unfold State.pumpAudit
  dsimp only
  have fold' : ∀ (n : Nat) (l : List Subscription) (u : State), (l.foldl (fun (u : State) x => if x.audit && decide (x.next ≤ n) then u.sendEvents x.who x.next else u) u).subs = u.subs := by
    intro n l; induction l with
    | nil => intro u; rfl
    | cons x l ih => intro u; rw [List.foldl_cons, ih]; split
                     · obtain ⟨o, ho⟩ := sendEvents_same u x.who x.next; rw [ho]
                     · rfl
  split
  · exact ⟨id, by simp, fun x => rfl⟩
  · exact ⟨_, congrArg _ (fold' _ _ _), fun x => by split <;> rfl⟩

theorem serveJp2_run (s : State) (q : Requester) (rseq obj off : Nat) (b : Jp2Body) (peers : Option Half)
    (h0 : (s.answers.find? fun a => sameSource a.who q && decide (a.rseq = rseq)) = none) (h1 : (needsSupervisor b && !s.supervisorServes) = false)
    (h2 : ∀ m, b ≠ .spdm m) :
    s.serveJp2 q rseq obj off b peers =
      ((s.jp2Body q obj off b peers).2.2.2.reply q rseq (.jp2 q (s.jp2Body q obj off b peers).1 rseq obj (s.jp2Body q obj off b peers).2.1 off (s.jp2Body q obj off b peers).2.2.1)).pumpAudit := by
  unfold State.serveJp2
  rw [h0]
  dsimp only
  rw [if_neg (by simp [h1])]
  cases b with
  | spdm m => exact absurd rfl (h2 m)
  | _ => rfl

theorem serveJp2_answers (s : State) (q : Requester) (rseq obj off : Nat) (b : Jp2Body) (peers : Option Half)
    (h0 : (s.answers.find? fun a => sameSource a.who q && decide (a.rseq = rseq)) = none) (h1 : (needsSupervisor b && !s.supervisorServes) = false)
    (h2 : ∀ m, b ≠ .spdm m) :
    Output.jp2 q (s.jp2Body q obj off b peers).1 rseq obj (s.jp2Body q obj off b peers).2.1 off (s.jp2Body q obj off b peers).2.2.1 ∈ (s.serveJp2 q rseq obj off b peers).out := by
  rw [serveJp2_run _ _ _ _ _ _ _ h0 h1 h2]
  apply out_pumpAudit
  exact List.mem_cons_self

theorem serveJp2_subs (s : State) (q : Requester) (rseq obj off : Nat) (b : Jp2Body) (peers : Option Half)
    (h0 : (s.answers.find? fun a => sameSource a.who q && decide (a.rseq = rseq)) = none) (h1 : (needsSupervisor b && !s.supervisorServes) = false)
    (h2 : ∀ m, b ≠ .spdm m) : ∃ g : Subscription → Subscription,
    (s.serveJp2 q rseq obj off b peers).subs = (s.jp2Body q obj off b peers).2.2.2.subs.map g ∧ ∀ x, g x = { x with next := (g x).next } := by
  rw [serveJp2_run _ _ _ _ _ _ _ h0 h1 h2]
  generalize s.jp2Body q obj off b peers = r
  obtain ⟨g, hg, hx⟩ := pumpAudit_subs (r.2.2.2.reply q rseq (.jp2 q r.1 rseq obj r.2.1 off r.2.2.1))
  exact ⟨g, hg, hx⟩

theorem plainJp2_serves (s : State) (q : Requester) (rseq obj off : Nat) (b : Jp2Body) (peers : Option Half) (h0 : s.portAnswers q.port = true) (h1 : q.session = none) :
    s.plainJp2 q rseq obj off b peers = s.serveJp2 q rseq obj off b peers := by
  unfold State.plainJp2
  rw [if_neg (by simp [h0]), if_neg (by simp [h1])]

/-- An accepted write, before the object's own effect, touches the object and what its audit entry touches, and no memory. -/
theorem accepted_kept (s : State) {r : Reg} (q : Requester) (inst : Nat) (bs : List Byte) (hr : r ≠ .squallHalflife) :
    RegsKept (acceptRegs r) s (s.accepted q r inst bs) ∧ MemKept s (s.accepted q r inst bs) := by
  refine ⟨fun x hx i => ?_, fun a => ?_⟩
  · have hx' : x ∉ auditRegs := fun h => hx (by unfold acceptRegs; exact List.mem_append_right _ h)
    have h1 : r ≠ x := by rintro rfl; exact hx (by simp [acceptRegs])
    have h2 : Reg.auditRefusing ≠ x := by rintro rfl; exact hx (by simp [acceptRegs])
    unfold State.accepted State.beforeChange
    dsimp only
    rw [if_neg hr, State.reg_setRegs_ne _ h1]
    show (State.setReg _ .auditRefusing 0 0).reg x i = _
    rw [State.reg_setReg_ne _ h2, State.reg_appendAudit _ hx']
  · unfold State.accepted State.beforeChange
    dsimp only
    rw [if_neg hr]
    unfold State.byte
    have hm : ∀ (vs : List Nat) (u : State) (i : Nat), (u.setRegs r i vs).mem = u.mem := by
      intro vs
      induction vs with
      | nil => intros; rfl
      | cons v vs ih => intro u i; exact (ih _ _).trans rfl
    rw [hm]
    exact congrArg (fun m => Store.at _ m a) (appendAudit_mem (h_ := rfl) ..)

/-- The registers that an accepted write leaves, from those that the object's effect leaves. -/
theorem regsKept_accepts {s t : State} {q : Requester} {r : Reg} {inst : Nat} {bs : List Byte} (L : List Reg)
    (eff : Reg → Nat → State → State) (own : Reg → Nat) (hr : r ≠ .squallHalflife) (hr' : r ≠ .auditAckHost)
    (ho : own r = resOk) (h : Accepts s q r inst bs)
    (e : .next (s.writeRequest q (r.objAt inst) bs eff own) = (.next t : Host.Outcome State Fault Refusal))
    (hk : ∀ u : State, RegsKept (L ++ acceptRegs r) u (eff r inst u)) : RegsKept (L ++ acceptRegs r) s t := by
  rw [State.writeRequest_accepts s q r inst bs eff own h ho hr'] at e
  cases e
  intro x hx i
  exact (hk _ x hx i).trans ((accepted_kept s q inst bs hr).1 x (fun a => hx (List.mem_append_right _ a)) i)

/-- An accepted write leaves memory when the object's effect does. -/
theorem memKept_accepts {s t : State} {q : Requester} {r : Reg} {inst : Nat} {bs : List Byte}
    (eff : Reg → Nat → State → State) (own : Reg → Nat) (hr : r ≠ .squallHalflife) (hr' : r ≠ .auditAckHost)
    (ho : own r = resOk) (h : Accepts s q r inst bs)
    (e : .next (s.writeRequest q (r.objAt inst) bs eff own) = (.next t : Host.Outcome State Fault Refusal))
    (hk : ∀ u : State, MemKept u (eff r inst u)) : MemKept s t := by
  rw [State.writeRequest_accepts s q r inst bs eff own h ho hr'] at e
  cases e
  intro a
  exact (hk _ a).trans ((accepted_kept s q inst bs hr).2 a)

end Sys2Proof.Machine
end

