-- ==== Sys2Proof/Laws/Leaves.lean ====
section
/-! SUPPORT. Frames as statements name them: a command leaves the registers outside a list, where every register that it may
touch is in the list. -/

namespace Sys2Proof.Machine

/-- Every register. -/
def Reg.all : List Reg := (List.range 400).map Reg.ofNat

theorem Reg.mem_all (r : Reg) : r ∈ Reg.all := by
  refine List.mem_map.2 ⟨r.ctorIdx, List.mem_range.2 ?_, Reg.ofNat_ctorIdx r⟩
  have h : Nat.ble (r.ctorIdx + 1) 400 = true := by cases r <;> rfl
  exact Nat.le_of_ble_eq_true h

/-- Where every register that a command may touch is in a list, it leaves the others. -/
theorem leavesRegs_of {c : Instr} {rs : List Reg}
    (h : ∀ r ∈ Reg.all, Instr.touches c (some r) = true → r ∈ rs) : LeavesRegs rs c := by
  intro s t e r hr j
  exact (frame_exec e).1 r (Bool.eq_false_iff.2 fun g => hr (h r (Reg.mem_all r) g)) j

/-- The same for a command that does not touch node memory. -/
theorem leaves_of {c : Instr} {rs : List Reg} (h : ∀ r ∈ Reg.all, Instr.touches c (some r) = true → r ∈ rs)
    (hm : Instr.touches c none = false) : Leaves rs c :=
  fun _ _ e => ⟨leavesRegs_of h _ _ e, (frame_exec e).2 hm⟩

end Sys2Proof.Machine
end

