-- ==== Sys2Proof/WellFormed.lean ====
section
/-! DEFINITION. Which commands are well formed: their operands are ones that the spec's ports, packets and sensors can carry.
What a command carries in its type (an index in range, a word of a width) needs no check here. -/

namespace Sys2Proof

/-- The host port has one session of its own and names none (R562, R573). -/
def Requester.wf (q : Requester) : Bool := q.port ≠ .host || q.session.isNone

/-- A packet's data is at most 256 B (R368); a mail packet's at most 4 KiB (R396). -/
def packetData (data : List Byte) : Bool := decide (data.length ≤ 256)
def mailData (data : List Byte) : Bool := decide (data.length ≤ 4096)

/-- A line and its data lie in one line of 128 B (R332, R333). -/
def inLine (a : Nat) (data : List Byte) : Bool := decide (1 ≤ data.length ∧ a % 128 + data.length ≤ 128)

/-- A host write lies in one line of 64 B (R557). -/
def inAtom (a : Nat) (data : List Byte) : Bool := decide (1 ≤ data.length ∧ a % 64 + data.length ≤ 64)

/-- Digest streams are numbered by logical bay * 8 + stream (R463). -/
def streamNumbers (xs : List (Nat × Nat)) : Bool := xs.all fun x => decide (x.1 < 2048)

/-- The body of a JP2 message is at most 1,400 B, and a subscription names at most 64 objects (R584, R590). -/
def Jp2Body.wf : Jp2Body → Bool
  | .write data => decide (data.length ≤ 1400)
  | .subOpenSample objects _ => decide (objects.length ≤ 64)
  | _ => true

/-- A command is well formed. -/
def Instr.wf : Instr → Bool
  | .thermalSample readings => decide (readings.length = 130)
  | .linkStateMessage _ states => decide (states.length = 16)
  | .levelSatRefresh f => decide (f.levels.length = 8)
  | .pktReadResp _ _ data _ | .pktWrite _ _ data _ | .pktRacc _ _ _ _ _ data _ => packetData data
  | .pktMail _ _ _ _ _ _ data _ => mailData data
  | .stackWrite a data _ => inLine a.toNat data
  | .hostMemWrite a data => inAtom a.toNat data
  | .crosswindStreamDigests _ _ streams => streamNumbers streams
  | .sqTailDoorbell _ _ entries => entries.all fun e => decide (e.length = 64)
  | .rosterRegister image _ _ => decide (image.length = 64)
  | .regionRegister image => decide (image.length = 32)
  | .remapRead _ row | .remapWrite _ row => decide (row < 61440)
  | .winCmdWrite _ _ _ data _ => decide (data.length ≤ 3840)
  | .jp2Write q _ _ _ data _ => q.wf && decide (data.length ≤ 1400)
  | .jp2Secured q _ _ _ _ body _ => q.wf && body.wf
  | .jdict m _ => m.body.wf
  | .subOpenSample q _ objects _ => q.wf && decide (objects.length ≤ 64)
  | .clkSelWrite q _ _ | .readyFlagSwitch q _ _ | .stateRequestLull q | .stateRequestResume q
  | .serviceRequestEnter q | .serviceRequestExit q | .locationWrite q _ | .modeSetWrite q _ _ _
  | .allocTopWrite q _ | .mapoutForceWrite q _ | .linkCmdRetrain q _ | .linkCmdDisable q _ | .linkCmdEnable q _
  | .errorAckWrite q _ | .alertCauseWrite q _ | .recoveryRollback q _ _ _ | .recoveryTakeover q _ _ _ _
  | .recoveryRejoin q _ _ _ | .sqEnableWrite q _ _ | .getVersion q | .getCapabilities q
  | .negotiateAlgorithms q | .getDigests q | .getCertificate q _ _ _ | .challenge q | .getMeasurements q _
  | .keyExchange q _ | .finish q _ _ _ _ | .heartbeat q | .keyUpdate q | .endSession q | .objectWrite q _ _ _ _
  | .auditAckHostWrite q _ | .auditHostHoldWrite q _ | .blobAssemblyTimeout q | .jp2Read q _ _ _ _
  | .jp2Spdm q _ _ | .subOpenAudit q _ _ _ | .subAck q _ _ | .subClose q _ _ | .taiSetWrite q _
  | .freezeCmdTrigger q | .freezeCmdRearm q | .freezeCmdDisarm q | .latClearWrite q _ => q.wf
  | _ => true

end Sys2Proof
end

