-- ==== Sys2Proof/Tests/Slice0.lean ====
section
/-! SUPPORT. Tests of the model: what the spec's worked examples give, well-formedness, and for each obligation with
hypotheses a theorem `met_<its name>` that shows, clause by clause, a state and operands that meet them. Where a witness
names `ready`, `job` and the like, these are small states built below. -/

open Sys2Proof Sys2Proof.Machine

set_option Elab.async false
set_option maxRecDepth 20000

namespace Sys2Proof.Tests

/-- A state with registers set. -/
def put (l : List (Reg × Nat × Nat)) (s : State) : State := l.foldl (fun s e => s.setReg e.1 e.2.1 e.2.2) s

/-- A node in READY, every unit started, with the host as requester at level 3. -/
def ready : State :=
  put [(.nodeState, 0, 3), (.stageStarted, 0, 7), (.mclkRuns, 0, 1), (.xtalState, 0, 1), (.vinMainIn, 0, 1),
    (.pwrOk, 0, 1),
    (.stackRailsIn, 0, 1), (.periphEn, 0, 63), (.stackTop, 0, 0x20000000000), (.allocTop, 0, 0x10000000000),
    (.hostGenMax, 0, 6), (.jp1Enable, 0, 1), (.hostPrincipals, 0, 2 * 16 ^ 96), (.temps, 128, 400)]
    { State.reset with sessions := [⟨.host, 0, 0, 0, true, 0⟩] }

/-- A node that runs a job of epoch 7, as position 0 of two. -/
def job : State :=
  put [(.nodeState, 0, 4), (.jobActive, 0, 1), (.jobRunning, 0, 1), (.jobEpoch, 0, 7), (.groupMap, 0, 0x100000),
    (.groupMap, 1, 0x100001), (.jobNodes, 0, 2), (.tableState, 0, 1), (.descCount, 0, 2)] ready

/-- A node in SERVICE with the wrapper of stack 0 selected. -/
def service : State := put [(.nodeState, 0, 8), (.wrapper, 0, 1)] ready

/-- A node in an INIT stage, with its location set. -/
def inStage (k : Nat) : State :=
  put [(.nodeState, 0, 2), (.initStage, 0, k), (.stageStarted, 0, k - 1), (.location, 0, 2 ^ 31),
    (.supStandbyOk, 0, 1)] ready

/-- A stage whose work finds everything in order. -/
def facts0 : StageFacts :=
  { image := some 0, startA := true, startB := true, pllNone := [], pllBOnly := [], hostTrained := none, segments := []
    uncertain := [], channels := [], baseDies := [], slices := [], bays := [], couplers := [], cores := [], slots := []
    shards := [], stackCorrected := [], linkCorrected := [], seconds := 1 }

/-- Who asks at the host port. -/
def host : Requester := ⟨.host, none, 0⟩

/-- A started entry of operation `op` with `FLAGS`, `PARAM`, and SRC_A, SRC_B and DST. -/
def entry (op : Nat) (flags param : Nat := 0) (a b d : Nat := 0xFFFFFFFF) : Flight :=
  { serial := 0, table := 0, index := 0, depth := 0
    word := op + flags * 2 ^ 8 + a * 2 ^ 64 + b * 2 ^ 96 + d * 2 ^ 128 + param * 2 ^ 160
    iters := [], ordinal := 0, reads := [], writes := [], uses := [], sets := [], issuedAt := 0, startAt := 0,
      scales := []
    executed := false, phase := 0, spec := false, retry := false, result := 0, status := 0, detail := 0, rflags := 0
    limit := 0, stopped := 0, halts := false, replies := [], areas := [], arrival := 0, plan := [], after := [], elems := 0 }

/-- An FP64 tensor of one element at address 0x2_0000_1000, and the same on logical node 1. -/
def tensor (remote : Bool := false) : Desc :=
  ⟨0x200001000, 1, 1, false, remote, false, [1, 1, 1, 1], [0, 0, 0], 0, 0, if remote then 1 else 0, false⟩

/-- The two descriptors, as they lie in memory. -/
def descLine : Nat :=
  let d := 0x200001000 + 2 ^ 48 + 2 ^ 64 + 2 ^ 88 + 2 ^ 112 + 2 ^ 136
  d + 2 ^ 512 * (d + 2 ^ 61 + 2 ^ 384)

/-- A bay with a table and the two descriptors in its cache. -/
def bay : Bay := { Bay.idle with present := true, descs := [(0, descLine)] }

/-- The job with one started entry in bay 0. -/
def running (f : Flight) : State := { job with bays := [(0, { bay with flights := [f] })] }

/-- The job with one issued entry in bay 0. -/
def issued (f : Flight) : State := { job with bays := [(0, { bay with head := some f })] }

/-- The job with logical hart 0 ready on core 0. -/
def hart0 (t : Hart := Hart.blank) : State :=
  { put [(.hartState, 0, 1), (.hartCount, 0, 2)] job with harts := [(0, t)] }

/-- The job, paired in Crosswind with position 1. -/
def paired : State := put [(.xwEnable, 0, 1), (.xwPartner, 0, 1), (.xwState, 0, 2)] job

/-- A command of queue 0. -/
def cmd (opc : Nat) (a b c : Nat := 0) : HostCmd := ⟨0, 0, opc, 0, a, b, c, false⟩

/-- A node with such a command accepted. -/
def asked (c : HostCmd) (s : State := job) : State := { s with cmds := [c] }

/-- A self-test of a unit that runs. -/
def test (kind unit : Nat) (stage : Nat := 0) : SelfTest := ⟨kind, unit, stage, 0, [], 0, 0⟩

/-- A header from logical node 1 to node 0. -/
def header (key : Dword := 0) : Header := ⟨1, false, 7, 0, 1, 0, 0, key⟩

/-- A message with that header over the link to position 1. -/
def arrival : Arrival := ⟨1, header⟩

/-- A message of Crosswind from the partner at position 1. -/
def xwArrival : Arrival := ⟨1, ⟨7, false, 0, 0, 1, 0, 0, 0⟩⟩

/-- A collective instance of two members, open at both. -/
def coll0 : Coll :=
  { id := ⟨0, 0, 0, 0⟩, sig := none, nd := false, members := [0, 1], rank := 0, bays := 1, joined := [(0, 0)], contribs := []
    staged := false, own := [], counts := [], status := 0, run := 0, parts := [], sent := [], rootStatus := 0,
      rootCounts := []
    results := [], tokens := [], refetch := [], retained := [(0, 1)], delivered := false, deliveredAt := 0, failed := none
    closed := false }

/-- A bay that joins a collective of a kind. -/
def joining (k : Nat) : State := { running (entry opColl 0 (k * 65536)) with colls := [coll0] }

/-- A mail message under way to node 1. -/
def mail0 (result : Option Nat) : Mail := ⟨0, 0, 0, 1, 2, none, false, 0, 0, [], false, false, 3, true, 0, 0, result⟩

/-- The request that node 0 has sent to node 1. -/
def request0 : Request := ⟨.hart 0 0, 1, ⟨⟨1, false, 7, 1, 0, 0, 0, 0⟩, .read 8⟩⟩

/-- A slot that is being copied. -/
def slot0 : Slot := { Slot.empty with state := 1, tagged := [0] }

/-- What a frozen node shows. -/
def view0 : SetView := { ready.setView 0 with regs := [((.clkMhz, 0), 0)] }

/-- An entry of the audit log. -/
def entry0 : AuditEntry := ⟨1, 0, 0x100001, 0, 0, 0, 0, 1, .inline [], .inline [1]⟩

/-- A descriptor of a model with 8 bytes of weights, and the image that registers it. -/
def modelDesc : List Byte := leBytes 64 (2 ^ 48 + 2 ^ 64 + 2 ^ 88 + 2 ^ 112 + 2 ^ 136 + 2 ^ 304 - 2 ^ 256)
def modelImage : List Byte :=
  leBytes 2 1 ++ leBytes 2 1 ++ leBytes 4 8 ++ leBytes 32 0 ++ leBytes 8 (digest (modelDesc ++ leBytes 8 0)) ++
    leBytes 16 0

/-- The image of a region of 128 bytes at 0x2_0000_1000, with key 5. -/
def regionImage : List Byte := leBytes 8 5 ++ leBytes 8 0x200001000 ++ leBytes 8 128 ++ leBytes 8 7

/-- A session of the management port under the service root. -/
def serviceSession : Session := ⟨.management, 5, 0, Config.serviceRoot.toNat, true, 0⟩

/-- Who asks in that session. -/
def engineer : Requester := ⟨.management, some 5, 0⟩

/-- A state with that session. -/
def served (s : State) : State := { s with sessions := [serviceSession] }

theorem engineer_level (s : State) : (served s).levelOf engineer = (3, 0x200) := by
  simp [State.levelOf, State.session, State.principalOf, portCeiling, served, engineer, serviceSession]

/-- A write by the engineer is accepted once nothing but its level is left to check. -/
theorem engineer_accepts {s : State} {r : Reg} {inst : Nat} {bs : List Byte} {l : Nat} (hl :
  r.info.access.writeLevel = some l)
    (h3 : l ≤ 3) (h : (decide ((served s).portAnswers .management = true) && (served s).supervisorServes &&
      (Reg.atAddr (r.objAt inst) == some (r,
        inst)) && decide (bs.length = r.size) && (served s).auditRoom && !(served s).defers r &&
      decide ((served s).stateRule r inst (((pieces r.info.esize r.info.elems bs).map ofLe).headD 0) = resOk) &&
      (served s).inRange r inst (((pieces r.info.esize r.info.elems bs).map ofLe).headD 0)
        ((pieces r.info.esize r.info.elems bs).map ofLe)) = true) : Accepts (served s) engineer r inst bs := by
  simp only [Bool.and_eq_true, decide_eq_true_eq, beq_iff_eq, Bool.not_eq_true'] at h
  obtain ⟨⟨⟨⟨⟨⟨⟨h1, h2⟩, h4⟩, h5⟩, h6⟩, h7⟩, h8⟩, h9⟩ := h
  refine ⟨h1, h2, by simp [State.unknownSession, State.session, served, engineer, serviceSession], h4, h5, ?_, h6, h7⟩
  unfold State.writeChecks
  rw [hl, engineer_level]
  dsimp only
  rw [if_neg (Nat.not_lt.mpr h3), h8, h9]
  simp

theorem ok_of {E A B : Type} {x : Except E (A × B)} (h : (match x with | .ok _ => true | .error _ => false) = true) :
    ∃ p u, x = .ok (p, u) := by
  cases x with
  | ok a => exact ⟨a.1, a.2, rfl⟩
  | error _ => cases h

/-- A result is this value. -/
def okIs {E A : Type} [DecidableEq A] (x : Except E A) (o : A) : Bool := match x with | .ok p => decide (p = o) | .error _ => false

theorem ok_is {E A : Type} [DecidableEq A] {x : Except E A} {o : A} (h : okIs x o = true) : x = .ok o := by
  cases x with
  | ok p => exact congrArg Except.ok (of_decide_eq_true h)
  | error _ => cases h

theorem some_of {A : Type} {x : Option A} (h : x.isSome = true) : ∃ u, x = some u := Option.isSome_iff_exists.mp h

theorem isNone_of {A : Type} {x : Option A} (h : x.isNone = true) : x = none := Option.isNone_iff_eq_none.mp h

/-- `exec` has answered a next state. -/
def answered (o : Host.Outcome State Fault Refusal) : Bool := match o with | .next _ => true | _ => false

theorem next_of {o : Host.Outcome State Fault Refusal} (h : answered o = true) : ∃ t, o = .next t := by
  cases o with
  | next t => exact ⟨t, rfl⟩
  | _ => cases h

theorem all_next {l : List Instr} {s : State} (h : (l.all fun c => answered (exec c s)) = true) : ∀ c ∈ l, ∃ t,
  exec c s = .next t :=
  fun c hc => next_of (List.all_eq_true.mp h c hc)

/-! Tests whose results the spec gives. -/

/-- Number Formats, Worked blocks: the ordinary block. -/
def ordinary : List Machine.Num :=
  [.fin false 3 0, .fin true 3 (-1), .fin false 3 (-2), .fin false 25 (-1), .fin true 29 (-2),
    fp64.decode 0x3FB999999999999A,
    .fin false 2 0, .fin true 1 (-5), .fin false 11 (-1), .fin false 9 0, .fin true 10 0, .fin false 1 (-1), .one,
    .fin true 11 (-2), .fin false 6 0, .zero false]

/-- Its scale is 0x7A, its bytes are those listed, and nothing saturates or is flushed. -/
theorem test_ordinary_block :
    let r := encodeBlock .e4m3 .one false ordinary
    r.scale = 0x7A ∧ r.saturated = 0 ∧ r.flushed = 0 ∧
      packBlock .e4m3 16 r.codes = [0x6C, 0xE4, 0x5C, 0x7C, 0xF6, 0x45, 0x68, 0xB8, 0x73, 0x79, 0xFA, 0x58, 0x60,
        0xEB, 0x74, 0] := by
  decide +kernel

/-- Element 3 decodes to 12, element 4 to -7 and element 5 to 0.1015625. -/
theorem test_ordinary_block_decodes :
    [(0x7C, fp64.infBits false), (0xF6, 0), (0x45,
      0)].map (fun p => (fp64.round false (blockValue .e4m3 0x7A .one p.1)).1) =
      [0x4028000000000000, 0xC01C000000000000, 0x3FBA000000000000] := by decide +kernel

/-- The all-zero block: scale 0 and the signs kept; in INT8 every code is 0. -/
theorem test_zero_block :
    let xs := (List.range 16).map fun i => Machine.Num.zero (i == 2 || i == 9)
    (encodeBlock .e4m3 .one false xs).scale = 0 ∧ (encodeBlock .e4m3 .one false xs).zeroBlock = true ∧
      (encodeBlock .e4m3 .one false xs).codes = (List.range 16).map (fun i => if i = 2 ∨ i = 9 then 0x80 else 0) ∧
        (encodeBlock .int8 .one false xs).codes = List.replicate 16 0 := by decide +kernel

/-- The dominant-element block. -/
def dominant : List Machine.Num :=
  [.fin false 3900 0, .fin false 2 0, .fin true 1 (-1), fp64.decode 0x3FB999999999999A, fp64.decode 0x3F847AE147AE147B,
    fp64.decode 0xBF70624DD2F1A9FC] ++ List.replicate 10 .one

/-- Subnormals kept: scale 0x82, one element saturated, none flushed. -/
theorem test_dominant_block_keep :
    let r := encodeBlock .e4m3 .one false dominant
    r.scale = 0x82 ∧ r.saturated = 1 ∧ r.flushed = 0 ∧
      r.codes = [0x7E, 0x28, 0x98, 0x06, 0x01, 0x80] ++ List.replicate 10 0x20 := by decide +kernel

/-- Subnormals flushed: elements 3 to 5 are. -/
theorem test_dominant_block_flush :
    let r := encodeBlock .e4m3 .one true dominant
    r.scale = 0x82 ∧ r.saturated = 1 ∧ r.flushed = 3 ∧
      r.codes = [0x7E, 0x28, 0x98, 0, 0, 0x80] ++ List.replicate 10 0x20 := by decide +kernel

/-- Number Formats, the example of R79: the slow path yields exactly 2^-300. -/
theorem test_slow_block :
    let x : KBlock := ⟨some 0, [.fin false 1 50, .fin false 1 50, .fin false 1 (-150)]⟩
    let y : KBlock := ⟨some 0, [.fin false 1 50, .fin true 1 50, .fin false 1 (-150)]⟩
    let r := blockSum .f64 fp64 none x y
    r.slow = true ∧ (fp64.round false r.value).1 = (1023 - 300) * 2 ^ 52 := by decide +kernel

/-- Four FP64 terms: 1 and three of 2^-53. -/
def fourTerms : List (Option (Machine.Num × Machine.Num)) :=
  [some (.one, .one), some (.fin false 1 (-53), .one), some (.fin false 1 (-53), .one), some (.fin false 1 (-53), .one)]

/-- Vector Engine, the example of R173: the tree gives one bit more than 1, the exact option two. -/
theorem test_tree_sum :
    (fp64.round false (reduce 0x40 fp64 false fourTerms).v).1 = 0x3FF0000000000001 ∧
      (fp64.round false (reduce 0x40 fp64 true fourTerms).v).1 = 0x3FF0000000000002 := by decide +kernel

/-- General Cores, the example of R272: a BF16 VDOT lane. -/
theorem test_vdot_lane : (dotOne false 5 [(0x4580, 0x4580), (0x3F80,
  0x3F80)] 0x3F800000).1 = 0x4B800001 := by decide +kernel

/-- Collectives, the example of R423: the two trees over six ranks. -/
theorem test_trees :
    treeKids 6 0 3 = [1, 5] ∧ treeKids 6 0 1 = [0, 2] ∧ treeKids 6 0 5 = [4] ∧
      treeKids 6 1 2 = [4, 0] ∧ treeKids 6 1 4 = [5, 3] ∧ treeKids 6 1 0 = [1] := by decide +kernel

/-- Its sums: on tree 0 the root combines its own contribution, rank 1's partial and rank 5's; on tree 1 its own,
  rank 4's
and rank 0's. -/
theorem test_tree_sums :
    let u := 0x3CA0000000000000
    let one := 0x3FF0000000000000
    let sum := fun xs : List Nat => (combineAll 0 1 (xs.map fun x => [some x])).1
    sum [u, one, u] = [some one] ∧ sum [u, u] = [some 0x3CB0000000000000] ∧
      sum [u, one, 0x3CB0000000000000] = [some 0x3FF0000000000001] := by decide +kernel

/-- Memory System, the example of R306. -/
theorem test_channel : primaryChannel 0x1234567880 = 156 := by decide +kernel

/-- Number of the check value of R461. -/
theorem test_digest : digest [0x31, 0x32, 0x33, 0x34, 0x35, 0x36, 0x37, 0x38,
  0x39] = 0x995DC9BBDF1939FA := by decide +kernel

/-- Node Architecture, the example of R30: hall 2, row 13, group slot 41 and position 9 give 0x11_A529. -/
theorem test_location :
    (locationEffect (put [(.location, 0, 2 * 2 ^ 19 + 13 * 2 ^ 13 + 41 * 2 ^ 5), (.posLatch, 0,
      9)] ready)).reg .physId 0 = 0x11A529 := by
  decide +kernel

/-- An idle step lets 1 ns pass, and none without VIN_AON. -/
theorem test_idle_step :
    step State.reset = .next { State.reset with now := 1, pclks := (25, 25) } ∧
      step (put [(.aonAbsent, 0, 1)] State.reset) = .next (put [(.aonAbsent, 0, 1)] State.reset) := ⟨rfl, rfl⟩

/-- A step takes the command at the front of the queue and leaves the rest. -/
theorem test_step_takes_front :
    (match step { ready with pending := [.mclkStop, .crystalStable] } with
      | .next t => decide (t.pending = [.crystalStable]) && decide (t.reg .mclkRuns = 0)
      | _ => false) = true := by decide +kernel

/-! Well-formedness: an operand that each check refuses, and one that it takes. -/

/-- A host requester that names a session. -/
def strayHost : Requester := ⟨.host, some 1, 0⟩

/-- Bytes of 0. -/
def zeros (n : Nat) : List Byte := List.replicate n 0

theorem test_wf_refuses : ∀ c ∈ ([
    .thermalSample (List.replicate 129 none), .linkStateMessage 0 (List.replicate 17 0),
    .levelSatRefresh ⟨List.replicate 7 0, [], [], [], [], []⟩, .pktReadResp 0 header (zeros 257) true,
    .pktWrite 0 header (zeros 257) true, .pktRacc 0 header 0 0 true (zeros 257) none,
    .pktMail (.position 0) header 0 0 0 .plain (zeros 4097) 0, .stackWrite 127 (zeros 2) ⟨true, .clean, false⟩,
    .hostMemWrite 63 (zeros 2), .crosswindStreamDigests xwArrival 0 [(2048, 0)], .sqTailDoorbell 0 0 [zeros 63],
    .rosterRegister (zeros 63) [] [], .regionRegister (zeros 31), .remapRead 0 61440,
    .remapWrite ⟨0, 0, 0, 0, 0⟩ 61440, .winCmdWrite 0 0 0 (zeros 3841) none, .jp2Write host 0 0 0 (zeros 1401) none,
    .jp2Write strayHost 0 0 0 [] none, .jp2Secured host true 0 0 0 (.write (zeros 1401)) none,
    .jp2Secured strayHost true 0 0 0 (.read 4) none,
    .jdict ⟨0x324A, 2, 0, none, 0, 0, 0, .subOpenSample (List.replicate 65 0) 0⟩ none,
    .subOpenSample host 0 (List.replicate 65 0) 0, .subOpenSample strayHost 0 [] 0, .clkSelWrite strayHost 0 0,
    .readyFlagSwitch strayHost 0 0, .stateRequestLull strayHost, .stateRequestResume strayHost,
    .serviceRequestEnter strayHost, .serviceRequestExit strayHost, .locationWrite strayHost 0,
    .modeSetWrite strayHost .subn 0 0, .allocTopWrite strayHost 0, .mapoutForceWrite strayHost 0,
    .linkCmdRetrain strayHost 0, .linkCmdDisable strayHost 0, .linkCmdEnable strayHost 0, .errorAckWrite strayHost 0,
    .alertCauseWrite strayHost 0, .recoveryRollback strayHost 0 0 none, .recoveryTakeover strayHost 0 0 0 none,
    .recoveryRejoin strayHost 0 0 none, .sqEnableWrite strayHost 0 0, .getVersion strayHost,
    .getCapabilities strayHost, .negotiateAlgorithms strayHost, .getDigests strayHost,
    .getCertificate strayHost 0 0 0, .challenge strayHost, .getMeasurements strayHost 0, .keyExchange strayHost 0,
    .finish strayHost 0 0 0 true, .heartbeat strayHost, .keyUpdate strayHost, .endSession strayHost,
    .objectWrite strayHost 0 0 [] none, .auditAckHostWrite strayHost 0, .auditHostHoldWrite strayHost 0,
    .blobAssemblyTimeout strayHost, .jp2Read strayHost 0 0 0 0, .jp2Spdm strayHost 0 .getVersion,
    .subOpenAudit strayHost 0 0 true, .subAck strayHost 0 0, .subClose strayHost 0 0, .taiSetWrite strayHost 0,
    .freezeCmdTrigger strayHost, .freezeCmdRearm strayHost, .freezeCmdDisarm strayHost,
      .latClearWrite strayHost 0] : List Instr), c.wf = false := by decide +kernel

theorem test_wf_takes : ∀ c ∈ ([
    .thermalSample (List.replicate 130 none), .linkStateMessage 0 (List.replicate 16 0),
    .levelSatRefresh ⟨List.replicate 8 0, [], [], [], [], []⟩, .pktReadResp 0 header (zeros 256) true,
    .pktWrite 0 header (zeros 256) true, .pktRacc 0 header 0 0 true (zeros 256) none,
    .pktMail (.position 0) header 0 0 0 .plain (zeros 4096) 0, .stackWrite 127 (zeros 1) ⟨true, .clean, false⟩,
    .hostMemWrite 63 (zeros 1), .crosswindStreamDigests xwArrival 0 [(2047, 0)], .sqTailDoorbell 0 0 [zeros 64],
    .rosterRegister (zeros 64) [] [], .regionRegister (zeros 32), .remapRead 0 61439,
    .remapWrite ⟨0, 0, 0, 0, 0⟩ 61439, .winCmdWrite 0 0 0 (zeros 3840) none, .jp2Write host 0 0 0 (zeros 1400) none,
    .jp2Write engineer 0 0 0 [] none, .jp2Secured host true 0 0 0 (.write (zeros 1400)) none,
    .jp2Secured engineer true 0 0 0 (.read 4) none,
    .jdict ⟨0x324A, 2, 0, none, 0, 0, 0, .subOpenSample (List.replicate 64 0) 0⟩ none,
    .subOpenSample host 0 (List.replicate 64 0) 0, .subOpenSample engineer 0 [] 0, .clkSelWrite engineer 0 0,
    .readyFlagSwitch engineer 0 0, .stateRequestLull engineer, .stateRequestResume engineer,
    .serviceRequestEnter engineer, .serviceRequestExit engineer, .locationWrite engineer 0,
    .modeSetWrite engineer .subn 0 0, .allocTopWrite engineer 0, .mapoutForceWrite engineer 0,
    .linkCmdRetrain engineer 0, .linkCmdDisable engineer 0, .linkCmdEnable engineer 0, .errorAckWrite engineer 0,
    .alertCauseWrite engineer 0, .recoveryRollback engineer 0 0 none, .recoveryTakeover engineer 0 0 0 none,
    .recoveryRejoin engineer 0 0 none, .sqEnableWrite engineer 0 0, .getVersion engineer, .getCapabilities engineer,
    .negotiateAlgorithms engineer, .getDigests engineer, .getCertificate engineer 0 0 0, .challenge engineer,
    .getMeasurements engineer 0, .keyExchange engineer 0, .finish engineer 0 0 0 true, .heartbeat engineer,
    .keyUpdate engineer, .endSession engineer, .objectWrite engineer 0 0 [] none, .auditAckHostWrite engineer 0,
    .auditHostHoldWrite engineer 0, .blobAssemblyTimeout engineer, .jp2Read engineer 0 0 0 0,
    .jp2Spdm engineer 0 .getVersion, .subOpenAudit engineer 0 0 true, .subAck engineer 0 0, .subClose engineer 0 0,
    .taiSetWrite engineer 0, .freezeCmdTrigger engineer, .freezeCmdRearm engineer, .freezeCmdDisarm engineer,
    .latClearWrite engineer 0] : List Instr), c.wf = true := by decide +kernel

/-! The hypotheses of the obligations are met. -/

theorem met_PowerInputsComplete :
    (∃ (s : State), s.reg .aonAbsent ≠ 0) ∧
    (∃ (s : State), s.reg .aonAbsent ≠ 1) ∧
    (∃ (s : State), s.reg .aonAbsent ≠ 1 ∧ s.reg .xtalState ≠ 1) ∧
    (∃ (s : State), s.reg .aonAbsent ≠ 1 ∧ s.reg .xtalState = 0) ∧
    (∃ (s : State), s.reg .mclkRuns ≠ 0) ∧
    (∃ (s : State), s.reg .nodeState = 1) ∧
    (∃ (s : State), s.reg .nodeState ≠ 0) ∧
    (∃ (s : State), s.reg .stackRailsIn ≠ 0) :=
  ⟨⟨put [(.aonAbsent, 0, 1)] ready, by decide +kernel⟩,
   ⟨put [(.xtalState, 0, 0)] ready, by decide +kernel⟩,
   ⟨put [(.xtalState, 0, 0)] ready, by decide +kernel⟩,
   ⟨put [(.xtalState, 0, 0)] ready, by decide +kernel⟩,
   ⟨ready, by decide +kernel⟩,
   ⟨put [(.nodeState, 0, 1)] ready, by decide +kernel⟩,
   ⟨ready, by decide +kernel⟩,
   ⟨ready, by decide +kernel⟩⟩

theorem met_ResetsComplete :
    (∃ (s : State) (width : Nat), 10000 ≤ width ∧ s.reg .aonAbsent ≠ 1 ∧ s.reg .nodeState ≠ 0) ∧
    (∃ (s : State) (width : Nat),
      10000 ≤ width ∧ s.reg .aonAbsent ≠ 1 ∧ s.reg .nodeState ≠ 0 ∧ s.flag .rstHeld 0 0 = false ∧
        s.reg .fusePulses = 0) ∧
    (∃ (s : State), s.reg .warmWaiting = 1 ∧ s.reg .nodeState ≠ 0) :=
  ⟨⟨ready, 10000, by decide +kernel⟩,
   ⟨ready, 10000, by decide +kernel⟩,
   ⟨put [(.warmWaiting, 0, 1)] ready, by decide +kernel⟩⟩

theorem met_ClocksComplete :
    (∃ (s : State) (k : Fin 48),
      s.reg .nodeState = 2 ∧ s.reg .initStage = 1 ∧ clockDomain k = true ∧ s.reg .pllMhz k < 65536) ∧
    (∃ (s : State) (k : Fin 48),
      clockDomain k = true ∧ 2 ≤ s.reg .clkSel k ∧ bit (s.reg .clkReady k) (s.reg .clkSel k) = true) ∧
    (∃ (s : State) (k : Fin 48), s.reg .clkSwitching k ≠ 0) ∧
    (∃ (s : State) (k : Fin 48),
      s.reg .nodeState ≠ 0 ∧ clockDomain k = true ∧ s.reg .clkSel k = 0 ∧ s.reg .clkSwitching k = 0 ∧
        s.reg .clkReady k < 4 ∧ s.reg .inReset = 0 ∧ s.reg .initStage ≠ 1) ∧
    (∃ (s : State) (k : Fin 48),
      s.reg .clkSwitching k ≠ 0 ∧ s.reg .clkSwitching k < 256 ∧
        bit (s.reg .clkReady k) (s.reg .clkSwitching k - 1) = true ∧ s.reg .clkMhz k ≠ 0 ∧ s.reg .pllMhz k < 65536) :=
  ⟨⟨put [(.nodeState, 0, 2), (.initStage, 0, 1)] ready, 0, by decide +kernel⟩,
   ⟨put [(.clkSel, 0, 2), (.clkReady, 0, 4)] ready, 0, by decide +kernel⟩,
   ⟨put [(.clkSwitching, 0, 1)] ready, 0, by decide +kernel⟩,
   ⟨put [(.initStage, 0, 7), (.clkReady, 0, 0)] ready, 0, by decide +kernel⟩,
   ⟨put [(.clkSwitching, 0, 1), (.clkReady, 0, 1), (.clkMhz, 0, 25)] ready, 0, by decide +kernel⟩⟩

theorem met_PowerAndCoolingComplete :
    (∃ (s : State), s.reg .nodeState ≠ 0 ∧ s.reg .inReset ≠ 1 ∧ s.reg .aonAbsent ≠ 1) ∧
    (∃ (s : State), s.reg .pkgPower * 1000 * 100 ≤ s.powerLimit.1 * 97 ∧ s.reg .vinMainA < 480 ∧
      s.reg .fixedTiming ≠ 1) ∧
    (∃ (s : State) (ma : Nat), 520000 < ma ∧ s.reg .nodeState ≠ 0 ∧ s.reg .arrayThrottle = 0) ∧
    (∃ (s : State), s.reg .nodeState ≠ 0 ∧ s.reg .inReset ≠ 1 ∧ s.flag .periphEn 0 5 = true) ∧
    (∃ (s : State), s.reg .nodeState ≠ 0) :=
  ⟨⟨ready, by decide +kernel⟩,
   ⟨put [(.powerCap, 0, 7700)] ready, by decide +kernel⟩,
   ⟨ready, 520001, by decide +kernel⟩,
   ⟨ready, by decide +kernel⟩,
   ⟨ready, by decide +kernel⟩⟩

theorem met_RequestedStatesComplete :
    (∃ (s : State) (q : Requester) (k : Fin 48) (v : Byte), Accepts s q .clkSel k [v]) ∧
    (∃ (s : State) (q : Requester) (k : Fin 48) (v : Byte), Accepts s q .clkSel k [v]) ∧
    (∃ (s : State) (q : Requester), Accepts s q .stateRequest 0 [5]) ∧
    (∃ (s : State) (q : Requester), Accepts s q .serviceRequest 0 [1]) ∧
    (∃ (s : State) (q : Requester), Accepts s q .serviceRequest 0 [0] ∧ s.reg .nodeState = 8) ∧
    (∃ (s : State) (q : Requester) (v : Word), Accepts s q .location 0 (leBytes 4 v.toNat)) ∧
    (∃ (s : State), s.reg .stateRequest = 5 ∧ (s.reg .nodeState = 4 ∨ s.reg .nodeState = 6)) ∧
    (∃ (s : State) (e : Fin 46) (x : Int),
      s.hottest e = some x ∧ s.reg .elementHot e = 1 ∧ s.reg .floorAt e ≠ 0 ∧ (s.reg .tjThrottle * 16 : Int) + 48 ≤ x) ∧
    (∃ (s : State), s.reg .coolantState = 0 ∧ (s.setReg .coolFlow 0 s.coolFlowNow).coolantBad = true ∧
      s.reg .nodeState ≠ 0) ∧
    (∃ (s : State), s.reg .coolantState = 1 ∧ (s.setReg .coolFlow 0 s.coolFlowNow).coolantBad = false) :=
  ⟨⟨served ready, engineer, 0, 0, engineer_accepts (l := 3) rfl (by decide) (by decide +kernel)⟩,
   ⟨served ready, engineer, 0, 0, engineer_accepts (l := 3) rfl (by decide) (by decide +kernel)⟩,
   ⟨job, host, by unfold Accepts; decide +kernel⟩,
   ⟨served ready, engineer, engineer_accepts (l := 3) rfl (by decide) (by decide +kernel)⟩,
   ⟨served (put [(.wrapper, 0, 0)] service), engineer,
     engineer_accepts (l := 3) rfl (by decide) (by decide +kernel), by decide +kernel⟩,
   ⟨put [(.nodeState, 0, 2), (.initStage, 0, 5)] ready, host, 0x80000020, by unfold Accepts; decide +kernel⟩,
   ⟨put [(.stateRequest, 0, 5)] job, by decide +kernel⟩,
   ⟨put [(.elementHot, 0, 1), (.floorAt, 0, 5), (.tjThrottle, 0, 80), (.temps, 0, 2000), (.temps, 1, 2000),
     (.temps, 2, 2000), (.temps, 3, 2000)] ready, 0, 2000, by decide +kernel⟩,
   ⟨put [(.temps, 128, 0)] ready, by decide +kernel⟩,
   ⟨put [(.coolantState, 0, 1)] ready, by decide +kernel⟩⟩

theorem met_FreezeComplete :
    (∃ (s : State) (q : Requester),
      Accepts s q .freezeCmd 0 [1] ∧ s.reg .freezeState = 1 ∧ s.flag .freezeSrcEn 0 0 = true) ∧
    (∃ (s : State) (q : Requester), Accepts s q .freezeCmd 0 [2]) ∧
    (∃ (s : State) (q : Requester), Accepts s q .freezeCmd 0 [3]) ∧
    (∃ (s : State) (width : Nat), 80 ≤ width ∧ s.flag .freezeSrcEn 0 4 = true ∧ s.reg .freezeState = 1) ∧
    (∃ (s : State), s.reg .freezeHold ≠ 0 ∧ (s.reg .freezeState = 2 ∨ s.reg .freezeState = 3)) ∧
    (∃ (s : State) (k : Fin 48) (v : SetView),
      s.frozen = some v ∧ v.stopped k.val = true ∧ s.reg .clkMhz k.val ≠ 0 ∧ (s.late.lookup k.val).isNone = true) ∧
    (∃ (s : State), s.reg .freezeState = 2 ∧ s.reg .dumpWaits = 1) ∧
    (∃ (s : State), s.supervisorUp = true) ∧
    (∃ (s : State) (q : Requester) (v : Byte), Accepts s q .latClear 0 [v]) :=
  ⟨⟨put [(.freezeState, 0, 1), (.freezeSrcEn, 0, 31)] ready, host, by unfold Accepts; decide +kernel⟩,
   ⟨ready, host, by unfold Accepts; decide +kernel⟩,
   ⟨ready, host, by unfold Accepts; decide +kernel⟩,
   ⟨put [(.freezeState, 0, 1), (.freezeSrcEn, 0, 31)] ready, 80, by decide +kernel⟩,
   ⟨put [(.freezeHold, 0, 5), (.freezeState, 0, 2)] ready, by decide +kernel⟩,
   ⟨{ put [(.clkMhz, 0, 25)] ready with frozen := some view0 }, 0, view0, by decide +kernel⟩,
   ⟨put [(.freezeState, 0, 2), (.dumpWaits, 0, 1)] ready, by decide +kernel⟩,
   ⟨ready, by decide +kernel⟩,
   ⟨ready, host, 0, by unfold Accepts; decide +kernel⟩⟩

theorem met_TimeComplete :
    (∃ (s : State) (domain : Byte),
      s.ptpOn = true ∧ s.reg .ptpEnable ≠ 0 ∧ domain.toNat = s.reg .ptpDomain ∧ s.reg .ppsMode ≠ 2 ∧
        s.portAnswers .management = true) ∧
    (∃ (s : State), s.ptpOn = true ∧ s.reg .ppsMode ≠ 0) ∧
    (∃ (s : State), s.ptpOn = true ∧ 1 ≤ s.reg .taiState ∧ s.reg .taiState ≤ 3) ∧
    (∃ (s : State) (q : Requester) (v : Dword), Accepts s q .taiSet 0 (leBytes 8 v.toNat)) ∧
    (∃ (s : State), s.portAnswers .management = true) ∧
    (∃ (s : State) (target : Word), s.portAnswers .management = true ∧ s.reg .ipv4 ≠ 0 ∧ target.toNat = s.reg .ipv4) ∧
    (∃ (s : State) (target : Word), s.portAnswers .management = true ∧ s.reg .ipv4 ≠ 0 ∧ target.toNat = s.reg .ipv4) :=
  ⟨⟨put [(.ptpEnable, 0, 1), (.ppsMode, 0, 0), (.ptpDomain, 0, 0)] ready, 0, by decide +kernel⟩,
   ⟨put [(.ppsMode, 0, 1)] ready, by decide +kernel⟩,
   ⟨put [(.taiState, 0, 1)] ready, by decide +kernel⟩,
   ⟨ready, host, 0, by unfold Accepts; decide +kernel⟩,
   ⟨ready, by decide +kernel⟩,
   ⟨put [(.ipv4, 0, 9)] ready, 9, by decide +kernel⟩,
   ⟨put [(.ipv4, 0, 9)] ready, 9, by decide +kernel⟩⟩

theorem met_AuditLogComplete :
    (∃ (s : State) (q : Requester), s.portAnswers q.port = true) ∧
    (∃ (s : State) (q : Requester) (obj : ObjAddr) (offset : Word) (data : List Byte) (peers : Option Half) (r : Reg)
      (inst : Nat) (v : List Byte), obj.toNat = r.objAt inst ∧ AcceptsPiece s q r inst offset.toNat data peers v) ∧
    (∃ (s : State) (q : Requester) (obj : ObjAddr) (offset : Word) (data : List Byte) (r : Reg) (inst : Nat),
      s.portAnswers q.port = true ∧ s.supervisorServes = true ∧ s.unknownSession q = false ∧
        Reg.atAddr obj.toNat = some (r, inst) ∧ blobs.contains r = true ∧ data ≠ [] ∧
          offset.toNat + data.length < r.size) ∧
    (∃ (s : State), s.supervisorServes = true) ∧
    (∃ (s : State) (e : AuditEntry),
      (s.audit.reverse.find? fun x => decide (s.reg .auditMirrorHead < x.seq)) = some e ∧ s.stacksTrained = true) ∧
    (∃ (s : State) (q : Requester) (v : Dword), Accepts s q .auditAckHost 0 (leBytes 8 v.toNat)) ∧
    (∃ (s : State) (q : Requester) (v : Byte), Accepts s q .auditHostHold 0 [v]) ∧
    (∃ (s : State) (n : Fin 4) (u : Subscription),
      (s.subs.find? fun x => decide (x.number = n.val) && x.audit && x.hold) = some u ∧
        s.supervisorServes = true ∧ u.acked + 1 < u.next) ∧
    (∃ (s : State) (n : Fin 4) (u : Subscription),
      (s.subs.find? fun x => decide (x.number = n.val) && x.audit && x.hold) = some u ∧ u.acked < s.reg .auditHead) ∧
    (∃ (s : State) (n : Fin 4) (u : Subscription),
      (s.subs.find? fun x => decide (x.number = n.val) && !x.audit) = some u ∧ s.supervisorServes = true) :=
  ⟨⟨ready, host, by decide +kernel⟩,
   ⟨ready, host, BitVec.ofNat 24 (Reg.freezeCmd.objAt 0), 0, [2], none, .freezeCmd, 0, [2], by decide +kernel,
     by unfold AcceptsPiece Accepts; decide +kernel⟩,
   ⟨ready, host, BitVec.ofNat 24 (Reg.routes.objAt 0), 0, [1], .routes, 0, by decide +kernel⟩,
   ⟨ready, by decide +kernel⟩,
   ⟨{ ready with audit := [entry0] }, entry0, by decide +kernel⟩,
   ⟨ready, host, 0, by unfold Accepts; decide +kernel⟩,
   ⟨ready, host, 0, by unfold Accepts; decide +kernel⟩,
   ⟨{ ready with subs := [(⟨0, host, true, true, [], 0, 5, 2⟩ : Subscription)] }, 0, (⟨0, host, true, true, [], 0,
     5, 2⟩ : Subscription), by decide +kernel⟩,
   ⟨{ put [(.auditHead, 0, 9)] ready with subs := [(⟨0, host, true, true, [], 0, 5, 2⟩ : Subscription)] }, 0, (⟨0,
     host, true, true, [], 0, 5, 2⟩ : Subscription), by decide +kernel⟩,
   ⟨{ ready with subs := [(⟨0, host, false, false, [], 1000, 0, 0⟩ : Subscription)] }, 0, (⟨0, host, false, false,
     [], 1000, 0, 0⟩ : Subscription), by decide +kernel⟩⟩

theorem met_SpdmComplete :
    (∃ (s : State) (q : Requester), s.portAnswers q.port = true ∧ s.supervisorServes = true) ∧
    (∃ (s : State) (q : Requester), s.portAnswers q.port = true ∧ s.supervisorServes = true) ∧
    (∃ (s : State) (q : Requester), s.portAnswers q.port = true ∧ s.supervisorServes = true) ∧
    (∃ (s : State) (q : Requester), s.portAnswers q.port = true ∧ s.supervisorServes = true) ∧
    (∃ (s : State) (q : Requester), s.portAnswers q.port = true ∧ s.supervisorServes = true) ∧
    (∃ (s : State) (q : Requester), s.portAnswers q.port = true ∧ s.supervisorServes = true) ∧
    (∃ (s : State) (q : Requester) (index : Byte),
      s.portAnswers q.port = true ∧ s.supervisorServes = true ∧ (index.toNat = 0xFF ∨ (1 ≤ index.toNat ∧
        index.toNat ≤ 5))) ∧
    (∃ (s : State) (q : Requester) (id : Word),
      s.portAnswers q.port = true ∧ s.supervisorServes = true ∧ s.sessionOf q.port id.toNat = none) ∧
    (∃ (s : State) (q : Requester) (id : Word) (verified : Bool) (x : Session),
      s.portAnswers q.port = true ∧ s.supervisorServes = true ∧ s.sessionOf q.port id.toNat = some x ∧
        x.finished = false ∧ verified = true) ∧
    (∃ (s : State) (q : Requester),
      s.portAnswers q.port = true ∧ s.supervisorServes = true ∧ (s.namedSession q).isSome = true) ∧
    (∃ (s : State) (q : Requester) (x : Session),
      s.portAnswers q.port = true ∧ s.supervisorServes = true ∧ s.namedSession q = some x) ∧
    (∃ (s : State) (q : Requester) (x : Session),
      s.portAnswers q.port = true ∧ s.supervisorServes = true ∧ s.namedSession q = some x) ∧
    (∃ (s : State) (port : Port) (id : Word), (s.sessionOf port id.toNat).isSome = true) :=
  ⟨⟨ready, host, by decide +kernel⟩,
   ⟨ready, host, by decide +kernel⟩,
   ⟨ready, host, by decide +kernel⟩,
   ⟨ready, host, by decide +kernel⟩,
   ⟨ready, host, by decide +kernel⟩,
   ⟨ready, host, by decide +kernel⟩,
   ⟨ready, host, 0xFF, by decide +kernel⟩,
   ⟨ready, host, 5, by decide +kernel⟩,
   ⟨{ ready with sessions := [(⟨.management, 5, 0, 0, false, 0⟩ : Session)] }, ⟨.management, none, 0⟩, 5, true,
     (⟨.management, 5, 0, 0, false, 0⟩ : Session), by decide +kernel⟩,
   ⟨{ ready with sessions := [(⟨.management, 5, 0, 0, true, 0⟩ : Session)] }, ⟨.management, some 5, 0⟩,
     by decide +kernel⟩,
   ⟨{ ready with sessions := [(⟨.management, 5, 0, 0, true, 0⟩ : Session)] }, ⟨.management, some 5, 0⟩,
     (⟨.management, 5, 0, 0, true, 0⟩ : Session), by decide +kernel⟩,
   ⟨{ ready with sessions := [(⟨.management, 5, 0, 0, true, 0⟩ : Session)] }, ⟨.management, some 5, 0⟩,
     (⟨.management, 5, 0, 0, true, 0⟩ : Session), by decide +kernel⟩,
   ⟨{ ready with sessions := [(⟨.management, 5, 0, 0, true, 0⟩ : Session)] }, .management, 5, by decide +kernel⟩⟩

theorem met_WindowAndMessagesComplete :
    (∃ (s : State), s.portAnswers .host = true) ∧
    (∃ (s : State) (data : List Byte), s.portAnswers .host = true ∧ data.length ≤ 3840) ∧
    (∃ (s u : State) (addr offset : Word) (seq : Dword) (data : List Byte) (peers : Option Half) (r : Reg) (inst : Nat)
      (v : List Byte), data ≠ [] ∧ data.length ≤ 3840 ∧
        u = (s.setWindow 2 addr.toNat offset.toNat data.length seq.toNat).setRegs .winData 0 (data.map BitVec.toNat) ∧
          addr.toNat % 2 ^ 24 = r.objAt inst ∧ AcceptsPiece u hostRequester r inst offset.toNat data peers v) ∧
    (∃ (s : State) (q : Requester) (rseq : Dword) (len : Word),
      s.portAnswers q.port = true ∧ q.session = none ∧
        (s.answers.find? fun a => sameSource a.who q && decide (a.rseq = rseq.toNat)) = none ∧ len.toNat ≤ 1400) ∧
    (∃ (s : State) (q : Requester) (rseq : Dword) (data : List Byte),
      s.portAnswers q.port = true ∧ q.session = none ∧
        (s.answers.find? fun a => sameSource a.who q && decide (a.rseq = rseq.toNat)) = none ∧
          s.supervisorServes = true ∧ data.length ≤ 1400) ∧
    (∃ (s : State) (q : Requester) (rseq : Dword) (obj : ObjAddr) (offset : Word) (data : List Byte)
      (peers : Option Half) (r : Reg) (inst : Nat) (v : List Byte), q.session = none ∧
        (s.answers.find? fun a => sameSource a.who q && decide (a.rseq = rseq.toNat)) = none ∧ data.length ≤ 1400 ∧
          obj.toNat = r.objAt inst ∧ AcceptsPiece s q r inst offset.toNat data peers v) ∧
    (∃ (s : State) (q : Requester) (rseq : Dword),
      s.portAnswers q.port = true ∧ q.session = none ∧
        (s.answers.find? fun a => sameSource a.who q && decide (a.rseq = rseq.toNat)) = none ∧
          s.supervisorServes = true) ∧
    (∃ (s : State) (q : Requester) (rseq : Dword) (len : Word) (n : Nat) (x : Session),
      s.portAnswers q.port = true ∧ q.session = some n ∧ s.sessionOf q.port n = some x ∧ x.finished = true ∧
        (s.answers.find? fun a => sameSource a.who q && decide (a.rseq = rseq.toNat)) = none ∧ len.toNat ≤ 1400) ∧
    (∃ (s : State) (m : Jp2Message) (len : Word),
      m.magic.toNat = 0x324A ∧ m.version.toNat = 2 ∧ m.session.toNat = 0 ∧ m.secured = none ∧ m.body = .read len ∧
        len.toNat ≤ 1400 ∧ s.portAnswers .jtag = true ∧ (s.answers.find? fun a => sameSource a.who ⟨.jtag, none,
          0⟩ && decide (a.rseq = m.rseq.toNat)) = none) ∧
    (∃ (s : State) (q : Requester) (rseq : Dword) (objects : List ObjAddr) (periodUs : Nat) (n : Nat),
      s.portAnswers q.port = true ∧ q.session = none ∧
        (s.answers.find? fun a => sameSource a.who q && decide (a.rseq = rseq.toNat)) = none ∧
          s.supervisorServes = true ∧ s.freeSub = some n ∧ objects ≠ [] ∧ objects.length ≤ 64 ∧ 1000 ≤ periodUs ∧
            periodUs ≤ 60000000) ∧
    (∃ (s : State) (q : Requester) (rseq : Dword) (n : Nat),
      s.portAnswers q.port = true ∧ q.session = none ∧
        (s.answers.find? fun a => sameSource a.who q && decide (a.rseq = rseq.toNat)) = none ∧
          s.supervisorServes = true ∧ s.freeSub = some n) ∧
    (∃ (s : State) (q : Requester) (rseq : Dword) (u : Subscription),
      s.portAnswers q.port = true ∧ q.session = none ∧
        (s.answers.find? fun a => sameSource a.who q && decide (a.rseq = rseq.toNat)) = none ∧
          s.supervisorServes = true ∧ (s.subs.find? fun x => x.audit && x.hold && sameSource x.who q) = some u) ∧
    (∃ (s : State) (q : Requester) (rseq : Dword) (number : Byte) (u : Subscription),
      s.portAnswers q.port = true ∧ q.session = none ∧
        (s.answers.find? fun a => sameSource a.who q && decide (a.rseq = rseq.toNat)) = none ∧
          s.supervisorServes = true ∧ s.subOf q number.toNat = some u) ∧
    (∃ (s : State), s.portAnswers .management = true ∧ s.reg .jp1Enable ≠ 0) :=
  ⟨⟨ready, by decide +kernel⟩,
   ⟨ready, [], by decide +kernel⟩,
   ⟨ready, _, BitVec.ofNat 32 (Reg.freezeCmd.objAt 0), 0, 0, [2], none, .freezeCmd, 0, [2], by decide +kernel,
     by decide +kernel, rfl, by decide +kernel, by unfold AcceptsPiece Accepts; decide +kernel⟩,
   ⟨ready, host, 0, 0, by decide +kernel⟩,
   ⟨ready, host, 0, [], by decide +kernel⟩,
   ⟨ready, host, 0, BitVec.ofNat 24 (Reg.freezeCmd.objAt 0), 0, [2], none, .freezeCmd, 0, [2], by decide +kernel,
     by decide +kernel, by decide +kernel, by decide +kernel, by unfold AcceptsPiece Accepts; decide +kernel⟩,
   ⟨ready, host, 0, by decide +kernel⟩,
   ⟨{ ready with sessions := [(⟨.management, 5, 0, 0, true, 0⟩ : Session)] }, ⟨.management, some 5, 0⟩, 0, 0, 5,
     (⟨.management, 5, 0, 0, true, 0⟩ : Session), by decide +kernel⟩,
   ⟨ready, ⟨0x324A, 2, 0, none, 0, 0, 0, .read 4⟩, 4, by decide +kernel⟩,
   ⟨ready, host, 0, [0x100001], 1000, 0, by decide +kernel⟩,
   ⟨ready, host, 0, 0, by decide +kernel⟩,
   ⟨{ ready with subs := [(⟨0, host, true, true, [], 0, 5, 2⟩ : Subscription)] }, host, 0, (⟨0, host, true, true,
     [], 0, 5, 2⟩ : Subscription), by decide +kernel⟩,
   ⟨{ ready with subs := [(⟨0, host, false, false, [], 1000, 0, 0⟩ : Subscription)] }, host, 0, 0, (⟨0, host,
     false, false, [], 1000, 0, 0⟩ : Subscription), by decide +kernel⟩,
   ⟨ready, by decide +kernel⟩⟩

theorem met_LinksComplete :
    (∃ (s : State) (l : Fin 24), s.lanesOn = true ∧ s.reg .linkState l = 0) ∧
    (∃ (s : State) (l : Fin 24), s.reg .linkState l = 1) ∧
    (∃ (s : State) (l : Fin 24), s.lanesOn = true ∧ s.reg .linkState l = 0) ∧
    (∃ (s : State) (l : Fin 24), (s.reg .linkState l = 1 ∨ s.reg .linkState l = 2 ∨ s.reg .linkState l = 3)) ∧
    (∃ (s : State) (l : Fin 24), s.reg .linkState l = 0) ∧
    (∃ (s : State) (l : Fin 24) (lane : Fin 9), s.reg .linkState l = 2 ∧ s.reg .laneMap l ≠ lane.val ∧
      (lane.val ≠ 8 ∨ s.reg .laneMap l ≠ 0xFF)) ∧
    (∃ (s : State) (l : Fin 24) (x : SelfTest),
      (s.tests.find? fun x => decide (x.kind = 7) && decide (x.unit / 16 = l.val)) = some x ∧
        (s.runningTest 7 x.unit).isSome = true ∧ s.reg .linkState l = 3) ∧
    (∃ (s : State) (l : Fin 24), s.reg .linkState l = 2) ∧
    (∃ (s : State) (l : Fin 24), s.reg .linkState l = 2) ∧
    (∃ (s : State) (q : Requester) (l : Fin 24), Accepts s q .linkCmd l [1]) ∧
    (∃ (s : State) (q : Requester) (l : Fin 24), Accepts s q .linkCmd l [2]) ∧
    (∃ (s : State) (q : Requester) (l : Fin 24), Accepts s q .linkCmd l [3]) ∧
    (∃ (s : State) (q : Fin 17), q.val ≠ s.pos) ∧
    (∃ (s : State) (fd : Fin 4) (port : Fin 6) (x : SelfTest), s.runningTest 0x0A (fd.val * 8 + port.val) = some x) :=
  ⟨⟨ready, 0, by decide +kernel⟩,
   ⟨put [(.linkState, 0, 1)] ready, 0, by decide +kernel⟩,
   ⟨ready, 0, by decide +kernel⟩,
   ⟨put [(.linkState, 0, 2)] ready, 0, by decide +kernel⟩,
   ⟨ready, 0, by decide +kernel⟩,
   ⟨put [(.linkState, 0, 2), (.laneMap, 0, 3)] ready, 0, 8, by decide +kernel⟩,
   ⟨{ put [(.linkState, 0, 3)] ready with tests := [test 7 3] }, 0, test 7 3, by decide +kernel⟩,
   ⟨put [(.linkState, 0, 2)] ready, 0, by decide +kernel⟩,
   ⟨put [(.linkState, 0, 2)] ready, 0, by decide +kernel⟩,
   ⟨ready, host, 0, by unfold Accepts; decide +kernel⟩,
   ⟨ready, host, 0, by unfold Accepts; decide +kernel⟩,
   ⟨ready, host, 0, by unfold Accepts; decide +kernel⟩,
   ⟨ready, 1, by decide +kernel⟩,
   ⟨{ ready with tests := [test 0xA 0] }, 0, 0, test 0xA 0, by decide +kernel⟩⟩

theorem met_FaultsComplete :
    (∃ (s : State) (bridge : Fin 23) (segment : Fin 256) (x : SelfTest),
      s.runningTest 5 (bridge.val * 256 + segment.val) = some x) ∧
    (∃ (s : State) (die : Fin 8) (x : SelfTest), s.runningTest 8 die = some x) ∧
    (∃ (s : State) (q : Requester) (v : Dword), Accepts s q .errorAck 0 (leBytes 8 v.toNat)) ∧
    (∃ (s : State) (q : Requester) (v : Word), Accepts s q .alertCause 0 (leBytes 4 v.toNat)) ∧
    (∃ (s : State), s.reg .squallState = 1 ∧ s.squallNow < s.reg .squallClear * 65536) ∧
    (∃ (s : State) (pos : Fin 17) (n : Nat),
      s.nodeAt pos.val = some n ∧ pos.val ≠ s.pos ∧ linkCarries (s.linkTo pos.val) = false) :=
  ⟨⟨{ ready with tests := [test 5 0] }, 0, 0, test 5 0, by decide +kernel⟩,
   ⟨{ ready with tests := [test 8 0] }, 0, test 8 0, by decide +kernel⟩,
   ⟨ready, host, 0, by unfold Accepts; decide +kernel⟩,
   ⟨ready, host, 0, by unfold Accepts; decide +kernel⟩,
   ⟨put [(.squallState, 0, 1), (.squallClear, 0, 5)] ready, by decide +kernel⟩,
   ⟨job, 1, 1, by decide +kernel⟩⟩

theorem met_HostPortComplete :
    (∃ (s : State) (gen : Nat) (width : Nat),
      2 ≤ s.reg .nodeState ∧ (s.reg .nodeState = 2 → 2 ≤ s.reg .initStage) ∧
        4 ≤ min (min gen 6) (s.reg .hostGenMax) ∧ 4 ≤ width) ∧
    (∃ (s : State), 3 ≤ s.reg .nodeState) ∧
    (∃ (s : State), s.hostMem = true ∧ s.servesQueues = true) ∧
    (∃ (s : State) (a : BitVec 41) (data : List Byte),
      s.hostMem = true ∧ s.servesQueues = true ∧ s.reg .nodeState ≠ 7 ∧ data ≠ [] ∧
        a.toNat % 64 + data.length ≤ 64 ∧ s.hostReach (a.toNat / 64 * 64) = true) ∧
    (∃ (s : State) (q : Fin 64) (tail : Half) (entries : List (List Byte)),
      s.servesQueues = true ∧ s.reg .sqEnable q.val ≠ 0 ∧ tail.toNat < 2 ^ s.reg .sqSize q.val ∧
        (s.reg .sqBase q.val % 2 = 0 →
          entries.length = (tail.toNat + 2 ^ s.reg .sqSize q.val - s.reg .sqTail q.val) % 2 ^ s.reg .sqSize q.val)) ∧
    (∃ (s : State) (q : Fin 64) (head : Half), s.servesQueues = true ∧ head.toNat < s.cqSize q.val) ∧
    (∃ (s : State) (q : Requester) (k : Fin 64) (v : Byte), Accepts s q .sqEnable k [v]) :=
  ⟨⟨ready, 5, 16, by decide +kernel⟩,
   ⟨ready, by decide +kernel⟩,
   ⟨put [(.hostLink, 0, 0x200)] ready, by decide +kernel⟩,
   ⟨put [(.hostLink, 0, 0x200)] ready, 0x200000000, [1], by decide +kernel⟩,
   ⟨put [(.sqEnable, 0, 1), (.sqSize, 0, 4), (.sqBase, 0, 1)] ready, 0, 0, [], by decide +kernel⟩,
   ⟨put [(.cqSize, 0, 4)] ready, 0, 0, by decide +kernel⟩,
   ⟨ready, host, 0, 0, by unfold Accepts; decide +kernel⟩⟩

theorem met_JobCommandsComplete :
    (∃ (s : State) (c : HostCmd) (map : List Half),
      s.cmdOf 1 = some c ∧ s.allows 1 = true ∧ s.jobLoaded = false ∧ s.reg .startPending = 0 ∧ s.loadFailure = none ∧
        s.pulses = [] ∧ map ≠ [] ∧ s.mapOk map = true) ∧
    (∃ (s : State) (c : HostCmd),
      s.cmdOf 2 = some c ∧ s.allows 2 = true ∧ s.reg .jobRunning ≠ 1 ∧ s.reg .startPending = 0 ∧ s.recovery = none) ∧
    (∃ (s : State) (c : HostCmd), s.reg .startPending = 1 ∧ c ∈ s.cmds ∧ c.opc = 2 ∧ c.started = true ∧ c.arg0 ≠ 0) ∧
    (∃ (s : State) (c : HostCmd), s.cmdOf 3 = some c ∧ s.allows 3 = true ∧ s.reg .teardownPending = 0) ∧
    (∃ (s : State), s.reg .teardownPending = 1 ∧
      (s.cmds.any fun c => (decide (c.opc = 8) || decide (c.opc = 9)) && s.mayRun c) = false) ∧
    (∃ (s : State), s.reg .teardownPending = 2) ∧
    (∃ (s : State) (c : HostCmd) (data : List Byte),
      s.cmdOf 8 = some c ∧ s.allows 8 = true ∧ s.copyRefusal c = none ∧ data.length = c.arg2) ∧
    (∃ (s : State) (c : HostCmd),
      s.cmdOf 9 = some c ∧ s.allows 9 = true ∧ s.copyRefusal c = none ∧ s.firstPoison c.arg1 c.arg2 = none) ∧
    (∃ (s : State) (c : HostCmd) (image : List Byte) (descs : List Byte) (weights : List Byte) (p : Nat),
      s.cmdOf 0x10 = some c ∧ s.allows 0x10 = true ∧ bit c.cflags 2 = false ∧ image.length = 64 ∧
        descs.length = 64 * leAt image 2 2 ∧ weights.length = leAt image 4 4 ∧ c.arg1 < 4096 ∧
          s.modelState c.arg1 = 0 ∧ modelOk image descs weights = true ∧ s.weightPlace (leAt image 4 4) = some p) ∧
    (∃ (s : State) (c : HostCmd),
      s.cmdOf 0x11 = some c ∧ s.allows 0x11 = true ∧ c.arg1 < 4096 ∧ s.boundAny c.arg1 = false) ∧
    (∃ (s : State) (c : HostCmd) (image : List Byte),
      s.cmdOf 0x18 = some c ∧ s.allows 0x18 = true ∧ bit c.cflags 2 = false ∧ image.length = 32 ∧
        s.regionOk image = true) ∧
    (∃ (s : State) (c : HostCmd), s.cmdOf 0x19 = some c ∧ s.allows 0x19 = true ∧ (s.region c.arg0).isSome = true) ∧
    (∃ (s : State) (c : HostCmd),
      s.cmdOf 0x21 = some c ∧ s.allows 0x21 = true ∧ c.arg0 < 256 ∧ (s.bay c.arg0).present = true ∧
        (s.tableState c.arg0 = tsRunning ∨ s.tableState c.arg0 = tsWaiting) ∧ (s.bay c.arg0).preempt = 0 ∧
          s.reaches (s.contextBase c.arg0) (s.contextBase c.arg0 + 0x14C000) = true ∧ (s.bay c.arg0).collOpen = false) ∧
    (∃ (s : State) (c : HostCmd),
      s.cmdOf 0x20 = some c ∧ s.allows 0x20 = true ∧ c.arg0 < 256 ∧ (s.bay c.arg0).present = true ∧
        (s.tableState c.arg0 = tsHalted ∨ s.tableState c.arg0 = tsPreempted)) ∧
    (∃ (s : State) (b : Fin 256),
      (s.bay b.val).preempt ≠ 0 ∧ (s.bay b.val).sparing = 0 ∧ (s.bay b.val).stepDone = true ∧
        s.tableState b.val ≠ tsPreempted ∧ ((s.sharers b.val).any fun k => (s.bay k).stored) = false) ∧
    (∃ (s : State) (b : Fin 256), (s.bay b.val).preempt = 2 ∧ (s.bay b.val).collOpen = true) :=
  ⟨⟨asked (cmd 1) (put [(.jobActive, 0, 0), (.nodeState, 0, 3), (.tableDir, 0, 0x200000000), (.collGrid, 0,
    2)] job), cmd 1, List.replicate 256 3, by decide +kernel⟩,
   ⟨asked (cmd 2) (put [(.jobRunning, 0, 0)] job), cmd 2, by decide +kernel⟩,
   ⟨asked { cmd 2 9 with started := true } (put [(.startPending, 0, 1)] job), { cmd 2 9 with started := true },
     by decide +kernel⟩,
   ⟨asked (cmd 3), cmd 3, by decide +kernel⟩,
   ⟨put [(.teardownPending, 0, 1)] ready, by decide +kernel⟩,
   ⟨put [(.teardownPending, 0, 2)] ready, by decide +kernel⟩,
   ⟨asked (cmd 8 0 0x200001000 1), cmd 8 0 0x200001000 1, [1], by decide +kernel⟩,
   ⟨asked (cmd 9 0 0x200001000 1), cmd 9 0 0x200001000 1, by decide +kernel⟩,
   ⟨asked (cmd 0x10) (put [(.rosterBytes, 0, 0x80000000)] job), cmd 0x10, modelImage, modelDesc, leBytes 8 0,
     weightZone, by decide +kernel⟩,
   ⟨asked (cmd 0x11), cmd 0x11, by decide +kernel⟩,
   ⟨asked (cmd 0x18), cmd 0x18, regionImage, by decide +kernel⟩,
   ⟨{ asked (cmd 0x19 5) with regions := [⟨5, 0x1000, 128, 7⟩] }, cmd 0x19 5, by decide +kernel⟩,
   ⟨{ asked (cmd 0x21) (put [(.ctxBase, 0, 0x200001000)] job) with bays := [(0, bay)] }, cmd 0x21, by decide +kernel⟩,
   ⟨{ asked (cmd 0x20) (put [(.tableState, 0, 3)] job) with bays := [(0, bay)] }, cmd 0x20, by decide +kernel⟩,
   ⟨{ job with bays := [(0, { bay with preempt := 2, flights := [], head := none })] }, 0, by decide +kernel⟩,
   ⟨{ job with bays := [(0, { bay with preempt := 2, flights := [entry opColl] })] }, 0, by decide +kernel⟩⟩

theorem met_StackMemoryComplete :
    (∃ (s : State) (ch : Fin 1024), s.chanState ch.val ≠ 4) ∧
    (∃ (s : State) (ch : Fin 1024), (s.chan ch.val).retraining = none ∧ s.chanState ch.val ≠ 4) ∧
    (∃ (s : State) (ch : Fin 1024) (seq : Nat) (at1 : Nat), (s.chan ch.val).retraining = some (seq, at1)) ∧
    (∃ (s : State) (st : Fin 32) (e : Nat), (s.remapping.find? fun r => decide (r.1 = st.val)) = some (st.val,
      e) ∧ s.reg .reserveRowsLeft st < 2 ^ 32) ∧
    (∃ (s : State) (ch : Fin 1024) (x : SelfTest), s.runningTest 3 ch.val = some x) ∧
    (∃ (s : State) (ch : Nat) (rest : List Nat),
      s.mapoutWaits = ch :: rest ∧ s.migrating = none ∧ s.allocBlocks = false ∧ s.reg .stackTop < 2 ^ 64) ∧
    (∃ (s : State) (ch : Nat), s.slotA.state ≠ 1 ∧ s.slotB.state ≠ 1 ∧ s.migrating = some ch) ∧
    (∃ (s : State) (q : Requester) (v : Dword), Accepts s q .allocTop 0 (leBytes 8 v.toNat)) ∧
    (∃ (s : State) (q : Requester) (v : Byte), Accepts s q .mapoutForce 0 [v]) ∧
    (∃ (s : State) (a : BitVec 42), s.readable a.toNat = true ∧ 0x20000000000 ≤ a.toNat) ∧
    (∃ (s : State) (a : BitVec 42), s.readable a.toNat = true ∧ a.toNat < 0x20000000000) ∧
    (∃ (s : State) (ch : Nat), s.retraining ch = true ∧ (s.chanQueue.filter fun e => decide (e.1 = ch)).length < 256) ∧
    (∃ (s : State) (ch line : Nat) (r : ChanReq), s.retraining ch = false ∧ r = .fill line) ∧
    (∃ (s : State) (ch : Nat),
      s.retraining ch = true ∧ 256 ≤ (s.chanQueue.filter fun e => decide (e.1 = ch)).length) ∧
    (∃ (s : State) (ch : Nat) (r : ChanReq) (x : Narrow), s.retraining ch = false ∧ r = .narrow x) ∧
    (∃ (s : State) (x : Narrow), s.narrowAt x.stack < 4096) ∧
    (∃ (s : State) (x : Narrow), 4096 ≤ s.narrowAt x.stack) ∧
    (∃ (s : State) (a : BitVec 42) (data : List Byte),
      data ≠ [] ∧ a.toNat % 128 + data.length ≤ 128 ∧ s.reaches a.toNat (a.toNat + data.length) = true ∧
        s.hostLines.contains (a.toNat / 128) = false ∧
          (s.waiting.any fun w => decide (w.1 / 128 = a.toNat / 128)) = false) ∧
    (∃ (s : State) (line : Fin 17179869184),
      s.fills.contains line.val = true ∧ s.retraining (s.placeOf (128 * line.val)).1 = false) ∧
    (∃ (s : State) (a : BitVec 42) (log : Fin 4),
      a.toNat % 2 ^ log.val = 0 ∧ s.reaches a.toNat (a.toNat + 2 ^ log.val) = true ∧
        s.sliceTests (s.sliceUnit a.toNat) = false) ∧
    (∃ (s : State) (a : BitVec 42) (log : Fin 4),
      a.toNat % 2 ^ log.val = 0 ∧ s.reaches a.toNat (a.toNat + 2 ^ log.val) = true ∧
        s.sliceTests (s.sliceUnit a.toNat) = true) ∧
    (∃ (s : State) (st : Fin 32) (r : Narrow), (s.narrow.find? fun r => decide (r.stack = st.val)) = some r) ∧
    (∃ (s : State) (st : Fin 32) (e : StackElement) (col : Fin 8) (atom : Fin 2),
      ⟨st.val, elementBits32 e / 32, 2 * col.val + atom.val, .reserve⟩ ∈ s.spareMarks) ∧
    (∃ (s : State) (die : Fin 8) (phys : Fin 34) (x : SelfTest),
      s.runningTest 2 (die.val * 64 + phys.val) = some x ∧ x.stage = 0) ∧
    (∃ (s : State) (die : Fin 8) (phys : Fin 34) (x : SelfTest),
      s.runningTest 2 (die.val * 64 + phys.val) = some x ∧ x.stage = 1) ∧
    (∃ (s : State) (st : Fin 32) (r : Remap),
      (s.remaps.find? fun r => decide (r.stack = st.val)) = some r ∧ s.repairAllowed false = true) ∧
    (∃ (s : State) (st : Fin 32) (p : Pulse),
      (s.pulses.find? fun p => decide (p.stack = st.val)) = some p ∧ s.reg .warmWaiting ≠ 1 ∧ s.pulses.Nodup) :=
  ⟨⟨ready, 0, by decide +kernel⟩,
   ⟨ready, 0, by decide +kernel⟩,
   ⟨{ ready with chans := [(0, { Channel.quiet with retraining := some (3, 4) })] }, 0, 3, 4, by decide +kernel⟩,
   ⟨{ ready with remapping := [(0, 9)] }, 0, 9, by decide +kernel⟩,
   ⟨{ ready with tests := [test 3 0] }, 0, test 3 0, by decide +kernel⟩,
   ⟨{ ready with mapoutWaits := [4] }, 4, [], by decide +kernel⟩,
   ⟨put [(.channelState, 4, 3)] ready, 4, by decide +kernel⟩,
   ⟨ready, host, 0x10000000000, by unfold Accepts; decide +kernel⟩,
   ⟨ready, host, 0, by unfold Accepts; decide +kernel⟩,
   ⟨ready, 0x20000000000, by decide +kernel⟩,
   ⟨ready, 0, by decide +kernel⟩,
   ⟨{ ready with chans := [(0, { Channel.quiet with retraining := some (3, 4) })] }, 0, by decide +kernel⟩,
   ⟨ready, 0, 5, .fill 5, by decide +kernel⟩,
   ⟨{ ready with
        chans := [(0, { Channel.quiet with retraining := some (3, 4) })], chanQueue := List.replicate 256 (0, .fill 5) },
     0, by decide +kernel⟩,
   ⟨ready, 0, .narrow ⟨0, 0, 8, none⟩, ⟨0, 0, 8, none⟩, by decide +kernel⟩,
   ⟨ready, ⟨0, 0, 8, none⟩, by decide +kernel⟩,
   ⟨{ ready with narrow := List.replicate 4096 ⟨0, 0, 8, none⟩ }, ⟨0, 0, 8, none⟩, by decide +kernel⟩,
   ⟨ready, 0x200000000, [1], by decide +kernel⟩,
   ⟨{ ready with fills := [0] }, 0, by decide +kernel⟩,
   ⟨ready, 0x200000000, 3, by decide +kernel⟩,
   ⟨{ ready with tests := [test 2 (ready.sliceUnit 0x200000000)] }, 0x200000000, 3, by decide +kernel⟩,
   ⟨{ ready with narrow := [⟨0, 0, 8, none⟩] }, 0, ⟨0, 0, 8, none⟩, by decide +kernel⟩,
   ⟨{ ready with spareMarks := [⟨0, 0, 0, .reserve⟩] }, 0, ⟨0, 0, 0, 0, 0⟩, 0, 0, by decide +kernel⟩,
   ⟨{ ready with tests := [test 2 0] }, 0, 0, test 2 0, by decide +kernel⟩,
   ⟨{ ready with tests := [test 2 0 1] }, 0, 0, test 2 0 1, by decide +kernel⟩,
   ⟨{ ready with remaps := [⟨0, 4, 5⟩] }, 0, ⟨0, 4, 5⟩, by decide +kernel⟩,
   ⟨{ ready with pulses := [⟨0, 1, 2, false⟩] }, 0, ⟨0, 1, 2, false⟩, by decide +kernel⟩⟩

theorem met_WrapperComplete :
    (∃ (s : State), s.reg .nodeState = 8) ∧
    (∃ (s : State) (k : Nat), s.wrapperStack = some k) ∧
    (∃ (s : State) (k : Nat), s.wrapperStack = some k) ∧
    (∃ (s : State) (row : Nat) (k : Nat), s.wrapperStack = some k ∧ row < 61440) ∧
    (∃ (s : State) (k : Nat), s.wrapperStack = some k ∧ s.reg .journalUsed k < 512 ∧
      (s.pulses.any fun p => decide (p.stack = k)) = false) ∧
    (∃ (s : State) (k : Nat), s.wrapperStack = some k ∧ s.reg .journalUsed k < 512 ∧
      (s.pulses.any fun p => decide (p.stack = k)) = false) ∧
    (∃ (s : State) (k : Nat), s.wrapperStack = some k ∧ s.reg .journalUsed k < 512 ∧
      (s.pulses.any fun p => decide (p.stack = k)) = false) ∧
    (∃ (s : State) (k : Nat), s.wrapperStack = some k) ∧
    (∃ (s : State) (k : Nat), s.wrapperStack = some k) ∧
    (∃ (s : State) (k : Nat), s.wrapperStack = some k) ∧
    (∃ (s : State) (k : Nat), s.wrapperStack = some k) ∧
    (∃ (s : State) (k : Nat), s.wrapperStack = some k) ∧
    (∃ (s : State) (k : Nat), s.wrapperStack = some k) :=
  ⟨⟨service, by decide +kernel⟩,
   ⟨service, 0, by decide +kernel⟩,
   ⟨service, 0, by decide +kernel⟩,
   ⟨service, 0, 0, by decide +kernel⟩,
   ⟨service, 0, by decide +kernel⟩,
   ⟨service, 0, by decide +kernel⟩,
   ⟨service, 0, by decide +kernel⟩,
   ⟨service, 0, by decide +kernel⟩,
   ⟨service, 0, by decide +kernel⟩,
   ⟨service, 0, by decide +kernel⟩,
   ⟨service, 0, by decide +kernel⟩,
   ⟨service, 0, by decide +kernel⟩,
   ⟨service, 0, by decide +kernel⟩⟩

theorem met_InitComplete :
    (∃ (s : State), s.reg .nodeState = 2 ∧ s.reg .inReset ≠ 1 ∧ 1 ≤ s.reg .initStage ∧ s.reg .initStage ≤ 6) ∧
    (∃ (s : State) (facts : StageFacts) (img : Fin 2),
      s.reg .nodeState = 2 ∧ s.reg .inReset ≠ 1 ∧ s.reg .initStage = 1 ∧ facts.image = some img ∧
        s.pairStarts facts = true ∧ s.reg .posStrap ≤ 16 ∧ facts.pllNone = [] ∧ ∀ k, k < 48 → s.reg .pllFailed k = 0) ∧
    (∃ (s : State) (facts : StageFacts),
      s.reg .nodeState = 2 ∧ s.reg .inReset ≠ 1 ∧ s.reg .initStage = 2 ∧ facts.segments = [] ∧ s.dieCutOff = false) ∧
    (∃ (s : State) (facts : StageFacts),
      s.reg .nodeState = 2 ∧ s.reg .inReset ≠ 1 ∧ s.reg .initStage = 3 ∧ facts.baseDies = [] ∧
        ∀ e ∈ facts.channels, e.2 = .pass) ∧
    (∃ (s : State) (facts : StageFacts) (d : Fin 8),
      s.reg .nodeState = 2 ∧ s.reg .inReset ≠ 1 ∧ s.reg .initStage = 4 ∧ d ∉ facts.couplers ∧
        s.flag .couplerState 0 d = false) ∧
    (∃ (s : State), s.reg .nodeState = 2 ∧ s.reg .inReset ≠ 1 ∧ s.reg .initStage = 5 ∧
      ((List.range 24).all fun l => s.linkSettled l) = true ∧ s.flag .location 0 31 = true) ∧
    (∃ (s : State), s.reg .nodeState = 2 ∧ s.reg .inReset ≠ 1 ∧ s.reg .initStage = 6) :=
  ⟨⟨inStage 3, by decide +kernel⟩, ⟨inStage 1, facts0, 0, by decide +kernel⟩, ⟨inStage 2, facts0, by decide +kernel⟩,
    ⟨inStage 3, facts0, by decide +kernel⟩, ⟨inStage 4, facts0, 0, by decide +kernel⟩,
    ⟨put ((List.range 24).map fun l => (.linkState, l, 2)) (inStage 5), by decide +kernel⟩,
    ⟨inStage 6, by decide +kernel⟩⟩

/-- INIT stages 2, 3, 4 and 6 pass with these findings; the last ends in READY with the trigger armed (R22). -/
theorem test_init_stages :
    ([2, 3, 4, 6].map fun k => match execInitStageComplete facts0 (inStage k) with
      | .next t => (t.reg .nodeState, t.reg .initStage, t.reg .stageStarted, t.reg .freezeState)
      | _ => (9, 9, 9, 9)) = [(2, 3, 2, 0), (2, 4, 3, 0), (2, 5, 4, 0), (3, 0, 6, 1)] := by decide +kernel

theorem met_SnapshotsComplete :
    (∃ (s : State) (b : Fin 256) (f : Flight), s.ready b.val (fun f => decide (f.op = opSnap)) = some f) ∧
    (∃ (s : State) (b : Fin 256) (f : Flight),
      (s.bay b.val).snapFlight = some f ∧ f.phase ≠ 0 ∧ (s.bay b.val).captured = false ∧ (s.bay b.val).sparing = 0) ∧
    (∃ (s : State), s.snapArrived = true ∧ s.quiet = true ∧ s.reg .snapJoined ≠ 1) ∧
    (∃ (s : State), s.reg .snapJoined ≠ 0) ∧
    (∃ (s : State) (line : Fin 17179869184) (k : Nat),
      s.copying = some k ∧ (s.slot k).tagged.contains line.val = true) ∧
    (∃ (s : State) (st : Fin 32) (k : Nat), s.copying = some k ∧ ((s.slot k).parts.lookup st.val).isSome = false) ∧
    (∃ (s : State) (v : Arrival) (gen : Dword) (d : Drain),
      s.drains.find? (fun d => decide (d.gen = gen.toNat) && !d.ended) = some d ∧ Heard s v.pos.val v.h ∧
        s.cameFrom v.pos.val v.h ≠ s.pos ∧ v.pos.val ≠ s.pos ∧ s.pos < 17 ∧ d.slot < 2) ∧
    (∃ (s : State) (k : Fin 2), (s.drains.any fun d => decide (d.slot = k.val) && !d.ended) = true) ∧
    (∃ (s : State) (q : Fin 17) (h : Header), Heard s q.val h ∧ s.cameFrom q.val h ≠ s.pos) :=
  ⟨⟨running (entry opSnap), 0, entry opSnap, by decide +kernel⟩,
   ⟨running { entry opSnap with phase := 1 }, 0, { entry opSnap with phase := 1 }, by decide +kernel⟩,
   ⟨{ job with bays := [(0, { bay with flights := [{ entry opSnap with phase := 1 }], captured := true })] },
     by decide +kernel⟩,
   ⟨put [(.snapJoined, 0, 1)] job, by decide +kernel⟩,
   ⟨{ job with slotA := slot0 }, 0, 0, by decide +kernel⟩,
   ⟨{ job with slotA := slot0 }, 0, 0, by decide +kernel⟩,
   ⟨{ job with drains := [⟨0, 7, 0, 0, [], false, false, false, false⟩] }, arrival, 0, ⟨0, 7, 0, 0, [], false, false,
     false, false⟩, by unfold Heard; decide +kernel⟩,
   ⟨{ job with drains := [⟨0, 7, 0, 0, [], false, false, false, false⟩] }, 0, by decide +kernel⟩,
   ⟨job, 1, header, by unfold Heard; decide +kernel⟩⟩

theorem met_RecoveryComplete :
    (∃ (s : State) (q : Requester) (epoch : Half) (tstep : Dword) (peers : Option Half),
      Accepts s q .recoveryCmd 0 (recoveryBytes 1 0xFF epoch.toNat tstep.toNat) ∧
        s.recoveryRefusal 1 0xFF epoch.toNat tstep.toNat (peers.map BitVec.toNat) = resOk) ∧
    (∃ (s : State) (q : Requester) (pos : Byte) (epoch : Half) (tstep : Dword) (peers : Option Half),
      Accepts s q .recoveryCmd 0 (recoveryBytes 2 pos.toNat epoch.toNat tstep.toNat) ∧
        s.recoveryRefusal 2 pos.toNat epoch.toNat tstep.toNat (peers.map BitVec.toNat) = resOk) ∧
    (∃ (s : State) (q : Requester) (epoch : Half) (tstep : Dword) (peers : Option Half),
      Accepts s q .recoveryCmd 0 (recoveryBytes 3 0xFF epoch.toNat tstep.toNat) ∧
        s.recoveryRefusal 3 0xFF epoch.toNat tstep.toNat (peers.map BitVec.toNat) = resOk) ∧
    (∃ (s : State) (q : Fin 17) (h : Header) (lost : Fin 17),
      Heard s q.val h ∧ lost.val ≠ s.pos ∧ bit (s.reg .groupMap (s.cameFrom q.val h)) 21 = true ∧
        s.cameFrom q.val h < 17) ∧
    (∃ (s : State) (v : Arrival) (r : Recovery),
      Heard s v.pos.val v.h ∧ s.recovery = some r ∧ r.kind = 2 ∧ r.acknowledged s = false ∧
        r.acks.contains (s.cameFrom v.pos.val v.h) = false) ∧
    (∃ (s : State) (r : Recovery),
      s.recovery = some r ∧ s.reg .recoveryState = 2 ∧ (r.kind = 2 → r.acknowledged s = true)) :=
  ⟨⟨{ job with jobEpochs := [7] }, host, 8, 0, some 7, by unfold Accepts; decide +kernel⟩,
   ⟨put [(.groupMap, 0, 0x300000)] job, host, 1, 8, 0, some 7, by unfold Accepts; decide +kernel⟩,
   ⟨job, host, 8, 0, some 8, by unfold Accepts; decide +kernel⟩,
   ⟨put [(.groupMap, 1, 0x3FFFFF)] job, 1, { header with src := 0xFFFFF }, 2, by unfold Heard; decide +kernel⟩,
   ⟨{ put [(.groupMap, 2, 0x100002)] job with recovery := some ⟨2, 2, 7, 0, []⟩ }, arrival, ⟨2, 2, 7, 0, []⟩,
     by unfold Heard; decide +kernel⟩,
   ⟨{ put [(.recoveryState, 0, 2)] job with recovery := some ⟨1, 0xFF, 7, 0, []⟩ }, ⟨1, 0xFF, 7, 0, []⟩,
     by decide +kernel⟩⟩

theorem met_BoundaryAndCrosswindComplete :
    (∃ (s : State), s.boundaryReached = true ∧ s.reg .jobRunning = 1) ∧
    (∃ (s : State) (q : Requester), Accepts s q .stateRequest 0 [4]) ∧
    (∃ (s : State) (v : Arrival), Heard s v.pos.val v.h ∧ bit (s.reg .groupMap s.pos) 21 = true) ∧
    (∃ (s : State) (v : Arrival), FromPartner s v ∧ s.reg .xwState = xwPaired) ∧
    (∃ (s : State) (v : Arrival), FromPartner s v ∧ s.reg .xwState = xwPaired) ∧
    (∃ (s : State) (v : Arrival) (d : XwDiff),
      s.xwDiff = some d ∧ d.found = true ∧ FromPartner s v ∧ s.reg .xwState = xwPaired) ∧
    (∃ (s : State) (v : Arrival), FromPartner s v) :=
  ⟨⟨{ job with bays := [(0, { bay with lasts := 1, atLast := true })] }, by decide +kernel⟩,
   ⟨put [(.nodeState, 0, 5)] job, host, by unfold Accepts; decide +kernel⟩,
   ⟨put [(.groupMap, 0, 0x3FFFFF)] job, ⟨1, { header with dst := 0xFFFFF }⟩, by unfold Heard; decide +kernel⟩,
   ⟨paired, xwArrival, by unfold FromPartner; decide +kernel⟩,
   ⟨paired, xwArrival, by unfold FromPartner; decide +kernel⟩,
   ⟨{ paired with xwDiff := some ⟨0, true, 0, 0, 0, 0⟩ }, xwArrival, ⟨0, true, 0, 0, 0, 0⟩,
     by unfold FromPartner; decide +kernel⟩,
   ⟨paired, xwArrival, by unfold FromPartner; decide +kernel⟩⟩

theorem met_EpochsComplete :
    (∃ (s : State) (b : Fin 256) (f : Flight),
      s.ready b.val (fun f => decide (f.op = opEpoch)) = some f ∧ f.param 0 16 = s.reg .jobEpoch ∧
        (s.reg .detExpect = 0 ∨ s.reg .detExpect = s.detSignature)) ∧
    (∃ (s : State) (b : Fin 256) (k : Nat) (f : Flight),
      ((s.bay b.val).colls ++ (s.bay b.val).flights)[k]? = some f ∧ bit f.rflags 0 = false ∧
        (s.bay b.val).stops = false) ∧
    (∃ (s : State) (q : Fin 17) (h : Header), Heard s q.val h) ∧
    (∃ (s : State), s.reg .fenceJoined ≠ 0 ∧ s.reg .fenceDone ≠ 1 ∧ s.oneGroup = false ∧
      (s.represents = true → s.barrierDone = true)) :=
  ⟨⟨running (entry opEpoch 0 7), 0, entry opEpoch 0 7, by decide +kernel⟩,
   ⟨running (entry opVop), 0, 0, entry opVop, by decide +kernel⟩,
   ⟨job, 1, header, by unfold Heard; decide +kernel⟩,
   ⟨{ put [(.fenceJoined, 0, 1), (.jobNodes, 0, 20), (.fenceHeld, 0, 2)] job with collDone := [(jobBarrier, false)] },
     by decide +kernel⟩⟩

theorem met_CoreFaultsComplete :
    (∃ (s : State) (core : Fin 192),
      s.reg .coreFailed core ≠ 1 ∧
        (s.tests.any fun t => decide (t.kind = 9) && decide (t.unit = coreUnit core.val)) = false) ∧
    (∃ (s : State) (core : Fin 192) (x : SelfTest), s.runningTest 9 (coreUnit core.val) = some x) ∧
    (∃ (s : State), s.supervisorUp = true ∧ s.reg .supStandbyOk = 1) ∧
    (∃ (s : State), s.supervisorUp = true ∧ s.reg .supStandbyOk ≠ 1) :=
  ⟨⟨ready, 0, by decide +kernel⟩,
   ⟨{ ready with tests := [test 9 (coreUnit 0)] }, 0, test 9 (coreUnit 0), by decide +kernel⟩,
   ⟨put [(.supStandbyOk, 0, 1)] ready, by decide +kernel⟩,
   ⟨put [(.supStandbyOk, 0, 0)] ready, by decide +kernel⟩⟩

theorem met_DigestAndModelComplete :
    (∃ (s : State) (b : Fin 256) (f : Flight) (o : Operands) (d : Desc),
      s.ready b.val (fun f => decide (f.op = opDigest)) = some f ∧ s.operands (s.bay b.val) f = .ok o ∧
        o.a = .tensor d ∧ (s.poisonedAny (d.digestRuns.map fun r => (r.1, r.1 + r.2))) = false) ∧
    (∃ (s : State) (b : Fin 256) (f : Flight),
      s.ready b.val (fun f => decide (f.op = opModel)) = some f ∧
        ((s.bay b.val).model = some (f.param 0 16) ∨ s.modelPoisoned (f.param 0 16) = false)) ∧
    (∃ (s : State) (die : Fin 8) (e : TailwindCopy), s.tailwind.find? (fun e => decide (e.die = die.val)) = some e) :=
  ⟨⟨running (entry opDigest 0 0 0), 0, entry opDigest 0 0 0, ⟨.tensor tensor, .none, .none, .none⟩, tensor,
    by decide +kernel, ok_is (by decide +kernel), by decide +kernel, by decide +kernel⟩,
   ⟨running (entry opModel), 0, entry opModel, by decide +kernel⟩,
   ⟨{ job with tailwind := [⟨0, 5, false⟩] }, 0, ⟨0, 5, false⟩, by decide +kernel⟩⟩

theorem met_VopComplete :
    (∀ fn ∈ ([0, 1, 2, 3, 4, 5, 6, 7, 8, 9, 0xA, 0xB, 0xC, 0xD, 0xE, 0x10, 0x11, 0x12, 0x13, 0x18, 0x19, 0x1A,
      0x1B, 0x1C, 0x20, 0x21, 0x22, 0x23, 0x24, 0x25] : List Nat),
        ∃ (s : State) (b : Fin 256) (f : Flight) (o : Operands),
      s.ready b.val (fun f => decide (f.op = opVop) && decide (f.param 0 8 = fn)) = some f ∧
        s.operands (s.bay b.val) f = .ok o) :=
  fun fn h => ⟨running (entry opVop 0 fn), 0, entry opVop 0 fn, ⟨.none, .none, .none, .none⟩,
      (by decide +kernel : ∀ fn ∈ ([0, 1, 2, 3, 4, 5, 6, 7, 8, 9, 0xA, 0xB, 0xC, 0xD, 0xE, 0x10, 0x11, 0x12, 0x13,
        0x18, 0x19, 0x1A, 0x1B, 0x1C, 0x20, 0x21, 0x22, 0x23, 0x24, 0x25] : List Nat),
          (running (entry opVop 0 fn)).ready (0 : Fin 256).val
        (fun f => decide (f.op = opVop) && decide (f.param 0 8 = fn)) = some (entry opVop 0 fn)) fn h,
      ok_is ((by decide +kernel : ∀ fn ∈ ([0, 1, 2, 3, 4, 5, 6, 7, 8, 9, 0xA, 0xB, 0xC, 0xD, 0xE, 0x10, 0x11, 0x12,
        0x13, 0x18, 0x19, 0x1A, 0x1B, 0x1C, 0x20, 0x21, 0x22, 0x23, 0x24, 0x25] : List Nat),
          okIs ((running (entry opVop 0 fn)).operands
        ((running (entry opVop 0 fn)).bay (0 : Fin 256).val) (entry opVop 0 fn)) ⟨.none, .none, .none,
          .none⟩ = true) fn h)⟩

theorem met_VredComplete :
    (∀ fn ∈ ([0x40, 0x41, 0x42, 0x43, 0x44, 0x45, 0x46, 0x47] : List Nat),
      ∃ (s : State) (b : Fin 256) (f : Flight) (o : Operands),
      s.ready b.val (fun f => decide (f.op = opVred) && decide (f.param 0 8 = fn)) = some f ∧
        s.operands (s.bay b.val) f = .ok o) :=
  fun fn h => ⟨running (entry opVred 0 fn), 0, entry opVred 0 fn, ⟨.none, .none, .none, .none⟩,
      (by decide +kernel : ∀ fn ∈ ([0x40, 0x41, 0x42, 0x43, 0x44, 0x45, 0x46, 0x47] : List Nat),
        (running (entry opVred 0 fn)).ready (0 : Fin 256).val
        (fun f => decide (f.op = opVred) && decide (f.param 0 8 = fn)) = some (entry opVred 0 fn)) fn h,
      ok_is ((by decide +kernel : ∀ fn ∈ ([0x40, 0x41, 0x42, 0x43, 0x44, 0x45, 0x46, 0x47] : List Nat),
        okIs ((running (entry opVred 0 fn)).operands
        ((running (entry opVred 0 fn)).bay (0 : Fin 256).val) (entry opVred 0 fn)) ⟨.none, .none, .none,
          .none⟩ = true) fn h)⟩

theorem met_MatrixComplete :
    (∃ (s : State) (die : Fin 8) (phys : Fin 34) (x : SelfTest),
      s.runningTest 1 (die.val * 64 + phys.val) = some x ∧ x.stage = 0) ∧
    (∃ (s : State) (die : Fin 8) (phys : Fin 34) (x : SelfTest),
      s.runningTest 1 (die.val * 64 + phys.val) = some x ∧ x.stage = 1) ∧
    (∃ (s : State) (b : Fin 256) (f : Flight) (o : Operands),
      s.ready b.val (fun f => decide (f.op = opMma) && decide (f.param 40 2 = 0)) = some f ∧
      s.operands (s.bay b.val) f = .ok o) ∧
    (∃ (s : State) (b : Fin 256) (f : Flight) (o : Operands),
      s.ready b.val (fun f => decide (f.op = opMma) && decide (f.param 40 2 = 1)) = some f ∧
      s.operands (s.bay b.val) f = .ok o) ∧
    (∃ (s : State) (b : Fin 256) (f : Flight) (o : Operands),
      s.ready b.val (fun f => decide (f.op = opMma) && decide (f.param 40 2 = 2)) = some f ∧
      s.operands (s.bay b.val) f = .ok o) :=
  ⟨⟨{ ready with tests := [test 1 0] }, 0, 0, test 1 0, by decide +kernel⟩,
   ⟨{ ready with tests := [test 1 0 1] }, 0, 0, test 1 0 1, by decide +kernel⟩,
   ⟨running (entry opMma 0 0xffffffff 0xffffffff 0xffffffff 0xffffffff), 0,
     entry opMma 0 0xffffffff 0xffffffff 0xffffffff 0xffffffff, ⟨.none, .none, .none, .none⟩, by decide +kernel,
       ok_is (by decide +kernel)⟩,
   ⟨running (entry opMma 0 0x100ffffffff 0xffffffff 0xffffffff 0xffffffff), 0,
     entry opMma 0 0x100ffffffff 0xffffffff 0xffffffff 0xffffffff, ⟨.none, .none, .none, .none⟩, by decide +kernel,
       ok_is (by decide +kernel)⟩,
   ⟨running (entry opMma 0 0x200ffffffff 0xffffffff 0xffffffff 0xffffffff), 0,
     entry opMma 0 0x200ffffffff 0xffffffff 0xffffffff 0xffffffff, ⟨.none, .none, .none, .none⟩, by decide +kernel,
       ok_is (by decide +kernel)⟩⟩

theorem met_DataMoversComplete :
    (∃ (s : State) (b : Fin 256) (f : Flight) (d : Desc) (i : Desc) (v : Desc) (y : Operand),
      s.ready b.val (fun f => decide (f.op = opGath)) = some f ∧ s.operands (s.bay b.val) f = .ok ⟨.tensor d,
        .tensor i, .tensor v, y⟩) ∧
    (∃ (s : State) (b : Fin 256) (f : Flight) (v : Desc) (i : Desc) (d : Desc) (y : Operand),
      s.ready b.val (fun f => decide (f.op = opScat)) = some f ∧ s.operands (s.bay b.val) f = .ok ⟨.tensor v,
        .tensor i, .tensor d,
          y⟩ ∧ firstFault ((List.range v.elems).map (s.gsTarget d i)) 0 = none ∧
            s.poisonedAny v.readRanges = false) ∧
    (∃ (s : State) (b : Nat) (f : Flight) (v i d : Desc) (y : Operand),
      s.operands (s.bay b) f = .ok ⟨.tensor v, .tensor i, .tensor d, y⟩ ∧
        ((List.range v.elems).map (s.gathered f d i)).any Option.isNone = false ∧
          firstFault (((List.range v.elems).map (s.gathered f d i)).filterMap id) 0 = none ∧
            s.poisonedAny v.readRanges = false) ∧
    (∃ (s : State) (b : Fin 256) (f : Flight) (o : Operands) (a : Desc) (d : Desc),
      s.ready b.val (fun f => decide (f.op = opRstore)) = some f ∧ s.operands (s.bay b.val) f = .ok o ∧
        o.a = .tensor a ∧ o.d = .tensor d ∧ s.poisonedAny a.readRanges = false) ∧
    (∃ (s : State) (b : Fin 256) (f : Flight) (o : Operands) (a : Desc) (d : Desc),
      s.ready b.val (fun f => decide (f.op = opMcast)) = some f ∧ s.operands (s.bay b.val) f = .ok o ∧
        o.a = .tensor a ∧ o.d = .tensor d ∧ s.poisonedAny a.readRanges = false) ∧
    (∃ (s : State) (b : Fin 256) (f : Flight) (o : Operands) (a : Desc) (d : Desc) (q : Nat),
      s.ready b.val (fun f => decide (f.op = opRacc) && ((f.nd && !bit f.rflags 1) == true)) = some f ∧
        s.operands (s.bay b.val) f = .ok o ∧ o.a = .tensor a ∧ o.d = .tensor d ∧
          s.poisonedAny a.readRanges = false ∧ s.peerPos d.lnode = some q) ∧
    (∃ (s : State) (b : Fin 256) (f : Flight) (o : Operands) (a : Desc) (d : Desc) (q : Nat),
      s.ready b.val (fun f => decide (f.op = opRacc) && ((f.nd && !bit f.rflags 1) == false)) = some f ∧
        s.operands (s.bay b.val) f = .ok o ∧ o.a = .tensor a ∧ o.d = .tensor d ∧
          s.poisonedAny a.readRanges = false ∧ s.peerPos d.lnode = some q) ∧
    (∃ (s : State) (b : Fin 256) (f : Flight) (o : Operands), s.ready b.val (fun f => decide (f.op = opXfer)) = some f ∧
      s.operands (s.bay b.val) f = .ok o) :=
  ⟨⟨running (entry opGath 0 0x0 0x0 0x0 0x0), 0, entry opGath 0 0x0 0x0 0x0 0x0, tensor, tensor, tensor, .none,
    by decide +kernel, ok_is (by decide +kernel)⟩,
   ⟨running (entry opScat 0 0x0 0x0 0x0 0x0), 0, entry opScat 0 0x0 0x0 0x0 0x0, tensor, tensor, tensor, .none,
     by decide +kernel, ok_is (by decide +kernel), by decide +kernel, by decide +kernel⟩,
   ⟨running { entry opScat 0 0x0 0x0 0x0 0x1 with replies := [(0, 5)] }, 0,
     { entry opScat 0 0x0 0x0 0x0 0x1 with replies := [(0, 5)] }, tensor, tensor, tensor true, .none,
     ok_is (by decide +kernel), by decide +kernel, by decide +kernel, by decide +kernel⟩,
   ⟨running (entry opRstore 0 0xffffffff00000000 0x0 0xffffffff 0x1), 0,
     entry opRstore 0 0xffffffff00000000 0x0 0xffffffff 0x1, ⟨.tensor tensor, .none, .tensor (tensor true), .none⟩,
       tensor, tensor true, by decide +kernel, ok_is (by decide +kernel), by decide +kernel, by decide +kernel,
         by decide +kernel⟩,
   ⟨running (entry opMcast 0 0xffffffff00000000 0x0 0xffffffff 0x1), 0,
     entry opMcast 0 0xffffffff00000000 0x0 0xffffffff 0x1, ⟨.tensor tensor, .none, .tensor (tensor true), .none⟩,
       tensor, tensor true, by decide +kernel, ok_is (by decide +kernel), by decide +kernel, by decide +kernel,
         by decide +kernel⟩,
   ⟨running (entry opRacc 1 0xffffffff00000000 0x0 0xffffffff 0x1), 0,
     entry opRacc 1 0xffffffff00000000 0x0 0xffffffff 0x1, ⟨.tensor tensor, .none, .tensor (tensor true), .none⟩,
       tensor, tensor true, 1, by decide +kernel, ok_is (by decide +kernel), by decide +kernel, by decide +kernel,
         by decide +kernel, by decide +kernel⟩,
   ⟨running (entry opRacc 0 0xffffffff00000000 0x0 0xffffffff 0x1), 0,
     entry opRacc 0 0xffffffff00000000 0x0 0xffffffff 0x1, ⟨.tensor tensor, .none, .tensor (tensor true), .none⟩,
       tensor, tensor true, 1, by decide +kernel, ok_is (by decide +kernel), by decide +kernel, by decide +kernel,
         by decide +kernel, by decide +kernel⟩,
   ⟨running (entry opXfer 0 0x0 0xffffffff 0xffffffff 0xffffffff), 0,
     entry opXfer 0 0x0 0xffffffff 0xffffffff 0xffffffff, ⟨.none, .none, .none, .none⟩, by decide +kernel,
       ok_is (by decide +kernel)⟩⟩

theorem met_CouplersComplete :
    (∃ (s : State) (b : Fin 256) (c : Fin 8) (f : Flight),
      (s.bay b.val).flights.find? (fun f => decide (f.op = opTrans) && decide (f.phase =
        1) && f.plan.any fun p => decide (s.servingCoupler p.1 = c.val)) = some f ∧ s.inTest 8 c.val = false ∧
        ∃ p ∈ f.plan, s.servingCoupler p.1 ≠ c.val) ∧
    (∃ (s : State) (b : Fin 256) (c : Fin 8) (f : Flight),
      (s.bay b.val).flights.find? (fun f => decide (f.op = opTrans) && decide (f.phase =
        1) && f.plan.any fun p => decide (s.servingCoupler p.1 = c.val)) = some f ∧ s.inTest 8 c.val = false ∧
        ∀ p ∈ f.plan, s.servingCoupler p.1 = c.val) ∧
    (∃ (s : State) (b : Fin 256) (f : Flight) (x : Operand) (y : Operand) (z : Operand) (d : Desc),
      s.originHeld b.val = false ∧ s.ready b.val (fun f => decide (f.op = opHist) && decide (f.param 0 3 = 1)) = some f ∧
        s.operands (s.bay b.val) f = .ok ⟨x, y, .tensor d, z⟩) ∧
    (∃ (s : State) (b : Fin 256) (f : Flight) (a d : Desc) (x y : Operand),
      s.originHeld b.val = false ∧ s.ready b.val (fun f => decide (f.op = opTrans) && decide (f.param 0 2 = 0)) = some f ∧
      s.operands (s.bay b.val) f = .ok ⟨.tensor a, x, .tensor d, y⟩) ∧
    (∃ (s : State) (b : Fin 256) (f : Flight) (a d : Desc) (x y : Operand),
      s.originHeld b.val = false ∧ s.ready b.val (fun f => decide (f.op = opTrans) && decide (f.param 0 2 = 1)) = some f ∧
      s.operands (s.bay b.val) f = .ok ⟨.tensor a, x, .tensor d, y⟩) ∧
    (∃ (s : State) (b : Fin 256) (f : Flight) (a d : Desc) (x y : Operand),
      s.originHeld b.val = false ∧ s.ready b.val (fun f => decide (f.op = opTrans) && decide (f.param 0 2 = 2)) = some f ∧
      s.operands (s.bay b.val) f = .ok ⟨.tensor a, x, .tensor d, y⟩) ∧
    (∃ (s : State) (b : Fin 256) (f : Flight) (a d : Desc) (x y : Operand),
      s.originHeld b.val = false ∧ s.ready b.val (fun f => decide (f.op = opTrans) && decide (f.param 0 2 = 3)) = some f ∧
      s.operands (s.bay b.val) f = .ok ⟨.tensor a, x, .tensor d, y⟩) ∧
    (∃ (s : State) (b : Fin 256) (f : Flight) (o : Operands),
      s.originHeld b.val = false ∧ s.ready b.val (fun f => decide (f.op = opHist) && decide (f.param 0 3 = 0)) = some f ∧
      s.operands (s.bay b.val) f = .ok o) ∧
    (∃ (s : State) (b : Fin 256) (f : Flight) (o : Operands),
      s.originHeld b.val = false ∧ s.ready b.val (fun f => decide (f.op = opHist) && decide (f.param 0 3 = 2)) = some f ∧
      s.operands (s.bay b.val) f = .ok o) ∧
    (∃ (s : State) (b : Fin 256) (f : Flight) (o : Operands),
      s.originHeld b.val = false ∧ s.ready b.val (fun f => decide (f.op = opHist) && decide (f.param 0 3 = 3)) = some f ∧
      s.operands (s.bay b.val) f = .ok o) ∧
    (∃ (s : State) (b : Fin 256) (f : Flight) (o : Operands),
      s.originHeld b.val = false ∧ s.ready b.val (fun f => decide (f.op = opHist) && decide (f.param 0 3 = 4)) = some f ∧
      s.operands (s.bay b.val) f = .ok o) :=
  ⟨⟨running { entry opTrans with phase := 1, plan := [(0, 0x1000, []), (1, 0x2000, [])] }, 0, 0,
    { entry opTrans with phase := 1, plan := [(0, 0x1000, []), (1, 0x2000, [])] }, by decide +kernel⟩,
   ⟨running { entry opTrans with phase := 1, plan := [(0, 0x1000, [])] }, 0, 0,
    { entry opTrans with phase := 1, plan := [(0, 0x1000, [])] }, by decide +kernel⟩,
   ⟨running (entry opHist 0 0x1 0xffffffff 0xffffffff 0x0), 0, entry opHist 0 0x1 0xffffffff 0xffffffff 0x0, .none,
     .none, .none, tensor, by decide +kernel, by decide +kernel, ok_is (by decide +kernel)⟩,
   ⟨running (entry opTrans 0 0x0 0x0 0xffffffff 0x0), 0, entry opTrans 0 0x0 0x0 0xffffffff 0x0, tensor, tensor,
     .none, .none, by decide +kernel, by decide +kernel, ok_is (by decide +kernel)⟩,
   ⟨running (entry opTrans 0 0x1 0x0 0xffffffff 0x0), 0, entry opTrans 0 0x1 0x0 0xffffffff 0x0, tensor, tensor,
     .none, .none, by decide +kernel, by decide +kernel, ok_is (by decide +kernel)⟩,
   ⟨running (entry opTrans 0 0x2 0x0 0xffffffff 0x0), 0, entry opTrans 0 0x2 0x0 0xffffffff 0x0, tensor, tensor,
     .none, .none, by decide +kernel, by decide +kernel, ok_is (by decide +kernel)⟩,
   ⟨running (entry opTrans 0 0x3 0x0 0xffffffff 0x0), 0, entry opTrans 0 0x3 0x0 0xffffffff 0x0, tensor, tensor,
     .none, .none, by decide +kernel, by decide +kernel, ok_is (by decide +kernel)⟩,
   ⟨running (entry opHist 0 0x0 0xffffffff 0xffffffff 0xffffffff), 0,
     entry opHist 0 0x0 0xffffffff 0xffffffff 0xffffffff, ⟨.none, .none, .none, .none⟩, by decide +kernel, by decide +kernel,
       ok_is (by decide +kernel)⟩,
   ⟨running (entry opHist 0 0x2 0xffffffff 0xffffffff 0xffffffff), 0,
     entry opHist 0 0x2 0xffffffff 0xffffffff 0xffffffff, ⟨.none, .none, .none, .none⟩, by decide +kernel, by decide +kernel,
       ok_is (by decide +kernel)⟩,
   ⟨running (entry opHist 0 0x3 0xffffffff 0xffffffff 0xffffffff), 0,
     entry opHist 0 0x3 0xffffffff 0xffffffff 0xffffffff, ⟨.none, .none, .none, .none⟩, by decide +kernel, by decide +kernel,
       ok_is (by decide +kernel)⟩,
   ⟨running (entry opHist 0 0x4 0xffffffff 0xffffffff 0xffffffff), 0,
     entry opHist 0 0x4 0xffffffff 0xffffffff 0xffffffff, ⟨.none, .none, .none, .none⟩, by decide +kernel, by decide +kernel,
       ok_is (by decide +kernel)⟩⟩

theorem met_SequencerComplete :
    (∃ (s : State) (b : Fin 256),
      s.mayIssue b.val (s.bay b.val) = true ∧
        s.poisoned (((s.bay b.val).table + 32 * (s.bay b.val).index) / 128 * 128) (((s.bay b.val).table + 32 *
          (s.bay b.val).index) / 128 * 128 + 128) = false) ∧
    (∃ (s : State) (b : Fin 256) (f : Flight),
      (s.bay b.val).head = some f ∧ resolvedAtIssue f = false ∧ s.lagHold (s.bay b.val) f = false ∧ f.status = 0 ∧
        s.mayStart b.val (s.bay b.val) f = true ∧ staticCheck f = 0 ∧ ((f.nd = true → s.reg .strict ≠ 1)) ∧
          s.badDescs b.val f = []) ∧
    (∃ (s : State) (b : Fin 256) (f : Flight),
      (s.bay b.val).flights.find? (fun f => f.executed && !f.spec && !s.held b.val f) = some f ∧
        (s.bay b.val).parked = false ∧ (s.bay b.val).sparing = 0) ∧
    (∃ (s : State) (b : Fin 256) (f : Flight),
      (s.bay b.val).flights.find? (fun f => !f.executed && (decide (f.op = opFence) || decide (f.op =
        opWait) || decide (f.op = opEpoch))) = some f ∧ (s.bay b.val).stops = false) ∧
    (∃ (s : State) (b : Fin 256) (f : Flight), s.resolvable b.val opBr = some f ∧ staticCheck f = 0) ∧
    (∃ (s : State) (b : Fin 256) (f : Flight), s.resolvable b.val opLoop = some f ∧ staticCheck f = 0) ∧
    (∃ (s : State) (b : Fin 256) (f : Flight),
      s.resolvable b.val opCall = some f ∧ staticCheck f = 0 ∧ (s.bay b.val).stack.length < 8) ∧
    (∃ (s : State) (b : Fin 256) (f : Flight), s.ready b.val (fun f => decide (f.op = opEnd)) = some f) ∧
    (∃ (s : State) (b : Fin 256) (f : Flight),
      (s.bay b.val).flights.find? (fun f => !f.executed && decide (f.op = opFence)) = some f ∧
        (s.bay b.val).parked = false ∧ (s.bay b.val).sparing = 0) ∧
    (∃ (s : State) (b : Fin 256) (f : Flight),
      (s.bay b.val).flights.find? (fun f => decide (f.op = opWait) && !f.executed && decide (f.phase = 1)) =
        some f ∧ s.waitMet b.val f = true ∧ (s.bay b.val).sparing = 0 ∧ (s.bay b.val).parked = false) ∧
    (∃ (s : State) (q : Requester) (x : ModeObject) (n : Fin 16) (v : Byte), Accepts s q (modeReg x) n.val [v]) ∧
    (∃ (s : State) (b : Fin 256) (f : Flight),
      s.ready b.val (fun f => decide (f.op = opWait) && decide (f.param 0 4 = 0)) = some f) ∧
    (∃ (s : State) (b : Fin 256) (f : Flight),
      s.ready b.val (fun f => decide (f.op = opWait) && decide (f.param 0 4 = 1)) = some f) ∧
    (∃ (s : State) (b : Fin 256) (f : Flight),
      s.ready b.val (fun f => decide (f.op = opWait) && decide (f.param 0 4 = 2)) = some f) ∧
    (∃ (s : State) (b : Fin 256) (f : Flight),
      s.ready b.val (fun f => decide (f.op = opWait) && decide (f.param 0 4 = 3)) = some f) :=
  ⟨⟨{ job with bays := [(0, bay)] }, 0, by decide +kernel⟩,
   ⟨issued (entry opEnd), 0, entry opEnd, by decide +kernel⟩,
   ⟨running { entry opEnd with executed := true }, 0, { entry opEnd with executed := true }, by decide +kernel⟩,
   ⟨running (entry opFence), 0, entry opFence, by decide +kernel⟩,
   ⟨issued (entry opBr), 0, entry opBr, by decide +kernel⟩,
   ⟨issued (entry opLoop 0 1), 0, entry opLoop 0 1, by decide +kernel⟩,
   ⟨issued (entry opCall), 0, entry opCall, by decide +kernel⟩,
   ⟨running (entry opEnd), 0, entry opEnd, by decide +kernel⟩,
   ⟨running (entry opFence), 0, entry opFence, by decide +kernel⟩,
   ⟨running { entry opWait 0 3 with phase := 1 }, 0, { entry opWait 0 3 with phase := 1 }, by decide +kernel⟩,
   ⟨ready, host, .subn, 0, 0, by unfold Accepts; decide +kernel⟩,
   ⟨running (entry opWait 0 0), 0, entry opWait 0 0, by decide +kernel⟩,
   ⟨running (entry opWait 0 1), 0, entry opWait 0 1, by decide +kernel⟩,
   ⟨running (entry opWait 0 2), 0, entry opWait 0 2, by decide +kernel⟩,
   ⟨running (entry opWait 0 3), 0, entry opWait 0 3, by decide +kernel⟩⟩

theorem met_SvxArithmeticComplete :
    (∃ (s : State) (h : Fin 3072) (u : Bool) (vs2 : Fin 32) (et : Fin 8),
      s.issues h.val = true ∧ (s.hart h.val).fs ≠ 0 ∧ vs2.val < 8 ∧
        (u = true → laneInteger et.val = true)) ∧
    (∃ (s : State) (h : Fin 3072), s.issues h.val = true ∧ (s.hart h.val).fs ≠ 0) ∧
    (∃ (s : State) (h : Fin 3072) (et : Fin 8) (ln : Fin 16),
      s.issues h.val = true ∧ (s.hart h.val).fs ≠ 0 ∧ ln.val < laneCount 128 et.val) ∧
    (∃ (s : State) (h : Fin 3072) (w : Word), s.issues h.val = true ∧ (s.hart h.val).fs ≠ 0 ∧
      rowed w.toNat ((s.hart h.val).reg 17) = false ∧ svxCommand h w.toNat = none ∧ ∃ (r : FpResult),
        fpInstr w.toNat (s.hart h.val).reg (s.hart h.val).freg = some r) ∧
    (∃ (s : State) (h : Fin 3072) (w : Word), s.issues h.val = true ∧ rowed w.toNat ((s.hart h.val).reg 17) = false ∧
      (s.hart h.val).fs ≠ 0 ∧ svxCommand h w.toNat = none ∧
        fpInstr w.toNat (s.hart h.val).reg (s.hart h.val).freg = none ∧ ∃ (v : Nat),
          aluInstr w.toNat (s.hart h.val).pc (s.hart h.val).reg = some v) ∧
    (∃ (s : State) (h : Fin 3072) (w : Word), s.issues h.val = true ∧ rowed w.toNat ((s.hart h.val).reg 17) = false ∧
      (s.hart h.val).fs ≠ 0 ∧ svxCommand h w.toNat = none ∧
        fpInstr w.toNat (s.hart h.val).reg (s.hart h.val).freg = none ∧ ∃ (u : State),
          s.integerInstr h.val (instrLen false) w.toNat = some u) ∧
    (∃ (s : State) (h : Fin 3072) (w : Word), s.issues h.val = true ∧ rowed w.toNat ((s.hart h.val).reg 17) = false ∧
      ∃ (i : Instr), svxCommand h w.toNat = some i) ∧
    (∃ (s : State) (h : Fin 3072) (u : Bool) (vs2 : Fin 32) (et : Fin 8), s.issues h.val = true ∧
      (fun u _ _ => !u) u vs2 et = true ∧ (s.hart h.val).fs ≠ 0) ∧
    (∃ (s : State) (h : Fin 3072) (u : Bool) (vs2 : Fin 32) (et : Fin 8), s.issues h.val = true ∧
      (fun _ _ et => laneInteger et.val) u vs2 et = true ∧ (s.hart h.val).fs ≠ 0) ∧
    (∃ (s : State) (h : Fin 3072) (u : Bool) (vs2 : Fin 32) (et : Fin 8), s.issues h.val = true ∧
      (fun u _ et => !u || laneInteger et.val) u vs2 et = true ∧ (s.hart h.val).fs ≠ 0) ∧
    (∃ (s : State) (h : Fin 3072) (u : Bool) (vs2 : Fin 32) (et : Fin 8), s.issues h.val = true ∧
      (fun u _ et => !u && laneFp et.val) u vs2 et = true ∧ (s.hart h.val).fs ≠ 0) ∧
    (∃ (s : State) (h : Fin 3072) (u : Bool) (vs2 : Fin 32) (et : Fin 8), s.issues h.val = true ∧
      (fun u vs2 et => !u && laneFp et.val && decide (vs2 = 0)) u vs2 et = true ∧ (s.hart h.val).fs ≠ 0) ∧
    (∃ (s : State) (h : Fin 3072) (u : Bool) (vs2 : Fin 32) (et : Fin 8), s.issues h.val = true ∧
      (fun u _ et => !u && laneInteger et.val) u vs2 et = true ∧ (s.hart h.val).fs ≠ 0) ∧
    (∃ (s : State) (h : Fin 3072) (u : Bool) (vs2 : Fin 32) (et : Fin 8), s.issues h.val = true ∧
      (fun u _ et => widens et.val && (!u || laneInteger et.val)) u vs2 et = true ∧ (s.hart h.val).fs ≠ 0) ∧
    (∃ (s : State) (h : Fin 3072) (u : Bool) (vs2 : Fin 32) (et : Fin 8), s.issues h.val = true ∧
      (fun u _ et => widens et.val && decide (et ≠ 2) && (!u || laneInteger et.val)) u vs2 et = true ∧
        (s.hart h.val).fs ≠ 0) :=
  ⟨⟨hart0, 0, false, 0, 0, by decide +kernel⟩,
   ⟨hart0, 0, by decide +kernel⟩,
   ⟨hart0, 0, 0, 0, by decide +kernel⟩,
   ⟨hart0, 0, 0x00000053, by decide +kernel, by decide +kernel, by decide +kernel, isNone_of (by decide +kernel),
     some_of (by decide +kernel)⟩,
   ⟨hart0, 0, 0x00100093, by decide +kernel, by decide +kernel, by decide +kernel, isNone_of (by decide +kernel),
     isNone_of (by decide +kernel), some_of (by decide +kernel)⟩,
   ⟨hart0, 0, 0x0080006F, by decide +kernel, by decide +kernel, by decide +kernel, isNone_of (by decide +kernel),
     isNone_of (by decide +kernel), some_of (by decide +kernel)⟩,
   ⟨hart0, 0, 0x0000000B, by decide +kernel, by decide +kernel, some_of (by decide +kernel)⟩,
   ⟨hart0, 0, false, 0, 0, by decide +kernel⟩,
   ⟨hart0, 0, false, 0, 0, by decide +kernel⟩,
   ⟨hart0, 0, false, 0, 0, by decide +kernel⟩,
   ⟨hart0, 0, false, 0, 6, by decide +kernel⟩,
   ⟨hart0, 0, false, 0, 6, by decide +kernel⟩,
   ⟨hart0, 0, false, 0, 0, by decide +kernel⟩,
   ⟨hart0, 0, false, 0, 0, by decide +kernel⟩,
   ⟨hart0, 0, false, 0, 0, by decide +kernel⟩⟩

theorem met_HartAccessesComplete :
    (∃ (s : State) (h : Fin 3072) (k : LoadKind) (rs1 : Fin 32) (imm : BitVec 12),
      s.issues h.val = true ∧ (loadsFp k = true → (s.hart h.val).fs ≠ 0) ∧ s.refills h.val false = false ∧ ∃ (p : Place) (u : State),
        s.access h.val false ((s.hart h.val).address rs1.val imm) (loadSize k) = .ok (p, u)) ∧
    (∃ (s : State) (h : Fin 3072) (k : LoadKind), s.issues h.val = true ∧
      (loadsFp k = true → (s.hart h.val).fs ≠ 0) ∧ s.refills h.val true = true) ∧
    (∃ (s : State) (h : Fin 3072) (imm : BitVec 12) (rs1 : Fin 32),
      s.issues h.val = true ∧ (s.hart h.val).fs ≠ 0 ∧ (s.hart h.val).address rs1.val imm % 16 = 0 ∧
        s.refills h.val false = false ∧ ∃ (p : Place) (u : State), s.access h.val false ((s.hart h.val).address rs1.val imm) 16 = .ok (p, u)) ∧
    (∃ (s : State) (h : Fin 3072) (k : StoreKind) (rs1 : Fin 32) (imm : BitVec 12),
      s.issues h.val = true ∧ (storesFp k = true → (s.hart h.val).fs ≠ 0) ∧ s.refills h.val false = false ∧ ∃ (p : Place) (u : State),
        s.access h.val true ((s.hart h.val).address rs1.val imm) (storeSize k) = .ok (p, u)) ∧
    (∃ (s : State) (h : Fin 3072) (imm : BitVec 12) (rs1 : Fin 32),
      s.issues h.val = true ∧ (s.hart h.val).fs ≠ 0 ∧ (s.hart h.val).address rs1.val imm % 16 = 0 ∧
        s.refills h.val false = false ∧ ∃ (p : Place) (u : State), s.access h.val true ((s.hart h.val).address rs1.val imm) 16 = .ok (p, u)) ∧
    (∃ (s : State) (core : Fin 192) (e : HartStore), s.stores.find? (fun e => decide (e.core = core.val)) = some e) ∧
    (∃ (s : State) (h : Fin 3072) (a : HartAtomic) (wide : Bool) (rs1 : Fin 32),
      s.issues h.val = true ∧ s.refills h.val false = false ∧ ∃ (p : Place) (u : State),
        s.access h.val (decide (a ≠ .lr)) ((s.hart h.val).reg rs1.val) (if wide then 8 else 4) = .ok (p, u)) ∧
    (∃ (s : State) (h : Fin 3072) (et : Fin 8) (iw : Fin 4) (sc : Fin 4) (vi : Fin 32) (rs1 : Fin 32) (vd : Fin 32),
      s.issues h.val = true ∧ (s.hart h.val).fs ≠ 0 ∧ s.refills h.val false = false ∧
        vi.val % ceilDiv (laneCount 128 et.val * (8 * 2 ^ iw.val)) 128 = 0 ∧
          s.gatherIo h.val false (gatherAddrs (s.hart h.val) et.val iw.val sc.val vi.val rs1.val) = false ∧
            (vd.val < vi.val ∨ vi.val + ceilDiv (laneCount 128 et.val * (8 * 2 ^ iw.val)) 128 ≤ vd.val) ∧
            ∃ (ps : List (Nat × Place)) (u : State),
            s.gatherPlaces h.val false (laneBits et.val / 8) ((gatherAddrs (s.hart h.val) et.val iw.val sc.val
            vi.val rs1.val).headD 0) 0 (gatherAddrs (s.hart h.val) et.val iw.val sc.val vi.val rs1.val) = .ok (ps, u)) ∧
    (∃ (s : State) (h : Fin 3072) (et : Fin 8) (iw : Fin 4) (sc : Fin 4) (vi : Fin 32) (rs1 : Fin 32),
      s.issues h.val = true ∧ (s.hart h.val).fs ≠ 0 ∧ s.refills h.val false = false ∧
        vi.val % ceilDiv (laneCount 128 et.val * (8 * 2 ^ iw.val)) 128 = 0 ∧
          s.gatherIo h.val true (gatherAddrs (s.hart h.val) et.val iw.val sc.val vi.val rs1.val) = false ∧
            ∃ (ps : List (Nat × Place)) (u : State),
            s.gatherPlaces h.val true (laneBits et.val / 8) ((gatherAddrs (s.hart h.val) et.val iw.val sc.val vi.val
            rs1.val).headD 0) 0 (gatherAddrs (s.hart h.val) et.val iw.val sc.val vi.val rs1.val) = .ok (ps, u)) ∧
    (∃ (s : State) (h : Fin 3072),
      s.hartSt h.val = hsParked ∧ s.reg .coreFailed (s.coreOf h.val) = 0 ∧ s.isIn stFaulted = false ∧
        ∃ (u : State), s.returned h.val = some u) :=
  ⟨⟨hart0 { Hart.blank with x := [(1, 0x200001000)] }, 0, .lb, 1, 0, by decide +kernel, by decide +kernel, by decide +kernel,
    ok_of (by decide +kernel)⟩,
   ⟨hart0 { Hart.blank with satp := 9 * 2 ^ 60 }, 0, .lb, by decide +kernel⟩,
   ⟨hart0 { Hart.blank with x := [(1, 0x200001000)] }, 0, 0, 1, by decide +kernel, by decide +kernel,
     by decide +kernel, by decide +kernel, ok_of (by decide +kernel)⟩,
   ⟨hart0 { Hart.blank with x := [(1, 0x200001000)] }, 0, .sb, 1, 0, by decide +kernel, by decide +kernel, by decide +kernel,
     ok_of (by decide +kernel)⟩,
   ⟨hart0 { Hart.blank with x := [(1, 0x200001000)] }, 0, 0, 1, by decide +kernel, by decide +kernel,
     by decide +kernel, by decide +kernel, ok_of (by decide +kernel)⟩,
   ⟨{ hart0 with stores := [⟨0, 0, 0x1000, false, [1]⟩] }, 0, ⟨0, 0, 0x1000, false, [1]⟩, by decide +kernel⟩,
   ⟨hart0 { Hart.blank with x := [(1, 0x200001000)] }, 0, .lr, true, 1, by decide +kernel,
     by decide +kernel, ok_of (by decide +kernel)⟩,
   ⟨hart0 { Hart.blank with x := [(1, 0x200001000)] }, 0, 0, 0, 0, 1, 1, 0, by decide +kernel, by decide +kernel, by decide +kernel,
     by decide +kernel, by decide +kernel, by decide +kernel, ok_of (by decide +kernel)⟩,
   ⟨hart0 { Hart.blank with x := [(1, 0x200001000)] }, 0, 0, 0, 0, 1, 1, by decide +kernel, by decide +kernel, by decide +kernel,
     by decide +kernel, by decide +kernel, ok_of (by decide +kernel)⟩,
   ⟨put [(.hartState, 0, 2)] (hart0 { Hart.blank with wait := .load .lb 1 1 0x1000 (.node 0x1000) }), 0,
     by decide +kernel, by decide +kernel, by decide +kernel, some_of (by decide +kernel)⟩⟩

theorem met_HartControlComplete :
    (∃ (s : State) (h : Fin 3072), s.issues h.val = true) ∧
    (∃ (s : State) (h : Fin 3072), s.issues h.val = true ∧ (s.hart h.val).fs ≠ 0) ∧
    (∃ (s : State) (h : Fin 3072), s.issues h.val = true) ∧
    (∃ (s : State) (h : Fin 3072), s.hartSt h.val ≠ hsNone ∧ s.hartSt h.val ≠ hsEnded) ∧
    (∃ (s : State) (h : Fin 3072), s.issues h.val = true ∧ (s.hart h.val).reg 17 = 0x10 ∧ (s.hart h.val).user = false) ∧
    (∃ (s : State) (h : Fin 3072),
      s.issues h.val = true ∧ (s.hart h.val).reg 17 = 0x54494D45 ∧ (s.hart h.val).user = false ∧
        (s.hart h.val).reg 16 = 0) ∧
    (∃ (s : State) (h : Fin 3072),
      s.issues h.val = true ∧ (s.hart h.val).reg 17 = 0x735049 ∧ (s.hart h.val).user = false ∧
        (s.hart h.val).reg 16 = 0 ∧
          ((if (s.hart h.val).reg 11 =
            2 ^ 64 - 1 then List.range (s.reg .hartCount) else ((List.range 64).filter fun k => bit ((s.hart
            h.val).reg 10) k).map fun k => (s.hart h.val).reg 11 + k).any fun k => decide (s.reg .hartCount ≤ k)) =
            false) ∧
    (∃ (s : State) (h : Fin 3072),
      s.issues h.val = true ∧ (s.hart h.val).reg 17 = 0x53525354 ∧ (s.hart h.val).user = false ∧
        (s.hart h.val).reg 16 = 0 ∧ (s.hart h.val).reg 10 % 2 ^ 32 = 0) ∧
    (∃ (s : State) (h : Fin 3072), s.issues h.val = true ∧ (s.hart h.val).user = false) :=
  ⟨⟨hart0, 0, by decide +kernel⟩,
   ⟨hart0, 0, by decide +kernel⟩,
   ⟨hart0, 0, by decide +kernel⟩,
   ⟨hart0, 0, by decide +kernel⟩,
   ⟨hart0 { Hart.blank with x := [(17, 0x10)] }, 0, by decide +kernel⟩,
   ⟨hart0 { Hart.blank with x := [(17, 0x54494D45)] }, 0, by decide +kernel⟩,
   ⟨hart0 { Hart.blank with x := [(10, 1), (17, 0x735049)] }, 0, by decide +kernel⟩,
   ⟨hart0 { Hart.blank with x := [(17, 0x53525354)] }, 0, by decide +kernel⟩,
   ⟨hart0, 0, by decide +kernel⟩⟩

theorem met_PacketsComplete :
    (∃ (s : State) (q : Fin 17) (h : Header) (round : Nat),
      Heard s q.val h ∧ s.closes.contains (round, h.src.val) = false) ∧
    (∃ (s : State) (r : Nat) (rs : List Nat), s.roundsEnded = r :: rs ∧ (s.requests.any fun x => x.inRound r) = false) ∧
    (∃ (s : State) (q : Fin 17) (r : Request), s.requests.find? (fun r => decide (r.pos = q.val)) = some r) ∧
    (∃ (s : State) (q : Fin 17) (h : Header) (b : Body), h.dst.val = s.lnode ∧ s.epochOk h = true ∧
      s.sourceOk q.val h = true ∧ s.faultedRefuses ⟨h, b⟩ = false ∧ Store.at 0 s.seqIn (orderKey h) = h.seq.toNat ∧
      s.hasRoom ⟨h, b⟩ = true) ∧
    (∃ (s : State) (q : Fin 17) (h : Header) (r : Request), h.dst.val = s.lnode ∧ s.epochOk h = true ∧
      s.sourceOk q.val h = true ∧ s.asked h = some r) :=
  ⟨⟨job, 1, header, 0, by unfold Heard; decide +kernel⟩,
   ⟨{ job with roundsEnded := [3] }, 3, [], by decide +kernel⟩,
   ⟨{ job with requests := [request0] }, 1, request0, by decide +kernel⟩,
   ⟨job, 1, header, .racc 0x40 1 1 (zeros 8) (some ⟨0, 0, 0⟩), by decide +kernel⟩,
   ⟨{ job with requests := [request0] }, 1, header, request0, by decide +kernel⟩⟩

theorem met_MailComplete :
    (∃ (s : State) (q : Fin 320) (m : Mail),
      s.mails.find? (fun m => decide (m.queue = q.val) && m.result.isSome) = some m) ∧
    (∃ (s : State) (p : Packet) (ps : List Packet), s.transit = p :: ps) ∧
    (∃ (s : State) (h : Header) (msg : Half) (m : Mail),
      s.isMine h = true ∧ s.epochOk h = true ∧ s.mailOut h.src.val msg.toNat = some m) ∧
    (∃ (s : State) (lnode : Fin 1048576) (m : Mail),
      s.mails.find? (fun m => decide (m.lnode = lnode.val) && m.started && m.result.isNone) = some m) :=
  ⟨⟨{ job with mails := [mail0 (some 0)] }, 0, mail0 (some 0), by decide +kernel⟩,
   ⟨{ job with transit := [⟨header, .ack⟩] }, ⟨header, .ack⟩, [], by decide +kernel⟩,
   ⟨{ job with mails := [mail0 none] }, header, 3, mail0 none, by decide +kernel⟩,
   ⟨{ job with mails := [mail0 none] }, 1, mail0 none, by decide +kernel⟩⟩

/-- A state in which that instance is open. -/
def met0 : State := { job with colls := [coll0] }

theorem heard0 : HeardColl met0 (.position 1) header := by unfold HeardColl; decide +kernel

theorem inRun0 : InRun met0 met0 header ⟨0, 0, 0, 0⟩ (0 : Fin 3).val coll0 :=
  ⟨if_pos (by decide +kernel), by decide +kernel⟩

theorem met_CollectivesComplete :
    (∃ (s : State) (b : Fin 256) (c : Coll), s.unstagedOf b.val = some c ∧ c.missing = []) ∧
    (∃ (s : State) (q : MailPort) (h : Header), HeardColl s q h) ∧
    (∃ (s u : State) (q : MailPort) (h : Header) (i : CollId) (run : Fin 3) (c : Coll),
      HeardColl s q h ∧ InRun s u h i run.val c) ∧
    (∃ (s u : State) (q : MailPort) (h : Header) (i : CollId) (run : Fin 3) (tree : Fin 2) (c : Coll),
      HeardColl s q h ∧ InRun s u h i run.val c ∧ c.tokens.contains tree.val = false) ∧
    (∃ (s u : State) (q : MailPort) (h : Header) (i : CollId) (run : Fin 3) (k : Nat) (c : Coll),
      HeardColl s q h ∧ InRun s u h i run.val c ∧ c.retained.contains (k, c.members.idxOf h.src.val) = true) ∧
    (∃ (s : State) (b : Fin 256) (f : Flight),
      ((s.bay b.val).colls ++ (s.bay b.val).flights).find? (fun f => decide (f.op = opColl)) = some f) ∧
    (∃ (s u : State) (b : Fin 256) (f : Flight) (o : Operands) (k : Coll),
      s.ready b.val (fun f => decide (f.op = opColl) && decide (f.ckind = 1)) = some f ∧
        s.operands (s.bay b.val) f = .ok o ∧
        s.poisonedAny o.a.readRanges = false ∧ s.openColl (f.collId (s.bay b.val)) = some u ∧
          u.coll (f.collId (s.bay b.val)) = some k) ∧
    (∃ (s u : State) (b : Fin 256) (f : Flight) (o : Operands) (k : Coll),
      s.ready b.val (fun f => decide (f.op = opColl) && decide (f.ckind = 2)) = some f ∧
        s.operands (s.bay b.val) f = .ok o ∧
        s.poisonedAny o.a.readRanges = false ∧ s.openColl (f.collId (s.bay b.val)) = some u ∧
          u.coll (f.collId (s.bay b.val)) = some k) ∧
    (∃ (s u : State) (b : Fin 256) (f : Flight) (o : Operands) (k : Coll),
      s.ready b.val (fun f => decide (f.op = opColl) && decide (f.ckind = 3)) = some f ∧
        s.operands (s.bay b.val) f = .ok o ∧
        s.poisonedAny o.a.readRanges = false ∧ s.openColl (f.collId (s.bay b.val)) = some u ∧
          u.coll (f.collId (s.bay b.val)) = some k) ∧
    (∃ (s u : State) (b : Fin 256) (f : Flight) (o : Operands) (k : Coll),
      s.ready b.val (fun f => decide (f.op = opColl) && decide (f.ckind = 4)) = some f ∧
        s.operands (s.bay b.val) f = .ok o ∧
        s.poisonedAny o.a.readRanges = false ∧ s.openColl (f.collId (s.bay b.val)) = some u ∧
          u.coll (f.collId (s.bay b.val)) = some k) ∧
    (∃ (s u : State) (b : Fin 256) (f : Flight) (o : Operands) (k : Coll),
      s.ready b.val (fun f => decide (f.op = opColl) && decide (f.ckind = 5)) = some f ∧
        s.operands (s.bay b.val) f = .ok o ∧
        s.poisonedAny o.a.readRanges = false ∧ s.openColl (f.collId (s.bay b.val)) = some u ∧
          u.coll (f.collId (s.bay b.val)) = some k) ∧
    (∃ (s u : State) (b : Fin 256) (f : Flight) (o : Operands) (k : Coll),
      s.ready b.val (fun f => decide (f.op = opColl) && decide (f.ckind = 6)) = some f ∧
        s.operands (s.bay b.val) f = .ok o ∧
        s.poisonedAny o.a.readRanges = false ∧ s.openColl (f.collId (s.bay b.val)) = some u ∧
          u.coll (f.collId (s.bay b.val)) = some k) ∧
    (∃ (s u : State) (b : Fin 256) (f : Flight) (o : Operands) (k : Coll),
      s.ready b.val (fun f => decide (f.op = opColl) && decide (f.ckind = 7)) = some f ∧
        s.operands (s.bay b.val) f = .ok o ∧
        s.poisonedAny o.a.readRanges = false ∧ s.openColl (f.collId (s.bay b.val)) = some u ∧
          u.coll (f.collId (s.bay b.val)) = some k)∧
    (∃ (s u : State) (b : Fin 256) (f : Flight) (o : Operands) (k : Coll) (n : Nat),
      s.ready b.val (fun f => decide (f.op = opColl) && decide (f.ckind = 1)) = some f ∧
        s.operands (s.bay b.val) f = .ok o ∧
        s.poisonedAny o.a.readRanges = false ∧ s.openColl (f.collId (s.bay b.val)) = some u ∧
          u.coll (f.collId (s.bay b.val)) = some k ∧ k.failed = some n) :=
  ⟨⟨{ job with colls := [coll0] }, 0, coll0, by decide +kernel⟩,
   ⟨met0, .position 1, header, heard0⟩,
   ⟨met0, met0, .position 1, header, ⟨0, 0, 0, 0⟩, 0, coll0, heard0, inRun0⟩,
   ⟨met0, met0, .position 1, header, ⟨0, 0, 0, 0⟩, 0, 0, coll0, heard0, inRun0, by decide +kernel⟩,
   ⟨met0, met0, .position 1, header, ⟨0, 0, 0, 0⟩, 0, 0, coll0, heard0, inRun0, by decide +kernel⟩,
   ⟨running (entry opColl), 0, entry opColl, by decide +kernel⟩,
   ⟨joining 1, joining 1, 0, entry opColl 0 0x10000 0xffffffff 0xffffffff 0xffffffff, ⟨.none, .none, .none, .none⟩,
     coll0, by decide +kernel,
      ok_is (by decide +kernel), by decide +kernel, if_pos (by decide +kernel), by decide +kernel⟩,
   ⟨joining 2, joining 2, 0, entry opColl 0 0x20000 0xffffffff 0xffffffff 0xffffffff, ⟨.none, .none, .none, .none⟩,
     coll0, by decide +kernel,
      ok_is (by decide +kernel), by decide +kernel, if_pos (by decide +kernel), by decide +kernel⟩,
   ⟨joining 3, joining 3, 0, entry opColl 0 0x30000 0xffffffff 0xffffffff 0xffffffff, ⟨.none, .none, .none, .none⟩,
     coll0, by decide +kernel,
      ok_is (by decide +kernel), by decide +kernel, if_pos (by decide +kernel), by decide +kernel⟩,
   ⟨joining 4, joining 4, 0, entry opColl 0 0x40000 0xffffffff 0xffffffff 0xffffffff, ⟨.none, .none, .none, .none⟩,
     coll0, by decide +kernel,
      ok_is (by decide +kernel), by decide +kernel, if_pos (by decide +kernel), by decide +kernel⟩,
   ⟨joining 5, joining 5, 0, entry opColl 0 0x50000 0xffffffff 0xffffffff 0xffffffff, ⟨.none, .none, .none, .none⟩,
     coll0, by decide +kernel,
      ok_is (by decide +kernel), by decide +kernel, if_pos (by decide +kernel), by decide +kernel⟩,
   ⟨joining 6, joining 6, 0, entry opColl 0 0x60000 0xffffffff 0xffffffff 0xffffffff, ⟨.none, .none, .none, .none⟩,
     coll0, by decide +kernel,
      ok_is (by decide +kernel), by decide +kernel, if_pos (by decide +kernel), by decide +kernel⟩,
   ⟨joining 7, joining 7, 0, entry opColl 0 0x70000 0xffffffff 0xffffffff 0xffffffff, ⟨.none, .none, .none, .none⟩,
     coll0, by decide +kernel,
      ok_is (by decide +kernel), by decide +kernel, if_pos (by decide +kernel), by decide +kernel⟩,
   ⟨{ joining 1 with colls := [{ coll0 with failed := some 2 }] }, { joining 1 with colls := [{ coll0 with failed := some 2 }] }, 0,
     entry opColl 0 0x10000 0xffffffff 0xffffffff 0xffffffff, ⟨.none, .none, .none, .none⟩,
      { coll0 with failed := some 2 }, 2, by decide +kernel, ok_is (by decide +kernel), by decide +kernel,
        if_pos (by decide +kernel), by decide +kernel⟩⟩

theorem met_PowerAndClockFrames :
    (∀ c ∈ ([
    .crystalStable, .crystalFailTimeout, .mclkStop, .vinMainInRange, .pwrOkAsserted 0, .stackRailOutOfRange 0,
    .stackRailsInRange, .resetReleased, .pllALockTimeout 0 true, .pllLossOfLock 0, .clockMuxHang 0 true,
    .sparePllLockTimeout 0, .clockSwitchComplete 0, .powerSample 0 0 0, .throttleStepUp, .arrayThrottleStart 0,
    .arrayThrottleEnd, .thermalSample [], .hardwareThermalTrip 0, .lullDeadlineExpiry, .thermalFloorTimeout 0,
    .coolantLow, .coolantClear] : List Instr),
      ∃ t, exec c State.reset = .next t) :=
  all_next (by decide +kernel)

theorem met_SupervisorFrames :
    (∀ c ∈ ([
    .snapTrigEdge 0, .freezeHoldExpiry, .lateLatch 0, .freezeDumpComplete, .levelSatRefresh ⟨[], [], [], [], [], []⟩,
    .errorRateWindow, .ptpMessage 0 0 0 0 true, .ppsEdge, .ptpReferenceSilent, .mgmtAddressRenewal 0 0 0,
    .arpRequest 0 0, .icmpEcho 0 0 [], .blobAssemblyTimeout host, .dictAnswerLate, .auditMirrorCopy,
    .auditResendTimeout 0, .auditHoldTimeout 0, .samplePeriod 0, .getVersion host, .getCapabilities host,
    .negotiateAlgorithms host, .getDigests host, .challenge host, .heartbeat host, .keyUpdate host, .endSession host,
    .getCertificate host 0 0 0, .getMeasurements host 0, .keyExchange host 0, .finish host 0 0 0 true,
    .heartbeatMissed .host 0, .winCmdRead 0 0 0 0, .jp1Request 0 (.other 0)] : List Instr),
      ∃ t, exec c State.reset = .next t) :=
  all_next (by decide +kernel)

theorem met_LinkAndHostFrames :
    (∀ c ∈ ([
    .linkTrainingStart 0, .linkFarEndIdle 0, .linkUp 0 ⟨0, 0, false, 2⟩, .linkDetectRetry 0 true,
    .linkAbsentTimeout 0, .laneTestStart 0 0, .laneTestComplete 0 true true, .flitReceive 0 ⟨0, 0, none⟩ true 0,
    .linkAckTimeout 0, .linkStateMessage 0 [], .fabricPortTestComplete 0 0 true, .wordReplay .onDie true,
    .bridgeSegmentTestComplete 0 0 true, .couplerBistComplete 0 true, .squallClear, .peerLossTimeout 0,
    .hostLinkTraining 0 0 true, .hostLinkReset true, .hostMemRead 0, .hostMemWrite 0 [], .backInvalidateResponse 0,
    .notificationPost 0 0, .sqTailDoorbell 0 0 [], .cqHeadDoorbell 0 0] : List Instr),
      ∃ t, exec c State.reset = .next t) :=
  all_next (by decide +kernel)

theorem met_JobAndMemoryFrames :
    (∀ c ∈ ([
    .jobLoad [], .jobStart, .jobStartTimeout, .jobEnd, .teardownWipeComplete, .copyToDevice [], .copyFromDevice,
    .rosterRegister [] [] [], .rosterDeregister, .regionRegister [], .regionDeregister, .bayPreempt, .bayResume,
    .contextSaveComplete 0, .preemptDeferralExpiry 0, .channelParityReplay 0, .calibrationDrift 0,
    .channelRetrainComplete 0 true, .softRemapComplete 0, .patternTestComplete 0 .pass, .channelMapoutSwitch,
    .migrationComplete, .stackRead 0 true 0 ⟨false, .clean, false⟩ .clean, .stackWrite 0 [] ⟨true, .clean, false⟩,
    .llmFillComplete 0 .clean, .narrowRequest 0 0 none ⟨true, .clean, false⟩, .coalescingWaitExpiry 0 [],
    .scrubLine 0 ⟨0, 0, 0, 0, 0⟩ 0 .reserve .clean true,
    .llmMbistComplete 0 0 true, .sliceSweepComplete 0 0, .permanentRepairStart 0, .fusePulseComplete 0 true,
    .wrapperSelect 0 0, .journalRead 0, .remapRead 0 0, .remapWrite ⟨0, 0, 0, 0, 0⟩ 0, .channelTest 0 [],
    .draughtStatus, .hbm4DeviceIdentity, .hbm4TemperatureReadout, .hbm4ModeRegisterDump, .hbm4SoftPpr ⟨0, 0, 0, 0,
      0⟩] : List Instr),
      ∃ t, exec c State.reset = .next t) :=
  all_next (by decide +kernel)

theorem met_RecoveryFrames :
    (∀ c ∈ ([
    .snap 0, .snapCaptureComplete 0, .snapQuiesceComplete, .snapAgreementComplete true true true [],
    .taggedLineSweep 0, .stackPartComplete 0 none, .drainAck arrival 0 .committed, .drainDeadlineExpiry 0,
    .shardReceive 0 header 0 0 0 0 [], .takeoverUpdateMessage 0 header 0, .takeoverAcknowledgement arrival,
    .restoreComplete true none, .nodeDigestMessage arrival 0 0, .crosswindDigestMessage xwArrival 0 0,
    .crosswindStreamDigests xwArrival 0 [], .crosswindChunkExchange xwArrival [] true [] 0,
    .crosswindPairingMessage xwArrival none,
    .epoch 0, .deadlineMissed 0 0, .epochFenceMessage 0 header true, .jobBarrierComplete,
    .coreParityReplay 0 .registers true, .coreSelftestComplete 0 true, .supervisorMismatch true, .supervisorMismatch false] : List Instr),
      ∃ t, exec c State.reset = .next t) :=
  all_next (by decide +kernel)

theorem met_BayFrames :
    (∀ c ∈ ([
    .digest 0, .xfer 0, .gath 0, .scat 0, .rstore 0, .mcast 0, .raccRelaxed 0, .raccOrdered 0, .histClear 0,
    .histCopy 0, .histMerge 0, .histScan 0, .tableEnd 0, .model 0, .tailwindCopyComplete 0, .vopCopy 0, .vopAdd 0,
    .vopSub 0, .vopMul 0, .vopFma 0, .vopDiv 0, .vopSqrt 0, .vopMin 0, .vopMax 0, .vopAbs 0, .vopNeg 0, .vopScale 0,
    .vopSel 0, .vopShiftc 0, .vopRelu 0, .vopCmpeq 0, .vopCmplt 0, .vopCmple 0, .vopCmpne 0, .vopPand 0, .vopPor 0,
    .vopPxor 0, .vopPnot 0, .vopPset 0, .vopExp 0, .vopLog 0, .vopTanh 0, .vopSigm 0, .vopSilu 0, .vopGelu 0,
    .vredSum 0, .vredSumsq 0, .vredDot 0, .vredMax 0, .vredMin 0, .vredMaxabs 0, .vredArgmax 0, .vredCountnz 0,
    .mmaFull 0 .clean, .mmaPartial 0 .clean, .mmaCombine 0 .clean, .arrayBistComplete 0 0 true,
    .baySpareCopyComplete 0 0, .transEncode 0, .transDecode 0, .transRecode 0, .transConvert 0,
    .transPartComplete 0 0, .histCarry 0, .entryIssue 0, .entryStart 0 true, .entryComplete 0 true,
    .entryAbandon 0 true, .call 0 true, .br 0 true, .loop 0 true, .fence 0, .waitEvent 0, .waitFlag 0,
    .waitNodeBarrier 0, .waitToken 0, .waitConditionMet 0, .eventRegisterWrite 0 0] : List Instr),
      ∃ t, exec c State.reset = .next t) :=
  all_next (by decide +kernel)

theorem met_HartAndFabricFrames :
    (∀ c ∈ ([
    .vadd 0 true true 0 0 0 0, .vsub 0 true true 0 0 0 0, .vmul 0 true true 0 0 0 0, .vmulh 0 true true 0 0 0 0,
    .vfma 0 true true 0 0 0 0, .vmin 0 true true 0 0 0 0, .vmax 0 true true 0 0 0 0, .vdiv 0 true true 0 0 0 0,
    .vsqrt 0 true true 0 0 0 0, .vand 0 true true 0 0 0 0, .vor 0 true true 0 0 0 0, .vxor 0 true true 0 0 0 0,
    .vsll 0 true true 0 0 0 0, .vsrl 0 true true 0 0 0 0, .vsra 0 true true 0 0 0 0, .vcmpeq 0 true true 0 0 0 0,
    .vcmplt 0 true true 0 0 0 0, .vcmple 0 true true 0 0 0 0, .vsel 0 true true 0 0 0 0, .vwmul 0 true true 0 0 0 0,
    .vwmulhi 0 true true 0 0 0 0, .vdot 0 true true 0 0 0 0, .vrsum 0 true true 0 0 0 0, .vcvt 0 true true 0 0 0 0,
    .vsplat 0 0 true 0 0, .vext 0 0 0 0 0, .fOrDInstruction 0 0 true, .hartLoad 0 .lb true 0 0 0 .l1, .vld 0 0 0 0 .l1,
    .hartStore 0 .sb true 0 0 0 false, .vst 0 0 0 0 false, .storeBufferDrain 0, .hartAmo 0 .lr true true 0 0 0 .l1,
    .vgath 0 0 0 0 0 0 0 .l1, .vscat 0 0 0 0 0 0 0 false, .accessReturn 0, .hartFence 0 0 0, .sync 0 true true, .hartWfi 0,
    .interruptPending 0 .software, .threadTurnLimit 0, .sbiBaseCall 0, .sbiSetTimer 0, .sbiSendIpi 0,
    .sbiSystemReset 0, .svxrerrClear 0, .pktRead 0 header 0, .pktWrite 0 header [] true, .pktAmo 0 header none ⟨none, 0⟩,
    .pktRacc 0 header 0 0 true [] none, .pktReadResp 0 header [] true, .pktAck 0 header, .pktAmoResp 0 header 0 true,
    .pktNack 0 header true ⟨0, none⟩, .raccCloseMessage 0 header 0, .raccRoundEnd, .remoteTimeout 0, .mailDoorbell 0 0,
    .mailComplete 0, .pktMail (.position 0) header 0 0 0 .plain [] 0, .mailTransitTimeout,
    .pktMailAck header 0 0 true 0, .mailRetransmitTimeout 0, .collAllreduce 0, .collReduce 0, .collReduceScatter 0,
    .collBroadcast 0, .collAllgather 0, .collAllgatherv 0, .collBarrier 0, .collNodeLocalStage 0 true,
    .collChunkReceive (.position 0) header ⟨0, 0, 0, 0⟩ 0 ⟨1, 0, 0, 0, 0, 0⟩ (.ack 0) true,
    .collRetentionAck (.position 0) header ⟨0, 0, 0, 0⟩ 0 0 true, .collCommit (.position 0) header ⟨0, 0, 0, 0⟩ 0 0 0 [] true,
    .collAbort (.position 0) header ⟨0, 0, 0, 0⟩ 0 true true, .digestMismatchReport (.position 0) header ⟨0, 0, 0, 0⟩ 0 true true,
    .chunkRefetchRequest (.position 0) header ⟨0, 0, 0, 0⟩ 0 0, .collAbandon 0 true] : List Instr),
      ∃ t, exec c State.reset = .next t) :=
  all_next (by decide +kernel)

theorem met_EmptyQueueTicks :
    ∃ s : State, s.pending = [] :=
  ⟨State.reset, rfl⟩

theorem met_StepKeepsWellFormed :
    ∃ s t : State, s.wf = true ∧ step s = .next t :=
  ⟨State.reset, _, by decide +kernel, rfl⟩

theorem met_CommandsLeaveTheQueue :
    ∃ (c : Instr) (s t : State), exec c s = .next t :=
  ⟨.crystalStable, ready, next_of (by decide +kernel)⟩

theorem met_StoresReachTheirBytes :
    (∃ (s t : State) (a : BitVec 41) (data : List Byte) (c : Nat), exec (.hostMemWrite a data) s = .next t ∧
      ¬ (a.toNat ≤ c ∧ c < a.toNat + data.length)) ∧
    (∃ (s t : State) (a : BitVec 42) (data : List Byte) (x : SliceAccess) (c : Nat),
      exec (.stackWrite a data x) s = .next t ∧
      ((x.word = .clean ∧ x.persistent = false) ∨ (s.reg .traceRing = 0 ∧ s.reg .jobRunning ≠ 1)) ∧ ¬ (a.toNat ≤ c ∧ c < a.toNat + data.length)) ∧
    (∃ (s t : State) (core : Fin 192) (e : HartStore) (c : Nat),
      s.stores.find? (fun e => decide (e.core = core.val)) = some e ∧ e.io = false ∧
        exec (.storeBufferDrain core) s = .next t ∧
        ¬ (e.addr ≤ c ∧ c < e.addr + e.bytes.length)) ∧
    (∃ (f : Flight) (e : Effect) (c : Nat), (f.spec = false ∨ e.result ≠ 0) ∧
      (∀ w ∈ e.writes, ¬ (w.1 ≤ c ∧ c < w.1 + w.2.length)) ∧ (∀ m ∈ e.merges, ¬ (m.1 ≤ c ∧ c < m.1 + 640))) :=
  ⟨⟨ready, _, 0x200000000, [1], 0x200000001, rfl, by decide +kernel⟩, ⟨ready, _, 64, [1], ⟨true, .clean, false⟩, 65,
    rfl, by decide +kernel, by decide +kernel⟩,
    ⟨{ hart0 with stores := [⟨0, 0, 0x200001000, false, [1]⟩] }, _, 0, ⟨0, 0, 0x200001000, false, [1]⟩, 0x200001001,
      by decide +kernel, rfl, rfl, by decide +kernel⟩,
    ⟨entry opXfer, { writes := [(8, [1])] }, 9, by decide +kernel⟩⟩

theorem met_RangesSpreadOverChannels :
    (∃ n m ch : Nat, ch < 1024 ∧ n + m ≤ 2 ^ 24) ∧ (∃ i u v : Nat, u < 1024 ∧ v < 1024 ∧
      primaryChannel (131072 * i + 128 * u) = primaryChannel (131072 * i + 128 * v)) :=
  ⟨⟨0, 2 ^ 24, 1023, by decide⟩, ⟨5, 1023, 1023, by decide +kernel⟩⟩

theorem met_BlockScaleCodes :
    (∃ s : Nat, s < 0xFF) ∧ (∃ (c : Machine.Num) (xs : List Machine.Num), xs.any Machine.Num.isNan = false ∧ xs.any Machine.Num.isInf = false ∧
      ∀ x ∈ xs, ((x.div c).1).exponent = none) :=
  ⟨⟨0xFE, by decide⟩, ⟨.one, [.fin false 0 0], by decide +kernel⟩⟩

theorem met_ClockSelectionChecks :
    (∃ (s : State) (q : Requester), 3 ≤ (s.levelOf q).1 ∧ s.started .clkSel = true ∧ s.jobLoaded = true) ∧
    (∃ (s : State) (q : Requester), 3 ≤ (s.levelOf q).1 ∧ s.started .clkSel = true ∧ s.jobLoaded = false ∧
      s.reg .nodeState ≠ 3 ∧ s.reg .nodeState ≠ 6 ∧ s.reg .nodeState ≠ 8) ∧
    (∃ (s : State) (q : Requester) (k : Fin 48) (v : Byte), 3 ≤ (s.levelOf q).1 ∧ s.started .clkSel = true ∧
      s.jobLoaded = false ∧ (s.reg .nodeState = 3 ∨ s.reg .nodeState = 6 ∨ s.reg .nodeState = 8) ∧
        s.reg .clkSwitching k.val = 0 ∧ v.toNat ≤ 3 ∧ s.reg .clkCompat k.val = 0) ∧
    (∃ (s : State) (q : Requester) (k : Fin 48) (v : Byte), 3 ≤ (s.levelOf q).1 ∧ s.started .clkSel = true ∧
      s.jobLoaded = false ∧ (s.reg .nodeState = 3 ∨ s.reg .nodeState = 6 ∨ s.reg .nodeState = 8) ∧
        s.reg .clkSwitching k.val = 0 ∧ s.reg .clkCompat k.val = 1 ∧ bit (s.reg .clkReady k.val) v.toNat = false) :=
  ⟨⟨served job, engineer, by simp [engineer_level], by decide +kernel⟩,
    ⟨served (put [(.nodeState, 0, 4), (.jobActive, 0, 0)] job), engineer, by simp [engineer_level], by decide +kernel⟩,
    ⟨served ready, engineer, 47, 3, by simp [engineer_level], by decide +kernel⟩,
    ⟨served (put [(.clkCompat, 47, 1), (.clkReady, 47, 0)] ready), engineer, 47, 3, by simp [engineer_level],
      by decide +kernel⟩⟩

theorem met_ObjectsBeforeTheirSubsystem :
    (∃ (s : State) (r : Reg) (inst : Nat), s.supervisorServes = true ∧ s.started r = false ∧
      (∀ u : State, u.valueOf r inst = u.regBytes r inst) ∧ r ≠ .errorLog ∧ r ≠ .auditLog ∧ r ≠ .auditMirror) ∧
    (∃ (s : State) (q : Requester) (r : Reg) (l : Nat), r.info.access.writeLevel = some l ∧ l ≤ (s.levelOf q).1 ∧
      s.started r = false) ∧
    (∃ (s : State) (q : Requester) (r : Reg) (l : Nat), r.info.access.writeLevel = some l ∧ l ≤ (s.levelOf q).1 ∧
      s.started r = true ∧ s.gated r = false ∧ r.info.addr / 256 < 0xA000 ∧ r.info.jobScoped = true ∧
        s.jobLoaded = true) ∧
    (∃ (s : State) (q : Requester) (r : Reg) (inst : Nat) (bs : List Byte) (x : Reg),
      s.writeChecks q r inst bs ≠ resOk ∧
      x ∉ errorRegs ++ [.auditRefused]) :=
  ⟨⟨put [(.stageStarted, 0, 1)] ready, .linkCmd, 0, by decide +kernel, by decide +kernel, fun _ => rfl, by decide,
    by decide, by decide⟩,
    ⟨put [(.stageStarted, 0, 1)] ready, host, .linkGenMax, 2, rfl, by decide +kernel⟩,
    ⟨job, host, .hartCount, 1, rfl, by decide +kernel⟩, ⟨job, host, .nodeState, 0, [0], .tstep, by decide +kernel⟩⟩

theorem met_RequestsAreCheckedInOrder :
    (∃ (s : State) (p : Packet), p.h.dst.val = s.lnode ∧ s.epochOk p.h = false) ∧
    (∃ (s : State) (q : Nat) (p : Packet), p.h.dst.val = s.lnode ∧ s.epochOk p.h = true ∧ s.sourceOk q p.h = false) ∧
    (∃ (s : State) (p : Packet), forStore p.h = false ∧ s.region p.h.key.toNat = none) ∧
    (∃ (s : State) (p : Packet) (r : Region), forStore p.h = false ∧ s.region p.h.key.toNat = some r ∧
      r.size < p.h.offset.toNat + bodySpan p.body) ∧
    (∃ (s : State) (p : Packet) (r : Region), forStore p.h = false ∧ s.region p.h.key.toNat = some r ∧
      p.h.offset.toNat + bodySpan p.body ≤ r.size ∧ bit r.perm (bodyNeeds p.body) = false) ∧
    (∃ s : State, s.reg .traceRing = 0) :=
  ⟨⟨put [(.jobEpoch, 0, 8)] job, ⟨header, .read 8⟩, by decide +kernel⟩, ⟨job, 2, ⟨header, .read 8⟩, by decide +kernel⟩,
    ⟨job, ⟨header 5, .read 8⟩, by decide +kernel⟩,
    ⟨{ job with regions := [⟨5, 0x200001000, 128, 7⟩] }, ⟨header 5, .read 129⟩, ⟨5, 0x200001000, 128, 7⟩,
      by decide +kernel⟩,
    ⟨{ job with regions := [⟨5, 0x200001000, 128, 2⟩] }, ⟨header 5, .read 128⟩, ⟨5, 0x200001000, 128, 2⟩,
      by decide +kernel⟩,
    ⟨ready, by decide +kernel⟩⟩

theorem met_PacketsApplyInSequence :
    (∃ (s : State) (q : Nat) (p : Packet) (d : Nat),
      p.h.dst.val = s.lnode ∧ s.epochOk p.h = true ∧ s.sourceOk q p.h = true ∧
      s.faultedRefuses p = false ∧
        d = (p.h.seq.toNat + 65536 - Store.at 0 s.seqIn (p.h.src.val * 8 + p.h.tclass.val)) % 65536 ∧
        32768 ≤ d ∧ s.answerFor p.h = none) ∧
    (∃ (s : State) (q : Nat) (p : Packet) (d : Nat),
      p.h.dst.val = s.lnode ∧ s.epochOk p.h = true ∧ s.sourceOk q p.h = true ∧
      s.faultedRefuses p = false ∧
        d = (p.h.seq.toNat + 65536 - Store.at 0 s.seqIn (p.h.src.val * 8 + p.h.tclass.val)) % 65536 ∧
        32768 ≤ d ∧ (s.answerFor p.h).isSome = true) ∧
    (∃ (s : State) (q : Nat) (p : Packet) (d : Nat),
      p.h.dst.val = s.lnode ∧ s.epochOk p.h = true ∧ s.sourceOk q p.h = true ∧
      s.faultedRefuses p = false ∧
        d = (p.h.seq.toNat + 65536 - Store.at 0 s.seqIn (p.h.src.val * 8 + p.h.tclass.val)) % 65536 ∧
        0 < d ∧ d < 32768 ∧ ∀ e ∈ s.early, e.2.h ≠ p.h) ∧
    (∃ (s : State) (q : Nat) (p : Packet) (d : Nat),
      p.h.dst.val = s.lnode ∧ s.epochOk p.h = true ∧ s.sourceOk q p.h = true ∧
      s.faultedRefuses p = false ∧
        d = (p.h.seq.toNat + 65536 - Store.at 0 s.seqIn (p.h.src.val * 8 + p.h.tclass.val)) % 65536 ∧
        0 < d ∧ d < 32768 ∧ ∃ e ∈ s.early, e.2.h = p.h) :=
  ⟨⟨{ job with seqIn := [(9, 1)] }, 1, ⟨header, .read 8⟩, 65535, by decide +kernel⟩,
    ⟨{ job with seqIn := [(9, 1)], answered := [⟨{ header with dst := 1, src := 0 }, .ack⟩] }, 1, ⟨header, .read 8⟩, 65535,
      by decide +kernel⟩,
    ⟨{ job with seqIn := [(9, 65535)] }, 1, ⟨header, .read 8⟩, 1, by decide +kernel⟩,
    ⟨{ job with seqIn := [(9, 65535)], early := [(1, ⟨header, .read 8⟩)] }, 1, ⟨header, .read 8⟩, 1, by decide +kernel⟩⟩

theorem met_PredicateZeroIsAllOnes :
    (∃ (e : Effect) (v : Nat), e.pred = some (0, v)) ∧
    (∃ (x : Bay) (e : Effect) (v p k : Nat), e.pred = some (p, v) ∧ p < x.preds.length ∧ 0 < p ∧ k ≠ p) :=
  ⟨⟨{ pred := some (0, 5) }, 5, rfl⟩, ⟨Bay.idle, { pred := some (7, 5) }, 5, 7, 0, by decide +kernel⟩⟩

theorem met_IntegerLanesWrap :
    ∃ (w : Bool) (et : Fin 8) (i : Nat), laneInteger et.val = true ∧ i < laneCount (formBits w) et.val :=
  ⟨true, 0, 15, by decide +kernel⟩

theorem met_ResetFrames :
    (∀ c ∈ ([.coldReset 0, .warmReset 0, .resetAfterFusePulse, .pwrOkDeasserted true, .vinAonLost, .timeStepBoundary,
      .teardownComplete, .repairRow ⟨0, 0, 0, 0, 0⟩, .hbm4LaneRepair ⟨0, 0, 0, 0, 0⟩, .hbm4HardPpr ⟨0, 0, 0, 0, 0⟩,
      .jp2Read host 0 0 0 0, .subOpenSample host 0 [] 0, .subOpenAudit host 0 0 true, .subAck host 0 0,
        .subClose host 0 0,
      .jp2Spdm host 0 .getVersion] : List Instr), ∃ t, exec c service = .next t) ∧
    (Reg.info .jp1Enable).domain = .always :=
  ⟨all_next (by decide +kernel), rfl⟩

theorem met_AcceptedWriteFrames :
    (∃ (s t : State) (q : Requester) (k : Fin 48) (v : Byte),
      Accepts s q .clkSel k.val [v] ∧ exec (.clkSelWrite q k v) s = .next t) ∧
    (∃ (s t : State) (q : Requester) (k : Fin 48) (v : Byte),
      Accepts s q .clkSel k.val [v] ∧ exec (.readyFlagSwitch q k v) s = .next t) ∧
    (∃ (s t : State) (q : Requester), Accepts s q .stateRequest 0 [5] ∧ exec (.stateRequestLull q) s = .next t) ∧
    (∃ (s t : State) (q : Requester), Accepts s q .stateRequest 0 [4] ∧ exec (.stateRequestResume q) s = .next t) ∧
    (∃ (s t : State) (q : Requester), Accepts s q .serviceRequest 0 [1] ∧ exec (.serviceRequestEnter q) s = .next t) ∧
    (∃ (s t : State) (q : Requester) (v : Word),
      Accepts s q .location 0 (leBytes 4 v.toNat) ∧ exec (.locationWrite q v) s = .next t) ∧
    (∃ (s t : State) (q : Requester), Accepts s q .freezeCmd 0 [1] ∧ exec (.freezeCmdTrigger q) s = .next t) ∧
    (∃ (s t : State) (q : Requester), Accepts s q .freezeCmd 0 [2] ∧ exec (.freezeCmdRearm q) s = .next t) ∧
    (∃ (s t : State) (q : Requester), Accepts s q .freezeCmd 0 [3] ∧ exec (.freezeCmdDisarm q) s = .next t) ∧
    (∃ (s t : State) (q : Requester) (v : Byte), Accepts s q .latClear 0 [v] ∧ exec (.latClearWrite q v) s = .next t) ∧
    (∃ (s t : State) (q : Requester) (v : Dword),
      Accepts s q .taiSet 0 (leBytes 8 v.toNat) ∧ exec (.taiSetWrite q v) s = .next t) ∧
    (∃ (s t : State) (q : Requester) (v : Dword),
      Accepts s q .auditAckHost 0 (leBytes 8 v.toNat) ∧ exec (.auditAckHostWrite q v) s = .next t) ∧
    (∃ (s t : State) (q : Requester) (v : Byte),
      Accepts s q .auditHostHold 0 [v] ∧ exec (.auditHostHoldWrite q v) s = .next t) ∧
    (∃ (s t : State) (q : Requester) (l : Fin 24),
      Accepts s q .linkCmd l.val [1] ∧ exec (.linkCmdRetrain q l) s = .next t) ∧
    (∃ (s t : State) (q : Requester) (l : Fin 24),
      Accepts s q .linkCmd l.val [2] ∧ exec (.linkCmdDisable q l) s = .next t) ∧
    (∃ (s t : State) (q : Requester) (l : Fin 24),
      Accepts s q .linkCmd l.val [3] ∧ exec (.linkCmdEnable q l) s = .next t) ∧
    (∃ (s t : State) (q : Requester) (v : Dword),
      Accepts s q .errorAck 0 (leBytes 8 v.toNat) ∧ exec (.errorAckWrite q v) s = .next t) ∧
    (∃ (s t : State) (q : Requester) (v : Word),
      Accepts s q .alertCause 0 (leBytes 4 v.toNat) ∧ exec (.alertCauseWrite q v) s = .next t) ∧
    (∃ (s t : State) (q : Requester) (k : Fin 64) (v : Byte),
      Accepts s q .sqEnable k.val [v] ∧ exec (.sqEnableWrite q k v) s = .next t) ∧
    (∃ (s t : State) (q : Requester) (v : Dword),
      Accepts s q .allocTop 0 (leBytes 8 v.toNat) ∧ exec (.allocTopWrite q v) s = .next t) ∧
    (∃ (s t : State) (q : Requester) (v : Byte),
      Accepts s q .mapoutForce 0 [v] ∧ exec (.mapoutForceWrite q v) s = .next t) ∧
    (∃ (s t : State) (q : Requester) (o : ModeObject) (n : Fin 16) (v : Byte),
      Accepts s q (modeReg o) n.val [v] ∧ exec (.modeSetWrite q o n v) s = .next t) ∧
    (∃ (s t : State) (q : Requester) (epoch : Half) (tstep : Dword) (peers : Option Half),
      Accepts s q .recoveryCmd 0 (recoveryBytes 1 0xFF epoch.toNat tstep.toNat) ∧
        exec (.recoveryRollback q epoch tstep peers) s = .next t) ∧
    (∃ (s t : State) (q : Requester) (pos : Byte) (epoch : Half) (tstep : Dword) (peers : Option Half),
      Accepts s q .recoveryCmd 0 (recoveryBytes 2 pos.toNat epoch.toNat tstep.toNat) ∧
        exec (.recoveryTakeover q pos epoch tstep peers) s = .next t) ∧
    (∃ (s t : State) (q : Requester) (epoch : Half) (tstep : Dword) (peers : Option Half),
      Accepts s q .recoveryCmd 0 (recoveryBytes 3 0xFF epoch.toNat tstep.toNat) ∧
        exec (.recoveryRejoin q epoch tstep peers) s = .next t) :=
  ⟨⟨served ready, _, engineer, 0, 0, engineer_accepts (l := 3) rfl (by decide) (by decide +kernel), rfl⟩,
   ⟨served ready, _, engineer, 0, 0, engineer_accepts (l := 3) rfl (by decide) (by decide +kernel), rfl⟩,
   ⟨job, _, host, by unfold Accepts; decide +kernel, rfl⟩,
   ⟨put [(.nodeState, 0, 5)] job, _, host, by unfold Accepts; decide +kernel, rfl⟩,
   ⟨served ready, _, engineer, engineer_accepts (l := 3) rfl (by decide) (by decide +kernel), rfl⟩,
   ⟨put [(.nodeState, 0, 2), (.initStage, 0, 5)] ready, _, host, 0x80000020, by unfold Accepts; decide +kernel, rfl⟩,
   ⟨put [(.freezeState, 0, 1), (.freezeSrcEn, 0, 31)] ready, _, host, by unfold Accepts; decide +kernel, rfl⟩,
   ⟨ready, _, host, by unfold Accepts; decide +kernel, rfl⟩,
   ⟨ready, _, host, by unfold Accepts; decide +kernel, rfl⟩,
   ⟨ready, _, host, 0, by unfold Accepts; decide +kernel, rfl⟩,
   ⟨ready, _, host, 0, by unfold Accepts; decide +kernel, rfl⟩,
   ⟨ready, _, host, 0, by unfold Accepts; decide +kernel, rfl⟩,
   ⟨ready, _, host, 0, by unfold Accepts; decide +kernel, rfl⟩,
   ⟨ready, _, host, 0, by unfold Accepts; decide +kernel, rfl⟩,
   ⟨ready, _, host, 0, by unfold Accepts; decide +kernel, rfl⟩,
   ⟨ready, _, host, 0, by unfold Accepts; decide +kernel, rfl⟩,
   ⟨ready, _, host, 0, by unfold Accepts; decide +kernel, rfl⟩,
   ⟨ready, _, host, 0, by unfold Accepts; decide +kernel, rfl⟩,
   ⟨ready, _, host, 0, 0, by unfold Accepts; decide +kernel, rfl⟩,
   ⟨ready, _, host, 0x10000000000, by unfold Accepts; decide +kernel, rfl⟩,
   ⟨ready, _, host, 0, by unfold Accepts; decide +kernel, rfl⟩,
   ⟨ready, _, host, .subn, 0, 0, by unfold Accepts; decide +kernel, rfl⟩,
   ⟨{ job with jobEpochs := [7] }, _, host, 8, 0, some 7, by unfold Accepts; decide +kernel, rfl⟩,
   ⟨put [(.groupMap, 0, 0x300000)] job, _, host, 1, 8, 0, some 7, by unfold Accepts; decide +kernel, rfl⟩,
   ⟨job, _, host, 8, 0, some 8, by unfold Accepts; decide +kernel, rfl⟩⟩

end Sys2Proof.Tests
end

section
/-! The invariant of the package along a step: `State.wf` is the invariant `Kept`, which every command keeps, without what
`Kept` says of the queue; and a step is a command or a tick. -/

namespace Sys2Proof.Machine

/-- `Kept` is well-formedness with the queue named: the two conjuncts of `Registers.wf` are its fields `regs` and `width`. -/
theorem kept_iff {p : List Instr} {s : State} : Kept p s ↔ s.pending = p ∧ s.wf = true := by
  have hwf : s.wf = true ↔ Memory.wf s.mem = true ∧ Store.wf regLt regDflt s.regs = true ∧
      ∀ e ∈ s.regs, e.2 < e.1.1.modulus := by
    simp [State.wf, Registers.wf]
  constructor
  · rintro ⟨hqueue, hregs, hwidth, hmem⟩
    exact ⟨hqueue, hwf.2 ⟨hmem, hregs, hwidth⟩⟩
  · rintro ⟨hqueue, h⟩
    obtain ⟨hmem, hregs, hwidth⟩ := hwf.1 h
    exact ⟨hqueue, hregs, hwidth, hmem⟩

/-- Well-formedness does not speak of the queue. -/
@[simp] theorem State.wf_withPending (s : State) (q : List Instr) : { s with pending := q }.wf = s.wf := rfl

theorem exec_preserves_wf {c : Instr} {s t : State} (hs : s.wf = true) (h : exec c s = .next t) : t.wf = true :=
  (kept_iff.1 (kept_exec (kept_iff.2 ⟨rfl, hs⟩) h)).2

theorem tick_preserves_wf {s : State} (hs : s.wf = true) : (tick s).wf = true :=
  (kept_iff.1 (keeps_tick (closed_kept fun _ => false) s ⟨kept_iff.2 ⟨rfl, hs⟩⟩).out).2

/-- Where the next state of a step comes from. -/
theorem step_cases {s t : State} (h : step s = .next t) :
    (s.pending = [] ∧ t = tick s) ∨ ∃ c q, s.pending = c :: q ∧ exec c { s with pending := q } = .next t := by
  unfold step at h
  split at h
  case h_1 hq => exact .inl ⟨hq, (Host.Outcome.next.inj h).symm⟩
  case h_2 c q hq => exact .inr ⟨c, q, hq, h⟩

/-- Settles O46: a step is a tick, which changes neither store, or the front command, which keeps every property that the
primitive writes of the two stores keep. -/
theorem stepKeepsWellFormed : Obligations.StepKeepsWellFormed := by
  intro s t hs h
  obtain ⟨-, rfl⟩ | ⟨c, q, -, hexec⟩ := step_cases h
  · exact tick_preserves_wf hs
  · exact exec_preserves_wf ((State.wf_withPending s q).trans hs) hexec

end Sys2Proof.Machine
end

section
/-! The block-scaled formats (R63, R70): what scale a block has, and what its elements are worth. -/

namespace Sys2Proof.Machine

theorem blockValue_of_scale {s : Nat} (h : s < 0xFF) (e : Elem) (c : Num) (code : Nat) :
    blockValue e s c code = (((e.decode code).scale ((s : Int) - 127)).mul c).1 :=
  if_neg (Nat.ne_of_lt h)

theorem blockValue_nan (e : Elem) (c : Num) (code : Nat) : blockValue e 0xFF c code = .nan := if_pos rfl

theorem encodeBlock_of_nan (f : Elem) (c : Num) (flush : Bool) {xs : List Num} (h : xs.any Num.isNan = true) :
    (encodeBlock f c flush xs).scale = 0xFF := by
  simp only [encodeBlock, if_pos h]

/-- A block without a NaN is one of zeros, or has the code of an exponent that is clamped to -127 to 127 (R70). -/
theorem encodeBlock_scale_cases (f : Elem) (c : Num) (flush : Bool) {xs : List Num} (h : xs.any Num.isNan = false) :
    (encodeBlock f c flush xs).scale = 0 ∨
      ∃ e : Int, -127 ≤ e ∧ e ≤ 127 ∧ (encodeBlock f c flush xs).scale = (e + 127).toNat := by
  unfold encodeBlock
  rw [if_neg (by simp [h])]
  dsimp only
  split
  · exact .inl rfl
  · refine .inr ⟨_, ?_, ?_, rfl⟩ <;> split <;> omega

theorem encodeBlock_scale_lt (f : Elem) (c : Num) (flush : Bool) {xs : List Num} (h : xs.any Num.isNan = false) :
    (encodeBlock f c flush xs).scale < 0xFF := by
  obtain hs | ⟨e, hlo, hhi, hs⟩ := encodeBlock_scale_cases f c flush h <;> omega

/-- Numbers without an exponent leave the largest exponent as it was. -/
theorem foldl_maxExp_none {xs : List Num} (h : ∀ x ∈ xs, x.exponent = none) (a : Option Int) :
    xs.foldl (fun a q => maxExp a q.exponent) a = a := by
  induction xs generalizing a with
  | nil => rfl
  | cons x xs ih =>
    obtain ⟨hx, hxs⟩ := List.forall_mem_cons.1 h
    have hmax : maxExp a x.exponent = a := by rw [hx]; cases a <;> rfl
    rw [List.foldl_cons, hmax, ih hxs]

theorem encodeBlock_of_zeros (f : Elem) (c : Num) (flush : Bool) {xs : List Num} (hnan : xs.any Num.isNan = false)
    (hinf : xs.any Num.isInf = false) (hz : ∀ x ∈ xs, ((x.div c).1).exponent = none) :
    (encodeBlock f c flush xs).scale = 0 := by
  have htop : (xs.map fun x => (x.div c).1).foldl (fun a q => maxExp a q.exponent) none = none :=
    foldl_maxExp_none (by simpa using hz) none
  unfold encodeBlock
  rw [if_neg (by simp [hnan])]
  dsimp only
  rw [if_pos ⟨htop, by simp [hinf]⟩]

/-- Settles O52: by the branches of `blockValue` and `encodeBlock`; only the NaN branch can give 0xFF, as the exponent of the
others is at most 127. -/
theorem blockScaleCodes : Obligations.BlockScaleCodes := by
  refine ⟨fun e c s code h => blockValue_of_scale h e c code, blockValue_nan, fun f c flush xs => ?_,
    fun f c flush xs hnan hinf hz => encodeBlock_of_zeros f c flush hnan hinf hz⟩
  cases h : xs.any Num.isNan with
  | true => simp [encodeBlock_of_nan f c flush h]
  | false =>
    have hlt := encodeBlock_scale_lt f c flush h
    exact ⟨Nat.le_of_lt hlt, fun he => absurd he (Nat.ne_of_lt hlt), nofun⟩

end Sys2Proof.Machine
end

section
/-! The instructions of the short-vector extension complete (R263 to R273). -/

namespace Sys2Proof.Machine

/-! Which encodings of the arithmetic functions are legal (R268). -/

/-- Functions of every type that are not unsigned. -/
theorem svxLegal_anyType {fn : Nat} (h : fn ∈ [0x00, 0x01, 0x02, 0x04, 0x09, 0x0A, 0x0B, 0x0F, 0x12, 0x17]) (u : Bool)
    (vs2 et : Nat) : svxLegal fn u vs2 et = !u := by
  simp only [List.mem_cons, List.not_mem_nil, or_false] at h
  obtain rfl | rfl | rfl | rfl | rfl | rfl | rfl | rfl | rfl | rfl := h <;> cases u <;> rfl

/-- Functions of every type that are unsigned for the integer types alone. -/
theorem svxLegal_unsignedInteger {fn : Nat} (h : fn ∈ [0x05, 0x06, 0x10, 0x11]) (u : Bool) (vs2 et : Nat) :
    svxLegal fn u vs2 et = (!u || laneInteger et) := by
  simp only [List.mem_cons, List.not_mem_nil, or_false] at h
  obtain rfl | rfl | rfl | rfl := h <;> cases u <;> simp [svxLegal]

/-- The shifts. -/
theorem svxLegal_shift {fn : Nat} (h : fn ∈ [0x0C, 0x0D, 0x0E]) (u : Bool) (vs2 et : Nat) :
    svxLegal fn u vs2 et = (!u && laneInteger et) := by
  simp only [List.mem_cons, List.not_mem_nil, or_false] at h
  obtain rfl | rfl | rfl := h <;> cases u <;> simp [svxLegal]

/-- The widening products. -/
theorem svxLegal_widen {fn : Nat} (h : fn ∈ [0x14, 0x15]) (u : Bool) (vs2 et : Nat) :
    svxLegal fn u vs2 et = (widens et && (!u || laneInteger et)) := by
  simp only [List.mem_cons, List.not_mem_nil, or_false] at h
  obtain rfl | rfl := h <;> cases u <;> simp [svxLegal]

theorem svxLegal_vmulh (u : Bool) (vs2 et : Nat) : svxLegal 0x03 u vs2 et = laneInteger et := by
  cases u <;> simp [svxLegal]

theorem svxLegal_vdiv (u : Bool) (vs2 et : Nat) : svxLegal 0x07 u vs2 et = (!u && laneFp et) := by
  cases u <;> simp [svxLegal]

theorem svxLegal_vsqrt (u : Bool) (vs2 : Fin 32) (et : Nat) :
    svxLegal 0x08 u vs2.val et = (!u && laneFp et && decide (vs2 = 0)) := by
  cases u <;> simp [svxLegal]

theorem svxLegal_vcvt {u : Bool} {vs2 et : Nat} (hv : vs2 < 8) (hu : u = true → laneInteger et = true) :
    svxLegal 0x13 u vs2 et = true := by
  cases u <;> simp_all [svxLegal]

theorem svxLegal_vdot (u : Bool) (vs2 : Nat) (et : Fin 8) :
    svxLegal 0x16 u vs2 et.val = (widens et.val && decide (et ≠ 2) && (!u || laneInteger et.val)) := by
  cases u <;> simp [svxLegal, Fin.ext_iff]

/-! The shared shape of the arithmetic instructions. -/

/-- A legal arithmetic instruction writes its destination. -/
theorem svxArith_of_legal {s : State} {h fn : Nat} {u : Bool} {vs2 et : Nat} (w : Bool) (vs1 vd : Nat)
    (f : Nat → Nat → Nat → Nat × Nat) (hi : s.issues h = true) (hl : svxLegal fn u vs2 et = true) (hfs : (s.hart h).fs ≠ 0) :
    s.svxArith h fn w u vs2 vs1 et vd f =
      .next (s.svxWrite h w vd (f ((s.hart h).vreg vs1) ((s.hart h).vreg vs2) ((s.hart h).vreg vd))) := by
  simp [State.svxArith, hi, hl, hfs]

theorem svxArith_next (s : State) (h fn : Nat) (w u : Bool) (vs2 vs1 et vd : Nat) (f : Nat → Nat → Nat → Nat × Nat) :
    ∃ t, s.svxArith h fn w u vs2 vs1 et vd f = .next t := by
  unfold State.svxArith
  dsimp only
  split
  · exact ⟨_, rfl⟩
  · split <;> exact ⟨_, rfl⟩

/-- `svx_ok` for a legality that is written out. -/
theorem svxCompletes_of_legal {c : Fin 3072 → Bool → Bool → Fin 32 → Fin 32 → Fin 8 → Fin 32 → Instr}
    {legal : Bool → Fin 32 → Fin 8 → Bool} {f : Bool → Bool → Fin 32 → Fin 8 → Nat → Nat → Nat → Nat × Nat} (fn : Nat)
    (hl : ∀ (u : Bool) (vs2 : Fin 32) (et : Fin 8), svxLegal fn u vs2.val et.val = legal u vs2 et)
    (hc : ∀ s h w u vs2 vs1 et vd, exec (c h w u vs2 vs1 et vd) s =
      s.svxArith h.val fn w u vs2.val vs1.val et.val vd.val (f w u vs2 et)) :
    SvxCompletes c legal f := by
  have hl' : (fun u (vs2 : Fin 32) (et : Fin 8) => svxLegal fn u vs2.val et.val) = legal := by
    funext u vs2 et; exact hl u vs2 et
  exact hl' ▸ svx_ok fn hc

/-! VCVT, VSPLAT and VEXT. -/

/-- The result of a legal VCVT, whose lanes that no rule states take free values. -/
def vcvtResult (s : State) (h : Nat) (w u : Bool) (src vs1 et : Nat) : Nat × Nat :=
  ofLanes (laneBits et) (((convertLanes (formBits w) u (src % 8) et ((s.hart h).vreg vs1)).zipIdx).map fun r =>
    r.1.getD ((Config.freeLane (s.free + r.2)).toNat % 2 ^ laneBits et, 0))

theorem execVcvt_of_legal {s : State} {h : Fin 3072} {u : Bool} {vs2 : Fin 32} {et : Fin 8} (w : Bool) (vs1 vd : Fin 32)
    (hi : s.issues h.val = true) (hfs : (s.hart h.val).fs ≠ 0) (hv : vs2.val < 8)
    (hu : u = true → laneInteger et.val = true) :
    execVcvt h w u vs2 vs1 et vd s =
      .next { s.svxWrite h.val w vd.val (vcvtResult s h.val w u vs2.val vs1.val et.val) with free := s.free + 16 } := by
  unfold execVcvt
  dsimp only
  rw [if_neg (by simp [hi]), svxArith_of_legal w vs1.val vd.val _ hi (svxLegal_vcvt hv hu) hfs]
  rfl

theorem execVcvt_next (h : Fin 3072) (w u : Bool) (vs2 vs1 : Fin 32) (et : Fin 8) (vd : Fin 32) (s : State) :
    ∃ t, execVcvt h w u vs2 vs1 et vd s = .next t := by
  unfold execVcvt
  dsimp only
  split <;> exact ⟨_, rfl⟩

/-- The lanes of a form fill at most its bits, so a value of so many lanes is not cut. -/
theorem packLanes_mod_formBits (w : Bool) (et : Nat) {ls : List Nat} (h : ls.length ≤ laneCount (formBits w) et) :
    packLanes (laneBits et) ls % 2 ^ formBits w = packLanes (laneBits et) ls := by
  refine Nat.mod_eq_of_lt (Nat.lt_of_lt_of_le (packLanes_lt _ _) (Nat.pow_le_pow_right (by decide) ?_))
  exact Nat.le_trans (Nat.mul_le_mul_right _ h) (Nat.div_mul_le_self _ _)

theorem lane_splat (w : Bool) (et x : Nat) {i : Nat} (hi : i < laneCount (formBits w) et) :
    lane et (packLanes (laneBits et) (List.replicate (laneCount (formBits w) et) x) % 2 ^ formBits w) i =
      x % 2 ^ laneBits et := by
  have hlen : i < (List.replicate (laneCount (formBits w) et) x).length := by simpa using hi
  rw [packLanes_mod_formBits w et (by simp), lane_packLanes et _ i hlen, List.getElem_replicate]

theorem laneBits_le (et : Fin 8) : laneBits et.val ≤ 64 := by
  revert et; decide

/-- What VEXT puts into its register fits there. -/
theorem vext_value_lt (et : Fin 8) (v ln : Nat) :
    (if laneFp et.val then lane et.val v ln else unsigned 64 (signed (laneBits et.val) (lane et.val v ln))) < 2 ^ 64 := by
  split
  · exact Nat.lt_of_lt_of_le (Nat.mod_lt _ (Nat.two_pow_pos _)) (Nat.pow_le_pow_right (by decide) (laneBits_le et))
  · unfold unsigned
    omega

@[simp] theorem Hart.reg_setReg (t : Hart) (n v : Nat) (hn : n ≠ 0) : (t.setReg n v).reg n = v % 2 ^ 64 := by
  simp [Hart.setReg, Hart.reg, hn, Store.at, Store.put, Store.get_set]

theorem Hart.setReg_v (t : Hart) (n v : Nat) : (t.setReg n v).v = t.v := by
  unfold Hart.setReg; split <;> rfl

theorem Hart.setReg_pc (t : Hart) (n v : Nat) : (t.setReg n v).pc = t.pc := by
  unfold Hart.setReg; split <;> rfl

@[simp] theorem State.hart_retire (s : State) (h len : Nat) (f : Hart → Hart) :
    (s.retire h len f).hart h = { f (s.hart h) with
      pc := ((f (s.hart h)).pc + len) % 2 ^ 64, instret := ((f (s.hart h)).instret + 1) % 2 ^ 64, wait := .none } := by
  simp [State.retire]

theorem retire_kept (s : State) (h len : Nat) (f : Hart → Hart) :
    RegsKept [] s (s.retire h len f) ∧ MemKept s (s.retire h len f) :=
  ⟨fun _ _ _ => State.reg_setHart .., fun _ => State.byte_setHart ..⟩

theorem execVext_of_lane {s : State} {h : Fin 3072} {et : Fin 8} {ln : Fin 16} (vs1 rd : Fin 32)
    (hi : s.issues h.val = true) (hfs : (s.hart h.val).fs ≠ 0) (hln : ln.val < laneCount 128 et.val) :
    execVext h et ln vs1 rd s = .next (s.retire h.val 4 fun u => u.setReg rd.val
      (if laneFp et.val then lane et.val ((s.hart h.val).vreg vs1.val) ln.val
        else unsigned 64 (signed (laneBits et.val) (lane et.val ((s.hart h.val).vreg vs1.val) ln.val)))) := by
  simp [execVext, hi, hfs, Nat.not_le.2 hln]

/-! F_OR_D_INSTRUCTION: the words that it runs. -/

/-- A command that F_OR_D_INSTRUCTION hands on runs as `exec` runs it, and answers a next state. -/
def RunsSvx (i : Instr) : Prop := ∀ s, runSvx i s = exec i s ∧ ∃ t, runSvx i s = .next t

theorem runsSvx_svxArithCommand {h : Fin 3072} {fn : Nat} {w u : Bool} {vs2 vs1 : Fin 32} {et : Fin 8} {vd : Fin 32}
    {i : Instr} (hc : svxArithCommand h fn w u vs2 vs1 et vd = some i) : RunsSvx i := by
  intro s
  unfold svxArithCommand at hc
  split at hc
  case h_20 => cases hc; exact ⟨rfl, execVcvt_next h w u vs2 vs1 et vd s⟩
  case h_25 => cases hc
  all_goals
    cases hc
    refine ⟨rfl, ?_⟩
    dsimp only [runSvx]
    exact svxArith_next ..

theorem runsSvx_custom0 {h : Fin 3072} {w : Nat} {i : Instr} (hc : custom0 h w = some i) : RunsSvx i := by
  unfold custom0 at hc
  dsimp only at hc
  split at hc
  · exact runsSvx_svxArithCommand hc
  · cases hc

theorem execVld_next (h : Fin 3072) (imm : BitVec 12) (rs1 vd : Fin 32) (reach : CoreReach) (s : State) :
    ∃ t, execVld h imm rs1 vd reach s = .next t := by
  unfold execVld
  dsimp only
  repeat' split
  all_goals exact ⟨_, rfl⟩

theorem execVst_next (h : Fin 3072) (imm : BitVec 12) (vs3 rs1 : Fin 32) (refill : Bool) (s : State) :
    ∃ t, execVst h imm vs3 rs1 refill s = .next t := by
  unfold execVst
  dsimp only
  repeat' split
  all_goals exact ⟨_, rfl⟩

theorem execVgath_next (h : Fin 3072) (et : Fin 8) (iw sc : Fin 4) (vi rs1 vd : Fin 32) (reach : CoreReach) (s : State) :
    ∃ t, execVgath h et iw sc vi rs1 vd reach s = .next t := by
  unfold execVgath
  split <;> exact ⟨_, rfl⟩

theorem execVscat_next (h : Fin 3072) (et : Fin 8) (iw sc : Fin 4) (vi rs1 vs3 : Fin 32) (refill : Bool) (s : State) :
    ∃ t, execVscat h et iw sc vi rs1 vs3 refill s = .next t := by
  unfold execVscat
  split <;> exact ⟨_, rfl⟩

theorem execVsplat_next (h : Fin 3072) (et : Fin 8) (w : Bool) (rs1 vd : Fin 32) (s : State) :
    ∃ t, execVsplat h et w rs1 vd s = .next t := by
  unfold execVsplat
  dsimp only
  repeat' split
  all_goals exact ⟨_, rfl⟩

theorem execVext_next (h : Fin 3072) (et : Fin 8) (ln : Fin 16) (vs1 rd : Fin 32) (s : State) :
    ∃ t, execVext h et ln vs1 rd s = .next t := by
  unfold execVext
  dsimp only
  split
  · exact ⟨_, rfl⟩
  · split <;> exact ⟨_, rfl⟩

theorem execSync_next (h : Fin 3072) (ra nv : Bool) (s : State) : ∃ t, execSync h ra nv s = .next t := by
  unfold execSync
  repeat' split
  all_goals exact ⟨_, rfl⟩

theorem runsSvx_custom1 {h : Fin 3072} {w : Nat} {i : Instr} (hc : custom1 h w = some i) : RunsSvx i := by
  intro s
  unfold custom1 at hc
  dsimp only at hc
  split at hc
  · cases hc; exact ⟨rfl, execVld_next ..⟩
  · cases hc; exact ⟨rfl, execVst_next ..⟩
  · cases hc; exact ⟨rfl, execVgath_next ..⟩
  · cases hc; exact ⟨rfl, execVscat_next ..⟩
  · split at hc
    · cases hc; exact ⟨rfl, execVsplat_next ..⟩
    · cases hc
  · split at hc
    · cases hc; exact ⟨rfl, execVext_next ..⟩
    · cases hc
  · split at hc
    · cases hc; exact ⟨rfl, execSync_next ..⟩
    · cases hc
  · cases hc

theorem runsSvx_svxCommand {h : Fin 3072} {w : Nat} {i : Instr} (hc : svxCommand h w = some i) : RunsSvx i := by
  unfold svxCommand at hc
  split at hc
  · exact runsSvx_custom0 hc
  · split at hc
    · exact runsSvx_custom1 hc
    · cases hc

section
variable {s : State} {h : Fin 3072} {w : Word} (short : Bool) (hi : s.issues h.val = true)
  (hr : rowed w.toNat ((s.hart h.val).reg 17) = false)
include hi hr

theorem execFOrD_of_svx {i : Instr} (hc : svxCommand h w.toNat = some i) :
    execFOrDInstruction h w short s = runSvx i s := by
  simp [execFOrDInstruction, hi, hr, hc]

theorem execFOrD_of_fp {r : FpResult} (hc : svxCommand h w.toNat = none) (hfs : (s.hart h.val).fs ≠ 0)
    (hf : fpInstr w.toNat (s.hart h.val).reg (s.hart h.val).freg = some r) :
    execFOrDInstruction h w short s = .next (s.retire h.val 4 fun u =>
      (if r.toX then u.setReg r.rd r.value else u.setFreg r.rd r.value).accrue r.flags) := by
  simp [execFOrDInstruction, hi, hr, hc, hfs, hf]

theorem execFOrD_of_integer {u : State} (hc : svxCommand h w.toNat = none)
    (hf : (s.hart h.val).fs = 0 ∨ fpInstr w.toNat (s.hart h.val).reg (s.hart h.val).freg = none)
    (hu : s.integerInstr h.val (instrLen short) w.toNat = some u) :
    execFOrDInstruction h w short s = .next u := by
  have hfp : (if (s.hart h.val).fs = 0 then none else fpInstr w.toNat (s.hart h.val).reg (s.hart h.val).freg) = none := by
    obtain hf | hf := hf <;> simp [hf]
  simp [execFOrDInstruction, hi, hr, hc, hfp, hu]

end

theorem integerInstr_of_alu {s : State} {h len w v : Nat} (hv : aluInstr w (s.hart h).pc (s.hart h).reg = some v) :
    s.integerInstr h len w = some (s.retire h len fun u => u.setReg (field w 7 5) v) := by
  simp [State.integerInstr, hv]

/-! The statement, clause by clause where a clause is not of the shared shape. -/

theorem vcvt_completes (s : State) (h : Fin 3072) (w u : Bool) (vs2 vs1 : Fin 32) (et : Fin 8) (vd : Fin 32)
    (hi : s.issues h.val = true) (hfs : (s.hart h.val).fs ≠ 0) (hv : vs2.val < 8)
    (hu : u = true → laneInteger et.val = true) :
    Completes (.vcvt h w u vs2 vs1 et vd) s fun t =>
      ∃ r : Nat × Nat, r = vcvtResult s h.val w u vs2.val vs1.val et.val ∧
        (t.hart h.val).vreg vd.val = r.1 % 2 ^ formBits w ∧ (t.hart h.val).fflags = (s.hart h.val).fflags ||| r.2 ∧
        (t.hart h.val).pc = ((s.hart h.val).pc + 4) % 2 ^ 64 ∧ RegsKept [] s t ∧ MemKept s t := by
  obtain ⟨hvd, hflags, -, hpc, -, -, -, hregs, hmem⟩ :=
    svxWrite_facts s h.val w vd.val (vcvtResult s h.val w u vs2.val vs1.val et.val)
  exact ⟨_, execVcvt_of_legal w vs1 vd hi hfs hv hu, _, rfl, hvd, hflags, hpc, hregs, hmem⟩

theorem vsplat_completes (s : State) (h : Fin 3072) (et : Fin 8) (w : Bool) (rs1 vd : Fin 32)
    (hi : s.issues h.val = true) (hfs : (s.hart h.val).fs ≠ 0) :
    Completes (.vsplat h et w rs1 vd) s fun t =>
      (∀ i, i < laneCount (formBits w) et.val →
          lane et.val ((t.hart h.val).vreg vd.val) i = (s.hart h.val).reg rs1.val % 2 ^ laneBits et.val) ∧
        (t.hart h.val).pc = ((s.hart h.val).pc + 4) % 2 ^ 64 ∧ RegsKept [] s t ∧ MemKept s t := by
  have hexec : execVsplat h et w rs1 vd s = .next (s.svxWrite h.val w vd.val (packLanes (laneBits et.val)
      (List.replicate (laneCount (formBits w) et.val) ((s.hart h.val).reg rs1.val)), 0)) := by
    simp [execVsplat, hi, hfs]
  obtain ⟨hvd, -, -, hpc, -, -, -, hregs, hmem⟩ := svxWrite_facts s h.val w vd.val (packLanes (laneBits et.val)
    (List.replicate (laneCount (formBits w) et.val) ((s.hart h.val).reg rs1.val)), 0)
  exact ⟨_, hexec, fun i hl => by rw [hvd, lane_splat w et.val _ hl], hpc, hregs, hmem⟩

theorem vext_completes (s : State) (h : Fin 3072) (et : Fin 8) (ln : Fin 16) (vs1 rd : Fin 32)
    (hi : s.issues h.val = true) (hfs : (s.hart h.val).fs ≠ 0) (hln : ln.val < laneCount 128 et.val) :
    Completes (.vext h et ln vs1 rd) s fun t =>
      (rd.val ≠ 0 → (t.hart h.val).reg rd.val =
          if laneFp et.val then lane et.val ((s.hart h.val).vreg vs1.val) ln.val
          else unsigned 64 (signed (laneBits et.val) (lane et.val ((s.hart h.val).vreg vs1.val) ln.val))) ∧
        (t.hart h.val).reg 0 = 0 ∧ (t.hart h.val).v = (s.hart h.val).v ∧
        (t.hart h.val).pc = ((s.hart h.val).pc + 4) % 2 ^ 64 ∧ RegsKept [] s t ∧ MemKept s t := by
  refine ⟨_, execVext_of_lane vs1 rd hi hfs hln, fun hrd => ?_, rfl, ?_, ?_, retire_kept ..⟩
  · rw [State.hart_retire]
    exact (Hart.reg_setReg _ _ _ hrd).trans (Nat.mod_eq_of_lt (vext_value_lt ..))
  · rw [State.hart_retire]
    exact Hart.setReg_v ..
  · rw [State.hart_retire, Hart.setReg_pc]

/-- Settles O30: the arithmetic functions have one shape, of which only legality differs; the words that F_OR_D_INSTRUCTION
hands on run as their own commands. -/
theorem svxArithmeticComplete : Obligations.SvxArithmeticComplete := by
  unfold Obligations.SvxArithmeticComplete
  refine ⟨?vadd, ?vsub, ?vmul, ?vmulh, ?vfma, ?vmin, ?vmax, ?vdiv, ?vsqrt, ?vand, ?vor, ?vxor, ?vsll, ?vsrl, ?vsra,
    ?vcmpeq, ?vcmplt, ?vcmple, ?vsel, ?vwmul, ?vwmulhi, ?vdot, ?vrsum, ?vcvt, ?vsplat, ?vext, ?fp, ?svx, ?alu, ?integer⟩
  case vadd => exact svxCompletes_of_legal 0x00 (fun u _ _ => svxLegal_anyType (by decide) u _ _) (by intros; rfl)
  case vsub => exact svxCompletes_of_legal 0x01 (fun u _ _ => svxLegal_anyType (by decide) u _ _) (by intros; rfl)
  case vmul => exact svxCompletes_of_legal 0x02 (fun u _ _ => svxLegal_anyType (by decide) u _ _) (by intros; rfl)
  case vmulh => exact svxCompletes_of_legal 0x03 (fun u _ _ => svxLegal_vmulh u _ _) (by intros; rfl)
  case vfma => exact svxCompletes_of_legal 0x04 (fun u _ _ => svxLegal_anyType (by decide) u _ _) (by intros; rfl)
  case vmin => exact svxCompletes_of_legal 0x05 (fun u _ _ => svxLegal_unsignedInteger (by decide) u _ _) (by intros; rfl)
  case vmax => exact svxCompletes_of_legal 0x06 (fun u _ _ => svxLegal_unsignedInteger (by decide) u _ _) (by intros; rfl)
  case vdiv => exact svxCompletes_of_legal 0x07 (fun u _ _ => svxLegal_vdiv u _ _) (by intros; rfl)
  case vsqrt => exact svxCompletes_of_legal 0x08 (fun u vs2 _ => svxLegal_vsqrt u vs2 _) (by intros; rfl)
  case vand => exact svxCompletes_of_legal 0x09 (fun u _ _ => svxLegal_anyType (by decide) u _ _) (by intros; rfl)
  case vor => exact svxCompletes_of_legal 0x0A (fun u _ _ => svxLegal_anyType (by decide) u _ _) (by intros; rfl)
  case vxor => exact svxCompletes_of_legal 0x0B (fun u _ _ => svxLegal_anyType (by decide) u _ _) (by intros; rfl)
  case vsll => exact svxCompletes_of_legal 0x0C (fun u _ _ => svxLegal_shift (by decide) u _ _) (by intros; rfl)
  case vsrl => exact svxCompletes_of_legal 0x0D (fun u _ _ => svxLegal_shift (by decide) u _ _) (by intros; rfl)
  case vsra => exact svxCompletes_of_legal 0x0E (fun u _ _ => svxLegal_shift (by decide) u _ _) (by intros; rfl)
  case vcmpeq => exact svxCompletes_of_legal 0x0F (fun u _ _ => svxLegal_anyType (by decide) u _ _) (by intros; rfl)
  case vcmplt => exact svxCompletes_of_legal 0x10 (fun u _ _ => svxLegal_unsignedInteger (by decide) u _ _) (by intros; rfl)
  case vcmple => exact svxCompletes_of_legal 0x11 (fun u _ _ => svxLegal_unsignedInteger (by decide) u _ _) (by intros; rfl)
  case vsel => exact svxCompletes_of_legal 0x12 (fun u _ _ => svxLegal_anyType (by decide) u _ _) (by intros; rfl)
  case vwmul => exact svxCompletes_of_legal 0x14 (fun u _ _ => svxLegal_widen (by decide) u _ _) (by intros; rfl)
  case vwmulhi => exact svxCompletes_of_legal 0x15 (fun u _ _ => svxLegal_widen (by decide) u _ _) (by intros; rfl)
  case vdot => exact svxCompletes_of_legal 0x16 (fun u _ et => svxLegal_vdot u _ et) (by intros; rfl)
  case vrsum => exact svxCompletes_of_legal 0x17 (fun u _ _ => svxLegal_anyType (by decide) u _ _) (by intros; rfl)
  case vcvt => exact vcvt_completes
  case vsplat => exact vsplat_completes
  case vext => exact vext_completes
  case fp =>
    intro s h w short r hi hfs hr hc hf
    exact ⟨_, execFOrD_of_fp short hi hr hc hfs hf, rfl⟩
  case svx =>
    intro s h w short i hi hr hc
    obtain ⟨hrun, t, ht⟩ := runsSvx_svxCommand hc s
    exact ⟨t, (execFOrD_of_svx short hi hr hc).trans ht, hrun.symm.trans ht⟩
  case alu =>
    intro s h w short v hi hr hc hf hv
    exact ⟨_, execFOrD_of_integer short hi hr hc hf (integerInstr_of_alu hv), rfl⟩
  case integer =>
    intro s h w short u hi hr hc hf hu
    exact ⟨_, execFOrD_of_integer short hi hr hc hf hu, rfl⟩

end Sys2Proof.Machine
end

section
/-! The sequencer's commands complete (R205 to R229). -/

namespace Sys2Proof.Machine

/-! Issue (R205, R207). -/

@[simp] theorem State.poisoned_setBay (s : State) (b : Nat) (x : Bay) (lo hi : Nat) :
    (s.setBay b x).poisoned lo hi = s.poisoned lo hi := rfl

@[simp] theorem State.poisoned_addReg (s : State) (r : Reg) (i n lo hi : Nat) :
    (s.addReg r i n).poisoned lo hi = s.poisoned lo hi := rfl

@[simp] theorem State.bay_addReg (s : State) (r : Reg) (i n b : Nat) : (s.addReg r i n).bay b = s.bay b := rfl

@[simp] theorem State.poisoned_fillWindow (s : State) (b a lo hi : Nat) :
    (s.fillWindow b a).poisoned lo hi = s.poisoned lo hi := by
  unfold State.fillWindow
  dsimp only
  split <;> rfl

/-- The next entry is issued from a line of the window that is not poisoned. -/
theorem execEntryIssue_of_clean {s : State} {b : Fin 256} {a : Nat}
    (ha : a = (s.bay b.val).table + 32 * (s.bay b.val).index) (hmay : s.mayIssue b.val (s.bay b.val) = true)
    (hclean : s.poisoned (a / 128 * 128) (a / 128 * 128 + 128) = false) {u : State}
    (hu : u = (s.fillWindow b.val a).addReg .stepsIssued 0 1) :
    execEntryIssue b s = .next (u.setBay b.val { u.bay b.val with
      head := some ((u.bay b.val).newFlight
        (field (((u.bay b.val).window.lookup (a / 128 * 128)).getD 0) (8 * (a % 128)) 256) u.now)
      atLast := false }) := by
  subst ha hu
  have hmod (n : Nat) : n - n / 128 * 128 = n % 128 := by omega
  simp [execEntryIssue, hmay, hclean, hmod]

/-! Start (R207, R213). -/

/-- An entry that was not held and is not held now leaves the state as it was. -/
theorem noteHold_of_free {s : State} {b : Nat} {f : Flight} (hhead : (s.bay b).head = some f)
    (hlag : s.lagHold (s.bay b) f = false) (hstatus : f.status = 0) : s.noteHold b (s.bay b) f = s := by
  simp [State.noteHold, State.endHold, hlag, hhead, hstatus]

/-- An entry that its checks pass and that may start has its descriptors read. -/
theorem startEntry_reads {s : State} {b : Nat} {f : Flight} (queueFull : Bool) (hhead : (s.bay b).head = some f)
    (hlag : s.lagHold (s.bay b) f = false) (hstatus : f.status = 0) (hmay : s.mayStart b (s.bay b) f = true)
    (hcheck : staticCheck f = 0) (hdescs : s.badDescs b f = []) :
    s.startEntry b f queueFull = (s.fillDescs b f).startRead b f queueFull := by
  simp [State.startEntry, noteHold_of_free hhead hlag hstatus, hhead, hmay, hcheck, hdescs]

/-- An entry whose operands are in order, and which meets no entry in flight, is launched. -/
theorem startRead_launches {v : State} {b : Nat} {f : Flight} {o : Operands} {p : Prep × List Nat} (queueFull : Bool)
    (hstrict : f.nd = true → v.reg .strict ≠ 1) (ho : v.operands (v.bay b) f = .ok o)
    (hcheck : v.opCheck b (v.bay b) f o = 0)
    (hp : p = prepare (v.viewFor b { f with spec := f.isSpec }) (v.bay b) f o)
    (hmeet : (((v.bay b).flights.filter fun g => !(f.isSpec && g.spec && g.executed)).any (conflicts p.1)) = false)
    (hgate : (v.bay b).colls.any (gatedBy f p.1) = false) (hrace : v.areaRace b f p.2 = false) :
    v.startRead b f queueFull = v.launch b (if f.op = opMma then
      (v.viewFor b { f with spec := f.isSpec }).fillStores (v.bay b) f (v.bay b).serial true o else v.bay b) f p.1 p.2
        (v.deadlineOf f o) := by
  have hconv : (f.nd && decide (v.reg .strict = 1)) = false := by
    cases hnd : f.nd with
    | false => rfl
    | true => simpa using hstrict hnd
  subst hp
  unfold State.startRead
  simp only [ho, hcheck, hconv, hmeet, hgate, hrace]
  rfl

/-! Completion (R209, R229). -/

theorem execEntryComplete_of_found {s : State} {b : Fin 256} {f : Flight} (queueFull : Bool)
    (hf : (s.bay b.val).flights.find? (fun f => f.executed && !f.spec && !s.held b.val f) = some f)
    (hparked : (s.bay b.val).parked = false) (hsparing : (s.bay b.val).sparing = 0) :
    execEntryComplete b queueFull s = .next (s.completeEntry b.val f queueFull) := by
  simp [execEntryComplete, hf, hparked, hsparing]

theorem execEntryAbandon_of_found {s : State} {b : Fin 256} {f : Flight} (queueFull : Bool)
    (hf : (s.bay b.val).flights.find? (fun f => !f.executed && (decide (f.op = opFence) || decide (f.op = opWait) ||
      decide (f.op = opEpoch))) = some f)
    (hstops : (s.bay b.val).stops = false) :
    execEntryAbandon b queueFull s =
      .next (s.completeEntry b.val { f with result := 0x81, detail := 0, halts := true } queueFull) := by
  simp [execEntryAbandon, hf, hstops]

/-! BR, LOOP, CALL and END (R208, R223 to R225). -/

/-- What ends a hold keeps everything of the bay but its issued entry, and marks no memory. -/
theorem noteHoldOf_kept (s : State) (b : Nat) :
    ((s.noteHoldOf b).bay b).stack = (s.bay b).stack ∧ ((s.noteHoldOf b).bay b).model = (s.bay b).model ∧
      ∀ lo hi, (s.noteHoldOf b).poisoned lo hi = s.poisoned lo hi := by
  unfold State.noteHoldOf
  split
  · unfold State.noteHold
    split
    · split <;> simp
    · unfold State.endHold
      dsimp only
      split
      · split <;> simp
      · simp
  · simp

theorem staticCheck_withStatus (f : Flight) (n : Nat) : staticCheck { f with status := n } = staticCheck f := rfl

theorem Flight.param_withStatus (f : Flight) (n lo len : Nat) :
    Flight.param { f with status := n } lo len = f.param lo len := rfl

section
variable {s : State} {b : Fin 256} {f : Flight} (queueFull : Bool)

theorem execBr_of_resolvable (hf : s.resolvable b.val opBr = some f) (hcheck : staticCheck f = 0) :
    execBr b queueFull s = .next ((s.noteHoldOf b.val).resolveAt b.val { f with status := 0 } f.table
      (if condHolds f.cond ((s.noteHoldOf b.val).bay b.val).cf then f.next else f.index + 1) queueFull) := by
  simp only [execBr, hf, staticCheck_withStatus, hcheck]
  rfl

variable {x : Bay} (hx : x = (s.noteHoldOf b.val).bay b.val)
include hx

/-- A LOOP whose counter is 0 starts it with the count of its parameters (R224). -/
theorem execLoop_of_fresh (hf : s.resolvable b.val opLoop = some f) (hcheck : staticCheck f = 0)
    (hleft : x.left.getD (f.param 32 3) 0 = 0) :
    execLoop b queueFull s = .next (((s.noteHoldOf b.val).setBay b.val { x with
      left := x.left.set (f.param 32 3) (f.param 0 32 - 1)
      count := x.count.set (f.param 32 3) (f.param 0 32) }).resolveAt b.val { f with status := 0 } f.table
        (if 1 < f.param 0 32 then f.next else f.index + 1) queueFull) := by
  subst hx
  simp only [execLoop, hf, staticCheck_withStatus, Flight.param_withStatus, hcheck, hleft, Nat.sub_pos_iff_lt]
  rfl

/-- A LOOP whose counter runs counts one iteration (R224). -/
theorem execLoop_of_running (hf : s.resolvable b.val opLoop = some f) (hcheck : staticCheck f = 0)
    (hleft : x.left.getD (f.param 32 3) 0 ≠ 0) :
    execLoop b queueFull s = .next (((s.noteHoldOf b.val).setBay b.val { x with
      left := x.left.set (f.param 32 3) (x.left.getD (f.param 32 3) 0 - 1) }).resolveAt b.val { f with status := 0 } f.table
        (if 1 < x.left.getD (f.param 32 3) 0 then f.next else f.index + 1) queueFull) := by
  subst hx
  simp only [execLoop, hf, staticCheck_withStatus, Flight.param_withStatus, hcheck, hleft, Nat.sub_pos_iff_lt]
  rfl

end

/-- A LOOP counts one iteration, of a counter that it starts or that runs. -/
theorem loop_completes (s : State) (b : Fin 256) (f : Flight) (queueFull : Bool) (hf : s.resolvable b.val opLoop = some f)
    (hcheck : staticCheck f = 0) :
    Completes (.loop b queueFull) s fun t =>
      ∃ (u : State) (x : Bay), u = s.noteHoldOf b.val ∧ x = u.bay b.val ∧
        (x.left.getD (f.param 32 3) 0 = 0 →
          t = (u.setBay b.val { x with
            left := x.left.set (f.param 32 3) (f.param 0 32 - 1)
            count := x.count.set (f.param 32 3) (f.param 0 32) }).resolveAt b.val { f with status := 0 } f.table
              (if 1 < f.param 0 32 then f.next else f.index + 1) queueFull) ∧
        (x.left.getD (f.param 32 3) 0 ≠ 0 →
          t = (u.setBay b.val { x with
            left := x.left.set (f.param 32 3) (x.left.getD (f.param 32 3) 0 - 1) }).resolveAt b.val
              { f with status := 0 } f.table (if 1 < x.left.getD (f.param 32 3) 0 then f.next else f.index + 1)
              queueFull) := by
  by_cases hleft : ((s.noteHoldOf b.val).bay b.val).left.getD (f.param 32 3) 0 = 0
  · exact ⟨_, execLoop_of_fresh queueFull rfl hf hcheck hleft, _, _, rfl, rfl, fun _ => rfl, fun h => absurd hleft h⟩
  · exact ⟨_, execLoop_of_running queueFull rfl hf hcheck hleft, _, _, rfl, rfl, fun h => absurd h hleft, fun _ => rfl⟩

theorem execCall_next (b : Fin 256) (queueFull : Bool) (s : State) : ∃ t, execCall b queueFull s = .next t := by
  unfold execCall
  dsimp only
  repeat' split
  all_goals exact ⟨_, rfl⟩

section
variable {s u v : State} {b : Fin 256} {f : Flight} (queueFull : Bool) (hu : u = s.noteHoldOf b.val)
  (hv : v = u.setBay b.val { u.bay b.val with stack := (f.table, f.index + 1) :: (s.bay b.val).stack })
  (hf : s.resolvable b.val opCall = some f) (hcheck : staticCheck f = 0) (hstack : (s.bay b.val).stack.length < 8)
include hu hv hf hcheck hstack

/-- A CALL within its own table goes on at its `NEXT`. -/
theorem execCall_ownTable (hown : f.param 0 1 = 0) :
    execCall b queueFull s = .next (v.resolveAt b.val { f with status := 0 } f.table f.next queueFull) := by
  obtain ⟨hs, -, -⟩ := noteHoldOf_kept s b.val
  subst hu hv
  simp only [execCall, hf, staticCheck_withStatus, Flight.param_withStatus, hcheck, hs, hown, Nat.not_le.2 hstack]
  rfl

/-- A CALL to its model goes on at the start of the model's step table. -/
theorem execCall_modelTable {m : Nat} (hcall : f.param 0 1 ≠ 0) (hmodel : (s.bay b.val).model = some m)
    (hclean : s.poisoned (64 * m) (64 * m + 64) = false) :
    execCall b queueFull s =
      .next (v.resolveAt b.val { f with status := 0 } (u.roster m 0x18 8) 0 queueFull) := by
  obtain ⟨hs, hm, hpoison⟩ := noteHoldOf_kept s b.val
  have hm' := hm.trans hmodel
  have hclean' := (hpoison (64 * m) (64 * m + 64)).trans hclean
  subst hu hv
  simp only [execCall, hf, staticCheck_withStatus, Flight.param_withStatus, hcheck, hs, hm', hclean', hcall,
    Nat.not_le.2 hstack]
  rfl

end

/-- A CALL pushes its return position and goes on in its own table, or at the step table of the bay's model (R225). -/
theorem call_completes (s : State) (b : Fin 256) (f : Flight) (queueFull : Bool) (hf : s.resolvable b.val opCall = some f)
    (hcheck : staticCheck f = 0) (hstack : (s.bay b.val).stack.length < 8) :
    Completes (.call b queueFull) s fun t =>
      ∃ (u v : State), u = s.noteHoldOf b.val ∧
        v = u.setBay b.val { u.bay b.val with stack := (f.table, f.index + 1) :: (s.bay b.val).stack } ∧
        (f.param 0 1 = 0 → t = v.resolveAt b.val { f with status := 0 } f.table f.next queueFull) ∧
        (∀ m, f.param 0 1 ≠ 0 → (s.bay b.val).model = some m → s.poisoned (64 * m) (64 * m + 64) = false →
          t = v.resolveAt b.val { f with status := 0 } (u.roster m 0x18 8) 0 queueFull) := by
  obtain ⟨t, ht⟩ := execCall_next b queueFull s
  refine ⟨t, ht, _, _, rfl, rfl, fun hown => ?_, fun m hcall hmodel hclean => ?_⟩
  · exact Host.Outcome.next.inj (ht.symm.trans (execCall_ownTable queueFull rfl rfl hf hcheck hstack hown))
  · exact Host.Outcome.next.inj (ht.symm.trans (execCall_modelTable queueFull rfl rfl hf hcheck hstack hcall hmodel hclean))

theorem execTableEnd_of_ready {s : State} {b : Fin 256} {f : Flight}
    (hf : s.ready b.val (fun f => decide (f.op = opEnd)) = some f) : execTableEnd b s = .next (s.perform b.val f {}) := by
  simp [execTableEnd, hf]

/-! FENCE and WAIT (R205, R220, R221, R385). -/

/-- What a FENCE's options discard from its bay (R205, R220, R385). -/
def Bay.fenced (x : Bay) (f : Flight) : Bay :=
  { x with
    descs := if f.param 2 1 = 1 then [] else x.descs
    window := if f.param 3 1 = 1 then [] else x.window
    failure := if f.param 1 1 = 1 then none else x.failure }

section
variable {s : State} {b : Fin 256} {f : Flight}
  (hf : (s.bay b.val).flights.find? (fun f => !f.executed && decide (f.op = opFence)) = some f)
  (hparked : (s.bay b.val).parked = false) (hsparing : (s.bay b.val).sparing = 0)
include hf hparked hsparing

theorem execFence_local (hgroup : f.param 1 1 ≠ 1) :
    execFence b s = .next ((s.setBay b.val ((s.bay b.val).fenced f)).setFlight b.val
      { f with executed := true, phase := 0, result := 0, detail := 0 }) := by
  simp [execFence, hf, hparked, hsparing, hgroup, Bay.fenced]

theorem execFence_waits (hgroup : f.param 1 1 = 1) (hwaits : s.bayWaits b.val = true) :
    execFence b s = .next (s.stillWaits b.val f) := by
  simp [execFence, hf, hparked, hsparing, hgroup, hwaits]

theorem execFence_group (hgroup : f.param 1 1 = 1) (hwaits : s.bayWaits b.val = false) :
    execFence b s = .next (((s.setBay b.val ((s.bay b.val).fenced f)).groupFence b.val f.step).setFlight b.val { f with
      executed := true, phase := 0
      result := ((s.bay b.val).failure.getD (0, 0)).1, detail := ((s.bay b.val).failure.getD (0, 0)).2 }) := by
  simp [execFence, hf, hparked, hsparing, hgroup, hwaits, Bay.fenced]

/-- A FENCE is done, or waits for the remote operations of its group. -/
theorem fence_completes :
    Completes (.fence b) s fun t =>
      ∃ u : State, u = s.setBay b.val ((s.bay b.val).fenced f) ∧
        (f.param 1 1 ≠ 1 → t = u.setFlight b.val { f with executed := true, phase := 0, result := 0, detail := 0 }) ∧
        (f.param 1 1 = 1 → s.bayWaits b.val = true → t = s.stillWaits b.val f) ∧
        (f.param 1 1 = 1 → s.bayWaits b.val = false → t = (u.groupFence b.val f.step).setFlight b.val { f with
          executed := true, phase := 0
          result := ((s.bay b.val).failure.getD (0, 0)).1, detail := ((s.bay b.val).failure.getD (0, 0)).2 }) := by
  by_cases hgroup : f.param 1 1 = 1
  · cases hwaits : s.bayWaits b.val with
    | true =>
      exact ⟨_, execFence_waits hf hparked hsparing hgroup hwaits, _, rfl, fun h => absurd hgroup h, fun _ _ => rfl, nofun⟩
    | false =>
      exact ⟨_, execFence_group hf hparked hsparing hgroup hwaits, _, rfl, fun h => absurd hgroup h, nofun, fun _ _ => rfl⟩
  · exact ⟨_, execFence_local hf hparked hsparing hgroup, _, rfl, fun _ => rfl, fun h => absurd h hgroup,
      fun h => absurd h hgroup⟩

end

theorem runWait_of_ready {s : State} {b kind : Nat} {f : Flight}
    (hf : s.ready b (fun f => decide (f.op = opWait) && decide (f.param 0 4 = kind)) = some f) :
    s.runWait b kind = if s.waitMet b f then s.endWait b f else s.stillWaits b f := by
  simp [State.runWait, hf]

/-- The four WAITs differ in the kind of their condition alone. -/
theorem waitCompletes_of_exec {c : Fin 256 → Instr} {kind : Nat} (hc : ∀ b s, exec (c b) s = .next (s.runWait b.val kind)) :
    WaitCompletes c kind :=
  fun s b _ hf => ⟨_, hc b s, runWait_of_ready hf⟩

theorem execWaitConditionMet_of_met {s : State} {b : Fin 256} {f : Flight}
    (hf : (s.bay b.val).flights.find? (fun f => decide (f.op = opWait) && !f.executed && decide (f.phase = 1)) = some f)
    (hmet : s.waitMet b.val f = true) (hsparing : (s.bay b.val).sparing = 0) (hparked : (s.bay b.val).parked = false) :
    execWaitConditionMet b s = .next (s.endWait b.val f) := by
  simp [execWaitConditionMet, hf, hmet, hsparing, hparked]

/-- Settles O29: each command by the branch of its meaning that its hypotheses select; a CALL, a LOOP and a FENCE have more
than one. -/
theorem sequencerComplete : Obligations.SequencerComplete := by
  unfold Obligations.SequencerComplete
  refine ⟨?issue, ?start, ?complete, ?abandon, ?br, loop_completes, call_completes, ?tableEnd, ?fence, ?waitEvent, ?waitFlag,
    ?waitNodeBarrier, ?waitToken, ?conditionMet, ?eventRegister, ?modeSet⟩
  case issue =>
    intro s b hmay hclean
    exact ⟨_, execEntryIssue_of_clean rfl hmay hclean rfl, _, rfl, rfl⟩
  case start =>
    intro s b f queueFull hhead hissue hlag hstatus hmay hcheck hnd hdescs
    have hexec : execEntryStart b queueFull s = .next ((s.fillDescs b.val f).startRead b.val f queueFull) := by
      simp [execEntryStart, hhead, hissue, startEntry_reads queueFull hhead hlag hstatus hmay hcheck hdescs]
    refine ⟨_, hexec, ?_⟩
    rintro v rfl o p ho hop hp hmeet hgate hrace
    have hstrict : f.nd = true → (s.fillDescs b.val f).reg .strict ≠ 1 := fun h =>
      (fillDescs_reg s b.val f .strict rfl 0).symm ▸ hnd h
    exact startRead_launches queueFull hstrict ho hop hp hmeet hgate hrace
  case complete =>
    intro s b f queueFull hf hparked hsparing
    exact ⟨_, execEntryComplete_of_found queueFull hf hparked hsparing, rfl⟩
  case abandon =>
    intro s b f queueFull hf hstops
    exact ⟨_, execEntryAbandon_of_found queueFull hf hstops, rfl⟩
  case br =>
    intro s b f queueFull hf hcheck
    exact ⟨_, execBr_of_resolvable queueFull hf hcheck, _, rfl, rfl⟩
  case tableEnd =>
    intro s b f hf
    exact ⟨_, execTableEnd_of_ready hf, rfl⟩
  case fence =>
    intro s b f hf hparked hsparing
    exact fence_completes hf hparked hsparing
  case waitEvent => exact waitCompletes_of_exec fun _ _ => rfl
  case waitFlag => exact waitCompletes_of_exec fun _ _ => rfl
  case waitNodeBarrier => exact waitCompletes_of_exec fun _ _ => rfl
  case waitToken => exact waitCompletes_of_exec fun _ _ => rfl
  case conditionMet =>
    intro s b f hf hmet hsparing hparked
    exact ⟨_, execWaitConditionMet_of_met hf hmet hsparing hparked, rfl⟩
  case eventRegister =>
    intro s b v
    exact ⟨_, rfl, rfl⟩
  case modeSet =>
    intro s q x n v h
    exact ⟨_, rfl, State.writeRequest_accepts s q (modeReg x) n.val [v] _ _ h rfl (by cases x <;> decide)⟩

end Sys2Proof.Machine
end

section
/-! What the entries of the bays leave (R109, R157, R167, R183, R207, R218): the registers from what each command may touch, and
the memory that a spare-in leaves where no write-back was interrupted (R121). -/

namespace Sys2Proof.Machine

/-! Registers. -/

/-- Of the registers, the changes that `T` names are in `rs`. -/
def touchesOnly (T : Option Reg → Bool) (rs : List Reg) : Bool := Reg.all.all fun r => !T (some r) || rs.contains r

theorem leavesRegs_of_touches {c : Instr} {T : Option Reg → Bool} {rs : List Reg} (hc : Instr.touches c = T)
    (h : touchesOnly T rs = true) : LeavesRegs rs c := by
  subst hc
  refine leavesRegs_of fun r hr ht => ?_
  simpa [ht] using List.all_eq_true.1 h r hr

theorem leaves_of_touches {c : Instr} {T : Option Reg → Bool} {rs : List Reg} (hc : Instr.touches c = T)
    (h : touchesOnly T rs = true) (hmem : T none = false) : Leaves rs c :=
  fun _ _ e => ⟨leavesRegs_of_touches hc h _ _ e, (frame_exec e).2 (hc ▸ hmem)⟩

/-- The same for each command of a list, from the list of what they may touch. -/
theorem forall_leavesRegs_of_touches {cs : List Instr} {Ts : List (Option Reg → Bool)} {rs : List Reg}
    (hcs : cs.map Instr.touches = Ts) (h : (Ts.all fun T => touchesOnly T rs) = true) : ∀ c ∈ cs, LeavesRegs rs c :=
  fun _ hc => leavesRegs_of_touches rfl (List.all_eq_true.1 h _ (hcs ▸ List.mem_map_of_mem hc))

/-! The memory at a spare-in (R121). -/

/-- No MMA of the bay is in its write-back. -/
def Bay.NoWriteBack (x : Bay) : Prop := ∀ f ∈ x.flights, f.op = opMma → f.phase ≠ 3

theorem Bay.NoWriteBack.discardRun {x : Bay} (h : x.NoWriteBack) : x.discardRun.NoWriteBack := by
  unfold Bay.discardRun
  split
  · exact h
  · exact fun f hf => h f (List.mem_filter.1 hf).1

theorem Bay.NoWriteBack.clock {x : Bay} (now : Nat) (h : x.NoWriteBack) : (x.clock now).NoWriteBack := by
  unfold Bay.clock
  split
  · split <;> exact h
  · split
    · exact h
    · intro f hf
      obtain ⟨g, hg, rfl⟩ := List.mem_map.1 hf
      exact h g hg

theorem finishWriteBack_of_noWriteBack {s : State} {b : Nat} (h : (s.bay b).NoWriteBack) : s.finishWriteBack b = s := by
  have hnone : (s.bay b).flights.find? (fun f => f.op = opMma && f.phase = 3) = none := by
    simpa [Bay.NoWriteBack] using h
  unfold State.finishWriteBack
  rw [hnone]

/-- Bay `k` as a spare-in lets it go on. -/
def State.resumedBay (s : State) (k : Nat) (moved : Bool) : Bay :=
  let x := { s.bay k with sparing := 0, flights := (s.bay k).flights.map fun f =>
    if moved && s.restarts (s.bay k) f then { f with rflags := f.rflags ||| 8 } else f }
  (if moved then x.discardRun else x).clock s.now

theorem resumeBays_cons (s : State) (k : Nat) (ks : List Nat) (moved : Bool) :
    s.resumeBays (k :: ks) moved = ((s.setBay k (s.resumedBay k moved)).finishWriteBack k).resumeBays ks moved := rfl

theorem resumedBay_noWriteBack {s : State} {k : Nat} (moved : Bool) (h : (s.bay k).NoWriteBack) :
    (s.resumedBay k moved).NoWriteBack := by
  have hmap : ∀ x : Bay, x.flights = ((s.bay k).flights.map fun f =>
      if moved && s.restarts (s.bay k) f then { f with rflags := f.rflags ||| 8 } else f) → x.NoWriteBack := by
    intro x hx f hf
    rw [hx] at hf
    obtain ⟨g, hg, rfl⟩ := List.mem_map.1 hf
    split <;> exact h g hg
  refine Bay.NoWriteBack.clock _ ?_
  split
  · exact (hmap _ rfl).discardRun
  · exact hmap _ rfl

/-- The halted bays go on without a write of memory where none was in a write-back. -/
theorem resumeBays_mem_of_noWriteBack (ks : List Nat) (moved : Bool) {s : State} (h : ∀ k, (s.bay k).NoWriteBack) :
    (s.resumeBays ks moved).mem = s.mem := by
  induction ks generalizing s with
  | nil => rfl
  | cons k ks ih =>
    have hbays : ∀ j, ((s.setBay k (s.resumedBay k moved)).bay j).NoWriteBack := by
      intro j
      rw [State.bay_setBay]
      split
      · exact resumedBay_noWriteBack moved (h k)
      · exact h j
    rw [resumeBays_cons, finishWriteBack_of_noWriteBack (hbays k)]
    exact ih hbays

/-- The map of a spare-in: the logical bays `ks` run on bay `spare` of the die, and a fresh spare is used up (R120, R123). -/
def State.spareMapped (s : State) (die spare : Nat) (ks : List Nat) : State :=
  let u := ks.foldl (fun (v : State) k => v.change .lbayMap k (die * 256 + spare)) s
  if s.reg .bayState (die * 34 + spare) = 1 then (u.change .bayState (die * 34 + spare) 0).useSpareBay die else u

/-- The logical bays `ks` wait, as another runs on their bay (R124). -/
def State.parkBays (s : State) (ks : List Nat) : State :=
  ks.foldl (fun (v : State) k => v.setBay k (({ v.bay k with parked := true } : Bay).clock v.now)) s

/-- What a spare-in ends with: its bays go on, and wait where the bay that takes over runs others. -/
theorem execBaySpareCopyComplete_of_copied {s u : State} {die : Fin 8} {phys : Fin 34} {x : SelfTest}
    (hx : s.runningTest 1 (die.val * 64 + phys.val) = some x) (hstage : x.stage = 1)
    (hu : u = ((s.spareMapped die.val x.spare (s.hosted die.val phys.val)).resumeBays
      (s.hosted die.val phys.val) true).endTest x 2) :
    ∃ t, execBaySpareCopyComplete die phys s = .next t ∧ (t = u ∨ t = u.parkBays (s.hosted die.val phys.val)) := by
  subst hu
  simp only [execBaySpareCopyComplete, hx, hstage, ne_eq, not_true_eq_false, ↓reduceIte]
  refine ⟨_, rfl, ?_⟩
  split
  · exact .inr rfl
  · exact .inl rfl

/-- Outside the copy of a spare-in the command changes nothing. -/
theorem execBaySpareCopyComplete_of_idle {s : State} {die : Fin 8} {phys : Fin 34}
    (h : ∀ x, s.runningTest 1 (die.val * 64 + phys.val) = some x → x.stage ≠ 1) :
    execBaySpareCopyComplete die phys s = .next s := by
  unfold execBaySpareCopyComplete
  dsimp only
  split
  · rfl
  · next x hx => exact if_pos (h x hx)

/-- `t` has the bays and the memory of `s`. -/
structure SameBaysAndMem (s t : State) : Prop where
  bays : t.bays = s.bays
  mem : t.mem = s.mem

theorem SameBaysAndMem.change {s t : State} (r : Reg) (i v : Nat) (h : SameBaysAndMem s t) :
    SameBaysAndMem s (t.change r i v) := by
  obtain ⟨hbays, -, -, hmem, -⟩ := logged_same (logged_change (s := t) r i v)
  exact ⟨hbays.trans h.bays, hmem.trans h.mem⟩

theorem SameBaysAndMem.foldl {s t : State} {f : State → Nat → State} (ks : List Nat) (h : SameBaysAndMem s t)
    (hf : ∀ u k, SameBaysAndMem s u → SameBaysAndMem s (f u k)) : SameBaysAndMem s (ks.foldl f t) := by
  induction ks generalizing t with
  | nil => exact h
  | cons k ks ih => exact ih (hf t k h)

theorem sameBaysAndMem_spareMapped (s : State) (die spare : Nat) (ks : List Nat) :
    SameBaysAndMem s (s.spareMapped die spare ks) := by
  have hmap := SameBaysAndMem.foldl (s := s) (t := s) (f := fun v k => v.change .lbayMap k (die * 256 + spare)) ks ⟨rfl, rfl⟩
    fun _ _ h => h.change ..
  unfold State.spareMapped
  dsimp only
  split
  · exact (hmap.change ..).change ..
  · exact hmap

/-- A spare-in ends without a write of memory where no write-back was interrupted. -/
theorem baySpareCopyComplete_mem {die : Fin 8} {phys : Fin 34} {s t : State} (h : ∀ k, (s.bay k).NoWriteBack)
    (ht : exec (.baySpareCopyComplete die phys) s = .next t) : t.mem = s.mem := by
  by_cases hcopy : ∃ x, s.runningTest 1 (die.val * 64 + phys.val) = some x ∧ x.stage = 1
  · obtain ⟨x, hx, hstage⟩ := hcopy
    have hmap := sameBaysAndMem_spareMapped s die.val x.spare (s.hosted die.val phys.val)
    have hresume := resumeBays_mem_of_noWriteBack (s.hosted die.val phys.val) true fun k => by
      unfold State.bay; rw [hmap.bays]; exact h k
    obtain ⟨-, hend, -⟩ := endTest_facts ((s.spareMapped die.val x.spare (s.hosted die.val phys.val)).resumeBays
      (s.hosted die.val phys.val) true) x 2
    have hmem := (hend.trans hresume).trans hmap.mem
    obtain ⟨u, hexec, hu⟩ := execBaySpareCopyComplete_of_copied hx hstage rfl
    cases ht.symm.trans hexec
    obtain rfl | rfl := hu
    · exact hmem
    · obtain ⟨-, -, hpark⟩ := setBays_same (fun v k => ({ v.bay k with parked := true } : Bay).clock v.now)
        (s.hosted die.val phys.val) (((s.spareMapped die.val x.spare (s.hosted die.val phys.val)).resumeBays
          (s.hosted die.val phys.val) true).endTest x 2)
      exact hpark.trans hmem
  · have hidle := execBaySpareCopyComplete_of_idle (s := s) (die := die) (phys := phys) fun x hx hstage =>
      hcopy ⟨x, hx, hstage⟩
    cases ht.symm.trans hidle
    rfl

/-- Settles O41: what a command may touch is in the list of its clause; a spare-in alone has a condition of memory. -/
theorem bayFrames : Obligations.BayFrames := by
  unfold Obligations.BayFrames
  refine ⟨?entries, ?model, ?tailwind, ?vectors, ?matrix, ?bist, ?spareCopy, ?trans, ?transPart, ?histCarry, ?issue, ?start,
    ?completion, ?call, ?br, ?loop, ?fence, ?wait, ?conditionMet, ?eventRegister⟩
  case entries =>
    intro b
    exact forall_leavesRegs_of_touches
      (Ts := [touchExecDigest, touchRunEntry, touchExecGath, touchExecScat, touchExecRstore, touchExecMcast, touchRunRacc,
        touchRunRacc, touchRunHist, touchRunHist, touchRunHist, touchRunHist, touchPerform]) rfl (by decide +kernel)
  case model =>
    intro b
    exact leavesRegs_of_touches (T := touchExecModel) rfl (by decide +kernel)
  case tailwind =>
    intro die
    exact leaves_of_touches (T := touchExecTailwindCopyComplete) rfl (by decide +kernel) (by decide +kernel)
  case vectors =>
    intro b
    exact forall_leavesRegs_of_touches (Ts := List.replicate 38 touchRunVector) rfl (by decide +kernel)
  case matrix =>
    intro b check
    exact forall_leavesRegs_of_touches (Ts := List.replicate 3 touchRunMma) rfl (by decide +kernel)
  case bist =>
    intro die phys pass
    exact leavesRegs_of_touches (T := touchExecArrayBistComplete) rfl (by decide +kernel)
  case spareCopy =>
    intro die phys s t ht
    refine ⟨leavesRegs_of_touches (T := touchExecBaySpareCopyComplete) rfl (by decide +kernel) s t ht, fun h a => ?_⟩
    unfold State.byte
    rw [baySpareCopyComplete_mem h ht]
  case trans =>
    intro b
    exact forall_leavesRegs_of_touches (Ts := List.replicate 4 touchRunTrans) rfl (by decide +kernel)
  case transPart =>
    intro b c
    exact leavesRegs_of_touches (T := touchExecTransPartComplete) rfl (by decide +kernel)
  case histCarry =>
    intro b
    exact leavesRegs_of_touches (T := touchExecHistCarry) rfl (by decide +kernel)
  case issue =>
    intro b
    exact leavesRegs_of_touches (T := touchExecEntryIssue) rfl (by decide +kernel)
  case start =>
    intro b queueFull
    exact leavesRegs_of_touches (T := touchExecEntryStart) rfl (by decide +kernel)
  case completion =>
    intro b queueFull
    exact forall_leavesRegs_of_touches (Ts := List.replicate 2 touchCompleteEntry) rfl (by decide +kernel)
  case call =>
    intro b queueFull
    exact leavesRegs_of_touches (T := touchExecCall) rfl (by decide +kernel)
  case br =>
    intro b queueFull
    exact leavesRegs_of_touches (T := touchExecBr) rfl (by decide +kernel)
  case loop =>
    intro b queueFull
    exact leavesRegs_of_touches (T := touchExecLoop) rfl (by decide +kernel)
  case fence =>
    intro b
    exact leavesRegs_of_touches (T := touchExecFence) rfl (by decide +kernel)
  case wait =>
    intro b
    exact forall_leavesRegs_of_touches (Ts := List.replicate 4 touchRunWait) rfl (by decide +kernel)
  case conditionMet =>
    intro b
    exact leavesRegs_of_touches (T := touchExecWaitConditionMet) rfl (by decide +kernel)
  case eventRegister =>
    intro b v
    exact leaves_of_touches (T := touchExecEventRegisterWrite) rfl (by decide +kernel) (by decide +kernel)

end Sys2Proof.Machine
end

section
/-! The MMA forms, the array BIST and the bay spare copy complete (R109, R118, R121, R215). -/

namespace Sys2Proof.Machine

/-! The MMA forms. -/

theorem runEntry_of_ready {s : State} {b : Nat} {p : Flight → Bool} {f : Flight} {o : Operands}
    (plan : State → Bay → Flight → Operands → Effect) (hf : s.ready b p = some f) (ho : s.operands (s.bay b) f = .ok o) :
    s.runEntry b p plan = s.perform b f (plan (s.viewFor b f) (s.bay b) f o) := by
  simp only [State.runEntry, hf, ho]

/-- The MMA forms differ in the form of their parameters alone. -/
theorem mmaCompletes_of_exec {c : Fin 256 → ArrayCheck → Instr} {form : Nat}
    (hc : ∀ b s, exec (c b .clean) s = .next (s.runMma b.val form .clean)) : MmaCompletes c form := by
  intro s b f o hf ho
  refine ⟨_, hc b s, _, rfl, ?_⟩
  simp only [State.runMma, hf, State.completeMma, runEntry_of_ready _ hf ho]

/-! The array BIST. -/

theorem execArrayBistComplete_of_running {s : State} {die : Fin 8} {phys : Fin 34} {x : SelfTest} (pass : Bool)
    (hx : s.runningTest 1 (die.val * 64 + phys.val) = some x) (hstage : x.stage = 0) :
    execArrayBistComplete die phys pass s = .next (if pass then
      (s.resumeBays (s.hosted die.val phys.val) false).endTest x 1
      else (s.change .bayState (die.val * 34 + phys.val) 2).failBay x die.val phys.val) := by
  cases pass <;> simp [execArrayBistComplete, hx, hstage]

/-- A bay that fails takes no spare from a die that had none. -/
theorem spareBay_change_of_none {s : State} {die : Nat} (i : Nat) {v : Nat} (hv : v % 256 ≠ 1) (h : s.spareBay die = none) :
    (s.change .bayState i v).spareBay die = none := by
  unfold State.spareBay firstIndex at *
  simp only [List.find?_eq_none, decide_eq_true_eq] at *
  intro p hp
  rw [State.reg_change _ (by decide)]
  split
  · exact hv
  · exact h p hp

/-- The failure of a bay for which no spare is left is a cause of degradation. -/
theorem degradeCause_failBay_of_noSpare {s : State} (x : SelfTest) {die : Nat} (phys : Nat) (h : s.spareBay die = none) :
    bit ((s.failBay x die phys).reg .degradeCause) 0 = true := by
  unfold State.failBay
  dsimp only
  split
  · exact degrade_bit _ 0 (by decide)
  · rw [if_pos (by simpa using h)]
    exact degrade_bit _ 0 (by decide)

theorem arrayBistComplete_completes (s : State) (die : Fin 8) (phys : Fin 34) (pass : Bool) (x : SelfTest)
    (hx : s.runningTest 1 (die.val * 64 + phys.val) = some x) (hstage : x.stage = 0) :
    Completes (.arrayBistComplete die phys pass) s fun t =>
      (pass = true → t = (s.resumeBays (s.hosted die.val phys.val) false).endTest x 1) ∧
        (pass = false → t.reg .bayState (die.val * 34 + phys.val) = 2 ∧
          (s.spareBay die.val = none → bit (t.reg .degradeCause) 0 = true)) := by
  refine ⟨_, execArrayBistComplete_of_running pass hx hstage, fun hp => if_pos hp, fun hp => ?_⟩
  subst hp
  refine ⟨?_, fun h => degradeCause_failBay_of_noSpare x phys.val (spareBay_change_of_none _ (by decide) h)⟩
  rw [if_neg Bool.false_ne_true, failBay_reg _ _ _ _ _ (by decide), State.reg_change _ (by decide), if_pos ⟨rfl, rfl⟩]
  rfl

/-! The bay spare copy. -/

theorem reg_foldl_change {r : Reg} (hr : r ∉ auditRegs) (v j : Nat) (ks : List Nat) (s : State) :
    (ks.foldl (fun (u : State) k => u.change r k v) s).reg r j = if j ∈ ks then v % r.modulus else s.reg r j := by
  induction ks generalizing s with
  | nil => simp
  | cons k ks ih =>
    rw [List.foldl_cons, ih, State.reg_change _ hr]
    by_cases hj : j ∈ ks
    · simp [hj]
    · simp [hj, eq_comm (a := k)]

theorem lbayMap_spareMapped (s : State) (die spare : Nat) {ks : List Nat} {k : Nat} (hk : k ∈ ks) :
    (s.spareMapped die spare ks).reg .lbayMap k = (die * 256 + spare) % 65536 := by
  have hmap := reg_foldl_change (r := .lbayMap) (by decide) (die * 256 + spare) k ks s
  rw [if_pos hk] at hmap
  unfold State.spareMapped
  dsimp only
  split
  · rw [useSpareBay_reg _ _ _ (by decide), State.reg_change _ (by decide), if_neg (by simp)]
    exact hmap
  · exact hmap

/-- A fresh spare that takes over is active. -/
theorem bayState_spareMapped {s : State} {die spare : Nat} (ks : List Nat) (h : s.reg .bayState (die * 34 + spare) = 1) :
    (s.spareMapped die spare ks).reg .bayState (die * 34 + spare) = 0 := by
  unfold State.spareMapped
  dsimp only
  rw [if_pos h, useSpareBay_reg _ _ _ (by decide), State.reg_change _ (by decide), if_pos ⟨rfl, rfl⟩]
  rfl

theorem baySpareCopyComplete_completes (s : State) (die : Fin 8) (phys : Fin 34) (x : SelfTest)
    (hx : s.runningTest 1 (die.val * 64 + phys.val) = some x) (hstage : x.stage = 1) :
    Completes (.baySpareCopyComplete die phys) s fun t =>
      (∀ k, k ∈ s.hosted die.val phys.val → t.reg .lbayMap k = (die.val * 256 + x.spare) % 65536) ∧
        (s.reg .bayState (die.val * 34 + x.spare) = 1 → t.reg .bayState (die.val * 34 + x.spare) = 0) ∧
        (∀ y ∈ t.tests, y.kind = x.kind → y.unit ≠ x.unit) := by
  obtain ⟨t, hexec, ht⟩ := execBaySpareCopyComplete_of_copied hx hstage rfl
  generalize hv : (s.spareMapped die.val x.spare (s.hosted die.val phys.val)).resumeBays (s.hosted die.val phys.val) true = v
    at ht
  have hsame : (∀ r j, t.reg r j = (v.endTest x 2).reg r j) ∧ t.tests = (v.endTest x 2).tests := by
    obtain rfl | rfl := ht
    · exact ⟨fun _ _ => rfl, rfl⟩
    · obtain ⟨hreg, htests, -⟩ := setBays_same (fun u k => ({ u.bay k with parked := true } : Bay).clock u.now)
        (s.hosted die.val phys.val) (v.endTest x 2)
      exact ⟨hreg, htests⟩
  obtain ⟨hreg, htests⟩ := hsame
  have hmapped : ∀ r, touchResumeBays (some r) = false → ∀ j,
      t.reg r j = (s.spareMapped die.val x.spare (s.hosted die.val phys.val)).reg r j := fun r hr j => by
    rw [hreg, endTest_reg0, ← hv, resumeBays_reg _ _ _ _ hr]
  refine ⟨t, hexec, fun k hk => ?_, fun hfresh => ?_, endTest_gone v x 2 t htests⟩
  · exact (hmapped _ (by decide) _).trans (lbayMap_spareMapped s _ _ hk)
  · exact (hmapped _ (by decide) _).trans (bayState_spareMapped _ hfresh)

/-- Settles O26: an MMA by the plan of its form, a BIST by its result, and a spare copy by the map and the bays that it leaves. -/
theorem matrixComplete : Obligations.MatrixComplete := by
  unfold Obligations.MatrixComplete
  refine ⟨?full, ?partialForm, ?combine, arrayBistComplete_completes, baySpareCopyComplete_completes⟩
  case full => exact mmaCompletes_of_exec fun _ _ => rfl
  case partialForm => exact mmaCompletes_of_exec fun _ _ => rfl
  case combine => exact mmaCompletes_of_exec fun _ _ => rfl

end Sys2Proof.Machine
end

section
/-! DIGEST, MODEL and the Tailwind copy complete (R136, R141, R462): each command by the branch of its meaning that its hypotheses
select. -/

namespace Sys2Proof.Machine

theorem execDigest_of_clean {s u : State} {b : Fin 256} {f : Flight} {o : Operands} {d : Desc}
    (hf : s.ready b.val (fun f => decide (f.op = opDigest)) = some f) (ho : s.operands (s.bay b.val) f = .ok o)
    (hd : o.a = .tensor d) (hclean : s.poisonedAny (d.digestRuns.map fun r => (r.1, r.1 + r.2)) = false)
    (hu : u = s.setBay b.val { s.bay b.val with streams := (s.bay b.val).streams.set (f.param 0 3) (some (crcFold
      (((s.bay b.val).streams.getD (f.param 0 3) none).getD crcOnes) ((s.runBytes d.digestRuns).map Prod.snd))) }) :
    execDigest b s = .next ((if s.reg .xwLog ≠ 0 ∧ s.reg .xwState = 2 then
      u.logChunks b.val (chunkRecords (f.param 0 3) f.step (s.runBytes d.digestRuns).length (s.runBytes d.digestRuns))
      else u).perform b.val f {}) := by
  subst hu
  simp [execDigest, hf, ho, hd, hclean]

/-- A MODEL binds its entry where that is bound already or its bytes are clean. -/
theorem execModel_of_ready {s : State} {b : Fin 256} {f : Flight}
    (hf : s.ready b.val (fun f => decide (f.op = opModel)) = some f)
    (hmodel : (s.bay b.val).model = some (f.param 0 16) ∨ s.modelPoisoned (f.param 0 16) = false) :
    execModel b s = .next ((s.bindModel b.val (f.param 0 16) [f.param 16 16, f.param 32 16, f.param 48 16]).perform
      b.val f {}) := by
  simp only [execModel, hf]
  rw [if_neg]
  rcases hmodel with hbound | hclean
  · simp [hbound]
  · simp [hclean]

theorem execTailwindCopyComplete_of_found {s u : State} {die : Fin 8} {e : TailwindCopy}
    (he : s.tailwind.find? (fun e => decide (e.die = die.val)) = some e)
    (hu : u = { s with tailwind := s.tailwind.filter fun (d : TailwindCopy) => d ≠ e }) :
    execTailwindCopyComplete die s = .next (if s.modelState e.index = 0 then u
      else u.place die.val e.index (e.met || u.boundOn die.val e.index)) := by
  subst hu
  unfold execTailwindCopyComplete
  rw [he]
  exact (apply_ite Host.Outcome.next (s.modelState e.index = 0) _ _).symm

/-- Settles O23: the three commands each have one branch that their hypotheses select. -/
theorem digestAndModelComplete : Obligations.DigestAndModelComplete := by
  unfold Obligations.DigestAndModelComplete
  refine ⟨?digest, ?model, ?tailwind⟩
  case digest =>
    intro s b f o d hf ho hd hclean
    exact ⟨_, execDigest_of_clean hf ho hd hclean rfl, _, rfl, rfl⟩
  case model =>
    intro s b f hf hmodel
    exact ⟨_, execModel_of_ready hf hmodel, rfl⟩
  case tailwind =>
    intro s die e he
    exact ⟨_, execTailwindCopyComplete_of_found he rfl, _, rfl, rfl⟩

end Sys2Proof.Machine
end

section
/-! The commands of the submission queues complete: jobs, copies, roster, regions and pre-emption (R129, R238, R330, R528,
R547 to R554). -/

namespace Sys2Proof.Machine

/-! A command that its queue holds and the state allows (R564). -/

theorem performCmd_of_allowed {s : State} {opc : Nat} {c : HostCmd} (f : HostCmd → State) (hcmd : s.cmdOf opc = some c)
    (hallows : s.allows opc = true) : s.performCmd opc f = f c := by
  simp only [State.performCmd, hcmd, if_pos hallows]

theorem completes_of_performCmd {i : Instr} {s t : State} {opc : Nat} {c : HostCmd} {f : HostCmd → State}
    {P : State → Prop} (hexec : exec i s = .next (s.performCmd opc f)) (hcmd : s.cmdOf opc = some c)
    (hallows : s.allows opc = true) (hP : P t) (ht : f c = t) : Completes i s P :=
  ⟨t, hexec.trans (congrArg _ ((performCmd_of_allowed f hcmd hallows).trans ht)), hP⟩

/-! JOB_LOAD (R27, R547). -/

/-- The elements of one instance take their values. -/
theorem reg_changeAll {r : Reg} (hr : r ∉ auditRegs) {s : State} {vs : List Nat} {j : Nat} (hj : j < vs.length) :
    (s.changeAll r 0 vs).reg r j = vs.getD j 0 % r.modulus := by
  have hset : (s.setRegs r (0 * r.info.elems) vs).reg r j = vs.getD j 0 % r.modulus := by
    rw [Nat.zero_mul, State.reg_setRegs, if_pos ⟨Nat.zero_le j, by omega⟩, Nat.sub_zero]
  unfold State.changeAll
  dsimp only
  split
  · rw [State.reg_auditInternal _ hr, hset]
  · exact hset

/-- The mapping that the host driver sets stands in `LBAY_MAP`. -/
theorem lbayMap_placeGiven {s : State} {map : List Half} (hok : s.mapOk map = true) (hne : map ≠ []) {b : Nat} (hb : b < 256) :
    (s.placeGiven map).reg .lbayMap b = (map.map BitVec.toNat).getD b 0 := by
  have hempty : map.isEmpty = false := by simpa using hne
  have hlen : map.length = 256 := by
    simp only [State.mapOk, hempty, Bool.false_or, Bool.and_eq_true, decide_eq_true_eq] at hok
    exact hok.1
  unfold State.placeGiven
  rw [hempty, if_neg Bool.false_ne_true, reg_changeAll (by decide) (by simpa [hlen] using hb)]
  refine Nat.mod_eq_of_lt ?_
  have hlt : b < map.length := hlen ▸ hb
  rw [List.getD_eq_getElem?_getD, List.getElem?_map, List.getElem?_eq_getElem hlt]
  exact BitVec.isLt _

theorem reg_foldl_setTableState {r : Reg} (hr : touchSetTableState (some r) = false) (v j : Nat) (bs : List Nat) (s : State) :
    (bs.foldl (fun (u : State) b => u.setTableState b v) s).reg r j = s.reg r j :=
  State.reg_foldl (fun _ _ => setTableState_reg _ _ _ _ hr _) bs s

theorem loadJob_facts (s : State) : s.loadJob.reg .jobActive = 1 ∧ s.loadJob.reg .tstep = 0 ∧ s.loadJob.bays = [] := by
  unfold State.loadJob
  refine ⟨?_, ?_, rfl⟩
  · rw [State.reg_upd, reg_foldl_setTableState (by decide), setXw_reg _ _ _ (by decide)]
    simp
  · rw [State.reg_upd, reg_foldl_setTableState (by decide), setXw_reg _ _ _ (by decide)]
    simp

/-! JOB_END and teardown (R330, R378, R528, R549). -/

/-- The end of the job: its recovery and its epoch are gone. -/
theorem retired_facts {u : State} (hu : u.recovery = none) {t : State}
    (ht : t = ((u.setRecovery 0).setReg .jobRunning 0 0).retireEpoch) :
    t.reg .jobRunning = 0 ∧ t.reg .jobEpoch = 0 ∧ t.regions = [] ∧ t.recovery = none := by
  subst ht
  obtain ⟨hepoch, hrunning, hregions, hrecovery⟩ := retireEpoch_facts ((u.setRecovery 0).setReg .jobRunning 0 0)
  exact ⟨hrunning.trans (State.reg_setReg_same ..), hepoch, hregions, hrecovery.trans ((setRecovery_recovery u 0).trans hu)⟩

theorem endJob_facts (s : State) (c : HostCmd) : (s.endJob c).reg .jobRunning = 0 ∧ (s.endJob c).reg .jobEpoch = 0 ∧
    (s.endJob c).regions = [] ∧ (s.endJob c).recovery = none := by
  unfold State.endJob
  refine retired_facts ?_ rfl
  rfl

theorem byte_clean (s : State) (lo hi a : Nat) : (s.clean lo hi).byte a = s.byte a := rfl

theorem byte_loseScratchpads_of_zero {s : State} {a : Nat} (h : s.byte a = 0) : s.loseScratchpads.byte a = 0 := by
  have hwipe : (s.wipe 0x20000000000 0x30000000000).byte a = 0 := by
    rw [State.byte_wipe]
    split
    · rfl
    · exact h
  exact hwipe

/-- The stacks between the roster and their top are wiped. -/
theorem byte_wipeJob (s : State) {a : Nat} (hlo : s.reg .rosterBytes ≤ a) (hhi : a < s.reg .stackTop) :
    s.wipeJob.byte a = 0 := by
  have hroster : (if s.reg .wipeRoster = 1 then 0 else s.reg .rosterBytes) ≤ a := by split <;> omega
  unfold State.wipeJob
  dsimp only
  rw [State.byte_upd]
  generalize (if s.reg .wipeRoster = 1 then 0 else s.reg .rosterBytes) = lo at hroster ⊢
  generalize hv : State.clean (s.recall _) _ _ = v
  have htop : v.reg .stackTop = s.reg .stackTop := hv ▸ recall_reg s _ _ (by decide) _
  have hwiped : (v.wipe lo (v.reg .stackTop)).byte a = 0 := by
    rw [State.byte_wipe, htop, if_pos ⟨hroster, hhi⟩]
  have hlost := byte_loseScratchpads_of_zero ((byte_clean _ 0x20000000000 0x30000000000 a).trans hwiped)
  split
  · exact hlost
  · exact hlost

/-- The node once the job is gone, before it enters its next state (R146, R528). -/
def State.jobGone (s : State) : State :=
  { (((s.setReg .teardownPending 0 0).setReg .jobActive 0 0).change .logicalId 0 0xFFFFFFFF).applyDeferred.fitRoster with
    jobEpochs := [] }

/-- The state that a node enters at the end of a teardown. -/
def State.tornDown (s : State) : State := if s.isIn stFaulted then s else s.enter s.ratedState

theorem execTeardownComplete_of_wiped {s : State} (hpending : s.reg .teardownPending = 2) :
    execTeardownComplete s = .next (s.jobGone.tornDown.endOpc 3 0 0) := by
  unfold execTeardownComplete
  rw [if_neg (by simp [hpending])]
  rfl

theorem reg_jobGone {s : State} (hd : s.deferred = []) {r : Reg} (hr : r ∉ auditRegs) (hfit : touchFitRoster (some r) = false)
    (j : Nat) : s.jobGone.reg r j = if .logicalId = r ∧ 0 = j then 0xFFFFFFFF else
      ((s.setReg .teardownPending 0 0).setReg .jobActive 0 0).reg r j := by
  unfold State.jobGone
  rw [reg_jobEpochs, fitRoster_reg _ _ hfit, applyDeferred_nil _ (by simpa using hd), State.reg_change _ hr]
  rfl

theorem reg_tornDown (s : State) {r : Reg} (hr : r ∉ auditRegs) (hstate : .nodeState ≠ r) (j : Nat) :
    s.tornDown.reg r j = s.reg r j := by
  unfold State.tornDown State.enter
  split
  · rfl
  · rw [State.reg_change _ hr, if_neg fun h => hstate h.1]

theorem nodeState_tornDown {s : State} (hfaulted : s.reg .nodeState ≠ 7) (hrunning : s.reg .jobRunning = 0) :
    s.tornDown.reg .nodeState = if s.reg .degradeCause = 0 ∧ s.reg .nodeState ≠ 6 then 3 else 6 := by
  unfold State.tornDown State.enter State.ratedState State.isIn
  rw [if_neg (by simpa using hfaulted), State.reg_change _ (by decide), if_pos ⟨rfl, rfl⟩]
  by_cases hcause : s.reg .degradeCause = 0 <;> by_cases hdegraded : s.reg .nodeState = 6 <;>
    simp [hcause, hdegraded, hrunning, stReady, stDegraded]

theorem jobGone_tornDown_facts {s : State} (hd : s.deferred = []) :
    s.jobGone.tornDown.reg .jobActive = 0 ∧ s.jobGone.tornDown.reg .teardownPending = 0 ∧
      s.jobGone.tornDown.reg .logicalId = 0xFFFFFFFF ∧ (s.reg .nodeState ≠ 7 → s.reg .jobRunning = 0 →
        s.jobGone.tornDown.reg .nodeState = if s.reg .degradeCause = 0 ∧ s.reg .nodeState ≠ 6 then 3 else 6) := by
  have hactive : s.jobGone.reg .jobActive = 0 := by rw [reg_jobGone hd (by decide) (by decide)]; simp
  have hpending : s.jobGone.reg .teardownPending = 0 := by rw [reg_jobGone hd (by decide) (by decide)]; simp
  have hlogical : s.jobGone.reg .logicalId = 0xFFFFFFFF := by rw [reg_jobGone hd (by decide) (by decide)]; simp
  have hnode : s.jobGone.reg .nodeState = s.reg .nodeState := by rw [reg_jobGone hd (by decide) (by decide)]; simp
  have hcause : s.jobGone.reg .degradeCause = s.reg .degradeCause := by
    rw [reg_jobGone hd (by decide) (by decide)]; simp
  have hrunning : s.jobGone.reg .jobRunning = s.reg .jobRunning := by
    rw [reg_jobGone hd (by decide) (by decide)]; simp
  generalize s.jobGone = u at *
  refine ⟨(reg_tornDown u (by decide) (by decide) 0).trans hactive, (reg_tornDown u (by decide) (by decide) 0).trans hpending,
    (reg_tornDown u (by decide) (by decide) 0).trans hlogical, fun hf hr => ?_⟩
  rw [nodeState_tornDown (by rw [hnode]; exact hf) (by rw [hrunning]; exact hr), hnode, hcause]

theorem jobEpochs_tornDown (s : State) : s.tornDown.jobEpochs = s.jobEpochs := by
  unfold State.tornDown State.enter
  split
  · rfl
  · exact State.jobEpochs_change ..

/-! The roster (R135, R551). -/

theorem recent_write_countModels (s : State) (a : Nat) (bs : List Byte) : (s.write a bs).countModels.recent = s.recent :=
  (State.recent_setReg ..).trans (State.recent_write ..)

/-- The model leaves the roster, and with it what the lists of its copies and its bindings held of it. -/
theorem execRosterDeregister_of_unbound {s w : State} {c : HostCmd} (hcmd : s.cmdOf 0x11 = some c)
    (hallows : s.allows 0x11 = true) (hindex : c.arg1 < 4096) (hbound : s.boundAny c.arg1 = false)
    (hw : w = (s.write (s.reg .rosterBase + 64 * c.arg1) (List.replicate 64 0)).countModels) :
    execRosterDeregister s = .next (State.endCmd { w with
      copies := s.copies.filter fun (x : ModelCopy) => x.index ≠ c.arg1
      tailwind := s.tailwind.filter fun (e : TailwindCopy) => e.index ≠ c.arg1
      recent := s.recent.filter fun e => e.1 % 4096 ≠ c.arg1 } c 0 0) := by
  obtain ⟨hcopies, htailwind⟩ := write_countModels s (s.reg .rosterBase + 64 * c.arg1) (List.replicate 64 0)
  have hrecent := recent_write_countModels s (s.reg .rosterBase + 64 * c.arg1) (List.replicate 64 0)
  unfold execRosterDeregister
  rw [performCmd_of_allowed _ hcmd hallows, if_neg (Nat.not_le.2 hindex), if_neg (by simp [hbound])]
  dsimp only
  rw [← hw] at *
  rw [hcopies, htailwind, hrecent]

/-! Pre-emption (R129, R237, R238, R553, R554). -/

theorem bay_change (s : State) (r : Reg) (i v k : Nat) : (s.change r i v).bay k = s.bay k := by
  simp [State.bay]

theorem bay_logError (s : State) (e : ErrorEvent) (k : Nat) : (s.logError e).bay k = s.bay k := by
  simp [State.bay]

theorem execBayPreempt_of_undeferred {s : State} {c : HostCmd} (hcmd : s.cmdOf 0x21 = some c) (hallows : s.allows 0x21 = true)
    (hbay : c.arg0 < 256) (hpresent : (s.bay c.arg0).present = true)
    (hstate : s.tableState c.arg0 = tsRunning ∨ s.tableState c.arg0 = tsWaiting) (hpreempt : (s.bay c.arg0).preempt = 0)
    (hreach : s.reaches (s.contextBase c.arg0) (s.contextBase c.arg0 + 0x14C000) = true)
    (hcoll : (s.bay c.arg0).collOpen = false) :
    execBayPreempt s = .next (((s.keepCmd c).write (s.contextBase c.arg0) [0]).setBay c.arg0
      { s.bay c.arg0 with preempt := 1 }) := by
  have hbase : (s.keepCmd c).contextBase c.arg0 = s.contextBase c.arg0 := rfl
  have hbyte : leBytes 1 0 = [0] := rfl
  unfold execBayPreempt
  rw [performCmd_of_allowed _ hcmd hallows]
  simp only [hpresent, hpreempt, hcoll, hbase, hbyte, State.contextReached, hreach]
  have hruns : (decide (s.tableState c.arg0 = tsRunning) || decide (s.tableState c.arg0 = tsWaiting)) = true := by
    rw [Bool.or_eq_true, decide_eq_true_eq, decide_eq_true_eq]
    exact hstate
  rw [if_neg (Nat.not_le.2 hbay), hruns, if_neg (by decide)]
  rfl

theorem bayResume_completes (s : State) (c : HostCmd) (hcmd : s.cmdOf 0x20 = some c) (hallows : s.allows 0x20 = true)
    (hbay : c.arg0 < 256) (hpresent : (s.bay c.arg0).present = true)
    (hstate : s.tableState c.arg0 = tsHalted ∨ s.tableState c.arg0 = tsPreempted) :
    Completes .bayResume s fun t =>
      (s.tableState c.arg0 = tsHalted → t = (s.resumeHalted c.arg0).endCmd c 0 0) ∧
        (s.tableState c.arg0 = tsPreempted → t = s.resumeSaved c c.arg0) := by
  obtain hhalted | hpreempted := hstate
  · refine completes_of_performCmd rfl hcmd hallows (t := (s.resumeHalted c.arg0).endCmd c 0 0)
      ⟨fun _ => rfl, fun h => absurd (hhalted.symm.trans h) (by decide)⟩ ?_
    simp only [hpresent, hhalted]
    rw [if_neg (Nat.not_le.2 hbay)]
    rfl
  · refine completes_of_performCmd rfl hcmd hallows (t := s.resumeSaved c c.arg0)
      ⟨fun h => absurd (hpreempted.symm.trans h) (by decide), fun _ => rfl⟩ ?_
    simp only [hpresent, hpreempted]
    rw [if_neg (Nat.not_le.2 hbay)]
    rfl

/-- The context of bay `b` is in memory, and the bay is pre-empted (R129, R237). -/
def State.contextSaved (s : State) (b : Nat) : State :=
  let x := (s.bay b).takeBack
  let u := (s.saveContext b x).setBay b (({ x with preempt := 3, parked := false, stored := false } : Bay).clock s.now)
  (u.setReg .ctxOf b (u.reg .lbayMap b)).setTableState b tsPreempted

/-- After a save the next logical bay of the physical bay may go on, and the command that asked for it ends. -/
theorem execContextSaveComplete_cases {s : State} {b : Fin 256} (hpreempt : (s.bay b.val).preempt ≠ 0)
    (hsparing : (s.bay b.val).sparing = 0) (hdone : (s.bay b.val).stepDone = true) (hstate : s.tableState b.val ≠ tsPreempted) :
    ∃ t u, execContextSaveComplete b s = .next t ∧ (t = u ∨ ∃ c, t = u.endCmd c 0 0) ∧
      (u = s.contextSaved b.val ∨ ∃ k ∈ (s.contextSaved b.val).sharers b.val, u = (s.contextSaved b.val).unparkBay k) := by
  have hgo : ¬((decide ((s.bay b.val).preempt = 0) || decide ((s.bay b.val).sparing ≠ 0) || !(s.bay b.val).stepDone ||
      decide (s.tableState b.val = tsPreempted)) = true) := by
    simp [hpreempt, hsparing, hdone, hstate]
  unfold execContextSaveComplete
  dsimp only
  rw [if_neg hgo]
  split
  case' h_1 c _ => refine ⟨_, _, rfl, .inr ⟨c, rfl⟩, ?_⟩
  case' h_2 => refine ⟨_, _, rfl, .inl rfl, ?_⟩
  all_goals
    split
    · next k hk => exact .inr ⟨k, List.mem_of_find?_eq_some hk, rfl⟩
    · exact .inl rfl

theorem Bay.clock_preempt (x : Bay) (now : Nat) : (x.clock now).preempt = x.preempt := by
  unfold Bay.clock
  split
  · split <;> rfl
  · split <;> rfl

theorem contextSaved_bay_self (s : State) (b : Nat) : ((s.contextSaved b).bay b).preempt = 3 := by
  unfold State.contextSaved State.setTableState
  dsimp only
  rw [bay_change, State.bay_setReg, State.bay_setBay, if_pos rfl, Bay.clock_preempt]

theorem bay_saveContext (s : State) (b : Nat) (x : Bay) (k : Nat) : (s.saveContext b x).bay k = s.bay k := by
  simp [State.saveContext, State.bay]

theorem contextSaved_bay_of_ne (s : State) {b k : Nat} (h : k ≠ b) : (s.contextSaved b).bay k = s.bay k := by
  unfold State.contextSaved State.setTableState
  dsimp only
  rw [bay_change, State.bay_setReg, State.bay_setBay, if_neg h.symm, bay_saveContext]

theorem contextSaved_lbayMap (s : State) (b k : Nat) : (s.contextSaved b).reg .lbayMap k = s.reg .lbayMap k := by
  unfold State.contextSaved
  dsimp only
  rw [setTableState_reg _ _ _ _ (by decide), State.reg_setReg_ne _ (by decide), State.reg_setBay,
    saveContext_reg _ _ _ _ (by decide)]

theorem contextSaved_ctxOf (s : State) (b : Nat) : (s.contextSaved b).reg .ctxOf b = s.reg .lbayMap b % 65536 := by
  unfold State.contextSaved
  dsimp only
  rw [setTableState_reg _ _ _ _ (by decide), State.reg_setReg_same, State.reg_setBay, saveContext_reg _ _ _ _ (by decide)]
  rfl

theorem contextSaved_sharers (s : State) (b : Nat) : (s.contextSaved b).sharers b = s.sharers b := by
  simp only [State.sharers, contextSaved_lbayMap]

/-- A bay whose context has not left it goes on without a restore (R124). -/
theorem unparkBay_of_unstored {s : State} {k : Nat} (h : (s.bay k).stored = false) :
    s.unparkBay k = s.setBay k (({ s.bay k with parked := false, stored := false } : Bay).clock s.now) := by
  simp [State.unparkBay, h]

theorem contextSaveComplete_completes (s : State) (b : Fin 256) (hpreempt : (s.bay b.val).preempt ≠ 0)
    (hsparing : (s.bay b.val).sparing = 0) (hdone : (s.bay b.val).stepDone = true) (hstate : s.tableState b.val ≠ tsPreempted)
    (hstored : ((s.sharers b.val).any fun k => (s.bay k).stored) = false) :
    Completes (.contextSaveComplete b) s fun t =>
      ∃ u : State, (t = u ∨ ∃ c, t = u.endCmd c 0 0) ∧ (u.bay b).preempt = 3 ∧
        u.reg .ctxOf b = s.reg .lbayMap b % 65536 := by
  obtain ⟨t, u, hexec, ht, hu⟩ := execContextSaveComplete_cases hpreempt hsparing hdone hstate
  refine ⟨t, hexec, u, ht, ?_⟩
  obtain hu | ⟨k, hk, hu⟩ := hu
  · exact hu ▸ ⟨contextSaved_bay_self s b, contextSaved_ctxOf s b⟩
  · rw [contextSaved_sharers] at hk
    have hne : k ≠ b.val := by
      simp only [State.sharers, List.mem_filter, Bool.and_eq_true, decide_eq_true_eq] at hk
      obtain ⟨-, hne, -⟩ := hk
      exact hne
    have hk' : ((s.contextSaved b.val).bay k).stored = false := by
      rw [contextSaved_bay_of_ne s hne]
      simpa using List.any_eq_false.1 hstored k hk
    rw [hu, unparkBay_of_unstored hk', State.bay_setBay, if_neg hne, State.reg_setBay]
    exact ⟨contextSaved_bay_self s b, contextSaved_ctxOf s b⟩

/-- The COLL has reached its deadline: the bay runs on, which is logged, and the command that asked for it ends. -/
theorem preemptDeferralExpiry_completes (s : State) (b : Fin 256) (hpreempt : (s.bay b.val).preempt = 2)
    (hcoll : (s.bay b.val).collOpen = true) :
    Completes (.preemptDeferralExpiry b) s fun t =>
      ∃ u : State, (t = u ∨ ∃ c, t = u.endCmd c 0x1A b.val) ∧ (u.bay b).preempt = 0 ∧ Records s u 0x1A 5 0 0x0F b.val := by
  generalize hv : s.setBay b.val { s.bay b.val with preempt := 0 } = v
  generalize hu : v.logError { code := 0x1A, severity := 5, unitKind := 0x0F, unit := b.val, lbay := b.val } = u
  have hbay : (u.bay b).preempt = 0 := by
    rw [← hu, bay_logError, ← hv, State.bay_setBay, if_pos rfl]
  have hrecords : Records s u 0x1A 5 0 0x0F b.val := by
    have hup : v.supervisorUp = s.supervisorUp := hv ▸ rfl
    have hhead : v.reg .errorHead = s.reg .errorHead := hv ▸ rfl
    exact hu ▸ records_of hup hhead
  have hexec : ∃ t, execPreemptDeferralExpiry b s = .next t ∧ (t = u ∨ ∃ c, t = u.endCmd c 0x1A b.val) := by
    unfold execPreemptDeferralExpiry
    dsimp only
    rw [if_neg (by simp [hpreempt, hcoll]), hv, hu]
    split
    · next c _ => exact ⟨_, rfl, .inr ⟨c, rfl⟩⟩
    · exact ⟨_, rfl, .inl rfl⟩
  obtain ⟨t, hnext, ht⟩ := hexec
  exact ⟨t, hnext, u, ht, hbay, hrecords⟩

/-- Settles O14: a command that its queue holds and the state allows takes the branch that its hypotheses select; what that
branch leaves is in the lemmas of the loading, the end and the teardown of a job, of its wipe and of a saved context. -/
theorem jobCommandsComplete : Obligations.JobCommandsComplete := by
  unfold Obligations.JobCommandsComplete
  refine ⟨?jobLoad, ?jobStart, ?jobStartTimeout, ?jobEnd, ?wipe, ?teardown, ?copyTo, ?copyFrom, ?rosterRegister,
    ?rosterDeregister, ?regionRegister, ?regionDeregister, ?preempt, ?resume, ?contextSave, ?deferralExpiry⟩
  case jobLoad =>
    intro s c map hcmd hallows hloaded hstart hfail hpulses hmap
    obtain ⟨hactive, htstep, hbays⟩ := loadJob_facts (s.placeGiven map)
    refine completes_of_performCmd rfl hcmd hallows ⟨_, rfl, rfl, hactive, htstep, hbays, fun hne b hb => ?_⟩
      (by simp [hloaded, hstart, hfail, hpulses, hmap])
    exact (loadJob_reg _ _ (by decide) _).trans (lbayMap_placeGiven hmap hne hb)
  case jobStart =>
    intro s c hcmd hallows hrunning hstart hrecovery
    exact completes_of_performCmd rfl hcmd hallows rfl (by simp [hrunning, hstart, hrecovery])
  case jobStartTimeout =>
    intro s c hstart hmem hopc hstarted harg
    have hany : s.cmds.any (fun c => c.opc = 2 && c.started && c.arg0 ≠ 0) = true :=
      List.any_eq_true.2 ⟨c, hmem, by simp [hopc, hstarted, harg]⟩
    exact ⟨_, if_pos (by simp only [hstart, hany]; decide), rfl⟩
  case jobEnd =>
    intro s c hcmd hallows hpending
    exact completes_of_performCmd rfl hcmd hallows ⟨rfl, endJob_facts s c⟩ (by simp [hpending])
  case wipe =>
    intro s hpending hcopies
    have hgo : ¬((decide (s.reg .teardownPending ≠ 1) ||
        s.cmds.any fun c => (decide (c.opc = 8) || decide (c.opc = 9)) && s.mayRun c) = true) := by
      simp only [hpending, hcopies]
      decide
    exact ⟨_, if_neg hgo, State.reg_setReg_same .., rfl, rfl, rfl, fun a hlo hhi => byte_wipeJob s hlo hhi⟩
  case teardown =>
    intro s hpending
    exact ⟨_, execTeardownComplete_of_wiped hpending, _, rfl, jobEpochs_tornDown _, jobGone_tornDown_facts⟩
  case copyTo =>
    intro s c data hcmd hallows hrefusal hlen
    exact completes_of_performCmd rfl hcmd hallows rfl (by simp [hrefusal, hlen])
  case copyFrom =>
    intro s c hcmd hallows hrefusal hclean
    have hclean' : (s.send (.hostWrite c.arg0 (s.bytes c.arg1 c.arg2))).firstPoison c.arg1 c.arg2 = none := hclean
    exact completes_of_performCmd rfl hcmd hallows rfl (by simp only [hrefusal, hclean'])
  case rosterRegister =>
    intro s c image descs weights p hcmd hallows hsrc himage hdescs hweights hindex hfree hok hplace
    refine completes_of_performCmd rfl hcmd hallows rfl ?_
    simp [hsrc, himage, hdescs, hweights, Nat.not_le.2 hindex, hfree, hok, hplace]
  case rosterDeregister =>
    intro s c hcmd hallows hindex hbound
    exact ⟨_, execRosterDeregister_of_unbound hcmd hallows hindex hbound rfl, _, rfl, rfl⟩
  case regionRegister =>
    intro s c image hcmd hallows hsrc himage hok
    exact completes_of_performCmd rfl hcmd hallows rfl (by simp [hsrc, himage, hok])
  case regionDeregister =>
    intro s c hcmd hallows hregion
    exact completes_of_performCmd rfl hcmd hallows rfl (if_neg (by simp [Option.isSome_iff_ne_none.1 hregion]))
  case preempt =>
    intro s c hcmd hallows hbay hpresent hstate hpreempt hreach hcoll
    exact ⟨_, execBayPreempt_of_undeferred hcmd hallows hbay hpresent hstate hpreempt hreach hcoll, rfl⟩
  case resume => exact bayResume_completes
  case contextSave => exact contextSaveComplete_completes
  case deferralExpiry => exact preemptDeferralExpiry_completes

end Sys2Proof.Machine
end

section
/-! Predicate P0 of a bay (R163): what an effect leaves of the predicates. -/

namespace Sys2Proof.Machine

theorem Bay.pred_zero (x : Bay) : x.pred 0 = 2 ^ 64 - 1 := if_pos rfl

theorem Bay.pred_of_ne_zero (x : Bay) {p : Nat} (hp : p ≠ 0) : x.pred p = x.preds.getD p 0 := if_neg hp

theorem Bay.preds_apply_of_pred_zero (x : Bay) {e : Effect} {v : Nat} (he : e.pred = some (0, v)) :
    (x.apply e).preds = x.preds := by
  simp [Bay.apply, he]

theorem Bay.preds_apply_of_pred (x : Bay) {e : Effect} {v p : Nat} (he : e.pred = some (p, v)) (hp : p ≠ 0) :
    (x.apply e).preds = x.preds.set p v := by
  simp [Bay.apply, he]

theorem Bay.pred_congr {x y : Bay} (h : x.preds = y.preds) (p : Nat) : x.pred p = y.pred p := by
  unfold Bay.pred
  rw [h]

theorem Bay.pred_apply_same (x : Bay) {e : Effect} {v p : Nat} (he : e.pred = some (p, v)) (hp : p ≠ 0)
    (hlen : p < x.preds.length) : (x.apply e).pred p = v := by
  rw [Bay.pred_of_ne_zero _ hp, x.preds_apply_of_pred he hp]
  simp [hlen]

theorem Bay.pred_apply_other (x : Bay) {e : Effect} {v p k : Nat} (he : e.pred = some (p, v)) (hp : p ≠ 0) (hk : k ≠ p) :
    (x.apply e).pred k = x.pred k := by
  by_cases h0 : k = 0
  · rw [h0, Bay.pred_zero, Bay.pred_zero]
  · rw [Bay.pred_of_ne_zero _ h0, Bay.pred_of_ne_zero _ h0, x.preds_apply_of_pred he hp, List.getD_eq_getElem?_getD,
      List.getD_eq_getElem?_getD, List.getElem?_set_ne hk.symm]

theorem active_allOnes (i : Nat) : active (2 ^ 64 - 1) i = true := by
  rw [active, bit, Nat.testBit_two_pow_sub_one]
  exact decide_eq_true (Nat.mod_lt i (by decide))

/-- Settles O57: a read of P0 does not look at the predicates, which a write of P0 leaves and a write of another sets at its
place alone. -/
theorem predicateZeroIsAllOnes : Obligations.PredicateZeroIsAllOnes := by
  unfold Obligations.PredicateZeroIsAllOnes
  refine ⟨Bay.pred_zero, ?writeZero, ?writeOther, active_allOnes⟩
  case writeZero =>
    intro x e v p he
    exact Bay.pred_congr (x.preds_apply_of_pred_zero he) p
  case writeOther =>
    intro x e v p k he hlen hpos
    have hp : p ≠ 0 := Nat.ne_of_gt hpos
    exact ⟨x.pred_apply_same he hp hlen, x.pred_apply_other he hp⟩

end Sys2Proof.Machine
end

section
/-! The functions of VOP and VRED complete (R157, R159, R165, R167 to R169, R216). -/

namespace Sys2Proof.Machine

/-- The VOP commands differ in their function alone. -/
theorem vopCompletes_of_exec {c : Fin 256 → Instr} {fn : Nat}
    (hc : ∀ b s, exec (c b) s = .next (s.runVector b.val opVop fn)) : VectorCompletes c opVop fn State.planVop :=
  vector_ok hc (if_pos rfl).symm

/-- The VRED commands differ in their function alone. -/
theorem vredCompletes_of_exec {c : Fin 256 → Instr} {fn : Nat}
    (hc : ∀ b s, exec (c b) s = .next (s.runVector b.val opVred fn)) : VectorCompletes c opVred fn State.planVred :=
  vector_ok hc (if_neg (by decide)).symm

/-- Settles O24: each command runs the vector entries of its function, by the plan of a VOP. -/
theorem vopComplete : Obligations.VopComplete := by
  unfold Obligations.VopComplete
  and_intros
  all_goals exact vopCompletes_of_exec fun _ _ => rfl

/-- Settles O25: each command runs the vector entries of its function, by the plan of a VRED. -/
theorem vredComplete : Obligations.VredComplete := by
  unfold Obligations.VredComplete
  and_intros
  all_goals exact vredCompletes_of_exec fun _ _ => rfl

end Sys2Proof.Machine
end

section
/-! The functions of TRANS and HIST complete (R91, R182, R183, R191, R220). -/

namespace Sys2Proof.Machine

/-- A coupler that is not in its self-test holds no entry back (R484). -/
theorem ready_of_originFree {s : State} {b : Nat} (p : Flight → Bool) (hfree : s.originHeld b = false) :
    (s.ready b fun f => p f && !s.originHeld b) = s.ready b p := by
  simp only [hfree, Bool.not_false, Bool.and_true]

/-! TRANS: its start, and the parts of it that the couplers write. -/

/-- The TRANS commands differ in their function alone. -/
theorem transCompletes_of_exec {c : Fin 256 → Instr} {tfn : Nat}
    (hc : ∀ b s, exec (c b) s = .next (s.runTrans b.val tfn)) : TransCompletes c tfn := by
  intro s b f a d x y hfree hf ho
  refine ⟨_, hc b s, ?_⟩
  simp only [State.runTrans, (ready_of_originFree _ hfree).trans hf, ho]

section
variable {s : State} {b : Fin 256} {c : Fin 8} {f : Flight}
  (hf : (s.bay b.val).flights.find? (fun f => decide (f.op = opTrans) && decide (f.phase = 1) && f.plan.any fun p =>
    decide (s.servingCoupler p.1 = c.val)) = some f)
  (hfree : s.inTest 8 c.val = false)
include hf hfree

/-- A part after which others are left: the coupler writes its own, and the entry keeps the rest. -/
theorem execTransPartComplete_of_more (hmore : ∃ p ∈ f.plan, s.servingCoupler p.1 ≠ c.val) :
    execTransPartComplete b c s = .next (((f.plan.filter fun p => decide (s.servingCoupler p.1 = c.val)).foldl
      (fun (u : State) p => u.writeCoupler p.2.1 p.2.2) s).setFlight b.val
        { f with plan := f.plan.filter fun p => !decide (s.servingCoupler p.1 = c.val) }) := by
  have hrest : (f.plan.filter fun p => !decide (s.servingCoupler p.1 = c.val)).isEmpty = false := by
    simpa [List.isEmpty_eq_false_iff] using hmore
  simp only [execTransPartComplete, hfree, Bool.not_false, Bool.and_true, hf, hrest, ↓reduceIte]

/-- The last part counts the elements of the TRANS and ends it. -/
theorem execTransPartComplete_of_last (hlast : ∀ p ∈ f.plan, s.servingCoupler p.1 = c.val) :
    ∃ (u : State) (g : Flight),
      execTransPartComplete b c s = .next ((u.addReg .transElements 0 f.elems).setFlight b.val g) ∧
        g.serial = f.serial ∧ g.plan = [] ∧ g.phase = 2 ∧ g.executed = true := by
  have hrest : (f.plan.filter fun p => !decide (s.servingCoupler p.1 = c.val)).isEmpty = true := by
    simpa [List.isEmpty_iff] using hlast
  simp only [execTransPartComplete, hfree, Bool.not_false, Bool.and_true, hf, hrest, Bool.not_true, Bool.false_eq_true,
    ↓reduceIte]
  exact ⟨_, _, rfl, rfl, rfl, rfl, rfl⟩

end

/-! HIST. -/

theorem runHist_of_ready {s : State} {b fn : Nat} {f : Flight} {o : Operands} (plan : State → Flight → Operands → Effect)
    (hfree : s.originHeld b = false)
    (hf : s.ready b (fun f => decide (f.op = opHist) && decide (f.param 0 3 = fn)) = some f)
    (ho : s.operands (s.bay b) f = .ok o) : s.runHist b fn plan = s.perform b f (plan (s.viewFor b f) f o) :=
  runEntry_of_ready (fun v _ f o => plan v f o) ((ready_of_originFree _ hfree).trans hf) ho

/-- The HIST commands but CARRY differ in their function and plan alone. -/
theorem histCompletes_of_exec {c : Fin 256 → Instr} {fn : Nat} {plan : State → Flight → Operands → Effect}
    (hc : ∀ b s, exec (c b) s = .next (s.runHist b.val fn plan)) : HistCompletes c fn plan :=
  fun s b _ _ hfree hf ho => ⟨_, hc b s, runHist_of_ready plan hfree hf ho⟩

/-- A CARRY of an area whose record is empty, and not poisoned, counts a miss (R191). -/
theorem execHistCarry_of_ready {s u v : State} {b : Fin 256} {f : Flight} {x y z : Operand} {d : Desc}
    (hfree : s.originHeld b.val = false)
    (hf : s.ready b.val (fun f => decide (f.op = opHist) && decide (f.param 0 3 = 1)) = some f)
    (ho : s.operands (s.bay b.val) f = .ok ⟨x, y, .tensor d, z⟩) (hv : v = s.viewFor b.val f)
    (hu : u = s.perform b.val f (v.unpoisoned [(d.record, d.record + 640)] (if v.carries d.record then
      { writes := [(d.scale, leBytes 4 (v.coarseFrom (v.recordExp d.record))), (d.record, [0])] } else {}))) :
    execHistCarry b s = .next (if v.carries d.record || v.poisonedAny [(d.record, d.record + 640)] then u
      else u.addReg .transCarryMisses 0 1) := by
  subst hv hu
  simp only [execHistCarry, runHist_of_ready _ hfree hf ho, (ready_of_originFree _ hfree).trans hf, ho]
  cases (s.viewFor b.val f).carries d.record <;>
    cases (s.viewFor b.val f).poisonedAny [(d.record, d.record + 640)] <;> rfl

/-- Settles O28: the starts of TRANS and the plans of HIST by their shared shapes, a part by whether others are left, and CARRY
by whether its record is empty. -/
theorem couplersComplete : Obligations.CouplersComplete := by
  unfold Obligations.CouplersComplete
  refine ⟨?encode, ?decode, ?recode, ?convert, ?part, ?clear, ?copy, ?merge, ?scan, ?carry⟩
  case encode => exact transCompletes_of_exec fun _ _ => rfl
  case decode => exact transCompletes_of_exec fun _ _ => rfl
  case recode => exact transCompletes_of_exec fun _ _ => rfl
  case convert => exact transCompletes_of_exec fun _ _ => rfl
  case part =>
    intro s b c f hf hfree
    by_cases hlast : ∀ p ∈ f.plan, s.servingCoupler p.1 = c.val
    · obtain ⟨u, g, hexec, hg⟩ := execTransPartComplete_of_last hf hfree hlast
      exact ⟨_, hexec, fun ⟨p, hp, hne⟩ => absurd (hlast p hp) hne, fun _ => ⟨u, g, rfl, hg⟩⟩
    · have hmore : ∃ p ∈ f.plan, s.servingCoupler p.1 ≠ c.val := by simpa using hlast
      exact ⟨_, execTransPartComplete_of_more hf hfree hmore, fun _ => rfl, fun h => absurd h hlast⟩
  case clear => exact histCompletes_of_exec fun _ _ => rfl
  case copy => exact histCompletes_of_exec fun _ _ => rfl
  case merge => exact histCompletes_of_exec fun _ _ => rfl
  case scan => exact histCompletes_of_exec fun _ _ => rfl
  case carry =>
    intro s b f x y z d hfree hf ho
    exact ⟨_, execHistCarry_of_ready hfree hf ho rfl rfl, _, _, rfl, rfl, rfl⟩

end Sys2Proof.Machine
end

section
/-! EPOCH, deadlines, fence messages and the job barrier complete (R222, R228, R379, R441). -/

namespace Sys2Proof.Machine

/-! EPOCH (R222, R450, R467). -/

/-- What an EPOCH that `DET_EXPECT` does not refuse does: it waits, sends the pairing message, and joins the fence. -/
theorem execEpoch_of_accepted {s u v : State} {b : Fin 256} {f : Flight}
    (hf : s.ready b.val (fun f => decide (f.op = opEpoch)) = some f) (hepoch : f.param 0 16 = s.reg .jobEpoch)
    (hexpect : s.reg .detExpect = 0 ∨ s.reg .detExpect = s.detSignature) (hu : u = s.stillWaits b.val f)
    (hv : v = if u.reg .xwEnable = 1 ∧ u.reg .xwState = xwOff then
      ((u.setXw xwPairing).tellPartner (.xwPair (some u.ownPairing))).decidePairing else u) :
    execEpoch b s = .next v.joinFence.settleEpochs := by
  have hsame : ¬ (¬ s.reg .detExpect = 0 ∧ ¬ s.reg .detExpect = s.detSignature) := fun h => hexpect.elim h.1 h.2
  subst hu hv
  simp [execEpoch, hf, hepoch, hsame]

/-! DEADLINE_MISSED (R227, R228). -/

/-- The mark of a missed deadline on the entry of serial `n`. -/
def Flight.late (halts : Bool) (n : Nat) (g : Flight) : Flight :=
  if g.serial = n then { g with rflags := g.rflags ||| 1, halts := g.halts || halts } else g

/-- The record of a missed deadline. -/
def missedDeadline (b : Nat) (f : Flight) : ErrorEvent :=
  { code := 0x0C, severity := 5, outcome := 5, unitKind := 0x0F, unit := b, step := f.step, lbay := b }

/-- The deadline of entry `f` is missed: marked, counted and recorded. -/
def State.missDeadline (s : State) (b : Nat) (f : Flight) : State :=
  let mark := Flight.late (decide (s.reg .deadlinePolicy = 1)) f.serial
  ((s.setBay b { s.bay b with colls := (s.bay b).colls.map mark, flights := (s.bay b).flights.map mark }).addReg
    .deadlinesMissed 0 1).logError (missedDeadline b f)

/-- A pairing whose partner the EPOCH of a missed deadline cannot reach is refused (R468). -/
def State.refuseLatePairing (s : State) (f : Flight) : State :=
  if f.op = opEpoch && s.reg .xwState = xwPairing && (s.hopTo (s.reg .xwPartner)).isNone then
    (s.refusePairing 6).settleEpochs
  else s

theorem execDeadlineMissed_of_running {s : State} {b : Fin 256} {k : Nat} {f : Flight}
    (hf : ((s.bay b.val).colls ++ (s.bay b.val).flights)[k]? = some f) (hfirst : bit f.rflags 0 = false)
    (hruns : (s.bay b.val).stops = false) :
    execDeadlineMissed b k s = .next (if s.reg .deadlinePolicy = 2 then
      ((s.missDeadline b.val f).refuseLatePairing f).requestLull else (s.missDeadline b.val f).refuseLatePairing f) := by
  simp only [execDeadlineMissed, hf, hfirst, hruns]
  rfl

theorem deadlinesMissed_missDeadline (s : State) (b : Nat) (f : Flight) :
    (s.missDeadline b f).reg .deadlinesMissed = (s.reg .deadlinesMissed + 1) % Reg.modulus .deadlinesMissed := by
  unfold State.missDeadline
  rw [logError_reg _ _ _ (by decide)]
  simp

theorem records_missDeadline (s : State) (b : Nat) (f : Flight) : Records s (s.missDeadline b f) 0x0C 5 5 0x0F b := by
  refine records_of (e := missedDeadline b f) ?_ ?_
  · simp [State.supervisorUp]
  · simp

theorem deadlinesMissed_refuseLatePairing (s : State) (f : Flight) :
    (s.refuseLatePairing f).reg .deadlinesMissed = s.reg .deadlinesMissed := by
  unfold State.refuseLatePairing
  split
  · rw [settleEpochs_reg _ _ (by decide), refusePairing_reg _ _ _ (by decide)]
  · rfl

theorem refuseLatePairing_of_other {f : Flight} (hop : f.op ≠ opEpoch) (s : State) : s.refuseLatePairing f = s := by
  simp [State.refuseLatePairing, hop]

theorem errorLog_requestLull (s : State) : s.requestLull.errorLog = s.errorLog := by
  unfold State.requestLull
  split
  · exact State.errorLog_change ..
  · rfl

theorem deadlineMissed_completes (s : State) (b : Fin 256) (k : Nat) (f : Flight)
    (hf : ((s.bay b.val).colls ++ (s.bay b.val).flights)[k]? = some f) (hfirst : bit f.rflags 0 = false)
    (hruns : (s.bay b.val).stops = false) :
    Completes (.deadlineMissed b k) s fun t =>
      t.reg .deadlinesMissed = (s.reg .deadlinesMissed + 1) % Reg.modulus .deadlinesMissed ∧
        (f.op ≠ opEpoch → Records s t 0x0C 5 5 0x0F b.val) := by
  have hcount := deadlinesMissed_missDeadline s b.val f
  have hrecords := records_missDeadline s b.val f
  refine ⟨_, execDeadlineMissed_of_running hf hfirst hruns, ?_, fun hop => ?_⟩
  · split
    · rw [requestLull_reg _ _ (by decide), deadlinesMissed_refuseLatePairing, hcount]
    · rw [deadlinesMissed_refuseLatePairing, hcount]
  · rw [refuseLatePairing_of_other hop]
    split
    · exact records_log (errorLog_requestLull _) hrecords
    · exact hrecords

/-! Fence messages and the job barrier (R379, R441). -/

/-- A message of control that is heard is taken (R47, R370, R376). -/
theorem takeControl_of_heard {s : State} {q : Nat} {h : Header} (hheard : Heard s q h) (body : Body) (g : State → State) :
    s.takeControl q h body g = g s := by
  obtain ⟨hdst, hepoch, hsource, hup⟩ := hheard
  simp [State.takeControl, State.elsewhere, hdst, hepoch, hsource, hup]

theorem epochFenceMessage_completes (s : State) (q : Fin 17) (h : Header) (withdrawn : Bool) (hheard : Heard s q.val h) :
    Completes (.epochFenceMessage q h withdrawn) s fun t =>
      (withdrawn = true → t = s.setFlag .fenceHeld 0 (s.cameFrom q.val h) false) ∧
        (withdrawn = false → t = (s.setFlag .fenceHeld 0 (s.cameFrom q.val h) true).checkFence) := by
  refine ⟨_, congrArg Host.Outcome.next (takeControl_of_heard hheard (.fence withdrawn) _), ?_⟩
  cases withdrawn with
  | true => exact ⟨fun _ => rfl, nofun⟩
  | false => exact ⟨nofun, fun _ => rfl⟩

/-- The barrier ends at a member that has joined a fence which has not passed: at a representative once its own part of it has completed,
which releases its group. -/
theorem execJobBarrierComplete_of_joined {s : State} (hjoined : s.reg .fenceJoined ≠ 0) (hopen : s.reg .fenceDone ≠ 1)
    (hgroups : s.oneGroup = false) (hdone : s.represents = true → s.barrierDone = true) :
    execJobBarrierComplete s = .next (if s.represents then
      s.peers.foldl (fun (u : State) q => u.control q .release) s else s).fencePassed := by
  cases hrep : s.represents with
  | true => simp [execJobBarrierComplete, hjoined, hopen, hgroups, hrep, hdone hrep]
  | false => simp [execJobBarrierComplete, hjoined, hopen, hgroups, hrep]

/-- Settles O21: each command by the branch of its meaning that its hypotheses select; what follows the count and the record of
a missed deadline leaves them. -/
theorem epochsComplete : Obligations.EpochsComplete := by
  unfold Obligations.EpochsComplete
  refine ⟨?epoch, deadlineMissed_completes, epochFenceMessage_completes, ?barrier⟩
  case epoch =>
    intro s b f hf hepoch hexpect
    exact ⟨_, execEpoch_of_accepted hf hepoch hexpect rfl rfl, _, _, rfl, rfl, rfl⟩
  case barrier =>
    intro s hjoined hopen hgroups hdone
    exact ⟨_, execJobBarrierComplete_of_joined hjoined hopen hgroups hdone, rfl⟩

end Sys2Proof.Machine
end

section
/-! XFER, GATH, SCAT, RSTORE, MCAST and RACC complete (R218, R219, R380 to R390). -/

namespace Sys2Proof.Machine

/-- A command that runs the entries of bay `b` that `p` names completes as its plan says. -/
theorem entryCompletes_of_exec {c : Fin 256 → Instr} {p : Flight → Bool} {plan : State → Bay → Flight → Operands → Effect}
    (hc : ∀ b s, exec (c b) s = .next (s.runEntry b.val p plan)) : EntryCompletes c p plan :=
  fun s b _ _ hf ho => ⟨_, hc b s, runEntry_of_ready plan hf ho⟩

/-- An effect whose sources are clean is made. -/
theorem State.unpoisoned_of_clean {s : State} {rs : List (Nat × Nat)} (h : s.poisonedAny rs = false) (e : Effect) :
    s.unpoisoned rs e = e := by
  simp [State.unpoisoned, h]

/-! GATH (R219). -/

/-- The requests of a remote GATH: one for each element whose index is in bounds (R219, R380). -/
def State.askElements (s : State) (b : Nat) (f : Flight) (q : Nat) (d i v : Desc) : State :=
  (List.range v.elems).foldl (fun (u : State) k =>
    match u.gsIndex d i k with
    | .ok n => u.request (.bay b f.serial k) q (f.param 0 3) (d.elemAddr n) d.key (.read d.size)
    | .error _ => u) s

section
variable {s : State} {b : Fin 256} {f : Flight} {d i v : Desc} {y : Operand}
  (hf : s.ready b.val (fun f => decide (f.op = opGath)) = some f)
  (ho : s.operands (s.bay b.val) f = .ok ⟨.tensor d, .tensor i, .tensor v, y⟩)
include hf ho

theorem execGath_local (hlocal : d.remote = false) : execGath b s = .next (s.finishGather b.val f) := by
  simp only [execGath, hf, ho, hlocal]

theorem execGath_remote {q : Nat} (hremote : d.remote = true) (hq : s.peerPos d.lnode = some q) :
    execGath b s = .next (((s.setFlight b.val { f with phase := 1 }).askElements b.val f q d i v).finishGather b.val
      { f with phase := 1 }) := by
  simp only [execGath, hf, ho, hremote, hq]
  rfl

/-- A table on no peer is gathered as one of this node. -/
theorem execGath_noPeer (hq : s.peerPos d.lnode = none) : execGath b s = .next (s.finishGather b.val f) := by
  cases hremote : d.remote <;> simp only [execGath, hf, ho, hremote, hq]

theorem gath_completes :
    Completes (.gath b) s fun t =>
      (d.remote = false → t = s.finishGather b.val f) ∧
        (∀ q, d.remote = true → s.peerPos d.lnode = some q → ∃ u : State,
          u = (s.setFlight b.val { f with phase := 1 }).askElements b.val f q d i v ∧
            t = u.finishGather b.val { f with phase := 1 }) := by
  cases hremote : d.remote with
  | false => exact ⟨_, execGath_local hf ho hremote, fun _ => rfl, nofun⟩
  | true =>
    cases hq : s.peerPos d.lnode with
    | none => exact ⟨_, execGath_noPeer hf ho hq, nofun, nofun⟩
    | some q =>
      refine ⟨_, execGath_remote hf ho hremote hq, nofun, ?_⟩
      rintro _ - ⟨⟩
      exact ⟨_, rfl, rfl⟩

end

/-! SCAT (R219). -/

/-- The elements of a SCAT's target that its indices name, each with the place of its index. -/
def State.scatTargets (s : State) (d i v : Desc) : List (Nat × Nat) :=
  (((List.range v.elems).map (s.gsTarget d i)).filterMap fun r => r.toOption).zipIdx

/-- The questions of a remote SCAT: a write of no bytes at the end of each element (R219, R380). -/
def State.askTargets (s : State) (b : Nat) (f : Flight) (q : Nat) (d : Desc) (ns : List (Nat × Nat)) : State :=
  ns.foldl (fun (u : State) p => u.request (.bay b f.serial p.2) q (f.param 0 3) (d.elemAddr p.1 + d.size) d.key
    (.write [] false)) s

/-- What a SCAT within the node writes. -/
def State.scatEffect (s : State) (d i v : Desc) : Effect :=
  { tiles := gsStaging s.free
    writes := (s.scatTargets d i v).map fun p => (d.elemAddr p.1, s.bytes (v.elemAddr p.2) v.size) }

section
variable {s : State} {b : Fin 256} {f : Flight} {v i d : Desc} {y : Operand}
  (hf : s.ready b.val (fun f => decide (f.op = opScat)) = some f)
  (ho : s.operands (s.bay b.val) f = .ok ⟨.tensor v, .tensor i, .tensor d, y⟩)
  (hfault : firstFault ((List.range v.elems).map (s.gsTarget d i)) 0 = none)
  (hclean : s.poisonedAny v.readRanges = false)
include hf ho hfault hclean

theorem execScat_local (hlocal : d.remote = false) :
    execScat b s = .next (s.perform b.val f (s.scatEffect d i v)).draw.2 := by
  simp only [execScat, hf, ho, hfault, hlocal, State.unpoisoned_of_clean hclean]
  rfl

/-- A target on no peer is written as one of this node. -/
theorem execScat_noPeer (hq : s.peerPos d.lnode = none) :
    execScat b s = .next (s.perform b.val f (s.scatEffect d i v)).draw.2 := by
  cases hremote : d.remote <;>
    simp only [execScat, hf, ho, hfault, hremote, hq, State.unpoisoned_of_clean hclean] <;> rfl

theorem execScat_remote {q : Nat} (hremote : d.remote = true) (hq : s.peerPos d.lnode = some q) :
    execScat b s = .next (((s.setFlight b.val { f with phase := 1 }).askTargets b.val f q d
      (s.scatTargets d i v)).finishScatter b.val { f with phase := 1 }) := by
  simp only [execScat, hf, ho, hfault, hremote, hq, State.unpoisoned_of_clean hclean]
  rfl

theorem scat_completes :
    Completes (.scat b) s fun t =>
      (d.remote = false → t = (s.perform b.val f (s.scatEffect d i v)).draw.2) ∧
        (∀ q, d.remote = true → s.peerPos d.lnode = some q → ∃ u : State,
          u = (s.setFlight b.val { f with phase := 1 }).askTargets b.val f q d (s.scatTargets d i v) ∧
            t = u.finishScatter b.val { f with phase := 1 }) := by
  cases hremote : d.remote with
  | false => exact ⟨_, execScat_local hf ho hfault hclean hremote, fun _ => rfl, nofun⟩
  | true =>
    cases hq : s.peerPos d.lnode with
    | none => exact ⟨_, execScat_noPeer hf ho hfault hclean hq, nofun, nofun⟩
    | some q =>
      refine ⟨_, execScat_remote hf ho hfault hclean hremote hq, nofun, ?_⟩
      rintro _ - ⟨⟩
      exact ⟨_, rfl, rfl⟩

end

/-- A remote SCAT whose elements have all been answered without a fault goes out. -/
theorem finishScatter_of_answered {s : State} {b : Nat} {f : Flight} {v i d : Desc} {y : Operand}
    (ho : s.operands (s.bay b) f = .ok ⟨.tensor v, .tensor i, .tensor d, y⟩)
    (hall : ((List.range v.elems).map (s.gathered f d i)).any Option.isNone = false)
    (hfault : firstFault (((List.range v.elems).map (s.gathered f d i)).filterMap id) 0 = none)
    (hclean : s.poisonedAny v.readRanges = false) :
    s.finishScatter b f = ((s.sendOp (.bay b f.serial 0) ((s.peerPos d.lnode).getD 0) (f.param 0 3) d.key
      ((List.range v.elems).filterMap fun k => (s.gsIndex d i k).toOption.map fun n =>
        (d.elemAddr n, Body.write (s.bytes (v.elemAddr k) v.size) false)) none none).perform b f
          { tiles := gsStaging s.free }).draw.2 := by
  simp only [State.finishScatter, ho, hall, hfault, State.unpoisoned_of_clean hclean]
  rfl

/-! RSTORE, MCAST and RACC (R380, R386, R390). -/

section
variable {s : State} {b : Fin 256} {f : Flight} {o : Operands} {a d : Desc}
  (ho : s.operands (s.bay b.val) f = .ok o) (ha : o.a = .tensor a) (hd : o.d = .tensor d)
  (hclean : s.poisonedAny a.readRanges = false)
include ho ha hd hclean

theorem execRstore_of_clean (hf : s.ready b.val (fun f => decide (f.op = opRstore)) = some f) :
    execRstore b s = .next ((match s.peerPos d.lnode with
      | some q => s.sendBlocks b.val f q (f.param 0 3) d.key (s.storeRuns a d) (signalOf f o)
      | none => s.mailRuns b.val f.serial d (f.param 0 3) (signalOf f o) (s.storeRuns a d)).perform b.val f {}) := by
  simp only [execRstore, hf, ho, ha, hd, hclean]
  rfl

theorem execMcast_of_clean (hf : s.ready b.val (fun f => decide (f.op = opMcast)) = some f) :
    execMcast b s = .next ((((s.multicast (f.param 0 8)).filterMap s.peerPos).foldl (fun (u : State) q =>
      u.sendBlocks b.val f q (f.param 8 3) d.key (s.storeRuns a d) (signalOf f o)) s).perform b.val f {}) := by
  simp only [execMcast, hf, ho, ha, hd, hclean]
  rfl

variable {q : Nat} (hq : s.peerPos d.lnode = some q)
include hq

theorem runRacc_relaxed (hf : s.ready b.val (fun f => decide (f.op = opRacc) && ((f.nd && !bit f.rflags 1) == true)) = some f) :
    s.runRacc b.val true = (s.sendOp (.bay b.val f.serial 0) q (f.param 8 3) d.key
      ((s.raccPieces a d).map fun w => (w.1, .racc (f.param 0 8) (raccFmt a.fmt) d.fmt w.2 none))
      ((signalOf f o).map fun x => (x.addr, x.key)) none).perform b.val f {} := by
  simp only [State.runRacc, hf, ho, ha, hd, hq, hclean]
  rfl

/-- An ordered contribution carries the round, its bay, and its number among those that the bay has issued (R387). -/
theorem runRacc_ordered {u : State} {order : Option RaccOrder}
    (hf : s.ready b.val (fun f => decide (f.op = opRacc) && ((f.nd && !bit f.rflags 1) == false)) = some f)
    (horder : order = some ⟨s.reg .raccRound, b.val, Store.at 0 s.raccIssue b.val⟩)
    (hu : u = { s with raccIssue := Store.put 0 s.raccIssue b.val (Store.at 0 s.raccIssue b.val + 1) }) :
    s.runRacc b.val false = (u.sendOp (.bay b.val f.serial 0) q (f.param 8 3) d.key
      ((u.raccPieces a d).map fun w => (w.1, .racc (f.param 0 8) (raccFmt a.fmt) d.fmt w.2 order))
      ((signalOf f o).map fun x => (x.addr, x.key)) order).perform b.val f {} := by
  subst horder hu
  simp only [State.runRacc, hf, ho, ha, hd, hq, hclean]
  rfl

end

/-- Settles O27: XFER by its plan, GATH and SCAT by where their table or target lies, and the others by the one branch of
a clean source. -/
theorem dataMoversComplete : Obligations.DataMoversComplete := by
  unfold Obligations.DataMoversComplete
  refine ⟨?xfer, ?gath, ?scat, ?answered, ?rstore, ?mcast, ?relaxed, ?ordered⟩
  case xfer => exact entryCompletes_of_exec fun _ _ => rfl
  case gath =>
    intro s b f d i v y hf ho
    exact gath_completes hf ho
  case scat =>
    intro s b f v i d y hf ho hfault hclean
    exact scat_completes hf ho hfault hclean
  case answered =>
    intro s b f v i d y ho hall hfault hclean
    exact finishScatter_of_answered ho hall hfault hclean
  case rstore =>
    intro s b f o a d hf ho ha hd hclean
    exact ⟨_, execRstore_of_clean ho ha hd hclean hf, rfl⟩
  case mcast =>
    intro s b f o a d hf ho ha hd hclean
    exact ⟨_, execMcast_of_clean ho ha hd hclean hf, rfl⟩
  case relaxed =>
    intro s b f o a d q hf ho ha hd hclean hq
    exact ⟨_, congrArg Host.Outcome.next (runRacc_relaxed ho ha hd hclean hq hf), rfl⟩
  case ordered =>
    intro s b f o a d q hf ho ha hd hclean hq
    exact ⟨_, congrArg Host.Outcome.next (runRacc_ordered ho ha hd hclean hq hf rfl rfl), _, _, rfl, rfl, rfl⟩

end Sys2Proof.Machine
end

section
/-! Which bytes a write of node memory changes (R207, R300, R333, R557), and that an error record stores at the trace ring alone
(R666). -/

namespace Sys2Proof.Machine

/-! The writes at the LLM and at the stack. -/

theorem State.byte_congr {s t : State} (h : t.mem = s.mem) (c : Nat) : t.byte c = s.byte c :=
  congrArg (fun m => Store.at 0 m c) h

@[simp] theorem State.byte_beforeWrite (s : State) (lo hi c : Nat) : (s.beforeWrite lo hi).byte c = s.byte c :=
  State.byte_congr (beforeWrite_mem s lo hi (by decide)) c

theorem State.byte_putBytes_beforeWrite (s : State) (lo hi a : Nat) (bs : List Byte) (c : Nat) :
    ((s.beforeWrite lo hi).putBytes a bs).byte c = if a ≤ c ∧ c < a + bs.length then bs.getD (c - a) 0 else s.byte c := by
  rw [State.byte_putBytes, State.byte_beforeWrite]

/-- A byte after a write at the LLM: the written one where it lies, the former one elsewhere. -/
theorem State.byte_write (s : State) (a : Nat) (bs : List Byte) (c : Nat) :
    (s.write a bs).byte c = if a ≤ c ∧ c < a + bs.length then bs.getD (c - a) 0 else s.byte c :=
  s.byte_putBytes_beforeWrite a (a + bs.length) a bs c

theorem State.byte_writeAtoms (s : State) (a : Nat) (bs : List Byte) (c : Nat) :
    (s.writeAtoms a bs).byte c = if a ≤ c ∧ c < a + bs.length then bs.getD (c - a) 0 else s.byte c :=
  s.byte_putBytes_beforeWrite a (a + bs.length) a bs c

section
variable (s : State) {a c : Nat} {bs : List Byte} (hc : ¬ (a ≤ c ∧ c < a + bs.length))
include hc

theorem State.byte_write_outside : (s.write a bs).byte c = s.byte c := by
  rw [State.byte_write, if_neg hc]

theorem State.byte_writeAtoms_outside : (s.writeAtoms a bs).byte c = s.byte c := by
  rw [State.byte_writeAtoms, if_neg hc]

/-- A write that waits at its channel has its bytes in place, unless the queue is full (R308, R343). -/
theorem State.byte_queueChan_write_outside (ch : Nat) : (s.queueChan ch (.write a bs)).byte c = s.byte c := by
  unfold State.queueChan
  split
  · rfl
  · show (s.accept (.write a bs)).byte c = s.byte c
    unfold State.accept
    dsimp only
    split
    · rfl
    · exact s.byte_writeAtoms_outside hc

theorem State.byte_putSlice_outside : (s.putSlice a bs).byte c = s.byte c := by
  unfold State.putSlice State.writeStack
  dsimp only
  split
  · split
    · exact s.byte_queueChan_write_outside hc _
    · exact s.byte_writeAtoms_outside hc
  · exact s.byte_write_outside hc

end

theorem State.byte_writes_outside (s : State) {ws : List (Nat × List Byte)} {c : Nat}
    (hc : ∀ w ∈ ws, ¬ (w.1 ≤ c ∧ c < w.1 + w.2.length)) : (s.writes ws).byte c = s.byte c := by
  induction ws generalizing s with
  | nil => rfl
  | cons w ws ih =>
    obtain ⟨hw, hws⟩ := List.forall_mem_cons.1 hc
    exact (ih (s.write w.1 w.2) hws).trans (s.byte_write_outside hw)

/-! Statistics records (R90): a merge keeps the length of a record. -/

@[simp] theorem length_overlay (bs : List Byte) (off : Nat) (new : List Byte) : (overlay bs off new).length = bs.length := by
  simp only [overlay, List.length_take, List.length_append, List.length_drop]
  omega

@[simp] theorem length_recPut (bs : List Byte) (o n v : Nat) : (recPut bs o n v).length = bs.length := length_overlay ..

@[simp] theorem length_recInit (bs : List Byte) : (recInit bs).length = bs.length := by
  rw [recInit, length_recPut, length_recPut, length_overlay]

@[simp] theorem length_recCap (p : List Byte × Bool) (o n : Nat) : (recCap p o n).1.length = p.1.length := length_recPut ..

@[simp] theorem length_recAdd (bs : List Byte) (o n : Nat) : (recAdd bs o n).length = bs.length := length_recPut ..

theorem length_foldl_recCap (es : List (Nat × Nat)) (p : List Byte × Bool) :
    (es.foldl (fun p e => if e.1 = 0 then p else recCap p (0x40 + 4 * e.2) e.1) p).1.length = p.1.length := by
  induction es generalizing p with
  | nil => rfl
  | cons e es ih =>
    rw [List.foldl_cons, ih]
    split
    · rfl
    · exact length_recCap ..

theorem length_recBins {c : Prop} [Decidable c] (es : List (Nat × Nat)) (p : List Byte × Bool) :
    (if c then es.foldl (fun p e => if e.1 = 0 then p else recCap p (0x40 + 4 * e.2) e.1) p else p).1.length =
      p.1.length := by
  split
  · exact length_foldl_recCap es p
  · rfl

theorem length_mergeRecord (bs : List Byte) (d : Delta) : (mergeRecord bs d).1.length = bs.length := by
  have hinit : ∀ fresh : Prop, [Decidable fresh] → (if fresh then recInit bs else bs).length = bs.length := by
    intro fresh _
    split <;> simp
  unfold mergeRecord
  dsimp only
  rw [length_recPut, length_recBins]
  split
  · cases d.srcMax <;> cases d.srcMin <;> simp [hinit]
  · simp [hinit]

/-- A merge stores within the 640 bytes of its record. -/
theorem State.byte_mergeStats_outside (s : State) {a c : Nat} (d : Delta) (hc : ¬ (a ≤ c ∧ c < a + 640)) :
    (s.mergeStats a d).1.byte c = s.byte c := by
  unfold State.mergeStats
  split
  · rfl
  · refine s.byte_write_outside ?_
    simpa [length_mergeRecord, State.bytes] using hc

theorem State.byte_mergeAll_outside (s : State) {ms : List (Nat × Delta)} {c : Nat}
    (hc : ∀ m ∈ ms, ¬ (m.1 ≤ c ∧ c < m.1 + 640)) : (s.mergeAll ms).1.byte c = s.byte c := by
  induction ms generalizing s with
  | nil => rfl
  | cons m ms ih =>
    obtain ⟨hm, hms⟩ := List.forall_mem_cons.1 hc
    exact (ih (s.mergeStats m.1 m.2).1 hms).trans (s.byte_mergeStats_outside m.2 hm)

/-! Entries (R207, R209). -/

theorem State.mem_allocate (s : State) (f : Flight) : (s.allocate f).mem = s.mem := by
  unfold State.allocate
  split
  · refine mem_foldl (fun u r => mem_foldl (fun v k => ?_) _ u) _ s
    dsimp only
    split
    · exact holdLine_mem ..
    · rfl
  · rfl

theorem byte_setFlight (s : State) (b : Nat) (f : Flight) (c : Nat) : (s.setFlight b f).byte c = s.byte c := rfl

/-- The effect of an entry that does not go into the speculative buffer. -/
theorem byte_perform_outside (s : State) (b : Nat) {f : Flight} {e : Effect} (hnow : f.spec = false ∨ e.result ≠ 0) {c : Nat}
    (hwrites : ∀ w ∈ e.writes, ¬ (w.1 ≤ c ∧ c < w.1 + w.2.length)) (hmerges : ∀ m ∈ e.merges, ¬ (m.1 ≤ c ∧ c < m.1 + 640)) :
    (s.perform b f e).byte c = s.byte c := by
  unfold State.perform
  dsimp only
  by_cases hbad : s.badRecords e.merges = true
  · rw [if_pos hbad, if_neg (by simp [Effect.fault]), if_neg (by simp [Effect.fault]), byte_setFlight]
  · rw [if_neg hbad, if_neg (by obtain h | h := hnow <;> simp [h])]
    split
    · rw [byte_setFlight, State.byte_mergeAll_outside _ hmerges, State.byte_setBay, State.byte_writes_outside _ hwrites]
      exact State.byte_congr (State.mem_allocate s f) c
    · rfl

/-! Error records of a package whose trace unit has no ring (R477, R666). -/

theorem trace_of_noRing {s : State} (h : s.reg .traceRing = 0) (full : Bool) (bs : List Byte) : s.trace full bs = s := by
  simp [State.trace, h]

/-- Node memory is `m`, and the trace unit has no ring. -/
def Untraced (m : List Host.Cell) (u : State) : Prop := u.mem = m ∧ u.reg .traceRing = 0

section
variable {m : List Host.Cell} {u : State}

theorem Untraced.of_same {t : State} (h : Untraced m u) (hmem : t.mem = u.mem) (hring : t.reg .traceRing = u.reg .traceRing) :
    Untraced m t :=
  ⟨hmem.trans h.1, hring.trans h.2⟩

theorem Untraced.setReg {r : Reg} (i v : Nat) (hr : r ≠ .traceRing) (h : Untraced m u) : Untraced m (u.setReg r i v) :=
  h.of_same rfl (State.reg_setReg_ne _ hr ..)

theorem Untraced.addReg {r : Reg} (i n : Nat) (hr : r ≠ .traceRing) (h : Untraced m u) : Untraced m (u.addReg r i n) :=
  h.setReg i _ hr

theorem Untraced.setBytes {r : Reg} (i : Nat) (bs : List Byte) (hr : r ≠ .traceRing) (h : Untraced m u) :
    Untraced m (u.setBytes r i bs) :=
  h.of_same (setBytes_mem _ _ _ _ rfl) (setBytes_reg_ne _ _ _ _ _ _ hr)

theorem Untraced.drawn (n : Nat) (h : Untraced m u) : Untraced m { u with free := n } := h

theorem Untraced.freeze (frozen : Option SetView) (late : List (Nat × SetView)) (h : Untraced m u) :
    Untraced m { u with frozen := frozen, late := late } := h

theorem Untraced.log (l : List ErrorRecord) (h : Untraced m u) : Untraced m { u with errorLog := l } := h

theorem Untraced.ite {c : Prop} [Decidable c] {v w : State} (hv : Untraced m v) (hw : Untraced m w) :
    Untraced m (if c then v else w) := by
  split
  · exact hv
  · exact hw

theorem Untraced.trace (full : Bool) (bs : List Byte) (h : Untraced m u) : Untraced m (u.trace full bs) := by
  rw [trace_of_noRing h.2]
  exact h

theorem Untraced.addIf {c : Prop} [Decidable c] {r : Reg} (i n : Nat) (hr : r ≠ .traceRing) (h : Untraced m u) :
    Untraced m (if c then u.addReg r i n else u) :=
  Untraced.ite (h.addReg i n hr) h

theorem Untraced.fire (src code step lbay : Nat) (h : Untraced m u) : Untraced m (u.fire src code step lbay) := by
  unfold State.fire State.draw
  dsimp only
  refine Untraced.ite (Untraced.ite ?_ (Untraced.ite h (h.addReg _ _ (by decide)))) h
  refine Untraced.trace _ _ (Untraced.freeze _ _ (Untraced.setReg _ _ (by decide) (Untraced.setReg _ _ (by decide) ?_)))
  exact Untraced.setBytes _ _ (by decide) (Untraced.addReg _ _ (by decide) (h.drawn _))

theorem Untraced.fires {c d : Prop} [Decidable c] [Decidable d] (a b k n : Nat) (h : Untraced m u) :
    Untraced m (if d then (if c then u.fire 1 a b k else u).fire 2 a b n else if c then u.fire 1 a b k else u) :=
  Untraced.ite (Untraced.fire _ _ _ _ (Untraced.ite (h.fire ..) h)) (Untraced.ite (h.fire ..) h)

theorem Untraced.alert {c : Prop} [Decidable c] (n v : Nat) (h : Untraced m u) :
    Untraced m (if c then ((u.setReg .lastAlertSeq 0 n).raise .alertCause 0).send (.interrupt v) else u) := by
  refine Untraced.ite ?_ h
  have hraise := (h.setReg (r := .lastAlertSeq) 0 n (by decide)).of_same (raise_mem _ .alertCause 0 (by decide))
    (raise_reg _ _ _ _ (by decide) _)
  exact hraise.of_same rfl rfl

theorem Untraced.logError (e : ErrorEvent) (h : Untraced m u) : Untraced m (u.logError e) := by
  unfold State.logError
  dsimp only
  refine Untraced.ite h (Untraced.fires _ _ _ _ (Untraced.alert _ _ ?_))
  refine Untraced.of_same ?_ (squallWarns_mem _ (by decide)) (squallWarns_reg _ _ (by decide) _)
  refine Untraced.addReg _ _ (by decide) (Untraced.addReg _ _ (by decide) (Untraced.addReg _ _ (by decide)
    (Untraced.addReg _ _ (by decide) ?_)))
  have hweighed := h.of_same (squallWeigh_mem u e) (squallWeigh_reg u e _ _)
  refine Untraced.addIf _ _ (by decide) (Untraced.setReg _ _ (by decide) (Untraced.log _ ?_))
  exact Untraced.setReg _ _ (by decide) (Untraced.setReg _ _ (by decide) hweighed)

end

/-! What the ECC of a slice finds (R336, R492). -/

theorem sliceFinding_clean (s : State) (a : Nat) : s.sliceFinding a .clean false = s := rfl

theorem serveChan_fill_mem (s : State) (l : Nat) : (s.serveChan (.fill l)).mem = s.mem := by
  unfold State.serveChan
  dsimp only
  split <;> rfl

/-- The request for a fill writes nothing. -/
theorem toChannel_fill_mem (s : State) (ch l : Nat) : (s.toChannel ch (.fill l)).mem = s.mem := by
  unfold State.toChannel
  split
  · unfold State.queueChan
    split <;> rfl
  · exact serveChan_fill_mem s l

theorem State.mem_askFill (s : State) (l : Nat) : (s.askFill l).mem = s.mem := by
  unfold State.askFill
  dsimp only
  rw [toChannel_fill_mem]
  split <;> rfl

theorem logError_mem_of_noRing {s : State} (h : s.reg .traceRing = 0) (e : ErrorEvent) : (s.logError e).mem = s.mem :=
  (Untraced.logError e ⟨rfl, h⟩).1

/-- The self-test that starts after an error of a word writes nothing. -/
theorem mem_testSlice_of_found {f : WordFinding} (hf : f ≠ .clean) {c : Prop} [Decidable c] (u v : State)
    (kind unit spare seq : Nat) :
    (if c then if f = .clean then v else u.startTest kind unit spare seq else u).mem = u.mem := by
  rw [if_neg hf]
  split <;> rfl

section
variable {s : State} (hring : s.reg .traceRing = 0)
include hring

/-- Data loss without a job that runs is a record alone. -/
theorem dataLoss_mem_of_idle (hjob : s.reg .jobRunning ≠ 1) (e : ErrorEvent) : (s.dataLoss e).mem = s.mem := by
  unfold State.dataLoss
  dsimp only
  rw [if_neg (by rw [logError_reg _ _ _ (by decide)]; exact hjob), logError_mem_of_noRing hring]

theorem parityPersistent_mem_of_noRing (kind unit addr lbay step : Nat) :
    (s.parityPersistent kind unit addr lbay step).mem = s.mem :=
  logError_mem_of_noRing hring _

theorem sliceFinding_mem_of_idle (hjob : s.reg .jobRunning ≠ 1) (a : Nat) (f : WordFinding) (persistent : Bool) :
    (s.sliceFinding a f persistent).mem = s.mem := by
  unfold State.sliceFinding
  cases f with
  | clean =>
    dsimp only
    split
    · exact parityPersistent_mem_of_noRing hring ..
    · rfl
  | corrected w =>
    dsimp only
    refine (mem_testSlice_of_found (f := .corrected w) nofun ..).trans ?_
    exact logError_mem_of_noRing hring _
  | bad w dirty =>
    dsimp only
    refine (mem_testSlice_of_found (f := .bad w dirty) nofun ..).trans ?_
    have hpoison := poisonWord_mem s (a / 128 * 128 + 16 * w.val)
    have hring' := (poisonWord_reg s (a / 128 * 128 + 16 * w.val) .traceRing 0).trans hring
    have hjob' := (poisonWord_reg s (a / 128 * 128 + 16 * w.val) .jobRunning 0).symm ▸ hjob
    split
    · split
      · rfl
      · dsimp only
        split
        · rw [logError_mem_of_noRing hring', hpoison]
        · rw [dataLoss_mem_of_idle hring' hjob', hpoison]
    · rw [State.mem_askFill, logError_mem_of_noRing hring]

end

/-! A write at its home slice (R333, R338). -/

/-- A slice whose arrays err not, or a package that has no job and no ring for the record of the error. -/
theorem meetWrite_mem_of_quiet {s : State} {x : SliceAccess} (h : (x.word = .clean ∧ x.persistent = false) ∨
    (s.reg .traceRing = 0 ∧ s.reg .jobRunning ≠ 1)) (a n : Nat) : (s.meetWrite a n x).mem = s.mem := by
  have hfound : ∀ (u : State) (f : WordFinding), u.mem = s.mem → u.reg .traceRing = s.reg .traceRing →
      u.reg .jobRunning = s.reg .jobRunning → (x.word = .clean → f = .clean) →
      (u.sliceFinding a f x.persistent).mem = s.mem := by
    intro u f hmem hring hjob hf
    obtain ⟨hword, hpersistent⟩ | ⟨hnoRing, hidle⟩ := h
    · rw [hf hword, hpersistent, sliceFinding_clean, hmem]
    · rw [sliceFinding_mem_of_idle (hring.trans hnoRing) (hjob ▸ hidle), hmem]
  have hparts : x.word = .clean →
      (if decide (a % 16 ≠ 0) || decide (n % 16 ≠ 0) then x.word else .clean) = WordFinding.clean := by
    intro hword
    rw [hword, ite_self]
  unfold State.meetWrite
  dsimp only
  split
  · exact hfound _ _ rfl (by simp) (by simp) hparts
  · split
    · rfl
    · split
      · exact hfound _ _ (holdLine_mem ..) (by simp) (by simp) hparts
      · rw [mem_ite, State.mem_askFill, setLlm_mem, evicted_mem, ite_self]
        rfl

theorem execStackWrite_cases {a : BitVec 42} {data : List Byte} {x : SliceAccess} {s t : State}
    (h : exec (.stackWrite a data x) s = .next t) : t.mem = s.mem ∨ t = s.applyWrite a.toNat data x := by
  have hexec : execStackWrite a data x s = .next t := h
  unfold execStackWrite at hexec
  dsimp only at hexec
  split at hexec
  · cases hexec
    exact .inl rfl
  · split at hexec
    · cases hexec
      refine .inl ?_
      dsimp only
      split <;> rfl
    · cases hexec
      exact .inr rfl

theorem byte_applyWrite_outside {s : State} {x : SliceAccess} (h : (x.word = .clean ∧ x.persistent = false) ∨
    (s.reg .traceRing = 0 ∧ s.reg .jobRunning ≠ 1)) {a c : Nat} {data : List Byte}
    (hc : ¬ (a ≤ c ∧ c < a + data.length)) : (s.applyWrite a data x).byte c = s.byte c := by
  unfold State.applyWrite
  split
  · exact State.byte_putSlice_outside _ hc
  · rw [State.byte_putSlice_outside _ hc]
    exact State.byte_congr (meetWrite_mem_of_quiet h a data.length) c

/-! A host write, and the drain of a store buffer (R284, R557). -/

theorem byte_hostMemWrite_outside {a : BitVec 41} {data : List Byte} {s t : State}
    (h : exec (.hostMemWrite a data) s = .next t) {c : Nat} (hc : ¬ (a.toNat ≤ c ∧ c < a.toNat + data.length)) :
    t.byte c = s.byte c := by
  have hexec : execHostMemWrite a data s = .next t := h
  unfold execHostMemWrite at hexec
  dsimp only at hexec
  split at hexec
  · cases hexec
    rfl
  · split at hexec
    · cases hexec
      rfl
    · split at hexec
      · cases hexec
        rfl
      · cases hexec
        exact State.byte_write_outside { s with hostLines := [] } hc

theorem execStoreBufferDrain_of_memory {s u : State} {core : Fin 192} {e : HartStore}
    (he : s.stores.find? (fun e => decide (e.core = core.val)) = some e) (hio : e.io = false)
    (hu : u = { s with stores := s.stores.erase e }.write e.addr e.bytes) :
    execStoreBufferDrain core s = .next ((u.hartsOn core.val).foldl (fun (v : State) h => v.settleHart h) u) := by
  subst hu
  simp only [execStoreBufferDrain, he, hio, Bool.false_eq_true, ↓reduceIte]

theorem byte_storeBufferDrain_outside {s t : State} {core : Fin 192} {e : HartStore}
    (he : s.stores.find? (fun e => decide (e.core = core.val)) = some e) (hio : e.io = false)
    (h : exec (.storeBufferDrain core) s = .next t) {c : Nat} (hc : ¬ (e.addr ≤ c ∧ c < e.addr + e.bytes.length)) :
    t.byte c = s.byte c := by
  cases h.symm.trans (execStoreBufferDrain_of_memory he hio rfl)
  have hsettle := mem_foldl (f := fun (u : State) h => u.settleHart h) (fun u h => settleHart_mem u h (by decide))
  rw [State.byte_congr (hsettle _ _)]
  exact State.byte_write_outside { s with stores := s.stores.erase e } hc

/-- Settles O49: each store is a write of bytes, which changes the bytes that it names alone; what goes with it (a finding of the
slice, the harts that go on, the entry's record of its end) writes none. -/
theorem storesReachTheirBytes : Obligations.StoresReachTheirBytes := by
  unfold Obligations.StoresReachTheirBytes
  refine ⟨State.byte_write, ?host, ?stack, ?drain, ?perform⟩
  case host =>
    intro s t a data h c hc
    exact byte_hostMemWrite_outside h hc
  case stack =>
    intro s t a data x h hquiet c hc
    obtain hmem | rfl := execStackWrite_cases h
    · exact State.byte_congr hmem c
    · exact byte_applyWrite_outside hquiet hc
  case drain =>
    intro s t core e he hio h c hc
    exact byte_storeBufferDrain_outside he hio h hc
  case perform =>
    intro s b f e hnow c hwrites hmerges
    exact byte_perform_outside s b hnow hwrites hmerges

end Sys2Proof.Machine
end

section
/-! Integer lanes of the short-vector functions wrap (R264, R267, R268). -/

namespace Sys2Proof.Machine

theorem unsigned_natCast (n x : Nat) : unsigned n (x : Int) = x % 2 ^ n := by
  have hmod : (x : Int) % 2 ^ n = ((x % 2 ^ n : Nat) : Int) := by
    rw [Int.natCast_emod, Int.natCast_pow, Int.cast_ofNat_Int]
  rw [unsigned, hmod, Int.toNat_natCast]

/-- A difference of two lanes, borrowing from the bit above them. -/
theorem unsigned_sub {n b : Nat} (a : Nat) (hb : b ≤ 2 ^ n) : unsigned n ((a : Int) - b) = (a + 2 ^ n - b) % 2 ^ n := by
  have hborrow : ((a + 2 ^ n - b : Nat) : Int) = (a : Int) - b + (2 ^ n : Int) := by
    rw [Int.ofNat_sub (Nat.le_trans hb (Nat.le_add_left ..)), Int.natCast_add, Int.natCast_pow, Int.cast_ofNat_Int]
    omega
  rw [← unsigned_natCast, hborrow, unsigned, unsigned, Int.add_emod_right]

theorem lane_lt (et v i : Nat) : lane et v i < 2 ^ laneBits et := Nat.mod_lt _ (Nat.two_pow_pos _)

theorem laneFp_of_integer {et : Nat} (h : laneInteger et = true) : laneFp et = false := by
  simpa [laneFp, laneInteger] using h

section
variable {et : Nat} (het : laneInteger et = true) (a b : Nat)
include het

theorem laneAdd_integer : laneAdd false et a b = ((a + b) % 2 ^ laneBits et, 0) := by
  simp only [laneAdd, laneFp_of_integer het, wrapLane, Bool.false_eq_true, ↓reduceIte, ← Int.natCast_add, unsigned_natCast]

theorem laneSub_integer (hb : b < 2 ^ laneBits et) :
    laneAdd true et a b = ((a + 2 ^ laneBits et - b) % 2 ^ laneBits et, 0) := by
  simp only [laneAdd, laneFp_of_integer het, wrapLane, Bool.false_eq_true, ↓reduceIte, unsigned_sub a (Nat.le_of_lt hb)]

theorem laneMul_integer : laneMul et a b = (a * b % 2 ^ laneBits et, 0) := by
  simp only [laneMul, laneFp_of_integer het, wrapLane, Bool.false_eq_true, ↓reduceIte, ← Int.natCast_mul, unsigned_natCast]

end

/-- Each lane of a lane-wise function is that of the lanes, cut to its width. -/
theorem lane_mapLanes {bits et i : Nat} (f : Nat → Nat → Nat → Nat × Nat) (a b d : Nat) (hi : i < laneCount bits et) :
    lane et (mapLanes bits et f a b d).1 i = (f (lane et a i) (lane et b i) (lane et d i)).1 % 2 ^ laneBits et := by
  unfold mapLanes ofLanes
  rw [lane_packLanes et _ i (by simpa using hi)]
  simp

/-- Settles O58: a lane of the result is the function of the lanes, which for an integer type is a wrapped integer. -/
theorem integerLanesWrap : Obligations.IntegerLanesWrap := by
  intro w et a b d i het hi r
  refine ⟨?add, ?sub, ?mul⟩
  case add => simp only [r, lane_mapLanes _ a b d hi, laneAdd_integer het, Nat.mod_mod]
  case sub => simp only [r, lane_mapLanes _ a b d hi, laneSub_integer het _ _ (lane_lt ..), Nat.mod_mod]
  case mul => simp only [r, lane_mapLanes _ a b d hi, laneMul_integer het, Nat.mod_mod]

end Sys2Proof.Machine
end

section
/-! Core replays, core self-tests and supervisor mismatches complete (R21, R250, R252, R291, R292). -/

namespace Sys2Proof.Machine

/-! Parity of a core (R291). -/

section
variable {s : State} {core : Fin 192} (part : CorePart) (hfailed : s.reg .coreFailed core ≠ 1)
  (htest : (s.tests.any fun t => decide (t.kind = 9) && decide (t.unit = coreUnit core.val)) = false)
include hfailed htest

theorem execCoreParityReplay_first :
    execCoreParityReplay core part false s = .next (if part = .registers then
      (s.parityReplayed 9 (coreUnit core.val) 0 0xFFFF 0).addReg .coreReplays 0 1
      else s.parityReplayed 9 (coreUnit core.val) 0 0xFFFF 0) := by
  simp [execCoreParityReplay, hfailed, htest]

theorem execCoreParityReplay_again :
    execCoreParityReplay core part true s = .next (s.parityPersistent 9 (coreUnit core.val) 0 0xFFFF 0) := by
  simp [execCoreParityReplay, hfailed, htest]

theorem coreParityReplay_completes (again : Bool) :
    Completes (.coreParityReplay core part again) s fun t =>
      (again = false → Records s t 1 0 1 9 (coreUnit core.val) ∧
          (part = .registers → t.reg .coreReplays = (s.reg .coreReplays + 1) % Reg.modulus .coreReplays)) ∧
        (again = true → Records s t 2 0 0 9 (coreUnit core.val) ∧ ∃ x, x ∈ t.tests ∧ x.kind = 9 ∧
          x.unit = coreUnit core.val) := by
  cases again with
  | false =>
    refine ⟨_, execCoreParityReplay_first part hfailed htest, fun _ => ⟨?records, fun hpart => ?count⟩, nofun⟩
    case records =>
      have hrecords : Records s (s.parityReplayed 9 (coreUnit core.val) 0 0xFFFF 0) 1 0 1 9 (coreUnit core.val) :=
        records_of rfl rfl
      split
      · exact hrecords
      · exact hrecords
    case count =>
      rw [if_pos hpart, State.reg_addReg, if_pos ⟨rfl, rfl⟩, parityReplayed_reg _ _ _ _ _ _ _ (by decide)]
  | true =>
    refine ⟨_, execCoreParityReplay_again part hfailed htest, nofun, fun _ => ⟨records_of rfl rfl, ?_⟩⟩
    exact ⟨_, List.mem_append_right _ (List.mem_singleton_self _), rfl, rfl⟩

end

/-! The end of a core's self-test (R292, R293). -/

theorem execCoreSelftestComplete_of_pass {s : State} {core : Fin 192} {x : SelfTest}
    (hx : s.runningTest 9 (coreUnit core.val) = some x) :
    execCoreSelftestComplete core true s = .next ((s.endTest x 1).resumeCore core.val) := by
  simp [execCoreSelftestComplete, hx]

/-- The core of a failed self-test is out of use. -/
def State.coreLost (s : State) (core : Nat) : State :=
  (s.setReg .coreFailed core 1).change .coresUsable 0 (s.reg .coresUsable - 1)

/-- What the record of a failed core and the moves of its harts may touch. -/
def touchAfterCoreLost (p : Option Reg) : Bool :=
  touchLogError p || touchTakeReserve p || touchMigrateCore p || touchDataLoss p

/-- After the loss of a core its harts migrate or are lost, which leaves the registers that neither of these touches. -/
theorem execCoreSelftestComplete_of_fail {s : State} {core : Fin 192} {x : SelfTest}
    (hx : s.runningTest 9 (coreUnit core.val) = some x) :
    ∃ t, execCoreSelftestComplete core false s = .next t ∧
      ∀ r, touchAfterCoreLost (some r) = false → ∀ i, t.reg r i = (s.coreLost core.val).reg r i := by
  unfold execCoreSelftestComplete touchAfterCoreLost
  simp only [hx, Bool.false_eq_true, ↓reduceIte, Bool.or_eq_false_iff, and_imp]
  split
  case isTrue =>
    refine ⟨_, rfl, fun r hlog hreserve _ _ i => ?_⟩
    rw [takeReserve_reg _ _ _ hreserve, logError_reg _ _ _ hlog, endTest_reg]
    rfl
  case isFalse =>
    split
    case h_1 =>
      refine ⟨_, rfl, fun r hlog hreserve hmigrate _ i => ?_⟩
      rw [migrateCore_reg _ _ _ _ hmigrate, takeReserve_reg _ _ _ hreserve, logError_reg _ _ _ hlog, endTest_reg]
      rfl
    case h_2 =>
      refine ⟨_, rfl, fun r hlog _ _ hloss i => ?_⟩
      split
      · rw [dataLoss_reg _ _ _ hloss, endTest_reg]
        rfl
      · rw [logError_reg _ _ _ hlog, endTest_reg]
        rfl

theorem coreLost_facts (s : State) (core : Nat) :
    (s.coreLost core).reg .coreFailed core = 1 ∧
      (s.coreLost core).reg .coresUsable = (s.reg .coresUsable - 1) % Reg.modulus .coresUsable := by
  unfold State.coreLost
  constructor
  · rw [State.reg_change _ (by decide), if_neg (by simp), State.reg_setReg_same]
    rfl
  · rw [State.reg_change _ (by decide), if_pos ⟨rfl, rfl⟩]

theorem coreSelftestComplete_completes (s : State) (core : Fin 192) (pass : Bool) (x : SelfTest)
    (hx : s.runningTest 9 (coreUnit core.val) = some x) :
    Completes (.coreSelftestComplete core pass) s fun t =>
      (pass = true → t = (s.endTest x 1).resumeCore core.val) ∧ (pass = false → t.reg .coreFailed core = 1 ∧
          t.reg .coresUsable = (s.reg .coresUsable - 1) % Reg.modulus .coresUsable) := by
  cases pass with
  | true => exact ⟨_, execCoreSelftestComplete_of_pass hx, fun _ => rfl, nofun⟩
  | false =>
    obtain ⟨t, hexec, hkept⟩ := execCoreSelftestComplete_of_fail hx
    obtain ⟨hfailed, husable⟩ := coreLost_facts s core.val
    exact ⟨t, hexec, nofun, fun _ =>
      ⟨(hkept _ (by decide) _).trans hfailed, (hkept _ (by decide) _).trans husable⟩⟩

/-! A mismatch of a supervisor pair (R21, R250, R252). -/

/-- The loss of a pair leaves no standby, and is recorded. -/
theorem loseStandby_facts (s : State) (failed : Nat) :
    (s.loseStandby failed).reg .supStandbyOk = 0 ∧ Records s (s.loseStandby failed) 0x18 2 6 0x0E failed := by
  unfold State.loseStandby
  constructor
  · rw [degrade_reg _ _ _ (by decide), logError_reg _ _ _ (by decide), State.reg_change _ (by decide), if_pos ⟨rfl, rfl⟩]
    rfl
  · refine records_log (errorLog_degrade ..) (records_of ?_ ?_)
    · exact supUp_change _ _ _ _ (by decide) (by decide)
    · rw [State.reg_change _ (by decide), if_neg (by simp)]

/-- The standby pair takes over, before its loss as a standby. -/
def State.standbyTakesOver (s : State) : State :=
  (s.change .supActive 0 (1 - s.reg .supActive)).addReg .supTakeovers 0 1

theorem standbyTakesOver_facts (s : State) :
    s.standbyTakesOver.reg .supActive = 1 - s.reg .supActive ∧
      s.standbyTakesOver.reg .supTakeovers = (s.reg .supTakeovers + 1) % Reg.modulus .supTakeovers ∧
      s.standbyTakesOver.supervisorUp = s.supervisorUp ∧ s.standbyTakesOver.reg .errorHead = s.reg .errorHead := by
  have hchange : ∀ r, r ∉ auditRegs → r ≠ .supActive → ∀ i,
      (s.change .supActive 0 (1 - s.reg .supActive)).reg r i = s.reg r i := by
    intro r hr hne i
    rw [State.reg_change _ hr, if_neg fun h => hne h.1.symm]
  unfold State.standbyTakesOver
  refine ⟨?_, ?_, ?_, ?_⟩
  · rw [State.reg_addReg, if_neg (by simp), State.reg_change _ (by decide), if_pos ⟨rfl, rfl⟩, Reg.modulus_supActive]
    omega
  · rw [State.reg_addReg, if_pos ⟨rfl, rfl⟩, hchange _ (by decide) (by decide)]
  · rw [supUp_addReg _ _ _ _ (by decide) (by decide), supUp_change _ _ _ _ (by decide) (by decide)]
  · rw [State.reg_addReg, if_neg (by simp), hchange _ (by decide) (by decide)]

section
variable {s : State} (hup : s.supervisorUp = true)
include hup

theorem execSupervisorMismatch_active : execSupervisorMismatch false s = .next (if s.reg .supStandbyOk = 1 then
    s.standbyTakesOver.loseStandby (s.reg .supActive) else s.enterFaulted) := by
  simp only [execSupervisorMismatch, hup, Bool.not_true, Bool.false_eq_true, ↓reduceIte]
  split <;> rfl

theorem execSupervisorMismatch_standby : execSupervisorMismatch true s = .next (if s.reg .supStandbyOk = 1 then
    s.loseStandby (1 - s.reg .supActive) else s) := by
  simp [execSupervisorMismatch, hup]

/-- The active pair fails: the standby takes over, or without one the node enters FAULTED. -/
theorem supervisorMismatch_active_completes :
    Completes (.supervisorMismatch false) s fun t =>
      (s.reg .supStandbyOk = 1 → t.reg .supActive = 1 - s.reg .supActive ∧ t.reg .supStandbyOk = 0 ∧
          t.reg .supTakeovers = (s.reg .supTakeovers + 1) % Reg.modulus .supTakeovers ∧
            Records s t 0x18 2 6 0x0E (s.reg .supActive)) ∧
        (s.reg .supStandbyOk ≠ 1 → t.reg .nodeState = 7) := by
  refine ⟨_, execSupervisorMismatch_active hup, fun hok => ?_, fun hok => ?_⟩
  · obtain ⟨hactive, htakeovers, hsup, hhead⟩ := standbyTakesOver_facts s
    obtain ⟨hstandby, hrecords⟩ := loseStandby_facts s.standbyTakesOver (s.reg .supActive)
    rw [if_pos hok, loseStandby_reg _ _ .supActive (by decide), loseStandby_reg _ _ .supTakeovers (by decide)]
    refine ⟨hactive, hstandby, htakeovers, ?_⟩
    rwa [Records, hsup, hhead] at hrecords
  · rw [if_neg hok]
    exact enterFaulted_nodeState s

/-- The standby pair fails: the active pair stays. -/
theorem supervisorMismatch_standby_completes :
    Completes (.supervisorMismatch true) s fun t =>
      (s.reg .supStandbyOk = 1 → t.reg .supActive = s.reg .supActive ∧ t.reg .supStandbyOk = 0 ∧
          t.reg .supTakeovers = s.reg .supTakeovers ∧ Records s t 0x18 2 6 0x0E (1 - s.reg .supActive)) ∧
        (s.reg .supStandbyOk ≠ 1 → t = s) := by
  refine ⟨_, execSupervisorMismatch_standby hup, fun hok => ?_, fun hok => if_neg hok⟩
  obtain ⟨hstandby, hrecords⟩ := loseStandby_facts s (1 - s.reg .supActive)
  rw [if_pos hok, loseStandby_reg _ _ .supActive (by decide), loseStandby_reg _ _ .supTakeovers (by decide)]
  exact ⟨rfl, hstandby, rfl, hrecords⟩

end

/-- Settles O22: each command by the branch of its meaning that its hypotheses select; what follows a failed core or pair leaves
its counts. -/
theorem coreFaultsComplete : Obligations.CoreFaultsComplete := by
  unfold Obligations.CoreFaultsComplete
  refine ⟨?replay, coreSelftestComplete_completes, ?active, ?standby⟩
  case replay =>
    intro s core part again hfailed htest
    exact coreParityReplay_completes part hfailed htest again
  case active =>
    intro s hup
    exact supervisorMismatch_active_completes hup
  case standby =>
    intro s hup
    exact supervisorMismatch_standby_completes hup

end Sys2Proof.Machine
end

section
/-! Hart loads, stores, atomics, gathers and scatters complete (R258, R259, R273, R277, R279, R289). -/

namespace Sys2Proof.Machine

/-! Loads (R258, R259, R282). -/

section
variable {s u : State} {h len va n : Nat} {reach : CoreReach} {p : Place} (w : Place → Await) (f : Nat → Hart → Hart)
  (hrefill : s.refills h (decide (reach = .refill)) = false) (haccess : s.access h false va n = .ok (p, u))
include hrefill haccess

theorem startLoad_l1 {a : Nat} (hp : p = .node a) (hreach : reach = .l1) (hclean : u.poisoned a (a + n) = false) :
    s.startLoad h len va n reach w f = u.retire h len (f (ofLe (u.ownBytes h a n))) := by
  subst hp
  simp only [State.startLoad, hrefill, haccess, State.endLoad, hclean, Bool.false_eq_true, ↓reduceIte, if_pos hreach]

theorem startLoad_beyond {a : Nat} (hp : p = .node a) (hreach : reach = .beyond) :
    s.startLoad h len va n reach w f = u.park h true (w p) := by
  have hleaves : reach ≠ .l1 := hreach ▸ nofun
  subst hp
  simp only [State.startLoad, hrefill, haccess, Bool.false_eq_true, ↓reduceIte, if_neg hleaves]

theorem startLoad_io {a : Nat} (hp : p = .io a) : s.startLoad h len va n reach w f = u.park h true (w p) := by
  subst hp
  simp only [State.startLoad, hrefill, haccess, Bool.false_eq_true, ↓reduceIte]

theorem startLoad_far {lnode cls key offset : Nat} (hp : p = .far lnode cls key offset) :
    s.startLoad h len va n reach w f = ((u.addReg .remoteAccesses 0 1).request (.hart h 0)
      (((u.addReg .remoteAccesses 0 1).peerPos lnode).getD 0) cls offset key (.read n)).park h true (w p) := by
  subst hp
  simp only [State.startLoad, hrefill, haccess, Bool.false_eq_true, ↓reduceIte]

end

/-- A load whose page-table read leaves the core parks (R258). -/
theorem startLoad_refills {s : State} {h : Nat} (len va n : Nat) (w : Place → Await) (f : Nat → Hart → Hart)
    (hrefill : s.refills h true = true) : s.startLoad h len va n .refill w f = s.park h true .refill := by
  simp [State.startLoad, hrefill]

theorem execHartLoad_of_issues {s : State} {h : Fin 3072} {k : LoadKind} (short : Bool) (rd rs1 : Fin 32) (imm : BitVec 12)
    (reach : CoreReach) (hissues : s.issues h.val = true) (hfs : loadsFp k = true → (s.hart h.val).fs ≠ 0) :
    execHartLoad h k short rd rs1 imm reach s = .next (s.startLoad h.val (instrLen short)
      ((s.hart h.val).address rs1.val imm) (loadSize k) reach
      (.load k (instrLen short) rd.val ((s.hart h.val).address rs1.val imm)) (loadInto k rd.val)) := by
  have hlegal : ¬ (loadsFp k && decide ((s.hart h.val).fs = 0)) = true := by simpa using hfs
  simp only [execHartLoad, hissues, if_neg hlegal]
  rfl

theorem execVld_of_aligned {s : State} {h : Fin 3072} {imm : BitVec 12} {rs1 : Fin 32} (vd : Fin 32) (reach : CoreReach)
    (hissues : s.issues h.val = true) (hfs : (s.hart h.val).fs ≠ 0)
    (haligned : (s.hart h.val).address rs1.val imm % 16 = 0) :
    execVld h imm rs1 vd reach s = .next (s.startLoad h.val 4 ((s.hart h.val).address rs1.val imm) 16 reach
      (.vload vd.val ((s.hart h.val).address rs1.val imm)) fun v t => t.setVreg vd.val v) := by
  simp [execVld, hissues, hfs, haligned]

/-! Stores (R259, R261, R284). -/

theorem execHartStore_of_access {s u : State} {h : Fin 3072} {k : StoreKind} {rs1 : Fin 32} {imm : BitVec 12} {refill : Bool}
    {p : Place} (short : Bool) (rs2 : Fin 32) (hissues : s.issues h.val = true)
    (hfs : storesFp k = true → (s.hart h.val).fs ≠ 0) (hrefill : s.refills h.val refill = false)
    (haccess : s.access h.val true ((s.hart h.val).address rs1.val imm) (storeSize k) = .ok (p, u)) :
    execHartStore h k short rs2 rs1 imm refill s = .next (u.storeAt h.val (instrLen short) p (leBytes (storeSize k)
      (if storesFp k then (s.hart h.val).freg rs2.val else (s.hart h.val).reg rs2.val))) := by
  have hlegal : ¬ (storesFp k && decide ((s.hart h.val).fs = 0)) = true := by simpa using hfs
  simp only [execHartStore, hissues, if_neg hlegal, hrefill, haccess]
  rfl

theorem execVst_of_access {s u : State} {h : Fin 3072} {rs1 : Fin 32} {imm : BitVec 12} {refill : Bool} {p : Place}
    (vs3 : Fin 32) (hissues : s.issues h.val = true) (hfs : (s.hart h.val).fs ≠ 0)
    (haligned : (s.hart h.val).address rs1.val imm % 16 = 0) (hrefill : s.refills h.val refill = false)
    (haccess : s.access h.val true ((s.hart h.val).address rs1.val imm) 16 = .ok (p, u)) :
    execVst h imm vs3 rs1 refill s = .next (u.storeAt h.val 4 p (leBytes 16 ((s.hart h.val).vreg vs3.val))) := by
  simp [execVst, hissues, hfs, haligned, hrefill, haccess]

theorem execStoreBufferDrain_of_found {s : State} {core : Fin 192} {e : HartStore}
    (he : s.stores.find? (fun e => decide (e.core = core.val)) = some e) :
    ∃ u, u = (if e.io then ({ s with stores := s.stores.erase e } : State).ioWrite e.addr e.bytes
        else ({ s with stores := s.stores.erase e } : State).write e.addr e.bytes) ∧
      execStoreBufferDrain core s = .next ((u.hartsOn core.val).foldl (fun (v : State) h => v.settleHart h) u) := by
  simp only [execStoreBufferDrain, he, exists_eq_left]

/-! Atomics (R282, R289). -/

section
variable {s u : State} {h : Fin 3072} {a : HartAtomic} {wide rl : Bool} {rs1 : Fin 32} {reach : CoreReach} {p : Place}

theorem execHartAmo_next (rd rs2 : Fin 32) (s : State) : ∃ t, execHartAmo h a wide rl rd rs1 rs2 reach s = .next t := by
  unfold execHartAmo
  dsimp only
  repeat' split
  all_goals exact ⟨_, rfl⟩

variable (rd rs2 : Fin 32) (hissues : s.issues h.val = true) (hrefill : s.refills h.val (decide (reach = .refill)) = false)
  (haccess : s.access h.val (decide (a ≠ .lr)) ((s.hart h.val).reg rs1.val) (if wide then 8 else 4) = .ok (p, u))
include hissues hrefill haccess

/-- An LR or an SC that the L1 data cache satisfies takes effect at once. -/
theorem execHartAmo_l1 {n : Nat} (hp : p = .node n) (hreach : reach = .l1) (ha : a = .lr ∨ a = .sc)
    (hmay : u.atomicMay h.val a rl n (if wide then 8 else 4) = true) :
    execHartAmo h a wide rl rd rs1 rs2 reach s = .next (u.atomicAt h.val a (if wide then 8 else 4) rd.val
      ((s.hart h.val).reg rs2.val) ((s.hart h.val).reg rs1.val) n) := by
  subst hp
  simp only [execHartAmo, hissues, hrefill, haccess]
  simp [hreach, ha, hmay]

/-- An AMO on node memory parks its thread until the home slice has done it. -/
theorem execHartAmo_node {n : Nat} {fn : AmoFn} (hp : p = .node n) (ha : a = .amo fn) :
    execHartAmo h a wide rl rd rs1 rs2 reach s = .next (u.park h.val true (.atomic a (if wide then 8 else 4) rd.val
      ((s.hart h.val).reg rs2.val) ((s.hart h.val).reg rs1.val) rl p)) := by
  subst hp ha
  simp only [execHartAmo, hissues, hrefill, haccess]
  simp

/-- An AMO on another node is requested there. -/
theorem execHartAmo_far {lnode cls key offset : Nat} {fn : AmoFn} (ha : a = .amo fn) (hp : p = .far lnode cls key offset) :
    execHartAmo h a wide rl rd rs1 rs2 reach s = .next (((u.addReg .remoteAccesses 0 1).request (.hart h.val 0)
      (((u.addReg .remoteAccesses 0 1).peerPos lnode).getD 0) cls offset key
      (.amo fn (if wide then 8 else 4) ((s.hart h.val).reg rs2.val))).park h.val true (.atomic a (if wide then 8 else 4) rd.val
        ((s.hart h.val).reg rs2.val) ((s.hart h.val).reg rs1.val) rl p)) := by
  subst hp ha
  simp only [execHartAmo, hissues, hrefill, haccess]
  simp

theorem hartAmo_completes :
    Completes (.hartAmo h a wide rl rd rs1 rs2 reach) s fun t =>
      (∀ n, p = .node n → reach = .l1 → a = .lr ∨ a = .sc → u.atomicMay h.val a rl n (if wide then 8 else 4) = true →
          t = u.atomicAt h.val a (if wide then 8 else 4) rd.val ((s.hart h.val).reg rs2.val) ((s.hart h.val).reg
            rs1.val) n) ∧
        (∀ n fn, p = .node n → a = .amo fn →
          t = u.park h.val true (.atomic a (if wide then 8 else 4) rd.val ((s.hart h.val).reg rs2.val)
            ((s.hart h.val).reg rs1.val) rl p)) ∧
        (∀ fn lnode cls key offset, a = .amo fn → p = .far lnode cls key offset →
          t = ((u.addReg .remoteAccesses 0 1).request (.hart h.val 0) (((u.addReg .remoteAccesses 0 1).peerPos
            lnode).getD 0) cls offset key
            (.amo fn (if wide then 8 else 4) ((s.hart h.val).reg rs2.val))).park h.val true
              (.atomic a (if wide then 8 else 4) rd.val ((s.hart h.val).reg rs2.val) ((s.hart h.val).reg rs1.val)
                rl p)) := by
  obtain ⟨t, ht⟩ := execHartAmo_next (h := h) (a := a) (wide := wide) (rl := rl) (rs1 := rs1) (reach := reach) rd rs2 s
  have hunique : ∀ v, execHartAmo h a wide rl rd rs1 rs2 reach s = .next v → t = v := fun v hv =>
    Host.Outcome.next.inj (ht.symm.trans hv)
  refine ⟨t, ht, fun n hp hreach ha hmay => ?l1, fun n fn hp ha => ?node, fun fn lnode cls key offset ha hp => ?far⟩
  case l1 => exact hunique _ (execHartAmo_l1 rd rs2 hissues hrefill haccess hp hreach ha hmay)
  case node => exact hunique _ (execHartAmo_node rd rs2 hissues hrefill haccess hp ha)
  case far => exact hunique _ (execHartAmo_far rd rs2 hissues hrefill haccess ha hp)

end

/-! Gathers and scatters (R274, R277 to R280). -/

/-- A gather or a scatter whose every element has a place goes on to its accesses. -/
theorem gatherStart_of_places {s u : State} {h et iw sc vi rs1 vd : Nat} {store refill : Bool} {ps : List (Nat × Place)}
    (go : List (Nat × Place) → State → State) (hfs : (s.hart h).fs ≠ 0) (hrefill : s.refills h refill = false)
    (hgroup : vi % ceilDiv (laneCount 128 et * (8 * 2 ^ iw)) 128 = 0)
    (hio : s.gatherIo h store (gatherAddrs (s.hart h) et iw sc vi rs1) = false)
    (hplaces : s.gatherPlaces h store (laneBits et / 8) ((gatherAddrs (s.hart h) et iw sc vi rs1).headD 0) 0
      (gatherAddrs (s.hart h) et iw sc vi rs1) = .ok (ps, u))
    (hvd : store = false → vd < vi ∨ vi + ceilDiv (laneCount 128 et * (8 * 2 ^ iw)) 128 ≤ vd) :
    s.gatherStart h store refill et iw sc vi rs1 vd go = go ps u := by
  have hlegal : ¬ ((decide ((s.hart h).fs = 0) || decide (vi % ceilDiv (laneCount 128 et * (8 * 2 ^ iw)) 128 ≠ 0) ||
      (!store && decide (vi ≤ vd ∧ vd < vi + ceilDiv (laneCount 128 et * (8 * 2 ^ iw)) 128))) = true) := by
    simp only [hfs, hgroup, Bool.or_eq_true, Bool.and_eq_true, Bool.not_eq_true', decide_eq_true_eq]
    rintro ((hoff | hrem) | ⟨hgather, hover⟩)
    · exact hoff
    · exact hrem rfl
    · have := hvd hgather
      omega
  simp only [State.gatherStart, if_neg hlegal, hrefill, hio, hplaces, Bool.false_eq_true, ↓reduceIte]

/-- The requests for the remote elements of a gather, each with its element's number as its tag. -/
def State.askGather (s : State) (h et : Nat) (ps : List (Nat × Place)) : State :=
  ps.zipIdx.foldl (fun (v : State) e =>
    match e.1.2 with
    | .far lnode cls key offset =>
      (v.addReg .remoteAccesses 0 1).request (.hart h e.2) ((v.peerPos lnode).getD 0) cls offset key
        (.read (laneBits et / 8))
    | _ => v) s

/-- The writes that a scatter of the lanes of `x` posts to other nodes. -/
def State.postScatter (s : State) (h et x : Nat) (ps : List (Nat × Place)) : State :=
  ps.zipIdx.foldl (fun (v : State) e =>
    match e.1.2 with
    | .far lnode cls key offset =>
      (v.addReg .remoteAccesses 0 1).request (.hart h 0) ((v.peerPos lnode).getD 0) cls offset key
        (.write (leBytes (laneBits et / 8) (lane et x e.2)) false)
    | _ => v) s

/-- The writes of a scatter of the lanes of `x` to node memory. -/
def scatterWrites (et x : Nat) (ps : List (Nat × Place)) : List (Nat × List Byte) :=
  ps.zipIdx.filterMap fun e =>
    match e.1.2 with
    | .node a => some (a, leBytes (laneBits et / 8) (lane et x e.2))
    | _ => none

section
variable {s u : State} {h : Fin 3072} {et : Fin 8} {iw sc : Fin 4} {vi rs1 : Fin 32} {ps : List (Nat × Place)}
  (hissues : s.issues h.val = true) (hfs : (s.hart h.val).fs ≠ 0)
  (hgroup : vi.val % ceilDiv (laneCount 128 et.val * (8 * 2 ^ iw.val)) 128 = 0)
include hissues hfs hgroup

theorem execVgath_of_places {vd : Fin 32} {reach : CoreReach} (hrefill : s.refills h.val (decide (reach = .refill)) = false)
    (hio : s.gatherIo h.val false (gatherAddrs (s.hart h.val) et.val iw.val sc.val vi.val rs1.val) = false)
    (hplaces : s.gatherPlaces h.val false (laneBits et.val / 8)
      ((gatherAddrs (s.hart h.val) et.val iw.val sc.val vi.val rs1.val).headD 0) 0
      (gatherAddrs (s.hart h.val) et.val iw.val sc.val vi.val rs1.val) = .ok (ps, u))
    (hvd : vd.val < vi.val ∨ vi.val + ceilDiv (laneCount 128 et.val * (8 * 2 ^ iw.val)) 128 ≤ vd.val) :
    execVgath h et iw sc vi rs1 vd reach s = .next (if reach = .l1 && !ps.any fun e => e.2.isFar then
      (u.returnGather h.val et.val vd.val ps).getD u
      else (u.askGather h.val et.val ps).park h.val true (.gather et.val vd.val ps)) := by
  simp only [execVgath, hissues, gatherStart_of_places _ hfs hrefill hgroup hio hplaces fun _ => hvd]
  rfl

theorem execVscat_of_places {refill : Bool} (vs3 : Fin 32) (hrefill : s.refills h.val refill = false)
    (hio : s.gatherIo h.val true (gatherAddrs (s.hart h.val) et.val iw.val sc.val vi.val rs1.val) = false)
    (hplaces : s.gatherPlaces h.val true (laneBits et.val / 8)
      ((gatherAddrs (s.hart h.val) et.val iw.val sc.val vi.val rs1.val).headD 0) 0
      (gatherAddrs (s.hart h.val) et.val iw.val sc.val vi.val rs1.val) = .ok (ps, u)) :
    execVscat h et iw sc vi rs1 vs3 refill s =
      .next ((u.postScatter h.val et.val ((s.hart h.val).vreg vs3.val) ps).park h.val true
        (.scatter (scatterWrites et.val ((s.hart h.val).vreg vs3.val) ps))) := by
  simp only [execVscat, hissues, gatherStart_of_places _ hfs hrefill hgroup hio hplaces nofun]
  rfl

end

/-! Returns (R248, R259, R262, R292). -/

theorem execAccessReturn_of_returned {s u : State} {h : Fin 3072} (hparked : s.hartSt h.val = hsParked)
    (hcore : s.reg .coreFailed (s.coreOf h.val) = 0) (hup : s.isIn stFaulted = false) (hu : s.returned h.val = some u) :
    execAccessReturn h s = .next (u.wake h.val) := by
  simp [execAccessReturn, hparked, hcore, hup, hu]

/-- Settles O31: each access by where its address leads, which says whether it ends at once or parks its thread; the other
commands by the branch that their hypotheses select. -/
theorem hartAccessesComplete : Obligations.HartAccessesComplete := by
  unfold Obligations.HartAccessesComplete
  refine ⟨?load, ?loadRefill, ?vld, ?store, ?vst, ?drain, ?amo, ?vgath, ?vscat, ?accessReturn⟩
  case load =>
    intro s h k short rd rs1 imm reach p u hissues hfs hrefill haccess
    refine ⟨_, execHartLoad_of_issues short rd rs1 imm reach hissues hfs, fun a hp hreach hclean => ?l1,
      fun a hp hreach => ?beyond, fun a hp => ?io, fun lnode cls key offset hp => ?far⟩
    case l1 => exact startLoad_l1 _ _ hrefill haccess hp hreach hclean
    case beyond => exact startLoad_beyond _ _ hrefill haccess hp hreach
    case io => exact startLoad_io _ _ hrefill haccess hp
    case far => exact startLoad_far _ _ hrefill haccess hp
  case loadRefill =>
    intro s h k short rd rs1 imm hissues hfs hrefill
    exact ⟨_, execHartLoad_of_issues short rd rs1 imm .refill hissues hfs, startLoad_refills _ _ _ _ _ hrefill⟩
  case vld =>
    intro s h imm rs1 vd reach p u hissues hfs haligned hrefill haccess
    refine ⟨_, execVld_of_aligned vd reach hissues hfs haligned, fun a hp hreach hclean => ?l1, fun a hp hreach => ?beyond⟩
    case l1 => exact startLoad_l1 _ _ hrefill haccess hp hreach hclean
    case beyond => exact startLoad_beyond _ _ hrefill haccess hp hreach
  case store =>
    intro s h k short rs2 rs1 imm refill p u hissues hfs hrefill haccess
    exact ⟨_, execHartStore_of_access short rs2 hissues hfs hrefill haccess, rfl⟩
  case vst =>
    intro s h imm vs3 rs1 refill p u hissues hfs haligned hrefill haccess
    exact ⟨_, execVst_of_access vs3 hissues hfs haligned hrefill haccess, rfl⟩
  case drain =>
    intro s core e he
    obtain ⟨u, hu, hexec⟩ := execStoreBufferDrain_of_found he
    exact ⟨_, hexec, u, hu, rfl⟩
  case amo =>
    intro s h a wide rl rd rs1 rs2 reach p u hissues hrefill haccess
    exact hartAmo_completes rd rs2 hissues hrefill haccess
  case vgath =>
    intro s h et iw sc vi rs1 vd reach ps u hissues hfs hrefill hgroup hio hplaces hvd
    refine ⟨_, execVgath_of_places hissues hfs hgroup hrefill hio hplaces hvd, fun v hreach hnear hv => ?near,
      fun hleaves => ?far⟩
    case near => rw [if_pos (by simpa [hreach] using hnear), hv, Option.getD_some]
    case far =>
      have hleaves' : (decide (reach = .l1) && !ps.any fun e => e.2.isFar) = false := by
        obtain hreach | ⟨e, he, hfar⟩ := hleaves
        · rw [decide_eq_false hreach, Bool.false_and]
        · have hany : (ps.any fun e => e.2.isFar) = true := List.any_eq_true.2 ⟨e, he, hfar⟩
          rw [hany, Bool.not_true, Bool.and_false]
      exact if_neg (Bool.eq_false_iff.1 hleaves')
  case vscat =>
    intro s h et iw sc vi rs1 vs3 refill ps u hissues hfs hrefill hgroup hio hplaces
    exact ⟨_, execVscat_of_places hissues hfs hgroup vs3 hrefill hio hplaces, _, rfl, rfl⟩
  case accessReturn =>
    intro s h u hparked hcore hup hu
    exact ⟨_, execAccessReturn_of_returned hparked hcore hup hu, rfl⟩

end Sys2Proof.Machine
end

section
/-! Fences, SYNC, WFI, interrupts, thread turns and the monitor's calls complete (R247, R256, R257, R260, R262, R283, R287). -/

namespace Sys2Proof.Machine

/-! Ordering and WFI (R262, R283, R287). -/

section
variable {s : State} {h : Fin 3072} (hissues : s.issues h.val = true)
include hissues

theorem execHartFence_of_issues (pred succ : BitVec 4) :
    execHartFence h pred succ s = .next (if ((pred.getLsbD 0 && s.undrained h.val false) ||
      (pred.getLsbD 2 && s.undrained h.val true)) = true ∧ succ ≠ 0
        then s.park h.val false .fence else s.retire h.val 4 id) := by
  simp only [execHartFence, hissues, apply_ite Host.Outcome.next, Bool.and_eq_true, decide_eq_true_eq]
  rfl

theorem execSync_of_fpOn (ra nv : Bool) (hfs : (s.hart h.val).fs ≠ 0) :
    execSync h ra nv s = .next (if s.syncHolds h.val nv ra then s.endSync h.val ra
      else s.park h.val false (.sync nv ra)) := by
  simp [execSync, hissues, hfs, apply_ite Host.Outcome.next]

theorem execHartWfi_of_issues :
    execHartWfi h s = .next (if (s.hart h.val).ip ≠ 0 then (s.retire h.val 4 id).takeInterrupt h.val
      else s.park h.val false .wfi) := by
  simp only [execHartWfi, hissues, apply_ite Host.Outcome.next]
  rfl

end

theorem execInterruptPending_of_started {s : State} {h : Fin 3072} (irq : HartInterrupt) (hhart : s.hartSt h.val ≠ hsNone)
    (hruns : s.hartSt h.val ≠ hsEnded) : execInterruptPending h irq s = .next (s.pend h.val irq) := by
  simp [execInterruptPending, hhart, hruns]

/-! What a write of an integer register of a hart leaves. -/

theorem Hart.reg_setReg_of_ne (t : Hart) {n k : Nat} (v : Nat) (hk : k ≠ n) : (t.setReg n v).reg k = t.reg k := by
  unfold Hart.setReg
  split
  · rfl
  · simp [Hart.reg, Store.at, Store.put, Store.get_set, hk.symm]

theorem Hart.setReg_timer (t : Hart) (n v : Nat) : (t.setReg n v).timer = t.timer := by
  unfold Hart.setReg; split <;> rfl

theorem Hart.setReg_ip (t : Hart) (n v : Nat) : (t.setReg n v).ip = t.ip := by
  unfold Hart.setReg; split <;> rfl

/-! The monitor's calls (R247). -/

/-- A call from S-mode is answered. -/
theorem sbiCall_of_supervisor {s : State} {h eid : Nat} (f : Hart → State) (hissues : s.issues h = true)
    (heid : (s.hart h).reg 17 = eid) (huser : (s.hart h).user = false) : s.sbiCall h eid f = .next (f (s.hart h)) := by
  simp [State.sbiCall, hissues, heid, huser]

/-- A successful call leaves 0 in a0, and the hart goes on after its `ecall` with its timer and its pending interrupts. -/
theorem sbiReturn_ok_facts (s : State) (h value : Nat) :
    ((s.sbiReturn h 0 value).hart h).reg 10 = 0 ∧ ((s.sbiReturn h 0 value).hart h).pc = ((s.hart h).pc + 4) % 2 ^ 64 ∧
      ((s.sbiReturn h 0 value).hart h).timer = (s.hart h).timer ∧ ((s.sbiReturn h 0 value).hart h).ip = (s.hart h).ip := by
  have ha0 : (((s.hart h).setReg 10 (unsigned 64 0)).setReg 11 value).reg 10 = 0 := by
    rw [Hart.reg_setReg_of_ne _ _ (by decide), Hart.reg_setReg _ _ _ (by decide)]
    rfl
  unfold State.sbiReturn
  rw [State.hart_retire]
  simp only [Hart.setReg_pc, Hart.setReg_timer, Hart.setReg_ip, and_true]
  exact ha0

/-- The answer of a base call by its function number. -/
theorem sbiBaseCall_completes (s : State) (h : Fin 3072) (hissues : s.issues h.val = true)
    (heid : (s.hart h.val).reg 17 = 0x10) (huser : (s.hart h.val).user = false) :
    Completes (.sbiBaseCall h) s fun t =>
      ((s.hart h.val).reg 16 = 0 → t = s.sbiReturn h.val 0 0x2000000) ∧
        ((s.hart h.val).reg 16 = 3 → t = s.sbiReturn h.val 0 (ofBool (sbiExtensions.contains ((s.hart h.val).reg
          10)))) ∧
        (6 < (s.hart h.val).reg 16 → t = s.sbiReturn h.val (-2) 0) := by
  have hexec : execSbiBaseCall h s = _ := sbiCall_of_supervisor _ hissues heid huser
  refine ⟨_, hexec, fun hfn => ?_, fun hfn => ?_, fun hfn => ?_⟩
  · simp only [hfn]
  · simp only [hfn]
  · obtain ⟨k, hk⟩ := Nat.exists_eq_add_of_le' hfn
    simp only [hk]

/-- The hart with its timer set to `due`, and its timer interrupt no longer pending. -/
def State.timerSet (s : State) (h due : Nat) : State :=
  s.setHart h { s.hart h with ip := withoutBit (s.hart h).ip 5, timer := some due }

theorem execSbiSetTimer_of_supervisor {s : State} {h : Fin 3072} (hissues : s.issues h.val = true)
    (heid : (s.hart h.val).reg 17 = 0x54494D45) (huser : (s.hart h.val).user = false) (hfn : (s.hart h.val).reg 16 = 0) :
    execSbiSetTimer h s = .next (if (s.hart h.val).reg 10 ≤ s.now
      then ((s.timerSet h.val ((s.hart h.val).reg 10)).sbiReturn h.val 0 0).pend h.val .timer
      else (s.timerSet h.val ((s.hart h.val).reg 10)).sbiReturn h.val 0 0) := by
  refine (sbiCall_of_supervisor _ hissues heid huser).trans ?_
  simp only [hfn]
  rfl

theorem sbiSetTimer_completes (s : State) (h : Fin 3072) (hissues : s.issues h.val = true)
    (heid : (s.hart h.val).reg 17 = 0x54494D45) (huser : (s.hart h.val).user = false) (hfn : (s.hart h.val).reg 16 = 0) :
    Completes (.sbiSetTimer h) s fun t =>
      (s.now < (s.hart h.val).reg 10 →
        (t.hart h.val).timer = some ((s.hart h.val).reg 10) ∧ bit (t.hart h.val).ip 5 = false ∧
          (t.hart h.val).reg 10 = 0 ∧ (t.hart h.val).pc = ((s.hart h.val).pc + 4) % 2 ^ 64) ∧
        ((s.hart h.val).reg 10 ≤ s.now → ∃ u : State, t = u.pend h.val .timer ∧ (u.hart h.val).reg 10 = 0) := by
  obtain ⟨ha0, hpc, htimer, hip⟩ := sbiReturn_ok_facts (s.timerSet h.val ((s.hart h.val).reg 10)) h.val 0
  have hset : (s.timerSet h.val ((s.hart h.val).reg 10)).hart h.val =
      { s.hart h.val with ip := withoutBit (s.hart h.val).ip 5, timer := some ((s.hart h.val).reg 10) } := by
    rw [State.timerSet, State.hart_setHart, if_pos rfl]
  rw [hset] at hpc htimer hip
  refine ⟨_, execSbiSetTimer_of_supervisor hissues heid huser hfn, fun hlater => ?_, fun hdue => ?_⟩
  · rw [if_neg (Nat.not_le.2 hlater)]
    exact ⟨htimer, by rw [hip, bit_withoutBit]; rfl, ha0, hpc⟩
  · rw [if_pos hdue]
    exact ⟨_, rfl, ha0⟩

/-- The harts that a call of `SBI_SEND_IPI` names (R247). -/
def State.ipiHarts (s : State) (t : Hart) : List Nat :=
  if t.reg 11 = 2 ^ 64 - 1 then List.range (s.reg .hartCount)
  else ((List.range 64).filter fun k => bit (t.reg 10) k).map fun k => t.reg 11 + k

theorem execSbiSendIpi_of_supervisor {s : State} {h : Fin 3072} (hissues : s.issues h.val = true)
    (heid : (s.hart h.val).reg 17 = 0x735049) (huser : (s.hart h.val).user = false) (hfn : (s.hart h.val).reg 16 = 0)
    (hall : ((s.ipiHarts (s.hart h.val)).any fun k => decide (s.reg .hartCount ≤ k)) = false) :
    execSbiSendIpi h s = .next (((s.ipiHarts (s.hart h.val)).filter fun k =>
      decide ((s.sbiReturn h.val 0 0).hartSt k ≠ hsNone) && decide ((s.sbiReturn h.val 0 0).hartSt k ≠ hsEnded)).foldl
        (fun (u : State) k => u.pend k .software) (s.sbiReturn h.val 0 0)) := by
  refine (sbiCall_of_supervisor _ hissues heid huser).trans (congrArg Host.Outcome.next ?_)
  exact (if_neg fun h => h hfn).trans (if_neg (Bool.eq_false_iff.1 hall))

theorem execSbiSystemReset_of_shutdown {s : State} {h : Fin 3072} (hissues : s.issues h.val = true)
    (heid : (s.hart h.val).reg 17 = 0x53525354) (huser : (s.hart h.val).user = false) (hfn : (s.hart h.val).reg 16 = 0)
    (htype : (s.hart h.val).reg 10 % 2 ^ 32 = 0) :
    execSbiSystemReset h s = .next ((s.setReg .hartState h.val hsEnded).passTurn (s.coreOf h.val) (s.threadOf h.val)) := by
  refine (sbiCall_of_supervisor _ hissues heid huser).trans (congrArg Host.Outcome.next ?_)
  exact (if_neg fun h => h hfn).trans (if_pos htype)

/-! `svxrerr` (R257). -/

/-- A write of zero from S-mode clears `svxrerr`. -/
theorem csrWrite_svxrerr_zero {s : State} {h : Nat} (huser : (s.hart h).user = false) :
    s.csrWrite h 0x5C1 0 = some (s.setReg .svxrerr h 0) := by
  have hread : (s.csrRead h 0x5C1).isNone = false := by
    simp [State.csrRead, Hart.reachesCsr, huser, csrMode, field]
  have hreadOnly : csrReadOnly 0x5C1 = false := by decide
  simp only [State.csrWrite, hread, hreadOnly]
  rfl

theorem svxrerrClear_completes (s : State) (h : Fin 3072) (hissues : s.issues h.val = true)
    (huser : (s.hart h.val).user = false) :
    Completes (.svxrerrClear h) s fun t =>
      t.reg .svxrerr h = 0 ∧ (t.hart h.val).pc = ((s.hart h.val).pc + 4) % 2 ^ 64 ∧ RegsKept [.svxrerr] s t ∧
        MemKept s t := by
  have hexec : execSvxrerrClear h s = .next ((s.setReg .svxrerr h.val 0).retire h.val 4 id) := by
    simp [execSvxrerrClear, hissues, csrWrite_svxrerr_zero huser]
  obtain ⟨hregs, hmem⟩ := retire_kept (s.setReg .svxrerr h.val 0) h.val 4 id
  refine ⟨_, hexec, ?_, ?_, fun r hr i => ?_, hmem⟩
  · rw [hregs _ List.not_mem_nil, State.reg_setReg_same]
    rfl
  · rw [State.hart_retire]
    rfl
  · rw [hregs r List.not_mem_nil, State.reg_setReg_ne _ fun e => hr (List.mem_singleton.2 e.symm)]

/-- Settles O32: each command by the branch of its meaning that its hypotheses select; a call of the monitor by its function. -/
theorem hartControlComplete : Obligations.HartControlComplete := by
  unfold Obligations.HartControlComplete
  refine ⟨?fence, ?sync, ?wfi, ?interrupt, fun _ _ => ⟨_, rfl, rfl⟩, sbiBaseCall_completes, sbiSetTimer_completes, ?sendIpi,
    ?systemReset, svxrerrClear_completes⟩
  case fence =>
    intro s h pred succ hissues
    exact ⟨_, execHartFence_of_issues hissues pred succ, rfl⟩
  case sync =>
    intro s h ra nv hissues hfs
    exact ⟨_, execSync_of_fpOn hissues ra nv hfs, fun hholds => if_pos hholds, fun hholds => if_neg (Bool.eq_false_iff.1 hholds)⟩
  case wfi =>
    intro s h hissues
    exact ⟨_, execHartWfi_of_issues hissues, fun hip => if_pos hip, fun hip => if_neg fun h => h hip⟩
  case interrupt =>
    intro s h irq hhart hruns
    exact ⟨_, execInterruptPending_of_started irq hhart hruns, rfl⟩
  case sendIpi =>
    intro s h hissues heid huser hfn hall
    exact ⟨_, execSbiSendIpi_of_supervisor hissues heid huser hfn hall, rfl⟩
  case systemReset =>
    intro s h hissues heid huser hfn htype
    exact ⟨_, execSbiSystemReset_of_shutdown hissues heid huser hfn htype, rfl⟩

end Sys2Proof.Machine
end

section
/-! What the harts, the fabric, mail and the collectives leave (R264, R268, R375, R396, R410): the registers and the memory from what
each command may touch. -/

namespace Sys2Proof.Machine

/-- `leaves_of_touches` for each command of a list, from the list of what they may touch. -/
theorem forall_leaves_of_touches {cs : List Instr} {Ts : List (Option Reg → Bool)} {rs : List Reg}
    (hcs : cs.map Instr.touches = Ts) (h : (Ts.all fun T => touchesOnly T rs && !T none) = true) : ∀ c ∈ cs, Leaves rs c := by
  intro c hc
  have htouch := List.all_eq_true.1 h _ (hcs ▸ List.mem_map_of_mem hc)
  simp only [Bool.and_eq_true, Bool.not_eq_true'] at htouch
  obtain ⟨hregs, hmem⟩ := htouch
  exact leaves_of_touches rfl hregs hmem

/-- The registers that the commands of the fabric, of mail and of the collectives may touch, where error records are among them:
the requests share what their arrival may touch, the answers what their delivery may, the COLL entries what they all do. They are
one statement, as the kernel then evaluates what they share once. -/
theorem fabricCommands_touchOnly :
    touchesOnly touchArrive (.epochStaleCnt :: .keyMismatchCnt :: .fwdBytes :: .shardDir :: .raccDone :: errorRegs) ∧
    touchesOnly touchExecPktWrite (.epochStaleCnt :: .keyMismatchCnt :: .fwdBytes :: .shardDir :: .raccDone ::
      errorRegs) ∧
    touchesOnly touchExecRaccCloseMessage (.epochStaleCnt :: .keyMismatchCnt :: .fwdBytes :: .shardDir :: .raccDone ::
      errorRegs) ∧
    touchesOnly touchAnswerArrives (.specStalls :: .hartState :: .remoteWriteErrors :: .epochStaleCnt :: .fwdBytes ::
      .svxrerr :: .hartTurn :: errorRegs) ∧
    touchesOnly touchExecPktNack (.specStalls :: .hartState :: .remoteWriteErrors :: .epochStaleCnt :: .fwdBytes ::
      .mailDrops :: .svxrerr :: .hartTurn :: errorRegs) ∧
    touchesOnly touchExecMailComplete (.mailDone :: errorRegs) ∧
    touchesOnly touchExecPktMail (.epochStaleCnt :: .keyMismatchCnt :: .fwdBytes :: .mailDrops :: errorRegs) ∧
    touchesOnly touchExecPktMailAck (.epochStaleCnt :: .fwdBytes :: .mailDrops :: errorRegs) ∧
    touchesOnly touchJoinColl (.tableState :: .specStalls :: .hartState :: .recoveryState :: .lullHeld :: errorRegs) ∧
    touchesOnly touchExecCollNodeLocalStage (.tableState :: .hartState :: .collInstances :: .collAborts :: .collDropped ::
      .collGateWait :: .collRetainFull :: .recoveryState :: .lullHeld :: errorRegs) ∧
    touchesOnly touchExecCollChunkReceive (.tableState :: .hartState :: .epochStaleCnt :: .fwdBytes :: .collInstances ::
      .collAborts :: .collDigestFails :: .collDropped :: .collLateDrops :: .collGateWait :: .collRetainFull ::
      .recoveryState :: .lullHeld :: errorRegs) ∧
    touchesOnly touchExecCollRetentionAck (.tableState :: .hartState :: .epochStaleCnt :: .fwdBytes :: .collInstances ::
      .collAborts :: .collDigestFails :: .collDropped :: .collLateDrops :: .collGateWait :: .collRetainFull ::
      .recoveryState :: .lullHeld :: errorRegs) ∧
    touchesOnly touchExecCollCommit (.tableState :: .hartState :: .epochStaleCnt :: .fwdBytes :: .collInstances ::
      .collDropped :: .collLateDrops :: .collGateWait :: .recoveryState :: .lullHeld :: errorRegs) ∧
    touchesOnly touchExecCollAbort (.tableState :: .hartState :: .epochStaleCnt :: .fwdBytes :: .collInstances ::
      .collAborts :: .collDropped :: .collLateDrops :: .collGateWait :: .collRetainFull :: .recoveryState :: .lullHeld ::
      errorRegs) ∧
    touchesOnly touchExecDigestMismatchReport (.tableState :: .hartState :: .epochStaleCnt :: .fwdBytes :: .collInstances
      :: .collAborts :: .collDropped :: .collLateDrops :: .collGateWait :: .collRetainFull :: .recoveryState :: .lullHeld
      :: errorRegs) ∧
    touchesOnly touchExecChunkRefetchRequest (.epochStaleCnt :: .fwdBytes :: .collLateDrops :: errorRegs) ∧
    touchesOnly touchExecCollAbandon (.tableState :: .hartState :: .collAbandoned :: .recoveryState :: .lullHeld ::
      errorRegs) := by
  decide +kernel

/-- Settles O42: what a command may touch is in the list of its clause, and where the clause says so node memory is not in it. -/
theorem hartAndFabricFrames : Obligations.HartAndFabricFrames := by
  unfold Obligations.HartAndFabricFrames
  obtain ⟨hArrive, hPktWrite, hRaccCloseMessage, hAnswerArrives, hPktNack, hMailComplete, hPktMail, hPktMailAck,
    hJoinColl, hCollNodeLocalStage, hCollChunkReceive, hCollRetentionAck, hCollCommit, hCollAbort, hDigestMismatchReport,
    hChunkRefetchRequest, hCollAbandon⟩ := fabricCommands_touchOnly
  refine ⟨?svxArith, ?vsplat, ?vext, ?fOrD, ?hartLoad, ?vld, ?hartStore, ?vst, ?drain, ?hartAmo, ?vgath, ?vscat, ?accessReturn,
    ?hartFence, ?sync, ?hartWfi, ?interrupt, ?turnLimit, ?sbiBase, ?sbiCalls, ?svxrerr, ?pktRead, ?pktWrite, ?pktAmo, ?pktRacc,
    ?pktReadResp, ?pktAck, ?pktAmoResp, ?pktNack, ?raccClose, ?raccRoundEnd, ?remoteTimeout, ?mailDoorbell, ?mailComplete,
    ?pktMail, ?mailTransit, ?pktMailAck, ?mailRetransmit, ?collEntries, ?collStage, ?collChunk, ?collRetention, ?collCommit,
    ?collAbort, ?digestMismatch, ?chunkRefetch, ?collAbandon⟩
  case svxArith =>
    intro h w u vs2 vs1 et vd
    exact forall_leaves_of_touches (Ts := List.replicate 24 touchSvxArith) rfl (by decide +kernel)
  case vsplat => exact fun _ _ _ _ _ => leaves_of_touches (T := touchExecVsplat) rfl (by decide +kernel) (by decide +kernel)
  case vext => exact fun _ _ _ _ _ => leaves_of_touches (T := touchExecVext) rfl (by decide +kernel) (by decide +kernel)
  case fOrD => exact fun _ _ _ => leavesRegs_of_touches (T := touchExecFOrDInstruction) rfl (by decide +kernel)
  case hartLoad => exact fun _ _ _ _ _ _ _ => leavesRegs_of_touches (T := touchExecHartLoad) rfl (by decide +kernel)
  case vld => exact fun _ _ _ _ _ => leavesRegs_of_touches (T := touchExecVld) rfl (by decide +kernel)
  case hartStore => exact fun _ _ _ _ _ _ _ => leavesRegs_of_touches (T := touchExecHartStore) rfl (by decide +kernel)
  case vst => exact fun _ _ _ _ _ => leavesRegs_of_touches (T := touchExecVst) rfl (by decide +kernel)
  case drain => exact fun _ => leavesRegs_of_touches (T := touchExecStoreBufferDrain) rfl (by decide +kernel)
  case hartAmo => exact fun _ _ _ _ _ _ _ _ => leavesRegs_of_touches (T := touchExecHartAmo) rfl (by decide +kernel)
  case vgath => exact fun _ _ _ _ _ _ _ _ => leavesRegs_of_touches (T := touchExecVgath) rfl (by decide +kernel)
  case vscat => exact fun _ _ _ _ _ _ _ _ => leavesRegs_of_touches (T := touchExecVscat) rfl (by decide +kernel)
  case accessReturn => exact fun _ => leavesRegs_of_touches (T := touchExecAccessReturn) rfl (by decide +kernel)
  case hartFence =>
    exact fun _ _ _ => leaves_of_touches (T := touchExecHartFence) rfl (by decide +kernel) (by decide +kernel)
  case sync => exact fun _ _ _ => leaves_of_touches (T := touchExecSync) rfl (by decide +kernel) (by decide +kernel)
  case hartWfi => exact fun _ => leaves_of_touches (T := touchExecHartWfi) rfl (by decide +kernel) (by decide +kernel)
  case interrupt =>
    exact fun _ _ => leaves_of_touches (T := touchExecInterruptPending) rfl (by decide +kernel) (by decide +kernel)
  case turnLimit =>
    exact fun _ => leaves_of_touches (T := touchExecThreadTurnLimit) rfl (by decide +kernel) (by decide +kernel)
  case sbiBase => exact fun _ => leaves_of_touches (T := touchExecSbiBaseCall) rfl (by decide +kernel) (by decide +kernel)
  case sbiCalls =>
    exact fun _ => forall_leaves_of_touches (Ts := [touchExecSbiSetTimer, touchExecSbiSendIpi, touchExecSbiSystemReset]) rfl
      (by decide +kernel)
  case svxrerr => exact fun _ => leaves_of_touches (T := touchExecSvxrerrClear) rfl (by decide +kernel) (by decide +kernel)
  case pktRead => exact fun _ _ _ => leavesRegs_of_touches rfl hArrive
  case pktWrite => exact fun _ _ _ _ => leavesRegs_of_touches rfl hPktWrite
  case pktAmo => exact fun _ _ _ _ => leavesRegs_of_touches rfl hArrive
  case pktRacc => exact fun _ _ _ _ _ _ _ => leavesRegs_of_touches rfl hArrive
  case pktReadResp => exact fun _ _ _ _ => leavesRegs_of_touches rfl hAnswerArrives
  case pktAck => exact fun _ _ => leavesRegs_of_touches rfl hAnswerArrives
  case pktAmoResp => exact fun _ _ _ _ => leavesRegs_of_touches rfl hAnswerArrives
  case pktNack => exact fun _ _ _ _ => leavesRegs_of_touches rfl hPktNack
  case raccClose => exact fun _ _ _ => leavesRegs_of_touches rfl hRaccCloseMessage
  case raccRoundEnd => exact leaves_of_touches (T := touchExecRaccRoundEnd) rfl (by decide +kernel) (by decide +kernel)
  case remoteTimeout => exact fun _ => leavesRegs_of_touches (T := touchExecRemoteTimeout) rfl (by decide +kernel)
  case mailDoorbell => exact fun _ _ => leavesRegs_of_touches (T := touchExecMailDoorbell) rfl (by decide +kernel)
  case mailComplete => exact fun _ => leavesRegs_of_touches rfl hMailComplete
  case pktMail => exact fun _ _ _ _ _ _ _ _ => leavesRegs_of_touches rfl hPktMail
  case mailTransit => exact leaves_of_touches (T := touchExecMailTransitTimeout) rfl (by decide +kernel) (by decide +kernel)
  case pktMailAck => exact fun _ _ _ _ _ => leavesRegs_of_touches rfl hPktMailAck
  case mailRetransmit => exact fun _ => leavesRegs_of_touches (T := touchExecMailRetransmitTimeout) rfl (by decide +kernel)
  case collEntries =>
    exact fun _ => forall_leavesRegs_of_touches (Ts := List.replicate 7 touchJoinColl) rfl
      (List.all_eq_true.2 fun _ hT => List.eq_of_mem_replicate hT ▸ hJoinColl)
  case collStage => exact fun _ _ => leavesRegs_of_touches rfl hCollNodeLocalStage
  case collChunk => exact fun _ _ _ _ _ _ _ => leavesRegs_of_touches rfl hCollChunkReceive
  case collRetention => exact fun _ _ _ _ _ _ => leavesRegs_of_touches rfl hCollRetentionAck
  case collCommit => exact fun _ _ _ _ _ _ _ _ => leavesRegs_of_touches rfl hCollCommit
  case collAbort => exact fun _ _ _ _ _ _ => leavesRegs_of_touches rfl hCollAbort
  case digestMismatch => exact fun _ _ _ _ _ _ => leavesRegs_of_touches rfl hDigestMismatchReport
  case chunkRefetch => exact fun _ _ _ _ _ => leavesRegs_of_touches rfl hChunkRefetchRequest
  case collAbandon => exact fun _ _ => leavesRegs_of_touches rfl hCollAbandon

end Sys2Proof.Machine
end

section
/-! What the links, the host port, recovery and the epochs leave (R351, R379, R467, R478, R499, R513, R533, R544): the registers and
the memory from what each command may touch. -/

namespace Sys2Proof.Machine

/-- Settles O38: what a command may touch is in the list of its clause, and where the clause says so node memory is not in it. -/
theorem linkAndHostFrames : Obligations.LinkAndHostFrames := by
  unfold Obligations.LinkAndHostFrames
  refine ⟨?trainingOrIdle, ?linkUp, ?detectRetry, ?absentTimeout, ?laneTestStart, ?laneTestComplete, ?flitReceive, ?ackTimeout,
    ?stateMessage, ?portTest, ?wordReplay, ?bridgeTest, ?couplerBist, ?squallClear, ?peerLoss, ?hostTraining, ?hostReset,
    ?hostRead, ?hostWrite, ?backInvalidate, ?notification, ?sqTail, ?cqHead⟩
  case trainingOrIdle =>
    exact fun _ => forall_leaves_of_touches (Ts := [touchExecLinkTrainingStart, touchExecLinkFarEndIdle]) rfl (by decide +kernel)
  case linkUp => exact fun _ _ => leaves_of_touches (T := touchExecLinkUp) rfl (by decide +kernel) (by decide +kernel)
  case detectRetry =>
    exact fun _ _ => leaves_of_touches (T := touchExecLinkDetectRetry) rfl (by decide +kernel) (by decide +kernel)
  case absentTimeout =>
    exact fun _ => leaves_of_touches (T := touchExecLinkAbsentTimeout) rfl (by decide +kernel) (by decide +kernel)
  case laneTestStart => exact fun _ _ => leavesRegs_of_touches (T := touchExecLaneTestStart) rfl (by decide +kernel)
  case laneTestComplete => exact fun _ _ _ => leavesRegs_of_touches (T := touchExecLaneTestComplete) rfl (by decide +kernel)
  case flitReceive => exact fun _ _ _ _ => leavesRegs_of_touches (T := touchExecFlitReceive) rfl (by decide +kernel)
  case ackTimeout => exact fun _ => leavesRegs_of_touches (T := touchExecLinkAckTimeout) rfl (by decide +kernel)
  case stateMessage =>
    exact fun _ _ => leaves_of_touches (T := touchExecLinkStateMessage) rfl (by decide +kernel) (by decide +kernel)
  case portTest => exact fun _ _ _ => leavesRegs_of_touches (T := touchExecFabricPortTestComplete) rfl (by decide +kernel)
  case wordReplay => exact fun _ _ => leavesRegs_of_touches (T := touchExecWordReplay) rfl (by decide +kernel)
  case bridgeTest => exact fun _ _ _ => leavesRegs_of_touches (T := touchExecBridgeSegmentTestComplete) rfl (by decide +kernel)
  case couplerBist => exact fun _ _ => leavesRegs_of_touches (T := touchExecCouplerBistComplete) rfl (by decide +kernel)
  case squallClear => exact leaves_of_touches (T := touchExecSquallClear) rfl (by decide +kernel) (by decide +kernel)
  case peerLoss => exact fun _ => leavesRegs_of_touches (T := touchExecPeerLossTimeout) rfl (by decide +kernel)
  case hostTraining => exact fun _ _ _ => leavesRegs_of_touches (T := touchExecHostLinkTraining) rfl (by decide +kernel)
  case hostReset => exact fun _ => leavesRegs_of_touches (T := touchExecHostLinkReset) rfl (by decide +kernel)
  case hostRead => exact fun _ => leaves_of_touches (T := touchExecHostMemRead) rfl (by decide +kernel) (by decide +kernel)
  case hostWrite => exact fun _ _ => leavesRegs_of_touches (T := touchExecHostMemWrite) rfl (by decide +kernel)
  case backInvalidate => exact fun _ => leavesRegs_of_touches (T := touchExecBackInvalidateResponse) rfl (by decide +kernel)
  case notification => exact fun _ _ => leavesRegs_of_touches (T := touchExecNotificationPost) rfl (by decide +kernel)
  case sqTail => exact fun _ _ _ => leavesRegs_of_touches (T := touchExecSqTailDoorbell) rfl (by decide +kernel)
  case cqHead => exact fun _ _ => leavesRegs_of_touches (T := touchExecCqHeadDoorbell) rfl (by decide +kernel)

/-- Settles O40: what a command may touch is in the list of its clause, and where the clause says so node memory is not in it. -/
theorem recoveryFrames : Obligations.RecoveryFrames := by
  unfold Obligations.RecoveryFrames
  refine ⟨?snap, ?capture, ?quiesce, ?agreement, ?sweep, ?stackPart, ?drainAck, ?drainDeadline, ?shard, ?takeoverUpdate,
    ?takeoverAck, ?restore, ?nodeDigest, ?xwDigest, ?xwStreams, ?xwChunk, ?xwPairing, ?epoch, ?deadline, ?fenceMessage,
    ?jobBarrier, ?coreParity, ?coreSelftest, ?supervisor⟩
  case snap => exact fun _ => leavesRegs_of_touches (T := touchExecSnap) rfl (by decide +kernel)
  case capture => exact fun _ => leaves_of_touches (T := touchExecSnapCaptureComplete) rfl (by decide +kernel) (by decide +kernel)
  case quiesce => exact leavesRegs_of_touches (T := touchExecSnapQuiesceComplete) rfl (by decide +kernel)
  case agreement =>
    exact fun _ _ _ _ => leaves_of_touches (T := touchExecSnapAgreementComplete) rfl (by decide +kernel) (by decide +kernel)
  case sweep => exact fun _ => leaves_of_touches (T := touchExecTaggedLineSweep) rfl (by decide +kernel) (by decide +kernel)
  case stackPart => exact fun _ _ => leavesRegs_of_touches (T := touchExecStackPartComplete) rfl (by decide +kernel)
  case drainAck => exact fun _ _ _ => leavesRegs_of_touches (T := touchExecDrainAck) rfl (by decide +kernel)
  case drainDeadline => exact fun _ => leavesRegs_of_touches (T := touchExecDrainDeadlineExpiry) rfl (by decide +kernel)
  case shard => exact fun _ _ _ _ _ _ _ => leavesRegs_of_touches (T := touchExecShardReceive) rfl (by decide +kernel)
  case takeoverUpdate => exact fun _ _ _ => leavesRegs_of_touches (T := touchExecTakeoverUpdateMessage) rfl (by decide +kernel)
  case takeoverAck => exact fun _ => leavesRegs_of_touches (T := touchExecTakeoverAcknowledgement) rfl (by decide +kernel)
  case restore => exact fun _ _ => leavesRegs_of_touches (T := touchExecRestoreComplete) rfl (by decide +kernel)
  case nodeDigest => exact fun _ _ _ => leavesRegs_of_touches (T := touchExecNodeDigestMessage) rfl (by decide +kernel)
  case xwDigest => exact fun _ _ _ => leavesRegs_of_touches (T := touchExecCrosswindDigestMessage) rfl (by decide +kernel)
  case xwStreams => exact fun _ _ _ => leavesRegs_of_touches (T := touchExecCrosswindStreamDigests) rfl (by decide +kernel)
  case xwChunk => exact fun _ _ _ _ _ => leavesRegs_of_touches (T := touchExecCrosswindChunkExchange) rfl (by decide +kernel)
  case xwPairing => exact fun _ _ => leavesRegs_of_touches (T := touchExecCrosswindPairingMessage) rfl (by decide +kernel)
  case epoch => exact fun _ => leavesRegs_of_touches (T := touchExecEpoch) rfl (by decide +kernel)
  case deadline => exact fun _ _ => leavesRegs_of_touches (T := touchExecDeadlineMissed) rfl (by decide +kernel)
  case fenceMessage => exact fun _ _ _ => leavesRegs_of_touches (T := touchExecEpochFenceMessage) rfl (by decide +kernel)
  case jobBarrier => exact leavesRegs_of_touches (T := touchExecJobBarrierComplete) rfl (by decide +kernel)
  case coreParity => exact fun _ _ _ => leavesRegs_of_touches (T := touchExecCoreParityReplay) rfl (by decide +kernel)
  case coreSelftest => exact fun _ _ => leavesRegs_of_touches (T := touchExecCoreSelftestComplete) rfl (by decide +kernel)
  case supervisor => exact fun _ => leavesRegs_of_touches (T := touchExecSupervisorMismatch) rfl (by decide +kernel)

end Sys2Proof.Machine
end

section
/-! Requests at their target, and their answers: the checks in their order, packets in sequence, and each packet's completion (R365,
R366, R370, R374 to R376, R380 to R388). -/

namespace Sys2Proof.Machine

/-! What a target answers a request with (R370, R375, R376). -/

/-- A packet for this node is not for another position of the group. -/
theorem elsewhere_of_mine {s : State} {h : Header} (hmine : h.dst.val = s.lnode) : s.elsewhere h = false := by
  simp [State.elsewhere, hmine]

theorem arrive_of_staleEpoch {s : State} {q : Nat} {p : Packet} (hmine : p.h.dst.val = s.lnode) (hepoch : s.epochOk p.h = false) :
    s.arrive q p = (s.dropStale p.h).replyTo q p.h p.h.epoch.toNat (.nack 0x0E 0 none) := by
  simp [State.arrive, elsewhere_of_mine hmine, hepoch]

theorem arrive_of_wrongSource {s : State} {q : Nat} {p : Packet} (hmine : p.h.dst.val = s.lnode) (hepoch : s.epochOk p.h = true)
    (hsource : s.sourceOk q p.h = false) :
    s.arrive q p = (s.dropStale p.h).emit q (s.replyOf p.h p.h.epoch.toNat (.nack 0x0E 0 none)) := by
  simp [State.arrive, elsewhere_of_mine hmine, hepoch, hsource]

/-- A request that fails steps 3 to 5 of R375 is refused for its key, and its refusal is noted. -/
theorem serve_of_keyError {s : State} {q c : Nat} {p : Packet} (hstore : forStore p.h = false)
    (hkey : s.keyCheck p.h.key.toNat p.h.offset.toNat p.body = .error c) :
    s.serve q p = ((s.noteTurn (orderKey p.h)).noteRefusal (orderKey p.h)).refuseKey q p.h c := by
  have hkey' : (s.noteTurn (orderKey p.h)).keyCheck p.h.key.toNat p.h.offset.toNat p.body = .error c := hkey
  simp [State.serve, hstore, hkey']

theorem keyCheck_of_noRegion {s : State} {key : Nat} (offset : Nat) (b : Body) (hregion : s.region key = none) :
    s.keyCheck key offset b = .error 2 := by
  simp [State.keyCheck, hregion]

theorem keyCheck_of_outOfBounds {s : State} {key offset : Nat} {b : Body} {r : Region} (hregion : s.region key = some r)
    (hsize : r.size < offset + bodySpan b) : s.keyCheck key offset b = .error 1 := by
  simp [State.keyCheck, hregion, hsize]

theorem keyCheck_of_notPermitted {s : State} {key offset : Nat} {b : Body} {r : Region} (hregion : s.region key = some r)
    (hsize : offset + bodySpan b ≤ r.size) (hperm : bit r.perm (bodyNeeds b) = false) : s.keyCheck key offset b = .error 2 := by
  simp [State.keyCheck, hregion, Nat.not_lt.2 hsize, hperm]

/-- An event that is counted and recorded writes no memory where the trace unit has no ring. -/
theorem mem_addReg_logError_of_noRing {s : State} {r : Reg} (e : ErrorEvent) (hr : r ≠ .traceRing) (hring : s.reg .traceRing = 0) :
    ((s.addReg r 0 1).logError e).mem = s.mem :=
  (Untraced.logError e (Untraced.addReg 0 1 hr ⟨rfl, hring⟩)).1

theorem refuseKey_keyMismatchCnt (s : State) (q : Nat) (h : Header) (n : Nat) :
    (s.refuseKey q h n).reg .keyMismatchCnt = (s.reg .keyMismatchCnt + 1) % Reg.modulus .keyMismatchCnt := by
  unfold State.refuseKey State.noteMismatch State.addReg
  rw [answerBack_reg, State.reg_logError _ (by decide), State.reg_setReg_same]

theorem dropStale_epochStaleCnt (s : State) (h : Header) :
    (s.dropStale h).reg .epochStaleCnt = (s.reg .epochStaleCnt + 1) % Reg.modulus .epochStaleCnt := by
  unfold State.dropStale State.addReg
  rw [State.reg_logError _ (by decide), State.reg_setReg_same]

/-- A refusal writes no memory where the trace unit has no ring. -/
theorem refuseKey_mem_of_noRing {s : State} (q : Nat) (h : Header) (n : Nat) (hring : s.reg .traceRing = 0) :
    (s.refuseKey q h n).mem = s.mem :=
  (answerBack_mem ..).trans (mem_addReg_logError_of_noRing _ (by decide) hring)

/-- Settles O55: an arrival by the first check that fails, a service by the first of steps 3 to 5 that fails; a refusal is a count, an
error record and an answer, of which the record alone can reach memory. -/
theorem requestsAreCheckedInOrder : Obligations.RequestsAreCheckedInOrder := by
  unfold Obligations.RequestsAreCheckedInOrder
  refine ⟨?staleEpoch, ?wrongSource, ?noRegion, ?outOfBounds, ?notPermitted, ?refusal⟩
  case staleEpoch => exact fun s q p => arrive_of_staleEpoch
  case wrongSource => exact fun s q p => arrive_of_wrongSource
  case noRegion => exact fun s q p hstore hregion => serve_of_keyError hstore (keyCheck_of_noRegion _ _ hregion)
  case outOfBounds => exact fun s q p r hstore hregion hsize => serve_of_keyError hstore (keyCheck_of_outOfBounds hregion hsize)
  case notPermitted =>
    exact fun s q p r hstore hregion hsize hperm => serve_of_keyError hstore (keyCheck_of_notPermitted hregion hsize hperm)
  case refusal =>
    intro s q h n hring
    exact ⟨fun a => State.byte_congr (refuseKey_mem_of_noRing q h n hring) a,
      fun a => State.byte_congr (mem_addReg_logError_of_noRing _ (by decide) hring) a,
      refuseKey_keyMismatchCnt s q h n, dropStale_epochStaleCnt s h⟩

/-! Packets in sequence (R365, R382). -/

/-- How far a packet is ahead of the sequence of its source and class, modulo 2^16. -/
def State.ahead (s : State) (h : Header) : Nat := (h.seq.toNat + 65536 - Store.at 0 s.seqIn (orderKey h)) % 65536

/-- A packet ahead of its sequence waits, once. -/
theorem arrive_of_ahead {s : State} {q : Nat} {p : Packet} (hmine : p.h.dst.val = s.lnode) (hepoch : s.epochOk p.h = true)
    (hsource : s.sourceOk q p.h = true) (hfaulted : s.faultedRefuses p = false) (hpos : 0 < s.ahead p.h)
    (hlt : s.ahead p.h < 32768) :
    s.arrive q p = if s.early.any fun e => e.2.h = p.h then s else { s with early := s.early ++ [(q, p)] } := by
  unfold State.ahead at hpos hlt
  simp [State.arrive, elsewhere_of_mine hmine, hmine, hepoch, hsource, hfaulted, Nat.ne_of_gt hpos, hlt]

/-- A packet behind its sequence does no more than to send the answer kept for it. -/
theorem arrive_of_behind {s : State} {q : Nat} {p : Packet} (hmine : p.h.dst.val = s.lnode) (hepoch : s.epochOk p.h = true)
    (hsource : s.sourceOk q p.h = true) (hfaulted : s.faultedRefuses p = false) (hbehind : 32768 ≤ s.ahead p.h) :
    s.arrive q p = (s.answerFor p.h).elim s (s.emit ((s.dstPos p.h.src.val).getD q)) := by
  unfold State.ahead at hbehind
  have hnotNow := Nat.ne_of_gt (Nat.lt_of_lt_of_le (by decide : 0 < 32768) hbehind)
  simp [State.arrive, elsewhere_of_mine hmine, hmine, hepoch, hsource, hfaulted, hnotNow, Nat.not_lt.2 hbehind]
  cases s.answerFor p.h <;> rfl

/-- Settles O56: a packet behind its sequence by what is kept for it, one ahead of it by whether a copy of it waits already. -/
theorem packetsApplyInSequence : Obligations.PacketsApplyInSequence := by
  unfold Obligations.PacketsApplyInSequence
  intro s q p d hmine hepoch hsource hfaulted hd
  obtain rfl : s.ahead p.h = d := hd.symm
  refine ⟨?dropped, ?answeredAgain, ?waits, ?duplicate⟩
  case dropped =>
    intro hbehind hanswer
    rw [arrive_of_behind hmine hepoch hsource hfaulted hbehind, hanswer, Option.elim_none]
  case answeredAgain =>
    intro r hbehind hanswer
    rw [arrive_of_behind hmine hepoch hsource hfaulted hbehind, hanswer, Option.elim_some]
  case waits =>
    intro hpos hlt hnew
    rw [arrive_of_ahead hmine hepoch hsource hfaulted hpos hlt, if_neg (by simpa using fun a b hab => hnew (a, b) hab)]
  case duplicate =>
    intro hpos hlt hold
    rw [arrive_of_ahead hmine hepoch hsource hfaulted hpos hlt, if_pos (by simpa using hold)]

/-! Fabric packets and their answers (R366, R375, R380, R383, R386 to R388). -/

/-- Settles O33: a request by its arrival, an answer by what it answers, and the others by the branch that their hypotheses select. -/
theorem packetsComplete : Obligations.PacketsComplete := by
  unfold Obligations.PacketsComplete
  refine ⟨?read, ?write, ?amo, ?racc, ?readResp, ?ack, ?amoResp, ?nack, ?raccClose, ?roundEnd, ?timeout⟩
  case read => exact fun q h len => arrives_ok fun s => rfl
  case write => exact fun q h data poison => arrives_ok fun s => rfl
  case amo =>
    intro q h op sig
    cases op with
    | none => exact arrives_ok fun s => rfl
    | some x => exact arrives_ok fun s => rfl
  case racc => exact fun q h fn srcFmt wide data order => arrives_ok fun s => rfl
  case readResp => exact fun q h data poison => answers_ok _ fun s => rfl
  case ack => exact fun q h => answers_ok _ fun s => rfl
  case amoResp => exact fun q h old poison => answers_ok _ fun s => rfl
  case nack => exact fun q h stale cause => answers_ok _ fun s => rfl
  case raccClose =>
    intro s q h round hheard hnew
    refine ⟨_, rfl, _, rfl, ?_⟩
    rw [takeControl_of_heard hheard, if_neg (by rw [hnew]; decide)]
  case roundEnd =>
    intro s r rs hended hacked
    refine ⟨_, ?_, rfl⟩
    show execRaccRoundEnd s = _
    simp [execRaccRoundEnd, hended, hacked]
  case timeout =>
    intro s q r hfind
    refine ⟨_, ?_, rfl⟩
    show execRemoteTimeout q s = _
    simp only [execRemoteTimeout, hfind]

end Sys2Proof.Machine
end

section
/-! Mail is sent, relayed, received and acknowledged (R373, R392, R394, R396). -/

namespace Sys2Proof.Machine

/-! A packet of mail on its way (R364, R373). -/

theorem carry_of_tooManyHops {s : State} {p : Packet} (detour : Bool) (hhops : s.reg .mailHopLimit ≤ packetHops p) :
    s.carry detour p = s.addReg .mailDrops 0 1 := by
  simp [State.carry, hhops]

theorem carry_of_detour {s : State} {p : Packet} (hhops : packetHops p < s.reg .mailHopLimit)
    (hpos : (s.posOf p.h.dst.val).isSome = true) : s.carry true p = s.forward p := by
  simp [State.carry, Nat.not_le.2 hhops, hpos]

section
variable {s : State} {p : Packet} {detour : Bool} (hhops : packetHops p < s.reg .mailHopLimit)
  (hdetour : detour = false ∨ (s.posOf p.h.dst.val).isSome = false) (hup : s.isIn stFaulted = false)
include hhops hdetour hup

theorem carry_of_routed {u : State} (hroute : s.routeMail p = some u) :
    s.carry detour p = u.addReg .fwdBytes 0 (packetBytes p) := by
  have hno : (detour && (s.posOf p.h.dst.val).isSome) = false :=
    Bool.and_eq_false_iff.2 hdetour
  simp [State.carry, Nat.not_le.2 hhops, hno, hup, hroute]

theorem carry_of_held (hroute : s.routeMail p = none) : s.carry detour p = { s with transit := s.transit ++ [p] } := by
  have hno : (detour && (s.posOf p.h.dst.val).isSome) = false :=
    Bool.and_eq_false_iff.2 hdetour
  simp [State.carry, Nat.not_le.2 hhops, hno, hup, hroute]

end

theorem pktMail_completes (s : State) (via : MailPort) (h : Header) (msg pkt : Half) (total : Nat) (kind : MailKind)
    (data : List Byte) (hops : Nat) :
    Completes (.pktMail via h msg pkt total kind data hops) s fun t =>
      ∃ p : Packet, p = packetHop ⟨h, .mail msg.toNat pkt.toNat total kind data hops⟩ ∧
        (s.isMine h = true → t = s.deliverMail p msg.toNat pkt.toNat total kind data) ∧
        (s.isMine h = false → s.reg .mailHopLimit ≤ packetHops p → t = s.addReg .mailDrops 0 1) ∧
        (s.isMine h = false → packetHops p < s.reg .mailHopLimit → fromPosition via = true →
          (s.posOf h.dst.val).isSome = true → t = s.forward p) ∧
        (s.isMine h = false → packetHops p < s.reg .mailHopLimit →
          fromPosition via = false ∨ (s.posOf h.dst.val).isSome = false → s.isIn stFaulted = false →
          (∀ u, s.routeMail p = some u → t = u.addReg .fwdBytes 0 (packetBytes p)) ∧
          (s.routeMail p = none → t = { s with transit := s.transit ++ [p] })) := by
  refine ⟨_, rfl, _, rfl, ?mine, ?dropped, ?detour, ?onward⟩
  case mine => exact fun hmine => if_pos hmine
  case dropped =>
    intro hother hhops
    rw [if_neg (by simp [hother]), carry_of_tooManyHops _ hhops]
  case detour =>
    intro hother hhops hvia hpos
    rw [if_neg (by simp [hother]), hvia, carry_of_detour hhops hpos]
  case onward =>
    intro hother hhops hdetour hup
    rw [if_neg (by simp [hother])]
    exact ⟨fun u hroute => carry_of_routed hhops hdetour hup hroute, carry_of_held hhops hdetour hup⟩

theorem mailTransitTimeout_completes (s : State) (p : Packet) (ps : List Packet) (hwaits : s.transit = p :: ps) :
    Completes .mailTransitTimeout s fun t =>
      ∃ u : State, u = { s with transit := ps } ∧
        (s.isIn stFaulted = false → ∀ v, u.routeMail p = some v → t = v.addReg .fwdBytes 0 (packetBytes p)) ∧
        (s.isIn stFaulted = true ∨ u.routeMail p = none → t = u.addReg .mailDrops 0 1) := by
  have hexec : exec .mailTransitTimeout s = execMailTransitTimeout s := rfl
  have hsame : ({ s with transit := ps } : State).isIn stFaulted = s.isIn stFaulted := rfl
  unfold Completes
  rw [hexec, execMailTransitTimeout, hwaits]
  dsimp only
  rw [hsame]
  cases hfaulted : s.isIn stFaulted with
  | true => exact ⟨_, rfl, _, rfl, nofun, fun _ => rfl⟩
  | false =>
    cases hroute : ({ s with transit := ps } : State).routeMail p with
    | none => exact ⟨_, rfl, _, rfl, fun _ v hv => (by simp [hroute] at hv), fun _ => rfl⟩
    | some v =>
      refine ⟨_, rfl, _, rfl, fun _ w hw => ?_, fun h => (by simp [hroute] at h)⟩
      rw [Option.some.inj (hroute.symm.trans hw)]

/-! Mail at its source (R385, R394, R396). -/

theorem mails_jobWrite (s : State) (a : Nat) (bs : List Byte) : (s.jobWrite a bs).mails = s.mails := by
  unfold State.jobWrite
  split
  · exact State.mails_write ..
  · rfl

theorem mailComplete_completes (s : State) (q : Fin 320) (m : Mail)
    (hfind : s.mails.find? (fun m => decide (m.queue = q.val) && m.result.isSome) = some m) :
    Completes (.mailComplete q) s fun t =>
      (64 ≤ q.val → ∃ u : State, u = { s with mails := s.mails.erase m } ∧
          t = (if m.result.getD 0 = 0 then u else u.postedFailure m.bay (m.result.getD 0) m.lnode).startMails) ∧
        (q.val < 64 → ∃ u : State, t = u.startMails ∧ u.mails = s.mails.erase m ∧
          u.reg .mailDone q = (s.reg .mailDone q + 1) % Reg.modulus .mailDone) := by
  have hexec : exec (.mailComplete q) s = execMailComplete q s := rfl
  unfold Completes
  rw [hexec, execMailComplete, hfind]
  dsimp only
  by_cases hbay : 64 ≤ q.val
  · rw [if_pos hbay]
    exact ⟨_, rfl, fun _ => ⟨_, rfl, rfl⟩, fun hsoft => absurd hbay (Nat.not_le.2 hsoft)⟩
  · rw [if_neg hbay]
    refine ⟨_, rfl, fun h => absurd h hbay, fun _ => ⟨_, rfl, ?mails, ?done⟩⟩
    case mails =>
      unfold State.addReg
      rw [State.mails_setReg]
      split
      · rfl
      · exact mails_jobWrite ..
    case done =>
      unfold State.addReg
      rw [State.reg_setReg_same]
      split
      · rfl
      · rw [jobWrite_reg _ _ _ _ (by decide)]
        rfl

theorem pktMailAck_completes (s : State) (h : Header) (msg pkt : Half) (done : Bool) (hops : Nat) :
    Completes (.pktMailAck h msg pkt done hops) s fun t =>
      (∀ m, s.isMine h = true → s.epochOk h = true → s.mailOut h.src.val msg.toNat = some m →
        t = (s.setMail m { m with acked := max m.acked pkt.toNat, result := if done then some 0 else none }).startMails) ∧
      (s.isMine h = false →
        t = s.carry (s.posOf h.src.val).isSome (packetHop ⟨h, .mailAck msg.toNat pkt.toNat done hops⟩)) := by
  have hexec : exec (.pktMailAck h msg pkt done hops) s = execPktMailAck h msg pkt done hops s := rfl
  unfold Completes
  rw [hexec, execPktMailAck]
  cases hmine : s.isMine h with
  | false => exact ⟨_, rfl, nofun, fun _ => rfl⟩
  | true =>
    cases hepoch : s.epochOk h with
    | false => exact ⟨_, rfl, nofun, nofun⟩
    | true =>
      cases hout : s.mailOut h.src.val msg.toNat with
      | none => exact ⟨_, rfl, nofun, nofun⟩
      | some m =>
        refine ⟨_, rfl, fun m' _ _ hm' => ?_, nofun⟩
        cases hm'
        rfl

theorem mailRefused_of_underWay {s : State} {h : Header} {msg : Nat} {m : Mail} (code : Nat) (hepoch : s.epochOk h = true)
    (hout : s.mailOut h.src.val msg = some m) :
    s.mailRefused h msg code = (s.setMail m { m with result := some code }).startMails := by
  simp [State.mailRefused, hepoch, hout]

theorem mailRetransmitTimeout_completes (s : State) (lnode : Fin 1048576) (m : Mail)
    (hfind : s.mails.find? (fun m => decide (m.lnode = lnode.val) && m.started && m.result.isNone) = some m) :
    Completes (.mailRetransmitTimeout lnode) s fun t =>
      (m.resends < 3 → t = ((s.setMail m { m with resends := m.resends + 1 }).addReg .mailRetrans 0
          ((s.mailPackets m).length - m.acked)).pushMail { m with resends := m.resends + 1 } m.acked) ∧
        (3 ≤ m.resends → ∃ u : State, Records s u 5 2 0 0 0 ∧ u.mails = s.mails ∧
          t = (u.setMail m { m with result := some 5 }).startMails) := by
  have hexec : exec (.mailRetransmitTimeout lnode) s = execMailRetransmitTimeout lnode s := rfl
  unfold Completes
  rw [hexec, execMailRetransmitTimeout, hfind]
  dsimp only
  by_cases hresends : m.resends < 3
  · rw [if_pos hresends]
    exact ⟨_, rfl, fun _ => rfl, fun h => absurd hresends (Nat.not_lt.2 h)⟩
  · rw [if_neg hresends]
    exact ⟨_, rfl, fun h => absurd h hresends, fun _ =>
      ⟨_, records_logError s { code := 5, severity := 2, lnode := lnode.val }, State.mails_logError .., rfl⟩⟩

/-- Settles O34: each command by the branch of its meaning that its hypotheses select, a packet for another node by the branches of
`carry`. -/
theorem mailComplete : Obligations.MailComplete := by
  unfold Obligations.MailComplete
  refine ⟨fun s q tail => ⟨_, rfl, rfl⟩, mailComplete_completes, pktMail_completes, mailTransitTimeout_completes,
    pktMailAck_completes, ?nack, mailRetransmitTimeout_completes⟩
  case nack =>
    intro s q h stale cause msg pkt hops m hmine hepoch hout
    refine ⟨_, ?_, mailRefused_of_underWay _ hepoch hout⟩
    show execPktNack q h stale ⟨cause, some (msg, pkt, hops)⟩ s = _
    simp [execPktNack, hmine]

end Sys2Proof.Machine
end

section
/-! Links train, pause for lane tests, are lost and are commanded (R351, R356 to R363, R404, R488). -/

namespace Sys2Proof.Machine

/-! Training (R356 to R359). -/

theorem setLink_linkState (s : State) (l : Nat) {v : Nat} (hv : v < 256) : (s.setLink l v).reg .linkState l = v := by
  rw [setLink_state s l v l hv, if_pos rfl]

theorem wiredRight_setReg_linkPeer (s : State) (i v l : Nat) (far : FarEnd) :
    (s.setReg .linkPeer i v).wiredRight l far = s.wiredRight l far := by
  unfold State.wiredRight State.pos
  simp

theorem linkUp_completes (s : State) (l : Fin 24) (far : FarEnd) (htraining : s.reg .linkState l = 1) :
    Completes (.linkUp l far) s fun t =>
      t.reg .linkState l = (if s.wiredRight l far then 2 else 5) ∧ t.reg .linkPeer l = far.physId.toNat ∧
        (s.wiredRight l far = true → t.reg .linkGen l = (if far.is9200 && decide (far.genMax.val = 3 ∧
          s.reg .linkGenMax l = 3) then 3 else 2)) ∧
        (s.wiredRight l far = false → bit (t.reg .alertCause) 3 = true) := by
  have hexec : exec (.linkUp l far) s = execLinkUp l far s := rfl
  have hpeer : ((s.setReg .linkPeer l far.physId.toNat).reg .linkPeer l) = far.physId.toNat := by
    have hlt : far.physId.toNat < 2 ^ 24 := far.physId.isLt
    rw [State.reg_setReg_same, Reg.modulus_linkPeer]
    omega
  unfold Completes
  rw [hexec, execLinkUp, if_neg (by simp [htraining])]
  dsimp only
  rw [wiredRight_setReg_linkPeer]
  cases hwired : s.wiredRight l far with
  | true =>
    refine ⟨_, rfl, ?state, ?peer, fun _ => ?gen, nofun⟩
    case state =>
      rw [State.reg_change _ (by decide), if_neg (by simp), setLink_linkState _ _ (by decide)]
      rfl
    case peer =>
      rw [State.reg_change _ (by decide), if_neg (by simp), setLink_reg _ _ _ _ (by decide), hpeer]
    case gen =>
      rw [State.reg_change _ (by decide), if_pos ⟨rfl, rfl⟩, State.reg_setReg_ne _ (by decide)]
      simp only [Bool.decide_and, Bool.and_assoc]
      split <;> rfl
  | false =>
    refine ⟨_, rfl, ?state, ?peer, nofun, fun _ => ?alert⟩
    case state =>
      rw [State.reg_raise _ (by decide), if_neg (by simp), setLink_linkState _ _ (by decide)]
      rfl
    case peer =>
      rw [State.reg_raise _ (by decide), if_neg (by simp), setLink_reg _ _ _ _ (by decide), hpeer]
    case alert =>
      rw [State.reg_raise _ (by decide), if_pos ⟨rfl, rfl⟩]
      simp

theorem linkAbsentTimeout_completes (s : State) (l : Fin 24) (habsent : s.reg .linkState l = 0) :
    Completes (.linkAbsentTimeout l) s fun t =>
      t.flag .linkQuiet 0 l = true ∧ RegsKept [.linkQuiet] s t ∧ MemKept s t := by
  refine ⟨_, if_pos habsent, ?quiet, ?regs, fun a => rfl⟩
  case quiet =>
    unfold State.flag State.setFlag
    rw [State.reg_setReg_same, if_pos rfl, Reg.modulus_linkQuiet, bit_mod32 _ _ (by omega)]
    simp
  case regs =>
    intro r hr i
    exact State.reg_setReg_ne _ (by rintro rfl; simp at hr) ..

/-! Lane tests (R360, R362, R484). -/

theorem mem_tests_parityPersistent (s : State) (kind unit addr lbay step : Nat) :
    ∃ x, x ∈ (s.parityPersistent kind unit addr lbay step).tests ∧ x.kind = kind ∧ x.unit = unit :=
  ⟨_, List.mem_append_right _ List.mem_cons_self, rfl, rfl⟩

/-- The tests of the lanes of link `l` end as it is lost. -/
def State.endLaneTests (s : State) (l : Nat) : State :=
  (s.tests.filter fun t => t.kind = 7 && t.unit / 16 = l).foldl (fun (u : State) t => u.endTest t 6) s

theorem loseLink_eq (s : State) (l : Nat) :
    s.loseLink l = ((s.endLaneTests l).logError { code := 5, severity := 2, outcome := 6, unitKind := 6, unit := l }).setLink l
      linkLost := rfl

theorem mem_tests_endTests (ts : List SelfTest) (o : Nat) {s : State} {y : SelfTest}
    (hy : y ∈ (ts.foldl (fun (u : State) t => u.endTest t o) s).tests) : y ∈ s.tests ∧ y ∉ ts := by
  induction ts generalizing s with
  | nil => exact ⟨hy, List.not_mem_nil⟩
  | cons t ts ih =>
    obtain ⟨hmem, hrest⟩ := ih hy
    obtain ⟨-, -, -, -, htests⟩ := endTest_facts s t o
    rw [htests, List.mem_filter] at hmem
    obtain ⟨hs, hne⟩ := hmem
    refine ⟨hs, List.not_mem_cons_of_ne_of_not_mem ?_ hrest⟩
    rintro rfl
    simp at hne

@[simp] theorem endLaneTests_reg (s : State) (l : Nat) (r : Reg) (i : Nat) : (s.endLaneTests l).reg r i = s.reg r i :=
  State.reg_foldl (f := fun (u : State) t => u.endTest t 6) (fun u t => endTest_reg0 u t 6 r i) _ s

/-- A lost link leaves none of its lane tests, and starts no test. -/
theorem mem_tests_loseLink {s : State} {l : Nat} {y : SelfTest} (hy : y ∈ (s.loseLink l).tests) :
    y ∈ s.tests ∧ ¬(y.kind = 7 ∧ y.unit / 16 = l) := by
  rw [loseLink_eq, setLink_tests, State.tests_logError] at hy
  obtain ⟨hmem, hother⟩ := mem_tests_endTests _ _ hy
  exact ⟨hmem, fun hlane => hother (List.mem_filter.2 ⟨hmem, by simpa using hlane⟩)⟩

theorem loseLink_linkState (s : State) (l : Nat) : (s.loseLink l).reg .linkState l = 4 := by
  rw [loseLink_eq, setLink_linkState _ _ (by decide)]

theorem records_loseLink (s : State) (l : Nat) : Records s (s.loseLink l) 5 2 6 6 l := by
  rw [loseLink_eq]
  refine records_log (setLink_errorLog ..) (records_of (e := { code := 5, severity := 2, outcome := 6, unitKind := 6, unit := l })
    ?_ (endLaneTests_reg ..))
  simp [State.supervisorUp]

theorem laneTestComplete_completes (s : State) (l : Fin 24) (pass completes : Bool) (x : SelfTest)
    (hfind : (s.tests.find? fun x => decide (x.kind = 7) && decide (x.unit / 16 = l.val)) = some x)
    (hruns : (s.runningTest 7 x.unit).isSome = true) (hpaused : s.reg .linkState l = 3) :
    Completes (.laneTestComplete l pass completes) s fun t =>
      t.reg .linkState l = (if completes && (pass || decide (s.reg .laneMap l = 0xFF)) then 2 else 4) ∧
        (completes = true → pass = false → s.reg .laneMap l = 0xFF → t.reg .laneMap l = x.unit % 16) ∧
        (∀ y ∈ t.tests, y.kind = 7 → y.unit ≠ x.unit) := by
  have hexec : exec (.laneTestComplete l pass completes) s = execLaneTestComplete l pass completes s := rfl
  have hx := List.find?_some hfind
  simp only [Bool.and_eq_true, decide_eq_true_eq] at hx
  obtain ⟨hkind, hlane⟩ := hx
  have hgone (u : State) (o : Nat) : ∀ y ∈ ((u.endTest x o).setLink l linkUp).tests, y.kind = 7 → y.unit ≠ x.unit :=
    fun y hy hk => endTest_gone u x o _ (setLink_tests ..) y hy (hk.trans hkind.symm)
  unfold Completes
  rw [hexec, execLaneTestComplete, hfind]
  dsimp only
  have hruns' : (s.runningTest 7 x.unit).isNone = false := by simpa using hruns
  rw [if_neg (by simp [hpaused, hruns'])]
  by_cases hpass : (completes && pass) = true
  · rw [if_pos hpass]
    obtain ⟨rfl, rfl⟩ := Bool.and_eq_true_iff.1 hpass
    exact ⟨_, rfl, setLink_linkState _ _ (by decide), nofun, hgone _ _⟩
  · rw [if_neg hpass]
    by_cases hspare : (completes && decide (s.reg .laneMap l = 0xFF)) = true
    · rw [if_pos hspare]
      obtain ⟨hc, hmap⟩ := Bool.and_eq_true_iff.1 hspare
      have hcond : (completes && (pass || decide (s.reg .laneMap l = 0xFF))) = true := by
        rw [hc, hmap, Bool.or_true, Bool.and_true]
      refine ⟨_, rfl, ?state, fun _ _ _ => ?map, hgone _ _⟩
      case state => rw [setLink_linkState _ _ (by decide), if_pos hcond]
      case map =>
        rw [setLink_reg _ _ _ _ (by decide), endTest_reg0, degrade_reg _ _ _ (by decide), State.reg_change _ (by decide),
          if_pos ⟨rfl, rfl⟩, Reg.modulus_laneMap]
        omega
    · rw [if_neg hspare]
      have hcond : ¬ (completes && (pass || decide (s.reg .laneMap l = 0xFF))) = true := by
        rw [Bool.and_or_distrib_left, Bool.or_eq_true]
        exact not_or.2 ⟨hpass, hspare⟩
      refine ⟨_, rfl, ?state, fun hc _ hmap => absurd (by simp [hc, hmap]) hspare, ?gone⟩
      case state => rw [loseLink_linkState, if_neg hcond]
      case gone =>
        intro y hy hk hunit
        exact (mem_tests_loseLink hy).2 ⟨hk, hunit ▸ hlane⟩

theorem fabricPortTestComplete_completes (s : State) (fd : Fin 4) (port : Fin 6) (pass : Bool) (x : SelfTest)
    (hruns : s.runningTest 0x0A (fd.val * 8 + port.val) = some x) :
    Completes (.fabricPortTestComplete fd port pass) s fun t =>
      (pass = true → RegsKept [] s t) ∧ (pass = false → t.reg .linkState (6 * fd.val + port.val) = 4) ∧
        (∀ y ∈ t.tests, y.kind = x.kind → y.unit ≠ x.unit) := by
  have hexec : exec (.fabricPortTestComplete fd port pass) s = execFabricPortTestComplete fd port pass s := rfl
  unfold Completes
  rw [hexec, execFabricPortTestComplete, hruns]
  cases pass with
  | true => exact ⟨_, rfl, fun _ r _ i => endTest_reg0 .., nofun, endTest_gone s x 1 _ rfl⟩
  | false =>
    exact ⟨_, rfl, nofun, fun _ => loseLink_linkState .., fun y hy =>
      endTest_gone s x 6 _ rfl y (mem_tests_loseLink hy).1⟩

/-! Flits (R351). -/

/-- What is sent again goes out, and no more changes. -/
theorem resendFrom_eq (s : State) (l n : Nat) : ∃ o, s.resendFrom l n = { s with out := o } := by
  unfold State.resendFrom
  generalize s.retry.filter _ = es
  induction es generalizing s with
  | nil => exact ⟨_, rfl⟩
  | cons e es ih =>
    obtain ⟨o, ho⟩ := ih (s.send e.out)
    exact ⟨o, ho⟩

/-- The acknowledgement of a flit and the resend request that it carries (R351). -/
def State.flitControl (s : State) (l : Nat) (f : FlitControl) : State :=
  match f.resend with
  | some n => (s.ackFlits l f.ack.toNat).resendFrom l n.toNat
  | none => s.ackFlits l f.ack.toNat

theorem flitControl_eq (s : State) (l : Nat) (f : FlitControl) :
    ∃ o, s.flitControl l f = { s.ackFlits l f.ack.toNat with out := o } := by
  unfold State.flitControl
  split
  · exact resendFrom_eq ..
  · exact ⟨_, rfl⟩

theorem flitControl_reg (s : State) (l : Nat) (f : FlitControl) (r : Reg) (i : Nat) : (s.flitControl l f).reg r i = s.reg r i := by
  obtain ⟨o, ho⟩ := flitControl_eq s l f
  rw [ho]
  exact ackFlits_reg ..

theorem flitControl_retry (s : State) (l : Nat) (f : FlitControl) :
    (s.flitControl l f).retry = (s.ackFlits l f.ack.toNat).retry := by
  obtain ⟨o, ho⟩ := flitControl_eq s l f
  rw [ho]

theorem execFlitReceive_of_badCrc {s : State} {l : Fin 24} (f : FlitControl) (corrected : Nat) (hup : s.reg .linkState l = 2) :
    execFlitReceive l f false corrected s = .next ((((s.addReg .fecCorrected l corrected).logError
      { code := 3, severity := 0, outcome := 1, unitKind := 6, unit := l }).addReg .linkRetries l 1).send
        (.resendFlits l ((s.addReg .fecCorrected l corrected).reg .flitSeq l))) := by
  rw [execFlitReceive, if_neg (by simp [hup])]
  rfl

theorem execFlitReceive_of_goodCrc {s : State} {l : Fin 24} (f : FlitControl) (corrected : Nat) (hup : s.reg .linkState l = 2) :
    execFlitReceive l f true corrected s = .next (
      if f.seq.toNat = s.reg .flitSeq l then
        (((s.addReg .fecCorrected l corrected).flitControl l f).setReg .flitSeq l ((s.reg .flitSeq l + 1) % 65536)).send
          (.flitAck l ((s.reg .flitSeq l + 1) % 65536))
      else (s.addReg .fecCorrected l corrected).flitControl l f) := by
  have hwant : (s.addReg .fecCorrected l corrected).reg .flitSeq l = s.reg .flitSeq l := State.reg_setReg_ne _ (by decide) ..
  rw [execFlitReceive, if_neg (by simp [hup])]
  dsimp only
  rw [hwant, if_neg (by decide)]
  by_cases hseq : f.seq.toNat = s.reg .flitSeq l
  · rw [if_pos hseq, if_pos hseq]
    rfl
  · rw [if_neg hseq, if_neg hseq]
    rfl

theorem flitReceive_completes (s : State) (l : Fin 24) (f : FlitControl) (crcOk : Bool) (corrected : Nat)
    (hup : s.reg .linkState l = 2) :
    Completes (.flitReceive l f crcOk corrected) s fun t =>
      t.reg .fecCorrected l = (s.reg .fecCorrected l + corrected) % Reg.modulus .fecCorrected ∧
        (crcOk = true → f.seq.toNat = s.reg .flitSeq l → t.reg .flitSeq l = (s.reg .flitSeq l + 1) % 65536) ∧
        (crcOk = true → f.seq.toNat ≠ s.reg .flitSeq l → t.reg .flitSeq l = s.reg .flitSeq l) ∧
        (crcOk = true → t.retry = ((s.addReg .fecCorrected l corrected).ackFlits l f.ack.toNat).retry) ∧
        (crcOk = false → t.reg .linkRetries l = (s.reg .linkRetries l + 1) % Reg.modulus .linkRetries ∧
          t.out.head? = some (.resendFlits l (s.reg .flitSeq l))) := by
  have hcounted : (s.addReg .fecCorrected l corrected).reg .fecCorrected l =
      (s.reg .fecCorrected l + corrected) % Reg.modulus .fecCorrected := State.reg_setReg_same ..
  have hother {r : Reg} (hr : .fecCorrected ≠ r) : (s.addReg .fecCorrected l corrected).reg r l = s.reg r l :=
    State.reg_setReg_ne _ hr ..
  cases crcOk with
  | false =>
    refine ⟨_, execFlitReceive_of_badCrc f corrected hup, ?corrected, nofun, nofun, nofun, fun _ => ⟨?retries, ?resend⟩⟩
    case corrected =>
      rw [State.reg_send, addReg_reg _ _ _ _ _ (by decide), State.reg_logError _ (by decide), hcounted]
    case retries =>
      unfold State.addReg
      rw [State.reg_send, State.reg_setReg_same, State.reg_logError _ (by decide), State.reg_setReg_ne _ (by decide)]
    case resend =>
      rw [hother (by decide)]
      rfl
  | true =>
    refine ⟨_, execFlitReceive_of_goodCrc f corrected hup, ?corrected, fun _ hseq => ?inTurn, fun _ hseq => ?outOfTurn,
      fun _ => ?retry, nofun⟩
    case corrected =>
      split
      · rw [State.reg_send, State.reg_setReg_ne _ (by decide), flitControl_reg, hcounted]
      · rw [flitControl_reg, hcounted]
    case inTurn =>
      rw [if_pos hseq, State.reg_send, State.reg_setReg_same, Reg.modulus_flitSeq, Nat.mod_mod]
    case outOfTurn => rw [if_neg hseq, flitControl_reg, hother (by decide)]
    case retry =>
      split
      · exact flitControl_retry ..
      · exact flitControl_retry ..

/-! Commands and messages (R357, R363, R404). -/

/-- An accepted write of `LINK_CMD` is answered, and then the registers are those that the command leaves. -/
theorem linkCmd_completes {c : Instr} {s : State} {q : Requester} {l : Fin 24} (v : Nat) {bs : List Byte}
    (haccepts : Accepts s q .linkCmd l bs)
    (hexec : exec c s = .next (s.writeRequest q (Reg.linkCmd.objAt l) bs fun _ _ => linkCommand l v)) :
    Completes c s fun t => Answered q (Reg.linkCmd.objAt l) t ∧
      ∀ r i, t.reg r i = (linkCommand l v (s.accepted q .linkCmd l bs)).reg r i := by
  rw [State.writeRequest_accepts s q _ _ _ _ _ haccepts rfl (by decide)] at hexec
  exact ⟨_, hexec, answered_answer .., fun r i => State.reg_answer ..⟩

theorem sent_checkPartner (s : State) : Sent s s.checkPartner := Sent.ite (sent_endPairing s) (Sent.refl s)

theorem linkStateMessage_completes (s : State) (q : Fin 17) (states : LinkCodes) (hpeer : q.val ≠ s.pos) :
    Completes (.linkStateMessage q states) s fun t =>
      (∀ j, j < 16 → Store.at 0 t.peerLinks (q.val * 16 + j) = (states.map Fin.val).getD j 0) ∧ MemKept s t := by
  have hexec : exec (.linkStateMessage q states) s = execLinkStateMessage q states s := rfl
  unfold Completes
  rw [hexec, execLinkStateMessage, if_neg hpeer]
  refine ⟨_, rfl, ?_⟩
  dsimp only
  generalize hu : ({ s with peerLinks := _ } : State) = u
  have hsent : Sent u (((List.range 17).foldl (fun (v : State) p =>
      if p ≠ v.pos && decide (v.hopTo p ≠ s.hopTo p) then v.resendTo p else v) u.countDetours).retryFar.checkPartner) := by
    refine Sent.trans (Sent.trans ?_ (sent_retryFar _)) (sent_checkPartner _)
    exact Sent.foldl (sent_setReg ..) fun v p => Sent.ite (sent_resendTo ..) (Sent.refl v)
  obtain ⟨-, -, -, hmem, hlinks, -⟩ := hsent.same
  subst hu
  refine ⟨fun j hj => ?_, fun a => State.byte_congr hmem a⟩
  rw [hlinks]
  exact (store_puts (fun j => (states.map Fin.val).getD j 0) (q.val * 16) 16 j s.peerLinks).trans (if_pos hj)

/-- Settles O11: each command by the branch of its meaning that its hypotheses select, a link's new state by `setLink`. -/
theorem linksComplete : Obligations.LinksComplete := by
  unfold Obligations.LinksComplete
  refine ⟨?training, linkUp_completes, ?retry, ?idle, linkAbsentTimeout_completes, ?laneTest, laneTestComplete_completes,
    flitReceive_completes, ?ackTimeout, ?retrain, ?disable, ?enable, linkStateMessage_completes,
    fabricPortTestComplete_completes⟩
  case training =>
    intro s l hlanes habsent
    exact ⟨_, if_pos (by simp [hlanes, habsent]), setLink_linkState _ _ (by decide)⟩
  case retry =>
    intro s l hlanes habsent
    exact ⟨_, if_pos (by simp [hlanes, habsent]), setLink_linkState _ _ (by decide)⟩
  case idle =>
    intro s l hstate
    refine ⟨_, if_pos (by simpa [or_assoc] using hstate), setLink_linkState _ _ (by decide), setLink_gen _ _ _ ?_ (.inl rfl)⟩
    show s.reg .linkState l ≠ 0
    omega
  case laneTest =>
    intro s l lane hup hlane hspare
    refine ⟨_, if_pos (by simp [hup, hlane, hspare]), ?_, mem_tests_parityPersistent ..⟩
    rw [parityPersistent_reg _ _ _ _ _ _ _ (by decide), setLink_linkState _ _ (by decide)]
  case ackTimeout =>
    intro s l hup
    exact ⟨_, if_pos hup, loseLink_linkState .., records_loseLink s l⟩
  case retrain =>
    intro s q l haccepts
    obtain ⟨t, hexec, hanswered, hreg⟩ := linkCmd_completes (c := .linkCmdRetrain q l) 1 haccepts rfl
    obtain ⟨hcmd, hstate, -, -⟩ := linkCommand_facts s q l 1 [1]
    exact ⟨t, hexec, hanswered, fun hlanes => (hreg ..).trans (hstate rfl hlanes), (hreg ..).trans hcmd⟩
  case disable =>
    intro s q l haccepts
    obtain ⟨t, hexec, hanswered, hreg⟩ := linkCmd_completes (c := .linkCmdDisable q l) 2 haccepts rfl
    obtain ⟨hcmd, -, hstate, -⟩ := linkCommand_facts s q l 2 [2]
    exact ⟨t, hexec, hanswered, fun hnotLost => (hreg ..).trans (hstate rfl hnotLost), (hreg ..).trans hcmd⟩
  case enable =>
    intro s q l haccepts
    obtain ⟨t, hexec, hanswered, hreg⟩ := linkCmd_completes (c := .linkCmdEnable q l) 3 haccepts rfl
    obtain ⟨hcmd, -, -, hstate⟩ := linkCommand_facts s q l 3 [3]
    exact ⟨t, hexec, hanswered, fun hoff hlanes => (hreg ..).trans (hstate rfl hoff hlanes), (hreg ..).trans hcmd⟩

end Sys2Proof.Machine
end

section
/-! Collectives join, combine, commit and abort (R410, R415, R424 to R430, R436). -/

namespace Sys2Proof.Machine

/-! A packet of a collective that this node takes (R370, R376, R420). -/

theorem takeColl_of_heard {s : State} {q : MailPort} {h : Header} (hheard : HeardColl s q h) (b : Body) (f : State → State) :
    s.takeColl q h b f = f s := by
  obtain ⟨hmine, hepoch, hsource, hfaulted⟩ := hheard
  simp [State.takeColl, hmine, hepoch, hsource, hfaulted]

theorem withRun_of_inRun {s u : State} {h : Header} {i : CollId} {run : Nat} {c : Coll} (hin : InRun s u h i run c)
    (f : State → Coll → Nat → State) : s.withRun h.src.val i run f = f u c (c.members.idxOf h.src.val) := by
  obtain ⟨hopen, hcoll, hmember, hrun⟩ := hin
  rw [State.withRun, State.withColl, hopen]
  dsimp only
  rw [hcoll]
  dsimp only
  rw [if_pos hmember, if_pos hrun]

theorem takeColl_withRun {s u : State} {q : MailPort} {h : Header} {i : CollId} {run : Nat} {c : Coll}
    (hheard : HeardColl s q h) (hin : InRun s u h i run c) (b : Body) (f : State → Coll → Nat → State) :
    s.takeColl q h b (fun t => t.withRun h.src.val i run f) = f u c (c.members.idxOf h.src.val) :=
  (takeColl_of_heard hheard ..).trans (withRun_of_inRun hin f)

/-! What the commands do where their conditions hold (R414, R415, R425, R427, R429, R436). -/

theorem execCollNodeLocalStage_of_allJoined {s : State} {b : Fin 256} {c : Coll} (queueFull : Bool)
    (hunstaged : s.unstagedOf b.val = some c) (hmissing : c.missing = []) :
    execCollNodeLocalStage b queueFull s = .next (if 2 ^ 16 ≤ c.status then
      (s.setColl c.stage).reportColl c.stage c.stage.run true queueFull else (s.setColl c.stage).advanceColl c.id queueFull) := by
  rw [execCollNodeLocalStage, hunstaged]
  dsimp only
  rw [if_neg (by simp [hmissing])]
  rfl

/-- An instance that has heard the commit token of a tree, with the status and the counts that came with it (R425, R426). -/
def Coll.withToken (c : Coll) (tree status : Nat) (counts : List (Nat × Nat)) : Coll :=
  { c with
    tokens := insertRising tree c.tokens
    rootStatus := c.rootStatus ||| status
    rootCounts := c.rootCounts ++ counts.filter fun e => !c.rootCounts.contains e }

theorem execCollCommit_of_newToken {s u : State} {q : MailPort} {h : Header} {i : CollId} {run : Fin 3} {c : Coll}
    {tree : Fin 2} (status : Nat) (counts : List (Nat × Nat)) (queueFull : Bool) (hheard : HeardColl s q h)
    (hin : InRun s u h i run.val c) (hnew : c.tokens.contains tree.val = false) :
    execCollCommit q h i run tree status counts queueFull s = .next
      (((u.setColl (c.withToken tree.val status counts)).tellColls (c.withToken tree.val status counts)
        (treeKids c.n tree.val c.rank) (.token tree.val status counts)).settleColl i queueFull) := by
  rw [execCollCommit, takeColl_withRun hheard hin, if_neg (by rw [hnew]; decide)]
  rfl

theorem contains_roots_iff (c : Coll) (r : Nat) :
    c.roots.contains r = true ↔ r = treeRank c.n 0 (rootPos c.n) ∨ r = treeRank c.n 1 (rootPos c.n) := by
  simp [Coll.roots]

/-- The instance that an abandoned COLL of a bay releases: the one that it has joined, or else its own (R436). -/
def State.abandonedId (s : State) (b : Nat) (f : Flight) : CollId :=
  ((s.colls.find? fun c => c.joined.any fun j => decide (j = (b, f.serial))).map Coll.id).getD (f.collId (s.bay b))

theorem execCollAbandon_of_oldest {s u : State} {b : Fin 256} {f : Flight} (queueFull : Bool)
    (hfind : ((s.bay b.val).colls ++ (s.bay b.val).flights).find? (fun f => decide (f.op = opColl)) = some f)
    (hclosed : u = (s.addReg .collAbandoned 0 1).closeColl (s.abandonedId b.val f) true) :
    execCollAbandon b queueFull s = .next (u.failCollAt b.val
      (((u.collMembers (u.collGroup (f.param 0 16))).map fun m => m.1.length).getD 0) 0x81 0 f queueFull) := by
  subst hclosed
  rw [execCollAbandon]
  dsimp only
  rw [hfind]
  rfl

/-- Settles O35: a COLL joins by the one path of all kinds, a packet of its instance and run by what is done with it there, and
the others by the branch that their hypotheses select. -/
theorem collectivesComplete : Obligations.CollectivesComplete := by
  unfold Obligations.CollectivesComplete
  refine ⟨coll_ok fun _ _ => rfl, coll_ok fun _ _ => rfl, coll_ok fun _ _ => rfl, coll_ok fun _ _ => rfl,
    coll_ok fun _ _ => rfl, coll_ok fun _ _ => rfl, coll_ok fun _ _ => rfl, ?stage, ?chunk, ?ack, ?commit, ?abort, ?report,
    ?refetch, ?abandon⟩
  case stage =>
    intro s b queueFull c hunstaged hmissing
    exact ⟨_, execCollNodeLocalStage_of_allJoined queueFull hunstaged hmissing, c.stage, rfl, rfl, rfl, rfl, rfl, rfl⟩
  case chunk =>
    intro s q h i run sig m queueFull hheard
    exact ⟨_, rfl, takeColl_of_heard hheard ..⟩
  case ack =>
    intro s u q h i run k queueFull c hheard hin
    exact ⟨_, rfl, _, rfl, takeColl_withRun hheard hin ..⟩
  case commit =>
    intro s u q h i run tree status counts queueFull c hheard hin hnew
    exact ⟨_, execCollCommit_of_newToken status counts queueFull hheard hin hnew, _, rfl, rfl⟩
  case abort =>
    intro s u q h i run final queueFull c hheard hin
    exact ⟨_, rfl, takeColl_withRun hheard hin ..⟩
  case report =>
    intro s u q h i run signature queueFull c hheard hin
    refine ⟨_, rfl, (takeColl_withRun hheard hin ..).trans ?_⟩
    simp only [contains_roots_iff]
  case refetch =>
    intro s u q h i run k c hheard hin hretained
    exact ⟨_, rfl, (takeColl_withRun hheard hin ..).trans (if_pos hretained)⟩
  case abandon =>
    intro s b queueFull f hfind
    refine ⟨_, execCollAbandon_of_oldest queueFull hfind ?released, _, rfl, rfl⟩
    unfold State.abandonedId
    cases s.colls.find? fun c => c.joined.any fun j => decide (j = (b.val, f.serial)) with
    | none => rfl
    | some c => rfl

end Sys2Proof.Machine
end

section
/-! The package digest is CRC-64/XZ (R461): the model keeps the register reflected, so that each of its steps is the
mirror image of a step of the register that takes its bits most significant first. -/

namespace Sys2Proof.Machine

/-! Reflection. -/

theorem reverse_xor {w : Nat} (x y : BitVec w) : (x ^^^ y).reverse = x.reverse ^^^ y.reverse := by
  ext i hi
  simp only [BitVec.getElem_reverse, BitVec.getMsbD_xor, BitVec.getElem_xor]

theorem reverse_allOnes (w : Nat) : (BitVec.allOnes w).reverse = BitVec.allOnes w := by
  ext i hi
  simp only [BitVec.getElem_reverse, BitVec.getMsbD_eq_getLsbD, BitVec.getLsbD_allOnes, BitVec.getElem_allOnes,
    Bool.and_eq_true, decide_eq_true_eq]
  omega

theorem reverse_shiftLeft_one {w : Nat} (x : BitVec w) : (x <<< 1).reverse = x.reverse >>> 1 := by
  ext i hi
  simp only [BitVec.getElem_reverse, BitVec.getMsbD_shiftLeft, BitVec.getElem_ushiftRight, Nat.add_comm,
    BitVec.getLsbD_reverse]

/-- A byte that enters at the top of the register, reflected, enters the reflected register at its bottom as it is. -/
theorem toNat_reverse_xor_byte (c : BitVec 64) (b : Byte) :
    (c ^^^ (b.reverse ++ 0#56)).reverse.toNat = c.reverse.toNat ^^^ b.toNat := by
  have hzero : (0#56).reverse = 0#56 := BitVec.reverse_eq_zero_iff.2 rfl
  rw [reverse_xor, BitVec.toNat_xor, BitVec.reverse_append, BitVec.toNat_cast, BitVec.toNat_append, hzero]
  simp only [BitVec.toNat_ofNat, Nat.zero_mod, Nat.zero_shiftLeft, BitVec.reverse_reverse_eq, Nat.zero_or]

/-! The register along a digest. -/

theorem toNat_reverse_crcShift (c : BitVec 64) : (crcShift c).reverse.toNat = crcBits 1 c.reverse.toNat := by
  have hpoly : (0x42F0E1EBA9EA3693#64).reverse.toNat = crcPoly := by decide +kernel
  have hhalf : (c <<< 1).reverse.toNat = c.reverse.toNat / 2 := by
    rw [reverse_shiftLeft_one, BitVec.toNat_ushiftRight, Nat.shiftRight_eq_div_pow, Nat.pow_one]
  have hmsb : c.msb = decide (c.reverse.toNat % 2 = 1) := by
    rw [BitVec.msb, ← BitVec.getLsbD_reverse, BitVec.getLsbD, Nat.testBit_zero]
  rw [crcShift, crcBits, crcBits, hmsb]
  by_cases hodd : c.reverse.toNat % 2 = 1
  · rw [if_pos (decide_eq_true hodd), if_pos hodd, reverse_xor, BitVec.toNat_xor, hhalf, hpoly]
  · rw [if_neg (mt of_decide_eq_true hodd), if_neg hodd, hhalf]

theorem toNat_reverse_crcByte (c : BitVec 64) (b : Byte) :
    (crcByte c b).reverse.toNat = crcBits 8 (c.reverse.toNat ^^^ b.toNat) := by
  simp only [crcByte, toNat_reverse_crcShift, toNat_reverse_xor_byte]
  rfl

theorem toNat_reverse_foldl_crcByte (bs : List Byte) (c : BitVec 64) :
    (bs.foldl crcByte c).reverse.toNat = crcFold c.reverse.toNat bs := by
  induction bs generalizing c with
  | nil => rfl
  | cons b bs ih => rw [List.foldl_cons, ih, toNat_reverse_crcByte]; rfl

/-- Settles O51: by induction on the bytes, the model's register is the reflection of the one that the statement folds; the
check value is computed, and no bytes leave all ones exclusive-or all ones. -/
theorem digestIsReflectedCrc : Obligations.DigestIsReflectedCrc := by
  unfold Obligations.DigestIsReflectedCrc
  refine ⟨fun bs => ?fold, by decide +kernel, rfl⟩
  have hones : (BitVec.allOnes 64).toNat = crcOnes := rfl
  rw [BitVec.toNat_xor, toNat_reverse_foldl_crcByte, reverse_allOnes, hones, digest]

end Sys2Proof.Machine
end

section
/-! A step: the front command or a tick, and the state at reset (00_scope.md, R38, R315, R524, R604). -/

namespace Sys2Proof.Machine

/-- Settles O43: by the definition of a step. -/
theorem stepRunsFrontCommand : Obligations.StepRunsFrontCommand := fun _ _ _ => rfl

/-- Settles O45: the stores and the queue are empty at reset, and an empty memory reads 0. -/
theorem resetIsWellFormed : Obligations.ResetIsWellFormed := ⟨by decide +kernel, rfl, fun _ => rfl⟩

/-- Settles O48: the queue is a part of what every command keeps, whatever registers and memory it may touch. -/
theorem commandsLeaveTheQueue : Obligations.CommandsLeaveTheQueue := by
  intro c s t h
  exact ((keeps_exec c (closed_pending (Instr.touches c) s) s ⟨rfl⟩).out t h).out

/-! A tick moves a migration on, too. -/

/-- A node whose stacks are trained and that has a mapped-out channel's data left to migrate, with nothing waiting. -/
def migrating : State :=
  { State.reset with regs := [((.migrationLeft, 0), 128), ((.stackRailsIn, 0), 1), ((.stageStarted, 0), 3)] }

/-- The pace of a migration is a free value, so that a tick of it draws one. -/
theorem free_tick_migrating : (tick migrating).free = 1 := by decide +kernel

/-- Refutes O44: while a migration runs, a tick draws the pace of the migration, so that it changes more than the clock and
the cycle counts (R315, R321). -/
theorem not_emptyQueueTicks : ¬ Obligations.EmptyQueueTicks := by
  unfold Obligations.EmptyQueueTicks
  intro h
  have hstep : step migrating = .next (tick migrating) := rfl
  have htick := Host.Outcome.next.inj (hstep.symm.trans (h migrating rfl))
  have hfree := congrArg State.free htick
  rw [free_tick_migrating] at hfree
  exact absurd hfree (by decide +kernel)

end Sys2Proof.Machine
end

section
/-! What freezes, the time, the audit log, sessions and messages leave (R560, R583, R593, R605, R653): the registers and the memory
from what each command may touch. -/

namespace Sys2Proof.Machine

/-- Settles O37: what a command may touch is in the list of its clause, and where the clause says so node memory is not in it. -/
theorem supervisorFrames : Obligations.SupervisorFrames := by
  unfold Obligations.SupervisorFrames
  refine ⟨?snapTrig, ?holdExpiry, ?lateLatch, ?dumpComplete, ?levelSat, ?errorRate, ?ptp, ?pps, ?ptpSilent,
    ?mgmtAddress, ?arp, ?echo, ?blobTimeout, ?dictLate, ?mirrorCopy, ?auditResend, ?auditHold, ?samplePeriod, ?spdm,
    ?certificate, ?measurements, ?keyExchange, ?finish, ?heartbeatMissed, ?winRead, ?jp1⟩
  case snapTrig => exact fun _ => leavesRegs_of_touches (T := touchExecSnapTrigEdge) rfl (by decide +kernel)
  case holdExpiry => exact leaves_of_touches (T := touchExecFreezeHoldExpiry) rfl (by decide +kernel) (by decide +kernel)
  case lateLatch => exact fun _ => leaves_of_touches (T := touchExecLateLatch) rfl (by decide +kernel) (by decide +kernel)
  case dumpComplete => exact leavesRegs_of_touches (T := touchExecFreezeDumpComplete) rfl (by decide +kernel)
  case levelSat =>
    exact fun _ => leaves_of_touches (T := touchExecLevelSatRefresh) rfl (by decide +kernel) (by decide +kernel)
  case errorRate => exact leaves_of_touches (T := touchExecErrorRateWindow) rfl (by decide +kernel) (by decide +kernel)
  case ptp => exact fun _ _ _ _ _ => leaves_of_touches (T := touchExecPtpMessage) rfl (by decide +kernel) (by decide +kernel)
  case pps => exact leaves_of_touches (T := touchExecPpsEdge) rfl (by decide +kernel) (by decide +kernel)
  case ptpSilent => exact leaves_of_touches (T := touchExecPtpReferenceSilent) rfl (by decide +kernel) (by decide +kernel)
  case mgmtAddress =>
    exact fun _ _ _ => leaves_of_touches (T := touchExecMgmtAddressRenewal) rfl (by decide +kernel) (by decide +kernel)
  case arp => exact fun _ _ => leaves_of_touches (T := touchExecArpRequest) rfl (by decide +kernel) (by decide +kernel)
  case echo => exact fun _ _ _ => leaves_of_touches (T := touchExecIcmpEcho) rfl (by decide +kernel) (by decide +kernel)
  case blobTimeout =>
    exact fun _ => leaves_of_touches (T := touchExecBlobAssemblyTimeout) rfl (by decide +kernel) (by decide +kernel)
  case dictLate => exact leavesRegs_of_touches (T := touchExecDictAnswerLate) rfl (by decide +kernel)
  case mirrorCopy => exact leaves_of_touches (T := touchExecAuditMirrorCopy) rfl (by decide +kernel) (by decide +kernel)
  case auditResend =>
    exact fun _ => leaves_of_touches (T := touchExecAuditResendTimeout) rfl (by decide +kernel) (by decide +kernel)
  case auditHold =>
    exact fun _ => leaves_of_touches (T := touchExecAuditHoldTimeout) rfl (by decide +kernel) (by decide +kernel)
  case samplePeriod => exact fun _ => leavesRegs_of_touches (T := touchExecSamplePeriod) rfl (by decide +kernel)
  case spdm =>
    exact fun _ => forall_leavesRegs_of_touches (Ts := [touchExecGetVersion, touchExecGetCapabilities,
      touchExecNegotiateAlgorithms, touchExecGetDigests, touchExecChallenge, touchExecHeartbeat, touchExecKeyUpdate,
      touchExecEndSession]) rfl (by decide +kernel)
  case certificate => exact fun _ _ _ _ => leavesRegs_of_touches (T := touchExecGetCertificate) rfl (by decide +kernel)
  case measurements => exact fun _ _ => leavesRegs_of_touches (T := touchExecGetMeasurements) rfl (by decide +kernel)
  case keyExchange => exact fun _ _ => leavesRegs_of_touches (T := touchExecKeyExchange) rfl (by decide +kernel)
  case finish => exact fun _ _ _ _ _ => leavesRegs_of_touches (T := touchExecFinish) rfl (by decide +kernel)
  case heartbeatMissed =>
    exact fun _ _ => leaves_of_touches (T := touchExecHeartbeatMissed) rfl (by decide +kernel) (by decide +kernel)
  case winRead => exact fun _ _ _ _ => leavesRegs_of_touches (T := touchExecWinCmdRead) rfl (by decide +kernel)
  case jp1 => exact fun _ _ => leavesRegs_of_touches (T := touchExecJp1Request) rfl (by decide +kernel)

end Sys2Proof.Machine
end

section
/-! Every command has a meaning in every state (log entry 6): each branch of each of them is a next state. -/

namespace Sys2Proof.Machine

/-- The answer is a next state. -/
def Answers (o : Res) : Prop := ∃ t, o = .next t

theorem answers_next (t : State) : Answers (.next t) := ⟨t, rfl⟩

theorem Answers.ite {c : Prop} [Decidable c] {a b : Res} (ha : Answers a) (hb : Answers b) : Answers (if c then a else b) := by
  split
  · exact ha
  · exact hb

theorem answers_sbiCall (s : State) (h eid : Nat) (f : Hart → State) : Answers (s.sbiCall h eid f) := by
  unfold State.sbiCall
  exact .ite (answers_next _) (.ite (answers_next _) (answers_next _))

theorem answers_execClockMuxHang (k : Fin 48) (spareLocked : Bool) (s : State) :
    Answers (execClockMuxHang k spareLocked s) := by
  unfold execClockMuxHang
  refine .ite (answers_next _) ?_
  dsimp only
  split
  · exact answers_next _
  · exact answers_next _

theorem answers_execRestoreComplete (bad : Bool) (peers : Option Image) (s : State) :
    Answers (execRestoreComplete bad peers s) := by
  unfold execRestoreComplete
  split
  · exact answers_next _
  · refine .ite (answers_next _) ?_
    dsimp only
    split
    · exact answers_next _
    · split
      · exact answers_next _
      · split
        · exact answers_next _
        · exact answers_next _

theorem answers_execFOrDInstruction (h : Fin 3072) (w : Word) (short : Bool) (s : State) :
    Answers (execFOrDInstruction h w short s) := by
  unfold execFOrDInstruction
  refine .ite (answers_next _) ?_
  split
  · next i hc => exact (runsSvx_svxCommand hc s).2
  · split
    · exact answers_next _
    · exact answers_next _

/-- Settles O47: a command's meaning is one next state, or each of its branches is. -/
theorem everyCommandAnswersNextState : Obligations.EveryCommandAnswersNextState := by
  intro c s
  show Answers (exec c s)
  cases c
  case vadd | vsub | vmul | vmulh | vfma | vmin | vmax | vdiv | vsqrt | vand | vor | vxor | vsll | vsrl | vsra | vcmpeq
      | vcmplt | vcmple | vsel | vwmul | vwmulhi | vdot | vrsum =>
    dsimp -zeta only [exec, execVadd, execVsub, execVmul, execVmulh, execVfma, execVmin, execVmax, execVdiv, execVsqrt,
      execVand, execVor, execVxor, execVsll, execVsrl, execVsra, execVcmpeq, execVcmplt, execVcmple, execVsel, execVwmul,
      execVwmulhi, execVdot, execVrsum]
    exact svxArith_next ..
  case vcvt => exact execVcvt_next ..
  case vld => exact execVld_next ..
  case vst => exact execVst_next ..
  case vgath => exact execVgath_next ..
  case vscat => exact execVscat_next ..
  case vsplat => exact execVsplat_next ..
  case vext => exact execVext_next ..
  case sync => exact execSync_next ..
  case call => exact execCall_next ..
  case hartAmo => exact execHartAmo_next ..
  case sbiBaseCall | sbiSetTimer | sbiSendIpi | sbiSystemReset =>
    dsimp -zeta only [exec, execSbiBaseCall, execSbiSetTimer, execSbiSendIpi, execSbiSystemReset]
    exact answers_sbiCall ..
  case clockMuxHang => exact answers_execClockMuxHang ..
  case restoreComplete => exact answers_execRestoreComplete ..
  case fOrDInstruction => exact answers_execFOrDInstruction ..
  case vinAonApplied | crystalStable | crystalFailTimeout | mclkStop | pwrOkAsserted | pwrOkDeasserted |
      stackRailOutOfRange | coldReset | warmReset | resetAfterFusePulse | initStageComplete | pllALockTimeout |
      pllLossOfLock | sparePllLockTimeout | clockSwitchComplete | powerSample | throttleStepUp | arrayThrottleStart |
      thermalSample | thermalFloorTimeout | hardwareThermalTrip | coolantLow | coolantClear | lullDeadlineExpiry |
      entryIssue | entryStart | entryComplete | deadlineMissed | entryAbandon | arrayBistComplete |
      baySpareCopyComplete | gath | scat | rstore | mcast | transPartComplete | fence | waitConditionMet | epoch | br
      | loop | tableEnd | model | tailwindCopyComplete | snap | digest | collNodeLocalStage | collAbandon |
      jobBarrierComplete | contextSaveComplete | preemptDeferralExpiry | hartLoad | hartStore | hartFence | hartWfi |
      accessReturn | storeBufferDrain | interruptPending | svxrerrClear | coreParityReplay | coreSelftestComplete |
      supervisorMismatch | stackRead | stackWrite | llmFillComplete | narrowRequest | coalescingWaitExpiry |
      channelParityReplay | channelRetrainComplete | patternTestComplete | channelMapoutSwitch | migrationComplete |
      softRemapComplete | permanentRepairStart | fusePulseComplete | scrubLine | teardownWipeComplete |
      llmMbistComplete | sliceSweepComplete | taggedLineSweep | wrapperSelect | journalRead | remapRead | remapWrite |
      channelTest | draughtStatus | hbm4DeviceIdentity | hbm4TemperatureReadout | hbm4ModeRegisterDump | hbm4SoftPpr |
      wordReplay | bridgeSegmentTestComplete | couplerBistComplete | fabricPortTestComplete | linkTrainingStart |
      linkUp | linkDetectRetry | linkFarEndIdle | linkAbsentTimeout | laneTestStart | laneTestComplete | flitReceive |
      linkAckTimeout | linkStateMessage | pktAmo | pktNack | pktMailAck | remoteTimeout | raccRoundEnd | mailComplete
      | mailRetransmitTimeout | mailTransitTimeout | squallClear | peerLossTimeout | snapCaptureComplete |
      snapQuiesceComplete | snapAgreementComplete | stackPartComplete | drainDeadlineExpiry | teardownComplete |
      hostLinkTraining | hostLinkReset | sqTailDoorbell | cqHeadDoorbell | jobStartTimeout | winCmdRead | winCmdWrite
      | hostMemRead | hostMemWrite | heartbeatMissed | objectWrite | auditMirrorCopy | dictAnswerLate | samplePeriod |
      auditResendTimeout | auditHoldTimeout | jp1Request | jdict | arpRequest | icmpEcho | ptpMessage | ppsEdge |
      ptpReferenceSilent | snapTrigEdge | freezeHoldExpiry | lateLatch | freezeDumpComplete | levelSatRefresh |
      vinAonLost | mgmtAddressRenewal =>
    dsimp -zeta only [exec, execVinAonApplied, execCrystalStable, execCrystalFailTimeout, execMclkStop, execPwrOkAsserted,
      execPwrOkDeasserted, execStackRailOutOfRange, execColdReset, execWarmReset, execResetAfterFusePulse,
      execInitStageComplete, execPllALockTimeout, execPllLossOfLock, execSparePllLockTimeout, execClockSwitchComplete,
      execPowerSample, execThrottleStepUp, execArrayThrottleStart, execThermalSample, execThermalFloorTimeout,
      execHardwareThermalTrip, execCoolantLow, execCoolantClear, execLullDeadlineExpiry, execEntryIssue,
      execEntryStart, execEntryComplete, execDeadlineMissed, execEntryAbandon, execArrayBistComplete,
      execBaySpareCopyComplete, execGath, execScat, execRstore, execMcast, execTransPartComplete, execFence,
      execWaitConditionMet, execEpoch, execBr, execLoop, execTableEnd, execModel, execTailwindCopyComplete, execSnap,
      execDigest, execCollNodeLocalStage, execCollAbandon, execJobBarrierComplete, execContextSaveComplete,
      execPreemptDeferralExpiry, execHartLoad, execHartStore, execHartFence, execHartWfi, execAccessReturn,
      execStoreBufferDrain, execInterruptPending, execSvxrerrClear, execCoreParityReplay, execCoreSelftestComplete,
      execSupervisorMismatch, execStackRead, execStackWrite, execLlmFillComplete, execNarrowRequest,
      execCoalescingWaitExpiry, execChannelParityReplay, execChannelRetrainComplete, execPatternTestComplete,
      execChannelMapoutSwitch, execMigrationComplete, execSoftRemapComplete, execPermanentRepairStart,
      execFusePulseComplete, execScrubLine, execTeardownWipeComplete, execLlmMbistComplete, execSliceSweepComplete,
      execTaggedLineSweep, execWrapperSelect, execJournalRead, execRemapRead, execRemapWrite, execChannelTest,
      execDraughtStatus, execHbm4DeviceIdentity, execHbm4TemperatureReadout, execHbm4ModeRegisterDump,
      execHbm4SoftPpr, execWordReplay, execBridgeSegmentTestComplete, execCouplerBistComplete,
      execFabricPortTestComplete, execLinkTrainingStart, execLinkUp, execLinkDetectRetry, execLinkFarEndIdle,
      execLinkAbsentTimeout, execLaneTestStart, execLaneTestComplete, execFlitReceive, execLinkAckTimeout,
      execLinkStateMessage, execPktAmo, execPktNack, execPktMailAck, execRemoteTimeout, execRaccRoundEnd,
      execMailComplete, execMailRetransmitTimeout, execMailTransitTimeout, execSquallClear, execPeerLossTimeout,
      execSnapCaptureComplete, execSnapQuiesceComplete, execSnapAgreementComplete, execStackPartComplete,
      execDrainDeadlineExpiry, execTeardownComplete, execHostLinkTraining, execHostLinkReset, execSqTailDoorbell,
      execCqHeadDoorbell, execJobStartTimeout, execWinCmdRead, execWinCmdWrite, execHostMemRead, execHostMemWrite,
      execHeartbeatMissed, execObjectWrite, execAuditMirrorCopy, execDictAnswerLate, execSamplePeriod,
      execAuditResendTimeout, execAuditHoldTimeout, execJp1Request, execJdict, execArpRequest, execIcmpEcho,
      execPtpMessage, execPpsEdge, execPtpReferenceSilent, execSnapTrigEdge, execFreezeHoldExpiry, execLateLatch,
      execFreezeDumpComplete, execLevelSatRefresh, execVinAonLost, execMgmtAddressRenewal]
    repeat' first
      | with_reducible exact answers_next _
      | with_reducible apply Answers.ite
      | extract_lets
      | split
  all_goals exact answers_next _

end Sys2Proof.Machine
end

section
/-! Writes that the dictionary accepts or refuses (R579, R593), and what each changes (R571). -/

namespace Sys2Proof.Machine

/-! What an effect may touch. -/

/-- The effect `f` changes the registers that `T` names alone, and node memory where `T` names it. -/
def Within (T : Option Reg → Bool) (f : State → State) : Prop := ∀ K, Closed T K → ∀ u, Has K u → Has K (f u)

theorem Within.regsKept {T : Option Reg → Bool} {f : State → State} {rs : List Reg} (hf : Within T f)
    (hT : touchesOnly T rs = true) (u : State) : RegsKept rs u (f u) := by
  intro r hr j
  have hleft : T (some r) = false := by
    have hmem := List.all_eq_true.1 hT r (Reg.mem_all r)
    simpa [hr] using hmem
  exact (hf _ (closed_reg T u r hleft j) u ⟨rfl⟩).out

theorem Within.memKept {T : Option Reg → Bool} {f : State → State} (hf : Within T f) (hT : T none = false) (u : State) :
    MemKept u (f u) :=
  fun _ => State.byte_congr (hf _ (closed_mem T u hT) u ⟨rfl⟩).out _

section
variable {s t : State} {q : Requester} {r : Reg} {inst : Nat} {bs : List Byte}

/-- An accepted write changes the object, the registers of its audit entry and those that the object's effect may touch. -/
theorem acceptedWrite_regsKept {T : Option Reg → Bool} {eff : Reg → Nat → State → State} {own : Reg → Nat} (L : List Reg)
    (haccepts : Accepts s q r inst bs) (hexec : .next (s.writeRequest q (r.objAt inst) bs eff own) = (.next t : Res))
    (hf : Within T (eff r inst)) (hT : touchesOnly T (L ++ acceptRegs r) = true) (hown : own r = resOk)
    (hr : r ≠ .squallHalflife) (hr' : r ≠ .auditAckHost) : RegsKept (L ++ acceptRegs r) s t :=
  regsKept_accepts L eff own hr hr' hown haccepts hexec (hf.regsKept hT)

/-- The same for an effect that leaves memory. -/
theorem acceptedWrite_frame {T : Option Reg → Bool} {eff : Reg → Nat → State → State} (L : List Reg)
    (haccepts : Accepts s q r inst bs) (hexec : .next (s.writeRequest q (r.objAt inst) bs eff) = (.next t : Res))
    (hf : Within T (eff r inst)) (hT : touchesOnly T (L ++ acceptRegs r) = true) (hmem : T none = false)
    (hr : r ≠ .squallHalflife) (hr' : r ≠ .auditAckHost) : RegsKept (L ++ acceptRegs r) s t ∧ MemKept s t :=
  ⟨acceptedWrite_regsKept L haccepts hexec hf hT rfl hr hr',
    memKept_accepts eff _ hr hr' rfl haccepts hexec (hf.memKept hmem)⟩

end

/-- A re-arm or a disarm of the trigger changes its state and what waits to be dumped (R654). -/
theorem within_freezeCommand {v : Nat} (hv : v ≠ 1) :
    Within (fun p => touchSetReg .freezeCmd p || touchSetReg .freezeState p || touchSetReg .dumpWaits p) (freezeCommand v) := by
  intro K hK u hu
  unfold freezeCommand
  rw [if_neg hv]
  exact keeps_setReg hK _ _ (fun p hp => by simp [hp]) _ _ (keeps_setReg hK _ _ (fun p hp => by simp [hp]) _ _
    (keeps_setReg hK _ _ (fun p hp => by simp [hp]) _ _ hu))

/-- The entry to SERVICE idles the links (R38). -/
theorem within_serviceEffect_enter : Within (fun p => touchEnter p || touchIdleLinks p) (serviceEffect 1) := fun _ hK _ hu =>
  keeps_idleLinks hK _ (fun p hp => by simp [hp]) (keeps_enter hK _ _ (fun p hp => by simp [hp]) hu)

theorem within_setReg_of (c : State → Prop) [DecidablePred c] (r : Reg) (i : Nat) (v : State → Nat) :
    Within (touchSetReg r) fun u => if c u then u.setReg r i (v u) else u := fun _ hK _ hu =>
  Has.ite (keeps_setReg hK _ _ (fun _ h => h) _ _ hu) hu

/-- A holder's acknowledgement by the host makes no entry of the audit log (R598). -/
theorem writeRequest_auditAckHost {s : State} {q : Requester} {inst : Nat} {bs : List Byte} (eff : Reg → Nat → State → State)
    (h : Accepts s q .auditAckHost inst bs) : s.writeRequest q (Reg.auditAckHost.objAt inst) bs eff =
      (eff .auditAckHost inst (s.taken q .auditAckHost inst bs)).answer q (Reg.auditAckHost.objAt inst) resOk := by
  obtain ⟨hport, hserves, hsession, haddr, hsize, hchecks, hroom, hnow⟩ := h
  simp [State.writeRequest, State.serveWrite, State.writeObject, State.taken, hport, hserves, hsession, haddr, hsize, hchecks,
    hnow]

theorem beforeChange_of_ne {s : State} {r : Reg} (inst : Nat) (hr : r ≠ .squallHalflife) :
    s.beforeChange r inst = { s with deferred := s.deferred.filter fun e => e.1 ≠ (r, inst) } := by
  simp only [State.beforeChange, if_neg hr]

theorem taken_auditAckHost_frame (s : State) (q : Requester) (inst : Nat) (bs : List Byte) :
    RegsKept [.auditAckHost] s (s.taken q .auditAckHost inst bs) ∧ MemKept s (s.taken q .auditAckHost inst bs) := by
  rw [State.taken, if_pos rfl, beforeChange_of_ne inst (by decide)]
  obtain ⟨_, _, _, _, hlogged⟩ := logged_setRegs ({ s with deferred := s.deferred.filter fun e => e.1 ≠ (.auditAckHost, inst) } :
    State) .auditAckHost (inst * Reg.auditAckHost.info.elems) (Reg.auditAckHost.taken bs)
  exact ⟨(RegsKept.of_regs rfl RegsKept.refl).setRegs (by decide), fun a => State.byte_congr (by rw [hlogged]) a⟩

theorem auditAckHostWrite_frame {s t : State} {q : Requester} {v : Dword}
    (haccepts : Accepts s q .auditAckHost 0 (leBytes 8 v.toNat)) (hexec : exec (.auditAckHostWrite q v) s = .next t) :
    RegsKept (.auditAcked :: .hostHoldAcked :: acceptRegs .auditAckHost) s t ∧ MemKept s t := by
  have hf : Within touchAckHost ackHost := fun _ hK u => keeps_ackHost hK u fun _ h => h
  have hnext : exec (.auditAckHostWrite q v) s =
      .next (s.writeRequest q (Reg.auditAckHost.objAt 0) (leBytes 8 v.toNat) fun _ _ => ackHost) := rfl
  rw [hnext, writeRequest_auditAckHost _ haccepts] at hexec
  obtain ⟨hregs, hmem⟩ := taken_auditAckHost_frame s q 0 (leBytes 8 v.toNat)
  generalize s.taken q .auditAckHost 0 (leBytes 8 v.toNat) = u at hexec hregs hmem
  cases hexec
  have hkept : RegsKept (.auditAcked :: .hostHoldAcked :: acceptRegs .auditAckHost) s (ackHost u) :=
    (hregs.mono (by decide)).trans (hf.regsKept (by decide +kernel) u)
  exact ⟨hkept.send, fun a => (hf.memKept rfl u a).trans (hmem a)⟩

/-! A write that the object's own rule refuses (R512, R579). -/

/-- A write that the checks accept and the object's own rule refuses leaves its entry in the audit log, and is answered. -/
theorem writeRequest_ownRefused {s : State} {q : Requester} {r : Reg} {inst : Nat} {bs : List Byte}
    {eff : Reg → Nat → State → State} {own : Reg → Nat} (h : Accepts s q r inst bs) (hown : own r ≠ resOk)
    (hgated : own r ≠ resGated) (hr : r ≠ .auditAckHost) : s.writeRequest q (r.objAt inst) bs eff own =
      (s.appendAudit (r.objAt inst) (portOrigin q.port) (s.levelOf q).2 (own r) 0 (s.regBytes r inst) bs).answer q
        (r.objAt inst) (own r) := by
  obtain ⟨hport, hserves, hsession, haddr, hsize, hchecks, hroom, -⟩ := h
  simp [State.writeRequest, State.serveWrite, State.writeObject, State.noteGated, hport, hserves, hsession, haddr, hsize,
    hchecks, hroom, hown, hgated, hr]

theorem recoveryRefusal_ne_gated (s : State) (kind pos epoch tstep : Nat) (peers : Option Nat) :
    s.recoveryRefusal kind pos epoch tstep peers ≠ resGated := by
  unfold State.recoveryRefusal
  repeat' split
  all_goals decide

/-- What a recovery that begins may touch, beside the error log (R513). -/
def recoverRegs : List Reg := [.logicalId, .tableState, .hartState, .groupMap, .jobEpoch, .xwState, .xwHoldNs, .slotInfo,
  .slotValid, .slotDrained, .recoveryState, .notifyDropped, .sqState, .startPending, .lullHeld, .mailTail, .fenceJoined,
  .fenceHeld, .fenceDone, .cqTail, .cqWraps, .sqHead]

theorem touchesOnly_recover : touchesOnly touchRecover (recoverRegs ++ errorRegs ++ acceptRegs .recoveryCmd) = true := by
  decide +kernel

/-- An accepted write of `RECOVERY_CMD` changes what the recovery may touch, where it begins, and no more than the audit log
where its rule refuses it (R512, R513). -/
theorem writeRecovery_regsKept {s : State} {q : Requester} {kind pos epoch tstep : Nat} (peers : Option Half)
    (h : Accepts s q .recoveryCmd 0 (recoveryBytes kind pos epoch tstep)) :
    RegsKept (recoverRegs ++ errorRegs ++ acceptRegs .recoveryCmd) s (s.writeRecovery q kind pos epoch tstep peers) := by
  unfold State.writeRecovery
  dsimp only
  by_cases hown : s.recoveryRefusal kind pos epoch tstep (peers.map BitVec.toNat) = resOk
  · have hf : Within touchRecover fun u => u.recover kind pos epoch tstep :=
      fun _ hK u => keeps_recover hK u _ _ _ _ fun _ h => h
    exact acceptedWrite_regsKept (eff := fun _ _ u => u.recover kind pos epoch tstep)
      (own := fun _ => s.recoveryRefusal kind pos epoch tstep (peers.map BitVec.toNat)) (recoverRegs ++ errorRegs) h rfl hf
      touchesOnly_recover hown (by decide) (by decide)
  · rw [writeRequest_ownRefused (own := fun _ => _) h hown (recoveryRefusal_ne_gated _ _ _ _ _ _) (by decide)]
    exact RegsKept.appendAudit (by decide) (by decide) RegsKept.refl

/-- Settles O60: an accepted write changes its object, the registers of its audit entry, and what the object's effect may touch;
a recovery command that its own rule refuses changes less. -/
theorem acceptedWriteFrames : Obligations.AcceptedWriteFrames := by
  unfold Obligations.AcceptedWriteFrames
  have hlink (l : Fin 24) (v : Nat) : Within touchLinkCommand (linkCommand l v) :=
    fun _ hK u => keeps_linkCommand hK _ _ u fun _ h => h
  have hblocked : Within touchNoteBlocked State.noteBlocked := fun _ hK u => keeps_noteBlocked hK u fun _ h => h
  refine ⟨?clkSel, ?readyFlag, ?lull, ?resume, ?service, ?location, ?trigger, ?rearm, ?disarm, ?latClear, ?taiSet,
    fun _ _ _ _ => auditAckHostWrite_frame, ?hostHold, ?retrain, ?disable, ?enable, ?errorAck, ?alertCause, ?sqEnable,
    ?allocTop, ?mapout, ?mode, ?rollback, ?takeover, ?rejoin⟩
  case clkSel | readyFlag =>
    exact fun _ _ _ _ _ h e => acceptedWrite_frame (T := touchStartSwitch) [.clkSwitching] h e
      (fun _ hK u => keeps_startSwitch hK _ _ u fun _ h => h) (by decide +kernel) rfl (by decide) (by decide)
  case lull =>
    exact fun _ _ _ h e => acceptedWrite_frame (T := fun _ => false) [] h e (fun _ _ _ hu => hu) (by decide +kernel) rfl
      (by decide) (by decide)
  case resume =>
    exact fun _ _ _ h e => acceptedWrite_frame (T := touchResume) [.nodeState, .hartState, .lullHeld, .hartTurn] h e
      (fun _ hK u => keeps_resume hK u fun _ h => h) (by decide +kernel) rfl (by decide) (by decide)
  case service =>
    exact fun _ _ _ h e => acceptedWrite_frame [.nodeState, .linksUp, .linkState, .linkGen, .linkQuiet] h e
      within_serviceEffect_enter (by decide +kernel) rfl (by decide) (by decide)
  case location =>
    exact fun _ _ _ _ h e => acceptedWrite_frame (T := touchLocationEffect) [.initStage, .physId, .stageStarted,
      .stage5Waits] h e (fun _ hK u => keeps_locationEffect hK u fun _ h => h) (by decide +kernel) rfl (by decide) (by decide)
  case trigger =>
    exact fun _ _ _ h e => acceptedWrite_regsKept (T := touchFreezeCommand) (.freezeGen :: .freezeRecord :: .freezeState ::
      .dumpWaits :: .freezeMissed :: traceRegs) h e (fun _ hK u => keeps_freezeCommand hK _ u fun _ h => h)
      (by decide +kernel) rfl (by decide) (by decide)
  case rearm | disarm =>
    exact fun _ _ _ h e => acceptedWrite_frame [.freezeState, .dumpWaits] h e (within_freezeCommand (by decide))
      (by decide +kernel) rfl (by decide) (by decide)
  case latClear =>
    exact fun _ _ _ _ h e => acceptedWrite_frame (T := touchClearLatencies) [.latHist] h e
      (fun _ hK u => keeps_clearLatencies hK u fun _ h => h) (by decide +kernel) rfl (by decide) (by decide)
  case taiSet =>
    exact fun _ _ _ _ h e => acceptedWrite_frame (T := touchTaiSetEffect) [.taiState, .taiOffset, .taiSlew, .taiSlewAt] h e
      (fun _ hK u => keeps_taiSetEffect hK u fun _ h => h) (by decide +kernel) rfl (by decide) (by decide)
  case hostHold =>
    exact fun _ _ _ _ h e => acceptedWrite_frame (T := touchHoldHost) [.auditAcked, .hostHoldAcked] h e
      (fun _ hK u => keeps_holdHost hK u fun _ h => h) (by decide +kernel) rfl (by decide) (by decide)
  case retrain | disable | enable =>
    exact fun _ _ _ _ h e => acceptedWrite_frame [.nodeState, .degradeCause, .linksUp, .detours, .linkState, .linkGen,
      .xwState, .xwHoldNs, .alertCause, .linkWasUp, .linkQuiet, .flitSeq] h e (hlink _ _) (by decide +kernel) rfl
      (by decide) (by decide)
  case errorAck =>
    exact fun _ _ _ _ h e => acceptedWrite_frame [.alertCause] h e (within_setReg_of _ _ _ _) (by decide +kernel) rfl
      (by decide) (by decide)
  case alertCause =>
    exact fun _ _ _ _ h e => acceptedWrite_frame (T := touchSetReg .alertCause) [] h e
      (fun _ hK u => keeps_setReg hK u _ (fun _ h => h) _ _) (by decide +kernel) rfl (by decide) (by decide)
  case sqEnable =>
    exact fun _ _ _ _ _ h e => acceptedWrite_frame (T := touchEnableQueue) [.sqState, .cqHead, .cqTail, .cqWraps, .sqHead,
      .sqTail] h e (fun _ hK u => keeps_enableQueue hK _ u fun _ h => h) (by decide +kernel) rfl (by decide) (by decide)
  case allocTop | mapout =>
    exact fun _ _ _ _ h e => acceptedWrite_frame [.alertCause] h e hblocked (by decide +kernel) rfl (by decide) (by decide)
  case mode =>
    intro _ _ _ o _ _ h e
    have hT : touchesOnly (fun _ => false) (acceptRegs (modeReg o)) = true := by cases o <;> decide +kernel
    have hr : modeReg o ≠ .squallHalflife ∧ modeReg o ≠ .auditAckHost := by cases o <;> decide
    exact acceptedWrite_frame [] h e (fun _ _ _ hu => hu) hT rfl hr.1 hr.2
  case rollback | rejoin =>
    intro _ _ _ _ _ _ h e
    cases e
    exact writeRecovery_regsKept _ h
  case takeover =>
    intro _ _ _ _ _ _ _ h e
    cases e
    exact writeRecovery_regsKept _ h

/-! Objects before their subsystem starts (R571, R579), and refused writes (R579, R593). -/

theorem regBytes_length (s : State) (r : Reg) (inst : Nat) : (s.regBytes r inst).length = r.info.esize * r.info.elems := by
  rw [State.regBytes, List.length_flatMap]
  simp only [leBytes_length]
  rw [List.map_const', List.length_range, List.sum_replicate_nat, Nat.mul_comm]

/-- An object that shows its register has the register's length. -/
theorem size_of_plain {r : Reg} {inst : Nat} (hplain : ∀ u : State, u.valueOf r inst = u.regBytes r inst) :
    r.size = r.info.esize * r.info.elems := by
  have hlength := congrArg List.length (hplain State.reset)
  rw [regBytes_length] at hlength
  rw [← hlength]
  unfold Reg.size
  split
  case h_1 => exact (List.length_map ..).symm
  case h_2 => rfl
  case h_3 => rfl
  case h_4 => exact hlength.symm

/-- The value of an object that has not started is taken from a state without registers, and reads its default. -/
theorem objectBytes_of_notStarted {s : State} {r : Reg} {inst : Nat} (hserves : s.supervisorServes = true)
    (hstarted : s.started r = false) (hplain : ∀ u : State, u.valueOf r inst = u.regBytes r inst) (herror : r ≠ .errorLog)
    (haudit : r ≠ .auditLog) (hmirror : r ≠ .auditMirror) : s.objectBytes r inst 0 r.size =
      (List.range r.info.elems).flatMap fun e => leBytes r.info.esize (r.dflt (inst * r.info.elems + e)) := by
  unfold State.objectBytes
  simp only [hserves, hstarted, Bool.not_true, Bool.or_self, Bool.false_eq_true, if_false]
  rw [hplain, size_of_plain hplain, List.drop_zero, ← regBytes_length, List.take_length]
  rfl

/-! The checks of a write that its level admits. -/

theorem writeChecks_of_stateRule {s : State} {q : Requester} {r : Reg} {inst l c : Nat} {bs : List Byte}
    (hlevel : r.info.access.writeLevel = some l) (hadmits : l ≤ (s.levelOf q).1)
    (hrule : ∀ v, s.stateRule r inst v = c) (hc : c ≠ resOk) : s.writeChecks q r inst bs = c := by
  simp [State.writeChecks, hlevel, Nat.not_lt.2 hadmits, hrule, hc]

theorem stateRule_of_notStarted {s : State} {r : Reg} (hstarted : s.started r = false) (inst v : Nat) :
    s.stateRule r inst v = resState := by
  simp [State.stateRule, hstarted]

theorem stateRule_of_jobScoped {s : State} {r : Reg} (hstarted : s.started r = true) (hgated : s.gated r = false)
    (hopen : r.info.addr / 256 < 0xA000) (hscoped : r.info.jobScoped = true) (hloaded : s.jobLoaded = true) (inst v : Nat) :
    s.stateRule r inst v = resBusy := by
  simp [State.stateRule, hstarted, hgated, Nat.not_le.2 hopen, hscoped, hloaded]

/-! A write that the checks refuse is logged or counted, and changes no object. -/

theorem reg_writeObject_of_refused {s : State} {q : Requester} {r : Reg} {inst : Nat} {bs : List Byte} (f : State → State)
    (hrefused : s.writeChecks q r inst bs ≠ resOk) {x : Reg} (hx : x ∉ errorRegs ++ [.auditRefused]) (i : Nat) :
    (s.writeObject q r inst bs f).2.reg x i = s.reg x i := by
  obtain ⟨herror, hcount⟩ := not_or.1 (mt List.mem_append.2 hx)
  have haudit : x ∉ auditRegs := fun h => herror ((by decide : auditRegs ⊆ errorRegs) h)
  have hgated (c : Nat) : (s.noteGated c).reg x i = s.reg x i := by
    unfold State.noteGated
    split
    · exact State.reg_logError _ herror ..
    · rfl
  unfold State.writeObject
  simp only [hrefused, if_false, ne_eq, not_false_eq_true, if_true]
  split
  · exact hgated _
  · split
    · rw [State.reg_appendAudit _ haudit, hgated]
    · rw [State.reg_addReg, if_neg (by simp at hcount; simp [Ne.symm hcount]), hgated]

/-- Settles O54: an object that has not started is read from a state without registers, and check 4 comes before those of the
value; a refused write notes its refusal. -/
theorem objectsBeforeTheirSubsystem : Obligations.ObjectsBeforeTheirSubsystem := by
  unfold Obligations.ObjectsBeforeTheirSubsystem
  refine ⟨?reads, ?checks, fun _ _ _ _ _ f hrefused _ hx i => reg_writeObject_of_refused f hrefused hx i⟩
  case reads => exact fun _ _ _ => objectBytes_of_notStarted
  case checks =>
    intro s q r inst bs l hlevel hadmits
    refine ⟨fun hstarted => ?_, fun hstarted hgated hopen hscoped hloaded => ?_⟩
    · exact writeChecks_of_stateRule hlevel hadmits (stateRule_of_notStarted hstarted inst) (by decide)
    · exact writeChecks_of_stateRule hlevel hadmits (stateRule_of_jobScoped hstarted hgated hopen hscoped hloaded inst)
        (by decide)

end Sys2Proof.Machine
end

section
/-! PLLs and the clock multiplexers (R617, R619, R620, R623), and the entry to FAULTED (R38). -/

namespace Sys2Proof.Machine

/-! The entry to FAULTED, while no JOB_START waits for its fence, writes no completion. -/

theorem cmds_of_sent {s t : State} (h : Sent s t) : t.cmds = s.cmds := by
  obtain ⟨_, _, _, _, _, _, _, _, _, _, _, rfl⟩ := h
  rfl

theorem endOpc_of_none {s : State} {opc : Nat} (h : (s.cmds.any fun c => decide (c.opc = opc) && c.started) = false)
    (status res0 : Nat) : s.endOpc opc status res0 = s := by
  have hnone : (s.cmds.filter fun c => decide (c.opc = opc) && c.started) = [] := by
    simpa [List.filter_eq_nil_iff, List.any_eq_false] using h
  rw [State.endOpc, hnone]
  rfl

theorem cmds_mem_abandonRestore (s : State) : s.abandonRestore.cmds = s.cmds ∧ s.abandonRestore.mem = s.mem := by
  unfold State.abandonRestore State.setRecovery
  split
  · split
    · exact ⟨rfl, rfl⟩
    · obtain ⟨_, _, _, _, hlogged⟩ := logged_change { s with recovery := none } .recoveryState 0 6
      rw [hlogged]
      exact ⟨rfl, rfl⟩
  · exact ⟨rfl, rfl⟩

/-- FAULTED, but for the JOB_START that ends with it. -/
def State.fallen (s : State) : State :=
  let t := if s.isIn stFaulted then s else s.leavePairing.abortTransition.abandonRestore
  (((t.enter stFaulted).setReg .initStage 0 0).setReg .jobRunning 0 0).setReg .initEnded 0 1

theorem enterFaulted_eq (s : State) : s.enterFaulted = s.fallen.endOpc 2 0x93 stFaulted := rfl

theorem cmds_mem_fallen (s : State) : s.fallen.cmds = s.cmds ∧ s.fallen.mem = s.mem := by
  have hleave : Sent s s.leavePairing.abortTransition := (sent_leavePairing s).trans (logged_abortTransition _).sent
  obtain ⟨hcmds, hmem⟩ := cmds_mem_abandonRestore s.leavePairing.abortTransition
  obtain ⟨-, -, -, hmem', -⟩ := hleave.same
  unfold State.fallen
  dsimp only
  generalize ht : (if s.isIn stFaulted then s else s.leavePairing.abortTransition.abandonRestore) = t
  have hsame : t.cmds = s.cmds ∧ t.mem = s.mem := by
    rw [← ht]
    split
    · exact ⟨rfl, rfl⟩
    · exact ⟨hcmds.trans (cmds_of_sent hleave), hmem.trans hmem'⟩
  have henter : Sent t (t.enter stFaulted) := (logged_enter t _).sent
  exact ⟨(cmds_of_sent henter).trans hsame.1, (enter_mem t _ rfl).trans hsame.2⟩

theorem enterFaulted_memKept {s : State} (h : s.startWaits = false) : MemKept s s.enterFaulted := by
  obtain ⟨hcmds, hmem⟩ := cmds_mem_fallen s
  rw [enterFaulted_eq, endOpc_of_none (by rw [hcmds]; exact h)]
  exact fun a => State.byte_congr hmem a

/-! The commands. -/

theorem pllALockTimeout_completes (s : State) (k : Fin 48) (locks : Bool) (hinit : s.reg .nodeState = 2)
    (hstage : s.reg .initStage = 1) (hdomain : clockDomain k = true) (hrate : s.reg .pllMhz k < 65536) :
    Completes (.pllALockTimeout k locks) s fun t =>
      (locks = true → t.reg .clkSel k = 3 ∧ t.reg .clkMhz k = s.reg .pllMhz k ∧ t.reg .clkPllSpare k = 1) ∧
        (locks = false → t.reg .pllFailed k = 1 ∧ t.reg .clkSel k = s.reg .clkSel k) ∧ MemKept s t := by
  have hin : (s.isIn stInit && decide (s.reg .initStage = 1) && clockDomain k) = true := by
    simp [State.isIn, stInit, hinit, hstage, hdomain]
  have hexec : exec (.pllALockTimeout k locks) s = execPllALockTimeout k locks s := rfl
  unfold Completes
  rw [hexec, execPllALockTimeout, if_pos hin]
  cases locks
  · refine ⟨_, rfl, by simp, fun _ => ⟨?_, ?_⟩, fun _ => rfl⟩
    · simp
    · simp
  · refine ⟨_, rfl, fun _ => ⟨?_, ?_, ?_⟩, by simp, ?_⟩
    · simp (disch := decide) [State.reg_change]
    · simp (disch := decide) [State.reg_change, Nat.mod_eq_of_lt hrate]
    · simp (disch := decide) [State.reg_change]
    · exact fun a => State.byte_congr (by simp) a

theorem pllLossOfLock_completes (s : State) (k : Fin 48) (hdomain : clockDomain k = true) (hpll : 2 ≤ s.reg .clkSel k)
    (hready : bit (s.reg .clkReady k) (s.reg .clkSel k) = true) :
    Completes (.pllLossOfLock k) s fun t =>
      t.reg .clkMhz k = 0 ∧ t.reg .clkSwitching k = 1 ∧ RegsKept [.clkReady, .clkMhz, .clkSwitching] s t ∧
        MemKept s t := by
  refine ⟨_, if_pos (by simp [hdomain, hpll, hready]), ?_, ?_, ?_, fun _ => rfl⟩
  · simp
  · simp
  · exact ((RegsKept.refl.setReg (by decide)).setReg (by decide)).setReg (by decide)

/-- PLL A is source 2 and PLL B source 3 (R651). -/
theorem pllAfterReset_lt (s : State) {k p : Nat} {spareLocked : Bool} (h : s.pllAfterReset k spareLocked = some p) :
    p < 4 := by
  have hactive : (if s.reg .clkPllSpare k = 1 then 3 else 2) = 3 ∨ (if s.reg .clkPllSpare k = 1 then 3 else 2) = 2 :=
    if hspare : s.reg .clkPllSpare k = 1 then .inl (if_pos hspare) else .inr (if_neg hspare)
  simp only [State.pllAfterReset] at h
  generalize (if s.reg .clkPllSpare k = 1 then 3 else 2) = active at h hactive
  split at h
  · have hp := Option.some.inj h
    omega
  · split at h
    · have hp := Option.some.inj h
      omega
    · exact nomatch h

theorem clockMuxHang_completes (s : State) (k : Fin 48) (spareLocked : Bool) (hswitching : s.reg .clkSwitching k ≠ 0) :
    Completes (.clockMuxHang k spareLocked) s fun t =>
      t.reg .clkSel k = 0 ∧ t.reg .clkMhz k = 25 ∧ t.reg .domainResets = (s.reg .domainResets + 1) % 4294967296 ∧
        t.reg .clkSwitching k = (match s.pllAfterReset k spareLocked with | none => 0 | some p => 1 + p) := by
  have hexec : exec (.clockMuxHang k spareLocked) s = execClockMuxHang k spareLocked s := rfl
  unfold Completes
  rw [hexec, execClockMuxHang, if_neg hswitching]
  dsimp only
  have hcount : ∀ outcome, (s.domainReset k outcome).reg .domainResets 0 = (s.reg .domainResets + 1) % 4294967296 := by
    intro outcome
    simp (disch := decide) [State.domainReset, State.addReg, State.reg_logError]
  cases hpick : s.pllAfterReset k spareLocked with
  | none =>
    refine ⟨_, rfl, ?_, ?_, ?_, ?_⟩
    · simp (disch := decide) [State.reg_change]
    · simp
    · simp (disch := decide) [State.reg_change, hcount]
    · simp
  | some p =>
    have hp : p < 4 := pllAfterReset_lt s hpick
    generalize (if s.reg .clkPllSpare k = 1 then 2 else 3) = spare
    by_cases hspare : p = spare
    all_goals
      simp only [hspare, if_true, if_false]
      refine ⟨_, rfl, ?_, ?_, ?_, ?_⟩
      · simp (disch := decide) [State.reg_change]
      · simp (disch := decide) [State.reg_change]
      · simp (disch := decide) [State.reg_change, hcount]
      · simp
        omega

theorem sparePllLockTimeout_completes (s : State) (k : Fin 48) (hpowered : s.reg .nodeState ≠ 0)
    (hdomain : clockDomain k = true) (hsel : s.reg .clkSel k = 0) (hswitching : s.reg .clkSwitching k = 0)
    (hready : s.reg .clkReady k < 4) (hreset : s.reg .inReset = 0) (hstage : s.reg .initStage ≠ 1) :
    Completes (.sparePllLockTimeout k) s fun t =>
      t.reg .nodeState = 7 ∧ t.reg .jobRunning = 0 ∧ (s.startWaits = false → MemKept s t) := by
  refine ⟨_, if_pos ?_, ?_, ?_, enterFaulted_memKept⟩
  · simp [State.powered, hpowered, hdomain, hsel, hswitching, hready, hreset, hstage]
  · simp
  · simp

theorem clockSwitchComplete_completes (s : State) (k : Fin 48) (hswitching : s.reg .clkSwitching k ≠ 0)
    (hbyte : s.reg .clkSwitching k < 256) (hready : bit (s.reg .clkReady k) (s.reg .clkSwitching k - 1) = true)
    (hruns : s.reg .clkMhz k ≠ 0) (hrate : s.reg .pllMhz k < 65536) :
    Completes (.clockSwitchComplete k) s fun t =>
      t.reg .clkSel k = s.reg .clkSwitching k - 1 ∧ t.reg .clkSwitching k = 0 ∧
        t.reg .clkMhz k = (if 3 ≤ s.reg .clkSwitching k then s.reg .pllMhz k else 25) ∧
        RegsKept (.clkSel :: .clkSwitching :: .clkMhz :: auditRegs) s t ∧ MemKept s t := by
  refine ⟨_, if_pos (by simp [hswitching, hready, hruns]), ?_, ?_, ?_, ?_, ?_⟩
  · have hsel : s.reg .clkSwitching k - 1 < 256 := by omega
    simp (disch := decide) [State.reg_change, Nat.mod_eq_of_lt hsel]
  · simp (disch := decide) [State.reg_change]
  · simp (disch := decide) [State.reg_change]
    split <;> omega
  · exact ((RegsKept.refl.setReg (by decide)).change (by decide) (by decide) (by decide)).setReg (by decide)
  · exact fun a => State.byte_congr (by simp) a

/-- Settles O3: a clause for each PLL or multiplexer event. -/
theorem clocksComplete : Obligations.ClocksComplete :=
  ⟨pllALockTimeout_completes, pllLossOfLock_completes, clockMuxHang_completes, sparePllLockTimeout_completes,
    clockSwitchComplete_completes⟩

end Sys2Proof.Machine
end

section
/-! Power samples, throttles and thermal trips (R638, R639, R640, R643, R647). -/

namespace Sys2Proof.Machine

/-! The power sample. -/

/-- What a power sample stores before it is judged: the ring of ten samples, their mean, the voltage and the current. -/
def State.takePower (s : State) (mv ma p : Nat) : State :=
  let n := s.reg .powerSamples
  let s := ((s.setReg .powerRing (n % 10) p).setReg .powerSamples 0 (n + 1)).clearReg .steppedDown
  let sum := ((List.range 10).map fun i => s.reg .powerRing i).foldl (· + ·) 0
  let s := s.setReg .pkgPower 0 (sum / min (n + 1) 10 / 1000)
  (s.setReg .vinMainMv 0 mv).setReg .vinMainA 0 (ma / 1000)

/-- How the node answers a sample that is stored: the flags of `THROTTLE_STATE`, the steps of the clocks and the count. -/
def State.judgePower (s : State) (ma p : Nat) : State :=
  let s := s.setReg .coolFlow 0 s.coolFlowNow
  let (cap, cause) := s.powerLimit
  let overCap := decide (cap < p)
  let overCurrent := decide (500000 < ma)
  let st := s.reg .throttleState
  let st := withField st 1 1 (ofBool (overCap && cause = 2))
  let st := withField st 3 1 (ofBool overCurrent)
  let st := withField st 4 1 (ofBool (overCap && cause = 5))
  let s := s.setReg .throttleState 0 st
  let s := if overCap then s.throttlePower cause else if overCurrent then s.throttlePower 4 else s
  let s := ((List.range 46).filter fun e => s.reg .elementHot e = 1).foldl (fun t e => t.throttleElement e) s
  s.countThrottle

theorem execPowerSample_eq (s : State) (mv ma stackMw : Nat)
    (hruns : (!s.powered || decide (s.reg .inReset = 1) || decide (s.reg .aonAbsent = 1)) = false) :
    execPowerSample mv ma stackMw s =
      .next ((s.takePower mv ma (mv * ma / 1000 + stackMw)).judgePower ma (mv * ma / 1000 + stackMw)) :=
  if_neg (by simp [hruns])

/-- Judging a sample touches none of the registers that store it. -/
theorem judgePower_reg (s : State) (ma p : Nat) {q : Reg}
    (hq : (touchThrottlePower (some q) || touchThrottleElement (some q) || touchCountThrottle (some q)) = false)
    (hflow : Reg.coolFlow ≠ q) (hstate : Reg.throttleState ≠ q) (j : Nat) : (s.judgePower ma p).reg q j = s.reg q j := by
  simp only [Bool.or_eq_false_iff] at hq
  obtain ⟨⟨hpower, helement⟩, hcount⟩ := hq
  unfold State.judgePower
  rw [countThrottle_reg _ _ hcount, State.reg_foldl fun v e => throttleElement_reg v e q helement j]
  split
  · rw [throttlePower_reg _ _ _ hpower, State.reg_setReg_ne _ hstate, State.reg_setReg_ne _ hflow]
  · split
    · rw [throttlePower_reg _ _ _ hpower, State.reg_setReg_ne _ hstate, State.reg_setReg_ne _ hflow]
    · rw [State.reg_setReg_ne _ hstate, State.reg_setReg_ne _ hflow]

theorem powerSample_completes (s : State) (mv ma stackMw : Nat) (hpowered : s.reg .nodeState ≠ 0)
    (hreset : s.reg .inReset ≠ 1) (haon : s.reg .aonAbsent ≠ 1) :
    Completes (.powerSample mv ma stackMw) s fun t =>
      t.reg .powerSamples = (s.reg .powerSamples + 1) % 18446744073709551616 ∧ t.reg .vinMainMv = mv % 65536 ∧
        t.reg .vinMainA = ma / 1000 % 65536 ∧
        t.reg .powerRing (s.reg .powerSamples % 10) = (mv * ma / 1000 + stackMw) % Reg.modulus .powerRing := by
  refine ⟨_, execPowerSample_eq s mv ma stackMw (by simp [State.powered, hpowered, hreset, haon]), ?_, ?_, ?_, ?_⟩
  all_goals
    rw [judgePower_reg _ _ _ (by decide) (by decide) (by decide)]
    simp (disch := decide) [State.takePower, clearReg_reg]

/-! The throttles. -/

theorem throttleStepUp_completes (s : State) (hmargin : s.reg .pkgPower * 1000 * 100 ≤ s.powerLimit.1 * 97)
    (hcurrent : s.reg .vinMainA < 480) (hfixed : s.reg .fixedTiming ≠ 1) :
    Completes .throttleStepUp s fun t => bit (t.reg .throttleState) 2 = false ∧ MemKept s t := by
  refine ⟨_, if_pos ⟨hmargin, hcurrent, by simp [State.fixedTimingOn, hfixed]⟩, ?_, ?_⟩
  · rw [countThrottle_reg _ _ (by decide), State.reg_setReg_same]
    simp only [Reg.modulus_throttleState, bit_mod8 _ 2 (by decide), bit_withField1]
    rfl
  · refine fun a => State.byte_congr ?_ a
    rw [countThrottle_mem _ (by decide), State.mem_setReg]
    refine mem_foldl (fun v k => ?_) _ s
    split
    · rfl
    · exact setRate_mem _ _ _ (by decide)

theorem arrayThrottleStart_completes (s : State) (ma : Nat) (hcurrent : 520000 < ma) (hpowered : s.reg .nodeState ≠ 0)
    (hoff : s.reg .arrayThrottle = 0) :
    Completes (.arrayThrottleStart ma) s fun t => t.reg .arrayThrottle = 1 := by
  refine ⟨_, if_pos ⟨hcurrent, by simp [State.powered, hpowered], hoff⟩, ?_⟩
  split
  · simp (disch := decide) [State.reg_raise, State.reg_logError]
  · simp

theorem arrayThrottleEnd_completes (s : State) :
    Completes .arrayThrottleEnd s fun t => t.reg .arrayThrottle = 0 ∧ RegsKept [.arrayThrottle] s t ∧ MemKept s t :=
  ⟨_, rfl, by simp, RegsKept.refl.setReg (by decide), fun _ => rfl⟩

/-! Temperature. -/

theorem bit_ofBool (b : Bool) : bit (ofBool b) 0 = b := by cases b <;> rfl

theorem thermalSample_completes (s : State) (readings : List (Option Int)) (hpowered : s.reg .nodeState ≠ 0)
    (hreset : s.reg .inReset ≠ 1) (hhub : s.flag .periphEn 0 5 = true) :
    Completes (.thermalSample readings) s fun t =>
      bit (t.reg .throttleState) 0 = (List.range 46).any (fun e => t.reg .elementHot e = 1) := by
  refine ⟨_, if_neg (by simp [State.powered, hpowered, hreset, hhub]), ?_⟩
  dsimp only
  generalize (List.range 46).foldl (fun (t : State) e => t.judgeElement e) _ = u
  rw [countThrottle_reg _ _ (by decide), State.reg_setReg_same]
  simp (disch := decide) [bit_withField1, bit_ofBool, countThrottle_reg]

/-- THERM_TRIP_N is latched, and the ten domains of the compute and processor dies stop (R647). -/
def State.trip (s : State) (sensor : Nat) : State :=
  let s := ((s.setReg .thermTrip 0 1).setReg .lastTrip 0 sensor).setReg .resetCause 0 4
  let s := (List.range 10).foldl (fun t k => t.setReg .clkMhz k 0) s
  s.setReg .regulatorsOff 0 1

theorem foldl_setReg_eq (r : Reg) (l : List Nat) (s : State) :
    ∃ m, l.foldl (fun t k => t.setReg r k 0) s = { s with regs := m } := by
  induction l generalizing s with
  | nil => exact ⟨_, rfl⟩
  | cons k l ih =>
    obtain ⟨m, hm⟩ := ih (s.setReg r k 0)
    exact ⟨m, hm⟩

theorem trip_eq (s : State) (sensor : Nat) : ∃ m, s.trip sensor = { s with regs := m } := by
  obtain ⟨m, hm⟩ := foldl_setReg_eq .clkMhz (List.range 10)
    (((s.setReg .thermTrip 0 1).setReg .lastTrip 0 sensor).setReg .resetCause 0 4)
  rw [State.trip, hm]
  exact ⟨_, rfl⟩

theorem trip_reg (s : State) (sensor : Nat) {q : Reg} (hq : Reg.clkMhz ≠ q) (j : Nat) :
    (s.trip sensor).reg q j =
      ((((s.setReg .thermTrip 0 1).setReg .lastTrip 0 sensor).setReg .resetCause 0 4).setReg .regulatorsOff 0 1).reg q j := by
  simp only [State.trip, State.reg_setReg (r := .regulatorsOff)]
  rw [State.reg_foldl fun v k => State.reg_setReg_ne v hq k j 0]

theorem trip_clkMhz (s : State) (sensor : Nat) {k : Nat} (hk : k < 10) : (s.trip sensor).reg .clkMhz k = 0 := by
  rw [State.trip, State.reg_setReg_ne _ (by decide), State.reg_fill, if_pos hk, Nat.zero_mod]

theorem hardwareThermalTrip_completes (s : State) (sensor : Fin 128) (hpowered : s.reg .nodeState ≠ 0) :
    Completes (.hardwareThermalTrip sensor) s fun t =>
      t.reg .nodeState = 7 ∧ t.reg .thermTrip = 1 ∧ t.reg .lastTrip = sensor.val ∧ t.reg .resetCause = 4 ∧
        t.reg .regulatorsOff = 1 ∧ (∀ k, k < 10 → t.reg .clkMhz k = 0) ∧ (s.startWaits = false → MemKept s t) := by
  have hexec : exec (.hardwareThermalTrip sensor) s = .next (s.trip sensor).enterFaulted :=
    if_neg (by simp [State.powered, hpowered])
  obtain ⟨m, hm⟩ := trip_eq s sensor
  refine ⟨_, hexec, enterFaulted_nodeState _, ?_, ?_, ?_, ?_, fun k hk => ?_, fun hw => ?_⟩
  · simp (disch := decide) [enterFaulted_reg, trip_reg]
  · simp (disch := decide) [enterFaulted_reg, trip_reg]
    omega
  · simp (disch := decide) [enterFaulted_reg, trip_reg]
  · simp (disch := decide) [enterFaulted_reg, trip_reg]
  · rw [enterFaulted_reg _ _ (by decide), trip_clkMhz s sensor hk]
  · have hkept : MemKept (s.trip sensor) (s.trip sensor).enterFaulted := enterFaulted_memKept (by rw [hm]; exact hw)
    rw [hm] at hkept ⊢
    exact hkept

/-- Settles O4: a clause for each sample, throttle and trip. -/
theorem powerAndCoolingComplete : Obligations.PowerAndCoolingComplete :=
  ⟨powerSample_completes, throttleStepUp_completes, arrayThrottleStart_completes, arrayThrottleEnd_completes,
    thermalSample_completes, hardwareThermalTrip_completes⟩

end Sys2Proof.Machine
end

section
/-! The freeze trigger and the monitors (R653, R654, R658, R662 to R665). -/

namespace Sys2Proof.Machine

/-- An accepted write has the object's effect and is answered (R579). -/
theorem exists_accepted {s : State} {q : Requester} {r : Reg} {inst : Nat} {bs : List Byte} (c : Instr)
    {eff : Reg → Nat → State → State} {own : Reg → Nat} (haccepts : Accepts s q r inst bs)
    (hexec : exec c s = .next (s.writeRequest q (r.objAt inst) bs eff own)) (hown : own r = resOk)
    (hr : r ≠ .auditAckHost) :
    ∃ u, u = s.accepted q r inst bs ∧ exec c s = .next ((eff r inst u).answer q (r.objAt inst) resOk) :=
  ⟨_, rfl, by rw [hexec, State.writeRequest_accepts s q r inst bs eff own haccepts hown hr]⟩

/-- What an accepted write leaves, beside its object and its audit entry. -/
theorem accepted_reg {s u : State} {q : Requester} {r : Reg} {inst : Nat} {bs : List Byte} (hu : u = s.accepted q r inst bs)
    (x : Reg) (hx : x ∉ [Reg.auditHead, .auditLost, .auditRefusing, .squallScore16, .squallAt]) (hne : r ≠ x) (j : Nat) :
    u.reg x j = s.reg x j := by
  rw [hu, State.reg_accepted_ne s q inst bs hne hx]

/-! Commands of the trigger (R653, R654). -/

theorem freezeCommand_trigger {u : State} (harmed : u.reg .freezeState = 1) (hsource : u.flag .freezeSrcEn 0 0 = true) :
    (freezeCommand 1 u).reg .freezeState = 2 ∧ (freezeCommand 1 u).frozen.isSome = true ∧
      (freezeCommand 1 u).reg .freezeGen = (u.reg .freezeGen + 1) % 2 ^ 32 := by
  have hfire := fire_facts (u.setReg .freezeCmd 0 0) 0 0 0 0xFFFF (by simpa using harmed)
    (by simpa [State.flag] using hsource)
  simpa [freezeCommand] using hfire

theorem freezeCommand_state {v : Nat} (hv : v ≠ 1) (u : State) :
    (freezeCommand v u).reg .freezeState = (if v = 2 then 1 else 0) ∧ (freezeCommand v u).reg .freezeCmd = 0 ∧
      (freezeCommand v u).reg .dumpWaits = 0 := by
  rw [freezeCommand, if_neg hv]
  refine ⟨?_, ?_, ?_⟩
  · simp only [State.reg_setReg, reduceCtorEq, false_and, and_self, if_true, if_false, Reg.modulus_freezeState]
    split <;> rfl
  · simp
  · simp

theorem freezeCmdTrigger_completes (s : State) (q : Requester) (haccepts : Accepts s q .freezeCmd 0 [1])
    (harmed : s.reg .freezeState = 1) (hsource : s.flag .freezeSrcEn 0 0 = true) :
    Completes (.freezeCmdTrigger q) s fun t =>
      Answered q (Reg.freezeCmd.objAt 0) t ∧ t.reg .freezeState = 2 ∧ t.frozen.isSome = true ∧
        t.reg .freezeGen = (s.reg .freezeGen + 1) % 2 ^ 32 := by
  obtain ⟨u, hu, hexec⟩ := exists_accepted (.freezeCmdTrigger q) haccepts rfl rfl (by decide)
  have hfire := freezeCommand_trigger (u := u)
    (by rw [accepted_reg hu .freezeState (by decide) (by decide), harmed])
    (by rw [State.flag, accepted_reg hu .freezeSrcEn (by decide) (by decide)]; exact hsource)
  rw [accepted_reg hu .freezeGen (by decide) (by decide)] at hfire
  exact ⟨_, hexec, answered_answer .., hfire⟩

theorem freezeCmdRearm_completes (s : State) (q : Requester) (haccepts : Accepts s q .freezeCmd 0 [2]) :
    Completes (.freezeCmdRearm q) s fun t =>
      Answered q (Reg.freezeCmd.objAt 0) t ∧ t.reg .freezeState = 1 ∧ t.reg .freezeCmd = 0 ∧ t.reg .dumpWaits = 0 := by
  obtain ⟨u, -, hexec⟩ := exists_accepted (.freezeCmdRearm q) haccepts rfl rfl (by decide)
  exact ⟨_, hexec, answered_answer .., freezeCommand_state (v := 2) (by decide) u⟩

theorem freezeCmdDisarm_completes (s : State) (q : Requester) (haccepts : Accepts s q .freezeCmd 0 [3]) :
    Completes (.freezeCmdDisarm q) s fun t =>
      Answered q (Reg.freezeCmd.objAt 0) t ∧ t.reg .freezeState = 0 ∧ t.reg .freezeCmd = 0 ∧ t.reg .dumpWaits = 0 := by
  obtain ⟨u, -, hexec⟩ := exists_accepted (.freezeCmdDisarm q) haccepts rfl rfl (by decide)
  exact ⟨_, hexec, answered_answer .., freezeCommand_state (v := 3) (by decide) u⟩

theorem lateLatch_completes (s : State) (k : Fin 48) (v : SetView) (hfrozen : s.frozen = some v)
    (hstopped : v.stopped k.val = true) (hruns : s.reg .clkMhz k.val ≠ 0) (hfirst : (s.late.lookup k.val).isNone = true) :
    Completes (.lateLatch k) s fun t =>
      t.late = s.late ++ [(k.val, s.setView v.draw)] ∧ t.regs = s.regs ∧ MemKept s t := by
  have hexec : exec (.lateLatch k) s = execLateLatch k s := rfl
  unfold Completes
  rw [hexec, execLateLatch, hfrozen]
  exact ⟨_, if_pos (by simp [hstopped, hruns, hfirst]), rfl, rfl, fun _ => rfl⟩

theorem freezeDumpComplete_completes (s : State) (hfrozen : s.reg .freezeState = 2) (hwaits : s.reg .dumpWaits = 1) :
    Completes .freezeDumpComplete s fun t =>
      t.reg .freezeState = 3 ∧ t.reg .dumpWaits = 0 ∧ t.frozen = s.frozen := by
  refine ⟨_, if_pos (by simp [hfrozen, hwaits]), by simp, by simp, ?_⟩
  split
  · exact State.frozen_write ..
  · rfl

/-! Monitors (R403, R663, R664, R665). -/

/-- What LEVEL_SAT_REFRESH does once the levels are stored. -/
def State.countLoads (s : State) (f : LoadFacts) : State :=
  let s := f.latencies.foldl (fun (u : State) e => u.countLatency e.1.val e.2) s
  let s := f.sliceCycles.foldl (fun (u : State) e => u.addReg .sliceSatCycles e.1.val e.2) s
  let s := f.linkCycles.foldl (fun (u : State) e => u.addReg .linkSatCycles e.1.val e.2) s
  let s := f.stackLoads.foldl (fun (u : State) e => u.setReg .stackLoad e.1.val e.2.val) s
  f.linkLoads.foldl (fun (u : State) e => u.setReg .linkLoad e.1.val e.2.val) s

theorem countLoads_levelSat (s : State) (f : LoadFacts) (i : Nat) : (s.countLoads f).reg .levelSat i = s.reg .levelSat i := by
  unfold State.countLoads
  rw [State.reg_foldl fun v _ => State.reg_setReg_ne v (by decide) _ _ _,
    State.reg_foldl fun v _ => State.reg_setReg_ne v (by decide) _ _ _,
    State.reg_foldl fun v _ => addReg_reg v _ _ _ _ (by decide) _,
    State.reg_foldl fun v _ => addReg_reg v _ _ _ _ (by decide) _,
    State.reg_foldl fun v _ => countLatency_reg v _ _ _ (by decide) _]

theorem reg_fillWith (r : Reg) (f : Nat → Nat) (n j : Nat) (s : State) :
    ((List.range n).foldl (fun (u : State) i => u.setReg r i (f i)) s).reg r j =
      if j < n then f j % r.modulus else s.reg r j := by
  induction n with
  | zero => rfl
  | succ n ih =>
    simp only [List.range_succ, List.foldl_append, List.foldl_cons, List.foldl_nil, State.reg_setReg, true_and, ih]
    by_cases hlast : n = j
    · simp [hlast]
    · have hlt : j < n + 1 ↔ j < n := by omega
      rw [if_neg hlast]
      simp only [hlt]

theorem levelSatRefresh_completes (s : State) (f : LoadFacts) (hup : s.supervisorUp = true) :
    Completes (.levelSatRefresh f) s fun t =>
      (∀ i, i < 8 → t.reg .levelSat i = (f.levels.map Fin.val).getD i 0 % Reg.modulus .levelSat) ∧
        RegsKept [.levelSat, .latHist, .sliceSatCycles, .linkSatCycles, .stackLoad, .linkLoad] s t ∧ MemKept s t := by
  have hexec : exec (.levelSatRefresh f) s = .next (State.countLoads
      ((List.range 8).foldl (fun (u : State) i => u.setReg .levelSat i ((f.levels.map Fin.val).getD i 0)) s) f) :=
    if_neg (by simp [hup])
  refine ⟨_, hexec, fun i hi => ?_, leaves_of_touches (T := touchExecLevelSatRefresh) rfl (by decide +kernel)
    (by decide +kernel) s _ hexec⟩
  rw [countLoads_levelSat, reg_fillWith .levelSat (fun i => (f.levels.map Fin.val).getD i 0), if_pos hi]

theorem clearLatencies_latClear (u : State) : (clearLatencies u).reg .latClear = 0 := by
  simp [clearLatencies]

theorem clearLatencies_latHist {u : State} (h : u.reg .latClear = 1) (i : Nat) :
    (clearLatencies u).reg .latHist i = Reg.dflt .latHist i := by
  rw [clearLatencies, State.reg_setReg_ne _ (by decide), if_pos h, clearReg_same]

theorem latClearWrite_completes (s : State) (q : Requester) (v : Byte) (haccepts : Accepts s q .latClear 0 [v]) :
    Completes (.latClearWrite q v) s fun t =>
      Answered q (Reg.latClear.objAt 0) t ∧ t.reg .latClear = 0 ∧ (v.toNat = 1 →
        ∀ i, t.reg .latHist i = Reg.dflt .latHist i) := by
  obtain ⟨u, hu, hexec⟩ := exists_accepted (.latClearWrite q v) haccepts rfl rfl (by decide)
  refine ⟨_, hexec, answered_answer .., clearLatencies_latClear u, fun hv => clearLatencies_latHist (u := u) ?_⟩
  rw [hu, State.reg_accepted_same s q 0 [v] rfl]
  show ofLe [v] % 256 = 1
  simp [ofLe, hv]

theorem moveWindow_errorRate (s : State) (c i : Nat) :
    (s.moveWindow c).reg .errorRate (2 * i) = if c = i then 0 else s.reg .errorRate (2 * i) := by
  have hodd : ¬2 * c + 1 = 2 * i := by omega
  have heven : 2 * c = 2 * i ↔ c = i := by omega
  rw [State.moveWindow, State.reg_setReg, if_neg (by simp [hodd]), State.reg_setReg, State.reg_setRegs_ne _ (by decide)]
  simp only [heven, true_and, Nat.zero_mod]

theorem moveWindows_errorRate (s : State) {n c : Nat} (hc : c < n) :
    ((List.range n).foldl (fun (u : State) c => u.moveWindow c) s).reg .errorRate (2 * c) = 0 := by
  induction n with
  | zero => omega
  | succ n ih =>
    rw [List.range_succ, List.foldl_append]
    dsimp only [List.foldl_cons, List.foldl_nil]
    rw [moveWindow_errorRate]
    split
    · rfl
    · exact ih (by omega)

/-- Settles O6: a clause for each command of the trigger, latch, dump and monitor. -/
theorem freezeComplete : Obligations.FreezeComplete := by
  refine ⟨freezeCmdTrigger_completes, freezeCmdRearm_completes, freezeCmdDisarm_completes, ?edge, ?hold, lateLatch_completes,
    freezeDumpComplete_completes, levelSatRefresh_completes, latClearWrite_completes, ?rates⟩
  case edge =>
    intro s width hlong hsource harmed
    exact ⟨_, if_neg (by omega), fire_facts s 4 0 0 0xFFFF harmed hsource⟩
  case hold =>
    intro s hhold hstate
    exact ⟨_, if_pos (by simp [hhold, hstate]), by simp, by simp, rfl,
      (RegsKept.refl.setReg (by decide)).setReg (by decide), fun _ => rfl⟩
  case rates =>
    intro s
    have hexec : exec .errorRateWindow s = execErrorRateWindow s := rfl
    exact ⟨_, hexec, fun c hc => moveWindows_errorRate s hc, leaves_of_touches (T := touchExecErrorRateWindow) rfl
      (by decide +kernel) (by decide +kernel) s _ hexec⟩

end Sys2Proof.Machine
end

section
/-! TAI and the management port (R583, R605 to R608, R611). -/

namespace Sys2Proof.Machine

/-! The state of the PTP unit (R608). -/

theorem setTai_taiState (s : State) {v : Nat} (hv : v < 256) : (s.setTai v).reg .taiState = v := by
  rw [State.setTai, State.reg_change _ (by decide), if_pos ⟨rfl, rfl⟩]
  exact Nat.mod_eq_of_lt hv

theorem lockTai_taiState (s : State) (d : Int) {v : Nat} (hv : v < 256) : (s.lockTai d v).reg .taiState = v :=
  setTai_taiState _ hv

/-- What PTP_MESSAGE does once the master and its UTC offset are stored. -/
def State.hearMaster (s : State) (offset : Int) (settled : Bool) : State :=
  let st := s.reg .taiState
  if st = 3 then s
  else
    let s := s.setReg .taiOffsetErr 0 (unsigned 32 offset)
    if st = 0 || st = 4 then s.setTai 1
    else if st = 1 then (if settled then s.lockTai offset 2 else s)
    else s.steer offset false

theorem execPtpMessage_eq (s : State) (master : Dword) (domain : Byte) (utc offset : Int) (settled : Bool)
    (hheard : (!s.ptpOn || s.reg .ptpEnable = 0 || domain.toNat ≠ s.reg .ptpDomain || s.reg .ppsMode = 2 ||
      !s.portAnswers .management) = false) :
    execPtpMessage master domain utc offset settled s =
      .next (((s.setReg .ptpMaster 0 master.toNat).setReg .utcOffset 0 (unsigned 32 utc)).hearMaster offset settled) := by
  rw [execPtpMessage, if_neg (by simp only [hheard, Bool.false_eq_true, not_false_iff]), State.hearMaster]
  dsimp only
  split
  · rfl
  · split
    · rfl
    · split
      · split
        · rfl
        · rfl
      · rfl

/-- Hearing a master touches neither its name nor its UTC offset. -/
theorem hearMaster_reg (s : State) (offset : Int) (settled : Bool) {q : Reg} (herr : Reg.taiOffsetErr ≠ q)
    (hq : (touchSetTai (some q) || touchLockTai (some q) || touchSteer (some q)) = false) (j : Nat) :
    (s.hearMaster offset settled).reg q j = s.reg q j := by
  simp only [Bool.or_eq_false_iff] at hq
  obtain ⟨⟨htai, hlock⟩, hsteer⟩ := hq
  have hstored := State.reg_setReg_ne s herr 0 j (unsigned 32 offset)
  unfold State.hearMaster
  dsimp only
  split
  · rfl
  · split
    · rw [setTai_reg _ _ _ htai, hstored]
    · split
      · split
        · rw [lockTai_reg _ _ _ _ hlock, hstored]
        · exact hstored
      · rw [steer_reg _ _ _ _ hsteer, hstored]

theorem hearMaster_taiState (s : State) (offset : Int) (settled : Bool) :
    (s.reg .taiState = 0 ∨ s.reg .taiState = 4 → (s.hearMaster offset settled).reg .taiState = 1) ∧
      (s.reg .taiState = 1 → settled = true → (s.hearMaster offset settled).reg .taiState = 2) ∧
      (s.reg .taiState = 3 → (s.hearMaster offset settled).reg .taiState = 3) := by
  refine ⟨fun h => ?_, fun h hsettled => ?_, fun h => ?_⟩
  · have hne : s.reg .taiState ≠ 3 := by omega
    rw [State.hearMaster, if_neg hne, if_pos (by simpa using h), setTai_taiState _ (by decide)]
  · have hne : s.reg .taiState ≠ 3 := by omega
    rw [State.hearMaster, if_neg hne, if_neg (by simp [h]), if_pos h, if_pos hsettled, lockTai_taiState _ _ (by decide)]
  · rw [State.hearMaster, if_pos h, h]

theorem ptpMessage_completes (s : State) (master : Dword) (domain : Byte) (utc offset : Int) (settled : Bool)
    (hon : s.ptpOn = true) (henabled : s.reg .ptpEnable ≠ 0) (hdomain : domain.toNat = s.reg .ptpDomain)
    (hpps : s.reg .ppsMode ≠ 2) (hport : s.portAnswers .management = true) :
    Completes (.ptpMessage master domain utc offset settled) s fun t =>
      t.reg .ptpMaster = master.toNat ∧ t.reg .utcOffset = unsigned 32 utc % 2 ^ 32 ∧
        (s.reg .taiState = 0 ∨ s.reg .taiState = 4 → t.reg .taiState = 1) ∧
        (s.reg .taiState = 1 → settled = true → t.reg .taiState = 2) ∧ (s.reg .taiState = 3 → t.reg .taiState = 3) := by
  have hstate := hearMaster_taiState ((s.setReg .ptpMaster 0 master.toNat).setReg .utcOffset 0 (unsigned 32 utc)) offset settled
  rw [State.reg_setReg_ne _ (by decide), State.reg_setReg_ne _ (by decide)] at hstate
  refine ⟨_, execPtpMessage_eq s master domain utc offset settled (by simp [hon, henabled, hdomain, hpps, hport]), ?_, ?_, hstate⟩
  · rw [hearMaster_reg _ _ _ (by decide) (by decide)]
    simpa using Nat.mod_eq_of_lt master.isLt
  · rw [hearMaster_reg _ _ _ (by decide) (by decide)]
    simp

theorem ppsEdge_completes (s : State) (hon : s.ptpOn = true) (hmode : s.reg .ppsMode ≠ 0) :
    Completes .ppsEdge s fun t =>
      (s.reg .ppsMode = 2 → s.reg .taiState = 0 → t.reg .taiState = 1) ∧
        (s.reg .ppsMode = 2 → s.reg .taiState = 1 → t.reg .taiState = 3) ∧
        (s.reg .taiState = 2 → s.reg .ppsMode = 1 → s.toSecond.natAbs ≤ 100000 → t.reg .taiState = 3) ∧
        (s.reg .taiState = 3 → 100000 < s.toSecond.natAbs → t.reg .taiState = 3 ∧
          t.reg .ppsRejected = (s.reg .ppsRejected + 1) % Reg.modulus .ppsRejected) ∧ MemKept s t := by
  have hexec : exec .ppsEdge s = execPpsEdge s := rfl
  have hmem {t : State} (h : exec .ppsEdge s = .next t) : MemKept s t := (frame_exec h).2 rfl
  have hon' : (!s.ptpOn || decide (s.reg .ppsMode = 0)) = false := by simp [hon, hmode]
  rw [execPpsEdge, if_neg (by simp only [hon', Bool.false_eq_true, not_false_iff])] at hexec
  split at hexec
  case isTrue hlocked =>
    have hlocked' : s.reg .taiState = 3 ∨ s.reg .ppsMode = 1 ∧ s.reg .taiState = 2 := by simpa using hlocked
    split at hexec
    case isTrue hfar =>
      have hfar' : 100000 < s.toSecond.natAbs := by simpa using hfar
      refine ⟨_, hexec, by omega, by omega, by omega, fun h _ => ⟨?_, ?_⟩, hmem hexec⟩
      · rw [addReg_reg _ _ _ _ _ (by decide), h]
      · simp [State.addReg]
    case isFalse hfar =>
      have hnear : s.toSecond.natAbs ≤ 100000 := by simpa using hfar
      exact ⟨_, hexec, by omega, by omega, fun _ _ _ => setTai_taiState _ (by decide), by omega, hmem hexec⟩
  case isFalse hlocked =>
    have hfree : s.reg .taiState ≠ 3 ∧ ¬(s.reg .ppsMode = 1 ∧ s.reg .taiState = 2) := by simpa using hlocked
    split at hexec
    case isTrue hmode1 => exact ⟨_, hexec, by omega, by omega, by omega, by omega, fun _ => rfl⟩
    case isFalse hmode1 =>
      split at hexec
      case isTrue hone =>
        exact ⟨_, hexec, by omega, fun _ _ => lockTai_taiState _ _ (by decide), by omega, by omega, hmem hexec⟩
      case isFalse hone =>
        exact ⟨_, hexec, fun _ _ => setTai_taiState _ (by decide), by omega, by omega, by omega, hmem hexec⟩

theorem foldSlew_taiOffset {u : State} (hslew : u.reg .taiSlew = 0) (hsince : u.reg .taiSlewAt ≤ u.now) :
    u.foldSlew.reg .taiOffset = u.reg .taiOffset % 2 ^ 64 := by
  have hslewed : u.slewed = 0 := by
    simp [State.slewed, hslew, signed]
    omega
  simp [State.foldSlew, hslewed, unsigned]
  omega

theorem restartPtp_taiOffset {u : State} (hslew : u.reg .taiSlew = 0) (hsince : u.reg .taiSlewAt ≤ u.now)
    (hoffset : u.reg .taiOffset < 2 ^ 64) : u.restartPtp.reg .taiOffset = u.reg .taiOffset := by
  have hfold := (foldSlew_taiOffset hslew hsince).trans (Nat.mod_eq_of_lt hoffset)
  unfold State.restartPtp
  split
  · rfl
  · split
    · rw [setTai_reg _ _ _ (by decide), hfold]
    · rw [setTai_reg _ _ _ (by decide), hfold]

theorem taiSetWrite_completes (s : State) (q : Requester) (v : Dword) (haccepts : Accepts s q .taiSet 0 (leBytes 8 v.toNat)) :
    Completes (.taiSetWrite q v) s fun t =>
      Answered q (Reg.taiSet.objAt 0) t ∧ (s.reg .taiWasLocked = 0 → t.reg .taiOffset = v.toNat) := by
  obtain ⟨u, hu, hexec⟩ := exists_accepted (.taiSetWrite q v) haccepts rfl rfl (by decide)
  refine ⟨_, hexec, answered_answer .., fun hfirst => ?_⟩
  have hlocked : u.reg .taiWasLocked = 0 := (accepted_reg hu .taiWasLocked (by decide) (by decide) 0).trans hfirst
  have hset : u.reg .taiSet = v.toNat := by
    have htake : (leBytes 8 v.toNat).take Reg.taiSet.info.esize = leBytes 8 v.toNat :=
      List.take_of_length_le (Nat.le_of_eq (leBytes_length ..))
    have hv := v.isLt
    rw [hu, State.reg_accepted_same s q 0 _ rfl, htake, ofLe_leBytes]
    simp only [maskWrite, Reg.modulus_taiSet]
    omega
  rw [State.reg_answer, taiSetEffect, if_pos (by simp [hlocked]), restartPtp_taiOffset]
  · simpa [hset] using Nat.mod_eq_of_lt v.isLt
  · simp
  · simpa using Nat.mod_le _ _
  · simpa using Nat.mod_lt _ (by decide)

/-! The management port (R583, R611). -/

theorem mgmtAddressRenewal_completes (s : State) (addr mask gateway : Word) (hport : s.portAnswers .management = true) :
    Completes (.mgmtAddressRenewal addr mask gateway) s fun t =>
      t.reg .mgmtLink = 1 ∧ t.reg .ipv4 = (if s.reg .mgmtIpv4 = 0 then addr.toNat else s.reg .mgmtIpv4 % 2 ^ 32) ∧
        RegsKept [.mgmtLink, .ipv4, .ipv4Mask, .ipv4Gateway] s t ∧ MemKept s t := by
  have hexec : exec (.mgmtAddressRenewal addr mask gateway) s = .next (if s.reg .mgmtIpv4 = 0
      then (s.setReg .mgmtLink 0 1).setIpv4 addr.toNat mask.toNat gateway.toNat else (s.setReg .mgmtLink 0 1).takeIpv4) := by
    show execMgmtAddressRenewal addr mask gateway s = _
    rw [execMgmtAddressRenewal, if_neg (by simp [hport])]
    dsimp only
    rw [State.reg_setReg_ne _ (by decide)]
  refine ⟨_, hexec, ?_, ?_, leaves_of_touches (T := touchExecMgmtAddressRenewal) rfl (by decide +kernel)
    (by decide +kernel) s _ hexec⟩
  · split
    · rw [setIpv4_reg _ _ _ _ _ (by decide), State.reg_setReg_same, Reg.modulus_mgmtLink]
    · rw [takeIpv4_reg _ _ (by decide), State.reg_setReg_same, Reg.modulus_mgmtLink]
  · split
    · simpa [State.setIpv4] using Nat.mod_eq_of_lt addr.isLt
    · simp [State.takeIpv4, State.setIpv4]

/-- Settles O7: PTP, the PPS input, `TAI_SET` and the addresses and answers of the management port. -/
theorem timeComplete : Obligations.TimeComplete := by
  refine ⟨ptpMessage_completes, ppsEdge_completes, ?silent, taiSetWrite_completes, mgmtAddressRenewal_completes, ?arp, ?echo⟩
  case silent =>
    intro s hon hlow hhigh
    refine ⟨_, if_pos ?_, setTai_taiState _ (by decide), fun a => State.byte_congr ?_ a⟩
    · simp [hon]
      omega
    · rw [setTai_mem _ _ rfl, foldSlew_mem _ rfl]
  case arp =>
    intro s source target hport hup hmine
    exact ⟨_, if_pos (by simp [hport, hup, hmine]), rfl⟩
  case echo =>
    intro s source target data hport hup hmine
    exact ⟨_, if_pos (by simp [hport, hup, hmine]), rfl⟩

end Sys2Proof.Machine
end

section
/-! Object writes and the audit log (R579 to R581, R590, R597, R598, R601, R602, R611). -/

namespace Sys2Proof.Machine

/-! Writes of objects and their assemblies (R579 to R581). -/

theorem objectWrite_answers (s : State) (q : Requester) (obj : ObjAddr) (offset : Word) (data : List Byte)
    (peers : Option Half) (hport : s.portAnswers q.port = true) :
    Completes (.objectWrite q obj offset data peers) s fun t =>
      t.out.head? = some (.dictionary q obj.toNat (s.writePiece q obj.toNat offset.toNat data peers).1) :=
  ⟨_, if_neg (by simp [hport]), rfl⟩

theorem objectWrite_accepts (s : State) (q : Requester) (obj : ObjAddr) (offset : Word) (data : List Byte)
    (peers : Option Half) (r : Reg) (inst : Nat) (v : List Byte) (hobj : obj.toNat = r.objAt inst)
    (haccepts : AcceptsPiece s q r inst offset.toNat data peers v) :
    Completes (.objectWrite q obj offset data peers) s fun t => t = (s.written q r inst v).answer q obj.toNat resOk := by
  have hport : s.portAnswers q.port = true := by
    obtain ⟨-, -, ⟨hport, -⟩, -⟩ := haccepts
    exact hport
  have hexec : exec (.objectWrite q obj offset data peers) s =
      .next ((s.writePiece q obj.toNat offset.toNat data peers).2.answer q obj.toNat
        (s.writePiece q obj.toNat offset.toNat data peers).1) := if_neg (by simp [hport])
  rw [hobj, State.writePiece_accepts s haccepts] at hexec
  exact ⟨_, hexec, by rw [hobj]⟩

theorem writePiece_holds {s : State} {q : Requester} {addr off : Nat} {data : List Byte} {r : Reg} {inst : Nat}
    (peers : Option Half) (hserves : s.supervisorServes = true) (hsession : s.unknownSession q = false)
    (haddr : Reg.atAddr addr = some (r, inst)) (hblob : blobs.contains r = true) (hdata : data ≠ [])
    (hmore : off + data.length < r.size) :
    s.writePiece q addr off data peers = (resOk, { s.dropAssemblies q with
      assemblies := (s.dropAssemblies q).assemblies ++ [(⟨q, addr,
        ((s.assemblies.find? fun a => sameSession a.who q && decide (a.obj = addr)).map Assembly.pieces).getD [] ++
          [(off, data)]⟩ : Assembly)] }) := by
  have hfits : (data.isEmpty || decide (r.size < off + data.length)) = false := by
    simp [hdata]
    omega
  rw [State.writePiece, if_neg (by simp [hserves, hsession]), haddr]
  simp only [hblob, hfits, hmore, Bool.not_true, Bool.false_eq_true, if_false, if_true]

theorem objectWrite_holds (s : State) (q : Requester) (obj : ObjAddr) (offset : Word) (data : List Byte)
    (peers : Option Half) (r : Reg) (inst : Nat) (hport : s.portAnswers q.port = true)
    (hserves : s.supervisorServes = true) (hsession : s.unknownSession q = false)
    (haddr : Reg.atAddr obj.toNat = some (r, inst)) (hblob : blobs.contains r = true) (hdata : data ≠ [])
    (hmore : offset.toNat + data.length < r.size) :
    Completes (.objectWrite q obj offset data peers) s fun t =>
      Answered q obj.toNat t ∧ t.regs = s.regs ∧ t.audit = s.audit ∧ MemKept s t ∧
        t.assemblies = (s.dropAssemblies q).assemblies ++ [(⟨q, obj.toNat,
          ((s.assemblies.find? fun a => sameSession a.who q && decide (a.obj = obj.toNat)).map
            Assembly.pieces).getD [] ++ [(offset.toNat, data)]⟩ : Assembly)] := by
  have hexec : exec (.objectWrite q obj offset data peers) s =
      .next ((s.writePiece q obj.toNat offset.toNat data peers).2.answer q obj.toNat
        (s.writePiece q obj.toNat offset.toNat data peers).1) := if_neg (by simp [hport])
  rw [writePiece_holds peers hserves hsession haddr hblob hdata hmore] at hexec
  exact ⟨_, hexec, rfl, rfl, rfl, fun _ => rfl, rfl⟩

theorem blobAssemblyTimeout_completes (s : State) (q : Requester) :
    Completes (.blobAssemblyTimeout q) s fun t =>
      (∀ a ∈ t.assemblies, sameSession a.who q = false) ∧ t.regs = s.regs ∧ MemKept s t := by
  refine ⟨_, rfl, fun a ha => ?_, rfl, fun _ => rfl⟩
  simpa using (List.mem_filter.1 ha).2

theorem dictAnswerLate_completes (s : State) (hserves : s.supervisorServes = true) :
    Completes .dictAnswerLate s fun t =>
      t.reg .dictLate = (s.reg .dictLate + 1) % Reg.modulus .dictLate ∧
        Records s t 0x0C 5 0 0x0E (s.reg .supActive) := by
  refine ⟨_, if_neg (by simp [hserves]), ?_, ?_⟩
  · rw [State.reg_logError _ (by decide)]
    exact State.reg_setReg_same ..
  · have hrecords := records_of (s := s) (u := s.addReg .dictLate 0 1)
      (e := { code := 0x0C, severity := 5, unitKind := 0x0E, unit := s.reg .supActive }) (by simp) (by simp [State.addReg])
    simpa [State.addReg] using hrecords

/-! The mirror and the host as a holder (R597, R598, R611). -/

theorem auditMirrorCopy_completes (s : State) (e : AuditEntry)
    (hnext : (s.audit.reverse.find? fun x => decide (s.reg .auditMirrorHead < x.seq)) = some e)
    (htrained : s.stacksTrained = true) :
    Completes .auditMirrorCopy s fun t =>
      t.mirror.head? = some e ∧ t.reg .auditMirrorHead = e.seq % 2 ^ 64 ∧
        RegsKept [.auditMirrorHead, .auditAcked] s t ∧ MemKept s t := by
  have hexec : exec .auditMirrorCopy s = .next ({ s with mirror := (e :: s.mirror).take 1048576 }.setReg
      .auditMirrorHead 0 e.seq).refreshAcked := by
    show execAuditMirrorCopy s = _
    rw [execAuditMirrorCopy, hnext]
    exact if_neg (by simp [htrained])
  refine ⟨_, hexec, rfl, ?_, leaves_of_touches (T := touchExecAuditMirrorCopy) rfl (by decide +kernel)
    (by decide +kernel) s _ hexec⟩
  rw [refreshAcked_reg _ _ (by decide), State.reg_setReg_same]
  rfl

theorem taken_auditAckHost (s : State) (q : Requester) (v : Dword) :
    (s.taken q .auditAckHost 0 (leBytes 8 v.toNat)).reg .auditAckHost = v.toNat ∧
      (s.taken q .auditAckHost 0 (leBytes 8 v.toNat)).reg .hostHoldAcked = s.reg .hostHoldAcked ∧
      (s.taken q .auditAckHost 0 (leBytes 8 v.toNat)).audit = s.audit := by
  have htake : (leBytes 8 v.toNat).take 8 = leBytes 8 v.toNat := List.take_of_length_le (Nat.le_of_eq (leBytes_length ..))
  have hvalue : Reg.auditAckHost.taken (leBytes 8 v.toNat) = [v.toNat % 256 ^ 8] := by
    rw [← ofLe_leBytes, ← congrArg ofLe htake]
    rfl
  have hv := v.isLt
  rw [State.taken, if_pos rfl, beforeChange_of_ne 0 (by decide), hvalue]
  refine ⟨?_, ?_, rfl⟩
  · rw [State.reg_setRegs]
    simp
    omega
  · exact State.reg_setRegs_ne _ (by decide) ..

theorem auditAckHostWrite_completes (s : State) (q : Requester) (v : Dword)
    (haccepts : Accepts s q .auditAckHost 0 (leBytes 8 v.toNat)) :
    Completes (.auditAckHostWrite q v) s fun t =>
      Answered q (Reg.auditAckHost.objAt 0) t ∧
        t.reg .hostHoldAcked = max (s.reg .hostHoldAcked) v.toNat % 2 ^ 64 ∧ t.audit = s.audit := by
  obtain ⟨hvalue, hacked, haudit⟩ := taken_auditAckHost s q v
  have hexec : exec (.auditAckHostWrite q v) s =
      .next (s.writeRequest q (Reg.auditAckHost.objAt 0) (leBytes 8 v.toNat) fun _ _ => ackHost) := rfl
  rw [writeRequest_auditAckHost _ haccepts] at hexec
  generalize s.taken q .auditAckHost 0 (leBytes 8 v.toNat) = u at hexec hvalue hacked haudit
  refine ⟨_, hexec, answered_answer .., ?_, haudit⟩
  rw [State.reg_answer, ackHost, refreshAcked_reg _ _ (by decide), State.reg_setReg_same, hvalue, hacked]
  rfl

theorem holdHost_facts (u : State) :
    (holdHost u).reg .auditHostHold = u.reg .auditHostHold ∧ (holdHost u).reg .auditHead = u.reg .auditHead ∧
      (u.reg .auditHostHold = 1 → (holdHost u).reg .hostHoldAcked = u.reg .auditHead % 2 ^ 64) := by
  refine ⟨?_, ?_, fun hholds => ?_⟩
  · rw [holdHost, refreshAcked_reg _ _ (by decide)]
    split
    · exact State.reg_setReg_ne _ (by decide) ..
    · rfl
  · rw [holdHost, refreshAcked_reg _ _ (by decide)]
    split
    · exact State.reg_setReg_ne _ (by decide) ..
    · rfl
  · rw [holdHost, refreshAcked_reg _ _ (by decide), if_pos hholds, State.reg_setReg_same]
    rfl

theorem auditHostHoldWrite_completes (s : State) (q : Requester) (v : Byte) (haccepts : Accepts s q .auditHostHold 0 [v]) :
    Completes (.auditHostHoldWrite q v) s fun t =>
      Answered q (Reg.auditHostHold.objAt 0) t ∧ t.reg .auditHostHold = v.toNat ∧ (v.toNat = 1 →
        t.reg .hostHoldAcked = t.reg .auditHead) := by
  obtain ⟨u, hu, hexec⟩ := exists_accepted (.auditHostHoldWrite q v) haccepts rfl rfl (by decide)
  obtain ⟨hhold, hhead, hacked⟩ := holdHost_facts u
  have hvalue : u.reg .auditHostHold = v.toNat := by
    rw [hu, State.reg_accepted_same s q 0 [v] rfl]
    show ofLe [v] % 256 = v.toNat
    simpa [ofLe] using v.isLt
  have hbound : u.reg .auditHead < 2 ^ 64 := by
    rw [hu, reg_accepted_head s q .auditHostHold 0 [v] (by decide)]
    exact Nat.mod_lt _ (by decide)
  refine ⟨_, hexec, answered_answer .., hhold.trans hvalue, fun h1 => ?_⟩
  rw [State.reg_answer, State.reg_answer, hacked (hvalue.trans h1), hhead, Nat.mod_eq_of_lt hbound]

/-! Subscriptions (R590, R601, R602). -/

theorem auditResendTimeout_completes (s : State) (n : Fin 4) (u : Subscription)
    (hfind : (s.subs.find? fun x => decide (x.number = n.val) && x.audit && x.hold) = some u)
    (hserves : s.supervisorServes = true) (hunacked : u.acked + 1 < u.next) :
    Completes (.auditResendTimeout n) s fun t =>
      t.regs = s.regs ∧ (∀ x ∈ s.out, x ∈ t.out) ∧ MemKept s t ∧ t.out = (s.sendEvents u.who (u.acked + 1)).out := by
  have hexec : exec (.auditResendTimeout n) s = .next (s.sendEvents u.who (u.acked + 1)) := by
    show execAuditResendTimeout n s = _
    rw [execAuditResendTimeout, hfind]
    exact if_pos (by simp [hserves, hunacked])
  obtain ⟨o, ho⟩ := sendEvents_same s u.who (u.acked + 1)
  refine ⟨_, hexec, ?_, ?_, ?_, rfl⟩
  · rw [ho]
  · rw [ho]
    exact fun x hx => List.mem_append_right o hx
  · rw [ho]
    exact fun _ => rfl

theorem auditHoldTimeout_completes (s : State) (n : Fin 4) (u : Subscription)
    (hfind : (s.subs.find? fun x => decide (x.number = n.val) && x.audit && x.hold) = some u)
    (hunacked : u.acked < s.reg .auditHead) :
    Completes (.auditHoldTimeout n) s fun t => (∀ x ∈ t.subs, x.number ≠ n.val) ∧ MemKept s t := by
  have hexec : exec (.auditHoldTimeout n) s = execAuditHoldTimeout n s := rfl
  rw [execAuditHoldTimeout, hfind] at hexec
  dsimp only at hexec
  rw [if_neg (by omega)] at hexec
  refine ⟨_, hexec, fun x hx => ?_, (frame_exec hexec).2 rfl⟩
  obtain ⟨y, hy, hnumber⟩ := subs_appendAudit _ _ _ _ _ _ _ _ x hx
  rw [← hnumber]
  simpa using (List.mem_filter.1 hy).2

theorem samplePeriod_completes (s : State) (n : Fin 4) (u : Subscription)
    (hfind : (s.subs.find? fun x => decide (x.number = n.val) && !x.audit) = some u)
    (hserves : s.supervisorServes = true) :
    Completes (.samplePeriod n) s fun t =>
      (∃ bs, t.out = .jp2 u.who 0x24 0 0 0 0 (leBytes 8 s.tai ++ bs) :: s.out) ∧ t.regs = s.regs ∧ MemKept s t := by
  have hexec : exec (.samplePeriod n) s = execSamplePeriod n s := rfl
  rw [execSamplePeriod, hfind] at hexec
  dsimp only at hexec
  rw [if_neg (by simp [hserves])] at hexec
  exact ⟨_, hexec, ⟨_, rfl⟩, rfl, fun _ => rfl⟩

/-- Settles O8: the writes of objects by the pieces they bring, then the commands of the audit log and its subscriptions. -/
theorem auditLogComplete : Obligations.AuditLogComplete :=
  ⟨objectWrite_answers, objectWrite_accepts, objectWrite_holds, blobAssemblyTimeout_completes, dictAnswerLate_completes,
    auditMirrorCopy_completes, auditAckHostWrite_completes, auditHostHoldWrite_completes, auditResendTimeout_completes,
    auditHoldTimeout_completes, samplePeriod_completes⟩

end Sys2Proof.Machine
end

section
/-! The SPDM responder (R560 to R562). -/

namespace Sys2Proof.Machine

/-- The responder sends the answer to a request and keeps the state that the request leaves. -/
theorem exec_of_spdm {c : Instr} {s t : State} {q : Requester} {m : SpdmRequest} {a : SpdmAnswer}
    (hport : s.portAnswers q.port = true) (hserves : s.supervisorServes = true) (hspdm : s.spdm q m = (a, t))
    (hexec : exec c s = .next (s.serveSpdm q m)) : exec c s = .next (t.send (.spdm q a)) := by
  rw [hexec, State.serveSpdm, if_neg (by simp [hport, hserves]), hspdm]

theorem endSession_regsKept (s : State) (p : Port) (id : Nat) : RegsKept [.auditAcked] s (s.endSession p id) :=
  (RegsKept.of_regs rfl RegsKept.refl).setReg (by decide)

theorem getCertificate_completes (s : State) (q : Requester) (slot : Byte) (offset len : Half)
    (hport : s.portAnswers q.port = true) (hserves : s.supervisorServes = true) :
    Completes (.getCertificate q slot offset len) s fun t =>
      t.out.head? = some (.spdm q (if slot.toNat = 0 then
          .certificate ((Config.certChain.drop offset.toNat).take len.toNat) else .error)) ∧ t.regs = s.regs := by
  refine ⟨_, exec_of_spdm hport hserves (m := .getCertificate slot offset len) (t := s) ?_ rfl, rfl, rfl⟩
  exact (apply_ite (fun a => (a, s)) ..).symm

theorem measurement_isSome (s : State) {i : Nat} (hlow : 1 ≤ i) (hhigh : i ≤ 5) : (s.measurement i).isSome = true := by
  obtain rfl | rfl | rfl | rfl | rfl : i = 1 ∨ i = 2 ∨ i = 3 ∨ i = 4 ∨ i = 5 := by omega
  all_goals rfl

theorem measurements_ne_nil (s : State) {index : Byte} (hindex : index.toNat = 0xFF ∨ 1 ≤ index.toNat ∧ index.toNat ≤ 5) :
    ((if index.toNat = 0xFF then [1, 2, 3, 4, 5] else [index.toNat]).filterMap fun k =>
      (s.measurement k).map fun b => (k, b)) ≠ [] := by
  have hfirst : ∃ k ∈ (if index.toNat = 0xFF then [1, 2, 3, 4, 5] else [index.toNat]), 1 ≤ k ∧ k ≤ 5 := by
    obtain hall | hone := hindex
    · exact ⟨1, by simp [hall], by decide⟩
    · exact ⟨index.toNat, by simp [show index.toNat ≠ 255 by omega], hone⟩
  obtain ⟨k, hk, hlow, hhigh⟩ := hfirst
  obtain ⟨b, hb⟩ := Option.isSome_iff_exists.1 (measurement_isSome s hlow hhigh)
  exact List.ne_nil_of_mem (List.mem_filterMap.2 ⟨k, hk, by rw [hb]; rfl⟩)

theorem getMeasurements_completes (s : State) (q : Requester) (index : Byte)
    (hport : s.portAnswers q.port = true) (hserves : s.supervisorServes = true)
    (hindex : index.toNat = 0xFF ∨ (1 ≤ index.toNat ∧ index.toNat ≤ 5)) :
    Completes (.getMeasurements q index) s fun t =>
      (∃ ms k, t.out = .spdm q (.measurements ms k) :: s.out ∧ ms ≠ []) ∧ t.regs = s.regs := by
  have hsome := measurements_ne_nil s hindex
  exact ⟨_, exec_of_spdm hport hserves (m := .getMeasurements index) (if_neg (by simpa using hsome)) rfl,
    ⟨_, _, rfl, hsome⟩, rfl⟩

theorem keyExchange_completes (s : State) (q : Requester) (id : Word) (hport : s.portAnswers q.port = true)
    (hserves : s.supervisorServes = true) (hnew : s.sessionOf q.port id.toNat = none) :
    Completes (.keyExchange q id) s fun t =>
      (∃ k, t.out = .spdm q (.keyExchangeRsp id.toNat k) :: s.out) ∧
        t.sessions = ⟨q.port, id.toNat, 0, 0, false, 0⟩ :: s.sessions ∧ t.regs = s.regs :=
  ⟨_, exec_of_spdm hport hserves (m := .keyExchange id) (if_neg (by simp [hnew])) rfl, ⟨_, rfl⟩, rfl, rfl⟩

theorem finish_completes (s : State) (q : Requester) (id : Word) (leaf root : BitVec 384) (verified : Bool) (x : Session)
    (hport : s.portAnswers q.port = true) (hserves : s.supervisorServes = true)
    (hsession : s.sessionOf q.port id.toNat = some x) (hopen : x.finished = false) (hverified : verified = true) :
    Completes (.finish q id leaf root verified) s fun t =>
      t.out = .spdm q .finishRsp :: s.out ∧
        t.sessionOf q.port id.toNat = some { x with leaf := leaf.toNat, root := root.toNat, finished := true } ∧
          t.regs = s.regs := by
  have hspdm : s.spdm q (.finish id leaf root verified) = (.finishRsp, { s with sessions :=
      ({ x with leaf := leaf.toNat, root := root.toNat, finished := true } : Session) ::
        (s.sessions.filter fun (y : Session) => !(y.port = q.port && y.id = id.toNat)) }) := by
    rw [State.spdm, hsession]
    dsimp only
    rw [if_neg (by simp [hopen]), if_neg (by simp [hverified])]
  have hnamed : (decide (x.port = q.port) && decide (x.id = id.toNat)) = true :=
    List.find?_some (p := fun y : Session => y.port = q.port && y.id = id.toNat) hsession
  exact ⟨_, exec_of_spdm hport hserves hspdm rfl, rfl, List.find?_cons_of_pos hnamed, rfl⟩

theorem keyUpdate_completes (s : State) (q : Requester) (x : Session) (hport : s.portAnswers q.port = true)
    (hserves : s.supervisorServes = true) (hsession : s.namedSession q = some x) :
    Completes (.keyUpdate q) s fun t =>
      t.out = .spdm q .keyUpdateAck ::
        s.out ∧ t.regs = s.regs ∧ (x ∈ s.sessions → { x with keyGeneration := x.keyGeneration + 1 } ∈ t.sessions) := by
  have hspdm : s.spdm q .keyUpdate = (.keyUpdateAck, { s with sessions := s.sessions.map fun (y : Session) =>
      if y.port = x.port && y.id = x.id then { y with keyGeneration := y.keyGeneration + 1 } else y }) := by
    rw [State.spdm, hsession]
  exact ⟨_, exec_of_spdm hport hserves hspdm rfl, rfl, rfl, fun hx => List.mem_map.2 ⟨x, hx, by simp⟩⟩

/-- Settles O9: a clause for each request of the responder. -/
theorem spdmComplete : Obligations.SpdmComplete := by
  refine ⟨?version, ?capabilities, ?algorithms, ?digests, getCertificate_completes, ?challenge, getMeasurements_completes,
    keyExchange_completes, finish_completes, ?heartbeat, keyUpdate_completes, ?ended, ?missed⟩
  case heartbeat =>
    intro s q hport hserves hsession
    exact ⟨_, exec_of_spdm hport hserves (m := .heartbeat) (if_pos hsession) rfl, rfl, rfl, rfl⟩
  case ended =>
    intro s q x hport hserves hsession
    have hspdm : s.spdm q .endSession = (.endSessionAck, s.endSession x.port x.id) := by rw [State.spdm, hsession]
    exact ⟨_, exec_of_spdm hport hserves hspdm rfl, rfl, sessionOf_end .., (endSession_regsKept s x.port x.id).send⟩
  case missed =>
    intro s port id hsession
    exact ⟨_, if_pos hsession, sessionOf_end .., endSession_regsKept s port id.toNat, fun _ => rfl⟩
  case challenge =>
    intro s q hport hserves
    exact ⟨_, exec_of_spdm (m := .challenge) hport hserves rfl rfl, ⟨_, rfl⟩, rfl⟩
  all_goals
    intro s q hport hserves
    exact ⟨_, exec_of_spdm hport hserves rfl rfl, rfl, rfl⟩

end Sys2Proof.Machine
end

section
/-! The dictionary window, and the messages of JP1, JP2 and JTAG (R538, R577, R585, R586, R588, R590, R598, R602). -/

namespace Sys2Proof.Machine

/-! The window (R538). -/

theorem windowDone_winStatus (s : State) (code : Nat) : (s.windowDone code).reg .winStatus = 2 := by simp [State.windowDone]

theorem windowDone_winError (s : State) (code : Nat) : (s.windowDone code).reg .winError = code % 256 := by
  simp [State.windowDone]

theorem setWindow_winSeq (s : State) (cmd addr offset len : Nat) (seq : Dword) :
    (s.setWindow cmd addr offset len seq.toNat).reg .winSeq = seq.toNat := by
  simpa [State.setWindow] using Nat.mod_eq_of_lt seq.isLt

theorem winCmdRead_completes (s : State) (addr offset len : Word) (seq : Dword) (hport : s.portAnswers .host = true) :
    Completes (.winCmdRead addr offset len seq) s fun t =>
      t.reg .winStatus = 2 ∧ t.reg .winSeq = seq.toNat ∧
        t.reg .winError = (if len.toNat = 0 ∨ 3840 < len.toNat then 0x95 else
          ((s.setWindow 1 addr.toNat offset.toNat len.toNat seq.toNat).serveRead hostRequester (addr.toNat % 2 ^ 24)
            offset.toNat len.toNat).1 % 256) := by
  have hexec : exec (.winCmdRead addr offset len seq) s = execWinCmdRead addr offset len seq s := rfl
  have hseq := setWindow_winSeq s 1 addr.toNat offset.toNat len.toNat seq
  rw [execWinCmdRead, if_neg (by simp [hport])] at hexec
  dsimp only at hexec
  generalize s.setWindow 1 addr.toNat offset.toNat len.toNat seq.toNat = w at hexec hseq
  by_cases hlen : len.toNat = 0 ∨ 3840 < len.toNat
  · rw [if_pos (by simpa using hlen)] at hexec
    refine ⟨_, hexec, windowDone_winStatus .., ?_, ?_⟩
    · rw [windowDone_reg _ _ _ (by decide), countRefused_reg _ _ (by decide), hseq]
    · rw [windowDone_winError, if_pos hlen]
      rfl
  · rw [if_neg (by simpa using hlen)] at hexec
    refine ⟨_, hexec, windowDone_winStatus .., ?_, ?_⟩
    · rw [windowDone_reg _ _ _ (by decide), State.reg_setRegs_ne _ (by decide), serveRead_reg _ _ _ _ _ _ (by decide), hseq]
    · rw [windowDone_winError, if_neg hlen]

theorem execWinCmdWrite_eq {s : State} (addr offset : Word) (seq : Dword) {data : List Byte} (peers : Option Half)
    (hport : s.portAnswers .host = true) (hlen : data.length ≤ 3840) :
    execWinCmdWrite addr offset seq data peers s = .next (
      let u := (s.setWindow 2 addr.toNat offset.toNat data.length seq.toNat).setRegs .winData 0 (data.map BitVec.toNat)
      if data.isEmpty then u.countRefused.windowDone resLength
      else (u.writePiece hostRequester (addr.toNat % 2 ^ 24) offset.toNat data peers).2.windowDone
        (u.writePiece hostRequester (addr.toNat % 2 ^ 24) offset.toNat data peers).1) := by
  rw [execWinCmdWrite, if_neg (by simp [hport, hlen])]
  exact (apply_ite Host.Outcome.next ..).symm

theorem winCmdWrite_answers (s : State) (addr offset : Word) (seq : Dword) (data : List Byte) (peers : Option Half)
    (hport : s.portAnswers .host = true) (hlen : data.length ≤ 3840) :
    Completes (.winCmdWrite addr offset seq data peers) s fun t =>
      t.reg .winStatus = 2 ∧ (data = [] → t.reg .winError = 0x95) := by
  refine ⟨_, execWinCmdWrite_eq addr offset seq peers hport hlen, ?_, fun hnone => ?_⟩
  · dsimp only
    split
    · exact windowDone_winStatus ..
    · exact windowDone_winStatus ..
  · dsimp only
    rw [if_pos (by simp [hnone]), windowDone_winError]
    rfl

theorem winCmdWrite_accepts (s u : State) (addr offset : Word) (seq : Dword) (data : List Byte) (peers : Option Half)
    (r : Reg) (inst : Nat) (v : List Byte) (hdata : data ≠ []) (hlen : data.length ≤ 3840)
    (hu : u = (s.setWindow 2 addr.toNat offset.toNat data.length seq.toNat).setRegs .winData 0 (data.map BitVec.toNat))
    (hobj : addr.toNat % 2 ^ 24 = r.objAt inst) (haccepts : AcceptsPiece u hostRequester r inst offset.toNat data peers v) :
    Completes (.winCmdWrite addr offset seq data peers) s fun t => t = (u.written hostRequester r inst v).windowDone resOk := by
  have hport : s.portAnswers .host = true := by
    obtain ⟨-, -, ⟨hport, -⟩, -⟩ := haccepts
    rw [hu] at hport
    simpa (disch := decide) [State.portAnswers, hostRequester, State.reg_setRegs_ne, setWindow_reg] using hport
  have hexec := execWinCmdWrite_eq addr offset seq peers hport hlen
  dsimp only at hexec
  rw [if_neg (by simp [hdata]), ← hu, hobj, State.writePiece_accepts u haccepts] at hexec
  exact ⟨_, hexec, rfl⟩

/-! Messages (R585, R586). -/

/-- A JP2 request that is served has its answer sent, and then the entries that subscriptions await. -/
def State.answerJp2 (u : State) (q : Requester) (type rseq obj code off : Nat) (bs : List Byte) : State :=
  (u.reply q rseq (.jp2 q type rseq obj code off bs)).pumpAudit

theorem answerJp2_out (u : State) (q : Requester) (type rseq obj code off : Nat) (bs : List Byte) :
    Output.jp2 q type rseq obj code off bs ∈ (u.answerJp2 q type rseq obj code off bs).out :=
  out_pumpAudit _ _ List.mem_cons_self

/-- Sending the answer and the entries changes what a subscription is sent next alone. -/
theorem exists_mem_answerJp2_subs {u : State} {x : Subscription} {q : Requester} {type rseq obj code off : Nat}
    {bs : List Byte} {P : Subscription → Prop} (hx : x ∈ u.subs) (hP : ∀ n, P { x with next := n }) :
    ∃ y, y ∈ (u.answerJp2 q type rseq obj code off bs).subs ∧ P y := by
  obtain ⟨g, hsubs, hg⟩ := pumpAudit_subs (u.reply q rseq (.jp2 q type rseq obj code off bs))
  refine ⟨g x, ?_, hg x ▸ hP _⟩
  rw [State.answerJp2, hsubs]
  exact List.mem_map_of_mem hx

theorem of_mem_answerJp2_subs {u : State} {y : Subscription} {q : Requester} {type rseq obj code off : Nat} {bs : List Byte}
    (hy : y ∈ (u.answerJp2 q type rseq obj code off bs).subs) : ∃ x ∈ u.subs, y = { x with next := y.next } := by
  obtain ⟨g, hsubs, hg⟩ := pumpAudit_subs (u.reply q rseq (.jp2 q type rseq obj code off bs))
  rw [State.answerJp2, hsubs] at hy
  obtain ⟨x, hx, rfl⟩ := List.mem_map.1 hy
  exact ⟨x, hx, hg x⟩

theorem serveJp2_eq {s u : State} {q : Requester} {rseq obj off : Nat} {b : Jp2Body} {peers : Option Half}
    {type code : Nat} {bs : List Byte}
    (hnew : (s.answers.find? fun a => sameSource a.who q && decide (a.rseq = rseq)) = none)
    (hserves : needsSupervisor b = false ∨ s.supervisorServes = true) (hspdm : ∀ m, b ≠ .spdm m)
    (hbody : s.jp2Body q obj off b peers = (type, code, bs, u)) :
    s.serveJp2 q rseq obj off b peers = u.answerJp2 q type rseq obj code off bs := by
  have hneeds : (needsSupervisor b && !s.supervisorServes) = false := by
    obtain hread | hup := hserves
    · simp [hread]
    · simp [hup]
  rw [serveJp2_run _ _ _ _ _ _ _ hnew hneeds hspdm, hbody]
  rfl

theorem jp2Body_read {s : State} (q : Requester) (obj off : Nat) (peers : Option Half) {len : Word} (hlen : len.toNat ≤ 1400) :
    s.jp2Body q obj off (.read len) peers = (0x02, (s.serveRead q obj off len.toNat).1,
      (s.serveRead q obj off len.toNat).2.1, (s.serveRead q obj off len.toNat).2.2) :=
  if_neg (by omega)

theorem jp2Body_write {s : State} (q : Requester) (obj off : Nat) (peers : Option Half) {data : List Byte}
    (hlen : data.length ≤ 1400) :
    s.jp2Body q obj off (.write data) peers = (0x04, (s.writePiece q obj off data peers).1, [],
      (s.writePiece q obj off data peers).2) :=
  if_neg (by omega)

section
variable {s : State} {q : Requester} {rseq : Nat} (hport : s.portAnswers q.port = true) (hplain : q.session = none)
  (hnew : (s.answers.find? fun a => sameSource a.who q && decide (a.rseq = rseq)) = none)
include hport hplain hnew

theorem exec_of_plainJp2 {c : Instr} {u : State} {obj off : Nat} {b : Jp2Body} {peers : Option Half} {type code : Nat}
    {bs : List Byte} (hserves : needsSupervisor b = false ∨ s.supervisorServes = true) (hspdm : ∀ m, b ≠ .spdm m)
    (hbody : s.jp2Body q obj off b peers = (type, code, bs, u))
    (hexec : exec c s = .next (s.plainJp2 q rseq obj off b peers)) :
    exec c s = .next (u.answerJp2 q type rseq obj code off bs) := by
  rw [hexec, plainJp2_serves _ _ _ _ _ _ _ hport hplain, serveJp2_eq hnew hserves hspdm hbody]

end

theorem jp2Read_completes (s : State) (q : Requester) (rseq : Dword) (obj : ObjAddr) (offset len : Word)
    (hport : s.portAnswers q.port = true) (hplain : q.session = none)
    (hnew : (s.answers.find? fun a => sameSource a.who q && decide (a.rseq = rseq.toNat)) = none) (hlen : len.toNat ≤ 1400) :
    Completes (.jp2Read q rseq obj offset len) s fun t =>
      Output.jp2 q 0x02 rseq.toNat obj.toNat (s.serveRead q obj.toNat offset.toNat len.toNat).1 offset.toNat
          (s.serveRead q obj.toNat offset.toNat len.toNat).2.1 ∈ t.out :=
  ⟨_, exec_of_plainJp2 hport hplain hnew (.inl rfl) (by simp) (jp2Body_read q _ _ none hlen) rfl, answerJp2_out ..⟩

theorem jp2Write_answers (s : State) (q : Requester) (rseq : Dword) (obj : ObjAddr) (offset : Word) (data : List Byte)
    (peers : Option Half) (hport : s.portAnswers q.port = true) (hplain : q.session = none)
    (hnew : (s.answers.find? fun a => sameSource a.who q && decide (a.rseq = rseq.toNat)) = none)
    (hserves : s.supervisorServes = true) (hlen : data.length ≤ 1400) :
    Completes (.jp2Write q rseq obj offset data peers) s fun t =>
      Output.jp2 q 0x04 rseq.toNat obj.toNat (s.writePiece q obj.toNat offset.toNat data peers).1 offset.toNat [] ∈
        t.out :=
  ⟨_, exec_of_plainJp2 hport hplain hnew (.inr hserves) (by simp) (jp2Body_write q _ _ peers hlen) rfl, answerJp2_out ..⟩

theorem jp2Write_accepts (s : State) (q : Requester) (rseq : Dword) (obj : ObjAddr) (offset : Word) (data : List Byte)
    (peers : Option Half) (r : Reg) (inst : Nat) (v : List Byte) (hplain : q.session = none)
    (hnew : (s.answers.find? fun a => sameSource a.who q && decide (a.rseq = rseq.toNat)) = none)
    (hlen : data.length ≤ 1400) (hobj : obj.toNat = r.objAt inst) (haccepts : AcceptsPiece s q r inst offset.toNat data peers v) :
    Completes (.jp2Write q rseq obj offset data peers) s fun t =>
      t = ((s.written q r inst v).reply q rseq.toNat
        (.jp2 q 4 rseq.toNat obj.toNat resOk offset.toNat [])).pumpAudit := by
  obtain ⟨hport, hserves⟩ : s.portAnswers q.port = true ∧ s.supervisorServes = true := by
    obtain ⟨-, -, ⟨hport, hserves, -⟩, -⟩ := haccepts
    exact ⟨hport, hserves⟩
  have hbody := jp2Body_write (s := s) q obj.toNat offset.toNat peers hlen
  rw [hobj, State.writePiece_accepts s haccepts, ← hobj] at hbody
  exact ⟨_, exec_of_plainJp2 hport hplain hnew (.inr hserves) (by simp) hbody rfl, rfl⟩

theorem jp2Spdm_completes (s : State) (q : Requester) (rseq : Dword) (m : SpdmRequest)
    (hport : s.portAnswers q.port = true) (hplain : q.session = none)
    (hnew : (s.answers.find? fun a => sameSource a.who q && decide (a.rseq = rseq.toNat)) = none)
    (hserves : s.supervisorServes = true) :
    Completes (.jp2Spdm q rseq m) s fun t => t.out.head? = some (.spdm q (s.spdm q m).1) := by
  have hexec : exec (.jp2Spdm q rseq m) s = .next (s.plainJp2 q rseq.toNat 0 0 (.spdm m) none) := rfl
  rw [plainJp2_serves _ _ _ _ _ _ _ hport hplain, State.serveJp2, hnew] at hexec
  dsimp only at hexec
  rw [if_neg (by simp [hserves])] at hexec
  exact ⟨_, hexec, rfl⟩

theorem jp2Secured_completes (s : State) (q : Requester) (rseq : Dword) (obj : ObjAddr) (offset len : Word)
    (peers : Option Half) (n : Nat) (x : Session) (hport : s.portAnswers q.port = true) (hnamed : q.session = some n)
    (hsession : s.sessionOf q.port n = some x) (hfinished : x.finished = true)
    (hnew : (s.answers.find? fun a => sameSource a.who q && decide (a.rseq = rseq.toNat)) = none) (hlen : len.toNat ≤ 1400) :
    Completes (.jp2Secured q true rseq obj offset (.read len) peers) s fun t =>
      Output.jp2 q 0x02 rseq.toNat obj.toNat (s.serveRead q obj.toNat offset.toNat len.toNat).1 offset.toNat
          (s.serveRead q obj.toNat offset.toNat len.toNat).2.1 ∈ t.out := by
  have hexec : exec (.jp2Secured q true rseq obj offset (.read len) peers) s =
      .next (s.securedJp2 q true rseq.toNat obj.toNat offset.toNat (.read len) peers) := rfl
  have hbind : (q.session.bind fun n => s.sessionOf q.port n) = some x := by rw [hnamed, Option.bind_some, hsession]
  rw [State.securedJp2, if_neg (by simp [hport]), hbind] at hexec
  dsimp only at hexec
  rw [if_neg (by simp [hfinished]), serveJp2_eq hnew (.inl rfl) (by simp) (jp2Body_read q _ _ peers hlen)] at hexec
  exact ⟨_, hexec, answerJp2_out ..⟩

theorem jdict_completes (s : State) (m : Jp2Message) (peers : Option Half) (len : Word) (hmagic : m.magic.toNat = 0x324A)
    (hversion : m.version.toNat = 2) (hsession : m.session.toNat = 0) (hsecured : m.secured = none)
    (hbody : m.body = .read len) (hlen : len.toNat ≤ 1400) (hport : s.portAnswers .jtag = true)
    (hnew : (s.answers.find? fun a => sameSource a.who ⟨.jtag, none, 0⟩ && decide (a.rseq = m.rseq.toNat)) = none) :
    Completes (.jdict m peers) s fun t =>
      Output.jp2 ⟨.jtag, none, 0⟩ 0x02 m.rseq.toNat m.obj.toNat (s.serveRead ⟨.jtag, none,
        0⟩ m.obj.toNat m.offset.toNat len.toNat).1
          m.offset.toNat (s.serveRead ⟨.jtag, none, 0⟩ m.obj.toNat m.offset.toNat len.toNat).2.1 ∈ t.out := by
  have hexec : exec (.jdict m peers) s =
      .next (s.plainJp2 ⟨.jtag, none, 0⟩ m.rseq.toNat m.obj.toNat m.offset.toNat (.read len) peers) := by
    show execJdict m peers s = _
    rw [execJdict, if_pos hsession, if_neg (by simp [hmagic, hversion]), hsecured, hbody]
  exact ⟨_, exec_of_plainJp2 hport rfl hnew (.inl rfl) (by simp) (jp2Body_read _ _ _ peers hlen) hexec, answerJp2_out ..⟩

/-! Subscriptions (R590, R598, R602). -/

theorem subOpenSample_completes (s : State) (q : Requester) (rseq : Dword) (objects : List ObjAddr) (periodUs n : Nat)
    (hport : s.portAnswers q.port = true) (hplain : q.session = none)
    (hnew : (s.answers.find? fun a => sameSource a.who q && decide (a.rseq = rseq.toNat)) = none)
    (hserves : s.supervisorServes = true) (hfree : s.freeSub = some n) (hsome : objects ≠ []) (hmany : objects.length ≤ 64)
    (hlow : 1000 ≤ periodUs) (hhigh : periodUs ≤ 60000000) :
    Completes (.subOpenSample q rseq objects periodUs) s fun t =>
      Output.jp2 q 0x25 rseq.toNat 0 resOk 0 (leBytes 1 n ++ ((objects.map BitVec.toNat).filter fun a => !s.samples
        q a).flatMap
          (leBytes 3)) ∈ t.out ∧ ∃ u, u ∈ t.subs ∧ u.number = n ∧ u.who = q ∧ u.audit = false ∧ u.period = periodUs := by
  have hbody : s.jp2Body q 0 0 (.subOpenSample objects periodUs) none = (0x25, resOk,
      leBytes 1 n ++ ((objects.map BitVec.toNat).filter fun a => !s.samples q a).flatMap (leBytes 3),
      { s with subs := s.subs ++ [(⟨n, q, false, false, (objects.map BitVec.toNat).filter fun a => s.samples q a,
        periodUs, 0, 0⟩ : Subscription)] }) := by
    rw [State.jp2Body, State.openSample, if_neg (by simp [hsome]; omega), hfree]
  refine ⟨_, exec_of_plainJp2 hport hplain hnew (.inr hserves) (by simp) hbody rfl, answerJp2_out .., ?_⟩
  exact exists_mem_answerJp2_subs (List.mem_append_right s.subs (List.mem_singleton.2 rfl)) fun _ => ⟨rfl, rfl, rfl, rfl⟩

theorem subOpenAudit_completes (s : State) (q : Requester) (rseq start : Dword) (hold : Bool) (n : Nat)
    (hport : s.portAnswers q.port = true) (hplain : q.session = none)
    (hnew : (s.answers.find? fun a => sameSource a.who q && decide (a.rseq = rseq.toNat)) = none)
    (hserves : s.supervisorServes = true) (hfree : s.freeSub = some n) :
    Completes (.subOpenAudit q rseq start hold) s fun t =>
      Output.jp2 q 0x25 rseq.toNat 0 resOk 0 (leBytes 1 n) ∈ t.out ∧
        ∃ u, u ∈ t.subs ∧ u.number = n ∧ u.who = q ∧ u.audit = true ∧ u.hold = hold := by
  have hbody : s.jp2Body q 0 0 (.subOpenAudit start hold) none = (0x25, resOk, leBytes 1 n,
      { s with subs := s.subs ++ [(⟨n, q, true, hold, [], 0, max 1 start.toNat,
        min (start.toNat - 1) (s.reg .auditHead)⟩ : Subscription)] }) := by
    rw [State.jp2Body, State.openAudit, hfree]
  refine ⟨_, exec_of_plainJp2 hport hplain hnew (.inr hserves) (by simp) hbody rfl, answerJp2_out .., ?_⟩
  exact exists_mem_answerJp2_subs (List.mem_append_right s.subs (List.mem_singleton.2 rfl)) fun _ => ⟨rfl, rfl, rfl, rfl⟩

theorem subAck_completes (s : State) (q : Requester) (rseq seq : Dword) (u : Subscription)
    (hport : s.portAnswers q.port = true) (hplain : q.session = none)
    (hnew : (s.answers.find? fun a => sameSource a.who q && decide (a.rseq = rseq.toNat)) = none)
    (hserves : s.supervisorServes = true)
    (hholder : (s.subs.find? fun x => x.audit && x.hold && sameSource x.who q) = some u) :
    Completes (.subAck q rseq seq) s fun t =>
      Output.jp2 q 0x25 rseq.toNat 0 resOk 0 (leBytes 1 u.number) ∈ t.out ∧
        ∀ x ∈ t.subs, x.audit = true → x.hold = true → sameSource x.who q = true →
          min seq.toNat (s.reg .auditHead) ≤ x.acked := by
  have hbody : s.jp2Body q 0 0 (.subAck seq) none = (0x25, resOk, leBytes 1 u.number,
      { s with subs := s.subs.map fun (x : Subscription) =>
          if x.audit && x.hold && sameSource x.who q then
            { x with acked := max x.acked (min seq.toNat (s.reg .auditHead)) } else x }.refreshAcked) := by
    rw [State.jp2Body, State.ackSubs, hholder]
  refine ⟨_, exec_of_plainJp2 hport hplain hnew (.inr hserves) (by simp) hbody rfl, answerJp2_out .., ?_⟩
  intro y hy haudit hhold hmine
  obtain ⟨x, hx, hyx⟩ := of_mem_answerJp2_subs hy
  obtain ⟨z, -, rfl⟩ := List.mem_map.1 hx
  rw [hyx] at haudit hhold hmine ⊢
  dsimp only at haudit hhold hmine ⊢
  split at haudit
  case isTrue hz =>
    rw [if_pos hz]
    exact Nat.le_max_right ..
  case isFalse hz =>
    rw [if_neg hz] at hhold hmine
    exact absurd (by simp [haudit, hhold, hmine]) hz

theorem subClose_completes (s : State) (q : Requester) (rseq : Dword) (number : Byte) (u : Subscription)
    (hport : s.portAnswers q.port = true) (hplain : q.session = none)
    (hnew : (s.answers.find? fun a => sameSource a.who q && decide (a.rseq = rseq.toNat)) = none)
    (hserves : s.supervisorServes = true) (hsub : s.subOf q number.toNat = some u) :
    Completes (.subClose q rseq number) s fun t =>
      Output.jp2 q 0x25 rseq.toNat 0 resOk 0 (leBytes 1 number.toNat) ∈ t.out ∧ ∀ x ∈ t.subs, x.number ≠ number.toNat := by
  have hbody : s.jp2Body q 0 0 (.subClose number) none = (0x25, resOk, leBytes 1 number.toNat,
      { s with subs := s.subs.filter fun (x : Subscription) => x.number ≠ u.number }.refreshAcked) := by
    rw [State.jp2Body, State.closeSub, hsub]
  have hnumber : u.number = number.toNat := by
    have hfound := List.find?_some hsub
    simp only [Bool.and_eq_true, decide_eq_true_eq] at hfound
    exact hfound.1
  refine ⟨_, exec_of_plainJp2 hport hplain hnew (.inr hserves) (by simp) hbody rfl, answerJp2_out .., ?_⟩
  intro y hy
  obtain ⟨x, hx, hyx⟩ := of_mem_answerJp2_subs hy
  have hkept := (List.mem_filter.1 hx).2
  rw [hyx, ← hnumber]
  simpa using hkept

theorem jp1Request_completes (s : State) (source : Nat) (r : Jp1Request) (hport : s.portAnswers .management = true)
    (hon : s.reg .jp1Enable ≠ 0) :
    Completes (.jp1Request source r) s fun t =>
      ∃ obj code bs, t.out.head? = some (.jp1 source obj code bs) ∧
        (∀ a, r = .read a → obj = a.toNat ∧ (objectLength a.toNat ≤ 256 →
          code = (s.serveRead ⟨.management, none, source⟩ a.toNat 0 (objectLength a.toNat)).1)) ∧
        (∀ a data, r = .write a data → code = resUnsupported) := by
  have hexec : exec (.jp1Request source r) s = .next ((s.jp1 ⟨.management, none, source⟩ r).2.2.2.send (.jp1 source
      (s.jp1 ⟨.management, none, source⟩ r).1 (s.jp1 ⟨.management, none, source⟩ r).2.1
        (s.jp1 ⟨.management, none, source⟩ r).2.2.1)) := if_neg (by simp [hport, hon])
  refine ⟨_, hexec, _, _, _, rfl, ?_, ?_⟩
  · rintro a rfl
    by_cases hlen : 256 < objectLength a.toNat
    · have hanswer : s.jp1 ⟨.management, none, source⟩ (.read a) = (a.toNat, resUnsupported, [], s.countRefused) :=
        if_pos hlen
      rw [hanswer]
      exact ⟨rfl, fun h => absurd hlen (by omega)⟩
    · have hanswer : s.jp1 ⟨.management, none, source⟩ (.read a) =
          (a.toNat, s.serveRead ⟨.management, none, source⟩ a.toNat 0 (objectLength a.toNat)) := if_neg hlen
      rw [hanswer]
      exact ⟨rfl, fun _ => rfl⟩
  · rintro a data rfl
    rfl

/-- Settles O10: the window, the messages that are served, and their subscriptions. -/
theorem windowAndMessagesComplete : Obligations.WindowAndMessagesComplete :=
  ⟨winCmdRead_completes, winCmdWrite_answers, winCmdWrite_accepts, jp2Read_completes, jp2Write_answers, jp2Write_accepts,
    jp2Spdm_completes, jp2Secured_completes, jdict_completes, subOpenSample_completes, subOpenAudit_completes,
    subAck_completes, subClose_completes, jp1Request_completes⟩

end Sys2Proof.Machine
end

section
/-! Replays, element tests, alerts and the loss of a peer (R480, R481, R483, R485, R487, R493, R495). -/

namespace Sys2Proof.Machine

theorem wordReplay_completes (s : State) (hop : Hop) (again : Bool) :
    Completes (.wordReplay hop again) s fun t =>
      (again = false → Records s t 1 0 1 (hopUnit hop).1 (hopUnit hop).2) ∧
        (again = true → (s.tests.any fun x => decide (x.kind = (hopUnit hop).1) && decide (x.unit = (hopUnit
          hop).2)) = false →
          Records s t 2 0 0 (hopUnit hop).1 (hopUnit hop).2) := by
  have hexec : exec (.wordReplay hop again) s = execWordReplay hop again s := rfl
  unfold execWordReplay at hexec
  dsimp only at hexec
  cases again with
  | false =>
    refine ⟨_, hexec, fun _ => records_logError s _, nofun⟩
  | true =>
    rw [if_neg (by decide)] at hexec
    split at hexec
    case isTrue hdie =>
      have hunit : hopUnit hop = (0, 0) := by
        cases hop with
        | onDie => rfl
        | bridge b g => exact absurd hdie (by simp [hopUnit])
        | coupler d => exact absurd hdie (by simp [hopUnit])
        | port f p => exact absurd hdie (by simp [hopUnit])
      rw [hunit]
      exact ⟨_, hexec, nofun, fun _ _ => records_logError s _⟩
    case isFalse hother =>
      split at hexec
      case isTrue htested => exact ⟨_, hexec, nofun, fun _ hnone => absurd htested (by rw [hnone]; decide)⟩
      case isFalse huntested =>
        exact ⟨_, hexec, nofun, fun _ _ => records_log rfl (records_logError s _)⟩

/-! Tests of elements (R485 to R487). -/

theorem bridgeCode_congr {s u : State} (h : u.segments = s.segments) (b : Fin 23) : u.bridgeCode b = s.bridgeCode b := by
  unfold State.bridgeCode
  rw [h]

theorem bridgeCode_lt (s : State) (b : Fin 23) : s.bridgeCode b < 256 := by
  unfold State.bridgeCode
  dsimp only
  split
  · split <;> decide
  · split <;> decide

theorem endTest_tests {s w : State} (h : w.tests = s.tests) (x : SelfTest) (o o' : Nat) :
    (w.endTest x o).tests = (s.endTest x o').tests := by
  obtain ⟨-, -, -, -, htests⟩ := endTest_facts w x o
  obtain ⟨-, -, -, -, htests'⟩ := endTest_facts s x o'
  rw [htests, htests', h]

theorem endTest_segments (s : State) (x : SelfTest) (o : Nat) : (s.endTest x o).segments = s.segments := by
  obtain ⟨-, -, hsegments, -⟩ := endTest_facts s x o
  exact hsegments

/-- A segment whose test has failed: its spare wire takes over, or it is switched off (R485). -/
def State.retireSegment (s : State) (bridge : Fin 23) (u : Nat) (x : SelfTest) : State :=
  let spare := s.wireState u = 0
  let s := { s with segments := Store.put 0 s.segments u (if spare then 1 else 2) }
  let s := s.endTest x (if spare then 2 else 4)
  let s := if spare then
      s.logError {
        code := 4, severity := 1, outcome := 2, unitKind := 5, unit := u, pause := s.now - x.at' }
    else s
  s.change .bridgeState bridge (s.bridgeCode bridge)

theorem retireSegment_facts (s : State) (bridge : Fin 23) (u : Nat) (x : SelfTest) :
    (s.retireSegment bridge u x).tests = (s.endTest x 2).tests ∧
      (s.retireSegment bridge u x).segments = Store.put 0 s.segments u (if s.wireState u = 0 then 1 else 2) ∧
      (s.retireSegment bridge u x).reg .bridgeState bridge = (s.retireSegment bridge u x).bridgeCode bridge := by
  unfold State.retireSegment
  dsimp only
  refine ⟨?_, ?_, ?_⟩
  · split
    · rw [State.tests_change, State.tests_logError]
      exact endTest_tests (s := s) (by rfl) ..
    · rw [State.tests_change]
      exact endTest_tests (s := s) (by rfl) ..
  · split
    · rw [State.segments_change, State.segments_logError, endTest_segments]
    · rw [State.segments_change, endTest_segments]
  · rw [State.reg_change _ (by decide), if_pos ⟨rfl, rfl⟩, bridgeCode_congr (State.segments_change ..)]
    exact Nat.mod_eq_of_lt (bridgeCode_lt ..)

theorem bridgeSegmentTestComplete_completes (s : State) (bridge : Fin 23) (segment : Fin 256) (pass : Bool) (x : SelfTest)
    (htest : s.runningTest 5 (bridge.val * 256 + segment.val) = some x) :
    Completes (.bridgeSegmentTestComplete bridge segment pass) s fun t =>
      (∀ y ∈ t.tests, y.kind = x.kind → y.unit ≠ x.unit) ∧ (pass = true → t.segments = s.segments) ∧
        (pass = false → t.wireState (bridge.val * 256 + segment.val) =
          (if s.wireState (bridge.val * 256 + segment.val) = 0 then 1 else 2) ∧
            t.reg .bridgeState bridge = t.bridgeCode bridge) := by
  have hexec : exec (.bridgeSegmentTestComplete bridge segment pass) s =
      execBridgeSegmentTestComplete bridge segment pass s := rfl
  rw [execBridgeSegmentTestComplete, htest] at hexec
  cases pass with
  | true => exact ⟨_, hexec, endTest_gone _ _ _ _ rfl, fun _ => endTest_segments .., nofun⟩
  | false =>
    replace hexec : exec (.bridgeSegmentTestComplete bridge segment false) s =
        .next (if (s.retireSegment bridge (bridge.val * 256 + segment.val) x).dieCutOff then
          (s.retireSegment bridge (bridge.val * 256 + segment.val) x).enterFaulted
        else s.retireSegment bridge (bridge.val * 256 + segment.val) x) := hexec
    obtain ⟨htests, hsegments, hcode⟩ := retireSegment_facts s bridge (bridge.val * 256 + segment.val) x
    generalize s.retireSegment bridge (bridge.val * 256 + segment.val) x = u at hexec htests hsegments hcode
    have hwire : Store.at 0 u.segments (bridge.val * 256 + segment.val) =
        if s.wireState (bridge.val * 256 + segment.val) = 0 then 1 else 2 := by
      rw [hsegments]
      simp [Store.at, Store.put, Store.get_set]
    refine ⟨_, hexec, ?_, nofun, fun _ => ?_⟩
    · split
      · exact endTest_gone s x 2 _ (by rw [tests_enterFaulted, htests])
      · exact endTest_gone s x 2 _ htests
    · split
      · rw [State.wireState, segments_enterFaulted, enterFaulted_reg _ _ (by decide),
          bridgeCode_congr (segments_enterFaulted u)]
        exact ⟨hwire, hcode⟩
      · exact ⟨hwire, hcode⟩

theorem noteQueues_tests (s : State) : s.noteQueues.tests = s.tests := by
  unfold State.noteQueues
  generalize ((List.range 8).map s.partsAt).foldl max 0 = n
  dsimp only
  split
  · rfl
  · rfl

theorem countHandover_tests (t s : State) : (t.countHandover s).tests = t.tests := rfl

theorem couplerBistComplete_completes (s : State) (die : Fin 8) (pass : Bool) (x : SelfTest)
    (htest : s.runningTest 8 die = some x) :
    Completes (.couplerBistComplete die pass) s fun t =>
      (∀ y ∈ t.tests, y.kind = x.kind → y.unit ≠ x.unit) ∧ (pass = true → RegsKept [] s t) ∧
        (pass = false → t.flag .couplerState 0 die = true) := by
  have hexec : exec (.couplerBistComplete die pass) s = execCouplerBistComplete die pass s := rfl
  rw [execCouplerBistComplete, htest] at hexec
  cases pass with
  | true =>
    obtain ⟨hregs, -⟩ := endTest_facts s x 1
    exact ⟨_, hexec, endTest_gone _ _ _ _ rfl, fun _ => RegsKept.of_regs hregs RegsKept.refl, nofun⟩
  | false =>
    dsimp only at hexec
    rw [if_neg (by decide)] at hexec
    generalize hv : withBit (s.reg .couplerState) die = v at hexec
    have hbit : bit (v % 256) die = true := by
      rw [bit_mod8 _ _ die.isLt, ← hv, bit_withBit]
      simp
    have hretired (w : State) (e : ErrorEvent) :
        ((((w.change .couplerState 0 v).countHandover s).noteQueues).logError e).flag .couplerState 0 die = true := by
      rw [State.flag, State.reg_logError _ (by decide), noteQueues_reg _ _ (by decide), countHandover_reg _ _ _ (by decide),
        State.reg_change _ (by decide), if_pos ⟨rfl, rfl⟩]
      exact hbit
    have htests (w : State) (e : ErrorEvent) :
        ((((w.change .couplerState 0 v).countHandover s).noteQueues).logError e).tests = w.tests := by
      rw [State.tests_logError, noteQueues_tests, countHandover_tests, State.tests_change]
    refine ⟨_, hexec, ?_, nofun, fun _ => ?_⟩
    · split
      · exact endTest_gone s x 2 _ (by rw [tests_enterFaulted, htests])
      · exact endTest_gone s x 2 _ (htests ..)
    · split
      · rw [State.flag, enterFaulted_reg _ _ (by decide)]
        exact hretired ..
      · exact hretired ..

/-! Alerts (R480, R481, R495). -/

theorem errorAckWrite_completes (s : State) (q : Requester) (v : Dword)
    (haccepts : Accepts s q .errorAck 0 (leBytes 8 v.toNat)) :
    Completes (.errorAckWrite q v) s fun t =>
      Answered q (Reg.errorAck.objAt 0) t ∧ (s.reg .lastAlertSeq ≤ v.toNat →
        bit (t.reg .alertCause) 0 = false) ∧ (v.toNat < s.reg .lastAlertSeq → t.reg .alertCause = s.reg .alertCause) := by
  obtain ⟨u, hu, hexec⟩ := exists_accepted (.errorAckWrite q v) haccepts rfl rfl (by decide)
  have hseq := accepted_reg hu .lastAlertSeq (by decide) (by decide) 0
  refine ⟨_, hexec, answered_answer .., fun hacked => ?_, fun hlate => ?_⟩
  · rw [State.reg_answer, if_pos (by rw [hseq]; exact hacked), State.reg_setReg_same]
    simp [bit_withoutBit]
  · rw [State.reg_answer, if_neg (by rw [hseq]; omega), accepted_reg hu .alertCause (by decide) (by decide)]

theorem alertCauseWrite_completes (s : State) (q : Requester) (v : Word)
    (haccepts : Accepts s q .alertCause 0 (leBytes 4 v.toNat)) :
    Completes (.alertCauseWrite q v) s fun t =>
      Answered q (Reg.alertCause.objAt 0) t ∧ (∀ b, 1 ≤ b → b ≤ 6 → v.getLsbD b = true → s.causeEnded b = true →
        bit (t.reg .alertCause) b = false) ∧
        (∀ b, b < 32 → v.getLsbD b = false → bit (t.reg .alertCause) b = bit (s.reg .alertCause) b) := by
  obtain ⟨u, -, hexec⟩ := exists_accepted (.alertCauseWrite q v) haccepts rfl rfl (by decide)
  refine ⟨_, hexec, answered_answer .., fun b hlow hhigh hset hended => ?_,
    fun b hb hclear => ?_⟩
  · rw [State.reg_answer, State.reg_setReg_same, Reg.modulus_alertCause, bit_mod32 _ _ (by omega),
      bit_foldl_clear fun b => v.getLsbD b && s.causeEnded b]
    have hmem : b ∈ [1, 2, 3, 4, 5, 6] := by
      simp
      omega
    simp [hmem, hset, hended]
  · rw [State.reg_answer, State.reg_setReg_same, Reg.modulus_alertCause, bit_mod32 _ _ hb,
      bit_foldl_clear fun b => v.getLsbD b && s.causeEnded b]
    simp [hclear]

theorem squallClear_completes (s : State) (hwarning : s.reg .squallState = 1)
    (hbelow : s.squallNow < s.reg .squallClear * 65536) :
    Completes .squallClear s fun t =>
      t.reg .squallState = 0 ∧ RegsKept (.squallState :: auditRegs) s t ∧ MemKept s t := by
  refine ⟨_, if_pos (by simp [hwarning, hbelow]), ?_, RegsKept.refl.change (by decide) (by decide) (by decide),
    fun a => State.byte_congr (State.mem_change ..) a⟩
  rw [State.reg_change _ (by decide), if_pos ⟨rfl, rfl⟩, Nat.zero_mod]

theorem peerLossTimeout_completes (s : State) (pos : Fin 17) (n : Nat) (hpeer : s.nodeAt pos.val = some n)
    (hother : pos.val ≠ s.pos) (hsilent : linkCarries (s.linkTo pos.val) = false) :
    Completes (.peerLossTimeout pos) s fun t =>
      t = (s.requests.filter fun r => decide (r.pos = pos.val)).foldl (fun (u : State) r => u.deliver r [] false 5 0)
          { s.logError { code := 5, severity := 4, outcome := 6, unitKind := 0x0D, unit := pos.val, lnode := n } with
            requests := s.requests.filter fun (r : Request) => r.pos ≠ pos.val } := by
  have hexec : exec (.peerLossTimeout pos) s = execPeerLossTimeout pos s := rfl
  rw [execPeerLossTimeout, hpeer] at hexec
  dsimp only at hexec
  rw [if_neg (by simp [hother, hsilent])] at hexec
  refine ⟨_, hexec, ?_⟩
  simp

/-- Settles O12: replays, the tests of bridges and couplers, the alerts and the loss of a peer. -/
theorem faultsComplete : Obligations.FaultsComplete :=
  ⟨wordReplay_completes, bridgeSegmentTestComplete_completes, couplerBistComplete_completes, errorAckWrite_completes,
    alertCauseWrite_completes, squallClear_completes, peerLossTimeout_completes⟩

end Sys2Proof.Machine
end

section
/-! The host link, device memory and queues (R533, R541, R544, R556 to R558, R565, R566). -/

namespace Sys2Proof.Machine

/-! The link (R533, R565). -/

theorem trainHost_hostLink (s : State) {gen width : Nat} (cxl : Bool) (hgen : 4 ≤ min (min gen 6) (s.reg .hostGenMax))
    (hwidth : 4 ≤ width) :
    (s.trainHost gen width cxl).reg .hostLink = min (min gen 6) (s.reg .hostGenMax) +
      16 * (if 16 ≤ width then 16 else if 8 ≤ width then 8 else 4) + 512 * ofBool cxl := by
  have hw : (if 16 ≤ width then 16 else if 8 ≤ width then 8 else 4) ≤ 16 := by
    split
    · decide
    · split <;> decide
  have hg : min (min gen 6) (s.reg .hostGenMax) ≤ 6 := Nat.le_trans (Nat.min_le_left ..) (Nat.min_le_right ..)
  have hcxl : ofBool cxl ≤ 1 := by cases cxl <;> decide
  have hchange : ∀ v, v < 65536 → (s.change .hostLink 0 v).reg .hostLink = v := fun v hv => by
    rw [State.reg_change _ (by decide), if_pos ⟨rfl, rfl⟩]
    exact Nat.mod_eq_of_lt hv
  rw [State.trainHost, if_neg (by simpa [hwidth] using hgen)]
  generalize min (min gen 6) (s.reg .hostGenMax) = g at *
  generalize (if 16 ≤ width then 16 else if 8 ≤ width then 8 else 4) = w at *
  dsimp only
  split
  · exact hchange _ (by omega)
  · rw [State.reg_logError _ (by decide)]
    exact hchange _ (by omega)

theorem hostLinkTraining_completes (s : State) (gen width : Nat) (cxl : Bool) (hpowered : 2 ≤ s.reg .nodeState)
    (hinit : s.reg .nodeState = 2 → 2 ≤ s.reg .initStage) (hgen : 4 ≤ min (min gen 6) (s.reg .hostGenMax))
    (hwidth : 4 ≤ width) :
    Completes (.hostLinkTraining gen width cxl) s fun t =>
      t.reg .hostLink = min (min gen 6) (s.reg .hostGenMax) + 16 * (if 16 ≤ width then 16 else if 8 ≤ width then 8
        else 4) + 512 * ofBool cxl := by
  refine ⟨_, if_neg ?_, trainHost_hostLink s cxl hgen hwidth⟩
  simp [State.isIn, stOff, stAon, stInit]
  omega

/-- The first `n` submission queues are disabled (R565). -/
def State.disableQueues (s : State) (n : Nat) : State :=
  (List.range n).foldl (fun (u : State) q => (u.change .sqEnable q 0).setReg .sqState q 0) s

theorem disableQueues_reg (s : State) {n q : Nat} (hq : q < n) :
    (s.disableQueues n).reg .sqEnable q = 0 ∧ (s.disableQueues n).reg .sqState q = 0 := by
  induction n with
  | zero => omega
  | succ n ih =>
    have hlast : s.disableQueues (n + 1) = ((s.disableQueues n).change .sqEnable n 0).setReg .sqState n 0 := by
      rw [State.disableQueues, List.range_succ, List.foldl_append]
      rfl
    rw [hlast]
    simp (disch := decide) only [State.reg_setReg, State.reg_change, reduceCtorEq, false_and, if_false, true_and,
      Nat.zero_mod]
    split
    · exact ⟨rfl, rfl⟩
    · exact ih (by omega)

/-- A reset of the link ends what the host had in progress at the queues and in its session (R562, R565). -/
def State.dropHost (s : State) : State :=
  { s with
    cmds := s.cmds.map fun (c : HostCmd) => { c with queue := 64 }
    cqHeld := [], rung := []
    sessions := s.sessions.filter fun (x : Session) => x.port ≠ Port.host
    assemblies := s.assemblies.filter fun (x : Assembly) => x.who.port ≠ Port.host
    subs := s.subs.filter fun (x : Subscription) => x.who.port ≠ Port.host
    answers := s.answers.filter fun (x : Answer) => x.who.port ≠ Port.host }.refreshAcked

/-- The host holds no line any more, and the writes that waited for it proceed (R558). -/
def State.loseHost (s : State) : State :=
  (({ s with hostLines := [] }.release fun _ => true).setReg .hostHeldLines 0 0).change .hostLink 0 0

/-- What HOST_LINK_RESET says of the queues, the commands and the sessions. -/
def HostGone (t : State) : Prop :=
  (∀ q, q < 64 → t.reg .sqEnable q = 0 ∧ t.reg .sqState q = 0) ∧ t.cqHeld = [] ∧ t.rung = [] ∧
    (∀ x ∈ t.sessions, x.port ≠ .host) ∧ (∀ c ∈ t.cmds, c.queue = 64)

theorem hostGone_dropHost {s : State} (h : ∀ q, q < 64 → s.reg .sqEnable q = 0 ∧ s.reg .sqState q = 0) :
    HostGone s.dropHost := by
  refine ⟨fun q hq => ?_, rfl, rfl, fun x hx => ?_, fun c hc => ?_⟩
  · rw [State.dropHost, refreshAcked_reg _ _ (by decide), refreshAcked_reg _ _ (by decide)]
    exact h q hq
  · simpa using (List.mem_filter.1 hx).2
  · obtain ⟨d, -, rfl⟩ := List.mem_map.1 hc
    rfl

/-- Losing the host writes memory and the registers that a write touches; the rest of what HOST_LINK_RESET does stays. -/
theorem hostGone_loseHost {s : State} (h : HostGone s) : HostGone s.loseHost := by
  obtain ⟨hqueues, hheld, hrung, hsessions, hcmds⟩ := h
  refine ⟨fun q hq => ?_, ?_, ?_, ?_, ?_⟩
  · simpa (disch := decide) [State.loseHost, State.reg_change, release_reg] using hqueues q hq
  · simpa [State.loseHost, State.release] using hheld
  · simpa [State.loseHost, State.release] using hrung
  · simpa [State.loseHost, State.release] using hsessions
  · simpa [State.loseHost, State.release] using hcmds

theorem loseHost_hostLink (s : State) : s.loseHost.reg .hostLink = 0 := by
  rw [State.loseHost, State.reg_change _ (by decide), if_pos ⟨rfl, rfl⟩, Nat.zero_mod]

theorem loseHost_hostLines (s : State) : s.loseHost.hostLines = [] := by
  refine List.eq_nil_iff_forall_not_mem.2 fun l hl => ?_
  rw [State.loseHost, State.hostLines_change] at hl
  exact absurd (hostLines_writes _ _ l hl) List.not_mem_nil

theorem hostLinkReset_completes (s : State) (down : Bool) (hstate : 3 ≤ s.reg .nodeState) :
    Completes (.hostLinkReset down) s fun t =>
      (∀ q, q < 64 → t.reg .sqEnable q = 0 ∧ t.reg .sqState q = 0) ∧ t.cqHeld = [] ∧ t.rung = [] ∧
        (∀ x ∈ t.sessions, x.port ≠ .host) ∧ (∀ c ∈ t.cmds, c.queue = 64) ∧ (down = true →
          t.reg .hostLink = 0 ∧ t.hostLines = []) := by
  have hexec : exec (.hostLinkReset down) s =
      .next (if down then (s.disableQueues 64).dropHost.loseHost else (s.disableQueues 64).dropHost) := by
    show execHostLinkReset down s = _
    rw [execHostLinkReset, if_neg (by simp [State.isIn, stOff, stAon, stInit]; omega)]
    exact (apply_ite Host.Outcome.next ..).symm
  have hgone := hostGone_dropHost (s := s.disableQueues 64) fun q hq => disableQueues_reg s hq
  generalize (s.disableQueues 64).dropHost = u at hexec hgone
  cases down with
  | false =>
    obtain ⟨hqueues, hheld, hrung, hsessions, hcmds⟩ := hgone
    exact ⟨_, hexec, hqueues, hheld, hrung, hsessions, hcmds, nofun⟩
  | true =>
    obtain ⟨hqueues, hheld, hrung, hsessions, hcmds⟩ := hostGone_loseHost hgone
    exact ⟨_, hexec, hqueues, hheld, hrung, hsessions, hcmds, fun _ => ⟨loseHost_hostLink u, loseHost_hostLines u⟩⟩

/-! Device memory (R557, R558). -/

theorem out_grant {s : State} (line : Nat) {o : Output} (ho : o ∈ s.out) : o ∈ (s.grant line).out := by
  unfold State.grant
  dsimp only
  split
  · exact List.mem_cons_of_mem _ ho
  · exact ho

theorem mem_hostLines_grant (s : State) (line : Nat) : line ∈ (s.grant line).hostLines := by
  unfold State.grant
  dsimp only
  split
  · exact List.mem_append_right _ (List.mem_singleton.2 rfl)
  · exact List.mem_append_right _ (List.mem_singleton.2 rfl)

theorem hostMemRead_completes (s : State) (atom : Fin 34359738368) (hmem : s.hostMem = true)
    (hserves : s.servesQueues = true) :
    Completes (.hostMemRead atom) s fun t =>
      (s.hostReach (64 * atom.val) = true →
        Output.hostData atom.val (s.bytes (64 * atom.val) 64) (s.poisoned (64 * atom.val) (64 * atom.val + 64)) ∈
          t.out ∧
          atom.val / 2 ∈ t.hostLines) ∧
        (s.hostReach (64 * atom.val) = false →
          t.reg .hostRefused = (s.reg .hostRefused + 1) % Reg.modulus .hostRefused ∧
          Output.hostData atom.val [] true ∈ t.out) ∧ MemKept s t := by
  have hexec : exec (.hostMemRead atom) s = execHostMemRead atom s := rfl
  rw [execHostMemRead, if_neg (by simp [hmem]), if_neg (by simp [hserves])] at hexec
  cases hreach : s.hostReach (64 * atom.val) with
  | false =>
    rw [if_pos (by simp [hreach])] at hexec
    exact ⟨_, hexec, nofun, fun _ => ⟨State.reg_setReg_same .., List.mem_cons_self⟩, (frame_exec hexec).2 rfl⟩
  | true =>
    have hline : 64 * atom.val / 128 = atom.val / 2 := by omega
    rw [if_neg (by simp [hreach]), hline] at hexec
    exact ⟨_, hexec, fun _ => ⟨out_grant _ List.mem_cons_self, mem_hostLines_grant ..⟩, nofun, (frame_exec hexec).2 rfl⟩

theorem hostMemWrite_completes (s : State) (a : BitVec 41) (data : List Byte) (hmem : s.hostMem = true)
    (hserves : s.servesQueues = true) (hstate : s.reg .nodeState ≠ 7) (hdata : data ≠ [])
    (hfits : a.toNat % 64 + data.length ≤ 64) (hreach : s.hostReach (a.toNat / 64 * 64) = true) :
    Completes (.hostMemWrite a data) s fun t =>
      t = { ({ s with hostLines := [] }.write a.toNat data) with hostLines := s.hostLines } := by
  have hexec : exec (.hostMemWrite a data) s = execHostMemWrite a data s := rfl
  rw [execHostMemWrite, if_neg (by simp [hmem, hdata]; omega), if_neg (by simp [hserves, State.isIn, stFaulted, hstate]),
    if_neg (by simp [hreach])] at hexec
  exact ⟨_, hexec, rfl⟩

theorem backInvalidateResponse_completes (s : State) (line : Fin 17179869184) :
    Completes (.backInvalidateResponse line) s fun t =>
      (∀ l ∈ t.hostLines, l ≠ line.val) ∧ ∀ w ∈ t.waiting, w.1 / 128 ≠ line.val := by
  refine ⟨_, rfl, fun l hl => ?_, fun w hw => ?_⟩
  · have hkept := hostLines_writes _ _ l hl
    simpa using (List.mem_filter.1 hkept).2
  · rw [State.release, State.waiting_writes] at hw
    simpa using (List.mem_filter.1 hw).2

/-! Queues (R541, R544, R556, R566). -/

theorem notificationPost_completes (s : State) (q : Fin 64) (v : Dword) :
    Completes (.notificationPost q v) s fun t =>
      (s.reg .sqEnable q.val ≠ 0 → s.cqFull q.val = false → s.cqWaits q.val = false →
          t = s.putCompletion ⟨q.val, 0xFFFF, 0, v.toNat, s.now, false⟩) ∧
        (s.reg .sqEnable q.val = 0 ∨ s.cqFull q.val = true ∨ s.cqWaits q.val = true →
          t = s.addReg .notifyDropped 0 1) := by
  refine ⟨_, rfl, fun hon hroom hnone => if_neg ?_, fun hdrop => if_pos ?_⟩
  · rw [State.cqWaits] at hnone
    simp only [hon, hroom, hnone, decide_false, Bool.or_self, Bool.false_eq_true, not_false_iff]
  · rw [State.cqWaits] at hdrop
    simp only [Bool.or_eq_true, decide_eq_true_eq, or_assoc]
    exact hdrop

theorem sqTailDoorbell_completes (s : State) (q : Fin 64) (tail : Half) (entries : List (List Byte))
    (hserves : s.servesQueues = true) (hon : s.reg .sqEnable q.val ≠ 0) (htail : tail.toNat < 2 ^ s.reg .sqSize q.val)
    (hentries : s.reg .sqBase q.val % 2 = 0 → entries.length = (tail.toNat + 2 ^ s.reg .sqSize q.val - s.reg .sqTail q.val) %
      2 ^ s.reg .sqSize q.val) :
    Completes (.sqTailDoorbell q tail entries) s fun t =>
      t = ({ s.setReg .sqTail q.val tail.toNat with
          rung := if s.reg .sqBase q.val % 2 = 0 then s.rung ++ entries.map (fun e => (q.val,
            e)) else s.rung }).fetchAll := by
  have hready : s.refusesDoorbells = false := by
    simp only [State.servesQueues, decide_eq_true_eq, stReady] at hserves
    simp [State.refusesDoorbells, State.isIn, stInit]
    omega
  have hexec : exec (.sqTailDoorbell q tail entries) s = execSqTailDoorbell q tail entries s := rfl
  rw [execSqTailDoorbell, if_neg (by simp [hready]), if_neg (by simp [hserves, hon]; omega), if_neg (by simpa using hentries)]
    at hexec
  refine ⟨_, hexec, ?_⟩
  dsimp only
  split
  · rfl
  · rfl

/-- An enabled queue starts both rings at their first entry; what `SQ_STATE` then shows leaves them (R566). -/
theorem enableQueue_reg_of_on {u : State} {q : Nat} (hon : u.reg .sqEnable q = 1) {x : Reg}
    (hx : touchShowQueue (some x) = false) (j : Nat) :
    (enableQueue q u).reg x j =
      (((((u.setReg .sqHead q 0).setReg .sqTail q 0).setReg .cqHead q 0).setReg .cqTail q 0).setReg .cqWraps q 0).reg x j := by
  rw [enableQueue, if_pos hon, showQueue_reg _ _ _ hx]
  rfl

theorem enableQueue_facts (u : State) (q : Nat) :
    (enableQueue q u).reg .sqEnable q = u.reg .sqEnable q ∧ (u.reg .sqEnable q = 1 →
      (enableQueue q u).reg .sqHead q = 0 ∧ (enableQueue q u).reg .sqTail q = 0 ∧ (enableQueue q u).reg .cqHead q = 0 ∧
        (enableQueue q u).reg .cqTail q = 0) := by
  refine ⟨?_, fun hon => ⟨?_, ?_, ?_, ?_⟩⟩
  · by_cases hon : u.reg .sqEnable q = 1
    · simp [enableQueue_reg_of_on hon (by decide : touchShowQueue (some .sqEnable) = false)]
    · rw [enableQueue, if_neg hon, showQueue_reg _ _ _ (by decide)]
  all_goals
    rw [enableQueue_reg_of_on hon (by decide)]
    simp

theorem sqEnableWrite_completes (s : State) (q : Requester) (k : Fin 64) (v : Byte) (haccepts : Accepts s q .sqEnable k [v]) :
    Completes (.sqEnableWrite q k v) s fun t =>
      Answered q (Reg.sqEnable.objAt k) t ∧ t.reg .sqEnable k = v.toNat ∧ (v.toNat = 1 →
        t.reg .sqHead k = 0 ∧ t.reg .sqTail k = 0 ∧ t.reg .cqHead k = 0 ∧ t.reg .cqTail k = 0) := by
  obtain ⟨u, hu, hexec⟩ := exists_accepted (.sqEnableWrite q k v) haccepts rfl rfl (by decide)
  obtain ⟨hkept, hstarts⟩ := enableQueue_facts u k
  have hvalue : u.reg .sqEnable k = v.toNat := by
    rw [hu, State.reg_accepted_same s q k [v] rfl]
    show ofLe [v] % 256 = v.toNat
    simpa [ofLe] using v.isLt
  exact ⟨_, hexec, answered_answer .., hkept.trans hvalue, fun h1 => hstarts (hvalue.trans h1)⟩

/-- Settles O13: the link, device memory, and the queues. -/
theorem hostPortComplete : Obligations.HostPortComplete := by
  refine ⟨hostLinkTraining_completes, hostLinkReset_completes, hostMemRead_completes, hostMemWrite_completes,
    backInvalidateResponse_completes, notificationPost_completes, sqTailDoorbell_completes, ?head, sqEnableWrite_completes⟩
  case head =>
    intro s q head hserves hhead
    exact ⟨_, if_neg (by simp [hserves]; omega), rfl⟩

end Sys2Proof.Machine
end

section
/-! Recovery, takeover and restore (R513, R514, R519, R520). -/

namespace Sys2Proof.Machine

/-- A recovery command that its own rule admits begins, and is answered (R512, R513). -/
theorem recovery_completes {s : State} {q : Requester} {kind pos tstep : Nat} {epoch : Half} {peers : Option Half} {c : Instr}
    (haccepts : Accepts s q .recoveryCmd 0 (recoveryBytes kind pos epoch.toNat tstep))
    (hrule : s.recoveryRefusal kind pos epoch.toNat tstep (peers.map BitVec.toNat) = resOk)
    (hexec : exec c s = .next (s.writeRecovery q kind pos epoch.toNat tstep peers)) :
    Completes c s fun t =>
      Answered q (Reg.recoveryCmd.objAt 0) t ∧ t.reg .recoveryState = 2 ∧ t.reg .jobEpoch = epoch.toNat ∧
        t.recovery = some ⟨kind, pos, epoch.toNat, tstep, []⟩ := by
  obtain ⟨u, -, hrun⟩ := exists_accepted c (eff := fun _ _ u => u.recover kind pos epoch.toNat tstep)
    (own := fun _ => s.recoveryRefusal kind pos epoch.toNat tstep (peers.map BitVec.toNat)) haccepts hexec hrule (by decide)
  exact ⟨_, hrun, answered_answer .., recover_facts u kind pos epoch.toNat tstep epoch.isLt⟩

/-! Takeover (R519). -/

/-- The map of the group once the spare at `spare` has the identity of the node at `lost` (R519). -/
def State.takeoverMap (s : State) (spare lost : Nat) : List Nat :=
  (List.range 17).map fun q =>
    if q = lost then withoutBit (s.reg .groupMap q) 20
    else if q = spare then 2 ^ 20 + s.reg .groupMap lost % 2 ^ 20 else s.reg .groupMap q

theorem takeoverMap_getD (s : State) (spare lost : Nat) {q : Nat} (hq : q < 17) :
    (s.takeoverMap spare lost).getD q 0 = if q = lost then withoutBit (s.reg .groupMap q) 20
      else if q = spare then 2 ^ 20 + s.reg .groupMap lost % 2 ^ 20 else s.reg .groupMap q := by
  simp [State.takeoverMap, List.getD_eq_getElem?_getD, hq]

theorem applyTakeover_eq {s : State} {spare lost : Nat} (hother : lost ≠ s.pos)
    (hspare : bit (s.reg .groupMap spare) 21 = true) :
    s.applyTakeover spare lost =
      ((s.control spare .takeoverAck).changeAll .groupMap 0 (s.takeoverMap spare lost)).loseIdentity lost :=
  if_neg (by simp [hother, hspare])

theorem reg_groupMap_takeover (s : State) (spare lost : Nat) {q : Nat} (hq : q < 17) :
    (((s.control spare .takeoverAck).changeAll .groupMap 0 (s.takeoverMap spare lost)).loseIdentity lost).reg .groupMap q =
      (if q = lost then withoutBit (s.reg .groupMap q) 20
        else if q = spare then 2 ^ 20 + s.reg .groupMap lost % 2 ^ 20 else s.reg .groupMap q) % 2 ^ 32 := by
  rw [loseIdentity_reg _ _ _ (by decide), reg_changeAll (by decide) (by simpa [State.takeoverMap] using hq),
    takeoverMap_getD s spare lost hq]
  rfl

theorem takeoverUpdateMessage_completes (s : State) (q : Fin 17) (h : Header) (lost : Fin 17) (hheard : Heard s q.val h)
    (hother : lost.val ≠ s.pos) (hspare : bit (s.reg .groupMap (s.cameFrom q.val h)) 21 = true)
    (hfrom : s.cameFrom q.val h < 17) :
    Completes (.takeoverUpdateMessage q h lost) s fun t =>
      t.reg .groupMap lost = withoutBit (s.reg .groupMap lost) 20 % 2 ^ 32 ∧
        (s.cameFrom q.val h ≠ lost.val →
          t.reg .groupMap (s.cameFrom q.val h) = 2 ^ 20 + s.reg .groupMap lost % 2 ^ 20) ∧
        ∃ m, t = ((s.control (s.cameFrom q.val h) .takeoverAck).changeAll .groupMap 0 m).loseIdentity lost.val := by
  have hepoch : (s.elsewhere h || s.isIn stFaulted || s.epochOk h) = true := by
    obtain ⟨-, hepoch, -⟩ := hheard
    simp [hepoch]
  have hexec : exec (.takeoverUpdateMessage q h lost) s = execTakeoverUpdateMessage q h lost s := rfl
  rw [execTakeoverUpdateMessage, takeControl_of_heard hheard, if_pos hepoch, applyTakeover_eq hother hspare] at hexec
  refine ⟨_, hexec, ?_, fun hne => ?_, _, rfl⟩
  · rw [reg_groupMap_takeover _ _ _ lost.isLt, if_pos rfl]
  · rw [reg_groupMap_takeover _ _ _ hfrom, if_neg hne, if_pos rfl]
    omega

theorem takeoverAcknowledgement_completes (s : State) (v : Arrival) (r : Recovery) (hheard : Heard s v.pos.val v.h)
    (hrecovery : s.recovery = some r) (hkind : r.kind = 2) (hwaits : r.acknowledged s = false)
    (hnew : r.acks.contains (s.cameFrom v.pos.val v.h) = false) :
    Completes (.takeoverAcknowledgement v) s fun t =>
      t.recovery = some { r with acks := r.acks ++ [s.cameFrom v.pos.val v.h] } := by
  have hexec : exec (.takeoverAcknowledgement v) s = execTakeoverAcknowledgement v s := rfl
  rw [execTakeoverAcknowledgement, takeControl_of_heard hheard, hrecovery] at hexec
  dsimp only at hexec
  rw [if_neg (by simp only [hkind, hwaits, hnew]; decide)] at hexec
  refine ⟨_, hexec, ?_⟩
  split
  · exact recovery_takeIdentity ..
  · rfl

/-! The restore (R513, R514, R516). -/

theorem restoreComplete_completes (s : State) (bad : Bool) (peers : Option Image) (r : Recovery)
    (hrecovery : s.recovery = some r) (hrestores : s.reg .recoveryState = 2) (hacked : r.kind = 2 → r.acknowledged s = true) :
    Completes (.restoreComplete bad peers) s fun t =>
      (∀ x, ((s.imagesOf r.kind r.tstep).find? fun x => !bad && s.restorable x) = some x →
        t = (s.copyBack x).applyImage x.image) ∧
        (((s.imagesOf r.kind r.tstep).find? fun x => !bad && s.restorable x) = none →
          (peers = none → t = s.failRestore 5) ∧
          (∀ i, peers = some i → (s.snapEntries.bind fun es => placeImage es i) = none → t = s.failRestore 6) ∧
          (∀ i ws, peers = some i → (s.snapEntries.bind fun es => placeImage es i) = some ws →
            t = (s.writes ws).applyImage i)) := by
  have hready : ¬ (s.reg .recoveryState ≠ 2 || (r.kind = 2 && !r.acknowledged s)) = true := by
    simpa [hrestores] using hacked
  have hexec : exec (.restoreComplete bad peers) s = execRestoreComplete bad peers s := rfl
  unfold execRestoreComplete at hexec
  rw [hrecovery] at hexec
  dsimp only at hexec
  rw [if_neg hready] at hexec
  cases hslot : (s.imagesOf r.kind r.tstep).find? fun x => !bad && s.restorable x with
  | some x =>
    rw [hslot] at hexec
    refine ⟨_, hexec, fun y hy => ?_, nofun⟩
    cases hy
    rfl
  | none =>
    rw [hslot] at hexec
    dsimp only at hexec
    cases peers with
    | none => exact ⟨_, hexec, nofun, fun _ => ⟨fun _ => rfl, nofun, nofun⟩⟩
    | some i =>
      dsimp only at hexec
      cases hplaced : s.snapEntries.bind fun es => placeImage es i with
      | none =>
        rw [hplaced] at hexec
        refine ⟨_, hexec, nofun, fun _ => ⟨nofun, fun _ _ _ => rfl, fun j ws hj hws => ?_⟩⟩
        cases hj
        rw [hplaced] at hws
        cases hws
      | some ws =>
        rw [hplaced] at hexec
        refine ⟨_, hexec, nofun, fun _ => ⟨nofun, fun j hj hnone => ?_, fun j vs hj hws => ?_⟩⟩
        · cases hj
          rw [hplaced] at hnone
          cases hnone
        · cases hj
          rw [hplaced] at hws
          cases hws
          rfl

/-- Settles O19: the three recovery commands by what a recovery begins with, then the takeover and the restore. -/
theorem recoveryComplete : Obligations.RecoveryComplete :=
  ⟨fun _ _ _ _ _ haccepts hrule => recovery_completes haccepts hrule rfl,
    fun _ _ _ _ _ _ haccepts hrule => recovery_completes haccepts hrule rfl,
    fun _ _ _ _ _ haccepts hrule => recovery_completes haccepts hrule rfl, takeoverUpdateMessage_completes,
    takeoverAcknowledgement_completes, restoreComplete_completes⟩

end Sys2Proof.Machine
end

section
/-! Aligned ranges over the channels (R306): the channel of the unit `u` of an aligned block of 128 KiB is `u` exclusive-or a hash of
the block, so that each block gives every channel one unit. -/

namespace Sys2Proof.Machine

/-- What the channel hash of R305 takes from the within-channel index. -/
def indexHash (i : Nat) : Nat := (i % 1024) ^^^ (i / 2 ^ 10 % 1024) ^^^ (i / 2 ^ 20 % 16)

theorem indexHash_lt (i : Nat) : indexHash i < 1024 := by
  have h1 : i % 1024 < 2 ^ 10 := Nat.mod_lt _ (by decide)
  have h2 : i / 2 ^ 10 % 1024 < 2 ^ 10 := Nat.mod_lt _ (by decide)
  have h3 : i / 2 ^ 20 % 16 < 2 ^ 10 := by omega
  exact Nat.xor_lt_two_pow (Nat.xor_lt_two_pow h1 h2) h3

theorem primaryChannel_unit (n k : Nat) :
    primaryChannel (131072 * n + 128 * k) = k % 1024 ^^^ indexHash (n + k / 1024) := by
  have hunit : (131072 * n + 128 * k) / 128 = 1024 * n + k := by omega
  have hlow : (1024 * n + k) % 1024 = k % 1024 := by omega
  have hindex : (1024 * n + k) / 1024 = n + k / 1024 := by omega
  simp only [primaryChannel, indexHash, hunit, hlow, hindex, Nat.xor_assoc]

/-- A block of 1,024 units has one in each channel. -/
theorem countP_channel_block (h ch : Nat) (hh : h < 1024) (hch : ch < 1024) :
    (List.range 1024).countP (fun u => decide (u ^^^ h = ch)) = 1 := by
  have hmem : ch ^^^ h ∈ List.range 1024 := List.mem_range.2 (Nat.xor_lt_two_pow (n := 10) hch hh)
  rw [← List.count_eq_one_of_mem List.nodup_range hmem, List.count]
  refine List.countP_congr fun u _ => ?_
  simp only [decide_eq_true_eq, beq_iff_eq]
  constructor
  · rintro rfl
    rw [Nat.xor_assoc, Nat.xor_self, Nat.xor_zero]
  · rintro rfl
    rw [Nat.xor_assoc, Nat.xor_self, Nat.xor_zero]

theorem countP_channel_blocks (n m ch : Nat) (hch : ch < 1024) :
    (List.range (1024 * m)).countP (fun k => decide (primaryChannel (131072 * n + 128 * k) = ch)) = m := by
  induction m with
  | zero => rfl
  | succ m ih =>
    have hblock : (List.range 1024).countP
        ((fun k => decide (primaryChannel (131072 * n + 128 * k) = ch)) ∘ (1024 * m + ·)) = 1 := by
      rw [← countP_channel_block (indexHash (n + m)) ch (indexHash_lt _) hch]
      refine List.countP_congr fun u hu => ?_
      have hu := List.mem_range.1 hu
      have hlow : (1024 * m + u) % 1024 = u := by omega
      have hindex : (1024 * m + u) / 1024 = m := by omega
      rw [Function.comp_apply, primaryChannel_unit, hlow, hindex]
    rw [Nat.mul_succ, List.range_add, List.countP_append, List.countP_map, ih, hblock]

/-- Settles O50: by the blocks of 128 KiB, in each of which the exclusive-or with the hash of the block permutes the channels. -/
theorem rangesSpreadOverChannels : Obligations.RangesSpreadOverChannels := by
  unfold Obligations.RangesSpreadOverChannels
  refine ⟨?even, ?distinct, by decide +kernel⟩
  case even =>
    intro n m ch hch _
    rw [← List.countP_eq_length_filter, countP_channel_blocks n m ch hch]
    omega
  case distinct =>
    intro i u v hu hv h
    rw [primaryChannel_unit, primaryChannel_unit, Nat.div_eq_of_lt hu, Nat.div_eq_of_lt hv, Nat.mod_eq_of_lt hu,
      Nat.mod_eq_of_lt hv] at h
    exact Nat.xor_right_injective.eq_iff.1 (by rwa [Nat.xor_comm, Nat.xor_comm v] at h)

end Sys2Proof.Machine
end

section
/-! What the power inputs, the clocks, the samples and the requests leave (R38, R613, R619, R635, R638): the registers and the memory
from what each command may touch; an entry to FAULTED writes a completion for a JOB_START that waits alone. -/

namespace Sys2Proof.Machine

theorem sparePllLockTimeout_memKept {k : Fin 48} {s t : State} (h : s.startWaits = false)
    (ht : exec (.sparePllLockTimeout k) s = .next t) : MemKept s t := by
  have hexec : exec (.sparePllLockTimeout k) s = execSparePllLockTimeout k s := rfl
  rw [hexec, execSparePllLockTimeout] at ht
  split at ht
  · cases ht
    exact enterFaulted_memKept h
  · cases ht
    exact fun _ => rfl

theorem hardwareThermalTrip_memKept {sensor : Fin 128} {s t : State} (h : s.startWaits = false)
    (ht : exec (.hardwareThermalTrip sensor) s = .next t) : MemKept s t := by
  by_cases hpowered : s.reg .nodeState ≠ 0
  · obtain ⟨u, hu, -, -, -, -, -, -, hkept⟩ := hardwareThermalTrip_completes s sensor hpowered
    cases ht.symm.trans hu
    exact hkept h
  · have hexec : exec (.hardwareThermalTrip sensor) s = .next s := if_pos (by simpa [State.powered] using hpowered)
    cases ht.symm.trans hexec
    exact fun _ => rfl

/-- Settles O36: what a command may touch is in the list of its clause, and where the clause says so node memory is not in it. -/
theorem powerAndClockFrames : Obligations.PowerAndClockFrames := by
  unfold Obligations.PowerAndClockFrames
  refine ⟨?crystalStable, ?crystalFail, ?mclkStop, ?vinMain, ?pwrOk, ?railOut, ?railsIn, ?released, ?pllALock, ?pllLoss, ?muxHang,
    ?sparePll, ?switchComplete, ?powerSample, ?stepUp, ?arrayStart, ?arrayEnd, ?thermalSample, ?trip, ?lullDeadline, ?thermalFloor,
    ?coolantLow, ?coolantClear⟩
  case crystalStable => exact leaves_of_touches (T := touchExecCrystalStable) rfl (by decide +kernel) (by decide +kernel)
  case crystalFail => exact leaves_of_touches (T := touchExecCrystalFailTimeout) rfl (by decide +kernel) (by decide +kernel)
  case mclkStop => exact leavesRegs_of_touches (T := touchExecMclkStop) rfl (by decide +kernel)
  case vinMain => exact leaves_of_touches (T := touchExecVinMainInRange) rfl (by decide +kernel) (by decide +kernel)
  case pwrOk => exact fun _ => leaves_of_touches (T := touchExecPwrOkAsserted) rfl (by decide +kernel) (by decide +kernel)
  case railOut => exact fun _ => leavesRegs_of_touches (T := touchExecStackRailOutOfRange) rfl (by decide +kernel)
  case railsIn => exact leaves_of_touches (T := touchExecStackRailsInRange) rfl (by decide +kernel) (by decide +kernel)
  case released => exact leaves_of_touches (T := touchExecResetReleased) rfl (by decide +kernel) (by decide +kernel)
  case pllALock => exact fun _ _ => leaves_of_touches (T := touchExecPllALockTimeout) rfl (by decide +kernel) (by decide +kernel)
  case pllLoss => exact fun _ => leaves_of_touches (T := touchExecPllLossOfLock) rfl (by decide +kernel) (by decide +kernel)
  case muxHang => exact fun _ _ => leavesRegs_of_touches (T := touchExecClockMuxHang) rfl (by decide +kernel)
  case sparePll =>
    exact fun _ s t ht => ⟨leavesRegs_of_touches (T := touchExecSparePllLockTimeout) rfl (by decide +kernel) s t ht,
      fun h => sparePllLockTimeout_memKept h ht⟩
  case switchComplete => exact fun _ => leaves_of_touches (T := touchExecClockSwitchComplete) rfl (by decide +kernel) (by decide +kernel)
  case powerSample => exact fun _ _ _ => leavesRegs_of_touches (T := touchExecPowerSample) rfl (by decide +kernel)
  case stepUp => exact leaves_of_touches (T := touchExecThrottleStepUp) rfl (by decide +kernel) (by decide +kernel)
  case arrayStart => exact fun _ => leavesRegs_of_touches (T := touchExecArrayThrottleStart) rfl (by decide +kernel)
  case arrayEnd => exact leaves_of_touches (T := touchExecArrayThrottleEnd) rfl (by decide +kernel) (by decide +kernel)
  case thermalSample => exact fun _ => leavesRegs_of_touches (T := touchExecThermalSample) rfl (by decide +kernel)
  case trip =>
    exact fun _ s t ht => ⟨leavesRegs_of_touches (T := touchExecHardwareThermalTrip) rfl (by decide +kernel) s t ht,
      fun h => hardwareThermalTrip_memKept h ht⟩
  case lullDeadline => exact leavesRegs_of_touches (T := touchExecLullDeadlineExpiry) rfl (by decide +kernel)
  case thermalFloor => exact fun _ => leavesRegs_of_touches (T := touchExecThermalFloorTimeout) rfl (by decide +kernel)
  case coolantLow => exact leavesRegs_of_touches (T := touchExecCoolantLow) rfl (by decide +kernel)
  case coolantClear => exact leaves_of_touches (T := touchExecCoolantClear) rfl (by decide +kernel) (by decide +kernel)

end Sys2Proof.Machine
end

section
/-! What the jobs, the stacks and the wrapper leave (R22, R300, R328, R548): the registers and the memory from what each command may
touch. -/

namespace Sys2Proof.Machine

/-- The registers that the commands of the jobs, of the roster, of the regions and of the contexts may touch. They are one
statement, as the kernel then evaluates what they share once. -/
theorem jobCommands_touchOnly :
    touchesOnly touchExecJobLoad (.jobActive :: .logicalId :: .lbayMap :: .tableState :: .raccRound :: .tstep :: .xwState ::
      .xwHoldNs :: .lastSnapTstep :: .sqState :: .rosterLlmAtLoad :: .lullHeld :: .raccDone :: .xwReceived :: .cqTail :: .cqWraps
      :: .sqHead :: .snapJoined :: .snapGen :: (writeRegs ++ auditRegs)) ∧
    touchesOnly touchExecJobStart (.nodeState :: .tableState :: .hartState :: .collInstances :: .collDropped :: .collGateWait ::
      .collRetainFull :: .recoveryState :: .sqState :: .jobRunning :: .startPending :: .lullHeld :: .fenceJoined :: .fenceDone ::
      .hartTurn :: .cqTail :: .cqWraps :: .sqHead :: errorRegs) ∧
    touchesOnly touchExecJobStartTimeout (.sqState :: .startPending :: .fenceJoined :: .cqTail :: .cqWraps :: .sqHead ::
      writeRegs) ∧
    touchesOnly touchExecJobEnd (.stateRequest :: .tableState :: .hartState :: .jobEpoch :: .retiringEpoch :: .regionCount ::
      .regionTable :: .xwState :: .xwHoldNs :: .slotInfo :: .slotValid :: .slotDrained :: .recoveryState :: .notifyDropped ::
      .sqState :: .jobRunning :: .startPending :: .teardownPending :: .mailTail :: .fenceJoined :: .fenceHeld :: .fenceDone ::
      .cqTail :: .cqWraps :: .sqHead :: errorRegs) ∧
    touchesOnly touchExecTeardownWipeComplete [.rosterCount, .hostHeldLines, .backInvalidates, .teardownPending] ∧
    touchesOnly touchExecCopyToDevice (.sqState :: .cqTail :: .cqWraps :: .sqHead :: writeRegs) ∧
    touchesOnly touchExecCopyFromDevice (.sqState :: .cqTail :: .cqWraps :: .sqHead :: writeRegs) ∧
    touchesOnly touchExecRosterRegister (.rosterCount :: .sqState :: .cqTail :: .cqWraps :: .sqHead :: writeRegs) ∧
    touchesOnly touchExecRosterDeregister (.rosterCount :: .sqState :: .cqTail :: .cqWraps :: .sqHead :: writeRegs) ∧
    touchesOnly touchExecRegionRegister (.regionCount :: .regionTable :: .sqState :: .cqTail :: .cqWraps :: .sqHead :: (writeRegs
      ++ auditRegs)) ∧
    touchesOnly touchExecRegionDeregister (.regionCount :: .regionTable :: .sqState :: .cqTail :: .cqWraps :: .sqHead ::
      (writeRegs ++ auditRegs)) ∧
    touchesOnly touchExecBayPreempt (.preemptsDeferred :: .sqState :: .cqTail :: .cqWraps :: .sqHead :: errorRegs) ∧
    touchesOnly touchExecBayResume (.lbayMap :: .tableState :: .stepsIssued :: .windowMisses :: .hartState :: .recoveryState ::
      .sqState :: .lullHeld :: .cqTail :: .cqWraps :: .sqHead :: errorRegs) ∧
    touchesOnly touchExecContextSaveComplete (.tableState :: .hartState :: .recoveryState :: .sqState :: .lullHeld :: .cqTail ::
      .cqWraps :: .sqHead :: .ctxOf :: errorRegs) ∧
    touchesOnly touchExecPreemptDeferralExpiry (.sqState :: .cqTail :: .cqWraps :: .sqHead :: errorRegs) := by
  decide +kernel

/-- The registers that the commands of the channels, of the slices and of the narrow windows may touch. They are one statement, as
the kernel then evaluates what they share once. -/
theorem stackCommands_touchOnly :
    touchesOnly touchExecChannelParityReplay (.channelState :: .retrains :: errorRegs) ∧
    touchesOnly touchExecCalibrationDrift (.channelState :: .retrains :: errorRegs) ∧
    touchesOnly touchExecChannelRetrainComplete (.nodeState :: .stateRequest :: .initStage :: .tableState :: .hartState ::
      .channelState :: .eccCorrectedCnt :: .eccUncorrCnt :: .xwState :: .xwHoldNs :: .selftestRuns :: .recoveryState :: .sqState
      :: .jobRunning :: .startPending :: .lullHeld :: .cqTail :: .cqWraps :: .sqHead :: .initEnded :: errorRegs) ∧
    touchesOnly touchExecPatternTestComplete (.nodeState :: .stateRequest :: .initStage :: .channelState :: .xwState :: .xwHoldNs
      :: .recoveryState :: .sqState :: .jobRunning :: .startPending :: .cqTail :: .cqWraps :: .sqHead :: .initEnded :: errorRegs) ∧
    touchesOnly touchExecChannelMapoutSwitch (.nodeState :: .degradeCause :: .tableState :: .hartState :: .stackTop :: .allocTop
      :: .channelsOut :: .mapoutOrder :: .migrationLeft :: .channelState :: .slotInfo :: .slotValid :: .slotDrained :: .shardDir
      :: .recoveryState :: .lullHeld :: errorRegs) ∧
    touchesOnly touchExecStackRead (.nodeState :: .stateRequest :: .initStage :: .tableState :: .hartState :: .channelState ::
      .eccCorrectedCnt :: .eccUncorrCnt :: .llmHits :: .llmMisses :: .llmBypassed :: .xwState :: .xwHoldNs :: .selftestRuns ::
      .recoveryState :: .sqState :: .jobRunning :: .startPending :: .lullHeld :: .cqTail :: .cqWraps :: .sqHead :: .initEnded ::
      errorRegs) ∧
    touchesOnly touchExecStackWrite (.nodeState :: .stateRequest :: .initStage :: .tableState :: .hartState :: .channelState ::
      .eccCorrectedCnt :: .eccUncorrCnt :: .llmHits :: .llmMisses :: .xwState :: .xwHoldNs :: .selftestRuns :: .recoveryState ::
      .sqState :: .jobRunning :: .startPending :: .lullHeld :: .cqTail :: .cqWraps :: .sqHead :: .initEnded :: errorRegs) ∧
    touchesOnly touchExecLlmFillComplete (.nodeState :: .stateRequest :: .initStage :: .tableState :: .hartState :: .channelState
      :: .eccCorrectedCnt :: .eccUncorrCnt :: .xwState :: .xwHoldNs :: .selftestRuns :: .recoveryState :: .sqState :: .jobRunning
      :: .startPending :: .lullHeld :: .cqTail :: .cqWraps :: .sqHead :: .initEnded :: errorRegs) ∧
    touchesOnly touchExecNarrowRequest (.nodeState :: .stateRequest :: .initStage :: .tableState :: .hartState :: .channelState ::
      .eccCorrectedCnt :: .eccUncorrCnt :: .narrowRequests :: .narrowFullStalls :: .xwState :: .xwHoldNs :: .selftestRuns ::
      .recoveryState :: .sqState :: .jobRunning :: .startPending :: .lullHeld :: .cqTail :: .cqWraps :: .sqHead :: .initEnded ::
      errorRegs) ∧
    touchesOnly touchExecCoalescingWaitExpiry (.nodeState :: .stateRequest :: .initStage :: .tableState :: .hartState ::
      .channelState :: .eccCorrectedCnt :: .eccUncorrCnt :: .narrowRequests :: .narrowAtoms :: .narrowCoalesced :: .xwState ::
      .xwHoldNs :: .selftestRuns :: .recoveryState :: .sqState :: .jobRunning :: .startPending :: .lullHeld :: .cqTail :: .cqWraps
      :: .sqHead :: .initEnded :: errorRegs) ∧
    touchesOnly touchExecScrubLine (.nodeState :: .stateRequest :: .initStage :: .tableState :: .hartState :: .channelState ::
      .eccCorrectedCnt :: .eccUncorrCnt :: .scrubPasses :: .xwState :: .xwHoldNs :: .selftestRuns :: .slotInfo :: .slotValid ::
      .slotDrained :: .shardDir :: .recoveryState :: .sqState :: .jobRunning :: .startPending :: .lullHeld :: .cqTail :: .cqWraps
      :: .sqHead :: .initEnded :: errorRegs) ∧
    touchesOnly touchExecLlmMbistComplete (.nodeState :: .degradeCause :: .stateRequest :: .initStage :: .tableState :: .hartState
      :: .channelState :: .eccCorrectedCnt :: .eccUncorrCnt :: .llmScratchWays :: .sliceState :: .llmHits :: .llmMisses ::
      .llmBypassed :: .sliceSparesLeft :: .narrowRequests :: .narrowFullStalls :: .xwState :: .xwHoldNs :: .selftestRuns ::
      .recoveryState :: .sqState :: .jobRunning :: .startPending :: .lullHeld :: .cqTail :: .cqWraps :: .sqHead :: .sliceMap ::
      .initEnded :: errorRegs) := by
  decide +kernel

/-- The channel `ch` retrains no more. -/
def State.leaveRetrain (s : State) (ch : Nat) : State :=
  let s := s.setChan ch { s.chan ch with retraining := none }
  if s.chanState ch = csRetraining then s.change .channelState ch csActive else s

/-- The pattern test of the channel `ch` starts, for the record `seq` of its retrain. -/
def State.testRetrained (s : State) (ch seq : Nat) : State :=
  let s := s.setChan ch { s.chan ch with testCode := 8 }
  (s.change .channelState ch csTesting).startTest 3 ch 0 seq

/-- The channel `ch` as its retrain has left it, before what waited for it is released (R308, R309). -/
def State.retrained (s : State) (ch : Nat) (ok : Bool) (seq at1 : Nat) : State :=
  let u := s.leaveRetrain ch
  let test := !ok || threeWithin u.now 1000000000 (s.chan ch).retrains
  let v := u.settleError seq (if test then 0 else 1) (u.now - at1)
  if test && v.chanState ch = csActive then v.testRetrained ch seq else v

theorem exec_channelRetrainComplete {s : State} {ch : Fin 1024} {seq at1 : Nat} (ok : Bool)
    (h : (s.chan ch.val).retraining = some (seq, at1)) :
    exec (.channelRetrainComplete ch ok) s = .next ((s.retrained ch.val ok seq at1).releaseChan ch.val) := by
  have hexec : exec (.channelRetrainComplete ch ok) s = execChannelRetrainComplete ch ok s := rfl
  rw [hexec]
  unfold execChannelRetrainComplete
  simp only [h]
  rfl

/-- `t` has the requests that wait for channels, and the memory, of `s`. -/
structure SameQueuesAndMem (s t : State) : Prop where
  queue : t.chanQueue = s.chanQueue
  stalled : t.chanStalled = s.chanStalled
  mem : t.mem = s.mem

theorem SameQueuesAndMem.trans {s t u : State} (h : SameQueuesAndMem s t) (h' : SameQueuesAndMem t u) : SameQueuesAndMem s u :=
  ⟨h'.queue.trans h.queue, h'.stalled.trans h.stalled, h'.mem.trans h.mem⟩

theorem SameQueuesAndMem.of_logged {s t : State} (h : Logged s t) : SameQueuesAndMem s t := by
  obtain ⟨_, _, _, _, rfl⟩ := h
  exact ⟨rfl, rfl, rfl⟩

theorem SameQueuesAndMem.ite {c : Prop} [Decidable c] {s a b : State} (ha : SameQueuesAndMem s a) (hb : SameQueuesAndMem s b) :
    SameQueuesAndMem s (if c then a else b) := by
  split
  · exact ha
  · exact hb

theorem sameQueuesAndMem_leaveRetrain (s : State) (ch : Nat) : SameQueuesAndMem s (s.leaveRetrain ch) :=
  .ite (.trans (t := s.setChan ch { s.chan ch with retraining := none }) ⟨rfl, rfl, rfl⟩ (.of_logged (logged_change ..)))
    ⟨rfl, rfl, rfl⟩

theorem sameQueuesAndMem_testRetrained (s : State) (ch seq : Nat) : SameQueuesAndMem s (s.testRetrained ch seq) := by
  have hchange := logged_change (s.setChan ch { s.chan ch with testCode := 8 }) .channelState ch csTesting
  exact .trans (t := s.setChan ch { s.chan ch with testCode := 8 }) ⟨rfl, rfl, rfl⟩
    ((SameQueuesAndMem.of_logged hchange).trans ⟨rfl, rfl, rfl⟩)

theorem sameQueuesAndMem_retrained (s : State) (ch : Nat) (ok : Bool) (seq at1 : Nat) :
    SameQueuesAndMem s (s.retrained ch ok seq at1) := by
  have hleave := sameQueuesAndMem_leaveRetrain s ch
  have hsettle : ∀ o p, SameQueuesAndMem s ((s.leaveRetrain ch).settleError seq o p) := fun _ _ => hleave.trans ⟨rfl, rfl, rfl⟩
  exact .ite ((hsettle ..).trans (sameQueuesAndMem_testRetrained ..)) (hsettle ..)

/-- A channel that nothing waits for is released without a write of memory. -/
theorem releaseChan_mem_of_idle {s : State} {ch : Nat} (h : ∀ e ∈ s.chanQueue ++ s.chanStalled, e.1 ≠ ch) :
    (s.releaseChan ch).mem = s.mem := by
  have hqueue : (s.chanQueue.filter fun e => decide (e.1 = ch)) = [] :=
    List.filter_eq_nil_iff.2 fun e he => by simpa using h e (List.mem_append_left _ he)
  have hstalled : (s.chanStalled.filter fun e => decide (e.1 = ch)) = [] :=
    List.filter_eq_nil_iff.2 fun e he => by simpa using h e (List.mem_append_right _ he)
  unfold State.releaseChan
  simp only [hqueue, hstalled, List.map_nil, List.foldl_nil]

theorem channelRetrainComplete_memKept {ch : Fin 1024} {ok : Bool} {s t : State}
    (h : ∀ e ∈ s.chanQueue ++ s.chanStalled, e.1 ≠ ch.val) (ht : exec (.channelRetrainComplete ch ok) s = .next t) :
    MemKept s t := by
  cases hretraining : (s.chan ch.val).retraining with
  | none =>
    have hexec : exec (.channelRetrainComplete ch ok) s = execChannelRetrainComplete ch ok s := rfl
    rw [hexec] at ht
    unfold execChannelRetrainComplete at ht
    simp only [hretraining] at ht
    cases ht
    exact fun _ => rfl
  | some r =>
    obtain ⟨seq, at1⟩ := r
    cases ht.symm.trans (exec_channelRetrainComplete ok hretraining)
    have hsame := sameQueuesAndMem_retrained s ch.val ok seq at1
    have hidle := releaseChan_mem_of_idle (s := s.retrained ch.val ok seq at1) (ch := ch.val)
      (by rw [hsame.queue, hsame.stalled]; exact h)
    exact fun a => State.byte_congr (hidle.trans hsame.mem) a

/-- Settles O39: what a command may touch is in the list of its clause, and where the clause says so node memory is not in it; a
retrain alone has a condition of memory. -/
theorem jobAndMemoryFrames : Obligations.JobAndMemoryFrames := by
  unfold Obligations.JobAndMemoryFrames
  obtain ⟨hJobLoad, hJobStart, hJobStartTimeout, hJobEnd, hTeardownWipeComplete, hCopyToDevice, hCopyFromDevice, hRosterRegister,
    hRosterDeregister, hRegionRegister, hRegionDeregister, hBayPreempt, hBayResume, hContextSaveComplete, hPreemptDeferralExpiry⟩
    := jobCommands_touchOnly
  obtain ⟨hChannelParityReplay, hCalibrationDrift, hChannelRetrainComplete, hPatternTestComplete, hChannelMapoutSwitch,
    hStackRead, hStackWrite, hLlmFillComplete, hNarrowRequest, hCoalescingWaitExpiry, hScrubLine, hLlmMbistComplete⟩ :=
    stackCommands_touchOnly
  refine ⟨?jobLoad, ?jobStart, ?startTimeout, ?jobEnd, ?teardownWipe, ?copyTo, ?copyFrom, ?rosterRegister, ?rosterDeregister,
    ?regionRegister, ?regionDeregister, ?preempt, ?resume, ?contextSave, ?deferral, ?replayOrDrift, ?retrain, ?softRemap,
    ?patternTest, ?mapoutSwitch, ?migration, ?stackRead, ?stackWrite, ?llmFill, ?narrowRequest, ?coalescing, ?scrub, ?mbist,
    ?sweep, ?repairStart, ?fusePulse, ?wrapperSelect, ?journalRead, ?remapRead, ?remapWrite, ?channelTest, ?readouts, ?softPpr⟩
  case jobLoad => exact fun _ => leavesRegs_of_touches rfl hJobLoad
  case jobStart => exact leavesRegs_of_touches rfl hJobStart
  case startTimeout => exact leavesRegs_of_touches rfl hJobStartTimeout
  case jobEnd => exact leavesRegs_of_touches rfl hJobEnd
  case teardownWipe => exact leavesRegs_of_touches rfl hTeardownWipeComplete
  case copyTo => exact fun _ => leavesRegs_of_touches rfl hCopyToDevice
  case copyFrom => exact leavesRegs_of_touches rfl hCopyFromDevice
  case rosterRegister => exact fun _ _ _ => leavesRegs_of_touches rfl hRosterRegister
  case rosterDeregister => exact leavesRegs_of_touches rfl hRosterDeregister
  case regionRegister => exact fun _ => leavesRegs_of_touches rfl hRegionRegister
  case regionDeregister => exact leavesRegs_of_touches rfl hRegionDeregister
  case preempt => exact leavesRegs_of_touches rfl hBayPreempt
  case resume => exact leavesRegs_of_touches rfl hBayResume
  case contextSave => exact fun _ => leavesRegs_of_touches rfl hContextSaveComplete
  case deferral => exact fun _ => leavesRegs_of_touches rfl hPreemptDeferralExpiry
  case replayOrDrift =>
    intro ch c hc
    obtain rfl | rfl : c = .channelParityReplay ch ∨ c = .calibrationDrift ch := by simpa using hc
    · exact leavesRegs_of_touches rfl hChannelParityReplay
    · exact leavesRegs_of_touches rfl hCalibrationDrift
  case retrain =>
    intro ch ok s t ht
    have hregs := leavesRegs_of_touches (c := .channelRetrainComplete ch ok) rfl hChannelRetrainComplete
    exact ⟨hregs s t ht, fun h => channelRetrainComplete_memKept h ht⟩
  case softRemap => exact fun _ => leaves_of_touches (T := touchExecSoftRemapComplete) rfl (by decide +kernel) (by decide +kernel)
  case patternTest => exact fun _ _ => leavesRegs_of_touches rfl hPatternTestComplete
  case mapoutSwitch => exact leavesRegs_of_touches rfl hChannelMapoutSwitch
  case migration => exact leaves_of_touches (T := touchExecMigrationComplete) rfl (by decide +kernel) (by decide +kernel)
  case stackRead => exact fun _ _ _ _ _ => leavesRegs_of_touches rfl hStackRead
  case stackWrite => exact fun _ _ _ => leavesRegs_of_touches rfl hStackWrite
  case llmFill => exact fun _ _ => leavesRegs_of_touches rfl hLlmFillComplete
  case narrowRequest => exact fun _ _ _ _ => leavesRegs_of_touches rfl hNarrowRequest
  case coalescing => exact fun _ _ => leavesRegs_of_touches rfl hCoalescingWaitExpiry
  case scrub => exact fun _ _ _ _ _ _ => leavesRegs_of_touches rfl hScrubLine
  case mbist => exact fun _ _ _ => leavesRegs_of_touches rfl hLlmMbistComplete
  case sweep => exact fun _ _ => leaves_of_touches (T := touchExecSliceSweepComplete) rfl (by decide +kernel) (by decide +kernel)
  case repairStart =>
    exact fun _ => leaves_of_touches (T := touchExecPermanentRepairStart) rfl (by decide +kernel) (by decide +kernel)
  case fusePulse =>
    exact fun _ _ => leaves_of_touches (T := touchExecFusePulseComplete) rfl (by decide +kernel) (by decide +kernel)
  case wrapperSelect =>
    exact fun _ _ => leaves_of_touches (T := touchExecWrapperSelect) rfl (by decide +kernel) (by decide +kernel)
  case journalRead => exact fun _ => leaves_of_touches (T := touchExecJournalRead) rfl (by decide +kernel) (by decide +kernel)
  case remapRead => exact fun _ _ => leaves_of_touches (T := touchExecRemapRead) rfl (by decide +kernel) (by decide +kernel)
  case remapWrite => exact fun _ _ => leaves_of_touches (T := touchExecRemapWrite) rfl (by decide +kernel) (by decide +kernel)
  case channelTest => exact fun _ _ => leaves_of_touches (T := touchExecChannelTest) rfl (by decide +kernel) (by decide +kernel)
  case readouts =>
    exact forall_leaves_of_touches (Ts := [touchExecDraughtStatus, touchExecHbm4DeviceIdentity, touchExecHbm4TemperatureReadout,
        touchExecHbm4ModeRegisterDump])
      rfl (by decide +kernel)
  case softPpr => exact fun _ => leaves_of_touches (T := touchExecHbm4SoftPpr) rfl (by decide +kernel) (by decide +kernel)

end Sys2Proof.Machine
end

section
/-! What resets, the time-step boundary, repairs and messages leave (R322, R328, R524, R570, R585, R629). -/

namespace Sys2Proof.Machine

/-! Resets: registers of the domains that they do not clear, the stacks, the slots and the shards. -/

/-- Of the registers, the changes that `T` names are in the reset domains `ds` or in `rs`. -/
def touchesDomains (T : Option Reg → Bool) (ds : List Domain) (rs : List Reg) : Bool :=
  Reg.all.all fun r => !T (some r) || ds.contains r.info.domain || rs.contains r

theorem reg_of_touchesDomains {c : Instr} {T : Option Reg → Bool} {ds : List Domain} {rs : List Reg}
    (hc : Instr.touches c = T) (h : touchesDomains T ds rs = true) {s t : State} (ht : exec c s = .next t) {r : Reg}
    (hd : r.info.domain ∉ ds) (hr : r ∉ rs) (i : Nat) : t.reg r i = s.reg r i := by
  have hleft := List.all_eq_true.1 h r (Reg.mem_all r)
  refine (frame_exec ht).1 r ?_ i
  simpa [hd, hr, hc] using hleft

/-- `t` has the bytes of the stacks, the slots and the shards of `s`. -/
structure StacksKept (s t : State) : Prop where
  low : ∀ a, a < 0x20000000000 → t.byte a = s.byte a
  slotA : t.slotA = s.slotA
  slotB : t.slotB = s.slotB
  shards : t.shards = s.shards

theorem StacksKept.trans {s t u : State} (h : StacksKept s t) (h' : StacksKept t u) : StacksKept s u :=
  ⟨fun a ha => (h'.low a ha).trans (h.low a ha), h'.slotA.trans h.slotA, h'.slotB.trans h.slotB, h'.shards.trans h.shards⟩

theorem StacksKept.refl (s : State) : StacksKept s s := ⟨fun _ _ => rfl, rfl, rfl, rfl⟩

theorem StacksKept.of_logged {s t : State} (h : Logged s t) : StacksKept s t := by
  obtain ⟨_, _, _, _, rfl⟩ := h
  exact ⟨fun _ _ => rfl, rfl, rfl, rfl⟩

theorem StacksKept.ite {c : Prop} [Decidable c] {s a b : State} (ha : StacksKept s a) (hb : StacksKept s b) :
    StacksKept s (if c then a else b) := by
  split
  · exact ha
  · exact hb

theorem StacksKept.setReg {s t : State} (h : StacksKept s t) (r : Reg) (i v : Nat) : StacksKept s (t.setReg r i v) :=
  ⟨h.low, h.slotA, h.slotB, h.shards⟩

theorem stacksKept_clearWarm (s : State) : StacksKept s s.clearWarm := by
  refine ⟨fun a ha => ?_, rfl, rfl, rfl⟩
  have hwipe : s.clearWarm.byte a = (s.wipe 0x20000000000 0x30000000000).byte a := rfl
  rw [hwipe, State.byte_wipe, if_neg fun h => absurd h.1 (Nat.not_le.2 ha)]

theorem stacksKept_warmClear (s : State) : StacksKept s s.warmClear := by
  obtain ⟨r, hr⟩ := warmClear_same s
  rw [hr]
  exact (stacksKept_clearWarm s).trans ⟨fun _ _ => rfl, rfl, rfl, rfl⟩

theorem stacksKept_coldClear (s : State) : StacksKept s s.coldClear := by
  have htai : StacksKept s (if s.reg .taiState = 0 then s else s.change .taiState 0 0) :=
    .ite (.refl s) (.of_logged (logged_change ..))
  exact (htai.trans (stacksKept_clearWarm _)).trans ⟨fun _ _ => rfl, rfl, rfl, rfl⟩

theorem stacksKept_holdInReset (s : State) : StacksKept s s.holdInReset := .of_logged (logged_holdInReset s)

theorem stacksKept_coldReset (s : State) : StacksKept s s.coldReset := by
  have hreset := ((stacksKept_holdInReset s).trans (stacksKept_coldClear _)).trans (stacksKept_holdInReset _)
  have hcause := (hreset.setReg .resetCause 0 1).setReg .warmWaiting 0 0
  unfold State.coldReset
  dsimp only
  split
  · exact hcause.setReg .mgmtSilent 0 0
  · exact hcause

theorem stacksKept_warmReset (s : State) : StacksKept s s.warmReset :=
  (((stacksKept_holdInReset s).trans (stacksKept_warmClear _)).trans (stacksKept_holdInReset _)).setReg ..

theorem logged_tryBeginInit (s : State) : Logged s s.tryBeginInit := by
  refine logged_ite ?_ (Logged.refl s)
  have hstage : Logged s ((s.setReg .inReset 0 0).setReg .initStage 0 1) := ⟨_, _, _, _, rfl⟩
  exact Logged.foldl s (hstage.trans (logged_change ..)) fun _ _ hv => hv.trans (logged_setReg ..)

theorem stacksKept_losePower (s : State) : StacksKept s s.losePower := by
  have hcleared := (StacksKept.of_logged (logged_abortTransition s)).trans (stacksKept_coldClear _)
  have hoff := hcleared.trans (.of_logged (logged_enter _ stOff))
  exact (((hoff.setReg .initStage 0 0).setReg .stageStarted 0 0).setReg .inReset 0 0).setReg .warmWaiting 0 0

theorem stacksKept_recognised (s : State) (width : Nat) : StacksKept s (s.recognised width).2 := by
  unfold State.recognised
  split
  · exact .refl s
  · split
    · exact .refl s
    · exact ⟨fun _ _ => rfl, rfl, rfl, rfl⟩

theorem coldReset_stacksKept {s t : State} {width : Nat} (ht : exec (.coldReset width) s = .next t) : StacksKept s t := by
  have hrecognised := stacksKept_recognised s width
  have hexec : exec (.coldReset width) s = execColdReset width s := rfl
  rw [hexec, execColdReset] at ht
  dsimp only at ht
  split at ht
  · cases ht
    exact hrecognised
  · cases ht
    have hheld : StacksKept s ((s.recognised width).2.setFlag .rstHeld 0 0 true) := hrecognised.setReg ..
    split
    · exact hheld.trans (stacksKept_coldReset _)
    · exact hheld

theorem warmReset_stacksKept {s t : State} {width : Nat} (ht : exec (.warmReset width) s = .next t) : StacksKept s t := by
  have hrecognised := stacksKept_recognised s width
  have hexec : exec (.warmReset width) s = execWarmReset width s := rfl
  rw [hexec, execWarmReset] at ht
  dsimp only at ht
  split at ht
  · cases ht
    exact hrecognised
  · cases ht
    have hheld : StacksKept s ((s.recognised width).2.setFlag .rstHeld 0 1 true) := hrecognised.setReg ..
    split
    · exact hheld
    · split
      · exact hheld.trans (stacksKept_coldReset _)
      · split
        · exact hheld.setReg ..
        · exact hheld.trans (stacksKept_warmReset _)

theorem StacksKept.warmInit {s u : State} (h : StacksKept s u) : StacksKept s u.warmReset.tryBeginInit :=
  (h.trans (stacksKept_warmReset u)).trans (.of_logged (logged_tryBeginInit _))

theorem resetAfterFusePulse_stacksKept {s t : State} (ht : exec .resetAfterFusePulse s = .next t) : StacksKept s t := by
  have hexec : exec .resetAfterFusePulse s = execResetAfterFusePulse s := rfl
  rw [hexec, execResetAfterFusePulse] at ht
  split at ht
  · rw [← Host.Outcome.next.inj ht]
    exact (((StacksKept.refl s).setReg .warmWaiting 0 0).setReg .fusePulses 0 0).warmInit
  · cases ht
    exact .refl s

theorem StacksKept.losePower {s u : State} (h : StacksKept s u) (cause : Nat) :
    StacksKept s (u.losePower.setReg .resetCause 0 cause) := (h.trans (stacksKept_losePower u)).setReg ..

/-- What the loss of PWR_OK or of VIN_MAIN does after the input itself is noted. -/
theorem execPwrOkDeasserted_eq (lost : Bool) (s : State) :
    ∃ u : State, StacksKept s u ∧ (execPwrOkDeasserted lost s = .next u ∨
      ∃ cause, execPwrOkDeasserted lost s = .next (u.losePower.setReg .resetCause 0 cause)) := by
  refine ⟨if lost then s.setReg .vinMainIn 0 0 else (s.setReg .pwrOk 0 0).setReg .thermTrip 0 0,
    .ite ((StacksKept.refl s).setReg ..) (((StacksKept.refl s).setReg ..).setReg ..), ?_⟩
  unfold execPwrOkDeasserted
  generalize (if lost then s.setReg .vinMainIn 0 0 else (s.setReg .pwrOk 0 0).setReg .thermTrip 0 0) = u
  by_cases hoff : u.isIn stOff
  · exact .inl (if_pos hoff)
  · exact .inr ⟨_, if_neg hoff⟩

theorem pwrOkDeasserted_stacksKept {s t : State} {lost : Bool} (ht : exec (.pwrOkDeasserted lost) s = .next t) :
    StacksKept s t := by
  have hexec : exec (.pwrOkDeasserted lost) s = execPwrOkDeasserted lost s := rfl
  obtain ⟨u, hu, hoff | ⟨cause, hon⟩⟩ := execPwrOkDeasserted_eq lost s
  · rw [hexec, hoff] at ht
    rw [← Host.Outcome.next.inj ht]
    exact hu
  · rw [hexec, hon] at ht
    rw [← Host.Outcome.next.inj ht]
    exact hu.losePower cause

theorem stacksKept_aonLost (s : State) :
    StacksKept s ({ s.clearDomain .always with audit := [] }.setReg .aonAbsent 0 1) := ⟨fun _ _ => rfl, rfl, rfl, rfl⟩

theorem vinAonLost_stacksKept {s t : State} (ht : exec .vinAonLost s = .next t) : StacksKept s t := by
  have hexec : exec .vinAonLost s = execVinAonLost s := rfl
  rw [hexec, execVinAonLost] at ht
  split at ht
  · cases ht
    exact .refl s
  · rw [← Host.Outcome.next.inj ht]
    exact (stacksKept_losePower s).trans (stacksKept_aonLost _)

end Sys2Proof.Machine
end

section
/-! What the time-step boundary and the end of a teardown leave (R94, R226, R524, R585). -/

namespace Sys2Proof.Machine

/-! The writes that wait for the boundary. -/

/-- The waiting writes change the registers that they name and no other. -/
theorem reg_applyDeferred_ne {s : State} {r : Reg} (hwaits : ∀ e ∈ s.deferred, e.1.1 ≠ r) (i : Nat) :
    s.applyDeferred.reg r i = s.reg r i := by
  have hfold : ∀ (l : List ((Reg × Nat) × Nat)) (u : State), (∀ e ∈ l, e.1.1 ≠ r) →
      (l.foldl (fun t e => t.setReg e.1.1 e.1.2 e.2) u).reg r i = u.reg r i := by
    intro l
    induction l with
    | nil => exact fun _ _ => rfl
    | cons e l ih =>
      intro u hl
      rw [List.foldl_cons, ih _ fun x hx => hl x (List.mem_cons_of_mem _ hx),
        State.reg_setReg_ne _ (hl e List.mem_cons_self)]
  exact hfold s.deferred s hwaits

theorem Sent.deferred {s t : State} (h : Sent s t) : t.deferred = s.deferred := by
  obtain ⟨_, _, _, _, _, _, _, _, _, _, _, rfl⟩ := h
  rfl

theorem Recorded.deferred {s t : State} (h : Recorded s t) : t.deferred = s.deferred := by
  obtain ⟨_, _, _, _, _, _, _, _, _, _, _, _, _, _, _, _, _, _, _, rfl⟩ := h
  rfl

theorem Logged.deferred {s t : State} (h : Logged s t) : t.deferred = s.deferred := h.sent.deferred

theorem deferred_foldl {A : Type} {f : State → A → State} (hf : ∀ u x, (f u x).deferred = u.deferred) (l : List A)
    (s : State) : (l.foldl f s).deferred = s.deferred := by
  induction l generalizing s with
  | nil => rfl
  | cons x l ih => rw [List.foldl_cons, ih, hf]

theorem deferred_ite {c : Prop} [Decidable c] {s a b : State} (ha : a.deferred = s.deferred) (hb : b.deferred = s.deferred) :
    (if c then a else b).deferred = s.deferred := by
  split
  · exact ha
  · exact hb

theorem deferred_haltTable (s : State) (b : Nat) (f : Option Flight) : (s.haltTable b f).deferred = s.deferred :=
  State.deferred_change ..

theorem deferred_setRecovery (s : State) (v : Nat) : (s.setRecovery v).deferred = s.deferred :=
  deferred_ite rfl (State.deferred_change ..)

theorem deferred_tellPartner (s : State) (b : Body) : (s.tellPartner b).deferred = s.deferred := (sent_emit ..).deferred

theorem deferred_fire (s : State) (src code step lbay : Nat) : (s.fire src code step lbay).deferred = s.deferred :=
  Recorded.deferred (Recorded.fire s (Recorded.refl s))

theorem deferred_requestLull (s : State) : s.requestLull.deferred = s.deferred := deferred_ite (State.deferred_change ..) rfl

theorem deferred_verifyReplay (s : State) (t d : Nat) : (s.verifyReplay t d).deferred = s.deferred := by
  unfold State.verifyReplay
  split
  · rfl
  · split
    · rfl
    · dsimp only
      split
      · exact deferred_setRecovery ..
      · rw [deferred_setRecovery, deferred_foldl fun u b => deferred_ite (deferred_haltTable ..) rfl]
        exact State.deferred_logError ..

/-! Crosswind's part in the boundary. -/

theorem deferred_noteCompared (s : State) (t d r : Nat) : (s.noteCompared t d r).deferred = s.deferred := by
  unfold State.noteCompared
  exact deferred_ite rfl ((deferred_jobWrite ..).trans (deferred_jobWrite ..))

theorem deferred_compareStep (s : State) (x : XwStep) (theirs : Nat) : (s.compareStep x theirs).deferred = s.deferred := by
  unfold State.compareStep
  dsimp only
  split
  · exact deferred_noteCompared ..
  · rw [deferred_tellPartner]
    exact (deferred_fire ..).trans ((State.deferred_logError ..).trans (deferred_noteCompared ..))

theorem deferred_compareSteps (s : State) : s.compareSteps.deferred = s.deferred := by
  refine deferred_foldl (fun u x => deferred_ite rfl ?_) ..
  split
  · exact deferred_compareStep ..
  · rfl

theorem deferred_noteDivergence (s : State) (obj result : Nat) (old new : List Byte) :
    ((s.setBytes .xwRecord 0 new).auditInternal obj result old new).deferred = s.deferred :=
  (logged_auditInternal ..).deferred

theorem deferred_diverged (s : State) :
    (({ s with xwDiff := none, xwOwn := [], xwTheirs := [] }.setXw xwDiverged).raise .alertCause 5).deferred = s.deferred :=
  (State.deferred_change ..).trans (sent_setXw ..).deferred

theorem deferred_diverge (s : State) (d : XwDiff) (gran dstep addr ownWord word : Nat) :
    (s.diverge d gran dstep addr ownWord word).deferred = s.deferred := by
  unfold State.diverge
  dsimp only
  split
  · rw [deferred_requestLull, deferred_diverged, deferred_noteDivergence]
  · rw [deferred_diverged, deferred_noteDivergence]

theorem deferred_compareStreams (s : State) : s.compareStreams.deferred = s.deferred := by
  unfold State.compareStreams
  split
  · dsimp only
    split
    · rfl
    · refine deferred_ite ((deferred_diverge ..).trans ?_) ?_
      all_goals exact deferred_tellPartner ..
  · rfl

theorem deferred_exchange (s : State) (t d : Nat) (streams : List (Nat × Nat)) :
    (s.exchange t d streams).deferred = s.deferred := by
  unfold State.exchange
  refine deferred_ite rfl ?_
  exact (deferred_compareStreams _).trans ((deferred_compareSteps _).trans (deferred_tellPartner ..))

/-! The boundary. -/

/-- The last part of the boundary, before the writes that waited for it: the next step begins, and Crosswind and the rounds of
RACC follow. -/
def State.boundaryEnd (s : State) (t d : Nat) (streams : List (Nat × Nat)) : State :=
  let s := { s with bays := s.bays.map fun (e : Nat × Bay) => (e.1, e.2.passStep t (s.reg .xwLag)) }
  let s := s.setReg .tstep 0 (t + 1)
  let s := s.exchange t d streams
  { s.endRound with fences := [] }

theorem pbC_eq (s : State) (t d : Nat) (streams : List (Nat × Nat)) :
    pbC s t d streams = (s.boundaryEnd t d streams).applyDeferred.fitRoster := rfl

/-- The digest of a step is kept, and the hot spare hears of it. -/
def State.digestKept (s : State) (t d : Nat) : State := pbM { s with kept := keepDigest t d s.kept } t d

/-- The node at the boundary, before the writes that waited for it. -/
def State.boundaryMade (s : State) : State :=
  let streams := s.stepStreams
  let d := nodeDigest streams
  (((pbA s streams d).verifyReplay (s.reg .tstep) d).digestKept (s.reg .tstep) d).boundaryEnd (s.reg .tstep) d streams

theorem passBoundary_eq (s : State) : s.passBoundary = s.boundaryMade.applyDeferred.fitRoster := by
  have hparts : s.passBoundary =
      pbB (pbA s s.stepStreams (nodeDigest s.stepStreams)) (s.reg .tstep) (nodeDigest s.stepStreams) s.stepStreams := by rfl
  rw [hparts, State.boundaryMade, ← pbC_eq]
  rfl

theorem deferred_boundaryEnd (s : State) (t d : Nat) (streams : List (Nat × Nat)) :
    (s.boundaryEnd t d streams).deferred = s.deferred := by
  unfold State.boundaryEnd
  exact deferred_exchange ..

theorem deferred_digestKept (s : State) (t d : Nat) : (s.digestKept t d).deferred = s.deferred := (pbM_same ..).1

theorem deferred_boundaryMade (s : State) : s.boundaryMade.deferred = s.deferred := by
  unfold State.boundaryMade
  dsimp only
  rw [deferred_boundaryEnd, deferred_digestKept, deferred_verifyReplay, (pbA_same ..).1]

/-- The registers that a time-step boundary changes, those of waiting writes apart. -/
def boundaryRegs : List Reg :=
  [.nodeState, .stateRequest, .prefetchUnused, .tableState, .hartState, .raccRound, .tstep, .nodeDigest, .streamDigests, .xwState,
    .xwRecord, .xwCompared, .xwHoldNs, .recoveryState, .replayCompared, .lullHeld] ++ errorRegs

theorem not_touches_of_touchesOnly {T : Option Reg → Bool} {rs : List Reg} (h : touchesOnly T rs = true) {r : Reg} (hr : r ∉ rs) :
    T (some r) = false := by
  have hleft := List.all_eq_true.1 h r (Reg.mem_all r)
  simpa [hr] using hleft

theorem reg_boundaryEnd (s : State) (t d : Nat) (streams : List (Nat × Nat)) {r : Reg} (hr : r ∉ boundaryRegs) (i : Nat) :
    (s.boundaryEnd t d streams).reg r i = s.reg r i := by
  have hround : ∀ u : State, ({ u.endRound with fences := [] } : State).reg r i = u.reg r i := fun u =>
    State.reg_setReg_ne _ (ne_of_mem_of_not_mem (by decide) hr) ..
  unfold State.boundaryEnd
  dsimp only
  rw [hround, exchange_reg _ _ _ _ r (not_touches_of_touchesOnly (rs := boundaryRegs) (by decide +kernel) hr)]
  exact State.reg_setReg_ne _ (ne_of_mem_of_not_mem (by decide) hr) ..

theorem reg_digestKept (s : State) (t d : Nat) (r : Reg) (i : Nat) : (s.digestKept t d).reg r i = s.reg r i := by
  unfold State.digestKept pbM
  split
  · exact control_reg ..
  · rfl

theorem reg_boundaryDigests (s : State) (streams : List (Nat × Nat)) (d : Nat) {r : Reg} (hr : r ∉ boundaryRegs) (i : Nat) :
    (pbA s streams d).reg r i = s.reg r i := by
  have hset : ((streams.foldl (fun (u : State) e => u.setReg .streamDigests e.1 e.2) (s.clearReg .streamDigests)).setReg
      .nodeDigest 0 d).reg r i = s.reg r i := by
    rw [State.reg_setReg_ne _ (ne_of_mem_of_not_mem (by decide) hr), pb_foldl_reg _ _ _ (ne_of_mem_of_not_mem (by decide) hr).symm,
      clearReg_reg _ _ _ (ne_of_mem_of_not_mem (by decide) hr)]
  unfold pbA
  dsimp only
  split
  · exact hset
  · rw [jobWrite_reg _ _ _ _ (not_touches_of_touchesOnly (rs := boundaryRegs) (by decide +kernel) hr)]
    exact hset

theorem reg_boundaryMade {s : State} {r : Reg} (hr : r ∉ boundaryRegs) (i : Nat) : s.boundaryMade.reg r i = s.reg r i := by
  unfold State.boundaryMade
  dsimp only
  rw [reg_boundaryEnd _ _ _ _ hr, reg_digestKept,
    verifyReplay_reg _ _ _ r (not_touches_of_touchesOnly (rs := boundaryRegs) (by decide +kernel) hr), reg_boundaryDigests _ _ _ hr]

theorem reg_passBoundary {s : State} {r : Reg} (hr : r ∉ boundaryRegs) (hwaits : ∀ e ∈ s.deferred, e.1.1 ≠ r) (i : Nat) :
    s.passBoundary.reg r i = s.reg r i := by
  rw [passBoundary_eq, fitRoster_reg _ _ (not_touches_of_touchesOnly (rs := boundaryRegs) (by decide +kernel) hr),
    reg_applyDeferred_ne (by rw [deferred_boundaryMade]; exact hwaits), reg_boundaryMade hr]

theorem timeStepBoundary_regsKept {s t : State} (ht : exec .timeStepBoundary s = .next t) {r : Reg} (hr : r ∉ boundaryRegs)
    (hwaits : ∀ e ∈ s.deferred, e.1.1 ≠ r) (i : Nat) : t.reg r i = s.reg r i := by
  have hexec : exec .timeStepBoundary s = execTimeStepBoundary s := rfl
  have hpass : (if s.boundaryReached && s.reg .jobRunning = 1 then s.passBoundary else s).reg r i = s.reg r i := by
    split
    · exact reg_passBoundary hr hwaits i
    · rfl
  rw [hexec, execTimeStepBoundary] at ht
  rw [← Host.Outcome.next.inj ht, ← hpass]
  generalize (if s.boundaryReached && s.reg .jobRunning = 1 then s.passBoundary else s) = u
  split
  · exact enterLull_reg u r (not_touches_of_touchesOnly (rs := boundaryRegs) (by decide +kernel) hr) i
  · rfl

/-! The end of a teardown. -/

/-- The registers that the end of a teardown changes, those of waiting writes apart. -/
def teardownRegs : List Reg :=
  [.nodeState, .jobActive, .logicalId, .prefetchUnused, .sqState, .teardownPending, .cqTail, .cqWraps, .sqHead] ++ errorRegs

theorem not_mem_auditRegs_of_teardownRegs {r : Reg} (hr : r ∉ teardownRegs) : r ∉ auditRegs := fun h =>
  hr ((by decide : ∀ x ∈ auditRegs, x ∈ teardownRegs) r h)

/-- The node with its job marked as gone, before the writes that waited for the end of the job. -/
def State.jobLeft (s : State) : State :=
  ((s.setReg .teardownPending 0 0).setReg .jobActive 0 0).change .logicalId 0 0xFFFFFFFF

theorem deferred_jobLeft (s : State) : s.jobLeft.deferred = s.deferred := State.deferred_change ..

theorem reg_jobLeft {s : State} {r : Reg} (hr : r ∉ teardownRegs) (i : Nat) : s.jobLeft.reg r i = s.reg r i := by
  unfold State.jobLeft
  rw [State.reg_change _ (not_mem_auditRegs_of_teardownRegs hr), if_neg (not_and_of_not_left _ (ne_of_mem_of_not_mem (by decide) hr)),
    State.reg_setReg_ne _ (ne_of_mem_of_not_mem (by decide) hr), State.reg_setReg_ne _ (ne_of_mem_of_not_mem (by decide) hr)]

theorem jobGone_eq (s : State) : s.jobGone = { s.jobLeft.applyDeferred.fitRoster with jobEpochs := [] } := by
  unfold State.jobGone State.jobLeft
  rfl

theorem reg_jobGone_of_waits {s : State} {r : Reg} (hr : r ∉ teardownRegs) (hwaits : ∀ e ∈ s.deferred, e.1.1 ≠ r) (i : Nat) :
    s.jobGone.reg r i = s.reg r i := by
  have hforgot : ∀ u : State, ({ u with jobEpochs := [] } : State).reg r i = u.reg r i := fun _ => rfl
  rw [jobGone_eq, hforgot, fitRoster_reg _ r (not_touches_of_touchesOnly (rs := teardownRegs) (by decide +kernel) hr),
    reg_applyDeferred_ne (by rw [deferred_jobLeft]; exact hwaits), reg_jobLeft hr]

theorem teardownComplete_regsKept {s t : State} (ht : exec .teardownComplete s = .next t) {r : Reg} (hr : r ∉ teardownRegs)
    (hwaits : ∀ e ∈ s.deferred, e.1.1 ≠ r) (i : Nat) : t.reg r i = s.reg r i := by
  have hexec : exec .teardownComplete s = execTeardownComplete s := rfl
  rw [hexec] at ht
  by_cases hpending : s.reg .teardownPending = 2
  · rw [execTeardownComplete_of_wiped hpending] at ht
    rw [← Host.Outcome.next.inj ht, endOpc_reg _ _ _ _ r (not_touches_of_touchesOnly (rs := teardownRegs) (by decide +kernel) hr),
      reg_tornDown _ (not_mem_auditRegs_of_teardownRegs hr) (ne_of_mem_of_not_mem (by decide) hr), reg_jobGone_of_waits hr hwaits]
  · rw [execTeardownComplete, if_pos hpending] at ht
    rw [← Host.Outcome.next.inj ht]

end Sys2Proof.Machine
end

section
/-! What JP2 requests leave that write nothing: reads, subscriptions and SPDM messages (R560, R585, R590). -/

namespace Sys2Proof.Machine

theorem Within.mono {T T' : Option Reg → Bool} {f : State → State} (hf : Within T f) (hT : ∀ p, T p = true → T' p = true) :
    Within T' f := fun K hK => hf K
  { same := hK.same
    setReg := fun s r i v hr => hK.setReg s r i v (hT _ hr)
    filterRegs := fun s g hg => hK.filterRegs s g fun r hr => hT _ (hg r hr)
    setByte := fun s a b hn => hK.setByte s a b (hT _ hn)
    wipe := fun s lo hi hn => hK.wipe s lo hi (hT _ hn) }

/-- What the port itself may change as it serves a JP2 request. -/
def touchJp2Port (p : Option Reg) : Bool := touchRefuseAuth p || touchPumpAudit p || touchReply p || touchSend p

/-- A JP2 request in the clear changes what the port may change, and what its body does. -/
theorem within_plainJp2 {T : Option Reg → Bool} {q : Requester} {obj off : Nat} {b : Jp2Body} {peers : Option Half}
    (hport : ∀ p, touchJp2Port p = true → T p = true) (hbody : Within T fun s => (s.jp2Body q obj off b peers).2.2.2)
    (hspdm : ∀ m, b = .spdm m → Within T fun s => (s.spdm q m).2) (rseq : Nat) :
    Within T fun s => s.plainJp2 q rseq obj off b peers := by
  intro K hK s hs
  have hreply : ∀ (u : State) (o : Output), Has K u → Has K (u.reply q rseq o) := fun u o hu =>
    keeps_reply hK u q rseq o (fun p hp => hport p (by simp [touchJp2Port, hp])) hu
  have hpump : ∀ u : State, Has K u → Has K u.pumpAudit := fun u hu =>
    keeps_pumpAudit hK u (fun p hp => hport p (by simp [touchJp2Port, hp])) hu
  dsimp only
  unfold State.plainJp2
  split
  · exact hs
  · split
    · exact keeps_refuseAuth hK s q rseq obj off (fun p hp => hport p (by simp [touchJp2Port, hp])) hs
    · unfold State.serveJp2
      split
      · exact keeps_send hK s _ hs
      · split
        · exact hreply s _ hs
        · split
          · exact hreply _ _ (hspdm _ rfl K hK s hs)
          · exact hpump _ (hreply _ _ (hbody K hK s hs))

theorem within_jp2Read (q : Requester) (obj off : Nat) (len : Word) (peers : Option Half) :
    Within touchServeRead fun s => (s.jp2Body q obj off (.read len) peers).2.2.2 := by
  intro K hK s hs
  dsimp only [State.jp2Body]
  split
  · exact keeps_countRefused hK s (fun p hp => by simp [touchServeRead, hp]) hs
  · exact keeps_serveRead hK s q obj off len.toNat (fun _ hp => hp) hs

/-- What a subscription request may change. -/
def touchSubscribes (p : Option Reg) : Bool := touchJp2Port p || touchRefreshAcked p

theorem within_subOpenSample (q : Requester) (obj off : Nat) (objects : List ObjAddr) (period : Nat) (peers : Option Half) :
    Within touchSubscribes fun s => (s.jp2Body q obj off (.subOpenSample objects period) peers).2.2.2 := fun _ hK s hs =>
  keeps_openSample hK s q _ period hs

theorem within_subOpenAudit (q : Requester) (obj off : Nat) (start : Dword) (hold : Bool) (peers : Option Half) :
    Within touchSubscribes fun s => (s.jp2Body q obj off (.subOpenAudit start hold) peers).2.2.2 := fun _ hK s hs =>
  keeps_openAudit hK s q _ hold hs

theorem within_subAck (q : Requester) (obj off : Nat) (seq : Dword) (peers : Option Half) :
    Within touchSubscribes fun s => (s.jp2Body q obj off (.subAck seq) peers).2.2.2 := fun _ hK s hs =>
  keeps_ackSubs hK s q _ (fun p (hp : touchRefreshAcked p = true) => by simp [touchSubscribes, hp]) hs

theorem within_subClose (q : Requester) (obj off : Nat) (n : Byte) (peers : Option Half) :
    Within touchSubscribes fun s => (s.jp2Body q obj off (.subClose n) peers).2.2.2 := fun _ hK s hs =>
  keeps_closeSub hK s q _ (fun p (hp : touchRefreshAcked p = true) => by simp [touchSubscribes, hp]) hs

theorem keeps_withSessions {T : Option Reg → Bool} {K : State → Prop} (hK : Closed T K) {s : State} (sessions : List Session)
    (hs : Has K s) : Has K { s with sessions } := ⟨hK.same s _ rfl rfl rfl hs.out⟩

/-- An SPDM request changes sessions, and what the end of one takes with it. -/
theorem within_spdm (q : Requester) (m : SpdmRequest) : Within touchRefreshAcked fun s => (s.spdm q m).2 := by
  intro K hK s hs
  have hend : ∀ (u : State) (p : Port) (id : Nat), Has K u → Has K (u.endSession p id) := fun u p id hu =>
    keeps_endSession hK u p id (fun _ hp => hp) hu
  have hsign : Has K s.sign.2 := keeps_draw hK s hs
  cases m with
  | getVersion | getCapabilities | negotiateAlgorithms | getDigests => exact hs
  | challenge => exact hsign
  | getCertificate slot off len =>
    dsimp only [State.spdm]
    split <;> exact hs
  | heartbeat =>
    dsimp only [State.spdm]
    split <;> exact hs
  | getMeasurements i =>
    dsimp only [State.spdm]
    generalize List.filterMap _ _ = ms
    split
    · exact hs
    · exact hsign
  | keyExchange id =>
    dsimp only [State.spdm]
    split
    · exact hs
    · exact keeps_withSessions hK _ hsign
  | finish id leaf root verified =>
    dsimp only [State.spdm]
    split
    · exact hs
    · split
      · exact hs
      · split
        · exact hend s _ _ hs
        · exact keeps_withSessions hK _ hs
  | keyUpdate =>
    dsimp only [State.spdm]
    split
    · exact hs
    · exact keeps_withSessions hK _ hs
  | endSession =>
    dsimp only [State.spdm]
    split
    · exact hs
    · exact hend s _ _ hs

theorem jp2Read_regsKept {s t : State} {q : Requester} {rseq : Dword} {obj : ObjAddr} {offset len : Word}
    (ht : exec (.jp2Read q rseq obj offset len) s = .next t) : RegsKept (.dictRefused :: errorRegs) s t := by
  have hexec : exec (.jp2Read q rseq obj offset len) s = execJp2Read q rseq obj offset len s := rfl
  rw [hexec, execJp2Read] at ht
  rw [← Host.Outcome.next.inj ht]
  exact (within_plainJp2 (T := fun p => touchJp2Port p || touchServeRead p) (fun p hp => by simp [hp])
    (Within.mono (within_jp2Read q obj.toNat offset.toNat len none) fun p hp => by simp [hp]) (by nofun) _).regsKept (by decide +kernel) s

theorem subscription_frame {s t : State} {q : Requester} {rseq : Dword} {b : Jp2Body} (hb : ∀ m, b ≠ .spdm m)
    (hbody : Within touchSubscribes fun s => (s.jp2Body q 0 0 b none).2.2.2)
    (ht : (.next (s.plainJp2 q rseq.toNat 0 0 b none) : Res) = .next t) :
    RegsKept [.dictRefused, .auditAcked] s t ∧ MemKept s t := by
  have hframe := within_plainJp2 (T := touchSubscribes) (fun p hp => by simp [touchSubscribes, hp]) hbody
    (fun m h => absurd h (hb m)) rseq.toNat
  rw [← Host.Outcome.next.inj ht]
  exact ⟨hframe.regsKept (by decide +kernel) s, hframe.memKept (by decide +kernel) s⟩

theorem jp2Spdm_frame {s t : State} {q : Requester} {rseq : Dword} {m : SpdmRequest}
    (ht : exec (.jp2Spdm q rseq m) s = .next t) :
    RegsKept (.dictRefused :: .tableState :: .auditAcked :: auditRegs) s t ∧ MemKept s t := by
  have hexec : exec (.jp2Spdm q rseq m) s = execJp2Spdm q rseq m s := rfl
  rw [hexec, execJp2Spdm] at ht
  have hframe := within_plainJp2 (T := touchSubscribes) (q := q) (obj := 0) (off := 0) (b := .spdm m) (peers := none)
    (fun p hp => by simp [touchSubscribes, hp]) (fun _ _ _ hs => hs)
    (fun m' _ => (within_spdm q m').mono fun p hp => by simp [touchSubscribes, hp]) rseq.toNat
  rw [← Host.Outcome.next.inj ht]
  exact ⟨hframe.regsKept (by decide +kernel) s, hframe.memKept (by decide +kernel) s⟩

theorem wrapperRepair_frame (e : StackElement) : ∀ c ∈ [Instr.repairRow e, .hbm4LaneRepair e, .hbm4HardPpr e],
    Leaves (.journalUsed :: .serviceWork :: .fusePulses :: .wrapper :: auditRegs) c :=
  forall_leaves_of_touches (Ts := [touchExecRepairRow, touchExecHbm4LaneRepair, touchExecHbm4HardPpr]) rfl (by decide +kernel)

/-- Settles O59: a reset is framed by what it may change and by what it keeps of the stacks, the slots and the shards; the
boundary and the end of a teardown by their parts, whose waiting writes are applied last; the requests by what they may change. -/
theorem resetFrames : Obligations.ResetFrames := by
  refine ⟨fun s t width ht => ⟨fun r hw hc hr => ?_, ?_⟩, fun s t width ht => ⟨fun r hw hc hr => ?_, ?_⟩,
    fun s t ht => ⟨fun r hw hr => ?_, ?_⟩, fun s t lost ht => ⟨fun r hw hc hr => ?_, ?_⟩,
    fun s t ht => ⟨fun r hw hc ha hr => ?_, ?_⟩, fun s t ht r hr hwaits => timeStepBoundary_regsKept ht hr hwaits,
    fun s t ht r hr hwaits => teardownComplete_regsKept ht hr hwaits, fun e s t ht => ?_,
    fun s t q rseq obj offset len ht => jp2Read_regsKept ht, fun s t q rseq start seq objects period hold n ht => ?_,
    fun s t q rseq m ht => jp2Spdm_frame ht⟩
  · exact reg_of_touchesDomains (T := touchExecColdReset) (ds := [.warm, .cold]) rfl (by decide +kernel) ht
      (by simp [hw, hc]) hr
  · obtain ⟨hlow, hslotA, hslotB, hshards⟩ := coldReset_stacksKept ht
    exact ⟨hlow, hslotA, hslotB, hshards⟩
  · exact reg_of_touchesDomains (T := touchExecWarmReset) (ds := [.warm, .cold]) rfl (by decide +kernel) ht
      (by simp [hw, hc]) hr
  · obtain ⟨hlow, hslotA, hslotB, hshards⟩ := warmReset_stacksKept ht
    exact ⟨hlow, hslotA, hslotB, hshards⟩
  · exact reg_of_touchesDomains (T := touchExecResetAfterFusePulse) (ds := [.warm]) rfl (by decide +kernel) ht
      (by simp [hw]) hr
  · obtain ⟨hlow, hslotA, hslotB, hshards⟩ := resetAfterFusePulse_stacksKept ht
    exact ⟨hlow, hslotA, hslotB, hshards⟩
  · exact reg_of_touchesDomains (T := touchExecPwrOkDeasserted) (ds := [.warm, .cold]) rfl (by decide +kernel) ht
      (by simp [hw, hc]) hr
  · obtain ⟨hlow, hslotA, hslotB, hshards⟩ := pwrOkDeasserted_stacksKept ht
    exact ⟨hlow, hslotA, hslotB, hshards⟩
  · exact reg_of_touchesDomains (T := touchExecVinAonLost) (ds := [.warm, .cold, .always]) rfl (by decide +kernel) ht
      (by simp [hw, hc, ha]) hr
  · obtain ⟨hlow, hslotA, hslotB, hshards⟩ := vinAonLost_stacksKept ht
    exact ⟨hlow, hslotA, hslotB, hshards⟩
  · have hrepair := wrapperRepair_frame e
    rcases ht with ht | ht | ht
    · exact hrepair _ (by simp) s t ht
    · exact hrepair _ (by simp) s t ht
    · exact hrepair _ (by simp) s t ht
  · rcases ht with ht | ht | ht | ht
    · exact subscription_frame (by nofun) (within_subOpenSample q 0 0 objects period none) ht
    · exact subscription_frame (by nofun) (within_subOpenAudit q 0 0 start hold none) ht
    · exact subscription_frame (by nofun) (within_subAck q 0 0 seq none) ht
    · exact subscription_frame (by nofun) (within_subClose q 0 0 n none) ht

end Sys2Proof.Machine
end

section
/-! The stages of INIT: what each leaves of the node state while nothing fails it, and what it sets (R22, R693). -/

namespace Sys2Proof.Machine

/-! A node in INIT stays there as its parts fail. -/

/-- The node is in INIT. -/
structure InInit (s : State) : Prop where
  out : s.reg .nodeState = 2

theorem InInit.of_reg {s t : State} (h : InInit s) (ht : t.reg .nodeState = s.reg .nodeState) : InInit t := ⟨ht.trans h.out⟩

theorem InInit.setReg {s : State} (h : InInit s) {r : Reg} (hr : r ≠ .nodeState) (i v : Nat) : InInit (s.setReg r i v) :=
  h.of_reg (State.reg_setReg_ne _ hr ..)

theorem InInit.change {s : State} (h : InInit s) {r : Reg} (hr : r ≠ .nodeState) (i v : Nat) : InInit (s.change r i v) := by
  refine h.of_reg ?_
  rw [State.reg_change _ (by decide), if_neg fun hsame => hr hsame.1]

theorem InInit.logError {s : State} (h : InInit s) (e : ErrorEvent) : InInit (s.logError e) :=
  h.of_reg (State.reg_logError _ (by decide) ..)

theorem InInit.ite {c : Prop} [Decidable c] {a b : State} (ha : InInit a) (hb : InInit b) : InInit (if c then a else b) := by
  split
  · exact ha
  · exact hb

theorem InInit.degrade {s : State} (h : InInit s) (b : Nat) : InInit (s.degrade b) := by
  have hraised : InInit (s.raise .degradeCause b) := h.change (by decide) ..
  unfold State.degrade
  dsimp only
  rw [if_neg (by simp [State.isIn, hraised.out])]
  exact hraised

theorem InInit.foldl {A : Type} {f : State → A → State} (hf : ∀ u x, InInit u → InInit (f u x)) (l : List A) {s : State}
    (h : InInit s) : InInit (l.foldl f s) := by
  induction l generalizing s with
  | nil => exact h
  | cons x l ih => exact ih (hf s x h)

theorem InInit.startPairs {s : State} (h : InInit s) (f : StageFacts) : InInit (s.startPairs f) := by
  have hlost : ∀ (u : State) (e : ErrorEvent), InInit u → InInit (((u.change .supStandbyOk 0 0).logError e).degrade 8) :=
    fun u e hu => ((hu.change (by decide) ..).logError e).degrade 8
  unfold State.startPairs
  exact .ite h (.ite h (.ite (hlost _ _ h) (hlost _ _ (h.change (by decide) ..))))

theorem InInit.installRemap {s : State} (h : InInit s) (stack element row : Nat) : InInit (s.installRemap stack element row) := by
  have hlisted : InInit { s with remaps := s.remaps ++ [(⟨stack, element, row⟩ : Remap)] } := h.of_reg rfl
  have hused := fun v => hlisted.change (r := .reserveRowsLeft) (by decide) stack v
  unfold State.installRemap
  exact .ite ((hused _).degrade 7) (hused _)

theorem InInit.closeEntry {s : State} (h : InInit s) (f : StageFacts) (k : Nat) : InInit (s.closeEntry f k) := by
  have hclosed : ∀ bits, InInit ((s.programJournal (k / 512) (k % 512) bits).addReg .journalUncertain (k / 512) 1) := fun bits =>
    h.of_reg (addReg_reg _ _ _ _ _ (by decide) _)
  unfold State.closeEntry
  exact .ite h (.ite (hclosed _) ((hclosed _).installRemap ..))

theorem InInit.takeSpareSlice {s : State} (h : InInit s) (die : Nat) : InInit (s.takeSpareSlice die) := by
  have htaken := h.change (r := .sliceSparesLeft) (by decide) 0
  unfold State.takeSpareSlice
  exact .ite ((htaken _).degrade 5) (htaken _)

theorem InInit.passThrough {s : State} (h : InInit s) (die phys : Nat) : InInit (s.passThrough die phys) := by
  have hpassed : ∀ e : ErrorEvent, InInit ((((s.change .sliceState (die * 34 + phys) 3).logError e).degrade 1).degrade 5) :=
    fun e => (((h.change (by decide) ..).logError e).degrade 1).degrade 5
  have hways : ∀ (u : State) (lo hi : Nat), InInit u → InInit ((u.change .llmScratchWays die 0).wipe lo hi) := fun _ _ _ hu =>
    (hu.change (by decide) ..).of_reg rfl
  have hemptied : ∀ (u : State) (copies tailwind llm), InInit u →
      InInit { u with copies := copies, tailwind := tailwind, llm := llm } := fun _ _ _ _ hu => hu.of_reg rfl
  have hlost : ∀ (u : State) (e : ErrorEvent), InInit u → InInit (u.dataLoss e) := fun u e hu =>
    hu.of_reg (dataLoss_reg u e _ (by decide +kernel) 0)
  unfold State.passThrough
  exact .ite (hlost _ _ (hemptied _ _ _ _ (hways _ _ _ (hpassed _)))) (hemptied _ _ _ _ (hways _ _ _ (hpassed _)))

theorem InInit.initSlice {s : State} (h : InInit s) (die phys : Nat) : InInit (s.initSlice die phys) := by
  have hfailed := h.change (r := .sliceState) (by decide) (die * 34 + phys) 2
  have hmap : ∀ (p : Nat) (u : State) (l : Nat), InInit u → InInit
      (if u.reg .sliceMap (die * 32 + l) = phys then u.setReg .sliceMap (die * 32 + l) p else u) := fun p u l hu =>
    .ite (hu.setReg (by decide) ..) hu
  unfold State.initSlice
  dsimp only
  refine .ite ((hfailed.logError _).takeSpareSlice die) (.ite h ?_)
  split
  · exact h.passThrough die phys
  · exact ((InInit.foldl (hmap _) _ (hfailed.change (by decide) ..)).logError _).takeSpareSlice die

theorem InInit.initBay {s : State} (h : InInit s) (die phys : Nat) : InInit (s.initBay die phys) := by
  have hfailed := h.change (r := .bayState) (by decide) (die * 34 + phys) 2
  have hspares : ∀ (u : State) (left v : Nat), InInit u →
      InInit (if left = 1 then (u.change .baySparesLeft 0 v).degrade 4 else u.change .baySparesLeft 0 v) := fun u left v hu =>
    .ite ((hu.change (by decide) ..).degrade 4) (hu.change (by decide) ..)
  unfold State.initBay
  dsimp only
  refine .ite h (.ite (((hfailed.logError _).change (by decide) ..).degrade 0) (hspares _ _ _ (.ite ?_ (hfailed.logError _))))
  split
  · exact (hfailed.change (by decide) ..).logError _
  · exact hfailed

end Sys2Proof.Machine
end

section
/-! The stages of INIT (R22, R693). -/

namespace Sys2Proof.Machine

/-! The command. -/

theorem exec_initStageComplete {s u : State} {facts : StageFacts} (hinit : s.reg .nodeState = 2) (hreset : s.reg .inReset ≠ 1)
    (hstage : s.reg .initStage = 1 ∧ u = s.initStage1 facts ∨ s.reg .initStage = 2 ∧ u = s.initStage2 facts ∨
      s.reg .initStage = 3 ∧ u = s.initStage3 facts ∨ s.reg .initStage = 4 ∧ u = s.initStage4 facts ∨
      s.reg .initStage = 5 ∧ u = s.initStage5 ∨ s.reg .initStage = 6 ∧ u = s.initStage6 facts) :
    exec (.initStageComplete facts) s = .next u := by
  have hexec : exec (.initStageComplete facts) s = execInitStageComplete facts s := rfl
  have hruns : ¬ ((!s.isIn stInit || decide (s.reg .inReset = 1)) = true) := by simp [State.isIn, hinit, hreset]
  rw [hexec, execInitStageComplete, if_neg hruns]
  rcases hstage with ⟨h, hu⟩ | ⟨h, hu⟩ | ⟨h, hu⟩ | ⟨h, hu⟩ | ⟨h, hu⟩ | ⟨h, hu⟩
  all_goals simp only [h, hu]

/-- The passage of a stage. -/
def State.passStage (s : State) (k : Nat) : State := (s.setReg .stageStarted 0 k).setReg .initStage 0 (k + 1)

theorem passStage_facts {s : State} {k : Nat} (hk : k < 7) : (s.passStage k).reg .initStage = k + 1 ∧
    (s.passStage k).reg .stageStarted = k ∧ ∀ r, r ≠ .initStage → r ≠ .stageStarted → ∀ i, (s.passStage k).reg r i = s.reg r i := by
  have hinit : Reg.modulus .initStage = 256 := rfl
  have hstarted : Reg.modulus .stageStarted = 256 := rfl
  refine ⟨?_, ?_, fun r h1 h2 i => ?_⟩
  · rw [State.passStage, State.reg_setReg, if_pos ⟨rfl, rfl⟩, hinit]
    omega
  · rw [State.passStage, State.reg_setReg_ne _ (by decide), State.reg_setReg, if_pos ⟨rfl, rfl⟩, hstarted]
    omega
  · rw [State.passStage, State.reg_setReg_ne _ h1.symm, State.reg_setReg_ne _ h2.symm]

/-! Stage 1. -/

theorem pllFailed_lockPll {s : State} {f : StageFacts} (hnone : f.pllNone = []) (k j : Nat) :
    (s.lockPll f k).reg .pllFailed j = s.reg .pllFailed j := by
  unfold State.lockPll
  dsimp only
  split
  · rfl
  · split
    · next hfailed =>
      have hone : s.reg .pllFailed k = 1 := by simpa [hnone] using hfailed
      have hmod : Reg.modulus .pllFailed = 256 := rfl
      by_cases hj : k = j
      · subst hj
        simp [State.reg_setReg, hone, hmod]
      · rw [State.reg_setReg, if_neg fun h => hj h.2]
    · split
      · rw [State.reg_change _ (by decide), if_neg (by simp), State.reg_setReg_ne _ (by decide), State.reg_change _ (by decide),
          if_neg (by simp), State.reg_setReg_ne _ (by decide)]
      · rw [State.reg_setReg_ne _ (by decide), State.reg_change _ (by decide), if_neg (by simp), State.reg_setReg_ne _ (by decide)]

theorem clkMhz_lockPll {s : State} {f : StageFacts} {k : Nat} (hnone : f.pllNone = []) (hgood : s.reg .pllFailed k = 0) (j : Nat) :
    (s.lockPll f k).reg .clkMhz j =
      if k = j ∧ clockDomain k = true then s.reg .pllMhz k % Reg.modulus .clkMhz else s.reg .clkMhz j := by
  have hclk : ∀ (v w m : Nat), (((s.setReg .clkReady k v).change .clkSel k w).setReg .clkMhz k m).reg .clkMhz j =
      if k = j then m % Reg.modulus .clkMhz else s.reg .clkMhz j := by
    intro v w m
    rw [State.reg_setReg, State.reg_change _ (by decide), if_neg (c := Reg.clkSel = .clkMhz ∧ k = j) (by simp),
      State.reg_setReg_ne _ (by decide)]
    simp only [true_and]
  have hmhz : ∀ v, (s.setReg .clkReady k v).reg .pllMhz k = s.reg .pllMhz k := fun v => State.reg_setReg_ne _ (by decide) ..
  unfold State.lockPll
  dsimp only
  by_cases hdomain : clockDomain k = true
  · rw [if_neg (by simp [hdomain]), if_neg (by simp [hnone, hgood])]
    simp only [hdomain, and_true]
    split
    · rw [State.reg_change _ (by decide), if_neg (by simp), hclk, hmhz]
    · rw [hclk, hmhz]
  · rw [if_pos (by simpa using hdomain), if_neg fun h => hdomain h.2]

/-- All PLLs lock: each domain runs at its PLL's clock. -/
theorem lockPlls_facts {s : State} {f : StageFacts} (hnone : f.pllNone = []) (hgood : ∀ k, k < 48 → s.reg .pllFailed k = 0) {n : Nat}
    (hn : n ≤ 48) :
    (∀ j, ((List.range n).foldl (fun (u : State) k => u.lockPll f k) s).reg .pllFailed j = s.reg .pllFailed j) ∧
      ∀ k, k < n → clockDomain k = true → ((List.range n).foldl (fun (u : State) k => u.lockPll f k) s).reg .clkMhz k =
        s.reg .pllMhz k % Reg.modulus .clkMhz := by
  refine ⟨fun j => State.reg_foldl (fun v k => pllFailed_lockPll hnone k j) _ s, ?_⟩
  induction n with
  | zero => exact fun k hk => absurd hk (Nat.not_lt_zero k)
  | succ n ih =>
    intro k hk hdomain
    have hfailed : ((List.range n).foldl (fun (u : State) k => u.lockPll f k) s).reg .pllFailed n = 0 :=
      (State.reg_foldl (fun v i => pllFailed_lockPll hnone i n) _ s).trans (hgood n hn)
    have hmhz : ((List.range n).foldl (fun (u : State) k => u.lockPll f k) s).reg .pllMhz n = s.reg .pllMhz n :=
      State.reg_foldl (fun v i => lockPll_reg v f i _ (by decide) n) _ s
    rw [List.range_succ, List.foldl_append, List.foldl_cons, List.foldl_nil, clkMhz_lockPll hnone hfailed, hmhz]
    by_cases hlast : n = k
    · subst hlast
      rw [if_pos ⟨rfl, hdomain⟩]
    · rw [if_neg fun h => hlast h.1]
      exact ih (Nat.le_of_succ_le hn) k (by omega) hdomain

theorem runImage_facts (s : State) (img : Fin 2) : (s.runImage img).reg .fwImage = img.val ∧
    (s.runImage img).reg .fwVersion = (Config.fwVersion img).toNat % Reg.modulus .fwVersion := by
  have hmod : Reg.modulus .fwImage = 256 := rfl
  unfold State.runImage
  dsimp only
  constructor
  · rw [State.reg_change _ (by decide), if_neg (by simp), State.reg_change _ (by decide), if_neg (by simp),
      State.reg_change _ (by decide), if_neg (by simp), State.reg_change _ (by decide), if_pos ⟨rfl, rfl⟩, hmod]
    omega
  · rw [State.reg_change _ (by decide), if_neg (by simp), State.reg_change _ (by decide), if_neg (by simp),
      State.reg_change _ (by decide), if_pos ⟨rfl, rfl⟩]

/-- The node once an image runs and the PLLs of its domains have locked. -/
def State.imageRuns (s : State) (f : StageFacts) (img : Fin 2) : State :=
  let s := (s.startPairs f).runImage img
  let s := (List.range 48).foldl (fun (u : State) k => u.lockPll f k) s
  let s := s.change .periphEn 0 (withBit (withBit (s.reg .periphEn) 0) 1)
  s.setReg .stageStarted 0 1

theorem initStage1_none {s : State} {f : StageFacts} (himage : f.image = none) : s.initStage1 f = s.enterFaulted := by
  unfold State.initStage1
  rw [himage]

theorem initStage1_image {s : State} {f : StageFacts} {img : Fin 2} (himage : f.image = some img) (hpair : s.pairStarts f = true) :
    s.initStage1 f =
      if 16 < (s.imageRuns f img).reg .posStrap then
        ((s.imageRuns f img).auditInternal (Reg.posStrap.objAt 0) 0 (leBytes 1 ((s.imageRuns f img).reg .posStrap))
          (leBytes 1 ((s.imageRuns f img).reg .posStrap))).enterFaulted
      else if (List.range 48).any fun k => (s.imageRuns f img).reg .pllFailed k = 1 then (s.imageRuns f img).enterFaulted
      else (s.imageRuns f img).setReg .initStage 0 2 := by
  unfold State.initStage1 State.imageRuns
  rw [himage]
  dsimp only
  rw [if_neg (by simp [hpair])]

theorem imageRuns_reg (s : State) (f : StageFacts) (img : Fin 2) {r : Reg} (hpairs : touchStartPairs (some r) = false)
    (himage : touchRunImage (some r) = false) (hpll : touchLockPll (some r) = false) (hr : r ∉ auditRegs) (hperiph : r ≠ .periphEn)
    (hstarted : r ≠ .stageStarted) (i : Nat) : (s.imageRuns f img).reg r i = s.reg r i := by
  unfold State.imageRuns
  dsimp only
  rw [State.reg_setReg_ne _ hstarted.symm, State.reg_change _ hr, if_neg fun h => hperiph h.1.symm,
    State.reg_foldl (fun v k => lockPll_reg v f k r hpll i), runImage_reg _ _ _ himage, startPairs_reg _ _ _ hpairs]

theorem imageRuns_facts {s : State} {f : StageFacts} (img : Fin 2) (hinit : s.reg .nodeState = 2) (hnone : f.pllNone = [])
    (hgood : ∀ k, k < 48 → s.reg .pllFailed k = 0) :
    (s.imageRuns f img).reg .nodeState = 2 ∧ (s.imageRuns f img).reg .stageStarted = 1 ∧
      (s.imageRuns f img).reg .fwImage = img.val ∧
      (s.imageRuns f img).reg .fwVersion = (Config.fwVersion img).toNat % Reg.modulus .fwVersion ∧
      (∀ k, k < 48 → (s.imageRuns f img).reg .pllFailed k = 0) ∧
      ∀ k, k < 48 → clockDomain k = true → (s.imageRuns f img).reg .clkMhz k = s.reg .pllMhz k % Reg.modulus .clkMhz := by
  have hlast : ∀ (u : State) (v : Nat) (r : Reg), r ∉ auditRegs → r ≠ .periphEn → r ≠ .stageStarted → ∀ i,
      ((u.change .periphEn 0 v).setReg .stageStarted 0 1).reg r i = u.reg r i := by
    intro u v r hr h1 h2 i
    rw [State.reg_setReg_ne _ h2.symm, State.reg_change _ hr, if_neg fun h => h1 h.1.symm]
  have hrun : ∀ (r : Reg), touchStartPairs (some r) = false → touchRunImage (some r) = false → ∀ i,
      ((s.startPairs f).runImage img).reg r i = s.reg r i := by
    intro r h1 h2 i
    rw [runImage_reg _ _ _ h2, startPairs_reg _ _ _ h1]
  have hpairs := ((⟨hinit⟩ : InInit s).startPairs f).out
  obtain ⟨hfwImage, hfwVersion⟩ := runImage_facts (s.startPairs f) img
  have hfailed : ∀ k, k < 48 → ((s.startPairs f).runImage img).reg .pllFailed k = 0 := fun k hk =>
    (hrun _ (by decide) (by decide) k).trans (hgood k hk)
  obtain ⟨hplls, hclocks⟩ := lockPlls_facts hnone hfailed (Nat.le_refl 48)
  unfold State.imageRuns
  dsimp only
  refine ⟨?_, ?_, ?_, ?_, fun k hk => ?_, fun k hk hdomain => ?_⟩
  · rw [hlast _ _ _ (by decide) (by decide) (by decide), State.reg_foldl (fun v k => lockPll_reg v f k _ (by decide) 0),
      runImage_reg _ _ _ (by decide), hpairs]
  · rw [State.reg_setReg, if_pos ⟨rfl, rfl⟩]
    rfl
  · rw [hlast _ _ _ (by decide) (by decide) (by decide), State.reg_foldl (fun v k => lockPll_reg v f k _ (by decide) 0), hfwImage]
  · rw [hlast _ _ _ (by decide) (by decide) (by decide), State.reg_foldl (fun v k => lockPll_reg v f k _ (by decide) 0), hfwVersion]
  · rw [hlast _ _ _ (by decide) (by decide) (by decide), hplls, hfailed k hk]
  · rw [hlast _ _ _ (by decide) (by decide) (by decide), hclocks k hk hdomain, hrun _ (by decide) (by decide)]

theorem initStage1_outcome (s : State) (f : StageFacts) :
    (f.image = none → (s.initStage1 f).reg .nodeState = 7) ∧
      ((s.initStage1 f).reg .initStage = 2 ∨ (s.initStage1 f).reg .nodeState = 7) := by
  cases himage : f.image with
  | none =>
    rw [initStage1_none himage]
    exact ⟨fun _ => enterFaulted_nodeState s, .inr (enterFaulted_nodeState s)⟩
  | some img =>
    refine ⟨fun h => (nomatch h), ?_⟩
    by_cases hpair : s.pairStarts f = true
    · rw [initStage1_image himage hpair]
      split
      · exact .inr (enterFaulted_nodeState _)
      · split
        · exact .inr (enterFaulted_nodeState _)
        · left
          rw [State.reg_setReg, if_pos ⟨rfl, rfl⟩]
          rfl
    · unfold State.initStage1
      rw [himage]
      dsimp only
      rw [if_pos (by simpa using hpair)]
      exact .inr (enterFaulted_nodeState s)

theorem initStage1_completes (s : State) (facts : StageFacts) (img : Fin 2) (hinit : s.reg .nodeState = 2)
    (hreset : s.reg .inReset ≠ 1) (hstage : s.reg .initStage = 1) (himage : facts.image = some img)
    (hpair : s.pairStarts facts = true) (hstrap : s.reg .posStrap ≤ 16) (hnone : facts.pllNone = [])
    (hgood : ∀ k, k < 48 → s.reg .pllFailed k = 0) :
    Completes (.initStageComplete facts) s fun t =>
      t.reg .nodeState = 2 ∧ t.reg .initStage = 2 ∧ t.reg .stageStarted = 1 ∧ t.reg .fwImage = img.val ∧
        t.reg .fwVersion = (Config.fwVersion img).toNat % Reg.modulus .fwVersion ∧
        ∀ k, k < 48 → clockDomain k = true → t.reg .clkMhz k = s.reg .pllMhz k % Reg.modulus .clkMhz := by
  refine ⟨_, exec_initStageComplete hinit hreset (.inl ⟨hstage, rfl⟩), ?_⟩
  have hstrapKept : (s.imageRuns facts img).reg .posStrap = s.reg .posStrap :=
    imageRuns_reg s facts img (by decide) (by decide) (by decide) (by decide) (by decide) (by decide) 0
  obtain ⟨hnode, hstarted, hfwImage, hfwVersion, hplls, hclocks⟩ := imageRuns_facts (s := s) (f := facts) img hinit hnone hgood
  have hany : ((List.range 48).any fun k => (s.imageRuns facts img).reg .pllFailed k = 1) = false := by
    rw [List.any_eq_false]
    intro k hk
    simp [hplls k (List.mem_range.1 hk)]
  rw [initStage1_image himage hpair, if_neg (by omega), hany, if_neg (by simp)]
  have hkept : ∀ r, r ≠ .initStage → ∀ i, ((s.imageRuns facts img).setReg .initStage 0 2).reg r i =
      (s.imageRuns facts img).reg r i := fun r hr i => State.reg_setReg_ne _ hr.symm ..
  refine ⟨(hkept _ (by decide) 0).trans hnode, ?_, (hkept _ (by decide) 0).trans hstarted, (hkept _ (by decide) 0).trans hfwImage,
    (hkept _ (by decide) 0).trans hfwVersion, fun k hk hdomain => (hkept _ (by decide) k).trans (hclocks k hk hdomain)⟩
  rw [State.reg_setReg, if_pos ⟨rfl, rfl⟩]
  rfl

/-! Stage 2. -/

/-- The host link as its training at stage 2 leaves it. -/
def State.hostAtInit (s : State) (f : StageFacts) : State :=
  match f.hostTrained with
  | none => s.change .hostLink 0 0
  | some (gen, width, cxl) => s.trainHost gen.val width.val cxl

theorem hostAtInit_reg (s : State) (f : StageFacts) {r : Reg} (hr : r ∉ auditRegs) (hhost : r ≠ .hostLink)
    (htrain : touchTrainHost (some r) = false) (i : Nat) : (s.hostAtInit f).reg r i = s.reg r i := by
  unfold State.hostAtInit
  split
  · rw [State.reg_change _ hr, if_neg fun h => hhost h.1.symm]
  · exact trainHost_reg _ _ _ _ _ htrain _

theorem initStage2_eq (s : State) (f : StageFacts) :
    s.initStage2 f =
      if ((f.segments.foldl (fun (u : State) e => u.failSegment e.1 e.2.val) s).hostAtInit f).dieCutOff then
        ((f.segments.foldl (fun (u : State) e => u.failSegment e.1 e.2.val) s).hostAtInit f).enterFaulted
      else ((f.segments.foldl (fun (u : State) e => u.failSegment e.1 e.2.val) s).hostAtInit f).passStage 2 := rfl

theorem dieCutOff_congr {s t : State} (h : ∀ i, t.reg .bridgeState i = s.reg .bridgeState i) : t.dieCutOff = s.dieCutOff := by
  unfold State.dieCutOff
  simp only [h]

theorem initStage2_outcome (s : State) (f : StageFacts) :
    (s.initStage2 f).reg .initStage = 3 ∨ (s.initStage2 f).reg .nodeState = 7 := by
  rw [initStage2_eq]
  split
  · exact .inr (enterFaulted_nodeState _)
  · exact .inl (passStage_facts (by decide)).1

theorem initStage2_completes (s : State) (facts : StageFacts) (hinit : s.reg .nodeState = 2) (hreset : s.reg .inReset ≠ 1)
    (hstage : s.reg .initStage = 2) (hsegments : facts.segments = []) (hroutes : s.dieCutOff = false) :
    Completes (.initStageComplete facts) s fun t =>
      t.reg .nodeState = 2 ∧ t.reg .initStage = 3 ∧ t.reg .stageStarted = 2 ∧
        (facts.hostTrained = none → t.reg .hostLink = 0) := by
  refine ⟨_, exec_initStageComplete hinit hreset (.inr (.inl ⟨hstage, rfl⟩)), ?_⟩
  have hcut : (s.hostAtInit facts).dieCutOff = false :=
    (dieCutOff_congr fun i => hostAtInit_reg s facts (by decide) (by decide) (by decide) i).trans hroutes
  rw [initStage2_eq, hsegments, List.foldl_nil, hcut, if_neg (by decide)]
  obtain ⟨hnext, hstarted, hkept⟩ := passStage_facts (s := s.hostAtInit facts) (k := 2) (by decide)
  refine ⟨?_, hnext, hstarted, fun htrained => ?_⟩
  · rw [hkept _ (by decide) (by decide), hostAtInit_reg s facts (by decide) (by decide) (by decide), hinit]
  · rw [hkept _ (by decide) (by decide), State.hostAtInit, htrained]
    dsimp only
    rw [State.reg_change _ (by decide), if_pos ⟨rfl, rfl⟩]
    rfl

/-! Stage 3. -/

/-- The memory as the tests of stage 3 leave it. -/
def State.memoryTested (s : State) (f : StageFacts) : State :=
  let s := (List.range 1024).foldl (fun (u : State) ch =>
    if u.chanState ch = csRetraining || u.chanState ch = csTesting then u.change .channelState ch csActive else u) s
  let s := s.readJournals f
  let s := f.channels.foldl (fun (u : State) e => u.initChannel e.1.val e.2) s
  let s := f.baseDies.foldl (fun (u : State) st => u.failBaseDie st.val) s
  let s := f.slices.foldl (fun (u : State) e => u.initSlice e.1.val e.2.val) s
  s.checkSlots f

theorem initStage3_eq (s : State) (f : StageFacts) :
    s.initStage3 f = if (s.memoryTested f).isIn stFaulted then s.memoryTested f else (s.memoryTested f).passStage 3 := rfl

theorem initStage3_outcome (s : State) (f : StageFacts) :
    (s.initStage3 f).reg .initStage = 4 ∨ (s.initStage3 f).reg .nodeState = 7 := by
  rw [initStage3_eq]
  split
  · next hfaulted => exact .inr (by simpa [State.isIn] using hfaulted)
  · exact .inl (passStage_facts (by decide)).1

theorem initChannel_pass (s : State) (ch : Nat) : s.initChannel ch .pass = s := by
  unfold State.initChannel
  dsimp only
  split
  · rfl
  · rfl

theorem InInit.readJournals {s : State} (h : InInit s) (f : StageFacts) : InInit (s.readJournals f) := by
  unfold State.readJournals
  refine .foldl (fun u k hu => hu.closeEntry f k) _ (.foldl (fun u k hu => ?_) _ h)
  exact (hu.setReg (by decide) ..).setReg (by decide) ..

/-- Tests that pass leave the node as it is. -/
theorem initChannels_pass {l : List (Fin 1024 × PatternResult)} (hpass : ∀ e ∈ l, e.2 = .pass) (s : State) :
    l.foldl (fun (u : State) e => u.initChannel e.1.val e.2) s = s := by
  induction l with
  | nil => rfl
  | cons e l ih =>
    rw [List.foldl_cons, hpass e List.mem_cons_self, initChannel_pass, ih fun x hx => hpass x (List.mem_cons_of_mem _ hx)]

theorem InInit.memoryTested {s : State} (h : InInit s) {f : StageFacts} (hbase : f.baseDies = [])
    (hchannels : ∀ e ∈ f.channels, e.2 = .pass) : InInit (s.memoryTested f) := by
  have htrained : ∀ (u : State) (ch : Nat), InInit u → InInit
      (if u.chanState ch = csRetraining || u.chanState ch = csTesting then u.change .channelState ch csActive else u) :=
    fun u ch hu => .ite (hu.change (by decide) ..) hu
  have hread := (InInit.foldl htrained (List.range 1024) h).readJournals f
  have hslices := InInit.foldl (fun u (e : Fin 8 × Fin 34) hu => hu.initSlice e.1.val e.2.val) f.slices hread
  unfold State.memoryTested
  dsimp only
  rw [initChannels_pass hchannels, hbase, List.foldl_nil]
  exact hslices.of_reg (checkSlots_reg _ _ _ (by decide) 0)

theorem initStage3_completes (s : State) (facts : StageFacts) (hinit : s.reg .nodeState = 2) (hreset : s.reg .inReset ≠ 1)
    (hstage : s.reg .initStage = 3) (hbase : facts.baseDies = []) (hchannels : ∀ e ∈ facts.channels, e.2 = .pass) :
    Completes (.initStageComplete facts) s fun t =>
      t.reg .nodeState = 2 ∧ t.reg .initStage = 4 ∧ t.reg .stageStarted = 3 := by
  refine ⟨_, exec_initStageComplete hinit hreset (.inr (.inr (.inl ⟨hstage, rfl⟩))), ?_⟩
  have htested := (InInit.memoryTested ⟨hinit⟩ hbase hchannels).out
  rw [initStage3_eq, if_neg (by simp [State.isIn, htested])]
  obtain ⟨hnext, hstarted, hkept⟩ := passStage_facts (s := s.memoryTested facts) (k := 3) (by decide)
  exact ⟨(hkept _ (by decide) (by decide) 0).trans htested, hnext, hstarted⟩

/-! Stage 4. -/

/-- A coupler is marked as failed. -/
def State.failCoupler (s : State) (d : Nat) : State :=
  if s.flag .couplerState 0 d then s
  else (s.change .couplerState 0 (withBit (s.reg .couplerState) d)).logError {
    code := 0x18, severity := 1, outcome := 2, unitKind := 8, unit := d }

/-- The compute side as the tests of stage 4 leave it. -/
def State.computeTested (s : State) (f : StageFacts) : State :=
  let s := f.bays.foldl (fun (u : State) e => u.initBay e.1.val e.2.val) s
  let s := (f.couplers.map Fin.val).foldl State.failCoupler s
  let s := f.cores.foldl (fun (u : State) c => u.initCore c.val) s
  s.placeBays.placeHarts.countModels

theorem initStage4_eq (s : State) (f : StageFacts) :
    s.initStage4 f =
      if (s.computeTested f).reg .couplerState = 255 then (s.computeTested f).enterFaulted else (s.computeTested f).passStage 4 := rfl

theorem initStage4_outcome (s : State) (f : StageFacts) :
    (s.initStage4 f).reg .initStage = 5 ∨ (s.initStage4 f).reg .nodeState = 7 := by
  rw [initStage4_eq]
  split
  · exact .inr (enterFaulted_nodeState _)
  · exact .inl (passStage_facts (by decide)).1

theorem failCoupler_flag (s : State) (d : Nat) {j : Nat} (hj : j < 8) :
    (s.failCoupler d).flag .couplerState 0 j = (decide (d = j) || s.flag .couplerState 0 j) := by
  unfold State.failCoupler
  split
  · next hfailed =>
    by_cases hd : d = j
    · subst hd
      simp [hfailed]
    · simp [hd]
  · have hmod : Reg.modulus .couplerState = 2 ^ 8 := rfl
    unfold State.flag
    rw [State.reg_logError _ (by decide), State.reg_change _ (by decide), if_pos ⟨rfl, rfl⟩, hmod, bit, Nat.testBit_mod_two_pow]
    simpa [hj, bit] using bit_withBit (s.reg .couplerState) d j

theorem failCouplers_flag (ds : List Nat) (s : State) {j : Nat} (hj : j < 8) :
    (ds.foldl State.failCoupler s).flag .couplerState 0 j = (decide (j ∈ ds) || s.flag .couplerState 0 j) := by
  induction ds generalizing s with
  | nil => simp
  | cons d ds ih =>
    rw [List.foldl_cons, ih, failCoupler_flag _ _ hj]
    simp only [List.mem_cons, Bool.decide_or, eq_comm (a := d)]
    cases decide (j = d) <;> cases decide (j ∈ ds) <;> rfl

theorem InInit.failCoupler {s : State} (h : InInit s) (d : Nat) : InInit (s.failCoupler d) := by
  unfold State.failCoupler
  exact .ite h ((h.change (by decide) ..).logError _)

theorem InInit.computeTested {s : State} (h : InInit s) (f : StageFacts) : InInit (s.computeTested f) := by
  have hbays := InInit.foldl (fun u (e : Fin 8 × Fin 34) hu => hu.initBay e.1.val e.2.val) f.bays h
  have hcouplers := InInit.foldl (fun u d hu => hu.failCoupler d) (f.couplers.map Fin.val) hbays
  have hcores := InInit.foldl (fun u (c : Fin 192) hu => hu.of_reg (initCore_reg u c.val _ (by decide) 0)) f.cores hcouplers
  unfold State.computeTested
  dsimp only
  refine hcores.of_reg ?_
  rw [countModels_reg _ _ (by decide), placeHarts_reg _ _ (by decide), placeBays_reg _ _ (by decide)]

theorem computeTested_flag (s : State) (f : StageFacts) {j : Nat} (hj : j < 8) :
    (s.computeTested f).flag .couplerState 0 j = (decide (j ∈ f.couplers.map Fin.val) || s.flag .couplerState 0 j) := by
  have hbays : (f.bays.foldl (fun (u : State) e => u.initBay e.1.val e.2.val) s).flag .couplerState 0 j =
      s.flag .couplerState 0 j :=
    congrArg (bit · j) (State.reg_foldl (fun v e => initBay_reg v _ _ _ (by decide) 0) f.bays s)
  unfold State.computeTested
  dsimp only
  rw [← hbays, ← failCouplers_flag _ _ hj]
  refine congrArg (bit · j) ?_
  rw [countModels_reg _ _ (by decide), placeHarts_reg _ _ (by decide), placeBays_reg _ _ (by decide),
    State.reg_foldl fun v c => initCore_reg v _ _ (by decide) 0]

theorem initStage4_completes (s : State) (facts : StageFacts) (d : Fin 8) (hinit : s.reg .nodeState = 2)
    (hreset : s.reg .inReset ≠ 1) (hstage : s.reg .initStage = 4) (hd : d ∉ facts.couplers)
    (hgood : s.flag .couplerState 0 d = false) :
    Completes (.initStageComplete facts) s fun t =>
      t.reg .nodeState = 2 ∧ t.reg .initStage = 5 ∧ t.reg .stageStarted = 4 ∧
        ∀ c, c ∈ facts.couplers → t.flag .couplerState 0 c = true := by
  refine ⟨_, exec_initStageComplete hinit hreset (.inr (.inr (.inr (.inl ⟨hstage, rfl⟩)))), ?_⟩
  have hflag : (s.computeTested facts).flag .couplerState 0 d = false := by
    rw [computeTested_flag _ _ d.isLt, hgood, Bool.or_false]
    simpa [Fin.val_inj] using hd
  have hsome : (s.computeTested facts).reg .couplerState ≠ 255 := by
    intro hall
    have hbit : bit 255 d = false := by
      rw [← hall]
      exact hflag
    exact absurd hbit ((by decide : ∀ k : Fin 8, ¬ bit 255 k = false) d)
  rw [initStage4_eq, if_neg hsome]
  obtain ⟨hnext, hstarted, hkept⟩ := passStage_facts (s := s.computeTested facts) (k := 4) (by decide)
  refine ⟨(hkept _ (by decide) (by decide) 0).trans (InInit.computeTested ⟨hinit⟩ facts).out, hnext, hstarted, fun c hc => ?_⟩
  have hfailed : (s.computeTested facts).flag .couplerState 0 c = true := by
    rw [computeTested_flag _ _ c.isLt]
    simp [List.mem_map_of_mem hc]
  exact (congrArg (bit · c) (hkept .couplerState (by decide) (by decide) 0)).trans hfailed

/-! Stages 5 and 6. -/

theorem initStage5_settled {s : State} (hsettled : ((List.range 24).all fun l => s.linkSettled l) = true)
    (hplace : s.flag .location 0 31 = true) : s.initStage5 = (s.setReg .stageStarted 0 5).setReg .initStage 0 6 := by
  unfold State.initStage5
  rw [hsettled, hplace, if_neg (by decide), if_neg (by decide)]

theorem initStage5_outcome {s : State} (hstage : s.reg .initStage = 5)
    (hsettled : ((List.range 24).all fun l => s.linkSettled l) = true) :
    s.initStage5.reg .initStage = if s.flag .location 0 31 then 6 else 5 := by
  by_cases hplace : s.flag .location 0 31 = true
  · rw [initStage5_settled hsettled hplace, hplace, State.reg_setReg, if_pos ⟨rfl, rfl⟩]
    rfl
  · rw [Bool.not_eq_true] at hplace
    unfold State.initStage5
    rw [hsettled, hplace, if_neg (by decide), if_pos (by decide), State.reg_setReg_ne _ (by decide), hstage]
    rfl

/-- What stage 6 learns of the rates of corrected errors. -/
def State.baselined (s : State) (f : StageFacts) : State :=
  let rate := fun (n : Nat) => 2 * n / max 1 f.seconds
  let s := (s.setReg .squallScore16 0 0).setReg .squallAt 0 s.now
  let s := f.stackCorrected.foldl (fun (u : State) e => u.setReg .squallAllowStack e.1.val (rate e.2)) s
  f.linkCorrected.foldl (fun (u : State) e => u.setReg .squallAllowLink e.1.val (rate e.2)) s

theorem baselined_facts (s : State) (f : StageFacts) :
    (s.baselined f).reg .degradeCause = s.reg .degradeCause ∧ (s.baselined f).reg .squallScore16 = 0 := by
  have hrates : ∀ (u : State) (r : Reg), r ≠ .squallAllowStack → r ≠ .squallAllowLink →
      (f.linkCorrected.foldl (fun (u : State) e => u.setReg .squallAllowLink e.1.val (2 * e.2 / max 1 f.seconds))
        (f.stackCorrected.foldl (fun (u : State) e => u.setReg .squallAllowStack e.1.val (2 * e.2 / max 1 f.seconds)) u)).reg r = u.reg r := by
    intro u r h1 h2
    rw [State.reg_foldl fun v e => State.reg_setReg_ne v h2.symm _ _ _, State.reg_foldl fun v e => State.reg_setReg_ne v h1.symm _ _ _]
  unfold State.baselined
  dsimp only
  constructor
  · rw [hrates _ _ (by decide) (by decide), State.reg_setReg_ne _ (by decide), State.reg_setReg_ne _ (by decide)]
  · rw [hrates _ _ (by decide) (by decide), State.reg_setReg_ne _ (by decide), State.reg_setReg, if_pos ⟨rfl, rfl⟩]
    rfl

/-- The end of INIT. -/
def State.endInit (s : State) : State :=
  let s := (s.setReg .freezeState 0 1).setReg .stageStarted 0 6
  ((s.setReg .initStage 0 0).setReg .initEnded 0 1).enter (if s.reg .degradeCause = 0 then stReady else stDegraded)

theorem initStage6_eq (s : State) (f : StageFacts) : s.initStage6 f = (s.baselined f).endInit := rfl

theorem endInit_facts (s : State) :
    s.endInit.reg .nodeState = (if s.reg .degradeCause = 0 then 3 else 6) ∧ s.endInit.reg .initStage = 0 ∧
      s.endInit.reg .stageStarted = 6 ∧ s.endInit.reg .initEnded = 1 ∧ s.endInit.reg .freezeState = 1 ∧
      s.endInit.reg .squallScore16 = s.reg .squallScore16 := by
  unfold State.endInit State.enter
  simp only [State.reg_setReg_ne _ (show Reg.stageStarted ≠ .degradeCause by decide),
    State.reg_setReg_ne _ (show Reg.freezeState ≠ .degradeCause by decide)]
  refine ⟨?_, ?_, ?_, ?_, ?_, ?_⟩
  · rw [State.reg_change _ (by decide), if_pos ⟨rfl, rfl⟩]
    split
    · rfl
    · rfl
  · rw [State.reg_change _ (by decide), if_neg (by simp), State.reg_setReg_ne _ (by decide), State.reg_setReg, if_pos ⟨rfl, rfl⟩]
    rfl
  · rw [State.reg_change _ (by decide), if_neg (by simp), State.reg_setReg_ne _ (by decide), State.reg_setReg_ne _ (by decide),
      State.reg_setReg, if_pos ⟨rfl, rfl⟩]
    rfl
  · rw [State.reg_change _ (by decide), if_neg (by simp), State.reg_setReg, if_pos ⟨rfl, rfl⟩]
    rfl
  · rw [State.reg_change _ (by decide), if_neg (by simp), State.reg_setReg_ne _ (by decide), State.reg_setReg_ne _ (by decide),
      State.reg_setReg_ne _ (by decide), State.reg_setReg, if_pos ⟨rfl, rfl⟩]
    rfl
  · rw [State.reg_change _ (by decide), if_neg (by simp), State.reg_setReg_ne _ (by decide), State.reg_setReg_ne _ (by decide),
      State.reg_setReg_ne _ (by decide), State.reg_setReg_ne _ (by decide)]

theorem initStage6_facts (s : State) (f : StageFacts) :
    (s.initStage6 f).reg .nodeState = (if s.reg .degradeCause = 0 then 3 else 6) ∧ (s.initStage6 f).reg .initStage = 0 ∧
      (s.initStage6 f).reg .stageStarted = 6 ∧ (s.initStage6 f).reg .initEnded = 1 ∧ (s.initStage6 f).reg .freezeState = 1 ∧
      (s.initStage6 f).reg .squallScore16 = 0 := by
  obtain ⟨hcause, hscore⟩ := baselined_facts s f
  obtain ⟨hnode, hstage, hstarted, hended, hfreeze, hkept⟩ := endInit_facts (s.baselined f)
  rw [initStage6_eq]
  exact ⟨hcause ▸ hnode, hstage, hstarted, hended, hfreeze, hkept.trans hscore⟩

theorem initStage6_completes (s : State) (facts : StageFacts) (hinit : s.reg .nodeState = 2) (hreset : s.reg .inReset ≠ 1)
    (hstage : s.reg .initStage = 6) :
    Completes (.initStageComplete facts) s fun t =>
      t.reg .nodeState = (if s.reg .degradeCause = 0 then 3 else 6) ∧ t.reg .initStage = 0 ∧
        t.reg .stageStarted = 6 ∧ t.reg .initEnded = 1 ∧ t.reg .freezeState = 1 ∧ t.reg .squallScore16 = 0 :=
  ⟨_, exec_initStageComplete hinit hreset (.inr (.inr (.inr (.inr (.inr ⟨hstage, rfl⟩))))), initStage6_facts s facts⟩

theorem initStage5_completes (s : State) (facts : StageFacts) (hinit : s.reg .nodeState = 2) (hreset : s.reg .inReset ≠ 1)
    (hstage : s.reg .initStage = 5) (hsettled : ((List.range 24).all fun l => s.linkSettled l) = true)
    (hplace : s.flag .location 0 31 = true) :
    Completes (.initStageComplete facts) s fun t => t = (s.setReg .stageStarted 0 5).setReg .initStage 0 6 :=
  ⟨_, exec_initStageComplete hinit hreset (.inr (.inr (.inr (.inr (.inl ⟨hstage, rfl⟩))))), initStage5_settled hsettled hplace⟩

/-- Settles O17: the first clause takes each stage in turn, by what ends it; the others are the passages of the stages. -/
theorem initComplete : Obligations.InitComplete := by
  refine ⟨fun s facts hinit hreset hlow hhigh => ?_, initStage1_completes, initStage2_completes, initStage3_completes,
    initStage4_completes, initStage5_completes, initStage6_completes⟩
  have hstages : s.reg .initStage = 1 ∨ s.reg .initStage = 2 ∨ s.reg .initStage = 3 ∨ s.reg .initStage = 4 ∨
      s.reg .initStage = 5 ∨ s.reg .initStage = 6 := by omega
  rcases hstages with hstage | hstage | hstage | hstage | hstage | hstage
  · refine ⟨_, exec_initStageComplete hinit hreset (.inl ⟨hstage, rfl⟩), ?_⟩
    simpa [hstage] using initStage1_outcome s facts
  · refine ⟨_, exec_initStageComplete hinit hreset (.inr (.inl ⟨hstage, rfl⟩)), ?_⟩
    simpa [hstage] using initStage2_outcome s facts
  · refine ⟨_, exec_initStageComplete hinit hreset (.inr (.inr (.inl ⟨hstage, rfl⟩))), ?_⟩
    simpa [hstage] using initStage3_outcome s facts
  · refine ⟨_, exec_initStageComplete hinit hreset (.inr (.inr (.inr (.inl ⟨hstage, rfl⟩)))), ?_⟩
    simpa [hstage] using initStage4_outcome s facts
  · refine ⟨_, exec_initStageComplete hinit hreset (.inr (.inr (.inr (.inr (.inl ⟨hstage, rfl⟩))))), ?_⟩
    simpa [hstage] using initStage5_outcome hstage
  · refine ⟨_, exec_initStageComplete hinit hreset (.inr (.inr (.inr (.inr (.inr ⟨hstage, rfl⟩))))), ?_⟩
    obtain ⟨hnode, hnext, hstarted, _, hfreeze, _⟩ := initStage6_facts s facts
    simp [hstage, hnode, hnext, hstarted, hfreeze]

end Sys2Proof.Machine
end

section
/-! The time-step boundary, the end of Lull and Crosswind's messages (R38, R226, R467, R469, R472, R473, R521). -/

namespace Sys2Proof.Machine

/-! The boundary and the end of Lull. -/

theorem timeStepBoundary_completes (s : State) (hreached : s.boundaryReached = true) (hruns : s.reg .jobRunning = 1) :
    Completes .timeStepBoundary s fun t =>
      (∃ u : State, u = s.passBoundary ∧ t = if u.lullReached then u.enterLull else u) ∧
        (s.deferred = [] → s.reg .xwState ≠ 2 → s.reg .recoveryState < 4 →
          t.reg .tstep = (s.reg .tstep + 1) % 2 ^ 64) := by
  have hexec : exec .timeStepBoundary s = execTimeStepBoundary s := rfl
  have hpasses : (s.boundaryReached && decide (s.reg .jobRunning = 1)) = true := by simp [hreached, hruns]
  rw [execTimeStepBoundary] at hexec
  simp only [hpasses, if_true] at hexec
  refine ⟨_, hexec, ⟨_, rfl, rfl⟩, fun hdeferred hpaired hrecovery => ?_⟩
  rw [← passBoundary_tstep s hdeferred hpaired hrecovery]
  split
  · exact enterLull_reg _ _ (by decide +kernel) 0
  · rfl

theorem ratedState_congr {s t : State} (hcause : t.reg .degradeCause = s.reg .degradeCause)
    (hnode : t.reg .nodeState = s.reg .nodeState) (hjob : t.reg .jobRunning = s.reg .jobRunning) : t.ratedState = s.ratedState := by
  unfold State.ratedState State.isIn
  rw [hcause, hnode, hjob]

theorem ratedState_lt (s : State) : s.ratedState < 256 := by
  unfold State.ratedState
  split
  · decide
  · split
    · decide
    · decide

theorem nodeState_enter (s : State) {v : Nat} (hv : v < 256) : (s.enter v).reg .nodeState = v := by
  unfold State.enter
  rw [State.reg_change _ (by decide), if_pos ⟨rfl, rfl⟩, Reg.modulus_nodeState, Nat.mod_eq_of_lt hv]

/-- The end of Lull brings the node to its rated state. -/
theorem nodeState_resume (s : State) : s.resume.reg .nodeState = s.ratedState := by
  have hrated : (s.setReg .stateRequest 0 0).ratedState = s.ratedState :=
    ratedState_congr (State.reg_setReg_ne _ (by decide) ..) (State.reg_setReg_ne _ (by decide) ..)
      (State.reg_setReg_ne _ (by decide) ..)
  have hentered := nodeState_enter (s.setReg .stateRequest 0 0) (ratedState_lt s)
  unfold State.resume
  dsimp only
  rw [hrated]
  split
  · exact hentered
  · exact (releaseHarts_reg _ _ (by decide +kernel) 0).trans hentered

theorem stateRequestResume_completes (s : State) (q : Requester) (haccepts : Accepts s q .stateRequest 0 [4]) :
    Completes (.stateRequestResume q) s fun t =>
      Answered q (Reg.stateRequest.objAt 0) t ∧ t.reg .nodeState = s.ratedState := by
  obtain ⟨u, hu, hexec⟩ := exists_accepted (.stateRequestResume q) haccepts rfl rfl (by decide)
  refine ⟨_, hexec, answered_answer .., (nodeState_resume u).trans ?_⟩
  exact ratedState_congr (accepted_reg hu _ (by decide) (by decide) 0) (accepted_reg hu _ (by decide) (by decide) 0)
    (accepted_reg hu _ (by decide) (by decide) 0)

/-! Node digests that the hot spare keeps. -/

theorem nodeDigestMessage_completes (s : State) (v : Arrival) (tstep digest : Dword) (hheard : Heard s v.pos.val v.h)
    (hspare : bit (s.reg .groupMap s.pos) 21 = true) :
    Completes (.nodeDigestMessage v tstep digest) s fun t =>
      t.keptFor.find? (fun e => decide (e.1 = v.h.src.val) && decide (e.2.1 = tstep.toNat)) = some (v.h.src.val,
        tstep.toNat, digest.toNat) ∧
        (∀ e, e.1 ≠ v.h.src.val → (e ∈ t.keptFor ↔ e ∈ s.keptFor)) ∧ t.regs = s.regs ∧ MemKept s t := by
  have hexec : exec (.nodeDigestMessage v tstep digest) s = execNodeDigestMessage v tstep digest s := rfl
  rw [execNodeDigestMessage, takeControl_of_heard hheard, if_pos hspare] at hexec
  refine ⟨_, hexec, ?_, fun e he => ?_, rfl, fun _ => rfl⟩
  · simp
  · have hmine : e ∉ (s.keptFor.filter fun e => e.1 = v.h.src.val && e.2.1 ≠ tstep.toNat).take 1023 := by
      intro hin
      have hfrom := (List.mem_filter.1 (List.mem_of_mem_take hin)).2
      rw [Bool.and_eq_true, decide_eq_true_eq] at hfrom
      exact he hfrom.1
    have hnew : e ≠ (v.h.src.val, tstep.toNat, digest.toNat) := fun h => he (congrArg Prod.fst h)
    simp only [List.mem_cons, List.mem_append, hnew, hmine, false_or, List.mem_filter]
    simp [he]

/-! Messages of the exchange. -/

theorem takeXw_of_partner {s : State} {v : Arrival} (hpartner : FromPartner s v) (b : Body) (f : State → State) :
    s.takeXw v b f = f s := by
  obtain ⟨henabled, hway, hclass, hepoch, hserves⟩ := hpartner
  have hcame : (if v.h.fwd then s.unusable (s.reg .xwPartner) else decide (v.pos.val = s.reg .xwPartner)) = true := by
    split at hway
    · next hfwd => rw [if_pos hfwd, hway]
    · next hfwd => rw [if_neg hfwd, decide_eq_true hway]
  unfold State.takeXw
  dsimp only
  rw [hcame, if_pos (by simp [henabled, hclass, hepoch]), hserves, if_neg (by decide)]

theorem takeExchange_of_partner {s : State} {v : Arrival} (hpartner : FromPartner s v) (hpaired : s.reg .xwState = xwPaired) (b : Body)
    (f : State → State) : s.takeExchange v b f = f s := by
  rw [State.takeExchange, takeXw_of_partner hpartner, if_pos hpaired]

theorem crosswindDigestMessage_completes (s : State) (v : Arrival) (tstep digest : Dword) (hpartner : FromPartner s v)
    (hpaired : s.reg .xwState = xwPaired) :
    Completes (.crosswindDigestMessage v tstep digest) s fun t =>
      t = ({ s.addReg .xwReceived 0 1 with xwTheirs := s.xwTheirs ++ [(tstep.toNat, digest.toNat)] } :
        State).endHolds.compareSteps.compareStreams :=
  ⟨_, congrArg Host.Outcome.next (takeExchange_of_partner hpartner hpaired _ _), rfl⟩

theorem crosswindStreamDigests_completes (s : State) (v : Arrival) (tstep : Dword) (streams : List (Nat × Nat))
    (hpartner : FromPartner s v) (hpaired : s.reg .xwState = xwPaired) :
    Completes (.crosswindStreamDigests v tstep streams) s fun t =>
      t = ({ s with xwStreams := some (tstep.toNat, streams) } : State).compareStreams :=
  ⟨_, congrArg Host.Outcome.next (takeExchange_of_partner hpartner hpaired _ _), rfl⟩

theorem crosswindPairingMessage_completes (s : State) (v : Arrival) (m : Option XwPairing) (hpartner : FromPartner s v) :
    Completes (.crosswindPairingMessage v m) s fun t =>
      (m = none → t = s.endPairing) ∧ (∀ p, m = some p →
        t = ({ s with xwMsg := some p } : State).decidePairing.settleEpochs) := by
  refine ⟨_, congrArg Host.Outcome.next (takeXw_of_partner hpartner (.xwPair m) _), ?_⟩
  cases m with
  | none => exact ⟨fun _ => rfl, fun p h => (nomatch h)⟩
  | some p =>
    refine ⟨fun h => (nomatch h), fun p' h => ?_⟩
    cases h
    rfl

/-! A difference that is located ends the pairing. -/

theorem xwState_setXw (s : State) {v : Nat} (hv : v < 256) : (s.setXw v).reg .xwState = v := by
  have hset : ∀ u : State, (u.change .xwState 0 v).reg .xwState = v := fun u => by
    rw [State.reg_change _ (by decide), if_pos ⟨rfl, rfl⟩, Reg.modulus_xwState, Nat.mod_eq_of_lt hv]
  unfold State.setXw
  dsimp only
  split
  · rw [State.reg_foldl fun u (e : Nat × Bay) => endHold_reg u e.1 .xwState (by decide) 0]
    exact hset s
  · exact hset s

theorem xwDiff_endHolds (l : List (Nat × Bay)) (s : State) : (l.foldl (fun (u : State) e => u.endHold e.1) s).xwDiff = s.xwDiff := by
  induction l generalizing s with
  | nil => rfl
  | cons e l ih =>
    rw [List.foldl_cons, ih]
    unfold State.endHold
    dsimp only
    split
    · split
      · rfl
      · rfl
    · rfl

theorem xwDiff_change (s : State) (r : Reg) (i v : Nat) : (s.change r i v).xwDiff = s.xwDiff := by
  obtain ⟨_, _, _, _, h⟩ := logged_change s r i v
  rw [h]

theorem xwDiff_setXw (s : State) (v : Nat) : (s.setXw v).xwDiff = s.xwDiff := by
  unfold State.setXw
  dsimp only
  split
  · rw [xwDiff_endHolds]
    exact xwDiff_change ..
  · exact xwDiff_change ..

theorem xwDiff_requestLull (s : State) : s.requestLull.xwDiff = s.xwDiff := by
  unfold State.requestLull
  split
  · exact xwDiff_change ..
  · rfl

/-- The pairing has ended in a difference that is located and raised (R473). -/
def Diverged (t : State) : Prop := t.reg .xwState = 4 ∧ t.xwDiff = none ∧ bit (t.reg .alertCause) 5 = true

theorem diverged_raise (s : State) :
    Diverged (({ s with xwDiff := none, xwOwn := [], xwTheirs := [] }.setXw xwDiverged).raise .alertCause 5) := by
  refine ⟨?_, ?_, ?_⟩
  · rw [State.reg_raise _ (by decide), if_neg (by simp)]
    exact xwState_setXw _ (by decide)
  · exact (xwDiff_change ..).trans (xwDiff_setXw ..)
  · rw [State.reg_raise _ (by decide), if_pos ⟨rfl, rfl⟩, Reg.modulus_alertCause, bit_mod32 _ _ (by decide)]
    simp

theorem Diverged.requestLull {s : State} (h : Diverged s) : Diverged s.requestLull := by
  obtain ⟨hstate, hdiff, halert⟩ := h
  exact ⟨(requestLull_reg _ _ (by decide) 0).trans hstate, (xwDiff_requestLull s).trans hdiff,
    (congrArg (bit · 5) (requestLull_reg _ _ (by decide) 0)).trans halert⟩

theorem diverged_diverge (s : State) (d : XwDiff) (gran dstep addr ownWord word : Nat) :
    Diverged (s.diverge d gran dstep addr ownWord word) := by
  unfold State.diverge
  dsimp only
  split
  · exact (diverged_raise _).requestLull
  · exact diverged_raise _

theorem diverged_compareChunks (s : State) (d : XwDiff) (records : List (Nat × Nat)) (intact : Bool) (data : List Byte) (word : Nat) :
    Diverged (s.compareChunks d records intact data word) := by
  unfold State.compareChunks
  split
  · exact diverged_diverge ..
  · dsimp only
    split
    · split
      · exact diverged_diverge ..
      · exact diverged_diverge ..
    · exact diverged_diverge ..

theorem crosswindChunkExchange_completes (s : State) (v : Arrival) (records : List (Nat × Nat)) (intact : Bool) (data : List Byte)
    (word : Dword) (d : XwDiff) (hdiff : s.xwDiff = some d) (hfound : d.found = true) (hpartner : FromPartner s v)
    (hpaired : s.reg .xwState = xwPaired) :
    Completes (.crosswindChunkExchange v records intact data word) s fun t =>
      t.reg .xwState = 4 ∧ t.xwDiff = none ∧ bit (t.reg .alertCause) 5 = true := by
  have hexec : exec (.crosswindChunkExchange v records intact data word) s =
      execCrosswindChunkExchange v records intact data word s := rfl
  rw [execCrosswindChunkExchange, takeExchange_of_partner hpartner hpaired, hdiff] at hexec
  dsimp only at hexec
  rw [if_pos hfound] at hexec
  exact ⟨_, hexec, diverged_compareChunks ..⟩

/-- Settles O20: the boundary from `passBoundary_tstep`, the end of Lull from the node's rated state, each message from what it
does once it has come from the partner or a member. -/
theorem boundaryAndCrosswindComplete : Obligations.BoundaryAndCrosswindComplete :=
  ⟨timeStepBoundary_completes, stateRequestResume_completes, nodeDigestMessage_completes, crosswindDigestMessage_completes,
    crosswindStreamDigests_completes, crosswindChunkExchange_completes, crosswindPairingMessage_completes⟩

end Sys2Proof.Machine
end

section
/-! Power inputs, rails, the crystal and resets (R38, R40, R570, R613 to R615, R629, R630, R635, R636). -/

namespace Sys2Proof.Machine

/-! VIN_AON. -/

/-- What the loss of the job and of the stacks leaves at VIN_AON (R524, R629). -/
def State.powerOnReset (s : State) : State :=
  { State.reset with
    pending := s.pending, free := s.free, out := s.out, journal := s.journal
    mem := s.mem, poisonAtoms := s.poisonAtoms, spareMarks := s.spareMarks, mirror := s.mirror, slotA := s.slotA, slotB := s.slotB
    shards := s.shards
    regs := s.regs.filter fun (e : (Reg × Nat) × Nat) => e.1.1.info.domain = .board ∧ e.1.1 ≠ .aonAbsent }

theorem reg_powerOnReset (s : State) (r : Reg) (i : Nat) :
    s.powerOnReset.reg r i = if r.info.domain = .board ∧ r ≠ .aonAbsent then s.reg r i else r.dflt i := by
  have hfilter := Store.get_filter (d := regDflt) (fun k : Reg × Nat => decide (k.1.info.domain = .board ∧ k.1 ≠ .aonAbsent))
    s.regs (r, i)
  simp only [decide_eq_true_eq] at hfilter
  exact hfilter

theorem vinAonApplied_completes (s : State) (habsent : s.reg .aonAbsent ≠ 0) :
    Completes .vinAonApplied s fun t =>
      t.reg .aonAbsent = 0 ∧ t.reg .nodeState = 0 ∧ MemKept s t ∧ t.journal = s.journal ∧
        ∀ r, r.info.domain ≠ .board → r ∉ [.auditHead, .auditMirrorHead, .auditAcked] → ∀ i, t.reg r i = r.dflt i := by
  have hexec : exec .vinAonApplied s = .next (((s.powerOnReset.setReg .auditHead 0 s.mirrorSeq).setReg .auditMirrorHead 0
    s.mirrorSeq).setReg .auditAcked 0 s.mirrorSeq) := if_neg habsent
  have hset : ∀ r, r ∉ [Reg.auditHead, .auditMirrorHead, .auditAcked] → ∀ i, (((s.powerOnReset.setReg .auditHead 0
      s.mirrorSeq).setReg .auditMirrorHead 0 s.mirrorSeq).setReg .auditAcked 0 s.mirrorSeq).reg r i = s.powerOnReset.reg r i := by
    intro r hr i
    simp only [List.mem_cons, List.not_mem_nil, or_false, not_or] at hr
    obtain ⟨hhead, hmirror, hacked⟩ := hr
    rw [State.reg_setReg_ne _ (Ne.symm hacked), State.reg_setReg_ne _ (Ne.symm hmirror), State.reg_setReg_ne _ (Ne.symm hhead)]
  refine ⟨_, hexec, ?_, ?_, fun _ => rfl, rfl, fun r hdomain hr i => ?_⟩
  · rw [hset _ (by decide), reg_powerOnReset, if_neg (by simp)]
    rfl
  · rw [hset _ (by decide), reg_powerOnReset, if_neg (by decide)]
    rfl
  · rw [hset r hr, reg_powerOnReset, if_neg fun h => hdomain h.1]

theorem vinAonLost_completes (s : State) (hpresent : s.reg .aonAbsent ≠ 1) :
    Completes .vinAonLost s fun t =>
      t.reg .aonAbsent = 1 ∧ t.audit = [] ∧
        ∀ r, r.info.domain = .always → r ≠ .aonAbsent → ∀ i, t.reg r i = r.dflt i := by
  have hexec : exec .vinAonLost s = .next ({ s.losePower.clearDomain .always with audit := [] }.setReg .aonAbsent 0 1) :=
    if_neg hpresent
  refine ⟨_, hexec, ?_, rfl, fun r hdomain hr i => ?_⟩
  · rw [State.reg_setReg_same]
    rfl
  · rw [State.reg_setReg_ne _ hr.symm, State.reg_upd, State.reg_clearDomain, if_pos hdomain]

/-! The crystal and MCLK. -/

/-- The domains may select MCLK. -/
def State.offerMclk (s : State) : State :=
  (List.range 48).foldl (fun t k => t.setReg .clkReady k (withBit (t.reg .clkReady k) 1)) s

theorem reg_offerMclk (s : State) {r : Reg} (hr : r ≠ .clkReady) (i : Nat) : s.offerMclk.reg r i = s.reg r i :=
  State.reg_foldl (fun v _ => State.reg_setReg_ne v hr.symm ..) _ s

theorem mem_offerMclk (s : State) : s.offerMclk.mem = s.mem := by
  have hfold : ∀ (l : List Nat) (u : State),
      (l.foldl (fun (t : State) k => t.setReg .clkReady k (withBit (t.reg .clkReady k) 1)) u).mem = u.mem := by
    intro l
    induction l with
    | nil => exact fun _ => rfl
    | cons k l ih => exact fun u => ih _
  exact hfold _ s

theorem mem_enter (s : State) (v : Nat) : (s.enter v).mem = s.mem := enter_mem s v (by decide)

theorem crystalStable_completes (s : State) (hpresent : s.reg .aonAbsent ≠ 1) (hunstable : s.reg .xtalState ≠ 1) :
    Completes .crystalStable s fun t =>
      t.reg .xtalState = 1 ∧ t.reg .mclkRuns = 1 ∧
        (s.reg .nodeState = 0 → s.reg .vinMainIn = 1 → t.reg .nodeState = 1) ∧
        (¬ (s.reg .nodeState = 0 ∧ s.reg .vinMainIn = 1) → t.reg .nodeState = s.reg .nodeState) ∧ MemKept s t := by
  obtain ⟨u, hu⟩ : ∃ u, u = (s.setReg .xtalState 0 1).setReg .mclkRuns 0 1 := ⟨_, rfl⟩
  have hexec : exec .crystalStable s = .next (if u.isIn stOff && u.reg .vinMainIn = 1 then u.enter stAon else u).offerMclk :=
    hu ▸ if_neg (not_or.2 ⟨hpresent, hunstable⟩)
  have hkept : ∀ r, r ≠ .xtalState → r ≠ .mclkRuns → ∀ i, u.reg r i = s.reg r i := fun r h1 h2 i => by
    rw [hu, State.reg_setReg_ne _ h2.symm, State.reg_setReg_ne _ h1.symm]
  have hstable : u.reg .xtalState = 1 := by
    rw [hu, State.reg_setReg_ne _ (by decide), State.reg_setReg_same]
    rfl
  have hruns : u.reg .mclkRuns = 1 := by
    rw [hu, State.reg_setReg_same]
    rfl
  have hmem : u.mem = s.mem := hu ▸ rfl
  have hcond : (u.isIn stOff && u.reg .vinMainIn = 1) = decide (s.reg .nodeState = 0 ∧ s.reg .vinMainIn = 1) := by
    rw [State.isIn, hkept .nodeState (by decide) (by decide), hkept .vinMainIn (by decide) (by decide), Bool.decide_and]
  rw [hcond] at hexec
  simp only [decide_eq_true_eq] at hexec
  by_cases hwakes : s.reg .nodeState = 0 ∧ s.reg .vinMainIn = 1
  · rw [if_pos hwakes] at hexec
    refine ⟨_, hexec, ?_, ?_, fun _ _ => ?_, fun h => absurd hwakes h, fun _ => State.byte_congr ?_ _⟩
    · rw [reg_offerMclk _ (by decide), enter_reg _ _ _ (by decide), hstable]
    · rw [reg_offerMclk _ (by decide), enter_reg _ _ _ (by decide), hruns]
    · rw [reg_offerMclk _ (by decide), nodeState_enter _ (by decide)]
    · rw [mem_offerMclk, mem_enter, hmem]
  · rw [if_neg hwakes] at hexec
    refine ⟨_, hexec, ?_, ?_, fun hoff hmain => absurd ⟨hoff, hmain⟩ hwakes, fun _ => ?_, fun _ => State.byte_congr ?_ _⟩
    · rw [reg_offerMclk _ (by decide), hstable]
    · rw [reg_offerMclk _ (by decide), hruns]
    · rw [reg_offerMclk _ (by decide), hkept _ (by decide) (by decide)]
    · rw [mem_offerMclk, hmem]

theorem crystalFailTimeout_completes (s : State) (hpresent : s.reg .aonAbsent ≠ 1) (hwaits : s.reg .xtalState = 0) :
    Completes .crystalFailTimeout s fun t =>
      t.reg .xtalState = 2 ∧ RegsKept [.xtalState] s t ∧ MemKept s t := by
  have hexec : exec .crystalFailTimeout s = .next (s.setReg .xtalState 0 2) :=
    if_neg (not_or.2 ⟨hpresent, not_not.2 hwaits⟩)
  refine ⟨_, hexec, ?_, RegsKept.setReg (by simp) .refl, fun _ => rfl⟩
  rw [State.reg_setReg_same]
  rfl

/-- MCLK has stopped: nothing that the always-on logic ran from it answers, and the clocks of the PLLs stop (R615). -/
def State.mclkLost (s : State) : State :=
  let s := s.domainReset 54 0
  let s := (((s.setReg .mclkRuns 0 0).setReg .xtalState 0 0).setReg .mgmtLink 0 0).setReg .mgmtSilent 0 1
  (List.range 48).foldl (fun t k =>
    (t.setReg .clkReady k (t.reg .clkReady k % 2)).setReg .clkMhz k (if t.reg .clkSel k = 0 then t.reg .clkMhz k else 0)) s

theorem mclkLost_facts (s : State) :
    s.mclkLost.reg .mclkRuns = 0 ∧ s.mclkLost.reg .xtalState = 0 ∧ s.mclkLost.reg .mgmtLink = 0 ∧
      s.mclkLost.reg .nodeState = s.reg .nodeState := by
  have hclocks : ∀ (u : State) (r : Reg), r ≠ .clkReady → r ≠ .clkMhz → ((List.range 48).foldl (fun (t : State) k =>
      (t.setReg .clkReady k (t.reg .clkReady k % 2)).setReg .clkMhz k (if t.reg .clkSel k = 0 then t.reg .clkMhz k else 0)) u).reg
        r = u.reg r := by
    intro u r h1 h2
    exact State.reg_foldl (fun v k => (State.reg_setReg_ne _ h2.symm ..).trans (State.reg_setReg_ne _ h1.symm ..)) _ u
  unfold State.mclkLost
  dsimp only
  refine ⟨?_, ?_, ?_, ?_⟩
  · rw [hclocks _ _ (by decide) (by decide), State.reg_setReg_ne _ (by decide), State.reg_setReg_ne _ (by decide),
      State.reg_setReg_ne _ (by decide), State.reg_setReg_same]
    rfl
  · rw [hclocks _ _ (by decide) (by decide), State.reg_setReg_ne _ (by decide), State.reg_setReg_ne _ (by decide),
      State.reg_setReg_same]
    rfl
  · rw [hclocks _ _ (by decide) (by decide), State.reg_setReg_ne _ (by decide), State.reg_setReg_same]
    rfl
  · rw [hclocks _ _ (by decide) (by decide), State.reg_setReg_ne _ (by decide), State.reg_setReg_ne _ (by decide),
      State.reg_setReg_ne _ (by decide), State.reg_setReg_ne _ (by decide), domainReset_reg _ _ _ _ (by decide)]

theorem mclkStop_completes (s : State) (hruns : s.reg .mclkRuns ≠ 0) :
    Completes .mclkStop s fun t =>
      t.reg .mclkRuns = 0 ∧ t.reg .xtalState = 0 ∧ t.reg .mgmtLink = 0 ∧
        (s.reg .nodeState ≠ 0 → t.reg .nodeState = 7 ∧ t.reg .jobRunning = 0) ∧
        (s.reg .nodeState = 0 → t.reg .nodeState = 0) := by
  have hexec : exec .mclkStop s = .next (if s.mclkLost.powered then s.mclkLost.enterFaulted else s.mclkLost) := if_neg hruns
  obtain ⟨hmclk, hxtal, hmgmt, hnode⟩ := mclkLost_facts s
  generalize s.mclkLost = u at *
  by_cases hoff : s.reg .nodeState = 0
  · rw [if_neg (by simp [State.powered, hnode, hoff])] at hexec
    exact ⟨_, hexec, hmclk, hxtal, hmgmt, fun h => absurd hoff h, fun _ => hnode.trans hoff⟩
  · rw [if_pos (by simp [State.powered, hnode, hoff])] at hexec
    exact ⟨_, hexec, (enterFaulted_reg u _ (by decide) 0).trans hmclk, (enterFaulted_reg u _ (by decide) 0).trans hxtal,
      (enterFaulted_reg u _ (by decide) 0).trans hmgmt, fun _ => ⟨enterFaulted_nodeState u, enterFaulted_jobRunning u⟩,
      fun h => absurd h hoff⟩

/-! VIN_MAIN and PWR_OK. -/

theorem vinMainInRange_completes (s : State) :
    Completes .vinMainInRange s fun t =>
      t.reg .vinMainIn = 1 ∧
        (s.reg .nodeState = 0 → s.reg .aonAbsent = 0 → s.reg .xtalState = 1 → t.reg .nodeState = 1) ∧
        RegsKept (.vinMainIn :: .nodeState :: auditRegs) s t ∧ MemKept s t := by
  obtain ⟨u, hu⟩ : ∃ u, u = s.setReg .vinMainIn 0 1 := ⟨_, rfl⟩
  have hexec : exec .vinMainInRange s =
      .next (if u.isIn stOff && u.reg .aonAbsent = 0 && u.reg .xtalState = 1 then u.enter stAon else u) := hu ▸ rfl
  have hkept : RegsKept (.vinMainIn :: .nodeState :: auditRegs) s u := hu ▸ RegsKept.setReg (by simp) .refl
  have hmain : u.reg .vinMainIn = 1 := by
    rw [hu, State.reg_setReg_same]
    rfl
  have hmem : MemKept s u := fun _ => hu ▸ rfl
  split at hexec
  · refine ⟨_, hexec, (enter_reg u _ _ (by decide) 0).trans hmain, fun _ _ _ => nodeState_enter u (by decide), ?_, fun a => ?_⟩
    · intro r hr i
      have hnode : r ≠ .nodeState := fun h => hr (by simp [h])
      have haudit : r ∉ auditRegs := fun h => hr (by simp [h])
      rw [State.enter, State.reg_change _ haudit, if_neg fun h => hnode h.1.symm, hkept r hr]
    · exact (State.byte_congr (mem_enter u _) a).trans (hmem a)
  · next hstays =>
    refine ⟨_, hexec, hmain, fun hoff haon hxtal => absurd ?_ hstays, hkept, hmem⟩
    have hnode : u.reg .nodeState = 0 := by rw [hu, State.reg_setReg_ne _ (by decide), hoff]
    rw [State.isIn, hnode, hkept .aonAbsent (by decide), hkept .xtalState (by decide), haon, hxtal]
    rfl

/-- The straps of the node's position are latched (R28, R29). -/
def State.latchStraps (s : State) (pos : Nat) : State :=
  let s := ((s.setReg .pwrOk 0 1).setReg .posLatch 0 pos).setReg .posStrap 0 pos
  s.change .physId 0 (withField (s.reg .physId) 0 5 pos)

theorem latchStraps_facts (s : State) (pos : Fin 32) :
    (s.latchStraps pos.val).reg .pwrOk = 1 ∧ (s.latchStraps pos.val).reg .posStrap = pos.val ∧
      field ((s.latchStraps pos.val).reg .physId) 0 5 = pos.val ∧ (s.latchStraps pos.val).reg .nodeState = s.reg .nodeState := by
  have hstrap : Reg.modulus .posStrap = 256 := rfl
  have hphys : Reg.modulus .physId = 2 ^ 32 := rfl
  unfold State.latchStraps
  dsimp only
  refine ⟨?_, ?_, ?_, ?_⟩
  · rw [State.reg_change _ (by decide), if_neg (by simp), State.reg_setReg_ne _ (by decide), State.reg_setReg_ne _ (by decide),
      State.reg_setReg_same]
    rfl
  · rw [State.reg_change _ (by decide), if_neg (by simp), State.reg_setReg_same, hstrap]
    omega
  · rw [State.reg_change _ (by decide), if_pos ⟨rfl, rfl⟩, hphys, field_mod _ _ _ _ (by decide), field_withField]
    omega
  · rw [State.reg_change _ (by decide), if_neg (by simp), State.reg_setReg_ne _ (by decide), State.reg_setReg_ne _ (by decide),
      State.reg_setReg_ne _ (by decide)]

theorem execPwrOkAsserted_aon {s : State} (pos : Fin 32) (haon : s.reg .nodeState = 1) :
    execPwrOkAsserted pos s = .next (s.latchStraps pos.val).holdInReset := by
  have hnode : (s.setReg .pwrOk 0 1).isIn stAon = true := by
    rw [State.isIn, State.reg_setReg_ne _ (by decide), haon]
    rfl
  have hlatched : (s.latchStraps pos.val).isIn stAon = true := by
    rw [State.isIn, (latchStraps_facts s pos).2.2.2, haon]
    rfl
  have hlatch : execPwrOkAsserted pos s = if (s.setReg .pwrOk 0 1).isIn stAon || (s.setReg .pwrOk 0 1).isIn stInit then
      .next (if (s.latchStraps pos.val).isIn stAon then (s.latchStraps pos.val).holdInReset else s.latchStraps pos.val)
    else .next (s.setReg .pwrOk 0 1) := rfl
  rw [hlatch, hnode, hlatched, Bool.true_or, if_pos rfl, if_pos rfl]

theorem pwrOkAsserted_completes (s : State) (pos : Fin 32) (haon : s.reg .nodeState = 1) :
    Completes (.pwrOkAsserted pos) s fun t =>
      t.reg .pwrOk = 1 ∧ t.reg .posStrap = pos.val ∧ field (t.reg .physId) 0 5 = pos.val ∧ t.reg .nodeState = 2 ∧
        t.reg .inReset = 1 ∧ t.reg .hostLink = 0 ∧ ∀ k, k < 48 → t.reg .clkMhz k = 0 := by
  obtain ⟨hpwr, hstrap, hphys, -⟩ := latchStraps_facts s pos
  refine ⟨_, execPwrOkAsserted_aon pos haon, (holdInReset_reg _ _ (by decide) 0).trans hpwr,
    (holdInReset_reg _ _ (by decide) 0).trans hstrap, ?_, holdInReset_facts _⟩
  rw [holdInReset_reg _ _ (by decide), hphys]

theorem jobActive_coldClear (s : State) : s.coldClear.reg .jobActive = 0 := by
  unfold State.coldClear
  dsimp only
  rw [State.reg_setReg_ne _ (by decide), State.reg_setReg_ne _ (by decide), State.reg_upd, State.reg_clearDomain, if_neg (by decide)]
  exact clearWarm_jobActive _

theorem losePower_facts (s : State) : s.losePower.reg .nodeState = 0 ∧ s.losePower.reg .jobActive = 0 := by
  unfold State.losePower
  dsimp only
  constructor
  · rw [State.reg_setReg_ne _ (by decide), State.reg_setReg_ne _ (by decide), State.reg_setReg_ne _ (by decide),
      State.reg_setReg_ne _ (by decide), nodeState_enter _ (by decide)]
  · rw [State.reg_setReg_ne _ (by decide), State.reg_setReg_ne _ (by decide), State.reg_setReg_ne _ (by decide),
      State.reg_setReg_ne _ (by decide), enter_reg _ _ _ (by decide), jobActive_coldClear]

theorem pwrOkDeasserted_completes (s : State) (lost : Bool) (hpowered : s.reg .nodeState ≠ 0) :
    Completes (.pwrOkDeasserted lost) s fun t =>
      t.reg .nodeState = 0 ∧ t.reg .resetCause = (if s.reg .thermTrip = 1 then 4 else 3) ∧ t.reg .jobActive = 0 ∧
        (lost = true → t.reg .vinMainIn = 0) ∧ (lost = false → t.reg .pwrOk = 0) := by
  have hlost : ∀ u : State, u.reg .nodeState ≠ 0 →
      (if u.isIn stOff then (.next u : Res)
        else .next (u.losePower.setReg .resetCause 0 (if s.reg .thermTrip = 1 then 4 else 3))) =
        .next (u.losePower.setReg .resetCause 0 (if s.reg .thermTrip = 1 then 4 else 3)) := fun u hu =>
    if_neg (by simpa [State.isIn] using hu)
  have hoff : ∀ u : State, ∀ v, v < 256 → (u.losePower.setReg .resetCause 0 v).reg .nodeState = 0 ∧
      (u.losePower.setReg .resetCause 0 v).reg .resetCause = v ∧ (u.losePower.setReg .resetCause 0 v).reg .jobActive = 0 := by
    intro u v hv
    have hmod : Reg.modulus .resetCause = 256 := rfl
    obtain ⟨hnode, hjob⟩ := losePower_facts u
    refine ⟨(State.reg_setReg_ne _ (by decide) ..).trans hnode, ?_, (State.reg_setReg_ne _ (by decide) ..).trans hjob⟩
    rw [State.reg_setReg_same, hmod, Nat.mod_eq_of_lt hv]
  have hcause : (if s.reg .thermTrip = 1 then 4 else 3) < 256 := by split <;> decide
  cases lost with
  | true =>
    have hexec := hlost (s.setReg .vinMainIn 0 0) (by rw [State.reg_setReg_ne _ (by decide)]; exact hpowered)
    obtain ⟨hnode, hreset, hjob⟩ := hoff (s.setReg .vinMainIn 0 0) _ hcause
    refine ⟨_, hexec, hnode, hreset, hjob, fun _ => ?_, fun h => (nomatch h)⟩
    rw [State.reg_setReg_ne _ (by decide), losePower_reg _ _ (by decide), State.reg_setReg_same]
    rfl
  | false =>
    have hexec := hlost ((s.setReg .pwrOk 0 0).setReg .thermTrip 0 0)
      (by rw [State.reg_setReg_ne _ (by decide), State.reg_setReg_ne _ (by decide)]; exact hpowered)
    obtain ⟨hnode, hreset, hjob⟩ := hoff ((s.setReg .pwrOk 0 0).setReg .thermTrip 0 0) _ hcause
    refine ⟨_, hexec, hnode, hreset, hjob, fun h => (nomatch h), fun _ => ?_⟩
    rw [State.reg_setReg_ne _ (by decide), losePower_reg _ _ (by decide), State.reg_setReg_ne _ (by decide), State.reg_setReg_same]
    rfl

/-! The stack rails and the start of INIT. -/

theorem stackRailOutOfRange_completes (s : State) (rail : Fin 3) (hin : s.reg .stackRailsIn ≠ 0) :
    Completes (.stackRailOutOfRange rail) s fun t =>
      t.reg .stackRailsIn = 0 ∧ t.reg .slotValid = 0 ∧ t.mirror = [] ∧ t.shards = [] ∧
        (∀ a, a < 0x20000000000 → t.byte a = 0) ∧
        (s.reg .nodeState ≠ 0 → ¬ (s.reg .nodeState = 2 ∧ s.reg .inReset = 1) → t.reg .nodeState = 7) := by
  obtain ⟨u, hu⟩ : ∃ u, u = s.setReg .stackRailsIn 0 0 := ⟨_, rfl⟩
  have hexec : exec (.stackRailOutOfRange rail) s =
      .next (if u.isIn stOff || (u.isIn stInit && u.reg .inReset = 1) then u else u.enterFaulted).loseStacks := hu ▸ if_neg hin
  have hout : u.reg .stackRailsIn = 0 := by
    rw [hu, State.reg_setReg_same]
    rfl
  have hnode : u.reg .nodeState = s.reg .nodeState := by rw [hu, State.reg_setReg_ne _ (by decide)]
  have hreset : u.reg .inReset = s.reg .inReset := by rw [hu, State.reg_setReg_ne _ (by decide)]
  have hcond : (u.isIn stOff || (u.isIn stInit && u.reg .inReset = 1)) = true ↔
      s.reg .nodeState = 0 ∨ s.reg .nodeState = 2 ∧ s.reg .inReset = 1 := by
    simp [State.isIn, hnode, hreset]
  by_cases hheld : s.reg .nodeState = 0 ∨ s.reg .nodeState = 2 ∧ s.reg .inReset = 1
  · rw [if_pos (hcond.2 hheld)] at hexec
    obtain ⟨hslots, hmirror, hshards, hbytes, hkept⟩ := loseStacks_facts u
    refine ⟨_, hexec, (hkept _ 0 (by decide)).trans hout, hslots, hmirror, hshards, hbytes, fun hon hreleased => ?_⟩
    exact absurd hheld (not_or.2 ⟨hon, hreleased⟩)
  · rw [if_neg fun h => hheld (hcond.1 h)] at hexec
    obtain ⟨hslots, hmirror, hshards, hbytes, hkept⟩ := loseStacks_facts u.enterFaulted
    refine ⟨_, hexec, (hkept _ 0 (by decide)).trans ((enterFaulted_reg u _ (by decide) 0).trans hout), hslots, hmirror, hshards,
      hbytes, fun _ _ => (hkept _ 0 (by decide)).trans (enterFaulted_nodeState u)⟩

theorem beginInit_facts (s : State) : s.beginInit.reg .initStage = 1 ∧ s.beginInit.reg .inReset = 0 := by
  have hclocks : ∀ (u : State) (r : Reg), r ≠ .clkMhz → ((List.range 48).foldl (fun (t : State) k =>
      t.setReg .clkMhz k (if 2 ≤ t.reg .clkSel k then t.reg .pllMhz k else 25)) u).reg r = u.reg r := fun u r hr =>
    State.reg_foldl (fun v k => State.reg_setReg_ne _ hr.symm ..) _ u
  unfold State.beginInit
  dsimp only
  constructor
  · rw [hclocks _ _ (by decide), State.reg_change _ (by decide), if_neg (by simp), State.reg_setReg_same]
    rfl
  · rw [hclocks _ _ (by decide), State.reg_change _ (by decide), if_neg (by simp), State.reg_setReg_ne _ (by decide),
      State.reg_setReg_same]
    rfl

/-- INIT begins once nothing holds the node in reset. -/
theorem tryBeginInit_facts {s : State} (hinit : s.reg .nodeState = 2) (hreset : s.reg .inReset = 1) (hheld : s.reg .rstHeld = 0)
    (hrails : s.reg .stackRailsIn = 1) (hpwr : s.reg .pwrOk = 1) :
    s.tryBeginInit.reg .initStage = 1 ∧ s.tryBeginInit.reg .inReset = 0 := by
  rw [State.tryBeginInit, if_pos (by simp [State.isIn, hinit, hreset, hheld, hrails, hpwr])]
  exact beginInit_facts s

theorem stackRailsInRange_completes (s : State) :
    Completes .stackRailsInRange s fun t =>
      t.reg .stackRailsIn = 1 ∧
        (s.reg .nodeState = 2 → s.reg .inReset = 1 → s.reg .rstHeld = 0 → s.reg .pwrOk = 1 →
          t.reg .initStage = 1 ∧ t.reg .inReset = 0) := by
  have hin : (s.setReg .stackRailsIn 0 1).reg .stackRailsIn = 1 := by
    rw [State.reg_setReg_same]
    rfl
  have hkept : ∀ r, .stackRailsIn ≠ r → (s.setReg .stackRailsIn 0 1).reg r = s.reg r := fun r hr => State.reg_setReg_ne _ hr ..
  refine ⟨_, rfl, (tryBeginInit_reg _ _ (by decide) 0).trans hin, fun hinit hreset hheld hpwr => ?_⟩
  exact tryBeginInit_facts ((hkept _ (by decide)).trans hinit) ((hkept _ (by decide)).trans hreset)
    ((hkept _ (by decide)).trans hheld) hin ((hkept _ (by decide)).trans hpwr)

/-- Settles O1: each input by what the loss or the return of its supply does to the node. -/
theorem powerInputsComplete : Obligations.PowerInputsComplete :=
  ⟨vinAonApplied_completes, vinAonLost_completes, crystalStable_completes, crystalFailTimeout_completes, mclkStop_completes,
    vinMainInRange_completes, pwrOkAsserted_completes, pwrOkDeasserted_completes, stackRailOutOfRange_completes,
    stackRailsInRange_completes⟩

/-! Resets. -/

theorem recognised_long (s : State) {width : Nat} (hwidth : 10000 ≤ width) : s.recognised width = (true, s) := by
  rw [State.recognised, if_neg (by omega), if_pos hwidth]

theorem powered_setFlag {s : State} (hpowered : s.reg .nodeState ≠ 0) (b : Nat) : (s.setFlag .rstHeld 0 b true).powered = true := by
  rw [State.powered, setFlag_reg _ _ _ _ _ _ (by decide)]
  exact decide_eq_true hpowered

theorem coldReset_completes (s : State) (width : Nat) (hwidth : 10000 ≤ width) (hpresent : s.reg .aonAbsent ≠ 1)
    (hpowered : s.reg .nodeState ≠ 0) :
    Completes (.coldReset width) s fun t =>
      t.reg .nodeState = 2 ∧ t.reg .inReset = 1 ∧ t.reg .resetCause = 1 ∧ t.reg .jobActive = 0 ∧ t.errorLog = [] ∧
        t.bays = [] ∧ t.sessions = [] ∧ ∀ k, k < 48 → t.reg .clkMhz k = 0 := by
  have hexec : exec (.coldReset width) s = execColdReset width s := rfl
  have hon := powered_setFlag hpowered 0
  rw [execColdReset, recognised_long s hwidth] at hexec
  dsimp only at hexec
  rw [if_neg (by simpa using hpresent), if_pos hon] at hexec
  exact ⟨_, hexec, coldReset_facts _⟩

theorem rstHeld_of_warm {s : State} (hcold : s.flag .rstHeld 0 0 = false) :
    (s.setFlag .rstHeld 0 1 true).flag .rstHeld 0 0 = false := by
  have hmod : Reg.modulus .rstHeld = 2 ^ 8 := rfl
  unfold State.flag State.setFlag
  rw [State.reg_setReg_same, hmod, if_pos rfl, bit, Nat.testBit_mod_two_pow]
  have hbit := bit_withBit (s.reg .rstHeld) 1 0
  unfold bit at hbit
  rw [hbit]
  simpa [State.flag, bit] using hcold

theorem warmReset_completes (s : State) (width : Nat) (hwidth : 10000 ≤ width) (hpresent : s.reg .aonAbsent ≠ 1)
    (hpowered : s.reg .nodeState ≠ 0) (hcold : s.flag .rstHeld 0 0 = false) (hpulses : s.reg .fusePulses = 0) :
    Completes (.warmReset width) s fun t =>
      t.reg .nodeState = 2 ∧ t.reg .inReset = 1 ∧ t.reg .resetCause = 2 ∧ t.reg .jobActive = 0 ∧
        t.bays = [] ∧ t.sessions = [] ∧ t.errorLog = s.errorLog ∧ ∀ k, k < 48 → t.reg .clkMhz k = 0 := by
  have hexec : exec (.warmReset width) s = execWarmReset width s := rfl
  have hon := powered_setFlag hpowered 1
  have hnone : (s.setFlag .rstHeld 0 1 true).reg .fusePulses = 0 := (setFlag_reg s _ _ _ _ _ (by decide) 0).trans hpulses
  rw [execWarmReset, recognised_long s hwidth] at hexec
  dsimp only at hexec
  rw [if_neg (by simpa using hpresent), hon, if_neg (by decide), rstHeld_of_warm hcold, if_neg (by decide), hnone,
    if_neg (by decide)] at hexec
  exact ⟨_, hexec, warmReset_facts (s.setFlag .rstHeld 0 1 true)⟩

theorem warmWaiting_warmReset (s : State) : s.warmReset.reg .warmWaiting = s.reg .warmWaiting := by
  unfold State.warmReset
  rw [State.reg_setReg_ne _ (by decide), holdInReset_reg _ _ (by decide), warmClear_reg _ _ (by decide),
    holdInReset_reg _ _ (by decide)]

theorem resetAfterFusePulse_completes (s : State) (hwaits : s.reg .warmWaiting = 1) (hpowered : s.reg .nodeState ≠ 0) :
    Completes .resetAfterFusePulse s fun t =>
      t.reg .nodeState = 2 ∧ t.reg .warmWaiting = 0 ∧ t.reg .resetCause = 2 ∧ t.reg .jobActive = 0 := by
  have hexec : exec .resetAfterFusePulse s =
      .next (((s.setReg .warmWaiting 0 0).setReg .fusePulses 0 0).warmReset.tryBeginInit) :=
    if_pos ⟨hwaits, by simpa [State.powered] using hpowered⟩
  have hfree : ((s.setReg .warmWaiting 0 0).setReg .fusePulses 0 0).reg .warmWaiting = 0 := by
    rw [State.reg_setReg_ne _ (by decide), State.reg_setReg_same]
    rfl
  generalize (s.setReg .warmWaiting 0 0).setReg .fusePulses 0 0 = u at hexec hfree
  obtain ⟨hnode, -, hcause, hjob, -⟩ := warmReset_facts u
  refine ⟨_, hexec, ?_, ?_, ?_, ?_⟩
  · rw [tryBeginInit_reg _ _ (by decide), hnode]
  · rw [tryBeginInit_reg _ _ (by decide), warmWaiting_warmReset, hfree]
  · rw [tryBeginInit_reg _ _ (by decide), hcause]
  · rw [tryBeginInit_reg _ _ (by decide), hjob]

theorem resetReleased_completes (s : State) :
    Completes .resetReleased s fun t =>
      t.reg .rstHeld = 0 ∧
        (s.reg .nodeState = 2 → s.reg .inReset = 1 → s.reg .stackRailsIn = 1 → s.reg .pwrOk = 1 →
          t.reg .initStage = 1 ∧ t.reg .inReset = 0) := by
  have hreleased : (s.setReg .rstHeld 0 0).reg .rstHeld = 0 := by
    rw [State.reg_setReg_same]
    rfl
  have hkept : ∀ r, .rstHeld ≠ r → (s.setReg .rstHeld 0 0).reg r = s.reg r := fun r hr => State.reg_setReg_ne _ hr ..
  refine ⟨_, rfl, (tryBeginInit_reg _ _ (by decide) 0).trans hreleased, fun hinit hreset hrails hpwr => ?_⟩
  exact tryBeginInit_facts ((hkept _ (by decide)).trans hinit) ((hkept _ (by decide)).trans hreset) hreleased
    ((hkept _ (by decide)).trans hrails) ((hkept _ (by decide)).trans hpwr)

/-- Settles O2: each reset from what it leaves of the node; a release begins INIT where nothing else holds it. -/
theorem resetsComplete : Obligations.ResetsComplete :=
  ⟨coldReset_completes, warmReset_completes, resetAfterFusePulse_completes, resetReleased_completes⟩

end Sys2Proof.Machine
end

section
/-! Requested node states, clock sources, LOCATION and the alarms of temperature and coolant (R30, R38 to R42, R619, R625, R646,
R650). -/

namespace Sys2Proof.Machine

theorem reg_answer (s : State) (q : Requester) (obj code : Nat) (r : Reg) : (s.answer q obj code).reg r = s.reg r := rfl

/-! Clock sources. -/

theorem ofLe_byte (v : Byte) : ofLe [v] = v.toNat := by simp [ofLe]

theorem clkSel_accepted (s : State) (q : Requester) (k : Nat) (v : Byte) :
    (s.accepted q .clkSel k [v]).reg .clkSel k = v.toNat := by
  have htake : ([v] : List Byte).take (Reg.info .clkSel).esize = [v] := rfl
  rw [State.reg_accepted_same s q k [v] rfl, htake, ofLe_byte]
  exact Nat.mod_eq_of_lt v.isLt

theorem startSwitch_facts (s : State) (k v : Nat) :
    (startSwitch k v s).reg .clkSel k = s.reg .clkSel k ∧ (startSwitch k v s).reg .clkSwitching k = (1 + v) % 256 := by
  constructor
  · exact State.reg_setReg_ne _ (by decide) ..
  · rw [startSwitch, State.reg_setReg_same]
    rfl

theorem clkSelWrite_completes (s : State) (q : Requester) (k : Fin 48) (v : Byte) (haccepts : Accepts s q .clkSel k [v]) :
    Completes (.clkSelWrite q k v) s fun t =>
      Answered q (Reg.clkSel.objAt k) t ∧ t.reg .clkSel k = v.toNat ∧ t.reg .clkSwitching k = (1 + v.toNat) % 256 := by
  obtain ⟨u, hu, hexec⟩ := exists_accepted (.clkSelWrite q k v) haccepts rfl rfl (by decide)
  obtain ⟨hsel, hswitch⟩ := startSwitch_facts u k v.toNat
  exact ⟨_, hexec, answered_answer .., hsel.trans (hu ▸ clkSel_accepted s q k v), hswitch⟩

theorem readyFlagSwitch_completes (s : State) (q : Requester) (k : Fin 48) (v : Byte) (haccepts : Accepts s q .clkSel k [v]) :
    Completes (.readyFlagSwitch q k v) s fun t =>
      Answered q (Reg.clkSel.objAt k) t ∧ t.reg .clkSel k = v.toNat ∧ t.reg .clkSwitching k = (1 + v.toNat) % 256 :=
  clkSelWrite_completes s q k v haccepts

/-! Node states. -/

theorem stateRequestLull_completes (s : State) (q : Requester) (haccepts : Accepts s q .stateRequest 0 [5]) :
    Completes (.stateRequestLull q) s fun t =>
      Answered q (Reg.stateRequest.objAt 0) t ∧ t.reg .stateRequest = 5 ∧ t.reg .nodeState = s.reg .nodeState := by
  obtain ⟨u, hu, hexec⟩ := exists_accepted (.stateRequestLull q) haccepts rfl rfl (by decide)
  refine ⟨_, hexec, answered_answer .., ?_, accepted_reg hu _ (by decide) (by decide) 0⟩
  have hasked : u.reg .stateRequest = 5 := by
    rw [hu, State.reg_accepted_same s q 0 [5] rfl]
    rfl
  exact hasked

theorem serviceRequestEnter_completes (s : State) (q : Requester) (haccepts : Accepts s q .serviceRequest 0 [1]) :
    Completes (.serviceRequestEnter q) s fun t =>
      Answered q (Reg.serviceRequest.objAt 0) t ∧ t.reg .nodeState = 8 := by
  obtain ⟨u, -, hexec⟩ := exists_accepted (.serviceRequestEnter q) haccepts rfl rfl (by decide)
  have hentered : (serviceEffect 1 u).reg .nodeState = 8 := by
    rw [serviceEffect, if_pos rfl, idleLinks_reg _ _ (by decide), nodeState_enter u (by decide)]
  exact ⟨_, hexec, answered_answer .., (reg_answer ..).trans hentered⟩

theorem serviceRequestExit_completes (s : State) (q : Requester) (haccepts : Accepts s q .serviceRequest 0 [0])
    (hservice : s.reg .nodeState = 8) :
    Completes (.serviceRequestExit q) s fun t =>
      Answered q (Reg.serviceRequest.objAt 0) t ∧ t.reg .nodeState = 2 ∧ t.reg .resetCause = 2 := by
  obtain ⟨u, hu, hexec⟩ := exists_accepted (.serviceRequestExit q) haccepts rfl rfl (by decide)
  have hin : u.isIn stService = true := by
    rw [State.isIn, accepted_reg hu _ (by decide) (by decide), hservice]
    rfl
  have hleaves : serviceEffect 0 u = u.warmReset.tryBeginInit := by
    rw [serviceEffect, if_neg (by decide), if_pos hin]
  obtain ⟨hnode, -, hcause, -⟩ := warmReset_facts u
  have hinit : (serviceEffect 0 u).reg .nodeState = 2 ∧ (serviceEffect 0 u).reg .resetCause = 2 := by
    rw [hleaves, tryBeginInit_reg _ _ (by decide), tryBeginInit_reg _ _ (by decide)]
    exact ⟨hnode, hcause⟩
  obtain ⟨hstate, hreset⟩ := hinit
  exact ⟨_, hexec, answered_answer .., (reg_answer ..).trans hstate, (reg_answer ..).trans hreset⟩

/-! LOCATION. -/

theorem locationEffect_facts (s : State) :
    (locationEffect s).reg .location = field (s.reg .location) 5 18 * 32 + 2 ^ 31 ∧
      (locationEffect s).reg .physId = (field (s.reg .location) 5 18 * 32 + s.reg .posLatch) % 2 ^ 32 := by
  have hlocation : Reg.modulus .location = 2 ^ 32 := rfl
  have hphys : Reg.modulus .physId = 2 ^ 32 := rfl
  have hfield : field (s.reg .location) 5 18 < 2 ^ 18 := Nat.mod_lt _ (by decide)
  have hstages : ∀ (u : State) (r : Reg), r ≠ .stage5Waits → r ≠ .stageStarted → r ≠ .initStage →
      (if u.reg .stage5Waits = 1 then ((u.setReg .stage5Waits 0 0).setReg .stageStarted 0 5).setReg .initStage 0 6 else u).reg r =
        u.reg r := by
    intro u r h1 h2 h3
    split
    · rw [State.reg_setReg_ne _ h3.symm, State.reg_setReg_ne _ h2.symm, State.reg_setReg_ne _ h1.symm]
    · rfl
  unfold locationEffect
  dsimp only
  constructor
  · rw [hstages _ _ (by decide) (by decide) (by decide), State.reg_change _ (by decide), if_neg (by simp), State.reg_setReg_same,
      hlocation]
    omega
  · rw [hstages _ _ (by decide) (by decide) (by decide), State.reg_change _ (by decide), if_pos ⟨rfl, rfl⟩,
      State.reg_setReg_ne _ (by decide), hphys]

theorem locationWrite_completes (s : State) (q : Requester) (v : Word) (haccepts : Accepts s q .location 0 (leBytes 4 v.toNat)) :
    Completes (.locationWrite q v) s fun t =>
      Answered q (Reg.location.objAt 0) t ∧ t.reg .location = field v.toNat 5 18 * 32 + 2 ^ 31 ∧
        t.reg .physId = (field v.toNat 5 18 * 32 + s.reg .posLatch) % 2 ^ 32 := by
  obtain ⟨u, hu, hexec⟩ := exists_accepted (.locationWrite q v) haccepts rfl rfl (by decide)
  have htake : (leBytes 4 v.toNat).take (Reg.info .location).esize = leBytes 4 v.toNat := by
    rw [List.take_of_length_le]
    simp [leBytes, Reg.info]
  have hvalue : u.reg .location = v.toNat := by
    rw [hu, State.reg_accepted_same s q 0 _ rfl, htake, ofLe_leBytes]
    exact (Nat.mod_mod _ _).trans (Nat.mod_eq_of_lt v.isLt)
  have hlatch : u.reg .posLatch = s.reg .posLatch := accepted_reg hu _ (by decide) (by decide) 0
  have hfacts := locationEffect_facts u
  rw [hvalue, hlatch] at hfacts
  obtain ⟨hplace, hphys⟩ := hfacts
  exact ⟨_, hexec, answered_answer .., (reg_answer ..).trans hplace, (reg_answer ..).trans hphys⟩

/-! Lull that is not reached, and an element that stays hot. -/

theorem lullDeadlineExpiry_completes (s : State) (hasked : s.reg .stateRequest = 5)
    (hstate : s.reg .nodeState = 4 ∨ s.reg .nodeState = 6) :
    Completes .lullDeadlineExpiry s fun t =>
      t.reg .stateRequest = 0 ∧ t.reg .nodeState = s.reg .nodeState ∧ Records s t 0x0C 5 0 0 0 := by
  have hexec : exec .lullDeadlineExpiry s =
      .next ((s.logError { code := 0x0C, severity := 5 }).change .stateRequest 0 0) := by
    have hexec : exec .lullDeadlineExpiry s = execLullDeadlineExpiry s := rfl
    rw [hexec, execLullDeadlineExpiry, if_pos (by simp [State.isIn, hasked, hstate])]
  refine ⟨_, hexec, ?_, ?_, records_log (State.errorLog_change ..) (records_logError s { code := 0x0C, severity := 5 })⟩
  · rw [State.reg_change _ (by decide), if_pos ⟨rfl, rfl⟩]
    rfl
  · rw [State.reg_change _ (by decide), if_neg (by simp), State.reg_logError _ (by decide)]

theorem requestLull_runs {s : State} (hrun : s.reg .nodeState = 4) (hjob : s.reg .jobRunning = 1) (hidle : s.inTransition = false) :
    s.requestLull.reg .stateRequest = 5 := by
  rw [State.requestLull, if_pos (by simp [State.isIn, hrun, hjob, hidle]), State.reg_change _ (by decide), if_pos ⟨rfl, rfl⟩]
  rfl

theorem inTransition_logError (s : State) (e : ErrorEvent) : (s.logError e).inTransition = s.inTransition := by
  unfold State.inTransition
  rw [State.reg_logError _ (by decide), State.reg_logError _ (by decide), State.reg_logError _ (by decide),
    State.reg_logError _ (by decide)]

theorem thermalFloorTimeout_completes (s : State) (e : Fin 46) (x : Int) (hhottest : s.hottest e = some x)
    (hhot : s.reg .elementHot e = 1) (hfloor : s.reg .floorAt e ≠ 0) (hover : (s.reg .tjThrottle * 16 : Int) + 48 ≤ x) :
    Completes (.thermalFloorTimeout e) s fun t =>
      (s.reg .nodeState = 4 → s.reg .jobRunning = 1 → s.inTransition = false → t.reg .stateRequest = 5) ∧
        t.reg .nodeState = s.reg .nodeState := by
  obtain ⟨event, hexec⟩ : ∃ event : ErrorEvent, exec (.thermalFloorTimeout e) s = .next (s.logError event).requestLull := by
    refine ⟨{ code := 0x0C, severity := 5, unitKind := 0x0C
              unit := ((elementSensors e.val).find? fun n => s.temp n = some x).getD 0 }, ?_⟩
    have hexec : exec (.thermalFloorTimeout e) s = execThermalFloorTimeout e s := rfl
    rw [hexec, execThermalFloorTimeout, hhottest]
    exact if_pos ⟨hhot, hfloor, hover⟩
  refine ⟨_, hexec, fun hrun hjob hidle => ?_, ?_⟩
  · exact requestLull_runs (by rw [State.reg_logError _ (by decide), hrun]) (by rw [State.reg_logError _ (by decide), hjob])
      (by rw [inTransition_logError, hidle])
  · rw [requestLull_reg _ _ (by decide), State.reg_logError _ (by decide)]

/-! The coolant. -/

theorem coolantLow_completes (s : State) (hgood : s.reg .coolantState = 0)
    (hbad : (s.setReg .coolFlow 0 s.coolFlowNow).coolantBad = true) (hpowered : s.reg .nodeState ≠ 0) :
    Completes .coolantLow s fun t =>
      t.reg .coolantState = 1 ∧ bit (t.reg .alertCause) 4 = true ∧ t.reg .nodeState = s.reg .nodeState := by
  obtain ⟨u, hu⟩ : ∃ u, u = s.setReg .coolFlow 0 s.coolFlowNow := ⟨_, rfl⟩
  have hkept : ∀ r, .coolFlow ≠ r → u.reg r = s.reg r := fun r hr => hu ▸ State.reg_setReg_ne _ hr ..
  have hexec : exec .coolantLow s = .next (((u.setReg .coolantState 0 1).logError {
      code := 0x12, severity := 2, outcome := 5, unitKind := 0x0C, unit := 128 }).raise .alertCause 4) := by
    have hraised : (decide (u.reg .coolantState = 0) && u.coolantBad && u.powered) = true := by
      rw [hkept _ (by decide), hgood, hu, hbad, ← hu, State.powered, hkept _ (by decide)]
      simpa using hpowered
    have hexec : exec .coolantLow s = execCoolantLow s := rfl
    rw [hexec, execCoolantLow, ← hu]
    exact if_pos hraised
  refine ⟨_, hexec, ?_, ?_, ?_⟩
  · rw [State.reg_raise _ (by decide), if_neg (by simp), State.reg_logError _ (by decide), State.reg_setReg_same]
    rfl
  · rw [State.reg_raise _ (by decide), if_pos ⟨rfl, rfl⟩, Reg.modulus_alertCause, bit_mod32 _ _ (by decide)]
    simp
  · rw [State.reg_raise _ (by decide), if_neg (by simp), State.reg_logError _ (by decide), State.reg_setReg_ne _ (by decide),
      hkept _ (by decide)]

theorem coolantClear_completes (s : State) (hlow : s.reg .coolantState = 1)
    (hgood : (s.setReg .coolFlow 0 s.coolFlowNow).coolantBad = false) :
    Completes .coolantClear s fun t =>
      t.reg .coolantState = 0 ∧ RegsKept (.coolFlow :: .coolantState :: auditRegs) s t ∧ MemKept s t := by
  obtain ⟨u, hu⟩ : ∃ u, u = s.setReg .coolFlow 0 s.coolFlowNow := ⟨_, rfl⟩
  have hexec : exec .coolantClear s = .next ((u.setReg .coolantState 0 0).auditInternal (Reg.coolantState.objAt 0) 0
      (u.regBytes .coolantState 0) ((u.setReg .coolantState 0 0).regBytes .coolantState 0)) := by
    have hclears : (decide (u.reg .coolantState = 1) && !u.coolantBad) = true := by
      have hstate : u.reg .coolantState = 1 := by rw [hu, State.reg_setReg_ne _ (by decide), hlow]
      rw [hstate, hu, hgood]
      rfl
    have hexec : exec .coolantClear s = execCoolantClear s := rfl
    rw [hexec, execCoolantClear, ← hu]
    exact if_pos hclears
  have hframe : Leaves (.coolFlow :: .coolantState :: auditRegs) .coolantClear :=
    leaves_of_touches rfl (by decide +kernel) (by decide +kernel)
  obtain ⟨hregs, hmem⟩ := hframe s _ hexec
  refine ⟨_, hexec, ?_, hregs, hmem⟩
  rw [auditInternal_reg _ _ _ _ _ _ (by decide), State.reg_setReg_same]
  rfl

/-- Settles O5: an accepted write has its object's effect; an alarm, what its conditions give. -/
theorem requestedStatesComplete : Obligations.RequestedStatesComplete :=
  ⟨clkSelWrite_completes, readyFlagSwitch_completes, stateRequestLull_completes, serviceRequestEnter_completes,
    serviceRequestExit_completes, locationWrite_completes, lullDeadlineExpiry_completes, thermalFloorTimeout_completes,
    coolantLow_completes, coolantClear_completes⟩

end Sys2Proof.Machine
end

section
/-! Snapshots, drains and shards (R346, R491, R499, R504, R508, R510). -/

namespace Sys2Proof.Machine

/-! Captures and the agreement (R499 to R501). -/

theorem snap_completes (s : State) (b : Fin 256) (f : Flight) (hready : s.ready b.val (fun f => decide (f.op = opSnap)) = some f) :
    Completes (.snap b) s fun t => t = s.stillWaits b.val f := by
  have hexec : exec (.snap b) s = execSnap b s := rfl
  rw [execSnap, hready] at hexec
  exact ⟨_, hexec, rfl⟩

theorem snapCaptureComplete_completes (s : State) (b : Fin 256) (f : Flight) (hsnap : (s.bay b.val).snapFlight = some f)
    (hphase : f.phase ≠ 0) (hnew : (s.bay b.val).captured = false) (hspare : (s.bay b.val).sparing = 0) :
    Completes (.snapCaptureComplete b) s fun t =>
      ∃ u : State, u = s.setBay b.val { s.bay b.val with captured := true } ∧
        t = if u.snapArrived then u.stopHarts else u := by
  have hexec : exec (.snapCaptureComplete b) s = execSnapCaptureComplete b s := rfl
  rw [execSnapCaptureComplete] at hexec
  dsimp only at hexec
  rw [hsnap] at hexec
  dsimp only at hexec
  rw [if_neg (by simp [hphase, hnew, hspare])] at hexec
  exact ⟨_, hexec, _, rfl, rfl⟩

theorem checkSnap_fst (s : State) : s.checkSnap.1 = s ∨ ∃ n, s.checkSnap.1 = s.setReg .snapFit 0 n := by
  unfold State.checkSnap
  split
  · exact .inl rfl
  · exact .inr ⟨_, rfl⟩

theorem checkSnap_head (s : State) :
    s.checkSnap.1.supervisorUp = s.supervisorUp ∧ s.checkSnap.1.reg .errorHead = s.reg .errorHead := by
  rcases checkSnap_fst s with h | ⟨n, h⟩
  · rw [h]
    exact ⟨rfl, rfl⟩
  · rw [h]
    refine ⟨?_, State.reg_setReg_ne _ (by decide) ..⟩
    unfold State.supervisorUp
    rw [State.reg_setReg_ne _ (by decide), State.reg_setReg_ne _ (by decide)]

/-- What the node notes as it joins the agreement. -/
def State.joinSnap (s : State) (fit ended : Bool) : State :=
  let s := (s.setReg .snapJoined 0 1).setReg .snapWarn 0 (s.reg .squallState)
  let s := (s.setReg .snapFits 0 (ofBool fit)).setReg .snapEnded 0 (ofBool ended)
  s.send (.agreement (s.reg .squallState = 1) fit ended)

theorem joinSnap_facts (s : State) (fit ended : Bool) :
    (s.joinSnap fit ended).reg .snapJoined = 1 ∧ (s.joinSnap fit ended).reg .snapFits = ofBool fit ∧
      (s.joinSnap fit ended).errorLog = s.errorLog := by
  have hsent : ∀ (u : State) (o : Output) (r : Reg), (u.send o).reg r = u.reg r := fun _ _ _ => rfl
  unfold State.joinSnap
  dsimp only
  refine ⟨?_, ?_, rfl⟩
  · rw [hsent, State.reg_setReg_ne _ (by decide), State.reg_setReg_ne _ (by decide), State.reg_setReg_ne _ (by decide),
      State.reg_setReg_same]
    rfl
  · rw [hsent, State.reg_setReg_ne _ (by decide), State.reg_setReg_same]
    cases fit with
    | true => rfl
    | false => rfl

theorem snapQuiesceComplete_completes (s : State) (harrived : s.snapArrived = true) (hquiet : s.quiet = true)
    (hnew : s.reg .snapJoined ≠ 1) :
    Completes .snapQuiesceComplete s fun t =>
      t.reg .snapJoined = 1 ∧ t.reg .snapFits = ofBool s.checkSnap.2 ∧
        (s.checkSnap.2 = false → Records s t 0x14 1 6 0x10 0) := by
  obtain ⟨u, hu⟩ : ∃ u, u = if s.checkSnap.2 then s.checkSnap.1 else s.checkSnap.1.snapshotInvalid 0x10 0 1 := ⟨_, rfl⟩
  have hexec : exec .snapQuiesceComplete s =
      .next (u.joinSnap s.checkSnap.2 (u.drains.all fun d => d.ended || d.retiring)) :=
    hu ▸ if_neg (by simp [harrived, hquiet, hnew])
  obtain ⟨hjoined, hfits, hlog⟩ := joinSnap_facts u s.checkSnap.2 (u.drains.all fun d => d.ended || d.retiring)
  refine ⟨_, hexec, hjoined, hfits, fun hunfit => records_log hlog ?_⟩
  rw [hunfit, if_neg (by decide)] at hu
  obtain ⟨hup, hhead⟩ := checkSnap_head s
  rw [hu]
  exact records_of (e := { code := 0x14, severity := 1, outcome := 6, unitKind := 0x10, unit := 0, detail := 1 }) hup hhead

theorem snapAgreementComplete_completes (s : State) (warning fit ended : Bool) (dirty : List (Fin 17179869184))
    (hjoined : s.reg .snapJoined ≠ 0) :
    Completes (.snapAgreementComplete warning fit ended dirty) s fun t =>
      (fit = false → t = ((s.setReg .snapJoined 0 0).addReg .snapsSkipped 0 1).endSnaps.releaseHarts) ∧
        (fit = true → s.reg .snapFits = 1 → ended = true → s.reg .snapEnded = 1 → warning = true →
          t = ((s.setReg .snapJoined 0 0).startCopy (dirty.map Fin.val)).endSnaps.releaseHarts) := by
  have hexec : exec (.snapAgreementComplete warning fit ended dirty) s = execSnapAgreementComplete warning fit ended dirty s := rfl
  rw [execSnapAgreementComplete, if_neg hjoined] at hexec
  refine ⟨_, hexec, fun hfit => ?_, fun hfit hfits hended hends hwarning => ?_⟩
  · subst hfit
    rfl
  · subst hfit hended hwarning
    simp only [hfits, hends, decide_true, Bool.and_self, Bool.or_true, Bool.true_or, if_true]

/-! The copy (R346, R491, R504). -/

theorem taggedLineSweep_completes (s : State) (line : Fin 17179869184) (k : Nat) (hcopying : s.copying = some k)
    (htagged : (s.slot k).tagged.contains line.val = true) :
    Completes (.taggedLineSweep line) s fun t =>
      t = (if s.llmOf line.val = 2 then s.setLlm line.val 1 else s).setSlot k { s.slot k with
        tagged := (s.slot k).tagged.erase line.val, copied := (s.slot k).copied ++ [line.val] } := by
  have hexec : exec (.taggedLineSweep line) s = execTaggedLineSweep line s := rfl
  rw [execTaggedLineSweep, hcopying] at hexec
  dsimp only at hexec
  rw [if_pos htagged] at hexec
  exact ⟨_, hexec, rfl⟩

/-- The end of a stack's part, by what Draught found on the stack (R491, R504, R506). -/
def State.partCopied (s : State) (st : Nat) (bad : Option (Fin 17179869184)) (k : Nat) : State :=
  let x := s.slot k
  let mine := s.slotLines x st
  match mine.find? fun l => s.poisoned (128 * l) (128 * l + 128), bad.bind fun l => if mine.contains l.val then some l.val else none with
  | some l, _ =>
    ((s.setSlot k Slot.empty).snapshotInvalid 0x10 k 2).dataLoss {
      code := 7, severity := 3, outcome := 6, unitKind := 3, unit := s.channelOf (128 * l), addr := 128 * l }
  | none, some l => ((s.setSlot k Slot.empty).snapshotInvalid 0x10 k 2).stackFinding (128 * l) (.uncorrectable 0)
  | none, none =>
    if x.tagged.any mine.contains then s
    else
      let (d, s) := s.stackDigest x st
      let x := { x with parts := x.parts ++ [(st, d)] }
      if x.parts.length < 32 then s.setSlot k x
      else (s.setSlot k { x with state := 2, committed := true, digest := x.formDigest }).startDrain k

theorem execStackPartComplete_of_copying {s : State} {st : Fin 32} {k : Nat} (bad : Option (Fin 17179869184))
    (hcopying : s.copying = some k) (hpart : ((s.slot k).parts.lookup st.val).isSome = false) :
    execStackPartComplete st bad s = .next (s.partCopied st.val bad k) := by
  rw [execStackPartComplete, hcopying]
  dsimp only
  rw [hpart, if_neg (by decide), State.partCopied]
  dsimp only
  generalize List.find? _ _ = marked
  generalize Option.bind _ _ = found
  cases marked with
  | some l => rfl
  | none =>
    cases found with
    | some l => rfl
    | none =>
      dsimp only
      split
      · rfl
      · split
        · rfl
        · rfl

theorem partCopied_marked {s : State} {st : Nat} (bad : Option (Fin 17179869184)) {k l : Nat}
    (hmarked : (s.slotLines (s.slot k) st).find? (fun l => s.poisoned (128 * l) (128 * l + 128)) = some l) :
    s.partCopied st bad k = ((s.setSlot k Slot.empty).snapshotInvalid 0x10 k 2).dataLoss {
      code := 7, severity := 3, outcome := 6, unitKind := 3, unit := s.channelOf (128 * l), addr := 128 * l } := by
  unfold State.partCopied
  dsimp only
  rw [hmarked]

theorem partCopied_bad {s : State} {st : Nat} {k : Nat} {l : Fin 17179869184}
    (hclean : (s.slotLines (s.slot k) st).find? (fun l => s.poisoned (128 * l) (128 * l + 128)) = none)
    (hmine : (s.slotLines (s.slot k) st).contains l.val = true) :
    s.partCopied st (some l) k =
      ((s.setSlot k Slot.empty).snapshotInvalid 0x10 k 2).stackFinding (128 * l.val) (.uncorrectable 0) := by
  unfold State.partCopied
  dsimp only
  rw [hclean, Option.bind_some, if_pos hmine]

theorem partCopied_good {s : State} {st : Nat} {k : Nat}
    (hclean : (s.slotLines (s.slot k) st).find? (fun l => s.poisoned (128 * l) (128 * l + 128)) = none)
    (hswept : ((s.slot k).tagged.any (s.slotLines (s.slot k) st).contains) = false) :
    ∃ x : Slot, x = { s.slot k with parts := (s.slot k).parts ++ [(st, (s.stackDigest (s.slot k) st).1)] } ∧
      (x.parts.length < 32 → s.partCopied st none k = (s.stackDigest (s.slot k) st).2.setSlot k x) ∧
      (32 ≤ x.parts.length → s.partCopied st none k = ((s.stackDigest (s.slot k) st).2.setSlot k
        { x with state := 2, committed := true, digest := x.formDigest }).startDrain k) := by
  refine ⟨_, rfl, fun hmore => ?_, fun hlast => ?_⟩
  · unfold State.partCopied
    dsimp only
    rw [hclean, Option.bind_none]
    dsimp only
    rw [hswept, if_neg (by decide), if_pos hmore]
  · unfold State.partCopied
    dsimp only
    rw [hclean, Option.bind_none]
    dsimp only
    rw [hswept, if_neg (by decide), if_neg (Nat.not_lt.2 hlast)]

theorem stackPartComplete_completes (s : State) (st : Fin 32) (bad : Option (Fin 17179869184)) (k : Nat) (hcopying : s.copying = some k)
    (hpart : ((s.slot k).parts.lookup st.val).isSome = false) :
    Completes (.stackPartComplete st bad) s fun t =>
      (∀ l, (s.slotLines (s.slot k) st.val).find? (fun l => s.poisoned (128 * l) (128 * l + 128)) = some l →
          t = ((s.setSlot k Slot.empty).snapshotInvalid 0x10 k 2).dataLoss {
            code := 7, severity := 3, outcome := 6, unitKind := 3, unit := s.channelOf (128 * l), addr := 128 * l }) ∧
        ((s.slotLines (s.slot k) st.val).find? (fun l => s.poisoned (128 * l) (128 * l + 128)) = none →
          (∀ l, bad = some l → (s.slotLines (s.slot k) st.val).contains l.val = true →
            t = ((s.setSlot k Slot.empty).snapshotInvalid 0x10 k 2).stackFinding (128 * l.val) (.uncorrectable 0)) ∧
          (bad = none → ((s.slot k).tagged.any (s.slotLines (s.slot k) st.val).contains) = false →
            ∃ x : Slot, x = { s.slot k with parts := (s.slot k).parts ++ [(st.val, (s.stackDigest (s.slot k) st.val).1)] } ∧
              (x.parts.length < 32 → t = (s.stackDigest (s.slot k) st.val).2.setSlot k x) ∧
              (32 ≤ x.parts.length → t = ((s.stackDigest (s.slot k) st.val).2.setSlot k
                { x with state := 2, committed := true, digest := x.formDigest }).startDrain k))) := by
  refine ⟨_, execStackPartComplete_of_copying bad hcopying hpart, fun l hmarked => partCopied_marked bad hmarked, fun hclean =>
    ⟨fun l hbad hmine => ?_, fun hbad hswept => ?_⟩⟩
  · rw [hbad]
    exact partCopied_bad hclean hmine
  · rw [hbad]
    exact partCopied_good hclean hswept

/-! Drains (R508, R510). -/

theorem drainAck_heard {s : State} {v : Arrival} {gen : Dword} {answer : DrainAnswer} {q : Nat}
    (hlost : answer = .lost → q = v.pos.val) (hheard : answer ≠ .lost → Heard s v.pos.val v.h ∧ q = s.cameFrom v.pos.val v.h) :
    exec (.drainAck v gen answer) s = .next (s.drainAnswered q gen.toNat answer) := by
  have hexec : exec (.drainAck v gen answer) s = execDrainAck v gen answer s := rfl
  rw [hexec, execDrainAck]
  by_cases hanswer : answer = .lost
  · rw [if_pos hanswer, hlost hanswer]
  · obtain ⟨hmember, hfrom⟩ := hheard hanswer
    rw [if_neg hanswer, takeControl_of_heard hmember, hfrom]

section
variable {s : State} {q gen : Nat} {d : Drain} (hdrain : s.drains.find? (fun d => decide (d.gen = gen) && !d.ended) = some d)
  (hother : q ≠ s.pos) (hplace : s.pos < 17)
include hdrain hother hplace

theorem drainAnswered_more (hnew : d.acked.contains q = false) (hmore : d.acked.length < 15) :
    s.drainAnswered q gen .committed = s.setDrain { d with acked := d.acked ++ [q] } := by
  unfold State.drainAnswered
  rw [hdrain]
  dsimp only
  rw [if_neg (by simp [hother, hplace]), if_pos rfl, hnew]
  exact if_pos (by rw [if_neg (by decide), List.length_append, List.length_singleton]; omega)

theorem drainAnswered_last (hnew : d.acked.contains q = false) (hlast : d.acked.length = 15) :
    ∃ u : State, s.drainAnswered q gen .committed =
      (u.change .slotDrained 0 (withBit (u.reg .slotDrained) d.slot)).checkRetiring := by
  unfold State.drainAnswered
  rw [hdrain]
  dsimp only
  rw [if_neg (by simp [hother, hplace]), if_pos rfl, hnew]
  exact ⟨_, if_neg (by rw [if_neg (by decide), List.length_append, List.length_singleton]; omega)⟩

theorem drainAnswered_retry {answer : DrainAnswer} (hrefused : answer ≠ .committed) (hfirst : d.retried = false) :
    s.drainAnswered q gen answer = (s.setDrain { d with acked := [], retried := true }).sendShards
      (if d.retiring then s.reg .retiringEpoch else s.reg .jobEpoch) (s.slot d.slot).image := by
  unfold State.drainAnswered
  rw [hdrain]
  dsimp only
  rw [if_neg (by simp [hother, hplace]), if_neg hrefused, hfirst]
  rfl

end

theorem bit_change_withBit {s : State} {b : Nat} (hb : b < 8) :
    bit ((s.change .slotDrained 0 (withBit (s.reg .slotDrained) b)).reg .slotDrained) b = true := by
  have hmod : Reg.modulus .slotDrained = 2 ^ 8 := rfl
  have hset : (withBit (s.reg .slotDrained) b).testBit b = true := (bit_withBit (s.reg .slotDrained) b b).trans (by simp)
  rw [State.reg_change _ (by decide), if_pos ⟨rfl, rfl⟩, hmod, bit, Nat.testBit_mod_two_pow, hset]
  simpa using hb

theorem drainAck_completes (s : State) (v : Arrival) (gen : Dword) (answer : DrainAnswer) (d : Drain) (q : Nat)
    (hdrain : s.drains.find? (fun d => decide (d.gen = gen.toNat) && !d.ended) = some d) (hlost : answer = .lost → q = v.pos.val)
    (hheard : answer ≠ .lost → Heard s v.pos.val v.h ∧ q = s.cameFrom v.pos.val v.h) (hother : q ≠ s.pos) (hplace : s.pos < 17)
    (hslot : d.slot < 2) :
    Completes (.drainAck v gen answer) s fun t =>
      (answer = .committed → d.acked.contains q = false → d.acked.length = 15 →
          ∃ u : State, t = u.checkRetiring ∧ bit (u.reg .slotDrained) d.slot = true) ∧
        (answer = .committed → d.acked.contains q = false → d.acked.length < 15 →
          t = s.setDrain { d with acked := d.acked ++ [q] }) ∧
        (answer ≠ .committed → d.retried = false → t = (s.setDrain { d with acked := [], retried := true }).sendShards
          (if d.retiring then s.reg .retiringEpoch else s.reg .jobEpoch) (s.slot d.slot).image) := by
  refine ⟨_, drainAck_heard hlost hheard, fun hcommitted hnew hlast => ?_, fun hcommitted hnew hmore => ?_, fun hrefused hfirst =>
    drainAnswered_retry hdrain hother hplace hrefused hfirst⟩
  · obtain ⟨u, hu⟩ := drainAnswered_last hdrain hother hplace hnew hlast
    exact ⟨_, hcommitted ▸ hu, bit_change_withBit (by omega)⟩
  · rw [hcommitted]
    exact drainAnswered_more hdrain hother hplace hnew hmore

theorem drainDeadlineExpiry_completes (s : State) (k : Fin 2)
    (hruns : (s.drains.any fun d => decide (d.slot = k.val) && !d.ended) = true) :
    Completes (.drainDeadlineExpiry k) s fun t => Records s t 0x0C 5 5 0x10 k.val ∧ t.drains = s.drains := by
  have hexec : exec (.drainDeadlineExpiry k) s =
      .next (s.logError { code := 0x0C, severity := 5, outcome := 5, unitKind := 0x10, unit := k.val }) := if_pos hruns
  refine ⟨_, hexec, records_logError s { code := 0x0C, severity := 5, outcome := 5, unitKind := 0x10, unit := k.val }, ?_⟩
  obtain ⟨_, _, _, _, _, _, _, _, _, _, _, _, _, _, _, _, _, _, _, hsame⟩ :=
    recorded_logError (s := s) { code := 0x0C, severity := 5, outcome := 5, unitKind := 0x10, unit := k.val }
  rw [hsame]

/-! Shards that a holder stores (R508, R509). -/

theorem shards_showShards (s : State) : s.showShards.shards = s.shards := by
  have hfold : ∀ (l : List Nat) (f : State → Nat → Nat) (u : State),
      (l.foldl (fun (u : State) k => u.setReg .shardDir k (f u k)) u).shards = u.shards := by
    intro l f
    induction l with
    | nil => exact fun _ => rfl
    | cons k l ih => exact fun u => ih _
  exact hfold _ _ s

theorem head_putShard (s : State) (x : Shard) : (s.putShard x).shards.head? = some x := by
  unfold State.putShard
  rw [shards_showShards]
  rfl

theorem shardReceive_completes (s : State) (q : Fin 17) (h : Header) (index : Fin 16) (tstep gen imageBytes : Dword) (data : List Byte)
    (hheard : Heard s q.val h) (hother : s.cameFrom q.val h ≠ s.pos) :
    Completes (.shardReceive q h index tstep gen imageBytes data) s fun t =>
      (s.areaBytes < data.length → t = s.answerShard q.val h gen.toNat .tooLarge) ∧
        (data.length ≤ s.areaBytes → ∃ (x : Shard) (u : State), u.shards.head? = some x ∧ x.src = h.src.val ∧
          x.epoch = h.epoch.toNat ∧ x.gen = gen.toNat ∧ x.tstep = tstep.toNat ∧ x.index = index.val ∧ x.data = data ∧
            x.state = 2 ∧ x.digest = digest data ∧ MemKept s u ∧ t = u.answerShard q.val h gen.toNat .committed) := by
  have hexec : exec (.shardReceive q h index tstep gen imageBytes data) s =
      execShardReceive q h index tstep gen imageBytes data s := rfl
  rw [execShardReceive, takeControl_of_heard hheard] at hexec
  dsimp only at hexec
  rw [if_neg hother] at hexec
  refine ⟨_, hexec, fun hlarge => if_pos hlarge, fun hfits => ⟨_, _, head_putShard s _, rfl, rfl, rfl, rfl, rfl, rfl, rfl, rfl,
    fun _ => State.byte_congr (putShard_mem s _ (by decide)) _, if_neg (Nat.not_lt.2 hfits)⟩⟩

/-- Settles O18: each command from what it does once its snapshot, its copy, its drain or its shard stands as the clause says. -/
theorem snapshotsComplete : Obligations.SnapshotsComplete :=
  ⟨snap_completes, snapCaptureComplete_completes, snapQuiesceComplete_completes, snapAgreementComplete_completes,
    taggedLineSweep_completes, stackPartComplete_completes, drainAck_completes, drainDeadlineExpiry_completes,
    shardReceive_completes⟩

end Sys2Proof.Machine
end

section
/-! The wrapper instructions of the base dies (R322, R327, R328). -/

namespace Sys2Proof.Machine

/-! The instruction register. -/

theorem wrapperSelect_completes (s : State) (st : Fin 32) (code : Byte) (hservice : s.reg .nodeState = 8) :
    Completes (.wrapperSelect st code) s fun t =>
      t.wrapperStack = some st.val ∧
        t.reg .wrapper / 64 = (if wrapperCodes.contains code.toNat then code.toNat else 0x100) ∧
        RegsKept [.wrapper] s t ∧ MemKept s t := by
  have hexec : exec (.wrapperSelect st code) s = .next (s.loadCode st.val code.toNat) := if_pos (by simp [State.isIn, hservice])
  have hcode : (if wrapperCodes.contains code.toNat then code.toNat else 0x100) < 2 ^ 16 := by
    split
    · exact Nat.lt_trans code.isLt (by decide)
    · decide
  have hwrapper : (s.loadCode st.val code.toNat).reg .wrapper =
      st.val + 1 + 64 * if wrapperCodes.contains code.toNat then code.toNat else 0x100 := by
    rw [State.loadCode, State.reg_setReg_same, Reg.modulus_wrapper]
    generalize (if wrapperCodes.contains code.toNat then code.toNat else 0x100) = n at hcode
    omega
  have hnode : (s.loadCode st.val code.toNat).isIn stService = true := by
    rw [State.isIn, State.loadCode, State.reg_setReg_ne _ (by decide), hservice]
    rfl
  refine ⟨_, hexec, ?_, ?_, RegsKept.setReg (by simp) .refl, fun _ => rfl⟩
  · rw [State.wrapperStack, hnode, hwrapper, if_pos (by simp)]
    congr 1
    omega
  · rw [hwrapper]
    omega

theorem out_loadCode (s : State) (k code : Nat) : (s.loadCode k code).out = s.out := rfl

theorem remaps_loadCode (s : State) (k code : Nat) : (s.loadCode k code).remaps = s.remaps := rfl

/-! What shifts out. -/

theorem journalRead_completes (s : State) (entry : Fin 512) (k : Nat) (hstack : s.wrapperStack = some k) :
    Completes (.journalRead entry) s fun t =>
      t = (s.loadCode k 0xE0).send (.tap (Store.at 0 s.journal (k * 512 + entry.val))) := by
  have hexec : exec (.journalRead entry) s = execJournalRead entry s := rfl
  rw [execJournalRead, hstack] at hexec
  exact ⟨_, hexec, rfl⟩

theorem remapRead_completes (s : State) (ch : Fin 32) (row k : Nat) (hstack : s.wrapperStack = some k) :
    Completes (.remapRead ch row) s fun t =>
      (∀ r, (s.remaps.find? fun r => decide (r.stack = k) && decide (field r.element 5 5 = ch.val) && decide (r.row
        = row)) = some r →
          t = (s.loadCode k 0xE1).send (.tap r.element)) ∧ (∃ v, t.out = .tap v :: s.out) ∧
        t.regs = (s.loadCode k 0xE1).regs := by
  have hexec : exec (.remapRead ch row) s = execRemapRead ch row s := rfl
  have hout := out_loadCode s k 0xE1
  have hremaps := remaps_loadCode s k 0xE1
  rw [execRemapRead, hstack] at hexec
  dsimp only at hexec
  generalize s.loadCode k 0xE1 = u at *
  rw [hremaps] at hexec
  cases hrow : s.remaps.find? fun r => decide (r.stack = k) && decide (field r.element 5 5 = ch.val) && decide (r.row = row) with
  | none =>
    rw [hrow] at hexec
    exact ⟨_, hexec, fun r h => (nomatch h), ⟨_, congrArg _ hout⟩, rfl⟩
  | some x =>
    rw [hrow] at hexec
    exact ⟨_, hexec, fun r h => Option.some.inj h ▸ rfl, ⟨_, congrArg _ hout⟩, rfl⟩

theorem draughtStatus_completes (s : State) (k : Nat) (hstack : s.wrapperStack = some k) :
    Completes .draughtStatus s fun t =>
      t = (s.loadCode k 0xE5).send (.tap (s.copyFront k % 2 ^ 64 + s.reg .cbwWrites k % 2 ^ 32 * 2 ^ 64)) := by
  have hexec : exec .draughtStatus s = execDraughtStatus s := rfl
  rw [execDraughtStatus, hstack] at hexec
  exact ⟨_, hexec, rfl⟩

theorem hbm4DeviceIdentity_completes (s : State) (k : Nat) (hstack : s.wrapperStack = some k) :
    Completes .hbm4DeviceIdentity s fun t =>
      t = (s.loadCode k (Config.hbmCode 0).toNat).send (.tap (Config.hbmIdentity k).toNat) := by
  have hexec : exec .hbm4DeviceIdentity s = execHbm4DeviceIdentity s := rfl
  rw [execHbm4DeviceIdentity, hstack] at hexec
  exact ⟨_, hexec, rfl⟩

theorem hbm4TemperatureReadout_completes (s : State) (k : Nat) (hstack : s.wrapperStack = some k) :
    Completes .hbm4TemperatureReadout s fun t =>
      (∃ v, t.out = .tap v :: s.out) ∧ t.regs = (s.loadCode k (Config.hbmCode 1).toNat).regs ∧ MemKept s t := by
  have hexec : exec .hbm4TemperatureReadout s = execHbm4TemperatureReadout s := rfl
  rw [execHbm4TemperatureReadout, hstack] at hexec
  exact ⟨_, hexec, ⟨_, rfl⟩, rfl, fun _ => rfl⟩

theorem hbm4ModeRegisterDump_completes (s : State) (k : Nat) (hstack : s.wrapperStack = some k) :
    Completes .hbm4ModeRegisterDump s fun t =>
      (∃ v, t.out = .tap v :: s.out) ∧ t.regs = (s.loadCode k (Config.hbmCode 2).toNat).regs ∧ MemKept s t := by
  have hexec : exec .hbm4ModeRegisterDump s = execHbm4ModeRegisterDump s := rfl
  rw [execHbm4ModeRegisterDump, hstack] at hexec
  exact ⟨_, hexec, ⟨_, rfl⟩, rfl, fun _ => rfl⟩

theorem channelTest_completes (s : State) (ch : Fin 32) (rows : List StackElement) (k : Nat) (hstack : s.wrapperStack = some k) :
    Completes (.channelTest ch rows) s fun t =>
      t.reg .selftestRuns = (s.reg .selftestRuns + 1) % Reg.modulus .selftestRuns ∧
        t.out = .tap ((rows.filter fun e => e.channel = ch).length % 2 ^ 32 +
          (((rows.filter fun e => e.channel = ch).map elementBits32).headD 0) * 2 ^ 32) :: s.out := by
  have hexec : exec (.channelTest ch rows) s = execChannelTest ch rows s := rfl
  have hruns : (s.loadCode k 0xE4).reg .selftestRuns = s.reg .selftestRuns := State.reg_setReg_ne _ (by decide) ..
  have hout := out_loadCode s k 0xE4
  rw [execChannelTest, hstack] at hexec
  dsimp only at hexec
  generalize s.loadCode k 0xE4 = u at *
  have hsent : ∀ (o : Output), ((u.addReg .selftestRuns 0 1).send o).reg .selftestRuns =
      (s.reg .selftestRuns + 1) % Reg.modulus .selftestRuns := fun o =>
    (State.reg_setReg_same ..).trans (by rw [hruns])
  refine ⟨_, hexec, hsent _, ?_⟩
  rw [← List.length_map (f := elementBits32), ← hout]
  rfl

/-! Remaps and repairs. -/

theorem remaps_degrade (s : State) (b : Nat) : (s.degrade b).remaps = s.remaps := by
  obtain ⟨_, _, _, _, h⟩ := logged_degrade s b
  rw [h]

theorem remaps_installRemap (s : State) (stack element row : Nat) :
    (s.installRemap stack element row).remaps = s.remaps ++ [(⟨stack, element, row⟩ : Remap)] := by
  unfold State.installRemap
  dsimp only
  split
  · rw [remaps_degrade, State.remaps_change]
  · rw [State.remaps_change]

theorem remapWrite_completes (s : State) (e : StackElement) (row k : Nat) (hstack : s.wrapperStack = some k) (hrow : row < 61440) :
    Completes (.remapWrite e row) s fun t =>
      (⟨k, elementBits32 e, row⟩ : Remap) ∈ t.remaps ∧ (∀ r ∈ t.remaps, r.stack = k → r.element = elementBits32 e →
        r.row = row) := by
  have hexec : exec (.remapWrite e row) s = execRemapWrite e row s := rfl
  rw [execRemapWrite, hstack] at hexec
  dsimp only at hexec
  rw [if_neg (by omega)] at hexec
  refine ⟨_, hexec, ?_⟩
  dsimp only
  rw [State.auditRepair, State.remaps_appendAudit, remaps_installRemap, State.remaps_setReg]
  refine ⟨by simp, fun r hr hstack helement => ?_⟩
  rcases List.mem_append.1 hr with hold | hnew
  · obtain ⟨hlisted, hkept⟩ := List.mem_filter.1 hold
    rw [Bool.not_eq_true', List.contains_eq_mem, decide_eq_false_iff_not] at hkept
    exact absurd (List.mem_filter.2 ⟨hlisted, by simp [hstack, helement]⟩) hkept
  · rw [List.mem_singleton.1 hnew]

theorem hbm4SoftPpr_completes (s : State) (e : StackElement) (k : Nat) (hstack : s.wrapperStack = some k) :
    Completes (.hbm4SoftPpr e) s fun t =>
      (k, elementBits32 e) ∈ t.softPpr ∧ (∀ r ∈ t.remaps, r.stack = k → r.element ≠ elementBits32 e) ∧ MemKept s t := by
  have hexec : exec (.hbm4SoftPpr e) s = execHbm4SoftPpr e s := rfl
  rw [execHbm4SoftPpr, hstack] at hexec
  have hframe : Leaves (.reserveRowsLeft :: .wrapper :: auditRegs) (.hbm4SoftPpr e) :=
    leaves_of_touches (T := touchExecHbm4SoftPpr) rfl (by decide +kernel) (by decide +kernel)
  have hsoft : ∀ (u : State) (old : List Byte), (u.auditRepair .reserveRowsLeft k old).softPpr = u.softPpr ∧
      (u.auditRepair .reserveRowsLeft k old).remaps = u.remaps := fun u old => ⟨State.softPpr_appendAudit .., State.remaps_appendAudit ..⟩
  refine ⟨_, hexec, ?_, ?_, (hframe s _ hexec).2⟩
  · rw [(hsoft _ _).1]
    split
    · exact List.mem_cons_self
    · exact List.mem_cons_self
  · rw [(hsoft _ _).2]
    split
    · intro r hr hof helement
      have hgone := (List.mem_filter.1 hr).2
      simp [hof, helement] at hgone
    · next hnone =>
      intro r hr hof helement
      refine hnone (List.any_eq_true.2 ⟨r, hr, ?_⟩)
      simp [hof, helement]

theorem regBytes_loadCode (s : State) (k code : Nat) (r : Reg) (hr : .wrapper ≠ r) (i : Nat) :
    (s.loadCode k code).regBytes r i = s.regBytes r i := by
  unfold State.regBytes State.loadCode
  simp only [State.reg_setReg_ne _ hr]

theorem startRepair_pulses_length {s : State} {stack : Nat} (hroom : s.reg .journalUsed stack < 512)
    (hidle : (s.pulses.any fun p => decide (p.stack = stack)) = false) (element kind : Nat) (jtag : Bool) :
    (s.startRepair stack element kind jtag).pulses.length = s.pulses.length + 1 := by
  have hnoted : ∀ (u : State) (n : Nat), ((u.change .journalUsed stack n).setFlag .fusePulses 0 stack true).pulses = u.pulses :=
    fun u n => State.pulses_change ..
  have hcounted : ∀ u : State, (if jtag then u.addReg .serviceWork 0 1 else u).pulses = u.pulses := by
    intro u
    split
    · rfl
    · rfl
  unfold State.startRepair
  dsimp only
  rw [hidle, if_neg (by simpa using hroom)]
  dsimp only
  rw [List.length_append, hcounted, hnoted]
  rfl

/-- A repair for which the journal of the stack has room, and while no pulse runs there, starts. -/
theorem wrapperRepair_starts {s : State} {k : Nat} (hstack : s.wrapperStack = some k) (hroom : s.reg .journalUsed k < 512)
    (hidle : (s.pulses.any fun p => decide (p.stack = k)) = false) (e : StackElement) (kind code : Nat) :
    s.wrapperRepair e kind code = ((s.loadCode k code).startRepair k (elementBits32 e) kind true).auditRepair .journalUsed k
      (s.regBytes .journalUsed k) := by
  have hused : (s.loadCode k code).reg .journalUsed k < 512 := (State.reg_setReg_ne _ (by decide) ..).trans_lt hroom
  have hpulses : (s.loadCode k code).pulses = s.pulses := rfl
  have hlonger := startRepair_pulses_length (s := s.loadCode k code) hused (hpulses ▸ hidle) (elementBits32 e) kind true
  have hstarts : (s.loadCode k code).startRepair k (elementBits32 e) kind true ≠ s.loadCode k code := by
    intro h
    rw [h] at hlonger
    omega
  rw [State.wrapperRepair, hstack]
  dsimp only
  rw [if_neg hstarts, regBytes_loadCode _ _ _ _ (by decide)]

theorem repairRow_completes (s : State) (e : StackElement) (k : Nat) (hstack : s.wrapperStack = some k)
    (hroom : s.reg .journalUsed k < 512) (hidle : (s.pulses.any fun p => decide (p.stack = k)) = false) :
    Completes (.repairRow e) s fun t =>
      t = ((s.loadCode k 0xE3).startRepair k (elementBits32 e) 1 true).auditRepair .journalUsed k
        (s.regBytes .journalUsed k) := ⟨_, rfl, wrapperRepair_starts hstack hroom hidle e 1 0xE3⟩

theorem hbm4LaneRepair_completes (s : State) (e : StackElement) (k : Nat) (hstack : s.wrapperStack = some k)
    (hroom : s.reg .journalUsed k < 512) (hidle : (s.pulses.any fun p => decide (p.stack = k)) = false) :
    Completes (.hbm4LaneRepair e) s fun t =>
      t = ((s.loadCode k (Config.hbmCode 3).toNat).startRepair k (elementBits32 e) 2 true).auditRepair .journalUsed k
        (s.regBytes .journalUsed k) := ⟨_, rfl, wrapperRepair_starts hstack hroom hidle e 2 _⟩

theorem hbm4HardPpr_completes (s : State) (e : StackElement) (k : Nat) (hstack : s.wrapperStack = some k)
    (hroom : s.reg .journalUsed k < 512) (hidle : (s.pulses.any fun p => decide (p.stack = k)) = false) :
    Completes (.hbm4HardPpr e) s fun t =>
      t = ((s.loadCode k (Config.hbmCode 5).toNat).startRepair k (elementBits32 e) 1 true).auditRepair .journalUsed k
        (s.regBytes .journalUsed k) := ⟨_, rfl, wrapperRepair_starts hstack hroom hidle e 1 _⟩

/-- Settles O16: each instruction from the wrapper that the TAP connects. -/
theorem wrapperComplete : Obligations.WrapperComplete :=
  ⟨wrapperSelect_completes, journalRead_completes, remapRead_completes, remapWrite_completes, repairRow_completes,
    hbm4LaneRepair_completes, hbm4HardPpr_completes, channelTest_completes, draughtStatus_completes,
    hbm4DeviceIdentity_completes, hbm4TemperatureReadout_completes, hbm4ModeRegisterDump_completes, hbm4SoftPpr_completes⟩

end Sys2Proof.Machine
end

section
/-! Channels: replays, retrains, soft remaps, pattern tests, map-outs and migration (R307 to R310, R315 to R317, R322). -/

namespace Sys2Proof.Machine

/-! Replays and retrains (R308). -/

theorem exec_channelParityReplay {s : State} {ch : Fin 1024} (hin : s.chanState ch.val ≠ 4) :
    exec (.channelParityReplay ch) s =
      .next (let u := s.parityReplayed 3 ch.val 0 0xFFFF 0
        if threeWithin u.now 1000000 ((u.now :: (u.chan ch.val).replays).take 3) then
          (u.setChan ch.val { u.chan ch.val with replays := [] }).retrain ch.val
        else u.setChan ch.val { u.chan ch.val with replays := (u.now :: (u.chan ch.val).replays).take 3 }) := by
  have hexec : exec (.channelParityReplay ch) s = execChannelParityReplay ch s := rfl
  rw [hexec, execChannelParityReplay, if_neg hin]
  dsimp only
  split
  · rfl
  · rfl

theorem channelParityReplay_completes (s : State) (ch : Fin 1024) (hin : s.chanState ch.val ≠ 4) :
    Completes (.channelParityReplay ch) s fun t =>
      ∃ u : State, u = s.parityReplayed 3 ch.val 0 0xFFFF 0 ∧ Records s u 1 0 1 3 ch.val ∧
        t = if threeWithin u.now 1000000 ((u.now :: (u.chan ch.val).replays).take 3) then
            (u.setChan ch.val { u.chan ch.val with replays := [] }).retrain ch.val
          else u.setChan ch.val { u.chan ch.val with replays := (u.now :: (u.chan ch.val).replays).take 3 } :=
  ⟨_, exec_channelParityReplay hin, _, rfl, records_logError s _, rfl⟩

/-- The record of a channel that starts to retrain. -/
def retrainEvent (ch : Nat) : ErrorEvent := { code := 8, severity := 0, unitKind := 3, unit := ch, pause := 0xFFFFFFFF }

/-- A channel starts to retrain unless it is doing so, or is mapped out. -/
theorem retrain_of_idle {s : State} {ch : Nat} (hidle : (s.chan ch).retraining = none) (hin : s.chanState ch ≠ 4) :
    ∃ (c : Channel) (u : State), c.retraining.isSome = true ∧
      u = ((s.logError (retrainEvent ch)).addReg .retrains (ch / 32) 1).setChan ch c ∧
      s.retrain ch = if u.chanState ch = csActive then u.change .channelState ch csRetraining else u := by
  have hgoes : ¬ ((s.chan ch).retraining.isSome || decide (s.chanState ch = csMappedOut)) = true := by
    simp [hidle, hin]
  exact ⟨{ s.chan ch with
    retraining := some (((s.logError (retrainEvent ch)).addReg .retrains (ch / 32) 1).reg .errorHead,
      ((s.logError (retrainEvent ch)).addReg .retrains (ch / 32) 1).now)
    retrains := (((s.logError (retrainEvent ch)).addReg .retrains (ch / 32) 1).now :: (s.chan ch).retrains).take 3 },
    _, rfl, rfl, if_neg hgoes⟩

theorem retrain_facts {s : State} {ch : Nat} (hidle : (s.chan ch).retraining = none) (hin : s.chanState ch ≠ 4) :
    Records s (s.retrain ch) 8 0 0 3 ch ∧ (s.chanState ch = 0 → (s.retrain ch).chanState ch = 1) ∧
      ((s.retrain ch).chan ch).retraining.isSome = true := by
  obtain ⟨c, u, hc, hu, hretrain⟩ := retrain_of_idle hidle hin
  have hrec : Records s u 8 0 0 3 ch := records_log (hu ▸ rfl) (records_logError s (retrainEvent ch))
  have hstate : u.chanState ch = s.chanState ch := by
    rw [hu, State.chanState, setChan_reg, addReg_reg _ _ _ _ _ (by decide), State.reg_logError _ (by decide)]
    rfl
  have hchan : (u.chan ch).retraining.isSome = true := by
    rw [hu, chan_setChan, if_pos rfl, hc]
  rw [hretrain]
  split
  · refine ⟨records_log (State.errorLog_change ..) hrec, fun _ => ?_, ?_⟩
    · rw [State.chanState, State.reg_change _ (by decide), if_pos ⟨rfl, rfl⟩]
      rfl
    · rw [State.chan, State.chans_change]
      exact hchan
  · next hbusy => exact ⟨hrec, fun hactive => absurd (hstate.trans hactive) hbusy, hchan⟩

theorem calibrationDrift_completes (s : State) (ch : Fin 1024) (hidle : (s.chan ch.val).retraining = none)
    (hin : s.chanState ch.val ≠ 4) :
    Completes (.calibrationDrift ch) s fun t =>
      Records s t 8 0 0 3 ch.val ∧ (s.chanState ch.val = 0 → t.chanState ch.val = 1) ∧
        (t.chan ch.val).retraining.isSome = true :=
  ⟨_, rfl, retrain_facts hidle hin⟩

theorem leaveRetrain_facts (s : State) (ch : Nat) :
    (s.leaveRetrain ch).now = s.now ∧ ((s.leaveRetrain ch).chan ch).retraining = none ∧
      (s.chanState ch = 1 → (s.leaveRetrain ch).chanState ch = 0) := by
  obtain ⟨u, hu⟩ : ∃ u, u = s.setChan ch { s.chan ch with retraining := none } := ⟨_, rfl⟩
  have hnow : u.now = s.now := hu ▸ rfl
  have hchan : (u.chan ch).retraining = none := by rw [hu, chan_setChan, if_pos rfl]
  have hleave : s.leaveRetrain ch = if u.chanState ch = csRetraining then u.change .channelState ch csActive else u :=
    hu ▸ rfl
  rw [hleave]
  split
  · refine ⟨(State.now_change ..).trans hnow, ?_, fun _ => ?_⟩
    · rw [State.chan, State.chans_change]
      exact hchan
    · rw [State.chanState, State.reg_change _ (by decide), if_pos ⟨rfl, rfl⟩]
      rfl
  · next hother =>
    refine ⟨hnow, hchan, fun hretraining => absurd ?_ hother⟩
    rw [hu, State.chanState, setChan_reg]
    exact hretraining

theorem testRetrained_facts (s : State) (ch seq : Nat) :
    ((s.testRetrained ch seq).chan ch).retraining = (s.chan ch).retraining ∧ (s.testRetrained ch seq).chanState ch = 2 := by
  obtain ⟨u, hu⟩ : ∃ u, u = s.setChan ch { s.chan ch with testCode := 8 } := ⟨_, rfl⟩
  have htest : s.testRetrained ch seq = (u.change .channelState ch csTesting).startTest 3 ch 0 seq := hu ▸ rfl
  have hchans : ((u.change .channelState ch csTesting).startTest 3 ch 0 seq).chans = u.chans := State.chans_change ..
  constructor
  · rw [htest, State.chan, hchans]
    show (u.chan ch).retraining = _
    rw [hu, chan_setChan, if_pos rfl]
  · rw [htest, State.chanState, startTest_reg _ _ _ _ _ _ (by decide), State.reg_change _ (by decide), if_pos ⟨rfl, rfl⟩]
    rfl

theorem retrained_facts (s : State) (ch : Nat) (ok : Bool) (seq at1 : Nat) :
    ((s.retrained ch ok seq at1).chan ch).retraining = none ∧
      (ok = true → threeWithin s.now 1000000000 (s.chan ch).retrains = false → s.chanState ch = 1 →
        (s.retrained ch ok seq at1).chanState ch = 0) ∧
      (ok = false → s.chanState ch = 1 → (s.retrained ch ok seq at1).chanState ch = 2) := by
  obtain ⟨hnow, hchan, hstate⟩ := leaveRetrain_facts s ch
  unfold State.retrained
  dsimp only
  rw [hnow]
  generalize htest : (!ok || threeWithin s.now 1000000000 (s.chan ch).retrains) = test
  obtain ⟨v, hv⟩ : ∃ v, v = (s.leaveRetrain ch).settleError seq (if test then 0 else 1) (s.now - at1) := ⟨_, rfl⟩
  have hvchan : (v.chan ch).retraining = none := hv ▸ hchan
  have hvstate : s.chanState ch = 1 → v.chanState ch = 0 := hv ▸ hstate
  obtain ⟨htchan, htstate⟩ := testRetrained_facts v ch seq
  rw [← hv]
  split
  · next hstarts =>
    have htested : test = true := (Bool.and_eq_true ..).mp hstarts |>.1
    refine ⟨htchan.trans hvchan, fun hok hfew _ => ?_, fun _ _ => htstate⟩
    rw [← htest, hok, hfew] at htested
    exact absurd htested (by decide)
  · next hstays =>
    refine ⟨hvchan, fun _ _ => hvstate, fun hfails hretraining => absurd ?_ hstays⟩
    rw [← htest, hfails, hvstate hretraining]
    rfl

theorem channelRetrainComplete_completes (s : State) (ch : Fin 1024) (ok : Bool) (seq at1 : Nat)
    (hretraining : (s.chan ch.val).retraining = some (seq, at1)) :
    Completes (.channelRetrainComplete ch ok) s fun t =>
      ∃ u : State, t = u.releaseChan ch.val ∧ (u.chan ch.val).retraining = none ∧
        (ok = true → threeWithin s.now 1000000000 (s.chan ch.val).retrains = false → s.chanState ch.val = 1 →
          u.chanState ch.val = 0) ∧
        (ok = false → s.chanState ch.val = 1 → u.chanState ch.val = 2) :=
  ⟨_, exec_channelRetrainComplete ok hretraining, _, rfl, retrained_facts s ch.val ok seq at1⟩

/-! Soft remaps (R322) and pattern tests (R309, R310). -/

theorem softRemapComplete_completes (s : State) (st : Fin 32) (e : Nat)
    (hcopied : (s.remapping.find? fun r => decide (r.1 = st.val)) = some (st.val, e))
    (hrows : s.reg .reserveRowsLeft st < 2 ^ 32) :
    Completes (.softRemapComplete st) s fun t =>
      t.remaps = s.remaps ++ ([⟨st.val, e,
        ({ s with remapping := s.remapping.erase (st.val, e) }).freeRow (elementChannel st.val e)⟩] : List Remap) ∧
        t.reg .reserveRowsLeft st = s.reg .reserveRowsLeft st - 1 := by
  have hexec : exec (.softRemapComplete st) s = execSoftRemapComplete st s := rfl
  rw [execSoftRemapComplete, hcopied] at hexec
  exact ⟨_, hexec, installRemap_facts _ _ _ _ hrows⟩

theorem tests_failBaseDie (s : State) (st : Nat) : (s.failBaseDie st).tests = s.tests := by
  rw [State.failBaseDie, tests_enterFaulted, State.tests_logError]

theorem patternTestComplete_completes (s : State) (ch : Fin 1024) (r : PatternResult) (x : SelfTest)
    (hruns : s.runningTest 3 ch.val = some x) :
    Completes (.patternTestComplete ch r) s fun t =>
      (∀ y ∈ t.tests, y.kind = x.kind → y.unit ≠ x.unit) ∧ (r = .pass → s.chanState ch.val = 2 →
        t.chanState ch.val = 0) := by
  have hexec : exec (.patternTestComplete ch r) s = execPatternTestComplete ch r s := rfl
  rw [execPatternTestComplete, hruns] at hexec
  dsimp only at hexec
  obtain ⟨u, hu⟩ : ∃ u, u = if s.chanState ch.val = csTesting then s.change .channelState ch.val csActive else s := ⟨_, rfl⟩
  rw [← hu] at hexec
  cases r with
  | pass =>
    refine ⟨_, hexec, endTest_gone _ x _ _ rfl, fun _ htesting => ?_⟩
    rw [State.chanState, endTest_reg, hu, if_pos htesting, State.reg_change _ (by decide), if_pos ⟨rfl, rfl⟩]
    rfl
  | whole => exact ⟨_, hexec, endTest_gone _ x _ _ (tests_decideMapout ..), nofun⟩
  | baseDie => exact ⟨_, hexec, endTest_gone _ x _ _ (tests_failBaseDie ..), nofun⟩
  | rows es =>
    dsimp only at hexec
    generalize ((es.map elementBits32).filter fun e => decide (elementChannel (ch.val / 32) e = ch.val)).filter
      (fun e => !u.isRemapped (ch.val / 32) e) = rows at hexec
    split at hexec
    · exact ⟨_, hexec, endTest_gone _ x _ _ (tests_decideMapout ..), nofun⟩
    · cases rows with
      | nil => exact ⟨_, hexec, endTest_gone _ x _ _ rfl, nofun⟩
      | cons e rest => exact ⟨_, hexec, endTest_gone _ x _ _ (State.tests_logError ..), nofun⟩

end Sys2Proof.Machine
end

section
/-! Map-outs of channels: the switch of the redirect map, the end of the migration, and the objects that hold a map-out back (R303, R315 to
R317, R321). -/

namespace Sys2Proof.Machine

/-- The lines of the channel `ch` leave the LLM, and the dirty ones among them are thereby moved (R315). -/
def State.dropLines (s : State) (ch : Nat) : State :=
  let mine := s.llm.filter fun (e : Nat × Nat) => s.channelOf (128 * e.1) = ch
  { s with
    llm := s.llm.filter fun e => !mine.contains e
    moved := (mine.filter fun (e : Nat × Nat) => e.2 = 2 && decide (128 * e.1 < s.reg .stackTop - 0x80000000)).map Prod.fst
    migrated := 0 }

/-- The registers that the switch writes, in order. -/
def State.showSwitch (s : State) (order ch top : Nat) : State :=
  let u := ((s.setReg .mapoutOrder order ch).change .channelsOut 0 (order + 1)).change .channelState ch csMigrating
  (u.change .stackTop 0 top).setReg .migrationLeft 0 (1023 * 0x200000)

/-- The redirect map has been switched for the channel `ch`, the head of the map-outs that wait, the host has given up its lines, and
the top of the stacks is lower (R315, R317, R558). -/
def State.switchedMap (s : State) (ch : Nat) (rest : List Nat) : State :=
  let u := { s.dropLines ch with mapoutWaits := rest }.recall fun l => (s.dropLines ch).channelOf (128 * l) = ch
  (u.showSwitch (s.reg .channelsOut) ch (s.reg .stackTop - 0x80000000)).setChan ch { s.chan ch with mapout := none }

/-- What follows the switch: the map-out's record is settled, the node is degraded, and a copy that runs stops (R505). -/
def State.settledMap (s : State) (mapout : Option (Nat × Nat × Bool)) : State :=
  let u := match mapout with
    | some (seq, at', waited) => s.settleError seq 4 (if waited then 0 else s.now - at')
    | none => s
  ((u.degrade 2).stopCopy (some 3)).mapChanged

/-- The data of the top band is lost when `ALLOC_TOP` reaches into it (R317). -/
def State.cutAllocation (s : State) (ch top : Nat) : State :=
  if top < s.reg .allocTop then
    ((s.change .allocTop 0 top).wipe top 0x20000000000).dataLoss
      { code := 7, severity := 3, outcome := 6, unitKind := 3, unit := ch, addr := top }
  else s

theorem next_cutAllocation (s : State) (ch top : Nat) :
    (.next (s.cutAllocation ch top) : Res) = if top < s.reg .allocTop then
      .next (((s.change .allocTop 0 top).wipe top 0x20000000000).dataLoss
        { code := 7, severity := 3, outcome := 6, unitKind := 3, unit := ch, addr := top })
    else .next s :=
  apply_ite ..

theorem exec_channelMapoutSwitch {s : State} {ch : Nat} {rest : List Nat} (hwaits : s.mapoutWaits = ch :: rest)
    (hidle : s.migrating = none) (hfree : s.allocBlocks = false) :
    exec .channelMapoutSwitch s =
      .next (((s.switchedMap ch rest).settledMap (s.chan ch).mapout).cutAllocation ch (s.reg .stackTop - 0x80000000)) := by
  have hexec : exec .channelMapoutSwitch s = execChannelMapoutSwitch s := rfl
  rw [hexec, execChannelMapoutSwitch, hwaits]
  dsimp only
  rw [hidle, hfree, if_neg (by decide), next_cutAllocation]
  rfl

theorem showSwitch_facts (s : State) (order ch : Nat) {top : Nat} (htop : top < 2 ^ 64) :
    (s.showSwitch order ch top).mapoutWaits = s.mapoutWaits ∧ (s.showSwitch order ch top).chanState ch = 3 ∧
      (s.showSwitch order ch top).reg .stackTop = top ∧ (s.showSwitch order ch top).reg .migrationLeft = 1023 * 0x200000 ∧
      (s.showSwitch order ch top).reg .allocTop = s.reg .allocTop := by
  unfold State.showSwitch
  dsimp only
  refine ⟨?_, ?_, ?_, State.reg_setReg_same .., ?_⟩
  · show (State.change _ _ _ _).mapoutWaits = _
    rw [State.mapoutWaits_change, State.mapoutWaits_change, State.mapoutWaits_change]
    rfl
  · rw [State.chanState, State.reg_setReg_ne _ (by decide), change_reg _ _ _ _ _ (by decide), State.reg_change _ (by decide),
      if_pos ⟨rfl, rfl⟩]
    rfl
  · rw [State.reg_setReg_ne _ (by decide), State.reg_change _ (by decide), if_pos ⟨rfl, rfl⟩]
    exact Nat.mod_eq_of_lt htop
  · rw [State.reg_setReg_ne _ (by decide), change_reg _ _ _ _ _ (by decide), change_reg _ _ _ _ _ (by decide),
      change_reg _ _ _ _ _ (by decide), State.reg_setReg_ne _ (by decide)]

theorem switchedMap_facts (s : State) (ch : Nat) (rest : List Nat) (htop : s.reg .stackTop < 2 ^ 64) :
    (s.switchedMap ch rest).mapoutWaits = rest ∧ (s.switchedMap ch rest).chanState ch = 3 ∧
      (s.switchedMap ch rest).reg .stackTop = s.reg .stackTop - 0x80000000 ∧
      (s.switchedMap ch rest).reg .migrationLeft = 1023 * 0x200000 ∧
      (s.switchedMap ch rest).reg .allocTop = s.reg .allocTop := by
  unfold State.switchedMap
  dsimp only
  obtain ⟨u, hu⟩ : ∃ u : State, u = { s.dropLines ch with mapoutWaits := rest } := ⟨_, rfl⟩
  have hwaits : u.mapoutWaits = rest := hu ▸ rfl
  have halloc : u.reg .allocTop = s.reg .allocTop := hu ▸ rfl
  rw [← hu]
  generalize (fun l => decide ((s.dropLines ch).channelOf (128 * l) = ch)) = p
  obtain ⟨hkeptWaits, hstate, hstack, hleft, hkeptAlloc⟩ := showSwitch_facts (u.recall p) (s.reg .channelsOut) ch
    (Nat.lt_of_le_of_lt (Nat.sub_le _ 0x80000000) htop)
  exact ⟨hkeptWaits.trans hwaits, (setChan_reg ..).trans hstate, (setChan_reg ..).trans hstack, (setChan_reg ..).trans hleft,
    (setChan_reg ..).trans (hkeptAlloc.trans ((recall_reg _ _ _ (by decide) _).trans halloc))⟩

theorem settledMap_facts (s : State) (mapout : Option (Nat × Nat × Bool)) :
    (s.settledMap mapout).mapoutWaits = s.mapoutWaits ∧
      ∀ r ∈ [Reg.channelState, .stackTop, .migrationLeft, .allocTop], ∀ j, (s.settledMap mapout).reg r j = s.reg r j := by
  obtain ⟨u, hsettled, hwaits, hregs⟩ : ∃ u : State, s.settledMap mapout = ((u.degrade 2).stopCopy (some 3)).mapChanged ∧
      u.mapoutWaits = s.mapoutWaits ∧ u.regs = s.regs := by
    cases mapout with
    | none => exact ⟨s, rfl, rfl, rfl⟩
    | some m => exact ⟨_, rfl, rfl, rfl⟩
  have hreg : ∀ r j, u.reg r j = s.reg r j := fun r j => by rw [State.reg, State.reg, hregs]
  have htouch : ∀ r ∈ [Reg.channelState, .stackTop, .migrationLeft, .allocTop],
      touchMapChanged (some r) = false ∧ touchStopCopy (some r) = false ∧ touchDegrade (some r) = false := by decide
  refine ⟨?_, fun r hr j => ?_⟩
  · rw [hsettled, mapoutWaits_mapChanged, mapoutWaits_stopCopy, mapoutWaits_degrade, hwaits]
  · obtain ⟨hmap, hstop, hdegrade⟩ := htouch r hr
    rw [hsettled, mapChanged_reg _ _ hmap, stopCopy_reg _ _ _ hstop, degrade_reg _ _ _ hdegrade, hreg]

theorem cutAllocation_facts (s : State) (ch top : Nat) :
    (s.reg .allocTop ≤ top → s.cutAllocation ch top = s) ∧
      ∀ r ∈ [Reg.channelState, .stackTop, .migrationLeft], ∀ j, (s.cutAllocation ch top).reg r j = s.reg r j := by
  have htouch : ∀ r ∈ [Reg.channelState, .stackTop, .migrationLeft],
      touchDataLoss (some r) = false ∧ touchChange .allocTop (some r) = false := by decide
  refine ⟨fun hfits => if_neg (by omega), fun r hr j => ?_⟩
  obtain ⟨hloss, hchange⟩ := htouch r hr
  unfold State.cutAllocation
  split
  · rw [dataLoss_reg _ _ _ hloss, State.reg_wipe, change_reg _ _ _ _ _ hchange]
  · rfl

theorem channelMapoutSwitch_completes (s : State) (ch : Nat) (rest : List Nat) (hwaits : s.mapoutWaits = ch :: rest)
    (hidle : s.migrating = none) (hfree : s.allocBlocks = false) (htop : s.reg .stackTop < 2 ^ 64) :
    Completes .channelMapoutSwitch s fun t =>
      (s.reg .allocTop ≤ s.reg .stackTop - 0x80000000 → t.mapoutWaits = rest) ∧ t.chanState ch = 3 ∧
        t.reg .stackTop = s.reg .stackTop - 0x80000000 ∧ t.reg .migrationLeft = 1023 * 0x200000 := by
  obtain ⟨hrest, hstate, hstack, hleft, halloc⟩ := switchedMap_facts s ch rest htop
  obtain ⟨hsettledWaits, hsettled⟩ := settledMap_facts (s.switchedMap ch rest) (s.chan ch).mapout
  obtain ⟨hfits, hcut⟩ := cutAllocation_facts ((s.switchedMap ch rest).settledMap (s.chan ch).mapout) ch
    (s.reg .stackTop - 0x80000000)
  refine ⟨_, exec_channelMapoutSwitch hwaits hidle hfree, fun hunder => ?_, ?_, ?_, ?_⟩
  · rw [hfits (by rw [hsettled _ (by decide), halloc]; exact hunder), hsettledWaits, hrest]
  · exact (hcut .channelState (by decide) ch).trans ((hsettled .channelState (by decide) ch).trans hstate)
  · exact (hcut .stackTop (by decide) 0).trans ((hsettled .stackTop (by decide) 0).trans hstack)
  · exact (hcut .migrationLeft (by decide) 0).trans ((hsettled .migrationLeft (by decide) 0).trans hleft)

theorem migrationComplete_completes (s : State) (ch : Nat) (hA : s.slotA.state ≠ 1) (hB : s.slotB.state ≠ 1)
    (hmigrates : s.migrating = some ch) :
    Completes .migrationComplete s fun t => t.chanState ch = 4 ∧ t.reg .migrationLeft = 0 := by
  obtain ⟨u, hexec⟩ : ∃ u : State, exec .migrationComplete s =
      .next (((u.change .channelState ch csMappedOut).setReg .migrationLeft 0 0).noteBlocked) := by
    have hexec : exec .migrationComplete s = execMigrationComplete s := rfl
    rw [execMigrationComplete, if_neg (by simp [hA, hB]), hmigrates] at hexec
    exact ⟨_, hexec⟩
  refine ⟨_, hexec, ?_, ?_⟩
  · rw [State.chanState, noteBlocked_reg _ _ (by decide), State.reg_setReg_ne _ (by decide), State.reg_change _ (by decide),
      if_pos ⟨rfl, rfl⟩]
    rfl
  · rw [noteBlocked_reg _ _ (by decide), State.reg_setReg_same]
    rfl

/-! `ALLOC_TOP` and `MAPOUT_FORCE`. -/

theorem allocTopWrite_completes (s : State) (q : Requester) (v : Dword)
    (haccepts : Accepts s q .allocTop 0 (leBytes 8 v.toNat)) :
    Completes (.allocTopWrite q v) s fun t => Answered q (Reg.allocTop.objAt 0) t ∧ t.reg .allocTop = v.toNat := by
  obtain ⟨u, hu, hexec⟩ := exists_accepted (.allocTopWrite q v) haccepts rfl rfl (by decide)
  refine ⟨_, hexec, answered_answer .., (reg_answer ..).trans ?_⟩
  have hwritten : u.reg .allocTop = v.toNat % 2 ^ 64 := by
    have htake : (leBytes 8 v.toNat).take (Reg.info .allocTop).esize = leBytes 8 v.toNat := rfl
    rw [hu, State.reg_accepted_same s q 0 _ rfl, htake, ofLe_leBytes]
    exact Nat.mod_mod_of_dvd v.toNat (dvd_refl (2 ^ 64))
  exact (noteBlocked_reg _ _ (by decide) _).trans (hwritten.trans (Nat.mod_eq_of_lt v.isLt))

theorem mapoutForceWrite_completes (s : State) (q : Requester) (v : Byte) (haccepts : Accepts s q .mapoutForce 0 [v]) :
    Completes (.mapoutForceWrite q v) s fun t => Answered q (Reg.mapoutForce.objAt 0) t ∧ t.reg .mapoutForce = v.toNat := by
  obtain ⟨u, hu, hexec⟩ := exists_accepted (.mapoutForceWrite q v) haccepts rfl rfl (by decide)
  refine ⟨_, hexec, answered_answer .., ?_⟩
  have hwritten : u.reg .mapoutForce = v.toNat := by
    have htake : ([v] : List Byte).take (Reg.info .mapoutForce).esize = [v] := rfl
    rw [hu, State.reg_accepted_same s q 0 [v] rfl, htake, ofLe_byte]
    exact Nat.mod_eq_of_lt v.isLt
  exact ((reg_answer ..).trans (noteBlocked_reg _ _ (by decide) _)).trans hwritten

end Sys2Proof.Machine
end

section
/-! Requests to a channel, and reads and writes at a slice (R307, R308, R332 to R336, R340 to R343). -/

namespace Sys2Proof.Machine

/-! Requests to a channel (R307, R308). -/

theorem written_writeAtoms (s : State) (a : Nat) (bs : List Byte) : Written s (s.writeAtoms a bs) := by
  unfold State.writeAtoms
  exact (Written.putBytes s ((Written.refl s).beforeWrite s)).trans ⟨_, _, _, _, _, _, _, _, _, _, _, _, rfl⟩

theorem written_accept (s : State) (r : ChanReq) : Written s (s.accept r) := by
  have hatoms : ∀ a bs, Written s (if List.isEmpty bs then s else s.writeAtoms a bs) := fun a bs =>
    Written.ite s (Written.refl s) (written_writeAtoms s a bs)
  cases r with
  | write a bs => exact hatoms a bs
  | narrow n =>
    unfold State.accept
    dsimp only
    cases n.data with
    | none => exact Written.refl s
    | some bs => exact hatoms n.addr bs
  | read a f => exact Written.refl s
  | fill l => exact Written.refl s

theorem accept_of_read {n : Narrow} (hread : n.data = none) (s : State) : s.accept (.narrow n) = s := by
  unfold State.accept
  dsimp only
  rw [hread]

theorem toChannel_waits {s : State} {ch : Nat} (hretrains : s.retraining ch = true) (r : ChanReq) :
    s.toChannel ch r = s.queueChan ch r := if_pos hretrains

theorem toChannel_served {s : State} {ch : Nat} (hidle : s.retraining ch = false) (r : ChanReq) :
    s.toChannel ch r = (s.accept r).serveChan r := if_neg (by simp [hidle])

theorem mem_fills_serveChan (s : State) (line : Nat) : line ∈ (s.serveChan (.fill line)).fills := by
  unfold State.serveChan
  dsimp only
  split
  · next hasked => exact List.contains_iff_mem.mp hasked
  · exact List.mem_append_right _ List.mem_cons_self

theorem toChannel_narrow_mem {n : Narrow} (hread : n.data = none) (s : State) (ch : Nat) :
    (s.toChannel ch (.narrow n)).mem = s.mem := by
  have haccept := accept_of_read hread s
  cases hidle : s.retraining ch with
  | true =>
    rw [toChannel_waits hidle, State.queueChan, haccept]
    split
    · rfl
    · rfl
  | false =>
    rw [toChannel_served hidle, haccept]
    rfl

theorem toChannel_facts (s : State) (ch : Nat) (r : ChanReq) :
    (s.retraining ch = true → (s.chanQueue.filter fun e => decide (e.1 = ch)).length < 256 →
        s.toChannel ch r = { s.accept r with chanQueue := s.chanQueue ++ [(ch, r)] }) ∧
      (s.retraining ch = true → 256 ≤ (s.chanQueue.filter fun e => decide (e.1 = ch)).length →
        s.toChannel ch r = { s with chanStalled := s.chanStalled ++ [(ch, r)] }) ∧
      (∀ line, s.retraining ch = false → r = .fill line → line ∈ (s.toChannel ch r).fills) ∧
      (∀ (x : Narrow), s.retraining ch = false → r = .narrow x →
        (s.toChannel ch r).narrow = s.narrow ++ [x] ∧ ((∀ bs, x.data ≠ some bs) → MemKept s (s.toChannel ch r))) := by
  refine ⟨fun hretrains hroom => ?_, fun hretrains hfull => ?_, ?_, ?_⟩
  · rw [toChannel_waits hretrains, State.queueChan, if_neg (by omega)]
  · rw [toChannel_waits hretrains, State.queueChan, if_pos hfull]
  · rintro line hidle rfl
    rw [toChannel_served hidle]
    exact mem_fills_serveChan ..
  · rintro x hidle rfl
    refine ⟨?_, fun hread a => State.byte_congr (toChannel_narrow_mem (Option.eq_none_iff_forall_ne_some.mpr hread) s ch) a⟩
    obtain ⟨_, _, _, _, _, _, _, _, _, _, _, _, hwritten⟩ := written_accept s (.narrow x)
    rw [toChannel_served hidle, hwritten]
    rfl

/-! The narrow path (R340, R342). -/

theorem takeNarrow_facts (s : State) (x : Narrow) :
    (s.takeNarrow x).reg .narrowRequests = (s.reg .narrowRequests + 1) % Reg.modulus .narrowRequests ∧
      (x.data = none → MemKept s (s.takeNarrow x)) := by
  obtain ⟨u, ch, htaken, hregs, hmem⟩ : ∃ (u : State) (ch : Nat), s.takeNarrow x = u.toChannel ch (.narrow x) ∧
      u.regs = (s.addReg .narrowRequests 0 1).regs ∧ u.mem = s.mem := by
    refine ⟨_, _, rfl, ?_, ?_⟩
    · split
      · rfl
      · rfl
    · split
      · rfl
      · rfl
  constructor
  · rw [htaken, toChannel_reg _ _ _ _ (by decide), State.reg, hregs]
    exact State.reg_setReg_same ..
  · exact fun hread a => State.byte_congr ((htaken ▸ toChannel_narrow_mem hread u ch).trans hmem) a

theorem offerNarrow_facts (s : State) (x : Narrow) :
    (s.narrowAt x.stack < 4096 →
        (s.offerNarrow x).reg .narrowRequests = (s.reg .narrowRequests + 1) % Reg.modulus .narrowRequests ∧
          (x.data = none → MemKept s (s.offerNarrow x))) ∧
      (4096 ≤ s.narrowAt x.stack →
        (s.offerNarrow x).narrowHeld = s.narrowHeld ++ [x] ∧
          (s.offerNarrow x).reg .narrowFullStalls = (s.reg .narrowFullStalls + 1) % Reg.modulus .narrowFullStalls ∧
          MemKept s (s.offerNarrow x)) := by
  refine ⟨fun hroom => ?_, fun hfull => ?_⟩
  · rw [State.offerNarrow, if_neg (by omega)]
    exact takeNarrow_facts s x
  · rw [State.offerNarrow, if_pos hfull]
    exact ⟨rfl, State.reg_setReg_same .., fun a => rfl⟩

end Sys2Proof.Machine
end

section
/-! Reads and writes at a slice, line fills and the narrow path (R332 to R336, R340 to R343). -/

namespace Sys2Proof.Machine

/-! Reads (R332 to R334). -/

theorem llmOf_setLlm (s : State) (l v : Nat) : (s.setLlm l v).llmOf l = v := by
  unfold State.setLlm State.llmOf Store.put Store.at
  rw [Store.get_set, if_pos rfl]

theorem llmOf_evicted (s : State) (l : Nat) : (s.evicted l).llmOf l = 0 := llmOf_setLlm s l 0

theorem exec_stackRead_waits {s : State} {a : BitVec 42} {eligible : Bool} {queue : Nat} {x : SliceAccess} {stack : EccFinding}
    (hreads : s.readable a.toNat = true) (htests : s.sliceTests (s.sliceUnit a.toNat) = true) :
    exec (.stackRead a eligible queue x stack) s = .next (s.holdSlice a.toNat (.read a.toNat eligible queue x stack)) := by
  have hexec : exec (.stackRead a eligible queue x stack) s = execStackRead a eligible queue x stack s := rfl
  rw [hexec, execStackRead, hreads, htests]
  rfl

theorem exec_stackRead_served {s : State} {a : BitVec 42} {eligible : Bool} {queue : Nat} {x : SliceAccess} {stack : EccFinding}
    (hreads : s.readable a.toNat = true) (htests : s.sliceTests (s.sliceUnit a.toNat) = false) :
    exec (.stackRead a eligible queue x stack) s = .next (s.meetRead a.toNat eligible queue x stack) := by
  have hexec : exec (.stackRead a eligible queue x stack) s = execStackRead a eligible queue x stack s := rfl
  rw [hexec, execStackRead, hreads, htests]
  rfl

theorem meetRead_scratchpad {s : State} {a : Nat} (ha : 0x20000000000 ≤ a) (eligible : Bool) (queue : Nat) (x : SliceAccess)
    (stack : EccFinding) :
    s.meetRead a eligible queue x stack = (s.addReg .llmHits (s.homeDie a) 1).sliceFinding a x.word x.persistent := if_pos ha

/-- A read of stack memory, by whether it bypasses the LLM and whether its line is present there. -/
theorem meetRead_stack {s : State} {a : Nat} (ha : a < 0x20000000000) {eligible : Bool} {queue : Nat} {x : SliceAccess}
    (stack : EccFinding) {bypass present : Bool} (hpresent : present = (x.present && !s.passes a))
    (hbypass : bypass = (eligible && decide (s.reg .bypassThreshold < queue) &&
      !(present && decide (s.llmOf (a / 128) = 2)))) :
    s.meetRead a eligible queue x stack =
      if bypass then (s.addReg .llmBypassed (s.homeDie a) 1).toChannel (s.placeOf a).1 (.read a stack)
      else if present then ((s.addReg .llmHits (s.homeDie a) 1).holdLine (a / 128)).sliceFinding a x.word x.persistent
      else if ((s.addReg .llmMisses (s.homeDie a) 1).evicted (a / 128)).passes a then
        ((s.addReg .llmMisses (s.homeDie a) 1).evicted (a / 128)).toChannel (s.placeOf a).1 (.read a stack)
      else ((s.addReg .llmMisses (s.homeDie a) 1).evicted (a / 128)).askFill (a / 128) := by
  subst hpresent hbypass
  rw [State.meetRead, if_neg (by omega)]

theorem stackRead_completes (s : State) (a : BitVec 42) (eligible : Bool) (queue : Nat) (x : SliceAccess) (stack : EccFinding)
    (hreads : s.readable a.toNat = true) :
    Completes (.stackRead a eligible queue x stack) s fun t =>
      (s.sliceTests (s.sliceUnit a.toNat) = true → t = s.holdSlice a.toNat (.read a.toNat eligible queue x stack)) ∧
      (s.sliceTests (s.sliceUnit a.toNat) = false → ∀ bypass present : Bool, present = (x.present && !s.passes a.toNat) →
        bypass = (eligible && decide (s.reg .bypassThreshold < queue) &&
          !(present && decide (s.llmOf (a.toNat / 128) = 2))) →
        (0x20000000000 ≤ a.toNat →
          t = (s.addReg .llmHits (s.homeDie a.toNat) 1).sliceFinding a.toNat x.word x.persistent) ∧
        (a.toNat < 0x20000000000 → bypass = true →
          t = (s.addReg .llmBypassed (s.homeDie a.toNat) 1).toChannel (s.placeOf a.toNat).1 (.read a.toNat stack)) ∧
        (a.toNat < 0x20000000000 → bypass = false → present = true →
          t = ((s.addReg .llmHits (s.homeDie a.toNat) 1).holdLine (a.toNat / 128)).sliceFinding a.toNat x.word
            x.persistent) ∧
        (a.toNat < 0x20000000000 → bypass = false → present = false →
          ∃ u : State, u = (s.addReg .llmMisses (s.homeDie a.toNat) 1).evicted (a.toNat / 128) ∧ u.llmOf (a.toNat / 128) = 0 ∧
            t = if u.passes a.toNat then u.toChannel (s.placeOf a.toNat).1 (.read a.toNat stack)
              else u.askFill (a.toNat / 128))) := by
  cases htests : s.sliceTests (s.sliceUnit a.toNat) with
  | true => exact ⟨_, exec_stackRead_waits hreads htests, fun _ => rfl, nofun⟩
  | false =>
    refine ⟨_, exec_stackRead_served hreads htests, nofun, fun _ bypass present hpresent hbypass => ?_⟩
    have hstack := fun ha => meetRead_stack (s := s) (a := a.toNat) ha stack hpresent hbypass
    refine ⟨fun ha => meetRead_scratchpad ha .., fun ha hby => ?_, fun ha hby hin => ?_, fun ha hby hin => ?_⟩
    · rw [hstack ha, hby]
      rfl
    · rw [hstack ha, hby, hin]
      rfl
    · refine ⟨_, rfl, llmOf_evicted .., ?_⟩
      rw [hstack ha, hby, hin]
      rfl

/-! Writes (R333, R338) and line fills. -/

theorem exec_stackWrite {s : State} {a : BitVec 42} {data : List Byte} {x : SliceAccess} (hdata : data ≠ [])
    (hline : a.toNat % 128 + data.length ≤ 128) (hreach : s.reaches a.toNat (a.toNat + data.length) = true)
    (hhost : s.hostLines.contains (a.toNat / 128) = false)
    (hwaiting : (s.waiting.any fun w => decide (w.1 / 128 = a.toNat / 128)) = false) :
    exec (.stackWrite a data x) s = .next (s.applyWrite a.toNat data x) := by
  have hexec : exec (.stackWrite a data x) s = execStackWrite a data x s := rfl
  have hlength : data.length ≠ 0 := fun h => hdata (List.length_eq_zero_iff.mp h)
  rw [hexec, execStackWrite]
  dsimp only
  rw [if_neg (by simp [hlength, hreach]; omega), hhost, hwaiting]
  rfl

theorem putSlice_scratchpad {a : Nat} (ha : 0x20000000000 ≤ a) (s : State) (data : List Byte) :
    s.putSlice a data = s.write a data := if_neg (by simp; omega)

theorem putSlice_passes {s : State} {a : Nat} (ha : a < 0x20000000000) (hpasses : s.passes a = true) (data : List Byte) :
    s.putSlice a data = s.writeStack a data := if_pos (by simp [ha, hpasses])

/-- What the ECC of a slice finds in a write of `n` bytes: nothing in whole words. -/
theorem partialFinding_eq {a n : Nat} {x : SliceAccess} {f : WordFinding}
    (hf : f = if a % 16 = 0 ∧ n % 16 = 0 then .clean else x.word) :
    (if decide (a % 16 ≠ 0) || decide (n % 16 ≠ 0) then x.word else .clean) = f := by
  by_cases hwhole : a % 16 = 0 ∧ n % 16 = 0
  · rw [hf, if_pos hwhole, if_neg (by simp [hwhole])]
  · rw [hf, if_neg hwhole, if_pos (by simp; omega)]

theorem meetWrite_scratchpad {s : State} {a n : Nat} {x : SliceAccess} {f : WordFinding}
    (hf : f = if a % 16 = 0 ∧ n % 16 = 0 then .clean else x.word) (ha : 0x20000000000 ≤ a) :
    s.meetWrite a n x = (s.addReg .llmHits (s.homeDie a) 1).sliceFinding a f x.persistent := by
  rw [← partialFinding_eq hf]
  exact if_pos ha

theorem meetWrite_passes {s : State} {a n : Nat} {x : SliceAccess} (ha : a < 0x20000000000) (hpasses : s.passes a = true) :
    s.meetWrite a n x = s.addReg .llmMisses (s.homeDie a) 1 := by
  rw [State.meetWrite, if_neg (by omega), if_pos hpasses]

theorem meetWrite_present {s : State} {a n : Nat} {x : SliceAccess} {f : WordFinding}
    (hf : f = if a % 16 = 0 ∧ n % 16 = 0 then .clean else x.word) (ha : a < 0x20000000000) (hpasses : s.passes a = false)
    (hpresent : x.present = true) :
    s.meetWrite a n x = ((s.addReg .llmHits (s.homeDie a) 1).holdLine (a / 128)).sliceFinding a f x.persistent := by
  rw [State.meetWrite, if_neg (by omega), if_neg (by simp [hpasses]), if_pos hpresent, ← partialFinding_eq hf]

theorem meetWrite_absent {s : State} {a n : Nat} {x : SliceAccess} (ha : a < 0x20000000000) (hpasses : s.passes a = false)
    (hpresent : x.present = false) :
    s.meetWrite a n x = if n = 128 then ((s.addReg .llmMisses (s.homeDie a) 1).evicted (a / 128)).setLlm (a / 128) 2
      else (((s.addReg .llmMisses (s.homeDie a) 1).evicted (a / 128)).setLlm (a / 128) 2).askFill (a / 128) := by
  rw [State.meetWrite, if_neg (by omega), if_neg (by simp [hpasses]), if_neg (by simp [hpresent])]

theorem passes_addReg_llmMisses (s : State) (d n a : Nat) : (s.addReg .llmMisses d n).passes a = s.passes a := by
  have hreg : ∀ r, Reg.llmMisses ≠ r → ∀ j, (s.addReg .llmMisses d n).reg r j = s.reg r j := fun r hr j =>
    State.reg_setReg_ne _ hr ..
  unfold State.passes State.sliceUnit State.homeDie State.channelOf State.mapouts
  simp only [hreg .sliceState (by decide), hreg .sliceMap (by decide), hreg .mapoutOrder (by decide)]

theorem stackWrite_completes (s : State) (a : BitVec 42) (data : List Byte) (x : SliceAccess) (hdata : data ≠ [])
    (hline : a.toNat % 128 + data.length ≤ 128) (hreach : s.reaches a.toNat (a.toNat + data.length) = true)
    (hhost : s.hostLines.contains (a.toNat / 128) = false)
    (hwaiting : (s.waiting.any fun w => decide (w.1 / 128 = a.toNat / 128)) = false) :
    Completes (.stackWrite a data x) s fun t =>
      (s.sliceTests (s.sliceUnit a.toNat) = true →
        t = (s.holdSlice a.toNat (.write a.toNat data.length x)).putSlice a.toNat data) ∧
      (s.sliceTests (s.sliceUnit a.toNat) = false →
        ∀ f : WordFinding, f = (if a.toNat % 16 = 0 ∧ data.length % 16 = 0 then .clean else x.word) →
        (0x20000000000 ≤ a.toNat →
          t = ((s.addReg .llmHits (s.homeDie a.toNat) 1).sliceFinding a.toNat f x.persistent).write a.toNat data) ∧
        (a.toNat < 0x20000000000 → s.passes a.toNat = true →
          t = (s.addReg .llmMisses (s.homeDie a.toNat) 1).writeStack a.toNat data) ∧
        (a.toNat < 0x20000000000 → s.passes a.toNat = false → x.present = true →
          t = (((s.addReg .llmHits (s.homeDie a.toNat) 1).holdLine (a.toNat / 128)).sliceFinding a.toNat f
            x.persistent).putSlice a.toNat data) ∧
        (a.toNat < 0x20000000000 → s.passes a.toNat = false → x.present = false → ∃ u : State,
          u = ((s.addReg .llmMisses (s.homeDie a.toNat) 1).evicted (a.toNat / 128)).setLlm (a.toNat / 128) 2 ∧
            t = (if data.length = 128 then u else u.askFill (a.toNat / 128)).putSlice a.toNat data)) := by
  refine ⟨_, exec_stackWrite hdata hline hreach hhost hwaiting, fun htests => if_pos htests, fun htests f hf => ?_⟩
  have hserved : s.applyWrite a.toNat data x = (s.meetWrite a.toNat data.length x).putSlice a.toNat data :=
    if_neg (by simp [htests])
  refine ⟨fun ha => ?_, fun ha hpasses => ?_, fun ha hpasses hpresent => ?_, fun ha hpasses hpresent => ⟨_, rfl, ?_⟩⟩
  · rw [hserved, meetWrite_scratchpad hf ha, putSlice_scratchpad ha]
  · rw [hserved, meetWrite_passes ha hpasses, putSlice_passes ha ((passes_addReg_llmMisses ..).trans hpasses)]
  · rw [hserved, meetWrite_present hf ha hpasses hpresent]
  · rw [hserved, meetWrite_absent ha hpasses hpresent]

theorem llmFillComplete_completes (s : State) (line : Fin 17179869184) (finding : EccFinding)
    (hasked : s.fills.contains line.val = true) (hidle : s.retraining (s.placeOf (128 * line.val)).1 = false) :
    Completes (.llmFillComplete line finding) s fun t =>
      t = ((({ s with fills := s.fills.erase line.val } : State).holdLine line.val).stackFinding (128 * line.val)
        finding).mergeLine line.val := by
  have hexec : exec (.llmFillComplete line finding) s = execLlmFillComplete line finding s := rfl
  rw [execLlmFillComplete, hasked, hidle] at hexec
  exact ⟨_, hexec, rfl⟩

/-! The narrow path (R335, R336, R340, R341). -/

theorem exec_narrowRequest {s : State} {a : BitVec 42} {log : Fin 4} {data : Option Dword} {x : SliceAccess}
    (haligned : a.toNat % 2 ^ log.val = 0) (hreach : s.reaches a.toNat (a.toNat + 2 ^ log.val) = true)
    (htests : s.sliceTests (s.sliceUnit a.toNat) = false) :
    exec (.narrowRequest a log data x) s =
      .next (s.meetNarrow a.toNat (2 ^ log.val) (data.map fun v => leBytes (2 ^ log.val) v.toNat) x) := by
  have hexec : exec (.narrowRequest a log data x) s = execNarrowRequest a log data x s := rfl
  rw [hexec, execNarrowRequest]
  dsimp only
  rw [if_neg (by simp [haligned, hreach]), htests]
  rfl

/-- A narrow request that its home slice serves. -/
theorem meetNarrow_here {s : State} {a n : Nat} {x : SliceAccess} (hn : 0 < n) (data : Option Dword)
    (hhere : 0x20000000000 ≤ a ∨ (x.present = true ∧ s.passes a = false)) :
    ∃ u : State, u = (if 0x20000000000 ≤ a then s.addReg .narrowRequests 0 1
        else (s.addReg .narrowRequests 0 1).holdLine (a / 128)).sliceFinding a x.word x.persistent ∧
      (data = none → s.meetNarrow a n (data.map fun v => leBytes n v.toNat) x = u) ∧
      ∀ v, data = some v → s.meetNarrow a n (data.map fun v => leBytes n v.toNat) x = u.write a (leBytes n v.toNat) := by
  have hserved : (decide (0x20000000000 ≤ a) || (x.present && !s.passes a)) = true := by simpa using hhere
  refine ⟨_, rfl, ?_, ?_⟩
  · rintro rfl
    exact if_pos hserved
  · rintro v rfl
    have hbytes : (leBytes n v.toNat).isEmpty = false := by
      rw [List.isEmpty_eq_false_iff, ← List.length_pos_iff, leBytes_length]
      exact hn
    rw [State.meetNarrow, if_pos hserved]
    dsimp only [Option.map]
    rw [hbytes]
    rfl

theorem narrowRequest_completes (s : State) (a : BitVec 42) (log : Fin 4) (data : Option Dword) (x : SliceAccess)
    (haligned : a.toNat % 2 ^ log.val = 0) (hreach : s.reaches a.toNat (a.toNat + 2 ^ log.val) = true)
    (htests : s.sliceTests (s.sliceUnit a.toNat) = false) :
    Completes (.narrowRequest a log data x) s fun t =>
      (0x20000000000 ≤ a.toNat ∨ (x.present = true ∧ s.passes a.toNat = false) → ∃ u : State,
          u = (if 0x20000000000 ≤ a.toNat then s.addReg .narrowRequests 0 1
            else (s.addReg .narrowRequests 0 1).holdLine (a.toNat / 128)).sliceFinding a.toNat x.word x.persistent ∧
          (data = none → t = u) ∧ ∀ v, data = some v → t = u.write a.toNat (leBytes (2 ^ log.val) v.toNat)) ∧
        (a.toNat < 0x20000000000 → x.present = false ∨ s.passes a.toNat = true →
          t = (s.evicted (a.toNat / 128)).offerNarrow ⟨s.narrowStack a.toNat, a.toNat, 2 ^ log.val,
            data.map fun v => leBytes (2 ^ log.val) v.toNat⟩) := by
  refine ⟨_, exec_narrowRequest haligned hreach htests, meetNarrow_here (Nat.two_pow_pos _) data, fun ha haway => if_neg ?_⟩
  rcases haway with habsent | hpasses
  · simp [habsent, ha]
  · simp [hpasses, ha]

theorem narrowRequest_waits (s : State) (a : BitVec 42) (log : Fin 4) (data : Option Dword) (x : SliceAccess)
    (haligned : a.toNat % 2 ^ log.val = 0) (hreach : s.reaches a.toNat (a.toNat + 2 ^ log.val) = true)
    (htests : s.sliceTests (s.sliceUnit a.toNat) = true) :
    Completes (.narrowRequest a log data x) s fun t =>
      ∃ u : State, u = s.holdSlice a.toNat (.narrow a.toNat (2 ^ log.val) data.isSome x) ∧ (data = none → t = u) ∧
        ∀ v, data = some v → t = u.putSlice a.toNat (leBytes (2 ^ log.val) v.toNat) := by
  have hexec : exec (.narrowRequest a log data x) s = execNarrowRequest a log data x s := rfl
  rw [execNarrowRequest] at hexec
  dsimp only at hexec
  rw [if_neg (by simp [haligned, hreach]), htests, if_pos rfl] at hexec
  cases data with
  | none => exact ⟨_, hexec, _, rfl, fun _ => rfl, nofun⟩
  | some w => exact ⟨_, hexec, _, rfl, nofun, fun v hv => by rw [Option.some.inj hv]⟩

theorem coalescingWaitExpiry_completes (s : State) (st : Fin 32) (findings : List EccFinding) (r : Narrow)
    (holdest : (s.narrow.find? fun r => decide (r.stack = st.val)) = some r) :
    Completes (.coalescingWaitExpiry st findings) s fun t =>
      ∃ (go stay : List Narrow) (atoms : List Nat) (u v : State),
        (go, stay) = s.splitRow st.val (s.rowOf r.addr) 256 s.narrow ∧
          atoms = (go.map fun x => x.addr / 64).eraseDups ∧
          u = (atoms.zip findings).foldl (fun (u : State) e => u.stackFinding (64 * e.1) (match e.2 with
              | .uncorrectable _ => .uncorrectable (Fin.ofNat 2 e.1)
              | f => f))
            { (s.addReg .narrowAtoms 0 (atoms.length + (atoms.filter fun p => go.any fun x =>
                decide (x.addr / 64 = p) && x.data.isSome).length)).addReg .narrowCoalesced 0
                  (go.length - atoms.length) with
              narrow := stay } ∧
          v = (go.filter fun x => x.data.isSome).foldl (fun (v : State) x =>
            if v.fills.contains (x.addr / 128) then v else v.mergeLine (x.addr / 128)) u ∧
          t = (List.range go.length).foldl (fun (w : State) _ => w.admitNarrow st.val) v := by
  have hexec : exec (.coalescingWaitExpiry st findings) s = execCoalescingWaitExpiry st findings s := rfl
  rw [execCoalescingWaitExpiry, holdest] at hexec
  exact ⟨_, hexec, _, _, _, _, _, Prod.mk.eta, rfl, rfl, rfl, rfl⟩

end Sys2Proof.Machine
end

section
/-! The scrub of a stack's rows, the tests and sparing of slices, permanent repairs, and what every command of the stacks completes with
(R323, R324, R329, R336, R337, R491). -/

namespace Sys2Proof.Machine

/-! Scrub (R329, R491). -/

/-- The state in which the scrubber has read a line of a row. -/
def State.scrubbed (s : State) (st : Nat) (e : StackElement) (col : Nat) (place : ScrubPlace) (finding : EccFinding) : State :=
  let row := s.scrubRow st e place
  match finding with
  | .clean => s
  | .corrected => s.correctedRead row.1 row.2 (match place with
      | .memory a => a.toNat
      | _ => 0)
  | .uncorrectable atom =>
    match place with
    | .memory a => s.stackFinding a.toNat finding
    | _ =>
      let m : SpareMark := ⟨st, row.2 / 32, 2 * col + atom.val, place⟩
      if s.spareMarks.contains m then s.spoil place else (s.markSpare m row.1).spoil place

/-- The pass over a stack ends: it is counted, and the corrections of its rows are forgotten. -/
def State.endScrub (s : State) (st : Nat) : State :=
  (List.range 32).foldl (fun (u : State) k => u.setChan (st * 32 + k) { u.chan (st * 32 + k) with rows := [] })
    (s.addReg .scrubPasses st 1)

theorem exec_scrubLine (st : Fin 32) (e : StackElement) (col : Fin 8) (place : ScrubPlace) (finding : EccFinding) (last : Bool)
    (s : State) :
    exec (.scrubLine st e col place finding last) s =
      .next (if last then (s.scrubbed st.val e col.val place finding).endScrub st.val
        else s.scrubbed st.val e col.val place finding) :=
  (apply_ite ..).symm

theorem rows_foldl_clearRows (ks : List Nat) (base c : Nat) (s : State) (hrows : (∃ k ∈ ks, c = base + k) ∨ (s.chan c).rows = []) :
    ((ks.foldl (fun (u : State) k => u.setChan (base + k) { u.chan (base + k) with rows := [] }) s).chan c).rows = [] := by
  induction ks generalizing s with
  | nil => simpa using hrows
  | cons k ks ih =>
    refine ih _ ?_
    rw [chan_setChan]
    rcases hrows with ⟨j, hj, hc⟩ | hempty
    · rcases List.mem_cons.mp hj with rfl | hlater
      · exact .inr (by rw [if_pos hc.symm])
      · exact .inl ⟨j, hlater, hc⟩
    · refine .inr ?_
      split
      · rfl
      · exact hempty

theorem endScrub_facts (s : State) (st : Nat) :
    (s.endScrub st).reg .scrubPasses st = (s.reg .scrubPasses st + 1) % Reg.modulus .scrubPasses ∧
      ∀ k, k < 32 → ((s.endScrub st).chan (st * 32 + k)).rows = [] := by
  refine ⟨?_, fun k hk => rows_foldl_clearRows _ _ _ _ (.inl ⟨k, List.mem_range.mpr hk, rfl⟩)⟩
  exact (State.reg_foldl (fun v x => setChan_reg ..) _ _).trans (State.reg_setReg_same ..)

theorem spareMarks_testChannel (s : State) (ch code : Nat) : (s.testChannel ch code).spareMarks = s.spareMarks := by
  unfold State.testChannel
  split
  · exact State.spareMarks_change ..
  · rfl

theorem markSpare_facts (s : State) (m : SpareMark) (ch : Nat) :
    m ∈ (s.markSpare m ch).spareMarks ∧ Records s (s.markSpare m ch) 7 1 6 3 ch := by
  obtain ⟨u, hu⟩ : ∃ u : State, u = { s with spareMarks := m :: s.spareMarks }.addReg .eccUncorrCnt m.stack 1 := ⟨_, rfl⟩
  have hup : u.supervisorUp = s.supervisorUp := hu ▸ supUp_addReg _ _ _ _ (by decide) (by decide)
  have hhead : u.reg .errorHead = s.reg .errorHead := hu ▸ State.reg_setReg_ne _ (by decide) ..
  unfold State.markSpare
  rw [← hu]
  refine ⟨?_, records_log (errorLog_testChannel ..) (records_of hup hhead)⟩
  rw [spareMarks_testChannel, State.spareMarks_logError, hu]
  exact List.mem_cons_self

/-- An uncorrectable line of a reserve row: its atom is marked, where it is not yet. -/
theorem scrubbed_reserve (s : State) (st : Nat) (e : StackElement) (col : Nat) (atom : Fin 2) :
    s.scrubbed st e col .reserve (.uncorrectable atom) =
      if s.spareMarks.contains ⟨st, elementBits32 e / 32, 2 * col + atom.val, .reserve⟩ then s
      else s.markSpare ⟨st, elementBits32 e / 32, 2 * col + atom.val, .reserve⟩ (st * 32 + e.channel.val) := rfl

theorem scrubLine_completes (s : State) (st : Fin 32) (e : StackElement) (col : Fin 8) (place : ScrubPlace)
    (finding : EccFinding) (last : Bool) :
    Completes (.scrubLine st e col place finding last) s fun t =>
      (finding = .clean → last = false → t = s) ∧
        (finding = .clean → last = true →
          t.reg .scrubPasses st = (s.reg .scrubPasses st + 1) % Reg.modulus .scrubPasses ∧
          ∀ k, k < 32 → (t.chan (st.val * 32 + k)).rows = []) ∧
        (∀ atom, finding = .uncorrectable atom → place = .reserve → last = false →
          ⟨st.val, elementBits32 e / 32, 2 * col.val + atom.val, .reserve⟩ ∉ s.spareMarks →
          ⟨st.val, elementBits32 e / 32, 2 * col.val + atom.val, .reserve⟩ ∈ t.spareMarks ∧
            Records s t 7 1 6 3 (st.val * 32 + e.channel.val)) ∧
        (∀ atom, finding = .uncorrectable atom → place = .reserve → last = false →
          ⟨st.val, elementBits32 e / 32, 2 * col.val + atom.val, .reserve⟩ ∈ s.spareMarks → t = s) := by
  refine ⟨_, exec_scrubLine .., ?_, ?_, ?_, ?_⟩
  · rintro rfl rfl
    rfl
  · rintro rfl rfl
    exact endScrub_facts s st.val
  · rintro atom rfl rfl rfl hnew
    rw [if_neg (by decide), scrubbed_reserve, if_neg (by simpa using hnew)]
    exact markSpare_facts ..
  · rintro atom rfl rfl rfl hold
    rw [if_neg (by decide), scrubbed_reserve, if_pos (by simpa using hold)]

/-! Slices (R336, R337). -/

/-- A slice that fails while a spare is unused moves to it. -/
theorem failSlice_sliceState {s : State} {die p : Nat} (hspare : s.spareSlice die = some p) (x : SelfTest) (phys : Nat) :
    (s.failSlice x die phys).reg .sliceState (die * 34 + p) = 0 ∧
      (p ≠ phys → (s.failSlice x die phys).reg .sliceState (die * 34 + phys) = 2) := by
  obtain ⟨u, hu⟩ : ∃ u, u = (s.change .sliceState (die * 34 + phys) 2).change .sliceState (die * 34 + p) 0 := ⟨_, rfl⟩
  have hshown : u.reg .sliceState (die * 34 + p) = 0 ∧ (p ≠ phys → u.reg .sliceState (die * 34 + phys) = 2) := by
    rw [hu]
    refine ⟨?_, fun hne => ?_⟩
    · rw [State.reg_change _ (by decide), if_pos ⟨rfl, rfl⟩]
      rfl
    · rw [State.reg_change _ (by decide), if_neg (by omega), State.reg_change _ (by decide), if_pos ⟨rfl, rfl⟩]
      rfl
  have hkept : ∀ j, (s.failSlice x die phys).reg .sliceState j = u.reg .sliceState j := by
    intro j
    have hmoved : ∀ (ls : List Nat) (v : State), (ls.foldl (fun (v : State) l =>
        if v.reg .sliceMap (die * 32 + l) = phys then v.setReg .sliceMap (die * 32 + l) p else v) v).reg .sliceState j =
          v.reg .sliceState j := fun ls v => by
      refine State.reg_foldl (fun v l => ?_) ls v
      split
      · exact State.reg_setReg_ne _ (by decide) ..
      · rfl
    unfold State.failSlice
    rw [hspare]
    dsimp only
    rw [← hu, reg_ite, degrade_reg _ _ _ (by decide), ite_self, setTest_reg, State.reg_logError _ (by decide), hmoved,
      change_reg _ _ _ _ _ (by decide)]
  rw [hkept, hkept]
  exact hshown

theorem exec_llmMbistComplete {s : State} {die : Fin 8} {phys : Fin 34} {x : SelfTest}
    (hruns : s.runningTest 2 (die.val * 64 + phys.val) = some x) (hstage : x.stage = 0) (pass : Bool) :
    ∃ cleared : State, cleared = { s with corrections := s.corrections.filter fun c => c.1 ≠ die.val * 64 + phys.val } ∧
      exec (.llmMbistComplete die phys pass) s =
        .next (if pass then (cleared.endTest x 1).releaseSlice (die.val * 64 + phys.val)
          else (cleared.failSlice x die.val phys.val).releaseSlice (die.val * 64 + phys.val)) := by
  have hexec : exec (.llmMbistComplete die phys pass) s = execLlmMbistComplete die phys pass s := rfl
  rw [hexec, execLlmMbistComplete]
  dsimp only
  rw [hruns]
  dsimp only
  rw [if_neg (by simp [hstage])]
  exact ⟨_, rfl, (apply_ite ..).symm⟩

theorem llmMbistComplete_completes (s : State) (die : Fin 8) (phys : Fin 34) (pass : Bool) (x : SelfTest)
    (hruns : s.runningTest 2 (die.val * 64 + phys.val) = some x) (hstage : x.stage = 0) :
    Completes (.llmMbistComplete die phys pass) s fun t =>
      (pass = true → t = (({ s with corrections := s.corrections.filter fun c => c.1 ≠ die.val * 64 + phys.val } :
          State).endTest x 1).releaseSlice (die.val * 64 + phys.val)) ∧
        (∀ p, pass = false → s.spareSlice die.val = some p → t.reg .sliceState (die.val * 34 + p) = 0 ∧
          (p ≠ phys.val → t.reg .sliceState (die.val * 34 + phys.val) = 2)) := by
  obtain ⟨cleared, hcleared, hexec⟩ := exec_llmMbistComplete hruns hstage pass
  refine ⟨_, hexec, ?_, ?_⟩
  · rintro rfl
    rw [← hcleared]
    rfl
  · rintro p rfl hspare
    have hsame : cleared.spareSlice die.val = some p := hcleared ▸ hspare
    rw [if_neg (by decide), releaseSlice_reg _ _ _ (by decide), releaseSlice_reg _ _ _ (by decide)]
    exact failSlice_sliceState hsame x phys.val

theorem sliceSweepComplete_completes (s : State) (die : Fin 8) (phys : Fin 34) (x : SelfTest)
    (hruns : s.runningTest 2 (die.val * 64 + phys.val) = some x) (hstage : x.stage = 1) :
    Completes (.sliceSweepComplete die phys) s fun t => t = s.endTest x 2 := by
  have hexec : exec (.sliceSweepComplete die phys) s = execSliceSweepComplete die phys s := rfl
  rw [execSliceSweepComplete, hruns] at hexec
  dsimp only at hexec
  rw [if_pos hstage] at hexec
  exact ⟨_, hexec, rfl⟩

/-! Permanent repairs (R323, R324). -/

theorem permanentRepairStart_completes (s : State) (st : Fin 32) (r : Remap)
    (holdest : (s.remaps.find? fun r => decide (r.stack = st.val)) = some r) (hallowed : s.repairAllowed false = true) :
    Completes (.permanentRepairStart st) s fun t => t = s.startRepair st.val r.element 1 false := by
  have hexec : exec (.permanentRepairStart st) s = execPermanentRepairStart st s := rfl
  rw [execPermanentRepairStart, holdest] at hexec
  dsimp only at hexec
  rw [if_pos hallowed] at hexec
  exact ⟨_, hexec, rfl⟩

/-- The fuse pulse has ended, and the journal's entry is closed. -/
def State.endPulse (s : State) (p : Pulse) (pass : Bool) : State :=
  (State.programJournal { s with pulses := s.pulses.erase p } p.stack p.entry (2 ^ 37 + ofBool (!pass) * 2 ^ 38)).setFlag
    .fusePulses 0 p.stack false

/-- A repair that passed releases its remap row. -/
def State.releaseRemap (s : State) (p : Pulse) (pass : Bool) : State :=
  if pass && s.isRemapped p.stack p.element then
    { s with remaps := s.remaps.filter fun r => ¬ (r.stack = p.stack ∧ r.element = p.element) }.change
      .reserveRowsLeft p.stack (s.reg .reserveRowsLeft p.stack + 1)
  else s

theorem releaseRemap_facts (s : State) (p : Pulse) (pass : Bool) :
    (s.releaseRemap p pass).pulses = s.pulses ∧ (s.releaseRemap p pass).reg .fusePulses = s.reg .fusePulses := by
  unfold State.releaseRemap
  split
  · exact ⟨State.pulses_change .., change_reg _ _ _ _ _ (by decide) _⟩
  · exact ⟨rfl, rfl⟩

theorem endPulse_fusePulses {s : State} {p : Pulse} (hstack : p.stack < 32) (pass : Bool) :
    bit ((s.endPulse p pass).reg .fusePulses) p.stack = false := by
  have hcleared : (s.endPulse p pass).reg .fusePulses = withoutBit (s.reg .fusePulses) p.stack % 4294967296 :=
    State.reg_setReg_same ..
  rw [hcleared, bit_mod32 _ _ hstack, bit_withoutBit]
  simp

theorem fusePulseComplete_completes (s : State) (st : Fin 32) (pass : Bool) (p : Pulse)
    (hpulse : (s.pulses.find? fun p => decide (p.stack = st.val)) = some p) (hwarm : s.reg .warmWaiting ≠ 1)
    (hnodup : s.pulses.Nodup) :
    Completes (.fusePulseComplete st pass) s fun t =>
      p ∉ t.pulses ∧ t.flag .fusePulses 0 st = false ∧
        (p.jtag = true → t.out.head? = some (.tap (1 + 2 * ofBool (!pass)))) := by
  have hstack : p.stack = st.val := by simpa using List.find?_some hpulse
  have hexec : exec (.fusePulseComplete st pass) s = execFusePulseComplete st pass s := rfl
  rw [execFusePulseComplete, hpulse] at hexec
  dsimp only at hexec
  rw [if_neg hwarm] at hexec
  obtain ⟨u, hu⟩ : ∃ u, u = s.endPulse p pass := ⟨_, rfl⟩
  obtain ⟨v, hv⟩ : ∃ v, v = if p.jtag then u.setReg .serviceWork 0 (u.reg .serviceWork - 1) else u := ⟨_, rfl⟩
  obtain ⟨w, hw⟩ : ∃ w, w = v.releaseRemap p pass := ⟨_, rfl⟩
  have hended : exec (.fusePulseComplete st pass) s = .next (if p.jtag then w.send (.tap (1 + 2 * ofBool (!pass))) else w) := by
    rw [hexec, hw, hv, hu]
    rfl
  obtain ⟨hreleased, hflags⟩ := releaseRemap_facts v p pass
  have hcounted : v.pulses = u.pulses ∧ v.reg .fusePulses = u.reg .fusePulses := by
    rw [hv]
    split
    · exact ⟨rfl, State.reg_setReg_ne _ (by decide) ..⟩
    · exact ⟨rfl, rfl⟩
  have hgone : p ∉ w.pulses := by
    rw [hw, hreleased, hcounted.1, hu]
    exact hnodup.not_mem_erase
  have hclear : bit (w.reg .fusePulses) st.val = false := by
    rw [hw, hflags, hcounted.2, hu, ← hstack]
    exact endPulse_fusePulses (hstack ▸ st.isLt) pass
  refine ⟨_, hended, ?_⟩
  split
  · exact ⟨hgone, hclear, fun _ => rfl⟩
  · next hother => exact ⟨hgone, hclear, fun hjtag => absurd hjtag hother⟩

/-- Settles O15: each command of the stacks and of the last-level memory, and what a request to a channel and a narrow request meet. -/
theorem stackMemoryComplete : Obligations.StackMemoryComplete :=
  ⟨channelParityReplay_completes, calibrationDrift_completes, channelRetrainComplete_completes, softRemapComplete_completes,
    patternTestComplete_completes, channelMapoutSwitch_completes, migrationComplete_completes, allocTopWrite_completes,
    mapoutForceWrite_completes, stackRead_completes, toChannel_facts, offerNarrow_facts, stackWrite_completes,
    llmFillComplete_completes, narrowRequest_completes, narrowRequest_waits, coalescingWaitExpiry_completes,
    scrubLine_completes, llmMbistComplete_completes, sliceSweepComplete_completes, permanentRepairStart_completes,
    fusePulseComplete_completes⟩

end Sys2Proof.Machine
end
